-- ==== Sys2Proof/Word.lean ====
section
/-! DEFINITION. The word types of the block: bytes, 32-bit register words (R9) and 64-bit values. -/

namespace Sys2Proof

/-- A byte. -/
abbrev Byte := BitVec 8

/-- A 32-bit register word, little-endian (R9). -/
abbrev Word := BitVec 32

/-- A 64-bit value: a counter (R183), an engine register (R293), a table word. -/
abbrev Dword := BitVec 64

end Sys2Proof
end

