-- ==== Sys2Proof/Syntax.lean ====
section
/-! DEFINITION. The commands the block takes: one constructor per row of spec/opcode_table.json, with the operands the row's
rule gives it (a window and a register value for an access, a channel, or what an agent outside the model brings: a
measured value, a frame's bytes, a result). -/

namespace Sys2Proof

/-- The two variants (R1). -/
inductive Variant where
  | kg4256 | kg4128
  deriving DecidableEq, Repr

/-- Through what a register access comes: window H, window B (R109), or Hallmark's private path, whose accesses name the
channel (R110). -/
inductive Window where
  | h
  | b
  | hm (chan : Nat) (whole : Bool)
  deriving DecidableEq, Repr

/-- The blocks of the page map (R105). -/
inductive Block where
  | sys | evt | hmk | bnc | pwr | cfg | rst | lan | prt | tie | prs | cls | l2t | lpm | flt | fch | hbm | dsp | fen | mcs
  | bpm | swc | tmg | tim | tsu | tmk | pcn | hif | mio | scr
  deriving DecidableEq, Repr

/-- A target of the common state machine: the block-wide part (`none`) or one channel (R121). -/
structure Target where
  block : Block
  chan : Option Nat
  deriving DecidableEq, Repr

/-- What MSI-X unmasking acts on: one vector's mask bit, or the function's Message Control word (R131). -/
inductive MsixTarget where
  | vector (v : Nat)
  | function (enable maskAll : Bool)
  deriving DecidableEq, Repr

/-- How a start-up step ended: passed, with the byte strings it read (step 4: directory, its copy, slot A, slot B; step 8: CFG0, CFG1;
what could not be read is empty); passed but with an unreadable Touchmark region (step 2); with a Bench copy whose digest
differs (step 8 of a warm reset, R89); or failed with a code of R97 and its detail. -/
inductive StepOutcome where
  | passed (read : List (List Byte))
  | noFlash
  | digestBad
  | failed (code : Nat) (detail : Nat)
  deriving DecidableEq, Repr

/-- A request of the partner during link training (R139). -/
inductive TapReq where
  | preset (n : Nat)
  | pre (up : Bool)
  | post (up : Bool)
  | main (up : Bool)
  deriving DecidableEq, Repr

/-- What foreground adaptation of one lane found (R145, R154): SNR, equaliser codes, PMA delays. -/
structure AdaptResult where
  snr : Nat
  ctle : Nat
  dfe : Nat
  txDelay : Nat
  rxDelay : Nat
  deriving DecidableEq, Repr

/-- A background step of one equaliser parameter (R152): at most one code. -/
inductive StepDir where
  | up | keep | down
  deriving DecidableEq, Repr

/-- What a port's PCS lost (R169), or that what it had lost has come back. -/
inductive PcsFault where
  | blockLock | alignLock | hiBer | localFault
  /-- The PCS holds its locks and no fault is present. -/
  | clear
  /-- The partner no longer sends remote fault. -/
  | remoteEnd
  deriving DecidableEq, Repr

/-- How the flush of a record ends (R573, R575): done, or with a write, or the erase of the next sector, that fails its read-back. -/
inductive FlushOutcome where
  | done
  | writeFailed
  | eraseFailed
  deriving DecidableEq, Repr

/-- What a tie lane measures as it takes symbol lock: its skew (R149), and what foreground adaptation found (R152) with the PMA delays (R154). -/
structure LaneLock where
  skew : Nat
  adapt : AdaptResult
  deriving DecidableEq, Repr

/-- A decoded FEC codeword (R166): symbols in error, and frames with bytes in it that have not ended. -/
structure Codeword where
  symErrs : Nat
  frames : Nat
  deriving DecidableEq, Repr


/-- The memory error that a flow operation meets (R278): none; one that is corrected, in the bucket (`corrected`), in the record read
after `k` others, in the overflow row or in the cache line found; or what cannot be corrected: the record read after `k` others, the
bucket, an overflow entry, or the cache line found. -/
inductive LookupErr where
  | none
  | corrected
  | recordCorrected (k : Nat)
  | overflowCorrected
  | lineCorrected
  | record (k : Nat)
  | bucket
  | overflow (e : Nat)
  | line
  deriving DecidableEq, Repr

/-- A table operation that completes: its admission sequence number and the memory error it met (R278). -/
structure OpEnd where
  seq : Nat
  err : LookupErr := .none
  deriving DecidableEq, Repr

/-- A place that the scanner visits: a bucket, or from the record count on an overflow entry; `lost` says that it cannot be corrected, `corrected` that an
error of it is corrected. -/
structure ScanVisit where
  place : Nat
  lost : Bool := false
  corrected : Bool := false
  deriving DecidableEq, Repr

/-- How a received frame ended (R25, R163): good, with a bad FCS, with an inverted FCS (stomped), or lost to receive FIFO overflow. -/
inductive TailOutcome where
  | good | badFcs | stomped | overflow
  deriving DecidableEq, Repr


/-- What a capability message holds (R490). -/
structure TieCap where
  part : Nat
  revision : Nat
  deviceId : Nat
  strapRole : Nat
  liveRole : Nat
  link : Nat
  meshId : Nat
  epoch : Nat
  credits : Nat
  deriving DecidableEq, Repr

/-- What a heartbeat holds (R504): live role, manager epoch, member, absent and lost bitmaps, manager_seen, the current version, whether
one drains and whether its in-flight count is zero, and the latest control message received in order. -/
structure Heartbeat where
  role : Nat
  epoch : Nat
  members : Nat
  absent : Nat
  lost : Nat
  managerSeen : Bool
  current : Nat
  draining : Bool
  idle : Bool
  ack : Nat
  deriving DecidableEq, Repr

/-- A time transfer message (R510): a request with T1, or an answer with T2, T3 and whether the responder's epoch changed between. Times
are in 2⁻¹⁶ ns. -/
inductive TimeMsg where
  | request (t1 : Nat)
  | answer (t2 t3 : Nat) (epochChanged : Bool)
  deriving DecidableEq, Repr

/-- What a scrubber's word belongs to (R518 to R523): an HBM word in use; word `word` of buffer `index` of a pool; a line of the flow
cache, named by its record; an LPM pool entry; an overflow entry; a rule of a half of the classifier memory; an L2 entry; a next hop;
an ECMP group; a member slot; control state of a block or channel; Hallmark's private memory. -/
inductive ScrubWord where
  | hbm
  | buffer (pool index word : Nat)
  | cacheLine (recIndex : Nat)
  | lpm (i : Nat)
  | overflow (e : Nat)
  | rule (half index : Nat)
  | l2 (i : Nat)
  | nextHop (i : Nat)
  | ecmp (g : Nat)
  | member (i : Nat)
  | control (t : Target)
  | hallmark
  deriving DecidableEq, Repr

/-- What the SECDED code of a word says (R517). -/
inductive EccOutcome where
  | clean | corrected | uncorrectable
  deriving DecidableEq, Repr

/-- HALLMARK_RESTART's stages (R527): the error, or the end of the restart with the golden copies (cluster and bank) whose digests fail. -/
inductive HmkStage where
  | error
  | done (bad : List (Nat × Nat))
  deriving DecidableEq, Repr

/-- The commands of the block: one constructor per row of spec/opcode_table.json, in its order. -/
inductive Instr where
  /-- REGISTER_WRITE (R7): A write through window H or B to a register that has no behaviour of its own stores the value, or is refused under its access code, OWNER or reserved-bit rules. -/
  | registerWrite (w : Window) (off : Nat) (be : Nat) (write : Bool) (v : Word)
  /-- COUNTER_SNAPSHOT_READ (R183): A read of a 64-bit counter's LO word snapshots its HI word and wrap bit for the window. -/
  | counterSnapshotRead (w : Window) (off : Nat)
  /-- COUNTER_CLEAR (R183): A write to a block's CNT_CLEAR sets the named counters to zero at one point. -/
  | counterClear (w : Window) (off : Nat) (v : Word)
  /-- CHAN_SEL_WRITE (R112): A write of CHAN_SEL sets the window's channel latch, or is refused with sel_error when the channel is out of range. -/
  | chanSelWrite (w : Window) (b : Block) (v : Word)
  /-- OWNER_WRITE (R115): A write of OWNER takes, releases or is refused the block lock by window and holder. -/
  | ownerWrite (w : Window) (b : Block) (v : Word)
  /-- ENABLE_WRITE (R121): A write of enable in BLOCK_CTL moves a channel or block-wide part through the common state machine. -/
  | enableWrite (w : Window) (b : Block) (v : Word)
  /-- PRECONDITION_MET (R121): A HELD target whose block-wide part is ON and whose preconditions are met moves to STARTING. -/
  | preconditionMet (t : Target)
  /-- PRECONDITION_LOST (R121): A STARTING or ON target that loses a precondition, or whose block-wide part leaves ON, starts to drain. -/
  | preconditionLost (t : Target)
  /-- START_COMPLETE (R121): A STARTING target completes its start and moves to ON. -/
  | startComplete (t : Target) (failed : Bool)
  /-- START_BOUND_EXCEEDED (R121): A STARTING target overruns its start bound and enters FAULT with fault_code 0x01. -/
  | startBoundExceeded (t : Target)
  /-- DRAIN_COMPLETE (R122): A DRAINING target completes its drain and goes to OFF, restarting at once if pend_on is set. -/
  | drainComplete (t : Target)
  /-- DRAIN_FORCED (R121): A DRAINING target overruns its drain bound, discards the work left and completes the drain. -/
  | drainForced (t : Target)
  /-- UNRECOVERABLE_ERROR (R121): An ON target meets an unrecoverable error of its block and enters FAULT with fault_code 0x03. -/
  | unrecoverableError (t : Target)
  /-- BLOCK_RESET_GO (R124): A write of go with key 0xA5 to BLOCK_RESET drains or discards the target and returns it to its reset values. -/
  | blockResetGo (w : Window) (b : Block) (v : Word)
  /-- COMMIT_NOW (R118): A write of now to COMMIT checks the block's shadow set and moves it into effect at the next commit point, or refuses it. -/
  | commitNow (w : Window) (b : Block)
  /-- COMMIT_AT_TIME (R119): A write of at_time arms a commit for the time held in COMMIT_AT_SEC and COMMIT_AT_NS. -/
  | commitAtTime (w : Window) (b : Block)
  /-- TIMED_COMMIT_FIRE (R119): The time base reaches an armed commit time and the commit takes effect at the next commit point. -/
  | timedCommitFire (b : Block)
  /-- COMMIT_CANCEL (R120): A write of cancel returns a pending commit to idle and keeps the shadow values. -/
  | commitCancel (w : Window) (b : Block)
  /-- EVT_FORCE_WRITE (R129): A write of 1 to an EVT_FORCE bit asserts that source once, outside the limiter. -/
  | evtForceWrite (w : Window) (b : Block) (k : Nat) (v : Word)
  /-- CAUSE_CLEAR (R126): A W1C write to an EVT_CAUSE or CHAN_PEND register clears the written bits, unless an assertion meets it in the cycle. -/
  | causeClear (w : Window) (off : Nat) (v : Word)
  /-- LIMIT_WINDOW_END (R128): A source's counting window of window_ms ends and its count returns to zero. -/
  | limitWindowEnd (src : Nat)
  /-- AUTO_MASK_QUIET_EXPIRE (R128): A source with no assertion for quiet_10ms × 10 ms has its auto-mask bit cleared and auto_mask_cleared raised. -/
  | autoMaskQuietExpire (src : Nat)
  /-- AUTO_MASK_WRITE (R128): A write of 1 to an AUTO_MASK bit clears it at once and returns the source's count to zero. -/
  | autoMaskWrite (w : Window) (g : Nat) (v : Word)
  /-- SUPP_COUNT_CLEAR (R128): A write of clear to EVT.SUPP_COUNT sets the selected source's suppressed count to zero. -/
  | suppCountClear (w : Window) (v : Word)
  /-- VEC_REARM (R131): A write of a vector to EVT.VEC_REARM resends the MSI-X message if the vector is still active. -/
  | vecRearm (w : Window) (v : Word)
  /-- MSIX_UNMASK (R131): Unmasking a vector or the function releases a pending MSI-X message under PCI Express rules. -/
  | msixUnmask (t : MsixTarget)
  /-- RAIL_GOOD (R55): A rail has stayed above its good threshold for 10 ms and becomes good. -/
  | railGood (r : Nat) (slow : Bool)
  /-- RAIL_FAIL (R61): A rail below its fail threshold for 2 µs puts the device into power-on reset and quiets every output within 1 µs. -/
  | railFail (r : Nat)
  /-- POR_RELEASE (R69): Power-on reset is released at the latest of last rail good, REFCLK_SYS detection and RESET_N release, and the straps are sampled. -/
  | porRelease (straps : Nat)
  /-- RESET_N_ASSERT (R66): A low level on RESET_N lasting 2 µs puts the device into reset as in power-on reset. -/
  | resetNAssert
  /-- RESET_N_RELEASE (R69): RESET_N rises and the device leaves reset 10 µs later, sampling the straps. -/
  | resetNRelease (straps : Nat)
  /-- PERST_N_ASSERT (R68): PERST_N held low resets only the PCIe endpoint and HIF, abandoning DMA and any host load in progress. -/
  | perstNAssert
  /-- PERST_N_RELEASE (R68): PERST_N rises and the PCIe endpoint leaves reset. -/
  | perstNRelease
  /-- WARM_RESET_REQUEST (R67): A write of go with key 0x5A to RST.WARM_CTL starts a warm reset, or is counted as ignored while one is in progress. -/
  | warmResetRequest (w : Window) (v : Word)
  /-- FAIL_LATCH_CLEAR (R64): A write of 1 to fail_valid in PWR.RAIL_STATUS clears the rail-fail latch. -/
  | failLatchClear (w : Window) (v : Word)
  /-- STRAP_COMPARE (R54): Every 1 ms the live straps are compared with the sampled ones and ten consecutive differences raise strap-changed. -/
  | strapCompare (straps : Nat)
  /-- REFCLK_SYS_TIMEOUT (R75): REFCLK_SYS absent 100 ms at power-on releases reset on the backup oscillator and enters the held state with code 0x01. -/
  | refclkSysTimeout (straps : Nat)
  /-- REFCLK_SYS_LOST (R75): REFCLK_SYS shows no edge for 2 µs while running and the clocked islands switch to the backup oscillator. -/
  | refclkSysLost
  /-- REFCLK_SYS_RESTORED (R75): REFCLK_SYS is detected again after 10 ms and the islands switch back within 1 µs. -/
  | refclkSysRestored
  /-- REFCLK_LANE_LOST (R75): A chiplet's REFCLK_LANE is lost, its lanes lose their precondition and raise pll_unlock. -/
  | refclkLaneLost (c : Nat)
  /-- REFCLK_LANE_RESTORED (R75): A chiplet's REFCLK_LANE is detected again and its enabled lanes rerun their bring-up. -/
  | refclkLaneRestored (c : Nat)
  /-- TIME_REF_LOST (R455): TIME_REF_IN is lost and the time clock moves to scaled REFCLK_SYS within 1 µs, raising ref_lost. -/
  | timeRefLost
  /-- TIME_REF_RESTORED (R455): TIME_REF_IN is detected again, raising ref_restored and moving back if revert is 1. -/
  | timeRefRestored
  /-- REF_RATIO_MEASURE (R455): Every 1 s the device measures REFCLK_SYS against TIME_REF_IN for holdover. -/
  | refRatioMeasure (ratio : Nat)
  /-- PACE_MEASURE (R80): Every 1 µs each pace monitor measures a stage delay; a lowest margin below threshold withdraws cut-through and raises pace_margin. -/
  | paceMeasure (delays : List Nat)
  /-- PACE_RECOVERY_EXPIRE (R80): The lowest margin has stayed at or above threshold for recovery_ms, cut-through is restored and pace_restored raised. -/
  | paceRecoveryExpire
  /-- AVS_STEP_UP (R82): On pace_margin and every 1 ms while below threshold the suggested voltage rises by step_up, up to the ceiling. -/
  | avsStepUp
  /-- AVS_STEP_DOWN (R82): After each 1 s above down_margin_ps the suggested voltage falls by step_down, down to the floor. -/
  | avsStepDown
  /-- AVS_WRITE_DONE (R83): An AVSBus voltage write and read-back completes, or fails and schedules a retry. -/
  | avsWriteDone (ok : Bool)
  /-- AVS_RETRY (R83): 100 µs after a failed write the device retries once and on failure sets bus_error. -/
  | avsRetry (ok : Bool)
  /-- PACE_LOW_CLEAR (R79): A write of low_clear to PWR.PACE_MARGINk sets low_water to the current margin. -/
  | paceLowClear (w : Window) (k : Nat) (v : Word)
  /-- STARTUP_STEP_DONE (R85): A step of the start-up sequence completes and the next step begins, ending in active or the held state. -/
  | startupStepDone (o : StepOutcome)
  /-- STEP_OVERRUN (R86): A start-up step overruns its bound, sets overrun_step and raises step_overrun while the step continues. -/
  | stepOverrun
  /-- START_LOAD (R100): A go with mode 0 in CFG.LOAD_CTL in awaiting_host or held resets written blocks and runs steps 8–13 on the host image. -/
  | startLoad (w : Window) (v : Word) (image : List Byte)
  /-- RUN_TIME_LOAD (R101): A go with mode 1 in the active state loads an image as one change against staging and commits each block, or refuses it whole. -/
  | runTimeLoad (w : Window) (v : Word) (image : List Byte)
  /-- AN_PAGE_RECEIVED (R146): The AN lane receives a clause 73 base or next page from the partner and resolves the HCD when the exchange ends. -/
  | anPageReceived (p : Nat) (page : Nat) (base : Bool)
  /-- AN_NO_HCD_RESTART (R146): After an_no_hcd, break_link_timer expires and autonegotiation restarts. -/
  | anNoHcdRestart (p : Nat)
  /-- TRAINING_COMPLETE (R145): Link training completes on a lane and the port moves on to adaptation once every lane has finished. -/
  | trainingComplete (l : Nat) (reqs : List TapReq) (txPre : Bool)
  /-- TRAINING_TIMEOUT (R147): Training has not finished within max_wait_ms; train_fail is counted and the port's lanes enter hold-down. -/
  | trainingTimeout (l : Nat)
  /-- ADAPT_COMPLETE (R145): Foreground adaptation completes with signal present on every lane and the lanes go to data, raising link_up. -/
  | adaptComplete (l : Nat) (rs : List AdaptResult)
  /-- SIGNAL_PRESENT (R143): The received swing has stayed above threshold for assert_ms and signal is present on the lane. -/
  | signalPresent (l : Nat)
  /-- SIGNAL_LOST (R147): The received swing has stayed below threshold for deassert_us; signal_lost is raised and the link goes down or restarts. -/
  | signalLost (l : Nat)
  /-- SD_GLITCH (R143): A drop below threshold shorter than deassert_us ends, adding one to sd_glitch. -/
  | sdGlitch (l : Nat)
  /-- HOLDDOWN_EXPIRE (R144): A lane's hold-down of holddown_10ms × 10 ms ends and its link sequence starts again. -/
  | holddownExpire (l : Nat)
  /-- TIE_DETECT_WAIT (R149): Each 1 s of waiting in tie detect raises tie_detect_wait. -/
  | tieDetectWait (l : Nat)
  /-- COMMA_LOCK (R149): A tie lane sees four consecutive commas at one offset, takes symbol lock and the link aligns its lanes. -/
  | commaLock (l : Nat) (offset : Nat) (lock : LaneLock)
  /-- COMMA_ERROR (R150): A comma seen at another offset while locked is counted in comma_err. -/
  | commaError (l : Nat)
  /-- COMMA_LOCK_LOST (R150): Four blocks without a comma at the locked offset lose symbol lock and send the link back to step 3. -/
  | commaLockLost (l : Nat)
  /-- COMMA_RELOCK_TIMEOUT (R150): Step 3 has not completed within 10 ms of a comma-lock loss; the lanes raise link_down and restart. -/
  | commaRelockTimeout (l : Nat)
  /-- BACKGROUND_ADAPT (R152): A background adaptation step moves an equaliser parameter by at most one code per 100 µs. -/
  | backgroundAdapt (l : Nat) (ctle dfe : StepDir) (snr : Nat)
  /-- ADAPT_LIMIT (R152): A parameter has stayed at the end of its range for 100 ms and adapt_limit is raised. -/
  | adaptLimit (l : Nat)
  /-- SNR_LOW (R152): Estimated SNR has stayed below snr_min for 10 ms and snr_low is raised. -/
  | snrLow (l : Nat)
  /-- CAL_VISIT (R153): Every 200 µs the calibration sequencer visits the next lane and trims its offsets by one code. -/
  | calVisit (c : Nat) (inRange : Bool)
  /-- TX_EQ_STEP (R142): Every 1 µs after a TX_EQ commit each tap and amp moves one step towards its new value. -/
  | txEqStep (l : Nat)
  /-- PAT_LOCK (R157): The pattern checker matches 64 consecutive symbols and raises pat_lock. -/
  | patLock (l : Nat)
  /-- PAT_LOCK_LOST (R157): More than 1,024 of 4,096 symbols in error lose checker lock and raise pat_lock_lost. -/
  | patLockLost (l : Nat)
  /-- PAT_WRAP (R157): A pattern error or bit counter wraps, setting its wrap bit and raising pat_wrap. -/
  | patWrap (l : Nat) (errs bits : Nat)
  /-- PAT_INJECT (R157): A write of inject in LAN.PAT_CTL makes the generator invert one bit. -/
  | patInject (w : Window) (v : Word)
  /-- PAT_CLEAR (R157): A write of clear in LAN.PAT_CTL sets both checker counters to zero at one point. -/
  | patClear (w : Window) (v : Word)
  /-- EYE_START (R158): A write of start in LAN.EYE_CTL begins an eye measurement, or sets overrun while busy. -/
  | eyeStart (w : Window) (v : Word)
  /-- EYE_DONE (R158): An eye measurement finishes, sets done and raises eye_done. -/
  | eyeDone (l : Nat) (vert horz : Nat)
  /-- FEC_CODEWORD_DECODE (R166): A port FEC codeword is decoded, corrected or marks its frames bad. -/
  | fecCodewordDecode (p : Nat) (word : Codeword)
  /-- PCS_FAULT (R169): Loss of lock, hi_ber or a local fault while up raises pcs_fault. -/
  | pcsFault (p : Nat) (k : PcsFault)
  /-- PCS_FAULT_PERSIST (R169): A PCS fault lasts down_100us × 100 µs and the link goes down, raising link_down and restarting the lanes. -/
  | pcsFaultPersist (p : Nat)
  /-- LINK_UP_TIMER (R168): All link-up conditions have held for up_ms and the port raises link_up. -/
  | linkUpTimer (p : Nat) (rxFixed txFixed : Nat)
  /-- REMOTE_FAULT_RECEIVED (R169): A remote fault takes the link down without restarting the lanes. -/
  | remoteFaultReceived (p : Nat)
  /-- FLAP_WINDOW_END (R170): A flap window of flap_window seconds ends and flap_count returns to zero unless suppressed. -/
  | flapWindowEnd (p : Nat)
  /-- PENALTY_END (R170): A suppression penalty ends, flap_count is cleared and flap_released raised. -/
  | penaltyEnd (p : Nat)
  /-- FRAME_ARRIVAL (R11): A frame begins to arrive at a port MAC, is timestamped and its bytes are written into P0 cells as they come. -/
  | frameArrival (p sub : Nat) (head : List Byte) (len : Nat) (overflow : Bool)
  /-- FRAME_TAIL_ARRIVAL (R393): A frame's last byte arrives; its FCS is checked, it becomes eligible, learns its source or is freed and its item cancelled. -/
  | frameTailArrival (p : Nat) (rest : List Byte) (o : TailOutcome)
  /-- PARSE_FRAME (R189): The parser walks a frame's headers under its profile and rule version, waiting for bytes as needed. -/
  | parseFrame (p : Nat)
  /-- RECIRC_REENTRY (R218): A recirculated frame returns from the loop into new cells and is parsed and classified again under its first-pass version. -/
  | recircReentry
  /-- HOST_FRAME_ARRIVAL (R186): A frame from the host enters at the parser under PRS.HOST_PROFILE. -/
  | hostFrameArrival (bytes : List Byte)
  /-- DISPATCH_ROUND (R335): A dispatcher round admits, acts on cancels, selects eligible heads and fills engine slots. -/
  | dispatchRound (c : Nat)
  /-- ITEM_AGE_EXPIRE (R347): An item not started by its class age limit since admission is cancelled with reason age. -/
  | itemAgeExpire (c seq : Nat)
  /-- FLOW_LOOKUP_DONE (R262): A selected item's flow lookup completes from the cache, bucket, records or overflow store and the item is staged. -/
  | flowLookupDone (c seq : Nat) (err : LookupErr)
  /-- CACHE_SET_UNLOCK (R276): A lookup waiting on a fully locked cache set proceeds when a line of the set unlocks. -/
  | cacheSetUnlock (c seq : Nat)
  /-- ITEM_START (R302): An engine fetches an item's first word on the live bank, or drops it when its program entry is invalid. -/
  | itemStart (e : Nat)
  /-- MICROWORD_EXECUTE (R303): An engine executes one microword, its four slices acting together, or stalls on a pending register or byte. -/
  | microwordExecute (e : Nat)
  /-- EXT_RESULT (R301): An external operation's result arrives in its register after its latency. -/
  | extResult (e d : Nat)
  /-- ITEM_END (R307): After outstanding results arrive, the item rewrites the frame, writes its record, counters and flow operations, emits its verdict and releases the tag. -/
  | itemEnd (e : Nat)
  /-- MACHINE_CHECK (R313): A fetched word with bad parity or an undefined encoding abandons the item, marks the word for reload and retries or drops. -/
  | machineCheck (e flip : Nat)
  /-- WORD_RELOAD_DONE (R312): Hallmark rewrites a marked microword from the golden copy and waiting engines resume. -/
  | wordReloadDone (c bank w : Nat)
  /-- CLUSTER_RETURN (R353): A cluster's MCS and DSP channels are both ON again; cluster_returned is raised and entries homed there may move back. -/
  | clusterReturn (c : Nat)
  /-- GOLDEN_COMPARE (R316): Every 1 µs Hallmark compares one word per cluster with its golden copy and rewrites a mismatch. -/
  | goldenCompare (c : Nat) (flip : Option Nat)
  /-- GOLDEN_DIGEST_CHECK (R316): Before each comparison pass Hallmark checks every golden copy against its SHA-384 digest. -/
  | goldenDigestCheck (c bank : Nat) (ok : Bool)
  /-- BANK_LOAD_DONE (R321): Hallmark finishes writing a bank and its golden copy and sets the bank ready. -/
  | bankLoadDone (c : Nat)
  /-- BANK_DRAIN_COMPLETE (R323): No engine runs an item on a draining bank any more and the bank becomes ready. -/
  | bankDrainComplete (c : Nat)
  /-- MCS_WORD_LOAD (R326): A write of load in MCS.WORD_ADDR loads the addressed microword and parity into WORD_DATA0–6. -/
  | mcsWordLoad (w : Window) (v : Word)
  /-- IND_DATA_WRITE (R215): A write of CLS.IND_DATA sets an indirection entry, hands a steering change to a fence, or is refused. -/
  | indDataWrite (w : Window) (v : Word)
  /-- FENCE_TARGET_READY (R350): A fence waiting for its target opens when the target's DSP channel reaches ON. -/
  | fenceTargetReady (e : Nat)
  /-- FENCE_DRAINED (R348): The old cluster has no item of the entry left; parked items become eligible and the fence closes. -/
  | fenceDrained (e : Nat)
  /-- FENCE_OVERRUN (R350): The old cluster has not drained after fence_limit_ms; its unstarted items are cancelled and operations transferred. -/
  | fenceOverrun (e : Nat)
  /-- STEER_CFG_WRITE (R217): A write of CLS.STEER_CFG chooses the steering table, or is ignored while DSP is not OFF or the table is a host_table. -/
  | steerCfgWrite (w : Window) (v : Word)
  /-- CLASS_WAIT_CLEAR (R347): A write of clear in DSP.CLASS_WAITc sets max_wait to zero. -/
  | classWaitClear (w : Window) (k : Nat) (v : Word)
  /-- CELL_EPOCH (R426): At each cell epoch every scheduler states a class per destination and the crossbar runs three request-grant-accept iterations. -/
  | cellEpoch
  /-- CREDIT_RETURN (R403): A cell leaves its output group's transmit buffer and its credit returns. -/
  | creditReturn (d : Nat)
  /-- VOQ_AGE_DROP (R407): A frame whose first cell has not been granted by its age limit plus 50 µs is removed and age_drop raised. -/
  | voqAgeDrop (g d c n : Nat)
  /-- EGRESS_EDIT (R176): A crossed frame is rewritten from its next-hop result and its PRP or HSR framing inserted, removed or converted. -/
  | egressEdit (d : Nat)
  /-- HOST_DELIVERY (R409): A frame reaching output group 33 is handed to its host or Bench queue, or dropped when no descriptor is free. -/
  | hostDelivery (free : Bool)
  /-- MIRROR_COPY (R411): At output group 35 a mirror copy is made into new cells and enters the VOQ of the mirror destination. -/
  | mirrorCopy
  /-- TX_FRAME_START (R444): The transmit MAC commits to start a frame, holding a gated frame until its gate opens and computing its PTP correction. -/
  | txFrameStart (d sub : Nat)
  /-- CT_UNDERRUN (R406): The transmit MAC needs a byte of a cut-through frame that has not arrived and ends it stomped. -/
  | ctUnderrun (d : Nat)
  /-- TX_FRAME_END (R173): A frame's last bit leaves the port; its egress time is kept, counters and the version's in-flight count are updated. -/
  | txFrameEnd (d : Nat)
  /-- GATE_ENTRY_CHANGE (R436): A gate list entry or cycle boundary is reached and the port's gate byte changes. -/
  | gateEntryChange (d : Nat)
  /-- GATE_TAKEOVER (R438): The time base reaches takeover time T and the pending list becomes operating at entry 0. -/
  | gateTakeover (d : Nat)
  /-- GATE_CANCEL (R440): A write of cancel in TMG.GATE_STATUS cancels the pending takeover. -/
  | gateCancel (w : Window) (v : Word)
  /-- GCL_DATA_HI_WRITE (R440): A write of GCL_DATA_HI writes a gate list entry, or is refused for an operating or pending list. -/
  | gclDataHiWrite (w : Window) (v : Word)
  /-- GCL_ENTRY_LOAD (R440): A read of GCL_DATA_LO loads the addressed gate list entry into both registers. -/
  | gclEntryLoad (w : Window)
  /-- METER_WRITE (R435): METER_OP op 1 writes the staging registers to the meter and fills its buckets, or is refused. -/
  | meterWrite (w : Window) (v : Word)
  /-- METER_READ (R435): METER_OP op 2 reads the meter, its tokens and counters into the window, optionally clearing the counters. -/
  | meterRead (w : Window) (v : Word)
  /-- METER_UNBLOCK (R435): METER_OP op 3 clears blocked and all_red of the meter. -/
  | meterUnblock (w : Window) (v : Word)
  /-- BPM_ALLOC (R418): A go in BPM.ALLOC serves a software allocation under reserves, caps and fall-up, and writes the handle or empty response. -/
  | bpmAlloc (w : Window) (v : Word)
  /-- BPM_FREE (R417): A write of BPM.FREE_HANDLE frees the buffer or refuses a double, foreign or bad free. -/
  | bpmFree (w : Window) (v : Word)
  /-- BUF_DATA_ACCESS (R419): A BPM.BUF_DATA access reads or writes four bytes of the selected buffer and may advance the offset. -/
  | bufDataAccess (w : Window) (write : Bool) (v : Word)
  /-- L2_UPDATE_APPLY (R231): The L2 update engine applies one queued change, re-reading its entry. -/
  | l2UpdateApply
  /-- L2_LOOKUP_OP (R231): L2T.OP op 1 looks up an entry by key. -/
  | l2LookupOp (w : Window) (v : Word)
  /-- L2_WRITE_OP (R231): L2T.OP op 2 writes the key with ENTRY_DATA through the update queue. -/
  | l2WriteOp (w : Window) (v : Word)
  /-- L2_DELETE_OP (R231): L2T.OP op 3 deletes an entry by key through the update queue. -/
  | l2DeleteOp (w : Window) (v : Word)
  /-- L2_READ_INDEX_OP (R231): L2T.OP op 4 reads the entry at an index. -/
  | l2ReadIndexOp (w : Window) (v : Word)
  /-- L2_AGING_TICK (R238): The L2 tick passes, the tick count rises and the scanner retires entries older than age_limit. -/
  | l2AgingTick
  /-- LEARN_TOKEN_GAIN (R236): The learning queue's token bucket gains one token. -/
  | learnTokenGain
  /-- NODE_DATA_HI_WRITE (R243): A write of LPM.NODE_DATA_HI writes an 8-byte trie entry in one operation, or is ignored if invalid. -/
  | nodeDataHiWrite (w : Window) (v : Word)
  /-- NODE_ENTRY_LOAD (R243): A read of LPM.NODE_DATA_LO loads the addressed trie entry into LO and HI. -/
  | nodeEntryLoad (w : Window)
  /-- LPM_FENCE (R243): A go in LPM.FENCE waits for every walk started earlier and then sets done. -/
  | lpmFence (w : Window) (v : Word)
  /-- LPM_FENCE_DONE (R243): Every walk started before the fence has finished and done reads 1. -/
  | lpmFenceDone
  /-- NH_DATA3_WRITE (R245): A write of NH_DATA3 writes a next-hop entry in one operation, or is ignored if invalid. -/
  | nhData3Write (w : Window) (v : Word)
  /-- NH_ENTRY_LOAD (R245): A read of NH_DATA0 loads the addressed next hop into NH_DATA0–3. -/
  | nhEntryLoad (w : Window)
  /-- ECMP_DATA_WRITE (R247): A write of ECMP_DATA writes a group entry in one operation, or is ignored when it runs past the pool. -/
  | ecmpDataWrite (w : Window) (v : Word)
  /-- MEMBER_DATA_WRITE (R247): A write of MEMBER_DATA writes one ECMP member slot. -/
  | memberDataWrite (w : Window) (v : Word)
  /-- SMAC_HI_WRITE (R245): A write of LPM.SMAC_HIi makes both words of source MAC i take effect together. -/
  | smacHiWrite (w : Window) (k : Nat) (v : Word)
  /-- STAT_CLEAR (R238): A write of an L2T, LPM or TMK STAT_CLEAR sets the named statistics to zero. -/
  | statClear (w : Window) (b : Block) (v : Word)
  /-- CLS_CHECK_DONE (R209): The check of a CLS commit ends and the new version becomes current while the old one drains, or the commit is refused. -/
  | clsCheckDone
  /-- DRAIN_OVERRUN (R211): A draining version's count is not zero after drain_limit_ms and drain_overrun is raised. -/
  | drainOverrun
  /-- FORCE_FREE (R211): A write of force_free frees the draining version at once and drops its frames still to recirculate. -/
  | forceFree (w : Window) (v : Word)
  /-- STAGE_COPY (R212): A write of copy in CLS.STAGE_CTL starts copying the current version into staging, or is refused. -/
  | stageCopy (w : Window) (v : Word)
  /-- STAGE_COPY_DONE (R212): A staging copy or clear completes and busy reads 0. -/
  | stageCopyDone
  /-- STAGE_CLEAR (R212): A write of clear in CLS.STAGE_CTL sets every staging rule and the count to zero. -/
  | stageClear (w : Window) (v : Word)
  /-- STAGE_RULE_LOAD (R212): A write of load in CLS.STAGE_ADDR loads the addressed staging rule into STAGE_DATA0–15. -/
  | stageRuleLoad (w : Window) (v : Word)
  /-- STAGE_DATA15_WRITE (R212): A write of STAGE_DATA15 writes the 64-byte rule to staging, or is refused while a commit or drain is pending. -/
  | stageData15Write (w : Window) (v : Word)
  /-- FLOW_TICK (R267): The flow tick of tick_ms passes and the 20-bit tick count rises. -/
  | flowTick
  /-- SCANNER_VISIT (R268): The aging scanner reads a bucket or overflow entry and issues a retire check for each slot whose stamp age reaches its timeout. -/
  | scannerVisit (visit : ScanVisit) (last : Bool)
  /-- RETIRE_CHECK (R268): A tagged retire check retires an idle record with reason 1, defers it or refreshes the slot stamp. -/
  | retireCheck (c seq : Nat) (err : LookupErr)
  /-- RETIRE_CLEANUP (R280): A freed export place lets a cleanup operation export a retiring slot, empty it and promote. -/
  | retireCleanup (c : Nat) (done : OpEnd)
  /-- EXPORT_RING_WRITE (R610): An export record is written into its ring at EXPQ_PROD and PROD advances while the ring has room. -/
  | exportRingWrite
  /-- EXPQ_CONS_WRITE (R610): Software advances EXPQ_CONS, freeing ring entries for waiting export records. -/
  | expqConsWrite (w : Window) (v : Word)
  /-- EXPQ_ENABLE (R610): A write of enable 1 to EXPQ_CFG takes the base and size, or raises exp_error on a bad setup. -/
  | expqEnable (w : Window) (v : Word)
  /-- CMDQ_ENABLE (R286): A write of enable to CMDQ_CFG starts or stops the command ring, raising cmd_error on a bad setup. -/
  | cmdqEnable (w : Window) (v : Word)
  /-- CMDQ_PROD_WRITE (R286): Software advances CMDQ_PROD and the device takes the new entries in ring order. -/
  | cmdqProdWrite (w : Window) (v : Word) (entries : List (List Byte))
  /-- CMD_LOOKUP (R287): Command op 1 looks up a flow record by key under its tag. -/
  | cmdLookup (c seq : Nat) (err : LookupErr)
  /-- CMD_READ_INDEX (R287): Command op 2 reads a record by index with an optional generation check. -/
  | cmdReadIndex (c seq : Nat) (err : LookupErr)
  /-- CMD_CREATE (R287): Command op 3 creates a flow record with the given program state. -/
  | cmdCreate (c seq : Nat) (err : LookupErr)
  /-- CMD_DELETE_KEY (R287): Command op 4 deletes a flow by key with reason 3. -/
  | cmdDeleteKey (c seq : Nat) (err : LookupErr)
  /-- CMD_DELETE_INDEX (R287): Command op 5 deletes a flow by index with an optional generation check. -/
  | cmdDeleteIndex (c seq : Nat) (err : LookupErr)
  /-- CMD_WRITE_STATE (R287): Command op 6 writes a flow's program state by key. -/
  | cmdWriteState (c seq : Nat) (err : LookupErr)
  /-- CMD_PIN (R287): Command op 7 pins a flow's slot. -/
  | cmdPin (c seq : Nat) (err : LookupErr)
  /-- CMD_UNPIN (R287): Command op 8 unpins a flow's slot. -/
  | cmdUnpin (c seq : Nat) (err : LookupErr)
  /-- POOL_REFILL (R273): The record-index pool spills a freed index to the HBM chain or refills from it in the background. -/
  | poolRefill
  /-- INDEX_HOLD_EXPIRE (R274): A freed record index becomes allocatable 100 µs after it was freed. -/
  | indexHoldExpire
  /-- BAR2_WINDOW_WRITE (R285): A write of FLT.BAR2_WINDOW maps the BAR2 window, or is ignored for an undefined number. -/
  | bar2WindowWrite (w : Window) (v : Word)
  /-- SCRUB_READ (R517): A scrubber reads one word, writes back a corrected value or logs an uncorrectable error and takes its recovery action. -/
  | scrubRead (x : ScrubWord) (addr : Nat) (o : EccOutcome) (last : Bool)
  /-- HBM_RECAL (R524): Every 100 ms an HBM controller retrains its stack, and three failures or an uncorrectable rate put the stack in FAULT. -/
  | hbmRecal (k : Nat) (ok : Bool)
  /-- AUTO_RECOVER (R525): 10 ms after a recoverable target enters FAULT 0x03 it is reset in place, or left in FAULT at the limit. -/
  | autoRecover (t : Target)
  /-- BENCH_EMERGENCY_RESTART (R526): On an unhandled machine check, Bench memory error or watchdog expiry Hallmark restarts Bench by handover or warm reset. -/
  | benchEmergencyRestart (cause : Nat)
  /-- HALLMARK_RESTART (R527): An uncorrectable error in Hallmark's SRAM restarts Hallmark from ROM without another reset. -/
  | hallmarkRestart (addr : Nat) (stage : HmkStage)
  /-- MGMT_PROTECTION_FAULT (R558): A management-core memory-protection fault stops Bench and raises bench_stopped. -/
  | mgmtProtectionFault
  /-- WDOG_KICK (R553): Bench writes 0x4B43 to BNC.WDOG_KICK through window B and restarts the watchdog. -/
  | wdogKick (w : Window) (v : Word)
  /-- WDOG_WARNING (R553): Half the watchdog timeout passes without a kick and wdog_warning is raised. -/
  | wdogWarning
  /-- WDOG_EXPIRE (R553): The full watchdog timeout passes without a kick and Bench is restarted. -/
  | wdogExpire
  /-- BENCH_QUEUE_TOKEN_GAIN (R552): A Bench queue's token bucket gains one token. -/
  | benchQueueTokenGain (q : Nat)
  /-- MBOX_PROD_WRITE (R549): The host advances a mailbox PROD and its server takes entries in ring order. -/
  | mboxProdWrite (w : Window) (m : Nat) (v : Word) (entries : List (List Byte))
  /-- MBOX_ENABLE (R549): A write of enable to HIF.MBOXm_CFG starts the ring or stops it with mbox_error on a bad setup. -/
  | mboxEnable (w : Window) (m : Nat) (v : Word)
  /-- SVC_STATUS (R550): Mailbox 0 service 0x0001 writes Bench's 64-byte status report. -/
  | svcStatus
  /-- SVC_ROUTE_UPDATE (R550): Service 0x0010 checks and applies route records to a VRF by build-beside swaps. -/
  | svcRouteUpdate (buf : List Byte)
  /-- SVC_FLASH_WRITE (R550): Service 0x0020 writes the buffer to a flash region after checking Bench or configuration images. -/
  | svcFlashWrite (buf : List Byte)
  /-- SVC_SET_PREFERRED (R550): Service 0x0021 writes the preferred Bench slot to both flash directory copies. -/
  | svcSetPreferred
  /-- SVC_IDENTITY (R550): Service 0x0101 writes a device identity report signed by the device key over a nonce. -/
  | svcIdentity
  /-- SVC_VERIFY (R550): Service 0x0102 checks an envelope by R539 with no effect. -/
  | svcVerify (buf : List Byte)
  /-- SVC_DELIVER_BENCH (R546): Service 0x0103 reads and checks a host Bench image and resumes start-up at step 5. -/
  | svcDeliverBench (buf : List Byte)
  /-- SVC_HANDOVER (R554): Service 0x0104 checks a new Bench image and starts it on the standby core pair for a live handover. -/
  | svcHandover (buf : List Byte)
  /-- NEW_BENCH_READY (R554): The new Bench reports ready and Hallmark tells the old Bench to quiesce. -/
  | newBenchReady
  /-- OLD_BENCH_QUIESCED (R554): The old Bench reports quiesced and Hallmark moves interrupt lines and window B to the new pair. -/
  | oldBenchQuiesced
  /-- NEW_BENCH_RUNNING (R554): The new Bench reports running and the handover completes with handover_done. -/
  | newBenchRunning
  /-- HANDOVER_TIMEOUT (R555): A handover step overruns and Hallmark stops the new or old pair as its row states. -/
  | handoverTimeout
  /-- SVC_PATCH (R548): Service 0x0105 applies a microcode patch into the other bank of each named cluster and may commit the switch. -/
  | svcPatch (buf : List Byte)
  /-- SVC_ENROL (R542): Service 0x0106 fuses an owner key hash and its valid bit. -/
  | svcEnrol (buf : List Byte) (ok : Bool)
  /-- SVC_REVOKE (R542): Service 0x0107 fuses the owner key revoke bit. -/
  | svcRevoke (buf : List Byte)
  /-- SVC_ROLLBACK (R543): Service 0x0108 advances the rollback fuse counter to param0. -/
  | svcRollback
  /-- SVC_CLEAR_LOCK (R550): Service 0x0109 sets OWNER of a block to 0. -/
  | svcClearLock
  /-- SVC_UNKNOWN (R550): A mailbox entry with an undefined service or on the wrong mailbox ends with status 1. -/
  | svcUnknown (m : Nat)
  /-- PPS_OUT_RISE (R457): The time base reaches a whole second plus offset_ns and PPS_OUT rises. -/
  | ppsOutRise
  /-- PPS_OUT_FALL (R457): width_us after its rise PPS_OUT falls. -/
  | ppsOutFall
  /-- PPS_IN_EDGE (R458): A rising edge on PPS_IN is timestamped, accepted or ignored, and may give a servo sample. -/
  | ppsInEdge (sub : Nat)
  /-- PPS_IN_MISSING (R458): No PPS_IN edge is accepted within 1.5 s and pps_in_missing is raised. -/
  | ppsInMissing
  /-- TRIG_ARM (R460): A write of arm in TIM.TRIG_CTL arms a trigger, fires a late one-shot, or is refused. -/
  | trigArm (w : Window) (v : Word)
  /-- TRIG_DISARM (R460): A write of disarm stops a trigger after any pulse in progress. -/
  | trigDisarm (w : Window) (v : Word)
  /-- TRIGGER_FIRE (R459): The time base reaches a trigger's start or boundary and it fires a pulse and raises trig_fired. -/
  | triggerFire (k : Nat)
  /-- TRIGGER_PULSE_END (R459): width_ns after a fire the trigger output returns to its idle level. -/
  | triggerPulseEnd (k : Nat)
  /-- CAPTURE_EDGE (R461): An edge on a capture input is timestamped and stored, ignored in dead time, or lost on a full FIFO. -/
  | captureEdge (k : Nat) (rising : Bool) (sub : Nat)
  /-- CAPT_STUCK (R461): A capture input stays at its last level for stuck_ms and stuck is set. -/
  | captStuck (k : Nat)
  /-- CAPT_RELEASED (R461): A stuck capture input leaves its level and capt_released is raised. -/
  | captReleased (k : Nat)
  /-- CAPT_POP (R462): A read of CAPT_SEC_LO takes the oldest capture entry into the snapshot registers. -/
  | captPop (w : Window)
  /-- TIME_SNAPSHOT_READ (R453): A read of TIM.TIME_SEC_LO snapshots the time base and raw count at one raw count. -/
  | timeSnapshotRead (w : Window)
  /-- STEP_GO (R463): A write of go to TIM.STEP_CTL steps the time base, advancing the time epoch and writing a Touchmark record. -/
  | stepGo (w : Window) (v : Word)
  /-- RATE_WRITE (R451): A write of TIM.RATE moves the anchor and changes the slope of the time base. -/
  | rateWrite (w : Window) (v : Word)
  /-- SERVO_SAMPLE (R466): A write of SERVO_SAMPLE_HI gives the servo one sample that steps or adjusts the rate, or is refused as stale. -/
  | servoSample (w : Window) (v : Word)
  /-- SERVO_HOLDOVER (R467): No sample is accepted for timeout_100ms × 100 ms and the servo enters holdover. -/
  | servoHoldover
  /-- TX_TS_POP (R471): A read of TSU.TX_SEC_LO takes the oldest egress timestamp entry into the snapshot registers. -/
  | txTsPop (w : Window)
  /-- TIE_CAP_SEND (R490): Every 100 µs in step 4 each end sends a capability message. -/
  | tieCapSend (k : Nat)
  /-- TIE_CAPABILITY (R490): A capability message is received and the peer accepted, making the link active, or refused. -/
  | tieCapability (k : Nat) (cap : TieCap) (peerAccepts : Bool)
  /-- TIE_CODEWORD_DECODE (R485): A tie-link FEC codeword is decoded and flits with uncorrectable bytes are marked bad. -/
  | tieCodewordDecode (k : Nat) (lane0 lane1 lane2 lane3 : List Byte)
  /-- TIE_STEERED_ITEM (R495): A steered item's tie descriptor arrives and the item is admitted at the owner. -/
  | tieSteeredItem (k : Nat) (desc bytes : List Byte)
  /-- TIE_FRAME (R493): A kind 2 frame arrives whole and enters group 32's VOQ for final_dest or stage 5, or is dropped. -/
  | tieFrame (k : Nat) (desc bytes : List Byte)
  /-- STATE_SYNC (R501): A state sync message creates a transferred record at the new owner, or is discarded as stale. -/
  | stateSync (k seq e epoch : Nat) (record : List Byte)
  /-- OWNER_CHANGE (R498): An owner change message updates the owner map, steers the entry and starts parking or the forward window. -/
  | ownerChange (k seq e owner epoch : Nat) (moving done : Bool)
  /-- OWN_MOVE_GO (R498): A write of go in TIE.OWN_MOVE on the manager starts an owner move, or ends with a refusal result. -/
  | ownMoveGo (w : Window) (v : Word)
  /-- TRANSFER_DONE (R498): The new owner receives transfer done, releases parked items and acknowledges. -/
  | transferDone (k seq e : Nat)
  /-- OWNER_MOVE_ACKED (R498): The manager has every acknowledgement, clears moving and raises owner_moved. -/
  | ownerMoveAcked (e : Nat)
  /-- OWN_MOVE_TIMEOUT (R499): An owner move has not reached step 6 after 200 ms and is aborted. -/
  | ownMoveTimeout (e : Nat)
  /-- OWNER_MOVE_ABORT (R499): An aborted owner change clears moving for the entry and fixes its owner. -/
  | ownerMoveAbort (k seq e owner epoch : Nat)
  /-- FWD_WINDOW_END (R500): fwd_window_ms after step 3 the old owner stops forwarding late items and drops them. -/
  | fwdWindowEnd (e : Nat)
  /-- HEARTBEAT_TICK (R504): Every 1 ms each device sends heartbeats, counts missed ones and marks peers lost. -/
  | heartbeatTick
  /-- HEARTBEAT_RECEIVED (R504): A heartbeat is received with membership, versions and acknowledgements. -/
  | heartbeatReceived (k : Nat) (hb : Heartbeat)
  /-- CONTROL_RESEND (R489): A control message unacknowledged for 1 ms is resent, and after eight resends the link restarts. -/
  | controlResend (k : Nat)
  /-- JOIN_WAIT_TIMEOUT (R507): Start-up step 12 has not joined within 2 s and commits rule version 1. -/
  | joinWaitTimeout
  /-- VERSION_PREPARE (R508): A member receives prepare and checks its staging, answering ready or refuse. -/
  | versionPrepare (k seq n : Nat)
  /-- VERSION_READY (R508): The manager receives ready and sends commit at T once all members are ready. -/
  | versionReady (k seq n : Nat)
  /-- VERSION_REFUSE (R508): The manager receives refuse and sends abort, recording the member and code. -/
  | versionRefuse (k seq code : Nat)
  /-- VERSION_PREPARE_TIMEOUT (R508): A member does not answer prepare within 10 ms and the manager sends abort. -/
  | versionPrepareTimeout
  /-- VERSION_COMMIT (R508): A member receives commit and arms its CLS commit at time T. -/
  | versionCommit (k seq n sec ns : Nat)
  /-- VERSION_ABORT (R508): A member receives abort and unlocks its staging. -/
  | versionAbort (k seq : Nat)
  /-- VERSION_FREE_REQUEST (R509): A member receives free request and sends a marker on every link. -/
  | versionFreeRequest (k seq : Nat)
  /-- VERSION_MARKER (R509): A marker arrives and, once all are in with the count zero, the member confirms. -/
  | versionMarker (k seq : Nat)
  /-- VERSION_CONFIRM (R509): The manager receives a confirmation and sends free once all have confirmed. -/
  | versionConfirm (k seq : Nat)
  /-- VERSION_FREE (R509): A member receives free and frees the draining version. -/
  | versionFree (k seq : Nat)
  /-- TIME_TRANSFER_START (R510): Every tt_period_ms a device sends a time transfer request with T1 on each active link. -/
  | timeTransferStart (sub : Nat)
  /-- TIME_TRANSFER (R511): A time transfer message is received; the responder answers or the requester stores the link delay and servo sample. -/
  | timeTransfer (k sub : Nat) (msg : TimeMsg)
  /-- EVENT_FORWARD (R577): The manager receives a forwarded Touchmark record and writes it into its mesh ring. -/
  | eventForward (k seq : Nat) (record : List Byte)
  /-- TMK_WR_GO (R570): A write of go in TMK.WR_CTL offers a software record and reports the result. -/
  | tmkWrGo (w : Window) (v : Word)
  /-- CODE_BUCKET_REFILL (R566): A per-code or shared bucket refills to full with suppressions pending and offers a summary record. -/
  | codeBucketRefill (code : Nat)
  /-- RING_WRITE (R568): A record leaves the staging FIFO while the global bucket has a token and is written to its ring slot. -/
  | ringWrite
  /-- GLOBAL_TOKEN_GAIN (R567): Every 50 ms the global Touchmark bucket gains one token. -/
  | globalTokenGain
  /-- OP_TIME_TICK (R563): Every 1 ms of the management clock with all rails good the operating time rises by one. -/
  | opTimeTick
  /-- CHECKPOINT_EXPIRE (R563): No record has entered the ring for checkpoint_min and a checkpoint record is written. -/
  | checkpointExpire
  /-- FLUSH_RECORD (R573): The flusher writes the next unflushed ring record to flash and advances FLUSH_SEQ. -/
  | flushRecord (o : FlushOutcome)
  /-- FLASH_REPORT (R575): A write of a bad sector to TMK.FLASH_REPORT counts it and raises flash_error. -/
  | flashReport (w : Window) (v : Word)
  /-- FLUSH_SEQ_WRITE (R573): A write of TMK.FLUSH_SEQ through window B records the last record flushed. -/
  | flushSeqWrite (w : Window) (v : Word)
  /-- LEVEL_SAMPLE (R578): Every 1 ms each level-mode performance counter adds its gauge's value. -/
  | levelSample
  /-- CNT_SET (R579): A write of set in PCN.CNT_CTL loads the selected counter at one point. -/
  | cntSet (w : Window) (v : Word)
  /-- CNT_ZERO (R579): A write of clear in PCN.CNT_CTL sets the selected counter to zero at one point. -/
  | cntZero (w : Window) (v : Word)
  /-- PCN_FREEZE (R580): A go in PCN.FREEZE copies every counter into the window's freeze bank. -/
  | pcnFreeze (w : Window) (v : Word)
  /-- HIST_SNAP (R583): A write of snap in PCN.HIST_SNAP copies the selected histogram into the window's snapshot, optionally clearing it. -/
  | histSnap (w : Window) (v : Word)
  /-- TEMP_READ (R607): Every 1 ms the temperature sensors are read and thermal_high or thermal_critical raised at their thresholds. -/
  | tempRead (temps : List Int)
  /-- GPIO_EDGE (R608): A GPIO input holds a new level for the filter time and sets its edge bit. -/
  | gpioEdge (pin : Nat) (level : Bool)
  /-- I2C_GO (R598): A write of go in MIO.I2C_CMDk starts an I²C transfer. -/
  | i2cGo (w : Window) (k : Nat) (v : Word)
  /-- I2C_DONE (R598): An I²C transfer completes, fails to be acknowledged or times out. -/
  | i2cDone (k result : Nat) (data : Word)
  /-- MDIO_GO (R599): A write of go in MIO.MDIO_CMD starts an MDIO frame. -/
  | mdioGo (w : Window) (v : Word)
  /-- MDIO_DONE (R599): An MDIO frame completes, with error when the PHY gave no turnaround. -/
  | mdioDone (noTurn : Bool) (data : Nat)
  /-- UART_RX_CHAR (R600): The UART receives a character, raising uart_overrun if one is lost. -/
  | uartRxChar (ch : Nat) (lost : Bool)
  /-- HBM_STACK_TEMPERATURE (R292): An HBM stack's temperature crosses 85 °C, turning doubled refresh on or off and raising refresh_2x, or crosses 95 °C and raises temp_high. -/
  | hbmStackTemperature (k temp : Nat)
  deriving DecidableEq, Repr

end Sys2Proof
end

