-- ==== Sys2Proof/Config.lean ====
section
/-! DEFINITION. What the spec leaves open, as opaque constants that no proof can see through: free values (a result the spec
does not state, applied to a counter of the state), layouts it does not give, secrets, and fused values. -/

namespace Sys2Proof.Config

/-- A fresh unconstrained value for the n-th time the model needs one (assumption log, entry 1). -/
opaque freeValue : Nat → BitVec 64

/-- The private key that Hallmark derives from the fuse secret (R536): the secret and the derivation are not stated. -/
opaque deviceSecret : Nat

/-- The secret number of the n-th ECDSA signature (R550): the spec does not say how it is drawn. -/
opaque signNonce : Nat → Nat

/-- The 64-byte status report of service 0x0001 (R550), from version, vault format, uptime in ms and the depths of the 64 queues: the spec
gives what it holds and no layout. -/
opaque statusReport : List Nat → List Byte

/-- The 256-byte identity report of service 0x0101 (R550), from its contents and their signature: the spec gives what it holds and no
layout. -/
opaque identityReport : List Byte → List Byte → List Byte

/-- What the hash fuses read as after an enrolment of this hash whose read-back differs (R542): the spec does not state it. -/
opaque misfused : Nat → Nat

/-- The fused device UID (R535). -/
opaque deviceUid : BitVec 64

/-- The fused SHA-384 hash of the vendor key (R541), as a number from its first byte. -/
opaque vendorHash : BitVec 384

/-- The internal delay of a capture input, in units of 2⁻¹⁶ ns, subtracted from its timestamps (R461): named by the spec,
no value given. -/
opaque captureDelay : Nat → Nat

/-- The internal delay of PPS_IN, in units of 2⁻¹⁶ ns, which the device compensates (R602): no value given. -/
opaque ppsInDelay : Nat

end Sys2Proof.Config
end

