-- ==== Sys2Proof/Machine/Bits.lean ====
section
/-! DEFINITION. Bit-field, byte-order and small arithmetic helpers used by every unit. -/

namespace Sys2Proof.Machine

/-- The field of `w` that starts at bit `lo` and is `n` bits wide, as a number. -/
def bitsOf (x lo n : Nat) : Nat := (x >>> lo) % 2 ^ n

/-- `x` with its field at `lo`, `n` bits wide, replaced by `v` (truncated to the field). -/
def withBits (x lo n v : Nat) : Nat :=
  x - bitsOf x lo n * 2 ^ lo + (v % 2 ^ n) * 2 ^ lo

/-- The field of a register word. -/
def wordField (w : Word) (lo n : Nat) : Nat := bitsOf w.toNat lo n

/-- A register word with one field replaced. -/
def wordWith (w : Word) (lo n v : Nat) : Word := BitVec.ofNat 32 (withBits w.toNat lo n v)

/-- One bit of a number as a Bool. -/
def bit (x i : Nat) : Bool := x.testBit i

/-- A Bool as 0 or 1. -/
def b2n (b : Bool) : Nat := if b then 1 else 0

/-- The mask of `n` ones at `lo`. -/
def maskAt (lo n : Nat) : Nat := (2 ^ n - 1) * 2 ^ lo

/-- Signed value of an `n`-bit two's complement number. -/
def signed (n x : Nat) : Int := if x % 2 ^ n < 2 ^ (n - 1) then (x % 2 ^ n : Nat) else (x % 2 ^ n : Nat) - (2 ^ n : Nat)

/-- An integer as an `n`-bit two's complement number. -/
def unsigned (n : Nat) (x : Int) : Nat := (x % (2 ^ n : Nat)).toNat

/-- `x` limited to `lo … hi`. -/
def clampInt (x lo hi : Int) : Int := if x < lo then lo else if hi < x then hi else x

/-- The `n` bytes of `x`, least significant first. -/
def bytesLE : Nat → Nat → List Byte
  | 0, _ => []
  | n + 1, x => BitVec.ofNat 8 x :: bytesLE n (x / 256)

/-- The number that bytes spell, least significant first. -/
def leNat : List Byte → Nat
  | [] => 0
  | b :: bs => b.toNat + 256 * leNat bs

/-- The number that bytes spell, most significant first (network order). -/
def beNat (bs : List Byte) : Nat := leNat bs.reverse

/-- The `n` bytes of `x`, most significant first. -/
def bytesBE (n x : Nat) : List Byte := (bytesLE n x).reverse

/-- `n` bytes of a byte string from `off`; bytes past its end read 0. -/
def slice (bs : List Byte) (off n : Nat) : List Byte :=
  let t := (bs.drop off).take n
  t ++ List.replicate (n - t.length) 0

/-- Little-endian number of `n` bytes at `off`. -/
def leAt (bs : List Byte) (off n : Nat) : Nat := leNat (slice bs off n)

/-- Big-endian number of `n` bytes at `off`. -/
def beAt (bs : List Byte) (off n : Nat) : Nat := beNat (slice bs off n)

/-- Replace the bytes from `off` by `new`; positions past the end are dropped. -/
def patchBytes (bs : List Byte) (off : Nat) (new : List Byte) : List Byte :=
  bs.take off ++ (new.take (bs.length - off)) ++ bs.drop (off + new.length)

/-- The number of leading ones positions needed: index of the highest set bit (0 for 0). -/
def topBit (x : Nat) : Nat := Nat.log2 x

/-- The lowest `i < n` for which `p i` holds. -/
def firstBelow (p : Nat → Bool) : Nat → Option Nat
  | n => (List.range n).find? p

/-- Apply `f` to the state once for every element, in order. -/
def foldOver {α σ : Type} (xs : List α) (f : α → σ → σ) (s : σ) : σ := xs.foldl (fun s x => f x s) s

/-- Saturating addition below a bound. -/
def satAdd (x d top : Nat) : Nat := if x + d ≤ top then x + d else top

/-- One step of the reflected CRC-32 register: eight bits. -/
def crcBits (poly : Nat) : Nat → Nat → Nat
  | 0, c => c
  | n + 1, c => crcBits poly n (if c % 2 = 1 then (c / 2) ^^^ poly else c / 2)

/-- Reflected CRC-32 over bytes from a register value, no final XOR. -/
def crcRaw (poly init : Nat) (bs : List Byte) : Nat :=
  bs.foldl (fun c b => crcBits poly 8 (c ^^^ b.toNat)) init

/-- CRC-32C of R91: polynomial 0x1EDC6F41 reflected, initial and final 0xFFFFFFFF. -/
def crc32c (bs : List Byte) : Nat := crcRaw 0x82F63B78 0xFFFFFFFF bs ^^^ 0xFFFFFFFF

/-- The Ethernet FCS: CRC-32, reflected, initial and final 0xFFFFFFFF. -/
def crc32 (bs : List Byte) : Nat := crcRaw 0xEDB88320 0xFFFFFFFF bs ^^^ 0xFFFFFFFF

/-- One's complement sum of 16-bit words, folded. -/
def onesFold (x : Nat) : Nat :=
  let y := x % 65536 + x / 65536
  y % 65536 + y / 65536

/-- Incremental checksum update of RFC 1624 (R302, R473): HC' = ~(~HC + ~m + m'). -/
def csumUpdate (hc old new : Nat) : Nat :=
  65535 - onesFold ((65535 - hc % 65536) + (65535 - old % 65536) + new % 65536)

/-- The entries of `n` bytes each of a blob's content. -/
def chunks (n : Nat) : Nat → List Byte → List (List Byte)
  | 0, _ => []
  | k + 1, bs => bs.take n :: chunks n k (bs.drop n)

end Sys2Proof.Machine
end

