-- ==== Sys2Proof/Machine/BlockInfo.lean ====
section
/-! DEFINITION. The page map of R105: for every block its code, its pages, its channel count and the numbers of its cause
registers; the channels fused off on the KG4128 (R2). -/

namespace Sys2Proof.Machine

/-- Block code: the number of the block's first page (R105). -/
def blockCode : Block → Nat
  | .sys => 0x00
  | .evt => 0x01
  | .hmk => 0x02
  | .bnc => 0x03
  | .pwr => 0x04
  | .cfg => 0x05
  | .rst => 0x06
  | .lan => 0x08
  | .prt => 0x0C
  | .tie => 0x10
  | .prs => 0x12
  | .cls => 0x14
  | .l2t => 0x18
  | .lpm => 0x19
  | .flt => 0x1C
  | .fch => 0x20
  | .hbm => 0x21
  | .dsp => 0x24
  | .fen => 0x26
  | .mcs => 0x2A
  | .bpm => 0x2C
  | .swc => 0x2D
  | .tmg => 0x30
  | .tim => 0x34
  | .tsu => 0x36
  | .tmk => 0x38
  | .pcn => 0x39
  | .hif => 0x3C
  | .mio => 0x3D
  | .scr => 0x3E

/-- Number of pages of the block. -/
def pageCount : Block → Nat
  | .sys => 1
  | .evt => 1
  | .hmk => 1
  | .bnc => 1
  | .pwr => 1
  | .cfg => 1
  | .rst => 1
  | .lan => 4
  | .prt => 4
  | .tie => 2
  | .prs => 2
  | .cls => 4
  | .l2t => 1
  | .lpm => 2
  | .flt => 4
  | .fch => 1
  | .hbm => 2
  | .dsp => 2
  | .fen => 4
  | .mcs => 1
  | .bpm => 1
  | .swc => 2
  | .tmg => 4
  | .tim => 2
  | .tsu => 1
  | .tmk => 1
  | .pcn => 2
  | .hif => 1
  | .mio => 1
  | .scr => 1

/-- CHAN_COUNT of the block. -/
def chanCount : Block → Nat
  | .sys => 1
  | .evt => 1
  | .hmk => 1
  | .bnc => 1
  | .pwr => 1
  | .cfg => 1
  | .rst => 1
  | .lan => 288
  | .prt => 256
  | .tie => 8
  | .prs => 256
  | .cls => 1
  | .l2t => 1
  | .lpm => 1
  | .flt => 1
  | .fch => 1
  | .hbm => 4
  | .dsp => 32
  | .fen => 512
  | .mcs => 32
  | .bpm => 1
  | .swc => 1
  | .tmg => 266
  | .tim => 12
  | .tsu => 264
  | .tmk => 1
  | .pcn => 1
  | .hif => 1
  | .mio => 1
  | .scr => 1

/-- Number of cause registers of the block. -/
def causeCount : Block → Nat
  | .sys => 1
  | .evt => 1
  | .hmk => 1
  | .bnc => 1
  | .pwr => 1
  | .cfg => 1
  | .rst => 1
  | .lan => 5
  | .prt => 5
  | .tie => 2
  | .prs => 1
  | .cls => 2
  | .l2t => 1
  | .lpm => 1
  | .flt => 2
  | .fch => 1
  | .hbm => 2
  | .dsp => 2
  | .fen => 2
  | .mcs => 1
  | .bpm => 1
  | .swc => 2
  | .tmg => 3
  | .tim => 2
  | .tsu => 1
  | .tmk => 1
  | .pcn => 1
  | .hif => 1
  | .mio => 1
  | .scr => 1

/-- Global number g of the block's first cause register. -/
def firstG : Block → Nat
  | .sys => 0
  | .evt => 1
  | .hmk => 2
  | .bnc => 3
  | .pwr => 4
  | .cfg => 5
  | .rst => 6
  | .lan => 7
  | .prt => 12
  | .tie => 17
  | .prs => 19
  | .cls => 20
  | .l2t => 22
  | .lpm => 23
  | .flt => 24
  | .fch => 26
  | .hbm => 27
  | .dsp => 29
  | .fen => 31
  | .mcs => 33
  | .bpm => 34
  | .swc => 35
  | .tmg => 37
  | .tim => 40
  | .tsu => 42
  | .tmk => 43
  | .pcn => 44
  | .hif => 45
  | .mio => 46
  | .scr => 47

/-- Every block, in block-code order. -/
def allBlocks : List Block :=
  [.sys, .evt, .hmk, .bnc, .pwr, .cfg, .rst, .lan, .prt, .tie, .prs, .cls, .l2t, .lpm, .flt, .fch, .hbm, .dsp, .fen, .mcs, .bpm, .swc, .tmg, .tim, .tsu, .tmk, .pcn, .hif, .mio, .scr]

/-- The block that owns a page (R105), if any. -/
def blockOfPage (p : Nat) : Option Block :=
  allBlocks.find? (fun b => decide (blockCode b ≤ p ∧ p < blockCode b + pageCount b))

/-- The block that owns cause register g (R105). -/
def blockOfG (g : Nat) : Option Block :=
  allBlocks.find? (fun b => decide (firstG b ≤ g ∧ g < firstG b + causeCount b))

/-- Whether cause register k of a block with channels is global: it has no channel-pending words (R448, R479, R515). -/
def globalCause (b : Block) (k : Nat) : Bool :=
  match b with
  | .tmg => k == 2
  | .tim => k == 0
  | .tie => k == 1
  | .sys | .evt | .hmk | .bnc | .pwr | .cfg | .rst | .lan | .prt | .prs | .cls | .l2t | .lpm | .flt | .fch | .dsp | .fen | .mcs | .bpm
  | .swc | .tsu | .tmk | .pcn | .mio | .scr | .hif | .hbm => false

/-- Window offset of the first byte of the block's header. -/
def blockBase (b : Block) : Nat := blockCode b * 0x1000

/-- Window offset of the block's last page. -/
def lastPage (b : Block) : Nat := (blockCode b + pageCount b - 1) * 0x1000

/-- The channels that serve fused-off lanes, ports, tie links or stacks on the KG4128 (R2). -/
def fusedOff (v : Variant) (b : Block) (c : Nat) : Bool :=
  match v with
  | .kg4256 => false
  | .kg4128 =>
    match b with
    | .lan => decide ((128 ≤ c ∧ c ≤ 255) ∨ (272 ≤ c ∧ c ≤ 287))
    | .prt => decide (128 ≤ c ∧ c ≤ 255)
    | .tie => decide (4 ≤ c ∧ c ≤ 7)
    | .tmg => decide ((128 ≤ c ∧ c ≤ 255) ∨ (260 ≤ c ∧ c ≤ 263))
    | .tsu => decide ((128 ≤ c ∧ c ≤ 255) ∨ (260 ≤ c ∧ c ≤ 263))
    | .hbm => decide (2 ≤ c ∧ c ≤ 3)
    | .sys | .evt | .hmk | .bnc | .pwr | .cfg | .rst | .prs | .cls | .l2t | .lpm | .flt | .fch | .dsp | .fen | .mcs
    | .bpm | .swc | .tim | .tmk | .pcn | .hif | .mio | .scr => false

/-- CHAN_COUNT present: the channels that are not fused off (R2). -/
def presentCount (v : Variant) (b : Block) : Nat :=
  match v with
  | .kg4256 => chanCount b
  | .kg4128 =>
    match b with
    | .lan => 144
    | .prt => 128
    | .tie => 4
    | .tmg => 134
    | .tsu => 132
    | .hbm => 2
    | .sys | .evt | .hmk | .bnc | .pwr | .cfg | .rst | .prs | .cls | .l2t | .lpm | .flt | .fch | .dsp | .fen | .mcs
    | .bpm | .swc | .tim | .tmk | .pcn | .hif | .mio | .scr => chanCount b

end Sys2Proof.Machine
end

