-- ==== Sys2Proof/Machine/RegFields.lean ====
section
/-! DEFINITION. The register fields that the meanings name, from the register tables of the spec: window offset of the first
copy, stride between copies, lowest bit, width. -/

namespace Sys2Proof.Machine

/-- One field of a register or of an array of registers. -/
structure Fld where
  off : Nat
  stride : Nat
  lo : Nat
  w : Nat
  deriving DecidableEq, Repr

/-- SYS.STRAP_SAMPLE.role -/
def sysStrapSample_role : Fld := ⟨0x00090, 4, 0, 2⟩
/-- SYS.STRAP_SAMPLE.device_id -/
def sysStrapSample_deviceId : Fld := ⟨0x00090, 4, 2, 3⟩
/-- SYS.STRAP_SAMPLE.boot_src -/
def sysStrapSample_bootSrc : Fld := ⟨0x00090, 4, 5, 2⟩
/-- SYS.STRAP_SAMPLE.role_live -/
def sysStrapSample_roleLive : Fld := ⟨0x00090, 4, 8, 2⟩
/-- SYS.STRAP_SAMPLE.device_id_live -/
def sysStrapSample_deviceIdLive : Fld := ⟨0x00090, 4, 10, 3⟩
/-- SYS.STRAP_SAMPLE.boot_src_live -/
def sysStrapSample_bootSrcLive : Fld := ⟨0x00090, 4, 13, 2⟩
/-- SYS.STRAP_SAMPLE.strap_changed -/
def sysStrapSample_strapChanged : Fld := ⟨0x00090, 4, 16, 1⟩
/-- SYS.STRAP_SAMPLE.strap_fault -/
def sysStrapSample_strapFault : Fld := ⟨0x00090, 4, 17, 1⟩
/-- PWR.RAIL_STATUS.rail_good -/
def pwrRailStatus_railGood : Fld := ⟨0x04080, 4, 0, 8⟩
/-- PWR.RAIL_STATUS.ramp_slow -/
def pwrRailStatus_rampSlow : Fld := ⟨0x04080, 4, 8, 8⟩
/-- PWR.RAIL_STATUS.first_fail_rail -/
def pwrRailStatus_firstFailRail : Fld := ⟨0x04080, 4, 16, 3⟩
/-- PWR.RAIL_STATUS.fail_valid -/
def pwrRailStatus_failValid : Fld := ⟨0x04080, 4, 19, 1⟩
/-- PWR.PACE_CTL.threshold_ps -/
def pwrPaceCtl_thresholdPs : Fld := ⟨0x04084, 4, 0, 8⟩
/-- PWR.PACE_CTL.down_margin_ps -/
def pwrPaceCtl_downMarginPs : Fld := ⟨0x04084, 4, 8, 8⟩
/-- PWR.PACE_CTL.recovery_ms -/
def pwrPaceCtl_recoveryMs : Fld := ⟨0x04084, 4, 16, 8⟩
/-- PWR.AVS_CTL.mode -/
def pwrAvsCtl_mode : Fld := ⟨0x04088, 4, 0, 2⟩
/-- PWR.AVS_CTL.step_up -/
def pwrAvsCtl_stepUp : Fld := ⟨0x04088, 4, 4, 4⟩
/-- PWR.AVS_CTL.step_down -/
def pwrAvsCtl_stepDown : Fld := ⟨0x04088, 4, 8, 4⟩
/-- PWR.AVS_CTL.floor -/
def pwrAvsCtl_floor : Fld := ⟨0x04088, 4, 12, 8⟩
/-- PWR.AVS_CTL.ceiling -/
def pwrAvsCtl_ceiling : Fld := ⟨0x04088, 4, 20, 8⟩
/-- PWR.AVS_STATUS.suggested_mv -/
def pwrAvsStatus_suggestedMv : Fld := ⟨0x0408C, 4, 0, 8⟩
/-- PWR.AVS_STATUS.last_written_mv -/
def pwrAvsStatus_lastWrittenMv : Fld := ⟨0x0408C, 4, 8, 8⟩
/-- PWR.AVS_STATUS.at_ceiling -/
def pwrAvsStatus_atCeiling : Fld := ⟨0x0408C, 4, 16, 1⟩
/-- PWR.AVS_STATUS.bus_error -/
def pwrAvsStatus_busError : Fld := ⟨0x0408C, 4, 17, 1⟩
/-- PWR.PACE_MARGIN.margin -/
def pwrPaceMargin_margin : Fld := ⟨0x040C0, 4, 0, 11⟩
/-- PWR.PACE_MARGIN.below -/
def pwrPaceMargin_below : Fld := ⟨0x040C0, 4, 11, 1⟩
/-- PWR.PACE_MARGIN.low_water -/
def pwrPaceMargin_lowWater : Fld := ⟨0x040C0, 4, 16, 11⟩
/-- CFG.START_STATE.step -/
def cfgStartState_step : Fld := ⟨0x05080, 4, 0, 4⟩
/-- CFG.START_STATE.state -/
def cfgStartState_state : Fld := ⟨0x05080, 4, 4, 3⟩
/-- CFG.START_STATE.slot_fallback -/
def cfgStartState_slotFallback : Fld := ⟨0x05080, 4, 7, 1⟩
/-- CFG.START_STATE.overrun_step -/
def cfgStartState_overrunStep : Fld := ⟨0x05080, 4, 8, 4⟩
/-- CFG.START_STATE.load_busy -/
def cfgStartState_loadBusy : Fld := ⟨0x05080, 4, 12, 1⟩
/-- CFG.START_STATE.load_aborted -/
def cfgStartState_loadAborted : Fld := ⟨0x05080, 4, 13, 1⟩
/-- CFG.START_STATE.elapsed_ms -/
def cfgStartState_elapsedMs : Fld := ⟨0x05080, 4, 16, 16⟩
/-- CFG.FAIL_CODE.code -/
def cfgFailCode_code : Fld := ⟨0x05084, 4, 0, 8⟩
/-- CFG.FAIL_CODE.slot -/
def cfgFailCode_slot : Fld := ⟨0x05084, 4, 8, 1⟩
/-- CFG.FAIL_INDEX.index -/
def cfgFailIndex_index : Fld := ⟨0x05088, 4, 0, 32⟩
/-- CFG.LOAD_CTL.go -/
def cfgLoadCtl_go : Fld := ⟨0x05090, 4, 0, 1⟩
/-- CFG.LOAD_CTL.slot_force -/
def cfgLoadCtl_slotForce : Fld := ⟨0x05090, 4, 2, 1⟩
/-- CFG.LOAD_CTL.slot -/
def cfgLoadCtl_slot : Fld := ⟨0x05090, 4, 3, 1⟩
/-- CFG.HOST_LEN.value -/
def cfgHostLen_value : Fld := ⟨0x0509C, 4, 0, 32⟩
/-- CFG.IMAGE_INFO.sequence -/
def cfgImageInfo_sequence : Fld := ⟨0x050A0, 4, 0, 32⟩
/-- CFG.IMAGE_CRC.crc -/
def cfgImageCrc_crc : Fld := ⟨0x050A4, 4, 0, 32⟩
/-- CFG.LAST_REFUSAL.block_code -/
def cfgLastRefusal_blockCode : Fld := ⟨0x050B0, 4, 0, 8⟩
/-- CFG.LAST_REFUSAL.refusal -/
def cfgLastRefusal_refusal : Fld := ⟨0x050B0, 4, 8, 4⟩
/-- CFG.LAST_REFUSAL.refusal_count -/
def cfgLastRefusal_refusalCount : Fld := ⟨0x050B0, 4, 16, 16⟩
/-- CFG.HELD_WRITES.held_write_ignored -/
def cfgHeldWrites_heldWriteIgnored : Fld := ⟨0x050B4, 4, 0, 32⟩
/-- SYS.PART_ID.part -/
def sysPartId_part : Fld := ⟨0x00080, 4, 0, 16⟩
/-- SYS.PART_ID.revision -/
def sysPartId_revision : Fld := ⟨0x00080, 4, 16, 8⟩
/-- SYS.PRESENT_GROUPS.groups -/
def sysPresentGroups_groups : Fld := ⟨0x00084, 4, 0, 32⟩
/-- SYS.PRESENT_OTHER.tie_links -/
def sysPresentOther_tieLinks : Fld := ⟨0x00088, 4, 0, 8⟩
/-- EVT.SUPP_SEL.source -/
def evtSuppSel_source : Fld := ⟨0x01080, 4, 0, 11⟩
/-- EVT.SUPP_COUNT.count -/
def evtSuppCount_count : Fld := ⟨0x01084, 4, 0, 16⟩
/-- EVT.VEC_REARM.vector -/
def evtVecRearm_vector : Fld := ⟨0x01088, 4, 0, 6⟩
/-- EVT.ACCESS_LOG.offset -/
def evtAccessLog_offset : Fld := ⟨0x0108C, 4, 0, 18⟩
/-- EVT.ACCESS_LOG.window -/
def evtAccessLog_window : Fld := ⟨0x0108C, 4, 18, 1⟩
/-- EVT.ACCESS_LOG.write -/
def evtAccessLog_write : Fld := ⟨0x0108C, 4, 19, 1⟩
/-- EVT.ACCESS_LOG.valid -/
def evtAccessLog_valid : Fld := ⟨0x0108C, 4, 31, 1⟩
/-- EVT.FAULT_LOG.block_code -/
def evtFaultLog_blockCode : Fld := ⟨0x01090, 4, 0, 8⟩
/-- EVT.FAULT_LOG.channel -/
def evtFaultLog_channel : Fld := ⟨0x01090, 4, 8, 10⟩
/-- EVT.FAULT_LOG.whole -/
def evtFaultLog_whole : Fld := ⟨0x01090, 4, 18, 1⟩
/-- EVT.FAULT_LOG.kind -/
def evtFaultLog_kind : Fld := ⟨0x01090, 4, 19, 1⟩
/-- EVT.FAULT_LOG.valid -/
def evtFaultLog_valid : Fld := ⟨0x01090, 4, 31, 1⟩
/-- EVT.VEC_ACTIVE_LO.active -/
def evtVecActiveLo_active : Fld := ⟨0x01094, 4, 0, 32⟩
/-- EVT.VEC_ACTIVE_HI.active -/
def evtVecActiveHi_active : Fld := ⟨0x01098, 4, 0, 32⟩
/-- EVT.SUMMARY_LO.signalling -/
def evtSummaryLo_signalling : Fld := ⟨0x010A0, 4, 0, 32⟩
/-- EVT.SUMMARY_HI.signalling -/
def evtSummaryHi_signalling : Fld := ⟨0x010A4, 4, 0, 16⟩
/-- EVT.ROUTE.host_vector -/
def evtRoute_hostVector : Fld := ⟨0x01100, 4, 0, 6⟩
/-- EVT.ROUTE.host_en -/
def evtRoute_hostEn : Fld := ⟨0x01100, 4, 6, 1⟩
/-- EVT.ROUTE.bench_line -/
def evtRoute_benchLine : Fld := ⟨0x01100, 4, 8, 5⟩
/-- EVT.ROUTE.bench_en -/
def evtRoute_benchEn : Fld := ⟨0x01100, 4, 13, 1⟩
/-- EVT.ROUTE.pin_en -/
def evtRoute_pinEn : Fld := ⟨0x01100, 4, 14, 1⟩
/-- EVT.AUTO_MASK.auto_mask -/
def evtAutoMask_autoMask : Fld := ⟨0x01200, 4, 0, 32⟩
/-- LAN.LANE_CFG.protocol -/
def lanLaneCfg_protocol : Fld := ⟨0x08080, 4, 0, 2⟩
/-- LAN.LANE_CFG.rate -/
def lanLaneCfg_rate : Fld := ⟨0x08080, 4, 2, 3⟩
/-- LAN.LANE_CFG.tx_precode -/
def lanLaneCfg_txPrecode : Fld := ⟨0x08080, 4, 7, 1⟩
/-- LAN.LANE_CFG.rx_precode -/
def lanLaneCfg_rxPrecode : Fld := ⟨0x08080, 4, 8, 1⟩
/-- LAN.LANE_CFG.rx_precode_req -/
def lanLaneCfg_rxPrecodeReq : Fld := ⟨0x08080, 4, 9, 1⟩
/-- LAN.LANE_CFG.train_en -/
def lanLaneCfg_trainEn : Fld := ⟨0x08080, 4, 10, 1⟩
/-- LAN.TX_EQ.pre -/
def lanTxEq_pre : Fld := ⟨0x08084, 4, 0, 5⟩
/-- LAN.TX_EQ.post -/
def lanTxEq_post : Fld := ⟨0x08084, 4, 5, 5⟩
/-- LAN.TX_EQ.amp -/
def lanTxEq_amp : Fld := ⟨0x08084, 4, 10, 5⟩
/-- LAN.TX_EQ_LIVE.pre -/
def lanTxEqLive_pre : Fld := ⟨0x08088, 4, 0, 5⟩
/-- LAN.TX_EQ_LIVE.post -/
def lanTxEqLive_post : Fld := ⟨0x08088, 4, 5, 5⟩
/-- LAN.TX_EQ_LIVE.amp -/
def lanTxEqLive_amp : Fld := ⟨0x08088, 4, 10, 5⟩
/-- LAN.TX_EQ_LIVE.main -/
def lanTxEqLive_main : Fld := ⟨0x08088, 4, 16, 7⟩
/-- LAN.SD_CTL.assert_ms -/
def lanSdCtl_assertMs : Fld := ⟨0x0808C, 4, 0, 8⟩
/-- LAN.SD_CTL.deassert_us -/
def lanSdCtl_deassertUs : Fld := ⟨0x0808C, 4, 8, 8⟩
/-- LAN.TRAIN_CTL.max_wait_ms -/
def lanTrainCtl_maxWaitMs : Fld := ⟨0x08090, 4, 0, 12⟩
/-- LAN.TRAIN_CTL.snr_min -/
def lanTrainCtl_snrMin : Fld := ⟨0x08090, 4, 16, 8⟩
/-- LAN.AN_ADV_LO.page -/
def lanAnAdvLo_page : Fld := ⟨0x08094, 4, 0, 32⟩
/-- LAN.AN_ADV_HI.page -/
def lanAnAdvHi_page : Fld := ⟨0x08098, 4, 0, 16⟩
/-- LAN.AN_LP_LO.page -/
def lanAnLpLo_page : Fld := ⟨0x0809C, 4, 0, 32⟩
/-- LAN.AN_LP_HI.page -/
def lanAnLpHi_page : Fld := ⟨0x080A0, 4, 0, 16⟩
/-- LAN.LINK_STATUS.link_state -/
def lanLinkStatus_linkState : Fld := ⟨0x080B0, 4, 0, 4⟩
/-- LAN.LINK_STATUS.signal_present -/
def lanLinkStatus_signalPresent : Fld := ⟨0x080B0, 4, 4, 1⟩
/-- LAN.LINK_STATUS.cdr_lock -/
def lanLinkStatus_cdrLock : Fld := ⟨0x080B0, 4, 5, 1⟩
/-- LAN.LINK_STATUS.comma_lock -/
def lanLinkStatus_commaLock : Fld := ⟨0x080B0, 4, 6, 1⟩
/-- LAN.LINK_STATUS.trained -/
def lanLinkStatus_trained : Fld := ⟨0x080B0, 4, 7, 1⟩
/-- LAN.LINK_STATUS.live_rate -/
def lanLinkStatus_liveRate : Fld := ⟨0x080B0, 4, 8, 3⟩
/-- LAN.LINK_STATUS.live_tx_precode -/
def lanLinkStatus_liveTxPrecode : Fld := ⟨0x080B0, 4, 11, 1⟩
/-- LAN.LINK_STATUS.live_rx_precode -/
def lanLinkStatus_liveRxPrecode : Fld := ⟨0x080B0, 4, 12, 1⟩
/-- LAN.LINK_STATUS.hcd -/
def lanLinkStatus_hcd : Fld := ⟨0x080B0, 4, 16, 8⟩
/-- LAN.LINK_COUNTS.link_down -/
def lanLinkCounts_linkDown : Fld := ⟨0x080B4, 4, 0, 16⟩
/-- LAN.LINK_COUNTS.train_fail -/
def lanLinkCounts_trainFail : Fld := ⟨0x080B4, 4, 16, 8⟩
/-- LAN.LINK_COUNTS.sd_glitch -/
def lanLinkCounts_sdGlitch : Fld := ⟨0x080B4, 4, 24, 8⟩
/-- LAN.TIE_ALIGN.comma_offset -/
def lanTieAlign_commaOffset : Fld := ⟨0x080B8, 4, 0, 12⟩
/-- LAN.TIE_ALIGN.skew -/
def lanTieAlign_skew : Fld := ⟨0x080B8, 4, 12, 9⟩
/-- LAN.TIE_ALIGN.comma_err -/
def lanTieAlign_commaErr : Fld := ⟨0x080B8, 4, 24, 8⟩
/-- LAN.ADAPT_STATUS.snr -/
def lanAdaptStatus_snr : Fld := ⟨0x080BC, 4, 0, 8⟩
/-- LAN.ADAPT_STATUS.ctle -/
def lanAdaptStatus_ctle : Fld := ⟨0x080BC, 4, 8, 6⟩
/-- LAN.ADAPT_STATUS.dfe1 -/
def lanAdaptStatus_dfe1 : Fld := ⟨0x080BC, 4, 16, 8⟩
/-- LAN.ADAPT_STATUS.updates -/
def lanAdaptStatus_updates : Fld := ⟨0x080BC, 4, 24, 8⟩
/-- LAN.PMA_DELAY.tx_delay -/
def lanPmaDelay_txDelay : Fld := ⟨0x080C0, 4, 0, 16⟩
/-- LAN.PMA_DELAY.rx_delay -/
def lanPmaDelay_rxDelay : Fld := ⟨0x080C0, 4, 16, 16⟩
/-- LAN.EYE_CTL.start -/
def lanEyeCtl_start : Fld := ⟨0x080C4, 4, 0, 1⟩
/-- LAN.EYE_CTL.busy -/
def lanEyeCtl_busy : Fld := ⟨0x080C4, 4, 8, 1⟩
/-- LAN.EYE_CTL.done -/
def lanEyeCtl_done : Fld := ⟨0x080C4, 4, 9, 1⟩
/-- LAN.EYE_CTL.valid -/
def lanEyeCtl_valid : Fld := ⟨0x080C4, 4, 10, 1⟩
/-- LAN.EYE_CTL.overrun -/
def lanEyeCtl_overrun : Fld := ⟨0x080C4, 4, 11, 1⟩
/-- LAN.EYE_VERT.upper -/
def lanEyeVert_upper : Fld := ⟨0x080C8, 4, 0, 8⟩
/-- LAN.EYE_VERT.middle -/
def lanEyeVert_middle : Fld := ⟨0x080C8, 4, 8, 8⟩
/-- LAN.EYE_VERT.lower -/
def lanEyeVert_lower : Fld := ⟨0x080C8, 4, 16, 8⟩
/-- LAN.EYE_HORZ.left -/
def lanEyeHorz_left : Fld := ⟨0x080CC, 4, 0, 8⟩
/-- LAN.EYE_HORZ.right -/
def lanEyeHorz_right : Fld := ⟨0x080CC, 4, 8, 8⟩
/-- LAN.PAT_CTL.gen_pattern -/
def lanPatCtl_genPattern : Fld := ⟨0x080D0, 4, 0, 4⟩
/-- LAN.PAT_CTL.chk_pattern -/
def lanPatCtl_chkPattern : Fld := ⟨0x080D0, 4, 4, 4⟩
/-- LAN.PAT_CTL.inject -/
def lanPatCtl_inject : Fld := ⟨0x080D0, 4, 8, 1⟩
/-- LAN.PAT_ERR_LO.count -/
def lanPatErrLo_count : Fld := ⟨0x080DC, 4, 0, 32⟩
/-- LAN.PAT_BITS_LO.count -/
def lanPatBitsLo_count : Fld := ⟨0x080E4, 4, 0, 32⟩
/-- LAN.PAT_STATUS.chk_lock -/
def lanPatStatus_chkLock : Fld := ⟨0x080EC, 4, 0, 1⟩
/-- LAN.CAL_STATUS.pll_lock -/
def lanCalStatus_pllLock : Fld := ⟨0x08200, 4, 0, 1⟩
/-- LAN.CAL_STATUS.cal_valid -/
def lanCalStatus_calValid : Fld := ⟨0x08200, 4, 1, 1⟩
/-- LAN.CAL_STATUS.passes -/
def lanCalStatus_passes : Fld := ⟨0x08200, 4, 16, 16⟩
/-- PRT.PORT_CFG.speed -/
def prtPortCfg_speed : Fld := ⟨0x0C080, 4, 0, 3⟩
/-- PRT.PORT_CFG.fec -/
def prtPortCfg_fec : Fld := ⟨0x0C080, 4, 3, 2⟩
/-- PRT.PORT_CFG.fec_mode -/
def prtPortCfg_fecMode : Fld := ⟨0x0C080, 4, 5, 1⟩
/-- PRT.PORT_CFG.c37_an -/
def prtPortCfg_c37An : Fld := ⟨0x0C080, 4, 6, 1⟩
/-- PRT.PORT_CFG.max_frame -/
def prtPortCfg_maxFrame : Fld := ⟨0x0C080, 4, 8, 14⟩
/-- PRT.RED_CFG.red_mode -/
def prtRedCfg_redMode : Fld := ⟨0x0C084, 4, 0, 2⟩
/-- PRT.RED_CFG.side -/
def prtRedCfg_side : Fld := ⟨0x0C084, 4, 2, 1⟩
/-- PRT.RED_CFG.pair -/
def prtRedCfg_pair : Fld := ⟨0x0C084, 4, 3, 3⟩
/-- PRT.RED_CFG.strip -/
def prtRedCfg_strip : Fld := ⟨0x0C084, 4, 6, 1⟩
/-- PRT.RED_CFG.net_id -/
def prtRedCfg_netId : Fld := ⟨0x0C084, 4, 7, 3⟩
/-- PRT.DEBOUNCE.up_ms -/
def prtDebounce_upMs : Fld := ⟨0x0C088, 4, 0, 8⟩
/-- PRT.DEBOUNCE.down_100us -/
def prtDebounce_down100us : Fld := ⟨0x0C088, 4, 8, 8⟩
/-- PRT.DEBOUNCE.flap_max -/
def prtDebounce_flapMax : Fld := ⟨0x0C088, 4, 16, 4⟩
/-- PRT.DEBOUNCE.flap_window -/
def prtDebounce_flapWindow : Fld := ⟨0x0C088, 4, 20, 4⟩
/-- PRT.DEBOUNCE.penalty_s -/
def prtDebounce_penaltyS : Fld := ⟨0x0C088, 4, 24, 8⟩
/-- PRT.LINK_STATUS.link_up -/
def prtLinkStatus_linkUp : Fld := ⟨0x0C090, 4, 0, 1⟩
/-- PRT.LINK_STATUS.pcs_lock -/
def prtLinkStatus_pcsLock : Fld := ⟨0x0C090, 4, 1, 1⟩
/-- PRT.LINK_STATUS.local_fault -/
def prtLinkStatus_localFault : Fld := ⟨0x0C090, 4, 2, 1⟩
/-- PRT.LINK_STATUS.remote_fault -/
def prtLinkStatus_remoteFault : Fld := ⟨0x0C090, 4, 3, 1⟩
/-- PRT.LINK_STATUS.hi_ber -/
def prtLinkStatus_hiBer : Fld := ⟨0x0C090, 4, 4, 1⟩
/-- PRT.LINK_STATUS.suppressed -/
def prtLinkStatus_suppressed : Fld := ⟨0x0C090, 4, 5, 1⟩
/-- PRT.LINK_STATUS.fec_active -/
def prtLinkStatus_fecActive : Fld := ⟨0x0C090, 4, 6, 2⟩
/-- PRT.LINK_STATUS.speed_live -/
def prtLinkStatus_speedLive : Fld := ⟨0x0C090, 4, 8, 3⟩
/-- PRT.LINK_STATUS.flap_count -/
def prtLinkStatus_flapCount : Fld := ⟨0x0C090, 4, 16, 4⟩
/-- PRT.TS_DELAY.rx_fixed -/
def prtTsDelay_rxFixed : Fld := ⟨0x0C094, 4, 0, 16⟩
/-- PRT.TS_DELAY.tx_fixed -/
def prtTsDelay_txFixed : Fld := ⟨0x0C094, 4, 16, 16⟩
/-- PRT.RED_SEQ.seq -/
def prtRedSeq_seq : Fld := ⟨0x0C098, 4, 0, 16⟩
/-- PRT.CNT_LO.count -/
def prtCntLo_count : Fld := ⟨0x0D000, 8, 0, 32⟩
/-- PRS.PROF_CFG.enables -/
def prsProfCfg_enables : Fld := ⟨0x12080, 4, 0, 15⟩
/-- PRS.PROF_CFG.prp_detect -/
def prsProfCfg_prpDetect : Fld := ⟨0x12080, 4, 15, 1⟩
/-- PRS.PROF_CFG.tunnel_view -/
def prsProfCfg_tunnelView : Fld := ⟨0x12080, 4, 16, 1⟩
/-- PRS.PROF_CFG.port_class -/
def prsProfCfg_portClass : Fld := ⟨0x12080, 4, 24, 8⟩
/-- PRS.PROF_PORTS.vxlan_udp -/
def prsProfPorts_vxlanUdp : Fld := ⟨0x12084, 4, 0, 16⟩
/-- PRS.PROF_PORTS.r61850_udp -/
def prsProfPorts_r61850Udp : Fld := ⟨0x12084, 4, 16, 16⟩
/-- PRS.PROF_VLAN.default_vid -/
def prsProfVlan_defaultVid : Fld := ⟨0x12088, 4, 0, 12⟩
/-- PRS.PROF_VLAN.stag_tpid -/
def prsProfVlan_stagTpid : Fld := ⟨0x12088, 4, 16, 16⟩
/-- PRS.EXC_POLICY.plain_0 -/
def prsExcPolicy_plain0 : Fld := ⟨0x1208C, 4, 0, 2⟩
/-- PRS.HOST_PROFILE.profile -/
def prsHostProfile_profile : Fld := ⟨0x120C0, 4, 0, 8⟩
/-- PRS.EXC_CNT_LO.count -/
def prsExcCntLo_count : Fld := ⟨0x13000, 8, 0, 32⟩
/-- CLS.VERSION.current -/
def clsVersion_current : Fld := ⟨0x14080, 4, 0, 32⟩
/-- CLS.VERSION_STATE.draining -/
def clsVersionState_draining : Fld := ⟨0x14084, 4, 0, 1⟩
/-- CLS.VERSION_STATE.cur_mode -/
def clsVersionState_curMode : Fld := ⟨0x14084, 4, 1, 1⟩
/-- CLS.INFLIGHT_CUR.count -/
def clsInflightCur_count : Fld := ⟨0x14088, 4, 0, 22⟩
/-- CLS.INFLIGHT_OLD.count -/
def clsInflightOld_count : Fld := ⟨0x1408C, 4, 0, 22⟩
/-- CLS.DRAIN_CTL.drain_limit_ms -/
def clsDrainCtl_drainLimitMs : Fld := ⟨0x14090, 4, 0, 8⟩
/-- CLS.DRAIN_STATUS.last_drain -/
def clsDrainStatus_lastDrain : Fld := ⟨0x14094, 4, 0, 16⟩
/-- CLS.DRAIN_STATUS.drain_overruns -/
def clsDrainStatus_drainOverruns : Fld := ⟨0x14094, 4, 16, 8⟩
/-- CLS.DRAIN_STATUS.forced_drops -/
def clsDrainStatus_forcedDrops : Fld := ⟨0x14094, 4, 24, 8⟩
/-- CLS.STAGE_CTL.mode -/
def clsStageCtl_mode : Fld := ⟨0x14098, 4, 2, 1⟩
/-- CLS.STAGE_CTL.busy -/
def clsStageCtl_busy : Fld := ⟨0x14098, 4, 8, 1⟩
/-- CLS.STAGE_CTL.stage_refused -/
def clsStageCtl_stageRefused : Fld := ⟨0x14098, 4, 9, 1⟩
/-- CLS.STAGE_ADDR.index -/
def clsStageAddr_index : Fld := ⟨0x1409C, 4, 0, 17⟩
/-- CLS.STAGE_ADDR.auto_inc -/
def clsStageAddr_autoInc : Fld := ⟨0x1409C, 4, 31, 1⟩
/-- CLS.STAGE_COUNT.rule_count -/
def clsStageCount_ruleCount : Fld := ⟨0x140A0, 4, 0, 18⟩
/-- CLS.STAGE_DATA.data -/
def clsStageData_data : Fld := ⟨0x140C0, 4, 0, 32⟩
/-- CLS.DEFAULT_A.action -/
def clsDefaultA_action : Fld := ⟨0x14100, 4, 0, 32⟩
/-- CLS.DEFAULT_B.action -/
def clsDefaultB_action : Fld := ⟨0x14104, 4, 0, 32⟩
/-- CLS.SCADA_PORTS.port0 -/
def clsScadaPorts_port0 : Fld := ⟨0x14108, 4, 0, 16⟩
/-- CLS.SCADA_PORTS.port1 -/
def clsScadaPorts_port1 : Fld := ⟨0x14108, 4, 16, 16⟩
/-- CLS.HASH_PROF.fields -/
def clsHashProf_fields : Fld := ⟨0x14110, 4, 0, 11⟩
/-- CLS.HASH_PROF.symmetric -/
def clsHashProf_symmetric : Fld := ⟨0x14110, 4, 11, 1⟩
/-- CLS.HASH_PROF.inner -/
def clsHashProf_inner : Fld := ⟨0x14110, 4, 12, 1⟩
/-- CLS.STEER_CFG.steer_table -/
def clsSteerCfg_steerTable : Fld := ⟨0x14140, 4, 0, 6⟩
/-- CLS.IND_ADDR.index -/
def clsIndAddr_index : Fld := ⟨0x14150, 4, 0, 12⟩
/-- CLS.IND_ADDR.table -/
def clsIndAddr_table : Fld := ⟨0x14150, 4, 12, 6⟩
/-- CLS.IND_ADDR.auto_inc -/
def clsIndAddr_autoInc : Fld := ⟨0x14150, 4, 31, 1⟩
/-- CLS.IND_DATA.value -/
def clsIndData_value : Fld := ⟨0x14154, 4, 0, 6⟩
/-- CLS.IND_STATUS.busy -/
def clsIndStatus_busy : Fld := ⟨0x14158, 4, 0, 1⟩
/-- CLS.IND_STATUS.refused -/
def clsIndStatus_refused : Fld := ⟨0x14158, 4, 1, 1⟩
/-- L2T.CFG.svl -/
def l2tCfg_svl : Fld := ⟨0x18080, 4, 0, 1⟩
/-- L2T.CFG.miss_action -/
def l2tCfg_missAction : Fld := ⟨0x18080, 4, 1, 2⟩
/-- L2T.CFG.notify_en -/
def l2tCfg_notifyEn : Fld := ⟨0x18080, 4, 3, 1⟩
/-- L2T.CFG.miss_nh -/
def l2tCfg_missNh : Fld := ⟨0x18080, 4, 4, 18⟩
/-- L2T.AGE_CFG.tick_100ms -/
def l2tAgeCfg_tick100ms : Fld := ⟨0x18084, 4, 0, 8⟩
/-- L2T.AGE_CFG.age_limit -/
def l2tAgeCfg_ageLimit : Fld := ⟨0x18084, 4, 8, 11⟩
/-- L2T.NOTIFY_CFG.rate_k -/
def l2tNotifyCfg_rateK : Fld := ⟨0x18088, 4, 0, 10⟩
/-- L2T.PORT_SEL.port -/
def l2tPortSel_port : Fld := ⟨0x18090, 4, 0, 8⟩
/-- L2T.PORT_LEARN.mode -/
def l2tPortLearn_mode : Fld := ⟨0x18094, 4, 0, 2⟩
/-- L2T.PORT_LEARN.limit_drop -/
def l2tPortLearn_limitDrop : Fld := ⟨0x18094, 4, 2, 1⟩
/-- L2T.PORT_LEARN.limit -/
def l2tPortLearn_limit : Fld := ⟨0x18094, 4, 4, 20⟩
/-- L2T.PORT_COUNT.learned -/
def l2tPortCount_learned : Fld := ⟨0x18098, 4, 0, 20⟩
/-- L2T.KEY_LO.mac_lo -/
def l2tKeyLo_macLo : Fld := ⟨0x180A0, 4, 0, 32⟩
/-- L2T.KEY_HI.mac_hi -/
def l2tKeyHi_macHi : Fld := ⟨0x180A4, 4, 0, 16⟩
/-- L2T.KEY_HI.fid -/
def l2tKeyHi_fid : Fld := ⟨0x180A4, 4, 16, 12⟩
/-- L2T.ENTRY_DATA.target -/
def l2tEntryData_target : Fld := ⟨0x180A8, 4, 0, 18⟩
/-- L2T.ENTRY_DATA.kind -/
def l2tEntryData_kind : Fld := ⟨0x180A8, 4, 18, 2⟩
/-- L2T.ENTRY_DATA.static -/
def l2tEntryData_static : Fld := ⟨0x180A8, 4, 20, 1⟩
/-- L2T.ENTRY_DATA.drop -/
def l2tEntryData_drop : Fld := ⟨0x180A8, 4, 21, 1⟩
/-- L2T.ENTRY_STAMP.stamp -/
def l2tEntryStamp_stamp : Fld := ⟨0x180AC, 4, 0, 12⟩
/-- L2T.ENTRY_STAMP.overflow -/
def l2tEntryStamp_overflow : Fld := ⟨0x180AC, 4, 12, 1⟩
/-- L2T.OP.op -/
def l2tOp_op : Fld := ⟨0x180B0, 4, 0, 3⟩
/-- L2T.OP.index -/
def l2tOp_index : Fld := ⟨0x180B0, 4, 4, 20⟩
/-- L2T.OP.result -/
def l2tOp_result : Fld := ⟨0x180B0, 4, 24, 4⟩
/-- L2T.OP.busy -/
def l2tOp_busy : Fld := ⟨0x180B0, 4, 28, 1⟩
/-- L2T.USAGE.used -/
def l2tUsage_used : Fld := ⟨0x180C0, 4, 0, 20⟩
/-- L2T.OVF_USAGE.used -/
def l2tOvfUsage_used : Fld := ⟨0x180C4, 4, 0, 14⟩
/-- L2T.STAT.count -/
def l2tStat_count : Fld := ⟨0x180D0, 4, 0, 32⟩
/-- L2T.STAT10.count -/
def l2tStat10_count : Fld := ⟨0x180FC, 4, 0, 32⟩
/-- L2T.STAT_CLEAR.clear -/
def l2tStatClear_clear : Fld := ⟨0x180F8, 4, 0, 11⟩
/-- LPM.CFG.miss_action -/
def lpmCfg_missAction : Fld := ⟨0x19080, 4, 0, 2⟩
/-- LPM.CFG.miss_nh -/
def lpmCfg_missNh : Fld := ⟨0x19080, 4, 2, 18⟩
/-- LPM.CFG.ttl_host -/
def lpmCfg_ttlHost : Fld := ⟨0x19080, 4, 20, 1⟩
/-- LPM.NODE_ADDR.index -/
def lpmNodeAddr_index : Fld := ⟨0x19084, 4, 0, 22⟩
/-- LPM.NODE_ADDR.auto_inc -/
def lpmNodeAddr_autoInc : Fld := ⟨0x19084, 4, 31, 1⟩
/-- LPM.NH_ADDR.index -/
def lpmNhAddr_index : Fld := ⟨0x19094, 4, 0, 22⟩
/-- LPM.NH_ADDR.auto_inc -/
def lpmNhAddr_autoInc : Fld := ⟨0x19094, 4, 31, 1⟩
/-- LPM.ECMP_ADDR.index -/
def lpmEcmpAddr_index : Fld := ⟨0x190A8, 4, 0, 22⟩
/-- LPM.ECMP_ADDR.auto_inc -/
def lpmEcmpAddr_autoInc : Fld := ⟨0x190A8, 4, 31, 1⟩
/-- LPM.MEMBER_ADDR.index -/
def lpmMemberAddr_index : Fld := ⟨0x190B0, 4, 0, 22⟩
/-- LPM.MEMBER_ADDR.auto_inc -/
def lpmMemberAddr_autoInc : Fld := ⟨0x190B0, 4, 31, 1⟩
/-- LPM.NODE_DATA_LO.data -/
def lpmNodeDataLo_data : Fld := ⟨0x19088, 4, 0, 32⟩
/-- LPM.NODE_DATA_HI.data -/
def lpmNodeDataHi_data : Fld := ⟨0x1908C, 4, 0, 32⟩
/-- LPM.FENCE.done -/
def lpmFence_done : Fld := ⟨0x19090, 4, 1, 1⟩
/-- LPM.NH_DATA0.data -/
def lpmNhData0_data : Fld := ⟨0x19098, 4, 0, 32⟩
/-- LPM.NH_DATA1.data -/
def lpmNhData1_data : Fld := ⟨0x1909C, 4, 0, 32⟩
/-- LPM.NH_DATA2.data -/
def lpmNhData2_data : Fld := ⟨0x190A0, 4, 0, 32⟩
/-- LPM.NH_DATA3.data -/
def lpmNhData3_data : Fld := ⟨0x190A4, 4, 0, 32⟩
/-- LPM.ECMP_DATA.data -/
def lpmEcmpData_data : Fld := ⟨0x190AC, 4, 0, 27⟩
/-- LPM.MEMBER_DATA.data -/
def lpmMemberData_data : Fld := ⟨0x190B4, 4, 0, 18⟩
/-- LPM.SMAC_LO.mac -/
def lpmSmacLo_mac : Fld := ⟨0x19100, 8, 0, 32⟩
/-- LPM.SMAC_HI.mac -/
def lpmSmacHi_mac : Fld := ⟨0x19104, 8, 0, 16⟩
/-- LPM.STAT.count -/
def lpmStat_count : Fld := ⟨0x190C0, 4, 0, 32⟩
/-- LPM.STAT_CLEAR.clear -/
def lpmStatClear_clear : Fld := ⟨0x190D0, 4, 0, 4⟩
/-- FLT.AGE_TICK.tick_ms -/
def fltAgeTick_tickMs : Fld := ⟨0x1C080, 4, 0, 16⟩
/-- FLT.TICK_NOW.tick -/
def fltTickNow_tick : Fld := ⟨0x1C084, 4, 0, 20⟩
/-- FLT.PROG_SEL.index -/
def fltProgSel_index : Fld := ⟨0x1C088, 4, 0, 8⟩
/-- FLT.KEY_SEL.index -/
def fltKeySel_index : Fld := ⟨0x1C090, 4, 0, 4⟩
/-- FLT.PROG_TIMEOUT.timeout -/
def fltProgTimeout_timeout : Fld := ⟨0x1C08C, 4, 0, 20⟩
/-- FLT.KEY_PROF.fields -/
def fltKeyProf_fields : Fld := ⟨0x1C094, 4, 0, 13⟩
/-- FLT.KEY_PROF.symmetric -/
def fltKeyProf_symmetric : Fld := ⟨0x1C094, 4, 13, 1⟩
/-- FLT.KEY_PROF.inner -/
def fltKeyProf_inner : Fld := ⟨0x1C094, 4, 14, 1⟩
/-- FLT.KEY_PROF.required -/
def fltKeyProf_required : Fld := ⟨0x1C094, 4, 16, 13⟩
/-- FLT.EXPORT_CFG.dest -/
def fltExportCfg_dest : Fld := ⟨0x1C098, 4, 0, 2⟩
/-- FLT.USAGE.count -/
def fltUsage_count : Fld := ⟨0x1C0A0, 4, 0, 28⟩
/-- FLT.OVF_USAGE.count -/
def fltOvfUsage_count : Fld := ⟨0x1C0A4, 4, 0, 28⟩
/-- FLT.ALLOC_HWM.count -/
def fltAllocHwm_count : Fld := ⟨0x1C0A8, 4, 0, 28⟩
/-- FLT.POOL_LEVEL.count -/
def fltPoolLevel_count : Fld := ⟨0x1C0AC, 4, 0, 28⟩
/-- FLT.SCAN_STATUS.passes -/
def fltScanStatus_passes : Fld := ⟨0x1C0B0, 4, 0, 16⟩
/-- FLT.SCAN_STATUS.last_pass_ms -/
def fltScanStatus_lastPassMs : Fld := ⟨0x1C0B0, 4, 16, 16⟩
/-- FLT.BAR2_WINDOW.window -/
def fltBar2Window_window : Fld := ⟨0x1C0B4, 4, 0, 9⟩
/-- FLT.EXPORT_STATUS.queued -/
def fltExportStatus_queued : Fld := ⟨0x1C0B8, 4, 0, 14⟩
/-- FLT.CNT_LO.count -/
def fltCntLo_count : Fld := ⟨0x1C0C0, 8, 0, 32⟩
/-- FLT.CMDQ_BASE_LO.addr -/
def fltCmdqBaseLo_addr : Fld := ⟨0x1D000, 4, 0, 32⟩
/-- FLT.CMDQ_BASE_HI.addr -/
def fltCmdqBaseHi_addr : Fld := ⟨0x1D004, 4, 0, 32⟩
/-- FLT.EXPQ_BASE_LO.addr -/
def fltExpqBaseLo_addr : Fld := ⟨0x1D020, 4, 0, 32⟩
/-- FLT.EXPQ_BASE_HI.addr -/
def fltExpqBaseHi_addr : Fld := ⟨0x1D024, 4, 0, 32⟩
/-- FLT.CMDQ_CFG.log2_entries -/
def fltCmdqCfg_log2Entries : Fld := ⟨0x1D008, 4, 0, 4⟩
/-- FLT.CMDQ_CFG.enable -/
def fltCmdqCfg_enable : Fld := ⟨0x1D008, 4, 4, 1⟩
/-- FLT.EXPQ_CFG.log2_entries -/
def fltExpqCfg_log2Entries : Fld := ⟨0x1D028, 4, 0, 4⟩
/-- FLT.EXPQ_CFG.enable -/
def fltExpqCfg_enable : Fld := ⟨0x1D028, 4, 4, 1⟩
/-- FLT.CMDQ_PROD.index -/
def fltCmdqProd_index : Fld := ⟨0x1D00C, 4, 0, 13⟩
/-- FLT.CMDQ_CONS.index -/
def fltCmdqCons_index : Fld := ⟨0x1D010, 4, 0, 13⟩
/-- FLT.EXPQ_PROD.index -/
def fltExpqProd_index : Fld := ⟨0x1D02C, 4, 0, 13⟩
/-- FLT.EXPQ_CONS.index -/
def fltExpqCons_index : Fld := ⟨0x1D030, 4, 0, 13⟩
/-- FCH.CNT_LO.count -/
def fchCntLo_count : Fld := ⟨0x20080, 8, 0, 32⟩
/-- FCH.OCCUPANCY.lines -/
def fchOccupancy_lines : Fld := ⟨0x200D0, 4, 0, 20⟩
/-- FCH.DIRTY.lines -/
def fchDirty_lines : Fld := ⟨0x200D4, 4, 0, 20⟩
/-- FCH.LOCKED.lines -/
def fchLocked_lines : Fld := ⟨0x200D8, 4, 0, 20⟩
/-- HBM.STACK_STATUS.trained -/
def hbmStackStatus_trained : Fld := ⟨0x22080, 4, 0, 1⟩
/-- HBM.STACK_STATUS.refresh_2x -/
def hbmStackStatus_refresh2x : Fld := ⟨0x22080, 4, 1, 1⟩
/-- HBM.STACK_STATUS.temp_c -/
def hbmStackStatus_tempC : Fld := ⟨0x22080, 4, 8, 8⟩
/-- HBM.ECC_CORR.count -/
def hbmEccCorr_count : Fld := ⟨0x22084, 4, 0, 32⟩
/-- HBM.ECC_UNCORR.count -/
def hbmEccUncorr_count : Fld := ⟨0x22088, 4, 0, 32⟩
/-- HBM.ERR_ADDR_LO.addr -/
def hbmErrAddrLo_addr : Fld := ⟨0x2208C, 4, 0, 32⟩
/-- HBM.ERR_ADDR_HI.addr_hi -/
def hbmErrAddrHi_addrHi : Fld := ⟨0x22090, 4, 0, 4⟩
/-- HBM.ERR_ADDR_HI.valid -/
def hbmErrAddrHi_valid : Fld := ⟨0x22090, 4, 31, 1⟩
/-- FEN.ENG_STATUS.activity -/
def fenEngStatus_activity : Fld := ⟨0x26080, 4, 0, 2⟩
/-- FEN.LAST_FAULT.kind -/
def fenLastFault_kind : Fld := ⟨0x26084, 4, 0, 4⟩
/-- FEN.LAST_FAULT.pc -/
def fenLastFault_pc : Fld := ⟨0x26084, 4, 4, 13⟩
/-- FEN.LAST_FAULT.program -/
def fenLastFault_program : Fld := ⟨0x26084, 4, 17, 8⟩
/-- FEN.LAST_FAULT.bank -/
def fenLastFault_bank : Fld := ⟨0x26084, 4, 25, 1⟩
/-- FEN.LAST_FAULT.valid -/
def fenLastFault_valid : Fld := ⟨0x26084, 4, 31, 1⟩
/-- FEN.LAST_FAULT_BUCKET.bucket -/
def fenLastFaultBucket_bucket : Fld := ⟨0x26088, 4, 0, 27⟩
/-- FEN.CNT_LO.count -/
def fenCntLo_count : Fld := ⟨0x27000, 8, 0, 32⟩
/-- MCS.BANK_CTL.bank_sel -/
def mcsBankCtl_bankSel : Fld := ⟨0x2A080, 4, 0, 1⟩
/-- MCS.BANK_STATE.bank0 -/
def mcsBankState_bank0 : Fld := ⟨0x2A084, 4, 0, 3⟩
/-- MCS.BANK_STATE.bank1 -/
def mcsBankState_bank1 : Fld := ⟨0x2A084, 4, 3, 3⟩
/-- MCS.BANK_STATE.live -/
def mcsBankState_live : Fld := ⟨0x2A084, 4, 6, 1⟩
/-- MCS.BANK_STATE.switches -/
def mcsBankState_switches : Fld := ⟨0x2A084, 4, 16, 16⟩
/-- MCS.BANK_INFO0.sequence -/
def mcsBankInfo0_sequence : Fld := ⟨0x2A088, 4, 0, 32⟩
/-- MCS.BANK_INFO1.sequence -/
def mcsBankInfo1_sequence : Fld := ⟨0x2A08C, 4, 0, 32⟩
/-- MCS.PROG_SEL.program -/
def mcsProgSel_program : Fld := ⟨0x2A090, 4, 0, 8⟩
/-- MCS.PROG_SEL.bank -/
def mcsProgSel_bank : Fld := ⟨0x2A090, 4, 8, 1⟩
/-- MCS.PROG_ENTRY.entry -/
def mcsProgEntry_entry : Fld := ⟨0x2A094, 4, 0, 13⟩
/-- MCS.WORD_ADDR.word -/
def mcsWordAddr_word : Fld := ⟨0x2A098, 4, 0, 13⟩
/-- MCS.WORD_ADDR.bank -/
def mcsWordAddr_bank : Fld := ⟨0x2A098, 4, 13, 1⟩
/-- MCS.WORD_DATA.data -/
def mcsWordData_data : Fld := ⟨0x2A0A0, 4, 0, 32⟩
/-- MCS.MC_STATUS.last_word -/
def mcsMcStatus_lastWord : Fld := ⟨0x2A0C0, 4, 0, 13⟩
/-- MCS.MC_STATUS.last_bank -/
def mcsMcStatus_lastBank : Fld := ⟨0x2A0C0, 4, 13, 1⟩
/-- MCS.MC_STATUS.second -/
def mcsMcStatus_second : Fld := ⟨0x2A0C0, 4, 14, 1⟩
/-- MCS.MC_STATUS.checks -/
def mcsMcStatus_checks : Fld := ⟨0x2A0C0, 4, 16, 16⟩
/-- MCS.MC_COUNT.retried_ok -/
def mcsMcCount_retriedOk : Fld := ⟨0x2A0C4, 4, 0, 16⟩
/-- MCS.MC_COUNT.mc_drop -/
def mcsMcCount_mcDrop : Fld := ⟨0x2A0C4, 4, 16, 16⟩
/-- MCS.GOLDEN_STATUS.passes -/
def mcsGoldenStatus_passes : Fld := ⟨0x2A0C8, 4, 0, 16⟩
/-- MCS.GOLDEN_STATUS.mismatches -/
def mcsGoldenStatus_mismatches : Fld := ⟨0x2A0C8, 4, 16, 16⟩
/-- DSP.CFG.reserve7 -/
def dspCfg_reserve7 : Fld := ⟨0x24080, 4, 0, 14⟩
/-- DSP.CFG.tag_reserve7 -/
def dspCfg_tagReserve7 : Fld := ⟨0x24080, 4, 16, 10⟩
/-- DSP.CHAIN_CFG.chain_max -/
def dspChainCfg_chainMax : Fld := ⟨0x24084, 4, 0, 8⟩
/-- DSP.CHAIN_CFG.high_water -/
def dspChainCfg_highWater : Fld := ⟨0x24084, 4, 8, 14⟩
/-- DSP.BP_ACTION.action_0 -/
def dspBpAction_action0 : Fld := ⟨0x24088, 4, 0, 2⟩
/-- DSP.WEIGHTS.w0 -/
def dspWeights_w0 : Fld := ⟨0x2408C, 4, 0, 4⟩
/-- DSP.WEIGHTS.w_op -/
def dspWeights_wOp : Fld := ⟨0x2408C, 4, 20, 4⟩
/-- DSP.FENCE_CFG.fence_limit_ms -/
def dspFenceCfg_fenceLimitMs : Fld := ⟨0x24090, 4, 0, 8⟩
/-- DSP.FENCE_CFG.auto_return -/
def dspFenceCfg_autoReturn : Fld := ⟨0x24090, 4, 8, 1⟩
/-- DSP.FENCE_STATUS.open -/
def dspFenceStatus_open : Fld := ⟨0x24094, 4, 0, 13⟩
/-- DSP.FENCE_STATUS.last_us -/
def dspFenceStatus_lastUs : Fld := ⟨0x24094, 4, 16, 16⟩
/-- DSP.ENTRY_SEL.index -/
def dspEntrySel_index : Fld := ⟨0x24098, 4, 0, 12⟩
/-- DSP.ENTRY_STATUS.cluster -/
def dspEntryStatus_cluster : Fld := ⟨0x2409C, 4, 0, 5⟩
/-- DSP.CLASS_CAP.cap -/
def dspClassCap_cap : Fld := ⟨0x240A0, 4, 0, 14⟩
/-- DSP.DEPTH.ready -/
def dspDepth_ready : Fld := ⟨0x24100, 4, 0, 14⟩
/-- DSP.STAGE.lookups -/
def dspStage_lookups : Fld := ⟨0x24104, 4, 0, 10⟩
/-- DSP.PARKED.ops_queued -/
def dspParked_opsQueued : Fld := ⟨0x24108, 4, 0, 11⟩
/-- DSP.CLASS_DEPTH.items -/
def dspClassDepth_items : Fld := ⟨0x24110, 4, 0, 14⟩
/-- DSP.CLASS_WAIT.max_wait -/
def dspClassWait_maxWait : Fld := ⟨0x24130, 4, 0, 16⟩
/-- DSP.LOAD.busy -/
def dspLoad_busy : Fld := ⟨0x24150, 4, 0, 10⟩
/-- DSP.LOAD.items_k -/
def dspLoad_itemsK : Fld := ⟨0x24150, 4, 16, 16⟩
/-- DSP.CNT_LO.count -/
def dspCntLo_count : Fld := ⟨0x25000, 8, 0, 32⟩
/-- SWC.CT_CFG.class_ct -/
def swcCtCfg_classCt : Fld := ⟨0x2D080, 4, 0, 8⟩
/-- SWC.CT_CFG.withdrawn -/
def swcCtCfg_withdrawn : Fld := ⟨0x2D080, 4, 8, 1⟩
/-- SWC.AGE_LIMIT.limit_100us -/
def swcAgeLimit_limit100us : Fld := ⟨0x2D090, 4, 0, 16⟩
/-- SWC.ADMIT.q_min -/
def swcAdmit_qMin : Fld := ⟨0x2D0B0, 4, 0, 12⟩
/-- SWC.ADMIT.alpha -/
def swcAdmit_alpha : Fld := ⟨0x2D0B0, 4, 12, 4⟩
/-- SWC.GUARD.guard -/
def swcGuard_guard : Fld := ⟨0x2D0D0, 4, 0, 19⟩
/-- SWC.ECN.mark_min -/
def swcEcn_markMin : Fld := ⟨0x2D0E0, 4, 0, 16⟩
/-- SWC.ECN.mark_max -/
def swcEcn_markMax : Fld := ⟨0x2D0E0, 4, 16, 16⟩
/-- SWC.MIRROR_CFG.dest -/
def swcMirrorCfg_dest : Fld := ⟨0x2D100, 4, 0, 9⟩
/-- SWC.MIRROR_CFG.class -/
def swcMirrorCfg_class : Fld := ⟨0x2D100, 4, 9, 3⟩
/-- SWC.MIRROR_CFG.trunc -/
def swcMirrorCfg_trunc : Fld := ⟨0x2D100, 4, 12, 1⟩
/-- SWC.Q_SEL.dest -/
def swcQSel_dest : Fld := ⟨0x2D110, 4, 0, 9⟩
/-- SWC.Q_SEL.class -/
def swcQSel_class : Fld := ⟨0x2D110, 4, 9, 3⟩
/-- SWC.Q_SEL.group -/
def swcQSel_group : Fld := ⟨0x2D110, 4, 12, 6⟩
/-- SWC.Q_DEPTH.cells -/
def swcQDepth_cells : Fld := ⟨0x2D114, 4, 0, 20⟩
/-- SWC.VOQ_DEPTH.cells -/
def swcVoqDepth_cells : Fld := ⟨0x2D118, 4, 0, 20⟩
/-- SWC.Q_STATE.idle -/
def swcQState_idle : Fld := ⟨0x2D11C, 4, 0, 1⟩
/-- SWC.DCNT_LO.count -/
def swcDcntLo_count : Fld := ⟨0x2E000, 8, 0, 32⟩
/-- SWC.GCNT_LO.count -/
def swcGcntLo_count : Fld := ⟨0x2E080, 8, 0, 32⟩
/-- BPM.LOW_WATER.level -/
def bpmLowWater_level : Fld := ⟨0x2C0C0, 4, 0, 19⟩
/-- BPM.REQ_SEL.requester -/
def bpmReqSel_requester : Fld := ⟨0x2C0E0, 4, 0, 6⟩
/-- BPM.REQ_CFG.priority -/
def bpmReqCfg_priority : Fld := ⟨0x2C0E4, 4, 0, 2⟩
/-- BPM.REQ_CFG.fall_up -/
def bpmReqCfg_fallUp : Fld := ⟨0x2C0E4, 4, 2, 1⟩
/-- BPM.REQ_CFG.window -/
def bpmReqCfg_window : Fld := ⟨0x2C0E4, 4, 3, 2⟩
/-- BPM.REQ_RESERVE.count -/
def bpmReqReserve_count : Fld := ⟨0x2C0F0, 4, 0, 19⟩
/-- BPM.REQ_CAP.count -/
def bpmReqCap_count : Fld := ⟨0x2C110, 4, 0, 19⟩
/-- BPM.REQ_USED.count -/
def bpmReqUsed_count : Fld := ⟨0x2C130, 4, 0, 19⟩
/-- BPM.REQ_EMPTY.count -/
def bpmReqEmpty_count : Fld := ⟨0x2C144, 4, 0, 32⟩
/-- BPM.ALLOC.size -/
def bpmAlloc_size : Fld := ⟨0x2C150, 4, 0, 15⟩
/-- BPM.ALLOC.requester -/
def bpmAlloc_requester : Fld := ⟨0x2C150, 4, 16, 6⟩
/-- BPM.ALLOC_RESULT.handle -/
def bpmAllocResult_handle : Fld := ⟨0x2C154, 4, 0, 32⟩
/-- BPM.ALLOC_STATUS.result -/
def bpmAllocStatus_result : Fld := ⟨0x2C158, 4, 1, 3⟩
/-- BPM.FREE_STATUS.result -/
def bpmFreeStatus_result : Fld := ⟨0x2C164, 4, 1, 3⟩
/-- BPM.FREE_HANDLE.handle -/
def bpmFreeHandle_handle : Fld := ⟨0x2C15C, 4, 0, 32⟩
/-- BPM.FREE_REQ.requester -/
def bpmFreeReq_requester : Fld := ⟨0x2C160, 4, 0, 6⟩
/-- BPM.BUF_SEL.handle -/
def bpmBufSel_handle : Fld := ⟨0x2C170, 4, 0, 32⟩
/-- BPM.BUF_OFFSET.offset -/
def bpmBufOffset_offset : Fld := ⟨0x2C174, 4, 0, 14⟩
/-- BPM.BUF_OFFSET.auto_inc -/
def bpmBufOffset_autoInc : Fld := ⟨0x2C174, 4, 31, 1⟩
/-- BPM.BUF_DATA.data -/
def bpmBufData_data : Fld := ⟨0x2C178, 4, 0, 32⟩
/-- BPM.CNT_LO.count -/
def bpmCntLo_count : Fld := ⟨0x2C180, 8, 0, 32⟩
/-- BPM.REJECT_LOG.handle -/
def bpmRejectLog_handle : Fld := ⟨0x2C1C0, 4, 0, 22⟩
/-- BPM.REJECT_LOG.requester -/
def bpmRejectLog_requester : Fld := ⟨0x2C1C0, 4, 22, 6⟩
/-- BPM.REJECT_LOG.kind -/
def bpmRejectLog_kind : Fld := ⟨0x2C1C0, 4, 28, 2⟩
/-- BPM.REJECT_LOG.window -/
def bpmRejectLog_window : Fld := ⟨0x2C1C0, 4, 30, 1⟩
/-- BPM.REJECT_LOG.valid -/
def bpmRejectLog_valid : Fld := ⟨0x2C1C0, 4, 31, 1⟩
/-- TMG.DEST_CFG.ovh -/
def tmgDestCfg_ovh : Fld := ⟨0x30080, 4, 0, 8⟩
/-- TMG.DEST_CFG.guard_ns -/
def tmgDestCfg_guardNs : Fld := ⟨0x30080, 4, 8, 16⟩
/-- TMG.WEIGHT_LO.w0 -/
def tmgWeightLo_w0 : Fld := ⟨0x30084, 4, 0, 8⟩
/-- TMG.WEIGHT_HI.w4 -/
def tmgWeightHi_w4 : Fld := ⟨0x30088, 4, 0, 8⟩
/-- TMG.DEST_STATUS.stated_class -/
def tmgDestStatus_statedClass : Fld := ⟨0x3008C, 4, 0, 3⟩
/-- TMG.DEST_STATUS.stated -/
def tmgDestStatus_stated : Fld := ⟨0x3008C, 4, 3, 1⟩
/-- TMG.PORT_RATE.rate -/
def tmgPortRate_rate : Fld := ⟨0x30090, 4, 0, 29⟩
/-- TMG.PORT_BURST.burst -/
def tmgPortBurst_burst : Fld := ⟨0x30094, 4, 0, 24⟩
/-- TMG.CLASS_SEL.class -/
def tmgClassSel_class : Fld := ⟨0x30098, 4, 0, 3⟩
/-- TMG.CLASS_SEL.port -/
def tmgClassSel_port : Fld := ⟨0x30098, 4, 3, 1⟩
/-- TMG.CLASS_RATE.rate -/
def tmgClassRate_rate : Fld := ⟨0x3009C, 4, 0, 29⟩
/-- TMG.CLASS_BURST.burst -/
def tmgClassBurst_burst : Fld := ⟨0x300A0, 4, 0, 24⟩
/-- TMG.MAX_SDU.max_sdu -/
def tmgMaxSdu_maxSdu : Fld := ⟨0x300A4, 4, 0, 14⟩
/-- TMG.SHAPE_FILL.fill -/
def tmgShapeFill_fill : Fld := ⟨0x300A8, 4, 0, 1⟩
/-- TMG.TOKENS.tokens -/
def tmgTokens_tokens : Fld := ⟨0x300AC, 4, 0, 32⟩
/-- TMG.VTIME_LO.value -/
def tmgVtimeLo_value : Fld := ⟨0x300B0, 4, 0, 32⟩
/-- TMG.TAGS_LO.value -/
def tmgTagsLo_value : Fld := ⟨0x300B8, 4, 0, 32⟩
/-- TMG.GATE_CTL.gate_en -/
def tmgGateCtl_gateEn : Fld := ⟨0x300C0, 4, 0, 1⟩
/-- TMG.GATE_CTL.admin_list -/
def tmgGateCtl_adminList : Fld := ⟨0x300C0, 4, 1, 1⟩
/-- TMG.GATE_CTL.arm -/
def tmgGateCtl_arm : Fld := ⟨0x300C0, 4, 2, 1⟩
/-- TMG.GATE_BASE_SEC_LO.value -/
def tmgGateBaseSecLo_value : Fld := ⟨0x300C4, 4, 0, 32⟩
/-- TMG.GATE_BASE_SEC_HI.value -/
def tmgGateBaseSecHi_value : Fld := ⟨0x300C8, 4, 0, 16⟩
/-- TMG.GATE_BASE_NS.value -/
def tmgGateBaseNs_value : Fld := ⟨0x300CC, 4, 0, 30⟩
/-- TMG.GATE_CYCLE.value -/
def tmgGateCycle_value : Fld := ⟨0x300D0, 4, 0, 30⟩
/-- TMG.GATE_EXT.value -/
def tmgGateExt_value : Fld := ⟨0x300D4, 4, 0, 30⟩
/-- TMG.GATE_COUNT.value -/
def tmgGateCount_value : Fld := ⟨0x300D8, 4, 0, 9⟩
/-- TMG.GCL_ADDR.entry -/
def tmgGclAddr_entry : Fld := ⟨0x300E0, 4, 0, 8⟩
/-- TMG.GCL_ADDR.list -/
def tmgGclAddr_list : Fld := ⟨0x300E0, 4, 8, 1⟩
/-- TMG.GCL_ADDR.auto_inc -/
def tmgGclAddr_autoInc : Fld := ⟨0x300E0, 4, 31, 1⟩
/-- TMG.GCL_DATA_LO.interval -/
def tmgGclDataLo_interval : Fld := ⟨0x300E4, 4, 0, 32⟩
/-- TMG.GCL_DATA_HI.gates -/
def tmgGclDataHi_gates : Fld := ⟨0x300E8, 4, 0, 8⟩
/-- TMG.GATE_STATUS.oper_list -/
def tmgGateStatus_operList : Fld := ⟨0x300F0, 4, 0, 1⟩
/-- TMG.GATE_STATUS.oper_valid -/
def tmgGateStatus_operValid : Fld := ⟨0x300F0, 4, 1, 1⟩
/-- TMG.GATE_STATUS.pending -/
def tmgGateStatus_pending : Fld := ⟨0x300F0, 4, 2, 1⟩
/-- TMG.GATE_STATUS.pending_list -/
def tmgGateStatus_pendingList : Fld := ⟨0x300F0, 4, 3, 1⟩
/-- TMG.GATE_STATUS.late -/
def tmgGateStatus_late : Fld := ⟨0x300F0, 4, 4, 1⟩
/-- TMG.GATE_STATUS.extended -/
def tmgGateStatus_extended : Fld := ⟨0x300F0, 4, 5, 1⟩
/-- TMG.GATE_STATUS.gates_now -/
def tmgGateStatus_gatesNow : Fld := ⟨0x300F0, 4, 8, 8⟩
/-- TMG.GATE_STATUS.entry_now -/
def tmgGateStatus_entryNow : Fld := ⟨0x300F0, 4, 16, 8⟩
/-- TMG.GATE_TAKEOVER_SEC.value -/
def tmgGateTakeoverSec_value : Fld := ⟨0x300F4, 4, 0, 32⟩
/-- TMG.GATE_TAKEOVER_NS.value -/
def tmgGateTakeoverNs_value : Fld := ⟨0x300F8, 4, 0, 30⟩
/-- TMG.METER_SEL.index -/
def tmgMeterSel_index : Fld := ⟨0x30100, 4, 0, 14⟩
/-- TMG.METER_CFG.ovh -/
def tmgMeterCfg_ovh : Fld := ⟨0x30104, 4, 0, 8⟩
/-- TMG.METER_CIR.value -/
def tmgMeterCir_value : Fld := ⟨0x30108, 4, 0, 29⟩
/-- TMG.METER_CBS.value -/
def tmgMeterCbs_value : Fld := ⟨0x3010C, 4, 0, 24⟩
/-- TMG.METER_EIR.value -/
def tmgMeterEir_value : Fld := ⟨0x30110, 4, 0, 29⟩
/-- TMG.METER_EBS.value -/
def tmgMeterEbs_value : Fld := ⟨0x30114, 4, 0, 24⟩
/-- TMG.METER_OP.busy -/
def tmgMeterOp_busy : Fld := ⟨0x30118, 4, 4, 1⟩
/-- TMG.METER_OP.result -/
def tmgMeterOp_result : Fld := ⟨0x30118, 4, 5, 1⟩
/-- TMG.METER_STATE.blocked -/
def tmgMeterState_blocked : Fld := ⟨0x3011C, 4, 0, 1⟩
/-- TMG.METER_STATE.all_red -/
def tmgMeterState_allRed : Fld := ⟨0x3011C, 4, 1, 1⟩
/-- TMG.METER_STATE.wrap -/
def tmgMeterState_wrap : Fld := ⟨0x3011C, 4, 2, 4⟩
/-- TMG.METER_CTOK.tokens -/
def tmgMeterCtok_tokens : Fld := ⟨0x30120, 4, 0, 32⟩
/-- TMG.METER_ETOK.tokens -/
def tmgMeterEtok_tokens : Fld := ⟨0x30124, 4, 0, 32⟩
/-- TMG.METER_CNT_LO.count -/
def tmgMeterCntLo_count : Fld := ⟨0x30130, 8, 0, 32⟩
/-- TMG.METER_CNT_HI.count -/
def tmgMeterCntHi_count : Fld := ⟨0x30134, 8, 0, 32⟩
/-- TMG.DCNT_LO.count -/
def tmgDcntLo_count : Fld := ⟨0x31000, 8, 0, 32⟩
/-- TMG.GCNT_LO.count -/
def tmgGcntLo_count : Fld := ⟨0x31080, 8, 0, 32⟩
/-- TIM.CLK_CFG.src -/
def timClkCfg_src : Fld := ⟨0x34080, 4, 0, 1⟩
/-- TIM.CLK_CFG.revert -/
def timClkCfg_revert : Fld := ⟨0x34080, 4, 1, 1⟩
/-- TIM.STATUS.src_live -/
def timStatus_srcLive : Fld := ⟨0x34084, 4, 0, 1⟩
/-- TIM.STATUS.ref_ok -/
def timStatus_refOk : Fld := ⟨0x34084, 4, 1, 1⟩
/-- TIM.STATUS.on_backup -/
def timStatus_onBackup : Fld := ⟨0x34084, 4, 2, 1⟩
/-- TIM.STATUS.locked -/
def timStatus_locked : Fld := ⟨0x34084, 4, 3, 1⟩
/-- TIM.STATUS.holdover -/
def timStatus_holdover : Fld := ⟨0x34084, 4, 4, 1⟩
/-- TIM.STATUS.epoch -/
def timStatus_epoch : Fld := ⟨0x34084, 4, 16, 16⟩
/-- TIM.TIME_SEC_LO.value -/
def timTimeSecLo_value : Fld := ⟨0x34088, 4, 0, 32⟩
/-- TIM.TIME_SEC_HI.value -/
def timTimeSecHi_value : Fld := ⟨0x3408C, 4, 0, 32⟩
/-- TIM.TIME_NS.value -/
def timTimeNs_value : Fld := ⟨0x34090, 4, 0, 30⟩
/-- TIM.TIME_FRAC.value -/
def timTimeFrac_value : Fld := ⟨0x34094, 4, 0, 16⟩
/-- TIM.RAW_LO.value -/
def timRawLo_value : Fld := ⟨0x34098, 4, 0, 32⟩
/-- TIM.RAW_HI.value -/
def timRawHi_value : Fld := ⟨0x3409C, 4, 0, 32⟩
/-- TIM.STEP_SEC_LO.value -/
def timStepSecLo_value : Fld := ⟨0x340A0, 4, 0, 32⟩
/-- TIM.STEP_SEC_HI.value -/
def timStepSecHi_value : Fld := ⟨0x340A4, 4, 0, 16⟩
/-- TIM.STEP_NS.value -/
def timStepNs_value : Fld := ⟨0x340A8, 4, 0, 30⟩
/-- TIM.STEP_FRAC.value -/
def timStepFrac_value : Fld := ⟨0x340AC, 4, 0, 16⟩
/-- TIM.STEP_CTL.mode -/
def timStepCtl_mode : Fld := ⟨0x340B0, 4, 1, 1⟩
/-- TIM.STEP_CTL.neg -/
def timStepCtl_neg : Fld := ⟨0x340B0, 4, 2, 1⟩
/-- TIM.STEP_CTL.busy -/
def timStepCtl_busy : Fld := ⟨0x340B0, 4, 8, 1⟩
/-- TIM.RATE.rate -/
def timRate_rate : Fld := ⟨0x340B4, 4, 0, 32⟩
/-- TIM.SERVO_CFG.src -/
def timServoCfg_src : Fld := ⟨0x340B8, 4, 0, 2⟩
/-- TIM.SERVO_CFG.step_first -/
def timServoCfg_stepFirst : Fld := ⟨0x340B8, 4, 2, 1⟩
/-- TIM.SERVO_GAIN.kp -/
def timServoGain_kp : Fld := ⟨0x340BC, 4, 0, 16⟩
/-- TIM.SERVO_GAIN.ki -/
def timServoGain_ki : Fld := ⟨0x340BC, 4, 16, 16⟩
/-- TIM.SERVO_STEP.step_ns -/
def timServoStep_stepNs : Fld := ⟨0x340C0, 4, 0, 32⟩
/-- TIM.SERVO_LIMIT.max_ppm -/
def timServoLimit_maxPpm : Fld := ⟨0x340C4, 4, 0, 10⟩
/-- TIM.SERVO_LOCK.lock_ns -/
def timServoLock_lockNs : Fld := ⟨0x340C8, 4, 0, 16⟩
/-- TIM.SERVO_LOCK.lock_n -/
def timServoLock_lockN : Fld := ⟨0x340C8, 4, 16, 8⟩
/-- TIM.SERVO_LOCK.timeout_100ms -/
def timServoLock_timeout100ms : Fld := ⟨0x340C8, 4, 24, 8⟩
/-- TIM.SERVO_SAMPLE_LO.fraction -/
def timServoSampleLo_fraction : Fld := ⟨0x340CC, 4, 0, 16⟩
/-- TIM.SERVO_SAMPLE_LO.epoch -/
def timServoSampleLo_epoch : Fld := ⟨0x340CC, 4, 16, 16⟩
/-- TIM.SERVO_SAMPLE_HI.ns -/
def timServoSampleHi_ns : Fld := ⟨0x340D0, 4, 0, 32⟩
/-- TIM.SERVO_STATUS.last -/
def timServoStatus_last : Fld := ⟨0x340D4, 4, 0, 32⟩
/-- TIM.SERVO_COUNT.samples -/
def timServoCount_samples : Fld := ⟨0x340D8, 4, 0, 16⟩
/-- TIM.SERVO_COUNT.steps -/
def timServoCount_steps : Fld := ⟨0x340D8, 4, 16, 16⟩
/-- TIM.SERVO_INTEGRAL.integral -/
def timServoIntegral_integral : Fld := ⟨0x340DC, 4, 0, 32⟩
/-- TIM.PPS_OUT_CFG.width_us -/
def timPpsOutCfg_widthUs : Fld := ⟨0x340E0, 4, 0, 20⟩
/-- TIM.PPS_OUT_CFG.quiet_unlocked -/
def timPpsOutCfg_quietUnlocked : Fld := ⟨0x340E0, 4, 20, 1⟩
/-- TIM.PPS_OUT_OFFSET.offset_ns -/
def timPpsOutOffset_offsetNs : Fld := ⟨0x340E4, 4, 0, 32⟩
/-- TIM.PPS_IN_CFG.delay_ns -/
def timPpsInCfg_delayNs : Fld := ⟨0x340E8, 4, 0, 32⟩
/-- TIM.PPS_IN_TS_SEC.sec -/
def timPpsInTsSec_sec : Fld := ⟨0x340EC, 4, 0, 32⟩
/-- TIM.PPS_IN_TS_NS.ns -/
def timPpsInTsNs_ns : Fld := ⟨0x340F0, 4, 0, 30⟩
/-- TIM.PPS_IN_TS_NS.valid -/
def timPpsInTsNs_valid : Fld := ⟨0x340F0, 4, 31, 1⟩
/-- TIM.SYNCE_CFG.en -/
def timSynceCfg_en : Fld := ⟨0x34100, 4, 0, 1⟩
/-- TIM.SYNCE_CFG.port -/
def timSynceCfg_port : Fld := ⟨0x34100, 4, 1, 8⟩
/-- TIM.SYNCE_CFG.div -/
def timSynceCfg_div : Fld := ⟨0x34100, 4, 9, 2⟩
/-- TIM.TRIG_CFG.mode -/
def timTrigCfg_mode : Fld := ⟨0x35000, 4, 0, 2⟩
/-- TIM.TRIG_CFG.out_en -/
def timTrigCfg_outEn : Fld := ⟨0x35000, 4, 2, 1⟩
/-- TIM.TRIG_CFG.pol -/
def timTrigCfg_pol : Fld := ⟨0x35000, 4, 3, 1⟩
/-- TIM.TRIG_START_SEC_LO.value -/
def timTrigStartSecLo_value : Fld := ⟨0x35004, 4, 0, 32⟩
/-- TIM.TRIG_START_SEC_HI.value -/
def timTrigStartSecHi_value : Fld := ⟨0x35008, 4, 0, 16⟩
/-- TIM.TRIG_START_NS.value -/
def timTrigStartNs_value : Fld := ⟨0x3500C, 4, 0, 30⟩
/-- TIM.TRIG_PERIOD_NS.value -/
def timTrigPeriodNs_value : Fld := ⟨0x35010, 4, 0, 32⟩
/-- TIM.TRIG_PERIOD_FRAC.num -/
def timTrigPeriodFrac_num : Fld := ⟨0x35014, 4, 0, 16⟩
/-- TIM.TRIG_PERIOD_FRAC.den -/
def timTrigPeriodFrac_den : Fld := ⟨0x35014, 4, 16, 16⟩
/-- TIM.TRIG_WIDTH_NS.value -/
def timTrigWidthNs_value : Fld := ⟨0x35018, 4, 0, 30⟩
/-- TIM.TRIG_CTL.armed -/
def timTrigCtl_armed : Fld := ⟨0x3501C, 4, 8, 1⟩
/-- TIM.TRIG_CTL.fired -/
def timTrigCtl_fired : Fld := ⟨0x3501C, 4, 9, 1⟩
/-- TIM.TRIG_CTL.late -/
def timTrigCtl_late : Fld := ⟨0x3501C, 4, 10, 1⟩
/-- TIM.TRIG_CTL.refused -/
def timTrigCtl_refused : Fld := ⟨0x3501C, 4, 11, 1⟩
/-- TIM.TRIG_CTL.skipped -/
def timTrigCtl_skipped : Fld := ⟨0x3501C, 4, 16, 16⟩
/-- TIM.TRIG_EDGES.edges -/
def timTrigEdges_edges : Fld := ⟨0x35020, 4, 0, 32⟩
/-- TIM.CAPT_CFG.edge -/
def timCaptCfg_edge : Fld := ⟨0x35040, 4, 0, 2⟩
/-- TIM.CAPT_CFG.dead_us -/
def timCaptCfg_deadUs : Fld := ⟨0x35040, 4, 2, 16⟩
/-- TIM.CAPT_CFG.stuck_ms -/
def timCaptCfg_stuckMs : Fld := ⟨0x35040, 4, 18, 14⟩
/-- TIM.CAPT_SEC_LO.value -/
def timCaptSecLo_value : Fld := ⟨0x35044, 4, 0, 32⟩
/-- TIM.CAPT_SEC_HI.value -/
def timCaptSecHi_value : Fld := ⟨0x35048, 4, 0, 32⟩
/-- TIM.CAPT_NS.value -/
def timCaptNs_value : Fld := ⟨0x3504C, 4, 0, 30⟩
/-- TIM.CAPT_INFO.value -/
def timCaptInfo_value : Fld := ⟨0x35050, 4, 0, 32⟩
/-- TIM.CAPT_STATUS.level -/
def timCaptStatus_level : Fld := ⟨0x35054, 4, 0, 1⟩
/-- TIM.CAPT_STATUS.stuck -/
def timCaptStatus_stuck : Fld := ⟨0x35054, 4, 1, 1⟩
/-- TIM.CAPT_STATUS.overflow -/
def timCaptStatus_overflow : Fld := ⟨0x35054, 4, 2, 1⟩
/-- TIM.CAPT_STATUS.fill -/
def timCaptStatus_fill : Fld := ⟨0x35054, 4, 3, 7⟩
/-- TIM.CAPT_STATUS.lost -/
def timCaptStatus_lost : Fld := ⟨0x35054, 4, 16, 16⟩
/-- TIM.CAPT_DEAD.ignored -/
def timCaptDead_ignored : Fld := ⟨0x35058, 4, 0, 32⟩
/-- TSU.TS_CFG.tc_mode -/
def tsuTsCfg_tcMode : Fld := ⟨0x36080, 4, 0, 2⟩
/-- TSU.TS_CFG.asym_en -/
def tsuTsCfg_asymEn : Fld := ⟨0x36080, 4, 2, 1⟩
/-- TSU.TS_CFG.host_one_step -/
def tsuTsCfg_hostOneStep : Fld := ⟨0x36080, 4, 3, 1⟩
/-- TSU.TS_CFG.host_capture -/
def tsuTsCfg_hostCapture : Fld := ⟨0x36080, 4, 4, 1⟩
/-- TSU.ASYM_LO.frac -/
def tsuAsymLo_frac : Fld := ⟨0x36084, 4, 0, 16⟩
/-- TSU.ASYM_HI.value -/
def tsuAsymHi_value : Fld := ⟨0x36088, 4, 0, 32⟩
/-- TSU.LINK_DELAY_LO.frac -/
def tsuLinkDelayLo_frac : Fld := ⟨0x3608C, 4, 0, 16⟩
/-- TSU.LINK_DELAY_HI.value -/
def tsuLinkDelayHi_value : Fld := ⟨0x36090, 4, 0, 32⟩
/-- TSU.TX_SEC_LO.value -/
def tsuTxSecLo_value : Fld := ⟨0x36094, 4, 0, 32⟩
/-- TSU.TX_SEC_HI.value -/
def tsuTxSecHi_value : Fld := ⟨0x36098, 4, 0, 32⟩
/-- TSU.TX_NS.value -/
def tsuTxNs_value : Fld := ⟨0x3609C, 4, 0, 30⟩
/-- TSU.TX_INFO.value -/
def tsuTxInfo_value : Fld := ⟨0x360A0, 4, 0, 32⟩
/-- TSU.TX_ID.value -/
def tsuTxId_value : Fld := ⟨0x360A4, 4, 0, 32⟩
/-- TSU.CNT_LO.count -/
def tsuCntLo_count : Fld := ⟨0x360C0, 8, 0, 32⟩
/-- TIE.MESH_CFG.mesh_id -/
def tieMeshCfg_meshId : Fld := ⟨0x10080, 4, 0, 16⟩
/-- TIE.MESH_CFG.unreachable -/
def tieMeshCfg_unreachable : Fld := ⟨0x10080, 4, 16, 2⟩
/-- TIE.MESH_CFG.fwd_window_ms -/
def tieMeshCfg_fwdWindowMs : Fld := ⟨0x10080, 4, 24, 8⟩
/-- TIE.LINK_CFG.credit_cells -/
def tieLinkCfg_creditCells : Fld := ⟨0x10084, 4, 0, 12⟩
/-- TIE.LINK_CFG.tt_period_ms -/
def tieLinkCfg_ttPeriodMs : Fld := ⟨0x10084, 4, 16, 10⟩
/-- TIE.SYSVER_CFG.lead_us -/
def tieSysverCfg_leadUs : Fld := ⟨0x10088, 4, 0, 16⟩
/-- TIE.MESH_STATUS.role_live -/
def tieMeshStatus_roleLive : Fld := ⟨0x1008C, 4, 0, 2⟩
/-- TIE.MESH_STATUS.manager_id -/
def tieMeshStatus_managerId : Fld := ⟨0x1008C, 4, 2, 3⟩
/-- TIE.MESH_STATUS.manager_present -/
def tieMeshStatus_managerPresent : Fld := ⟨0x1008C, 4, 5, 1⟩
/-- TIE.MESH_STATUS.joined -/
def tieMeshStatus_joined : Fld := ⟨0x1008C, 4, 6, 1⟩
/-- TIE.MESH_STATUS.members -/
def tieMeshStatus_members : Fld := ⟨0x1008C, 4, 8, 8⟩
/-- TIE.MESH_STATUS.absent -/
def tieMeshStatus_absent : Fld := ⟨0x1008C, 4, 16, 8⟩
/-- TIE.MGR_EPOCH.epoch -/
def tieMgrEpoch_epoch : Fld := ⟨0x10090, 4, 0, 32⟩
/-- TIE.OWN_SEL.entry -/
def tieOwnSel_entry : Fld := ⟨0x10094, 4, 0, 12⟩
/-- TIE.OWN_ENTRY.owner -/
def tieOwnEntry_owner : Fld := ⟨0x10098, 4, 0, 3⟩
/-- TIE.OWN_MOVE.entry -/
def tieOwnMove_entry : Fld := ⟨0x1009C, 4, 0, 12⟩
/-- TIE.OWN_MOVE.device -/
def tieOwnMove_device : Fld := ⟨0x1009C, 4, 12, 3⟩
/-- TIE.OWN_MOVE.busy -/
def tieOwnMove_busy : Fld := ⟨0x1009C, 4, 17, 1⟩
/-- TIE.OWN_MOVE.result -/
def tieOwnMove_result : Fld := ⟨0x1009C, 4, 18, 3⟩
/-- TIE.SYS_STATUS.phase -/
def tieSysStatus_phase : Fld := ⟨0x100A0, 4, 0, 2⟩
/-- TIE.SYS_STATUS.device -/
def tieSysStatus_device : Fld := ⟨0x100A0, 4, 2, 3⟩
/-- TIE.SYS_STATUS.valid -/
def tieSysStatus_valid : Fld := ⟨0x100A0, 4, 5, 1⟩
/-- TIE.SYS_STATUS.code -/
def tieSysStatus_code : Fld := ⟨0x100A0, 4, 8, 4⟩
/-- TIE.LINK_STATUS.state -/
def tieLinkStatus_state : Fld := ⟨0x100C0, 4, 0, 3⟩
/-- TIE.LINK_STATUS.refuse -/
def tieLinkStatus_refuse : Fld := ⟨0x100C0, 4, 8, 4⟩
/-- TIE.LINK_STATUS.peer_id -/
def tieLinkStatus_peerId : Fld := ⟨0x100C0, 4, 16, 3⟩
/-- TIE.LINK_STATUS.peer_role -/
def tieLinkStatus_peerRole : Fld := ⟨0x100C0, 4, 19, 2⟩
/-- TIE.LINK_STATUS.missed -/
def tieLinkStatus_missed : Fld := ⟨0x100C0, 4, 21, 2⟩
/-- TIE.LINK_CREDITS.tx_credits -/
def tieLinkCredits_txCredits : Fld := ⟨0x100C4, 4, 0, 16⟩
/-- TIE.LINK_CREDITS.rx_granted -/
def tieLinkCredits_rxGranted : Fld := ⟨0x100C4, 4, 16, 16⟩
/-- TIE.LINK_DELAY_LO.value -/
def tieLinkDelayLo_value : Fld := ⟨0x100C8, 4, 0, 16⟩
/-- TIE.LINK_DELAY_HI.value -/
def tieLinkDelayHi_value : Fld := ⟨0x100CC, 4, 0, 32⟩
/-- TIE.CNT_LO.count -/
def tieCntLo_count : Fld := ⟨0x11000, 8, 0, 32⟩
/-- TIE.GCNT_LO.count -/
def tieGcntLo_count : Fld := ⟨0x11080, 8, 0, 32⟩
/-- RST.RESET_CAUSE.reset_cause -/
def rstResetCause_resetCause : Fld := ⟨0x06080, 4, 0, 4⟩
/-- RST.RESET_CAUSE.warm_ignored -/
def rstResetCause_warmIgnored : Fld := ⟨0x06080, 4, 16, 8⟩
/-- RST.WARM_CTL.go -/
def rstWarmCtl_go : Fld := ⟨0x06084, 4, 0, 1⟩
/-- RST.WARM_CTL.busy -/
def rstWarmCtl_busy : Fld := ⟨0x06084, 4, 16, 1⟩
/-- RST.COUNTS.warm_resets -/
def rstCounts_warmResets : Fld := ⟨0x06088, 4, 0, 16⟩
/-- RST.COUNTS.block_resets -/
def rstCounts_blockResets : Fld := ⟨0x06088, 4, 16, 16⟩
/-- RST.LAST_BLOCK_RESET.block_code -/
def rstLastBlockReset_blockCode : Fld := ⟨0x0608C, 4, 0, 8⟩
/-- RST.LAST_BLOCK_RESET.channel -/
def rstLastBlockReset_channel : Fld := ⟨0x0608C, 4, 8, 10⟩
/-- RST.LAST_BLOCK_RESET.whole -/
def rstLastBlockReset_whole : Fld := ⟨0x0608C, 4, 18, 1⟩
/-- RST.LAST_BLOCK_RESET.immediate -/
def rstLastBlockReset_immediate : Fld := ⟨0x0608C, 4, 19, 1⟩
/-- RST.LAST_BLOCK_RESET.window -/
def rstLastBlockReset_window : Fld := ⟨0x0608C, 4, 20, 1⟩
/-- RST.LAST_BLOCK_RESET.auto -/
def rstLastBlockReset_auto : Fld := ⟨0x0608C, 4, 21, 1⟩
/-- RST.LAST_BLOCK_RESET.valid -/
def rstLastBlockReset_valid : Fld := ⟨0x0608C, 4, 31, 1⟩
/-- SCR.STORE_SEL.store -/
def scrStoreSel_store : Fld := ⟨0x3E080, 4, 0, 4⟩
/-- SCR.SCRUB_STATUS.passes -/
def scrScrubStatus_passes : Fld := ⟨0x3E084, 4, 0, 16⟩
/-- SCR.SCRUB_STATUS.last_pass_ms -/
def scrScrubStatus_lastPassMs : Fld := ⟨0x3E084, 4, 16, 16⟩
/-- SCR.ECC_CORR.count -/
def scrEccCorr_count : Fld := ⟨0x3E088, 4, 0, 32⟩
/-- SCR.ECC_UNCORR.count -/
def scrEccUncorr_count : Fld := ⟨0x3E08C, 4, 0, 32⟩
/-- SCR.ERR_LOG_LO.addr -/
def scrErrLogLo_addr : Fld := ⟨0x3E090, 4, 0, 32⟩
/-- SCR.ERR_LOG_HI.addr_hi -/
def scrErrLogHi_addrHi : Fld := ⟨0x3E094, 4, 0, 4⟩
/-- SCR.ERR_LOG_HI.store -/
def scrErrLogHi_store : Fld := ⟨0x3E094, 4, 4, 4⟩
/-- SCR.ERR_LOG_HI.allocated -/
def scrErrLogHi_allocated : Fld := ⟨0x3E094, 4, 8, 1⟩
/-- SCR.ERR_LOG_HI.valid -/
def scrErrLogHi_valid : Fld := ⟨0x3E094, 4, 31, 1⟩
/-- SCR.RECOVER_LO.enable -/
def scrRecoverLo_enable : Fld := ⟨0x3E098, 4, 0, 32⟩
/-- SCR.RECOVER_HI.enable -/
def scrRecoverHi_enable : Fld := ⟨0x3E09C, 4, 0, 32⟩
/-- SCR.RECOVER_COUNT.recovered -/
def scrRecoverCount_recovered : Fld := ⟨0x3E0A0, 4, 0, 16⟩
/-- SCR.RECOVER_COUNT.failed -/
def scrRecoverCount_failed : Fld := ⟨0x3E0A0, 4, 16, 16⟩
/-- SCR.RETIRED.count -/
def scrRetired_count : Fld := ⟨0x3E0B0, 4, 0, 9⟩
/-- HMK.STATUS.state -/
def hmkStatus_state : Fld := ⟨0x02080, 4, 0, 2⟩
/-- HMK.STATUS.boot_slot -/
def hmkStatus_bootSlot : Fld := ⟨0x02080, 4, 2, 1⟩
/-- HMK.STATUS.host_image -/
def hmkStatus_hostImage : Fld := ⟨0x02080, 4, 3, 1⟩
/-- HMK.STATUS.fallback -/
def hmkStatus_fallback : Fld := ⟨0x02080, 4, 4, 1⟩
/-- HMK.BOOT_REASON.slot_a -/
def hmkBootReason_slotA : Fld := ⟨0x02084, 4, 0, 8⟩
/-- HMK.BOOT_REASON.slot_b -/
def hmkBootReason_slotB : Fld := ⟨0x02084, 4, 8, 8⟩
/-- HMK.UID_LO.uid -/
def hmkUidLo_uid : Fld := ⟨0x02088, 4, 0, 32⟩
/-- HMK.UID_HI.uid -/
def hmkUidHi_uid : Fld := ⟨0x0208C, 4, 0, 32⟩
/-- HMK.BENCH_IMAGE.version -/
def hmkBenchImage_version : Fld := ⟨0x02090, 4, 0, 32⟩
/-- HMK.BENCH_ROLLBACK.rollback -/
def hmkBenchRollback_rollback : Fld := ⟨0x02094, 4, 0, 7⟩
/-- HMK.BENCH_ROLLBACK.signer -/
def hmkBenchRollback_signer : Fld := ⟨0x02094, 4, 7, 1⟩
/-- HMK.BENCH_ROLLBACK.area -/
def hmkBenchRollback_area : Fld := ⟨0x02094, 4, 8, 1⟩
/-- HMK.VENDOR_HASH.hash -/
def hmkVendorHash_hash : Fld := ⟨0x020A0, 4, 0, 32⟩
/-- HMK.OWNER_HASH.hash -/
def hmkOwnerHash_hash : Fld := ⟨0x020D0, 4, 0, 32⟩
/-- HMK.COUNTS.refused -/
def hmkCounts_refused : Fld := ⟨0x02130, 4, 0, 16⟩
/-- HMK.COUNTS.fuse_ops -/
def hmkCounts_fuseOps : Fld := ⟨0x02130, 4, 16, 16⟩
/-- BNC.STATUS.state -/
def bncStatus_state : Fld := ⟨0x03080, 4, 0, 3⟩
/-- BNC.STATUS.active_pair -/
def bncStatus_activePair : Fld := ⟨0x03080, 4, 3, 1⟩
/-- BNC.STATUS.vault_format -/
def bncStatus_vaultFormat : Fld := ⟨0x03080, 4, 8, 8⟩
/-- BNC.STATUS.unclean -/
def bncStatus_unclean : Fld := ⟨0x03080, 4, 16, 1⟩
/-- BNC.HANDOVER.last_ms -/
def bncHandover_lastMs : Fld := ⟨0x03084, 4, 0, 16⟩
/-- BNC.HANDOVER.result -/
def bncHandover_result : Fld := ⟨0x03084, 4, 16, 4⟩
/-- BNC.HANDOVER.count -/
def bncHandover_count : Fld := ⟨0x03084, 4, 24, 8⟩
/-- BNC.WDOG_CFG.timeout_ms -/
def bncWdogCfg_timeoutMs : Fld := ⟨0x03088, 4, 0, 14⟩
/-- BNC.WDOG_KICK.key -/
def bncWdogKick_key : Fld := ⟨0x0308C, 4, 0, 16⟩
/-- BNC.QUEUE_MAP_LO.map -/
def bncQueueMapLo_map : Fld := ⟨0x03090, 4, 0, 32⟩
/-- BNC.QUEUE_MAP_HI.map -/
def bncQueueMapHi_map : Fld := ⟨0x03094, 4, 0, 32⟩
/-- BNC.QUEUE_CFG.rate_k -/
def bncQueueCfg_rateK : Fld := ⟨0x03098, 4, 0, 7⟩
/-- BNC.QUEUE_SEL.queue -/
def bncQueueSel_queue : Fld := ⟨0x0309C, 4, 0, 6⟩
/-- BNC.QUEUE_STATUS.depth -/
def bncQueueStatus_depth : Fld := ⟨0x030A0, 4, 0, 13⟩
/-- HIF.MBOX_BASE_LO.addr -/
def hifMboxBaseLo_addr : Fld := ⟨0x3C100, 32, 0, 32⟩
/-- HIF.MBOX_BASE_HI.addr -/
def hifMboxBaseHi_addr : Fld := ⟨0x3C104, 32, 0, 32⟩
/-- HIF.MBOX_CFG.log2_entries -/
def hifMboxCfg_log2Entries : Fld := ⟨0x3C108, 32, 0, 4⟩
/-- HIF.MBOX_CFG.enable -/
def hifMboxCfg_enable : Fld := ⟨0x3C108, 32, 4, 1⟩
/-- HIF.MBOX_PROD.index -/
def hifMboxProd_index : Fld := ⟨0x3C10C, 32, 0, 11⟩
/-- HIF.MBOX_CONS.index -/
def hifMboxCons_index : Fld := ⟨0x3C110, 32, 0, 11⟩
/-- HIF.MBOX_STATUS.served -/
def hifMboxStatus_served : Fld := ⟨0x3C114, 32, 0, 1⟩
/-- HIF.MBOX_STATUS.error -/
def hifMboxStatus_error : Fld := ⟨0x3C114, 32, 2, 1⟩
/-- TMK.STATE.power_cycle -/
def tmkState_powerCycle : Fld := ⟨0x38080, 4, 0, 24⟩
/-- TMK.OP_TIME_LO.op_time -/
def tmkOpTimeLo_opTime : Fld := ⟨0x38084, 4, 0, 32⟩
/-- TMK.SEQ_NEXT.sequence -/
def tmkSeqNext_sequence : Fld := ⟨0x3808C, 4, 0, 32⟩
/-- TMK.FLUSH_SEQ.sequence -/
def tmkFlushSeq_sequence : Fld := ⟨0x38090, 4, 0, 32⟩
/-- TMK.LIMIT_CFG.code_burst -/
def tmkLimitCfg_codeBurst : Fld := ⟨0x38094, 4, 0, 8⟩
/-- TMK.LIMIT_CFG.code_period_100ms -/
def tmkLimitCfg_codePeriod100ms : Fld := ⟨0x38094, 4, 8, 8⟩
/-- TMK.LIMIT_CFG.shared_burst -/
def tmkLimitCfg_sharedBurst : Fld := ⟨0x38094, 4, 16, 8⟩
/-- TMK.LIMIT_CFG.shared_period_10ms -/
def tmkLimitCfg_sharedPeriod10ms : Fld := ⟨0x38094, 4, 24, 8⟩
/-- TMK.CHECKPOINT.checkpoint_min -/
def tmkCheckpoint_checkpointMin : Fld := ⟨0x38098, 4, 0, 8⟩
/-- TMK.TOKENS.global -/
def tmkTokens_global : Fld := ⟨0x3809C, 4, 0, 9⟩
/-- TMK.RING_ADDR.word -/
def tmkRingAddr_word : Fld := ⟨0x380A0, 4, 0, 16⟩
/-- TMK.RING_ADDR.auto_inc -/
def tmkRingAddr_autoInc : Fld := ⟨0x380A0, 4, 31, 1⟩
/-- TMK.RING_DATA.data -/
def tmkRingData_data : Fld := ⟨0x380A4, 4, 0, 32⟩
/-- TMK.WR_HDR.code -/
def tmkWrHdr_code : Fld := ⟨0x380A8, 4, 0, 16⟩
/-- TMK.WR_HDR.severity -/
def tmkWrHdr_severity : Fld := ⟨0x380A8, 4, 16, 3⟩
/-- TMK.WR_HDR.block -/
def tmkWrHdr_block : Fld := ⟨0x380A8, 4, 24, 8⟩
/-- TMK.WR_CHAN.channel -/
def tmkWrChan_channel : Fld := ⟨0x380AC, 4, 0, 10⟩
/-- TMK.WR_CHAN.whole -/
def tmkWrChan_whole : Fld := ⟨0x380AC, 4, 10, 1⟩
/-- TMK.WR_PAYLOAD.payload -/
def tmkWrPayload_payload : Fld := ⟨0x380B0, 4, 0, 32⟩
/-- TMK.WR_CTL.result -/
def tmkWrCtl_result : Fld := ⟨0x380C0, 4, 2, 2⟩
/-- TMK.STAT.count -/
def tmkStat_count : Fld := ⟨0x380C4, 4, 0, 32⟩
/-- TMK.STAT_CLEAR.clear -/
def tmkStatClear_clear : Fld := ⟨0x380D8, 4, 0, 5⟩
/-- TMK.FLASH_REPORT.bad -/
def tmkFlashReport_bad : Fld := ⟨0x380E0, 4, 8, 1⟩
/-- TMK.FLASH_REPORT.bad_sectors -/
def tmkFlashReport_badSectors : Fld := ⟨0x380E0, 4, 16, 9⟩
/-- TMK.MESH_ADDR.word -/
def tmkMeshAddr_word : Fld := ⟨0x380F0, 4, 0, 16⟩
/-- TMK.MESH_ADDR.auto_inc -/
def tmkMeshAddr_autoInc : Fld := ⟨0x380F0, 4, 31, 1⟩
/-- TMK.MESH_DATA.data -/
def tmkMeshData_data : Fld := ⟨0x380F4, 4, 0, 32⟩
/-- TMK.MESH_HEAD.arrivals -/
def tmkMeshHead_arrivals : Fld := ⟨0x380F8, 4, 0, 32⟩
/-- TMK.REC_EN.enable -/
def tmkRecEn_enable : Fld := ⟨0x38200, 4, 0, 32⟩
/-- PCN.CNT_SEL.counter -/
def pcnCntSel_counter : Fld := ⟨0x39080, 4, 0, 11⟩
/-- PCN.CNT_SEL.frozen -/
def pcnCntSel_frozen : Fld := ⟨0x39080, 4, 15, 1⟩
/-- PCN.CNT_CFG.mode -/
def pcnCntCfg_mode : Fld := ⟨0x39084, 4, 0, 3⟩
/-- PCN.CNT_CFG.src -/
def pcnCntCfg_src : Fld := ⟨0x39084, 4, 4, 16⟩
/-- PCN.CNT_LO.count -/
def pcnCntLo_count : Fld := ⟨0x39088, 4, 0, 32⟩
/-- PCN.CNT_STATUS.wrap -/
def pcnCntStatus_wrap : Fld := ⟨0x39090, 4, 0, 1⟩
/-- PCN.SET_LO.value -/
def pcnSetLo_value : Fld := ⟨0x39094, 4, 0, 32⟩
/-- PCN.SET_HI.value -/
def pcnSetHi_value : Fld := ⟨0x39098, 4, 0, 32⟩
/-- PCN.CNT_CTL.set -/
def pcnCntCtl_set : Fld := ⟨0x3909C, 4, 0, 1⟩
/-- PCN.FREEZE.go -/
def pcnFreeze_go : Fld := ⟨0x390A0, 4, 0, 1⟩
/-- PCN.HIST_SEL.hist -/
def pcnHistSel_hist : Fld := ⟨0x3A000, 4, 0, 6⟩
/-- PCN.HIST_SEL.bin -/
def pcnHistSel_bin : Fld := ⟨0x3A000, 4, 8, 6⟩
/-- PCN.HIST_CFG.source -/
def pcnHistCfg_source : Fld := ⟨0x3A004, 4, 0, 3⟩
/-- PCN.HIST_CFG.shift -/
def pcnHistCfg_shift : Fld := ⟨0x3A004, 4, 4, 4⟩
/-- PCN.HIST_CFG.sel -/
def pcnHistCfg_sel : Fld := ⟨0x3A004, 4, 16, 9⟩
/-- PCN.HIST_SNAP.snap -/
def pcnHistSnap_snap : Fld := ⟨0x3A008, 4, 0, 1⟩
/-- PCN.HIST_BIN_LO.value -/
def pcnHistBinLo_value : Fld := ⟨0x3A00C, 4, 0, 32⟩
/-- PCN.HIST_BIN_HI.value -/
def pcnHistBinHi_value : Fld := ⟨0x3A010, 4, 0, 32⟩
/-- PCN.HIST_SUM_LO.value -/
def pcnHistSumLo_value : Fld := ⟨0x3A014, 4, 0, 32⟩
/-- PCN.HIST_SUM_HI.value -/
def pcnHistSumHi_value : Fld := ⟨0x3A018, 4, 0, 32⟩
/-- PCN.HIST_MAX.value -/
def pcnHistMax_value : Fld := ⟨0x3A01C, 4, 0, 32⟩
/-- PCN.HIST_STATUS.wrap -/
def pcnHistStatus_wrap : Fld := ⟨0x3A020, 4, 0, 1⟩
/-- MIO.GPIO_IN.level -/
def mioGpioIn_level : Fld := ⟨0x3D088, 4, 0, 32⟩
/-- MIO.GPIO_EDGE.edge -/
def mioGpioEdge_edge : Fld := ⟨0x3D08C, 4, 0, 32⟩
/-- MIO.GPIO_EDGE_EN.enable -/
def mioGpioEdgeEn_enable : Fld := ⟨0x3D090, 4, 0, 32⟩
/-- MIO.QSPI_CFG.clk -/
def mioQspiCfg_clk : Fld := ⟨0x3D0A0, 4, 0, 2⟩
/-- MIO.UART_CFG.baud -/
def mioUartCfg_baud : Fld := ⟨0x3D0A4, 4, 0, 22⟩
/-- MIO.I2C_CMD.addr -/
def mioI2cCmd_addr : Fld := ⟨0x3D0B4, 16, 0, 7⟩
/-- MIO.I2C_CMD.read -/
def mioI2cCmd_read : Fld := ⟨0x3D0B4, 16, 7, 1⟩
/-- MIO.I2C_CMD.len -/
def mioI2cCmd_len : Fld := ⟨0x3D0B4, 16, 8, 3⟩
/-- MIO.I2C_CMD.busy -/
def mioI2cCmd_busy : Fld := ⟨0x3D0B4, 16, 17, 1⟩
/-- MIO.I2C_CMD.result -/
def mioI2cCmd_result : Fld := ⟨0x3D0B4, 16, 18, 2⟩
/-- MIO.I2C_DATA.data -/
def mioI2cData_data : Fld := ⟨0x3D0B8, 16, 0, 32⟩
/-- MIO.MDIO_CFG.mdc -/
def mioMdioCfg_mdc : Fld := ⟨0x3D0D0, 4, 0, 2⟩
/-- MIO.MDIO_CMD.phy -/
def mioMdioCmd_phy : Fld := ⟨0x3D0D4, 4, 0, 5⟩
/-- MIO.MDIO_CMD.reg -/
def mioMdioCmd_reg : Fld := ⟨0x3D0D4, 4, 5, 5⟩
/-- MIO.MDIO_CMD.op -/
def mioMdioCmd_op : Fld := ⟨0x3D0D4, 4, 10, 2⟩
/-- MIO.MDIO_CMD.c45 -/
def mioMdioCmd_c45 : Fld := ⟨0x3D0D4, 4, 12, 1⟩
/-- MIO.MDIO_CMD.busy -/
def mioMdioCmd_busy : Fld := ⟨0x3D0D4, 4, 17, 1⟩
/-- MIO.MDIO_CMD.error -/
def mioMdioCmd_error : Fld := ⟨0x3D0D4, 4, 18, 1⟩
/-- MIO.MDIO_DATA.data -/
def mioMdioData_data : Fld := ⟨0x3D0D8, 4, 0, 16⟩
/-- MIO.TEMP.temp_c -/
def mioTemp_tempC : Fld := ⟨0x3D100, 4, 0, 9⟩
/-- MIO.TEMP_MAX.temp_c -/
def mioTempMax_tempC : Fld := ⟨0x3D120, 4, 0, 9⟩
/-- MIO.TEMP_MAX.sensor -/
def mioTempMax_sensor : Fld := ⟨0x3D120, 4, 9, 3⟩
/-- MIO.TEMP_MAX.peak_c -/
def mioTempMax_peakC : Fld := ⟨0x3D120, 4, 16, 9⟩
/-- MIO.THERM_CFG.high_c -/
def mioThermCfg_highC : Fld := ⟨0x3D124, 4, 0, 8⟩
/-- MIO.THERM_CFG.critical_c -/
def mioThermCfg_criticalC : Fld := ⟨0x3D124, 4, 8, 8⟩

end Sys2Proof.Machine
end

