-- ==== Sys2Proof/Machine/RegTable.lean ====
section
/-! DEFINITION. The register map of the spec (chapters 02 to 21, the register tables) as data: for every register its
window offset, how many copies lie at which stride, whether it is global, one per channel, one per window or one per
selection, and its fields with their access codes (R7) and reset values (R9). The common header of R114 is not listed
here: `Registers.lean` treats it. -/

namespace Sys2Proof.Machine

/-- The access codes of R7. -/
inductive Acc where
  | rw | ro | w1c | w1s | wo | rs | rl | rws
  deriving DecidableEq, Repr

/-- How many copies of a register there are: one, one per channel, one per window, or one per value of a selector. -/
inductive Scope where
  | glob | chan | win | sel
  deriving DecidableEq, Repr

/-- One field: lowest bit, width, access code, reset value. -/
structure FieldSpec where
  lo : Nat
  width : Nat
  acc : Acc
  reset : Nat
  deriving DecidableEq, Repr

/-- One register or array of registers; `off` is the offset in a window (page × 0x1000 + offset in the page). -/
structure RegSpec where
  off : Nat
  count : Nat
  stride : Nat
  scope : Scope
  fields : List FieldSpec
  deriving DecidableEq, Repr

/-- The registers of block SYS. -/
def regsSys : List RegSpec :=
  [⟨0x00090, 1, 4, .glob, [⟨0, 2, .ro, 0⟩, ⟨2, 3, .ro, 0⟩, ⟨5, 2, .ro, 0⟩, ⟨8, 2, .ro, 0⟩, ⟨10, 3, .ro, 0⟩, ⟨13, 2, .ro, 0⟩, ⟨16, 1, .w1c, 0⟩, ⟨17, 1, .ro, 0⟩]⟩ /- SYS.STRAP_SAMPLE -/,
   ⟨0x00080, 1, 4, .glob, [⟨0, 16, .ro, 0⟩, ⟨16, 8, .ro, 0xa0⟩]⟩ /- SYS.PART_ID -/,
   ⟨0x00084, 1, 4, .glob, [⟨0, 32, .ro, 0⟩]⟩ /- SYS.PRESENT_GROUPS -/,
   ⟨0x00088, 1, 4, .glob, [⟨0, 8, .ro, 0⟩, ⟨8, 4, .ro, 0⟩]⟩ /- SYS.PRESENT_OTHER -/]

/-- The registers of block EVT. -/
def regsEvt : List RegSpec :=
  [⟨0x01080, 1, 4, .win, [⟨0, 11, .rw, 0⟩]⟩ /- EVT.SUPP_SEL -/,
   ⟨0x01084, 1, 4, .glob, [⟨0, 16, .ro, 0⟩, ⟨31, 1, .wo, 0⟩]⟩ /- EVT.SUPP_COUNT -/,
   ⟨0x01088, 1, 4, .glob, [⟨0, 6, .wo, 0⟩]⟩ /- EVT.VEC_REARM -/,
   ⟨0x0108C, 1, 4, .glob, [⟨0, 18, .ro, 0⟩, ⟨18, 1, .ro, 0⟩, ⟨19, 1, .ro, 0⟩, ⟨31, 1, .w1c, 0⟩]⟩ /- EVT.ACCESS_LOG -/,
   ⟨0x01090, 1, 4, .glob, [⟨0, 8, .ro, 0⟩, ⟨8, 10, .ro, 0⟩, ⟨18, 1, .ro, 0⟩, ⟨19, 1, .ro, 0⟩, ⟨31, 1, .w1c, 0⟩]⟩ /- EVT.FAULT_LOG -/,
   ⟨0x01094, 1, 4, .glob, [⟨0, 32, .ro, 0⟩]⟩ /- EVT.VEC_ACTIVE_LO -/,
   ⟨0x01098, 1, 4, .glob, [⟨0, 32, .ro, 0⟩]⟩ /- EVT.VEC_ACTIVE_HI -/,
   ⟨0x010A0, 1, 4, .glob, [⟨0, 32, .ro, 0⟩]⟩ /- EVT.SUMMARY_LO -/,
   ⟨0x010A4, 1, 4, .glob, [⟨0, 16, .ro, 0⟩]⟩ /- EVT.SUMMARY_HI -/,
   ⟨0x01100, 48, 4, .glob, [⟨0, 6, .rw, 0⟩, ⟨6, 1, .rw, 1⟩, ⟨8, 5, .rw, 0⟩, ⟨13, 1, .rw, 1⟩, ⟨14, 1, .rw, 1⟩]⟩ /- EVT.ROUTE -/,
   ⟨0x01200, 48, 4, .glob, [⟨0, 32, .w1c, 0⟩]⟩ /- EVT.AUTO_MASK -/]

/-- The registers of block HMK. -/
def regsHmk : List RegSpec :=
  [⟨0x02080, 1, 4, .glob, [⟨0, 2, .ro, 0⟩, ⟨2, 1, .ro, 0⟩, ⟨3, 1, .ro, 0⟩, ⟨4, 1, .ro, 0⟩, ⟨8, 2, .ro, 0⟩, ⟨16, 7, .ro, 0⟩]⟩ /- HMK.STATUS -/,
   ⟨0x02084, 1, 4, .glob, [⟨0, 8, .ro, 0⟩, ⟨8, 8, .ro, 0⟩]⟩ /- HMK.BOOT_REASON -/,
   ⟨0x02088, 1, 4, .glob, [⟨0, 32, .ro, 0⟩]⟩ /- HMK.UID_LO -/,
   ⟨0x0208C, 1, 4, .glob, [⟨0, 32, .ro, 0⟩]⟩ /- HMK.UID_HI -/,
   ⟨0x02090, 1, 4, .glob, [⟨0, 32, .ro, 0⟩]⟩ /- HMK.BENCH_IMAGE -/,
   ⟨0x02094, 1, 4, .glob, [⟨0, 7, .ro, 0⟩, ⟨7, 1, .ro, 0⟩, ⟨8, 1, .ro, 0⟩]⟩ /- HMK.BENCH_ROLLBACK -/,
   ⟨0x020A0, 12, 4, .glob, [⟨0, 32, .ro, 0⟩]⟩ /- HMK.VENDOR_HASH -/,
   ⟨0x020D0, 12, 4, .glob, [⟨0, 32, .ro, 0⟩]⟩ /- HMK.OWNER_HASH -/,
   ⟨0x02130, 1, 4, .glob, [⟨0, 16, .ro, 0⟩, ⟨16, 16, .ro, 0⟩]⟩ /- HMK.COUNTS -/]

/-- The registers of block BNC. -/
def regsBnc : List RegSpec :=
  [⟨0x03080, 1, 4, .glob, [⟨0, 3, .ro, 0⟩, ⟨3, 1, .ro, 0⟩, ⟨8, 8, .ro, 0⟩, ⟨16, 1, .w1c, 0⟩]⟩ /- BNC.STATUS -/,
   ⟨0x03084, 1, 4, .glob, [⟨0, 16, .ro, 0⟩, ⟨16, 4, .ro, 0⟩, ⟨24, 8, .ro, 0⟩]⟩ /- BNC.HANDOVER -/,
   ⟨0x03088, 1, 4, .glob, [⟨0, 14, .rw, 0x3e8⟩]⟩ /- BNC.WDOG_CFG -/,
   ⟨0x0308C, 1, 4, .glob, [⟨0, 16, .wo, 0⟩]⟩ /- BNC.WDOG_KICK -/,
   ⟨0x03090, 1, 4, .glob, [⟨0, 32, .rws, 0⟩]⟩ /- BNC.QUEUE_MAP_LO -/,
   ⟨0x03094, 1, 4, .glob, [⟨0, 32, .rws, 0xff000000⟩]⟩ /- BNC.QUEUE_MAP_HI -/,
   ⟨0x03098, 1, 4, .glob, [⟨0, 7, .rws, 0x14⟩]⟩ /- BNC.QUEUE_CFG -/,
   ⟨0x0309C, 1, 4, .win, [⟨0, 6, .rw, 0⟩]⟩ /- BNC.QUEUE_SEL -/,
   ⟨0x030A0, 1, 4, .sel, [⟨0, 13, .ro, 0⟩, ⟨16, 16, .ro, 0⟩]⟩ /- BNC.QUEUE_STATUS -/]

/-- The registers of block PWR. -/
def regsPwr : List RegSpec :=
  [⟨0x04080, 1, 4, .glob, [⟨0, 8, .ro, 0xff⟩, ⟨8, 8, .w1c, 0⟩, ⟨16, 3, .ro, 0⟩, ⟨19, 1, .w1c, 0⟩]⟩ /- PWR.RAIL_STATUS -/,
   ⟨0x04084, 1, 4, .glob, [⟨0, 8, .rws, 0x64⟩, ⟨8, 8, .rws, 0xc8⟩, ⟨16, 8, .rws, 0xa⟩]⟩ /- PWR.PACE_CTL -/,
   ⟨0x04088, 1, 4, .glob, [⟨0, 2, .rws, 0⟩, ⟨4, 4, .rws, 0xa⟩, ⟨8, 4, .rws, 5⟩, ⟨12, 8, .rws, 0x28⟩, ⟨20, 8, .rws, 0x64⟩]⟩ /- PWR.AVS_CTL -/,
   ⟨0x0408C, 1, 4, .glob, [⟨0, 8, .ro, 0x32⟩, ⟨8, 8, .ro, 0⟩, ⟨16, 1, .ro, 0⟩, ⟨17, 1, .w1c, 0⟩]⟩ /- PWR.AVS_STATUS -/,
   ⟨0x040C0, 16, 4, .glob, [⟨0, 11, .ro, 0⟩, ⟨11, 1, .ro, 0⟩, ⟨16, 11, .ro, 0x3ff⟩, ⟨31, 1, .wo, 0⟩]⟩ /- PWR.PACE_MARGIN -/]

/-- The registers of block CFG. -/
def regsCfg : List RegSpec :=
  [⟨0x05080, 1, 4, .glob, [⟨0, 4, .ro, 1⟩, ⟨4, 3, .ro, 0⟩, ⟨7, 1, .w1c, 0⟩, ⟨8, 4, .ro, 0⟩, ⟨12, 1, .w1c, 0⟩, ⟨13, 1, .w1c, 0⟩, ⟨16, 16, .ro, 0⟩]⟩ /- CFG.START_STATE -/,
   ⟨0x05084, 1, 4, .glob, [⟨0, 8, .ro, 0⟩, ⟨8, 1, .ro, 0⟩]⟩ /- CFG.FAIL_CODE -/,
   ⟨0x05088, 1, 4, .glob, [⟨0, 32, .ro, 0⟩]⟩ /- CFG.FAIL_INDEX -/,
   ⟨0x05090, 1, 4, .glob, [⟨0, 1, .wo, 0⟩, ⟨1, 1, .rw, 0⟩, ⟨2, 1, .rw, 0⟩, ⟨3, 1, .rw, 0⟩]⟩ /- CFG.LOAD_CTL -/,
   ⟨0x05094, 1, 4, .glob, [⟨0, 32, .rw, 0⟩]⟩ /- CFG.HOST_ADDR_LO -/,
   ⟨0x05098, 1, 4, .glob, [⟨0, 32, .rw, 0⟩]⟩ /- CFG.HOST_ADDR_HI -/,
   ⟨0x0509C, 1, 4, .glob, [⟨0, 32, .rw, 0⟩]⟩ /- CFG.HOST_LEN -/,
   ⟨0x050A0, 1, 4, .glob, [⟨0, 32, .ro, 0⟩]⟩ /- CFG.IMAGE_INFO -/,
   ⟨0x050A4, 1, 4, .glob, [⟨0, 32, .ro, 0⟩]⟩ /- CFG.IMAGE_CRC -/,
   ⟨0x050B0, 1, 4, .glob, [⟨0, 8, .ro, 0⟩, ⟨8, 4, .ro, 0⟩, ⟨16, 16, .ro, 0⟩]⟩ /- CFG.LAST_REFUSAL -/,
   ⟨0x050B4, 1, 4, .glob, [⟨0, 32, .ro, 0⟩]⟩ /- CFG.HELD_WRITES -/]

/-- The registers of block RST. -/
def regsRst : List RegSpec :=
  [⟨0x06080, 1, 4, .glob, [⟨0, 4, .ro, 1⟩, ⟨16, 8, .ro, 0⟩]⟩ /- RST.RESET_CAUSE -/,
   ⟨0x06084, 1, 4, .glob, [⟨0, 1, .wo, 0⟩, ⟨8, 8, .wo, 0⟩, ⟨16, 1, .ro, 0⟩]⟩ /- RST.WARM_CTL -/,
   ⟨0x06088, 1, 4, .glob, [⟨0, 16, .ro, 0⟩, ⟨16, 16, .ro, 0⟩]⟩ /- RST.COUNTS -/,
   ⟨0x0608C, 1, 4, .glob, [⟨0, 8, .ro, 0⟩, ⟨8, 10, .ro, 0⟩, ⟨18, 1, .ro, 0⟩, ⟨19, 1, .ro, 0⟩, ⟨20, 1, .ro, 0⟩, ⟨21, 1, .ro, 0⟩, ⟨31, 1, .w1c, 0⟩]⟩ /- RST.LAST_BLOCK_RESET -/]

/-- The registers of block LAN. -/
def regsLan : List RegSpec :=
  [⟨0x08080, 1, 4, .chan, [⟨0, 2, .rws, 0⟩, ⟨2, 3, .rws, 3⟩, ⟨5, 1, .rws, 0⟩, ⟨6, 1, .rws, 0⟩, ⟨7, 1, .rws, 0⟩, ⟨8, 1, .rws, 0⟩, ⟨9, 1, .rws, 0⟩, ⟨10, 1, .rws, 1⟩, ⟨11, 1, .rws, 0⟩]⟩ /- LAN.LANE_CFG -/,
   ⟨0x08084, 1, 4, .chan, [⟨0, 5, .rws, 0⟩, ⟨5, 5, .rws, 0⟩, ⟨10, 5, .rws, 0x16⟩]⟩ /- LAN.TX_EQ -/,
   ⟨0x08088, 1, 4, .chan, [⟨0, 5, .ro, 0⟩, ⟨5, 5, .ro, 0⟩, ⟨10, 5, .ro, 0x16⟩, ⟨16, 7, .ro, 0x40⟩]⟩ /- LAN.TX_EQ_LIVE -/,
   ⟨0x0808C, 1, 4, .chan, [⟨0, 8, .rws, 1⟩, ⟨8, 8, .rws, 5⟩, ⟨16, 8, .rws, 0xa⟩]⟩ /- LAN.SD_CTL -/,
   ⟨0x08090, 1, 4, .chan, [⟨0, 12, .rws, 0⟩, ⟨16, 8, .rws, 0⟩]⟩ /- LAN.TRAIN_CTL -/,
   ⟨0x08094, 1, 4, .chan, [⟨0, 32, .rws, 1⟩]⟩ /- LAN.AN_ADV_LO -/,
   ⟨0x08098, 1, 4, .chan, [⟨0, 16, .rws, 0⟩]⟩ /- LAN.AN_ADV_HI -/,
   ⟨0x0809C, 1, 4, .chan, [⟨0, 32, .ro, 0⟩]⟩ /- LAN.AN_LP_LO -/,
   ⟨0x080A0, 1, 4, .chan, [⟨0, 16, .ro, 0⟩]⟩ /- LAN.AN_LP_HI -/,
   ⟨0x080B0, 1, 4, .chan, [⟨0, 4, .ro, 0⟩, ⟨4, 1, .ro, 0⟩, ⟨5, 1, .ro, 0⟩, ⟨6, 1, .ro, 0⟩, ⟨7, 1, .ro, 0⟩, ⟨8, 3, .ro, 0⟩, ⟨11, 1, .ro, 0⟩, ⟨12, 1, .ro, 0⟩, ⟨16, 8, .ro, 0xff⟩]⟩ /- LAN.LINK_STATUS -/,
   ⟨0x080B4, 1, 4, .chan, [⟨0, 16, .ro, 0⟩, ⟨16, 8, .ro, 0⟩, ⟨24, 8, .ro, 0⟩]⟩ /- LAN.LINK_COUNTS -/,
   ⟨0x080B8, 1, 4, .chan, [⟨0, 12, .ro, 0⟩, ⟨12, 9, .ro, 0⟩, ⟨24, 8, .ro, 0⟩]⟩ /- LAN.TIE_ALIGN -/] ++
  [⟨0x080BC, 1, 4, .chan, [⟨0, 8, .ro, 0⟩, ⟨8, 6, .ro, 0⟩, ⟨16, 8, .ro, 0⟩, ⟨24, 8, .ro, 0⟩]⟩ /- LAN.ADAPT_STATUS -/,
   ⟨0x080C0, 1, 4, .chan, [⟨0, 16, .ro, 0⟩, ⟨16, 16, .ro, 0⟩]⟩ /- LAN.PMA_DELAY -/,
   ⟨0x080C4, 1, 4, .chan, [⟨0, 1, .wo, 0⟩, ⟨1, 3, .rw, 0⟩, ⟨4, 4, .rw, 6⟩, ⟨8, 1, .ro, 0⟩, ⟨9, 1, .w1c, 0⟩, ⟨10, 1, .ro, 0⟩, ⟨11, 1, .w1c, 0⟩]⟩ /- LAN.EYE_CTL -/,
   ⟨0x080C8, 1, 4, .chan, [⟨0, 8, .ro, 0⟩, ⟨8, 8, .ro, 0⟩, ⟨16, 8, .ro, 0⟩]⟩ /- LAN.EYE_VERT -/,
   ⟨0x080CC, 1, 4, .chan, [⟨0, 8, .ro, 0⟩, ⟨8, 8, .ro, 0⟩]⟩ /- LAN.EYE_HORZ -/,
   ⟨0x080D0, 1, 4, .chan, [⟨0, 4, .rws, 0⟩, ⟨4, 4, .rws, 0⟩, ⟨8, 1, .wo, 0⟩, ⟨9, 1, .wo, 0⟩]⟩ /- LAN.PAT_CTL -/,
   ⟨0x080D4, 1, 4, .chan, [⟨0, 32, .rws, 0⟩]⟩ /- LAN.PAT_USER_LO -/,
   ⟨0x080D8, 1, 4, .chan, [⟨0, 32, .rws, 0⟩]⟩ /- LAN.PAT_USER_HI -/,
   ⟨0x080DC, 1, 4, .chan, [⟨0, 32, .rs, 0⟩]⟩ /- LAN.PAT_ERR_LO -/,
   ⟨0x080E0, 1, 4, .chan, [⟨0, 32, .ro, 0⟩]⟩ /- LAN.PAT_ERR_HI -/,
   ⟨0x080E4, 1, 4, .chan, [⟨0, 32, .rs, 0⟩]⟩ /- LAN.PAT_BITS_LO -/,
   ⟨0x080E8, 1, 4, .chan, [⟨0, 32, .ro, 0⟩]⟩ /- LAN.PAT_BITS_HI -/] ++
  [⟨0x080EC, 1, 4, .chan, [⟨0, 1, .ro, 0⟩, ⟨1, 1, .w1c, 0⟩, ⟨2, 1, .w1c, 0⟩]⟩ /- LAN.PAT_STATUS -/,
   ⟨0x08200, 4, 4, .glob, [⟨0, 1, .ro, 0⟩, ⟨1, 1, .ro, 0⟩, ⟨16, 16, .ro, 0⟩]⟩ /- LAN.CAL_STATUS -/]

/-- The registers of block PRT. -/
def regsPrt : List RegSpec :=
  [⟨0x0C080, 1, 4, .chan, [⟨0, 3, .rws, 3⟩, ⟨3, 2, .rws, 2⟩, ⟨5, 1, .rws, 0⟩, ⟨6, 1, .rws, 0⟩, ⟨8, 14, .rws, 0x2400⟩]⟩ /- PRT.PORT_CFG -/,
   ⟨0x0C084, 1, 4, .chan, [⟨0, 2, .rws, 0⟩, ⟨2, 1, .rws, 0⟩, ⟨3, 3, .rws, 0⟩, ⟨6, 1, .rws, 0⟩, ⟨7, 3, .rws, 0⟩]⟩ /- PRT.RED_CFG -/,
   ⟨0x0C088, 1, 4, .chan, [⟨0, 8, .rws, 0xa⟩, ⟨8, 8, .rws, 0xa⟩, ⟨16, 4, .rws, 5⟩, ⟨20, 4, .rws, 0xa⟩, ⟨24, 8, .rws, 0x3c⟩]⟩ /- PRT.DEBOUNCE -/,
   ⟨0x0C090, 1, 4, .chan, [⟨0, 1, .ro, 0⟩, ⟨1, 1, .ro, 0⟩, ⟨2, 1, .ro, 0⟩, ⟨3, 1, .ro, 0⟩, ⟨4, 1, .ro, 0⟩, ⟨5, 1, .ro, 0⟩, ⟨6, 2, .ro, 0⟩, ⟨8, 3, .ro, 0⟩, ⟨16, 4, .ro, 0⟩]⟩ /- PRT.LINK_STATUS -/,
   ⟨0x0C094, 1, 4, .chan, [⟨0, 16, .ro, 0⟩, ⟨16, 16, .ro, 0⟩]⟩ /- PRT.TS_DELAY -/,
   ⟨0x0C098, 1, 4, .chan, [⟨0, 16, .ro, 0⟩]⟩ /- PRT.RED_SEQ -/,
   ⟨0x0C0A0, 1, 4, .chan, [⟨0, 24, .wo, 0⟩]⟩ /- PRT.CNT_CLEAR -/,
   ⟨0x0C0A4, 1, 4, .chan, [⟨0, 24, .w1c, 0⟩]⟩ /- PRT.CNT_WRAP -/,
   ⟨0x0D000, 24, 8, .chan, [⟨0, 32, .rs, 0⟩]⟩ /- PRT.CNT_LO -/,
   ⟨0x0D004, 24, 8, .chan, [⟨0, 32, .ro, 0⟩]⟩ /- PRT.CNT_HI -/]

/-- The registers of block TIE. -/
def regsTie : List RegSpec :=
  [⟨0x10080, 1, 4, .glob, [⟨0, 16, .rws, 0⟩, ⟨16, 2, .rws, 0⟩, ⟨24, 8, .rws, 0xa⟩]⟩ /- TIE.MESH_CFG -/,
   ⟨0x10084, 1, 4, .glob, [⟨0, 12, .rws, 0x100⟩, ⟨16, 10, .rws, 0x3e8⟩]⟩ /- TIE.LINK_CFG -/,
   ⟨0x10088, 1, 4, .glob, [⟨0, 16, .rws, 0x1f4⟩]⟩ /- TIE.SYSVER_CFG -/,
   ⟨0x1008C, 1, 4, .glob, [⟨0, 2, .ro, 0⟩, ⟨2, 3, .ro, 0⟩, ⟨5, 1, .ro, 0⟩, ⟨6, 1, .ro, 0⟩, ⟨8, 8, .ro, 0⟩, ⟨16, 8, .ro, 0⟩]⟩ /- TIE.MESH_STATUS -/,
   ⟨0x10090, 1, 4, .glob, [⟨0, 32, .ro, 0⟩]⟩ /- TIE.MGR_EPOCH -/,
   ⟨0x10094, 1, 4, .win, [⟨0, 12, .rw, 0⟩]⟩ /- TIE.OWN_SEL -/,
   ⟨0x10098, 1, 4, .sel, [⟨0, 3, .ro, 0⟩, ⟨3, 1, .ro, 0⟩, ⟨16, 16, .ro, 0⟩]⟩ /- TIE.OWN_ENTRY -/,
   ⟨0x1009C, 1, 4, .win, [⟨0, 12, .rw, 0⟩, ⟨12, 3, .rw, 0⟩, ⟨16, 1, .wo, 0⟩, ⟨17, 1, .ro, 0⟩, ⟨18, 3, .ro, 0⟩]⟩ /- TIE.OWN_MOVE -/,
   ⟨0x100A0, 1, 4, .glob, [⟨0, 2, .ro, 0⟩, ⟨2, 3, .ro, 0⟩, ⟨5, 1, .w1c, 0⟩, ⟨8, 4, .ro, 0⟩]⟩ /- TIE.SYS_STATUS -/,
   ⟨0x100C0, 1, 4, .chan, [⟨0, 3, .ro, 0⟩, ⟨8, 4, .ro, 0⟩, ⟨16, 3, .ro, 0⟩, ⟨19, 2, .ro, 0⟩, ⟨21, 2, .ro, 0⟩]⟩ /- TIE.LINK_STATUS -/,
   ⟨0x100C4, 1, 4, .chan, [⟨0, 16, .ro, 0⟩, ⟨16, 16, .ro, 0⟩]⟩ /- TIE.LINK_CREDITS -/,
   ⟨0x100C8, 1, 4, .chan, [⟨0, 16, .rs, 0⟩]⟩ /- TIE.LINK_DELAY_LO -/] ++
  [⟨0x100CC, 1, 4, .chan, [⟨0, 32, .ro, 0⟩]⟩ /- TIE.LINK_DELAY_HI -/,
   ⟨0x100D0, 1, 4, .chan, [⟨0, 10, .wo, 0⟩]⟩ /- TIE.CNT_CLEAR -/,
   ⟨0x100D4, 1, 4, .chan, [⟨0, 10, .w1c, 0⟩]⟩ /- TIE.CNT_WRAP -/,
   ⟨0x100D8, 1, 4, .glob, [⟨0, 8, .wo, 0⟩]⟩ /- TIE.GCNT_CLEAR -/,
   ⟨0x100DC, 1, 4, .glob, [⟨0, 8, .w1c, 0⟩]⟩ /- TIE.GCNT_WRAP -/,
   ⟨0x11000, 10, 8, .chan, [⟨0, 32, .rs, 0⟩]⟩ /- TIE.CNT_LO -/,
   ⟨0x11004, 10, 8, .chan, [⟨0, 32, .ro, 0⟩]⟩ /- TIE.CNT_HI -/,
   ⟨0x11080, 8, 8, .glob, [⟨0, 32, .rs, 0⟩]⟩ /- TIE.GCNT_LO -/,
   ⟨0x11084, 8, 8, .glob, [⟨0, 32, .ro, 0⟩]⟩ /- TIE.GCNT_HI -/]

/-- The registers of block PRS. -/
def regsPrs : List RegSpec :=
  [⟨0x12080, 1, 4, .chan, [⟨0, 15, .rws, 0x7fff⟩, ⟨15, 1, .rws, 0⟩, ⟨16, 1, .rws, 0⟩, ⟨24, 8, .rws, 0⟩]⟩ /- PRS.PROF_CFG -/,
   ⟨0x12084, 1, 4, .chan, [⟨0, 16, .rws, 0x12b5⟩, ⟨16, 16, .rws, 0x66⟩]⟩ /- PRS.PROF_PORTS -/,
   ⟨0x12088, 1, 4, .chan, [⟨0, 12, .rws, 1⟩, ⟨16, 16, .rws, 0x88a8⟩]⟩ /- PRS.PROF_VLAN -/,
   ⟨0x1208C, 1, 4, .chan, [⟨0, 2, .rws, 0⟩, ⟨2, 2, .rws, 1⟩, ⟨4, 2, .rws, 0⟩, ⟨6, 2, .rws, 1⟩, ⟨8, 2, .rws, 0⟩, ⟨10, 2, .rws, 1⟩, ⟨12, 2, .rws, 0⟩, ⟨14, 2, .rws, 1⟩, ⟨16, 2, .rws, 0⟩, ⟨18, 2, .rws, 1⟩, ⟨20, 2, .rws, 0⟩, ⟨22, 2, .rws, 1⟩, ⟨24, 2, .rws, 0⟩, ⟨26, 2, .rws, 1⟩, ⟨28, 2, .rws, 0⟩, ⟨30, 2, .rws, 1⟩]⟩ /- PRS.EXC_POLICY -/,
   ⟨0x12090, 1, 4, .chan, [⟨0, 9, .wo, 0⟩]⟩ /- PRS.CNT_CLEAR -/,
   ⟨0x12094, 1, 4, .chan, [⟨0, 9, .w1c, 0⟩]⟩ /- PRS.CNT_WRAP -/,
   ⟨0x120C0, 1, 4, .glob, [⟨0, 8, .rws, 0⟩]⟩ /- PRS.HOST_PROFILE -/,
   ⟨0x13000, 9, 8, .chan, [⟨0, 32, .rs, 0⟩]⟩ /- PRS.EXC_CNT_LO -/,
   ⟨0x13004, 9, 8, .chan, [⟨0, 32, .ro, 0⟩]⟩ /- PRS.EXC_CNT_HI -/]

/-- The registers of block CLS. -/
def regsCls : List RegSpec :=
  [⟨0x14080, 1, 4, .glob, [⟨0, 32, .ro, 0⟩]⟩ /- CLS.VERSION -/,
   ⟨0x14084, 1, 4, .glob, [⟨0, 1, .ro, 0⟩, ⟨1, 1, .ro, 0⟩]⟩ /- CLS.VERSION_STATE -/,
   ⟨0x14088, 1, 4, .glob, [⟨0, 22, .ro, 0⟩]⟩ /- CLS.INFLIGHT_CUR -/,
   ⟨0x1408C, 1, 4, .glob, [⟨0, 22, .ro, 0⟩]⟩ /- CLS.INFLIGHT_OLD -/,
   ⟨0x14090, 1, 4, .glob, [⟨0, 8, .rw, 0x32⟩, ⟨8, 1, .wo, 0⟩]⟩ /- CLS.DRAIN_CTL -/,
   ⟨0x14094, 1, 4, .glob, [⟨0, 16, .ro, 0⟩, ⟨16, 8, .ro, 0⟩, ⟨24, 8, .ro, 0⟩]⟩ /- CLS.DRAIN_STATUS -/,
   ⟨0x14098, 1, 4, .glob, [⟨0, 1, .wo, 0⟩, ⟨1, 1, .wo, 0⟩, ⟨2, 1, .rw, 0⟩, ⟨8, 1, .ro, 0⟩, ⟨9, 1, .w1c, 0⟩]⟩ /- CLS.STAGE_CTL -/,
   ⟨0x1409C, 1, 4, .glob, [⟨0, 17, .rw, 0⟩, ⟨30, 1, .wo, 0⟩, ⟨31, 1, .rw, 0⟩]⟩ /- CLS.STAGE_ADDR -/,
   ⟨0x140A0, 1, 4, .glob, [⟨0, 18, .rw, 0⟩]⟩ /- CLS.STAGE_COUNT -/,
   ⟨0x140C0, 16, 4, .glob, [⟨0, 32, .rw, 0⟩]⟩ /- CLS.STAGE_DATA -/,
   ⟨0x14100, 1, 4, .glob, [⟨0, 32, .rws, 0⟩]⟩ /- CLS.DEFAULT_A -/,
   ⟨0x14104, 1, 4, .glob, [⟨0, 32, .rws, 0⟩]⟩ /- CLS.DEFAULT_B -/] ++
  [⟨0x14108, 1, 4, .glob, [⟨0, 16, .rws, 0x66⟩, ⟨16, 16, .rws, 0x964⟩]⟩ /- CLS.SCADA_PORTS -/,
   ⟨0x14110, 8, 4, .glob, [⟨0, 11, .rws, 0x3e0⟩, ⟨11, 1, .rws, 0⟩, ⟨12, 1, .rws, 0⟩]⟩ /- CLS.HASH_PROF -/,
   ⟨0x14140, 1, 4, .glob, [⟨0, 6, .rw, 0x3f⟩]⟩ /- CLS.STEER_CFG -/,
   ⟨0x14150, 1, 4, .glob, [⟨0, 12, .rw, 0⟩, ⟨12, 6, .rw, 0⟩, ⟨31, 1, .rw, 0⟩]⟩ /- CLS.IND_ADDR -/,
   ⟨0x14154, 1, 4, .glob, [⟨0, 6, .rw, 0⟩]⟩ /- CLS.IND_DATA -/,
   ⟨0x14158, 1, 4, .glob, [⟨0, 1, .ro, 0⟩, ⟨1, 1, .w1c, 0⟩]⟩ /- CLS.IND_STATUS -/]

/-- The registers of block L2T. -/
def regsL2t : List RegSpec :=
  [⟨0x18080, 1, 4, .glob, [⟨0, 1, .rws, 0⟩, ⟨1, 2, .rws, 1⟩, ⟨3, 1, .rws, 1⟩, ⟨4, 18, .rws, 0⟩]⟩ /- L2T.CFG -/,
   ⟨0x18084, 1, 4, .glob, [⟨0, 8, .rws, 0xa⟩, ⟨8, 11, .rws, 0x12c⟩]⟩ /- L2T.AGE_CFG -/,
   ⟨0x18088, 1, 4, .glob, [⟨0, 10, .rws, 0x64⟩]⟩ /- L2T.NOTIFY_CFG -/,
   ⟨0x18090, 1, 4, .win, [⟨0, 8, .rw, 0⟩]⟩ /- L2T.PORT_SEL -/,
   ⟨0x18094, 1, 4, .sel, [⟨0, 2, .rws, 1⟩, ⟨2, 1, .rws, 0⟩, ⟨4, 20, .rws, 0⟩]⟩ /- L2T.PORT_LEARN -/,
   ⟨0x18098, 1, 4, .sel, [⟨0, 20, .ro, 0⟩]⟩ /- L2T.PORT_COUNT -/,
   ⟨0x180A0, 1, 4, .win, [⟨0, 32, .rw, 0⟩]⟩ /- L2T.KEY_LO -/,
   ⟨0x180A4, 1, 4, .win, [⟨0, 16, .rw, 0⟩, ⟨16, 12, .rw, 0⟩]⟩ /- L2T.KEY_HI -/,
   ⟨0x180A8, 1, 4, .win, [⟨0, 18, .rw, 0⟩, ⟨18, 2, .rw, 0⟩, ⟨20, 1, .rw, 0⟩, ⟨21, 1, .rw, 0⟩]⟩ /- L2T.ENTRY_DATA -/,
   ⟨0x180AC, 1, 4, .win, [⟨0, 12, .ro, 0⟩, ⟨12, 1, .ro, 0⟩]⟩ /- L2T.ENTRY_STAMP -/,
   ⟨0x180B0, 1, 4, .win, [⟨0, 3, .wo, 0⟩, ⟨4, 20, .rw, 0⟩, ⟨24, 4, .ro, 0⟩, ⟨28, 1, .ro, 0⟩]⟩ /- L2T.OP -/,
   ⟨0x180C0, 1, 4, .glob, [⟨0, 20, .ro, 0⟩]⟩ /- L2T.USAGE -/] ++
  [⟨0x180C4, 1, 4, .glob, [⟨0, 14, .ro, 0⟩]⟩ /- L2T.OVF_USAGE -/,
   ⟨0x180D0, 10, 4, .glob, [⟨0, 32, .ro, 0⟩]⟩ /- L2T.STAT -/,
   ⟨0x180FC, 1, 4, .glob, [⟨0, 32, .ro, 0⟩]⟩ /- L2T.STAT10 -/,
   ⟨0x180F8, 1, 4, .glob, [⟨0, 11, .wo, 0⟩]⟩ /- L2T.STAT_CLEAR -/]

/-- The registers of block LPM. -/
def regsLpm : List RegSpec :=
  [⟨0x19080, 1, 4, .glob, [⟨0, 2, .rws, 0⟩, ⟨2, 18, .rws, 0⟩, ⟨20, 1, .rws, 1⟩]⟩ /- LPM.CFG -/,
   ⟨0x19084, 1, 4, .win, [⟨0, 22, .rw, 0⟩, ⟨31, 1, .rw, 0⟩]⟩ /- LPM.NODE_ADDR -/,
   ⟨0x19094, 1, 4, .win, [⟨0, 22, .rw, 0⟩, ⟨31, 1, .rw, 0⟩]⟩ /- LPM.NH_ADDR -/,
   ⟨0x190A8, 1, 4, .win, [⟨0, 22, .rw, 0⟩, ⟨31, 1, .rw, 0⟩]⟩ /- LPM.ECMP_ADDR -/,
   ⟨0x190B0, 1, 4, .win, [⟨0, 22, .rw, 0⟩, ⟨31, 1, .rw, 0⟩]⟩ /- LPM.MEMBER_ADDR -/,
   ⟨0x19088, 1, 4, .win, [⟨0, 32, .rl, 0⟩]⟩ /- LPM.NODE_DATA_LO -/,
   ⟨0x1908C, 1, 4, .win, [⟨0, 32, .rw, 0⟩]⟩ /- LPM.NODE_DATA_HI -/,
   ⟨0x19090, 1, 4, .glob, [⟨0, 1, .wo, 0⟩, ⟨1, 1, .ro, 1⟩]⟩ /- LPM.FENCE -/,
   ⟨0x19098, 1, 4, .win, [⟨0, 32, .rl, 0⟩]⟩ /- LPM.NH_DATA0 -/,
   ⟨0x1909C, 1, 4, .win, [⟨0, 32, .rw, 0⟩]⟩ /- LPM.NH_DATA1 -/,
   ⟨0x190A0, 1, 4, .win, [⟨0, 32, .rw, 0⟩]⟩ /- LPM.NH_DATA2 -/,
   ⟨0x190A4, 1, 4, .win, [⟨0, 32, .rw, 0⟩]⟩ /- LPM.NH_DATA3 -/] ++
  [⟨0x190AC, 1, 4, .win, [⟨0, 27, .rw, 0⟩]⟩ /- LPM.ECMP_DATA -/,
   ⟨0x190B4, 1, 4, .win, [⟨0, 18, .rw, 0⟩]⟩ /- LPM.MEMBER_DATA -/,
   ⟨0x19100, 16, 8, .glob, [⟨0, 32, .rw, 0⟩]⟩ /- LPM.SMAC_LO -/,
   ⟨0x19104, 16, 8, .glob, [⟨0, 16, .rw, 0⟩]⟩ /- LPM.SMAC_HI -/,
   ⟨0x190C0, 4, 4, .glob, [⟨0, 32, .ro, 0⟩]⟩ /- LPM.STAT -/,
   ⟨0x190D0, 1, 4, .glob, [⟨0, 4, .wo, 0⟩]⟩ /- LPM.STAT_CLEAR -/]

/-- The registers of block FLT. -/
def regsFlt : List RegSpec :=
  [⟨0x1C080, 1, 4, .glob, [⟨0, 16, .rws, 0x3e8⟩]⟩ /- FLT.AGE_TICK -/,
   ⟨0x1C084, 1, 4, .glob, [⟨0, 20, .ro, 0⟩]⟩ /- FLT.TICK_NOW -/,
   ⟨0x1C088, 1, 4, .win, [⟨0, 8, .rw, 0⟩]⟩ /- FLT.PROG_SEL -/,
   ⟨0x1C090, 1, 4, .win, [⟨0, 4, .rw, 0⟩]⟩ /- FLT.KEY_SEL -/,
   ⟨0x1C08C, 1, 4, .sel, [⟨0, 20, .rws, 0x12c⟩]⟩ /- FLT.PROG_TIMEOUT -/,
   ⟨0x1C094, 1, 4, .sel, [⟨0, 13, .rws, 0xf80⟩, ⟨13, 1, .rws, 0⟩, ⟨14, 1, .rws, 0⟩, ⟨16, 13, .rws, 0⟩]⟩ /- FLT.KEY_PROF -/,
   ⟨0x1C098, 1, 4, .glob, [⟨0, 2, .rws, 2⟩]⟩ /- FLT.EXPORT_CFG -/,
   ⟨0x1C0A0, 1, 4, .glob, [⟨0, 28, .ro, 0⟩]⟩ /- FLT.USAGE -/,
   ⟨0x1C0A4, 1, 4, .glob, [⟨0, 28, .ro, 0⟩]⟩ /- FLT.OVF_USAGE -/,
   ⟨0x1C0A8, 1, 4, .glob, [⟨0, 28, .ro, 0⟩]⟩ /- FLT.ALLOC_HWM -/,
   ⟨0x1C0AC, 1, 4, .glob, [⟨0, 28, .ro, 0⟩]⟩ /- FLT.POOL_LEVEL -/,
   ⟨0x1C0B0, 1, 4, .glob, [⟨0, 16, .ro, 0⟩, ⟨16, 16, .ro, 0⟩]⟩ /- FLT.SCAN_STATUS -/] ++
  [⟨0x1C0B4, 1, 4, .glob, [⟨0, 9, .rw, 0⟩]⟩ /- FLT.BAR2_WINDOW -/,
   ⟨0x1C0B8, 1, 4, .glob, [⟨0, 14, .ro, 0⟩, ⟨16, 16, .ro, 0⟩]⟩ /- FLT.EXPORT_STATUS -/,
   ⟨0x1C0C0, 16, 8, .glob, [⟨0, 32, .rs, 0⟩]⟩ /- FLT.CNT_LO -/,
   ⟨0x1C0C4, 16, 8, .glob, [⟨0, 32, .ro, 0⟩]⟩ /- FLT.CNT_HI -/,
   ⟨0x1C140, 1, 4, .glob, [⟨0, 16, .wo, 0⟩]⟩ /- FLT.CNT_CLEAR -/,
   ⟨0x1C144, 1, 4, .glob, [⟨0, 16, .w1c, 0⟩]⟩ /- FLT.CNT_WRAP -/,
   ⟨0x1D000, 1, 4, .win, [⟨0, 32, .rw, 0⟩]⟩ /- FLT.CMDQ_BASE_LO -/,
   ⟨0x1D004, 1, 4, .win, [⟨0, 32, .rw, 0⟩]⟩ /- FLT.CMDQ_BASE_HI -/,
   ⟨0x1D020, 1, 4, .win, [⟨0, 32, .rw, 0⟩]⟩ /- FLT.EXPQ_BASE_LO -/,
   ⟨0x1D024, 1, 4, .win, [⟨0, 32, .rw, 0⟩]⟩ /- FLT.EXPQ_BASE_HI -/,
   ⟨0x1D008, 1, 4, .win, [⟨0, 4, .rw, 4⟩, ⟨4, 1, .rw, 0⟩]⟩ /- FLT.CMDQ_CFG -/,
   ⟨0x1D028, 1, 4, .win, [⟨0, 4, .rw, 4⟩, ⟨4, 1, .rw, 0⟩]⟩ /- FLT.EXPQ_CFG -/] ++
  [⟨0x1D00C, 1, 4, .win, [⟨0, 13, .rw, 0⟩]⟩ /- FLT.CMDQ_PROD -/,
   ⟨0x1D010, 1, 4, .win, [⟨0, 13, .ro, 0⟩]⟩ /- FLT.CMDQ_CONS -/,
   ⟨0x1D02C, 1, 4, .win, [⟨0, 13, .ro, 0⟩]⟩ /- FLT.EXPQ_PROD -/,
   ⟨0x1D030, 1, 4, .win, [⟨0, 13, .rw, 0⟩]⟩ /- FLT.EXPQ_CONS -/]

/-- The registers of block FCH. -/
def regsFch : List RegSpec :=
  [⟨0x20080, 8, 8, .glob, [⟨0, 32, .rs, 0⟩]⟩ /- FCH.CNT_LO -/,
   ⟨0x20084, 8, 8, .glob, [⟨0, 32, .ro, 0⟩]⟩ /- FCH.CNT_HI -/,
   ⟨0x200C0, 1, 4, .glob, [⟨0, 8, .wo, 0⟩]⟩ /- FCH.CNT_CLEAR -/,
   ⟨0x200C4, 1, 4, .glob, [⟨0, 8, .w1c, 0⟩]⟩ /- FCH.CNT_WRAP -/,
   ⟨0x200D0, 1, 4, .glob, [⟨0, 20, .ro, 0⟩]⟩ /- FCH.OCCUPANCY -/,
   ⟨0x200D4, 1, 4, .glob, [⟨0, 20, .ro, 0⟩]⟩ /- FCH.DIRTY -/,
   ⟨0x200D8, 1, 4, .glob, [⟨0, 20, .ro, 0⟩]⟩ /- FCH.LOCKED -/]

/-- The registers of block HBM. -/
def regsHbm : List RegSpec :=
  [⟨0x22080, 1, 4, .chan, [⟨0, 1, .ro, 0⟩, ⟨1, 1, .ro, 0⟩, ⟨8, 8, .ro, 0⟩]⟩ /- HBM.STACK_STATUS -/,
   ⟨0x22084, 1, 4, .chan, [⟨0, 32, .ro, 0⟩]⟩ /- HBM.ECC_CORR -/,
   ⟨0x22088, 1, 4, .chan, [⟨0, 32, .ro, 0⟩]⟩ /- HBM.ECC_UNCORR -/,
   ⟨0x2208C, 1, 4, .chan, [⟨0, 32, .ro, 0⟩]⟩ /- HBM.ERR_ADDR_LO -/,
   ⟨0x22090, 1, 4, .chan, [⟨0, 4, .ro, 0⟩, ⟨31, 1, .w1c, 0⟩]⟩ /- HBM.ERR_ADDR_HI -/]

/-- The registers of block DSP. -/
def regsDsp : List RegSpec :=
  [⟨0x24080, 1, 4, .glob, [⟨0, 14, .rws, 0x400⟩, ⟨16, 10, .rws, 0x200⟩]⟩ /- DSP.CFG -/,
   ⟨0x24084, 1, 4, .glob, [⟨0, 8, .rws, 0x40⟩, ⟨8, 14, .rws, 0x1800⟩]⟩ /- DSP.CHAIN_CFG -/,
   ⟨0x24088, 1, 4, .glob, [⟨0, 2, .rws, 0⟩, ⟨2, 2, .rws, 0⟩, ⟨4, 2, .rws, 0⟩, ⟨6, 2, .rws, 0⟩, ⟨8, 2, .rws, 0⟩, ⟨10, 2, .rws, 0⟩, ⟨12, 2, .rws, 0⟩, ⟨14, 2, .rws, 0⟩]⟩ /- DSP.BP_ACTION -/,
   ⟨0x2408C, 1, 4, .glob, [⟨0, 4, .rws, 1⟩, ⟨4, 4, .rws, 2⟩, ⟨8, 4, .rws, 4⟩, ⟨12, 4, .rws, 4⟩, ⟨16, 4, .rws, 8⟩, ⟨20, 4, .rws, 4⟩]⟩ /- DSP.WEIGHTS -/,
   ⟨0x24090, 1, 4, .glob, [⟨0, 8, .rws, 0x14⟩, ⟨8, 1, .rws, 0⟩]⟩ /- DSP.FENCE_CFG -/,
   ⟨0x24094, 1, 4, .glob, [⟨0, 13, .ro, 0⟩, ⟨16, 16, .ro, 0⟩]⟩ /- DSP.FENCE_STATUS -/,
   ⟨0x24098, 1, 4, .win, [⟨0, 12, .rw, 0⟩]⟩ /- DSP.ENTRY_SEL -/,
   ⟨0x2409C, 1, 4, .sel, [⟨0, 5, .ro, 0⟩, ⟨5, 5, .ro, 0⟩, ⟨10, 1, .ro, 0⟩, ⟨11, 2, .ro, 0⟩, ⟨13, 5, .ro, 0⟩, ⟨18, 14, .ro, 0⟩]⟩ /- DSP.ENTRY_STATUS -/,
   ⟨0x240A0, 8, 4, .glob, [⟨0, 14, .rws, 0x2000⟩]⟩ /- DSP.CLASS_CAP -/,
   ⟨0x24100, 1, 4, .chan, [⟨0, 14, .ro, 0⟩, ⟨16, 13, .ro, 0⟩]⟩ /- DSP.DEPTH -/,
   ⟨0x24104, 1, 4, .chan, [⟨0, 10, .ro, 0⟩, ⟨16, 8, .ro, 0⟩, ⟨24, 7, .ro, 0⟩]⟩ /- DSP.STAGE -/,
   ⟨0x24108, 1, 4, .chan, [⟨0, 11, .ro, 0⟩, ⟨16, 14, .ro, 0⟩]⟩ /- DSP.PARKED -/] ++
  [⟨0x24110, 8, 4, .chan, [⟨0, 14, .ro, 0⟩]⟩ /- DSP.CLASS_DEPTH -/,
   ⟨0x24130, 8, 4, .chan, [⟨0, 16, .ro, 0⟩, ⟨31, 1, .wo, 0⟩]⟩ /- DSP.CLASS_WAIT -/,
   ⟨0x24150, 1, 4, .chan, [⟨0, 10, .ro, 0⟩, ⟨16, 16, .ro, 0⟩]⟩ /- DSP.LOAD -/,
   ⟨0x24160, 1, 4, .chan, [⟨0, 16, .wo, 0⟩]⟩ /- DSP.CNT_CLEAR -/,
   ⟨0x24164, 1, 4, .chan, [⟨0, 16, .w1c, 0⟩]⟩ /- DSP.CNT_WRAP -/,
   ⟨0x25000, 16, 8, .chan, [⟨0, 32, .rs, 0⟩]⟩ /- DSP.CNT_LO -/,
   ⟨0x25004, 16, 8, .chan, [⟨0, 32, .ro, 0⟩]⟩ /- DSP.CNT_HI -/]

/-- The registers of block FEN. -/
def regsFen : List RegSpec :=
  [⟨0x26080, 1, 4, .chan, [⟨0, 2, .ro, 0⟩, ⟨2, 1, .ro, 0⟩, ⟨3, 13, .ro, 0⟩, ⟨16, 8, .ro, 0⟩, ⟨24, 3, .ro, 0⟩, ⟨27, 1, .ro, 0⟩]⟩ /- FEN.ENG_STATUS -/,
   ⟨0x26084, 1, 4, .chan, [⟨0, 4, .ro, 0⟩, ⟨4, 13, .ro, 0⟩, ⟨17, 8, .ro, 0⟩, ⟨25, 1, .ro, 0⟩, ⟨31, 1, .w1c, 0⟩]⟩ /- FEN.LAST_FAULT -/,
   ⟨0x26088, 1, 4, .chan, [⟨0, 27, .ro, 0⟩]⟩ /- FEN.LAST_FAULT_BUCKET -/,
   ⟨0x26090, 1, 4, .chan, [⟨0, 13, .wo, 0⟩]⟩ /- FEN.CNT_CLEAR -/,
   ⟨0x26094, 1, 4, .chan, [⟨0, 13, .w1c, 0⟩]⟩ /- FEN.CNT_WRAP -/,
   ⟨0x27000, 13, 8, .chan, [⟨0, 32, .rs, 0⟩]⟩ /- FEN.CNT_LO -/,
   ⟨0x27004, 13, 8, .chan, [⟨0, 32, .ro, 0⟩]⟩ /- FEN.CNT_HI -/]

/-- The registers of block MCS. -/
def regsMcs : List RegSpec :=
  [⟨0x2A080, 1, 4, .chan, [⟨0, 1, .rws, 0⟩]⟩ /- MCS.BANK_CTL -/,
   ⟨0x2A084, 1, 4, .chan, [⟨0, 3, .ro, 0⟩, ⟨3, 3, .ro, 0⟩, ⟨6, 1, .ro, 0⟩, ⟨16, 16, .ro, 0⟩]⟩ /- MCS.BANK_STATE -/,
   ⟨0x2A088, 1, 4, .chan, [⟨0, 32, .ro, 0⟩]⟩ /- MCS.BANK_INFO0 -/,
   ⟨0x2A08C, 1, 4, .chan, [⟨0, 32, .ro, 0⟩]⟩ /- MCS.BANK_INFO1 -/,
   ⟨0x2A090, 1, 4, .win, [⟨0, 8, .rw, 0⟩, ⟨8, 1, .rw, 0⟩]⟩ /- MCS.PROG_SEL -/,
   ⟨0x2A094, 1, 4, .chan, [⟨0, 13, .ro, 0⟩, ⟨15, 1, .ro, 0⟩, ⟨16, 16, .ro, 0⟩]⟩ /- MCS.PROG_ENTRY -/,
   ⟨0x2A098, 1, 4, .win, [⟨0, 13, .rw, 0⟩, ⟨13, 1, .rw, 0⟩, ⟨31, 1, .wo, 0⟩]⟩ /- MCS.WORD_ADDR -/,
   ⟨0x2A0A0, 7, 4, .win, [⟨0, 32, .ro, 0⟩]⟩ /- MCS.WORD_DATA -/,
   ⟨0x2A0C0, 1, 4, .chan, [⟨0, 13, .ro, 0⟩, ⟨13, 1, .ro, 0⟩, ⟨14, 1, .ro, 0⟩, ⟨16, 16, .ro, 0⟩]⟩ /- MCS.MC_STATUS -/,
   ⟨0x2A0C4, 1, 4, .chan, [⟨0, 16, .ro, 0⟩, ⟨16, 16, .ro, 0⟩]⟩ /- MCS.MC_COUNT -/,
   ⟨0x2A0C8, 1, 4, .chan, [⟨0, 16, .ro, 0⟩, ⟨16, 16, .ro, 0⟩]⟩ /- MCS.GOLDEN_STATUS -/]

/-- The registers of block BPM. -/
def regsBpm : List RegSpec :=
  [⟨0x2C080, 5, 4, .glob, [⟨0, 19, .ro, 0⟩]⟩ /- BPM.POOL_FREE -/,
   ⟨0x2C0A0, 5, 4, .glob, [⟨0, 19, .ro, 0⟩]⟩ /- BPM.POOL_SHARED -/,
   ⟨0x2C0C0, 5, 4, .glob, [⟨0, 19, .rw, 0⟩]⟩ /- BPM.LOW_WATER -/,
   ⟨0x2C0E0, 1, 4, .win, [⟨0, 6, .rw, 0⟩]⟩ /- BPM.REQ_SEL -/,
   ⟨0x2C0E4, 1, 4, .sel, [⟨0, 2, .rws, 2⟩, ⟨2, 1, .rws, 0⟩, ⟨3, 2, .rws, 0⟩]⟩ /- BPM.REQ_CFG -/,
   ⟨0x2C0F0, 5, 4, .sel, [⟨0, 19, .rws, 0⟩]⟩ /- BPM.REQ_RESERVE -/,
   ⟨0x2C110, 5, 4, .sel, [⟨0, 19, .rws, 0⟩]⟩ /- BPM.REQ_CAP -/,
   ⟨0x2C130, 5, 4, .sel, [⟨0, 19, .ro, 0⟩]⟩ /- BPM.REQ_USED -/,
   ⟨0x2C144, 1, 4, .sel, [⟨0, 32, .ro, 0⟩]⟩ /- BPM.REQ_EMPTY -/,
   ⟨0x2C150, 1, 4, .win, [⟨0, 15, .rw, 0⟩, ⟨16, 6, .rw, 0⟩, ⟨31, 1, .wo, 0⟩]⟩ /- BPM.ALLOC -/,
   ⟨0x2C154, 1, 4, .win, [⟨0, 32, .ro, 0xffffffff⟩]⟩ /- BPM.ALLOC_RESULT -/,
   ⟨0x2C158, 1, 4, .win, [⟨0, 1, .ro, 0⟩, ⟨1, 3, .ro, 0⟩]⟩ /- BPM.ALLOC_STATUS -/] ++
  [⟨0x2C164, 1, 4, .win, [⟨0, 1, .ro, 0⟩, ⟨1, 3, .ro, 0⟩]⟩ /- BPM.FREE_STATUS -/,
   ⟨0x2C15C, 1, 4, .win, [⟨0, 32, .wo, 0⟩]⟩ /- BPM.FREE_HANDLE -/,
   ⟨0x2C160, 1, 4, .win, [⟨0, 6, .rw, 0⟩]⟩ /- BPM.FREE_REQ -/,
   ⟨0x2C170, 1, 4, .win, [⟨0, 32, .rw, 0⟩]⟩ /- BPM.BUF_SEL -/,
   ⟨0x2C174, 1, 4, .win, [⟨0, 14, .rw, 0⟩, ⟨31, 1, .rw, 0⟩]⟩ /- BPM.BUF_OFFSET -/,
   ⟨0x2C178, 1, 4, .win, [⟨0, 32, .rw, 0⟩]⟩ /- BPM.BUF_DATA -/,
   ⟨0x2C180, 6, 8, .glob, [⟨0, 32, .rs, 0⟩]⟩ /- BPM.CNT_LO -/,
   ⟨0x2C184, 6, 8, .glob, [⟨0, 32, .ro, 0⟩]⟩ /- BPM.CNT_HI -/,
   ⟨0x2C1B0, 1, 4, .glob, [⟨0, 6, .wo, 0⟩]⟩ /- BPM.CNT_CLEAR -/,
   ⟨0x2C1B4, 1, 4, .glob, [⟨0, 6, .w1c, 0⟩]⟩ /- BPM.CNT_WRAP -/,
   ⟨0x2C1C0, 1, 4, .glob, [⟨0, 22, .ro, 0⟩, ⟨22, 6, .ro, 0⟩, ⟨28, 2, .ro, 0⟩, ⟨30, 1, .ro, 0⟩, ⟨31, 1, .w1c, 0⟩]⟩ /- BPM.REJECT_LOG -/]

/-- The registers of block SWC. -/
def regsSwc : List RegSpec :=
  [⟨0x2D080, 1, 4, .glob, [⟨0, 8, .rws, 0xff⟩, ⟨8, 1, .ro, 0⟩]⟩ /- SWC.CT_CFG -/,
   ⟨0x2D090, 7, 4, .glob, [⟨0, 16, .rws, 0x64⟩]⟩ /- SWC.AGE_LIMIT -/,
   ⟨0x2D0AC, 1, 4, .glob, [⟨0, 16, .rws, 0x14⟩]⟩ /- SWC.AGE_LIMIT7 -/,
   ⟨0x2D0B0, 5, 4, .glob, [⟨0, 12, .rws, 0x40⟩, ⟨12, 4, .rws, 2⟩]⟩ /- SWC.ADMIT -/,
   ⟨0x2D0C4, 3, 4, .glob, [⟨0, 12, .rws, 0x40⟩, ⟨12, 4, .rws, 0⟩]⟩ /- SWC.ADMIT5 -/,
   ⟨0x2D0D0, 1, 4, .glob, [⟨0, 19, .rws, 0x2000⟩]⟩ /- SWC.GUARD -/,
   ⟨0x2D0E0, 8, 4, .glob, [⟨0, 16, .rws, 0⟩, ⟨16, 16, .rws, 0⟩]⟩ /- SWC.ECN -/,
   ⟨0x2D100, 1, 4, .glob, [⟨0, 9, .rws, 0x108⟩, ⟨9, 3, .rws, 0⟩, ⟨12, 1, .rws, 0⟩]⟩ /- SWC.MIRROR_CFG -/,
   ⟨0x2D110, 1, 4, .win, [⟨0, 9, .rw, 0⟩, ⟨9, 3, .rw, 0⟩, ⟨12, 6, .rw, 0⟩]⟩ /- SWC.Q_SEL -/,
   ⟨0x2D114, 1, 4, .sel, [⟨0, 20, .ro, 0⟩]⟩ /- SWC.Q_DEPTH -/,
   ⟨0x2D118, 1, 4, .sel, [⟨0, 20, .ro, 0⟩]⟩ /- SWC.VOQ_DEPTH -/,
   ⟨0x2D11C, 1, 4, .sel, [⟨0, 1, .ro, 1⟩, ⟨1, 1, .ro, 0⟩, ⟨2, 6, .ro, 0⟩, ⟨8, 3, .ro, 0⟩, ⟨11, 6, .ro, 0⟩]⟩ /- SWC.Q_STATE -/] ++
  [⟨0x2D130, 1, 4, .sel, [⟨0, 8, .wo, 0⟩]⟩ /- SWC.DCNT_CLEAR -/,
   ⟨0x2D134, 1, 4, .sel, [⟨0, 8, .w1c, 0⟩]⟩ /- SWC.DCNT_WRAP -/,
   ⟨0x2D138, 1, 4, .glob, [⟨0, 8, .wo, 0⟩]⟩ /- SWC.GCNT_CLEAR -/,
   ⟨0x2D13C, 1, 4, .glob, [⟨0, 8, .w1c, 0⟩]⟩ /- SWC.GCNT_WRAP -/,
   ⟨0x2E000, 8, 8, .sel, [⟨0, 32, .rs, 0⟩]⟩ /- SWC.DCNT_LO -/,
   ⟨0x2E004, 8, 8, .sel, [⟨0, 32, .ro, 0⟩]⟩ /- SWC.DCNT_HI -/,
   ⟨0x2E080, 8, 8, .glob, [⟨0, 32, .rs, 0⟩]⟩ /- SWC.GCNT_LO -/,
   ⟨0x2E084, 8, 8, .glob, [⟨0, 32, .ro, 0⟩]⟩ /- SWC.GCNT_HI -/]

/-- The registers of block TMG. -/
def regsTmg : List RegSpec :=
  [⟨0x30080, 1, 4, .chan, [⟨0, 8, .rws, 0x14⟩, ⟨8, 16, .rws, 0⟩]⟩ /- TMG.DEST_CFG -/,
   ⟨0x30084, 1, 4, .chan, [⟨0, 8, .rws, 0x10⟩, ⟨8, 8, .rws, 0x10⟩, ⟨16, 8, .rws, 0x10⟩, ⟨24, 8, .rws, 0x10⟩]⟩ /- TMG.WEIGHT_LO -/,
   ⟨0x30088, 1, 4, .chan, [⟨0, 8, .rws, 0x10⟩]⟩ /- TMG.WEIGHT_HI -/,
   ⟨0x3008C, 1, 4, .chan, [⟨0, 3, .ro, 0⟩, ⟨3, 1, .ro, 0⟩, ⟨8, 8, .ro, 0⟩, ⟨16, 10, .ro, 0⟩]⟩ /- TMG.DEST_STATUS -/,
   ⟨0x30090, 1, 4, .chan, [⟨0, 29, .rws, 0⟩]⟩ /- TMG.PORT_RATE -/,
   ⟨0x30094, 1, 4, .chan, [⟨0, 24, .rws, 0x4000⟩]⟩ /- TMG.PORT_BURST -/,
   ⟨0x30098, 1, 4, .win, [⟨0, 3, .rw, 0⟩, ⟨3, 1, .rw, 0⟩]⟩ /- TMG.CLASS_SEL -/,
   ⟨0x3009C, 1, 4, .sel, [⟨0, 29, .rws, 0⟩]⟩ /- TMG.CLASS_RATE -/,
   ⟨0x300A0, 1, 4, .sel, [⟨0, 24, .rws, 0x4000⟩]⟩ /- TMG.CLASS_BURST -/,
   ⟨0x300A4, 1, 4, .sel, [⟨0, 14, .rws, 0⟩]⟩ /- TMG.MAX_SDU -/,
   ⟨0x300A8, 1, 4, .glob, [⟨0, 1, .rw, 0⟩]⟩ /- TMG.SHAPE_FILL -/,
   ⟨0x300AC, 1, 4, .sel, [⟨0, 32, .ro, 0⟩]⟩ /- TMG.TOKENS -/] ++
  [⟨0x300B0, 1, 4, .chan, [⟨0, 32, .rs, 0⟩]⟩ /- TMG.VTIME_LO -/,
   ⟨0x300B4, 1, 4, .chan, [⟨0, 16, .ro, 0⟩]⟩ /- TMG.VTIME_HI -/,
   ⟨0x300B8, 1, 4, .chan, [⟨0, 32, .rs, 0⟩]⟩ /- TMG.TAGS_LO -/,
   ⟨0x300BC, 1, 4, .chan, [⟨0, 16, .ro, 0⟩]⟩ /- TMG.TAGS_HI -/,
   ⟨0x300C0, 1, 4, .chan, [⟨0, 1, .rws, 0⟩, ⟨1, 1, .rws, 0⟩, ⟨2, 1, .rws, 0⟩]⟩ /- TMG.GATE_CTL -/,
   ⟨0x300C4, 1, 4, .chan, [⟨0, 32, .rws, 0⟩]⟩ /- TMG.GATE_BASE_SEC_LO -/,
   ⟨0x300C8, 1, 4, .chan, [⟨0, 16, .rws, 0⟩]⟩ /- TMG.GATE_BASE_SEC_HI -/,
   ⟨0x300CC, 1, 4, .chan, [⟨0, 30, .rws, 0⟩]⟩ /- TMG.GATE_BASE_NS -/,
   ⟨0x300D0, 1, 4, .chan, [⟨0, 30, .rws, 0xf4240⟩]⟩ /- TMG.GATE_CYCLE -/,
   ⟨0x300D4, 1, 4, .chan, [⟨0, 30, .rws, 0⟩]⟩ /- TMG.GATE_EXT -/,
   ⟨0x300D8, 1, 4, .chan, [⟨0, 9, .rws, 1⟩]⟩ /- TMG.GATE_COUNT -/,
   ⟨0x300E0, 1, 4, .win, [⟨0, 8, .rw, 0⟩, ⟨8, 1, .rw, 0⟩, ⟨31, 1, .rw, 0⟩]⟩ /- TMG.GCL_ADDR -/] ++
  [⟨0x300E4, 1, 4, .win, [⟨0, 32, .rl, 0⟩]⟩ /- TMG.GCL_DATA_LO -/,
   ⟨0x300E8, 1, 4, .win, [⟨0, 8, .rw, 0⟩]⟩ /- TMG.GCL_DATA_HI -/,
   ⟨0x300F0, 1, 4, .chan, [⟨0, 1, .ro, 0⟩, ⟨1, 1, .ro, 0⟩, ⟨2, 1, .ro, 0⟩, ⟨3, 1, .ro, 0⟩, ⟨4, 1, .w1c, 0⟩, ⟨5, 1, .w1c, 0⟩, ⟨8, 8, .ro, 0xff⟩, ⟨16, 8, .ro, 0⟩, ⟨31, 1, .wo, 0⟩]⟩ /- TMG.GATE_STATUS -/,
   ⟨0x300F4, 1, 4, .chan, [⟨0, 32, .ro, 0⟩]⟩ /- TMG.GATE_TAKEOVER_SEC -/,
   ⟨0x300F8, 1, 4, .chan, [⟨0, 30, .ro, 0⟩]⟩ /- TMG.GATE_TAKEOVER_NS -/,
   ⟨0x30100, 1, 4, .win, [⟨0, 14, .rw, 0⟩]⟩ /- TMG.METER_SEL -/,
   ⟨0x30104, 1, 4, .win, [⟨0, 8, .rw, 0⟩, ⟨8, 2, .rw, 0⟩, ⟨10, 1, .rw, 0⟩, ⟨11, 1, .rw, 0⟩, ⟨12, 1, .rw, 0⟩, ⟨13, 1, .rw, 0⟩, ⟨14, 3, .rw, 0⟩, ⟨17, 1, .rw, 0⟩, ⟨18, 14, .rw, 0⟩]⟩ /- TMG.METER_CFG -/,
   ⟨0x30108, 1, 4, .win, [⟨0, 29, .rw, 0⟩]⟩ /- TMG.METER_CIR -/,
   ⟨0x3010C, 1, 4, .win, [⟨0, 24, .rw, 0⟩]⟩ /- TMG.METER_CBS -/,
   ⟨0x30110, 1, 4, .win, [⟨0, 29, .rw, 0⟩]⟩ /- TMG.METER_EIR -/,
   ⟨0x30114, 1, 4, .win, [⟨0, 24, .rw, 0⟩]⟩ /- TMG.METER_EBS -/,
   ⟨0x30118, 1, 4, .win, [⟨0, 2, .wo, 0⟩, ⟨2, 1, .wo, 0⟩, ⟨3, 1, .wo, 0⟩, ⟨4, 1, .ro, 0⟩, ⟨5, 1, .ro, 0⟩]⟩ /- TMG.METER_OP -/] ++
  [⟨0x3011C, 1, 4, .win, [⟨0, 1, .ro, 0⟩, ⟨1, 1, .ro, 0⟩, ⟨2, 4, .ro, 0⟩]⟩ /- TMG.METER_STATE -/,
   ⟨0x30120, 1, 4, .win, [⟨0, 32, .ro, 0⟩]⟩ /- TMG.METER_CTOK -/,
   ⟨0x30124, 1, 4, .win, [⟨0, 32, .ro, 0⟩]⟩ /- TMG.METER_ETOK -/,
   ⟨0x30130, 4, 8, .win, [⟨0, 32, .ro, 0⟩]⟩ /- TMG.METER_CNT_LO -/,
   ⟨0x30134, 4, 8, .win, [⟨0, 32, .ro, 0⟩]⟩ /- TMG.METER_CNT_HI -/,
   ⟨0x30150, 1, 4, .chan, [⟨0, 4, .wo, 0⟩]⟩ /- TMG.DCNT_CLEAR -/,
   ⟨0x30154, 1, 4, .chan, [⟨0, 4, .w1c, 0⟩]⟩ /- TMG.DCNT_WRAP -/,
   ⟨0x30158, 1, 4, .glob, [⟨0, 5, .wo, 0⟩]⟩ /- TMG.GCNT_CLEAR -/,
   ⟨0x3015C, 1, 4, .glob, [⟨0, 5, .w1c, 0⟩]⟩ /- TMG.GCNT_WRAP -/,
   ⟨0x31000, 4, 8, .chan, [⟨0, 32, .rs, 0⟩]⟩ /- TMG.DCNT_LO -/,
   ⟨0x31004, 4, 8, .chan, [⟨0, 32, .ro, 0⟩]⟩ /- TMG.DCNT_HI -/,
   ⟨0x31080, 5, 8, .glob, [⟨0, 32, .rs, 0⟩]⟩ /- TMG.GCNT_LO -/] ++
  [⟨0x31084, 5, 8, .glob, [⟨0, 32, .ro, 0⟩]⟩ /- TMG.GCNT_HI -/]

/-- The registers of block TIM. -/
def regsTim : List RegSpec :=
  [⟨0x34080, 1, 4, .glob, [⟨0, 1, .rws, 0⟩, ⟨1, 1, .rws, 1⟩]⟩ /- TIM.CLK_CFG -/,
   ⟨0x34084, 1, 4, .glob, [⟨0, 1, .ro, 0⟩, ⟨1, 1, .ro, 0⟩, ⟨2, 1, .ro, 0⟩, ⟨3, 1, .ro, 0⟩, ⟨4, 1, .ro, 0⟩, ⟨5, 1, .ro, 0⟩, ⟨16, 16, .ro, 0⟩]⟩ /- TIM.STATUS -/,
   ⟨0x34088, 1, 4, .win, [⟨0, 32, .rs, 0⟩]⟩ /- TIM.TIME_SEC_LO -/,
   ⟨0x3408C, 1, 4, .win, [⟨0, 32, .ro, 0⟩]⟩ /- TIM.TIME_SEC_HI -/,
   ⟨0x34090, 1, 4, .win, [⟨0, 30, .ro, 0⟩]⟩ /- TIM.TIME_NS -/,
   ⟨0x34094, 1, 4, .win, [⟨0, 16, .ro, 0⟩]⟩ /- TIM.TIME_FRAC -/,
   ⟨0x34098, 1, 4, .win, [⟨0, 32, .ro, 0⟩]⟩ /- TIM.RAW_LO -/,
   ⟨0x3409C, 1, 4, .win, [⟨0, 32, .ro, 0⟩]⟩ /- TIM.RAW_HI -/,
   ⟨0x340A0, 1, 4, .win, [⟨0, 32, .rw, 0⟩]⟩ /- TIM.STEP_SEC_LO -/,
   ⟨0x340A4, 1, 4, .win, [⟨0, 16, .rw, 0⟩]⟩ /- TIM.STEP_SEC_HI -/,
   ⟨0x340A8, 1, 4, .win, [⟨0, 30, .rw, 0⟩]⟩ /- TIM.STEP_NS -/,
   ⟨0x340AC, 1, 4, .win, [⟨0, 16, .rw, 0⟩]⟩ /- TIM.STEP_FRAC -/] ++
  [⟨0x340B0, 1, 4, .win, [⟨0, 1, .wo, 0⟩, ⟨1, 1, .rw, 0⟩, ⟨2, 1, .rw, 0⟩, ⟨8, 1, .ro, 0⟩]⟩ /- TIM.STEP_CTL -/,
   ⟨0x340B4, 1, 4, .glob, [⟨0, 32, .rw, 0⟩]⟩ /- TIM.RATE -/,
   ⟨0x340B8, 1, 4, .glob, [⟨0, 2, .rws, 0⟩, ⟨2, 1, .rws, 1⟩]⟩ /- TIM.SERVO_CFG -/,
   ⟨0x340BC, 1, 4, .glob, [⟨0, 16, .rws, 0xb3⟩, ⟨16, 16, .rws, 0x4d⟩]⟩ /- TIM.SERVO_GAIN -/,
   ⟨0x340C0, 1, 4, .glob, [⟨0, 32, .rws, 0x4e20⟩]⟩ /- TIM.SERVO_STEP -/,
   ⟨0x340C4, 1, 4, .glob, [⟨0, 10, .rws, 0xc8⟩]⟩ /- TIM.SERVO_LIMIT -/,
   ⟨0x340C8, 1, 4, .glob, [⟨0, 16, .rws, 0x64⟩, ⟨16, 8, .rws, 8⟩, ⟨24, 8, .rws, 0x1e⟩]⟩ /- TIM.SERVO_LOCK -/,
   ⟨0x340CC, 1, 4, .win, [⟨0, 16, .rw, 0⟩, ⟨16, 16, .rw, 0⟩]⟩ /- TIM.SERVO_SAMPLE_LO -/,
   ⟨0x340D0, 1, 4, .win, [⟨0, 32, .rw, 0⟩]⟩ /- TIM.SERVO_SAMPLE_HI -/,
   ⟨0x340D4, 1, 4, .glob, [⟨0, 32, .ro, 0⟩]⟩ /- TIM.SERVO_STATUS -/,
   ⟨0x340D8, 1, 4, .glob, [⟨0, 16, .ro, 0⟩, ⟨16, 16, .ro, 0⟩]⟩ /- TIM.SERVO_COUNT -/,
   ⟨0x340DC, 1, 4, .glob, [⟨0, 32, .ro, 0⟩]⟩ /- TIM.SERVO_INTEGRAL -/] ++
  [⟨0x340E0, 1, 4, .glob, [⟨0, 20, .rws, 0x186a0⟩, ⟨20, 1, .rws, 0⟩]⟩ /- TIM.PPS_OUT_CFG -/,
   ⟨0x340E4, 1, 4, .glob, [⟨0, 32, .rws, 0⟩]⟩ /- TIM.PPS_OUT_OFFSET -/,
   ⟨0x340E8, 1, 4, .glob, [⟨0, 32, .rws, 0⟩]⟩ /- TIM.PPS_IN_CFG -/,
   ⟨0x340EC, 1, 4, .glob, [⟨0, 32, .rs, 0⟩]⟩ /- TIM.PPS_IN_TS_SEC -/,
   ⟨0x340F0, 1, 4, .glob, [⟨0, 30, .ro, 0⟩, ⟨31, 1, .ro, 0⟩]⟩ /- TIM.PPS_IN_TS_NS -/,
   ⟨0x34100, 2, 4, .glob, [⟨0, 1, .rws, 0⟩, ⟨1, 8, .rws, 0⟩, ⟨9, 2, .rws, 0⟩]⟩ /- TIM.SYNCE_CFG -/,
   ⟨0x35000, 1, 4, .chan, [⟨0, 2, .rw, 0⟩, ⟨2, 1, .rw, 0⟩, ⟨3, 1, .rw, 0⟩]⟩ /- TIM.TRIG_CFG -/,
   ⟨0x35004, 1, 4, .chan, [⟨0, 32, .rw, 0⟩]⟩ /- TIM.TRIG_START_SEC_LO -/,
   ⟨0x35008, 1, 4, .chan, [⟨0, 16, .rw, 0⟩]⟩ /- TIM.TRIG_START_SEC_HI -/,
   ⟨0x3500C, 1, 4, .chan, [⟨0, 30, .rw, 0⟩]⟩ /- TIM.TRIG_START_NS -/,
   ⟨0x35010, 1, 4, .chan, [⟨0, 32, .rw, 0x3b9aca00⟩]⟩ /- TIM.TRIG_PERIOD_NS -/,
   ⟨0x35014, 1, 4, .chan, [⟨0, 16, .rw, 0⟩, ⟨16, 16, .rw, 1⟩]⟩ /- TIM.TRIG_PERIOD_FRAC -/] ++
  [⟨0x35018, 1, 4, .chan, [⟨0, 30, .rw, 0x3e8⟩]⟩ /- TIM.TRIG_WIDTH_NS -/,
   ⟨0x3501C, 1, 4, .chan, [⟨0, 1, .wo, 0⟩, ⟨1, 1, .wo, 0⟩, ⟨8, 1, .ro, 0⟩, ⟨9, 1, .w1c, 0⟩, ⟨10, 1, .w1c, 0⟩, ⟨11, 1, .w1c, 0⟩, ⟨16, 16, .ro, 0⟩]⟩ /- TIM.TRIG_CTL -/,
   ⟨0x35020, 1, 4, .chan, [⟨0, 32, .ro, 0⟩]⟩ /- TIM.TRIG_EDGES -/,
   ⟨0x35040, 1, 4, .chan, [⟨0, 2, .rw, 1⟩, ⟨2, 16, .rw, 0⟩, ⟨18, 14, .rw, 0⟩]⟩ /- TIM.CAPT_CFG -/,
   ⟨0x35044, 1, 4, .chan, [⟨0, 32, .rs, 0⟩]⟩ /- TIM.CAPT_SEC_LO -/,
   ⟨0x35048, 1, 4, .chan, [⟨0, 32, .ro, 0⟩]⟩ /- TIM.CAPT_SEC_HI -/,
   ⟨0x3504C, 1, 4, .chan, [⟨0, 30, .ro, 0⟩]⟩ /- TIM.CAPT_NS -/,
   ⟨0x35050, 1, 4, .chan, [⟨0, 32, .ro, 0⟩]⟩ /- TIM.CAPT_INFO -/,
   ⟨0x35054, 1, 4, .chan, [⟨0, 1, .ro, 0⟩, ⟨1, 1, .ro, 0⟩, ⟨2, 1, .w1c, 0⟩, ⟨3, 7, .ro, 0⟩, ⟨16, 16, .ro, 0⟩]⟩ /- TIM.CAPT_STATUS -/,
   ⟨0x35058, 1, 4, .chan, [⟨0, 32, .ro, 0⟩]⟩ /- TIM.CAPT_DEAD -/]

/-- The registers of block TSU. -/
def regsTsu : List RegSpec :=
  [⟨0x36080, 1, 4, .chan, [⟨0, 2, .rws, 0⟩, ⟨2, 1, .rws, 0⟩, ⟨3, 1, .rws, 0⟩, ⟨4, 1, .rws, 0⟩]⟩ /- TSU.TS_CFG -/,
   ⟨0x36084, 1, 4, .chan, [⟨0, 16, .rws, 0⟩]⟩ /- TSU.ASYM_LO -/,
   ⟨0x36088, 1, 4, .chan, [⟨0, 32, .rws, 0⟩]⟩ /- TSU.ASYM_HI -/,
   ⟨0x3608C, 1, 4, .chan, [⟨0, 16, .rws, 0⟩]⟩ /- TSU.LINK_DELAY_LO -/,
   ⟨0x36090, 1, 4, .chan, [⟨0, 32, .rws, 0⟩]⟩ /- TSU.LINK_DELAY_HI -/,
   ⟨0x36094, 1, 4, .chan, [⟨0, 32, .rs, 0⟩]⟩ /- TSU.TX_SEC_LO -/,
   ⟨0x36098, 1, 4, .chan, [⟨0, 32, .ro, 0⟩]⟩ /- TSU.TX_SEC_HI -/,
   ⟨0x3609C, 1, 4, .chan, [⟨0, 30, .ro, 0⟩]⟩ /- TSU.TX_NS -/,
   ⟨0x360A0, 1, 4, .chan, [⟨0, 32, .ro, 0⟩]⟩ /- TSU.TX_INFO -/,
   ⟨0x360A4, 1, 4, .chan, [⟨0, 32, .ro, 0⟩]⟩ /- TSU.TX_ID -/,
   ⟨0x360B0, 1, 4, .chan, [⟨0, 5, .wo, 0⟩]⟩ /- TSU.CNT_CLEAR -/,
   ⟨0x360B4, 1, 4, .chan, [⟨0, 5, .w1c, 0⟩]⟩ /- TSU.CNT_WRAP -/] ++
  [⟨0x360C0, 5, 8, .chan, [⟨0, 32, .rs, 0⟩]⟩ /- TSU.CNT_LO -/,
   ⟨0x360C4, 5, 8, .chan, [⟨0, 32, .ro, 0⟩]⟩ /- TSU.CNT_HI -/]

/-- The registers of block TMK. -/
def regsTmk : List RegSpec :=
  [⟨0x38080, 1, 4, .glob, [⟨0, 24, .ro, 0⟩, ⟨24, 1, .ro, 0⟩]⟩ /- TMK.STATE -/,
   ⟨0x38084, 1, 4, .glob, [⟨0, 32, .rs, 0⟩]⟩ /- TMK.OP_TIME_LO -/,
   ⟨0x38088, 1, 4, .glob, [⟨0, 16, .ro, 0⟩]⟩ /- TMK.OP_TIME_HI -/,
   ⟨0x3808C, 1, 4, .glob, [⟨0, 32, .ro, 0⟩]⟩ /- TMK.SEQ_NEXT -/,
   ⟨0x38090, 1, 4, .glob, [⟨0, 32, .rw, 0⟩]⟩ /- TMK.FLUSH_SEQ -/,
   ⟨0x38094, 1, 4, .glob, [⟨0, 8, .rws, 8⟩, ⟨8, 8, .rws, 0xa⟩, ⟨16, 8, .rws, 0x40⟩, ⟨24, 8, .rws, 0xa⟩]⟩ /- TMK.LIMIT_CFG -/,
   ⟨0x38098, 1, 4, .glob, [⟨0, 8, .rws, 0x3c⟩]⟩ /- TMK.CHECKPOINT -/,
   ⟨0x3809C, 1, 4, .glob, [⟨0, 9, .ro, 0x190⟩, ⟨16, 7, .ro, 0⟩]⟩ /- TMK.TOKENS -/,
   ⟨0x380A0, 1, 4, .win, [⟨0, 16, .rw, 0⟩, ⟨31, 1, .rw, 0⟩]⟩ /- TMK.RING_ADDR -/,
   ⟨0x380A4, 1, 4, .win, [⟨0, 32, .ro, 0⟩]⟩ /- TMK.RING_DATA -/,
   ⟨0x380A8, 1, 4, .win, [⟨0, 16, .rw, 0⟩, ⟨16, 3, .rw, 0⟩, ⟨24, 8, .rw, 0⟩]⟩ /- TMK.WR_HDR -/,
   ⟨0x380AC, 1, 4, .win, [⟨0, 10, .rw, 0⟩, ⟨10, 1, .rw, 0⟩]⟩ /- TMK.WR_CHAN -/] ++
  [⟨0x380B0, 4, 4, .win, [⟨0, 32, .rw, 0⟩]⟩ /- TMK.WR_PAYLOAD -/,
   ⟨0x380C0, 1, 4, .win, [⟨0, 1, .wo, 0⟩, ⟨1, 1, .ro, 0⟩, ⟨2, 2, .ro, 0⟩]⟩ /- TMK.WR_CTL -/,
   ⟨0x380C4, 5, 4, .glob, [⟨0, 32, .ro, 0⟩]⟩ /- TMK.STAT -/,
   ⟨0x380D8, 1, 4, .glob, [⟨0, 5, .wo, 0⟩]⟩ /- TMK.STAT_CLEAR -/,
   ⟨0x380E0, 1, 4, .glob, [⟨0, 8, .wo, 0⟩, ⟨8, 1, .wo, 0⟩, ⟨16, 9, .ro, 0⟩]⟩ /- TMK.FLASH_REPORT -/,
   ⟨0x380F0, 1, 4, .win, [⟨0, 16, .rw, 0⟩, ⟨31, 1, .rw, 0⟩]⟩ /- TMK.MESH_ADDR -/,
   ⟨0x380F4, 1, 4, .win, [⟨0, 32, .ro, 0⟩]⟩ /- TMK.MESH_DATA -/,
   ⟨0x380F8, 1, 4, .glob, [⟨0, 32, .ro, 0⟩]⟩ /- TMK.MESH_HEAD -/,
   ⟨0x38200, 48, 4, .glob, [⟨0, 32, .rw, 0⟩]⟩ /- TMK.REC_EN -/]

/-- The registers of block PCN. -/
def regsPcn : List RegSpec :=
  [⟨0x39080, 1, 4, .win, [⟨0, 11, .rw, 0⟩, ⟨15, 1, .rw, 0⟩]⟩ /- PCN.CNT_SEL -/,
   ⟨0x39084, 1, 4, .sel, [⟨0, 3, .rws, 1⟩, ⟨4, 16, .rws, 0⟩]⟩ /- PCN.CNT_CFG -/,
   ⟨0x39088, 1, 4, .sel, [⟨0, 32, .rs, 0⟩]⟩ /- PCN.CNT_LO -/,
   ⟨0x3908C, 1, 4, .sel, [⟨0, 32, .ro, 0⟩]⟩ /- PCN.CNT_HI -/,
   ⟨0x39090, 1, 4, .sel, [⟨0, 1, .w1c, 0⟩]⟩ /- PCN.CNT_STATUS -/,
   ⟨0x39094, 1, 4, .win, [⟨0, 32, .rw, 0⟩]⟩ /- PCN.SET_LO -/,
   ⟨0x39098, 1, 4, .win, [⟨0, 32, .rw, 0⟩]⟩ /- PCN.SET_HI -/,
   ⟨0x3909C, 1, 4, .win, [⟨0, 1, .wo, 0⟩, ⟨1, 1, .wo, 0⟩]⟩ /- PCN.CNT_CTL -/,
   ⟨0x390A0, 1, 4, .win, [⟨0, 1, .wo, 0⟩, ⟨1, 1, .ro, 0⟩]⟩ /- PCN.FREEZE -/,
   ⟨0x3A000, 1, 4, .win, [⟨0, 6, .rw, 0⟩, ⟨8, 6, .rw, 0⟩]⟩ /- PCN.HIST_SEL -/,
   ⟨0x3A004, 1, 4, .sel, [⟨0, 3, .rws, 0⟩, ⟨4, 4, .rws, 0⟩, ⟨8, 8, .rws, 0xff⟩, ⟨16, 9, .rws, 0x1ff⟩]⟩ /- PCN.HIST_CFG -/,
   ⟨0x3A008, 1, 4, .win, [⟨0, 1, .wo, 0⟩, ⟨1, 1, .wo, 0⟩, ⟨2, 1, .ro, 0⟩]⟩ /- PCN.HIST_SNAP -/] ++
  [⟨0x3A00C, 1, 4, .win, [⟨0, 32, .ro, 0⟩]⟩ /- PCN.HIST_BIN_LO -/,
   ⟨0x3A010, 1, 4, .win, [⟨0, 32, .ro, 0⟩]⟩ /- PCN.HIST_BIN_HI -/,
   ⟨0x3A014, 1, 4, .win, [⟨0, 32, .ro, 0⟩]⟩ /- PCN.HIST_SUM_LO -/,
   ⟨0x3A018, 1, 4, .win, [⟨0, 32, .ro, 0⟩]⟩ /- PCN.HIST_SUM_HI -/,
   ⟨0x3A01C, 1, 4, .win, [⟨0, 32, .ro, 0⟩]⟩ /- PCN.HIST_MAX -/,
   ⟨0x3A020, 1, 4, .win, [⟨0, 1, .w1c, 0⟩, ⟨1, 1, .ro, 0⟩]⟩ /- PCN.HIST_STATUS -/]

/-- The registers of block HIF. -/
def regsHif : List RegSpec :=
  [⟨0x3C100, 2, 32, .glob, [⟨0, 32, .rw, 0⟩]⟩ /- HIF.MBOX_BASE_LO -/,
   ⟨0x3C104, 2, 32, .glob, [⟨0, 32, .rw, 0⟩]⟩ /- HIF.MBOX_BASE_HI -/,
   ⟨0x3C108, 2, 32, .glob, [⟨0, 4, .rw, 4⟩, ⟨4, 1, .rw, 0⟩]⟩ /- HIF.MBOX_CFG -/,
   ⟨0x3C10C, 2, 32, .glob, [⟨0, 11, .rw, 0⟩]⟩ /- HIF.MBOX_PROD -/,
   ⟨0x3C110, 2, 32, .glob, [⟨0, 11, .ro, 0⟩]⟩ /- HIF.MBOX_CONS -/,
   ⟨0x3C114, 2, 32, .glob, [⟨0, 1, .ro, 0⟩, ⟨1, 1, .ro, 0⟩, ⟨2, 1, .w1c, 0⟩]⟩ /- HIF.MBOX_STATUS -/]

/-- The registers of block MIO. -/
def regsMio : List RegSpec :=
  [⟨0x3D080, 1, 4, .glob, [⟨0, 32, .rw, 0⟩]⟩ /- MIO.GPIO_DIR -/,
   ⟨0x3D084, 1, 4, .glob, [⟨0, 32, .rw, 0⟩]⟩ /- MIO.GPIO_OUT -/,
   ⟨0x3D088, 1, 4, .glob, [⟨0, 32, .ro, 0⟩]⟩ /- MIO.GPIO_IN -/,
   ⟨0x3D08C, 1, 4, .glob, [⟨0, 32, .w1c, 0⟩]⟩ /- MIO.GPIO_EDGE -/,
   ⟨0x3D090, 1, 4, .glob, [⟨0, 32, .rw, 0⟩]⟩ /- MIO.GPIO_EDGE_EN -/,
   ⟨0x3D094, 1, 4, .glob, [⟨0, 8, .rw, 5⟩]⟩ /- MIO.GPIO_FILTER -/,
   ⟨0x3D0A0, 1, 4, .glob, [⟨0, 2, .rw, 2⟩, ⟨2, 3, .rw, 2⟩]⟩ /- MIO.QSPI_CFG -/,
   ⟨0x3D0A4, 1, 4, .glob, [⟨0, 22, .rw, 0x1c200⟩]⟩ /- MIO.UART_CFG -/,
   ⟨0x3D0B0, 2, 16, .glob, [⟨0, 1, .rw, 0⟩, ⟨8, 8, .rw, 0x19⟩]⟩ /- MIO.I2C_CFG -/,
   ⟨0x3D0B4, 2, 16, .glob, [⟨0, 7, .rw, 0⟩, ⟨7, 1, .rw, 0⟩, ⟨8, 3, .rw, 1⟩, ⟨16, 1, .wo, 0⟩, ⟨17, 1, .ro, 0⟩, ⟨18, 2, .ro, 0⟩]⟩ /- MIO.I2C_CMD -/,
   ⟨0x3D0B8, 2, 16, .glob, [⟨0, 32, .rw, 0⟩]⟩ /- MIO.I2C_DATA -/,
   ⟨0x3D0D0, 1, 4, .glob, [⟨0, 2, .rw, 0⟩, ⟨2, 1, .rw, 0⟩]⟩ /- MIO.MDIO_CFG -/] ++
  [⟨0x3D0D4, 1, 4, .glob, [⟨0, 5, .rw, 0⟩, ⟨5, 5, .rw, 0⟩, ⟨10, 2, .rw, 0⟩, ⟨12, 1, .rw, 0⟩, ⟨16, 1, .wo, 0⟩, ⟨17, 1, .ro, 0⟩, ⟨18, 1, .ro, 0⟩]⟩ /- MIO.MDIO_CMD -/,
   ⟨0x3D0D8, 1, 4, .glob, [⟨0, 16, .rw, 0⟩]⟩ /- MIO.MDIO_DATA -/,
   ⟨0x3D100, 8, 4, .glob, [⟨0, 9, .ro, 0⟩]⟩ /- MIO.TEMP -/,
   ⟨0x3D120, 1, 4, .glob, [⟨0, 9, .ro, 0⟩, ⟨9, 3, .ro, 0⟩, ⟨16, 9, .ro, 0⟩]⟩ /- MIO.TEMP_MAX -/,
   ⟨0x3D124, 1, 4, .glob, [⟨0, 8, .rw, 0x69⟩, ⟨8, 8, .ro, 0x73⟩]⟩ /- MIO.THERM_CFG -/]

/-- The registers of block SCR. -/
def regsScr : List RegSpec :=
  [⟨0x3E080, 1, 4, .win, [⟨0, 4, .rw, 0⟩]⟩ /- SCR.STORE_SEL -/,
   ⟨0x3E084, 1, 4, .sel, [⟨0, 16, .ro, 0⟩, ⟨16, 16, .ro, 0⟩]⟩ /- SCR.SCRUB_STATUS -/,
   ⟨0x3E088, 1, 4, .sel, [⟨0, 32, .ro, 0⟩]⟩ /- SCR.ECC_CORR -/,
   ⟨0x3E08C, 1, 4, .sel, [⟨0, 32, .ro, 0⟩]⟩ /- SCR.ECC_UNCORR -/,
   ⟨0x3E090, 1, 4, .glob, [⟨0, 32, .ro, 0⟩]⟩ /- SCR.ERR_LOG_LO -/,
   ⟨0x3E094, 1, 4, .glob, [⟨0, 4, .ro, 0⟩, ⟨4, 4, .ro, 0⟩, ⟨8, 1, .ro, 0⟩, ⟨31, 1, .w1c, 0⟩]⟩ /- SCR.ERR_LOG_HI -/,
   ⟨0x3E098, 1, 4, .glob, [⟨0, 32, .rws, 0⟩]⟩ /- SCR.RECOVER_LO -/,
   ⟨0x3E09C, 1, 4, .glob, [⟨0, 32, .rws, 0⟩]⟩ /- SCR.RECOVER_HI -/,
   ⟨0x3E0A0, 1, 4, .glob, [⟨0, 16, .ro, 0⟩, ⟨16, 16, .ro, 0⟩]⟩ /- SCR.RECOVER_COUNT -/,
   ⟨0x3E0B0, 5, 4, .glob, [⟨0, 9, .ro, 0⟩]⟩ /- SCR.RETIRED -/]

end Sys2Proof.Machine
end

