-- ==== Sys2Proof/Machine/Sources.lean ====
section
/-! DEFINITION. The event sources of every block (R125, and the source tables R84, R104, R133, R159, R185, R223, R224, R251,
R252, R284, R291, R292, R317, R328, R356, R422, R423, R448, R479, R480, R515, R532, R534, R556 to R558, R585, R586, R609):
source s is bit s mod 32 of cause register s div 32. -/

namespace Sys2Proof.Machine

/-- One event source: cause register g and bit (R125). -/
structure Src where
  g : Nat
  b : Nat
  deriving DecidableEq, Repr

/-- The number of a source (R125). -/
def Src.num (e : Src) : Nat := 32 * e.g + e.b

def sysStrapChanged : Src := ⟨0, 0⟩
def evtAccessError : Src := ⟨1, 0⟩
def evtChanSelRefused : Src := ⟨1, 1⟩
def evtOwnerDenied : Src := ⟨1, 2⟩
def evtAutoMaskSet : Src := ⟨1, 3⟩
def evtAutoMaskCleared : Src := ⟨1, 4⟩
def evtBlockFault : Src := ⟨1, 5⟩
def evtDrainForced : Src := ⟨1, 6⟩
def evtMsixDisabled : Src := ⟨1, 7⟩
def hmkImageRefused : Src := ⟨2, 0⟩
def hmkBootFallback : Src := ⟨2, 1⟩
def hmkKeyEnrolled : Src := ⟨2, 2⟩
def hmkKeyRevoked : Src := ⟨2, 3⟩
def hmkRollbackAdvanced : Src := ⟨2, 4⟩
def hmkFuseError : Src := ⟨2, 5⟩
def bncBenchReady : Src := ⟨3, 0⟩
def bncHandoverDone : Src := ⟨3, 1⟩
def bncHandoverFailed : Src := ⟨3, 2⟩
def bncQueueFull : Src := ⟨3, 3⟩
def bncWdogWarning : Src := ⟨3, 4⟩
def bncBenchStopped : Src := ⟨3, 5⟩
def pwrPaceMargin : Src := ⟨4, 0⟩
def pwrPaceRestored : Src := ⟨4, 1⟩
def pwrPaceNegative : Src := ⟨4, 2⟩
def pwrAvsBusError : Src := ⟨4, 3⟩
def pwrAvsAtCeiling : Src := ⟨4, 4⟩
def pwrRefclkSysLost : Src := ⟨4, 5⟩
def pwrRefclkSysRestored : Src := ⟨4, 6⟩
def pwrRefclkLaneLost (i : Nat) : Src := ⟨4, 7 + i⟩
def pwrRefclkLaneRestored (i : Nat) : Src := ⟨4, 11 + i⟩
def pwrRampSlow : Src := ⟨4, 15⟩
def cfgHeldEntered : Src := ⟨5, 0⟩
def cfgReadyForConfig : Src := ⟨5, 1⟩
def cfgStartComplete : Src := ⟨5, 2⟩
def cfgStepOverrun : Src := ⟨5, 3⟩
def cfgConfigSlotFallback : Src := ⟨5, 4⟩
def cfgCommitRefused : Src := ⟨5, 5⟩
def cfgLoadBusy : Src := ⟨5, 6⟩
def cfgLoadAborted : Src := ⟨5, 7⟩
def cfgRunLoadComplete : Src := ⟨5, 8⟩
def rstWarmIgnored : Src := ⟨6, 0⟩
def rstBlockResetDone : Src := ⟨6, 1⟩
def lanSignalLost : Src := ⟨7, 0⟩
def lanSignalRestored : Src := ⟨7, 1⟩
def lanLinkUp : Src := ⟨7, 2⟩
def lanLinkDown : Src := ⟨7, 3⟩
def lanSdGlitch : Src := ⟨7, 4⟩
def lanAnComplete : Src := ⟨8, 0⟩
def lanAnNoHcd : Src := ⟨8, 1⟩
def lanTrainComplete : Src := ⟨8, 2⟩
def lanTrainFail : Src := ⟨8, 3⟩
def lanCoeffLimit : Src := ⟨8, 4⟩
def lanTieDetectWait : Src := ⟨9, 0⟩
def lanCommaLock : Src := ⟨9, 1⟩
def lanCommaLockLost : Src := ⟨9, 2⟩
def lanDeskewFail : Src := ⟨9, 3⟩
def lanTieActive : Src := ⟨9, 4⟩
def lanSnrLow : Src := ⟨10, 0⟩
def lanAdaptLimit : Src := ⟨10, 1⟩
def lanCalFail : Src := ⟨10, 2⟩
def lanPllUnlock : Src := ⟨10, 3⟩
def lanEyeDone : Src := ⟨10, 4⟩
def lanPatLock : Src := ⟨11, 0⟩
def lanPatLockLost : Src := ⟨11, 1⟩
def lanPatWrap : Src := ⟨11, 2⟩
def prtPcsFault : Src := ⟨12, 0⟩
def prtLinkUp : Src := ⟨12, 1⟩
def prtLinkDown : Src := ⟨12, 2⟩
def prtRemoteFault : Src := ⟨12, 3⟩
def prtFlapSuppressed : Src := ⟨12, 4⟩
def prtFlapReleased : Src := ⟨12, 5⟩
def prtFcsErr : Src := ⟨13, 0⟩
def prtOversize : Src := ⟨13, 1⟩
def prtUndersize : Src := ⟨13, 2⟩
def prtCoreOverrun : Src := ⟨13, 3⟩
def prtMacCtrlDrop : Src := ⟨13, 4⟩
def prtFecUncorrected : Src := ⟨14, 0⟩
def prtFecMismatch : Src := ⟨14, 1⟩
def prtRedOversize : Src := ⟨15, 0⟩
def prtCntWrap : Src := ⟨16, 0⟩
def tieLinkActive : Src := ⟨17, 0⟩
def tieLinkLost : Src := ⟨17, 1⟩
def tieCapRefused : Src := ⟨17, 2⟩
def tiePeerLost : Src := ⟨17, 3⟩
def tieFecUncorrected : Src := ⟨17, 4⟩
def tieResendFail : Src := ⟨17, 5⟩
def tieCntWrap : Src := ⟨17, 6⟩
def tieBecameManager : Src := ⟨18, 0⟩
def tieBecameStandby : Src := ⟨18, 1⟩
def tieManagerLost : Src := ⟨18, 2⟩
def tieManagerLinkLost : Src := ⟨18, 3⟩
def tieDeviceAbsent : Src := ⟨18, 4⟩
def tieOwnerMoved : Src := ⟨18, 5⟩
def tieStaleEpoch : Src := ⟨18, 6⟩
def tieSysCommitDone : Src := ⟨18, 7⟩
def tieSysCommitRefused : Src := ⟨18, 8⟩
def tieDupManager : Src := ⟨18, 9⟩
def tieVersionUnknown : Src := ⟨18, 10⟩
def tieTieLoop : Src := ⟨18, 11⟩
def tieOwnerUnreachable : Src := ⟨18, 12⟩
def tieGcntWrap : Src := ⟨18, 13⟩
def tieOwnerMoveAborted : Src := ⟨18, 14⟩
def prsExcClass (i : Nat) : Src := ⟨19, 0 + i⟩
def prsProfileOffDrop : Src := ⟨19, 8⟩
def prsCntWrap : Src := ⟨19, 9⟩
def clsVersionCommitted : Src := ⟨20, 0⟩
def clsVersionFreed : Src := ⟨20, 1⟩
def clsDrainOverrun : Src := ⟨20, 2⟩
def clsStageRefused : Src := ⟨20, 3⟩
def clsIndRefused : Src := ⟨20, 4⟩
def clsIndRewritten : Src := ⟨20, 5⟩
def clsRecircLimit : Src := ⟨21, 0⟩
def clsForcedFree : Src := ⟨21, 1⟩
def l2tTableFull : Src := ⟨22, 0⟩
def l2tLimitReached : Src := ⟨22, 1⟩
def l2tUpdateQueueFull : Src := ⟨22, 2⟩
def l2tStaticMove : Src := ⟨22, 3⟩
def l2tSecureViolation : Src := ⟨22, 4⟩
def lpmNhInvalid : Src := ⟨23, 0⟩
def lpmTrieError : Src := ⟨23, 1⟩
def lpmTtlExpired : Src := ⟨23, 2⟩
def fltCreateFull : Src := ⟨24, 0⟩
def fltCreateNoRecord : Src := ⟨24, 1⟩
def fltRecordPoisoned : Src := ⟨24, 2⟩
def fltBucketPoisoned : Src := ⟨24, 3⟩
def fltBucketError : Src := ⟨24, 4⟩
def fltExportWaiting : Src := ⟨24, 5⟩
def fltExportLost : Src := ⟨24, 6⟩
def fltRetireDeferred : Src := ⟨24, 7⟩
def fltCmdDone : Src := ⟨24, 8⟩
def fltCmdError : Src := ⟨24, 9⟩
def fltCntWrap : Src := ⟨24, 10⟩
def fltExpError : Src := ⟨24, 11⟩
def fltScanOverrun : Src := ⟨25, 0⟩
def fltPoolLow : Src := ⟨25, 1⟩
def fltOvfHigh : Src := ⟨25, 2⟩
def fchEccCorrected : Src := ⟨26, 0⟩
def fchEccUncorrectable : Src := ⟨26, 1⟩
def fchSetStall : Src := ⟨26, 2⟩
def fchCntWrap : Src := ⟨26, 3⟩
def hbmEccCorrected : Src := ⟨27, 0⟩
def hbmEccUncorrectable : Src := ⟨27, 1⟩
def hbmTempHigh : Src := ⟨27, 2⟩
def hbmMarginUsed : Src := ⟨28, 0⟩
def hbmRefresh2x : Src := ⟨28, 1⟩
def dspBackPressure : Src := ⟨29, 0⟩
def dspTagFull : Src := ⟨29, 1⟩
def dspChainFull : Src := ⟨29, 2⟩
def dspReadyHigh : Src := ⟨29, 3⟩
def dspCancelledAge : Src := ⟨29, 4⟩
def dspClusterOff : Src := ⟨29, 5⟩
def dspTransferred : Src := ⟨29, 6⟩
def dspCntWrap : Src := ⟨29, 7⟩
def dspPrefetchReturned : Src := ⟨29, 8⟩
def dspFenceOpened : Src := ⟨30, 0⟩
def dspFenceClosed : Src := ⟨30, 1⟩
def dspFenceOverrun : Src := ⟨30, 2⟩
def dspClusterReturned : Src := ⟨30, 3⟩
def dspNoCluster : Src := ⟨30, 4⟩
def dspRewriteDone : Src := ⟨30, 5⟩
def fenRunaway : Src := ⟨31, 0⟩
def fenWindowFault : Src := ⟨31, 1⟩
def fenStackFault : Src := ⟨31, 2⟩
def fenLengthFault : Src := ⟨31, 3⟩
def fenDestFault : Src := ⟨31, 4⟩
def fenProgInvalid : Src := ⟨31, 5⟩
def fenGenDrop : Src := ⟨31, 6⟩
def fenCntWrap : Src := ⟨31, 7⟩
def fenMcAbandon : Src := ⟨32, 0⟩
def fenMcDrop : Src := ⟨32, 1⟩
def mcsMcReload : Src := ⟨33, 0⟩
def mcsClusterOut : Src := ⟨33, 1⟩
def mcsGoldenMismatch : Src := ⟨33, 2⟩
def mcsBankSwitched : Src := ⟨33, 3⟩
def mcsGoldenUnreadable : Src := ⟨33, 4⟩
def bpmDoubleFree : Src := ⟨34, 0⟩
def bpmForeignFree : Src := ⟨34, 1⟩
def bpmBadHandle : Src := ⟨34, 2⟩
def bpmPoolLow (i : Nat) : Src := ⟨34, 3 + i⟩
def bpmAllocEmpty : Src := ⟨34, 8⟩
def bpmCntWrap : Src := ⟨34, 9⟩
def swcBufferDrop : Src := ⟨35, 0⟩
def swcGuardActive : Src := ⟨35, 1⟩
def swcAgeDrop : Src := ⟨35, 2⟩
def swcCtUnderrun : Src := ⟨35, 3⟩
def swcMirrorDrop : Src := ⟨35, 4⟩
def swcHostDrop : Src := ⟨35, 5⟩
def swcDestOffDrop : Src := ⟨35, 6⟩
def swcCntWrap : Src := ⟨35, 7⟩
def swcEcnOnset : Src := ⟨36, 0⟩
def swcTailDrop : Src := ⟨36, 1⟩
def tmgSduDrop : Src := ⟨37, 0⟩
def tmgTxOverrun : Src := ⟨37, 1⟩
def tmgGateTakeover : Src := ⟨37, 2⟩
def tmgTakeoverLate : Src := ⟨37, 3⟩
def tmgGclRefused : Src := ⟨37, 4⟩
def tmgCntWrap : Src := ⟨37, 5⟩
def tmgTakeoverExtended : Src := ⟨38, 0⟩
def tmgTakeoverCancelled : Src := ⟨38, 1⟩
def tmgStreamBlocked : Src := ⟨39, 0⟩
def tmgAllRedSet : Src := ⟨39, 1⟩
def tmgMeterBypass : Src := ⟨39, 2⟩
def tmgGcntWrap : Src := ⟨39, 3⟩
def timTimeStep : Src := ⟨40, 0⟩
def timServoLocked : Src := ⟨40, 1⟩
def timServoUnlocked : Src := ⟨40, 2⟩
def timHoldover : Src := ⟨40, 3⟩
def timRateLimit : Src := ⟨40, 4⟩
def timSampleStale : Src := ⟨40, 5⟩
def timRefLost : Src := ⟨40, 6⟩
def timRefRestored : Src := ⟨40, 7⟩
def timPpsInMissing : Src := ⟨40, 8⟩
def timSynceSquelch : Src := ⟨40, 9⟩
def timSynceRestored : Src := ⟨40, 10⟩
def timTrigFired : Src := ⟨41, 0⟩
def timTrigLate : Src := ⟨41, 1⟩
def timTrigSkipped : Src := ⟨41, 2⟩
def timCaptCaptured : Src := ⟨41, 3⟩
def timCaptOverflow : Src := ⟨41, 4⟩
def timCaptStuck : Src := ⟨41, 5⟩
def timCaptReleased : Src := ⟨41, 6⟩
def tsuTxTsReady : Src := ⟨42, 0⟩
def tsuTsLost : Src := ⟨42, 1⟩
def tsuTcOverflow : Src := ⟨42, 2⟩
def tsuPtpSkipped : Src := ⟨42, 3⟩
def tsuCntWrap : Src := ⟨42, 4⟩
def tmkLostRecords : Src := ⟨43, 0⟩
def tmkFlushLost : Src := ⟨43, 1⟩
def tmkFlashError : Src := ⟨43, 2⟩
def tmkFwdLost : Src := ⟨43, 3⟩
def tmkSuppressing : Src := ⟨43, 4⟩
def pcnCntWrap : Src := ⟨44, 0⟩
def pcnHistWrap : Src := ⟨44, 1⟩
def hifMbox0Done : Src := ⟨45, 0⟩
def hifMbox1Done : Src := ⟨45, 1⟩
def hifMboxError : Src := ⟨45, 2⟩
def mioGpioEdge : Src := ⟨46, 0⟩
def mioI2c0Done : Src := ⟨46, 1⟩
def mioI2c1Done : Src := ⟨46, 2⟩
def mioI2cError : Src := ⟨46, 3⟩
def mioMdioDone : Src := ⟨46, 4⟩
def mioMdioError : Src := ⟨46, 5⟩
def mioThermalHigh : Src := ⟨46, 6⟩
def mioThermalCritical : Src := ⟨46, 7⟩
def mioQspiError : Src := ⟨46, 8⟩
def mioUartOverrun : Src := ⟨46, 9⟩
def scrEccCorrected : Src := ⟨47, 0⟩
def scrEccUncorrectable : Src := ⟨47, 1⟩
def scrScrubOverrun : Src := ⟨47, 2⟩
def scrBufferRetired : Src := ⟨47, 3⟩
def scrRetireLimit : Src := ⟨47, 4⟩
def scrAutoRecovered : Src := ⟨47, 5⟩
def scrAutoRecoverFailed : Src := ⟨47, 6⟩
def scrClsRulePoisoned : Src := ⟨47, 7⟩
def scrTableEntryLost : Src := ⟨47, 8⟩
def scrBenchRestarted : Src := ⟨47, 9⟩
def scrHallmarkRestarted : Src := ⟨47, 10⟩

/-- The sources of cause register g that their chapter names as unmasked at reset. -/
def unmaskedAtReset : Nat → Word
  | 2 => 0x20
  | 3 => 0x2C
  | 5 => 0x1
  | 17 => 0x2
  | 18 => 0x4205
  | 27 => 0x2
  | 30 => 0x14
  | 33 => 0x2
  | 34 => 0x7
  | 37 => 0x2
  | 39 => 0x1
  | 40 => 0x41
  | 41 => 0x10
  | 43 => 0x7
  | 45 => 0x4
  | 46 => 0x80
  | 47 => 0x4C2
  | _ => 0

/-- The reset value of EVT_MASK of cause register g (chapter 05, header table). -/
def maskReset (g : Nat) : Word := ~~~ (unmaskedAtReset g)

end Sys2Proof.Machine
end

