-- ==== Sys2Proof/Machine/Parser.lean ====
section
/-! DEFINITION. The parser (R188 to R194) and the key fields that the classifier, the load-spread hash and the flow key take
from what it found (R191, R198, R220): functions over a frame's bytes. -/

namespace Sys2Proof.Machine

/-- What the parser uses of a profile (PRS.PROF_CFG, PROF_PORTS, PROF_VLAN). -/
structure Profile where
  enables : Nat
  prpDetect : Bool
  tunnelView : Bool
  portClass : Nat
  vxlanUdp : Nat
  r61850Udp : Nat
  defaultVid : Nat
  stagTpid : Nat
  deriving DecidableEq, Repr

/-- One parsed header: its code of R188 and its offset. -/
structure Hdr where
  code : Nat
  off : Nat
  deriving DecidableEq, Repr

/-- What names the next header. -/
inductive NextHdr where
  | eth
  | etherType (t : Nat)
  | greProto (t : Nat)
  | ip4Proto (p : Nat)
  | ip6Next (p : Nat)
  | mpls
  | afterMpls
  | udpPort (port : Nat)
  deriving DecidableEq, Repr

/-- The walk so far: headers found (latest first), exception bits, and the kinds counted for the type limits (R194). -/
structure Walk where
  hdrs : List Hdr := []
  exc : Nat := 0
  vlans : Nat := 0
  labels : Nat := 0
  exts : Nat := 0
  hsrs : Nat := 0
  rtags : Nat := 0
  deriving DecidableEq, Repr

/-- A frame as the parser sees it: the bytes that have arrived before the FCS, the frame's length before the FCS, and whether
its last byte has arrived. -/
structure RxView where
  bytes : List Byte
  body : Nat
  complete : Bool
  deriving DecidableEq, Repr

/-- The outcome of parsing: more bytes must arrive first, or the headers, exception bits and PRP trailer found. -/
inductive ParseResult where
  | wait
  | done (hdrs : List Hdr) (exc : Nat) (prp : Bool)
  deriving DecidableEq, Repr

/-- A bit of the header enables (PRS.PROF_CFG). -/
def enabled (p : Profile) (i : Nat) : Bool := bit p.enables i

/-- One byte of a frame; past its end 0. -/
def byteAt (bs : List Byte) (i : Nat) : Nat := (bs.getD i 0).toNat

/-- A 16-bit field in wire order. -/
def u16 (bs : List Byte) (i : Nat) : Nat := byteAt bs i * 256 + byteAt bs (i + 1)

/-- The header code that the next-header value names under a profile, if it is recognised (R188). `nb` is the first byte of
what follows. -/
def headerCode (p : Profile) (n : NextHdr) (nb : Nat) : Option Nat :=
  let l3 (t : Nat) : Option Nat :=
    if t = 0x0800 then (if enabled p 4 then some 7 else none)
    else if t = 0x86DD then (if enabled p 5 then some 8 else none) else none
  let upper (q : Nat) : Option Nat :=
    if q = 17 then (if enabled p 13 then some 14 else none)
    else if q = 6 then (if enabled p 13 then some 15 else none)
    else if q = 1 ∨ q = 58 then (if enabled p 13 then some 16 else none)
    else if q = 47 then (if enabled p 10 then some 17 else none)
    else if q = 50 then (if enabled p 12 then some 19 else none) else none
  match n with
  | .eth => some 1
  | .etherType t =>
    if t = 0x8100 then (if enabled p 0 then some 2 else none)
    else if t = p.stagTpid ∧ enabled p 0 = true then some 3
    else if t = 0x892F then (if enabled p 1 then some 4 else none)
    else if t = 0xF1C1 then (if enabled p 2 then some 5 else none)
    else if t = 0x8847 ∨ t = 0x8848 then (if enabled p 3 then some 6 else none)
    else if t = 0x0806 then (if enabled p 14 then some 10 else none)
    else if t = 0x88F7 then (if enabled p 7 then some 11 else none)
    else if t = 0x88B8 ∨ t = 0x88BA then (if enabled p 8 then some 12 else none)
    else l3 t
  | .greProto t => if t = 0x6558 then some 1 else l3 t
  | .ip4Proto q => upper q
  | .ip6Next q =>
    if q = 0 ∨ q = 43 ∨ q = 44 ∨ q = 60 then (if enabled p 6 then some 9 else none) else upper q
  | .mpls => if enabled p 3 then some 6 else none
  | .afterMpls =>
    if nb / 16 = 4 then (if enabled p 4 then some 7 else none)
    else if nb / 16 = 6 then (if enabled p 5 then some 8 else none) else none
  | .udpPort d =>
    if (d = 319 ∨ d = 320) ∧ enabled p 7 = true then some 11
    else if d = p.r61850Udp ∧ enabled p 9 = true ∧ 0xA0 ≤ nb ∧ nb ≤ 0xA3 then some 13
    else if d = p.vxlanUdp ∧ enabled p 11 = true then some 18
    else none

/-- The bytes of a header that must be present to know its length: at least these. -/
def lengthKnownAt (code : Nat) : Nat :=
  if code = 7 then 1 else if code = 9 ∨ code = 13 then 2 else if code = 15 then 13 else if code = 17 then 2 else 0

/-- The number of set C, K and S flags of a GRE header. -/
def greFlags (x : Nat) : Nat := b2n (bit x 15) + b2n (bit x 13) + b2n (bit x 12)

/-- The length of a header at an offset (R188). `frag` says that an extension is a fragment header. -/
def headerLen (code : Nat) (frag : Bool) (bs : List Byte) (o : Nat) : Nat :=
  if code = 1 then 14
  else if code = 4 ∨ code = 5 then 6
  else if code = 7 then max (byteAt bs o % 16) 5 * 4
  else if code = 8 then 40
  else if code = 9 then (if frag then 8 else (byteAt bs (o + 1) + 1) * 8)
  else if code = 10 then 28
  else if code = 11 then 34
  else if code = 12 ∨ code = 14 ∨ code = 16 ∨ code = 18 ∨ code = 19 then 8
  else if code = 13 then 2 + byteAt bs (o + 1)
  else if code = 15 then max (byteAt bs (o + 12) / 16) 5 * 4
  else if code = 17 then 4 + 4 * greFlags (u16 bs o)
  else 4

/-- The type limit of R194: a third VLAN tag, fifth label, fourth extension, second HSR tag or R-TAG. -/
def breaksLimit (code : Nat) (w : Walk) : Bool :=
  decide (((code = 2 ∨ code = 3) ∧ 2 ≤ w.vlans) ∨ (code = 6 ∧ 4 ≤ w.labels) ∨ (code = 9 ∧ 3 ≤ w.exts)
    ∨ (code = 4 ∧ 1 ≤ w.hsrs) ∨ (code = 5 ∧ 1 ≤ w.rtags))

/-- Set an exception bit. -/
def withExc (w : Walk) (e : Nat) : Walk := { w with exc := w.exc ||| 2 ^ e }

/-- Record a header, counting its kind; a tunnel header starts the counts again. -/
def record (code off : Nat) (w : Walk) : Walk :=
  let w1 := { w with hdrs := ⟨code, off⟩ :: w.hdrs }
  if code = 17 ∨ code = 18 then { w1 with vlans := 0, labels := 0, exts := 0, hsrs := 0, rtags := 0 }
  else if code = 2 ∨ code = 3 then { w1 with vlans := w.vlans + 1 }
  else if code = 6 then { w1 with labels := w.labels + 1 }
  else if code = 9 then { w1 with exts := w.exts + 1 }
  else if code = 4 then { w1 with hsrs := w.hsrs + 1 }
  else if code = 5 then { w1 with rtags := w.rtags + 1 }
  else w1

/-- Whether a header's own fields make it malformed (R194). -/
def badHeader (code : Nat) (bs : List Byte) (o : Nat) : Bool :=
  decide ((code = 7 ∧ (byteAt bs o / 16 ≠ 4 ∨ byteAt bs o % 16 < 5)) ∨ (code = 15 ∧ byteAt bs (o + 12) / 16 < 5)
    ∨ (code = 17 ∧ u16 bs o % 8 ≠ 0))

/-- The span in bytes, from the header on, that a header's length field claims (R193), if it has one. -/
def claimedSpan (code : Nat) (bs : List Byte) (o : Nat) : Option Nat :=
  if code = 7 then some (u16 bs (o + 2))
  else if code = 8 then some (40 + u16 bs (o + 4))
  else if code = 14 then some (u16 bs (o + 4))
  else if code = 12 then some (u16 bs (o + 2))
  else if code = 4 then some (u16 bs o % 4096)
  else none

/-- One's complement sum of the 16-bit words of `n` bytes. -/
def sum16 (bs : List Byte) : Nat → Nat → Nat
  | 0, _ => 0
  | n + 1, o => u16 bs o + sum16 bs n (o + 2)

/-- Fold a one's complement sum to 16 bits. -/
def fold16 (x : Nat) : Nat := onesFold (onesFold x)

/-- Whether an IPv4 header's checksum is wrong (R194). -/
def badIp4Sum (bs : List Byte) (o : Nat) : Bool := decide (fold16 (sum16 bs (byteAt bs o % 16 * 2) o) ≠ 0xFFFF)

/-- Whether a header is a fragment with an offset that is not 0 (R194). -/
def laterFragment (code : Nat) (frag : Bool) (bs : List Byte) (o : Nat) : Bool :=
  decide ((code = 7 ∧ u16 bs (o + 6) % 8192 ≠ 0)) || (frag && decide (u16 bs (o + 2) / 8 ≠ 0))

/-- What names the header after this one (R188); none ends parsing. -/
def nextHdr (code : Nat) (bs : List Byte) (o len : Nat) : Option NextHdr :=
  if code = 1 then some (.etherType (u16 bs (o + 12)))
  else if code = 2 ∨ code = 3 then some (.etherType (u16 bs (o + 2)))
  else if code = 4 ∨ code = 5 then some (.etherType (u16 bs (o + 4)))
  else if code = 6 then (if byteAt bs (o + 2) % 2 = 0 then some .mpls else some .afterMpls)
  else if code = 7 then some (.ip4Proto (byteAt bs (o + 9)))
  else if code = 8 then some (.ip6Next (byteAt bs (o + 6)))
  else if code = 9 then some (.ip6Next (byteAt bs o))
  else if code = 14 then some (.udpPort (u16 bs (o + 2)))
  else if code = 17 then some (.greProto (u16 bs (o + 2)))
  else if code = 18 then some .eth
  else (if len = 0 then none else none)

/-- The number of 802.1Q and 802.1ad tags from offset `o` on, whether or not the profile parses them: R176 gives spans that leave them out. -/
def outerTags (p : Profile) (bs : List Byte) : Nat → Nat → Nat
  | 0, _ => 0
  | n + 1, o => if u16 bs o == 0x8100 || u16 bs o == p.stagTpid then 1 + outerTags p bs n (o + 4) else 0

/-- A PRP trailer (R192, R176): the last six bytes end in 0x88FB and its LSDU size equals the span from the first byte after
the source address and any tags. -/
def prpTrailer (p : Profile) (v : RxView) : Bool :=
  p.prpDetect && decide (20 ≤ v.body) && decide (u16 v.bytes (v.body - 2) = 0x88FB)
    && decide (u16 v.bytes (v.body - 4) % 4096 = v.body - (12 + 4 * outerTags p v.bytes 8 12))

/-- Whether a length field conflicts with the frame (R193). `held` is what the frame holds from the header to the FCS, less a
recognised trailer; `len` the frame's length with its FCS. -/
def spanConflict (claim held len : Nat) : Bool := decide (held < claim ∨ (claim < held ∧ 64 < len))

/-- The byte at an offset, by which some next headers are named. The parser does not look beyond byte 256, so that a header there which only
its own first byte would name is not recognised (DEDUCED from R189, assumption log 107). -/
def windowByte (v : RxView) (o : Nat) : Nat := if o < 256 then byteAt v.bytes o else 0

/-- The walk (R189): from offset `o` with what names the next header. None means that more bytes must arrive first. -/
def parseWalk (p : Profile) (v : RxView) (prp : Bool) : Nat → NextHdr → Nat → Walk → Option Walk
  | 0, n, o, w =>
    -- twelve headers are parsed: a further recognised one takes parse_depth
    if o < v.bytes.length ∨ v.complete = true ∨ 256 ≤ o then
      (match headerCode p n (windowByte v o) with
       | some _ => some (withExc w 0)
       | none => some w)
    else none
  | k + 1, n, o, w =>
    if v.bytes.length ≤ o ∧ v.complete = false ∧ o < 256 then none
    else match headerCode p n (windowByte v o) with
      | none => some w
      | some c =>
        let frag := decide (c = 9) && decide (n = .ip6Next 44)
        let need := o + lengthKnownAt c
        if 256 < need ∧ 256 ≤ v.body then some (withExc w 0)
        else if v.bytes.length < need ∧ v.complete = false then none
        else if v.body < need then some (withExc w (if breaksLimit c w then 3 else 2))
        else
          let len := headerLen c frag v.bytes o
          if 256 < o + len then some (withExc w (if 256 ≤ v.body then 0 else 2))
          else if breaksLimit c w then some (withExc w 3)
          else if v.body < o + len then some (withExc w 2)
          else if v.bytes.length < o + len then none
          else if badHeader c v.bytes o then some (withExc w 2)
          else
            let w1 := record c o w
            let held := v.body - o - (if prp then 6 else 0)
            let w2 := match claimedSpan c v.bytes o with
              | some x => if spanConflict x held (v.body + 4) then withExc w1 1 else w1
              | none => w1
            let w3 := if c = 7 ∧ badIp4Sum v.bytes o = true then withExc w2 4 else w2
            if laterFragment c frag v.bytes o then some (withExc w3 5)
            else match nextHdr c v.bytes o len with
              | none => some w3
              | some m => parseWalk p v prp k m (o + len) w3

/-- Parse a frame under a profile (R189 to R194). A profile that looks for PRP trailers waits for the frame's end (R192). -/
def parse (p : Profile) (v : RxView) : ParseResult :=
  if p.prpDetect && !v.complete then .wait
  else
    let prp := prpTrailer p v
    match parseWalk p v prp 12 .eth 0 {} with
    | none => .wait
    | some w => .done w.hdrs.reverse w.exc prp

/-! ### Keys -/

/-- The headers after the last VXLAN or GRE header, if there is one. -/
def afterTunnel (hs : List Hdr) : List Hdr :=
  hs.foldl (fun a h => if h.code = 17 ∨ h.code = 18 then [] else a ++ [h]) []

/-- Whether a frame contains a tunnel. -/
def hasTunnel (hs : List Hdr) : Bool := hs.any (fun h => h.code == 17 || h.code == 18)

/-- The first header whose code is one of `cs`. -/
def firstOf (cs : List Nat) (hs : List Hdr) : Option Hdr := hs.find? (fun h => cs.contains h.code)

/-- Everything the keys of R198, R220 and R254 are taken from, in one view of the headers. Absent fields are 0. -/
structure Keys where
  macDa : Nat := 0
  macSa : Nat := 0
  tagged : Bool := false
  vid : Nat := 0
  pcp : Nat := 0
  innerVid : Nat := 0
  etherType : Nat := 0
  /-- 4, 6, or 0 when no IP header is keyed. -/
  ipVer : Nat := 0
  ipSrc : Nat := 0
  ipDst : Nat := 0
  proto : Nat := 0
  dscp : Nat := 0
  flowLabel : Nat := 0
  l4Present : Bool := false
  l4Src : Nat := 0
  l4Dst : Nat := 0
  /-- Destination port of a TCP or UDP header (R200). -/
  port : Option Nat := none
  tcpFlags : Nat := 0
  spi : Nat := 0
  hasL4Fields : Bool := false
  deriving DecidableEq, Repr

/-- The EtherType after the last tag, HSR tag or R-TAG that follows the first Ethernet header of a view. -/
def etherTypeOf (bs : List Byte) (hs : List Hdr) : Nat :=
  match hs with
  | h :: t =>
    if h.code = 1 then
      let last := (t.takeWhile (fun x => decide (2 ≤ x.code ∧ x.code ≤ 5))).foldl (fun _ x => x) h
      if last.code = 1 then u16 bs (last.off + 12) else if last.code ≤ 3 then u16 bs (last.off + 2) else u16 bs (last.off + 4)
    else 0
  | [] => 0

/-- The next-header value after the extensions that follow an IPv6 header. -/
def ip6Proto (bs : List Byte) (ip : Hdr) (hs : List Hdr) : Nat :=
  let exts := ((hs.dropWhile (fun h => h != ip)).drop 1).takeWhile (fun h => h.code == 9)
  match exts.getLast? with
  | some e => byteAt bs e.off
  | none => byteAt bs (ip.off + 6)

/-- The keys of a view of the headers: `hs` all headers for the outermost view, or those after the last tunnel. -/
def keysOf (bs : List Byte) (defaultVid : Nat) (hs : List Hdr) : Keys :=
  let eth := firstOf [1] hs
  let tags := hs.filter (fun h => h.code == 2 || h.code == 3)
  let tci := match tags with
    | h :: _ => u16 bs h.off
    | [] => 0
  let ip := firstOf [7, 8] hs
  let l4 := firstOf [14, 15, 16] hs
  let app := firstOf [11, 12, 13] hs
  let base : Keys :=
    { macDa := (match eth with | some h => beAt bs h.off 6 | none => 0)
      macSa := (match eth with | some h => beAt bs (h.off + 6) 6 | none => 0)
      tagged := decide (tags ≠ [])
      vid := if tags = [] then defaultVid else tci % 4096
      pcp := tci / 8192
      innerVid := (match tags with | _ :: h :: _ => u16 bs h.off % 4096 | _ => 0)
      etherType := etherTypeOf bs hs }
  let withIp := match ip with
    | none => base
    | some h =>
      if h.code = 7 then
        { base with ipVer := 4, ipSrc := beAt bs (h.off + 12) 4, ipDst := beAt bs (h.off + 16) 4
                    proto := byteAt bs (h.off + 9), dscp := byteAt bs (h.off + 1) / 4 }
      else
        { base with ipVer := 6, ipSrc := beAt bs (h.off + 8) 16, ipDst := beAt bs (h.off + 24) 16
                    proto := ip6Proto bs h hs, dscp := u16 bs h.off / 64 % 64, flowLabel := beAt bs h.off 4 % 2 ^ 20 }
  let withL4 := match l4 with
    | none => withIp
    | some h =>
      if h.code = 16 then { withIp with l4Present := true, hasL4Fields := true, l4Src := u16 bs h.off }
      else { withIp with l4Present := true, hasL4Fields := true, l4Src := u16 bs h.off, l4Dst := u16 bs (h.off + 2)
                         port := some (u16 bs (h.off + 2)), tcpFlags := if h.code = 15 then byteAt bs (h.off + 13) else 0 }
  let withApp := match app with
    | none => withL4
    | some h => { withL4 with
        hasL4Fields := true
        l4Dst := if h.code = 12 then u16 bs h.off else if h.code = 11 then byteAt bs h.off % 16 else byteAt bs h.off }
  match firstOf [19] hs with
  | some h => { withApp with spi := beAt bs h.off 4 }
  | none => withApp

/-- The keys under tunnel_view or inner (R191, R220). -/
def keysIn (inner : Bool) (bs : List Byte) (defaultVid : Nat) (hs : List Hdr) : Keys :=
  keysOf bs defaultVid (if inner then afterTunnel hs else hs)

end Sys2Proof.Machine
end

