-- ==== Sys2Proof/Machine/Sparse.lean ====
section
/-! DEFINITION. Sparse stores in one canonical form: a list of (key, value) pairs with strictly rising keys and no entry
equal to what an unlisted key reads as. Registers, counters, tables and byte memories (`Host.Cell` lists) are such
stores; what an unlisted key reads as is an argument `d` of every operation. -/

namespace Sys2Proof.Machine

/-- A sparse store from numbers to `α`. -/
abbrev Sparse (α : Type) := List (Nat × α)

/-- Read one key; an unlisted key reads as `d k`. -/
def sget {α : Type} (d : Nat → α) : Sparse α → Nat → α
  | [], k => d k
  | (j, v) :: l, k => if j = k then v else sget d l k

/-- Remove a key wherever it is listed. -/
def sdel {α : Type} : Sparse α → Nat → Sparse α
  | [], _ => []
  | (j, v) :: l, k => if j = k then sdel l k else (j, v) :: sdel l k

/-- List a key with a value in its place of the rising order. -/
def sput {α : Type} : Sparse α → Nat → α → Sparse α
  | [], k, x => [(k, x)]
  | (j, v) :: l, k, x =>
    if k < j then (k, x) :: (j, v) :: l
    else if j = k then (k, x) :: l
    else (j, v) :: sput l k x

/-- Write one key; writing what an unlisted key reads as removes the entry, so equal stores are equal lists. -/
def sset {α : Type} [DecidableEq α] (d : Nat → α) (l : Sparse α) (k : Nat) (x : α) : Sparse α :=
  if x = d k then sdel l k else sput l k x

/-- Change one key by a function. -/
def smod {α : Type} [DecidableEq α] (d : Nat → α) (l : Sparse α) (k : Nat) (f : α → α) : Sparse α :=
  sset d l k (f (sget d l k))

/-- Every listed key is above `b`, and keys rise strictly. -/
def srising {α : Type} (b : Nat) : Sparse α → Bool
  | [] => true
  | (j, _) :: l => decide (b ≤ j) && srising (j + 1) l

/-- The canonical form: rising keys, and no entry that an unlisted key would read as. -/
def swf {α : Type} [DecidableEq α] (d : Nat → α) (l : Sparse α) : Bool :=
  srising 0 l && l.all (fun e => decide (e.2 ≠ d e.1))

/-- Keep the entries whose key satisfies `p`. -/
def sfilter {α : Type} (p : Nat → Bool) (l : Sparse α) : Sparse α := l.filter (fun e => p e.1)

/-- What an unlisted byte of a memory of the block reads as: 0. -/
def memDefault : Nat → Byte := fun _ => 0

/-- The canonical form of a byte memory. -/
abbrev Memory.wf (m : List Host.Cell) : Bool := swf memDefault m

/-- One byte of a memory. -/
def memByte (m : List Host.Cell) (a : Nat) : Byte := sget memDefault m a

/-- `n` bytes of a memory from `a`, lowest address first. -/
def memRead (m : List Host.Cell) (a : Nat) : Nat → List Byte
  | 0 => []
  | n + 1 => memByte m a :: memRead m (a + 1) n

/-- Write bytes to a memory from `a` on, lowest address first. -/
def memWrite (m : List Host.Cell) (a : Nat) : List Byte → List Host.Cell
  | [] => m
  | b :: bs => memWrite (sset memDefault m a b) (a + 1) bs

end Sys2Proof.Machine
end

