-- ==== Sys2Proof/Machine/TieFec.lean ====
section
/-! DEFINITION. The forward error correction and the flits of a tie link, as bytes (R484 to R486): RS(254,238) over GF(2⁸), and the header and
payload of a flit. A codeword is systematic, its 16 parity bytes last, its first byte the coefficient of the highest power (DESIGN CHOICE,
assumption log 132). -/

namespace Sys2Proof.Machine

/-! ### GF(2⁸) (R485) -/

/-- Twice a field element: x⁸ is x⁴ + x³ + x² + 1. -/
def gfDouble (a : Nat) : Nat := if a < 128 then 2 * a else (2 * a) ^^^ 0x11D

/-- The product of two field elements, over `n` bits of the second. -/
def gfMulBits : Nat → Nat → Nat → Nat
  | 0, _, _ => 0
  | n + 1, a, b => (if b % 2 = 1 then a else 0) ^^^ gfMulBits n (gfDouble a) (b / 2)

/-- The product of two field elements. -/
def gfMul (a b : Nat) : Nat := gfMulBits 8 a b

/-- A power of a field element. -/
def gfPow (a : Nat) : Nat → Nat
  | 0 => 1
  | n + 1 => gfMul a (gfPow a n)

/-- The inverse of a field element other than 0. -/
def gfInv (a : Nat) : Nat := gfPow a 254

/-- α to a power, α being 0x02. -/
def gfExp (i : Nat) : Nat := gfPow 2 i

/-- The value of a polynomial, constant term first. -/
def gfEval (p : List Nat) (x : Nat) : Nat := p.foldr (fun a v => a ^^^ gfMul x v) 0

/-- Coefficient i of a polynomial. -/
def coeff (p : List Nat) (i : Nat) : Nat := p.getD i 0

/-- The sum of two polynomials. -/
def polyAdd (p q : List Nat) : List Nat := (List.range (max p.length q.length)).map (fun i => coeff p i ^^^ coeff q i)

/-- A polynomial times a constant. -/
def polyScale (a : Nat) (p : List Nat) : List Nat := p.map (gfMul a)

/-! ### RS(254,238) (R485) -/

/-- The value of a received word, first byte the highest power, at x. -/
def rsValue (w : List Byte) (x : Nat) : Nat := w.foldl (fun v b => gfMul v x ^^^ b.toNat) 0

/-- The 16 syndromes of a received word: its values at the roots αⁱ of the generator polynomial. -/
def syndromes (w : List Byte) : List Nat := (List.range 16).map (fun i => rsValue w (gfExp i))

/-- The generator polynomial, constant term first: the product of (x − αⁱ) for i = 0 to 15. -/
def generatorPoly : List Nat := (List.range 16).foldl (fun p i => polyAdd (0 :: p) (polyScale (gfExp i) p)) [1]

/-- One step of the division by the generator polynomial: the remainder, highest power first, takes one more data byte. -/
def parityStep (rem : List Nat) (b : Byte) : List Nat :=
  let q := rem.headD 0 ^^^ b.toNat
  (List.range 16).map (fun i => coeff rem (i + 1) ^^^ gfMul q (coeff generatorPoly (15 - i)))

/-- The codeword of 238 data bytes. -/
def rsEncode (bytes : List Byte) : List Byte :=
  bytes ++ (bytes.foldl parityStep (List.replicate 16 0)).map (BitVec.ofNat 8)

/-- The search for the error locator (Berlekamp and Massey): the locator, the one before its latest change of length, the discrepancy then,
the steps since, and the number of errors. -/
structure Locator where
  cur : List Nat := [1]
  old : List Nat := [1]
  d : Nat := 1
  gap : Nat := 1
  len : Nat := 0

/-- One step of the search, with syndrome n. -/
def locatorStep (syn : List Nat) (x : Locator) (n : Nat) : Locator :=
  let d := (List.range (x.len + 1)).foldl (fun a i => a ^^^ gfMul (coeff x.cur i) (coeff syn (n - i))) 0
  let next := polyAdd x.cur (polyScale (gfMul d (gfInv x.d)) (List.replicate x.gap 0 ++ x.old))
  if d = 0 then { x with gap := x.gap + 1 }
  else if 2 * x.len ≤ n then { cur := next, old := x.cur, d := d, gap := 1, len := n + 1 - x.len }
  else { x with cur := next, gap := x.gap + 1 }

/-- The error locator of a list of syndromes. -/
def locatorOf (syn : List Nat) : Locator := (List.range 16).foldl (locatorStep syn) {}

/-- The powers at which the locator puts errors, of the 254 of a codeword. -/
def errorPowers (cur : List Nat) : List Nat := (List.range 254).filter (fun j => gfEval cur (gfExp (255 - j)) == 0)

/-- The error value at power j (Forney). -/
def errorValue (syn cur : List Nat) (j : Nat) : Nat :=
  let x := gfExp j
  let y := gfInv x
  let ev := (List.range 16).map (fun n => (List.range (n + 1)).foldl (fun a i => a ^^^ gfMul (coeff cur i) (coeff syn (n - i))) 0)
  let slope := (List.range cur.length).map (fun i => if i % 2 = 0 then coeff cur (i + 1) else 0)
  gfMul x (gfMul (gfEval ev y) (gfInv (gfEval slope y)))

/-- The 238 data bytes of a received word and how many bytes were corrected, up to 8; none where it cannot be corrected. -/
def rsDecode (w : List Byte) : Option (List Byte × Nat) :=
  let syn := syndromes w
  if syn.all (· == 0) then some (w.take 238, 0)
  else
    let x := locatorOf syn
    let js := errorPowers x.cur
    let fixed := js.foldl (fun a j => a.set (253 - j) (a.getD (253 - j) 0 ^^^ BitVec.ofNat 8 (errorValue syn x.cur j))) w
    if x.len ≤ 8 ∧ js.length = x.len ∧ (syndromes fixed).all (· == 0) = true then some (fixed.take 238, js.length) else none

/-- The bytes of codeword c of a block payload from the four link-lanes: byte b of the payload is on lane b mod 4 (R484). -/
def fromLanes (c : Nat) (lanes : List (List Byte)) : List Byte :=
  (List.range 254).map (fun i =>
    let b := 254 * c + i
    ((lanes.getD (b % 4) []).getD (i / 4) 0))

/-! ### Flits (R486) -/

/-- A flit: kind, first, last, fill (payload bytes used, in a last flit), credits returned, payload. -/
structure Flit where
  kind : Nat := 0
  first : Bool := false
  last : Bool := false
  fill : Nat := 0
  credit : Nat := 0
  payload : List Byte := []
  deriving DecidableEq, Repr

/-- The 32 bytes of a flit as sent: bad and the reserved bits 0. -/
def flitBytes (f : Flit) : List Byte :=
  bytesLE 4 (f.kind % 16 + 16 * b2n f.first + 32 * b2n f.last + 256 * (f.fill % 32) + 65536 * (f.credit % 65536)) ++ slice f.payload 0 28

/-- The flit that 32 bytes spell. -/
def flitOf (bs : List Byte) : Flit :=
  let h := leAt bs 0 4
  { kind := bitsOf h 0 4, first := bit h 4, last := bit h 5, fill := bitsOf h 8 5, credit := bitsOf h 16 16, payload := slice bs 4 28 }

/-- The flits of a message. fill is 0 in a flit that is not the last (DESIGN CHOICE, assumption log 132). -/
def flitsOf (kind : Nat) (body : List Byte) : List Flit :=
  let n := max 1 ((body.length + 27) / 28)
  (List.range n).map (fun i =>
    { kind := kind, first := decide (i = 0), last := decide (i + 1 = n)
      fill := if i + 1 = n then body.length - 28 * i else 0, payload := (body.drop (28 * i)).take 28 })

/-- The idle flit that returns credits (R488). -/
def creditFlit (n : Nat) : Flit := { credit := n }

/-- The block payload that carries 119 flits (R484, R486): 16 codewords. -/
def blockPayload (fs : List Flit) : List Byte :=
  let bytes := slice (fs.flatMap flitBytes) 0 3808
  (List.range 16).flatMap (fun c => rsEncode ((bytes.drop (238 * c)).take 238))

/-- Whether a byte of flit i of a block payload is in a codeword that was not corrected. -/
def flitBad (got : List (Option (List Byte))) (i : Nat) : Bool :=
  (List.range 32).any (fun j => ((got.getD ((32 * i + j) / 238) none).isNone))

/-- The 119 flits of a received block payload, those with a byte in a codeword that was not corrected left out as bad (R485). -/
def blockFlits (got : List (Option (List Byte))) : List (Option Flit) :=
  let bytes := got.flatMap (fun w => w.getD (List.replicate 238 0))
  (List.range 119).map (fun i => if flitBad got i then none else some (flitOf (slice bytes (32 * i) 32)))

/-! ### Messages of a stream (R487) -/

/-- One of the two streams of a link as it is received: whether a message is open in it, whether that message has had a bad flit, and of the
messages that have ended and not been taken, oldest first, which have. -/
structure Stream where
  isOpen : Bool := false
  isBad : Bool := false
  ended : List Bool := []
  deriving DecidableEq, Repr

/-- A flit of the stream: a message whose first flit was bad has begun unseen. -/
def streamFlit (x : Stream) (f : Flit) : Stream :=
  let b := if f.first then false else x.isBad || !x.isOpen
  if f.last then { isOpen := false, isBad := false, ended := x.ended ++ [b] } else { x with isOpen := true, isBad := b }

/-- A bad flit may be any stream's: each message that is open has it (DESIGN CHOICE, assumption log 132). -/
def streamBad (x : Stream) : Stream := if x.isOpen then { x with isBad := true } else x

end Sys2Proof.Machine
end

