-- ==== Sys2Proof/Machine/Parts.lean ====
section
/-! DEFINITION. The parts of the state, unit by unit: the register fabric, events, Touchmark, counters and histograms, the
time island. Every part is plain data. -/

namespace Sys2Proof.Machine

/-- The states of the common state machine (R121), in the encoding of BLOCK_STATE. -/
inductive TState where
  | off | starting | on | draining | held | fault
  deriving DecidableEq, Repr

/-- One target of the common state machine: a channel or a block-wide part (R121, R122, R124), with the window and the immediate
bit of a per-block reset in progress. -/
structure Tgt where
  st : TState := .off
  enable : Bool := false
  faultCode : Nat := 0
  starts : Nat := 0
  drainForced : Bool := false
  resetBusy : Bool := false
  resetWin : Nat := 0
  resetImm : Bool := false
  deriving DecidableEq, Repr

/-- The status of COMMIT (R118 to R120): 0 idle, 1 pending, 2 done, 3 refused. `late` tells of the latest commit that took effect,
`lateNext` of the pending one. -/
structure CommitSt where
  status : Nat := 0
  late : Bool := false
  lateNext : Bool := false
  shadowRefused : Bool := false
  refusal : Nat := 0
  count : Nat := 0
  armed : Option (Nat × Nat) := none
  deriving DecidableEq, Repr

/-- OWNER (R115 to R117). -/
structure OwnerSt where
  owner : Nat := 0
  denied : Nat := 0
  deriving DecidableEq, Repr

/-- One channel-select latch (R111 to R113). -/
structure ChanLatch where
  chan : Nat := 0
  selError : Bool := false
  whole : Bool := false
  deriving DecidableEq, Repr

/-- The register fabric. `regs` holds what reads return, `live` the values in effect of shadowed (RWS) registers, `later` the committed
values of a port's shadowed registers that wait for its frame boundary or for the end of its drain (R182). -/
structure Fabric where
  regs : Sparse Word := []
  live : Sparse Word := []
  later : List (Nat × List Word) := []
  targets : Sparse Tgt := []
  commits : Sparse CommitSt := []
  owners : Sparse OwnerSt := []
  latches : Sparse ChanLatch := []
  counters : Sparse Nat := []
  wraps : Sparse Bool := []
  hiSnap : Sparse Word := []
  wrapSnap : Sparse (Option Bool) := []
  rdH : Word := 0
  rdB : Word := 0
  rdM : Word := 0
  freeCount : Nat := 0
  deriving DecidableEq, Repr

/-- Event routing (R125 to R132). `cause`, `mask` and `auto` are keyed by g, `pend` by 16 · g + w, `lim` and `supp` by
source number. -/
structure Events where
  cause : Sparse Word := []
  mask : Sparse Word := []
  auto : Sparse Word := []
  pend : Sparse Word := []
  lim : Sparse Nat := []
  supp : Sparse Nat := []
  msixEnable : Bool := false
  msixMaskAll : Bool := false
  msixPend : Nat := 0
  vecActive : Nat := 0
  benchLines : Nat := 0
  eventN : Bool := false
  deriving DecidableEq, Repr

/-- A Touchmark record before its sequence number (R559): what an offer carries. -/
structure Rec where
  code : Nat
  flags : Nat := 0
  block : Nat := 0
  chan : Nat := 0
  suppressed : Nat := 0
  powerCycle : Nat := 0
  opTime : Nat := 0
  epoch : Nat := 0
  wall : Nat := 0
  payload : List Byte := []
  deriving DecidableEq, Repr

/-- Touchmark (chapter 20). `used` holds tokens taken per code (0x800 stands for the shared group), `supp` the
suppressed counts, `usedAt` the operating time from which a bucket counts towards its next token, `latest` the latest suppressed offer per code. `ring` and `mesh` are keyed by 16 · slot + word.
`flash` is the region of R572 as words keyed by 16 · (1024 · sector + slot) + word. -/
structure Touchmark where
  powerCycle : Nat := 1
  opTime : Nat := 0
  noFlash : Bool := false
  seqNext : Nat := 0
  flushSeq : Nat := 0xFFFFFFFF
  used : Sparse Nat := []
  usedAt : Sparse Nat := []
  supp : Sparse Nat := []
  latest : List (Nat × Rec) := []
  fifo : List Rec := []
  globalUsed : Nat := 0
  lostN : Nat := 0
  lostSum : Nat := 0
  lostTime : Nat := 0
  lostCode : Nat := 0
  ring : Sparse Word := []
  mesh : Sparse Word := []
  meshHead : Nat := 0
  fwdSeq : Nat := 0xFFFFFFFF
  flash : Sparse Word := []
  flashPos : Nat := 0
  erased : List Nat := []
  badSectors : List Nat := []
  deriving DecidableEq, Repr

/-- One histogram (R581): its bins, sum, largest value and wrap bit. -/
structure Hist where
  bins : Sparse Nat := []
  sum : Nat := 0
  top : Nat := 0
  wrap : Bool := false
  deriving DecidableEq, Repr

/-- Freeze banks (R580) and histogram snapshots (R583), one per window, and the histograms. -/
structure Pcn where
  hists : Sparse Hist := []
  frozen : Sparse Nat := []
  frozenWrap : Sparse Bool := []
  snaps : Sparse Hist := []
  snapValid : Sparse Bool := []
  snapOf : Sparse Nat := []
  deriving DecidableEq, Repr

/-- One capture entry (R461): time, epoch, falling edge, gap. -/
structure CaptEntry where
  time : Nat
  epoch : Nat
  falling : Bool
  gap : Bool
  deriving DecidableEq, Repr

/-- One capture input (R461). -/
structure Capt where
  fifo : List CaptEntry := []
  level : Bool := false
  lastRaw : Option Nat := none
  lastLevel : Bool := false
  since : Nat := 0
  gapNext : Bool := false
  fullRaised : Bool := false
  deriving DecidableEq, Repr

/-- One trigger (R459, R460): the raw count at which its pulse ends, if one is in progress, and the number k of the next
boundary of a periodic one. -/
structure Trig where
  pulse : Option Nat := none
  idx : Nat := 0
  deriving DecidableEq, Repr

/-- One egress timestamp entry of a TSU channel (R471). -/
structure TxTs where
  time : Nat
  epoch : Nat
  msgType : Nat
  seqId : Nat
  domain : Nat
  gap : Bool
  deriving DecidableEq, Repr

/-- The mapping of raw counts to time values that was in force before the anchor last moved (R451, R463). -/
structure TimeMap where
  anchorRaw : Nat := 0
  anchorTime : Nat := 0
  rate : Int := 0
  epoch : Nat := 0
  deriving DecidableEq, Repr

/-- The time island (chapter 16). Times are in units of 2⁻¹⁶ ns; `rate` is the signed rate a of R451. `was` is the mapping before the
current one, by which stamps of raw counts before the anchor go (R468), `synceUp` tells that TIM has driven SYNCE_CLK
since reset or the held state (R46, R98), and `tcOver` counts tc_overflow per TSU channel (R475). -/
structure TimeIsland where
  raw : Nat := 0
  anchorRaw : Nat := 0
  anchorTime : Nat := 0
  rate : Int := 0
  epoch : Nat := 0
  first : Bool := true
  good : Nat := 0
  integral : Int := 0
  refRatio : Nat := 0
  refLost : Bool := false
  ppsHigh : Option Nat := none
  ppsNext : Option Nat := none
  ppsInRaw : Option Nat := none
  ppsMissing : Bool := false
  trigs : Sparse Trig := []
  capts : Sparse Capt := []
  txts : Sparse (List TxTs) := []
  txGap : Sparse Bool := []
  squelched : Sparse Bool := []
  synceUp : Bool := false
  was : TimeMap := {}
  tcOver : Sparse Nat := []
  deriving DecidableEq, Repr

/-- Which power-on class reset holds the device, if any (R60, R66, R69). -/
inductive Hold where
  | none | powerOn | resetN
  deriving DecidableEq, Repr

/-- Supplies, resets, clocks and pace (chapter 03). `railLow` has a bit per rail that is not good; `laneLost` one per chiplet
whose REFCLK_LANE is lost. -/
structure Power where
  hold : Hold := .none
  railLow : Nat := 0
  failLatch : Option Nat := none
  sysLost : Bool := false
  onBackup : Bool := false
  laneLost : Nat := 0
  strapMism : Nat := 0
  ctWithdrawn : Bool := false
  paceBelow : Bool := false
  negative : Bool := false
  avsPend : Option Nat := none
  avsRetry : Option Nat := none
  resetNLow : Bool := false
  backupStart : Bool := false
  perstLow : Bool := false
  deriving DecidableEq, Repr

/-- Which load is in progress (R100, R101). -/
inductive LoadKind where
  | none | flash | hostStart | runTime
  deriving DecidableEq, Repr

/-- The start-up sequencer (chapter 04): block codes written by step 10, the image in staging, the load in progress and the state
it returns to, the slot being tried, the failure of the slot tried first (code, index, slot), and whether one slot has been tried; the raw
count at which the sequence began, the clusters whose banks a run-time load still waits for, and whether a warm reset has still to
restart Bench. -/
structure Startup where
  written : List Nat := []
  image : List Byte := []
  load : LoadKind := .none
  back : Nat := 0
  slot : Nat := 0
  tried : Bool := false
  firstFail : Option (Nat × Nat × Nat) := none
  began : Nat := 0
  banks : List Nat := []
  restart : Bool := false
  deriving DecidableEq, Repr

/-- Lane state beside the LAN registers (chapter 06): runs of calibration misses, the sequencer's next lane per chiplet,
lanes whose autonegotiation found no common technology, lanes whose clause 37 exchange has ended (R161), inversions the generator owes,
the PMA delays of each lane's first bring-up, keyed by 8 · lane + rate code (R154), and per port how many of the frames that end next have
bytes in a codeword not delivered correct (R166). -/
structure Lanes where
  calRun : Sparse Nat := []
  visit : Sparse Nat := []
  noHcd : Sparse Bool := []
  inject : Sparse Nat := []
  c37 : Sparse Bool := []
  pma : Sparse (Option (Nat × Nat)) := []
  fecBad : Sparse Nat := []
  deriving DecidableEq, Repr

/-- One entry of the L2 table (R229), reserved bits apart; `bad` marks one that cannot be corrected and waits for its removal (R522). -/
structure L2Entry where
  valid : Bool := false
  mac : Nat := 0
  fid : Nat := 0
  isStatic : Bool := false
  drop : Bool := false
  target : Nat := 0
  kind : Nat := 0
  stamp : Nat := 0
  bad : Bool := false
  deriving DecidableEq, Repr

/-- One change in the L2 update queue (R231). `win` is the window copy that a host or Bench operation answers; `lost` removes an
entry that cannot be corrected (R522). -/
inductive L2Change where
  | learn (port fid mac : Nat)
  | refresh (index port fid mac : Nat)
  | move (index port fid mac : Nat)
  | retire (index : Nat)
  | hostWrite (win : Nat) (entry : L2Entry)
  | hostDelete (win fid mac : Nat)
  | lost (index : Nat)
  deriving DecidableEq, Repr

/-- The L2 table (chapter 09): entries by index, the update queue, the tick count, the learning queue to Bench (records of
R237 as 128-bit numbers), tokens taken from its bucket, the last 256 keys notified as miss or secure in this tick, and the entries due for
aging that the scanner has still to send to the queue. -/
structure L2State where
  entries : Sparse L2Entry := []
  queue : List L2Change := []
  tick : Nat := 0
  notes : List Nat := []
  tokensUsed : Nat := 0
  recent : List (Nat × Nat × Nat) := []
  due : List Nat := []
  deriving DecidableEq, Repr

/-- One route that the Bench route builder holds (R242): VRF, family, prefix length, address as a 128-bit number from the
first byte, result word. -/
structure Route where
  vrf : Nat
  family : Nat
  len : Nat
  addr : Nat
  result : Nat
  deriving DecidableEq, Repr

/-- The LPM trie, next hops and ECMP tables (chapter 09): entries as numbers; the route builder's routes, its next free pool
entry and the next free member slot of the loader. -/
structure LpmState where
  pool : Sparse Nat := []
  nh : Sparse Nat := []
  ecmp : Sparse Nat := []
  member : Sparse Nat := []
  smac : Sparse Nat := []
  routes : List Route := []
  next : Nat := 8192
  memberNext : Nat := 0
  deriving DecidableEq, Repr

/-- What the block puts out to agents outside the model, in order. -/
inductive Output where
  /-- An MSI-X message (R131). -/
  | msix (vector addrLo addrHi data : Nat)
  /-- Bytes written to host memory: ring entries, receive buffers, reports. -/
  | hostWrite (addr : Nat) (bytes : List Byte)
  /-- Bytes written to the memory of the management cores: entries of the rings of window B and of Hallmark's path (R286, R610). -/
  | mgmtWrite (addr : Nat) (bytes : List Byte)
  /-- A frame leaving a port: destination, bytes before the FCS, FCS sent inverted (R22). -/
  | frame (dest : Nat) (bytes : List Byte) (stomped : Bool)
  /-- A learning record (R237) taken by Bench. -/
  | learnRecord (bits : Nat)
  /-- A frame delivered to a host queue or taken by Bench from its queue, with its ingress time, epoch and exception vector
  (R196, R468). -/
  | hostFrame (queue time epoch exc : Nat) (bytes : List Byte)
  /-- A bus transfer started (AVSBus, I²C, MDIO) with its words. -/
  | bus (name : String) (words : List Nat)
  /-- A port's PCS begins or ends sending remote fault to its partner (R170). -/
  | remoteFault (port : Nat) (sent : Bool)
  /-- Flits of 32 bytes on a tie link (R486): those of one message (R491; a frame message's body is its tie descriptor and its bytes), or an idle
  flit that returns credits. -/
  | tieFlits (link : Nat) (flits : List Flit)
  deriving DecidableEq, Repr
end Sys2Proof.Machine
end

