-- ==== Sys2Proof/Machine/FlowParts.lean ====
section
/-! DEFINITION. The parts of the state that frames and flows live in: frames, rule versions, buffer pools, the switch core, egress
scheduling, the flow table, dispatchers, engines and microcode banks. Every part is plain data. -/

namespace Sys2Proof.Machine

/-! ### Frames -/

/-- A frame in the device, with what its descriptor (R13), edit record (R390) and tie descriptor (R492) carry. `bytes` are
the bytes before the FCS that have arrived, `len` the MAC length with the FCS (R14). `raw8` is the ingress stamp in
0.16 ns units (R468). `nextHop` is in the form of R295 and `nhEntry` the content read at stage 5 (R13). `cells` are the P0
cells held on requester `req`, of which the first `freed` are free again. `sent` counts bytes of the crossbar stream, the
8-byte descriptor included (R20). `twin` is the other use of the same cells, and `mirrorCopy` marks a copy made at output
group 35 (R411). `via` is the tie link a frame came by. `steer` is the program and key profile of an item on its way to its owner (R34). `meterWait` marks a frame whose fate waits for its
tail (R233, R432) and `noDest` one that stage 5 dropped. `sa` is the source lookup's result, held for the tail
(R232): 0 no learning, 1 miss, 2 hit on the same port, 3 dynamic on another, 4 static on another; `saFid` is the fid looked up, `saBad`
says that the entry hit has drop set, `saHit` that this is still to be counted, and `saDrop` that the frame waits for its tail. -/
structure Frame where
  live : Bool := false
  group : Nat := 0
  inSrc : Nat := 0
  bytes : List Byte := []
  len : Nat := 0
  complete : Bool := false
  bad : Bool := false
  ts : Nat := 0
  tsEpoch : Nat := 0
  raw8 : Nat := 0
  version : Option Nat := none
  profile : Nat := 0
  parsed : Bool := false
  hdrs : List Hdr := []
  exc : Nat := 0
  prp : Bool := false
  second : Bool := false
  actA : Nat := 0
  actB : Nat := 0
  cls : Nat := 0
  hash : Nat := 0
  key : List Byte := []
  bucket : Nat := 0
  digest : Nat := 0
  dest : Nat := 0
  nextHop : Nat := 0
  nhEntry : Nat := 0
  cells : List Nat := []
  req : Nat := 0
  freed : Nat := 0
  meterWait : Bool := false
  noDest : Bool := false
  sa : Nat := 0
  saIdx : Nat := 0
  saFid : Nat := 0
  saDrop : Bool := false
  saHit : Bool := false
  saBad : Bool := false
  inVoq : Bool := false
  ct : Bool := false
  sent : Nat := 0
  ageRef : Nat := 0
  ecn : Bool := false
  copy : Bool := false
  fromHost : Bool := false
  twin : Option Nat := none
  mirrorCopy : Bool := false
  steer : Option (Nat × Nat) := none
  voqRaw : Nat := 0
  overTie : Bool := false
  via : Nat := 0
  crossings : Nat := 0
  origin : Nat := 0
  finalDest : Option Nat := none
  residence : Int := 0
  tieAsym : Int := 0
  tieDelay : Int := 0
  deriving DecidableEq, Repr

/-- What a port's receive side holds: whether a frame is arriving, its identity unless its bytes are being discarded, how many bytes
before the FCS have arrived, and the frames not yet parsed, oldest first; of a frame whose bytes are discarded, its first bytes, whether
its MAC has counted it already, and what is known of it for learning at its tail (R232); and the max_frame in effect as the frame began,
by which it is tested (R182, R531). -/
structure RxPort where
  busy : Bool := false
  cur : Option Nat := none
  got : Nat := 0
  queue : List Nat := []
  head : List Byte := []
  counted : Bool := false
  late : Option Frame := none
  limit : Nat := 0
  deriving DecidableEq, Repr

/-! ### Rule versions (R206 to R213) -/

/-- One half of the classifier memory: rules as words keyed by 16 · index + word, rule count, mode (0 range, 1 tree), the tree's
nodes (128-bit numbers) and header, poisoned rules (R523), and for a live version the CLS and PRS values in effect that it
took (R209). -/
structure Half where
  rules : Sparse Word := []
  count : Nat := 0
  mode : Nat := 0
  nodes : Sparse Nat := []
  nodeCount : Nat := 0
  root : Nat := 0
  depth : Nat := 0
  poisoned : List Nat := []
  cfg : Sparse Word := []
  deriving DecidableEq, Repr

/-- The rule versions beside CLS.VERSION and VERSION_STATE: the halves, a check in progress (true for at_time), whether the check
has passed and waits for its time, whether a copy is in progress, whether staging is locked by a system commit (R508), when
the drain began and whether its overrun is counted, and the indirection tables keyed by 4,096 · table + entry (R221). -/
structure Versions where
  half0 : Half := {}
  half1 : Half := {}
  check : Option Bool := none
  copying : Bool := false
  locked : Bool := false
  drainRaw : Nat := 0
  drainOver : Bool := false
  ind : Sparse Nat := []
  deriving DecidableEq, Repr

/-! ### Buffers (R412) -/

/-- The buffer pools: the owner of each allocated buffer (requester + 1), keyed by 2¹⁹ · pool + index; software content;
buffers taken out of their pools and the error history (R521); and the last requester that each arbiter served at each priority, keyed by
4 · pool + priority (R416). -/
structure Pools where
  owner : Sparse Nat := []
  content : List Host.Cell := []
  retired : List Nat := []
  retireNext : List Nat := []
  errs : Sparse Nat := []
  lastServed : Sparse Nat := []
  deriving DecidableEq, Repr

/-! ### Switch core -/

/-- What egress edit does to a frame (R176, R245, R396): the next-hop rewrite with the source MAC it read, and the redundancy
framing: 0 none, 1 append a trailer, 2 insert a tag, 3 remove the trailer, 4 remove the tag, 5 trailer to tag, 6 tag to
trailer; `tags` 802.1Q and 802.1ad tags follow the frame's source address. -/
structure EditPlan where
  rewrite : Bool := false
  smac : Nat := 0
  red : Nat := 0
  tags : Nat := 0
  seq : Nat := 0
  side : Nat := 0
  netId : Nat := 0
  deriving DecidableEq, Repr

/-- A frame at a destination's output, in transmit order, and how far it has got. `edited` and `started` follow R11 stages 11
and 12. `early` marks a frame that the MAC ended (R406), `holding` one that waits for its gate or for credits (R444, R488),
`dropped` one that edit dropped (R179). `patches` are bytes written as the frame starts (R473): offset and bytes. Of a frame that has started, `startAt` is when, or when its port's
gates were last found anew, `gateCls` its class, and `shut` says that its gate has closed before that (R444); `stamp` is its egress stamp
(R173, R582) and `sdu` the maximum SDU in effect at its start (R442). -/
structure EgFrame where
  id : Nat
  edited : Bool := false
  started : Bool := false
  early : Bool := false
  holding : Bool := false
  dropped : Bool := false
  plan : EditPlan := {}
  patches : List (Nat × List Byte) := []
  startAt : Nat := 0
  gateCls : Nat := 0
  shut : Bool := false
  stamp : Nat := 0
  sdu : Nat := 0
  deriving DecidableEq, Repr

/-- A crossbar cell (R390): its header (input group, destination, class, payload bytes used, frames that begin in it), the descriptors of
the frames that begin in it, the frames with bytes in it, and the partner port that gave it a place as well (R403). -/
structure XCell where
  group : Nat := 0
  dst : Nat := 0
  cls : Nat := 0
  used : Nat := 0
  begins : Nat := 0
  descs : List Nat := []
  frames : List Nat := []
  pair : Option Nat := none
  deriving DecidableEq, Repr

/-- One destination: its frames in transmit order, the partner's copies waiting in its queues (R177), the cells in its transmit buffer,
places that the partner's frames use (R403), the frame lock (input group, class), and the input pointer (R399). -/
structure Dest where
  eg : List EgFrame := []
  copies : List EgFrame := []
  cells : List XCell := []
  extra : Nat := 0
  lock : Option (Nat × Nat) := none
  inPtr : Nat := 0
  busyUntil : Nat := 0
  deriving DecidableEq, Repr

/-- The switch core: VOQs keyed by their number (R391; destination 266 stands for output group 35), destinations, and the
destination and accept pointers (R399, R400). -/
structure Switch where
  voq : Sparse (List Nat) := []
  dests : Sparse Dest := []
  destPtr : Sparse Nat := []
  accPtr : Sparse Nat := []
  guardLow : Bool := false
  deriving DecidableEq, Repr

/-! ### Egress scheduling, meters, gates (chapter 15) -/

/-- A token bucket: tokens in units of 2⁻¹⁶ byte as of a raw count. -/
structure Bucket where
  tok : Int := 0
  raw : Nat := 0
  deriving DecidableEq, Repr

/-- A meter (R432, R433): its parameters as written (METER_CFG, CIR, CBS, EIR, EBS), buckets, state, counters and wraps. -/
structure Meter where
  cfg : Nat := 0
  cir : Nat := 0
  cbs : Nat := 0
  eir : Nat := 0
  ebs : Nat := 0
  cTok : Int := 0
  eTok : Int := 0
  raw : Nat := 0
  blocked : Bool := false
  allRed : Bool := false
  cnt : Sparse Nat := []
  wraps : Nat := 0
  deriving DecidableEq, Repr

/-- The header values of one gate control list (R436): base in 2⁻¹⁶ ns, cycle and extension in ns, entry count. -/
structure GateList where
  base : Nat := 0
  cycle : Nat := 1000000
  ext : Nat := 0
  count : Nat := 1
  deriving DecidableEq, Repr

/-- The egress schedulers: virtual time per destination, start tags and activity per 8 · d + c, shapers per 9 · d + c (c = 8 is the
port shaper), meters, gate lists per 2 · d + list, entries per 512 · d + 256 · list + entry (interval, gates), pending takeover
times. -/
structure Egress where
  vtime : Sparse Nat := []
  tags : Sparse Nat := []
  active : Sparse Bool := []
  held : Sparse Bool := []
  shapers : Sparse Bucket := []
  meters : Sparse Meter := []
  lists : Sparse GateList := []
  gcl : Sparse (Nat × Nat) := []
  takeover : Sparse Nat := []
  deferred : Sparse Nat := []
  deriving DecidableEq, Repr

/-! ### The flow table (chapter 10) -/

/-- A flow-cache line (R275). `pos` is a slot 0–3 or 4 + overflow entry. `leaving` marks the line of a record whose slot is
retiring (R280): no lookup matches it. -/
structure Line where
  bucket : Nat
  digest : Nat
  recIndex : Nat
  pos : Nat
  data : List Byte
  dirty : Bool := false
  locked : Bool := false
  leaving : Bool := false
  deriving DecidableEq, Repr

/-- A retiring slot on the pending list (R280), and whether its cleanup has been issued. -/
structure Retiring where
  bucket : Nat
  pos : Nat
  recIndex : Nat
  reason : Nat
  issued : Bool := false
  deriving DecidableEq, Repr

/-- The flow table: HBM bytes, the overflow store (entries as 128-bit numbers), the flow cache (most recently used first), the
high-water mark, free indices with their last generations (pool; held for 100 µs since a raw count; spilled chain), slots
and entries reserved by creates, the export queue (ring 1 H, 2 B, record), pending slots, when the scanner's pass began, and
per window copy the command ring: entries handed over (16,384 · window + index modulo 2ⁿ⁺¹), the index taken up to, entries
complete out of order, whether it stopped on cmd_error, the base and n that the device took when it was enabled (R286), and the
entries whose DMA PERST_N abandoned (R68). -/
structure FlowState where
  hbm : List Host.Cell := []
  ovf : Sparse Nat := []
  cache : List Line := []
  hwm : Nat := 0
  pool : List (Nat × Nat) := []
  holds : List (Nat × Nat × Nat) := []
  chain : List (Nat × Nat) := []
  reserved : List Nat := []
  exportQ : List (Nat × List Byte) := []
  retiring : List Retiring := []
  scanRaw : Nat := 0
  ring : Sparse (List Byte) := []
  taken : Sparse Nat := []
  done : List (Nat × Nat) := []
  stopped : List Nat := []
  ringAt : Sparse (Option (Nat × Nat)) := []
  abandoned : List (Nat × Nat) := []
  deriving DecidableEq, Repr

/-! ### Dispatchers (chapter 12) -/

/-- Where an admitted item is (R332, R337, R346, R349): eligible or behind a head (ready), parked, with its lookup in flight
(selected), staged, in an engine's prefetched slot, or running in an engine; for a table operation, running in the table unit. -/
inductive Stage where
  | ready | parked | selected | staged | prefetched | running
  deriving DecidableEq, Repr

/-- What a table operation does (R329): nothing for a frame item. The last five are what else touches a bucket and so runs under its tag
(R17): creating a record that a state sync brought (R498), acting on a record, bucket or overflow entry found not correctable outside
an operation (R278), and giving away a record whose entry has a new owner (R498 step 4, R506). -/
inductive TableOp where
  | frame
  | retireCheck (pos recIndex : Nat)
  | cleanup (pos recIndex : Nat)
  | command (win ringIndex : Nat)
  | sync (entry epoch : Nat) (record : List Byte)
  | lostRecord (pos recIndex : Nat)
  | lostBucket
  | lostEntry (e : Nat)
  | evict (pos recIndex : Nat)
  deriving DecidableEq, Repr

/-- A work item or table operation (R330). `status`, `recIndex`, `pos` and `window` are what its lookup found (R263); `stall` marks a
lookup that waits for a line of its set (R276); `cancel` is the reason of a cancel (R345) and `late` says that it found the
item started. `ord` counts the admissions of all clusters before its own, which a transfer keeps (R352). `orphan` marks a started item whose dispatcher was cleared: its release finds no entry (R355). -/
structure Item where
  op : TableOp := .frame
  tag : Nat := 0
  digest : Nat := 0
  key : List Byte := []
  cls : Nat := 0
  program : Nat := 0
  keyProfile : Nat := 0
  frame : Nat := 0
  seq : Nat := 0
  admitted : Nat := 0
  stage : Stage := .ready
  cancel : Option Nat := none
  transferred : Bool := false
  ord : Nat := 0
  waited : Bool := false
  engine : Nat := 0
  looked : Bool := false
  stall : Bool := false
  status : Nat := 1
  recIndex : Nat := 0
  pos : Nat := 0
  window : List Byte := []
  late : Bool := false
  orphan : Bool := false
  deriving DecidableEq, Repr

/-- One cluster's dispatcher: its items in arrival order, admission sequence, the weighted cycle's queue and the selections left
in it, the prefetch round robin, and whether ready_high may not be raised again yet (R343). -/
structure Cluster where
  items : List Item := []
  seq : Nat := 0
  wq : Nat := 5
  wleft : Nat := 0
  rr : Nat := 0
  high : Bool := false
  deriving DecidableEq, Repr

/-- A migration fence (R348): phase (0 closed, 1 waiting for target, 2 draining old, 3 releasing), old and new cluster, when step 1
ran, whether it belongs to a rewrite, and whether it overran. -/
structure Fence where
  phase : Nat := 0
  old : Nat := 0
  new : Nat := 0
  openRaw : Nat := 0
  rewrite : Bool := false
  overran : Bool := false
  deriving DecidableEq, Repr

/-- All dispatchers: clusters, fences and homes by steering entry, write-backs due when a fence closes (R353), clusters taken
out since their return, table operations that wait for admission (R342), the counts of the millisecond in progress per
cluster (engine cycles, items ended), the entry of the latest steering write (CLS.IND_STATUS.busy), and the number of items and
operations admitted so far, in any cluster. -/
structure Dispatch where
  clusters : Sparse Cluster := []
  fences : Sparse Fence := []
  homes : Sparse Nat := []
  back : List Nat := []
  out : List Nat := []
  opWait : List Item := []
  rewriting : Bool := false
  latest : Option Nat := none
  busyNow : Sparse Nat := []
  endedNow : Sparse Nat := []
  arrivals : Nat := 0
  deriving DecidableEq, Repr

/-! ### Engines and microcode (chapter 11) -/

/-- An external result not yet delivered (R304): register, value, and for a flow operation its result code. -/
structure ExtPending where
  reg : Nat
  value : Nat
  flow : Bool := false
  deriving DecidableEq, Repr

/-- A flow operation that waits for the item's end (R264): its kind (0 create, 1 delete, 2 pin, 3 unpin), pinned, and for a create the
index, generation and place key it reserved. -/
structure FlowOp where
  kind : Nat
  pinned : Bool := false
  index : Nat := 0
  gen : Nat := 0
  place : Nat := 0
  deriving DecidableEq, Repr

/-- An engine's running item (R293 to R295): its admission sequence number, bank, word address, program-table values, words executed,
registers, predicates (bits), return addresses, scratch, the header-window bytes the program has written, the other windows, outstanding results, the latest flow operation's
result, deferred operations, the verdict and gen of an executed end, and what a machine check left (R313): waiting for a
reload, second run, words that failed. -/
structure Run where
  item : Nat := 0
  bank : Nat := 0
  pc : Nat := 0
  entry : Nat := 0
  maxWords : Nat := 0
  words : Nat := 0
  regs : Sparse Nat := []
  preds : Nat := 0
  stack : List Nat := []
  scratch : List Byte := []
  hdr : Sparse Nat := []
  recw : List Byte := []
  desc : List Byte := []
  desc0 : List Byte := []
  pend : List ExtPending := []
  flowRes : Option Nat := none
  ops : List FlowOp := []
  exists_ : Bool := false
  counts : List (Nat × Nat) := []
  hists : List (Nat × Nat) := []
  ended : Option (Nat × Bool) := none
  forced : Bool := false
  reload : Bool := false
  retry : Bool := false
  failedWord : Nat := 0
  deriving DecidableEq, Repr

/-- One engine: its running item, and the admission sequence number of its prefetched item. -/
structure Engine where
  run : Option Run := none
  next : Option Nat := none
  deriving DecidableEq, Repr

/-- One cluster's microcode: words (196 bits) and golden words keyed by 8,192 · bank + word, program tables keyed by
256 · bank + program (64-bit entries), word counts, words marked for reload, words with a first machine check (R314), banks
with a golden copy and banks whose golden copy is unreadable, bank-load progress, and the comparison position. -/
structure Store where
  words : Sparse Nat := []
  golden : Sparse Nat := []
  progs : Sparse Nat := []
  goldProgs : Sparse Nat := []
  count0 : Nat := 0
  count1 : Nat := 0
  marked : List Nat := []
  failed : List Nat := []
  badGold : List Nat := []
  loading : Option (Nat × List Byte) := none
  comparePos : Nat := 0
  deriving DecidableEq, Repr

/-- Engines and stores. -/
structure Engines where
  engines : Sparse Engine := []
  stores : Sparse Store := []
  deriving DecidableEq, Repr

end Sys2Proof.Machine
end

