-- ==== Sys2Proof/Machine/MgmtParts.lean ====
section
/-! DEFINITION. The parts of the state that belong to management: Bench's host queues, firmware, the mesh, recovery and slow I/O.
Every part is plain data. -/

namespace Sys2Proof.Machine

/-- A frame handed to the host or Bench: its ingress time and epoch (R468), its exception vector (R196) and its bytes. -/
structure HostFrame where
  time : Nat
  epoch : Nat
  exc : Nat
  bytes : List Byte
  deriving DecidableEq, Repr

/-- One host queue that is delivered to Bench (R552): frames waiting, tokens taken from its bucket, frames dropped. -/
structure BenchQueue where
  frames : List HostFrame := []
  tokensUsed : Nat := 0
  dropped : Nat := 0
  deriving DecidableEq, Repr

/-! ### The mesh (chapter 17) -/

/-- One entry of the owner map (R497): its owner (none: the device that every entry named when the mesh formed), owner epoch, moving flag;
whether items no longer park at a new owner (its transfer is done, or there is none); whether this device is the old owner
and still has its records to send; when this device's forward window opened and whether it is over (R500); the device that
gave the entry up and when the change was made here; on the manager, whether the new owner has acknowledged step 5, the
window copy of OWN_MOVE that started the move; whether the latest move was aborted (R499); the link whose transfer done waits for creates
(R498 step 5); and whether this device's records are to be retired once its items have ended, with no new owner to send them to (R506). -/
structure OwnEntry where
  owner : Option Nat := none
  epoch : Nat := 0
  moving : Bool := false
  settled : Bool := false
  giving : Bool := false
  fwdRaw : Option Nat := none
  late : Bool := false
  fromDev : Nat := 0
  beganRaw : Nat := 0
  done : Bool := false
  win : Option Nat := none
  aborted : Bool := false
  ending : Option Nat := none
  purge : Bool := false
  deriving DecidableEq, Repr

/-- A sequenced control message (R489): sequence number, kind, body, and how often it has been sent again. -/
structure CtlMsg where
  seq : Nat
  kind : Nat
  body : List Byte
  resends : Nat := 0
  deriving DecidableEq, Repr

/-- One tie link beside its registers (chapter 17): whether this end and the peer have accepted each other, the next sequence number,
messages not acknowledged and those that wait for the link's next start, the latest sequence number received in order, the codewords of the
block payload now arriving, none for one not corrected, and its two streams of messages (R485 to R487), the raw count at which the link
became active, whether a heartbeat has come since the previous tick and whether the peer counts as lost, what the peer's latest heartbeat
carried (manager_seen, lost bitmap, current version, whether one drains and whether its in-flight count is zero), credits
granted to the peer, the mesh_id and credit_cells in effect since the link's latest start (R514), and the time exchange in progress
(T1 and the epoch at T1). -/
structure TieLinkSt where
  ownOk : Bool := false
  peerOk : Bool := false
  txSeq : Nat := 1
  unacked : List CtlMsg := []
  kept : List CtlMsg := []
  rxSeq : Nat := 0
  got : List (Option (List Byte)) := []
  frameIn : Stream := {}
  ctlIn : Stream := {}
  since : Nat := 0
  heard : Bool := false
  lost : Bool := false
  peerSeen : Bool := false
  peerLost : Nat := 0
  peerCur : Nat := 0
  peerDraining : Bool := false
  peerIdle : Bool := false
  granted : Nat := 0
  meshId : Nat := 0
  credits : Nat := 0
  t1 : Option (Nat × Nat) := none
  deriving DecidableEq, Repr

/-- The system commit and version freeing (R507 to R509): on the manager the members that have not yet answered prepare, whether the
commit is at a stated time and that time; on every device the number it is prepared for and the time its commit is armed
for; whether a freeing round is in progress, the members whose markers have come and whose confirmations are missing;
whether start-up step 12 waits to join, and whether the draining version is one that this device drains by itself. -/
structure SysVersion where
  waiting : Nat := 0
  stated : Option (Nat × Nat) := none
  prepared : Option Nat := none
  commitAt : Option (Nat × Nat) := none
  freeing : Bool := false
  markers : Nat := 0
  confirms : Nat := 0
  joinWait : Bool := false
  localDrain : Bool := false
  deriving DecidableEq, Repr

/-- The mesh: the owner map, the device that owned every entry when it formed, links, the system version, the event forward's latest
record sent with the raw count at which it was, and the lead of a system commit in effect, in µs (R514). -/
structure Mesh where
  own : Sparse OwnEntry := []
  former : Option Nat := none
  links : Sparse TieLinkSt := []
  ver : SysVersion := {}
  fwdSent : Option Nat := none
  fwdRaw : Nat := 0
  leadUs : Nat := 500
  deriving DecidableEq, Repr

/-! ### Firmware (chapter 19) -/

/-- The header of the envelope of a Bench image that runs or is started (R538), the digest of its payload and its copy area. -/
structure BenchImage where
  version : Nat := 0
  rollback : Nat := 0
  signer : Nat := 0
  vaultMin : Nat := 0
  vaultMax : Nat := 0
  vaultWrite : Nat := 0
  digest : Nat := 0
  area : Nat := 0
  deriving DecidableEq, Repr

/-- A patch in service (R548): the clusters still to be written with their images, oldest first, all its clusters, and whether Hallmark
commits at its end. -/
structure Patch where
  left : List (Nat × List Byte) := []
  clusters : List Nat := []
  commit : Bool := false
  deriving DecidableEq, Repr

/-- Fuses being blown for an entry in service (R542, R543): the valid fuse of an owner key, which reads back as written or not; or the
rollback counter, up to a count. -/
inductive FuseOp where
  | enrol (ok : Bool)
  | rollback (before target : Nat)
  deriving DecidableEq, Repr

/-- Hallmark and Bench. Fuses: the owner key hash, its valid fuse and revoke bit, and the rollback count; and
fuses being blown. The flash directory read at start (the bytes of the copy used; region, offset and length of its entries,
R544) and the preferred slot. The payloads in the Bench copy areas of HBM and the areas with a word that cannot be corrected (R537), the
format and valid flag in the vault's first bytes (R554). The running Bench image and the one that a handover starts; the step a handover or emergency
restart has reached (0 none, 3 Bench copy bad, 4 new Bench starting, 6 quiescing, 8 new Bench taking over, 9 the old Bench restarting after a failure), the cause of an emergency restart (1 machine
check, 2 memory error, 3 watchdog), whether the quiesce was forced, when the window began and the latest emergency; the raw count of Bench's
start; whether the watchdog has warned since the latest kick. Mailbox entries handed over, by 2,048 · m + ring index, rings stopped by
mbox_error, entries of mailbox 1 ended out of turn (R551), whether PERST_N has taken away the entry in service (R68), and a patch in
service. -/
structure Firmware where
  ownerHash : Nat := 0
  ownerValid : Bool := false
  ownerRevoked : Bool := false
  rollback : Nat := 0
  fusing : Option FuseOp := none
  dirBytes : List Byte := []
  copies : Sparse (List Byte) := []
  badCopies : List Nat := []
  vaultFormat : Nat := 0
  vaultValid : Bool := false
  dir : List (Nat × Nat × Nat) := []
  preferred : Nat := 0
  image : BenchImage := {}
  next : BenchImage := {}
  phase : Nat := 0
  emergency : Option Nat := none
  forced : Bool := false
  windowRaw : Nat := 0
  lastEmergency : Option Nat := none
  benchRaw : Nat := 0
  warned : Bool := false
  boxes : Sparse (List Byte) := []
  stopped : List Nat := []
  ended : List Nat := []
  lostEntry : Bool := false
  patch : Option Patch := none
  deriving DecidableEq, Repr

/-! ### Recovery (chapter 18) -/

/-- Error history: per stack the raw counts of uncorrectable reads within the last second and the consecutive recalibrations that failed;
stacks above 95 °C (bits); per target the raw counts of its recoveries, and the targets left in FAULT at the limit (R525); per
store the raw count at which its pass began; whether retire_limit has been raised for a pool (bits); passes of the buffer pools ended. -/
structure Recovery where
  unc : Sparse (List Nat) := []
  recal : Sparse Nat := []
  hot : Nat := 0
  recovered : Sparse (List Nat) := []
  given : List Nat := []
  passRaw : Sparse Nat := []
  limited : Nat := 0
  poolPass : Nat := 0
  deriving DecidableEq, Repr

/-! ### Slow I/O (chapter 21) -/

/-- Slow I/O beside its registers: whether thermal_high and thermal_critical wait for the temperature to fall again (R607), and whether the
sensors have been read since power-on. -/
structure SlowIo where
  high : Bool := false
  critical : Bool := false
  seen : Bool := false
  deriving DecidableEq, Repr

end Sys2Proof.Machine
end

