-- ==== Sys2Proof/Machine/State.lean ====
section
/-! DEFINITION. The state of the block, its faults and refusals, and the state after reset. -/

namespace Sys2Proof.Machine

/-- Why a step stops with a fault. -/
inductive Fault where
  /-- SCRUB_READ names an HBM address above the regions in use (R30, R516): the device never reads there. Safe: the model stops
  where the spec gives no such read. -/
  | hbmAbsent
  deriving DecidableEq, Repr

/-- Why a command is refused. -/
inductive Refusal where
  /-- No meaning yet; the mnemonic of the row. Safe. -/
  | notModelled (mnemonic : String)
  /-- The command names a channel, port, rail, cluster or other index that the hardware does not have: raised by every
  meaning whose operand is out of the range of R1 or R105. Safe: no agent can send it. -/
  | noSuchTarget
  deriving DecidableEq, Repr

/-- The state of the block. -/
structure State where
  pending : List Instr := []
  variant : Variant := .kg4256
  fab : Fabric := {}
  evt : Events := {}
  tmk : Touchmark := {}
  pcn : Pcn := {}
  tim : TimeIsland := {}
  pwr : Power := {}
  start : Startup := {}
  lanes : Lanes := {}
  l2 : L2State := {}
  lpm : LpmState := {}
  frames : Sparse Frame := []
  nextFrame : Nat := 0
  rx : Sparse RxPort := []
  ver : Versions := {}
  pools : Pools := {}
  sw : Switch := {}
  egr : Egress := {}
  flow : FlowState := {}
  dsp : Dispatch := {}
  fen : Engines := {}
  bq : Sparse BenchQueue := []
  mesh : Mesh := {}
  fw : Firmware := {}
  recov : Recovery := {}
  io : SlowIo := {}
  out : List Output := []
  deriving DecidableEq, Repr

/-- The state right after power-on reset: every register at its reset value, nothing listed in any store, the start-up
sequence at step 1 (R85). The straps are not sampled yet: their fields read 0 (DESIGN CHOICE, assumption log 99). -/
def State.reset : State := {}

end Sys2Proof.Machine
end

