-- ==== Sys2Proof/Machine/Ops.lean ====
section
/-! DEFINITION. The named operations over the register fabric, counters, targets and time that every unit uses. -/

namespace Sys2Proof.Machine

/-! ### Outcomes -/

/-- A command whose operands name existing things has its effect; any other is refused by name. -/
def guarded (ok : Bool) (t : State) : Host.Outcome State Fault Refusal :=
  if ok then .next t else .refused .noSuchTarget

/-- Append to the outputs of the block. -/
def emit (o : Output) (s : State) : State := { s with out := s.out ++ [o] }

/-- Take a fresh free value (assumption log, entry 1). -/
def takeFree (s : State) : Nat × State :=
  ((Config.freeValue s.fab.freeCount).toNat, { s with fab := { s.fab with freeCount := s.fab.freeCount + 1 } })

/-- Apply `f` when `c` holds. -/
def onlyIf (c : Bool) (f : State → State) (s : State) : State := if c then f s else s

/-- Whether `ns` nanoseconds have passed since raw count r: a cycle lasts 1.28 ns (R449). -/
def rawPassed (r ns : Nat) (s : State) : Bool := decide (ns * 25 ≤ (s.tim.raw - r) * 32)

/-! ### Registers -/

/-- The registers of a block. -/
def regsOf : Block → List RegSpec
  | .sys => regsSys | .evt => regsEvt | .hmk => regsHmk | .bnc => regsBnc | .pwr => regsPwr | .cfg => regsCfg
  | .rst => regsRst | .lan => regsLan | .prt => regsPrt | .tie => regsTie | .prs => regsPrs | .cls => regsCls
  | .l2t => regsL2t | .lpm => regsLpm | .flt => regsFlt | .fch => regsFch | .hbm => regsHbm | .dsp => regsDsp
  | .fen => regsFen | .mcs => regsMcs | .bpm => regsBpm | .swc => regsSwc | .tmg => regsTmg | .tim => regsTim
  | .tsu => regsTsu | .tmk => regsTmk | .pcn => regsPcn | .hif => regsHif | .mio => regsMio | .scr => regsScr

/-- Whether a register array covers a window offset. -/
def covers (r : RegSpec) (off : Nat) : Bool :=
  decide (r.off ≤ off ∧ off < r.off + r.count * r.stride ∧ (off - r.off) % r.stride = 0)

/-- The register at a window offset (R105, R114), common headers apart. -/
def findReg (off : Nat) : Option RegSpec :=
  match blockOfPage (off / 0x1000) with
  | none => none
  | some b => (regsOf b).find? (fun r => covers r off)

/-- The key of one copy of a register: the copy number (channel, window or selected index) and the window offset. -/
def rkey (off inst : Nat) : Nat := inst * 0x40000 + off

/-- The reset value that the register tables give, as one word. -/
def tableReset (off : Nat) : Nat :=
  match findReg off with
  | none => 0
  | some r => r.fields.foldl (fun a f => a + f.reset * 2 ^ f.lo) 0

/-- The reset value of one copy of a register (R9): the table's, but where the tables make it depend on the copy. -/
def resetNat (off inst : Nat) : Nat :=
  if 0x3C800 ≤ off ∧ off < 0x3CC00 then (if off % 16 = 12 then 1 else 0)
  else if 0x01100 ≤ off ∧ off < 0x011C0 then
    (let g := (off - 0x01100) / 4; g + 0x40 + (g % 32) * 0x100 + 0x6000)
  else if off = 0x08080 ∧ 256 ≤ inst then 2 + 4 * 4 + (tableReset off - bitsOf (tableReset off) 0 5)
  else if off = 0x2C0E4 then
    (if inst < 36 then tableReset off
     else if inst < 48 then withBits (withBits (tableReset off) 0 2 1) 3 2 2
     else withBits (withBits (tableReset off) 0 2 1) 3 2 1)
  else if off = 0x2C0F0 then (if inst < 36 then 0x800 else 0)
  else if off = 0x2C110 then (if inst < 36 then 0x40000 else 0)
  else if off % 0x1000 < 0x80 then
    (match blockOfPage (off / 0x1000) with
     | none => 0
     | some b => if blockBase b ≤ off ∧ off < blockBase b + 0x70 ∧ off % 16 = 12 ∧ blockBase b + 0x20 ≤ off then 0x0A0A10
        else tableReset off)
  else tableReset off

/-- What an unlisted register reads as. -/
def regReset (k : Nat) : Word := BitVec.ofNat 32 (resetNat (k % 0x40000) (k / 0x40000))

/-- What reads of one copy of a register return (the shadow, for RWS fields). -/
def reg (off inst : Nat) (s : State) : Word := sget regReset s.fab.regs (rkey off inst)

/-- The value in effect of one copy of a shadowed register (R118). -/
def liveReg (off inst : Nat) (s : State) : Word := sget regReset s.fab.live (rkey off inst)

/-- Store one copy of a register. -/
def putReg (off inst : Nat) (v : Word) (s : State) : State :=
  { s with fab := { s.fab with regs := sset regReset s.fab.regs (rkey off inst) v } }

/-- Put a value of one copy of a shadowed register into effect. -/
def putLive (off inst : Nat) (v : Word) (s : State) : State :=
  { s with fab := { s.fab with live := sset regReset s.fab.live (rkey off inst) v } }

/-- Field `f` of element `i` of its array, in copy `c`. -/
def rdX (f : Fld) (i c : Nat) (s : State) : Nat := wordField (reg (f.off + i * f.stride) c s) f.lo f.w

/-- The field of a global register. -/
def rd (f : Fld) (s : State) : Nat := rdX f 0 0 s

/-- The field of copy `c` (a channel, a window, a selected index). -/
def rdC (f : Fld) (c : Nat) (s : State) : Nat := rdX f 0 c s

/-- The value in effect of field `f` of element `i`, copy `c`. -/
def cfX (f : Fld) (i c : Nat) (s : State) : Nat := wordField (liveReg (f.off + i * f.stride) c s) f.lo f.w

/-- The value in effect of a global field. -/
def cf (f : Fld) (s : State) : Nat := cfX f 0 0 s

/-- The value in effect of a field of copy `c`. -/
def cfC (f : Fld) (c : Nat) (s : State) : Nat := cfX f 0 c s

/-- Set field `f` of element `i`, copy `c`. -/
def wrX (f : Fld) (i c v : Nat) (s : State) : State :=
  putReg (f.off + i * f.stride) c (wordWith (reg (f.off + i * f.stride) c s) f.lo f.w v) s

/-- Set a field of a global register. -/
def wr (f : Fld) (v : Nat) (s : State) : State := wrX f 0 0 v s

/-- Set a field of copy `c`. -/
def wrC (f : Fld) (c v : Nat) (s : State) : State := wrX f 0 c v s

/-- Add to a field that saturates at all ones. -/
def satX (f : Fld) (i c d : Nat) (s : State) : State := wrX f i c (satAdd (rdX f i c s) d (2 ^ f.w - 1)) s

/-- Add one to a saturating global field. -/
def sat1 (f : Fld) (s : State) : State := satX f 0 0 1 s

/-- Add one, modulo the field's width. -/
def incX (f : Fld) (i c : Nat) (s : State) : State := wrX f i c (rdX f i c s + 1) s

/-! ### Windows and channels -/

/-- The number of a window's own copies (R109, R110): H 0, B 1, Hallmark's path 2. -/
def winIdx : Window → Nat
  | .h => 0
  | .b => 1
  | .hm _ _ => 2

/-- The key of a latch. -/
def latchKey (w : Window) (b : Block) : Nat := blockCode b * 4 + winIdx w

/-- The channel-select latch of a window (R111); Hallmark's accesses name the channel themselves (R110). -/
def latch (w : Window) (b : Block) (s : State) : ChanLatch :=
  match w with
  | .hm c whole => ⟨c % chanCount b, false, whole⟩
  | .h => sget (fun _ => ({} : ChanLatch)) s.fab.latches (latchKey w b)
  | .b => sget (fun _ => ({} : ChanLatch)) s.fab.latches (latchKey w b)

/-- The channel that a window's access to block `b` reaches. -/
def selChan (w : Window) (b : Block) (s : State) : Nat := if chanCount b = 1 then 0 else (latch w b s).chan

/-- The target that BLOCK_CTL, BLOCK_STATE and BLOCK_RESET reach through a window (R113). -/
def selTarget (w : Window) (b : Block) (s : State) : Target :=
  if chanCount b = 1 ∨ (latch w b s).whole then ⟨b, none⟩ else ⟨b, some (latch w b s).chan⟩

/-- Change a window's latch. -/
def putLatch (w : Window) (b : Block) (l : ChanLatch) (s : State) : State :=
  { s with fab := { s.fab with latches := sset (fun _ => ({} : ChanLatch)) s.fab.latches (latchKey w b) l } }

/-- Record what a read through a window returned. -/
def putRead (w : Window) (v : Word) (s : State) : State :=
  match w with
  | .h => { s with fab := { s.fab with rdH := v } }
  | .b => { s with fab := { s.fab with rdB := v } }
  | .hm _ _ => { s with fab := { s.fab with rdM := v } }

/-! ### Targets of the common state machine (R121) -/

/-- A target with one channel is the block-wide part itself (R113). -/
def normTarget (t : Target) : Target := if chanCount t.block = 1 then ⟨t.block, none⟩ else t

/-- Whether a target exists on the hardware. -/
def targetOk (t : Target) : Bool :=
  match t.chan with
  | none => true
  | some c => decide (c < chanCount t.block)

/-- The key of a target. -/
def tgtKey (t : Target) : Nat :=
  match (normTarget t).chan with
  | none => blockCode t.block * 1024
  | some c => blockCode t.block * 1024 + c + 1

/-- A target at reset: OFF with enable 0, but for HBM, whose enable reads 1 from reset (R123). -/
def tgtReset (k : Nat) : Tgt := if k / 1024 = blockCode .hbm then { enable := true } else {}

/-- The state-machine record of a target. -/
def tgt (t : Target) (s : State) : Tgt := sget tgtReset s.fab.targets (tgtKey t)

/-- Store a target's record. -/
def putTgt (t : Target) (x : Tgt) (s : State) : State :=
  { s with fab := { s.fab with targets := sset tgtReset s.fab.targets (tgtKey t) x } }

/-- Change a target's record. -/
def modTgt (t : Target) (f : Tgt → Tgt) (s : State) : State := putTgt t (f (tgt t s)) s

/-- The part number that SYS.PART_ID and a capability message show (R4, R490). -/
def partNumber (s : State) : Nat :=
  match s.variant with
  | .kg4256 => 0x4256
  | .kg4128 => 0x4128

/-- Whether a channel is fused off (R2). -/
def isFused (b : Block) (c : Nat) (s : State) : Bool := fusedOff s.variant b c

/-- Whether a target is fused off (R2). -/
def tgtFused (t : Target) (s : State) : Bool :=
  match (normTarget t).chan with
  | none => false
  | some c => isFused t.block c s

/-- Whether the block-wide part of a block is ON. -/
def blockOn (b : Block) (s : State) : Bool := decide ((tgt ⟨b, none⟩ s).st = .on)

/-- Whether a channel is ON. -/
def chanOn (b : Block) (c : Nat) (s : State) : Bool := decide ((tgt ⟨b, some c⟩ s).st = .on)

/-! ### Device states (R77, CFG.START_STATE) -/

/-- The device state in CFG.START_STATE: 0 starting, 1 ready_for_config, 2 awaiting_host, 3 held, 4 active. -/
def devState (s : State) : Nat := rd cfgStartState_state s

/-- The device is active. -/
def active (s : State) : Bool := decide (devState s = 4)

/-- The device is held (R98). -/
def held (s : State) : Bool := decide (devState s = 3)

/-! ### Time (R449 to R452) -/

/-- Units of 2⁻¹⁶ ns in 2⁴⁸ seconds: the range of a time value. -/
def timeMod : Nat := 2 ^ 48 * (1000000000 * 65536)

/-- The time base at the current raw count (R451): T_a + (r − r_a) × 1.28 ns × (1 + a × 2⁻⁴⁰), truncated to 2⁻¹⁶ ns. -/
def timeAt (t : TimeIsland) (raw : Nat) : Nat :=
  (t.anchorTime + (((raw - t.anchorRaw : Nat) : Int) * 128 * 65536 * ((2 ^ 40 : Int) + t.rate) / (100 * (2 ^ 40 : Int))).toNat)
    % timeMod

/-- The time base now. -/
def timeNow (s : State) : Nat := timeAt s.tim s.tim.raw

/-- Seconds of a time value. -/
def secOf (t : Nat) : Nat := t / (1000000000 * 65536)

/-- Nanoseconds of a time value. -/
def nsOf (t : Nat) : Nat := t / 65536 % 1000000000

/-- Fraction of a time value. -/
def fracOf (t : Nat) : Nat := t % 65536

/-- A time value from seconds, nanoseconds and fraction. -/
def mkTime (sec ns frac : Nat) : Nat := (sec * 1000000000 + ns) * 65536 + frac

/-- A is at or after B (R452): the difference modulo 2⁴⁸ s, read as signed, is not negative. -/
def atOrAfter (a b : Nat) : Bool := decide ((a + timeMod - b % timeMod) % timeMod < timeMod / 2)

/-- The 12 bytes of a time value in the form of R450. -/
def timeBytes (t : Nat) : List Byte := bytesLE 2 (fracOf t) ++ bytesLE 4 (nsOf t) ++ bytesLE 6 (secOf t)

/-! ### Counters (R183) -/

/-- The key of a window's own copy of something. -/
def winKey (w : Window) (k : Nat) : Nat := k * 4 + winIdx w

/-- A set of 64-bit counters: window offset of CNT0_LO, and the source raised when one wraps. -/
structure CtrSet where
  lo : Nat
  wrapSrc : Src
  perChan : Bool
  deriving DecidableEq, Repr

/-- The 64-bit value of counter `i` of copy `c`. -/
def ctr (k : CtrSet) (i c : Nat) (s : State) : Nat := sget (fun _ => 0) s.fab.counters (rkey (k.lo + 8 * i) c)

/-- Store a counter. -/
def putCtr (key v : Nat) (s : State) : State :=
  { s with fab := { s.fab with counters := sset (fun _ => 0) s.fab.counters key v } }

/-- Store a counter's live wrap bit. -/
def putWrap (key : Nat) (v : Bool) (s : State) : State :=
  { s with fab := { s.fab with wraps := sset (fun _ => false) s.fab.wraps key v } }

/-- Add to a counter; the Bool says whether it wrapped (its live wrap bit is then set). -/
def addCtr (key d : Nat) (s : State) : State × Bool :=
  let v := sget (fun _ => 0) s.fab.counters key + d
  if v < 2 ^ 64 then (putCtr key v s, false) else (putWrap key true (putCtr key (v % 2 ^ 64) s), true)

end Sys2Proof.Machine
end

