-- ==== Sys2Proof/Machine/Signals.lean ====
section
/-! DEFINITION. Assertions of event sources as ONE shared operation (R125 to R132), with what an assertion brings: the Touchmark
offer of R562 and R566, the edge-mode performance counters of R578, the MSI-X messages of R131. -/

namespace Sys2Proof.Machine

/-! ### Touchmark offers (R564, R566, R567) -/

/-- The limiter bucket of a code: codes from 0x0800 share one (R566). -/
def bucketOf (code : Nat) : Nat := if 0x800 ≤ code then 0x800 else code

/-- The tokens a full bucket holds (R566). -/
def bucketBurst (key : Nat) (s : State) : Nat :=
  if key = 0x800 then cf tmkLimitCfg_sharedBurst s else cf tmkLimitCfg_codeBurst s

/-- The time in ms in which a bucket gains one token (R566). -/
def bucketPeriod (key : Nat) (s : State) : Nat :=
  if key = 0x800 then 10 * cf tmkLimitCfg_sharedPeriod10ms s else 100 * cf tmkLimitCfg_codePeriod100ms s

/-- The tokens that a bucket has gained since it was last written. -/
def tokensGained (key : Nat) (s : State) : Nat := (s.tmk.opTime - sget (fun _ => 0) s.tmk.usedAt key) / bucketPeriod key s

/-- The tokens missing from a bucket now. -/
def tokensUsed (key : Nat) (s : State) : Nat := sget (fun _ => 0) s.tmk.used key - tokensGained key s

/-- A bucket misses `n` tokens now. A full one begins to count towards its next token. -/
def putUsed (key n : Nat) (s : State) : State :=
  let since := if tokensUsed key s = 0 then s.tmk.opTime else sget (fun _ => 0) s.tmk.usedAt key + tokensGained key s * bucketPeriod key s
  { s with tmk := { s.tmk with used := sset (fun _ => 0) s.tmk.used key n, usedAt := sset (fun _ => 0) s.tmk.usedAt key since } }

/-- Codes 0x0001 and 0x0002 are not limited (R566). -/
def limitedCode (code : Nat) : Bool := decide (code ≠ 1 ∧ code ≠ 2)

/-- The times, power-cycle count and origin that a record takes as it enters the FIFO (R559, R564). -/
def stampRec (r : Rec) (s : State) : Rec :=
  { r with
    flags := r.flags + 32 * rd timStatus_locked s
    chan := r.chan + 2048 * rd sysStrapSample_deviceId s
    powerCycle := s.tmk.powerCycle
    opTime := s.tmk.opTime
    epoch := s.tim.epoch
    wall := timeNow s }

/-- Put an admitted record into the staging FIFO, or lose it when all 64 places are full (R567). Answers 0 entered, 2 lost. -/
def enterFifo (r : Rec) (s : State) : State × Nat :=
  let key := bucketOf r.code
  let carried := sget (fun _ => 0) s.tmk.supp key
  let t := { s.tmk with supp := sset (fun _ => 0) s.tmk.supp key 0 }
  if s.tmk.fifo.length < 64 then
    ({ s with tmk := { t with fifo := t.fifo ++ [{ stampRec r s with suppressed := min carried 0xFFFF }] } }, 0)
  else
    (satX tmkStat_count 2 0 1
      { s with tmk := { t with
          lostN := t.lostN + 1
          lostSum := t.lostSum + carried
          lostTime := if t.lostN = 0 then t.opTime else t.lostTime
          lostCode := if t.lostN = 0 then r.code else t.lostCode } }, 2)

/-- What an offer did: 0 entered the FIFO, 1 suppressed, 2 lost (R570); `emptied` when it took its bucket's last token. -/
structure OfferResult where
  state : State
  result : Nat
  emptied : Bool

/-- Offer a record (R566, R567). -/
def offerRec (r : Rec) (s : State) : OfferResult :=
  if limitedCode r.code then
    let key := bucketOf r.code
    let used := tokensUsed key s
    if bucketBurst key s ≤ used then
      ⟨satX tmkStat_count 1 0 1
        { s with tmk := { s.tmk with
            supp := smod (fun _ => 0) s.tmk.supp key (· + 1)
            latest := (key, r) :: s.tmk.latest.filter (fun e => e.1 != key) } }, 1, false⟩
    else
      let e := enterFifo r (putUsed key (used + 1) s)
      ⟨e.1, e.2, decide (used + 1 = bucketBurst key s)⟩
  else
    let e := enterFifo r s
    ⟨e.1, e.2, false⟩

/-- The channel field of a record (R559): the channel, or whole. -/
def recChan : Option Nat → Nat
  | some c => c % 1024
  | none => 1024

/-! ### Signalling (R126, R130, R131) -/

/-- The cause register g. -/
def causeReg (g : Nat) (s : State) : Word := sget (fun _ => 0) s.evt.cause g

/-- The mask register of cause register g. -/
def maskReg (g : Nat) (s : State) : Word := sget maskReset s.evt.mask g

/-- The auto-mask register of cause register g. -/
def autoReg (g : Nat) (s : State) : Word := sget (fun _ => 0) s.evt.auto g

/-- The bits of cause register g that signal: cause AND NOT mask AND NOT auto-mask (R126). -/
def signalling (g : Nat) (s : State) : Word := causeReg g s &&& ~~~ (maskReg g s) &&& ~~~ (autoReg g s)

/-- The cause registers that signal. -/
def signallingGs (s : State) : List Nat :=
  (s.evt.cause.map (·.1)).filter (fun g => decide (signalling g s ≠ 0))

/-- Set bit `i` of a set of bits. -/
def setBit (x i : Nat) : Nat := x ||| 2 ^ i

/-- Clear bit `i` of a set of bits. -/
def clearBit (x i : Nat) : Nat := if x.testBit i then x - 2 ^ i else x

/-- The active MSI-X vectors (R130). -/
def activeVectors (s : State) : Nat :=
  (signallingGs s).foldl (fun a g => if rdX evtRoute_hostEn g 0 s = 1 then setBit a (rdX evtRoute_hostVector g 0 s) else a) 0

/-- The active Bench interrupt lines (R130, R132). -/
def activeBench (s : State) : Nat :=
  (signallingGs s).foldl (fun a g => if rdX evtRoute_benchEn g 0 s = 1 then setBit a (rdX evtRoute_benchLine g 0 s) else a) 0

/-- Whether EVENT_N is active (R130, R132). -/
def activePin (s : State) : Bool := (signallingGs s).any (fun g => decide (rdX evtRoute_pinEn g 0 s = 1))

/-- The function's MSI-X vectors; it has no MSI or INTx capability (R131). -/
def msixVectors : Nat := 64

/-- The interrupt capabilities of the PCI Express function (R131), by number of vectors. -/
def functionMsix (_ : State) : Nat := msixVectors
def functionMsi (_ : State) : Nat := 0
def functionIntx (_ : State) : Bool := false

/-- The function's Interrupt Pin register (R131). -/
def interruptPin (_ : State) : Nat := 0

/-- Window offset of the MSI-X table entry of a vector (R131). -/
def msixEntry (v : Nat) : Nat := 0x3C800 + 16 * v

/-- Whether a vector is masked, by itself or with the function. -/
def vecMasked (v : Nat) (s : State) : Bool := s.evt.msixMaskAll || decide (wordField (reg (msixEntry v + 12) 0 s) 0 1 = 1)

/-- The message of a vector, from its table entry. -/
def sendMsix (v : Nat) (s : State) : State :=
  emit (.msix v (reg (msixEntry v) 0 s).toNat (reg (msixEntry v + 4) 0 s).toNat (reg (msixEntry v + 8) 0 s).toNat)
    { s with evt := { s.evt with msixPend := clearBit s.evt.msixPend v } }

/-- Send a vector's message, or hold it as pending while masked (R131); with MSI-X disabled nothing is sent. -/
def signalVector (v : Nat) (s : State) : State :=
  if !s.evt.msixEnable then s
  else if vecMasked v s then { s with evt := { s.evt with msixPend := setBit s.evt.msixPend v } }
  else sendMsix v s

/-- The vectors of a set of bits. -/
def vectorsOf (x : Nat) : List Nat := (List.range msixVectors).filter (fun v => x.testBit v)

/-- Recompute what signals and act on it: each vector that becomes active sends its message, the Bench lines and EVENT_N
follow (R130 to R132). Answers whether a message was due while MSI-X was disabled. -/
def refreshSignals (s : State) : State × Bool :=
  let v := activeVectors s
  let new := (vectorsOf v).filter (fun i => !(s.evt.vecActive.testBit i))
  let s1 := { s with evt := { s.evt with
      vecActive := v
      msixPend := s.evt.msixPend &&& v
      benchLines := activeBench s
      eventN := activePin s } }
  (new.foldl (fun a i => signalVector i a) s1, decide (new ≠ []) && !s.evt.msixEnable)

/-! ### Assertions -/

/-- Set the cause bit of a source (R126). -/
def setCause (e : Src) (s : State) : State :=
  { s with evt := { s.evt with cause := smod (fun _ => 0) s.evt.cause e.g (fun c => c ||| BitVec.ofNat 32 (2 ^ e.b)) } }

/-- Whether a source sets no CHAN_PEND bit, forced or not: those of a global cause register (R448, R479, R515), and no_cluster and rewrite_done of
DSP (R356). -/
def globalSrc (e : Src) (b : Block) : Bool :=
  globalCause b (e.g - firstG b) || decide (b = .dsp ∧ e.g = firstG .dsp + 1 ∧ (e.b = 4 ∨ e.b = 5))

/-- Set the CHAN_PEND bit of a channel (R127); a fused-off channel never sets its bit. -/
def setPend (e : Src) (c : Option Nat) (s : State) : State :=
  match c, blockOfG e.g with
  | some c, some b =>
    if chanCount b = 1 ∨ isFused b c s ∨ globalSrc e b = true then s
    else { s with evt := { s.evt with
             pend := smod (fun _ => 0) s.evt.pend (16 * e.g + c / 32) (fun w => w ||| BitVec.ofNat 32 (2 ^ (c % 32))) } }
  | _, _ => s

/-- Field of EVT_LIMITk of a source's cause register (R128). -/
def limitField (e : Src) (lo : Nat) (s : State) : Nat :=
  match blockOfG e.g with
  | none => 0
  | some b => wordField (reg (blockBase b + 0x2C + 0x10 * (e.g - firstG b)) 0 s) lo 8

/-- Whether the limiter suppresses this assertion (R128): the source is auto-masked, or its count goes above max_count. -/
def suppresses (e : Src) (s : State) : Bool :=
  wordField (autoReg e.g s) e.b 1 = 1 ||
    (decide (limitField e 0 s ≠ 0) && decide (limitField e 0 s < sget (fun _ => 0) s.evt.lim e.num + 1))

/-- Count an assertion in its source's window (R128); a max_count of 0 disables limiting. -/
def countInWindow (e : Src) (s : State) : State :=
  if limitField e 0 s = 0 then s
  else { s with evt := { s.evt with lim := smod (fun _ => 0) s.evt.lim e.num (· + 1) } }

/-- Count an assertion in its window, a suppressed one as suppressed too (R128). -/
def countAssertion (e : Src) (sup : Bool) (s : State) : State :=
  let t := countInWindow e s
  if sup then
    { t with evt := { t.evt with
        supp := smod (fun _ => 0) t.evt.supp e.num (fun n => satAdd n 1 0xFFFF)
        auto := smod (fun _ => 0) t.evt.auto e.g (fun w => w ||| BitVec.ofNat 32 (2 ^ e.b)) } }
  else t

/-- The PCN counters in edge mode (R578) that count source number `n`. -/
def edgeCounters (n : Nat) (s : State) : List Nat :=
  (s.fab.live.filter (fun e => decide (e.1 % 0x40000 = pcnCntCfg_mode.off) && decide (wordField e.2 0 3 = 3)
    && decide (wordField e.2 4 16 = n))).map (fun e => e.1 / 0x40000)

/-- Key of performance counter `i` (R578). -/
def pcnKey (i : Nat) : Nat := rkey pcnCntLo_count.off i

/-- Add one to every edge counter of a source while PCN is ON (R578, R584); answers whether one wrapped. -/
def countEdges (n : Nat) (s : State) : State × Bool :=
  if blockOn .pcn s then
    (edgeCounters n s).foldl (fun a i => let r := addCtr (pcnKey i) 1 a.1; (r.1, a.2 || r.2)) (s, false)
  else (s, false)

/-- Whether Touchmark records a source (R562). -/
def recorded (e : Src) (s : State) : Bool := decide (e.g ≠ 43) && decide (wordField (reg (0x38200 + 4 * e.g) 0 s) e.b 1 = 1)

/-- The record of an event source (R562). -/
def sourceRec (e : Src) (c : Option Nat) (sup forced : Bool) (s : State) : Rec :=
  { code := 0x100 + e.num
    flags := 1 + (if forced then 64 else 0)
    block := (match blockOfG e.g with | some b => blockCode b | none => 0)
    chan := recChan c
    payload := bytesLE 2 e.num ++ bytesLE 4 (causeReg e.g s).toNat ++ bytesLE 1 (b2n sup) ++ List.replicate 9 0 }

/-- An assertion of a source on a channel, with the assertions it brings in turn, to a nesting of `n` (four is enough:
a source brings auto_mask_set, suppressing, cnt_wrap and msix_disabled, and these bring at most each other once). Its record holds what it left
in its cause register (R562); the records of one assertion are offered in the order of their sources (R569). -/
def assertN : Nat → Src → Option Nat → Bool → State → State
  | 0, _, _, _, s => s
  | n + 1, e, c, forced, s =>
    let s1 := setPend e c (setCause e s)
    let sup := !forced && suppresses e s1
    let first := sup && decide (wordField (autoReg e.g s1) e.b 1 = 0)
    let s2 := if forced then s1 else countAssertion e sup s1
    let own (a : State) : State :=
      if recorded e s2 then
        let r := offerRec (sourceRec e c sup forced s2) a
        if r.emptied then assertN n tmkSuppressing none false r.state else r.state
      else a
    let masked (a : State) : State := if first then assertN n evtAutoMaskSet none false a else a
    let signal (a : State) : State :=
      let sig := refreshSignals a
      if sig.2 then assertN n evtMsixDisabled none false sig.1 else sig.1
    let edges (a : State) : State :=
      let ed := countEdges e.num a
      if ed.2 then assertN n pcnCntWrap none false ed.1 else ed.1
    if e.num < evtAutoMaskSet.num then edges (signal (masked (own s2)))
    else if e.num < pcnCntWrap.num then edges (own (signal (masked s2)))
    else own (edges (signal (masked s2)))

/-- An assertion of a source of a block's channel or of the block (R126). -/
def raise (e : Src) (s : State) : State := assertN 5 e none false s

/-- An assertion on a channel (R127). -/
def raiseC (e : Src) (c : Nat) (s : State) : State := assertN 5 e (some c) false s

/-- A forced assertion (R129). -/
def raiseForced (e : Src) (c : Option Nat) (s : State) : State := assertN 5 e c true s

/-- Assert on a channel that is not fused off; a fused-off channel raises no events of its own (R2). -/
def raiseOn (b : Block) (e : Src) (c : Nat) (s : State) : State := if isFused b c s then s else raiseC e c s

/-- Act on a change of what signals. -/
def resignal (s : State) : State :=
  let r := refreshSignals s
  if r.2 then raise evtMsixDisabled r.1 else r.1

/-- Offer a record of the device or Hallmark (R561), raising suppressing when it empties its bucket. -/
def writeRec (code sev block chan : Nat) (payload : List Byte) (s : State) : State :=
  let r := offerRec { code := code, flags := sev, block := block, chan := chan,
                      payload := slice payload 0 16 } s
  if r.emptied then raise tmkSuppressing r.state else r.state

/-- Add to counter `i` of copy `c` of a counter set (R183): a wrap sets the live wrap bit and raises the set's source. -/
def count (k : CtrSet) (i c d : Nat) (s : State) : State :=
  let r := addCtr (rkey (k.lo + 8 * i) c) d s
  if r.2 then (if k.perChan then raiseC k.wrapSrc c r.1 else raise k.wrapSrc r.1) else r.1

/-- Add to performance counter `i` while PCN is ON (R578, R579, R584). -/
def countPcn (i d : Nat) (s : State) : State :=
  if blockOn .pcn s then
    let r := addCtr (pcnKey i) d s
    if r.2 then raise pcnCntWrap r.1 else r.1
  else s

/-! ### Histograms (R581) -/

/-- The bin of a value (R581). -/
def histBin (shift v : Nat) : Nat :=
  let x := v >>> shift
  if x < 4 then x
  else
    let e := topBit x
    min (4 * (e - 1) + (x >>> (e - 2)) % 4) 63

/-- Place a value in histogram `h` while PCN is ON; a bin or sum that wraps sets the wrap bit and raises hist_wrap (R583). -/
def histPut (h v : Nat) (s : State) : State :=
  if !blockOn .pcn s then s
  else
    let x := sget (fun _ => ({} : Hist)) s.pcn.hists h
    let k := histBin (cfC pcnHistCfg_shift h s) v
    let n := sget (fun _ => 0) x.bins k + 1
    let sum := x.sum + v
    let wraps := decide (2 ^ 64 ≤ n ∨ 2 ^ 64 ≤ sum)
    let y : Hist :=
      { bins := sset (fun _ => 0) x.bins k (n % 2 ^ 64)
        sum := sum % 2 ^ 64
        top := min (max x.top v) (2 ^ 32 - 1)
        wrap := x.wrap || wraps }
    let s1 := { s with pcn := { s.pcn with hists := sset (fun _ => ({} : Hist)) s.pcn.hists h y } }
    if wraps then raise pcnHistWrap s1 else s1

/-- The histograms of a source kind that count an occurrence of index `sel` in class `cls` (R582). -/
def histsFor (source sel cls : Nat) (s : State) : List Nat :=
  ((s.fab.live.filter (fun e => decide (e.1 % 0x40000 = pcnHistCfg_source.off) && decide (wordField e.2 0 3 = source)
    && (decide (wordField e.2 16 9 = 0x1FF) || decide (wordField e.2 16 9 = sel))
    && bit (wordField e.2 8 8) cls)).map (fun e => e.1 / 0x40000)).filter (fun h => decide (h < 64))

/-- Place a measured value in every histogram that counts it. -/
def measure (source sel cls v : Nat) (s : State) : State :=
  foldOver (histsFor source sel cls s) (fun h a => histPut h v a) s

end Sys2Proof.Machine
end

