-- ==== Sys2Proof/Machine/Access.lean ====
section
/-! DEFINITION. The rules that stand before every register access (R2, R68, R98, R106, R116): what is refused, logged or counted
before a register's own behaviour is reached. -/

namespace Sys2Proof.Machine

/-- Window bit of EVT.ACCESS_LOG. -/
def logWindow : Window → Nat
  | .h => 0
  | .b => 1
  | .hm _ _ => 1

/-- An access that R106 refuses: access_error, and EVT.ACCESS_LOG takes it if the log is empty. Hallmark's private path is no
window access and leaves no log. -/
def accessError (w : Window) (off : Nat) (write : Bool) (s : State) : State :=
  match w with
  | .hm _ _ => s
  | _ =>
    raise evtAccessError
      (if rd evtAccessLog_valid s = 1 then s
       else wr evtAccessLog_valid 1 (wr evtAccessLog_write (b2n write) (wr evtAccessLog_window (logWindow w)
              (wr evtAccessLog_offset off s))))

/-- The OWNER record of a block; that of HMK reads Hallmark-only at all times (R536). -/
def ownerOf (b : Block) (s : State) : OwnerSt :=
  let o := sget (fun _ => ({} : OwnerSt)) s.fab.owners (blockCode b)
  if b = .hmk then { o with owner := 3 } else o

/-- Store a block's OWNER record. -/
def putOwner (b : Block) (o : OwnerSt) (s : State) : State :=
  { s with fab := { s.fab with owners := sset (fun _ => ({} : OwnerSt)) s.fab.owners (blockCode b) o } }

/-- Whether OWNER refuses a write through a window (R116); it never blocks Hallmark (R110). -/
def ownerRefuses (w : Window) (b : Block) (s : State) : Bool :=
  match w with
  | .h => decide ((ownerOf b s).owner = 2 ∨ (ownerOf b s).owner = 3)
  | .b => decide ((ownerOf b s).owner = 1 ∨ (ownerOf b s).owner = 3)
  | .hm _ _ => false

/-- A write that OWNER refuses: counted in denied, raising owner_denied (R116). -/
def ownerDenied (b : Block) (s : State) : State :=
  let o := ownerOf b s
  raise evtOwnerDenied (putOwner b { o with denied := satAdd o.denied 1 0xFF } s)

/-- The cause register number k of a block at a window offset, if the offset is one. -/
def causeAt (b : Block) (off : Nat) : Option Nat :=
  let r := off - blockBase b
  if blockBase b + 0x20 ≤ off ∧ r < 0x70 ∧ r % 16 = 0 ∧ (r - 0x20) / 16 < causeCount b then some ((r - 0x20) / 16) else none

/-- The writes that OWNER never refuses (R116): CHAN_SEL, SCRATCH, OWNER and the EVT_CAUSEk registers. -/
def ownerExempt (b : Block) (off : Nat) : Bool :=
  decide (off = blockBase b + 0x08 ∨ off = blockBase b + 0x78 ∨ off = blockBase b + 0x7C) || (causeAt b off).isSome

/-- A write that R106 refuses, of a reserved offset or without all byte enables; in a locked block OWNER refuses it too (R116). -/
def badWrite (w : Window) (b : Block) (off : Nat) (s : State) : State :=
  let t := accessError w off true s
  if ownerRefuses w b s && !ownerExempt b off then ownerDenied b t else t

/-- The blocks whose registers window H may write in the held state (R98). -/
def heldAccepts : Block → Bool
  | .sys | .evt | .hmk | .bnc | .pwr | .cfg | .rst | .tim | .hif | .mio | .tmk | .pcn | .scr => true
  | .lan | .prt | .tie | .prs | .cls | .l2t | .lpm | .flt | .fch | .hbm | .dsp | .fen | .mcs | .bpm | .swc | .tmg
  | .tsu => false

/-- Whether a window is reachable: not while a power-on or RESET_N reset holds the device (R60, R66), and window H not while
PERST_N holds the endpoint (R68). -/
def reachable (w : Window) (s : State) : Bool :=
  decide (s.pwr.hold = .none) &&
    (match w with
     | .h => !s.pwr.perstLow
     | .b => true
     | .hm _ _ => true)

/-- Whether the held state ignores this write (R98). -/
def heldIgnores (w : Window) (b : Block) (s : State) : Bool :=
  match w with
  | .h => held s && !heldAccepts b
  | .b => false
  | .hm _ _ => false

/-- A write to block `b` through a window: the held state and OWNER come before the register's own behaviour `f`. A write that R98 ignores is
counted there alone, whoever owns the block (DESIGN CHOICE, assumption log 96). -/
def writing (w : Window) (b : Block) (f : State → State) (s : State) : State :=
  if !reachable w s then s
  else if heldIgnores w b s then sat1 cfgHeldWrites_heldWriteIgnored s
  else if ownerRefuses w b s then ownerDenied b s
  else f s

/-- A write that OWNER never refuses (CHAN_SEL, SCRATCH, EVT_CAUSEk; R116). -/
def writingFree (w : Window) (b : Block) (f : State → State) (s : State) : State :=
  if !reachable w s then s
  else if heldIgnores w b s then sat1 cfgHeldWrites_heldWriteIgnored s
  else f s

/-- A write to a per-channel register of the selected channel: ignored on a fused-off channel (R2). -/
def writingC (w : Window) (b : Block) (f : Nat → State → State) (s : State) : State :=
  writing w b (fun s => if isFused b (selChan w b s) s then s else f (selChan w b s) s) s

/-- A read through a window. -/
def reading (w : Window) (f : State → State) (s : State) : State := if reachable w s then f s else s

/-- The COMMIT record of a block. -/
def commitOf (b : Block) (s : State) : CommitSt := sget (fun _ => ({} : CommitSt)) s.fab.commits (blockCode b)

/-- Store a block's COMMIT record. -/
def putCommit (b : Block) (c : CommitSt) (s : State) : State :=
  { s with fab := { s.fab with commits := sset (fun _ => ({} : CommitSt)) s.fab.commits (blockCode b) c } }

/-- A commit refused (R102): recorded in CFG.LAST_REFUSAL, raising commit_refused; the block's own status shows it. -/
def commitRefused (b : Block) (code : Nat) (s : State) : State :=
  raise cfgCommitRefused
    (sat1 cfgLastRefusal_refusalCount
      (wr cfgLastRefusal_refusal code
        (wr cfgLastRefusal_blockCode (blockCode b)
          (putCommit b { commitOf b s with refusal := code } s))))

/-! ### Storing a register write, field by field (R7, R120) -/

/-- Whether a timed commit of a block is armed (R119, R120). -/
def commitArmed (b : Block) (s : State) : Bool := (commitOf b s).armed.isSome

/-- A write to an RWS field while a timed commit is armed (R120). -/
def shadowRefused (b : Block) (s : State) : State := putCommit b { commitOf b s with shadowRefused := true } s

/-- What one field's access code makes of a written word (R7). -/
def fieldStore (armed : Bool) (v : Word) (w : Word) (f : FieldSpec) : Word :=
  match f.acc with
  | .rw => wordWith w f.lo f.width (wordField v f.lo f.width)
  | .rws => if armed then w else wordWith w f.lo f.width (wordField v f.lo f.width)
  | .w1c => w &&& ~~~ (wordWith 0 f.lo f.width (wordField v f.lo f.width))
  | .w1s => w ||| wordWith 0 f.lo f.width (wordField v f.lo f.width)
  | .rl => wordWith w f.lo f.width (wordField v f.lo f.width)
  | .ro | .wo | .rs => w

/-- Store a write to copy `c` of the register at `off` of block `b`: its RW, RL, RWS, W1C and W1S fields. No field changes with another: the
rest of EVT.ACCESS_LOG stays when valid is cleared (DESIGN CHOICE, assumption log 96). -/
def storeFields (b : Block) (off c : Nat) (v : Word) (s : State) : State :=
  match findReg off with
  | none => s
  | some r =>
    let armed := commitArmed b s
    let s1 := if armed && r.fields.any (fun f => f.acc == .rws) then shadowRefused b s else s
    putReg off c (r.fields.foldl (fieldStore armed v) (reg off c s)) s1

/-- The copies of the registers of a block that hold something other than their reset value, each once. -/
def listedCopies (b : Block) (m : Sparse Word) : List Nat :=
  (m.foldl (fun a e => if blockOfPage (e.1 % 0x40000 / 0x1000) = some b then a ++ [e.1 / 0x40000] else a) []).eraseDups

/-- The copy number under which a target's BLOCK_CTL mode is kept: 0 block-wide, channel + 1. -/
def modeCopy (t : Target) : Nat := tgtKey t % 1024

/-- The mode field of BLOCK_CTL, as in the field table. -/
def modeFld (b : Block) : Fld := ⟨blockBase b + 0x10, 4, 4, 4⟩

/-- Copies of a register at `off` listed in a register store. -/
def copiesAt (off : Nat) (m : Sparse Word) : List Nat :=
  (m.filter (fun e => decide (e.1 % 0x40000 = off))).map (fun e => e.1 / 0x40000)

/-- A BLOCK_CTL mode that the block does not define (R8, R118). Lanes have the test modes 1 to 3 (R141). -/
def badMode (b : Block) (s : State) : Bool :=
  (copiesAt (modeFld b).off s.fab.regs).any (fun c =>
    decide ((if b = .lan ∧ c ≠ 0 then 3 else 0) < rdC (modeFld b) c s))

/-- The mode in effect of a target (R118). -/
def modeOf (t : Target) (s : State) : Nat := cfC (modeFld t.block) (modeCopy t) s

end Sys2Proof.Machine
end

