-- ==== Sys2Proof/Machine/GateLists.lean ====
section
/-! DEFINITION. Gate control lists (R436 to R440): entries, cycles, takeovers, and what a step of the time base does to them. -/

namespace Sys2Proof.Machine

/-! ### Gate lists -/

/-- A destination's output side. -/
def dest (d : Nat) (s : State) : Dest := sget (fun _ => ({} : Dest)) s.sw.dests d

/-- Store a destination. -/
def putDest (d : Nat) (x : Dest) (s : State) : State :=
  { s with sw := { s.sw with dests := sset (fun _ => ({} : Dest)) s.sw.dests d x } }

/-- Change a destination. -/
def modDest (d : Nat) (f : Dest → Dest) (s : State) : State := putDest d (f (dest d s)) s

/-- One entry of a list: interval in ns and gate byte. -/
def gclEntry (d l i : Nat) (s : State) : Nat × Nat := sget (fun _ => (0, 0)) s.egr.gcl (512 * d + 256 * l + i)

/-- Store an entry. -/
def putGcl (d l i : Nat) (x : Nat × Nat) (s : State) : State :=
  { s with egr := { s.egr with gcl := sset (fun _ => (0, 0)) s.egr.gcl (512 * d + 256 * l + i) x } }

/-- The header of a list. -/
def gateList (d l : Nat) (s : State) : GateList := sget (fun _ => ({} : GateList)) s.egr.lists (2 * d + l)

/-- Store a list's header. -/
def putList (d l : Nat) (g : GateList) (s : State) : State :=
  { s with egr := { s.egr with lists := sset (fun _ => ({} : GateList)) s.egr.lists (2 * d + l) g } }

/-- The offset of a time within its cycle of a list, in 2⁻¹⁶ ns. -/
def cycleOff (g : GateList) (t : Nat) : Nat := (((t : Int) - g.base) % ((max g.cycle 1 * 65536 : Nat) : Int)).toNat

/-- The entry in force `off` into a cycle, and where it ends within the cycle (R436): the last entry lasts to the cycle's end. -/
def entryIn (d l : Nat) (s : State) (cycle off : Nat) : Nat → Nat → Nat → Nat × Nat
  | 0, i, _ => (i, cycle)
  | n + 1, i, start =>
    let stop := start + (gclEntry d l i s).1 * 65536
    if n = 0 then (i, cycle)
    else if off < stop then (i, min stop cycle)
    else entryIn d l s cycle off n (i + 1) stop

/-- The entry of list l in force at t, and when it ends. -/
def segmentAt (d l t : Nat) (s : State) : Nat × Nat :=
  let g := gateList d l s
  let off := cycleOff g t
  let r := entryIn d l s (g.cycle * 65536) off g.count 0 0
  (r.1, t - off + r.2)

/-- Gates of a destination are in use: gate_en (R437). -/
def gateEn (d : Nat) (s : State) : Bool := decide (cfC tmgGateCtl_gateEn d s = 1)

/-- The operating list, if any. -/
def operList (d : Nat) (s : State) : Option Nat :=
  if rdC tmgGateStatus_operValid d s = 1 then some (rdC tmgGateStatus_operList d s) else none

/-- The pending takeover: list and time, if any. -/
def pendTakeover (d : Nat) (s : State) : Option (Nat × Nat) :=
  if rdC tmgGateStatus_pending d s = 1 then
    some (rdC tmgGateStatus_pendingList d s, sget (fun _ => 0) s.egr.takeover d) else none

/-- The last start of a cycle of list l that falls before T (R439). -/
def lastStart (d l T : Nat) (s : State) : Nat := T - 1 - cycleOff (gateList d l s) (T - 1)

/-- Whether the cycle before T is extended instead of begun (R439). -/
def extendsTo (d l T : Nat) (s : State) : Bool := decide (T - lastStart d l T s < (gateList d l s).ext * 65536)

/-- The entry of the operating list in force at t before a takeover at T, and when its gate byte ends (R439). -/
def operSegment (d l t : Nat) (pend : Option (Nat × Nat)) (s : State) : Nat × Nat :=
  match pend with
  | none => segmentAt d l t s
  | some (_, T) =>
    if extendsTo d l T s ∧ lastStart d l T s ≤ t then ((gateList d l s).count - 1, T)
    else
      let r := segmentAt d l t s
      (r.1, min r.2 T)

/-- The end of the continuous open time of class c that holds t, looking through at most n segments (none: open without
end), for an operating list and a pending takeover (R443). An answer of t itself means closed. -/
def openEnd (d c : Nat) (s : State) : Nat → Option Nat → Option (Nat × Nat) → Nat → Option Nat
  | 0, _, _, _ => none
  | n + 1, oper, pend, t =>
    match oper with
    | none =>
      match pend with
      | none => none
      | some (l, T) => if t < T then openEnd d c s n (some l) none T else openEnd d c s n (some l) none t
    | some l =>
      let past := match pend with | some (_, T) => decide (T ≤ t) | none => false
      let seg := operSegment d l t pend s
      if past then openEnd d c s n (pend.map (·.1)) none t
      else if bit (gclEntry d l seg.1 s).2 c then
        match pend with
        | some (m, T) => if T ≤ seg.2 then openEnd d c s n (some m) none T else openEnd d c s n (some l) pend seg.2
        | none => openEnd d c s n (some l) none seg.2
      else some t

/-- The end of the open time of class c that holds t. A class that is open through 600 segments is open through every cycle of its list, up
to a takeover that is still to come. -/
def openUntil (d c t : Nat) (s : State) : Option Nat :=
  match openEnd d c s 600 (operList d s) (pendTakeover d s) t with
  | some e => some e
  | none => match pendTakeover d s with
    | some (m, T) => if t < T then openEnd d c s 600 (some m) none T else none
    | none => none

/-- Whether the interval from `a` to `b` lies within one continuous open time of class c (R443). -/
def openThrough (d c a b : Nat) (s : State) : Bool :=
  if !gateEn d s then true
  else match openUntil d c a s with
    | none => true
    | some e => decide (b ≤ e ∧ a < e)

/-- Whether the gate of class c is open at t. -/
def gateOpen (d c t : Nat) (s : State) : Bool := openThrough d c t t s

/-- The gates of port d are found anew: of a frame being sent it is kept whether its gate in state `old` has closed since its start, up to
time `till`, and the new gates count from `since` on (R444), or from its start where its first bit has still to reach the balls. -/
def keepGates (d till since : Nat) (old s : State) : State :=
  modDest d (fun x => { x with eg := x.eg.map (fun e =>
    if !e.started then e
    else if till < e.startAt then { e with startAt := since + (e.startAt - till) }
    else { e with startAt := since, shut := e.shut || !openThrough d e.gateCls e.startAt till old }) }) s

/-- Show the entry and gate byte in force (R436, R437). -/
def showGates (d : Nat) (s : State) : State :=
  match (if gateEn d s then operList d s else none) with
  | none => wrC tmgGateStatus_gatesNow d 0xFF (wrC tmgGateStatus_entryNow d 0 s)
  | some l =>
    let e := (operSegment d l (timeNow s) (pendTakeover d s) s).1
    wrC tmgGateStatus_gatesNow d (gclEntry d l e s).2 (wrC tmgGateStatus_entryNow d e s)

/-- GATE_ENTRY_CHANGE: the entry in force at this instant (R436). -/
def execGateEntryChange (d : Nat) (s : State) : Host.Outcome State Fault Refusal :=
  guarded (decide (d < 256)) (if (operList d s).isSome then showGates d s else s)

/-- The pending list takes over (R438 to R440). -/
def takeover (d : Nat) (late : Bool) (s : State) : State :=
  match pendTakeover d s with
  | none => s
  | some (l, T) =>
    let ext := !late && (match operList d s with | some o => extendsTo d o T s | none => false)
    let s1 := wrC tmgGateStatus_operList d l (wrC tmgGateStatus_operValid d 1 (wrC tmgGateStatus_pending d 0
      (wrC tmgGateStatus_late d (b2n late) (wrC tmgGateStatus_extended d (b2n ext) (keepGates d (timeNow s) (timeNow s) s s)))))
    let s2 := raiseC tmgGateTakeover d (showGates d s1)
    let s3 := if ext then raiseC tmgTakeoverExtended d s2 else s2
    if late then raiseC tmgTakeoverLate d s3 else s3

def execGateTakeover (d : Nat) (s : State) : Host.Outcome State Fault Refusal :=
  guarded (decide (d < 256))
    (match pendTakeover d s with
     | some (_, T) => if atOrAfter (timeNow s) T then takeover d false s else s
     | none => s)

/-- Cancel a pending takeover (R440). -/
def gateCancel (d : Nat) (s : State) : State :=
  if rdC tmgGateStatus_pending d s = 1 then raiseC tmgTakeoverCancelled d (wrC tmgGateStatus_pending d 0 s) else s

/-- A write of TMG.GATE_STATUS. -/
def gateStatusWrite (d : Nat) (v : Word) (s : State) : State :=
  let s1 := if bit v.toNat 4 then wrC tmgGateStatus_late d 0 s else s
  let s2 := if bit v.toNat 5 then wrC tmgGateStatus_extended d 0 s1 else s1
  if bit v.toNat 31 then gateCancel d s2 else s2

def execGateCancel (w : Window) (v : Word) (s : State) : Host.Outcome State Fault Refusal :=
  .next (writingC w .tmg (fun d => gateStatusWrite d v) s)

/-- A write of TMG.GCL_DATA_HI: both words to the addressed entry, refused while its list operates or is pending (R440). -/
def gclWrite (w : Window) (d : Nat) (v : Word) (s : State) : State :=
  let c := winIdx w
  let l := rdC tmgGclAddr_list c s
  let i := rdC tmgGclAddr_entry c s
  if 256 ≤ d then s
  else if operList d s = some l ∨ (pendTakeover d s).map (·.1) = some l then raiseC tmgGclRefused d s
  else
    let t := putGcl d l i (rdC tmgGclDataLo_interval c s, wordField v 0 8) (wrC tmgGclDataHi_gates c (wordField v 0 8) s)
    if rdC tmgGclAddr_autoInc c s = 1 then wrC tmgGclAddr_entry c (i + 1) t else t

def execGclDataHiWrite (w : Window) (v : Word) (s : State) : Host.Outcome State Fault Refusal :=
  .next (writingC w .tmg (fun d => gclWrite w d v) s)

/-- A read of TMG.GCL_DATA_LO: the addressed entry into both registers. -/
def gclLoad (w : Window) (s : State) : State :=
  let c := winIdx w
  let e := gclEntry (selChan w .tmg s) (rdC tmgGclAddr_list c s) (rdC tmgGclAddr_entry c s) s
  putRead w (BitVec.ofNat 32 e.1) (wrC tmgGclDataLo_interval c e.1 (wrC tmgGclDataHi_gates c e.2 s))

def execGclEntryLoad (w : Window) (s : State) : Host.Outcome State Fault Refusal := .next (reading w (gclLoad w) s)

/-- Ports whose gates are in use or may be. -/
def gatedPorts (s : State) : List Nat :=
  ((s.fab.regs.filter (fun e => decide (e.1 % 0x40000 = tmgGateStatus_operList.off))).map (fun e => e.1 / 0x40000)).filter
    (fun d => decide (d < 256))

/-- A step of the time base from `old` to `new` (R440, R464): a pending takeover stepped over happens at once, late; the entry
in force is found again. -/
def gateStep (old new : Nat) (s : State) : State :=
  foldOver (gatedPorts s) (fun d b =>
    let a := keepGates d old new b b
    match pendTakeover d a with
    | some (_, T) => if !atOrAfter old T && atOrAfter new T then takeover d true a else showGates d a
    | none => showGates d a) s

end Sys2Proof.Machine
end

