-- ==== Sys2Proof/Machine/Meters.lean ====
section
/-! DEFINITION. Stream filters and flow meters (R432 to R435, TMG.METER registers). -/

namespace Sys2Proof.Machine

/-- A meter. -/
def meterAt (i : Nat) (s : State) : Meter := sget (fun _ => ({} : Meter)) s.egr.meters i

/-- Store a meter. -/
def putMeter (i : Nat) (m : Meter) (s : State) : State :=
  { s with egr := { s.egr with meters := sset (fun _ => ({} : Meter)) s.egr.meters i m } }

/-- Fields of a meter's configuration word, laid out as METER_CFG. -/
def mtOvh (m : Meter) : Int := signed 8 m.cfg
def mtMode (m : Meter) : Nat := bitsOf m.cfg 8 2
def mtAware (m : Meter) : Bool := bit m.cfg 10
def mtRedDrop (m : Meter) : Bool := bit m.cfg 11
def mtMarkAll (m : Meter) : Bool := bit m.cfg 12
def mtRemap (m : Meter) : Bool := bit m.cfg 13
def mtClass (m : Meter) : Nat := bitsOf m.cfg 14 3
def mtBlock (m : Meter) : Bool := bit m.cfg 17
def mtMaxSdu (m : Meter) : Nat := bitsOf m.cfg 18 14

/-- Gain of a bucket at `rate` kbit/s over `d` raw counts of 1.28 ns, in units of 2⁻¹⁶ byte (R430, R433). -/
def gainOf (rate d : Nat) : Int := (rate * 125 * 128 * 65536 * d / 100000000000 : Nat)

/-- A burst in units of 2⁻¹⁶ byte. -/
def burstUnits (b : Nat) : Int := (b * 65536 : Nat)

/-- The meter with its buckets brought up to a raw count; in mode 1 the E bucket fills from the C bucket's overflow (R433). -/
def meterFill (m : Meter) (raw : Nat) : Meter :=
  let d := raw - m.raw
  let c := m.cTok + gainOf m.cir d
  let c1 := min c (burstUnits m.cbs)
  let e := if mtMode m = 1 then m.eTok + (c - c1) else m.eTok + gainOf m.eir d
  { m with cTok := c1, eTok := min e (burstUnits m.ebs), raw := raw }

/-- The colour of a frame of `b` charged units whose pre-colour is yellow or green (R433), and the charged meter. -/
def colourOf (m : Meter) (b : Int) (yellow : Bool) : Nat × Meter :=
  if mtMode m = 0 then (0, m)
  else if mtMode m = 2 then
    if m.eTok < b then (2, m)
    else if yellow ∨ m.cTok < b then (1, { m with eTok := m.eTok - b })
    else (0, { m with cTok := m.cTok - b, eTok := m.eTok - b })
  else if !yellow ∧ b ≤ m.cTok then (0, { m with cTok := m.cTok - b })
  else if b ≤ m.eTok then (1, { m with eTok := m.eTok - b })
  else (2, m)

/-- Add one to counter k of a meter. -/
def meterCount (k : Nat) (m : Meter) : Meter :=
  let v := sget (fun _ => 0) m.cnt k + 1
  { m with cnt := sset (fun _ => 0) m.cnt k (v % 2 ^ 64)
           wraps := if v < 2 ^ 64 then m.wraps else m.wraps ||| 2 ^ k }

def tmgGCtrs : CtrSet := ⟨tmgGcntLo_count.off, tmgGcntWrap, false⟩

/-- What steps 1 to 3 of R432 found: 0 green, 1 yellow, 2 red, 3 blocked, 4 oversize. `dei` is the pre-colour, used only in
colour-aware mode. -/
def meterSteps (i len : Nat) (dei : Bool) (s : State) : Nat × State :=
  let m := meterFill (meterAt i s) s.tim.raw
  if m.blocked then (3, putMeter i (meterCount 3 m) s)
  else if mtMaxSdu m ≠ 0 ∧ mtMaxSdu m < len then
    let t := putMeter i { meterCount 3 m with blocked := mtBlock m } s
    (4, if mtBlock m then raise tmgStreamBlocked t else t)
  else if m.allRed then (2, putMeter i (meterCount 2 m) s)
  else
    let b : Int := max ((len : Int) + mtOvh m) 0 * 65536
    let r := colourOf m b dei
    (r.1, putMeter i (meterCount r.1 r.2) s)

/-- An engine's meter operation (R433): steps 1 to 3, colour-blind; blocked and oversize return red. Outside TMG ON the meter is
bypassed and answers green (R434). -/
def meterEngine (i len : Nat) (s : State) : Nat × State :=
  if blockOn .tmg s then
    let r := meterSteps i len false s
    (min r.1 2, r.2)
  else (0, raise tmgMeterBypass (count tmgGCtrs 4 0 1 s))

/-- What becomes of a metered frame (R432): dropped, or its class. -/
def meterFrame (i len cls : Nat) (dei : Bool) (s : State) : Option Nat × State :=
  if !blockOn .tmg s then (some cls, raise tmgMeterBypass (count tmgGCtrs 4 0 1 s))
  else
    let m := meterAt i s
    let r := meterSteps i len (mtAware m && dei) (count tmgGCtrs 0 0 1 s)
    if r.1 = 3 then (none, count tmgGCtrs 3 0 1 r.2)
    else if r.1 = 4 then (none, count tmgGCtrs 2 0 1 r.2)
    else if r.1 = 0 then (some cls, r.2)
    else if r.1 = 2 ∧ mtRedDrop m then
      let t := count tmgGCtrs 1 0 1 r.2
      let x := meterAt i t
      (none, if mtMarkAll m && !x.allRed then raise tmgAllRedSet (putMeter i { x with allRed := true } t) else t)
    else (some (if mtRemap m then mtClass m else cls), r.2)

/-! ### METER_OP (R435, R447) -/

/-- Whether a rate and burst are acceptable (R447). -/
def rateBurstOk (rate burst : Nat) : Bool := decide (rate ≤ 400000000 ∧ (rate = 0 ∨ 64 ≤ burst))

/-- Whether a maximum SDU is acceptable (R447). -/
def maxSduOk (m : Nat) : Bool := decide (m = 0 ∨ (64 ≤ m ∧ m ≤ 9216))

/-- Whether meter parameters are acceptable (R447). -/
def meterOk (cfg cir cbs eir ebs : Nat) : Bool :=
  rateBurstOk cir cbs && rateBurstOk eir ebs && maxSduOk (bitsOf cfg 18 14)
    && !(decide (bitsOf cfg 8 2 = 2) && decide (eir < cir))

/-- Write a meter's parameters: both buckets full, or zero with `zero`; blocked, all_red and counters stay (R435). -/
def meterSet (i cfg cir cbs eir ebs : Nat) (zero : Bool) (s : State) : State :=
  let m := meterAt i s
  putMeter i
    { m with cfg := cfg, cir := cir, cbs := cbs, eir := eir, ebs := ebs, raw := s.tim.raw
             cTok := if zero then 0 else burstUnits cbs
             eTok := if zero then 0 else burstUnits ebs } s

/-- Op 1: the staging registers go to the meter, or are refused. -/
def meterWriteOp (c : Nat) (zero : Bool) (s : State) : State :=
  let cfg := (reg tmgMeterCfg_ovh.off c s).toNat
  let cir := rdC tmgMeterCir_value c s
  let cbs := rdC tmgMeterCbs_value c s
  let eir := rdC tmgMeterEir_value c s
  let ebs := rdC tmgMeterEbs_value c s
  if meterOk cfg cir cbs eir ebs then
    wrC tmgMeterOp_result c 0 (meterSet (rdC tmgMeterSel_index c s) cfg cir cbs eir ebs zero s)
  else wrC tmgMeterOp_result c 1 s

/-- Op 2: the meter goes to the staging and snapshot registers. -/
def meterReadOp (c : Nat) (clr : Bool) (s : State) : State :=
  let i := rdC tmgMeterSel_index c s
  let m := meterFill (meterAt i s) s.tim.raw
  let s1 := putReg tmgMeterCfg_ovh.off c (BitVec.ofNat 32 m.cfg)
    (wrC tmgMeterCir_value c m.cir (wrC tmgMeterCbs_value c m.cbs (wrC tmgMeterEir_value c m.eir
      (wrC tmgMeterEbs_value c m.ebs s))))
  let s2 := wrC tmgMeterState_blocked c (b2n m.blocked) (wrC tmgMeterState_allRed c (b2n m.allRed)
    (wrC tmgMeterState_wrap c m.wraps (wrC tmgMeterCtok_tokens c (m.cTok / 65536).toNat
      (wrC tmgMeterEtok_tokens c (m.eTok / 65536).toNat s1))))
  let s3 := foldOver (List.range 4) (fun k a =>
    let v := sget (fun _ => 0) m.cnt k
    wrX tmgMeterCntLo_count k c v (wrX tmgMeterCntHi_count k c (v / 2 ^ 32) a)) s2
  putMeter i (if clr then { m with cnt := [], wraps := 0 } else m) (wrC tmgMeterOp_result c 0 s3)

/-- Op 3: clear blocked and all_red. -/
def meterClearOp (c : Nat) (s : State) : State :=
  let i := rdC tmgMeterSel_index c s
  wrC tmgMeterOp_result c 0 (putMeter i { meterAt i s with blocked := false, allRed := false } s)

/-- A write of TMG.METER_OP. -/
def meterOpWrite (w : Window) (v : Word) (s : State) : State :=
  let c := winIdx w
  let op := wordField v 0 2
  if op = 1 then meterWriteOp c (bit v.toNat 2) s
  else if op = 2 then meterReadOp c (bit v.toNat 3) s
  else if op = 3 then meterClearOp c s else s

def execMeterWrite (w : Window) (v : Word) (s : State) : Host.Outcome State Fault Refusal :=
  .next (writing w .tmg (meterOpWrite w (wordWith v 0 2 1)) s)

def execMeterRead (w : Window) (v : Word) (s : State) : Host.Outcome State Fault Refusal :=
  .next (writing w .tmg (meterOpWrite w (wordWith v 0 2 2)) s)

def execMeterUnblock (w : Window) (v : Word) (s : State) : Host.Outcome State Fault Refusal :=
  .next (writing w .tmg (meterOpWrite w (wordWith v 0 2 3)) s)

end Sys2Proof.Machine
end

