-- ==== Sys2Proof/Machine/Squelch.lean ====
section
/-! DEFINITION. The squelch of the synchronous Ethernet outputs (chapter 16, R477), which follows TIM, the ports and the lanes. -/

namespace Sys2Proof.Machine

/-- Whether SYNCE_CLKk is squelched: en 0, the port's link down, its lane's clock recovery not locked, or TIM not ON. -/
def synceQuiet (k : Nat) (s : State) : Bool :=
  let p := cfX timSynceCfg_port k 0 s
  decide (cfX timSynceCfg_en k 0 s = 0) || decide (rdC prtLinkStatus_linkUp p s = 0)
    || decide (rdC lanLinkStatus_cdrLock p s = 0) || !blockOn .tim s

/-- Follow a change of the squelch condition of one output: synce_squelch on entry, synce_restored on return. -/
def refreshSynce1 (k : Nat) (s : State) : State :=
  let q := synceQuiet k s
  if q = sget (fun _ => true) s.tim.squelched k then s
  else
    let s1 := { s with tim := { s.tim with squelched := sset (fun _ => true) s.tim.squelched k q } }
    if q then raise timSynceSquelch s1 else raise timSynceRestored s1

/-- Follow a change of the squelch conditions of both outputs. -/
def refreshSynce (s : State) : State := refreshSynce1 1 (refreshSynce1 0 s)

end Sys2Proof.Machine
end

