-- ==== Sys2Proof/Machine/TieLink.lean ====
section
/-! DEFINITION. A tie link below its messages (chapter 17): its state, sequenced control messages (R489), and what happens to it when its
lanes align or lose tie_active; the lanes call it. -/

namespace Sys2Proof.Machine

/-- The counters of a tie link, and the global ones. -/
def tieCtrs : CtrSet := ⟨tieCntLo_count.off, tieCntWrap, true⟩
def tieGCtrs : CtrSet := ⟨tieGcntLo_count.off, tieGcntWrap, false⟩

/-- Tie link k. -/
def tieLink (k : Nat) (s : State) : TieLinkSt := sget (fun _ => ({} : TieLinkSt)) s.mesh.links k

/-- Store a tie link. -/
def putTieLink (k : Nat) (x : TieLinkSt) (s : State) : State :=
  { s with mesh := { s.mesh with links := sset (fun _ => ({} : TieLinkSt)) s.mesh.links k x } }

/-- Change a tie link. -/
def modTieLink (k : Nat) (f : TieLinkSt → TieLinkSt) (s : State) : State := putTieLink k (f (tieLink k s)) s

/-- The link is active (R490). -/
def linkActive (k : Nat) (s : State) : Bool := decide (rdC tieLinkStatus_state k s = 3)

/-- The tie links. -/
def tieLinks : List Nat := List.range 8

/-- The links that are active. -/
def activeLinks (s : State) : List Nat := tieLinks.filter (fun k => linkActive k s)

/-- Send a control message on a link (R491). -/
def sendMsg (k kind : Nat) (body : List Byte) (s : State) : State := count tieCtrs 2 k 1 (emit (.tieFlits k (flitsOf kind body)) s)

/-- Send a sequenced control message on a link (R489): the body follows the sequence number. While the link is not active it waits for the
link's next start (DEDUCED, assumption log 133). -/
def sendControl (k kind : Nat) (body : List Byte) (s : State) : State :=
  let x := tieLink k s
  let m : CtlMsg := { seq := x.txSeq, kind := kind, body := bytesLE 2 x.txSeq ++ body }
  if linkActive k s then
    sendMsg k kind m.body (putTieLink k { x with txSeq := (x.txSeq + 1) % 65536, unacked := x.unacked ++ [m] } s)
  else putTieLink k { x with kept := x.kept ++ [m] } s

/-- An active link whose peer is the current manager and that the manager lists makes this device joined (R483). -/
def refreshJoined (s : State) : State :=
  let m := rd tieMeshStatus_managerId s
  let here := rd sysStrapSample_deviceId s
  let linked := decide (m = here) || linkActive m s
  let ok := decide (rd tieMeshStatus_managerPresent s = 1) && linked && bit (rd tieMeshStatus_members s) here
  if ok then s else wr tieMeshStatus_joined 0 s

/-- A link that starts anew: what it holds of its messages is cleared; what the heartbeats show of the peer stays, and so do the control messages
that the peer has not acknowledged, to be sent again at the next start (R489, R525; DEDUCED, assumption log 133). -/
def clearLink (k : Nat) (s : State) : State :=
  modTieLink k (fun x => { heard := x.heard, lost := x.lost, peerSeen := x.peerSeen, peerLost := x.peerLost, peerCur := x.peerCur,
                           peerDraining := x.peerDraining, peerIdle := x.peerIdle, kept := x.unacked ++ x.kept })
    (wrC tieLinkCredits_txCredits k 0 s)

/-- The control messages that wait for link k's next start are given up. -/
def dropKept (k : Nat) (s : State) : State := modTieLink k (fun x => { x with kept := [], unacked := [] }) s

/-- Control messages numbered from `n` on. -/
def renumbered : Nat → List CtlMsg → List CtlMsg
  | _, [] => []
  | n, m :: ms => { seq := n, kind := m.kind, body := bytesLE 2 n ++ m.body.drop 2 } :: renumbered (n + 1) ms

/-- The messages kept are to be sent again on the link, which numbers from 1. -/
def takeKept (x : TieLinkSt) : TieLinkSt :=
  { x with kept := [], unacked := renumbered 1 x.kept, txSeq := 1 + x.kept.length }

/-- The lanes of a tie link have left tie_active, and the link goes back to its lanes. -/
def tieLinkDown (k : Nat) (s : State) : State :=
  refreshJoined (clearLink k (wrC tieLinkStatus_state k 1 s))

/-- Signal has been lost on an active link, or it restarts under R489: link_lost is raised (R515). -/
def noteLinkLost (k : Nat) (s : State) : State := if linkActive k s then raiseC tieLinkLost k s else s

/-- The lanes of link k have lost tie_active. -/
def tieLanesLost (k : Nat) (s : State) : State := if rdC tieLinkStatus_state k s = 0 then s else tieLinkDown k s

/-- The link takes the mesh_id and credit_cells in effect, and system commits the lead: a later commit waits for the next start of a link (R514). -/
def takeLinkValues (k : Nat) (s : State) : State :=
  let t := modTieLink k (fun x => { x with meshId := cf tieMeshCfg_meshId s, credits := cf tieLinkCfg_creditCells s }) s
  { t with mesh := { t.mesh with leadUs := cf tieSysverCfg_leadUs s } }

/-- The sequence number of a forwarded record in its message. -/
def msgRecSeq (m : CtlMsg) : Nat := leAt m.body 2 4

/-- The latest forwarded record among control messages. -/
def lastForward (ms : List CtlMsg) : Option Nat := ((ms.filter (fun m => m.kind == 7)).map msgRecSeq).getLast?

/-- Forwarding to the manager goes on from the latest record that waits on its link, or from the oldest not acknowledged (R577). -/
def forwardAgain (k : Nat) (s : State) : State :=
  if rd tieMeshStatus_managerPresent s = 1 ∧ rd tieMeshStatus_managerId s = k then
    { s with mesh := { s.mesh with fwdSent := lastForward (tieLink k s).kept } }
  else s

/-- The four lanes are aligned: the capability exchange begins (R149 step 4). -/
def tieLanesAligned (k : Nat) (s : State) : State :=
  if rdC tieLinkStatus_state k s = 0 then s
  else wrC tieLinkStatus_refuse k 0 (wrC tieLinkStatus_state k 2 (takeLinkValues k (clearLink k s)))

end Sys2Proof.Machine
end

