-- ==== Sys2Proof/Machine/Lanes.lean ====
section
/-! DEFINITION. Serial lanes (chapter 06), with the part of a port's link state that its lanes change (R169, R170). -/

namespace Sys2Proof.Machine

/-! ### Which lanes belong together -/

/-- The chiplet of a lane (R134, R153). -/
def chipletOf (l : Nat) : Nat := if l < 256 then l / 64 else (l - 256) / 8

/-- The lane at position `i` of a chiplet's 72 (R153). -/
def chipletLane (c i : Nat) : Nat := if i < 64 then 64 * c + i else 256 + 8 * c + (i - 64)

/-- A tie lane (R134). -/
def isTieLane (l : Nat) : Bool := decide (256 ≤ l)

/-- The width of a port by its speed (R160). -/
def widthOf (speed : Nat) : Nat := if speed < 4 then 1 else if speed = 4 then 2 else if speed = 5 then 4 else 8

/-- The lane rate code of a port speed (R160). -/
def rateOf (speed : Nat) : Nat := if speed < 3 then speed else 3

/-- Whether a channel is STARTING or ON. -/
def chanRuns (b : Block) (c : Nat) (s : State) : Bool :=
  match (tgt ⟨b, some c⟩ s).st with
  | .starting | .on => true
  | .off | .draining | .held | .fault => false

/-- Whether a channel is STARTING, ON or DRAINING. -/
def chanAlive (b : Block) (c : Nat) (s : State) : Bool := chanRuns b c s || decide ((tgt ⟨b, some c⟩ s).st = .draining)

/-- The lanes of port `p` (R160). -/
def portLanes (p : Nat) (s : State) : List Nat := (List.range (widthOf (cfC prtPortCfg_speed p s))).map (p + ·)

/-- The port whose lane this is: the channel of the lane's group that covers it and is not OFF, HELD or in FAULT. A DRAINING port with its
link up still sends its queued frames on it (R180). -/
def portOfLane (l : Nat) (s : State) : Option Nat :=
  ((List.range (l % 8 + 1)).map (fun i => l - i)).find? (fun p => chanAlive .prt p s && (portLanes p s).contains l)

/-- The lanes that run one link sequence together with lane `l` (R145, R149). -/
def groupLanes (l : Nat) (s : State) : List Nat :=
  if isTieLane l then (List.range 4).map (fun i => l - l % 4 + i)
  else match portOfLane l s with
    | some p => portLanes p s
    | none => [l]

/-- Whether the lane's port or tie link asks for its link sequence (R141). -/
def laneRequested (l : Nat) (s : State) : Bool :=
  if isTieLane l then chanRuns .tie ((l - 256) / 4) s
  else match portOfLane l s with
    | some p => chanRuns .prt p s
    | none => false

/-- The link state of a lane, as LAN.LINK_STATUS codes it. -/
def laneState (l : Nat) (s : State) : Nat := rdC lanLinkStatus_linkState l s

/-- Set the link state of a lane. -/
def setLane (l v : Nat) (s : State) : State := wrC lanLinkStatus_linkState l v s

/-- The test mode of a lane (R155). -/
def laneMode (l : Nat) (s : State) : Nat := modeOf ⟨.lan, some l⟩ s

/-- Whether every lane of a list has signal present (R143). -/
def allSignals (ls : List Nat) (s : State) : Bool := ls.all (fun l => decide (rdC lanLinkStatus_signalPresent l s = 1))

/-- Whether every lane of a list is in link state `v`. -/
def allIn (v : Nat) (ls : List Nat) (s : State) : Bool := ls.all (fun l => decide (laneState l s = v))

/-! ### The transmit equaliser (R137 to R139) -/

/-- Set the taps in effect of a lane. -/
def setTaps (l pre post : Nat) (s : State) : State :=
  wrC lanTxEqLive_pre l pre (wrC lanTxEqLive_post l post (wrC lanTxEqLive_main l (64 - pre - post) s))

/-- Whether taps are inside R137. -/
def tapsOk (pre post : Nat) : Bool := decide (pre ≤ 16 ∧ post ≤ 24 ∧ pre + post ≤ 40)

/-- The preset table of R139. -/
def presetTaps (n : Nat) : Nat × Nat := if n = 2 then (0, 8) else if n = 3 then (4, 12) else (0, 0)

/-- One request of the partner in training (R139): an increment makes its coefficient less negative. The main tap follows from
the other two (R137), so a request to move it alone cannot be met. -/
def tapRequest (l : Nat) (r : TapReq) (s : State) : State :=
  let pre := rdC lanTxEqLive_pre l s
  let post := rdC lanTxEqLive_post l s
  let limit := raiseC lanCoeffLimit l s
  let move (a b : Nat) : State := if tapsOk a b then setTaps l a b s else limit
  match r with
  | .preset n => setTaps l (presetTaps n).1 (presetTaps n).2 s
  | .pre up => if up then (if pre = 0 then limit else move (pre - 1) post) else move (pre + 1) post
  | .post up => if up then (if post = 0 then limit else move pre (post - 1)) else move pre (post + 1)
  | .main _ => limit

/-- Whether a lane's link sequence trains (R145, R149). -/
def laneTrains (l : Nat) (s : State) : Bool :=
  isTieLane l || decide (cfC lanLaneCfg_protocol l s = 0) || decide (cfC lanLaneCfg_trainEn l s = 1)

/-- A lane without training takes its taps and swing from LAN.TX_EQ when it is powered; a lane with training does not use it (R139). -/
def loadTaps (l : Nat) (s : State) : State :=
  if laneTrains l s then s
  else setTaps l (cfC lanTxEq_pre l s) (cfC lanTxEq_post l s) (wrC lanTxEqLive_amp l (cfC lanTxEq_amp l s) s)

/-- The dividers for the lane's rate (R140) and the precoding it has without training: always on for a tie lane, LANE_CFG's for a lane
that does not train (R136). -/
def baseRate (l : Nat) (s : State) : State :=
  let pre (f : Fld) : Nat := if isTieLane l then 1 else if laneTrains l s then 0 else cfC f l s
  wrC lanLinkStatus_liveRate l (if isTieLane l then 4 else cfC lanLaneCfg_rate l s)
    (wrC lanLinkStatus_liveTxPrecode l (pre lanLaneCfg_txPrecode) (wrC lanLinkStatus_liveRxPrecode l (pre lanLaneCfg_rxPrecode) s))

/-- A lane is powered (R140). -/
def powerLane (l : Nat) (s : State) : State := baseRate l (loadTaps l s)

/-! ### The link sequence (R144, R145, R149) -/

/-- Clear what one pass through the link sequence recorded on a lane. -/
def clearPass (l : Nat) (s : State) : State :=
  wrC lanLinkStatus_trained l 0 (wrC lanLinkStatus_cdrLock l 0 (wrC lanLinkStatus_commaLock l 0
    { s with lanes := { s.lanes with noHcd := sset (fun _ => false) s.lanes.noHcd l false, c37 := sset (fun _ => false) s.lanes.c37 l false } }))

/-- A lane in a test mode runs no link sequence, at the rate of LANE_CFG (R155). PAT_STATUS chk_lock stays as it is when the checker leaves modes 1
and 2 or its pattern changes (DESIGN CHOICE, assumption log 128). -/
def testLane (l : Nat) (s : State) : State := setLane l 13 (baseRate l (clearPass l s))

/-- Enter the state after retuning: training, or the wait for signal that replaces it (R145). -/
def afterRetune (ls : List Nat) (l : Nat) (s : State) : State :=
  let s1 := wrC lanLinkStatus_cdrLock l (rdC lanLinkStatus_signalPresent l s) s
  if laneTrains l s then setLane l 4 s1
  else
    let s2 := wrC lanLinkStatus_liveTxPrecode l (cfC lanLaneCfg_txPrecode l s)
      (wrC lanLinkStatus_liveRxPrecode l (cfC lanLaneCfg_rxPrecode l s) s1)
    setLane l (if allSignals ls s then 5 else 7) s2

/-- The first step of a lane's link sequence. -/
def firstStep (ls : List Nat) (l : Nat) (s : State) : State :=
  let s1 := clearPass l s
  if isTieLane l then
    let s2 := wrC lanLinkStatus_liveRate l 4 (wrC lanLinkStatus_liveTxPrecode l 1 (wrC lanLinkStatus_liveRxPrecode l 1 s1))
    if allSignals ls s then setTaps l 0 8 (setLane l 9 s2) else setLane l 8 s2
  else if cfC lanLaneCfg_protocol l s = 0 then wrC lanLinkStatus_hcd l 0xFF (setLane l 2 s1)
  else afterRetune ls l (wrC lanLinkStatus_hcd l 0xFF (wrC lanLinkStatus_liveRate l (cfC lanLaneCfg_rate l s) s1))

/-- Put a lane where its mode and its port or link ask for it: test, the first step, or idle (R141, R155). -/
def enterSequence (ls : List Nat) (l : Nat) (s : State) : State :=
  if !chanOn .lan l s then s
  else if laneMode l s ≠ 0 then testLane l s
  else if laneRequested l s then firstStep ls l s
  else setLane l 0 (clearPass l s)

/-- Start the link sequence of lanes together. -/
def startLanes (ls : List Nat) (s : State) : State := refreshSynce (foldOver ls (enterSequence ls) s)

/-- A lane enters hold-down (R144), unless it is in a test mode or not ON; one whose sequence nothing requests goes idle (R141). -/
def holdLane (l : Nat) (s : State) : State :=
  if !chanOn .lan l s then s
  else if laneMode l s ≠ 0 then testLane l s
  else setLane l (if laneRequested l s then 1 else 0) (clearPass l s)

/-- Lanes enter hold-down together. -/
def holdLanes (ls : List Nat) (s : State) : State := refreshSynce (foldOver ls holdLane s)

/-- A lane in data or tie_active loses its link (R147, R151): link_down is counted and raised. -/
def laneDown (l : Nat) (s : State) : State :=
  if laneState l s = 6 ∨ laneState l s = 12 then raiseC lanLinkDown l (satX lanLinkCounts_linkDown 0 l 1 s) else s

/-! ### A port's link (R169, R170) -/

/-- The counters of a port (R183). -/
def prtCtrs : CtrSet := ⟨prtCntLo_count.off, prtCntWrap, true⟩

/-- Add to a counter of a port while its channel is STARTING, ON or DRAINING (R184). -/
def portCount (i p d : Nat) (s : State) : State := if chanAlive .prt p s then count prtCtrs i p d s else s

/-- A link-down is a flap (R170): counted outside suppression; at flap_max the port is suppressed, and its PCS sends remote fault. The 4-bit count
stays at 15 (DESIGN CHOICE, assumption log 129). -/
def flap (p : Nat) (s : State) : State :=
  if rdC prtLinkStatus_suppressed p s = 1 then s
  else
    let n := min (rdC prtLinkStatus_flapCount p s + 1) 15
    let s1 := wrC prtLinkStatus_flapCount p n s
    if cfC prtDebounce_flapMax p s ≠ 0 ∧ cfC prtDebounce_flapMax p s ≤ n then
      emit (.remoteFault p true) (raiseC prtFlapSuppressed p (portCount 22 p 1 (wrC prtLinkStatus_suppressed p 1 s1)))
    else s1

/-- The link of port `p` goes down (R169): link_down raised and counted, and the flap rule of R170. -/
def portDown (p : Nat) (s : State) : State :=
  if rdC prtLinkStatus_linkUp p s = 0 then s
  else flap p (refreshSynce (raiseC prtLinkDown p (portCount 20 p 1 (wrC prtLinkStatus_linkUp p 0 s))))

/-- The lanes of a group lose their links and go into hold-down (R147, R151); the port or tie link above them loses its
link. -/
def dropLanes (l : Nat) (s : State) : State :=
  let ls := groupLanes l s
  let s1 := if isTieLane l then tieLanesLost ((l - 256) / 4) s
    else match portOfLane l s with
      | some p => wrC prtLinkStatus_pcsLock p 0 (portDown p s)
      | none => s
  holdLanes ls (foldOver ls laneDown s1)

/-- Restart the link sequence of a lane, with the lanes that run it together (R142, R147). -/
def restartLane (l : Nat) (s : State) : State := if chanOn .lan l s then dropLanes l s else s

/-- Guard of a command about one lane. -/
def onLane (l : Nat) (c : Bool) (f : State → State) (s : State) : Host.Outcome State Fault Refusal :=
  guarded (decide (l < 288)) (onlyIf (c && chanOn .lan l s) f s)

/-- Guard of a command about one port. -/
def onPort (p : Nat) (c : Bool) (f : State → State) (s : State) : Host.Outcome State Fault Refusal :=
  guarded (decide (p < 256)) (onlyIf (c && chanOn .prt p s) f s)

/-- As `onPort`, for what happens on a port's link in STARTING and DRAINING too. -/
def onLivePort (p : Nat) (c : Bool) (f : State → State) (s : State) : Host.Outcome State Fault Refusal :=
  guarded (decide (p < 256)) (onlyIf (c && chanAlive .prt p s) f s)

/-! ### Committed values of a port (R182) -/

/-- The shadowed registers of a port. -/
def portRegs : List Nat := [prtPortCfg_speed.off, prtRedCfg_redMode.off, prtDebounce_upMs.off]

/-- The values in effect of a port's shadowed registers. -/
def portVals (p : Nat) (s : State) : List Word := portRegs.map (fun o => liveReg o p s)

/-- Put values of a port's shadowed registers into effect. -/
def putVals (p : Nat) (vs : List Word) (s : State) : State := foldOver (portRegs.zip vs) (fun x a => putLive x.1 p x.2 a) s

/-- The committed values that wait for port p take effect (R182). -/
def moveLater (p : Nat) (s : State) : State :=
  match s.fab.later.find? (fun e => e.1 == p) with
  | some e => putVals p e.2 { s with fab := { s.fab with later := s.fab.later.filter (fun x => x.1 != p) } }
  | none => s

/-- Whether committed values wait for the next frame boundary of port p; a port that drains takes them when it is OFF (R182). -/
def valuesWait (p : Nat) (s : State) : Bool :=
  s.fab.later.any (fun e => e.1 == p) && decide ((tgt ⟨.prt, some p⟩ s).st ≠ .draining)

/-! ### Autonegotiation (R145, R146, R161, R165) -/

/-- The technology bits of a port speed (R160). -/
def techBits (speed : Nat) : List Nat :=
  if speed = 1 then [2] else if speed = 2 then [9, 10] else if speed = 3 then [13]
  else if speed = 4 then [14] else if speed = 5 then [15] else []

/-- Bit i of technology ability lies at D21 + i of a clause 73 base page. -/
def pageTech (page i : Nat) : Bool := bit page (21 + i)

/-- The base page the device advertises for the AN lane of port `p` (R146, R165), what it fills in itself apart. -/
def ownPage (p : Nat) (s : State) : Nat :=
  let page := cfC lanAnAdvLo_page p s + cfC lanAnAdvHi_page p s * 2 ^ 32
  if cfC prtPortCfg_speed p s = 2 then
    withBits page 44 4 (b2n (decide (cfC prtPortCfg_fec p s = 1)))
  else page

/-- The partner's base page. -/
def partnerPage (p : Nat) (s : State) : Nat := rdC lanAnLpLo_page p s + rdC lanAnLpHi_page p s * 2 ^ 32

/-- The highest technology bit that both ends advertise and the port's speed allows (R161). -/
def resolveHcd (p : Nat) (s : State) : Option Nat :=
  ((techBits (cfC prtPortCfg_speed p s)).filter (fun i => pageTech (ownPage p s) i && pageTech (partnerPage p s) i)).getLast?

/-- Whether the partner sets F3 (D45) and neither end sets F2 (D44) at speed 2 (R165). -/
def fecMismatch (p : Nat) (s : State) : Bool :=
  decide (cfC prtPortCfg_speed p s = 2) && bit (partnerPage p s) 45 && !bit (partnerPage p s) 44 && !bit (ownPage p s) 44

/-- The FEC in use on a port, encoded as fec (R164, R165). -/
def fecInUse (p : Nat) (s : State) : Nat :=
  if cfC prtPortCfg_speed p s = 2 ∧ cfC lanLaneCfg_protocol p s = 0 then
    b2n (decide (cfC prtPortCfg_fec p s = 1) || bit (partnerPage p s) 44)
  else cfC prtPortCfg_fec p s

/-- fec_active shows the FEC in use (R165). -/
def showFec (p : Nat) (s : State) : State := wrC prtLinkStatus_fecActive p (fecInUse p s) s

/-- Resolve autonegotiation on port `p`: an_complete, the FEC in use, and the HCD's rate on every lane that is ON (R140) and in no test mode (R155), or
an_no_hcd. -/
def resolveAn (p : Nat) (s : State) : State :=
  match resolveHcd p s with
  | none => raiseC lanAnNoHcd p { s with lanes := { s.lanes with noHcd := sset (fun _ => false) s.lanes.noHcd p true } }
  | some i =>
    let ls := portLanes p s
    let s1 := raiseC lanAnComplete p (wrC lanLinkStatus_hcd p i s)
    let s2 := foldOver ls (fun l a =>
      if chanOn .lan l a && decide (laneMode l a = 0) then setLane l 4 (wrC lanLinkStatus_liveRate l (rateOf (cfC prtPortCfg_speed p s)) a) else a) (showFec p s1)
    if fecMismatch p s then raiseC prtFecMismatch p s2 else s2

/-- AN_PAGE_RECEIVED (R146): a base page is kept; with the next-page bit null pages are exchanged until the partner ends. -/
def anPage (p page : Nat) (base : Bool) (s : State) : State :=
  let s1 := if base then wrC lanAnLpLo_page p page (wrC lanAnLpHi_page p (page / 2 ^ 32) s) else s
  if bit page 15 then s1 else resolveAn p s1

/-- Port p runs clause 37 autonegotiation (R161). -/
def runsC37 (p : Nat) (s : State) : Bool := decide (cfC prtPortCfg_speed p s = 0 ∧ cfC prtPortCfg_c37An p s = 1)

/-- Whether port p's clause 37 exchange has ended in this link sequence (R161). -/
def c37Done (p : Nat) (s : State) : Bool := sget (fun _ => false) s.lanes.c37 p

/-- A clause 37 page (R161): the exchange ends with a page without the next-page bit. -/
def c37Page (p page : Nat) (s : State) : State :=
  if bit page 15 then s else { s with lanes := { s.lanes with c37 := sset (fun _ => false) s.lanes.c37 p true } }

/-- AN_PAGE_RECEIVED: a clause 73 page in link state AN, or a clause 37 page on a port in data that runs it (DESIGN CHOICE, assumption
log 102). -/
def execAnPageReceived (p page : Nat) (base : Bool) (s : State) : Host.Outcome State Fault Refusal :=
  let ours := decide (p < 256 ∧ portOfLane p s = some p)
  onLane p (ours && ((decide (laneState p s = 2) && !sget (fun _ => false) s.lanes.noHcd p) || (decide (laneState p s = 6) && runsC37 p s)))
    (if laneState p s = 2 then anPage p page base else c37Page p page) s

/-- AN_NO_HCD_RESTART (R146): autonegotiation starts again after break_link_timer. -/
def execAnNoHcdRestart (p : Nat) (s : State) : Host.Outcome State Fault Refusal :=
  onLane p (decide (p < 256 ∧ laneState p s = 2) && sget (fun _ => false) s.lanes.noHcd p)
    (fun s => startLanes (groupLanes p s) s) s

/-! ### Training and adaptation (R139, R145, R147, R149, R154) -/

/-- A lane finished training: requests applied, precoding as requested (R136), and once every lane has, the next step. -/
def trainingComplete (l : Nat) (reqs : List TapReq) (txPre : Bool) (s : State) : State :=
  let ls := groupLanes l s
  let pam4 := decide (3 ≤ rdC lanLinkStatus_liveRate l s)
  let s1 := foldOver reqs (tapRequest l) s
  let s2 := if isTieLane l then s1
    else wrC lanLinkStatus_liveTxPrecode l (b2n (txPre && pam4))
      (wrC lanLinkStatus_liveRxPrecode l (if pam4 then cfC lanLaneCfg_rxPrecodeReq l s else 0) s1)
  let s3 := refreshSynce (raiseC lanTrainComplete l (wrC lanLinkStatus_trained l 1 (wrC lanLinkStatus_cdrLock l 1 s2)))
  if ls.all (fun k => decide (rdC lanLinkStatus_trained k s3 = 1))
  then foldOver ls (fun k a => setLane k (if isTieLane k then 10 else 5) a) s3
  else s3

def execTrainingComplete (l : Nat) (reqs : List TapReq) (txPre : Bool) (s : State) : Host.Outcome State Fault Refusal :=
  onLane l (decide ((laneState l s = 4 ∨ laneState l s = 9) ∧ rdC lanLinkStatus_trained l s = 0))
    (trainingComplete l reqs txPre) s

/-- TRAINING_TIMEOUT (R147, R151): train_fail on each lane that did not finish, one in a test mode among them (DESIGN CHOICE, assumption log 128);
the lanes restart. -/
def trainingTimeout (l : Nat) (s : State) : State :=
  let ls := groupLanes l s
  holdLanes ls (foldOver (ls.filter (fun k => decide (rdC lanLinkStatus_trained k s = 0)))
    (fun k a => raiseC lanTrainFail k (satX lanLinkCounts_trainFail 0 k 1 a)) s)

def execTrainingTimeout (l : Nat) (s : State) : Host.Outcome State Fault Refusal :=
  onLane l (decide (laneState l s = 4 ∨ laneState l s = 9)) (trainingTimeout l) s

/-- A delay of a later bring-up, within one unit of 0.16 ns of the first (R154). -/
def heldDelay (first x : Nat) : Nat := if x + 1 < first then first - 1 else if first + 1 < x then first + 1 else x

/-- The PMA delays of a lane at its rate (R154): the first bring-up's, which every later one repeats (assumption log 103). -/
def storeDelay (l tx rx : Nat) (s : State) : State :=
  let k := 8 * l + rdC lanLinkStatus_liveRate l s
  let f := (sget (fun _ => none) s.lanes.pma k).getD (tx % 65536, rx % 65536)
  wrC lanPmaDelay_txDelay l (heldDelay f.1 (tx % 65536)) (wrC lanPmaDelay_rxDelay l (heldDelay f.2 (rx % 65536))
    { s with lanes := { s.lanes with pma := sset (fun _ => none) s.lanes.pma k (some f) } })

/-- What foreground adaptation found on one lane. -/
def storeAdapt (l : Nat) (a : AdaptResult) (s : State) : State :=
  wrC lanAdaptStatus_snr l a.snr (wrC lanAdaptStatus_ctle l a.ctle (wrC lanAdaptStatus_dfe1 l a.dfe (storeDelay l a.txDelay a.rxDelay s)))

/-- ADAPT_COMPLETE (R145): every lane of the port enters data and raises link_up. -/
def adaptComplete (l : Nat) (rs : List AdaptResult) (s : State) : State :=
  refreshSynce (foldOver ((groupLanes l s).zip rs) (fun e a => raiseC lanLinkUp e.1
    (setLane e.1 6 (wrC lanLinkStatus_cdrLock e.1 1 (storeAdapt e.1 e.2 a)))) s)

def execAdaptComplete (l : Nat) (rs : List AdaptResult) (s : State) : Host.Outcome State Fault Refusal :=
  onLane l (allIn 5 (groupLanes l s) s && allSignals (groupLanes l s) s && decide (rs.length = (groupLanes l s).length))
    (adaptComplete l rs) s

/-! ### Signal detect and hold-down (R143, R144, R147, R149, R151) -/

/-- SIGNAL_PRESENT (R143): the wait for signal ends once every lane of the group has it. signal_restored, of which the spec states no more
than its name, is raised each time signal becomes present (DESIGN CHOICE, assumption log 101). -/
def signalPresent (l : Nat) (s : State) : State :=
  let s1 := raiseC lanSignalRestored l (wrC lanLinkStatus_signalPresent l 1 s)
  let ls := groupLanes l s1
  if allSignals ls s1 && allIn 7 ls s1 then foldOver ls (fun k a => setLane k 5 a) s1
  else if allSignals ls s1 && allIn 8 ls s1 then foldOver ls (fun k a => setTaps k 0 8 (setLane k 9 a)) s1
  else s1

def execSignalPresent (l : Nat) (s : State) : Host.Outcome State Fault Refusal :=
  onLane l (decide (rdC lanLinkStatus_signalPresent l s = 0)) (signalPresent l) s

/-- The link states whose loss of signal restarts the sequence (R147, R151) and raises signal_lost; in the others (AN, detect, idle, hold-down,
test) none is raised (DESIGN CHOICE, assumption log 101). -/
def lossRestarts (v : Nat) : Bool := [4, 5, 6, 7, 9, 10, 11, 12].contains v

/-- SIGNAL_LOST (R143, R147, R151, R169). -/
def signalLost (l : Nat) (s : State) : State :=
  let s1 := wrC lanLinkStatus_signalPresent l 0 s
  if lossRestarts (laneState l s) then
    dropLanes l (if isTieLane l then noteLinkLost ((l - 256) / 4) (raiseC lanSignalLost l s1) else raiseC lanSignalLost l s1)
  else s1

/-- SD_GLITCH (R143). -/
def execSdGlitch (l : Nat) (s : State) : Host.Outcome State Fault Refusal :=
  onLane l (decide (rdC lanLinkStatus_signalPresent l s = 1))
    (fun s => raiseC lanSdGlitch l (satX lanLinkCounts_sdGlitch 0 l 1 s)) s

/-- HOLDDOWN_EXPIRE (R144): the lanes in hold-down start their link sequence again. -/
def holddownExpire (l : Nat) (s : State) : State :=
  let ls := groupLanes l s
  refreshSynce (foldOver (ls.filter (fun k => decide (laneState k s = 1))) (enterSequence ls) s)

def execHolddownExpire (l : Nat) (s : State) : Host.Outcome State Fault Refusal :=
  onLane l (decide (laneState l s = 1)) (holddownExpire l) s

/-! ### Tie lanes (R149 to R151) -/

/-- TIE_DETECT_WAIT (R149). -/
def execTieDetectWait (l : Nat) (s : State) : Host.Outcome State Fault Refusal :=
  onLane l (decide (laneState l s = 8)) (raiseC lanTieDetectWait l) s

/-- The latest lane of a link: the one with the largest measured skew. -/
def latestLane (ls : List Nat) (skew : Nat → Nat) : Nat :=
  ls.foldl (fun a l => if skew a < skew l then l else a) (ls.headD 0)

/-- COMMA_LOCK (R149, R151, R152, R154): symbol lock, skew, adaptation and delays of one lane; with the fourth the link is aligned, or deskew fails. -/
def commaLock (l offset : Nat) (lock : LaneLock) (s : State) : State :=
  let ls := groupLanes l s
  let s1 := raiseC lanCommaLock l (wrC lanLinkStatus_commaLock l 1
    (wrC lanTieAlign_commaOffset l offset (wrC lanTieAlign_skew l (min lock.skew 511) (storeAdapt l lock.adapt s))))
  if ls.all (fun k => decide (rdC lanLinkStatus_commaLock k s1 = 1)) then
    let late := latestLane ls (fun k => rdC lanTieAlign_skew k s1)
    if 256 < rdC lanTieAlign_skew late s1 then dropLanes l (raiseC lanDeskewFail late s1)
    else tieLanesAligned ((l - 256) / 4) (foldOver ls (fun k a => setLane k 11 a) s1)
  else s1

def execCommaLock (l offset : Nat) (lock : LaneLock) (s : State) : Host.Outcome State Fault Refusal :=
  onLane l (decide (laneState l s = 10 ∧ rdC lanLinkStatus_commaLock l s = 0)) (commaLock l offset lock) s

/-- COMMA_ERROR (R150): a comma at another offset. -/
def execCommaError (l : Nat) (s : State) : Host.Outcome State Fault Refusal :=
  onLane l (decide (rdC lanLinkStatus_commaLock l s = 1)) (satX lanTieAlign_commaErr 0 l 1) s

/-- COMMA_LOCK_LOST (R150): the link goes back to lock without retraining. -/
def commaLockLost (l : Nat) (s : State) : State :=
  let ls := groupLanes l s
  let s1 := raiseC lanCommaLockLost l (wrC lanLinkStatus_commaLock l 0 s)
  let s2 := if 1 < rdC tieLinkStatus_state ((l - 256) / 4) s1 then tieLinkDown ((l - 256) / 4) s1 else s1
  foldOver ls (fun k a => setLane k 10 a) s2

def execCommaLockLost (l : Nat) (s : State) : Host.Outcome State Fault Refusal :=
  onLane l (decide (rdC lanLinkStatus_commaLock l s = 1 ∧ 10 ≤ laneState l s ∧ laneState l s ≤ 12)) (commaLockLost l) s

/-- COMMA_RELOCK_TIMEOUT (R150): the lanes raise link_down and restart from detect; so they do when step 3 of a first bring-up does not
complete, for which the spec states nothing (DESIGN CHOICE, assumption log 101). -/
def commaRelockTimeout (l : Nat) (s : State) : State :=
  let ls := groupLanes l s
  holdLanes ls (foldOver ls (fun k a => raiseC lanLinkDown k (satX lanLinkCounts_linkDown 0 k 1 a)) s)

def execCommaRelockTimeout (l : Nat) (s : State) : Host.Outcome State Fault Refusal :=
  onLane l (decide (laneState l s = 10)) (commaRelockTimeout l) s

/-! ### Background work (R152, R153, R142) -/

/-- One code up or down, inside the field. -/
def stepCode (top : Nat) (d : StepDir) (v : Nat) : Nat :=
  match d with
  | .up => min (v + 1) top
  | .keep => v
  | .down => v - 1

/-- One signed code of 8 bits up or down, inside the field. -/
def stepSigned (d : StepDir) (v : Nat) : Nat :=
  unsigned 8 (clampInt (signed 8 v + (match d with | .up => 1 | .keep => 0 | .down => -1)) (-128) 127)

/-- BACKGROUND_ADAPT (R152): each equaliser parameter moves by at most one code. -/
def backgroundAdapt (l : Nat) (ctle dfe : StepDir) (snr : Nat) (s : State) : State :=
  wrC lanAdaptStatus_ctle l (stepCode 63 ctle (rdC lanAdaptStatus_ctle l s))
    (wrC lanAdaptStatus_dfe1 l (stepSigned dfe (rdC lanAdaptStatus_dfe1 l s))
      (wrC lanAdaptStatus_snr l snr (incX lanAdaptStatus_updates 0 l s)))

def execBackgroundAdapt (l : Nat) (ctle dfe : StepDir) (snr : Nat) (s : State) : Host.Outcome State Fault Refusal :=
  onLane l (decide (laneState l s = 6 ∨ laneState l s = 12)) (backgroundAdapt l ctle dfe snr) s

/-- ADAPT_LIMIT (R152). -/
def execAdaptLimit (l : Nat) (s : State) : Host.Outcome State Fault Refusal :=
  onLane l (decide (laneState l s = 6 ∨ laneState l s = 12)) (raiseC lanAdaptLimit l) s

/-- SNR_LOW (R152): the estimate has stayed below snr_min; 0 disables it. -/
def execSnrLow (l : Nat) (s : State) : Host.Outcome State Fault Refusal :=
  onLane l (decide ((laneState l s = 6 ∨ laneState l s = 12) ∧ rdC lanAdaptStatus_snr l s < cfC lanTrainCtl_snrMin l s))
    (raiseC lanSnrLow l) s

/-- One visit to a lane that is STARTING or ON (R153): the third miss in a row raises cal_fail, once (DESIGN CHOICE, assumption log 101). -/
def calLane (l : Nat) (inRange : Bool) (s : State) : State :=
  if !chanRuns .lan l s then s
  else
    let n := if inRange then 0 else sget (fun _ => 0) s.lanes.calRun l + 1
    let s1 := { s with lanes := { s.lanes with calRun := sset (fun _ => 0) s.lanes.calRun l (min n 3) } }
    if n = 3 then raiseC lanCalFail l s1 else s1

/-- CAL_VISIT (R153): the sequencer of chiplet `c` visits its next lane; a full pass is counted. -/
def calVisit (c : Nat) (inRange : Bool) (s : State) : State :=
  let i := sget (fun _ => 0) s.lanes.visit c
  let s1 := calLane (chipletLane c i) inRange s
  let s2 := { s1 with lanes := { s1.lanes with visit := sset (fun _ => 0) s1.lanes.visit c ((i + 1) % 72) } }
  if i = 71 then incX lanCalStatus_passes c 0 s2 else s2

/-- Whether a chiplet is present on the variant (R2, LAN.CAL_STATUSc). -/
def chipletPresent (c : Nat) (s : State) : Bool := !isFused .lan (64 * c) s

def execCalVisit (c : Nat) (inRange : Bool) (s : State) : Host.Outcome State Fault Refusal :=
  guarded (decide (c < 4)) (onlyIf (chipletPresent c s && blockOn .lan s) (calVisit c inRange) s)

/-- One step of `a` towards `b`. -/
def toward (a b : Nat) : Nat := if a < b then a + 1 else if b < a then a - 1 else a

/-- TX_EQ_STEP (R142): on a lane without training each tap and the swing move one step towards LAN.TX_EQ. -/
def txEqStep (l : Nat) (s : State) : State :=
  setTaps l (toward (rdC lanTxEqLive_pre l s) (cfC lanTxEq_pre l s)) (toward (rdC lanTxEqLive_post l s) (cfC lanTxEq_post l s))
    (wrC lanTxEqLive_amp l (toward (rdC lanTxEqLive_amp l s) (cfC lanTxEq_amp l s)) s)

def execTxEqStep (l : Nat) (s : State) : Host.Outcome State Fault Refusal :=
  guarded (decide (l < 288)) (onlyIf (chanRuns .lan l s && !laneTrains l s) (txEqStep l) s)

/-! ### Patterns and eye (R155 to R158) -/

/-- Whether the pattern generator and checker of a lane are active (R155). -/
def patActive (l : Nat) (s : State) : Bool := decide (laneMode l s = 1 ∨ laneMode l s = 2)

/-- Keys of the two pattern counters of a lane (R157). -/
def patErrKey (l : Nat) : Nat := rkey lanPatErrLo_count.off l
def patBitsKey (l : Nat) : Nat := rkey lanPatBitsLo_count.off l

/-- PAT_LOCK (R157). -/
def execPatLock (l : Nat) (s : State) : Host.Outcome State Fault Refusal :=
  onLane l (patActive l s && decide (cfC lanPatCtl_chkPattern l s ≠ 0 ∧ rdC lanPatStatus_chkLock l s = 0))
    (fun s => raiseC lanPatLock l (wrC lanPatStatus_chkLock l 1 s)) s

/-- PAT_LOCK_LOST (R157). -/
def execPatLockLost (l : Nat) (s : State) : Host.Outcome State Fault Refusal :=
  onLane l (patActive l s && decide (rdC lanPatStatus_chkLock l s = 1))
    (fun s => raiseC lanPatLockLost l (wrC lanPatStatus_chkLock l 0 s)) s

/-- The checker counts errors and bits compared (R157); a wrap sets its bit and raises pat_wrap. -/
def patCount (l errs bits : Nat) (s : State) : State :=
  let a := addCtr (patErrKey l) errs s
  let b := addCtr (patBitsKey l) bits a.1
  if a.2 || b.2 then raiseC lanPatWrap l b.1 else b.1

def execPatWrap (l errs bits : Nat) (s : State) : Host.Outcome State Fault Refusal :=
  onLane l (patActive l s && decide (rdC lanPatStatus_chkLock l s = 1)) (patCount l errs bits) s

/-- A write of LAN.PAT_CTL on lane `l` (R156, R157): the shadow fields, then, in modes 1 and 2, clear, then inject. -/
def patCtlWrite (l : Nat) (v : Word) (s : State) : State :=
  let s1 := storeFields .lan lanPatCtl_inject.off l v s
  let s2 := if wordField v 9 1 = 1 ∧ patActive l s = true then putCtr (patErrKey l) 0 (putCtr (patBitsKey l) 0 s1) else s1
  if wordField v 8 1 = 1 ∧ patActive l s = true ∧ cfC lanPatCtl_genPattern l s ≠ 0 then
    { s2 with lanes := { s2.lanes with inject := smod (fun _ => 0) s2.lanes.inject l (· + 1) } }
  else s2

def execPatInject (w : Window) (v : Word) (s : State) : Host.Outcome State Fault Refusal :=
  .next (writingC w .lan (fun l => patCtlWrite l (v ||| 0x100)) s)

def execPatClear (w : Window) (v : Word) (s : State) : Host.Outcome State Fault Refusal :=
  .next (writingC w .lan (fun l => patCtlWrite l (v ||| 0x200)) s)

/-- A write of LAN.EYE_CTL on lane `l` (R158): a target outside 3 to 12 is handled as R106 states; start measures, or sets
overrun while busy. -/
def eyeCtlWrite (w : Window) (l : Nat) (v : Word) (s : State) : State :=
  if wordField v 4 4 < 3 ∨ 12 < wordField v 4 4 then accessError w lanEyeCtl_start.off true s
  else
    let s1 := storeFields .lan lanEyeCtl_start.off l v s
    if wordField v 0 1 = 0 then s1
    else if rdC lanEyeCtl_busy l s = 1 then wrC lanEyeCtl_overrun l 1 s1
    else wrC lanEyeCtl_busy l 1 s1

def execEyeStart (w : Window) (v : Word) (s : State) : Host.Outcome State Fault Refusal :=
  .next (writingC w .lan (fun l => eyeCtlWrite w l (v ||| 1)) s)

/-- Whether an eye measurement of a lane is valid (R158). -/
def eyeValid (l : Nat) (s : State) : Bool :=
  decide (laneState l s = 6 ∨ laneState l s = 12) || (patActive l s && decide (rdC lanLinkStatus_signalPresent l s = 1))

/-- EYE_DONE (R158): `vert` holds upper, middle and lower margins, `horz` left and right; there is no upper or lower eye at
NRZ. -/
def eyeDone (l vert horz : Nat) (s : State) : State :=
  let nrz := decide (rdC lanLinkStatus_liveRate l s < 3)
  let s1 := wrC lanEyeVert_middle l (bitsOf vert 8 8) (wrC lanEyeVert_upper l (if nrz then 0 else bitsOf vert 0 8)
    (wrC lanEyeVert_lower l (if nrz then 0 else bitsOf vert 16 8)
      (wrC lanEyeHorz_left l (bitsOf horz 0 8) (wrC lanEyeHorz_right l (bitsOf horz 8 8) s))))
  raiseC lanEyeDone l (wrC lanEyeCtl_busy l 0 (wrC lanEyeCtl_done l 1 (wrC lanEyeCtl_valid l (b2n (eyeValid l s)) s1)))

def execEyeDone (l vert horz : Nat) (s : State) : Host.Outcome State Fault Refusal :=
  guarded (decide (l < 288)) (onlyIf (decide (rdC lanEyeCtl_busy l s = 1)) (eyeDone l vert horz) s)

/-! ### Commit check and effect (R134, R137, R138, R141, R142, R156) -/

/-- Whether a pattern may run at a rate (R156). -/
def patternOk (pat rate : Nat) : Bool :=
  decide (pat = 0 ∨ pat = 10 ∨ pat = 11 ∨ (pat ≤ 6 ∧ rate ≤ 2) ∨ (7 ≤ pat ∧ pat ≤ 9 ∧ 3 ≤ rate))

/-- Whether the shadow set of one lane passes. In protocol 0, where LANE_CFG.rate is ignored, R156 checks the patterns against that field all
the same (DESIGN CHOICE, assumption log 101). -/
def laneShadowOk (l : Nat) (s : State) : Bool :=
  let proto := rdC lanLaneCfg_protocol l s
  let rate := rdC lanLaneCfg_rate l s
  (if isTieLane l then decide (proto = 2 ∧ rate = 4) else decide (proto ≤ 1 ∧ rate ≤ 3))
    && tapsOk (rdC lanTxEq_pre l s) (rdC lanTxEq_post l s) && decide (rdC lanTxEq_amp l s ≠ 31)
    && decide (rdC lanSdCtl_assertMs l s ≠ 0 ∧ rdC lanSdCtl_deassertUs l s ≠ 0)
    && patternOk (rdC lanPatCtl_genPattern l s) rate && patternOk (rdC lanPatCtl_chkPattern l s) rate

/-- The check of a LAN commit. -/
def lanCheck (s : State) : Option Nat :=
  let cs := listedCopies .lan s.fab.regs
  if cs.all (fun l => laneShadowOk l s && decide (rdC (modeFld .lan) l s ≤ 3)) then none else some 2

/-- Whether a commit changed what restarts a lane (R142). -/
def laneRestartChange (l : Nat) (old new : State) : Bool :=
  [lanLaneCfg_protocol.off, lanTrainCtl_maxWaitMs.off, lanAnAdvLo_page.off, lanAnAdvHi_page.off].any
      (fun o => liveReg o l old != liveReg o l new)
    || decide (laneMode l old ≠ laneMode l new)

end Sys2Proof.Machine
end

