-- ==== Sys2Proof/Machine/Time.lean ====
section
/-! DEFINITION. The time island (chapter 16): time base, steps, servo, PPS, triggers, captures, egress timestamp FIFOs. -/

namespace Sys2Proof.Machine

/-- One raw count passes (R449). -/
def idleTick (s : State) : State := { s with tim := { s.tim with raw := (s.tim.raw + 1) % 2 ^ 64 } }

/-- What the chip does while no command waits: the raw count runs, but not while a power-on reset or RESET_N holds the chip (R60,
R66, R449). -/
def idle (s : State) : State := if s.pwr.hold = .none then idleTick s else s

/-! ### Reading the time (R453) -/

/-- TIME_SNAPSHOT_READ (R453): the window's snapshot of time base and raw count at one raw count. -/
def timeSnapshot (w : Window) (s : State) : State :=
  let t := timeNow s
  let c := winIdx w
  putRead w (BitVec.ofNat 32 (secOf t))
    (wrC timTimeSecLo_value c (secOf t)
      (wrC timTimeSecHi_value c (secOf t / 2 ^ 32 % 65536 + s.tim.epoch * 65536)
        (wrC timTimeNs_value c (nsOf t)
          (wrC timTimeFrac_value c (fracOf t)
            (wrC timRawLo_value c s.tim.raw (wrC timRawHi_value c (s.tim.raw / 2 ^ 32) s))))))

def execTimeSnapshotRead (w : Window) (s : State) : Host.Outcome State Fault Refusal :=
  .next (reading w (timeSnapshot w) s)

/-- The mapping now in force (R451). -/
def mapNow (t : TimeIsland) : TimeMap := { anchorRaw := t.anchorRaw, anchorTime := t.anchorTime, rate := t.rate, epoch := t.epoch }

/-- The mapping in force at a stamp in eighths of a raw-count cycle (R468). -/
def mapAt (t : TimeIsland) (raw8 : Nat) : TimeMap := if raw8 < 8 * t.anchorRaw then t.was else mapNow t

/-- The time value of a stamp in eighths of a raw-count cycle, 0.16 ns each (R468). -/
def timeAtEighth (t : TimeIsland) (raw8 : Nat) : Nat :=
  let m := mapAt t raw8
  (((m.anchorTime : Int) + ((raw8 : Int) - 8 * (m.anchorRaw : Int)) * 16 * 65536 * ((2 ^ 40 : Int) + m.rate)
      / (100 * (2 ^ 40 : Int))) % (timeMod : Int)).toNat

/-- The time epoch in force at a stamp (R468). -/
def epochAt (t : TimeIsland) (raw8 : Nat) : Nat := (mapAt t raw8).epoch

/-- The stamp count in eighths of a raw-count cycle. -/
def raw8 (sub : Nat) (s : State) : Nat := 8 * s.tim.raw + sub % 8

/-- Raw count r has been reached. -/
def rawReached (r : Nat) (s : State) : Bool := decide ((s.tim.raw + 2 ^ 64 - r % 2 ^ 64) % 2 ^ 64 < 2 ^ 63)

/-- The first raw count at least `ns` nanoseconds from now: a cycle lasts 1.28 ns. -/
def rawAfter (ns : Nat) (s : State) : Nat := (s.tim.raw + (ns * 25 + 31) / 32) % 2 ^ 64

/-- Whether `ns` nanoseconds have passed since a stamp in eighths of a cycle. -/
def passedSince (p ns : Nat) (s : State) : Bool := decide (ns * 25 ≤ (8 * s.tim.raw - p) * 4)

/-! ### Rate (R451, R465) -/

/-- The largest rate magnitude: max_ppm × 10⁻⁶ × 2⁴⁰ (R451). -/
def maxRate (s : State) : Int := (cf timServoLimit_maxPpm s : Int) * 2 ^ 40 / 1000000

/-- Change the rate: the anchor moves to the current raw count and the time base value there (R451). -/
def setRate (a : Int) (s : State) : State :=
  { s with tim := { s.tim with
      was := mapNow s.tim
      anchorTime := timeNow s
      anchorRaw := s.tim.raw
      rate := clampInt a (-(maxRate s)) (maxRate s) } }

/-- A write of TIM.RATE (R451, R465): ignored as R106 states while the servo has a source. -/
def rateWrite (w : Window) (v : Word) (s : State) : State :=
  if cf timServoCfg_src s ≠ 0 then accessError w timRate_rate.off true s else setRate (signed 32 v.toNat) s

def execRateWrite (w : Window) (v : Word) (s : State) : Host.Outcome State Fault Refusal :=
  .next (writing w .tim (rateWrite w v) s)

/-! ### Triggers (R459, R460) -/

/-- The record of trigger `k`. -/
def trig (k : Nat) (s : State) : Trig := sget (fun _ => ({} : Trig)) s.tim.trigs k

/-- Store the record of trigger `k`. -/
def putTrig (k : Nat) (x : Trig) (s : State) : State :=
  { s with tim := { s.tim with trigs := sset (fun _ => ({} : Trig)) s.tim.trigs k x } }

/-- The start time of trigger `k`. -/
def trigStart (k : Nat) (s : State) : Nat :=
  mkTime (rdC timTrigStartSecLo_value k s + rdC timTrigStartSecHi_value k s * 2 ^ 32) (rdC timTrigStartNs_value k s) 0

/-- P × den in whole units: period_ns × den + num. -/
def trigPeriodDen (k : Nat) (s : State) : Nat :=
  rdC timTrigPeriodNs_value k s * rdC timTrigPeriodFrac_den k s + rdC timTrigPeriodFrac_num k s

/-- Boundary `i` of a periodic trigger: start + i × P, rounded up to 2⁻¹⁶ ns (R459). -/
def trigBoundary (k i : Nat) (s : State) : Nat :=
  let den := max (rdC timTrigPeriodFrac_den k s) 1
  (trigStart k s + (i * trigPeriodDen k s * 65536 + (den - 1)) / den) % timeMod

/-- The number of the first boundary after time `t` (R460, R464). -/
def trigNextIdx (k t : Nat) (s : State) : Nat :=
  let st := trigStart k s
  if atOrAfter t st then
    ((t + timeMod - st) % timeMod) * rdC timTrigPeriodFrac_den k s / max (trigPeriodDen k s * 65536) 1 + 1
  else 0

/-- The width of a pulse of trigger `k` in ns. -/
def trigWidth (k : Nat) (s : State) : Nat := rdC timTrigWidthNs_value k s % 2 ^ 30

/-- A trigger fires (R459): a pulse of its width begins, edges and fired count it, trig_fired is raised; a one-shot is disarmed. -/
def trigFire (k : Nat) (late : Bool) (s : State) : State :=
  let s1 := putTrig k { trig k s with pulse := some (rawAfter (trigWidth k s) s), idx := (trig k s).idx + 1 } s
  let s2 := incX timTrigEdges_edges 0 k (wrC timTrigCtl_fired k 1 s1)
  let s3 := if rdC timTrigCfg_mode k s2 = 1 then wrC timTrigCtl_armed k 0 s2 else s2
  let s4 := raiseC timTrigFired k s3
  if late then raiseC timTrigLate k (wrC timTrigCtl_late k 1 s4) else s4

/-- Whether an arm of trigger `k` is refused (R460). -/
def armRefused (k : Nat) (s : State) : Bool :=
  let den := rdC timTrigPeriodFrac_den k s
  decide (rdC timTrigCtl_armed k s = 1) || decide (rdC timTrigCfg_mode k s = 0) || decide (rdC timTrigCfg_mode k s = 3)
    || decide (trigWidth k s < 8) || decide (den = 0) || decide (den ≤ rdC timTrigPeriodFrac_num k s)
    || (decide (rdC timTrigCfg_mode k s = 2) && decide (trigPeriodDen k s ≤ trigWidth k s * den))

/-- A warm reset is in progress (R67): trigger outputs are low and no trigger fires. -/
def warmBusy (s : State) : Bool := decide (rd rstWarmCtl_busy s = 1)

/-- Trigger `k` may fire: its channel is ON (R457) and no warm reset is in progress. -/
def trigRuns (k : Nat) (s : State) : Bool := chanOn .tim k s && !warmBusy s

/-- Arm trigger `k` (R460). A start whose nanoseconds are no time value is never acted on (R8, R450). -/
def trigArm (k : Nat) (s : State) : State :=
  if 1000000000 ≤ rdC timTrigStartNs_value k s then s
  else if armRefused k s then wrC timTrigCtl_refused k 1 s
  else
    let s1 := wrC timTrigCtl_armed k 1 s
    if rdC timTrigCfg_mode k s1 = 1 then
      let s2 := putTrig k { trig k s1 with idx := 0 } s1
      if atOrAfter (timeNow s2) (trigStart k s2) && trigRuns k s2 then trigFire k true s2 else s2
    else
      let i := if atOrAfter (timeNow s1) (trigStart k s1) then trigNextIdx k (timeNow s1) s1 else 0
      putTrig k { trig k s1 with idx := i } s1

/-- A write of TIM.TRIG_CTL on trigger channel `k`: W1C bits, then arm, then disarm. -/
def trigCtlWrite (k : Nat) (v : Word) (s : State) : State :=
  let s1 := if wordField v 9 1 = 1 then wrC timTrigCtl_fired k 0 s else s
  let s2 := if wordField v 10 1 = 1 then wrC timTrigCtl_late k 0 s1 else s1
  let s3 := if wordField v 11 1 = 1 then wrC timTrigCtl_refused k 0 s2 else s2
  let s4 := if wordField v 0 1 = 1 then trigArm k s3 else s3
  if wordField v 1 1 = 1 then wrC timTrigCtl_armed k 0 s4 else s4

/-- The trigger registers exist on channels 0 to 7 only (chapter 16, TIM registers). -/
def trigWrite (w : Window) (f : Nat → State → State) (s : State) : State :=
  writingC w .tim (fun c s => if c < 8 then f c s else s) s

def execTrigArm (w : Window) (v : Word) (s : State) : Host.Outcome State Fault Refusal :=
  .next (trigWrite w (fun c => trigCtlWrite c (v ||| 1)) s)

def execTrigDisarm (w : Window) (v : Word) (s : State) : Host.Outcome State Fault Refusal :=
  .next (trigWrite w (fun c => trigCtlWrite c (v ||| 2)) s)

/-- An armed trigger whose channel has reached ON while its start or a boundary lies in the past: a one-shot fires at once, late, and a
periodic one begins at its first boundary in the future, as if armed now (R459, R460). -/
def trigOn (k : Nat) (s : State) : State :=
  if rdC timTrigCtl_armed k s = 0 ∨ atOrAfter (timeNow s) (trigStart k s) = false then s
  else if rdC timTrigCfg_mode k s = 1 then (if trigRuns k s then trigFire k true s else s)
  else putTrig k { trig k s with idx := trigNextIdx k (timeNow s) s } s

/-- Whether trigger `k` is due: armed, allowed to fire, and its start or next boundary reached (R457, R459). -/
def trigDue (k : Nat) (s : State) : Bool :=
  decide (rdC timTrigCtl_armed k s = 1) && trigRuns k s &&
    (if rdC timTrigCfg_mode k s = 1 then atOrAfter (timeNow s) (trigStart k s)
     else atOrAfter (timeNow s) (trigBoundary k (trig k s).idx s))

/-- TRIGGER_FIRE (R459). -/
def execTriggerFire (k : Nat) (s : State) : Host.Outcome State Fault Refusal :=
  guarded (decide (k < 8)) (onlyIf (trigDue k s) (trigFire k false) s)

/-- A pulse has lasted its width, measured on the raw count (R454). -/
def pulseOver (p : Option Nat) (s : State) : Bool :=
  match p with
  | some r => rawReached r s
  | none => false

/-- TRIGGER_PULSE_END (R459): the output returns to its idle level. -/
def execTriggerPulseEnd (k : Nat) (s : State) : Host.Outcome State Fault Refusal :=
  guarded (decide (k < 8)) (onlyIf (pulseOver (trig k s).pulse s) (putTrig k { trig k s with pulse := none }) s)

/-- The level of TRIG_OUTk (R459): driven low unless the channel is ON or DRAINING, and in a warm reset (R67); a pulse is inverted by pol. -/
def trigOut (k : Nat) (s : State) : Bool :=
  let st := (tgt ⟨.tim, some k⟩ s).st
  if rdC timTrigCfg_outEn k s = 1 ∧ (st = .on ∨ st = .draining) ∧ warmBusy s = false then
    (trig k s).pulse.isSome != decide (rdC timTrigCfg_pol k s = 1)
  else false

/-! ### Steps (R463, R464) -/

/-- What a step from `old` to `new` does to trigger `k` (R464). -/
def trigStep (old new k : Nat) (s : State) : State :=
  if rdC timTrigCtl_armed k s = 0 then s
  else if rdC timTrigCfg_mode k s = 1 then
    if atOrAfter new (trigStart k s) && !atOrAfter old (trigStart k s) && trigRuns k s then trigFire k true s else s
  else
    let i := trigNextIdx k new s
    let skipped := i - (trig k s).idx
    let s1 := putTrig k { trig k s with idx := i } s
    if atOrAfter new old ∧ 0 < skipped then raiseC timTrigSkipped k (satX timTrigCtl_skipped 0 k skipped s1) else s1

/-- The armed commit time as a signed difference from a time value, after R119: 32 bits of seconds, then nanoseconds. -/
def reachedAt (t : Nat) (armed : Nat × Nat) : Bool :=
  let d := signed 32 ((secOf t % 2 ^ 32) + 2 ^ 32 - armed.1 % 2 ^ 32)
  decide (0 < d) || (decide (d = 0) && decide (armed.2 ≤ nsOf t))

/-- A step forward past an armed commit time sets late (R119). -/
def commitStep (old new : Nat) (b : Block) (s : State) : State :=
  match (commitOf b s).armed with
  | none => s
  | some a => if reachedAt new a && !reachedAt old a then putCommit b { commitOf b s with lateNext := true } s else s

/-- The first whole second plus PPS_OUT offset after a time (R457). -/
def ppsAfter (t : Nat) (s : State) : Nat :=
  let off := signed 32 (cf timPpsOutOffset_offsetNs s)
  let unit : Int := 1000000000 * 65536
  let n := ((t : Int) - off * 65536) / unit + 1
  ((n * unit + off * 65536) % (timeMod : Int)).toNat

/-- What follows a step from time `old` and epoch `ep` to time `new`: time_step is raised, a Touchmark record 0x0005 is written (R463),
and every consumer follows R464. -/
def afterStep (old ep new : Nat) (s : State) : State :=
  let s2 := raise timTimeStep (writeRec 5 1 0x34 (recChan none) (timeBytes old ++ bytesLE 2 ep) s)
  let s3 := foldOver (List.range 8) (trigStep old new) s2
  let s4 := foldOver allBlocks (commitStep old new) s3
  let s5 := gateStep old new s4
  match s5.tim.ppsNext with
  | none => s5
  | some _ => { s5 with tim := { s5.tim with ppsNext := some (ppsAfter new s5) } }

/-- A step of the time base (R463): the epoch rises by one. -/
def stepTime (new0 : Int) (s : State) : State :=
  let new := (new0 % (timeMod : Int)).toNat
  afterStep (timeNow s) s.tim.epoch new { s with tim := { s.tim with
      was := mapNow s.tim, anchorTime := new, anchorRaw := s.tim.raw, epoch := (s.tim.epoch + 1) % 65536 } }

/-- The staged value of a window (TIM.STEP_SEC_LO to STEP_FRAC). -/
def stagedStep (w : Window) (s : State) : Nat :=
  let c := winIdx w
  mkTime (rdC timStepSecLo_value c s + rdC timStepSecHi_value c s * 2 ^ 32) (rdC timStepNs_value c s)
    (rdC timStepFrac_value c s)

/-- A write of TIM.STEP_CTL (R463): mode and neg are stored; go adds or sets the staged value. A staged nanosecond value
above 999,999,999 is not defined and never acted on (R8). -/
def stepCtlWrite (w : Window) (v : Word) (s : State) : State :=
  let c := winIdx w
  let s1 := wrC timStepCtl_mode c (wordField v 1 1) (wrC timStepCtl_neg c (wordField v 2 1) s)
  if wordField v 0 1 = 1 ∧ rdC timStepNs_value c s1 < 1000000000 then
    let d : Int := stagedStep w s1
    if wordField v 1 1 = 1 then stepTime d s1
    else if wordField v 2 1 = 1 then stepTime ((timeNow s1 : Int) - d) s1
    else stepTime ((timeNow s1 : Int) + d) s1
  else s1

def execStepGo (w : Window) (v : Word) (s : State) : Host.Outcome State Fault Refusal :=
  .next (writing w .tim (stepCtlWrite w v) s)

/-! ### Servo (R465 to R467). The integral is kept in 2⁻²⁴ ppb, samples in 2⁻¹⁶ ns. -/

/-- max_ppm × 1000 ppb in units of 2⁻²⁴ ppb. -/
def servoMax (s : State) : Int := (cf timServoLimit_maxPpm s : Int) * 1000 * 2 ^ 24

/-- A rate in 2⁻²⁴ ppb as units of 2⁻⁴⁰ (R451: one ppb is 1,099.5116 units). -/
def ppbToRate (x : Int) : Int := (x * 10995116).tdiv (10000 * 2 ^ 24)

/-- Clear locked; a step that does so raises servo_unlocked (R467). -/
def servoUnlock (s : State) : State :=
  if rd timStatus_locked s = 1 then raise timServoUnlocked (wr timStatus_locked 0 s) else s

/-- The servo takes an accepted sample of `x` units of 2⁻¹⁶ ns (R466). On the backup oscillator the time base stays unlocked (R75). -/
def servoSample (x : Int) (s : State) : State :=
  let ns := clampInt (x / 65536) (-(2 ^ 31)) (2 ^ 31 - 1)
  let s0 := wr timServoStatus_last (unsigned 32 ns) (incX timServoCount_samples 0 0 (wr timStatus_holdover 0 s))
  let mag := if x < 0 then -x else x
  let stepNs := cf timServoStep_stepNs s0
  if stepNs ≠ 0 ∧ ((stepNs : Int) * 65536 ≤ mag ∨ (s0.tim.first ∧ cf timServoCfg_stepFirst s0 = 1)) then
    let s1 := stepTime ((timeNow s0 : Int) - x) (incX timServoCount_steps 0 0 s0)
    servoUnlock { s1 with tim := { s1.tim with first := false, good := 0 } }
  else
    let m := servoMax s0
    let i := clampInt (s0.tim.integral - (cf timServoGain_ki s0 : Int) * x) (-m) m
    let r0 := i - (cf timServoGain_kp s0 : Int) * x
    let r := clampInt r0 (-m) m
    let lock := (cf timServoLock_lockNs s0 : Int) * 65536
    let good := if mag < lock then s0.tim.good + 1 else 0
    let s1 := setRate (ppbToRate r) { s0 with tim := { s0.tim with first := false, integral := i, good := good } }
    let s2 := if r ≠ r0 then raise timRateLimit s1 else s1
    let s3 := if rd timStatus_locked s2 = 0 ∧ rd timStatus_onBackup s2 = 0 ∧ cf timServoLock_lockN s2 ≤ good then raise timServoLocked (wr timStatus_locked 1 s2)
      else s2
    if rd timStatus_locked s3 = 1 ∧ 4 * lock ≤ mag then raise timServoUnlocked (wr timStatus_locked 0 s3) else s3

/-- A write of SERVO_SAMPLE_HI (R465, R466): one sample while the source is 1 and TIM is ON; one measured under another epoch
is refused with sample_stale. -/
def servoSampleWrite (w : Window) (v : Word) (s : State) : State :=
  let c := winIdx w
  let s1 := wrC timServoSampleHi_ns c v.toNat s
  if cf timServoCfg_src s1 = 1 ∧ blockOn .tim s1 then
    if rdC timServoSampleLo_epoch c s1 = s1.tim.epoch then
      servoSample (signed 32 v.toNat * 65536 + rdC timServoSampleLo_fraction c s1) s1
    else raise timSampleStale s1
  else s1

def execServoSample (w : Window) (v : Word) (s : State) : Host.Outcome State Fault Refusal :=
  .next (writing w .tim (servoSampleWrite w v) s)

/-- SERVO_HOLDOVER (R467): the rate becomes I, locked clears, holdover is set and raised. -/
def servoHoldover (s : State) : State :=
  raise timHoldover (wr timStatus_holdover 1 (wr timStatus_locked 0 (setRate (ppbToRate s.tim.integral) s)))

def execServoHoldover (s : State) : Host.Outcome State Fault Refusal :=
  .next (onlyIf (blockOn .tim s && decide (cf timServoCfg_src s ≠ 0) && decide (rd timStatus_holdover s = 0)) servoHoldover s)

/-! ### Reference (R455) -/

/-- TIME_REF_LOST (R455, R75): the time clock moves to scaled REFCLK_SYS; src_live clears, ref_lost. -/
def execTimeRefLost (s : State) : Host.Outcome State Fault Refusal :=
  .next (
    let s1 := wr timStatus_refOk 0 s
    if rd timStatus_srcLive s1 = 1 then
      raise timRefLost (wr timStatus_srcLive 0 { s1 with tim := { s1.tim with refLost := true } })
    else s1)

/-- TIME_REF_RESTORED (R455): ref_restored; the device moves back if revert is 1. -/
def timeRefRestored (s : State) : State :=
  let s1 := wr timStatus_refOk 1 s
  if cf timClkCfg_src s1 = 1 then
    let s2 := raise timRefRestored s1
    if cf timClkCfg_revert s2 = 1 ∨ !s2.tim.refLost then
      wr timStatus_srcLive 1 { s2 with tim := { s2.tim with refLost := false } }
    else s2
  else s1

def execTimeRefRestored (s : State) : Host.Outcome State Fault Refusal :=
  .next (onlyIf (decide (rd timStatus_refOk s = 0)) timeRefRestored s)

/-- REF_RATIO_MEASURE (R455): the ratio kept for holdover, while TIME_REF_IN is in use. -/
def execRefRatioMeasure (ratio : Nat) (s : State) : Host.Outcome State Fault Refusal :=
  .next (onlyIf (decide (rd timStatus_srcLive s = 1)) (fun s => { s with tim := { s.tim with refRatio := ratio } }) s)

/-! ### PPS (R456 to R458) -/

/-- Whether PPS_OUT is held low by quiet_unlocked (R456). -/
def ppsQuiet (s : State) : Bool :=
  decide (cf timPpsOutCfg_quietUnlocked s = 1) &&
    (decide (rd timStatus_onBackup s = 1) || (decide (cf timServoCfg_src s ≠ 0) && decide (rd timStatus_locked s = 0)))

/-- The level of PPS_OUT (R456, R457). -/
def ppsLevel (s : State) : Bool := s.tim.ppsHigh.isSome && !ppsQuiet s

/-- PPS_OUT_RISE (R457): the time base has reached the next whole second plus offset. A pulse of width_us begins. -/
def ppsRise (s : State) : State :=
  let s1 := { s with tim := { s.tim with ppsNext := some (ppsAfter (timeNow s) s) } }
  if ppsQuiet s then s1
  else { s1 with tim := { s1.tim with ppsHigh := some (rawAfter (1000 * cf timPpsOutCfg_widthUs s) s) } }

def execPpsOutRise (s : State) : Host.Outcome State Fault Refusal :=
  .next (match s.tim.ppsNext with
    | some t => onlyIf (blockOn .tim s && atOrAfter (timeNow s) t) ppsRise s
    | none => s)

/-- PPS_OUT_FALL (R457): the pulse has lasted its width. -/
def execPpsOutFall (s : State) : Host.Outcome State Fault Refusal :=
  .next (onlyIf (pulseOver s.tim.ppsHigh s) (fun s => { s with tim := { s.tim with ppsHigh := none } }) s)

/-- Distance of a time from the nearest whole second, signed (R465). -/
def fromSecond (t : Int) : Int :=
  let unit : Int := 1000000000 * 65536
  let r := t % unit
  if unit ≤ 2 * r then r - unit else r

/-- PPS_IN_EDGE (R458): timestamped less the input's internal delay (R602) and delay_ns; ignored less than 500 ms after the last accepted edge. -/
def ppsInEdge (sub : Nat) (s : State) : State :=
  let r := raw8 sub s
  let near : Bool := match s.tim.ppsInRaw with
    | some p => decide ((r - p) * 16 < 50000000000)
    | none => false
  if near then s
  else
    let x : Int := ((timeAtEighth s.tim r : Nat) : Int) - Config.ppsInDelay - signed 32 (cf timPpsInCfg_delayNs s) * 65536
    let t := (x % (timeMod : Int)).toNat
    let s1 := wr timPpsInTsSec_sec (secOf t) (wr timPpsInTsNs_ns (nsOf t) (wr timPpsInTsNs_valid 1
      { s with tim := { s.tim with ppsInRaw := some r, ppsMissing := false } }))
    if cf timServoCfg_src s1 = 2 then servoSample (fromSecond t) s1 else s1

def execPpsInEdge (sub : Nat) (s : State) : Host.Outcome State Fault Refusal :=
  .next (onlyIf (blockOn .tim s) (ppsInEdge sub) s)

/-- No edge was accepted within 1.5 s of the last one (R458). -/
def ppsLate (s : State) : Bool :=
  match s.tim.ppsInRaw with
  | some p => passedSince p 1500000000 s
  | none => false

/-- PPS_IN_MISSING (R458): raised once after the last accepted edge. -/
def execPpsInMissing (s : State) : Host.Outcome State Fault Refusal :=
  .next (onlyIf (blockOn .tim s && ppsLate s && !s.tim.ppsMissing)
    (fun s => raise timPpsInMissing { s with tim := { s.tim with ppsMissing := true } }) s)

/-! ### Captures (R461, R462). Capture k is TIM channel 8 + k. -/

/-- The record of a capture input. -/
def capt (k : Nat) (s : State) : Capt := sget (fun _ => ({} : Capt)) s.tim.capts k

/-- Store the record of a capture input. -/
def putCapt (k : Nat) (x : Capt) (s : State) : State :=
  { s with tim := { s.tim with capts := sset (fun _ => ({} : Capt)) s.tim.capts k x } }

/-- Whether CAPT_CFG edge chooses an edge. -/
def captChooses (mode : Nat) (rising : Bool) : Bool :=
  decide (mode = 3) || (decide (mode = 1) && rising) || (decide (mode = 2) && !rising)

/-- An edge chosen by CAPT_CFG (R461): ignored in dead time, lost on a full FIFO, or recorded. -/
def captRecord (k : Nat) (rising : Bool) (sub : Nat) (s : State) : State :=
  let c := 8 + k
  let x := capt k s
  let r := raw8 sub s
  let dead := rdC timCaptCfg_deadUs c s
  let inDead : Bool := match x.lastRaw with
    | some p => decide (dead ≠ 0) && decide ((r - p) * 16 < dead * 100000)
    | none => false
  if inDead then satX timCaptDead_ignored 0 c 1 s
  else if 64 ≤ x.fifo.length then
    let s1 := satX timCaptStatus_lost 0 c 1 (wrC timCaptStatus_overflow c 1
      (putCapt k { x with gapNext := true, fullRaised := true } s))
    if x.fullRaised then s1 else raiseC timCaptOverflow c s1
  else
    let t := (timeAtEighth s.tim r + timeMod - Config.captureDelay k % timeMod) % timeMod
    raiseC timCaptCaptured c
      (putCapt k { x with fifo := x.fifo ++ [⟨t, s.tim.epoch, !rising, x.gapNext⟩], lastRaw := some r, lastLevel := rising, gapNext := false } s)

/-- The level of a capture input changes, or stays: one that was stuck is released when it leaves its level (R461). -/
def captLevel (k : Nat) (rising : Bool) (sub : Nat) (s : State) : State :=
  let x := capt k s
  let s1 := wrC timCaptStatus_level (8 + k) (b2n rising)
    (putCapt k { x with level := rising, since := if x.level = rising then x.since else raw8 sub s } s)
  if rdC timCaptStatus_stuck (8 + k) s = 1 ∧ rising ≠ x.lastLevel then
    raiseC timCaptReleased (8 + k) (wrC timCaptStatus_stuck (8 + k) 0 s1) else s1

/-- CAPTURE_EDGE (R461): the level follows the input; while the channel is ON a chosen edge is handled. -/
def captureEdge (k : Nat) (rising : Bool) (sub : Nat) (s : State) : State :=
  let s1 := captLevel k rising sub s
  if chanOn .tim (8 + k) s1 && captChooses (rdC timCaptCfg_edge (8 + k) s1) rising then captRecord k rising sub s1 else s1

def execCaptureEdge (k : Nat) (rising : Bool) (sub : Nat) (s : State) : Host.Outcome State Fault Refusal :=
  guarded (decide (k < 4)) (captureEdge k rising sub s)

/-- CAPT_STUCK (R461): in rising or falling mode, the input has stayed for stuck_ms at the level its last recorded edge set. -/
def captStuckDue (k : Nat) (s : State) : Bool :=
  let c := 8 + k
  let x := capt k s
  chanOn .tim c s && (decide (rdC timCaptCfg_edge c s = 1) || decide (rdC timCaptCfg_edge c s = 2))
    && decide (rdC timCaptCfg_stuckMs c s ≠ 0) && x.lastRaw.isSome && (x.level == x.lastLevel)
    && decide (rdC timCaptStatus_stuck c s = 0) && passedSince x.since (1000000 * rdC timCaptCfg_stuckMs c s) s

def execCaptStuck (k : Nat) (s : State) : Host.Outcome State Fault Refusal :=
  guarded (decide (k < 4)) (onlyIf (captStuckDue k s)
    (fun s => raiseC timCaptStuck (8 + k) (wrC timCaptStatus_stuck (8 + k) 1 s)) s)

/-- CAPT_RELEASED (R461): a stuck input leaves its level, with no edge that is to be captured. -/
def execCaptReleased (k : Nat) (s : State) : Host.Outcome State Fault Refusal :=
  guarded (decide (k < 4)) (onlyIf (decide (rdC timCaptStatus_stuck (8 + k) s = 1)) (captLevel k (!(capt k s).lastLevel) 0) s)

/-- CAPT_POP (R462): the oldest entry into the snapshot registers; an empty FIFO gives valid 0. -/
def captPop (w : Window) (s : State) : State :=
  let c := selChan w .tim s
  if c < 8 then putRead w 0 s
  else
    let k := c - 8
    let x := capt k s
    match x.fifo with
    | [] => putRead w (reg timCaptSecLo_value.off c s) (wrC timCaptInfo_value c 0 s)
    | e :: es =>
      let s1 := putCapt k { x with fifo := es, fullRaised := false } s
      putRead w (BitVec.ofNat 32 (secOf e.time))
        (wrC timCaptSecLo_value c (secOf e.time)
          (wrC timCaptSecHi_value c (secOf e.time / 2 ^ 32 % 65536 + e.epoch * 65536)
            (wrC timCaptNs_value c (nsOf e.time)
              (wrC timCaptInfo_value c
                (fracOf e.time + b2n e.falling * 2 ^ 16 + b2n e.gap * 2 ^ 17 + es.length * 2 ^ 24 + 2 ^ 31) s1))))

def execCaptPop (w : Window) (s : State) : Host.Outcome State Fault Refusal := .next (reading w (captPop w) s)

/-! ### Egress timestamp FIFOs (R471) -/

/-- The egress timestamp FIFO of a TSU channel. -/
def txFifo (c : Nat) (s : State) : List TxTs := sget (fun _ => []) s.tim.txts c

/-- Store an egress timestamp FIFO. -/
def putTxFifo (c : Nat) (l : List TxTs) (s : State) : State :=
  { s with tim := { s.tim with txts := sset (fun _ => []) s.tim.txts c l } }

/-- The TSU counters. -/
def tsuCtrs : CtrSet := ⟨tsuCntLo_count.off, tsuCntWrap, true⟩

/-- Add an egress timestamp entry (R471): a full FIFO of 32 drops it, counts and raises ts_lost. -/
def txStamp (c : Nat) (time msgType seqId domain : Nat) (s : State) : State :=
  let l := txFifo c s
  let gap := sget (fun _ => false) s.tim.txGap c
  if 32 ≤ l.length then
    raiseC tsuTsLost c (count tsuCtrs 3 c 1 { s with tim := { s.tim with txGap := sset (fun _ => false) s.tim.txGap c true } })
  else
    raiseC tsuTxTsReady c (count tsuCtrs 2 c 1
      (putTxFifo c (l ++ [⟨time, s.tim.epoch, msgType, seqId, domain, gap⟩])
        { s with tim := { s.tim with txGap := sset (fun _ => false) s.tim.txGap c false } }))

/-- TX_TS_POP (R471): the oldest entry into the snapshot registers. -/
def txTsPop (w : Window) (s : State) : State :=
  let c := selChan w .tsu s
  match txFifo c s with
  | [] => putRead w (reg tsuTxSecLo_value.off c s) (wrC tsuTxInfo_value c 0 s)
  | e :: es =>
    putRead w (BitVec.ofNat 32 (secOf e.time))
      (wrC tsuTxSecLo_value c (secOf e.time)
        (wrC tsuTxSecHi_value c (secOf e.time / 2 ^ 32 % 65536 + e.epoch * 65536)
          (wrC tsuTxNs_value c (nsOf e.time)
            (wrC tsuTxId_value c (e.seqId % 65536 + e.domain % 256 * 65536)
              (wrC tsuTxInfo_value c
                (fracOf e.time + e.msgType % 16 * 2 ^ 16 + b2n e.gap * 2 ^ 20 + es.length * 2 ^ 24 + 2 ^ 31)
                (putTxFifo c es s))))))

def execTxTsPop (w : Window) (s : State) : Host.Outcome State Fault Refusal := .next (reading w (txTsPop w) s)

/-! ### Commits of TIM (R455, R466, R477) -/

/-- The check of a TIM commit (register tables of chapter 16). -/
def timCheck (s : State) : Option Nat :=
  let off := signed 32 (rd timPpsOutOffset_offsetNs s)
  if rd timServoLimit_maxPpm s = 0 ∨ 1000 < rd timServoLimit_maxPpm s ∨ rd timServoLock_lockN s = 0
      ∨ rd timServoLock_timeout100ms s = 0 ∨ rd timPpsOutCfg_widthUs s = 0 ∨ 999999 < rd timPpsOutCfg_widthUs s
      ∨ off < -499999999 ∨ 499999999 < off then some 2
  else none

/-- A new PPS offset moves the next edge within its second (R457), or to the next second where that place has passed. -/
def ppsMoved (old s : State) : State :=
  let d := signed 32 (cf timPpsOutOffset_offsetNs s) - signed 32 (cf timPpsOutOffset_offsetNs old)
  let next (t : Nat) : Nat :=
    let u := (((t : Int) + d * 65536) % (timeMod : Int)).toNat
    if atOrAfter (timeNow s) u then ppsAfter (timeNow s) s else u
  { s with tim := { s.tim with ppsNext := s.tim.ppsNext.map next } }

/-- A rate that a new limit excludes is brought to it (R451). -/
def rateLimited (s : State) : State :=
  if -(maxRate s) ≤ s.tim.rate ∧ s.tim.rate ≤ maxRate s then s else setRate s.tim.rate s

/-- A commit that changes port squelches an output that runs, for at most 1 µs (R477). -/
def synceMoved (old : State) (k : Nat) (s : State) : State :=
  if cfX timSynceCfg_port k 0 old = cfX timSynceCfg_port k 0 s ∨ sget (fun _ => true) s.tim.squelched k = true then s
  else raise timSynceSquelch { s with tim := { s.tim with squelched := sset (fun _ => true) s.tim.squelched k true } }

/-- What a TIM commit does besides moving values: a commit of CLK_CFG chooses the source again (R455), a change of the servo
source sets first (R466). -/
def timCommitted (old : State) (s : State) : State :=
  let live := decide (cf timClkCfg_src s = 1) && decide (rd timStatus_refOk s = 1)
  let s1 := wr timStatus_srcLive (b2n live) { s with tim := { s.tim with refLost := if live then false else s.tim.refLost } }
  let s2 := if cf timServoCfg_src old ≠ cf timServoCfg_src s1 then { s1 with tim := { s1.tim with first := true } } else s1
  refreshSynce (synceMoved old 1 (synceMoved old 0 (rateLimited (ppsMoved old s2))))

end Sys2Proof.Machine
end

