-- ==== Sys2Proof/Machine/Ports.lean ====
section
/-! DEFINITION. Ethernet ports (chapter 07): FEC decoding, faults, link up, flaps, the start check and the commit check. -/

namespace Sys2Proof.Machine

/-- The symbols that the FEC in use corrects: 7 for RS(528,514), 15 for RS(544,514). -/
def fecCorrects (p : Nat) (s : State) : Nat :=
  if rdC prtLinkStatus_fecActive p s = 1 then 7 else if rdC prtLinkStatus_fecActive p s = 2 then 15 else 0

/-- Mark the next `frames` frames that end at port p as bad (R166, assumption log 88). -/
def markFrames (p frames : Nat) (s : State) : State :=
  { s with lanes := { s.lanes with fecBad := smod (fun _ => 0) s.lanes.fecBad p (max frames) } }

/-- Whether the next frame that ends at port p is marked (R166). -/
def fecMarked (p : Nat) (s : State) : Bool := decide (0 < sget (fun _ => 0) s.lanes.fecBad p)

/-- A frame ends at port p, and takes its mark with it. -/
def takeMark (p : Nat) (s : State) : State :=
  { s with lanes := { s.lanes with fecBad := smod (fun _ => 0) s.lanes.fecBad p (· - 1) } }

/-- A link comes up: no frame that is to come has a byte in an earlier codeword; one that is still arriving keeps its mark. -/
def dropMarks (p : Nat) (s : State) : State :=
  let one := b2n (sget (fun _ => ({} : RxPort)) s.rx p).busy
  { s with lanes := { s.lanes with fecBad := smod (fun _ => 0) s.lanes.fecBad p (min one) } }

/-- A codeword that cannot be delivered correct (R166): counted, and every frame with bytes in it marked bad. -/
def fecBad (p frames : Nat) (s : State) : State := raiseC prtFecUncorrected p (portCount 17 p 1 (markFrames p frames s))

/-- FEC_CODEWORD_DECODE (R166): a codeword with `symErrs` symbols in error and bytes of `frames` frames. -/
def fecDecode (p symErrs frames : Nat) (s : State) : State :=
  if symErrs = 0 then s
  else if cfC prtPortCfg_fecMode p s = 0 ∧ symErrs ≤ fecCorrects p s then portCount 18 p symErrs (portCount 16 p 1 s)
  else fecBad p frames s

def execFecCodewordDecode (p : Nat) (word : Codeword) (s : State) : Host.Outcome State Fault Refusal :=
  onLivePort p (decide (rdC prtLinkStatus_fecActive p s ≠ 0)) (fecDecode p word.symErrs word.frames) s

/-- What the PCS lost shows in PRT.LINK_STATUS, as does that nothing is lost any more on a port whose lanes are all in data, and that a
remote fault has ended. -/
def showFault (p : Nat) (k : PcsFault) (s : State) : State :=
  match k with
  | .blockLock => wrC prtLinkStatus_pcsLock p 0 s
  | .alignLock => wrC prtLinkStatus_pcsLock p 0 s
  | .hiBer => wrC prtLinkStatus_hiBer p 1 s
  | .localFault => wrC prtLinkStatus_localFault p 1 s
  | .clear =>
    onlyIf (allIn 6 (portLanes p s) s)
      (fun s => wrC prtLinkStatus_pcsLock p 1 (wrC prtLinkStatus_hiBer p 0 (wrC prtLinkStatus_localFault p 0 s))) s
  | .remoteEnd => wrC prtLinkStatus_remoteFault p 0 s

/-- Whether a report of the PCS is a fault. -/
def isFault : PcsFault → Bool
  | .blockLock | .alignLock | .hiBer | .localFault => true
  | .clear | .remoteEnd => false

/-- PCS_FAULT (R169): a fault while the link is up is raised and counted. Before the link is up, one on lanes in data is raised (R165). -/
def pcsFault (p : Nat) (k : PcsFault) (s : State) : State :=
  let s1 := showFault p k s
  if !isFault k then s1
  else if rdC prtLinkStatus_linkUp p s = 1 then raiseC prtPcsFault p (portCount 21 p 1 s1)
  else if allIn 6 (portLanes p s) s then raiseC prtPcsFault p s1
  else s1

def execPcsFault (p : Nat) (k : PcsFault) (s : State) : Host.Outcome State Fault Refusal := onLivePort p true (pcsFault p k) s

/-- Whether a PCS fault is present. -/
def pcsFaulty (p : Nat) (s : State) : Bool :=
  decide (rdC prtLinkStatus_pcsLock p s = 0 ∨ rdC prtLinkStatus_hiBer p s = 1 ∨ rdC prtLinkStatus_localFault p s = 1)

/-- The conditions of R168 hold on port p, clause 37 autonegotiation being part of its PCS (R161). -/
def linkReady (p : Nat) (s : State) : Bool :=
  allIn 6 (portLanes p s) s && decide (rdC prtLinkStatus_pcsLock p s = 1 ∧ rdC prtLinkStatus_localFault p s = 0
    ∧ rdC prtLinkStatus_remoteFault p s = 0) && (!runsC37 p s || c37Done p s)

/-- LINK_UP_TIMER (R168, R174): all conditions have held for up_ms; the delays of this bring-up are `rxFixed` and
`txFixed`. -/
def linkUp (p rxFixed txFixed : Nat) (s : State) : State :=
  let s1 := wrC prtLinkStatus_speedLive p (cfC prtPortCfg_speed p s) (showFec p (dropMarks p
    (wrC prtTsDelay_rxFixed p rxFixed (wrC prtTsDelay_txFixed p txFixed s))))
  refreshSynce (raiseC prtLinkUp p (wrC prtLinkStatus_linkUp p 1 s1))

def execLinkUpTimer (p rxFixed txFixed : Nat) (s : State) : Host.Outcome State Fault Refusal :=
  onPort p (decide (rdC prtLinkStatus_linkUp p s = 0 ∧ rdC prtLinkStatus_suppressed p s = 0) && linkReady p s)
    (linkUp p rxFixed txFixed) s

/-- REMOTE_FAULT_RECEIVED (R169): a remote fault takes the link down, and the lanes do not restart. Its end, told by PCS_FAULT, lets R168
apply again. -/
def remoteFault (p : Nat) (s : State) : State :=
  let s1 := wrC prtLinkStatus_remoteFault p 1 s
  if rdC prtLinkStatus_linkUp p s = 1 then raiseC prtRemoteFault p (portDown p s1) else s1

/-- FLAP_WINDOW_END (R170). -/
def execFlapWindowEnd (p : Nat) (s : State) : Host.Outcome State Fault Refusal :=
  guarded (decide (p < 256)) (onlyIf (decide (rdC prtLinkStatus_suppressed p s = 0)) (wrC prtLinkStatus_flapCount p 0) s)

/-- PENALTY_END (R170): the PCS no longer sends remote fault. -/
def penaltyEnd (p : Nat) (s : State) : State :=
  emit (.remoteFault p false) (raiseC prtFlapReleased p (wrC prtLinkStatus_suppressed p 0 (wrC prtLinkStatus_flapCount p 0 s)))

def execPenaltyEnd (p : Nat) (s : State) : Host.Outcome State Fault Refusal :=
  guarded (decide (p < 256)) (onlyIf (decide (rdC prtLinkStatus_suppressed p s = 1)) (penaltyEnd p) s)

/-! ### Start check (R181) -/

/-- Whether a lane's live protocol and rate match a port speed (R160). -/
def laneMatches (speed l : Nat) (s : State) : Bool :=
  (decide (cfC lanLaneCfg_protocol l s = 0) && decide (1 ≤ speed ∧ speed ≤ 5))
    || (decide (cfC lanLaneCfg_protocol l s = 1) && decide (cfC lanLaneCfg_rate l s = rateOf speed))

/-- Whether FEC and its mode are allowed (R164). -/
def fecAllowed (p : Nat) (s : State) : Bool :=
  let speed := cfC prtPortCfg_speed p s
  let fec := cfC prtPortCfg_fec p s
  let kind := if speed ≤ 1 then decide (fec = 0) else if speed = 2 then decide (fec ≤ 1)
    else decide (fec = 2) || (decide (fec = 0) && decide (cfC lanLaneCfg_protocol p s = 1))
  kind && !(decide (cfC prtPortCfg_fecMode p s = 1) && decide (fec = 0))

/-- The partner port of a redundancy pair (R175). -/
def pairPort (p : Nat) (s : State) : Nat := 8 * (p / 8) + cfC prtRedCfg_pair p s

/-- Whether channel q is a port (R160): at a multiple of its width, and its lane in no lower-numbered port of its group. -/
def isPort (q : Nat) (s : State) : Bool :=
  decide (q % 8 % widthOf (cfC prtPortCfg_speed q s) = 0) &&
    ((List.range (q % 8)).map (fun i => 8 * (q / 8) + i)).all (fun r =>
      decide ((tgt ⟨.prt, some r⟩ s).st = .off) || !(portLanes r s).contains q)

/-- The state as port q's committed values that wait for it make it (R182). -/
def withComing (q : Nat) (s : State) : State :=
  match s.fab.later.find? (fun e => e.1 == q) with
  | some e => putVals q e.2 s
  | none => s

/-- Whether a redundancy pair is consistent (R175), with the values that a commit has brought the partner. -/
def pairOk (p : Nat) (s0 : State) : Bool :=
  let q := pairPort p s0
  let s := if q = p then s0 else withComing q s0
  decide (cfC prtRedCfg_redMode p s = 0) ||
    decide (isPort q s = true ∧ q ≠ p ∧ pairPort q s = p ∧ cfC prtRedCfg_redMode q s = cfC prtRedCfg_redMode p s
      ∧ cfC prtRedCfg_side q s ≠ cfC prtRedCfg_side p s ∧ cfC prtPortCfg_speed q s = cfC prtPortCfg_speed p s)

/-- Whether port q stands in the way of a start of port p (R181): it is not OFF, and not a higher-numbered one that only waits to start, to
which the lower-numbered port would lose (DEDUCED, assumption log 104). -/
def standsInWay (p q : Nat) (s : State) : Bool :=
  match (tgt ⟨.prt, some q⟩ s).st with
  | .off => false
  | .held => decide (q < p)
  | .starting | .on | .draining | .fault => true

/-- Whether port `p`'s lanes overlap a port of its group that is not OFF (R181). -/
def portOverlaps (p : Nat) (s : State) : Bool :=
  ((List.range 8).map (fun i => 8 * (p / 8) + i)).any (fun q =>
    decide (q ≠ p) && standsInWay p q s && (portLanes q s).any (fun l => (portLanes p s).contains l))

/-- The start check of a port (R181): its fault code, if it fails. -/
def prtStartCheck (p : Nat) (s : State) : Option Nat :=
  let w := widthOf (cfC prtPortCfg_speed p s)
  if p % 8 % w ≠ 0 then some 0x10
  else if portOverlaps p s then some 0x11
  else if !(portLanes p s).all (fun l => laneMatches (cfC prtPortCfg_speed p s) l s) then some 0x12
  else if !fecAllowed p s then some 0x13
  else if !pairOk p s then some 0x14
  else none

/-- A port enters STARTING (R180): PCS and MAC are set up, and its lanes are released to their link sequence. The FEC of a port without
autonegotiation is in use from here, and a port still suppressed sends remote fault (R165, R170). -/
def prtStarting (p : Nat) (s : State) : State :=
  let s1 := if cfC lanLaneCfg_protocol p s = 0 then s else showFec p s
  startLanes (portLanes p s) (onlyIf (decide (rdC prtLinkStatus_suppressed p s = 1)) (emit (.remoteFault p true)) s1)

/-- A port has left the link (R180): its status and its lanes go back. -/
def prtStopped (p : Nat) (s : State) : State :=
  let cleared := wrC prtLinkStatus_linkUp p 0 (wrC prtLinkStatus_pcsLock p 0 (wrC prtLinkStatus_localFault p 0
    (wrC prtLinkStatus_remoteFault p 0 (wrC prtLinkStatus_hiBer p 0 (wrC prtLinkStatus_fecActive p 0 s)))))
  startLanes (portLanes p s) cleared

/-- The check of a PRT commit (R182, PRT.DEBOUNCE). -/
def prtCheck (s : State) : Option Nat :=
  let ok := (listedCopies .prt s.fab.regs).all (fun p =>
    decide (rdC prtPortCfg_speed p s ≠ 7 ∧ rdC prtPortCfg_fec p s ≠ 3 ∧ rdC prtRedCfg_redMode p s ≠ 3
      ∧ 64 ≤ rdC prtPortCfg_maxFrame p s ∧ rdC prtPortCfg_maxFrame p s ≤ 9216 ∧ rdC prtDebounce_upMs p s ≠ 0
      ∧ rdC prtDebounce_down100us p s ≠ 0 ∧ rdC prtDebounce_flapWindow p s ≠ 0 ∧ rdC prtDebounce_penaltyS p s ≠ 0
      ∧ rdC (modeFld .prt) p s = 0))
  if ok then none else some 2

/-- Whether a commit changed what makes a port drain and start again (R182). -/
def portRestartChange (p : Nat) (old new : State) : Bool :=
  decide (cfC prtPortCfg_speed p old ≠ cfC prtPortCfg_speed p new ∨ cfC prtPortCfg_fec p old ≠ cfC prtPortCfg_fec p new
    ∨ cfC prtPortCfg_fecMode p old ≠ cfC prtPortCfg_fecMode p new ∨ cfC prtPortCfg_c37An p old ≠ cfC prtPortCfg_c37An p new
    ∨ liveReg prtRedCfg_redMode.off p old ≠ liveReg prtRedCfg_redMode.off p new)

/-- The ports that a commit makes drain and start again. -/
def portsToRestart (old new : State) : List Nat :=
  (List.range 256).filter (fun p => chanRuns .prt p new && portRestartChange p old new)

end Sys2Proof.Machine
end

