-- ==== Sys2Proof/Machine/Gates.lean ====
section
/-! DEFINITION. Transmission selection (R442, R443), shapers (R430, R431) and the TMG block's commits (R441, R447). -/

namespace Sys2Proof.Machine

/-- The rate of a port in Gbit/s (R160). -/
def portGbit (p : Nat) (s : State) : Nat :=
  let x := cfC prtPortCfg_speed p s
  if x = 0 then 1 else if x = 1 then 10 else if x = 2 then 25 else if x = 3 then 50
  else if x = 4 then 100 else if x = 5 then 200 else 400

/-! ### Transmission selection (R442, R443) -/

/-- The maximum SDU of an egress queue of a port (R442). -/
def maxSdu (d c : Nat) (s : State) : Nat :=
  let m := cfC tmgMaxSdu_maxSdu (8 * d + c) s
  if m = 0 then cfC prtPortCfg_maxFrame d s else m

/-- r of R425: 6 bytes for a port with red_mode 1 or 2. -/
def redBytes (d : Nat) (s : State) : Nat :=
  if d < 256 ∧ (cfC prtRedCfg_redMode d s = 1 ∨ cfC prtRedCfg_redMode d s = 2) then 6 else 0

/-- Transmission time in 2⁻¹⁶ ns of a frame of L bytes (R443), rounded up. -/
def txTime (d len : Nat) (s : State) : Nat :=
  let g := portGbit d s
  ((len + 8 + redBytes d s) * 8 * 65536 + g - 1) / g

/-- pipe_ns of R443. -/
def pipeNs (d : Nat) (s : State) : Nat :=
  45 + (if fecInUse d s = 0 then 0 else 20) + rdC prtTsDelay_txFixed d s * 4 / 25

/-- Whether a frame of L bytes of class c fits (R443), with the estimated end of what the port already holds. -/
def fits (d c len busy : Nat) (s : State) : Bool :=
  if !gateEn d s then true
  else
    let ts := max (timeNow s + pipeNs d s * 65536) busy
    openThrough d c ts (ts + txTime d len s + cfC tmgDestCfg_guardNs d s * 65536) s

/-! ### Shapers (R430, R431) -/

/-- The rate and burst in effect of a shaper: c = 8 is the port shaper. -/
def shaperRate (d c : Nat) (s : State) : Nat := if c = 8 then cfC tmgPortRate_rate d s else cfC tmgClassRate_rate (8 * d + c) s
def shaperBurst (d c : Nat) (s : State) : Nat := if c = 8 then cfC tmgPortBurst_burst d s else cfC tmgClassBurst_burst (8 * d + c) s

/-- The tokens of a shaper now, in 2⁻¹⁶ byte; 0 when it does not shape. -/
def shaperTokens (d c : Nat) (s : State) : Int :=
  let r := shaperRate d c s
  if r = 0 then 0
  else
    let b := sget (fun _ => ({} : Bucket)) s.egr.shapers (9 * d + c)
    min (b.tok + gainOf r (s.tim.raw - b.raw)) (burstUnits (shaperBurst d c s))

/-- Set a shaper's tokens as of now. -/
def putTokens (d c : Nat) (t : Int) (s : State) : State :=
  { s with egr := { s.egr with shapers := sset (fun _ => ({} : Bucket)) s.egr.shapers (9 * d + c) ⟨t, s.tim.raw⟩ } }

/-- Charge a frame of charged length L_c to a shaper. -/
def chargeShaper (d c lc : Nat) (s : State) : State :=
  if shaperRate d c s = 0 then s else putTokens d c (shaperTokens d c s - burstUnits lc) s

/-- Every shaper of a destination full (R447). -/
def fillShapers (d : Nat) (s : State) : State :=
  foldOver (List.range 9) (fun c a => if shaperRate d c a = 0 then a else putTokens d c (burstUnits (shaperBurst d c a)) a) s

/-- The charged length of R425. -/
def chargedLen (d len : Nat) (s : State) : Nat :=
  (max (((len + redBytes d s : Nat) : Int) + signed 8 (cfC tmgDestCfg_ovh d s)) 1).toNat

/-! ### Commits of TMG -/

/-- The shadow list header that an arm takes. -/
def shadowList (d : Nat) (s : State) : GateList :=
  { base := mkTime (rdC tmgGateBaseSecLo_value d s + rdC tmgGateBaseSecHi_value d s * 2 ^ 32) (rdC tmgGateBaseNs_value d s) 0
    cycle := rdC tmgGateCycle_value d s
    ext := rdC tmgGateExt_value d s
    count := rdC tmgGateCount_value d s }

/-- The lengths of a list's entries within one cycle, with their gate bytes. -/
def cutEntries (d l : Nat) (s : State) (cycle : Nat) : Nat → Nat → Nat → List (Nat × Nat)
  | 0, _, _ => []
  | n + 1, i, start =>
    let e := gclEntry d l i s
    let stop := if n = 0 then cycle else min (start + e.1) cycle
    (stop - start, e.2) :: cutEntries d l s cycle n (i + 1) stop

/-- The longest run of consecutive open time of class c through a list of segments; one cut to no length breaks no run. -/
def longestOpen (c : Nat) (segs : List (Nat × Nat)) : Nat :=
  (segs.foldl (fun (a : Nat × Nat) e =>
    let run := if bit e.2 c then a.1 + e.1 else if e.1 = 0 then a.1 else 0
    (run, max a.2 run)) (0, 0)).2

/-- The refusals of R441 for one port whose shadow arms a list. -/
def armRefusal (d : Nat) (s : State) : Option Nat :=
  let g := shadowList d s
  let l := rdC tmgGateCtl_adminList d s
  let segs := cutEntries d l s g.cycle g.count 0 0
  let badClass (c : Nat) : Bool :=
    segs.any (fun e => bit e.2 c) && !segs.all (fun e => bit e.2 c || decide (e.1 = 0))
      && decide (longestOpen c (segs ++ segs) * 65536
          < txTime d (let m := rdC tmgMaxSdu_maxSdu (8 * d + c) s; if m = 0 then cfC prtPortCfg_maxFrame d s else m) s
            + rdC tmgDestCfg_guardNs d s * 65536)
  if rdC tmgGateStatus_pending d s = 1 then some 1
  else if operList d s = some l ∨ g.count = 0 ∨ 256 < g.count ∨ g.cycle < 1000 ∨ 1000000000 < g.cycle ∨ g.cycle < g.ext
    ∨ 1000000000 ≤ rdC tmgGateBaseNs_value d s then some 2
  else if (List.range g.count).any (fun i => decide ((gclEntry d l i s).1 < 16 ∨ 1000000000 < (gclEntry d l i s).1)) then some 2
  else if rdC tmgGateCtl_gateEn d s = 0 then some 2
  else if (List.range 8).any badClass then some 2
  else none

/-- The check of a TMG commit (R440, R441, R447). -/
def tmgCheck (s : State) : Option Nat :=
  let m := s.fab.regs
  let ctl := copiesAt tmgGateCtl_gateEn.off m
  let armed := ctl.filter (fun d => decide (rdC tmgGateCtl_arm d s = 1))
  let weights := (copiesAt tmgWeightLo_w0.off m).any (fun d =>
      (List.range 4).any (fun k => decide (wordField (reg tmgWeightLo_w0.off d s) (8 * k) 8 = 0)))
    || (copiesAt tmgWeightHi_w4.off m).any (fun d => decide (rdC tmgWeightHi_w4 d s = 0))
  let ports := (copiesAt tmgPortRate_rate.off m).any (fun d => !rateBurstOk (rdC tmgPortRate_rate d s) (rdC tmgPortBurst_burst d s))
  let classes := (copiesAt tmgClassRate_rate.off m).any
    (fun k => !rateBurstOk (rdC tmgClassRate_rate k s) (rdC tmgClassBurst_burst k s))
  let sdus := (copiesAt tmgMaxSdu_maxSdu.off m).any (fun k => !maxSduOk (rdC tmgMaxSdu_maxSdu k s))
  if armed.any (fun d => armRefusal d s == some 1) then some 1
  else if weights || ports || classes || sdus then some 2
  else if ctl.any (fun d => decide (256 ≤ d ∧ (rdC tmgGateCtl_gateEn d s = 1 ∨ rdC tmgGateCtl_arm d s = 1))) then some 2
  else if armed.any (fun d => (armRefusal d s).isSome) then some 2
  else none

/-- The first start of a cycle after t (R438). -/
def nextCycle (g : GateList) (t : Nat) : Nat := t + g.cycle * 65536 - cycleOff g t

/-- Arm the takeover of one port (R438). -/
def armTakeover (d : Nat) (s : State) : State :=
  let l := rdC tmgGateCtl_adminList d s
  let g := shadowList d s
  let now := timeNow s
  let T := if atOrAfter g.base now then g.base else nextCycle g now
  let s1 := wrC tmgGateCtl_arm d 0 (putList d l g s)
  let live := wordWith (liveReg tmgGateCtl_arm.off d s1) tmgGateCtl_arm.lo 1 0
  let s2 := { s1 with
    fab := { s1.fab with live := sset regReset s1.fab.live (rkey tmgGateCtl_arm.off d) live }
    egr := { s1.egr with takeover := sset (fun _ => 0) s1.egr.takeover d T } }
  wrC tmgGateStatus_pending d 1 (wrC tmgGateStatus_pendingList d l
    (wrC tmgGateTakeoverSec_value d (secOf T) (wrC tmgGateTakeoverNs_value d (nsOf T) s2)))

/-- gate_en 0 opens every gate, stops the operating list and cancels a pending takeover (R437). -/
def gatesOff (d : Nat) (old s : State) : State :=
  showGates d (wrC tmgGateStatus_operValid d 0 (wrC tmgGateStatus_pending d 0 (keepGates d (timeNow s) (timeNow s) old s)))

/-- What a TMG commit brings (R431, R437, R438): `old` is the state before it, `s` the state with the new values in effect. -/
def tmgCommitted (old s : State) : State :=
  let fill (d c : Nat) (a : State) : State :=
    if shaperRate d c a = shaperRate d c old ∧ shaperBurst d c a = shaperBurst d c old then a
    else putTokens d c (if rd tmgShapeFill_fill a = 1 then 0 else burstUnits (shaperBurst d c a)) a
  let both (f : Fld) : List Nat := (copiesAt f.off s.fab.live ++ copiesAt f.off old.fab.live).eraseDups
  let s1 := foldOver (both tmgPortRate_rate ++ both tmgPortBurst_burst).eraseDups (fun d a => fill d 8 a) s
  let s2 := foldOver (both tmgClassRate_rate ++ both tmgClassBurst_burst).eraseDups (fun k a => fill (k / 8) (k % 8) a) s1
  let s3 := foldOver (both tmgGateCtl_gateEn) (fun d a => if gateEn d old && !gateEn d a then gatesOff d old a else a) s2
  foldOver (copiesAt tmgGateCtl_arm.off s3.fab.live) (fun d a =>
    if cfC tmgGateCtl_arm d a = 1 ∧ d < 256 then showGates d (armTakeover d a) else a) s3

/-- Per-block reset of a TMG channel clears both of its gate lists (R447). -/
def clearGates (d : Nat) (s : State) : State :=
  { s with egr := { s.egr with
      gcl := sfilter (fun k => k / 512 != d) s.egr.gcl
      lists := sfilter (fun k => k / 2 != d) s.egr.lists
      takeover := sdel s.egr.takeover d } }

end Sys2Proof.Machine
end

