-- ==== Sys2Proof/Machine/Buffers.lean ====
section
/-! DEFINITION. The buffer pool manager (R412 to R423): pools, requesters and quotas, allocation and free, buffer content. -/

namespace Sys2Proof.Machine

/-- Buffer size of pool p (R412). -/
def poolSize (p : Nat) : Nat := if p = 0 then 256 else if p = 1 then 64 else if p = 2 then 512 else if p = 3 then 2048 else 16384

/-- Buffer count of pool p (R412). -/
def poolCount (p : Nat) : Nat :=
  if p = 0 then 393216 else if p = 1 then 262144 else if p = 2 then 16384 else if p = 3 then 4096 else 512

/-- Base of pool p in the management cores' map (R419). -/
def poolBase (p : Nat) : Nat :=
  if p = 0 then 0x60000000 else if p = 1 then 0x66000000 else if p = 2 then 0x67000000
  else if p = 3 then 0x67800000 else 0x68000000

/-- The pools in size order (R412). -/
def sizeOrder : List Nat := [1, 0, 2, 3, 4]

/-- The key of a buffer in the owner store. -/
def bufKey (p i : Nat) : Nat := p * 2 ^ 19 + i

/-- The owner mark of a retired buffer (R521). -/
def retiredMark : Nat := 255

/-- The owner store of the pools: 0 free, requester + 1, or retired. -/
def bufOwner (p i : Nat) (s : State) : Nat := sget (fun _ => 0) s.pools.owner (bufKey p i)

/-- Store a buffer's owner. -/
def putOwnerOf (p i v : Nat) (s : State) : State :=
  { s with pools := { s.pools with owner := sset (fun _ => 0) s.pools.owner (bufKey p i) v } }

/-- The lowest index not listed in a rising list of keys, from `i` on. -/
def firstGap : Nat → Sparse Nat → Nat
  | i, [] => i
  | i, (k, _) :: l => if k < i then firstGap i l else if k = i then firstGap (i + 1) l else i

/-- The lowest free buffer of a pool (DESIGN CHOICE: which free buffer is taken is open). -/
def firstFree (p : Nat) (s : State) : Option Nat :=
  let i := firstGap (bufKey p 0) s.pools.owner - bufKey p 0
  if i < poolCount p then some i else none

/-- Buffers of pool p that are not free, retired ones among them. -/
def poolTaken (p : Nat) (s : State) : Nat := (s.pools.owner.filter (fun e => e.1 / 2 ^ 19 == p)).length

/-- Buffers of pool p taken out of it (R521). -/
def poolRetired (p : Nat) (s : State) : Nat :=
  (s.pools.owner.filter (fun e => e.1 / 2 ^ 19 == p && e.2 == retiredMark)).length

/-- Buffers that a requester holds in a pool (R415). -/
def usedOf (r p : Nat) (s : State) : Nat := rdX bpmReqUsed_count p r s

/-- The shared free count F of a pool (R415). -/
def sharedFree (p : Nat) (s : State) : Int :=
  (List.range 64).foldl
    (fun a r => a - (cfX bpmReqReserve_count p r s : Int)
      - ((usedOf r p s - cfX bpmReqReserve_count p r s : Nat) : Int))
    ((poolCount p : Int) - poolRetired p s)

/-- Raise pool_low when F falls below its level (R423). -/
def poolLowCheck (p : Nat) (before : Int) (s : State) : State :=
  let level : Int := rdX bpmLowWater_level p 0 s
  if level ≠ 0 ∧ level ≤ before ∧ sharedFree p s < level then raise (bpmPoolLow p) s else s

/-- Notice the shared free count passing the guard (R394). -/
def guardCheck (s : State) : State :=
  let low := decide (sharedFree 0 s < (cf swcGuard_guard s : Int))
  let t := { s with sw := { s.sw with guardLow := low } }
  if low && !s.sw.guardLow then raise swcGuardActive t else t

/-- What a change of pool p's free buffers brings: pool_low (R423), and guard_active for P0 (R394). -/
def noteShared (p : Nat) (before : Int) (s : State) : State :=
  let t := poolLowCheck p before s
  if p = 0 then guardCheck t else t

def bpmCtrs : CtrSet := ⟨bpmCntLo_count.off, bpmCntWrap, false⟩

/-- Whether R415 grants requester r a buffer of pool p. -/
def grants (r p : Nat) (s : State) : Bool :=
  decide (usedOf r p s < cfX bpmReqReserve_count p r s)
    || (decide (usedOf r p s < cfX bpmReqCap_count p r s) && decide (0 < sharedFree p s))

/-- The arbiter of pool p has served requester r at its priority (R416): the pointer that the next round robin starts one beyond. -/
def notePointer (r p : Nat) (s : State) : State :=
  { s with pools := { s.pools with lastServed := sset (fun _ => 0) s.pools.lastServed (4 * p + cfC bpmReqCfg_priority r s) r } }

/-- Take a buffer of pool p for requester r (R415); none is the refusal of that pool. Either way the requester has been served. -/
def takeFrom (r p : Nat) (s : State) : Option Nat × State :=
  match (if grants r p s then firstFree p s else none) with
  | none => (none, notePointer r p s)
  | some i =>
    (some i, noteShared p (sharedFree p s)
      (count bpmCtrs 0 0 1 (wrX bpmReqUsed_count p r (usedOf r p s + 1) (notePointer r p (putOwnerOf p i (r + 1) s)))))

/-- An empty response (R415): REQ_EMPTY, counter 1, and alloc_empty for a software requester. -/
def emptyResponse (r : Nat) (s : State) : State :=
  let t := count bpmCtrs 1 0 1 (satX bpmReqEmpty_count 0 r 1 s)
  if 36 ≤ r then raise bpmAllocEmpty t else t

/-- Serve a request from the first of these pools that grants it (R414): the pool and buffer, none where every one refuses. `fell` says
that fall_up was counted. -/
def takeFirst (r : Nat) : List Nat → Bool → State → Option (Nat × Nat) × State
  | [], _, s => (none, s)
  | p :: ps, fell, s =>
    match takeFrom r p s with
    | (some i, t) => (some (p, i), t)
    | (none, t) =>
      if cfC bpmReqCfg_fallUp r s = 1 ∧ 36 ≤ r ∧ ps ≠ [] then
        takeFirst r ps true (if fell then t else count bpmCtrs 5 0 1 t)
      else (none, t)

/-- retire_limit: 256 buffers of the pool have been retired, which is raised once (R521). -/
def retireLimit (p : Nat) (s : State) : State :=
  if s.recov.limited.testBit p then s
  else raise scrRetireLimit { s with recov := { s.recov with limited := setBit s.recov.limited p } }

/-- Retire a buffer that is free (R521); beyond 256 of its pool it stays in use. -/
def retireBuffer (p i : Nat) (s : State) : State :=
  let t := { s with pools := { s.pools with retireNext := s.pools.retireNext.filter (· != bufKey p i) } }
  if rdX scrRetired_count p 0 s < 256 then
    raise scrBufferRetired (wrX scrRetired_count p 0 (rdX scrRetired_count p 0 s + 1) (putOwnerOf p i retiredMark t))
  else retireLimit p t

/-- The buffers that wait to be retired and are free are retired (R521). -/
def retireFreed (s : State) : State :=
  foldOver (s.pools.retireNext.filter (fun k => decide (bufOwner (k / 2 ^ 19) (k % 2 ^ 19) s = 0)))
    (fun k a => retireBuffer (k / 2 ^ 19) (k % 2 ^ 19) a) s

/-- Return a buffer to its pool on the account of the requester that holds it. -/
def giveBack (p i r : Nat) (s : State) : State :=
  let t := wrX bpmReqUsed_count p r (usedOf r p s - 1) (putOwnerOf p i 0 s)
  noteShared p (sharedFree p s) (if s.pools.retireNext.contains (bufKey p i) then retireBuffer p i t else t)

/-! ### Cells of frames (R388, R397) -/

/-- Take P0 cells for requester r one at a time, up to `n` and to the first refusal (R388). -/
def takeSome (r : Nat) : Nat → State → List Nat × State
  | 0, s => ([], s)
  | n + 1, s =>
    match takeFrom r 0 s with
    | (none, t) => ([], t)
    | (some i, t) =>
      let x := takeSome r n t
      (i :: x.1, x.2)

/-- Free P0 cells on requester r's account (R417). -/
def giveCells (r : Nat) (is : List Nat) (s : State) : State := foldOver is (fun i a => giveBack 0 i r a) s

/-- Take `n` P0 cells for requester r; on a refusal those taken are freed again (R397). -/
def takeCells (r n : Nat) (s : State) : Option (List Nat) × State :=
  let x := takeSome r n s
  if x.1.length = n then (some x.1, x.2) else (none, giveCells r x.1 x.2)

/-- The P0 cells that a frame of L bytes takes (R388). -/
def cellsFor (len : Nat) : Nat := (len + 239) / 240

/-! ### Software allocation and free (R418) -/

/-- The window code of REQ_CFG: 1 window H, 2 window B; Hallmark's private path acts as window B. -/
def reqWindow : Window → Nat
  | .h => 1
  | .b => 2
  | .hm _ _ => 2

/-- The allocation that a write of BPM.ALLOC asks for (R414, R418). -/
def bpmAlloc (w : Window) (s : State) : State :=
  let c := winIdx w
  let size := rdC bpmAlloc_size c s
  let r := rdC bpmAlloc_requester c s
  let answer (h res : Nat) (t : State) : State := wrC bpmAllocResult_handle c h (wrC bpmAllocStatus_result c res t)
  if size = 0 ∨ 16384 < size then answer 0xFFFFFFFF 3 s
  else if cfC bpmReqCfg_window r s ≠ reqWindow w then answer 0xFFFFFFFF 2 s
  else
    let from_ := sizeOrder.filter (fun p => decide (size ≤ poolSize p))
    match (if blockOn .bpm s then takeFirst r from_ false s else (none, s)) with
    | (some (p, i), t) => answer (bufKey p i) 0 t
    | (none, t) => answer 0xFFFFFFFF 1 (emptyResponse r t)

/-- BPM_ALLOC: a write of BPM.ALLOC. -/
def allocWrite (w : Window) (v : Word) (s : State) : State :=
  let c := winIdx w
  let t := wrC bpmAlloc_size c (wordField v 0 15) (wrC bpmAlloc_requester c (wordField v 16 6) s)
  if bit v.toNat 31 then bpmAlloc w t else t

def execBpmAlloc (w : Window) (v : Word) (s : State) : Host.Outcome State Fault Refusal :=
  .next (writing w .bpm (allocWrite w v) s)

/-- Log a refused free (R417). -/
def rejectLog (w : Window) (handle r kind : Nat) (s : State) : State :=
  if rd bpmRejectLog_valid s = 1 then s
  else wr bpmRejectLog_valid 1 (wr bpmRejectLog_handle handle (wr bpmRejectLog_requester r
    (wr bpmRejectLog_kind kind (wr bpmRejectLog_window (logWindow w) s))))

/-- What a software free answers (R417): 0 freed, 1 double free, 2 foreign, 3 bad handle. -/
def freeResult (w : Window) (handle r : Nat) (s : State) : Nat :=
  let p := bitsOf handle 19 3
  let i := bitsOf handle 0 19
  if 2 ^ 22 ≤ handle ∨ 4 < p ∨ poolCount p ≤ i then 3
  else if cfC bpmReqCfg_window r s ≠ reqWindow w then 2
  else if bufOwner p i s = 0 ∨ bufOwner p i s = retiredMark then 1
  else if bufOwner p i s ≠ r + 1 then 2 else 0

/-- BPM_FREE: a write of BPM.FREE_HANDLE (R417, R418). -/
def freeWrite (w : Window) (v : Word) (s : State) : State :=
  let c := winIdx w
  let r := rdC bpmFreeReq_requester c s
  let res := freeResult w v.toNat r s
  let t := wrC bpmFreeStatus_result c res s
  if res = 0 then giveBack (bitsOf v.toNat 19 3) (bitsOf v.toNat 0 19) r t
  else
    let u := rejectLog w (v.toNat % 2 ^ 22) r res (count bpmCtrs (1 + res) 0 1 t)
    if res = 1 then raise bpmDoubleFree u else if res = 2 then raise bpmForeignFree u else raise bpmBadHandle u

def execBpmFree (w : Window) (v : Word) (s : State) : Host.Outcome State Fault Refusal :=
  .next (writing w .bpm (freeWrite w v) s)

/-! ### Buffer content (R419) -/

/-- The buffer that BUF_SEL names, if its owner is bound to the window: its first byte's address and its size. -/
def boundBuffer (w : Window) (s : State) : Option (Nat × Nat) :=
  let h := (reg bpmBufSel_handle.off (winIdx w) s).toNat
  let p := bitsOf h 19 3
  let i := bitsOf h 0 19
  let o := bufOwner p i s
  if 2 ^ 22 ≤ h ∨ 4 < p ∨ poolCount p ≤ i ∨ o = 0 ∨ o = retiredMark then none
  else if cfC bpmReqCfg_window (o - 1) s = reqWindow w then some (poolBase p + i * poolSize p, poolSize p) else none

/-- Step BUF_OFFSET after an access. -/
def bufStep (c : Nat) (s : State) : State :=
  if rdC bpmBufOffset_autoInc c s = 1 then wrC bpmBufOffset_offset c (rdC bpmBufOffset_offset c s + 4) s else s

/-- BUF_DATA_ACCESS: a read or write of BPM.BUF_DATA (R419). An offset beyond the buffer reads zero and ignores a write. -/
def bufAccess (w : Window) (write : Bool) (v : Word) (s : State) : State :=
  let c := winIdx w
  let off := rdC bpmBufOffset_offset c s / 4 * 4
  let read (x : Nat) (t : State) : State := if write then t else putRead w (BitVec.ofNat 32 x) t
  match boundBuffer w s with
  | none => bufStep c (read 0 (count bpmCtrs 3 0 1 s))
  | some (a, size) =>
    if size ≤ off then bufStep c (read 0 s)
    else if write then
      bufStep c { s with pools := { s.pools with content := memWrite s.pools.content (a + off) (bytesLE 4 v.toNat) } }
    else bufStep c (read (leNat (memRead s.pools.content (a + off) 4)) s)

def execBufDataAccess (w : Window) (write : Bool) (v : Word) (s : State) : Host.Outcome State Fault Refusal :=
  .next ((if write then writing w .bpm (bufAccess w true v) else reading w (bufAccess w false v)) s)

/-! ### BPM in the common state machine -/

/-- The commit checks of R420. -/
def bpmCheck (s : State) : Option Nat :=
  let rs := List.range 64
  let ps := List.range 5
  if ps.any (fun p => decide (poolCount p < rs.foldl (fun a r => a + rdX bpmReqReserve_count p r s) 0)) then some 3
  else if rs.any (fun r => ps.any (fun p => decide (rdX bpmReqCap_count p r s < rdX bpmReqReserve_count p r s))) then some 2
  else if rs.any (fun r => decide (rdC bpmReqCfg_window r s = 3)) then some 2
  else if rs.any (fun r => decide (r < 36) && ps.any (fun p => decide (p ≠ 0) &&
      decide (rdX bpmReqReserve_count p r s ≠ 0 ∨ rdX bpmReqCap_count p r s ≠ 0))) then some 2
  else none

/-- BPM STARTING (R421): every free list is built and every used count 0; retired buffers stay out (R521). -/
def bpmStarting (s : State) : State :=
  retireFreed (foldOver (List.range 64) (fun r a => foldOver (List.range 5) (fun p b => wrX bpmReqUsed_count p r 0 b) a)
    { s with pools := { s.pools with owner := s.pools.owner.filter (fun e => e.2 == retiredMark) } })

/-- The drain of BPM is complete (R421): no requester 0 to 35 holds a buffer. -/
def bpmDrained (s : State) : Bool := (List.range 36).all (fun r => decide (usedOf r 0 s = 0))

/-- A forced drain of BPM frees every buffer of requesters 0 to 35 (R421). -/
def bpmForced (s : State) : State :=
  retireFreed (foldOver (List.range 36) (fun r a => wrX bpmReqUsed_count 0 r 0 a)
    { s with pools := { s.pools with owner := s.pools.owner.filter (fun e => decide (36 < e.2)) } })

/-- A commit of reserves makes F fall like an allocation does (R394, R423). -/
def bpmCommitted (old s : State) : State := foldOver (List.range 5) (fun p a => noteShared p (sharedFree p old) a) s

/-- BPM.POOL_FREE and POOL_SHARED as reads see them (R412, R415). -/
def poolView (off : Nat) (s : State) : Option Nat :=
  if 0x2C080 ≤ off ∧ off < 0x2C094 then
    let p := (off - 0x2C080) / 4
    some (poolCount p - poolTaken p s)
  else if 0x2C0A0 ≤ off ∧ off < 0x2C0B4 then some (sharedFree ((off - 0x2C0A0) / 4) s).toNat
  else none

end Sys2Proof.Machine
end

