-- ==== Sys2Proof/Machine/Versions.lean ====
section
/-! DEFINITION. Rule versions (R201 to R213): the two halves of the classifier memory, staging, the commit checks, the switch to a
new version, in-flight counts, draining and freeing. -/

namespace Sys2Proof.Machine

/-- The current version's number (R206). -/
def curVersion (s : State) : Nat := rd clsVersion_current s

/-- Version current − 1 is live (R206). -/
def draining (s : State) : Bool := decide (rd clsVersionState_draining s = 1)

/-- Half h of the classifier memory. -/
def half (h : Nat) (s : State) : Half := if h % 2 = 0 then s.ver.half0 else s.ver.half1

/-- Store a half. -/
def putHalf (h : Nat) (x : Half) (s : State) : State :=
  if h % 2 = 0 then { s with ver := { s.ver with half0 := x } } else { s with ver := { s.ver with half1 := x } }

/-- The staging half: the one the current version does not live in (R206, R212). -/
def stagingIdx (s : State) : Nat := curVersion s + 1

/-- The staging half's content. -/
def staging (s : State) : Half := half (stagingIdx s) s

/-- Whether version v is live (R206). -/
def versionLive (v : Nat) (s : State) : Bool :=
  decide (v ≠ 0) && (decide (v = curVersion s) || (draining s && decide (v + 1 = curVersion s)))

/-- A field as version v took it (R209, R210). -/
def verX (f : Fld) (i c v : Nat) (s : State) : Nat :=
  wordField (sget regReset (half v s).cfg (rkey (f.off + i * f.stride) c)) f.lo f.w

/-- The in-flight count of a version (R208). -/
def inflight (v : Nat) (s : State) : Nat := (s.frames.filter (fun e => e.2.version == some v)).length

/-! ### Freeing a version (R208, R211) -/

/-- The other members of the mesh that this device is joined to, as a bitmap (R483). -/
def otherMembers (s : State) : Nat :=
  if rd tieMeshStatus_joined s = 1 then clearBit (rd tieMeshStatus_members s) (rd sysStrapSample_deviceId s) else 0

/-- In a mesh with other members a version is freed by the system's free message alone (R509), but for one that this device drains by
itself (R507). -/
def meshFrees (s : State) : Bool := decide (otherMembers s ≠ 0) && !s.mesh.ver.localDrain

/-- The draining version is freed: its half becomes the staging half with its content unchanged (R208, R212). -/
def freeVersion (s : State) : State :=
  raise clsVersionFreed
    (wr clsStageCtl_mode (staging s).mode
      (wr clsDrainStatus_lastDrain (min 0xFFFF ((s.tim.raw - s.ver.drainRaw) / 78125))
        (wr clsVersionState_draining 0 { s with
            ver := { s.ver with drainOver := false }
            mesh := { s.mesh with ver := { s.mesh.ver with localDrain := false, freeing := false, markers := 0 } } })))

/-- Free the draining version when no frame is stamped with it (R208). -/
def freeIfDrained (s : State) : State :=
  if draining s && !meshFrees s && decide (inflight (curVersion s - 1) s = 0) then freeVersion s else s

def execDrainOverrun (s : State) : Host.Outcome State Fault Refusal :=
  .next (if draining s && !s.ver.drainOver && decide (inflight (curVersion s - 1) s ≠ 0) then
      raise clsDrainOverrun (sat1 clsDrainStatus_drainOverruns { s with ver := { s.ver with drainOver := true } })
    else s)

/-- FORCE_FREE: a write of CLS.DRAIN_CTL (R211). -/
def drainCtlWrite (w : Window) (v : Word) (s : State) : State :=
  let lim := wordField v 0 8
  let t := if lim = 0 then accessError w clsDrainCtl_drainLimitMs.off true s else wr clsDrainCtl_drainLimitMs lim s
  if bit v.toNat 8 && draining t then raise clsForcedFree (freeVersion t) else t

def execForceFree (w : Window) (v : Word) (s : State) : Host.Outcome State Fault Refusal :=
  .next (writing w .cls (drainCtlWrite w v) s)

/-! ### Staging (R212) -/

/-- Staging is locked: a commit is pending, a version drains, or a system commit holds it (R212, R508). -/
def stagingLocked (s : State) : Bool :=
  draining s || s.ver.check.isSome || s.ver.locked || decide ((commitOf .cls s).status = 1)

/-- A staging write refused under R212. -/
def stageRefused (s : State) : State := raise clsStageRefused (wr clsStageCtl_stageRefused 1 s)

/-- Change the staging half, or refuse (R212). -/
def stageChange (f : State → State) (s : State) : State := if stagingLocked s then stageRefused s else f s

/-- The copy of the current version completes: its rules, count, mode and poison (R212, R523). -/
def stageCopyDone (s : State) : State :=
  let x := half (curVersion s) s
  wr clsStageCtl_busy 0 (wr clsStageCtl_mode x.mode
    (putHalf (stagingIdx s) x { s with ver := { s.ver with copying := false } }))

def execStageCopyDone (s : State) : Host.Outcome State Fault Refusal :=
  .next (if s.ver.copying then stageCopyDone s else s)

/-- Clear the staging half: every rule zero, count 0 (CLS.STAGE_CTL). -/
def stageClear (s : State) : State :=
  putHalf (stagingIdx s) {} s

/-- A write of CLS.STAGE_CTL: mode, stage_refused, then copy and clear. -/
def stageCtlWrite (v : Word) (s : State) : State :=
  let s1 := wr clsStageCtl_mode (wordField v 2 1) s
  let s2 := if bit v.toNat 9 then wr clsStageCtl_stageRefused 0 s1 else s1
  let s3 := if bit v.toNat 0 then
      stageChange (fun s => wr clsStageCtl_busy 1 { s with ver := { s.ver with copying := true } }) s2 else s2
  if bit v.toNat 1 then stageChange stageClear s3 else s3

def execStageCopy (w : Window) (v : Word) (s : State) : Host.Outcome State Fault Refusal :=
  .next (writing w .cls (stageCtlWrite v) s)

def execStageClear (w : Window) (v : Word) (s : State) : Host.Outcome State Fault Refusal :=
  .next (writing w .cls (stageCtlWrite v) s)

/-- One word of a rule. -/
def ruleWord (h : Half) (i k : Nat) : Nat := (sget (fun _ => (0 : Word)) h.rules (16 * i + k)).toNat

/-- Load the addressed staging rule into STAGE_DATA0 to 15. -/
def stageLoad (s : State) : State :=
  let h := staging s
  let i := rd clsStageAddr_index s
  foldOver (List.range 16) (fun k a => wrX clsStageData_data k 0 (ruleWord h i k) a) s

/-- A write of CLS.STAGE_ADDR. -/
def stageAddrWrite (v : Word) (s : State) : State :=
  let t := wr clsStageAddr_index (wordField v 0 17) (wr clsStageAddr_autoInc (wordField v 31 1) s)
  if bit v.toNat 30 then stageLoad t else t

def execStageRuleLoad (w : Window) (v : Word) (s : State) : Host.Outcome State Fault Refusal :=
  .next (writing w .cls (stageAddrWrite v) s)

/-- Write the 16 words of STAGE_DATA to the staging rule at index; a written rule is no longer poisoned (R523). -/
def stageRuleWrite (s : State) : State :=
  let i := rd clsStageAddr_index s
  let h := staging s
  let rules := foldOver (List.range 16)
    (fun k m => sset (fun _ => (0 : Word)) m (16 * i + k) (reg (clsStageData_data.off + 4 * k) 0 s)) h.rules
  let t := putHalf (stagingIdx s) { h with rules := rules, poisoned := h.poisoned.filter (· != i) } s
  if rd clsStageAddr_autoInc s = 1 then wr clsStageAddr_index (i + 1) t else t

/-- A write of CLS.STAGE_DATAw: refused under R212 and in tree mode. -/
def stageDataWrite (k : Nat) (v : Word) (s : State) : State :=
  if stagingLocked s || decide (rd clsStageCtl_mode s = 1) then stageRefused s
  else
    let t := wrX clsStageData_data k 0 v.toNat s
    if k = 15 then stageRuleWrite t else t

def execStageData15Write (w : Window) (v : Word) (s : State) : Host.Outcome State Fault Refusal :=
  .next (writing w .cls (stageDataWrite 15 v) s)

/-- A write of CLS.STAGE_COUNT. -/
def stageCountWrite (v : Word) (s : State) : State :=
  stageChange (fun s => putHalf (stagingIdx s) { staging s with count := wordField v 0 18 } s) s

/-! ### The checks of R201 and R205 -/

/-- A range field of a rule word, `n` bits wide in 16: bounds in order, nothing outside the field. -/
def rangeOk (w n : Nat) : Bool :=
  decide (w % 65536 ≤ w / 65536 ∧ w / 65536 < 2 ^ n)

/-- A masked field: no value bit outside its mask. -/
def maskedOk (value mask n : Nat) : Bool := decide (value &&& mask = value ∧ mask < 2 ^ n)

/-- A masked pair of bytes at a position of a word. -/
def maskedBytes (w lo n : Nat) : Bool := maskedOk (bitsOf w lo 8) (bitsOf w (lo + 8) 8) n

/-- The bytes of a rule. -/
def ruleBytes (h : Half) (i : Nat) : List Byte :=
  (List.range 16).foldl (fun a k => a ++ bytesLE 4 (ruleWord h i k)) []

/-- host_table of an action (R199). -/
def actHostTable (a : Nat) : Nat := bitsOf a 23 6

/-- The place after a double rule is as R198 states. -/
def secondPlaceOk (h : Half) (i : Nat) : Bool :=
  let bs := ruleBytes h (i + 1)
  let src := leNat ((ruleBytes h i).drop 0x30)
  let n (o len : Nat) : Nat := leAt bs o len
  decide (n 0 4 = 0) && decide (n 0x34 12 = 0) && maskedOk src (n 0x04 16) 128 && maskedOk (n 0x14 16) (n 0x24 16) 128

/-- One rule of range mode is acceptable (R201). -/
def ruleOk (h : Half) (steer i : Nat) : Bool :=
  let w (k : Nat) : Nat := ruleWord h i k
  let bs := ruleBytes h i
  let ty := bitsOf (w 0) 28 2
  let double := bit (w 0) 30
  decide (bitsOf (w 0) 0 28 = 0) && decide (ty ≠ 3) && decide (double = decide (ty = 2))
    && decide (bitsOf (w 1) 29 3 = 0) && decide (bitsOf (w 2) 27 5 = 0)
    && !(bit (w 1) 7 && decide (bitsOf (w 1) 8 8 ≠ 0)) && decide (actHostTable (w 1) ≠ steer)
    && rangeOk (w 3) 9 && rangeOk (w 4) 12 && rangeOk (w 5) 14 && rangeOk (w 6) 16 && rangeOk (w 7) 16
    && maskedOk (w 8 % 65536) (w 8 / 65536) 16 && maskedBytes (w 9) 0 8 && maskedBytes (w 9) 16 8
    && maskedBytes (w 10) 0 6 && maskedBytes (w 10) 16 8 && maskedBytes (w 11) 0 8 && maskedBytes (w 11) 16 8
    && (if ty = 0 then maskedOk (leAt bs 0x30 6) (leAt bs 0x36 6) 48 && rangeOk (w 15) 12
        else if ty = 1 then maskedOk (w 12) (w 13) 32 && maskedOk (w 14) (w 15) 32
        else decide (i % 2 = 0) && secondPlaceOk h i)

/-- Whether place i is the second place of a double rule. -/
def isSecond (h : Half) (i : Nat) : Bool := decide (i % 2 = 1) && bit (ruleWord h (i - 1) 0) 30

/-- The listed rule places below the count, each once. -/
def listedRules (h : Half) : List Nat :=
  ((h.rules.map (fun e => e.1 / 16)).eraseDups).filter (fun i => decide (i < h.count))

/-- The steering table (R217). -/
def steerTable (s : State) : Nat := rd clsSteerCfg_steerTable s

/-- The range-mode check of R201: none passes, or the refusal code. An unlisted rule is all zeros, which breaks nothing but a
steering table of 0. -/
def rangeCheck (h : Half) (defaultA steer : Nat) : Option Nat :=
  let listed := listedRules h
  let seconds := (listed.filter (fun i => bit (ruleWord h i 0) 30 && decide (i + 1 < h.count))).filter
    (fun i => !listed.contains (i + 1))
  if 131072 < h.count then some 3
  else if (h.poisoned.filter (fun i => decide (i < h.count))) ≠ [] then some 2
  else if actHostTable defaultA = steer then some 2
  else if listed.any (fun i => !isSecond h i && !ruleOk h steer i) then some 2
  else if steer = 0 ∧ listed.length + seconds.length < h.count then some 2
  else none

/-- One node of a tree image (R203). -/
def nodeAt (h : Half) (i : Nat) : Nat := sget (fun _ => 0) h.nodes i

/-- Fields of a node: kind, field code or leaf count, low bit, n, first child. -/
def ndKind (x : Nat) : Nat := bitsOf x 0 8
def ndField (x : Nat) : Nat := bitsOf x 8 8
def ndLo (x : Nat) : Nat := bitsOf x 16 8
def ndBits (x : Nat) : Nat := bitsOf x 24 8
def ndChild (x : Nat) : Nat := bitsOf x 32 32
def ndRule (x k : Nat) : Nat := bitsOf x (32 + 16 * k) 16

/-- The rule indices of a leaf, in order. -/
def leafRules (x : Nat) : List Nat := (List.range (ndField x)).map (ndRule x)

/-- Strictly rising numbers. -/
def rising : List Nat → Bool
  | a :: b :: l => decide (a < b) && rising (b :: l)
  | _ => true

/-- A node is as R203 states and names nothing beyond the counts (R205). -/
def nodeOk (h : Half) (x : Nat) : Bool :=
  if ndKind x = 0 then
    decide (ndField x ≤ 15 ∧ 1 ≤ ndBits x ∧ ndBits x ≤ 8 ∧ ndChild x + 2 ^ ndBits x ≤ h.nodeCount)
  else decide (ndKind x = 1 ∧ ndField x ≤ 6) && rising (leafRules x) && (leafRules x).all (fun r => decide (r < h.count))

/-- Whether every path below node i has at most `d` further nodes. -/
def depthOk (h : Half) : Nat → Nat → Bool
  | 0, i => decide (ndKind (nodeAt h i) = 1)
  | d + 1, i =>
    let x := nodeAt h i
    decide (ndKind x = 1) || (List.range (2 ^ ndBits x)).all (fun k => depthOk h d (ndChild x + k))

/-- The tree-mode check of R205. -/
def treeCheck (h : Half) (defaultA steer : Nat) : Option Nat :=
  let listed := listedRules h
  let badRule (i : Nat) : Bool :=
    bit (ruleWord h i 0) 30 || decide (bitsOf (ruleWord h i 0) 28 2 = 2) || decide (actHostTable (ruleWord h i 1) = steer)
  if 65536 < h.count ∨ 262144 < h.nodeCount then some 3
  else if 16 < h.depth ∨ h.poisoned ≠ [] then some 2
  else if actHostTable defaultA = steer then some 2
  else if steer = 0 ∧ listed.length < h.count then some 2
  else if listed.any badRule then some 2
  else if (List.range h.nodeCount).any (fun i => !nodeOk h (nodeAt h i)) ∨ h.nodeCount ≤ h.root then some 2
  else if !depthOk h h.depth h.root then some 2
  else none

/-- One member only of a symmetric pair is selected: pairs as (bit, bit) of a field selection. -/
def splitPair (fields : Nat) (pairs : List (Nat × Nat)) : Bool :=
  pairs.any (fun p => bit fields p.1 != bit fields p.2)

/-- The check of a CLS commit (R209 step 2): the staging half and the other shadows (R118, R220). -/
def clsCheck (s : State) : Option Nat :=
  let h := staging s
  let dA := (reg clsDefaultA_action.off 0 s).toNat
  let bodyCheck := if rd clsStageCtl_mode s = 1 then treeCheck h dA (steerTable s) else rangeCheck h dA (steerTable s)
  match bodyCheck with
  | some c => some c
  | none =>
    if badMode .cls s then some 2
    else if (List.range 8).any (fun i => decide (rdX clsHashProf_symmetric i 0 s = 1)
        && splitPair (rdX clsHashProf_fields i 0 s) [(1, 2), (5, 6), (8, 9)]) then some 2
    else none

/-- A commit of the CLS block is refused busy: a version drains or a copy is in progress (R209 step 1). -/
def clsBusy (s : State) : Bool := draining s || s.ver.copying

/-! ### The switch to a new version (R207, R209) -/

/-- The registers whose values in effect a version takes: the parser profiles (page 0x12) and the CLS shadows (page 0x14). -/
def versionCfg (s : State) : Sparse Word :=
  s.fab.live.filter (fun e => decide (e.1 % 0x40000 / 0x1000 = 0x12 ∨ e.1 % 0x40000 / 0x1000 = 0x14))

/-- The CLS shadows go into effect. -/
def clsShadowsLive (s : State) : State :=
  let keep := s.fab.live.filter (fun e => decide (e.1 % 0x40000 / 0x1000 ≠ 0x14))
  let new := s.fab.regs.filter (fun e => decide (e.1 % 0x40000 / 0x1000 = 0x14))
  { s with fab := { s.fab with live := new.foldl (fun m e => sput m e.1 e.2) keep } }

/-- Version n becomes current from the staging half, in half n mod 2 (R206), the one before starts to drain, and version_committed is
raised (R209 step 4). The first version replaces none. A version with no frame in flight is freed at once. -/
def takeVersion (n : Nat) (s : State) : State :=
  let first := decide (curVersion s = 0)
  let s1 := clsShadowsLive s
  let h := { staging s1 with mode := rd clsStageCtl_mode s1, cfg := versionCfg s1 }
  let s2 := putHalf n h s1
  let s3 := { s2 with ver := { s2.ver with check := none, drainRaw := s2.tim.raw, drainOver := false } }
  let s4 := wr clsVersion_current n (wr clsVersionState_curMode h.mode (wr clsVersionState_draining (b2n (!first)) s3))
  freeIfDrained (raise clsVersionCommitted s4)

/-! ### Frames -/

/-- What an unlisted frame reads as. -/
def frameDefault : Nat → Frame := fun _ => {}

/-- A frame by identity. -/
def frame (i : Nat) (s : State) : Frame := sget frameDefault s.frames i

/-- Store a frame. -/
def putFrame (i : Nat) (f : Frame) (s : State) : State := { s with frames := sset frameDefault s.frames i f }

/-- Change a frame. -/
def modFrame (i : Nat) (g : Frame → Frame) (s : State) : State := putFrame i (g (frame i s)) s

/-- A new frame; answers its identity. -/
def newFrame (f : Frame) (s : State) : Nat × State :=
  (s.nextFrame, putFrame s.nextFrame { f with live := true } { s with nextFrame := s.nextFrame + 1 })

/-- A frame is no longer in the device: its in-flight count falls (R208). -/
def endFrame (i : Nat) (s : State) : State := freeIfDrained { s with frames := sdel s.frames i }

/-- CLS reads that show the versions: INFLIGHT_CUR, INFLIGHT_OLD, STAGE_COUNT. -/
def clsView (off : Nat) (s : State) : Option Nat :=
  if off = clsInflightCur_count.off then some (if curVersion s = 0 then 0 else inflight (curVersion s) s)
  else if off = clsInflightOld_count.off then some (if draining s then inflight (curVersion s - 1) s else 0)
  else if off = clsStageCount_ruleCount.off then some (staging s).count
  else none

end Sys2Proof.Machine
end

