-- ==== Sys2Proof/Machine/Switch.lean ====
section
/-! DEFINITION. The switch core (R20 to R23, R388 to R408) and the egress scheduler (R425 to R429): VOQ entry, class choice, matching
and crossing. -/

namespace Sys2Proof.Machine

/-! ### Places -/

/-- The output group of a destination (R20); destination 266 stands for output group 35's copies. -/
def outGroup (d : Nat) : Nat :=
  if d < 256 then d / 8 else if d < 264 then 32 else if d = 264 then 33 else if d = 265 then 34 else 35

/-- The credits of a destination (R403). -/
def maxCredits (d : Nat) : Nat := if d < 256 then 8 else if d = 264 then 32 else 16

/-- The key of a VOQ (R391, with destination 266 added). -/
def voqKey (g d c : Nat) : Nat := (g * 267 + d) * 8 + c

/-- The frames of a VOQ, in order. -/
def voqAt (g d c : Nat) (s : State) : List Nat := sget (fun _ => []) s.sw.voq (voqKey g d c)

/-- Store a VOQ. -/
def putVoq (g d c : Nat) (l : List Nat) (s : State) : State :=
  { s with sw := { s.sw with voq := sset (fun _ => []) s.sw.voq (voqKey g d c) l } }

/-- Free credits of a destination (R403). -/
def credits (d : Nat) (s : State) : Nat := maxCredits d - ((dest d s).cells.length + (dest d s).extra)

def swcGCtrs : CtrSet := ⟨swcGcntLo_count.off, swcCntWrap, false⟩
def swcDCtrs : CtrSet := ⟨swcDcntLo_count.off, swcCntWrap, false⟩
def tmgDCtrs : CtrSet := ⟨tmgDcntLo_count.off, tmgCntWrap, true⟩

/-! ### Freeing (R12, R397, R410, R411) -/

/-- Progress of the other use of a frame's cells: all of them when there is none (R411). -/
def twinFreed (f : Frame) (s : State) : Nat :=
  match f.twin with
  | some j => (frame j s).freed
  | none => f.cells.length

/-- Cells of a frame that came over a tie link have been freed: their credits go back to the peer in a flit (R486, R488), unless the link has started
anew since, with a new grant. -/
def returnCredits (f : Frame) (n : Nat) (s : State) : State :=
  if f.overTie ∧ f.req = 32 ∧ n ≠ 0 ∧ linkActive f.via s = true ∧ 8 * (tieLink f.via s).since ≤ f.raw8 then emit (.tieFlits f.via [creditFlit n]) s
  else s

/-- Frame i has no more use for its first n cells; each is freed once both uses are over. -/
def advanceCells (i n : Nat) (s : State) : State :=
  let f := frame i s
  let t := twinFreed f s
  let gone := (f.cells.take (min n t)).drop (min f.freed t)
  returnCredits f gone.length (giveCells f.req gone (putFrame i { f with freed := max f.freed n } s))

/-- Take a frame out of its VOQ. -/
def unqueue (i : Nat) (s : State) : State :=
  let f := frame i s
  if f.inVoq then
    putFrame i { f with inVoq := false }
      (putVoq f.group f.dest f.cls ((voqAt f.group f.dest f.cls s).filter (· != i)) s)
  else s

/-- A frame leaves the device: its record ends, and the other use of its cells, if any, stands alone. -/
def removeFrame (i : Nat) (s : State) : State :=
  let s1 := match (frame i s).twin with
    | some j => modFrame j (fun f => { f with twin := none }) s
    | none => s
  endFrame i s1

/-- A port discards the rest of the frame now arriving, if it is frame i. Its MAC still counts it, and its source is still learned, when
its last byte arrives (R183, R232). -/
def detachRx (i : Nat) (s : State) : State :=
  let f := frame i s
  let p := f.inSrc
  let r := sget (fun _ => ({} : RxPort)) s.rx p
  let r0 := if r.cur = some i then { r with cur := none, head := f.bytes.take 14, counted := false, late := some f } else r
  let r1 := { r0 with queue := r.queue.filter (· != i) }
  { s with rx := sset (fun _ => ({} : RxPort)) s.rx p r1 }

/-! ### Eligible bytes (R393, R404) -/

/-- The stream length of a frame: its descriptor and its bytes (R20). -/
def streamLen (f : Frame) : Nat := 8 + f.len

/-- Bytes of a frame that may be requested now: all of a stored frame, whole 240 B of a cut-through frame still arriving. -/
def eligBytes (f : Frame) : Nat :=
  if f.complete then streamLen f - f.sent
  else if f.ct then (f.bytes.length - (f.sent - 8)) / 240 * 240 else 0

/-- Whether every byte of a frame has crossed. -/
def crossedAll (f : Frame) : Bool := f.complete && decide (f.sent = streamLen f)

/-- Input group, destination and class of a VOQ key. -/
def keyGroup (k : Nat) : Nat := k / (267 * 8)
def keyDest (k : Nat) : Nat := k / 8 % 267
def keyClass (k : Nat) : Nat := k % 8

/-- Whether the head of a VOQ holds eligible bytes. -/
def headElig (l : List Nat) (s : State) : Bool :=
  match l with
  | i :: _ => decide (0 < eligBytes (frame i s))
  | [] => false

/-- The partner's copy at the head of the queue of class c of port d (R177). -/
def headCopy (d c : Nat) (s : State) : Option EgFrame := (dest d s).copies.find? (fun e => (frame e.id s).cls == c)

/-- An egress queue holds eligible bytes (R426). -/
def queueElig (d c : Nat) (s : State) : Bool :=
  s.sw.voq.any (fun e => keyDest e.1 == d && keyClass e.1 == c && headElig e.2 s) || (headCopy d c s).isSome

/-- The virtual time of a destination and the start tag of a class (R428). -/
def vtimeOf (d : Nat) (s : State) : Nat := sget (fun _ => 0) s.egr.vtime d
def tagOf (d c : Nat) (s : State) : Nat := sget (fun _ => 0) s.egr.tags (8 * d + c)
def putVtime (d v : Nat) (s : State) : State := { s with egr := { s.egr with vtime := sset (fun _ => 0) s.egr.vtime d v } }
def putTag (d c v : Nat) (s : State) : State :=
  { s with egr := { s.egr with tags := sset (fun _ => 0) s.egr.tags (8 * d + c) (v % 2 ^ 48) } }

/-- Signed difference of two 48-bit values (R426). -/
def diff48 (a b : Nat) : Int := signed 48 (a + 2 ^ 48 - b % 2 ^ 48)

/-- Notice whether a weighted queue is active; one that wakes takes S = V (R429). -/
def refreshActive (d c : Nat) (s : State) : State :=
  if 5 ≤ c ∨ 266 ≤ d then s
  else
    let now := queueElig d c s
    let was := sget (fun _ => false) s.egr.active (8 * d + c)
    let t := { s with egr := { s.egr with active := sset (fun _ => false) s.egr.active (8 * d + c) now } }
    if now && !was then putTag d c (vtimeOf d s) t else t

/-- One use of a frame is dropped wherever it waits: its cells are freed and its in-flight count falls (R208). -/
def dropUse (i : Nat) (s : State) : State :=
  let f := frame i s
  if f.live then
    refreshActive f.dest f.cls (removeFrame i (detachRx i (unqueue i (advanceCells i f.cells.length s))))
  else s

/-- A frame is dropped wherever it waits; while it is still arriving its later bytes are discarded, so its mirror use goes too. -/
def dropFrame (i : Nat) (s : State) : State :=
  let f := frame i s
  match f.twin with
  | some j => if f.live && !f.complete then dropUse i (dropUse j s) else dropUse i s
  | none => dropUse i s

/-! ### Destinations -/

/-- A tie link is up for frames: active, and both ends joined (R426, R514). -/
def tieUp (k : Nat) (s : State) : Bool :=
  decide (rdC tieLinkStatus_state k s = 3) && decide (rd tieMeshStatus_joined s = 1)
    && bit (rd tieMeshStatus_members s) (rdC tieLinkStatus_peerId k s)

/-- dest_up of R426. -/
def destUp (d : Nat) (s : State) : Bool :=
  if d < 256 then decide (rdC prtLinkStatus_linkUp d s = 1) && decide (rdC prtLinkStatus_suppressed d s = 0)
  else if d < 264 then tieUp (d - 256) s else true

/-- A destination is idle (R404). -/
def destIdle (d : Nat) (s : State) : Bool :=
  let x := dest d s
  x.cells.isEmpty && decide (x.extra = 0) && x.copies.isEmpty && x.lock.isNone && !s.sw.voq.any (fun e => keyDest e.1 == d)

/-- Test 2 of R394. -/
def destTakes (d : Nat) (s : State) : Bool :=
  let on (t : Target) : Bool := decide ((tgt t s).st = .starting ∨ (tgt t s).st = .on)
  if d < 256 then on ⟨.prt, some d⟩ else if d < 264 then on ⟨.tie, some (d - 256)⟩ else true

/-- Cells of a VOQ, and the depth of an egress queue (R391). -/
def voqCells (l : List Nat) (s : State) : Nat := l.foldl (fun a i => a + ((frame i s).cells.length - (frame i s).freed)) 0
def queueDepth (d c : Nat) (s : State) : Nat :=
  s.sw.voq.foldl (fun a e => if keyDest e.1 == d && keyClass e.1 == c then a + voqCells e.2 s else a) 0

/-- The limit of R395; none when the class has none. -/
def voqLimit (c : Nat) (s : State) : Option Nat :=
  let alpha := cfX swcAdmit_alpha c 0 s
  if alpha = 0 then none else some (cfX swcAdmit_qMin c 0 s + (sharedFree 0 s).toNat / 2 ^ (alpha - 1))

/-! ### VOQ entry (R394 to R396, R404, R442) -/

/-- A drop before any VOQ: SWC is not ON (test 1). -/
def swcOffDrop (i : Nat) (s : State) : State := dropFrame i (count swcGCtrs 3 0 1 s)

/-- A drop for the destination's state (test 2). -/
def destOffDrop (i : Nat) (s : State) : State :=
  let d := (frame i s).dest
  if d < 256 ∧ (tgt ⟨.prt, some d⟩ s).st = .draining then dropFrame i (portCount 11 d 1 s)
  else dropFrame i (raise swcDestOffDrop (count swcGCtrs 4 0 1 s))

/-- The outermost IP header, if any. -/
def ipHdr (f : Frame) : Option Hdr := f.hdrs.find? (fun h => h.code == 7 || h.code == 8)

/-- The ECN field of a frame's outermost IP header. -/
def ecnOf (f : Frame) : Nat :=
  match ipHdr f with
  | some h => if h.code = 7 then byteAt f.bytes (h.off + 1) % 4 else u16 f.bytes h.off / 16 % 4
  | none => 0

/-- The ECN rule of R396 on a queue of depth q: the draw is a free value. -/
def ecnRule (i q : Nat) (s : State) : State :=
  let f := frame i s
  let lo := cfX swcEcn_markMin f.cls 0 s
  let hi := cfX swcEcn_markMax f.cls 0 s
  let e := ecnOf f
  let mark (t : State) : State := count swcDCtrs 4 f.dest 1 (putFrame i { f with ecn := true } t)
  if hi = 0 ∨ (e ≠ 1 ∧ e ≠ 2) ∨ q < lo then s
  else if hi ≤ q then mark s
  else
    let r := takeFree s
    if r.1 % (hi - lo) < q - lo then mark r.2 else r.2

/-- The headers before any label, IP header or tunnel: the Ethernet header, tags, HSR tag and R-TAG of the outer frame. -/
def outerL2 (f : Frame) : List Hdr := f.hdrs.takeWhile (fun h => decide (h.code ≤ 5))

/-- The outermost VLAN tag. -/
def outerTag (f : Frame) : Option Hdr := (outerL2 f).find? (fun h => h.code == 2 || h.code == 3)

/-- The outer HSR tag. -/
def hsrTag (f : Frame) : Option Hdr := (outerL2 f).find? (fun h => h.code == 4)

/-- The framing operation of R176 at port d. A frame that carries both counts as HSR-tagged. -/
def redOp (f : Frame) (d : Nat) (s : State) : Nat :=
  let mode := cfC prtRedCfg_redMode d s
  let strip := decide (cfC prtRedCfg_strip d s = 1)
  if 256 ≤ d then 0
  else if (hsrTag f).isSome then (if mode = 0 then (if strip then 4 else 0) else if mode = 1 then 6 else 0)
  else if f.prp then (if mode = 0 then (if strip then 3 else 0) else if mode = 2 then 5 else 0)
  else mode

/-- A frame to a redundancy port that needs an HSR tag inserted, new or converted (R178). -/
def needsHsrTag (f : Frame) (s : State) : Bool := decide (redOp f f.dest s = 2 ∨ redOp f f.dest s = 5)

/-- The conditions of R22, R404 and R445, tested as a frame enters a VOQ that was empty. -/
def cutThrough (f : Frame) (empty : Bool) (s : State) : Bool :=
  !f.complete && empty && decide (f.group < 32) && decide (f.dest < 256) && destIdle f.dest s
    && decide (portGbit f.dest s ≤ portGbit f.inSrc s) && bit (cf swcCtCfg_classCt s) f.cls
    && !s.pwr.ctWithdrawn && !f.meterWait && !needsHsrTag f s
    && (!gateEn f.dest s || (gateOpen f.dest f.cls (timeNow s) s
          && fits f.dest f.cls (maxSdu f.dest f.cls s) (dest f.dest s).busyUntil s))

/-- ecn_onset: an egress queue of `before` cells has risen through mark_min (R422). -/
def noteOnset (d c before : Nat) (s : State) : State :=
  let lo := cfX swcEcn_markMin c 0 s
  if before < lo ∧ lo ≤ queueDepth d c s then raise swcEcnOnset s else s

/-- Put a frame at the end of its VOQ. -/
def enqueue (i q : Nat) (s : State) : State :=
  let f := frame i s
  let l := voqAt f.group f.dest f.cls s
  let ct := cutThrough f (l.isEmpty) s
  let s1 := putVoq f.group f.dest f.cls (l ++ [i]) (putFrame i { f with inVoq := true, ct := ct } s)
  let s2 := count swcDCtrs 0 f.dest 1 s1
  let s3 := if ct then count swcDCtrs 5 f.dest 1 s2 else s2
  refreshActive f.dest f.cls (noteOnset f.dest f.cls q s3)

/-- VOQ_ENTRY (R394): the tests in order, the ECN rule, and the entry. `ref` is the age reference of a work item (R407). -/
def voqEnter (i : Nat) (ref : Option Nat) (s0 : State) : State :=
  let s := modFrame i (fun f => { f with ageRef := ref.getD s0.tim.raw, sent := 0, voqRaw := s0.tim.raw }) s0
  let f := frame i s
  if !f.live then s
  else if !blockOn .swc s then swcOffDrop i s
  else if !destTakes f.dest s then destOffDrop i s
  else if f.dest < 256 ∧ f.complete ∧ maxSdu f.dest f.cls s < f.len then
    raiseC tmgSduDrop f.dest (count tmgDCtrs 0 f.dest 1 (dropFrame i s))
  else
    let sg := guardCheck s
    if f.cls < 5 ∧ sharedFree 0 sg < (cf swcGuard_guard sg : Int) then dropFrame i (count swcDCtrs 2 f.dest 1 sg)
    else
      let q := queueDepth f.dest f.cls sg
      let tooDeep := match voqLimit f.cls sg with
        | some lim => decide (lim < q + (f.cells.length - f.freed))
        | none => false
      if tooDeep then dropFrame i (raise swcTailDrop (count swcDCtrs 1 f.dest 1 sg))
      else enqueue i q (ecnRule i q sg)

/-- Put the mirror use of a frame's cells into its VOQ towards output group 35 (R411). -/
def mirrorEnter (i : Nat) (s : State) : State :=
  let f := frame i s
  if !f.live ∨ f.twin.isSome ∨ !blockOn .swc s then s
  else
    let n := newFrame { f with copy := true, dest := 266, version := none, twin := some i, inVoq := true, ct := false, sent := 0, freed := f.freed } s
    let t := modFrame i (fun g => { g with twin := some n.1 }) n.2
    putVoq f.group 266 f.cls (voqAt f.group 266 f.cls t ++ [n.1]) t

/-! ### Choosing a class (R426 to R429) -/

/-- The length that selection reckons with: the maximum SDU while a frame's length is not known (R443). -/
def selLen (f : Frame) (d : Nat) (s : State) : Nat := if f.complete ∨ 256 ≤ d then f.len else maxSdu d f.cls s

/-- Whether a frame that has not begun to cross to destination d may begin by its port's gates (R443). -/
def headFits (f : Frame) (d : Nat) (s : State) : Bool :=
  decide (256 ≤ d) || fits d f.cls (selLen f d s) (dest d s).busyUntil s

/-- The partner's copy at the head of a queue fits. -/
def copyFits (d c : Nat) (s : State) : Bool :=
  match headCopy d c s with
  | some e => headFits (frame e.id s) d s
  | none => false

/-- Some head of the egress queue fits (R426). -/
def someHeadFits (d c : Nat) (s : State) : Bool :=
  s.sw.voq.any (fun e => keyDest e.1 == d && keyClass e.1 == c && headElig e.2 s &&
    (match e.2 with
     | i :: _ => headFits (frame i s) d s
     | [] => false)) || copyFits d c s

/-- eligible(d, c) of R426. -/
def classElig (d c : Nat) (s : State) : Bool :=
  queueElig d c s && decide (0 ≤ shaperTokens d c s) && someHeadFits d c s

/-- The weighted choice among classes 4 to 0: the least tag, ties keeping the higher class. -/
def bestWeighted (d : Nat) (s : State) : Option Nat :=
  [4, 3, 2, 1, 0].foldl (fun best c =>
    if classElig d c s then
      match best with
      | none => some c
      | some b => if diff48 (tagOf d c s) (tagOf d b s) < 0 then some c else some b
    else best) none

/-- The partner port of a redundancy pair whose partner's link is up (R403). -/
def upPartner (d : Nat) (s : State) : Option Nat :=
  if d < 256 ∧ (cfC prtRedCfg_redMode d s = 1 ∨ cfC prtRedCfg_redMode d s = 2) ∧ destUp (pairPort d s) s = true then
    some (pairPort d s) else none

/-- The class of an unlocked destination by its port shaper, the strict classes and the weighted group (R426). -/
def freeClass (d : Nat) (s : State) : Option Nat :=
  if !blockOn .tmg s || !destUp d s || !chanOn .tmg d s then none
  else if shaperTokens d 8 s < 0 then none
  else match [7, 6, 5].find? (fun c => classElig d c s) with
    | some c => some c
    | none => bestWeighted d s

/-- state_class of R426; output group 35 has its own rule (R411). A locked destination keeps its class (R402). -/
def stateClass (d : Nat) (s : State) : Option Nat :=
  match (dest d s).lock with
  | some (_, c) => if d = 266 ∧ credits d s = 0 then none else some c
  | none =>
    if credits d s = 0 then none
    else if d = 266 then [7, 6, 5, 4, 3, 2, 1, 0].find? (fun c => queueElig 266 c s)
    else freeClass d s

/-- A weighted queue that was kept ineligible while active and is eligible again takes S = max(S, V) (R429). -/
def releaseTags (d : Nat) (s : State) : State :=
  foldOver [0, 1, 2, 3, 4] (fun c a =>
    let k := 8 * d + c
    let wasHeld := sget (fun _ => false) a.egr.held k
    let act := queueElig d c a
    let ok := classElig d c a
    let b := { a with egr := { a.egr with held := sset (fun _ => false) a.egr.held k (act && !ok) } }
    if wasHeld && ok && decide (diff48 (tagOf d c a) (vtimeOf d a) < 0) then putTag d c (vtimeOf d a) b else b) s

/-- Count gate_deferred for a class with eligible bytes and no fitting head, once per window (R443). A window is a continuous open time of
the class, named by its end; while the gate is closed nothing is counted (DEDUCED, assumption log 126). The class that a lock keeps stated
is none of these. -/
def deferredCheck (d : Nat) (s : State) : State :=
  if 256 ≤ d ∨ !gateEn d s then s
  else foldOver (List.range 8) (fun c a =>
    if gateOpen d c (timeNow a) a && queueElig d c a && !someHeadFits d c a && !decide ((dest d a).lock.map (·.2) = some c) then
      let w := 1 + (openUntil d c (timeNow a) a).getD 0
      if sget (fun _ => 0) a.egr.deferred (8 * d + c) = w then a
      else count tmgDCtrs 1 d 1 { a with egr := { a.egr with deferred := sset (fun _ => 0) a.egr.deferred (8 * d + c) w } }
    else a) s

/-- Ports with a partner's copy waiting (R177). -/
def copyDests (s : State) : List Nat := (s.sw.dests.filter (fun (e : Nat × Dest) => !e.2.copies.isEmpty)).map (fun e => e.1)

/-- Destinations with a frame waiting or a lock. -/
def busyDests (s : State) : List Nat := (s.sw.voq.map (fun e => keyDest e.1) ++ copyDests s).eraseDups

/-! ### Crossing a cell (R20, R402, R425, R428) -/

/-- The weight of a weighted class (R428). -/
def weightOf (d c : Nat) (s : State) : Nat :=
  if c < 4 then wordField (liveReg tmgWeightLo_w0.off d s) (8 * c) 8 else cfC tmgWeightHi_w4 d s

/-- A frame of class c is given to destination d: virtual time (R428) and the estimate of R443. -/
def giveFrame (f : Frame) (d c : Nat) (s : State) : State :=
  let t := if c < 5 ∧ d < 266 then putVtime d (tagOf d c s) s else s
  if d < 256 then
    let x := dest d t
    let start := max (timeNow s + pipeNs d s * 65536) x.busyUntil
    putDest d { x with busyUntil := start + txTime d (selLen f d s) s + (12 * 8 * 65536 + portGbit d s - 1) / portGbit d s } t
  else t

/-- The charges of R425 and R428 for a frame of `len` bytes. -/
def chargeFrame (d c len : Nat) (s : State) : State :=
  let lc := chargedLen d len s
  let t := chargeShaper d 8 lc (chargeShaper d c lc s)
  if c < 5 then
    let w := max (weightOf d c s) 1
    putTag d c (tagOf d c s + (lc * 256 + w - 1) / w) t
  else t

/-- A frame begins to cross: the lock, its place at the output, its VOQ wait (R582), and the egress scheduler's books. -/
def beginFrame (i g d c : Nat) (s : State) : State :=
  let f := frame i s
  giveFrame f d c (modDest d (fun x => { x with lock := some (g, c), eg := x.eg ++ [{ id := i }] })
    (if d < 266 then measure 2 d c ((s.tim.raw - f.voqRaw) * 128 / 100) s else s))

/-- A frame's last byte has crossed: it is charged, at the partner too once its copy is served there (R177); its cells are freed, and its
place in the VOQ and the lock are given up. -/
def finishFrame (i g d c : Nat) (s : State) : State :=
  let f := frame i s
  let s1 := if d < 266 then chargeFrame d c f.len s else s
  let s2 := if d < 256 ∧ (dest (pairPort d s) s).eg.any (fun e => e.id == i && !e.dropped) = true then
      chargeFrame (pairPort d s) c f.len s1 else s1
  let s3 := modDest d (fun x => { x with lock := none }) (putVoq g d c ((voqAt g d c s2).drop 1) s2)
  modFrame i (fun f => { f with inVoq := false }) (advanceCells i f.cells.length s3)

/-- Whether the next frame of a VOQ may begin in the same cell: its bytes, its gates, and the shapers after the charge. R20 has a cell leave
partly filled only when its VOQ holds no further bytes; R430 and R443 bar a frame that its tokens or gates do not let begin, and here they
win (DESIGN CHOICE, assumption log 127). -/
def mayFollow (i d c : Nat) (s : State) : Bool :=
  decide (0 < eligBytes (frame i s)) &&
    (decide (d = 266) || (decide (0 ≤ shaperTokens d c s) && decide (0 ≤ shaperTokens d 8 s) && headFits (frame i s) d s))

/-- The descriptor of a frame that begins to cross (R390) with the side-band slot of its edit record. The length of a frame that is still
arriving is not stated: a free value. -/
def descriptorOf (f : Frame) (slot : Nat) (s : State) : Nat × State :=
  let l := if f.complete then (f.len, s) else takeFree s
  (l.1 % 2 ^ 14 + 2 ^ 14 * b2n f.bad + 2 ^ 15 * b2n f.ct + 2 ^ 16 * (slot % 4), l.2)

/-- Frame i begins in a cell: its descriptor goes into it. -/
def openFrame (i g d c : Nat) (x : XCell) (s : State) : XCell × State :=
  let q := descriptorOf (frame i s) x.begins s
  ({ x with begins := x.begins + 1, descs := x.descs ++ [q.1] }, beginFrame i g d c q.2)

/-- Pack a crossbar cell from a VOQ (R20, R390), up to 240 payload bytes and `n` more frames. -/
def packCell (g d c : Nat) : Nat → XCell → State → XCell × State
  | 0, x, s => (x, s)
  | n + 1, x, s =>
    match voqAt g d c s with
    | [] => (x, s)
    | i :: _ =>
      let f := frame i s
      let take := min (240 - x.used) (eligBytes f)
      if take = 0 then (x, s)
      else
        let b := if f.sent = 0 then openFrame i g d c x s else (x, s)
        let y := { b.1 with used := x.used + take, frames := x.frames ++ [i] }
        let s2 := modFrame i (fun f => { f with sent := f.sent + take }) b.2
        if f.complete ∧ f.sent + take = streamLen f then
          let s4 := finishFrame i g d c s2
          match voqAt g d c s4 with
          | j :: _ => if y.used < 240 ∧ mayFollow j d c s4 = true then packCell g d c n y s4 else (y, s4)
          | [] => (y, s4)
        else (y, if d = 265 ∨ f.twin.isSome then advanceCells i ((f.sent + take - 8) / 240) s2 else s2)

/-- A matched cell crosses (R402): it takes a credit of the destination and of an up partner (R403). -/
def crossCell (g d c : Nat) (s : State) : State :=
  let r := packCell g d c 5 { group := g, dst := d, cls := c } s
  if r.1.frames = [] then s
  else
    let s1 := modDest d (fun x => { x with cells := x.cells ++ [{ r.1 with pair := upPartner d s }] }) r.2
    let s2 := match upPartner d s with
      | some q => modDest q (fun x => { x with extra := x.extra + 1 }) s1
      | none => s1
    refreshActive d c (count swcGCtrs 0 0 1 s2)

/-! ### A partner's copies (R177) -/

/-- The class whose partner's copy an unlocked port serves in this epoch. The copy has its places in the transmit buffer, so it asks for
no credit. -/
def copyClass (d : Nat) (s : State) : Option Nat :=
  if (dest d s).lock.isSome then none
  else match freeClass d s with
    | some c => if copyFits d c s then some c else none
    | none => none

/-- The copy at the head of a queue is served: it follows the frames that port d has been given. -/
def serveCopy (d c : Nat) (s : State) : State :=
  match headCopy d c s with
  | none => s
  | some e =>
    let f := frame e.id s
    let t := giveFrame f d c (modDest d (fun x =>
      { x with copies := x.copies.filter (fun y => y.id != e.id), eg := x.eg ++ [e] }) s)
    refreshActive d c (if crossedAll f then chargeFrame d c f.len t else t)

/-! ### Matching (R398 to R401) -/

/-- A request: input group, destination, class. -/
structure Req where
  g : Nat
  d : Nat
  c : Nat
  deriving DecidableEq, Repr

/-- The requestable VOQs (R398) under the stated classes. -/
def requests (stated : List (Nat × Nat)) (s : State) : List Req :=
  (s.sw.voq.filter (fun e =>
    let d := keyDest e.1
    let c := keyClass e.1
    headElig e.2 s && stated.contains (d, c) && decide (0 < credits d s)
      && (match upPartner d s with | some q => decide (0 < credits q s) | none => true)
      && (match (dest d s).lock with
          | some l => decide (l = (keyGroup e.1, c))
          | none =>
            (match e.2 with
             | i :: _ => decide (d = 266) || headFits (frame i s) d s
             | [] => false)))).map (fun e => ⟨keyGroup e.1, keyDest e.1, keyClass e.1⟩)

/-- The element of a list with the least rank, the first of equals. -/
def leastBy {α : Type} (rank : α → Nat) : List α → Option α
  | [] => none
  | a :: l =>
    match leastBy rank l with
    | none => some a
    | some b => if rank b < rank a then some b else some a

/-- The grant of an output group (R399). -/
def grantOf (o : Nat) (rs : List Req) (s : State) : Option Req :=
  let ptr := sget (fun _ => 0) s.sw.destPtr o
  match leastBy (fun r => (r.d + 267 - ptr % 267) % 267) (rs.filter (fun r => outGroup r.d == o)) with
  | none => none
  | some r0 =>
    leastBy (fun r => (r.g + 36 - (dest r0.d s).inPtr % 36) % 36) (rs.filter (fun r => r.d == r0.d))

/-- The grant an input group accepts (R400). -/
def acceptOf (g : Nat) (grants : List Req) (s : State) : Option Req :=
  let ptr := sget (fun _ => 0) s.sw.accPtr g
  leastBy (fun r => (7 - r.c) * 64 + (outGroup r.d + 36 - ptr % 36) % 36) (grants.filter (fun r => r.g == g))

/-- Pointers move on a grant accepted in the first iteration (R401). -/
def movePointers (r : Req) (s : State) : State :=
  modDest r.d (fun x => { x with inPtr := (r.g + 1) % 36 })
    { s with sw := { s.sw with
        destPtr := sset (fun _ => 0) s.sw.destPtr (outGroup r.d) (r.d + 1)
        accPtr := sset (fun _ => 0) s.sw.accPtr r.g ((outGroup r.d + 1) % 36) } }

/-- One iteration: the requests still open, and the state the grants are judged in. -/
def iterate (rs : List Req) (s : State) : List Req :=
  let grants := (List.range 36).filterMap (fun o => grantOf o rs s)
  (List.range 36).filterMap (fun g => acceptOf g grants s)

/-- The requests left after matches. -/
def unmatched (rs matched : List Req) : List Req :=
  rs.filter (fun r => !matched.any (fun m => m.g == r.g || outGroup m.d == outGroup r.d))

/-- The match of one epoch (R21): three iterations. -/
def matchEpoch (rs : List Req) (s : State) : List Req × State :=
  let a := iterate rs s
  let s1 := foldOver a movePointers s
  let r1 := unmatched rs a
  let b := iterate r1 s1
  let r2 := unmatched r1 b
  let c := iterate r2 s1
  (a ++ b ++ c, s1)

/-- Show what was stated for a destination (TMG.DEST_STATUS). -/
def showStated (d : Nat) (c : Option Nat) (s : State) : State :=
  if d < 266 then
    wrC tmgDestStatus_stated d (b2n c.isSome) (wrC tmgDestStatus_statedClass d (c.getD 0) s) else s

/-- Destinations whose stated class is shown or may change. -/
def shownDests (s : State) : List Nat := (busyDests s ++ copiesAt tmgDestStatus_stated.off s.fab.regs).eraseDups

/-- Stored frames at the head of their VOQs that hold a word which could not be corrected (R520). -/
def poisonedHeads (s : State) : List Nat :=
  s.sw.voq.filterMap (fun (e : Nat × List Nat) => match e.2 with
    | i :: _ => if (frame i s).bad && (frame i s).complete && decide ((frame i s).sent = 0) then some i else none
    | [] => none)

/-- Such frames are freed at their turn and counted (R520). -/
def freePoisoned (s : State) : State :=
  foldOver (poisonedHeads s) (fun i a => dropFrame i (satX scrEccUncorr_count 0 1 1 a)) s

/-- The crossbar moves cells while SWC is ON and while it drains (R421). -/
def swcMoves (s : State) : Bool := decide ((tgt ⟨.swc, none⟩ s).st = .on ∨ (tgt ⟨.swc, none⟩ s).st = .draining)

/-- CELL_EPOCH: every scheduler states a class, the crossbar matches, and each matched cell crosses (R21, R398 to R403, R426). A port that
serves a partner's copy takes no cell in that epoch. -/
def cellEpoch (s : State) : State :=
  if !swcMoves s then s
  else
    let s0 := freePoisoned s
    let s1 := foldOver (busyDests s0) (fun d a => deferredCheck d (if d < 266 then releaseTags d a else a)) s0
    let stated := (busyDests s1).filterMap (fun d => (stateClass d s1).map (fun c => (d, c)))
    let s2 := foldOver (shownDests s1) (fun d a => showStated d ((stated.find? (fun x => x.1 == d)).map (·.2)) a) s1
    let copies := (copyDests s2).filterMap (fun d => (copyClass d s2).map (fun c => (d, c)))
    let m := matchEpoch (requests (stated.filter (fun x => !copies.any (fun y => y.1 == x.1))) s2) s2
    foldOver copies (fun x a => serveCopy x.1 x.2 a)
      (foldOver m.1 (fun r a => crossCell r.g r.d r.c a) (count swcGCtrs 1 0 1 m.2))

def execCellEpoch (s : State) : Host.Outcome State Fault Refusal := .next (cellEpoch s)

/-! ### Credits and age (R403, R407) -/

/-- Whether frame i still has bytes to leave the transmit buffer of destination d: a port or tie link that is up has it waiting, neither
started nor dropped by edit. The host, the recirculation loop and output group 35 take each cell as it comes, and a destination that is
down discards it (R408). -/
def unstarted (i d : Nat) (s : State) : Bool :=
  decide (d < 264) && destUp d s && ((dest d s).eg ++ (dest d s).copies).any (fun e => e.id == i && !e.started && !e.dropped)

/-- CREDIT_RETURN: the oldest cell of a destination's transmit buffer has left it, once every frame with bytes in it has started
at the destination and, for a pair, at the partner (R403). -/
def creditReturn (d : Nat) (s : State) : State :=
  match (dest d s).cells with
  | [] => s
  | x :: rest =>
    if x.frames.any (fun i => unstarted i d s || (x.pair.map (fun q => unstarted i q s)).getD false) then s
    else
      let s1 := modDest d (fun y => { y with cells := rest }) s
      match x.pair with
      | some q => modDest q (fun y => { y with extra := y.extra - 1 }) s1
      | none => s1

def execCreditReturn (d : Nat) (s : State) : Host.Outcome State Fault Refusal :=
  guarded (decide (d ≤ 266)) (creditReturn d s)

/-- VOQ_AGE_DROP (R407, R408): a frame of the VOQ whose first cell has not been granted is past its age limit. The operand
names its place in the VOQ. -/
def voqAgeDrop (g d c n : Nat) (s : State) : State :=
  match (voqAt g d c s).drop n with
  | [] => s
  | i :: _ =>
    if (frame i s).sent = 0 then
      let t := if d < 266 then count swcDCtrs 3 d 1 s else s
      raise swcAgeDrop (dropFrame i t)
    else s

def execVoqAgeDrop (g d c n : Nat) (s : State) : Host.Outcome State Fault Refusal :=
  guarded (decide (g < 36 ∧ d ≤ 266 ∧ c < 8)) (voqAgeDrop g d c n s)

/-! ### SWC in the common state machine (R421) -/

/-- Whether frame i waits only as the mirror use of a frame that waits too (R411). -/
def mirrorUse (i : Nat) (s : State) : Bool :=
  (frame i s).copy && (((frame i s).twin.map (fun j => (frame j s).inVoq)).getD false)

/-- Drop every frame of the VOQs, each counted once. -/
def dropQueued (s : State) : State :=
  foldOver (s.sw.voq.flatMap (fun e => e.2)) (fun i a => dropFrame i (if mirrorUse i s then a else count swcGCtrs 3 0 1 a)) s

/-- SWC STARTING: every VOQ, lock and pointer is empty and every credit set. Frames still at an output end there. -/
def swcStarting (s : State) : State :=
  let ids := s.sw.voq.flatMap (fun e => e.2) ++ s.sw.dests.flatMap (fun e => (e.2.eg ++ e.2.copies).map (fun x => x.id))
  let t := foldOver ids dropUse s
  { t with sw := {}, egr := { t.egr with active := [], held := [] } }

/-- The SWC drain is complete: no frame waits in a VOQ. -/
def swcDrained (s : State) : Bool := s.sw.voq.isEmpty

/-- The commit checks of SWC registers (page 0x2D). -/
def swcCheck (s : State) : Option Nat :=
  if (List.range 8).any (fun c => decide (rdX swcAgeLimit_limit100us c 0 s = 0 ∨ 8 < rdX swcAdmit_alpha c 0 s
      ∨ (rdX swcEcn_markMax c 0 s ≠ 0 ∧ rdX swcEcn_markMax c 0 s ≤ rdX swcEcn_markMin c 0 s)))
    ∨ 264 < rd swcMirrorCfg_dest s then some 2
  else none

/-- SWC and TMG reads that show a selection: Q_DEPTH, VOQ_DEPTH, Q_STATE; DEST_STATUS, TOKENS, VTIME, TAGS. `w` is the copy of the
selecting registers. -/
def swcView (off w : Nat) (s : State) : Option Nat :=
  let d := rdC swcQSel_dest w s
  let c := rdC swcQSel_class w s
  if off = swcQDepth_cells.off then some (queueDepth d c s)
  else if off = swcVoqDepth_cells.off then some (voqCells (voqAt (rdC swcQSel_group w s) d c s) s)
  else if off = swcQState_idle.off then
    let x := dest d s
    let l := x.lock.getD (0, 0)
    some (b2n (destIdle d s) + 2 * b2n x.lock.isSome + 4 * l.1 + 256 * l.2 + 2048 * credits d s)
  else none

def tmgView (off w d : Nat) (s : State) : Option Nat :=
  let c := rdC tmgClassSel_class w s
  if off = tmgDestStatus_stated.off then
    some ((reg off d s).toNat % 16 + 256 * (List.range 8).foldl (fun a k => a + b2n (classElig d k s) * 2 ^ k) 0
      + 65536 * (if d < 256 then pipeNs d s % 1024 else 0))
  else if off = tmgTokens_tokens.off then
    some (unsigned 32 (shaperTokens d (if rdC tmgClassSel_port w s = 1 then 8 else c) s / 65536))
  else if off = tmgVtimeLo_value.off then some (vtimeOf d s)
  else if off = tmgTagsLo_value.off then some (tagOf d c s)
  else none

end Sys2Proof.Machine
end

