-- ==== Sys2Proof/Machine/Tables.lean ====
section
/-! DEFINITION. Bridging and routing tables (chapter 09): the L2 table with its update queue, learning and aging; the LPM trie,
next hops and ECMP; their blobs and the route builder. -/

namespace Sys2Proof.Machine

/-- CRC-32C with seed `s` (R219). -/
def crc32cSeed (s : Nat) (bs : List Byte) : Nat := crcRaw 0x82F63B78 s bs ^^^ 0xFFFFFFFF

/-- The number of L2 entries in buckets, and with the overflow store (R228). -/
def l2Slots : Nat := 524288
def l2Total : Nat := 532480

/-- The bucket of an L2 key (R228). -/
def l2Bucket (fid mac : Nat) : Nat := crc32cSeed 4 (bytesBE 2 fid ++ bytesBE 6 mac) % 2 ^ 17

/-- The default of an unlisted L2 entry: not valid. -/
def l2Default : Nat → L2Entry := fun _ => {}

/-- The L2 entry at an index. -/
def l2At (i : Nat) (s : State) : L2Entry := sget l2Default s.l2.entries i

/-- Store an L2 entry. -/
def putL2 (i : Nat) (e : L2Entry) (s : State) : State :=
  { s with l2 := { s.l2 with entries := sset l2Default s.l2.entries i e } }

/-- The slots of a key's bucket. -/
def l2Places (fid mac : Nat) : List Nat := (List.range 4).map (fun i => 4 * l2Bucket fid mac + i)

/-- Look up an L2 key: its bucket, then the overflow store, searched in full (R228). -/
def l2Find (fid mac : Nat) (s : State) : Option Nat :=
  let hit (e : L2Entry) : Bool := e.valid && !e.bad && e.fid == fid && e.mac == mac
  match (l2Places fid mac).find? (fun i => hit (l2At i s)) with
  | some i => some i
  | none => (s.l2.entries.find? (fun e => decide (l2Slots ≤ e.1) && hit e.2)).map (·.1)

/-- The lowest free overflow entry. -/
def l2FreeOverflow (s : State) : Option Nat :=
  let rec go (fuel i : Nat) : Option Nat :=
    match fuel with
    | 0 => none
    | n + 1 => if (l2At i s).valid then go n (i + 1) else some i
  go 8192 l2Slots

/-- Room for a new key (R234): the lowest empty slot of its bucket, else the lowest free overflow entry. -/
def l2Room (fid mac : Nat) (s : State) : Option Nat :=
  match (l2Places fid mac).find? (fun i => !(l2At i s).valid) with
  | some i => some i
  | none => l2FreeOverflow s

/-- Add to an L2T statistic (L2T.STATk). -/
def l2Stat (k : Nat) (s : State) : State := if k = 10 then sat1 l2tStat10_count s else satX l2tStat_count k 0 1 s

/-- The port whose learned count an entry stands in (R233). -/
def l2CountPort (e : L2Entry) : Option Nat :=
  if e.valid && !e.isStatic && e.kind == 0 && decide (e.target < 256) then some e.target else none

/-- The learned count of a port. -/
def learnedOf (p : Nat) (s : State) : Nat := rdC l2tPortCount_learned p s

/-- Replace the entry at an index, keeping learned counts and the usage registers. -/
def l2Replace (i : Nat) (e : L2Entry) (s : State) : State :=
  let old := l2At i s
  let dec (s : State) : State := match l2CountPort old with
    | some p => wrC l2tPortCount_learned p (learnedOf p s - 1) s
    | none => s
  let inc (s : State) : State := match l2CountPort e with
    | some p => wrC l2tPortCount_learned p (learnedOf p s + 1) s
    | none => s
  let used (s : State) : State :=
    let f := if i < l2Slots then l2tUsage_used else l2tOvfUsage_used
    wr f (rd f s + b2n e.valid - b2n old.valid) s
  used (inc (dec (putL2 i e s)))

/-! ### Learning records (R235 to R237) -/

/-- A learning record (R237). -/
def learnNote (mac fid code port prev index tick : Nat) : Nat :=
  mac % 2 ^ 48 + (fid % 4096) * 2 ^ 48 + (code % 16) * 2 ^ 60 + (port % 512) * 2 ^ 64 + (prev % 512) * 2 ^ 73
    + (index % 2 ^ 20) * 2 ^ 96 + (tick % 4096) * 2 ^ 116

/-- Whether Bench runs and so takes what is queued for it (R33, BNC.STATUS). -/
def benchRunning (s : State) : Bool := decide (rd bncStatus_state s = 2)

/-- The learning queue cannot take a record (R235). -/
def noteDropped (s : State) : State := raise bncQueueFull (l2Stat 5 s)

/-- Whether the learning queue takes a record now (R236): it has room and its bucket a token. -/
def noteFits (s : State) : Bool := decide (s.l2.notes.length < 65536) && decide (s.l2.tokensUsed < 64)

/-- Place a record on the learning queue; a running Bench takes it. -/
def putNote (n : Nat) (s : State) : State :=
  let s1 := { s with l2 := { s.l2 with tokensUsed := s.l2.tokensUsed + 1 } }
  if benchRunning s then emit (.learnRecord n) s1 else { s1 with l2 := { s1.l2 with notes := s1.l2.notes ++ [n] } }

/-- Make a change that must be notified (R235): with notify_en 0 no record is made; else the queue must take the record at
that moment, or the change is not made. -/
def withNote (n : Nat) (change : State → State) (s : State) : State :=
  if cf l2tCfg_notifyEn s = 0 then change s
  else if noteFits s then putNote n (change s)
  else noteDropped s

/-- Notify without a change. -/
def noteOnly (n : Nat) (s : State) : State := withNote n (fun s => s) s

/-- Whether a record is made and the learning queue takes it (R235). -/
def noteTaken (s : State) : Bool := cf l2tCfg_notifyEn s != 0 && noteFits s

/-- A miss or secure notification of a source address, once a tick, over the last 256 such keys that have been notified (R236). -/
def noteOnce (fid mac n : Nat) (s : State) : State :=
  if s.l2.recent.contains (fid, mac, s.l2.tick) then s
  else if noteTaken s then
    let s1 := noteOnly n s
    { s1 with l2 := { s1.l2 with recent := ((fid, mac, s.l2.tick) :: s1.l2.recent).take 256 } }
  else noteOnly n s

/-- Whether port `p` has reached its learn limit (R234). -/
def atLimit (p : Nat) (s : State) : Bool :=
  decide (cfC l2tPortLearn_limit p s ≠ 0) && decide (cfC l2tPortLearn_limit p s ≤ learnedOf p s)

/-- A learn or move refused by the limit (R234); `index` is the entry concerned, 0xFFFFF with none (R237). -/
def limitRefused (p fid mac index : Nat) (s : State) : State :=
  noteOnly (learnNote mac fid 6 p 0 index s.l2.tick) (raise l2tLimitReached (l2Stat 3 s))

/-! ### The update engine (R231, R233 to R235, R238) -/

/-- Whether the entry at an index still holds a key. -/
def l2Holds (i fid mac : Nat) (s : State) : Bool :=
  let e := l2At i s
  e.valid && !e.bad && e.fid == fid && e.mac == mac

/-- A stamp is refreshed if it differs from the current tick, of a static entry too (R233). -/
def applyRefresh (i : Nat) (s : State) : State :=
  if (l2At i s).stamp = s.l2.tick then s else putL2 i { l2At i s with stamp := s.l2.tick } s

/-- A static entry seen on another port (R233): no change. DEDUCED: it places a record of code 8, for which R237 has no other source. -/
def staticMove (i port fid mac : Nat) (s : State) : State :=
  noteOnly (learnNote mac fid 8 port 0 i s.l2.tick) (raise l2tStaticMove (l2Stat 10 s))

/-- Whether an entry names a port as its destination. -/
def l2Own (e : L2Entry) (port : Nat) : Bool := decide (e.kind = 0 ∧ e.target = port)

/-- A station is seen on `port` (R233): the entry, read again, is refreshed there, left alone if static, or moved. -/
def applyMove (i port fid mac : Nat) (s : State) : State :=
  let e := l2At i s
  if l2Own e port then applyRefresh i s
  else if e.isStatic then staticMove i port fid mac s
  else if atLimit port s then limitRefused port fid mac i s
  else withNote (learnNote mac fid 2 port e.target i s.l2.tick)
    (fun s => l2Stat 1 (l2Replace i { e with target := port, kind := 0, stamp := s.l2.tick } s)) s

/-- Whether a learn on `port` is refused by the limit (R234). -/
def learnRefused (port fid mac : Nat) (s : State) : Bool :=
  atLimit port s && (match l2Find fid mac s with
    | some i => !l2Own (l2At i s) port && !(l2At i s).isStatic
    | none => true)

/-- A learn of a source address is applied: it creates the entry, or finds it and refreshes or moves it (R231, R233, R234). -/
def applyLearn (port fid mac : Nat) (s : State) : State :=
  match l2Find fid mac s with
  | some i => applyMove i port fid mac s
  | none =>
    if atLimit port s then limitRefused port fid mac 0xFFFFF s
    else match l2Room fid mac s with
      | none => noteOnly (learnNote mac fid 7 port 0 0xFFFFF s.l2.tick) (raise l2tTableFull (l2Stat 4 s))
      | some i => withNote (learnNote mac fid 1 port 0 i s.l2.tick)
          (fun s => l2Stat 0 (l2Replace i { valid := true, mac := mac, fid := fid, target := port, stamp := s.l2.tick } s)) s

/-- Whether an entry is due for aging (R238). -/
def l2Expired (e : L2Entry) (s : State) : Bool :=
  e.valid && !e.bad && !e.isStatic && decide (cf l2tAgeCfg_ageLimit s ≠ 0) &&
    decide (cf l2tAgeCfg_ageLimit s ≤ (s.l2.tick + 4096 - e.stamp % 4096) % 4096)

/-- An aging retire (R235, R238): its entry is read again, and it is tried again next pass if its record finds no room. -/
def applyRetire (i : Nat) (s : State) : State :=
  let e := l2At i s
  if l2Expired e s then
    withNote (learnNote e.mac e.fid 3 0 e.target i s.l2.tick) (fun s => l2Stat 2 (l2Replace i {} s)) s
  else s

/-- Answer an operation of window copy `c`: entry concerned, result, not busy, with the stamp found. -/
def l2Answer (c index result : Nat) (s : State) : State :=
  wrC l2tOp_index c index (wrC l2tOp_result c result (wrC l2tOp_busy c 0
    (wrC l2tEntryStamp_stamp c (l2At index s).stamp (wrC l2tEntryStamp_overflow c (b2n (decide (l2Slots ≤ index))) s))))

/-- Whether a host entry's kind and target are defined (R229). -/
def l2FieldsOk (e : L2Entry) : Bool :=
  decide ((e.kind = 0 ∧ e.target ≤ 265) ∨ (e.kind = 1 ∧ e.target < 262144) ∨ (e.kind = 2 ∧ e.target < 4096))

/-- The entry that a host write stores: a dynamic one takes the current tick (L2T.OP), a static one the stamp written, which is 0 (R249). -/
def l2Written (x : L2Entry) (s : State) : L2Entry := if x.isStatic then x else { x with stamp := s.l2.tick }

/-- A host or Bench write by key: results 0 done, 2 no room, 3 refused field, 4 learn limit (L2T.OP). -/
def applyHostWrite (c : Nat) (x : L2Entry) (s : State) : State :=
  let e := l2Written x s
  let old := l2Find e.fid e.mac s
  let same : Bool := match old with
    | some i => decide (l2CountPort (l2At i s) = l2CountPort e)
    | none => false
  let tooMany : Bool := match l2CountPort e with
    | some p => atLimit p s && !same
    | none => false
  if !l2FieldsOk e then l2Answer c 0 3 s
  else if tooMany then l2Answer c 0 4 s
  else match old with
    | some i => l2Answer c i 0 (l2Replace i e s)
    | none => match l2Room e.fid e.mac s with
      | some i => l2Answer c i 0 (l2Replace i e s)
      | none => l2Answer c 0 2 s

/-- A host or Bench delete by key: the answer shows the stamp of the entry found. -/
def applyHostDelete (c fid mac : Nat) (s : State) : State :=
  match l2Find fid mac s with
  | some i => wrC l2tEntryStamp_stamp c (l2At i s).stamp (l2Answer c i 0 (l2Replace i {} s))
  | none => l2Answer c 0 1 s

/-- An entry that cannot be corrected is removed (R522): a dynamic one is notified as aged, if the learning queue takes the record. -/
def applyLost (i : Nat) (s : State) : State :=
  let e := l2At i s
  if !e.bad then s
  else if e.valid && !e.isStatic then noteOnly (learnNote e.mac e.fid 3 0 e.target i s.l2.tick) (l2Replace i {} s)
  else l2Replace i {} s

/-- A change that a forced drain of L2T discards (R121): counted as dropped; a host or Bench operation ends with result 2. -/
def l2Discard (ch : L2Change) (s : State) : State :=
  match ch with
  | .hostWrite c _ | .hostDelete c _ _ => l2Answer c 0 2 (l2Stat 9 s)
  | .learn _ _ _ | .refresh _ _ _ _ | .move _ _ _ _ | .retire _ | .lost _ => l2Stat 9 s

/-- The work that a forced drain of L2T discards. -/
def l2tForced (s : State) : State := foldOver s.l2.queue l2Discard { s with l2 := { s.l2 with queue := [], due := [] } }

/-- Whether the changes of learning are still made (R250): L2T is ON, or completes in DRAINING what is queued. -/
def l2Learns (s : State) : Bool := blockOn .l2t s || (tgt ⟨.l2t, none⟩ s).st == .draining

/-- One change, applied (R231). -/
def applyL2 (ch : L2Change) (s : State) : State :=
  match ch with
  | .learn p fid mac => if l2Learns s then applyLearn p fid mac s else s
  | .refresh i p fid mac => if !l2Learns s then s else if l2Holds i fid mac s then applyRefresh i s else applyLearn p fid mac s
  | .move i p fid mac => if !l2Learns s then s else if l2Holds i fid mac s then applyMove i p fid mac s else applyLearn p fid mac s
  | .retire i => applyRetire i s
  | .hostWrite c e => applyHostWrite c e s
  | .hostDelete c fid mac => applyHostDelete c fid mac s
  | .lost i => applyLost i s

/-- The scanner sends what is due as the update queue has places for it (R231, R238). -/
def feedScan (s : State) : State :=
  let n := 4096 - s.l2.queue.length
  { s with l2 := { s.l2 with queue := s.l2.queue ++ (s.l2.due.take n).map L2Change.retire, due := s.l2.due.drop n } }

/-- L2_UPDATE_APPLY (R231): changes in arrival order, one at a time. -/
def execL2UpdateApply (s : State) : Host.Outcome State Fault Refusal :=
  .next (feedScan (match s.l2.queue with
    | [] => s
    | ch :: rest => applyL2 ch { s with l2 := { s.l2 with queue := rest } }))

/-- Every change queued is applied, in arrival order (R231). -/
def settleL2 (s : State) : State := foldOver s.l2.queue applyL2 { s with l2 := { s.l2 with queue := [] } }

/-- Put a change at the end of the update queue. A host or Bench operation past the queue's 4,096 places waits behind it in the same
list, with busy set (R231). -/
def enqueueL2 (ch : L2Change) (s : State) : State := { s with l2 := { s.l2 with queue := s.l2.queue ++ [ch] } }

/-- Queue a learn or refresh: dropped when the queue is full (R231). -/
def offerL2 (ch : L2Change) (s : State) : State :=
  if s.l2.queue.length < 4096 then enqueueL2 ch s else raise l2tUpdateQueueFull (l2Stat 9 s)

/-- L2_AGING_TICK (R238): the tick count rises and every key may be notified again (R236); while L2T is ON the scanner sends every entry that
is due through the update queue. -/
def l2AgingTick (s : State) : State :=
  let s1 := { s with l2 := { s.l2 with tick := (s.l2.tick + 1) % 4096, recent := [] } }
  if blockOn .l2t s1 then feedScan { s1 with l2 := { s1.l2 with due := (s1.l2.entries.filter (fun e => l2Expired e.2 s1)).map (·.1) } }
  else s1

def execL2AgingTick (s : State) : Host.Outcome State Fault Refusal := .next (l2AgingTick s)

/-- LEARN_TOKEN_GAIN (R236): one token, up to 64. -/
def execLearnTokenGain (s : State) : Host.Outcome State Fault Refusal :=
  .next { s with l2 := { s.l2 with tokensUsed := s.l2.tokensUsed - 1 } }

/-! ### L2T.OP (R231) -/

/-- The key that a window's KEY registers hold. -/
def l2KeyMac (c : Nat) (s : State) : Nat := rdC l2tKeyLo_macLo c s + rdC l2tKeyHi_macHi c s * 2 ^ 32

/-- The entry that a window's KEY and ENTRY_DATA registers spell. -/
def l2KeyEntry (c : Nat) (s : State) : L2Entry :=
  { valid := true, mac := l2KeyMac c s, fid := rdC l2tKeyHi_fid c s, isStatic := decide (rdC l2tEntryData_static c s = 1)
    drop := decide (rdC l2tEntryData_drop c s = 1), target := rdC l2tEntryData_target c s, kind := rdC l2tEntryData_kind c s }

/-- Show an entry in a window's ENTRY_DATA. -/
def l2ShowData (c : Nat) (e : L2Entry) (s : State) : State :=
  wrC l2tEntryData_target c e.target (wrC l2tEntryData_kind c e.kind
    (wrC l2tEntryData_static c (b2n e.isStatic) (wrC l2tEntryData_drop c (b2n e.drop) s)))

/-- Op 1: lookup by key. -/
def l2Lookup (c : Nat) (s : State) : State :=
  match l2Find (rdC l2tKeyHi_fid c s) (l2KeyMac c s) s with
  | some i => l2Answer c i 0 (l2ShowData c (l2At i s) s)
  | none => l2Answer c 0 1 s

/-- Op 4: read by index. -/
def l2ReadIndex (c index : Nat) (s : State) : State :=
  let e := l2At index s
  if l2Total ≤ index ∨ !e.valid ∨ e.bad then l2Answer c index 1 s
  else l2Answer c index 0 (l2ShowData c e (wrC l2tKeyLo_macLo c e.mac (wrC l2tKeyHi_macHi c (e.mac / 2 ^ 32)
    (wrC l2tKeyHi_fid c e.fid s))))

/-- A write of L2T.OP through window copy `c`. -/
def l2OpWrite (w : Window) (v : Word) (s : State) : State :=
  let c := winIdx w
  let op := wordField v 0 3
  if op = 1 then l2Lookup c s
  else if op = 2 then enqueueL2 (.hostWrite c (l2KeyEntry c s)) (wrC l2tOp_busy c 1 s)
  else if op = 3 then enqueueL2 (.hostDelete c (rdC l2tKeyHi_fid c s) (l2KeyMac c s)) (wrC l2tOp_busy c 1 s)
  else if op = 4 then l2ReadIndex c (wordField v 4 20) s
  else accessError w l2tOp_op.off true s

/-- The op field of a written word replaced. -/
def withOp (v : Word) (op : Nat) : Word := wordWith v 0 3 op

def execL2LookupOp (w : Window) (v : Word) (s : State) : Host.Outcome State Fault Refusal :=
  .next (writing w .l2t (l2OpWrite w (withOp v 1)) s)

def execL2WriteOp (w : Window) (v : Word) (s : State) : Host.Outcome State Fault Refusal :=
  .next (writing w .l2t (l2OpWrite w (withOp v 2)) s)

def execL2DeleteOp (w : Window) (v : Word) (s : State) : Host.Outcome State Fault Refusal :=
  .next (writing w .l2t (l2OpWrite w (withOp v 3)) s)

def execL2ReadIndexOp (w : Window) (v : Word) (s : State) : Host.Outcome State Fault Refusal :=
  .next (writing w .l2t (l2OpWrite w (withOp v 4)) s)

/-! ### The LPM trie (R239, R240, R243, R244) -/

/-- The pool size (R239). -/
def lpmPoolSize : Nat := 3145728

/-- A store of numbers that reads 0 where nothing is listed. -/
def zeroDefault : Nat → Nat := fun _ => 0

/-- A pool entry. -/
def poolAt (i : Nat) (s : State) : Nat := sget zeroDefault s.lpm.pool i

/-- The fields of a pool entry (R239). -/
def peResult (e : Nat) : Nat := bitsOf e 0 19
def peValid (e : Nat) : Bool := bit e 19
def peChild (e : Nat) : Nat := bitsOf e 20 22
def peStride (e : Nat) : Nat := bitsOf e 42 4 + 1
def peHasChild (e : Nat) : Bool := bit e 46

/-- `n` bits of an address of `width` bits from bit `pos`, counted from the most significant; bits past the end read 0. -/
def addrBits (addr width pos n : Nat) : Nat := (addr * 2 ^ 16 / 2 ^ (width + 16 - pos - n)) % 2 ^ n

/-- The walk of R240 from an entry: the last result found, and whether it met a node_error. -/
def lpmWalk (s : State) (addr width : Nat) : Nat → Nat → Nat → Option Nat → Option Nat × Bool
  | 0, e, pos, best => (best, peHasChild e && decide (pos < width))
  | n + 1, e, pos, best =>
    if peHasChild e && decide (pos < width) then
      if lpmPoolSize < peChild e + 2 ^ peStride e then (best, true)
      else
        let e2 := poolAt (peChild e + addrBits addr width pos (peStride e)) s
        lpmWalk s addr width n e2 (pos + peStride e) (if peValid e2 then some (peResult e2) else best)
    else (best, false)

/-- A lookup in a VRF (R240): at most 20 reads, the root included. The result is the word of bits [18:0] of R239. -/
def lpmLookup (vrf : Nat) (v6 : Bool) (addr : Nat) (s : State) : Option Nat × Bool :=
  let root := poolAt (2 * vrf + b2n v6) s
  lpmWalk s addr (if v6 then 128 else 32) 19 root 0 (if peValid root then some (peResult root) else none)

/-- Whether a pool entry may be written (R244). -/
def poolEntryOk (e : Nat) : Bool :=
  decide (e < 2 ^ 47) && (!peHasChild e || decide (peChild e + 2 ^ peStride e ≤ lpmPoolSize))

/-- Write a pool entry. -/
def putPool (i e : Nat) (s : State) : State := { s with lpm := { s.lpm with pool := sset zeroDefault s.lpm.pool i e } }

/-- Advance an address register of window copy `c` after a completing write. -/
def autoInc (idx inc : Fld) (c : Nat) (s : State) : State := if rdC inc c s = 1 then wrC idx c (rdC idx c s + 1) s else s

/-- A write of LPM.NODE_DATA_HI (R243, R244). -/
def nodeHiWrite (w : Window) (v : Word) (s : State) : State :=
  let c := winIdx w
  let e := rdC lpmNodeDataLo_data c s + v.toNat * 2 ^ 32
  if !poolEntryOk e ∨ lpmPoolSize ≤ rdC lpmNodeAddr_index c s then accessError w lpmNodeDataHi_data.off true s
  else autoInc lpmNodeAddr_index lpmNodeAddr_autoInc c
    (putPool (rdC lpmNodeAddr_index c s) e (wrC lpmNodeDataHi_data c v.toNat s))

def execNodeDataHiWrite (w : Window) (v : Word) (s : State) : Host.Outcome State Fault Refusal :=
  .next (writing w .lpm (nodeHiWrite w v) s)

/-- A read of LPM.NODE_DATA_LO (R243). -/
def nodeLoad (w : Window) (s : State) : State :=
  let c := winIdx w
  let e := poolAt (rdC lpmNodeAddr_index c s) s
  putRead w (BitVec.ofNat 32 e) (wrC lpmNodeDataLo_data c e (wrC lpmNodeDataHi_data c (e / 2 ^ 32) s))

def execNodeEntryLoad (w : Window) (s : State) : Host.Outcome State Fault Refusal := .next (reading w (nodeLoad w) s)

/-- A write of LPM.FENCE (R243). -/
def lpmFenceWrite (v : Word) (s : State) : State := if wordField v 0 1 = 1 then wr lpmFence_done 0 s else s

def execLpmFence (w : Window) (v : Word) (s : State) : Host.Outcome State Fault Refusal :=
  .next (writing w .lpm (lpmFenceWrite (v ||| 1)) s)

/-- LPM_FENCE_DONE (R243): walks are whole steps of the model, so every earlier walk has finished. -/
def execLpmFenceDone (s : State) : Host.Outcome State Fault Refusal := .next (wr lpmFence_done 1 s)

/-! ### Next hops and ECMP (R245, R247) -/

/-- A next-hop entry as a 128-bit number. -/
def nhAt (i : Nat) (s : State) : Nat := sget zeroDefault s.lpm.nh i

/-- The fields of a next hop (R245). -/
def nhDmac (e : Nat) : Nat := bitsOf e 0 48
def nhVid (e : Nat) : Nat := bitsOf e 48 12
def nhSmac (e : Nat) : Nat := bitsOf e 60 4
def nhDest (e : Nat) : Nat := bitsOf e 64 9
def nhVidReplace (e : Nat) : Bool := bit e 73
def nhRoute (e : Nat) : Bool := bit e 74
def nhValid (e : Nat) : Bool := bit e 75

/-- Whether a next-hop entry may be written (R245). -/
def nhOk (e : Nat) : Bool := decide (nhDest e ≤ 265 ∧ e < 2 ^ 76)

/-- Write a next hop. -/
def putNh (i e : Nat) (s : State) : State := { s with lpm := { s.lpm with nh := sset zeroDefault s.lpm.nh i e } }

/-- A write of LPM.NH_DATA3 (R245). -/
def nhWrite (w : Window) (v : Word) (s : State) : State :=
  let c := winIdx w
  let e := rdC lpmNhData0_data c s + rdC lpmNhData1_data c s * 2 ^ 32 + rdC lpmNhData2_data c s * 2 ^ 64 + v.toNat * 2 ^ 96
  if !nhOk e ∨ 262144 ≤ rdC lpmNhAddr_index c s then accessError w lpmNhData3_data.off true s
  else autoInc lpmNhAddr_index lpmNhAddr_autoInc c (putNh (rdC lpmNhAddr_index c s) e (wrC lpmNhData3_data c v.toNat s))

def execNhData3Write (w : Window) (v : Word) (s : State) : Host.Outcome State Fault Refusal :=
  .next (writing w .lpm (nhWrite w v) s)

/-- A read of LPM.NH_DATA0 (R245). -/
def nhLoad (w : Window) (s : State) : State :=
  let c := winIdx w
  let e := nhAt (rdC lpmNhAddr_index c s) s
  putRead w (BitVec.ofNat 32 e)
    (wrC lpmNhData0_data c e (wrC lpmNhData1_data c (e / 2 ^ 32) (wrC lpmNhData2_data c (e / 2 ^ 64)
      (wrC lpmNhData3_data c (e / 2 ^ 96) s))))

def execNhEntryLoad (w : Window) (s : State) : Host.Outcome State Fault Refusal := .next (reading w (nhLoad w) s)

/-- A group entry (R247): base, size − 1, valid. -/
def ecmpAt (g : Nat) (s : State) : Nat := sget zeroDefault s.lpm.ecmp g
def grBase (e : Nat) : Nat := bitsOf e 0 18
def grSize (e : Nat) : Nat := bitsOf e 18 8 + 1
def grValid (e : Nat) : Bool := bit e 26

/-- Whether a group entry may be written (R247). -/
def groupOk (e : Nat) : Bool := decide (grBase e + grSize e ≤ 262144)

/-- Write a group. -/
def putGroup (g e : Nat) (s : State) : State := { s with lpm := { s.lpm with ecmp := sset zeroDefault s.lpm.ecmp g e } }

/-- Write a member slot. -/
def putMember (i nh : Nat) (s : State) : State := { s with lpm := { s.lpm with member := sset zeroDefault s.lpm.member i nh } }

/-- A write of LPM.ECMP_DATA (R247). -/
def ecmpWrite (w : Window) (v : Word) (s : State) : State :=
  let c := winIdx w
  if !groupOk v.toNat ∨ 16384 ≤ rdC lpmEcmpAddr_index c s then accessError w lpmEcmpData_data.off true s
  else autoInc lpmEcmpAddr_index lpmEcmpAddr_autoInc c
    (putGroup (rdC lpmEcmpAddr_index c s) (wordField v 0 27) (wrC lpmEcmpData_data c v.toNat s))

def execEcmpDataWrite (w : Window) (v : Word) (s : State) : Host.Outcome State Fault Refusal :=
  .next (writing w .lpm (ecmpWrite w v) s)

/-- A write of LPM.MEMBER_DATA (R247). -/
def memberWrite (w : Window) (v : Word) (s : State) : State :=
  let c := winIdx w
  if 262144 ≤ rdC lpmMemberAddr_index c s then accessError w lpmMemberData_data.off true s
  else autoInc lpmMemberAddr_index lpmMemberAddr_autoInc c
    (putMember (rdC lpmMemberAddr_index c s) (wordField v 0 18) (wrC lpmMemberData_data c v.toNat s))

def execMemberDataWrite (w : Window) (v : Word) (s : State) : Host.Outcome State Fault Refusal :=
  .next (writing w .lpm (memberWrite w v) s)

/-- A write of LPM.SMAC_HIi: both words take effect together (R245). -/
def smacHiWrite (i : Nat) (v : Word) (s : State) : State :=
  let s1 := wrX lpmSmacHi_mac i 0 v.toNat s
  let m := rdX lpmSmacLo_mac i 0 s1 + wordField v 0 16 * 2 ^ 32
  { s1 with lpm := { s1.lpm with smac := sset zeroDefault s1.lpm.smac i m } }

def execSmacHiWrite (w : Window) (i : Nat) (v : Word) (s : State) : Host.Outcome State Fault Refusal :=
  guarded (decide (i < 16)) (writing w .lpm (smacHiWrite i v) s)

/-- The source MAC of an index, as in effect. -/
def smacAt (i : Nat) (s : State) : Nat := sget zeroDefault s.lpm.smac i

/-- The member of a group that a load-spread hash chooses (R247). -/
def ecmpMember (e h : Nat) : Nat := grBase e + ((h / 65536 % 65536) * grSize e) / 65536

/-! ### Statistics -/

/-- The STAT registers of L2T, LPM and TMK: offset of register k, and how many. -/
def statOffs (b : Block) : List Nat :=
  match b with
  | .l2t => (List.range 10).map (fun k => l2tStat_count.off + 4 * k) ++ [l2tStat10_count.off]
  | .lpm => (List.range 4).map (fun k => lpmStat_count.off + 4 * k)
  | .tmk => (List.range 5).map (fun k => tmkStat_count.off + 4 * k)
  | _ => []

/-- A write of a STAT_CLEAR register: bit k sets STATk to zero. -/
def statClear (b : Block) (v : Word) (s : State) : State :=
  foldOver ((statOffs b).zip (List.range 11)) (fun e a => if wordField v e.2 1 = 1 then putReg e.1 0 0 a else a) s

def execStatClear (w : Window) (b : Block) (v : Word) (s : State) : Host.Outcome State Fault Refusal :=
  guarded (decide (b = .l2t ∨ b = .lpm ∨ b = .tmk)) (writing w b (statClear b v) s)

/-- Add to an LPM statistic: 0 route_miss, 1 ttl_expired, 2 nh_invalid, 3 node_error. -/
def lpmStat (k : Nat) (s : State) : State := satX lpmStat_count k 0 1 s

/-! ### Commit checks (L2T, LPM register tables) -/

def l2tCheck (s : State) : Option Nat :=
  if rd l2tCfg_missAction s = 3 ∨ rd l2tAgeCfg_tick100ms s = 0 ∨ rd l2tNotifyCfg_rateK s = 0 ∨ 1000 < rd l2tNotifyCfg_rateK s
      ∨ (listedCopies .l2t s.fab.regs).any (fun p => decide (524288 < rdC l2tPortLearn_limit p s))
  then some 2 else none

def lpmCheck (s : State) : Option Nat := if rd lpmCfg_missAction s = 3 then some 2 else none

/-- After an L2T commit (R236): the bucket is full again when rate_k changed. -/
def l2tCommitted (old new : State) : State :=
  if cf l2tNotifyCfg_rateK old ≠ cf l2tNotifyCfg_rateK new then { new with l2 := { new.l2 with tokensUsed := 0 } } else new

/-! ### Blobs 0x0005, 0x0007, 0x0008 (R249) -/

/-- One 16-byte L2 entry of a blob, spelled as R229 lays it out. -/
def l2EntryOf (bs : List Byte) : L2Entry :=
  let x := leAt bs 0 16
  { valid := bit x 60, mac := bitsOf x 0 48, fid := bitsOf x 48 12, isStatic := bit x 61, drop := bit x 62
    target := bitsOf x 64 18, kind := bitsOf x 82 2, stamp := bitsOf x 84 12 }

/-- Load one L2 entry as a host write (R231, R249), or fail: an entry that holds its key is replaced in the same place. -/
def loadL2Entry (e : L2Entry) (o : Option State) : Option State :=
  match o with
  | none => none
  | some s =>
    if !e.valid || !e.isStatic || decide (e.stamp ≠ 0) || !l2FieldsOk e || (e.kind == 1 && !nhValid (nhAt e.target s)) then none
    else match l2Find e.fid e.mac s with
      | some i => some (l2Replace i e s)
      | none => (l2Room e.fid e.mac s).map (fun i => l2Replace i e s)

/-- Whether no two of some entries have one key. -/
def l2KeysDiffer : List L2Entry → Bool
  | [] => true
  | e :: es => !es.any (fun x => x.fid == e.fid && x.mac == e.mac) && l2KeysDiffer es

/-- Blob 0x0005: its entries are applied after the changes already queued (R231). -/
def loadL2Blob (bs : List Byte) (s : State) : Option State :=
  let es := (chunks 16 (bs.length / 16) bs).map l2EntryOf
  if bs.length % 16 ≠ 0 ∨ l2KeysDiffer es = false then none else foldOver es loadL2Entry (some (settleL2 s))

/-- Blob 0x0007. -/
def loadNhBlob (bs : List Byte) (s : State) : Option State :=
  let first := leAt bs 0 4
  let n := leAt bs 4 4
  if bs.length ≠ 8 + 16 * n ∨ 262144 < first + n then none
  else foldOver ((chunks 16 n (bs.drop 8)).zip (List.range n)) (fun e o => match o with
    | none => none
    | some a => if nhOk (leAt e.1 0 16) then some (putNh (first + e.2) (leAt e.1 0 16) a) else none) (some s)

/-- Blob 0x0008: the loader places members in slots of its own, from the lowest free one. -/
def loadEcmp : Nat → List Byte → State → Option State
  | 0, bs, s => if bs = [] then some s else none
  | n + 1, bs, s =>
    if bs = [] then some s
    else
      let g := leAt bs 0 2
      let size := leAt bs 2 2
      let len := (4 + 4 * size + 7) / 8 * 8
      let ms := (List.range size).map (fun i => leAt bs (4 + 4 * i) 4)
      if size = 0 ∨ 256 < size ∨ 16384 ≤ g ∨ bs.length < len ∨ 262144 < s.lpm.memberNext + size
          ∨ ms.any (fun m => decide (262144 ≤ m) || !nhValid (nhAt m s)) then none
      else
        let base := s.lpm.memberNext
        let s1 := foldOver (ms.zip (List.range size)) (fun e a => putMember (base + e.2) e.1 a) s
        loadEcmp n (bs.drop len)
          (putGroup g (base + (size - 1) * 2 ^ 18 + 2 ^ 26) { s1 with lpm := { s1.lpm with memberNext := base + size } })

def loadEcmpBlob (bs : List Byte) (s : State) : Option State := loadEcmp bs.length bs s

/-! ### The route builder (R241, R242) -/

/-- The stride plan of a family (R242). -/
def stridePlan (family : Nat) : List Nat := if family = 0 then [16, 4, 4, 4, 4] else 16 :: List.replicate 14 8

/-- Address width of a family. -/
def famWidth (family : Nat) : Nat := if family = 0 then 32 else 128

/-- Whether a prefix covers an address: their first `len` bits agree. -/
def covered (width len a b : Nat) : Bool := a / 2 ^ (width - len) == b / 2 ^ (width - len)

/-- The route that gives an entry its own result (R241): the longest of those with b < L ≤ b + s that match it. -/
def entryRoute (rs : List Route) (width lo hi addr : Nat) : Option Route :=
  (rs.filter (fun r => decide (lo < r.len ∧ r.len ≤ hi) && covered width r.len r.addr addr)).foldl
    (fun a r => match a with
      | none => some r
      | some x => if x.len < r.len then some r else some x) none

/-- Build the node of stride `st` that serves the bits from `pos` of the addresses that begin as `addr` does, and below it
what the routes need; answers the state, with the node in pool entries from `base`. -/
def buildNode (rs : List Route) (width : Nat) : List Nat → Nat → Nat → Nat → State → State
  | [], _, _, _, s => s
  | st :: plan, pos, addr, base, s =>
    foldOver (List.range (2 ^ st)) (fun i a =>
      let here := addr + i * 2 ^ (width - pos - st)
      let own := match entryRoute rs width pos (pos + st) here with
        | some r => r.result % 2 ^ 19 + 2 ^ 19
        | none => 0
      let below := rs.filter (fun r => decide (pos + st < r.len) && covered width (pos + st) r.addr here)
      match plan, below with
      | st2 :: _, _ :: _ =>
        let child := a.lpm.next
        let a1 := { a with lpm := { a.lpm with next := child + 2 ^ st2 } }
        putPool (base + i) (own + child * 2 ^ 20 + (st2 - 1) * 2 ^ 42 + 2 ^ 46) (buildNode below width plan (pos + st) here child a1)
      | _, _ => putPool (base + i) own a) s

/-- Build the trie of one VRF and family beside the old one and make it live by one write of its root (R242, R243); none when
the pool has no room. -/
def buildVrf (vrf family : Nat) (s : State) : Option State :=
  let rs := s.lpm.routes.filter (fun r => r.vrf == vrf && r.family == family)
  let root := match rs.find? (fun r => r.len == 0) with
    | some r => r.result % 2 ^ 19 + 2 ^ 19
    | none => 0
  let deep := rs.filter (fun r => r.len != 0)
  if deep = [] then some (putPool (2 * vrf + family) root s)
  else
    let base := s.lpm.next
    let s1 := buildNode deep (famWidth family) (stridePlan family) 0 0 base { s with lpm := { s.lpm with next := base + 65536 } }
    if lpmPoolSize < s1.lpm.next then none
    else some (putPool (2 * vrf + family) (root + base * 2 ^ 20 + 15 * 2 ^ 42 + 2 ^ 46) s1)

/-- Build every VRF that has routes again from the bottom of the pool: what the builder does when the free part is used up. -/
def rebuildAll (s : State) : Option State :=
  let keys := (s.lpm.routes.map (fun r => (r.vrf, r.family))).eraseDups
  foldOver keys (fun k o => match o with
    | none => none
    | some a => buildVrf k.1 k.2 a) (some { s with lpm := { s.lpm with next := 8192, pool := sfilter (· < 8192) s.lpm.pool } })

/-- Make one VRF's routes live. -/
def buildRoutes (vrf family : Nat) (s : State) : Option State :=
  match buildVrf vrf family s with
  | some t => some t
  | none => rebuildAll s

/-- Whether a result word names a valid next hop or group (R249). -/
def routeResultOk (x : Nat) (s : State) : Bool :=
  bit x 19 && decide (x < 2 ^ 20) &&
    (if bit x 18 then grValid (ecmpAt (bitsOf x 0 14) s) && decide (bitsOf x 14 4 = 0) else nhValid (nhAt (bitsOf x 0 18) s))

/-- The address of a prefix: the first 4 bytes for IPv4, all 16 for IPv6. -/
def prefixAddr (family : Nat) (bs : List Byte) : Nat := if family = 0 then beAt bs 0 4 else beAt bs 0 16

/-- One 24-byte prefix as a route of a VRF. -/
def routeOf (vrf : Nat) (bs : List Byte) : Route :=
  ⟨vrf, leAt bs 0 1, leAt bs 1 1, prefixAddr (leAt bs 0 1) (bs.drop 8), leAt bs 4 4⟩

/-- Whether a route obeys R249. -/
def routeOk (r : Route) (s : State) : Bool :=
  decide (r.family ≤ 1 ∧ r.len ≤ famWidth r.family ∧ r.addr % 2 ^ (famWidth r.family - r.len) = 0) && routeResultOk r.result s

/-- Same prefix. -/
def samePrefix (a b : Route) : Bool := a.vrf == b.vrf && a.family == b.family && a.len == b.len && a.addr == b.addr

/-- Whether no two of some routes have one prefix. -/
def prefixesDiffer : List Route → Bool
  | [] => true
  | r :: rs => !rs.any (samePrefix r) && prefixesDiffer rs

/-- Blob 0x0006 for a VRF: no prefix stands in it twice, and a prefix of an earlier load takes the new result (R249). -/
def loadRouteBlob (vrf : Nat) (bs : List Byte) (s : State) : Option State :=
  let rs := (chunks 24 (bs.length / 24) bs).map (routeOf vrf)
  if bs.length % 24 ≠ 0 ∨ rs.all (fun r => routeOk r s) = false ∨ prefixesDiffer rs = false then none
  else
    let l := s.lpm.routes.filter (fun a => !rs.any (samePrefix a)) ++ rs
    match buildRoutes vrf 0 { s with lpm := { s.lpm with routes := l } } with
    | none => none
    | some t => buildRoutes vrf 1 t

/-! ### Per-block reset (R250) -/

/-- L2T clears every entry and every learned count; the tick count starts again. -/
def l2tClear (s : State) : State := { s with l2 := {} }

/-- LPM clears the pool, the next hops, the ECMP tables and its registers' values in effect. -/
def lpmClear (s : State) : State := { s with lpm := {} }

end Sys2Proof.Machine
end

