-- ==== Sys2Proof/Machine/Egress.lean ====
section
/-! DEFINITION. After the crossbar: egress edit (R176 to R179, R245, R396), the transmit MAC (R173, R405, R406, R442, R444, R488),
PTP correction (R468 to R475), delivery to the host (R409, R552) and mirror copies (R411). -/

namespace Sys2Proof.Machine

/-! ### The profile of a frame -/

/-- Profile `c` as version v took it. -/
def profileOf (v c : Nat) (s : State) : Profile :=
  { enables := verX prsProfCfg_enables 0 c v s
    prpDetect := decide (verX prsProfCfg_prpDetect 0 c v s = 1)
    tunnelView := decide (verX prsProfCfg_tunnelView 0 c v s = 1)
    portClass := verX prsProfCfg_portClass 0 c v s
    vxlanUdp := verX prsProfPorts_vxlanUdp 0 c v s
    r61850Udp := verX prsProfPorts_r61850Udp 0 c v s
    defaultVid := verX prsProfVlan_defaultVid 0 c v s
    stagTpid := verX prsProfVlan_stagTpid 0 c v s }

/-- The version a frame is stamped with. -/
def frameVer (f : Frame) : Nat := f.version.getD 0

/-- The profile of a frame. -/
def frameProf (f : Frame) (s : State) : Profile := profileOf (frameVer f) f.profile s

/-- The headers of a frame found anew in its bytes, under its profile. -/
def refound (f : Frame) (s : State) : Frame :=
  match parse (frameProf f s) ⟨f.bytes, f.len - 4, f.complete⟩ with
  | .wait => f
  | .done hdrs _ prp => { f with hdrs := hdrs, prp := prp }

/-! ### Egress edit -/

/-- Write a 16-bit word in wire order. -/
def putU16 (bs : List Byte) (o v : Nat) : List Byte := patchBytes bs o (bytesBE 2 v)

/-- Replace one 16-bit word of an IPv4 header, updating the header checksum incrementally. -/
def putIp4 (bs : List Byte) (ip o v : Nat) : List Byte :=
  putU16 (putU16 bs (ip + 10) (csumUpdate (u16 bs (ip + 10)) (u16 bs o) v)) o v

/-- CE (0b11) in the outermost IP header (R396). -/
def markCe (f : Frame) (bs : List Byte) : List Byte :=
  match ipHdr f with
  | none => bs
  | some h =>
    if h.code = 7 then putIp4 bs h.off h.off (u16 bs h.off ||| 3)
    else putU16 bs h.off (u16 bs h.off ||| 0x30)

/-- TTL or Hop Limit reduced by one (R245). -/
def lowerTtl (f : Frame) (bs : List Byte) : List Byte :=
  match ipHdr f with
  | none => bs
  | some h =>
    if h.code = 7 then putIp4 bs h.off (h.off + 8) (u16 bs (h.off + 8) - 256)
    else patchBytes bs (h.off + 7) (bytesBE 1 (byteAt bs (h.off + 7) - 1))

/-- The route part of a next hop (R245): DA, SA and TTL. -/
def routeEdit (f : Frame) (smac : Nat) (bs : List Byte) : List Byte :=
  patchBytes (patchBytes (lowerTtl f bs) 0 (bytesBE 6 (nhDmac f.nhEntry))) 6 (bytesBE 6 smac)

/-- The VID part of a next hop (R245): the outer VID set, or a tag inserted after the source address. -/
def vidEdit (f : Frame) (bs : List Byte) : List Byte :=
  match outerTag f with
  | some h => putU16 bs h.off (u16 bs h.off / 4096 * 4096 + nhVid f.nhEntry)
  | none => bs.take 12 ++ bytesBE 2 0x8100 ++ bytesBE 2 (f.cls * 8192 + nhVid f.nhEntry) ++ bs.drop 12

/-- Whether the rewrite inserts a tag. -/
def insertsTag (f : Frame) (p : EditPlan) : Bool := p.rewrite && nhVidReplace f.nhEntry && (outerTag f).isNone

/-- Zero bytes put where a removed field stood, up to 64 B with the FCS (R179). -/
def padding (n : Nat) : List Byte := List.replicate (60 - n) 0

/-- Remove a PRP trailer: the last six bytes. -/
def cutTrailer (bs : List Byte) : List Byte := bs.take (bs.length - 6) ++ padding (bs.length - 6)

/-- Remove an HSR tag whose header lies at `o`: its EtherType and four bytes. -/
def cutTag (o : Nat) (bs : List Byte) : List Byte := bs.take (o - 2) ++ padding (bs.length - 6) ++ bs.drop (o + 4)

/-- Append a PRP trailer (R176): sequence number, LanId and LSDU size, suffix. `t` tags follow the source address. -/
def addTrailer (t seq side : Nat) (bs : List Byte) : List Byte :=
  bs ++ bytesBE 2 seq ++ bytesBE 2 ((10 + side) * 4096 + (bs.length + 6 - (12 + 4 * t)) % 4096) ++ bytesBE 2 0x88FB

/-- Insert an HSR tag after the last tag (R176): EtherType, PathId and LSDU size, sequence number. -/
def addTag (t seq side netId : Nat) (bs : List Byte) : List Byte :=
  let o := 12 + 4 * t
  bs.take o ++ bytesBE 2 0x892F ++ bytesBE 2 ((netId * 2 + side) * 4096 + (bs.length - o + 4) % 4096) ++ bytesBE 2 seq
    ++ bs.drop o

/-- Redundancy framing of an edit plan. `t` tags follow the source address, and `sh` bytes were inserted before the HSR tag. -/
def redEdit (f : Frame) (p : EditPlan) (t sh : Nat) (bs : List Byte) : List Byte :=
  let o := (match hsrTag f with | some h => h.off | none => 14) + sh
  if p.red = 1 then addTrailer t p.seq p.side bs
  else if p.red = 2 then addTag t p.seq p.side p.netId bs
  else if p.red = 3 then cutTrailer bs
  else if p.red = 4 then cutTag o bs
  else if p.red = 5 then addTag t p.seq p.side p.netId (bs.take (bs.length - 6))
  else if p.red = 6 then addTrailer t p.seq p.side (bs.take (o - 2) ++ bs.drop (o + 4))
  else bs

/-- The bytes of a frame as an output sends them, before the FCS. -/
def outBytes (f : Frame) (e : EgFrame) : List Byte :=
  let b0 := e.patches.foldl (fun b x => patchBytes b x.1 x.2) f.bytes
  let b1 := if f.ecn then markCe f b0 else b0
  let b2 := if e.plan.rewrite && nhRoute f.nhEntry then routeEdit f e.plan.smac b1 else b1
  let b3 := if e.plan.rewrite && nhVidReplace f.nhEntry then vidEdit f b2 else b2
  let n := b2n (insertsTag f e.plan)
  redEdit f e.plan (e.plan.tags + n) (4 * n) b3

/-- The sequence number that a frame's own framing carries. -/
def framedSeq (f : Frame) : Nat :=
  match hsrTag f with
  | some h => u16 f.bytes (h.off + 2)
  | none => u16 f.bytes (f.bytes.length - 6)

/-- The side A port of d's pair. -/
def sideA (d : Nat) (s : State) : Nat := if cfC prtRedCfg_side d s = 0 then d else pairPort d s

/-- Whether an operation gives a new sequence number. -/
def newSeq (op : Nat) : Bool := decide (op = 1 ∨ op = 2)

/-- Take the pair's next sequence number (R177). -/
def takeSeq (d : Nat) (s : State) : Nat × State :=
  (rdC prtRedSeq_seq (sideA d s) s, wrC prtRedSeq_seq (sideA d s) (rdC prtRedSeq_seq (sideA d s) s + 1) s)

/-- Count what was inserted, removed or converted at a port (R179). -/
def countRed (op d : Nat) (s : State) : State :=
  if op = 1 ∨ op = 2 then portCount 12 d 1 s
  else if op = 3 ∨ op = 4 then portCount 13 d 1 s
  else if op = 5 ∨ op = 6 then portCount 14 d 1 s
  else s

/-- Whether insertion makes a frame too long for port d (R179). -/
def redTooLong (f : Frame) (p : EditPlan) (d : Nat) (s : State) : Bool :=
  newSeq p.red && decide (min 9216 (cfC prtPortCfg_maxFrame d s) < f.len + 6 + 4 * b2n (insertsTag f p))

/-- The plan of a frame at destination d, before its sequence number. -/
def editPlan (f : Frame) (d : Nat) (s : State) : EditPlan :=
  { rewrite := bit f.nextHop 31 && !f.mirrorCopy
    smac := smacAt (nhSmac f.nhEntry) s
    red := redOp f d s
    tags := outerTags (frameProf f s) f.bytes 8 12
    seq := framedSeq f
    side := cfC prtRedCfg_side d s
    netId := cfC prtRedCfg_netId d s }

/-- Change the record of frame i at destination d. -/
def modEg (d i : Nat) (g : EgFrame → EgFrame) (s : State) : State :=
  modDest d (fun x => { x with eg := x.eg.map (fun e => if e.id = i then g e else e) }) s

/-- The partner's copy of an edited frame (R177): made from the same cells after the crossbar, it waits in the partner's queue of the same
class. -/
def partnerCopy (i d : Nat) (p : EditPlan) (s : State) : State :=
  match upPartner d s with
  | some q =>
    let pq := { p with side := cfC prtRedCfg_side q s, netId := cfC prtRedCfg_netId q s }
    let bad := redTooLong (frame i s) pq q s
    let e : EgFrame := { id := i, edited := true, dropped := bad, plan := pq }
    if bad then raiseC prtRedOversize q (portCount 15 q 1 (modDest q (fun x => { x with eg := x.eg ++ [e] }) s))
    else countRed p.red q (refreshActive q (frame i s).cls (modDest q (fun x => { x with copies := x.copies ++ [e] }) s))
  | none => s

/-- Edit frame i at destination d. -/
def editFrame (i d : Nat) (s : State) : State :=
  let f := frame i s
  let p0 := editPlan f d s
  if 265 ≤ d ∨ (256 ≤ d ∧ d < 264 ∧ f.steer.isSome) then modEg d i (fun e => { e with edited := true }) s
  else if redTooLong f p0 d s then
    raiseC prtRedOversize d (portCount 15 d 1 (modEg d i (fun e => { e with edited := true, dropped := true }) s))
  else if newSeq p0.red then
    let q := takeSeq d s
    let p := { p0 with seq := q.1 }
    partnerCopy i d p (countRed p.red d (modEg d i (fun e => { e with edited := true, plan := p }) q.2))
  else countRed p0.red d (modEg d i (fun e => { e with edited := true, plan := p0 }) s)

/-- EGRESS_EDIT: the first frame at an output that is not yet edited, once bytes of it have crossed; the transmit buffer of R403 does not
hold the whole of a long frame, so the edit does not wait for its last byte. -/
def egressEdit (d : Nat) (s : State) : State :=
  match (dest d s).eg.find? (fun e => !e.edited) with
  | none => s
  | some e =>
    let f := frame e.id s
    if 0 < f.sent then editFrame e.id d s else s

def execEgressEdit (d : Nat) (s : State) : Host.Outcome State Fault Refusal :=
  guarded (decide (d ≤ 266)) (egressEdit d s)

/-! ### PTP at an egress port (R470 to R475) -/

/-- The PTP header that the rules of the time chapter treat: versionPTP major 2, ending within the first 240 B. -/
def ptpHdr (f : Frame) : Option Nat :=
  match f.hdrs.find? (fun h => h.code == 11) with
  | some h => if byteAt f.bytes (h.off + 1) % 16 = 2 ∧ h.off + 34 ≤ 240 then some h.off else none
  | none => none

/-- Whether the parser found a PTP header at all. -/
def hasPtp (f : Frame) : Bool := f.hdrs.any (fun h => h.code == 11)

/-- Fields of a PTP header at `o`. -/
def ptpType (bs : List Byte) (o : Nat) : Nat := byteAt bs o % 16
def ptpTwoStep (bs : List Byte) (o : Nat) : Bool := bit (byteAt bs (o + 6)) 1
def ptpCorr (bs : List Byte) (o : Nat) : Int := signed 64 (beAt bs (o + 8) 8)
def ptpSeq (bs : List Byte) (o : Nat) : Nat := u16 bs (o + 30)
def ptpDomain (bs : List Byte) (o : Nat) : Nat := byteAt bs (o + 4)

/-- Incremental update of a checksum for a run of replaced bytes at an even place. -/
def csumOver (hc : Nat) : Nat → Nat → List Byte → List Byte → Nat
  | 0, _, _, _ => hc
  | n + 1, o, old, new => csumOver (csumUpdate hc (u16 old o) (u16 new o)) n (o + 2) old new

/-- The UDP checksum patch of R473 for bytes `new` written over `old`, if the PTP header at `ptp` lies in UDP. -/
def udpPatch (f : Frame) (ptp : Nat) (old new : List Byte) : List (Nat × List Byte) :=
  match f.hdrs.find? (fun h => h.code == 14 && h.off + 8 == ptp) with
  | none => []
  | some u =>
    let ip := (f.hdrs.filter (fun h => (h.code == 7 || h.code == 8) && decide (h.off < u.off))).getLast?
    let v4 := (ip.map (fun h => h.code == 7)).getD false
    let hc := u16 f.bytes (u.off + 6)
    if v4 ∧ hc = 0 then []
    else
      let r := csumOver hc ((new.length + 1) / 2) 0 old new
      [(u.off + 6, bytesBE 2 (if r = 0 then 0xFFFF else r))]

/-- Write bytes in a frame with the checksum update; a second run updates the checksum that the first left. -/
def ptpWrite (f : Frame) (ptp o : Nat) (new : List Byte) (ps : List (Nat × List Byte)) : List (Nat × List Byte) :=
  let g := { f with bytes := ps.foldl (fun b x => patchBytes b x.1 x.2) f.bytes }
  ps ++ [(o, new)] ++ udpPatch g ptp (slice g.bytes o new.length) new

/-- A correction field brought to a new value at port d, or to its greatest value with tc_overflow (R475). Of a value below the least one
the spec states nothing: a free value. No register shows the count of tc_overflow. -/
def corrected (x : Int) (d : Nat) (s : State) : List Byte × State :=
  if (2 ^ 63 : Int) ≤ x then (bytesBE 8 0x7FFFFFFFFFFFFFFF, raiseC tsuTcOverflow d { s with tim := { s.tim with tcOver := smod zeroDefault s.tim.tcOver d (· + 1) } })
  else if x < -(2 ^ 63 : Int) then
    let r := takeFree s
    (bytesBE 8 (r.1 % 2 ^ 64), r.2)
  else (bytesBE 8 (unsigned 64 x), s)

/-- Signed value of ASYM of a TSU channel, in 2⁻¹⁶ ns, where asym_en applies (R470). -/
def asymOf (c : Nat) (s : State) : Int :=
  if cfC tsuTsCfg_asymEn c s = 1 then
    signed 32 (cfC tsuAsymHi_value c s) * 65536 + ((cfC tsuAsymLo_frac c s : Nat) : Int) else 0

/-- LINK_DELAY of a TSU channel, in 2⁻¹⁶ ns. -/
def linkDelayOf (c : Nat) (s : State) : Int := ((cfC tsuLinkDelayHi_value c s * 65536 + cfC tsuLinkDelayLo_frac c s : Nat) : Int)

/-- Residence between two stamps in 0.16 ns units, in 2⁻¹⁶ ns, scaled by the rate in force (R469). -/
def residence (a b : Nat) (s : State) : Int :=
  ((b : Int) - (a : Int)) * 16 * 65536 * ((2 ^ 40 : Int) + s.tim.rate) / (100 * (2 ^ 40 : Int))

/-- The residence of a frame up to an egress stamp: on this device and, for a frame that crossed a tie link, before (R512). -/
def residenceOf (f : Frame) (stamp : Nat) (s : State) : Int := f.residence + residence f.raw8 stamp s

/-- The correction of R472 for a frame from a port at egress port d, if any. -/
def tcCorrection (f : Frame) (o d stamp : Nat) (s : State) : Option Int :=
  let mode := cfC tsuTsCfg_tcMode d s
  let ty := ptpType f.bytes o
  let r := residenceOf f stamp s
  let a := if f.overTie then f.tieAsym else asymOf f.inSrc s
  let dl := if f.overTie then f.tieDelay else linkDelayOf f.inSrc s
  if mode = 1 ∧ ty = 0 then some (r + a)
  else if mode = 1 ∧ ty = 1 then some (r - asymOf d s)
  else if mode = 2 ∧ ty = 0 then some (r + dl + a)
  else none

/-- Add to the correction field of frame f (R473, R475), counting into counter k of the port's TSU channel. -/
def correctBy (f : Frame) (o d k : Nat) (x : Int) (ps : List (Nat × List Byte)) (s : State) : List (Nat × List Byte) × State :=
  let c := corrected (ptpCorr f.bytes o + x) d (count tsuCtrs k d 1 s)
  (ptpWrite f o (o + 8) c.1 ps, c.2)

/-- A PTP frame from the host at an egress port: one-step insertion (R474), asymmetry (R470) and the timestamp FIFO (R471). -/
def ptpFromHost (f : Frame) (o d time : Nat) (s : State) : List (Nat × List Byte) × State :=
  let ty := ptpType f.bytes o
  let one := decide (cfC tsuTsCfg_hostOneStep d s = 1) && !ptpTwoStep f.bytes o
  let s1 := if cfC tsuTsCfg_hostCapture d s = 1 ∧ ty ≤ 3 then txStamp d time ty (ptpSeq f.bytes o) (ptpDomain f.bytes o) s else s
  if one ∧ ty = 0 then
    let ps := ptpWrite f o (o + 34) (bytesBE 6 (secOf time) ++ bytesBE 4 (nsOf time)) []
    correctBy f o d 1 (fracOf time) ps s1
  else if one ∧ ty = 3 then
    let rx := mkTime (beAt f.bytes (o + 34) 6) (beAt f.bytes (o + 40) 4) 0
    let ps := ptpWrite f o (o + 34) (List.replicate 10 0) []
    correctBy f o d 1 ((time : Int) - (rx : Int)) ps s1
  else if (ty = 1 ∨ ty = 2) ∧ asymOf d s ≠ 0 then
    let c := corrected (ptpCorr f.bytes o - asymOf d s) d s1
    (ptpWrite f o (o + 8) c.1 [], c.2)
  else ([], s1)

/-- What the egress port does to a PTP frame as it starts (R470 to R475): the bytes it writes. -/
def ptpAtStart (f : Frame) (d stamp time : Nat) (s : State) : List (Nat × List Byte) × State :=
  if !hasPtp f || f.mirrorCopy || !chanOn .tsu d s then ([], s)
  else match ptpHdr f with
    | none => ([], raiseC tsuPtpSkipped d (count tsuCtrs 4 d 1 s))
    | some o =>
      if f.fromHost then ptpFromHost f o d time s
      else if f.inSrc < 256 then
        match tcCorrection f o d stamp s with
        | some x => correctBy f o d 0 x [] s
        | none => ([], s)
      else ([], s)

/-! ### The transmit MAC -/

/-- A frame's record leaves output d; the frame leaves the device when no other output holds it (R208). -/
def leaveEg (i d : Nat) (s : State) : State :=
  let t := refreshActive d (frame i s).cls
    (modDest d (fun x => { x with eg := x.eg.filter (fun e => e.id != i), copies := x.copies.filter (fun e => e.id != i) }) s)
  if t.sw.dests.any (fun x => (x.2.eg ++ x.2.copies).any (fun e => e.id == i)) then t else removeFrame i t

/-- The front record of an output. -/
def frontEg (d : Nat) (s : State) : Option EgFrame := (dest d s).eg.head?

/-- The egress stamp of R173 on the raw count, in 0.16 ns units. -/
def egressStamp (d sub : Nat) (s : State) : Nat :=
  8 * s.tim.raw + sub + (if d < 256 then rdC prtTsDelay_txFixed d s else 0)

/-- A frame's start on a tie link (R488): it takes its credits, or waits and counts credit_stall once. -/
def tieStart (e : EgFrame) (d : Nat) (s : State) : State :=
  let k := d - 256
  let n := cellsFor (frame e.id s).len
  if rdC tieLinkCredits_txCredits k s < n then
    if e.holding then s else count tieCtrs 8 k 1 (modEg d e.id (fun x => { x with holding := true }) s)
  else wrC tieLinkCredits_txCredits k (rdC tieLinkCredits_txCredits k s - n)
    (modEg d e.id (fun x => { x with started := true, holding := false }) s)

/-- A frame's start at a port: held for its gate at the transmit balls (R436, R444), or its PTP bytes written (R473). -/
def portStart (e : EgFrame) (d sub : Nat) (s : State) : State :=
  let f := frame e.id s
  let stamp := egressStamp d sub s
  let time := timeAtEighth s.tim stamp
  if gateEn d s && !gateOpen d f.cls time s then
    if e.holding then s else count tmgDCtrs 3 d 1 (modEg d e.id (fun x => { x with holding := true }) s)
  else
    let r := ptpAtStart f d stamp time s
    modEg d e.id (fun x => { x with
      started := true, holding := false, patches := r.1, startAt := time, gateCls := f.cls, stamp := stamp, sdu := maxSdu d f.cls s }) r.2

/-- The pin-to-pin latency of a frame from a port that leaves port d (R582). -/
def noteLatency (e : EgFrame) (d : Nat) (s : State) : State :=
  let f := frame e.id s
  if f.inSrc < 256 ∧ !f.fromHost ∧ !f.overTie ∧ !f.mirrorCopy then measure 1 d f.cls ((e.stamp - f.raw8) * 16 / 100) s else s

/-- Whether a frame whose last bit leaves port d now does so after its gate has closed (R444). -/
def overran (e : EgFrame) (d : Nat) (s : State) : Bool :=
  e.shut || !openThrough d e.gateCls e.startAt (timeAtEighth s.tim (egressStamp d 0 s)) s

/-- A transmission overrun is counted and raised. -/
def noteOverrun (b : Bool) (d : Nat) (s : State) : State :=
  if b then raiseC tmgTxOverrun d (count tmgDCtrs 2 d 1 s) else s

/-- A frame discarded at the output of a destination that is down (R408). -/
def linkDiscard (i d : Nat) (s : State) : State := leaveEg i d (count swcDCtrs 7 d 1 s)

/-- TX_FRAME_START at port or tie link d, `sub` eighths of a raw count after it began. A partner's copy that waits at a port that is down
is discarded (R408). -/
def txFrameStart (d sub : Nat) (s : State) : State :=
  match frontEg d s with
  | none => match (dest d s).copies with
    | e :: _ => if destUp d s then s else linkDiscard e.id d s
    | [] => s
  | some e =>
    let f := frame e.id s
    if !e.edited ∨ e.started ∨ e.early then s
    else if e.dropped then onlyIf (crossedAll f) (leaveEg e.id d) s
    else if !destUp d s then onlyIf (crossedAll f) (linkDiscard e.id d) s
    else if 256 ≤ d then tieStart e d s
    else portStart e d sub s

def execTxFrameStart (d sub : Nat) (s : State) : Host.Outcome State Fault Refusal :=
  guarded (decide (d < 264 ∧ sub < 8)) (txFrameStart d sub s)

/-- The 64-byte tie descriptor of a frame (R492), leaving device `origin` if it has crossed no link yet. -/
def tieDescriptor (f : Frame) (s : State) : List Byte :=
  let own := rd sysStrapSample_deviceId s
  let origin := if f.overTie then f.origin else own
  let sp := f.steer.getD (0, 0)
  let res := residenceOf f (8 * s.tim.raw) s
  let a := if f.overTie then f.tieAsym else if f.inSrc < 256 then asymOf f.inSrc s else 0
  let dl := if f.overTie then f.tieDelay else if f.inSrc < 256 then linkDelayOf f.inSrc s else 0
  bytesLE 4 (f.version.getD 0) ++ timeBytes f.ts ++ bytesLE 2 f.tsEpoch
    ++ bytesLE 1 (origin + 8 * (f.crossings + 1) + 32 * b2n (f.steer.isNone && f.finalDest.isSome))
    ++ bytesLE 1 f.cls ++ bytesLE 2 f.inSrc ++ bytesLE 2 (f.finalDest.getD 0) ++ bytesLE 4 f.bucket
    ++ bytesLE 1 sp.1 ++ bytesLE 1 sp.2 ++ bytesLE 1 f.exc
    ++ bytesLE 1 (b2n (f.steer.isSome && bit f.actA 6) + 2 * b2n (hasPtp f)) ++ bytesLE 4 f.hash ++ bytesLE 4 f.nextHop
    ++ bytesLE 6 (unsigned 48 res) ++ bytesLE 6 (unsigned 48 a) ++ bytesLE 6 (unsigned 48 dl) ++ List.replicate 6 0

/-- A frame leaves on a tie link (R491): kind 1 for a steered item, kind 2 for any other frame. -/
def tieSend (e : EgFrame) (d : Nat) (s : State) : State :=
  let f := frame e.id s
  let kind := if f.steer.isSome then 1 else 2
  leaveEg e.id d (count tieCtrs 0 (d - 256) 1 (emit (.tieFlits (d - 256) (flitsOf kind (tieDescriptor f s ++ outBytes f e))) s))

/-- Count a frame sent by port d: octets with the FCS. -/
def countTx (d octets : Nat) (s : State) : State := portCount 9 d 1 (portCount 8 d octets s)

/-- A frame's last bit leaves port d: whole, stomped when bad (R405), or ended where it passed its maximum SDU (R442). -/
def portSend (e : EgFrame) (d : Nat) (s : State) : State :=
  let f := frame e.id s
  let tooLong := f.ct && decide (e.sdu < f.len)
  let bs := if tooLong then (outBytes f e).take (e.sdu - 4) else outBytes f e
  let bad := f.ct && f.bad
  let s1 := emit (.frame d bs (bad || tooLong)) (countTx d (bs.length + 4) s)
  let s2 := if tooLong then raiseC tmgSduDrop d (count tmgDCtrs 0 d 1 (portCount 10 d 1 s1))
    else if bad then count swcDCtrs 6 d 1 (portCount 10 d 1 s1) else s1
  leaveEg e.id d (noteLatency e d (noteOverrun (overran e d s) d s2))

/-- TX_FRAME_END at port or tie link d (R173), a frame boundary of the port (R182). -/
def txFrameEnd (d : Nat) (s : State) : State :=
  match frontEg d s with
  | none => s
  | some e =>
    if !crossedAll (frame e.id s) ∨ !(e.started || e.early) then s
    else if e.early then leaveEg e.id d s
    else if !destUp d s then linkDiscard e.id d s
    else if 256 ≤ d then tieSend e d s
    else portSend e d s

def execTxFrameEnd (d : Nat) (s : State) : Host.Outcome State Fault Refusal :=
  let t := txFrameEnd d s
  guarded (decide (d < 264)) (onlyIf (valuesWait d s && decide (d < 256 ∧ frontEg d t ≠ frontEg d s)) (moveLater d) t)

/-- CT_UNDERRUN at port d (R406): the MAC ends a cut-through frame stomped; the rest is discarded as it arrives. -/
def ctUnderrun (d : Nat) (s : State) : State :=
  match frontEg d s with
  | none => s
  | some e =>
    let f := frame e.id s
    if !e.started ∨ e.early ∨ !f.ct ∨ crossedAll f then s
    else
      let bs := outBytes { f with bytes := f.bytes.take (f.sent - 8) } e
      let s1 := emit (.frame d bs true) (countTx d (bs.length + 4) (noteLatency e d (noteOverrun (overran e d s) d s)))
      let s2 := count swcGCtrs 5 0 1 (count swcDCtrs 6 d 1 (portCount 10 d 1 s1))
      raise swcCtUnderrun (modEg d e.id (fun x => { x with early := true }) s2)

def execCtUnderrun (d : Nat) (s : State) : Host.Outcome State Fault Refusal :=
  guarded (decide (d < 256)) (ctUnderrun d s)

/-! ### Delivery to the host and Bench (R221, R409, R552) -/

/-- The value of entry `e` of indirection table `t`. -/
def indAt (t e : Nat) (s : State) : Nat := sget (fun _ => 0) s.ver.ind (4096 * t + e)

/-- The host queue of a frame (R221), as the table stands at delivery. -/
def hostQueue (f : Frame) (s : State) : Nat := indAt (actHostTable f.actA) (f.hash % 4096) s % 64

/-- A queue is delivered to Bench (R552). -/
def toBench (q : Nat) (s : State) : Bool :=
  if q < 32 then bit (cf bncQueueMapLo_map s) q else bit (cf bncQueueMapHi_map s) (q - 32)

/-- A Bench queue. -/
def benchQueue (q : Nat) (s : State) : BenchQueue := sget (fun _ => ({} : BenchQueue)) s.bq q

/-- Store a Bench queue. -/
def putBenchQueue (q : Nat) (x : BenchQueue) (s : State) : State :=
  { s with bq := sset (fun _ => ({} : BenchQueue)) s.bq q x }

/-- A frame for a Bench queue (R552): over the rate or with the queue full it is dropped; a running Bench takes it at once. -/
def benchDeliver (q : Nat) (h : HostFrame) (s : State) : State :=
  let b := benchQueue q s
  if 64 ≤ b.tokensUsed ∨ 4096 ≤ b.frames.length then
    raise bncQueueFull (putBenchQueue q { b with dropped := satAdd b.dropped 1 0xFFFF } s)
  else if benchRunning s then emit (.hostFrame q h.time h.epoch h.exc h.bytes) (putBenchQueue q { b with tokensUsed := b.tokensUsed + 1 } s)
  else putBenchQueue q { b with tokensUsed := b.tokensUsed + 1, frames := b.frames ++ [h] } s

/-- A frame as the host gets it: a Sync or Pdelay_Resp received on a port is corrected by its asymmetry, and a received PTP frame that is not
treated is counted in ptp_skipped (R470). -/
def hostBytes (f : Frame) (e : EgFrame) (s : State) : List Byte × State :=
  match ptpHdr f with
  | some o =>
    let ty := ptpType f.bytes o
    if f.inSrc < 256 ∧ !f.overTie ∧ chanOn .tsu f.inSrc s ∧ (ty = 0 ∨ ty = 3) ∧ asymOf f.inSrc s ≠ 0 then
      let c := corrected (ptpCorr f.bytes o + asymOf f.inSrc s) f.inSrc s
      (outBytes f { e with patches := ptpWrite f o (o + 8) c.1 [] }, c.2)
    else (outBytes f e, s)
  | none =>
    let skipped := hasPtp f && decide (f.inSrc < 256) && !f.overTie && !f.mirrorCopy && chanOn .tsu f.inSrc s
    (outBytes f e, if skipped then raiseC tsuPtpSkipped f.inSrc (count tsuCtrs 4 f.inSrc 1 s) else s)

/-- HOST_DELIVERY: the front frame at output group 33; `free` says that its host queue has a free receive descriptor, of
which it has none while PERST_N is low (R68). -/
def hostDelivery (free : Bool) (s : State) : State :=
  match frontEg 264 s with
  | none => s
  | some e =>
    let f := frame e.id s
    if !e.edited ∨ !crossedAll f then s
    else
      let q := hostQueue f s
      let b := hostBytes f e s
      leaveEg e.id 264
        (if toBench q b.2 then benchDeliver q ⟨f.ts, f.tsEpoch, f.exc, b.1⟩ b.2
         else if free && !b.2.pwr.perstLow then emit (.hostFrame q f.ts f.tsEpoch f.exc b.1) b.2
         else raise swcHostDrop (count swcGCtrs 7 0 1 b.2))

def execHostDelivery (free : Bool) (s : State) : Host.Outcome State Fault Refusal := .next (hostDelivery free s)

/-- BENCH_QUEUE_TOKEN_GAIN (R552): one token, up to 64. -/
def execBenchQueueTokenGain (q : Nat) (s : State) : Host.Outcome State Fault Refusal :=
  guarded (decide (q < 64)) (putBenchQueue q { benchQueue q s with tokensUsed := (benchQueue q s).tokensUsed - 1 } s)

/-- A Bench that begins to run takes what waits in its queues. -/
def drainBenchQueues (s : State) : State :=
  foldOver (s.bq.map (fun e => e.1)) (fun q a =>
    let b := benchQueue q a
    putBenchQueue q { b with frames := [] } (foldOver b.frames (fun h t => emit (.hostFrame q h.time h.epoch h.exc h.bytes) t) a)) s

/-! ### Mirror copies (R411) -/

/-- The copy that output group 35 makes of a frame: whole, or its first 128 B with a new FCS. -/
def mirrorOf (f : Frame) (s : State) : Frame :=
  let cut := decide (cf swcMirrorCfg_trunc s = 1) && decide (132 < f.len)
  { f with
    group := 35
    bytes := if cut then f.bytes.take 128 else f.bytes
    len := if cut then 132 else f.len
    version := none
    dest := cf swcMirrorCfg_dest s
    cls := cf swcMirrorCfg_class s
    req := 35
    freed := 0
    sent := 0
    ct := false
    inVoq := false
    copy := false
    twin := none
    mirrorCopy := true
    finalDest := none
    steer := none
    ecn := false }

/-- A frame's destination is a tie link that it may not cross any more (R494). -/
def loops (f : Frame) : Bool := decide (256 ≤ f.dest ∧ f.dest < 264 ∧ 2 ≤ f.crossings)

/-- A frame that would cross a third tie link has been dropped (R494). -/
def tieLoop (s : State) : State := raise tieTieLoop (count tieGCtrs 7 0 1 s)

/-- MIRROR_COPY: the front frame at output group 35 is copied into new cells and enters its VOQ. -/
def mirrorCopy (s : State) : State :=
  match frontEg 266 s with
  | none => s
  | some e =>
    let f := frame e.id s
    if !crossedAll f then s
    else
      let m := mirrorOf f s
      let t := leaveEg e.id 266 s
      if loops m then tieLoop t
      else if !blockOn .swc t then count swcGCtrs 3 0 1 t
      else match takeCells 35 (cellsFor m.len) t with
        | (none, u) => raise swcMirrorDrop (count swcGCtrs 6 0 1 (emptyResponse 35 u))
        | (some is, u) =>
          let n := newFrame { m with cells := is } u
          voqEnter n.1 none n.2

def execMirrorCopy (s : State) : Host.Outcome State Fault Refusal := .next (mirrorCopy s)

end Sys2Proof.Machine
end

