-- ==== Sys2Proof/Machine/Classify.lean ====
section
/-! DEFINITION. The classifier (R195 to R200, R204), the load-spread hash (R219, R220), the flow key (R254 to R256) and the
lookups of stage 5 (R225 to R234, R240, R246, R247) on a frame in the device. -/

namespace Sys2Proof.Machine

/-! ### Profiles and keys -/

/-- The keys of a frame in a view of its headers. -/
def frameKeys (inner : Bool) (f : Frame) (s : State) : Keys := keysIn inner f.bytes (frameProf f s).defaultVid f.hdrs

/-- Everything a rule compares (R198). -/
structure RuleView where
  keys : Keys
  inSrc : Nat
  length : Nat
  portClass : Nat
  exc : Nat
  misc : Nat
  deriving DecidableEq, Repr

/-- The rule view of a frame: keyed by tunnel_view (R191). -/
def ruleView (f : Frame) (s : State) : RuleView :=
  let p := frameProf f s
  let k := frameKeys p.tunnelView f s
  let red := f.prp || (if p.tunnelView then afterTunnel f.hdrs else f.hdrs).any (fun h => h.code == 4)
  { keys := k, inSrc := f.inSrc, length := f.len, portClass := p.portClass, exc := f.exc % 64
    misc := b2n f.second + 2 * k.pcp + 16 * b2n k.tagged + 32 * b2n k.l4Present + 64 * b2n red
      + 128 * b2n (p.tunnelView && hasTunnel f.hdrs) }

/-! ### Rules (R197, R198, R204) -/

/-- lo ≤ f ≤ hi for a range word with `n`-bit halves. -/
def inRange (w n x : Nat) : Bool := decide (w % 2 ^ n ≤ x ∧ x ≤ w / 65536 % 2 ^ n)

/-- (f XOR value) AND mask = 0. -/
def inMask (value mask x : Nat) : Bool := decide ((x ^^^ value) &&& mask = 0)

/-- A masked field of one byte value and one byte mask at bit `lo` of a word. -/
def maskedByte (w lo x : Nat) : Bool := inMask (bitsOf w lo 8) (bitsOf w (lo + 8) 8) x

/-- The key-type section of rule i. -/
def sectionMatches (h : Half) (i : Nat) (k : Keys) : Bool :=
  let bs := ruleBytes h i
  let ty := bitsOf (ruleWord h i 0) 28 2
  if ty = 0 then inMask (beAt bs 0x30 6) (beAt bs 0x36 6) k.macDa && inRange (ruleWord h i 15) 12 k.innerVid
  else if ty = 1 then
    decide (k.ipVer = 4) && inMask (beAt bs 0x30 4) (beAt bs 0x34 4) k.ipSrc && inMask (beAt bs 0x38 4) (beAt bs 0x3C 4) k.ipDst
  else if ty = 2 then
    let b2 := ruleBytes h (i + 1)
    decide (k.ipVer = 6) && inMask (beAt bs 0x30 16) (beAt b2 0x04 16) k.ipSrc
      && inMask (beAt b2 0x14 16) (beAt b2 0x24 16) k.ipDst
  else false

/-- Whether rule i matches (R197). -/
def ruleMatches (h : Half) (i : Nat) (v : RuleView) : Bool :=
  let w (k : Nat) : Nat := ruleWord h i k
  bit (w 0) 31 && inRange (w 3) 9 v.inSrc && inRange (w 4) 12 v.keys.vid && inRange (w 5) 14 v.length
    && inRange (w 6) 16 v.keys.l4Src && inRange (w 7) 16 v.keys.l4Dst
    && inMask (w 8 % 65536) (w 8 / 65536) v.keys.etherType && maskedByte (w 9) 0 v.portClass && maskedByte (w 9) 16 v.keys.proto
    && maskedByte (w 10) 0 v.keys.dscp && maskedByte (w 10) 16 v.keys.tcpFlags
    && maskedByte (w 11) 0 v.exc && maskedByte (w 11) 16 v.misc && sectionMatches h i v.keys

/-- What a search answered: an action, or that it reached a poisoned rule (R523). -/
inductive Found where
  | act (a b : Nat)
  | poisoned
  deriving DecidableEq, Repr

/-- Whether a rule is poisoned, in either of its places where it is a double rule (R523). -/
def rulePoisoned (h : Half) (i : Nat) : Bool := h.poisoned.contains i || (bit (ruleWord h i 0) 30 && h.poisoned.contains (i + 1))

/-- Test rules in order; the first that matches or is poisoned decides. -/
def testRules (h : Half) (v : RuleView) (dflt : Found) : List Nat → Found
  | [] => dflt
  | i :: is =>
    if rulePoisoned h i then .poisoned
    else if ruleMatches h i v then .act (ruleWord h i 1) (ruleWord h i 2) else testRules h v dflt is

/-- A key field by its code in a decision tree (R203). -/
def treeField (v : RuleView) (code : Nat) : Nat :=
  match code with
  | 0 => v.inSrc | 1 => v.keys.vid | 2 => v.length | 3 => v.keys.l4Src | 4 => v.keys.l4Dst | 5 => v.keys.etherType
  | 6 => v.portClass | 7 => v.keys.proto | 8 => v.keys.dscp | 9 => v.keys.tcpFlags | 10 => v.exc | 11 => v.misc
  | 12 => v.keys.macDa | 13 => v.keys.innerVid | 14 => v.keys.ipSrc | _ => v.keys.ipDst

/-- The leaf that a search reaches from node i (R204). -/
def treeLeaf (h : Half) (v : RuleView) : Nat → Nat → Nat
  | 0, i => i
  | n + 1, i =>
    let x := nodeAt h i
    if ndKind x = 0 then treeLeaf h v n (ndChild x + bitsOf (treeField v (ndField x)) (ndLo x) (ndBits x)) else i

/-- Insert into a rising list of rule places. -/
def insertRising (k : Nat) : List Nat → List Nat
  | [] => [k]
  | a :: l => if k < a then k :: a :: l else if k = a then a :: l else a :: insertRising k l

/-- Classify a frame in the version it is stamped with. -/
def classify (f : Frame) (s : State) : Found :=
  let v := frameVer f
  let h := half v s
  let dflt := Found.act (verX clsDefaultA_action 0 0 v s) (verX clsDefaultB_action 0 0 v s)
  let rv := ruleView f s
  if h.mode = 0 then
    testRules h rv dflt ((h.poisoned.filter (fun i => decide (i < h.count))).foldl (fun l k => insertRising k l) (listedRules h))
  else testRules h rv dflt (leafRules (nodeAt h (treeLeaf h rv 16 h.root)))

/-! ### The action (R199, R200) -/

def actClass (a : Nat) : Nat := bitsOf a 0 3
def actClassSet (a : Nat) : Bool := bit a 3
def actDrop (a : Nat) : Bool := bit a 4
def actToHost (a : Nat) : Bool := bit a 5
def actMirror (a : Nat) : Bool := bit a 6
def actRecirc (a : Nat) : Bool := bit a 7
def actProgram (a : Nat) : Nat := bitsOf a 8 8
def actKeyProfile (a : Nat) : Nat := bitsOf a 16 4
def actHashProfile (a : Nat) : Nat := bitsOf a 20 3
def actMeter (b : Nat) : Nat := bitsOf b 0 14
def actMeterEn (b : Nat) : Bool := bit b 14
def actCounter (b : Nat) : Nat := bitsOf b 15 11
def actCountEn (b : Nat) : Bool := bit b 26

/-- The class of a frame (R200). -/
def classOf (f : Frame) (a : Nat) (s : State) : Nat :=
  let v := frameVer f
  let k := frameKeys (frameProf f s).tunnelView f s
  let scada := match k.port with
    | some p => decide (p = verX clsScadaPorts_port0 0 0 v s ∨ p = verX clsScadaPorts_port1 0 0 v s)
    | none => false
  if actClassSet a then actClass a
  else if f.hdrs.any (fun h => h.code == 12 || h.code == 13) then 7
  else if f.hdrs.any (fun h => h.code == 11) then 6
  else if scada then 5
  else if k.tagged then min k.pcp 4 else 0

/-! ### Hash and key (R219, R220, R254 to R256) -/

/-- One field of n bytes, if its bit is selected. -/
def fieldIf (fields i n x : Nat) : List Byte := if bit fields i then bytesBE n x else []

/-- A pair in order: the smaller member first when symmetric. -/
def pairOf (sym : Bool) (x y : Nat) : Nat × Nat := if sym && decide (y < x) then (y, x) else (x, y)

/-- The bytes that the load-spread hash runs over (R220). -/
def hashInput (fields : Nat) (sym : Bool) (k : Keys) (inSrc : Nat) : List Byte :=
  let m := pairOf sym k.macDa k.macSa
  let ip := pairOf sym k.ipSrc k.ipDst
  let l4 := pairOf sym k.l4Src k.l4Dst
  fieldIf fields 0 2 inSrc ++ fieldIf fields 1 6 m.1 ++ fieldIf fields 2 6 m.2 ++ fieldIf fields 3 2 k.vid
    ++ fieldIf fields 4 2 k.etherType ++ fieldIf fields 5 16 ip.1 ++ fieldIf fields 6 16 ip.2 ++ fieldIf fields 7 1 k.proto
    ++ fieldIf fields 8 2 l4.1 ++ fieldIf fields 9 2 l4.2 ++ fieldIf fields 10 4 k.flowLabel

/-- The load-spread hash of a frame under a hash profile of its version (R219, R220). -/
def spreadHash (f : Frame) (hp : Nat) (s : State) : Nat :=
  let v := frameVer f
  let k := frameKeys (decide (verX clsHashProf_inner hp 0 v s = 1)) f s
  crc32cSeed 3 (hashInput (verX clsHashProf_fields hp 0 v s) (decide (verX clsHashProf_symmetric hp 0 v s = 1)) k f.inSrc)

/-- The flow key of a frame under key profile kp (R254). -/
def flowKey (f : Frame) (kp : Nat) (s : State) : List Byte :=
  let fields := cfC fltKeyProf_fields kp s
  let sym := decide (cfC fltKeyProf_symmetric kp s = 1)
  let k := frameKeys (decide (cfC fltKeyProf_inner kp s = 1)) f s
  let m := pairOf sym k.macDa k.macSa
  let ip := pairOf sym k.ipSrc k.ipDst
  let l4 := pairOf sym k.l4Src k.l4Dst
  let bs := bytesBE 1 kp ++ fieldIf fields 0 1 (frameProf f s).portClass ++ fieldIf fields 1 2 f.inSrc
    ++ fieldIf fields 2 2 k.vid ++ fieldIf fields 3 2 k.innerVid ++ fieldIf fields 4 6 m.1 ++ fieldIf fields 5 6 m.2
    ++ fieldIf fields 6 2 k.etherType ++ fieldIf fields 7 16 ip.1 ++ fieldIf fields 8 16 ip.2 ++ fieldIf fields 9 1 k.proto
    ++ fieldIf fields 10 2 l4.1 ++ fieldIf fields 11 2 l4.2 ++ fieldIf fields 12 4 k.flowLabel
  slice bs 0 48

/-- The key fields that a frame has (R255), as bits. -/
def presentFields (f : Frame) (kp : Nat) (s : State) : Nat :=
  let inner := decide (cfC fltKeyProf_inner kp s = 1)
  let hs := if inner then afterTunnel f.hdrs else f.hdrs
  let has (cs : List Nat) : Bool := hs.any (fun h => cs.contains h.code)
  let two := decide (2 ≤ (hs.filter (fun h => h.code == 2 || h.code == 3)).length)
  0x77 + 8 * b2n two + (128 + 256 + 512) * b2n (has [7, 8]) + 1024 * b2n (has [14, 15, 16])
    + 2048 * b2n (has [11, 12, 13, 14, 15, 16]) + 4096 * b2n (has [8])

/-- Whether a frame lacks a required field (R255). -/
def keyMissing (f : Frame) (kp : Nat) (s : State) : Bool :=
  decide (cfC fltKeyProf_required kp s &&& presentFields f kp s ≠ cfC fltKeyProf_required kp s)

/-- Bits of a bucket index (R256). -/
def bucketBits (s : State) : Nat :=
  match s.variant with
  | .kg4256 => 27
  | .kg4128 => 26

/-- The bucket index and digest of a key (R256). -/
def bucketOfKey (key : List Byte) (s : State) : Nat := crc32cSeed 1 key % 2 ^ bucketBits s
def digestOfKey (key : List Byte) : Nat := crc32cSeed 2 key + crc32cSeed 1 key / 2 ^ 24 * 2 ^ 32

/-! ### Exceptions (R194 to R196) -/

def prsCtrs : CtrSet := ⟨prsExcCntLo_count.off, prsCntWrap, true⟩

/-- An occurrence of an exception class (R196): counted in the frame's profile, its source asserted on the profile's channel. -/
def excOccurs (e : Nat) (f : Frame) (s : State) : State :=
  raiseC (prsExcClass e) f.profile (count prsCtrs e f.profile 1 s)

/-- Policy of exception class e under a frame's profile: flow or plain (R195). -/
def excPolicy (e : Nat) (flow : Bool) (f : Frame) (s : State) : Nat :=
  bitsOf (sget regReset (half (frameVer f) s).cfg (rkey prsExcPolicy_plain0.off f.profile)).toNat (4 * e + 2 * b2n flow) 2

/-- The policy that a set of exception bits takes: drop, then to host, then forward (R195). -/
def excChoice (bits : Nat) (flow : Bool) (f : Frame) (s : State) : Nat :=
  let ps := ((List.range 8).filter (fun e => bit bits e)).map (fun e => excPolicy e flow f s)
  if ps.contains 1 then 1 else if ps.contains 2 then 2 else 0

/-! ### Stage 5 (R225 to R230, R240, R246, R247) -/

/-- The result of stage 5: a destination with its next hop, or a drop. -/
inductive Lookup where
  | to (dest nextHop nhEntry : Nat)
  | drop
  deriving DecidableEq, Repr

/-- The TTL or Hop Limit of a frame's outermost IP header. -/
def ttlOf (f : Frame) : Option Nat :=
  match ipHdr f with
  | some h => some (if h.code = 7 then byteAt f.bytes (h.off + 8) else byteAt f.bytes (h.off + 7))
  | none => none

/-- A next hop read for a frame (R246). -/
def nextHopRead (nh : Nat) (f : Frame) (s : State) : Lookup × State :=
  let e := nhAt nh s
  if !nhValid e then (.drop, raise lpmNhInvalid (lpmStat 2 s))
  else
    let expired := match ttlOf f with
      | some t => nhRoute e && decide (t ≤ 1)
      | none => false
    if expired then
      (if cf lpmCfg_ttlHost s = 1 then .to 264 0 0 else .drop, raise lpmTtlExpired (lpmStat 1 s))
    else (.to (nhDest e) (2 ^ 31 + nh) e, s)

/-- A miss action: 0 drop, 1 host, 2 a next hop. -/
def missAction (act nh : Nat) (f : Frame) (s : State) : Lookup × State :=
  if act = 0 then (.drop, s) else if act = 1 then (.to 264 0 0, s) else nextHopRead nh f s

/-- The L2 miss action (R230). -/
def l2Miss (f : Frame) (s : State) : Lookup × State := missAction (cf l2tCfg_missAction s) (cf l2tCfg_missNh s) f (l2Stat 6 s)

/-- The IP header of a frame after its tags, HSR tag and R-TAG (R230). -/
def routedHdr (f : Frame) : Option Hdr :=
  match (f.hdrs.dropWhile (fun h => decide (h.code ≤ 5))).head? with
  | some h => if h.code = 7 ∨ h.code = 8 then some h else none
  | none => none

/-- Steps 3 to 5 of R225 in a VRF. -/
def routeLookup (vrf : Nat) (h : Hdr) (f : Frame) (s : State) : Lookup × State :=
  let v6 := decide (h.code = 8)
  let addr := if v6 then beAt f.bytes (h.off + 24) 16 else beAt f.bytes (h.off + 16) 4
  let r := if blockOn .lpm s then lpmLookup vrf v6 addr s else (none, false)
  let s1 := if r.2 then raise lpmTrieError (lpmStat 3 s) else s
  match r.1 with
  | none => missAction (cf lpmCfg_missAction s1) (cf lpmCfg_missNh s1) f (lpmStat 0 s1)
  | some x =>
    if bit x 18 then
      let g := ecmpAt (bitsOf x 0 14) s1
      if grValid g then nextHopRead (sget zeroDefault s1.lpm.member (ecmpMember g f.hash) % 2 ^ 18) f s1
      else (.drop, raise lpmNhInvalid (lpmStat 2 s1))
    else nextHopRead (bitsOf x 0 18) f s1

/-- The fid of a frame (R225): the VLAN ID of its outer frame. -/
def fidOf (f : Frame) (s : State) : Nat :=
  if cf l2tCfg_svl s = 1 then 0
  else match outerTag f with
    | some h => u16 f.bytes h.off % 4096
    | none => (frameProf f s).defaultVid

/-- The L2 lookup of a key while L2T is ON (R250). -/
def l2Seen (fid mac : Nat) (s : State) : Option Nat := if blockOn .l2t s then l2Find fid mac s else none

/-- Steps 2 to 5 of R225. -/
def destLookup (f : Frame) (s : State) : Lookup × State :=
  match l2Seen (fidOf f s) (beAt f.bytes 0 6) s with
  | none => l2Miss f s
  | some i =>
    let e := l2At i s
    if e.drop then (.drop, l2Stat 7 s)
    else if e.kind = 0 then (.to e.target 0 0, s)
    else if e.kind = 1 then nextHopRead e.target f s
    else match routedHdr f with
      | some h => routeLookup (e.target % 4096) h f s
      | none => l2Miss f s

/-! ### Learning (R232 to R236) -/

/-- Whether a frame's source address may be learned (R232). -/
def learnable (f : Frame) (s : State) : Bool :=
  blockOn .l2t s && decide (f.group < 32) && !f.second && !f.overTie && decide (beAt f.bytes 6 6 ≠ 0) && !bit (byteAt f.bytes 6) 0
    && decide (cfC l2tPortLearn_mode f.inSrc s ≠ 0)

/-- Whether a refused learn drops the frame on a port (R234). -/
def limitDrops (p : Nat) (s : State) : Bool := decide (cfC l2tPortLearn_limit p s ≠ 0 ∧ cfC l2tPortLearn_limitDrop p s = 1)

/-- Step 1 of R225: the SA result, held whole for the tail (R232), with the fid looked up. `saHit` says that sa_da_drop is still to be
counted for the source: a frame whose destination entry drops it too is counted once, there (R229). `saDrop` has the frame wait for its
tail, since its source may have it dropped. -/
def sourceLookup (i : Nat) (s : State) : State :=
  let f := frame i s
  if 32 ≤ f.group ∨ f.second ∨ f.overTie then s
  else
    let fid := fidOf f s
    let hit := l2Seen fid (beAt f.bytes 6 6) s
    let e := match hit with | some k => l2At k s | none => {}
    let sa := if !learnable f s then 0 else if hit.isNone then 1 else if l2Own e f.inSrc then 2 else if e.isStatic then 4 else 3
    let mode := cfC l2tPortLearn_mode f.inSrc s
    let secure := decide (mode = 3 ∧ (sa = 1 ∨ sa = 3 ∨ sa = 4))
    let limited := decide (mode = 1 ∧ (sa = 1 ∨ sa = 3)) && limitDrops f.inSrc s
    let daDrop := match l2Seen fid (beAt f.bytes 0 6) s with | some k => (l2At k s).drop | none => false
    putFrame i { f with sa := sa, saIdx := hit.getD 0, saFid := fid, saHit := hit.isSome && e.drop && !daDrop
                        saDrop := secure || limited || (hit.isSome && e.drop), saBad := hit.isSome && e.drop } s

/-- A learn whose refusal drops its frame: the frame waits for it, so the changes before it are applied and then it is (R231, R234); the
Bool says that the limit refused it. -/
def learnNow (p fid mac : Nat) (s : State) : Bool × State :=
  (learnRefused p fid mac (settleL2 s), applyLearn p fid mac (settleL2 s))

/-- What learning does on a frame whose last byte arrived good, while L2T is ON (R233, R234, R250); the Bool says that it drops the
frame. DEDUCED: a static entry seen on another port counts in static_move alone. -/
def learnFrom (f : Frame) (s : State) : Bool × State :=
  let fid := f.saFid
  let mac := beAt f.bytes 6 6
  let p := f.inSrc
  let mode := cfC l2tPortLearn_mode p s
  let tick := s.l2.tick
  let index := if f.sa = 1 then 0xFFFFF else f.saIdx
  if !blockOn .l2t s then (false, s)
  else if f.sa = 2 then (false, if (l2At f.saIdx s).stamp = tick then s else offerL2 (.refresh f.saIdx p fid mac) s)
  else if f.sa = 4 then (decide (mode = 3), if mode = 0 then s else staticMove f.saIdx p fid mac s)
  else if mode = 1 then
    (if f.saDrop && limitDrops p s then learnNow p fid mac s
     else (false, offerL2 (if f.sa = 1 then .learn p fid mac else .move f.saIdx p fid mac) s))
  else if mode = 2 then
    (false, if f.sa = 1 then noteOnce fid mac (learnNote mac fid 4 p 0 index tick) s
      else noteOnly (learnNote mac fid 2 p (l2At f.saIdx s).target index tick) s)
  else if mode = 3 then
    (true, noteOnce fid mac (learnNote mac fid 5 p 0 index tick) (raise l2tSecureViolation (l2Stat 8 s)))
  else (false, s)

/-- The SA result takes effect on frame i, which has arrived whole and good; the Bool says that the frame is dropped. -/
def learnAtTail (i : Nat) (s : State) : Bool × State :=
  let f := frame i s
  let r := if f.sa = 0 then (false, s) else learnFrom f s
  (f.saBad || (f.saDrop && r.1), modFrame i (fun f => { f with sa := 0, saHit := false }) (if f.saHit then l2Stat 7 r.2 else r.2))

end Sys2Proof.Machine
end

