-- ==== Sys2Proof/Machine/Fsm.lean ====
section
/-! DEFINITION. Entering FAULT and forcing a drain in the common state machine (R121): the parts that a unit's own effects use. -/

namespace Sys2Proof.Machine

/-- EVT.FAULT_LOG takes the first FAULT entry (kind 0) or forced drain (kind 1) since it was emptied. -/
def faultLog (t : Target) (kind : Nat) (s : State) : State :=
  if rd evtFaultLog_valid s = 1 then s
  else
    let n := normTarget t
    wr evtFaultLog_valid 1 (wr evtFaultLog_kind kind (wr evtFaultLog_whole (b2n n.chan.isNone)
      (wr evtFaultLog_channel (n.chan.getD 0) (wr evtFaultLog_blockCode (blockCode t.block) s))))

/-- A target enters FAULT with a fault code (R121). -/
def enterFault (t : Target) (code : Nat) (s : State) : State :=
  raise evtBlockFault (faultLog t 0 (modTgt t (fun x => { x with st := .fault, faultCode := code }) s))

/-- A target's drain is forced (R121). -/
def noteForced (t : Target) (s : State) : State :=
  raise evtDrainForced (faultLog t 1 (modTgt t (fun x => { x with drainForced := true }) s))

/-- A target enters STARTING (R121). -/
def enterStarting (t : Target) (s : State) : State :=
  modTgt t (fun x => { x with st := .starting, faultCode := 0, starts := (x.starts + 1) % 256 }) s

end Sys2Proof.Machine
end

