-- ==== Sys2Proof/Machine/HbmStack.lean ====
section
/-! DEFINITION. A fault of an HBM stack (R524) and the stack temperatures (R292): what the flow table's reads and the HBM commands share. -/

namespace Sys2Proof.Machine

/-- Hallmark stops Bench (R524, R558). -/
def stopBench (s : State) : State := raise bncBenchStopped (wr bncStatus_state 4 s)

/-- ERR_LOG takes the first uncorrectable error since it was cleared. -/
def logError (store addr : Nat) (allocated : Bool) (s : State) : State :=
  if rd scrErrLogHi_valid s = 1 then s
  else wr scrErrLogLo_addr (addr % 2 ^ 32) (wr scrErrLogHi_addrHi (addr / 2 ^ 32) (wr scrErrLogHi_store store
    (wr scrErrLogHi_allocated (b2n allocated) (wr scrErrLogHi_valid 1 s))))

/-- A read of a store, by the scrubber or in the foreground, meets an error that is corrected, or one that is not (R517, R520). -/
def eccCorrected (store : Nat) (s : State) : State := raise scrEccCorrected (satX scrEccCorr_count 0 store 1 s)
def eccUncorrectable (store addr : Nat) (allocated : Bool) (s : State) : State :=
  raise scrEccUncorrectable (logError store addr allocated (satX scrEccUncorr_count 0 store 1 s))

/-- Stack k enters FAULT with code 0x10 or 0x11 (R524): Bench is stopped and a record is written. -/
def hbmStackFault (k code : Nat) (s : State) : State :=
  if (tgt ⟨.hbm, some k⟩ s).st = .fault then s
  else
    stopBench (enterFault ⟨.hbm, some k⟩ code (writeRec 7 4 (blockCode .hbm) (recChan (some k)) (bytesLE 1 k ++ bytesLE 1 code) s))

/-- Raw counts in one second (R449). -/
def rawSecond : Nat := 781250000

/-- An uncorrectable read of stack k joins its history; more than 64 within 1 s put the stack in FAULT (R524). -/
def noteStackError (k : Nat) (s : State) : State :=
  let old := (sget (fun _ => []) s.recov.unc k).filter (fun r => decide (s.tim.raw - r < rawSecond))
  let h := s.tim.raw :: old
  let t := { s with recov := { s.recov with unc := sset (fun _ => []) s.recov.unc k (h.take 65) } }
  if 64 < h.length then hbmStackFault k 0x10 t else t

/-- HBM_STACK_TEMPERATURE: above 85 °C the refresh is doubled (R524), each crossing raising refresh_2x; rising above 95 °C raises
temp_high (R292). -/
def stackTemperature (k temp : Nat) (s : State) : State :=
  let t := wrC hbmStackStatus_tempC k (min temp 255) s
  let hot := decide (85 < temp)
  let t1 := if rdC hbmStackStatus_refresh2x k t = b2n hot then t
    else raiseC hbmRefresh2x k (wrC hbmStackStatus_refresh2x k (b2n hot) t)
  let high := decide (95 < temp)
  let t2 := { t1 with recov := { t1.recov with hot := if high then setBit t1.recov.hot k else clearBit t1.recov.hot k } }
  if high && !t1.recov.hot.testBit k then raiseC hbmTempHigh k t2 else t2

def execHbmStackTemperature (k temp : Nat) (s : State) : Host.Outcome State Fault Refusal :=
  guarded (decide (k < 4)) (onlyIf (!isFused .hbm k s && decide (s.pwr.hold = .none)) (stackTemperature k temp) s)

end Sys2Proof.Machine
end

