-- ==== Sys2Proof/Machine/FlowStore.lean ====
section
/-! DEFINITION. The flow table's storage (R253, R257 to R281): records, buckets, the overflow store, record indices, the flow cache,
retiring and export. -/

namespace Sys2Proof.Machine

/-! ### Regions (R253) -/

/-- Records of the device (R253). -/
def recordCount (s : State) : Nat := 2 ^ bucketBits s

/-- Bucket base and the base of the reserved region (R253). -/
def bucketBase (s : State) : Nat :=
  match s.variant with
  | .kg4256 => 0x400000000
  | .kg4128 => 0x200000000
def reservedBase (s : State) : Nat :=
  match s.variant with
  | .kg4256 => 0x600000000
  | .kg4128 => 0x300000000

/-- The stack of an HBM address (R253). -/
def stackOf (a : Nat) (s : State) : Nat :=
  match s.variant with
  | .kg4256 => a / 256 % 4
  | .kg4128 => a / 256 % 2

def hbmRead (a n : Nat) (s : State) : List Byte := memRead s.flow.hbm a n
def hbmWrite (a : Nat) (bs : List Byte) (s : State) : State := { s with flow := { s.flow with hbm := memWrite s.flow.hbm a bs } }
def recAddr (i : Nat) : Nat := 128 * i
def bucketAddr (b : Nat) (s : State) : Nat := bucketBase s + 64 * b

/-- An uncorrectable HBM read at an address (R278, R292). -/
def hbmUncorrectable (a : Nat) (s : State) : State :=
  let k := stackOf a s
  noteStackError k (raiseC hbmEccUncorrectable k
    (wrC hbmErrAddrHi_valid k 1 (wrC hbmErrAddrHi_addrHi k (a / 2 ^ 32) (wrC hbmErrAddrLo_addr k (a % 2 ^ 32)
      (satX hbmEccUncorr_count 0 k 1 s)))))

/-! ### Slots (R257, R258, R269) -/

def slDigest (x : Nat) : Nat := bitsOf x 88 40
def slRec (x : Nat) : Nat := bitsOf x 61 27
def slStamp (x : Nat) : Nat := bitsOf x 41 20
def slProg (x : Nat) : Nat := bitsOf x 30 8
/-- The state of a slot; the undefined codes count as empty (R258). -/
def slState (x : Nat) : Nat := if bitsOf x 38 3 < 5 then bitsOf x 38 3 else 0
/-- The bucket of an overflow entry (R269). -/
def slBucket (x : Nat) : Nat := bitsOf x 0 27
/-- A slot that matches lookups: valid or pinned. -/
def slLive (x : Nat) : Bool := decide (slState x = 1 ∨ slState x = 4)

/-- A slot word; `low` is the bucket of an overflow entry, 0 in a bucket. -/
def mkSlot (digest recIndex stamp state prog low : Nat) : Nat :=
  (digest % 2 ^ 40) * 2 ^ 88 + (recIndex % 2 ^ 27) * 2 ^ 61 + (stamp % 2 ^ 20) * 2 ^ 41 + (state % 8) * 2 ^ 38
    + (prog % 256) * 2 ^ 30 + low % 2 ^ 27

/-- Slot k of bucket b. -/
def slotAt (b k : Nat) (s : State) : Nat := leNat (hbmRead (bucketAddr b s + 16 * k) 16 s)
/-- Overflow entry e. -/
def ovfAt (e : Nat) (s : State) : Nat := sget zeroDefault s.flow.ovf e
/-- A place of bucket b: slot 0 to 3, or 4 + overflow entry. -/
def placeAt (b p : Nat) (s : State) : Nat := if p < 4 then slotAt b p s else ovfAt (p - 4) s

/-- Entries of the overflow store (R269), and those that put it at 90 %. -/
def ovfTotal : Nat := 1048576
def ovfMark : Nat := 943719

/-- Write an overflow entry, raising ovf_high when the store reaches 90 % (R290). -/
def putOvf (e x : Nat) (s : State) : State :=
  let t := { s with flow := { s.flow with ovf := sset zeroDefault s.flow.ovf e x } }
  if s.flow.ovf.length < ovfMark ∧ ovfMark ≤ t.flow.ovf.length then raise fltOvfHigh t else t

/-- Write a place: a bucket in one 64-byte operation (R272), or an overflow entry. -/
def putPlace (b p x : Nat) (s : State) : State :=
  if p < 4 then hbmWrite (bucketAddr b s + 16 * p) (bytesLE 16 x) s else putOvf (p - 4) x s

/-- The key of a place among reservations. -/
def placeKey (b p : Nat) : Nat := if p < 4 then 4 * b + p else 2 ^ 40 + (p - 4)

/-- The overflow entries of bucket b that match lookups, lowest first (R269). -/
def ovfOf (b : Nat) (s : State) : List Nat :=
  (s.flow.ovf.filter (fun e => e.1 / 64 == b % 16384 && slBucket e.2 == b && slLive e.2)).map (fun e => e.1)

/-- Every overflow entry of bucket b. -/
def ovfAll (b : Nat) (s : State) : List Nat :=
  (s.flow.ovf.filter (fun e => e.1 / 64 == b % 16384 && slBucket e.2 == b)).map (fun e => e.1)

def fltCtrs : CtrSet := ⟨fltCntLo_count.off, fltCntWrap, false⟩
def fchCtrs : CtrSet := ⟨fchCntLo_count.off, fchCntWrap, false⟩

/-- Count a FLT counter. -/
def fltCount (i : Nat) (s : State) : State := count fltCtrs i 0 1 s

/-- Read a bucket: slots in an undefined state count bucket_error (R258). -/
def readBucket (b : Nat) (s : State) : State :=
  foldOver [0, 1, 2, 3] (fun k a => if 5 ≤ bitsOf (slotAt b k a) 38 3 then raise fltBucketError (fltCount 14 a) else a) s

/-- The lowest place of bucket b that is neither occupied nor reserved (R266): a slot, else an entry of its overflow row. -/
def freePlace (b : Nat) (s : State) : Option Nat :=
  let free (p : Nat) : Bool := decide (slState (placeAt b p s) = 0) && !s.flow.reserved.contains (placeKey b p)
  match [0, 1, 2, 3].find? free with
  | some p => some p
  | none => ((List.range 64).map (fun j => 4 + 64 * (b % 16384) + j)).find? free

/-! ### Records (R259) -/

def rcKey (r : List Byte) : List Byte := slice r 0 48
def rcProgram (r : List Byte) : Nat := leAt r 0x30 1
def rcProfile (r : List Byte) : Nat := leAt r 0x31 1 % 16
def rcGen (r : List Byte) : Nat := leAt r 0x32 1
def rcHit (r : List Byte) : Nat := leAt r 0x34 4 % 2 ^ 20
def rcOwner (r : List Byte) : Nat := leAt r 0x38 2
def rcPackets (r : List Byte) : Nat := leAt r 0x70 8
def rcOctets (r : List Byte) : Nat := leAt r 0x78 8

/-- A new record (R259, R264). -/
def newRecord (key : List Byte) (prog kp gen hit owner : Nat) (pstate : List Byte) (packets octets : Nat) : List Byte :=
  slice key 0 48 ++ bytesLE 1 prog ++ bytesLE 1 (kp % 16) ++ bytesLE 1 gen ++ [0] ++ bytesLE 4 (hit % 2 ^ 20) ++ bytesLE 2 owner
    ++ List.replicate 6 0 ++ slice pstate 0 48 ++ bytesLE 8 packets ++ bytesLE 8 octets

/-- A record with its last_hit set. -/
def withHit (r : List Byte) (tick : Nat) : List Byte := patchBytes r 0x34 (bytesLE 4 (tick % 2 ^ 20))

/-- The tick count (R267). -/
def tickNow (s : State) : Nat := rd fltTickNow_tick s

/-! ### The flow cache (R275 to R277) -/

/-- The set of a bucket (R275). -/
def cacheSet (b : Nat) : Nat := b % 32768

/-- Change the lines of the cache. -/
def putCache (l : List Line) (s : State) : State := { s with flow := { s.flow with cache := l } }

/-- The line that holds a record. -/
def lineOf (i : Nat) (s : State) : Option Line := s.flow.cache.find? (fun l => l.recIndex == i)

/-- Change the line that holds a record. -/
def modLine (i : Nat) (f : Line → Line) (s : State) : State :=
  putCache (s.flow.cache.map (fun l => if l.recIndex = i then f l else l)) s

/-- Invalidate the line of a record without write-back. -/
def dropLine (i : Nat) (s : State) : State := putCache (s.flow.cache.filter (fun l => l.recIndex != i)) s

/-- Make a record's line the most recently used. -/
def touchLine (i : Nat) (s : State) : State :=
  putCache (s.flow.cache.filter (fun l => l.recIndex == i) ++ s.flow.cache.filter (fun l => l.recIndex != i)) s

/-- The line that stands for a record: none while FCH is not ON, when every access goes to HBM (R277). -/
def cachedLine (i : Nat) (s : State) : Option Line := if blockOn .fch s then lineOf i s else none

/-- The record at index i as its latest holder has it: the cache line, else HBM. -/
def recordAt (i : Nat) (s : State) : List Byte :=
  match cachedLine i s with
  | some l => l.data
  | none => hbmRead (recAddr i) 128 s

/-- Write back one line (R276). -/
def writeBack (l : Line) (s : State) : State := count fchCtrs 3 0 1 (hbmWrite (recAddr l.recIndex) l.data s)

/-- Write back every dirty line (R277). -/
def writeBackAll (s : State) : State :=
  putCache (s.flow.cache.map (fun l => { l with dirty := false }))
    (foldOver (s.flow.cache.filter (fun l => l.dirty)) writeBack s)

/-- The lines of a set. -/
def setLines (b : Nat) (s : State) : List Line := s.flow.cache.filter (fun l => cacheSet l.bucket == cacheSet b)

/-- Whether a set can take one more line: it has fewer than 16, or one that is not locked. -/
def setHasRoom (b : Nat) (s : State) : Bool :=
  decide ((setLines b s).length < 16) || (setLines b s).any (fun l => !l.locked)

/-- Make room in a set: replace the least recently used unlocked line (R276). -/
def evictFor (b : Nat) (s : State) : State :=
  if (setLines b s).length < 16 then s
  else match ((setLines b s).filter (fun l => !l.locked)).getLast? with
    | none => s
    | some l =>
      let t := count fchCtrs 2 0 1 (dropLine l.recIndex s)
      if l.dirty then writeBack l t else t

/-- Install a line as the most recently used. -/
def installLine (l : Line) (s : State) : State :=
  let t := evictFor l.bucket s
  putCache (l :: t.flow.cache) t

/-- Write bytes of a record where it now belongs: its line, which is dirty from then on (R276), or HBM. -/
def storeRecord (i : Nat) (r : List Byte) (s : State) : State :=
  match cachedLine i s with
  | some _ => modLine i (fun l => { l with data := r, dirty := true }) s
  | none => hbmWrite (recAddr i) r s

/-! ### Record indices (R273, R274) -/

/-- The generation after g: 1 to 255, wrapping past 0. -/
def nextGen (g : Nat) : Nat := g % 255 + 1

/-- Indices that remain. -/
def remaining (s : State) : Nat :=
  (recordCount s - s.flow.hwm) + s.flow.pool.length + s.flow.chain.length + s.flow.holds.length

/-- Take a record index with its generation; none when none is available now. -/
def takeIndex (s : State) : Option (Nat × Nat × State) :=
  let low (t : State) : State := if 65536 ≤ remaining s ∧ remaining t < 65536 then raise fltPoolLow t else t
  if s.flow.hwm < recordCount s then
    some (s.flow.hwm, 1, low { s with flow := { s.flow with hwm := s.flow.hwm + 1 } })
  else match s.flow.pool with
    | (i, g) :: rest => some (i, nextGen g, low { s with flow := { s.flow with pool := rest } })
    | [] => none

/-- A freed index is held for 100 µs (R274). -/
def freeIndex (i g : Nat) (s : State) : State :=
  wr fltUsage_count (rd fltUsage_count s - 1) { s with flow := { s.flow with holds := s.flow.holds ++ [(i, g, s.tim.raw)] } }

/-- A spill or refill takes HBM from the unallocated margin (R29, R282, R292). -/
def marginUsed (i : Nat) (s : State) : State := raiseC hbmMarginUsed (stackOf (recAddr i) s) s

/-- A full pool spills a freed index to the chain in HBM: a 64-byte write to the record, of a form that is not given (R273). -/
def spillIndex (i g : Nat) (s : State) : State :=
  let r := (List.range 8).foldl (fun (a : List Byte × State) _ =>
    let x := takeFree a.2
    (a.1 ++ bytesLE 8 x.1, x.2)) ([], s)
  marginUsed i (hbmWrite (recAddr i) r.1 { r.2 with flow := { r.2.flow with chain := (i, g) :: r.2.flow.chain } })

/-- The pool's size (R273). -/
def poolMax : Nat := 65536

/-- An index whose reservation is released returns to the pool, or the chain, with the generation it had before (R264, R273). -/
def returnIndex (i g : Nat) (s : State) : State :=
  let b := if g = 1 then 255 else g - 1
  if s.flow.pool.length < poolMax then { s with flow := { s.flow with pool := (i, b) :: s.flow.pool } } else spillIndex i b s

/-- INDEX_HOLD_EXPIRE: the index freed first has been held for 100 µs and joins the pool, or the chain. -/
def holdExpire (s : State) : State :=
  match s.flow.holds with
  | [] => s
  | (i, g, _) :: rest =>
    let t := { s with flow := { s.flow with holds := rest } }
    if t.flow.pool.length < poolMax then { t with flow := { t.flow with pool := t.flow.pool ++ [(i, g)] } } else spillIndex i g t

def execIndexHoldExpire (s : State) : Host.Outcome State Fault Refusal := .next (holdExpire s)

/-- POOL_REFILL: the pool takes one index back from the chain (R273). -/
def poolRefill (s : State) : State :=
  match s.flow.chain with
  | [] => s
  | (i, g) :: rest =>
    if s.flow.pool.length < poolMax then
      marginUsed i { s with flow := { s.flow with pool := s.flow.pool ++ [(i, g)], chain := rest } }
    else s

def execPoolRefill (s : State) : Host.Outcome State Fault Refusal := .next (poolRefill s)

/-! ### Promotion and emptying (R270) -/

/-- Promote the lowest overflow entry of bucket b into its freed slot p. -/
def promote (b p : Nat) (s : State) : State :=
  match ovfOf b s with
  | [] => s
  | e :: _ =>
    let x := ovfAt e s
    let t := putPlace b p (mkSlot (slDigest x) (slRec x) (slStamp x) (slState x) (slProg x) 0) s
    fltCount 8 (putOvf e 0 (modLine (slRec x) (fun l => { l with pos := p }) t))

/-- Empty a place; a freed slot takes an overflow entry. -/
def emptyPlace (b p : Nat) (s : State) : State :=
  let t := putPlace b p 0 s
  if p < 4 then promote b p t else t

/-! ### Export and retire (R279 to R281) -/

/-- Places of the export queue that are free (R279). -/
def exportFree (s : State) : Nat := 8192 - s.flow.exportQ.length

/-- The export record of record bytes r at index i of bucket b (R281). -/
def exportRecord (b i reason : Nat) (r : List Byte) (s : State) : List Byte :=
  rcKey r ++ slice r 0x70 16 ++ bytesLE 1 (rcProgram r) ++ bytesLE 1 reason ++ bytesLE 1 (rcProfile r) ++ bytesLE 1 (rcGen r)
    ++ bytesLE 4 i ++ bytesLE 4 b ++ bytesLE 4 (rcHit r) ++ bytesLE 4 (secOf (timeNow s)) ++ bytesLE 4 (nsOf (timeNow s))
    ++ bytesLE 2 s.tim.epoch ++ bytesLE 2 (rcOwner r) ++ bytesLE 1 (b2n (reason = 4)) ++ List.replicate 34 0 ++ [1]

/-- Build an export record for the ring that dest names; with dest 0 it is discarded (R279). -/
def buildExport (b i reason : Nat) (r : List Byte) (s : State) : State :=
  let d := cf fltExportCfg_dest s
  if d = 0 then s
  else { s with flow := { s.flow with exportQ := s.flow.exportQ ++ [(d, exportRecord b i reason r s)] } }

/-- Whether an export record can be built now. -/
def exportRoom (s : State) : Bool := decide (cf fltExportCfg_dest s = 0) || decide (0 < exportFree s)

/-- End a retire: the place is emptied, the line invalidated, the index freed. -/
def retireEnd (b p i g : Nat) (s : State) : State := freeIndex i g (emptyPlace b p (dropLine i s))

/-- What a retire counts and raises by its reason (R268, R278). -/
def retireCount (reason : Nat) (s : State) : State :=
  if reason = 4 then raise fltRecordPoisoned (fltCount 4 s)
  else if reason = 1 ∨ reason = 2 ∨ reason = 3 then fltCount reason s
  else s

/-- Retire record i with bytes r from place p of bucket b (R279, R280). -/
def retireWith (b p i reason : Nat) (r : List Byte) (noExport : Bool) (s0 : State) : State :=
  let s := retireCount reason s0
  let g := rcGen r
  if noExport then retireEnd b p i g s
  else if exportRoom s then retireEnd b p i g (buildExport b i reason r s)
  else if s.flow.retiring.length < 65536 then
    let x := placeAt b p s
    let t := putPlace b p (withBits x 38 3 2) (modLine i (fun l => { l with leaving := true, data := r, dirty := true }) s)
    let u := match cachedLine i s with
      | some _ => t
      | none => hbmWrite (recAddr i) r t
    raise fltExportWaiting (fltCount 11 { u with flow := { u.flow with retiring := u.flow.retiring ++ [⟨b, p, i, reason, false⟩] } })
  else raise fltExportLost (fltCount 12 (retireEnd b p i g s))

/-- Retire the record at a place. -/
def retire (b p i reason : Nat) (noExport : Bool) (s : State) : State := retireWith b p i reason (recordAt i s) noExport s

/-- What is left of a record that cannot be corrected (R278): the spec states no content for it, so the bytes are free values;
the program id is the slot's (R257). -/
def lostRecord (prog : Nat) (s : State) : List Byte × State :=
  let r := (List.range 16).foldl (fun (a : List Byte × State) _ =>
    let x := takeFree a.2
    (a.1 ++ bytesLE 8 x.1, x.2)) ([], s)
  (patchBytes r.1 0x30 (bytesLE 1 prog), r.2)

/-- Record i at place p of bucket b cannot be corrected: it is retired with reason 4. -/
def poisonRecord (b p i : Nat) (s : State) : State :=
  let r := lostRecord (slProg (placeAt b p s)) s
  retireWith b p i 4 r.1 false r.2

/-- Bucket b cannot be read (R278). -/
def poisonBucket (b : Nat) (s : State) : State :=
  let s1 := raise fltBucketPoisoned (fltCount 13 (hbmUncorrectable (bucketAddr b s) s))
  let s2 := hbmWrite (bucketAddr b s1) (List.replicate 64 0) s1
  let s3 := foldOver (ovfAll b s2) (fun e a => if slLive (ovfAt e a) then retire b (4 + e) (slRec (ovfAt e a)) 5 false a else a) s2
  putCache (s3.flow.cache.filter (fun l => l.bucket != b)) s3

/-- Overflow entry e cannot be corrected (R278). -/
def poisonOvf (e : Nat) (s : State) : State :=
  let t := raise fltBucketPoisoned (fltCount 13 (putOvf e 0 s))
  putCache (t.flow.cache.filter (fun l => l.pos != 4 + e)) t

/-! ### Errors that a foreground read meets (R278, R517, R520) -/

/-- The stack's count of a corrected error at an HBM address. -/
def hbmCorrected (a : Nat) (s : State) : State := raiseC hbmEccCorrected (stackOf a s) (satX hbmEccCorr_count 0 (stackOf a s) 1 s)

/-- A bucket, the overflow row of a bucket, or a record or its line, is read with an error that is corrected. -/
def bucketCorrected (b : Nat) (s : State) : State := hbmCorrected (bucketAddr b s) (eccCorrected 0 s)
def overflowCorrected (s : State) : State := eccCorrected 4 s
def recordCorrected (i : Nat) (s : State) : State := hbmCorrected (recAddr i) (eccCorrected 0 s)
def lineCorrected (s : State) : State := raise fchEccCorrected (count fchCtrs 5 0 1 (eccCorrected 2 s))

/-- A bucket or an overflow entry is read and cannot be corrected. -/
def bucketBad (b : Nat) (s : State) : State := poisonBucket b (eccUncorrectable 0 (bucketAddr b s) false s)
def overflowBad (e : Nat) (s : State) : State := poisonOvf e (eccUncorrectable 4 (16 * e) false s)

/-- A record read from HBM cannot be corrected: what is counted and logged. -/
def recordBad (i : Nat) (s : State) : State := hbmUncorrectable (recAddr i) (eccUncorrectable 0 (recAddr i) false s)

/-- A cache line cannot be corrected: what is counted and logged. The spec places no line within its store, so the address logged is a
free value. -/
def lineBad (s : State) : State :=
  let x := takeFree s
  raise fchEccUncorrectable (count fchCtrs 6 0 1 (eccUncorrectable 2 x.1 false x.2))

/-- What the errors of bucket b and of its overflow row do. -/
def bucketErrors (b : Nat) (err : LookupErr) (s : State) : State :=
  match err with
  | .bucket => bucketBad b s
  | .overflow e => if slState (ovfAt e s) ≠ 0 ∧ e / 64 = b % 16384 then overflowBad e s else s
  | .corrected => bucketCorrected b s
  | .overflowCorrected => overflowCorrected s
  | .none | .record _ | .line | .recordCorrected _ | .lineCorrected => s

/-! ### Lookup (R262, R263) -/

/-- What a lookup found: status (0 HIT, 1 MISS, 2 POISON), record index, place, record bytes. -/
structure Found3 where
  status : Nat := 1
  recIndex : Nat := 0
  pos : Nat := 0
  data : List Byte := []
  deriving DecidableEq, Repr

/-- The line that step 3 of R262 finds while FCH is ON. -/
def cacheHit (b d : Nat) (key : List Byte) (s : State) : Option Line :=
  if blockOn .fch s then
    s.flow.cache.find? (fun l => l.bucket == b && l.digest == d && !l.leaving && rcKey l.data == key)
  else none

/-- The candidate places of steps 5 and 6: slots whose digest matches, then overflow entries when all four slots are occupied. -/
def candidates (b d : Nat) (s : State) : List Nat :=
  let hit (p : Nat) : Bool := slLive (placeAt b p s) && decide (slDigest (placeAt b p s) = d)
  let full := [0, 1, 2, 3].all (fun p => decide (slState (slotAt b p s) ≠ 0))
  [0, 1, 2, 3].filter hit ++ (if full then ((ovfOf b s).map (fun e => 4 + e)).filter hit else [])

/-- Read candidate records in order until a key is equal, with the error of the read after `n` others. -/
def readRecords (b : Nat) (key : List Byte) (err : LookupErr) : Nat → List Nat → State → Found3 × State
  | _, [], s => ({}, s)
  | n, p :: ps, s =>
    let i := slRec (placeAt b p s)
    let s1 := if n = 0 then s else fltCount 7 s
    if err = .record n then
      ({ status := 2 }, poisonRecord b p i (recordBad i (if blockOn .fch s1 then count fchCtrs 7 0 1 s1 else s1)))
    else
      let s2 := if err = .recordCorrected n then recordCorrected i s1 else s1
      let r := recordAt i s2
      if rcKey r = key then ({ status := 0, recIndex := i, pos := p, data := r }, s2)
      else readRecords b key err (n + 1) ps s2

/-- Steps 4 to 6 of R262. -/
def hbmLookup (b d : Nat) (key : List Byte) (err : LookupErr) (s : State) : Found3 × State :=
  let t := readBucket b (bucketErrors b err s)
  readRecords b key err 0 (candidates b d t) t

/-- A lookup of a key under its tag, with what cannot be corrected in it. -/
def flowFind (b d : Nat) (key : List Byte) (err : LookupErr) (s : State) : Found3 × State :=
  match cacheHit b d key s with
  | none => hbmLookup b d key err (if blockOn .fch s then count fchCtrs 1 0 1 s else s)
  | some l =>
    if err = .line then
      let s1 := lineBad s
      if l.dirty then ({ status := 2 }, poisonRecord b l.pos l.recIndex s1)
      else hbmLookup b d key .none (dropLine l.recIndex s1)
    else ({ status := 0, recIndex := l.recIndex, pos := l.pos, data := l.data },
      touchLine l.recIndex (count fchCtrs 0 0 1 (if err = .lineCorrected then lineCorrected s else s)))

/-! ### Creation (R264, R266) -/

/-- The outcome of a create request on a key that is not there: result 3 or 4, or the reserved index, generation and place. -/
def reserveCreate (b : Nat) (s : State) : Nat × Option (Nat × Nat × Nat) × State :=
  match freePlace b s with
  | none => (3, none, raise fltCreateFull (fltCount 5 s))
  | some p =>
    match takeIndex s with
    | none => (4, none, raise fltCreateNoRecord (fltCount 6 s))
    | some (i, g, t) =>
      (0, some (i, g, p), { t with flow := { t.flow with reserved := placeKey b p :: t.flow.reserved } })

/-- A created record takes its place (R266). -/
def placeRecord (b d p i prog : Nat) (pinned : Bool) (r : List Byte) (s : State) : State :=
  let s1 := { s with flow := { s.flow with reserved := s.flow.reserved.filter (· != placeKey b p) } }
  let low := if p < 4 then 0 else b
  let s2 := putPlace b p (mkSlot d i (tickNow s1) (if pinned then 4 else 1) prog low) s1
  let s3 := fltCount 0 (wr fltUsage_count (rd fltUsage_count s2 + 1) s2)
  if blockOn .fch s3 && setHasRoom b s3 then
    installLine { bucket := b, digest := d, recIndex := i, pos := p, data := r, dirty := true } s3
  else hbmWrite (recAddr i) r s3

/-- A create that is abandoned releases what it reserved (R264). -/
def releaseCreate (b p i g : Nat) (s : State) : State :=
  returnIndex i g { s with flow := { s.flow with reserved := s.flow.reserved.filter (· != placeKey b p) } }

/-- Where record i of bucket b is, if a slot or overflow entry that matches lookups names it. -/
def findPlace (b i : Nat) (s : State) : Option Nat :=
  (([0, 1, 2, 3] ++ (ovfOf b s).map (fun e => 4 + e))).find? (fun p =>
    slLive (placeAt b p s) && decide (slRec (placeAt b p s) = i))

/-- Set the state of a slot: pin or unpin (R264). -/
def setPinned (b i : Nat) (pin : Bool) (s : State) : State :=
  match findPlace b i s with
  | some p => putPlace b p (withBits (placeAt b p s) 38 3 (if pin then 4 else 1)) s
  | none => s

/-! ### Views and resets -/

/-- FLT and FCH registers that show the store. -/
def flowView (off : Nat) (s : State) : Option Nat :=
  if off = fltOvfUsage_count.off then some s.flow.ovf.length
  else if off = fltAllocHwm_count.off then some s.flow.hwm
  else if off = fltPoolLevel_count.off then some s.flow.pool.length
  else if off = fltExportStatus_queued.off then some (s.flow.exportQ.length + 65536 * min 65535 s.flow.retiring.length)
  else if off = fchOccupancy_lines.off then some s.flow.cache.length
  else if off = fchDirty_lines.off then some (s.flow.cache.filter (fun l => l.dirty)).length
  else if off = fchLocked_lines.off then some (s.flow.cache.filter (fun l => l.locked)).length
  else none

/-- A per-block reset of FLT (R289): every bucket, the overflow store, the pool and the flow cache are emptied. -/
def flowReset (s : State) : State :=
  { s with flow := { s.flow with
      hbm := sfilter (fun a => decide (a < bucketBase s ∨ reservedBase s ≤ a)) s.flow.hbm
      ovf := [], cache := [], hwm := 0, pool := [], holds := [], chain := [], reserved := [], exportQ := [], retiring := [] } }

end Sys2Proof.Machine
end

