-- ==== Sys2Proof/Machine/Items.lean ====
section
/-! DEFINITION. The dispatchers (R329 to R347): admission, tags, selection, prefetch, cancels, transfer; and who owns an entry of the
owner map (R497), since ownership steers items. -/

namespace Sys2Proof.Machine

/-! ### Ownership (R34, R497) -/

/-- This device's DEVICE_ID. -/
def selfId (s : State) : Nat := rd sysStrapSample_deviceId s

/-- Entry e of the owner map. -/
def ownEntry (e : Nat) (s : State) : OwnEntry := sget (fun _ => ({} : OwnEntry)) s.mesh.own e

/-- Store an entry of the owner map. -/
def putOwn (e : Nat) (x : OwnEntry) (s : State) : State :=
  { s with mesh := { s.mesh with own := sset (fun _ => ({} : OwnEntry)) s.mesh.own e x } }

/-- The device that owns entry e: the one the map names, else the manager the mesh formed under, else this device. -/
def ownerDevice (e : Nat) (s : State) : Nat := (ownEntry e s).owner.getD (s.mesh.former.getD (selfId s))

/-- Whether this device owns a bucket's flows. -/
def ownsBucket (b : Nat) (s : State) : Bool := decide (ownerDevice (b % 4096) s = selfId s)

/-- Whether items of entry e park here until the owner move ends (R498 step 3). -/
def ownParks (e : Nat) (s : State) : Bool :=
  (ownEntry e s).moving && !(ownEntry e s).settled && decide (ownerDevice e s = selfId s)

/-! ### Steering (R16) -/

/-- The cluster that an entry of the flow-steering table names (R16, R217). -/
def steerTo (e : Nat) (s : State) : Nat := indAt (steerTable s) e s % 32

/-- The fence of a steering entry (R348). -/
def fence (e : Nat) (s : State) : Fence := sget (fun _ => ({} : Fence)) s.dsp.fences e

/-- Store a fence. -/
def putFence (e : Nat) (x : Fence) (s : State) : State :=
  { s with dsp := { s.dsp with fences := sset (fun _ => ({} : Fence)) s.dsp.fences e x } }

/-- Whether items of entry e park because its fence is open past step 1. -/
def fenceParks (e : Nat) (s : State) : Bool := decide (2 ≤ (fence e s).phase)

/-! ### Items of a cluster -/

/-- Cluster c's dispatcher. -/
def cluster (c : Nat) (s : State) : Cluster := sget (fun _ => ({} : Cluster)) s.dsp.clusters c

/-- Store a cluster. -/
def putCluster (c : Nat) (x : Cluster) (s : State) : State :=
  { s with dsp := { s.dsp with clusters := sset (fun _ => ({} : Cluster)) s.dsp.clusters c x } }

/-- Change a cluster. -/
def modCluster (c : Nat) (f : Cluster → Cluster) (s : State) : State := putCluster c (f (cluster c s)) s

/-- The items of a cluster, in arrival order. -/
def items (c : Nat) (s : State) : List Item := (cluster c s).items

/-- The item with a sequence number. -/
def itemAt (c q : Nat) (s : State) : Option Item := (items c s).find? (fun i => i.seq == q)

/-- Change an item. -/
def modItem (c q : Nat) (f : Item → Item) (s : State) : State :=
  modCluster c (fun x => { x with items := x.items.map (fun i => if i.seq = q then f i else i) }) s

/-- A frame item (R329 kind 0). -/
def Item.isFrame (i : Item) : Bool := decide (i.op = .frame)

/-- Admitted and not yet selected. -/
def Item.waits (i : Item) : Bool := decide (i.stage = .ready ∨ i.stage = .parked)

/-- Started (R338). -/
def Item.isRunning (i : Item) : Bool := decide (i.stage = .running)

/-- The ready-list occupancy (R340), and that of one class. -/
def occupancy (c : Nat) (s : State) : Nat := ((items c s).filter (fun i => i.isFrame && i.waits)).length
def classOccupancy (c k : Nat) (s : State) : Nat := ((items c s).filter (fun i => i.isFrame && i.waits && i.cls == k)).length

/-- Table operations in the operation queue. -/
def opsQueued (c : Nat) (s : State) : Nat := ((items c s).filter (fun i => !i.isFrame && i.waits)).length

/-- The tags in use (R332). -/
def tagsInUse (c : Nat) (s : State) : List Nat := (((items c s).filter (fun i => !i.orphan)).map (fun i => i.tag)).eraseDups

/-- Frame items behind the head of a tag's chain (R340). -/
def behindHead (c tag : Nat) (s : State) : Nat :=
  (((items c s).filter (fun i => i.waits && i.tag == tag)).drop 1).filter (fun i => i.isFrame) |>.length

/-- Whether a tag is held (R333). -/
def tagHeld (c tag : Nat) (s : State) : Bool := (items c s).any (fun i => !i.waits && !i.orphan && i.tag == tag)

def dspCtrs : CtrSet := ⟨dspCntLo_count.off, dspCntWrap, true⟩

/-- Count a dispatcher's counter. -/
def dspCount (k c : Nat) (s : State) : State := count dspCtrs k c 1 s

/-- The ready-list occupancy has fallen: ready_high may be raised again once it is low enough (R343). -/
def noteFall (c : Nat) (s : State) : State :=
  let x := cluster c s
  let hw := cf dspChainCfg_highWater s
  if x.high && decide ((occupancy c s : Int) < min ((hw : Int) - 1024) ((hw + 1) / 2 : Nat)) then putCluster c { x with high := false } s
  else s

/-- An item has joined the ready list: ready_high when the occupancy rises to high_water (R343). -/
def noteRise (c : Nat) (s : State) : State :=
  let x := cluster c s
  if !x.high && decide (cf dspChainCfg_highWater s ≤ occupancy c s) then raiseC dspReadyHigh c (putCluster c { x with high := true } s)
  else s

/-- Remove an item: its tag is released and it leaves its chain. -/
def removeItem (c q : Nat) (s : State) : State :=
  noteFall c (modCluster c (fun x => { x with items := x.items.filter (fun i => i.seq != q) }) s)

/-! ### Admission (R340 to R343) -/

/-- Whether a cluster's dispatcher admits at all (R355). -/
def admits (c : Nat) (s : State) : Bool := blockOn .dsp s && chanOn .dsp c s

/-- Why a frame item of class k is not admitted (R340): the counter of the cause (11, 7, 9, 8), or none when it is. -/
def frameRefusal (c k tag : Nat) (s : State) : Option Nat :=
  let tags := tagsInUse c s
  if !admits c s then some 11
  else if 8192 - (if k = 7 then 0 else cf dspCfg_reserve7 s) ≤ occupancy c s then some 7
  else if cfX dspClassCap_cap k 0 s ≤ classOccupancy c k s then some 7
  else if tags.contains tag then
    (if behindHead c tag s < cf dspChainCfg_chainMax s then none else some 9)
  else if 4096 - tags.length ≤ (if k = 7 then 0 else cf dspCfg_tagReserve7 s) then some 8
  else none

/-- Whether a table operation is admitted (R342). -/
def opAdmits (c tag : Nat) (s : State) : Bool :=
  admits c s && decide (opsQueued c s < 1024)
    && ((tagsInUse c s).contains tag || decide (cf dspCfg_tagReserve7 s < 4096 - (tagsInUse c s).length))

/-- The create of a record that a state sync brought. -/
def Item.isSync (i : Item) : Bool := match i.op with | .sync _ _ _ => true | _ => false

/-- Whether an item parks when it is admitted (R348 step 2, R498 step 3). State sync creates are never parked (R498). -/
def parks (i : Item) (s : State) : Bool :=
  !i.isSync && (fenceParks (i.tag % 4096) s || (i.isFrame && ownParks (i.tag % 4096) s))

/-- Count an item that waits behind a held tag (R356 counter 10). -/
def noteWait (c tag : Nat) (s : State) : State :=
  match ((items c s).filter (fun i => i.waits && i.tag == tag)).head? with
  | some i =>
    if tagHeld c tag s && !i.waited then dspCount 10 c (modItem c i.seq (fun i => { i with waited := true }) s) else s
  | none => s

/-- Put an item into a cluster in arrival order (R331); answers its sequence number. -/
def admitItem (c : Nat) (i : Item) (s : State) : State :=
  let x := cluster c s
  let p := parks i s
  let j := { i with seq := x.seq, ord := s.dsp.arrivals, admitted := s.tim.raw, stage := if p then .parked else .ready }
  let s1 := dspCount 0 c (putCluster c { x with items := x.items ++ [j], seq := (x.seq + 1) % 2 ^ 32 }
    { s with dsp := { s.dsp with arrivals := s.dsp.arrivals + 1 } })
  let s2 := if p then dspCount 12 c s1 else s1
  noteRise c (noteWait c i.tag s2)

/-- A frame item that is not admitted is counted (R341). -/
def backPressure (c cause : Nat) (s : State) : State :=
  let t := raiseC dspBackPressure c (dspCount 7 c s)
  if cause = 8 then raiseC dspTagFull c (dspCount 8 c t)
  else if cause = 9 then raiseC dspChainFull c (dspCount 9 c t)
  else if cause = 11 then raiseC dspClusterOff c (dspCount 11 c t)
  else t

/-- The back-pressure action of a class: 0 drop, 1 forward without program, 2 to host (R341). -/
def bpAction (k : Nat) (s : State) : Nat := bitsOf (liveReg dspBpAction_action0.off 0 s).toNat (2 * k) 2

/-! ### Cancels (R345, R346) -/

/-- Unlock the record line of an item whose lookup found it. -/
def unlockItem (i : Item) (s : State) : State :=
  if i.looked && decide (i.status = 0) then modLine i.recIndex (fun l => { l with locked := false }) s else s

/-- Take an item out of the engine slot that holds it. -/
def unslot (i : Item) (s : State) : State :=
  if i.stage = .prefetched then
    let e := sget (fun _ => ({} : Engine)) s.fen.engines i.engine
    { s with fen := { s.fen with engines := sset (fun _ => ({} : Engine)) s.fen.engines i.engine { e with next := none } } }
  else s

/-- A cancelled item that has not started ends: its frame's cells are freed (R346). Reasons: 1 bad tail, 2 age, 3 fence, 4 reset. -/
def cancelNow (c : Nat) (i : Item) (reason : Nat) (s : State) : State :=
  let s1 := dspCount 3 c (dropFrame i.frame (removeItem c i.seq (unlockItem i (unslot i s))))
  if reason = 2 then raiseC dspCancelledAge c (dspCount 5 c s1)
  else if reason = 3 then dspCount 6 c s1
  else s1

/-- Act on the cancel of an item, if it has one. A lookup in flight finishes first. -/
def actCancel (c : Nat) (i : Item) (s : State) : State :=
  match i.cancel with
  | none => s
  | some r =>
    if i.isRunning then
      (if i.late then s else dspCount 4 c (modItem c i.seq (fun i => { i with late := true }) s))
    else if i.stage = .selected ∧ i.looked = false then s
    else cancelNow c i r s

/-- Ask for the cancel of an item; the first reason stands. -/
def askCancel (c q reason : Nat) (s : State) : State :=
  modItem c q (fun i => if i.cancel.isNone then { i with cancel := some reason } else i) s

/-- The cluster and item that hold a frame. -/
def itemOfFrame (f : Nat) (s : State) : Option (Nat × Item) :=
  s.dsp.clusters.findSome? (fun e => (e.2.items.find? (fun i => i.isFrame && i.frame == f)).map (fun i => (e.1, i)))

/-! ### Selection (R335 to R337) -/

/-- The first item of its tag, not parked, that no other holds up (R332); a started item of a cleared dispatcher holds none up (R355). -/
def eligibleIn : List Nat → List Item → List Item
  | _, [] => []
  | seen, i :: is =>
    if i.orphan then eligibleIn seen is
    else if i.stage = .ready ∧ seen.contains i.tag = false then i :: eligibleIn (i.tag :: seen) is else eligibleIn (i.tag :: seen) is

/-- The eligible items of a cluster, oldest first. -/
def eligible (c : Nat) (s : State) : List Item := eligibleIn [] (items c s)

/-- The oldest eligible item of queue q: class 0 to 4 or 5 to 7, or 8 the operations. -/
def oldestOf (c q : Nat) (s : State) : Option Item :=
  (eligible c s).find? (fun i => if q = 8 then !i.isFrame else i.isFrame && decide (i.cls = q))

/-- lookup_room and unit_room of R336; a full staging area stops frame selection too (R337). -/
def lookupRoom (c : Nat) (s : State) : Bool :=
  decide (((items c s).filter (fun i => i.isFrame && decide (i.stage = .selected))).length < 512)
    && decide (((items c s).filter (fun i => i.isFrame && decide (i.stage = .staged))).length < 128)
def unitRoom (c : Nat) (s : State) : Bool :=
  decide (((items c s).filter (fun i => !i.isFrame && i.isRunning)).length < 64)

/-- A table operation ends: its tag is released. -/
def opDone (c q : Nat) (s : State) : State := dspCount 14 c (removeItem c q s)

/-- A stale state update is counted (R499, R501). -/
def staleEpoch (s : State) : State := raise tieStaleEpoch (count tieGCtrs 4 0 1 s)

/-- Whether a state sync of an entry no longer applies here (R499, R501). -/
def syncStale (e epoch : Nat) (s : State) : Bool :=
  decide (epoch ≠ (ownEntry e s).epoch) || decide (ownerDevice e s ≠ selfId s) || (ownEntry e s).aborted

/-- A record comes to its new owner (R498 step 5): it is created under its tag. -/
def syncCreate (e epoch b : Nat) (r : List Byte) (s : State) : State :=
  if syncStale e epoch s then staleEpoch s
  else
    let key := rcKey r
    let c := reserveCreate b s
    match c.2.1 with
    | none => c.2.2
    | some (i, g, p) =>
      let d := newRecord key (rcProgram r) (rcProfile r) g (rcHit r) epoch (slice r 0x40 48) (rcPackets r) (rcOctets r)
      placeRecord b (digestOfKey key) p i (rcProgram r) false d c.2.2

/-- A record found not correctable is retired if its place still names it (R278). -/
def lostRecordOp (b p i : Nat) (s : State) : State :=
  if slLive (placeAt b p s) ∧ slRec (placeAt b p s) = i then poisonRecord b p i s else s

/-- An overflow entry found not correctable is emptied if it still is of its bucket (R278). -/
def lostEntryOp (b e : Nat) (s : State) : State :=
  if slState (ovfAt e s) ≠ 0 ∧ slBucket (ovfAt e s) = b then poisonOvf e s else s

/-- The record of an entry that this device gave up is retired with reason 6; while the entry is being given to another device, it is sent
there first (R498 step 4, R506). -/
def evictOp (b p i : Nat) (s : State) : State :=
  let e := b % 4096
  let x := ownEntry e s
  if slLive (placeAt b p s) = false ∨ slRec (placeAt b p s) ≠ i ∨ (x.giving || x.purge) = false then s
  else retire b p i 6 false
    (if x.giving then sendControl (ownerDevice e s) 3 (bytesLE 2 e ++ bytesLE 2 x.epoch ++ recordAt i s) s else s)

/-- What an operation that the device makes of itself does under its tag, none for any other. It completes as it is selected. -/
def ownOp (i : Item) (s : State) : Option State :=
  match i.op with
  | .sync e epoch r => some (syncCreate e epoch i.tag r s)
  | .lostRecord p n => some (lostRecordOp i.tag p n s)
  | .lostBucket => some (poisonBucket i.tag s)
  | .lostEntry e => some (lostEntryOp i.tag e s)
  | .evict p n => some (evictOp i.tag p n s)
  | .frame | .retireCheck _ _ | .cleanup _ _ | .command _ _ => none

/-- Select an item: it takes its tag. -/
def selectItem (c : Nat) (i : Item) (s : State) : State :=
  let t := noteWait c i.tag
    (noteFall c (modItem c i.seq (fun i => { i with stage := if i.isFrame then .selected else .running }) s))
  match ownOp i t with
  | some u => opDone c i.seq u
  | none => t

/-- The queues of the weighted cycle in order; 8 stands for the operations. -/
def cycleOrder : List Nat := [4, 3, 2, 1, 0, 8]
def cyclePlace (k : Nat) : Nat := cycleOrder.getD (k % 6) 4

/-- The weight of a queue (R336). -/
def cycleWeight (q : Nat) (s : State) : Nat := if q = 8 then cf dspWeights_wOp s else bitsOf (liveReg dspWeights_w0.off 0 s).toNat (4 * q) 4

/-- The place of the weighted cycle that selects next: the current one while it has selections left and an eligible item, else the
next non-empty one, which begins its weight anew. -/
def weightedNext (c : Nat) (s : State) : Option (Nat × Nat) :=
  let x := cluster c s
  let has (k : Nat) : Bool := (oldestOf c (cyclePlace k) s).isSome
  if x.wleft ≠ 0 ∧ has x.wq = true then some (x.wq, x.wleft)
  else ((List.range 6).map (fun j => (x.wq + 1 + j) % 6)).find? has |>.map (fun k => (k, cycleWeight (cyclePlace k) s))

/-- One selection, by the code of R336. -/
def selectOne (c : Nat) (s : State) : State :=
  match (if lookupRoom c s then [7, 6, 5].findSome? (fun k => oldestOf c k s) else none) with
  | some i => selectItem c i s
  | none =>
    match weightedNext c s with
    | none => s
    | some (k, left) =>
      let q := cyclePlace k
      if (if q = 8 then unitRoom c s else lookupRoom c s) then
        match oldestOf c q s with
        | some i => selectItem c i (modCluster c (fun x => { x with wq := k, wleft := left - 1 }) s)
        | none => s
      else s

/-! ### Engine slots (R337) -/

/-- Engine e (R325). -/
def engine (e : Nat) (s : State) : Engine := sget (fun _ => ({} : Engine)) s.fen.engines e

/-- Store an engine. -/
def putEngine (e : Nat) (x : Engine) (s : State) : State :=
  { s with fen := { s.fen with engines := sset (fun _ => ({} : Engine)) s.fen.engines e x } }

/-- The staged item to place next: highest class first, oldest first. -/
def nextStaged (c : Nat) (s : State) : Option Item :=
  [7, 6, 5, 4, 3, 2, 1, 0].findSome? (fun k => (items c s).find? (fun i => decide (i.stage = .staged) && decide (i.cls = k)))

/-- The engine that takes it: the lowest ON engine with no running item, else the next by round robin with an empty slot. -/
def chooseEngine (c : Nat) (s : State) : Option Nat :=
  let empty (k : Nat) : Bool := chanOn .fen (16 * c + k) s && (engine (16 * c + k) s).next.isNone
  match (List.range 16).find? (fun k => empty k && (engine (16 * c + k) s).run.isNone) with
  | some k => some k
  | none => ((List.range 16).map (fun j => ((cluster c s).rr + j) % 16)).find? empty

/-- Fill one engine slot. A cluster that is not ON is given no items (R325). -/
def fillOne (c : Nat) (s : State) : State :=
  if !chanOn .mcs c s then s
  else match nextStaged c s, chooseEngine c s with
    | some i, some k =>
      let e := 16 * c + k
      modCluster c (fun x => { x with rr := (k + 1) % 16 })
        (modItem c i.seq (fun i => { i with stage := .prefetched, engine := e }) (putEngine e { engine e s with next := some i.seq } s))
    | _, _ => s

/-- A lookup that has finished is staged while there is room (R337). -/
def stageReady (c : Nat) (s : State) : State :=
  match (items c s).find? (fun i => decide (i.stage = .selected) && i.looked && !i.stall) with
  | some i =>
    if ((items c s).filter (fun i => decide (i.stage = .staged))).length < 128 then
      modItem c i.seq (fun i => { i with stage := .staged }) s
    else s
  | none => s

/-! ### Table operations that wait for admission (R342) -/

/-- Whether a waiting operation stands behind an earlier command of its ring. -/
def ringBlocked (before : List Item) (i : Item) : Bool :=
  match i.op with
  | .command w _ => before.any (fun j => match j.op with | .command v _ => v == w | _ => false)
  | _ => false

/-- The first waiting operation of cluster c that can be admitted, with those before and after it. -/
def nextOp (c : Nat) (s : State) : List Item → List Item → Option (Item × List Item)
  | _, [] => none
  | before, i :: is =>
    if steerTo (i.tag % 4096) s = c ∧ ringBlocked before i = false ∧ opAdmits c i.tag s = true then some (i, before ++ is)
    else nextOp c s (before ++ [i]) is

/-- Admit one waiting operation. A retire check that finds its channel not ON is not held. -/
def admitOp (c : Nat) (s : State) : State :=
  let stale (i : Item) : Bool :=
    decide (steerTo (i.tag % 4096) s = c) && !admits c s && (match i.op with | .retireCheck _ _ => true | _ => false)
  let t := { s with dsp := { s.dsp with opWait := s.dsp.opWait.filter (fun i => !stale i) } }
  match nextOp c t [] t.dsp.opWait with
  | some (i, rest) => admitItem c i { t with dsp := { t.dsp with opWait := rest } }
  | none => t

/-! #### The command rings' places (R286) -/

/-- The base and n that the device took as a ring was enabled, none before (R286). -/
def ringTaken (c : Nat) (s : State) : Option (Nat × Nat) := sget (fun _ => none) s.flow.ringAt c
/-- Base and n as the registers hold them. -/
def ringRegs (c : Nat) (s : State) : Nat × Nat :=
  (rdC fltCmdqBaseLo_addr c s + rdC fltCmdqBaseHi_addr c s * 2 ^ 32, rdC fltCmdqCfg_log2Entries c s)
/-- Base and n of a ring. -/
def cmdN (c : Nat) (s : State) : Nat := ((ringTaken c s).getD (ringRegs c s)).2
def cmdBase (c : Nat) (s : State) : Nat := ((ringTaken c s).getD (ringRegs c s)).1
/-- The ring of a command and how far its entry lies from CONS. -/
def ringPlace (i : Item) (s : State) : Option (Nat × Nat) :=
  match i.op with
  | .command w k => some (w, (k + 2 ^ (cmdN w s + 1) - rdC fltCmdqCons_index w s) % 2 ^ (cmdN w s + 1))
  | _ => none

/-- Whether a waiting operation is a later command of a command's ring. -/
def laterInRing (i : Item) (s : State) (j : Item) : Bool :=
  match ringPlace i s, ringPlace j s with
  | some x, some y => x.1 == y.1 && decide (x.2 < y.2)
  | _, _ => false

/-- Offer a table operation for admission. -/
def offerOp (i : Item) (s : State) : State := { s with dsp := { s.dsp with opWait := s.dsp.opWait ++ [i] } }

/-- A table operation whose source holds it until it has run (R280, R286, R342); a retire check is made again by the scanner. -/
def Item.held (i : Item) : Bool := match i.op with | .frame | .retireCheck _ _ => false | _ => true

/-- An operation as its source offers it again. -/
def Item.afresh (i : Item) : Item := { op := i.op, tag := i.tag, digest := i.digest, key := i.key }

/-- Offer an operation again, a command before the later ones of its ring (R286). -/
def offerAgain (i : Item) (s : State) : State :=
  let w := s.dsp.opWait
  let later := laterInRing i s
  { s with dsp := { s.dsp with
      opWait := w.takeWhile (fun j => !later j) ++ i.afresh :: w.dropWhile (fun j => !later j) } }

/-- A table operation is discarded: its source offers it again, or makes it again. -/
def discardOp (c : Nat) (i : Item) (s : State) : State :=
  if i.held then offerAgain i (removeItem c i.seq s) else removeItem c i.seq s

/-! ### A round (R335) -/

/-- Act on every cancel received. -/
def actCancels (c : Nat) (s : State) : State := foldOver (items c s) (fun i a => actCancel c i a) s

/-- A round of cluster c: take in, act on cancels, select, fill. -/
def dispatchRound (c : Nat) (s : State) : State :=
  fillOne c (fillOne c (stageReady c (stageReady c (selectOne c (selectOne c (actCancels c (admitOp c (admitOp c s))))))))

/-! ### Transfer and release (R348 step 4, R349, R352) -/

/-- Parked items of entry e become eligible when neither a fence nor an owner move holds them. -/
def unpark (e : Nat) (s : State) : State :=
  foldOver (s.dsp.clusters.map (fun x => x.1)) (fun c a =>
    modCluster c (fun x => { x with items := x.items.map (fun i =>
      if i.stage = .parked ∧ i.tag % 4096 = e ∧ parks i a = false then { i with stage := .ready } else i) }) a) s

/-- Whether a parked item of an entry stands behind a transferred one: it was admitted to the device after it (R352). -/
def standsBehind (i j : Item) : Bool := decide (j.ord < i.ord)

/-- Insert a transferred item ahead of the entry's parked items, in the order of admission (R352). -/
def insertTransferred (j : Item) : List Item → List Item
  | [] => [j]
  | i :: is =>
    if i.stage = .parked ∧ i.tag % 4096 = j.tag % 4096 ∧ standsBehind i j = true then j :: i :: is
    else i :: insertTransferred j is

/-- Transfer one item that has not started from cluster o to cluster n (R352). -/
def transferItem (o n : Nat) (i : Item) (s : State) : State :=
  let s1 := removeItem o i.seq (unlockItem i s)
  let x := cluster n s1
  let j := { i with seq := x.seq, stage := .ready, transferred := true, looked := false, stall := false, status := 1, window := [],
                    waited := false }
  let k := { j with stage := if parks j s1 then .parked else .ready }
  let s2 := noteRise n (putCluster n { x with items := insertTransferred k x.items, seq := (x.seq + 1) % 2 ^ 32 } s1)
  raiseC dspTransferred o (dspCount 13 o (if k.stage = .parked then dspCount 12 n s2 else s2))

/-- Whether an item of a cluster taken out can be transferred now: not started, not in an engine slot, no lookup in flight. -/
def movable (i : Item) : Bool :=
  decide (i.stage = .ready ∨ i.stage = .parked ∨ i.stage = .staged) || (decide (i.stage = .selected) && i.looked)

/-- Transfer the items of entry e from cluster o to the cluster that the entry now names. -/
def transferEntry (e o : Nat) (s : State) : State :=
  foldOver ((items o s).filter (fun i => i.tag % 4096 == e && movable i)) (fun i a => transferItem o (steerTo e a) i a) s

/-! ### Lookup (R262, R337) -/

/-- The record window of an item (R263). -/
def windowOf (status : Nat) (key data : List Byte) : List Byte :=
  if status = 0 then slice data 0 128 else slice key 0 48 ++ List.replicate 80 0

/-- A finished lookup: the item waits to be staged; one of a cluster taken out is transferred instead. -/
def afterLookup (c q : Nat) (s : State) : State :=
  match itemAt c q s with
  | none => s
  | some i =>
    if s.dsp.out.contains c && decide (steerTo (i.tag % 4096) s ≠ c) && i.cancel.isNone then
      transferItem c (steerTo (i.tag % 4096) s) i s
    else stageReady c s

/-- Lock the line of a found record, installing it while FCH is ON (R262 step 7, R276, R277). -/
def lockRecord (b d i p : Nat) (r : List Byte) (s : State) : State :=
  match lineOf i s with
  | some _ => modLine i (fun l => { l with locked := true }) s
  | none =>
    if blockOn .fch s then
      installLine { bucket := b, digest := d, recIndex := i, pos := p, data := r, locked := true } s
    else s

/-- FLOW_LOOKUP_DONE: the lookup of a selected frame item completes. -/
def flowLookupDone (c q : Nat) (err : LookupErr) (s : State) : State :=
  match itemAt c q s with
  | none => s
  | some i =>
    if i.stage = .selected ∧ i.looked = false ∧ i.isFrame = true then
      let r := flowFind i.tag i.digest i.key err s
      let f := r.1
      let must := decide (f.status = 0) && blockOn .fch r.2 && (lineOf f.recIndex r.2).isNone && !setHasRoom i.tag r.2
      let s1 := modItem c q (fun i => { i with
        looked := true, stall := must, status := f.status, recIndex := f.recIndex, pos := f.pos,
        window := windowOf f.status i.key f.data }) r.2
      if must then raise fchSetStall (count fchCtrs 4 0 1 s1)
      else afterLookup c q (if f.status = 0 then lockRecord i.tag i.digest f.recIndex f.pos f.data s1 else s1)
    else s

def execFlowLookupDone (c seq : Nat) (err : LookupErr) (s : State) : Host.Outcome State Fault Refusal :=
  guarded (decide (c < 32)) (flowLookupDone c seq err s)

/-- CACHE_SET_UNLOCK: a lookup that waits on a fully locked set goes on. -/
def cacheSetUnlock (c q : Nat) (s : State) : State :=
  match itemAt c q s with
  | none => s
  | some i =>
    if i.stall && setHasRoom i.tag s then
      afterLookup c q (lockRecord i.tag i.digest i.recIndex i.pos i.window (modItem c q (fun i => { i with stall := false }) s))
    else s

def execCacheSetUnlock (c seq : Nat) (s : State) : Host.Outcome State Fault Refusal :=
  guarded (decide (c < 32)) (cacheSetUnlock c seq s)

/-! ### Age (R347) and waits -/

/-- ITEM_AGE_EXPIRE: a frame item that has not started has waited past its class limit. -/
def itemAgeExpire (c q : Nat) (s : State) : State :=
  match itemAt c q s with
  | some i => if i.isFrame && !i.isRunning then askCancel c q 2 s else s
  | none => s

def execItemAgeExpire (c seq : Nat) (s : State) : Host.Outcome State Fault Refusal :=
  guarded (decide (c < 32)) (itemAgeExpire c seq s)

/-- CLASS_WAIT_CLEAR: a write of DSP.CLASS_WAITk. -/
def execClassWaitClear (w : Window) (k : Nat) (v : Word) (s : State) : Host.Outcome State Fault Refusal :=
  guarded (decide (k < 8))
    (writingC w .dsp (fun c s => if bit v.toNat 31 then wrX dspClassWait_maxWait k c 0 s else s) s)

/-- The wait of an item from admission to now, in ns. -/
def waitNs (i : Item) (s : State) : Nat := (s.tim.raw - i.admitted) * 128 / 100

/-- Record an item's wait as it starts (R347, R582). -/
def noteStart (c : Nat) (i : Item) (s : State) : State :=
  let n := waitNs i s
  measure 3 c i.cls n (wrX dspClassWait_maxWait i.cls c (max (rdX dspClassWait_maxWait i.cls c s) (min 65535 (n / 10))) (dspCount 1 c s))

/-! ### Views -/

/-- Items parked for a steering entry. -/
def parkedFor (e : Nat) (s : State) : Nat :=
  (s.dsp.clusters.flatMap (fun x => x.2.items.filter (fun i => decide (i.stage = .parked) && i.tag % 4096 == e))).length

/-- Fences open. -/
def fencesOpen (s : State) : Nat := (s.dsp.fences.filter (fun e => decide (e.2.phase ≠ 0))).length

/-- DSP registers that show the dispatchers; `w` is the window's copy and `c` the channel. -/
def dspView (off w c : Nat) (s : State) : Option Nat :=
  if off = dspDepth_ready.off then some (occupancy c s + 65536 * (tagsInUse c s).length)
  else if off = dspStage_lookups.off then
    some (((items c s).filter (fun i => i.isFrame && decide (i.stage = .selected))).length
      + 65536 * ((items c s).filter (fun i => decide (i.stage = .staged))).length
      + 2 ^ 24 * ((items c s).filter (fun i => !i.isFrame && i.isRunning)).length)
  else if off = dspParked_opsQueued.off then
    some (opsQueued c s + 65536 * ((items c s).filter (fun i => decide (i.stage = .parked))).length)
  else if dspClassDepth_items.off ≤ off ∧ off < dspClassDepth_items.off + 32 then
    some (classOccupancy c ((off - dspClassDepth_items.off) / 4) s)
  else if off = dspFenceStatus_open.off then some (fencesOpen s + 65536 * rd dspFenceStatus_lastUs s)
  else if off = dspEntryStatus_cluster.off then
    let e := rdC dspEntrySel_index w s
    let f := fence e s
    some (steerTo e s + 32 * sget zeroDefault s.dsp.homes e + 1024 * b2n (decide (f.phase ≠ 0)) + 2048 * f.phase
      + 8192 * (if f.phase = 0 then 0 else f.old) + 2 ^ 18 * parkedFor e s)
  else none

end Sys2Proof.Machine
end

