-- ==== Sys2Proof/Machine/Frames.lean ====
section
/-! DEFINITION. Frames from the receive MAC to the VOQ or the dispatcher (R11 to R19, R25, R163, R186 to R196, R218, R225, R341, R393,
R397, R410, R432). -/

namespace Sys2Proof.Machine

/-! ### Cells and losses -/

/-- A frame cannot get a cell (R397). -/
def bufferDrop (r : Nat) (s : State) : State := raise swcBufferDrop (count swcGCtrs 2 0 1 (emptyResponse r s))

/-- A frame proves bad or is lost while arriving: one whose head has crossed by cut-through ends at the point reached and is
stomped, and its mirror use, which never requests, is freed (R393, R411); any other is freed, its item cancelled first (R345, R405). -/
def frameBad (i : Nat) (s : State) : State :=
  let f := frame i s
  let s1 := detachRx i s
  if f.ct ∧ 0 < f.sent then
    let s2 := match f.twin with
      | some j => dropUse j s1
      | none => s1
    refreshActive f.dest f.cls (modFrame i (fun f => { f with bad := true, complete := true, len := f.bytes.length + 4 }) s2)
  else
    match itemOfFrame i s with
    | some (c, it) =>
      askCancel c it.seq 1 (modFrame i (fun f => { f with bad := true, complete := true, len := f.bytes.length + 4 }) s1)
    | none => dropFrame i s

/-- A frame finds no cell for its bytes (R397): every cell it holds is freed at once. One whose head has crossed by cut-through ends with
the bytes that have crossed, and is stomped. -/
def frameStarved (i : Nat) (s : State) : State :=
  let f := frame i s
  if f.ct ∧ 0 < f.sent then
    frameBad i (advanceCells i f.cells.length (modFrame i (fun f => { f with bytes := f.bytes.take (f.sent - 8) }) s))
  else frameBad i s

/-- Give frame i the cells that its bytes now need (R388, R389); the Bool says that it got them. -/
def growCells (i bytes : Nat) (s : State) : Bool × State :=
  let f := frame i s
  let q := queueDepth f.dest f.cls s
  match takeCells f.req (cellsFor bytes - f.cells.length) s with
  | (some is, t) =>
    let u := modFrame i (fun f => { f with cells := f.cells ++ is }) t
    (true, if f.inVoq then noteOnset f.dest f.cls q u else u)
  | (none, t) => (false, bufferDrop f.req t)

/-! ### Where a decided frame goes -/

/-- A mirror copy is made if the action asks for one (R199, R411). -/
def withMirror (i : Nat) (s : State) : State := if actMirror (frame i s).actA then mirrorEnter i s else s

/-- A frame that would cross a third tie link (R494). -/
def tieLoopDrop (i : Nat) (s : State) : State := tieLoop (dropFrame i s)

/-- To the VOQ of the frame's lookup result (R196, R392); stage 5 may have dropped it. -/
def forwardFrame (i : Nat) (ref : Option Nat) (s : State) : State :=
  if (frame i s).noDest then dropFrame i s
  else if loops (frame i s) then tieLoopDrop i s
  else voqEnter i ref (withMirror i s)

/-- To the host destination (R196, R221). -/
def hostFrame (i : Nat) (ref : Option Nat) (s : State) : State :=
  voqEnter i ref (withMirror i (modFrame i (fun f => { f with dest := 264, nextHop := 0, nhEntry := 0 }) s))

/-- What a policy does with a frame: 1 drop, 2 to host, else forward. -/
def byPolicy (pol i : Nat) (s : State) : State :=
  if pol = 1 then dropFrame i s else if pol = 2 then hostFrame i none s else forwardFrame i none s

/-- Exception class 7 on a second pass that asks for another (R19, R194, R196). -/
def recircLimit (i : Nat) (s : State) : State :=
  let f := frame i s
  let s1 := raise clsRecircLimit (excOccurs 7 f (putFrame i { f with exc := f.exc ||| 128 } s))
  byPolicy (excChoice 128 (decide (actProgram f.actA ≠ 0)) f s1) i s1

/-- To the recirculation destination (R218). -/
def recircFrame (i : Nat) (s : State) : State :=
  if (frame i s).second then recircLimit i s
  else voqEnter i none (withMirror i (modFrame i (fun f => { f with dest := 265, nextHop := 0, nhEntry := 0 }) s))

/-! ### The flow decision (R16, R34, R255, R289, R341) -/

/-- Steer an item to the device that owns its flow (R34, R503). -/
def steerToOwner (i : Nat) (s : State) : State :=
  let f := frame i s
  let d := ownerDevice (f.bucket % 4096) s
  if rdC tieLinkStatus_state d s ≠ 3 then
    let t := raise tieOwnerUnreachable (count tieGCtrs 5 0 1 s)
    if cf tieMeshCfg_unreachable t = 1 then hostFrame i none t else dropFrame i t
  else if 2 ≤ f.crossings then tieLoopDrop i s
  else
    let t := count tieGCtrs 0 0 1 s
    voqEnter i none (putFrame i
      { f with steer := some (actProgram f.actA, actKeyProfile f.actA), finalDest := some f.dest, dest := 256 + d, nhEntry := 0 } t)

/-- Offer the frame item to its cluster, or take the back-pressure action of its class (R340, R341). -/
def offerFrame (i prog kp : Nat) (s : State) : State :=
  let f := frame i s
  let c := steerTo (f.bucket % 4096) s
  match frameRefusal c f.cls f.bucket s with
  | none =>
    admitItem c { tag := f.bucket, digest := f.digest, key := f.key, cls := f.cls, program := prog, keyProfile := kp, frame := i } s
  | some cause =>
    let t := backPressure c cause s
    let a := bpAction f.cls t
    if a = 1 then forwardFrame i none t else if a = 2 then hostFrame i none t else dropFrame i t

/-- The flow decision of a frame whose action names a program. -/
def flowDecision (i : Nat) (s : State) : State :=
  let f := frame i s
  let kp := actKeyProfile f.actA
  if !blockOn .flt s then dropFrame i (fltCount 15 s)
  else if f.noDest then dropFrame i s
  else
    let key := flowKey f kp s
    let t := putFrame i { f with key := key, bucket := bucketOfKey key s, digest := digestOfKey key } s
    if ownsBucket (bucketOfKey key s) t then offerFrame i (actProgram f.actA) kp t else steerToOwner i t

/-- Whether a frame that would be a work item lacks a field that its key needs: exception class 6 (R255). -/
def lacksKey (f : Frame) (s : State) : Bool :=
  decide (actProgram f.actA ≠ 0) && !actToHost f.actA && !actRecirc f.actA && blockOn .flt s && keyMissing f (actKeyProfile f.actA) s

/-- The rule action and the exception policies on a frame that has its lookups (R195, R199, R227): one choice over all the classes that are
due at the flow decision. -/
def decideFrame (i : Nat) (s0 : State) : State :=
  let f := frame i s0
  let flow := decide (actProgram f.actA ≠ 0)
  let miss := lacksKey f s0
  let s := if miss then excOccurs 6 f (putFrame i { f with exc := f.exc ||| 64 } s0) else s0
  let pol := excChoice (f.exc % 64 + 64 * b2n miss) flow f s
  if pol = 1 then dropFrame i s
  else if pol = 2 ∨ actToHost f.actA = true then hostFrame i none s
  else if actRecirc f.actA then recircFrame i s
  else if flow && !miss then flowDecision i s
  else forwardFrame i none s

/-- Meter a frame whose last byte has arrived good (R432), then decide it. -/
def meterAndDecide (i : Nat) (s : State) : State :=
  let f := frame i s
  if actMeterEn f.actB then
    let dei := match outerTag f with
      | some h => bit (u16 f.bytes h.off) 12
      | none => false
    let r := meterFrame (actMeter f.actB) f.len f.cls dei s
    match r.1 with
    | none => dropFrame i r.2
    | some c => decideFrame i (modFrame i (fun f => { f with cls := c }) r.2)
  else decideFrame i s

/-! ### Stages 3 to 6 -/

/-- Count a frame whose action sets count_en in its performance counter (R578). -/
def countRule (f : Frame) (b : Nat) (s : State) : State :=
  if actCountEn b then
    let m := cfC pcnCntCfg_mode (actCounter b) s
    if m = 1 then countPcn (actCounter b) 1 s else if m = 2 then countPcn (actCounter b) f.len s else s
  else s

/-- Stage 5's result stored in the frame. -/
def storeLookup (i : Nat) (s : State) : State :=
  let r := destLookup (frame i s) s
  match r.1 with
  | .to d nh e => modFrame i (fun f => { f with dest := d, nextHop := nh, nhEntry := e, noDest := false }) r.2
  | .drop => modFrame i (fun f => { f with dest := 0, nextHop := 0, nhEntry := 0, noDest := true }) r.2

/-- A frame with its lookups goes on: a drop by action at once, one that must wait for its tail later, any other now. -/
def afterLookups (i : Nat) (s : State) : State :=
  let f := frame i s
  if f.complete then
    let r := if f.sa = 0 ∧ f.saDrop = false then (false, s) else learnAtTail i s
    if r.1 ∨ actDrop f.actA = true then dropFrame i r.2 else meterAndDecide i r.2
  else if actDrop f.actA then dropFrame i s
  else if f.saDrop ∨ actMeterEn f.actB = true then modFrame i (fun f => { f with meterWait := true }) s
  else decideFrame i s

/-- Stages 3 to 6 of frame i, whose version and profile are set; none when the parser must wait for more bytes. -/
def parseStages (i : Nat) (s : State) : Option State :=
  let f := frame i s
  match parse (frameProf f s) ⟨f.bytes, f.len - 4, f.complete⟩ with
  | .wait => none
  | .done hdrs exc prp =>
    let f1 := { f with hdrs := hdrs, exc := exc, prp := prp, parsed := true }
    let s1 := foldOver ((List.range 8).filter (fun e => bit exc e)) (fun e a => excOccurs e f1 a) (putFrame i f1 s)
    match classify f1 s1 with
    | .poisoned => some (dropFrame i (satX scrEccUncorr_count 0 5 1 s1))
    | .act a b =>
      let f2 := { f1 with actA := a, actB := b, cls := classOf f1 a s1 }
      let f3 := { f2 with hash := spreadHash f2 (actHashProfile a) s1 }
      some (afterLookups i (storeLookup i (sourceLookup i (countRule f3 b (putFrame i f3 s1)))))

/-- Stages 3 to 6 of a frame that has its version already: CLS must still run or drain (R213, R528), and the version be live, or it has been
freed by force (R211). -/
def stampedStages (i : Nat) (s : State) : State :=
  if (tgt ⟨.cls, none⟩ s).st ≠ .on ∧ (tgt ⟨.cls, none⟩ s).st ≠ .draining then dropFrame i s
  else if !versionLive (frameVer (frame i s)) s then dropFrame i (sat1 clsDrainStatus_forcedDrops s)
  else (parseStages i s).getD s

/-- Admission to the parser (R187, R207, R213): CLS ON with a version committed, the profile's channel ON. The frame takes version and
profile as its first byte enters; while the parser must wait for bytes it keeps them. -/
def enterParser (i prof : Nat) (s : State) : State :=
  if (frame i s).version.isSome then stampedStages i s
  else if !blockOn .cls s ∨ curVersion s = 0 then dropFrame i s
  else if !chanOn .prs prof s then
    raiseC prsProfileOffDrop prof (count prsCtrs 8 prof 1 (dropFrame i s))
  else
    let t := modFrame i (fun f => { f with version := some (curVersion s), profile := prof }) s
    (parseStages i t).getD t

/-- The frames that wait in the parser under a profile are lost (R124, R525). -/
def dropParsing (prof : Nat) (s : State) : State :=
  foldOver ((s.frames.filter (fun e => e.2.live && !e.2.parsed && e.2.version.isSome && e.2.profile == prof)).map (fun e => e.1))
    (fun i a => raiseC prsProfileOffDrop prof (count prsCtrs 8 prof 1 (dropFrame i a))) s

/-- The frames that CLS has still to classify are dropped by a forced drain of it, and counted in forced_drops. -/
def dropClassifying (s : State) : State :=
  foldOver ((s.frames.filter (fun e => e.2.live && !e.2.parsed && e.2.version.isSome)).map (fun e => e.1))
    (fun i a => dropFrame i (sat1 clsDrainStatus_forcedDrops a)) s

/-! ### Arrival at a port (R25, R163, R172, R388, R393, R394) -/

/-- A port's receive side. -/
def rxPort (p : Nat) (s : State) : RxPort := sget (fun _ => ({} : RxPort)) s.rx p

/-- Store a port's receive side. -/
def putRx (p : Nat) (r : RxPort) (s : State) : State := { s with rx := sset (fun _ => ({} : RxPort)) s.rx p r }

/-- A frame begins whose bytes are discarded; `counted` says that its MAC has counted it. -/
def discardRx (p : Nat) (head : List Byte) (counted : Bool) (s : State) : State :=
  putRx p { rxPort p s with
    busy := true, cur := none, got := head.length, head := head, counted := counted, late := none, limit := cfC prtPortCfg_maxFrame p s } s

/-- The source that a MAC raises with receive counter `k` (R163, R183, R185). -/
def macSource (k : Nat) : Option Src :=
  match k with
  | 2 => some prtFcsErr
  | 3 => some prtUndersize
  | 4 => some prtOversize
  | 5 => some prtMacCtrlDrop
  | 6 => some prtCoreOverrun
  | _ => none

/-- The MAC of port p counts a frame that it drops and raises its source. -/
def macDrop (k p : Nat) (s : State) : State :=
  match macSource k with
  | some x => raiseC x p (portCount k p 1 s)
  | none => portCount k p 1 s

/-- The record of a frame that begins to arrive: its timestamp is the time of its first bit at the balls (R172). -/
def arrivingFrame (p sub : Nat) (head : List Byte) (len : Nat) (s : State) : Frame :=
  let r8 := raw8 sub s - rdC prtTsDelay_rxFixed p s
  { group := p / 8, inSrc := p, bytes := head, len := len, raw8 := r8, ts := timeAtEighth s.tim r8, tsEpoch := epochAt s.tim r8, req := p / 8 }

/-- A frame begins to arrive at a port that receives. -/
def beginRx (p sub : Nat) (head : List Byte) (len : Nat) (s : State) : State :=
  let n := newFrame (arrivingFrame p sub head len s) s
  let g := growCells n.1 head.length n.2
  if g.1 then
    putRx p { rxPort p g.2 with
      busy := true, cur := some n.1, got := head.length, queue := (rxPort p g.2).queue ++ [n.1], limit := cfC prtPortCfg_maxFrame p s } g.2
  else discardRx p head false (endFrame n.1 g.2)

/-- FRAME_ARRIVAL: the first bytes of a frame of MAC length `len`; `overflow` says that the receive FIFO could not take them (R25). A
MAC Control frame is dropped at its EtherType, and counted with what else is wrong with it at its end (R163). -/
def frameArrival (p sub : Nat) (head : List Byte) (len : Nat) (overflow : Bool) (s : State) : State :=
  if (rxPort p s).busy ∨ rdC prtLinkStatus_linkUp p s ≠ 1 then s
  else if (tgt ⟨.prt, some p⟩ s).st = .draining then discardRx p head true (portCount 7 p 1 s)
  else if !chanOn .prt p s then s
  else if overflow then discardRx p head true (macDrop 6 p s)
  else if 14 ≤ head.length ∧ beAt head 12 2 = 0x8808 then discardRx p head false s
  else if !blockOn .swc s then discardRx p head false (count swcGCtrs 3 0 1 s)
  else beginRx p sub head len s

def execFrameArrival (p sub : Nat) (head : List Byte) (len : Nat) (overflow : Bool) (s : State) :
    Host.Outcome State Fault Refusal :=
  guarded (decide (p < 256)) (frameArrival p sub head len overflow s)

/-- The counters of a received frame that its MAC drops (R163, R166, R183), none for a good frame; `n` is its MAC length and `limit` the
max_frame that it is tested by. Each kind that applies is counted. -/
def rxDropCounters (p limit n : Nat) (bytes : List Byte) (o : TailOutcome) (s : State) : List Nat :=
  let marked := if fecMarked p s then [19] else []
  let kinds := (if n < 64 then [3] else []) ++ (if limit < n then [4] else [])
    ++ (if beAt bytes 12 2 = 0x8808 then [5] else [])
  match o with
  | .overflow => 6 :: marked
  | .stomped => 23 :: kinds ++ marked
  | .badFcs => 2 :: kinds ++ marked
  | .good => kinds ++ marked

/-- The other use of a frame's cells sees the frame as it ended (R411). -/
def syncTwin (i : Nat) (s : State) : State :=
  let f := frame i s
  match f.twin with
  | some j => modFrame j (fun g => { g with bytes := f.bytes, len := f.len, complete := f.complete, bad := f.bad, cells := f.cells }) s
  | none => s

/-- A stored frame that entered its VOQ before its length was known (DEDUCED from R442): over its queue's maximum SDU it is freed now. -/
def lateSduTest (i : Nat) (s : State) : State :=
  let f := frame i s
  if f.inVoq ∧ !f.ct ∧ f.dest < 256 ∧ maxSdu f.dest f.cls s < f.len then
    raiseC tmgSduDrop f.dest (count tmgDCtrs 0 f.dest 1 (dropFrame i s))
  else refreshActive f.dest f.cls s

/-- A frame arrived whole and good: it learns, and what waited for the tail goes on. -/
def goodTail (i : Nat) (s : State) : State :=
  let f := frame i s
  if !f.parsed then s
  else
    let r := learnAtTail i s
    if r.1 then frameBad i r.2
    else if f.meterWait then meterAndDecide i (modFrame i (fun f => { f with meterWait := false }) r.2)
    else lateSduTest i r.2

/-- The source of a frame that was dropped before its last byte arrived good (R232). -/
def learnLate (late : Option Frame) (s : State) : State :=
  match late with
  | some f => if f.sa = 0 then s else (learnFrom f s).2
  | none => s

/-- The last bytes of frame i are stored (R393); a good frame that finds no cell for them is lost, and learns (R232, R397). -/
def storeTail (i : Nat) (rest : List Byte) (s : State) : State :=
  let f := frame i s
  let f1 := { f with bytes := f.bytes ++ rest, len := f.bytes.length + rest.length + 4, complete := true }
  let g := growCells i f1.len s
  if g.1 then
    goodTail i (syncTwin i (modFrame i (fun x => { f1 with cells := x.cells }) g.2))
  else frameStarved i (learnLate (some f) g.2)

/-- A frame proves bad at its tail: its last bytes have taken their cells as they arrived (R388), up to `n` bytes. -/
def lostTail (i : Nat) (rest : List Byte) (n : Nat) (s : State) : State :=
  let g := growCells i n s
  if g.1 then frameBad i (modFrame i (fun f => { f with bytes := f.bytes ++ rest }) g.2) else frameStarved i g.2

/-- FRAME_TAIL_ARRIVAL: the rest of the frame now arriving at port p, and how it ended. -/
def frameTailArrival (p : Nat) (rest : List Byte) (o : TailOutcome) (s : State) : State :=
  let r := rxPort p s
  if !r.busy then s
  else
    let s1 := takeMark p (putRx p { r with busy := false, cur := none, got := 0 } s)
    let n := r.got + rest.length + 4
    let good (t : State) : State := portCount 1 p 1 (portCount 0 p n t)
    match r.cur with
    | none =>
      if r.counted then s1
      else
        let ks := rxDropCounters p r.limit n (r.head ++ rest) o s
        if ks.isEmpty then learnLate r.late (good s1) else foldOver ks (fun k a => macDrop k p a) s1
    | some i =>
      let ks := rxDropCounters p r.limit n ((frame i s).bytes ++ rest) o s
      if ks.isEmpty then storeTail i rest (good s1)
      else
        lostTail i (if ks.contains 4 then [] else rest) (min n r.limit) (foldOver ks (fun k a => macDrop k p a) s1)

/-- The end of a frame is a frame boundary of its port (R182). -/
def execFrameTailArrival (p : Nat) (rest : List Byte) (o : TailOutcome) (s : State) : Host.Outcome State Fault Refusal :=
  guarded (decide (p < 256)) (onlyIf ((rxPort p s).busy && valuesWait p s) (moveLater p) (frameTailArrival p rest o s))

/-- PARSE_FRAME: the oldest frame of port p that is not parsed yet. -/
def parseFrame (p : Nat) (s : State) : State :=
  match (rxPort p s).queue with
  | [] => s
  | i :: _ =>
    let t := enterParser i p s
    if (frame i t).live && !(frame i t).parsed then t
    else putRx p { rxPort p t with queue := (rxPort p t).queue.filter (· != i) } t

def execParseFrame (p : Nat) (s : State) : Host.Outcome State Fault Refusal :=
  guarded (decide (p < 256)) (parseFrame p s)

/-! ### Host frames and second passes (R186, R190, R218, R410) -/

/-- Take all the cells of a new whole frame, or drop it (R397). -/
def newStored (f : Frame) (s : State) : Option Nat × State :=
  match takeCells f.req (cellsFor f.len) s with
  | (none, t) => (none, t)
  | (some is, t) =>
    let n := newFrame { f with cells := is, complete := true } t
    (some n.1, n.2)

/-- HOST_FRAME_ARRIVAL: a frame from the host enters at stage 3 under PRS.HOST_PROFILE; while PERST_N is low none comes (R68). The spec states no ingress timestamp for it: a
free value. -/
def hostFrameArrival (bytes : List Byte) (s : State) : State :=
  if s.pwr.perstLow then s
  else if !blockOn .swc s then count swcGCtrs 3 0 1 s
  else
    let r := takeFree s
    match newStored { group := 33, inSrc := 264, bytes := bytes, len := bytes.length + 4, raw8 := r.1, ts := r.1 % timeMod,
                      tsEpoch := s.tim.epoch, req := 33, fromHost := true } r.2 with
    | (none, t) => bufferDrop 33 t
    | (some i, t) => enterParser i (wordField (sget regReset (half (curVersion t) t).cfg prsHostProfile_profile.off) 0 8) t

def execHostFrameArrival (bytes : List Byte) (s : State) : Host.Outcome State Fault Refusal := .next (hostFrameArrival bytes s)

/-- The frame of a second pass as it enters input group 34. -/
def secondPass (f : Frame) : Frame :=
  { f with
    group := 34, req := 34, second := true, parsed := false, dest := 0, nextHop := 0, nhEntry := 0, freed := 0, sent := 0, ct := false
    inVoq := false, finalDest := none, twin := none, copy := false, steer := none, exc := 0, key := [], bucket := 0, digest := 0 }

/-- A second-pass frame is parsed again; its version may have been freed by force (R211). -/
def parseAgain (i : Nat) (s : State) : State :=
  let f := frame i s
  if !chanOn .prs f.profile s && versionLive (frameVer f) s then
    raiseC prsProfileOffDrop f.profile (count prsCtrs 8 f.profile 1 (dropFrame i s))
  else stampedStages i s

/-- RECIRC_REENTRY: the front frame at output group 34 has crossed and enters again. -/
def recircReentry (s : State) : State :=
  match frontEg 265 s with
  | none => s
  | some e =>
    let f := frame e.id s
    if !crossedAll f then s
    else if !blockOn .swc s then leaveEg e.id 265 (count swcGCtrs 3 0 1 s)
    else
      match takeCells 34 (cellsFor f.len) s with
      | (none, t) => leaveEg e.id 265 (bufferDrop 34 t)
      | (some is, t) =>
        let n := newFrame { secondPass f with cells := is } t
        parseAgain n.1 (leaveEg e.id 265 n.2)

def execRecircReentry (s : State) : Host.Outcome State Fault Refusal := .next (recircReentry s)

end Sys2Proof.Machine
end

