-- ==== Sys2Proof/Machine/LinkLoss.lean ====
section
/-! DEFINITION. What the loss of a port's link brings while the port drains (R141, R180), and the commands and commits that can take a link
down (R142, R147, R169). -/

namespace Sys2Proof.Machine

/-- Frames queued for destination d that have not begun to cross. -/
def waitingFor (d : Nat) (s : State) : List Nat :=
  ((s.sw.voq.filter (fun (e : Nat × List Nat) => keyDest e.1 == d)).flatMap (fun e => e.2)).filter
    (fun i => decide ((frame i s).sent = 0))

/-- Frames in the transmit buffer of output d that have crossed whole, and a partner's copies there. -/
def crossedAt (d : Nat) (s : State) : List Nat :=
  ((dest d s).eg.filter (fun e => crossedAll (frame e.id s)) ++ (dest d s).copies).map (fun e => e.id)

/-- The frames of a draining port whose link is down are freed (R180). One still crossing is discarded at egress (R408). -/
def freePortFrames (p : Nat) (s : State) : State :=
  foldOver (waitingFor p s) (fun i a => dropFrame i (portCount 11 p 1 a))
    (foldOver (crossedAt p s) (fun i a => leaveEg i p (portCount 11 p 1 a)) s)

/-- A draining port has no link: its lanes stop (R141) and its frames are freed (R180). -/
def linkGone (p : Nat) (s : State) : State :=
  if (tgt ⟨.prt, some p⟩ s).st = .draining ∧ rdC prtLinkStatus_linkUp p s = 0 then
    freePortFrames p (startLanes (portLanes p s) s)
  else s

/-- As `linkGone`, for the port of lane l. -/
def laneGone (l : Nat) (s : State) : State :=
  match portOfLane l s with
  | some p => linkGone p s
  | none => s

/-- SIGNAL_LOST (R143). -/
def execSignalLost (l : Nat) (s : State) : Host.Outcome State Fault Refusal :=
  onLane l (decide (rdC lanLinkStatus_signalPresent l s = 1)) (fun s => if lossRestarts (laneState l s) then laneGone l (signalLost l s) else signalLost l s) s

/-- PCS_FAULT_PERSIST (R169): the link goes down and the lanes restart. -/
def execPcsFaultPersist (p : Nat) (s : State) : Host.Outcome State Fault Refusal :=
  onLivePort p (decide (rdC prtLinkStatus_linkUp p s = 1) && pcsFaulty p s) (fun s => linkGone p (dropLanes p s)) s

/-- REMOTE_FAULT_RECEIVED (R169). -/
def execRemoteFaultReceived (p : Nat) (s : State) : Host.Outcome State Fault Refusal :=
  onLivePort p true (fun s => linkGone p (remoteFault p s)) s

/-- After a LAN commit (R142): changed lanes that are ON restart. -/
def lanCommitted (old new : State) : State :=
  foldOver ((List.range 288).filter (fun l => chanOn .lan l new && laneRestartChange l old new)) (fun l a => laneGone l (restartLane l a)) new

/-- A lane leaves ON: the port or tie link above it loses its link and the lane stops (R140). signal_present keeps its last value until the lane is
ON again (DESIGN CHOICE, assumption log 128). -/
def laneLeaves (l : Nat) (s : State) : State :=
  let s1 := if isTieLane l then tieLanesLost ((l - 256) / 4) s
    else match portOfLane l s with
      | some p => linkGone p (wrC prtLinkStatus_pcsLock p 0 (portDown p s))
      | none => s
  refreshSynce (setLane l 0 (clearPass l (laneDown l s1)))

/-- The MAC of port p starts anew: a frame that was arriving is lost. -/
def resetMac (p : Nat) (s : State) : State :=
  let r := rxPort p s
  let t := putRx p { r with busy := false, cur := none, got := 0 } s
  match r.cur with
  | some i => frameBad i t
  | none => t

/-- A port's receive side returns to reset; frames of it that the parser has yet to take go on. -/
def clearRx (p : Nat) (s : State) : State :=
  let t := resetMac p s
  putRx p { queue := (rxPort p t).queue } t

/-- PRT starts (R180): the MAC and PCS engines are reset. -/
def prtWideStarting (s : State) : State :=
  foldOver (s.rx.map (fun (e : Nat × RxPort) => e.1)) resetMac { s with lanes := { s.lanes with fecBad := [] } }

/-- What a PRT commit moved, as far as it may take effect at once (R182): the values of a port that restarts or drains wait until it is OFF,
those of a port with a frame arriving or leaving until that frame has ended. -/
def holdBack (again : List Nat) (old new : State) : State :=
  let mid (p : Nat) : Bool := (rxPort p old).busy || ((frontEg p old).any (fun e => e.started))
  let waits := (List.range 256).filter (fun p => decide (portVals p old ≠ portVals p new) &&
    (again.contains p || decide ((tgt ⟨.prt, some p⟩ old).st = .draining) || mid p))
  let held := foldOver waits (fun p a => putVals p (portVals p old) a) new
  { held with fab := { held.fab with later := waits.map (fun p => (p, portVals p new)) } }

end Sys2Proof.Machine
end

