-- ==== Sys2Proof/Machine/Recorder.lean ====
section
/-! DEFINITION. Touchmark: software records, the ring, the flash log, start-up search (R559 to R577, R584, R585). -/

namespace Sys2Proof.Machine

/-- The first 52 bytes of a record with its sequence number (R559). -/
def recBody (seq : Nat) (r : Rec) : List Byte :=
  bytesLE 4 seq ++ bytesLE 2 r.code ++ bytesLE 1 r.flags ++ bytesLE 1 r.block ++ bytesLE 2 r.chan ++ bytesLE 2 r.suppressed
    ++ bytesLE 3 r.powerCycle ++ [0] ++ bytesLE 6 r.opTime ++ bytesLE 2 r.epoch ++ timeBytes r.wall ++ slice r.payload 0 16

/-- The 64 bytes of a record: body, CRC, reserved, echo (R559). -/
def recBytes (seq : Nat) (r : Rec) : List Byte :=
  recBody seq r ++ bytesLE 4 (crc32c (recBody seq r)) ++ [0, 0, 0, 0] ++ bytesLE 4 seq

/-- The 32-bit words of a byte string, little-endian. -/
def wordsOf : Nat → List Byte → List Word
  | 0, _ => []
  | n + 1, bs => BitVec.ofNat 32 (leAt bs 0 4) :: wordsOf n (bs.drop 4)

/-- Write words to a word store from key `k` on. -/
def putWords (d : Nat → Word) (m : Sparse Word) (k : Nat) : List Word → Sparse Word
  | [] => m
  | w :: ws => putWords d (sset d m k w) (k + 1) ws

/-- The 16 words of a slot. -/
def slotWords (d : Nat → Word) (m : Sparse Word) (slot : Nat) : List Word :=
  (List.range 16).map (fun i => sget d m (16 * slot + i))

/-- The bytes of words. -/
def bytesOfWords (ws : List Word) : List Byte := ws.foldl (fun a w => a ++ bytesLE 4 w.toNat) []

/-- A record is complete when echo equals sequence and the CRC is correct (R559). -/
def recComplete (ws : List Word) : Bool :=
  decide (ws.getD 15 0 = ws.getD 0 0) &&
    decide (ws.getD 13 0 = BitVec.ofNat 32 (crc32c ((bytesOfWords ws).take 52))) && decide (ws.length = 16)

/-- What a ring word that was never written reads as. -/
def ringDefault : Nat → Word := fun _ => 0

/-- What an erased flash word reads as (R574). -/
def flashDefault : Nat → Word := fun _ => 0xFFFFFFFF

/-- Signed difference of two sequence numbers modulo 2³² (R565). -/
def seqDiff (a b : Nat) : Int := signed 32 (a + 2 ^ 32 - b % 2 ^ 32)

/-- Write a record's words into the mesh ring (R577); MESH_HEAD advances once it is complete. -/
def meshWrite (ws : List Word) (s : State) : State :=
  { s with tmk := { s.tmk with
      mesh := putWords ringDefault s.tmk.mesh (16 * (s.tmk.meshHead % 4096)) ws
      meshHead := (s.tmk.meshHead + 1) % 2 ^ 32 } }

/-- The lost-N record of R567. -/
def lostRec (t : Touchmark) : Rec :=
  { code := 1, flags := 2, block := 0x38,
    payload := bytesLE 4 t.lostN ++ bytesLE 4 t.lostSum ++ bytesLE 6 t.lostTime ++ bytesLE 2 t.lostCode }

/-- A place has freed: a pending lost count takes it before any later offer (R567). -/
def placeFreed (s : State) : State :=
  if s.tmk.lostN = 0 then s
  else { s with tmk := { s.tmk with
          fifo := s.tmk.fifo ++ [stampRec (lostRec s.tmk) s]
          lostN := 0, lostSum := 0 } }

/-- A ring slot due to be overwritten while its record is still after FLUSH_SEQ: flush_lost (R569). -/
def flushLostCheck (s : State) : State :=
  let seq := s.tmk.seqNext
  let old := (seq + 2 ^ 32 - 4096) % 2 ^ 32
  let ws := slotWords ringDefault s.tmk.ring (seq % 4096)
  if ws.getD 15 0 = BitVec.ofNat 32 old ∧ ws.getD 0 0 = BitVec.ofNat 32 old ∧ recComplete ws ∧ 0 < seqDiff old s.tmk.flushSeq
  then raise tmkFlushLost (satX tmkStat_count 3 0 1 s) else s

/-- A ring record overwritten before a worker or standby manager forwarded it: fwd_lost (R577). -/
def fwdLostCheck (s : State) : State :=
  let seq := s.tmk.seqNext
  let old := (seq + 2 ^ 32 - 4096) % 2 ^ 32
  let ws := slotWords ringDefault s.tmk.ring (seq % 4096)
  let role := rd tieMeshStatus_roleLive s
  if (role = 0 ∨ role = 2) ∧ ws.getD 15 0 = BitVec.ofNat 32 old ∧ recComplete ws ∧ 0 < seqDiff old s.tmk.fwdSeq
  then raise tmkFwdLost (satX tmkStat_count 4 0 1 s) else s

/-- RING_WRITE (R567, R568): a record leaves the FIFO while the global bucket has a token. -/
def ringWrite (r : Rec) (rest : List Rec) (s : State) : State :=
  let s0 := fwdLostCheck (flushLostCheck s)
  let seq := s0.tmk.seqNext
  let ws := wordsOf 16 (recBytes seq r)
  let s1 := { s0 with tmk := { s0.tmk with
      fifo := rest ++ s0.tmk.fifo.drop (rest.length + 1)
      globalUsed := s0.tmk.globalUsed + 1
      ring := putWords ringDefault s0.tmk.ring (16 * (seq % 4096)) ws
      seqNext := (seq + 1) % 2 ^ 32 } }
  let s2 := placeFreed (satX tmkStat_count 0 0 1 s1)
  let s3 := if rd tieMeshStatus_roleLive s2 = 1 then meshWrite ws s2 else s2
  if r.code = 1 then raise tmkLostRecords s3 else s3

def execRingWrite (s : State) : Host.Outcome State Fault Refusal :=
  .next (match s.tmk.fifo with
    | [] => s
    | r :: rest => if s.tmk.globalUsed < 400 then ringWrite r rest s else s)

/-- GLOBAL_TOKEN_GAIN (R567): one token, up to 400. -/
def execGlobalTokenGain (s : State) : Host.Outcome State Fault Refusal :=
  .next { s with tmk := { s.tmk with globalUsed := s.tmk.globalUsed - 1 } }

/-- CHECKPOINT_EXPIRE (R563): a checkpoint record, unless a reset holds the device (R60, R66). -/
def execCheckpointExpire (s : State) : Host.Outcome State Fault Refusal :=
  .next (onlyIf (decide (s.pwr.hold = .none)) (writeRec 3 0 0x38 (recChan none) []) s)

/-- CODE_BUCKET_REFILL (R566): the bucket is full again; a count of suppressions offers one summary record. -/
def bucketRefill (key : Nat) (s : State) : State :=
  if tokensUsed key s ≠ 0 ∨ sget (fun _ => 0) s.tmk.supp key = 0 then s
  else match s.tmk.latest.find? (fun e => e.1 == key) with
    | some e =>
      let r := offerRec { e.2 with flags := e.2.flags + 8 } { s with tmk := { s.tmk with latest := s.tmk.latest.filter (fun x => x.1 != key) } }
      if r.emptied then raise tmkSuppressing r.state else r.state
    | none => s

def execCodeBucketRefill (code : Nat) (s : State) : Host.Outcome State Fault Refusal :=
  guarded (decide (3 ≤ code ∧ code < 0x10000)) (bucketRefill (bucketOf code) s)

/-- Whether a software record is refused (R570). -/
def wrRefused (w : Window) (code sev : Nat) : Bool :=
  decide (4 < sev) ||
    (match w with
     | .h => decide (code < 0x800)
     | .b => decide (code < 0x700)
     | .hm _ _ => decide (code = 0))

/-- A write of TMK.WR_CTL (R570): go offers the record of the window's WR registers and shows the result. -/
def wrCtlWrite (w : Window) (v : Word) (s : State) : State :=
  let c := winIdx w
  if wordField v 0 1 = 0 then s
  else
    let code := rdC tmkWrHdr_code c s
    let sev := rdC tmkWrHdr_severity c s
    if wrRefused w code sev then wrC tmkWrCtl_result c 3 s
    else
      let r := offerRec
        { code := code
          flags := sev + (match w with | .h => 128 | .b => 0 | .hm _ _ => 0)
          block := rdC tmkWrHdr_block c s
          chan := rdC tmkWrChan_channel c s + 1024 * rdC tmkWrChan_whole c s
          payload := (List.range 4).foldl (fun a i => a ++ bytesLE 4 (rdX tmkWrPayload_payload i c s)) [] } s
      let s1 := wrC tmkWrCtl_result c r.result r.state
      if r.emptied then raise tmkSuppressing s1 else s1

def execTmkWrGo (w : Window) (v : Word) (s : State) : Host.Outcome State Fault Refusal :=
  .next (writing w .tmk (wrCtlWrite w (v ||| 1)) s)

/-- Writes that only window B and Hallmark may make: through window H they are ignored and handled as R106 states. -/
def notThroughH (w : Window) (off : Nat) (f : State → State) (s : State) : State :=
  match w with
  | .h => accessError w off true s
  | .b => f s
  | .hm _ _ => f s

/-- FLUSH_SEQ_WRITE (R573). -/
def execFlushSeqWrite (w : Window) (v : Word) (s : State) : Host.Outcome State Fault Refusal :=
  .next (writing w .tmk (notThroughH w tmkFlushSeq_sequence.off
    (fun s => { s with tmk := { s.tmk with flushSeq := v.toNat } })) s)

/-- A sector is reported bad (R575): counted, and flash_error raised. -/
def reportBad (s : State) : State :=
  raise tmkFlashError (satX tmkFlashReport_badSectors 0 0 1 s)

/-- FLASH_REPORT (R575). -/
def execFlashReport (w : Window) (v : Word) (s : State) : Host.Outcome State Fault Refusal :=
  .next (writing w .tmk (notThroughH w tmkFlashReport_bad.off (onlyIf (decide (wordField v 8 1 = 1)) reportBad)) s)

/-! ### The flash log (R572 to R575) -/

/-- The next sector after `sec` that is not bad. -/
def nextSector (bad : List Nat) (sec : Nat) : Nat :=
  match (List.range 256).find? (fun i => !bad.contains ((sec + 1 + i) % 256)) with
  | some i => (sec + 1 + i) % 256
  | none => (sec + 1) % 256

/-- The slot after `pos` in the circular log, passing over bad sectors. -/
def nextSlot (bad : List Nat) (pos : Nat) : Nat :=
  if pos % 1024 = 1023 then nextSector bad (pos / 1024) * 1024 else pos + 1

/-- Erase a sector: its words read all ones. -/
def eraseSector (sec : Nat) (m : Sparse Word) : Sparse Word := sfilter (fun k => k / 16384 != sec) m

/-- A record is written to the next slot of the flash. -/
def flushWrite (seq : Nat) (ws : List Word) (s : State) : State :=
  { s with tmk := { s.tmk with
      flash := putWords flashDefault s.tmk.flash (16 * s.tmk.flashPos) ws
      flashPos := nextSlot s.tmk.badSectors s.tmk.flashPos
      flushSeq := seq } }

/-- The sector after `sec` that is not bad is erased. -/
def eraseNext (sec : Nat) (s : State) : State :=
  { s with tmk := { s.tmk with flash := eraseSector (nextSector s.tmk.badSectors sec) s.tmk.flash } }

/-- A sector fails (R575): its first 64 bytes become zero, and it is bad from now on. -/
def failSector (sec : Nat) (s : State) : State :=
  { s with tmk := { s.tmk with
      flash := putWords flashDefault s.tmk.flash (16384 * sec) (List.replicate 16 0)
      badSectors := if s.tmk.badSectors.contains sec then s.tmk.badSectors else s.tmk.badSectors ++ [sec] } }

/-- The record and the report of a bad sector (R575). -/
def noteBad (sec : Nat) (s : State) : State := reportBad (writeRec 0xD 2 0x38 (recChan none) (bytesLE 1 sec) s)

/-- A write that fails its read-back (R575): the log goes on in the next sector, erased first. -/
def flushFailed (s : State) : State :=
  let sec := s.tmk.flashPos / 1024
  let t := eraseNext sec (failSector sec s)
  noteBad sec { t with tmk := { t.tmk with flashPos := nextSector t.tmk.badSectors sec * 1024 } }

/-- The record is written; at slot 512 the next sector is erased (R573), and when that fails its read-back, the one after it (R575). -/
def flushGood (seq : Nat) (ws : List Word) (erased : Bool) (s : State) : State :=
  let sec := s.tmk.flashPos / 1024
  let t := flushWrite seq ws s
  if s.tmk.flashPos % 1024 ≠ 512 then t
  else if erased then eraseNext sec t
  else
    let bad := nextSector s.tmk.badSectors sec
    noteBad bad (eraseNext sec (failSector bad t))

/-- A flash or fuse program operation may start: all rails are good (R62) and no reset holds the device (R60, R66). -/
def mayProgram (s : State) : Bool := decide (s.pwr.railLow = 0 ∧ s.pwr.hold = .none)

/-- FLUSH_RECORD (R573): the next unflushed ring record goes to flash. A slot that no longer holds that record is passed over. Without a flash that
answers nothing is flushed (R597: DESIGN CHOICE, assumption log 134). -/
def flushRecord (o : FlushOutcome) (s : State) : State :=
  let seq := (s.tmk.flushSeq + 1) % 2 ^ 32
  if seqDiff s.tmk.seqNext seq ≤ 0 ∨ s.tmk.noFlash = true then s
  else
    let ws := slotWords ringDefault s.tmk.ring (seq % 4096)
    if recComplete ws ∧ ws.getD 0 0 = BitVec.ofNat 32 seq then
      (match o with
       | .done => flushGood seq ws true s
       | .eraseFailed => flushGood seq ws false s
       | .writeFailed => flushFailed s)
    else { s with tmk := { s.tmk with flushSeq := seq } }

def execFlushRecord (o : FlushOutcome) (s : State) : Host.Outcome State Fault Refusal := .next (onlyIf (mayProgram s) (flushRecord o) s)

/-! ### The search at start (R563, R574) -/

/-- The order of records (R565): power cycle, operating time, sequence. -/
def recNewer (a b : List Word) : Bool :=
  let pc (w : List Word) : Nat := leAt (bytesOfWords w) 0x0C 3
  let ot (w : List Word) : Nat := leAt (bytesOfWords w) 0x10 6
  decide (pc b < pc a) || (decide (pc a = pc b) && (decide (ot b < ot a) ||
    (decide (ot a = ot b) && decide (0 < seqDiff (a.getD 0 0).toNat (b.getD 0 0).toNat))))

/-- The slots listed in a record store, each once, rising. -/
def listedSlots (m : Sparse Word) : List Nat :=
  m.foldl (fun a e => if a.getLast? = some (e.1 / 16) then a else a ++ [e.1 / 16]) []

/-- The newest of a list of records. -/
def newestOf (rs : List (List Word)) : Option (List Word) :=
  rs.foldl (fun a r => match a with
    | none => some r
    | some x => if recNewer r x then some r else a) none

/-- A sector whose first 64 bytes read zero is bad: it is never searched again (R575). -/
def sectorBad (m : Sparse Word) (sec : Nat) : Bool := (slotWords flashDefault m (1024 * sec)).all (· == 0)

/-- The sector whose first complete record is newest (R574). -/
def newestSector (m : Sparse Word) : Option Nat :=
  let firsts := ((List.range 256).filter (fun sec => !sectorBad m sec)).filterMap (fun sec =>
    ((listedSlots m).filter (fun q => q / 1024 == sec)).find? (fun q => recComplete (slotWords flashDefault m q)))
  (firsts.foldl (fun a q => match a with
    | none => some q
    | some x => if recNewer (slotWords flashDefault m q) (slotWords flashDefault m x) then some q else a) none).map (· / 1024)

/-- The slots of a sector before its first erased slot. -/
def usedSlots (m : Sparse Word) (sec : Nat) : List Nat :=
  ((List.range 1024).map (fun i => sec * 1024 + i)).takeWhile (fun q => (slotWords flashDefault m q).any (· != 0xFFFFFFFF))

/-- The newest record of the flash region and the slot where the log goes on (R574). -/
def flashNewest (m : Sparse Word) : Option (List Word) × Nat :=
  let bad := (List.range 256).filter (sectorBad m)
  match newestSector m with
  | none => (none, nextSector bad 255 * 1024)
  | some sec =>
    let used := usedSlots m sec
    ((used.filter (fun q => recComplete (slotWords flashDefault m q))).getLast?.map (slotWords flashDefault m),
      if used.length = 1024 then nextSector bad sec * 1024 else sec * 1024 + used.length)

/-- The newest complete record of the ring. -/
def ringNewest (m : Sparse Word) : Option (List Word) :=
  newestOf (((listedSlots m).map (slotWords ringDefault m)).filter recComplete)

/-- Hallmark establishes the power-cycle count, the operating time and the next sequence at step 2 (R563, R568), and writes
the start record. `fromIo` is a RESET_N start, whose count and time carry on from the VDD_IO copy. -/
def startTouchmark (fromIo : Bool) (cause : Nat) (s : State) : State :=
  let f := if s.tmk.noFlash then (none, s.tmk.flashPos) else flashNewest s.tmk.flash
  let n := match f.1, ringNewest s.tmk.ring with
    | some a, some b => if recNewer b a then some b else some a
    | some a, none => some a
    | none, x => x
  let bs := match n with
    | some w => bytesOfWords w
    | none => []
  let pc := if fromIo then s.tmk.powerCycle + 1 else (match n with | some _ => leAt bs 0x0C 3 + 1 | none => 1)
  let ot := if fromIo then s.tmk.opTime else leAt bs 0x10 6
  let seq := match n with | some _ => (leAt bs 0 4 + 1) % 2 ^ 32 | none => 0
  let s1 := { s with tmk := { s.tmk with
      powerCycle := min pc 0xFFFFFF, opTime := ot, seqNext := seq, flashPos := f.2
      fwdSeq := if fromIo then s.tmk.fwdSeq else (seq + 2 ^ 32 - 1) % 2 ^ 32
      flushSeq := (match f.1 with | some w => (w.getD 0 0).toNat | none => (seq + 2 ^ 32 - 1) % 2 ^ 32) } }
  writeRec 2 0 0x38 (recChan none) ([BitVec.ofNat 8 cause, BitVec.ofNat 8 (reg 0x90 0 s1).toNat, 0, 0] ++ bytesLE 4 (leAt bs 0 4)
    ++ bytesLE 6 (leAt bs 0x10 6)) s1

/-- The check of a TMK commit. -/
def tmkCheck (s : State) : Option Nat :=
  if rd tmkLimitCfg_codeBurst s = 0 ∨ rd tmkLimitCfg_codePeriod100ms s = 0 ∨ rd tmkLimitCfg_sharedBurst s = 0
      ∨ rd tmkLimitCfg_sharedPeriod10ms s = 0 ∨ rd tmkCheckpoint_checkpointMin s = 0 then some 2 else none

/-- What a read of TMK.RING_DATA or MESH_DATA returns, and the auto-increment of its address register. -/
def ringRead (w : Window) (mesh : Bool) (s : State) : State :=
  let c := winIdx w
  if mesh then
    let a := rdC tmkMeshAddr_word c s
    let s1 := if rdC tmkMeshAddr_autoInc c s = 1 then wrC tmkMeshAddr_word c (a + 1) s else s
    putRead w (sget ringDefault s.tmk.mesh a) s1
  else
    let a := rdC tmkRingAddr_word c s
    let s1 := if rdC tmkRingAddr_autoInc c s = 1 then wrC tmkRingAddr_word c (a + 1) s else s
    putRead w (sget ringDefault s.tmk.ring a) s1

end Sys2Proof.Machine
end

