-- ==== Sys2Proof/Machine/Fences.lean ====
section
/-! DEFINITION. Steering entries and their migration fences (R215 to R217, R348 to R354), and taking a cluster out of dispatch. -/

namespace Sys2Proof.Machine

/-! ### Indirection entries -/

/-- Store entry e of indirection table t (R221). -/
def putInd (t e v : Nat) (s : State) : State :=
  { s with ver := { s.ver with ind := sset (fun _ => 0) s.ver.ind (4096 * t + e) (v % 64) } }

/-- Steering entry e names cluster n. -/
def putSteer (e n : Nat) (s : State) : State := putInd (steerTable s) e n s

/-- Set the home of a steering entry (R353). -/
def putHome (e n : Nat) (s : State) : State := { s with dsp := { s.dsp with homes := sset zeroDefault s.dsp.homes e n } }

/-! ### Fences (R348, R350) -/

/-- Step 1 of a fence: the entry names N, and items of a cluster taken out are transferred (R352). -/
def openFence (e o n : Nat) (rw : Bool) (s : State) : State :=
  let t := raiseC dspFenceOpened n
    (putFence e { phase := 2, old := o, new := n, openRaw := s.tim.raw, rewrite := rw } (putSteer e n s))
  if t.dsp.out.contains o then transferEntry e o t else t

/-- A change of a steering entry's value: at once while DSP is not ON, else under a fence, which waits while N is not ON (R350). -/
def moveEntry (e n : Nat) (rw : Bool) (s : State) : State :=
  let o := steerTo e s
  if !blockOn .dsp s then putSteer e n s
  else if chanOn .dsp n s then openFence e o n rw s
  else putFence e { phase := 1, old := o, new := n, rewrite := rw } s

/-- FENCE_TARGET_READY: N's channel has reached ON. -/
def fenceTargetReady (e : Nat) (s : State) : State :=
  let f := fence e s
  if f.phase = 1 ∧ chanOn .dsp f.new s = true then openFence e f.old f.new f.rewrite s else s

def execFenceTargetReady (e : Nat) (s : State) : Host.Outcome State Fault Refusal :=
  guarded (decide (e < 4096)) (fenceTargetReady e s)

/-- Items of entry e at cluster c, in any place or engine. -/
def itemsOfEntry (c e : Nat) (s : State) : List Item := (items c s).filter (fun i => i.tag % 4096 == e)

/-- A fence's duration in µs, rounded up (DSP.FENCE_STATUS). -/
def fenceUs (f : Fence) (s : State) : Nat := min 0xFFFF (((s.tim.raw - f.openRaw) * 128 + 99999) / 100000)

/-- The entry is written back to its home when that was waiting for this fence (R353). -/
def writeBackDue (e : Nat) (s : State) : State :=
  if s.dsp.back.contains e then
    let t := { s with dsp := { s.dsp with back := s.dsp.back.filter (· != e) } }
    if steerTo e t = sget zeroDefault t.dsp.homes e then t else moveEntry e (sget zeroDefault t.dsp.homes e) false t
  else s

/-- rewrite_done when the last fence of a rewrite has closed (R351). -/
def rewriteDone (s : State) : State :=
  if s.dsp.rewriting && s.dsp.fences.all (fun x => !(x.2.rewrite && decide (x.2.phase ≠ 0))) then
    raise dspRewriteDone { s with dsp := { s.dsp with rewriting := false } }
  else s

/-- Steps 4 and 5 (R348): the parked items become eligible and the fence closes. -/
def closeFence (e : Nat) (s : State) : State :=
  let f := fence e s
  let t := raiseC dspFenceClosed f.new (wr dspFenceStatus_lastUs (fenceUs f s) (unpark e (putFence e {} s)))
  writeBackDue e (rewriteDone t)

/-- FENCE_DRAINED: O has no item of the entry left. -/
def fenceDrained (e : Nat) (s : State) : State :=
  let f := fence e s
  if f.phase = 2 ∧ (itemsOfEntry f.old e s).isEmpty = true then closeFence e s else s

def execFenceDrained (e : Nat) (s : State) : Host.Outcome State Fault Refusal :=
  guarded (decide (e < 4096)) (fenceDrained e s)

/-- At an overrun O gives up an item that has not started: a frame item is cancelled, a table operation transferred (R350). -/
def overrunItem (o : Nat) (i : Item) (s : State) : State :=
  if i.isRunning then s
  else if i.isFrame then
    let t := askCancel o i.seq 3 s
    match itemAt o i.seq t with
    | some j => actCancel o j t
    | none => t
  else transferItem o (steerTo (i.tag % 4096) s) i s

/-- FENCE_OVERRUN: O has not drained after fence_limit_ms. -/
def fenceOverrun (e : Nat) (s : State) : State :=
  let f := fence e s
  let is := itemsOfEntry f.old e s
  if f.phase = 2 ∧ f.overran = false ∧ is.isEmpty = false then
    raiseC dspFenceOverrun f.new (foldOver is (overrunItem f.old) (putFence e { f with overran := true } s))
  else s

def execFenceOverrun (e : Nat) (s : State) : Host.Outcome State Fault Refusal :=
  guarded (decide (e < 4096)) (fenceOverrun e s)

/-! ### Software writes (R215, R217) -/

/-- A write refused under R215. -/
def indRefused (s : State) : State := raise clsIndRefused (wr clsIndStatus_refused 1 s)

/-- A software write of steering entry e; answers the state with home and value written, or refused. -/
def steerWrite (e v : Nat) (s : State) : State :=
  if 31 < v ∨ (fence e s).phase ≠ 0 then indRefused s
  else
    let t := putHome e v { s with dsp := { s.dsp with latest := some e } }
    if steerTo e t = v then t else moveEntry e v false t

/-- A write of one indirection entry. -/
def indWrite (t e v : Nat) (s : State) : State := if t = steerTable s then steerWrite e v s else putInd t e v s

/-- A write of CLS.IND_DATA. -/
def indDataWrite (v : Word) (s : State) : State :=
  let e := rd clsIndAddr_index s
  let s1 := indWrite (rd clsIndAddr_table s) e (wordField v 0 6) s
  if rd clsIndAddr_autoInc s1 = 1 then wr clsIndAddr_index (e + 1) s1 else s1

def execIndDataWrite (w : Window) (v : Word) (s : State) : Host.Outcome State Fault Refusal :=
  .next (writing w .cls (indDataWrite v) s)

/-- A live version names table t as a host_table in a rule or its default action (R217). -/
def hostTableUsed (t : Nat) (s : State) : Bool :=
  [curVersion s, curVersion s - 1].any (fun v => versionLive v s &&
    (let h := half v s
     let listed := (listedRules h).filter (fun i => !isSecond h i)
     listed.any (fun i => actHostTable (ruleWord h i 1) == t) || (decide (t = 0) && decide ((listedRules h).length < h.count))
       || actHostTable (verX clsDefaultA_action 0 0 v s) == t))

/-- A write of CLS.STEER_CFG. -/
def steerCfgWrite (w : Window) (v : Word) (s : State) : State :=
  if (tgt ⟨.dsp, none⟩ s).st ≠ .off ∨ hostTableUsed (wordField v 0 6) s = true then accessError w clsSteerCfg_steerTable.off true s
  else wr clsSteerCfg_steerTable (wordField v 0 6) s

def execSteerCfgWrite (w : Window) (v : Word) (s : State) : Host.Outcome State Fault Refusal :=
  .next (writing w .cls (fun s => steerCfgWrite w v s) s)

/-! ### Taking a cluster out (R314, R351, R352) -/

/-- How often the steering table names cluster k. -/
def namedBy (k : Nat) (s : State) : Nat := ((List.range 4096).filter (fun e => steerTo e s == k)).length

/-- The cluster that takes over entry e from cluster c: an ON one that the table names least often, not the one being drained. -/
def successor (c e : Nat) (s : State) : Option Nat :=
  let f := fence e s
  leastBy (fun k => namedBy k s)
    ((List.range 32).filter (fun k => chanOn .dsp k s && decide (k ≠ c) && !s.dsp.out.contains k
      && !(decide (f.phase ≠ 0) && decide (k = f.old))))

/-- Items of entry e parked at cluster c go to cluster n and stay parked (R350). -/
def moveParked (e c n : Nat) (s : State) : State :=
  foldOver ((itemsOfEntry c e s).filter movable) (fun i a => transferItem c n i a) s

/-- Rewrite one steering entry that names cluster c. An open fence goes on with the new target. -/
def rewriteEntry (c e : Nat) (s : State) : State :=
  if steerTo e s ≠ c then s
  else match successor c e s with
    | none => raise dspNoCluster s
    | some n =>
      let f := fence e s
      if f.phase = 0 then moveEntry e n true s
      else if f.phase = 1 then openFence e c n true s
      else moveParked e c n (putFence e { f with new := n, rewrite := true } (putSteer e n s))

/-- The rewrite of R351, in index order; its events are raised only where a rewrite has opened a fence. -/
def rewriteAll (c : Nat) (s : State) : State :=
  let t := foldOver (List.range 4096) (fun e a => rewriteEntry c e a) s
  if (List.range 4096).any (fun e => decide (steerTo e s = c ∧ steerTo e t ≠ c ∧ (fence e t).phase ≠ 0)) then
    raise clsIndRewritten { t with dsp := { t.dsp with rewriting := true } }
  else t

/-- The entries whose open fence drains cluster c. -/
def fencesFrom (c : Nat) (s : State) : List Nat :=
  (s.dsp.fences.filter (fun x => decide (x.2.phase = 2 ∧ x.2.old = c))).map (fun x => x.1)

/-- A cluster's MCS channel has entered FAULT: the dispatcher takes the cluster out (R216, R351). The items of an entry whose open fence
drains it go to the cluster that the entry names already (R350, R352). -/
def takeOut (c : Nat) (s : State) : State :=
  let t := { s with dsp := { s.dsp with out := c :: s.dsp.out.filter (· != c) } }
  rewriteAll c (foldOver (fencesFrom c t) (fun e a => transferEntry e c a) t)

/-- CLUSTER_OUT (R314): fault code 0x10 for a second machine check on a word, 0x11 for an unreadable golden copy. -/
def clusterOut (c bank word code : Nat) (s : State) : State :=
  let t := writeRec 6 3 (blockCode .mcs) (recChan (some c)) (bytesLE 1 c ++ bytesLE 1 bank ++ bytesLE 2 word ++ bytesLE 1 code) s
  takeOut c (raiseC mcsClusterOut c (wrC mcsMcStatus_second c 1 (enterFault ⟨.mcs, some c⟩ code t)))

/-- CLUSTER_RETURN (R353): the MCS and DSP channels of a cluster taken out are both ON again. -/
def clusterReturn (c : Nat) (s : State) : State :=
  if s.dsp.out.contains c && chanOn .mcs c s && chanOn .dsp c s then
    let t := raiseC dspClusterReturned c { s with dsp := { s.dsp with out := s.dsp.out.filter (· != c) } }
    if cf dspFenceCfg_autoReturn t = 1 then
      foldOver ((List.range 4096).filter (fun e => sget zeroDefault t.dsp.homes e == c && steerTo e t != c))
        (fun e a => if (fence e a).phase = 0 then moveEntry e c false a
          else { a with dsp := { a.dsp with back := a.dsp.back ++ [e] } }) t
    else t
  else s

def execClusterReturn (c : Nat) (s : State) : Host.Outcome State Fault Refusal :=
  guarded (decide (c < 32)) (clusterReturn c s)

/-! ### DSP in the common state machine (R355) -/

/-- Frame items that a clearing finds not started end now, as cancelled; a lookup in flight ends with them (R355). -/
def cancelLeft (c : Nat) (s : State) : State :=
  foldOver ((items c s).filter (fun i => i.isFrame && !i.isRunning)) (fun i a => cancelNow c i (i.cancel.getD 4) a) s

/-- A cleared dispatcher: only its started items and operations go on, and their releases find no entry (R355). -/
def clearCluster (x : Cluster) : Cluster :=
  { items := (x.items.filter (fun i => i.isRunning)).map (fun i => { i with orphan := true }), seq := x.seq }

/-- The operations not started that clearing a dispatcher drops and their sources offer again (R280, R286, R342), but for retire checks. -/
def offerLeft (c : Nat) (s : State) : State :=
  foldOver ((items c s).filter (fun i => i.held && !i.isRunning)) (fun i a => offerAgain i a) s

/-- One cluster's dispatcher is cleared: its frame items end, its operations are their sources' again. -/
def clearDispatcher (c : Nat) (s : State) : State :=
  let t := offerLeft c (cancelLeft c s)
  putCluster c (clearCluster (cluster c t)) t

/-- Block-wide STARTING: every dispatcher and fence is cleared and the homes are set to the current values. Operations that wait for
admission are their sources' and stay (R342). -/
def dspStarting (s : State) : State :=
  let t := foldOver (List.range 32) clearDispatcher s
  { t with dsp := { t.dsp with
      fences := []
      back := []
      rewriting := false
      homes := foldOver (List.range 4096) (fun e m => sset zeroDefault m e (steerTo e t)) [] } }

/-- Channel STARTING: the cluster's dispatcher state is cleared. -/
def dspChanStarting (c : Nat) (s : State) : State := clearDispatcher c s

/-- Every item of cluster c that has not started is cancelled with reason reset; with `ops`, table operations are dropped too. -/
def dspDiscard (ops : Bool) (c : Nat) (s : State) : State :=
  foldOver (items c s) (fun i a =>
    if i.isRunning then a
    else if i.isFrame then
      let t := askCancel c i.seq 4 a
      match itemAt c i.seq t with
      | some j => actCancel c j t
      | none => t
    else if ops then discardOp c i a else a) s

/-- No admitted item is left in cluster c. -/
def dspDrained (c : Nat) (s : State) : Bool := (items c s).all (fun i => i.orphan)

/-- The commit checks of DSP (chapter 12, register tables). -/
def dspCheck (s : State) : Option Nat :=
  let w := (reg dspWeights_w0.off 0 s).toNat
  let a := (reg dspBpAction_action0.off 0 s).toNat
  if 4096 < rd dspCfg_reserve7 s ∨ rd dspChainCfg_chainMax s = 0 ∨ rd dspChainCfg_highWater s = 0 ∨ 8192 < rd dspChainCfg_highWater s
      ∨ rd dspFenceCfg_fenceLimitMs s = 0 then some 2
  else if (List.range 8).any (fun k => decide (bitsOf a (2 * k) 2 = 3) || decide (rdX dspClassCap_cap k 0 s = 0)
      || decide (8192 < rdX dspClassCap_cap k 0 s)) then some 2
  else if (List.range 6).any (fun k => decide (bitsOf w (4 * k) 4 = 0)) then some 2
  else none

/-- CLS.IND_STATUS.busy and the entry in effect that CLS.IND_DATA reads. -/
def indView (off : Nat) (s : State) : Option Nat :=
  if off = clsIndData_value.off then some (indAt (rd clsIndAddr_table s) (rd clsIndAddr_index s) s)
  else if off = clsIndStatus_busy.off then
    some (b2n (match s.dsp.latest with | some e => decide ((fence e s).phase ≠ 0) | none => false)
      + 2 * rd clsIndStatus_refused s)
  else none

end Sys2Proof.Machine
end

