-- ==== Sys2Proof/Machine/Microcode.lean ====
section
/-! DEFINITION. Microwords and bank images (R296 to R301, R319, R320), the microcode stores of the clusters, their banks, golden copies and
switches (R312 to R326). -/

namespace Sys2Proof.Machine

/-! ### Microwords (R296) -/

/-- Slice i of a stored word. -/
def sliceOf (w i : Nat) : Nat := bitsOf w (48 * i) 48

/-- The XOR of the bits of a slice. -/
def xorBits (x : Nat) : Bool := (List.range 48).foldl (fun a i => a ^^ x.testBit i) false

/-- A word with its parity bits set (R296). -/
def withParity (w : Nat) : Nat :=
  (List.range 4).foldl (fun a i => a + b2n (xorBits (sliceOf w i)) * 2 ^ (192 + i)) (w % 2 ^ 192)

/-- Every slice agrees with its parity bit. -/
def parityOk (w : Nat) : Bool := (List.range 4).all (fun i => xorBits (sliceOf w i) == w.testBit (192 + i))

/-- Slice 0 (R297): sequencing and verdict. -/
structure SeqSlice where
  seq : Nat
  cond : Nat
  target : Nat
  verdict : Nat
  gen : Bool
  jreg : Nat
  jbits : Nat
  deriving DecidableEq, Repr

/-- Read slice 0. -/
def seqSlice (w : Nat) : SeqSlice :=
  let x := sliceOf w 0
  ⟨bitsOf x 0 4, bitsOf x 4 5, bitsOf x 9 13, bitsOf x 22 3, bit x 25, bitsOf x 26 5, bitsOf x 31 3⟩

/-- Slice 1 or 2 (R298): an ALU operation. -/
structure AluSlice where
  op : Nat
  dst : Nat
  a : Nat
  bImm : Bool
  b : Nat
  imm : Nat
  pset : Nat
  pen : Bool
  width : Nat
  deriving DecidableEq, Repr

/-- Read slice 1 or 2. -/
def aluSlice (w i : Nat) : AluSlice :=
  let x := sliceOf w i
  ⟨bitsOf x 0 6, bitsOf x 6 5, bitsOf x 11 5, bit x 16, bitsOf x 17 5, bitsOf x 22 16, bitsOf x 38 3, bit x 41, bitsOf x 42 2⟩

/-- Slice 3 (R300): memory (kinds 1 load, 2 store, 3 copy) or external operation (kind 4). -/
structure MemSlice where
  kind : Nat
  reg : Nat
  addr : Nat
  areg : Nat
  aidx : Bool
  size : Nat
  le : Bool
  len : Nat
  dst : Nat
  extOp : Nat
  opa : Nat
  opb : Nat
  imm : Nat
  deriving DecidableEq, Repr

/-- Read slice 3. -/
def memSlice (w : Nat) : MemSlice :=
  let x := sliceOf w 3
  { kind := bitsOf x 0 4, reg := bitsOf x 4 5, addr := bitsOf x 9 10, areg := bitsOf x 19 5, aidx := bit x 24, size := bitsOf x 25 2,
    le := bit x 27, len := bitsOf x 28 8, dst := bitsOf x 36 10, extOp := bitsOf x 9 5, opa := bitsOf x 14 5, opb := bitsOf x 19 5,
    imm := bitsOf x 24 16 }

/-- Slice 0 holds an undefined encoding (R297). -/
def seqUndefined (w : Nat) : Bool :=
  let q := seqSlice w
  decide (9 ≤ q.seq ∨ 15 ≤ q.cond ∨ (q.seq = 7 ∧ (q.verdict = 0 ∨ 5 ≤ q.verdict)) ∨ bitsOf (sliceOf w 0) 34 14 ≠ 0)

/-- An ALU slice holds an undefined encoding (R298, R299). -/
def aluUndefined (w i : Nat) : Bool :=
  let a := aluSlice w i
  decide (30 ≤ a.op ∨ bitsOf (sliceOf w i) 44 4 ≠ 0) || (a.bImm && decide (a.op = 20 ∨ a.op = 23))

/-- Slice 3 holds an undefined encoding (R300, R301). -/
def memUndefined (w : Nat) : Bool :=
  let m := memSlice w
  if m.kind = 0 then false
  else if m.kind < 4 then decide (bitsOf (sliceOf w 3) 46 2 ≠ 0)
  else decide (m.kind ≠ 4 ∨ bitsOf (sliceOf w 3) 40 8 ≠ 0 ∨ m.extOp = 0 ∨ 13 ≤ m.extOp ∨ (m.extOp = 9 ∧ 1 < m.imm))

/-- A word uses an encoding that the spec does not define (R297). -/
def undefinedWord (w : Nat) : Bool := seqUndefined w || aluUndefined w 1 || aluUndefined w 2 || memUndefined w

/-- A fetched word that raises a machine check (R312). -/
def badWord (w : Nat) : Bool := !parityOk w || undefinedWord w

/-! ### Bank images (R319, R320) -/

/-- The number of words of an image. -/
def imgCount (img : List Byte) : Nat := leAt img 6 2

/-- Entry p of an image's program table, and its fields. -/
def imgProg (img : List Byte) (p : Nat) : Nat := leAt img (0x20 + 8 * p) 8
def peEntry (x : Nat) : Nat := bitsOf x 0 13
def peProgValid (x : Nat) : Bool := bit x 15
def peMaxWords (x : Nat) : Nat := bitsOf x 16 16

/-- Word i of an image, without parity. -/
def imgWord (img : List Byte) (i : Nat) : Nat := leAt img (0x820 + 24 * i) 24

/-- The words of an image in order. -/
def imgWords : Nat → List Byte → List Nat
  | 0, _ => []
  | n + 1, bs => leAt bs 0 24 :: imgWords n (bs.drop 24)

/-- Every address that a word's sequencing can name lies below the count (R320). -/
def targetsOk (n w : Nat) : Bool :=
  let q := seqSlice w
  if 1 ≤ q.seq ∧ q.seq ≤ 4 then decide (q.target < n)
  else if q.seq = 6 then decide (q.target + 2 ^ (q.jbits + 1) ≤ n)
  else true

/-- A program-table entry of an image is as R319 and R320 state. -/
def progOk (n x : Nat) : Bool :=
  decide (bitsOf x 13 2 = 0 ∧ bitsOf x 48 16 = 0) && (!peProgValid x || decide (peEntry x < n ∧ 1 ≤ peMaxWords x))

/-- Hallmark accepts a bank image (R320). -/
def bankImageOk (img : List Byte) : Bool :=
  let n := imgCount img
  decide (leAt img 0 4 = 0x434D474B ∧ leAt img 4 2 = 1 ∧ 1 ≤ n ∧ n ≤ 8192 ∧ leAt img 0x10 16 = 0 ∧ img.length = 0x820 + 24 * n)
    && peProgValid (imgProg img 0)
    && (List.range 256).all (fun p => progOk n (imgProg img p))
    && (imgWords n (img.drop 0x820)).all (fun w => !undefinedWord w && targetsOk n w)

/-! ### Stores -/

/-- Cluster c's microcode store. -/
def store (c : Nat) (s : State) : Store := sget (fun _ => ({} : Store)) s.fen.stores c

/-- Store a cluster's microcode store. -/
def putStore (c : Nat) (x : Store) (s : State) : State :=
  { s with fen := { s.fen with stores := sset (fun _ => ({} : Store)) s.fen.stores c x } }

/-- Change a cluster's microcode store. -/
def modStore (c : Nat) (f : Store → Store) (s : State) : State := putStore c (f (store c s)) s

/-- The place of a word of a bank. -/
def wordPlace (bank w : Nat) : Nat := 8192 * (bank % 2) + w % 8192

/-- A stored word, with its parity. -/
def wordAt (c bank w : Nat) (s : State) : Nat := sget zeroDefault (store c s).words (wordPlace bank w)

/-- The word count of a bank. -/
def bankWords (c bank : Nat) (s : State) : Nat := if bank % 2 = 0 then (store c s).count0 else (store c s).count1

/-- Entry p of a bank's program table. -/
def progAt (c bank p : Nat) (s : State) : Nat := sget zeroDefault (store c s).progs (256 * (bank % 2) + p % 256)

/-- The state of a bank (R318): 0 empty, 1 loading, 2 ready, 3 live, 4 draining. -/
def bankState (c bank : Nat) (s : State) : Nat := if bank % 2 = 0 then rdC mcsBankState_bank0 c s else rdC mcsBankState_bank1 c s

/-- Set the state of a bank. -/
def putBankState (c bank v : Nat) (s : State) : State :=
  if bank % 2 = 0 then wrC mcsBankState_bank0 c v s else wrC mcsBankState_bank1 c v s

/-- The live bank of a cluster. -/
def liveBank (c : Nat) (s : State) : Nat := rdC mcsBankState_live c s

/-- Whether a word is marked for reload (R312). -/
def markedWord (c bank w : Nat) (s : State) : Bool := (store c s).marked.contains (wordPlace bank w)

/-- A bank's golden copy can be read. -/
def goldenReadable (c bank : Nat) (s : State) : Bool := !(store c s).badGold.contains (bank % 2)

/-! ### Loading a bank (R321) -/

/-- Write numbers from key k on. -/
def putRun : Nat → List Nat → Sparse Nat → Sparse Nat
  | _, [], m => m
  | k, x :: xs, m => putRun (k + 1) xs (sset zeroDefault m k x)

/-- A bank and its golden copy hold an image; the failure history of its words ends (R314). -/
def fillBank (bank : Nat) (img : List Byte) (x : Store) : Store :=
  let b := bank % 2
  let n := imgCount img
  let ws := (imgWords n (img.drop 0x820)).map withParity
  let ps := (List.range 256).map (imgProg img)
  let keepW (m : Sparse Nat) : Sparse Nat := sfilter (fun k => decide (k / 8192 ≠ b)) m
  let keepP (m : Sparse Nat) : Sparse Nat := sfilter (fun k => decide (k / 256 ≠ b)) m
  { x with
    words := putRun (8192 * b) ws (keepW x.words)
    golden := putRun (8192 * b) ws (keepW x.golden)
    progs := putRun (256 * b) ps (keepP x.progs)
    goldProgs := putRun (256 * b) ps (keepP x.goldProgs)
    count0 := if b = 0 then n else x.count0
    count1 := if b = 0 then x.count1 else n
    marked := x.marked.filter (fun k => decide (k / 8192 ≠ b))
    failed := x.failed.filter (fun k => decide (k / 8192 ≠ b))
    badGold := x.badGold.filter (· != b)
    loading := none }

/-- Write an image into a bank, which becomes `st` (2 ready, 3 live). -/
def writeBank (c bank : Nat) (img : List Byte) (st : Nat) (s : State) : State :=
  let t := putBankState c bank st (modStore c (fillBank bank img) s)
  if bank % 2 = 0 then wrC mcsBankInfo0_sequence c (leAt img 8 4) t else wrC mcsBankInfo1_sequence c (leAt img 8 4) t

/-- Hallmark begins to write a bank: it is loading until both copies are written (R321). -/
def beginBankLoad (c bank : Nat) (img : List Byte) (s : State) : State :=
  putBankState c bank 1 (modStore c (fun x => { x with loading := some (bank % 2, img) }) s)

/-- BANK_LOAD_DONE: the bank and its golden copy are written and the digest is recorded. -/
def bankLoadDone (c : Nat) (s : State) : State :=
  match (store c s).loading with
  | some (b, img) => writeBank c b img 2 s
  | none => s

/-! ### Switching banks (R322, R323) -/

/-- The check of an MCS commit (R322): busy while a bank drains, refused for a bank that is not ready. -/
def mcsCheck (s : State) : Option Nat :=
  let cs := List.range 32
  if cs.any (fun c => decide (bankState c 0 s = 4 ∨ bankState c 1 s = 4)) then some 1
  else if cs.any (fun c => decide (rdC mcsBankCtl_bankSel c s ≠ liveBank c s)
      && decide (bankState c (rdC mcsBankCtl_bankSel c s) s ≠ 2)) then some 2
  else none

/-- Switch one cluster to the bank that bank_sel names, if it differs. -/
def switchBank (c : Nat) (s : State) : State :=
  let b := rdC mcsBankCtl_bankSel c s
  let o := liveBank c s
  if b = o then s
  else
    let t := putBankState c b 3 (if bankState c o s = 3 then putBankState c o 4 s else s)
    raiseC mcsBankSwitched c (incX mcsBankState_switches 0 c (wrC mcsBankState_live c b t))

/-- An MCS commit has taken effect: every cluster whose bank_sel changed switches. -/
def mcsCommitted (s : State) : State := foldOver (List.range 32) switchBank s

/-- The engines of a cluster that run an item on a bank. -/
def runningOn (c bank : Nat) (s : State) : Bool :=
  (List.range 16).any (fun k => match (engine (16 * c + k) s).run with
    | some r => decide (r.bank = bank)
    | none => false)

/-- BANK_DRAIN_COMPLETE: no engine of the cluster runs an item on the draining bank. -/
def bankDrainComplete (c : Nat) (s : State) : State :=
  let b := if bankState c 0 s = 4 then 0 else 1
  if bankState c b s = 4 ∧ runningOn c b s = false then putBankState c b 2 s else s

def execBankDrainComplete (c : Nat) (s : State) : Host.Outcome State Fault Refusal :=
  guarded (decide (c < 32)) (bankDrainComplete c s)

/-! ### Golden copies (R312, R314, R316) -/

/-- Store the run of engine e. -/
def putEngRun (e : Nat) (r : Run) (s : State) : State := putEngine e { engine e s with run := some r } s

/-- The running item of an engine, with its frame. -/
def runningItem (e : Nat) (s : State) : Option (Run × Item) :=
  match (engine e s).run with
  | some r => (itemAt (e / 16) r.item s).map (fun i => (r, i))
  | none => none

/-- The engines of a cluster that wait for one of the words `ws` run their items once more from the first word (R313). -/
def resumeEngines (c : Nat) (ws : Nat → Bool) (s : State) : State :=
  foldOver (List.range 16) (fun j a =>
    match (engine (16 * c + j) a).run with
    | some r => if r.reload && ws r.failedWord then putEngRun (16 * c + j) { r with reload := false } a else a
    | none => a) s

/-- The item of an engine is dropped after a machine check: nothing of it is written. -/
def mcDrop (e c : Nat) (i : Item) (s : State) : State :=
  raiseC fenMcDrop e (satX mcsMcCount_mcDrop 0 c 1
    (removeItem c i.seq (unlockItem i (dropFrame i.frame (putEngine e { engine e s with run := none } s)))))

/-- Engine e waits for a word of bank b that is marked for reload. -/
def waitsReload (e b : Nat) (s : State) : Bool :=
  match (engine e s).run with
  | some r => decide (r.bank % 2 = b) && r.ended.isNone && (r.reload || markedWord (e / 16) r.bank r.pc s)
  | none => false

/-- The items whose engines wait for a word of a bank are dropped, since Hallmark cannot read its golden copy (R314). -/
def dropWaiting (c b : Nat) (s : State) : State :=
  foldOver (List.range 16) (fun j a =>
    match runningItem (16 * c + j) a with
    | some (_, i) => if waitsReload (16 * c + j) b a then mcDrop (16 * c + j) c i a else a
    | none => a) s

/-- Write a word again from its golden copy. -/
def rewriteWord (k : Nat) (x : Store) : Store :=
  { x with words := sset zeroDefault x.words k (sget zeroDefault x.golden k), marked := x.marked.filter (· != k) }

/-- The place that a comparison reaches next: a bank that is empty or loading is passed over (R316). -/
def comparePlace (c : Nat) (s : State) : Option Nat :=
  let skip (b : Nat) : Bool := decide (bankState c b s ≤ 1)
  let p := (store c s).comparePos % 16384
  if !skip (p / 8192) then some p
  else if p / 8192 = 0 ∧ skip 1 = false then some 8192
  else if p / 8192 = 1 ∧ skip 0 = false then some 0
  else none

/-- The comparison goes on after place k, ending a pass with the last word it reaches (R316). -/
def compareNext (c k : Nat) (s : State) : State :=
  modStore c (fun y => { y with comparePos := (k + 1) % 16384 })
    (if k = 16383 ∨ (8191 = k ∧ bankState c 1 s ≤ 1) then incX mcsGoldenStatus_passes 0 c s else s)

/-- A comparison of the word at place k (R316). A word written again is no longer awaited (R313). -/
def compareWord (c k : Nat) (s : State) : State :=
  let x := store c s
  if sget zeroDefault x.words k = sget zeroDefault x.golden k then s
  else resumeEngines c (· == k)
    (raiseC mcsGoldenMismatch c (satX mcsGoldenStatus_mismatches 0 c 1 (modStore c (rewriteWord k) s)))

/-- GOLDEN_COMPARE: one word per cluster; `flip` is a bit of that word found flipped. A word whose golden copy cannot be read is passed
over. -/
def goldenCompare (c : Nat) (flip : Option Nat) (s : State) : State :=
  match comparePlace c s with
  | none => s
  | some k =>
    let t := match flip with
      | some b => modStore c (fun x => { x with words := smod zeroDefault x.words k (fun w => w ^^^ 2 ^ (b % 196)) }) s
      | none => s
    compareNext c k (if goldenReadable c (k / 8192) t then compareWord c k t else t)

def execGoldenCompare (c : Nat) (flip : Option Nat) (s : State) : Host.Outcome State Fault Refusal :=
  guarded (decide (c < 32)) (goldenCompare c flip s)

/-- GOLDEN_DIGEST_CHECK: a golden copy is checked against its digest. One that fails is unreadable; the live bank's takes the cluster out,
and so does one that holds a word an engine waits for, whose items are dropped (R314, R316). -/
def goldenDigestCheck (c bank : Nat) (ok : Bool) (s : State) : State :=
  let b := bank % 2
  if ok ∨ bankState c b s ≤ 1 ∨ goldenReadable c b s = false then s
  else
    let t := raiseC mcsGoldenUnreadable c (modStore c (fun x => { x with badGold := b :: x.badGold }) s)
    let waits := (List.range 16).any (fun j => waitsReload (16 * c + j) b s)
    dropWaiting c b (if ((b = liveBank c s ∧ bankState c b s = 3) ∨ waits = true) ∧ (tgt ⟨.mcs, some c⟩ s).st ≠ .fault then
      clusterOut c b ((store c s).comparePos % 8192) 0x11 t
    else t)

def execGoldenDigestCheck (c bank : Nat) (ok : Bool) (s : State) : Host.Outcome State Fault Refusal :=
  guarded (decide (c < 32 ∧ bank < 2)) (goldenDigestCheck c bank ok s)

/-! ### Reading the store (R326) -/

/-- A write of MCS.WORD_ADDR; with load, the addressed word of the selected cluster goes to WORD_DATA0 to 6. -/
def mcsWordLoad (w : Window) (v : Word) (s : State) : State :=
  let i := winIdx w
  let c := selChan w .mcs s
  let bank := wordField v 13 1
  let a := wordField v 0 13
  let s1 := wrC mcsWordAddr_bank i bank (wrC mcsWordAddr_word i a s)
  if bit v.toNat 31 then
    let x := wordAt c bank a s
    wrX mcsWordData_data 6 i (bitsOf x 192 4 + 16 * b2n (markedWord c bank a s))
      (foldOver (List.range 6) (fun k t => wrX mcsWordData_data k i (bitsOf x (32 * k) 32) t) s1)
  else s1

def execMcsWordLoad (w : Window) (v : Word) (s : State) : Host.Outcome State Fault Refusal :=
  .next (writing w .mcs (mcsWordLoad w v) s)

/-- MCS.PROG_ENTRY: the entry of the selected program of a cluster. -/
def mcsView (off w c : Nat) (s : State) : Option Nat :=
  if off = mcsProgEntry_entry.off then
    some (bitsOf (progAt c (rdC mcsProgSel_bank w s) (rdC mcsProgSel_program w s) s) 0 32 &&& 0xFFFF9FFF)
  else none

/-! ### MCS in the common state machine (R325) -/

/-- An MCS channel's precondition: its live bank is live and has a valid golden copy. -/
def mcsReady (c : Nat) (s : State) : Bool := decide (bankState c (liveBank c s) s = 3) && goldenReadable c (liveBank c s) s

/-- MCS channel STARTING: the live bank is written again from its golden copy and the failure history is cleared. -/
def mcsStarting (c : Nat) (s : State) : State :=
  let b := liveBank c s
  resumeEngines c (fun k => k / 8192 == b) <| modStore c (fun x => { x with
    words :=
      (x.golden.filter (fun e => decide (e.1 / 8192 = b))).foldl (fun m e => sset zeroDefault m e.1 e.2)
        (sfilter (fun k => decide (k / 8192 ≠ b)) x.words)
    marked := x.marked.filter (fun k => decide (k / 8192 ≠ b))
    failed := [] }) s

/-- A per-block reset of a cluster's MCS channel keeps its banks, their states and golden copies and nothing else; bank_sel then reads the
live bank (R124, R325). -/
def mcsReset (c : Nat) (keep : State) (s : State) : State :=
  let t := { s with fen := { s.fen with stores := sset (fun _ => ({} : Store)) s.fen.stores c { store c keep with failed := [] } } }
  let t1 := wrX mcsBankState_switches 0 c 0 (putReg mcsBankState_bank0.off c (reg mcsBankState_bank0.off c keep) t)
  let t2 := putReg mcsBankInfo0_sequence.off c (reg mcsBankInfo0_sequence.off c keep)
    (putReg mcsBankInfo1_sequence.off c (reg mcsBankInfo1_sequence.off c keep) t1)
  let k := rkey mcsBankCtl_bankSel.off c
  let t3 := wrC mcsBankCtl_bankSel c (liveBank c keep) t2
  { t3 with fab := { t3.fab with live := sset regReset t3.fab.live k (BitVec.ofNat 32 (liveBank c keep)) } }

end Sys2Proof.Machine
end

