-- ==== Sys2Proof/Machine/FlowTable.lean ====
section
/-! DEFINITION. Operations on the flow table (R267, R268, R280, R285 to R288, R610): aging, retire checks, cleanups, the export rings and
the command rings. -/

namespace Sys2Proof.Machine

/-! ### Aging (R267, R268) -/

/-- FLOW_TICK: the tick count rises by one, modulo 2²⁰. -/
def flowTick (s : State) : State := wr fltTickNow_tick (tickNow s + 1) s

def execFlowTick (s : State) : Host.Outcome State Fault Refusal := .next (flowTick s)

/-- The age of a stamp in ticks. -/
def ageOf (stamp : Nat) (s : State) : Nat := (tickNow s + 2 ^ 20 - stamp % 2 ^ 20) % 2 ^ 20

/-- Whether a stamp's age reaches the idle timeout of a program; 0 means never. -/
def idleReached (stamp prog : Nat) (s : State) : Bool :=
  let t := cfC fltProgTimeout_timeout prog s
  decide (t ≠ 0) && decide (t ≤ ageOf stamp s)

/-- The scanner proposes a retire check for a place that looks idle (R268, R272). -/
def scanPlace (b p : Nat) (s : State) : State :=
  let x := placeAt b p s
  if slState x = 1 ∧ idleReached (slStamp x) (slProg x) s = true then
    offerOp { op := .retireCheck p (slRec x), tag := b, digest := slDigest x } s
  else s

/-- Raw counts in a millisecond. -/
def rawPerMs : Nat := 781250

/-- A scanner pass ends. -/
def scanPassEnd (s : State) : State :=
  let d := s.tim.raw - s.flow.scanRaw
  let t := wr fltScanStatus_lastPassMs (min 65535 (d / rawPerMs)) (incX fltScanStatus_passes 0 0
    { s with flow := { s.flow with scanRaw := s.tim.raw } })
  if 60 * rawPerMs < d then raise fltScanOverrun t else t

/-- What the scanner proposes at a place: retire checks; where it cannot read the place, the action of R278 under the tag (DEDUCED from
R272: the scanner itself changes no bucket). -/
def scanAt (v : ScanVisit) (s : State) : State :=
  let n := recordCount s
  if v.place < n then
    (if v.lost then offerOp { op := .lostBucket, tag := v.place } (eccUncorrectable 0 (bucketAddr v.place s) false s)
     else foldOver [0, 1, 2, 3] (scanPlace v.place) (readBucket v.place (if v.corrected then bucketCorrected v.place s else s)))
  else
    let e := v.place - n
    let b := slBucket (ovfAt e s)
    if v.lost then offerOp { op := .lostEntry e, tag := b } (eccUncorrectable 4 (16 * e) false s)
    else scanPlace b (4 + e) (if v.corrected then overflowCorrected s else s)

/-- SCANNER_VISIT: a bucket or an overflow entry; `last` ends the pass. -/
def scannerVisit (v : ScanVisit) (last : Bool) (s : State) : State := if last then scanPassEnd (scanAt v s) else scanAt v s

def execScannerVisit (visit : ScanVisit) (last : Bool) (s : State) : Host.Outcome State Fault Refusal :=
  guarded (decide (visit.place < 2 ^ 27 + ovfTotal))
    (onlyIf (blockOn .flt s && decide (visit.place < recordCount s + ovfTotal)) (scannerVisit visit last) s)

/-! ### Completing a table operation -/

/-- The running table operation with a sequence number. -/
def runningOp (c q : Nat) (s : State) : Option Item :=
  match itemAt c q s with
  | some i => if !i.isFrame && i.isRunning then some i else none
  | none => none

/-- What the memory errors of an operation on bucket b do before it reads its slot (R278). -/
def opErrors (b : Nat) (err : LookupErr) (s : State) : State := readBucket b (bucketErrors b err s)

/-- Whether the record itself cannot be corrected. -/
def recordLost (i : Nat) (err : LookupErr) (s : State) : Bool :=
  match err with
  | .record _ => (cachedLine i s).isNone
  | .line => match cachedLine i s with | some l => l.dirty | none => false
  | .none | .corrected | .bucket | .overflow _ | .recordCorrected _ | .overflowCorrected | .lineCorrected => false

/-- Count what an uncorrectable record read shows (R278). -/
def recordErrorSeen (i : Nat) (s : State) : State :=
  if (cachedLine i s).isSome then lineBad s else recordBad i s

/-- A record is read that is not lost: a clean cache line that cannot be corrected is dropped and the record read from HBM, and a
corrected error is counted (R278). -/
def dropClean (i : Nat) (err : LookupErr) (s : State) : State :=
  match cachedLine i s, err with
  | some l, .line => if l.dirty then s else lineBad (dropLine i s)
  | some _, .lineCorrected => lineCorrected s
  | none, .recordCorrected _ => recordCorrected i s
  | _, _ => s

/-- The retire check of a slot under its tag (R268). -/
def retireCheckOp (b p i : Nat) (err : LookupErr) (s0 : State) : State :=
  let s := opErrors b err s0
  let x := placeAt b p s
  if slState x ≠ 1 ∨ slRec x ≠ i then s
  else if recordLost i err s then poisonRecord b p i (recordErrorSeen i s)
  else
    let t := dropClean i err s
    let hit := rcHit (recordAt i t)
    if idleReached hit (slProg x) t then
      (if exportFree t < 1024 then raise fltRetireDeferred (fltCount 10 t) else retire b p i 1 false t)
    else if slStamp x ≠ hit then fltCount 9 (putPlace b p (withBits x 41 20 hit) t)
    else t

/-- RETIRE_CHECK: a retire check in the table unit completes. -/
def retireCheck (c q : Nat) (err : LookupErr) (s : State) : State :=
  match runningOp c q s with
  | some i => match i.op with
    | .retireCheck p r => opDone c q (retireCheckOp i.tag p r err s)
    | _ => s
  | none => s

def execRetireCheck (c seq : Nat) (err : LookupErr) (s : State) : Host.Outcome State Fault Refusal :=
  guarded (decide (c < 32)) (retireCheck c seq err s)

/-- Issue the cleanup of the first pending slot that has none (R280). -/
def issueCleanup (s : State) : State :=
  match s.flow.retiring.find? (fun r => !r.issued) with
  | none => s
  | some r =>
    offerOp { op := .cleanup r.pos r.recIndex, tag := r.bucket }
      { s with flow := { s.flow with
          retiring := s.flow.retiring.map (fun x => if x.recIndex = r.recIndex then { x with issued := true } else x) } }

/-- A retiring record as its cleanup reads it, with its reason: one that cannot be corrected is exported with reason 4 (R278). -/
def cleanupRecord (p i reason : Nat) (err : LookupErr) (s : State) : Nat × List Byte × State :=
  if recordLost i err s then
    let r := lostRecord (slProg p) (retireCount 4 (recordErrorSeen i s))
    (4, r.1, r.2)
  else (reason, recordAt i (dropClean i err s), dropClean i err s)

/-- The cleanup of a retiring slot under its tag (R280). -/
def cleanupOp (b p i : Nat) (err : LookupErr) (s0 : State) : State :=
  let s := opErrors b err s0
  match s.flow.retiring.find? (fun r => r.recIndex == i) with
  | none => s
  | some r =>
    let rest (t : State) : State := { t with flow := { t.flow with retiring := t.flow.retiring.filter (fun x => x.recIndex != i) } }
    let x := placeAt b p s
    if slState x ≠ 2 ∨ slRec x ≠ i then rest s
    else if exportRoom s then
      let d := cleanupRecord x i r.reason err s
      retireEnd b p i (rcGen d.2.1) (buildExport b i d.1 d.2.1 (rest d.2.2))
    else
      { s with flow := { s.flow with
          retiring := s.flow.retiring.map (fun x => if x.recIndex = i then { x with issued := false } else x) } }

/-- RETIRE_CLEANUP: a cleanup in the table unit completes. -/
def retireCleanup (c : Nat) (d : OpEnd) (s : State) : State :=
  match runningOp c d.seq s with
  | some i => match i.op with
    | .cleanup p r => opDone c d.seq (cleanupOp i.tag p r d.err s)
    | _ => s
  | none => s

def execRetireCleanup (c : Nat) (done : OpEnd) (s : State) : Host.Outcome State Fault Refusal :=
  guarded (decide (c < 32)) (retireCleanup c done s)

/-! ### Export rings (R610) -/

/-- Whether a ring's base and size are acceptable. -/
def ringOk (align lo n : Nat) : Bool := decide (lo % align = 0) && decide (4 ≤ n ∧ n ≤ 12)

/-- Entries between two indices of a ring of 2ⁿ entries. -/
def ringUsed (n prod cons : Nat) : Nat := (prod + 2 ^ (n + 1) - cons % 2 ^ (n + 1)) % 2 ^ (n + 1)

/-- The export ring of a window copy can take a record. -/
def exportRingFree (c : Nat) (s : State) : Bool :=
  let n := rdC fltExpqCfg_log2Entries c s
  decide (rdC fltExpqCfg_enable c s = 1) && decide (ringUsed n (rdC fltExpqProd_index c s) (rdC fltExpqCons_index c s) < 2 ^ n)

/-- Base of an export ring. -/
def exportBase (c : Nat) (s : State) : Nat := rdC fltExpqBaseLo_addr c s + rdC fltExpqBaseHi_addr c s * 2 ^ 32

/-- A write to the memory that a window copy's rings lie in: host memory for window H, that of the management cores else (R286). -/
def ringOut (c addr : Nat) (bytes : List Byte) : Output := if c = 0 then .hostWrite addr bytes else .mgmtWrite addr bytes

/-- PERST_N low stops the host memory accesses of a window copy (R68): the DMA of window H. -/
def dmaStopped (c : Nat) (s : State) : Bool := decide (c = 0) && s.pwr.perstLow

/-- EXPORT_RING_WRITE: the oldest record of the export queue goes to its ring while FLT is ON (R289); a freed place lets a cleanup go. -/
def exportRingWrite (s : State) : State :=
  match s.flow.exportQ with
  | [] => s
  | (d, r) :: rest =>
    let c := d - 1
    if blockOn .flt s && !dmaStopped c s && exportRingFree c s then
      let n := rdC fltExpqCfg_log2Entries c s
      let p := rdC fltExpqProd_index c s
      issueCleanup (emit (ringOut c (exportBase c s + 128 * (p % 2 ^ n)) r)
        (wrC fltExpqProd_index c ((p + 1) % 2 ^ (n + 1)) { s with flow := { s.flow with exportQ := rest } }))
    else s

def execExportRingWrite (s : State) : Host.Outcome State Fault Refusal := .next (exportRingWrite s)

/-- EXPQ_CONS_WRITE: software advances its consumer index. -/
def execExpqConsWrite (w : Window) (v : Word) (s : State) : Host.Outcome State Fault Refusal :=
  .next (writing w .flt (wrC fltExpqCons_index (winIdx w) (wordField v 0 13)) s)

/-- A write of EXPQ_CFG. -/
def expqCfgWrite (c : Nat) (v : Word) (s : State) : State :=
  let en := wordField v 4 1
  if rdC fltExpqCfg_enable c s = 1 then wrC fltExpqCfg_enable c en s
  else
    let t := wrC fltExpqCfg_log2Entries c (wordField v 0 4) s
    if en = 0 then t
    else if ringOk 128 (rdC fltExpqBaseLo_addr c s) (wordField v 0 4) then wrC fltExpqCfg_enable c 1 t
    else raise fltExpError t

def execExpqEnable (w : Window) (v : Word) (s : State) : Host.Outcome State Fault Refusal :=
  .next (writing w .flt (expqCfgWrite (winIdx w) v) s)

/-! ### Command rings (R286 to R288) -/

/-- The device takes base and n of a ring. -/
def takeRing (c : Nat) (s : State) : State :=
  { s with flow := { s.flow with ringAt := sset (fun _ => none) s.flow.ringAt c (some (ringRegs c s)) } }
/-- The index after one, modulo 2ⁿ⁺¹. -/
def cmdNext (c k : Nat) (s : State) : Nat := (k + 1) % 2 ^ (cmdN c s + 1)
/-- The bytes of the entry at a ring index, as software handed it over. -/
def entryAt (c k : Nat) (s : State) : List Byte := slice (sget (fun _ => []) s.flow.ring (16384 * c + k)) 0 256

def enOp (e : List Byte) : Nat := leAt e 0 1
def enNoExport (e : List Byte) : Bool := bit (leAt e 1 1) 0
def enPinned (e : List Byte) : Bool := bit (leAt e 1 1) 1
def enProgram (e : List Byte) : Nat := leAt e 2 1
def enGen (e : List Byte) : Nat := leAt e 3 1
def enIndex (e : List Byte) : Nat := leAt e 4 4
def enKey (e : List Byte) : List Byte := slice e 0x10 48
def enState (e : List Byte) : List Byte := slice e 0x40 48
/-- An op that names its record by index. -/
def byIndex (op : Nat) : Bool := decide (op = 2 ∨ op = 5)

/-- Whether an entry is well formed (R287). -/
def entryOk (e : List Byte) (s : State) : Bool :=
  decide (1 ≤ enOp e ∧ enOp e ≤ 8) && decide (leAt e 1 1 < 4) && decide (leAt e 8 8 = 0)
    && (!byIndex (enOp e) || decide (enIndex e < recordCount s))

/-- CONS advances in ring order over complete entries (R286); `n` bounds the walk. -/
def advanceCons (c : Nat) : Nat → State → State
  | 0, s => s
  | n + 1, s =>
    let k := rdC fltCmdqCons_index c s
    if s.flow.done.contains (c, k) then
      let t := wrC fltCmdqCons_index c (cmdNext c k s) { s with flow := { s.flow with done := s.flow.done.filter (· != (c, k)) } }
      if rdC fltCmdqCons_index c t = rdC fltCmdqProd_index c t then raise fltCmdDone t else advanceCons c n t
    else s

/-- What an operation answers: result, position, record index, record. -/
structure CmdAnswer where
  result : Nat
  pos : Nat := 0
  index : Nat := 0
  data : List Byte := []
  deriving DecidableEq, Repr

/-- Complete the entry at a ring index: bytes 0x80–0xFF, then 0x78–0x7F, and done last (R286). An entry in flight when PERST_N fell, or
while it is low, is abandoned and never completed (R68). -/
def completeEntry (c k : Nat) (a : CmdAnswer) (s : State) : State :=
  if dmaStopped c s || s.flow.abandoned.contains (c, k) then s
  else
  let at_ := cmdBase c s + 256 * (k % 2 ^ cmdN c s)
  let t := emit (ringOut c (at_ + 0x7A) [1])
    (emit (ringOut c (at_ + 0x78) (bytesLE 1 a.result ++ bytesLE 1 (min a.pos 4) ++ [0, 0] ++ bytesLE 4 a.index))
      (emit (ringOut c (at_ + 0x80) (slice a.data 0 128)) s))
  advanceCons c 8192 { t with flow := { t.flow with done := t.flow.done ++ [(c, k)] } }

/-- The device takes an entry: a malformed one ends with result 6, any other becomes a tagged operation. -/
def takeEntry (c k : Nat) (s : State) : State :=
  let e := entryAt c k s
  if !entryOk e s then completeEntry c k { result := 6 } s
  else
    let key := if byIndex (enOp e) then rcKey (recordAt (enIndex e) s) else enKey e
    offerOp { op := .command c k, tag := bucketOfKey key s, digest := digestOfKey key, key := key } s

/-- The index taken up to. -/
def takenOf (c : Nat) (s : State) : Nat := sget zeroDefault s.flow.taken c

/-- Take every entry up to PROD, in ring order; `n` bounds the walk. -/
def takeEntries (c : Nat) : Nat → State → State
  | 0, s => s
  | n + 1, s =>
    let k := takenOf c s
    if k = rdC fltCmdqProd_index c s % 2 ^ (cmdN c s + 1) then s
    else takeEntries c n (takeEntry c k { s with flow := { s.flow with taken := sset zeroDefault s.flow.taken c (cmdNext c k s) } })

/-- A ring takes entries while it is enabled, not stopped, and FLT is ON. -/
def ringRuns (c : Nat) (s : State) : Bool :=
  decide (rdC fltCmdqCfg_enable c s = 1) && !s.flow.stopped.contains c && blockOn .flt s && !dmaStopped c s

/-- The entries of a ring that the device has taken and not completed, from an index on; `n` bounds the walk. -/
def inFlight (c : Nat) : Nat → Nat → State → List (Nat × Nat)
  | 0, _, _ => []
  | n + 1, k, s =>
    if k = takenOf c s then []
    else (if s.flow.done.contains (c, k) then [] else [(c, k)]) ++ inFlight c n (cmdNext c k s) s

/-- PERST_N abandons what window H's ring has in flight (R68). -/
def abandonRing (s : State) : State :=
  { s with flow := { s.flow with abandoned := s.flow.abandoned ++ inFlight 0 8192 (rdC fltCmdqCons_index 0 s) s } }

/-- Every entry from CONS to PROD that is not complete ends with result 7 (R288); `n` bounds the walk. -/
def failEntries (c : Nat) : Nat → Nat → State → State
  | 0, _, s => s
  | n + 1, k, s =>
    if k = rdC fltCmdqProd_index c s % 2 ^ (cmdN c s + 1) then s
    else failEntries c n (cmdNext c k s) (if s.flow.done.contains (c, k) then s else completeEntry c k { result := 7 } s)

/-- The ring of a window copy ends with result 7; its operations in progress make no further write. -/
def failRing (c : Nat) (s : State) : State :=
  let mine (i : Item) : Bool := match i.op with | .command w _ => w == c | _ => false
  let s1 := { s with dsp := { s.dsp with opWait := s.dsp.opWait.filter (fun i => !mine i) } }
  let s2 := foldOver (s1.dsp.clusters.map (fun x => x.1)) (fun d a =>
    foldOver ((items d a).filter mine) (fun i b => removeItem d i.seq b) a) s1
  let s3 := failEntries c 8192 (rdC fltCmdqCons_index c s2) s2
  { s3 with flow := { s3.flow with
      taken := sset zeroDefault s3.flow.taken c (rdC fltCmdqProd_index c s3 % 2 ^ (cmdN c s3 + 1)) } }

/-- Every ring, when FLT reaches OFF or is reset (R288). -/
def failRings (s : State) : State :=
  foldOver [0, 1, 2] (fun c a => if rdC fltCmdqCons_index c a = rdC fltCmdqProd_index c a then a else failRing c a) s

/-- The entries handed over by a write of PROD. -/
def storeEntries (c : Nat) : Nat → List (List Byte) → State → State
  | _, [], s => s
  | k, e :: es, s =>
    storeEntries c (cmdNext c k s) es { s with flow := { s.flow with ring := sset (fun _ => []) s.flow.ring (16384 * c + k) e } }

/-- CMDQ_PROD_WRITE: `entries` are the bytes that software wrote to the entries handed over, in ring order. -/
def cmdqProdWrite (c : Nat) (v : Word) (entries : List (List Byte)) (s : State) : State :=
  let old := rdC fltCmdqProd_index c s % 2 ^ (cmdN c s + 1)
  let t := wrC fltCmdqProd_index c (wordField v 0 13 % 2 ^ (cmdN c s + 1)) (storeEntries c old entries s)
  if !blockOn .flt t then failRing c t
  else if ringRuns c t then takeEntries c 8192 t else t

def execCmdqProdWrite (w : Window) (v : Word) (entries : List (List Byte)) (s : State) : Host.Outcome State Fault Refusal :=
  .next (writing w .flt (cmdqProdWrite (winIdx w) v entries) s)

/-- A write of CMDQ_CFG (R286, R288). -/
def cmdqCfgWrite (c : Nat) (v : Word) (s : State) : State :=
  let en := wordField v 4 1
  if rdC fltCmdqCfg_enable c s = 1 then wrC fltCmdqCfg_enable c en s
  else
    let t := wrC fltCmdqCfg_log2Entries c (wordField v 0 4) s
    if en = 0 then t
    else
      let ok := ringOk 256 (rdC fltCmdqBaseLo_addr c s) (wordField v 0 4)
      let rest := t.flow.stopped.filter (· != c)
      let u := takeRing c (wrC fltCmdqCfg_enable c 1 { t with flow := { t.flow with stopped := if ok then rest else c :: rest } })
      if !ok then raise fltCmdError u
      else if ringRuns c u then takeEntries c 8192 u else u

def execCmdqEnable (w : Window) (v : Word) (s : State) : Host.Outcome State Fault Refusal :=
  .next (writing w .flt (cmdqCfgWrite (winIdx w) v) s)

/-! ### The commands (R287) -/

/-- The owner epoch that a record created in bucket b takes (R259, R497). -/
def ownerEpochOf (b : Nat) (s : State) : Nat := (ownEntry (b % 4096) s).epoch

/-- Find the record an entry names: by key, or by index under the tag. -/
def cmdFind (e : List Byte) (i : Item) (err : LookupErr) (s : State) : Found3 × State :=
  if byIndex (enOp e) then
    let t := opErrors i.tag err s
    match findPlace i.tag (enIndex e) t with
    | none => ({}, t)
    | some p =>
      if recordLost (enIndex e) err t then ({ status := 2 }, poisonRecord i.tag p (enIndex e) (recordErrorSeen (enIndex e) t))
      else
        let u := dropClean (enIndex e) err t
        let r := recordAt (enIndex e) u
        if enGen e ≠ 0 ∧ enGen e ≠ rcGen r then ({}, u)
        else ({ status := 0, recIndex := enIndex e, pos := p, data := r }, u)
  else flowFind i.tag i.digest i.key err s

/-- The answer of a record that was found. -/
def foundAnswer (result : Nat) (f : Found3) (s : State) : CmdAnswer :=
  { result := result, pos := f.pos, index := f.recIndex, data := recordAt f.recIndex s }

/-- A host create of a key that is not there (R264, R266). -/
def cmdCreate (e : List Byte) (i : Item) (s : State) : CmdAnswer × State :=
  let r := reserveCreate i.tag s
  match r.2.1 with
  | none => ({ result := r.1 }, r.2.2)
  | some (n, g, p) =>
    let d := newRecord i.key (enProgram e) (leAt i.key 0 1) g (tickNow s) (ownerEpochOf i.tag s) (enState e) 0 0
    ({ result := 0, pos := p, index := n, data := d }, placeRecord i.tag i.digest p n (enProgram e) (enPinned e) d r.2.2)

/-- What op `op` does with a record that was found. -/
def cmdOnFound (e : List Byte) (i : Item) (f : Found3) (s : State) : CmdAnswer × State :=
  let op := enOp e
  if op = 3 then (foundAnswer 2 f s, s)
  else if op = 4 ∨ op = 5 then (foundAnswer 0 f s, retire i.tag f.pos f.recIndex 3 (enNoExport e) s)
  else if op = 6 then
    let t := storeRecord f.recIndex (patchBytes (recordAt f.recIndex s) 0x40 (enState e)) s
    (foundAnswer 0 f t, t)
  else if op = 7 ∨ op = 8 then
    let t := setPinned i.tag f.recIndex (decide (op = 7)) s
    (foundAnswer 0 f t, t)
  else (foundAnswer 0 f s, s)

/-- Run a command under its tag. -/
def cmdRun (e : List Byte) (i : Item) (err : LookupErr) (s : State) : CmdAnswer × State :=
  let r := cmdFind e i err s
  if r.1.status = 0 then cmdOnFound e i r.1 r.2
  else if r.1.status = 2 then ({ result := 5 }, r.2)
  else if enOp e = 3 then cmdCreate e i r.2
  else ({ result := 1 }, r.2)

/-- A command in the table unit completes, if its entry holds op `op`. -/
def commandOp (op c q : Nat) (err : LookupErr) (s : State) : State :=
  match runningOp c q s with
  | some i => match i.op with
    | .command w k =>
      let e := entryAt w k s
      if enOp e = op then
        let r := cmdRun e i err s
        completeEntry w k r.1 (opDone c q r.2)
      else s
    | _ => s
  | none => s

def execCmdLookup (c seq : Nat) (err : LookupErr) (s : State) : Host.Outcome State Fault Refusal :=
  guarded (decide (c < 32)) (commandOp 1 c seq err s)
def execCmdReadIndex (c seq : Nat) (err : LookupErr) (s : State) : Host.Outcome State Fault Refusal :=
  guarded (decide (c < 32)) (commandOp 2 c seq err s)
def execCmdCreate (c seq : Nat) (err : LookupErr) (s : State) : Host.Outcome State Fault Refusal :=
  guarded (decide (c < 32)) (commandOp 3 c seq err s)
def execCmdDeleteKey (c seq : Nat) (err : LookupErr) (s : State) : Host.Outcome State Fault Refusal :=
  guarded (decide (c < 32)) (commandOp 4 c seq err s)
def execCmdDeleteIndex (c seq : Nat) (err : LookupErr) (s : State) : Host.Outcome State Fault Refusal :=
  guarded (decide (c < 32)) (commandOp 5 c seq err s)
def execCmdWriteState (c seq : Nat) (err : LookupErr) (s : State) : Host.Outcome State Fault Refusal :=
  guarded (decide (c < 32)) (commandOp 6 c seq err s)
def execCmdPin (c seq : Nat) (err : LookupErr) (s : State) : Host.Outcome State Fault Refusal :=
  guarded (decide (c < 32)) (commandOp 7 c seq err s)
def execCmdUnpin (c seq : Nat) (err : LookupErr) (s : State) : Host.Outcome State Fault Refusal :=
  guarded (decide (c < 32)) (commandOp 8 c seq err s)

/-! ### BAR2 (R285) -/

/-- Whether a BAR2 window number is one of R285's table. -/
def bar2Ok (n : Nat) (s : State) : Bool :=
  match s.variant with
  | .kg4256 => decide (n ≤ 384)
  | .kg4128 => decide (n < 128 ∨ (256 ≤ n ∧ n < 320) ∨ n = 384)

/-- BAR2_WINDOW_WRITE. -/
def execBar2WindowWrite (w : Window) (v : Word) (s : State) : Host.Outcome State Fault Refusal :=
  .next (writing w .flt (fun s =>
    if bar2Ok (wordField v 0 9) s then wr fltBar2Window_window (wordField v 0 9) s else accessError w fltBar2Window_window.off true s) s)

/-- The 64 bytes that a read through BAR2 of aligned block `a` (below 64 MiB) returns: records as the cache holds them, buckets, or the
overflow store. -/
def bar2Block (a : Nat) (s : State) : List Byte :=
  let n := rd fltBar2Window_window s
  let o := a / 64 * 64
  if n < 256 then slice (recordAt ((n * 2 ^ 26 + o) / 128) s) (o % 128) 64
  else if n < 384 then hbmRead (bucketBase s + (n - 256) * 2 ^ 26 + o) 64 s
  else (List.range 4).flatMap (fun j => bytesLE 16 (if o / 16 + j < ovfTotal then ovfAt (o / 16 + j) s else 0))

/-! ### FLT in the common state machine (R255, R289) -/

/-- Bytes of the fields of a key profile (R254). -/
def keyBytes (fields : Nat) : Nat :=
  ([1, 2, 2, 2, 6, 6, 2, 16, 16, 1, 2, 2, 4].zipIdx).foldl (fun a x => if bit fields x.2 then a + x.1 else a) 0

/-- A key profile breaks R255: the refusal code. -/
def keyProfileRefusal (k : Nat) (s : State) : Option Nat :=
  let f := rdC fltKeyProf_fields k s
  let r := rdC fltKeyProf_required k s
  if 47 < keyBytes f then some 3
  else if r &&& f ≠ r then some 2
  else if rdC fltKeyProf_symmetric k s = 1 ∧ splitPair f [(4, 5), (7, 8), (10, 11)] = true then some 2
  else none

/-- The commit checks of FLT. -/
def fltCheck (s : State) : Option Nat :=
  match (List.range 16).findSome? (fun k => keyProfileRefusal k s) with
  | some c => some c
  | none =>
    if rd fltAgeTick_tickMs s = 0 ∨ rd fltExportCfg_dest s = 3 then some 2
    else if (List.range 256).any (fun p => decide (524288 < rdC fltProgTimeout_timeout p s)) then some 2
    else none

/-- A command of a ring. -/
def Item.isCommand (i : Item) : Bool := match i.op with | .command _ _ => true | _ => false

/-- The drain of FLT is complete: no tagged operation is in service (R289), and every entry taken from a ring is complete (R288). -/
def fltDrained (s : State) : Bool :=
  s.dsp.clusters.all (fun e => e.2.items.all (fun i => i.waits && !i.isCommand)) && s.dsp.opWait.all (fun i => !i.isCommand)

/-- FLT reaches OFF (R288). -/
def fltOff (s : State) : State := failRings s

/-- A per-block reset of FLT (R288, R289): rings end first, then the table is emptied. -/
def fltReset (s : State) : State :=
  let t := flowReset (failRings s)
  { t with flow := { t.flow with ring := [], taken := [], done := [], stopped := [], ringAt := [], scanRaw := t.tim.raw } }

/-- FCH STARTING (R289): dirty lines are never lost; every line is then invalidated. -/
def fchStarting (s : State) : State := putCache [] (writeBackAll s)

end Sys2Proof.Machine
end

