-- ==== Sys2Proof/Machine/Owners.lean ====
section
/-! DEFINITION. Flow ownership on one device (R497 to R501): the owner map, giving an entry's records away, parking and releasing, and the
manager's moves. -/

namespace Sys2Proof.Machine

/-- This device is the live manager. -/
def isManager (s : State) : Bool := decide (rd tieMeshStatus_roleLive s = 1)

/-- The other members of the mesh, by the links to them. -/
def others (s : State) : List Nat := tieLinks.filter (fun k => bit (otherMembers s) k)

/-- The manager that this device follows, if one is reachable. -/
def managerOf (s : State) : Option Nat :=
  if rd tieMeshStatus_managerPresent s = 1 then some (rd tieMeshStatus_managerId s) else none

/-- An owner change message (R491 kind 4): entry, owner, owner epoch, moving, transfer done, aborted. -/
def ownerMsg (e owner epoch : Nat) (moving done aborted : Bool) : List Byte :=
  bytesLE 2 e ++ bytesLE 1 owner ++ bytesLE 2 epoch ++ bytesLE 1 (b2n moving + 2 * b2n done + 4 * b2n aborted)

/-- Change an entry of the owner map. -/
def modOwn (e : Nat) (f : OwnEntry → OwnEntry) (s : State) : State := putOwn e (f (ownEntry e s)) s

/-! ### Giving records away (R498 step 4) -/

/-- The bucket indices that hold a listed byte in HBM. -/
def listedBuckets (s : State) : List Nat :=
  ((s.flow.hbm.filter (fun c => decide (bucketBase s ≤ c.1 ∧ c.1 < bucketBase s + 64 * recordCount s))).map
    (fun c => (c.1 - bucketBase s) / 64)).eraseDups

/-- The occupied places of an entry's buckets: bucket and place. -/
def livePlaces (e : Nat) (s : State) : List (Nat × Nat) :=
  let bs := (listedBuckets s).filter (fun b => b % 4096 == e)
  let slots := bs.flatMap (fun b => ([0, 1, 2, 3].filter (fun p => slLive (slotAt b p s))).map (fun p => (b, p)))
  slots ++ (s.flow.ovf.filter (fun x => slLive x.2 && slBucket x.2 % 4096 == e)).map (fun x => (slBucket x.2, 4 + x.1))

/-- An entry has no item left in any cluster, and none of its records is on its way out. -/
def entryIdle (e : Nat) (s : State) : Bool :=
  let evicts (i : Item) : Bool := match i.op with | .evict _ _ => i.tag % 4096 == e | _ => false
  s.dsp.clusters.all (fun c => c.2.items.all (fun i => i.tag % 4096 != e)) && !s.dsp.opWait.any evicts

/-- Every record that an entry still holds is to be retired under its tag (R17, R498 step 4). -/
def offerEvicts (e : Nat) (s : State) : State :=
  foldOver (livePlaces e s) (fun x a =>
    offerOp { op := .evict x.2 (slRec (placeAt x.1 x.2 a)), tag := x.1, digest := slDigest (placeAt x.1 x.2 a) } a) s

/-- The old owner of an entry being given away: its records go, then transfer done (R498 step 4). -/
def serveGiving (e : Nat) (s : State) : State :=
  let x := ownEntry e s
  let y := ownerDevice e s
  if !entryIdle e s || !linkActive y s then s
  else if (livePlaces e s).isEmpty then sendControl y 4 (ownerMsg e y x.epoch false true false) (putOwn e { x with giving := false } s)
  else offerEvicts e s

/-- An entry that this device gave up with no one to send its records to (R506). -/
def servePurge (e : Nat) (s : State) : State :=
  if !entryIdle e s then s
  else if (livePlaces e s).isEmpty then modOwn e (fun x => { x with purge := false }) s
  else offerEvicts e s

/-- Give away the records of every entry whose items have ended (R498 step 4, R506). -/
def serveMoves (s : State) : State :=
  let t := foldOver ((s.mesh.own.filter (fun x => x.2.giving)).map (fun x => x.1)) serveGiving s
  foldOver ((t.mesh.own.filter (fun x => x.2.purge)).map (fun x => x.1)) servePurge t

/-! ### Changing the map (R497 to R500) -/

/-- A change of owner reaches this device: it steers to the new owner, and as the old owner begins to give, as the new one to park.
Without a transfer there is neither. -/
def applyOwner (e owner epoch : Nat) (transfer : Bool) (s : State) : State :=
  let x := ownEntry e s
  let old := ownerDevice e s
  let give := decide (old = selfId s ∧ owner ≠ selfId s)
  serveMoves (putOwn e
    { x with
      owner := some owner, epoch := epoch, moving := true, settled := !transfer, giving := give && transfer
      fwdRaw := if give then some s.tim.raw else none
      late := false, fromDev := old, beganRaw := s.tim.raw, done := false, aborted := false, ending := none } s)

/-- The change has ended: moving clears and parked items are released. -/
def clearMoving (e : Nat) (s : State) : State := unpark e (modOwn e (fun x => { x with moving := false, giving := false, ending := none }) s)

/-- An abort reaches this device (R499). -/
def applyAbort (e owner epoch : Nat) (s : State) : State :=
  clearMoving e (modOwn e (fun x => { x with owner := some owner, epoch := epoch, aborted := true }) s)

/-- The manager tells every other member. -/
def tellOthers (e owner epoch : Nat) (moving done aborted : Bool) (s : State) : State :=
  foldOver (others s) (fun k a => sendControl k 4 (ownerMsg e owner epoch moving done aborted) a) s

/-- Steps 2 and 3 of a move, on the manager. -/
def beginMove (e owner : Nat) (win : Option Nat) (transfer : Bool) (s : State) : State :=
  let epoch := ((ownEntry e s).epoch + 1) % 65536
  let t := modOwn e (fun x => { x with win := win, done := !transfer }) (applyOwner e owner epoch transfer s)
  tellOthers e owner epoch true (!transfer) false t

/-- A link still has an owner change for an entry that its peer has not acknowledged, sent or waiting for the link's next start. -/
def changeUnacked (k e : Nat) (s : State) : Bool :=
  ((tieLink k s).unacked ++ (tieLink k s).kept).any (fun m => m.kind == 4 && leAt m.body 2 2 == e)

/-- A new move of an entry must wait: it is moving, or a member has not acknowledged its abort (R499). -/
def entryMoving (e : Nat) (s : State) : Bool :=
  (ownEntry e s).moving || ((ownEntry e s).aborted && (others s).any (fun k => changeUnacked k e s))

/-- Show the result of a move in the window that asked for it. -/
def moveResult (e result : Nat) (s : State) : State :=
  match (ownEntry e s).win with
  | some c => modOwn e (fun x => { x with win := none }) (wrC tieOwnMove_result c result (wrC tieOwnMove_busy c 0 s))
  | none => s

/-- The result that refuses a move at once, if one does. -/
def moveRefusal (e d : Nat) (s : State) : Option Nat :=
  if !isManager s then some 1
  else if !bit (rd tieMeshStatus_members s) d then some 2
  else if entryMoving e s then some 3
  else if ownerDevice e s = d then some 4
  else none

/-- A write of TIE.OWN_MOVE. -/
def ownMoveWrite (c : Nat) (v : Word) (s : State) : State :=
  let e := wordField v 0 12
  let d := wordField v 12 3
  let t := wrC tieOwnMove_device c d (wrC tieOwnMove_entry c e s)
  if !bit v.toNat 16 then t
  else match moveRefusal e d t with
    | some r => wrC tieOwnMove_result c r t
    | none =>
      let u := { t with mesh := { t.mesh with
        own := t.mesh.own.map (fun x => if x.2.win = some c then (x.1, { x.2 with win := none }) else x) } }
      beginMove e d (some c) true (wrC tieOwnMove_busy c 1 u)

def execOwnMoveGo (w : Window) (v : Word) (s : State) : Host.Outcome State Fault Refusal :=
  .next (writing w .tie (ownMoveWrite (winIdx w) v) s)

/-- OWNER_MOVE_ACKED (step 6): every member has acknowledged the change, and the new owner its records. -/
def ownerMoveAcked (e : Nat) (s : State) : State :=
  let x := ownEntry e s
  if isManager s && x.moving && x.done && (others s).all (fun k => !changeUnacked k e s) then
    raise tieOwnerMoved (tellOthers e (ownerDevice e s) x.epoch false false false (clearMoving e (moveResult e 0 s)))
  else s

def execOwnerMoveAcked (e : Nat) (s : State) : Host.Outcome State Fault Refusal :=
  guarded (decide (e < 4096)) (ownerMoveAcked e s)

/-! ### Aborts (R499) and absent devices (R502) -/

/-- The manager ends a move as aborted with an owner and epoch. -/
def abortTo (e owner epoch : Nat) (s : State) : State :=
  raise tieOwnerMoveAborted (tellOthers e owner epoch false false true (applyAbort e owner epoch (moveResult e 5 s)))

/-- The move's new owner keeps the entry. -/
def abortMove (e : Nat) (s : State) : State := abortTo e (ownerDevice e s) (ownEntry e s).epoch s

/-- OWN_MOVE_TIMEOUT: 200 ms after step 2 step 6 has not been reached, and the new owner is a member. -/
def ownMoveTimeout (e : Nat) (s : State) : State :=
  if isManager s && (ownEntry e s).moving && rawPassed (ownEntry e s).beganRaw 200000000 s && bit (rd tieMeshStatus_members s) (ownerDevice e s) then abortMove e s else s

def execOwnMoveTimeout (e : Nat) (s : State) : Host.Outcome State Fault Refusal :=
  guarded (decide (e < 4096)) (ownMoveTimeout e s)

/-- How many entries each device owns. -/
def ownedCounts (s : State) : List Nat :=
  (List.range 4096).foldl (fun a e => let d := ownerDevice e s; a.set d (a.getD d 0 + 1)) (List.replicate 8 0)

/-- The member that owns the fewest entries, the lowest DEVICE_ID first. -/
def fewest (counts : List Nat) (s : State) : Option Nat :=
  leastBy (fun d => counts.getD d 0) (tieLinks.filter (fun d => bit (rd tieMeshStatus_members s) d))

/-- Move the entries of an absent device, one by one, keeping the counts (R502); one that was moving to it ends as aborted. -/
def moveFrom (d : Nat) : List Nat → List Nat → State → State
  | _, [], s => s
  | counts, e :: es, s =>
    if ownerDevice e s ≠ d then moveFrom d counts es s
    else match fewest counts s with
      | none => s
      | some y =>
        let counts2 := counts.set y (counts.getD y 0 + 1)
        let t := if (ownEntry e s).moving then abortTo e y (((ownEntry e s).epoch + 1) % 65536) s else beginMove e y none false s
        moveFrom d counts2 es t

/-- The entries that are moving. -/
def movingEntries (s : State) : List Nat := (s.mesh.own.filter (fun x => x.2.moving)).map (fun x => x.1)

/-- The manager marks a device absent (R502, R504): moves that it gives up end, and its entries go to others. -/
def markAbsent (d : Nat) (s : State) : State :=
  let t := raise tieDeviceAbsent (dropKept d (wr tieMeshStatus_absent (setBit (rd tieMeshStatus_absent s) d)
    (wr tieMeshStatus_members (clearBit (rd tieMeshStatus_members s) d) s)))
  let u := foldOver (movingEntries t) (fun e a =>
    if (ownEntry e a).fromDev = d ∧ (ownEntry e a).done = false then abortMove e a else a) t
  moveFrom d (ownedCounts u) (List.range 4096) u

/-- The link between the two ends of a move is lost (R499). -/
def abortLost (x lost : Nat) (s : State) : State :=
  foldOver (movingEntries s) (fun e a =>
    let y := ownerDevice e a
    let f := (ownEntry e a).fromDev
    if !(ownEntry e a).done && ((x == f && bit lost y) || (x == y && bit lost f)) then abortMove e a else a) s

/-! ### At the new owner and at late arrivals (R498 step 5, R500, R501) -/

/-- A state sync brings a record: its create waits for its tag, unless it no longer applies (R17, R498, R501). -/
def stateSync (e epoch : Nat) (r : List Byte) (s : State) : State :=
  if syncStale e epoch s then staleEpoch s
  else offerOp { op := .sync e epoch r, tag := bucketOfKey (rcKey r) s, digest := digestOfKey (rcKey r), key := rcKey r } s

/-- Creates of an entry that have not run. -/
def syncsWait (e : Nat) (s : State) : Bool :=
  let mine (i : Item) : Bool := match i.op with | .sync x _ _ => x == e | _ => false
  s.dsp.opWait.any mine || s.dsp.clusters.any (fun c => c.2.items.any mine)

/-- Transfer done, once its creates have run: the new owner releases its parked items and tells the manager; the manager notes it. -/
def transferEnds (k e : Nat) (s : State) : State :=
  let x := ownEntry e s
  if ownerDevice e s = selfId s then
    let t := unpark e (modOwn e (fun y => { y with settled := true, done := true, ending := none }) s)
    if isManager t then t
    else match managerOf t with
      | some m => sendControl m 4 (ownerMsg e (selfId t) x.epoch false true false) t
      | none => t
  else if isManager s ∧ ownerDevice e s = k then modOwn e (fun y => { y with done := true }) s
  else s

/-- Transfer done arrives over link k (R498 step 5). -/
def transferDone (k e : Nat) (s : State) : State :=
  if syncsWait e s then modOwn e (fun y => { y with ending := some k }) s else transferEnds k e s

/-- The transfers whose last create has run end. -/
def settleTransfers (s : State) : State :=
  foldOver s.mesh.own (fun x a => match x.2.ending with
    | some k => if syncsWait x.1 a then a else transferEnds k x.1 a
    | none => a) s

/-- DISPATCH_ROUND (R335). -/
def execDispatchRound (c : Nat) (s : State) : Host.Outcome State Fault Refusal :=
  guarded (decide (c < 32)) (serveMoves (settleTransfers (dispatchRound c s)))

/-- FWD_WINDOW_END: fwd_window_ms have passed since this device gave the entry up (R500). -/
def fwdWindowEnd (e : Nat) (s : State) : State :=
  match (ownEntry e s).fwdRaw with
  | some r => if rawPassed r (1000000 * cf tieMeshCfg_fwdWindowMs s) s then modOwn e (fun x => { x with late := true }) s else s
  | none => s

def execFwdWindowEnd (e : Nat) (s : State) : Host.Outcome State Fault Refusal :=
  guarded (decide (e < 4096)) (fwdWindowEnd e s)

/-- This device still forwards late items of an entry. -/
def fwdOpen (e : Nat) (s : State) : Bool := (ownEntry e s).fwdRaw.isSome && !(ownEntry e s).late

/-- TIE.OWN_ENTRY of the entry that window copy c selects. -/
def ownView (off c : Nat) (s : State) : Option Nat :=
  if off = tieOwnEntry_owner.off then
    let e := rdC tieOwnSel_entry c s
    some (ownerDevice e s + 8 * b2n (ownEntry e s).moving + 65536 * (ownEntry e s).epoch)
  else none

end Sys2Proof.Machine
end

