-- ==== Sys2Proof/Machine/Engine.lean ====
section
/-! DEFINITION. The flow engines (R293 to R317): local data, the units of a microword, external operations, starting, running and ending an
item, machine checks. -/

namespace Sys2Proof.Machine

/-! ### Local data (R293 to R295) -/

/-- What an unlisted header-window byte of a program's writes reads as: not written. -/
def hdrDefault : Nat → Nat := fun _ => 256

/-- Bytes of the frame in the header window: min(256, length − 4). -/
def windowLen (r : Run) : Nat := min 256 (leAt r.desc 2 2 - 4)

/-- A byte of the header window. -/
def hdrByte (r : Run) (f : Frame) (k : Nat) : Nat :=
  let v := sget hdrDefault r.hdr k
  if v < 256 then v else if k < windowLen r then byteAt f.bytes k else 0

/-- A byte of local data; outside the readable regions it is zero (R294, R306). -/
def localByte (r : Run) (f : Frame) (a : Nat) : Nat :=
  if a < 0x100 then hdrByte r f a
  else if a < 0x180 then byteAt r.recw (a - 0x100)
  else if a < 0x200 then byteAt r.desc (a - 0x180)
  else if a < 0x300 then byteAt r.scratch (a - 0x200)
  else 0

/-- A descriptor byte that a program may write (R295). -/
def descWritable (k : Nat) : Bool := decide (k = 4 ∨ (0x16 ≤ k ∧ k ≤ 0x1B) ∨ (0x4C ≤ k ∧ k ≤ 0x55))

/-- A byte that a program may write (R294). -/
def localWritable (a : Nat) : Bool :=
  decide (a < 0x100 ∨ (0x140 ≤ a ∧ a < 0x180) ∨ (0x200 ≤ a ∧ a < 0x300)) || (decide (0x180 ≤ a ∧ a < 0x200) && descWritable (a - 0x180))

/-- Write one byte of local data; a byte that may not be written is discarded (R306). -/
def putLocal (a v : Nat) (r : Run) : Run :=
  if !localWritable a then r
  else if a < 0x100 then { r with hdr := sset hdrDefault r.hdr a (v % 256) }
  else if a < 0x180 then { r with recw := patchBytes r.recw (a - 0x100) [BitVec.ofNat 8 v] }
  else if a < 0x200 then { r with desc := patchBytes r.desc (a - 0x180) [BitVec.ofNat 8 v] }
  else { r with scratch := patchBytes r.scratch (a - 0x200) [BitVec.ofNat 8 v] }

/-- The addresses of n bytes from a, in the 10-bit address space. -/
def localRange (a n : Nat) : List Nat := (List.range n).map (fun i => (a + i) % 1024)

/-- n bytes of local data from a. -/
def localBytes (r : Run) (f : Frame) (a n : Nat) : List Byte := (localRange a n).map (fun k => BitVec.ofNat 8 (localByte r f k))

/-- Write bytes of local data from a on. -/
def putLocals : Nat → List Byte → Run → Run
  | _, [], r => r
  | a, b :: bs, r => putLocals (a + 1) bs (putLocal (a % 1024) b.toNat r)

/-- A general register. -/
def dreg (r : Run) (i : Nat) : Nat := sget zeroDefault r.regs i

/-- Write a general register. -/
def putDreg (i v : Nat) (r : Run) : Run := { r with regs := sset zeroDefault r.regs i (v % 2 ^ 64) }

/-! ### The ALUs (R298, R299) -/

/-- Bits of a width code. -/
def widthBits (w : Nat) : Nat := if w = 0 then 64 else if w = 1 then 32 else if w = 2 then 16 else 8

/-- Ones' complement sum of numbers of at most 32 bits, folded to 16 bits. -/
def foldSum (x : Nat) : Nat := onesFold (onesFold (onesFold x))

/-- The 16-bit pieces of a number of n bits. -/
def halves (n x : Nat) : List Nat := (List.range ((n + 15) / 16)).map (fun i => bitsOf x (16 * i) 16)

/-- The bits set in the low n bits. -/
def popCount (n x : Nat) : Nat := ((List.range n).filter (fun i => x.testBit i)).length

/-- The leading zeros of an n-bit number. -/
def leadingZeros (n x : Nat) : Nat := if x % 2 ^ n = 0 then n else n - 1 - Nat.log2 (x % 2 ^ n)

/-- The result of an ALU operation on operands already cut to n bits, before it is cut. -/
def aluResult (op n x y imm : Nat) (p : Bool) : Nat :=
  let sx := signed n x
  let sy := signed n y
  let sh := y % 64
  let simm := unsigned 64 (signed 16 imm)
  let mask := 2 ^ (bitsOf imm 6 6 + 1) - 1
  let pos := bitsOf imm 0 6
  match op with
  | 1 => x + y
  | 2 => x + (2 ^ n - y)
  | 3 => x &&& y
  | 4 => x ||| y
  | 5 => x ^^^ y
  | 6 => x <<< sh
  | 7 => x >>> sh
  | 8 => unsigned n (sx / (2 ^ sh : Nat))
  | 9 => (x <<< (sh % n)) ||| (x >>> (n - sh % n))
  | 10 => y
  | 11 => simm
  | 12 => (x <<< 16) ||| imm
  | 13 => b2n (decide (x = y))
  | 14 => b2n (decide (x ≠ y))
  | 15 => b2n (decide (x < y))
  | 16 => b2n (decide (sx < sy))
  | 17 => b2n (decide (y ≤ x))
  | 18 => b2n (decide (sy ≤ sx))
  | 19 => (x >>> pos) &&& mask
  | 20 => (x &&& (2 ^ 64 - 1 - (mask <<< pos) % 2 ^ 64)) ||| ((y &&& mask) <<< pos)
  | 21 => min x y
  | 22 => max x y
  | 23 => if p then x else y
  | 24 => foldSum ((halves n x).foldl (· + ·) 0 + (halves n y).foldl (· + ·) 0)
  | 25 => 65535 - x % 65536
  | 26 => popCount n x
  | 27 => leadingZeros n x
  | 28 => beNat (bytesLE (n / 8) x)
  | 29 => (x % 2 ^ 32) * (y % 2 ^ 32)
  | _ => 0

/-- The result of a slice: operands cut to its width, the result cut and zero-extended. -/
def aluValue (a : AluSlice) (r : Run) : Nat :=
  let n := widthBits a.width
  let x := dreg r a.a % 2 ^ n
  let y := (if a.bImm then unsigned 64 (signed 16 a.imm) else dreg r a.b) % 2 ^ n
  aluResult a.op n x y a.imm (bit r.preds (bitsOf a.imm 0 3)) % 2 ^ n

/-- Apply an ALU slice computed from the old run `o`: its register and predicate. Op 0 writes nothing. -/
def aluApply (a : AluSlice) (o r : Run) : Run :=
  if a.op = 0 then r
  else
    let v := aluValue a o
    let t := putDreg a.dst v r
    if a.pen then { t with preds := withBits t.preds a.pset 1 (b2n (decide (v ≠ 0))) } else t

/-- The registers that an ALU slice reads. -/
def aluReads (a : AluSlice) : List Nat :=
  let x := if a.op = 0 ∨ a.op = 10 ∨ a.op = 11 then [] else [a.a]
  let usesB := decide ((1 ≤ a.op ∧ a.op ≤ 10) ∨ (13 ≤ a.op ∧ a.op ≤ 18) ∨ (20 ≤ a.op ∧ a.op ≤ 24) ∨ a.op = 29)
  if usesB && !a.bImm then x ++ [a.b] else x

/-- The registers that an ALU slice writes. -/
def aluWrites (a : AluSlice) : List Nat := if a.op = 0 then [] else [a.dst]

/-! ### Slice 3: what it reads and writes (R300, R301) -/

/-- The registers that slice 3 reads. -/
def memReads (m : MemSlice) : List Nat :=
  let x := if 1 ≤ m.kind ∧ m.kind ≤ 3 ∧ m.aidx = true then [m.areg] else []
  if m.kind = 2 then m.reg :: x
  else if m.kind = 4 then
    (if [1, 2, 3, 4, 5, 7, 8, 11, 12].contains m.extOp then [m.opa] else []) ++ (if [2, 7, 8, 11, 12].contains m.extOp then [m.opb] else [])
  else x

/-- The registers that slice 3 writes. -/
def memWrites (m : MemSlice) : List Nat := if m.kind = 1 ∨ (m.kind = 4 ∧ m.extOp ≤ 10) then [m.reg] else []

/-- The local address of a load, store or copy. -/
def memAddr (m : MemSlice) (r : Run) : Nat := if m.aidx then (m.addr + dreg r m.areg % 1024) % 1024 else m.addr

/-- The bytes that csum and crc work on. -/
def opLen (m : MemSlice) (r : Run) : Nat := min 256 (dreg r m.opb)

/-- The local bytes that slice 3 reads. -/
def localReads (m : MemSlice) (r : Run) : List Nat :=
  if m.kind = 1 then localRange (memAddr m r) (2 ^ m.size)
  else if m.kind = 3 then localRange (memAddr m r) (m.len + 1)
  else if m.kind = 4 ∧ (m.extOp = 7 ∨ m.extOp = 8) then localRange (dreg r m.opa % 1024) (opLen m r)
  else if m.kind = 4 ∧ m.extOp = 4 then localRange (dreg r m.opa % 1024) 16
  else []

/-- The local bytes that slice 3 writes. -/
def localWrites (m : MemSlice) (r : Run) : List Nat :=
  if m.kind = 2 then localRange (memAddr m r) (2 ^ m.size)
  else if m.kind = 3 then localRange m.dst (m.len + 1)
  else []

/-- Slice 3 breaks the regions of R294, or names more than 256 B (R301, R306). -/
def windowFaults (m : MemSlice) (r : Run) : Bool :=
  (decide (m.kind = 1 ∨ m.kind = 3) && (localReads m r).any (fun a => decide (0x300 ≤ a)))
    || (localWrites m r).any (fun a => !localWritable a)
    || decide (m.kind = 4 ∧ (m.extOp = 7 ∨ m.extOp = 8) ∧ 256 < dreg r m.opb)

/-! ### Stalls (R304) -/

/-- A header-window byte has arrived from its port. -/
def headerArrived (r : Run) (f : Frame) (k : Nat) : Bool :=
  f.complete || decide (k < f.bytes.length) || decide (windowLen r ≤ k)

/-- A word waits for an outstanding result. -/
def pendingStall (w : Nat) (r : Run) : Bool :=
  let q := seqSlice w
  let a := aluSlice w 1
  let b := aluSlice w 2
  let m := memSlice w
  let uses := aluReads a ++ aluWrites a ++ aluReads b ++ aluWrites b ++ memReads m ++ memWrites m ++ (if q.seq = 6 then [q.jreg] else [])
  r.pend.any (fun p => uses.contains p.reg) || (decide (q.cond = 13) && r.pend.any (fun p => p.flow))
    || (decide (q.seq = 7 ∨ q.seq = 8) && !r.pend.isEmpty)

/-- A word reads a header-window byte that has not arrived. -/
def arrivalStall (w : Nat) (r : Run) (f : Frame) : Bool :=
  (localReads (memSlice w) r).any (fun a => decide (a < 256) && !headerArrived r f a)

/-! ### Faults of an engine -/

def fenCtrs : CtrSet := ⟨fenCntLo_count.off, fenCntWrap, true⟩

/-- Count a counter of engine e. -/
def fenCount (k e : Nat) (s : State) : State := count fenCtrs k e 1 s

/-- FEN.LAST_FAULT takes a fault while it is empty (R305, R306). -/
def lastFault (e kind pc prog bank bucket : Nat) (s : State) : State :=
  if rdC fenLastFault_valid e s = 1 then s
  else
    wrC fenLastFaultBucket_bucket e bucket (wrC fenLastFault_valid e 1 (wrC fenLastFault_bank e bank (wrC fenLastFault_program e prog
      (wrC fenLastFault_pc e pc (wrC fenLastFault_kind e kind s)))))

/-- A fault of the running item: recorded, counted in counter k, its source raised. -/
def engineFault (e kind k : Nat) (src : Src) (r : Run) (i : Item) (s : State) : State :=
  raiseC src e (fenCount k e (lastFault e kind r.pc i.program r.bank i.tag s))

/-! ### External operations (R301) -/

/-- The result of l2 (R229, R301). -/
def extL2 (fid mac : Nat) (s : State) : Nat :=
  match l2Seen (fid % 4096) (mac % 2 ^ 48) s with
  | some i =>
    let e := l2At i s
    e.target % 2 ^ 18 + e.kind * 2 ^ 18 + b2n e.isStatic * 2 ^ 20 + b2n e.drop * 2 ^ 21 + 2 ^ 63
  | none => 0

/-- The result of lpm4 and lpm6 (R240, R247, R301); a walk that finds a broken trie is counted. -/
def extLpm (vrf : Nat) (v6 : Bool) (addr hash : Nat) (s : State) : Nat × State :=
  let r := if blockOn .lpm s then lpmLookup vrf v6 addr s else (none, false)
  let t := if r.2 then raise lpmTrieError (lpmStat 3 s) else s
  match r.1 with
  | none => (0, t)
  | some x =>
    if bit x 18 then
      let g := ecmpAt (bitsOf x 0 14) t
      if grValid g then (sget zeroDefault t.lpm.member (ecmpMember g hash) % 2 ^ 18 + 2 ^ 62 + 2 ^ 63, t) else (0, t)
    else (bitsOf x 0 18 + 2 ^ 63, t)

/-- The result of nhrd (R245, R301). -/
def extNh (i : Nat) (s : State) : Nat :=
  let e := nhAt (i % 2 ^ 18) s
  nhDest e + 512 * b2n (nhRoute e) + 1024 * b2n (nhValid e) + 65536 * nhDmac e

/-- The result of time (R301). -/
def extTime (imm : Nat) (s : State) : Nat :=
  let t := timeNow s
  if imm = 0 then (secOf t % 2 ^ 32) * 2 ^ 32 + nsOf t else bitsOf (secOf t) 32 16 + fracOf t * 65536 + s.tim.epoch * 2 ^ 32

/-- 16-bit big-endian words of bytes, an odd last byte padded. -/
def beWords : List Byte → List Nat
  | a :: b :: l => (a.toNat * 256 + b.toNat) :: beWords l
  | [a] => [a.toNat * 256]
  | [] => []

/-- The value of an external operation other than flow, count and hist. -/
def extValue (m : MemSlice) (r : Run) (f : Frame) (s : State) : Nat × State :=
  let a := dreg r m.opa
  let hash := leAt r.desc 0x1C 4
  match m.extOp with
  | 1 => meterEngine (a % 16384) (leAt r.desc 2 2) s
  | 2 => (extL2 a (dreg r m.opb) s, s)
  | 3 => extLpm (m.imm % 4096) false (a % 2 ^ 32) hash s
  | 4 => extLpm (m.imm % 4096) true (beNat (localBytes r f (a % 1024) 16)) hash s
  | 5 => (extNh a s, s)
  | 7 => (foldSum ((beWords (localBytes r f (a % 1024) (opLen m r))).foldl (· + ·) 0), s)
  | 8 => (crc32cSeed m.imm (localBytes r f (a % 1024) (opLen m r)), s)
  | 9 => (extTime m.imm s, s)
  | _ => let x := takeFree s; (x.1 % 2 ^ 64, x.2)

/-- A flow operation (R264): its result code, the run with the operation deferred, and what a create reserves. -/
def extFlow (m : MemSlice) (r : Run) (i : Item) (s : State) : Nat × Run × State :=
  let kind := m.imm % 4
  if kind = 0 then
    if i.status = 0 ∨ (r.ops.any (fun o => o.kind == 0)) = true then (2, r, s)
    else
      let x := reserveCreate i.tag s
      match x.2.1 with
      | some (n, g, p) =>
        (0, { r with ops := r.ops ++ [{ kind := 0, pinned := bit m.imm 2, index := n, gen := g, place := p }], exists_ := true }, x.2.2)
      | none => (x.1, r, x.2.2)
  else if !r.exists_ then (1, r, s)
  else (0, { r with ops := r.ops ++ [{ kind := kind }], exists_ := r.exists_ && decide (kind ≠ 1) }, s)

/-- Issue an external operation: its result is pending until it arrives (R304). -/
def extIssue (m : MemSlice) (o : Run) (i : Item) (f : Frame) (r : Run) (s : State) : Run × State :=
  if m.extOp = 11 then ({ r with counts := r.counts ++ [(dreg o m.opa % 2048, dreg o m.opb)] }, s)
  else if m.extOp = 12 then ({ r with hists := r.hists ++ [(dreg o m.opa % 64, dreg o m.opb)] }, s)
  else if m.extOp = 6 then
    let x := extFlow m r i s
    ({ x.2.1 with pend := x.2.1.pend ++ [⟨m.reg, x.1, true⟩], flowRes := some x.1 }, x.2.2)
  else
    let x := extValue m o f s
    ({ r with pend := r.pend ++ [⟨m.reg, x.1, false⟩] }, x.2)

/-- Slice 3's load, store or copy, from the old run `o`. -/
def memApply (m : MemSlice) (o : Run) (f : Frame) (r : Run) : Run :=
  let n := 2 ^ m.size
  if m.kind = 1 then
    let bs := localBytes o f (memAddr m o) n
    putDreg m.reg (if m.le then leNat bs else beNat bs) r
  else if m.kind = 2 then
    let v := dreg o m.reg % 2 ^ (8 * n)
    putLocals (memAddr m o) (if m.le then bytesLE n v else bytesBE n v) r
  else if m.kind = 3 then putLocals m.dst (localBytes o f (memAddr m o) (m.len + 1)) r
  else r

/-! ### The sequencer (R297, R305) -/

/-- Whether a condition holds before the word. -/
def condHolds (c : Nat) (r : Run) (i : Item) (f : Frame) : Bool :=
  if c < 8 then bit r.preds c
  else if c = 8 then decide (i.status = 0)
  else if c = 9 then decide (i.status = 1)
  else if c = 10 then decide (i.status = 2)
  else if c = 11 then f.second
  else if c = 12 then decide (byteAt r.desc0 5 ≠ 0)
  else if c = 13 then decide (r.flowRes = some 0)
  else true

/-- What the sequencer does next. -/
inductive Next where
  | to (pc : Nat) (stack : List Nat)
  | stackFault
  | finish (verdict : Nat) (gen : Bool)
  deriving DecidableEq, Repr

/-- The sequencer's choice, from the run before the word. -/
def nextOf (q : SeqSlice) (r : Run) (i : Item) (f : Frame) : Next :=
  let c := condHolds q.cond r i f
  match q.seq with
  | 1 => .to q.target r.stack
  | 2 => .to (if c then q.target else r.pc + 1) r.stack
  | 3 => .to (if c then r.pc + 1 else q.target) r.stack
  | 4 => if 4 ≤ r.stack.length then .stackFault else .to q.target ((r.pc + 1) :: r.stack)
  | 5 => match r.stack with
    | a :: st => .to a st
    | [] => .stackFault
  | 6 => .to (q.target + dreg r q.jreg % 2 ^ (q.jbits + 1)) r.stack
  | 7 => .finish q.verdict q.gen
  | _ => .to (r.pc + 1) r.stack

/-- The item ends by force, as an end with verdict drop (R305). -/
def forceEnd (e kind k : Nat) (src : Src) (r : Run) (i : Item) (s : State) : State :=
  engineFault e kind k src r i (putEngRun e { r with ended := some (2, false), forced := true } s)

/-- The sequencer acts after the word's other effects, which `r` holds; `o` is the run before the word. -/
def sequence (e : Nat) (w : Nat) (o r : Run) (i : Item) (f : Frame) (s : State) : State :=
  match nextOf (seqSlice w) o i f with
  | .finish v g => putEngRun e { r with ended := some (v, g) } s
  | .stackFault => forceEnd e 3 6 fenStackFault r i s
  | .to pc st =>
    if r.maxWords ≤ r.words ∨ bankWords (e / 16) r.bank s ≤ pc then forceEnd e 1 4 fenRunaway r i s
    else putEngRun e { r with pc := pc, stack := st } s

/-- Execute one microword (R303): every slice reads the old run, then all writes take effect; the higher slice wins a register. -/
def runWord (e w : Nat) (o : Run) (i : Item) (f : Frame) (s : State) : State :=
  let m := memSlice w
  let r1 := aluApply (aluSlice w 2) o (aluApply (aluSlice w 1) o { o with words := o.words + 1 })
  let x := if m.kind = 4 then extIssue m o i f r1 s else (memApply m o f r1, s)
  let t := fenCount 1 e x.2
  let t1 := if windowFaults m o then engineFault e 2 5 fenWindowFault o i t else t
  sequence e w o x.1 i f t1

/-! ### Machine checks (R312 to R314) -/

/-- Every reservation of an abandoned item's creates is released (R264). -/
def releaseOps (r : Run) (i : Item) (s : State) : State :=
  foldOver r.ops (fun o a => if o.kind = 0 then releaseCreate i.tag o.place o.index o.gen a else a) s

/-- The run as it stands at the start of its item (R293), on its bank. -/
def freshRun (r : Run) (i : Item) : Run :=
  { item := r.item, bank := r.bank, pc := r.entry, entry := r.entry, maxWords := r.maxWords, scratch := List.replicate 256 0,
    recw := i.window, desc := r.desc0, desc0 := r.desc0, exists_ := decide (i.status = 0), retry := r.retry }

/-- A machine check in engine e on the word it fetched. DEDUCED from R312 and R314: one of an engine that fetched the word before it was
marked is part of the check that marked it, not a second one. -/
def machineCheck (e : Nat) (r : Run) (i : Item) (s : State) : State :=
  let c := e / 16
  let k := wordPlace r.bank r.pc
  let second := (store c s).failed.contains k && !(store c s).marked.contains k
  let readable := goldenReadable c r.bank s
  let s1 := engineFault e 6 9 fenMcAbandon r i (releaseOps r i s)
  let s2 := satX mcsMcStatus_checks 0 c 1 (wrC mcsMcStatus_lastBank c r.bank (wrC mcsMcStatus_lastWord c r.pc s1))
  let s3 := modStore c (fun x => { x with
    marked := k :: x.marked.filter (· != k)
    failed := k :: x.failed.filter (· != k) }) s2
  if second ∨ readable = false then
    let t := if (tgt ⟨.mcs, some c⟩ s3).st = .fault then s3
      else clusterOut c r.bank r.pc (if second then 0x10 else 0x11)
        (if readable then s3 else raiseC mcsGoldenUnreadable c s3)
    mcDrop e c i t
  else if r.retry then mcDrop e c i s3
  else putEngRun e { freshRun r i with reload := true, retry := true, failedWord := k } s3

/-- MICROWORD_EXECUTE: engine e fetches a word and executes it, stalls, waits for a reload, or takes a machine check. -/
def microwordExecute (e : Nat) (s0 : State) : State :=
  match runningItem e s0 with
  | none => s0
  | some (r, i) =>
    if r.ended.isSome then s0
    else
      let c := e / 16
      let s := { s0 with dsp := { s0.dsp with busyNow := smod zeroDefault s0.dsp.busyNow c (· + 1) } }
      let w := wordAt c r.bank r.pc s
      let f := frame i.frame s
      if r.reload ∨ markedWord c r.bank r.pc s = true then s
      else if badWord w then machineCheck e r i s
      else if pendingStall w r then fenCount 2 e s
      else if arrivalStall w r f then fenCount 3 e s
      else runWord e w r i f s

def execMicrowordExecute (e : Nat) (s : State) : Host.Outcome State Fault Refusal :=
  guarded (decide (e < 512)) (microwordExecute e s)

/-- MACHINE_CHECK: a bit of the word that engine e is about to fetch has flipped; of a word marked meanwhile, engine e fetched it before it
was marked and takes its own machine check (R312). -/
def machineCheckFlip (e flip : Nat) (s : State) : State :=
  match runningItem e s with
  | none => s
  | some (r, i) =>
    let c := e / 16
    if r.ended.isSome ∨ r.reload = true then s
    else if markedWord c r.bank r.pc s then machineCheck e r i s
    else
      machineCheck e r i (modStore c (fun x => { x with
        words := smod zeroDefault x.words (wordPlace r.bank r.pc) (fun w => w ^^^ 2 ^ (flip % 196)) }) s)

def execMachineCheck (e flip : Nat) (s : State) : Host.Outcome State Fault Refusal :=
  guarded (decide (e < 512)) (machineCheckFlip e flip s)

/-- WORD_RELOAD_DONE: Hallmark writes a marked word again; an unreadable golden copy takes the cluster out (R314). -/
def wordReloadDone (c bank w : Nat) (s : State) : State :=
  let k := wordPlace bank w
  if markedWord c bank w s ∧ goldenReadable c bank s = true ∧ rd hmkStatus_state s ≠ 2 then
    resumeEngines c (· == k) (raiseC mcsMcReload c (modStore c (rewriteWord k) s))
  else s

def execWordReloadDone (c bank w : Nat) (s : State) : Host.Outcome State Fault Refusal :=
  guarded (decide (c < 32 ∧ bank < 2 ∧ w < 8192)) (wordReloadDone c bank w s)

/-- EXT_RESULT: the result outstanding for a register arrives. -/
def extResult (e d : Nat) (s : State) : State :=
  match (engine e s).run with
  | some r => match r.pend.find? (fun p => p.reg == d) with
    | some p => putEngRun e { putDreg d p.value r with pend := r.pend.filter (fun q => q.reg != d) } s
    | none => s
  | none => s

def execExtResult (e d : Nat) (s : State) : Host.Outcome State Fault Refusal :=
  guarded (decide (e < 512 ∧ d < 32)) (extResult e d s)

/-! ### Starting an item (R295, R302) -/

/-- The descriptor of an item as it starts (R295). -/
def startDesc (i : Item) (f : Frame) (tick : Nat) : List Byte :=
  let n := min 256 (f.len - 4)
  let hs := f.hdrs.take 12
  let hit := decide (i.status = 0)
  bytesLE 2 f.inSrc ++ bytesLE 2 f.len ++ bytesLE 1 f.cls ++ bytesLE 1 f.exc ++ bytesLE 1 (i.status + 4 * b2n f.second)
    ++ bytesLE 1 i.program ++ bytesLE 4 (frameVer f) ++ bytesLE 4 i.tag ++ bytesLE 4 (if hit then i.recIndex else 0xFFFFFFFF)
    ++ bytesLE 1 (if hit then rcGen i.window else 0) ++ bytesLE 1 i.keyProfile ++ bytesLE 2 f.dest ++ bytesLE 4 f.nextHop
    ++ bytesLE 4 f.hash ++ timeBytes f.ts ++ bytesLE 4 tick
    ++ slice (hs.map (fun h => BitVec.ofNat 8 h.code)) 0 12 ++ slice (hs.map (fun h => BitVec.ofNat 8 h.off)) 0 12
    ++ bytesLE 1 f.hdrs.length ++ [0] ++ bytesLE 2 f.tsEpoch ++ bytesLE 2 n ++ bytesLE 2 n ++ bytesLE 2 0 ++ bytesLE 2 264
    ++ [0] ++ bytesLE 1 (b2n (actMirror f.actA)) ++ List.replicate 42 0

/-- A hit sets last_hit in the record (R265). -/
def noteHit (i : Item) (s : State) : State :=
  if i.status = 0 then storeRecord i.recIndex (withHit (recordAt i.recIndex s) (tickNow s)) s else s

/-- An item whose program is not valid never starts: its frame is dropped (R302). -/
def progInvalid (e c bank : Nat) (i : Item) (s : State) : State :=
  let t := putEngine e { engine e s with next := none } s
  raiseC fenProgInvalid e (fenCount 12 e (lastFault e 8 0 i.program bank i.tag
    (removeItem c i.seq (unlockItem i (dropFrame i.frame t)))))

/-- The item of engine e's prefetched slot starts on the cluster's live bank. -/
def startItem (e : Nat) (i : Item) (s : State) : State :=
  let c := e / 16
  let b := liveBank c s
  let p := progAt c b i.program s
  if !peProgValid p then progInvalid e c b i s
  else
    let d := startDesc i (frame i.frame s) (tickNow s)
    let r : Run := {
      item := i.seq, bank := b, pc := peEntry p, entry := peEntry p, maxWords := peMaxWords p,
      scratch := List.replicate 256 0, recw := i.window, desc := d, desc0 := d, exists_ := decide (i.status = 0) }
    noteStart c i (noteHit i (modItem c i.seq (fun i => { i with stage := .running, engine := e })
      (putEngine e { run := some r, next := none } s)))

/-- ITEM_START: an idle engine fetches the first word of its prefetched item; a cancel that has arrived wins (R346). -/
def itemStart (e : Nat) (s : State) : State :=
  match (engine e s).run, (engine e s).next with
  | none, some q =>
    match itemAt (e / 16) q s with
    | none => s
    | some i => match i.cancel with
      | some why => cancelNow (e / 16) i why s
      | none => startItem e i s
  | _, _ => s

def execItemStart (e : Nat) (s : State) : Host.Outcome State Fault Refusal := guarded (decide (e < 512)) (itemStart e s)

/-! ### Ending an item (R305 to R309) -/

/-- The descriptor fields that decide the end. -/
def dsClass (r : Run) : Nat := byteAt r.desc 4 % 8
def dsDest (r : Run) : Nat := leAt r.desc 0x16 2
def dsNext (r : Run) : Nat := leAt r.desc 0x18 4
def dsHeadIn (r : Run) : Nat := leAt r.desc 0x4C 2
def dsHeadOut (r : Run) : Nat := leAt r.desc 0x4E 2
def dsGenLen (r : Run) : Nat := leAt r.desc 0x50 2
def dsGenDest (r : Run) : Nat := leAt r.desc 0x52 2
def dsGenClass (r : Run) : Nat := byteAt r.desc 0x54 % 8
def dsMirror (r : Run) : Nat := byteAt r.desc 0x55 % 2

/-- The frame is rewritten at the end (R307 step 1). -/
def rewrites (r : Run) : Bool := !r.hdr.isEmpty || decide (dsHeadIn r ≠ dsHeadOut r)

/-- The check of a verdict other than drop (R308): none passes, or whether it is the destination that fails. -/
def verdictFault (v : Nat) (r : Run) : Option Bool :=
  let len := leAt r.desc 2 2
  if v = 1 ∧ 265 < dsDest r then some true
  else if windowLen r < dsHeadIn r ∨ 256 < dsHeadOut r then some false
  else if len + dsHeadOut r - dsHeadIn r < 64 ∨ 9216 < len + dsHeadOut r - dsHeadIn r then some false
  else none

/-- The verdict after its check; one that fails becomes drop. -/
def checkVerdict (e v : Nat) (r : Run) (i : Item) (s : State) : Nat × State :=
  if v = 2 then (2, s)
  else match verdictFault v r with
    | none => (v, s)
    | some true => (2, engineFault e 5 8 fenDestFault r i s)
    | some false => (2, engineFault e 4 7 fenLengthFault r i s)

/-- Step 1: the window bytes replace the first head_in bytes of the frame. Where it needs more or fewer cells, new ones are taken for its
head and those they replace are freed (R389); the Bool says that it got them. Its headers are those of its new bytes. -/
def rewriteFrame (r : Run) (i : Item) (s : State) : Bool × State :=
  let f := frame i.frame s
  let win := (List.range (dsHeadOut r)).map (fun k => BitVec.ofNat 8 (hdrByte r f k))
  let f1 := { f with bytes := win ++ f.bytes.drop (dsHeadIn r), len := f.len + dsHeadOut r - dsHeadIn r }
  let t := putFrame i.frame (refound f1 s) s
  let n := cellsFor (if f.complete then f1.len else f1.bytes.length)
  let old := f.cells.take (cellsFor (dsHeadIn r))
  let rest := f.cells.drop (cellsFor (dsHeadIn r))
  if n = f.cells.length then (true, t)
  else match takeCells f.req (n - rest.length) t with
    | (none, u) => (false, u)
    | (some is, u) => (true, giveCells f.req old (modFrame i.frame (fun g => { g with cells := is ++ rest }) u))

/-- Steps 2 and 3: the program state goes to the record unless the flow is not this device's (R501), and the counters are added. -/
def writeRecord (r : Run) (i : Item) (s : State) : State :=
  if i.status ≠ 0 then s
  else
    let e := i.tag % 4096
    let old := recordAt i.recIndex s
    let stale := decide (ownerDevice e s ≠ selfId s) || decide (rcOwner old ≠ (ownEntry e s).epoch)
    let s1 := if stale then raise tieStaleEpoch (count tieGCtrs 4 0 1 s) else s
    let data := if stale then old else patchBytes old 0x40 (slice r.recw 0x40 64)
    let d1 := patchBytes data 0x70 (bytesLE 8 (rcPackets data + 1))
    storeRecord i.recIndex (patchBytes d1 0x78 (bytesLE 8 (rcOctets data + leAt r.desc 2 2))) s1

/-- The record that a flow operation acts on: the one the lookup found, or the one a create of the item made. -/
def opRecord (r : Run) (i : Item) : Nat × Nat :=
  match r.ops.find? (fun o => o.kind == 0) with
  | some o => (o.place, o.index)
  | none => (i.pos, i.recIndex)

/-- Step 4: one deferred flow operation takes effect (R264). -/
def flowOp (r : Run) (i : Item) (o : FlowOp) (s : State) : State :=
  let x := opRecord r i
  if o.kind = 0 then
    let d := newRecord i.key i.program i.keyProfile o.gen (tickNow s) (ownEntry (i.tag % 4096) s).epoch (slice r.recw 0x40 48) 0 0
    placeRecord i.tag i.digest o.place o.index i.program o.pinned d s
  else if o.kind = 1 then
    match findPlace i.tag x.2 s with
    | some p => retire i.tag p x.2 2 false s
    | none => s
  else setPinned i.tag x.2 (decide (o.kind = 2)) s

/-- Step 5: deferred counts and histogram values (R301, R578, R582). -/
def applyCounts (r : Run) (s : State) : State :=
  let t := foldOver r.counts (fun x a =>
    let m := cfC pcnCntCfg_mode x.1 a
    if m = 1 ∨ m = 2 then countPcn x.1 x.2 a else a) s
  foldOver r.hists (fun x a => if cfC pcnHistCfg_source x.1 a = 4 then histPut x.1 x.2 a else a) t

/-- The frame takes the descriptor's class, mirror bit, destination and next hop; a next hop the program chose is read now (R246). -/
def forwardVerdict (r : Run) (i : Item) (s : State) : State :=
  let f := frame i.frame s
  let nh := dsNext r
  let ref := some i.admitted
  let back := decide (f.finalDest.isSome) && decide (dsDest r = leAt r.desc0 0x16 2)
  let f1 := { f with dest := dsDest r, noDest := false, finalDest := if back then f.finalDest else none }
  if nh < 2 ^ 31 then forwardFrame i.frame ref (putFrame i.frame { f1 with nextHop := nh, nhEntry := 0 } s)
  else if nh = f.nextHop then forwardFrame i.frame ref (putFrame i.frame f1 s)
  else
    let x := nextHopRead (nh % 2 ^ 18) f1 s
    match x.1 with
    | .drop => dropFrame i.frame x.2
    | .to _ 0 0 => hostFrame i.frame ref x.2
    | .to _ n e => forwardFrame i.frame ref (putFrame i.frame { f1 with nextHop := n, nhEntry := e } x.2)

/-- Step 6: the verdict is emitted (R308). No mirror copy goes with recirculate, also where a second pass turns it into exception class 7. -/
def emitVerdict (v : Nat) (r : Run) (i : Item) (s : State) : State :=
  let t := modFrame i.frame (fun f => { f with cls := dsClass r, actA := withBits f.actA 6 1 (dsMirror r) }) s
  if v = 1 then forwardVerdict r i t
  else if v = 3 then hostFrame i.frame (some i.admitted) t
  else if v = 4 then
    (if (frame i.frame t).second then recircLimit i.frame (modFrame i.frame (fun f => { f with actA := withBits f.actA 6 1 0 }) t)
     else voqEnter i.frame (some i.admitted) (modFrame i.frame (fun f => { f with dest := 265, nextHop := 0, nhEntry := 0 }) t))
  else dropFrame i.frame t

/-- GENERATE_FRAME (R309): a frame made of scratch bytes enters input group 35, or gen_drop. -/
def generate (e : Nat) (r : Run) (i : Item) (s : State) : State :=
  let n := dsGenLen r
  let ver := (frame i.frame s).version
  if n < 60 ∨ 252 < n ∨ 265 < dsGenDest r then engineFault e 7 11 fenGenDrop r i s
  else
    let g : Frame := {
      group := 35, inSrc := 265, bytes := slice r.scratch 0 n, len := n + 4, version := ver, profile := (frame i.frame s).profile
      cls := dsGenClass r,
      dest := dsGenDest r, req := 35, parsed := true, ts := timeNow s, tsEpoch := s.tim.epoch, raw8 := 8 * s.tim.raw }
    if !blockOn .swc s then count swcGCtrs 3 0 1 (fenCount 10 e s)
    else match newStored g s with
      | (some j, t) => voqEnter j none (fenCount 10 e t)
      | (none, t) => engineFault e 7 11 fenGenDrop r i (emptyResponse 35 t)

/-- Step 7: the tag is released, the record's line unlocked and the engine free. -/
def releaseItem (e c : Nat) (r : Run) (i : Item) (s : State) : State :=
  let t := removeItem c i.seq (unlockItem i (putEngine e { engine e s with run := none } s))
  let t1 := dspCount 2 c (fenCount 0 e { t with dsp := { t.dsp with endedNow := smod zeroDefault t.dsp.endedNow c (· + 1) } })
  serveMoves (if r.retry then satX mcsMcCount_retriedOk 0 c 1 t1 else t1)

/-- Steps 2 to 5 of R307. -/
def endWrites (r : Run) (i : Item) (s : State) : State :=
  applyCounts r (foldOver r.ops (fun o a => flowOp r i o a) (writeRecord r i s))

/-- Steps 1 to 6 of R307 for an item that ended with verdict `v`. -/
def endEffects (e v : Nat) (g : Bool) (r : Run) (i : Item) (s : State) : State :=
  if i.cancel.isSome then dropFrame i.frame (endWrites r i s)
  else
    let x := checkVerdict e v r i s
    let y := if x.1 ≠ 2 ∧ rewrites r = true then rewriteFrame r i x.2 else (true, x.2)
    let verdict (v2 : Nat) (t : State) : State :=
      let t1 := if g then generate e r i (endWrites r i t) else endWrites r i t
      emitVerdict v2 r i t1
    if y.1 then verdict x.1 y.2 else verdict 2 (bufferDrop (frame i.frame x.2).req y.2)

/-- The header-window bytes that an end must write have arrived. -/
def endReady (r : Run) (f : Frame) : Bool := !rewrites r || f.complete || decide (windowLen r ≤ f.bytes.length)

/-- ITEM_END: an item whose end has executed, with no result outstanding, takes effect. -/
def itemEnd (e : Nat) (s : State) : State :=
  match runningItem e s with
  | none => s
  | some (r, i) => match r.ended with
    | none => s
    | some (v, g) =>
      if r.pend.isEmpty && endReady r (frame i.frame s) then
        releaseItem e (e / 16) r i (endEffects e v (g && !r.forced) r i (actCancel (e / 16) i s))
      else s

def execItemEnd (e : Nat) (s : State) : Host.Outcome State Fault Refusal := guarded (decide (e < 512)) (itemEnd e s)

/-! ### FEN in the common state machine (R325, R326) -/

/-- An engine's drain is complete: it holds no item. -/
def fenDrained (e : Nat) (s : State) : Bool := (engine e s).run.isNone && (engine e s).next.isNone

/-- A forced drain returns the prefetched item to the dispatcher (R325, R352). -/
def fenForced (e : Nat) (s : State) : State :=
  let c := e / 16
  match (engine e s).next with
  | none => s
  | some q =>
    let t := raiseC dspPrefetchReturned c (dspCount 15 c (putEngine e { engine e s with next := none } s))
    match itemAt c q t with
    | none => t
    | some i =>
      let t1 := modItem c q (fun i => { i with stage := .staged }) t
      let n := steerTo (i.tag % 4096) t1
      if t1.dsp.out.contains c && decide (n ≠ c) then transferItem c n { i with stage := .staged } t1 else t1

/-- ENG_STATUS of engine e. -/
def engView (off e : Nat) (s : State) : Option Nat :=
  if off = fenEngStatus_activity.off then
    let pre := 2 ^ 27 * b2n (engine e s).next.isSome
    match runningItem e s with
    | none => some pre
    | some (r, i) =>
      let c := e / 16
      let w := wordAt c r.bank r.pc s
      let act :=
        if r.reload ∨ markedWord c r.bank r.pc s = true then 3
        else if r.ended.isNone ∧ (pendingStall w r ∨ arrivalStall w r (frame i.frame s) = true) then 2 else 1
      some (act + 4 * r.bank + 8 * r.pc + 65536 * i.program + 2 ^ 24 * r.stack.length + pre)
  else none

end Sys2Proof.Machine
end

