-- ==== Sys2Proof/Machine/Mesh.lean ====
section
/-! DEFINITION. Tie links (R481 to R503): capabilities, codewords, frames across the mesh, and the messages of flow ownership. -/

namespace Sys2Proof.Machine

/-- A command that names a tie link, which must be one this device has. -/
def onTie (k : Nat) (c : Bool) (f : State → State) (s : State) : Host.Outcome State Fault Refusal :=
  guarded (decide (k < chanCount .tie)) (onlyIf c f s)

/-! ### Capabilities (R490) -/

/-- The strapped role (R52). -/
def strapRole (s : State) : Nat := rd sysStrapSample_role s

/-- TIE_CAP_SEND: a capability message. -/
def tieCapSend (k : Nat) (s : State) : State :=
  sendMsg k 8 (bytesLE 2 (partNumber s) ++ bytesLE 1 (rd sysPartId_revision s) ++ bytesLE 1 (selfId s)
    ++ bytesLE 1 (strapRole s) ++ bytesLE 1 (rd tieMeshStatus_roleLive s) ++ bytesLE 1 k ++ bytesLE 2 (tieLink k s).meshId
    ++ bytesLE 4 (rd tieMgrEpoch_epoch s) ++ bytesLE 2 (tieLink k s).credits) s

def execTieCapSend (k : Nat) (s : State) : Host.Outcome State Fault Refusal :=
  onTie k (decide (rdC tieLinkStatus_state k s = 2)) (tieCapSend k) s

/-- The reason to refuse a peer, in the order of the conditions of R490. -/
def capRefusal (k : Nat) (c : TieCap) (s : State) : Option Nat :=
  if c.meshId ≠ (tieLink k s).meshId then some 1
  else if c.deviceId ≠ k then some 2
  else if c.link ≠ selfId s then some 3
  else if c.part ≠ partNumber s ∨ c.revision ≠ rd sysPartId_revision s then some 4
  else if c.strapRole = 1 ∧ strapRole s = 1 then some 5
  else none

/-- A peer is refused: the link restarts under R151. -/
def capRefuse (k r : Nat) (s : State) : State :=
  let t := raiseC tieCapRefused k (wrC tieLinkStatus_refuse k r s)
  let u := if r = 5 then raise tieDupManager t else t
  wrC tieLinkStatus_state k 4 (dropLanes (256 + 4 * k) u)

/-- Both ends have accepted: the link is active (R149 step 5, R488, R490). What its start before kept of control messages is sent again. -/
def linkStarts (k : Nat) (c : TieCap) (s : State) : State :=
  let lanes := (List.range 4).map (fun i => 256 + 4 * k + i)
  let t := foldOver lanes (fun l a => raiseC lanTieActive l (setLane l 12 a)) s
  let u := modTieLink k (fun x => { takeKept x with heard := false, granted := x.credits, since := s.tim.raw }) (forwardAgain k t)
  raiseC tieLinkActive k (wrC tieLinkStatus_missed k 0 (wrC tieLinkCredits_txCredits k c.credits (wrC tieLinkStatus_state k 3 u)))

/-- A control message is over: whether it had a bad flit, which is used up. -/
def takeBad (k : Nat) (s : State) : Bool × State :=
  ((tieLink k s).ctlIn.ended.headD false, modTieLink k (fun x => { x with ctlIn := { x.ctlIn with ended := x.ctlIn.ended.drop 1 } }) s)

/-- As `takeBad`, for a frame message. -/
def takeBadFrame (k : Nat) (s : State) : Bool × State :=
  ((tieLink k s).frameIn.ended.headD false, modTieLink k (fun x => { x with frameIn := { x.frameIn with ended := x.frameIn.ended.drop 1 } }) s)

/-- Follow a new manager (R506): forwarding starts again from the oldest record it has not acknowledged (R577). -/
def followManager (k epoch : Nat) (s : State) : State :=
  wr tieMeshStatus_managerId k (wr tieMeshStatus_managerPresent 1 (wr tieMgrEpoch_epoch epoch
    { s with mesh := { s.mesh with fwdSent := none } }))

/-- A live manager that hears a higher epoch becomes standby: it gives up every entry and retires its records (R506). -/
def stepDown (s : State) : State :=
  let t := raise tieBecameStandby (wr tieMeshStatus_managerPresent 0 (wr tieMeshStatus_joined 0 (wr tieMeshStatus_roleLive 2 s)))
  let buckets := listedBuckets t ++ t.flow.ovf.map (fun (x : Nat × Nat) => slBucket x.2)
  let es := (buckets.map (fun b => b % 4096)).eraseDups
  serveMoves (foldOver es (fun e a => modOwn e (fun x => { x with purge := true }) a) t)

/-- The device at link k names a manager epoch, in a heartbeat or a capability message (R506): a live manager steps down for a higher one,
whoever names it, and the manager of a higher one is followed. -/
def hearEpoch (k epoch : Nat) (isMgr : Bool) (s : State) : State :=
  if epoch ≤ rd tieMgrEpoch_epoch s then s
  else
    let t := if isManager s then stepDown s else s
    if isMgr then followManager k epoch t else t

/-- A capability message is judged (R490): the peer is accepted or refused. -/
def judgeCap (k : Nat) (c : TieCap) (peer : Bool) (s : State) : State :=
  match capRefusal k c s with
  | some r => capRefuse k r s
  | none =>
    let t := wrC tieLinkStatus_peerId k c.deviceId (wrC tieLinkStatus_peerRole k c.liveRole
      (modTieLink k (fun x => { x with ownOk := true, peerOk := x.peerOk || peer }) s))
    hearEpoch k c.epoch (decide (c.liveRole = 1)) (if (tieLink k t).peerOk then linkStarts k c t else t)

/-- TIE_CAPABILITY: a capability message, and whether the peer has accepted this end. One with a bad flit is discarded (R489). -/
def tieCapability (k : Nat) (c : TieCap) (peer : Bool) (s : State) : State :=
  let b := takeBad k (count tieCtrs 3 k 1 s)
  if b.1 then b.2 else judgeCap k c peer b.2

def execTieCapability (k : Nat) (cap : TieCap) (peerAccepts : Bool) (s : State) : Host.Outcome State Fault Refusal :=
  onTie k (decide (rdC tieLinkStatus_state k s = 2)) (tieCapability k cap peerAccepts) s

/-! ### Codewords (R485, R486, R488) -/

/-- A flit of link k is received (R485 to R488): its credits return; one of an undefined kind is discarded and counted as bad; another goes to
its stream. None is a bad flit. -/
def takeFlit (k : Nat) (f : Option Flit) (s : State) : State :=
  match f with
  | none => modTieLink k (fun x => { x with frameIn := streamBad x.frameIn, ctlIn := streamBad x.ctlIn }) s
  | some f =>
    let t := wrC tieLinkCredits_txCredits k (min 65535 (rdC tieLinkCredits_txCredits k s + f.credit)) s
    if f.kind = 0 then t
    else if 10 ≤ f.kind then count tieCtrs 9 k 1 t
    else if f.kind ≤ 2 then modTieLink k (fun x => { x with frameIn := streamFlit x.frameIn f }) t
    else modTieLink k (fun x => { x with ctlIn := streamFlit x.ctlIn f }) t

/-- The 16th codeword ends the block payload: its flits are received in order. -/
def takeBlock (k : Nat) (s : State) : State :=
  let got := (tieLink k s).got
  if got.length < 16 then s
  else foldOver (blockFlits got) (fun f a => takeFlit k f a) (modTieLink k (fun x => { x with got := [] }) s)

/-- TIE_CODEWORD_DECODE, from the capability exchange on: the next codeword of the block payload, as its bytes arrive on the four link-lanes
(R484), is decoded (R485). -/
def tieCodeword (k : Nat) (lane0 lane1 lane2 lane3 : List Byte) (s : State) : State :=
  let got := (tieLink k s).got
  let keep (w : Option (List Byte)) (a : State) : State := takeBlock k (modTieLink k (fun x => { x with got := got ++ [w] }) a)
  match rsDecode (fromLanes got.length [lane0, lane1, lane2, lane3]) with
  | none => raiseC tieFecUncorrected k (count tieCtrs 5 k 1 (keep none s))
  | some (w, n) => keep (some w) (if n = 0 then s else count tieCtrs 4 k 1 s)

def execTieCodewordDecode (k : Nat) (lane0 lane1 lane2 lane3 : List Byte) (s : State) : Host.Outcome State Fault Refusal :=
  onTie k (decide (2 ≤ rdC tieLinkStatus_state k s ∧ rdC tieLinkStatus_state k s ≤ 3)) (tieCodeword k lane0 lane1 lane2 lane3) s

/-- LINK_CREDITS.rx_granted: credits granted to the peer, less the cells its frames hold. -/
def rxGranted (k : Nat) (s : State) : Nat :=
  let held := s.frames.foldl (fun a e => if e.2.overTie && e.2.via == k && e.2.req == 32 then a + (e.2.cells.length - e.2.freed) else a) 0
  (tieLink k s).granted - held

/-! ### Frames (R492 to R496, R512) -/

/-- The fields of a tie descriptor (R492). -/
def tdVersion (d : List Byte) : Nat := leAt d 0 4
def tdTime (d : List Byte) : Nat := mkTime (leAt d 0x0A 6) (leAt d 6 4) (leAt d 4 2)
def tdOrigin (d : List Byte) : Nat := leAt d 0x12 1 % 8
def tdCrossings (d : List Byte) : Nat := bitsOf (leAt d 0x12 1) 3 2
def tdFinalValid (d : List Byte) : Bool := bit (leAt d 0x12 1) 5
def tdInSrc (d : List Byte) : Nat := leAt d 0x14 2
def tdFinal (d : List Byte) : Nat := leAt d 0x16 2
def tdProgram (d : List Byte) : Nat := leAt d 0x1C 1
def tdProfile (d : List Byte) : Nat := leAt d 0x1D 1 % 16
def tdNextHop (d : List Byte) : Nat := leAt d 0x24 4

/-- D_L of a link's channel (R511), in 2⁻¹⁶ ns. -/
def linkDelayNow (k : Nat) (s : State) : Nat := rdC tieLinkDelayHi_value k s * 65536 + rdC tieLinkDelayLo_value k s % 65536

/-- The frame that a message brings. The descriptor of R492 has no pass count: the frame starts at its first pass here (DESIGN CHOICE, assumption
log 131). -/
def tieArrived (k : Nat) (d bytes : List Byte) (s : State) : Frame :=
  { group := 32, req := 32, inSrc := tdInSrc d, bytes := bytes, len := bytes.length + 4, complete := true, parsed := true
    version := some (tdVersion d), ts := tdTime d, tsEpoch := leAt d 0x10 2, raw8 := 8 * s.tim.raw, overTie := true, via := k
    profile := tdInSrc d, cls := leAt d 0x13 1 % 8, hash := leAt d 0x20 4, exc := leAt d 0x1E 1, bucket := leAt d 0x18 4
    actA := tdProgram d * 256 + tdProfile d * 65536 + 64 * (leAt d 0x1F 1 % 2)
    crossings := tdCrossings d, origin := tdOrigin d, dest := tdFinal d, nextHop := tdNextHop d
    residence := signed 48 (leAt d 0x28 6) + ((linkDelayNow k s : Nat) : Int)
    tieAsym := signed 48 (leAt d 0x2E 6), tieDelay := signed 48 (leAt d 0x34 6) }

/-- Rebuild header offsets under the profile of the frame's source on its origin (R492); a generated frame was never parsed (R186). -/
def reparse (f : Frame) (s : State) : Frame :=
  let p := if f.inSrc = 264 then wordField (sget regReset (half (frameVer f) s).cfg prsHostProfile_profile.off) 0 8 else f.inSrc
  if 264 < f.inSrc then f
  else
    refound { f with profile := p } s

/-- A frame message has arrived whole: it is counted, and dropped when its version is not live here (R496). -/
def tieReceive (k : Nat) (d bytes : List Byte) (s0 : State) : Option Nat × State :=
  let s := count tieCtrs 1 k 1 s0
  if !versionLive (tdVersion d) s then (none, raise tieVersionUnknown (count tieGCtrs 6 0 1 s))
  else if !blockOn .swc s then (none, count swcGCtrs 3 0 1 s)
  else match newStored (reparse (tieArrived k d bytes s) s) s with
    | (some i, t) => (some i, t)
    | (none, t) => (none, bufferDrop 32 t)

/-- A late item: forwarded to the new owner while the window is open, else dropped (R500). -/
def lateItem (i : Nat) (s : State) : State :=
  if fwdOpen ((frame i s).bucket % 4096) s then steerToOwner i (count tieGCtrs 2 0 1 s) else dropFrame i (count tieGCtrs 3 0 1 s)

/-- A steered item is admitted at its owner (R35, R493, R495). -/
def steeredItem (d : List Byte) (i : Nat) (s : State) : State :=
  let f := frame i s
  let key := flowKey f (tdProfile d) s
  let port := decide (f.dest < 256)
  let g := { f with
    key := key, digest := digestOfKey key
    dest := if port then 256 + f.origin else f.dest
    finalDest := if port then some f.dest else none }
  if ownsBucket f.bucket s then
    (if !blockOn .flt s then dropFrame i (fltCount 15 s) else offerFrame i (tdProgram d) (tdProfile d) (putFrame i g s))
  else lateItem i (putFrame i { f with key := key, digest := digestOfKey key } s)

/-- TIE_STEERED_ITEM: the descriptor and the frame; a bad flit cancels the item. -/
def tieSteeredItem (k : Nat) (d bytes : List Byte) (s : State) : State :=
  let b := takeBadFrame k s
  let r := tieReceive k d bytes b.2
  match r.1 with
  | none => r.2
  | some i =>
    let t := count tieGCtrs 1 0 1 (steeredItem d i r.2)
    if b.1 && (frame i t).live then frameBad i t else t

def execTieSteeredItem (k : Nat) (desc bytes : List Byte) (s : State) : Host.Outcome State Fault Refusal :=
  onTie k (linkActive k s) (tieSteeredItem k desc bytes) s

/-- TIE_FRAME: a frame for a port of this device enters its VOQ without lookups; any other enters stage 5. A returned frame gets its
next-hop rewrite from the table as it stands when the frame arrives (DESIGN CHOICE, assumption log 99). -/
def tieFrame (k : Nat) (d bytes : List Byte) (s : State) : State :=
  let b := takeBadFrame k s
  if b.1 then count tieCtrs 9 k 1 (count tieCtrs 1 k 1 b.2)
  else
    let r := tieReceive k d bytes b.2
    match r.1 with
    | none => r.2
    | some i =>
      if tdFinalValid d then
        let nh := tdNextHop d
        let e := if 2 ^ 31 ≤ nh then nhAt (nh % 2 ^ 18) r.2 else 0
        voqEnter i none (modFrame i (fun f => { f with nhEntry := e }) r.2)
      else
        let t := storeLookup i r.2
        if tdProgram d ≠ 0 then flowDecision i t else forwardFrame i none t

def execTieFrame (k : Nat) (desc bytes : List Byte) (s : State) : Host.Outcome State Fault Refusal :=
  onTie k (linkActive k s) (tieFrame k desc bytes) s

/-! ### Control messages (R489) -/

/-- A sequenced message acts when it has no bad flit and is the next in order. -/
def receive (k seq : Nat) (f : State → State) (s : State) : State :=
  let b := takeBad k (count tieCtrs 3 k 1 s)
  if b.1 ∨ seq ≠ ((tieLink k b.2).rxSeq + 1) % 65536 then b.2
  else f (modTieLink k (fun x => { x with rxSeq := seq }) b.2)

/-- A sequenced control message on a link. -/
def onControl (k seq : Nat) (ok : Bool) (f : State → State) (s : State) : Host.Outcome State Fault Refusal :=
  guarded (decide (k < chanCount .tie) && ok) (onlyIf (linkActive k s) (receive k seq f) s)

/-- CONTROL_RESEND: the oldest message not acknowledged is sent again; after eight times the link restarts. -/
def controlResend (k : Nat) (s : State) : State :=
  let x := tieLink k s
  match x.unacked with
  | [] => s
  | m :: rest =>
    if m.resends < 8 then
      emit (.tieFlits k (flitsOf m.kind m.body)) (count tieCtrs 6 k 1 (putTieLink k { x with unacked := { m with resends := m.resends + 1 } :: rest } s))
    else dropLanes (256 + 4 * k) (noteLinkLost k (raiseC tieResendFail k s))

def execControlResend (k : Nat) (s : State) : Host.Outcome State Fault Refusal := onTie k (linkActive k s) (controlResend k) s

/-! ### Ownership messages (R498 to R501) -/

def execStateSync (k seq e epoch : Nat) (record : List Byte) (s : State) : Host.Outcome State Fault Refusal :=
  onControl k seq (decide (e < 4096)) (stateSync e epoch record) s

/-- OWNER_CHANGE: a new owner (with a transfer unless `done`), or with moving clear the end of a change or an entry of the map. -/
def ownerChange (e owner epoch : Nat) (moving done : Bool) (s : State) : State :=
  if moving then applyOwner e owner epoch (!done) s
  else clearMoving e (modOwn e (fun x => { x with owner := some owner, epoch := epoch, purge := x.purge && decide (owner ≠ selfId s) }) s)

def execOwnerChange (k seq e owner epoch : Nat) (moving done : Bool) (s : State) : Host.Outcome State Fault Refusal :=
  onControl k seq (decide (e < 4096)) (ownerChange e owner epoch moving done) s

def execTransferDone (k seq e : Nat) (s : State) : Host.Outcome State Fault Refusal :=
  onControl k seq (decide (e < 4096)) (transferDone k e) s

def execOwnerMoveAbort (k seq e owner epoch : Nat) (s : State) : Host.Outcome State Fault Refusal :=
  onControl k seq (decide (e < 4096)) (applyAbort e owner epoch) s

/-! ### Forwarded events (R513, R577) -/

/-- A forwarded record as the manager's mesh ring holds it: forwarded set, its CRC to match. -/
def forwardedWords (r : List Byte) : List Word :=
  let body := patchBytes (slice r 0 52) 6 [BitVec.ofNat 8 (byteAt r 6) ||| 16]
  wordsOf 16 (body ++ bytesLE 4 (crc32c body) ++ slice r 56 8)

def execEventForward (k seq : Nat) (record : List Byte) (s : State) : Host.Outcome State Fault Refusal :=
  onControl k seq true (fun t => if isManager t then meshWrite (forwardedWords record) t else t) s

end Sys2Proof.Machine
end

