-- ==== Sys2Proof/Machine/SysVersion.lean ====
section
/-! DEFINITION. The mesh as a whole (R504 to R513): CLS commits in one device and in the mesh, joining, heartbeats and failover, freeing a
version system-wide, time transfer; and TIE in the common state machine (R514). -/

namespace Sys2Proof.Machine

/-! ### CLS commits (R209, R507, R508) -/

/-- End a CLS commit as refused (R102). -/
def clsRefuse (code : Nat) (s : State) : State :=
  let t := commitRefused .cls code { s with ver := { s.ver with check := none } }
  putCommit .cls { commitOf .cls t with status := 3, armed := none } t

/-- Version n becomes current and the commit written here, if any, is done. -/
def clsTake (n : Nat) (s : State) : State :=
  let t := takeVersion n s
  let c := commitOf .cls t
  if c.status = 1 then putCommit .cls { c with status := 2, late := c.lateNext, lateNext := false, armed := none, count := (c.count + 1) % 2 ^ 16 } t else t

/-- Change the system version. -/
def modSys (f : SysVersion → SysVersion) (s : State) : State := { s with mesh := { s.mesh with ver := f s.mesh.ver } }

/-- A version message to a link (R491 kind 9): its sub-kind and content. -/
def versionMsg (k sub : Nat) (body : List Byte) (s : State) : State := sendControl k 9 (bytesLE 1 sub ++ body) s

/-- A version message to every other member. -/
def versionAll (sub : Nat) (body : List Byte) (s : State) : State := foldOver (others s) (fun k a => versionMsg k sub body a) s

/-- A set of devices as a bitmap. -/
def bitmap (ks : List Nat) : Nat := ks.foldl setBit 0

/-- This device is prepared for version n: its staging is locked (R508). -/
def prepare (n : Nat) (s : State) : State :=
  modSys (fun v => { v with prepared := some n }) { s with ver := { s.ver with locked := true } }

/-- Prepared no more. -/
def unprepare (s : State) : State :=
  modSys (fun v => { v with prepared := none, commitAt := none, waiting := 0 })
    (wr tieSysStatus_phase 0 { s with ver := { s.ver with locked := false } })

/-- A system commit in progress is over on this device (R120): on the manager with abort to every member. -/
def dropSystem (s : State) : State :=
  if s.mesh.ver.prepared.isSome || s.mesh.ver.commitAt.isSome then
    unprepare (if isManager s then versionAll 5 [] s else s)
  else s

/-- The commit time of step 4: now + lead_us, or the stated time if that is later, as seconds and nanoseconds. -/
def commitTime (stated : Option (Nat × Nat)) (s : State) : Nat × Nat :=
  let t := timeNow s + s.mesh.leadUs * 1000 * 65536
  match stated with
  | some x => if atOrAfter (mkTime x.1 x.2 0) t then x else (secOf t, nsOf t)
  | none => (secOf t, nsOf t)

/-- Commit version n at time t here (R508 step 4). -/
def armSystem (t : Nat × Nat) (s : State) : State :=
  modSys (fun v => { v with commitAt := some t, waiting := 0 }) (wr tieSysStatus_phase 2 s)

/-- The manager sends commit to every other member. -/
def tellCommit (n : Nat) (s : State) : State :=
  let t := commitTime s.mesh.ver.stated s
  versionAll 4 (bytesLE 4 n ++ bytesLE 6 t.1 ++ bytesLE 4 t.2) s

/-- The manager sends commit to every member, itself too. -/
def sysCommit (n : Nat) (s : State) : State := armSystem (commitTime s.mesh.ver.stated s) (tellCommit n s)

/-- The manager starts a system commit: prepare to every member. -/
def sysPrepare (stated : Option (Nat × Nat)) (s : State) : State :=
  let n := curVersion s + 1
  let w := bitmap (others s)
  let t := modSys (fun v => { v with waiting := w, stated := stated }) (wr tieSysStatus_phase 1 (prepare n s))
  if w = 0 then sysCommit n t else versionAll 1 (bytesLE 4 n) t

/-- The manager ends a system commit as refused by member d with a code. -/
def sysRefused (d code : Nat) (s : State) : State :=
  let t := unprepare (versionAll 5 [] (wr tieSysStatus_device d (wr tieSysStatus_code code (wr tieSysStatus_valid 1 s))))
  raise tieSysCommitRefused (clsRefuse code t)

/-- A member of the mesh reports a draining version. -/
def memberDrains (s : State) : Bool := (others s).any (fun k => (tieLink k s).peerDraining)

/-- A CLS commit is written: the code that refuses it at once, if one does (R209 step 1, R507, R508 step 1). -/
def clsCommitRefusal (s : State) : Option Nat :=
  if rd tieMeshStatus_joined s = 1 ∧ isManager s = false then some 2
  else if clsBusy s ∨ s.ver.locked = true ∨ (isManager s && memberDrains s) = true then some 1
  else none

/-- The check of a CLS commit begins; `armed` is the stated time of an at_time commit. -/
def clsCommitStart (armed : Option (Nat × Nat)) (late : Bool) (s : State) : State :=
  let c := commitOf .cls s
  putCommit .cls { c with status := 1, lateNext := late, armed := armed }
    { s with ver := { s.ver with check := some armed.isSome } }

/-- CLS_CHECK_DONE: the check of a CLS commit ends. -/
def clsCheckDone (s : State) : State :=
  match s.ver.check with
  | none => s
  | some timed =>
    match clsCheck s with
    | some c => clsRefuse c s
    | none =>
      let t := { s with ver := { s.ver with check := none } }
      if isManager t && decide (otherMembers t ≠ 0) then sysPrepare (commitOf .cls t).armed t
      else if timed then t
      else clsTake (curVersion t + 1) t

def execClsCheckDone (s : State) : Host.Outcome State Fault Refusal := .next (clsCheckDone s)

/-- TIMED_COMMIT_FIRE at the CLS block: a system commit's time, or a commit armed here whose check has passed. -/
def clsFire (s : State) : State :=
  let v := s.mesh.ver
  match v.commitAt, v.prepared with
  | some _, some n => raise tieSysCommitDone (clsTake n (unprepare s))
  | _, _ => if commitArmed .cls s && s.ver.check.isNone then clsTake (curVersion s + 1) s else s

/-! ### Version messages (R508, R509) -/

/-- VERSION_PREPARE: a member checks its staging and answers. -/
def versionPrepare (k n : Nat) (s : State) : State :=
  let answer := if clsBusy s then some 1 else clsCheck s
  match answer with
  | some c => versionMsg k 3 (bytesLE 1 c) s
  | none => versionMsg k 2 (bytesLE 4 n) (wr tieSysStatus_phase 1 (prepare n s))

def execVersionPrepare (k seq n : Nat) (s : State) : Host.Outcome State Fault Refusal :=
  onControl k seq true (versionPrepare k n) s

/-- The manager waits for the answer of member k. -/
def awaited (k : Nat) (s : State) : Bool := isManager s && bit s.mesh.ver.waiting k

/-- VERSION_READY: with the last one the manager sends commit. -/
def versionReady (k n : Nat) (s : State) : State :=
  if awaited k s && decide (s.mesh.ver.prepared = some n) then
    let t := modSys (fun v => { v with waiting := clearBit v.waiting k }) s
    if t.mesh.ver.waiting = 0 then sysCommit n t else t
  else s

def execVersionReady (k seq n : Nat) (s : State) : Host.Outcome State Fault Refusal :=
  onControl k seq true (versionReady k n) s

def execVersionRefuse (k seq code : Nat) (s : State) : Host.Outcome State Fault Refusal :=
  onControl k seq true (fun t => if awaited k t then sysRefused k code t else t) s

/-- VERSION_PREPARE_TIMEOUT: a member has not answered. The spec states no refusal code of one that gave none: a free value. -/
def versionPrepareTimeout (s : State) : State :=
  match tieLinks.find? (fun k => awaited k s) with
  | some k => let r := takeFree s; sysRefused k (r.1 % 16) r.2
  | none => s

def execVersionPrepareTimeout (s : State) : Host.Outcome State Fault Refusal := .next (versionPrepareTimeout s)

/-- VERSION_COMMIT: a prepared member commits version n at the stated time. -/
def execVersionCommit (k seq n sec ns : Nat) (s : State) : Host.Outcome State Fault Refusal :=
  onControl k seq true (fun t => if t.mesh.ver.prepared = some n then armSystem (sec, ns) t else t) s

def execVersionAbort (k seq : Nat) (s : State) : Host.Outcome State Fault Refusal :=
  onControl k seq true (fun t => if t.mesh.ver.prepared.isSome then unprepare t else t) s

/-! ### Freeing a version system-wide (R509) -/

/-- The in-flight count of the draining version is zero. -/
def idleHere (s : State) : Bool := !draining s || decide (inflight (curVersion s - 1) s = 0)

/-- A freeing round ends here. -/
def endRound (s : State) : State := modSys (fun v => { v with freeing := false, markers := 0 }) s

/-- The manager sends free once every confirmation has come. -/
def freeAll (s : State) : State :=
  if s.mesh.ver.confirms = 0 then
    let t := wr tieSysStatus_phase 0 (endRound (versionAll 9 [] s))
    if draining t then freeVersion t else t
  else s

/-- Take a member's confirmation. -/
def confirmFrom (d : Nat) (s : State) : State := freeAll (modSys (fun v => { v with confirms := clearBit v.confirms d }) s)

/-- A device whose markers have all come confirms if its count is still zero. -/
def markersIn (s : State) : State :=
  let v := s.mesh.ver
  if v.freeing && decide (bitmap (others s) &&& v.markers = bitmap (others s)) then
    if idleHere s then
      if isManager s then confirmFrom (selfId s) (modSys (fun v => { v with markers := 0 }) s)
      else match managerOf s with
        | some m => versionMsg m 8 [] (endRound s)
        | none => endRound s
    else if isManager s then modSys (fun v => { v with markers := 0 }) s else endRound s
  else s

/-- A free request reaches a member: markers left by a round that did not end are of no use in this one. -/
def freeRequested (s : State) : State :=
  if s.mesh.ver.freeing then modSys (fun v => { v with markers := 0 }) s else s

/-- Send a marker on every link to a member, and look at those that have come. -/
def sendMarkers (s : State) : State := markersIn (versionAll 7 [] (modSys (fun v => { v with freeing := true }) s))

/-- The manager starts a round once every member reports zero. -/
def freeRound (s : State) : State :=
  let ks := others s
  if isManager s && draining s && decide (otherMembers s ≠ 0) && !s.mesh.ver.localDrain && idleHere s
      && ks.all (fun k => (tieLink k s).peerIdle) then
    let t := foldOver ks (fun k a => modTieLink k (fun x => { x with peerIdle := false }) a) s
    let u := modSys (fun v => { v with confirms := setBit (bitmap ks) (selfId t), markers := 0 }) (wr tieSysStatus_phase 3 t)
    sendMarkers (versionAll 6 [] u)
  else s

def execVersionFreeRequest (k seq : Nat) (s : State) : Host.Outcome State Fault Refusal :=
  onControl k seq true (fun t => sendMarkers (freeRequested t)) s

/-- VERSION_MARKER from the device at link k. -/
def execVersionMarker (k seq : Nat) (s : State) : Host.Outcome State Fault Refusal :=
  onControl k seq true (fun t => markersIn (modSys (fun v => { v with markers := setBit v.markers k }) t)) s

def execVersionConfirm (k seq : Nat) (s : State) : Host.Outcome State Fault Refusal :=
  onControl k seq true (fun t => if isManager t && t.mesh.ver.freeing then confirmFrom k t else t) s

def execVersionFree (k seq : Nat) (s : State) : Host.Outcome State Fault Refusal :=
  onControl k seq true (fun t => if draining t then freeVersion t else endRound t) s

/-! ### Joining (R483, R507) -/

/-- Frames stamped with version a carry number b instead. -/
def restamp (a b : Nat) (s : State) : State :=
  { s with frames := s.frames.map (fun e => if e.2.version = some a then (e.1, { e.2 with version := some b }) else e) }

/-- The current version is copied and becomes current as v; the old one drains here (R507). -/
def copyAs (v : Nat) (s : State) : State :=
  let c := curVersion s
  let s1 := restamp c (v - 1) (putHalf (stagingIdx s) (half c s) s)
  let s2 := modSys (fun x => { x with localDrain := true })
    { s1 with ver := { s1.ver with drainRaw := s1.tim.raw, drainOver := false } }
  freeIfDrained (raise clsVersionCommitted (wr clsVersion_current v (wr clsVersionState_draining 1 s2)))

/-- The current version takes the manager's number v. -/
def renumber (v : Nat) (s : State) : State :=
  let c := curVersion s
  if v = 0 ∨ c = 0 ∨ v = c then s
  else if v % 2 = c % 2 then restamp c v (wr clsVersion_current v s)
  else copyAs v s

/-- A device that waits at step 12 commits as joined (R507): its staging becomes version v. -/
def joinCommit (v : Nat) (s : State) : State :=
  clsTake (max 1 v) (modSys (fun x => { x with joinWait := false }) s)

/-- The manager lists this device, which has no draining version: it is joined. Its owner map is what the manager has sent (R497). -/
def meshJoin (k v : Nat) (s : State) : State :=
  let t := wr tieMeshStatus_joined 1 { s with mesh := { s.mesh with former := some k } }
  if t.mesh.ver.joinWait then joinCommit v t else renumber v t

/-- JOIN_WAIT_TIMEOUT: step 12 commits number 1. -/
def execJoinWaitTimeout (s : State) : Host.Outcome State Fault Refusal :=
  .next (onlyIf s.mesh.ver.joinWait (joinCommit 1) s)

/-! ### Heartbeats (R489, R504 to R506) -/

/-- manager_seen: a heartbeat of the manager has come since the previous tick; a manager sees itself. -/
def managerSeen (s : State) : Bool :=
  match managerOf s with
  | some m => decide (m = selfId s) || (tieLink m s).heard
  | none => false

/-- The devices that this device counts as lost. -/
def lostMap (s : State) : Nat := bitmap (tieLinks.filter (fun k => (tieLink k s).lost))

/-- A heartbeat on link k. -/
def sendHeartbeat (seen : Bool) (k : Nat) (s : State) : State :=
  let m := isManager s
  sendMsg k 6 (bytesLE 1 (selfId s) ++ bytesLE 1 (rd tieMeshStatus_roleLive s) ++ bytesLE 4 (rd tieMgrEpoch_epoch s)
    ++ bytesLE 1 (if m then rd tieMeshStatus_members s else 0) ++ bytesLE 1 (if m then rd tieMeshStatus_absent s else 0)
    ++ bytesLE 1 (lostMap s) ++ bytesLE 1 (b2n seen) ++ bytesLE 4 (curVersion s) ++ bytesLE 1 (b2n (draining s))
    ++ bytesLE 1 (b2n (idleHere s)) ++ bytesLE 2 (tieLink k s).rxSeq) s

/-- A heartbeat on every active link. -/
def sendHeartbeats (seen : Bool) (s : State) : State := foldOver (activeLinks s) (sendHeartbeat seen) s

/-- Whether the peer of link k is watched: its link is active, or it is a member or the manager. -/
def watched (k : Nat) (s : State) : Bool :=
  linkActive k s || bit (otherMembers s) k
    || (decide (rd tieMeshStatus_managerPresent s = 1) && decide (k ≠ selfId s) && decide (rd tieMeshStatus_managerId s = k))

/-- The tick of one link: a miss is counted, and the third in a row makes the peer lost. Answers whether the peer became lost. -/
def linkTick (k : Nat) (s : State) : Bool × State :=
  let x := tieLink k s
  if !watched k s then (false, s)
  else if x.heard then (false, wrC tieLinkStatus_missed k 0 (putTieLink k { x with heard := false, lost := false } s))
  else
    let n := min 3 (rdC tieLinkStatus_missed k s + 1)
    let t := wrC tieLinkStatus_missed k n (count tieCtrs 7 k 1 s)
    if n = 3 ∧ x.lost = false then (true, raiseC tiePeerLost k (modTieLink k (fun y => { y with lost := true }) t)) else (false, t)

/-- Take the manager's role (R505): entries of the old manager move, and prepared members commit or abort (R508). A manager that has
committed itself reports that version as current. -/
def takeOver (old : Nat) (s : State) : State :=
  let here := selfId s
  let m := wr tieMgrEpoch_epoch ((rd tieMgrEpoch_epoch s + 1) % 2 ^ 32) (wr tieMeshStatus_roleLive 1
    (wr tieMeshStatus_managerId here (wr tieMeshStatus_managerPresent 1 (wr tieMeshStatus_joined 1
      (wr tieMeshStatus_members (setBit (rd tieMeshStatus_members s) here) s)))))
  let t := markAbsent old (sendHeartbeats true (raise tieBecameManager m))
  match t.mesh.ver.prepared with
  | some n =>
    if (others t).any (fun k => decide ((tieLink k t).peerCur = n)) then sysCommit n t else unprepare (versionAll 5 [] t)
  | none =>
    if (others t).any (fun k => decide ((tieLink k t).peerCur + 1 = curVersion t)) then tellCommit (curVersion t) t else versionAll 5 [] t

/-- Every other member with an active link reports that it has not seen the manager (R505). -/
def allUnseen (old : Nat) (s : State) : Bool :=
  ((activeLinks s).filter (fun k => bit (rd tieMeshStatus_members s) k && k != old)).all (fun k => !(tieLink k s).peerSeen)

/-- What the loss of the manager does at a tick (R505, R506). `fresh` says that it was lost at this tick. -/
def managerTick (fresh : Bool) (s : State) : State :=
  match managerOf s with
  | none => s
  | some m =>
    let role := rd tieMeshStatus_roleLive s
    if m = selfId s ∨ (tieLink m s).lost = false then s
    else if role = 2 then
      if allUnseen m s then takeOver m s else if fresh then raise tieManagerLinkLost s else s
    else
      let t := refreshJoined (wr tieMeshStatus_managerPresent 0 s)
      if role = 0 ∧ !tieLinks.any (fun k => linkActive k t && decide (rdC tieLinkStatus_peerRole k t = 2)) then
        raise tieManagerLost t else t

/-- Forward the next ring record to the manager, at no more than one per 2.5 ms (R513, R577). -/
def forwardEvent (s : State) : State :=
  match managerOf s with
  | none => s
  | some m =>
    let from_ := s.mesh.fwdSent.getD s.tmk.fwdSeq
    let seq := (from_ + 1) % 2 ^ 32
    let ws := slotWords ringDefault s.tmk.ring (seq % 4096)
    if m = selfId s ∨ !linkActive m s ∨ s.tim.raw < s.mesh.fwdRaw + 1953125 ∨ seqDiff s.tmk.seqNext seq ≤ 0 then s
    else
      let t := { s with mesh := { s.mesh with fwdSent := some seq, fwdRaw := s.tim.raw } }
      if recComplete ws ∧ ws.getD 0 0 = BitVec.ofNat 32 seq then sendControl m 7 (bytesOfWords ws) t else t

/-- The manager marks every lost member absent (R504). -/
def absentTick (s : State) : State :=
  if isManager s then foldOver (tieLinks.filter (fun k => (tieLink k s).lost && bit (otherMembers s) k)) markAbsent s else s

/-- HEARTBEAT_TICK. -/
def heartbeatTick (s : State) : State :=
  let seen := managerSeen s
  let r := tieLinks.foldl (fun (a : List Nat × State) k =>
    let x := linkTick k a.2
    (if x.1 then a.1 ++ [k] else a.1, x.2)) ([], s)
  let fresh := match managerOf s with
    | some m => r.1.contains m
    | none => false
  forwardEvent (freeRound (serveMoves (sendHeartbeats seen (managerTick fresh (absentTick r.2)))))

def execHeartbeatTick (s : State) : Host.Outcome State Fault Refusal :=
  .next (onlyIf (blockOn .tie s && decide (rd tieMeshStatus_roleLive s ≠ 3)) heartbeatTick s)

/-- Messages that the peer acknowledges leave the queue; forwarded records among them move the forward position (R489, R577). -/
def ackLink (k ack : Nat) (s : State) : State :=
  let x := tieLink k s
  let old (m : CtlMsg) : Bool := decide ((ack + 65536 - m.seq) % 65536 < 32768)
  let t := putTieLink k { x with unacked := x.unacked.filter (fun m => !old m) } s
  match lastForward (x.unacked.filter old) with
  | some q => { t with tmk := { t.tmk with fwdSeq := q } }
  | none => t

/-- What a heartbeat of the manager says: members, and whether this device is joined. -/
def fromManager (k : Nat) (hb : Heartbeat) (s : State) : State :=
  let t := wr tieMeshStatus_absent hb.absent (wr tieMeshStatus_members hb.members s)
  if !bit hb.members (selfId t) then wr tieMeshStatus_joined 0 t
  else if rd tieMeshStatus_joined t = 1 ∨ draining t = true then t
  else meshJoin k hb.current t

/-- The manager takes in a device that has no draining version, and sends it the owner map, every entry, before a heartbeat lists it (R497,
R507). -/
def takeIn (k : Nat) (s : State) : State :=
  let t := wr tieMeshStatus_absent (clearBit (rd tieMeshStatus_absent s) k)
    (wr tieMeshStatus_members (setBit (rd tieMeshStatus_members s) k) s)
  foldOver (List.range 4096) (fun e a =>
    sendControl k 4 (ownerMsg e (ownerDevice e a) (ownEntry e a).epoch (ownEntry e a).moving true false) a) t

/-- HEARTBEAT_RECEIVED. -/
def heartbeatReceived (k : Nat) (hb : Heartbeat) (s : State) : State :=
  let b := takeBad k (count tieCtrs 3 k 1 s)
  if b.1 then b.2
  else
    let s1 := ackLink k hb.ack (wrC tieLinkStatus_peerRole k hb.role (modTieLink k (fun x => { x with
      heard := true, peerSeen := hb.managerSeen, peerLost := hb.lost, peerCur := hb.current
      peerDraining := hb.draining, peerIdle := !hb.draining || hb.idle }) b.2))
    let newer := decide (rd tieMgrEpoch_epoch s1 < hb.epoch)
    let s2 := hearEpoch k hb.epoch (decide (hb.role = 1)) s1
    if isManager s2 then
      let s3 := abortLost k hb.lost s2
      if bit (rd tieMeshStatus_members s3) k ∨ hb.draining = true then s3 else takeIn k s3
    else if hb.role = 1 ∧ (newer = true ∨ rd tieMeshStatus_managerPresent s2 = 0 ∨ rd tieMeshStatus_managerId s2 = k) then
      fromManager k hb (if managerOf s2 = some k then s2 else followManager k (rd tieMgrEpoch_epoch s2) s2)
    else s2

def execHeartbeatReceived (k : Nat) (hb : Heartbeat) (s : State) : Host.Outcome State Fault Refusal :=
  onTie k (linkActive k s) (heartbeatReceived k hb) s

/-! ### Time across the mesh (R510, R511) -/

/-- When a comma that leaves, or reaches, the PCS `sub` eighths of a raw count after it began crosses the balls of link k's lowest lane:
the lane's PMA delay later, or earlier (R154, R510). -/
def leavesAt (k sub : Nat) (s : State) : Nat := timeAtEighth s.tim (raw8 sub s + rdC lanPmaDelay_txDelay (256 + 4 * k) s)
def reachedBallsAt (k sub : Nat) (s : State) : Nat := timeAtEighth s.tim (raw8 sub s - rdC lanPmaDelay_rxDelay (256 + 4 * k) s)

/-- TIME_TRANSFER_START: a request with T1 on every active link, its comma `sub` eighths of a raw count after it began. -/
def timeTransferStart (sub : Nat) (s : State) : State :=
  foldOver (activeLinks s) (fun k a =>
    sendMsg k 5 (bytesLE 1 0 ++ timeBytes (leavesAt k sub a)) (modTieLink k (fun x => { x with t1 := some (leavesAt k sub a, a.tim.epoch) }) a)) s

def execTimeTransferStart (sub : Nat) (s : State) : Host.Outcome State Fault Refusal :=
  guarded (decide (sub < 8)) (timeTransferStart sub s)

/-- Signed difference of two times. -/
def timeDiff (a b : Nat) : Int :=
  let d := (a + timeMod - b % timeMod) % timeMod
  if d < timeMod / 2 then (d : Int) else (d : Int) - (timeMod : Int)

/-- The sample of the exchange with the manager (R511): to the servo when its source is 3, refused when an epoch changed. -/
def meshSample (k : Nat) (x : Int) (stale : Bool) (s : State) : State :=
  if managerOf s ≠ some k then s
  else if stale then raise timSampleStale s
  else if cf timServoCfg_src s = 3 ∧ blockOn .tim s then
    servoSample (x + signed 32 (cfC tsuAsymHi_value (256 + k) s) * 65536 + ((cfC tsuAsymLo_frac (256 + k) s : Nat) : Int)) s
  else s

/-- TIME_TRANSFER, `sub` eighths of a raw count after it began: a request is answered, an answer ends the exchange. -/
def timeTransfer (k sub : Nat) (m : TimeMsg) (s0 : State) : State :=
  let b := takeBad k (count tieCtrs 3 k 1 s0)
  let s := b.2
  if b.1 then s
  else
    let now := reachedBallsAt k sub s
    match m with
    | .request _ => sendMsg k 5 (bytesLE 1 1 ++ timeBytes now ++ timeBytes (leavesAt k sub s) ++ [0]) s
    | .answer t2 t3 changed =>
      match (tieLink k s).t1 with
      | none => s
      | some (t1, epoch) =>
        let dl := unsigned 48 ((timeDiff now t1 - timeDiff t3 t2) / 2)
        let t := wrC tieLinkDelayHi_value k (dl / 65536) (wrC tieLinkDelayLo_value k (dl % 65536)
          (modTieLink k (fun x => { x with t1 := none }) s))
        meshSample k ((timeDiff t1 t2 + timeDiff now t3) / 2) (changed || decide (epoch ≠ s.tim.epoch)) t

def execTimeTransfer (k sub : Nat) (msg : TimeMsg) (s : State) : Host.Outcome State Fault Refusal :=
  onTie k (linkActive k s) (timeTransfer k sub msg) s

/-! ### TIE in the common state machine (R514) -/

/-- The block-wide part starts: the owner map and the version state are cleared. -/
def tieStarting (s : State) : State := { s with mesh := { s.mesh with own := [], former := none, ver := { joinWait := s.mesh.ver.joinWait } } }

/-- The block-wide part is ON: a device strapped manager is a mesh of one (R482, R483). -/
def tieOn (s : State) : State :=
  let here := selfId s
  if rd tieMeshStatus_roleLive s = 1 then
    wr tieMeshStatus_managerId here (wr tieMeshStatus_managerPresent 1 (wr tieMeshStatus_joined 1
      (wr tieMeshStatus_members (setBit (rd tieMeshStatus_members s) here) s)))
  else s

/-- The precondition of link k. -/
def tieReady (k : Nat) (s : State) : Bool :=
  (List.range 4).all (fun i => chanOn .lan (256 + 4 * k + i) s) && decide (strapRole s ≠ 3) && decide (k ≠ selfId s)

/-- Link k starts: its state is cleared and its lanes are requested. What a recovery has kept of its control messages stays (R525). -/
def tieChanStarting (k : Nat) (s : State) : State :=
  let lanes := (List.range 4).map (fun i => 256 + 4 * k + i)
  startLanes lanes (wrC tieLinkStatus_state k 1 (wrC tieLinkStatus_refuse k 0 (wrC tieLinkStatus_missed k 0 (putTieLink k { kept := (tieLink k s).kept } s))))

/-- Frames queued for link k, wherever they wait. -/
def queuedFor (k : Nat) (s : State) : List Nat :=
  (s.sw.voq.filter (fun e => keyDest e.1 == 256 + k)).flatMap (fun e => e.2)

/-- Link k drains: without an active link its queued frames are freed (R514). -/
def tieDraining (k : Nat) (s : State) : State :=
  if linkActive k s then s else foldOver (queuedFor k s) destOffDrop s

/-- The drain of link k is complete: nothing is queued for it. -/
def tieDrained (k : Nat) (s : State) : Bool := (queuedFor k s).isEmpty && (dest (256 + k) s).eg.isEmpty

/-- Link k is not ON: its lanes stop. -/
def tieStopped (k : Nat) (s : State) : State :=
  refreshJoined (foldOver ((List.range 4).map (fun i => 256 + 4 * k + i)) (fun l a => onlyIf (chanOn .lan l a && decide (laneMode l a = 0)) (setLane l 0) a)
    (wrC tieLinkStatus_state k 0 (clearLink k s)))

/-- Link k is OFF: its control messages are given up. -/
def tieOff (k : Nat) (s : State) : State := dropKept k (tieStopped k s)

/-- The commit check of TIE. -/
def tieCheck (s : State) : Option Nat :=
  if 2 ≤ rd tieMeshCfg_unreachable s ∨ rd tieMeshCfg_fwdWindowMs s = 0 ∨ rd tieLinkCfg_creditCells s < 16
      ∨ rd tieLinkCfg_ttPeriodMs s = 0 ∨ 1000 < rd tieLinkCfg_ttPeriodMs s ∨ rd tieSysverCfg_leadUs s < 100 then some 2 else none

end Sys2Proof.Machine
end

