-- ==== Sys2Proof/Machine/Hooks.lean ====
section
/-! DEFINITION. What the common state machine means in each block (R140, R180, R187, R213, R250, R289, R325, R355, R421, R447, R478,
R514, R533, R584): preconditions, and what starting, turning on, draining, a forced drain and leaving do to the block's own state. -/

namespace Sys2Proof.Machine

/-- Cluster c's part of a block is ON. -/
def clusterOn (c : Nat) (s : State) : Bool := chanOn .mcs c s

/-- Every present stack and the HBM block-wide part are ON (R289). -/
def hbmOn (s : State) : Bool :=
  blockOn .hbm s && (List.range 4).all (fun k => isFused .hbm k s || chanOn .hbm k s)

/-- REFCLK_LANE of a lane's chiplet is detected and its PLL is locked (R140). -/
def laneClocked (l : Nat) (s : State) : Bool :=
  !s.pwr.laneLost.testBit (chipletOf l) && decide (rdX lanCalStatus_pllLock (chipletOf l) 0 s = 1)

/-- A channel's own precondition. -/
def chanReady (b : Block) (c : Nat) (s : State) : Bool :=
  match b with
  | .lan => laneClocked c s
  | .prt => (portLanes c s).all (fun l => chanOn .lan l s)
  | .tie => tieReady c s
  | .mcs => mcsReady c s
  | .fen => clusterOn (c / 16) s
  | .dsp => clusterOn c s
  | _ => true

/-- A block-wide part's precondition. -/
def wideReady (b : Block) (s : State) : Bool :=
  match b with
  | .cls => decide (curVersion s ≠ 0)
  | .flt => hbmOn s
  | .dsp => blockOn .flt s
  | .swc => blockOn .bpm s
  | _ => true

/-- The preconditions of a target are met, its block-wide part being ON among them (R121). -/
def precondOk (t : Target) (s : State) : Bool :=
  match (normTarget t).chan with
  | none => wideReady t.block s
  | some c => blockOn t.block s && chanReady t.block c s

/-! ### Starting -/

/-- TMG starts: every V and S is 0 and every shaper full (R447). -/
def tmgStarting (s : State) : State :=
  foldOver (List.range 266) fillShapers { s with egr := { s.egr with vtime := [], tags := [] } }

/-- A TMG channel starts (R447). -/
def tmgChanStarting (d : Nat) (s : State) : State :=
  fillShapers d { s with egr := { s.egr with tags := sfilter (fun k => k / 8 != d) s.egr.tags } }

/-- An engine starts: its slots are cleared (R325). A running item goes on. -/
def fenStarting (e : Nat) (s : State) : State := fenForced e s

/-- The start check at entry to STARTING: its fault code, if it fails (R181). -/
def startCheck (t : Target) (s : State) : Option Nat :=
  match t.block, (normTarget t).chan with
  | .prt, some p => prtStartCheck p s
  | _, _ => none

/-- The calibration of step 5 is valid for every present chiplet (R140). -/
def calibrated (s : State) : Bool :=
  (List.range 4).all (fun c => isFused .lan (64 * c) s || decide (rdX lanCalStatus_calValid c 0 s = 1))

/-- The check that STARTING makes before a target can be ON: valid calibration for LAN (R140), the key profiles in effect for FLT (R289). -/
def startOk (t : Target) (s : State) : Bool :=
  match t.block, (normTarget t).chan with
  | .lan, none => calibrated s
  | .flt, none => (List.range 16).all (fun k => (keyProfileRefusal k { s with fab := { s.fab with regs := s.fab.live } }).isNone)
  | _, _ => true

/-- What STARTING does. -/
def startEffects (t : Target) (s : State) : State :=
  match t.block, (normTarget t).chan with
  | .lan, some l => powerLane l s
  | .prt, none => prtWideStarting s
  | .prt, some p => prtStarting p s
  | .tie, none => tieStarting s
  | .tie, some k => tieChanStarting k s
  | .fch, none => fchStarting s
  | .mcs, some c => mcsStarting c s
  | .fen, some e => fenStarting e s
  | .dsp, none => dspStarting s
  | .dsp, some c => dspChanStarting c s
  | .bpm, none => bpmStarting s
  | .swc, none => swcStarting s
  | .tmg, none => tmgStarting s
  | .tmg, some d => tmgChanStarting d s
  | _, _ => s

/-- TIM is ON: the servo starts (R466), PPS_OUT and SYNCE_CLK run (R478). -/
def timOn (s : State) : State :=
  refreshSynce { s with tim := { s.tim with first := true, synceUp := true, ppsNext := some (ppsAfter (timeNow s) s) } }

/-- FLT is ON: its scanner begins a pass (R268) and its enabled command rings take entries (R288). -/
def fltOn (s : State) : State :=
  foldOver [0, 1, 2] (fun c a => if ringRuns c a then takeEntries c 8192 a else a)
    { s with flow := { s.flow with scanRaw := s.tim.raw } }

/-- What reaching ON does. -/
def onEffects (t : Target) (s : State) : State :=
  match t.block, (normTarget t).chan with
  | .lan, some l => refreshSynce (enterSequence (groupLanes l s) l s)
  | .tie, none => tieOn s
  | .flt, none => fltOn s
  | .tim, none => timOn s
  | .tim, some c => if c < 8 then trigOn c s else s
  | _, _ => s

/-! ### Draining -/

/-- A trigger's drain disarms it (R478). -/
def timChanDraining (c : Nat) (s : State) : State := if c < 8 then wrC timTrigCtl_armed c 0 s else s

/-- What entering DRAINING does. -/
def drainEffects (t : Target) (s : State) : State :=
  match t.block, (normTarget t).chan with
  | .lan, some l => laneLeaves l s
  | .prt, some p => linkGone p s
  | .tie, some k => tieDraining k s
  | .l2t, none => { s with l2 := { s.l2 with due := [] } }
  | .fch, none => writeBackAll s
  | .tim, none => refreshSynce s
  | .tim, some c => timChanDraining c s
  | _, _ => s

/-- A port's queues are empty and its transmit MAC idle (R180). -/
def prtDrained (p : Nat) (s : State) : Bool :=
  (s.sw.voq.all (fun (e : Nat × List Nat) => keyDest e.1 != p)) && (dest p s).eg.isEmpty && (dest p s).copies.isEmpty

/-- Whether a cluster's engines are all OFF or HELD (R325). -/
def enginesStopped (c : Nat) (s : State) : Bool :=
  (List.range 16).all (fun k => match (tgt ⟨.fen, some (16 * c + k)⟩ s).st with
    | .off | .held => true
    | .starting | .on | .draining | .fault => false)

/-- Both in-flight counts of CLS are 0 (R213). -/
def clsDrained (s : State) : Bool := decide (clsView clsInflightCur_count.off s = some 0 ∧ clsView clsInflightOld_count.off s = some 0)

/-- The drain of a target is complete. -/
def drainReady (t : Target) (s : State) : Bool :=
  match t.block, (normTarget t).chan with
  | .prt, some p => prtDrained p s
  | .tie, some k => tieDrained k s
  | .cls, none => clsDrained s
  | .l2t, none => s.l2.queue.isEmpty
  | .flt, none => fltDrained s
  | .mcs, some c => enginesStopped c s
  | .fen, some e => fenDrained e s
  | .dsp, none => (List.range 32).all (fun c => dspDrained c s)
  | .dsp, some c => dspDrained c s
  | .bpm, none => decide ((tgt ⟨.swc, none⟩ s).st = .off) && bpmDrained s
  | .swc, none => swcDrained s
  | .tmg, some d => (dest d s).lock.isNone
  | .tim, none => s.tim.ppsHigh.isNone
  | .tim, some c => decide (8 ≤ c) || (trig c s).pulse.isNone
  | _, _ => true

/-- Table operations in service, left at the bound of FLT's drain, are discarded. -/
def fltForced (s : State) : State :=
  foldOver (List.range 32) (fun c a => foldOver ((items c a).filter (fun i => !i.isFrame && !i.waits))
    (fun i b => discardOp c i b) a) s

/-- The work that a forced drain discards (R121). -/
def forcedEffects (t : Target) (s : State) : State :=
  match t.block, (normTarget t).chan with
  | .prs, some c => dropParsing c s
  | .prt, some p => freePortFrames p s
  | .tie, some k => foldOver (queuedFor k s) destOffDrop s
  | .cls, none => dropClassifying s
  | .l2t, none => l2tForced s
  | .flt, none => fltForced s
  | .fen, some e => fenForced e s
  | .dsp, none => foldOver (List.range 32) (fun c a => dspDiscard false c a) s
  | .dsp, some c => dspDiscard false c s
  | .bpm, none => bpmForced s
  | .swc, none => dropQueued s
  | .tim, none => { s with tim := { s.tim with ppsHigh := none } }
  | .tim, some c => if c < 8 then putTrig c { trig c s with pulse := none } s else s
  | _, _ => s

/-- What reaching OFF at the end of a drain does. -/
def offEffects (t : Target) (s : State) : State :=
  match t.block, (normTarget t).chan with
  | .prt, some p => moveLater p (prtStopped p s)
  | .tie, some k => tieOff k s
  | .flt, none => fltOff s
  | .fch, none => writeBackAll s
  | _, _ => s

/-- What entering FAULT does to the target's own unit. -/
def faultEffects (t : Target) (s : State) : State :=
  match t.block, (normTarget t).chan with
  | .lan, some l => laneLeaves l s
  | .prt, some p => moveLater p (prtStopped p (portDown p s))
  | .tie, some k => tieStopped k s
  | .mcs, some c => takeOut c s
  | .tim, none => refreshSynce s
  | .flt, none => fltOff s
  | .fch, none => writeBackAll s
  | _, _ => s

/-- Every target of a block: the block-wide part, then its channels. -/
def targetsOf (b : Block) : List Target :=
  if chanCount b = 1 then [⟨b, none⟩] else ⟨b, none⟩ :: (List.range (chanCount b)).map (fun c => ⟨b, some c⟩)

end Sys2Proof.Machine
end

