-- ==== Sys2Proof/Machine/BlockFsm.lean ====
section
/-! DEFINITION. The common state machine (R121 to R123) over the hooks of every block, the per-block reset (R124, R528, R529), and automatic
recovery (R525). -/

namespace Sys2Proof.Machine

/-! ### Transitions -/

/-- A target enters STARTING; a failing start check takes it to FAULT. -/
def startTarget (t : Target) (s : State) : State :=
  let s1 := enterStarting t s
  match startCheck t s1 with
  | some code => faultEffects t (enterFault t code s1)
  | none => startEffects t s1

/-- The OFF rows of R121, apart from the device being active. -/
def leaveOff (t : Target) (s : State) : State :=
  if (tgt t s).st = .off ∧ (tgt t s).enable = true ∧ tgtFused t s = false then
    if precondOk t s then startTarget t s else modTgt t (fun x => { x with st := .held }) s
  else s

/-- The OFF rows of R121: only while the device is active (R123). -/
def offRows (t : Target) (s : State) : State := if active s then leaveOff t s else s

/-- A target enters DRAINING. -/
def beginDrain (t : Target) (s : State) : State := drainEffects t (modTgt t (fun x => { x with st := .draining }) s)

/-- Whether a target is STARTING or ON. -/
def running (t : Target) (s : State) : Bool := decide ((tgt t s).st = .starting ∨ (tgt t s).st = .on)

/-! ### Per-block reset (R124) -/

/-- The blocks that BLOCK_RESET acts on (R528). -/
def resettable : Block → Bool
  | .lan | .prt | .tie | .tsu | .prs | .cls | .l2t | .lpm | .flt | .fch | .dsp | .fen | .mcs | .bpm | .swc | .tmg | .tim | .scr
  | .evt => true
  | .sys | .hmk | .bnc | .pwr | .cfg | .rst | .hbm | .tmk | .pcn | .hif | .mio => false

/-- The targets that a per-block reset of `t` covers. -/
def coveredBy (t : Target) : List Target :=
  match (normTarget t).chan with
  | none => targetsOf t.block
  | some _ => [t]

/-- Whether a reset of the target, or of its whole block, is in progress. -/
def resetBusy (t : Target) (s : State) : Bool := (tgt t s).resetBusy || (tgt ⟨t.block, none⟩ s).resetBusy

/-- Whether a key of the register fabric belongs to a target's registers: every page of the block for its whole, and the channel's copies
for one channel. -/
def keyOf (t : Target) (k : Nat) : Bool :=
  let off := k % 0x40000
  let c := k / 0x40000
  decide (blockOfPage (off / 0x1000) = some t.block) &&
    (match (normTarget t).chan with
     | none => decide (off ≠ scrRetired_count.off ∧ off ≠ scrRetired_count.off + 4 ∧ off ≠ scrRetired_count.off + 8
         ∧ off ≠ scrRetired_count.off + 12 ∧ off ≠ scrRetired_count.off + 16)
     | some ch =>
       if off = (modeFld t.block).off then decide (c = ch + 1)
       else match findReg off with
         | some r => (match r.scope with
            | .chan => decide (c = ch)
            | .sel => decide (t.block = .tmg ∧ c / 8 = ch)
            | .glob | .win => false)
         | none => false)

/-- The registers and counters of a target return to their reset values, with what the windows have captured of them. -/
def clearRegs (t : Target) (s : State) : State :=
  let keep (k : Nat) : Bool := !keyOf t k
  { s with fab := { s.fab with
      regs := sfilter keep s.fab.regs
      live := sfilter keep s.fab.live
      counters := sfilter keep s.fab.counters
      wraps := sfilter keep s.fab.wraps
      hiSnap := sfilter (fun k => keep (k / 4)) s.fab.hiSnap
      wrapSnap := sfilter (fun k => keep (k / 4)) s.fab.wrapSnap } }

/-- The cause, mask and pending bits of a block return to reset, and its commit record, which ends a pending commit (R120). -/
def clearHeader (b : Block) (s : State) : State :=
  let mine (g : Nat) : Bool := decide (firstG b ≤ g ∧ g < firstG b + causeCount b)
  resignal { s with
    fab := { s.fab with commits := sdel s.fab.commits (blockCode b) }
    evt := { s.evt with
      cause := sfilter (fun g => !mine g) s.evt.cause
      mask := sfilter (fun g => !mine g) s.evt.mask
      pend := sfilter (fun k => !mine (k / 16)) s.evt.pend } }

/-- Targets return to OFF with enable 0. -/
def clearTargets (t : Target) (s : State) : State := foldOver (coveredBy t) (fun x a => putTgt x {} a) s

/-- Key `k` does not belong to channel `c`. -/
def notKey (c k : Nat) : Bool := k != c

/-- The state of a channel beside its registers. -/
def clearChanState (b : Block) (c : Nat) (s : State) : State :=
  match b with
  | .lan => { s with lanes := { s.lanes with noHcd := sdel s.lanes.noHcd c, c37 := sdel s.lanes.c37 c, inject := sdel s.lanes.inject c } }
  | .prt =>
    let t := clearRx c s
    { t with
      lanes := { t.lanes with fecBad := sdel t.lanes.fecBad c }
      fab := { t.fab with later := t.fab.later.filter (fun e => e.1 != c) } }
  | .tie => putTieLink c {} s
  | .tsu => { s with tim := { s.tim with txts := sdel s.tim.txts c, txGap := sdel s.tim.txGap c } }
  | .tim =>
    if c < 8 then { s with tim := { s.tim with trigs := sdel s.tim.trigs c } }
    else putCapt (c - 8) { level := (capt (c - 8) s).level, since := (capt (c - 8) s).since } s
  | .dsp => dspChanStarting c s
  | .fen => s
  | .mcs => s
  | .tmg =>
    clearGates c { s with egr := { s.egr with
      vtime := sdel s.egr.vtime c
      tags := sfilter (fun k => k / 8 != c) s.egr.tags
      shapers := sfilter (fun k => k / 9 != c) s.egr.shapers } }
  | _ => s

/-- The time island returns to reset, its raw count to zero (R449): the capture inputs keep their levels, and the buckets of shapers and
meters what they hold. -/
def timCleared (s : State) : State :=
  { s with
    tim := { txts := s.tim.txts, txGap := s.tim.txGap,
             capts := s.tim.capts.filterMap (fun (e : Nat × Capt) => if e.2.level then some (e.1, { level := true }) else none) }
    egr := { s.egr with
      shapers := s.egr.shapers.map (fun e => (e.1, { e.2 with tok := shaperTokens (e.1 / 9) (e.1 % 9) s, raw := 0 }))
      meters := s.egr.meters.map (fun e => (e.1, { meterFill e.2 s.tim.raw with raw := 0 })) } }

/-- The state of a whole block beside its registers. -/
def clearBlockState (b : Block) (s : State) : State :=
  match b with
  | .lan => { s with lanes := { fecBad := s.lanes.fecBad, pma := s.lanes.pma } }
  | .prt =>
    let t := foldOver (s.rx.map (fun e => e.1)) clearRx s
    { t with lanes := { t.lanes with fecBad := [] }, fab := { t.fab with later := [] } }
  | .tie => wr tieMeshStatus_roleLive (rd sysStrapSample_role s) { s with mesh := {} }
  | .cls => modSys (fun v => { v with localDrain := false }) { dropSystem s with ver := {} }
  | .l2t => l2tClear s
  | .lpm => lpmClear s
  | .flt => fltReset s
  | .fch => fchStarting s
  | .dsp => dspStarting s
  | .bpm => retireFreed { s with pools := { retired := s.pools.retired, retireNext := s.pools.retireNext, errs := s.pools.errs,
                                            owner := s.pools.owner.filter (fun e => e.2 == retiredMark) } }
  | .swc => swcStarting s
  | .tmg => { s with egr := {} }
  | .tim => timCleared s
  | .tsu => { s with tim := { s.tim with txts := [], txGap := [] } }
  | .evt => { s with evt := { s.evt with auto := [], supp := [], lim := [] } }
  | _ => s

/-- The PLLs of the chiplets stay locked and calibrated through a reset of the LAN block, so that it can start again (R528: DEDUCED,
assumption log 97). -/
def keepLocks (old s : State) : State :=
  foldOver (List.range 4) (fun c a => wrX lanCalStatus_pllLock c 0 (rdX lanCalStatus_pllLock c 0 old)
    (wrX lanCalStatus_calValid c 0 (rdX lanCalStatus_calValid c 0 old) a)) s

/-- The targets whose units hold what they did before a reset: a cluster keeps its banks (R325), a chiplet its PLL; TIM.STATUS goes on
showing the backup oscillator (R456). -/
def resetUnits (t : Target) (old s : State) : State :=
  match t.block, (normTarget t).chan with
  | .mcs, none => foldOver (List.range 32) (fun c a => mcsReset c old a) s
  | .mcs, some c => mcsReset c old s
  | .lan, none => keepLocks old (clearBlockState .lan s)
  | .tim, none => wr timStatus_onBackup (b2n s.pwr.onBackup) (clearBlockState .tim s)
  | b, none => clearBlockState b s
  | b, some c => clearChanState b c s

/-- Number of a window in RST.LAST_BLOCK_RESET: 0 H, 1 B or Hallmark. -/
def windowBit : Window → Nat
  | .h => 0
  | .b => 1
  | .hm _ _ => 1

/-- What follows every per-block reset and every recovery (R529). -/
def noteReset (t : Target) (imm : Bool) (win : Nat) (auto : Bool) (s : State) : State :=
  let n := normTarget t
  let s1 := wr rstLastBlockReset_blockCode (blockCode t.block) (wr rstLastBlockReset_channel (n.chan.getD 0)
    (wr rstLastBlockReset_whole (b2n n.chan.isNone) (wr rstLastBlockReset_immediate (b2n imm)
      (wr rstLastBlockReset_window win (wr rstLastBlockReset_auto (b2n auto) (wr rstLastBlockReset_valid 1 s))))))
  raise rstBlockResetDone (incX rstCounts_blockResets 0 0 s1)

/-- The host acts on a target: its recoveries no longer count (R525). -/
def hostActs (t : Target) (s : State) : State :=
  { s with recov := { s.recov with
      recovered := sdel s.recov.recovered (tgtKey t)
      given := s.recov.given.filter (· != tgtKey t) } }

/-- The frame items of the dispatchers of a target that have not started end before the counters return to reset (R355). -/
def cancelCovered (t : Target) (s : State) : State :=
  match t.block, (normTarget t).chan with
  | .dsp, none => foldOver (List.range 32) cancelLeft s
  | .dsp, some c => cancelLeft c s
  | _, _ => s

/-- No covered target drains any more: the target's registers and state return to reset (R124). -/
def finishReset (t : Target) (s0 : State) : State :=
  let s := cancelCovered t s0
  let x := tgt t s
  let wide := (normTarget t).chan.isNone
  let s1 := foldOver (coveredBy t) hostActs (resetUnits t s (clearTargets t (clearRegs t s)))
  let s2 := if wide then clearHeader t.block s1 else s1
  noteReset t x.resetImm x.resetWin false (if t.block = .tim ∧ wide then afterStep (timeNow s) s.tim.epoch 0 s2 else s2)

/-- A per-block reset whose covered targets are all out of DRAINING ends. -/
def tryFinishReset (t : Target) (s : State) : State :=
  if (tgt t s).resetBusy && (coveredBy t).all (fun x => decide ((tgt x s).st ≠ .draining)) then finishReset t s else s

/-- Work in flight of a target is discarded at once (R124). A running item of an engine is never discarded (R317): the engine drains. -/
def discardNow (t : Target) (s : State) : State :=
  match t.block, (normTarget t).chan, (tgt t s).st with
  | _, _, .off => s
  | _, _, .held => s
  | _, _, .fault => s
  | .fen, some e, _ =>
    let s1 := fenForced e (modTgt t (fun x => { x with st := .draining }) s)
    if fenDrained e s1 then modTgt t (fun x => { x with st := .off }) s1 else s1
  | _, _, _ =>
    let s1 := if (tgt t s).st = .draining then s else beginDrain t s
    modTgt t (fun x => { x with st := .off }) (offEffects t (forcedEffects t s1))

/-- Table operations of the dispatchers of a target are dropped (R355). -/
def discardOps (t : Target) (s : State) : State :=
  match t.block, (normTarget t).chan with
  | .dsp, none => foldOver (List.range 32) (fun c a => dspDiscard true c a) s
  | .dsp, some c => dspDiscard true c s
  | _, _ => s

/-- cancel written (R120). On the manager it also ends the system commit that the CLS commit has become, with abort to every member,
before or after the commit message (DESIGN CHOICE, assumption log 68). -/
def commitCancel (b : Block) (s : State) : State :=
  let c := commitOf b s
  if c.status ≠ 1 then s
  else if b = .cls then
    let t := putCommit b { c with status := 0, armed := none } { s with ver := { s.ver with check := none } }
    if isManager s then dropSystem t else t
  else putCommit b { c with status := 0, armed := none } s

/-- A per-block reset begins (R124). That of a whole block cancels its pending commit at once (R120: DESIGN CHOICE, assumption log 119, for
one that first drains). -/
def beginReset (t : Target) (imm : Bool) (win : Nat) (s : State) : State :=
  let s0 := if (normTarget t).chan.isNone then commitCancel t.block s else s
  let s1 := modTgt t (fun x => { x with resetBusy := true, resetImm := imm, resetWin := win }) s0
  let s2 :=
    if imm then foldOver (coveredBy t) (fun x a => discardNow x a) (discardOps t s1)
    else foldOver (coveredBy t) (fun x a => if running x a then beginDrain x a else a) s1
  tryFinishReset t s2

/-- BLOCK_RESET_GO: a write of BLOCK_RESET. A warm reset in progress or PERST_N low absorbs it (R70). -/
def blockResetWrite (w : Window) (b : Block) (v : Word) (s : State) : State :=
  let t := selTarget w b s
  let off := blockBase b + 0x74
  if tgtFused t s then s
  else if wordField v 8 8 ≠ 0xA5 ∨ resetBusy t s = true
      ∨ (wordField v 0 1 = 1 ∧ resettable b = false) then accessError w off true s
  else if wordField v 0 1 = 1 ∧ rd rstWarmCtl_busy s = 0 ∧ s.pwr.perstLow = false then beginReset t (wordField v 1 1 == 1) (windowBit w) s
  else s

def execBlockResetGo (w : Window) (b : Block) (v : Word) (s : State) : Host.Outcome State Fault Refusal :=
  .next (writing w b (blockResetWrite w b v) s)

/-! ### Enable requests (R121, R122) -/

/-- A drain ends in OFF, and the OFF rows apply at once, or a reset that waited for it ends. -/
def drainDone (t : Target) (s : State) : State :=
  let s1 := modTgt t (fun x => { x with st := .off }) (offEffects t s)
  if resetBusy t s1 then tryFinishReset ⟨t.block, none⟩ (tryFinishReset t s1) else offRows t s1

/-- enable written 1. -/
def enableOn (t : Target) (s : State) : State := offRows t (modTgt t (fun x => { x with enable := true }) s)

/-- A tie link that goes from HELD or FAULT to OFF gives up the control messages it has kept. -/
def linkGivenUp (t : Target) (s : State) : State :=
  match t.block, (normTarget t).chan with
  | .tie, some k => dropKept k s
  | _, _ => s

/-- enable written 0. -/
def enableOff (t : Target) (s : State) : State :=
  let s1 := modTgt t (fun x => { x with enable := false }) s
  match (tgt t s1).st with
  | .off | .draining => s1
  | .held => linkGivenUp t (modTgt t (fun x => { x with st := .off }) s1)
  | .fault => linkGivenUp t (hostActs t (modTgt t (fun x => { x with st := .off, faultCode := 0 }) s1))
  | .starting | .on => beginDrain t s1

/-- The mode field of BLOCK_CTL goes to the shadow (R118, R120). -/
def modeWrite (t : Target) (v : Nat) (s : State) : State :=
  if commitArmed t.block s then shadowRefused t.block s else wrC (modeFld t.block) (modeCopy t) v s

/-- ENABLE_WRITE: a write of BLOCK_CTL. HBM refuses enable 0 (R289). -/
def blockCtlWrite (w : Window) (b : Block) (v : Word) (s : State) : State :=
  let t := selTarget w b s
  if tgtFused t s then s
  else if b = .hbm ∧ wordField v 0 1 = 0 then accessError w (blockBase b + 0x10) true s
  else
    let s1 := modeWrite t (wordField v 4 4) s
    if wordField v 0 1 = 1 then enableOn t s1 else enableOff t s1

def execEnableWrite (w : Window) (b : Block) (v : Word) (s : State) : Host.Outcome State Fault Refusal :=
  .next (writing w b (blockCtlWrite w b v) s)

/-! ### Conditions and bounds -/

/-- PRECONDITION_MET: HELD to STARTING. -/
def execPreconditionMet (t : Target) (s : State) : Host.Outcome State Fault Refusal :=
  guarded (targetOk t) (onlyIf (decide ((tgt t s).st = .held) && precondOk t s) (startTarget t) s)

/-- PRECONDITION_LOST: STARTING or ON to DRAINING. -/
def execPreconditionLost (t : Target) (s : State) : Host.Outcome State Fault Refusal :=
  guarded (targetOk t) (onlyIf (running t s && !precondOk t s) (beginDrain t) s)

/-- START_COMPLETE: the start is complete and the target is ON, or its start check failed (fault code 0x02). -/
def startComplete (t : Target) (failed : Bool) (s : State) : State :=
  if failed || !startOk t s then faultEffects t (enterFault t 2 s) else onEffects t (modTgt t (fun x => { x with st := .on }) s)

def execStartComplete (t : Target) (failed : Bool) (s : State) : Host.Outcome State Fault Refusal :=
  guarded (targetOk t) (onlyIf (decide ((tgt t s).st = .starting) && precondOk t s) (startComplete t failed) s)

/-- START_BOUND_EXCEEDED: fault code 0x01. -/
def execStartBoundExceeded (t : Target) (s : State) : Host.Outcome State Fault Refusal :=
  guarded (targetOk t) (onlyIf (decide ((tgt t s).st = .starting)) (fun s => faultEffects t (enterFault t 1 s)) s)

/-- What a drain frees as soon as the link is down (R180, R514). -/
def drainFrees (t : Target) (s : State) : State :=
  match t.block, (normTarget t).chan with
  | .prt, some p => linkGone p s
  | .tie, some k => tieDraining k s
  | _, _ => s

/-- DRAIN_COMPLETE. -/
def drainComplete (t : Target) (s : State) : State :=
  let s1 := drainFrees t s
  if drainReady t s1 then drainDone t s1 else s1

def execDrainComplete (t : Target) (s : State) : Host.Outcome State Fault Refusal :=
  guarded (targetOk t) (onlyIf (decide ((tgt t s).st = .draining)) (drainComplete t) s)

/-- DRAIN_FORCED: what is left is discarded; an engine still ends its running item (R325). -/
def drainForced (t : Target) (s : State) : State :=
  let s1 := forcedEffects t (noteForced t s)
  match t.block, (normTarget t).chan with
  | .fen, some e => if fenDrained e s1 then drainDone t s1 else s1
  | _, _ => drainDone t s1

def execDrainForced (t : Target) (s : State) : Host.Outcome State Fault Refusal :=
  guarded (targetOk t) (onlyIf (decide ((tgt t s).st = .draining) && !drainReady t s) (drainForced t) s)

/-- UNRECOVERABLE_ERROR: fault code 0x03. A stack of HBM enters FAULT only under R524. -/
def execUnrecoverableError (t : Target) (s : State) : Host.Outcome State Fault Refusal :=
  guarded (targetOk t) (onlyIf (decide ((tgt t s).st = .on ∧ t.block ≠ .hbm)) (fun s => faultEffects t (enterFault t 3 s)) s)

end Sys2Proof.Machine
end

