-- ==== Sys2Proof/Machine/Power.lean ====
section
/-! DEFINITION. Supplies, straps, reference clocks, pace monitors and voltage advice (chapters 02 and 03), resets apart. -/

namespace Sys2Proof.Machine

/-- RAIL_GOOD (R55, R56): the rail is good; a ramp longer than 50 ms sets its ramp_slow bit and raises ramp_slow. -/
def railGood (r : Nat) (slow : Bool) (s : State) : State :=
  let s1 := { s with pwr := { s.pwr with railLow := clearBit s.pwr.railLow r } }
  let s2 := wr pwrRailStatus_railGood (setBit (rd pwrRailStatus_railGood s1) r) s1
  if slow then raise pwrRampSlow (wr pwrRailStatus_rampSlow (setBit (rd pwrRailStatus_rampSlow s2) r) s2) else s2

def execRailGood (r : Nat) (slow : Bool) (s : State) : Host.Outcome State Fault Refusal :=
  guarded (decide (r < 8)) (onlyIf (s.pwr.railLow.testBit r) (railGood r slow) s)

/-- FAIL_LATCH_CLEAR (R64): writing 1 to fail_valid clears the latch. -/
def execFailLatchClear (w : Window) (v : Word) (s : State) : Host.Outcome State Fault Refusal :=
  .next (writing w .pwr (onlyIf (wordField v 19 1 = 1)
    (fun s => wr pwrRailStatus_failValid 0 { s with pwr := { s.pwr with failLatch := none } })) s)

/-- The straps as SYS.STRAP_SAMPLE lays them out. -/
def sampledStraps (s : State) : Nat := wordField (reg 0x90 0 s) 0 7

/-- STRAP_COMPARE (R54): the live fields follow; the tenth difference in a row sets strap_changed and raises it, not again before the
straps agree (DESIGN CHOICE, assumption log 99). -/
def strapCompare (straps : Nat) (s : State) : State :=
  let s1 := wr sysStrapSample_roleLive (bitsOf straps 0 2) (wr sysStrapSample_deviceIdLive (bitsOf straps 2 3)
      (wr sysStrapSample_bootSrcLive (bitsOf straps 5 2) s))
  if straps % 128 = sampledStraps s then { s1 with pwr := { s1.pwr with strapMism := 0 } }
  else
    let s2 := { s1 with pwr := { s1.pwr with strapMism := min (s.pwr.strapMism + 1) 10 } }
    if s.pwr.strapMism = 9 then raise sysStrapChanged (wr sysStrapSample_strapChanged 1 s2) else s2

def execStrapCompare (straps : Nat) (s : State) : Host.Outcome State Fault Refusal :=
  .next (onlyIf (decide (s.pwr.hold = .none)) (strapCompare straps) s)

/-! ### Reference clocks (R75) -/

/-- Mark the time base unlocked while the time island is on the backup oscillator (R75, R456). -/
def onBackup (b : Bool) (s : State) : State :=
  let s1 := wr timStatus_onBackup (b2n b) { s with pwr := { s.pwr with onBackup := b } }
  if b then wr timStatus_locked 0 s1 else s1

/-- REFCLK_SYS_LOST (R75): the clocked islands switch to the backup oscillator; refclk_sys_lost. -/
def execRefclkSysLost (s : State) : Host.Outcome State Fault Refusal :=
  .next (onlyIf (!s.pwr.sysLost)
    (fun s =>
      let s1 := { s with pwr := { s.pwr with sysLost := true } }
      if s1.pwr.hold = .none then raise pwrRefclkSysLost (onBackup true s1) else s1) s)

/-- REFCLK_SYS_RESTORED (R75): switch back and raise refclk_sys_restored; after a start on the backup oscillator there is no
action until the next reset. -/
def execRefclkSysRestored (s : State) : Host.Outcome State Fault Refusal :=
  .next (onlyIf s.pwr.sysLost
    (fun s =>
      let s1 := { s with pwr := { s.pwr with sysLost := false } }
      if s1.pwr.hold = .none ∧ !s1.pwr.backupStart then raise pwrRefclkSysRestored (onBackup false s1) else s1) s)

/-! ### Pace monitors (R79, R80) -/

/-- The margin of a region as signed picoseconds. -/
def marginOf (k : Nat) (s : State) : Int := signed 11 (rdX pwrPaceMargin_margin k 0 s)

/-- The lowest margin of the 16 regions. -/
def lowestMargin (s : State) : Int := ((List.range 16).map (fun k => marginOf k s)).foldl min 1023

/-- Store one region's measurement: margin 1,000 ps minus the stage delay, below, and the low water. -/
def storeMargin (k delay : Nat) (s : State) : State :=
  let m := clampInt (1000 - (delay : Int)) (-1024) 1023
  let low := min m (signed 11 (rdX pwrPaceMargin_lowWater k 0 s))
  wrX pwrPaceMargin_margin k 0 (unsigned 11 m)
    (wrX pwrPaceMargin_below k 0 (b2n (decide (m < cf pwrPaceCtl_thresholdPs s)))
      (wrX pwrPaceMargin_lowWater k 0 (unsigned 11 low) s))

/-- Store a list of measurements from region `k` on. -/
def storeMargins : Nat → List Nat → State → State
  | _, [], s => s
  | k, d :: ds, s => storeMargins (k + 1) ds (storeMargin k d s)

/-- Whether the device drives the AVSBus (R81). -/
def avsDrives (s : State) : Bool := decide (cf pwrAvsCtl_mode s = 2)

/-- An AVSBus write of a value starts (R81). -/
def avsRequest (v : Nat) (s : State) : State :=
  emit (.bus "AVS" [700 + v]) { s with pwr := { s.pwr with avsPend := some v, avsRetry := none } }

/-- Change the suggested voltage; in drive mode a change starts an AVSBus write (R81, R82). -/
def suggest (v : Nat) (s : State) : State :=
  let s1 := wr pwrAvsStatus_atCeiling (b2n (decide (v = cf pwrAvsCtl_ceiling s))) (wr pwrAvsStatus_suggestedMv v s)
  if v ≠ rd pwrAvsStatus_suggestedMv s ∧ avsDrives s = true then avsRequest v s1 else s1

/-- Raise the suggestion by step_up, up to the ceiling (R82). -/
def avsUp (s : State) : State :=
  suggest (min (rd pwrAvsStatus_suggestedMv s + cf pwrAvsCtl_stepUp s) (cf pwrAvsCtl_ceiling s)) s

/-- The suggestion rises when pace_margin is raised; in the held state it stays 0.700 V (R82). -/
def avsRise (s : State) : State := if held s then s else avsUp s

/-- The suggestion of an active device is not below the floor (PWR.AVS_CTL). -/
def avsActive (s : State) : State :=
  if rd pwrAvsStatus_suggestedMv s < cf pwrAvsCtl_floor s then suggest (cf pwrAvsCtl_floor s) s else s

/-- PACE_MEASURE (R79, R80, R26): a fall of the lowest margin below threshold_ps withdraws cut-through, raises pace_margin and
raises the suggestion; a fall below zero raises pace_negative once. -/
def paceMeasure (delays : List Nat) (s : State) : State :=
  let s1 := storeMargins 0 (delays.take 16) s
  let low := lowestMargin s1
  let below := decide (low < cf pwrPaceCtl_thresholdPs s1)
  let s2 :=
    if below ∧ !s1.pwr.paceBelow then
      avsRise (raise pwrPaceMargin { s1 with pwr := { s1.pwr with ctWithdrawn := true, paceBelow := true } })
    else { s1 with pwr := { s1.pwr with paceBelow := below } }
  if low < 0 ∧ !s2.pwr.negative then raise pwrPaceNegative { s2 with pwr := { s2.pwr with negative := true } }
  else { s2 with pwr := { s2.pwr with negative := decide (low < 0) } }

def execPaceMeasure (delays : List Nat) (s : State) : Host.Outcome State Fault Refusal :=
  guarded (decide (delays.length = 16)) (onlyIf (decide (s.pwr.hold = .none)) (paceMeasure delays) s)

/-- PACE_RECOVERY_EXPIRE (R26, R80): the lowest margin has stayed at or above threshold; cut-through is restored. -/
def execPaceRecoveryExpire (s : State) : Host.Outcome State Fault Refusal :=
  .next (onlyIf (s.pwr.ctWithdrawn && !s.pwr.paceBelow)
    (fun s => raise pwrPaceRestored { s with pwr := { s.pwr with ctWithdrawn := false } }) s)

/-! ### Voltage advice (R81 to R83) -/

/-- AVS_STEP_UP (R82): while the lowest margin stays below threshold; at the ceiling avs_at_ceiling is raised. -/
def avsStepUp (s : State) : State :=
  if rd pwrAvsStatus_suggestedMv s = cf pwrAvsCtl_ceiling s then raise pwrAvsAtCeiling s else avsUp s

def execAvsStepUp (s : State) : Host.Outcome State Fault Refusal :=
  .next (onlyIf (s.pwr.paceBelow && !held s) avsStepUp s)

/-- AVS_STEP_DOWN (R82): after each 1 s above down_margin_ps, down to the floor. -/
def avsStepDown (s : State) : State :=
  suggest (max (rd pwrAvsStatus_suggestedMv s - cf pwrAvsCtl_stepDown s) (cf pwrAvsCtl_floor s)) s

def execAvsStepDown (s : State) : Host.Outcome State Fault Refusal :=
  .next (onlyIf (decide ((cf pwrPaceCtl_downMarginPs s : Int) < lowestMargin s) && !held s
    && decide (cf pwrAvsCtl_floor s < rd pwrAvsStatus_suggestedMv s)) avsStepDown s)

/-- AVS_WRITE_DONE (R83): the value is written and read back, or a retry is scheduled while the device still drives the bus. -/
def avsWriteDone (ok : Bool) (v : Nat) (s : State) : State :=
  if ok then wr pwrAvsStatus_lastWrittenMv v { s with pwr := { s.pwr with avsPend := none, avsRetry := none } }
  else { s with pwr := { s.pwr with avsPend := none, avsRetry := if avsDrives s then some v else none } }

def execAvsWriteDone (ok : Bool) (s : State) : Host.Outcome State Fault Refusal :=
  .next (match s.pwr.avsPend with
    | some v => avsWriteDone ok v s
    | none => s)

/-- AVS_RETRY (R83): the write goes to the bus once more, unless the device no longer drives it (R81); a failed retry sets bus_error and
raises avs_bus_error. -/
def avsRetry (ok : Bool) (v : Nat) (s : State) : State :=
  let s0 := { s with pwr := { s.pwr with avsRetry := none } }
  let s1 := emit (.bus "AVS" [700 + v]) s0
  if avsDrives s = false then s0
  else if ok then wr pwrAvsStatus_lastWrittenMv v s1 else raise pwrAvsBusError (wr pwrAvsStatus_busError 1 s1)

def execAvsRetry (ok : Bool) (s : State) : Host.Outcome State Fault Refusal :=
  .next (match s.pwr.avsRetry with
    | some v => avsRetry ok v s
    | none => s)

/-- A write of low_clear to PWR.PACE_MARGINk (R79): low_water takes the current margin. -/
def paceLowClear (k : Nat) (v : Word) (s : State) : State :=
  if wordField v 31 1 = 1 then wrX pwrPaceMargin_lowWater k 0 (rdX pwrPaceMargin_margin k 0 s) s else s

/-- PACE_LOW_CLEAR (R79). -/
def execPaceLowClear (w : Window) (k : Nat) (v : Word) (s : State) : Host.Outcome State Fault Refusal :=
  guarded (decide (k < 16)) (writing w .pwr (paceLowClear k v) s)

/-- The check of a PWR commit (chapter 03, register tables): the refusal code, if any. -/
def pwrCheck (s : State) : Option Nat :=
  if rd pwrPaceCtl_thresholdPs s < 20 ∨ rd pwrPaceCtl_downMarginPs s ≤ rd pwrPaceCtl_thresholdPs s
      ∨ rd pwrPaceCtl_recoveryMs s = 0 ∨ rd pwrAvsCtl_mode s = 3 ∨ rd pwrAvsCtl_stepUp s = 0 ∨ rd pwrAvsCtl_stepDown s = 0
      ∨ rd pwrAvsCtl_floor s < 0x28 ∨ 0x64 < rd pwrAvsCtl_ceiling s ∨ rd pwrAvsCtl_ceiling s < rd pwrAvsCtl_floor s
  then some 2 else none

/-- The suggestion within the bounds now in effect (R82): 0.700 V while held, else at most the ceiling and, while active, at least the
floor. -/
def boundedAdvice (s : State) : Nat :=
  let v := min (rd pwrAvsStatus_suggestedMv s) (cf pwrAvsCtl_ceiling s)
  if held s then 0 else if active s then max v (cf pwrAvsCtl_floor s) else v

/-- A PWR commit brings the suggestion within the new bounds; one that turns drive on while the device is held asks for 0.70 V (R77). -/
def pwrCommitted (old new : State) : State :=
  let v := boundedAdvice new
  let t := suggest v new
  if held new && avsDrives new && !avsDrives old && decide (rd pwrAvsStatus_suggestedMv new = v) then avsRequest v t else t

end Sys2Proof.Machine
end

