-- ==== Sys2Proof/Machine/Commit.lean ====
section
/-! DEFINITION. Shadow and commit (R102, R118 to R120): the check of every block, the move of its shadow set into effect, commits now, at a
stated time and cancelled. -/

namespace Sys2Proof.Machine

/-! ### Checks -/

/-- The check of a PRS commit (R210). -/
def prsCheck (s : State) : Option Nat :=
  let bad (c : Nat) : Bool :=
    (List.range 16).any (fun e => decide (bitsOf (reg prsExcPolicy_plain0.off c s).toNat (2 * e) 2 = 3))
      || decide (rdC prsProfPorts_vxlanUdp c s = 0 ∨ rdC prsProfPorts_r61850Udp c s = 0
          ∨ rdC prsProfVlan_defaultVid c s = 0 ∨ rdC prsProfVlan_defaultVid c s = 4095)
  if (listedCopies .prs s.fab.regs).any bad then some 2 else none

/-- The check of a TSU commit: tc_mode 3 is refused. -/
def tsuCheck (s : State) : Option Nat :=
  if (copiesAt tsuTsCfg_tcMode.off s.fab.regs).any (fun c => decide (rdC tsuTsCfg_tcMode c s = 3)) then some 2 else none

/-- The check of a BNC commit: rate_k from 1 to 80. -/
def bncCheck (s : State) : Option Nat :=
  if rd bncQueueCfg_rateK s = 0 ∨ 80 < rd bncQueueCfg_rateK s then some 2 else none

/-- A gauge of R578: kind in bits 15 to 12 and index in bits 11 to 0. -/
def gaugeOk (src : Nat) : Bool :=
  let i := bitsOf src 0 12
  match bitsOf src 12 4 with
  | 0 => decide (i ≤ 2127)
  | 1 => decide (i ≤ 31)
  | 2 => decide (i ≤ 4)
  | 3 | 4 | 5 => decide (i = 0)
  | _ => false

/-- A histogram's sel within the range of its source (R582). -/
def histSelOk (source sel : Nat) : Bool :=
  decide (sel = 0x1FF) || (match source with
    | 1 => decide (sel ≤ 255)
    | 2 => decide (sel ≤ 265)
    | 3 => decide (sel ≤ 31)
    | _ => true)

/-- The check of a PCN commit (R578, R582). -/
def pcnCheck (s : State) : Option Nat :=
  let badCtr (i : Nat) : Bool :=
    let m := rdC pcnCntCfg_mode i s
    let x := rdC pcnCntCfg_src i s
    decide (4 < m) || (decide (m = 3) && decide (1535 < x)) || (decide (m = 4) && !gaugeOk x)
  let badHist (h : Nat) : Bool := decide (4 < rdC pcnHistCfg_source h s) || !histSelOk (rdC pcnHistCfg_source h s) (rdC pcnHistCfg_sel h s)
  if (copiesAt pcnCntCfg_mode.off s.fab.regs).any badCtr || (copiesAt pcnHistCfg_source.off s.fab.regs).any badHist then some 2 else none

/-- The check that a block makes of its whole shadow set before a commit (R118): the refusal code, if it refuses. -/
def blockCheck (b : Block) (s : State) : Option Nat :=
  if badMode b s then some 2
  else match b with
    | .pwr => pwrCheck s
    | .lan => lanCheck s
    | .prt => prtCheck s
    | .tie => tieCheck s
    | .prs => prsCheck s
    | .cls => clsCheck s
    | .l2t => l2tCheck s
    | .lpm => lpmCheck s
    | .flt => fltCheck s
    | .dsp => dspCheck s
    | .mcs => mcsCheck s
    | .bpm => bpmCheck s
    | .swc => swcCheck s
    | .tmg => tmgCheck s
    | .tim => timCheck s
    | .tsu => tsuCheck s
    | .tmk => tmkCheck s
    | .pcn => pcnCheck s
    | .bnc => bncCheck s
    | .sys | .evt | .hmk | .cfg | .rst | .fch | .hbm | .fen | .hif | .mio | .scr => none

/-! ### The move into effect -/

/-- Whether a key of the register fabric is a register of block b with an RWS field. -/
def shadowed (b : Block) (k : Nat) : Bool :=
  let off := k % 0x40000
  decide (blockOfPage (off / 0x1000) = some b) &&
    (decide (off = (modeFld b).off) || (match findReg off with
      | some r => r.fields.any (fun f => f.acc == .rws)
      | none => false))

/-- Every shadow value of a block goes into effect (R118). -/
def moveShadows (b : Block) (s : State) : State :=
  let keep := sfilter (fun k => !shadowed b k) s.fab.live
  let new := sfilter (shadowed b) s.fab.regs
  { s with fab := { s.fab with live := new.foldr (fun (e : Nat × Word) m => sput m e.1 e.2) keep } }

/-- A BNC commit that changes rate_k fills the bucket of every Bench queue (R552). -/
def bncCommitted (old new : State) : State :=
  if cf bncQueueCfg_rateK old = cf bncQueueCfg_rateK new then new
  else foldOver (new.bq.map (fun (e : Nat × BenchQueue) => e.1))
    (fun q a => putBenchQueue q { benchQueue q a with tokensUsed := 0 } a) new

/-- A PRT commit (R182): ports whose speed, FEC, clause 37 or redundancy settings change drain and start again with them. -/
def prtCommitted (old new : State) : State :=
  let again := portsToRestart old new
  foldOver again (fun p a => beginDrain ⟨.prt, some p⟩ a) (holdBack again old new)

/-- What a commit brings beside the values (R77, R82, R142, R182, R236, R322, R431, R437, R438, R455, R466, R552). -/
def committed (b : Block) (old new : State) : State :=
  match b with
  | .pwr => pwrCommitted old new
  | .lan => lanCommitted old new
  | .prt => prtCommitted old new
  | .l2t => l2tCommitted old new
  | .mcs => mcsCommitted new
  | .bpm => bpmCommitted old new
  | .tmg => tmgCommitted old new
  | .tim => timCommitted old new
  | .bnc => bncCommitted old new
  | _ => new

/-- A commit passes its check and takes effect, or is refused (R102, R118). -/
def doCommit (b : Block) (late : Bool) (s : State) : State :=
  match blockCheck b s with
  | some code =>
    let t := commitRefused b code s
    putCommit b { commitOf b t with status := 3, armed := none } t
  | none =>
    let c := commitOf b s
    committed b s (putCommit b { c with status := 2, late := late, lateNext := false, armed := none, count := (c.count + 1) % 2 ^ 16 } (moveShadows b s))

/-! ### Writes of COMMIT -/

/-- A commit refused before its check, with none pending. -/
def refuseNow (b : Block) (code : Nat) (s : State) : State :=
  let t := commitRefused b code s
  putCommit b { commitOf b t with status := 3 } t

/-- now written. -/
def commitNow (b : Block) (s : State) : State :=
  if (commitOf b s).status = 1 then commitRefused b 1 s
  else if b = .cls then
    match clsCommitRefusal s with
    | some code => refuseNow b code s
    | none => clsCommitStart none false s
  else doCommit b false s

/-- The commit time in COMMIT_AT_SEC and COMMIT_AT_NS of a block. -/
def commitAt (b : Block) (s : State) : Nat × Nat :=
  ((reg (blockBase b + 0x18) 0 s).toNat, wordField (reg (blockBase b + 0x1C) 0 s) 0 30)

/-- The seconds of a commit time in full: those within 2³¹ s of the time base whose 32 low bits are stated (R119). -/
def fullSec (sec : Nat) (s : State) : Nat :=
  let now := secOf (timeNow s)
  ((now : Int) + signed 32 (sec + 2 ^ 32 - now % 2 ^ 32)).toNat

/-- at_time written (R119): a time that is not in the future commits at once, late. -/
def commitAtTime (b : Block) (s : State) : State :=
  let a := commitAt b s
  let past := reachedAt (timeNow s) a
  if (commitOf b s).status = 1 then commitRefused b 1 s
  else if b = .cls then
    match clsCommitRefusal s with
    | some code => refuseNow b code s
    | none => if past then clsCommitStart none true s else clsCommitStart (some (fullSec a.1 s, a.2)) false s
  else if past then doCommit b true s
  else putCommit b { commitOf b s with status := 1, lateNext := false, armed := some a } s

/-- What the set bits of a write of COMMIT ask for. -/
def commitWrite (w : Window) (b : Block) (v : Word) (s : State) : State :=
  let n := wordField v 0 1
  let a := wordField v 1 1
  let c := wordField v 2 1
  let s1 := if wordField v 7 1 = 1 then putCommit b { commitOf b s with shadowRefused := false } s else s
  if 1 < n + a + c then accessError w (blockBase b + 0x70) true s
  else if n = 1 then commitNow b s1
  else if a = 1 then commitAtTime b s1
  else if c = 1 then commitCancel b s1
  else s1

/-- A COMMIT that OWNER refuses also ends as a refused commit, with code 5 (R116), whatever it asks for. -/
def ownerCommit (w : Window) (b : Block) (s : State) : State :=
  if reachable w s && !heldIgnores w b s && ownerRefuses w b s then
    (if (commitOf b s).status = 1 then commitRefused b 5 s else refuseNow b 5 s)
  else s

/-- A write of COMMIT through a window. -/
def commitAccess (w : Window) (b : Block) (v : Word) (s : State) : State :=
  writing w b (commitWrite w b v) (ownerCommit w b s)

def execCommitNow (w : Window) (b : Block) (s : State) : Host.Outcome State Fault Refusal := .next (commitAccess w b 1 s)

def execCommitAtTime (w : Window) (b : Block) (s : State) : Host.Outcome State Fault Refusal := .next (commitAccess w b 2 s)

def execCommitCancel (w : Window) (b : Block) (s : State) : Host.Outcome State Fault Refusal := .next (commitAccess w b 4 s)

/-- TIMED_COMMIT_FIRE (R119): an armed commit whose time the time base has reached takes effect. -/
def timedFire (b : Block) (s : State) : State :=
  if b = .cls then
    match s.mesh.ver.commitAt with
    | some a => if reachedAt (timeNow s) a then clsFire s else s
    | none =>
      match (commitOf b s).armed with
      | some a => if reachedAt (timeNow s) a then clsFire s else s
      | none => s
  else
    match (commitOf b s).armed with
    | some a => if reachedAt (timeNow s) a then doCommit b (commitOf b s).lateNext s else s
    | none => s

def execTimedCommitFire (b : Block) (s : State) : Host.Outcome State Fault Refusal := .next (timedFire b s)

end Sys2Proof.Machine
end

