-- ==== Sys2Proof/Machine/EventRows.lean ====
section
/-! DEFINITION. The commands on event routing: forced assertions, clearing causes, the limiter's expiries, MSI-X re-arming and unmasking
(R126 to R131). -/

namespace Sys2Proof.Machine

/-- The assigned bits of cause register g (R125). -/
def assignedBits : Nat → Nat
  | 0 => 0x1 | 1 => 0xFF | 2 => 0x3F | 3 => 0x3F | 4 => 0xFFFF | 5 => 0x1FF | 6 => 0x3
  | 7 => 0x1F | 8 => 0x1F | 9 => 0x1F | 10 => 0x1F | 11 => 0x7
  | 12 => 0x3F | 13 => 0x1F | 14 => 0x3 | 15 => 0x1 | 16 => 0x1
  | 17 => 0x7F | 18 => 0x7FFF | 19 => 0x3FF | 20 => 0x3F | 21 => 0x3 | 22 => 0x1F | 23 => 0x7 | 24 => 0xFFF | 25 => 0x7
  | 26 => 0xF | 27 => 0x7 | 28 => 0x3 | 29 => 0x1FF | 30 => 0x3F | 31 => 0xFF | 32 => 0x3 | 33 => 0x1F | 34 => 0x3FF
  | 35 => 0xFF | 36 => 0x3 | 37 => 0x3F | 38 => 0x3 | 39 => 0xF | 40 => 0x7FF | 41 => 0x7F | 42 => 0x1F | 43 => 0x1F
  | 44 => 0x3 | 45 => 0x7 | 46 => 0x3FF | 47 => 0x7FF
  | _ => 0

/-- The assigned sources of cause register g that a word names, in bit order. -/
def namedSources (g : Nat) (v : Word) : List Src :=
  ((List.range 32).filter (fun i => v.toNat.testBit i && (assignedBits g).testBit i)).map (fun i => ⟨g, i⟩)

/-- The channel of a forced assertion: the one that the window's latch names (R129). -/
def forceChan (w : Window) (b : Block) (s : State) : Option Nat := if chanCount b = 1 then none else some (latch w b s).chan

/-- A write of EVT_FORCEk of block b (R129). -/
def forceWrite (w : Window) (b : Block) (k : Nat) (v : Word) (s : State) : State :=
  foldOver (namedSources (firstG b + k) v) (fun e a => raiseForced e (forceChan w b s) a) s

def execEvtForceWrite (w : Window) (b : Block) (k : Nat) (v : Word) (s : State) : Host.Outcome State Fault Refusal :=
  guarded (decide (k < causeCount b)) (writing w b (forceWrite w b k v) s)

/-! ### Clearing causes (R126, R127) -/

/-- A W1C write of cause register g. -/
def clearCause (g : Nat) (v : Word) (s : State) : State :=
  resignal { s with evt := { s.evt with cause := smod (fun _ => 0) s.evt.cause g (fun c => c &&& ~~~v) } }

/-- A W1C write of CHAN_PENDk,w. -/
def clearPend (g i : Nat) (v : Word) (s : State) : State :=
  { s with evt := { s.evt with pend := smod (fun _ => 0) s.evt.pend (16 * g + i) (fun c => c &&& ~~~v) } }

/-- The cause register and word of a CHAN_PEND word at a window offset, if the offset is one (R127). -/
def pendAt (b : Block) (off : Nat) : Option (Nat × Nat) :=
  let r := off - (lastPage b + 0x800)
  if 1 < chanCount b ∧ lastPage b + 0x800 ≤ off ∧ r / 0x100 < causeCount b ∧ globalCause b (r / 0x100) = false ∧ r % 4 = 0 ∧ r % 0x100 / 4 < (chanCount b + 31) / 32
  then some (r / 0x100, r % 0x100 / 4) else none

/-- Whether a window offset is a cause register or a CHAN_PEND word. -/
def isCause (off : Nat) : Bool :=
  match blockOfPage (off / 0x1000) with
  | none => false
  | some b => (causeAt b off).isSome || (pendAt b off).isSome

/-- A write to a cause register, which OWNER never refuses, or to a CHAN_PEND word. -/
def causeWrite (w : Window) (off : Nat) (v : Word) (s : State) : State :=
  match blockOfPage (off / 0x1000) with
  | none => s
  | some b =>
    match causeAt b off with
    | some k => writingFree w b (clearCause (firstG b + k) v) s
    | none =>
      match pendAt b off with
      | some (k, i) => writing w b (clearPend (firstG b + k) i v) s
      | none => s

def execCauseClear (w : Window) (off : Nat) (v : Word) (s : State) : Host.Outcome State Fault Refusal :=
  guarded (isCause off) (causeWrite w off v s)

/-! ### The limiter (R128) -/

/-- LIMIT_WINDOW_END: the source's count returns to zero. -/
def execLimitWindowEnd (src : Nat) (s : State) : Host.Outcome State Fault Refusal :=
  guarded (decide (src < 1536)) { s with evt := { s.evt with lim := sset (fun _ => 0) s.evt.lim src 0 } }

/-- AUTO_MASK_QUIET_EXPIRE: the auto-mask bit is cleared and auto_mask_cleared raised. -/
def quietExpire (src : Nat) (s : State) : State :=
  if wordField (autoReg (src / 32) s) (src % 32) 1 = 1 then
    raise evtAutoMaskCleared (resignal { s with evt := { s.evt with
      auto := smod (fun _ => 0) s.evt.auto (src / 32) (fun m => m &&& ~~~ (BitVec.ofNat 32 (2 ^ (src % 32)))) } })
  else s

def execAutoMaskQuietExpire (src : Nat) (s : State) : Host.Outcome State Fault Refusal :=
  guarded (decide (src < 1536)) (quietExpire src s)

/-- A write of EVT.AUTO_MASKg. -/
def autoMaskWrite (g : Nat) (v : Word) (s : State) : State :=
  let named (k : Nat) : Bool := k / 32 == g && v.toNat.testBit (k % 32)
  resignal { s with evt := { s.evt with
    auto := smod (fun _ => 0) s.evt.auto g (fun m => m &&& ~~~v)
    lim := sfilter (fun k => !named k) s.evt.lim } }

def execAutoMaskWrite (w : Window) (g : Nat) (v : Word) (s : State) : Host.Outcome State Fault Refusal :=
  guarded (decide (g < 48)) (writing w .evt (autoMaskWrite g v) s)

/-- A write of EVT.SUPP_COUNT: clear sets the count of the window's selected source to zero. -/
def suppCountWrite (w : Window) (v : Word) (s : State) : State :=
  if wordField v 31 1 = 1 then
    { s with evt := { s.evt with supp := sset (fun _ => 0) s.evt.supp (rdC evtSuppSel_source (winIdx w) s) 0 } }
  else s

def execSuppCountClear (w : Window) (v : Word) (s : State) : Host.Outcome State Fault Refusal :=
  .next (writing w .evt (suppCountWrite w v) s)

/-! ### MSI-X (R131) -/

/-- A write of EVT.VEC_REARM: an active vector sends its message again. -/
def vecRearm (v : Nat) (s : State) : State :=
  if s.evt.vecActive.testBit v then
    let t := signalVector v s
    if s.evt.msixEnable then t else raise evtMsixDisabled t
  else s

def execVecRearm (w : Window) (v : Word) (s : State) : Host.Outcome State Fault Refusal :=
  .next (writing w .evt (vecRearm (wordField v 0 6)) s)

/-- The pending messages of vectors that are no longer masked leave. -/
def releasePending (s : State) : State :=
  if s.evt.msixEnable then
    foldOver ((vectorsOf s.evt.msixPend).filter (fun v => !vecMasked v s)) sendMsix s
  else s

/-- MSIX_UNMASK: a vector's mask bit is cleared, or Message Control is written. -/
def msixUnmask (t : MsixTarget) (s : State) : State :=
  match t with
  | .vector v =>
    releasePending (putReg (msixEntry v + 12) 0 (wordWith (reg (msixEntry v + 12) 0 s) 0 1 0) s)
  | .function enable maskAll => releasePending { s with evt := { s.evt with msixEnable := enable, msixMaskAll := maskAll } }

/-- Whether a vector exists. -/
def msixOk : MsixTarget → Bool
  | .vector v => decide (v < msixVectors)
  | .function _ _ => true

/-- The access that brings it: a vector's mask bit is in the table in HIF's page, which window H writes under OWNER (R116, R131); Message
Control is in the function's configuration space. -/
def msixAccess (t : MsixTarget) (s : State) : State :=
  match t with
  | .vector _ => writing .h .hif (msixUnmask t) s
  | .function _ _ => onlyIf (reachable .h s) (msixUnmask t) s

def execMsixUnmask (t : MsixTarget) (s : State) : Host.Outcome State Fault Refusal :=
  guarded (msixOk t) (msixAccess t s)

end Sys2Proof.Machine
end

