-- ==== Sys2Proof/Machine/Crypto.lean ====
section
/-! DEFINITION. The cryptographic functions that chapter 19 names and does not define: SHA-384 and ECDSA over P-384, as FIPS 180-4, FIPS
186-5 and SEC 1 define them (PRESUMED, assumption log 29). Plain functions on numbers; nothing here reads the state. -/

namespace Sys2Proof.Machine

/-! ### SHA-384 (FIPS 180-4) -/

/-- The round constants, in pieces of 16. -/
def shaK0 : List (BitVec 64) :=
  [0x428A2F98D728AE22, 0x7137449123EF65CD, 0xB5C0FBCFEC4D3B2F, 0xE9B5DBA58189DBBC,
   0x3956C25BF348B538, 0x59F111F1B605D019, 0x923F82A4AF194F9B, 0xAB1C5ED5DA6D8118,
   0xD807AA98A3030242, 0x12835B0145706FBE, 0x243185BE4EE4B28C, 0x550C7DC3D5FFB4E2,
   0x72BE5D74F27B896F, 0x80DEB1FE3B1696B1, 0x9BDC06A725C71235, 0xC19BF174CF692694]

/-- Round constants 16 to 31. -/
def shaK1 : List (BitVec 64) :=
  [0xE49B69C19EF14AD2, 0xEFBE4786384F25E3, 0x0FC19DC68B8CD5B5, 0x240CA1CC77AC9C65,
   0x2DE92C6F592B0275, 0x4A7484AA6EA6E483, 0x5CB0A9DCBD41FBD4, 0x76F988DA831153B5,
   0x983E5152EE66DFAB, 0xA831C66D2DB43210, 0xB00327C898FB213F, 0xBF597FC7BEEF0EE4,
   0xC6E00BF33DA88FC2, 0xD5A79147930AA725, 0x06CA6351E003826F, 0x142929670A0E6E70]

/-- Round constants 32 to 47. -/
def shaK2 : List (BitVec 64) :=
  [0x27B70A8546D22FFC, 0x2E1B21385C26C926, 0x4D2C6DFC5AC42AED, 0x53380D139D95B3DF,
   0x650A73548BAF63DE, 0x766A0ABB3C77B2A8, 0x81C2C92E47EDAEE6, 0x92722C851482353B,
   0xA2BFE8A14CF10364, 0xA81A664BBC423001, 0xC24B8B70D0F89791, 0xC76C51A30654BE30,
   0xD192E819D6EF5218, 0xD69906245565A910, 0xF40E35855771202A, 0x106AA07032BBD1B8]

/-- Round constants 48 to 63. -/
def shaK3 : List (BitVec 64) :=
  [0x19A4C116B8D2D0C8, 0x1E376C085141AB53, 0x2748774CDF8EEB99, 0x34B0BCB5E19B48A8,
   0x391C0CB3C5C95A63, 0x4ED8AA4AE3418ACB, 0x5B9CCA4F7763E373, 0x682E6FF3D6B2B8A3,
   0x748F82EE5DEFB2FC, 0x78A5636F43172F60, 0x84C87814A1F0AB72, 0x8CC702081A6439EC,
   0x90BEFFFA23631E28, 0xA4506CEBDE82BDE9, 0xBEF9A3F7B2C67915, 0xC67178F2E372532B]

/-- Round constants 64 to 79. -/
def shaK4 : List (BitVec 64) :=
  [0xCA273ECEEA26619C, 0xD186B8C721C0C207, 0xEADA7DD6CDE0EB1E, 0xF57D4F7FEE6ED178,
   0x06F067AA72176FBA, 0x0A637DC5A2C898A6, 0x113F9804BEF90DAE, 0x1B710B35131C471B,
   0x28DB77F523047D84, 0x32CAAB7B40C72493, 0x3C9EBE0A15C9BEBC, 0x431D67C49C100D4C,
   0x4CC5D4BECB3E42B6, 0x597F299CFC657E2A, 0x5FCB6FAB3AD6FAEC, 0x6C44198C4A475817]

/-- The 80 round constants. -/
def shaK : List (BitVec 64) := shaK0 ++ shaK1 ++ shaK2 ++ shaK3 ++ shaK4

/-- The eight working words of a hash. -/
structure ShaState where
  a : BitVec 64
  b : BitVec 64
  c : BitVec 64
  d : BitVec 64
  e : BitVec 64
  f : BitVec 64
  g : BitVec 64
  h : BitVec 64
  deriving DecidableEq, Repr

/-- The initial hash value of SHA-384. -/
def shaInit : ShaState :=
  ⟨0xCBBB9D5DC1059ED8, 0x629A292A367CD507, 0x9159015A3070DD17, 0x152FECD8F70E5939,
   0x67332667FFC00B31, 0x8EB44A8768581511, 0xDB0C2E0D64F98FA7, 0x47B5481DBEFA4FA4⟩

/-- One round with the schedule word `w` and its constant `k`. -/
def shaRound (v : ShaState) (k w : BitVec 64) : ShaState :=
  let s1 := v.e.rotateRight 14 ^^^ v.e.rotateRight 18 ^^^ v.e.rotateRight 41
  let t1 := v.h + s1 + ((v.e &&& v.f) ^^^ (~~~v.e &&& v.g)) + k + w
  let s0 := v.a.rotateRight 28 ^^^ v.a.rotateRight 34 ^^^ v.a.rotateRight 39
  let t2 := s0 + ((v.a &&& v.b) ^^^ (v.a &&& v.c) ^^^ (v.b &&& v.c))
  ⟨t1 + t2, v.a, v.b, v.c, v.d + t1, v.e, v.f, v.g⟩

/-- The next schedule word, from the 16 before it, oldest first. -/
def shaNext (ws : List (BitVec 64)) : BitVec 64 :=
  let x := ws.getD 1 0
  let y := ws.getD 14 0
  (y.rotateRight 19 ^^^ y.rotateRight 61 ^^^ (y >>> 6)) + ws.getD 9 0 + (x.rotateRight 1 ^^^ x.rotateRight 8 ^^^ (x >>> 7)) + ws.getD 0 0

/-- The rounds of one block: each takes the oldest of the 16 schedule words and adds a new one. -/
def shaRounds : List (BitVec 64) → List (BitVec 64) → ShaState → ShaState
  | [], _, v => v
  | k :: ks, ws, v => shaRounds ks (ws.drop 1 ++ [shaNext ws]) (shaRound v k (ws.getD 0 0))

/-- The words of a block of 128 bytes, the first byte of each highest. -/
def shaWords (bs : List Byte) : List (BitVec 64) := (List.range 16).map (fun i => BitVec.ofNat 64 (beAt bs (8 * i) 8))

/-- One block goes into the hash value. -/
def shaBlock (v : ShaState) (bs : List Byte) : ShaState :=
  let x := shaRounds shaK (shaWords bs) v
  ⟨v.a + x.a, v.b + x.b, v.c + x.c, v.d + x.d, v.e + x.e, v.f + x.f, v.g + x.g, v.h + x.h⟩

/-- A message padded to whole blocks of 128 bytes: a bit 1, zeros, and its length in bits. -/
def shaPad (m : List Byte) : List Byte :=
  m ++ 0x80 :: List.replicate ((239 - m.length % 128) % 128) 0 ++ bytesBE 16 (8 * m.length)

/-- The SHA-384 digest of a message, as a number from its first byte. -/
@[irreducible] def sha384 (m : List Byte) : Nat :=
  let p := shaPad m
  let v := foldOver (chunks 128 (p.length / 128) p) (fun bs v => shaBlock v bs) shaInit
  [v.a, v.b, v.c, v.d, v.e, v.f].foldl (fun n x => n * 2 ^ 64 + x.toNat) 0

/-! ### P-384 (SEC 1, FIPS 186-5) -/

/-- The prime of the field. -/
def p384P : Nat := 2 ^ 384 - 2 ^ 128 - 2 ^ 96 + 2 ^ 32 - 1

/-- The order of the base point. -/
def p384N : Nat :=
  0xFFFFFFFFFFFFFFFFFFFFFFFFFFFFFFFFFFFFFFFFFFFFFFFFC7634D81F4372DDF581A0DB248B0A77AECEC196ACCC52973

/-- The coefficient b; a is −3. -/
def p384B : Nat :=
  0xB3312FA7E23EE7E4988E056BE3F82D19181D9C6EFE8141120314088F5013875AC656398D8A2ED19D2A85C8EDD3EC2AEF

/-- A point: its coordinates, or none at infinity. -/
abbrev Point := Option (Nat × Nat)

/-- The base point. -/
def p384G : Point :=
  some (0xAA87CA22BE8B05378EB1C71EF320AD746E1D3B628BA79B9859F741E082542A385502F25DBF55296C3A545E3872760AB7,
    0x3617DE4A96262C6F5D9E98BF9292DC29F8F41DBD289A147CE9DA3113B5F0B8C00A60B1CE1D7E819D7A431D7C90EA0E5F)

/-- Bits of an exponent or scalar, lowest first. -/
def scalarBits (k : Nat) : List Bool := (List.range 384).map k.testBit

/-- b to the power whose bits are listed, lowest first, modulo m. -/
def powMod (m : Nat) : List Bool → Nat → Nat
  | [], _ => 1 % m
  | e :: es, b => (if e then b else 1) * powMod m es (b * b % m) % m

/-- The inverse modulo a prime m of 384 bits (Fermat). -/
def invMod (m x : Nat) : Nat := powMod m (scalarBits (m - 2)) (x % m)

/-- A difference modulo m of numbers below m. -/
def subMod (m x y : Nat) : Nat := (x + (m - y)) % m

/-- The third point of a line of slope l through points with abscissae x1 and x2, reflected. -/
def chord (l x1 y1 x2 : Nat) : Nat × Nat :=
  let x3 := subMod p384P (subMod p384P (l * l % p384P) x1) x2
  (x3, subMod p384P (l * subMod p384P x1 x3 % p384P) y1)

/-- The sum of two points of the curve. -/
def addPoint : Point → Point → Point
  | none, q => q
  | p, none => p
  | some (x1, y1), some (x2, y2) =>
    if x1 = x2 then
      if y1 ≠ y2 ∨ y1 = 0 then none
      else some (chord (3 * subMod p384P (x1 * x1 % p384P) 1 * invMod p384P (2 * y1) % p384P) x1 y1 x2)
    else some (chord (subMod p384P y2 y1 * invMod p384P (subMod p384P x2 x1) % p384P) x1 y1 x2)

/-- A multiple of a point, from the bits of the scalar, lowest first. -/
def mulPoint : List Bool → Point → Point
  | [], _ => none
  | b :: bs, q => addPoint (if b then q else none) (mulPoint bs (addPoint q q))

/-- A public key: X then Y of a point of the curve, 96 bytes. -/
def keyPoint (key : List Byte) : Option (Nat × Nat) :=
  let x := beAt key 0 48
  let y := beAt key 48 48
  if x < p384P ∧ y < p384P ∧ y * y % p384P = subMod p384P ((x * x * x + p384B) % p384P) (3 * x % p384P) then some (x, y) else none

/-- A signature, r then s, verifies over a message with SHA-384 under a public key. -/
@[irreducible] def ecdsaVerify (key m sig : List Byte) : Bool :=
  let r := beAt sig 0 48
  let t := beAt sig 48 48
  match keyPoint key with
  | none => false
  | some q =>
    if r = 0 ∨ p384N ≤ r ∨ t = 0 ∨ p384N ≤ t then false
    else
      let w := invMod p384N t
      match addPoint (mulPoint (scalarBits (sha384 m * w % p384N)) p384G) (mulPoint (scalarBits (r * w % p384N)) (some q)) with
      | some (x, _) => decide (x % p384N = r)
      | none => false

/-- The public key of a private key, X then Y. -/
@[irreducible] def publicKey (d : Nat) : List Byte :=
  match mulPoint (scalarBits d) p384G with
  | some (x, y) => bytesBE 48 x ++ bytesBE 48 y
  | none => List.replicate 96 0

/-- The signature of a message with SHA-384 under the private key d, with the secret number k of that signature. -/
@[irreducible] def ecdsaSign (d k : Nat) (m : List Byte) : List Byte :=
  match mulPoint (scalarBits k) p384G with
  | some (x, _) =>
    let r := x % p384N
    bytesBE 48 r ++ bytesBE 48 (invMod p384N k * (sha384 m + r * d) % p384N)
  | none => List.replicate 96 0

end Sys2Proof.Machine
end

