-- ==== Sys2Proof/Machine/Image.lean ====
section
/-! DEFINITION. The configuration image and its structural check (R90 to R97, codes 0x11 to 0x1A). -/

namespace Sys2Proof.Machine

/-! ### Header (R90) -/

def imTotal (d : List Byte) : Nat := leAt d 8 4
def imSequence (d : List Byte) : Nat := leAt d 0x10 4
def imRecords (d : List Byte) : Nat := leAt d 0x14 4
def imRecordOff (d : List Byte) : Nat := leAt d 0x18 4
def imBlobs (d : List Byte) : Nat := leAt d 0x1C 2
def imDirOff (d : List Byte) : Nat := leAt d 0x20 4

/-- The part_mask bit of a variant (R90). -/
def partBit : Variant → Nat
  | .kg4256 => 0
  | .kg4128 => 1

/-- The checks of the header, codes 0x11 to 0x15. The silicon is revision A0, code 0x00. -/
def headerCheck (v : Variant) (d : List Byte) : Option Nat :=
  if leAt d 0 4 ≠ 0x4643474B then some 0x11
  else if crc32c (slice d 0 0x2C) ≠ leAt d 0x2C 4 then some 0x12
  else if leAt d 7 1 ≠ 1 ∨ leAt d 4 2 ≠ 0x40 then some 0x13
  else if !bit (leAt d 0xC 4) (partBit v) || decide (3 < leAt d 0xC 4) then some 0x14
  else if leAt d 0x24 1 ≠ 0 then some 0x15
  else none

/-! ### Layout (R92, R93, R96) -/

/-- One record (R92). -/
structure ImRecord where
  page : Nat
  flags : Nat
  offset : Nat
  chan : Nat
  value : Nat
  mask : Nat
  deriving DecidableEq, Repr

/-- Record i of an image. -/
def imRecord (d : List Byte) (i : Nat) : ImRecord :=
  let o := imRecordOff d + 16 * i
  ⟨leAt d o 1, leAt d (o + 1) 1, leAt d (o + 2) 2, leAt d (o + 4) 2, leAt d (o + 8) 4, leAt d (o + 12) 4⟩

/-- One blob directory entry (R93). -/
structure ImBlob where
  kind : Nat
  flags : Nat
  target : Nat
  offset : Nat
  length : Nat
  crc : Nat
  deriving DecidableEq, Repr

/-- Entry j of an image's directory. -/
def imBlob (d : List Byte) (j : Nat) : ImBlob :=
  let o := imDirOff d + 24 * j
  ⟨leAt d o 2, leAt d (o + 2) 2, leAt d (o + 4) 4, leAt d (o + 8) 4, leAt d (o + 12) 4, leAt d (o + 16) 4⟩

/-- The content of a blob. -/
def imContent (d : List Byte) (b : ImBlob) : List Byte := slice d b.offset b.length

/-- An area of an image: its first byte, its length, and the offset of the field that places it. -/
abbrev Area := Nat × Nat × Nat

/-- The areas of an image. -/
def imAreas (d : List Byte) : List Area :=
  [(imRecordOff d, 16 * imRecords d, 0x18), (imDirOff d, 24 * imBlobs d, 0x20)]
    ++ (List.range (imBlobs d)).map (fun j => ((imBlob d j).offset, (imBlob d j).length, imDirOff d + 24 * j + 8))

/-- Two areas share a byte, or an empty one lies inside the other (DESIGN CHOICE, assumption log 99). -/
def areasMeet (a b : Area) : Bool := decide (a.1 < b.1 + b.2.1 ∧ b.1 < a.1 + a.2.1)

/-- The fields of areas that lie outside bytes 64 to total_length − 5, are not aligned, or meet an earlier area. -/
def badAreas (last : Nat) : List Area → List Area → List Nat
  | _, [] => []
  | done, a :: rest =>
    (if a.1 % 8 ≠ 0 ∨ a.1 < 64 ∨ last < a.1 ∨ last + 1 < a.1 + a.2.1 ∨ done.any (areasMeet a) = true then [a.2.2] else [])
      ++ badAreas last (a :: done) rest

/-- Offsets of the bytes from `o` that are not zero. -/
def nonZero (d : List Byte) (o n : Nat) : List Nat := ((List.range n).map (fun i => o + i)).filter (fun k => decide (leAt d k 1 ≠ 0))

/-- The flag bits that a blob type defines (R94). -/
def blobFlags (kind : Nat) : Nat := if kind = 0x000A then 1 else 0

/-- Faulty offsets of records and entries: reserved fields, channel without chan_valid, blob lengths. -/
def badFields (d : List Byte) : List Nat :=
  (List.range (imRecords d)).flatMap (fun i =>
      let o := imRecordOff d + 16 * i
      (if 1 < leAt d (o + 1) 1 then [o + 1] else []) ++ nonZero d (o + 6) 2)
    ++ (List.range (imBlobs d)).flatMap (fun j =>
      let o := imDirOff d + 24 * j
      (if (imBlob d j).flags ≤ blobFlags (imBlob d j).kind then [] else [o + 2])
        ++ (if (imBlob d j).length = 0 then [o + 12] else []) ++ nonZero d (o + 20) 4)

/-- The lowest of a list of offsets. -/
def lowestOf (xs : List Nat) : Option Nat := xs.foldl (fun a x => match a with
  | none => some x
  | some y => some (min x y)) none

/-- The first faulty byte offset of the layout, in image order (code 0x16). -/
def layoutFault (d : List Byte) : Option Nat :=
  let n := imTotal d
  if n % 8 ≠ 0 ∨ n < 72 ∨ 134217728 < n ∨ d.length < n then some 8
  else
    let head := nonZero d 0x1E 2 ++ nonZero d 0x25 7 ++ nonZero d 0x30 16
    match lowestOf (head ++ badAreas (n - 5) [] ((imAreas d).take 2)) with
    | some o => some o
    | none => lowestOf (badAreas (n - 5) [] (imAreas d) ++ badFields d)

/-! ### Records (R96) -/

/-- Whether registers of block b at an offset are one per channel. -/
def perChannel (b : Block) (off : Nat) : Bool :=
  decide (chanCount b ≠ 1) &&
    (decide (off = blockBase b + 0x10 ∨ off = blockBase b + 0x14) || (match findReg off with
      | some r => (match r.scope with
        | .chan => true
        | .sel => decide (b = .tmg)
        | .glob | .win => false)
      | none => false))

/-- Whether a window offset is a register of block b, in its header below 0x070, its own registers or its channel-pending words. -/
def isRegister (b : Block) (off : Nat) : Bool :=
  let r := off - blockBase b
  if r < 0x80 then
    decide (r % 4 = 0 ∧ (r < 0x20 ∨ (r < 0x70 ∧ (r - 0x20) / 16 < causeCount b)))
  else (findReg off).isSome || (pendAt b off).isSome

/-- The registers that records may not write beside those at or above 0x070 of a header (R96). -/
def forbidden (b : Block) (off : Nat) : Bool :=
  decide (off = blockBase b + 8) ||
    [clsStageData_data.off + 60, clsIndData_value.off, lpmNodeDataHi_data.off, lpmNhData3_data.off, lpmEcmpData_data.off,
      lpmMemberData_data.off, tmgGclDataHi_gates.off, timServoSampleHi_ns.off, fltCmdqProd_index.off, fltCmdqCons_index.off,
      fltExpqProd_index.off, fltExpqCons_index.off, hifMboxProd_index.off, hifMboxProd_index.off + 32, hifMboxCons_index.off,
      hifMboxCons_index.off + 32].contains off

/-- The window offset of a record. -/
def recOff (r : ImRecord) : Nat := r.page * 0x1000 + r.offset

/-- A record names a register that records may write, and a channel that its block has (code 0x18). -/
def recordOk (r : ImRecord) : Bool :=
  match blockOfPage r.page with
  | none => false
  | some b =>
    decide (r.page < 0x40 ∧ r.offset % 4 = 0 ∧ r.offset < 0x1000 ∧ r.mask ≠ 0) && isRegister b (recOff r) && !forbidden b (recOff r)
      && (if r.flags = 1 then perChannel b (recOff r) && decide (r.chan < chanCount b) else decide (r.chan = 0))

/-- The first index below n for which p holds. -/
def firstIndex (n : Nat) (p : Nat → Bool) : Option Nat := (List.range n).find? p

/-- The structural check of step 9 (R95): the first failing code with its detail. -/
def structuralCheck (v : Variant) (hostLen : Option Nat) (d : List Byte) : Option (Nat × Nat) :=
  match headerCheck v d with
  | some code => some (code, 0)
  | none =>
    if hostLen.isSome ∧ hostLen ≠ some (imTotal d) then some (0x16, 8)
    else match layoutFault d with
      | some o => some (0x16, o)
      | none =>
        if crc32c (slice d 0 (imTotal d - 4)) ≠ leAt d (imTotal d - 4) 4 then some (0x17, 0)
        else match firstIndex (imRecords d) (fun i => !recordOk (imRecord d i)) with
          | some i => some (0x18, i)
          | none =>
            match firstIndex (imBlobs d) (fun j => decide ((imBlob d j).kind = 0 ∨ 0xB < (imBlob d j).kind)) with
            | some j => some (0x19, j)
            | none =>
              match firstIndex (imBlobs d) (fun j => decide (crc32c (imContent d (imBlob d j)) ≠ (imBlob d j).crc)) with
              | some j => some (0x1A, j)
              | none => none

/-- The codes 0x11 to 0x17 alone, as service 0x0020 checks a configuration image (R550). -/
def imageSound (v : Variant) (d : List Byte) : Bool :=
  match structuralCheck v none d with
  | some (code, _) => decide (0x18 ≤ code)
  | none => true

end Sys2Proof.Machine
end

