-- ==== Sys2Proof/Machine/Reset.lean ====
section
/-! DEFINITION. Resets of the device (R60 to R71), loss of REFCLK_LANE and REFCLK_SYS at power-on (R75), and the entry of the held state
(R98). -/

namespace Sys2Proof.Machine

/-! ### Power-on class resets -/

/-- The registers of the VDD_IO domain: RST.RESET_CAUSE and RST.COUNTS. -/
def inIoDomain (off : Nat) : Bool := decide (off = rstResetCause_resetCause.off ∨ off = rstCounts_warmResets.off)

/-- A power-on or RESET_N reset clears the device (R65): what it keeps are the fuses, the flash region, the VDD_IO domain, the Touchmark
ring on RESET_N, the clocks and pins themselves, and the agents' own queue and what they have been given. -/
def clearAll (keepIo keepRing : Bool) (s : State) : State :=
  { pending := s.pending
    variant := s.variant
    out := s.out
    fab := { regs := if keepIo then sfilter (fun k => inIoDomain (k % 0x40000)) s.fab.regs else [], freeCount := s.fab.freeCount }
    tmk := { powerCycle := s.tmk.powerCycle, opTime := s.tmk.opTime, flash := s.tmk.flash, flashPos := s.tmk.flashPos,
             erased := s.tmk.erased, badSectors := s.tmk.badSectors,
             ring := if keepRing then s.tmk.ring else [], fwdSeq := if keepRing then s.tmk.fwdSeq else 0xFFFFFFFF }
    pwr := { hold := s.pwr.hold, railLow := s.pwr.railLow, failLatch := s.pwr.failLatch, sysLost := s.pwr.sysLost,
             laneLost := s.pwr.laneLost, resetNLow := s.pwr.resetNLow, perstLow := s.pwr.perstLow }
    fw := { ownerHash := s.fw.ownerHash, ownerValid := s.fw.ownerValid, ownerRevoked := s.fw.ownerRevoked,
            rollback := s.fw.rollback } }

/-- The rail-fail latch after rail r fails (R64): VDD_IO clears it; within one power-on reset the first rail stays recorded. -/
def nextLatch (r : Nat) (s : State) : Option Nat :=
  if r = 6 ∨ s.pwr.railLow.testBit 6 = true then none
  else if s.pwr.hold = .powerOn ∧ s.pwr.failLatch.isSome = true then s.pwr.failLatch
  else some r

/-- RAIL_FAIL (R61, R63, R64): power-on reset. -/
def railFail (r : Nat) (s : State) : State :=
  let t := clearAll (r != 6) false s
  { t with pwr := { t.pwr with hold := .powerOn, railLow := setBit t.pwr.railLow r, failLatch := nextLatch r s } }

def execRailFail (r : Nat) (s : State) : Host.Outcome State Fault Refusal :=
  guarded (decide (r < 8)) (onlyIf (!s.pwr.railLow.testBit r) (railFail r) s)

/-- Whether a combination of straps is invalid (R53). -/
def strapsBad (straps : Nat) (s : State) : Bool :=
  decide (bitsOf straps 5 2 = 3) || (decide (s.variant = .kg4128) && bit straps 4)

/-- The straps as sampled (R50), and the live role of the mesh from them. -/
def sampleStraps (straps : Nat) (s : State) : State :=
  let v := straps % 128 + 256 * (straps % 128)
  wr tieMeshStatus_roleLive (bitsOf straps 0 2)
    (wr sysStrapSample_strapFault (b2n (strapsBad straps s)) (putReg sysStrapSample_role.off 0 (BitVec.ofNat 32 v) s))

/-- Reset is released (R69): straps sampled, the cause loaded (R71), rail evidence shown (R64), the time base at zero. -/
def release (cause straps : Nat) (s : State) : State :=
  let s1 := { s with pwr := { s.pwr with hold := .none }, tim := {}, start := {} }
  let s2 := wr rstResetCause_resetCause cause (sampleStraps straps s1)
  let s3 := wr pwrRailStatus_railGood (255 - s.pwr.railLow % 256) s2
  match s.pwr.failLatch with
  | some r => wr pwrRailStatus_failValid 1 (wr pwrRailStatus_firstFailRail r s3)
  | none => s3

/-- The cause of a power-on reset (R64, R71). -/
def powerCause (s : State) : Nat := if s.pwr.failLatch.isSome then 2 else 1

/-- POR_RELEASE (R69). -/
def execPorRelease (straps : Nat) (s : State) : Host.Outcome State Fault Refusal :=
  .next (onlyIf (decide (s.pwr.hold = .powerOn ∧ s.pwr.railLow = 0) && !s.pwr.sysLost && !s.pwr.resetNLow)
    (fun s => release (powerCause s) straps s) s)

/-- RESET_N_ASSERT (R66): a power-on reset in progress governs (R70). -/
def resetNAssert (s : State) : State :=
  let t := clearAll true true s
  { t with pwr := { t.pwr with resetNLow := true, hold := if s.pwr.hold = .powerOn then .powerOn else .resetN } }

def execResetNAssert (s : State) : Host.Outcome State Fault Refusal := .next (onlyIf (!s.pwr.resetNLow) resetNAssert s)

/-- RESET_N_RELEASE (R69): a RESET_N reset is released; with REFCLK_SYS lost the islands start on the backup oscillator at once (DESIGN
CHOICE, assumption log 120). -/
def resetNRelease (straps : Nat) (s : State) : State :=
  let t := { s with pwr := { s.pwr with resetNLow := false } }
  if s.pwr.hold = .resetN then
    let u := release 3 straps t
    if u.pwr.sysLost then onBackup true u else u
  else t

def execResetNRelease (straps : Nat) (s : State) : Host.Outcome State Fault Refusal :=
  .next (onlyIf s.pwr.resetNLow (resetNRelease straps) s)

/-! ### The held state -/

/-- The time island keeps its time base alone: its block-wide part and channels are OFF with their enable kept, so that PPS_OUT, the
triggers and SYNCE_CLK are quiet (R98, R478). A warm reset leaves them running (R65). -/
def quietTime (s : State) : State :=
  let t := foldOver (targetsOf .tim) (fun x a => modTgt x (fun y => { y with st := .off, resetBusy := false }) a) s
  refreshSynce (foldOver (List.range 8) (fun c a => wrC timTrigCtl_armed c 0 a)
    { t with tim := { t.tim with ppsHigh := none, ppsNext := none, synceUp := false,
                                 trigs := t.tim.trigs.filterMap (fun (e : Nat × Trig) =>
                                   if e.2.idx = 0 then none else some (e.1, { e.2 with pulse := none })) } })

/-- The device enters the held state (R98): the failure of R97, quiet outputs, held_entered, a record, advice of 0.700 V; a warm reset
in progress is over (R67). -/
def enterHeld (code index slot : Nat) (s : State) : State :=
  let s1 := wr cfgFailCode_code code (wr cfgFailCode_slot slot (wr cfgFailIndex_index index
    (wr cfgStartState_state 3 (wr rstWarmCtl_busy 0 (quietTime { s with start := { s.start with load := .none, firstFail := none } })))))
  raise cfgHeldEntered (suggest 0 (writeRec 4 4 (blockCode .cfg) (recChan none) ([BitVec.ofNat 8 code, 0, 0, 0] ++ bytesLE 4 index) s1))

/-- REFCLK_SYS_TIMEOUT (R75): reset is released on the backup oscillator and the device is held with code 0x01. -/
def refclkSysTimeout (straps : Nat) (s : State) : State :=
  let t := release (powerCause s) straps s
  enterHeld 1 0 0 (onBackup true { t with pwr := { t.pwr with backupStart := true } })

def execRefclkSysTimeout (straps : Nat) (s : State) : Host.Outcome State Fault Refusal :=
  .next (onlyIf (decide (s.pwr.hold = .powerOn ∧ s.pwr.railLow = 0) && s.pwr.sysLost && !s.pwr.resetNLow)
    (refclkSysTimeout straps) s)

/-! ### PERST_N -/

/-- A host load is abandoned: the device returns to the state before it (R103). -/
def loadAborted (back : Nat) (s : State) : State :=
  raise cfgLoadAborted (wr cfgStartState_loadAborted 1 (wr cfgStartState_state back
    { s with start := { s.start with load := .none, image := [], banks := [] } }))

/-- The host loads that PERST_N abandons (R103): a start load whose image is still being read, and a run-time load, of which nothing is
committed yet. The writes of its banks go on. -/
def abortLoad (s : State) : State :=
  match s.start.load with
  | .hostStart => if rd cfgStartState_step s = 8 then loadAborted s.start.back s else s
  | .runTime => loadAborted (devState s) s
  | .none | .flash => s

/-- The HIF block returns to reset, with the endpoint and window H's channel-select latches (R68). -/
def hifReset (s : State) : State :=
  let s1 := clearHeader .hif (clearTargets ⟨.hif, none⟩ (clearRegs ⟨.hif, none⟩ s))
  { s1 with
    fab := { s1.fab with latches := sfilter (fun k => k % 4 != 0) s1.fab.latches }
    evt := { s1.evt with msixEnable := false, msixMaskAll := false, msixPend := 0 }
    fw := { s1.fw with boxes := [], stopped := [], ended := [],
                       lostEntry := decide (s.fw.phase ≠ 0 ∧ s.fw.emergency = none) || s.fw.patch.isSome || s.fw.fusing.isSome } }

/-- A per-block reset in progress is dropped (R70). -/
def dropReset (x : Tgt) : Tgt := { x with resetBusy := false }

/-- Every per-block reset in progress is dropped: PERST_N takes over (R70, read by its words: DEDUCED, assumption log 118). -/
def dropResets (s : State) : State :=
  { s with fab := { s.fab with targets := s.fab.targets.map (fun e => (e.1, dropReset e.2)) } }

/-- PERST_N_ASSERT (R68, R70). -/
def perstAssert (s : State) : State :=
  let t := { s with pwr := { s.pwr with perstLow := true } }
  if s.pwr.hold = .none then abortLoad (hifReset (abandonRing (dropResets t))) else t

def execPerstNAssert (s : State) : Host.Outcome State Fault Refusal := .next (onlyIf (!s.pwr.perstLow) perstAssert s)

/-- PERST_N_RELEASE (R68): window H's command ring takes what it holds. -/
def perstRelease (s : State) : State :=
  let t := { s with pwr := { s.pwr with perstLow := false } }
  if ringRuns 0 t then takeEntries 0 8192 t else t

def execPerstNRelease (s : State) : Host.Outcome State Fault Refusal := .next (perstRelease s)

/-! ### Warm reset (R65, R67, R89) -/

/-- The blocks that a warm reset keeps: the time island, HIF and HBM (R65). -/
def warmKeepsBlock : Block → Bool
  | .tim | .hif | .hbm => true
  | .sys | .evt | .hmk | .bnc | .pwr | .cfg | .rst | .lan | .prt | .tie | .prs | .cls | .l2t | .lpm | .flt | .fch | .dsp | .fen | .mcs
  | .bpm | .swc | .tmg | .tsu | .tmk | .pcn | .mio | .scr => false

/-- Whether a warm reset keeps the registers at an offset: those of the kept blocks; the straps; Hallmark's status; the rail evidence;
the VDD_IO domain; the slot choice of LOAD_CTL; the PLL locks; pins and temperatures as measured; SCR.RETIREDp (R521). -/
def warmKeeps (off : Nat) : Bool :=
  (match blockOfPage (off / 0x1000) with
   | some b => warmKeepsBlock b
   | none => false)
  || inIoDomain off
  || decide (off = sysStrapSample_role.off ∨ (hmkStatus_state.off ≤ off ∧ off < hmkCounts_refused.off) ∨ off = pwrRailStatus_railGood.off
      ∨ off = cfgLoadCtl_slot.off ∨ (lanCalStatus_pllLock.off ≤ off ∧ off < lanCalStatus_pllLock.off + 16)
      ∨ off = mioGpioIn_level.off ∨ (mioTemp_tempC.off ≤ off ∧ off ≤ mioTempMax_tempC.off)
      ∨ (scrRetired_count.off ≤ off ∧ off < scrRetired_count.off + 20))

/-- The fields that a warm reset clears beside fields it keeps in one register: ramp_slow, strap_changed and the calibration passes. -/
def warmFields (s : State) : State :=
  foldOver (List.range 4) (fun c a => wrX lanCalStatus_passes c 0 0 a) (wr sysStrapSample_strapChanged 0 (wr pwrRailStatus_rampSlow 0 s))

/-- The register fabric after a warm reset. OWNER returns to 0 in every block (R117). -/
def warmFabric (f : Fabric) : Fabric :=
  let keep (k : Nat) : Bool := warmKeeps (k % 0x40000)
  let code (k : Nat) : Bool := k == blockCode .tim || k == blockCode .hif || k == blockCode .hbm
  { regs := sfilter keep f.regs
    live := sfilter keep f.live
    targets := (sfilter (fun k => code (k / 1024)) f.targets).map (fun e => (e.1, dropReset e.2))
    commits := sfilter code f.commits
    latches := sfilter (fun k => code (k / 4)) f.latches
    counters := sfilter keep f.counters
    wraps := sfilter keep f.wraps
    hiSnap := sfilter (fun k => keep (k / 4)) f.hiSnap
    wrapSnap := sfilter (fun k => keep (k / 4)) f.wrapSnap
    rdH := f.rdH
    rdB := f.rdB
    rdM := f.rdM
    freeCount := f.freeCount }

/-- The cause bits that a warm reset keeps, with the PCI Express configuration of MSI-X. -/
def warmEvents (e : Events) : Events :=
  let mine (g : Nat) : Bool := match blockOfG g with
    | some b => warmKeepsBlock b
    | none => false
  { cause := sfilter mine e.cause
    mask := sfilter mine e.mask
    pend := sfilter (fun k => mine (k / 16)) e.pend
    msixEnable := e.msixEnable
    msixMaskAll := e.msixMaskAll }

/-- Triggers are disarmed and their outputs low (R65, R67). -/
def disarmTriggers (s : State) : State :=
  foldOver (List.range 8) (fun c a => wrC timTrigCtl_armed c 0 a)
    { s with tim := { s.tim with trigs := s.tim.trigs.filterMap (fun (e : Nat × Trig) =>
        if e.2.idx = 0 then none else some (e.1, { e.2 with pulse := none })), txts := [], txGap := [] } }

/-- A warm reset of the device (R65): HBM content, the time island, Touchmark and what the pools have retired stay. The vault's valid flag is
cleared (R554). -/
def warmClear (s : State) : State :=
  { pending := s.pending
    variant := s.variant
    out := s.out
    fab := warmFabric s.fab
    evt := warmEvents s.evt
    tmk := { s.tmk with used := [], usedAt := [], supp := [], latest := [], globalUsed := 0, mesh := [], meshHead := 0,
                        fifo := [], lostN := 0, lostSum := 0, lostTime := 0, lostCode := 0 }
    tim := s.tim
    lanes := { pma := s.lanes.pma }
    pwr := { railLow := s.pwr.railLow, failLatch := s.pwr.failLatch, sysLost := s.pwr.sysLost, onBackup := s.pwr.onBackup,
             laneLost := s.pwr.laneLost, resetNLow := s.pwr.resetNLow, backupStart := s.pwr.backupStart,
             perstLow := s.pwr.perstLow }
    flow := { hbm := s.flow.hbm }
    pools := { retired := s.pools.retired, retireNext := s.pools.retireNext, errs := s.pools.errs,
               owner := s.pools.owner.filter (fun (e : Nat × Nat) => e.2 == retiredMark) }
    fw := { s.fw with phase := 0, emergency := none, forced := false, patch := none, next := {}, vaultValid := false,
                      lostEntry := s.fw.lostEntry && s.fw.fusing.isSome }
    recov := { unc := s.recov.unc, recal := s.recov.recal, hot := s.recov.hot, limited := s.recov.limited, poolPass := s.recov.poolPass
               passRaw := s.recov.passRaw }
    io := s.io }

/-- A warm reset begins (R67, R89): start-up goes on from step 8, where Hallmark first checks the Bench copy and restarts Bench. PPS_OUT keeps
running, also while the device then waits for the host (R65 and R478 before R87: DESIGN CHOICE, assumption log 121). -/
def warmReset (cause : Nat) (s : State) : State :=
  let s1 := warmFields (disarmTriggers (warmClear s))
  let s2 := { s1 with start := { began := s.tim.raw, restart := true } }
  let s3 := wr rstWarmCtl_busy 1 (incX rstCounts_warmResets 0 0 (wr rstResetCause_resetCause cause s2))
  let s4 := wr bncStatus_state 1 (wr cfgStartState_step 8 (wr cfgStartState_state (if rd sysStrapSample_bootSrc s = 0 then 0 else 2) s3))
  resignal (refreshSynce (wr tieMeshStatus_roleLive (rd sysStrapSample_role s) s4))

/-- Whether the device takes a warm reset: once Bench has run and, when held, only where a warm reset is a way out (R99). A request
during an earlier power-on or RESET_N start is absorbed (R70). -/
def takesWarm (s : State) : Bool :=
  decide (s.pwr.hold = .none) &&
    (match devState s with
     | 0 => false
     | 3 => decide (16 ≤ rd cfgFailCode_code s)
     | _ => true)

/-- A warm-reset request (R70). -/
def warmRequest (cause : Nat) (s : State) : State :=
  if rd rstWarmCtl_busy s = 1 then raise rstWarmIgnored (sat1 rstResetCause_warmIgnored s)
  else if takesWarm s then warmReset cause s
  else s

/-- A write of RST.WARM_CTL. -/
def warmWrite (w : Window) (v : Word) (s : State) : State :=
  if wordField v 0 1 = 0 then s
  else if wordField v 8 8 ≠ 0x5A then accessError w rstWarmCtl_go.off true s
  else warmRequest 4 s

/-- WARM_RESET_REQUEST (R67, R70). -/
def execWarmResetRequest (w : Window) (v : Word) (s : State) : Host.Outcome State Fault Refusal :=
  .next (writing w .rst (warmWrite w (v ||| 1)) s)

/-! ### REFCLK_LANE (R75, R140) -/

/-- The lanes of a chiplet that the variant has. -/
def lanesOf (c : Nat) (s : State) : List Nat := (List.range 288).filter (fun l => chipletOf l == c && !isFused .lan l s)

/-- The lanes of a chiplet that lose their precondition begin to drain; every lane raises pll_unlock. -/
def laneUnlock (l : Nat) (s : State) : State :=
  let t := raiseC lanPllUnlock l s
  if running ⟨.lan, some l⟩ t then beginDrain ⟨.lan, some l⟩ t else t

/-- REFCLK_LANE_LOST. -/
def refclkLaneLost (c : Nat) (s : State) : State :=
  let t := wrX lanCalStatus_pllLock c 0 0 { s with pwr := { s.pwr with laneLost := setBit s.pwr.laneLost c } }
  if s.pwr.hold = .none then foldOver (lanesOf c t) laneUnlock (raise (pwrRefclkLaneLost c) t) else t

/-- A chiplet that the variant has (R1). -/
def chipletOk (c : Nat) (s : State) : Bool := decide (c < 4) && !isFused .lan (64 * c) s

def execRefclkLaneLost (c : Nat) (s : State) : Host.Outcome State Fault Refusal :=
  guarded (decide (c < 4)) (onlyIf (chipletOk c s && !s.pwr.laneLost.testBit c) (refclkLaneLost c) s)

/-- The PLL of a chiplet locks once its clock is back. A chiplet whose clock was lost at step 5 is calibrated then (DESIGN CHOICE,
assumption log 97); before step 5 it waits for that step. -/
def relock (c : Nat) (s : State) : State :=
  if rdX lanCalStatus_calValid c 0 s = 1 ∨ 5 < rd cfgStartState_step s then
    wrX lanCalStatus_pllLock c 0 1 (wrX lanCalStatus_calValid c 0 1 s)
  else s

/-- REFCLK_LANE_RESTORED: the PLL locks again, and lanes that wait in HELD start (PRECONDITION_MET). -/
def refclkLaneRestored (c : Nat) (s : State) : State :=
  let t := { s with pwr := { s.pwr with laneLost := clearBit s.pwr.laneLost c } }
  if s.pwr.hold = .none then raise (pwrRefclkLaneRestored c) (relock c t) else t

def execRefclkLaneRestored (c : Nat) (s : State) : Host.Outcome State Fault Refusal :=
  guarded (decide (c < 4)) (onlyIf (chipletOk c s && s.pwr.laneLost.testBit c) (refclkLaneRestored c) s)

end Sys2Proof.Machine
end

