-- ==== Sys2Proof/Machine/Firmware.lean ====
section
/-! DEFINITION. Hallmark and Bench (chapter 19): signed envelopes, mailboxes and their services, fuses, handover, emergency restart, the
watchdog, microcode patches. -/

namespace Sys2Proof.Machine

/-! ### Signed envelopes (R538 to R541) -/

def evKind (e : List Byte) : Nat := leAt e 6 2
def evLength (e : List Byte) : Nat := leAt e 8 4
def evVersion (e : List Byte) : Nat := leAt e 0xC 4
def evRollback (e : List Byte) : Nat := leAt e 0x10 1
def evSigner (e : List Byte) : Nat := leAt e 0x11 1
def evPayload (e : List Byte) : List Byte := slice e 0x180 (evLength e)

/-- Every reserved byte of the envelope's header is zero (R538). -/
def evReservedZero (e : List Byte) : Bool :=
  decide (leAt e 0x1F 1 = 0 ∧ leAt e 0x50 48 = 0 ∧ leAt e 0xE0 32 = 0 ∧ leAt e 0x160 32 = 0)

/-- The hash of the envelope's signing key (R538). -/
def evKeyHash (e : List Byte) : Nat := sha384 (4 :: slice e 0x80 96)

/-- The payload length that a kind allows (R540). -/
def lengthOk (kind n : Nat) : Bool :=
  match kind with
  | 1 => decide (4096 ≤ n ∧ n ≤ 25165824)
  | 2 => decide (0x820 + 24 ≤ n ∧ n ≤ 0x820 + 24 * 8192)
  | 3 => decide (16 ≤ n ∧ n ≤ 16 + 12 * 256 + 28 * 8192)
  | 4 => decide (n = 97)
  | 5 => decide (n = 0)
  | _ => false

/-- An owner key is being enrolled: its hash fuses are blown and its valid fuse is not. -/
def enrolling (x : Firmware) : Bool :=
  match x.fusing with
  | some (.enrol _) => true
  | some (.rollback _ _) | none => false

/-- The state of the owner slot as its fuses read (R541, R542); a slot is empty until its enrolment ends. -/
def ownerState (s : State) : Nat :=
  if s.fw.ownerRevoked then 2 else if s.fw.ownerValid then 1 else if s.fw.ownerHash ≠ 0 ∧ enrolling s.fw = false then 3 else 0

/-- The checks of R539 in order; answers the reason of the first that fails, 0 if the envelope passes. `kinds` are allowed for the use,
and `content` is the rule of the kind (reason 11). `slot` says that the envelope is read from a flash slot: an erased slot fails with reason
12 before any other check of its content. -/
def envelopeReason (slot : Bool) (kinds : List Nat) (content : List Byte → Bool) (e : List Byte) (s : State) : Nat :=
  let signer := evSigner e
  if e.length < 0x180 then 1
  else if slot = true ∧ leAt e 0 4 = 0xFFFFFFFF then 12
  else if leAt e 0 4 ≠ 0x4553474B ∨ leAt e 4 2 ≠ 1 ∨ evReservedZero e = false then 2
  else if kinds.contains (evKind e) = false ∨ lengthOk (evKind e) (evLength e) = false ∨ (evKind e = 4 ∧ signer ≠ 0) then 3
  else if e.length < 0x180 + evLength e then 1
  else if bit (leAt e 0x12 1) (partBit s.variant) = false ∨ 3 < leAt e 0x12 1 ∨ leAt e 0x13 1 ≠ 0 then 4
  else if (leAt e 0x14 8 ≠ 0 ∧ leAt e 0x14 8 ≠ Config.deviceUid.toNat) ∨ (4 ≤ evKind e ∧ leAt e 0x14 8 = 0) then 5
  else if 1 < signer ∨ evKeyHash e ≠ (if signer = 0 then Config.vendorHash.toNat else s.fw.ownerHash) then 6
  else if signer = 1 ∧ ownerState s ≠ 1 then 7
  else if ecdsaVerify (slice e 0x80 96) (slice e 0 0x100) (slice e 0x100 96) = false then 8
  else if sha384 (evPayload e) ≠ beAt e 0x20 48 then 9
  else if evRollback e < s.fw.rollback ∨ 64 < evRollback e then 10
  else if content e = false then 11
  else 0

/-- A kind without a rule of its own for the content. -/
def anyContent : List Byte → Bool := fun _ => true

def paTables (p : List Byte) : Nat := leAt p 8 2
def paWords (p : List Byte) : Nat := leAt p 10 2

/-- Program-table change i: program id and entry. -/
def paTable (p : List Byte) (i : Nat) : Nat × Nat := (leAt p (16 + 12 * i) 1, leAt p (16 + 12 * i + 4) 8)

/-- Word change i: address and word. -/
def paWord (p : List Byte) (i : Nat) : Nat × Nat :=
  let o := 16 + 12 * paTables p + 28 * i
  (leAt p o 2, leAt p (o + 4) 24)

/-- A patch's layout is as R547 states and its addresses lie in a bank. -/
def patchSound (p : List Byte) : Bool :=
  decide (paTables p ≤ 256 ∧ paWords p ≤ 8192 ∧ leAt p 12 4 = 0 ∧ p.length = 16 + 12 * paTables p + 28 * paWords p)
    && (List.range (paTables p)).all (fun i => decide (leAt p (16 + 12 * i + 1) 3 = 0))
    && (List.range (paWords p)).all (fun i => decide ((paWord p i).1 < 8192 ∧ leAt p (16 + 12 * paTables p + 28 * i + 2) 2 = 0))

/-- The content rule of each kind, as service 0x0102 checks it. -/
def kindContent (e : List Byte) : Bool :=
  match evKind e with
  | 2 => bankImageOk (evPayload e)
  | 3 => patchSound (evPayload e)
  | 4 => decide (leAt (evPayload e) 0 1 = 4)
  | _ => true

/-- The Bench image of an envelope in a copy area. -/
def benchImageOf (area : Nat) (e : List Byte) : BenchImage :=
  { version := evVersion e, rollback := evRollback e, signer := evSigner e, vaultMin := leAt e 0x1C 1, vaultMax := leAt e 0x1D 1
    vaultWrite := leAt e 0x1E 1, digest := beAt e 0x20 48, area := area }

/-- A Bench image is read into a copy area of HBM (R537, R545). -/
def loadCopy (area : Nat) (e : List Byte) (s : State) : State :=
  { s with fw := { s.fw with copies := sset (fun _ => []) s.fw.copies area (evPayload e), badCopies := s.fw.badCopies.filter (· != area) } }

/-- The copy of the running Bench image has the digest that Hallmark verified (R89, R526). -/
def copyGood (s : State) : Bool :=
  decide (sha384 (sget (fun _ => []) s.fw.copies s.fw.image.area) = s.fw.image.digest) && !s.fw.badCopies.contains s.fw.image.area

/-- Hallmark refuses an envelope: counted, image_refused. -/
def refuseImage (s : State) : State := raise hmkImageRefused (satX hmkCounts_refused 0 0 1 s)

/-- HMK shows the image that runs or starts. -/
def showImage (x : BenchImage) (s : State) : State :=
  wr hmkBenchImage_version x.version (wr hmkBenchRollback_rollback x.rollback (wr hmkBenchRollback_signer x.signer
    (wr hmkBenchRollback_area x.area { s with fw := { s.fw with image := x } })))

/-- Bench runs: it takes what waits in its queues (R552, R554). -/
def benchRuns (s : State) : State :=
  let t := wr bncStatus_vaultFormat s.fw.image.vaultWrite (wr bncStatus_state 2 { s with fw := { s.fw with benchRaw := s.tim.raw, warned := false } })
  drainBenchQueues (foldOver t.l2.notes (fun n a => emit (.learnRecord n) a) { t with l2 := { t.l2 with notes := [] } })

/-! ### Mailboxes (R549 to R551) -/

/-- n of a mailbox ring, and its base. -/
def mboxN (m : Nat) (s : State) : Nat := rdX hifMboxCfg_log2Entries m 0 s
def mboxBase (m : Nat) (s : State) : Nat := rdX hifMboxBaseLo_addr m 0 s + 2 ^ 32 * rdX hifMboxBaseHi_addr m 0 s

/-- Whether a mailbox ring is in use. -/
def mboxOn (m : Nat) (s : State) : Bool := decide (rdX hifMboxCfg_enable m 0 s = 1) && !s.fw.stopped.contains m

/-- Whether a mailbox has its server (R551). -/
def served (m : Nat) (s : State) : Bool := if m = 0 then benchRunning s else decide (rd hmkStatus_state s = 1)

/-- Hallmark is in the middle of a handover, an emergency restart, a fuse service, a patch or the banks of a run-time load. -/
def hallmarkBusy (s : State) : Bool := decide (s.fw.phase ≠ 0) || s.fw.patch.isSome || s.fw.fusing.isSome || !s.start.banks.isEmpty

/-- The entry of mailbox 1 in service is a handover, patch or fuse service that goes on. -/
def inService (m : Nat) (s : State) : Bool :=
  decide (m = 1) && ((decide (s.fw.phase ≠ 0) && s.fw.emergency.isNone) || s.fw.patch.isSome || s.fw.fusing.isSome)

/-- The entry that a mailbox's server takes next, if it is free to. -/
def headEntry (m : Nat) (s : State) : Option (List Byte) :=
  if mboxOn m s && served m s && !inService m s && decide (rdX hifMboxCons_index m 0 s ≠ rdX hifMboxProd_index m 0 s) then
    some (slice (sget (fun _ => []) s.fw.boxes (2048 * m + rdX hifMboxCons_index m 0 s)) 0 64)
  else none

def mbService (e : List Byte) : Nat := leAt e 0 2
def mbBuf (e : List Byte) : Nat := leAt e 8 8
def mbLen (e : List Byte) : Nat := leAt e 0x10 4
def mbParam0 (e : List Byte) : Nat := leAt e 0x14 4
def mbParam1 (e : List Byte) : Nat := leAt e 0x18 4

/-- The done source of a mailbox. -/
def mboxDone (m : Nat) : Src := if m = 0 then hifMbox0Done else hifMbox1Done

/-- The response of the entry at ring index k: bytes 0x30 to 0x3E, then done (R549). -/
def respondMbox (m k status detail len : Nat) (s : State) : State :=
  let at0 := mboxBase m s + 64 * (k % 2 ^ mboxN m s)
  let t := emit (.hostWrite (at0 + 0x3F) [1])
    (emit (.hostWrite (at0 + 0x30) (bytesLE 2 status ++ bytesLE 2 detail ++ bytesLE 4 len ++ List.replicate 7 0)) s)
  { t with fw := { t.fw with boxes := sdel t.fw.boxes (2048 * m + k) } }

/-- CONS passes the entry at it. -/
def passEntry (m : Nat) (s : State) : State :=
  wrX hifMboxCons_index m 0 ((rdX hifMboxCons_index m 0 s + 1) % 2 ^ (mboxN m s + 1)) s

/-- CONS of mailbox 1 passes the entries that were ended out of turn (R551), at most n. -/
def skipEnded : Nat → State → State
  | 0, s => s
  | n + 1, s =>
    let k := rdX hifMboxCons_index 1 0 s
    if s.fw.ended.contains k then
      skipEnded n (passEntry 1 { s with fw := { s.fw with ended := s.fw.ended.filter (· != k) } })
    else s

/-- The done event when CONS has reached PROD. -/
def mboxIdle (m : Nat) (s : State) : State :=
  if rdX hifMboxCons_index m 0 s = rdX hifMboxProd_index m 0 s then raise (mboxDone m) s else s

/-- The entry in service ends (R549): its response, CONS, and the done event when CONS reaches PROD. -/
def completeMbox (m status detail len : Nat) (s : State) : State :=
  if rdX hifMboxCons_index m 0 s = rdX hifMboxProd_index m 0 s then s
  else
    let t := passEntry m (respondMbox m (rdX hifMboxCons_index m 0 s) status detail len s)
    mboxIdle m (if m = 1 then skipEnded 2048 t else t)

/-- A service of mailbox 1 that went on ends. An entry that PERST_N has taken away has its response discarded (R68). -/
def endService (status detail len : Nat) (s : State) : State :=
  if s.fw.lostEntry then { s with fw := { s.fw with lostEntry := false } } else completeMbox 1 status detail len s

/-- A service acts on the entry that its mailbox's server takes next, if that entry asks for it. -/
def serve (m service : Nat) (f : List Byte → State → State) (s : State) : State :=
  match headEntry m s with
  | some e => if mbService e = service then f e s else s
  | none => s

/-- The entries that the host hands over, from ring index k on. -/
def storeBoxes (m : Nat) : Nat → List (List Byte) → State → State
  | _, [], s => s
  | k, e :: es, s =>
    storeBoxes m ((k + 1) % 2 ^ (mboxN m s + 1)) es
      { s with fw := { s.fw with boxes := sset (fun _ => []) s.fw.boxes (2048 * m + k) (slice e 0 64) } }

/-- Only window H and Hallmark write the mailbox registers. -/
def notThroughB (w : Window) (off : Nat) (f : State → State) (s : State) : State :=
  match w with
  | .b => accessError w off true s
  | .h => f s
  | .hm _ _ => f s

/-- The services of which one alone may be in progress: handover, patch and the fuse services (R551). -/
def exclusive (service : Nat) : Bool := decide (0x0104 ≤ service ∧ service ≤ 0x0108)

/-- The entry at ring index k of mailbox 1 ends at once with status 3, if it asks for a service that may not be beside the one in progress. -/
def endAtOnce (k : Nat) (s : State) : State :=
  if exclusive (mbService (sget (fun _ => []) s.fw.boxes (2048 + k))) then
    let t := respondMbox 1 k 3 0 0 s
    { t with fw := { t.fw with ended := k :: t.fw.ended } }
  else s

/-- Entries arrive in mailbox 1 while a handover, patch or fuse service is in progress there (R551). -/
def arriveBusy (size p n : Nat) (s : State) : State :=
  if inService 1 s && served 1 s then
    let t := foldOver (List.range n) (fun i a => endAtOnce ((p + i) % size) a) s
    if s.fw.lostEntry && !t.fw.ended.isEmpty then mboxIdle 1 (skipEnded 2048 t) else t
  else s

/-- A write of MBOXm_PROD: the entries up to the new index are handed over; ignored while the ring is not enabled (R551). -/
def mboxProdWrite (m : Nat) (v : Word) (entries : List (List Byte)) (s : State) : State :=
  if rdX hifMboxCfg_enable m 0 s = 0 then s
  else
    let size := 2 ^ (mboxN m s + 1)
    let p := rdX hifMboxProd_index m 0 s
    let n := (wordField v 0 11 % size + size - p % size) % size
    let t := wrX hifMboxProd_index m 0 (wordField v 0 11 % size) (storeBoxes m p ((entries ++ List.replicate n []).take n) s)
    if m = 1 then arriveBusy size p n t else t

def execMboxProdWrite (w : Window) (m : Nat) (v : Word) (entries : List (List Byte)) (s : State) :
    Host.Outcome State Fault Refusal :=
  guarded (decide (m < 2)) (writing w .hif (notThroughB w (hifMboxProd_index.off + 32 * m) (mboxProdWrite m v entries)) s)

/-- A mailbox ring is stopped (R549). -/
def stopMbox (m : Nat) (s : State) : State :=
  raise hifMboxError (wrX hifMboxStatus_error m 0 1 { s with fw := { s.fw with stopped := m :: s.fw.stopped } })

/-- After a write of MBOXm_BASE: a base that is not aligned stops a ring in use (R549). -/
def mboxBaseCheck (m : Nat) (s : State) : State :=
  if mboxOn m s && decide (rdX hifMboxBaseLo_addr m 0 s % 64 ≠ 0) then stopMbox m s else s

/-- A write of MBOXm_CFG (R549). -/
def mboxCfgWrite (m : Nat) (v : Word) (s : State) : State :=
  let en := wordField v 4 1
  if rdX hifMboxCfg_enable m 0 s = 1 then wrX hifMboxCfg_enable m 0 en s
  else
    let t := wrX hifMboxCfg_enable m 0 en (wrX hifMboxCfg_log2Entries m 0 (wordField v 0 4) s)
    if en = 0 then t
    else
      let ok := decide (rdX hifMboxBaseLo_addr m 0 s % 64 = 0 ∧ 4 ≤ wordField v 0 4 ∧ wordField v 0 4 ≤ 10)
      let u := { t with fw := { t.fw with stopped := t.fw.stopped.filter (· != m) } }
      if ok then u else stopMbox m u

def execMboxEnable (w : Window) (m : Nat) (v : Word) (s : State) : Host.Outcome State Fault Refusal :=
  guarded (decide (m < 2)) (writing w .hif (notThroughB w (hifMboxCfg_enable.off + 32 * m) (mboxCfgWrite m (v ||| 16))) s)

/-! ### Services of mailbox 0 -/

/-- Bytes for the buffer of an entry, then done; a buffer that is too small is a bad argument. -/
def answerBytes (m : Nat) (e : List Byte) (bs : List Byte) (s : State) : State :=
  if mbLen e < bs.length then completeMbox m 2 0 0 s
  else completeMbox m 0 0 bs.length (emit (.hostWrite (mbBuf e) bs) s)

/-- What the status report holds: version, vault format, uptime in ms, and the depths of the queues that Bench may be given. -/
def statusFields (s : State) : List Nat :=
  [s.fw.image.version, s.fw.image.vaultWrite, (s.tim.raw - s.fw.benchRaw) / rawPerMs]
    ++ (List.range 64).map (fun q => (benchQueue q s).frames.length)

/-- SVC_STATUS: the 64-byte report of R550, in a layout that the spec leaves open. -/
def svcStatus (e : List Byte) (s : State) : State := answerBytes 0 e (slice (Config.statusReport (statusFields s)) 0 64) s

def execSvcStatus (s : State) : Host.Outcome State Fault Refusal := .next (serve 0 0x0001 svcStatus s)

/-- One record of a route update is in order. -/
def updateOk (vrf : Nat) (s : State) (bs : List Byte) : Bool :=
  match leAt bs 2 1 with
  | 0 => routeOk (routeOf vrf bs) s
  | 1 =>
    let r := routeOf vrf bs
    decide (r.family ≤ 1 ∧ r.len ≤ famWidth r.family ∧ r.addr % 2 ^ (famWidth r.family - r.len) = 0)
  | _ => false

/-- Apply one record to the routes that the builder holds. -/
def updateRoutes (vrf : Nat) (bs : List Byte) (rs : List Route) : List Route :=
  let r := routeOf vrf bs
  let rest := rs.filter (fun x => !samePrefix r x)
  if leAt bs 2 1 = 0 then rest ++ [r] else rest

/-- SVC_ROUTE_UPDATE (R249, R550): every record is checked before any is applied, and the VRF is built beside the old one. -/
def svcRouteUpdate (buf : List Byte) (e : List Byte) (s : State) : State :=
  let vrf := mbParam0 e
  let bs := slice buf 0 (mbLen e)
  let n := bs.length / 24
  let recs := chunks 24 n bs
  if 4095 < vrf then completeMbox 0 2 0 0 s
  else match firstIndex n (fun i => !updateOk vrf s (recs.getD i [])) with
    | some i => completeMbox 0 2 i 0 s
    | none =>
      if bs.length % 24 ≠ 0 then completeMbox 0 2 n 0 s
      else
        let t := { s with lpm := { s.lpm with routes := foldOver recs (updateRoutes vrf) s.lpm.routes } }
        match (buildRoutes vrf 0 t).bind (buildRoutes vrf 1) with
        | some u => completeMbox 0 0 0 0 u
        | none => completeMbox 0 2 0 0 s

def execSvcRouteUpdate (buf : List Byte) (s : State) : Host.Outcome State Fault Refusal :=
  .next (serve 0 0x0010 (svcRouteUpdate buf) s)

/-- The place of a flash region in the directory. -/
def flashRegion (r : Nat) (s : State) : Option (Nat × Nat × Nat) := s.fw.dir.find? (fun x => x.1 == r)

/-- SVC_FLASH_WRITE. -/
def svcFlashWrite (buf : List Byte) (e : List Byte) (s : State) : State :=
  let bs := slice buf 0 (mbLen e)
  let r := mbParam0 e
  match flashRegion r s with
  | none => completeMbox 0 2 0 0 s
  | some (_, off, len) =>
    if r = 0 ∨ 4 < r ∨ len < mbParam1 e + bs.length then completeMbox 0 2 0 0 s
    else
      let reason := if r ≤ 2 then envelopeReason false [1] anyContent bs s else 0
      if reason ≠ 0 then completeMbox 0 4 reason 0 (refuseImage s)
      else if 3 ≤ r ∧ imageSound s.variant bs = false then completeMbox 0 2 0 0 s
      else if mayProgram s = false then completeMbox 0 5 0 0 s
      else completeMbox 0 0 0 0 (emit (.bus "QSPI" ((off + mbParam1 e) :: bs.map (fun b => b.toNat))) s)

def execSvcFlashWrite (buf : List Byte) (s : State) : Host.Outcome State Fault Refusal :=
  .next (serve 0 0x0020 (svcFlashWrite buf) s)

/-- A directory with another preferred slot and the CRC-32C that goes with it (R544). -/
def withPreferred (p : Nat) (d : List Byte) : List Byte :=
  let head := slice (patchBytes d 6 (bytesLE 1 p)) 0 0xFC
  head ++ bytesLE 4 (crc32c head)

/-- A directory copy is written to flash. -/
def writeDir (off : Nat) (d : List Byte) (s : State) : State := emit (.bus "QSPI" (off :: d.map (fun b => b.toNat))) s

/-- SVC_SET_PREFERRED: both directory copies, the one at 0x0001_0000 first. -/
def svcSetPreferred (e : List Byte) (s : State) : State :=
  let p := mbParam0 e
  if 1 < p then completeMbox 0 2 0 0 s
  else if s.fw.dir = [] ∨ mayProgram s = false then completeMbox 0 5 0 0 s
  else
    let d := withPreferred p s.fw.dirBytes
    completeMbox 0 0 0 0 (writeDir 0 d (writeDir 0x10000 d { s with fw := { s.fw with preferred := p, dirBytes := d } }))

def execSvcSetPreferred (s : State) : Host.Outcome State Fault Refusal := .next (serve 0 0x0021 svcSetPreferred s)

/-! ### Services of mailbox 1 -/

/-- What the identity report holds before its signature (R550): UID, part, revision, rollback count, both key hashes, owner_state, version
and rollback of the running Bench, and the public key of the device (R536). -/
def identityFields (s : State) : List Byte :=
  bytesLE 8 Config.deviceUid.toNat ++ bytesLE 1 (partBit s.variant) ++ bytesLE 1 0 ++ bytesLE 1 s.fw.rollback
    ++ bytesBE 48 Config.vendorHash.toNat ++ bytesBE 48 (if ownerState s = 1 then s.fw.ownerHash else 0) ++ bytesLE 1 (ownerState s)
    ++ bytesLE 4 s.fw.image.version ++ bytesLE 1 s.fw.image.rollback ++ publicKey Config.deviceSecret

/-- The signature of the identity report by the device key, over the report and the nonce in param0 and param1 (R536, R550). -/
def identitySignature (e : List Byte) (s : State) : List Byte :=
  ecdsaSign Config.deviceSecret (Config.signNonce s.fab.freeCount) (identityFields s ++ bytesLE 4 (mbParam0 e) ++ bytesLE 4 (mbParam1 e))

/-- SVC_IDENTITY: the 256-byte report of R550, in a layout that the spec leaves open. -/
def svcIdentity (e : List Byte) (s : State) : State :=
  answerBytes 1 e (slice (Config.identityReport (identityFields s) (identitySignature e s)) 0 256) (takeFree s).2

def execSvcIdentity (s : State) : Host.Outcome State Fault Refusal := .next (serve 1 0x0101 svcIdentity s)

/-- SVC_VERIFY: an envelope of any kind, with no effect. -/
def svcVerify (buf : List Byte) (e : List Byte) (s : State) : State :=
  let reason := envelopeReason false [1, 2, 3, 4, 5] kindContent (slice buf 0 (mbLen e)) s
  if reason = 0 then completeMbox 1 0 0 0 s else completeMbox 1 4 reason 0 s

def execSvcVerify (buf : List Byte) (s : State) : Host.Outcome State Fault Refusal := .next (serve 1 0x0102 (svcVerify buf) s)

/-- Whether service 0x0103 is taken (R546): at step 4 under BOOT_SRC 2, or held with code 0x04 or 0x07. -/
def takesDelivery (s : State) : Bool :=
  (decide (devState s = 0 ∧ rd cfgStartState_step s = 4 ∧ rd sysStrapSample_bootSrc s = 2))
    || (held s && decide (rd cfgFailCode_code s = 4 ∨ rd cfgFailCode_code s = 7))

/-- SVC_DELIVER_BENCH (R546): start-up goes on with step 5. -/
def svcDeliverBench (buf : List Byte) (e : List Byte) (s : State) : State :=
  if !takesDelivery s then completeMbox 1 5 0 0 s
  else
    let img := slice buf 0 (mbLen e)
    let reason := envelopeReason false [1] anyContent img s
    if reason ≠ 0 then completeMbox 1 4 reason 0 (refuseImage s)
    else
      let area := if rd bncStatus_state s = 0 then 0 else 1 - s.fw.image.area
      completeMbox 1 0 0 0 (wr hmkStatus_hostImage 1 (wr cfgStartState_step 5 (wr cfgStartState_state 0
        (showImage (benchImageOf area img) (loadCopy area img s)))))

def execSvcDeliverBench (buf : List Byte) (s : State) : Host.Outcome State Fault Refusal :=
  .next (serve 1 0x0103 (svcDeliverBench buf) s)

/-! ### Handover (R554, R555) -/

/-- Close a handover or restart: its result is shown. -/
def noteHandover (result : Nat) (s : State) : State :=
  wr bncHandover_result result { s with fw := { s.fw with phase := 0, emergency := none, forced := false, next := {} } }

/-- SVC_HANDOVER: steps 1 to 3. -/
def svcHandover (buf : List Byte) (e : List Byte) (s : State) : State :=
  if hallmarkBusy s then completeMbox 1 3 0 0 s
  else if !benchRunning s then completeMbox 1 5 0 0 s
  else
    let img := slice buf 0 (mbLen e)
    let takes (e : List Byte) : Bool := decide (leAt e 0x1C 1 ≤ s.fw.image.vaultWrite ∧ s.fw.image.vaultWrite ≤ leAt e 0x1D 1)
    let reason := envelopeReason false [1] takes img s
    if reason ≠ 0 then completeMbox 1 4 reason 0 (noteHandover 1 (refuseImage s))
    else
      let t := loadCopy (1 - s.fw.image.area) img s
      { t with fw := { t.fw with phase := 4, next := benchImageOf (1 - s.fw.image.area) img } }

def execSvcHandover (buf : List Byte) (s : State) : Host.Outcome State Fault Refusal :=
  .next (serve 1 0x0104 (svcHandover buf) s)

/-- The Bench interrupt lines and window B move to the other core pair, which runs Bench (R554 step 7). -/
def swapPair (s : State) : State := wr bncStatus_activePair (1 - rd bncStatus_activePair s) s

/-- NEW_BENCH_READY: steps 4 and 5. An emergency restart has no quiesce (R555). -/
def newBenchReady (s : State) : State :=
  if s.fw.emergency.isSome then swapPair { s with fw := { s.fw with phase := 8 } }
  else wr bncStatus_state 3 { s with fw := { s.fw with phase := 6, windowRaw := s.tim.raw } }

def execNewBenchReady (s : State) : Host.Outcome State Fault Refusal := .next (onlyIf (decide (s.fw.phase = 4)) newBenchReady s)

/-- OLD_BENCH_QUIESCED: steps 6 and 7. The old Bench has written its final vault. -/
def oldBenchQuiesced (s : State) : State :=
  swapPair { s with fw := { s.fw with phase := 8, vaultFormat := s.fw.image.vaultWrite, vaultValid := true } }

def execOldBenchQuiesced (s : State) : Host.Outcome State Fault Refusal :=
  .next (onlyIf (decide (s.fw.phase = 6)) oldBenchQuiesced s)

/-- Milliseconds since the window began, rounded up. -/
def windowMs (s : State) : Nat := min 65535 ((s.tim.raw - s.fw.windowRaw + rawPerMs - 1) / rawPerMs)

/-- The record of a restart of Bench (R561). -/
def benchRecord (cause : Nat) (warm : Bool) (s : State) : State :=
  writeRec 0xA 3 (blockCode .bnc) (recChan none) (bytesLE 1 cause ++ bytesLE 1 (b2n warm)) s

/-- NEW_BENCH_RUNNING: steps 8 and 9; the end of an emergency restart; or the old Bench running again after a failure. -/
def newBenchRunning (s : State) : State :=
  let s1 := incX bncHandover_count 0 0 s
  match s.fw.emergency with
  | some cause =>
    let t := wr bncStatus_unclean 1 { s1 with fw := { s1.fw with phase := 0, emergency := none } }
    raise scrBenchRestarted (benchRecord cause false (benchRuns t))
  | none =>
    if s.fw.phase = 9 then benchRuns { s1 with fw := { s1.fw with phase := 0 } }
    else
      let t := wr bncHandover_lastMs (windowMs s) (wr hmkStatus_hostImage 1 (showImage s.fw.next s1))
      let u := if s.fw.forced then wr bncStatus_unclean 1 t else t
      endService 0 0 0 (raise bncHandoverDone (benchRuns (noteHandover (if s.fw.forced then 3 else 0) u)))

def execNewBenchRunning (s : State) : Host.Outcome State Fault Refusal :=
  .next (onlyIf (decide (s.fw.phase = 8 ∨ s.fw.phase = 9)) newBenchRunning s)

/-- Hallmark makes a warm reset in place of a restart (R526). The record is offered once the staging FIFO has been cleared (R65). -/
def firmwareWarm (cause : Nat) (s : State) : State :=
  benchRecord cause true (warmRequest (if cause = 3 then 5 else 6) { s with fw := { s.fw with phase := 0, emergency := none } })

/-- HANDOVER_TIMEOUT (R526, R555): the step that a handover has reached overruns. -/
def handoverTimeout (s : State) : State :=
  match s.fw.emergency with
  | some cause => firmwareWarm cause s
  | none =>
    match s.fw.phase with
    | 4 => endService 5 0 0 (raise bncHandoverFailed (noteHandover 2 s))
    | 6 => swapPair { s with fw := { s.fw with phase := 8, forced := true } }
    | 8 =>
      let t := raise bncHandoverFailed (noteHandover 4 s)
      endService 5 0 0 (swapPair { t with fw := { t.fw with phase := 9 } })
    | _ => s

def execHandoverTimeout (s : State) : Host.Outcome State Fault Refusal :=
  .next (onlyIf (decide (s.fw.phase ≠ 0)) handoverTimeout s)

/-! ### Emergency restart (R526, R527, R558) -/

/-- Raw counts in 10 s. -/
def rawTenSeconds : Nat := 7812500000

/-- Hallmark restarts Bench from its copy once its digest has been checked (with a bad copy the standby pair is not started), or makes a warm reset on the second event within 10 s. A handover in progress ends. -/
def emergency (cause : Nat) (s : State) : State :=
  let again := match s.fw.lastEmergency with
    | some r => decide (s.tim.raw - r < rawTenSeconds)
    | none => false
  let t := if decide (s.fw.phase ≠ 0) && s.fw.emergency.isNone then endService 5 0 0 (noteHandover 4 s) else s
  let u := { t with fw := { t.fw with lastEmergency := some s.tim.raw } }
  if again then firmwareWarm cause u
  else wr bncStatus_state 3 { u with fw := { u.fw with phase := if copyGood u then 4 else 3, emergency := some cause, windowRaw := s.tim.raw } }

/-- Bench runs, or is taking over. -/
def benchPresent (s : State) : Bool := decide (rd bncStatus_state s = 2 ∨ rd bncStatus_state s = 3)

/-- BENCH_EMERGENCY_RESTART: cause 1 machine check, 2 memory error, 3 watchdog. -/
def execBenchEmergencyRestart (cause : Nat) (s : State) : Host.Outcome State Fault Refusal :=
  guarded (decide (1 ≤ cause ∧ cause ≤ 3)) (onlyIf (benchPresent s) (emergency cause) s)

/-- MGMT_PROTECTION_FAULT. -/
def execMgmtProtectionFault (s : State) : Host.Outcome State Fault Refusal :=
  .next (onlyIf (benchPresent s) (fun s => emergency 1 (stopBench s)) s)

/-- An uncorrectable error at a byte of Hallmark's private SRAM restarts Hallmark (R527). -/
def hallmarkFails (addr : Nat) (s : State) : State :=
  raise scrHallmarkRestarted (writeRec 0xB 3 (blockCode .hmk) (recChan none) (bytesLE 8 addr) (wr hmkStatus_state 2 s))

/-- Hallmark has restarted: it reads the fuses, as `ownerState` and the counts always do, and has checked every golden copy again; `bad` are those that fail (cluster and bank). -/
def hallmarkBack (bad : List (Nat × Nat)) (s : State) : State :=
  foldOver bad (fun x a => goldenDigestCheck x.1 x.2 false a)
    (wr hmkStatus_state 1 s)

/-- HALLMARK_RESTART: the error at a byte of its SRAM, or the end of the restart. -/
def hallmarkRestart (addr : Nat) (stage : HmkStage) (s : State) : State :=
  match stage with
  | .done bad => if rd hmkStatus_state s = 2 then hallmarkBack bad s else s
  | .error => if rd hmkStatus_state s = 1 then hallmarkFails addr s else s

def execHallmarkRestart (addr : Nat) (stage : HmkStage) (s : State) : Host.Outcome State Fault Refusal :=
  .next (hallmarkRestart addr stage s)

/-! ### Watchdog (R553) -/

/-- WDOG_KICK. -/
def wdogKick (w : Window) (v : Word) (s : State) : State :=
  if wordField v 0 16 = 0x4B43 then { s with fw := { s.fw with warned := false } } else accessError w bncWdogKick_key.off true s

def execWdogKick (w : Window) (v : Word) (s : State) : Host.Outcome State Fault Refusal :=
  .next (writing w .bnc (notThroughH w bncWdogKick_key.off (wdogKick w v)) s)

/-- The watchdog runs: not from a handover's quiesce until the new Bench runs. -/
def wdogRuns (s : State) : Bool := benchRunning s && decide (s.fw.phase = 0 ∨ s.fw.phase = 4)

/-- WDOG_WARNING: half the timeout without a kick. -/
def execWdogWarning (s : State) : Host.Outcome State Fault Refusal :=
  .next (onlyIf (wdogRuns s && !s.fw.warned) (fun s => raise bncWdogWarning { s with fw := { s.fw with warned := true } }) s)

/-- WDOG_EXPIRE: the full timeout without a kick. -/
def execWdogExpire (s : State) : Host.Outcome State Fault Refusal := .next (onlyIf (wdogRuns s && s.fw.warned) (emergency 3) s)

/-! ### Fuse services (R541 to R543) -/

/-- A service that programs fuses runs: not beside another such service, and with all rails good (R62, R551). -/
def fuseService (m : Nat) (f : State → State) (s : State) : State :=
  if hallmarkBusy s then completeMbox m 3 0 0 s
  else if mayProgram s = false then completeMbox m 5 0 0 s
  else f s

/-- The first 16 bytes of a key hash. -/
def hashHead (h : Nat) : List Byte := (bytesBE 48 h).take 16

/-- SVC_ENROL (R542): the hash fuses are blown; the valid fuse and the read-back follow in OP_TIME_TICK. `ok` says that the fuses read back
as written. -/
def svcEnrol (buf : List Byte) (ok : Bool) (e : List Byte) (s : State) : State :=
  if ownerState s ≠ 0 then completeMbox 1 5 0 0 s
  else
    let ev := slice buf 0 (mbLen e)
    let reason := envelopeReason false [4] kindContent ev s
    if reason ≠ 0 then completeMbox 1 4 reason 0 (refuseImage s)
    else
      let t := satX hmkCounts_fuseOps 0 0 1 s
      { t with fw := { t.fw with ownerHash := sha384 (evPayload ev), fusing := some (.enrol ok) } }

def execSvcEnrol (buf : List Byte) (ok : Bool) (s : State) : Host.Outcome State Fault Refusal :=
  .next (serve 1 0x0106 (fun e => fuseService 1 (svcEnrol buf ok e)) s)

/-- SVC_REVOKE (R542): one fuse. -/
def svcRevoke (buf : List Byte) (e : List Byte) (s : State) : State :=
  let reason := envelopeReason false [5] anyContent (slice buf 0 (mbLen e)) s
  if reason ≠ 0 then completeMbox 1 4 reason 0 (refuseImage s)
  else
    completeMbox 1 0 0 0 (raise hmkKeyRevoked (writeRec 9 1 (blockCode .hmk) (recChan none) (hashHead s.fw.ownerHash)
      (satX hmkCounts_fuseOps 0 0 1 { s with fw := { s.fw with ownerRevoked := true } })))

def execSvcRevoke (buf : List Byte) (s : State) : Host.Outcome State Fault Refusal :=
  .next (serve 1 0x0107 (fun e => fuseService 1 (svcRevoke buf e)) s)

/-- SVC_ROLLBACK (R543): its fuses are blown one by one in OP_TIME_TICK. -/
def svcRollback (e : List Byte) (s : State) : State :=
  let p := mbParam0 e
  if s.fw.image.rollback < p ∨ 64 < p then completeMbox 1 2 0 0 s
  else if p ≤ s.fw.rollback then completeMbox 1 0 0 0 s
  else { s with fw := { s.fw with fusing := some (.rollback s.fw.rollback p) } }

def execSvcRollback (s : State) : Host.Outcome State Fault Refusal :=
  .next (serve 1 0x0108 (fun e => fuseService 1 (svcRollback e)) s)

/-- The fuses of an enrolment have been re-read (R542). Where they differ, what they hold is not stated, but that some are blown. -/
def enrolEnds (ok : Bool) (s : State) : State :=
  if ok then
    endService 0 0 0 (raise hmkKeyEnrolled (writeRec 8 1 (blockCode .hmk) (recChan none) (hashHead s.fw.ownerHash)
      { s with fw := { s.fw with fusing := none, ownerValid := true } }))
  else
    endService 6 0 0 (raise hmkFuseError { s with fw := { s.fw with
      fusing := none, ownerHash := max 1 (Config.misfused s.fw.ownerHash) } })

/-- The next fuse of the rollback counter is blown; the last one ends the service (R543). -/
def rollbackFuse (before target : Nat) (s : State) : State :=
  let t := satX hmkCounts_fuseOps 0 0 1 { s with fw := { s.fw with rollback := s.fw.rollback + 1 } }
  if t.fw.rollback < target then t
  else
    endService 0 0 0 (raise hmkRollbackAdvanced (writeRec 0xC 1 (blockCode .hmk) (recChan none) (bytesLE 1 before ++ bytesLE 1 target)
      { t with fw := { t.fw with fusing := none } }))

/-- A millisecond of a fuse service in progress (DESIGN CHOICE, assumption log 135). -/
def fuseTick (s : State) : State :=
  match s.fw.fusing with
  | none => s
  | some (.enrol ok) => enrolEnds ok s
  | some (.rollback before target) => rollbackFuse before target s

/-- OP_TIME_TICK (R563): one millisecond of operating time while all rails are good; fuses in progress go on. -/
def opTimeTick (s : State) : State := fuseTick { s with tmk := { s.tmk with opTime := (s.tmk.opTime + 1) % 2 ^ 48 } }

def execOpTimeTick (s : State) : Host.Outcome State Fault Refusal := .next (onlyIf (decide (s.pwr.railLow = 0)) opTimeTick s)

/-- SVC_CLEAR_LOCK (R117, R550). HMK's OWNER reads 3 at all times (R536). -/
def svcClearLock (e : List Byte) (s : State) : State :=
  match allBlocks.find? (fun b => blockCode b == mbParam0 e) with
  | none => completeMbox 1 2 0 0 s
  | some b => completeMbox 1 0 0 0 (if (ownerOf b s).owner = 0 then s else putOwner b {} s)

def execSvcClearLock (s : State) : Host.Outcome State Fault Refusal := .next (serve 1 0x0109 svcClearLock s)

/-- The services of a mailbox. -/
def servicesOf (m : Nat) : List Nat :=
  if m = 0 then [0x0001, 0x0010, 0x0020, 0x0021]
  else [0x0101, 0x0102, 0x0103, 0x0104, 0x0105, 0x0106, 0x0107, 0x0108, 0x0109]

/-- SVC_UNKNOWN: the entry asks for no service of its mailbox. -/
def svcUnknown (m : Nat) (s : State) : State :=
  match headEntry m s with
  | some e => if (servicesOf m).contains (mbService e) then s else completeMbox m 1 0 0 s
  | none => s

def execSvcUnknown (m : Nat) (s : State) : Host.Outcome State Fault Refusal := guarded (decide (m < 2)) (svcUnknown m s)

/-! ### Patches (R548) -/

/-- The words of the image in cluster c's live bank, as its golden copy holds them (R316, R321), with the changes, up to the highest
address changed. -/
def patchedWords (c : Nat) (p : List Byte) (s : State) : List Nat :=
  let n := (List.range (paWords p)).foldl (fun a i => max a ((paWord p i).1 + 1)) (bankWords c (liveBank c s) s)
  let old := (List.range n).map (fun i => sget zeroDefault (store c s).golden (wordPlace (liveBank c s) i) % 2 ^ 192)
  (List.range (paWords p)).foldl (fun ws i => ws.set (paWord p i).1 (paWord p i).2) old

/-- The image that a patch makes of cluster c's live bank (R319). -/
def patchedImage (c : Nat) (p : List Byte) (s : State) : List Byte :=
  let ws := patchedWords c p s
  let ps := (List.range (paTables p)).foldl (fun (l : List Nat) i => l.set (paTable p i).1 (paTable p i).2)
    ((List.range 256).map (fun k => progAt c (liveBank c s) k s))
  bytesLE 4 0x434D474B ++ bytesLE 2 1 ++ bytesLE 2 ws.length ++ bytesLE 4 (leAt p 4 4) ++ List.replicate 20 0
    ++ ps.flatMap (bytesLE 8) ++ ws.flatMap (bytesLE 24)

/-- The sequence of the image in cluster c's live bank. -/
def liveSequence (c : Nat) (s : State) : Nat :=
  if liveBank c s = 0 then rdC mcsBankInfo0_sequence c s else rdC mcsBankInfo1_sequence c s

/-- The next cluster of a patch is written; after the last one Hallmark commits MCS if it was asked to. -/
def patchNext (s : State) : State :=
  match s.fw.patch with
  | none => s
  | some q =>
    match q.left with
    | (c, img) :: rest =>
      beginBankLoad c (1 - liveBank c s) img { s with fw := { s.fw with patch := some { q with left := rest } } }
    | [] =>
      let t := { s with fw := { s.fw with patch := none } }
      if q.commit then
        let u := foldOver q.clusters (fun c a => wrC mcsBankCtl_bankSel c (1 - liveBank c a) a) t
        let v := commitNow .mcs u
        if (commitOf .mcs v).count ≠ (commitOf .mcs u).count then endService 0 0 0 v
        else endService 7 (commitOf .mcs v).refusal 0 v
      else endService 0 0 0 t

/-- The clusters that a mask names. -/
def maskClusters (mask : Nat) : List Nat := (List.range 32).filter (fun c => mask.testBit c)

/-- SVC_PATCH (R548). -/
def svcPatch (buf : List Byte) (e : List Byte) (s : State) : State :=
  if hallmarkBusy s then completeMbox 1 3 0 0 s
  else
    let ev := slice buf 0 (mbLen e)
    let p := evPayload ev
    let cs := maskClusters (mbParam0 e)
    let fits (_ : List Byte) : Bool :=
      patchSound p && cs.all (fun c => decide (liveSequence c s = leAt p 0 4) && bankImageOk (patchedImage c p s))
    let reason := envelopeReason false [3] fits ev s
    if reason ≠ 0 then completeMbox 1 4 reason 0 (refuseImage s)
    else if cs.any (fun c => decide (3 ≤ bankState c (1 - liveBank c s) s)) then completeMbox 1 3 0 0 s
    else patchNext { s with fw := { s.fw with
      patch := some { left := cs.map (fun c => (c, patchedImage c p s)), clusters := cs, commit := bit (mbParam1 e) 0 } } }

def execSvcPatch (buf : List Byte) (s : State) : Host.Outcome State Fault Refusal :=
  .next (serve 1 0x0105 (svcPatch buf) s)

/-- BNC, HMK and HIF registers that show firmware: fuses, mailbox servers, the queue selected. -/
def firmwareView (off c : Nat) (s : State) : Option Nat :=
  let hashWord (h k : Nat) : Nat := leAt (bytesBE 48 h) (4 * k) 4
  if off = hmkStatus_state.off then
    some (withBits (withBits (reg off 0 s).toNat 8 2 (ownerState s)) 16 7 s.fw.rollback)
  else if off = hmkUidLo_uid.off then some (Config.deviceUid.toNat % 2 ^ 32)
  else if off = hmkUidHi_uid.off then some (Config.deviceUid.toNat / 2 ^ 32)
  else if hmkVendorHash_hash.off ≤ off ∧ off < hmkVendorHash_hash.off + 48 then
    some (hashWord Config.vendorHash.toNat ((off - hmkVendorHash_hash.off) / 4))
  else if hmkOwnerHash_hash.off ≤ off ∧ off < hmkOwnerHash_hash.off + 48 then
    some (if ownerState s = 1 then hashWord s.fw.ownerHash ((off - hmkOwnerHash_hash.off) / 4) else 0)
  else if off = bncQueueStatus_depth.off then
    let q := benchQueue (rdC bncQueueSel_queue c s) s
    some (q.frames.length + 65536 * q.dropped)
  else if off = hifMboxStatus_served.off ∨ off = hifMboxStatus_served.off + 32 then
    let m := (off - hifMboxStatus_served.off) / 32
    some (withBits (withBits (reg off 0 s).toNat 0 1 (b2n (served m s))) 1 1 (b2n (inService m s)))
  else none

end Sys2Proof.Machine
end

