-- ==== Sys2Proof/Machine/Mio.lean ====
section
/-! DEFINITION. Slow I/O (chapter 21): temperature sensors, GPIO, I²C, MDIO and the UART. -/

namespace Sys2Proof.Machine

/-! ### Temperatures (R607) -/

/-- The sensors that take part: sensors 6 and 7 of the KG4128 read zero. -/
def sensorPresent (s : State) (i : Nat) : Bool :=
  match s.variant with
  | .kg4256 => decide (i < 8)
  | .kg4128 => decide (i < 6)

/-- The highest of the readings, with its sensor; the lowest numbered of equals. -/
def hottest : List (Nat × Int) → Option (Nat × Int)
  | [] => none
  | x :: xs => match hottest xs with
    | some y => if x.2 < y.2 then some y else some x
    | none => some x

/-- One threshold: raised on reaching it, and again only after a fall of 5 °C below it. Answers whether it is raised now and whether it
waits. -/
def threshold (waits : Bool) (limit t : Int) : Bool × Bool :=
  if waits then (false, decide (limit - 5 < t)) else (decide (limit ≤ t), decide (limit ≤ t))

/-- TEMP_READ: the eight sensors are read. -/
def tempRead (temps : List Int) (s : State) : State :=
  let read := ((List.range 8).zip temps).filter (fun x => sensorPresent s x.1)
  let t := foldOver read (fun x a => wrX mioTemp_tempC x.1 0 (unsigned 9 (clampInt x.2 (-256) 255)) a) s
  match hottest read with
  | none => t
  | some (i, v) =>
    let m := clampInt v (-256) 255
    let t1 := wr mioTempMax_sensor i (wr mioTempMax_tempC (unsigned 9 m)
      (wr mioTempMax_peakC (unsigned 9 (if t.io.seen then max m (signed 9 (rd mioTempMax_peakC t)) else m)) t))
    let h := threshold t1.io.high (rd mioThermCfg_highC t1) m
    let c := threshold t1.io.critical (rd mioThermCfg_criticalC t1) m
    let t2 := { t1 with io := { high := h.2, critical := c.2, seen := true } }
    let t3 := if h.1 then raise mioThermalHigh t2 else t2
    if c.1 then raise mioThermalCritical t3 else t3

def execTempRead (temps : List Int) (s : State) : Host.Outcome State Fault Refusal :=
  guarded (decide (temps.length = 8)) (onlyIf (decide (s.pwr.hold = .none)) (tempRead temps) s)

/-! ### GPIO (R608) -/

/-- GPIO_EDGE: a pin's filtered level becomes `level`. -/
def gpioEdge (pin : Nat) (level : Bool) (s : State) : State :=
  let old := rd mioGpioIn_level s
  if old.testBit pin = level then s
  else
    let t := wr mioGpioIn_level (if level then setBit old pin else clearBit old pin) s
    if (rd mioGpioEdgeEn_enable t).testBit pin then
      raise mioGpioEdge (wr mioGpioEdge_edge (setBit (rd mioGpioEdge_edge t) pin) t)
    else t

def execGpioEdge (pin : Nat) (level : Bool) (s : State) : Host.Outcome State Fault Refusal :=
  guarded (decide (pin < 32)) (onlyIf (decide (s.pwr.hold = .none)) (gpioEdge pin level) s)

/-! ### I²C (R598) -/

/-- A write of MIO.I2C_CMDk: the fields are stored, and go starts a transfer unless one is in progress or len is not 1 to 4. -/
def i2cCmdWrite (k : Nat) (v : Word) (s : State) : State :=
  let t := wrX mioI2cCmd_addr k 0 (wordField v 0 7) (wrX mioI2cCmd_read k 0 (wordField v 7 1)
    (wrX mioI2cCmd_len k 0 (wordField v 8 3) s))
  let len := wordField v 8 3
  if wordField v 16 1 = 1 ∧ rdX mioI2cCmd_busy k 0 s = 0 ∧ 1 ≤ len ∧ len ≤ 4 then
    emit (.bus (if k = 0 then "I2C0" else "I2C1") [wordField v 0 7, wordField v 7 1, len, rdX mioI2cData_data k 0 t])
      (wrX mioI2cCmd_busy k 0 1 t)
  else t

def execI2cGo (w : Window) (k : Nat) (v : Word) (s : State) : Host.Outcome State Fault Refusal :=
  guarded (decide (k < 2)) (writing w .mio (i2cCmdWrite k (wordWith v 16 1 1)) s)

/-- I2C_DONE: result 0 done (with the bytes read), 1 no acknowledge, 2 timeout, after which nine SCL pulses release the bus. -/
def i2cDone (k result : Nat) (data : Word) (s : State) : State :=
  let len := rdX mioI2cCmd_len k 0 s
  let t := wrX mioI2cCmd_busy k 0 0 (wrX mioI2cCmd_result k 0 result s)
  let t1 := if result = 0 ∧ rdX mioI2cCmd_read k 0 s = 1 then wrX mioI2cData_data k 0 (data.toNat % 256 ^ len) t else t
  let t2 := if result = 2 then emit (.bus (if k = 0 then "I2C0" else "I2C1") [9]) t1 else t1
  let t3 := raise (if k = 0 then mioI2c0Done else mioI2c1Done) t2
  if result = 0 then t3 else raise mioI2cError t3

def execI2cDone (k result : Nat) (data : Word) (s : State) : Host.Outcome State Fault Refusal :=
  guarded (decide (k < 2 ∧ result < 3)) (onlyIf (decide (rdX mioI2cCmd_busy k 0 s = 1)) (i2cDone k result data) s)

/-! ### MDIO (R599) -/

/-- Whether an MDIO op starts a frame: in clause 22, ops 0 and 3 do not. -/
def mdioOpOk (c45 op : Nat) : Bool := decide (c45 = 1) || decide (op = 1 ∨ op = 2)

/-- A write of MIO.MDIO_CMD. -/
def mdioCmdWrite (v : Word) (s : State) : State :=
  let t := wr mioMdioCmd_phy (wordField v 0 5) (wr mioMdioCmd_reg (wordField v 5 5) (wr mioMdioCmd_op (wordField v 10 2)
    (wr mioMdioCmd_c45 (wordField v 12 1) s)))
  if wordField v 16 1 = 1 ∧ rd mioMdioCmd_busy s = 0 ∧ mdioOpOk (wordField v 12 1) (wordField v 10 2) = true then
    emit (.bus "MDIO" [wordField v 0 5, wordField v 5 5, wordField v 10 2, wordField v 12 1, rd mioMdioData_data t])
      (wr mioMdioCmd_error 0 (wr mioMdioCmd_busy 1 t))
  else t

def execMdioGo (w : Window) (v : Word) (s : State) : Host.Outcome State Fault Refusal :=
  .next (writing w .mio (mdioCmdWrite (wordWith v 16 1 1)) s)

/-- Whether the MDIO frame in progress reads. -/
def mdioReads (s : State) : Bool :=
  if rd mioMdioCmd_c45 s = 1 then decide (2 ≤ rd mioMdioCmd_op s) else decide (rd mioMdioCmd_op s = 2)

/-- MDIO_DONE: with error when the PHY gave no turnaround on a read. -/
def mdioDone (noTurn : Bool) (data : Nat) (s : State) : State :=
  let err := noTurn && mdioReads s
  let t := wr mioMdioCmd_busy 0 (wr mioMdioCmd_error (b2n err) s)
  let t1 := if mdioReads s && !err then wr mioMdioData_data data t else t
  let t2 := raise mioMdioDone t1
  if err then raise mioMdioError t2 else t2

def execMdioDone (noTurn : Bool) (data : Nat) (s : State) : Host.Outcome State Fault Refusal :=
  .next (onlyIf (decide (rd mioMdioCmd_busy s = 1)) (mdioDone noTurn data) s)

/-! ### UART (R600) -/

/-- UART_RX_CHAR: a character for Bench's console, or one that is lost. -/
def execUartRxChar (ch : Nat) (lost : Bool) (s : State) : Host.Outcome State Fault Refusal :=
  .next (if s.pwr.hold ≠ .none then s
    else if lost then raise mioUartOverrun s else emit (.bus "UART" [ch % 256]) s)

end Sys2Proof.Machine
end

