-- ==== Sys2Proof/Machine/Perf.lean ====
section
/-! DEFINITION. Performance counters and histograms as their registers drive them (R578 to R583), and the millisecond sample of gauges and
of DSP.LOAD. -/

namespace Sys2Proof.Machine

/-- The value of a gauge (R578): kind in bits 15 to 12 of `src`, index in bits 11 to 0. -/
def gaugeValue (src : Nat) (s : State) : Nat :=
  let i := bitsOf src 0 12
  match bitsOf src 12 4 with
  | 0 => queueDepth (i / 8) (i % 8) s
  | 1 => occupancy i s
  | 2 => (sharedFree i s).toNat
  | 3 => s.flow.cache.length
  | 4 => rd fltUsage_count s
  | 5 => if curVersion s = 0 then 0 else inflight (curVersion s) s
  | _ => 0

/-- The counters in level mode with their gauges. -/
def levelCounters (s : State) : List (Nat × Nat) :=
  (s.fab.live.filter (fun (e : Nat × Word) => decide (e.1 % 0x40000 = pcnCntCfg_mode.off) && decide (wordField e.2 0 3 = 4))).map
    (fun (e : Nat × Word) => (e.1 / 0x40000, wordField e.2 4 16))

/-- Cycles of a cluster's 16 engines in one millisecond at the nominal 1.6 G words/s of the scope table. -/
def clusterCyclesMs : Nat := 16 * 1600000

/-- DSP.LOAD of cluster c takes the millisecond that ends. -/
def sampleLoad (c : Nat) (s : State) : State :=
  wrC dspLoad_busy c (min 1023 (sget zeroDefault s.dsp.busyNow c * 1024 / clusterCyclesMs))
    (wrC dspLoad_itemsK c (min 65535 (sget zeroDefault s.dsp.endedNow c / 1000)) s)

/-- LEVEL_SAMPLE: the millisecond sample (R578; DSP.LOAD). -/
def levelSample (s : State) : State :=
  let t := foldOver (levelCounters s) (fun (e : Nat × Nat) a => countPcn e.1 (gaugeValue e.2 s) a) s
  let u := foldOver (List.range 32) sampleLoad t
  { u with dsp := { u.dsp with busyNow := [], endedNow := [] } }

def execLevelSample (s : State) : Host.Outcome State Fault Refusal := .next (onlyIf (decide (s.pwr.hold = .none)) levelSample s)

/-- A write of PCN.CNT_CTL (R579): set loads the counter that the window selects, clear zeroes it. -/
def cntCtlWrite (w : Window) (v : Word) (s : State) : State :=
  let c := winIdx w
  let key := pcnKey (rdC pcnCntSel_counter c s)
  let s1 := if wordField v 0 1 = 1 then putCtr key (rdC pcnSetLo_value c s + 2 ^ 32 * rdC pcnSetHi_value c s) s else s
  if wordField v 1 1 = 1 then putCtr key 0 s1 else s1

def execCntSet (w : Window) (v : Word) (s : State) : Host.Outcome State Fault Refusal :=
  .next (writing w .pcn (cntCtlWrite w (v ||| 1)) s)

def execCntZero (w : Window) (v : Word) (s : State) : Host.Outcome State Fault Refusal :=
  .next (writing w .pcn (cntCtlWrite w (v ||| 2)) s)

/-- Replace one window's entries of a store keyed by 4 · i + window copy. -/
def refill {α : Type} (c : Nat) (new : List (Nat × α)) (m : Sparse α) : Sparse α :=
  new.foldr (fun (e : Nat × α) a => sput a (4 * e.1 + c) e.2) (sfilter (fun k => k % 4 != c) m)

/-- A write of PCN.FREEZE (R580): every counter and wrap bit at one point. -/
def freezeWrite (w : Window) (v : Word) (s : State) : State :=
  if wordField v 0 1 = 0 then s
  else
    let isPcn (k : Nat) : Bool := k % 0x40000 == pcnCntLo_count.off
    { s with pcn := { s.pcn with
        frozen := refill (winIdx w)
          ((s.fab.counters.filter (fun (e : Nat × Nat) => isPcn e.1)).map (fun (e : Nat × Nat) => (e.1 / 0x40000, e.2))) s.pcn.frozen
        frozenWrap := refill (winIdx w)
          ((s.fab.wraps.filter (fun (e : Nat × Bool) => isPcn e.1)).map (fun (e : Nat × Bool) => (e.1 / 0x40000, e.2))) s.pcn.frozenWrap } }

def execPcnFreeze (w : Window) (v : Word) (s : State) : Host.Outcome State Fault Refusal :=
  .next (writing w .pcn (freezeWrite w (v ||| 1)) s)

/-- What an unused histogram reads as. -/
def histDefault : Nat → Hist := fun _ => {}

/-- A write of PCN.HIST_SNAP (R583). The wrap bit of the histogram stays until it is written. -/
def histSnapWrite (w : Window) (v : Word) (s : State) : State :=
  if wordField v 0 1 = 0 then s
  else
    let c := winIdx w
    let h := rdC pcnHistSel_hist c s
    let x := sget histDefault s.pcn.hists h
    { s with pcn := { s.pcn with
        snaps := sset histDefault s.pcn.snaps c x
        snapValid := sset (fun _ => false) s.pcn.snapValid c true
        snapOf := sset zeroDefault s.pcn.snapOf c h
        hists := if wordField v 1 1 = 1 then sset histDefault s.pcn.hists h { wrap := x.wrap } else s.pcn.hists } }

def execHistSnap (w : Window) (v : Word) (s : State) : Host.Outcome State Fault Refusal :=
  .next (writing w .pcn (histSnapWrite w (v ||| 1)) s)

/-- A write of PCN.HIST_STATUS: wrap clears in the snapshot and in the histogram it was taken of. -/
def histStatusWrite (w : Window) (v : Word) (s : State) : State :=
  if wordField v 0 1 = 0 then s
  else
    let c := winIdx w
    let off (x : Hist) : Hist := { x with wrap := false }
    { s with pcn := { s.pcn with
        snaps := smod histDefault s.pcn.snaps c off
        hists := smod histDefault s.pcn.hists (sget zeroDefault s.pcn.snapOf c) off } }

/-- What PCN's counter and histogram registers read as through window copy c: the live counter or the freeze bank, and the snapshot. -/
def pcnView (off c : Nat) (s : State) : Option Nat :=
  let x := sget histDefault s.pcn.snaps c
  let bin := sget zeroDefault x.bins (rdC pcnHistSel_bin c s)
  if off = pcnHistBinLo_value.off then some (bin % 2 ^ 32)
  else if off = pcnHistBinHi_value.off then some (bin / 2 ^ 32)
  else if off = pcnHistSumLo_value.off then some (x.sum % 2 ^ 32)
  else if off = pcnHistSumHi_value.off then some (x.sum / 2 ^ 32)
  else if off = pcnHistMax_value.off then some x.top
  else if off = pcnHistStatus_wrap.off then some (b2n x.wrap + 2 * b2n (sget (fun _ => false) s.pcn.snapValid c))
  else none

end Sys2Proof.Machine
end

