-- ==== Sys2Proof/Machine/Recovery.lean ====
section
/-! DEFINITION. Continuous operation (chapter 18): scrubbing and its actions, recalibration of the HBM stacks, automatic recovery. -/

namespace Sys2Proof.Machine

/-! ### Scrubbing (R517 to R523) -/

/-- The store code of a word (R518). -/
def scrubStore : ScrubWord → Nat
  | .hbm => 0
  | .buffer _ _ _ => 1
  | .cacheLine _ => 2
  | .lpm _ => 3
  | .overflow _ => 4
  | .rule _ _ => 5
  | .l2 _ => 6
  | .nextHop _ | .ecmp _ | .member _ => 7
  | .control _ => 8
  | .hallmark => 9

/-- The period of a store in ms (R518). -/
def scrubPeriod (store : Nat) : Nat := ([1500, 200, 100, 50, 50, 50, 50, 50, 20, 100] : List Nat).getD store 0

/-- Whether a word exists. -/
def scrubWordOk (x : ScrubWord) (addr : Nat) : Bool :=
  match x with
  | .hbm => true
  | .buffer p i w => decide (p < 5 ∧ i < poolCount p ∧ w < poolSize p / 8)
  | .cacheLine i => decide (i < 2 ^ 27)
  | .lpm i => decide (i < lpmPoolSize)
  | .overflow e => decide (e < ovfTotal)
  | .rule h i => decide (h < 2 ∧ i < 131072 ∧ addr = i)
  | .l2 i => decide (i < l2Total)
  | .nextHop i => decide (i < 262144)
  | .ecmp g => decide (g < 16384)
  | .member i => decide (i < 262144)
  | .control t => targetOk t
  | .hallmark => decide (addr < 524288)

/-! #### Buffers (R521) -/

/-- Change one entry of the error history. -/
def putErr (k v : Nat) (s : State) : State := { s with pools := { s.pools with errs := sset zeroDefault s.pools.errs k v } }

/-- A buffer is to be retired: at once if it is free, else when it is next free; beyond 256 of its pool it stays in use. -/
def retireDue (p i : Nat) (s : State) : State :=
  if s.pools.retireNext.contains (bufKey p i) ∨ bufOwner p i s = retiredMark then s
  else if 256 ≤ rdX scrRetired_count p 0 s then retireLimit p s
  else if bufOwner p i s = 0 then retireBuffer p i s
  else { s with pools := { s.pools with retireNext := s.pools.retireNext ++ [bufKey p i] } }

/-- The pass of the pools in progress. It is counted apart from the register, which resets clear. -/
def poolPass (s : State) : Nat := s.recov.poolPass

/-- An uncorrectable error of a buffer: the second pass with one retires it. -/
def bufferUnc (p i : Nat) (s : State) : State :=
  let k := 2 * bufKey p i
  let seen := sget zeroDefault s.pools.errs k
  if seen = 0 then putErr k (poolPass s + 1) s
  else if seen = poolPass s + 1 then s
  else retireDue p i s

/-- A correctable error of a word of a buffer: the third consecutive pass with one retires the buffer. The entry holds 4 · pass + run. -/
def bufferCorr (p i w : Nat) (s : State) : State :=
  let k := 2 * (bufKey p i * 2048 + w) + 1
  let old := sget zeroDefault s.pools.errs k
  let run := if old = 0 then 1
    else if old / 4 = poolPass s then old % 4
    else if old / 4 + 1 = poolPass s then min 3 (old % 4 + 1) else 1
  let t := putErr k (4 * poolPass s + run) s
  if run = 3 then retireDue p i t else t

/-- Frames that hold P0 cell i. -/
def framesIn (i : Nat) (s : State) : List Nat :=
  (s.frames.filter (fun (e : Nat × Frame) => e.2.live && (e.2.cells.drop e.2.freed).contains i)).map (fun e => e.1)

/-- A frame with a cell that cannot be corrected is marked bad; one already part of the way across leaves like a cut-through frame. -/
def markFrame (i : Nat) (s : State) : State :=
  modFrame i (fun f => { f with bad := true, ct := f.ct || decide (0 < f.sent) }) s

/-- The action for an uncorrectable word of a buffer (R520, R521). -/
def bufferAction (p i : Nat) (s : State) : State :=
  let t := bufferUnc p i s
  if p = 0 ∧ bufOwner p i s ≠ 0 ∧ bufOwner p i s ≠ retiredMark then foldOver (framesIn i s) markFrame t else t

/-- Whether a word belongs to an allocated buffer. -/
def inAllocated (x : ScrubWord) (s : State) : Bool :=
  match x with
  | .buffer p i _ => decide (bufOwner p i s ≠ 0 ∧ bufOwner p i s ≠ retiredMark)
  | _ => false

/-! #### HBM and the flow table (R278, R526) -/

/-- The place of record i: bucket and place. Only buckets with a listed byte and listed overflow entries can name it. -/
def placeOf (i : Nat) (s : State) : Option (Nat × Nat) :=
  let lo := bucketBase s
  let hi := reservedBase s
  let bs := ((s.flow.hbm.filter (fun c => decide (lo ≤ c.1 ∧ c.1 < hi))).map (fun c => (c.1 - lo) / 64)).eraseDups
  let inBuckets := bs.findSome? (fun b => ((List.range 4).find? (fun k => slLive (slotAt b k s) && slRec (slotAt b k s) == i)).map
    (fun k => (b, k)))
  match inBuckets with
  | some x => some x
  | none => (s.flow.ovf.find? (fun (e : Nat × Nat) => slLive e.2 && slRec e.2 == i)).map (fun e => (slBucket e.2, 4 + e.1))

/-- Whether record i's line is locked for a started item: the line stands for the record. -/
def lineLocked (i : Nat) (s : State) : Bool :=
  match lineOf i s with
  | some l => l.locked
  | none => false

/-- The action for a record of HBM. -/
def recordAction (i : Nat) (s : State) : State :=
  if lineLocked i s then s
  else match placeOf i s with
    | some x => offerOp { op := .lostRecord x.2 i, tag := x.1 } s
    | none => s

/-- A word of a Bench copy area cannot be corrected: that copy fails its digest, and Bench is replaced where it runs from it. -/
def copyLost (area : Nat) (s : State) : State :=
  let t := { s with fw := { s.fw with badCopies := area :: s.fw.badCopies.filter (· != area) } }
  onlyIf (benchPresent t && decide (t.fw.image.area = area)) (emergency 2) t

/-- The action for an HBM word in use, by its region (R253, R537). -/
def hbmAction (a : Nat) (s : State) : State :=
  let r := a - reservedBase s
  if a < bucketBase s then recordAction (a / 128) (hbmUncorrectable a s)
  else if a < reservedBase s then offerOp { op := .lostBucket, tag := (a - bucketBase s) / 64 } s
  else
    let t := hbmUncorrectable a s
    if 0x08000000 ≤ r ∧ r < 0x0A000000 then
      goldenDigestCheck ((r - 0x08000000) / 0x100000) ((r - 0x08000000) / 0x80000 % 2) false t
    else if r < 0x04000000 then
      copyLost (r / 0x02000000) t
    else if r < 0x08000000 ∨ 0x12000000 ≤ r then onlyIf (benchPresent t) (emergency 2) t
    else t

/-- The action for a flow-cache line: the record of a dirty one is lost and retired under its tag; a clean one is dropped, or stays locked
for its item, with the record read again from HBM (R276, R278). -/
def lineAction (i : Nat) (s : State) : State :=
  match lineOf i s with
  | none => s
  | some l =>
    let t := raise fchEccUncorrectable (count fchCtrs 6 0 1 s)
    if l.dirty then offerOp { op := .lostRecord l.pos i, tag := l.bucket } t
    else if l.locked then modLine i (fun l => { l with data := hbmRead (recAddr i) 128 t }) t else dropLine i t

/-! #### The actions -/

/-- The action of the recovery matrix for a word that cannot be corrected (R520). -/
def scrubAction (x : ScrubWord) (addr : Nat) (s : State) : State :=
  match x with
  | .hbm => hbmAction addr s
  | .buffer p i _ => bufferAction p i s
  | .cacheLine i => lineAction i s
  | .lpm i => raise scrTableEntryLost (lpmStat 3 (putPool i 0 s))
  | .overflow e => offerOp { op := .lostEntry e, tag := slBucket (ovfAt e s) } s
  | .rule h i => raise scrClsRulePoisoned (putHalf h { half h s with poisoned := insertRising i (half h s).poisoned } s)
  | .l2 i => raise scrTableEntryLost (enqueueL2 (.lost i) (putL2 i { l2At i s with bad := (l2At i s).valid } s))
  | .nextHop i => raise scrTableEntryLost (putNh i 0 s)
  | .ecmp g => raise scrTableEntryLost (putGroup g 0 s)
  | .member i => raise scrTableEntryLost (putMember i 0 s)
  | .control t => if (tgt t s).st = .on then faultEffects t (enterFault t 3 s) else s
  | .hallmark => if rd hmkStatus_state s = 1 then hallmarkFails addr s else s

/-- A word that can be corrected (R517, R521). -/
def scrubCorrected (x : ScrubWord) (addr : Nat) (s : State) : State :=
  let t := eccCorrected (scrubStore x) s
  match x with
  | .hbm => raiseC hbmEccCorrected (stackOf addr t) (satX hbmEccCorr_count 0 (stackOf addr t) 1 t)
  | .cacheLine _ => raise fchEccCorrected (count fchCtrs 5 0 1 t)
  | .buffer p i w => bufferCorr p i w t
  | _ => t

/-- A word that cannot be corrected (R517). -/
def scrubUncorrectable (x : ScrubWord) (addr : Nat) (s : State) : State :=
  scrubAction x addr (eccUncorrectable (scrubStore x) addr (inAllocated x s) s)

/-- A pass of a store ends (R517). -/
def passEnds (store : Nat) (s : State) : State :=
  let d := s.tim.raw - sget zeroDefault s.recov.passRaw store
  let t := wrC scrScrubStatus_lastPassMs store (min 65535 (d / rawPerMs)) (incX scrScrubStatus_passes 0 store
    { s with recov := { s.recov with
        passRaw := sset zeroDefault s.recov.passRaw store s.tim.raw
        poolPass := s.recov.poolPass + b2n (decide (store = 1)) } })
  if scrubPeriod store * rawPerMs < d then raise scrScrubOverrun t else t

/-- SCRUB_READ: one word of a store, and whether it ends the pass. -/
def scrubRead (x : ScrubWord) (addr : Nat) (o : EccOutcome) (last : Bool) (s : State) : State :=
  let t := match o with
    | .clean => s
    | .corrected => scrubCorrected x addr s
    | .uncorrectable => scrubUncorrectable x addr s
  if last then passEnds (scrubStore x) t else t

/-- The HBM regions in use end after the reserved region of 1 GiB (R30, R516). -/
def hbmInUse (s : State) : Nat := reservedBase s + 0x40000000

def execScrubRead (x : ScrubWord) (addr : Nat) (o : EccOutcome) (last : Bool) (s : State) : Host.Outcome State Fault Refusal :=
  if x = .hbm ∧ hbmInUse s ≤ addr then .fault .hbmAbsent
  else guarded (scrubWordOk x addr) (onlyIf (active s) (scrubRead x addr o last) s)

/-! ### HBM recalibration (R524) -/

/-- HBM_RECAL: stack k is retrained; the third failure in a row puts it in FAULT. -/
def hbmRecal (k : Nat) (ok : Bool) (s : State) : State :=
  let n := if ok then 0 else sget zeroDefault s.recov.recal k + 1
  let t := { s with recov := { s.recov with recal := sset zeroDefault s.recov.recal k n } }
  if 3 ≤ n then hbmStackFault k 0x11 t else t

def execHbmRecal (k : Nat) (ok : Bool) (s : State) : Host.Outcome State Fault Refusal :=
  guarded (decide (k < 4)) (onlyIf (chanOn .hbm k s) (hbmRecal k ok) s)

/-! ### Automatic recovery (R525) -/

/-- Whether a target is one that the device recovers (R525). -/
def recoverable (t : Target) : Bool :=
  match t.block, (normTarget t).chan with
  | .prs, some _ | .prt, some _ | .tie, some _ | .dsp, some _ | .fen, some _ | .tmg, some _ | .tsu, some _ => true
  | .swc, none => true
  | _, _ => false

/-- The block's bit in RECOVER_LO or RECOVER_HI, in effect. -/
def recoverEnabled (b : Block) (s : State) : Bool :=
  let k := blockCode b
  if k < 32 then bit (cf scrRecoverLo_enable s) k else bit (cf scrRecoverHi_enable s) (k - 32)

/-- The frame that port p is sending is lost; what has yet to cross is discarded as it does. -/
def clearTx (p : Nat) (s : State) : State :=
  match frontEg p s with
  | none => s
  | some e =>
    if !e.started then s
    else if crossedAll (frame e.id s) then leaveEg e.id p s
    else modEg p e.id (fun x => { x with early := true }) s

/-- What recovery discards (R525). -/
def recoverLoss (t : Target) (s : State) : State :=
  match t.block, (normTarget t).chan with
  | .prs, some c => dropParsing c s
  | .prt, some p => clearTx p (clearRx p s)
  | .dsp, some c => dspDiscard false c (dspDiscard true c s)
  | .fen, some e => fenForced e s
  | .swc, none => swcStarting (dropQueued s)
  | .tsu, some c => clearChanState .tsu c s
  | _, _ => s

/-- Recoveries of a target within the last hour. -/
def recentRecoveries (t : Target) (s : State) : List Nat :=
  (sget (fun _ => []) s.recov.recovered (tgtKey t)).filter (fun r => decide (s.tim.raw - r < 3600 * rawSecond))

/-- The recovery of a target: work discarded, registers, enable and counters kept, then the OFF rows at once. -/
def recoverTarget (t : Target) (s : State) : State :=
  let s1 := recoverLoss t s
  if decide (t.block = .fen) && !fenDrained ((normTarget t).chan.getD 0) s1 then s1
  else
    let h := s1.tim.raw :: recentRecoveries t s1
    let s2 := { s1 with recov := { s1.recov with recovered := sset (fun _ => []) s1.recov.recovered (tgtKey t) h } }
    let s3 := noteReset t true 0 true (modTgt t (fun x => { x with st := .off, faultCode := 0 }) s2)
    offRows t (raise scrAutoRecovered (sat1 scrRecoverCount_recovered s3))

/-- The limit is reached: the target stays in FAULT until the host acts. -/
def recoverGivenUp (t : Target) (s : State) : State :=
  raise scrAutoRecoverFailed (sat1 scrRecoverCount_failed
    { s with recov := { s.recov with given := s.recov.given ++ [tgtKey t] } })

/-- AUTO_RECOVER: 10 ms after a target entered FAULT with code 3. -/
def autoRecover (t : Target) (s : State) : State :=
  if (tgt t s).st ≠ .fault ∨ (tgt t s).faultCode ≠ 3 ∨ recoverEnabled t.block s = false ∨ resetBusy t s = true
      ∨ s.recov.given.contains (tgtKey t) = true then s
  else if 3 ≤ (recentRecoveries t s).length then recoverGivenUp t s
  else recoverTarget t s

def execAutoRecover (t : Target) (s : State) : Host.Outcome State Fault Refusal :=
  guarded (targetOk t) (onlyIf (recoverable t) (autoRecover t) s)

end Sys2Proof.Machine
end

