-- ==== Sys2Proof/Machine/RegRead.lean ====
section
/-! DEFINITION. What a read of a register returns and does: the common header (R114), views of state kept outside the register file,
64-bit values read in two words (R7, R183), and the reads that load or pop. -/

namespace Sys2Proof.Machine

/-! ### Which copy of a register an access reaches -/

/-- The copy of a register that a selector of window copy `c` names. -/
def selCopy (b : Block) (off c chan : Nat) (s : State) : Nat :=
  match b with
  | .bnc => rdC bncQueueSel_queue c s
  | .tie => rdC tieOwnSel_entry c s
  | .l2t => rdC l2tPortSel_port c s
  | .flt => if off = fltProgTimeout_timeout.off then rdC fltProgSel_index c s else rdC fltKeySel_index c s
  | .dsp => rdC dspEntrySel_index c s
  | .bpm => rdC bpmReqSel_requester c s
  | .swc => rdC swcQSel_dest c s
  | .tmg => 8 * chan + rdC tmgClassSel_class c s
  | .pcn => if off < 0x3A000 then rdC pcnCntSel_counter c s else rdC pcnHistSel_hist c s
  | .scr => rdC scrStoreSel_store c s
  | _ => 0

/-- The copy of a register that an access through a window reaches (R111). -/
def copyOf (w : Window) (b : Block) (r : RegSpec) (off : Nat) (s : State) : Nat :=
  match r.scope with
  | .glob => 0
  | .chan => selChan w b s
  | .win => winIdx w
  | .sel => selCopy b off (winIdx w) (selChan w b s) s

/-- Whether the register belongs to a channel: its own, or one that a window register or a selector reaches into (TMG). -/
def ofChannel (b : Block) (r : RegSpec) (off : Nat) : Bool :=
  decide (r.scope = .chan) || (decide (b = .tmg) && (decide (r.scope = .sel) || decide (0x300E4 ≤ off ∧ off ≤ 0x300E8)))

/-- Whether an access reaches a fused-off channel (R2). -/
def reachesFused (w : Window) (b : Block) (r : RegSpec) (off : Nat) (s : State) : Bool :=
  ofChannel b r off && isFused b (selChan w b s) s

/-! ### Counters (R183) -/

/-- The counter arrays: offset of CNT0_LO, how many, CNT_CLEAR, CNT_WRAP. -/
structure CtrRegs where
  lo : Nat
  n : Nat
  clear : Nat
  wrap : Nat
  deriving DecidableEq, Repr

/-- Every array of counters with CNT_CLEAR and CNT_WRAP. -/
def ctrRegs : List CtrRegs :=
  [⟨0x0D000, 24, 0x0C0A0, 0x0C0A4⟩, ⟨0x11000, 10, 0x100D0, 0x100D4⟩, ⟨0x11080, 8, 0x100D8, 0x100DC⟩, ⟨0x13000, 9, 0x12090, 0x12094⟩,
   ⟨0x1C0C0, 16, 0x1C140, 0x1C144⟩, ⟨0x20080, 8, 0x200C0, 0x200C4⟩, ⟨0x25000, 16, 0x24160, 0x24164⟩, ⟨0x27000, 13, 0x26090, 0x26094⟩,
   ⟨0x2C180, 6, 0x2C1B0, 0x2C1B4⟩, ⟨0x2E000, 8, 0x2D130, 0x2D134⟩, ⟨0x2E080, 8, 0x2D138, 0x2D13C⟩, ⟨0x31000, 4, 0x30150, 0x30154⟩,
   ⟨0x31080, 5, 0x30158, 0x3015C⟩, ⟨0x360C0, 5, 0x360B0, 0x360B4⟩]

/-- The counter array whose LO word stands at an offset. -/
def loOf (off : Nat) : Option CtrRegs :=
  ctrRegs.find? (fun k => decide (k.lo ≤ off ∧ off < k.lo + 8 * k.n) && decide ((off - k.lo) % 8 = 0))

/-- The counter array with its CNT_CLEAR at an offset. -/
def clearOf (off : Nat) : Option CtrRegs := ctrRegs.find? (fun k => k.clear == off)

/-- The counter array with its CNT_WRAP at an offset. -/
def wrapOf (off : Nat) : Option CtrRegs := ctrRegs.find? (fun k => k.wrap == off)

/-- The live wrap bit of a counter. -/
def wrapBit (key : Nat) (s : State) : Bool := sget (fun _ => false) s.fab.wraps key

/-- The wrap bit of a counter as a window sees it: as it was at the window's last read of the LO word since the bit was cleared (R157, R183,
R579). -/
def wrapSeen (w : Window) (key : Nat) (s : State) : Bool := (sget (fun _ => none) s.fab.wrapSnap (winKey w key)).getD false

/-- What CNT_WRAP of a counter array reads as. -/
def wrapView (w : Window) (k : CtrRegs) (c : Nat) (s : State) : Nat :=
  (List.range k.n).foldl (fun a i => if wrapSeen w (rkey (k.lo + 8 * i) c) s then setBit a i else a) 0

/-- A write of CNT_CLEAR: the named counters are zero at one point. -/
def clearCounters (k : CtrRegs) (c : Nat) (v : Word) (s : State) : State :=
  foldOver ((List.range k.n).filter (fun i => v.toNat.testBit i)) (fun i a => putCtr (rkey (k.lo + 8 * i) c) 0 a) s

/-- Forget every window's snapshot of a wrap bit. -/
def dropWrapSnaps (key : Nat) (s : State) : State :=
  { s with fab := { s.fab with wrapSnap := sfilter (fun x => x / 4 != key) s.fab.wrapSnap } }

/-- Clear one wrap bit. -/
def clearWrap (key : Nat) (s : State) : State := dropWrapSnaps key (putWrap key false s)

/-- A write of CNT_WRAP. -/
def clearWraps (k : CtrRegs) (c : Nat) (v : Word) (s : State) : State :=
  foldOver ((List.range k.n).filter (fun i => v.toNat.testBit i)) (fun i a => clearWrap (rkey (k.lo + 8 * i) c) a) s

/-! ### Values read in two words (RS) -/

/-- A PCN counter and its wrap bit as a window sees it, the freeze bank while frozen is 1 (R580). -/
def pcnValue (c : Nat) (s : State) : Nat :=
  let i := rdC pcnCntSel_counter c s
  if rdC pcnCntSel_frozen c s = 1 then sget zeroDefault s.pcn.frozen (4 * i + c) else sget zeroDefault s.fab.counters (pcnKey i)

/-- What PCN.CNT_STATUS reads as through window copy `c`. -/
def pcnWrap (w : Window) (s : State) : Bool :=
  let c := winIdx w
  let i := rdC pcnCntSel_counter c s
  if rdC pcnCntSel_frozen c s = 1 then sget (fun _ => false) s.pcn.frozenWrap (4 * i + c) else wrapSeen w (pcnKey i) s

/-- The value whose low word is read at an offset, as its low and high word, for copy `x` of channel `ch` and window copy `c`. The high
word stands at the next offset. -/
def wideValue (off x ch c : Nat) (s : State) : Option (Nat × Nat) :=
  let two (n : Nat) : Option (Nat × Nat) := some (n % 2 ^ 32, n / 2 ^ 32)
  if (loOf off).isSome then two (sget zeroDefault s.fab.counters (rkey off x))
  else if off = lanPatErrLo_count.off ∨ off = lanPatBitsLo_count.off then two (sget zeroDefault s.fab.counters (rkey off ch))
  else if off = pcnCntLo_count.off then two (pcnValue c s)
  else if off = tmgVtimeLo_value.off ∨ off = tmgTagsLo_value.off then (tmgView off c ch s).bind two
  else if off = timPpsInTsSec_sec.off ∨ off = tieLinkDelayLo_value.off then some ((reg off x s).toNat, (reg (off + 4) x s).toNat)
  else if off = tmkOpTimeLo_opTime.off then two (s.tmk.opTime % 2 ^ 48)
  else none

/-- The key of the counter whose LO word is at an offset, for its wrap snapshot. -/
def wrapKeyOf (off x c : Nat) (s : State) : Option Nat :=
  if (loOf off).isSome ∨ off = lanPatErrLo_count.off ∨ off = lanPatBitsLo_count.off then some (rkey off x)
  else if off = pcnCntLo_count.off ∧ rdC pcnCntSel_frozen c s = 0 then some (pcnKey (rdC pcnCntSel_counter c s))
  else none

/-- Read a low word: the window captures the high word and the wrap bit of the same moment. -/
def readWide (w : Window) (off x : Nat) (lo hi : Nat) (s : State) : State :=
  let s1 := { s with fab := { s.fab with
    hiSnap := sset (fun _ => 0) s.fab.hiSnap (winKey w (rkey (off + 4) x)) (BitVec.ofNat 32 hi) } }
  let s2 := match wrapKeyOf off x (winIdx w) s with
    | some k => { s1 with fab := { s1.fab with wrapSnap := sset (fun _ => none) s1.fab.wrapSnap (winKey w k) (some (wrapBit k s)) } }
    | none => s1
  putRead w (BitVec.ofNat 32 lo) s2

/-- The high word captured by a window. -/
def hiWord (w : Window) (off x : Nat) (s : State) : Word := sget (fun _ => 0) s.fab.hiSnap (winKey w (rkey off x))

/-! ### Views -/

/-- What SYS, EVT, PWR and SWC registers show of state kept elsewhere. -/
def basicView (off c : Nat) (s : State) : Option Nat :=
  let sig := (signallingGs s).foldl setBit 0
  if off = sysPartId_part.off then some (partNumber s + 0xA0 * 65536)
  else if off = sysPresentGroups_groups.off then some (match s.variant with | .kg4256 => 0xFFFFFFFF | .kg4128 => 0xFFFF)
  else if off = sysPresentOther_tieLinks.off then some (match s.variant with | .kg4256 => 0xFFF | .kg4128 => 0x30F)
  else if off = evtSuppCount_count.off then some (min 0xFFFF (sget zeroDefault s.evt.supp (rdC evtSuppSel_source c s)))
  else if off = evtVecActiveLo_active.off then some (s.evt.vecActive % 2 ^ 32)
  else if off = evtVecActiveHi_active.off then some (s.evt.vecActive / 2 ^ 32)
  else if off = evtSummaryLo_signalling.off then some (sig % 2 ^ 32)
  else if off = evtSummaryHi_signalling.off then some (sig / 2 ^ 32)
  else if evtAutoMask_autoMask.off ≤ off ∧ off < evtAutoMask_autoMask.off + 192 then
    some (autoReg ((off - evtAutoMask_autoMask.off) / 4) s).toNat
  else if off = swcCtCfg_withdrawn.off then some (withBits (reg off 0 s).toNat 8 1 (b2n s.pwr.ctWithdrawn))
  else none

/-- What TIM, TMK and LAN registers show of state kept elsewhere; `ch` is the channel reached. -/
def unitView (w : Window) (off ch : Nat) (s : State) : Option Nat :=
  if off = timStatus_epoch.off then some (withBits (reg off 0 s).toNat 16 16 s.tim.epoch)
  else if off = timRate_rate.off then some (unsigned 32 s.tim.rate)
  else if off = timServoIntegral_integral.off then some (unsigned 32 (ppbToRate s.tim.integral))
  else if off = timCaptStatus_fill.off then some (withBits (withBits (reg off ch s).toNat 3 7 (capt (ch - 8) s).fifo.length) 0 1 (b2n (capt (ch - 8) s).level))
  else if off = tmkState_powerCycle.off then some (s.tmk.powerCycle % 2 ^ 24 + 2 ^ 24 * b2n s.tmk.noFlash)
  else if off = tmkSeqNext_sequence.off then some s.tmk.seqNext
  else if off = tmkFlushSeq_sequence.off then some s.tmk.flushSeq
  else if off = tmkTokens_global.off then some (400 - s.tmk.globalUsed + 65536 * s.tmk.fifo.length)
  else if off = tmkMeshHead_arrivals.off then some s.tmk.meshHead
  else if off = lanPatStatus_chkLock.off then
    some ((reg off ch s).toNat % 2 + 2 * b2n (wrapSeen w (patErrKey ch) s) + 4 * b2n (wrapSeen w (patBitsKey ch) s))
  else if off = tieLinkCredits_rxGranted.off then some (withBits (reg off ch s).toNat 16 16 (rxGranted ch s))
  else none

/-- PRT.RED_SEQ: the pair's counter at its side A port, zero elsewhere (R175). -/
def pairSeq (p : Nat) (s : State) : Nat :=
  if cfC prtRedCfg_redMode p s ≠ 0 ∧ cfC prtRedCfg_side p s = 0 then rdC prtRedSeq_seq p s else 0

/-- What a register shows beside its stored value. `x` is its copy, `ch` the channel and `c` the window copy. -/
def viewOf (b : Block) (w : Window) (off x ch : Nat) (s : State) : Option Nat :=
  let c := winIdx w
  match wrapOf off with
  | some k => some (wrapView w k x s)
  | none =>
    match b with
    | .sys | .evt => basicView off c s
    | .lan | .tim | .tmk => unitView w off ch s
    | .prt => if off = prtRedSeq_seq.off then some (pairSeq ch s) else none
    | .tie => if off = tieOwnEntry_owner.off then ownView off c s else unitView w off ch s
    | .hmk | .bnc | .hif => firmwareView off c s
    | .cls => match clsView off s with | some v => some v | none => indView off s
    | .flt | .fch => flowView off s
    | .dsp => dspView off c ch s
    | .fen => engView off ch s
    | .mcs => mcsView off c ch s
    | .bpm => poolView off s
    | .swc => match swcView off c s with | some v => some v | none => basicView off c s
    | .tmg => tmgView off c ch s
    | .pcn => if off = pcnCntStatus_wrap.off then some (b2n (pcnWrap w s)) else pcnView off c s
    | _ => none

/-! ### The common header (R114) -/

/-- BLOCK_STATE of a target. -/
def blockStateWord (t : Target) (s : State) : Nat :=
  let x := tgt t s
  let code : TState → Nat
    | .off => 0 | .starting => 1 | .on => 2 | .draining => 3 | .held => 4 | .fault => 5
  code x.st + 8 * b2n (decide (x.st = .draining) && x.enable) + 256 * x.faultCode + 65536 * x.starts + 2 ^ 24 * b2n x.drainForced

/-- COMMIT of a block. -/
def commitWord (b : Block) (s : State) : Nat :=
  let c := commitOf b s
  16 * c.status + 64 * b2n c.late + 128 * b2n c.shadowRefused + 256 * c.refusal + 65536 * c.count

/-- The word of a header offset `o` of block b; none where it is reserved. -/
def headerWord (w : Window) (b : Block) (o : Nat) (s : State) : Option Nat :=
  let t := selTarget w b s
  let fused := tgtFused t s
  let k := (o - 0x20) / 16
  if o = 0x00 then some (blockCode b + 256 * pageCount b + 65536)
  else if o = 0x04 then some 0x100
  else if o = 0x08 then some ((latch w b s).chan + 2 ^ 30 * b2n (latch w b s).selError + 2 ^ 31 * b2n (latch w b s).whole)
  else if o = 0x0C then some (chanCount b + 65536 * presentCount s.variant b)
  else if o = 0x10 then some (if fused then 0 else b2n (tgt t s).enable + 16 * rdC (modeFld b) (modeCopy t) s)
  else if o = 0x14 then some (if fused then 0 else blockStateWord t s)
  else if o = 0x18 ∨ o = 0x1C ∨ o = 0x78 then some (reg (blockBase b + o) 0 s).toNat
  else if 0x20 ≤ o ∧ o < 0x70 ∧ k < causeCount b then
    some (if o % 16 = 0 then (causeReg (firstG b + k) s).toNat
      else if o % 16 = 4 then (maskReg (firstG b + k) s).toNat
      else if o % 16 = 8 then 0
      else (reg (blockBase b + o) 0 s).toNat)
  else if o = 0x70 then some (commitWord b s)
  else if o = 0x74 then some (if fused then 0 else 65536 * b2n (resetBusy t s))
  else if o = 0x7C then some ((ownerOf b s).owner + 256 * (ownerOf b s).denied)
  else none

/-! ### The read -/

/-- A read that R106 answers with zero. -/
def readNothing (w : Window) (off : Nat) (s : State) : State := putRead w 0 (accessError w off false s)

/-- The reads with an effect of their own: loads, pops, the time snapshot, the rings, buffer data. -/
def readBehaviour (w : Window) (b : Block) (off : Nat) : Option (State → State) :=
  match b with
  | .tim =>
    if off = timTimeSecLo_value.off then some (timeSnapshot w)
    else if off = timCaptSecLo_value.off then some (captPop w) else none
  | .tsu => if off = tsuTxSecLo_value.off then some (txTsPop w) else none
  | .lpm =>
    if off = lpmNodeDataLo_data.off then some (nodeLoad w)
    else if off = lpmNhData0_data.off then some (nhLoad w) else none
  | .tmg => if off = tmgGclDataLo_interval.off then some (gclLoad w) else none
  | .tmk =>
    if off = tmkRingData_data.off then some (ringRead w false)
    else if off = tmkMeshData_data.off then some (ringRead w true) else none
  | .bpm => if off = bpmBufData_data.off then some (bufAccess w false 0) else none
  | _ => none

/-- Whether a TIM register is of the other kind of channel: triggers are channels 0 to 7, captures 8 to 11. -/
def otherKind (b : Block) (off ch : Nat) : Bool :=
  decide (b = .tim) && ((decide (timTrigCfg_mode.off ≤ off ∧ off < timCaptCfg_edge.off) && decide (8 ≤ ch))
    || (decide (timCaptCfg_edge.off ≤ off) && decide (ch < 8)))

/-- Read a register of the tables. -/
def readReg (w : Window) (b : Block) (r : RegSpec) (off : Nat) (s : State) : State :=
  let x := copyOf w b r off s
  let ch := selChan w b s
  if reachesFused w b r off s || otherKind b off ch then putRead w 0 s
  else match readBehaviour w b off with
    | some f => f s
    | none =>
      match wideValue off x ch (winIdx w) s with
      | some (lo, hi) => readWide w off x lo hi s
      | none =>
        if (wideValue (off - 4) x ch (winIdx w) s).isSome then putRead w (hiWord w off x s) s
        else match viewOf b w off x ch s with
          | some v => putRead w (BitVec.ofNat 32 v) s
          | none => putRead w (reg off x s) s

/-- The pending-bit array of MSI-X (R131). -/
def msixPba (off : Nat) (s : State) : Nat := if off = 0x3CC00 then s.evt.msixPend % 2 ^ 32 else s.evt.msixPend / 2 ^ 32

/-- A read of a window offset (R105 to R107). -/
def readAt (w : Window) (off : Nat) (s : State) : State :=
  match blockOfPage (off / 0x1000) with
  | none => readNothing w off s
  | some b =>
    if b = .hif ∧ 0x3C800 ≤ off ∧ off < 0x3CC08 then
      (if w = .b then readNothing w off s
       else if off < 0x3CC00 then putRead w (reg off 0 s) s else putRead w (BitVec.ofNat 32 (msixPba off s)) s)
    else if off < blockBase b + 0x80 then
      match headerWord w b (off - blockBase b) s with
      | some v => putRead w (BitVec.ofNat 32 v) s
      | none => readNothing w off s
    else match pendAt b off with
      | some (k, i) => putRead w (sget (fun _ => 0) s.evt.pend (16 * (firstG b + k) + i)) s
      | none =>
        match findReg off with
        | none => readNothing w off s
        | some r => readReg w b r off s

end Sys2Proof.Machine
end

