-- ==== Sys2Proof/Machine/RegWrite.lean ====
section
/-! DEFINITION. What a write of a register does, through a window or Hallmark's private path: the rules of R106, R107, R98 and R116
first, then the common header, then the register's own behaviour, else its stored fields (R7). -/

namespace Sys2Proof.Machine

/-- A refused value: the write is ignored and handled as R106 states, unless `ok`. -/
def checked (ok : Bool) (w : Window) (off : Nat) (f : State → State) (s : State) : State :=
  if ok then f s else accessError w off true s

/-- Ignore a write silently unless `ok`. -/
def whenOk (ok : Bool) (f : State → State) (s : State) : State := if ok then f s else s

/-- The stored fields of an array element or of the copy that the access reaches. -/
def plain (w : Window) (b : Block) (r : RegSpec) (off : Nat) (v : Word) (s : State) : State :=
  storeFields b off (copyOf w b r off s) v s

/-- The index of an array element. -/
def indexOf (r : RegSpec) (off : Nat) : Nat := (off - r.off) / r.stride

/-! ### Blocks with registers that do more than store -/

def writeEvt (w : Window) (r : RegSpec) (off : Nat) (v : Word) (s : State) : State :=
  if off = evtSuppSel_source.off then checked (decide (wordField v 0 11 ≤ 1535)) w off (plain w .evt r off v) s
  else if off = evtSuppCount_count.off then suppCountWrite w v s
  else if off = evtVecRearm_vector.off then vecRearm (wordField v 0 6) s
  else if r.off = evtAutoMask_autoMask.off then autoMaskWrite (indexOf r off) v s
  else if r.off = evtRoute_hostVector.off then resignal (plain w .evt r off v s)
  else plain w .evt r off v s

def writeBnc (w : Window) (r : RegSpec) (off : Nat) (v : Word) (s : State) : State :=
  if off = bncWdogCfg_timeoutMs.off then
    checked (decide (10 ≤ wordField v 0 14 ∧ wordField v 0 14 ≤ 10000)) w off (plain w .bnc r off v) s
  else if off = bncWdogKick_key.off then notThroughH w off (wdogKick w v) s
  else plain w .bnc r off v s

def writePwr (w : Window) (r : RegSpec) (off : Nat) (v : Word) (s : State) : State :=
  if off = pwrRailStatus_failValid.off then
    onlyIf (wordField v 19 1 = 1) (fun s => { s with pwr := { s.pwr with failLatch := none } }) (plain w .pwr r off v s)
  else if r.off = pwrPaceMargin_margin.off then paceLowClear (indexOf r off) v s
  else plain w .pwr r off v s

def writeLan (w : Window) (r : RegSpec) (off : Nat) (v : Word) (s : State) : State :=
  let l := selChan w .lan s
  if off = lanPatCtl_inject.off then patCtlWrite l v s
  else if off = lanEyeCtl_start.off then eyeCtlWrite w l v s
  else if off = lanPatStatus_chkLock.off then
    onlyIf (wordField v 2 1 = 1) (clearWrap (patBitsKey l)) (onlyIf (wordField v 1 1 = 1) (clearWrap (patErrKey l)) s)
  else plain w .lan r off v s

def writeCls (w : Window) (r : RegSpec) (off : Nat) (v : Word) (s : State) : State :=
  if off = clsDrainCtl_drainLimitMs.off then drainCtlWrite w v s
  else if off = clsStageCtl_mode.off then stageCtlWrite v s
  else if off = clsStageAddr_index.off then stageAddrWrite v s
  else if off = clsStageCount_ruleCount.off then stageCountWrite v s
  else if r.off = clsStageData_data.off then stageDataWrite (indexOf r off) v s
  else if off = clsSteerCfg_steerTable.off then steerCfgWrite w v s
  else if off = clsIndData_value.off then indDataWrite v s
  else plain w .cls r off v s

def writeL2t (w : Window) (r : RegSpec) (off : Nat) (v : Word) (s : State) : State :=
  if off = l2tOp_op.off then l2OpWrite w v s
  else if off = l2tStatClear_clear.off then statClear .l2t v s
  else plain w .l2t r off v s

/-- The largest index of an LPM address register. -/
def lpmLimit (off : Nat) : Option Nat :=
  if off = lpmNodeAddr_index.off then some 3145728
  else if off = lpmNhAddr_index.off then some 262144
  else if off = lpmEcmpAddr_index.off then some 16384
  else if off = lpmMemberAddr_index.off then some 262144
  else none

def writeLpm (w : Window) (r : RegSpec) (off : Nat) (v : Word) (s : State) : State :=
  match lpmLimit off with
  | some n => checked (decide (wordField v 0 22 < n)) w off (plain w .lpm r off v) s
  | none =>
    if off = lpmNodeDataHi_data.off then nodeHiWrite w v s
    else if off = lpmFence_done.off then lpmFenceWrite v s
    else if off = lpmNhData3_data.off then nhWrite w v s
    else if off = lpmEcmpData_data.off then ecmpWrite w v s
    else if off = lpmMemberData_data.off then memberWrite w v s
    else if r.off = lpmSmacHi_mac.off then smacHiWrite (indexOf r off) v s
    else if off = lpmStatClear_clear.off then statClear .lpm v s
    else plain w .lpm r off v s

/-- FLT: a write of CMDQ_PROD here brings no entry bytes, so the entries handed over read as nothing. -/
def writeFlt (w : Window) (r : RegSpec) (off : Nat) (v : Word) (s : State) : State :=
  let c := winIdx w
  if off = fltBar2Window_window.off then
    checked (bar2Ok (wordField v 0 9) s) w off (wr fltBar2Window_window (wordField v 0 9)) s
  else if off = fltCmdqBaseLo_addr.off ∨ off = fltCmdqBaseHi_addr.off then
    whenOk (decide (rdC fltCmdqCfg_enable c s = 0)) (plain w .flt r off v) s
  else if off = fltExpqBaseLo_addr.off ∨ off = fltExpqBaseHi_addr.off then
    whenOk (decide (rdC fltExpqCfg_enable c s = 0)) (plain w .flt r off v) s
  else if off = fltCmdqCfg_enable.off then cmdqCfgWrite c v s
  else if off = fltExpqCfg_enable.off then expqCfgWrite c v s
  else if off = fltCmdqProd_index.off then cmdqProdWrite c v [] s
  else plain w .flt r off v s

def writeMcs (w : Window) (r : RegSpec) (off : Nat) (v : Word) (s : State) : State :=
  if off = mcsWordAddr_word.off then mcsWordLoad w v s
  else if r.off = mcsWordData_data.off ∨ off = mcsProgEntry_entry.off then accessError w off true s
  else plain w .mcs r off v s

/-- BPM: fall_up and window of the device's own requesters 0 to 35 are read-only. -/
def writeBpm (w : Window) (r : RegSpec) (off : Nat) (v : Word) (s : State) : State :=
  if off = bpmAlloc_size.off then allocWrite w v s
  else if off = bpmFreeHandle_handle.off then freeWrite w v s
  else if off = bpmBufData_data.off then bufAccess w true v s
  else if off = bpmReqCfg_window.off then
    let q := rdC bpmReqSel_requester (winIdx w) s
    plain w .bpm r off (if q < 36 then wordWith v 2 3 (wordField (reg bpmReqCfg_window.off q s) 2 3) else v) s
  else plain w .bpm r off v s

def writeTmg (w : Window) (r : RegSpec) (off : Nat) (v : Word) (s : State) : State :=
  let d := selChan w .tmg s
  if off = tmgGateStatus_pending.off then gateStatusWrite d v s
  else if off = tmgGclDataHi_gates.off then gclWrite w d v s
  else if off = tmgMeterOp_busy.off then meterOpWrite w v s
  else plain w .tmg r off v s

/-- TIM: trigger registers on channels 0 to 7, capture registers on 8 to 11; a trigger's settings are kept while it is armed (R460). -/
def writeTim (w : Window) (r : RegSpec) (off : Nat) (v : Word) (s : State) : State :=
  let c := selChan w .tim s
  if off = timRate_rate.off then rateWrite w v s
  else if off = timStepCtl_busy.off then stepCtlWrite w v s
  else if off = timServoSampleHi_ns.off then servoSampleWrite w v s
  else if timTrigCfg_mode.off ≤ off ∧ off < timCaptCfg_edge.off then
    whenOk (decide (c < 8)) (fun s =>
      if off = timTrigCtl_armed.off then trigCtlWrite c v s
      else checked (decide (rdC timTrigCtl_armed c s = 0)) w off (plain w .tim r off v) s) s
  else if timCaptCfg_edge.off ≤ off then whenOk (decide (8 ≤ c)) (plain w .tim r off v) s
  else plain w .tim r off v s

def writeTmk (w : Window) (r : RegSpec) (off : Nat) (v : Word) (s : State) : State :=
  if off = tmkFlushSeq_sequence.off then notThroughH w off (fun s => { s with tmk := { s.tmk with flushSeq := v.toNat } }) s
  else if off = tmkWrCtl_result.off then wrCtlWrite w v s
  else if off = tmkFlashReport_bad.off then notThroughH w off (onlyIf (decide (wordField v 8 1 = 1)) reportBad) s
  else if off = tmkStatClear_clear.off then statClear .tmk v s
  else whenOk (decide (off ≠ tmkRecEn_enable.off + 4 * 43)) (plain w .tmk r off v) s

def writePcn (w : Window) (r : RegSpec) (off : Nat) (v : Word) (s : State) : State :=
  let c := winIdx w
  if off = pcnCntCtl_set.off then cntCtlWrite w v s
  else if off = pcnFreeze_go.off then freezeWrite w v s
  else if off = pcnHistSnap_snap.off then histSnapWrite w v s
  else if off = pcnHistStatus_wrap.off then histStatusWrite w v s
  else if off = pcnCntStatus_wrap.off then
    let i := rdC pcnCntSel_counter c s
    if wordField v 0 1 = 0 then s
    else if rdC pcnCntSel_frozen c s = 1 then
      clearWrap (pcnKey i) { s with pcn := { s.pcn with frozenWrap := sset (fun _ => false) s.pcn.frozenWrap (4 * i + c) false } }
    else clearWrap (pcnKey i) s
  else plain w .pcn r off v s

/-- HIF: a write of PROD here brings no entry bytes. -/
def writeHif (w : Window) (r : RegSpec) (off : Nat) (v : Word) (s : State) : State :=
  notThroughB w off (fun s =>
    let m := indexOf r off
    if r.off = hifMboxCfg_enable.off then mboxCfgWrite m v s
    else if r.off = hifMboxProd_index.off then mboxProdWrite m v [] s
    else if r.off = hifMboxBaseLo_addr.off ∨ r.off = hifMboxBaseHi_addr.off then mboxBaseCheck m (plain w .hif r off v s)
    else plain w .hif r off v s) s

/-- A written value of a field that is ignored unless `ok`: the field keeps what it holds (R8). -/
def keepField (f : Fld) (ok : Bool) (v : Word) (s : State) : Word := if ok then v else wordWith v f.lo f.w (rd f s)

def writeMio (w : Window) (r : RegSpec) (off : Nat) (v : Word) (s : State) : State :=
  if off = mioQspiCfg_clk.off then
    notThroughH w off (plain w .mio r off (keepField mioQspiCfg_clk (decide (wordField v 0 2 ≠ 3)) v s)) s
  else if off = mioUartCfg_baud.off then
    notThroughH w off (plain w .mio r off
      (keepField mioUartCfg_baud (decide (9600 ≤ wordField v 0 22 ∧ wordField v 0 22 ≤ 3000000)) v s)) s
  else if off = mioMdioCfg_mdc.off then plain w .mio r off (keepField mioMdioCfg_mdc (decide (wordField v 0 2 ≠ 3)) v s) s
  else if off = mioThermCfg_highC.off then
    plain w .mio r off (keepField mioThermCfg_highC (decide (60 ≤ wordField v 0 8 ∧ wordField v 0 8 ≤ 114)) v s) s
  else if r.off = mioI2cCmd_addr.off then i2cCmdWrite (indexOf r off) v s
  else if off = mioMdioCmd_phy.off then mdioCmdWrite v s
  else plain w .mio r off v s

/-- SCR: RECOVER keeps only the bits of the blocks listed in R525. -/
def writeScr (w : Window) (r : RegSpec) (off : Nat) (v : Word) (s : State) : State :=
  if off = scrStoreSel_store.off then checked (decide (wordField v 0 4 ≤ 9)) w off (plain w .scr r off v) s
  else if off = scrRecoverLo_enable.off then plain w .scr r off (v &&& 0x00051000) s
  else if off = scrRecoverHi_enable.off then plain w .scr r off (v &&& 0x00412050) s
  else plain w .scr r off v s

/-- A write of a register of the tables, once the access is admitted. -/
def writeReg (w : Window) (b : Block) (r : RegSpec) (off : Nat) (v : Word) (s : State) : State :=
  let x := copyOf w b r off s
  if reachesFused w b r off s then s
  else match clearOf off with
    | some k => clearCounters k x v s
    | none =>
      match wrapOf off with
      | some k => clearWraps k x v s
      | none =>
        match b with
        | .evt => writeEvt w r off v s
        | .bnc => writeBnc w r off v s
        | .pwr => writePwr w r off v s
        | .rst => if off = rstWarmCtl_go.off then warmWrite w v s else plain w .rst r off v s
        | .lan => writeLan w r off v s
        | .cls => writeCls w r off v s
        | .l2t => writeL2t w r off v s
        | .lpm => writeLpm w r off v s
        | .flt => writeFlt w r off v s
        | .dsp =>
          if r.off = dspClassWait_maxWait.off then
            (if bit v.toNat 31 then wrX dspClassWait_maxWait (indexOf r off) x 0 s else s)
          else plain w .dsp r off v s
        | .mcs => writeMcs w r off v s
        | .bpm => writeBpm w r off v s
        | .swc =>
          if off = swcQSel_dest.off then checked (decide (wordField v 0 9 ≤ 265)) w off (plain w .swc r off v) s
          else plain w .swc r off v s
        | .tmg => writeTmg w r off v s
        | .tim => writeTim w r off v s
        | .tie => if off = tieOwnMove_busy.off then ownMoveWrite (winIdx w) v s else plain w .tie r off v s
        | .tmk => writeTmk w r off v s
        | .pcn => writePcn w r off v s
        | .hif => writeHif w r off v s
        | .mio => writeMio w r off v s
        | .scr => writeScr w r off v s
        | _ => plain w b r off v s

/-! ### The common header -/

/-- A write of CHAN_SEL (R111 to R113). Hallmark's private path has no latch. -/
def chanSelWrite (w : Window) (b : Block) (v : Word) (s : State) : State :=
  match w with
  | .hm _ _ => s
  | _ =>
    let l := latch w b s
    let l1 : ChanLatch := { l with selError := l.selError && decide (wordField v 30 1 = 0), whole := decide (wordField v 31 1 = 1) }
    if wordField v 0 16 < chanCount b then putLatch w b { l1 with chan := wordField v 0 16 } s
    else raise evtChanSelRefused (putLatch w b { l with selError := true } s)

/-- Whether a write of OWNER is one that R115 allows. -/
def ownerAllowed (w : Window) (old new : Nat) : Bool :=
  match w with
  | .h => decide ((old = 0 ∧ new = 1) ∨ (old = 1 ∧ new = 0))
  | .b => decide ((old = 0 ∧ new = 2) ∨ (old = 2 ∧ new = 0))
  | .hm _ _ => true

/-- A write of OWNER (R115): denied returns to 0 as owner changes, and as Hallmark writes the value held (DESIGN CHOICE, assumption log 96). -/
def ownerWrite (w : Window) (b : Block) (v : Word) (s : State) : State :=
  let o := ownerOf b s
  if ownerAllowed w o.owner (wordField v 0 2) = true then putOwner b { owner := wordField v 0 2, denied := 0 } s
  else ownerDenied b s

/-- A write of EVT_LIMITk: a zero window or quiet period is refused. -/
def limitWrite (w : Window) (off : Nat) (v : Word) (s : State) : State :=
  checked (decide (wordField v 8 8 ≠ 0 ∧ wordField v 16 8 ≠ 0)) w off (putReg off 0 (v &&& 0xFFFFFF)) s

/-- A write of EVT_MASKk. -/
def maskWrite (g : Nat) (v : Word) (s : State) : State :=
  resignal { s with evt := { s.evt with mask := sset maskReset s.evt.mask g v } }

/-- A write of BLOCK_STATE: drain_forced clears. -/
def stateWrite (w : Window) (b : Block) (v : Word) (s : State) : State :=
  let t := selTarget w b s
  if tgtFused t s ∨ wordField v 24 1 = 0 then s else modTgt t (fun x => { x with drainForced := false }) s

/-- A write of a header offset `o` of block b that OWNER and the held state let through; a reserved offset is R106's. -/
def headerWrite (w : Window) (b : Block) (o : Nat) (v : Word) (s : State) : State :=
  let off := blockBase b + o
  let k := (o - 0x20) / 16
  if o = 0x10 then blockCtlWrite w b v s
  else if o = 0x14 then stateWrite w b v s
  else if o = 0x18 then putReg off 0 v s
  else if o = 0x1C then checked (decide (wordField v 0 30 ≤ 999999999)) w off (putReg off 0 (v &&& 0x3FFFFFFF)) s
  else if o = 0x74 then blockResetWrite w b v s
  else if 0x20 ≤ o ∧ o < 0x70 then
    (if o % 16 = 4 then maskWrite (firstG b + k) v s
     else if o % 16 = 8 then forceWrite w b k v s
     else if o % 16 = 12 then limitWrite w off v s
     else s)
  else s

/-! ### The write -/

/-- A write of a header offset. -/
def headerAccess (w : Window) (b : Block) (o : Nat) (v : Word) (s : State) : State :=
  let off := blockBase b + o
  if (headerWord w b o s).isNone then onlyIf (reachable w s) (badWrite w b off) s
  else if o = 0x08 then writingFree w b (chanSelWrite w b v) s
  else if o = 0x7C then writingFree w b (ownerWrite w b v) s
  else if o = 0x78 then writingFree w b (putReg off 0 v) s
  else if o = 0x70 then commitAccess w b v s
  else if (causeAt b off).isSome then causeWrite w off v s
  else writing w b (headerWrite w b o v) s

/-- A write of the MSI-X table (R131): a vector unmasked sends what it holds as pending. -/
def msixWrite (w : Window) (off : Nat) (v : Word) (s : State) : State :=
  if w = .b then onlyIf (reachable w s) (badWrite w .hif off) s
  else if 0x3CC00 ≤ off then s
  else writing w .hif (fun s => releasePending (putReg off 0 (if off % 16 = 12 then wordWith (reg off 0 s) 0 1 (wordField v 0 1) else v) s)) s

/-- A write of a window offset with all byte enables (R105, R106). -/
def writeAt (w : Window) (off : Nat) (v : Word) (s : State) : State :=
  match blockOfPage (off / 0x1000) with
  | none => onlyIf (reachable w s) (accessError w off true) s
  | some b =>
    if b = .hif ∧ 0x3C800 ≤ off ∧ off < 0x3CC08 then msixWrite w off v s
    else if off < blockBase b + 0x80 then headerAccess w b (off - blockBase b) v s
    else if (pendAt b off).isSome then causeWrite w off v s
    else match findReg off with
      | none => onlyIf (reachable w s) (badWrite w b off) s
      | some r => writing w b (writeReg w b r off v) s

/-- An access of 32 bits through a window (R107): a read ignores byte enables, a write needs all four. -/
def accessAt (w : Window) (off be : Nat) (write : Bool) (v : Word) (s : State) : State :=
  if !write then reading w (readAt w off) s
  else if be ≠ 15 then onlyIf (reachable w s) (match blockOfPage (off / 0x1000) with
    | some b => badWrite w b off
    | none => accessError w off true) s
  else writeAt w off v s

end Sys2Proof.Machine
end

