-- ==== Sys2Proof/Machine/Loads.lean ====
section
/-! DEFINITION. Applying a configuration image (steps 10 and 11 of R85): its records through window B (R92), the checks of codes 0x1B
to 0x1F (R97), its blobs (R202, R203, R222, R249, R446), and undoing what was written (R88). -/

namespace Sys2Proof.Machine

/-- Why a load fails: code and detail of R97, and the refusal that a load at run time leaves at a block (R102). -/
structure LoadFail where
  code : Nat
  index : Nat
  refusal : Option (Block × Nat) := none
  deriving DecidableEq, Repr

/-! ### Records (R92) -/

/-- The bits of a header register that a record may write. -/
def headerMask (b : Block) (o : Nat) : Nat :=
  let k := (o - 0x20) / 16
  if o = 0x10 then 0xF1
  else if o = 0x18 then 0xFFFFFFFF
  else if o = 0x1C then 0x3FFFFFFF
  else if 0x20 ≤ o ∧ o < 0x70 then
    (if k < causeCount b then (if o % 16 = 4 then 0xFFFFFFFF else if o % 16 = 12 then 0xFFFFFF else 0) else 0)
  else 0

/-- The RW and RWS bits of the register at an offset. -/
def writableMask (off : Nat) : Nat :=
  match blockOfPage (off / 0x1000) with
  | none => 0
  | some b =>
    if off < blockBase b + 0x80 then headerMask b (off - blockBase b)
    else match findReg off with
      | none => 0
      | some r => r.fields.foldl (fun a f => match f.acc with
          | .rw | .rws => a ||| maskAt f.lo f.width
          | .w1c | .w1s | .rl | .ro | .wo | .rs => a) 0

/-- The W1C, W1S and WO bits of the register at an offset. -/
def actionMask (off : Nat) : Nat :=
  match findReg off with
  | none => 0
  | some r => r.fields.foldl (fun a f => match f.acc with
      | .w1c | .w1s | .wo => a ||| maskAt f.lo f.width
      | .rw | .rws | .rl | .ro | .rs => a) 0

/-- The block of a record. -/
def recBlock (r : ImRecord) : Block := (blockOfPage r.page).getD .sys

/-- The loader selects the record's channel; without chan_valid a per-channel header register is reached at its block-wide part, and one
above the header at channel 0 (DESIGN CHOICE, assumption log 21). -/
def recSelect (r : ImRecord) (s : State) : State :=
  if perChannel (recBlock r) (recOff r) then
    chanSelWrite .b (recBlock r) (BitVec.ofNat 32 (r.chan + (if r.flags = 1 then 0 else 2 ^ 31))) s
  else s

/-- Whether a record's channel is fused off, so that its write is ignored (R2). -/
def recFused (r : ImRecord) (s : State) : Bool := decide (r.flags = 1) && isFused (recBlock r) r.chan s

/-- Whether the block shows the bits that a record wrote (R8). The loader reads a register once, before the write: this looks at the
state and leaves it as it is. A register whose read loads, pops or snapshots something shows nothing of a write. A block that the host owns
refuses the write and keeps its old value (DESIGN CHOICE, assumption log 98). -/
def recKept (r : ImRecord) (new : Nat) (s : State) : Bool :=
  (readBehaviour .b (recBlock r) (recOff r)).isSome || decide (((readAt .b (recOff r) s).fab.rdB.toNat ^^^ new) &&& r.mask = 0)

/-- Apply a record; the Bool says whether the block kept the value (R8). -/
def recApply (r : ImRecord) (s : State) : Bool × State :=
  let off := recOff r
  let s1 := readAt .b off (recSelect r s)
  let old := s1.fab.rdB.toNat
  let mixed := (old &&& (0xFFFFFFFF - r.mask)) ||| (r.value &&& r.mask)
  let new := mixed &&& (0xFFFFFFFF - actionMask off)
  let s2 := writeAt .b off (BitVec.ofNat 32 new) s1
  (recKept r new s2 || recFused r s, { s2 with fab := { s2.fab with rdB := s.fab.rdB } })

/-- What a run of records has found: the first record whose value its block did not keep, and per block whose check fails the record with
which it began to fail, and the code (R95: the failing record; DEDUCED, assumption log 98). -/
structure RecordRun where
  lost : Option Nat := none
  failing : List (Nat × Block × Nat) := []
  deriving DecidableEq, Repr

/-- Record i of block b has been written: the block checks its shadow set (R85 step 10). -/
def noteCheck (i : Nat) (b : Block) (s : State) (xs : List (Nat × Block × Nat)) : List (Nat × Block × Nat) :=
  match blockCheck b s with
  | none => xs.filter (fun x => decide (x.2.1 ≠ b))
  | some c =>
    if xs.any (fun x => decide (x.2.1 = b)) then xs.map (fun x => if x.2.1 = b then (x.1, b, c) else x) else xs ++ [(i, b, c)]

/-- Apply records from number i on. -/
def applyRecords : Nat → List ImRecord → RecordRun → State → RecordRun × State
  | _, [], q, s => (q, s)
  | i, r :: rs, q, s =>
    let a := recApply r s
    applyRecords (i + 1) rs
      { lost := if q.lost.isSome || a.1 then q.lost else some i, failing := noteCheck i (recBlock r) a.2 q.failing } a.2

/-- The records of an image. -/
def recordsOf (d : List Byte) : List ImRecord := (List.range (imRecords d)).map (imRecord d)

/-- The blobs of an image. -/
def blobsOf (d : List Byte) : List ImBlob := (List.range (imBlobs d)).map (imBlob d)

/-- The first record for which p holds. -/
def firstRecord (d : List Byte) (p : ImRecord → Bool) : Option Nat := firstIndex (imRecords d) (fun i => p (imRecord d i))

/-- Code 0x1B: the mask covers a bit that records may not write, or OWNER is Hallmark-only. -/
def maskRefused (r : ImRecord) (s : State) : Bool :=
  decide (r.mask &&& (0xFFFFFFFF - writableMask (recOff r)) ≠ 0) || decide ((ownerOf (recBlock r) s).owner = 3)

/-- A record that enables a fused-off channel (code 0x1D). -/
def enablesFused (r : ImRecord) (s : State) : Bool :=
  decide (recOff r = blockBase (recBlock r) + 0x10) && bit (r.value &&& r.mask) 0 && recFused r s

/-! ### Blobs of the classifier and parser -/

/-- Listed words from key k on: those that are not zero. -/
def sparseFrom : Nat → List Word → Sparse Word
  | _, [] => []
  | k, w :: ws => if w = 0 then sparseFrom (k + 1) ws else (k, w) :: sparseFrom (k + 1) ws

/-- Listed numbers from key k on: those that are not zero. -/
def sparseNats : Nat → List Nat → Sparse Nat
  | _, [] => []
  | k, x :: xs => if x = 0 then sparseNats (k + 1) xs else (k, x) :: sparseNats (k + 1) xs

/-- The default action goes to its shadows. -/
def putDefault (bs : List Byte) (s : State) : State :=
  putReg (clsDefaultA_action.off + 4) 0 (BitVec.ofNat 32 (leAt bs 4 4)) (putReg clsDefaultA_action.off 0 (BitVec.ofNat 32 (leAt bs 0 4)) s)

/-- Blob 0x0001 (R202). -/
def loadRules (bs : List Byte) (s : State) : Option State :=
  let n := leAt bs 0 4
  if bs.length ≠ 16 + 64 * n ∨ leAt bs 4 4 ≠ 0 then none
  else some (putDefault (slice bs 8 8) (wr clsStageCtl_mode 0
    (putHalf (stagingIdx s) { rules := sparseFrom 0 (wordsOf (16 * n) (bs.drop 16)), count := n } s)))

/-- The nodes of a tree image. -/
def treeNodes : Nat → List Byte → List Nat
  | 0, _ => []
  | n + 1, bs => leAt bs 0 16 :: treeNodes n (bs.drop 16)

/-- Blob 0x0002 (R203). -/
def loadTree (bs : List Byte) (s : State) : Option State :=
  let rules := leAt bs 8 4
  let nodes := leAt bs 0xC 4
  if leAt bs 0 4 ≠ 0x5444474B ∨ leAt bs 4 2 ≠ 1 ∨ leAt bs 0x1C 4 ≠ 0 ∨ bs.length ≠ 32 + 16 * nodes + 64 * rules then none
  else some (putDefault (slice bs 0x14 8) (wr clsStageCtl_mode 1
    (putHalf (stagingIdx s)
      { rules := sparseFrom 0 (wordsOf (16 * rules) (bs.drop (32 + 16 * nodes))), count := rules, mode := 1
        nodes := sparseNats 0 (treeNodes nodes (bs.drop 32)), nodeCount := nodes, root := leAt bs 0x10 4, depth := leAt bs 6 2 } s)))

/-- Write one register of a profile; none where a bit outside its fields is set. -/
def profileWord (off c v : Nat) (o : Option State) : Option State :=
  o.bind (fun s => if v &&& (0xFFFFFFFF - writableMask off) = 0 then some (putReg off c (BitVec.ofNat 32 v) s) else none)

/-- Blob 0x0003 (R222). -/
def loadProfiles (bs : List Byte) (s : State) : Option State :=
  if bs.length ≠ 4096 then none
  else foldOver (List.range 256) (fun c o =>
    foldOver (List.range 4) (fun k a => profileWord (prsProfCfg_enables.off + 4 * k) c (leAt bs (16 * c + 4 * k) 4) a) o) (some s)

/-- Blob 0x0004 (R222, R217): the entries of a table in index order. At run time each entry of the steering table is a write under R215,
which ignores a value above 31. -/
def loadTable (t : Nat) (bs : List Byte) (s : State) : Option State :=
  let top := if t ≠ steerTable s then 63 else if active s then 0xFFFF else 31
  if 63 < t ∨ bs.length ≠ 8192 ∨ (List.range 4096).any (fun e => decide (top < leAt bs (2 * e) 2)) then none
  else some (foldOver (List.range 4096) (fun e a =>
    if t = steerTable s ∧ active s = false then putHome e (leAt bs (2 * e) 2) (putSteer e (leAt bs (2 * e) 2) a) else indWrite t e (leAt bs (2 * e) 2) a) s)

/-! ### Blobs of egress scheduling (R446) -/

/-- The entries of a gate list from number i on; none for a reserved byte that is not zero. -/
def loadGcl (d l : Nat) : Nat → Nat → List Byte → State → Option State
  | 0, _, _, s => some s
  | n + 1, i, bs, s =>
    if leAt bs 5 3 ≠ 0 then none else loadGcl d l n (i + 1) (bs.drop 8) (putGcl d l i (leAt bs 0 4, leAt bs 4 1) s)

/-- The gate shadows of destination d. -/
def gateShadows (d l : Nat) (bs : List Byte) (s : State) : State :=
  wrC tmgGateBaseSecLo_value d (leAt bs 0 4) (wrC tmgGateBaseSecHi_value d (leAt bs 4 2) (wrC tmgGateBaseNs_value d (leAt bs 8 4)
    (wrC tmgGateCycle_value d (leAt bs 0xC 4) (wrC tmgGateExt_value d (leAt bs 0x10 4) (wrC tmgGateCount_value d (leAt bs 0x14 2)
      (wrC tmgGateCtl_gateEn d 1 (wrC tmgGateCtl_adminList d l (wrC tmgGateCtl_arm d 1 s))))))))

/-- Blob 0x000A for destination d and list l: the rules of R436 and R441 hold, and the list neither operates nor is pending (R440). -/
def loadGates (d l : Nat) (bs : List Byte) (s : State) : Option State :=
  let n := leAt bs 0x14 2
  if 255 < d ∨ bs.length ≠ 32 + 8 * n ∨ 256 < n ∨ leAt bs 6 2 ≠ 0 ∨ leAt bs 0x16 10 ≠ 0 ∨ 999999999 < leAt bs 8 4
      ∨ 1000000000 < leAt bs 0xC 4 ∨ 1000000000 < leAt bs 0x10 4 ∨ operList d s = some l ∨ (pendTakeover d s).isSome then none
  else match loadGcl d l n 0 (bs.drop 32) s with
    | none => none
    | some t =>
      let u := gateShadows d l bs t
      if (armRefusal d u).isSome then none else some u

/-- One record of blob 0x000B. -/
def loadParams (bs : List Byte) (o : Option State) : Option State :=
  o.bind (fun s =>
    let cls := leAt bs 1 1
    let i := leAt bs 2 2
    let cfg := leAt bs 4 4
    let r1 := leAt bs 8 4
    let b1 := leAt bs 0xC 4
    let r2 := leAt bs 0x10 4
    let b2 := leAt bs 0x14 4
    let fit := decide (b1 < 2 ^ 24 ∧ b2 < 2 ^ 24 ∧ leAt bs 0x18 8 = 0)
    match leAt bs 0 1 with
    | 1 => if fit && decide (i < 16384) && meterOk cfg r1 b1 r2 b2 then some (meterSet i cfg r1 b1 r2 b2 false s) else none
    | 2 =>
      if fit && decide (i < 266 ∧ cls < 8 ∧ cfg = 0) && rateBurstOk r1 b1 then
        some (wrC tmgClassRate_rate (8 * i + cls) r1 (wrC tmgClassBurst_burst (8 * i + cls) b1 s)) else none
    | 3 =>
      if fit && decide (i < 266 ∧ cfg = 0) && rateBurstOk r1 b1 then
        some (wrC tmgPortRate_rate i r1 (wrC tmgPortBurst_burst i b1 s)) else none
    | 4 => if fit && decide (i < 266 ∧ cls < 8) && maxSduOk cfg then some (wrC tmgMaxSdu_maxSdu (8 * i + cls) cfg s) else none
    | _ => none)

/-- Blob 0x000B. -/
def loadParamBlob (bs : List Byte) (s : State) : Option State :=
  if bs.length % 32 ≠ 0 then none else foldOver (chunks 32 (bs.length / 32) bs) loadParams (some s)

/-! ### All blobs -/

/-- The block that a blob type writes. -/
def blobBlock (kind : Nat) : Block :=
  if kind = 3 then .prs
  else if kind = 5 then .l2t
  else if kind = 6 ∨ kind = 7 ∨ kind = 8 then .lpm
  else if kind = 9 then .mcs
  else if kind = 0xA ∨ kind = 0xB then .tmg
  else .cls

/-- Apply a blob of any type but microcode; none where its content is refused (code 0x1E). -/
def applyBlob (b : ImBlob) (bs : List Byte) (s : State) : Option State :=
  if b.kind = 4 then loadTable b.target bs s
  else if b.kind = 6 then (if b.target ≤ 4095 then loadRouteBlob b.target bs s else none)
  else if b.kind = 0xA then loadGates b.target (b.flags % 2) bs s
  else if b.target ≠ 0 then none
  else if b.kind = 1 then loadRules bs s
  else if b.kind = 2 then loadTree bs s
  else if b.kind = 3 then loadProfiles bs s
  else if b.kind = 5 then loadL2Blob bs s
  else if b.kind = 7 then loadNhBlob bs s
  else if b.kind = 8 then loadEcmpBlob bs s
  else if b.kind = 0xB then loadParamBlob bs s
  else none

/-- The check that a block makes of its shadow set once a blob is in it. A blob of parser profiles is checked by PRS, rules by CLS. -/
def blobCheck (kind : Nat) (s : State) : Option Nat :=
  if kind = 1 ∨ kind = 2 then blockCheck .cls s else if kind = 3 then blockCheck .prs s else none

/-- What a blob whose content is refused leaves at its block: rules of the wrong format are refused with code 2 (R205). -/
def formatRefusal (kind : Nat) : Option (Block × Nat) := if kind = 1 ∨ kind = 2 then some (.cls, 2) else none

/-- Apply blobs in directory order from entry j on; `seen` are the destinations of gate lists so far. -/
def applyBlobs (d : List Byte) : Nat → List Nat → List ImBlob → State → Except LoadFail State
  | _, _, [], s => .ok s
  | j, seen, b :: rest, s =>
    if b.kind = 9 then applyBlobs d (j + 1) seen rest s
    else if b.kind = 0xA ∧ seen.contains b.target then .error { code := 0x1E, index := j }
    else match applyBlob b (imContent d b) s with
      | none => .error { code := 0x1E, index := j, refusal := formatRefusal b.kind }
      | some t =>
        match blobCheck b.kind t with
        | some c => .error { code := 0x1E, index := j, refusal := some (blobBlock b.kind, c) }
        | none => applyBlobs d (j + 1) (if b.kind = 0xA then b.target :: seen else seen) rest t

/-! ### Step 10 -/

/-- The blocks that an image writes, in block-code order. -/
def blocksWritten (d : List Byte) : List Block :=
  allBlocks.filter (fun b => (recordsOf d).any (fun r => decide (recBlock r = b)) || (blobsOf d).any (fun x => decide (blobBlock x.kind = b)))

/-- The blocks whose shadow set the image's records complete: rules that come in a blob are checked with it. -/
def recordBlocks (d : List Byte) : List Block :=
  allBlocks.filter (fun b => (recordsOf d).any (fun r => decide (recBlock r = b))
    && !(decide (b = .cls) && (blobsOf d).any (fun x => decide (x.kind = 1 ∨ x.kind = 2))))

/-- The refusals of the blocks whose shadow set the records complete. -/
def valueRefusals (d : List Byte) (q : RecordRun) : List (Nat × Block × Nat) :=
  q.failing.filter (fun x => (recordBlocks d).contains x.2.1)

/-- The records refused by their value (code 0x1C), the one not kept among them. -/
def refusedValues (d : List Byte) (q : RecordRun) : List (Nat × Block × Nat) :=
  (match q.lost with
   | some i => [(i, recBlock (imRecord d i), 2)]
   | none => []) ++ (valueRefusals d q).filter (fun x => x.2.2 != 4)

/-- The refusal of lowest index. -/
def firstRefusal (xs : List (Nat × Block × Nat)) : Option (Nat × Block × Nat) :=
  xs.foldl (fun a x => match a with
    | none => some x
    | some y => if x.1 < y.1 then some x else some y) none

/-- Code 0x1D: the first record, else the first blob, that enables a fused-off resource (R2), or a block's own refusal as such. -/
def fusedFailure (d : List Byte) (q : RecordRun) (s : State) : Option LoadFail :=
  match firstRecord d (fun r => enablesFused r s), firstRefusal ((valueRefusals d q).filter (fun x => x.2.2 == 4)) with
  | some i, none => some { code := 0x1D, index := i, refusal := some (recBlock (imRecord d i), 4) }
  | some i, some x => some { code := 0x1D, index := min i x.1, refusal := some (if i ≤ x.1 then recBlock (imRecord d i) else x.2.1, 4) }
  | none, some x => some { code := 0x1D, index := x.1, refusal := some x.2 }
  | none, none =>
    (firstIndex (imBlobs d) (fun j => decide ((imBlob d j).kind = 0xA) && isFused .tmg (imBlob d j).target s)).map
      (fun j => { code := 0x1D, index := j, refusal := some (.tmg, 4) })

/-- Step 10 (R85, R95, R97): records and blobs go to shadows and tables, or the first failure in code order. -/
def applyImage (d : List Byte) (s : State) : Except LoadFail State :=
  match firstRecord d (fun r => maskRefused r s) with
  | some i => .error { code := 0x1B, index := i }
  | none =>
    let a := applyRecords 0 (recordsOf d) {} s
    match firstRefusal (refusedValues d a.1) with
    | some x => .error { code := 0x1C, index := x.1, refusal := some x.2 }
    | none =>
      match fusedFailure d a.1 a.2 with
      | some e => .error e
      | none => applyBlobs d 0 [] (blobsOf d) a.2

/-! ### Step 11 -/

/-- The microcode blobs of an image: entry number, cluster mask, envelope. -/
def bankBlobs (d : List Byte) : List (Nat × Nat × List Byte) :=
  (List.range (imBlobs d)).filterMap (fun j =>
    let b := imBlob d j
    if b.kind = 9 then some (j, b.target, imContent d b) else none)

/-- The refusal of a microcode blob (R320, R321): 2 by its content, 1 where a named bank may not be written. -/
def bankRefusal (bank : Nat → Nat) (done : List Nat) (x : Nat × Nat × List Byte) (s : State) : Option Nat :=
  if envelopeReason false [2] kindContent x.2.2 s ≠ 0 then some 2
  else if (maskClusters x.2.1).any (fun c => done.contains c || decide (bankState c (bank c) s = 1 ∨ 3 ≤ bankState c (bank c) s)) then some 1
  else none

/-- Verify microcode blobs in order; `done` are the clusters of earlier ones at start-up, where a bank is live once written. -/
def verifyBanks (bank : Nat → Nat) (start : Bool) : List Nat → List (Nat × Nat × List Byte) → State → Option LoadFail
  | _, [], _ => none
  | done, x :: rest, s =>
    match bankRefusal bank done x s with
    | some c => some { code := 0x1F, index := x.1, refusal := some (.mcs, c) }
    | none => verifyBanks bank start (if start then maskClusters x.2.1 ++ done else done) rest s

/-- An envelope that Hallmark refused is counted (R539). -/
def noteBank (e : LoadFail) (s : State) : State := if e.refusal = some (.mcs, 2) then refuseImage s else s

/-- Start-up step 11: bank 0 of every named cluster and its golden copy are written, and the bank is live (R321). -/
def startBanks (d : List Byte) (s : State) : State :=
  foldOver (bankBlobs d) (fun x a =>
    foldOver (maskClusters x.2.1) (fun c u => wrC mcsBankState_live c 0 (writeBank c 0 (evPayload x.2.2) 3 u)) a) s

/-- The clusters that an image names, each once. -/
def namedClusters (d : List Byte) : List Nat :=
  (List.range 32).filter (fun c => (bankBlobs d).any (fun x => x.2.1.testBit c))

/-! ### Undoing (R88, R100) -/

/-- The bits that a record wrote return to their reset values: for blocks written that have no per-block reset. -/
def undoRecord (r : ImRecord) (s : State) : State :=
  let off := recOff r
  let c := match findReg off with
    | some x => if x.scope = .chan then r.chan else 0
    | none => 0
  if resettable (recBlock r) || decide (off < blockBase (recBlock r) + 0x80) || !s.start.written.contains (blockCode (recBlock r)) then s
  else putReg off c (BitVec.ofNat 32 (((reg off c s).toNat &&& (0xFFFFFFFF - r.mask)) ||| (resetNat off c &&& r.mask))) s

/-- What steps 10 and 11 wrote is undone by a per-block reset of each block written. -/
def undoLoad (s : State) : State :=
  let t := foldOver (recordsOf s.start.image) undoRecord s
  let u := foldOver t.start.written (fun p a => match blockOfPage p with
    | some b => if resettable b then beginReset ⟨b, none⟩ true 1 a else a
    | none => a) t
  { u with start := { u.start with written := [] } }

end Sys2Proof.Machine
end

