-- ==== Sys2Proof/Machine/Startup.lean ====
section
/-! DEFINITION. The start-up sequence (R85 to R89), the flash directory and Bench slots (R544 to R546), and loads by the host at start and
at run time (R87, R100 to R103). -/

namespace Sys2Proof.Machine

/-! ### The flash directory (R544) -/

/-- An entry of a directory: region, offset, length. -/
def dirEntry (d : List Byte) (i : Nat) : Nat × Nat × Nat := (leAt d (0x10 + 16 * i) 1, leAt d (0x14 + 16 * i) 4, leAt d (0x18 + 16 * i) 4)

/-- The entries of a directory. -/
def dirEntries (d : List Byte) : List (Nat × Nat × Nat) := (List.range (leAt d 7 1)).map (dirEntry d)

/-- Two regions of the flash share a byte. -/
def regionsMeet (a b : Nat × Nat × Nat) : Bool := decide (a.2.1 < b.2.1 + b.2.2 ∧ b.2.1 < a.2.1 + a.2.2)

/-- No two regions of a list meet or have the same code. -/
def apart : List (Nat × Nat × Nat) → Bool
  | [] => true
  | a :: rest => rest.all (fun b => !regionsMeet a b && a.1 != b.1) && apart rest

/-- A directory copy that Hallmark may use. -/
def dirUsable (d : List Byte) : Bool :=
  let n := leAt d 7 1
  let es := dirEntries d
  decide (256 ≤ d.length ∧ leAt d 0 4 = 0x4446474B ∧ leAt d 4 2 = 1 ∧ leAt d 6 1 ≤ 1 ∧ 1 ≤ n ∧ n ≤ 14 ∧ leAt d 0xF0 12 = 0
      ∧ crc32c (slice d 0 0xFC) = leAt d 0xFC 4)
    && (List.range n).all (fun i => decide (leAt d (0x11 + 16 * i) 3 = 0 ∧ leAt d (0x1C + 16 * i) 4 = 0))
    && es.all (fun e => decide (1 ≤ e.1 ∧ e.1 ≤ 5 ∧ e.2.1 % 65536 = 0 ∧ e.2.2 % 65536 = 0 ∧ (e.1 = 5 → e.2.2 = 16777216)))
    && [1, 2, 5].all (fun r => es.any (fun e => e.1 == r))
    && apart ((0, 0, 65536) :: (6, 65536, 65536) :: es)

/-- The directory that Hallmark uses. -/
def chosenDir (read : List (List Byte)) : Option (List Byte) := (read.take 2).find? dirUsable

/-! ### Steps 1 to 7 -/

/-- The step in progress. -/
def startStep (s : State) : Nat := rd cfgStartState_step s

/-- Go on with a step. -/
def toStep (n : Nat) (s : State) : State := wr cfgStartState_step n s

/-- Write the staging FIFO to the ring and flush it. -/
def settleRecords (s : State) : State :=
  let n := s.tmk.fifo.length
  let t := foldOver (List.range n) (fun _ a => match a.tmk.fifo with
    | [] => a
    | r :: rest => ringWrite r rest a) s
  foldOver (List.range n) (fun _ a => flushRecord .done a) t

/-- Hallmark establishes the count and operating time and writes the start record (R563) before anything else of step 2. -/
def establish (s : State) : State :=
  let cause := rd rstResetCause_resetCause s
  settleRecords (startTouchmark (cause == 3) cause s)

/-- Step 2: what step 2 establishes, and the check of the straps (R53). -/
def stepTwo (s : State) : State :=
  let t := wr hmkStatus_state 1 (establish s)
  if rd sysStrapSample_strapFault t = 1 then enterHeld 2 0 0 t else toStep 3 t

/-- A stack of HBM, or the block-wide part, is ON when step 3 ends (R123). -/
def hbmStarts (t : Target) (s : State) : State := modTgt t (fun x => { x with st := .on, faultCode := 0, starts := (x.starts + 1) % 256 }) s

/-- Step 3: every present stack is trained and the regions are cleared. -/
def stepThree (s : State) : State :=
  let present := (List.range 4).filter (fun k => !isFused .hbm k s)
  let t := foldOver present (fun k a => wrC hbmStackStatus_trained k 1 (hbmStarts ⟨.hbm, some k⟩ a)) (hbmStarts ⟨.hbm, none⟩ s)
  toStep 4 { t with flow := { t.flow with hbm := [] } }

/-- The reason for which the Bench image of slot k (0 A, 1 B) fails; 0 if it passes (R545). -/
def slotReason (k : Nat) (img : List Byte) (s : State) : Nat :=
  match flashRegion (1 + k) s with
  | some (_, _, len) => if len < 0x180 + 25165824 then 1 else envelopeReason true [1] anyContent img s
  | none => 1

/-- The reason of slot k goes to HMK.BOOT_REASON. -/
def noteReason (k reason : Nat) (s : State) : State :=
  if k = 0 then wr hmkBootReason_slotA reason s else wr hmkBootReason_slotB reason s

/-- A slot was refused: its reason goes to HMK.BOOT_REASON, and the refusal is counted (R539). -/
def refuseSlot (k reason : Nat) (s : State) : State :=
  refuseImage (noteReason k reason s)


/-- Slot k starts: its image goes to the copy area not in use. -/
def bootSlot (k : Nat) (img : List Byte) (s : State) : State :=
  let area := if rd bncStatus_state s = 0 then 0 else 1 - s.fw.image.area
  wr hmkStatus_bootSlot k (wr hmkStatus_hostImage 0 (showImage (benchImageOf area img) (loadCopy area img s)))

/-- After step 4: step 5, or step 8 again in a warm reset whose Bench copy had to be read again (R89). -/
def afterStepFour (s : State) : State :=
  if s.start.restart then toStep 8 (wr cfgStartState_state (if rd sysStrapSample_bootSrc s = 0 then 0 else 2) s) else toStep 5 s

/-- Step 4 from flash (R545): the preferred slot, then the other. -/
def stepFour (read : List (List Byte)) (s : State) : State :=
  let s0 := wr hmkBootReason_slotA 0 (wr hmkBootReason_slotB 0 (wr hmkStatus_fallback 0 s))
  match chosenDir read with
  | none => enterHeld 4 0x0101 0 (noteReason 0 1 (noteReason 1 1 s0))
  | some d =>
    let p := leAt d 6 1
    let t := { s0 with fw := { s0.fw with dir := dirEntries d, dirBytes := slice d 0 256, preferred := p } }
    let img (k : Nat) : List Byte := read.getD (2 + k) []
    let first := slotReason p (img p) t
    if first = 0 then afterStepFour (bootSlot p (img p) t)
    else
      let second := slotReason (1 - p) (img (1 - p)) t
      let u := refuseSlot p first t
      if second = 0 then afterStepFour (raise hmkBootFallback (wr hmkStatus_fallback 1 (bootSlot (1 - p) (img (1 - p)) u)))
      else
        let a := if p = 0 then first else second
        let b := if p = 0 then second else first
        enterHeld 4 (a + 256 * b) 0 (refuseSlot (1 - p) second u)

/-- Step 5: the PLLs of every chiplet whose REFCLK_LANE is there lock, and its lanes are calibrated. -/
def stepFive (s : State) : State :=
  toStep 6 (foldOver ((List.range 4).filter (fun c => chipletOk c s && !s.pwr.laneLost.testBit c))
    (fun c a => wrX lanCalStatus_pllLock c 0 1 (wrX lanCalStatus_calValid c 0 1 a)) s)

/-- Step 7: Bench runs and the device is ready for configuration; from the host it waits for a load (R87). -/
def stepSeven (s : State) : State :=
  let t := raise cfgReadyForConfig (wr cfgStartState_state 1 (toStep 8 (raise bncBenchReady (benchRuns s))))
  let u := { t with start := { t.start with restart := false } }
  if rd sysStrapSample_bootSrc u = 0 then u else wr cfgStartState_state 2 u

/-! ### Failures of steps 8 to 11 -/

/-- A failure in CFG.FAIL_CODE and FAIL_INDEX. -/
def reportFail (code index slot : Nat) (s : State) : State :=
  wr cfgFailCode_code code (wr cfgFailCode_slot slot (wr cfgFailIndex_index index s))

/-- What is reported after both slots failed (R88): the slot tried second, but a check before a slot that could not be read. -/
def worstOf (first : Option (Nat × Nat × Nat)) (second : Nat × Nat × Nat) : Nat × Nat × Nat :=
  match first with
  | none => second
  | some f => if second.1 ≠ 0x10 then second else if f.1 = 0x10 then (0x10, 1, 1) else f

/-- A check that the slot tried first failed, in CFG.FAIL_CODE (R95); a slot that could not be read is not reported (R88). -/
def noteFail (code index slot : Nat) (s : State) : State := if code = 0x10 then s else reportFail code index slot s

/-- The slot tried fails step 8 or a check: the other slot is tried once, else the device is held (R88). -/
def failSlot (code index : Nat) (s : State) : State :=
  let k := s.start.slot
  if s.start.tried = false ∧ rd cfgLoadCtl_slotForce s = 0 then
    let t := noteFail code index k (undoLoad s)
    toStep 8 (raise cfgConfigSlotFallback (wr cfgStartState_slotFallback 1
      { t with start := { t.start with tried := true, slot := 1 - k, firstFail := some (code, index, k), image := [] } }))
  else
    let w := worstOf s.start.firstFail (code, index, k)
    enterHeld w.1 w.2.1 w.2.2 s

/-- A load at start fails (R88, R100): a device that was held stays held with the new code. -/
def loadFails (code index : Nat) (s : State) : State :=
  match s.start.load with
  | .flash => failSlot code index s
  | .hostStart =>
    if s.start.back = 3 then reportFail code index 0 { s with start := { s.start with load := .none } } else enterHeld code index 0 s
  | .none | .runTime => s

/-! ### Steps 8 to 13 -/

/-- The image in a configuration slot; empty where the slot is absent or could not be read. -/
def slotImage (read : List (List Byte)) (k : Nat) (s : State) : List Byte :=
  if (flashRegion (3 + k) s).isSome then read.getD k [] else []

/-- The slot that Bench tries (R88). -/
def slotToTry (read : List (List Byte)) (s : State) : Nat :=
  let ok (k : Nat) : Bool := !(slotImage read k s).isEmpty && (headerCheck s.variant (slotImage read k s)).isNone
  if s.start.tried then s.start.slot
  else if rd cfgLoadCtl_slotForce s = 1 then rd cfgLoadCtl_slot s
  else if ok 0 && ok 1 then (if imSequence (slotImage read 0 s) < imSequence (slotImage read 1 s) then 1 else 0)
  else if ok 1 then 1 else 0

/-- The restarted Bench of a warm reset runs again (R89). -/
def benchRestarts (s : State) : State :=
  if s.start.restart then benchRuns { s with start := { s.start with restart := false } } else s

/-- Step 8: the image of the slot tried, or the host's, is in staging. -/
def stepEight (read : List (List Byte)) (s : State) : State :=
  let t := benchRestarts s
  if t.start.load = .hostStart then toStep 9 t
  else if devState t = 2 then t
  else
    let k := slotToTry read t
    let img := slotImage read k t
    let u := { t with start := { t.start with load := .flash, slot := k, image := img } }
    if img.isEmpty then failSlot 0x10 k u else toStep 9 u

/-- Step 9: the structural check (R95). HOST_LEN must equal total_length. -/
def stepNine (s : State) : State :=
  match structuralCheck s.variant (if s.start.load = .hostStart then some (rd cfgHostLen_value s) else none) s.start.image with
  | some (code, index) => loadFails code index s
  | none => toStep 10 s

/-- The state with the records of a failing image written. -/
def withRecords (d : List Byte) (code : Nat) (s : State) : State :=
  if code = 0x1B then s else (applyRecords 0 (recordsOf d) {} s).2

/-- The shadow bits of the register at an offset. -/
def shadowMask (off : Nat) : Nat :=
  if off % 0x1000 < 0x80 then (match blockOfPage (off / 0x1000) with
    | some b => if off = blockBase b + 0x10 then 0xF0 else 0
    | none => 0)
  else match findReg off with
    | some r => r.fields.foldl (fun a f => if f.acc = .rws then a ||| maskAt f.lo f.width else a) 0
    | none => 0

/-- What of a record goes to shadow registers alone. -/
def shadowPart (r : ImRecord) : ImRecord := { r with mask := r.mask &&& shadowMask (recOff r) }

/-- The blobs that go to staging and shadow alone: rules and parser profiles. -/
def stageBlobs (d : List Byte) (n : Nat) (s : State) : State :=
  foldOver (((blobsOf d).take n).filter (fun b => decide (1 ≤ b.kind ∧ b.kind ≤ 3))) (fun b a => (applyBlob b (imContent d b) a).getD a) s

/-- What a run-time load has written before it commits (R101): staging and shadow registers, which a refused load leaves as written
(R102). A load that fails at an entry of the directory has written the entries before it. -/
def withShadows (d : List Byte) (code index : Nat) (s : State) : State :=
  if code = 0x1B then s
  else stageBlobs d (if code = 0x1E then index else if code = 0 ∨ code = 0x1F then imBlobs d else 0)
    (applyRecords 0 (((recordsOf d).map shadowPart).filter (fun r => decide (r.mask ≠ 0))) {} s).2

/-- Step 10. -/
def stepTen (s : State) : State :=
  let d := s.start.image
  let mark (a : State) : State := { a with start := { a.start with written := (blocksWritten d).map blockCode } }
  match applyImage d s with
  | .error e => loadFails e.code e.index (if e.code = 0x1B then s else mark (withRecords d e.code s))
  | .ok t => toStep 11 (mark t)

/-- MCS and its channels follow the OFF rows of R121 (R123). -/
def releaseMcs (s : State) : State := foldOver (List.range 32) (fun c a => leaveOff ⟨.mcs, some c⟩ a) (leaveOff ⟨.mcs, none⟩ s)

/-- Step 11. -/
def stepEleven (s : State) : State :=
  match verifyBanks (fun _ => 0) true [] (bankBlobs s.start.image) s with
  | some e => loadFails e.code e.index (noteBank e s)
  | none => toStep 12 (releaseMcs (startBanks s.start.image s))

/-- The loader commits a block; the CLS block takes the next version (R206). -/
def loaderCommit (b : Block) (s : State) : State :=
  if b = .cls then clsTake (curVersion s + 1) (putCommit .cls { commitOf .cls s with status := 1, lateNext := false, armed := none } s)
  else commitNow b s

/-- The blocks written, in block-code order. -/
def writtenBlocks (s : State) : List Block := allBlocks.filter (fun b => s.start.written.contains (blockCode b))

/-- Step 12 (R85, R206, R507): every block written is committed once, in block-code order, and CLS as version 1. A device of a mesh waits
at CLS for its version, and goes on with the blocks after it. -/
def stepTwelve (s : State) : State :=
  let others := (writtenBlocks s).filter (fun b => b ≠ .cls)
  if s.mesh.ver.joinWait then s
  else if curVersion s ≠ 0 then toStep 13 (foldOver (others.filter (fun b => decide (blockCode .cls < blockCode b))) loaderCommit s)
  else if rd sysStrapSample_role s = 3 then
    toStep 13 (foldOver (allBlocks.filter (fun b => decide (b = .cls) || others.contains b)) loaderCommit s)
  else
    let t := foldOver (others.filter (fun b => decide (blockCode b < blockCode .cls))) loaderCommit s
    modSys (fun v => { v with joinWait := true }) (putCommit .cls { commitOf .cls t with status := 1, lateNext := false, armed := none } t)

/-- The target of a key. -/
def keyTarget (k : Nat) : Option Target :=
  (blockOfPage (k / 1024)).map (fun b => ⟨b, if k % 1024 = 0 then none else some (k % 1024 - 1)⟩)

/-- Every enabled target follows the OFF rows (R123). -/
def releaseTargets (s : State) : State :=
  foldOver ((s.fab.targets.filter (fun (e : Nat × Tgt) => e.2.enable)).filterMap (fun (e : Nat × Tgt) => keyTarget e.1))
    (fun t a => offRows t a) s

/-- The sequence and CRC of the image now running. -/
def showConfig (d : List Byte) (s : State) : State :=
  wr cfgImageInfo_sequence (imSequence d) (wr cfgImageCrc_crc (leAt d (imTotal d - 4) 4) s)

/-- The failure code at the end of a start (R95, CFG.FAIL_CODE): none, but a start that fell back keeps the first slot's. -/
def clearFail (s : State) : State := if s.start.firstFail = none then reportFail 0 0 0 s else s

/-- Step 13: outputs are released and the device is active; the advice of the held state ends (R82). -/
def stepThirteen (s0 : State) : State :=
  let s := avsActive s0
  let ms := min 0xFFFF ((s.tim.raw - s.start.began) / rawPerMs)
  let t := showConfig s.start.image (wr rstWarmCtl_busy 0 (wr cfgStartState_elapsedMs ms (toStep 15
    (wr cfgStartState_state 4 { clearFail s with start := { s.start with load := .none, tried := false, firstFail := none } }))))
  raise cfgStartComplete (releaseTargets t)

/-- What a step reads from a flash that has not answered at step 2: every read fails (R597). -/
def flashRead (read : List (List Byte)) (s : State) : List (List Byte) := if s.tmk.noFlash then [] else read

/-- A step passed. -/
def stepPassed (read : List (List Byte)) (s : State) : State :=
  match startStep s with
  | 1 => toStep 2 s
  | 2 => stepTwo s
  | 3 => stepThree s
  | 4 => if rd sysStrapSample_bootSrc s = 2 then s else stepFour (flashRead read s) s
  | 5 => stepFive s
  | 6 => toStep 7 (wr bncStatus_state 1 s)
  | 7 => stepSeven s
  | 8 => if s.start.restart && !copyGood s then toStep 4 (wr cfgStartState_state 0 s) else stepEight (flashRead read s) s
  | 9 => stepNine s
  | 10 => stepTen s
  | 11 => stepEleven s
  | 12 => stepTwelve s
  | 13 => stepThirteen s
  | _ => s

/-- The failure code that a step may end with by itself (R97). -/
def stepFailure (step : Nat) : Option Nat :=
  match step with
  | 2 => some 3
  | 3 => some 5
  | 5 => some 6
  | 7 => some 7
  | _ => none

/-- A step of the sequence is in progress: not while active, nor while held without a load. -/
def stepRuns (s : State) : Bool :=
  decide (s.pwr.hold = .none) &&
    (match devState s with
     | 0 | 1 | 2 => true
     | 3 => decide (s.start.load = .hostStart)
     | _ => false)

/-- STARTUP_STEP_DONE. -/
def startupStepDone (o : StepOutcome) (s : State) : State :=
  match o with
  | .passed read => stepPassed read s
  | .noFlash =>
    if startStep s = 2 then raise mioQspiError (stepTwo { s with tmk := { s.tmk with noFlash := true } }) else s
  | .digestBad => if startStep s = 8 ∧ s.start.restart = true then toStep 4 (wr cfgStartState_state 0 s) else s
  | .failed code detail =>
    if stepFailure (startStep s) = some code then enterHeld code detail 0 (if startStep s = 2 then establish s else s) else s

def execStartupStepDone (o : StepOutcome) (s : State) : Host.Outcome State Fault Refusal :=
  .next (onlyIf (stepRuns s) (startupStepDone o) s)

/-- STEP_OVERRUN (R86). Waiting for the host has no bound (R87). -/
def stepOverrun (s : State) : State := raise cfgStepOverrun (wr cfgStartState_overrunStep (startStep s) s)

def execStepOverrun (s : State) : Host.Outcome State Fault Refusal :=
  .next (onlyIf (stepRuns s && !(decide (devState s = 2 ∧ s.start.load = .none) && !s.start.restart)) stepOverrun s)

/-! ### Loads by the host -/

/-- A go that is ignored (R103). -/
def loadBusy (s : State) : State := raise cfgLoadBusy (wr cfgStartState_loadBusy 1 s)

/-- A start load begins (R87, R100): from the held state the blocks written are reset first. -/
def startLoad (image : List Byte) (s : State) : State :=
  let st := devState s
  if s.start.load = .none ∧ (st = 2 ∨ (st = 3 ∧ 16 ≤ rd cfgFailCode_code s)) then
    let t := if st = 3 then undoLoad s else s
    toStep 8 { t with start := { t.start with load := .hostStart, back := st, image := image.take (rd cfgHostLen_value s) } }
  else loadBusy s

/-- A run-time load fails (R101, R102): nothing is committed. -/
def runFails (e : LoadFail) (s : State) : State :=
  let t := reportFail e.code e.index 0 { s with start := { s.start with load := .none, banks := [] } }
  match e.refusal with
  | some (b, c) => refuseNow b c t
  | none => t

/-- The loader takes the CLS commit (R101): the refusal of the whole load. -/
def clsTaken (d : List Byte) (s : State) : Option Nat :=
  if draining s then some 1 else if (blocksWritten d).contains .cls then clsCommitRefusal s else none

/-- A commit of a run-time load; the manager of a mesh starts a system commit (R508). -/
def runCommit (b : Block) (s : State) : State :=
  if b = .cls ∧ isManager s = true ∧ otherMembers s ≠ 0 then clsCommitStart none false s else loaderCommit b s

/-- The shapers that the records of an image's scheduling blobs name (R446): destination, and class or 8 for the port shaper. -/
def blobShapers (d : List Byte) : List (Nat × Nat) :=
  (blobsOf d).flatMap (fun b => if b.kind = 0xB then
    (chunks 32 ((imContent d b).length / 32) (imContent d b)).filterMap (fun x =>
      if leAt x 0 1 = 2 then some (leAt x 2 2, leAt x 1 1) else if leAt x 0 1 = 3 then some (leAt x 2 2, 8) else none)
    else [])

/-- Shapers that a blob changed take their burst, whatever SHAPE_FILL holds (R446): `old` is the state before the commit. -/
def fillLoaded (d : List Byte) (old s : State) : State :=
  foldOver (blobShapers d) (fun x a =>
    if shaperRate x.1 x.2 a = shaperRate x.1 x.2 old ∧ shaperBurst x.1 x.2 a = shaperBurst x.1 x.2 old then a
    else putTokens x.1 x.2 (burstUnits (shaperBurst x.1 x.2 a)) a) s

/-- The end of a run-time load: its tables and shadows are written and step 12 commits each block (R101, R322). -/
def finishRun (d : List Byte) (s : State) : State :=
  match applyImage d s with
  | .error e => runFails e (withShadows d e.code e.index s)
  | .ok t =>
    match clsTaken d t with
    | some c => runFails { code := 0, index := 0, refusal := some (.cls, c) } (withShadows d 0 0 s)
    | none =>
      let u := foldOver (namedClusters d) (fun c a => wrC mcsBankCtl_bankSel c (1 - liveBank c a) a) t
      let v := foldOver (blocksWritten d) runCommit { u with start := { u.start with load := .none, banks := [] } }
      raise cfgRunLoadComplete (showConfig d (reportFail 0 0 0 (fillLoaded d u v)))

/-- Steps 9 to 11 of a run-time load, and its end unless banks are still to be written. -/
def runLoad (d : List Byte) (s : State) : State :=
  match structuralCheck s.variant (some (rd cfgHostLen_value s)) d with
  | some (code, index) => runFails { code := code, index := index } s
  | none =>
    match applyImage d s with
    | .error e => runFails e (withShadows d e.code e.index s)
    | .ok t =>
      match verifyBanks (fun c => 1 - liveBank c s) false [] (bankBlobs d) t, clsTaken d t with
      | some e, _ => runFails e (noteBank e (withShadows d e.code e.index s))
      | none, some c => runFails { code := 0, index := 0, refusal := some (.cls, c) } (withShadows d 0 0 s)
      | none, none =>
        if (namedClusters d).isEmpty then finishRun d s
        else
          let a := withShadows d 0 0 s
          foldOver (bankBlobs d) (fun x u => foldOver (maskClusters x.2.1) (fun c v => beginBankLoad c (1 - liveBank c v) (evPayload x.2.2) v) u)
            { a with start := { a.start with load := .runTime, image := d, banks := namedClusters d } }

/-- RUN_TIME_LOAD. -/
def runTimeLoad (image : List Byte) (s : State) : State :=
  if active s ∧ s.start.load = .none then runLoad (image.take (rd cfgHostLen_value s)) s else loadBusy s

/-- A write of CFG.LOAD_CTL; `image` is what the host buffer holds. -/
def loadCtlWrite (v : Word) (image : List Byte) (s : State) : State :=
  let t := storeFields .cfg cfgLoadCtl_go.off 0 v s
  if wordField v 0 1 = 0 then t
  else if wordField v 1 1 = 0 then startLoad image t else runTimeLoad image t

def execStartLoad (w : Window) (v : Word) (image : List Byte) (s : State) : Host.Outcome State Fault Refusal :=
  .next (writing w .cfg (loadCtlWrite (wordWith v 0 2 1) image) s)

def execRunTimeLoad (w : Window) (v : Word) (image : List Byte) (s : State) : Host.Outcome State Fault Refusal :=
  .next (writing w .cfg (loadCtlWrite (wordWith v 0 2 3) image) s)

/-! ### BANK_LOAD_DONE -/

/-- The cluster that a patch is writing. -/
def patchCluster (q : Patch) : Option Nat := q.clusters[q.clusters.length - q.left.length - 1]?

/-- A patch goes on with its next cluster. -/
def patchGoesOn (c : Nat) (s : State) : State :=
  match s.fw.patch with
  | some q => if patchCluster q = some c then patchNext s else s
  | none => s

/-- A run-time load goes on after its last bank. -/
def loadGoesOn (c : Nat) (s : State) : State :=
  if s.start.load = .runTime ∧ s.start.banks.contains c = true then
    let rest := s.start.banks.filter (· != c)
    let t := { s with start := { s.start with banks := rest } }
    if rest.isEmpty then finishRun s.start.image t else t
  else s

def execBankLoadDone (c : Nat) (s : State) : Host.Outcome State Fault Refusal :=
  guarded (decide (c < 32)) (onlyIf (store c s).loading.isSome (fun a => loadGoesOn c (patchGoesOn c (bankLoadDone c a))) s)

end Sys2Proof.Machine
end

