-- ==== Sys2Proof/Machine/Registers.lean ====
section
/-! DEFINITION. The commands on registers: any access of a window, reads of counters, CNT_CLEAR, CHAN_SEL and OWNER. -/

namespace Sys2Proof.Machine

/-- An access that a write of CFG.LOAD_CTL follows up: a go here brings no image, so that the host buffer reads as nothing. -/
def registerAccess (w : Window) (off be : Nat) (write : Bool) (v : Word) (s : State) : State :=
  if write = true ∧ be = 15 ∧ off = cfgLoadCtl_go.off then writing w .cfg (loadCtlWrite v []) s else accessAt w off be write v s

/-- REGISTER_WRITE (R7, R105 to R108): an aligned access of 32 bits within the 256 KiB of BAR0. -/
def execRegisterWrite (w : Window) (off be : Nat) (write : Bool) (v : Word) (s : State) : Host.Outcome State Fault Refusal :=
  guarded (decide (off < 0x40000 ∧ off % 4 = 0)) (registerAccess w off be write v s)

/-- The LO words of 64-bit counters with a snapshot: the counter arrays, the pattern checker's, PCN's. -/
def isCounterLo (off : Nat) : Bool :=
  (loOf off).isSome || decide (off = lanPatErrLo_count.off ∨ off = lanPatBitsLo_count.off ∨ off = pcnCntLo_count.off)

/-- COUNTER_SNAPSHOT_READ (R183). -/
def execCounterSnapshotRead (w : Window) (off : Nat) (s : State) : Host.Outcome State Fault Refusal :=
  guarded (isCounterLo off) (reading w (readAt w off) s)

/-- COUNTER_CLEAR (R183). -/
def execCounterClear (w : Window) (off : Nat) (v : Word) (s : State) : Host.Outcome State Fault Refusal :=
  guarded (clearOf off).isSome (writeAt w off v s)

/-- CHAN_SEL_WRITE (R111, R112). -/
def execChanSelWrite (w : Window) (b : Block) (v : Word) (s : State) : Host.Outcome State Fault Refusal :=
  .next (writingFree w b (chanSelWrite w b v) s)

/-- OWNER_WRITE (R115). -/
def execOwnerWrite (w : Window) (b : Block) (v : Word) (s : State) : Host.Outcome State Fault Refusal :=
  .next (writingFree w b (ownerWrite w b v) s)

end Sys2Proof.Machine
end

