-- ==== Sys2Proof/Machine/Dispatch.lean ====
section
/-! DEFINITION. The dispatch: one arm per command, each one direct call of its meaning. -/

namespace Sys2Proof.Machine

def exec (i : Instr) (s : State) : Host.Outcome State Fault Refusal :=
  match i with
  | .registerWrite w off be write v => Sys2Proof.Machine.execRegisterWrite w off be write v s
  | .counterSnapshotRead w off => Sys2Proof.Machine.execCounterSnapshotRead w off s
  | .counterClear w off v => Sys2Proof.Machine.execCounterClear w off v s
  | .chanSelWrite w b v => Sys2Proof.Machine.execChanSelWrite w b v s
  | .ownerWrite w b v => Sys2Proof.Machine.execOwnerWrite w b v s
  | .enableWrite w b v => Sys2Proof.Machine.execEnableWrite w b v s
  | .preconditionMet t => Sys2Proof.Machine.execPreconditionMet t s
  | .preconditionLost t => Sys2Proof.Machine.execPreconditionLost t s
  | .startComplete t failed => Sys2Proof.Machine.execStartComplete t failed s
  | .startBoundExceeded t => Sys2Proof.Machine.execStartBoundExceeded t s
  | .drainComplete t => Sys2Proof.Machine.execDrainComplete t s
  | .drainForced t => Sys2Proof.Machine.execDrainForced t s
  | .unrecoverableError t => Sys2Proof.Machine.execUnrecoverableError t s
  | .blockResetGo w b v => Sys2Proof.Machine.execBlockResetGo w b v s
  | .commitNow w b => Sys2Proof.Machine.execCommitNow w b s
  | .commitAtTime w b => Sys2Proof.Machine.execCommitAtTime w b s
  | .timedCommitFire b => Sys2Proof.Machine.execTimedCommitFire b s
  | .commitCancel w b => Sys2Proof.Machine.execCommitCancel w b s
  | .evtForceWrite w b k v => Sys2Proof.Machine.execEvtForceWrite w b k v s
  | .causeClear w off v => Sys2Proof.Machine.execCauseClear w off v s
  | .limitWindowEnd src => Sys2Proof.Machine.execLimitWindowEnd src s
  | .autoMaskQuietExpire src => Sys2Proof.Machine.execAutoMaskQuietExpire src s
  | .autoMaskWrite w g v => Sys2Proof.Machine.execAutoMaskWrite w g v s
  | .suppCountClear w v => Sys2Proof.Machine.execSuppCountClear w v s
  | .vecRearm w v => Sys2Proof.Machine.execVecRearm w v s
  | .msixUnmask t => Sys2Proof.Machine.execMsixUnmask t s
  | .railGood r slow => Sys2Proof.Machine.execRailGood r slow s
  | .railFail r => Sys2Proof.Machine.execRailFail r s
  | .porRelease straps => Sys2Proof.Machine.execPorRelease straps s
  | .resetNAssert => Sys2Proof.Machine.execResetNAssert s
  | .resetNRelease straps => Sys2Proof.Machine.execResetNRelease straps s
  | .perstNAssert => Sys2Proof.Machine.execPerstNAssert s
  | .perstNRelease => Sys2Proof.Machine.execPerstNRelease s
  | .warmResetRequest w v => Sys2Proof.Machine.execWarmResetRequest w v s
  | .failLatchClear w v => Sys2Proof.Machine.execFailLatchClear w v s
  | .strapCompare straps => Sys2Proof.Machine.execStrapCompare straps s
  | .refclkSysTimeout straps => Sys2Proof.Machine.execRefclkSysTimeout straps s
  | .refclkSysLost => Sys2Proof.Machine.execRefclkSysLost s
  | .refclkSysRestored => Sys2Proof.Machine.execRefclkSysRestored s
  | .refclkLaneLost c => Sys2Proof.Machine.execRefclkLaneLost c s
  | .refclkLaneRestored c => Sys2Proof.Machine.execRefclkLaneRestored c s
  | .timeRefLost => Sys2Proof.Machine.execTimeRefLost s
  | .timeRefRestored => Sys2Proof.Machine.execTimeRefRestored s
  | .refRatioMeasure ratio => Sys2Proof.Machine.execRefRatioMeasure ratio s
  | .paceMeasure delays => Sys2Proof.Machine.execPaceMeasure delays s
  | .paceRecoveryExpire => Sys2Proof.Machine.execPaceRecoveryExpire s
  | .avsStepUp => Sys2Proof.Machine.execAvsStepUp s
  | .avsStepDown => Sys2Proof.Machine.execAvsStepDown s
  | .avsWriteDone ok => Sys2Proof.Machine.execAvsWriteDone ok s
  | .avsRetry ok => Sys2Proof.Machine.execAvsRetry ok s
  | .paceLowClear w k v => Sys2Proof.Machine.execPaceLowClear w k v s
  | .startupStepDone o => Sys2Proof.Machine.execStartupStepDone o s
  | .stepOverrun => Sys2Proof.Machine.execStepOverrun s
  | .startLoad w v image => Sys2Proof.Machine.execStartLoad w v image s
  | .runTimeLoad w v image => Sys2Proof.Machine.execRunTimeLoad w v image s
  | .anPageReceived p page base => Sys2Proof.Machine.execAnPageReceived p page base s
  | .anNoHcdRestart p => Sys2Proof.Machine.execAnNoHcdRestart p s
  | .trainingComplete l reqs txPre => Sys2Proof.Machine.execTrainingComplete l reqs txPre s
  | .trainingTimeout l => Sys2Proof.Machine.execTrainingTimeout l s
  | .adaptComplete l rs => Sys2Proof.Machine.execAdaptComplete l rs s
  | .signalPresent l => Sys2Proof.Machine.execSignalPresent l s
  | .signalLost l => Sys2Proof.Machine.execSignalLost l s
  | .sdGlitch l => Sys2Proof.Machine.execSdGlitch l s
  | .holddownExpire l => Sys2Proof.Machine.execHolddownExpire l s
  | .tieDetectWait l => Sys2Proof.Machine.execTieDetectWait l s
  | .commaLock l offset lock => Sys2Proof.Machine.execCommaLock l offset lock s
  | .commaError l => Sys2Proof.Machine.execCommaError l s
  | .commaLockLost l => Sys2Proof.Machine.execCommaLockLost l s
  | .commaRelockTimeout l => Sys2Proof.Machine.execCommaRelockTimeout l s
  | .backgroundAdapt l ctle dfe snr => Sys2Proof.Machine.execBackgroundAdapt l ctle dfe snr s
  | .adaptLimit l => Sys2Proof.Machine.execAdaptLimit l s
  | .snrLow l => Sys2Proof.Machine.execSnrLow l s
  | .calVisit c inRange => Sys2Proof.Machine.execCalVisit c inRange s
  | .txEqStep l => Sys2Proof.Machine.execTxEqStep l s
  | .patLock l => Sys2Proof.Machine.execPatLock l s
  | .patLockLost l => Sys2Proof.Machine.execPatLockLost l s
  | .patWrap l errs bits => Sys2Proof.Machine.execPatWrap l errs bits s
  | .patInject w v => Sys2Proof.Machine.execPatInject w v s
  | .patClear w v => Sys2Proof.Machine.execPatClear w v s
  | .eyeStart w v => Sys2Proof.Machine.execEyeStart w v s
  | .eyeDone l vert horz => Sys2Proof.Machine.execEyeDone l vert horz s
  | .fecCodewordDecode p word => Sys2Proof.Machine.execFecCodewordDecode p word s
  | .pcsFault p k => Sys2Proof.Machine.execPcsFault p k s
  | .pcsFaultPersist p => Sys2Proof.Machine.execPcsFaultPersist p s
  | .linkUpTimer p rxFixed txFixed => Sys2Proof.Machine.execLinkUpTimer p rxFixed txFixed s
  | .remoteFaultReceived p => Sys2Proof.Machine.execRemoteFaultReceived p s
  | .flapWindowEnd p => Sys2Proof.Machine.execFlapWindowEnd p s
  | .penaltyEnd p => Sys2Proof.Machine.execPenaltyEnd p s
  | .frameArrival p sub head len overflow => Sys2Proof.Machine.execFrameArrival p sub head len overflow s
  | .frameTailArrival p rest o => Sys2Proof.Machine.execFrameTailArrival p rest o s
  | .parseFrame p => Sys2Proof.Machine.execParseFrame p s
  | .recircReentry => Sys2Proof.Machine.execRecircReentry s
  | .hostFrameArrival bytes => Sys2Proof.Machine.execHostFrameArrival bytes s
  | .dispatchRound c => Sys2Proof.Machine.execDispatchRound c s
  | .itemAgeExpire c seq => Sys2Proof.Machine.execItemAgeExpire c seq s
  | .flowLookupDone c seq err => Sys2Proof.Machine.execFlowLookupDone c seq err s
  | .cacheSetUnlock c seq => Sys2Proof.Machine.execCacheSetUnlock c seq s
  | .itemStart e => Sys2Proof.Machine.execItemStart e s
  | .microwordExecute e => Sys2Proof.Machine.execMicrowordExecute e s
  | .extResult e d => Sys2Proof.Machine.execExtResult e d s
  | .itemEnd e => Sys2Proof.Machine.execItemEnd e s
  | .machineCheck e flip => Sys2Proof.Machine.execMachineCheck e flip s
  | .wordReloadDone c bank w => Sys2Proof.Machine.execWordReloadDone c bank w s
  | .clusterReturn c => Sys2Proof.Machine.execClusterReturn c s
  | .goldenCompare c flip => Sys2Proof.Machine.execGoldenCompare c flip s
  | .goldenDigestCheck c bank ok => Sys2Proof.Machine.execGoldenDigestCheck c bank ok s
  | .bankLoadDone c => Sys2Proof.Machine.execBankLoadDone c s
  | .bankDrainComplete c => Sys2Proof.Machine.execBankDrainComplete c s
  | .mcsWordLoad w v => Sys2Proof.Machine.execMcsWordLoad w v s
  | .indDataWrite w v => Sys2Proof.Machine.execIndDataWrite w v s
  | .fenceTargetReady e => Sys2Proof.Machine.execFenceTargetReady e s
  | .fenceDrained e => Sys2Proof.Machine.execFenceDrained e s
  | .fenceOverrun e => Sys2Proof.Machine.execFenceOverrun e s
  | .steerCfgWrite w v => Sys2Proof.Machine.execSteerCfgWrite w v s
  | .classWaitClear w k v => Sys2Proof.Machine.execClassWaitClear w k v s
  | .cellEpoch => Sys2Proof.Machine.execCellEpoch s
  | .creditReturn d => Sys2Proof.Machine.execCreditReturn d s
  | .voqAgeDrop g d c n => Sys2Proof.Machine.execVoqAgeDrop g d c n s
  | .egressEdit d => Sys2Proof.Machine.execEgressEdit d s
  | .hostDelivery free => Sys2Proof.Machine.execHostDelivery free s
  | .mirrorCopy => Sys2Proof.Machine.execMirrorCopy s
  | .txFrameStart d sub => Sys2Proof.Machine.execTxFrameStart d sub s
  | .ctUnderrun d => Sys2Proof.Machine.execCtUnderrun d s
  | .txFrameEnd d => Sys2Proof.Machine.execTxFrameEnd d s
  | .gateEntryChange d => Sys2Proof.Machine.execGateEntryChange d s
  | .gateTakeover d => Sys2Proof.Machine.execGateTakeover d s
  | .gateCancel w v => Sys2Proof.Machine.execGateCancel w v s
  | .gclDataHiWrite w v => Sys2Proof.Machine.execGclDataHiWrite w v s
  | .gclEntryLoad w => Sys2Proof.Machine.execGclEntryLoad w s
  | .meterWrite w v => Sys2Proof.Machine.execMeterWrite w v s
  | .meterRead w v => Sys2Proof.Machine.execMeterRead w v s
  | .meterUnblock w v => Sys2Proof.Machine.execMeterUnblock w v s
  | .bpmAlloc w v => Sys2Proof.Machine.execBpmAlloc w v s
  | .bpmFree w v => Sys2Proof.Machine.execBpmFree w v s
  | .bufDataAccess w write v => Sys2Proof.Machine.execBufDataAccess w write v s
  | .l2UpdateApply => Sys2Proof.Machine.execL2UpdateApply s
  | .l2LookupOp w v => Sys2Proof.Machine.execL2LookupOp w v s
  | .l2WriteOp w v => Sys2Proof.Machine.execL2WriteOp w v s
  | .l2DeleteOp w v => Sys2Proof.Machine.execL2DeleteOp w v s
  | .l2ReadIndexOp w v => Sys2Proof.Machine.execL2ReadIndexOp w v s
  | .l2AgingTick => Sys2Proof.Machine.execL2AgingTick s
  | .learnTokenGain => Sys2Proof.Machine.execLearnTokenGain s
  | .nodeDataHiWrite w v => Sys2Proof.Machine.execNodeDataHiWrite w v s
  | .nodeEntryLoad w => Sys2Proof.Machine.execNodeEntryLoad w s
  | .lpmFence w v => Sys2Proof.Machine.execLpmFence w v s
  | .lpmFenceDone => Sys2Proof.Machine.execLpmFenceDone s
  | .nhData3Write w v => Sys2Proof.Machine.execNhData3Write w v s
  | .nhEntryLoad w => Sys2Proof.Machine.execNhEntryLoad w s
  | .ecmpDataWrite w v => Sys2Proof.Machine.execEcmpDataWrite w v s
  | .memberDataWrite w v => Sys2Proof.Machine.execMemberDataWrite w v s
  | .smacHiWrite w k v => Sys2Proof.Machine.execSmacHiWrite w k v s
  | .statClear w b v => Sys2Proof.Machine.execStatClear w b v s
  | .clsCheckDone => Sys2Proof.Machine.execClsCheckDone s
  | .drainOverrun => Sys2Proof.Machine.execDrainOverrun s
  | .forceFree w v => Sys2Proof.Machine.execForceFree w v s
  | .stageCopy w v => Sys2Proof.Machine.execStageCopy w v s
  | .stageCopyDone => Sys2Proof.Machine.execStageCopyDone s
  | .stageClear w v => Sys2Proof.Machine.execStageClear w v s
  | .stageRuleLoad w v => Sys2Proof.Machine.execStageRuleLoad w v s
  | .stageData15Write w v => Sys2Proof.Machine.execStageData15Write w v s
  | .flowTick => Sys2Proof.Machine.execFlowTick s
  | .scannerVisit visit last => Sys2Proof.Machine.execScannerVisit visit last s
  | .retireCheck c seq err => Sys2Proof.Machine.execRetireCheck c seq err s
  | .retireCleanup c done => Sys2Proof.Machine.execRetireCleanup c done s
  | .exportRingWrite => Sys2Proof.Machine.execExportRingWrite s
  | .expqConsWrite w v => Sys2Proof.Machine.execExpqConsWrite w v s
  | .expqEnable w v => Sys2Proof.Machine.execExpqEnable w v s
  | .cmdqEnable w v => Sys2Proof.Machine.execCmdqEnable w v s
  | .cmdqProdWrite w v entries => Sys2Proof.Machine.execCmdqProdWrite w v entries s
  | .cmdLookup c seq err => Sys2Proof.Machine.execCmdLookup c seq err s
  | .cmdReadIndex c seq err => Sys2Proof.Machine.execCmdReadIndex c seq err s
  | .cmdCreate c seq err => Sys2Proof.Machine.execCmdCreate c seq err s
  | .cmdDeleteKey c seq err => Sys2Proof.Machine.execCmdDeleteKey c seq err s
  | .cmdDeleteIndex c seq err => Sys2Proof.Machine.execCmdDeleteIndex c seq err s
  | .cmdWriteState c seq err => Sys2Proof.Machine.execCmdWriteState c seq err s
  | .cmdPin c seq err => Sys2Proof.Machine.execCmdPin c seq err s
  | .cmdUnpin c seq err => Sys2Proof.Machine.execCmdUnpin c seq err s
  | .poolRefill => Sys2Proof.Machine.execPoolRefill s
  | .indexHoldExpire => Sys2Proof.Machine.execIndexHoldExpire s
  | .bar2WindowWrite w v => Sys2Proof.Machine.execBar2WindowWrite w v s
  | .scrubRead x addr o last => Sys2Proof.Machine.execScrubRead x addr o last s
  | .hbmRecal k ok => Sys2Proof.Machine.execHbmRecal k ok s
  | .autoRecover t => Sys2Proof.Machine.execAutoRecover t s
  | .benchEmergencyRestart cause => Sys2Proof.Machine.execBenchEmergencyRestart cause s
  | .hallmarkRestart addr stage => Sys2Proof.Machine.execHallmarkRestart addr stage s
  | .mgmtProtectionFault => Sys2Proof.Machine.execMgmtProtectionFault s
  | .wdogKick w v => Sys2Proof.Machine.execWdogKick w v s
  | .wdogWarning => Sys2Proof.Machine.execWdogWarning s
  | .wdogExpire => Sys2Proof.Machine.execWdogExpire s
  | .benchQueueTokenGain q => Sys2Proof.Machine.execBenchQueueTokenGain q s
  | .mboxProdWrite w m v entries => Sys2Proof.Machine.execMboxProdWrite w m v entries s
  | .mboxEnable w m v => Sys2Proof.Machine.execMboxEnable w m v s
  | .svcStatus => Sys2Proof.Machine.execSvcStatus s
  | .svcRouteUpdate buf => Sys2Proof.Machine.execSvcRouteUpdate buf s
  | .svcFlashWrite buf => Sys2Proof.Machine.execSvcFlashWrite buf s
  | .svcSetPreferred => Sys2Proof.Machine.execSvcSetPreferred s
  | .svcIdentity => Sys2Proof.Machine.execSvcIdentity s
  | .svcVerify buf => Sys2Proof.Machine.execSvcVerify buf s
  | .svcDeliverBench buf => Sys2Proof.Machine.execSvcDeliverBench buf s
  | .svcHandover buf => Sys2Proof.Machine.execSvcHandover buf s
  | .newBenchReady => Sys2Proof.Machine.execNewBenchReady s
  | .oldBenchQuiesced => Sys2Proof.Machine.execOldBenchQuiesced s
  | .newBenchRunning => Sys2Proof.Machine.execNewBenchRunning s
  | .handoverTimeout => Sys2Proof.Machine.execHandoverTimeout s
  | .svcPatch buf => Sys2Proof.Machine.execSvcPatch buf s
  | .svcEnrol buf ok => Sys2Proof.Machine.execSvcEnrol buf ok s
  | .svcRevoke buf => Sys2Proof.Machine.execSvcRevoke buf s
  | .svcRollback => Sys2Proof.Machine.execSvcRollback s
  | .svcClearLock => Sys2Proof.Machine.execSvcClearLock s
  | .svcUnknown m => Sys2Proof.Machine.execSvcUnknown m s
  | .ppsOutRise => Sys2Proof.Machine.execPpsOutRise s
  | .ppsOutFall => Sys2Proof.Machine.execPpsOutFall s
  | .ppsInEdge sub => Sys2Proof.Machine.execPpsInEdge sub s
  | .ppsInMissing => Sys2Proof.Machine.execPpsInMissing s
  | .trigArm w v => Sys2Proof.Machine.execTrigArm w v s
  | .trigDisarm w v => Sys2Proof.Machine.execTrigDisarm w v s
  | .triggerFire k => Sys2Proof.Machine.execTriggerFire k s
  | .triggerPulseEnd k => Sys2Proof.Machine.execTriggerPulseEnd k s
  | .captureEdge k rising sub => Sys2Proof.Machine.execCaptureEdge k rising sub s
  | .captStuck k => Sys2Proof.Machine.execCaptStuck k s
  | .captReleased k => Sys2Proof.Machine.execCaptReleased k s
  | .captPop w => Sys2Proof.Machine.execCaptPop w s
  | .timeSnapshotRead w => Sys2Proof.Machine.execTimeSnapshotRead w s
  | .stepGo w v => Sys2Proof.Machine.execStepGo w v s
  | .rateWrite w v => Sys2Proof.Machine.execRateWrite w v s
  | .servoSample w v => Sys2Proof.Machine.execServoSample w v s
  | .servoHoldover => Sys2Proof.Machine.execServoHoldover s
  | .txTsPop w => Sys2Proof.Machine.execTxTsPop w s
  | .tieCapSend k => Sys2Proof.Machine.execTieCapSend k s
  | .tieCapability k cap peerAccepts => Sys2Proof.Machine.execTieCapability k cap peerAccepts s
  | .tieCodewordDecode k lane0 lane1 lane2 lane3 => Sys2Proof.Machine.execTieCodewordDecode k lane0 lane1 lane2 lane3 s
  | .tieSteeredItem k desc bytes => Sys2Proof.Machine.execTieSteeredItem k desc bytes s
  | .tieFrame k desc bytes => Sys2Proof.Machine.execTieFrame k desc bytes s
  | .stateSync k seq e epoch record => Sys2Proof.Machine.execStateSync k seq e epoch record s
  | .ownerChange k seq e owner epoch moving done => Sys2Proof.Machine.execOwnerChange k seq e owner epoch moving done s
  | .ownMoveGo w v => Sys2Proof.Machine.execOwnMoveGo w v s
  | .transferDone k seq e => Sys2Proof.Machine.execTransferDone k seq e s
  | .ownerMoveAcked e => Sys2Proof.Machine.execOwnerMoveAcked e s
  | .ownMoveTimeout e => Sys2Proof.Machine.execOwnMoveTimeout e s
  | .ownerMoveAbort k seq e owner epoch => Sys2Proof.Machine.execOwnerMoveAbort k seq e owner epoch s
  | .fwdWindowEnd e => Sys2Proof.Machine.execFwdWindowEnd e s
  | .heartbeatTick => Sys2Proof.Machine.execHeartbeatTick s
  | .heartbeatReceived k hb => Sys2Proof.Machine.execHeartbeatReceived k hb s
  | .controlResend k => Sys2Proof.Machine.execControlResend k s
  | .joinWaitTimeout => Sys2Proof.Machine.execJoinWaitTimeout s
  | .versionPrepare k seq n => Sys2Proof.Machine.execVersionPrepare k seq n s
  | .versionReady k seq n => Sys2Proof.Machine.execVersionReady k seq n s
  | .versionRefuse k seq code => Sys2Proof.Machine.execVersionRefuse k seq code s
  | .versionPrepareTimeout => Sys2Proof.Machine.execVersionPrepareTimeout s
  | .versionCommit k seq n sec ns => Sys2Proof.Machine.execVersionCommit k seq n sec ns s
  | .versionAbort k seq => Sys2Proof.Machine.execVersionAbort k seq s
  | .versionFreeRequest k seq => Sys2Proof.Machine.execVersionFreeRequest k seq s
  | .versionMarker k seq => Sys2Proof.Machine.execVersionMarker k seq s
  | .versionConfirm k seq => Sys2Proof.Machine.execVersionConfirm k seq s
  | .versionFree k seq => Sys2Proof.Machine.execVersionFree k seq s
  | .timeTransferStart sub => Sys2Proof.Machine.execTimeTransferStart sub s
  | .timeTransfer k sub msg => Sys2Proof.Machine.execTimeTransfer k sub msg s
  | .eventForward k seq record => Sys2Proof.Machine.execEventForward k seq record s
  | .tmkWrGo w v => Sys2Proof.Machine.execTmkWrGo w v s
  | .codeBucketRefill code => Sys2Proof.Machine.execCodeBucketRefill code s
  | .ringWrite => Sys2Proof.Machine.execRingWrite s
  | .globalTokenGain => Sys2Proof.Machine.execGlobalTokenGain s
  | .opTimeTick => Sys2Proof.Machine.execOpTimeTick s
  | .checkpointExpire => Sys2Proof.Machine.execCheckpointExpire s
  | .flushRecord o => Sys2Proof.Machine.execFlushRecord o s
  | .flashReport w v => Sys2Proof.Machine.execFlashReport w v s
  | .flushSeqWrite w v => Sys2Proof.Machine.execFlushSeqWrite w v s
  | .levelSample => Sys2Proof.Machine.execLevelSample s
  | .cntSet w v => Sys2Proof.Machine.execCntSet w v s
  | .cntZero w v => Sys2Proof.Machine.execCntZero w v s
  | .pcnFreeze w v => Sys2Proof.Machine.execPcnFreeze w v s
  | .histSnap w v => Sys2Proof.Machine.execHistSnap w v s
  | .tempRead temps => Sys2Proof.Machine.execTempRead temps s
  | .gpioEdge pin level => Sys2Proof.Machine.execGpioEdge pin level s
  | .i2cGo w k v => Sys2Proof.Machine.execI2cGo w k v s
  | .i2cDone k result data => Sys2Proof.Machine.execI2cDone k result data s
  | .mdioGo w v => Sys2Proof.Machine.execMdioGo w v s
  | .mdioDone noTurn data => Sys2Proof.Machine.execMdioDone noTurn data s
  | .uartRxChar ch lost => Sys2Proof.Machine.execUartRxChar ch lost s
  | .hbmStackTemperature k temp => Sys2Proof.Machine.execHbmStackTemperature k temp s

end Sys2Proof.Machine
end

