-- ==== Sys2Proof/WellFormed.lean ====
section
/-! DEFINITION. Well-formed commands: every operand names something that the hardware has (R1, R105). -/

namespace Sys2Proof

open Sys2Proof.Machine

/-- Whether a command's operands name existing things. A register write names a word of the 256 KiB register space (R105); a
target, lane, port, cluster, engine, destination, entry or index lies within the counts of R1 and of the blocks' chapters. What an agent
outside the block brings (values, bytes, results) is free, but for lists whose length the hardware fixes. -/
def Instr.wf : Instr → Bool
  | .registerWrite _ off _ _ _ => decide (off < 0x40000 ∧ off % 4 = 0)
  | .counterSnapshotRead _ off => isCounterLo off
  | .counterClear _ off _ => (clearOf off).isSome
  | .chanSelWrite _ _ _ => true
  | .ownerWrite _ _ _ => true
  | .enableWrite _ _ _ => true
  | .preconditionMet t => targetOk t
  | .preconditionLost t => targetOk t
  | .startComplete t _ => targetOk t
  | .startBoundExceeded t => targetOk t
  | .drainComplete t => targetOk t
  | .drainForced t => targetOk t
  | .unrecoverableError t => targetOk t
  | .blockResetGo _ _ _ => true
  | .commitNow _ _ => true
  | .commitAtTime _ _ => true
  | .timedCommitFire _ => true
  | .commitCancel _ _ => true
  | .evtForceWrite _ b k _ => decide (k < causeCount b)
  | .causeClear _ off _ => isCause off
  | .limitWindowEnd src => decide (src < 1536)
  | .autoMaskQuietExpire src => decide (src < 1536)
  | .autoMaskWrite _ g _ => decide (g < 48)
  | .suppCountClear _ _ => true
  | .vecRearm _ _ => true
  | .msixUnmask t => msixOk t
  | .railGood r _ => decide (r < 8)
  | .railFail r => decide (r < 8)
  | .porRelease _ => true
  | .resetNAssert => true
  | .resetNRelease _ => true
  | .perstNAssert => true
  | .perstNRelease => true
  | .warmResetRequest _ _ => true
  | .failLatchClear _ _ => true
  | .strapCompare _ => true
  | .refclkSysTimeout _ => true
  | .refclkSysLost => true
  | .refclkSysRestored => true
  | .refclkLaneLost c => decide (c < 4)
  | .refclkLaneRestored c => decide (c < 4)
  | .timeRefLost => true
  | .timeRefRestored => true
  | .refRatioMeasure _ => true
  | .paceMeasure delays => decide (delays.length = 16)
  | .paceRecoveryExpire => true
  | .avsStepUp => true
  | .avsStepDown => true
  | .avsWriteDone _ => true
  | .avsRetry _ => true
  | .paceLowClear _ k _ => decide (k < 16)
  | .startupStepDone _ => true
  | .stepOverrun => true
  | .startLoad _ _ _ => true
  | .runTimeLoad _ _ _ => true
  | .anPageReceived p _ _ => decide (p < 288)
  | .anNoHcdRestart p => decide (p < 288)
  | .trainingComplete l _ _ => decide (l < 288)
  | .trainingTimeout l => decide (l < 288)
  | .adaptComplete l _ => decide (l < 288)
  | .signalPresent l => decide (l < 288)
  | .signalLost l => decide (l < 288)
  | .sdGlitch l => decide (l < 288)
  | .holddownExpire l => decide (l < 288)
  | .tieDetectWait l => decide (l < 288)
  | .commaLock l _ _ => decide (l < 288)
  | .commaError l => decide (l < 288)
  | .commaLockLost l => decide (l < 288)
  | .commaRelockTimeout l => decide (l < 288)
  | .backgroundAdapt l _ _ _ => decide (l < 288)
  | .adaptLimit l => decide (l < 288)
  | .snrLow l => decide (l < 288)
  | .calVisit c _ => decide (c < 4)
  | .txEqStep l => decide (l < 288)
  | .patLock l => decide (l < 288)
  | .patLockLost l => decide (l < 288)
  | .patWrap l _ _ => decide (l < 288)
  | .patInject _ _ => true
  | .patClear _ _ => true
  | .eyeStart _ _ => true
  | .eyeDone l _ _ => decide (l < 288)
  | .fecCodewordDecode p _ => decide (p < 256)
  | .pcsFault p _ => decide (p < 256)
  | .pcsFaultPersist p => decide (p < 256)
  | .linkUpTimer p _ _ => decide (p < 256)
  | .remoteFaultReceived p => decide (p < 256)
  | .flapWindowEnd p => decide (p < 256)
  | .penaltyEnd p => decide (p < 256)
  | .frameArrival p _ _ _ _ => decide (p < 256)
  | .frameTailArrival p _ _ => decide (p < 256)
  | .parseFrame p => decide (p < 256)
  | .recircReentry => true
  | .hostFrameArrival _ => true
  | .dispatchRound c => decide (c < 32)
  | .itemAgeExpire c _ => decide (c < 32)
  | .flowLookupDone c _ _ => decide (c < 32)
  | .cacheSetUnlock c _ => decide (c < 32)
  | .itemStart e => decide (e < 512)
  | .microwordExecute e => decide (e < 512)
  | .extResult e d => decide (e < 512 ∧ d < 32)
  | .itemEnd e => decide (e < 512)
  | .machineCheck e _ => decide (e < 512)
  | .wordReloadDone c bank w => decide (c < 32 ∧ bank < 2 ∧ w < 8192)
  | .clusterReturn c => decide (c < 32)
  | .goldenCompare c _ => decide (c < 32)
  | .goldenDigestCheck c bank _ => decide (c < 32 ∧ bank < 2)
  | .bankLoadDone c => decide (c < 32)
  | .bankDrainComplete c => decide (c < 32)
  | .mcsWordLoad _ _ => true
  | .indDataWrite _ _ => true
  | .fenceTargetReady e => decide (e < 4096)
  | .fenceDrained e => decide (e < 4096)
  | .fenceOverrun e => decide (e < 4096)
  | .steerCfgWrite _ _ => true
  | .classWaitClear _ k _ => decide (k < 8)
  | .cellEpoch => true
  | .creditReturn d => decide (d ≤ 266)
  | .voqAgeDrop g d c _ => decide (g < 36 ∧ d ≤ 266 ∧ c < 8)
  | .egressEdit d => decide (d ≤ 266)
  | .hostDelivery _ => true
  | .mirrorCopy => true
  | .txFrameStart d sub => decide (d < 264 ∧ sub < 8)
  | .ctUnderrun d => decide (d < 256)
  | .txFrameEnd d => decide (d < 264)
  | .gateEntryChange d => decide (d < 256)
  | .gateTakeover d => decide (d < 256)
  | .gateCancel _ _ => true
  | .gclDataHiWrite _ _ => true
  | .gclEntryLoad _ => true
  | .meterWrite _ _ => true
  | .meterRead _ _ => true
  | .meterUnblock _ _ => true
  | .bpmAlloc _ _ => true
  | .bpmFree _ _ => true
  | .bufDataAccess _ _ _ => true
  | .l2UpdateApply => true
  | .l2LookupOp _ _ => true
  | .l2WriteOp _ _ => true
  | .l2DeleteOp _ _ => true
  | .l2ReadIndexOp _ _ => true
  | .l2AgingTick => true
  | .learnTokenGain => true
  | .nodeDataHiWrite _ _ => true
  | .nodeEntryLoad _ => true
  | .lpmFence _ _ => true
  | .lpmFenceDone => true
  | .nhData3Write _ _ => true
  | .nhEntryLoad _ => true
  | .ecmpDataWrite _ _ => true
  | .memberDataWrite _ _ => true
  | .smacHiWrite _ i _ => decide (i < 16)
  | .statClear _ b _ => decide (b = .l2t ∨ b = .lpm ∨ b = .tmk)
  | .clsCheckDone => true
  | .drainOverrun => true
  | .forceFree _ _ => true
  | .stageCopy _ _ => true
  | .stageCopyDone => true
  | .stageClear _ _ => true
  | .stageRuleLoad _ _ => true
  | .stageData15Write _ _ => true
  | .flowTick => true
  | .scannerVisit v _ => decide (v.place < 2 ^ 27 + ovfTotal)
  | .retireCheck c _ _ => decide (c < 32)
  | .retireCleanup c _ => decide (c < 32)
  | .exportRingWrite => true
  | .expqConsWrite _ _ => true
  | .expqEnable _ _ => true
  | .cmdqEnable _ _ => true
  | .cmdqProdWrite _ _ _ => true
  | .cmdLookup c _ _ => decide (c < 32)
  | .cmdReadIndex c _ _ => decide (c < 32)
  | .cmdCreate c _ _ => decide (c < 32)
  | .cmdDeleteKey c _ _ => decide (c < 32)
  | .cmdDeleteIndex c _ _ => decide (c < 32)
  | .cmdWriteState c _ _ => decide (c < 32)
  | .cmdPin c _ _ => decide (c < 32)
  | .cmdUnpin c _ _ => decide (c < 32)
  | .poolRefill => true
  | .indexHoldExpire => true
  | .bar2WindowWrite _ _ => true
  | .scrubRead x addr _ _ => scrubWordOk x addr
  | .hbmRecal k _ => decide (k < 4)
  | .autoRecover t => targetOk t
  | .benchEmergencyRestart cause => decide (1 ≤ cause ∧ cause ≤ 3)
  | .hallmarkRestart _ (.done bad) => bad.all (fun x => decide (x.1 < 32 ∧ x.2 < 2))
  | .hallmarkRestart _ .error => true
  | .mgmtProtectionFault => true
  | .wdogKick _ _ => true
  | .wdogWarning => true
  | .wdogExpire => true
  | .benchQueueTokenGain q => decide (q < 64)
  | .mboxProdWrite _ m _ _ => decide (m < 2)
  | .mboxEnable _ m _ => decide (m < 2)
  | .svcStatus => true
  | .svcRouteUpdate _ => true
  | .svcFlashWrite _ => true
  | .svcSetPreferred => true
  | .svcIdentity => true
  | .svcVerify _ => true
  | .svcDeliverBench _ => true
  | .svcHandover _ => true
  | .newBenchReady => true
  | .oldBenchQuiesced => true
  | .newBenchRunning => true
  | .handoverTimeout => true
  | .svcPatch _ => true
  | .svcEnrol _ _ => true
  | .svcRevoke _ => true
  | .svcRollback => true
  | .svcClearLock => true
  | .svcUnknown m => decide (m < 2)
  | .ppsOutRise => true
  | .ppsOutFall => true
  | .ppsInEdge _ => true
  | .ppsInMissing => true
  | .trigArm _ _ => true
  | .trigDisarm _ _ => true
  | .triggerFire k => decide (k < 8)
  | .triggerPulseEnd k => decide (k < 8)
  | .captureEdge k _ _ => decide (k < 4)
  | .captStuck k => decide (k < 4)
  | .captReleased k => decide (k < 4)
  | .captPop _ => true
  | .timeSnapshotRead _ => true
  | .stepGo _ _ => true
  | .rateWrite _ _ => true
  | .servoSample _ _ => true
  | .servoHoldover => true
  | .txTsPop _ => true
  | .tieCapSend k => decide (k < 8)
  | .tieCapability k _ _ => decide (k < 8)
  | .tieCodewordDecode k _ _ _ _ => decide (k < 8)
  | .tieSteeredItem k _ _ => decide (k < 8)
  | .tieFrame k _ _ => decide (k < 8)
  | .stateSync k _ e _ _ => decide (k < 8 ∧ e < 4096)
  | .ownerChange k _ e _ _ _ _ => decide (k < 8 ∧ e < 4096)
  | .ownMoveGo _ _ => true
  | .transferDone k _ e => decide (k < 8 ∧ e < 4096)
  | .ownerMoveAcked e => decide (e < 4096)
  | .ownMoveTimeout e => decide (e < 4096)
  | .ownerMoveAbort k _ e _ _ => decide (k < 8 ∧ e < 4096)
  | .fwdWindowEnd e => decide (e < 4096)
  | .heartbeatTick => true
  | .heartbeatReceived k _ => decide (k < 8)
  | .controlResend k => decide (k < 8)
  | .joinWaitTimeout => true
  | .versionPrepare k _ _ => decide (k < 8)
  | .versionReady k _ _ => decide (k < 8)
  | .versionRefuse k _ _ => decide (k < 8)
  | .versionPrepareTimeout => true
  | .versionCommit k _ _ _ _ => decide (k < 8)
  | .versionAbort k _ => decide (k < 8)
  | .versionFreeRequest k _ => decide (k < 8)
  | .versionMarker k _ => decide (k < 8)
  | .versionConfirm k _ => decide (k < 8)
  | .versionFree k _ => decide (k < 8)
  | .timeTransferStart sub => decide (sub < 8)
  | .timeTransfer k _ _ => decide (k < 8)
  | .eventForward k _ _ => decide (k < 8)
  | .tmkWrGo _ _ => true
  | .codeBucketRefill code => decide (3 ≤ code ∧ code < 0x10000)
  | .ringWrite => true
  | .globalTokenGain => true
  | .opTimeTick => true
  | .checkpointExpire => true
  | .flushRecord _ => true
  | .flashReport _ _ => true
  | .flushSeqWrite _ _ => true
  | .levelSample => true
  | .cntSet _ _ => true
  | .cntZero _ _ => true
  | .pcnFreeze _ _ => true
  | .histSnap _ _ => true
  | .tempRead temps => decide (temps.length = 8)
  | .gpioEdge pin _ => decide (pin < 32)
  | .i2cGo _ k _ => decide (k < 2)
  | .i2cDone k result _ => decide (k < 2 ∧ result < 3)
  | .mdioGo _ _ => true
  | .mdioDone _ _ => true
  | .uartRxChar _ _ => true
  | .hbmStackTemperature k _ => decide (k < 4)

end Sys2Proof
end

