-- ==== Sys2Proof/Safety.lean ====
section
/-! DEFINITION. What claims about the whole machine speak of: the canonical form of its byte memories, the fuses, and the relation between
a state and any later one. -/

namespace Sys2Proof.Machine

/-- Both byte memories of the block are in canonical form: equal memories are equal lists. -/
abbrev Canonical (s : State) : Prop := Memory.wf s.flow.hbm = true ∧ Memory.wf s.pools.content = true

/-- Fuses are only blown (R542, R543): the rollback count never falls, the valid fuse and the revoke bit of the owner slot are never
cleared, and a slot whose key is not being enrolled keeps its key hash. -/
def FusesOnlyBlown (s t : State) : Prop :=
  s.fw.rollback ≤ t.fw.rollback ∧ (s.fw.ownerValid = true → t.fw.ownerValid = true)
    ∧ (s.fw.ownerRevoked = true → t.fw.ownerRevoked = true)
    ∧ (s.fw.ownerHash ≠ 0 → enrolling s.fw = false → t.fw.ownerHash = s.fw.ownerHash ∧ enrolling t.fw = false)

/-- What every command leaves as it found it, or moves one way only: the queue and the hardware's variant are not touched, what has left the block
stays sent, free values are not taken twice, fuses are only blown, and the byte memories stay canonical. -/
structure Keeps (s t : State) : Prop where
  pending : t.pending = s.pending
  variant : t.variant = s.variant
  out : s.out <+: t.out
  free : s.fab.freeCount ≤ t.fab.freeCount
  fuses : FusesOnlyBlown s t
  canonical : Canonical s → Canonical t

/-- Where a command may stop although its operands are well-formed: a scrub read of an HBM address above the regions in use (R516). -/
def ReadsAbsentHbm (c : Instr) (s : State) : Prop :=
  match c with
  | .scrubRead x addr _ _ => x = .hbm ∧ hbmInUse s ≤ addr
  | _ => False

/-! ### What signalling changes -/

/-- The event source `e` stands in its cause register (R126). -/
abbrev Asserted (e : Src) (s : State) : Prop := (causeReg e.g s).getLsbD e.b = true

/-- The keys of TMK.STAT, the only registers that an offer of a record writes (R567). -/
abbrev StatKey (k : Nat) : Prop :=
  tmkStat_count.off ≤ k % 0x40000 ∧ k % 0x40000 < tmkStat_count.off + 5 * tmkStat_count.stride

/-- A state without what assertions of event sources and records write. -/
def besidesEvents (s : State) : State :=
  { s with evt := {}, tmk := {}, out := [], fab := { s.fab with regs := [], counters := [], wraps := [] } }

/-- Touchmark without the limiter and the staging of records (R566, R567): the ring, the flash log, times and sequence numbers. -/
def besidesStage (t : Touchmark) : Touchmark :=
  { t with used := [], usedAt := [], supp := [], latest := [], fifo := [], lostN := 0, lostSum := 0, lostTime := 0, lostCode := 0 }

/-- `t` is `s` but for the registers with the keys `ks`, the counters with the keys `cs`, and what assertions of event sources and records
change (R126 to R132, R562, R566, R578): the event units, the record stage, TMK.STAT, edge-mode performance counters, wrap bits and messages
sent. Cause bits are only set, nothing that was sent is taken back, masks and the MSI-X control stay. -/
structure Changes (ks cs : List Nat) (s t : State) : Prop where
  rest : besidesEvents t = besidesEvents s
  regs : ∀ k, ¬ StatKey k → k ∉ ks → sget regReset t.fab.regs k = sget regReset s.fab.regs k
  counters : ∀ k, k % 0x40000 ≠ pcnCntLo_count.off → k ∉ cs →
    sget (fun _ => 0) t.fab.counters k = sget (fun _ => 0) s.fab.counters k
  causes : ∀ e, Asserted e s → Asserted e t
  control : t.evt.mask = s.evt.mask ∧ t.evt.msixEnable = s.evt.msixEnable ∧ t.evt.msixMaskAll = s.evt.msixMaskAll
  stage : besidesStage t.tmk = besidesStage s.tmk
  out : s.out <+: t.out

/-- `t` is `s` but for what assertions and records change. -/
abbrev OnlyEvents (s t : State) : Prop := Changes [] [] s t

/-- The key of the register of field `f`, element `i`, copy `c`. -/
def keyOfField (f : Fld) (i c : Nat) : Nat := rkey (f.off + i * f.stride) c

/-- What the work of a unit leaves alone: the state machines of every block, commits, locks and channel
latches; causes are only set. -/
structure Still (s t : State) : Prop where
  targets : t.fab.targets = s.fab.targets
  commits : t.fab.commits = s.fab.commits
  owners : t.fab.owners = s.fab.owners
  latches : t.fab.latches = s.fab.latches
  variant : t.variant = s.variant
  causes : ∀ e, Asserted e s → Asserted e t

/-- The sources that an assertion may bring in turn (R128, R131, R566, R578). -/
def sideSources : List Src := [evtAutoMaskSet, pcnCntWrap, tmkSuppressing, evtMsixDisabled]

/-- The limiter and the cause bits of every source outside `es`, and the event unit's masks, are as before (R126, R128). -/
structure LimiterKept (es : List Src) (s t : State) : Prop where
  lim : ∀ e, e.b < 32 → e ∉ es → sget (fun _ => 0) t.evt.lim e.num = sget (fun _ => 0) s.evt.lim e.num
  supp : ∀ e, e.b < 32 → e ∉ es → sget (fun _ => 0) t.evt.supp e.num = sget (fun _ => 0) s.evt.supp e.num
  auto : ∀ e, e.b < 32 → e ∉ es → (autoReg e.g t).getLsbD e.b = (autoReg e.g s).getLsbD e.b

/-! ### Accesses -/

/-- A write through the window reaches the block's registers: the window is reachable, the held state does not ignore it (R98), and OWNER
does not refuse it (R116). -/
abbrev Admits (w : Window) (b : Block) (s : State) : Prop :=
  reachable w s = true ∧ heldIgnores w b s = false ∧ ownerRefuses w b s = false

/-- A write that OWNER never refuses (CHAN_SEL, OWNER, the cause registers) reaches the block's registers. -/
abbrev AdmitsFree (w : Window) (b : Block) (s : State) : Prop := reachable w s = true ∧ heldIgnores w b s = false

/-- What one bit reads as after a write (R7): `old` before, `new` written. An RWS bit keeps its value while a timed commit is armed (R120). -/
def bitAfterWrite (armed : Bool) (a : Acc) (old new : Bool) : Bool :=
  match a with
  | .rw | .rl => new
  | .rws => if armed then old else new
  | .w1c => old && !new
  | .w1s => old || new
  | .ro | .wo | .rs => old

/-- What the latest read through a window returned. -/
def lastRead (w : Window) (s : State) : Word :=
  match w with
  | .h => s.fab.rdH
  | .b => s.fab.rdB
  | .hm _ _ => s.fab.rdM

/-- No register stands at an offset for a window: an unused page, a reserved offset of a page, or the MSI-X range through window B (R106). -/
def noRegister (w : Window) (off : Nat) (s : State) : Bool :=
  match blockOfPage (off / 0x1000) with
  | none => true
  | some b =>
    if b = .hif ∧ 0x3C800 ≤ off ∧ off < 0x3CC08 then decide (w = .b)
    else if off < blockBase b + 0x80 then (headerWord w b (off - blockBase b) s).isNone
    else (pendAt b off).isNone && (findReg off).isNone

end Sys2Proof.Machine
end

