-- ==== Sys2Proof/Certificates/Slice0/Obligations.lean ====
section
/-! DEFINITION. The statements for the provers. -/

section

open Sys2Proof Sys2Proof.Machine


/-- A step takes the command at the front of the queue and runs it with the queue's rest. -/
def Obligations.StepRunsTheCommandInFront : Prop :=
  ∀ (s : State) (c : Instr) (rest : List Instr), s.pending = c :: rest → step s = exec c { s with pending := rest }

/-- With an empty queue the raw count takes one step (R449); that this is what an idle step does is the model's choice. -/
def Obligations.EmptyQueueAdvancesTheRawCount : Prop :=
  ∀ s : State, s.pending = [] →
    ∃ t, step s = .next t ∧ t = { s with tim := { s.tim with raw := t.tim.raw } } ∧
      (s.pwr.hold = .none → t.tim.raw = (s.tim.raw + 1) % 2 ^ 64) ∧ (s.pwr.hold ≠ .none → t.tim.raw = s.tim.raw)

/-- No command whose operands name existing things stops, but for a scrub read of an absent HBM address (R30, R516). -/
def Obligations.WellFormedCommandsComplete : Prop :=
  ∀ (c : Instr) (s : State),
    (c.wf = true → ¬ ReadsAbsentHbm c s →
      ∃ t, exec c s = .next t ∧ t.pending = s.pending ∧ t.variant = s.variant ∧ s.out <+: t.out) ∧
    (ReadsAbsentHbm c s → exec c s = .fault .hbmAbsent) ∧
    (c.wf = false → ¬ ReadsAbsentHbm c s → exec c s = .refused .noSuchTarget)

/-- Every step of the machine: one command leaves the queue, the variant stays, outputs are only appended, free values are not reused, fuses
are only blown (R541 to R543) and the byte memories stay in canonical form. -/
def Obligations.EveryStepKeepsTheMachine : Prop :=
  ∀ s t : State, step s = .next t →
    t.pending = s.pending.tail ∧ t.variant = s.variant ∧ s.out <+: t.out ∧ s.fab.freeCount ≤ t.fab.freeCount ∧
      FusesOnlyBlown s t ∧ (Canonical s → Canonical t)

/-- What reset leaves: targets OFF, HBM alone enabled (R123), no lock taken (R117), no cause set, canonical memories. -/
def Obligations.ResetLeavesEveryTargetOff : Prop :=
  Canonical State.reset ∧ State.reset.pending = [] ∧
  (∀ t : Target, targetOk t = true → (tgt t State.reset).st = .off ∧ ((tgt t State.reset).enable = true ↔ t.block = .hbm)) ∧
  (∀ b, b ≠ .hmk → (ownerOf b State.reset).owner = 0) ∧ (∀ e, ¬ Asserted e State.reset)

/-- R7, bit by bit, for the registers that a write only stores; the frame is every other register and all the rest of the state. -/
def Obligations.PlainWriteFollowsAccessCodes : Prop :=
  ∀ (w : Window) (b : Block) (off : Nat) (r : RegSpec) (v : Word) (s : State),
    b ∈ [Block.sys, .prt, .prs, .fch, .hbm, .fen, .tsu] → off < 0x40000 → off % 4 = 0 → blockOfPage (off / 0x1000) = some b →
    blockBase b + 0x80 ≤ off → findReg off = some r → pendAt b off = none → clearOf off = none → wrapOf off = none →
    Admits w b s → reachesFused w b r off s = false →
    ∃ t, exec (.registerWrite w off 15 true v) s = .next t ∧
      (∀ f ∈ r.fields, ∀ i < f.width,
        (reg off (copyOf w b r off s) t).getLsbD (f.lo + i) =
          bitAfterWrite (commitArmed b s) f.acc ((reg off (copyOf w b r off s) s).getLsbD (f.lo + i)) (v.getLsbD (f.lo + i))) ∧
      (∀ k, k ≠ rkey off (copyOf w b r off s) → sget regReset t.fab.regs k = sget regReset s.fab.regs k) ∧
      (∀ b', b' ≠ b → commitOf b' t = commitOf b' s) ∧
      commitOf b t = (if commitArmed b s = true ∧ (∃ f ∈ r.fields, f.acc = .rws) then { commitOf b s with shadowRefused := true }
        else commitOf b s) ∧
      t = { s with fab := { s.fab with regs := t.fab.regs, commits := t.fab.commits } }

/-- R106, and R116 for a write in a block that OWNER closes to the window. -/
def Obligations.UndefinedOffsetIsLoggedAndIgnored : Prop :=
  ∀ (w : Window) (off be : Nat) (write : Bool) (v : Word) (s : State),
    (w = .h ∨ w = .b) → off < 0x40000 → off % 4 = 0 → reachable w s = true → noRegister w off s = true →
    ∃ t, exec (.registerWrite w off be write v) s = .next t ∧ Asserted evtAccessError t ∧
      (write = false → lastRead w t = 0) ∧
      (rd evtAccessLog_valid s = 0 → rd evtAccessLog_valid t = 1 ∧ rd evtAccessLog_offset t = off ∧
        rd evtAccessLog_window t = (if w = .h then 0 else 1) ∧ rd evtAccessLog_write t = (if write then 1 else 0)) ∧
      (∀ b, if write = true ∧ blockOfPage (off / 0x1000) = some b ∧ ownerRefuses w b s = true ∧ ownerExempt b off = false
        then ownerOf b t = ⟨(ownerOf b s).owner, satAdd (ownerOf b s).denied 1 255⟩ ∧ Asserted evtOwnerDenied t
        else ownerOf b t = ownerOf b s) ∧
      Changes (if rd evtAccessLog_valid s = 0 then [keyOfField evtAccessLog_valid 0 0] else []) []
        { s with fab := { s.fab with rdH := t.fab.rdH, rdB := t.fab.rdB, owners := t.fab.owners } } t ∧
      (write = true → t.fab.rdH = s.fab.rdH ∧ t.fab.rdB = s.fab.rdB)

/-- R183: the snapshot of a port counter, and CNT_CLEAR. -/
def Obligations.PortCounterReadIsOneMoment : Prop :=
  ∀ (w : Window) (s : State), isFused .prt (selChan w .prt s) s = false →
    (∀ i < 24, reachable w s = true →
      ∃ t, exec (.counterSnapshotRead w (0xD000 + 8 * i)) s = .next t ∧
        lastRead w t = BitVec.ofNat 32 (ctr prtCtrs i (selChan w .prt s) s % 2 ^ 32) ∧
        t.fab.counters = s.fab.counters ∧ t.fab.regs = s.fab.regs ∧
        wrapSeen w (rkey (0xD000 + 8 * i) (selChan w .prt s)) t = wrapBit (rkey (0xD000 + 8 * i) (selChan w .prt s)) s ∧
        ∀ t', t'.fab.hiSnap = t.fab.hiSnap → t'.fab.latches = t.fab.latches → t'.variant = t.variant → reachable w t' = true →
          ∃ u, exec (.registerWrite w (0xD004 + 8 * i) 15 false 0) t' = .next u ∧
            lastRead w u = BitVec.ofNat 32 (ctr prtCtrs i (selChan w .prt s) s / 2 ^ 32)) ∧
    (∀ v : Word, Admits w .prt s →
      ∃ t, exec (.counterClear w 0xC0A0 v) s = .next t ∧ t = { s with fab := { s.fab with counters := t.fab.counters } } ∧
        (∀ i < 24, ctr prtCtrs i (selChan w .prt s) t = if v.getLsbD i then 0 else ctr prtCtrs i (selChan w .prt s) s) ∧
        (∀ k, (∀ i < 24, k ≠ rkey (0xD000 + 8 * i) (selChan w .prt s)) →
          sget (fun _ => 0) t.fab.counters k = sget (fun _ => 0) s.fab.counters k))

/-- R111, R112: the channel-select latch. -/
def Obligations.ChanSelSelectsOrIsRefused : Prop :=
  ∀ (w : Window) (b : Block) (v : Word) (s : State), (w = .h ∨ w = .b) → AdmitsFree w b s →
    (wordField v 0 16 < chanCount b →
      ∃ t, exec (.chanSelWrite w b v) s = .next t ∧
        latch w b t = ⟨wordField v 0 16, (latch w b s).selError && !v.getLsbD 30, v.getLsbD 31⟩ ∧
        (∀ w' b', (w' ≠ w ∨ b' ≠ b) → latch w' b' t = latch w' b' s) ∧
        t = { s with fab := { s.fab with latches := t.fab.latches } }) ∧
    (chanCount b ≤ wordField v 0 16 →
      ∃ t, exec (.chanSelWrite w b v) s = .next t ∧
        latch w b t = ⟨(latch w b s).chan, true, (latch w b s).whole⟩ ∧ Asserted evtChanSelRefused t ∧
        (∀ w' b', (w' ≠ w ∨ b' ≠ b) → latch w' b' t = latch w' b' s) ∧
        OnlyEvents { s with fab := { s.fab with latches := t.fab.latches } } t)

/-- R115, R116. -/
def Obligations.OwnerLockMovesAsStated : Prop :=
  ∀ (w : Window) (b : Block) (v : Word) (s : State), b ≠ .hmk → AdmitsFree w b s →
    let o := ownerOf b s
    let n := wordField v 0 2
    let allowed : Prop := match w with
      | .h => (o.owner = 0 ∧ n = 1) ∨ (o.owner = 1 ∧ n = 0)
      | .b => (o.owner = 0 ∧ n = 2) ∨ (o.owner = 2 ∧ n = 0)
      | .hm _ _ => True
    let denies (c : Instr) : Prop :=
      ∃ t, exec c s = .next t ∧ ownerOf b t = ⟨o.owner, min 255 (o.denied + 1)⟩ ∧ Asserted evtOwnerDenied t ∧
        OnlyEvents { s with fab := { s.fab with owners := t.fab.owners } } t ∧ (∀ b', b' ≠ b → ownerOf b' t = ownerOf b' s)
    (allowed → ∃ t, exec (.ownerWrite w b v) s = .next t ∧ ownerOf b t = ⟨n, 0⟩ ∧ (∀ b', b' ≠ b → ownerOf b' t = ownerOf b' s) ∧
      t = { s with fab := { s.fab with owners := t.fab.owners } }) ∧
    (o.denied ≤ 255 → (¬ allowed → denies (.ownerWrite w b v)) ∧
      ((w = .b ∧ o.owner = 1) ∨ (w = .h ∧ o.owner = 2) ∨ ((w = .h ∨ w = .b) ∧ o.owner = 3) →
        denies (.enableWrite w b v) ∧ denies (.blockResetGo w b v)))

/-- R121 to R123: the rows whose condition is enable. -/
def Obligations.EnableWriteMovesTheTarget : Prop :=
  ∀ (w : Window) (b : Block) (v : Word) (s : State), Admits w b s → tgtFused (selTarget w b s) s = false →
    (b = .hbm → wordField v 0 1 = 1) →
    let t := selTarget w b s
    let x := tgt t s
    ∃ u, exec (.enableWrite w b v) s = .next u ∧ ((tgt t u).enable = true ↔ wordField v 0 1 = 1) ∧
      (∀ t', tgtKey t' ≠ tgtKey t → tgt t' u = tgt t' s) ∧ u.fab.owners = s.fab.owners ∧ u.fab.latches = s.fab.latches ∧
      (∀ b', b' ≠ b → commitOf b' u = commitOf b' s) ∧
      (wordField v 0 1 = 1 → (x.st ≠ .off ∨ active s = false) → tgt t u = { x with enable := true }) ∧
      (wordField v 0 1 = 1 → x.st = .off → active s = true →
        ((tgt t u).st = .held ∧ (tgt t u).starts = x.starts) ∨
        (((tgt t u).st = .starting ∨ (tgt t u).st = .fault) ∧ (tgt t u).starts = (x.starts + 1) % 256)) ∧
      (wordField v 0 1 ≠ 1 → (tgt t u).starts = x.starts ∧
        (tgt t u).st = (match x.st with
          | .off | .held | .fault => .off
          | .starting | .on | .draining => .draining) ∧
        (x.st = .fault → (tgt t u).faultCode = 0))

/-- R121: the rows whose condition is not a write of enable. An HBM stack enters FAULT under R524 alone. -/
def Obligations.ConditionsMoveTheTarget : Prop :=
  ∀ (t : Target) (s : State), targetOk t = true →
    let x := tgt t s
    let moves (c : Instr) (p : Tgt → Prop) : Prop :=
      ∃ u, exec c s = .next u ∧ p (tgt t u) ∧ (tgt t u).enable = x.enable ∧ (∀ t', tgtKey t' ≠ tgtKey t → tgt t' u = tgt t' s) ∧
        u.fab.commits = s.fab.commits ∧ u.fab.owners = s.fab.owners ∧ u.fab.latches = s.fab.latches ∧
        ((tgt t u).st = .fault → Asserted evtBlockFault u)
    (x.st = .held → precondOk t s = true →
      moves (.preconditionMet t) (fun y => y.starts = (x.starts + 1) % 256 ∧ (y.st = .starting ∨ (y.st = .fault ∧ t.block = .prt)))) ∧
    ((x.st = .starting ∨ x.st = .on) → precondOk t s = false →
      moves (.preconditionLost t) (fun y => y = { x with st := .draining })) ∧
    (x.st = .starting → precondOk t s = true →
      (startOk t s = true → moves (.startComplete t false) (fun y => y = { x with st := .on })) ∧
      (startOk t s = false → moves (.startComplete t false) (fun y => y = { x with st := .fault, faultCode := 2 })) ∧
      moves (.startComplete t true) (fun y => y = { x with st := .fault, faultCode := 2 })) ∧
    (x.st = .starting → moves (.startBoundExceeded t) (fun y => y = { x with st := .fault, faultCode := 1 })) ∧
    (x.st = .on → t.block ≠ .hbm → moves (.unrecoverableError t) (fun y => y = { x with st := .fault, faultCode := 3 }))

/-- R121, R122, R124, R528, R529: the end of a drain, and the reset of a channel or a whole block, at rest or running, immediate or not. An engine
of FEN always ends its item first (R325). -/
def Obligations.DrainsEndInOff : Prop :=
  let others (t : Target) (s u : State) : Prop :=
    (∀ t', tgtKey t' ≠ tgtKey t → tgt t' u = tgt t' s) ∧ u.fab.commits = s.fab.commits ∧ u.fab.owners = s.fab.owners ∧
      u.fab.latches = s.fab.latches
  let Noted (b : Block) (chan whole imm : Nat) (s u : State) : Prop :=
    rd rstLastBlockReset_valid u = 1 ∧ rd rstLastBlockReset_blockCode u = blockCode b ∧ rd rstLastBlockReset_channel u = chan % 1024 ∧
      rd rstLastBlockReset_whole u = whole ∧ rd rstLastBlockReset_immediate u = imm ∧ rd rstLastBlockReset_auto u = 0 ∧
      rd rstCounts_blockResets u = (rd rstCounts_blockResets s + 1) % 2 ^ rstCounts_blockResets.w ∧ Asserted rstBlockResetDone u
  let ChanDone (b : Block) (c imm : Nat) (s u : State) : Prop :=
    tgt ⟨b, some c⟩ u = {} ∧ Noted b c 0 imm s u ∧ others ⟨b, some c⟩ s u ∧
      (b ∈ [Block.lan, .prs, .tsu, .tie, .fen, .tmg] → ∀ off r, off < 0x40000 → findReg off = some r → r.scope = .chan →
        blockOfPage (off / 0x1000) = some b → reg off c u = regReset (rkey off c))
  (∀ (t : Target) (s : State), targetOk t = true → (tgt t s).st = .draining → resetBusy t s = false → (tgt ⟨t.block, none⟩ s).resetBusy = false →
    let ends (c : Instr) (p : State → Prop) : Prop :=
      ∃ u, exec c s = .next u ∧ p u ∧ (tgt t u).enable = (tgt t s).enable ∧
        ((tgt t s).enable = false ∨ tgtFused t s = true → (tgt t u).st = .off) ∧
        ((tgt t u).st = .off ∨ (tgt t u).st = .held ∨
          ((tgt t u).starts = ((tgt t s).starts + 1) % 256 ∧ ((tgt t u).st = .starting ∨ (tgt t u).st = .fault))) ∧ others t s u
    (drainReady t (drainFrees t s) = true → ends (.drainComplete t) (fun _ => True)) ∧
    (drainReady t s = false → t.block ≠ .fen →
      ends (.drainForced t) (fun u => (tgt t u).drainForced = true ∧ Asserted evtDrainForced u))) ∧
  (∀ (b : Block) (c : Nat) (s : State), 1 < chanCount b → c < chanCount b → resettable b = true → (tgt ⟨b, some c⟩ s).st = .draining →
    (tgt ⟨b, some c⟩ s).resetBusy = true → (tgt ⟨b, none⟩ s).resetBusy = false →
    (drainReady ⟨b, some c⟩ (drainFrees ⟨b, some c⟩ s) = true →
      ∃ u, exec (.drainComplete ⟨b, some c⟩) s = .next u ∧ ChanDone b c (b2n (tgt ⟨b, some c⟩ s).resetImm) s u) ∧
    (drainReady ⟨b, some c⟩ s = false → b ≠ .fen →
      ∃ u, exec (.drainForced ⟨b, some c⟩) s = .next u ∧ ChanDone b c (b2n (tgt ⟨b, some c⟩ s).resetImm) s u ∧ Asserted evtDrainForced u)) ∧
  (∀ (w : Window) (b : Block) (v : Word) (s : State), Admits w b s → tgtFused (selTarget w b s) s = false →
    (wordField v 8 8 ≠ 0xA5 ∨ resetBusy (selTarget w b s) s = true ∨ (wordField v 0 1 = 1 ∧ resettable b = false) → w = .h ∨ w = .b →
      ∃ u, exec (.blockResetGo w b v) s = .next u ∧ Asserted evtAccessError u ∧
        Changes (if rd evtAccessLog_valid s = 0 then [keyOfField evtAccessLog_valid 0 0] else []) [] s u) ∧
    (wordField v 8 8 = 0xA5 → wordField v 0 1 = 1 → resettable b = true → resetBusy (selTarget w b s) s = false →
      (rd rstWarmCtl_busy s ≠ 0 ∨ s.pwr.perstLow = true → exec (.blockResetGo w b v) s = .next s) ∧
      (rd rstWarmCtl_busy s = 0 → s.pwr.perstLow = false → ∀ c, selTarget w b s = ⟨b, some c⟩ →
        ((tgt ⟨b, some c⟩ s).st = .off ∨ (tgt ⟨b, some c⟩ s).st = .held ∨ (tgt ⟨b, some c⟩ s).st = .fault ∨
          (wordField v 1 1 = 1 ∧ b ≠ .fen)) →
        ∃ u, exec (.blockResetGo w b v) s = .next u ∧ ChanDone b c (wordField v 1 1) s u ∧
          rd rstLastBlockReset_window u = windowBit w) ∧
      (rd rstWarmCtl_busy s = 0 → s.pwr.perstLow = false → wordField v 1 1 = 0 → ∀ c, selTarget w b s = ⟨b, some c⟩ →
        ((tgt ⟨b, some c⟩ s).st = .starting ∨ (tgt ⟨b, some c⟩ s).st = .on ∨ (tgt ⟨b, some c⟩ s).st = .draining) →
        ∃ u, exec (.blockResetGo w b v) s = .next u ∧ others ⟨b, some c⟩ s u ∧
          tgt ⟨b, some c⟩ u = { tgt ⟨b, some c⟩ s with st := .draining, resetBusy := true, resetImm := false, resetWin := windowBit w }) ∧
      (rd rstWarmCtl_busy s = 0 → s.pwr.perstLow = false → selTarget w b s = ⟨b, none⟩ →
        (∀ x ∈ targetsOf b, (tgt x s).st = .off ∨ (tgt x s).st = .held ∨ (tgt x s).st = .fault) ∨ (wordField v 1 1 = 1 ∧ b ≠ .fen) →
        ∃ u, exec (.blockResetGo w b v) s = .next u ∧ Noted b 0 1 (wordField v 1 1) s u ∧ (∀ x ∈ targetsOf b, tgt x u = {}) ∧
          (b ≠ .tim → commitOf b u = {} ∧ ∀ x, x.block ≠ b → tgt x u = tgt x s) ∧
          (b ≠ .evt → b ≠ .tim → ∀ k, k < causeCount b → causeReg (firstG b + k) u = 0) ∧
          (b ∈ [Block.prs, .tsu, .l2t, .lpm, .tmg] → ∀ off inst, off < 0x40000 → blockOfPage (off / 0x1000) = some b →
            reg off inst u = regReset (rkey off inst))) ∧
      (rd rstWarmCtl_busy s = 0 → s.pwr.perstLow = false → wordField v 1 1 = 0 → selTarget w b s = ⟨b, none⟩ →
        (∃ x ∈ targetsOf b, (tgt x s).st = .starting ∨ (tgt x s).st = .on ∨ (tgt x s).st = .draining) →
        ∃ u, exec (.blockResetGo w b v) s = .next u ∧ (tgt ⟨b, none⟩ u).resetBusy = true ∧ (tgt ⟨b, none⟩ u).resetImm = false ∧
          (∀ x ∈ targetsOf b, (tgt x u).enable = (tgt x s).enable ∧
            (tgt x u).st = if (tgt x s).st = .starting ∨ (tgt x s).st = .on then .draining else (tgt x s).st) ∧
          (∀ x, x.block ≠ b → tgt x u = tgt x s) ∧
          (b ≠ .cls → commitOf b u =
            if (commitOf b s).status = 1 then { commitOf b s with status := 0, armed := none } else commitOf b s))))

/-- R102, R118, R119: commits of every block but CLS, whose commits are versions. -/
def Obligations.CommitMovesTheShadowSet : Prop :=
  (∀ (w : Window) (b : Block) (c : Instr) (late : Bool) (s : State), b ≠ .cls →
    ((c = .commitNow w b ∧ late = false ∧ Admits w b s ∧ (commitOf b s).status ≠ 1) ∨
     (c = .commitAtTime w b ∧ late = true ∧ Admits w b s ∧ (commitOf b s).status ≠ 1 ∧ reachedAt (timeNow s) (commitAt b s) = true) ∨
     (c = .timedCommitFire b ∧ late = (commitOf b s).lateNext ∧ ∃ a, (commitOf b s).armed = some a ∧ reachedAt (timeNow s) a = true)) →
    (∀ code, blockCheck b s = some code →
      ∃ t, exec c s = .next t ∧ commitOf b t = { commitOf b s with status := 3, refusal := code, armed := none } ∧
        (∀ b', b' ≠ b → commitOf b' t = commitOf b' s) ∧
        rd cfgLastRefusal_blockCode t = blockCode b ∧ rd cfgLastRefusal_refusal t = code % 2 ^ cfgLastRefusal_refusal.w ∧
        rd cfgLastRefusal_refusalCount t = satAdd (rd cfgLastRefusal_refusalCount s) 1 (2 ^ cfgLastRefusal_refusalCount.w - 1) ∧
        Asserted cfgCommitRefused t ∧
        Changes [keyOfField cfgLastRefusal_refusal 0 0] [] { s with fab := { s.fab with commits := t.fab.commits } } t) ∧
    (blockCheck b s = none →
      ∃ u, exec c s = .next (committed b s u) ∧
        (∀ k, sget regReset u.fab.live k = if shadowed b k then sget regReset s.fab.regs k else sget regReset s.fab.live k) ∧
        commitOf b u = { commitOf b s with status := 2, late := late, lateNext := false, armed := none, count := ((commitOf b s).count + 1) % 2 ^ 16 } ∧
        (∀ b', b' ≠ b → commitOf b' u = commitOf b' s) ∧
        u = { s with fab := { s.fab with live := u.fab.live, commits := u.fab.commits } })) ∧
  (∀ (b : Block) (s u : State), (b ∉ [Block.pwr, .lan, .prt, .l2t, .mcs, .bpm, .tmg, .tim, .bnc] → committed b s u = u) ∧
    (held u = false → active u = true → cf pwrAvsCtl_floor u ≤ rd pwrAvsStatus_suggestedMv u →
      rd pwrAvsStatus_suggestedMv u ≤ cf pwrAvsCtl_ceiling u → rd pwrAvsStatus_suggestedMv (committed .pwr s u) = rd pwrAvsStatus_suggestedMv u) ∧
    (held u = true → cf pwrAvsCtl_mode s ≠ 2 → cf pwrAvsCtl_mode u = 2 →
      rd pwrAvsStatus_suggestedMv (committed .pwr s u) = 0 ∧ Output.bus "AVS" [700] ∈ (committed .pwr s u).out) ∧
    (cf bncQueueCfg_rateK s ≠ cf bncQueueCfg_rateK u → ∀ q, (benchQueue q (committed .bnc s u)).tokensUsed = 0 ∨ q ∉ u.bq.map (·.1)) ∧
    (∃ t, committed .bpm s u = t ∧ OnlyEvents { u with sw := { u.sw with guardLow := decide (sharedFree 0 u < (cf swcGuard_guard u : Int)) } } t ∧
      (∀ p, p < 5 → rdX bpmLowWater_level p 0 u ≠ 0 → (rdX bpmLowWater_level p 0 u : Int) ≤ sharedFree p s →
        sharedFree p u < rdX bpmLowWater_level p 0 u → Asserted (bpmPoolLow p) t) ∧
      (sharedFree 0 u < (cf swcGuard_guard u : Int) → u.sw.guardLow = false → Asserted swcGuardActive t)) ∧
    (committed .l2t s u = if cf l2tNotifyCfg_rateK s ≠ cf l2tNotifyCfg_rateK u then { u with l2 := { u.l2 with tokensUsed := 0 } } else u))

/-- R119, R120. -/
def Obligations.TimedCommitsArmAndCancel : Prop :=
  ∀ (w : Window) (b : Block) (s : State), Admits w b s →
    (b ≠ .cls → (commitOf b s).status ≠ 1 → reachedAt (timeNow s) (commitAt b s) = false →
      exec (.commitAtTime w b) s = .next (putCommit b { commitOf b s with status := 1, lateNext := false, armed := some (commitAt b s) } s)) ∧
    ((commitOf b s).status = 1 → ∀ c, (c = .commitNow w b ∨ c = .commitAtTime w b) →
      ∃ t, exec c s = .next t ∧ commitOf b t = { commitOf b s with refusal := 1 } ∧ rd cfgLastRefusal_blockCode t = blockCode b ∧
        rd cfgLastRefusal_refusal t = 1 ∧ Asserted cfgCommitRefused t ∧
        Changes [keyOfField cfgLastRefusal_refusal 0 0] [] { s with fab := { s.fab with commits := t.fab.commits } } t) ∧
    ((commitOf b s).status = 1 → b ≠ .cls →
      exec (.commitCancel w b) s = .next (putCommit b { commitOf b s with status := 0, armed := none } s)) ∧
    ((commitOf b s).status = 1 → b = .cls → s.mesh.ver.commitAt = none → s.mesh.ver.prepared = none →
      exec (.commitCancel w b) s =
        .next (putCommit b { commitOf b s with status := 0, armed := none } { s with ver := { s.ver with check := none } })) ∧
    (∀ t, (commitOf b s).status = 1 → b = .cls →
      t = putCommit b { commitOf b s with status := 0, armed := none } { s with ver := { s.ver with check := none } } →
      (isManager s = false → exec (.commitCancel w b) s = .next t) ∧
      (isManager s = true → s.mesh.ver.prepared ≠ none ∨ s.mesh.ver.commitAt ≠ none →
        exec (.commitCancel w b) s = .next (unprepare (versionAll 5 [] t)))) ∧
    ((commitOf b s).status ≠ 1 → exec (.commitCancel w b) s = .next s)

/-- R126, R127, R129: forced assertions, and clearing cause registers and channel-pending words. -/
def Obligations.ForcedSourcesAndClearedCauses : Prop :=
  ∀ (w : Window) (b : Block) (k : Nat) (v : Word) (s : State), k < causeCount b →
    (Admits w b s → ∃ t, exec (.evtForceWrite w b k v) s = .next t ∧ OnlyEvents s t ∧ LimiterKept sideSources s t ∧
      (∀ i, i < 32 → v.getLsbD i = true → (assignedBits (firstG b + k)).testBit i = true → Asserted ⟨firstG b + k, i⟩ t) ∧
      (1 < chanCount b → isFused b (latch w b s).chan s = false →
        (∃ i, i < 32 ∧ v.getLsbD i = true ∧ (assignedBits (firstG b + k)).testBit i = true ∧ globalSrc ⟨firstG b + k, i⟩ b = false) →
        (sget (fun _ => 0) t.evt.pend (16 * (firstG b + k) + (latch w b s).chan / 32)).getLsbD ((latch w b s).chan % 32) = true) ∧
      (chanCount b = 1 ∨ isFused b (latch w b s).chan s = true ∨ (∀ i, i < 32 → v.getLsbD i = true → globalSrc ⟨firstG b + k, i⟩ b = true) →
        t.evt.pend = s.evt.pend)) ∧
    (AdmitsFree w b s → ∃ t, exec (.causeClear w (blockBase b + 0x20 + 16 * k) v) s = .next t ∧
      OnlyEvents { s with evt := { s.evt with
        cause := sset (fun _ => 0) s.evt.cause (firstG b + k) (causeReg (firstG b + k) s &&& ~~~v) } } t ∧
      (s.evt.msixEnable = true → ∀ g, causeReg g t = if g = firstG b + k then causeReg g s &&& ~~~v else causeReg g s)) ∧
    (∀ i, 1 < chanCount b → globalCause b k = false → i < (chanCount b + 31) / 32 → Admits w b s →
      exec (.causeClear w (lastPage b + 0x800 + 0x100 * k + 4 * i) v) s = .next { s with evt := { s.evt with
        pend := sset (fun _ => 0) s.evt.pend (16 * (firstG b + k) + i)
          (sget (fun _ => 0) s.evt.pend (16 * (firstG b + k) + i) &&& ~~~v) } })

/-- R128. -/
def Obligations.TheLimiterForgets : Prop :=
  (∀ (n : Nat) (s : State), n < 1536 →
    exec (.limitWindowEnd n) s = .next { s with evt := { s.evt with lim := sset (fun _ => 0) s.evt.lim n 0 } } ∧
    ((autoReg (n / 32) s).getLsbD (n % 32) = false → exec (.autoMaskQuietExpire n) s = .next s) ∧
    ((autoReg (n / 32) s).getLsbD (n % 32) = true →
      ∃ t, exec (.autoMaskQuietExpire n) s = .next t ∧ Asserted evtAutoMaskCleared t ∧ OnlyEvents { s with evt := { s.evt with auto := t.evt.auto } } t ∧
        ((⟨n / 32, n % 32⟩ : Src) ∉ evtAutoMaskCleared :: sideSources →
          (autoReg (n / 32) t).getLsbD (n % 32) = false ∧ sget (fun _ => 0) t.evt.supp n = sget (fun _ => 0) s.evt.supp n) ∧
        (∀ e : Src, e.b < 32 → e ≠ ⟨n / 32, n % 32⟩ → e ∉ evtAutoMaskCleared :: sideSources →
          (autoReg e.g t).getLsbD e.b = (autoReg e.g s).getLsbD e.b))) ∧
  (∀ (w : Window) (g : Nat) (v : Word) (s : State), g < 48 → Admits w .evt s → s.evt.msixEnable = true →
    ∃ t, exec (.autoMaskWrite w g v) s = .next t ∧
      (∀ g', autoReg g' t = if g' = g then autoReg g s &&& ~~~v else autoReg g' s) ∧
      (∀ n, sget (fun _ => 0) t.evt.lim n = if n / 32 = g ∧ v.getLsbD (n % 32) = true then 0 else sget (fun _ => 0) s.evt.lim n) ∧
      t.evt.cause = s.evt.cause ∧ t.evt.supp = s.evt.supp ∧ t.evt.pend = s.evt.pend ∧
      OnlyEvents { s with evt := { s.evt with auto := t.evt.auto, lim := t.evt.lim } } t) ∧
  (∀ (w : Window) (v : Word) (s : State), Admits w .evt s →
    exec (.suppCountClear w v) s = .next (if wordField v 31 1 = 1
      then { s with evt := { s.evt with supp := sset (fun _ => 0) s.evt.supp (rdC evtSuppSel_source (winIdx w) s) 0 } } else s))

/-- R131. -/
def Obligations.VectorsSendOrHold : Prop :=
  (∀ (w : Window) (v : Nat) (s : State), v < 64 → Admits w .evt s →
    (s.evt.vecActive.testBit v = false → exec (.vecRearm w (BitVec.ofNat 32 v)) s = .next s) ∧
    (s.evt.vecActive.testBit v = true → s.evt.msixEnable = true → vecMasked v s = false →
      exec (.vecRearm w (BitVec.ofNat 32 v)) s = .next { s with
        evt := { s.evt with msixPend := clearBit s.evt.msixPend v }
        out := s.out ++ [.msix v (reg (msixEntry v) 0 s).toNat (reg (msixEntry v + 4) 0 s).toNat (reg (msixEntry v + 8) 0 s).toNat] }) ∧
    (s.evt.vecActive.testBit v = true → s.evt.msixEnable = true → vecMasked v s = true →
      exec (.vecRearm w (BitVec.ofNat 32 v)) s = .next { s with evt := { s.evt with msixPend := setBit s.evt.msixPend v } }) ∧
    (s.evt.vecActive.testBit v = true → s.evt.msixEnable = false →
      ∃ t, exec (.vecRearm w (BitVec.ofNat 32 v)) s = .next t ∧ OnlyEvents s t ∧ Asserted evtMsixDisabled t)) ∧
  (∀ (v : Nat) (s : State), v < 64 → reachable .h s = true → ownerRefuses .h .hif s = true →
    exec (.msixUnmask (.vector v)) s = .next (ownerDenied .hif s)) ∧
  (∀ (v : Nat) (s : State), v < 64 → Admits .h .hif s → s.evt.msixEnable = true → s.evt.msixMaskAll = false →
    (s.evt.msixPend = 0 → exec (.msixUnmask (.vector v)) s = .next (putReg (msixEntry v + 12) 0 (wordWith (reg (msixEntry v + 12) 0 s) 0 1 0) s)) ∧
    (s.evt.msixPend = 2 ^ v →
      exec (.msixUnmask (.vector v)) s = .next { putReg (msixEntry v + 12) 0 (wordWith (reg (msixEntry v + 12) 0 s) 0 1 0) s with
        evt := { s.evt with msixPend := 0 }
        out := s.out ++ [.msix v (reg (msixEntry v) 0 s).toNat (reg (msixEntry v + 4) 0 s).toNat (reg (msixEntry v + 8) 0 s).toNat] })) ∧
  (∀ (e m : Bool) (s : State), reachable .h s = true → s.evt.msixPend = 0 →
    exec (.msixUnmask (.function e m)) s = .next { s with evt := { s.evt with msixEnable := e, msixMaskAll := m } })

/-- R54, R55, R56, R64, R75. -/
def Obligations.RailsStrapsAndSystemClock : Prop :=
  ∀ s : State,
    (∀ r slow, r < 8 → s.pwr.railLow.testBit r = true →
      ∃ t, exec (.railGood r slow) s = .next t ∧
        rd pwrRailStatus_railGood t = setBit (rd pwrRailStatus_railGood s) r ∧
        rd pwrRailStatus_rampSlow t = (if slow then setBit (rd pwrRailStatus_rampSlow s) r else rd pwrRailStatus_rampSlow s) ∧
        (slow = true → Asserted pwrRampSlow t) ∧
        Changes [keyOfField pwrRailStatus_railGood 0 0] [] { s with pwr := { s.pwr with railLow := clearBit s.pwr.railLow r } } t) ∧
    (∀ w v, Admits w .pwr s → wordField v 19 1 = 1 →
      ∃ t, exec (.failLatchClear w v) s = .next t ∧ rd pwrRailStatus_failValid t = 0 ∧ rd pwrRailStatus_railGood t = rd pwrRailStatus_railGood s ∧
        Changes [keyOfField pwrRailStatus_failValid 0 0] [] { s with pwr := { s.pwr with failLatch := none } } t) ∧
    (∀ straps, s.pwr.hold = .none →
      ∃ t, exec (.strapCompare straps) s = .next t ∧ rd sysStrapSample_roleLive t = bitsOf straps 0 2 ∧
        rd sysStrapSample_deviceIdLive t = bitsOf straps 2 3 ∧ rd sysStrapSample_bootSrcLive t = bitsOf straps 5 2 ∧
        rd sysStrapSample_role t = rd sysStrapSample_role s ∧ rd sysStrapSample_deviceId t = rd sysStrapSample_deviceId s ∧
        rd sysStrapSample_bootSrc t = rd sysStrapSample_bootSrc s ∧
        Changes [keyOfField sysStrapSample_role 0 0] [] { s with pwr := { s.pwr with
          strapMism := if straps % 128 = sampledStraps s then 0 else min (s.pwr.strapMism + 1) 10 } } t ∧
        (if straps % 128 ≠ sampledStraps s ∧ s.pwr.strapMism = 9 then rd sysStrapSample_strapChanged t = 1 ∧ Asserted sysStrapChanged t
         else rd sysStrapSample_strapChanged t = rd sysStrapSample_strapChanged s ∧ t.evt = s.evt)) ∧
    (s.pwr.sysLost = false → s.pwr.hold = .none →
      ∃ t, exec .refclkSysLost s = .next t ∧ rd timStatus_onBackup t = 1 ∧ rd timStatus_locked t = 0 ∧ Asserted pwrRefclkSysLost t ∧
        Changes [keyOfField timStatus_onBackup 0 0] [] { s with pwr := { s.pwr with sysLost := true, onBackup := true } } t) ∧
    (s.pwr.sysLost = true → s.pwr.hold = .none → s.pwr.backupStart = false →
      ∃ t, exec .refclkSysRestored s = .next t ∧ rd timStatus_onBackup t = 0 ∧ rd timStatus_locked t = rd timStatus_locked s ∧
        Asserted pwrRefclkSysRestored t ∧
        Changes [keyOfField timStatus_onBackup 0 0] [] { s with pwr := { s.pwr with sysLost := false, onBackup := false } } t) ∧
    (s.pwr.sysLost = true → s.pwr.backupStart = true →
      exec .refclkSysRestored s = .next { s with pwr := { s.pwr with sysLost := false } })

/-- R26, R79 to R83. -/
def Obligations.PaceMonitorsAndVoltageAdvice : Prop :=
  ∀ s : State,
    (∀ delays : List Nat, delays.length = 16 → s.pwr.hold = .none →
      ∃ t, exec (.paceMeasure delays) s = .next t ∧
        (∀ k, k < 16 → marginOf k t = clampInt (1000 - (delays.getD k 0 : Int)) (-1024) 1023 ∧
          rdX pwrPaceMargin_below k 0 t = b2n (decide (marginOf k t < cf pwrPaceCtl_thresholdPs s)) ∧
          signed 11 (rdX pwrPaceMargin_lowWater k 0 t) = min (marginOf k t) (signed 11 (rdX pwrPaceMargin_lowWater k 0 s))) ∧
        t.pwr.paceBelow = decide (lowestMargin t < cf pwrPaceCtl_thresholdPs s) ∧ t.pwr.negative = decide (lowestMargin t < 0) ∧
        (t.pwr.paceBelow = true → s.pwr.paceBelow = false → t.pwr.ctWithdrawn = true ∧ Asserted pwrPaceMargin t) ∧
        (t.pwr.negative = true → s.pwr.negative = false → Asserted pwrPaceNegative t) ∧
        Changes (keyOfField pwrAvsStatus_suggestedMv 0 0 :: (List.range 16).map (fun k => keyOfField pwrPaceMargin_margin k 0)) []
          { s with pwr := t.pwr } t) ∧
    (s.pwr.ctWithdrawn = true → s.pwr.paceBelow = false →
      ∃ t, exec .paceRecoveryExpire s = .next t ∧ Asserted pwrPaceRestored t ∧
        OnlyEvents { s with pwr := { s.pwr with ctWithdrawn := false } } t) ∧
    (s.pwr.paceBelow = true → held s = false →
      (rd pwrAvsStatus_suggestedMv s = cf pwrAvsCtl_ceiling s →
        ∃ t, exec .avsStepUp s = .next t ∧ Asserted pwrAvsAtCeiling t ∧ OnlyEvents s t) ∧
      (rd pwrAvsStatus_suggestedMv s ≠ cf pwrAvsCtl_ceiling s →
        ∃ t, exec .avsStepUp s = .next t ∧
          rd pwrAvsStatus_suggestedMv t = min (rd pwrAvsStatus_suggestedMv s + cf pwrAvsCtl_stepUp s) (cf pwrAvsCtl_ceiling s) ∧
          Changes [keyOfField pwrAvsStatus_suggestedMv 0 0] [] { s with pwr := t.pwr } t)) ∧
    ((cf pwrPaceCtl_downMarginPs s : Int) < lowestMargin s → held s = false → cf pwrAvsCtl_floor s < rd pwrAvsStatus_suggestedMv s →
      ∃ t, exec .avsStepDown s = .next t ∧
        rd pwrAvsStatus_suggestedMv t = max (rd pwrAvsStatus_suggestedMv s - cf pwrAvsCtl_stepDown s) (cf pwrAvsCtl_floor s) ∧
        Changes [keyOfField pwrAvsStatus_suggestedMv 0 0] [] { s with pwr := t.pwr } t) ∧
    (∀ v ok, s.pwr.avsPend = some v → v < 256 →
      ∃ t, exec (.avsWriteDone ok) s = .next t ∧
        rd pwrAvsStatus_lastWrittenMv t = (if ok then v else rd pwrAvsStatus_lastWrittenMv s) ∧
        Changes [keyOfField pwrAvsStatus_lastWrittenMv 0 0] []
          { s with pwr := { s.pwr with avsPend := none, avsRetry := if ok = false ∧ cf pwrAvsCtl_mode s = 2 then some v else none } } t) ∧
    (∀ v u, s.pwr.avsRetry = some v → v < 256 → u = { s with pwr := { s.pwr with avsRetry := none }, out := s.out ++ [.bus "AVS" [700 + v]] } →
      (cf pwrAvsCtl_mode s ≠ 2 → ∀ ok, exec (.avsRetry ok) s = .next { s with pwr := { s.pwr with avsRetry := none } }) ∧
      (cf pwrAvsCtl_mode s = 2 →
        (∃ t, exec (.avsRetry true) s = .next t ∧ rd pwrAvsStatus_lastWrittenMv t = v ∧
          Changes [keyOfField pwrAvsStatus_lastWrittenMv 0 0] [] u t) ∧
        (∃ t, exec (.avsRetry false) s = .next t ∧ rd pwrAvsStatus_busError t = 1 ∧ Asserted pwrAvsBusError t ∧
          Changes [keyOfField pwrAvsStatus_busError 0 0] [] u t))) ∧
    (∀ w k v, k < 16 → Admits w .pwr s → wordField v 31 1 = 1 →
      ∃ t, exec (.paceLowClear w k v) s = .next t ∧ rdX pwrPaceMargin_lowWater k 0 t = rdX pwrPaceMargin_margin k 0 s ∧
        rdX pwrPaceMargin_margin k 0 t = rdX pwrPaceMargin_margin k 0 s ∧
        Changes [keyOfField pwrPaceMargin_lowWater k 0] [] s t)

/-- R53, R61, R64 to R66, R69 to R71, R75, R98. -/
def Obligations.PowerOnAndResetNClearTheDevice : Prop :=
  let Cleared (keepIo : Bool) (s t : State) : Prop :=
    (∀ off inst, off < 0x40000 → ¬ (keepIo = true ∧ inIoDomain off = true) → reg off inst t = regReset (rkey off inst)) ∧
    (∀ off inst, off < 0x40000 → keepIo = true → inIoDomain off = true → reg off inst t = reg off inst s) ∧
    (∀ x, tgt x t = tgtReset (tgtKey x)) ∧ (∀ b, commitOf b t = {} ∧ (b ≠ .hmk → (ownerOf b t).owner = 0)) ∧
    t.fab.latches = [] ∧ t.fab.live = [] ∧ t.fab.counters = [] ∧ t.evt = {} ∧ t.frames = [] ∧ t.flow = {} ∧ t.l2 = {} ∧ t.lpm = {} ∧ t.ver = {} ∧
    (∀ a, memByte t.flow.hbm a = 0) ∧ t.tmk.flash = s.tmk.flash ∧ t.tmk.flashPos = s.tmk.flashPos ∧
    t.fw.ownerValid = s.fw.ownerValid ∧ t.fw.ownerRevoked = s.fw.ownerRevoked ∧ t.fw.ownerHash = s.fw.ownerHash ∧
    t.fw.rollback = s.fw.rollback ∧ t.pending = s.pending ∧ t.variant = s.variant ∧ t.out = s.out
  let Released (straps cause : Nat) (s t : State) : Prop :=
    t.pwr.hold = .none ∧ t.tim = {} ∧ rd sysStrapSample_role t = bitsOf straps 0 2 ∧ rd sysStrapSample_deviceId t = bitsOf straps 2 3 ∧
    rd sysStrapSample_bootSrc t = bitsOf straps 5 2 ∧ rd sysStrapSample_roleLive t = bitsOf straps 0 2 ∧
    rd sysStrapSample_strapFault t = b2n (strapsBad straps s) ∧ rd rstResetCause_resetCause t = cause ∧
    (∀ r, s.pwr.failLatch = some r → r < 8 → rd pwrRailStatus_firstFailRail t = r ∧ rd pwrRailStatus_failValid t = 1)
  (∀ (r : Nat) (s : State), r < 8 → s.pwr.railLow.testBit r = false →
    ∃ t, exec (.railFail r) s = .next t ∧ Cleared (r != 6) s t ∧ t.tmk.ring = [] ∧ t.pwr.hold = .powerOn ∧
      t.pwr.railLow = setBit s.pwr.railLow r ∧
      (s.pwr.hold ≠ .powerOn → s.pwr.railLow.testBit 6 = false → t.pwr.failLatch = if r = 6 then none else some r) ∧
      (s.pwr.hold = .powerOn → s.pwr.railLow.testBit 6 = false → r ≠ 6 → ∀ x, s.pwr.failLatch = some x → t.pwr.failLatch = some x)) ∧
  (∀ s : State, s.pwr.resetNLow = false →
    ∃ t, exec .resetNAssert s = .next t ∧ Cleared true s t ∧ t.tmk.ring = s.tmk.ring ∧ t.pwr.resetNLow = true ∧
      t.pwr.hold = if s.pwr.hold = .powerOn then .powerOn else .resetN) ∧
  (∀ (straps : Nat) (s : State), s.pwr.hold = .powerOn → s.pwr.railLow = 0 → s.pwr.resetNLow = false →
    (s.pwr.sysLost = false →
      ∃ t, exec (.porRelease straps) s = .next t ∧ Released straps (if s.pwr.failLatch.isSome then 2 else 1) s t ∧ rd pwrRailStatus_railGood t = 255) ∧
    (s.pwr.sysLost = true →
      ∃ t, exec (.refclkSysTimeout straps) s = .next t ∧ t.pwr.hold = .none ∧ devState t = 3 ∧ rd cfgFailCode_code t = 1 ∧
        rd rstResetCause_resetCause t = (if s.pwr.failLatch.isSome then 2 else 1) ∧ rd sysStrapSample_role t = bitsOf straps 0 2 ∧
        rd timStatus_onBackup t = 1 ∧ rd pwrAvsStatus_suggestedMv t = 0 ∧ Asserted cfgHeldEntered t)) ∧
  (∀ (straps : Nat) (s : State), s.pwr.hold = .resetN → s.pwr.resetNLow = true →
    ∃ t, exec (.resetNRelease straps) s = .next t ∧ Released straps 3 s t ∧ t.pwr.resetNLow = false ∧ (s.pwr.sysLost = true → rd timStatus_onBackup t = 1))

/-- R65, R67, R68, R70, R75, R103, R117. -/
def Obligations.PerstWarmResetAndLaneClocks : Prop :=
  (∀ s : State, s.pwr.perstLow = false → s.pwr.hold = .none →
    ∃ t, exec .perstNAssert s = .next t ∧ t.pwr = { s.pwr with perstLow := true } ∧
      (∀ b, latch .h b t = {} ∧ latch .b b t = latch .b b s) ∧ t.fw.boxes = [] ∧ t.evt.msixEnable = false ∧
      (∀ x, targetOk x = true → x.block ≠ .hif → tgt x t = { tgt x s with resetBusy := false }) ∧
      (∀ off inst, ¬ StatKey (rkey off inst) → off < 0x40000 → blockOfPage (off / 0x1000) ≠ some .hif → off ≠ cfgStartState_state.off →
        reg off inst t = reg off inst s) ∧
      (s.start.load = .hostStart → rd cfgStartState_step s = 8 → s.start.back < 8 →
        rd cfgStartState_state t = s.start.back ∧ rd cfgStartState_loadAborted t = 1 ∧ Asserted cfgLoadAborted t ∧ t.start.load = .none) ∧
      (s.start.load = .runTime →
        rd cfgStartState_state t = devState s ∧ rd cfgStartState_loadAborted t = 1 ∧ Asserted cfgLoadAborted t ∧ t.start.load = .none)) ∧
  (∀ s t : State, t = { s with pwr := { s.pwr with perstLow := false } } →
    exec .perstNRelease s = .next (if ringRuns 0 t = true then takeEntries 0 8192 t else t)) ∧
  (∀ (w : Window) (v : Word) (s : State), Admits w .rst s → wordField v 8 8 = 0x5A →
    (rd rstWarmCtl_busy s = 1 →
      ∃ t, exec (.warmResetRequest w v) s = .next t ∧ Asserted rstWarmIgnored t ∧
        rd rstResetCause_warmIgnored t = satAdd (rd rstResetCause_warmIgnored s) 1 (2 ^ rstResetCause_warmIgnored.w - 1) ∧
        Changes [keyOfField rstResetCause_warmIgnored 0 0] [] s t) ∧
    (rd rstWarmCtl_busy s ≠ 1 → takesWarm s = false → exec (.warmResetRequest w v) s = .next s) ∧
    (rd rstWarmCtl_busy s ≠ 1 → takesWarm s = true →
      ∃ t, exec (.warmResetRequest w v) s = .next t ∧ rd rstResetCause_resetCause t = 4 ∧ rd rstWarmCtl_busy t = 1 ∧
        rd rstCounts_warmResets t = (rd rstCounts_warmResets s + 1) % 2 ^ rstCounts_warmResets.w ∧
        rd cfgStartState_step t = 8 ∧ devState t = (if rd sysStrapSample_bootSrc s = 0 then 0 else 2) ∧
        (∀ off inst, off < 0x40000 → warmKeeps off = false → ¬ StatKey (rkey off inst) →
          off ∉ [rstWarmCtl_busy.off, bncStatus_state.off, cfgStartState_step.off, tieMeshStatus_roleLive.off, timTrigCtl_armed.off] →
          reg off inst t = regReset (rkey off inst)) ∧
        rd sysStrapSample_role t = rd sysStrapSample_role s ∧ rd sysStrapSample_deviceId t = rd sysStrapSample_deviceId s ∧
        rd sysStrapSample_bootSrc t = rd sysStrapSample_bootSrc s ∧ rd sysStrapSample_strapChanged t = 0 ∧
        rd pwrRailStatus_rampSlow t = 0 ∧ rd pwrRailStatus_railGood t = rd pwrRailStatus_railGood s ∧
        (∀ c, c < 4 → rdX lanCalStatus_passes c 0 t = 0 ∧ rdX lanCalStatus_pllLock c 0 t = rdX lanCalStatus_pllLock c 0 s) ∧
        t.fw.vaultValid = false ∧
        (∀ x, targetOk x = true → x.block ∉ [Block.tim, .hif, .hbm] → tgt x t = tgtReset (tgtKey x)) ∧
        (∀ x, targetOk x = true → x.block ∈ [Block.tim, .hif, .hbm] → tgt x t = { tgt x s with resetBusy := false }) ∧
        (∀ b, b ≠ .hmk → (ownerOf b t).owner = 0) ∧ t.frames = [] ∧ t.flow = { hbm := s.flow.hbm } ∧ t.tim.raw = s.tim.raw ∧
        t.tmk.ring = s.tmk.ring ∧ t.tmk.flash = s.tmk.flash ∧ t.fw.rollback = s.fw.rollback ∧
        t.fw.ownerValid = s.fw.ownerValid ∧ t.fw.ownerRevoked = s.fw.ownerRevoked ∧ t.fw.ownerHash = s.fw.ownerHash ∧
        (∀ k, trigOut k t = false))) ∧
  (∀ (w : Window) (v : Word) (s : State), Admits w .rst s → wordField v 8 8 ≠ 0x5A → w = .h ∨ w = .b →
    ∃ t, exec (.warmResetRequest w v) s = .next t ∧ Asserted evtAccessError t) ∧
  (∀ (c : Nat) (s : State), chipletOk c s = true → s.pwr.hold = .none →
    (s.pwr.laneLost.testBit c = false →
      ∃ t, exec (.refclkLaneLost c) s = .next t ∧ Asserted (pwrRefclkLaneLost c) t ∧
        (∀ l, l < 288 → chipletOf l = c → isFused .lan l s = false → running ⟨.lan, some l⟩ s = true → (tgt ⟨.lan, some l⟩ t).st = .draining) ∧
        (∀ x, (∀ l, l < 288 → chipletOf l = c → tgtKey x ≠ tgtKey ⟨.lan, some l⟩) → tgt x t = tgt x s)) ∧
    (s.pwr.laneLost.testBit c = true →
      ∃ t, exec (.refclkLaneRestored c) s = .next t ∧ Asserted (pwrRefclkLaneRestored c) t ∧
        rdX lanCalStatus_pllLock c 0 t =
          (if rdX lanCalStatus_calValid c 0 s = 1 ∨ 5 < rd cfgStartState_step s then 1 else rdX lanCalStatus_pllLock c 0 s) ∧
        Changes [keyOfField lanCalStatus_pllLock c 0] [] { s with pwr := { s.pwr with laneLost := clearBit s.pwr.laneLost c } } t))

/-- R292, R524, R598, R599, R600, R607, R608. -/
def Obligations.SensorsPinsAndSlowBuses : Prop :=
  ∀ s : State,
    (∀ (temps : List Int) (m : Int), temps.length = 8 → s.pwr.hold = .none →
      (∃ i, i < 8 ∧ sensorPresent s i = true ∧ temps.getD i 0 = m) →
      (∀ i, i < 8 → sensorPresent s i = true → temps.getD i 0 ≤ m) →
      ∃ t, exec (.tempRead temps) s = .next t ∧
        (∀ i, i < 8 → rdX mioTemp_tempC i 0 t =
          if sensorPresent s i then unsigned 9 (clampInt (temps.getD i 0) (-256) 255) else rdX mioTemp_tempC i 0 s) ∧
        rd mioTempMax_tempC t = unsigned 9 (clampInt m (-256) 255) ∧
        signed 9 (rd mioTempMax_peakC t) =
          (if s.io.seen = true then max (clampInt m (-256) 255) (signed 9 (rd mioTempMax_peakC s)) else clampInt m (-256) 255) ∧
        (s.io.high = false → (rd mioThermCfg_highC s : Int) ≤ clampInt m (-256) 255 → Asserted mioThermalHigh t) ∧
        (s.io.critical = false → (rd mioThermCfg_criticalC s : Int) ≤ clampInt m (-256) 255 → Asserted mioThermalCritical t) ∧
        Changes (keyOfField mioTempMax_tempC 0 0 :: (List.range 8).map (fun i => keyOfField mioTemp_tempC i 0)) []
          { s with io :=
            { high := decide ((rd mioThermCfg_highC s : Int) - (if s.io.high then 4 else 0) ≤ clampInt m (-256) 255)
              critical := decide ((rd mioThermCfg_criticalC s : Int) - (if s.io.critical then 4 else 0) ≤ clampInt m (-256) 255)
              seen := true } } t) ∧
    (∀ pin level, pin < 32 → s.pwr.hold = .none → (rd mioGpioIn_level s).testBit pin ≠ level →
      ∃ t, exec (.gpioEdge pin level) s = .next t ∧
        rd mioGpioIn_level t = (if level then setBit (rd mioGpioIn_level s) pin else clearBit (rd mioGpioIn_level s) pin) ∧
        (if (rd mioGpioEdgeEn_enable s).testBit pin then
          rd mioGpioEdge_edge t = setBit (rd mioGpioEdge_edge s) pin ∧ Asserted mioGpioEdge t
         else rd mioGpioEdge_edge t = rd mioGpioEdge_edge s ∧ t.evt = s.evt) ∧
        Changes [keyOfField mioGpioIn_level 0 0, keyOfField mioGpioEdge_edge 0 0] [] s t) ∧
    (∀ w k v, k < 2 → Admits w .mio s → rdX mioI2cCmd_busy k 0 s = 0 → 1 ≤ wordField v 8 3 → wordField v 8 3 ≤ 4 →
      ∃ t, exec (.i2cGo w k v) s = .next t ∧ rdX mioI2cCmd_busy k 0 t = 1 ∧ rdX mioI2cCmd_addr k 0 t = wordField v 0 7 ∧
        rdX mioI2cCmd_read k 0 t = wordField v 7 1 ∧ rdX mioI2cCmd_len k 0 t = wordField v 8 3 ∧
        t.out = s.out ++ [.bus (if k = 0 then "I2C0" else "I2C1")
          [wordField v 0 7, wordField v 7 1, wordField v 8 3, rdX mioI2cData_data k 0 s]] ∧
        Changes [keyOfField mioI2cCmd_busy k 0] [] s t) ∧
    (∀ k result data, k < 2 → result < 3 → rdX mioI2cCmd_busy k 0 s = 1 →
      ∃ t, exec (.i2cDone k result data) s = .next t ∧ rdX mioI2cCmd_busy k 0 t = 0 ∧ rdX mioI2cCmd_result k 0 t = result ∧
        rdX mioI2cData_data k 0 t = (if result = 0 ∧ rdX mioI2cCmd_read k 0 s = 1
          then data.toNat % 256 ^ rdX mioI2cCmd_len k 0 s % 2 ^ 32 else rdX mioI2cData_data k 0 s) ∧
        Asserted (if k = 0 then mioI2c0Done else mioI2c1Done) t ∧ (result ≠ 0 → Asserted mioI2cError t) ∧
        (result = 2 → Output.bus (if k = 0 then "I2C0" else "I2C1") [9] ∈ t.out) ∧
        Changes [keyOfField mioI2cCmd_busy k 0, keyOfField mioI2cData_data k 0] [] s t) ∧
    (∀ w v, Admits w .mio s → rd mioMdioCmd_busy s = 0 → mdioOpOk (wordField v 12 1) (wordField v 10 2) = true →
      ∃ t, exec (.mdioGo w v) s = .next t ∧ rd mioMdioCmd_busy t = 1 ∧ rd mioMdioCmd_error t = 0 ∧
        rd mioMdioCmd_phy t = wordField v 0 5 ∧ rd mioMdioCmd_reg t = wordField v 5 5 ∧ rd mioMdioCmd_op t = wordField v 10 2 ∧
        rd mioMdioCmd_c45 t = wordField v 12 1 ∧
        t.out = s.out ++ [.bus "MDIO" [wordField v 0 5, wordField v 5 5, wordField v 10 2, wordField v 12 1, rd mioMdioData_data s]] ∧
        Changes [keyOfField mioMdioCmd_busy 0 0] [] s t) ∧
    (∀ noTurn data, rd mioMdioCmd_busy s = 1 →
      ∃ t, exec (.mdioDone noTurn data) s = .next t ∧ rd mioMdioCmd_busy t = 0 ∧
        rd mioMdioCmd_error t = b2n (noTurn && mdioReads s) ∧ Asserted mioMdioDone t ∧
        (noTurn = true → mdioReads s = true → Asserted mioMdioError t) ∧
        rd mioMdioData_data t = (if mdioReads s = true ∧ noTurn = false then data % 2 ^ 16 else rd mioMdioData_data s) ∧
        Changes [keyOfField mioMdioCmd_busy 0 0, keyOfField mioMdioData_data 0 0] [] s t) ∧
    (∀ ch, s.pwr.hold = .none →
      exec (.uartRxChar ch false) s = .next { s with out := s.out ++ [.bus "UART" [ch % 256]] } ∧
      ∃ t, exec (.uartRxChar ch true) s = .next t ∧ Asserted mioUartOverrun t ∧ OnlyEvents s t) ∧
    (∀ k temp, k < 4 → temp < 256 → isFused .hbm k s = false → s.pwr.hold = .none →
      ∃ t, exec (.hbmStackTemperature k temp) s = .next t ∧ rdC hbmStackStatus_tempC k t = temp ∧
        rdC hbmStackStatus_refresh2x k t = b2n (decide (85 < temp)) ∧
        (rdC hbmStackStatus_refresh2x k s ≠ b2n (decide (85 < temp)) → Asserted hbmRefresh2x t) ∧
        (95 < temp → s.recov.hot.testBit k = false → Asserted hbmTempHigh t) ∧
        Changes [keyOfField hbmStackStatus_tempC 0 k] [] { s with recov := { s.recov with
          hot := if 95 < temp then setBit s.recov.hot k else clearBit s.recov.hot k } } t)

/-- R559, R563, R566 to R568, R570. -/
def Obligations.RecordsGoFromOfferToRing : Prop :=
  ∀ s : State,
    (∀ r rest, s.tmk.fifo = r :: rest → s.tmk.globalUsed < 400 → s.tmk.lostN = 0 → rd tieMeshStatus_roleLive s = 3 →
      sget ringDefault s.tmk.ring (16 * (s.tmk.seqNext % 4096) + 15) ≠ BitVec.ofNat 32 ((s.tmk.seqNext + 2 ^ 32 - 4096) % 2 ^ 32) →
      let u : State := satX tmkStat_count 0 0 1 { s with tmk := { s.tmk with
        fifo := rest
        globalUsed := s.tmk.globalUsed + 1
        ring := putWords ringDefault s.tmk.ring (16 * (s.tmk.seqNext % 4096)) (wordsOf 16 (recBytes s.tmk.seqNext r))
        seqNext := (s.tmk.seqNext + 1) % 2 ^ 32 } }
      exec .ringWrite s = .next (if r.code = 1 then raise tmkLostRecords u else u)) ∧
    exec .globalTokenGain s = .next { s with tmk := { s.tmk with globalUsed := s.tmk.globalUsed - 1 } } ∧
    (s.pwr.railLow = 0 → s.fw.fusing = none → exec .opTimeTick s = .next { s with tmk := { s.tmk with opTime := (s.tmk.opTime + 1) % 2 ^ 48 } }) ∧
    (s.pwr.railLow ≠ 0 → exec .opTimeTick s = .next s) ∧
    (s.pwr.hold = .none → ∃ t, exec .checkpointExpire s = .next t ∧ t = writeRec 3 0 0x38 1024 [] s ∧ OnlyEvents s t) ∧
    (s.pwr.hold ≠ .none → exec .checkpointExpire s = .next s) ∧
    (∀ key n, tokensUsed key (putUsed key n s) = n ∧ tokensUsed key s =
      sget (fun _ => 0) s.tmk.used key - (s.tmk.opTime - sget (fun _ => 0) s.tmk.usedAt key) / bucketPeriod key s) ∧
    (∀ r, limitedCode r.code = true → tokensUsed (bucketOf r.code) s < bucketBurst (bucketOf r.code) s →
      tokensUsed (bucketOf r.code) (offerRec r s).state = tokensUsed (bucketOf r.code) s + 1) ∧
    (∀ code, 3 ≤ code → code < 0x10000 →
      (tokensUsed (bucketOf code) s ≠ 0 ∨ sget (fun _ => 0) s.tmk.supp (bucketOf code) = 0 → exec (.codeBucketRefill code) s = .next s) ∧
      (∀ e o, tokensUsed (bucketOf code) s = 0 → sget (fun _ => 0) s.tmk.supp (bucketOf code) ≠ 0 →
        s.tmk.latest.find? (fun x => x.1 == bucketOf code) = some e →
        o = offerRec { e.2 with flags := e.2.flags + 8 }
          { s with tmk := { s.tmk with latest := s.tmk.latest.filter (fun x => x.1 != bucketOf code) } } →
        exec (.codeBucketRefill code) s = .next (if o.emptied = true then raise tmkSuppressing o.state else o.state))) ∧
    (∀ w v, Admits w .tmk s → wrRefused w (rdC tmkWrHdr_code (winIdx w) s) (rdC tmkWrHdr_severity (winIdx w) s) = true →
      exec (.tmkWrGo w v) s = .next (wrC tmkWrCtl_result (winIdx w) 3 s)) ∧
    (∀ w v, Admits w .tmk s → wrRefused w (rdC tmkWrHdr_code (winIdx w) s) (rdC tmkWrHdr_severity (winIdx w) s) = false →
      ∃ t, exec (.tmkWrGo w v) s = .next t ∧ Changes [keyOfField tmkWrCtl_result 0 (winIdx w)] [] s t ∧
        rdC tmkWrCtl_result (winIdx w) t = (offerRec
          { code := rdC tmkWrHdr_code (winIdx w) s
            flags := rdC tmkWrHdr_severity (winIdx w) s + (if w = .h then 128 else 0)
            block := rdC tmkWrHdr_block (winIdx w) s
            chan := rdC tmkWrChan_channel (winIdx w) s + 1024 * rdC tmkWrChan_whole (winIdx w) s
            payload := (List.range 4).foldl (fun a i => a ++ bytesLE 4 (rdX tmkWrPayload_payload i (winIdx w) s)) [] } s).result % 4)

/-- R572 to R575. -/
def Obligations.RingRecordsReachFlash : Prop :=
  ∀ s : State,
    (s.pwr.railLow ≠ 0 ∨ s.pwr.hold ≠ .none ∨ s.tmk.noFlash = true → ∀ o, exec (.flushRecord o) s = .next s) ∧
    (∀ seq ws, s.pwr.railLow = 0 → s.pwr.hold = .none → s.tmk.noFlash = false →
      seq = (s.tmk.flushSeq + 1) % 2 ^ 32 → ws = slotWords ringDefault s.tmk.ring (seq % 4096) →
      0 < seqDiff s.tmk.seqNext seq → recComplete ws = true → ws.getD 0 0 = BitVec.ofNat 32 seq →
      exec (.flushRecord .done) s = .next { s with tmk := { s.tmk with
        flash := if s.tmk.flashPos % 1024 = 512
          then eraseSector (nextSector s.tmk.badSectors (s.tmk.flashPos / 1024)) (putWords flashDefault s.tmk.flash (16 * s.tmk.flashPos) ws)
          else putWords flashDefault s.tmk.flash (16 * s.tmk.flashPos) ws
        flashPos := nextSlot s.tmk.badSectors s.tmk.flashPos
        flushSeq := seq } } ∧
      (s.tmk.flashPos % 1024 ≠ 512 → exec (.flushRecord .eraseFailed) s = exec (.flushRecord .done) s) ∧
      (∀ lost bad, s.tmk.flashPos % 1024 = 512 → lost = nextSector s.tmk.badSectors (s.tmk.flashPos / 1024) →
        bad = (if s.tmk.badSectors.contains lost then s.tmk.badSectors else s.tmk.badSectors ++ [lost]) →
        ∃ t, exec (.flushRecord .eraseFailed) s = .next t ∧ Asserted tmkFlashError t ∧
          rd tmkFlashReport_badSectors t = satAdd (rd tmkFlashReport_badSectors s) 1 (2 ^ tmkFlashReport_badSectors.w - 1) ∧
          Changes [keyOfField tmkFlashReport_badSectors 0 0] []
            { s with tmk := { s.tmk with
              flash := eraseSector (nextSector bad (s.tmk.flashPos / 1024)) (putWords flashDefault
                (putWords flashDefault s.tmk.flash (16 * s.tmk.flashPos) ws) (16384 * lost) (List.replicate 16 0))
              badSectors := bad
              flashPos := nextSlot s.tmk.badSectors s.tmk.flashPos
              flushSeq := seq } } t) ∧
      ∃ t bad, exec (.flushRecord .writeFailed) s = .next t ∧
        bad = (if s.tmk.badSectors.contains (s.tmk.flashPos / 1024) then s.tmk.badSectors else s.tmk.badSectors ++ [s.tmk.flashPos / 1024]) ∧
        Asserted tmkFlashError t ∧ Changes [keyOfField tmkFlashReport_badSectors 0 0] []
          { s with tmk := { s.tmk with
            flash := eraseSector (nextSector bad (s.tmk.flashPos / 1024))
              (putWords flashDefault s.tmk.flash (16384 * (s.tmk.flashPos / 1024)) (List.replicate 16 0))
            badSectors := bad
            flashPos := nextSector bad (s.tmk.flashPos / 1024) * 1024 } } t ∧
        rd tmkFlashReport_badSectors t = satAdd (rd tmkFlashReport_badSectors s) 1 (2 ^ tmkFlashReport_badSectors.w - 1)) ∧
    (∀ o, seqDiff s.tmk.seqNext ((s.tmk.flushSeq + 1) % 2 ^ 32) ≤ 0 → exec (.flushRecord o) s = .next s) ∧
    (∀ o seq ws, s.pwr.railLow = 0 → s.pwr.hold = .none → s.tmk.noFlash = false → seq = (s.tmk.flushSeq + 1) % 2 ^ 32 →
      ws = slotWords ringDefault s.tmk.ring (seq % 4096) → 0 < seqDiff s.tmk.seqNext seq →
      ¬ (recComplete ws = true ∧ ws.getD 0 0 = BitVec.ofNat 32 seq) →
      exec (.flushRecord o) s = .next { s with tmk := { s.tmk with flushSeq := seq } }) ∧
    (∀ w v, w ≠ .h → Admits w .tmk s →
      (wordField v 8 1 = 1 → exec (.flashReport w v) s = .next (raise tmkFlashError (satX tmkFlashReport_badSectors 0 0 1 s))) ∧
      (wordField v 8 1 = 0 → exec (.flashReport w v) s = .next s) ∧
      exec (.flushSeqWrite w v) s = .next { s with tmk := { s.tmk with flushSeq := v.toNat } }) ∧
    (∀ v, Admits .h .tmk s →
      exec (.flashReport .h v) s = .next (accessError .h tmkFlashReport_bad.off true s) ∧
      exec (.flushSeqWrite .h v) s = .next (accessError .h tmkFlushSeq_sequence.off true s))

/-- R578 to R583. -/
def Obligations.CountersFreezeAndHistogramsSnap : Prop :=
  (∀ (w : Window) (v : Word) (s : State), Admits w .pcn s →
    (exec (.cntSet w v) s = .next
      (if wordField v 1 1 = 1 then putCtr (pcnKey (rdC pcnCntSel_counter (winIdx w) s)) 0
          (putCtr (pcnKey (rdC pcnCntSel_counter (winIdx w) s)) (rdC pcnSetLo_value (winIdx w) s + 2 ^ 32 * rdC pcnSetHi_value (winIdx w) s) s)
        else putCtr (pcnKey (rdC pcnCntSel_counter (winIdx w) s)) (rdC pcnSetLo_value (winIdx w) s + 2 ^ 32 * rdC pcnSetHi_value (winIdx w) s) s)) ∧
    (∃ t, exec (.cntZero w v) s = .next t ∧
      sget (fun _ => 0) t.fab.counters (pcnKey (rdC pcnCntSel_counter (winIdx w) s)) = 0 ∧
      Changes [] [pcnKey (rdC pcnCntSel_counter (winIdx w) s)] s t)) ∧
  (∀ (w : Window) (v : Word) (s : State), Admits w .pcn s →
    ∃ t, exec (.pcnFreeze w v) s = .next t ∧ t = { s with pcn := { s.pcn with frozen := t.pcn.frozen, frozenWrap := t.pcn.frozenWrap } } ∧
      (∀ i, sget zeroDefault t.pcn.frozen (4 * i + winIdx w) = sget zeroDefault s.fab.counters (pcnKey i) ∧
        sget (fun _ => false) t.pcn.frozenWrap (4 * i + winIdx w) = sget (fun _ => false) s.fab.wraps (pcnKey i)) ∧
      (∀ i d, d < 4 → d ≠ winIdx w → sget zeroDefault t.pcn.frozen (4 * i + d) = sget zeroDefault s.pcn.frozen (4 * i + d) ∧
        sget (fun _ => false) t.pcn.frozenWrap (4 * i + d) = sget (fun _ => false) s.pcn.frozenWrap (4 * i + d))) ∧
  (∀ (w : Window) (v : Word) (s : State), Admits w .pcn s →
    exec (.histSnap w v) s = .next { s with pcn := { s.pcn with
      snaps := sset histDefault s.pcn.snaps (winIdx w) (sget histDefault s.pcn.hists (rdC pcnHistSel_hist (winIdx w) s))
      snapValid := sset (fun _ => false) s.pcn.snapValid (winIdx w) true
      snapOf := sset zeroDefault s.pcn.snapOf (winIdx w) (rdC pcnHistSel_hist (winIdx w) s)
      hists := if wordField v 1 1 = 1
        then sset histDefault s.pcn.hists (rdC pcnHistSel_hist (winIdx w) s)
          { wrap := (sget histDefault s.pcn.hists (rdC pcnHistSel_hist (winIdx w) s)).wrap }
        else s.pcn.hists } }) ∧
  (∀ s : State, s.pwr.hold = .none →
    let adds (i : Nat) : Nat :=
      if blockOn .pcn s then (((levelCounters s).filter (fun e => e.1 == i)).map (fun e => gaugeValue e.2 s)).sum else 0
    (∀ i, cfC pcnCntCfg_mode i s = 4 → (i, cfC pcnCntCfg_src i s) ∈ levelCounters s) ∧
    ((∀ i, sget (fun _ => 0) s.fab.counters (pcnKey i) + adds i < 2 ^ 64) →
      ∃ t, exec .levelSample s = .next t ∧
        (∀ i, sget (fun _ => 0) t.fab.counters (pcnKey i) = sget (fun _ => 0) s.fab.counters (pcnKey i) + adds i) ∧
        (∀ k, (∀ i, k ≠ pcnKey i) → sget (fun _ => 0) t.fab.counters k = sget (fun _ => 0) s.fab.counters k) ∧
        (∀ c, c < 32 → rdC dspLoad_busy c t = min 1023 (sget zeroDefault s.dsp.busyNow c * 1024 / clusterCyclesMs) ∧
          rdC dspLoad_itemsK c t = min 65535 (sget zeroDefault s.dsp.endedNow c / 1000)) ∧
        (∀ k, (∀ c, c < 32 → k ≠ keyOfField dspLoad_busy 0 c) → sget regReset t.fab.regs k = sget regReset s.fab.regs k) ∧
        t = { s with fab := { s.fab with regs := t.fab.regs, counters := t.fab.counters }, dsp := { s.dsp with busyNow := [], endedNow := [] } }) ∧
    (∀ i src, levelCounters s = [(i, src)] → blockOn .pcn s = true → edgeCounters pcnCntWrap.num s = [] →
      2 ^ 64 ≤ sget (fun _ => 0) s.fab.counters (pcnKey i) + gaugeValue src s →
      ∃ t, exec .levelSample s = .next t ∧ Asserted pcnCntWrap t ∧ sget (fun _ => false) t.fab.wraps (pcnKey i) = true))

/-- R84 to R103. `loadCtl` is what storing the written word leaves. -/
def Obligations.StartupStepsAndLoads : Prop :=
  ∀ s : State,
    (stepRuns s = true →
      (∀ read, startStep s = 1 → exec (.startupStepDone (.passed read)) s = .next (wr cfgStartState_step 2 s)) ∧
      (∀ read, startStep s = 6 → exec (.startupStepDone (.passed read)) s = .next (wr cfgStartState_step 7 (wr bncStatus_state 1 s))) ∧
      (∀ read, startStep s = 7 → rd sysStrapSample_bootSrc s = 0 →
        ∃ t, exec (.startupStepDone (.passed read)) s = .next t ∧ devState t = 1 ∧ startStep t = 8 ∧ Asserted cfgReadyForConfig t ∧
          t.start = { s.start with restart := false }) ∧
      (∀ read, startStep s = 13 →
        ∃ t x, exec (.startupStepDone (.passed read)) s = .next t ∧ t = raise cfgStartComplete (releaseTargets x) ∧ Asserted cfgStartComplete t ∧
          devState x = 4 ∧ startStep x = 15 ∧ (s.start.firstFail = none → rd cfgFailCode_code x = 0) ∧ rd cfgImageInfo_sequence x = imSequence s.start.image % 2 ^ cfgImageInfo_sequence.w ∧
          x.start = { s.start with load := .none, tried := false, firstFail := none }) ∧
      (∀ code detail, stepFailure (startStep s) = some code →
        ∃ t, exec (.startupStepDone (.failed code detail)) s = .next t ∧ t = enterHeld code detail 0 (if startStep s = 2 then establish s else s) ∧ devState t = 3 ∧
          (code < 256 → rd cfgFailCode_code t = code) ∧ Asserted cfgHeldEntered t) ∧
      (∀ code detail, stepFailure (startStep s) ≠ some code → exec (.startupStepDone (.failed code detail)) s = .next s) ∧
      (∀ read, startStep s = 8 → s.start.restart = true → copyGood s = false →
        ∃ t, exec (.startupStepDone (.passed read)) s = .next t ∧ devState t = 0 ∧ startStep t = 4) ∧
      ((devState s ≠ 2 ∨ s.start.load ≠ .none) →
        ∃ t, exec .stepOverrun s = .next t ∧ rd cfgStartState_overrunStep t = startStep s ∧ startStep t = startStep s ∧
          Asserted cfgStepOverrun t ∧ Changes [keyOfField cfgStartState_overrunStep 0 0] [] s t)) ∧
    (∀ w v image u, Admits w .cfg s → u = storeFields .cfg cfgLoadCtl_go.off 0 (wordWith v 0 2 1) s →
      (devState u = 2 → u.start.load = .none →
        exec (.startLoad w v image) s = .next (wr cfgStartState_step 8 { u with start := { u.start with
          load := .hostStart, back := 2, image := image.take (rd cfgHostLen_value u) } })) ∧
      (u.start.load ≠ .none → exec (.startLoad w v image) s = .next (raise cfgLoadBusy (wr cfgStartState_loadBusy 1 u)))) ∧
    (∀ w v image u t, Admits w .cfg s → u = storeFields .cfg cfgLoadCtl_go.off 0 (wordWith v 0 2 3) s →
      (active u = true → u.start.load = .none →
        structuralCheck u.variant (some (rd cfgHostLen_value u)) (image.take (rd cfgHostLen_value u)) = none →
        applyImage (image.take (rd cfgHostLen_value u)) u = .ok t → bankBlobs (image.take (rd cfgHostLen_value u)) = [] →
        namedClusters (image.take (rd cfgHostLen_value u)) = [] → clsTaken (image.take (rd cfgHostLen_value u)) t = none →
        ∃ x, exec (.runTimeLoad w v image) s = .next x ∧ Asserted cfgRunLoadComplete x ∧ rd cfgFailCode_code x = 0 ∧
          rd cfgImageInfo_sequence x = imSequence (image.take (rd cfgHostLen_value u)) % 2 ^ cfgImageInfo_sequence.w) ∧
      (u.start.load ≠ .none → exec (.runTimeLoad w v image) s = .next (raise cfgLoadBusy (wr cfgStartState_loadBusy 1 u))))

/-- R312 to R316, R318, R321 to R323, R326. -/
def Obligations.BanksLoadDrainAndCompare : Prop :=
  ∀ s : State,
    (∀ c b img, c < 32 → (store c s).loading = some (b, img) → s.start.load ≠ .runTime → s.fw.patch = none →
      exec (.bankLoadDone c) s = .next (writeBank c b img 2 s)) ∧
    (∀ c, c < 32 → bankState c 0 s = 4 → runningOn c 0 s = false →
      exec (.bankDrainComplete c) s = .next (wrC mcsBankState_bank0 c 2 s)) ∧
    (∀ c, c < 32 → bankState c 0 s ≠ 4 → bankState c 1 s = 4 → runningOn c 1 s = false →
      exec (.bankDrainComplete c) s = .next (wrC mcsBankState_bank1 c 2 s)) ∧
    (∀ c k x, c < 32 → comparePlace c s = some k → goldenReadable c (k / 8192) s = true → x = store c s → k ≠ 16383 →
      ¬ (k = 8191 ∧ bankState c 1 s ≤ 1) →
      (sget zeroDefault x.words k = sget zeroDefault x.golden k →
        exec (.goldenCompare c none) s = .next (putStore c { x with comparePos := (k + 1) % 16384 } s)) ∧
      (sget zeroDefault x.words k ≠ sget zeroDefault x.golden k →
        ∃ t, exec (.goldenCompare c none) s = .next t ∧ Asserted mcsGoldenMismatch t ∧
          store c t = { x with
            words := sset zeroDefault x.words k (sget zeroDefault x.golden k)
            marked := x.marked.filter (· != k)
            comparePos := (k + 1) % 16384 } ∧
          Changes [keyOfField mcsGoldenStatus_mismatches 0 c] [] { s with fen := t.fen } t)) ∧
    (∀ c bank ok, c < 32 → bank < 2 → (ok = true ∨ bankState c bank s ≤ 1) → exec (.goldenDigestCheck c bank ok) s = .next s) ∧
    (∀ c bank, c < 32 → bank < 2 → 2 ≤ bankState c bank s → goldenReadable c bank s = true → liveBank c s ≠ bank →
      (∀ j, j < 16 → waitsReload (16 * c + j) bank s = false) →
      exec (.goldenDigestCheck c bank false) s = .next (raiseC mcsGoldenUnreadable c
        (putStore c { store c s with badGold := bank :: (store c s).badGold } s))) ∧
    (∀ w v, Admits w .mcs s →
      (bit v.toNat 31 = false → exec (.mcsWordLoad w v) s = .next
        (wrC mcsWordAddr_bank (winIdx w) (wordField v 13 1) (wrC mcsWordAddr_word (winIdx w) (wordField v 0 13) s))) ∧
      (bit v.toNat 31 = true → ∃ t x, exec (.mcsWordLoad w v) s = .next t ∧
        x = wordAt (selChan w .mcs s) (wordField v 13 1) (wordField v 0 13) s ∧
        (∀ k, k < 6 → rdX mcsWordData_data k (winIdx w) t = bitsOf x (32 * k) 32) ∧
        rdX mcsWordData_data 6 (winIdx w) t = bitsOf x 192 4 + 16 * b2n (markedWord (selChan w .mcs s) (wordField v 13 1) (wordField v 0 13) s) ∧
        Changes (keyOfField mcsWordAddr_word 0 (winIdx w) :: (List.range 7).map (fun k => keyOfField mcsWordData_data k (winIdx w))) [] s t))

/-- R136, R139, R143 to R147, R161, R477. The next state is written out with the operations that set a lane's status fields. -/
def Obligations.LanesNegotiateTrainAndRise : Prop :=
  ∀ (l : Nat) (s : State), l < 256 → chanOn .lan l s = true → laneMode l s = 0 → groupLanes l s = [l] →
    (∀ page u, laneState l s = 2 → portOfLane l s = some l → portLanes l s = [l] → sget (fun _ => false) s.lanes.noHcd l = false →
      bit page 15 = false → u = wrC lanAnLpLo_page l page (wrC lanAnLpHi_page l (page / 2 ^ 32) s) →
      (resolveHcd l u = none → exec (.anPageReceived l page true) s = .next (raiseC lanAnNoHcd l
        { u with lanes := { u.lanes with noHcd := sset (fun _ => false) u.lanes.noHcd l true } })) ∧
      (∀ i, resolveHcd l u = some i → cfC prtPortCfg_speed l s ≠ 2 → exec (.anPageReceived l page true) s = .next
        (setLane l 4 (wrC lanLinkStatus_liveRate l (rateOf (cfC prtPortCfg_speed l s))
          (wrC prtLinkStatus_fecActive l (fecInUse l u) (raiseC lanAnComplete l (wrC lanLinkStatus_hcd l i u))))))) ∧
    (∀ page base, laneState l s = 6 → portOfLane l s = some l → cfC prtPortCfg_speed l s = 0 → cfC prtPortCfg_c37An l s = 1 →
      ∃ t, exec (.anPageReceived l page base) s = .next t ∧ c37Done l t = (c37Done l s || !bit page 15) ∧
        t = { s with lanes := { s.lanes with c37 := t.lanes.c37 } }) ∧
    (laneState l s = 2 → sget (fun _ => false) s.lanes.noHcd l = true → laneRequested l s = true →
      exec (.anNoHcdRestart l) s = .next (refreshSynce (firstStep [l] l s))) ∧
    (∀ txPre, laneState l s = 4 → rdC lanLinkStatus_trained l s = 0 → rdC lanLinkStatus_liveRate l s < 3 →
      exec (.trainingComplete l [] txPre) s = .next (setLane l 5 (refreshSynce (raiseC lanTrainComplete l (wrC lanLinkStatus_trained l 1
        (wrC lanLinkStatus_cdrLock l 1 (wrC lanLinkStatus_liveTxPrecode l 0 (wrC lanLinkStatus_liveRxPrecode l 0 s)))))))) ∧
    (laneState l s = 4 → rdC lanLinkStatus_trained l s = 0 →
      exec (.trainingTimeout l) s = .next (refreshSynce (setLane l (if laneRequested l s then 1 else 0) (clearPass l (raiseC lanTrainFail l (satX lanLinkCounts_trainFail 0 l 1 s)))))) ∧
    (∀ r, laneState l s = 5 → rdC lanLinkStatus_signalPresent l s = 1 →
      exec (.adaptComplete l [r]) s = .next (refreshSynce (raiseC lanLinkUp l (setLane l 6 (wrC lanLinkStatus_cdrLock l 1 (storeAdapt l r s)))))) ∧
    (rdC lanLinkStatus_signalPresent l s = 0 →
      exec (.signalPresent l) s = .next (
        if laneState l s = 7 then setLane l 5 (raiseC lanSignalRestored l (wrC lanLinkStatus_signalPresent l 1 s))
        else if laneState l s = 8 then setTaps l 0 8 (setLane l 9 (raiseC lanSignalRestored l (wrC lanLinkStatus_signalPresent l 1 s)))
        else raiseC lanSignalRestored l (wrC lanLinkStatus_signalPresent l 1 s))) ∧
    (rdC lanLinkStatus_signalPresent l s = 1 →
      (laneState l s = 0 → exec (.signalLost l) s = .next (wrC lanLinkStatus_signalPresent l 0 s)) ∧
      (laneState l s = 4 → portOfLane l s = none → exec (.signalLost l) s = .next
        (refreshSynce (setLane l 0 (clearPass l (raiseC lanSignalLost l (wrC lanLinkStatus_signalPresent l 0 s)))))) ∧
      (∀ p, laneState l s = 4 → portOfLane l s = some p → chanRuns .prt p s = true → rdC prtLinkStatus_linkUp p s = 0 → exec (.signalLost l) s = .next
        (refreshSynce (setLane l 1 (clearPass l (wrC prtLinkStatus_pcsLock p 0
          (raiseC lanSignalLost l (wrC lanLinkStatus_signalPresent l 0 s)))))))) ∧
    (laneState l s = 1 → laneRequested l s = true → exec (.holddownExpire l) s = .next (refreshSynce (firstStep [l] l s)))

/-- R142, R143, R149 to R153. -/
def Obligations.LanesKeepWatch : Prop :=
  (∀ (l : Nat) (s : State), l < 288 → chanOn .lan l s = true →
    (rdC lanLinkStatus_signalPresent l s = 1 → exec (.sdGlitch l) s = .next (raiseC lanSdGlitch l (satX lanLinkCounts_sdGlitch 0 l 1 s))) ∧
    (laneState l s = 8 → exec (.tieDetectWait l) s = .next (raiseC lanTieDetectWait l s)) ∧
    (∀ offset skew a k, laneState l s = 10 → rdC lanLinkStatus_commaLock l s = 0 → k ∈ groupLanes l s → k ≠ l → k < 288 →
      isTieLane l = true → rdC lanLinkStatus_commaLock k s = 0 →
      exec (.commaLock l offset ⟨skew, a⟩) s = .next (raiseC lanCommaLock l (wrC lanLinkStatus_commaLock l 1
        (wrC lanTieAlign_commaOffset l offset (wrC lanTieAlign_skew l (min skew 511) (storeAdapt l a s)))))) ∧
    (rdC lanLinkStatus_commaLock l s = 1 → exec (.commaError l) s = .next (satX lanTieAlign_commaErr 0 l 1 s)) ∧
    (rdC lanLinkStatus_commaLock l s = 1 → 10 ≤ laneState l s → laneState l s ≤ 12 → rdC tieLinkStatus_state ((l - 256) / 4) s ≤ 1 →
      isTieLane l = true →
      exec (.commaLockLost l) s = .next (foldOver (groupLanes l s) (fun k a => setLane k 10 a)
        (raiseC lanCommaLockLost l (wrC lanLinkStatus_commaLock l 0 s)))) ∧
    (laneState l s = 10 → exec (.commaRelockTimeout l) s = .next (holdLanes (groupLanes l s)
      (foldOver (groupLanes l s) (fun k a => raiseC lanLinkDown k (satX lanLinkCounts_linkDown 0 k 1 a)) s))) ∧
    (∀ ctle dfe snr, laneState l s = 6 ∨ laneState l s = 12 →
      ∃ t, exec (.backgroundAdapt l ctle dfe snr) s = .next t ∧
        rdC lanAdaptStatus_ctle l t = stepCode 63 ctle (rdC lanAdaptStatus_ctle l s) % 64 ∧
        rdC lanAdaptStatus_dfe1 l t = stepSigned dfe (rdC lanAdaptStatus_dfe1 l s) ∧
        rdC lanAdaptStatus_snr l t = snr % 2 ^ lanAdaptStatus_snr.w ∧
        rdC lanAdaptStatus_updates l t = (rdC lanAdaptStatus_updates l s + 1) % 2 ^ lanAdaptStatus_updates.w ∧
        Changes [keyOfField lanAdaptStatus_ctle 0 l] [] s t) ∧
    (laneState l s = 6 ∨ laneState l s = 12 → exec (.adaptLimit l) s = .next (raiseC lanAdaptLimit l s)) ∧
    (laneState l s = 6 ∨ laneState l s = 12 → rdC lanAdaptStatus_snr l s < cfC lanTrainCtl_snrMin l s →
      exec (.snrLow l) s = .next (raiseC lanSnrLow l s))) ∧
  (∀ (c i : Nat) (s : State), c < 4 → chipletPresent c s = true → blockOn .lan s = true → i = sget (fun _ => 0) s.lanes.visit c →
    (chanRuns .lan (chipletLane c i) s = false →
      exec (.calVisit c true) s = .next (
        let u : State := { s with lanes := { s.lanes with visit := sset (fun _ => 0) s.lanes.visit c ((i + 1) % 72) } }
        if i = 71 then incX lanCalStatus_passes c 0 u else u)) ∧
    (chanRuns .lan (chipletLane c i) s = true → i ≠ 71 →
      (sget (fun _ => 0) s.lanes.calRun (chipletLane c i) = 2 →
        ∃ t, exec (.calVisit c false) s = .next t ∧ Asserted lanCalFail t ∧ OnlyEvents { s with lanes := { s.lanes with
          calRun := sset (fun _ => 0) s.lanes.calRun (chipletLane c i) 3
          visit := sset (fun _ => 0) s.lanes.visit c ((i + 1) % 72) } } t) ∧
      exec (.calVisit c true) s = .next { s with lanes := { s.lanes with
        calRun := sset (fun _ => 0) s.lanes.calRun (chipletLane c i) 0
        visit := sset (fun _ => 0) s.lanes.visit c ((i + 1) % 72) } })) ∧
  (∀ (l : Nat) (s : State), l < 288 → chanRuns .lan l s = true → laneTrains l s = false →
    exec (.txEqStep l) s = .next
      (setTaps l (toward (rdC lanTxEqLive_pre l s) (cfC lanTxEq_pre l s)) (toward (rdC lanTxEqLive_post l s) (cfC lanTxEq_post l s))
        (wrC lanTxEqLive_amp l (toward (rdC lanTxEqLive_amp l s) (cfC lanTxEq_amp l s)) s)))

/-- R155 to R158. -/
def Obligations.PatternsAndEyes : Prop :=
  (∀ (l : Nat) (s : State), l < 288 → chanOn .lan l s = true → patActive l s = true →
    (cfC lanPatCtl_chkPattern l s ≠ 0 → rdC lanPatStatus_chkLock l s = 0 →
      exec (.patLock l) s = .next (raiseC lanPatLock l (wrC lanPatStatus_chkLock l 1 s))) ∧
    (rdC lanPatStatus_chkLock l s = 1 →
      exec (.patLockLost l) s = .next (raiseC lanPatLockLost l (wrC lanPatStatus_chkLock l 0 s)) ∧
      (∀ errs bits, ∃ t, exec (.patWrap l errs bits) s = .next t ∧
        sget (fun _ => 0) t.fab.counters (patErrKey l) = (sget (fun _ => 0) s.fab.counters (patErrKey l) + errs) % 2 ^ 64 ∧
        sget (fun _ => 0) t.fab.counters (patBitsKey l) = (sget (fun _ => 0) s.fab.counters (patBitsKey l) + bits) % 2 ^ 64 ∧
        (2 ^ 64 ≤ sget (fun _ => 0) s.fab.counters (patErrKey l) + errs → wrapBit (patErrKey l) t = true ∧ Asserted lanPatWrap t) ∧
        (2 ^ 64 ≤ sget (fun _ => 0) s.fab.counters (patBitsKey l) + bits → wrapBit (patBitsKey l) t = true ∧ Asserted lanPatWrap t) ∧
        Changes [] [patErrKey l, patBitsKey l] s t))) ∧
  (∀ (w : Window) (v : Word) (l : Nat) (s u : State), Admits w .lan s → latch w .lan s = ⟨l, false, false⟩ → isFused .lan l s = false →
    (wordField v 8 1 = 0 → u = storeFields .lan lanPatCtl_inject.off l (v ||| 0x200) s →
      exec (.patClear w v) s = .next (if patActive l s = true then putCtr (patErrKey l) 0 (putCtr (patBitsKey l) 0 u) else u)) ∧
    (wordField v 9 1 = 0 → u = storeFields .lan lanPatCtl_inject.off l (v ||| 0x100) s →
      exec (.patInject w v) s = .next (if patActive l s = true ∧ cfC lanPatCtl_genPattern l s ≠ 0
        then { u with lanes := { u.lanes with inject := smod (fun _ => 0) u.lanes.inject l (· + 1) } } else u)) ∧
    (wordField v 4 4 < 3 ∨ 12 < wordField v 4 4 →
      exec (.eyeStart w v) s = .next (accessError w lanEyeCtl_start.off true s)) ∧
    (3 ≤ wordField v 4 4 → wordField v 4 4 ≤ 12 → u = storeFields .lan lanEyeCtl_start.off l (v ||| 1) s →
      exec (.eyeStart w v) s = .next (if rdC lanEyeCtl_busy l s = 1 then wrC lanEyeCtl_overrun l 1 u else wrC lanEyeCtl_busy l 1 u))) ∧
  (∀ (l vert horz : Nat) (s : State), l < 288 → rdC lanEyeCtl_busy l s = 1 →
    ∃ t, exec (.eyeDone l vert horz) s = .next t ∧ rdC lanEyeCtl_busy l t = 0 ∧ rdC lanEyeCtl_done l t = 1 ∧ rdC lanEyeCtl_valid l t = b2n (eyeValid l s) ∧
      rdC lanEyeVert_middle l t = bitsOf vert 8 8 ∧
      rdC lanEyeVert_upper l t = (if rdC lanLinkStatus_liveRate l s < 3 then 0 else bitsOf vert 0 8) ∧
      rdC lanEyeVert_lower l t = (if rdC lanLinkStatus_liveRate l s < 3 then 0 else bitsOf vert 16 8) ∧
      rdC lanEyeHorz_left l t = bitsOf horz 0 8 ∧ rdC lanEyeHorz_right l t = bitsOf horz 8 8 ∧ Asserted lanEyeDone t ∧
      Changes [keyOfField lanEyeCtl_busy 0 l, keyOfField lanEyeVert_middle 0 l, keyOfField lanEyeHorz_left 0 l] [] s t)

/-- R161, R164 to R166, R168 to R170, R174, R477. Which frames a codeword marks is told by the command (assumption log 88). -/
def Obligations.PortsFaultRiseAndFlap : Prop :=
  ∀ (p : Nat) (s : State), p < 256 → chanOn .prt p s = true →
    (rdC prtLinkStatus_fecActive p s ≠ 0 →
      (∀ frames, exec (.fecCodewordDecode p ⟨0, frames⟩) s = .next s) ∧
      (∀ n frames, 0 < n → cfC prtPortCfg_fecMode p s = 0 → n ≤ fecCorrects p s →
        ∃ t, exec (.fecCodewordDecode p ⟨n, frames⟩) s = .next t ∧ Changes [] [rkey (prtCtrs.lo + 8 * 16) p, rkey (prtCtrs.lo + 8 * 18) p] s t ∧
          (ctr prtCtrs 16 p s + 1 < 2 ^ 64 → ctr prtCtrs 18 p s + n < 2 ^ 64 →
            ctr prtCtrs 16 p t = ctr prtCtrs 16 p s + 1 ∧ ctr prtCtrs 18 p t = ctr prtCtrs 18 p s + n)) ∧
      (∀ n frames, fecCorrects p s < n →
        ∃ t, exec (.fecCodewordDecode p ⟨n, frames⟩) s = .next t ∧ Asserted prtFecUncorrected t ∧
          (ctr prtCtrs 17 p s + 1 < 2 ^ 64 → ctr prtCtrs 17 p t = ctr prtCtrs 17 p s + 1) ∧
          Changes [] [rkey (prtCtrs.lo + 8 * 17) p]
            { s with lanes := { s.lanes with fecBad := smod (fun _ => 0) s.lanes.fecBad p (max frames) } } t)) ∧
    (allIn 6 (portLanes p s) s = true → ∃ t, exec (.pcsFault p .clear) s = .next t ∧ pcsFaulty p t = false ∧
      Changes [keyOfField prtLinkStatus_linkUp 0 p] [] s t) ∧
    (rdC prtLinkStatus_linkUp p s = 0 → allIn 6 (portLanes p s) s = true →
      (∀ k, isFault k = true → ∃ t, exec (.pcsFault p k) s = .next t ∧ Asserted prtPcsFault t ∧ pcsFaulty p t = true ∧
        Changes [keyOfField prtLinkStatus_linkUp 0 p] [] s t)) ∧
    exec (.pcsFault p .remoteEnd) s = .next (wrC prtLinkStatus_remoteFault p 0 s) ∧
    (rdC prtLinkStatus_linkUp p s = 0 → exec (.remoteFaultReceived p) s = .next (wrC prtLinkStatus_remoteFault p 1 s)) ∧
    (rdC prtLinkStatus_linkUp p s = 1 →
      (∀ k, isFault k = true → ∃ t, exec (.pcsFault p k) s = .next t ∧ Asserted prtPcsFault t ∧ pcsFaulty p t = true ∧
        (ctr prtCtrs 21 p s + 1 < 2 ^ 64 → ctr prtCtrs 21 p t = ctr prtCtrs 21 p s + 1) ∧
        Changes [keyOfField prtLinkStatus_linkUp 0 p] [rkey (prtCtrs.lo + 8 * 21) p] s t) ∧
      (pcsFaulty p s = true → (∀ k ∈ portLanes p s, portOfLane k s = some p) →
        ∃ t, exec (.pcsFaultPersist p) s = .next t ∧ rdC prtLinkStatus_linkUp p t = 0 ∧ rdC prtLinkStatus_pcsLock p t = 0 ∧
          Asserted prtLinkDown t ∧ (ctr prtCtrs 20 p s + 1 < 2 ^ 64 → ctr prtCtrs 20 p t = ctr prtCtrs 20 p s + 1) ∧
          (rdC prtLinkStatus_suppressed p s = 0 → cfC prtDebounce_flapMax p s = 0 →
            rdC prtLinkStatus_flapCount p t = min (rdC prtLinkStatus_flapCount p s + 1) 15) ∧
          (∀ k ∈ portLanes p s, chanOn .lan k s = true → laneMode k s = 0 →
            laneState k t = 1 ∧ rdC lanLinkStatus_trained k t = 0 ∧ rdC lanLinkStatus_cdrLock k t = 0) ∧
          (∀ k, k < 288 → k ∉ portLanes p s → laneState k t = laneState k s)) ∧
      (∃ t u, exec (.remoteFaultReceived p) s = .next t ∧ u = raiseC prtLinkDown p (portCount 20 p 1 (wrC prtLinkStatus_linkUp p 0 (wrC prtLinkStatus_remoteFault p 1 s))) ∧
        rdC prtLinkStatus_linkUp p t = 0 ∧ rdC prtLinkStatus_remoteFault p t = 1 ∧
        Asserted prtLinkDown t ∧ Asserted prtRemoteFault t ∧
        (ctr prtCtrs 20 p s + 1 < 2 ^ 64 → ctr prtCtrs 20 p t = ctr prtCtrs 20 p s + 1) ∧
        (rdC prtLinkStatus_suppressed p s = 0 → cfC prtDebounce_flapMax p s = 0 →
          rdC prtLinkStatus_flapCount p t = min (rdC prtLinkStatus_flapCount p s + 1) 15) ∧
        Changes [keyOfField prtLinkStatus_linkUp 0 p] [rkey (prtCtrs.lo + 8 * 20) p, rkey (prtCtrs.lo + 8 * 22) p] (refreshSynce u) t)) ∧
    (∀ rx tx, rdC prtLinkStatus_linkUp p s = 0 →
      allIn 6 (portLanes p s) s = false ∨ rdC prtLinkStatus_pcsLock p s = 0 ∨ rdC prtLinkStatus_localFault p s = 1 ∨
        rdC prtLinkStatus_remoteFault p s = 1 ∨ rdC prtLinkStatus_suppressed p s = 1 ∨
        (cfC prtPortCfg_speed p s = 0 ∧ cfC prtPortCfg_c37An p s = 1 ∧ c37Done p s = false) →
      exec (.linkUpTimer p rx tx) s = .next s) ∧
    (rdC prtLinkStatus_linkUp p s = 0 → rdC prtLinkStatus_suppressed p s = 0 → allIn 6 (portLanes p s) s = true →
      rdC prtLinkStatus_pcsLock p s = 1 → rdC prtLinkStatus_localFault p s = 0 → rdC prtLinkStatus_remoteFault p s = 0 →
      (cfC prtPortCfg_speed p s = 0 → cfC prtPortCfg_c37An p s = 1 → c37Done p s = true) →
      ∀ rx tx, ∃ t u, exec (.linkUpTimer p rx tx) s = .next t ∧ t = refreshSynce u ∧ rdC prtLinkStatus_linkUp p u = 1 ∧
        rdC prtLinkStatus_speedLive p u = cfC prtPortCfg_speed p s ∧ rdC prtLinkStatus_fecActive p u = fecInUse p s ∧
        rdC prtTsDelay_rxFixed p u = rx % 2 ^ prtTsDelay_rxFixed.w ∧ rdC prtTsDelay_txFixed p u = tx % 2 ^ prtTsDelay_txFixed.w ∧
        Asserted prtLinkUp u ∧ Changes [keyOfField prtLinkStatus_linkUp 0 p, keyOfField prtTsDelay_rxFixed 0 p, keyOfField prtTsDelay_txFixed 0 p] []
          { s with lanes := { s.lanes with fecBad := smod (fun _ => 0) s.lanes.fecBad p (min (b2n (rxPort p s).busy)) } } u) ∧
    (rdC prtLinkStatus_suppressed p s = 0 → exec (.flapWindowEnd p) s = .next (wrC prtLinkStatus_flapCount p 0 s)) ∧
    (rdC prtLinkStatus_suppressed p s = 1 → exec (.penaltyEnd p) s = .next
      (emit (.remoteFault p false) (raiseC prtFlapReleased p (wrC prtLinkStatus_suppressed p 0 (wrC prtLinkStatus_flapCount p 0 s)))))

/-- R16, R25, R163, R187, R190, R213, R218, R393, R397. -/
def Obligations.FramesArriveAndAreParsed : Prop :=
  ∀ s : State,
    (∀ p sub head len overflow, p < 256 → (rxPort p s).busy = false → rdC prtLinkStatus_linkUp p s = 1 →
      ((tgt ⟨.prt, some p⟩ s).st = .draining →
        exec (.frameArrival p sub head len overflow) s = .next (discardRx p head true (portCount 7 p 1 s))) ∧
      (chanOn .prt p s = true →
        exec (.frameArrival p sub head len true) s = .next (discardRx p head true (raiseC prtCoreOverrun p (portCount 6 p 1 s))) ∧
        (14 ≤ head.length → beAt head 12 2 = 0x8808 →
          exec (.frameArrival p sub head len false) s = .next (discardRx p head false s)) ∧
        (beAt head 12 2 ≠ 0x8808 → blockOn .swc s = false →
          exec (.frameArrival p sub head len false) s = .next (discardRx p head false (count swcGCtrs 3 0 1 s))) ∧
        (∀ i u v, beAt head 12 2 ≠ 0x8808 → blockOn .swc s = true → newFrame (arrivingFrame p sub head len s) s = (i, u) →
          growCells i head.length u = (true, v) →
          exec (.frameArrival p sub head len false) s = .next (putRx p { rxPort p v with
            busy := true, cur := some i, got := head.length, queue := (rxPort p v).queue ++ [i], limit := cfC prtPortCfg_maxFrame p s } v)) ∧
        (∀ i u v, beAt head 12 2 ≠ 0x8808 → blockOn .swc s = true → newFrame (arrivingFrame p sub head len s) s = (i, u) →
          growCells i head.length u = (false, v) →
          exec (.frameArrival p sub head len false) s = .next (discardRx p head false (endFrame i v))))) ∧
    (∀ p rest i r u n bs, p < 256 → r = rxPort p s → r.busy = true → (∀ e ∈ s.fab.later, e.1 ≠ p) →
      n = r.got + rest.length + 4 → bs = (frame i s).bytes ++ rest →
      u = takeMark p (putRx p { r with busy := false, cur := none, got := 0 } s) →
      (r.cur = some i → rxDropCounters p r.limit n bs .good s = [] →
        exec (.frameTailArrival p rest .good) s = .next (storeTail i rest (portCount 1 p 1 (portCount 0 p n u))) ∧
        (∀ w v, w = portCount 1 p 1 (portCount 0 p n u) → (frame i s).twin = none → (frame i s).parsed = false →
          growCells i (bs.length + 4) w = (true, v) →
          exec (.frameTailArrival p rest .good) s = .next
            (modFrame i (fun x => { frame i s with bytes := bs, len := bs.length + 4, complete := true, cells := x.cells }) v))) ∧
      (r.cur = some i → 64 ≤ n → n ≤ r.limit → beAt bs 12 2 ≠ 0x8808 → fecMarked p s = false → ∀ v,
        growCells i n (raiseC prtFcsErr p (portCount 2 p 1 u)) = (true, v) →
        exec (.frameTailArrival p rest .badFcs) s = .next (frameBad i (modFrame i (fun f => { f with bytes := f.bytes ++ rest }) v))) ∧
      (r.cur = some i → 64 ≤ n → r.limit < n → beAt bs 12 2 ≠ 0x8808 → fecMarked p s = false → ∀ v,
        growCells i r.limit (raiseC prtOversize p (portCount 4 p 1 (raiseC prtFcsErr p (portCount 2 p 1 u)))) = (true, v) →
        exec (.frameTailArrival p rest .badFcs) s = .next (frameBad i (modFrame i (fun f => { f with bytes := f.bytes ++ [] }) v))) ∧
      (r.cur = none → r.counted = false → rxDropCounters p r.limit n (r.head ++ rest) .good s = [] → r.late = none →
        exec (.frameTailArrival p rest .good) s = .next (portCount 1 p 1 (portCount 0 p n u))) ∧
      (r.cur = none → r.counted = false → 64 ≤ n → n ≤ r.limit → beAt (r.head ++ rest) 12 2 = 0x8808 → fecMarked p s = false →
        exec (.frameTailArrival p rest .good) s = .next (raiseC prtMacCtrlDrop p (portCount 5 p 1 u))) ∧
      (r.cur = none → r.counted = true → ∀ o, exec (.frameTailArrival p rest o) s = .next u)) ∧
    (∀ p i q, p < 256 → (rxPort p s).queue = i :: q →
      (∀ t, (frame i s).version = none → blockOn .cls s = true → curVersion s ≠ 0 → chanOn .prs p s = true →
        parseStages i (modFrame i (fun f => { f with version := some (curVersion s), profile := p }) s) = some t → (frame i t).parsed = true →
        exec (.parseFrame p) s = .next (putRx p { rxPort p t with queue := (rxPort p t).queue.filter (· != i) } t)) ∧
      (∀ t, (frame i s).version = none → blockOn .cls s = true → curVersion s ≠ 0 → chanOn .prs p s = true →
        t = modFrame i (fun f => { f with version := some (curVersion s), profile := p }) s → parseStages i t = none →
        (frame i t).live = true → (frame i t).parsed = false → exec (.parseFrame p) s = .next t) ∧
      (∀ t, (frame i s).version.isSome = true → blockOn .cls s = true → versionLive (frameVer (frame i s)) s = true → parseStages i s = some t → (frame i t).parsed = true →
        exec (.parseFrame p) s = .next (putRx p { rxPort p t with queue := (rxPort p t).queue.filter (· != i) } t)) ∧
      (∀ t, (frame i s).version = none → blockOn .cls s = false ∨ curVersion s = 0 → t = dropFrame i s → (frame i t).live = false →
        exec (.parseFrame p) s = .next (putRx p { rxPort p t with queue := (rxPort p t).queue.filter (· != i) } t))) ∧
    (∀ bytes i u v r prof, s.pwr.perstLow = false → blockOn .swc s = true → r = takeFree s →
      newStored { group := 33, inSrc := 264, bytes := bytes, len := bytes.length + 4, raw8 := r.1, ts := r.1 % timeMod, tsEpoch := s.tim.epoch, req := 33, fromHost := true } r.2 = (some i, u) →
      prof = wordField (sget regReset (half (curVersion u) u).cfg prsHostProfile_profile.off) 0 8 →
      blockOn .cls u = true → curVersion u ≠ 0 → chanOn .prs prof u = true →
      parseStages i (modFrame i (fun f => { f with version := some (curVersion u), profile := prof }) u) = some v →
      exec (.hostFrameArrival bytes) s = .next v) ∧
    (∀ e f is u n v, frontEg 265 s = some e → f = frame e.id s → crossedAll f = true → blockOn .swc s = true →
      takeCells 34 (cellsFor f.len) s = (some is, u) →
      n = newFrame { secondPass f with cells := is } u → v = leaveEg e.id 265 n.2 →
      exec .recircReentry s = .next (parseAgain n.1 v) ∧
      (∀ t, blockOn .cls v = true → versionLive (frameVer (frame n.1 v)) v = true → chanOn .prs (frame n.1 v).profile v = true →
        parseStages n.1 v = some t → exec .recircReentry s = .next t)) ∧
    (∀ i, (frame i s).live = true → (frame i s).twin = none → (frame i s).ct = false → itemOfFrame i s = none →
      ∃ t, frameBad i s = t ∧ (frame i t).live = false ∧ ∀ j, j ≠ i → (frame j t).bytes = (frame j s).bytes)

/-- R16, R17, R262, R331, R332, R335 to R337, R342, R346, R347. -/
def Obligations.ItemsWaitSelectAndLookUp : Prop :=
  ∀ s : State,
    (∀ c, c < 32 → exec (.dispatchRound c) s = .next (serveMoves (settleTransfers
      (fillOne c (fillOne c (stageReady c (stageReady c (selectOne c (selectOne c (actCancels c (admitOp c (admitOp c s)))))))))))) ∧
    (∀ c, c < 32 → s.dsp.opWait = [] → (∀ x ∈ s.mesh.own, x.2.ending = none ∧ x.2.giving = false ∧ x.2.purge = false) →
      (items c s = [] → exec (.dispatchRound c) s = .next s) ∧
      (∀ i, items c s = [i] → i.isFrame = true → i.cls < 8 → i.stage = .ready → i.cancel = none → i.looked = false → i.orphan = false →
        ∃ t, exec (.dispatchRound c) s = .next t ∧ items c t = [{ i with stage := .selected }] ∧ t.frames = s.frames ∧
          t.fab.targets = s.fab.targets ∧ ∀ d, d ≠ c → items d t = items d s)) ∧
    (∀ c i rest, s.dsp.opWait = i :: rest → steerTo (i.tag % 4096) s = c → opAdmits c i.tag s = true →
      admitOp c s = admitItem c i { s with dsp := { s.dsp with opWait := rest } }) ∧
    (∀ c i, ∃ j, (items c (admitItem c i s)).getLast? = some j ∧ (items c (admitItem c i s)).length = (items c s).length + 1 ∧
      j.seq = (cluster c s).seq ∧ j.op = i.op ∧ j.tag = i.tag ∧ j.frame = i.frame ∧ j.admitted = s.tim.raw ∧
      j.stage = if parks i s then .parked else .ready) ∧
    (∀ c q i, oldestOf c q s = some i → i.stage = .ready ∧ i.orphan = false ∧
      (if q = 8 then i.isFrame = false else i.isFrame = true ∧ i.cls = q) ∧
      ∃ before after, items c s = before ++ i :: after ∧ ∀ j ∈ before, j.orphan = false → j.tag ≠ i.tag) ∧
    (∀ c i, lookupRoom c s = true → [7, 6, 5].findSome? (fun k => oldestOf c k s) = some i → selectOne c s = selectItem c i s) ∧
    (∀ c, [7, 6, 5].findSome? (fun k => oldestOf c k s) = none → (weightedNext c s = none → selectOne c s = s) ∧
      (∀ k left i, weightedNext c s = some (k, left) → (if cyclePlace k = 8 then unitRoom c s else lookupRoom c s) = true →
        oldestOf c (cyclePlace k) s = some i →
        selectOne c s = selectItem c i (modCluster c (fun x => { x with wq := k, wleft := left - 1 }) s))) ∧
    (∀ c i, ownOp i s = none → ∀ j ∈ items c (selectItem c i s), j.seq = i.seq → j.stage = if j.isFrame then .selected else .running) ∧
    (∀ c i k, chanOn .mcs c s = true → nextStaged c s = some i → chooseEngine c s = some k →
      (engine (16 * c + k) (fillOne c s)).next = some i.seq ∧ (cluster c (fillOne c s)).rr = (k + 1) % 16 ∧
        (∀ j ∈ items c (fillOne c s), j.seq = i.seq → j.stage = .prefetched ∧ j.engine = 16 * c + k) ∧
        ∀ e, e ≠ 16 * c + k → engine e (fillOne c s) = engine e s) ∧
    (∀ c, chanOn .mcs c s = false ∨ nextStaged c s = none ∨ chooseEngine c s = none → fillOne c s = s) ∧
    (∀ c i t, t = noteWait c i.tag (noteFall c
        (modItem c i.seq (fun i => { i with stage := if i.isFrame then .selected else .running }) s)) →
      (ownOp i t = none → selectItem c i s = t) ∧
      (∀ p n, i.op = .evict p n →
        (slLive (placeAt i.tag p t) = false ∨ slRec (placeAt i.tag p t) ≠ n ∨
          ((ownEntry (i.tag % 4096) t).giving = false ∧ (ownEntry (i.tag % 4096) t).purge = false) → selectItem c i s = opDone c i.seq t) ∧
        (slLive (placeAt i.tag p t) = true → slRec (placeAt i.tag p t) = n → (ownEntry (i.tag % 4096) t).giving = false →
          (ownEntry (i.tag % 4096) t).purge = true → selectItem c i s = opDone c i.seq (retire i.tag p n 6 false t)) ∧
        (slLive (placeAt i.tag p t) = true → slRec (placeAt i.tag p t) = n → (ownEntry (i.tag % 4096) t).giving = true →
          selectItem c i s = opDone c i.seq (retire i.tag p n 6 false (sendControl (ownerDevice (i.tag % 4096) t) 3
            (bytesLE 2 (i.tag % 4096) ++ bytesLE 2 (ownEntry (i.tag % 4096) t).epoch ++ recordAt n t) t)))) ∧
      (i.op = .lostBucket → selectItem c i s = opDone c i.seq (poisonBucket i.tag t)) ∧
      (∀ e epoch r, i.op = .sync e epoch r → syncStale e epoch t = true → selectItem c i s = opDone c i.seq (staleEpoch t)) ∧
      (∀ e epoch r n g p u, i.op = .sync e epoch r → syncStale e epoch t = false → reserveCreate i.tag t = (0, some (n, g, p), u) →
        selectItem c i s = opDone c i.seq (placeRecord i.tag (digestOfKey (rcKey r)) p n (rcProgram r) false
          (newRecord (rcKey r) (rcProgram r) (rcProfile r) g (rcHit r) epoch (slice r 0x40 48) (rcPackets r) (rcOctets r)) u))) ∧
    (∀ c q i, c < 32 → itemAt c q s = some i →
      (i.isFrame = true → i.isRunning = false → exec (.itemAgeExpire c q) s = .next
        (modItem c q (fun i => { i with cancel := if i.cancel.isNone then some 2 else i.cancel }) s)) ∧
      (i.isRunning = true → exec (.itemAgeExpire c q) s = .next s)) ∧
    (∀ c q err i f u, c < 32 → itemAt c q s = some i → i.stage = .selected → i.looked = false → i.isFrame = true →
      flowFind i.tag i.digest i.key err s = (f, u) →
      (∀ v, f.status ≠ 0 → v = modItem c q (fun i => { i with
          looked := true, stall := false, status := f.status, recIndex := f.recIndex, pos := f.pos, window := windowOf f.status i.key f.data }) u →
        v.dsp.out.contains c = false → (itemAt c q v).isSome = true →
        exec (.flowLookupDone c q err) s = .next (stageReady c v)) ∧
      (∀ v w, f.status = 0 → blockOn .fch u = false ∨ lineOf f.recIndex u ≠ none ∨ setHasRoom i.tag u = true →
        v = modItem c q (fun i => { i with
          looked := true, stall := false, status := f.status, recIndex := f.recIndex, pos := f.pos, window := windowOf f.status i.key f.data }) u →
        w = lockRecord i.tag i.digest f.recIndex f.pos f.data v → w.dsp.out.contains c = false → (itemAt c q w).isSome = true →
        exec (.flowLookupDone c q err) s = .next (stageReady c w)) ∧
      (f.status = 0 → blockOn .fch u = true → lineOf f.recIndex u = none → setHasRoom i.tag u = false →
        exec (.flowLookupDone c q err) s = .next (raise fchSetStall (count fchCtrs 4 0 1
          (modItem c q (fun i => { i with
            looked := true, stall := true, status := f.status, recIndex := f.recIndex, pos := f.pos, window := windowOf f.status i.key f.data }) u))))) ∧
    (∀ c q i, c < 32 → itemAt c q s = some i → i.stall = true → setHasRoom i.tag s = true →
      exec (.cacheSetUnlock c q) s = .next (afterLookup c q (lockRecord i.tag i.digest i.recIndex i.pos i.window
        (modItem c q (fun i => { i with stall := false }) s)))) ∧
    (∀ w k v c, k < 8 → Admits w .dsp s → selChan w .dsp s = c → isFused .dsp c s = false →
      exec (.classWaitClear w k v) s = .next (if bit v.toNat 31 then wrX dspClassWait_maxWait k c 0 s else s))

/-- R293, R295, R297 to R299, R302 to R314, R346. -/
def Obligations.EnginesStartRunCheckAndEnd : Prop :=
  let OnlyRuns (e : Nat) (u t : State) : Prop :=
    (∀ k, k ≠ e → engine k t = engine k u) ∧ t.frames = u.frames ∧ t.flow = u.flow ∧ t.dsp = u.dsp ∧ t.fen.stores = u.fen.stores ∧
      t.sw = u.sw ∧ t.fab.targets = u.fab.targets
  ∀ (e : Nat) (s : State), e < 512 →
    (∀ q i, (engine e s).run = none → (engine e s).next = some q → itemAt (e / 16) q s = some i →
      (∀ why, i.cancel = some why → exec (.itemStart e) s = .next (cancelNow (e / 16) i why s)) ∧
      (i.cancel = none → peProgValid (progAt (e / 16) (liveBank (e / 16) s) i.program s) = false →
        ∃ t, exec (.itemStart e) s = .next t ∧ Asserted fenProgInvalid t) ∧
      (∀ p d, i.cancel = none → p = progAt (e / 16) (liveBank (e / 16) s) i.program s → peProgValid p = true →
        d = startDesc i (frame i.frame s) (tickNow s) →
        exec (.itemStart e) s = .next (noteStart (e / 16) i (noteHit i
          (modItem (e / 16) i.seq (fun i => { i with stage := .running, engine := e })
            (putEngine e { run := some { item := i.seq, bank := liveBank (e / 16) s, pc := peEntry p, entry := peEntry p, maxWords := peMaxWords p, scratch := List.replicate 256 0, recw := i.window, desc := d, desc0 := d, exists_ := decide (i.status = 0) }, next := none } s)))))) ∧
    (∀ r i w u, runningItem e s = some (r, i) → r.ended = none → r.reload = false → markedWord (e / 16) r.bank r.pc s = false →
      w = wordAt (e / 16) r.bank r.pc s → u = { s with dsp := { s.dsp with busyNow := smod zeroDefault s.dsp.busyNow (e / 16) (· + 1) } } →
      (badWord w = true → exec (.microwordExecute e) s = .next (machineCheck e r i u)) ∧
      (badWord w = false → pendingStall w r = true → exec (.microwordExecute e) s = .next (fenCount 2 e u)) ∧
      (badWord w = false → pendingStall w r = false → arrivalStall w r (frame i.frame s) = true →
        exec (.microwordExecute e) s = .next (fenCount 3 e u)) ∧
      (badWord w = false → pendingStall w r = false → arrivalStall w r (frame i.frame s) = false →
        exec (.microwordExecute e) s = .next (runWord e w r i (frame i.frame s) u)) ∧
      (∀ r', badWord w = false → pendingStall w r = false → arrivalStall w r (frame i.frame s) = false → (memSlice w).kind ≠ 4 →
        windowFaults (memSlice w) r = false →
        r' = memApply (memSlice w) r (frame i.frame s) (aluApply (aluSlice w 2) r (aluApply (aluSlice w 1) r { r with words := r.words + 1 })) →
        (∀ pc st, nextOf (seqSlice w) r i (frame i.frame s) = .to pc st → r.words + 1 < r.maxWords → pc < bankWords (e / 16) r.bank s →
          ∃ t, exec (.microwordExecute e) s = .next t ∧ engine e t = ⟨some { r' with pc := pc, stack := st }, (engine e s).next⟩ ∧
            OnlyRuns e u t) ∧
        (∀ v g, nextOf (seqSlice w) r i (frame i.frame s) = .finish v g →
          ∃ t, exec (.microwordExecute e) s = .next t ∧ engine e t = ⟨some { r' with ended := some (v, g) }, (engine e s).next⟩ ∧ OnlyRuns e u t) ∧
        (nextOf (seqSlice w) r i (frame i.frame s) = .stackFault →
          ∃ t, exec (.microwordExecute e) s = .next t ∧ engine e t = ⟨some { r' with ended := some (2, false), forced := true }, (engine e s).next⟩ ∧
            Asserted fenStackFault t ∧ OnlyRuns e u t) ∧
        (∀ pc st, nextOf (seqSlice w) r i (frame i.frame s) = .to pc st → r.maxWords ≤ r.words + 1 ∨ bankWords (e / 16) r.bank s ≤ pc →
          ∃ t, exec (.microwordExecute e) s = .next t ∧ engine e t = ⟨some { r' with ended := some (2, false), forced := true }, (engine e s).next⟩ ∧
            Asserted fenRunaway t ∧ OnlyRuns e u t)) ∧
      (badWord w = true → (store (e / 16) s).failed.contains (wordPlace r.bank r.pc) = false → goldenReadable (e / 16) r.bank s = true →
        r.retry = false →
        ∃ t, exec (.microwordExecute e) s = .next t ∧ Asserted fenMcAbandon t ∧ markedWord (e / 16) r.bank r.pc t = true ∧
          (engine e t).run = some { freshRun r i with reload := true, retry := true, failedWord := wordPlace r.bank r.pc }) ∧
      (∀ flip, exec (.machineCheck e flip) s = .next (machineCheck e r i (modStore (e / 16) (fun x => { x with
        words := smod zeroDefault x.words (wordPlace r.bank r.pc) (fun w => w ^^^ 2 ^ (flip % 196)) }) s)))) ∧
    (∀ r i flip, runningItem e s = some (r, i) → r.ended = none → r.reload = false → markedWord (e / 16) r.bank r.pc s = true →
      exec (.machineCheck e flip) s = .next (machineCheck e r i s)) ∧
    (∀ r d p, (engine e s).run = some r → d < 32 → r.pend.find? (fun p => p.reg == d) = some p →
      exec (.extResult e d) s = .next (putEngine e { engine e s with
        run := some { putDreg d p.value r with pend := r.pend.filter (fun q => q.reg != d) } } s)) ∧
    (∀ r i v g, runningItem e s = some (r, i) → r.ended = some (v, g) → r.pend = [] → endReady r (frame i.frame s) = true →
      exec (.itemEnd e) s = .next (releaseItem e (e / 16) r i (endEffects e v (g && !r.forced) r i (actCancel (e / 16) i s))) ∧
      (∃ t, exec (.itemEnd e) s = .next t ∧ (engine e t).run = none ∧ itemAt (e / 16) r.item t = none) ∧
      (∀ t, i.cancel.isSome = true → endEffects e v g r i t = dropFrame i.frame (endWrites r i t)) ∧
      (∀ t u w, i.cancel = none → rewrites r = false → checkVerdict e v r i t = (w, u) →
        endEffects e v false r i t = emitVerdict w r i (endWrites r i u)) ∧
      (∀ t u, u = modFrame i.frame (fun f => { f with cls := dsClass r, actA := withBits f.actA 6 1 (dsMirror r) }) t →
        emitVerdict 1 r i t = forwardVerdict r i u ∧ emitVerdict 2 r i t = dropFrame i.frame u ∧
          emitVerdict 3 r i t = hostFrame i.frame (some i.admitted) u)) ∧
    (∀ (a : AluSlice) (o r : Run), a.op ≠ 0 →
      dreg (aluApply a o r) a.dst = aluValue a o ∧ (∀ k, k ≠ a.dst → dreg (aluApply a o r) k = dreg r k) ∧
      (a.width = 0 → a.bImm = false →
        (a.op = 1 → aluValue a o = (dreg o a.a % 2 ^ 64 + dreg o a.b % 2 ^ 64) % 2 ^ 64) ∧
        (a.op = 2 → aluValue a o = (dreg o a.a % 2 ^ 64 + (2 ^ 64 - dreg o a.b % 2 ^ 64)) % 2 ^ 64) ∧
        (a.op = 10 → aluValue a o = dreg o a.b % 2 ^ 64) ∧
        (a.op = 13 → aluValue a o = if dreg o a.a % 2 ^ 64 = dreg o a.b % 2 ^ 64 then 1 else 0) ∧
        (a.op = 15 → aluValue a o = if dreg o a.a % 2 ^ 64 < dreg o a.b % 2 ^ 64 then 1 else 0))) ∧
    (∀ c bank w, c < 32 → bank < 2 → w < 8192 → markedWord c bank w s = true → goldenReadable c bank s = true → rd hmkStatus_state s ≠ 2 →
      (∃ t, exec (.wordReloadDone c bank w) s = .next t ∧ Asserted mcsMcReload t ∧ markedWord c bank w t = false ∧
        sget zeroDefault (store c t).words (wordPlace bank w) = sget zeroDefault (store c s).golden (wordPlace bank w) ∧
        ∀ j r, j < 16 → (engine (16 * c + j) s).run = some r → r.reload = true → r.failedWord = wordPlace bank w →
          (engine (16 * c + j) t).run = some { r with reload := false }) ∧
      exec (.wordReloadDone c bank w) s = .next (resumeEngines c (· == wordPlace bank w) (raiseC mcsMcReload c
        (putStore c (rewriteWord (wordPlace bank w) (store c s)) s))))

/-- R215 to R217, R348 to R350, R353. -/
def Obligations.SteeringMovesUnderFences : Prop :=
  ∀ s : State,
    (∀ e f, e < 4096 → f = fence e s →
      (f.phase = 1 → chanOn .dsp f.new s = true → exec (.fenceTargetReady e) s = .next (openFence e f.old f.new f.rewrite s)) ∧
      (f.phase = 2 → itemsOfEntry f.old e s = [] → exec (.fenceDrained e) s = .next (closeFence e s)) ∧
      (f.phase = 2 → f.overran = false → itemsOfEntry f.old e s ≠ [] →
        exec (.fenceOverrun e) s = .next (raiseC dspFenceOverrun f.new
          (foldOver (itemsOfEntry f.old e s) (overrunItem f.old) (putFence e { f with overran := true } s)))) ∧
      (f.phase = 1 → chanOn .dsp f.new s = true → f.new < 32 → s.dsp.out.contains f.old = false →
        ∃ t, exec (.fenceTargetReady e) s = .next t ∧ (fence e t).phase = 2 ∧ (fence e t).old = f.old ∧ (fence e t).new = f.new ∧
          steerTo e t = f.new ∧ Asserted dspFenceOpened t ∧ t.dsp.clusters = s.dsp.clusters ∧
          ∀ e', e' < 4096 → e' ≠ e → steerTo e' t = steerTo e' s ∧ fence e' t = fence e' s) ∧
      (f.phase = 2 → itemsOfEntry f.old e s = [] → s.dsp.back.contains e = false → s.dsp.rewriting = false →
        ∃ t, exec (.fenceDrained e) s = .next t ∧ (fence e t).phase = 0 ∧ Asserted dspFenceClosed t ∧
          ∀ c, (items c t).map (fun i => i.seq) = (items c s).map (fun i => i.seq) ∧
            ∀ i ∈ items c t, i.stage = .parked → i.tag % 4096 = e → ownParks e s = true) ∧
      (f.phase = 2 → f.overran = false → ∀ i, itemsOfEntry f.old e s = [i] → i.isFrame = true → i.stage = .ready → i.cancel = none →
        itemAt f.old i.seq s = some i →
        ∃ t, exec (.fenceOverrun e) s = .next t ∧ Asserted dspFenceOverrun t ∧ (fence e t).overran = true ∧ itemAt f.old i.seq t = none ∧
          ((frame i.frame s).live = true → (frame i.frame s).complete = true → (frame i.frame t).live = false))) ∧
    (∀ w v e t, Admits w .cls s → e = rd clsIndAddr_index s → t = rd clsIndAddr_table s → rd clsIndAddr_autoInc s = 0 →
      (t ≠ steerTable s → exec (.indDataWrite w v) s = .next (putInd t e (wordField v 0 6) s)) ∧
      (t = steerTable s → (31 < wordField v 0 6 ∨ (fence e s).phase ≠ 0) →
        ∃ u, exec (.indDataWrite w v) s = .next u ∧ Asserted clsIndRefused u ∧ rd clsIndStatus_refused u = 1 ∧
          Changes [keyOfField clsIndStatus_refused 0 0] [] s u) ∧
      (t = steerTable s → wordField v 0 6 ≤ 31 → (fence e s).phase = 0 → blockOn .dsp s = false → steerTo e s ≠ wordField v 0 6 →
        exec (.indDataWrite w v) s = .next (putInd t e (wordField v 0 6)
          { s with dsp := { s.dsp with latest := some e, homes := sset zeroDefault s.dsp.homes e (wordField v 0 6) } }))) ∧
    (∀ w v, Admits w .cls s →
      ((tgt ⟨.dsp, none⟩ s).st = .off → hostTableUsed (wordField v 0 6) s = false →
        exec (.steerCfgWrite w v) s = .next (wr clsSteerCfg_steerTable (wordField v 0 6) s)) ∧
      ((tgt ⟨.dsp, none⟩ s).st ≠ .off ∨ hostTableUsed (wordField v 0 6) s = true →
        exec (.steerCfgWrite w v) s = .next (accessError w clsSteerCfg_steerTable.off true s))) ∧
    (∀ c, c < 32 → s.dsp.out.contains c = true → chanOn .mcs c s = true → chanOn .dsp c s = true → cf dspFenceCfg_autoReturn s = 0 →
      exec (.clusterReturn c) s = .next (raiseC dspClusterReturned c { s with dsp := { s.dsp with out := s.dsp.out.filter (· != c) } }))

/-- R398 to R408. -/
def Obligations.CellsCrossReturnAndAge : Prop :=
  ∀ s : State,
    ((tgt ⟨.swc, none⟩ s).st ≠ .on → (tgt ⟨.swc, none⟩ s).st ≠ .draining → exec .cellEpoch s = .next s) ∧
    (∀ s0 s1 stated s2 copies m, ((tgt ⟨.swc, none⟩ s).st = .on ∨ (tgt ⟨.swc, none⟩ s).st = .draining) → s0 = freePoisoned s →
      s1 = foldOver (busyDests s0) (fun d a => deferredCheck d (if d < 266 then releaseTags d a else a)) s0 →
      stated = (busyDests s1).filterMap (fun d => (stateClass d s1).map (fun c => (d, c))) →
      s2 = foldOver (shownDests s1) (fun d a => showStated d ((stated.find? (fun x => x.1 == d)).map (·.2)) a) s1 →
      copies = (copyDests s2).filterMap (fun d => (copyClass d s2).map (fun c => (d, c))) →
      m = matchEpoch (requests (stated.filter (fun x => !copies.any (fun y => y.1 == x.1))) s2) s2 →
      exec .cellEpoch s = .next (foldOver copies (fun x a => serveCopy x.1 x.2 a)
        (foldOver m.1 (fun r a => crossCell r.g r.d r.c a) (count swcGCtrs 1 0 1 m.2)))) ∧
    (∀ rs, (∀ r ∈ (matchEpoch rs s).1, r ∈ rs) ∧ (matchEpoch rs s).1.Pairwise (fun a b => a.g ≠ b.g ∧ outGroup a.d ≠ outGroup b.d)) ∧
    (∀ stated r, r ∈ requests stated s → (r.d, r.c) ∈ stated ∧ 0 < credits r.d s) ∧
    (∀ g d c i, d < 256 → voqAt g d c s = [i] → (frame i s).complete = true → (frame i s).sent = 0 → (frame i s).twin = none →
      eligBytes (frame i s) = streamLen (frame i s) → 0 < streamLen (frame i s) → streamLen (frame i s) ≤ 240 → upPartner d s = none →
      ∃ t, crossCell g d c s = t ∧ voqAt g d c t = [] ∧ (frame i t).sent = streamLen (frame i s) ∧ (frame i t).inVoq = false ∧
        (dest d t).lock = none ∧ (dest d t).cells.length = (dest d s).cells.length + 1 ∧ (dest d t).eg.any (fun e => e.id == i) = true) ∧
    (∀ d, d ≤ 266 → (dest d s).cells = [] → exec (.creditReturn d) s = .next s) ∧
    (∀ d x rest, d ≤ 266 → (dest d s).cells = x :: rest →
      (∀ i ∈ x.frames, unstarted i d s = false ∧ ∀ q, x.pair = some q → unstarted i q s = false) →
      (x.pair = none → exec (.creditReturn d) s = .next (modDest d (fun y => { y with cells := rest }) s)) ∧
      (∀ q, x.pair = some q →
        exec (.creditReturn d) s = .next (modDest q (fun y => { y with extra := y.extra - 1 }) (modDest d (fun y => { y with cells := rest }) s)))) ∧
    (∀ d x rest i, d ≤ 266 → (dest d s).cells = x :: rest → i ∈ x.frames → unstarted i d s = true → exec (.creditReturn d) s = .next s) ∧
    (∀ g d c n i is, g < 36 → d ≤ 266 → c < 8 → (voqAt g d c s).drop n = i :: is →
      ((frame i s).sent = 0 → ∃ t, exec (.voqAgeDrop g d c n) s = .next t ∧ Asserted swcAgeDrop t ∧
        t = raise swcAgeDrop (dropFrame i (if d < 266 then count swcDCtrs 3 d 1 s else s))) ∧
      ((frame i s).sent ≠ 0 → exec (.voqAgeDrop g d c n) s = .next s))

/-- R173, R177, R221, R403 to R411, R444, R470 to R475, R488, R491, R552. -/
def Obligations.FramesLeaveTheDevice : Prop :=
  ∀ s : State,
    (∀ d e, d < 256 → (dest d s).eg.find? (fun e => !e.edited) = some e → 0 < (frame e.id s).sent →
      (editPlan (frame e.id s) d s).red = 0 →
      exec (.egressEdit d) s = .next (modEg d e.id (fun x => { x with edited := true, plan := editPlan (frame e.id s) d s }) s)) ∧
    (∀ d sub e, d < 256 → sub < 8 → frontEg d s = some e → e.edited = true → e.started = false → e.early = false → e.dropped = false →
      destUp d s = true →
      (gateEn d s = true → gateOpen d (frame e.id s).cls (timeAtEighth s.tim (egressStamp d sub s)) s = false →
        exec (.txFrameStart d sub) s = .next
          (if e.holding then s else count tmgDCtrs 3 d 1 (modEg d e.id (fun x => { x with holding := true }) s))) ∧
      (∀ stamp r t, stamp = egressStamp d sub s →
        (gateEn d s = false ∨ gateOpen d (frame e.id s).cls (timeAtEighth s.tim stamp) s = true) →
        r = ptpAtStart (frame e.id s) d stamp (timeAtEighth s.tim stamp) s →
        t = modEg d e.id (fun x => { x with
          started := true, holding := false, patches := r.1, startAt := timeAtEighth s.tim stamp, gateCls := (frame e.id s).cls,
          stamp := stamp, sdu := maxSdu d (frame e.id s).cls s }) r.2 →
        exec (.txFrameStart d sub) s = .next t ∧
        (hasPtp (frame e.id s) = false → exec (.txFrameStart d sub) s = .next (modEg d e.id (fun x => { x with
          started := true, holding := false, patches := [], startAt := timeAtEighth s.tim stamp, gateCls := (frame e.id s).cls,
          stamp := stamp, sdu := maxSdu d (frame e.id s).cls s }) s)))) ∧
    (∀ k sub e, k < 8 → sub < 8 → frontEg (256 + k) s = some e → e.edited = true → e.started = false → e.early = false → e.dropped = false →
      destUp (256 + k) s = true → cellsFor (frame e.id s).len ≤ rdC tieLinkCredits_txCredits k s →
      exec (.txFrameStart (256 + k) sub) s = .next (wrC tieLinkCredits_txCredits k (rdC tieLinkCredits_txCredits k s - cellsFor (frame e.id s).len)
        (modEg (256 + k) e.id (fun x => { x with started := true, holding := false }) s))) ∧
    (∀ d e f, d < 256 → frontEg d s = some e → f = frame e.id s → crossedAll f = true → e.started = true → e.early = false → destUp d s = true →
      f.ct = false → (∀ x ∈ s.fab.later, x.1 ≠ d) →
      (overran e d s = false →
        exec (.txFrameEnd d) s = .next (leaveEg e.id d (noteLatency e d (emit (.frame d (outBytes f e) false)
          (countTx d ((outBytes f e).length + 4) s))))) ∧
      (overran e d s = true →
        exec (.txFrameEnd d) s = .next (leaveEg e.id d (noteLatency e d (raiseC tmgTxOverrun d (count tmgDCtrs 2 d 1
          (emit (.frame d (outBytes f e) false) (countTx d ((outBytes f e).length + 4) s)))))))) ∧
    (∀ d e f, f = frame e.id s →
      (f.inSrc < 256 → f.fromHost = false → f.overTie = false → f.mirrorCopy = false →
        noteLatency e d s = measure 1 d f.cls ((e.stamp - f.raw8) * 16 / 100) s) ∧
      (256 ≤ f.inSrc ∨ f.fromHost = true ∨ f.overTie = true ∨ f.mirrorCopy = true → noteLatency e d s = s)) ∧
    (∀ k e f, k < 8 → frontEg (256 + k) s = some e → f = frame e.id s → crossedAll f = true → e.started = true → e.early = false →
      destUp (256 + k) s = true →
      exec (.txFrameEnd (256 + k)) s = .next (leaveEg e.id (256 + k) (count tieCtrs 0 k 1
        (emit (.tieFlits k (flitsOf (if f.steer.isSome then 1 else 2) (tieDescriptor f s ++ outBytes f e))) s)))) ∧
    (∀ d e f, d < 256 → frontEg d s = some e → f = frame e.id s → e.started = true → e.early = false → f.ct = true → crossedAll f = false →
      ∃ t, exec (.ctUnderrun d) s = .next t ∧ Asserted swcCtUnderrun t ∧
        Output.frame d (outBytes { f with bytes := f.bytes.take (f.sent - 8) } e) true ∈ t.out) ∧
    (∀ e f q b free, frontEg 264 s = some e → f = frame e.id s → e.edited = true → crossedAll f = true → q = hostQueue f s → b = hostBytes f e s →
      exec (.hostDelivery free) s = .next (leaveEg e.id 264 (
        if toBench q b.2 then benchDeliver q ⟨f.ts, f.tsEpoch, f.exc, b.1⟩ b.2
        else if free && !b.2.pwr.perstLow then { b.2 with out := b.2.out ++ [.hostFrame q f.ts f.tsEpoch f.exc b.1] }
        else raise swcHostDrop (count swcGCtrs 7 0 1 b.2)))) ∧
    (∀ e m t, frontEg 266 s = some e → crossedAll (frame e.id s) = true → m = mirrorOf (frame e.id s) s → t = leaveEg e.id 266 s →
      (256 ≤ m.dest → m.dest < 264 → 2 ≤ m.crossings → exec .mirrorCopy s = .next (raise tieTieLoop (count tieGCtrs 7 0 1 t))) ∧
      (m.dest < 256 ∨ 264 ≤ m.dest ∨ m.crossings < 2 →
        (blockOn .swc t = false → exec .mirrorCopy s = .next (count swcGCtrs 3 0 1 t)) ∧
        (∀ u, blockOn .swc t = true → takeCells 35 (cellsFor m.len) t = (none, u) →
          exec .mirrorCopy s = .next (raise swcMirrorDrop (count swcGCtrs 6 0 1 (emptyResponse 35 u)))) ∧
        (∀ is u n v, blockOn .swc t = true → takeCells 35 (cellsFor m.len) t = (some is, u) → newFrame { m with cells := is } u = (n, v) →
          exec .mirrorCopy s = .next (voqEnter n none v)))) ∧
    (∀ q, q < 64 → exec (.benchQueueTokenGain q) s = .next
      (putBenchQueue q { benchQueue q s with tokensUsed := (benchQueue q s).tokensUsed - 1 } s))

/-- R432, R435 to R440, R447. -/
def Obligations.GatesListsAndMeters : Prop :=
  ∀ s : State,
    (∀ d, d < 256 → (operList d s = none → exec (.gateEntryChange d) s = .next s) ∧
      ((operList d s).isSome = true → exec (.gateEntryChange d) s = .next (showGates d s))) ∧
    (∀ d l T, d < 256 → pendTakeover d s = some (l, T) →
      (atOrAfter (timeNow s) T = false → exec (.gateTakeover d) s = .next s) ∧
      (atOrAfter (timeNow s) T = true → operList d s = none →
        exec (.gateTakeover d) s = .next (raiseC tmgGateTakeover d (showGates d (wrC tmgGateStatus_operList d l
          (wrC tmgGateStatus_operValid d 1 (wrC tmgGateStatus_pending d 0 (wrC tmgGateStatus_late d 0 (wrC tmgGateStatus_extended d 0
            (keepGates d (timeNow s) (timeNow s) s s))))))))) ∧
      (∀ o t, atOrAfter (timeNow s) T = true → operList d s = some o →
        t = wrC tmgGateStatus_operList d l (wrC tmgGateStatus_operValid d 1 (wrC tmgGateStatus_pending d 0 (wrC tmgGateStatus_late d 0
          (wrC tmgGateStatus_extended d (b2n (extendsTo d o T s)) (keepGates d (timeNow s) (timeNow s) s s))))) →
        (extendsTo d o T s = false → exec (.gateTakeover d) s = .next (raiseC tmgGateTakeover d (showGates d t))) ∧
        (extendsTo d o T s = true →
          exec (.gateTakeover d) s = .next (raiseC tmgTakeoverExtended d (raiseC tmgGateTakeover d (showGates d t)))))) ∧
    (∀ d, (gateEn d s = false ∨ operList d s = none →
        showGates d s = wrC tmgGateStatus_gatesNow d 0xFF (wrC tmgGateStatus_entryNow d 0 s)) ∧
      (∀ l e, gateEn d s = true → operList d s = some l → e = (operSegment d l (timeNow s) (pendTakeover d s) s).1 →
        showGates d s = wrC tmgGateStatus_gatesNow d (gclEntry d l e s).2 (wrC tmgGateStatus_entryNow d e s))) ∧
    (∀ w v d, Admits w .tmg s → selChan w .tmg s = d → isFused .tmg d s = false →
      (bit v.toNat 31 = true → bit v.toNat 4 = false → bit v.toNat 5 = false → rdC tmgGateStatus_pending d s = 1 →
        exec (.gateCancel w v) s = .next (raiseC tmgTakeoverCancelled d (wrC tmgGateStatus_pending d 0 s))) ∧
      (∀ l i, d < 256 → l = rdC tmgGclAddr_list (winIdx w) s → i = rdC tmgGclAddr_entry (winIdx w) s →
        (operList d s = some l ∨ (pendTakeover d s).map (·.1) = some l → exec (.gclDataHiWrite w v) s = .next (raiseC tmgGclRefused d s)) ∧
        (operList d s ≠ some l → (pendTakeover d s).map (·.1) ≠ some l → rdC tmgGclAddr_autoInc (winIdx w) s = 0 →
          exec (.gclDataHiWrite w v) s = .next (putGcl d l i (rdC tmgGclDataLo_interval (winIdx w) s, wordField v 0 8)
            (wrC tmgGclDataHi_gates (winIdx w) (wordField v 0 8) s))))) ∧
    (∀ w e, reachable w s = true → e = gclEntry (selChan w .tmg s) (rdC tmgGclAddr_list (winIdx w) s) (rdC tmgGclAddr_entry (winIdx w) s) s →
      exec (.gclEntryLoad w) s = .next (putRead w (BitVec.ofNat 32 e.1)
        (wrC tmgGclDataLo_interval (winIdx w) e.1 (wrC tmgGclDataHi_gates (winIdx w) e.2 s)))) ∧
    (∀ w v c i cfg cir cbs eir ebs, Admits w .tmg s → c = winIdx w → i = rdC tmgMeterSel_index c s → cfg = (reg tmgMeterCfg_ovh.off c s).toNat →
      cir = rdC tmgMeterCir_value c s → cbs = rdC tmgMeterCbs_value c s → eir = rdC tmgMeterEir_value c s → ebs = rdC tmgMeterEbs_value c s →
      (meterOk cfg cir cbs eir ebs = true → exec (.meterWrite w v) s = .next (wrC tmgMeterOp_result c 0
        (putMeter i { meterAt i s with cfg := cfg, cir := cir, cbs := cbs, eir := eir, ebs := ebs, raw := s.tim.raw, cTok := if bit v.toNat 2 then 0 else burstUnits cbs, eTok := if bit v.toNat 2 then 0 else burstUnits ebs } s))) ∧
      (meterOk cfg cir cbs eir ebs = false → exec (.meterWrite w v) s = .next (wrC tmgMeterOp_result c 1 s)) ∧
      (∃ t m, exec (.meterRead w v) s = .next t ∧ m = meterFill (meterAt i s) s.tim.raw ∧
        meterAt i t = (if bit v.toNat 3 then { m with cnt := [], wraps := 0 } else m) ∧ rdC tmgMeterCir_value c t = m.cir % 2 ^ tmgMeterCir_value.w ∧
        rdC tmgMeterState_blocked c t = b2n m.blocked ∧ rdC tmgMeterState_allRed c t = b2n m.allRed ∧ rdC tmgMeterOp_result c t = 0) ∧
      exec (.meterUnblock w v) s = .next (wrC tmgMeterOp_result c 0 (putMeter i { meterAt i s with blocked := false, allRed := false } s)))

/-- R415 to R419. -/
def Obligations.BuffersAreHandedOutAndReadBack : Prop :=
  ∀ (w : Window) (v : Word) (c : Nat) (s : State), Admits w .bpm s → c = winIdx w →
    (∀ u size r, u = wrC bpmAlloc_size c size (wrC bpmAlloc_requester c r s) → size = wordField v 0 15 → r = wordField v 16 6 → bit v.toNat 31 = true →
      (size = 0 ∨ 16384 < size → exec (.bpmAlloc w v) s = .next (wrC bpmAllocResult_handle c 0xFFFFFFFF (wrC bpmAllocStatus_result c 3 u))) ∧
      (size ≠ 0 → size ≤ 16384 → cfC bpmReqCfg_window r s ≠ reqWindow w →
        exec (.bpmAlloc w v) s = .next (wrC bpmAllocResult_handle c 0xFFFFFFFF (wrC bpmAllocStatus_result c 2 u))) ∧
      (∀ p i t, size ≠ 0 → size ≤ 16384 → cfC bpmReqCfg_window r s = reqWindow w → blockOn .bpm s = true →
        takeFirst r (sizeOrder.filter (fun p => decide (size ≤ poolSize p))) false u = (some (p, i), t) →
        exec (.bpmAlloc w v) s = .next (wrC bpmAllocResult_handle c (bufKey p i) (wrC bpmAllocStatus_result c 0 t))) ∧
      (∀ t, size ≠ 0 → size ≤ 16384 → cfC bpmReqCfg_window r s = reqWindow w → blockOn .bpm s = true →
        takeFirst r (sizeOrder.filter (fun p => decide (size ≤ poolSize p))) false u = (none, t) →
        exec (.bpmAlloc w v) s = .next (wrC bpmAllocResult_handle c 0xFFFFFFFF (wrC bpmAllocStatus_result c 1 (emptyResponse r t)))) ∧
      (size ≠ 0 → size ≤ 16384 → cfC bpmReqCfg_window r s = reqWindow w → blockOn .bpm s = false →
        exec (.bpmAlloc w v) s = .next (wrC bpmAllocResult_handle c 0xFFFFFFFF (wrC bpmAllocStatus_result c 1 (emptyResponse r u))))) ∧
    (∀ h r p i, p = bitsOf h 19 3 → i = bitsOf h 0 19 →
      (2 ^ 22 ≤ h ∨ 4 < p ∨ poolCount p ≤ i → freeResult w h r s = 3) ∧
      (h < 2 ^ 22 → p ≤ 4 → i < poolCount p →
        (cfC bpmReqCfg_window r s ≠ reqWindow w → freeResult w h r s = 2) ∧
        (cfC bpmReqCfg_window r s = reqWindow w →
          (bufOwner p i s = 0 ∨ bufOwner p i s = retiredMark → freeResult w h r s = 1) ∧
          (bufOwner p i s ≠ 0 → bufOwner p i s ≠ retiredMark → bufOwner p i s ≠ r + 1 → freeResult w h r s = 2) ∧
          (bufOwner p i s = r + 1 → bufOwner p i s ≠ retiredMark → freeResult w h r s = 0)))) ∧
    (∀ p i r, s.pools.retireNext.contains (bufKey p i) = false →
      giveBack p i r s = noteShared p (sharedFree p s) (wrX bpmReqUsed_count p r (usedOf r p s - 1) (putOwnerOf p i 0 s))) ∧
    (∀ r res, r = rdC bpmFreeReq_requester c s → res = freeResult w v.toNat r s →
      (res = 0 → exec (.bpmFree w v) s = .next (giveBack (bitsOf v.toNat 19 3) (bitsOf v.toNat 0 19) r (wrC bpmFreeStatus_result c 0 s))) ∧
      (res ≠ 0 → ∃ t, exec (.bpmFree w v) s = .next t ∧
        Asserted (if res = 1 then bpmDoubleFree else if res = 2 then bpmForeignFree else bpmBadHandle) t)) ∧
    (∀ a size off, boundBuffer w s = some (a, size) → off = rdC bpmBufOffset_offset c s / 4 * 4 → off < size → rdC bpmBufOffset_autoInc c s = 0 →
      exec (.bufDataAccess w false v) s = .next (putRead w (BitVec.ofNat 32 (leNat (memRead s.pools.content (a + off) 4))) s) ∧
      exec (.bufDataAccess w true v) s = .next { s with pools := { s.pools with content := memWrite s.pools.content (a + off) (bytesLE 4 v.toNat) } } ∧
      (∀ x, x < a + off ∨ a + off + 4 ≤ x →
        memRead (memWrite s.pools.content (a + off) (bytesLE 4 v.toNat)) x 1 = memRead s.pools.content x 1)) ∧
    (boundBuffer w s = none →
      exec (.bufDataAccess w false v) s = .next (bufStep c (putRead w 0 (count bpmCtrs 3 0 1 s))) ∧
      exec (.bufDataAccess w true v) s = .next (bufStep c (count bpmCtrs 3 0 1 s)))

/-- R228, R229, R231, R233 to R238. -/
def Obligations.StationsAreLearnedMovedAndAged : Prop :=
  ∀ s : State,
    (∀ n, n = 4096 - s.l2.queue.length → feedScan s =
      { s with l2 := { s.l2 with queue := s.l2.queue ++ (s.l2.due.take n).map L2Change.retire, due := s.l2.due.drop n } }) ∧
    (s.l2.queue = [] → s.l2.due = [] → exec .l2UpdateApply s = .next s) ∧
    (s.l2.queue = [] → exec .l2UpdateApply s = .next (feedScan s)) ∧
    (∀ rest u p fid mac, s.l2.queue = .learn p fid mac :: rest → u = { s with l2 := { s.l2 with queue := rest } } →
      (tgt ⟨.l2t, none⟩ s).st = .off → exec .l2UpdateApply s = .next (feedScan u)) ∧
    (∀ rest u p fid mac, s.l2.queue = .learn p fid mac :: rest → u = { s with l2 := { s.l2 with queue := rest } } →
      (tgt ⟨.l2t, none⟩ s).st = .on ∨ (tgt ⟨.l2t, none⟩ s).st = .draining →
      (∀ i, l2Find fid mac u = none → atLimit p u = false → l2Room fid mac u = some i →
        exec .l2UpdateApply s = .next (feedScan (withNote (learnNote mac fid 1 p 0 i s.l2.tick) (fun x => l2Stat 0
          (l2Replace i { valid := true, mac := mac, fid := fid, target := p, stamp := x.l2.tick } x)) u))) ∧
      (l2Find fid mac u = none → atLimit p u = true →
        exec .l2UpdateApply s = .next (feedScan (noteOnly (learnNote mac fid 6 p 0 0xFFFFF s.l2.tick) (raise l2tLimitReached (l2Stat 3 u))))) ∧
      (l2Find fid mac u = none → atLimit p u = false → l2Room fid mac u = none →
        exec .l2UpdateApply s = .next (feedScan (noteOnly (learnNote mac fid 7 p 0 0xFFFFF s.l2.tick) (raise l2tTableFull (l2Stat 4 u))))) ∧
      (∀ i e, l2Find fid mac u = some i → e = l2At i u → e.isStatic = false → e.kind = 0 → e.target ≠ p → atLimit p u = false →
        exec .l2UpdateApply s = .next (feedScan (withNote (learnNote mac fid 2 p e.target i s.l2.tick) (fun x => l2Stat 1
          (l2Replace i { e with target := p, kind := 0, stamp := x.l2.tick } x)) u))) ∧
      (∀ i e, l2Find fid mac u = some i → e = l2At i u → e.kind = 0 → e.target = p → e.stamp ≠ s.l2.tick →
        exec .l2UpdateApply s = .next (feedScan (putL2 i { e with stamp := s.l2.tick } u)))) ∧
    (∀ n f, (cf l2tCfg_notifyEn s = 0 → withNote n f s = f s) ∧
      (cf l2tCfg_notifyEn s = 1 → noteFits s = true → withNote n f s = putNote n (f s)) ∧
      (cf l2tCfg_notifyEn s = 1 → noteFits s = false → withNote n f s = raise bncQueueFull (l2Stat 5 s))) ∧
    (∀ rest u i e, s.l2.queue = .retire i :: rest → u = { s with l2 := { s.l2 with queue := rest } } → e = l2At i u →
      (l2Expired e u = true → exec .l2UpdateApply s = .next (feedScan (withNote (learnNote e.mac e.fid 3 0 e.target i s.l2.tick)
        (fun x => l2Stat 2 (l2Replace i {} x)) u))) ∧
      (l2Expired e u = false → exec .l2UpdateApply s = .next (feedScan u))) ∧
    (∀ rest u c x e, s.l2.queue = .hostWrite c x :: rest → u = { s with l2 := { s.l2 with queue := rest } } →
      e = (if x.isStatic then x else { x with stamp := s.l2.tick }) → l2FieldsOk x = true → l2CountPort e = none →
      (∀ i, l2Find x.fid x.mac u = some i → exec .l2UpdateApply s = .next (feedScan (l2Answer c i 0 (l2Replace i e u)))) ∧
      (∀ i, l2Find x.fid x.mac u = none → l2Room x.fid x.mac u = some i → exec .l2UpdateApply s = .next (feedScan (l2Answer c i 0 (l2Replace i e u)))) ∧
      (l2Find x.fid x.mac u = none → l2Room x.fid x.mac u = none → exec .l2UpdateApply s = .next (feedScan (l2Answer c 0 2 u)))) ∧
    (∀ rest u c fid mac, s.l2.queue = .hostDelete c fid mac :: rest → u = { s with l2 := { s.l2 with queue := rest } } →
      (∀ i, l2Find fid mac u = some i →
        exec .l2UpdateApply s = .next (feedScan (wrC l2tEntryStamp_stamp c (l2At i u).stamp (l2Answer c i 0 (l2Replace i {} u))))) ∧
      (l2Find fid mac u = none → exec .l2UpdateApply s = .next (feedScan (l2Answer c 0 1 u)))) ∧
    (∀ w v c, Admits w .l2t s → c = winIdx w →
      (∀ i, l2Find (rdC l2tKeyHi_fid c s) (l2KeyMac c s) s = some i →
        exec (.l2LookupOp w v) s = .next (l2Answer c i 0 (l2ShowData c (l2At i s) s))) ∧
      (l2Find (rdC l2tKeyHi_fid c s) (l2KeyMac c s) s = none → exec (.l2LookupOp w v) s = .next (l2Answer c 0 1 s)) ∧
      exec (.l2WriteOp w v) s = .next (enqueueL2 (.hostWrite c (l2KeyEntry c s)) (wrC l2tOp_busy c 1 s)) ∧
      exec (.l2DeleteOp w v) s = .next (enqueueL2 (.hostDelete c (rdC l2tKeyHi_fid c s) (l2KeyMac c s)) (wrC l2tOp_busy c 1 s)) ∧
      (∀ i e, i = wordField v 4 20 → e = l2At i s → i < 532480 →
        (e.valid = true → e.bad = false → exec (.l2ReadIndexOp w v) s = .next (l2Answer c i 0 (l2ShowData c e (wrC l2tKeyLo_macLo c e.mac
          (wrC l2tKeyHi_macHi c (e.mac / 2 ^ 32) (wrC l2tKeyHi_fid c e.fid s)))))) ∧
        (e.valid = false ∨ e.bad = true → exec (.l2ReadIndexOp w v) s = .next (l2Answer c i 1 s)))) ∧
    (∀ c i res, ∃ t, l2Answer c i res s = t ∧ rdC l2tOp_busy c t = 0 ∧ rdC l2tOp_result c t = res % 2 ^ l2tOp_result.w ∧
      rdC l2tOp_index c t = i % 2 ^ l2tOp_index.w) ∧
    (∀ u, u = { s with l2 := { s.l2 with tick := (s.l2.tick + 1) % 4096, recent := [] } } →
      (blockOn .l2t s = true → exec .l2AgingTick s = .next
        (feedScan { u with l2 := { u.l2 with due := (u.l2.entries.filter (fun e => l2Expired e.2 u)).map (·.1) } })) ∧
      (blockOn .l2t s = false → exec .l2AgingTick s = .next u)) ∧
    (∀ fid mac i, l2Find fid mac s = some i → i < 524288 →
      (l2At i s).valid = true ∧ (l2At i s).bad = false ∧ (l2At i s).fid = fid ∧ (l2At i s).mac = mac) ∧
    (∀ fid mac i, l2Room fid mac s = some i → (l2At i s).valid = false) ∧
    (∀ i e, l2At i (l2Replace i e s) = e) ∧
    exec .learnTokenGain s = .next { s with l2 := { s.l2 with tokensUsed := s.l2.tokensUsed - 1 } }

/-- R239, R243, R245, R247. -/
def Obligations.TableEntriesAreWrittenWholeAndReadBack : Prop :=
  ∀ (w : Window) (v : Word) (c : Nat) (s : State), Admits w .lpm s → c = winIdx w →
    (∀ e i, e = rdC lpmNodeDataLo_data c s + v.toNat * 2 ^ 32 → i = rdC lpmNodeAddr_index c s → poolEntryOk e = true → i < 3145728 →
      rdC lpmNodeAddr_autoInc c (putPool i e (wrC lpmNodeDataHi_data c v.toNat s)) = 0 →
      exec (.nodeDataHiWrite w v) s = .next (putPool i e (wrC lpmNodeDataHi_data c v.toNat s))) ∧
    (∀ e, e = poolAt (rdC lpmNodeAddr_index c s) s →
      exec (.nodeEntryLoad w) s = .next (putRead w (BitVec.ofNat 32 e) (wrC lpmNodeDataLo_data c e (wrC lpmNodeDataHi_data c (e / 2 ^ 32) s)))) ∧
    exec (.lpmFence w v) s = .next (wr lpmFence_done 0 s) ∧ exec .lpmFenceDone s = .next (wr lpmFence_done 1 s) ∧
    (∀ e i, e = rdC lpmNhData0_data c s + rdC lpmNhData1_data c s * 2 ^ 32 + rdC lpmNhData2_data c s * 2 ^ 64 + v.toNat * 2 ^ 96 →
      i = rdC lpmNhAddr_index c s →
      (bitsOf e 64 9 ≤ 265 → e < 2 ^ 76 → i < 262144 → rdC lpmNhAddr_autoInc c (putNh i e (wrC lpmNhData3_data c v.toNat s)) = 0 →
        exec (.nhData3Write w v) s = .next (putNh i e (wrC lpmNhData3_data c v.toNat s))) ∧
      (265 < bitsOf e 64 9 ∨ 2 ^ 76 ≤ e → exec (.nhData3Write w v) s = .next (accessError w lpmNhData3_data.off true s))) ∧
    (∀ e, e = nhAt (rdC lpmNhAddr_index c s) s →
      exec (.nhEntryLoad w) s = .next (putRead w (BitVec.ofNat 32 e) (wrC lpmNhData0_data c e (wrC lpmNhData1_data c (e / 2 ^ 32)
        (wrC lpmNhData2_data c (e / 2 ^ 64) (wrC lpmNhData3_data c (e / 2 ^ 96) s)))))) ∧
    (∀ i, i = rdC lpmEcmpAddr_index c s →
      (bitsOf v.toNat 0 18 + (bitsOf v.toNat 18 8 + 1) ≤ 262144 → i < 16384 →
        rdC lpmEcmpAddr_autoInc c (putGroup i (wordField v 0 27) (wrC lpmEcmpData_data c v.toNat s)) = 0 →
        exec (.ecmpDataWrite w v) s = .next (putGroup i (wordField v 0 27) (wrC lpmEcmpData_data c v.toNat s))) ∧
      (262144 < bitsOf v.toNat 0 18 + (bitsOf v.toNat 18 8 + 1) →
        exec (.ecmpDataWrite w v) s = .next (accessError w lpmEcmpData_data.off true s))) ∧
    (∀ i, i = rdC lpmMemberAddr_index c s → i < 262144 →
      rdC lpmMemberAddr_autoInc c (putMember i (wordField v 0 18) (wrC lpmMemberData_data c v.toNat s)) = 0 →
      exec (.memberDataWrite w v) s = .next (putMember i (wordField v 0 18) (wrC lpmMemberData_data c v.toNat s))) ∧
    (∀ i u m, i < 16 → u = wrX lpmSmacHi_mac i 0 v.toNat s → m = rdX lpmSmacLo_mac i 0 s + wordField v 0 16 * 2 ^ 32 →
      exec (.smacHiWrite w i v) s = .next { u with lpm := { u.lpm with smac := sset zeroDefault u.lpm.smac i m } }) ∧
    (∀ b, (b = .l2t ∨ b = .lpm ∨ b = .tmk) → Admits w b s →
      (v = 0 → exec (.statClear w b v) s = .next s) ∧
      (v = 1 → b = .lpm → exec (.statClear w b v) s = .next (putReg lpmStat_count.off 0 0 s)))

/-- R244. -/
def Obligations.PoolEntryWritesOutsideTheLayoutAreIgnored : Prop :=
  ∀ (w : Window) (v : Word) (e : Nat) (s : State), Admits w .lpm s → e = rdC lpmNodeDataLo_data (winIdx w) s + v.toNat * 2 ^ 32 →
    (2 ^ 47 ≤ e ∨ (bit e 46 = true ∧ 3145728 < bitsOf e 20 22 + 2 ^ (bitsOf e 42 4 + 1))) →
    exec (.nodeDataHiWrite w v) s = .next (accessError w lpmNodeDataHi_data.off true s)

/-- R102, R207 to R212, R507. -/
def Obligations.RuleVersionsAreStagedCheckedAndFreed : Prop :=
  ∀ (w : Window) (v : Word) (s : State), Admits w .cls s →
    (∀ u, u = wr clsStageCtl_mode (wordField v 2 1) s → bit v.toNat 0 = true → bit v.toNat 1 = false → bit v.toNat 9 = false →
      (stagingLocked u = false → exec (.stageCopy w v) s = .next (wr clsStageCtl_busy 1 { u with ver := { u.ver with copying := true } })) ∧
      (stagingLocked u = true → exec (.stageCopy w v) s = .next (raise clsStageRefused (wr clsStageCtl_stageRefused 1 u)))) ∧
    (∀ x, x = half (curVersion s) s → s.ver.copying = true →
      exec .stageCopyDone s = .next (wr clsStageCtl_busy 0 (wr clsStageCtl_mode x.mode
        (putHalf (curVersion s + 1) x { s with ver := { s.ver with copying := false } })))) ∧
    (s.ver.copying = false → exec .stageCopyDone s = .next s) ∧
    (∀ u, u = wr clsStageCtl_mode (wordField v 2 1) s → bit v.toNat 0 = false → bit v.toNat 1 = true → bit v.toNat 9 = false →
      (stagingLocked u = false → exec (.stageClear w v) s = .next (putHalf (curVersion u + 1) {} u)) ∧
      (stagingLocked u = true → exec (.stageClear w v) s = .next (raise clsStageRefused (wr clsStageCtl_stageRefused 1 u)))) ∧
    (∀ u, u = wr clsStageAddr_index (wordField v 0 17) (wr clsStageAddr_autoInc (wordField v 31 1) s) → bit v.toNat 30 = true →
      exec (.stageRuleLoad w v) s = .next (foldOver (List.range 16)
        (fun k a => wrX clsStageData_data k 0 (ruleWord (staging u) (rd clsStageAddr_index u) k) a) u)) ∧
    (∀ u, u = wrX clsStageData_data 15 0 v.toNat s → stagingLocked s = false → rd clsStageCtl_mode s = 0 → rd clsStageAddr_autoInc u = 0 →
      ∃ h, exec (.stageData15Write w v) s = .next (putHalf (curVersion u + 1) h u) ∧
        h.rules = foldOver (List.range 16) (fun k m => sset (fun _ => (0 : Word)) m (16 * rd clsStageAddr_index u + k)
          (reg (clsStageData_data.off + 4 * k) 0 u)) (staging u).rules ∧
        h.poisoned = (staging u).poisoned.filter (· != rd clsStageAddr_index u) ∧ h.count = (staging u).count ∧ h.mode = (staging u).mode) ∧
    (stagingLocked s = true ∨ rd clsStageCtl_mode s = 1 →
      exec (.stageData15Write w v) s = .next (raise clsStageRefused (wr clsStageCtl_stageRefused 1 s))) ∧
    (s.ver.check = none → exec .clsCheckDone s = .next s) ∧
    (∀ timed c, s.ver.check = some timed → clsCheck s = some c → exec .clsCheckDone s = .next (clsRefuse c s)) ∧
    (∀ u, u = { s with ver := { s.ver with check := none } } → s.ver.check = some false → clsCheck s = none → otherMembers s = 0 →
      exec .clsCheckDone s = .next (clsTake (curVersion s + 1) u)) ∧
    (rd clsVersionState_draining s = 1 → s.ver.drainOver = false → inflight (curVersion s - 1) s ≠ 0 →
      exec .drainOverrun s = .next (raise clsDrainOverrun (sat1 clsDrainStatus_drainOverruns { s with ver := { s.ver with drainOver := true } }))) ∧
    (rd clsVersionState_draining s = 0 ∨ s.ver.drainOver = true ∨ inflight (curVersion s - 1) s = 0 → exec .drainOverrun s = .next s) ∧
    (∀ t, t = wr clsDrainCtl_drainLimitMs (wordField v 0 8) s → wordField v 0 8 ≠ 0 → bit v.toNat 8 = true →
      (draining t = true → exec (.forceFree w v) s = .next (raise clsForcedFree (freeVersion t))) ∧
      (draining t = false → exec (.forceFree w v) s = .next t)) ∧
    (∀ c, ∃ t, clsRefuse c s = putCommit .cls { commitOf .cls t with status := 3, armed := none } t ∧
      t = raise cfgCommitRefused (sat1 cfgLastRefusal_refusalCount (wr cfgLastRefusal_refusal c (wr cfgLastRefusal_blockCode (blockCode .cls)
        (putCommit .cls { commitOf .cls s with refusal := c } { s with ver := { s.ver with check := none } }))))) ∧
    (∀ n x u, x = clsShadowsLive s → u = putHalf n { staging x with mode := rd clsStageCtl_mode x, cfg := versionCfg x } x →
      takeVersion n s = freeIfDrained (raise clsVersionCommitted (wr clsVersion_current n (wr clsVersionState_curMode (rd clsStageCtl_mode x)
        (wr clsVersionState_draining (if curVersion s = 0 then 0 else 1)
          { u with ver := { u.ver with check := none, drainRaw := u.tim.raw, drainOver := false } }))))) ∧
    freeVersion s = raise clsVersionFreed (wr clsStageCtl_mode (staging s).mode
      (wr clsDrainStatus_lastDrain (min 0xFFFF ((s.tim.raw - s.ver.drainRaw) / 78125)) (wr clsVersionState_draining 0 { s with
        ver := { s.ver with drainOver := false }
        mesh := { s.mesh with ver := { s.mesh.ver with localDrain := false, freeing := false, markers := 0 } } })))

/-- R489, R507, R508. -/
def Obligations.SystemCommitsRunAcrossTheMesh : Prop :=
  ∀ s : State,
    (∀ u timed, u = { s with ver := { s.ver with check := none } } → s.ver.check = some timed → clsCheck s = none → isManager s = true → otherMembers s ≠ 0 →
      exec .clsCheckDone s = .next (sysPrepare (commitOf .cls u).armed u)) ∧
    (∀ stated n t, n = curVersion s + 1 →
      t = modSys (fun v => { v with waiting := bitmap (others s), stated := stated }) (wr tieSysStatus_phase 1 (prepare n s)) →
      bitmap (others s) ≠ 0 → sysPrepare stated s = foldOver (others t) (fun k a => sendControl k 9 (bytesLE 1 1 ++ bytesLE 4 n) a) t) ∧
    (∀ n t, t = commitTime s.mesh.ver.stated s → sysCommit n s =
      modSys (fun v => { v with commitAt := some t, waiting := 0 }) (wr tieSysStatus_phase 2
        (foldOver (others s) (fun k a => sendControl k 9 (bytesLE 1 4 ++ (bytesLE 4 n ++ bytesLE 6 t.1 ++ bytesLE 4 t.2)) a) s))) ∧
    (∀ k code t, t = foldOver (others (wr tieSysStatus_device k (wr tieSysStatus_code code (wr tieSysStatus_valid 1 s))))
        (fun j a => sendControl j 9 (bytesLE 1 5 ++ []) a) (wr tieSysStatus_device k (wr tieSysStatus_code code (wr tieSysStatus_valid 1 s))) →
      sysRefused k code s = raise tieSysCommitRefused (clsRefuse code (modSys (fun x => { x with prepared := none, commitAt := none, waiting := 0 })
        (wr tieSysStatus_phase 0 { t with ver := { t.ver with locked := false } })))) ∧
    (∀ k seq u, k < 8 → linkActive k s = true → (takeBad k (count tieCtrs 3 k 1 s)).1 = false →
      seq = ((tieLink k (takeBad k (count tieCtrs 3 k 1 s)).2).rxSeq + 1) % 65536 →
      u = modTieLink k (fun x => { x with rxSeq := seq }) (takeBad k (count tieCtrs 3 k 1 s)).2 →
      (∀ n, (clsBusy u = false → clsCheck u = none → exec (.versionPrepare k seq n) s = .next
          (versionMsg k 2 (bytesLE 4 n) (wr tieSysStatus_phase 1 (prepare n u)))) ∧
        (clsBusy u = true → exec (.versionPrepare k seq n) s = .next (versionMsg k 3 (bytesLE 1 1) u)) ∧
        (∀ c, clsBusy u = false → clsCheck u = some c → exec (.versionPrepare k seq n) s = .next (versionMsg k 3 (bytesLE 1 c) u))) ∧
      (∀ n t, t = modSys (fun x => { x with waiting := clearBit x.waiting k }) u → awaited k u = true → u.mesh.ver.prepared = some n →
        (t.mesh.ver.waiting = 0 → exec (.versionReady k seq n) s = .next (sysCommit n t)) ∧
        (t.mesh.ver.waiting ≠ 0 → exec (.versionReady k seq n) s = .next t)) ∧
      (∀ code, (awaited k u = true → exec (.versionRefuse k seq code) s = .next (sysRefused k code u)) ∧
        (awaited k u = false → exec (.versionRefuse k seq code) s = .next u)) ∧
      (∀ n sec ns, (u.mesh.ver.prepared = some n → exec (.versionCommit k seq n sec ns) s = .next
          (modSys (fun x => { x with commitAt := some (sec, ns), waiting := 0 }) (wr tieSysStatus_phase 2 u))) ∧
        (u.mesh.ver.prepared ≠ some n → exec (.versionCommit k seq n sec ns) s = .next u)) ∧
      (u.mesh.ver.prepared.isSome = true → exec (.versionAbort k seq) s = .next
        (modSys (fun x => { x with prepared := none, commitAt := none, waiting := 0 })
          (wr tieSysStatus_phase 0 { u with ver := { u.ver with locked := false } }))) ∧
      (u.mesh.ver.prepared = none → exec (.versionAbort k seq) s = .next u)) ∧
    (∀ k r, tieLinks.find? (fun k => awaited k s) = some k → r = takeFree s → exec .versionPrepareTimeout s = .next (sysRefused k (r.1 % 16) r.2)) ∧
    ((∀ k, k < 8 → awaited k s = false) → exec .versionPrepareTimeout s = .next s) ∧
    (s.mesh.ver.joinWait = true → exec .joinWaitTimeout s = .next (clsTake 1 (modSys (fun x => { x with joinWait := false }) s))) ∧
    (s.mesh.ver.joinWait = false → exec .joinWaitTimeout s = .next s)

/-- R208, R489, R509. -/
def Obligations.VersionsAreFreedAcrossTheMesh : Prop :=
  ∀ (k seq : Nat) (s u : State), k < 8 → linkActive k s = true → (takeBad k (count tieCtrs 3 k 1 s)).1 = false →
    seq = ((tieLink k (takeBad k (count tieCtrs 3 k 1 s)).2).rxSeq + 1) % 65536 →
    u = modTieLink k (fun x => { x with rxSeq := seq }) (takeBad k (count tieCtrs 3 k 1 s)).2 →
    (u.mesh.ver.freeing = false →
      exec (.versionFreeRequest k seq) s = .next (markersIn (versionAll 7 [] (modSys (fun v => { v with freeing := true }) u)))) ∧
    (u.mesh.ver.freeing = true → exec (.versionFreeRequest k seq) s = .next (markersIn (versionAll 7 []
      (modSys (fun v => { v with freeing := true }) (modSys (fun v => { v with markers := 0 }) u))))) ∧
    (∀ sub body, versionAll sub body u = foldOver (others u) (fun j a => sendControl j 9 (bytesLE 1 sub ++ body) a) u) ∧
    (∀ t, t = modSys (fun v => { v with markers := setBit v.markers k }) u →
      exec (.versionMarker k seq) s = .next (markersIn t) ∧
      (t.mesh.ver.freeing = false ∨ bitmap (others t) &&& t.mesh.ver.markers ≠ bitmap (others t) → markersIn t = t) ∧
      (t.mesh.ver.freeing = true → bitmap (others t) &&& t.mesh.ver.markers = bitmap (others t) → isManager t = false →
        (idleHere t = false → markersIn t = modSys (fun v => { v with freeing := false, markers := 0 }) t) ∧
        (∀ m, idleHere t = true → managerOf t = some m →
          markersIn t = versionMsg m 8 [] (modSys (fun v => { v with freeing := false, markers := 0 }) t)))) ∧
    (∀ t, t = modSys (fun v => { v with confirms := clearBit v.confirms k }) u → isManager u = true → u.mesh.ver.freeing = true →
      (t.mesh.ver.confirms ≠ 0 → exec (.versionConfirm k seq) s = .next t) ∧
      (∀ x, x = wr tieSysStatus_phase 0 (modSys (fun v => { v with freeing := false, markers := 0 }) (versionAll 9 [] t)) → t.mesh.ver.confirms = 0 →
        exec (.versionConfirm k seq) s = .next (if draining x then freeVersion x else x))) ∧
    (isManager u = false → exec (.versionConfirm k seq) s = .next u) ∧
    (draining u = true → exec (.versionFree k seq) s = .next (freeVersion u)) ∧
    (draining u = false → exec (.versionFree k seq) s = .next (modSys (fun v => { v with freeing := false, markers := 0 }) u))

/-- R489, R504, R510, R511. -/
def Obligations.HeartbeatsWatchPeersAndCarryTime : Prop :=
  ∀ (k : Nat) (s : State), k < 8 →
    (blockOn .tie s = false ∨ rd tieMeshStatus_roleLive s = 3 → exec .heartbeatTick s = .next s) ∧
    (∀ r fresh, blockOn .tie s = true → rd tieMeshStatus_roleLive s ≠ 3 →
      r = tieLinks.foldl (fun (a : List Nat × State) j => (if (linkTick j a.2).1 then a.1 ++ [j] else a.1, (linkTick j a.2).2)) ([], s) →
      fresh = (match managerOf s with | some m => r.1.contains m | none => false) →
      exec .heartbeatTick s = .next (forwardEvent (freeRound (serveMoves (foldOver (activeLinks (managerTick fresh (absentTick r.2)))
        (fun j a => sendHeartbeat (managerSeen s) j a) (managerTick fresh (absentTick r.2))))))) ∧
    (watched k s = true → (tieLink k s).heard = true →
      linkTick k s = (false, wrC tieLinkStatus_missed k 0 (putTieLink k { tieLink k s with heard := false, lost := false } s))) ∧
    (∀ t, t = wrC tieLinkStatus_missed k (min 3 (rdC tieLinkStatus_missed k s + 1)) (count tieCtrs 7 k 1 s) → watched k s = true →
      (tieLink k s).heard = false →
      (rdC tieLinkStatus_missed k s < 2 → linkTick k s = (false, t)) ∧
      (rdC tieLinkStatus_missed k s = 2 → (tieLink k s).lost = false →
        linkTick k s = (true, raiseC tiePeerLost k (modTieLink k (fun y => { y with lost := true }) t)))) ∧
    (∀ hb b, b = takeBad k (count tieCtrs 3 k 1 s) → linkActive k s = true →
      (b.1 = true → exec (.heartbeatReceived k hb) s = .next b.2) ∧
      (∀ t, b.1 = false → hb.role ≠ 1 → t = ackLink k hb.ack (wrC tieLinkStatus_peerRole k hb.role (modTieLink k (fun x => { x with
          heard := true, peerSeen := hb.managerSeen, peerLost := hb.lost, peerCur := hb.current
          peerDraining := hb.draining, peerIdle := !hb.draining || hb.idle }) b.2)) → isManager t = false →
        exec (.heartbeatReceived k hb) s = .next t) ∧
      (∀ t, b.1 = false → hb.role = 1 → t = ackLink k hb.ack (wrC tieLinkStatus_peerRole k hb.role (modTieLink k (fun x => { x with
          heard := true, peerSeen := hb.managerSeen, peerLost := hb.lost, peerCur := hb.current
          peerDraining := hb.draining, peerIdle := !hb.draining || hb.idle }) b.2)) → isManager t = false →
        (rd tieMgrEpoch_epoch t < hb.epoch → hb.epoch < 2 ^ 32 →
          exec (.heartbeatReceived k hb) s = .next (fromManager k hb (wr tieMeshStatus_managerId k (wr tieMeshStatus_managerPresent 1
            (wr tieMgrEpoch_epoch hb.epoch { t with mesh := { t.mesh with fwdSent := none } }))))) ∧
        (hb.epoch ≤ rd tieMgrEpoch_epoch t → managerOf t = some k → exec (.heartbeatReceived k hb) s = .next (fromManager k hb t)))) ∧
    (∀ hb t, t = wr tieMeshStatus_absent hb.absent (wr tieMeshStatus_members hb.members s) →
      (bit hb.members (selfId t) = false → fromManager k hb s = wr tieMeshStatus_joined 0 t) ∧
      (bit hb.members (selfId t) = true → (rd tieMeshStatus_joined t = 1 ∨ draining t = true) → fromManager k hb s = t) ∧
      (bit hb.members (selfId t) = true → rd tieMeshStatus_joined t ≠ 1 → draining t = false → fromManager k hb s = meshJoin k hb.current t)) ∧
    (∀ sub, sub < 8 → exec (.timeTransferStart sub) s = .next (foldOver (activeLinks s) (fun k a =>
        sendMsg k 5 (bytesLE 1 0 ++ timeBytes (leavesAt k sub a)) (modTieLink k (fun x => { x with t1 := some (leavesAt k sub a, a.tim.epoch) }) a)) s)) ∧
    (∀ sub, leavesAt k sub s = timeAtEighth s.tim (raw8 sub s + rdC lanPmaDelay_txDelay (256 + 4 * k) s)) ∧
    (∀ sub u now, u = (takeBad k (count tieCtrs 3 k 1 s)).2 → (takeBad k (count tieCtrs 3 k 1 s)).1 = false → linkActive k s = true →
      now = timeAtEighth u.tim (raw8 sub u - rdC lanPmaDelay_rxDelay (256 + 4 * k) u) →
      (∀ x, exec (.timeTransfer k sub (.request x)) s = .next (sendMsg k 5 (bytesLE 1 1 ++ timeBytes now ++ timeBytes (leavesAt k sub u) ++ [0]) u)) ∧
      (∀ t2 t3 c, (tieLink k u).t1 = none → exec (.timeTransfer k sub (.answer t2 t3 c)) s = .next u) ∧
      (∀ t2 t3 c t1 e d t, (tieLink k u).t1 = some (t1, e) → d = unsigned 48 ((timeDiff now t1 - timeDiff t3 t2) / 2) →
        t = wrC tieLinkDelayHi_value k (d / 65536) (wrC tieLinkDelayLo_value k (d % 65536) (modTieLink k (fun x => { x with t1 := none }) u)) →
        (managerOf t ≠ some k → exec (.timeTransfer k sub (.answer t2 t3 c)) s = .next t) ∧
        (managerOf t = some k → c = true → exec (.timeTransfer k sub (.answer t2 t3 c)) s = .next (raise timSampleStale t))))

/-- R485, R486, R488, R489, R490, R491, R492, R495, R496, R513. -/
def Obligations.TieLinksAgreeAndCarryFrames : Prop :=
  ∀ (k : Nat) (s : State), k < 8 →
    (rdC tieLinkStatus_state k s = 2 → exec (.tieCapSend k) s = .next (count tieCtrs 2 k 1 (emit (.tieFlits k (flitsOf 8
      (bytesLE 2 (partNumber s) ++ bytesLE 1 (rd sysPartId_revision s) ++ bytesLE 1 (selfId s) ++ bytesLE 1 (rd sysStrapSample_role s)
        ++ bytesLE 1 (rd tieMeshStatus_roleLive s) ++ bytesLE 1 k ++ bytesLE 2 (tieLink k s).meshId ++ bytesLE 4 (rd tieMgrEpoch_epoch s)
        ++ bytesLE 2 (tieLink k s).credits))) s))) ∧
    (rdC tieLinkStatus_state k s ≠ 2 → exec (.tieCapSend k) s = .next s) ∧
    (∀ cap peer b, b = takeBad k (count tieCtrs 3 k 1 s) → rdC tieLinkStatus_state k s = 2 → b.1 = true →
      exec (.tieCapability k cap peer) s = .next b.2) ∧
    (∀ cap peer u, (false, u) = takeBad k (count tieCtrs 3 k 1 s) → rdC tieLinkStatus_state k s = 2 →
      (∀ r, capRefusal k cap u = some r → r ≠ 5 → exec (.tieCapability k cap peer) s = .next (wrC tieLinkStatus_state k 4
        (dropLanes (256 + 4 * k) (raiseC tieCapRefused k (wrC tieLinkStatus_refuse k r u))))) ∧
      (capRefusal k cap u = some 5 → exec (.tieCapability k cap peer) s = .next (wrC tieLinkStatus_state k 4
        (dropLanes (256 + 4 * k) (raise tieDupManager (raiseC tieCapRefused k (wrC tieLinkStatus_refuse k 5 u)))))) ∧
      (∀ t, t = wrC tieLinkStatus_peerId k cap.deviceId (wrC tieLinkStatus_peerRole k cap.liveRole
          (modTieLink k (fun x => { x with ownOk := true, peerOk := x.peerOk || peer }) u)) → capRefusal k cap u = none →
        ((tieLink k t).peerOk = true → exec (.tieCapability k cap peer) s =
          .next (hearEpoch k cap.epoch (decide (cap.liveRole = 1)) (linkStarts k cap t))) ∧
        ((tieLink k t).peerOk = false → exec (.tieCapability k cap peer) s = .next (hearEpoch k cap.epoch (decide (cap.liveRole = 1)) t)) ∧
        ((tieLink k t).peerOk = false → cap.epoch ≤ rd tieMgrEpoch_epoch t → exec (.tieCapability k cap peer) s = .next t))) ∧
    (∀ epoch m, (epoch ≤ rd tieMgrEpoch_epoch s → hearEpoch k epoch m s = s) ∧
      (rd tieMgrEpoch_epoch s < epoch → isManager s = true → hearEpoch k epoch false s = stepDown s) ∧
      (rd tieMgrEpoch_epoch s < epoch → isManager s = false → hearEpoch k epoch true s = wr tieMeshStatus_managerId k
        (wr tieMeshStatus_managerPresent 1 (wr tieMgrEpoch_epoch epoch { s with mesh := { s.mesh with fwdSent := none } })))) ∧
    (∀ cap, (cap.meshId ≠ (tieLink k s).meshId → capRefusal k cap s = some 1) ∧
      (cap.meshId = (tieLink k s).meshId → cap.deviceId ≠ k → capRefusal k cap s = some 2)) ∧
    (rdC tieLinkStatus_state k s ≠ 0 → (tieLink k (tieLanesAligned k s)).meshId = cf tieMeshCfg_meshId s ∧
      (tieLink k (tieLanesAligned k s)).credits = cf tieLinkCfg_creditCells s) ∧
    (∀ l0 l1 l2 l3 got t, rdC tieLinkStatus_state k s = 2 ∨ rdC tieLinkStatus_state k s = 3 → got = (tieLink k s).got → got.length < 15 →
      t = rsDecode (fromLanes got.length [l0, l1, l2, l3]) →
      (t = none → exec (.tieCodewordDecode k l0 l1 l2 l3) s = .next (raiseC tieFecUncorrected k
        (count tieCtrs 5 k 1 (modTieLink k (fun x => { x with got := got ++ [none] }) s)))) ∧
      (∀ w, t = some (w, 0) → exec (.tieCodewordDecode k l0 l1 l2 l3) s = .next (modTieLink k (fun x => { x with got := got ++ [some w] }) s)) ∧
      (∀ w n, t = some (w, n) → 0 < n →
        exec (.tieCodewordDecode k l0 l1 l2 l3) s = .next (modTieLink k (fun x => { x with got := got ++ [some w] }) (count tieCtrs 4 k 1 s)))) ∧
    (∀ l0 l1 l2 l3 got w u, rdC tieLinkStatus_state k s = 2 ∨ rdC tieLinkStatus_state k s = 3 → got = (tieLink k s).got → got.length = 15 →
      rsDecode (fromLanes 15 [l0, l1, l2, l3]) = some (w, 0) → u = modTieLink k (fun x => { x with got := got ++ [some w] }) s →
      exec (.tieCodewordDecode k l0 l1 l2 l3) s = .next (foldOver (blockFlits (got ++ [some w])) (fun f a => takeFlit k f a)
        (modTieLink k (fun x => { x with got := [] }) u))) ∧
    (takeFlit k none s = modTieLink k (fun x => { x with frameIn := streamBad x.frameIn, ctlIn := streamBad x.ctlIn }) s) ∧
    (∀ f t, t = wrC tieLinkCredits_txCredits k (min 65535 (rdC tieLinkCredits_txCredits k s + f.credit)) s →
      (f.kind = 0 → takeFlit k (some f) s = t) ∧
      (f.kind = 1 ∨ f.kind = 2 → takeFlit k (some f) s = modTieLink k (fun x => { x with frameIn := streamFlit x.frameIn f }) t) ∧
      (3 ≤ f.kind → f.kind < 10 → takeFlit k (some f) s = modTieLink k (fun x => { x with ctlIn := streamFlit x.ctlIn f }) t) ∧
      (10 ≤ f.kind → takeFlit k (some f) s = count tieCtrs 9 k 1 t)) ∧
    (takeBad k s = ((tieLink k s).ctlIn.ended.headD false,
      modTieLink k (fun x => { x with ctlIn := { x.ctlIn with ended := x.ctlIn.ended.drop 1 } }) s)) ∧
    (∀ d bytes b, linkActive k s = true →
      b = ((tieLink k s).frameIn.ended.headD false, modTieLink k (fun x => { x with frameIn := { x.frameIn with ended := x.frameIn.ended.drop 1 } }) s) →
      (b.1 = true → exec (.tieFrame k d bytes) s = .next (count tieCtrs 9 k 1 (count tieCtrs 1 k 1 b.2))) ∧
      (∀ u, u = count tieCtrs 1 k 1 b.2 → b.1 = false → versionLive (leAt d 0 4) u = false →
        exec (.tieFrame k d bytes) s = .next (raise tieVersionUnknown (count tieGCtrs 6 0 1 u)) ∧
        exec (.tieSteeredItem k d bytes) s = .next (raise tieVersionUnknown (count tieGCtrs 6 0 1 u))) ∧
      (∀ i t, b.1 = false → tieReceive k d bytes b.2 = (some i, t) → bit (leAt d 0x12 1) 5 = true → leAt d 0x24 4 < 2 ^ 31 →
        exec (.tieFrame k d bytes) s = .next (voqEnter i none (modFrame i (fun f => { f with nhEntry := 0 }) t))) ∧
      (∀ i t, b.1 = false → tieReceive k d bytes b.2 = (some i, t) →
        exec (.tieSteeredItem k d bytes) s = .next (count tieGCtrs 1 0 1 (steeredItem d i t)))) ∧
    (∀ x m rest, x = tieLink k s → linkActive k s = true →
      (x.unacked = [] → exec (.controlResend k) s = .next s) ∧
      (x.unacked = m :: rest → m.resends < 8 → exec (.controlResend k) s = .next (emit (.tieFlits k (flitsOf m.kind m.body))
        (count tieCtrs 6 k 1 (putTieLink k { x with unacked := { m with resends := m.resends + 1 } :: rest } s)))) ∧
      (x.unacked = m :: rest → 8 ≤ m.resends → exec (.controlResend k) s =
        .next (dropLanes (256 + 4 * k) (noteLinkLost k (raiseC tieResendFail k s))))) ∧
    (∀ seq record u, linkActive k s = true → (takeBad k (count tieCtrs 3 k 1 s)).1 = false →
      seq = ((tieLink k (takeBad k (count tieCtrs 3 k 1 s)).2).rxSeq + 1) % 65536 →
      u = modTieLink k (fun x => { x with rxSeq := seq }) (takeBad k (count tieCtrs 3 k 1 s)).2 →
      (isManager u = true → exec (.eventForward k seq record) s = .next (meshWrite (forwardedWords record) u)) ∧
      (isManager u = false → exec (.eventForward k seq record) s = .next u)) ∧
    (∀ seq record u, linkActive k s = true → (takeBad k (count tieCtrs 3 k 1 s)).1 = true → u = (takeBad k (count tieCtrs 3 k 1 s)).2 →
      exec (.eventForward k seq record) s = .next u)

/-- R489, R497 to R501. -/
def Obligations.OwnershipMovesBetweenDevices : Prop :=
  ∀ s : State,
    (∀ w v c e d t, Admits w .tie s → c = winIdx w → e = wordField v 0 12 → d = wordField v 12 3 →
      t = wrC tieOwnMove_device c d (wrC tieOwnMove_entry c e s) →
      (bit v.toNat 16 = false → exec (.ownMoveGo w v) s = .next t) ∧
      (∀ r, bit v.toNat 16 = true → moveRefusal e d t = some r → exec (.ownMoveGo w v) s = .next (wrC tieOwnMove_result c r t)) ∧
      (bit v.toNat 16 = true → moveRefusal e d t = none → exec (.ownMoveGo w v) s = .next (beginMove e d (some c) true
        (wrC tieOwnMove_busy c 1
          { t with mesh := { t.mesh with own := t.mesh.own.map (fun x => if x.2.win = some c then (x.1, { x.2 with win := none }) else x) } })))) ∧
    (∀ e d, (isManager s = false → moveRefusal e d s = some 1) ∧
      (isManager s = true → bit (rd tieMeshStatus_members s) d = false → moveRefusal e d s = some 2) ∧
      (isManager s = true → bit (rd tieMeshStatus_members s) d = true → entryMoving e s = true → moveRefusal e d s = some 3) ∧
      (isManager s = true → bit (rd tieMeshStatus_members s) d = true → entryMoving e s = false →
        (ownerDevice e s = d → moveRefusal e d s = some 4) ∧ (ownerDevice e s ≠ d → moveRefusal e d s = none))) ∧
    (∀ k seq e u, k < 8 → e < 4096 → linkActive k s = true → (takeBad k (count tieCtrs 3 k 1 s)).1 = false →
      seq = ((tieLink k (takeBad k (count tieCtrs 3 k 1 s)).2).rxSeq + 1) % 65536 →
      u = modTieLink k (fun x => { x with rxSeq := seq }) (takeBad k (count tieCtrs 3 k 1 s)).2 →
      (∀ owner epoch done x g, x = ownEntry e u → g = decide (ownerDevice e u = selfId u ∧ owner ≠ selfId u) →
        exec (.ownerChange k seq e owner epoch true done) s = .next (serveMoves (putOwn e { x with
          owner := some owner, epoch := epoch, moving := true, settled := done, giving := g && !done
          fwdRaw := if g then some u.tim.raw else none
          late := false, fromDev := ownerDevice e u, beganRaw := u.tim.raw, done := false, aborted := false, ending := none } u))) ∧
      (∀ owner epoch done, exec (.ownerChange k seq e owner epoch false done) s = .next
        (clearMoving e (modOwn e (fun x => { x with owner := some owner, epoch := epoch, purge := x.purge && decide (owner ≠ selfId u) }) u))) ∧
      (∀ epoch r, epoch ≠ (ownEntry e u).epoch ∨ ownerDevice e u ≠ selfId u ∨ (ownEntry e u).aborted = true →
        exec (.stateSync k seq e epoch r) s = .next (raise tieStaleEpoch (count tieGCtrs 4 0 1 u))) ∧
      (∀ epoch r, epoch = (ownEntry e u).epoch → ownerDevice e u = selfId u → (ownEntry e u).aborted = false →
        exec (.stateSync k seq e epoch r) s = .next
          (offerOp { op := .sync e epoch r, tag := bucketOfKey (rcKey r) u, digest := digestOfKey (rcKey r), key := rcKey r } u)) ∧
      (syncsWait e u = true → exec (.transferDone k seq e) s = .next (modOwn e (fun y => { y with ending := some k }) u)) ∧
      (∀ t, t = unpark e (modOwn e (fun y => { y with settled := true, done := true, ending := none }) u) → syncsWait e u = false →
        ownerDevice e u = selfId u → isManager t = true → exec (.transferDone k seq e) s = .next t) ∧
      (syncsWait e u = false → isManager u = true → ownerDevice e u = k → ownerDevice e u ≠ selfId u →
        exec (.transferDone k seq e) s = .next (modOwn e (fun y => { y with done := true }) u)) ∧
      (∀ owner epoch, exec (.ownerMoveAbort k seq e owner epoch) s = .next
        (clearMoving e (modOwn e (fun x => { x with owner := some owner, epoch := epoch, aborted := true }) u)))) ∧
    (∀ e x, e < 4096 → x = ownEntry e s →
      (isManager s = true → x.moving = true → x.done = true → (∀ k, k ∈ others s → changeUnacked k e s = false) →
        exec (.ownerMoveAcked e) s = .next (raise tieOwnerMoved
          (tellOthers e (ownerDevice e s) x.epoch false false false (clearMoving e (moveResult e 0 s))))) ∧
      (isManager s = false ∨ x.moving = false ∨ x.done = false → exec (.ownerMoveAcked e) s = .next s) ∧
      (isManager s = true → x.moving = true → bit (rd tieMeshStatus_members s) (ownerDevice e s) = true →
        200000000 * 100 ≤ (s.tim.raw - x.beganRaw) * 128 → exec (.ownMoveTimeout e) s = .next (raise tieOwnerMoveAborted (tellOthers e (ownerDevice e s) x.epoch false false true
          (applyAbort e (ownerDevice e s) x.epoch (moveResult e 5 s))))) ∧
      (isManager s = false ∨ x.moving = false → exec (.ownMoveTimeout e) s = .next s) ∧
      (∀ r, x.fwdRaw = some r → 1000000 * cf tieMeshCfg_fwdWindowMs s * 100 ≤ (s.tim.raw - r) * 128 →
        exec (.fwdWindowEnd e) s = .next (putOwn e { x with late := true } s)) ∧
      (∀ r, x.fwdRaw = some r → (s.tim.raw - r) * 128 < 1000000 * cf tieMeshCfg_fwdWindowMs s * 100 → exec (.fwdWindowEnd e) s = .next s) ∧
      (x.fwdRaw = none → exec (.fwdWindowEnd e) s = .next s))

/-- R267, R268, R272 to R274, R279, R280, R285, R610. -/
def Obligations.FlowRecordsAgeRetireAndExport : Prop :=
  ∀ s : State,
    exec .flowTick s = .next (wr fltTickNow_tick (rd fltTickNow_tick s + 1) s) ∧
    (∀ b, b < recordCount s → b < 2 ^ 27 → blockOn .flt s = true →
      exec (.scannerVisit ⟨b, false, false⟩ false) s = .next (foldOver [0, 1, 2, 3] (scanPlace b) (readBucket b s)) ∧
      exec (.scannerVisit ⟨b, false, true⟩ false) s = .next (foldOver [0, 1, 2, 3] (scanPlace b) (readBucket b
        (raiseC hbmEccCorrected (stackOf (bucketAddr b s) (raise scrEccCorrected (satX scrEccCorr_count 0 0 1 s)))
          (satX hbmEccCorr_count 0 (stackOf (bucketAddr b s) (raise scrEccCorrected (satX scrEccCorr_count 0 0 1 s))) 1
            (raise scrEccCorrected (satX scrEccCorr_count 0 0 1 s)))))) ∧
      (∀ c, exec (.scannerVisit ⟨b, true, c⟩ false) s = .next (offerOp { op := .lostBucket, tag := b }
        (raise scrEccUncorrectable (logError 0 (bucketAddr b s) false (satX scrEccUncorr_count 0 0 1 s)))))) ∧
    (∀ v last, v.place < 2 ^ 27 + 1048576 → blockOn .flt s = false → exec (.scannerVisit v last) s = .next s) ∧
    (∀ b p x, x = placeAt b p s →
      (slState x = 1 → idleReached (slStamp x) (slProg x) s = true →
        scanPlace b p s = offerOp { op := .retireCheck p (slRec x), tag := b, digest := slDigest x } s) ∧
      (slState x ≠ 1 ∨ idleReached (slStamp x) (slProg x) s = false → scanPlace b p s = s)) ∧
    (∀ c q i p n u x hit, c < 32 → runningOp c q s = some i → i.op = .retireCheck p n → u = readBucket i.tag s → x = placeAt i.tag p u →
      hit = rcHit (recordAt n u) →
      (slState x ≠ 1 ∨ slRec x ≠ n → exec (.retireCheck c q .none) s = .next (opDone c q u)) ∧
      (slState x = 1 → slRec x = n → idleReached hit (slProg x) u = true → 1024 ≤ exportFree u →
        exec (.retireCheck c q .none) s = .next (opDone c q (retire i.tag p n 1 false u))) ∧
      (slState x = 1 → slRec x = n → idleReached hit (slProg x) u = true → exportFree u < 1024 →
        exec (.retireCheck c q .none) s = .next (opDone c q (raise fltRetireDeferred (fltCount 10 u)))) ∧
      (slState x = 1 → slRec x = n → idleReached hit (slProg x) u = false → slStamp x ≠ hit →
        exec (.retireCheck c q .none) s = .next (opDone c q (fltCount 9 (putPlace i.tag p (withBits x 41 20 hit) u))))) ∧
    (∀ c q i p n r t u, c < 32 → runningOp c q s = some i → i.op = .cleanup p n → t = readBucket i.tag s →
      t.flow.retiring.find? (fun r => r.recIndex == n) = some r →
      u = { t with flow := { t.flow with retiring := t.flow.retiring.filter (fun x => x.recIndex != n) } } →
      slState (placeAt i.tag p t) = 2 → slRec (placeAt i.tag p t) = n → exportRoom t = true →
      exec (.retireCleanup c ⟨q, .none⟩) s = .next (opDone c q
        (retireEnd i.tag p n (rcGen (recordAt n t)) (buildExport i.tag n r.reason (recordAt n t) u)))) ∧
    (∀ b p i reason t, t = retireCount reason s →
      retire b p i reason true s = retireEnd b p i (rcGen (recordAt i s)) t ∧
      (exportRoom t = true → retire b p i reason false s = retireEnd b p i (rcGen (recordAt i s)) (buildExport b i reason (recordAt i s) t)) ∧
      (exportRoom t = false → 65536 ≤ t.flow.retiring.length →
        retire b p i reason false s = raise fltExportLost (fltCount 12 (retireEnd b p i (rcGen (recordAt i s)) t)))) ∧
    (∀ b p i g u, u = putPlace b p 0 (putCache (s.flow.cache.filter (fun l => l.recIndex != i)) s) → 4 ≤ p →
      retireEnd b p i g s = wr fltUsage_count (rd fltUsage_count u - 1)
        { u with flow := { u.flow with holds := u.flow.holds ++ [(i, g, u.tim.raw)] } }) ∧
    (∀ b i reason r, (cf fltExportCfg_dest s = 0 → buildExport b i reason r s = s) ∧
      (cf fltExportCfg_dest s ≠ 0 → buildExport b i reason r s = { s with flow := { s.flow with exportQ := s.flow.exportQ ++
        [(cf fltExportCfg_dest s, rcKey r ++ slice r 0x70 16 ++ bytesLE 1 (rcProgram r) ++ bytesLE 1 reason ++ bytesLE 1 (rcProfile r)
          ++ bytesLE 1 (rcGen r) ++ bytesLE 4 i ++ bytesLE 4 b ++ bytesLE 4 (rcHit r) ++ bytesLE 4 (secOf (timeNow s))
          ++ bytesLE 4 (nsOf (timeNow s)) ++ bytesLE 2 s.tim.epoch ++ bytesLE 2 (rcOwner r) ++ bytesLE 1 (b2n (reason = 4))
          ++ List.replicate 34 0 ++ [1])] } })) ∧
    (blockOn .flt s = false → exec .exportRingWrite s = .next s) ∧
    (∀ d r rest, s.flow.exportQ = (d, r) :: rest → d = 1 → s.pwr.perstLow = true → exec .exportRingWrite s = .next s) ∧
    (∀ d r rest n p, s.flow.exportQ = (d, r) :: rest → blockOn .flt s = true → (s.pwr.perstLow = true → d = 2) →
      exportRingFree (d - 1) s = true → n = rdC fltExpqCfg_log2Entries (d - 1) s →
      p = rdC fltExpqProd_index (d - 1) s →
      exec .exportRingWrite s = .next (issueCleanup (emit (ringOut (d - 1) (exportBase (d - 1) s + 128 * (p % 2 ^ n)) r)
        (wrC fltExpqProd_index (d - 1) ((p + 1) % 2 ^ (n + 1)) { s with flow := { s.flow with exportQ := rest } })))) ∧
    (s.flow.exportQ = [] → exec .exportRingWrite s = .next s) ∧
    (∀ w v c, Admits w .flt s → c = winIdx w →
      exec (.expqConsWrite w v) s = .next (wrC fltExpqCons_index c (wordField v 0 13) s) ∧
      (∀ t, t = wrC fltExpqCfg_log2Entries c (wordField v 0 4) s → rdC fltExpqCfg_enable c s = 0 → wordField v 4 1 = 1 →
        (rdC fltExpqBaseLo_addr c s % 128 = 0 → 4 ≤ wordField v 0 4 → wordField v 0 4 ≤ 12 →
          exec (.expqEnable w v) s = .next (wrC fltExpqCfg_enable c 1 t)) ∧
        (rdC fltExpqBaseLo_addr c s % 128 ≠ 0 ∨ wordField v 0 4 < 4 ∨ 12 < wordField v 0 4 →
          exec (.expqEnable w v) s = .next (raise fltExpError t))) ∧
      (bar2Ok (wordField v 0 9) s = true → exec (.bar2WindowWrite w v) s = .next (wr fltBar2Window_window (wordField v 0 9) s)) ∧
      (bar2Ok (wordField v 0 9) s = false → exec (.bar2WindowWrite w v) s = .next (accessError w fltBar2Window_window.off true s))) ∧
    (∀ i g rest, s.flow.chain = (i, g) :: rest → s.flow.pool.length < 65536 →
      exec .poolRefill s = .next (raiseC hbmMarginUsed (stackOf (128 * i) s)
        { s with flow := { s.flow with pool := s.flow.pool ++ [(i, g)], chain := rest } })) ∧
    (s.flow.chain = [] → exec .poolRefill s = .next s) ∧
    (∀ i g t rest, s.flow.holds = (i, g, t) :: rest → s.flow.pool.length < 65536 →
      exec .indexHoldExpire s = .next { s with flow := { s.flow with holds := rest, pool := s.flow.pool ++ [(i, g)] } }) ∧
    (s.flow.holds = [] → exec .indexHoldExpire s = .next s) ∧
    (∀ a n o, n = rd fltBar2Window_window s → o = a / 64 * 64 →
      (n < 256 → bar2Block a s = slice (recordAt ((n * 2 ^ 26 + o) / 128) s) (o % 128) 64) ∧
      (256 ≤ n → n < 384 → bar2Block a s = memRead s.flow.hbm (bucketBase s + (n - 256) * 2 ^ 26 + o) 64) ∧
      (384 ≤ n → 2 ^ 24 ≤ a → bar2Block a s = List.replicate 64 0))

/-- R264, R266, R286 to R288. -/
def Obligations.CommandRingsActOnRecords : Prop :=
  ∀ s : State,
    (∀ w v c t, Admits w .flt s → c = winIdx w → t = wrC fltCmdqCfg_log2Entries c (wordField v 0 4) s → rdC fltCmdqCfg_enable c s = 0 → wordField v 4 1 = 1 →
      (∀ u, u = takeRing c (wrC fltCmdqCfg_enable c 1 { t with flow := { t.flow with stopped := t.flow.stopped.filter (· != c) } }) →
        rdC fltCmdqBaseLo_addr c t % 256 = 0 → 4 ≤ wordField v 0 4 → wordField v 0 4 ≤ 12 →
        exec (.cmdqEnable w v) s = .next (if ringRuns c u then takeEntries c 8192 u else u)) ∧
      (∀ u, u = takeRing c (wrC fltCmdqCfg_enable c 1 { t with flow := { t.flow with stopped := c :: t.flow.stopped.filter (· != c) } }) →
        rdC fltCmdqBaseLo_addr c t % 256 ≠ 0 ∨ wordField v 0 4 < 4 ∨ 12 < wordField v 0 4 →
        exec (.cmdqEnable w v) s = .next (raise fltCmdError u)) ∧
      (∀ u, u = takeRing c s →
        cmdN c u = rdC fltCmdqCfg_log2Entries c s ∧ cmdBase c u = rdC fltCmdqBaseLo_addr c s + rdC fltCmdqBaseHi_addr c s * 2 ^ 32)) ∧
    (∀ w v es c t, Admits w .flt s → c = winIdx w →
      t = wrC fltCmdqProd_index c (wordField v 0 13 % 2 ^ (cmdN c s + 1)) (storeEntries c (rdC fltCmdqProd_index c s % 2 ^ (cmdN c s + 1)) es s) →
      (blockOn .flt t = false → exec (.cmdqProdWrite w v es) s = .next (failRing c t)) ∧
      (blockOn .flt t = true → exec (.cmdqProdWrite w v es) s = .next (if ringRuns c t then takeEntries c 8192 t else t))) ∧
    (∀ c q i w k e err f u, c < 32 → runningOp c q s = some i → i.op = .command w k → e = entryAt w k s → cmdFind e i err s = (f, u) →
      (f.status = 0 →
        (enOp e = 1 → exec (.cmdLookup c q err) s = .next (completeEntry w k (foundAnswer 0 f u) (opDone c q u))) ∧
        (enOp e = 2 → exec (.cmdReadIndex c q err) s = .next (completeEntry w k (foundAnswer 0 f u) (opDone c q u))) ∧
        (enOp e = 3 → exec (.cmdCreate c q err) s = .next (completeEntry w k (foundAnswer 2 f u) (opDone c q u))) ∧
        (enOp e = 4 → exec (.cmdDeleteKey c q err) s = .next
          (completeEntry w k (foundAnswer 0 f u) (opDone c q (retire i.tag f.pos f.recIndex 3 (enNoExport e) u)))) ∧
        (enOp e = 5 → exec (.cmdDeleteIndex c q err) s = .next
          (completeEntry w k (foundAnswer 0 f u) (opDone c q (retire i.tag f.pos f.recIndex 3 (enNoExport e) u)))) ∧
        (∀ t, enOp e = 6 → t = storeRecord f.recIndex (patchBytes (recordAt f.recIndex u) 0x40 (enState e)) u →
          exec (.cmdWriteState c q err) s = .next (completeEntry w k (foundAnswer 0 f t) (opDone c q t))) ∧
        (∀ t, enOp e = 7 → t = setPinned i.tag f.recIndex true u →
          exec (.cmdPin c q err) s = .next (completeEntry w k (foundAnswer 0 f t) (opDone c q t))) ∧
        (∀ t, enOp e = 8 → t = setPinned i.tag f.recIndex false u →
          exec (.cmdUnpin c q err) s = .next (completeEntry w k (foundAnswer 0 f t) (opDone c q t)))) ∧
      (f.status = 1 →
        (enOp e = 1 → exec (.cmdLookup c q err) s = .next (completeEntry w k { result := 1 } (opDone c q u))) ∧
        (enOp e = 3 → exec (.cmdCreate c q err) s = .next (completeEntry w k (cmdCreate e i u).1 (opDone c q (cmdCreate e i u).2)))) ∧
      (f.status = 2 → enOp e = 1 → exec (.cmdLookup c q err) s = .next (completeEntry w k { result := 5 } (opDone c q u))) ∧
      (enOp e ≠ 1 → exec (.cmdLookup c q err) s = .next s)) ∧
    (∀ e i err t, byIndex (enOp e) = true → t = opErrors i.tag err s →
      (findPlace i.tag (enIndex e) t = none → cmdFind e i err s = ({}, t)) ∧
      (∀ p r, findPlace i.tag (enIndex e) t = some p → recordLost (enIndex e) err t = false →
        r = recordAt (enIndex e) (dropClean (enIndex e) err t) →
        (enGen e = 0 ∨ enGen e = rcGen r →
          cmdFind e i err s = ({ status := 0, recIndex := enIndex e, pos := p, data := r }, dropClean (enIndex e) err t)) ∧
        (enGen e ≠ 0 → enGen e ≠ rcGen r → cmdFind e i err s = ({}, dropClean (enIndex e) err t)))) ∧
    (∀ e i err, byIndex (enOp e) = false → cmdFind e i err s = flowFind i.tag i.digest i.key err s) ∧
    (∀ b i p pin, findPlace b i s = some p →
      setPinned b i pin s = putPlace b p (withBits (placeAt b p s) 38 3 (if pin then 4 else 1)) s) ∧
    (∀ i r, (∀ l, cachedLine i s = some l → storeRecord i r s = modLine i (fun l => { l with data := r, dirty := true }) s) ∧
      (cachedLine i s = none → storeRecord i r s = hbmWrite (recAddr i) r s)) ∧
    (∀ addr bytes, ringOut 0 addr bytes = .hostWrite addr bytes ∧ ∀ c, 0 < c → ringOut c addr bytes = .mgmtWrite addr bytes) ∧
    (∀ c k a t, t = emit (ringOut c (cmdBase c s + 256 * (k % 2 ^ cmdN c s) + 0x7A) [1])
        (emit (ringOut c (cmdBase c s + 256 * (k % 2 ^ cmdN c s) + 0x78) (bytesLE 1 a.result ++ bytesLE 1 (min a.pos 4) ++ [0, 0] ++ bytesLE 4 a.index))
          (emit (ringOut c (cmdBase c s + 256 * (k % 2 ^ cmdN c s) + 0x80) (slice a.data 0 128)) s)) →
      ((c = 0 → s.pwr.perstLow = true → completeEntry c k a s = s) ∧ (s.flow.abandoned.contains (c, k) = true → completeEntry c k a s = s)) ∧
      ((c = 0 → s.pwr.perstLow = false) → s.flow.abandoned.contains (c, k) = false →
        completeEntry c k a s = advanceCons c 8192 { t with flow := { t.flow with done := t.flow.done ++ [(c, k)] } }))

/-- R517, R518, R520 to R525, R527. -/
def Obligations.ScrubbersAndRecoveryAct : Prop :=
  ∀ s : State,
    (∀ x addr t, active s = true → scrubWordOk x addr = true → (x = .hbm → addr < hbmInUse s) →
      exec (.scrubRead x addr .clean false) s = .next s ∧
      (t = raise scrEccCorrected (satX scrEccCorr_count 0 (scrubStore x) 1 s) →
        (x ≠ .hbm → (∀ i, x ≠ .cacheLine i) → (∀ p i w, x ≠ .buffer p i w) → exec (.scrubRead x addr .corrected false) s = .next t) ∧
        (∀ i, x = .cacheLine i → exec (.scrubRead x addr .corrected false) s = .next (raise fchEccCorrected (count fchCtrs 5 0 1 t))) ∧
        (∀ p i w, x = .buffer p i w → exec (.scrubRead x addr .corrected false) s = .next (bufferCorr p i w t))) ∧
      (t = raise scrEccUncorrectable (logError (scrubStore x) addr (inAllocated x s) (satX scrEccUncorr_count 0 (scrubStore x) 1 s)) →
        (x = .hbm → exec (.scrubRead x addr .uncorrectable false) s = .next (hbmAction addr t)) ∧
        (∀ p i w, x = .buffer p i w → exec (.scrubRead x addr .uncorrectable false) s = .next (bufferAction p i t)) ∧
        (∀ i, x = .cacheLine i → exec (.scrubRead x addr .uncorrectable false) s = .next (lineAction i t)) ∧
        (∀ e, x = .overflow e → exec (.scrubRead x addr .uncorrectable false) s = .next
          (offerOp { op := .lostEntry e, tag := slBucket (ovfAt e t) } t)) ∧
        (∀ i, x = .lpm i → exec (.scrubRead x addr .uncorrectable false) s = .next (raise scrTableEntryLost (lpmStat 3 (putPool i 0 t)))) ∧
        (∀ i, x = .nextHop i → exec (.scrubRead x addr .uncorrectable false) s = .next (raise scrTableEntryLost (putNh i 0 t))) ∧
        (∀ i, x = .ecmp i → exec (.scrubRead x addr .uncorrectable false) s = .next (raise scrTableEntryLost (putGroup i 0 t))) ∧
        (∀ i, x = .member i → exec (.scrubRead x addr .uncorrectable false) s = .next (raise scrTableEntryLost (putMember i 0 t))) ∧
        (∀ i, x = .l2 i → exec (.scrubRead x addr .uncorrectable false) s = .next (raise scrTableEntryLost (enqueueL2 (.lost i)
          (putL2 i { l2At i t with bad := (l2At i t).valid } t)))) ∧
        (∀ h i, x = .rule h i → exec (.scrubRead x addr .uncorrectable false) s = .next (raise scrClsRulePoisoned
          (putHalf h { half h t with poisoned := insertRising i (half h t).poisoned } t))) ∧
        (∀ g, x = .control g → (tgt g t).st = .on → exec (.scrubRead x addr .uncorrectable false) s = .next (faultEffects g (enterFault g 3 t))) ∧
        (x = .hallmark → rd hmkStatus_state t = 1 → exec (.scrubRead x addr .uncorrectable false) s = .next
          (raise scrHallmarkRestarted (writeRec 0xB 3 (blockCode .hmk) 1024 (bytesLE 8 addr) (wr hmkStatus_state 2 t)))))) ∧
    (∀ a r t, r = a - reservedBase s → t = hbmUncorrectable a s →
      (a < bucketBase s → hbmAction a s = recordAction (a / 128) t) ∧
      (bucketBase s ≤ a → a < reservedBase s → hbmAction a s = offerOp { op := .lostBucket, tag := (a - bucketBase s) / 64 } s) ∧
      (bucketBase s ≤ a → reservedBase s ≤ a →
        (r < 0x04000000 → hbmAction a s = copyLost (r / 0x02000000) t) ∧
        (0x04000000 ≤ r → r < 0x08000000 → hbmAction a s = (if benchPresent t then emergency 2 t else t)) ∧
        (0x08000000 ≤ r → r < 0x0A000000 →
          hbmAction a s = goldenDigestCheck ((r - 0x08000000) / 0x100000) ((r - 0x08000000) / 0x80000 % 2) false t) ∧
        (0x0A000000 ≤ r → r < 0x12000000 → hbmAction a s = t))) ∧
    (∀ i x, lineLocked i s = false → placeOf i s = some x → recordAction i s = offerOp { op := .lostRecord x.2 i, tag := x.1 } s) ∧
    (∀ i l t, lineOf i s = some l → t = raise fchEccUncorrectable (count fchCtrs 6 0 1 s) →
      (l.dirty = true → lineAction i s = offerOp { op := .lostRecord l.pos i, tag := l.bucket } t) ∧
      (l.dirty = false → l.locked = false → lineAction i s = dropLine i t) ∧
      (l.dirty = false → l.locked = true → lineAction i s = modLine i (fun l => { l with data := hbmRead (recAddr i) 128 t }) t)) ∧
    (∀ k code, (tgt ⟨.hbm, some k⟩ s).st ≠ .fault → hbmStackFault k code s = stopBench (enterFault ⟨.hbm, some k⟩ code
      (writeRec 7 4 (blockCode .hbm) (k % 1024) (bytesLE 1 k ++ bytesLE 1 code) s))) ∧
    (∀ store a al, (rd scrErrLogHi_valid s = 1 → logError store a al s = s) ∧
      (rd scrErrLogHi_valid s = 0 → logError store a al s = wr scrErrLogLo_addr (a % 2 ^ 32) (wr scrErrLogHi_addrHi (a / 2 ^ 32)
        (wr scrErrLogHi_store store (wr scrErrLogHi_allocated (b2n al) (wr scrErrLogHi_valid 1 s)))))) ∧
    (∀ x addr o last, active s = false → scrubWordOk x addr = true → x ≠ .hbm → exec (.scrubRead x addr o last) s = .next s) ∧
    (∀ addr o last, hbmInUse s ≤ addr → exec (.scrubRead .hbm addr o last) s = .fault .hbmAbsent) ∧
    (∀ k n, k < 4 → n = sget zeroDefault s.recov.recal k + 1 → chanOn .hbm k s = true →
      exec (.hbmRecal k true) s = .next { s with recov := { s.recov with recal := sset zeroDefault s.recov.recal k 0 } } ∧
      (n < 3 → exec (.hbmRecal k false) s = .next { s with recov := { s.recov with recal := sset zeroDefault s.recov.recal k n } }) ∧
      (3 ≤ n → exec (.hbmRecal k false) s = .next
        (hbmStackFault k 0x11 { s with recov := { s.recov with recal := sset zeroDefault s.recov.recal k n } }))) ∧
    (∀ k ok, k < 4 → chanOn .hbm k s = false → exec (.hbmRecal k ok) s = .next s) ∧
    (∀ t, targetOk t = true → recoverable t = true →
      ((tgt t s).st ≠ .fault ∨ (tgt t s).faultCode ≠ 3 ∨ recoverEnabled t.block s = false ∨ resetBusy t s = true ∨
        s.recov.given.contains (tgtKey t) = true → exec (.autoRecover t) s = .next s) ∧
      ((tgt t s).st = .fault → (tgt t s).faultCode = 3 → recoverEnabled t.block s = true → resetBusy t s = false →
        s.recov.given.contains (tgtKey t) = false →
        (3 ≤ (recentRecoveries t s).length → exec (.autoRecover t) s = .next (raise scrAutoRecoverFailed (sat1 scrRecoverCount_failed
          { s with recov := { s.recov with given := s.recov.given ++ [tgtKey t] } }))) ∧
        ((recentRecoveries t s).length < 3 → exec (.autoRecover t) s = .next (recoverTarget t s)))) ∧
    (∀ t u v, t.block ≠ .fen → u = recoverLoss t s →
      v = { u with recov := { u.recov with recovered := sset (fun _ => []) u.recov.recovered (tgtKey t) (u.tim.raw :: recentRecoveries t u) } } →
      recoverTarget t s = offRows t (raise scrAutoRecovered (sat1 scrRecoverCount_recovered
        (noteReset t true 0 true (modTgt t (fun x => { x with st := .off, faultCode := 0 }) v))))) ∧
    (∀ t, targetOk t = true → recoverable t = false → exec (.autoRecover t) s = .next s)

/-- R526, R527, R553 to R555, R558, R561. -/
def Obligations.BenchIsWatchedRestartedAndHandedOver : Prop :=
  ∀ s : State,
    (∀ v, Admits .b .bnc s → (wordField v 0 16 = 0x4B43 → exec (.wdogKick .b v) s = .next { s with fw := { s.fw with warned := false } }) ∧
      (wordField v 0 16 ≠ 0x4B43 → exec (.wdogKick .b v) s = .next (accessError .b bncWdogKick_key.off true s))) ∧
    (∀ v, Admits .h .bnc s → exec (.wdogKick .h v) s = .next (accessError .h bncWdogKick_key.off true s)) ∧
    (rd bncStatus_state s = 2 → s.fw.phase = 0 ∨ s.fw.phase = 4 →
      (s.fw.warned = false → exec .wdogWarning s = .next (raise bncWdogWarning { s with fw := { s.fw with warned := true } })) ∧
      (s.fw.warned = true → exec .wdogExpire s = .next (emergency 3 s)) ∧ (s.fw.warned = false → exec .wdogExpire s = .next s)) ∧
    (∀ cause, 1 ≤ cause → cause ≤ 3 →
      (rd bncStatus_state s = 2 ∨ rd bncStatus_state s = 3 → exec (.benchEmergencyRestart cause) s = .next (emergency cause s)) ∧
      (rd bncStatus_state s = 0 → exec (.benchEmergencyRestart cause) s = .next s) ∧
      (s.fw.phase = 0 → s.fw.lastEmergency = none → emergency cause s = wr bncStatus_state 3
        { s with fw := { s.fw with
          phase := (if copyGood s then 4 else 3), emergency := some cause, lastEmergency := some s.tim.raw, windowRaw := s.tim.raw } }) ∧
      (∀ r, s.fw.phase = 0 → s.fw.lastEmergency = some r → s.tim.raw - r < rawTenSeconds →
        emergency cause s = firmwareWarm cause { s with fw := { s.fw with lastEmergency := some s.tim.raw } })) ∧
    (rd bncStatus_state s = 2 → exec .mgmtProtectionFault s = .next (emergency 1 (raise bncBenchStopped (wr bncStatus_state 4 s)))) ∧
    (copyGood s = true ↔ sha384 (sget (fun _ => []) s.fw.copies s.fw.image.area) = s.fw.image.digest ∧
      s.fw.badCopies.contains s.fw.image.area = false) ∧
    (∀ addr, (rd hmkStatus_state s = 1 → exec (.hallmarkRestart addr .error) s = .next
        (raise scrHallmarkRestarted (writeRec 0xB 3 (blockCode .hmk) 1024 (bytesLE 8 addr) (wr hmkStatus_state 2 s)))) ∧
      (rd hmkStatus_state s = 2 → exec (.hallmarkRestart addr (.done [])) s = .next (wr hmkStatus_state 1 s) ∧
        ∀ bad, exec (.hallmarkRestart addr (.done bad)) s =
          .next (foldOver bad (fun x a => goldenDigestCheck x.1 x.2 false a) (wr hmkStatus_state 1 s))) ∧
      (rd hmkStatus_state s ≠ 1 → exec (.hallmarkRestart addr .error) s = .next s)) ∧
    (s.fw.phase = 4 → s.fw.emergency.isSome = true →
      exec .newBenchReady s = .next (wr bncStatus_activePair (1 - rd bncStatus_activePair s) { s with fw := { s.fw with phase := 8 } })) ∧
    (s.fw.phase = 4 → s.fw.emergency = none →
      exec .newBenchReady s = .next (wr bncStatus_state 3 { s with fw := { s.fw with phase := 6, windowRaw := s.tim.raw } }) ∧
      exec .handoverTimeout s = .next (endService 5 0 0 (raise bncHandoverFailed (noteHandover 2 s)))) ∧
    (∀ t, s.fw.phase = 6 → t = wr bncStatus_activePair (1 - rd bncStatus_activePair s) s →
      exec .oldBenchQuiesced s = .next { t with fw := { s.fw with phase := 8, vaultFormat := s.fw.image.vaultWrite, vaultValid := true } } ∧
      (s.fw.emergency = none → exec .handoverTimeout s = .next { t with fw := { s.fw with phase := 8, forced := true } })) ∧
    (∀ cause t, s.fw.phase = 8 → s.fw.emergency = some cause → t = incX bncHandover_count 0 0 s →
      exec .newBenchRunning s = .next (raise scrBenchRestarted (writeRec 0xA 3 (blockCode .bnc) 1024 (bytesLE 1 cause ++ [0]) (benchRuns
        (wr bncStatus_unclean 1 { t with fw := { t.fw with phase := 0, emergency := none } }))))) ∧
    (∀ cause, s.fw.phase ≠ 0 → s.fw.emergency = some cause → exec .handoverTimeout s = .next
      (writeRec 0xA 3 (blockCode .bnc) 1024 (bytesLE 1 cause ++ [1]) (warmRequest (if cause = 3 then 5 else 6)
        { s with fw := { s.fw with phase := 0, emergency := none } }))) ∧
    (∀ t, s.fw.phase = 8 → s.fw.emergency = none → s.fw.forced = false → t = incX bncHandover_count 0 0 s →
      exec .newBenchRunning s = .next (endService 0 0 0 (raise bncHandoverDone (benchRuns (noteHandover 0
        (wr bncHandover_lastMs (windowMs s) (wr hmkStatus_hostImage 1 (showImage t.fw.next t)))))))) ∧
    (∀ t, s.fw.phase = 8 → s.fw.emergency = none → t = raise bncHandoverFailed (noteHandover 4 s) →
      exec .handoverTimeout s = .next (endService 5 0 0 (wr bncStatus_activePair (1 - rd bncStatus_activePair t)
        { t with fw := { t.fw with phase := 9 } }))) ∧
    (∀ t, s.fw.phase = 9 → s.fw.emergency = none → t = incX bncHandover_count 0 0 s →
      exec .newBenchRunning s = .next (benchRuns { t with fw := { t.fw with phase := 0 } })) ∧
    (∀ result, noteHandover result s =
      wr bncHandover_result result { s with fw := { s.fw with phase := 0, emergency := none, forced := false, next := {} } }) ∧
    (∀ status detail len, (s.fw.lostEntry = false → endService status detail len s = completeMbox 1 status detail len s) ∧
      (s.fw.lostEntry = true → endService status detail len s = { s with fw := { s.fw with lostEntry := false } })) ∧
    (s.fw.phase = 0 → exec .newBenchReady s = .next s ∧ exec .oldBenchQuiesced s = .next s ∧ exec .newBenchRunning s = .next s ∧
      exec .handoverTimeout s = .next s)

/-- R249, R538, R539, R546, R548 to R551, R554. -/
def Obligations.MailboxServicesAnswer : Prop :=
  ∀ s : State,
    (∀ w m v es, w ≠ .b → m < 2 → Admits w .hif s →
      (rdX hifMboxCfg_enable m 0 s = 0 → exec (.mboxProdWrite w m v es) s = .next s) ∧
      (∀ size p n, size = 2 ^ (mboxN m s + 1) → p = rdX hifMboxProd_index m 0 s → n = (wordField v 0 11 % size + size - p % size) % size →
        rdX hifMboxCfg_enable m 0 s = 1 → es.length = n →
        (m = 0 → exec (.mboxProdWrite w m v es) s = .next (wrX hifMboxProd_index m 0 (wordField v 0 11 % size) (storeBoxes m p es s))) ∧
        (∀ t, m = 1 → t = wrX hifMboxProd_index m 0 (wordField v 0 11 % size) (storeBoxes m p es s) →
          (inService 1 t = false ∨ rd hmkStatus_state t ≠ 1 → exec (.mboxProdWrite w m v es) s = .next t) ∧
          (inService 1 t = true → rd hmkStatus_state t = 1 → s.fw.lostEntry = false →
            (∀ i, i < n → exclusive (mbService (sget (fun _ => []) t.fw.boxes (2048 + (p + i) % size))) = false) →
            exec (.mboxProdWrite w m v es) s = .next t) ∧
          (∀ k, inService 1 t = true → rd hmkStatus_state t = 1 → s.fw.lostEntry = false → n = 1 → k = p % size →
            exclusive (mbService (sget (fun _ => []) t.fw.boxes (2048 + k))) = true →
            exec (.mboxProdWrite w m v es) s = .next { respondMbox 1 k 3 0 0 t with
              fw := { (respondMbox 1 k 3 0 0 t).fw with ended := k :: (respondMbox 1 k 3 0 0 t).fw.ended } }))) ∧
      (∀ t, t = wrX hifMboxCfg_enable m 0 1 (wrX hifMboxCfg_log2Entries m 0 (wordField v 0 4) s) → rdX hifMboxCfg_enable m 0 s = 0 →
        wordField v 0 4 < 4 ∨ 10 < wordField v 0 4 ∨ rdX hifMboxBaseLo_addr m 0 s % 64 ≠ 0 →
        exec (.mboxEnable w m v) s = .next (raise hifMboxError (wrX hifMboxStatus_error m 0 1
          { t with fw := { t.fw with stopped := m :: t.fw.stopped.filter (· != m) } }))) ∧
      (∀ t, t = wrX hifMboxCfg_enable m 0 1 (wrX hifMboxCfg_log2Entries m 0 (wordField v 0 4) s) → rdX hifMboxCfg_enable m 0 s = 0 →
        (4 ≤ wordField v 0 4 ∧ wordField v 0 4 ≤ 10) → rdX hifMboxBaseLo_addr m 0 s % 64 = 0 →
        exec (.mboxEnable w m v) s = .next { t with fw := { t.fw with stopped := t.fw.stopped.filter (· != m) } }) ∧
      (rdX hifMboxCfg_enable m 0 s = 1 → exec (.mboxEnable w m v) s = .next (wrX hifMboxCfg_enable m 0 1 s))) ∧
    (∀ m k status detail len t, t = emit (.hostWrite (mboxBase m s + 64 * (k % 2 ^ mboxN m s) + 0x3F) [1])
        (emit (.hostWrite (mboxBase m s + 64 * (k % 2 ^ mboxN m s) + 0x30)
          (bytesLE 2 status ++ bytesLE 2 detail ++ bytesLE 4 len ++ List.replicate 7 0)) s) →
      respondMbox m k status detail len s = { t with fw := { t.fw with boxes := sdel t.fw.boxes (2048 * m + k) } }) ∧
    (∀ service, exclusive service = true ↔ 0x0104 ≤ service ∧ service ≤ 0x0108) ∧
    (∀ e, headEntry 0 s = some e →
      (∀ bs, mbService e = 0x0001 → bs = slice (Config.statusReport ([s.fw.image.version, s.fw.image.vaultWrite,
          (s.tim.raw - s.fw.benchRaw) / 781250] ++ (List.range 64).map (fun q => (benchQueue q s).frames.length))) 0 64 →
        (mbLen e < 64 → bs.length = 64 → exec .svcStatus s = .next (completeMbox 0 2 0 0 s)) ∧
        (64 ≤ mbLen e → bs.length = 64 → exec .svcStatus s = .next (completeMbox 0 0 0 64 (emit (.hostWrite (mbBuf e) bs) s)))) ∧
      (∀ buf, mbService e = 0x0010 → 4095 < mbParam0 e → exec (.svcRouteUpdate buf) s = .next (completeMbox 0 2 0 0 s)) ∧
      (∀ buf bs n i, mbService e = 0x0010 → mbParam0 e ≤ 4095 → bs = slice buf 0 (mbLen e) → n = bs.length / 24 →
        firstIndex n (fun i => !updateOk (mbParam0 e) s ((chunks 24 n bs).getD i [])) = some i →
        exec (.svcRouteUpdate buf) s = .next (completeMbox 0 2 i 0 s)) ∧
      (∀ buf bs t u, mbService e = 0x0010 → mbParam0 e ≤ 4095 → bs = slice buf 0 (mbLen e) → bs.length % 24 = 0 →
        firstIndex (bs.length / 24) (fun i => !updateOk (mbParam0 e) s ((chunks 24 (bs.length / 24) bs).getD i [])) = none →
        t = { s with lpm := { s.lpm with routes := foldOver (chunks 24 (bs.length / 24) bs) (updateRoutes (mbParam0 e)) s.lpm.routes } } →
        (buildRoutes (mbParam0 e) 0 t).bind (buildRoutes (mbParam0 e) 1) = some u →
        exec (.svcRouteUpdate buf) s = .next (completeMbox 0 0 0 0 u)) ∧
      (∀ buf, mbService e = 0x0020 → flashRegion (mbParam0 e) s = none → exec (.svcFlashWrite buf) s = .next (completeMbox 0 2 0 0 s)) ∧
      (∀ buf bs o l, mbService e = 0x0020 → bs = slice buf 0 (mbLen e) → flashRegion (mbParam0 e) s = some (mbParam0 e, o, l) →
        mbParam0 e = 3 ∨ mbParam0 e = 4 → mbParam1 e + bs.length ≤ l → imageSound s.variant bs = true → mayProgram s = true →
        exec (.svcFlashWrite buf) s = .next (completeMbox 0 0 0 0 (emit (.bus "QSPI" ((o + mbParam1 e) :: bs.map (fun b => b.toNat))) s))) ∧
      (∀ p, mbService e = 0x0021 → p = mbParam0 e →
        (1 < p → exec .svcSetPreferred s = .next (completeMbox 0 2 0 0 s)) ∧ (p ≤ 1 → s.fw.dir = [] ∨ mayProgram s = false → exec .svcSetPreferred s = .next (completeMbox 0 5 0 0 s)) ∧
        (p ≤ 1 → s.fw.dir ≠ [] → mayProgram s = true → exec .svcSetPreferred s = .next (completeMbox 0 0 0 0 (writeDir 0 (withPreferred p s.fw.dirBytes)
          (writeDir 0x10000 (withPreferred p s.fw.dirBytes) { s with fw := { s.fw with
            preferred := p, dirBytes := withPreferred p s.fw.dirBytes } }))))) ∧
      (∀ off d, writeDir off d s = emit (.bus "QSPI" (off :: d.map (fun b => b.toNat))) s) ∧
      (∀ p d, withPreferred p d = slice (patchBytes d 6 (bytesLE 1 p)) 0 0xFC ++ bytesLE 4 (crc32c (slice (patchBytes d 6 (bytesLE 1 p)) 0 0xFC))) ∧
      ((servicesOf 0).contains (mbService e) = false → exec (.svcUnknown 0) s = .next (completeMbox 0 1 0 0 s))) ∧
    (headEntry 0 s = none → exec .svcStatus s = .next s ∧ exec .svcSetPreferred s = .next s ∧ exec (.svcUnknown 0) s = .next s) ∧
    (∀ e, headEntry 1 s = some e →
      (∀ bs, mbService e = 0x0101 → bs = slice (Config.identityReport (identityFields s) (identitySignature e s)) 0 256 → bs.length = 256 →
        (mbLen e < 256 → exec .svcIdentity s = .next (completeMbox 1 2 0 0 (takeFree s).2)) ∧
        (256 ≤ mbLen e → exec .svcIdentity s = .next (completeMbox 1 0 0 256 (emit (.hostWrite (mbBuf e) bs) (takeFree s).2)))) ∧
      (∀ buf r, mbService e = 0x0102 → r = envelopeReason false [1, 2, 3, 4, 5] kindContent (slice buf 0 (mbLen e)) s →
        exec (.svcVerify buf) s = .next (if r = 0 then completeMbox 1 0 0 0 s else completeMbox 1 4 r 0 s)) ∧
      (∀ buf img r a, mbService e = 0x0103 → img = slice buf 0 (mbLen e) → r = envelopeReason false [1] anyContent img s →
        a = (if rd bncStatus_state s = 0 then 0 else 1 - s.fw.image.area) →
        (takesDelivery s = false → exec (.svcDeliverBench buf) s = .next (completeMbox 1 5 0 0 s)) ∧
        (takesDelivery s = true → r ≠ 0 → exec (.svcDeliverBench buf) s = .next (completeMbox 1 4 r 0 (refuseImage s))) ∧
        (takesDelivery s = true → r = 0 → exec (.svcDeliverBench buf) s = .next (completeMbox 1 0 0 0 (wr hmkStatus_hostImage 1
          (wr cfgStartState_step 5 (wr cfgStartState_state 0 (showImage (benchImageOf a img) (loadCopy a img s)))))))) ∧
      (∀ buf img r, mbService e = 0x0104 → img = slice buf 0 (mbLen e) →
        r = envelopeReason false [1] (fun e => decide (leAt e 0x1C 1 ≤ s.fw.image.vaultWrite ∧ s.fw.image.vaultWrite ≤ leAt e 0x1D 1)) img s →
        (hallmarkBusy s = true → exec (.svcHandover buf) s = .next (completeMbox 1 3 0 0 s)) ∧
        (hallmarkBusy s = false → benchRunning s = false → exec (.svcHandover buf) s = .next (completeMbox 1 5 0 0 s)) ∧
        (hallmarkBusy s = false → benchRunning s = true → r ≠ 0 →
          exec (.svcHandover buf) s = .next (completeMbox 1 4 r 0 (noteHandover 1 (refuseImage s)))) ∧
        (hallmarkBusy s = false → benchRunning s = true → r = 0 →
          exec (.svcHandover buf) s = .next { s with fw := { (loadCopy (1 - s.fw.image.area) img s).fw with
            phase := 4, next := benchImageOf (1 - s.fw.image.area) img } })) ∧
      (∀ a img, loadCopy a img s = { s with fw := { s.fw with
        copies := sset (fun _ => []) s.fw.copies a (evPayload img), badCopies := s.fw.badCopies.filter (· != a) } }) ∧
      (∀ buf, mbService e = 0x0105 → hallmarkBusy s = true → exec (.svcPatch buf) s = .next (completeMbox 1 3 0 0 s)) ∧
      (∀ buf, mbService e = 0x0105 → hallmarkBusy s = false → (slice buf 0 (mbLen e)).length < 0x180 →
        exec (.svcPatch buf) s = .next (completeMbox 1 4 1 0 (refuseImage s))) ∧
      (∀ buf ev p cs r, mbService e = 0x0105 → hallmarkBusy s = false → ev = slice buf 0 (mbLen e) → p = evPayload ev → cs = maskClusters (mbParam0 e) →
        r = envelopeReason false [3] (fun _ => patchSound p && cs.all (fun c => decide (liveSequence c s = leAt p 0 4) && bankImageOk (patchedImage c p s))) ev s →
        (r ≠ 0 → exec (.svcPatch buf) s = .next (completeMbox 1 4 r 0 (refuseImage s))) ∧
        (∀ c ∈ cs, r = 0 → 3 ≤ bankState c (1 - liveBank c s) s → exec (.svcPatch buf) s = .next (completeMbox 1 3 0 0 s)) ∧
        (∀ c rest, r = 0 → cs = c :: rest → (∀ x ∈ cs, bankState x (1 - liveBank x s) s < 3) →
          exec (.svcPatch buf) s = .next (beginBankLoad c (1 - liveBank c s) (patchedImage c p s) { s with fw := { s.fw with
            patch := some { left := rest.map (fun x => (x, patchedImage x p s)), clusters := cs, commit := bit (mbParam1 e) 0 } } })) ∧
        (r = 0 → cs = [] → bit (mbParam1 e) 0 = false → exec (.svcPatch buf) s = .next (endService 0 0 0 s))) ∧
      ((servicesOf 1).contains (mbService e) = false → exec (.svcUnknown 1) s = .next (completeMbox 1 1 0 0 s)))

/-- R117, R541 to R543, R550, R551. -/
def Obligations.FusesAreBlownByService : Prop :=
  ∀ s : State,
    (∀ e, headEntry 1 s = some e →
    (∀ buf ok, hallmarkBusy s = true →
      (mbService e = 0x0106 → exec (.svcEnrol buf ok) s = .next (completeMbox 1 3 0 0 s)) ∧
      (mbService e = 0x0107 → exec (.svcRevoke buf) s = .next (completeMbox 1 3 0 0 s)) ∧
      (mbService e = 0x0108 → exec .svcRollback s = .next (completeMbox 1 3 0 0 s))) ∧
    (∀ buf ok, hallmarkBusy s = false → s.pwr.railLow ≠ 0 →
      (mbService e = 0x0106 → exec (.svcEnrol buf ok) s = .next (completeMbox 1 5 0 0 s)) ∧
      (mbService e = 0x0107 → exec (.svcRevoke buf) s = .next (completeMbox 1 5 0 0 s)) ∧
      (mbService e = 0x0108 → exec .svcRollback s = .next (completeMbox 1 5 0 0 s))) ∧
    (∀ buf ev r t, hallmarkBusy s = false → mayProgram s = true → ev = slice buf 0 (mbLen e) → t = satX hmkCounts_fuseOps 0 0 1 s →
      (∀ ok, mbService e = 0x0106 → ownerState s ≠ 0 → exec (.svcEnrol buf ok) s = .next (completeMbox 1 5 0 0 s)) ∧
      (∀ ok, mbService e = 0x0106 → ownerState s = 0 → r = envelopeReason false [4] kindContent ev s →
        (r ≠ 0 → exec (.svcEnrol buf ok) s = .next (completeMbox 1 4 r 0 (refuseImage s))) ∧
        (r = 0 → exec (.svcEnrol buf ok) s = .next { t with fw := { t.fw with
          ownerHash := sha384 (evPayload ev), fusing := some (.enrol ok) } })) ∧
      (mbService e = 0x0107 → r = envelopeReason false [5] anyContent ev s →
        (r ≠ 0 → exec (.svcRevoke buf) s = .next (completeMbox 1 4 r 0 (refuseImage s))) ∧
        (r = 0 → exec (.svcRevoke buf) s = .next (completeMbox 1 0 0 0 (raise hmkKeyRevoked
          (writeRec 9 1 (blockCode .hmk) 1024 (hashHead s.fw.ownerHash)
            (satX hmkCounts_fuseOps 0 0 1 { s with fw := { s.fw with ownerRevoked := true } }))))))) ∧
    (∀ p, hallmarkBusy s = false → mayProgram s = true → mbService e = 0x0108 → p = mbParam0 e →
      (s.fw.image.rollback < p ∨ 64 < p → exec .svcRollback s = .next (completeMbox 1 2 0 0 s)) ∧
      (p ≤ s.fw.image.rollback → p ≤ 64 → p ≤ s.fw.rollback → exec .svcRollback s = .next (completeMbox 1 0 0 0 s)) ∧
      (p ≤ s.fw.image.rollback → p ≤ 64 → s.fw.rollback < p →
        exec .svcRollback s = .next { s with fw := { s.fw with fusing := some (.rollback s.fw.rollback p) } })) ∧
    (mbService e = 0x0109 →
      (∀ b, allBlocks.find? (fun b => blockCode b == mbParam0 e) = some b → (ownerOf b s).owner ≠ 0 →
        exec .svcClearLock s = .next (completeMbox 1 0 0 0 (putOwner b {} s))) ∧
      (∀ b, allBlocks.find? (fun b => blockCode b == mbParam0 e) = some b → (ownerOf b s).owner = 0 →
        exec .svcClearLock s = .next (completeMbox 1 0 0 0 s)) ∧
      (allBlocks.find? (fun b => blockCode b == mbParam0 e) = none → exec .svcClearLock s = .next (completeMbox 1 2 0 0 s)))) ∧
    (∀ t, s.pwr.railLow = 0 → t = { s with tmk := { s.tmk with opTime := (s.tmk.opTime + 1) % 2 ^ 48 } } →
      (s.fw.fusing = none → exec .opTimeTick s = .next t) ∧
      (s.fw.fusing = some (.enrol true) → exec .opTimeTick s = .next (endService 0 0 0 (raise hmkKeyEnrolled
        (writeRec 8 1 (blockCode .hmk) 1024 (hashHead s.fw.ownerHash) { t with fw := { t.fw with fusing := none, ownerValid := true } })))) ∧
      (s.fw.fusing = some (.enrol false) → exec .opTimeTick s = .next (endService 6 0 0 (raise hmkFuseError
        { t with fw := { t.fw with fusing := none, ownerHash := max 1 (Config.misfused s.fw.ownerHash) } }))) ∧
      (∀ before p u, s.fw.fusing = some (.rollback before p) →
        u = satX hmkCounts_fuseOps 0 0 1 { t with fw := { t.fw with rollback := t.fw.rollback + 1 } } →
        (s.fw.rollback + 1 < p → exec .opTimeTick s = .next u) ∧
        (p ≤ s.fw.rollback + 1 → exec .opTimeTick s = .next (endService 0 0 0 (raise hmkRollbackAdvanced
          (writeRec 0xC 1 (blockCode .hmk) 1024 (bytesLE 1 before ++ bytesLE 1 p) { u with fw := { u.fw with fusing := none } })))))) ∧
    (s.pwr.railLow ≠ 0 → exec .opTimeTick s = .next s) ∧
    (s.fw.ownerRevoked = true → ownerState s = 2) ∧
    (s.fw.ownerRevoked = false → s.fw.ownerValid = true → ownerState s = 1) ∧
    (s.fw.ownerRevoked = false → s.fw.ownerValid = false →
      (s.fw.ownerHash ≠ 0 → enrolling s.fw = false → ownerState s = 3) ∧ (s.fw.ownerHash = 0 ∨ enrolling s.fw = true → ownerState s = 0))

/-- R451, R453, R455, R463 to R467. -/
def Obligations.TimeIsReadSteppedAndSteered : Prop :=
  ∀ s : State,
    (∀ w c t, reachable w s = true → c = winIdx w → t = timeNow s →
      exec (.timeSnapshotRead w) s = .next (putRead w (BitVec.ofNat 32 (secOf t)) (wrC timTimeSecLo_value c (secOf t)
        (wrC timTimeSecHi_value c (secOf t / 2 ^ 32 % 65536 + s.tim.epoch * 65536) (wrC timTimeNs_value c (nsOf t)
          (wrC timTimeFrac_value c (fracOf t) (wrC timRawLo_value c s.tim.raw (wrC timRawHi_value c (s.tim.raw / 2 ^ 32) s)))))))) ∧
    (∀ w v c u d, Admits w .tim s → c = winIdx w → u = wrC timStepCtl_mode c (wordField v 1 1) (wrC timStepCtl_neg c (wordField v 2 1) s) →
      d = stagedStep w u →
      (wordField v 0 1 = 0 → exec (.stepGo w v) s = .next u) ∧
      (wordField v 0 1 = 1 → rdC timStepNs_value c u < 1000000000 →
        (wordField v 1 1 = 1 → exec (.stepGo w v) s = .next (stepTime (d : Int) u)) ∧
        (wordField v 1 1 = 0 → wordField v 2 1 = 1 → exec (.stepGo w v) s = .next (stepTime ((timeNow u : Int) - d) u)) ∧
        (wordField v 1 1 = 0 → wordField v 2 1 = 0 → exec (.stepGo w v) s = .next (stepTime ((timeNow u : Int) + d) u)))) ∧
    (∀ w v, Admits w .tim s →
      (cf timServoCfg_src s = 0 → exec (.rateWrite w v) s = .next (setRate (signed 32 v.toNat) s)) ∧
      (cf timServoCfg_src s ≠ 0 → exec (.rateWrite w v) s = .next (accessError w timRate_rate.off true s)) ∧
      (∀ u, u = wrC timServoSampleHi_ns (winIdx w) v.toNat s → cf timServoCfg_src s = 1 → blockOn .tim s = true →
        (rdC timServoSampleLo_epoch (winIdx w) u = s.tim.epoch →
          exec (.servoSample w v) s = .next (servoSample (signed 32 v.toNat * 65536 + rdC timServoSampleLo_fraction (winIdx w) u) u)) ∧
        (rdC timServoSampleLo_epoch (winIdx w) u ≠ s.tim.epoch → exec (.servoSample w v) s = .next (raise timSampleStale u)))) ∧
    (∀ x new u t, new = (x % (timeMod : Int)).toNat →
      u = { s with tim := { s.tim with was := mapNow s.tim, anchorTime := new, anchorRaw := s.tim.raw, epoch := (s.tim.epoch + 1) % 65536 } } →
      t = gateStep (timeNow s) new (foldOver allBlocks (commitStep (timeNow s) new) (foldOver (List.range 8) (trigStep (timeNow s) new)
        (raise timTimeStep (writeRec 5 1 0x34 1024 (timeBytes (timeNow s) ++ bytesLE 2 s.tim.epoch) u)))) →
      (t.tim.ppsNext = none → stepTime x s = t) ∧
      (t.tim.ppsNext.isSome = true → stepTime x s = { t with tim := { t.tim with ppsNext := some (ppsAfter (timeNow t) t) } })) ∧
    (∀ old new k, (rdC timTrigCtl_armed k s = 0 → trigStep old new k s = s) ∧
      (rdC timTrigCtl_armed k s = 1 → rdC timTrigCfg_mode k s = 1 →
        (atOrAfter new (trigStart k s) = true → atOrAfter old (trigStart k s) = false → trigRuns k s = true →
          trigStep old new k s = trigFire k true s) ∧
        (atOrAfter new (trigStart k s) = false ∨ atOrAfter old (trigStart k s) = true → trigStep old new k s = s))) ∧
    (∀ old new b a, (commitOf b s).armed = some a → reachedAt new a = true → reachedAt old a = false →
      commitStep old new b s = putCommit b { commitOf b s with lateNext := true } s) ∧
    (∀ old new b, (commitOf b s).armed = none → commitStep old new b s = s) ∧
    (∀ a, setRate a s = { s with tim := { s.tim with
      was := mapNow s.tim
      anchorTime := timeNow s
      anchorRaw := s.tim.raw
      rate := clampInt a (-(maxRate s)) (maxRate s) } }) ∧
    (∀ x u ns m i r, ns = clampInt (x / 65536) (-(2 ^ 31)) (2 ^ 31 - 1) →
      u = wr timServoStatus_last (unsigned 32 ns) (incX timServoCount_samples 0 0 (wr timStatus_holdover 0 s)) → cf timServoStep_stepNs u = 0 →
      m = servoMax u → i = clampInt (u.tim.integral - (cf timServoGain_ki u : Int) * x) (-m) m → r = i - (cf timServoGain_kp u : Int) * x →
      -m ≤ r → r ≤ m → (if x < 0 then -x else x) < (cf timServoLock_lockNs u : Int) * 65536 → rd timStatus_locked u = 1 →
      servoSample x s = setRate (ppbToRate r) { u with tim := { u.tim with first := false, integral := i, good := u.tim.good + 1 } }) ∧
    (∀ x u mag ns, ns = clampInt (x / 65536) (-(2 ^ 31)) (2 ^ 31 - 1) → mag = (if x < 0 then -x else x) →
      u = wr timServoStatus_last (unsigned 32 ns) (incX timServoCount_samples 0 0 (wr timStatus_holdover 0 s)) →
      (∀ t, cf timServoStep_stepNs u ≠ 0 →
        ((cf timServoStep_stepNs u : Int) * 65536 ≤ mag ∨ (u.tim.first = true ∧ cf timServoCfg_stepFirst u = 1)) →
        t = stepTime ((timeNow u : Int) - x) (incX timServoCount_steps 0 0 u) →
        servoSample x s = servoUnlock { t with tim := { t.tim with first := false, good := 0 } }) ∧
      (∀ m i r good s1 s2 s3 lock, cf timServoStep_stepNs u = 0 ∨ (mag < (cf timServoStep_stepNs u : Int) * 65536 ∧
          (u.tim.first = false ∨ cf timServoCfg_stepFirst u ≠ 1)) → m = servoMax u →
        i = clampInt (u.tim.integral - (cf timServoGain_ki u : Int) * x) (-m) m → r = i - (cf timServoGain_kp u : Int) * x →
        lock = (cf timServoLock_lockNs u : Int) * 65536 → good = (if mag < lock then u.tim.good + 1 else 0) →
        s1 = setRate (ppbToRate (clampInt r (-m) m)) { u with tim := { u.tim with first := false, integral := i, good := good } } →
        s2 = (if clampInt r (-m) m ≠ r then raise timRateLimit s1 else s1) →
        s3 = (if rd timStatus_locked s2 = 0 ∧ rd timStatus_onBackup s2 = 0 ∧ cf timServoLock_lockN s2 ≤ good then
          raise timServoLocked (wr timStatus_locked 1 s2) else s2) →
        servoSample x s = (if rd timStatus_locked s3 = 1 ∧ 4 * lock ≤ mag then raise timServoUnlocked (wr timStatus_locked 0 s3) else s3))) ∧
    (blockOn .tim s = true → cf timServoCfg_src s ≠ 0 → rd timStatus_holdover s = 0 →
      exec .servoHoldover s = .next (raise timHoldover (wr timStatus_holdover 1 (wr timStatus_locked 0 (setRate (ppbToRate s.tim.integral) s))))) ∧
    (cf timServoCfg_src s = 0 ∨ rd timStatus_holdover s = 1 → exec .servoHoldover s = .next s) ∧
    (∀ u, u = wr timStatus_refOk 0 s →
      (rd timStatus_srcLive u = 1 →
        exec .timeRefLost s = .next (raise timRefLost (wr timStatus_srcLive 0 { u with tim := { u.tim with refLost := true } }))) ∧
      (rd timStatus_srcLive u = 0 → exec .timeRefLost s = .next u)) ∧
    (∀ u, u = wr timStatus_refOk 1 s → rd timStatus_refOk s = 0 →
      (cf timClkCfg_src u = 0 → exec .timeRefRestored s = .next u) ∧
      (∀ x, x = raise timRefRestored u → cf timClkCfg_src u = 1 →
        (cf timClkCfg_revert x = 1 → exec .timeRefRestored s = .next (wr timStatus_srcLive 1 { x with tim := { x.tim with refLost := false } })) ∧
        (cf timClkCfg_revert x = 0 → x.tim.refLost = true → exec .timeRefRestored s = .next x) ∧
        (x.tim.refLost = false → exec .timeRefRestored s = .next (wr timStatus_srcLive 1 { x with tim := { x.tim with refLost := false } })))) ∧
    (rd timStatus_refOk s = 1 → exec .timeRefRestored s = .next s) ∧
    (∀ r, (rd timStatus_srcLive s = 1 → exec (.refRatioMeasure r) s = .next { s with tim := { s.tim with refRatio := r } }) ∧
      (rd timStatus_srcLive s = 0 → exec (.refRatioMeasure r) s = .next s))

/-- R456 to R460. -/
def Obligations.PulsesAndTriggersLeaveOnTime : Prop :=
  ∀ s : State,
    (∀ t u, s.tim.ppsNext = some t → u = { s with tim := { s.tim with ppsNext := some (ppsAfter (timeNow s) s) } } →
      (blockOn .tim s = true → atOrAfter (timeNow s) t = true → ppsQuiet s = true → exec .ppsOutRise s = .next u) ∧
      (blockOn .tim s = true → atOrAfter (timeNow s) t = true → ppsQuiet s = false →
        exec .ppsOutRise s = .next { u with tim := { u.tim with ppsHigh := some (rawAfter (1000 * cf timPpsOutCfg_widthUs s) s) } }) ∧
      (atOrAfter (timeNow s) t = false → exec .ppsOutRise s = .next s)) ∧
    (s.tim.ppsNext = none → exec .ppsOutRise s = .next s) ∧ 
    (∀ r, s.tim.ppsHigh = some r → rawReached r s = true → exec .ppsOutFall s = .next { s with tim := { s.tim with ppsHigh := none } }) ∧
    (∀ r, s.tim.ppsHigh = some r → rawReached r s = false → exec .ppsOutFall s = .next s) ∧
    (ppsQuiet s = true → ppsLevel s = false) ∧
    (∀ sub r t u, r = raw8 sub s → t = (((timeAtEighth s.tim r : Nat) : Int) - Config.ppsInDelay - signed 32 (cf timPpsInCfg_delayNs s) * 65536) % (timeMod : Int) →
      u = wr timPpsInTsSec_sec (secOf t.toNat) (wr timPpsInTsNs_ns (nsOf t.toNat) (wr timPpsInTsNs_valid 1
        { s with tim := { s.tim with ppsInRaw := some r, ppsMissing := false } })) →
      (blockOn .tim s = true → s.tim.ppsInRaw = none → cf timServoCfg_src s ≠ 2 → exec (.ppsInEdge sub) s = .next u) ∧
      (blockOn .tim s = true → s.tim.ppsInRaw = none → cf timServoCfg_src s = 2 →
        exec (.ppsInEdge sub) s = .next (servoSample (fromSecond (t.toNat : Int)) u)) ∧
      (∀ p, blockOn .tim s = true → s.tim.ppsInRaw = some p → (r - p) * 16 < 500000000 * 100 → exec (.ppsInEdge sub) s = .next s) ∧
      (blockOn .tim s = false → exec (.ppsInEdge sub) s = .next s)) ∧
    (∀ p, blockOn .tim s = true → s.tim.ppsInRaw = some p → 1500000000 * 100 ≤ (raw8 0 s - p) * 16 → s.tim.ppsMissing = false →
      exec .ppsInMissing s = .next (raise timPpsInMissing { s with tim := { s.tim with ppsMissing := true } })) ∧
    (s.tim.ppsMissing = true ∨ s.tim.ppsInRaw = none → exec .ppsInMissing s = .next s) ∧
    (∀ w k, Admits w .tim s → selChan w .tim s = k → isFused .tim k s = false → k < 8 → 1000000000 ≤ rdC timTrigStartNs_value k s →
      exec (.trigArm w 1) s = .next s) ∧
    (∀ w k, Admits w .tim s → selChan w .tim s = k → isFused .tim k s = false → k < 8 → rdC timTrigStartNs_value k s < 1000000000 →
      (∀ u, armRefused k s = false → rdC timTrigCfg_mode k s = 2 → u = wrC timTrigCtl_armed k 1 s →
        (atOrAfter (timeNow s) (trigStart k s) = false → exec (.trigArm w 1) s = .next (putTrig k { trig k u with idx := 0 } u)) ∧
        (atOrAfter (timeNow s) (trigStart k s) = true →
          exec (.trigArm w 1) s = .next (putTrig k { trig k u with idx := trigNextIdx k (timeNow u) u } u))) ∧
      (∀ u, armRefused k s = false → rdC timTrigCfg_mode k s = 1 → u = putTrig k { trig k s with idx := 0 } (wrC timTrigCtl_armed k 1 s) →
        (atOrAfter (timeNow s) (trigStart k s) = false → exec (.trigArm w 1) s = .next u) ∧
        (atOrAfter (timeNow s) (trigStart k s) = true → chanOn .tim k s = true → rd rstWarmCtl_busy s = 0 →
          exec (.trigArm w 1) s = .next (trigFire k true u)) ∧
        (rd rstWarmCtl_busy s = 1 → exec (.trigArm w 1) s = .next u ∧ trigOut k s = false)) ∧
      (armRefused k s = true → exec (.trigArm w 1) s = .next (wrC timTrigCtl_refused k 1 s))) ∧
    (∀ w k, Admits w .tim s → selChan w .tim s = k → isFused .tim k s = false → k < 8 →
      exec (.trigDisarm w 2) s = .next (wrC timTrigCtl_armed k 0 s)) ∧
    (∀ k, k < 8 → (trigDue k s = true → exec (.triggerFire k) s = .next (trigFire k false s)) ∧
      (trigDue k s = false → exec (.triggerFire k) s = .next s) ∧
      (∀ u, u = incX timTrigEdges_edges 0 k (wrC timTrigCtl_fired k 1 (putTrig k { trig k s with pulse := some (rawAfter (trigWidth k s) s), idx := (trig k s).idx + 1 } s)) →
        (rdC timTrigCfg_mode k u = 1 → trigFire k false s = raiseC timTrigFired k (wrC timTrigCtl_armed k 0 u) ∧
          trigFire k true s = raiseC timTrigLate k (wrC timTrigCtl_late k 1 (raiseC timTrigFired k (wrC timTrigCtl_armed k 0 u)))) ∧
        (rdC timTrigCfg_mode k u = 2 → trigFire k false s = raiseC timTrigFired k u)) ∧
      (∀ r, (trig k s).pulse = some r → rawReached r s = true → exec (.triggerPulseEnd k) s = .next (putTrig k { trig k s with pulse := none } s)) ∧
      (∀ r, (trig k s).pulse = some r → rawReached r s = false → exec (.triggerPulseEnd k) s = .next s))

/-- R461, R471. -/
def Obligations.CapturedEdgesEnterAFifo : Prop :=
  ∀ s : State,
    (∀ k rising sub v, v = wrC timCaptStatus_level (8 + k) (b2n rising) (putCapt k
        { capt k s with level := rising, since := if (capt k s).level = rising then (capt k s).since else raw8 sub s } s) →
      (rdC timCaptStatus_stuck (8 + k) s = 0 → captLevel k rising sub s = v) ∧
      (rdC timCaptStatus_stuck (8 + k) s = 1 → rising = (capt k s).lastLevel → captLevel k rising sub s = v) ∧
      (rdC timCaptStatus_stuck (8 + k) s = 1 → rising ≠ (capt k s).lastLevel →
        captLevel k rising sub s = raiseC timCaptReleased (8 + k) (wrC timCaptStatus_stuck (8 + k) 0 v))) ∧
    (∀ k rising sub u c r, k < 4 → u = captLevel k rising sub s → c = 8 + k → r = raw8 sub u →
      (chanOn .tim c u = false ∨ captChooses (rdC timCaptCfg_edge c u) rising = false → exec (.captureEdge k rising sub) s = .next u) ∧
      (chanOn .tim c u = true → captChooses (rdC timCaptCfg_edge c u) rising = true →
        (∀ p, (capt k u).lastRaw = some p → rdC timCaptCfg_deadUs c u ≠ 0 → (r - p) * 16 < rdC timCaptCfg_deadUs c u * 100000 →
          exec (.captureEdge k rising sub) s = .next (satX timCaptDead_ignored 0 c 1 u)) ∧
        (rdC timCaptCfg_deadUs c u = 0 → 64 ≤ (capt k u).fifo.length → (capt k u).fullRaised = true →
          exec (.captureEdge k rising sub) s = .next (satX timCaptStatus_lost 0 c 1 (wrC timCaptStatus_overflow c 1
            (putCapt k { capt k u with gapNext := true, fullRaised := true } u)))) ∧
        (rdC timCaptCfg_deadUs c u = 0 → 64 ≤ (capt k u).fifo.length → (capt k u).fullRaised = false →
          exec (.captureEdge k rising sub) s = .next (raiseC timCaptOverflow c (satX timCaptStatus_lost 0 c 1 (wrC timCaptStatus_overflow c 1
            (putCapt k { capt k u with gapNext := true, fullRaised := true } u))))) ∧
        (∀ t, rdC timCaptCfg_deadUs c u = 0 → (capt k u).fifo.length < 64 → t = (timeAtEighth u.tim r + timeMod - Config.captureDelay k % timeMod) % timeMod →
          exec (.captureEdge k rising sub) s = .next (raiseC timCaptCaptured c (putCapt k
            { capt k u with
              fifo := (capt k u).fifo ++ [⟨t, u.tim.epoch, !rising, (capt k u).gapNext⟩]
              lastRaw := some r
              lastLevel := rising
              gapNext := false } u))))) ∧
    (∀ k, k < 4 →
      (captStuckDue k s = true → exec (.captStuck k) s = .next (raiseC timCaptStuck (8 + k) (wrC timCaptStatus_stuck (8 + k) 1 s))) ∧
      (captStuckDue k s = false → exec (.captStuck k) s = .next s) ∧
      (rdC timCaptStatus_stuck (8 + k) s = 1 → exec (.captReleased k) s = .next (captLevel k (!(capt k s).lastLevel) 0 s)) ∧
      (rdC timCaptStatus_stuck (8 + k) s = 0 → exec (.captReleased k) s = .next s)) ∧
    (∀ w c, reachable w s = true → c = selChan w .tsu s →
      (txFifo c s = [] → exec (.txTsPop w) s = .next (putRead w (reg tsuTxSecLo_value.off c s) (wrC tsuTxInfo_value c 0 s))) ∧
      (∀ e es, txFifo c s = e :: es → exec (.txTsPop w) s = .next (putRead w (BitVec.ofNat 32 (secOf e.time))
        (wrC tsuTxSecLo_value c (secOf e.time) (wrC tsuTxSecHi_value c (secOf e.time / 2 ^ 32 % 65536 + e.epoch * 65536)
          (wrC tsuTxNs_value c (nsOf e.time) (wrC tsuTxId_value c (e.seqId % 65536 + e.domain % 256 * 65536)
            (wrC tsuTxInfo_value c (fracOf e.time + e.msgType % 16 * 2 ^ 16 + b2n e.gap * 2 ^ 20 + es.length * 2 ^ 24 + 2 ^ 31)
              (putTxFifo c es s)))))))))

/-- R462. -/
def Obligations.AReadTakesTheOldestCapture : Prop :=
  ∀ (w : Window) (k : Nat) (s : State), k < 4 → reachable w s = true → selChan w .tim s = 8 + k →
    (∀ e es, (capt k s).fifo = e :: es → e.epoch < 65536 → e.time < timeMod → es.length < 64 →
      ∃ t, exec (.captPop w) s = .next t ∧ (capt k t).fifo = es ∧ rdC timCaptSecLo_value (8 + k) t = secOf e.time % 2 ^ 32 ∧
        rdC timCaptSecHi_value (8 + k) t = secOf e.time / 2 ^ 32 % 65536 + e.epoch * 65536 ∧ rdC timCaptNs_value (8 + k) t = nsOf e.time ∧
        rdC timCaptInfo_value (8 + k) t = fracOf e.time + b2n e.falling * 2 ^ 16 + b2n e.gap * 2 ^ 17 + es.length * 2 ^ 24 + 2 ^ 31) ∧
    ((capt k s).fifo = [] → ∃ t, exec (.captPop w) s = .next t ∧ (capt k t).fifo = [] ∧ bit (rdC timCaptInfo_value (8 + k) t) 31 = false)

/-- R188, R191, R195, R203, R214, R219, R225, R229, R230, R240, R241, R246, R247. -/
def Obligations.LookupsFollowTheTables : Prop :=
  ∀ s : State,
    (∀ i f, f = frame i s → parse (frameProf f s) ⟨f.bytes, f.len - 4, f.complete⟩ = .wait → parseStages i s = none) ∧
    (∀ i f g t hdrs exc prp, f = frame i s → parse (frameProf f s) ⟨f.bytes, f.len - 4, f.complete⟩ = .done hdrs exc prp →
      g = { f with hdrs := hdrs, exc := exc, prp := prp, parsed := true } →
      t = foldOver ((List.range 8).filter (fun e => bit exc e)) (fun e a => excOccurs e g a) (putFrame i g s) →
      (classify g t = .poisoned → parseStages i s = some (dropFrame i (satX scrEccUncorr_count 0 5 1 t))) ∧
      (∀ a b h, classify g t = .act a b →
        h = { g with actA := a, actB := b, cls := classOf g a t
                     hash := spreadHash { g with actA := a, actB := b, cls := classOf g a t } (actHashProfile a) t } →
        parseStages i s = some (afterLookups i (storeLookup i (sourceLookup i (countRule h b (putFrame i h t))))))) ∧
    (∀ h v dflt i, testRules h v dflt [] = dflt ∧
      ∀ after,
        (rulePoisoned h i = true → testRules h v dflt (i :: after) = .poisoned) ∧
        (rulePoisoned h i = false → ruleMatches h i v = true →
          testRules h v dflt (i :: after) = .act (ruleWord h i 1) (ruleWord h i 2)) ∧
        (∀ before, (∀ j, j ∈ before → rulePoisoned h j = false ∧ ruleMatches h j v = false) →
          testRules h v dflt (before ++ i :: after) = testRules h v dflt (i :: after) ∧ testRules h v dflt before = dflt)) ∧
    (∀ i r d nh e, r = destLookup (frame i s) s →
      (r.1 = .to d nh e → storeLookup i s = modFrame i (fun f => { f with dest := d, nextHop := nh, nhEntry := e, noDest := false }) r.2) ∧
      (r.1 = .drop → storeLookup i s = modFrame i (fun f => { f with dest := 0, nextHop := 0, nhEntry := 0, noDest := true }) r.2)) ∧
    (∀ f, blockOn .l2t s = true →
      (l2Find (fidOf f s) (beAt f.bytes 0 6) s = none → destLookup f s = l2Miss f s) ∧
      (∀ i e, l2Find (fidOf f s) (beAt f.bytes 0 6) s = some i → e = l2At i s →
        (e.drop = true → destLookup f s = (.drop, l2Stat 7 s)) ∧
        (e.drop = false → e.kind = 0 → destLookup f s = (.to e.target 0 0, s)) ∧
        (e.drop = false → e.kind = 1 → destLookup f s = nextHopRead e.target f s) ∧
        (∀ h, e.drop = false → e.kind = 2 → routedHdr f = some h → destLookup f s = routeLookup (e.target % 4096) h f s) ∧
        (e.drop = false → e.kind = 2 → routedHdr f = none → destLookup f s = l2Miss f s))) ∧
    (∀ f, blockOn .l2t s = false → destLookup f s = l2Miss f s) ∧
    (∀ f, (cf l2tCfg_missAction s = 0 → l2Miss f s = (.drop, l2Stat 6 s)) ∧
      (cf l2tCfg_missAction s = 1 → l2Miss f s = (.to 264 0 0, l2Stat 6 s)) ∧
      (2 ≤ cf l2tCfg_missAction s → l2Miss f s = nextHopRead (cf l2tCfg_missNh s) f (l2Stat 6 s))) ∧
    (∀ vrf h f addr r t, addr = (if h.code = 8 then beAt f.bytes (h.off + 24) 16 else beAt f.bytes (h.off + 16) 4) →
      blockOn .lpm s = true → r = lpmLookup vrf (decide (h.code = 8)) addr s → t = (if r.2 then raise lpmTrieError (lpmStat 3 s) else s) →
      (r.1 = none → routeLookup vrf h f s = missAction (cf lpmCfg_missAction t) (cf lpmCfg_missNh t) f (lpmStat 0 t)) ∧
      (∀ x, r.1 = some x →
        (bit x 18 = false → routeLookup vrf h f s = nextHopRead (bitsOf x 0 18) f t) ∧
        (bit x 18 = true → grValid (ecmpAt (bitsOf x 0 14) t) = true → routeLookup vrf h f s =
          nextHopRead (sget zeroDefault t.lpm.member (ecmpMember (ecmpAt (bitsOf x 0 14) t) f.hash) % 2 ^ 18) f t) ∧
        (bit x 18 = true → grValid (ecmpAt (bitsOf x 0 14) t) = false →
          routeLookup vrf h f s = (.drop, raise lpmNhInvalid (lpmStat 2 t))))) ∧
    (∀ nh f e, e = nhAt nh s →
      (nhValid e = false → nextHopRead nh f s = (.drop, raise lpmNhInvalid (lpmStat 2 s))) ∧
      (nhValid e = true → (nhRoute e = false ∨ ∀ x, ttlOf f = some x → 1 < x) → nextHopRead nh f s = (.to (nhDest e) (2 ^ 31 + nh) e, s)) ∧
      (∀ x, nhValid e = true → nhRoute e = true → ttlOf f = some x → x ≤ 1 →
        (cf lpmCfg_ttlHost s = 1 → nextHopRead nh f s = (.to 264 0 0, raise lpmTtlExpired (lpmStat 1 s))) ∧
        (cf lpmCfg_ttlHost s = 0 → nextHopRead nh f s = (.drop, raise lpmTtlExpired (lpmStat 1 s))))) ∧
    (∀ e h, ecmpMember e h = grBase e + (h / 65536 % 65536 * grSize e) / 65536 ∧ grBase e ≤ ecmpMember e h ∧
      ecmpMember e h < grBase e + grSize e) ∧
    (∀ vrf v6 addr root, root = poolAt (2 * vrf + (if v6 then 1 else 0)) s →
      lpmLookup vrf v6 addr s = lpmWalk s addr (if v6 then 128 else 32) 19 root 0 (if bit root 19 then some (bitsOf root 0 19) else none)) ∧
    (∀ addr width n e pos best,
      (bit e 46 = false ∨ width ≤ pos → lpmWalk s addr width n e pos best = (best, false)) ∧
      (bit e 46 = true → pos < width → lpmWalk s addr width 0 e pos best = (best, true)) ∧
      (bit e 46 = true → pos < width → 3145728 < bitsOf e 20 22 + 2 ^ (bitsOf e 42 4 + 1) → lpmWalk s addr width n e pos best = (best, true)) ∧
      (∀ w x, bit e 46 = true → pos < width → w = bitsOf e 42 4 + 1 → bitsOf e 20 22 + 2 ^ w ≤ 3145728 →
        x = poolAt (bitsOf e 20 22 + addrBits addr width pos w) s →
        lpmWalk s addr width (n + 1) e pos best = lpmWalk s addr width n x (pos + w) (if bit x 19 then some (bitsOf x 0 19) else best))) ∧
    (∀ c d, c + 65536 ≤ 3145728 → d + 16 ≤ 3145728 → poolAt 34 s = c * 2 ^ 20 + 15 * 2 ^ 42 + 2 ^ 46 →
      poolAt (c + 2580) s = 500 + 2 ^ 19 + d * 2 ^ 20 + 3 * 2 ^ 42 + 2 ^ 46 → poolAt (d + 3) s = 501 + 2 ^ 19 →
      lpmLookup 17 false 0x0A143307 s = (some 501, false)) ∧
    (∀ i f, f = frame i s → f.complete = true → f.sa = 0 → f.saDrop = false →
      (actDrop f.actA = true → afterLookups i s = dropFrame i s) ∧
      (actDrop f.actA = false → actMeterEn f.actB = false → afterLookups i s = decideFrame i s)) ∧
    (∀ i f, f = frame i s → f.complete = false →
      (actDrop f.actA = true → afterLookups i s = dropFrame i s) ∧
      (actDrop f.actA = false → (f.saDrop = true ∨ actMeterEn f.actB = true) →
        afterLookups i s = modFrame i (fun f => { f with meterWait := true }) s) ∧
      (actDrop f.actA = false → f.saDrop = false → actMeterEn f.actB = false → afterLookups i s = decideFrame i s)) ∧
    (∀ i f pol, f = frame i s → lacksKey f s = false → pol = excChoice (f.exc % 64) (decide (actProgram f.actA ≠ 0)) f s →
      (pol = 1 → decideFrame i s = dropFrame i s) ∧
      (pol ≠ 1 → (pol = 2 ∨ actToHost f.actA = true) → decideFrame i s = hostFrame i none s) ∧
      (pol = 0 → actToHost f.actA = false →
        (actRecirc f.actA = true → decideFrame i s = recircFrame i s) ∧
        (actRecirc f.actA = false → actProgram f.actA = 0 → decideFrame i s = forwardFrame i none s) ∧
        (actRecirc f.actA = false → actProgram f.actA ≠ 0 → decideFrame i s = flowDecision i s))) ∧
    (∀ bits flow f, (∀ e, e < 8 → bit bits e = false) → excChoice bits flow f s = 0) ∧
    (∀ bits flow f e, e < 8 → bit bits e = true → excPolicy e flow f s = 1 → excChoice bits flow f s = 1) ∧
    (∀ bits flow f e, e < 8 → bit bits e = true → excPolicy e flow f s = 2 → (∀ x, x < 8 → bit bits x = true → excPolicy x flow f s ≠ 1) →
      excChoice bits flow f s = 2)

end
end

