-- ==== Sys2Proof/Laws/Sparse.lean ====
section
/-! SUPPORT. Laws of sparse stores: what a read gives after a write, and that every operation keeps the canonical form. -/

namespace Sys2Proof.Machine

variable {α : Type}

theorem srising_mono {b c : Nat} (hbc : b ≤ c) {l : Sparse α} (h : srising c l = true) : srising b l = true := by
  cases l with
  | nil => rfl
  | cons e l =>
    simp only [srising, Bool.and_eq_true, decide_eq_true_eq] at h ⊢
    exact ⟨by omega, h.2⟩

/-- A key below every listed one reads as an unlisted key. -/
theorem sget_of_rising (d : Nat → α) {l : Sparse α} {b k : Nat} (h : srising b l = true) (hk : k < b) : sget d l k = d k := by
  induction l generalizing b with
  | nil => rfl
  | cons e l ih =>
    simp only [srising, Bool.and_eq_true, decide_eq_true_eq] at h
    have hne : e.1 ≠ k := by omega
    simp only [sget, hne, if_false]
    exact ih h.2 (by omega)

theorem sget_sput_same (d : Nat → α) (l : Sparse α) (k : Nat) (x : α) : sget d (sput l k x) k = x := by
  induction l with
  | nil => simp [sput, sget]
  | cons e l ih =>
    obtain ⟨j, v⟩ := e
    simp only [sput]
    split
    · simp [sget]
    · split
      · simp [sget]
      · next h => simp [sget, h, ih]

theorem sget_sput_other (d : Nat → α) (l : Sparse α) {k m : Nat} (x : α) (hm : m ≠ k) : sget d (sput l k x) m = sget d l m := by
  induction l with
  | nil => simp [sput, sget, Ne.symm hm]
  | cons e l ih =>
    obtain ⟨j, v⟩ := e
    simp only [sput]
    split
    · simp [sget, Ne.symm hm]
    · split
      · next h => subst h; simp [sget, Ne.symm hm]
      · simp [sget, ih]

theorem sget_sdel_other (d : Nat → α) (l : Sparse α) {k m : Nat} (hm : m ≠ k) : sget d (sdel l k) m = sget d l m := by
  induction l with
  | nil => rfl
  | cons e l ih =>
    obtain ⟨j, v⟩ := e
    simp only [sdel]
    split
    · next h => subst h; simp [sget, Ne.symm hm, ih]
    · simp [sget, ih]

/-- A removed key reads as an unlisted one. -/
theorem sget_sdel_same (d : Nat → α) (l : Sparse α) (k : Nat) : sget d (sdel l k) k = d k := by
  induction l with
  | nil => rfl
  | cons e l ih =>
    obtain ⟨j, v⟩ := e
    simp only [sdel]
    split
    · exact ih
    · next hj => simp [sget, hj, ih]

theorem srising_sdel {b : Nat} {l : Sparse α} (k : Nat) (h : srising b l = true) : srising b (sdel l k) = true := by
  induction l generalizing b with
  | nil => rfl
  | cons e l ih =>
    obtain ⟨j, v⟩ := e
    simp only [srising, Bool.and_eq_true, decide_eq_true_eq] at h
    simp only [sdel]
    split
    · exact srising_mono (by omega) (ih h.2)
    · simp only [srising, Bool.and_eq_true, decide_eq_true_eq]
      exact ⟨h.1, ih h.2⟩

theorem srising_sput {b : Nat} {l : Sparse α} (k : Nat) (x : α) (hb : b ≤ k) (h : srising b l = true) :
    srising b (sput l k x) = true := by
  induction l generalizing b with
  | nil => simp [sput, srising, hb]
  | cons e l ih =>
    obtain ⟨j, v⟩ := e
    simp only [srising, Bool.and_eq_true, decide_eq_true_eq] at h
    simp only [sput]
    split
    · simp only [srising, Bool.and_eq_true, decide_eq_true_eq]
      exact ⟨hb, by omega, h.2⟩
    · split
      · next hj => subst hj; simp only [srising, Bool.and_eq_true, decide_eq_true_eq]; exact ⟨hb, h.2⟩
      · simp only [srising, Bool.and_eq_true, decide_eq_true_eq]
        exact ⟨h.1, ih (by omega) h.2⟩

theorem srising_sfilter {b : Nat} {l : Sparse α} (p : Nat → Bool) (h : srising b l = true) : srising b (sfilter p l) = true := by
  induction l generalizing b with
  | nil => rfl
  | cons e l ih =>
    obtain ⟨j, v⟩ := e
    simp only [srising, Bool.and_eq_true, decide_eq_true_eq] at h
    simp only [sfilter, List.filter_cons]
    split
    · simp only [srising, Bool.and_eq_true, decide_eq_true_eq]
      exact ⟨h.1, ih h.2⟩
    · exact srising_mono (by omega) (ih h.2)

theorem mem_of_mem_sdel {l : Sparse α} {k : Nat} {e : Nat × α} (h : e ∈ sdel l k) : e ∈ l := by
  induction l with
  | nil => exact h
  | cons f l ih =>
    obtain ⟨j, v⟩ := f
    simp only [sdel] at h
    split at h
    · exact List.mem_cons_of_mem _ (ih h)
    · rcases List.mem_cons.mp h with h | h
      · exact h ▸ List.mem_cons_self
      · exact List.mem_cons_of_mem _ (ih h)

theorem mem_of_mem_sput {l : Sparse α} {k : Nat} {x : α} {e : Nat × α} (h : e ∈ sput l k x) : e = (k, x) ∨ e ∈ l := by
  induction l with
  | nil => exact Or.inl (by simpa [sput] using h)
  | cons f l ih =>
    obtain ⟨j, v⟩ := f
    simp only [sput] at h
    split at h
    · rcases List.mem_cons.mp h with h | h
      · exact Or.inl h
      · exact Or.inr h
    · split at h
      · rcases List.mem_cons.mp h with h | h
        · exact Or.inl h
        · exact Or.inr (List.mem_cons_of_mem _ h)
      · rcases List.mem_cons.mp h with h | h
        · exact Or.inr (h ▸ List.mem_cons_self)
        · rcases ih h with h | h
          · exact Or.inl h
          · exact Or.inr (List.mem_cons_of_mem _ h)

section Canonical

variable [DecidableEq α]

theorem swf_iff (d : Nat → α) (l : Sparse α) : swf d l = true ↔ srising 0 l = true ∧ ∀ e ∈ l, e.2 ≠ d e.1 := by
  simp [swf]

theorem swf_nil (d : Nat → α) : swf d ([] : Sparse α) = true := rfl

/-- Removing a key keeps the canonical form. -/
theorem swf_sdel {d : Nat → α} {l : Sparse α} (k : Nat) (h : swf d l = true) : swf d (sdel l k) = true := by
  rw [swf_iff] at h ⊢
  exact ⟨srising_sdel k h.1, fun e he => h.2 e (mem_of_mem_sdel he)⟩

/-- A write keeps the canonical form. -/
theorem swf_sset {d : Nat → α} {l : Sparse α} (k : Nat) (x : α) (h : swf d l = true) : swf d (sset d l k x) = true := by
  unfold sset
  split
  · exact swf_sdel k h
  · next hx =>
    rw [swf_iff] at h ⊢
    refine ⟨srising_sput k x (Nat.zero_le k) h.1, fun e he => ?_⟩
    rcases mem_of_mem_sput he with he | he
    · exact he ▸ hx
    · exact h.2 e he

/-- Keeping some keys keeps the canonical form. -/
theorem swf_sfilter {d : Nat → α} {l : Sparse α} (p : Nat → Bool) (h : swf d l = true) : swf d (sfilter p l) = true := by
  rw [swf_iff] at h ⊢
  exact ⟨srising_sfilter p h.1, fun e he => h.2 e (List.mem_filter.mp he).1⟩

/-- A write leaves every other key as it was. -/
theorem sget_sset_other (d : Nat → α) (l : Sparse α) {k m : Nat} (x : α) (hm : m ≠ k) : sget d (sset d l k x) m = sget d l m := by
  unfold sset
  split
  · exact sget_sdel_other d l hm
  · exact sget_sput_other d l x hm

/-- A read of the key just written gives the value written. -/
theorem sget_sset_same (d : Nat → α) (l : Sparse α) (k : Nat) (x : α) : sget d (sset d l k x) k = x := by
  unfold sset
  split
  · next hx => rw [sget_sdel_same d l k, hx]
  · exact sget_sput_same d l k x

end Canonical

/-! ### Byte memories -/

theorem sget_foldr_sput (d : Nat → α) (l m : Sparse α) (k : Nat) :
    sget d (l.foldr (fun (e : Nat × α) m => sput m e.1 e.2) m) k = if k ∈ l.map (·.1) then sget d l k else sget d m k := by
  induction l with
  | nil => rfl
  | cons e l ih =>
    obtain ⟨j, x⟩ := e
    show sget d (sput (List.foldr (fun (e : Nat × α) m => sput m e.1 e.2) m l) j x) k = _
    by_cases h : k = j
    · subst h
      rw [sget_sput_same]; simp [sget]
    · rw [sget_sput_other _ _ _ h, ih]
      have h' : ¬ j = k := fun hh => h hh.symm
      simp only [sget, List.map_cons, List.mem_cons, h, h', false_or, if_false]

theorem sget_sfilter (d : Nat → α) (p : Nat → Bool) (l : Sparse α) (k : Nat) :
    sget d (sfilter p l) k = if p k then sget d l k else d k := by
  induction l with
  | nil => simp [sfilter, sget]
  | cons e l ih =>
    obtain ⟨j, x⟩ := e
    unfold sfilter at *
    by_cases h : j = k
    · subst h
      by_cases hp : p j
      · simp [sget, hp]
      · simp [hp] at ih ⊢; rw [ih]
    · by_cases hp : p j
      · simp [sget, hp, h, ih]
      · simp [sget, hp, h, ih]

theorem sget_of_not_mem (d : Nat → α) (l : Sparse α) (k : Nat) (h : k ∉ l.map (·.1)) : sget d l k = d k := by
  induction l with
  | nil => rfl
  | cons e l ih =>
    obtain ⟨j, x⟩ := e
    simp only [List.map_cons, List.mem_cons, not_or] at h
    unfold sget
    rw [if_neg (fun hh => h.1 hh.symm), ih h.2]

/-- A run of bytes written keeps a memory canonical. -/
theorem memWrite_wf {m : List Host.Cell} (a : Nat) (bs : List Byte) (h : Memory.wf m = true) : Memory.wf (memWrite m a bs) = true := by
  induction bs generalizing m a with
  | nil => exact h
  | cons b bs ih => exact ih (a + 1) (swf_sset a b h)

/-- A byte outside the run written reads as before. -/
theorem memByte_memWrite_other {m : List Host.Cell} {a x : Nat} {bs : List Byte} (h : x < a ∨ a + bs.length ≤ x) :
    memByte (memWrite m a bs) x = memByte m x := by
  induction bs generalizing m a with
  | nil => rfl
  | cons b bs ih =>
    simp only [List.length_cons] at h
    rw [memWrite, ih (by omega)]
    exact sget_sset_other memDefault m b (by omega)

/-- A byte of the run written reads as what was written there. -/
theorem memByte_memWrite_same {m : List Host.Cell} {a i : Nat} {bs : List Byte} (h : i < bs.length) :
    memByte (memWrite m a bs) (a + i) = bs[i] := by
  induction bs generalizing m a i with
  | nil => exact absurd h (Nat.not_lt_zero i)
  | cons b bs ih =>
    cases i with
    | zero =>
      rw [memWrite, memByte_memWrite_other (by omega)]
      exact sget_sset_same memDefault m a b
    | succ i =>
      simp only [List.length_cons] at h
      have := ih (m := sset memDefault m a b) (a := a + 1) (i := i) (by omega)
      rw [memWrite, show a + (i + 1) = a + 1 + i by omega, this]
      rfl

end Sys2Proof.Machine
end

