-- ==== Sys2Proof/Laws/Keeps.lean ====
section
/-! SUPPORT. The relation between a state and a later one (`Keeps`): it is reflexive and transitive, a change of fields it does not speak of
keeps it, and so do folds, conditional changes and outcomes built from states that keep it. -/

namespace Sys2Proof.Machine

theorem FusesOnlyBlown.refl (s : State) : FusesOnlyBlown s s := ⟨Nat.le_refl _, id, id, fun _ h => ⟨rfl, h⟩⟩

theorem FusesOnlyBlown.trans {r s t : State} (h : FusesOnlyBlown r s) (k : FusesOnlyBlown s t) : FusesOnlyBlown r t := by
  refine ⟨Nat.le_trans h.1 k.1, k.2.1 ∘ h.2.1, k.2.2.1 ∘ h.2.2.1, fun h0 he => ?_⟩
  have h1 := h.2.2.2 h0 he
  have h2 := k.2.2.2 (h1.1 ▸ h0) h1.2
  exact ⟨h2.1.trans h1.1, h2.2⟩

/-- The same fuses, with the same ones being blown. -/
theorem FusesOnlyBlown.of_eq {s t : State} (h1 : t.fw.rollback = s.fw.rollback)
    (h2 : (t.fw.ownerValid, t.fw.ownerRevoked, t.fw.fusing) = (s.fw.ownerValid, s.fw.ownerRevoked, s.fw.fusing))
    (h3 : t.fw.ownerHash = s.fw.ownerHash) : FusesOnlyBlown s t := by
  simp only [Prod.mk.injEq] at h2
  refine ⟨Nat.le_of_eq h1.symm, fun h => h2.1 ▸ h, fun h => h2.2.1 ▸ h, fun _ h => ⟨h3, ?_⟩⟩
  unfold enrolling at *
  rwa [h2.2.2]

theorem Keeps.refl (s : State) : Keeps s s :=
  ⟨rfl, rfl, List.prefix_rfl, Nat.le_refl _, FusesOnlyBlown.refl s, id⟩

theorem Keeps.trans {r s t : State} (h : Keeps r s) (k : Keeps s t) : Keeps r t :=
  ⟨k.pending.trans h.pending, k.variant.trans h.variant, h.out.trans k.out, Nat.le_trans h.free k.free, h.fuses.trans k.fuses,
   fun c => k.canonical (h.canonical c)⟩

/-- A state that agrees on what `Keeps` speaks of. -/
theorem Keeps.of_eq {r s t : State} (h : Keeps r s) (hp : t.pending = s.pending) (hv : t.variant = s.variant) (ho : t.out = s.out)
    (hf : t.fab.freeCount = s.fab.freeCount) (h1 : t.fw.rollback = s.fw.rollback) (h2 : (t.fw.ownerValid, t.fw.ownerRevoked, t.fw.fusing) = (s.fw.ownerValid, s.fw.ownerRevoked, s.fw.fusing))
    (h3 : t.fw.ownerHash = s.fw.ownerHash) (hm : t.flow.hbm = s.flow.hbm) (hc : t.pools.content = s.pools.content) : Keeps r t := by
  refine h.trans ⟨hp, hv, ho ▸ List.prefix_rfl, Nat.le_of_eq hf.symm, FusesOnlyBlown.of_eq h1 h2 h3, ?_⟩
  intro c
  unfold Canonical at *
  rw [hm, hc]
  exact c

/-- As `Keeps.of_eq`, for a state written out over the fields of an earlier one. -/
theorem Keeps.mk_over {r s : State} {fab : Fabric} {evt : Events} {tmk : Touchmark} {pcn : Pcn} {tim : TimeIsland} {pwr : Power}
    {start : Startup} {lanes : Lanes} {l2 : L2State} {lpm : LpmState} {frames : Sparse Frame} {nextFrame : Nat} {rx : Sparse RxPort}
    {ver : Versions} {pools : Pools} {sw : Switch} {egr : Egress} {flow : FlowState} {dsp : Dispatch} {fen : Engines}
    {bq : Sparse BenchQueue} {mesh : Mesh} {fw : Firmware} {recov : Recovery} {io : SlowIo} (h : Keeps r s)
    (hf : fab.freeCount = s.fab.freeCount) (h1 : fw.rollback = s.fw.rollback) (h2 : (fw.ownerValid, fw.ownerRevoked, fw.fusing) = (s.fw.ownerValid, s.fw.ownerRevoked, s.fw.fusing))
    (h3 : fw.ownerHash = s.fw.ownerHash) (hm : flow.hbm = s.flow.hbm) (hc : pools.content = s.pools.content) :
    Keeps r ⟨s.pending, s.variant, fab, evt, tmk, pcn, tim, pwr, start, lanes, l2, lpm, frames, nextFrame, rx, ver, pools, sw, egr, flow,
      dsp, fen, bq, mesh, fw, recov, io, s.out⟩ :=
  h.of_eq rfl rfl rfl hf h1 h2 h3 hm hc

/-- As `Keeps.of_eq`, with a new list of outputs. -/
theorem Keeps.emitted {r s t : State} (h : Keeps r s) (ho : s.out <+: t.out) (hp : t.pending = s.pending)
    (hv : t.variant = s.variant) (hf : t.fab.freeCount = s.fab.freeCount) (h1 : t.fw.rollback = s.fw.rollback)
    (h2 : (t.fw.ownerValid, t.fw.ownerRevoked, t.fw.fusing) = (s.fw.ownerValid, s.fw.ownerRevoked, s.fw.fusing)) (h3 : t.fw.ownerHash = s.fw.ownerHash) (hm : t.flow.hbm = s.flow.hbm)
    (hc : t.pools.content = s.pools.content) : Keeps r t := by
  refine h.trans ⟨hp, hv, ho, Nat.le_of_eq hf.symm, FusesOnlyBlown.of_eq h1 h2 h3, ?_⟩
  intro c
  unfold Canonical at *
  rw [hm, hc]
  exact c

/-- As `Keeps.of_eq`, with new byte memories in canonical form. -/
theorem Keeps.stored {r s t : State} (h : Keeps r s) (hm : Memory.wf s.flow.hbm = true → Memory.wf t.flow.hbm = true)
    (hc : Memory.wf s.pools.content = true → Memory.wf t.pools.content = true) (hp : t.pending = s.pending)
    (hv : t.variant = s.variant) (ho : t.out = s.out) (hf : t.fab.freeCount = s.fab.freeCount) (h1 : t.fw.rollback = s.fw.rollback)
    (h2 : (t.fw.ownerValid, t.fw.ownerRevoked, t.fw.fusing) = (s.fw.ownerValid, s.fw.ownerRevoked, s.fw.fusing)) (h3 : t.fw.ownerHash = s.fw.ownerHash) : Keeps r t := by
  refine h.trans ⟨hp, hv, ho ▸ List.prefix_rfl, Nat.le_of_eq hf.symm, FusesOnlyBlown.of_eq h1 h2 h3, ?_⟩
  exact fun c => ⟨hm c.1, hc c.2⟩

/-- A fold keeps what each of its steps keeps. -/
theorem foldOver_keeps {α : Type} {l : List α} {g : α → State → State} {r s : State}
    (hg : ∀ x a, Keeps r a → Keeps r (g x a)) (h : Keeps r s) : Keeps r (foldOver l g s) := by
  induction l generalizing s with
  | nil => exact h
  | cons x l ih => exact ih (hg x s h)

theorem foldl_keeps {α : Type} {l : List α} {g : State → α → State} {r s : State}
    (hg : ∀ a x, Keeps r a → Keeps r (g a x)) (h : Keeps r s) : Keeps r (l.foldl g s) := by
  induction l generalizing s with
  | nil => exact h
  | cons x l ih => exact ih (hg s x h)

/-- As `foldl_keeps`, for a fold that carries something beside the state. -/
theorem foldl_fst_keeps {α β : Type} {l : List α} {g : State × β → α → State × β} {r : State} {s : State × β}
    (hg : ∀ a x, Keeps r a.1 → Keeps r (g a x).1) (h : Keeps r s.1) : Keeps r (l.foldl g s).1 := by
  induction l generalizing s with
  | nil => exact h
  | cons x l ih => exact ih (hg s x h)

/-- As `foldl_keeps`, for a fold that carries something before the state. -/
theorem foldl_snd_keeps {α β : Type} {l : List α} {g : β × State → α → β × State} {r : State} {s : β × State}
    (hg : ∀ a x, Keeps r a.2 → Keeps r (g a x).2) (h : Keeps r s.2) : Keeps r (l.foldl g s).2 := by
  induction l generalizing s with
  | nil => exact h
  | cons x l ih => exact ih (hg s x h)

/-- What an optional state keeps. -/
def OptKeeps (r : State) (o : Option State) : Prop := ∀ t, o = some t → Keeps r t

theorem OptKeeps.some {r s : State} (h : Keeps r s) : OptKeeps r (some s) := fun _ e => Option.some.inj e ▸ h

theorem OptKeeps.none {r : State} : OptKeeps r none := fun _ e => nomatch e

theorem foldOver_optKeeps {α : Type} {l : List α} {g : α → Option State → Option State} {r : State} {o : Option State}
    (hg : ∀ x a, OptKeeps r a → OptKeeps r (g x a)) (h : OptKeeps r o) : OptKeeps r (foldOver l g o) := by
  induction l generalizing o with
  | nil => exact h
  | cons x l ih => exact ih (hg x o h)

theorem OptKeeps.elim {r t : State} {o : Option State} (h : OptKeeps r o) (e : o = Option.some t) : Keeps r t := h t e

theorem OptKeeps.ite {r : State} {c : Prop} [Decidable c] {o p : Option State} (h : OptKeeps r o) (k : OptKeeps r p) :
    OptKeeps r (if c then o else p) := by
  by_cases hc : c
  · rw [if_pos hc]; exact h
  · rw [if_neg hc]; exact k

theorem OptKeeps.bind {r : State} {o : Option State} {g : State → Option State} (h : OptKeeps r o)
    (hg : ∀ s, Keeps r s → OptKeeps r (g s)) : OptKeeps r (o.bind g) := by
  cases o with
  | none => exact OptKeeps.none
  | some s => exact hg s (h s rfl)

theorem OptKeeps.getD {r s : State} {o : Option State} (h : OptKeeps r o) (hs : Keeps r s) : Keeps r (o.getD s) := by
  cases o with
  | none => exact hs
  | some t => exact h t rfl

/-- What an optional result with a state keeps. -/
def Opt2Keeps {α : Type} (r : State) (o : Option (α × State)) : Prop := ∀ x t, o = some (x, t) → Keeps r t

theorem Opt2Keeps.some {α : Type} {r s : State} {x : α} (h : Keeps r s) : Opt2Keeps r (Option.some (x, s)) := by
  intro y t e
  cases e
  exact h

theorem Opt2Keeps.none {α : Type} {r : State} : Opt2Keeps (α := α) r none := fun _ _ e => nomatch e

theorem Opt2Keeps.elim {α : Type} {r t : State} {x : α} {o : Option (α × State)} (h : Opt2Keeps r o) (e : o = Option.some (x, t)) :
    Keeps r t := h x t e

theorem Opt2Keeps.pair {α : Type} {r : State} {p : α × State} {o : Option (α × State)} (h : Opt2Keeps r o) (e : o = Option.some p) :
    Keeps r p.2 := h p.1 p.2 e

/-- As `Opt2Keeps`, with two results beside the state. -/
def Opt3Keeps {α β : Type} (r : State) (o : Option (α × β × State)) : Prop := ∀ x y t, o = some (x, y, t) → Keeps r t

theorem Opt3Keeps.some {α β : Type} {r s : State} {x : α} {y : β} (h : Keeps r s) : Opt3Keeps r (Option.some (x, y, s)) := by
  intro x y t e
  cases e
  exact h

theorem Opt3Keeps.none {α β : Type} {r : State} : Opt3Keeps (α := α) (β := β) r none := fun _ _ _ e => nomatch e

theorem Opt3Keeps.elim {α β : Type} {r t : State} {x : α} {y : β} {o : Option (α × β × State)} (h : Opt3Keeps r o)
    (e : o = Option.some (x, y, t)) : Keeps r t := h x y t e

/-- The state of a result, named by a match. -/
theorem Keeps.snd {α : Type} {r t : State} {x : α} {p : α × State} (h : Keeps r p.2) (e : p = (x, t)) : Keeps r t := by
  subst e; exact h

theorem Keeps.fst {α : Type} {r t : State} {x : α} {p : State × α} (h : Keeps r p.1) (e : p = (t, x)) : Keeps r t := by
  subst e; exact h

theorem Keeps.third {α β : Type} {r t : State} {x : α} {y : β} {p : α × β × State} (h : Keeps r p.2.2) (e : p = (x, y, t)) :
    Keeps r t := by
  subst e; exact h

/-- What an outcome that goes on keeps. -/
def OutKeeps (r : State) (o : Host.Outcome State Fault Refusal) : Prop := ∀ t, o = .next t → Keeps r t

theorem OutKeeps.next {r s : State} (h : Keeps r s) : OutKeeps r (.next s) := by
  intro t e; cases e; exact h

theorem OutKeeps.fault {r : State} (f : Fault) : OutKeeps r (.fault f) := fun _ e => nomatch e

theorem OutKeeps.refused {r : State} (f : Refusal) : OutKeeps r (.refused f) := fun _ e => nomatch e

theorem guarded_keeps {r s : State} {ok : Bool} (h : Keeps r s) : OutKeeps r (guarded ok s) := by
  unfold guarded
  split
  · exact OutKeeps.next h
  · exact OutKeeps.refused _

end Sys2Proof.Machine
end

