-- ==== Sys2Proof/Laws/OpsKeeps.lean ====
section
/-! SUPPORT. Every operation of Machine/Ops.lean keeps what `Keeps` speaks of. -/

-- The alternatives of each proof's `first` are the same list; not every alternative is used in every proof.
set_option linter.unreachableTactic false
set_option linter.unusedTactic false

namespace Sys2Proof.Machine

theorem emit_keeps {r : State} {o : Output} {s : State} (hs : Keeps r s) :
    Keeps r (emit o s) := by
  exact hs.emitted (List.prefix_append _ _) rfl rfl rfl rfl rfl rfl rfl rfl

theorem takeFree_keeps {r : State} {s : State} (hs : Keeps r s) :
    Keeps r (takeFree s).2 := by
  refine hs.trans ⟨rfl, rfl, List.prefix_rfl, Nat.le_succ _, FusesOnlyBlown.refl s, id⟩

theorem onlyIf_keeps {r : State} {c : Bool} {f : State → State} {s : State} (hf : ∀ x0, Keeps r x0 → Keeps r (f x0)) (hs : Keeps r s) :
    Keeps r (onlyIf c f s) := by
  unfold onlyIf
  repeat' first
    | with_reducible assumption | with_reducible apply hf | with_reducible apply foldl_keeps | split | dsimp only | intro _ _ _
    | intro _ _ | intro _ | (with_reducible refine Keeps.mk_over ?_ rfl rfl rfl rfl rfl rfl)

theorem putReg_keeps {r : State} {off : Nat} {inst : Nat} {v : Word} {s : State} (hs : Keeps r s) :
    Keeps r (putReg off inst v s) := by
  unfold putReg
  repeat' first
    | with_reducible assumption | with_reducible apply foldl_keeps | split | dsimp only | intro _ _ _ | intro _ _ | intro _
    | (with_reducible refine Keeps.mk_over ?_ rfl rfl rfl rfl rfl rfl)

theorem putLive_keeps {r : State} {off : Nat} {inst : Nat} {v : Word} {s : State} (hs : Keeps r s) :
    Keeps r (putLive off inst v s) := by
  unfold putLive
  repeat' first
    | with_reducible assumption | split | dsimp only | intro _ _ _ | intro _ _ | intro _
    | (with_reducible refine Keeps.mk_over ?_ rfl rfl rfl rfl rfl rfl)

theorem wrX_keeps {r : State} {f : Fld} {i : Nat} {c : Nat} {v : Nat} {s : State} (hs : Keeps r s) :
    Keeps r (wrX f i c v s) := by
  unfold wrX
  repeat' first
    | with_reducible assumption | with_reducible apply putReg_keeps | with_reducible apply foldl_keeps | split | dsimp only
    | intro _ _ _ | intro _ _ | intro _ | (with_reducible refine Keeps.mk_over ?_ rfl rfl rfl rfl rfl rfl)

theorem wr_keeps {r : State} {f : Fld} {v : Nat} {s : State} (hs : Keeps r s) :
    Keeps r (wr f v s) := by
  unfold wr
  repeat' first
    | with_reducible assumption | with_reducible apply wrX_keeps | with_reducible apply foldl_keeps | split | dsimp only
    | intro _ _ _ | intro _ _ | intro _ | (with_reducible refine Keeps.mk_over ?_ rfl rfl rfl rfl rfl rfl)

theorem wrC_keeps {r : State} {f : Fld} {c : Nat} {v : Nat} {s : State} (hs : Keeps r s) :
    Keeps r (wrC f c v s) := by
  unfold wrC
  repeat' first
    | with_reducible assumption | with_reducible apply wrX_keeps | with_reducible apply foldl_keeps | split | dsimp only
    | intro _ _ _ | intro _ _ | intro _ | (with_reducible refine Keeps.mk_over ?_ rfl rfl rfl rfl rfl rfl)

theorem satX_keeps {r : State} {f : Fld} {i : Nat} {c : Nat} {d : Nat} {s : State} (hs : Keeps r s) :
    Keeps r (satX f i c d s) := by
  unfold satX
  repeat' first
    | with_reducible assumption | with_reducible apply wrX_keeps | with_reducible apply foldl_keeps | split | dsimp only
    | intro _ _ _ | intro _ _ | intro _ | (with_reducible refine Keeps.mk_over ?_ rfl rfl rfl rfl rfl rfl)

theorem sat1_keeps {r : State} {f : Fld} {s : State} (hs : Keeps r s) :
    Keeps r (sat1 f s) := by
  unfold sat1
  repeat' first
    | with_reducible assumption | with_reducible apply satX_keeps | with_reducible apply foldl_keeps | split | dsimp only
    | intro _ _ _ | intro _ _ | intro _ | (with_reducible refine Keeps.mk_over ?_ rfl rfl rfl rfl rfl rfl)

theorem incX_keeps {r : State} {f : Fld} {i : Nat} {c : Nat} {s : State} (hs : Keeps r s) :
    Keeps r (incX f i c s) := by
  unfold incX
  repeat' first
    | with_reducible assumption | with_reducible apply wrX_keeps | with_reducible apply foldl_keeps | split | dsimp only
    | intro _ _ _ | intro _ _ | intro _ | (with_reducible refine Keeps.mk_over ?_ rfl rfl rfl rfl rfl rfl)

theorem putLatch_keeps {r : State} {w : Window} {b : Block} {l : ChanLatch} {s : State} (hs : Keeps r s) :
    Keeps r (putLatch w b l s) := by
  unfold putLatch
  repeat' first
    | with_reducible assumption | with_reducible apply foldl_keeps | split | dsimp only | intro _ _ _ | intro _ _ | intro _
    | (with_reducible refine Keeps.mk_over ?_ rfl rfl rfl rfl rfl rfl)

theorem putRead_keeps {r : State} {w : Window} {v : Word} {s : State} (hs : Keeps r s) :
    Keeps r (putRead w v s) := by
  unfold putRead
  repeat' first
    | with_reducible assumption | with_reducible apply foldl_keeps | split | dsimp only | intro _ _ _ | intro _ _ | intro _
    | (with_reducible refine Keeps.mk_over ?_ rfl rfl rfl rfl rfl rfl)

theorem putTgt_keeps {r : State} {t : Target} {x : Tgt} {s : State} (hs : Keeps r s) :
    Keeps r (putTgt t x s) := by
  unfold putTgt
  repeat' first
    | with_reducible assumption | with_reducible apply foldl_keeps | split | dsimp only | intro _ _ _ | intro _ _ | intro _
    | (with_reducible refine Keeps.mk_over ?_ rfl rfl rfl rfl rfl rfl)

theorem modTgt_keeps {r : State} {t : Target} {f : Tgt → Tgt} {s : State} (hs : Keeps r s) :
    Keeps r (modTgt t f s) := by
  unfold modTgt
  repeat' first
    | with_reducible assumption | with_reducible apply putTgt_keeps | with_reducible apply foldl_keeps | split | dsimp only
    | intro _ _ _ | intro _ _ | intro _ | (with_reducible refine Keeps.mk_over ?_ rfl rfl rfl rfl rfl rfl)

theorem putCtr_keeps {r : State} {key : Nat} {v : Nat} {s : State} (hs : Keeps r s) :
    Keeps r (putCtr key v s) := by
  unfold putCtr
  repeat' first
    | with_reducible assumption | with_reducible apply foldl_keeps | split | dsimp only | intro _ _ _ | intro _ _ | intro _
    | (with_reducible refine Keeps.mk_over ?_ rfl rfl rfl rfl rfl rfl)

theorem putWrap_keeps {r : State} {key : Nat} {v : Bool} {s : State} (hs : Keeps r s) :
    Keeps r (putWrap key v s) := by
  unfold putWrap
  repeat' first
    | with_reducible assumption | with_reducible apply foldl_keeps | split | dsimp only | intro _ _ _ | intro _ _ | intro _
    | (with_reducible refine Keeps.mk_over ?_ rfl rfl rfl rfl rfl rfl)

theorem addCtr_keeps {r : State} {key : Nat} {d : Nat} {s : State} (hs : Keeps r s) :
    Keeps r (addCtr key d s).1 := by
  unfold addCtr
  try dsimp only
  repeat' first
    | split | with_reducible assumption | with_reducible apply putCtr_keeps | with_reducible apply putWrap_keeps
    | with_reducible apply foldl_keeps | dsimp only | intro _ _ _ | intro _ _ | intro _
    | (with_reducible refine Keeps.mk_over ?_ rfl rfl rfl rfl rfl rfl)

end Sys2Proof.Machine
end

