-- ==== Sys2Proof/Laws/SignalsKeeps.lean ====
section
/-! SUPPORT. Every operation of Machine/Signals.lean keeps what `Keeps` speaks of. -/

-- The alternatives of each proof's `first` are the same list; not every alternative is used in every proof.
set_option linter.unreachableTactic false
set_option linter.unusedTactic false

namespace Sys2Proof.Machine

theorem putUsed_keeps {r : State} {key : Nat} {n : Nat} {s : State} (hs : Keeps r s) :
    Keeps r (putUsed key n s) := by
  unfold putUsed
  repeat' first
    | with_reducible assumption | split | dsimp only | intro _ _ _ | intro _ _ | intro _
    | (with_reducible refine Keeps.mk_over ?_ rfl rfl rfl rfl rfl rfl)

theorem enterFifo_keeps {r : State} {r0 : Rec} {s : State} (hs : Keeps r s) :
    Keeps r (enterFifo r0 s).1 := by
  unfold enterFifo
  try dsimp only
  repeat' first
    | split | with_reducible assumption | with_reducible apply satX_keeps | with_reducible apply foldl_keeps | dsimp only
    | intro _ _ _ | intro _ _ | intro _ | (with_reducible refine Keeps.mk_over ?_ rfl rfl rfl rfl rfl rfl)

theorem offerRec_keeps {r : State} {r0 : Rec} {s : State} (hs : Keeps r s) :
    Keeps r (offerRec r0 s).state := by
  unfold offerRec
  try dsimp only
  repeat' first
    | split | with_reducible assumption | with_reducible apply satX_keeps | with_reducible apply enterFifo_keeps
    | with_reducible apply putUsed_keeps | dsimp only
    | (with_reducible refine Keeps.mk_over ?_ rfl rfl rfl rfl rfl rfl)

theorem sendMsix_keeps {r : State} {v : Nat} {s : State} (hs : Keeps r s) :
    Keeps r (sendMsix v s) := by
  unfold sendMsix
  repeat' first
    | with_reducible assumption | with_reducible apply emit_keeps | with_reducible apply foldl_keeps | split | dsimp only
    | intro _ _ _ | intro _ _ | intro _ | (with_reducible refine Keeps.mk_over ?_ rfl rfl rfl rfl rfl rfl)

theorem signalVector_keeps {r : State} {v : Nat} {s : State} (hs : Keeps r s) :
    Keeps r (signalVector v s) := by
  unfold signalVector
  repeat' first
    | with_reducible assumption | with_reducible apply sendMsix_keeps | with_reducible apply foldl_keeps | split | dsimp only
    | intro _ _ _ | intro _ _ | intro _ | (with_reducible refine Keeps.mk_over ?_ rfl rfl rfl rfl rfl rfl)

theorem refreshSignals_keeps {r : State} {s : State} (hs : Keeps r s) :
    Keeps r (refreshSignals s).1 := by
  exact foldl_keeps (fun a x h => signalVector_keeps h) (Keeps.mk_over hs rfl rfl rfl rfl rfl rfl)

theorem setCause_keeps {r : State} {e : Src} {s : State} (hs : Keeps r s) :
    Keeps r (setCause e s) := by
  unfold setCause
  repeat' first
    | with_reducible assumption | with_reducible apply foldl_keeps | split | dsimp only | intro _ _ _ | intro _ _ | intro _
    | (with_reducible refine Keeps.mk_over ?_ rfl rfl rfl rfl rfl rfl)

theorem setPend_keeps {r : State} {e : Src} {c : Option Nat} {s : State} (hs : Keeps r s) :
    Keeps r (setPend e c s) := by
  unfold setPend
  repeat' first
    | with_reducible assumption | split | dsimp only | intro _ _ _ | intro _ _ | intro _
    | (with_reducible refine Keeps.mk_over ?_ rfl rfl rfl rfl rfl rfl)

theorem countInWindow_keeps {r : State} {e : Src} {s : State} (hs : Keeps r s) :
    Keeps r (countInWindow e s) := by
  unfold countInWindow
  repeat' first
    | with_reducible assumption | split | dsimp only | intro _ _ _ | intro _ _ | intro _
    | (with_reducible refine Keeps.mk_over ?_ rfl rfl rfl rfl rfl rfl)

theorem countAssertion_keeps {r : State} {e : Src} {sup : Bool} {s : State} (hs : Keeps r s) :
    Keeps r (countAssertion e sup s) := by
  unfold countAssertion
  repeat' first
    | with_reducible assumption | with_reducible apply countInWindow_keeps | split | dsimp only | intro _ _ _ | intro _ _
    | intro _ | (with_reducible refine Keeps.mk_over ?_ rfl rfl rfl rfl rfl rfl)

theorem countEdges_keeps {r : State} {n : Nat} {s : State} (hs : Keeps r s) :
    Keeps r (countEdges n s).1 := by
  unfold countEdges
  split
  · exact foldl_fst_keeps (fun a x h => addCtr_keeps h) hs
  · exact hs

/-- What an assertion can do: it sets its own cause and pending bit and is counted, and whatever records, signalling, edge counters and the
sources it brings in turn keep of that state holds after it. -/
theorem assertN_after {P : State → Prop} {n : Nat} {e : Src} {c : Option Nat} {forced : Bool} {s : State}
    (h0 : P (if forced then setPend e c (setCause e s) else
      countAssertion e (!forced && suppresses e (setPend e c (setCause e s))) (setPend e c (setCause e s))))
    (hrec : ∀ r a, P a → P (offerRec r a).state) (hsig : ∀ a, P a → P (refreshSignals a).1) (hedge : ∀ m a, P a → P (countEdges m a).1)
    (hnest : ∀ f ∈ sideSources, ∀ a, P a → P (assertN n f none false a)) : P (assertN (n + 1) e c forced s) := by
  unfold assertN
  extract_lets s1 sup first s2 own masked signal edges
  have h2 : P s2 := h0
  have hown : ∀ a, P a → P (own a) := by
    intro a ha
    unfold own
    try dsimp only
    split
    · split
      · exact hnest _ (by decide) _ (hrec _ _ ha)
      · exact hrec _ _ ha
    · exact ha
  have hmask : ∀ a, P a → P (masked a) := by
    intro a ha
    unfold masked
    try dsimp only
    split
    · exact hnest _ (by decide) _ ha
    · exact ha
  have hs : ∀ a, P a → P (signal a) := by
    intro a ha
    unfold signal
    try dsimp only
    split
    · exact hnest _ (by decide) _ (hsig _ ha)
    · exact hsig _ ha
  have he : ∀ a, P a → P (edges a) := by
    intro a ha
    unfold edges
    try dsimp only
    split
    · exact hnest _ (by decide) _ (hedge _ _ ha)
    · exact hedge _ _ ha
  clear_value own masked signal edges s2
  split
  · exact he _ (hs _ (hmask _ (hown _ h2)))
  · split
    · exact he _ (hown _ (hs _ (hmask _ h2)))
    · exact hown _ (he _ (hs _ (hmask _ h2)))

theorem assertN_keeps {r : State} {n : Nat} {e : Src} {c : Option Nat} {forced : Bool} {s : State} (hs : Keeps r s) :
    Keeps r (assertN n e c forced s) := by
  induction n generalizing e c forced s with
  | zero => exact hs
  | succ n ih =>
    refine assertN_after ?_ (fun _ _ h => offerRec_keeps h) (fun _ h => refreshSignals_keeps h) (fun _ _ h => countEdges_keeps h)
      (fun _ _ _ h => ih h)
    split
    · exact setPend_keeps (setCause_keeps hs)
    · exact countAssertion_keeps (setPend_keeps (setCause_keeps hs))

theorem raise_keeps {r : State} {e : Src} {s : State} (hs : Keeps r s) :
    Keeps r (raise e s) := by
  unfold raise
  repeat' first
    | with_reducible assumption | with_reducible apply assertN_keeps | with_reducible apply foldl_keeps | split | dsimp only
    | intro _ _ _ | intro _ _ | intro _ | (with_reducible refine Keeps.mk_over ?_ rfl rfl rfl rfl rfl rfl)

theorem raiseC_keeps {r : State} {e : Src} {c : Nat} {s : State} (hs : Keeps r s) :
    Keeps r (raiseC e c s) := by
  unfold raiseC
  repeat' first
    | with_reducible assumption | with_reducible apply assertN_keeps | with_reducible apply foldl_keeps | split | dsimp only
    | intro _ _ _ | intro _ _ | intro _ | (with_reducible refine Keeps.mk_over ?_ rfl rfl rfl rfl rfl rfl)

theorem raiseForced_keeps {r : State} {e : Src} {c : Option Nat} {s : State} (hs : Keeps r s) :
    Keeps r (raiseForced e c s) := by
  unfold raiseForced
  repeat' first
    | with_reducible assumption | with_reducible apply assertN_keeps | with_reducible apply foldl_keeps | split | dsimp only
    | intro _ _ _ | intro _ _ | intro _ | (with_reducible refine Keeps.mk_over ?_ rfl rfl rfl rfl rfl rfl)

theorem raiseOn_keeps {r : State} {b : Block} {e : Src} {c : Nat} {s : State} (hs : Keeps r s) :
    Keeps r (raiseOn b e c s) := by
  unfold raiseOn
  repeat' first
    | with_reducible assumption | with_reducible apply raiseC_keeps | with_reducible apply foldl_keeps | split | dsimp only
    | intro _ _ _ | intro _ _ | intro _ | (with_reducible refine Keeps.mk_over ?_ rfl rfl rfl rfl rfl rfl)

theorem resignal_keeps {r : State} {s : State} (hs : Keeps r s) :
    Keeps r (resignal s) := by
  unfold resignal
  repeat' first
    | with_reducible assumption | with_reducible apply refreshSignals_keeps | with_reducible apply raise_keeps
    | with_reducible apply foldl_keeps | split | dsimp only | intro _ _ _ | intro _ _ | intro _ | (refine Keeps.fst ?_ ‹_›)
    | (with_reducible refine Keeps.mk_over ?_ rfl rfl rfl rfl rfl rfl)

theorem writeRec_keeps {r : State} {code : Nat} {sev : Nat} {block : Nat} {chan : Nat} {payload : List Byte} {s : State} (hs : Keeps r s) :
    Keeps r (writeRec code sev block chan payload s) := by
  unfold writeRec
  repeat' first
    | with_reducible assumption | with_reducible apply offerRec_keeps | with_reducible apply raise_keeps
    | with_reducible apply foldl_keeps | split | dsimp only | intro _ _ _ | intro _ _ | intro _
    | (with_reducible refine Keeps.mk_over ?_ rfl rfl rfl rfl rfl rfl)

theorem count_keeps {r : State} {k : CtrSet} {i : Nat} {c : Nat} {d : Nat} {s : State} (hs : Keeps r s) :
    Keeps r (count k i c d s) := by
  unfold count
  repeat' first
    | with_reducible assumption | with_reducible apply addCtr_keeps | with_reducible apply raiseC_keeps
    | with_reducible apply raise_keeps | with_reducible apply foldl_keeps | split | dsimp only | intro _ _ _ | intro _ _
    | intro _ | (refine Keeps.fst ?_ ‹_›) | (with_reducible refine Keeps.mk_over ?_ rfl rfl rfl rfl rfl rfl)

theorem countPcn_keeps {r : State} {i : Nat} {d : Nat} {s : State} (hs : Keeps r s) :
    Keeps r (countPcn i d s) := by
  unfold countPcn
  repeat' first
    | with_reducible assumption | with_reducible apply addCtr_keeps | with_reducible apply raise_keeps
    | with_reducible apply foldl_keeps | split | dsimp only | intro _ _ _ | intro _ _ | intro _ | (refine Keeps.fst ?_ ‹_›)
    | (with_reducible refine Keeps.mk_over ?_ rfl rfl rfl rfl rfl rfl)

theorem histPut_keeps {r : State} {h0 : Nat} {v : Nat} {s : State} (hs : Keeps r s) :
    Keeps r (histPut h0 v s) := by
  unfold histPut
  repeat' first
    | with_reducible assumption | with_reducible apply raise_keeps | with_reducible apply foldl_keeps | split | dsimp only
    | intro _ _ _ | intro _ _ | intro _ | (with_reducible refine Keeps.mk_over ?_ rfl rfl rfl rfl rfl rfl)

theorem measure_keeps {r : State} {source : Nat} {sel : Nat} {cls : Nat} {v : Nat} {s : State} (hs : Keeps r s) :
    Keeps r (measure source sel cls v s) := by
  unfold measure
  repeat' first
    | with_reducible assumption | with_reducible apply foldOver_keeps | with_reducible apply histPut_keeps
    | with_reducible apply foldl_keeps | split | dsimp only | intro _ _ _ | intro _ _ | intro _
    | (with_reducible refine Keeps.mk_over ?_ rfl rfl rfl rfl rfl rfl)

end Sys2Proof.Machine
end

