-- ==== Sys2Proof/Laws/AccessKeeps.lean ====
section
/-! SUPPORT. Every operation of Machine/Access.lean keeps what `Keeps` speaks of. -/

-- The alternatives of each proof's `first` are the same list; not every alternative is used in every proof.
set_option linter.unreachableTactic false
set_option linter.unusedTactic false

namespace Sys2Proof.Machine

theorem accessError_keeps {r : State} {w : Window} {off : Nat} {write : Bool} {s : State} (hs : Keeps r s) :
    Keeps r (accessError w off write s) := by
  unfold accessError
  repeat' first
    | with_reducible assumption | with_reducible apply raise_keeps | with_reducible apply wr_keeps
    | with_reducible apply foldl_keeps | split | dsimp only | intro _ _ _ | intro _ _ | intro _
    | (with_reducible refine Keeps.mk_over ?_ rfl rfl rfl rfl rfl rfl)

theorem putOwner_keeps {r : State} {b : Block} {o : OwnerSt} {s : State} (hs : Keeps r s) :
    Keeps r (putOwner b o s) := by
  unfold putOwner
  repeat' first
    | with_reducible assumption | with_reducible apply foldl_keeps | split | dsimp only | intro _ _ _ | intro _ _ | intro _
    | (with_reducible refine Keeps.mk_over ?_ rfl rfl rfl rfl rfl rfl)

theorem ownerDenied_keeps {r : State} {b : Block} {s : State} (hs : Keeps r s) :
    Keeps r (ownerDenied b s) := by
  unfold ownerDenied
  repeat' first
    | with_reducible assumption | with_reducible apply raise_keeps | with_reducible apply putOwner_keeps
    | with_reducible apply foldl_keeps | split | dsimp only | intro _ _ _ | intro _ _ | intro _
    | (with_reducible refine Keeps.mk_over ?_ rfl rfl rfl rfl rfl rfl)

theorem badWrite_keeps {r : State} {w : Window} {b : Block} {off : Nat} {s : State} (hs : Keeps r s) :
    Keeps r (badWrite w b off s) := by
  unfold badWrite
  repeat' first
    | with_reducible assumption | with_reducible apply accessError_keeps | with_reducible apply ownerDenied_keeps | split
    | dsimp only | intro _ _ _ | intro _ _ | intro _ | (with_reducible refine Keeps.mk_over ?_ rfl rfl rfl rfl rfl rfl)

theorem writing_keeps {r : State} {w : Window} {b : Block} {f : State → State} {s : State} (hf : ∀ x0, Keeps r x0 → Keeps r (f x0)) (hs : Keeps r s) :
    Keeps r (writing w b f s) := by
  unfold writing
  repeat' first
    | with_reducible assumption | with_reducible apply hf | with_reducible apply sat1_keeps
    | with_reducible apply ownerDenied_keeps | with_reducible apply foldl_keeps | split | dsimp only | intro _ _ _ | intro _ _
    | intro _ | (with_reducible refine Keeps.mk_over ?_ rfl rfl rfl rfl rfl rfl)

theorem writingFree_keeps {r : State} {w : Window} {b : Block} {f : State → State} {s : State} (hf : ∀ x0, Keeps r x0 → Keeps r (f x0)) (hs : Keeps r s) :
    Keeps r (writingFree w b f s) := by
  unfold writingFree
  repeat' first
    | with_reducible assumption | with_reducible apply hf | with_reducible apply sat1_keeps | with_reducible apply foldl_keeps
    | split | dsimp only | intro _ _ _ | intro _ _ | intro _ | (with_reducible refine Keeps.mk_over ?_ rfl rfl rfl rfl rfl rfl)

theorem writingC_keeps {r : State} {w : Window} {b : Block} {f : Nat → State → State} {s : State} (hf : ∀ x0 x1, Keeps r x1 → Keeps r (f x0 x1)) (hs : Keeps r s) :
    Keeps r (writingC w b f s) := by
  unfold writingC
  repeat' first
    | with_reducible assumption | with_reducible apply hf | with_reducible apply writing_keeps
    | with_reducible apply foldl_keeps | split | dsimp only | intro _ _ _ | intro _ _ | intro _
    | (with_reducible refine Keeps.mk_over ?_ rfl rfl rfl rfl rfl rfl)

theorem reading_keeps {r : State} {w : Window} {f : State → State} {s : State} (hf : ∀ x0, Keeps r x0 → Keeps r (f x0)) (hs : Keeps r s) :
    Keeps r (reading w f s) := by
  unfold reading
  repeat' first
    | with_reducible assumption | with_reducible apply hf | with_reducible apply foldl_keeps | split | dsimp only | intro _ _ _
    | intro _ _ | intro _ | (with_reducible refine Keeps.mk_over ?_ rfl rfl rfl rfl rfl rfl)

theorem putCommit_keeps {r : State} {b : Block} {c : CommitSt} {s : State} (hs : Keeps r s) :
    Keeps r (putCommit b c s) := by
  unfold putCommit
  repeat' first
    | with_reducible assumption | with_reducible apply foldl_keeps | split | dsimp only | intro _ _ _ | intro _ _ | intro _
    | (with_reducible refine Keeps.mk_over ?_ rfl rfl rfl rfl rfl rfl)

theorem commitRefused_keeps {r : State} {b : Block} {code : Nat} {s : State} (hs : Keeps r s) :
    Keeps r (commitRefused b code s) := by
  unfold commitRefused
  repeat' first
    | with_reducible assumption | with_reducible apply raise_keeps | with_reducible apply sat1_keeps
    | with_reducible apply wr_keeps | with_reducible apply putCommit_keeps | with_reducible apply foldl_keeps | split
    | dsimp only | intro _ _ _ | intro _ _ | intro _ | (with_reducible refine Keeps.mk_over ?_ rfl rfl rfl rfl rfl rfl)

theorem shadowRefused_keeps {r : State} {b : Block} {s : State} (hs : Keeps r s) :
    Keeps r (shadowRefused b s) := by
  unfold shadowRefused
  repeat' first
    | with_reducible assumption | with_reducible apply putCommit_keeps | with_reducible apply foldl_keeps | split | dsimp only
    | intro _ _ _ | intro _ _ | intro _ | (with_reducible refine Keeps.mk_over ?_ rfl rfl rfl rfl rfl rfl)

theorem storeFields_keeps {r : State} {b : Block} {off : Nat} {c : Nat} {v : Word} {s : State} (hs : Keeps r s) :
    Keeps r (storeFields b off c v s) := by
  unfold storeFields
  repeat' first
    | with_reducible assumption | with_reducible apply shadowRefused_keeps | with_reducible apply putReg_keeps
    | with_reducible apply foldl_keeps | split | dsimp only | intro _ _ _ | intro _ _ | intro _
    | (with_reducible refine Keeps.mk_over ?_ rfl rfl rfl rfl rfl rfl)

end Sys2Proof.Machine
end

