-- ==== Sys2Proof/Laws/Registers.lean ====
section
/-! SUPPORT. Fields of words and registers: a read after a write of the same field gives what was written, a write leaves every other
field as it was. -/

namespace Sys2Proof.Machine

/-! ### Fields of numbers and words -/

theorem bitsOf_eq (x lo n : Nat) : bitsOf x lo n = x / 2 ^ lo % 2 ^ n := by
  rw [bitsOf, Nat.shiftRight_eq_div_pow]

theorem bitsOf_lt (x lo n : Nat) : bitsOf x lo n < 2 ^ n := Nat.mod_lt _ (Nat.two_pow_pos n)

/-- A number in three parts around a field. -/
theorem field_split (x lo n : Nat) : x = x / 2 ^ (lo + n) * 2 ^ (lo + n) + bitsOf x lo n * 2 ^ lo + x % 2 ^ lo := by
  have h1 := Nat.div_add_mod x (2 ^ lo)
  have h2 := Nat.div_add_mod (x / 2 ^ lo) (2 ^ n)
  rw [Nat.div_div_eq_div_mul, ← Nat.pow_add] at h2
  rw [bitsOf_eq]
  conv => lhs; rw [← h1, ← h2]
  rw [Nat.pow_add, Nat.mul_add]
  ac_rfl

theorem withBits_eq (x lo n v : Nat) :
    withBits x lo n v = x / 2 ^ (lo + n) * 2 ^ (lo + n) + (v % 2 ^ n) * 2 ^ lo + x % 2 ^ lo := by
  have h := field_split x lo n
  unfold withBits
  omega

theorem withBits_mod (x lo n v : Nat) : withBits x lo n v % 2 ^ lo = x % 2 ^ lo := by
  rw [withBits_eq, Nat.pow_add, show x / (2 ^ lo * 2 ^ n) * (2 ^ lo * 2 ^ n) + v % 2 ^ n * 2 ^ lo + x % 2 ^ lo
    = x % 2 ^ lo + 2 ^ lo * (x / (2 ^ lo * 2 ^ n) * 2 ^ n + v % 2 ^ n) by
      rw [Nat.mul_add]; ac_rfl, Nat.add_mul_mod_self_left, Nat.mod_mod]

theorem withBits_div (x lo n v : Nat) : withBits x lo n v / 2 ^ lo = x / 2 ^ (lo + n) * 2 ^ n + v % 2 ^ n := by
  rw [withBits_eq, Nat.pow_add, show x / (2 ^ lo * 2 ^ n) * (2 ^ lo * 2 ^ n) + v % 2 ^ n * 2 ^ lo + x % 2 ^ lo
    = x % 2 ^ lo + 2 ^ lo * (x / (2 ^ lo * 2 ^ n) * 2 ^ n + v % 2 ^ n) by
      rw [Nat.mul_add]; ac_rfl, Nat.add_mul_div_left _ _ (Nat.two_pow_pos lo),
    Nat.div_eq_of_lt (Nat.mod_lt _ (Nat.two_pow_pos lo)), Nat.zero_add]

theorem bitsOf_withBits_same (x lo n v : Nat) : bitsOf (withBits x lo n v) lo n = v % 2 ^ n := by
  rw [bitsOf_eq, withBits_div, Nat.add_comm, Nat.add_mul_mod_self_right, Nat.mod_mod]

theorem bitsOf_withBits_above {x lo n v lo' n' : Nat} (h : lo + n ≤ lo') : bitsOf (withBits x lo n v) lo' n' = bitsOf x lo' n' := by
  obtain ⟨k, rfl⟩ := Nat.exists_eq_add_of_le h
  have hv (a b : Nat) (hb : b < 2 ^ n) : (a * 2 ^ n + b) / 2 ^ n = a := by
    rw [Nat.add_comm, Nat.add_mul_div_right _ _ (Nat.two_pow_pos n), Nat.div_eq_of_lt hb, Nat.zero_add]
  have hx (y : Nat) : y / 2 ^ (lo + n + k) = y / 2 ^ lo / 2 ^ n / 2 ^ k := by
    rw [Nat.pow_add, Nat.pow_add, Nat.div_div_eq_div_mul, Nat.div_div_eq_div_mul, Nat.mul_assoc]
  have hl : x / 2 ^ (lo + n) = x / 2 ^ lo / 2 ^ n := by rw [Nat.pow_add, Nat.div_div_eq_div_mul]
  rw [bitsOf_eq, bitsOf_eq, hx, hx, withBits_div, hv _ _ (Nat.mod_lt _ (Nat.two_pow_pos n)), hl]

theorem bitsOf_of_mod_eq {x y lo' n' m : Nat} (h : x % 2 ^ m = y % 2 ^ m) (hm : lo' + n' ≤ m) : bitsOf x lo' n' = bitsOf y lo' n' := by
  have key : ∀ z : Nat, bitsOf z lo' n' = z % 2 ^ m / 2 ^ lo' % 2 ^ n' := by
    intro z
    obtain ⟨k, rfl⟩ := Nat.exists_eq_add_of_le hm
    rw [bitsOf_eq, Nat.add_assoc, Nat.pow_add, Nat.mod_mul_right_div_self, Nat.mod_mod_of_dvd _ (Nat.pow_dvd_pow 2 (by omega))]
  rw [key, key, h]

theorem bitsOf_withBits_below {x lo n v lo' n' : Nat} (h : lo' + n' ≤ lo) : bitsOf (withBits x lo n v) lo' n' = bitsOf x lo' n' :=
  bitsOf_of_mod_eq (withBits_mod x lo n v) h

theorem wordField_lt (w : Word) (lo n : Nat) : wordField w lo n < 2 ^ n := bitsOf_lt _ _ _

theorem wordField_wordWith (w : Word) {lo n lo' n' v : Nat} (h : lo' + n' ≤ 32) :
    wordField (wordWith w lo n v) lo' n' = bitsOf (withBits w.toNat lo n v) lo' n' := by
  unfold wordField wordWith
  rw [BitVec.toNat_ofNat]
  exact bitsOf_of_mod_eq (Nat.mod_mod _ _) h

/-- The field just set reads as the value set. -/
theorem wordField_wordWith_same (w : Word) {lo n v : Nat} (h : lo + n ≤ 32) : wordField (wordWith w lo n v) lo n = v % 2 ^ n := by
  rw [wordField_wordWith w h, bitsOf_withBits_same]

/-- A field apart from the one set is unchanged. -/
theorem wordField_wordWith_other (w : Word) {lo n lo' n' v : Nat} (h : lo' + n' ≤ 32) (hd : lo + n ≤ lo' ∨ lo' + n' ≤ lo) :
    wordField (wordWith w lo n v) lo' n' = wordField w lo' n' := by
  rw [wordField_wordWith w h]
  rcases hd with hd | hd
  · exact bitsOf_withBits_above hd
  · exact bitsOf_withBits_below hd

theorem testBit_bitsOf (x lo n i : Nat) : (bitsOf x lo n).testBit i = (decide (i < n) && x.testBit (lo + i)) := by
  rw [bitsOf, Nat.testBit_mod_two_pow, Nat.testBit_shiftRight]

/-- Bit `j` of a word with a field replaced. -/
theorem getLsbD_wordWith (w : Word) (lo n v j : Nat) :
    (wordWith w lo n v).getLsbD j =
      (decide (j < 32) && if lo ≤ j ∧ j < lo + n then v.testBit (j - lo) else w.getLsbD j) := by
  unfold wordWith
  rw [BitVec.getLsbD_ofNat]
  congr 1
  have key (y : Nat) : y.testBit j = decide (bitsOf y j 1 = 1) := by
    rw [bitsOf_eq, Nat.pow_one, Nat.testBit_eq_decide_div_mod_eq]
  by_cases h : lo ≤ j ∧ j < lo + n
  · rw [if_pos h]
    have h1 := testBit_bitsOf (withBits w.toNat lo n v) lo n (j - lo)
    rw [bitsOf_withBits_same, Nat.testBit_mod_two_pow] at h1
    have h2 : j - lo < n := by omega
    have h3 : lo + (j - lo) = j := by omega
    simpa [h2, h3] using h1.symm
  · rw [if_neg h, key, BitVec.getLsbD, key]
    by_cases hb : j < lo
    · rw [bitsOf_withBits_below (by omega)]
    · rw [bitsOf_withBits_above (by omega)]

theorem testBit_wordField (w : Word) (lo n i : Nat) : (wordField w lo n).testBit i = (decide (i < n) && w.getLsbD (lo + i)) :=
  testBit_bitsOf _ _ _ _

/-! ### Registers -/

theorem rkey_ne {off inst off' inst' : Nat} (h : off < 0x40000) (h' : off' < 0x40000) (hne : off ≠ off' ∨ inst ≠ inst') :
    rkey off inst ≠ rkey off' inst' := by
  unfold rkey; omega

@[simp] theorem reg_putReg_same (off inst : Nat) (v : Word) (s : State) : reg off inst (putReg off inst v s) = v :=
  sget_sset_same regReset s.fab.regs (rkey off inst) v

theorem reg_putReg_other {off inst off' inst' : Nat} (v : Word) (s : State) (h : rkey off' inst' ≠ rkey off inst) :
    reg off' inst' (putReg off inst v s) = reg off' inst' s :=
  sget_sset_other regReset s.fab.regs v h

@[simp] theorem liveReg_putReg (off inst off' inst' : Nat) (v : Word) (s : State) :
    liveReg off' inst' (putReg off inst v s) = liveReg off' inst' s := rfl

@[simp] theorem liveReg_wrX (f : Fld) (i c v off inst : Nat) (s : State) : liveReg off inst (wrX f i c v s) = liveReg off inst s := rfl

@[simp] theorem cfX_wrX (f : Fld) (i c v : Nat) (g : Fld) (j d : Nat) (s : State) : cfX g j d (wrX f i c v s) = cfX g j d s := rfl

@[simp] theorem cfX_putReg (off inst : Nat) (v : Word) (g : Fld) (j d : Nat) (s : State) : cfX g j d (putReg off inst v s) = cfX g j d s :=
  rfl

/-- The field lies within the register word. -/
def Fld.ok (f : Fld) : Bool := decide (f.lo + f.w ≤ 32)

/-- Writing field `f` of element `i`, copy `c`, leaves field `g` of element `j`, copy `d`, alone: another register, or other bits. -/
def fieldsApart (f : Fld) (i c : Nat) (g : Fld) (j d : Nat) : Bool :=
  decide (g.lo + g.w ≤ 32 ∧
    (rkey (g.off + j * g.stride) d ≠ rkey (f.off + i * f.stride) c ∨ f.lo + f.w ≤ g.lo ∨ g.lo + g.w ≤ f.lo))

theorem rdX_wrX_same (f : Fld) (i c v : Nat) (s : State) (h : f.ok = true) : rdX f i c (wrX f i c v s) = v % 2 ^ f.w := by
  unfold rdX wrX
  rw [reg_putReg_same]
  exact wordField_wordWith_same _ (of_decide_eq_true h)

theorem rdX_wrX_other {f : Fld} {i c : Nat} {g : Fld} {j d : Nat} (v : Nat) (s : State) (h : fieldsApart f i c g j d = true) :
    rdX g j d (wrX f i c v s) = rdX g j d s := by
  have h' := of_decide_eq_true h
  unfold rdX wrX
  by_cases hk : rkey (g.off + j * g.stride) d = rkey (f.off + i * f.stride) c
  · have : reg (g.off + j * g.stride) d = reg (f.off + i * f.stride) c := by
      funext t; unfold reg; rw [hk]
    rw [this, reg_putReg_same]
    exact wordField_wordWith_other _ h'.1 (h'.2.resolve_left (fun hn => hn hk))
  · rw [reg_putReg_other _ _ hk]

/-- Fields of disjoint bits do not meet, whichever registers they lie in. -/
def bitsApart (f g : Fld) : Bool := decide (g.lo + g.w ≤ 32 ∧ (f.lo + f.w ≤ g.lo ∨ g.lo + g.w ≤ f.lo))

theorem rdX_wrX_bits {f g : Fld} {i c j d : Nat} (v : Nat) (s : State) (h : bitsApart f g = true) :
    rdX g j d (wrX f i c v s) = rdX g j d s :=
  rdX_wrX_other v s (decide_eq_true ⟨(of_decide_eq_true h).1, Or.inr (of_decide_eq_true h).2⟩)

/-- Registers of different window offsets do not meet, whichever their copies. -/
def offsApart (f : Fld) (i : Nat) (g : Fld) (j : Nat) : Bool :=
  decide (g.lo + g.w ≤ 32 ∧ (g.off + j * g.stride) % 0x40000 ≠ (f.off + i * f.stride) % 0x40000)

theorem rdX_wrX_offs {f : Fld} {i : Nat} {g : Fld} {j : Nat} {c d : Nat} (v : Nat) (s : State) (h : offsApart f i g j = true) :
    rdX g j d (wrX f i c v s) = rdX g j d s := by
  refine rdX_wrX_other v s (decide_eq_true ⟨(of_decide_eq_true h).1, Or.inl (fun hk => (of_decide_eq_true h).2 ?_)⟩)
  unfold rkey at hk
  omega

/-- Another copy of the register of a field is not touched. -/
theorem rdX_wrX_copy {f g : Fld} {i j c d : Nat} (v : Nat) (s : State) (h : d ≠ c)
    (ho : (decide (f.off + i * f.stride < 0x40000) && decide (g.off + j * g.stride < 0x40000)) = true) :
    rdX g j d (wrX f i c v s) = rdX g j d s := by
  rw [Bool.and_eq_true, decide_eq_true_eq, decide_eq_true_eq] at ho
  unfold rdX wrX
  rw [reg_putReg_other]
  unfold rkey
  omega

/-- One register, likewise. -/
theorem reg_congr {s t : State} {off inst : Nat} (h : t.fab.regs = s.fab.regs) : reg off inst t = reg off inst s := by
  unfold reg; rw [h]

/-- Registers are a part of the state of their own. -/
theorem rdX_congr {s t : State} {f : Fld} {i c : Nat} (h : t.fab.regs = s.fab.regs) : rdX f i c t = rdX f i c s := by
  unfold rdX reg; rw [h]

/-! ### Registers do not depend on the rest of the state -/

@[simp] theorem rdX_with_pending (f : Fld) (i c : Nat) (s : State) (x : List Instr) : rdX f i c { s with pending := x } = rdX f i c s := rfl

@[simp] theorem rdX_with_variant (f : Fld) (i c : Nat) (s : State) (x : Variant) : rdX f i c { s with variant := x } = rdX f i c s := rfl

@[simp] theorem rdX_with_evt (f : Fld) (i c : Nat) (s : State) (x : Events) : rdX f i c { s with evt := x } = rdX f i c s := rfl

@[simp] theorem rdX_with_tmk (f : Fld) (i c : Nat) (s : State) (x : Touchmark) : rdX f i c { s with tmk := x } = rdX f i c s := rfl

@[simp] theorem rdX_with_pcn (f : Fld) (i c : Nat) (s : State) (x : Pcn) : rdX f i c { s with pcn := x } = rdX f i c s := rfl

@[simp] theorem rdX_with_tim (f : Fld) (i c : Nat) (s : State) (x : TimeIsland) : rdX f i c { s with tim := x } = rdX f i c s := rfl

@[simp] theorem rdX_with_pwr (f : Fld) (i c : Nat) (s : State) (x : Power) : rdX f i c { s with pwr := x } = rdX f i c s := rfl

@[simp] theorem rdX_with_start (f : Fld) (i c : Nat) (s : State) (x : Startup) : rdX f i c { s with start := x } = rdX f i c s := rfl

@[simp] theorem rdX_with_lanes (f : Fld) (i c : Nat) (s : State) (x : Lanes) : rdX f i c { s with lanes := x } = rdX f i c s := rfl

@[simp] theorem rdX_with_l2 (f : Fld) (i c : Nat) (s : State) (x : L2State) : rdX f i c { s with l2 := x } = rdX f i c s := rfl

@[simp] theorem rdX_with_lpm (f : Fld) (i c : Nat) (s : State) (x : LpmState) : rdX f i c { s with lpm := x } = rdX f i c s := rfl

@[simp] theorem rdX_with_frames (f : Fld) (i c : Nat) (s : State) (x : Sparse Frame) : rdX f i c { s with frames := x } = rdX f i c s := rfl

@[simp] theorem rdX_with_nextFrame (f : Fld) (i c : Nat) (s : State) (x : Nat) : rdX f i c { s with nextFrame := x } = rdX f i c s := rfl

@[simp] theorem rdX_with_rx (f : Fld) (i c : Nat) (s : State) (x : Sparse RxPort) : rdX f i c { s with rx := x } = rdX f i c s := rfl

@[simp] theorem rdX_with_ver (f : Fld) (i c : Nat) (s : State) (x : Versions) : rdX f i c { s with ver := x } = rdX f i c s := rfl

@[simp] theorem rdX_with_pools (f : Fld) (i c : Nat) (s : State) (x : Pools) : rdX f i c { s with pools := x } = rdX f i c s := rfl

@[simp] theorem rdX_with_sw (f : Fld) (i c : Nat) (s : State) (x : Switch) : rdX f i c { s with sw := x } = rdX f i c s := rfl

@[simp] theorem rdX_with_egr (f : Fld) (i c : Nat) (s : State) (x : Egress) : rdX f i c { s with egr := x } = rdX f i c s := rfl

@[simp] theorem rdX_with_flow (f : Fld) (i c : Nat) (s : State) (x : FlowState) : rdX f i c { s with flow := x } = rdX f i c s := rfl

@[simp] theorem rdX_with_dsp (f : Fld) (i c : Nat) (s : State) (x : Dispatch) : rdX f i c { s with dsp := x } = rdX f i c s := rfl

@[simp] theorem rdX_with_fen (f : Fld) (i c : Nat) (s : State) (x : Engines) : rdX f i c { s with fen := x } = rdX f i c s := rfl

@[simp] theorem rdX_with_bq (f : Fld) (i c : Nat) (s : State) (x : Sparse BenchQueue) : rdX f i c { s with bq := x } = rdX f i c s := rfl

@[simp] theorem rdX_with_mesh (f : Fld) (i c : Nat) (s : State) (x : Mesh) : rdX f i c { s with mesh := x } = rdX f i c s := rfl

@[simp] theorem rdX_with_fw (f : Fld) (i c : Nat) (s : State) (x : Firmware) : rdX f i c { s with fw := x } = rdX f i c s := rfl

@[simp] theorem rdX_with_recov (f : Fld) (i c : Nat) (s : State) (x : Recovery) : rdX f i c { s with recov := x } = rdX f i c s := rfl

@[simp] theorem rdX_with_io (f : Fld) (i c : Nat) (s : State) (x : SlowIo) : rdX f i c { s with io := x } = rdX f i c s := rfl

@[simp] theorem rdX_with_out (f : Fld) (i c : Nat) (s : State) (x : List Output) : rdX f i c { s with out := x } = rdX f i c s := rfl

theorem rd_wr_same (f : Fld) (v : Nat) (s : State) (h : f.ok = true) : rd f (wr f v s) = v % 2 ^ f.w := rdX_wrX_same f 0 0 v s h

theorem rd_wr_other {f g : Fld} (v : Nat) (s : State) (h : fieldsApart f 0 0 g 0 0 = true) : rd g (wr f v s) = rd g s := rdX_wrX_other v s h

theorem rdC_wrC_same (f : Fld) (c v : Nat) (s : State) (h : f.ok = true) : rdC f c (wrC f c v s) = v % 2 ^ f.w :=
  rdX_wrX_same f 0 c v s h

theorem rdC_wrC_other {f : Fld} {c : Nat} {g : Fld} {d : Nat} (v : Nat) (s : State) (h : fieldsApart f 0 c g 0 d = true) :
    rdC g d (wrC f c v s) = rdC g d s := rdX_wrX_other v s h

theorem rdX_lt (f : Fld) (i c : Nat) (s : State) : rdX f i c s < 2 ^ f.w := wordField_lt _ _ _

/-- A write of a field that the register also holds elsewhere touches no register of another key. -/
theorem reg_wrX_other {f : Fld} {i c off inst : Nat} (v : Nat) (s : State) (h : rkey off inst ≠ rkey (f.off + i * f.stride) c) :
    reg off inst (wrX f i c v s) = reg off inst s := reg_putReg_other _ _ h

/-! ### Targets, commits, owners, latches -/

theorem find_blockCode (b : Block) : allBlocks.find? (fun x => blockCode x == blockCode b) = some b := by cases b <;> rfl

/-- No two blocks have the same code (R105). -/
theorem blockCode_inj {b b' : Block} (h : blockCode b' = blockCode b) : b' = b := by
  have h1 := find_blockCode b'
  rw [h, find_blockCode b] at h1
  exact (Option.some.inj h1).symm

@[simp] theorem tgt_putTgt_same (t : Target) (x : Tgt) (s : State) : tgt t (putTgt t x s) = x :=
  sget_sset_same tgtReset s.fab.targets (tgtKey t) x

theorem tgt_putTgt_other {t u : Target} (x : Tgt) (s : State) (h : tgtKey u ≠ tgtKey t) : tgt u (putTgt t x s) = tgt u s :=
  sget_sset_other tgtReset s.fab.targets x h

end Sys2Proof.Machine
end

