-- ==== Sys2Proof/Laws/Events.lean ====
section
/-! SUPPORT. What an assertion, a record and a count can do: `OnlyEvents`, said once for each shared operation, and that the cause bit of the
source asserted stands afterwards. -/

-- The alternatives of each proof's `first` are the same list; not every alternative is used in every proof.
set_option linter.unreachableTactic false
set_option linter.unusedTactic false

namespace Sys2Proof.Machine

theorem Changes.refl (s : State) {ks cs : List Nat} : Changes ks cs s s :=
  ⟨rfl, fun _ _ _ => rfl, fun _ _ _ => rfl, fun _ h => h, ⟨rfl, rfl, rfl⟩, rfl, List.prefix_rfl⟩

theorem OnlyEvents.refl (s : State) : OnlyEvents s s := Changes.refl s

theorem Changes.trans {ks cs : List Nat} {r s t : State} (h : Changes ks cs r s) (k : Changes ks cs s t) : Changes ks cs r t :=
  ⟨k.rest.trans h.rest, fun x hx hn => (k.regs x hx hn).trans (h.regs x hx hn),
   fun x hx hn => (k.counters x hx hn).trans (h.counters x hx hn), fun e he => k.causes e (h.causes e he),
   ⟨k.control.1.trans h.control.1, k.control.2.1.trans h.control.2.1, k.control.2.2.trans h.control.2.2⟩, k.stage.trans h.stage,
   h.out.trans k.out⟩

theorem OnlyEvents.trans {r s t : State} (h : OnlyEvents r s) (k : OnlyEvents s t) : OnlyEvents r t := Changes.trans h k

/-- A change within fewer keys is a change within more. -/
theorem Changes.mono {ks cs js ds : List Nat} {s t : State} (h : Changes ks cs s t) (hk : ∀ k ∈ ks, k ∈ js) (hc : ∀ k ∈ cs, k ∈ ds) :
    Changes js ds s t :=
  ⟨h.rest, fun x hx hn => h.regs x hx (fun m => hn (hk x m)), fun x hx hn => h.counters x hx (fun m => hn (hc x m)), h.causes, h.control,
   h.stage, h.out⟩

theorem OnlyEvents.changes {ks cs : List Nat} {s t : State} (h : OnlyEvents s t) : Changes ks cs s t :=
  h.mono (fun _ m => absurd m List.not_mem_nil) (fun _ m => absurd m List.not_mem_nil)

/-- Events after a change. -/
theorem Changes.events {ks cs : List Nat} {r s t : State} (h : Changes ks cs r s) (k : OnlyEvents s t) : Changes ks cs r t :=
  h.trans k.changes

theorem Changes.reg {ks cs : List Nat} {s t : State} (h : Changes ks cs s t) {off inst : Nat} (hk : ¬ StatKey (rkey off inst))
    (hn : rkey off inst ∉ ks) : reg off inst t = reg off inst s := h.regs _ hk hn

theorem Changes.rdX {ks cs : List Nat} {s t : State} (h : Changes ks cs s t) {f : Fld} {i c : Nat} (hk : ¬ StatKey (keyOfField f i c))
    (hn : keyOfField f i c ∉ ks) : rdX f i c t = rdX f i c s := by
  unfold Sys2Proof.Machine.rdX
  rw [h.reg hk hn]

theorem OnlyEvents.rdX {s t : State} (h : OnlyEvents s t) {f : Fld} {i c : Nat} (hk : ¬ StatKey (keyOfField f i c)) :
    rdX f i c t = rdX f i c s := Changes.rdX h hk List.not_mem_nil

theorem OnlyEvents.reg {s t : State} (h : OnlyEvents s t) {off inst : Nat} (hk : ¬ StatKey (rkey off inst)) :
    reg off inst t = reg off inst s := Changes.reg h hk List.not_mem_nil

theorem Changes.live {ks cs : List Nat} {s t : State} (h : Changes ks cs s t) : t.fab.live = s.fab.live :=
  congrArg (fun s => s.fab.live) h.rest

theorem Changes.cfX {ks cs : List Nat} {s t : State} (h : Changes ks cs s t) (f : Fld) (i c : Nat) : cfX f i c t = cfX f i c s := by
  unfold Sys2Proof.Machine.cfX liveReg
  rw [h.live]

theorem Changes.targets {ks cs : List Nat} {s t : State} (h : Changes ks cs s t) : t.fab.targets = s.fab.targets :=
  congrArg (fun s => s.fab.targets) h.rest

theorem Changes.tgt {ks cs : List Nat} {s t : State} (h : Changes ks cs s t) (x : Target) : tgt x t = tgt x s := by
  unfold Sys2Proof.Machine.tgt
  rw [h.targets]

theorem Changes.pending {ks cs : List Nat} {s t : State} (h : Changes ks cs s t) : t.pending = s.pending := congrArg (fun s => s.pending) h.rest
theorem Changes.variant {ks cs : List Nat} {s t : State} (h : Changes ks cs s t) : t.variant = s.variant := congrArg (fun s => s.variant) h.rest
theorem Changes.pcn {ks cs : List Nat} {s t : State} (h : Changes ks cs s t) : t.pcn = s.pcn := congrArg (fun s => s.pcn) h.rest
theorem Changes.tim {ks cs : List Nat} {s t : State} (h : Changes ks cs s t) : t.tim = s.tim := congrArg (fun s => s.tim) h.rest
theorem Changes.pwr {ks cs : List Nat} {s t : State} (h : Changes ks cs s t) : t.pwr = s.pwr := congrArg (fun s => s.pwr) h.rest
theorem Changes.start {ks cs : List Nat} {s t : State} (h : Changes ks cs s t) : t.start = s.start := congrArg (fun s => s.start) h.rest
theorem Changes.lanes {ks cs : List Nat} {s t : State} (h : Changes ks cs s t) : t.lanes = s.lanes := congrArg (fun s => s.lanes) h.rest
theorem Changes.l2 {ks cs : List Nat} {s t : State} (h : Changes ks cs s t) : t.l2 = s.l2 := congrArg (fun s => s.l2) h.rest
theorem Changes.lpm {ks cs : List Nat} {s t : State} (h : Changes ks cs s t) : t.lpm = s.lpm := congrArg (fun s => s.lpm) h.rest
theorem Changes.frames {ks cs : List Nat} {s t : State} (h : Changes ks cs s t) : t.frames = s.frames := congrArg (fun s => s.frames) h.rest
theorem Changes.nextFrame {ks cs : List Nat} {s t : State} (h : Changes ks cs s t) : t.nextFrame = s.nextFrame := congrArg (fun s => s.nextFrame) h.rest
theorem Changes.rx {ks cs : List Nat} {s t : State} (h : Changes ks cs s t) : t.rx = s.rx := congrArg (fun s => s.rx) h.rest
theorem Changes.ver {ks cs : List Nat} {s t : State} (h : Changes ks cs s t) : t.ver = s.ver := congrArg (fun s => s.ver) h.rest
theorem Changes.pools {ks cs : List Nat} {s t : State} (h : Changes ks cs s t) : t.pools = s.pools := congrArg (fun s => s.pools) h.rest
theorem Changes.sw {ks cs : List Nat} {s t : State} (h : Changes ks cs s t) : t.sw = s.sw := congrArg (fun s => s.sw) h.rest
theorem Changes.egr {ks cs : List Nat} {s t : State} (h : Changes ks cs s t) : t.egr = s.egr := congrArg (fun s => s.egr) h.rest
theorem Changes.flow {ks cs : List Nat} {s t : State} (h : Changes ks cs s t) : t.flow = s.flow := congrArg (fun s => s.flow) h.rest
theorem Changes.dsp {ks cs : List Nat} {s t : State} (h : Changes ks cs s t) : t.dsp = s.dsp := congrArg (fun s => s.dsp) h.rest
theorem Changes.fen {ks cs : List Nat} {s t : State} (h : Changes ks cs s t) : t.fen = s.fen := congrArg (fun s => s.fen) h.rest
theorem Changes.bq {ks cs : List Nat} {s t : State} (h : Changes ks cs s t) : t.bq = s.bq := congrArg (fun s => s.bq) h.rest
theorem Changes.mesh {ks cs : List Nat} {s t : State} (h : Changes ks cs s t) : t.mesh = s.mesh := congrArg (fun s => s.mesh) h.rest
theorem Changes.fw {ks cs : List Nat} {s t : State} (h : Changes ks cs s t) : t.fw = s.fw := congrArg (fun s => s.fw) h.rest
theorem Changes.recov {ks cs : List Nat} {s t : State} (h : Changes ks cs s t) : t.recov = s.recov := congrArg (fun s => s.recov) h.rest
theorem Changes.io {ks cs : List Nat} {s t : State} (h : Changes ks cs s t) : t.io = s.io := congrArg (fun s => s.io) h.rest

theorem Changes.owners {ks cs : List Nat} {s t : State} (h : Changes ks cs s t) : t.fab.owners = s.fab.owners :=
  congrArg (fun s => s.fab.owners) h.rest
theorem Changes.latches {ks cs : List Nat} {s t : State} (h : Changes ks cs s t) : t.fab.latches = s.fab.latches :=
  congrArg (fun s => s.fab.latches) h.rest
theorem Changes.commits {ks cs : List Nat} {s t : State} (h : Changes ks cs s t) : t.fab.commits = s.fab.commits :=
  congrArg (fun s => s.fab.commits) h.rest

/-! ### A part of the state set on both sides -/

theorem Changes.with_pcn {ks cs : List Nat} {s t : State} (h : Changes ks cs s t) (x : Pcn) :
    Changes ks cs { s with pcn := x } { t with pcn := x } :=
  ⟨congrArg (fun y : State => { y with pcn := x }) h.rest, h.regs, h.counters, h.causes, h.control, h.stage, h.out⟩

theorem Changes.with_tim {ks cs : List Nat} {s t : State} (h : Changes ks cs s t) (x : TimeIsland) :
    Changes ks cs { s with tim := x } { t with tim := x } :=
  ⟨congrArg (fun y : State => { y with tim := x }) h.rest, h.regs, h.counters, h.causes, h.control, h.stage, h.out⟩

theorem Changes.with_pwr {ks cs : List Nat} {s t : State} (h : Changes ks cs s t) (x : Power) :
    Changes ks cs { s with pwr := x } { t with pwr := x } :=
  ⟨congrArg (fun y : State => { y with pwr := x }) h.rest, h.regs, h.counters, h.causes, h.control, h.stage, h.out⟩

theorem Changes.with_start {ks cs : List Nat} {s t : State} (h : Changes ks cs s t) (x : Startup) :
    Changes ks cs { s with start := x } { t with start := x } :=
  ⟨congrArg (fun y : State => { y with start := x }) h.rest, h.regs, h.counters, h.causes, h.control, h.stage, h.out⟩

theorem Changes.with_lanes {ks cs : List Nat} {s t : State} (h : Changes ks cs s t) (x : Lanes) :
    Changes ks cs { s with lanes := x } { t with lanes := x } :=
  ⟨congrArg (fun y : State => { y with lanes := x }) h.rest, h.regs, h.counters, h.causes, h.control, h.stage, h.out⟩

theorem Changes.with_l2 {ks cs : List Nat} {s t : State} (h : Changes ks cs s t) (x : L2State) :
    Changes ks cs { s with l2 := x } { t with l2 := x } :=
  ⟨congrArg (fun y : State => { y with l2 := x }) h.rest, h.regs, h.counters, h.causes, h.control, h.stage, h.out⟩

theorem Changes.with_lpm {ks cs : List Nat} {s t : State} (h : Changes ks cs s t) (x : LpmState) :
    Changes ks cs { s with lpm := x } { t with lpm := x } :=
  ⟨congrArg (fun y : State => { y with lpm := x }) h.rest, h.regs, h.counters, h.causes, h.control, h.stage, h.out⟩

theorem Changes.with_frames {ks cs : List Nat} {s t : State} (h : Changes ks cs s t) (x : Sparse Frame) :
    Changes ks cs { s with frames := x } { t with frames := x } :=
  ⟨congrArg (fun y : State => { y with frames := x }) h.rest, h.regs, h.counters, h.causes, h.control, h.stage, h.out⟩

theorem Changes.with_nextFrame {ks cs : List Nat} {s t : State} (h : Changes ks cs s t) (x : Nat) :
    Changes ks cs { s with nextFrame := x } { t with nextFrame := x } :=
  ⟨congrArg (fun y : State => { y with nextFrame := x }) h.rest, h.regs, h.counters, h.causes, h.control, h.stage, h.out⟩

theorem Changes.with_rx {ks cs : List Nat} {s t : State} (h : Changes ks cs s t) (x : Sparse RxPort) :
    Changes ks cs { s with rx := x } { t with rx := x } :=
  ⟨congrArg (fun y : State => { y with rx := x }) h.rest, h.regs, h.counters, h.causes, h.control, h.stage, h.out⟩

theorem Changes.with_ver {ks cs : List Nat} {s t : State} (h : Changes ks cs s t) (x : Versions) :
    Changes ks cs { s with ver := x } { t with ver := x } :=
  ⟨congrArg (fun y : State => { y with ver := x }) h.rest, h.regs, h.counters, h.causes, h.control, h.stage, h.out⟩

theorem Changes.with_pools {ks cs : List Nat} {s t : State} (h : Changes ks cs s t) (x : Pools) :
    Changes ks cs { s with pools := x } { t with pools := x } :=
  ⟨congrArg (fun y : State => { y with pools := x }) h.rest, h.regs, h.counters, h.causes, h.control, h.stage, h.out⟩

theorem Changes.with_sw {ks cs : List Nat} {s t : State} (h : Changes ks cs s t) (x : Switch) :
    Changes ks cs { s with sw := x } { t with sw := x } :=
  ⟨congrArg (fun y : State => { y with sw := x }) h.rest, h.regs, h.counters, h.causes, h.control, h.stage, h.out⟩

theorem Changes.with_egr {ks cs : List Nat} {s t : State} (h : Changes ks cs s t) (x : Egress) :
    Changes ks cs { s with egr := x } { t with egr := x } :=
  ⟨congrArg (fun y : State => { y with egr := x }) h.rest, h.regs, h.counters, h.causes, h.control, h.stage, h.out⟩

theorem Changes.with_flow {ks cs : List Nat} {s t : State} (h : Changes ks cs s t) (x : FlowState) :
    Changes ks cs { s with flow := x } { t with flow := x } :=
  ⟨congrArg (fun y : State => { y with flow := x }) h.rest, h.regs, h.counters, h.causes, h.control, h.stage, h.out⟩

theorem Changes.with_dsp {ks cs : List Nat} {s t : State} (h : Changes ks cs s t) (x : Dispatch) :
    Changes ks cs { s with dsp := x } { t with dsp := x } :=
  ⟨congrArg (fun y : State => { y with dsp := x }) h.rest, h.regs, h.counters, h.causes, h.control, h.stage, h.out⟩

theorem Changes.with_fen {ks cs : List Nat} {s t : State} (h : Changes ks cs s t) (x : Engines) :
    Changes ks cs { s with fen := x } { t with fen := x } :=
  ⟨congrArg (fun y : State => { y with fen := x }) h.rest, h.regs, h.counters, h.causes, h.control, h.stage, h.out⟩

theorem Changes.with_bq {ks cs : List Nat} {s t : State} (h : Changes ks cs s t) (x : Sparse BenchQueue) :
    Changes ks cs { s with bq := x } { t with bq := x } :=
  ⟨congrArg (fun y : State => { y with bq := x }) h.rest, h.regs, h.counters, h.causes, h.control, h.stage, h.out⟩

theorem Changes.with_mesh {ks cs : List Nat} {s t : State} (h : Changes ks cs s t) (x : Mesh) :
    Changes ks cs { s with mesh := x } { t with mesh := x } :=
  ⟨congrArg (fun y : State => { y with mesh := x }) h.rest, h.regs, h.counters, h.causes, h.control, h.stage, h.out⟩

theorem Changes.with_fw {ks cs : List Nat} {s t : State} (h : Changes ks cs s t) (x : Firmware) :
    Changes ks cs { s with fw := x } { t with fw := x } :=
  ⟨congrArg (fun y : State => { y with fw := x }) h.rest, h.regs, h.counters, h.causes, h.control, h.stage, h.out⟩

theorem Changes.with_recov {ks cs : List Nat} {s t : State} (h : Changes ks cs s t) (x : Recovery) :
    Changes ks cs { s with recov := x } { t with recov := x } :=
  ⟨congrArg (fun y : State => { y with recov := x }) h.rest, h.regs, h.counters, h.causes, h.control, h.stage, h.out⟩

theorem Changes.with_io {ks cs : List Nat} {s t : State} (h : Changes ks cs s t) (x : SlowIo) :
    Changes ks cs { s with io := x } { t with io := x } :=
  ⟨congrArg (fun y : State => { y with io := x }) h.rest, h.regs, h.counters, h.causes, h.control, h.stage, h.out⟩

/-! ### COMMIT records -/

@[simp] theorem commitOf_putCommit_same (b : Block) (c : CommitSt) (s : State) : commitOf b (putCommit b c s) = c := sget_sset_same _ _ _ _
theorem commitOf_putCommit_other {b b' : Block} (c : CommitSt) (s : State) (h : b' ≠ b) : commitOf b' (putCommit b c s) = commitOf b' s :=
  sget_sset_other _ _ _ (fun hh => h (blockCode_inj hh))
theorem commitOf_changes {ks cs : List Nat} {s t : State} (h : Changes ks cs s t) (b : Block) : commitOf b t = commitOf b s := by
  unfold commitOf; rw [h.commits]

/-- A write of a register changes that register. -/
theorem putReg_changes {ks cs : List Nat} (off inst : Nat) (v : Word) (s : State) (h : rkey off inst ∈ ks) :
    Changes ks cs s (putReg off inst v s) :=
  ⟨rfl, fun _ _ hn => sget_sset_other regReset s.fab.regs v (fun e => hn (e ▸ h)), fun _ _ _ => rfl, fun _ h => h, ⟨rfl, rfl, rfl⟩, rfl,
   List.prefix_rfl⟩

theorem wrX_changes {ks cs : List Nat} (f : Fld) (i c v : Nat) (s : State) (h : keyOfField f i c ∈ ks) : Changes ks cs s (wrX f i c v s) :=
  putReg_changes _ _ _ s h

theorem wr_changes {ks cs : List Nat} (f : Fld) (v : Nat) (s : State) (h : keyOfField f 0 0 ∈ ks) : Changes ks cs s (wr f v s) :=
  wrX_changes f 0 0 v s h

theorem wrC_changes {ks cs : List Nat} (f : Fld) (c v : Nat) (s : State) (h : keyOfField f 0 c ∈ ks) : Changes ks cs s (wrC f c v s) :=
  wrX_changes f 0 c v s h

theorem satX_changes {ks cs : List Nat} (f : Fld) (i c d : Nat) (s : State) (h : keyOfField f i c ∈ ks) : Changes ks cs s (satX f i c d s) :=
  wrX_changes f i c _ s h

theorem sat1_changes {ks cs : List Nat} (f : Fld) (s : State) (h : keyOfField f 0 0 ∈ ks) : Changes ks cs s (sat1 f s) :=
  wrX_changes f 0 0 _ s h

theorem incX_changes {ks cs : List Nat} (f : Fld) (i c : Nat) (s : State) (h : keyOfField f i c ∈ ks) : Changes ks cs s (incX f i c s) :=
  wrX_changes f i c _ s h

theorem putCtr_changes {ks cs : List Nat} (k v : Nat) (s : State) (h : k ∈ cs) : Changes ks cs s (putCtr k v s) :=
  ⟨rfl, fun _ _ _ => rfl, fun _ _ hn => sget_sset_other (fun _ => 0) s.fab.counters v (fun e => hn (e ▸ h)), fun _ h => h, ⟨rfl, rfl, rfl⟩,
   rfl, List.prefix_rfl⟩

/-- A change of what `OnlyEvents` speaks of that sets no register, counter or cause. -/
theorem OnlyEvents.of_evt {s t : State} (hr : besidesEvents t = besidesEvents s) (h1 : t.fab.regs = s.fab.regs)
    (h2 : t.fab.counters = s.fab.counters) (hc : t.evt.cause = s.evt.cause)
    (hm : t.evt.mask = s.evt.mask ∧ t.evt.msixEnable = s.evt.msixEnable ∧ t.evt.msixMaskAll = s.evt.msixMaskAll)
    (hs : besidesStage t.tmk = besidesStage s.tmk) (ho : s.out <+: t.out) : OnlyEvents s t :=
  ⟨hr, fun _ _ _ => by rw [h1], fun _ _ _ => by rw [h2], fun e he => by unfold Asserted causeReg at *; rwa [hc], hm, hs, ho⟩

/-- A change of a TMK.STAT word. -/
theorem OnlyEvents.stat {s : State} {i d : Nat} (hi : i < 5) : OnlyEvents s (satX tmkStat_count i 0 d s) := by
  refine ⟨rfl, fun k hk _ => ?_, fun _ _ _ => rfl, fun _ h => h, ⟨rfl, rfl, rfl⟩, rfl, List.prefix_rfl⟩
  refine sget_sset_other regReset s.fab.regs _ (fun hkk => hk ?_)
  rw [hkk]
  unfold StatKey rkey tmkStat_count
  dsimp only
  omega

theorem enterFifo_onlyEvents (r : Rec) (s : State) : OnlyEvents s (enterFifo r s).1 := by
  unfold enterFifo
  dsimp only
  split
  · exact OnlyEvents.of_evt rfl rfl rfl rfl ⟨rfl, rfl, rfl⟩ rfl List.prefix_rfl
  · refine OnlyEvents.trans ?_ (OnlyEvents.stat (i := 2) (by decide))
    exact OnlyEvents.of_evt rfl rfl rfl rfl ⟨rfl, rfl, rfl⟩ rfl List.prefix_rfl

theorem putUsed_onlyEvents (key n : Nat) (s : State) : OnlyEvents s (putUsed key n s) :=
  OnlyEvents.of_evt rfl rfl rfl rfl ⟨rfl, rfl, rfl⟩ rfl List.prefix_rfl

theorem offerRec_onlyEvents (r : Rec) (s : State) : OnlyEvents s (offerRec r s).state := by
  unfold offerRec
  dsimp only
  split
  · split
    · dsimp only
      refine OnlyEvents.trans ?_ (OnlyEvents.stat (i := 1) (by decide))
      exact OnlyEvents.of_evt rfl rfl rfl rfl ⟨rfl, rfl, rfl⟩ rfl List.prefix_rfl
    · exact (putUsed_onlyEvents _ _ _).trans (enterFifo_onlyEvents r _)
  · exact enterFifo_onlyEvents _ _

theorem sendMsix_onlyEvents (v : Nat) (s : State) : OnlyEvents s (sendMsix v s) :=
  OnlyEvents.of_evt rfl rfl rfl rfl ⟨rfl, rfl, rfl⟩ rfl (List.prefix_append _ _)

theorem signalVector_onlyEvents (v : Nat) (s : State) : OnlyEvents s (signalVector v s) := by
  unfold signalVector
  split
  · exact OnlyEvents.refl s
  · split
    · exact OnlyEvents.of_evt rfl rfl rfl rfl ⟨rfl, rfl, rfl⟩ rfl List.prefix_rfl
    · exact sendMsix_onlyEvents v s

theorem emit_onlyEvents (o : Output) (s : State) : OnlyEvents s (emit o s) :=
  OnlyEvents.of_evt rfl rfl rfl rfl ⟨rfl, rfl, rfl⟩ rfl (List.prefix_append _ _)

theorem foldl_onlyEvents {α : Type} {l : List α} {g : State → α → State} (hg : ∀ a x, OnlyEvents a (g a x)) (s : State) :
    OnlyEvents s (l.foldl g s) := by
  induction l generalizing s with
  | nil => exact OnlyEvents.refl s
  | cons x l ih => exact (hg s x).trans (ih (g s x))

theorem foldOver_onlyEvents {α : Type} {l : List α} {g : α → State → State} (hg : ∀ x a, OnlyEvents a (g x a)) (s : State) :
    OnlyEvents s (foldOver l g s) := foldl_onlyEvents (fun a x => hg x a) s

theorem refreshSignals_onlyEvents (s : State) : OnlyEvents s (refreshSignals s).1 := by
  unfold refreshSignals
  refine OnlyEvents.trans ?_ (foldl_onlyEvents (fun a x => signalVector_onlyEvents x a) _)
  exact OnlyEvents.of_evt rfl rfl rfl rfl ⟨rfl, rfl, rfl⟩ rfl List.prefix_rfl

theorem setCause_bits (e f : Src) (s : State) :
    Asserted f (setCause e s) ↔ Asserted f s ∨ (f.g = e.g ∧ f.b < 32 ∧ (2 ^ e.b).testBit f.b = true) := by
  unfold Asserted causeReg setCause smod
  by_cases hg : f.g = e.g
  · simp only [hg, sget_sset_same, BitVec.getLsbD_or, BitVec.getLsbD_ofNat, Bool.or_eq_true, Bool.and_eq_true, decide_eq_true_eq,
      true_and]
  · simp only [sget_sset_other _ _ _ hg, hg, false_and, or_false]

theorem setCause_onlyEvents (e : Src) (s : State) : OnlyEvents s (setCause e s) :=
  ⟨rfl, fun _ _ _ => rfl, fun _ _ _ => rfl, fun f hf => (setCause_bits e f s).2 (Or.inl hf), ⟨rfl, rfl, rfl⟩, rfl, List.prefix_rfl⟩

theorem setCause_asserted {e : Src} (s : State) (h : e.b < 32) : Asserted e (setCause e s) :=
  (setCause_bits e e s).2 (Or.inr ⟨rfl, h, by simp⟩)

theorem setPend_onlyEvents (e : Src) (c : Option Nat) (s : State) : OnlyEvents s (setPend e c s) := by
  unfold setPend
  split
  · split
    · exact OnlyEvents.refl s
    · exact OnlyEvents.of_evt rfl rfl rfl rfl ⟨rfl, rfl, rfl⟩ rfl List.prefix_rfl
  · exact OnlyEvents.refl s

theorem countInWindow_onlyEvents (e : Src) (s : State) : OnlyEvents s (countInWindow e s) := by
  unfold countInWindow
  split
  · exact OnlyEvents.refl s
  · exact OnlyEvents.of_evt rfl rfl rfl rfl ⟨rfl, rfl, rfl⟩ rfl List.prefix_rfl

theorem countAssertion_onlyEvents (e : Src) (sup : Bool) (s : State) : OnlyEvents s (countAssertion e sup s) := by
  unfold countAssertion
  dsimp only
  split
  · exact (countInWindow_onlyEvents e s).trans (OnlyEvents.of_evt rfl rfl rfl rfl ⟨rfl, rfl, rfl⟩ rfl List.prefix_rfl)
  · exact countInWindow_onlyEvents e s

theorem addCtr_pcn_onlyEvents (i d : Nat) (s : State) : OnlyEvents s (addCtr (pcnKey i) d s).1 := by
  have hk : pcnKey i % 0x40000 = pcnCntLo_count.off := by
    unfold pcnKey rkey pcnCntLo_count
    dsimp only
    omega
  unfold addCtr
  dsimp only
  split
  all_goals
    refine ⟨rfl, fun _ _ _ => rfl, fun k hkk _ => ?_, fun _ h => h, ⟨rfl, rfl, rfl⟩, rfl, List.prefix_rfl⟩
    refine sget_sset_other (fun _ => 0) s.fab.counters _ (fun hn => hkk ?_)
    rw [hn, hk]

theorem countEdges_fold (l : List Nat) (a : State × Bool) :
    OnlyEvents a.1
      (l.foldl (fun (a : State × Bool) i => let r := addCtr (pcnKey i) 1 a.1; (r.1, a.2 || r.2)) a).1 := by
  induction l generalizing a with
  | nil => exact OnlyEvents.refl a.1
  | cons x l ih =>
    rw [List.foldl_cons]
    exact OnlyEvents.trans (addCtr_pcn_onlyEvents x 1 a.1)
      (ih ((addCtr (pcnKey x) 1 a.1).1, a.2 || (addCtr (pcnKey x) 1 a.1).2))

theorem countEdges_onlyEvents (n : Nat) (s : State) : OnlyEvents s (countEdges n s).1 := by
  unfold countEdges
  split
  · exact countEdges_fold _ (s, false)
  · exact OnlyEvents.refl s

/-- An assertion changes only what events change, and with fuel its own cause bit stands. -/
theorem assertN_onlyEvents (n : Nat) (e : Src) (c : Option Nat) (forced : Bool) (s : State) : OnlyEvents s (assertN n e c forced s) := by
  induction n generalizing e c forced s with
  | zero => exact OnlyEvents.refl s
  | succ n ih =>
    refine assertN_after (P := OnlyEvents s) ?_ (fun _ _ h => h.trans (offerRec_onlyEvents _ _)) (fun _ h => h.trans (refreshSignals_onlyEvents _))
      (fun _ _ h => h.trans (countEdges_onlyEvents _ _)) (fun _ _ _ h => h.trans (ih _ _ _ _))
    have h1 : OnlyEvents s (setPend e c (setCause e s)) := (setCause_onlyEvents e s).trans (setPend_onlyEvents e c _)
    split
    · exact h1
    · exact h1.trans (countAssertion_onlyEvents e _ _)

theorem assertN_asserted {n : Nat} {e : Src} (c : Option Nat) (forced : Bool) (s : State) (h : e.b < 32) :
    Asserted e (assertN (n + 1) e c forced s) := by
  have keep : ∀ {a b : State}, OnlyEvents a b → Asserted e a → Asserted e b := fun k => k.causes e
  refine assertN_after (P := Asserted e) ?_ (fun _ _ => keep (offerRec_onlyEvents _ _)) (fun _ => keep (refreshSignals_onlyEvents _))
    (fun _ _ => keep (countEdges_onlyEvents _ _)) (fun _ _ _ => keep (assertN_onlyEvents _ _ _ _ _))
  have h1 : Asserted e (setPend e c (setCause e s)) := keep (setPend_onlyEvents e c _) (setCause_asserted s h)
  split
  · exact h1
  · exact keep (countAssertion_onlyEvents e _ _) h1

theorem raise_onlyEvents (e : Src) (s : State) : OnlyEvents s (raise e s) := assertN_onlyEvents _ _ _ _ _
theorem raiseC_onlyEvents (e : Src) (c : Nat) (s : State) : OnlyEvents s (raiseC e c s) := assertN_onlyEvents _ _ _ _ _
theorem raiseForced_onlyEvents (e : Src) (c : Option Nat) (s : State) : OnlyEvents s (raiseForced e c s) := assertN_onlyEvents _ _ _ _ _

theorem raiseOn_onlyEvents (b : Block) (e : Src) (c : Nat) (s : State) : OnlyEvents s (raiseOn b e c s) := by
  unfold raiseOn
  split
  · exact OnlyEvents.refl s
  · exact raiseC_onlyEvents e c s

theorem raise_asserted {e : Src} (s : State) (h : e.b < 32) : Asserted e (raise e s) := assertN_asserted _ _ _ h
theorem raiseC_asserted {e : Src} (c : Nat) (s : State) (h : e.b < 32) : Asserted e (raiseC e c s) := assertN_asserted _ _ _ h
theorem raiseForced_asserted {e : Src} (c : Option Nat) (s : State) (h : e.b < 32) : Asserted e (raiseForced e c s) :=
  assertN_asserted _ _ _ h

/-! ### Channels and the limiter -/

theorem LimiterKept.refl (es : List Src) (s : State) : LimiterKept es s s := ⟨fun _ _ _ => rfl, fun _ _ _ => rfl, fun _ _ _ => rfl⟩

theorem LimiterKept.trans {es : List Src} {r s t : State} (h : LimiterKept es r s) (k : LimiterKept es s t) : LimiterKept es r t :=
  ⟨fun e hb he => (k.lim e hb he).trans (h.lim e hb he), fun e hb he => (k.supp e hb he).trans (h.supp e hb he),
    fun e hb he => (k.auto e hb he).trans (h.auto e hb he)⟩

theorem LimiterKept.mono {es fs : List Src} {s t : State} (h : LimiterKept es s t) (hs : ∀ e ∈ es, e ∈ fs) : LimiterKept fs s t :=
  ⟨fun e hb he => h.lim e hb (fun hh => he (hs e hh)), fun e hb he => h.supp e hb (fun hh => he (hs e hh)),
    fun e hb he => h.auto e hb (fun hh => he (hs e hh))⟩

/-- What leaves the limiter and the pending words alone leaves them alone. -/
theorem LimiterKept.of_evt {es : List Src} {s t : State} (h1 : t.evt.lim = s.evt.lim) (h2 : t.evt.supp = s.evt.supp)
    (h3 : t.evt.auto = s.evt.auto) : LimiterKept es s t :=
  ⟨fun e _ _ => by rw [h1], fun e _ _ => by rw [h2], fun e _ _ => by unfold autoReg; rw [h3]⟩

/-- The pending words and the limiter are the same list for list. -/
structure PendKept (s t : State) : Prop where
  pend : t.evt.pend = s.evt.pend
  lim : t.evt.lim = s.evt.lim
  supp : t.evt.supp = s.evt.supp
  auto : t.evt.auto = s.evt.auto

theorem PendKept.refl (s : State) : PendKept s s := ⟨rfl, rfl, rfl, rfl⟩
theorem PendKept.trans {r s t : State} (h : PendKept r s) (k : PendKept s t) : PendKept r t :=
  ⟨k.pend.trans h.pend, k.lim.trans h.lim, k.supp.trans h.supp, k.auto.trans h.auto⟩
theorem PendKept.limiter {es : List Src} {s t : State} (h : PendKept s t) : LimiterKept es s t := LimiterKept.of_evt h.lim h.supp h.auto

theorem signalVector_pendKept (v : Nat) (s : State) : PendKept s (signalVector v s) := by
  unfold signalVector
  split
  · exact PendKept.refl s
  · split <;> exact ⟨rfl, rfl, rfl, rfl⟩

theorem refreshSignals_pendKept (s : State) : PendKept s (refreshSignals s).1 := by
  unfold refreshSignals
  dsimp only
  refine PendKept.trans (s := { s with evt := { s.evt with
      vecActive := activeVectors s, msixPend := s.evt.msixPend &&& activeVectors s, benchLines := activeBench s, eventN := activePin s } })
    ⟨rfl, rfl, rfl, rfl⟩ ?_
  generalize List.filter _ _ = l
  generalize ({ s with evt := _ } : State) = a
  induction l generalizing a with
  | nil => exact PendKept.refl a
  | cons x l ih => exact (signalVector_pendKept x a).trans (ih _)

theorem countEdges_pendKept (n : Nat) (s : State) : PendKept s (countEdges n s).1 := by
  unfold countEdges
  split
  · generalize edgeCounters n s = l
    generalize hp : (s, false) = p
    have : s = p.1 := by rw [← hp]
    rw [this]
    clear hp this
    induction l generalizing p with
    | nil => exact PendKept.refl _
    | cons x l ih =>
      refine PendKept.trans ?_ (ih _)
      dsimp only
      unfold addCtr
      dsimp only
      split <;> exact ⟨rfl, rfl, rfl, rfl⟩
  · exact PendKept.refl s

theorem putUsed_pendKept (key n : Nat) (s : State) : PendKept s (putUsed key n s) := ⟨rfl, rfl, rfl, rfl⟩

theorem offerRec_pendKept (r : Rec) (s : State) : PendKept s (offerRec r s).state := by
  have he : ∀ a, PendKept a (enterFifo r a).1 := by
    intro a
    unfold enterFifo
    dsimp only
    split <;> exact ⟨rfl, rfl, rfl, rfl⟩
  unfold offerRec
  dsimp only
  split
  · split
    · exact ⟨rfl, rfl, rfl, rfl⟩
    · exact (putUsed_pendKept _ _ _).trans (he _)
  · exact he _

theorem src_eq {e f : Src} (h1 : f.g = e.g) (h2 : f.b = e.b) : f = e := by
  obtain ⟨g, b⟩ := e
  obtain ⟨g', b'⟩ := f
  dsimp only at h1 h2
  rw [h1, h2]

theorem src_num_ne {e f : Src} (he : e.b < 32) (hf : f.b < 32) (h : f ≠ e) : f.num ≠ e.num := by
  intro hn
  apply h
  unfold Src.num at hn
  exact src_eq (by omega) (by omega)

theorem countInWindow_limiter {e : Src} (s : State) (he : e.b < 32) : LimiterKept [e] s (countInWindow e s) := by
  unfold countInWindow
  split
  · exact LimiterKept.refl _ _
  · refine ⟨fun f hb hf => ?_, fun _ _ _ => rfl, fun _ _ _ => rfl⟩
    dsimp only
    unfold smod
    exact sget_sset_other (fun _ => 0) s.evt.lim _ (src_num_ne he hb (by simpa using hf))

/-- The limiter's record of a suppressed assertion is its own source's. -/
theorem suppressed_limiter {e : Src} (t : State) (he : e.b < 32) : LimiterKept [e] t { t with evt := { t.evt with
    supp := smod (fun _ => 0) t.evt.supp e.num (fun n => satAdd n 1 0xFFFF)
    auto := smod (fun _ => 0) t.evt.auto e.g (fun w => w ||| BitVec.ofNat 32 (2 ^ e.b)) } } := by
  have hn : ∀ f : Src, f.b < 32 → f ∉ [e] → f.num ≠ e.num := fun f hb hf => src_num_ne he hb (by simpa using hf)
  refine ⟨fun _ _ _ => rfl, fun f hb hf => ?_, fun f hb hf => ?_⟩
  · exact sget_sset_other (fun _ => 0) t.evt.supp _ (hn f hb hf)
  · unfold autoReg
    by_cases hg : f.g = e.g
    · have hbb : f.b ≠ e.b := fun hbb => hf (List.mem_singleton.mpr (src_eq hg hbb))
      show (sget (fun _ => 0) (sset (fun _ => 0) t.evt.auto e.g (sget (fun _ => 0) t.evt.auto e.g ||| BitVec.ofNat 32 (2 ^ e.b))) f.g).getLsbD f.b = _
      rw [hg, sget_sset_same, BitVec.getLsbD_or, BitVec.getLsbD_ofNat]
      have : (2 ^ e.b).testBit f.b = false := by simp [Nat.testBit_two_pow]; omega
      rw [this]; simp
    · show (sget (fun _ => 0) (sset (fun _ => 0) t.evt.auto e.g (sget (fun _ => 0) t.evt.auto e.g ||| BitVec.ofNat 32 (2 ^ e.b))) f.g).getLsbD f.b = _
      rw [sget_sset_other _ _ _ hg]

theorem countAssertion_limiter {e : Src} (sup : Bool) (s : State) (he : e.b < 32) : LimiterKept [e] s (countAssertion e sup s) := by
  unfold countAssertion
  dsimp only
  split
  · exact (countInWindow_limiter s he).trans (suppressed_limiter _ he)
  · exact countInWindow_limiter s he

theorem countInWindow_pend (e : Src) (s : State) : (countInWindow e s).evt.pend = s.evt.pend := by
  unfold countInWindow
  split <;> rfl

theorem countAssertion_pend (e : Src) (sup : Bool) (s : State) : (countAssertion e sup s).evt.pend = s.evt.pend := by
  unfold countAssertion
  dsimp only
  split
  · exact countInWindow_pend e s
  · exact countInWindow_pend e s

/-- An assertion sets the pending bit of its own channel and no other, and the limiter counts only the source itself and what it brings in
turn; a forced one is not counted at all (R127 to R129). -/
theorem assertN_limiter (n : Nat) {e : Src} (c : Option Nat) (forced : Bool) (s : State) (he : e.b < 32) :
    (assertN (n + 1) e c forced s).evt.pend = (setPend e c s).evt.pend ∧
      LimiterKept (if forced then sideSources else e :: sideSources) s (assertN (n + 1) e c forced s) := by
  have hset : ∀ (e : Src) (c : Option Nat) (s : State), (setPend e c (setCause e s)).evt.pend = (setPend e c s).evt.pend ∧
      (setPend e c (setCause e s)).evt.lim = s.evt.lim ∧ (setPend e c (setCause e s)).evt.supp = s.evt.supp ∧
      (setPend e c (setCause e s)).evt.auto = s.evt.auto := by
    intro e c s
    unfold setPend
    split
    · next k b _ =>
      have hf : isFused b k (setCause e s) = isFused b k s := rfl
      rw [hf]
      by_cases h : chanCount b = 1 ∨ isFused b k s = true ∨ globalSrc e b = true
      · rw [if_pos h, if_pos h]; exact ⟨rfl, rfl, rfl, rfl⟩
      · rw [if_neg h, if_neg h]; exact ⟨rfl, rfl, rfl, rfl⟩
    · exact ⟨rfl, rfl, rfl, rfl⟩
  have key : ∀ (m : Nat) (e : Src) (c : Option Nat) (forced : Bool) (s : State), e.b < 32 →
      (m = 0 ∨ (assertN m e c forced s).evt.pend = (setPend e c s).evt.pend) ∧
      (c = none → (assertN m e c forced s).evt.pend = s.evt.pend) ∧
      LimiterKept (if forced then sideSources else e :: sideSources) s (assertN m e c forced s) := by
    intro m
    induction m with
    | zero => exact fun e c f s _ => ⟨Or.inl rfl, fun _ => rfl, LimiterKept.refl _ _⟩
    | succ m ih =>
      intro e c forced s he
      have side : ∀ f ∈ sideSources, f.b < 32 := by decide
      have sub : ∀ f ∈ sideSources, f ∈ (if forced then sideSources else e :: sideSources) := by
        intro f hf; split
        · exact hf
        · exact List.mem_cons_of_mem _ hf
      have both : (assertN (m + 1) e c forced s).evt.pend = (setPend e c s).evt.pend ∧
          LimiterKept (if forced then sideSources else e :: sideSources) s (assertN (m + 1) e c forced s) := by
        refine assertN_after (P := fun a => a.evt.pend = (setPend e c s).evt.pend ∧
            LimiterKept (if forced then sideSources else e :: sideSources) s a) ?_ ?_ ?_ ?_ ?_
        · have h1 := hset e c s
          have hk : LimiterKept (if forced then sideSources else e :: sideSources) s (setPend e c (setCause e s)) :=
            LimiterKept.of_evt h1.2.1 h1.2.2.1 h1.2.2.2
          split
          · next hf => rw [if_pos hf] at hk; exact ⟨h1.1, hk⟩
          · next hf =>
            rw [if_neg hf] at hk
            refine ⟨(countAssertion_pend _ _ _).trans h1.1, hk.trans ((countAssertion_limiter _ _ he).mono ?_)⟩
            intro g hg
            rw [List.mem_singleton] at hg
            rw [hg]; exact List.mem_cons_self
        · exact fun r a h => ⟨(offerRec_pendKept r a).pend.trans h.1, h.2.trans (offerRec_pendKept r a).limiter⟩
        · exact fun a h => ⟨(refreshSignals_pendKept a).pend.trans h.1, h.2.trans (refreshSignals_pendKept a).limiter⟩
        · exact fun k a h => ⟨(countEdges_pendKept k a).pend.trans h.1, h.2.trans (countEdges_pendKept k a).limiter⟩
        · intro f hf a h
          have hi := ih f none false a (side f hf)
          refine ⟨(hi.2.1 rfl).trans h.1, h.2.trans (hi.2.2.mono (fun g hg => sub g ?_))⟩
          rcases List.mem_cons.mp hg with rfl | hg
          · exact hf
          · exact hg
      exact ⟨Or.inr both.1, fun hc => both.1.trans (by subst hc; rfl), both.2⟩
  have h := key (n + 1) e c forced s he
  exact ⟨h.1.resolve_left (by omega), h.2.2⟩

theorem resignal_onlyEvents (s : State) : OnlyEvents s (resignal s) := by
  unfold resignal
  dsimp only
  split
  · exact (refreshSignals_onlyEvents s).trans (raise_onlyEvents _ _)
  · exact refreshSignals_onlyEvents s

theorem writeRec_onlyEvents (code sev block chan : Nat) (payload : List Byte) (s : State) :
    OnlyEvents s (writeRec code sev block chan payload s) := by
  unfold writeRec
  dsimp only
  split
  · exact (offerRec_onlyEvents _ _).trans (raise_onlyEvents _ _)
  · exact offerRec_onlyEvents _ _

theorem countPcn_onlyEvents (i d : Nat) (s : State) : OnlyEvents s (countPcn i d s) := by
  unfold countPcn
  dsimp only
  split
  · split
    · exact (addCtr_pcn_onlyEvents i d s).trans (raise_onlyEvents _ _)
    · exact addCtr_pcn_onlyEvents i d s
  · exact OnlyEvents.refl s

/-- Adding to a counter changes its value modulo 2⁶⁴ (R183), and beside it only what events change. -/
theorem count_onlyEvents (k : CtrSet) (i c d : Nat) (s : State) :
    OnlyEvents (putCtr (rkey (k.lo + 8 * i) c) ((ctr k i c s + d) % 2 ^ 64) s) (count k i c d s) := by
  unfold count addCtr
  dsimp only
  have hc : sget (fun _ => 0) s.fab.counters (rkey (k.lo + 8 * i) c) = ctr k i c s := rfl
  by_cases hw : ctr k i c s + d < 2 ^ 64
  · simp only [hc, hw, if_true, Nat.mod_eq_of_lt hw]
    exact OnlyEvents.refl _
  · simp only [hc, hw, if_false, if_true]
    have h0 : OnlyEvents (putCtr (rkey (k.lo + 8 * i) c) ((ctr k i c s + d) % 2 ^ 64) s)
        (putWrap (rkey (k.lo + 8 * i) c) true (putCtr (rkey (k.lo + 8 * i) c) ((ctr k i c s + d) % 2 ^ 64) s)) :=
      OnlyEvents.of_evt rfl rfl rfl rfl ⟨rfl, rfl, rfl⟩ rfl List.prefix_rfl
    split
    · exact h0.trans (raiseC_onlyEvents _ _ _)
    · exact h0.trans (raise_onlyEvents _ _)

/-- Adding to a counter, as a change. -/
theorem count_changes {ks cs : List Nat} (k : CtrSet) (i c d : Nat) (s : State) (h : rkey (k.lo + 8 * i) c ∈ cs) :
    Changes ks cs s (count k i c d s) := (putCtr_changes _ _ s h).events (count_onlyEvents k i c d s)

/-! ### Accesses -/

theorem writing_of_admits {w : Window} {b : Block} {s : State} (h : Admits w b s) (f : State → State) : writing w b f s = f s := by
  unfold writing
  rw [h.1, h.2.1, h.2.2]
  rfl

theorem writingFree_of_admits {w : Window} {b : Block} {s : State} (h : AdmitsFree w b s) (f : State → State) :
    writingFree w b f s = f s := by
  unfold writingFree
  rw [h.1, h.2]
  rfl

/-- A refused access changes the access log at most, and what events change. -/
theorem accessError_asserted {w : Window} (off : Nat) (write : Bool) (s : State) (h : w = .h ∨ w = .b) :
    Asserted evtAccessError (accessError w off write s) := by
  rcases h with rfl | rfl <;> exact raise_asserted _ (by decide)

end Sys2Proof.Machine
end

