-- ==== Sys2Proof/Laws/Still.lean ====
section
/-! SUPPORT. What the units' own work leaves alone (`Still`): every operation that the common state machine calls when a target starts, turns on,
drains, faults or stops leaves the targets' records, commits, locks and latches as they were. -/

-- The alternatives of each proof's `first` are the same list; not every alternative is used in every proof.
set_option linter.unreachableTactic false
set_option linter.unusedTactic false

namespace Sys2Proof.Machine

theorem Still.refl (s : State) : Still s s := ⟨rfl, rfl, rfl, rfl, rfl, fun _ h => h⟩

theorem Still.trans {r s t : State} (h : Still r s) (k : Still s t) : Still r t :=
  ⟨k.targets.trans h.targets, k.commits.trans h.commits, k.owners.trans h.owners, k.latches.trans h.latches,
   k.variant.trans h.variant, fun e he => k.causes e (h.causes e he)⟩

theorem Still.tgt {s t : State} (h : Still s t) (x : Target) : tgt x t = tgt x s := by
  unfold Sys2Proof.Machine.tgt
  rw [h.targets]

/-- A state written out over the fields of an earlier one, with the same control part of the register fabric. -/
theorem Still.mk_over {r s : State} {pending : List Instr} {fab : Fabric} {evt : Events} {tmk : Touchmark} {pcn : Pcn} {tim : TimeIsland} {pwr : Power}
    {start : Startup} {lanes : Lanes} {l2 : L2State} {lpm : LpmState} {frames : Sparse Frame} {nextFrame : Nat} {rx : Sparse RxPort}
    {ver : Versions} {pools : Pools} {sw : Switch} {egr : Egress} {flow : FlowState} {dsp : Dispatch} {fen : Engines}
    {bq : Sparse BenchQueue} {mesh : Mesh} {fw : Firmware} {recov : Recovery} {io : SlowIo} {out : List Output} (h : Still r s)
    (h1 : fab.targets = s.fab.targets) (h2 : fab.commits = s.fab.commits) (h3 : fab.owners = s.fab.owners)
    (h4 : fab.latches = s.fab.latches) (h5 : evt.cause = s.evt.cause) :
    Still r ⟨pending, s.variant, fab, evt, tmk, pcn, tim, pwr, start, lanes, l2, lpm, frames, nextFrame, rx, ver, pools, sw, egr, flow,
      dsp, fen, bq, mesh, fw, recov, io, out⟩ :=
  h.trans ⟨h1, h2, h3, h4, rfl, fun e he => by unfold Asserted causeReg at *; rw [h5]; exact he⟩

theorem OnlyEvents.still {s t : State} (h : OnlyEvents s t) : Still s t :=
  ⟨h.targets, h.commits, h.owners, congrArg (fun s => s.fab.latches) h.rest, h.variant, h.causes⟩

/-- A fold leaves alone what each of its steps leaves alone. -/
theorem foldOver_still {α : Type} {l : List α} {g : α → State → State} {r s : State}
    (hg : ∀ x a, Still r a → Still r (g x a)) (h : Still r s) : Still r (foldOver l g s) := by
  induction l generalizing s with
  | nil => exact h
  | cons x l ih => exact ih (hg x s h)

theorem foldl_still {α : Type} {l : List α} {g : State → α → State} {r s : State}
    (hg : ∀ a x, Still r a → Still r (g a x)) (h : Still r s) : Still r (l.foldl g s) := by
  induction l generalizing s with
  | nil => exact h
  | cons x l ih => exact ih (hg s x h)

/-- As `foldl_still`, for a fold that carries something beside the state. -/
theorem foldl_fst_still {α β : Type} {l : List α} {g : State × β → α → State × β} {r : State} {s : State × β}
    (hg : ∀ a x, Still r a.1 → Still r (g a x).1) (h : Still r s.1) : Still r (l.foldl g s).1 := by
  induction l generalizing s with
  | nil => exact h
  | cons x l ih => exact ih (hg s x h)

/-- As `foldl_still`, for a fold that carries something before the state. -/
theorem foldl_snd_still {α β : Type} {l : List α} {g : β × State → α → β × State} {r : State} {s : β × State}
    (hg : ∀ a x, Still r a.2 → Still r (g a x).2) (h : Still r s.2) : Still r (l.foldl g s).2 := by
  induction l generalizing s with
  | nil => exact h
  | cons x l ih => exact ih (hg s x h)

/-- What an optional state leaves alone. -/
def OptStill (r : State) (o : Option State) : Prop := ∀ t, o = some t → Still r t

theorem OptStill.some {r s : State} (h : Still r s) : OptStill r (some s) := fun _ e => Option.some.inj e ▸ h

theorem OptStill.none {r : State} : OptStill r none := fun _ e => nomatch e

theorem foldOver_optStill {α : Type} {l : List α} {g : α → Option State → Option State} {r : State} {o : Option State}
    (hg : ∀ x a, OptStill r a → OptStill r (g x a)) (h : OptStill r o) : OptStill r (foldOver l g o) := by
  induction l generalizing o with
  | nil => exact h
  | cons x l ih => exact ih (hg x o h)

theorem OptStill.elim {r t : State} {o : Option State} (h : OptStill r o) (e : o = Option.some t) : Still r t := h t e

theorem OptStill.ite {r : State} {c : Prop} [Decidable c] {o p : Option State} (h : OptStill r o) (k : OptStill r p) :
    OptStill r (if c then o else p) := by
  by_cases hc : c
  · rw [if_pos hc]; exact h
  · rw [if_neg hc]; exact k

theorem OptStill.bind {r : State} {o : Option State} {g : State → Option State} (h : OptStill r o)
    (hg : ∀ s, Still r s → OptStill r (g s)) : OptStill r (o.bind g) := by
  cases o with
  | none => exact OptStill.none
  | some s => exact hg s (h s rfl)

theorem OptStill.getD {r s : State} {o : Option State} (h : OptStill r o) (hs : Still r s) : Still r (o.getD s) := by
  cases o with
  | none => exact hs
  | some t => exact h t rfl

/-- What an optional result with a state leaves alone. -/
def Opt2Still {α : Type} (r : State) (o : Option (α × State)) : Prop := ∀ x t, o = some (x, t) → Still r t

theorem Opt2Still.some {α : Type} {r s : State} {x : α} (h : Still r s) : Opt2Still r (Option.some (x, s)) := by
  intro y t e
  cases e
  exact h

theorem Opt2Still.none {α : Type} {r : State} : Opt2Still (α := α) r none := fun _ _ e => nomatch e

theorem Opt2Still.elim {α : Type} {r t : State} {x : α} {o : Option (α × State)} (h : Opt2Still r o) (e : o = Option.some (x, t)) :
    Still r t := h x t e

theorem Opt2Still.pair {α : Type} {r : State} {p : α × State} {o : Option (α × State)} (h : Opt2Still r o) (e : o = Option.some p) :
    Still r p.2 := h p.1 p.2 e

/-- As `Opt2Still`, with two results beside the state. -/
def Opt3Still {α β : Type} (r : State) (o : Option (α × β × State)) : Prop := ∀ x y t, o = some (x, y, t) → Still r t

theorem Opt3Still.some {α β : Type} {r s : State} {x : α} {y : β} (h : Still r s) : Opt3Still r (Option.some (x, y, s)) := by
  intro x y t e
  cases e
  exact h

theorem Opt3Still.none {α β : Type} {r : State} : Opt3Still (α := α) (β := β) r none := fun _ _ _ e => nomatch e

theorem Opt3Still.elim {α β : Type} {r t : State} {x : α} {y : β} {o : Option (α × β × State)} (h : Opt3Still r o)
    (e : o = Option.some (x, y, t)) : Still r t := h x y t e

/-- The state of a result, named by a match. -/
theorem Still.snd {α : Type} {r t : State} {x : α} {p : α × State} (h : Still r p.2) (e : p = (x, t)) : Still r t := by
  subst e; exact h

theorem Still.fst {α : Type} {r t : State} {x : α} {p : State × α} (h : Still r p.1) (e : p = (t, x)) : Still r t := by
  subst e; exact h

theorem Still.third {α β : Type} {r t : State} {x : α} {y : β} {p : α × β × State} (h : Still r p.2.2) (e : p = (x, y, t)) :
    Still r t := by
  subst e; exact h

/-- What an outcome that goes on leaves alone. -/
def OutStill (r : State) (o : Host.Outcome State Fault Refusal) : Prop := ∀ t, o = .next t → Still r t

theorem OutStill.next {r s : State} (h : Still r s) : OutStill r (.next s) := by
  intro t e; cases e; exact h

theorem OutStill.fault {r : State} (f : Fault) : OutStill r (.fault f) := fun _ e => nomatch e

theorem OutStill.refused {r : State} (f : Refusal) : OutStill r (.refused f) := fun _ e => nomatch e

theorem guarded_still {r s : State} {ok : Bool} (h : Still r s) : OutStill r (guarded ok s) := by
  unfold guarded
  split
  · exact OutStill.next h
  · exact OutStill.refused _

theorem emit_still {r : State} {o : Output} {s : State} (hs : Still r s) :
    Still r (emit o s) := by
  unfold emit
  repeat' first
    | with_reducible assumption | with_reducible apply foldl_still | split | dsimp only | intro _ _ _ | intro _ _ | intro _
    | (with_reducible refine Still.mk_over ?_ rfl rfl rfl rfl rfl)

theorem onlyIf_still {r : State} {c : Bool} {f : State → State} {s : State} (hf : ∀ x0, Still r x0 → Still r (f x0)) (hs : Still r s) :
    Still r (onlyIf c f s) := by
  unfold onlyIf
  repeat' first
    | with_reducible assumption | with_reducible apply hf | with_reducible apply foldl_still | split | dsimp only | intro _ _ _
    | intro _ _ | intro _ | (with_reducible refine Still.mk_over ?_ rfl rfl rfl rfl rfl)

theorem putReg_still {r : State} {off : Nat} {inst : Nat} {v : Word} {s : State} (hs : Still r s) :
    Still r (putReg off inst v s) := by
  unfold putReg
  repeat' first
    | with_reducible assumption | with_reducible apply foldl_still | split | dsimp only | intro _ _ _ | intro _ _ | intro _
    | (with_reducible refine Still.mk_over ?_ rfl rfl rfl rfl rfl)

theorem wrX_still {r : State} {f : Fld} {i : Nat} {c : Nat} {v : Nat} {s : State} (hs : Still r s) :
    Still r (wrX f i c v s) := by
  unfold wrX
  repeat' first
    | with_reducible assumption | with_reducible apply putReg_still | with_reducible apply foldl_still | split | dsimp only
    | intro _ _ _ | intro _ _ | intro _ | (with_reducible refine Still.mk_over ?_ rfl rfl rfl rfl rfl)

theorem wr_still {r : State} {f : Fld} {v : Nat} {s : State} (hs : Still r s) :
    Still r (wr f v s) := by
  unfold wr
  repeat' first
    | with_reducible assumption | with_reducible apply wrX_still | with_reducible apply foldl_still | split | dsimp only
    | intro _ _ _ | intro _ _ | intro _ | (with_reducible refine Still.mk_over ?_ rfl rfl rfl rfl rfl)

theorem wrC_still {r : State} {f : Fld} {c : Nat} {v : Nat} {s : State} (hs : Still r s) :
    Still r (wrC f c v s) := by
  unfold wrC
  repeat' first
    | with_reducible assumption | with_reducible apply wrX_still | with_reducible apply foldl_still | split | dsimp only
    | intro _ _ _ | intro _ _ | intro _ | (with_reducible refine Still.mk_over ?_ rfl rfl rfl rfl rfl)

theorem satX_still {r : State} {f : Fld} {i : Nat} {c : Nat} {d : Nat} {s : State} (hs : Still r s) :
    Still r (satX f i c d s) := by
  unfold satX
  repeat' first
    | with_reducible assumption | with_reducible apply wrX_still | with_reducible apply foldl_still | split | dsimp only
    | intro _ _ _ | intro _ _ | intro _ | (with_reducible refine Still.mk_over ?_ rfl rfl rfl rfl rfl)

theorem incX_still {r : State} {f : Fld} {i : Nat} {c : Nat} {s : State} (hs : Still r s) :
    Still r (incX f i c s) := by
  unfold incX
  repeat' first
    | with_reducible assumption | with_reducible apply wrX_still | with_reducible apply foldl_still | split | dsimp only
    | intro _ _ _ | intro _ _ | intro _ | (with_reducible refine Still.mk_over ?_ rfl rfl rfl rfl rfl)

theorem putCtr_still {r : State} {key : Nat} {v : Nat} {s : State} (hs : Still r s) :
    Still r (putCtr key v s) := by
  unfold putCtr
  repeat' first
    | with_reducible assumption | with_reducible apply foldl_still | split | dsimp only | intro _ _ _ | intro _ _ | intro _
    | (with_reducible refine Still.mk_over ?_ rfl rfl rfl rfl rfl)

theorem putWrap_still {r : State} {key : Nat} {v : Bool} {s : State} (hs : Still r s) :
    Still r (putWrap key v s) := by
  unfold putWrap
  repeat' first
    | with_reducible assumption | with_reducible apply foldl_still | split | dsimp only | intro _ _ _ | intro _ _ | intro _
    | (with_reducible refine Still.mk_over ?_ rfl rfl rfl rfl rfl)

theorem addCtr_still {r : State} {key : Nat} {d : Nat} {s : State} (hs : Still r s) :
    Still r (addCtr key d s).1 := by
  unfold addCtr
  try dsimp only
  repeat' first
    | split | with_reducible assumption | with_reducible apply putCtr_still | with_reducible apply putWrap_still
    | with_reducible apply foldl_still | dsimp only | intro _ _ _ | intro _ _ | intro _
    | (with_reducible refine Still.mk_over ?_ rfl rfl rfl rfl rfl)

theorem raise_still {r : State} {e : Src} {s : State} (hs : Still r s) :
    Still r (raise e s) :=
  hs.trans (raise_onlyEvents e s).still

theorem raiseC_still {r : State} {e : Src} {c : Nat} {s : State} (hs : Still r s) :
    Still r (raiseC e c s) :=
  hs.trans (raiseC_onlyEvents e c s).still

theorem count_still {r : State} {k : CtrSet} {i : Nat} {c : Nat} {d : Nat} {s : State} (hs : Still r s) :
    Still r (count k i c d s) := by
  unfold count
  repeat' first
    | with_reducible assumption | with_reducible apply addCtr_still | with_reducible apply raiseC_still
    | with_reducible apply raise_still | with_reducible apply foldl_still | split | dsimp only | intro _ _ _ | intro _ _
    | intro _ | (refine Still.fst ?_ ‹_›) | (with_reducible refine Still.mk_over ?_ rfl rfl rfl rfl rfl)

theorem accessError_still {r : State} {w : Window} {off : Nat} {write : Bool} {s : State} (hs : Still r s) :
    Still r (accessError w off write s) := by
  unfold accessError
  repeat' first
    | with_reducible assumption | with_reducible apply raise_still | with_reducible apply wr_still
    | with_reducible apply foldl_still | split | dsimp only | intro _ _ _ | intro _ _ | intro _
    | (with_reducible refine Still.mk_over ?_ rfl rfl rfl rfl rfl)

theorem putTieLink_still {r : State} {k : Nat} {x : TieLinkSt} {s : State} (hs : Still r s) :
    Still r (putTieLink k x s) := by
  unfold putTieLink
  repeat' first
    | with_reducible assumption | split | dsimp only | (with_reducible refine Still.mk_over ?_ rfl rfl rfl rfl rfl)

theorem modTieLink_still {r : State} {k : Nat} {f : TieLinkSt → TieLinkSt} {s : State} (hs : Still r s) :
    Still r (modTieLink k f s) := by
  unfold modTieLink
  repeat' first
    | with_reducible assumption | with_reducible apply putTieLink_still | split | dsimp only
    | (with_reducible refine Still.mk_over ?_ rfl rfl rfl rfl rfl)

theorem refreshJoined_still {r : State} {s : State} (hs : Still r s) :
    Still r (refreshJoined s) := by
  unfold refreshJoined
  repeat' first
    | with_reducible assumption | with_reducible apply wr_still | split | dsimp only
    | (with_reducible refine Still.mk_over ?_ rfl rfl rfl rfl rfl)

theorem clearLink_still {r : State} {k : Nat} {s : State} (hs : Still r s) :
    Still r (clearLink k s) := by
  unfold clearLink
  repeat' first
    | with_reducible assumption | with_reducible apply modTieLink_still | with_reducible apply wrC_still | split | dsimp only
    | intro _ _ _ | intro _ _ | intro _ | (with_reducible refine Still.mk_over ?_ rfl rfl rfl rfl rfl)

theorem tieLinkDown_still {r : State} {k : Nat} {s : State} (hs : Still r s) :
    Still r (tieLinkDown k s) := by
  unfold tieLinkDown
  repeat' first
    | with_reducible assumption | with_reducible apply refreshJoined_still | with_reducible apply clearLink_still
    | with_reducible apply wrC_still | split | dsimp only | (with_reducible refine Still.mk_over ?_ rfl rfl rfl rfl rfl)

theorem tieLanesLost_still {r : State} {k : Nat} {s : State} (hs : Still r s) :
    Still r (tieLanesLost k s) := by
  unfold tieLanesLost
  repeat' first
    | with_reducible assumption | with_reducible apply tieLinkDown_still | split | dsimp only | intro _ _ _ | intro _ _
    | intro _ | (with_reducible refine Still.mk_over ?_ rfl rfl rfl rfl rfl)

theorem refreshSynce1_still {r : State} {k : Nat} {s : State} (hs : Still r s) :
    Still r (refreshSynce1 k s) := by
  unfold refreshSynce1
  repeat' first
    | with_reducible assumption | with_reducible apply raise_still | split | dsimp only
    | (with_reducible refine Still.mk_over ?_ rfl rfl rfl rfl rfl)

theorem refreshSynce_still {r : State} {s : State} (hs : Still r s) :
    Still r (refreshSynce s) := by
  unfold refreshSynce
  repeat' first
    | with_reducible assumption | with_reducible apply refreshSynce1_still | split | dsimp only
    | (with_reducible refine Still.mk_over ?_ rfl rfl rfl rfl rfl)

theorem setLane_still {r : State} {l : Nat} {v : Nat} {s : State} (hs : Still r s) :
    Still r (setLane l v s) := by
  unfold setLane
  repeat' first
    | with_reducible assumption | with_reducible apply wrC_still | with_reducible apply foldl_still | split | dsimp only
    | intro _ _ _ | intro _ _ | intro _ | (with_reducible refine Still.mk_over ?_ rfl rfl rfl rfl rfl)

theorem setTaps_still {r : State} {l : Nat} {pre : Nat} {post : Nat} {s : State} (hs : Still r s) :
    Still r (setTaps l pre post s) := by
  unfold setTaps
  repeat' first
    | with_reducible assumption | with_reducible apply wrC_still | with_reducible apply foldl_still | split | dsimp only
    | intro _ _ _ | intro _ _ | intro _ | (with_reducible refine Still.mk_over ?_ rfl rfl rfl rfl rfl)

theorem loadTaps_still {r : State} {l : Nat} {s : State} (hs : Still r s) :
    Still r (loadTaps l s) := by
  unfold loadTaps
  repeat' first
    | with_reducible assumption | with_reducible apply setTaps_still | with_reducible apply wrC_still | split | dsimp only
    | intro _ _ _ | intro _ _ | intro _ | (with_reducible refine Still.mk_over ?_ rfl rfl rfl rfl rfl)

theorem clearPass_still {r : State} {l : Nat} {s : State} (hs : Still r s) :
    Still r (clearPass l s) := by
  unfold clearPass
  repeat' first
    | with_reducible assumption | with_reducible apply wrC_still | split | dsimp only | intro _ _ _ | intro _ _ | intro _
    | (with_reducible refine Still.mk_over ?_ rfl rfl rfl rfl rfl)

theorem afterRetune_still {r : State} {ls : List Nat} {l : Nat} {s : State} (hs : Still r s) :
    Still r (afterRetune ls l s) := by
  unfold afterRetune
  repeat' first
    | with_reducible assumption | with_reducible apply wrC_still | with_reducible apply setLane_still
    | with_reducible apply foldl_still | split | dsimp only | intro _ _ _ | intro _ _ | intro _
    | (with_reducible refine Still.mk_over ?_ rfl rfl rfl rfl rfl)

theorem firstStep_still {r : State} {ls : List Nat} {l : Nat} {s : State} (hs : Still r s) :
    Still r (firstStep ls l s) := by
  unfold firstStep
  repeat' first
    | with_reducible assumption | with_reducible apply clearPass_still | with_reducible apply wrC_still
    | with_reducible apply setTaps_still | with_reducible apply setLane_still | with_reducible apply afterRetune_still
    | with_reducible apply foldl_still | split | dsimp only | intro _ _ _ | intro _ _ | intro _
    | (with_reducible refine Still.mk_over ?_ rfl rfl rfl rfl rfl)

theorem baseRate_still {r : State} {l : Nat} {s : State} (hs : Still r s) :
    Still r (baseRate l s) := by
  unfold baseRate
  repeat' first
    | with_reducible assumption | with_reducible apply wrC_still | split | dsimp only | intro _ _ _ | intro _ _ | intro _
    | (with_reducible refine Still.mk_over ?_ rfl rfl rfl rfl rfl)

theorem testLane_still {r : State} {l : Nat} {s : State} (hs : Still r s) :
    Still r (testLane l s) := by
  unfold testLane
  repeat' first
    | with_reducible assumption | with_reducible apply setLane_still | with_reducible apply baseRate_still
    | with_reducible apply clearPass_still | split | dsimp only | intro _ _ _ | intro _ _ | intro _
    | (with_reducible refine Still.mk_over ?_ rfl rfl rfl rfl rfl)

theorem enterSequence_still {r : State} {ls : List Nat} {l : Nat} {s : State} (hs : Still r s) :
    Still r (enterSequence ls l s) := by
  unfold enterSequence
  repeat' first
    | with_reducible assumption | with_reducible apply testLane_still | with_reducible apply firstStep_still
    | with_reducible apply setLane_still | with_reducible apply clearPass_still | split | dsimp only | intro _ _ _ | intro _ _
    | intro _ | (with_reducible refine Still.mk_over ?_ rfl rfl rfl rfl rfl)

theorem startLanes_still {r : State} {ls : List Nat} {s : State} (hs : Still r s) :
    Still r (startLanes ls s) := by
  unfold startLanes
  repeat' first
    | with_reducible assumption | with_reducible apply foldOver_still | with_reducible apply refreshSynce_still
    | with_reducible apply enterSequence_still | with_reducible apply foldl_still | split | dsimp only | intro _ _ _ | intro _ _
    | intro _ | (with_reducible refine Still.mk_over ?_ rfl rfl rfl rfl rfl)

theorem laneDown_still {r : State} {l : Nat} {s : State} (hs : Still r s) :
    Still r (laneDown l s) := by
  unfold laneDown
  repeat' first
    | with_reducible assumption | with_reducible apply raiseC_still | with_reducible apply satX_still
    | with_reducible apply foldl_still | split | dsimp only | intro _ _ _ | intro _ _ | intro _
    | (with_reducible refine Still.mk_over ?_ rfl rfl rfl rfl rfl)

theorem portCount_still {r : State} {i : Nat} {p : Nat} {d : Nat} {s : State} (hs : Still r s) :
    Still r (portCount i p d s) := by
  unfold portCount
  repeat' first
    | with_reducible assumption | with_reducible apply count_still | with_reducible apply foldl_still | split | dsimp only
    | intro _ _ _ | intro _ _ | intro _ | (with_reducible refine Still.mk_over ?_ rfl rfl rfl rfl rfl)

theorem flap_still {r : State} {p : Nat} {s : State} (hs : Still r s) :
    Still r (flap p s) := by
  unfold flap
  repeat' first
    | with_reducible assumption | with_reducible apply wrC_still | with_reducible apply emit_still
    | with_reducible apply raiseC_still | with_reducible apply portCount_still | split
    | dsimp only | intro _ _ _ | intro _ _ | intro _ | (with_reducible refine Still.mk_over ?_ rfl rfl rfl rfl rfl)

theorem portDown_still {r : State} {p : Nat} {s : State} (hs : Still r s) :
    Still r (portDown p s) := by
  unfold portDown
  repeat' first
    | with_reducible assumption | with_reducible apply flap_still | with_reducible apply refreshSynce_still
    | with_reducible apply raiseC_still | with_reducible apply portCount_still | with_reducible apply wrC_still
    | with_reducible apply foldl_still | split | dsimp only | intro _ _ _ | intro _ _ | intro _
    | (with_reducible refine Still.mk_over ?_ rfl rfl rfl rfl rfl)

theorem putTrig_still {r : State} {k : Nat} {x : Trig} {s : State} (hs : Still r s) :
    Still r (putTrig k x s) := by
  unfold putTrig
  repeat' first
    | with_reducible assumption | split | dsimp only | (with_reducible refine Still.mk_over ?_ rfl rfl rfl rfl rfl)

theorem showFec_still {r : State} {p : Nat} {s : State} (hs : Still r s) :
    Still r (showFec p s) := by
  unfold showFec
  repeat' first
    | with_reducible assumption | with_reducible apply wrC_still | split | dsimp only | intro _ _ _ | intro _ _ | intro _
    | (with_reducible refine Still.mk_over ?_ rfl rfl rfl rfl rfl)

theorem prtStarting_still {r : State} {p : Nat} {s : State} (hs : Still r s) :
    Still r (prtStarting p s) := by
  unfold prtStarting
  repeat' first
    | with_reducible assumption | with_reducible apply showFec_still | with_reducible apply startLanes_still
    | with_reducible apply onlyIf_still | with_reducible apply emit_still | split
    | dsimp only | intro _ _ _ | intro _ _ | intro _ | (with_reducible refine Still.mk_over ?_ rfl rfl rfl rfl rfl)

theorem prtStopped_still {r : State} {p : Nat} {s : State} (hs : Still r s) :
    Still r (prtStopped p s) := by
  unfold prtStopped
  repeat' first
    | with_reducible assumption | with_reducible apply wrC_still | with_reducible apply startLanes_still | split | dsimp only
    | (with_reducible refine Still.mk_over ?_ rfl rfl rfl rfl rfl)

theorem l2tClear_still {r : State} {s : State} (hs : Still r s) :
    Still r (l2tClear s) := by
  unfold l2tClear
  repeat' first
    | with_reducible assumption | with_reducible apply foldl_still | split | dsimp only | intro _ _ _ | intro _ _ | intro _
    | (with_reducible refine Still.mk_over ?_ rfl rfl rfl rfl rfl)

theorem lpmClear_still {r : State} {s : State} (hs : Still r s) :
    Still r (lpmClear s) := by
  unfold lpmClear
  repeat' first
    | with_reducible assumption | with_reducible apply foldl_still | split | dsimp only | intro _ _ _ | intro _ _ | intro _
    | (with_reducible refine Still.mk_over ?_ rfl rfl rfl rfl rfl)

theorem putTokens_still {r : State} {d : Nat} {c : Nat} {t : Int} {s : State} (hs : Still r s) :
    Still r (putTokens d c t s) := by
  unfold putTokens
  repeat' first
    | with_reducible assumption | with_reducible apply foldl_still | split | dsimp only | intro _ _ _ | intro _ _ | intro _
    | (with_reducible refine Still.mk_over ?_ rfl rfl rfl rfl rfl)

theorem fillShapers_still {r : State} {d : Nat} {s : State} (hs : Still r s) :
    Still r (fillShapers d s) := by
  unfold fillShapers
  repeat' first
    | with_reducible assumption | with_reducible apply foldOver_still | with_reducible apply putTokens_still
    | with_reducible apply foldl_still | split | dsimp only | intro _ _ _ | intro _ _ | intro _
    | (with_reducible refine Still.mk_over ?_ rfl rfl rfl rfl rfl)

theorem clearGates_still {r : State} {d : Nat} {s : State} (hs : Still r s) :
    Still r (clearGates d s) := by
  unfold clearGates
  repeat' first
    | with_reducible assumption | with_reducible apply foldl_still | split | dsimp only | intro _ _ _ | intro _ _ | intro _
    | (with_reducible refine Still.mk_over ?_ rfl rfl rfl rfl rfl)

theorem faultLog_still {r : State} {t : Target} {kind : Nat} {s : State} (hs : Still r s) :
    Still r (faultLog t kind s) := by
  unfold faultLog
  repeat' first
    | with_reducible assumption | with_reducible apply wr_still | split | dsimp only
    | (with_reducible refine Still.mk_over ?_ rfl rfl rfl rfl rfl)

theorem putOwnerOf_still {r : State} {p : Nat} {i : Nat} {v : Nat} {s : State} (hs : Still r s) :
    Still r (putOwnerOf p i v s) := by
  unfold putOwnerOf
  repeat' first
    | with_reducible assumption | with_reducible apply foldl_still | split | dsimp only | intro _ _ _ | intro _ _ | intro _
    | (with_reducible refine Still.mk_over ?_ rfl rfl rfl rfl rfl)

theorem retireLimit_still {r : State} {p : Nat} {s : State} (hs : Still r s) :
    Still r (retireLimit p s) := by
  unfold retireLimit
  repeat' first
    | with_reducible assumption | with_reducible apply raise_still | split | dsimp only | intro _ _ _ | intro _ _ | intro _
    | (with_reducible refine Still.mk_over ?_ rfl rfl rfl rfl rfl)

theorem retireBuffer_still {r : State} {p : Nat} {i : Nat} {s : State} (hs : Still r s) :
    Still r (retireBuffer p i s) := by
  unfold retireBuffer
  repeat' first
    | with_reducible assumption | with_reducible apply raise_still | with_reducible apply wrX_still
    | with_reducible apply putOwnerOf_still | with_reducible apply retireLimit_still | split | dsimp only | intro _ _ _
    | intro _ _ | intro _ | (with_reducible refine Still.mk_over ?_ rfl rfl rfl rfl rfl)

theorem guardCheck_still {r : State} {s : State} (hs : Still r s) :
    Still r (guardCheck s) := by
  unfold guardCheck
  repeat' first
    | with_reducible assumption | with_reducible apply raise_still | split | dsimp only | intro _ _ _ | intro _ _ | intro _
    | (with_reducible refine Still.mk_over ?_ rfl rfl rfl rfl rfl)

theorem poolLowCheck_still {r : State} {p : Nat} {before : Int} {s : State} (hs : Still r s) :
    Still r (poolLowCheck p before s) := by
  unfold poolLowCheck
  repeat' first
    | with_reducible assumption | with_reducible apply raise_still | split | dsimp only | intro _ _ _ | intro _ _ | intro _
    | (with_reducible refine Still.mk_over ?_ rfl rfl rfl rfl rfl)

theorem noteShared_still {r : State} {p : Nat} {before : Int} {s : State} (hs : Still r s) :
    Still r (noteShared p before s) := by
  unfold noteShared
  repeat' first
    | with_reducible assumption | with_reducible apply poolLowCheck_still | with_reducible apply guardCheck_still | split
    | dsimp only | intro _ _ _ | intro _ _ | intro _ | (with_reducible refine Still.mk_over ?_ rfl rfl rfl rfl rfl)

theorem giveBack_still {r : State} {p : Nat} {i : Nat} {r1 : Nat} {s : State} (hs : Still r s) :
    Still r (giveBack p i r1 s) := by
  unfold giveBack
  repeat' first
    | with_reducible assumption | with_reducible apply wrX_still | with_reducible apply putOwnerOf_still
    | with_reducible apply noteShared_still | with_reducible apply retireBuffer_still | split | dsimp only | intro _ _ _
    | intro _ _ | intro _ | (with_reducible refine Still.mk_over ?_ rfl rfl rfl rfl rfl)

theorem giveCells_still {r : State} {r0 : Nat} {is : List Nat} {s : State} (hs : Still r s) :
    Still r (giveCells r0 is s) := by
  unfold giveCells
  repeat' first
    | with_reducible assumption | with_reducible apply foldOver_still | with_reducible apply giveBack_still
    | with_reducible apply foldl_still | split | dsimp only | intro _ _ _ | intro _ _ | intro _
    | (with_reducible refine Still.mk_over ?_ rfl rfl rfl rfl rfl)

theorem retireFreed_still {r : State} {s : State} (hs : Still r s) :
    Still r (retireFreed s) := by
  unfold retireFreed
  repeat' first
    | with_reducible assumption | with_reducible apply foldOver_still | with_reducible apply retireBuffer_still | split
    | dsimp only | intro _ _ _ | intro _ _ | intro _ | (with_reducible refine Still.mk_over ?_ rfl rfl rfl rfl rfl)

theorem bpmStarting_still {r : State} {s : State} (hs : Still r s) :
    Still r (bpmStarting s) := by
  unfold bpmStarting
  repeat' first
    | with_reducible assumption | with_reducible apply retireFreed_still | with_reducible apply foldOver_still
    | with_reducible apply wrX_still | split | dsimp only | intro _ _ _ | intro _ _ | intro _
    | (with_reducible refine Still.mk_over ?_ rfl rfl rfl rfl rfl)

theorem bpmForced_still {r : State} {s : State} (hs : Still r s) :
    Still r (bpmForced s) := by
  unfold bpmForced
  repeat' first
    | with_reducible assumption | with_reducible apply retireFreed_still | with_reducible apply foldOver_still
    | with_reducible apply wrX_still | split | dsimp only | intro _ _ _ | intro _ _ | intro _
    | (with_reducible refine Still.mk_over ?_ rfl rfl rfl rfl rfl)

theorem freeVersion_still {r : State} {s : State} (hs : Still r s) :
    Still r (freeVersion s) := by
  unfold freeVersion
  repeat' first
    | with_reducible assumption | with_reducible apply raise_still | with_reducible apply wr_still
    | with_reducible apply foldl_still | split | dsimp only | intro _ _ _ | intro _ _ | intro _
    | (with_reducible refine Still.mk_over ?_ rfl rfl rfl rfl rfl)

theorem freeIfDrained_still {r : State} {s : State} (hs : Still r s) :
    Still r (freeIfDrained s) := by
  unfold freeIfDrained
  repeat' first
    | with_reducible assumption | with_reducible apply freeVersion_still | with_reducible apply foldl_still | split | dsimp only
    | intro _ _ _ | intro _ _ | intro _ | (with_reducible refine Still.mk_over ?_ rfl rfl rfl rfl rfl)

theorem putFrame_still {r : State} {i : Nat} {f : Frame} {s : State} (hs : Still r s) :
    Still r (putFrame i f s) := by
  unfold putFrame
  repeat' first
    | with_reducible assumption | with_reducible apply foldl_still | split | dsimp only | intro _ _ _ | intro _ _ | intro _
    | (with_reducible refine Still.mk_over ?_ rfl rfl rfl rfl rfl)

theorem modFrame_still {r : State} {i : Nat} {g : Frame → Frame} {s : State} (hs : Still r s) :
    Still r (modFrame i g s) := by
  unfold modFrame
  repeat' first
    | with_reducible assumption | with_reducible apply putFrame_still | with_reducible apply foldl_still | split | dsimp only
    | intro _ _ _ | intro _ _ | intro _ | (with_reducible refine Still.mk_over ?_ rfl rfl rfl rfl rfl)

theorem endFrame_still {r : State} {i : Nat} {s : State} (hs : Still r s) :
    Still r (endFrame i s) := by
  unfold endFrame
  repeat' first
    | with_reducible assumption | with_reducible apply freeIfDrained_still | with_reducible apply foldl_still | split
    | dsimp only | intro _ _ _ | intro _ _ | intro _ | (with_reducible refine Still.mk_over ?_ rfl rfl rfl rfl rfl)

theorem putVoq_still {r : State} {g : Nat} {d : Nat} {c : Nat} {l : List Nat} {s : State} (hs : Still r s) :
    Still r (putVoq g d c l s) := by
  unfold putVoq
  repeat' first
    | with_reducible assumption | with_reducible apply foldl_still | split | dsimp only | intro _ _ _ | intro _ _ | intro _
    | (with_reducible refine Still.mk_over ?_ rfl rfl rfl rfl rfl)

theorem returnCredits_still {r : State} {f : Frame} {n : Nat} {s : State} (hs : Still r s) :
    Still r (returnCredits f n s) := by
  unfold returnCredits
  repeat' first
    | with_reducible assumption | with_reducible apply emit_still | split | dsimp only | intro _ _ _ | intro _ _ | intro _
    | (with_reducible refine Still.mk_over ?_ rfl rfl rfl rfl rfl)

theorem advanceCells_still {r : State} {i : Nat} {n : Nat} {s : State} (hs : Still r s) :
    Still r (advanceCells i n s) := by
  unfold advanceCells
  repeat' first
    | with_reducible assumption | with_reducible apply returnCredits_still | with_reducible apply giveCells_still
    | with_reducible apply putFrame_still | split | dsimp only | intro _ _ _ | intro _ _ | intro _
    | (with_reducible refine Still.mk_over ?_ rfl rfl rfl rfl rfl)

theorem unqueue_still {r : State} {i : Nat} {s : State} (hs : Still r s) :
    Still r (unqueue i s) := by
  unfold unqueue
  repeat' first
    | with_reducible assumption | with_reducible apply putFrame_still | with_reducible apply putVoq_still
    | with_reducible apply foldl_still | split | dsimp only | intro _ _ _ | intro _ _ | intro _
    | (with_reducible refine Still.mk_over ?_ rfl rfl rfl rfl rfl)

theorem removeFrame_still {r : State} {i : Nat} {s : State} (hs : Still r s) :
    Still r (removeFrame i s) := by
  unfold removeFrame
  repeat' first
    | with_reducible assumption | with_reducible apply modFrame_still | with_reducible apply endFrame_still
    | with_reducible apply foldl_still | split | dsimp only | intro _ _ _ | intro _ _ | intro _
    | (with_reducible refine Still.mk_over ?_ rfl rfl rfl rfl rfl)

theorem detachRx_still {r : State} {i : Nat} {s : State} (hs : Still r s) :
    Still r (detachRx i s) := by
  unfold detachRx
  repeat' first
    | with_reducible assumption | with_reducible apply foldl_still | split | dsimp only | intro _ _ _ | intro _ _ | intro _
    | (with_reducible refine Still.mk_over ?_ rfl rfl rfl rfl rfl)

theorem putTag_still {r : State} {d : Nat} {c : Nat} {v : Nat} {s : State} (hs : Still r s) :
    Still r (putTag d c v s) := by
  unfold putTag
  repeat' first
    | with_reducible assumption | with_reducible apply foldl_still | split | dsimp only | intro _ _ _ | intro _ _ | intro _
    | (with_reducible refine Still.mk_over ?_ rfl rfl rfl rfl rfl)

theorem refreshActive_still {r : State} {d : Nat} {c : Nat} {s : State} (hs : Still r s) :
    Still r (refreshActive d c s) := by
  unfold refreshActive
  repeat' first
    | with_reducible assumption | with_reducible apply putTag_still | with_reducible apply foldl_still | split | dsimp only
    | intro _ _ _ | intro _ _ | intro _ | (with_reducible refine Still.mk_over ?_ rfl rfl rfl rfl rfl)

theorem dropUse_still {r : State} {i : Nat} {s : State} (hs : Still r s) :
    Still r (dropUse i s) := by
  unfold dropUse
  repeat' first
    | with_reducible assumption | with_reducible apply refreshActive_still | with_reducible apply removeFrame_still
    | with_reducible apply detachRx_still | with_reducible apply unqueue_still | with_reducible apply advanceCells_still
    | with_reducible apply foldl_still | split | dsimp only | intro _ _ _ | intro _ _ | intro _
    | (with_reducible refine Still.mk_over ?_ rfl rfl rfl rfl rfl)

theorem dropFrame_still {r : State} {i : Nat} {s : State} (hs : Still r s) :
    Still r (dropFrame i s) := by
  unfold dropFrame
  repeat' first
    | with_reducible assumption | with_reducible apply dropUse_still | with_reducible apply foldl_still | split | dsimp only
    | intro _ _ _ | intro _ _ | intro _ | (with_reducible refine Still.mk_over ?_ rfl rfl rfl rfl rfl)

theorem destOffDrop_still {r : State} {i : Nat} {s : State} (hs : Still r s) :
    Still r (destOffDrop i s) := by
  unfold destOffDrop
  repeat' first
    | with_reducible assumption | with_reducible apply dropFrame_still | with_reducible apply portCount_still
    | with_reducible apply raise_still | with_reducible apply count_still | with_reducible apply foldl_still | split
    | dsimp only | intro _ _ _ | intro _ _ | intro _ | (with_reducible refine Still.mk_over ?_ rfl rfl rfl rfl rfl)

theorem dropQueued_still {r : State} {s : State} (hs : Still r s) :
    Still r (dropQueued s) := by
  unfold dropQueued
  repeat' first
    | with_reducible assumption | with_reducible apply foldOver_still | with_reducible apply dropFrame_still
    | with_reducible apply count_still | split | dsimp only | intro _ _ _ | intro _ _ | intro _
    | (with_reducible refine Still.mk_over ?_ rfl rfl rfl rfl rfl)

theorem swcStarting_still {r : State} {s : State} (hs : Still r s) :
    Still r (swcStarting s) := by
  unfold swcStarting
  repeat' first
    | with_reducible assumption | with_reducible apply foldOver_still | with_reducible apply dropUse_still | split | dsimp only
    | intro _ _ _ | intro _ _ | intro _ | (with_reducible refine Still.mk_over ?_ rfl rfl rfl rfl rfl)

theorem hbmWrite_still {r : State} {a : Nat} {bs : List Byte} {s : State} (hs : Still r s) :
    Still r (hbmWrite a bs s) := by
  unfold hbmWrite
  repeat' first
    | with_reducible assumption | with_reducible apply foldl_still | split | dsimp only | intro _ _ _ | intro _ _ | intro _
    | (with_reducible refine Still.mk_over ?_ rfl rfl rfl rfl rfl)

theorem putCache_still {r : State} {l : List Line} {s : State} (hs : Still r s) :
    Still r (putCache l s) := by
  unfold putCache
  repeat' first
    | with_reducible assumption | with_reducible apply foldl_still | split | dsimp only | intro _ _ _ | intro _ _ | intro _
    | (with_reducible refine Still.mk_over ?_ rfl rfl rfl rfl rfl)

theorem modLine_still {r : State} {i : Nat} {f : Line → Line} {s : State} (hs : Still r s) :
    Still r (modLine i f s) := by
  unfold modLine
  repeat' first
    | with_reducible assumption | with_reducible apply putCache_still | with_reducible apply foldl_still | split | dsimp only
    | intro _ _ _ | intro _ _ | intro _ | (with_reducible refine Still.mk_over ?_ rfl rfl rfl rfl rfl)

theorem writeBack_still {r : State} {l : Line} {s : State} (hs : Still r s) :
    Still r (writeBack l s) := by
  unfold writeBack
  repeat' first
    | with_reducible assumption | with_reducible apply count_still | with_reducible apply hbmWrite_still
    | with_reducible apply foldl_still | split | dsimp only | intro _ _ _ | intro _ _ | intro _
    | (with_reducible refine Still.mk_over ?_ rfl rfl rfl rfl rfl)

theorem writeBackAll_still {r : State} {s : State} (hs : Still r s) :
    Still r (writeBackAll s) := by
  unfold writeBackAll
  repeat' first
    | with_reducible assumption | with_reducible apply foldOver_still | with_reducible apply putCache_still
    | with_reducible apply writeBack_still | with_reducible apply foldl_still | split | dsimp only | intro _ _ _ | intro _ _
    | intro _ | (with_reducible refine Still.mk_over ?_ rfl rfl rfl rfl rfl)

theorem flowReset_still {r : State} {s : State} (hs : Still r s) :
    Still r (flowReset s) := by
  unfold flowReset
  repeat' first
    | with_reducible assumption | with_reducible apply foldl_still | split | dsimp only | intro _ _ _ | intro _ _ | intro _
    | (with_reducible refine Still.mk_over ?_ rfl rfl rfl rfl rfl)

theorem putFence_still {r : State} {e : Nat} {x : Fence} {s : State} (hs : Still r s) :
    Still r (putFence e x s) := by
  unfold putFence
  repeat' first
    | with_reducible assumption | split | dsimp only | (with_reducible refine Still.mk_over ?_ rfl rfl rfl rfl rfl)

theorem putCluster_still {r : State} {c : Nat} {x : Cluster} {s : State} (hs : Still r s) :
    Still r (putCluster c x s) := by
  unfold putCluster
  repeat' first
    | with_reducible assumption | split | dsimp only | (with_reducible refine Still.mk_over ?_ rfl rfl rfl rfl rfl)

theorem modCluster_still {r : State} {c : Nat} {f : Cluster → Cluster} {s : State} (hs : Still r s) :
    Still r (modCluster c f s) := by
  unfold modCluster
  repeat' first
    | with_reducible assumption | with_reducible apply putCluster_still | split | dsimp only
    | (with_reducible refine Still.mk_over ?_ rfl rfl rfl rfl rfl)

theorem modItem_still {r : State} {c : Nat} {q : Nat} {f : Item → Item} {s : State} (hs : Still r s) :
    Still r (modItem c q f s) := by
  unfold modItem
  repeat' first
    | with_reducible assumption | with_reducible apply modCluster_still | split | dsimp only
    | (with_reducible refine Still.mk_over ?_ rfl rfl rfl rfl rfl)

theorem dspCount_still {r : State} {k : Nat} {c : Nat} {s : State} (hs : Still r s) :
    Still r (dspCount k c s) := by
  unfold dspCount
  repeat' first
    | with_reducible assumption | with_reducible apply count_still | split | dsimp only
    | (with_reducible refine Still.mk_over ?_ rfl rfl rfl rfl rfl)

theorem noteFall_still {r : State} {c : Nat} {s : State} (hs : Still r s) :
    Still r (noteFall c s) := by
  unfold noteFall
  repeat' first
    | with_reducible assumption | with_reducible apply putCluster_still | split | dsimp only | intro _ _ _ | intro _ _ | intro _
    | (with_reducible refine Still.mk_over ?_ rfl rfl rfl rfl rfl)

theorem removeItem_still {r : State} {c : Nat} {q : Nat} {s : State} (hs : Still r s) :
    Still r (removeItem c q s) := by
  unfold removeItem
  repeat' first
    | with_reducible assumption | with_reducible apply noteFall_still | with_reducible apply modCluster_still | split
    | dsimp only | intro _ _ _ | intro _ _ | intro _ | (with_reducible refine Still.mk_over ?_ rfl rfl rfl rfl rfl)

theorem unlockItem_still {r : State} {i : Item} {s : State} (hs : Still r s) :
    Still r (unlockItem i s) := by
  unfold unlockItem
  repeat' first
    | with_reducible assumption | with_reducible apply modLine_still | split | dsimp only
    | (with_reducible refine Still.mk_over ?_ rfl rfl rfl rfl rfl)

theorem unslot_still {r : State} {i : Item} {s : State} (hs : Still r s) :
    Still r (unslot i s) := by
  unfold unslot
  repeat' first
    | with_reducible assumption | split | dsimp only | (with_reducible refine Still.mk_over ?_ rfl rfl rfl rfl rfl)

theorem cancelNow_still {r : State} {c : Nat} {i : Item} {reason : Nat} {s : State} (hs : Still r s) :
    Still r (cancelNow c i reason s) := by
  unfold cancelNow
  repeat' first
    | with_reducible assumption | with_reducible apply dspCount_still | with_reducible apply dropFrame_still
    | with_reducible apply removeItem_still | with_reducible apply unlockItem_still | with_reducible apply unslot_still
    | with_reducible apply raiseC_still | split | dsimp only | (with_reducible refine Still.mk_over ?_ rfl rfl rfl rfl rfl)

theorem actCancel_still {r : State} {c : Nat} {i : Item} {s : State} (hs : Still r s) :
    Still r (actCancel c i s) := by
  unfold actCancel
  repeat' first
    | with_reducible assumption | with_reducible apply dspCount_still | with_reducible apply modItem_still
    | with_reducible apply cancelNow_still | split | dsimp only
    | (with_reducible refine Still.mk_over ?_ rfl rfl rfl rfl rfl)

theorem askCancel_still {r : State} {c : Nat} {q : Nat} {reason : Nat} {s : State} (hs : Still r s) :
    Still r (askCancel c q reason s) := by
  unfold askCancel
  repeat' first
    | with_reducible assumption | with_reducible apply modItem_still | split | dsimp only
    | (with_reducible refine Still.mk_over ?_ rfl rfl rfl rfl rfl)

theorem putEngine_still {r : State} {e : Nat} {x : Engine} {s : State} (hs : Still r s) :
    Still r (putEngine e x s) := by
  unfold putEngine
  repeat' first
    | with_reducible assumption | split | dsimp only | (with_reducible refine Still.mk_over ?_ rfl rfl rfl rfl rfl)

theorem offerOp_still {r : State} {i : Item} {s : State} (hs : Still r s) :
    Still r (offerOp i s) := by
  unfold offerOp
  repeat' first
    | with_reducible assumption | split | dsimp only | (with_reducible refine Still.mk_over ?_ rfl rfl rfl rfl rfl)

theorem noteRise_still {r : State} {c : Nat} {s : State} (hs : Still r s) :
    Still r (noteRise c s) := by
  unfold noteRise
  repeat' first
    | with_reducible assumption | with_reducible apply raiseC_still | with_reducible apply putCluster_still | split | dsimp only
    | intro _ _ _ | intro _ _ | intro _ | (with_reducible refine Still.mk_over ?_ rfl rfl rfl rfl rfl)

theorem transferItem_still {r : State} {o : Nat} {n : Nat} {i : Item} {s : State} (hs : Still r s) :
    Still r (transferItem o n i s) := by
  unfold transferItem
  repeat' first
    | with_reducible assumption | with_reducible apply removeItem_still | with_reducible apply unlockItem_still
    | with_reducible apply noteRise_still | with_reducible apply putCluster_still | with_reducible apply raiseC_still
    | with_reducible apply dspCount_still | split | dsimp only | intro _ _ _ | intro _ _ | intro _
    | (with_reducible refine Still.mk_over ?_ rfl rfl rfl rfl rfl)

theorem transferEntry_still {r : State} {e : Nat} {o : Nat} {s : State} (hs : Still r s) :
    Still r (transferEntry e o s) := by
  unfold transferEntry
  repeat' first
    | with_reducible assumption | with_reducible apply foldOver_still | with_reducible apply transferItem_still | split
    | dsimp only | intro _ _ _ | intro _ _ | intro _ | (with_reducible refine Still.mk_over ?_ rfl rfl rfl rfl rfl)

theorem putInd_still {r : State} {t : Nat} {e : Nat} {v : Nat} {s : State} (hs : Still r s) :
    Still r (putInd t e v s) := by
  unfold putInd
  repeat' first
    | with_reducible assumption | split | dsimp only | (with_reducible refine Still.mk_over ?_ rfl rfl rfl rfl rfl)

theorem putSteer_still {r : State} {e : Nat} {n : Nat} {s : State} (hs : Still r s) :
    Still r (putSteer e n s) := by
  unfold putSteer
  repeat' first
    | with_reducible assumption | with_reducible apply putInd_still | split | dsimp only
    | (with_reducible refine Still.mk_over ?_ rfl rfl rfl rfl rfl)

theorem openFence_still {r : State} {e : Nat} {o : Nat} {n : Nat} {rw : Bool} {s : State} (hs : Still r s) :
    Still r (openFence e o n rw s) := by
  unfold openFence
  repeat' first
    | with_reducible assumption | with_reducible apply raiseC_still | with_reducible apply putFence_still
    | with_reducible apply putSteer_still | with_reducible apply transferEntry_still | split | dsimp only
    | (with_reducible refine Still.mk_over ?_ rfl rfl rfl rfl rfl)

theorem moveEntry_still {r : State} {e : Nat} {n : Nat} {rw : Bool} {s : State} (hs : Still r s) :
    Still r (moveEntry e n rw s) := by
  unfold moveEntry
  repeat' first
    | with_reducible assumption | with_reducible apply putSteer_still | with_reducible apply openFence_still
    | with_reducible apply putFence_still | split | dsimp only
    | (with_reducible refine Still.mk_over ?_ rfl rfl rfl rfl rfl)

theorem rewriteDone_still {r : State} {s : State} (hs : Still r s) :
    Still r (rewriteDone s) := by
  unfold rewriteDone
  repeat' first
    | with_reducible assumption | with_reducible apply raise_still | split | dsimp only
    | (with_reducible refine Still.mk_over ?_ rfl rfl rfl rfl rfl)

theorem moveParked_still {r : State} {e : Nat} {c : Nat} {n : Nat} {s : State} (hs : Still r s) :
    Still r (moveParked e c n s) := by
  unfold moveParked
  repeat' first
    | with_reducible assumption | with_reducible apply foldOver_still | with_reducible apply transferItem_still | split
    | dsimp only | intro _ _ _ | intro _ _ | intro _ | (with_reducible refine Still.mk_over ?_ rfl rfl rfl rfl rfl)

theorem rewriteEntry_still {r : State} {c : Nat} {e : Nat} {s : State} (hs : Still r s) :
    Still r (rewriteEntry c e s) := by
  unfold rewriteEntry
  repeat' first
    | with_reducible assumption | with_reducible apply raise_still | with_reducible apply moveEntry_still
    | with_reducible apply openFence_still | with_reducible apply moveParked_still | with_reducible apply putFence_still
    | with_reducible apply putSteer_still | split | dsimp only
    | (with_reducible refine Still.mk_over ?_ rfl rfl rfl rfl rfl)

theorem rewriteAll_still {r : State} {c : Nat} {s : State} (hs : Still r s) :
    Still r (rewriteAll c s) := by
  unfold rewriteAll
  repeat' first
    | with_reducible assumption | with_reducible apply foldOver_still | with_reducible apply rewriteEntry_still
    | with_reducible apply raise_still | split | dsimp only | intro _ _ _ | intro _ _ | intro _
    | (with_reducible refine Still.mk_over ?_ rfl rfl rfl rfl rfl)

theorem takeOut_still {r : State} {c : Nat} {s : State} (hs : Still r s) :
    Still r (takeOut c s) := by
  unfold takeOut
  repeat' first
    | with_reducible assumption | with_reducible apply rewriteAll_still | with_reducible apply foldOver_still
    | with_reducible apply transferEntry_still | split | dsimp only | intro _ _ _ | intro _ _ | intro _
    | (with_reducible refine Still.mk_over ?_ rfl rfl rfl rfl rfl)

theorem cancelLeft_still {r : State} {c : Nat} {s : State} (hs : Still r s) :
    Still r (cancelLeft c s) := by
  unfold cancelLeft
  repeat' first
    | with_reducible assumption | with_reducible apply foldOver_still | with_reducible apply cancelNow_still | split
    | dsimp only | intro _ _ _ | intro _ _ | intro _ | (with_reducible refine Still.mk_over ?_ rfl rfl rfl rfl rfl)

theorem offerAgain_still {r : State} {i : Item} {s : State} (hs : Still r s) :
    Still r (offerAgain i s) := by
  unfold offerAgain
  repeat' first
    | with_reducible assumption | split | dsimp only | intro _ _ _ | intro _ _ | intro _
    | (with_reducible refine Still.mk_over ?_ rfl rfl rfl rfl rfl)

theorem offerLeft_still {r : State} {c : Nat} {s : State} (hs : Still r s) :
    Still r (offerLeft c s) := by
  unfold offerLeft
  repeat' first
    | with_reducible assumption | with_reducible apply foldOver_still | with_reducible apply offerAgain_still | split
    | dsimp only | intro _ _ _ | intro _ _ | intro _ | (with_reducible refine Still.mk_over ?_ rfl rfl rfl rfl rfl)

theorem clearDispatcher_still {r : State} {c : Nat} {s : State} (hs : Still r s) :
    Still r (clearDispatcher c s) := by
  unfold clearDispatcher
  repeat' first
    | with_reducible assumption | with_reducible apply offerLeft_still | with_reducible apply cancelLeft_still
    | with_reducible apply putCluster_still | split | dsimp only | intro _ _ _ | intro _ _ | intro _
    | (with_reducible refine Still.mk_over ?_ rfl rfl rfl rfl rfl)

theorem dspStarting_still {r : State} {s : State} (hs : Still r s) :
    Still r (dspStarting s) := by
  unfold dspStarting
  repeat' first
    | with_reducible assumption | with_reducible apply foldOver_still | with_reducible apply clearDispatcher_still | split
    | dsimp only | intro _ _ _ | intro _ _ | intro _ | (with_reducible refine Still.mk_over ?_ rfl rfl rfl rfl rfl)

theorem dspChanStarting_still {r : State} {c : Nat} {s : State} (hs : Still r s) :
    Still r (dspChanStarting c s) := by
  unfold dspChanStarting
  repeat' first
    | with_reducible assumption | with_reducible apply clearDispatcher_still | split | dsimp only | intro _ _ _ | intro _ _
    | intro _ | (with_reducible refine Still.mk_over ?_ rfl rfl rfl rfl rfl)

theorem discardOp_still {r : State} {c : Nat} {i : Item} {s : State} (hs : Still r s) :
    Still r (discardOp c i s) := by
  unfold discardOp
  repeat' first
    | with_reducible assumption | with_reducible apply offerAgain_still | with_reducible apply removeItem_still | split
    | dsimp only | intro _ _ _ | intro _ _ | intro _ | (with_reducible refine Still.mk_over ?_ rfl rfl rfl rfl rfl)

theorem dspDiscard_still {r : State} {ops : Bool} {c : Nat} {s : State} (hs : Still r s) :
    Still r (dspDiscard ops c s) := by
  unfold dspDiscard
  repeat' first
    | with_reducible assumption | with_reducible apply foldOver_still | with_reducible apply askCancel_still
    | with_reducible apply actCancel_still | with_reducible apply discardOp_still | split | dsimp only | intro _ _ _ | intro _ _
    | intro _ | (with_reducible refine Still.mk_over ?_ rfl rfl rfl rfl rfl)

theorem putStore_still {r : State} {c : Nat} {x : Store} {s : State} (hs : Still r s) :
    Still r (putStore c x s) := by
  unfold putStore
  repeat' first
    | with_reducible assumption | with_reducible apply foldl_still | split | dsimp only | intro _ _ _ | intro _ _ | intro _
    | (with_reducible refine Still.mk_over ?_ rfl rfl rfl rfl rfl)

theorem modStore_still {r : State} {c : Nat} {f : Store → Store} {s : State} (hs : Still r s) :
    Still r (modStore c f s) := by
  unfold modStore
  repeat' first
    | with_reducible assumption | with_reducible apply putStore_still | with_reducible apply foldl_still | split | dsimp only
    | intro _ _ _ | intro _ _ | intro _ | (with_reducible refine Still.mk_over ?_ rfl rfl rfl rfl rfl)

theorem putEngRun_still {r : State} {e : Nat} {r1 : Run} {s : State} (hs : Still r s) :
    Still r (putEngRun e r1 s) := by
  unfold putEngRun
  repeat' first
    | with_reducible assumption | with_reducible apply putEngine_still | split | dsimp only | intro _ _ _ | intro _ _ | intro _
    | (with_reducible refine Still.mk_over ?_ rfl rfl rfl rfl rfl)

theorem resumeEngines_still {r : State} {c : Nat} {ws : Nat → Bool} {s : State} (hs : Still r s) :
    Still r (resumeEngines c ws s) := by
  unfold resumeEngines
  repeat' first
    | with_reducible assumption | with_reducible apply foldOver_still | with_reducible apply putEngRun_still | split
    | dsimp only | intro _ _ _ | intro _ _ | intro _ | (with_reducible refine Still.mk_over ?_ rfl rfl rfl rfl rfl)

theorem mcsStarting_still {r : State} {c : Nat} {s : State} (hs : Still r s) :
    Still r (mcsStarting c s) := by
  unfold mcsStarting
  repeat' first
    | with_reducible assumption | with_reducible apply resumeEngines_still | with_reducible apply modStore_still
    | with_reducible apply foldl_still | split | dsimp only | intro _ _ _ | intro _ _ | intro _
    | (with_reducible refine Still.mk_over ?_ rfl rfl rfl rfl rfl)

theorem mcsReset_still {r : State} {c : Nat} {keep : State} {s : State} (_hkeep : Still r keep) (hs : Still r s) :
    Still r (mcsReset c keep s) := by
  unfold mcsReset
  repeat' first
    | with_reducible assumption | with_reducible apply wrX_still | with_reducible apply putReg_still
    | with_reducible apply wrC_still | with_reducible apply foldl_still | split | dsimp only | intro _ _ _ | intro _ _ | intro _
    | (with_reducible refine Still.mk_over ?_ rfl rfl rfl rfl rfl)

theorem advanceCons_still {r : State} {c n : Nat} {s : State} (hs : Still r s) : Still r (advanceCons c n s) := by
  induction n generalizing s with
  | zero => exact hs
  | succ n ih =>
    have ht : ∀ v : Nat, Still r
        (wrC fltCmdqCons_index c v { s with flow := { s.flow with
          done := s.flow.done.filter (· != (c, rdC fltCmdqCons_index c s)) } }) :=
      fun v => wrC_still (Still.mk_over hs rfl rfl rfl rfl rfl)
    simp only [advanceCons]
    split
    · split
      · exact raise_still (ht _)
      · exact ih (ht _)
    · exact hs

theorem completeEntry_still {r : State} {c : Nat} {k : Nat} {a : CmdAnswer} {s : State} (hs : Still r s) :
    Still r (completeEntry c k a s) := by
  unfold completeEntry
  repeat' first
    | with_reducible assumption | with_reducible apply emit_still | with_reducible apply advanceCons_still | split | dsimp only
    | intro _ _ _ | intro _ _ | intro _ | (with_reducible refine Still.mk_over ?_ rfl rfl rfl rfl rfl)

theorem takeEntry_still {r : State} {c : Nat} {k : Nat} {s : State} (hs : Still r s) :
    Still r (takeEntry c k s) := by
  unfold takeEntry
  repeat' first
    | with_reducible assumption | with_reducible apply completeEntry_still | with_reducible apply offerOp_still
    | with_reducible apply foldl_still | split | dsimp only | intro _ _ _ | intro _ _ | intro _
    | (with_reducible refine Still.mk_over ?_ rfl rfl rfl rfl rfl)

theorem takeEntries_still {r : State} {c n : Nat} {s : State} (hs : Still r s) : Still r (takeEntries c n s) := by
  induction n generalizing s with
  | zero => exact hs
  | succ n ih =>
    simp only [takeEntries]
    split
    · exact hs
    · exact ih (takeEntry_still (Still.mk_over hs rfl rfl rfl rfl rfl))

theorem failEntries_still {r : State} {c n k : Nat} {s : State} (hs : Still r s) : Still r (failEntries c n k s) := by
  induction n generalizing k s with
  | zero => exact hs
  | succ n ih =>
    simp only [failEntries]
    split
    · exact hs
    · split
      · exact ih hs
      · exact ih (completeEntry_still hs)

theorem failRing_still {r : State} {c : Nat} {s : State} (hs : Still r s) :
    Still r (failRing c s) := by
  unfold failRing
  repeat' first
    | with_reducible assumption | with_reducible apply foldOver_still | with_reducible apply removeItem_still
    | with_reducible apply failEntries_still | with_reducible apply foldl_still | split | dsimp only | intro _ _ _ | intro _ _
    | intro _ | (with_reducible refine Still.mk_over ?_ rfl rfl rfl rfl rfl)

theorem failRings_still {r : State} {s : State} (hs : Still r s) :
    Still r (failRings s) := by
  unfold failRings
  repeat' first
    | with_reducible assumption | with_reducible apply foldOver_still | with_reducible apply failRing_still
    | with_reducible apply foldl_still | split | dsimp only | intro _ _ _ | intro _ _ | intro _
    | (with_reducible refine Still.mk_over ?_ rfl rfl rfl rfl rfl)

theorem fltOff_still {r : State} {s : State} (hs : Still r s) :
    Still r (fltOff s) := by
  unfold fltOff
  repeat' first
    | with_reducible assumption | with_reducible apply failRings_still | with_reducible apply foldl_still | split | dsimp only
    | intro _ _ _ | intro _ _ | intro _ | (with_reducible refine Still.mk_over ?_ rfl rfl rfl rfl rfl)

theorem fltReset_still {r : State} {s : State} (hs : Still r s) :
    Still r (fltReset s) := by
  unfold fltReset
  repeat' first
    | with_reducible assumption | with_reducible apply flowReset_still | with_reducible apply failRings_still | split
    | dsimp only | intro _ _ _ | intro _ _ | intro _ | (with_reducible refine Still.mk_over ?_ rfl rfl rfl rfl rfl)

theorem fchStarting_still {r : State} {s : State} (hs : Still r s) :
    Still r (fchStarting s) := by
  unfold fchStarting
  repeat' first
    | with_reducible assumption | with_reducible apply putCache_still | with_reducible apply writeBackAll_still
    | with_reducible apply foldl_still | split | dsimp only | intro _ _ _ | intro _ _ | intro _
    | (with_reducible refine Still.mk_over ?_ rfl rfl rfl rfl rfl)

theorem fenForced_still {r : State} {e : Nat} {s : State} (hs : Still r s) :
    Still r (fenForced e s) := by
  unfold fenForced
  repeat' first
    | with_reducible assumption | with_reducible apply raiseC_still | with_reducible apply dspCount_still
    | with_reducible apply putEngine_still | with_reducible apply modItem_still | with_reducible apply transferItem_still
    | with_reducible apply foldl_still | split | dsimp only | intro _ _ _ | intro _ _ | intro _
    | (with_reducible refine Still.mk_over ?_ rfl rfl rfl rfl rfl)

theorem tieStarting_still {r : State} {s : State} (hs : Still r s) :
    Still r (tieStarting s) := by
  unfold tieStarting
  repeat' first
    | with_reducible assumption | with_reducible apply foldl_still | split | dsimp only | intro _ _ _ | intro _ _ | intro _
    | (with_reducible refine Still.mk_over ?_ rfl rfl rfl rfl rfl)

theorem tieOn_still {r : State} {s : State} (hs : Still r s) :
    Still r (tieOn s) := by
  unfold tieOn
  repeat' first
    | with_reducible assumption | with_reducible apply wr_still | with_reducible apply foldl_still | split | dsimp only
    | intro _ _ _ | intro _ _ | intro _ | (with_reducible refine Still.mk_over ?_ rfl rfl rfl rfl rfl)

theorem tieChanStarting_still {r : State} {k : Nat} {s : State} (hs : Still r s) :
    Still r (tieChanStarting k s) := by
  unfold tieChanStarting
  repeat' first
    | with_reducible assumption | with_reducible apply startLanes_still | with_reducible apply wrC_still
    | with_reducible apply putTieLink_still | split | dsimp only | intro _ _ _ | intro _ _ | intro _
    | (with_reducible refine Still.mk_over ?_ rfl rfl rfl rfl rfl)

theorem tieDraining_still {r : State} {k : Nat} {s : State} (hs : Still r s) :
    Still r (tieDraining k s) := by
  unfold tieDraining
  repeat' first
    | with_reducible assumption | with_reducible apply foldOver_still | with_reducible apply destOffDrop_still
    | with_reducible apply foldl_still | split | dsimp only | intro _ _ _ | intro _ _ | intro _
    | (with_reducible refine Still.mk_over ?_ rfl rfl rfl rfl rfl)

theorem tieStopped_still {r : State} {k : Nat} {s : State} (hs : Still r s) :
    Still r (tieStopped k s) := by
  unfold tieStopped
  repeat' first
    | with_reducible assumption | with_reducible apply refreshJoined_still | with_reducible apply foldOver_still
    | with_reducible apply onlyIf_still | with_reducible apply setLane_still | with_reducible apply wrC_still
    | with_reducible apply clearLink_still | split | dsimp only | intro _ _ _ | intro _ _ | intro _
    | (with_reducible refine Still.mk_over ?_ rfl rfl rfl rfl rfl)

theorem dropKept_still {r : State} {k : Nat} {s : State} (hs : Still r s) :
    Still r (dropKept k s) := by
  unfold dropKept
  repeat' first
    | with_reducible assumption | with_reducible apply modTieLink_still | split | dsimp only | intro _ _ _ | intro _ _ | intro _
    | (with_reducible refine Still.mk_over ?_ rfl rfl rfl rfl rfl)

theorem tieOff_still {r : State} {k : Nat} {s : State} (hs : Still r s) :
    Still r (tieOff k s) := by
  unfold tieOff
  repeat' first
    | with_reducible assumption | with_reducible apply dropKept_still | with_reducible apply tieStopped_still | split
    | dsimp only | intro _ _ _ | intro _ _ | intro _ | (with_reducible refine Still.mk_over ?_ rfl rfl rfl rfl rfl)

theorem tmgStarting_still {r : State} {s : State} (hs : Still r s) :
    Still r (tmgStarting s) := by
  unfold tmgStarting
  repeat' first
    | with_reducible assumption | with_reducible apply foldOver_still | with_reducible apply fillShapers_still | split
    | dsimp only | intro _ _ _ | intro _ _ | intro _ | (with_reducible refine Still.mk_over ?_ rfl rfl rfl rfl rfl)

theorem tmgChanStarting_still {r : State} {d : Nat} {s : State} (hs : Still r s) :
    Still r (tmgChanStarting d s) := by
  unfold tmgChanStarting
  repeat' first
    | with_reducible assumption | with_reducible apply fillShapers_still | split | dsimp only
    | (with_reducible refine Still.mk_over ?_ rfl rfl rfl rfl rfl)

theorem fenStarting_still {r : State} {e : Nat} {s : State} (hs : Still r s) :
    Still r (fenStarting e s) := by
  unfold fenStarting
  repeat' first
    | with_reducible assumption | with_reducible apply fenForced_still | split | dsimp only
    | (with_reducible refine Still.mk_over ?_ rfl rfl rfl rfl rfl)

theorem frameBad_still {r : State} {i : Nat} {s : State} (hs : Still r s) :
    Still r (frameBad i s) := by
  unfold frameBad
  repeat' first
    | with_reducible assumption | with_reducible apply detachRx_still | with_reducible apply dropUse_still
    | with_reducible apply refreshActive_still | with_reducible apply modFrame_still | with_reducible apply askCancel_still
    | with_reducible apply dropFrame_still | split | dsimp only | intro _ _ _ | intro _ _ | intro _
    | (with_reducible refine Still.mk_over ?_ rfl rfl rfl rfl rfl)

theorem putRx_still {r : State} {p : Nat} {r1 : RxPort} {s : State} (hs : Still r s) :
    Still r (putRx p r1 s) := by
  unfold putRx
  repeat' first
    | with_reducible assumption | split | dsimp only | intro _ _ _ | intro _ _ | intro _
    | (with_reducible refine Still.mk_over ?_ rfl rfl rfl rfl rfl)

theorem resetMac_still {r : State} {p : Nat} {s : State} (hs : Still r s) :
    Still r (resetMac p s) := by
  unfold resetMac
  repeat' first
    | with_reducible assumption | with_reducible apply putRx_still | with_reducible apply frameBad_still | split | dsimp only
    | intro _ _ _ | intro _ _ | intro _ | (with_reducible refine Still.mk_over ?_ rfl rfl rfl rfl rfl)

theorem markFrames_still {r : State} {p : Nat} {frames : Nat} {s : State} (hs : Still r s) :
    Still r (markFrames p frames s) := by
  unfold markFrames
  repeat' first
    | with_reducible assumption | split | dsimp only | intro _ _ _ | intro _ _ | intro _
    | (with_reducible refine Still.mk_over ?_ rfl rfl rfl rfl rfl)

theorem fecBad_still {r : State} {p : Nat} {frames : Nat} {s : State} (hs : Still r s) :
    Still r (fecBad p frames s) := by
  unfold fecBad
  repeat' first
    | with_reducible assumption | with_reducible apply raiseC_still | with_reducible apply portCount_still
    | with_reducible apply markFrames_still | split | dsimp only | intro _ _ _ | intro _ _ | intro _
    | (with_reducible refine Still.mk_over ?_ rfl rfl rfl rfl rfl)

theorem prtWideStarting_still {r : State} {s : State} (hs : Still r s) :
    Still r (prtWideStarting s) := by
  unfold prtWideStarting
  repeat' first
    | with_reducible assumption | with_reducible apply foldOver_still | with_reducible apply resetMac_still
    | split | dsimp only | intro _ _ _ | intro _ _ | intro _
    | (with_reducible refine Still.mk_over ?_ rfl rfl rfl rfl rfl)

theorem powerLane_still {r : State} {l : Nat} {s : State} (hs : Still r s) :
    Still r (powerLane l s) := by
  unfold powerLane
  repeat' first
    | with_reducible assumption | with_reducible apply baseRate_still | with_reducible apply loadTaps_still | split | dsimp only
    | intro _ _ _ | intro _ _ | intro _ | (with_reducible refine Still.mk_over ?_ rfl rfl rfl rfl rfl)

theorem startEffects_still {r : State} {t : Target} {s : State} (hs : Still r s) :
    Still r (startEffects t s) := by
  unfold startEffects
  repeat' first
    | with_reducible assumption | with_reducible apply powerLane_still | with_reducible apply prtWideStarting_still
    | with_reducible apply prtStarting_still | with_reducible apply tieStarting_still
    | with_reducible apply tieChanStarting_still | with_reducible apply fchStarting_still
    | with_reducible apply mcsStarting_still | with_reducible apply fenStarting_still | with_reducible apply dspStarting_still
    | with_reducible apply dspChanStarting_still | with_reducible apply bpmStarting_still
    | with_reducible apply swcStarting_still | with_reducible apply tmgStarting_still
    | with_reducible apply tmgChanStarting_still | split | dsimp only | intro _ _ _ | intro _ _ | intro _
    | (with_reducible refine Still.mk_over ?_ rfl rfl rfl rfl rfl)

theorem timOn_still {r : State} {s : State} (hs : Still r s) :
    Still r (timOn s) := by
  unfold timOn
  repeat' first
    | with_reducible assumption | with_reducible apply refreshSynce_still | split | dsimp only | intro _ _ _ | intro _ _
    | intro _ | (with_reducible refine Still.mk_over ?_ rfl rfl rfl rfl rfl)

theorem fltOn_still {r : State} {s : State} (hs : Still r s) :
    Still r (fltOn s) := by
  unfold fltOn
  repeat' first
    | with_reducible assumption | with_reducible apply foldOver_still | with_reducible apply takeEntries_still | split
    | dsimp only | intro _ _ _ | intro _ _ | intro _ | (with_reducible refine Still.mk_over ?_ rfl rfl rfl rfl rfl)

theorem trigFire_still {r : State} {k : Nat} {late : Bool} {s : State} (hs : Still r s) :
    Still r (trigFire k late s) := by
  unfold trigFire
  repeat' first
    | with_reducible assumption | with_reducible apply putTrig_still | with_reducible apply incX_still
    | with_reducible apply wrC_still | with_reducible apply raiseC_still | split | dsimp only | intro _ _ _ | intro _ _
    | intro _ | (with_reducible refine Still.mk_over ?_ rfl rfl rfl rfl rfl)

theorem trigOn_still {r : State} {k : Nat} {s : State} (hs : Still r s) :
    Still r (trigOn k s) := by
  unfold trigOn
  repeat' first
    | with_reducible assumption | with_reducible apply trigFire_still | with_reducible apply putTrig_still | split | dsimp only
    | intro _ _ _ | intro _ _ | intro _ | (with_reducible refine Still.mk_over ?_ rfl rfl rfl rfl rfl)

theorem onEffects_still {r : State} {t : Target} {s : State} (hs : Still r s) :
    Still r (onEffects t s) := by
  unfold onEffects
  repeat' first
    | with_reducible assumption | with_reducible apply refreshSynce_still | with_reducible apply enterSequence_still
    | with_reducible apply tieOn_still | with_reducible apply fltOn_still | with_reducible apply timOn_still
    | with_reducible apply trigOn_still | split | dsimp only | intro _ _ _ | intro _ _ | intro _
    | (with_reducible refine Still.mk_over ?_ rfl rfl rfl rfl rfl)

theorem putDest_still {r : State} {d : Nat} {x : Dest} {s : State} (hs : Still r s) :
    Still r (putDest d x s) := by
  unfold putDest
  repeat' first
    | with_reducible assumption | split | dsimp only | intro _ _ _ | intro _ _ | intro _
    | (with_reducible refine Still.mk_over ?_ rfl rfl rfl rfl rfl)

theorem modDest_still {r : State} {d : Nat} {f : Dest → Dest} {s : State} (hs : Still r s) :
    Still r (modDest d f s) := by
  unfold modDest
  repeat' first
    | with_reducible assumption | with_reducible apply putDest_still | split | dsimp only | intro _ _ _ | intro _ _ | intro _
    | (with_reducible refine Still.mk_over ?_ rfl rfl rfl rfl rfl)

theorem leaveEg_still {r : State} {i : Nat} {d : Nat} {s : State} (hs : Still r s) :
    Still r (leaveEg i d s) := by
  unfold leaveEg
  repeat' first
    | with_reducible assumption | with_reducible apply refreshActive_still | with_reducible apply modDest_still
    | with_reducible apply removeFrame_still | split | dsimp only | intro _ _ _ | intro _ _ | intro _
    | (with_reducible refine Still.mk_over ?_ rfl rfl rfl rfl rfl)

theorem freePortFrames_still {r : State} {p : Nat} {s : State} (hs : Still r s) :
    Still r (freePortFrames p s) := by
  unfold freePortFrames
  repeat' first
    | with_reducible assumption | with_reducible apply foldOver_still | with_reducible apply dropFrame_still
    | with_reducible apply portCount_still | with_reducible apply leaveEg_still | split | dsimp only | intro _ _ _ | intro _ _
    | intro _ | (with_reducible refine Still.mk_over ?_ rfl rfl rfl rfl rfl)

theorem linkGone_still {r : State} {p : Nat} {s : State} (hs : Still r s) :
    Still r (linkGone p s) := by
  unfold linkGone
  repeat' first
    | with_reducible assumption | with_reducible apply freePortFrames_still | with_reducible apply startLanes_still | split
    | dsimp only | intro _ _ _ | intro _ _ | intro _ | (with_reducible refine Still.mk_over ?_ rfl rfl rfl rfl rfl)

theorem laneLeaves_still {r : State} {l : Nat} {s : State} (hs : Still r s) :
    Still r (laneLeaves l s) := by
  unfold laneLeaves
  repeat' first
    | with_reducible assumption | with_reducible apply tieLanesLost_still | with_reducible apply linkGone_still
    | with_reducible apply wrC_still | with_reducible apply portDown_still | with_reducible apply refreshSynce_still
    | with_reducible apply setLane_still | with_reducible apply clearPass_still | with_reducible apply laneDown_still | split
    | dsimp only | intro _ _ _ | intro _ _ | intro _ | (with_reducible refine Still.mk_over ?_ rfl rfl rfl rfl rfl)

theorem timChanDraining_still {r : State} {c : Nat} {s : State} (hs : Still r s) :
    Still r (timChanDraining c s) := by
  unfold timChanDraining
  repeat' first
    | with_reducible assumption | with_reducible apply wrC_still | split | dsimp only
    | (with_reducible refine Still.mk_over ?_ rfl rfl rfl rfl rfl)

theorem drainEffects_still {r : State} {t : Target} {s : State} (hs : Still r s) :
    Still r (drainEffects t s) := by
  unfold drainEffects
  repeat' first
    | with_reducible assumption | with_reducible apply laneLeaves_still | with_reducible apply linkGone_still
    | with_reducible apply tieDraining_still | with_reducible apply writeBackAll_still | with_reducible apply refreshSynce_still
    | with_reducible apply timChanDraining_still | split | dsimp only | intro _ _ _ | intro _ _ | intro _
    | (with_reducible refine Still.mk_over ?_ rfl rfl rfl rfl rfl)

theorem fltForced_still {r : State} {s : State} (hs : Still r s) :
    Still r (fltForced s) := by
  unfold fltForced
  repeat' first
    | with_reducible assumption | with_reducible apply foldOver_still | with_reducible apply discardOp_still | split
    | dsimp only | intro _ _ _ | intro _ _ | intro _ | (with_reducible refine Still.mk_over ?_ rfl rfl rfl rfl rfl)

theorem dropParsing_still {r : State} {prof : Nat} {s : State} (hs : Still r s) :
    Still r (dropParsing prof s) := by
  unfold dropParsing
  repeat' first
    | with_reducible assumption | with_reducible apply foldOver_still | with_reducible apply raiseC_still
    | with_reducible apply count_still | with_reducible apply dropFrame_still | split | dsimp only | intro _ _ _ | intro _ _
    | intro _ | (with_reducible refine Still.mk_over ?_ rfl rfl rfl rfl rfl)

theorem buildExport_still {r : State} {b : Nat} {i : Nat} {reason : Nat} {r1 : List Byte} {s : State} (hs : Still r s) :
    Still r (buildExport b i reason r1 s) := by
  unfold buildExport
  repeat' first
    | with_reducible assumption | split | dsimp only | intro _ _ _ | intro _ _ | intro _
    | (with_reducible refine Still.mk_over ?_ rfl rfl rfl rfl rfl)

theorem dropLine_still {r : State} {i : Nat} {s : State} (hs : Still r s) :
    Still r (dropLine i s) := by
  unfold dropLine
  repeat' first
    | with_reducible assumption | with_reducible apply putCache_still | split | dsimp only | intro _ _ _ | intro _ _ | intro _
    | (with_reducible refine Still.mk_over ?_ rfl rfl rfl rfl rfl)

theorem putOvf_still {r : State} {e : Nat} {x : Nat} {s : State} (hs : Still r s) :
    Still r (putOvf e x s) := by
  unfold putOvf
  repeat' first
    | with_reducible assumption | with_reducible apply raise_still | split | dsimp only | intro _ _ _ | intro _ _ | intro _
    | (with_reducible refine Still.mk_over ?_ rfl rfl rfl rfl rfl)

theorem putPlace_still {r : State} {b : Nat} {p : Nat} {x : Nat} {s : State} (hs : Still r s) :
    Still r (putPlace b p x s) := by
  unfold putPlace
  repeat' first
    | with_reducible assumption | with_reducible apply hbmWrite_still | with_reducible apply putOvf_still | split | dsimp only
    | intro _ _ _ | intro _ _ | intro _ | (with_reducible refine Still.mk_over ?_ rfl rfl rfl rfl rfl)

theorem fltCount_still {r : State} {i : Nat} {s : State} (hs : Still r s) :
    Still r (fltCount i s) := by
  unfold fltCount
  repeat' first
    | with_reducible assumption | with_reducible apply count_still | split | dsimp only | intro _ _ _ | intro _ _ | intro _
    | (with_reducible refine Still.mk_over ?_ rfl rfl rfl rfl rfl)

theorem promote_still {r : State} {b : Nat} {p : Nat} {s : State} (hs : Still r s) :
    Still r (promote b p s) := by
  unfold promote
  repeat' first
    | with_reducible assumption | with_reducible apply putPlace_still | with_reducible apply fltCount_still
    | with_reducible apply putOvf_still | with_reducible apply modLine_still | split | dsimp only | intro _ _ _ | intro _ _
    | intro _ | (with_reducible refine Still.mk_over ?_ rfl rfl rfl rfl rfl)

theorem emptyPlace_still {r : State} {b : Nat} {p : Nat} {s : State} (hs : Still r s) :
    Still r (emptyPlace b p s) := by
  unfold emptyPlace
  repeat' first
    | with_reducible assumption | with_reducible apply putPlace_still | with_reducible apply promote_still | split | dsimp only
    | intro _ _ _ | intro _ _ | intro _ | (with_reducible refine Still.mk_over ?_ rfl rfl rfl rfl rfl)

theorem freeIndex_still {r : State} {i : Nat} {g : Nat} {s : State} (hs : Still r s) :
    Still r (freeIndex i g s) := by
  unfold freeIndex
  repeat' first
    | with_reducible assumption | with_reducible apply wr_still | split | dsimp only | intro _ _ _ | intro _ _ | intro _
    | (with_reducible refine Still.mk_over ?_ rfl rfl rfl rfl rfl)

theorem retireEnd_still {r : State} {b : Nat} {p : Nat} {i : Nat} {g : Nat} {s : State} (hs : Still r s) :
    Still r (retireEnd b p i g s) := by
  unfold retireEnd
  repeat' first
    | with_reducible assumption | with_reducible apply freeIndex_still | with_reducible apply emptyPlace_still
    | with_reducible apply dropLine_still | split | dsimp only | intro _ _ _ | intro _ _ | intro _
    | (with_reducible refine Still.mk_over ?_ rfl rfl rfl rfl rfl)

theorem retireCount_still {r : State} {reason : Nat} {s : State} (hs : Still r s) :
    Still r (retireCount reason s) := by
  unfold retireCount
  repeat' first
    | with_reducible assumption | with_reducible apply raise_still | with_reducible apply fltCount_still | split | dsimp only
    | intro _ _ _ | intro _ _ | intro _ | (with_reducible refine Still.mk_over ?_ rfl rfl rfl rfl rfl)

theorem retireWith_still {r : State} {b : Nat} {p : Nat} {i : Nat} {reason : Nat} {r1 : List Byte} {noExport : Bool} {s0 :
    State} (hs : Still r s0) :
    Still r (retireWith b p i reason r1 noExport s0) := by
  unfold retireWith
  repeat' first
    | with_reducible assumption | with_reducible apply retireCount_still | with_reducible apply retireEnd_still
    | with_reducible apply buildExport_still | with_reducible apply putPlace_still | with_reducible apply modLine_still
    | with_reducible apply hbmWrite_still | with_reducible apply raise_still | with_reducible apply fltCount_still | split
    | dsimp only | intro _ _ _ | intro _ _ | intro _ | (with_reducible refine Still.mk_over ?_ rfl rfl rfl rfl rfl)

theorem retire_still {r : State} {b : Nat} {p : Nat} {i : Nat} {reason : Nat} {noExport : Bool} {s : State} (hs : Still r s) :
    Still r (retire b p i reason noExport s) := by
  unfold retire
  repeat' first
    | with_reducible assumption | with_reducible apply retireWith_still | split | dsimp only | intro _ _ _ | intro _ _ | intro _
    | (with_reducible refine Still.mk_over ?_ rfl rfl rfl rfl rfl)

theorem sat1_still {r : State} {f : Fld} {s : State} (hs : Still r s) :
    Still r (sat1 f s) := by
  unfold sat1
  repeat' first
    | with_reducible assumption | with_reducible apply satX_still | split | dsimp only | intro _ _ _ | intro _ _ | intro _
    | (with_reducible refine Still.mk_over ?_ rfl rfl rfl rfl rfl)

theorem l2Stat_still {r : State} {k : Nat} {s : State} (hs : Still r s) :
    Still r (l2Stat k s) := by
  unfold l2Stat
  repeat' first
    | with_reducible assumption | with_reducible apply sat1_still | with_reducible apply satX_still | split | dsimp only
    | intro _ _ _ | intro _ _ | intro _ | (with_reducible refine Still.mk_over ?_ rfl rfl rfl rfl rfl)

theorem l2Answer_still {r : State} {c : Nat} {index : Nat} {result : Nat} {s : State} (hs : Still r s) :
    Still r (l2Answer c index result s) := by
  unfold l2Answer
  repeat' first
    | with_reducible assumption | with_reducible apply wrC_still | split | dsimp only | intro _ _ _ | intro _ _ | intro _
    | (with_reducible refine Still.mk_over ?_ rfl rfl rfl rfl rfl)

theorem l2Discard_still {r : State} {ch : L2Change} {s : State} (hs : Still r s) :
    Still r (l2Discard ch s) := by
  unfold l2Discard
  repeat' first
    | with_reducible assumption | with_reducible apply l2Answer_still | with_reducible apply l2Stat_still
    | with_reducible apply retire_still | split | dsimp only | intro _ _ _ | intro _ _ | intro _
    | (with_reducible refine Still.mk_over ?_ rfl rfl rfl rfl rfl)

theorem l2tForced_still {r : State} {s : State} (hs : Still r s) :
    Still r (l2tForced s) := by
  unfold l2tForced
  repeat' first
    | with_reducible assumption | with_reducible apply foldOver_still | with_reducible apply l2Discard_still | split
    | dsimp only | intro _ _ _ | intro _ _ | intro _ | (with_reducible refine Still.mk_over ?_ rfl rfl rfl rfl rfl)

theorem dropClassifying_still {r : State} {s : State} (hs : Still r s) :
    Still r (dropClassifying s) := by
  unfold dropClassifying
  repeat' first
    | with_reducible assumption | with_reducible apply foldOver_still | with_reducible apply dropFrame_still
    | with_reducible apply sat1_still | split | dsimp only | intro _ _ _ | intro _ _ | intro _
    | (with_reducible refine Still.mk_over ?_ rfl rfl rfl rfl rfl)

theorem forcedEffects_still {r : State} {t : Target} {s : State} (hs : Still r s) :
    Still r (forcedEffects t s) := by
  unfold forcedEffects
  repeat' first
    | with_reducible assumption | with_reducible apply dropParsing_still | with_reducible apply freePortFrames_still
    | with_reducible apply foldOver_still | with_reducible apply destOffDrop_still | with_reducible apply dropClassifying_still
    | with_reducible apply l2tForced_still | with_reducible apply fltForced_still | with_reducible apply fenForced_still
    | with_reducible apply dspDiscard_still | with_reducible apply bpmForced_still | with_reducible apply dropQueued_still
    | with_reducible apply putTrig_still | split | dsimp only | intro _ _ _ | intro _ _ | intro _
    | (with_reducible refine Still.mk_over ?_ rfl rfl rfl rfl rfl)

theorem putLive_still {r : State} {off : Nat} {inst : Nat} {v : Word} {s : State} (hs : Still r s) :
    Still r (putLive off inst v s) := by
  unfold putLive
  repeat' first
    | with_reducible assumption | split | dsimp only | intro _ _ _ | intro _ _ | intro _
    | (with_reducible refine Still.mk_over ?_ rfl rfl rfl rfl rfl)

theorem putVals_still {r : State} {p : Nat} {vs : List Word} {s : State} (hs : Still r s) :
    Still r (putVals p vs s) := by
  unfold putVals
  repeat' first
    | with_reducible assumption | with_reducible apply foldOver_still | with_reducible apply putLive_still | split | dsimp only
    | intro _ _ _ | intro _ _ | intro _ | (with_reducible refine Still.mk_over ?_ rfl rfl rfl rfl rfl)

theorem moveLater_still {r : State} {p : Nat} {s : State} (hs : Still r s) :
    Still r (moveLater p s) := by
  unfold moveLater
  repeat' first
    | with_reducible assumption | with_reducible apply putVals_still | split | dsimp only | intro _ _ _ | intro _ _ | intro _
    | (with_reducible refine Still.mk_over ?_ rfl rfl rfl rfl rfl)

theorem offEffects_still {r : State} {t : Target} {s : State} (hs : Still r s) :
    Still r (offEffects t s) := by
  unfold offEffects
  repeat' first
    | with_reducible assumption | with_reducible apply moveLater_still | with_reducible apply prtStopped_still
    | with_reducible apply tieOff_still | with_reducible apply fltOff_still | with_reducible apply writeBackAll_still | split
    | dsimp only | intro _ _ _ | intro _ _ | intro _ | (with_reducible refine Still.mk_over ?_ rfl rfl rfl rfl rfl)

theorem faultEffects_still {r : State} {t : Target} {s : State} (hs : Still r s) :
    Still r (faultEffects t s) := by
  unfold faultEffects
  repeat' first
    | with_reducible assumption | with_reducible apply laneLeaves_still | with_reducible apply moveLater_still
    | with_reducible apply prtStopped_still | with_reducible apply portDown_still | with_reducible apply tieStopped_still
    | with_reducible apply takeOut_still | with_reducible apply refreshSynce_still | with_reducible apply fltOff_still
    | with_reducible apply writeBackAll_still | split | dsimp only | intro _ _ _ | intro _ _ | intro _
    | (with_reducible refine Still.mk_over ?_ rfl rfl rfl rfl rfl)

theorem putCapt_still {r : State} {k : Nat} {x : Capt} {s : State} (hs : Still r s) :
    Still r (putCapt k x s) := by
  unfold putCapt
  repeat' first
    | with_reducible assumption | split | dsimp only | intro _ _ _ | intro _ _ | intro _
    | (with_reducible refine Still.mk_over ?_ rfl rfl rfl rfl rfl)

theorem clearRx_still {r : State} {p : Nat} {s : State} (hs : Still r s) :
    Still r (clearRx p s) := by
  unfold clearRx
  repeat' first
    | with_reducible assumption | with_reducible apply resetMac_still | with_reducible apply putRx_still | split | dsimp only
    | intro _ _ _ | intro _ _ | intro _ | (with_reducible refine Still.mk_over ?_ rfl rfl rfl rfl rfl)

theorem clearChanState_still {r : State} {b : Block} {c : Nat} {s : State} (hs : Still r s) :
    Still r (clearChanState b c s) := by
  unfold clearChanState
  repeat' first
    | with_reducible assumption | with_reducible apply clearRx_still | with_reducible apply fecBad_still
    | with_reducible apply putTieLink_still | with_reducible apply putCapt_still | with_reducible apply dspChanStarting_still
    | with_reducible apply clearGates_still | split | dsimp only | intro _ _ _ | intro _ _ | intro _
    | (with_reducible refine Still.mk_over ?_ rfl rfl rfl rfl rfl)

theorem sendMsg_still {r : State} {k : Nat} {kind : Nat} {body : List Byte} {s : State} (hs : Still r s) :
    Still r (sendMsg k kind body s) := by
  unfold sendMsg
  repeat' first
    | with_reducible assumption | with_reducible apply count_still | with_reducible apply emit_still | split | dsimp only
    | intro _ _ _ | intro _ _ | intro _ | (with_reducible refine Still.mk_over ?_ rfl rfl rfl rfl rfl)

theorem sendControl_still {r : State} {k : Nat} {kind : Nat} {body : List Byte} {s : State} (hs : Still r s) :
    Still r (sendControl k kind body s) := by
  unfold sendControl
  repeat' first
    | with_reducible assumption | with_reducible apply sendMsg_still | with_reducible apply putTieLink_still | split
    | dsimp only | intro _ _ _ | intro _ _ | intro _ | (with_reducible refine Still.mk_over ?_ rfl rfl rfl rfl rfl)

theorem versionMsg_still {r : State} {k : Nat} {sub : Nat} {body : List Byte} {s : State} (hs : Still r s) :
    Still r (versionMsg k sub body s) := by
  unfold versionMsg
  repeat' first
    | with_reducible assumption | with_reducible apply sendControl_still | split | dsimp only | intro _ _ _ | intro _ _
    | intro _ | (with_reducible refine Still.mk_over ?_ rfl rfl rfl rfl rfl)

theorem versionAll_still {r : State} {sub : Nat} {body : List Byte} {s : State} (hs : Still r s) :
    Still r (versionAll sub body s) := by
  unfold versionAll
  repeat' first
    | with_reducible assumption | with_reducible apply foldOver_still | with_reducible apply versionMsg_still | split
    | dsimp only | intro _ _ _ | intro _ _ | intro _ | (with_reducible refine Still.mk_over ?_ rfl rfl rfl rfl rfl)

theorem modSys_still {r : State} {f : SysVersion → SysVersion} {s : State} (hs : Still r s) :
    Still r (modSys f s) := by
  unfold modSys
  repeat' first
    | with_reducible assumption | split | dsimp only | intro _ _ _ | intro _ _ | intro _
    | (with_reducible refine Still.mk_over ?_ rfl rfl rfl rfl rfl)

theorem unprepare_still {r : State} {s : State} (hs : Still r s) :
    Still r (unprepare s) := by
  unfold unprepare
  repeat' first
    | with_reducible assumption | with_reducible apply modSys_still | with_reducible apply wr_still | split | dsimp only
    | intro _ _ _ | intro _ _ | intro _ | (with_reducible refine Still.mk_over ?_ rfl rfl rfl rfl rfl)

theorem dropSystem_still {r : State} {s : State} (hs : Still r s) :
    Still r (dropSystem s) := by
  unfold dropSystem
  repeat' first
    | with_reducible assumption | with_reducible apply unprepare_still | with_reducible apply versionAll_still | split
    | dsimp only | intro _ _ _ | intro _ _ | intro _ | (with_reducible refine Still.mk_over ?_ rfl rfl rfl rfl rfl)

theorem timCleared_still {r : State} {s : State} (hs : Still r s) :
    Still r (timCleared s) := by
  unfold timCleared
  repeat' first
    | with_reducible assumption | split | dsimp only | intro _ _ _ | intro _ _ | intro _
    | (with_reducible refine Still.mk_over ?_ rfl rfl rfl rfl rfl)

theorem clearBlockState_still {r : State} {b : Block} {s : State} (hs : Still r s) :
    Still r (clearBlockState b s) := by
  unfold clearBlockState
  split <;> first
    | with_reducible exact hs
    | with_reducible exact l2tClear_still hs
    | with_reducible exact lpmClear_still hs
    | with_reducible exact fltReset_still hs
    | with_reducible exact fchStarting_still hs
    | with_reducible exact dspStarting_still hs
    | with_reducible exact swcStarting_still hs
    | with_reducible exact timCleared_still hs
    | with_reducible exact retireFreed_still (Still.mk_over hs rfl rfl rfl rfl rfl)
    | with_reducible exact Still.mk_over (foldOver_still (fun _ _ h => clearRx_still h) hs) rfl rfl rfl rfl rfl
    | with_reducible exact wr_still (Still.mk_over hs rfl rfl rfl rfl rfl)
    | with_reducible exact modSys_still (Still.mk_over (dropSystem_still hs) rfl rfl rfl rfl rfl)
    | exact Still.mk_over hs rfl rfl rfl rfl rfl

theorem keepLocks_still {r : State} {old : State} {s : State} (_hold : Still r old) (hs : Still r s) :
    Still r (keepLocks old s) := by
  unfold keepLocks
  repeat' first
    | with_reducible assumption | with_reducible apply foldOver_still | with_reducible apply wrX_still | split | dsimp only
    | intro _ _ _ | intro _ _ | intro _ | (with_reducible refine Still.mk_over ?_ rfl rfl rfl rfl rfl)

theorem resetUnits_still {r : State} {t : Target} {old : State} {s : State} (_hold : Still r old) (hs : Still r s) :
    Still r (resetUnits t old s) := by
  unfold resetUnits
  repeat' first
    | with_reducible assumption | with_reducible apply foldOver_still | with_reducible apply mcsReset_still
    | with_reducible apply keepLocks_still | with_reducible apply clearBlockState_still | with_reducible apply wr_still
    | with_reducible apply clearChanState_still | split | dsimp only | intro _ _ _ | intro _ _ | intro _
    | (with_reducible refine Still.mk_over ?_ rfl rfl rfl rfl rfl)

theorem noteReset_still {r : State} {t : Target} {imm : Bool} {win : Nat} {auto : Bool} {s : State} (hs : Still r s) :
    Still r (noteReset t imm win auto s) := by
  unfold noteReset
  repeat' first
    | with_reducible assumption | with_reducible apply wr_still | with_reducible apply raise_still
    | with_reducible apply incX_still | split | dsimp only | (with_reducible refine Still.mk_over ?_ rfl rfl rfl rfl rfl)

theorem hostActs_still {r : State} {t : Target} {s : State} (hs : Still r s) :
    Still r (hostActs t s) := by
  unfold hostActs
  repeat' first
    | with_reducible assumption | split | dsimp only | (with_reducible refine Still.mk_over ?_ rfl rfl rfl rfl rfl)

theorem discardOps_still {r : State} {t : Target} {s : State} (hs : Still r s) :
    Still r (discardOps t s) := by
  unfold discardOps
  repeat' first
    | with_reducible assumption | with_reducible apply foldOver_still | with_reducible apply dspDiscard_still | split
    | dsimp only | intro _ _ _ | intro _ _ | intro _ | (with_reducible refine Still.mk_over ?_ rfl rfl rfl rfl rfl)

theorem drainFrees_still {r : State} {t : Target} {s : State} (hs : Still r s) :
    Still r (drainFrees t s) := by
  unfold drainFrees
  repeat' first
    | with_reducible assumption | with_reducible apply linkGone_still | with_reducible apply tieDraining_still | split
    | dsimp only | intro _ _ _ | intro _ _ | intro _ | (with_reducible refine Still.mk_over ?_ rfl rfl rfl rfl rfl)

theorem avsRequest_still {r : State} {v : Nat} {s : State} (hs : Still r s) :
    Still r (avsRequest v s) := by
  unfold avsRequest
  repeat' first
    | with_reducible assumption | with_reducible apply emit_still | split | dsimp only | intro _ _ _ | intro _ _ | intro _
    | (with_reducible refine Still.mk_over ?_ rfl rfl rfl rfl rfl)

theorem suggest_still {r : State} {v : Nat} {s : State} (hs : Still r s) :
    Still r (suggest v s) := by
  unfold suggest
  repeat' first
    | with_reducible assumption | with_reducible apply wr_still | with_reducible apply avsRequest_still | split | dsimp only
    | intro _ _ _ | intro _ _ | intro _ | (with_reducible refine Still.mk_over ?_ rfl rfl rfl rfl rfl)

end Sys2Proof.Machine
end

