-- ==== Sys2Proof/Laws/BlockFsm.lean ====
section
/-! SUPPORT. The common state machine (R121 to R124): what each transition does to its own target, and that it leaves every other target,
every commit, lock and latch alone. -/

namespace Sys2Proof.Machine

theorem tgt_modTgt_same (t : Target) (f : Tgt → Tgt) (s : State) : tgt t (modTgt t f s) = f (tgt t s) := tgt_putTgt_same t _ s

theorem tgt_modTgt_other {t u : Target} (f : Tgt → Tgt) (s : State) (h : tgtKey u ≠ tgtKey t) : tgt u (modTgt t f s) = tgt u s :=
  tgt_putTgt_other _ s h

/-- Only target t's record changes among targets, and nothing of the control part beside it. -/
structure OnlyTgt (t : Target) (s u : State) : Prop where
  others : ∀ t', tgtKey t' ≠ tgtKey t → tgt t' u = tgt t' s
  commits : u.fab.commits = s.fab.commits
  owners : u.fab.owners = s.fab.owners
  latches : u.fab.latches = s.fab.latches

theorem OnlyTgt.refl (t : Target) (s : State) : OnlyTgt t s s := ⟨fun _ _ => rfl, rfl, rfl, rfl⟩

theorem OnlyTgt.trans {t : Target} {r s u : State} (h : OnlyTgt t r s) (k : OnlyTgt t s u) : OnlyTgt t r u :=
  ⟨fun t' hn => (k.others t' hn).trans (h.others t' hn), k.commits.trans h.commits, k.owners.trans h.owners, k.latches.trans h.latches⟩

theorem Still.onlyTgt {s u : State} (t : Target) (h : Still s u) : OnlyTgt t s u := ⟨fun t' _ => h.tgt t', h.commits, h.owners, h.latches⟩

theorem modTgt_onlyTgt (t : Target) (f : Tgt → Tgt) (s : State) : OnlyTgt t s (modTgt t f s) :=
  ⟨fun _ h => tgt_modTgt_other f s h, rfl, rfl, rfl⟩

theorem enterFault_spec (t : Target) (code : Nat) (s : State) :
    OnlyTgt t s (enterFault t code s) ∧ tgt t (enterFault t code s) = { tgt t s with st := .fault, faultCode := code } ∧
    Asserted evtBlockFault (enterFault t code s) := by
  have h1 : Still (modTgt t (fun x => { x with st := .fault, faultCode := code }) s) (enterFault t code s) :=
    (faultLog_still (Still.refl _)).trans (raise_onlyEvents _ _).still
  refine ⟨(modTgt_onlyTgt t _ s).trans (h1.onlyTgt t), ?_, raise_asserted _ (by decide)⟩
  rw [h1.tgt, tgt_modTgt_same]

theorem startTarget_spec (t : Target) (s : State) :
    OnlyTgt t s (startTarget t s) ∧ (tgt t (startTarget t s)).enable = (tgt t s).enable ∧ (tgt t (startTarget t s)).starts = ((tgt t s).starts + 1) % 256 ∧
    (((tgt t (startTarget t s)).st = .starting ∧ (tgt t (startTarget t s)).faultCode = 0) ∨
      ((tgt t (startTarget t s)).st = .fault ∧ t.block = .prt)) := by
  have h0 : OnlyTgt t s (enterStarting t s) := modTgt_onlyTgt t _ s
  have ht : tgt t (enterStarting t s) = { tgt t s with st := .starting, faultCode := 0, starts := ((tgt t s).starts + 1) % 256 } := tgt_modTgt_same ..
  unfold startTarget
  dsimp only
  split
  · next code hc =>
    have hb : t.block = .prt := by
      unfold startCheck at hc
      split at hc
      · next h _ => exact h
      · cases hc
    have hf := enterFault_spec t code (enterStarting t s)
    have hs : Still (enterFault t code (enterStarting t s)) (faultEffects t (enterFault t code (enterStarting t s))) := faultEffects_still (Still.refl _)
    refine ⟨(h0.trans hf.1).trans (hs.onlyTgt t), ?_, ?_, Or.inr ⟨?_, hb⟩⟩ <;> rw [hs.tgt, hf.2.1, ht]
  · have hs : Still (enterStarting t s) (startEffects t (enterStarting t s)) := startEffects_still (Still.refl _)
    refine ⟨h0.trans (hs.onlyTgt t), ?_, ?_, Or.inl ⟨?_, ?_⟩⟩ <;> rw [hs.tgt, ht]

theorem beginDrain_spec (t : Target) (s : State) : OnlyTgt t s (beginDrain t s) ∧ tgt t (beginDrain t s) = { tgt t s with st := .draining } := by
  have hs : Still (modTgt t (fun x => { x with st := .draining }) s) (beginDrain t s) := drainEffects_still (Still.refl _)
  exact ⟨(modTgt_onlyTgt t _ s).trans (hs.onlyTgt t), by rw [hs.tgt, tgt_modTgt_same]⟩

theorem offRows_spec (t : Target) (s : State) : OnlyTgt t s (offRows t s) ∧ (tgt t (offRows t s)).enable = (tgt t s).enable ∧
    ((tgt t s).st ≠ .off ∨ active s = false ∨ (tgt t s).enable = false ∨ tgtFused t s = true → offRows t s = s) ∧
    ((tgt t s).st = .off → active s = true → (tgt t s).enable = true → tgtFused t s = false →
      ((tgt t (offRows t s)).st = .held ∧ (tgt t (offRows t s)).starts = (tgt t s).starts ∧ precondOk t s = false) ∨
      (((tgt t (offRows t s)).st = .starting ∨ ((tgt t (offRows t s)).st = .fault ∧ t.block = .prt)) ∧
        (tgt t (offRows t s)).starts = ((tgt t s).starts + 1) % 256 ∧ precondOk t s = true)) := by
  unfold offRows
  by_cases ha : active s = true
  · rw [if_pos ha]
    unfold leaveOff
    by_cases hc : (tgt t s).st = .off ∧ (tgt t s).enable = true ∧ tgtFused t s = false
    · rw [if_pos hc]
      by_cases hp : precondOk t s = true
      · rw [if_pos hp]
        have h := startTarget_spec t s
        refine ⟨h.1, h.2.1, fun hh => ?_, fun _ _ _ _ => Or.inr ⟨?_, h.2.2.1, hp⟩⟩
        · rcases hh with hh | hh | hh | hh
          · exact absurd hc.1 hh
          · rw [ha] at hh; cases hh
          · rw [hc.2.1] at hh; cases hh
          · rw [hc.2.2] at hh; cases hh
        · rcases h.2.2.2 with h | h
          · exact Or.inl h.1
          · exact Or.inr h
      · rw [if_neg hp]
        refine ⟨modTgt_onlyTgt t _ s, by rw [tgt_modTgt_same], fun hh => ?_, fun _ _ _ _ => Or.inl ⟨by rw [tgt_modTgt_same], by rw [tgt_modTgt_same], by simpa using hp⟩⟩
        rcases hh with hh | hh | hh | hh
        · exact absurd hc.1 hh
        · rw [ha] at hh; cases hh
        · rw [hc.2.1] at hh; cases hh
        · rw [hc.2.2] at hh; cases hh
    · rw [if_neg hc]
      exact ⟨OnlyTgt.refl t s, rfl, fun _ => rfl, fun h1 _ h2 h3 => absurd ⟨h1, h2, h3⟩ hc⟩
  · rw [if_neg ha]
    exact ⟨OnlyTgt.refl t s, rfl, fun _ => rfl, fun _ h _ _ => absurd h ha⟩

theorem modeWrite_spec (t : Target) (v : Nat) (s : State) : (modeWrite t v s).fab.targets = s.fab.targets ∧ (modeWrite t v s).fab.owners = s.fab.owners ∧
    (modeWrite t v s).fab.latches = s.fab.latches ∧ (∀ b', b' ≠ t.block → commitOf b' (modeWrite t v s) = commitOf b' s) ∧
    (modeWrite t v s).variant = s.variant ∧ active (modeWrite t v s) = active s := by
  unfold modeWrite
  split
  · refine ⟨rfl, rfl, rfl, fun b' hb => ?_, rfl, rfl⟩
    unfold shadowRefused commitOf putCommit
    exact sget_sset_other _ _ _ (fun h => hb (blockCode_inj h))
  · refine ⟨rfl, rfl, rfl, fun b' _ => rfl, rfl, ?_⟩
    unfold active devState
    have : rd cfgStartState_state (wrC (modeFld t.block) (modeCopy t) v s) = rd cfgStartState_state s := by
      apply rdX_wrX_other
      unfold fieldsApart
      refine decide_eq_true ⟨by decide, Or.inl ?_⟩
      unfold rkey modeFld blockBase cfgStartState_state
      dsimp only
      cases t.block <;> simp only [blockCode] <;> omega
    rw [this]

theorem selTarget_block (w : Window) (b : Block) (s : State) : (selTarget w b s).block = b := by unfold selTarget; split <;> rfl

theorem fault_spec (t : Target) (code : Nat) (s : State) :
    OnlyTgt t s (faultEffects t (enterFault t code s)) ∧ tgt t (faultEffects t (enterFault t code s)) = { tgt t s with st := .fault, faultCode := code } ∧
    Asserted evtBlockFault (faultEffects t (enterFault t code s)) := by
  have hf := enterFault_spec t code s
  have hs : Still (enterFault t code s) (faultEffects t (enterFault t code s)) := faultEffects_still (Still.refl _)
  exact ⟨hf.1.trans (hs.onlyTgt t), by rw [hs.tgt, hf.2.1], hs.causes _ hf.2.2⟩

theorem startTarget_fault (t : Target) (s : State) (h : (tgt t (startTarget t s)).st = .fault) : Asserted evtBlockFault (startTarget t s) := by
  unfold startTarget at *
  dsimp only at *
  split at h
  · next code hc => exact (fault_spec t code _).2.2
  · next hc =>
    have hs : Still (enterStarting t s) (startEffects t (enterStarting t s)) := startEffects_still (Still.refl _)
    rw [hs.tgt] at h
    have ht : tgt t (enterStarting t s) = { tgt t s with st := .starting, faultCode := 0, starts := ((tgt t s).starts + 1) % 256 } := tgt_modTgt_same ..
    rw [ht] at h
    cases h

theorem drainDone_spec (t : Target) (s : State) (hb : resetBusy t s = false) :
    OnlyTgt t s (drainDone t s) ∧ (tgt t (drainDone t s)).enable = (tgt t s).enable ∧
    ((tgt t s).enable = false ∨ tgtFused t s = true → tgt t (drainDone t s) = { tgt t s with st := .off }) ∧
    ((tgt t (drainDone t s)).st = .off ∨ (tgt t (drainDone t s)).st = .held ∨
      ((tgt t (drainDone t s)).starts = ((tgt t s).starts + 1) % 256 ∧ ((tgt t (drainDone t s)).st = .starting ∨ (tgt t (drainDone t s)).st = .fault))) := by
  have hs : Still s (offEffects t s) := offEffects_still (Still.refl _)
  have h0 : OnlyTgt t s (modTgt t (fun x => { x with st := .off }) (offEffects t s)) := (hs.onlyTgt t).trans (modTgt_onlyTgt t _ _)
  have ht : tgt t (modTgt t (fun x => { x with st := .off }) (offEffects t s)) = { tgt t s with st := .off } := by rw [tgt_modTgt_same, hs.tgt]
  have hb' : resetBusy t (modTgt t (fun x => { x with st := .off }) (offEffects t s)) = false := by
    unfold resetBusy at *
    rw [ht]
    by_cases hk : tgtKey ⟨t.block, none⟩ = tgtKey t
    · have : tgt ⟨t.block, none⟩ (modTgt t (fun x => { x with st := .off }) (offEffects t s)) = { tgt t s with st := .off } := by
        rw [← ht]; unfold tgt; rw [hk]
      rw [this]
      rw [Bool.or_eq_false_iff] at hb
      rw [hb.1]; rfl
    · rw [h0.others _ hk]; exact hb
  have hf' : tgtFused t (modTgt t (fun x => { x with st := .off }) (offEffects t s)) = tgtFused t s := by
    unfold tgtFused isFused
    have : (modTgt t (fun x => { x with st := .off }) (offEffects t s)).variant = s.variant := hs.variant
    rw [this]
  have e : drainDone t s = offRows t (modTgt t (fun x => { x with st := .off }) (offEffects t s)) := by
    unfold drainDone; dsimp only; rw [hb']; rfl
  have ho := offRows_spec t (modTgt t (fun x => { x with st := .off }) (offEffects t s))
  rw [ht] at ho
  rw [e]
  refine ⟨h0.trans ho.1, ho.2.1, fun h => ?_, ?_⟩
  · rw [ho.2.2.1 (by
      rcases h with h | h
      · exact Or.inr (Or.inr (Or.inl h))
      · exact Or.inr (Or.inr (Or.inr (hf'.trans h)))), ht]
  · by_cases hc : active (modTgt t (fun x => { x with st := .off }) (offEffects t s)) = false ∨ (tgt t s).enable = false ∨ tgtFused t s = true
    · left
      rw [ho.2.2.1 (by
        rcases hc with h | h | h
        · exact Or.inr (Or.inl h)
        · exact Or.inr (Or.inr (Or.inl h))
        · exact Or.inr (Or.inr (Or.inr (hf'.trans h)))), ht]
    · simp only [not_or, Bool.not_eq_false, Bool.not_eq_true] at hc
      rcases ho.2.2.2 rfl hc.1 hc.2.1 (hf'.trans hc.2.2) with h | h
      · exact Or.inr (Or.inl h.1)
      · refine Or.inr (Or.inr ⟨h.2.1, ?_⟩)
        rcases h.1 with h | h
        · exact Or.inl h
        · exact Or.inr h.1

theorem drainDone_causes (t : Target) (s : State) (hb : resetBusy t s = false) (e : Src) (h : Asserted e s) :
    Asserted e (drainDone t s) ∧ (tgt t (drainDone t s)).drainForced = (tgt t s).drainForced := by
  have hs : Still s (offEffects t s) := offEffects_still (Still.refl _)
  have ht : tgt t (modTgt t (fun x => { x with st := .off }) (offEffects t s)) = { tgt t s with st := .off } := by rw [tgt_modTgt_same, hs.tgt]
  have hb' : resetBusy t (modTgt t (fun x => { x with st := .off }) (offEffects t s)) = false := by
    unfold resetBusy at *
    rw [ht]
    by_cases hk : tgtKey ⟨t.block, none⟩ = tgtKey t
    · have : tgt ⟨t.block, none⟩ (modTgt t (fun x => { x with st := .off }) (offEffects t s)) = { tgt t s with st := .off } := by
        rw [← ht]; unfold tgt; rw [hk]
      rw [this]
      rw [Bool.or_eq_false_iff] at hb
      rw [hb.1]; rfl
    · rw [tgt_modTgt_other _ _ hk, hs.tgt]; exact hb
  have e' : drainDone t s = offRows t (modTgt t (fun x => { x with st := .off }) (offEffects t s)) := by
    unfold drainDone; dsimp only; rw [hb']; rfl
  have h1 : Asserted e (modTgt t (fun x => { x with st := .off }) (offEffects t s)) := hs.causes e h
  rw [e']
  unfold offRows leaveOff
  split
  · split
    · split
      · unfold startTarget
        dsimp only
        have hes : ∀ y, tgt t (enterStarting t y) = { tgt t y with st := .starting, faultCode := 0, starts := ((tgt t y).starts + 1) % 256 } := fun y => tgt_modTgt_same ..
        split
        · next code hc =>
          have hfs := fault_spec t code (enterStarting t (modTgt t (fun x => { x with st := .off }) (offEffects t s)))
          refine ⟨?_, by rw [hfs.2.1, hes, ht]⟩
          have k1 : Still (modTgt t (fun x => { x with st := .fault, faultCode := code }) (enterStarting t (modTgt t (fun x => { x with st := .off }) (offEffects t s))))
              (enterFault t code (enterStarting t (modTgt t (fun x => { x with st := .off }) (offEffects t s)))) :=
            (faultLog_still (Still.refl _)).trans (raise_onlyEvents _ _).still
          exact (faultEffects_still (Still.refl _) : Still _ _).causes e (k1.causes e h1)
        · have k1 : Still (enterStarting t (modTgt t (fun x => { x with st := .off }) (offEffects t s))) _ := startEffects_still (t := t) (Still.refl _)
          exact ⟨k1.causes e h1, by rw [k1.tgt, hes, ht]⟩
      · exact ⟨h1, by rw [tgt_modTgt_same, ht]⟩
    · exact ⟨h1, by rw [ht]⟩
  · exact ⟨h1, by rw [ht]⟩

theorem resetBusy_still {s u : State} (h : Still s u) (t : Target) : resetBusy t u = resetBusy t s := by
  unfold resetBusy; rw [h.tgt, h.tgt]

end Sys2Proof.Machine
end

