-- ==== Sys2Proof/Laws/GateListsKeeps.lean ====
section
/-! SUPPORT. Every operation of Machine/GateLists.lean keeps what `Keeps` speaks of. -/

-- The alternatives of each proof's `first` are the same list; not every alternative is used in every proof.
set_option linter.unreachableTactic false
set_option linter.unusedTactic false

namespace Sys2Proof.Machine

theorem putDest_keeps {r : State} {d : Nat} {x : Dest} {s : State} (hs : Keeps r s) :
    Keeps r (putDest d x s) := by
  unfold putDest
  repeat' first
    | with_reducible assumption | with_reducible apply foldl_keeps | split | dsimp only | intro _ _ _ | intro _ _ | intro _
    | (with_reducible refine Keeps.mk_over ?_ rfl rfl rfl rfl rfl rfl)

theorem modDest_keeps {r : State} {d : Nat} {f : Dest → Dest} {s : State} (hs : Keeps r s) :
    Keeps r (modDest d f s) := by
  unfold modDest
  repeat' first
    | with_reducible assumption | with_reducible apply putDest_keeps | with_reducible apply foldl_keeps | split | dsimp only
    | intro _ _ _ | intro _ _ | intro _ | (with_reducible refine Keeps.mk_over ?_ rfl rfl rfl rfl rfl rfl)

theorem putGcl_keeps {r : State} {d : Nat} {l : Nat} {i : Nat} {x : Nat × Nat} {s : State} (hs : Keeps r s) :
    Keeps r (putGcl d l i x s) := by
  unfold putGcl
  repeat' first
    | with_reducible assumption | split | dsimp only | (with_reducible refine Keeps.mk_over ?_ rfl rfl rfl rfl rfl rfl)

theorem putList_keeps {r : State} {d : Nat} {l : Nat} {g : GateList} {s : State} (hs : Keeps r s) :
    Keeps r (putList d l g s) := by
  unfold putList
  repeat' first
    | with_reducible assumption | split | dsimp only | (with_reducible refine Keeps.mk_over ?_ rfl rfl rfl rfl rfl rfl)

theorem keepGates_keeps {r : State} {d : Nat} {till : Nat} {since : Nat} {old : State} {s : State} (_hold : Keeps r old) (hs :
    Keeps r s) :
    Keeps r (keepGates d till since old s) := by
  unfold keepGates
  repeat' first
    | with_reducible assumption | with_reducible apply modDest_keeps | split | dsimp only | intro _ _ _ | intro _ _ | intro _
    | (with_reducible refine Keeps.mk_over ?_ rfl rfl rfl rfl rfl rfl)

theorem showGates_keeps {r : State} {d : Nat} {s : State} (hs : Keeps r s) :
    Keeps r (showGates d s) := by
  unfold showGates
  repeat' first
    | with_reducible assumption | with_reducible apply wrC_keeps | split | dsimp only
    | (with_reducible refine Keeps.mk_over ?_ rfl rfl rfl rfl rfl rfl)

theorem execGateEntryChange_keeps {r : State} {d : Nat} {s : State} (hs : Keeps r s) :
    OutKeeps r (execGateEntryChange d s) := by
  unfold execGateEntryChange
  repeat' first
    | with_reducible assumption | with_reducible apply guarded_keeps | with_reducible apply OutKeeps.next
    | exact OutKeeps.refused _ | exact OutKeeps.fault _ | with_reducible apply showGates_keeps | split | dsimp only
    | (with_reducible refine Keeps.mk_over ?_ rfl rfl rfl rfl rfl rfl)

theorem takeover_keeps {r : State} {d : Nat} {late : Bool} {s : State} (hs : Keeps r s) :
    Keeps r (takeover d late s) := by
  unfold takeover
  repeat' first
    | with_reducible assumption | with_reducible apply wrC_keeps | with_reducible apply keepGates_keeps
    | with_reducible apply raiseC_keeps | with_reducible apply showGates_keeps | split | dsimp only | intro _ _ _ | intro _ _
    | intro _ | (with_reducible refine Keeps.mk_over ?_ rfl rfl rfl rfl rfl rfl)

theorem execGateTakeover_keeps {r : State} {d : Nat} {s : State} (hs : Keeps r s) :
    OutKeeps r (execGateTakeover d s) := by
  unfold execGateTakeover
  repeat' first
    | with_reducible assumption | with_reducible apply guarded_keeps | with_reducible apply OutKeeps.next
    | exact OutKeeps.refused _ | exact OutKeeps.fault _ | with_reducible apply takeover_keeps | split | dsimp only
    | (with_reducible refine Keeps.mk_over ?_ rfl rfl rfl rfl rfl rfl)

theorem gateCancel_keeps {r : State} {d : Nat} {s : State} (hs : Keeps r s) :
    Keeps r (gateCancel d s) := by
  unfold gateCancel
  repeat' first
    | with_reducible assumption | with_reducible apply raiseC_keeps | with_reducible apply wrC_keeps | split | dsimp only
    | (with_reducible refine Keeps.mk_over ?_ rfl rfl rfl rfl rfl rfl)

theorem gateStatusWrite_keeps {r : State} {d : Nat} {v : Word} {s : State} (hs : Keeps r s) :
    Keeps r (gateStatusWrite d v s) := by
  unfold gateStatusWrite
  repeat' first
    | with_reducible assumption | with_reducible apply wrC_keeps | with_reducible apply gateCancel_keeps | split | dsimp only
    | (with_reducible refine Keeps.mk_over ?_ rfl rfl rfl rfl rfl rfl)

theorem execGateCancel_keeps {r : State} {w : Window} {v : Word} {s : State} (hs : Keeps r s) :
    OutKeeps r (execGateCancel w v s) := by
  unfold execGateCancel
  repeat' first
    | with_reducible assumption | with_reducible apply guarded_keeps | with_reducible apply OutKeeps.next
    | exact OutKeeps.refused _ | exact OutKeeps.fault _ | with_reducible apply writingC_keeps
    | with_reducible apply gateStatusWrite_keeps | split | dsimp only | intro _ _ _ | intro _ _ | intro _
    | (with_reducible refine Keeps.mk_over ?_ rfl rfl rfl rfl rfl rfl)

theorem gclWrite_keeps {r : State} {w : Window} {d : Nat} {v : Word} {s : State} (hs : Keeps r s) :
    Keeps r (gclWrite w d v s) := by
  unfold gclWrite
  repeat' first
    | with_reducible assumption | with_reducible apply raiseC_keeps | with_reducible apply putGcl_keeps
    | with_reducible apply wrC_keeps | split | dsimp only | (with_reducible refine Keeps.mk_over ?_ rfl rfl rfl rfl rfl rfl)

theorem execGclDataHiWrite_keeps {r : State} {w : Window} {v : Word} {s : State} (hs : Keeps r s) :
    OutKeeps r (execGclDataHiWrite w v s) := by
  unfold execGclDataHiWrite
  repeat' first
    | with_reducible assumption | with_reducible apply guarded_keeps | with_reducible apply OutKeeps.next
    | exact OutKeeps.refused _ | exact OutKeeps.fault _ | with_reducible apply writingC_keeps
    | with_reducible apply gclWrite_keeps | split | dsimp only | intro _ _ _ | intro _ _ | intro _
    | (with_reducible refine Keeps.mk_over ?_ rfl rfl rfl rfl rfl rfl)

theorem gclLoad_keeps {r : State} {w : Window} {s : State} (hs : Keeps r s) :
    Keeps r (gclLoad w s) := by
  unfold gclLoad
  repeat' first
    | with_reducible assumption | with_reducible apply putRead_keeps | with_reducible apply wrC_keeps | split | dsimp only
    | (with_reducible refine Keeps.mk_over ?_ rfl rfl rfl rfl rfl rfl)

theorem execGclEntryLoad_keeps {r : State} {w : Window} {s : State} (hs : Keeps r s) :
    OutKeeps r (execGclEntryLoad w s) := by
  unfold execGclEntryLoad
  repeat' first
    | with_reducible assumption | with_reducible apply guarded_keeps | with_reducible apply OutKeeps.next
    | exact OutKeeps.refused _ | exact OutKeeps.fault _ | with_reducible apply reading_keeps
    | with_reducible apply gclLoad_keeps | split | dsimp only | intro _ _ _ | intro _ _ | intro _
    | (with_reducible refine Keeps.mk_over ?_ rfl rfl rfl rfl rfl rfl)

theorem gateStep_keeps {r : State} {old : Nat} {new : Nat} {s : State} (hs : Keeps r s) :
    Keeps r (gateStep old new s) := by
  unfold gateStep
  repeat' first
    | with_reducible assumption | with_reducible apply foldOver_keeps | with_reducible apply keepGates_keeps
    | with_reducible apply takeover_keeps | with_reducible apply showGates_keeps | split | dsimp only | intro _ _ _ | intro _ _
    | intro _ | (with_reducible refine Keeps.mk_over ?_ rfl rfl rfl rfl rfl rfl)

end Sys2Proof.Machine
end

