-- ==== Sys2Proof/Laws/MetersKeeps.lean ====
section
/-! SUPPORT. Every operation of Machine/Meters.lean keeps what `Keeps` speaks of. -/

-- The alternatives of each proof's `first` are the same list; not every alternative is used in every proof.
set_option linter.unreachableTactic false
set_option linter.unusedTactic false

namespace Sys2Proof.Machine

theorem putMeter_keeps {r : State} {i : Nat} {m : Meter} {s : State} (hs : Keeps r s) :
    Keeps r (putMeter i m s) := by
  unfold putMeter
  repeat' first
    | with_reducible assumption | split | dsimp only | (with_reducible refine Keeps.mk_over ?_ rfl rfl rfl rfl rfl rfl)

theorem meterSteps_keeps {r : State} {i : Nat} {len : Nat} {dei : Bool} {s : State} (hs : Keeps r s) :
    Keeps r (meterSteps i len dei s).2 := by
  unfold meterSteps
  try dsimp only
  repeat' first
    | split | with_reducible assumption | with_reducible apply putMeter_keeps | with_reducible apply raise_keeps | dsimp only
    | (with_reducible refine Keeps.mk_over ?_ rfl rfl rfl rfl rfl rfl)

theorem meterEngine_keeps {r : State} {i : Nat} {len : Nat} {s : State} (hs : Keeps r s) :
    Keeps r (meterEngine i len s).2 := by
  unfold meterEngine
  try dsimp only
  repeat' first
    | split | with_reducible assumption | with_reducible apply meterSteps_keeps | with_reducible apply raise_keeps
    | with_reducible apply count_keeps | dsimp only | (refine Keeps.snd ?_ ‹_›)
    | (with_reducible refine Keeps.mk_over ?_ rfl rfl rfl rfl rfl rfl)

theorem meterFrame_keeps {r : State} {i : Nat} {len : Nat} {cls : Nat} {dei : Bool} {s : State} (hs : Keeps r s) :
    Keeps r (meterFrame i len cls dei s).2 := by
  unfold meterFrame
  try dsimp only
  repeat' first
    | split | with_reducible assumption | with_reducible apply raise_keeps | with_reducible apply count_keeps
    | with_reducible apply meterSteps_keeps | with_reducible apply putMeter_keeps | dsimp only | (refine Keeps.snd ?_ ‹_›)
    | (with_reducible refine Keeps.mk_over ?_ rfl rfl rfl rfl rfl rfl)

theorem meterSet_keeps {r : State} {i : Nat} {cfg : Nat} {cir : Nat} {cbs : Nat} {eir : Nat} {ebs : Nat} {zero : Bool} {s : State} (hs : Keeps r s) :
    Keeps r (meterSet i cfg cir cbs eir ebs zero s) := by
  unfold meterSet
  repeat' first
    | with_reducible assumption | with_reducible apply putMeter_keeps | split | dsimp only
    | (with_reducible refine Keeps.mk_over ?_ rfl rfl rfl rfl rfl rfl)

theorem meterWriteOp_keeps {r : State} {c : Nat} {zero : Bool} {s : State} (hs : Keeps r s) :
    Keeps r (meterWriteOp c zero s) := by
  unfold meterWriteOp
  repeat' first
    | with_reducible assumption | with_reducible apply wrC_keeps | with_reducible apply meterSet_keeps | split | dsimp only
    | (with_reducible refine Keeps.mk_over ?_ rfl rfl rfl rfl rfl rfl)

theorem meterReadOp_keeps {r : State} {c : Nat} {clr : Bool} {s : State} (hs : Keeps r s) :
    Keeps r (meterReadOp c clr s) := by
  unfold meterReadOp
  repeat' first
    | with_reducible assumption | with_reducible apply foldOver_keeps | with_reducible apply putReg_keeps
    | with_reducible apply wrC_keeps | with_reducible apply wrX_keeps | with_reducible apply putMeter_keeps | split | dsimp only
    | intro _ _ _ | intro _ _ | intro _ | (with_reducible refine Keeps.mk_over ?_ rfl rfl rfl rfl rfl rfl)

theorem meterClearOp_keeps {r : State} {c : Nat} {s : State} (hs : Keeps r s) :
    Keeps r (meterClearOp c s) := by
  unfold meterClearOp
  repeat' first
    | with_reducible assumption | with_reducible apply wrC_keeps | with_reducible apply putMeter_keeps | split | dsimp only
    | (with_reducible refine Keeps.mk_over ?_ rfl rfl rfl rfl rfl rfl)

theorem meterOpWrite_keeps {r : State} {w : Window} {v : Word} {s : State} (hs : Keeps r s) :
    Keeps r (meterOpWrite w v s) := by
  unfold meterOpWrite
  repeat' first
    | with_reducible assumption | with_reducible apply meterWriteOp_keeps | with_reducible apply meterReadOp_keeps
    | with_reducible apply meterClearOp_keeps | split | dsimp only
    | (with_reducible refine Keeps.mk_over ?_ rfl rfl rfl rfl rfl rfl)

theorem execMeterWrite_keeps {r : State} {w : Window} {v : Word} {s : State} (hs : Keeps r s) :
    OutKeeps r (execMeterWrite w v s) := by
  unfold execMeterWrite
  repeat' first
    | with_reducible assumption | with_reducible apply guarded_keeps | with_reducible apply OutKeeps.next
    | exact OutKeeps.refused _ | exact OutKeeps.fault _ | with_reducible apply writing_keeps
    | with_reducible apply meterOpWrite_keeps | split | dsimp only | intro _ _ _ | intro _ _ | intro _
    | (with_reducible refine Keeps.mk_over ?_ rfl rfl rfl rfl rfl rfl)

theorem execMeterRead_keeps {r : State} {w : Window} {v : Word} {s : State} (hs : Keeps r s) :
    OutKeeps r (execMeterRead w v s) := by
  unfold execMeterRead
  repeat' first
    | with_reducible assumption | with_reducible apply guarded_keeps | with_reducible apply OutKeeps.next
    | exact OutKeeps.refused _ | exact OutKeeps.fault _ | with_reducible apply writing_keeps
    | with_reducible apply meterOpWrite_keeps | split | dsimp only | intro _ _ _ | intro _ _ | intro _
    | (with_reducible refine Keeps.mk_over ?_ rfl rfl rfl rfl rfl rfl)

theorem execMeterUnblock_keeps {r : State} {w : Window} {v : Word} {s : State} (hs : Keeps r s) :
    OutKeeps r (execMeterUnblock w v s) := by
  unfold execMeterUnblock
  repeat' first
    | with_reducible assumption | with_reducible apply guarded_keeps | with_reducible apply OutKeeps.next
    | exact OutKeeps.refused _ | exact OutKeeps.fault _ | with_reducible apply writing_keeps
    | with_reducible apply meterOpWrite_keeps | split | dsimp only | intro _ _ _ | intro _ _ | intro _
    | (with_reducible refine Keeps.mk_over ?_ rfl rfl rfl rfl rfl rfl)

end Sys2Proof.Machine
end

