-- ==== Sys2Proof/Laws/SquelchKeeps.lean ====
section
/-! SUPPORT. Every operation of Machine/Squelch.lean keeps what `Keeps` speaks of. -/

-- The alternatives of each proof's `first` are the same list; not every alternative is used in every proof.
set_option linter.unreachableTactic false
set_option linter.unusedTactic false

namespace Sys2Proof.Machine

theorem refreshSynce1_keeps {r : State} {k : Nat} {s : State} (hs : Keeps r s) :
    Keeps r (refreshSynce1 k s) := by
  unfold refreshSynce1
  repeat' first
    | with_reducible assumption | with_reducible apply raise_keeps | split | dsimp only
    | (with_reducible refine Keeps.mk_over ?_ rfl rfl rfl rfl rfl rfl)

theorem refreshSynce_keeps {r : State} {s : State} (hs : Keeps r s) :
    Keeps r (refreshSynce s) := by
  unfold refreshSynce
  repeat' first
    | with_reducible assumption | with_reducible apply refreshSynce1_keeps | split | dsimp only
    | (with_reducible refine Keeps.mk_over ?_ rfl rfl rfl rfl rfl rfl)

end Sys2Proof.Machine
end

