-- ==== Sys2Proof/Laws/TieLinkKeeps.lean ====
section
/-! SUPPORT. Every operation of Machine/TieLink.lean keeps what `Keeps` speaks of. -/

-- The alternatives of each proof's `first` are the same list; not every alternative is used in every proof.
set_option linter.unreachableTactic false
set_option linter.unusedTactic false

namespace Sys2Proof.Machine

theorem putTieLink_keeps {r : State} {k : Nat} {x : TieLinkSt} {s : State} (hs : Keeps r s) :
    Keeps r (putTieLink k x s) := by
  unfold putTieLink
  repeat' first
    | with_reducible assumption | split | dsimp only | (with_reducible refine Keeps.mk_over ?_ rfl rfl rfl rfl rfl rfl)

theorem modTieLink_keeps {r : State} {k : Nat} {f : TieLinkSt → TieLinkSt} {s : State} (hs : Keeps r s) :
    Keeps r (modTieLink k f s) := by
  unfold modTieLink
  repeat' first
    | with_reducible assumption | with_reducible apply putTieLink_keeps | split | dsimp only
    | (with_reducible refine Keeps.mk_over ?_ rfl rfl rfl rfl rfl rfl)

theorem sendMsg_keeps {r : State} {k : Nat} {kind : Nat} {body : List Byte} {s : State} (hs : Keeps r s) :
    Keeps r (sendMsg k kind body s) := by
  unfold sendMsg
  repeat' first
    | with_reducible assumption | with_reducible apply count_keeps | with_reducible apply emit_keeps | split | dsimp only
    | intro _ _ _ | intro _ _ | intro _ | (with_reducible refine Keeps.mk_over ?_ rfl rfl rfl rfl rfl rfl)

theorem sendControl_keeps {r : State} {k : Nat} {kind : Nat} {body : List Byte} {s : State} (hs : Keeps r s) :
    Keeps r (sendControl k kind body s) := by
  unfold sendControl
  repeat' first
    | with_reducible assumption | with_reducible apply sendMsg_keeps | with_reducible apply putTieLink_keeps | split
    | dsimp only | intro _ _ _ | intro _ _ | intro _ | (with_reducible refine Keeps.mk_over ?_ rfl rfl rfl rfl rfl rfl)

theorem refreshJoined_keeps {r : State} {s : State} (hs : Keeps r s) :
    Keeps r (refreshJoined s) := by
  unfold refreshJoined
  repeat' first
    | with_reducible assumption | with_reducible apply wr_keeps | split | dsimp only
    | (with_reducible refine Keeps.mk_over ?_ rfl rfl rfl rfl rfl rfl)

theorem clearLink_keeps {r : State} {k : Nat} {s : State} (hs : Keeps r s) :
    Keeps r (clearLink k s) := by
  unfold clearLink
  repeat' first
    | with_reducible assumption | with_reducible apply modTieLink_keeps | with_reducible apply wrC_keeps | split | dsimp only
    | intro _ _ _ | intro _ _ | intro _ | (with_reducible refine Keeps.mk_over ?_ rfl rfl rfl rfl rfl rfl)

theorem dropKept_keeps {r : State} {k : Nat} {s : State} (hs : Keeps r s) :
    Keeps r (dropKept k s) := by
  unfold dropKept
  repeat' first
    | with_reducible assumption | with_reducible apply modTieLink_keeps | split | dsimp only | intro _ _ _ | intro _ _ | intro _
    | (with_reducible refine Keeps.mk_over ?_ rfl rfl rfl rfl rfl rfl)

theorem tieLinkDown_keeps {r : State} {k : Nat} {s : State} (hs : Keeps r s) :
    Keeps r (tieLinkDown k s) := by
  unfold tieLinkDown
  repeat' first
    | with_reducible assumption | with_reducible apply refreshJoined_keeps | with_reducible apply clearLink_keeps
    | with_reducible apply wrC_keeps | split | dsimp only | (with_reducible refine Keeps.mk_over ?_ rfl rfl rfl rfl rfl rfl)

theorem noteLinkLost_keeps {r : State} {k : Nat} {s : State} (hs : Keeps r s) :
    Keeps r (noteLinkLost k s) := by
  unfold noteLinkLost
  repeat' first
    | with_reducible assumption | with_reducible apply raiseC_keeps | split | dsimp only | intro _ _ _ | intro _ _ | intro _
    | (with_reducible refine Keeps.mk_over ?_ rfl rfl rfl rfl rfl rfl)

theorem tieLanesLost_keeps {r : State} {k : Nat} {s : State} (hs : Keeps r s) :
    Keeps r (tieLanesLost k s) := by
  unfold tieLanesLost
  repeat' first
    | with_reducible assumption | with_reducible apply tieLinkDown_keeps | split | dsimp only | intro _ _ _ | intro _ _
    | intro _ | (with_reducible refine Keeps.mk_over ?_ rfl rfl rfl rfl rfl rfl)

theorem takeLinkValues_keeps {r : State} {k : Nat} {s : State} (hs : Keeps r s) :
    Keeps r (takeLinkValues k s) := by
  unfold takeLinkValues
  repeat' first
    | with_reducible assumption | with_reducible apply modTieLink_keeps | split | dsimp only | intro _ _ _ | intro _ _ | intro _
    | (with_reducible refine Keeps.mk_over ?_ rfl rfl rfl rfl rfl rfl)

theorem forwardAgain_keeps {r : State} {k : Nat} {s : State} (hs : Keeps r s) :
    Keeps r (forwardAgain k s) := by
  unfold forwardAgain
  repeat' first
    | with_reducible assumption | split | dsimp only | intro _ _ _ | intro _ _ | intro _
    | (with_reducible refine Keeps.mk_over ?_ rfl rfl rfl rfl rfl rfl)

theorem tieLanesAligned_keeps {r : State} {k : Nat} {s : State} (hs : Keeps r s) :
    Keeps r (tieLanesAligned k s) := by
  unfold tieLanesAligned
  repeat' first
    | with_reducible assumption | with_reducible apply wrC_keeps | with_reducible apply takeLinkValues_keeps
    | with_reducible apply clearLink_keeps | split | dsimp only | intro _ _ _ | intro _ _ | intro _
    | (with_reducible refine Keeps.mk_over ?_ rfl rfl rfl rfl rfl rfl)

end Sys2Proof.Machine
end

