-- ==== Sys2Proof/Laws/LanesKeeps.lean ====
section
/-! SUPPORT. Every operation of Machine/Lanes.lean keeps what `Keeps` speaks of. -/

-- The alternatives of each proof's `first` are the same list; not every alternative is used in every proof.
set_option linter.unreachableTactic false
set_option linter.unusedTactic false

namespace Sys2Proof.Machine

theorem setLane_keeps {r : State} {l : Nat} {v : Nat} {s : State} (hs : Keeps r s) :
    Keeps r (setLane l v s) := by
  unfold setLane
  repeat' first
    | with_reducible assumption | with_reducible apply wrC_keeps | with_reducible apply foldl_keeps | split | dsimp only
    | intro _ _ _ | intro _ _ | intro _ | (with_reducible refine Keeps.mk_over ?_ rfl rfl rfl rfl rfl rfl)

theorem setTaps_keeps {r : State} {l : Nat} {pre : Nat} {post : Nat} {s : State} (hs : Keeps r s) :
    Keeps r (setTaps l pre post s) := by
  unfold setTaps
  repeat' first
    | with_reducible assumption | with_reducible apply wrC_keeps | with_reducible apply foldl_keeps | split | dsimp only
    | intro _ _ _ | intro _ _ | intro _ | (with_reducible refine Keeps.mk_over ?_ rfl rfl rfl rfl rfl rfl)

theorem tapRequest_keeps {r : State} {l : Nat} {r0 : TapReq} {s : State} (hs : Keeps r s) :
    Keeps r (tapRequest l r0 s) := by
  unfold tapRequest
  repeat' first
    | with_reducible assumption | with_reducible apply raiseC_keeps | with_reducible apply setTaps_keeps
    | with_reducible apply foldl_keeps | split | dsimp only | intro _ _ _ | intro _ _ | intro _
    | (with_reducible refine Keeps.mk_over ?_ rfl rfl rfl rfl rfl rfl)

theorem loadTaps_keeps {r : State} {l : Nat} {s : State} (hs : Keeps r s) :
    Keeps r (loadTaps l s) := by
  unfold loadTaps
  repeat' first
    | with_reducible assumption | with_reducible apply setTaps_keeps | with_reducible apply wrC_keeps | split | dsimp only
    | intro _ _ _ | intro _ _ | intro _ | (with_reducible refine Keeps.mk_over ?_ rfl rfl rfl rfl rfl rfl)

theorem baseRate_keeps {r : State} {l : Nat} {s : State} (hs : Keeps r s) :
    Keeps r (baseRate l s) := by
  unfold baseRate
  repeat' first
    | with_reducible assumption | with_reducible apply wrC_keeps | split | dsimp only | intro _ _ _ | intro _ _ | intro _
    | (with_reducible refine Keeps.mk_over ?_ rfl rfl rfl rfl rfl rfl)

theorem powerLane_keeps {r : State} {l : Nat} {s : State} (hs : Keeps r s) :
    Keeps r (powerLane l s) := by
  unfold powerLane
  repeat' first
    | with_reducible assumption | with_reducible apply baseRate_keeps | with_reducible apply loadTaps_keeps | split | dsimp only
    | intro _ _ _ | intro _ _ | intro _ | (with_reducible refine Keeps.mk_over ?_ rfl rfl rfl rfl rfl rfl)

theorem clearPass_keeps {r : State} {l : Nat} {s : State} (hs : Keeps r s) :
    Keeps r (clearPass l s) := by
  unfold clearPass
  repeat' first
    | with_reducible assumption | with_reducible apply wrC_keeps | split | dsimp only | intro _ _ _ | intro _ _ | intro _
    | (with_reducible refine Keeps.mk_over ?_ rfl rfl rfl rfl rfl rfl)

theorem testLane_keeps {r : State} {l : Nat} {s : State} (hs : Keeps r s) :
    Keeps r (testLane l s) := by
  unfold testLane
  repeat' first
    | with_reducible assumption | with_reducible apply setLane_keeps | with_reducible apply baseRate_keeps
    | with_reducible apply clearPass_keeps | split | dsimp only | intro _ _ _ | intro _ _ | intro _
    | (with_reducible refine Keeps.mk_over ?_ rfl rfl rfl rfl rfl rfl)

theorem afterRetune_keeps {r : State} {ls : List Nat} {l : Nat} {s : State} (hs : Keeps r s) :
    Keeps r (afterRetune ls l s) := by
  unfold afterRetune
  repeat' first
    | with_reducible assumption | with_reducible apply wrC_keeps | with_reducible apply setLane_keeps
    | with_reducible apply foldl_keeps | split | dsimp only | intro _ _ _ | intro _ _ | intro _
    | (with_reducible refine Keeps.mk_over ?_ rfl rfl rfl rfl rfl rfl)

theorem firstStep_keeps {r : State} {ls : List Nat} {l : Nat} {s : State} (hs : Keeps r s) :
    Keeps r (firstStep ls l s) := by
  unfold firstStep
  repeat' first
    | with_reducible assumption | with_reducible apply clearPass_keeps | with_reducible apply wrC_keeps
    | with_reducible apply setTaps_keeps | with_reducible apply setLane_keeps | with_reducible apply afterRetune_keeps
    | with_reducible apply foldl_keeps | split | dsimp only | intro _ _ _ | intro _ _ | intro _
    | (with_reducible refine Keeps.mk_over ?_ rfl rfl rfl rfl rfl rfl)

theorem enterSequence_keeps {r : State} {ls : List Nat} {l : Nat} {s : State} (hs : Keeps r s) :
    Keeps r (enterSequence ls l s) := by
  unfold enterSequence
  repeat' first
    | with_reducible assumption | with_reducible apply testLane_keeps | with_reducible apply firstStep_keeps
    | with_reducible apply setLane_keeps | with_reducible apply clearPass_keeps | split | dsimp only | intro _ _ _ | intro _ _
    | intro _ | (with_reducible refine Keeps.mk_over ?_ rfl rfl rfl rfl rfl rfl)

theorem startLanes_keeps {r : State} {ls : List Nat} {s : State} (hs : Keeps r s) :
    Keeps r (startLanes ls s) := by
  unfold startLanes
  repeat' first
    | with_reducible assumption | with_reducible apply foldOver_keeps | with_reducible apply refreshSynce_keeps
    | with_reducible apply enterSequence_keeps | with_reducible apply foldl_keeps | split | dsimp only | intro _ _ _ | intro _ _
    | intro _ | (with_reducible refine Keeps.mk_over ?_ rfl rfl rfl rfl rfl rfl)

theorem holdLane_keeps {r : State} {l : Nat} {s : State} (hs : Keeps r s) :
    Keeps r (holdLane l s) := by
  unfold holdLane
  repeat' first
    | with_reducible assumption | with_reducible apply testLane_keeps | with_reducible apply setLane_keeps
    | with_reducible apply clearPass_keeps | split | dsimp only | intro _ _ _ | intro _ _ | intro _
    | (with_reducible refine Keeps.mk_over ?_ rfl rfl rfl rfl rfl rfl)

theorem holdLanes_keeps {r : State} {ls : List Nat} {s : State} (hs : Keeps r s) :
    Keeps r (holdLanes ls s) := by
  unfold holdLanes
  repeat' first
    | with_reducible assumption | with_reducible apply foldOver_keeps | with_reducible apply refreshSynce_keeps
    | with_reducible apply holdLane_keeps | with_reducible apply foldl_keeps | split | dsimp only | intro _ _ _ | intro _ _
    | intro _ | (with_reducible refine Keeps.mk_over ?_ rfl rfl rfl rfl rfl rfl)

theorem laneDown_keeps {r : State} {l : Nat} {s : State} (hs : Keeps r s) :
    Keeps r (laneDown l s) := by
  unfold laneDown
  repeat' first
    | with_reducible assumption | with_reducible apply raiseC_keeps | with_reducible apply satX_keeps
    | with_reducible apply foldl_keeps | split | dsimp only | intro _ _ _ | intro _ _ | intro _
    | (with_reducible refine Keeps.mk_over ?_ rfl rfl rfl rfl rfl rfl)

theorem portCount_keeps {r : State} {i : Nat} {p : Nat} {d : Nat} {s : State} (hs : Keeps r s) :
    Keeps r (portCount i p d s) := by
  unfold portCount
  repeat' first
    | with_reducible assumption | with_reducible apply count_keeps | with_reducible apply foldl_keeps | split | dsimp only
    | intro _ _ _ | intro _ _ | intro _ | (with_reducible refine Keeps.mk_over ?_ rfl rfl rfl rfl rfl rfl)

theorem flap_keeps {r : State} {p : Nat} {s : State} (hs : Keeps r s) :
    Keeps r (flap p s) := by
  unfold flap
  repeat' first
    | with_reducible assumption | with_reducible apply wrC_keeps | with_reducible apply emit_keeps
    | with_reducible apply remoteFault_keeps | with_reducible apply raiseC_keeps | with_reducible apply portCount_keeps | split
    | dsimp only | intro _ _ _ | intro _ _ | intro _ | (with_reducible refine Keeps.mk_over ?_ rfl rfl rfl rfl rfl rfl)

theorem portDown_keeps {r : State} {p : Nat} {s : State} (hs : Keeps r s) :
    Keeps r (portDown p s) := by
  unfold portDown
  repeat' first
    | with_reducible assumption | with_reducible apply flap_keeps | with_reducible apply refreshSynce_keeps
    | with_reducible apply raiseC_keeps | with_reducible apply portCount_keeps | with_reducible apply wrC_keeps
    | with_reducible apply foldl_keeps | split | dsimp only | intro _ _ _ | intro _ _ | intro _
    | (with_reducible refine Keeps.mk_over ?_ rfl rfl rfl rfl rfl rfl)

theorem dropLanes_keeps {r : State} {l : Nat} {s : State} (hs : Keeps r s) :
    Keeps r (dropLanes l s) := by
  unfold dropLanes
  repeat' first
    | with_reducible assumption | with_reducible apply foldOver_keeps | with_reducible apply tieLanesLost_keeps
    | with_reducible apply wrC_keeps | with_reducible apply portDown_keeps | with_reducible apply holdLanes_keeps
    | with_reducible apply laneDown_keeps | with_reducible apply foldl_keeps | split | dsimp only | intro _ _ _ | intro _ _
    | intro _ | (with_reducible refine Keeps.mk_over ?_ rfl rfl rfl rfl rfl rfl)

theorem restartLane_keeps {r : State} {l : Nat} {s : State} (hs : Keeps r s) :
    Keeps r (restartLane l s) := by
  unfold restartLane
  repeat' first
    | with_reducible assumption | with_reducible apply dropLanes_keeps | with_reducible apply foldl_keeps | split | dsimp only
    | intro _ _ _ | intro _ _ | intro _ | (with_reducible refine Keeps.mk_over ?_ rfl rfl rfl rfl rfl rfl)

theorem onLane_keeps {r : State} {l : Nat} {c : Bool} {f : State → State} {s : State} (hf : ∀ x0, Keeps r x0 → Keeps r (f x0)) (hs : Keeps r s) :
    OutKeeps r (onLane l c f s) := by
  unfold onLane
  repeat' first
    | with_reducible assumption | with_reducible apply hf | with_reducible apply guarded_keeps
    | with_reducible apply OutKeeps.next | exact OutKeeps.refused _ | exact OutKeeps.fault _ | with_reducible apply onlyIf_keeps
    | with_reducible apply foldl_keeps | split | dsimp only | intro _ _ _ | intro _ _ | intro _
    | (with_reducible refine Keeps.mk_over ?_ rfl rfl rfl rfl rfl rfl)

theorem onPort_keeps {r : State} {p : Nat} {c : Bool} {f : State → State} {s : State} (hf : ∀ x0, Keeps r x0 → Keeps r (f x0)) (hs : Keeps r s) :
    OutKeeps r (onPort p c f s) := by
  unfold onPort
  repeat' first
    | with_reducible assumption | with_reducible apply hf | with_reducible apply guarded_keeps
    | with_reducible apply OutKeeps.next | exact OutKeeps.refused _ | exact OutKeeps.fault _ | with_reducible apply onlyIf_keeps
    | with_reducible apply foldl_keeps | split | dsimp only | intro _ _ _ | intro _ _ | intro _
    | (with_reducible refine Keeps.mk_over ?_ rfl rfl rfl rfl rfl rfl)

theorem onLivePort_keeps {r : State} {p : Nat} {c : Bool} {f : State → State} {s : State} (hf : ∀ a, Keeps r a → Keeps r (f a))
    (hs : Keeps r s) :
    OutKeeps r (onLivePort p c f s) := by
  unfold onLivePort
  repeat' first
    | with_reducible assumption | with_reducible apply guarded_keeps | with_reducible apply OutKeeps.next
    | exact OutKeeps.refused _ | exact OutKeeps.fault _ | with_reducible apply onlyIf_keeps | split | dsimp only | intro _ _ _
    | intro _ _ | intro _ | (with_reducible refine Keeps.mk_over ?_ rfl rfl rfl rfl rfl rfl)

theorem putVals_keeps {r : State} {p : Nat} {vs : List Word} {s : State} (hs : Keeps r s) :
    Keeps r (putVals p vs s) := by
  unfold putVals
  repeat' first
    | with_reducible assumption | with_reducible apply foldOver_keeps | with_reducible apply putLive_keeps | split | dsimp only
    | intro _ _ _ | intro _ _ | intro _ | (with_reducible refine Keeps.mk_over ?_ rfl rfl rfl rfl rfl rfl)

theorem moveLater_keeps {r : State} {p : Nat} {s : State} (hs : Keeps r s) :
    Keeps r (moveLater p s) := by
  unfold moveLater
  repeat' first
    | with_reducible assumption | with_reducible apply putVals_keeps | split | dsimp only | intro _ _ _ | intro _ _ | intro _
    | (with_reducible refine Keeps.mk_over ?_ rfl rfl rfl rfl rfl rfl)

theorem showFec_keeps {r : State} {p : Nat} {s : State} (hs : Keeps r s) :
    Keeps r (showFec p s) := by
  unfold showFec
  repeat' first
    | with_reducible assumption | with_reducible apply wrC_keeps | split | dsimp only | intro _ _ _ | intro _ _ | intro _
    | (with_reducible refine Keeps.mk_over ?_ rfl rfl rfl rfl rfl rfl)

theorem resolveAn_keeps {r : State} {p : Nat} {s : State} (hs : Keeps r s) :
    Keeps r (resolveAn p s) := by
  unfold resolveAn
  repeat' first
    | with_reducible assumption | with_reducible apply raiseC_keeps | with_reducible apply wrC_keeps
    | with_reducible apply foldOver_keeps | with_reducible apply setLane_keeps | with_reducible apply showFec_keeps | split
    | dsimp only | intro _ _ _ | intro _ _ | intro _ | (with_reducible refine Keeps.mk_over ?_ rfl rfl rfl rfl rfl rfl)

theorem anPage_keeps {r : State} {p : Nat} {page : Nat} {base : Bool} {s : State} (hs : Keeps r s) :
    Keeps r (anPage p page base s) := by
  unfold anPage
  repeat' first
    | with_reducible assumption | with_reducible apply wrC_keeps | with_reducible apply resolveAn_keeps
    | with_reducible apply foldl_keeps | split | dsimp only | intro _ _ _ | intro _ _ | intro _
    | (with_reducible refine Keeps.mk_over ?_ rfl rfl rfl rfl rfl rfl)

theorem c37Page_keeps {r : State} {p : Nat} {page : Nat} {s : State} (hs : Keeps r s) :
    Keeps r (c37Page p page s) := by
  unfold c37Page
  repeat' first
    | with_reducible assumption | split | dsimp only | intro _ _ _ | intro _ _ | intro _
    | (with_reducible refine Keeps.mk_over ?_ rfl rfl rfl rfl rfl rfl)

theorem execAnPageReceived_keeps {r : State} {p : Nat} {page : Nat} {base : Bool} {s : State} (hs : Keeps r s) :
    OutKeeps r (execAnPageReceived p page base s) := by
  unfold execAnPageReceived
  repeat' first
    | with_reducible assumption | with_reducible apply guarded_keeps | with_reducible apply OutKeeps.next
    | exact OutKeeps.refused _ | exact OutKeeps.fault _ | with_reducible apply onLane_keeps | with_reducible apply anPage_keeps
    | with_reducible apply c37Page_keeps | split | dsimp only | intro _ _ _ | intro _ _ | intro _
    | (with_reducible refine Keeps.mk_over ?_ rfl rfl rfl rfl rfl rfl)

theorem execAnNoHcdRestart_keeps {r : State} {p : Nat} {s : State} (hs : Keeps r s) :
    OutKeeps r (execAnNoHcdRestart p s) := by
  unfold execAnNoHcdRestart
  repeat' first
    | with_reducible assumption | with_reducible apply guarded_keeps | with_reducible apply OutKeeps.next
    | exact OutKeeps.refused _ | exact OutKeeps.fault _ | with_reducible apply onLane_keeps
    | with_reducible apply startLanes_keeps | with_reducible apply foldl_keeps | split | dsimp only | intro _ _ _ | intro _ _
    | intro _ | (with_reducible refine Keeps.mk_over ?_ rfl rfl rfl rfl rfl rfl)

theorem trainingComplete_keeps {r : State} {l : Nat} {reqs : List TapReq} {txPre : Bool} {s : State} (hs : Keeps r s) :
    Keeps r (trainingComplete l reqs txPre s) := by
  unfold trainingComplete
  repeat' first
    | with_reducible assumption | with_reducible apply foldOver_keeps | with_reducible apply tapRequest_keeps
    | with_reducible apply wrC_keeps | with_reducible apply refreshSynce_keeps | with_reducible apply raiseC_keeps
    | with_reducible apply setLane_keeps | with_reducible apply foldl_keeps | split | dsimp only | intro _ _ _ | intro _ _
    | intro _ | (with_reducible refine Keeps.mk_over ?_ rfl rfl rfl rfl rfl rfl)

theorem execTrainingComplete_keeps {r : State} {l : Nat} {reqs : List TapReq} {txPre : Bool} {s : State} (hs : Keeps r s) :
    OutKeeps r (execTrainingComplete l reqs txPre s) := by
  unfold execTrainingComplete
  repeat' first
    | with_reducible assumption | with_reducible apply guarded_keeps | with_reducible apply OutKeeps.next
    | exact OutKeeps.refused _ | exact OutKeeps.fault _ | with_reducible apply onLane_keeps
    | with_reducible apply trainingComplete_keeps | with_reducible apply foldl_keeps | split | dsimp only | intro _ _ _
    | intro _ _ | intro _ | (with_reducible refine Keeps.mk_over ?_ rfl rfl rfl rfl rfl rfl)

theorem trainingTimeout_keeps {r : State} {l : Nat} {s : State} (hs : Keeps r s) :
    Keeps r (trainingTimeout l s) := by
  unfold trainingTimeout
  repeat' first
    | with_reducible assumption | with_reducible apply foldOver_keeps | with_reducible apply holdLanes_keeps
    | with_reducible apply raiseC_keeps | with_reducible apply satX_keeps | with_reducible apply foldl_keeps | split
    | dsimp only | intro _ _ _ | intro _ _ | intro _ | (with_reducible refine Keeps.mk_over ?_ rfl rfl rfl rfl rfl rfl)

theorem execTrainingTimeout_keeps {r : State} {l : Nat} {s : State} (hs : Keeps r s) :
    OutKeeps r (execTrainingTimeout l s) := by
  unfold execTrainingTimeout
  repeat' first
    | with_reducible assumption | with_reducible apply guarded_keeps | with_reducible apply OutKeeps.next
    | exact OutKeeps.refused _ | exact OutKeeps.fault _ | with_reducible apply onLane_keeps
    | with_reducible apply trainingTimeout_keeps | with_reducible apply foldl_keeps | split | dsimp only | intro _ _ _
    | intro _ _ | intro _ | (with_reducible refine Keeps.mk_over ?_ rfl rfl rfl rfl rfl rfl)

theorem storeDelay_keeps {r : State} {l : Nat} {tx : Nat} {rx : Nat} {s : State} (hs : Keeps r s) :
    Keeps r (storeDelay l tx rx s) := by
  unfold storeDelay
  repeat' first
    | with_reducible assumption | with_reducible apply wrC_keeps | split | dsimp only | intro _ _ _ | intro _ _ | intro _
    | (with_reducible refine Keeps.mk_over ?_ rfl rfl rfl rfl rfl rfl)

theorem storeAdapt_keeps {r : State} {l : Nat} {a : AdaptResult} {s : State} (hs : Keeps r s) :
    Keeps r (storeAdapt l a s) := by
  unfold storeAdapt
  repeat' first
    | with_reducible assumption | with_reducible apply wrC_keeps | with_reducible apply storeDelay_keeps | split | dsimp only
    | intro _ _ _ | intro _ _ | intro _ | (with_reducible refine Keeps.mk_over ?_ rfl rfl rfl rfl rfl rfl)

theorem adaptComplete_keeps {r : State} {l : Nat} {rs : List AdaptResult} {s : State} (hs : Keeps r s) :
    Keeps r (adaptComplete l rs s) := by
  unfold adaptComplete
  repeat' first
    | with_reducible assumption | with_reducible apply foldOver_keeps | with_reducible apply refreshSynce_keeps
    | with_reducible apply raiseC_keeps | with_reducible apply setLane_keeps | with_reducible apply wrC_keeps
    | with_reducible apply storeAdapt_keeps | with_reducible apply foldl_keeps | split | dsimp only | intro _ _ _ | intro _ _
    | intro _ | (with_reducible refine Keeps.mk_over ?_ rfl rfl rfl rfl rfl rfl)

theorem execAdaptComplete_keeps {r : State} {l : Nat} {rs : List AdaptResult} {s : State} (hs : Keeps r s) :
    OutKeeps r (execAdaptComplete l rs s) := by
  unfold execAdaptComplete
  repeat' first
    | with_reducible assumption | with_reducible apply guarded_keeps | with_reducible apply OutKeeps.next
    | exact OutKeeps.refused _ | exact OutKeeps.fault _ | with_reducible apply onLane_keeps
    | with_reducible apply adaptComplete_keeps | with_reducible apply foldl_keeps | split | dsimp only | intro _ _ _ | intro _ _
    | intro _ | (with_reducible refine Keeps.mk_over ?_ rfl rfl rfl rfl rfl rfl)

theorem signalPresent_keeps {r : State} {l : Nat} {s : State} (hs : Keeps r s) :
    Keeps r (signalPresent l s) := by
  unfold signalPresent
  repeat' first
    | with_reducible assumption | with_reducible apply foldOver_keeps | with_reducible apply raiseC_keeps
    | with_reducible apply wrC_keeps | with_reducible apply setLane_keeps | with_reducible apply setTaps_keeps
    | with_reducible apply foldl_keeps | split | dsimp only | intro _ _ _ | intro _ _ | intro _
    | (with_reducible refine Keeps.mk_over ?_ rfl rfl rfl rfl rfl rfl)

theorem execSignalPresent_keeps {r : State} {l : Nat} {s : State} (hs : Keeps r s) :
    OutKeeps r (execSignalPresent l s) := by
  unfold execSignalPresent
  repeat' first
    | with_reducible assumption | with_reducible apply guarded_keeps | with_reducible apply OutKeeps.next
    | exact OutKeeps.refused _ | exact OutKeeps.fault _ | with_reducible apply onLane_keeps
    | with_reducible apply signalPresent_keeps | with_reducible apply foldl_keeps | split | dsimp only | intro _ _ _ | intro _ _
    | intro _ | (with_reducible refine Keeps.mk_over ?_ rfl rfl rfl rfl rfl rfl)

theorem signalLost_keeps {r : State} {l : Nat} {s : State} (hs : Keeps r s) :
    Keeps r (signalLost l s) := by
  unfold signalLost
  repeat' first
    | with_reducible assumption | with_reducible apply wrC_keeps | with_reducible apply dropLanes_keeps
    | with_reducible apply noteLinkLost_keeps | with_reducible apply raiseC_keeps | split | dsimp only | intro _ _ _ | intro _ _
    | intro _ | (with_reducible refine Keeps.mk_over ?_ rfl rfl rfl rfl rfl rfl)

theorem execSdGlitch_keeps {r : State} {l : Nat} {s : State} (hs : Keeps r s) :
    OutKeeps r (execSdGlitch l s) := by
  unfold execSdGlitch
  repeat' first
    | with_reducible assumption | with_reducible apply guarded_keeps | with_reducible apply OutKeeps.next
    | exact OutKeeps.refused _ | exact OutKeeps.fault _ | with_reducible apply onLane_keeps | with_reducible apply raiseC_keeps
    | with_reducible apply satX_keeps | with_reducible apply foldl_keeps | split | dsimp only | intro _ _ _ | intro _ _
    | intro _ | (with_reducible refine Keeps.mk_over ?_ rfl rfl rfl rfl rfl rfl)

theorem holddownExpire_keeps {r : State} {l : Nat} {s : State} (hs : Keeps r s) :
    Keeps r (holddownExpire l s) := by
  unfold holddownExpire
  repeat' first
    | with_reducible assumption | with_reducible apply foldOver_keeps | with_reducible apply refreshSynce_keeps
    | with_reducible apply enterSequence_keeps | with_reducible apply foldl_keeps | split | dsimp only | intro _ _ _ | intro _ _
    | intro _ | (with_reducible refine Keeps.mk_over ?_ rfl rfl rfl rfl rfl rfl)

theorem execHolddownExpire_keeps {r : State} {l : Nat} {s : State} (hs : Keeps r s) :
    OutKeeps r (execHolddownExpire l s) := by
  unfold execHolddownExpire
  repeat' first
    | with_reducible assumption | with_reducible apply guarded_keeps | with_reducible apply OutKeeps.next
    | exact OutKeeps.refused _ | exact OutKeeps.fault _ | with_reducible apply onLane_keeps
    | with_reducible apply holddownExpire_keeps | with_reducible apply foldl_keeps | split | dsimp only | intro _ _ _
    | intro _ _ | intro _ | (with_reducible refine Keeps.mk_over ?_ rfl rfl rfl rfl rfl rfl)

theorem execTieDetectWait_keeps {r : State} {l : Nat} {s : State} (hs : Keeps r s) :
    OutKeeps r (execTieDetectWait l s) := by
  unfold execTieDetectWait
  repeat' first
    | with_reducible assumption | with_reducible apply guarded_keeps | with_reducible apply OutKeeps.next
    | exact OutKeeps.refused _ | exact OutKeeps.fault _ | with_reducible apply onLane_keeps | with_reducible apply raiseC_keeps
    | with_reducible apply foldl_keeps | split | dsimp only | intro _ _ _ | intro _ _ | intro _
    | (with_reducible refine Keeps.mk_over ?_ rfl rfl rfl rfl rfl rfl)

theorem commaLock_keeps {r : State} {l : Nat} {offset : Nat} {lock : LaneLock} {s : State} (hs : Keeps r s) :
    Keeps r (commaLock l offset lock s) := by
  unfold commaLock
  repeat' first
    | with_reducible assumption | with_reducible apply raiseC_keeps | with_reducible apply wrC_keeps
    | with_reducible apply storeAdapt_keeps | with_reducible apply dropLanes_keeps | with_reducible apply tieLanesAligned_keeps
    | with_reducible apply foldOver_keeps | with_reducible apply setLane_keeps | split | dsimp only | intro _ _ _ | intro _ _
    | intro _ | (with_reducible refine Keeps.mk_over ?_ rfl rfl rfl rfl rfl rfl)

theorem execCommaLock_keeps {r : State} {l : Nat} {offset : Nat} {lock : LaneLock} {s : State} (hs : Keeps r s) :
    OutKeeps r (execCommaLock l offset lock s) := by
  unfold execCommaLock
  repeat' first
    | with_reducible assumption | with_reducible apply guarded_keeps | with_reducible apply OutKeeps.next
    | exact OutKeeps.refused _ | exact OutKeeps.fault _ | with_reducible apply onLane_keeps
    | with_reducible apply commaLock_keeps | split | dsimp only | intro _ _ _ | intro _ _ | intro _
    | (with_reducible refine Keeps.mk_over ?_ rfl rfl rfl rfl rfl rfl)

theorem execCommaError_keeps {r : State} {l : Nat} {s : State} (hs : Keeps r s) :
    OutKeeps r (execCommaError l s) := by
  unfold execCommaError
  repeat' first
    | with_reducible assumption | with_reducible apply guarded_keeps | with_reducible apply OutKeeps.next
    | exact OutKeeps.refused _ | exact OutKeeps.fault _ | with_reducible apply onLane_keeps | with_reducible apply satX_keeps
    | with_reducible apply foldl_keeps | split | dsimp only | intro _ _ _ | intro _ _ | intro _
    | (with_reducible refine Keeps.mk_over ?_ rfl rfl rfl rfl rfl rfl)

theorem commaLockLost_keeps {r : State} {l : Nat} {s : State} (hs : Keeps r s) :
    Keeps r (commaLockLost l s) := by
  unfold commaLockLost
  repeat' first
    | with_reducible assumption | with_reducible apply foldOver_keeps | with_reducible apply raiseC_keeps
    | with_reducible apply wrC_keeps | with_reducible apply tieLinkDown_keeps | with_reducible apply setLane_keeps
    | with_reducible apply foldl_keeps | split | dsimp only | intro _ _ _ | intro _ _ | intro _
    | (with_reducible refine Keeps.mk_over ?_ rfl rfl rfl rfl rfl rfl)

theorem execCommaLockLost_keeps {r : State} {l : Nat} {s : State} (hs : Keeps r s) :
    OutKeeps r (execCommaLockLost l s) := by
  unfold execCommaLockLost
  repeat' first
    | with_reducible assumption | with_reducible apply guarded_keeps | with_reducible apply OutKeeps.next
    | exact OutKeeps.refused _ | exact OutKeeps.fault _ | with_reducible apply onLane_keeps
    | with_reducible apply commaLockLost_keeps | with_reducible apply foldl_keeps | split | dsimp only | intro _ _ _ | intro _ _
    | intro _ | (with_reducible refine Keeps.mk_over ?_ rfl rfl rfl rfl rfl rfl)

theorem commaRelockTimeout_keeps {r : State} {l : Nat} {s : State} (hs : Keeps r s) :
    Keeps r (commaRelockTimeout l s) := by
  unfold commaRelockTimeout
  repeat' first
    | with_reducible assumption | with_reducible apply foldOver_keeps | with_reducible apply holdLanes_keeps
    | with_reducible apply raiseC_keeps | with_reducible apply satX_keeps | with_reducible apply foldl_keeps | split
    | dsimp only | intro _ _ _ | intro _ _ | intro _ | (with_reducible refine Keeps.mk_over ?_ rfl rfl rfl rfl rfl rfl)

theorem execCommaRelockTimeout_keeps {r : State} {l : Nat} {s : State} (hs : Keeps r s) :
    OutKeeps r (execCommaRelockTimeout l s) := by
  unfold execCommaRelockTimeout
  repeat' first
    | with_reducible assumption | with_reducible apply guarded_keeps | with_reducible apply OutKeeps.next
    | exact OutKeeps.refused _ | exact OutKeeps.fault _ | with_reducible apply onLane_keeps
    | with_reducible apply commaRelockTimeout_keeps | with_reducible apply foldl_keeps | split | dsimp only | intro _ _ _
    | intro _ _ | intro _ | (with_reducible refine Keeps.mk_over ?_ rfl rfl rfl rfl rfl rfl)

theorem backgroundAdapt_keeps {r : State} {l : Nat} {ctle : StepDir} {dfe : StepDir} {snr : Nat} {s : State} (hs : Keeps r s) :
    Keeps r (backgroundAdapt l ctle dfe snr s) := by
  unfold backgroundAdapt
  repeat' first
    | with_reducible assumption | with_reducible apply wrC_keeps | with_reducible apply incX_keeps
    | with_reducible apply foldl_keeps | split | dsimp only | intro _ _ _ | intro _ _ | intro _
    | (with_reducible refine Keeps.mk_over ?_ rfl rfl rfl rfl rfl rfl)

theorem execBackgroundAdapt_keeps {r : State} {l : Nat} {ctle : StepDir} {dfe : StepDir} {snr : Nat} {s : State} (hs : Keeps r s) :
    OutKeeps r (execBackgroundAdapt l ctle dfe snr s) := by
  unfold execBackgroundAdapt
  repeat' first
    | with_reducible assumption | with_reducible apply guarded_keeps | with_reducible apply OutKeeps.next
    | exact OutKeeps.refused _ | exact OutKeeps.fault _ | with_reducible apply onLane_keeps
    | with_reducible apply backgroundAdapt_keeps | with_reducible apply foldl_keeps | split | dsimp only | intro _ _ _
    | intro _ _ | intro _ | (with_reducible refine Keeps.mk_over ?_ rfl rfl rfl rfl rfl rfl)

theorem execAdaptLimit_keeps {r : State} {l : Nat} {s : State} (hs : Keeps r s) :
    OutKeeps r (execAdaptLimit l s) := by
  unfold execAdaptLimit
  repeat' first
    | with_reducible assumption | with_reducible apply guarded_keeps | with_reducible apply OutKeeps.next
    | exact OutKeeps.refused _ | exact OutKeeps.fault _ | with_reducible apply onLane_keeps | with_reducible apply raiseC_keeps
    | with_reducible apply foldl_keeps | split | dsimp only | intro _ _ _ | intro _ _ | intro _
    | (with_reducible refine Keeps.mk_over ?_ rfl rfl rfl rfl rfl rfl)

theorem execSnrLow_keeps {r : State} {l : Nat} {s : State} (hs : Keeps r s) :
    OutKeeps r (execSnrLow l s) := by
  unfold execSnrLow
  repeat' first
    | with_reducible assumption | with_reducible apply guarded_keeps | with_reducible apply OutKeeps.next
    | exact OutKeeps.refused _ | exact OutKeeps.fault _ | with_reducible apply onLane_keeps | with_reducible apply raiseC_keeps
    | with_reducible apply foldl_keeps | split | dsimp only | intro _ _ _ | intro _ _ | intro _
    | (with_reducible refine Keeps.mk_over ?_ rfl rfl rfl rfl rfl rfl)

theorem calLane_keeps {r : State} {l : Nat} {inRange : Bool} {s : State} (hs : Keeps r s) :
    Keeps r (calLane l inRange s) := by
  unfold calLane
  repeat' first
    | with_reducible assumption | with_reducible apply raiseC_keeps | with_reducible apply foldl_keeps | split | dsimp only
    | intro _ _ _ | intro _ _ | intro _ | (with_reducible refine Keeps.mk_over ?_ rfl rfl rfl rfl rfl rfl)

theorem calVisit_keeps {r : State} {c : Nat} {inRange : Bool} {s : State} (hs : Keeps r s) :
    Keeps r (calVisit c inRange s) := by
  unfold calVisit
  repeat' first
    | with_reducible assumption | with_reducible apply calLane_keeps | with_reducible apply incX_keeps
    | with_reducible apply foldl_keeps | split | dsimp only | intro _ _ _ | intro _ _ | intro _
    | (with_reducible refine Keeps.mk_over ?_ rfl rfl rfl rfl rfl rfl)

theorem execCalVisit_keeps {r : State} {c : Nat} {inRange : Bool} {s : State} (hs : Keeps r s) :
    OutKeeps r (execCalVisit c inRange s) := by
  unfold execCalVisit
  repeat' first
    | with_reducible assumption | with_reducible apply guarded_keeps | with_reducible apply OutKeeps.next
    | exact OutKeeps.refused _ | exact OutKeeps.fault _ | with_reducible apply onlyIf_keeps
    | with_reducible apply calVisit_keeps | with_reducible apply foldl_keeps | split | dsimp only | intro _ _ _ | intro _ _
    | intro _ | (with_reducible refine Keeps.mk_over ?_ rfl rfl rfl rfl rfl rfl)

theorem txEqStep_keeps {r : State} {l : Nat} {s : State} (hs : Keeps r s) :
    Keeps r (txEqStep l s) := by
  unfold txEqStep
  repeat' first
    | with_reducible assumption | with_reducible apply setTaps_keeps | with_reducible apply wrC_keeps
    | with_reducible apply foldl_keeps | split | dsimp only | intro _ _ _ | intro _ _ | intro _
    | (with_reducible refine Keeps.mk_over ?_ rfl rfl rfl rfl rfl rfl)

theorem execTxEqStep_keeps {r : State} {l : Nat} {s : State} (hs : Keeps r s) :
    OutKeeps r (execTxEqStep l s) := by
  unfold execTxEqStep
  repeat' first
    | with_reducible assumption | with_reducible apply guarded_keeps | with_reducible apply OutKeeps.next
    | exact OutKeeps.refused _ | exact OutKeeps.fault _ | with_reducible apply onlyIf_keeps
    | with_reducible apply txEqStep_keeps | with_reducible apply foldl_keeps | split | dsimp only | intro _ _ _ | intro _ _
    | intro _ | (with_reducible refine Keeps.mk_over ?_ rfl rfl rfl rfl rfl rfl)

theorem execPatLock_keeps {r : State} {l : Nat} {s : State} (hs : Keeps r s) :
    OutKeeps r (execPatLock l s) := by
  unfold execPatLock
  repeat' first
    | with_reducible assumption | with_reducible apply guarded_keeps | with_reducible apply OutKeeps.next
    | exact OutKeeps.refused _ | exact OutKeeps.fault _ | with_reducible apply onLane_keeps | with_reducible apply raiseC_keeps
    | with_reducible apply wrC_keeps | with_reducible apply foldl_keeps | split | dsimp only | intro _ _ _ | intro _ _ | intro _
    | (with_reducible refine Keeps.mk_over ?_ rfl rfl rfl rfl rfl rfl)

theorem execPatLockLost_keeps {r : State} {l : Nat} {s : State} (hs : Keeps r s) :
    OutKeeps r (execPatLockLost l s) := by
  unfold execPatLockLost
  repeat' first
    | with_reducible assumption | with_reducible apply guarded_keeps | with_reducible apply OutKeeps.next
    | exact OutKeeps.refused _ | exact OutKeeps.fault _ | with_reducible apply onLane_keeps | with_reducible apply raiseC_keeps
    | with_reducible apply wrC_keeps | with_reducible apply foldl_keeps | split | dsimp only | intro _ _ _ | intro _ _ | intro _
    | (with_reducible refine Keeps.mk_over ?_ rfl rfl rfl rfl rfl rfl)

theorem patCount_keeps {r : State} {l : Nat} {errs : Nat} {bits : Nat} {s : State} (hs : Keeps r s) :
    Keeps r (patCount l errs bits s) := by
  unfold patCount
  repeat' first
    | with_reducible assumption | with_reducible apply addCtr_keeps | with_reducible apply raiseC_keeps
    | with_reducible apply foldl_keeps | split | dsimp only | intro _ _ _ | intro _ _ | intro _ | (refine Keeps.fst ?_ ‹_›)
    | (with_reducible refine Keeps.mk_over ?_ rfl rfl rfl rfl rfl rfl)

theorem execPatWrap_keeps {r : State} {l : Nat} {errs : Nat} {bits : Nat} {s : State} (hs : Keeps r s) :
    OutKeeps r (execPatWrap l errs bits s) := by
  unfold execPatWrap
  repeat' first
    | with_reducible assumption | with_reducible apply guarded_keeps | with_reducible apply OutKeeps.next
    | exact OutKeeps.refused _ | exact OutKeeps.fault _ | with_reducible apply onLane_keeps
    | with_reducible apply patCount_keeps | with_reducible apply foldl_keeps | split | dsimp only | intro _ _ _ | intro _ _
    | intro _ | (with_reducible refine Keeps.mk_over ?_ rfl rfl rfl rfl rfl rfl)

theorem patCtlWrite_keeps {r : State} {l : Nat} {v : Word} {s : State} (hs : Keeps r s) :
    Keeps r (patCtlWrite l v s) := by
  unfold patCtlWrite
  repeat' first
    | with_reducible assumption | with_reducible apply storeFields_keeps | with_reducible apply putCtr_keeps | split
    | dsimp only | intro _ _ _ | intro _ _ | intro _ | (with_reducible refine Keeps.mk_over ?_ rfl rfl rfl rfl rfl rfl)

theorem execPatInject_keeps {r : State} {w : Window} {v : Word} {s : State} (hs : Keeps r s) :
    OutKeeps r (execPatInject w v s) := by
  unfold execPatInject
  repeat' first
    | with_reducible assumption | with_reducible apply guarded_keeps | with_reducible apply OutKeeps.next
    | exact OutKeeps.refused _ | exact OutKeeps.fault _ | with_reducible apply writingC_keeps
    | with_reducible apply patCtlWrite_keeps | with_reducible apply foldl_keeps | split | dsimp only | intro _ _ _ | intro _ _
    | intro _ | (with_reducible refine Keeps.mk_over ?_ rfl rfl rfl rfl rfl rfl)

theorem execPatClear_keeps {r : State} {w : Window} {v : Word} {s : State} (hs : Keeps r s) :
    OutKeeps r (execPatClear w v s) := by
  unfold execPatClear
  repeat' first
    | with_reducible assumption | with_reducible apply guarded_keeps | with_reducible apply OutKeeps.next
    | exact OutKeeps.refused _ | exact OutKeeps.fault _ | with_reducible apply writingC_keeps
    | with_reducible apply patCtlWrite_keeps | with_reducible apply foldl_keeps | split | dsimp only | intro _ _ _ | intro _ _
    | intro _ | (with_reducible refine Keeps.mk_over ?_ rfl rfl rfl rfl rfl rfl)

theorem eyeCtlWrite_keeps {r : State} {w : Window} {l : Nat} {v : Word} {s : State} (hs : Keeps r s) :
    Keeps r (eyeCtlWrite w l v s) := by
  unfold eyeCtlWrite
  repeat' first
    | with_reducible assumption | with_reducible apply accessError_keeps | with_reducible apply storeFields_keeps
    | with_reducible apply wrC_keeps | with_reducible apply foldl_keeps | split | dsimp only | intro _ _ _ | intro _ _ | intro _
    | (with_reducible refine Keeps.mk_over ?_ rfl rfl rfl rfl rfl rfl)

theorem execEyeStart_keeps {r : State} {w : Window} {v : Word} {s : State} (hs : Keeps r s) :
    OutKeeps r (execEyeStart w v s) := by
  unfold execEyeStart
  repeat' first
    | with_reducible assumption | with_reducible apply guarded_keeps | with_reducible apply OutKeeps.next
    | exact OutKeeps.refused _ | exact OutKeeps.fault _ | with_reducible apply writingC_keeps
    | with_reducible apply eyeCtlWrite_keeps | with_reducible apply foldl_keeps | split | dsimp only | intro _ _ _ | intro _ _
    | intro _ | (with_reducible refine Keeps.mk_over ?_ rfl rfl rfl rfl rfl rfl)

theorem eyeDone_keeps {r : State} {l : Nat} {vert : Nat} {horz : Nat} {s : State} (hs : Keeps r s) :
    Keeps r (eyeDone l vert horz s) := by
  unfold eyeDone
  repeat' first
    | with_reducible assumption | with_reducible apply wrC_keeps | with_reducible apply raiseC_keeps
    | with_reducible apply foldl_keeps | split | dsimp only | intro _ _ _ | intro _ _ | intro _
    | (with_reducible refine Keeps.mk_over ?_ rfl rfl rfl rfl rfl rfl)

theorem execEyeDone_keeps {r : State} {l : Nat} {vert : Nat} {horz : Nat} {s : State} (hs : Keeps r s) :
    OutKeeps r (execEyeDone l vert horz s) := by
  unfold execEyeDone
  repeat' first
    | with_reducible assumption | with_reducible apply guarded_keeps | with_reducible apply OutKeeps.next
    | exact OutKeeps.refused _ | exact OutKeeps.fault _ | with_reducible apply onlyIf_keeps | with_reducible apply eyeDone_keeps
    | with_reducible apply foldl_keeps | split | dsimp only | intro _ _ _ | intro _ _ | intro _
    | (with_reducible refine Keeps.mk_over ?_ rfl rfl rfl rfl rfl rfl)

end Sys2Proof.Machine
end

