-- ==== Sys2Proof/Laws/TimeKeeps.lean ====
section
/-! SUPPORT. Every operation of Machine/Time.lean keeps what `Keeps` speaks of. -/

-- The alternatives of each proof's `first` are the same list; not every alternative is used in every proof.
set_option linter.unreachableTactic false
set_option linter.unusedTactic false

namespace Sys2Proof.Machine

theorem idleTick_keeps {r : State} {s : State} (hs : Keeps r s) :
    Keeps r (idleTick s) := by
  unfold idleTick
  repeat' first
    | with_reducible assumption | split | dsimp only | (with_reducible refine Keeps.mk_over ?_ rfl rfl rfl rfl rfl rfl)

theorem idle_keeps {r : State} {s : State} (hs : Keeps r s) :
    Keeps r (idle s) := by
  unfold idle
  repeat' first
    | with_reducible assumption | with_reducible apply idleTick_keeps | split | dsimp only
    | (with_reducible refine Keeps.mk_over ?_ rfl rfl rfl rfl rfl rfl)

theorem timeSnapshot_keeps {r : State} {w : Window} {s : State} (hs : Keeps r s) :
    Keeps r (timeSnapshot w s) := by
  unfold timeSnapshot
  repeat' first
    | with_reducible assumption | with_reducible apply putRead_keeps | with_reducible apply wrC_keeps | split | dsimp only
    | (with_reducible refine Keeps.mk_over ?_ rfl rfl rfl rfl rfl rfl)

theorem execTimeSnapshotRead_keeps {r : State} {w : Window} {s : State} (hs : Keeps r s) :
    OutKeeps r (execTimeSnapshotRead w s) := by
  unfold execTimeSnapshotRead
  repeat' first
    | with_reducible assumption | with_reducible apply guarded_keeps | with_reducible apply OutKeeps.next
    | exact OutKeeps.refused _ | exact OutKeeps.fault _ | with_reducible apply reading_keeps
    | with_reducible apply timeSnapshot_keeps | split | dsimp only | intro _ _ _ | intro _ _ | intro _
    | (with_reducible refine Keeps.mk_over ?_ rfl rfl rfl rfl rfl rfl)

theorem setRate_keeps {r : State} {a : Int} {s : State} (hs : Keeps r s) :
    Keeps r (setRate a s) := by
  unfold setRate
  repeat' first
    | with_reducible assumption | split | dsimp only | intro _ _ _ | intro _ _ | intro _
    | (with_reducible refine Keeps.mk_over ?_ rfl rfl rfl rfl rfl rfl)

theorem rateWrite_keeps {r : State} {w : Window} {v : Word} {s : State} (hs : Keeps r s) :
    Keeps r (rateWrite w v s) := by
  unfold rateWrite
  repeat' first
    | with_reducible assumption | with_reducible apply accessError_keeps | with_reducible apply setRate_keeps | split
    | dsimp only | (with_reducible refine Keeps.mk_over ?_ rfl rfl rfl rfl rfl rfl)

theorem execRateWrite_keeps {r : State} {w : Window} {v : Word} {s : State} (hs : Keeps r s) :
    OutKeeps r (execRateWrite w v s) := by
  unfold execRateWrite
  repeat' first
    | with_reducible assumption | with_reducible apply guarded_keeps | with_reducible apply OutKeeps.next
    | exact OutKeeps.refused _ | exact OutKeeps.fault _ | with_reducible apply writing_keeps
    | with_reducible apply rateWrite_keeps | split | dsimp only | intro _ _ _ | intro _ _ | intro _
    | (with_reducible refine Keeps.mk_over ?_ rfl rfl rfl rfl rfl rfl)

theorem putTrig_keeps {r : State} {k : Nat} {x : Trig} {s : State} (hs : Keeps r s) :
    Keeps r (putTrig k x s) := by
  unfold putTrig
  repeat' first
    | with_reducible assumption | split | dsimp only | (with_reducible refine Keeps.mk_over ?_ rfl rfl rfl rfl rfl rfl)

theorem trigFire_keeps {r : State} {k : Nat} {late : Bool} {s : State} (hs : Keeps r s) :
    Keeps r (trigFire k late s) := by
  unfold trigFire
  repeat' first
    | with_reducible assumption | with_reducible apply putTrig_keeps | with_reducible apply incX_keeps
    | with_reducible apply wrC_keeps | with_reducible apply raiseC_keeps | split | dsimp only | intro _ _ _ | intro _ _
    | intro _ | (with_reducible refine Keeps.mk_over ?_ rfl rfl rfl rfl rfl rfl)

theorem trigArm_keeps {r : State} {k : Nat} {s : State} (hs : Keeps r s) :
    Keeps r (trigArm k s) := by
  unfold trigArm
  repeat' first
    | with_reducible assumption | with_reducible apply wrC_keeps | with_reducible apply putTrig_keeps
    | with_reducible apply trigFire_keeps | split | dsimp only | intro _ _ _ | intro _ _ | intro _
    | (with_reducible refine Keeps.mk_over ?_ rfl rfl rfl rfl rfl rfl)

theorem trigCtlWrite_keeps {r : State} {k : Nat} {v : Word} {s : State} (hs : Keeps r s) :
    Keeps r (trigCtlWrite k v s) := by
  unfold trigCtlWrite
  repeat' first
    | with_reducible assumption | with_reducible apply wrC_keeps | with_reducible apply trigArm_keeps | split | dsimp only
    | (with_reducible refine Keeps.mk_over ?_ rfl rfl rfl rfl rfl rfl)

theorem trigWrite_keeps {r : State} {w : Window} {f : Nat → State → State} {s : State} (hf : ∀ x0 x1, Keeps r x1 → Keeps r (f x0 x1)) (hs : Keeps r s) :
    Keeps r (trigWrite w f s) := by
  unfold trigWrite
  repeat' first
    | with_reducible assumption | with_reducible apply hf | with_reducible apply writingC_keeps | split | dsimp only
    | intro _ _ _ | intro _ _ | intro _ | (with_reducible refine Keeps.mk_over ?_ rfl rfl rfl rfl rfl rfl)

theorem execTrigArm_keeps {r : State} {w : Window} {v : Word} {s : State} (hs : Keeps r s) :
    OutKeeps r (execTrigArm w v s) := by
  unfold execTrigArm
  repeat' first
    | with_reducible assumption | with_reducible apply guarded_keeps | with_reducible apply OutKeeps.next
    | exact OutKeeps.refused _ | exact OutKeeps.fault _ | with_reducible apply trigWrite_keeps
    | with_reducible apply trigCtlWrite_keeps | split | dsimp only | intro _ _ _ | intro _ _ | intro _
    | (with_reducible refine Keeps.mk_over ?_ rfl rfl rfl rfl rfl rfl)

theorem execTrigDisarm_keeps {r : State} {w : Window} {v : Word} {s : State} (hs : Keeps r s) :
    OutKeeps r (execTrigDisarm w v s) := by
  unfold execTrigDisarm
  repeat' first
    | with_reducible assumption | with_reducible apply guarded_keeps | with_reducible apply OutKeeps.next
    | exact OutKeeps.refused _ | exact OutKeeps.fault _ | with_reducible apply trigWrite_keeps
    | with_reducible apply trigCtlWrite_keeps | split | dsimp only | intro _ _ _ | intro _ _ | intro _
    | (with_reducible refine Keeps.mk_over ?_ rfl rfl rfl rfl rfl rfl)

theorem trigOn_keeps {r : State} {k : Nat} {s : State} (hs : Keeps r s) :
    Keeps r (trigOn k s) := by
  unfold trigOn
  repeat' first
    | with_reducible assumption | with_reducible apply trigFire_keeps | with_reducible apply putTrig_keeps | split | dsimp only
    | intro _ _ _ | intro _ _ | intro _ | (with_reducible refine Keeps.mk_over ?_ rfl rfl rfl rfl rfl rfl)

theorem execTriggerFire_keeps {r : State} {k : Nat} {s : State} (hs : Keeps r s) :
    OutKeeps r (execTriggerFire k s) := by
  unfold execTriggerFire
  repeat' first
    | with_reducible assumption | with_reducible apply guarded_keeps | with_reducible apply OutKeeps.next
    | exact OutKeeps.refused _ | exact OutKeeps.fault _ | with_reducible apply onlyIf_keeps
    | with_reducible apply trigFire_keeps | split | dsimp only | intro _ _ _ | intro _ _ | intro _
    | (with_reducible refine Keeps.mk_over ?_ rfl rfl rfl rfl rfl rfl)

theorem execTriggerPulseEnd_keeps {r : State} {k : Nat} {s : State} (hs : Keeps r s) :
    OutKeeps r (execTriggerPulseEnd k s) := by
  unfold execTriggerPulseEnd
  repeat' first
    | with_reducible assumption | with_reducible apply guarded_keeps | with_reducible apply OutKeeps.next
    | exact OutKeeps.refused _ | exact OutKeeps.fault _ | with_reducible apply onlyIf_keeps | with_reducible apply putTrig_keeps
    | split | dsimp only | intro _ _ _ | intro _ _ | intro _ | (with_reducible refine Keeps.mk_over ?_ rfl rfl rfl rfl rfl rfl)

theorem trigStep_keeps {r : State} {old : Nat} {new : Nat} {k : Nat} {s : State} (hs : Keeps r s) :
    Keeps r (trigStep old new k s) := by
  unfold trigStep
  repeat' first
    | with_reducible assumption | with_reducible apply trigFire_keeps | with_reducible apply putTrig_keeps
    | with_reducible apply raiseC_keeps | with_reducible apply satX_keeps | split | dsimp only | intro _ _ _ | intro _ _
    | intro _ | (with_reducible refine Keeps.mk_over ?_ rfl rfl rfl rfl rfl rfl)

theorem commitStep_keeps {r : State} {old : Nat} {new : Nat} {b : Block} {s : State} (hs : Keeps r s) :
    Keeps r (commitStep old new b s) := by
  unfold commitStep
  repeat' first
    | with_reducible assumption | with_reducible apply putCommit_keeps | split | dsimp only
    | (with_reducible refine Keeps.mk_over ?_ rfl rfl rfl rfl rfl rfl)

theorem afterStep_keeps {r : State} {old : Nat} {ep : Nat} {new : Nat} {s : State} (hs : Keeps r s) :
    Keeps r (afterStep old ep new s) := by
  unfold afterStep
  repeat' first
    | with_reducible assumption | with_reducible apply raise_keeps | with_reducible apply writeRec_keeps
    | with_reducible apply foldOver_keeps | with_reducible apply trigStep_keeps | with_reducible apply commitStep_keeps
    | with_reducible apply gateStep_keeps | split | dsimp only | intro _ _ _ | intro _ _ | intro _
    | (with_reducible refine Keeps.mk_over ?_ rfl rfl rfl rfl rfl rfl)

theorem stepTime_keeps {r : State} {new0 : Int} {s : State} (hs : Keeps r s) :
    Keeps r (stepTime new0 s) := by
  unfold stepTime
  repeat' first
    | with_reducible assumption | with_reducible apply afterStep_keeps | split | dsimp only | intro _ _ _ | intro _ _ | intro _
    | (with_reducible refine Keeps.mk_over ?_ rfl rfl rfl rfl rfl rfl)

theorem stepCtlWrite_keeps {r : State} {w : Window} {v : Word} {s : State} (hs : Keeps r s) :
    Keeps r (stepCtlWrite w v s) := by
  unfold stepCtlWrite
  repeat' first
    | with_reducible assumption | with_reducible apply wrC_keeps | with_reducible apply stepTime_keeps | split | dsimp only
    | (with_reducible refine Keeps.mk_over ?_ rfl rfl rfl rfl rfl rfl)

theorem execStepGo_keeps {r : State} {w : Window} {v : Word} {s : State} (hs : Keeps r s) :
    OutKeeps r (execStepGo w v s) := by
  unfold execStepGo
  repeat' first
    | with_reducible assumption | with_reducible apply guarded_keeps | with_reducible apply OutKeeps.next
    | exact OutKeeps.refused _ | exact OutKeeps.fault _ | with_reducible apply writing_keeps
    | with_reducible apply stepCtlWrite_keeps | split | dsimp only | intro _ _ _ | intro _ _ | intro _
    | (with_reducible refine Keeps.mk_over ?_ rfl rfl rfl rfl rfl rfl)

theorem servoUnlock_keeps {r : State} {s : State} (hs : Keeps r s) :
    Keeps r (servoUnlock s) := by
  unfold servoUnlock
  repeat' first
    | with_reducible assumption | with_reducible apply raise_keeps | with_reducible apply wr_keeps | split | dsimp only
    | (with_reducible refine Keeps.mk_over ?_ rfl rfl rfl rfl rfl rfl)

theorem servoSample_keeps {r : State} {x : Int} {s : State} (hs : Keeps r s) :
    Keeps r (servoSample x s) := by
  unfold servoSample
  repeat' first
    | with_reducible assumption | with_reducible apply wr_keeps | with_reducible apply incX_keeps
    | with_reducible apply stepTime_keeps | with_reducible apply servoUnlock_keeps | with_reducible apply setRate_keeps
    | with_reducible apply raise_keeps | split | dsimp only | intro _ _ _ | intro _ _ | intro _
    | (with_reducible refine Keeps.mk_over ?_ rfl rfl rfl rfl rfl rfl)

theorem servoSampleWrite_keeps {r : State} {w : Window} {v : Word} {s : State} (hs : Keeps r s) :
    Keeps r (servoSampleWrite w v s) := by
  unfold servoSampleWrite
  repeat' first
    | with_reducible assumption | with_reducible apply wrC_keeps | with_reducible apply servoSample_keeps
    | with_reducible apply raise_keeps | split | dsimp only | (with_reducible refine Keeps.mk_over ?_ rfl rfl rfl rfl rfl rfl)

theorem execServoSample_keeps {r : State} {w : Window} {v : Word} {s : State} (hs : Keeps r s) :
    OutKeeps r (execServoSample w v s) := by
  unfold execServoSample
  repeat' first
    | with_reducible assumption | with_reducible apply guarded_keeps | with_reducible apply OutKeeps.next
    | exact OutKeeps.refused _ | exact OutKeeps.fault _ | with_reducible apply writing_keeps
    | with_reducible apply servoSampleWrite_keeps | split | dsimp only | intro _ _ _ | intro _ _ | intro _
    | (with_reducible refine Keeps.mk_over ?_ rfl rfl rfl rfl rfl rfl)

theorem servoHoldover_keeps {r : State} {s : State} (hs : Keeps r s) :
    Keeps r (servoHoldover s) := by
  unfold servoHoldover
  repeat' first
    | with_reducible assumption | with_reducible apply raise_keeps | with_reducible apply wr_keeps
    | with_reducible apply setRate_keeps | split | dsimp only | (with_reducible refine Keeps.mk_over ?_ rfl rfl rfl rfl rfl rfl)

theorem execServoHoldover_keeps {r : State} {s : State} (hs : Keeps r s) :
    OutKeeps r (execServoHoldover s) := by
  unfold execServoHoldover
  repeat' first
    | with_reducible assumption | with_reducible apply guarded_keeps | with_reducible apply OutKeeps.next
    | exact OutKeeps.refused _ | exact OutKeeps.fault _ | with_reducible apply onlyIf_keeps
    | with_reducible apply servoHoldover_keeps | split | dsimp only | intro _ _ _ | intro _ _ | intro _
    | (with_reducible refine Keeps.mk_over ?_ rfl rfl rfl rfl rfl rfl)

theorem execTimeRefLost_keeps {r : State} {s : State} (hs : Keeps r s) :
    OutKeeps r (execTimeRefLost s) := by
  unfold execTimeRefLost
  repeat' first
    | with_reducible assumption | with_reducible apply guarded_keeps | with_reducible apply OutKeeps.next
    | exact OutKeeps.refused _ | exact OutKeeps.fault _ | with_reducible apply wr_keeps | with_reducible apply raise_keeps
    | split | dsimp only | (with_reducible refine Keeps.mk_over ?_ rfl rfl rfl rfl rfl rfl)

theorem timeRefRestored_keeps {r : State} {s : State} (hs : Keeps r s) :
    Keeps r (timeRefRestored s) := by
  unfold timeRefRestored
  repeat' first
    | with_reducible assumption | with_reducible apply wr_keeps | with_reducible apply raise_keeps | split | dsimp only
    | (with_reducible refine Keeps.mk_over ?_ rfl rfl rfl rfl rfl rfl)

theorem execTimeRefRestored_keeps {r : State} {s : State} (hs : Keeps r s) :
    OutKeeps r (execTimeRefRestored s) := by
  unfold execTimeRefRestored
  repeat' first
    | with_reducible assumption | with_reducible apply guarded_keeps | with_reducible apply OutKeeps.next
    | exact OutKeeps.refused _ | exact OutKeeps.fault _ | with_reducible apply onlyIf_keeps
    | with_reducible apply timeRefRestored_keeps | split | dsimp only | intro _ _ _ | intro _ _ | intro _
    | (with_reducible refine Keeps.mk_over ?_ rfl rfl rfl rfl rfl rfl)

theorem execRefRatioMeasure_keeps {r : State} {ratio : Nat} {s : State} (hs : Keeps r s) :
    OutKeeps r (execRefRatioMeasure ratio s) := by
  unfold execRefRatioMeasure
  repeat' first
    | with_reducible assumption | with_reducible apply guarded_keeps | with_reducible apply OutKeeps.next
    | exact OutKeeps.refused _ | exact OutKeeps.fault _ | with_reducible apply onlyIf_keeps | split | dsimp only | intro _ _ _
    | intro _ _ | intro _ | (with_reducible refine Keeps.mk_over ?_ rfl rfl rfl rfl rfl rfl)

theorem ppsRise_keeps {r : State} {s : State} (hs : Keeps r s) :
    Keeps r (ppsRise s) := by
  unfold ppsRise
  repeat' first
    | with_reducible assumption | split | dsimp only | intro _ _ _ | intro _ _ | intro _
    | (with_reducible refine Keeps.mk_over ?_ rfl rfl rfl rfl rfl rfl)

theorem execPpsOutRise_keeps {r : State} {s : State} (hs : Keeps r s) :
    OutKeeps r (execPpsOutRise s) := by
  unfold execPpsOutRise
  repeat' first
    | with_reducible assumption | with_reducible apply guarded_keeps | with_reducible apply OutKeeps.next
    | exact OutKeeps.refused _ | exact OutKeeps.fault _ | with_reducible apply onlyIf_keeps | with_reducible apply ppsRise_keeps
    | split | dsimp only | intro _ _ _ | intro _ _ | intro _ | (with_reducible refine Keeps.mk_over ?_ rfl rfl rfl rfl rfl rfl)

theorem execPpsOutFall_keeps {r : State} {s : State} (hs : Keeps r s) :
    OutKeeps r (execPpsOutFall s) := by
  unfold execPpsOutFall
  repeat' first
    | with_reducible assumption | with_reducible apply guarded_keeps | with_reducible apply OutKeeps.next
    | exact OutKeeps.refused _ | exact OutKeeps.fault _ | with_reducible apply onlyIf_keeps | split | dsimp only | intro _ _ _
    | intro _ _ | intro _ | (with_reducible refine Keeps.mk_over ?_ rfl rfl rfl rfl rfl rfl)

theorem ppsInEdge_keeps {r : State} {sub : Nat} {s : State} (hs : Keeps r s) :
    Keeps r (ppsInEdge sub s) := by
  unfold ppsInEdge
  repeat' first
    | with_reducible assumption | with_reducible apply wr_keeps | with_reducible apply servoSample_keeps | split | dsimp only
    | intro _ _ _ | intro _ _ | intro _ | (with_reducible refine Keeps.mk_over ?_ rfl rfl rfl rfl rfl rfl)

theorem execPpsInEdge_keeps {r : State} {sub : Nat} {s : State} (hs : Keeps r s) :
    OutKeeps r (execPpsInEdge sub s) := by
  unfold execPpsInEdge
  repeat' first
    | with_reducible assumption | with_reducible apply guarded_keeps | with_reducible apply OutKeeps.next
    | exact OutKeeps.refused _ | exact OutKeeps.fault _ | with_reducible apply onlyIf_keeps
    | with_reducible apply ppsInEdge_keeps | split | dsimp only | intro _ _ _ | intro _ _ | intro _
    | (with_reducible refine Keeps.mk_over ?_ rfl rfl rfl rfl rfl rfl)

theorem execPpsInMissing_keeps {r : State} {s : State} (hs : Keeps r s) :
    OutKeeps r (execPpsInMissing s) := by
  unfold execPpsInMissing
  repeat' first
    | with_reducible assumption | with_reducible apply guarded_keeps | with_reducible apply OutKeeps.next
    | exact OutKeeps.refused _ | exact OutKeeps.fault _ | with_reducible apply onlyIf_keeps | with_reducible apply raise_keeps
    | split | dsimp only | intro _ _ _ | intro _ _ | intro _ | (with_reducible refine Keeps.mk_over ?_ rfl rfl rfl rfl rfl rfl)

theorem putCapt_keeps {r : State} {k : Nat} {x : Capt} {s : State} (hs : Keeps r s) :
    Keeps r (putCapt k x s) := by
  unfold putCapt
  repeat' first
    | with_reducible assumption | split | dsimp only | (with_reducible refine Keeps.mk_over ?_ rfl rfl rfl rfl rfl rfl)

theorem captRecord_keeps {r : State} {k : Nat} {rising : Bool} {sub : Nat} {s : State} (hs : Keeps r s) :
    Keeps r (captRecord k rising sub s) := by
  unfold captRecord
  repeat' first
    | with_reducible assumption | with_reducible apply satX_keeps | with_reducible apply wrC_keeps
    | with_reducible apply putCapt_keeps | with_reducible apply raiseC_keeps | split | dsimp only
    | (with_reducible refine Keeps.mk_over ?_ rfl rfl rfl rfl rfl rfl)

theorem captLevel_keeps {r : State} {k : Nat} {rising : Bool} {sub : Nat} {s : State} (hs : Keeps r s) :
    Keeps r (captLevel k rising sub s) := by
  unfold captLevel
  repeat' first
    | with_reducible assumption | with_reducible apply wrC_keeps | with_reducible apply putCapt_keeps
    | with_reducible apply raiseC_keeps | split | dsimp only | intro _ _ _ | intro _ _ | intro _
    | (with_reducible refine Keeps.mk_over ?_ rfl rfl rfl rfl rfl rfl)

theorem captureEdge_keeps {r : State} {k : Nat} {rising : Bool} {sub : Nat} {s : State} (hs : Keeps r s) :
    Keeps r (captureEdge k rising sub s) := by
  unfold captureEdge
  repeat' first
    | with_reducible assumption | with_reducible apply captLevel_keeps | with_reducible apply captRecord_keeps | split
    | dsimp only | intro _ _ _ | intro _ _ | intro _ | (with_reducible refine Keeps.mk_over ?_ rfl rfl rfl rfl rfl rfl)

theorem execCaptureEdge_keeps {r : State} {k : Nat} {rising : Bool} {sub : Nat} {s : State} (hs : Keeps r s) :
    OutKeeps r (execCaptureEdge k rising sub s) := by
  unfold execCaptureEdge
  repeat' first
    | with_reducible assumption | with_reducible apply guarded_keeps | with_reducible apply OutKeeps.next
    | exact OutKeeps.refused _ | exact OutKeeps.fault _ | with_reducible apply captureEdge_keeps | split | dsimp only
    | (with_reducible refine Keeps.mk_over ?_ rfl rfl rfl rfl rfl rfl)

theorem execCaptStuck_keeps {r : State} {k : Nat} {s : State} (hs : Keeps r s) :
    OutKeeps r (execCaptStuck k s) := by
  unfold execCaptStuck
  repeat' first
    | with_reducible assumption | with_reducible apply guarded_keeps | with_reducible apply OutKeeps.next
    | exact OutKeeps.refused _ | exact OutKeeps.fault _ | with_reducible apply onlyIf_keeps | with_reducible apply raiseC_keeps
    | with_reducible apply wrC_keeps | split | dsimp only | intro _ _ _ | intro _ _ | intro _
    | (with_reducible refine Keeps.mk_over ?_ rfl rfl rfl rfl rfl rfl)

theorem execCaptReleased_keeps {r : State} {k : Nat} {s : State} (hs : Keeps r s) :
    OutKeeps r (execCaptReleased k s) := by
  unfold execCaptReleased
  repeat' first
    | with_reducible assumption | with_reducible apply guarded_keeps | with_reducible apply OutKeeps.next
    | exact OutKeeps.refused _ | exact OutKeeps.fault _ | with_reducible apply onlyIf_keeps
    | with_reducible apply captLevel_keeps | split | dsimp only | intro _ _ _ | intro _ _ | intro _
    | (with_reducible refine Keeps.mk_over ?_ rfl rfl rfl rfl rfl rfl)

theorem captPop_keeps {r : State} {w : Window} {s : State} (hs : Keeps r s) :
    Keeps r (captPop w s) := by
  unfold captPop
  repeat' first
    | with_reducible assumption | with_reducible apply putRead_keeps | with_reducible apply wrC_keeps
    | with_reducible apply putCapt_keeps | split | dsimp only | (with_reducible refine Keeps.mk_over ?_ rfl rfl rfl rfl rfl rfl)

theorem execCaptPop_keeps {r : State} {w : Window} {s : State} (hs : Keeps r s) :
    OutKeeps r (execCaptPop w s) := by
  unfold execCaptPop
  repeat' first
    | with_reducible assumption | with_reducible apply guarded_keeps | with_reducible apply OutKeeps.next
    | exact OutKeeps.refused _ | exact OutKeeps.fault _ | with_reducible apply reading_keeps
    | with_reducible apply captPop_keeps | split | dsimp only | intro _ _ _ | intro _ _ | intro _
    | (with_reducible refine Keeps.mk_over ?_ rfl rfl rfl rfl rfl rfl)

theorem putTxFifo_keeps {r : State} {c : Nat} {l : List TxTs} {s : State} (hs : Keeps r s) :
    Keeps r (putTxFifo c l s) := by
  unfold putTxFifo
  repeat' first
    | with_reducible assumption | split | dsimp only | (with_reducible refine Keeps.mk_over ?_ rfl rfl rfl rfl rfl rfl)

theorem txStamp_keeps {r : State} {c : Nat} {time : Nat} {msgType : Nat} {seqId : Nat} {domain : Nat} {s : State} (hs : Keeps r s) :
    Keeps r (txStamp c time msgType seqId domain s) := by
  unfold txStamp
  repeat' first
    | with_reducible assumption | with_reducible apply raiseC_keeps | with_reducible apply count_keeps
    | with_reducible apply putTxFifo_keeps | split | dsimp only
    | (with_reducible refine Keeps.mk_over ?_ rfl rfl rfl rfl rfl rfl)

theorem txTsPop_keeps {r : State} {w : Window} {s : State} (hs : Keeps r s) :
    Keeps r (txTsPop w s) := by
  unfold txTsPop
  repeat' first
    | with_reducible assumption | with_reducible apply putRead_keeps | with_reducible apply wrC_keeps
    | with_reducible apply putTxFifo_keeps | split | dsimp only
    | (with_reducible refine Keeps.mk_over ?_ rfl rfl rfl rfl rfl rfl)

theorem execTxTsPop_keeps {r : State} {w : Window} {s : State} (hs : Keeps r s) :
    OutKeeps r (execTxTsPop w s) := by
  unfold execTxTsPop
  repeat' first
    | with_reducible assumption | with_reducible apply guarded_keeps | with_reducible apply OutKeeps.next
    | exact OutKeeps.refused _ | exact OutKeeps.fault _ | with_reducible apply reading_keeps
    | with_reducible apply txTsPop_keeps | split | dsimp only | intro _ _ _ | intro _ _ | intro _
    | (with_reducible refine Keeps.mk_over ?_ rfl rfl rfl rfl rfl rfl)

theorem ppsMoved_keeps {r : State} {old : State} {s : State} (_hold : Keeps r old) (hs : Keeps r s) :
    Keeps r (ppsMoved old s) := by
  unfold ppsMoved
  repeat' first
    | with_reducible assumption | split | dsimp only | intro _ _ _ | intro _ _ | intro _
    | (with_reducible refine Keeps.mk_over ?_ rfl rfl rfl rfl rfl rfl)

theorem rateLimited_keeps {r : State} {s : State} (hs : Keeps r s) :
    Keeps r (rateLimited s) := by
  unfold rateLimited
  repeat' first
    | with_reducible assumption | with_reducible apply setRate_keeps | split | dsimp only | intro _ _ _ | intro _ _ | intro _
    | (with_reducible refine Keeps.mk_over ?_ rfl rfl rfl rfl rfl rfl)

theorem synceMoved_keeps {r : State} {old : State} {k : Nat} {s : State} (_hold : Keeps r old) (hs : Keeps r s) :
    Keeps r (synceMoved old k s) := by
  unfold synceMoved
  repeat' first
    | with_reducible assumption | with_reducible apply raise_keeps | split | dsimp only | intro _ _ _ | intro _ _ | intro _
    | (with_reducible refine Keeps.mk_over ?_ rfl rfl rfl rfl rfl rfl)

theorem timCommitted_keeps {r : State} {old : State} {s : State} (_hold : Keeps r old) (hs : Keeps r s) :
    Keeps r (timCommitted old s) := by
  unfold timCommitted
  repeat' first
    | with_reducible assumption | with_reducible apply wr_keeps | with_reducible apply refreshSynce_keeps
    | with_reducible apply synceMoved_keeps | with_reducible apply rateLimited_keeps | with_reducible apply ppsMoved_keeps
    | split | dsimp only | intro _ _ _ | intro _ _ | intro _ | (with_reducible refine Keeps.mk_over ?_ rfl rfl rfl rfl rfl rfl)

end Sys2Proof.Machine
end

