-- ==== Sys2Proof/Laws/PortsKeeps.lean ====
section
/-! SUPPORT. Every operation of Machine/Ports.lean keeps what `Keeps` speaks of. -/

-- The alternatives of each proof's `first` are the same list; not every alternative is used in every proof.
set_option linter.unreachableTactic false
set_option linter.unusedTactic false

namespace Sys2Proof.Machine

theorem markFrames_keeps {r : State} {p : Nat} {frames : Nat} {s : State} (hs : Keeps r s) :
    Keeps r (markFrames p frames s) := by
  unfold markFrames
  repeat' first
    | with_reducible assumption | with_reducible apply fecBad_keeps | split | dsimp only | intro _ _ _ | intro _ _ | intro _
    | (with_reducible refine Keeps.mk_over ?_ rfl rfl rfl rfl rfl rfl)

theorem takeMark_keeps {r : State} {p : Nat} {s : State} (hs : Keeps r s) :
    Keeps r (takeMark p s) := by
  unfold takeMark
  repeat' first
    | with_reducible assumption | with_reducible apply fecBad_keeps | split | dsimp only | intro _ _ _ | intro _ _ | intro _
    | (with_reducible refine Keeps.mk_over ?_ rfl rfl rfl rfl rfl rfl)

theorem dropMarks_keeps {r : State} {p : Nat} {s : State} (hs : Keeps r s) :
    Keeps r (dropMarks p s) := by
  unfold dropMarks
  repeat' first
    | with_reducible assumption | with_reducible apply fecBad_keeps | split | dsimp only | intro _ _ _ | intro _ _ | intro _
    | (with_reducible refine Keeps.mk_over ?_ rfl rfl rfl rfl rfl rfl)

theorem fecBad_keeps {r : State} {p : Nat} {frames : Nat} {s : State} (hs : Keeps r s) :
    Keeps r (fecBad p frames s) := by
  unfold fecBad
  repeat' first
    | with_reducible assumption | with_reducible apply raiseC_keeps | with_reducible apply portCount_keeps
    | with_reducible apply markFrames_keeps | split | dsimp only | intro _ _ _ | intro _ _ | intro _
    | (with_reducible refine Keeps.mk_over ?_ rfl rfl rfl rfl rfl rfl)

theorem fecDecode_keeps {r : State} {p : Nat} {symErrs : Nat} {frames : Nat} {s : State} (hs : Keeps r s) :
    Keeps r (fecDecode p symErrs frames s) := by
  unfold fecDecode
  repeat' first
    | with_reducible assumption | with_reducible apply portCount_keeps | with_reducible apply fecBad_keeps | split | dsimp only
    | intro _ _ _ | intro _ _ | intro _ | (with_reducible refine Keeps.mk_over ?_ rfl rfl rfl rfl rfl rfl)

theorem execFecCodewordDecode_keeps {r : State} {p : Nat} {word : Codeword} {s : State} (hs : Keeps r s) :
    OutKeeps r (execFecCodewordDecode p word s) := by
  unfold execFecCodewordDecode
  repeat' first
    | with_reducible assumption | with_reducible apply guarded_keeps | with_reducible apply OutKeeps.next
    | exact OutKeeps.refused _ | exact OutKeeps.fault _ | with_reducible apply onLivePort_keeps
    | with_reducible apply fecDecode_keeps | split | dsimp only | intro _ _ _ | intro _ _ | intro _
    | (with_reducible refine Keeps.mk_over ?_ rfl rfl rfl rfl rfl rfl)

theorem showFault_keeps {r : State} {p : Nat} {k : PcsFault} {s : State} (hs : Keeps r s) :
    Keeps r (showFault p k s) := by
  unfold showFault
  repeat' first
    | with_reducible assumption | with_reducible apply wrC_keeps | with_reducible apply onlyIf_keeps | split | dsimp only
    | intro _ _ _ | intro _ _ | intro _ | (with_reducible refine Keeps.mk_over ?_ rfl rfl rfl rfl rfl rfl)

theorem pcsFault_keeps {r : State} {p : Nat} {k : PcsFault} {s : State} (hs : Keeps r s) :
    Keeps r (pcsFault p k s) := by
  unfold pcsFault
  repeat' first
    | with_reducible assumption | with_reducible apply showFault_keeps | with_reducible apply raiseC_keeps
    | with_reducible apply portCount_keeps | split | dsimp only | intro _ _ _ | intro _ _ | intro _
    | (with_reducible refine Keeps.mk_over ?_ rfl rfl rfl rfl rfl rfl)

theorem execPcsFault_keeps {r : State} {p : Nat} {k : PcsFault} {s : State} (hs : Keeps r s) :
    OutKeeps r (execPcsFault p k s) := by
  unfold execPcsFault
  repeat' first
    | with_reducible assumption | with_reducible apply guarded_keeps | with_reducible apply OutKeeps.next
    | exact OutKeeps.refused _ | exact OutKeeps.fault _ | with_reducible apply onLivePort_keeps
    | with_reducible apply pcsFault_keeps | split | dsimp only | intro _ _ _ | intro _ _ | intro _
    | (with_reducible refine Keeps.mk_over ?_ rfl rfl rfl rfl rfl rfl)

theorem linkUp_keeps {r : State} {p : Nat} {rxFixed : Nat} {txFixed : Nat} {s : State} (hs : Keeps r s) :
    Keeps r (linkUp p rxFixed txFixed s) := by
  unfold linkUp
  repeat' first
    | with_reducible assumption | with_reducible apply wrC_keeps | with_reducible apply showFec_keeps
    | with_reducible apply dropMarks_keeps | with_reducible apply refreshSynce_keeps | with_reducible apply raiseC_keeps | split
    | dsimp only | intro _ _ _ | intro _ _ | intro _ | (with_reducible refine Keeps.mk_over ?_ rfl rfl rfl rfl rfl rfl)

theorem execLinkUpTimer_keeps {r : State} {p : Nat} {rxFixed : Nat} {txFixed : Nat} {s : State} (hs : Keeps r s) :
    OutKeeps r (execLinkUpTimer p rxFixed txFixed s) := by
  unfold execLinkUpTimer
  repeat' first
    | with_reducible assumption | with_reducible apply guarded_keeps | with_reducible apply OutKeeps.next
    | exact OutKeeps.refused _ | exact OutKeeps.fault _ | with_reducible apply onPort_keeps | with_reducible apply linkUp_keeps
    | split | dsimp only | intro _ _ _ | intro _ _ | intro _ | (with_reducible refine Keeps.mk_over ?_ rfl rfl rfl rfl rfl rfl)

theorem remoteFault_keeps {r : State} {p : Nat} {s : State} (hs : Keeps r s) :
    Keeps r (remoteFault p s) := by
  unfold remoteFault
  repeat' first
    | with_reducible assumption | with_reducible apply wrC_keeps | with_reducible apply raiseC_keeps
    | with_reducible apply portDown_keeps | split | dsimp only | intro _ _ _ | intro _ _ | intro _
    | (with_reducible refine Keeps.mk_over ?_ rfl rfl rfl rfl rfl rfl)

theorem execFlapWindowEnd_keeps {r : State} {p : Nat} {s : State} (hs : Keeps r s) :
    OutKeeps r (execFlapWindowEnd p s) := by
  unfold execFlapWindowEnd
  repeat' first
    | with_reducible assumption | with_reducible apply guarded_keeps | with_reducible apply OutKeeps.next
    | exact OutKeeps.refused _ | exact OutKeeps.fault _ | with_reducible apply onlyIf_keeps | with_reducible apply wrC_keeps
    | split | dsimp only | intro _ _ _ | intro _ _ | intro _ | (with_reducible refine Keeps.mk_over ?_ rfl rfl rfl rfl rfl rfl)

theorem penaltyEnd_keeps {r : State} {p : Nat} {s : State} (hs : Keeps r s) :
    Keeps r (penaltyEnd p s) := by
  unfold penaltyEnd
  repeat' first
    | with_reducible assumption | with_reducible apply emit_keeps | with_reducible apply remoteFault_keeps
    | with_reducible apply raiseC_keeps | with_reducible apply wrC_keeps | split | dsimp only | intro _ _ _ | intro _ _
    | intro _ | (with_reducible refine Keeps.mk_over ?_ rfl rfl rfl rfl rfl rfl)

theorem execPenaltyEnd_keeps {r : State} {p : Nat} {s : State} (hs : Keeps r s) :
    OutKeeps r (execPenaltyEnd p s) := by
  unfold execPenaltyEnd
  repeat' first
    | with_reducible assumption | with_reducible apply guarded_keeps | with_reducible apply OutKeeps.next
    | exact OutKeeps.refused _ | exact OutKeeps.fault _ | with_reducible apply onlyIf_keeps
    | with_reducible apply penaltyEnd_keeps | split | dsimp only | intro _ _ _ | intro _ _ | intro _
    | (with_reducible refine Keeps.mk_over ?_ rfl rfl rfl rfl rfl rfl)

theorem withComing_keeps {r : State} {q : Nat} {s : State} (hs : Keeps r s) :
    Keeps r (withComing q s) := by
  unfold withComing
  repeat' first
    | with_reducible assumption | with_reducible apply putVals_keeps | split | dsimp only | intro _ _ _ | intro _ _ | intro _
    | (with_reducible refine Keeps.mk_over ?_ rfl rfl rfl rfl rfl rfl)

theorem prtStarting_keeps {r : State} {p : Nat} {s : State} (hs : Keeps r s) :
    Keeps r (prtStarting p s) := by
  unfold prtStarting
  repeat' first
    | with_reducible assumption | with_reducible apply showFec_keeps | with_reducible apply startLanes_keeps
    | with_reducible apply onlyIf_keeps | with_reducible apply emit_keeps | with_reducible apply remoteFault_keeps | split
    | dsimp only | intro _ _ _ | intro _ _ | intro _ | (with_reducible refine Keeps.mk_over ?_ rfl rfl rfl rfl rfl rfl)

theorem prtStopped_keeps {r : State} {p : Nat} {s : State} (hs : Keeps r s) :
    Keeps r (prtStopped p s) := by
  unfold prtStopped
  repeat' first
    | with_reducible assumption | with_reducible apply wrC_keeps | with_reducible apply startLanes_keeps | split | dsimp only
    | (with_reducible refine Keeps.mk_over ?_ rfl rfl rfl rfl rfl rfl)

end Sys2Proof.Machine
end

