-- ==== Sys2Proof/Laws/GatesKeeps.lean ====
section
/-! SUPPORT. Every operation of Machine/Gates.lean keeps what `Keeps` speaks of. -/

-- The alternatives of each proof's `first` are the same list; not every alternative is used in every proof.
set_option linter.unreachableTactic false
set_option linter.unusedTactic false

namespace Sys2Proof.Machine

theorem putTokens_keeps {r : State} {d : Nat} {c : Nat} {t : Int} {s : State} (hs : Keeps r s) :
    Keeps r (putTokens d c t s) := by
  unfold putTokens
  repeat' first
    | with_reducible assumption | with_reducible apply foldl_keeps | split | dsimp only | intro _ _ _ | intro _ _ | intro _
    | (with_reducible refine Keeps.mk_over ?_ rfl rfl rfl rfl rfl rfl)

theorem chargeShaper_keeps {r : State} {d : Nat} {c : Nat} {lc : Nat} {s : State} (hs : Keeps r s) :
    Keeps r (chargeShaper d c lc s) := by
  unfold chargeShaper
  repeat' first
    | with_reducible assumption | with_reducible apply putTokens_keeps | with_reducible apply foldl_keeps | split | dsimp only
    | intro _ _ _ | intro _ _ | intro _ | (with_reducible refine Keeps.mk_over ?_ rfl rfl rfl rfl rfl rfl)

theorem fillShapers_keeps {r : State} {d : Nat} {s : State} (hs : Keeps r s) :
    Keeps r (fillShapers d s) := by
  unfold fillShapers
  repeat' first
    | with_reducible assumption | with_reducible apply foldOver_keeps | with_reducible apply putTokens_keeps
    | with_reducible apply foldl_keeps | split | dsimp only | intro _ _ _ | intro _ _ | intro _
    | (with_reducible refine Keeps.mk_over ?_ rfl rfl rfl rfl rfl rfl)

theorem armTakeover_keeps {r : State} {d : Nat} {s : State} (hs : Keeps r s) :
    Keeps r (armTakeover d s) := by
  unfold armTakeover
  repeat' first
    | with_reducible assumption | with_reducible apply wrC_keeps | with_reducible apply putList_keeps
    | with_reducible apply foldl_keeps | split | dsimp only | intro _ _ _ | intro _ _ | intro _
    | (with_reducible refine Keeps.mk_over ?_ rfl rfl rfl rfl rfl rfl)

theorem gatesOff_keeps {r : State} {d : Nat} {old : State} {s : State} (_hold : Keeps r old) (hs : Keeps r s) :
    Keeps r (gatesOff d old s) := by
  unfold gatesOff
  repeat' first
    | with_reducible assumption | with_reducible apply showGates_keeps | with_reducible apply wrC_keeps
    | with_reducible apply keepGates_keeps | split | dsimp only | intro _ _ _ | intro _ _ | intro _
    | (with_reducible refine Keeps.mk_over ?_ rfl rfl rfl rfl rfl rfl)

theorem tmgCommitted_keeps {r : State} {old : State} {s : State} (_hold : Keeps r old) (hs : Keeps r s) :
    Keeps r (tmgCommitted old s) := by
  unfold tmgCommitted
  repeat' first
    | with_reducible assumption | with_reducible apply putTokens_keeps | with_reducible apply foldOver_keeps
    | with_reducible apply gatesOff_keeps | with_reducible apply showGates_keeps | with_reducible apply armTakeover_keeps
    | split | dsimp only | intro _ _ _ | intro _ _ | intro _ | (with_reducible refine Keeps.mk_over ?_ rfl rfl rfl rfl rfl rfl)

theorem clearGates_keeps {r : State} {d : Nat} {s : State} (hs : Keeps r s) :
    Keeps r (clearGates d s) := by
  unfold clearGates
  repeat' first
    | with_reducible assumption | with_reducible apply foldl_keeps | split | dsimp only | intro _ _ _ | intro _ _ | intro _
    | (with_reducible refine Keeps.mk_over ?_ rfl rfl rfl rfl rfl rfl)

end Sys2Proof.Machine
end

