-- ==== Sys2Proof/Laws/BuffersKeeps.lean ====
section
/-! SUPPORT. Every operation of Machine/Buffers.lean keeps what `Keeps` speaks of. -/

-- The alternatives of each proof's `first` are the same list; not every alternative is used in every proof.
set_option linter.unreachableTactic false
set_option linter.unusedTactic false

namespace Sys2Proof.Machine

theorem putOwnerOf_keeps {r : State} {p : Nat} {i : Nat} {v : Nat} {s : State} (hs : Keeps r s) :
    Keeps r (putOwnerOf p i v s) := by
  unfold putOwnerOf
  repeat' first
    | with_reducible assumption | with_reducible apply foldl_keeps | split | dsimp only | intro _ _ _ | intro _ _ | intro _
    | (with_reducible refine Keeps.mk_over ?_ rfl rfl rfl rfl rfl rfl)

theorem poolLowCheck_keeps {r : State} {p : Nat} {before : Int} {s : State} (hs : Keeps r s) :
    Keeps r (poolLowCheck p before s) := by
  unfold poolLowCheck
  repeat' first
    | with_reducible assumption | with_reducible apply raise_keeps | with_reducible apply foldl_keeps | split | dsimp only
    | intro _ _ _ | intro _ _ | intro _ | (with_reducible refine Keeps.mk_over ?_ rfl rfl rfl rfl rfl rfl)

theorem guardCheck_keeps {r : State} {s : State} (hs : Keeps r s) :
    Keeps r (guardCheck s) := by
  unfold guardCheck
  repeat' first
    | with_reducible assumption | with_reducible apply raise_keeps | with_reducible apply foldl_keeps | split | dsimp only
    | intro _ _ _ | intro _ _ | intro _ | (with_reducible refine Keeps.mk_over ?_ rfl rfl rfl rfl rfl rfl)

theorem noteShared_keeps {r : State} {p : Nat} {before : Int} {s : State} (hs : Keeps r s) :
    Keeps r (noteShared p before s) := by
  unfold noteShared
  repeat' first
    | with_reducible assumption | with_reducible apply poolLowCheck_keeps | with_reducible apply guardCheck_keeps | split
    | dsimp only | intro _ _ _ | intro _ _ | intro _ | (with_reducible refine Keeps.mk_over ?_ rfl rfl rfl rfl rfl rfl)

theorem notePointer_keeps {r : State} {r1 : Nat} {p : Nat} {s : State} (hs : Keeps r s) :
    Keeps r (notePointer r1 p s) := by
  unfold notePointer
  repeat' first
    | with_reducible assumption | split | dsimp only | intro _ _ _ | intro _ _ | intro _
    | (with_reducible refine Keeps.mk_over ?_ rfl rfl rfl rfl rfl rfl)

theorem takeFrom_keeps {r : State} {r1 : Nat} {p : Nat} {s : State} (hs : Keeps r s) :
    Keeps r (takeFrom r1 p s).2 := by
  unfold takeFrom
  repeat' first
    | with_reducible assumption | with_reducible apply notePointer_keeps | with_reducible apply noteShared_keeps
    | with_reducible apply count_keeps | with_reducible apply wrX_keeps | with_reducible apply putOwnerOf_keeps | split
    | dsimp only | intro _ _ _ | intro _ _ | intro _ | (with_reducible refine Keeps.mk_over ?_ rfl rfl rfl rfl rfl rfl)

theorem emptyResponse_keeps {r : State} {r0 : Nat} {s : State} (hs : Keeps r s) :
    Keeps r (emptyResponse r0 s) := by
  unfold emptyResponse
  repeat' first
    | with_reducible assumption | with_reducible apply count_keeps | with_reducible apply satX_keeps
    | with_reducible apply raise_keeps | with_reducible apply foldl_keeps | split | dsimp only | intro _ _ _ | intro _ _
    | intro _ | (with_reducible refine Keeps.mk_over ?_ rfl rfl rfl rfl rfl rfl)

theorem takeFirst_keeps {r : State} {q : Nat} {ps : List Nat} {fell : Bool} {s : State} (hs : Keeps r s) :
    Keeps r (takeFirst q ps fell s).2 := by
  induction ps generalizing fell s with
  | nil => exact hs
  | cons p ps ih =>
    unfold takeFirst
    split
    · next e => exact Keeps.snd (takeFrom_keeps hs) e
    · next e =>
      have ht := Keeps.snd (takeFrom_keeps hs) e
      split
      · split
        · exact ih ht
        · exact ih (count_keeps ht)
      · exact ht

theorem retireLimit_keeps {r : State} {p : Nat} {s : State} (hs : Keeps r s) :
    Keeps r (retireLimit p s) := by
  unfold retireLimit
  repeat' first
    | with_reducible assumption | with_reducible apply raise_keeps | split | dsimp only | intro _ _ _ | intro _ _ | intro _
    | (with_reducible refine Keeps.mk_over ?_ rfl rfl rfl rfl rfl rfl)

theorem retireBuffer_keeps {r : State} {p : Nat} {i : Nat} {s : State} (hs : Keeps r s) :
    Keeps r (retireBuffer p i s) := by
  unfold retireBuffer
  repeat' first
    | with_reducible assumption | with_reducible apply raise_keeps | with_reducible apply wrX_keeps
    | with_reducible apply putOwnerOf_keeps | with_reducible apply retireLimit_keeps | split | dsimp only | intro _ _ _
    | intro _ _ | intro _ | (with_reducible refine Keeps.mk_over ?_ rfl rfl rfl rfl rfl rfl)

theorem retireFreed_keeps {r : State} {s : State} (hs : Keeps r s) :
    Keeps r (retireFreed s) := by
  unfold retireFreed
  repeat' first
    | with_reducible assumption | with_reducible apply foldOver_keeps | with_reducible apply retireBuffer_keeps | split
    | dsimp only | intro _ _ _ | intro _ _ | intro _ | (with_reducible refine Keeps.mk_over ?_ rfl rfl rfl rfl rfl rfl)

theorem giveBack_keeps {r : State} {p : Nat} {i : Nat} {r1 : Nat} {s : State} (hs : Keeps r s) :
    Keeps r (giveBack p i r1 s) := by
  unfold giveBack
  repeat' first
    | with_reducible assumption | with_reducible apply wrX_keeps | with_reducible apply putOwnerOf_keeps
    | with_reducible apply noteShared_keeps | with_reducible apply retireBuffer_keeps | split | dsimp only | intro _ _ _
    | intro _ _ | intro _ | (with_reducible refine Keeps.mk_over ?_ rfl rfl rfl rfl rfl rfl)

theorem takeSome_keeps {r : State} {q n : Nat} {s : State} (hs : Keeps r s) : Keeps r (takeSome q n s).2 := by
  induction n generalizing s with
  | zero => exact hs
  | succ n ih =>
    unfold takeSome
    split
    · next e => exact Keeps.snd (takeFrom_keeps hs) e
    · next e => exact ih (Keeps.snd (takeFrom_keeps hs) e)

theorem giveCells_keeps {r : State} {r0 : Nat} {is : List Nat} {s : State} (hs : Keeps r s) :
    Keeps r (giveCells r0 is s) := by
  unfold giveCells
  repeat' first
    | with_reducible assumption | with_reducible apply foldOver_keeps | with_reducible apply giveBack_keeps
    | with_reducible apply foldl_keeps | split | dsimp only | intro _ _ _ | intro _ _ | intro _
    | (with_reducible refine Keeps.mk_over ?_ rfl rfl rfl rfl rfl rfl)

theorem takeCells_keeps {r : State} {q n : Nat} {s : State} (hs : Keeps r s) : Keeps r (takeCells q n s).2 := by
  unfold takeCells
  dsimp only
  split
  · exact takeSome_keeps hs
  · exact giveCells_keeps (takeSome_keeps hs)

theorem bpmAlloc_keeps {r : State} {w : Window} {s : State} (hs : Keeps r s) :
    Keeps r (bpmAlloc w s) := by
  have took : ∀ (q : Nat) (ps : List Nat), Keeps r (if blockOn .bpm s then takeFirst q ps false s else (none, s)).2 := by
    intro q ps
    split
    · exact takeFirst_keeps hs
    · exact hs
  simp only [bpmAlloc]
  split
  · exact wrC_keeps (wrC_keeps hs)
  · split
    · exact wrC_keeps (wrC_keeps hs)
    · split
      · next e => exact wrC_keeps (wrC_keeps (Keeps.snd (took _ _) e))
      · next e => exact wrC_keeps (wrC_keeps (emptyResponse_keeps (Keeps.snd (took _ _) e)))

theorem allocWrite_keeps {r : State} {w : Window} {v : Word} {s : State} (hs : Keeps r s) :
    Keeps r (allocWrite w v s) := by
  unfold allocWrite
  repeat' first
    | with_reducible assumption | with_reducible apply wrC_keeps | with_reducible apply bpmAlloc_keeps
    | with_reducible apply foldl_keeps | split | dsimp only | intro _ _ _ | intro _ _ | intro _
    | (with_reducible refine Keeps.mk_over ?_ rfl rfl rfl rfl rfl rfl)

theorem execBpmAlloc_keeps {r : State} {w : Window} {v : Word} {s : State} (hs : Keeps r s) :
    OutKeeps r (execBpmAlloc w v s) := by
  unfold execBpmAlloc
  repeat' first
    | with_reducible assumption | with_reducible apply guarded_keeps | with_reducible apply OutKeeps.next
    | exact OutKeeps.refused _ | exact OutKeeps.fault _ | with_reducible apply writing_keeps
    | with_reducible apply allocWrite_keeps | with_reducible apply foldl_keeps | split | dsimp only | intro _ _ _ | intro _ _
    | intro _ | (with_reducible refine Keeps.mk_over ?_ rfl rfl rfl rfl rfl rfl)

theorem rejectLog_keeps {r : State} {w : Window} {handle : Nat} {r0 : Nat} {kind : Nat} {s : State} (hs : Keeps r s) :
    Keeps r (rejectLog w handle r0 kind s) := by
  unfold rejectLog
  repeat' first
    | with_reducible assumption | with_reducible apply wr_keeps | with_reducible apply foldl_keeps | split | dsimp only
    | intro _ _ _ | intro _ _ | intro _ | (with_reducible refine Keeps.mk_over ?_ rfl rfl rfl rfl rfl rfl)

theorem freeWrite_keeps {r : State} {w : Window} {v : Word} {s : State} (hs : Keeps r s) :
    Keeps r (freeWrite w v s) := by
  unfold freeWrite
  repeat' first
    | with_reducible assumption | with_reducible apply wrC_keeps | with_reducible apply giveBack_keeps
    | with_reducible apply rejectLog_keeps | with_reducible apply count_keeps | with_reducible apply raise_keeps
    | with_reducible apply foldl_keeps | split | dsimp only | intro _ _ _ | intro _ _ | intro _
    | (with_reducible refine Keeps.mk_over ?_ rfl rfl rfl rfl rfl rfl)

theorem execBpmFree_keeps {r : State} {w : Window} {v : Word} {s : State} (hs : Keeps r s) :
    OutKeeps r (execBpmFree w v s) := by
  unfold execBpmFree
  repeat' first
    | with_reducible assumption | with_reducible apply guarded_keeps | with_reducible apply OutKeeps.next
    | exact OutKeeps.refused _ | exact OutKeeps.fault _ | with_reducible apply writing_keeps
    | with_reducible apply freeWrite_keeps | with_reducible apply foldl_keeps | split | dsimp only | intro _ _ _ | intro _ _
    | intro _ | (with_reducible refine Keeps.mk_over ?_ rfl rfl rfl rfl rfl rfl)

theorem bufStep_keeps {r : State} {c : Nat} {s : State} (hs : Keeps r s) :
    Keeps r (bufStep c s) := by
  unfold bufStep
  repeat' first
    | with_reducible assumption | with_reducible apply wrC_keeps | with_reducible apply foldl_keeps | split | dsimp only
    | intro _ _ _ | intro _ _ | intro _ | (with_reducible refine Keeps.mk_over ?_ rfl rfl rfl rfl rfl rfl)

theorem bufAccess_keeps {r : State} {w : Window} {write : Bool} {v : Word} {s : State} (hs : Keeps r s) :
    Keeps r (bufAccess w write v s) := by
  have read : ∀ (x : Nat) (t : State), Keeps r t → Keeps r (if write then t else putRead w (BitVec.ofNat 32 x) t) := by
    intro x t ht
    split
    · exact ht
    · exact putRead_keeps ht
  simp only [bufAccess]
  split
  · exact bufStep_keeps (read _ _ (count_keeps hs))
  · split
    · exact bufStep_keeps (read _ _ hs)
    · split
      · exact bufStep_keeps (hs.stored id (fun h => memWrite_wf _ _ h) rfl rfl rfl rfl rfl rfl rfl)
      · exact bufStep_keeps (putRead_keeps hs)

theorem execBufDataAccess_keeps {r : State} {w : Window} {write : Bool} {v : Word} {s : State} (hs : Keeps r s) :
    OutKeeps r (execBufDataAccess w write v s) := by
  unfold execBufDataAccess
  repeat' first
    | with_reducible assumption | with_reducible apply guarded_keeps | with_reducible apply OutKeeps.next
    | exact OutKeeps.refused _ | exact OutKeeps.fault _ | with_reducible apply writing_keeps
    | with_reducible apply bufAccess_keeps | with_reducible apply reading_keeps | with_reducible apply foldl_keeps | split
    | dsimp only | intro _ _ _ | intro _ _ | intro _ | (with_reducible refine Keeps.mk_over ?_ rfl rfl rfl rfl rfl rfl)

theorem bpmStarting_keeps {r : State} {s : State} (hs : Keeps r s) :
    Keeps r (bpmStarting s) := by
  unfold bpmStarting
  repeat' first
    | with_reducible assumption | with_reducible apply retireFreed_keeps | with_reducible apply foldOver_keeps
    | with_reducible apply wrX_keeps | split | dsimp only | intro _ _ _ | intro _ _ | intro _
    | (with_reducible refine Keeps.mk_over ?_ rfl rfl rfl rfl rfl rfl)

theorem bpmForced_keeps {r : State} {s : State} (hs : Keeps r s) :
    Keeps r (bpmForced s) := by
  unfold bpmForced
  repeat' first
    | with_reducible assumption | with_reducible apply retireFreed_keeps | with_reducible apply foldOver_keeps
    | with_reducible apply wrX_keeps | split | dsimp only | intro _ _ _ | intro _ _ | intro _
    | (with_reducible refine Keeps.mk_over ?_ rfl rfl rfl rfl rfl rfl)

theorem bpmCommitted_keeps {r : State} {old : State} {s : State} (_hold : Keeps r old) (hs : Keeps r s) :
    Keeps r (bpmCommitted old s) := by
  unfold bpmCommitted
  repeat' first
    | with_reducible assumption | with_reducible apply foldOver_keeps | with_reducible apply noteShared_keeps | split
    | dsimp only | intro _ _ _ | intro _ _ | intro _ | (with_reducible refine Keeps.mk_over ?_ rfl rfl rfl rfl rfl rfl)

end Sys2Proof.Machine
end

