-- ==== Sys2Proof/Laws/VersionsKeeps.lean ====
section
/-! SUPPORT. Every operation of Machine/Versions.lean keeps what `Keeps` speaks of. -/

-- The alternatives of each proof's `first` are the same list; not every alternative is used in every proof.
set_option linter.unreachableTactic false
set_option linter.unusedTactic false

namespace Sys2Proof.Machine

theorem putHalf_keeps {r : State} {h0 : Nat} {x : Half} {s : State} (hs : Keeps r s) :
    Keeps r (putHalf h0 x s) := by
  unfold putHalf
  repeat' first
    | with_reducible assumption | with_reducible apply foldl_keeps | split | dsimp only | intro _ _ _ | intro _ _ | intro _
    | (with_reducible refine Keeps.mk_over ?_ rfl rfl rfl rfl rfl rfl)

theorem freeVersion_keeps {r : State} {s : State} (hs : Keeps r s) :
    Keeps r (freeVersion s) := by
  unfold freeVersion
  repeat' first
    | with_reducible assumption | with_reducible apply raise_keeps | with_reducible apply wr_keeps
    | with_reducible apply foldl_keeps | split | dsimp only | intro _ _ _ | intro _ _ | intro _
    | (with_reducible refine Keeps.mk_over ?_ rfl rfl rfl rfl rfl rfl)

theorem freeIfDrained_keeps {r : State} {s : State} (hs : Keeps r s) :
    Keeps r (freeIfDrained s) := by
  unfold freeIfDrained
  repeat' first
    | with_reducible assumption | with_reducible apply freeVersion_keeps | with_reducible apply foldl_keeps | split | dsimp only
    | intro _ _ _ | intro _ _ | intro _ | (with_reducible refine Keeps.mk_over ?_ rfl rfl rfl rfl rfl rfl)

theorem execDrainOverrun_keeps {r : State} {s : State} (hs : Keeps r s) :
    OutKeeps r (execDrainOverrun s) := by
  unfold execDrainOverrun
  repeat' first
    | with_reducible assumption | with_reducible apply guarded_keeps | with_reducible apply OutKeeps.next
    | exact OutKeeps.refused _ | exact OutKeeps.fault _ | with_reducible apply raise_keeps | with_reducible apply sat1_keeps
    | with_reducible apply foldl_keeps | split | dsimp only | intro _ _ _ | intro _ _ | intro _
    | (with_reducible refine Keeps.mk_over ?_ rfl rfl rfl rfl rfl rfl)

theorem drainCtlWrite_keeps {r : State} {w : Window} {v : Word} {s : State} (hs : Keeps r s) :
    Keeps r (drainCtlWrite w v s) := by
  unfold drainCtlWrite
  repeat' first
    | with_reducible assumption | with_reducible apply accessError_keeps | with_reducible apply wr_keeps
    | with_reducible apply raise_keeps | with_reducible apply freeVersion_keeps | with_reducible apply foldl_keeps | split
    | dsimp only | intro _ _ _ | intro _ _ | intro _ | (with_reducible refine Keeps.mk_over ?_ rfl rfl rfl rfl rfl rfl)

theorem execForceFree_keeps {r : State} {w : Window} {v : Word} {s : State} (hs : Keeps r s) :
    OutKeeps r (execForceFree w v s) := by
  unfold execForceFree
  repeat' first
    | with_reducible assumption | with_reducible apply guarded_keeps | with_reducible apply OutKeeps.next
    | exact OutKeeps.refused _ | exact OutKeeps.fault _ | with_reducible apply writing_keeps
    | with_reducible apply drainCtlWrite_keeps | with_reducible apply foldl_keeps | split | dsimp only | intro _ _ _ | intro _ _
    | intro _ | (with_reducible refine Keeps.mk_over ?_ rfl rfl rfl rfl rfl rfl)

theorem stageRefused_keeps {r : State} {s : State} (hs : Keeps r s) :
    Keeps r (stageRefused s) := by
  unfold stageRefused
  repeat' first
    | with_reducible assumption | with_reducible apply raise_keeps | with_reducible apply wr_keeps
    | with_reducible apply foldl_keeps | split | dsimp only | intro _ _ _ | intro _ _ | intro _
    | (with_reducible refine Keeps.mk_over ?_ rfl rfl rfl rfl rfl rfl)

theorem stageChange_keeps {r : State} {f : State → State} {s : State} (hf : ∀ x0, Keeps r x0 → Keeps r (f x0)) (hs : Keeps r s) :
    Keeps r (stageChange f s) := by
  unfold stageChange
  repeat' first
    | with_reducible assumption | with_reducible apply hf | with_reducible apply stageRefused_keeps
    | with_reducible apply foldl_keeps | split | dsimp only | intro _ _ _ | intro _ _ | intro _
    | (with_reducible refine Keeps.mk_over ?_ rfl rfl rfl rfl rfl rfl)

theorem stageCopyDone_keeps {r : State} {s : State} (hs : Keeps r s) :
    Keeps r (stageCopyDone s) := by
  unfold stageCopyDone
  repeat' first
    | with_reducible assumption | with_reducible apply wr_keeps | with_reducible apply putHalf_keeps
    | with_reducible apply foldl_keeps | split | dsimp only | intro _ _ _ | intro _ _ | intro _
    | (with_reducible refine Keeps.mk_over ?_ rfl rfl rfl rfl rfl rfl)

theorem execStageCopyDone_keeps {r : State} {s : State} (hs : Keeps r s) :
    OutKeeps r (execStageCopyDone s) := by
  unfold execStageCopyDone
  repeat' first
    | with_reducible assumption | with_reducible apply guarded_keeps | with_reducible apply OutKeeps.next
    | exact OutKeeps.refused _ | exact OutKeeps.fault _ | with_reducible apply stageCopyDone_keeps
    | with_reducible apply foldl_keeps | split | dsimp only | intro _ _ _ | intro _ _ | intro _
    | (with_reducible refine Keeps.mk_over ?_ rfl rfl rfl rfl rfl rfl)

theorem stageClear_keeps {r : State} {s : State} (hs : Keeps r s) :
    Keeps r (stageClear s) := by
  unfold stageClear
  repeat' first
    | with_reducible assumption | with_reducible apply putHalf_keeps | with_reducible apply foldl_keeps | split | dsimp only
    | intro _ _ _ | intro _ _ | intro _ | (with_reducible refine Keeps.mk_over ?_ rfl rfl rfl rfl rfl rfl)

theorem stageCtlWrite_keeps {r : State} {v : Word} {s : State} (hs : Keeps r s) :
    Keeps r (stageCtlWrite v s) := by
  unfold stageCtlWrite
  repeat' first
    | with_reducible assumption | with_reducible apply wr_keeps | with_reducible apply stageChange_keeps
    | with_reducible apply stageClear_keeps | with_reducible apply foldl_keeps | split | dsimp only | intro _ _ _ | intro _ _
    | intro _ | (with_reducible refine Keeps.mk_over ?_ rfl rfl rfl rfl rfl rfl)

theorem execStageCopy_keeps {r : State} {w : Window} {v : Word} {s : State} (hs : Keeps r s) :
    OutKeeps r (execStageCopy w v s) := by
  unfold execStageCopy
  repeat' first
    | with_reducible assumption | with_reducible apply guarded_keeps | with_reducible apply OutKeeps.next
    | exact OutKeeps.refused _ | exact OutKeeps.fault _ | with_reducible apply writing_keeps
    | with_reducible apply stageCtlWrite_keeps | with_reducible apply foldl_keeps | split | dsimp only | intro _ _ _ | intro _ _
    | intro _ | (with_reducible refine Keeps.mk_over ?_ rfl rfl rfl rfl rfl rfl)

theorem execStageClear_keeps {r : State} {w : Window} {v : Word} {s : State} (hs : Keeps r s) :
    OutKeeps r (execStageClear w v s) := by
  unfold execStageClear
  repeat' first
    | with_reducible assumption | with_reducible apply guarded_keeps | with_reducible apply OutKeeps.next
    | exact OutKeeps.refused _ | exact OutKeeps.fault _ | with_reducible apply writing_keeps
    | with_reducible apply stageCtlWrite_keeps | with_reducible apply foldl_keeps | split | dsimp only | intro _ _ _ | intro _ _
    | intro _ | (with_reducible refine Keeps.mk_over ?_ rfl rfl rfl rfl rfl rfl)

theorem stageLoad_keeps {r : State} {s : State} (hs : Keeps r s) :
    Keeps r (stageLoad s) := by
  unfold stageLoad
  repeat' first
    | with_reducible assumption | with_reducible apply foldOver_keeps | with_reducible apply wrX_keeps
    | with_reducible apply foldl_keeps | split | dsimp only | intro _ _ _ | intro _ _ | intro _
    | (with_reducible refine Keeps.mk_over ?_ rfl rfl rfl rfl rfl rfl)

theorem stageAddrWrite_keeps {r : State} {v : Word} {s : State} (hs : Keeps r s) :
    Keeps r (stageAddrWrite v s) := by
  unfold stageAddrWrite
  repeat' first
    | with_reducible assumption | with_reducible apply wr_keeps | with_reducible apply stageLoad_keeps
    | with_reducible apply foldl_keeps | split | dsimp only | intro _ _ _ | intro _ _ | intro _
    | (with_reducible refine Keeps.mk_over ?_ rfl rfl rfl rfl rfl rfl)

theorem execStageRuleLoad_keeps {r : State} {w : Window} {v : Word} {s : State} (hs : Keeps r s) :
    OutKeeps r (execStageRuleLoad w v s) := by
  unfold execStageRuleLoad
  repeat' first
    | with_reducible assumption | with_reducible apply guarded_keeps | with_reducible apply OutKeeps.next
    | exact OutKeeps.refused _ | exact OutKeeps.fault _ | with_reducible apply writing_keeps
    | with_reducible apply stageAddrWrite_keeps | with_reducible apply foldl_keeps | split | dsimp only | intro _ _ _
    | intro _ _ | intro _ | (with_reducible refine Keeps.mk_over ?_ rfl rfl rfl rfl rfl rfl)

theorem stageRuleWrite_keeps {r : State} {s : State} (hs : Keeps r s) :
    Keeps r (stageRuleWrite s) := by
  unfold stageRuleWrite
  repeat' first
    | with_reducible assumption | with_reducible apply foldOver_keeps | with_reducible apply putHalf_keeps
    | with_reducible apply wr_keeps | with_reducible apply foldl_keeps | split | dsimp only | intro _ _ _ | intro _ _ | intro _
    | (with_reducible refine Keeps.mk_over ?_ rfl rfl rfl rfl rfl rfl)

theorem stageDataWrite_keeps {r : State} {k : Nat} {v : Word} {s : State} (hs : Keeps r s) :
    Keeps r (stageDataWrite k v s) := by
  unfold stageDataWrite
  repeat' first
    | with_reducible assumption | with_reducible apply stageRefused_keeps | with_reducible apply wrX_keeps
    | with_reducible apply stageRuleWrite_keeps | with_reducible apply foldl_keeps | split | dsimp only | intro _ _ _
    | intro _ _ | intro _ | (with_reducible refine Keeps.mk_over ?_ rfl rfl rfl rfl rfl rfl)

theorem execStageData15Write_keeps {r : State} {w : Window} {v : Word} {s : State} (hs : Keeps r s) :
    OutKeeps r (execStageData15Write w v s) := by
  unfold execStageData15Write
  repeat' first
    | with_reducible assumption | with_reducible apply guarded_keeps | with_reducible apply OutKeeps.next
    | exact OutKeeps.refused _ | exact OutKeeps.fault _ | with_reducible apply writing_keeps
    | with_reducible apply stageDataWrite_keeps | with_reducible apply foldl_keeps | split | dsimp only | intro _ _ _
    | intro _ _ | intro _ | (with_reducible refine Keeps.mk_over ?_ rfl rfl rfl rfl rfl rfl)

theorem stageCountWrite_keeps {r : State} {v : Word} {s : State} (hs : Keeps r s) :
    Keeps r (stageCountWrite v s) := by
  unfold stageCountWrite
  repeat' first
    | with_reducible assumption | with_reducible apply stageChange_keeps | with_reducible apply putHalf_keeps
    | with_reducible apply foldl_keeps | split | dsimp only | intro _ _ _ | intro _ _ | intro _
    | (with_reducible refine Keeps.mk_over ?_ rfl rfl rfl rfl rfl rfl)

theorem clsShadowsLive_keeps {r : State} {s : State} (hs : Keeps r s) :
    Keeps r (clsShadowsLive s) := by
  unfold clsShadowsLive
  repeat' first
    | with_reducible assumption | with_reducible apply foldl_keeps | split | dsimp only | intro _ _ _ | intro _ _ | intro _
    | (with_reducible refine Keeps.mk_over ?_ rfl rfl rfl rfl rfl rfl)

theorem takeVersion_keeps {r : State} {n : Nat} {s : State} (hs : Keeps r s) :
    Keeps r (takeVersion n s) := by
  unfold takeVersion
  repeat' first
    | with_reducible assumption | with_reducible apply clsShadowsLive_keeps | with_reducible apply putHalf_keeps
    | with_reducible apply wr_keeps | with_reducible apply freeIfDrained_keeps | with_reducible apply raise_keeps
    | with_reducible apply foldl_keeps | split | dsimp only | intro _ _ _ | intro _ _ | intro _
    | (with_reducible refine Keeps.mk_over ?_ rfl rfl rfl rfl rfl rfl)

theorem putFrame_keeps {r : State} {i : Nat} {f : Frame} {s : State} (hs : Keeps r s) :
    Keeps r (putFrame i f s) := by
  unfold putFrame
  repeat' first
    | with_reducible assumption | with_reducible apply foldl_keeps | split | dsimp only | intro _ _ _ | intro _ _ | intro _
    | (with_reducible refine Keeps.mk_over ?_ rfl rfl rfl rfl rfl rfl)

theorem modFrame_keeps {r : State} {i : Nat} {g : Frame → Frame} {s : State} (hs : Keeps r s) :
    Keeps r (modFrame i g s) := by
  unfold modFrame
  repeat' first
    | with_reducible assumption | with_reducible apply putFrame_keeps | with_reducible apply foldl_keeps | split | dsimp only
    | intro _ _ _ | intro _ _ | intro _ | (with_reducible refine Keeps.mk_over ?_ rfl rfl rfl rfl rfl rfl)

theorem newFrame_keeps {r : State} {f : Frame} {s : State} (hs : Keeps r s) :
    Keeps r (newFrame f s).2 := by
  unfold newFrame
  try dsimp only
  repeat' first
    | split | with_reducible assumption | with_reducible apply putFrame_keeps | with_reducible apply foldl_keeps | dsimp only
    | intro _ _ _ | intro _ _ | intro _ | (with_reducible refine Keeps.mk_over ?_ rfl rfl rfl rfl rfl rfl)

theorem endFrame_keeps {r : State} {i : Nat} {s : State} (hs : Keeps r s) :
    Keeps r (endFrame i s) := by
  unfold endFrame
  repeat' first
    | with_reducible assumption | with_reducible apply freeIfDrained_keeps | with_reducible apply foldl_keeps | split
    | dsimp only | intro _ _ _ | intro _ _ | intro _ | (with_reducible refine Keeps.mk_over ?_ rfl rfl rfl rfl rfl rfl)

end Sys2Proof.Machine
end

