-- ==== Sys2Proof/Laws/SwitchKeeps.lean ====
section
/-! SUPPORT. Every operation of Machine/Switch.lean keeps what `Keeps` speaks of. -/

-- The alternatives of each proof's `first` are the same list; not every alternative is used in every proof.
set_option linter.unreachableTactic false
set_option linter.unusedTactic false

namespace Sys2Proof.Machine

theorem putVoq_keeps {r : State} {g : Nat} {d : Nat} {c : Nat} {l : List Nat} {s : State} (hs : Keeps r s) :
    Keeps r (putVoq g d c l s) := by
  unfold putVoq
  repeat' first
    | with_reducible assumption | with_reducible apply foldl_keeps | split | dsimp only | intro _ _ _ | intro _ _ | intro _
    | (with_reducible refine Keeps.mk_over ?_ rfl rfl rfl rfl rfl rfl)

theorem returnCredits_keeps {r : State} {f : Frame} {n : Nat} {s : State} (hs : Keeps r s) :
    Keeps r (returnCredits f n s) := by
  unfold returnCredits
  repeat' first
    | with_reducible assumption | with_reducible apply emit_keeps | split | dsimp only | intro _ _ _ | intro _ _ | intro _
    | (with_reducible refine Keeps.mk_over ?_ rfl rfl rfl rfl rfl rfl)

theorem advanceCells_keeps {r : State} {i : Nat} {n : Nat} {s : State} (hs : Keeps r s) :
    Keeps r (advanceCells i n s) := by
  unfold advanceCells
  repeat' first
    | with_reducible assumption | with_reducible apply returnCredits_keeps | with_reducible apply giveCells_keeps
    | with_reducible apply putFrame_keeps | split | dsimp only | intro _ _ _ | intro _ _ | intro _
    | (with_reducible refine Keeps.mk_over ?_ rfl rfl rfl rfl rfl rfl)

theorem unqueue_keeps {r : State} {i : Nat} {s : State} (hs : Keeps r s) :
    Keeps r (unqueue i s) := by
  unfold unqueue
  repeat' first
    | with_reducible assumption | with_reducible apply putFrame_keeps | with_reducible apply putVoq_keeps
    | with_reducible apply foldl_keeps | split | dsimp only | intro _ _ _ | intro _ _ | intro _
    | (with_reducible refine Keeps.mk_over ?_ rfl rfl rfl rfl rfl rfl)

theorem removeFrame_keeps {r : State} {i : Nat} {s : State} (hs : Keeps r s) :
    Keeps r (removeFrame i s) := by
  unfold removeFrame
  repeat' first
    | with_reducible assumption | with_reducible apply modFrame_keeps | with_reducible apply endFrame_keeps
    | with_reducible apply foldl_keeps | split | dsimp only | intro _ _ _ | intro _ _ | intro _
    | (with_reducible refine Keeps.mk_over ?_ rfl rfl rfl rfl rfl rfl)

theorem detachRx_keeps {r : State} {i : Nat} {s : State} (hs : Keeps r s) :
    Keeps r (detachRx i s) := by
  unfold detachRx
  repeat' first
    | with_reducible assumption | with_reducible apply foldl_keeps | split | dsimp only | intro _ _ _ | intro _ _ | intro _
    | (with_reducible refine Keeps.mk_over ?_ rfl rfl rfl rfl rfl rfl)

theorem putVtime_keeps {r : State} {d : Nat} {v : Nat} {s : State} (hs : Keeps r s) :
    Keeps r (putVtime d v s) := by
  unfold putVtime
  repeat' first
    | with_reducible assumption | with_reducible apply foldl_keeps | split | dsimp only | intro _ _ _ | intro _ _ | intro _
    | (with_reducible refine Keeps.mk_over ?_ rfl rfl rfl rfl rfl rfl)

theorem putTag_keeps {r : State} {d : Nat} {c : Nat} {v : Nat} {s : State} (hs : Keeps r s) :
    Keeps r (putTag d c v s) := by
  unfold putTag
  repeat' first
    | with_reducible assumption | with_reducible apply foldl_keeps | split | dsimp only | intro _ _ _ | intro _ _ | intro _
    | (with_reducible refine Keeps.mk_over ?_ rfl rfl rfl rfl rfl rfl)

theorem refreshActive_keeps {r : State} {d : Nat} {c : Nat} {s : State} (hs : Keeps r s) :
    Keeps r (refreshActive d c s) := by
  unfold refreshActive
  repeat' first
    | with_reducible assumption | with_reducible apply putTag_keeps | with_reducible apply foldl_keeps | split | dsimp only
    | intro _ _ _ | intro _ _ | intro _ | (with_reducible refine Keeps.mk_over ?_ rfl rfl rfl rfl rfl rfl)

theorem dropUse_keeps {r : State} {i : Nat} {s : State} (hs : Keeps r s) :
    Keeps r (dropUse i s) := by
  unfold dropUse
  repeat' first
    | with_reducible assumption | with_reducible apply refreshActive_keeps | with_reducible apply removeFrame_keeps
    | with_reducible apply detachRx_keeps | with_reducible apply unqueue_keeps | with_reducible apply advanceCells_keeps
    | with_reducible apply foldl_keeps | split | dsimp only | intro _ _ _ | intro _ _ | intro _
    | (with_reducible refine Keeps.mk_over ?_ rfl rfl rfl rfl rfl rfl)

theorem dropFrame_keeps {r : State} {i : Nat} {s : State} (hs : Keeps r s) :
    Keeps r (dropFrame i s) := by
  unfold dropFrame
  repeat' first
    | with_reducible assumption | with_reducible apply dropUse_keeps | with_reducible apply foldl_keeps | split | dsimp only
    | intro _ _ _ | intro _ _ | intro _ | (with_reducible refine Keeps.mk_over ?_ rfl rfl rfl rfl rfl rfl)

theorem swcOffDrop_keeps {r : State} {i : Nat} {s : State} (hs : Keeps r s) :
    Keeps r (swcOffDrop i s) := by
  unfold swcOffDrop
  repeat' first
    | with_reducible assumption | with_reducible apply dropFrame_keeps | with_reducible apply count_keeps
    | with_reducible apply foldl_keeps | split | dsimp only | intro _ _ _ | intro _ _ | intro _
    | (with_reducible refine Keeps.mk_over ?_ rfl rfl rfl rfl rfl rfl)

theorem destOffDrop_keeps {r : State} {i : Nat} {s : State} (hs : Keeps r s) :
    Keeps r (destOffDrop i s) := by
  unfold destOffDrop
  repeat' first
    | with_reducible assumption | with_reducible apply dropFrame_keeps | with_reducible apply portCount_keeps
    | with_reducible apply raise_keeps | with_reducible apply count_keeps | with_reducible apply foldl_keeps | split
    | dsimp only | intro _ _ _ | intro _ _ | intro _ | (with_reducible refine Keeps.mk_over ?_ rfl rfl rfl rfl rfl rfl)

theorem ecnRule_keeps {r : State} {i : Nat} {q : Nat} {s : State} (hs : Keeps r s) :
    Keeps r (ecnRule i q s) := by
  unfold ecnRule
  repeat' first
    | with_reducible assumption | with_reducible apply count_keeps | with_reducible apply putFrame_keeps
    | with_reducible apply takeFree_keeps | with_reducible apply foldl_keeps | split | dsimp only | intro _ _ _ | intro _ _
    | intro _ | (refine Keeps.snd ?_ ‹_›) | (with_reducible refine Keeps.mk_over ?_ rfl rfl rfl rfl rfl rfl)

theorem noteOnset_keeps {r : State} {d : Nat} {c : Nat} {before : Nat} {s : State} (hs : Keeps r s) :
    Keeps r (noteOnset d c before s) := by
  unfold noteOnset
  repeat' first
    | with_reducible assumption | with_reducible apply raise_keeps | split | dsimp only | intro _ _ _ | intro _ _ | intro _
    | (with_reducible refine Keeps.mk_over ?_ rfl rfl rfl rfl rfl rfl)

theorem enqueue_keeps {r : State} {i : Nat} {q : Nat} {s : State} (hs : Keeps r s) :
    Keeps r (enqueue i q s) := by
  unfold enqueue
  repeat' first
    | with_reducible assumption | with_reducible apply putVoq_keeps | with_reducible apply putFrame_keeps
    | with_reducible apply count_keeps | with_reducible apply refreshActive_keeps | with_reducible apply noteOnset_keeps | split
    | dsimp only | intro _ _ _ | intro _ _ | intro _ | (with_reducible refine Keeps.mk_over ?_ rfl rfl rfl rfl rfl rfl)

theorem voqEnter_keeps {r : State} {i : Nat} {ref : Option Nat} {s0 : State} (hs0 : Keeps r s0) :
    Keeps r (voqEnter i ref s0) := by
  unfold voqEnter
  repeat' first
    | with_reducible assumption | with_reducible apply modFrame_keeps | with_reducible apply swcOffDrop_keeps
    | with_reducible apply destOffDrop_keeps | with_reducible apply raiseC_keeps | with_reducible apply count_keeps
    | with_reducible apply dropFrame_keeps | with_reducible apply guardCheck_keeps | with_reducible apply raise_keeps
    | with_reducible apply enqueue_keeps | with_reducible apply ecnRule_keeps | with_reducible apply foldl_keeps | split
    | dsimp only | intro _ _ _ | intro _ _ | intro _ | (with_reducible refine Keeps.mk_over ?_ rfl rfl rfl rfl rfl rfl)

theorem mirrorEnter_keeps {r : State} {i : Nat} {s : State} (hs : Keeps r s) :
    Keeps r (mirrorEnter i s) := by
  unfold mirrorEnter
  repeat' first
    | with_reducible assumption | with_reducible apply newFrame_keeps | with_reducible apply modFrame_keeps
    | with_reducible apply putVoq_keeps | with_reducible apply foldl_keeps | split | dsimp only | intro _ _ _ | intro _ _
    | intro _ | (refine Keeps.snd ?_ ‹_›) | (with_reducible refine Keeps.mk_over ?_ rfl rfl rfl rfl rfl rfl)

theorem releaseTags_keeps {r : State} {d : Nat} {s : State} (hs : Keeps r s) :
    Keeps r (releaseTags d s) := by
  unfold releaseTags
  repeat' first
    | with_reducible assumption | with_reducible apply foldOver_keeps | with_reducible apply putTag_keeps
    | with_reducible apply foldl_keeps | split | dsimp only | intro _ _ _ | intro _ _ | intro _
    | (with_reducible refine Keeps.mk_over ?_ rfl rfl rfl rfl rfl rfl)

theorem deferredCheck_keeps {r : State} {d : Nat} {s : State} (hs : Keeps r s) :
    Keeps r (deferredCheck d s) := by
  unfold deferredCheck
  repeat' first
    | with_reducible assumption | with_reducible apply foldOver_keeps | with_reducible apply count_keeps | split | dsimp only
    | intro _ _ _ | intro _ _ | intro _ | (with_reducible refine Keeps.mk_over ?_ rfl rfl rfl rfl rfl rfl)

theorem giveFrame_keeps {r : State} {f : Frame} {d : Nat} {c : Nat} {s : State} (hs : Keeps r s) :
    Keeps r (giveFrame f d c s) := by
  unfold giveFrame
  repeat' first
    | with_reducible assumption | with_reducible apply putVtime_keeps | with_reducible apply putDest_keeps | split | dsimp only
    | intro _ _ _ | intro _ _ | intro _ | (with_reducible refine Keeps.mk_over ?_ rfl rfl rfl rfl rfl rfl)

theorem chargeFrame_keeps {r : State} {d : Nat} {c : Nat} {len : Nat} {s : State} (hs : Keeps r s) :
    Keeps r (chargeFrame d c len s) := by
  unfold chargeFrame
  repeat' first
    | with_reducible assumption | with_reducible apply chargeShaper_keeps | with_reducible apply putTag_keeps | split
    | dsimp only | intro _ _ _ | intro _ _ | intro _ | (with_reducible refine Keeps.mk_over ?_ rfl rfl rfl rfl rfl rfl)

theorem beginFrame_keeps {r : State} {i : Nat} {g : Nat} {d : Nat} {c : Nat} {s : State} (hs : Keeps r s) :
    Keeps r (beginFrame i g d c s) := by
  unfold beginFrame
  repeat' first
    | with_reducible assumption | with_reducible apply giveFrame_keeps | with_reducible apply modDest_keeps
    | with_reducible apply measure_keeps | split | dsimp only | intro _ _ _ | intro _ _ | intro _
    | (with_reducible refine Keeps.mk_over ?_ rfl rfl rfl rfl rfl rfl)

theorem finishFrame_keeps {r : State} {i : Nat} {g : Nat} {d : Nat} {c : Nat} {s : State} (hs : Keeps r s) :
    Keeps r (finishFrame i g d c s) := by
  unfold finishFrame
  repeat' first
    | with_reducible assumption | with_reducible apply chargeFrame_keeps | with_reducible apply modDest_keeps
    | with_reducible apply putVoq_keeps | with_reducible apply modFrame_keeps | with_reducible apply advanceCells_keeps | split
    | dsimp only | intro _ _ _ | intro _ _ | intro _ | (with_reducible refine Keeps.mk_over ?_ rfl rfl rfl rfl rfl rfl)

theorem descriptorOf_keeps {r : State} {f : Frame} {slot : Nat} {s : State} (hs : Keeps r s) :
    Keeps r (descriptorOf f slot s).2 := by
  unfold descriptorOf
  repeat' first
    | with_reducible assumption | with_reducible apply takeFree_keeps | split | dsimp only | intro _ _ _ | intro _ _ | intro _
    | (with_reducible refine Keeps.mk_over ?_ rfl rfl rfl rfl rfl rfl)

theorem openFrame_keeps {r : State} {i : Nat} {g : Nat} {d : Nat} {c : Nat} {x : XCell} {s : State} (hs : Keeps r s) :
    Keeps r (openFrame i g d c x s).2 := by
  unfold openFrame
  repeat' first
    | with_reducible assumption | with_reducible apply descriptorOf_keeps | with_reducible apply beginFrame_keeps | split
    | dsimp only | intro _ _ _ | intro _ _ | intro _ | (with_reducible refine Keeps.mk_over ?_ rfl rfl rfl rfl rfl rfl)

theorem packCell_keeps {r : State} {g d c n : Nat} {x : XCell} {s : State} (hs : Keeps r s) : Keeps r (packCell g d c n x s).2 := by
  induction n generalizing x s with
  | zero => exact hs
  | succ n ih =>
    unfold packCell
    repeat' first
      | with_reducible assumption | with_reducible apply ih | with_reducible apply finishFrame_keeps
      | with_reducible apply modFrame_keeps | with_reducible apply openFrame_keeps | with_reducible apply advanceCells_keeps
      | split | dsimp only

theorem crossCell_keeps {r : State} {g : Nat} {d : Nat} {c : Nat} {s : State} (hs : Keeps r s) :
    Keeps r (crossCell g d c s) := by
  unfold crossCell
  repeat' first
    | with_reducible assumption | with_reducible apply packCell_keeps | with_reducible apply modDest_keeps
    | with_reducible apply refreshActive_keeps | with_reducible apply count_keeps | split | dsimp only | intro _ _ _ | intro _ _
    | intro _ | (with_reducible refine Keeps.mk_over ?_ rfl rfl rfl rfl rfl rfl)

theorem serveCopy_keeps {r : State} {d : Nat} {c : Nat} {s : State} (hs : Keeps r s) :
    Keeps r (serveCopy d c s) := by
  unfold serveCopy
  repeat' first
    | with_reducible assumption | with_reducible apply giveFrame_keeps | with_reducible apply modDest_keeps
    | with_reducible apply refreshActive_keeps | with_reducible apply chargeFrame_keeps | split | dsimp only | intro _ _ _
    | intro _ _ | intro _ | (with_reducible refine Keeps.mk_over ?_ rfl rfl rfl rfl rfl rfl)

theorem movePointers_keeps {r : State} {r0 : Req} {s : State} (hs : Keeps r s) :
    Keeps r (movePointers r0 s) := by
  unfold movePointers
  repeat' first
    | with_reducible assumption | with_reducible apply modDest_keeps | with_reducible apply foldl_keeps | split | dsimp only
    | intro _ _ _ | intro _ _ | intro _ | (with_reducible refine Keeps.mk_over ?_ rfl rfl rfl rfl rfl rfl)

theorem matchEpoch_keeps {r : State} {rs : List Req} {s : State} (hs : Keeps r s) :
    Keeps r (matchEpoch rs s).2 := by
  unfold matchEpoch
  try dsimp only
  repeat' first
    | split | with_reducible assumption | with_reducible apply foldOver_keeps | with_reducible apply movePointers_keeps
    | with_reducible apply foldl_keeps | dsimp only | intro _ _ _ | intro _ _ | intro _
    | (with_reducible refine Keeps.mk_over ?_ rfl rfl rfl rfl rfl rfl)

theorem showStated_keeps {r : State} {d : Nat} {c : Option Nat} {s : State} (hs : Keeps r s) :
    Keeps r (showStated d c s) := by
  unfold showStated
  repeat' first
    | with_reducible assumption | with_reducible apply wrC_keeps | with_reducible apply foldl_keeps | split | dsimp only
    | intro _ _ _ | intro _ _ | intro _ | (with_reducible refine Keeps.mk_over ?_ rfl rfl rfl rfl rfl rfl)

theorem freePoisoned_keeps {r : State} {s : State} (hs : Keeps r s) :
    Keeps r (freePoisoned s) := by
  unfold freePoisoned
  repeat' first
    | with_reducible assumption | with_reducible apply foldOver_keeps | with_reducible apply dropFrame_keeps
    | with_reducible apply satX_keeps | with_reducible apply foldl_keeps | split | dsimp only | intro _ _ _ | intro _ _
    | intro _ | (with_reducible refine Keeps.mk_over ?_ rfl rfl rfl rfl rfl rfl)

theorem cellEpoch_keeps {r : State} {s : State} (hs : Keeps r s) :
    Keeps r (cellEpoch s) := by
  unfold cellEpoch
  repeat' first
    | with_reducible assumption | with_reducible apply freePoisoned_keeps | with_reducible apply foldOver_keeps
    | with_reducible apply deferredCheck_keeps | with_reducible apply releaseTags_keeps | with_reducible apply showStated_keeps
    | with_reducible apply matchEpoch_keeps | with_reducible apply serveCopy_keeps | with_reducible apply crossCell_keeps
    | with_reducible apply count_keeps | split | dsimp only | intro _ _ _ | intro _ _ | intro _
    | (with_reducible refine Keeps.mk_over ?_ rfl rfl rfl rfl rfl rfl)

theorem execCellEpoch_keeps {r : State} {s : State} (hs : Keeps r s) :
    OutKeeps r (execCellEpoch s) := by
  unfold execCellEpoch
  repeat' first
    | with_reducible assumption | with_reducible apply guarded_keeps | with_reducible apply OutKeeps.next
    | exact OutKeeps.refused _ | exact OutKeeps.fault _ | with_reducible apply cellEpoch_keeps
    | with_reducible apply foldl_keeps | split | dsimp only | intro _ _ _ | intro _ _ | intro _
    | (with_reducible refine Keeps.mk_over ?_ rfl rfl rfl rfl rfl rfl)

theorem creditReturn_keeps {r : State} {d : Nat} {s : State} (hs : Keeps r s) :
    Keeps r (creditReturn d s) := by
  unfold creditReturn
  repeat' first
    | with_reducible assumption | with_reducible apply modDest_keeps | split | dsimp only | intro _ _ _ | intro _ _ | intro _
    | (with_reducible refine Keeps.mk_over ?_ rfl rfl rfl rfl rfl rfl)

theorem execCreditReturn_keeps {r : State} {d : Nat} {s : State} (hs : Keeps r s) :
    OutKeeps r (execCreditReturn d s) := by
  unfold execCreditReturn
  repeat' first
    | with_reducible assumption | with_reducible apply guarded_keeps | with_reducible apply OutKeeps.next
    | exact OutKeeps.refused _ | exact OutKeeps.fault _ | with_reducible apply creditReturn_keeps
    | with_reducible apply foldl_keeps | split | dsimp only | intro _ _ _ | intro _ _ | intro _
    | (with_reducible refine Keeps.mk_over ?_ rfl rfl rfl rfl rfl rfl)

theorem voqAgeDrop_keeps {r : State} {g : Nat} {d : Nat} {c : Nat} {n : Nat} {s : State} (hs : Keeps r s) :
    Keeps r (voqAgeDrop g d c n s) := by
  unfold voqAgeDrop
  repeat' first
    | with_reducible assumption | with_reducible apply count_keeps | with_reducible apply raise_keeps
    | with_reducible apply dropFrame_keeps | with_reducible apply foldl_keeps | split | dsimp only | intro _ _ _ | intro _ _
    | intro _ | (with_reducible refine Keeps.mk_over ?_ rfl rfl rfl rfl rfl rfl)

theorem execVoqAgeDrop_keeps {r : State} {g : Nat} {d : Nat} {c : Nat} {n : Nat} {s : State} (hs : Keeps r s) :
    OutKeeps r (execVoqAgeDrop g d c n s) := by
  unfold execVoqAgeDrop
  repeat' first
    | with_reducible assumption | with_reducible apply guarded_keeps | with_reducible apply OutKeeps.next
    | exact OutKeeps.refused _ | exact OutKeeps.fault _ | with_reducible apply voqAgeDrop_keeps
    | with_reducible apply foldl_keeps | split | dsimp only | intro _ _ _ | intro _ _ | intro _
    | (with_reducible refine Keeps.mk_over ?_ rfl rfl rfl rfl rfl rfl)

theorem dropQueued_keeps {r : State} {s : State} (hs : Keeps r s) :
    Keeps r (dropQueued s) := by
  unfold dropQueued
  repeat' first
    | with_reducible assumption | with_reducible apply foldOver_keeps | with_reducible apply dropFrame_keeps
    | with_reducible apply count_keeps | split | dsimp only | intro _ _ _ | intro _ _ | intro _
    | (with_reducible refine Keeps.mk_over ?_ rfl rfl rfl rfl rfl rfl)

theorem swcStarting_keeps {r : State} {s : State} (hs : Keeps r s) :
    Keeps r (swcStarting s) := by
  unfold swcStarting
  repeat' first
    | with_reducible assumption | with_reducible apply foldOver_keeps | with_reducible apply dropUse_keeps | split | dsimp only
    | intro _ _ _ | intro _ _ | intro _ | (with_reducible refine Keeps.mk_over ?_ rfl rfl rfl rfl rfl rfl)

end Sys2Proof.Machine
end

