-- ==== Sys2Proof/Laws/TablesKeeps.lean ====
section
/-! SUPPORT. Every operation of Machine/Tables.lean keeps what `Keeps` speaks of. -/

-- The alternatives of each proof's `first` are the same list; not every alternative is used in every proof.
set_option linter.unreachableTactic false
set_option linter.unusedTactic false

namespace Sys2Proof.Machine

theorem putL2_keeps {r : State} {i : Nat} {e : L2Entry} {s : State} (hs : Keeps r s) :
    Keeps r (putL2 i e s) := by
  unfold putL2
  repeat' first
    | with_reducible assumption | with_reducible apply foldl_keeps | split | dsimp only | intro _ _ _ | intro _ _ | intro _
    | (with_reducible refine Keeps.mk_over ?_ rfl rfl rfl rfl rfl rfl)

theorem l2Stat_keeps {r : State} {k : Nat} {s : State} (hs : Keeps r s) :
    Keeps r (l2Stat k s) := by
  unfold l2Stat
  repeat' first
    | with_reducible assumption | with_reducible apply sat1_keeps | with_reducible apply satX_keeps
    | with_reducible apply foldl_keeps | split | dsimp only | intro _ _ _ | intro _ _ | intro _
    | (with_reducible refine Keeps.mk_over ?_ rfl rfl rfl rfl rfl rfl)

theorem l2Replace_keeps {r : State} {i : Nat} {e : L2Entry} {s : State} (hs : Keeps r s) :
    Keeps r (l2Replace i e s) := by
  unfold l2Replace
  repeat' first
    | with_reducible assumption | with_reducible apply wrC_keeps | with_reducible apply wr_keeps
    | with_reducible apply putL2_keeps | with_reducible apply foldl_keeps | split | dsimp only | intro _ _ _ | intro _ _
    | intro _ | (with_reducible refine Keeps.mk_over ?_ rfl rfl rfl rfl rfl rfl)

theorem noteDropped_keeps {r : State} {s : State} (hs : Keeps r s) :
    Keeps r (noteDropped s) := by
  unfold noteDropped
  repeat' first
    | with_reducible assumption | with_reducible apply raise_keeps | with_reducible apply l2Stat_keeps
    | with_reducible apply foldl_keeps | split | dsimp only | intro _ _ _ | intro _ _ | intro _
    | (with_reducible refine Keeps.mk_over ?_ rfl rfl rfl rfl rfl rfl)

theorem putNote_keeps {r : State} {n : Nat} {s : State} (hs : Keeps r s) :
    Keeps r (putNote n s) := by
  unfold putNote
  repeat' first
    | with_reducible assumption | with_reducible apply emit_keeps | with_reducible apply foldl_keeps | split | dsimp only
    | intro _ _ _ | intro _ _ | intro _ | (with_reducible refine Keeps.mk_over ?_ rfl rfl rfl rfl rfl rfl)

theorem withNote_keeps {r : State} {n : Nat} {change : State → State} {s : State} (hchange : ∀ x0, Keeps r x0 → Keeps r (change x0)) (hs : Keeps r s) :
    Keeps r (withNote n change s) := by
  unfold withNote
  repeat' first
    | with_reducible assumption | with_reducible apply hchange | with_reducible apply putNote_keeps
    | with_reducible apply noteDropped_keeps | with_reducible apply foldl_keeps | split | dsimp only | intro _ _ _ | intro _ _
    | intro _ | (with_reducible refine Keeps.mk_over ?_ rfl rfl rfl rfl rfl rfl)

theorem noteOnly_keeps {r : State} {n : Nat} {s : State} (hs : Keeps r s) :
    Keeps r (noteOnly n s) := by
  unfold noteOnly
  repeat' first
    | with_reducible assumption | with_reducible apply withNote_keeps | with_reducible apply foldl_keeps | split | dsimp only
    | intro _ _ _ | intro _ _ | intro _ | (with_reducible refine Keeps.mk_over ?_ rfl rfl rfl rfl rfl rfl)

theorem noteOnce_keeps {r : State} {fid : Nat} {mac : Nat} {n : Nat} {s : State} (hs : Keeps r s) :
    Keeps r (noteOnce fid mac n s) := by
  unfold noteOnce
  repeat' first
    | with_reducible assumption | with_reducible apply noteOnly_keeps | split | dsimp only | intro _ _ _ | intro _ _ | intro _
    | (with_reducible refine Keeps.mk_over ?_ rfl rfl rfl rfl rfl rfl)

theorem limitRefused_keeps {r : State} {p : Nat} {fid : Nat} {mac : Nat} {index : Nat} {s : State} (hs : Keeps r s) :
    Keeps r (limitRefused p fid mac index s) := by
  unfold limitRefused
  repeat' first
    | with_reducible assumption | with_reducible apply noteOnly_keeps | with_reducible apply raise_keeps
    | with_reducible apply l2Stat_keeps | split | dsimp only | intro _ _ _ | intro _ _ | intro _
    | (with_reducible refine Keeps.mk_over ?_ rfl rfl rfl rfl rfl rfl)

theorem applyRefresh_keeps {r : State} {i : Nat} {s : State} (hs : Keeps r s) :
    Keeps r (applyRefresh i s) := by
  unfold applyRefresh
  repeat' first
    | with_reducible assumption | with_reducible apply putL2_keeps | split | dsimp only | intro _ _ _ | intro _ _ | intro _
    | (with_reducible refine Keeps.mk_over ?_ rfl rfl rfl rfl rfl rfl)

theorem staticMove_keeps {r : State} {i : Nat} {port : Nat} {fid : Nat} {mac : Nat} {s : State} (hs : Keeps r s) :
    Keeps r (staticMove i port fid mac s) := by
  unfold staticMove
  repeat' first
    | with_reducible assumption | with_reducible apply noteOnly_keeps | with_reducible apply raise_keeps
    | with_reducible apply l2Stat_keeps | split | dsimp only | intro _ _ _ | intro _ _ | intro _
    | (with_reducible refine Keeps.mk_over ?_ rfl rfl rfl rfl rfl rfl)

theorem applyMove_keeps {r : State} {i : Nat} {port : Nat} {fid : Nat} {mac : Nat} {s : State} (hs : Keeps r s) :
    Keeps r (applyMove i port fid mac s) := by
  unfold applyMove
  repeat' first
    | with_reducible assumption | with_reducible apply applyRefresh_keeps | with_reducible apply staticMove_keeps
    | with_reducible apply limitRefused_keeps | with_reducible apply withNote_keeps | with_reducible apply l2Stat_keeps
    | with_reducible apply l2Replace_keeps | split | dsimp only | intro _ _ _ | intro _ _ | intro _
    | (with_reducible refine Keeps.mk_over ?_ rfl rfl rfl rfl rfl rfl)

theorem applyLearn_keeps {r : State} {port : Nat} {fid : Nat} {mac : Nat} {s : State} (hs : Keeps r s) :
    Keeps r (applyLearn port fid mac s) := by
  unfold applyLearn
  repeat' first
    | with_reducible assumption | with_reducible apply applyMove_keeps | with_reducible apply limitRefused_keeps
    | with_reducible apply noteOnly_keeps | with_reducible apply raise_keeps | with_reducible apply l2Stat_keeps
    | with_reducible apply withNote_keeps | with_reducible apply l2Replace_keeps | split | dsimp only | intro _ _ _ | intro _ _
    | intro _ | (with_reducible refine Keeps.mk_over ?_ rfl rfl rfl rfl rfl rfl)

theorem applyRetire_keeps {r : State} {i : Nat} {s : State} (hs : Keeps r s) :
    Keeps r (applyRetire i s) := by
  unfold applyRetire
  repeat' first
    | with_reducible assumption | with_reducible apply withNote_keeps | with_reducible apply l2Stat_keeps
    | with_reducible apply l2Replace_keeps | with_reducible apply foldl_keeps | split | dsimp only | intro _ _ _ | intro _ _
    | intro _ | (with_reducible refine Keeps.mk_over ?_ rfl rfl rfl rfl rfl rfl)

theorem l2Answer_keeps {r : State} {c : Nat} {index : Nat} {result : Nat} {s : State} (hs : Keeps r s) :
    Keeps r (l2Answer c index result s) := by
  unfold l2Answer
  repeat' first
    | with_reducible assumption | with_reducible apply wrC_keeps | with_reducible apply foldl_keeps | split | dsimp only
    | intro _ _ _ | intro _ _ | intro _ | (with_reducible refine Keeps.mk_over ?_ rfl rfl rfl rfl rfl rfl)

theorem applyHostWrite_keeps {r : State} {c : Nat} {x : L2Entry} {s : State} (hs : Keeps r s) :
    Keeps r (applyHostWrite c x s) := by
  unfold applyHostWrite
  repeat' first
    | with_reducible assumption | with_reducible apply l2Answer_keeps | with_reducible apply l2Replace_keeps | split
    | dsimp only | intro _ _ _ | intro _ _ | intro _ | (with_reducible refine Keeps.mk_over ?_ rfl rfl rfl rfl rfl rfl)

theorem applyHostDelete_keeps {r : State} {c : Nat} {fid : Nat} {mac : Nat} {s : State} (hs : Keeps r s) :
    Keeps r (applyHostDelete c fid mac s) := by
  unfold applyHostDelete
  repeat' first
    | with_reducible assumption | with_reducible apply wrC_keeps | with_reducible apply l2Answer_keeps
    | with_reducible apply l2Replace_keeps | split | dsimp only | intro _ _ _ | intro _ _ | intro _
    | (with_reducible refine Keeps.mk_over ?_ rfl rfl rfl rfl rfl rfl)

theorem applyLost_keeps {r : State} {i : Nat} {s : State} (hs : Keeps r s) :
    Keeps r (applyLost i s) := by
  unfold applyLost
  repeat' first
    | with_reducible assumption | with_reducible apply noteOnly_keeps | with_reducible apply l2Replace_keeps | split
    | dsimp only | intro _ _ _ | intro _ _ | intro _ | (with_reducible refine Keeps.mk_over ?_ rfl rfl rfl rfl rfl rfl)

theorem l2Discard_keeps {r : State} {ch : L2Change} {s : State} (hs : Keeps r s) :
    Keeps r (l2Discard ch s) := by
  unfold l2Discard
  repeat' first
    | with_reducible assumption | with_reducible apply l2Answer_keeps | with_reducible apply l2Stat_keeps
    | with_reducible apply retire_keeps | split | dsimp only | intro _ _ _ | intro _ _ | intro _
    | (with_reducible refine Keeps.mk_over ?_ rfl rfl rfl rfl rfl rfl)

theorem l2tForced_keeps {r : State} {s : State} (hs : Keeps r s) :
    Keeps r (l2tForced s) := by
  unfold l2tForced
  repeat' first
    | with_reducible assumption | with_reducible apply foldOver_keeps | with_reducible apply l2Discard_keeps | split
    | dsimp only | intro _ _ _ | intro _ _ | intro _ | (with_reducible refine Keeps.mk_over ?_ rfl rfl rfl rfl rfl rfl)

theorem applyL2_keeps {r : State} {ch : L2Change} {s : State} (hs : Keeps r s) :
    Keeps r (applyL2 ch s) := by
  unfold applyL2
  repeat' first
    | with_reducible assumption | with_reducible apply applyLearn_keeps | with_reducible apply applyRefresh_keeps
    | with_reducible apply applyMove_keeps | with_reducible apply retire_keeps | with_reducible apply applyRetire_keeps
    | with_reducible apply applyHostWrite_keeps | with_reducible apply applyHostDelete_keeps
    | with_reducible apply applyLost_keeps | split | dsimp only | intro _ _ _ | intro _ _ | intro _
    | (with_reducible refine Keeps.mk_over ?_ rfl rfl rfl rfl rfl rfl)

theorem feedScan_keeps {r : State} {s : State} (hs : Keeps r s) :
    Keeps r (feedScan s) := by
  unfold feedScan
  repeat' first
    | with_reducible assumption | split | dsimp only | intro _ _ _ | intro _ _ | intro _
    | (with_reducible refine Keeps.mk_over ?_ rfl rfl rfl rfl rfl rfl)

theorem execL2UpdateApply_keeps {r : State} {s : State} (hs : Keeps r s) :
    OutKeeps r (execL2UpdateApply s) := by
  unfold execL2UpdateApply
  repeat' first
    | with_reducible assumption | with_reducible apply guarded_keeps | with_reducible apply OutKeeps.next
    | exact OutKeeps.refused _ | exact OutKeeps.fault _ | with_reducible apply feedScan_keeps
    | with_reducible apply applyL2_keeps | split | dsimp only | intro _ _ _ | intro _ _ | intro _
    | (with_reducible refine Keeps.mk_over ?_ rfl rfl rfl rfl rfl rfl)

theorem settleL2_keeps {r : State} {s : State} (hs : Keeps r s) :
    Keeps r (settleL2 s) := by
  unfold settleL2
  repeat' first
    | with_reducible assumption | with_reducible apply foldOver_keeps | with_reducible apply applyL2_keeps | split | dsimp only
    | intro _ _ _ | intro _ _ | intro _ | (with_reducible refine Keeps.mk_over ?_ rfl rfl rfl rfl rfl rfl)

theorem enqueueL2_keeps {r : State} {ch : L2Change} {s : State} (hs : Keeps r s) :
    Keeps r (enqueueL2 ch s) := by
  unfold enqueueL2
  repeat' first
    | with_reducible assumption | with_reducible apply foldl_keeps | split | dsimp only | intro _ _ _ | intro _ _ | intro _
    | (with_reducible refine Keeps.mk_over ?_ rfl rfl rfl rfl rfl rfl)

theorem offerL2_keeps {r : State} {ch : L2Change} {s : State} (hs : Keeps r s) :
    Keeps r (offerL2 ch s) := by
  unfold offerL2
  repeat' first
    | with_reducible assumption | with_reducible apply enqueueL2_keeps | with_reducible apply raise_keeps
    | with_reducible apply l2Stat_keeps | with_reducible apply foldl_keeps | split | dsimp only | intro _ _ _ | intro _ _
    | intro _ | (with_reducible refine Keeps.mk_over ?_ rfl rfl rfl rfl rfl rfl)

theorem l2AgingTick_keeps {r : State} {s : State} (hs : Keeps r s) :
    Keeps r (l2AgingTick s) := by
  unfold l2AgingTick
  repeat' first
    | with_reducible assumption | with_reducible apply feedScan_keeps | split | dsimp only | intro _ _ _ | intro _ _ | intro _
    | (with_reducible refine Keeps.mk_over ?_ rfl rfl rfl rfl rfl rfl)

theorem execL2AgingTick_keeps {r : State} {s : State} (hs : Keeps r s) :
    OutKeeps r (execL2AgingTick s) := by
  unfold execL2AgingTick
  repeat' first
    | with_reducible assumption | with_reducible apply guarded_keeps | with_reducible apply OutKeeps.next
    | exact OutKeeps.refused _ | exact OutKeeps.fault _ | with_reducible apply l2AgingTick_keeps
    | with_reducible apply foldl_keeps | split | dsimp only | intro _ _ _ | intro _ _ | intro _
    | (with_reducible refine Keeps.mk_over ?_ rfl rfl rfl rfl rfl rfl)

theorem execLearnTokenGain_keeps {r : State} {s : State} (hs : Keeps r s) :
    OutKeeps r (execLearnTokenGain s) := by
  unfold execLearnTokenGain
  repeat' first
    | with_reducible assumption | with_reducible apply guarded_keeps | with_reducible apply OutKeeps.next
    | exact OutKeeps.refused _ | exact OutKeeps.fault _ | with_reducible apply foldl_keeps | split | dsimp only | intro _ _ _
    | intro _ _ | intro _ | (with_reducible refine Keeps.mk_over ?_ rfl rfl rfl rfl rfl rfl)

theorem l2ShowData_keeps {r : State} {c : Nat} {e : L2Entry} {s : State} (hs : Keeps r s) :
    Keeps r (l2ShowData c e s) := by
  unfold l2ShowData
  repeat' first
    | with_reducible assumption | with_reducible apply wrC_keeps | with_reducible apply foldl_keeps | split | dsimp only
    | intro _ _ _ | intro _ _ | intro _ | (with_reducible refine Keeps.mk_over ?_ rfl rfl rfl rfl rfl rfl)

theorem l2Lookup_keeps {r : State} {c : Nat} {s : State} (hs : Keeps r s) :
    Keeps r (l2Lookup c s) := by
  unfold l2Lookup
  repeat' first
    | with_reducible assumption | with_reducible apply l2Answer_keeps | with_reducible apply l2ShowData_keeps
    | with_reducible apply foldl_keeps | split | dsimp only | intro _ _ _ | intro _ _ | intro _
    | (with_reducible refine Keeps.mk_over ?_ rfl rfl rfl rfl rfl rfl)

theorem l2ReadIndex_keeps {r : State} {c : Nat} {index : Nat} {s : State} (hs : Keeps r s) :
    Keeps r (l2ReadIndex c index s) := by
  unfold l2ReadIndex
  repeat' first
    | with_reducible assumption | with_reducible apply l2Answer_keeps | with_reducible apply l2ShowData_keeps
    | with_reducible apply wrC_keeps | split | dsimp only | intro _ _ _ | intro _ _ | intro _
    | (with_reducible refine Keeps.mk_over ?_ rfl rfl rfl rfl rfl rfl)

theorem l2OpWrite_keeps {r : State} {w : Window} {v : Word} {s : State} (hs : Keeps r s) :
    Keeps r (l2OpWrite w v s) := by
  unfold l2OpWrite
  repeat' first
    | with_reducible assumption | with_reducible apply l2Lookup_keeps | with_reducible apply enqueueL2_keeps
    | with_reducible apply wrC_keeps | with_reducible apply l2ReadIndex_keeps | with_reducible apply accessError_keeps
    | with_reducible apply foldl_keeps | split | dsimp only | intro _ _ _ | intro _ _ | intro _
    | (with_reducible refine Keeps.mk_over ?_ rfl rfl rfl rfl rfl rfl)

theorem execL2LookupOp_keeps {r : State} {w : Window} {v : Word} {s : State} (hs : Keeps r s) :
    OutKeeps r (execL2LookupOp w v s) := by
  unfold execL2LookupOp
  repeat' first
    | with_reducible assumption | with_reducible apply guarded_keeps | with_reducible apply OutKeeps.next
    | exact OutKeeps.refused _ | exact OutKeeps.fault _ | with_reducible apply writing_keeps
    | with_reducible apply l2OpWrite_keeps | with_reducible apply foldl_keeps | split | dsimp only | intro _ _ _ | intro _ _
    | intro _ | (with_reducible refine Keeps.mk_over ?_ rfl rfl rfl rfl rfl rfl)

theorem execL2WriteOp_keeps {r : State} {w : Window} {v : Word} {s : State} (hs : Keeps r s) :
    OutKeeps r (execL2WriteOp w v s) := by
  unfold execL2WriteOp
  repeat' first
    | with_reducible assumption | with_reducible apply guarded_keeps | with_reducible apply OutKeeps.next
    | exact OutKeeps.refused _ | exact OutKeeps.fault _ | with_reducible apply writing_keeps
    | with_reducible apply l2OpWrite_keeps | with_reducible apply foldl_keeps | split | dsimp only | intro _ _ _ | intro _ _
    | intro _ | (with_reducible refine Keeps.mk_over ?_ rfl rfl rfl rfl rfl rfl)

theorem execL2DeleteOp_keeps {r : State} {w : Window} {v : Word} {s : State} (hs : Keeps r s) :
    OutKeeps r (execL2DeleteOp w v s) := by
  unfold execL2DeleteOp
  repeat' first
    | with_reducible assumption | with_reducible apply guarded_keeps | with_reducible apply OutKeeps.next
    | exact OutKeeps.refused _ | exact OutKeeps.fault _ | with_reducible apply writing_keeps
    | with_reducible apply l2OpWrite_keeps | with_reducible apply foldl_keeps | split | dsimp only | intro _ _ _ | intro _ _
    | intro _ | (with_reducible refine Keeps.mk_over ?_ rfl rfl rfl rfl rfl rfl)

theorem execL2ReadIndexOp_keeps {r : State} {w : Window} {v : Word} {s : State} (hs : Keeps r s) :
    OutKeeps r (execL2ReadIndexOp w v s) := by
  unfold execL2ReadIndexOp
  repeat' first
    | with_reducible assumption | with_reducible apply guarded_keeps | with_reducible apply OutKeeps.next
    | exact OutKeeps.refused _ | exact OutKeeps.fault _ | with_reducible apply writing_keeps
    | with_reducible apply l2OpWrite_keeps | with_reducible apply foldl_keeps | split | dsimp only | intro _ _ _ | intro _ _
    | intro _ | (with_reducible refine Keeps.mk_over ?_ rfl rfl rfl rfl rfl rfl)

theorem putPool_keeps {r : State} {i : Nat} {e : Nat} {s : State} (hs : Keeps r s) :
    Keeps r (putPool i e s) := by
  unfold putPool
  repeat' first
    | with_reducible assumption | with_reducible apply foldl_keeps | split | dsimp only | intro _ _ _ | intro _ _ | intro _
    | (with_reducible refine Keeps.mk_over ?_ rfl rfl rfl rfl rfl rfl)

theorem autoInc_keeps {r : State} {idx : Fld} {inc : Fld} {c : Nat} {s : State} (hs : Keeps r s) :
    Keeps r (autoInc idx inc c s) := by
  unfold autoInc
  repeat' first
    | with_reducible assumption | with_reducible apply wrC_keeps | with_reducible apply foldl_keeps | split | dsimp only
    | intro _ _ _ | intro _ _ | intro _ | (with_reducible refine Keeps.mk_over ?_ rfl rfl rfl rfl rfl rfl)

theorem nodeHiWrite_keeps {r : State} {w : Window} {v : Word} {s : State} (hs : Keeps r s) :
    Keeps r (nodeHiWrite w v s) := by
  unfold nodeHiWrite
  repeat' first
    | with_reducible assumption | with_reducible apply accessError_keeps | with_reducible apply autoInc_keeps
    | with_reducible apply putPool_keeps | with_reducible apply wrC_keeps | with_reducible apply foldl_keeps | split
    | dsimp only | intro _ _ _ | intro _ _ | intro _ | (with_reducible refine Keeps.mk_over ?_ rfl rfl rfl rfl rfl rfl)

theorem execNodeDataHiWrite_keeps {r : State} {w : Window} {v : Word} {s : State} (hs : Keeps r s) :
    OutKeeps r (execNodeDataHiWrite w v s) := by
  unfold execNodeDataHiWrite
  repeat' first
    | with_reducible assumption | with_reducible apply guarded_keeps | with_reducible apply OutKeeps.next
    | exact OutKeeps.refused _ | exact OutKeeps.fault _ | with_reducible apply writing_keeps
    | with_reducible apply nodeHiWrite_keeps | with_reducible apply foldl_keeps | split | dsimp only | intro _ _ _ | intro _ _
    | intro _ | (with_reducible refine Keeps.mk_over ?_ rfl rfl rfl rfl rfl rfl)

theorem nodeLoad_keeps {r : State} {w : Window} {s : State} (hs : Keeps r s) :
    Keeps r (nodeLoad w s) := by
  unfold nodeLoad
  repeat' first
    | with_reducible assumption | with_reducible apply putRead_keeps | with_reducible apply wrC_keeps
    | with_reducible apply foldl_keeps | split | dsimp only | intro _ _ _ | intro _ _ | intro _
    | (with_reducible refine Keeps.mk_over ?_ rfl rfl rfl rfl rfl rfl)

theorem execNodeEntryLoad_keeps {r : State} {w : Window} {s : State} (hs : Keeps r s) :
    OutKeeps r (execNodeEntryLoad w s) := by
  unfold execNodeEntryLoad
  repeat' first
    | with_reducible assumption | with_reducible apply guarded_keeps | with_reducible apply OutKeeps.next
    | exact OutKeeps.refused _ | exact OutKeeps.fault _ | with_reducible apply reading_keeps
    | with_reducible apply nodeLoad_keeps | with_reducible apply foldl_keeps | split | dsimp only | intro _ _ _ | intro _ _
    | intro _ | (with_reducible refine Keeps.mk_over ?_ rfl rfl rfl rfl rfl rfl)

theorem lpmFenceWrite_keeps {r : State} {v : Word} {s : State} (hs : Keeps r s) :
    Keeps r (lpmFenceWrite v s) := by
  unfold lpmFenceWrite
  repeat' first
    | with_reducible assumption | with_reducible apply wr_keeps | with_reducible apply foldl_keeps | split | dsimp only
    | intro _ _ _ | intro _ _ | intro _ | (with_reducible refine Keeps.mk_over ?_ rfl rfl rfl rfl rfl rfl)

theorem execLpmFence_keeps {r : State} {w : Window} {v : Word} {s : State} (hs : Keeps r s) :
    OutKeeps r (execLpmFence w v s) := by
  unfold execLpmFence
  repeat' first
    | with_reducible assumption | with_reducible apply guarded_keeps | with_reducible apply OutKeeps.next
    | exact OutKeeps.refused _ | exact OutKeeps.fault _ | with_reducible apply writing_keeps
    | with_reducible apply lpmFenceWrite_keeps | with_reducible apply foldl_keeps | split | dsimp only | intro _ _ _ | intro _ _
    | intro _ | (with_reducible refine Keeps.mk_over ?_ rfl rfl rfl rfl rfl rfl)

theorem execLpmFenceDone_keeps {r : State} {s : State} (hs : Keeps r s) :
    OutKeeps r (execLpmFenceDone s) := by
  unfold execLpmFenceDone
  repeat' first
    | with_reducible assumption | with_reducible apply guarded_keeps | with_reducible apply OutKeeps.next
    | exact OutKeeps.refused _ | exact OutKeeps.fault _ | with_reducible apply wr_keeps | with_reducible apply foldl_keeps
    | split | dsimp only | intro _ _ _ | intro _ _ | intro _ | (with_reducible refine Keeps.mk_over ?_ rfl rfl rfl rfl rfl rfl)

theorem putNh_keeps {r : State} {i : Nat} {e : Nat} {s : State} (hs : Keeps r s) :
    Keeps r (putNh i e s) := by
  unfold putNh
  repeat' first
    | with_reducible assumption | with_reducible apply foldl_keeps | split | dsimp only | intro _ _ _ | intro _ _ | intro _
    | (with_reducible refine Keeps.mk_over ?_ rfl rfl rfl rfl rfl rfl)

theorem nhWrite_keeps {r : State} {w : Window} {v : Word} {s : State} (hs : Keeps r s) :
    Keeps r (nhWrite w v s) := by
  unfold nhWrite
  repeat' first
    | with_reducible assumption | with_reducible apply accessError_keeps | with_reducible apply autoInc_keeps
    | with_reducible apply putNh_keeps | with_reducible apply wrC_keeps | with_reducible apply foldl_keeps | split | dsimp only
    | intro _ _ _ | intro _ _ | intro _ | (with_reducible refine Keeps.mk_over ?_ rfl rfl rfl rfl rfl rfl)

theorem execNhData3Write_keeps {r : State} {w : Window} {v : Word} {s : State} (hs : Keeps r s) :
    OutKeeps r (execNhData3Write w v s) := by
  unfold execNhData3Write
  repeat' first
    | with_reducible assumption | with_reducible apply guarded_keeps | with_reducible apply OutKeeps.next
    | exact OutKeeps.refused _ | exact OutKeeps.fault _ | with_reducible apply writing_keeps
    | with_reducible apply nhWrite_keeps | with_reducible apply foldl_keeps | split | dsimp only | intro _ _ _ | intro _ _
    | intro _ | (with_reducible refine Keeps.mk_over ?_ rfl rfl rfl rfl rfl rfl)

theorem nhLoad_keeps {r : State} {w : Window} {s : State} (hs : Keeps r s) :
    Keeps r (nhLoad w s) := by
  unfold nhLoad
  repeat' first
    | with_reducible assumption | with_reducible apply putRead_keeps | with_reducible apply wrC_keeps
    | with_reducible apply foldl_keeps | split | dsimp only | intro _ _ _ | intro _ _ | intro _
    | (with_reducible refine Keeps.mk_over ?_ rfl rfl rfl rfl rfl rfl)

theorem execNhEntryLoad_keeps {r : State} {w : Window} {s : State} (hs : Keeps r s) :
    OutKeeps r (execNhEntryLoad w s) := by
  unfold execNhEntryLoad
  repeat' first
    | with_reducible assumption | with_reducible apply guarded_keeps | with_reducible apply OutKeeps.next
    | exact OutKeeps.refused _ | exact OutKeeps.fault _ | with_reducible apply reading_keeps | with_reducible apply nhLoad_keeps
    | with_reducible apply foldl_keeps | split | dsimp only | intro _ _ _ | intro _ _ | intro _
    | (with_reducible refine Keeps.mk_over ?_ rfl rfl rfl rfl rfl rfl)

theorem putGroup_keeps {r : State} {g : Nat} {e : Nat} {s : State} (hs : Keeps r s) :
    Keeps r (putGroup g e s) := by
  unfold putGroup
  repeat' first
    | with_reducible assumption | with_reducible apply foldl_keeps | split | dsimp only | intro _ _ _ | intro _ _ | intro _
    | (with_reducible refine Keeps.mk_over ?_ rfl rfl rfl rfl rfl rfl)

theorem putMember_keeps {r : State} {i : Nat} {nh : Nat} {s : State} (hs : Keeps r s) :
    Keeps r (putMember i nh s) := by
  unfold putMember
  repeat' first
    | with_reducible assumption | with_reducible apply foldl_keeps | split | dsimp only | intro _ _ _ | intro _ _ | intro _
    | (with_reducible refine Keeps.mk_over ?_ rfl rfl rfl rfl rfl rfl)

theorem ecmpWrite_keeps {r : State} {w : Window} {v : Word} {s : State} (hs : Keeps r s) :
    Keeps r (ecmpWrite w v s) := by
  unfold ecmpWrite
  repeat' first
    | with_reducible assumption | with_reducible apply accessError_keeps | with_reducible apply autoInc_keeps
    | with_reducible apply putGroup_keeps | with_reducible apply wrC_keeps | split | dsimp only | intro _ _ _ | intro _ _
    | intro _ | (with_reducible refine Keeps.mk_over ?_ rfl rfl rfl rfl rfl rfl)

theorem execEcmpDataWrite_keeps {r : State} {w : Window} {v : Word} {s : State} (hs : Keeps r s) :
    OutKeeps r (execEcmpDataWrite w v s) := by
  unfold execEcmpDataWrite
  repeat' first
    | with_reducible assumption | with_reducible apply guarded_keeps | with_reducible apply OutKeeps.next
    | exact OutKeeps.refused _ | exact OutKeeps.fault _ | with_reducible apply writing_keeps
    | with_reducible apply ecmpWrite_keeps | with_reducible apply foldl_keeps | split | dsimp only | intro _ _ _ | intro _ _
    | intro _ | (with_reducible refine Keeps.mk_over ?_ rfl rfl rfl rfl rfl rfl)

theorem memberWrite_keeps {r : State} {w : Window} {v : Word} {s : State} (hs : Keeps r s) :
    Keeps r (memberWrite w v s) := by
  unfold memberWrite
  repeat' first
    | with_reducible assumption | with_reducible apply accessError_keeps | with_reducible apply autoInc_keeps
    | with_reducible apply putMember_keeps | with_reducible apply wrC_keeps | with_reducible apply foldl_keeps | split
    | dsimp only | intro _ _ _ | intro _ _ | intro _ | (with_reducible refine Keeps.mk_over ?_ rfl rfl rfl rfl rfl rfl)

theorem execMemberDataWrite_keeps {r : State} {w : Window} {v : Word} {s : State} (hs : Keeps r s) :
    OutKeeps r (execMemberDataWrite w v s) := by
  unfold execMemberDataWrite
  repeat' first
    | with_reducible assumption | with_reducible apply guarded_keeps | with_reducible apply OutKeeps.next
    | exact OutKeeps.refused _ | exact OutKeeps.fault _ | with_reducible apply writing_keeps
    | with_reducible apply memberWrite_keeps | with_reducible apply foldl_keeps | split | dsimp only | intro _ _ _ | intro _ _
    | intro _ | (with_reducible refine Keeps.mk_over ?_ rfl rfl rfl rfl rfl rfl)

theorem smacHiWrite_keeps {r : State} {i : Nat} {v : Word} {s : State} (hs : Keeps r s) :
    Keeps r (smacHiWrite i v s) := by
  unfold smacHiWrite
  repeat' first
    | with_reducible assumption | with_reducible apply wrX_keeps | with_reducible apply foldl_keeps | split | dsimp only
    | intro _ _ _ | intro _ _ | intro _ | (with_reducible refine Keeps.mk_over ?_ rfl rfl rfl rfl rfl rfl)

theorem execSmacHiWrite_keeps {r : State} {w : Window} {i : Nat} {v : Word} {s : State} (hs : Keeps r s) :
    OutKeeps r (execSmacHiWrite w i v s) := by
  unfold execSmacHiWrite
  repeat' first
    | with_reducible assumption | with_reducible apply guarded_keeps | with_reducible apply OutKeeps.next
    | exact OutKeeps.refused _ | exact OutKeeps.fault _ | with_reducible apply writing_keeps
    | with_reducible apply smacHiWrite_keeps | with_reducible apply foldl_keeps | split | dsimp only | intro _ _ _ | intro _ _
    | intro _ | (with_reducible refine Keeps.mk_over ?_ rfl rfl rfl rfl rfl rfl)

theorem statClear_keeps {r : State} {b : Block} {v : Word} {s : State} (hs : Keeps r s) :
    Keeps r (statClear b v s) := by
  unfold statClear
  repeat' first
    | with_reducible assumption | with_reducible apply foldOver_keeps | with_reducible apply putReg_keeps
    | with_reducible apply foldl_keeps | split | dsimp only | intro _ _ _ | intro _ _ | intro _
    | (with_reducible refine Keeps.mk_over ?_ rfl rfl rfl rfl rfl rfl)

theorem execStatClear_keeps {r : State} {w : Window} {b : Block} {v : Word} {s : State} (hs : Keeps r s) :
    OutKeeps r (execStatClear w b v s) := by
  unfold execStatClear
  repeat' first
    | with_reducible assumption | with_reducible apply guarded_keeps | with_reducible apply OutKeeps.next
    | exact OutKeeps.refused _ | exact OutKeeps.fault _ | with_reducible apply writing_keeps
    | with_reducible apply statClear_keeps | with_reducible apply foldl_keeps | split | dsimp only | intro _ _ _ | intro _ _
    | intro _ | (with_reducible refine Keeps.mk_over ?_ rfl rfl rfl rfl rfl rfl)

theorem lpmStat_keeps {r : State} {k : Nat} {s : State} (hs : Keeps r s) :
    Keeps r (lpmStat k s) := by
  unfold lpmStat
  repeat' first
    | with_reducible assumption | with_reducible apply satX_keeps | with_reducible apply foldl_keeps | split | dsimp only
    | intro _ _ _ | intro _ _ | intro _ | (with_reducible refine Keeps.mk_over ?_ rfl rfl rfl rfl rfl rfl)

theorem l2tCommitted_keeps {r : State} {old : State} {new : State} (_hold : Keeps r old) (hnew : Keeps r new) :
    Keeps r (l2tCommitted old new) := by
  unfold l2tCommitted
  repeat' first
    | with_reducible assumption | with_reducible apply foldl_keeps | split | dsimp only | intro _ _ _ | intro _ _ | intro _
    | (with_reducible refine Keeps.mk_over ?_ rfl rfl rfl rfl rfl rfl)

theorem loadL2Entry_keeps {r : State} {x : L2Entry} {o : Option State} (h : OptKeeps r o) : OptKeeps r (loadL2Entry x o) := by
  cases o with
  | none => exact OptKeeps.none
  | some s =>
    simp only [loadL2Entry]
    split
    · exact OptKeeps.none
    · split
      · exact OptKeeps.some (l2Replace_keeps (h s rfl))
      · intro t e
        obtain ⟨i, _, rfl⟩ := Option.map_eq_some_iff.mp e
        exact l2Replace_keeps (h s rfl)

theorem loadL2Blob_keeps {r : State} {bs : List Byte} {s : State} (hs : Keeps r s) : OptKeeps r (loadL2Blob bs s) := by
  simp only [loadL2Blob]
  split
  · exact OptKeeps.none
  · exact foldOver_optKeeps (fun _ _ h => loadL2Entry_keeps h) (OptKeeps.some (settleL2_keeps hs))

theorem loadNhBlob_keeps {r : State} {bs : List Byte} {s : State} (hs : Keeps r s) :
    OptKeeps r (loadNhBlob bs s) := by
  simp only [loadNhBlob]
  split
  · exact OptKeeps.none
  · refine foldOver_optKeeps (fun x o h => ?_) (OptKeeps.some hs)
    cases o with
    | none => exact OptKeeps.none
    | some a =>
      simp only
      split
      · exact OptKeeps.some (putNh_keeps (h a rfl))
      · exact OptKeeps.none

theorem loadEcmp_keeps {r : State} {n : Nat} {bs : List Byte} {s : State} (hs : Keeps r s) : OptKeeps r (loadEcmp n bs s) := by
  induction n generalizing bs s with
  | zero =>
    unfold loadEcmp
    split
    · exact OptKeeps.some hs
    · exact OptKeeps.none
  | succ n ih =>
    simp only [loadEcmp]
    split
    · exact OptKeeps.some hs
    · split
      · exact OptKeeps.none
      · exact ih (putGroup_keeps (Keeps.mk_over (foldOver_keeps (fun _ _ h => putMember_keeps h) hs) rfl rfl rfl rfl rfl rfl))

theorem loadEcmpBlob_keeps {r : State} {bs : List Byte} {s : State} (hs : Keeps r s) :
    OptKeeps r (loadEcmpBlob bs s) := by
  unfold loadEcmpBlob
  repeat' first
    | with_reducible assumption | with_reducible apply OptKeeps.getD | with_reducible apply OptKeeps.some | exact OptKeeps.none
    | with_reducible apply loadEcmp_keeps | with_reducible apply foldl_keeps | split | dsimp only | intro _ _ _ | intro _ _
    | intro _ | (refine OptKeeps.elim ?_ ‹_›) | (with_reducible refine Keeps.mk_over ?_ rfl rfl rfl rfl rfl rfl)

theorem buildNode_keeps {r : State} {rs : List Route} {width : Nat} {plan : List Nat} {pos addr base : Nat} {s : State}
    (hs : Keeps r s) : Keeps r (buildNode rs width plan pos addr base s) := by
  induction plan generalizing rs pos addr base s with
  | nil => exact hs
  | cons st plan ih =>
    unfold buildNode
    refine foldOver_keeps (fun i a h => ?_) hs
    simp only
    split
    · exact putPool_keeps (ih (Keeps.mk_over h rfl rfl rfl rfl rfl rfl))
    · exact putPool_keeps h

theorem buildVrf_keeps {r : State} {vrf : Nat} {family : Nat} {s : State} (hs : Keeps r s) :
    OptKeeps r (buildVrf vrf family s) := by
  simp only [buildVrf]
  split
  · exact OptKeeps.some (putPool_keeps hs)
  · split
    · exact OptKeeps.none
    · exact OptKeeps.some (putPool_keeps (buildNode_keeps (Keeps.mk_over hs rfl rfl rfl rfl rfl rfl)))

theorem rebuildAll_keeps {r : State} {s : State} (hs : Keeps r s) :
    OptKeeps r (rebuildAll s) := by
  refine foldOver_optKeeps (fun x o h => ?_) (OptKeeps.some (Keeps.mk_over hs rfl rfl rfl rfl rfl rfl))
  cases o with
  | none => exact OptKeeps.none
  | some a => exact buildVrf_keeps (h a rfl)

theorem buildRoutes_keeps {r : State} {vrf : Nat} {family : Nat} {s : State} (hs : Keeps r s) :
    OptKeeps r (buildRoutes vrf family s) := by
  unfold buildRoutes
  split
  · next t e => exact OptKeeps.some (buildVrf_keeps hs t e)
  · exact rebuildAll_keeps hs

theorem loadRouteBlob_keeps {r : State} {vrf : Nat} {bs : List Byte} {s : State} (hs : Keeps r s) :
    OptKeeps r (loadRouteBlob vrf bs s) := by
  simp only [loadRouteBlob]
  split
  · exact OptKeeps.none
  · split
    · exact OptKeeps.none
    · next t e => exact buildRoutes_keeps (buildRoutes_keeps (Keeps.mk_over hs rfl rfl rfl rfl rfl rfl) t e)

theorem l2tClear_keeps {r : State} {s : State} (hs : Keeps r s) :
    Keeps r (l2tClear s) := by
  unfold l2tClear
  repeat' first
    | with_reducible assumption | with_reducible apply foldl_keeps | split | dsimp only | intro _ _ _ | intro _ _ | intro _
    | (with_reducible refine Keeps.mk_over ?_ rfl rfl rfl rfl rfl rfl)

theorem lpmClear_keeps {r : State} {s : State} (hs : Keeps r s) :
    Keeps r (lpmClear s) := by
  unfold lpmClear
  repeat' first
    | with_reducible assumption | with_reducible apply foldl_keeps | split | dsimp only | intro _ _ _ | intro _ _ | intro _
    | (with_reducible refine Keeps.mk_over ?_ rfl rfl rfl rfl rfl rfl)

end Sys2Proof.Machine
end

