-- ==== Sys2Proof/Laws/EgressKeeps.lean ====
section
/-! SUPPORT. Every operation of Machine/Egress.lean keeps what `Keeps` speaks of. -/

-- The alternatives of each proof's `first` are the same list; not every alternative is used in every proof.
set_option linter.unreachableTactic false
set_option linter.unusedTactic false

namespace Sys2Proof.Machine

theorem takeSeq_keeps {r : State} {d : Nat} {s : State} (hs : Keeps r s) :
    Keeps r (takeSeq d s).2 := by
  unfold takeSeq
  try dsimp only
  repeat' first
    | split | with_reducible assumption | with_reducible apply wrC_keeps | with_reducible apply foldl_keeps | dsimp only
    | intro _ _ _ | intro _ _ | intro _ | (with_reducible refine Keeps.mk_over ?_ rfl rfl rfl rfl rfl rfl)

theorem countRed_keeps {r : State} {op : Nat} {d : Nat} {s : State} (hs : Keeps r s) :
    Keeps r (countRed op d s) := by
  unfold countRed
  repeat' first
    | with_reducible assumption | with_reducible apply portCount_keeps | with_reducible apply foldl_keeps | split | dsimp only
    | intro _ _ _ | intro _ _ | intro _ | (with_reducible refine Keeps.mk_over ?_ rfl rfl rfl rfl rfl rfl)

theorem modEg_keeps {r : State} {d : Nat} {i : Nat} {g : EgFrame → EgFrame} {s : State} (hs : Keeps r s) :
    Keeps r (modEg d i g s) := by
  unfold modEg
  repeat' first
    | with_reducible assumption | with_reducible apply modDest_keeps | with_reducible apply foldl_keeps | split | dsimp only
    | intro _ _ _ | intro _ _ | intro _ | (with_reducible refine Keeps.mk_over ?_ rfl rfl rfl rfl rfl rfl)

theorem partnerCopy_keeps {r : State} {i : Nat} {d : Nat} {p : EditPlan} {s : State} (hs : Keeps r s) :
    Keeps r (partnerCopy i d p s) := by
  unfold partnerCopy
  repeat' first
    | with_reducible assumption | with_reducible apply raiseC_keeps | with_reducible apply portCount_keeps
    | with_reducible apply modDest_keeps | with_reducible apply countRed_keeps | with_reducible apply refreshActive_keeps
    | split | dsimp only | intro _ _ _ | intro _ _ | intro _ | (with_reducible refine Keeps.mk_over ?_ rfl rfl rfl rfl rfl rfl)

theorem editFrame_keeps {r : State} {i : Nat} {d : Nat} {s : State} (hs : Keeps r s) :
    Keeps r (editFrame i d s) := by
  unfold editFrame
  repeat' first
    | with_reducible assumption | with_reducible apply modEg_keeps | with_reducible apply raiseC_keeps
    | with_reducible apply portCount_keeps | with_reducible apply takeSeq_keeps | with_reducible apply partnerCopy_keeps
    | with_reducible apply countRed_keeps | with_reducible apply foldl_keeps | split | dsimp only | intro _ _ _ | intro _ _
    | intro _ | (refine Keeps.snd ?_ ‹_›) | (with_reducible refine Keeps.mk_over ?_ rfl rfl rfl rfl rfl rfl)

theorem egressEdit_keeps {r : State} {d : Nat} {s : State} (hs : Keeps r s) :
    Keeps r (egressEdit d s) := by
  unfold egressEdit
  repeat' first
    | with_reducible assumption | with_reducible apply editFrame_keeps | with_reducible apply foldl_keeps | split | dsimp only
    | intro _ _ _ | intro _ _ | intro _ | (with_reducible refine Keeps.mk_over ?_ rfl rfl rfl rfl rfl rfl)

theorem execEgressEdit_keeps {r : State} {d : Nat} {s : State} (hs : Keeps r s) :
    OutKeeps r (execEgressEdit d s) := by
  unfold execEgressEdit
  repeat' first
    | with_reducible assumption | with_reducible apply guarded_keeps | with_reducible apply OutKeeps.next
    | exact OutKeeps.refused _ | exact OutKeeps.fault _ | with_reducible apply egressEdit_keeps
    | with_reducible apply foldl_keeps | split | dsimp only | intro _ _ _ | intro _ _ | intro _
    | (with_reducible refine Keeps.mk_over ?_ rfl rfl rfl rfl rfl rfl)

theorem corrected_keeps {r : State} {x : Int} {d : Nat} {s : State} (hs : Keeps r s) :
    Keeps r (corrected x d s).2 := by
  unfold corrected
  repeat' first
    | with_reducible assumption | with_reducible apply raiseC_keeps | with_reducible apply takeFree_keeps | split | dsimp only
    | intro _ _ _ | intro _ _ | intro _ | (with_reducible refine Keeps.mk_over ?_ rfl rfl rfl rfl rfl rfl)

theorem correctBy_keeps {r : State} {f : Frame} {o : Nat} {d : Nat} {k : Nat} {x : Int} {ps : List (Nat × List Byte)} {s : State} (hs : Keeps r s) :
    Keeps r (correctBy f o d k x ps s).2 :=
  corrected_keeps (count_keeps hs)

theorem ptpFromHost_keeps {r : State} {f : Frame} {o : Nat} {d : Nat} {time : Nat} {s : State} (hs : Keeps r s) :
    Keeps r (ptpFromHost f o d time s).2 := by
  unfold ptpFromHost
  extract_lets ty one s1
  have h1 : Keeps r s1 := by
    unfold s1; split
    · exact txStamp_keeps hs
    · exact hs
  clear_value s1
  split
  · exact correctBy_keeps h1
  · split
    · exact correctBy_keeps h1
    · split
      · exact corrected_keeps h1
      · exact h1

theorem ptpAtStart_keeps {r : State} {f : Frame} {d : Nat} {stamp : Nat} {time : Nat} {s : State} (hs : Keeps r s) :
    Keeps r (ptpAtStart f d stamp time s).2 := by
  unfold ptpAtStart
  try dsimp only
  repeat' first
    | split | with_reducible assumption | with_reducible apply raiseC_keeps | with_reducible apply count_keeps
    | with_reducible apply ptpFromHost_keeps | with_reducible apply correctBy_keeps | with_reducible apply foldl_keeps
    | dsimp only | intro _ _ _ | intro _ _ | intro _ | (refine Keeps.snd ?_ ‹_›)
    | (with_reducible refine Keeps.mk_over ?_ rfl rfl rfl rfl rfl rfl)

theorem leaveEg_keeps {r : State} {i : Nat} {d : Nat} {s : State} (hs : Keeps r s) :
    Keeps r (leaveEg i d s) := by
  unfold leaveEg
  repeat' first
    | with_reducible assumption | with_reducible apply refreshActive_keeps | with_reducible apply modDest_keeps
    | with_reducible apply removeFrame_keeps | split | dsimp only | intro _ _ _ | intro _ _ | intro _
    | (with_reducible refine Keeps.mk_over ?_ rfl rfl rfl rfl rfl rfl)

theorem tieStart_keeps {r : State} {e : EgFrame} {d : Nat} {s : State} (hs : Keeps r s) :
    Keeps r (tieStart e d s) := by
  unfold tieStart
  repeat' first
    | with_reducible assumption | with_reducible apply count_keeps | with_reducible apply modEg_keeps
    | with_reducible apply wrC_keeps | with_reducible apply foldl_keeps | split | dsimp only | intro _ _ _ | intro _ _ | intro _
    | (with_reducible refine Keeps.mk_over ?_ rfl rfl rfl rfl rfl rfl)

theorem portStart_keeps {r : State} {e : EgFrame} {d : Nat} {sub : Nat} {s : State} (hs : Keeps r s) :
    Keeps r (portStart e d sub s) := by
  unfold portStart
  repeat' first
    | with_reducible assumption | with_reducible apply count_keeps | with_reducible apply modEg_keeps
    | with_reducible apply ptpAtStart_keeps | split | dsimp only | intro _ _ _ | intro _ _ | intro _
    | (with_reducible refine Keeps.mk_over ?_ rfl rfl rfl rfl rfl rfl)

theorem noteLatency_keeps {r : State} {e : EgFrame} {d : Nat} {s : State} (hs : Keeps r s) :
    Keeps r (noteLatency e d s) := by
  unfold noteLatency
  repeat' first
    | with_reducible assumption | with_reducible apply measure_keeps | split | dsimp only | intro _ _ _ | intro _ _ | intro _
    | (with_reducible refine Keeps.mk_over ?_ rfl rfl rfl rfl rfl rfl)

theorem noteOverrun_keeps {r : State} {b : Bool} {d : Nat} {s : State} (hs : Keeps r s) :
    Keeps r (noteOverrun b d s) := by
  unfold noteOverrun
  repeat' first
    | with_reducible assumption | with_reducible apply raiseC_keeps | with_reducible apply count_keeps | split | dsimp only
    | intro _ _ _ | intro _ _ | intro _ | (with_reducible refine Keeps.mk_over ?_ rfl rfl rfl rfl rfl rfl)

theorem linkDiscard_keeps {r : State} {i : Nat} {d : Nat} {s : State} (hs : Keeps r s) :
    Keeps r (linkDiscard i d s) := by
  unfold linkDiscard
  repeat' first
    | with_reducible assumption | with_reducible apply leaveEg_keeps | with_reducible apply count_keeps
    | with_reducible apply foldl_keeps | split | dsimp only | intro _ _ _ | intro _ _ | intro _
    | (with_reducible refine Keeps.mk_over ?_ rfl rfl rfl rfl rfl rfl)

theorem txFrameStart_keeps {r : State} {d : Nat} {sub : Nat} {s : State} (hs : Keeps r s) :
    Keeps r (txFrameStart d sub s) := by
  unfold txFrameStart
  repeat' first
    | with_reducible assumption | with_reducible apply linkDiscard_keeps | with_reducible apply onlyIf_keeps
    | with_reducible apply leaveEg_keeps | with_reducible apply tieStart_keeps | with_reducible apply portStart_keeps | split
    | dsimp only | intro _ _ _ | intro _ _ | intro _ | (with_reducible refine Keeps.mk_over ?_ rfl rfl rfl rfl rfl rfl)

theorem execTxFrameStart_keeps {r : State} {d : Nat} {sub : Nat} {s : State} (hs : Keeps r s) :
    OutKeeps r (execTxFrameStart d sub s) := by
  unfold execTxFrameStart
  repeat' first
    | with_reducible assumption | with_reducible apply guarded_keeps | with_reducible apply OutKeeps.next
    | exact OutKeeps.refused _ | exact OutKeeps.fault _ | with_reducible apply txFrameStart_keeps
    | with_reducible apply foldl_keeps | split | dsimp only | intro _ _ _ | intro _ _ | intro _
    | (with_reducible refine Keeps.mk_over ?_ rfl rfl rfl rfl rfl rfl)

theorem tieSend_keeps {r : State} {e : EgFrame} {d : Nat} {s : State} (hs : Keeps r s) :
    Keeps r (tieSend e d s) := by
  unfold tieSend
  repeat' first
    | with_reducible assumption | with_reducible apply leaveEg_keeps | with_reducible apply count_keeps
    | with_reducible apply emit_keeps | split | dsimp only | intro _ _ _ | intro _ _ | intro _
    | (with_reducible refine Keeps.mk_over ?_ rfl rfl rfl rfl rfl rfl)

theorem countTx_keeps {r : State} {d : Nat} {octets : Nat} {s : State} (hs : Keeps r s) :
    Keeps r (countTx d octets s) := by
  unfold countTx
  repeat' first
    | with_reducible assumption | with_reducible apply portCount_keeps | with_reducible apply foldl_keeps | split | dsimp only
    | intro _ _ _ | intro _ _ | intro _ | (with_reducible refine Keeps.mk_over ?_ rfl rfl rfl rfl rfl rfl)

theorem portSend_keeps {r : State} {e : EgFrame} {d : Nat} {s : State} (hs : Keeps r s) :
    Keeps r (portSend e d s) := by
  unfold portSend
  repeat' first
    | with_reducible assumption | with_reducible apply emit_keeps | with_reducible apply countTx_keeps
    | with_reducible apply raiseC_keeps | with_reducible apply count_keeps | with_reducible apply portCount_keeps
    | with_reducible apply leaveEg_keeps | with_reducible apply noteLatency_keeps | with_reducible apply noteOverrun_keeps
    | split | dsimp only | intro _ _ _ | intro _ _ | intro _ | (with_reducible refine Keeps.mk_over ?_ rfl rfl rfl rfl rfl rfl)

theorem txFrameEnd_keeps {r : State} {d : Nat} {s : State} (hs : Keeps r s) :
    Keeps r (txFrameEnd d s) := by
  unfold txFrameEnd
  repeat' first
    | with_reducible assumption | with_reducible apply leaveEg_keeps | with_reducible apply linkDiscard_keeps
    | with_reducible apply tieSend_keeps | with_reducible apply portSend_keeps | with_reducible apply foldl_keeps | split
    | dsimp only | intro _ _ _ | intro _ _ | intro _ | (with_reducible refine Keeps.mk_over ?_ rfl rfl rfl rfl rfl rfl)

theorem execTxFrameEnd_keeps {r : State} {d : Nat} {s : State} (hs : Keeps r s) :
    OutKeeps r (execTxFrameEnd d s) := by
  unfold execTxFrameEnd
  repeat' first
    | with_reducible assumption | with_reducible apply guarded_keeps | with_reducible apply OutKeeps.next
    | exact OutKeeps.refused _ | exact OutKeeps.fault _ | with_reducible apply txFrameEnd_keeps
    | with_reducible apply onlyIf_keeps | with_reducible apply moveLater_keeps | split | dsimp only | intro _ _ _ | intro _ _
    | intro _ | (with_reducible refine Keeps.mk_over ?_ rfl rfl rfl rfl rfl rfl)

theorem ctUnderrun_keeps {r : State} {d : Nat} {s : State} (hs : Keeps r s) :
    Keeps r (ctUnderrun d s) := by
  unfold ctUnderrun
  repeat' first
    | with_reducible assumption | with_reducible apply emit_keeps | with_reducible apply countTx_keeps
    | with_reducible apply noteLatency_keeps | with_reducible apply noteOverrun_keeps | with_reducible apply count_keeps
    | with_reducible apply portCount_keeps | with_reducible apply raise_keeps | with_reducible apply modEg_keeps | split
    | dsimp only | intro _ _ _ | intro _ _ | intro _ | (with_reducible refine Keeps.mk_over ?_ rfl rfl rfl rfl rfl rfl)

theorem execCtUnderrun_keeps {r : State} {d : Nat} {s : State} (hs : Keeps r s) :
    OutKeeps r (execCtUnderrun d s) := by
  unfold execCtUnderrun
  repeat' first
    | with_reducible assumption | with_reducible apply guarded_keeps | with_reducible apply OutKeeps.next
    | exact OutKeeps.refused _ | exact OutKeeps.fault _ | with_reducible apply ctUnderrun_keeps
    | with_reducible apply foldl_keeps | split | dsimp only | intro _ _ _ | intro _ _ | intro _
    | (with_reducible refine Keeps.mk_over ?_ rfl rfl rfl rfl rfl rfl)

theorem putBenchQueue_keeps {r : State} {q : Nat} {x : BenchQueue} {s : State} (hs : Keeps r s) :
    Keeps r (putBenchQueue q x s) := by
  unfold putBenchQueue
  repeat' first
    | with_reducible assumption | with_reducible apply foldl_keeps | split | dsimp only | intro _ _ _ | intro _ _ | intro _
    | (with_reducible refine Keeps.mk_over ?_ rfl rfl rfl rfl rfl rfl)

theorem benchDeliver_keeps {r : State} {q : Nat} {h0 : HostFrame} {s : State} (hs : Keeps r s) :
    Keeps r (benchDeliver q h0 s) := by
  unfold benchDeliver
  repeat' first
    | with_reducible assumption | with_reducible apply raise_keeps | with_reducible apply putBenchQueue_keeps
    | with_reducible apply emit_keeps | with_reducible apply foldl_keeps | split | dsimp only | intro _ _ _ | intro _ _
    | intro _ | (with_reducible refine Keeps.mk_over ?_ rfl rfl rfl rfl rfl rfl)

theorem hostBytes_keeps {r : State} {f : Frame} {e : EgFrame} {s : State} (hs : Keeps r s) :
    Keeps r (hostBytes f e s).2 := by
  unfold hostBytes
  repeat' first
    | with_reducible assumption | with_reducible apply corrected_keeps | with_reducible apply raiseC_keeps
    | with_reducible apply count_keeps | split | dsimp only | intro _ _ _ | intro _ _ | intro _
    | (with_reducible refine Keeps.mk_over ?_ rfl rfl rfl rfl rfl rfl)

theorem hostDelivery_keeps {r : State} {free : Bool} {s : State} (hs : Keeps r s) :
    Keeps r (hostDelivery free s) := by
  unfold hostDelivery
  repeat' first
    | with_reducible assumption | with_reducible apply hostBytes_keeps | with_reducible apply leaveEg_keeps
    | with_reducible apply benchDeliver_keeps | with_reducible apply emit_keeps | with_reducible apply hostFrame_keeps
    | with_reducible apply raise_keeps | with_reducible apply count_keeps | split | dsimp only | intro _ _ _ | intro _ _
    | intro _ | (with_reducible refine Keeps.mk_over ?_ rfl rfl rfl rfl rfl rfl)

theorem execHostDelivery_keeps {r : State} {free : Bool} {s : State} (hs : Keeps r s) :
    OutKeeps r (execHostDelivery free s) := by
  unfold execHostDelivery
  repeat' first
    | with_reducible assumption | with_reducible apply guarded_keeps | with_reducible apply OutKeeps.next
    | exact OutKeeps.refused _ | exact OutKeeps.fault _ | with_reducible apply hostDelivery_keeps
    | with_reducible apply foldl_keeps | split | dsimp only | intro _ _ _ | intro _ _ | intro _
    | (with_reducible refine Keeps.mk_over ?_ rfl rfl rfl rfl rfl rfl)

theorem execBenchQueueTokenGain_keeps {r : State} {q : Nat} {s : State} (hs : Keeps r s) :
    OutKeeps r (execBenchQueueTokenGain q s) := by
  unfold execBenchQueueTokenGain
  repeat' first
    | with_reducible assumption | with_reducible apply guarded_keeps | with_reducible apply OutKeeps.next
    | exact OutKeeps.refused _ | exact OutKeeps.fault _ | with_reducible apply putBenchQueue_keeps
    | with_reducible apply foldl_keeps | split | dsimp only | intro _ _ _ | intro _ _ | intro _
    | (with_reducible refine Keeps.mk_over ?_ rfl rfl rfl rfl rfl rfl)

theorem drainBenchQueues_keeps {r : State} {s : State} (hs : Keeps r s) :
    Keeps r (drainBenchQueues s) := by
  unfold drainBenchQueues
  repeat' first
    | with_reducible assumption | with_reducible apply foldOver_keeps | with_reducible apply putBenchQueue_keeps
    | with_reducible apply emit_keeps | with_reducible apply foldl_keeps | split | dsimp only | intro _ _ _ | intro _ _
    | intro _ | (with_reducible refine Keeps.mk_over ?_ rfl rfl rfl rfl rfl rfl)

theorem tieLoop_keeps {r : State} {s : State} (hs : Keeps r s) :
    Keeps r (tieLoop s) := by
  unfold tieLoop
  repeat' first
    | with_reducible assumption | with_reducible apply raise_keeps | with_reducible apply count_keeps | split | dsimp only
    | intro _ _ _ | intro _ _ | intro _ | (with_reducible refine Keeps.mk_over ?_ rfl rfl rfl rfl rfl rfl)

theorem mirrorCopy_keeps {r : State} {s : State} (hs : Keeps r s) :
    Keeps r (mirrorCopy s) := by
  unfold mirrorCopy
  split
  · exact hs
  · next e _ =>
    dsimp only
    split
    · exact hs
    · have ht : Keeps r (leaveEg e.id 266 s) := leaveEg_keeps hs
      generalize leaveEg e.id 266 s = t at ht
      generalize mirrorOf (frame e.id s) s = m
      split
      · exact tieLoop_keeps ht
      · split
        · exact count_keeps ht
        · split
          · next hc => exact raise_keeps (count_keeps (emptyResponse_keeps (Keeps.snd (takeCells_keeps ht) hc)))
          · next hc => exact voqEnter_keeps (newFrame_keeps (Keeps.snd (takeCells_keeps ht) hc))

theorem execMirrorCopy_keeps {r : State} {s : State} (hs : Keeps r s) :
    OutKeeps r (execMirrorCopy s) := by
  unfold execMirrorCopy
  repeat' first
    | with_reducible assumption | with_reducible apply guarded_keeps | with_reducible apply OutKeeps.next
    | exact OutKeeps.refused _ | exact OutKeeps.fault _ | with_reducible apply mirrorCopy_keeps
    | with_reducible apply foldl_keeps | split | dsimp only | intro _ _ _ | intro _ _ | intro _
    | (with_reducible refine Keeps.mk_over ?_ rfl rfl rfl rfl rfl rfl)

end Sys2Proof.Machine
end

