-- ==== Sys2Proof/Laws/ClassifyKeeps.lean ====
section
/-! SUPPORT. Every operation of Machine/Classify.lean keeps what `Keeps` speaks of. -/

-- The alternatives of each proof's `first` are the same list; not every alternative is used in every proof.
set_option linter.unreachableTactic false
set_option linter.unusedTactic false

namespace Sys2Proof.Machine

theorem excOccurs_keeps {r : State} {e : Nat} {f : Frame} {s : State} (hs : Keeps r s) :
    Keeps r (excOccurs e f s) := by
  unfold excOccurs
  repeat' first
    | with_reducible assumption | with_reducible apply raiseC_keeps | with_reducible apply count_keeps
    | with_reducible apply foldl_keeps | split | dsimp only | intro _ _ _ | intro _ _ | intro _
    | (with_reducible refine Keeps.mk_over ?_ rfl rfl rfl rfl rfl rfl)

theorem nextHopRead_keeps {r : State} {nh : Nat} {f : Frame} {s : State} (hs : Keeps r s) :
    Keeps r (nextHopRead nh f s).2 := by
  unfold nextHopRead
  try dsimp only
  repeat' first
    | split | with_reducible assumption | with_reducible apply raise_keeps | with_reducible apply lpmStat_keeps
    | with_reducible apply foldl_keeps | dsimp only | intro _ _ _ | intro _ _ | intro _
    | (with_reducible refine Keeps.mk_over ?_ rfl rfl rfl rfl rfl rfl)

theorem missAction_keeps {r : State} {act : Nat} {nh : Nat} {f : Frame} {s : State} (hs : Keeps r s) :
    Keeps r (missAction act nh f s).2 := by
  unfold missAction
  try dsimp only
  repeat' first
    | split | with_reducible assumption | with_reducible apply nextHopRead_keeps | with_reducible apply foldl_keeps | dsimp only
    | intro _ _ _ | intro _ _ | intro _ | (refine Keeps.snd ?_ ‹_›)
    | (with_reducible refine Keeps.mk_over ?_ rfl rfl rfl rfl rfl rfl)

theorem l2Miss_keeps {r : State} {f : Frame} {s : State} (hs : Keeps r s) :
    Keeps r (l2Miss f s).2 := by
  unfold l2Miss
  try dsimp only
  repeat' first
    | split | with_reducible assumption | with_reducible apply missAction_keeps | with_reducible apply l2Stat_keeps
    | with_reducible apply foldl_keeps | dsimp only | intro _ _ _ | intro _ _ | intro _ | (refine Keeps.snd ?_ ‹_›)
    | (with_reducible refine Keeps.mk_over ?_ rfl rfl rfl rfl rfl rfl)

theorem routeLookup_keeps {r : State} {vrf : Nat} {h0 : Hdr} {f : Frame} {s : State} (hs : Keeps r s) :
    Keeps r (routeLookup vrf h0 f s).2 := by
  unfold routeLookup
  try dsimp only
  repeat' first
    | split | with_reducible assumption | with_reducible apply raise_keeps | with_reducible apply lpmStat_keeps
    | with_reducible apply missAction_keeps | with_reducible apply nextHopRead_keeps | with_reducible apply foldl_keeps
    | dsimp only | intro _ _ _ | intro _ _ | intro _ | (refine Keeps.snd ?_ ‹_›)
    | (with_reducible refine Keeps.mk_over ?_ rfl rfl rfl rfl rfl rfl)

theorem destLookup_keeps {r : State} {f : Frame} {s : State} (hs : Keeps r s) :
    Keeps r (destLookup f s).2 := by
  unfold destLookup
  try dsimp only
  repeat' first
    | split | with_reducible assumption | with_reducible apply l2Miss_keeps | with_reducible apply l2Stat_keeps
    | with_reducible apply nextHopRead_keeps | with_reducible apply routeLookup_keeps | with_reducible apply foldl_keeps
    | dsimp only | intro _ _ _ | intro _ _ | intro _ | (refine Keeps.snd ?_ ‹_›)
    | (with_reducible refine Keeps.mk_over ?_ rfl rfl rfl rfl rfl rfl)

theorem sourceLookup_keeps {r : State} {i : Nat} {s : State} (hs : Keeps r s) :
    Keeps r (sourceLookup i s) := by
  unfold sourceLookup
  repeat' first
    | with_reducible assumption | with_reducible apply putFrame_keeps | split | dsimp only | intro _ _ _ | intro _ _ | intro _
    | (with_reducible refine Keeps.mk_over ?_ rfl rfl rfl rfl rfl rfl)

theorem learnNow_keeps {r : State} {p : Nat} {fid : Nat} {mac : Nat} {s : State} (hs : Keeps r s) :
    Keeps r (learnNow p fid mac s).2 := by
  unfold learnNow
  repeat' first
    | with_reducible assumption | with_reducible apply settleL2_keeps | with_reducible apply applyLearn_keeps | split
    | dsimp only | intro _ _ _ | intro _ _ | intro _ | (with_reducible refine Keeps.mk_over ?_ rfl rfl rfl rfl rfl rfl)

theorem learnFrom_keeps {r : State} {f : Frame} {s : State} (hs : Keeps r s) :
    Keeps r (learnFrom f s).2 := by
  unfold learnFrom
  repeat' first
    | with_reducible assumption | with_reducible apply offerL2_keeps | with_reducible apply staticMove_keeps
    | with_reducible apply learnNow_keeps | with_reducible apply noteOnce_keeps | with_reducible apply noteOnly_keeps
    | with_reducible apply raise_keeps | with_reducible apply l2Stat_keeps | split | dsimp only | intro _ _ _ | intro _ _
    | intro _ | (with_reducible refine Keeps.mk_over ?_ rfl rfl rfl rfl rfl rfl)

theorem learnAtTail_keeps {r : State} {i : Nat} {s : State} (hs : Keeps r s) :
    Keeps r (learnAtTail i s).2 := by
  unfold learnAtTail
  try dsimp only
  repeat' first
    | split | with_reducible assumption | with_reducible apply learnFrom_keeps | with_reducible apply l2Stat_keeps
    | with_reducible apply modFrame_keeps | with_reducible apply foldl_keeps | dsimp only | intro _ _ _ | intro _ _ | intro _
    | (with_reducible refine Keeps.mk_over ?_ rfl rfl rfl rfl rfl rfl)

end Sys2Proof.Machine
end

