-- ==== Sys2Proof/Laws/FsmKeeps.lean ====
section
/-! SUPPORT. Every operation of Machine/Fsm.lean keeps what `Keeps` speaks of. -/

-- The alternatives of each proof's `first` are the same list; not every alternative is used in every proof.
set_option linter.unreachableTactic false
set_option linter.unusedTactic false

namespace Sys2Proof.Machine

theorem faultLog_keeps {r : State} {t : Target} {kind : Nat} {s : State} (hs : Keeps r s) :
    Keeps r (faultLog t kind s) := by
  unfold faultLog
  repeat' first
    | with_reducible assumption | with_reducible apply wr_keeps | split | dsimp only
    | (with_reducible refine Keeps.mk_over ?_ rfl rfl rfl rfl rfl rfl)

theorem enterFault_keeps {r : State} {t : Target} {code : Nat} {s : State} (hs : Keeps r s) :
    Keeps r (enterFault t code s) := by
  unfold enterFault
  repeat' first
    | with_reducible assumption | with_reducible apply raise_keeps | with_reducible apply faultLog_keeps
    | with_reducible apply modTgt_keeps | split | dsimp only | (with_reducible refine Keeps.mk_over ?_ rfl rfl rfl rfl rfl rfl)

theorem noteForced_keeps {r : State} {t : Target} {s : State} (hs : Keeps r s) :
    Keeps r (noteForced t s) := by
  unfold noteForced
  repeat' first
    | with_reducible assumption | with_reducible apply raise_keeps | with_reducible apply faultLog_keeps
    | with_reducible apply modTgt_keeps | split | dsimp only | (with_reducible refine Keeps.mk_over ?_ rfl rfl rfl rfl rfl rfl)

theorem enterStarting_keeps {r : State} {t : Target} {s : State} (hs : Keeps r s) :
    Keeps r (enterStarting t s) := by
  unfold enterStarting
  repeat' first
    | with_reducible assumption | with_reducible apply modTgt_keeps | split | dsimp only
    | (with_reducible refine Keeps.mk_over ?_ rfl rfl rfl rfl rfl rfl)

end Sys2Proof.Machine
end

