-- ==== Sys2Proof/Laws/HbmStackKeeps.lean ====
section
/-! SUPPORT. Every operation of Machine/HbmStack.lean keeps what `Keeps` speaks of. -/

-- The alternatives of each proof's `first` are the same list; not every alternative is used in every proof.
set_option linter.unreachableTactic false
set_option linter.unusedTactic false

namespace Sys2Proof.Machine

theorem stopBench_keeps {r : State} {s : State} (hs : Keeps r s) :
    Keeps r (stopBench s) := by
  unfold stopBench
  repeat' first
    | with_reducible assumption | with_reducible apply raise_keeps | with_reducible apply wr_keeps | split | dsimp only
    | (with_reducible refine Keeps.mk_over ?_ rfl rfl rfl rfl rfl rfl)

theorem logError_keeps {r : State} {store : Nat} {addr : Nat} {allocated : Bool} {s : State} (hs : Keeps r s) :
    Keeps r (logError store addr allocated s) := by
  unfold logError
  repeat' first
    | with_reducible assumption | with_reducible apply wr_keeps | split | dsimp only
    | (with_reducible refine Keeps.mk_over ?_ rfl rfl rfl rfl rfl rfl)

theorem eccCorrected_keeps {r : State} {store : Nat} {s : State} (hs : Keeps r s) :
    Keeps r (eccCorrected store s) := by
  unfold eccCorrected
  repeat' first
    | with_reducible assumption | with_reducible apply raise_keeps | with_reducible apply satX_keeps | split | dsimp only
    | intro _ _ _ | intro _ _ | intro _ | (with_reducible refine Keeps.mk_over ?_ rfl rfl rfl rfl rfl rfl)

theorem eccUncorrectable_keeps {r : State} {store : Nat} {addr : Nat} {allocated : Bool} {s : State} (hs : Keeps r s) :
    Keeps r (eccUncorrectable store addr allocated s) := by
  unfold eccUncorrectable
  repeat' first
    | with_reducible assumption | with_reducible apply raise_keeps | with_reducible apply logError_keeps
    | with_reducible apply satX_keeps | split | dsimp only | intro _ _ _ | intro _ _ | intro _
    | (with_reducible refine Keeps.mk_over ?_ rfl rfl rfl rfl rfl rfl)

theorem hbmStackFault_keeps {r : State} {k : Nat} {code : Nat} {s : State} (hs : Keeps r s) :
    Keeps r (hbmStackFault k code s) := by
  unfold hbmStackFault
  repeat' first
    | with_reducible assumption | with_reducible apply stopBench_keeps | with_reducible apply enterFault_keeps
    | with_reducible apply writeRec_keeps | split | dsimp only | intro _ _ _ | intro _ _ | intro _
    | (with_reducible refine Keeps.mk_over ?_ rfl rfl rfl rfl rfl rfl)

theorem noteStackError_keeps {r : State} {k : Nat} {s : State} (hs : Keeps r s) :
    Keeps r (noteStackError k s) := by
  unfold noteStackError
  repeat' first
    | with_reducible assumption | with_reducible apply hbmStackFault_keeps | split | dsimp only
    | (with_reducible refine Keeps.mk_over ?_ rfl rfl rfl rfl rfl rfl)

theorem stackTemperature_keeps {r : State} {k : Nat} {temp : Nat} {s : State} (hs : Keeps r s) :
    Keeps r (stackTemperature k temp s) := by
  unfold stackTemperature
  repeat' first
    | with_reducible assumption | with_reducible apply wrC_keeps | with_reducible apply raiseC_keeps | split | dsimp only
    | (with_reducible refine Keeps.mk_over ?_ rfl rfl rfl rfl rfl rfl)

theorem execHbmStackTemperature_keeps {r : State} {k : Nat} {temp : Nat} {s : State} (hs : Keeps r s) :
    OutKeeps r (execHbmStackTemperature k temp s) := by
  unfold execHbmStackTemperature
  repeat' first
    | with_reducible assumption | with_reducible apply guarded_keeps | with_reducible apply OutKeeps.next
    | exact OutKeeps.refused _ | exact OutKeeps.fault _ | with_reducible apply onlyIf_keeps
    | with_reducible apply stackTemperature_keeps | split | dsimp only | intro _ _ _ | intro _ _ | intro _
    | (with_reducible refine Keeps.mk_over ?_ rfl rfl rfl rfl rfl rfl)

end Sys2Proof.Machine
end

