-- ==== Sys2Proof/Laws/FlowStoreKeeps.lean ====
section
/-! SUPPORT. Every operation of Machine/FlowStore.lean keeps what `Keeps` speaks of. -/

-- The alternatives of each proof's `first` are the same list; not every alternative is used in every proof.
set_option linter.unreachableTactic false
set_option linter.unusedTactic false

namespace Sys2Proof.Machine

theorem hbmWrite_keeps {r : State} {a : Nat} {bs : List Byte} {s : State} (hs : Keeps r s) :
    Keeps r (hbmWrite a bs s) := by
  exact hs.stored (fun h => memWrite_wf _ _ h) id rfl rfl rfl rfl rfl rfl rfl

theorem hbmUncorrectable_keeps {r : State} {a : Nat} {s : State} (hs : Keeps r s) :
    Keeps r (hbmUncorrectable a s) := by
  unfold hbmUncorrectable
  repeat' first
    | with_reducible assumption | with_reducible apply noteStackError_keeps | with_reducible apply raiseC_keeps
    | with_reducible apply wrC_keeps | with_reducible apply satX_keeps | with_reducible apply foldl_keeps | split | dsimp only
    | intro _ _ _ | intro _ _ | intro _ | (with_reducible refine Keeps.mk_over ?_ rfl rfl rfl rfl rfl rfl)

theorem putOvf_keeps {r : State} {e : Nat} {x : Nat} {s : State} (hs : Keeps r s) :
    Keeps r (putOvf e x s) := by
  unfold putOvf
  repeat' first
    | with_reducible assumption | with_reducible apply raise_keeps | with_reducible apply foldl_keeps | split | dsimp only
    | intro _ _ _ | intro _ _ | intro _ | (with_reducible refine Keeps.mk_over ?_ rfl rfl rfl rfl rfl rfl)

theorem putPlace_keeps {r : State} {b : Nat} {p : Nat} {x : Nat} {s : State} (hs : Keeps r s) :
    Keeps r (putPlace b p x s) := by
  unfold putPlace
  repeat' first
    | with_reducible assumption | with_reducible apply hbmWrite_keeps | with_reducible apply putOvf_keeps
    | with_reducible apply foldl_keeps | split | dsimp only | intro _ _ _ | intro _ _ | intro _
    | (with_reducible refine Keeps.mk_over ?_ rfl rfl rfl rfl rfl rfl)

theorem fltCount_keeps {r : State} {i : Nat} {s : State} (hs : Keeps r s) :
    Keeps r (fltCount i s) := by
  unfold fltCount
  repeat' first
    | with_reducible assumption | with_reducible apply count_keeps | with_reducible apply foldl_keeps | split | dsimp only
    | intro _ _ _ | intro _ _ | intro _ | (with_reducible refine Keeps.mk_over ?_ rfl rfl rfl rfl rfl rfl)

theorem readBucket_keeps {r : State} {b : Nat} {s : State} (hs : Keeps r s) :
    Keeps r (readBucket b s) := by
  unfold readBucket
  repeat' first
    | with_reducible assumption | with_reducible apply foldOver_keeps | with_reducible apply raise_keeps
    | with_reducible apply fltCount_keeps | with_reducible apply foldl_keeps | split | dsimp only | intro _ _ _ | intro _ _
    | intro _ | (with_reducible refine Keeps.mk_over ?_ rfl rfl rfl rfl rfl rfl)

theorem putCache_keeps {r : State} {l : List Line} {s : State} (hs : Keeps r s) :
    Keeps r (putCache l s) := by
  unfold putCache
  repeat' first
    | with_reducible assumption | with_reducible apply foldl_keeps | split | dsimp only | intro _ _ _ | intro _ _ | intro _
    | (with_reducible refine Keeps.mk_over ?_ rfl rfl rfl rfl rfl rfl)

theorem modLine_keeps {r : State} {i : Nat} {f : Line → Line} {s : State} (hs : Keeps r s) :
    Keeps r (modLine i f s) := by
  unfold modLine
  repeat' first
    | with_reducible assumption | with_reducible apply putCache_keeps | with_reducible apply foldl_keeps | split | dsimp only
    | intro _ _ _ | intro _ _ | intro _ | (with_reducible refine Keeps.mk_over ?_ rfl rfl rfl rfl rfl rfl)

theorem dropLine_keeps {r : State} {i : Nat} {s : State} (hs : Keeps r s) :
    Keeps r (dropLine i s) := by
  unfold dropLine
  repeat' first
    | with_reducible assumption | with_reducible apply putCache_keeps | with_reducible apply foldl_keeps | split | dsimp only
    | intro _ _ _ | intro _ _ | intro _ | (with_reducible refine Keeps.mk_over ?_ rfl rfl rfl rfl rfl rfl)

theorem touchLine_keeps {r : State} {i : Nat} {s : State} (hs : Keeps r s) :
    Keeps r (touchLine i s) := by
  unfold touchLine
  repeat' first
    | with_reducible assumption | with_reducible apply putCache_keeps | with_reducible apply foldl_keeps | split | dsimp only
    | intro _ _ _ | intro _ _ | intro _ | (with_reducible refine Keeps.mk_over ?_ rfl rfl rfl rfl rfl rfl)

theorem writeBack_keeps {r : State} {l : Line} {s : State} (hs : Keeps r s) :
    Keeps r (writeBack l s) := by
  unfold writeBack
  repeat' first
    | with_reducible assumption | with_reducible apply count_keeps | with_reducible apply hbmWrite_keeps
    | with_reducible apply foldl_keeps | split | dsimp only | intro _ _ _ | intro _ _ | intro _
    | (with_reducible refine Keeps.mk_over ?_ rfl rfl rfl rfl rfl rfl)

theorem writeBackAll_keeps {r : State} {s : State} (hs : Keeps r s) :
    Keeps r (writeBackAll s) := by
  unfold writeBackAll
  repeat' first
    | with_reducible assumption | with_reducible apply foldOver_keeps | with_reducible apply putCache_keeps
    | with_reducible apply writeBack_keeps | with_reducible apply foldl_keeps | split | dsimp only | intro _ _ _ | intro _ _
    | intro _ | (with_reducible refine Keeps.mk_over ?_ rfl rfl rfl rfl rfl rfl)

theorem evictFor_keeps {r : State} {b : Nat} {s : State} (hs : Keeps r s) :
    Keeps r (evictFor b s) := by
  unfold evictFor
  repeat' first
    | with_reducible assumption | with_reducible apply count_keeps | with_reducible apply dropLine_keeps
    | with_reducible apply writeBack_keeps | with_reducible apply foldl_keeps | split | dsimp only | intro _ _ _ | intro _ _
    | intro _ | (with_reducible refine Keeps.mk_over ?_ rfl rfl rfl rfl rfl rfl)

theorem installLine_keeps {r : State} {l : Line} {s : State} (hs : Keeps r s) :
    Keeps r (installLine l s) := by
  unfold installLine
  repeat' first
    | with_reducible assumption | with_reducible apply evictFor_keeps | with_reducible apply putCache_keeps
    | with_reducible apply foldl_keeps | split | dsimp only | intro _ _ _ | intro _ _ | intro _
    | (with_reducible refine Keeps.mk_over ?_ rfl rfl rfl rfl rfl rfl)

theorem storeRecord_keeps {r : State} {i : Nat} {r1 : List Byte} {s : State} (hs : Keeps r s) :
    Keeps r (storeRecord i r1 s) := by
  unfold storeRecord
  repeat' first
    | with_reducible assumption | with_reducible apply modLine_keeps | with_reducible apply hbmWrite_keeps | split | dsimp only
    | intro _ _ _ | intro _ _ | intro _ | (with_reducible refine Keeps.mk_over ?_ rfl rfl rfl rfl rfl rfl)

theorem takeIndex_keeps {r : State} {s : State} (hs : Keeps r s) :
    Opt3Keeps r (takeIndex s) := by
  unfold takeIndex
  repeat' first
    | with_reducible assumption | with_reducible apply Opt3Keeps.some | exact Opt3Keeps.none | with_reducible apply raise_keeps
    | with_reducible apply foldl_keeps | split | dsimp only | intro _ _ _ | intro _ _ | intro _
    | (with_reducible refine Keeps.mk_over ?_ rfl rfl rfl rfl rfl rfl)

theorem freeIndex_keeps {r : State} {i : Nat} {g : Nat} {s : State} (hs : Keeps r s) :
    Keeps r (freeIndex i g s) := by
  unfold freeIndex
  repeat' first
    | with_reducible assumption | with_reducible apply wr_keeps | with_reducible apply foldl_keeps | split | dsimp only
    | intro _ _ _ | intro _ _ | intro _ | (with_reducible refine Keeps.mk_over ?_ rfl rfl rfl rfl rfl rfl)

theorem marginUsed_keeps {r : State} {i : Nat} {s : State} (hs : Keeps r s) :
    Keeps r (marginUsed i s) := by
  unfold marginUsed
  repeat' first
    | with_reducible assumption | with_reducible apply raiseC_keeps | split | dsimp only | intro _ _ _ | intro _ _ | intro _
    | (with_reducible refine Keeps.mk_over ?_ rfl rfl rfl rfl rfl rfl)

theorem spillIndex_keeps {r : State} {i : Nat} {g : Nat} {s : State} (hs : Keeps r s) :
    Keeps r (spillIndex i g s) := by
  unfold spillIndex
  exact marginUsed_keeps (hbmWrite_keeps (Keeps.mk_over (foldl_snd_keeps (fun _ _ h => takeFree_keeps h) hs) rfl rfl rfl rfl rfl rfl))

theorem returnIndex_keeps {r : State} {i : Nat} {g : Nat} {s : State} (hs : Keeps r s) :
    Keeps r (returnIndex i g s) := by
  unfold returnIndex
  dsimp only
  split
  · exact Keeps.mk_over hs rfl rfl rfl rfl rfl rfl
  · exact spillIndex_keeps hs

theorem holdExpire_keeps {r : State} {s : State} (hs : Keeps r s) :
    Keeps r (holdExpire s) := by
  unfold holdExpire
  repeat' first
    | with_reducible assumption | with_reducible apply spillIndex_keeps | with_reducible apply foldl_keeps | split | dsimp only
    | intro _ _ _ | intro _ _ | intro _ | (with_reducible refine Keeps.mk_over ?_ rfl rfl rfl rfl rfl rfl)

theorem execIndexHoldExpire_keeps {r : State} {s : State} (hs : Keeps r s) :
    OutKeeps r (execIndexHoldExpire s) := by
  unfold execIndexHoldExpire
  repeat' first
    | with_reducible assumption | with_reducible apply guarded_keeps | with_reducible apply OutKeeps.next
    | exact OutKeeps.refused _ | exact OutKeeps.fault _ | with_reducible apply holdExpire_keeps
    | with_reducible apply foldl_keeps | split | dsimp only | intro _ _ _ | intro _ _ | intro _
    | (with_reducible refine Keeps.mk_over ?_ rfl rfl rfl rfl rfl rfl)

theorem poolRefill_keeps {r : State} {s : State} (hs : Keeps r s) :
    Keeps r (poolRefill s) := by
  unfold poolRefill
  repeat' first
    | with_reducible assumption | with_reducible apply marginUsed_keeps | split | dsimp only | intro _ _ _ | intro _ _ | intro _
    | (with_reducible refine Keeps.mk_over ?_ rfl rfl rfl rfl rfl rfl)

theorem execPoolRefill_keeps {r : State} {s : State} (hs : Keeps r s) :
    OutKeeps r (execPoolRefill s) := by
  unfold execPoolRefill
  repeat' first
    | with_reducible assumption | with_reducible apply guarded_keeps | with_reducible apply OutKeeps.next
    | exact OutKeeps.refused _ | exact OutKeeps.fault _ | with_reducible apply poolRefill_keeps
    | with_reducible apply foldl_keeps | split | dsimp only | intro _ _ _ | intro _ _ | intro _
    | (with_reducible refine Keeps.mk_over ?_ rfl rfl rfl rfl rfl rfl)

theorem promote_keeps {r : State} {b : Nat} {p : Nat} {s : State} (hs : Keeps r s) :
    Keeps r (promote b p s) := by
  unfold promote
  repeat' first
    | with_reducible assumption | with_reducible apply putPlace_keeps | with_reducible apply fltCount_keeps
    | with_reducible apply putOvf_keeps | with_reducible apply modLine_keeps | with_reducible apply foldl_keeps | split
    | dsimp only | intro _ _ _ | intro _ _ | intro _ | (with_reducible refine Keeps.mk_over ?_ rfl rfl rfl rfl rfl rfl)

theorem emptyPlace_keeps {r : State} {b : Nat} {p : Nat} {s : State} (hs : Keeps r s) :
    Keeps r (emptyPlace b p s) := by
  unfold emptyPlace
  repeat' first
    | with_reducible assumption | with_reducible apply putPlace_keeps | with_reducible apply promote_keeps
    | with_reducible apply foldl_keeps | split | dsimp only | intro _ _ _ | intro _ _ | intro _
    | (with_reducible refine Keeps.mk_over ?_ rfl rfl rfl rfl rfl rfl)

theorem buildExport_keeps {r : State} {b : Nat} {i : Nat} {reason : Nat} {r0 : List Byte} {s : State} (hs : Keeps r s) :
    Keeps r (buildExport b i reason r0 s) := by
  unfold buildExport
  repeat' first
    | with_reducible assumption | with_reducible apply foldl_keeps | split | dsimp only | intro _ _ _ | intro _ _ | intro _
    | (with_reducible refine Keeps.mk_over ?_ rfl rfl rfl rfl rfl rfl)

theorem retireEnd_keeps {r : State} {b : Nat} {p : Nat} {i : Nat} {g : Nat} {s : State} (hs : Keeps r s) :
    Keeps r (retireEnd b p i g s) := by
  unfold retireEnd
  repeat' first
    | with_reducible assumption | with_reducible apply freeIndex_keeps | with_reducible apply emptyPlace_keeps
    | with_reducible apply dropLine_keeps | with_reducible apply foldl_keeps | split | dsimp only | intro _ _ _ | intro _ _
    | intro _ | (with_reducible refine Keeps.mk_over ?_ rfl rfl rfl rfl rfl rfl)

theorem retireCount_keeps {r : State} {reason : Nat} {s : State} (hs : Keeps r s) :
    Keeps r (retireCount reason s) := by
  unfold retireCount
  repeat' first
    | with_reducible assumption | with_reducible apply raise_keeps | with_reducible apply fltCount_keeps
    | with_reducible apply foldl_keeps | split | dsimp only | intro _ _ _ | intro _ _ | intro _
    | (with_reducible refine Keeps.mk_over ?_ rfl rfl rfl rfl rfl rfl)

theorem retireWith_keeps {r : State} {b : Nat} {p : Nat} {i : Nat} {reason : Nat} {r1 : List Byte} {noExport : Bool} {s0 :
    State} (hs : Keeps r s0) :
    Keeps r (retireWith b p i reason r1 noExport s0) := by
  unfold retireWith
  repeat' first
    | with_reducible assumption | with_reducible apply retireCount_keeps | with_reducible apply retireEnd_keeps
    | with_reducible apply buildExport_keeps | with_reducible apply putPlace_keeps | with_reducible apply modLine_keeps
    | with_reducible apply hbmWrite_keeps | with_reducible apply raise_keeps | with_reducible apply fltCount_keeps | split
    | dsimp only | intro _ _ _ | intro _ _ | intro _ | (with_reducible refine Keeps.mk_over ?_ rfl rfl rfl rfl rfl rfl)

theorem retire_keeps {r : State} {b : Nat} {p : Nat} {i : Nat} {reason : Nat} {noExport : Bool} {s : State} (hs : Keeps r s) :
    Keeps r (retire b p i reason noExport s) := by
  unfold retire
  repeat' first
    | with_reducible assumption | with_reducible apply retireWith_keeps | with_reducible apply foldl_keeps | split | dsimp only
    | intro _ _ _ | intro _ _ | intro _ | (with_reducible refine Keeps.mk_over ?_ rfl rfl rfl rfl rfl rfl)

theorem lostRecord_keeps {r : State} {prog : Nat} {s : State} (hs : Keeps r s) :
    Keeps r (lostRecord prog s).2 := by
  unfold lostRecord
  dsimp only
  with_reducible exact foldl_snd_keeps (fun _ _ h => takeFree_keeps h) hs

theorem poisonRecord_keeps {r : State} {b : Nat} {p : Nat} {i : Nat} {s : State} (hs : Keeps r s) :
    Keeps r (poisonRecord b p i s) := by
  unfold poisonRecord
  repeat' first
    | with_reducible assumption | with_reducible apply lostRecord_keeps | with_reducible apply retireWith_keeps
    | with_reducible apply foldl_keeps | split | dsimp only | intro _ _ _ | intro _ _ | intro _ | (refine Keeps.snd ?_ ‹_›)
    | (with_reducible refine Keeps.mk_over ?_ rfl rfl rfl rfl rfl rfl)

theorem poisonBucket_keeps {r : State} {b : Nat} {s : State} (hs : Keeps r s) :
    Keeps r (poisonBucket b s) := by
  unfold poisonBucket
  repeat' first
    | with_reducible assumption | with_reducible apply foldOver_keeps | with_reducible apply raise_keeps
    | with_reducible apply fltCount_keeps | with_reducible apply hbmUncorrectable_keeps | with_reducible apply hbmWrite_keeps
    | with_reducible apply retire_keeps | with_reducible apply putCache_keeps | with_reducible apply foldl_keeps | split
    | dsimp only | intro _ _ _ | intro _ _ | intro _ | (with_reducible refine Keeps.mk_over ?_ rfl rfl rfl rfl rfl rfl)

theorem poisonOvf_keeps {r : State} {e : Nat} {s : State} (hs : Keeps r s) :
    Keeps r (poisonOvf e s) := by
  unfold poisonOvf
  repeat' first
    | with_reducible assumption | with_reducible apply raise_keeps | with_reducible apply fltCount_keeps
    | with_reducible apply putOvf_keeps | with_reducible apply putCache_keeps | with_reducible apply foldl_keeps | split
    | dsimp only | intro _ _ _ | intro _ _ | intro _ | (with_reducible refine Keeps.mk_over ?_ rfl rfl rfl rfl rfl rfl)

theorem hbmCorrected_keeps {r : State} {a : Nat} {s : State} (hs : Keeps r s) :
    Keeps r (hbmCorrected a s) := by
  unfold hbmCorrected
  repeat' first
    | with_reducible assumption | with_reducible apply raiseC_keeps | with_reducible apply satX_keeps | split | dsimp only
    | intro _ _ _ | intro _ _ | intro _ | (with_reducible refine Keeps.mk_over ?_ rfl rfl rfl rfl rfl rfl)

theorem bucketCorrected_keeps {r : State} {b : Nat} {s : State} (hs : Keeps r s) :
    Keeps r (bucketCorrected b s) := by
  unfold bucketCorrected
  repeat' first
    | with_reducible assumption | with_reducible apply hbmCorrected_keeps | with_reducible apply eccCorrected_keeps | split
    | dsimp only | intro _ _ _ | intro _ _ | intro _ | (with_reducible refine Keeps.mk_over ?_ rfl rfl rfl rfl rfl rfl)

theorem overflowCorrected_keeps {r : State} {s : State} (hs : Keeps r s) :
    Keeps r (overflowCorrected s) := by
  unfold overflowCorrected
  repeat' first
    | with_reducible assumption | with_reducible apply eccCorrected_keeps | split | dsimp only | intro _ _ _ | intro _ _
    | intro _ | (with_reducible refine Keeps.mk_over ?_ rfl rfl rfl rfl rfl rfl)

theorem recordCorrected_keeps {r : State} {i : Nat} {s : State} (hs : Keeps r s) :
    Keeps r (recordCorrected i s) := by
  unfold recordCorrected
  repeat' first
    | with_reducible assumption | with_reducible apply hbmCorrected_keeps | with_reducible apply eccCorrected_keeps | split
    | dsimp only | intro _ _ _ | intro _ _ | intro _ | (with_reducible refine Keeps.mk_over ?_ rfl rfl rfl rfl rfl rfl)

theorem lineCorrected_keeps {r : State} {s : State} (hs : Keeps r s) :
    Keeps r (lineCorrected s) := by
  unfold lineCorrected
  repeat' first
    | with_reducible assumption | with_reducible apply raise_keeps | with_reducible apply count_keeps
    | with_reducible apply eccCorrected_keeps | split | dsimp only | intro _ _ _ | intro _ _ | intro _
    | (with_reducible refine Keeps.mk_over ?_ rfl rfl rfl rfl rfl rfl)

theorem bucketBad_keeps {r : State} {b : Nat} {s : State} (hs : Keeps r s) :
    Keeps r (bucketBad b s) := by
  unfold bucketBad
  repeat' first
    | with_reducible assumption | with_reducible apply poisonBucket_keeps | with_reducible apply eccUncorrectable_keeps | split
    | dsimp only | intro _ _ _ | intro _ _ | intro _ | (with_reducible refine Keeps.mk_over ?_ rfl rfl rfl rfl rfl rfl)

theorem overflowBad_keeps {r : State} {e : Nat} {s : State} (hs : Keeps r s) :
    Keeps r (overflowBad e s) := by
  unfold overflowBad
  repeat' first
    | with_reducible assumption | with_reducible apply poisonOvf_keeps | with_reducible apply eccUncorrectable_keeps | split
    | dsimp only | intro _ _ _ | intro _ _ | intro _ | (with_reducible refine Keeps.mk_over ?_ rfl rfl rfl rfl rfl rfl)

theorem recordBad_keeps {r : State} {i : Nat} {s : State} (hs : Keeps r s) :
    Keeps r (recordBad i s) := by
  unfold recordBad
  repeat' first
    | with_reducible assumption | with_reducible apply hbmUncorrectable_keeps | with_reducible apply eccUncorrectable_keeps
    | split | dsimp only | intro _ _ _ | intro _ _ | intro _ | (with_reducible refine Keeps.mk_over ?_ rfl rfl rfl rfl rfl rfl)

theorem lineBad_keeps {r : State} {s : State} (hs : Keeps r s) :
    Keeps r (lineBad s) := by
  unfold lineBad
  repeat' first
    | with_reducible assumption | with_reducible apply takeFree_keeps | with_reducible apply raise_keeps
    | with_reducible apply count_keeps | with_reducible apply eccUncorrectable_keeps | split | dsimp only | intro _ _ _
    | intro _ _ | intro _ | (with_reducible refine Keeps.mk_over ?_ rfl rfl rfl rfl rfl rfl)

theorem bucketErrors_keeps {r : State} {b : Nat} {err : LookupErr} {s : State} (hs : Keeps r s) :
    Keeps r (bucketErrors b err s) := by
  unfold bucketErrors
  split
  · exact bucketBad_keeps hs
  · split
    · exact overflowBad_keeps hs
    · exact hs
  · exact bucketCorrected_keeps hs
  · exact overflowCorrected_keeps hs
  all_goals exact hs

theorem readRecords_keeps {r : State} {b : Nat} {key : List Byte} {err : LookupErr} {n : Nat} {ps : List Nat} {s : State}
    (hs : Keeps r s) : Keeps r (readRecords b key err n ps s).2 := by
  induction ps generalizing n s with
  | nil => exact hs
  | cons p ps ih =>
    have h1 : Keeps r (if n = 0 then s else fltCount 7 s) := by split; exacts [hs, fltCount_keeps hs]
    unfold readRecords
    dsimp only
    generalize (if n = 0 then s else fltCount 7 s) = s1 at h1
    split
    · refine poisonRecord_keeps (recordBad_keeps ?_)
      split
      · exact count_keeps h1
      · exact h1
    · have h2 : Keeps r (if err = .recordCorrected n then recordCorrected (slRec (placeAt b p s)) s1 else s1) := by
        split; exacts [recordCorrected_keeps h1, h1]
      generalize (if err = .recordCorrected n then recordCorrected (slRec (placeAt b p s)) s1 else s1) = s2 at h2
      split
      · exact h2
      · exact ih h2

theorem hbmLookup_keeps {r : State} {b : Nat} {d : Nat} {key : List Byte} {err : LookupErr} {s : State} (hs : Keeps r s) :
    Keeps r (hbmLookup b d key err s).2 := readRecords_keeps (readBucket_keeps (bucketErrors_keeps hs))

theorem flowFind_keeps {r : State} {b : Nat} {d : Nat} {key : List Byte} {err : LookupErr} {s : State} (hs : Keeps r s) :
    Keeps r (flowFind b d key err s).2 := by
  unfold flowFind
  split
  · refine hbmLookup_keeps ?_
    split
    · exact count_keeps hs
    · exact hs
  · split
    · dsimp only
      split
      · exact poisonRecord_keeps (lineBad_keeps hs)
      · exact hbmLookup_keeps (dropLine_keeps (lineBad_keeps hs))
    · refine touchLine_keeps (count_keeps ?_)
      split
      · exact lineCorrected_keeps hs
      · exact hs

theorem reserveCreate_keeps {r : State} {b : Nat} {s : State} (hs : Keeps r s) :
    Keeps r (reserveCreate b s).2.2 := by
  unfold reserveCreate
  try dsimp only
  repeat' first
    | split | with_reducible assumption | with_reducible apply Opt3Keeps.some | exact Opt3Keeps.none
    | with_reducible apply raise_keeps | with_reducible apply fltCount_keeps | with_reducible apply takeIndex_keeps
    | with_reducible apply foldl_keeps | dsimp only | intro _ _ _ | intro _ _ | intro _ | (refine Opt3Keeps.elim ?_ ‹_›)
    | (with_reducible refine Keeps.mk_over ?_ rfl rfl rfl rfl rfl rfl)

theorem placeRecord_keeps {r : State} {b : Nat} {d : Nat} {p : Nat} {i : Nat} {prog : Nat} {pinned : Bool} {r0 : List Byte} {s : State} (hs : Keeps r s) :
    Keeps r (placeRecord b d p i prog pinned r0 s) := by
  unfold placeRecord
  repeat' first
    | with_reducible assumption | with_reducible apply putPlace_keeps | with_reducible apply fltCount_keeps
    | with_reducible apply wr_keeps | with_reducible apply installLine_keeps | with_reducible apply hbmWrite_keeps
    | with_reducible apply foldl_keeps | split | dsimp only | intro _ _ _ | intro _ _ | intro _
    | (with_reducible refine Keeps.mk_over ?_ rfl rfl rfl rfl rfl rfl)

theorem releaseCreate_keeps {r : State} {b : Nat} {p : Nat} {i : Nat} {g : Nat} {s : State} (hs : Keeps r s) :
    Keeps r (releaseCreate b p i g s) := by
  unfold releaseCreate
  repeat' first
    | with_reducible assumption | with_reducible apply returnIndex_keeps | with_reducible apply foldl_keeps | split | dsimp only
    | intro _ _ _ | intro _ _ | intro _ | (with_reducible refine Keeps.mk_over ?_ rfl rfl rfl rfl rfl rfl)

theorem setPinned_keeps {r : State} {b : Nat} {i : Nat} {pin : Bool} {s : State} (hs : Keeps r s) :
    Keeps r (setPinned b i pin s) := by
  unfold setPinned
  repeat' first
    | with_reducible assumption | with_reducible apply putPlace_keeps | with_reducible apply foldl_keeps | split | dsimp only
    | intro _ _ _ | intro _ _ | intro _ | (with_reducible refine Keeps.mk_over ?_ rfl rfl rfl rfl rfl rfl)

theorem flowReset_keeps {r : State} {s : State} (hs : Keeps r s) :
    Keeps r (flowReset s) := by
  unfold flowReset
  exact hs.stored (fun h => swf_sfilter (fun a => decide (a < bucketBase s ∨ reservedBase s ≤ a)) h) id rfl rfl rfl rfl rfl rfl rfl

end Sys2Proof.Machine
end

