-- ==== Sys2Proof/Laws/ItemsKeeps.lean ====
section
/-! SUPPORT. Every operation of Machine/Items.lean keeps what `Keeps` speaks of. -/

-- The alternatives of each proof's `first` are the same list; not every alternative is used in every proof.
set_option linter.unreachableTactic false
set_option linter.unusedTactic false

namespace Sys2Proof.Machine

theorem putOwn_keeps {r : State} {e : Nat} {x : OwnEntry} {s : State} (hs : Keeps r s) :
    Keeps r (putOwn e x s) := by
  unfold putOwn
  repeat' first
    | with_reducible assumption | split | dsimp only | (with_reducible refine Keeps.mk_over ?_ rfl rfl rfl rfl rfl rfl)

theorem putFence_keeps {r : State} {e : Nat} {x : Fence} {s : State} (hs : Keeps r s) :
    Keeps r (putFence e x s) := by
  unfold putFence
  repeat' first
    | with_reducible assumption | split | dsimp only | (with_reducible refine Keeps.mk_over ?_ rfl rfl rfl rfl rfl rfl)

theorem putCluster_keeps {r : State} {c : Nat} {x : Cluster} {s : State} (hs : Keeps r s) :
    Keeps r (putCluster c x s) := by
  unfold putCluster
  repeat' first
    | with_reducible assumption | split | dsimp only | (with_reducible refine Keeps.mk_over ?_ rfl rfl rfl rfl rfl rfl)

theorem modCluster_keeps {r : State} {c : Nat} {f : Cluster → Cluster} {s : State} (hs : Keeps r s) :
    Keeps r (modCluster c f s) := by
  unfold modCluster
  repeat' first
    | with_reducible assumption | with_reducible apply putCluster_keeps | split | dsimp only
    | (with_reducible refine Keeps.mk_over ?_ rfl rfl rfl rfl rfl rfl)

theorem modItem_keeps {r : State} {c : Nat} {q : Nat} {f : Item → Item} {s : State} (hs : Keeps r s) :
    Keeps r (modItem c q f s) := by
  unfold modItem
  repeat' first
    | with_reducible assumption | with_reducible apply modCluster_keeps | split | dsimp only
    | (with_reducible refine Keeps.mk_over ?_ rfl rfl rfl rfl rfl rfl)

theorem dspCount_keeps {r : State} {k : Nat} {c : Nat} {s : State} (hs : Keeps r s) :
    Keeps r (dspCount k c s) := by
  unfold dspCount
  repeat' first
    | with_reducible assumption | with_reducible apply count_keeps | split | dsimp only
    | (with_reducible refine Keeps.mk_over ?_ rfl rfl rfl rfl rfl rfl)

theorem noteFall_keeps {r : State} {c : Nat} {s : State} (hs : Keeps r s) :
    Keeps r (noteFall c s) := by
  unfold noteFall
  repeat' first
    | with_reducible assumption | with_reducible apply putCluster_keeps | split | dsimp only | intro _ _ _ | intro _ _ | intro _
    | (with_reducible refine Keeps.mk_over ?_ rfl rfl rfl rfl rfl rfl)

theorem noteRise_keeps {r : State} {c : Nat} {s : State} (hs : Keeps r s) :
    Keeps r (noteRise c s) := by
  unfold noteRise
  repeat' first
    | with_reducible assumption | with_reducible apply raiseC_keeps | with_reducible apply putCluster_keeps | split | dsimp only
    | intro _ _ _ | intro _ _ | intro _ | (with_reducible refine Keeps.mk_over ?_ rfl rfl rfl rfl rfl rfl)

theorem removeItem_keeps {r : State} {c : Nat} {q : Nat} {s : State} (hs : Keeps r s) :
    Keeps r (removeItem c q s) := by
  unfold removeItem
  repeat' first
    | with_reducible assumption | with_reducible apply noteFall_keeps | with_reducible apply modCluster_keeps | split
    | dsimp only | intro _ _ _ | intro _ _ | intro _ | (with_reducible refine Keeps.mk_over ?_ rfl rfl rfl rfl rfl rfl)

theorem noteWait_keeps {r : State} {c : Nat} {tag : Nat} {s : State} (hs : Keeps r s) :
    Keeps r (noteWait c tag s) := by
  unfold noteWait
  repeat' first
    | with_reducible assumption | with_reducible apply dspCount_keeps | with_reducible apply modItem_keeps | split | dsimp only
    | (with_reducible refine Keeps.mk_over ?_ rfl rfl rfl rfl rfl rfl)

theorem admitItem_keeps {r : State} {c : Nat} {i : Item} {s : State} (hs : Keeps r s) :
    Keeps r (admitItem c i s) := by
  unfold admitItem
  repeat' first
    | with_reducible assumption | with_reducible apply dspCount_keeps | with_reducible apply putCluster_keeps
    | with_reducible apply noteRise_keeps | with_reducible apply noteWait_keeps | split | dsimp only | intro _ _ _ | intro _ _
    | intro _ | (with_reducible refine Keeps.mk_over ?_ rfl rfl rfl rfl rfl rfl)

theorem backPressure_keeps {r : State} {c : Nat} {cause : Nat} {s : State} (hs : Keeps r s) :
    Keeps r (backPressure c cause s) := by
  unfold backPressure
  repeat' first
    | with_reducible assumption | with_reducible apply raiseC_keeps | with_reducible apply dspCount_keeps | split | dsimp only
    | (with_reducible refine Keeps.mk_over ?_ rfl rfl rfl rfl rfl rfl)

theorem unlockItem_keeps {r : State} {i : Item} {s : State} (hs : Keeps r s) :
    Keeps r (unlockItem i s) := by
  unfold unlockItem
  repeat' first
    | with_reducible assumption | with_reducible apply modLine_keeps | split | dsimp only
    | (with_reducible refine Keeps.mk_over ?_ rfl rfl rfl rfl rfl rfl)

theorem unslot_keeps {r : State} {i : Item} {s : State} (hs : Keeps r s) :
    Keeps r (unslot i s) := by
  unfold unslot
  repeat' first
    | with_reducible assumption | split | dsimp only | (with_reducible refine Keeps.mk_over ?_ rfl rfl rfl rfl rfl rfl)

theorem cancelNow_keeps {r : State} {c : Nat} {i : Item} {reason : Nat} {s : State} (hs : Keeps r s) :
    Keeps r (cancelNow c i reason s) := by
  unfold cancelNow
  repeat' first
    | with_reducible assumption | with_reducible apply dspCount_keeps | with_reducible apply dropFrame_keeps
    | with_reducible apply removeItem_keeps | with_reducible apply unlockItem_keeps | with_reducible apply unslot_keeps
    | with_reducible apply raiseC_keeps | split | dsimp only | (with_reducible refine Keeps.mk_over ?_ rfl rfl rfl rfl rfl rfl)

theorem actCancel_keeps {r : State} {c : Nat} {i : Item} {s : State} (hs : Keeps r s) :
    Keeps r (actCancel c i s) := by
  unfold actCancel
  repeat' first
    | with_reducible assumption | with_reducible apply dspCount_keeps | with_reducible apply modItem_keeps
    | with_reducible apply cancelNow_keeps | split | dsimp only
    | (with_reducible refine Keeps.mk_over ?_ rfl rfl rfl rfl rfl rfl)

theorem askCancel_keeps {r : State} {c : Nat} {q : Nat} {reason : Nat} {s : State} (hs : Keeps r s) :
    Keeps r (askCancel c q reason s) := by
  unfold askCancel
  repeat' first
    | with_reducible assumption | with_reducible apply modItem_keeps | split | dsimp only
    | (with_reducible refine Keeps.mk_over ?_ rfl rfl rfl rfl rfl rfl)

theorem opDone_keeps {r : State} {c : Nat} {q : Nat} {s : State} (hs : Keeps r s) :
    Keeps r (opDone c q s) := by
  unfold opDone
  repeat' first
    | with_reducible assumption | with_reducible apply dspCount_keeps | with_reducible apply removeItem_keeps
    | with_reducible apply foldl_keeps | split | dsimp only | intro _ _ _ | intro _ _ | intro _
    | (with_reducible refine Keeps.mk_over ?_ rfl rfl rfl rfl rfl rfl)

theorem staleEpoch_keeps {r : State} {s : State} (hs : Keeps r s) :
    Keeps r (staleEpoch s) := by
  unfold staleEpoch
  repeat' first
    | with_reducible assumption | with_reducible apply raise_keeps | with_reducible apply count_keeps
    | with_reducible apply foldl_keeps | split | dsimp only | intro _ _ _ | intro _ _ | intro _
    | (with_reducible refine Keeps.mk_over ?_ rfl rfl rfl rfl rfl rfl)

theorem syncCreate_keeps {r : State} {e : Nat} {epoch : Nat} {b : Nat} {r1 : List Byte} {s : State} (hs : Keeps r s) :
    Keeps r (syncCreate e epoch b r1 s) := by
  unfold syncCreate
  repeat' first
    | with_reducible assumption | with_reducible apply staleEpoch_keeps | with_reducible apply reserveCreate_keeps
    | with_reducible apply placeRecord_keeps | split | dsimp only | intro _ _ _ | intro _ _ | intro _
    | (with_reducible refine Keeps.mk_over ?_ rfl rfl rfl rfl rfl rfl)

theorem lostRecordOp_keeps {r : State} {b : Nat} {p : Nat} {i : Nat} {s : State} (hs : Keeps r s) :
    Keeps r (lostRecordOp b p i s) := by
  unfold lostRecordOp
  repeat' first
    | with_reducible assumption | with_reducible apply poisonRecord_keeps | split | dsimp only | intro _ _ _ | intro _ _
    | intro _ | (with_reducible refine Keeps.mk_over ?_ rfl rfl rfl rfl rfl rfl)

theorem lostEntryOp_keeps {r : State} {b : Nat} {e : Nat} {s : State} (hs : Keeps r s) :
    Keeps r (lostEntryOp b e s) := by
  unfold lostEntryOp
  repeat' first
    | with_reducible assumption | with_reducible apply poisonOvf_keeps | split | dsimp only | intro _ _ _ | intro _ _ | intro _
    | (with_reducible refine Keeps.mk_over ?_ rfl rfl rfl rfl rfl rfl)

theorem evictOp_keeps {r : State} {b : Nat} {p : Nat} {i : Nat} {s : State} (hs : Keeps r s) :
    Keeps r (evictOp b p i s) := by
  unfold evictOp
  repeat' first
    | with_reducible assumption | with_reducible apply retire_keeps | with_reducible apply sendControl_keeps | split
    | dsimp only | intro _ _ _ | intro _ _ | intro _ | (with_reducible refine Keeps.mk_over ?_ rfl rfl rfl rfl rfl rfl)

theorem ownOp_keeps {r : State} {i : Item} {s : State} (hs : Keeps r s) :
    OptKeeps r (ownOp i s) := by
  unfold ownOp
  split
  · exact OptKeeps.some (syncCreate_keeps hs)
  · exact OptKeeps.some (lostRecordOp_keeps hs)
  · exact OptKeeps.some (poisonBucket_keeps hs)
  · exact OptKeeps.some (lostEntryOp_keeps hs)
  · exact OptKeeps.some (evictOp_keeps hs)
  all_goals exact OptKeeps.none

theorem selectItem_keeps {r : State} {c : Nat} {i : Item} {s : State} (hs : Keeps r s) :
    Keeps r (selectItem c i s) := by
  simp only [selectItem]
  have h := noteWait_keeps (c := c) (tag := i.tag) (noteFall_keeps (c := c)
    (modItem_keeps (c := c) (q := i.seq) (f := fun i => { i with stage := if i.isFrame then .selected else .running }) hs))
  split
  · next u e => exact opDone_keeps (ownOp_keeps h u e)
  · exact h

theorem selectOne_keeps {r : State} {c : Nat} {s : State} (hs : Keeps r s) :
    Keeps r (selectOne c s) := by
  unfold selectOne
  repeat' first
    | with_reducible assumption | with_reducible apply selectItem_keeps | with_reducible apply modCluster_keeps | split
    | dsimp only | (with_reducible refine Keeps.mk_over ?_ rfl rfl rfl rfl rfl rfl)

theorem putEngine_keeps {r : State} {e : Nat} {x : Engine} {s : State} (hs : Keeps r s) :
    Keeps r (putEngine e x s) := by
  unfold putEngine
  repeat' first
    | with_reducible assumption | split | dsimp only | (with_reducible refine Keeps.mk_over ?_ rfl rfl rfl rfl rfl rfl)

theorem fillOne_keeps {r : State} {c : Nat} {s : State} (hs : Keeps r s) :
    Keeps r (fillOne c s) := by
  unfold fillOne
  repeat' first
    | with_reducible assumption | with_reducible apply modCluster_keeps | with_reducible apply modItem_keeps
    | with_reducible apply putEngine_keeps | split | dsimp only
    | (with_reducible refine Keeps.mk_over ?_ rfl rfl rfl rfl rfl rfl)

theorem stageReady_keeps {r : State} {c : Nat} {s : State} (hs : Keeps r s) :
    Keeps r (stageReady c s) := by
  unfold stageReady
  repeat' first
    | with_reducible assumption | with_reducible apply modItem_keeps | split | dsimp only
    | (with_reducible refine Keeps.mk_over ?_ rfl rfl rfl rfl rfl rfl)

theorem admitOp_keeps {r : State} {c : Nat} {s : State} (hs : Keeps r s) :
    Keeps r (admitOp c s) := by
  unfold admitOp
  repeat' first
    | with_reducible assumption | with_reducible apply admitItem_keeps | split | dsimp only
    | (with_reducible refine Keeps.mk_over ?_ rfl rfl rfl rfl rfl rfl)

theorem offerOp_keeps {r : State} {i : Item} {s : State} (hs : Keeps r s) :
    Keeps r (offerOp i s) := by
  unfold offerOp
  repeat' first
    | with_reducible assumption | split | dsimp only | (with_reducible refine Keeps.mk_over ?_ rfl rfl rfl rfl rfl rfl)

theorem offerAgain_keeps {r : State} {i : Item} {s : State} (hs : Keeps r s) :
    Keeps r (offerAgain i s) := by
  unfold offerAgain
  repeat' first
    | with_reducible assumption | split | dsimp only | intro _ _ _ | intro _ _ | intro _
    | (with_reducible refine Keeps.mk_over ?_ rfl rfl rfl rfl rfl rfl)

theorem discardOp_keeps {r : State} {c : Nat} {i : Item} {s : State} (hs : Keeps r s) :
    Keeps r (discardOp c i s) := by
  unfold discardOp
  repeat' first
    | with_reducible assumption | with_reducible apply offerAgain_keeps | with_reducible apply removeItem_keeps | split
    | dsimp only | intro _ _ _ | intro _ _ | intro _ | (with_reducible refine Keeps.mk_over ?_ rfl rfl rfl rfl rfl rfl)

theorem actCancels_keeps {r : State} {c : Nat} {s : State} (hs : Keeps r s) :
    Keeps r (actCancels c s) := by
  unfold actCancels
  repeat' first
    | with_reducible assumption | with_reducible apply foldOver_keeps | with_reducible apply actCancel_keeps | split
    | dsimp only | intro _ _ _ | intro _ _ | intro _ | (with_reducible refine Keeps.mk_over ?_ rfl rfl rfl rfl rfl rfl)

theorem dispatchRound_keeps {r : State} {c : Nat} {s : State} (hs : Keeps r s) :
    Keeps r (dispatchRound c s) := by
  unfold dispatchRound
  repeat' first
    | with_reducible assumption | with_reducible apply fillOne_keeps | with_reducible apply stageReady_keeps
    | with_reducible apply selectOne_keeps | with_reducible apply actCancels_keeps | with_reducible apply admitOp_keeps | split
    | dsimp only | (with_reducible refine Keeps.mk_over ?_ rfl rfl rfl rfl rfl rfl)

theorem unpark_keeps {r : State} {e : Nat} {s : State} (hs : Keeps r s) :
    Keeps r (unpark e s) := by
  unfold unpark
  repeat' first
    | with_reducible assumption | with_reducible apply foldOver_keeps | with_reducible apply modCluster_keeps | split
    | dsimp only | intro _ _ _ | intro _ _ | intro _ | (with_reducible refine Keeps.mk_over ?_ rfl rfl rfl rfl rfl rfl)

theorem transferItem_keeps {r : State} {o : Nat} {n : Nat} {i : Item} {s : State} (hs : Keeps r s) :
    Keeps r (transferItem o n i s) := by
  unfold transferItem
  repeat' first
    | with_reducible assumption | with_reducible apply removeItem_keeps | with_reducible apply unlockItem_keeps
    | with_reducible apply noteRise_keeps | with_reducible apply putCluster_keeps | with_reducible apply raiseC_keeps
    | with_reducible apply dspCount_keeps | split | dsimp only | intro _ _ _ | intro _ _ | intro _
    | (with_reducible refine Keeps.mk_over ?_ rfl rfl rfl rfl rfl rfl)

theorem transferEntry_keeps {r : State} {e : Nat} {o : Nat} {s : State} (hs : Keeps r s) :
    Keeps r (transferEntry e o s) := by
  unfold transferEntry
  repeat' first
    | with_reducible assumption | with_reducible apply foldOver_keeps | with_reducible apply transferItem_keeps | split
    | dsimp only | intro _ _ _ | intro _ _ | intro _ | (with_reducible refine Keeps.mk_over ?_ rfl rfl rfl rfl rfl rfl)

theorem afterLookup_keeps {r : State} {c : Nat} {q : Nat} {s : State} (hs : Keeps r s) :
    Keeps r (afterLookup c q s) := by
  unfold afterLookup
  repeat' first
    | with_reducible assumption | with_reducible apply transferItem_keeps | with_reducible apply stageReady_keeps | split
    | dsimp only | (with_reducible refine Keeps.mk_over ?_ rfl rfl rfl rfl rfl rfl)

theorem lockRecord_keeps {r : State} {b : Nat} {d : Nat} {i : Nat} {p : Nat} {r0 : List Byte} {s : State} (hs : Keeps r s) :
    Keeps r (lockRecord b d i p r0 s) := by
  unfold lockRecord
  repeat' first
    | with_reducible assumption | with_reducible apply modLine_keeps | with_reducible apply installLine_keeps | split
    | dsimp only | (with_reducible refine Keeps.mk_over ?_ rfl rfl rfl rfl rfl rfl)

theorem flowLookupDone_keeps {r : State} {c : Nat} {q : Nat} {err : LookupErr} {s : State} (hs : Keeps r s) :
    Keeps r (flowLookupDone c q err s) := by
  unfold flowLookupDone
  repeat' first
    | with_reducible assumption | with_reducible apply flowFind_keeps | with_reducible apply modItem_keeps
    | with_reducible apply raise_keeps | with_reducible apply count_keeps | with_reducible apply afterLookup_keeps
    | with_reducible apply lockRecord_keeps | split | dsimp only | (refine Keeps.snd ?_ ‹_›)
    | (with_reducible refine Keeps.mk_over ?_ rfl rfl rfl rfl rfl rfl)

theorem execFlowLookupDone_keeps {r : State} {c : Nat} {seq : Nat} {err : LookupErr} {s : State} (hs : Keeps r s) :
    OutKeeps r (execFlowLookupDone c seq err s) := by
  unfold execFlowLookupDone
  repeat' first
    | with_reducible assumption | with_reducible apply guarded_keeps | with_reducible apply OutKeeps.next
    | exact OutKeeps.refused _ | exact OutKeeps.fault _ | with_reducible apply flowLookupDone_keeps | split | dsimp only
    | (with_reducible refine Keeps.mk_over ?_ rfl rfl rfl rfl rfl rfl)

theorem cacheSetUnlock_keeps {r : State} {c : Nat} {q : Nat} {s : State} (hs : Keeps r s) :
    Keeps r (cacheSetUnlock c q s) := by
  unfold cacheSetUnlock
  repeat' first
    | with_reducible assumption | with_reducible apply afterLookup_keeps | with_reducible apply lockRecord_keeps
    | with_reducible apply modItem_keeps | split | dsimp only | (with_reducible refine Keeps.mk_over ?_ rfl rfl rfl rfl rfl rfl)

theorem execCacheSetUnlock_keeps {r : State} {c : Nat} {seq : Nat} {s : State} (hs : Keeps r s) :
    OutKeeps r (execCacheSetUnlock c seq s) := by
  unfold execCacheSetUnlock
  repeat' first
    | with_reducible assumption | with_reducible apply guarded_keeps | with_reducible apply OutKeeps.next
    | exact OutKeeps.refused _ | exact OutKeeps.fault _ | with_reducible apply cacheSetUnlock_keeps | split | dsimp only
    | (with_reducible refine Keeps.mk_over ?_ rfl rfl rfl rfl rfl rfl)

theorem itemAgeExpire_keeps {r : State} {c : Nat} {q : Nat} {s : State} (hs : Keeps r s) :
    Keeps r (itemAgeExpire c q s) := by
  unfold itemAgeExpire
  repeat' first
    | with_reducible assumption | with_reducible apply askCancel_keeps | split | dsimp only
    | (with_reducible refine Keeps.mk_over ?_ rfl rfl rfl rfl rfl rfl)

theorem execItemAgeExpire_keeps {r : State} {c : Nat} {seq : Nat} {s : State} (hs : Keeps r s) :
    OutKeeps r (execItemAgeExpire c seq s) := by
  unfold execItemAgeExpire
  repeat' first
    | with_reducible assumption | with_reducible apply guarded_keeps | with_reducible apply OutKeeps.next
    | exact OutKeeps.refused _ | exact OutKeeps.fault _ | with_reducible apply itemAgeExpire_keeps | split | dsimp only
    | (with_reducible refine Keeps.mk_over ?_ rfl rfl rfl rfl rfl rfl)

theorem execClassWaitClear_keeps {r : State} {w : Window} {k : Nat} {v : Word} {s : State} (hs : Keeps r s) :
    OutKeeps r (execClassWaitClear w k v s) := by
  unfold execClassWaitClear
  repeat' first
    | with_reducible assumption | with_reducible apply guarded_keeps | with_reducible apply OutKeeps.next
    | exact OutKeeps.refused _ | exact OutKeeps.fault _ | with_reducible apply writingC_keeps | with_reducible apply wrX_keeps
    | split | dsimp only | intro _ _ _ | intro _ _ | intro _ | (with_reducible refine Keeps.mk_over ?_ rfl rfl rfl rfl rfl rfl)

theorem noteStart_keeps {r : State} {c : Nat} {i : Item} {s : State} (hs : Keeps r s) :
    Keeps r (noteStart c i s) := by
  unfold noteStart
  repeat' first
    | with_reducible assumption | with_reducible apply measure_keeps | with_reducible apply wrX_keeps
    | with_reducible apply dspCount_keeps | split | dsimp only
    | (with_reducible refine Keeps.mk_over ?_ rfl rfl rfl rfl rfl rfl)

end Sys2Proof.Machine
end

