-- ==== Sys2Proof/Laws/FramesKeeps.lean ====
section
/-! SUPPORT. Every operation of Machine/Frames.lean keeps what `Keeps` speaks of. -/

-- The alternatives of each proof's `first` are the same list; not every alternative is used in every proof.
set_option linter.unreachableTactic false
set_option linter.unusedTactic false

namespace Sys2Proof.Machine

theorem bufferDrop_keeps {r : State} {r0 : Nat} {s : State} (hs : Keeps r s) :
    Keeps r (bufferDrop r0 s) := by
  unfold bufferDrop
  repeat' first
    | with_reducible assumption | with_reducible apply raise_keeps | with_reducible apply count_keeps
    | with_reducible apply emptyResponse_keeps | split | dsimp only
    | (with_reducible refine Keeps.mk_over ?_ rfl rfl rfl rfl rfl rfl)

theorem frameBad_keeps {r : State} {i : Nat} {s : State} (hs : Keeps r s) :
    Keeps r (frameBad i s) := by
  unfold frameBad
  repeat' first
    | with_reducible assumption | with_reducible apply detachRx_keeps | with_reducible apply dropUse_keeps
    | with_reducible apply refreshActive_keeps | with_reducible apply modFrame_keeps | with_reducible apply askCancel_keeps
    | with_reducible apply dropFrame_keeps | split | dsimp only | intro _ _ _ | intro _ _ | intro _
    | (with_reducible refine Keeps.mk_over ?_ rfl rfl rfl rfl rfl rfl)

theorem frameStarved_keeps {r : State} {i : Nat} {s : State} (hs : Keeps r s) :
    Keeps r (frameStarved i s) := by
  unfold frameStarved
  repeat' first
    | with_reducible assumption | with_reducible apply frameBad_keeps | with_reducible apply advanceCells_keeps
    | with_reducible apply modFrame_keeps | split | dsimp only | intro _ _ _ | intro _ _ | intro _
    | (with_reducible refine Keeps.mk_over ?_ rfl rfl rfl rfl rfl rfl)

theorem growCells_keeps {r : State} {i : Nat} {bytes : Nat} {s : State} (hs : Keeps r s) :
    Keeps r (growCells i bytes s).2 := by
  unfold growCells
  extract_lets f q
  clear_value q f
  split
  · next is t e =>
    have ht : Keeps r (modFrame i (fun f => { f with cells := f.cells ++ is }) t) := modFrame_keeps (Keeps.snd (takeCells_keeps hs) e)
    dsimp only
    generalize modFrame i (fun f => { f with cells := f.cells ++ is }) t = u at ht
    split
    · exact noteOnset_keeps ht
    · exact ht
  · next t e =>
    have ht : Keeps r t := Keeps.snd (takeCells_keeps hs) e
    dsimp only
    exact bufferDrop_keeps ht

theorem withMirror_keeps {r : State} {i : Nat} {s : State} (hs : Keeps r s) :
    Keeps r (withMirror i s) := by
  unfold withMirror
  repeat' first
    | with_reducible assumption | with_reducible apply mirrorEnter_keeps | split | dsimp only
    | (with_reducible refine Keeps.mk_over ?_ rfl rfl rfl rfl rfl rfl)

theorem tieLoopDrop_keeps {r : State} {i : Nat} {s : State} (hs : Keeps r s) :
    Keeps r (tieLoopDrop i s) := by
  unfold tieLoopDrop
  repeat' first
    | with_reducible assumption | with_reducible apply tieLoop_keeps | with_reducible apply dropFrame_keeps | split | dsimp only
    | intro _ _ _ | intro _ _ | intro _ | (with_reducible refine Keeps.mk_over ?_ rfl rfl rfl rfl rfl rfl)

theorem forwardFrame_keeps {r : State} {i : Nat} {ref : Option Nat} {s : State} (hs : Keeps r s) :
    Keeps r (forwardFrame i ref s) := by
  unfold forwardFrame
  repeat' first
    | with_reducible assumption | with_reducible apply dropFrame_keeps | with_reducible apply tieLoopDrop_keeps
    | with_reducible apply voqEnter_keeps | with_reducible apply withMirror_keeps | split | dsimp only
    | (with_reducible refine Keeps.mk_over ?_ rfl rfl rfl rfl rfl rfl)

theorem hostFrame_keeps {r : State} {i : Nat} {ref : Option Nat} {s : State} (hs : Keeps r s) :
    Keeps r (hostFrame i ref s) := by
  unfold hostFrame
  repeat' first
    | with_reducible assumption | with_reducible apply voqEnter_keeps | with_reducible apply withMirror_keeps
    | with_reducible apply modFrame_keeps | split | dsimp only
    | (with_reducible refine Keeps.mk_over ?_ rfl rfl rfl rfl rfl rfl)

theorem byPolicy_keeps {r : State} {pol : Nat} {i : Nat} {s : State} (hs : Keeps r s) :
    Keeps r (byPolicy pol i s) := by
  unfold byPolicy
  repeat' first
    | with_reducible assumption | with_reducible apply dropFrame_keeps | with_reducible apply hostFrame_keeps
    | with_reducible apply forwardFrame_keeps | split | dsimp only
    | (with_reducible refine Keeps.mk_over ?_ rfl rfl rfl rfl rfl rfl)

theorem recircLimit_keeps {r : State} {i : Nat} {s : State} (hs : Keeps r s) :
    Keeps r (recircLimit i s) := by
  unfold recircLimit
  repeat' first
    | with_reducible assumption | with_reducible apply raise_keeps | with_reducible apply excOccurs_keeps
    | with_reducible apply putFrame_keeps | with_reducible apply byPolicy_keeps | split | dsimp only
    | (with_reducible refine Keeps.mk_over ?_ rfl rfl rfl rfl rfl rfl)

theorem recircFrame_keeps {r : State} {i : Nat} {s : State} (hs : Keeps r s) :
    Keeps r (recircFrame i s) := by
  unfold recircFrame
  repeat' first
    | with_reducible assumption | with_reducible apply recircLimit_keeps | with_reducible apply voqEnter_keeps
    | with_reducible apply withMirror_keeps | with_reducible apply modFrame_keeps | split | dsimp only
    | (with_reducible refine Keeps.mk_over ?_ rfl rfl rfl rfl rfl rfl)

theorem steerToOwner_keeps {r : State} {i : Nat} {s : State} (hs : Keeps r s) :
    Keeps r (steerToOwner i s) := by
  unfold steerToOwner
  repeat' first
    | with_reducible assumption | with_reducible apply raise_keeps | with_reducible apply count_keeps
    | with_reducible apply hostFrame_keeps | with_reducible apply dropFrame_keeps | with_reducible apply tieLoopDrop_keeps
    | with_reducible apply voqEnter_keeps | with_reducible apply putFrame_keeps | split | dsimp only
    | (with_reducible refine Keeps.mk_over ?_ rfl rfl rfl rfl rfl rfl)

theorem offerFrame_keeps {r : State} {i : Nat} {prog : Nat} {kp : Nat} {s : State} (hs : Keeps r s) :
    Keeps r (offerFrame i prog kp s) := by
  unfold offerFrame
  repeat' first
    | with_reducible assumption | with_reducible apply admitItem_keeps | with_reducible apply backPressure_keeps
    | with_reducible apply forwardFrame_keeps | with_reducible apply hostFrame_keeps | with_reducible apply dropFrame_keeps
    | split | dsimp only | (with_reducible refine Keeps.mk_over ?_ rfl rfl rfl rfl rfl rfl)

theorem flowDecision_keeps {r : State} {i : Nat} {s : State} (hs : Keeps r s) :
    Keeps r (flowDecision i s) := by
  unfold flowDecision
  repeat' first
    | with_reducible assumption | with_reducible apply dropFrame_keeps | with_reducible apply fltCount_keeps
    | with_reducible apply putFrame_keeps | with_reducible apply offerFrame_keeps | with_reducible apply steerToOwner_keeps
    | split | dsimp only | intro _ _ _ | intro _ _ | intro _ | (with_reducible refine Keeps.mk_over ?_ rfl rfl rfl rfl rfl rfl)

theorem decideFrame_keeps {r : State} {i : Nat} {s0 : State} (hs : Keeps r s0) :
    Keeps r (decideFrame i s0) := by
  unfold decideFrame
  repeat' first
    | with_reducible assumption | with_reducible apply excOccurs_keeps | with_reducible apply putFrame_keeps
    | with_reducible apply dropFrame_keeps | with_reducible apply hostFrame_keeps | with_reducible apply recircFrame_keeps
    | with_reducible apply flowDecision_keeps | with_reducible apply forwardFrame_keeps | split | dsimp only | intro _ _ _
    | intro _ _ | intro _ | (with_reducible refine Keeps.mk_over ?_ rfl rfl rfl rfl rfl rfl)

theorem meterAndDecide_keeps {r : State} {i : Nat} {s : State} (hs : Keeps r s) :
    Keeps r (meterAndDecide i s) := by
  unfold meterAndDecide
  repeat' first
    | with_reducible assumption | with_reducible apply meterFrame_keeps | with_reducible apply dropFrame_keeps
    | with_reducible apply decideFrame_keeps | with_reducible apply modFrame_keeps | split | dsimp only
    | (refine Keeps.snd ?_ ‹_›) | (with_reducible refine Keeps.mk_over ?_ rfl rfl rfl rfl rfl rfl)

theorem countRule_keeps {r : State} {f : Frame} {b : Nat} {s : State} (hs : Keeps r s) :
    Keeps r (countRule f b s) := by
  unfold countRule
  repeat' first
    | with_reducible assumption | with_reducible apply countPcn_keeps | split | dsimp only
    | (with_reducible refine Keeps.mk_over ?_ rfl rfl rfl rfl rfl rfl)

theorem storeLookup_keeps {r : State} {i : Nat} {s : State} (hs : Keeps r s) :
    Keeps r (storeLookup i s) := by
  unfold storeLookup
  repeat' first
    | with_reducible assumption | with_reducible apply destLookup_keeps | with_reducible apply modFrame_keeps | split
    | dsimp only | (refine Keeps.snd ?_ ‹_›) | (with_reducible refine Keeps.mk_over ?_ rfl rfl rfl rfl rfl rfl)

theorem afterLookups_keeps {r : State} {i : Nat} {s : State} (hs : Keeps r s) :
    Keeps r (afterLookups i s) := by
  unfold afterLookups
  repeat' first
    | with_reducible assumption | with_reducible apply learnAtTail_keeps | with_reducible apply dropFrame_keeps
    | with_reducible apply meterAndDecide_keeps | with_reducible apply modFrame_keeps | with_reducible apply decideFrame_keeps
    | split | dsimp only | (refine Keeps.snd ?_ ‹_›) | (with_reducible refine Keeps.mk_over ?_ rfl rfl rfl rfl rfl rfl)

theorem parseStages_keeps {r : State} {i : Nat} {s : State} (hs : Keeps r s) :
    OptKeeps r (parseStages i s) := by
  unfold parseStages
  repeat' first
    | with_reducible assumption | with_reducible apply OptKeeps.some | exact OptKeeps.none | with_reducible apply foldOver_keeps
    | with_reducible apply foldOver_optKeeps | with_reducible apply excOccurs_keeps | with_reducible apply putFrame_keeps
    | with_reducible apply dropFrame_keeps | with_reducible apply satX_keeps | with_reducible apply afterLookups_keeps
    | with_reducible apply storeLookup_keeps | with_reducible apply sourceLookup_keeps | with_reducible apply countRule_keeps
    | split | dsimp only | intro _ _ _ | intro _ _ | intro _ | (with_reducible refine Keeps.mk_over ?_ rfl rfl rfl rfl rfl rfl)

theorem stampedStages_keeps {r : State} {i : Nat} {s : State} (hs : Keeps r s) :
    Keeps r (stampedStages i s) := by
  unfold stampedStages
  split
  · exact dropFrame_keeps hs
  · split
    · exact dropFrame_keeps (sat1_keeps hs)
    · exact (parseStages_keeps hs).getD hs

theorem enterParser_keeps {r : State} {i : Nat} {prof : Nat} {s : State} (hs : Keeps r s) :
    Keeps r (enterParser i prof s) := by
  unfold enterParser
  split
  · exact stampedStages_keeps hs
  · split
    · exact dropFrame_keeps hs
    · split
      · exact raiseC_keeps (count_keeps (dropFrame_keeps hs))
      · exact (parseStages_keeps (modFrame_keeps hs)).getD (modFrame_keeps hs)

theorem dropParsing_keeps {r : State} {prof : Nat} {s : State} (hs : Keeps r s) :
    Keeps r (dropParsing prof s) := by
  unfold dropParsing
  repeat' first
    | with_reducible assumption | with_reducible apply foldOver_keeps | with_reducible apply raiseC_keeps
    | with_reducible apply count_keeps | with_reducible apply dropFrame_keeps | split | dsimp only | intro _ _ _ | intro _ _
    | intro _ | (with_reducible refine Keeps.mk_over ?_ rfl rfl rfl rfl rfl rfl)

theorem dropClassifying_keeps {r : State} {s : State} (hs : Keeps r s) :
    Keeps r (dropClassifying s) := by
  unfold dropClassifying
  repeat' first
    | with_reducible assumption | with_reducible apply foldOver_keeps | with_reducible apply dropFrame_keeps
    | with_reducible apply sat1_keeps | split | dsimp only | intro _ _ _ | intro _ _ | intro _
    | (with_reducible refine Keeps.mk_over ?_ rfl rfl rfl rfl rfl rfl)

theorem putRx_keeps {r : State} {p : Nat} {r0 : RxPort} {s : State} (hs : Keeps r s) :
    Keeps r (putRx p r0 s) := by
  unfold putRx
  repeat' first
    | with_reducible assumption | split | dsimp only | (with_reducible refine Keeps.mk_over ?_ rfl rfl rfl rfl rfl rfl)

theorem discardRx_keeps {r : State} {p : Nat} {head : List Byte} {counted : Bool} {s : State} (hs : Keeps r s) :
    Keeps r (discardRx p head counted s) := by
  unfold discardRx
  repeat' first
    | with_reducible assumption | with_reducible apply putRx_keeps | split | dsimp only | intro _ _ _ | intro _ _ | intro _
    | (with_reducible refine Keeps.mk_over ?_ rfl rfl rfl rfl rfl rfl)

theorem macDrop_keeps {r : State} {k : Nat} {p : Nat} {s : State} (hs : Keeps r s) :
    Keeps r (macDrop k p s) := by
  unfold macDrop
  repeat' first
    | with_reducible assumption | with_reducible apply raiseC_keeps | with_reducible apply portCount_keeps | split | dsimp only
    | (with_reducible refine Keeps.mk_over ?_ rfl rfl rfl rfl rfl rfl)

theorem beginRx_keeps {r : State} {p : Nat} {sub : Nat} {head : List Byte} {len : Nat} {s : State} (hs : Keeps r s) :
    Keeps r (beginRx p sub head len s) := by
  unfold beginRx
  repeat' first
    | with_reducible assumption | with_reducible apply newFrame_keeps | with_reducible apply growCells_keeps
    | with_reducible apply putRx_keeps | with_reducible apply discardRx_keeps | with_reducible apply endFrame_keeps | split
    | dsimp only | intro _ _ _ | intro _ _ | intro _ | (with_reducible refine Keeps.mk_over ?_ rfl rfl rfl rfl rfl rfl)

theorem frameArrival_keeps {r : State} {p : Nat} {sub : Nat} {head : List Byte} {len : Nat} {overflow : Bool} {s : State} (hs :
    Keeps r s) :
    Keeps r (frameArrival p sub head len overflow s) := by
  unfold frameArrival
  repeat' first
    | with_reducible assumption | with_reducible apply discardRx_keeps | with_reducible apply portCount_keeps
    | with_reducible apply macDrop_keeps | with_reducible apply count_keeps | with_reducible apply beginRx_keeps | split
    | dsimp only | intro _ _ _ | intro _ _ | intro _ | (with_reducible refine Keeps.mk_over ?_ rfl rfl rfl rfl rfl rfl)

theorem execFrameArrival_keeps {r : State} {p : Nat} {sub : Nat} {head : List Byte} {len : Nat} {overflow : Bool} {s : State} (hs : Keeps r s) :
    OutKeeps r (execFrameArrival p sub head len overflow s) := by
  unfold execFrameArrival
  repeat' first
    | with_reducible assumption | with_reducible apply guarded_keeps | with_reducible apply OutKeeps.next
    | exact OutKeeps.refused _ | exact OutKeeps.fault _ | with_reducible apply frameArrival_keeps | split | dsimp only
    | (with_reducible refine Keeps.mk_over ?_ rfl rfl rfl rfl rfl rfl)

theorem syncTwin_keeps {r : State} {i : Nat} {s : State} (hs : Keeps r s) :
    Keeps r (syncTwin i s) := by
  unfold syncTwin
  repeat' first
    | with_reducible assumption | with_reducible apply modFrame_keeps | split | dsimp only
    | (with_reducible refine Keeps.mk_over ?_ rfl rfl rfl rfl rfl rfl)

theorem lateSduTest_keeps {r : State} {i : Nat} {s : State} (hs : Keeps r s) :
    Keeps r (lateSduTest i s) := by
  unfold lateSduTest
  repeat' first
    | with_reducible assumption | with_reducible apply raiseC_keeps | with_reducible apply count_keeps
    | with_reducible apply dropFrame_keeps | with_reducible apply refreshActive_keeps | split | dsimp only
    | (with_reducible refine Keeps.mk_over ?_ rfl rfl rfl rfl rfl rfl)

theorem goodTail_keeps {r : State} {i : Nat} {s : State} (hs : Keeps r s) :
    Keeps r (goodTail i s) := by
  unfold goodTail
  repeat' first
    | with_reducible assumption | with_reducible apply learnAtTail_keeps | with_reducible apply frameBad_keeps
    | with_reducible apply meterAndDecide_keeps | with_reducible apply modFrame_keeps | with_reducible apply lateSduTest_keeps
    | split | dsimp only | (refine Keeps.snd ?_ ‹_›) | (with_reducible refine Keeps.mk_over ?_ rfl rfl rfl rfl rfl rfl)

theorem learnLate_keeps {r : State} {late : Option Frame} {s : State} (hs : Keeps r s) :
    Keeps r (learnLate late s) := by
  unfold learnLate
  repeat' first
    | with_reducible assumption | with_reducible apply learnFrom_keeps | split | dsimp only | intro _ _ _ | intro _ _ | intro _
    | (with_reducible refine Keeps.mk_over ?_ rfl rfl rfl rfl rfl rfl)

theorem storeTail_keeps {r : State} {i : Nat} {rest : List Byte} {s : State} (hs : Keeps r s) :
    Keeps r (storeTail i rest s) := by
  unfold storeTail
  repeat' first
    | with_reducible assumption | with_reducible apply growCells_keeps | with_reducible apply goodTail_keeps
    | with_reducible apply syncTwin_keeps | with_reducible apply modFrame_keeps | with_reducible apply frameStarved_keeps
    | with_reducible apply learnLate_keeps | split | dsimp only | intro _ _ _ | intro _ _ | intro _
    | (with_reducible refine Keeps.mk_over ?_ rfl rfl rfl rfl rfl rfl)

theorem lostTail_keeps {r : State} {i : Nat} {rest : List Byte} {n : Nat} {s : State} (hs : Keeps r s) :
    Keeps r (lostTail i rest n s) := by
  unfold lostTail
  repeat' first
    | with_reducible assumption | with_reducible apply growCells_keeps | with_reducible apply frameBad_keeps
    | with_reducible apply modFrame_keeps | with_reducible apply frameStarved_keeps | split | dsimp only | intro _ _ _
    | intro _ _ | intro _ | (with_reducible refine Keeps.mk_over ?_ rfl rfl rfl rfl rfl rfl)

theorem frameTailArrival_keeps {r : State} {p : Nat} {rest : List Byte} {o : TailOutcome} {s : State} (hs : Keeps r s) :
    Keeps r (frameTailArrival p rest o s) := by
  unfold frameTailArrival
  repeat' first
    | with_reducible assumption | with_reducible apply takeMark_keeps | with_reducible apply putRx_keeps
    | with_reducible apply portCount_keeps | with_reducible apply learnLate_keeps | with_reducible apply foldOver_keeps
    | with_reducible apply macDrop_keeps | with_reducible apply storeTail_keeps | with_reducible apply lostTail_keeps | split
    | dsimp only | intro _ _ _ | intro _ _ | intro _ | (with_reducible refine Keeps.mk_over ?_ rfl rfl rfl rfl rfl rfl)

theorem execFrameTailArrival_keeps {r : State} {p : Nat} {rest : List Byte} {o : TailOutcome} {s : State} (hs : Keeps r s) :
    OutKeeps r (execFrameTailArrival p rest o s) := by
  unfold execFrameTailArrival
  repeat' first
    | with_reducible assumption | with_reducible apply guarded_keeps | with_reducible apply OutKeeps.next
    | exact OutKeeps.refused _ | exact OutKeeps.fault _ | with_reducible apply onlyIf_keeps
    | with_reducible apply moveLater_keeps | with_reducible apply frameTailArrival_keeps | split | dsimp only | intro _ _ _
    | intro _ _ | intro _ | (with_reducible refine Keeps.mk_over ?_ rfl rfl rfl rfl rfl rfl)

theorem parseFrame_keeps {r : State} {p : Nat} {s : State} (hs : Keeps r s) :
    Keeps r (parseFrame p s) := by
  unfold parseFrame
  repeat' first
    | with_reducible assumption | with_reducible apply enterParser_keeps | with_reducible apply putRx_keeps | split | dsimp only
    | (with_reducible refine Keeps.mk_over ?_ rfl rfl rfl rfl rfl rfl)

theorem execParseFrame_keeps {r : State} {p : Nat} {s : State} (hs : Keeps r s) :
    OutKeeps r (execParseFrame p s) := by
  unfold execParseFrame
  repeat' first
    | with_reducible assumption | with_reducible apply guarded_keeps | with_reducible apply OutKeeps.next
    | exact OutKeeps.refused _ | exact OutKeeps.fault _ | with_reducible apply parseFrame_keeps | split | dsimp only
    | (with_reducible refine Keeps.mk_over ?_ rfl rfl rfl rfl rfl rfl)

theorem newStored_keeps {r : State} {f : Frame} {s : State} (hs : Keeps r s) :
    Keeps r (newStored f s).2 := by
  unfold newStored
  split
  · next e => exact Keeps.snd (takeCells_keeps hs) e
  · next e => exact newFrame_keeps (Keeps.snd (takeCells_keeps hs) e)

theorem hostFrameArrival_keeps {r : State} {bytes : List Byte} {s : State} (hs : Keeps r s) :
    Keeps r (hostFrameArrival bytes s) := by
  unfold hostFrameArrival
  split
  · exact hs
  · split
    · exact count_keeps hs
    · dsimp only
      split
      · next e => exact bufferDrop_keeps (Keeps.snd (newStored_keeps (takeFree_keeps hs)) e)
      · next e => exact enterParser_keeps (Keeps.snd (newStored_keeps (takeFree_keeps hs)) e)

theorem execHostFrameArrival_keeps {r : State} {bytes : List Byte} {s : State} (hs : Keeps r s) :
    OutKeeps r (execHostFrameArrival bytes s) := by
  unfold execHostFrameArrival
  repeat' first
    | with_reducible assumption | with_reducible apply guarded_keeps | with_reducible apply OutKeeps.next
    | exact OutKeeps.refused _ | exact OutKeeps.fault _ | with_reducible apply hostFrameArrival_keeps | split | dsimp only
    | (with_reducible refine Keeps.mk_over ?_ rfl rfl rfl rfl rfl rfl)

theorem parseAgain_keeps {r : State} {i : Nat} {s : State} (hs : Keeps r s) :
    Keeps r (parseAgain i s) := by
  unfold parseAgain
  repeat' first
    | with_reducible assumption | with_reducible apply raiseC_keeps | with_reducible apply count_keeps
    | with_reducible apply dropFrame_keeps | with_reducible apply stampedStages_keeps | split | dsimp only | intro _ _ _
    | intro _ _ | intro _ | (with_reducible refine Keeps.mk_over ?_ rfl rfl rfl rfl rfl rfl)

theorem recircReentry_keeps {r : State} {s : State} (hs : Keeps r s) :
    Keeps r (recircReentry s) := by
  unfold recircReentry
  split
  · exact hs
  · dsimp only
    split
    · exact hs
    · split
      · exact leaveEg_keeps (count_keeps hs)
      · split
        · next e => exact leaveEg_keeps (bufferDrop_keeps (Keeps.snd (takeCells_keeps hs) e))
        · next e => exact parseAgain_keeps (leaveEg_keeps (newFrame_keeps (Keeps.snd (takeCells_keeps hs) e)))

theorem execRecircReentry_keeps {r : State} {s : State} (hs : Keeps r s) :
    OutKeeps r (execRecircReentry s) := by
  unfold execRecircReentry
  repeat' first
    | with_reducible assumption | with_reducible apply guarded_keeps | with_reducible apply OutKeeps.next
    | exact OutKeeps.refused _ | exact OutKeeps.fault _ | with_reducible apply recircReentry_keeps | split | dsimp only
    | (with_reducible refine Keeps.mk_over ?_ rfl rfl rfl rfl rfl rfl)

end Sys2Proof.Machine
end

