-- ==== Sys2Proof/Laws/LinkLossKeeps.lean ====
section
/-! SUPPORT. Every operation of Machine/LinkLoss.lean keeps what `Keeps` speaks of. -/

-- The alternatives of each proof's `first` are the same list; not every alternative is used in every proof.
set_option linter.unreachableTactic false
set_option linter.unusedTactic false

namespace Sys2Proof.Machine

theorem freePortFrames_keeps {r : State} {p : Nat} {s : State} (hs : Keeps r s) :
    Keeps r (freePortFrames p s) := by
  unfold freePortFrames
  repeat' first
    | with_reducible assumption | with_reducible apply foldOver_keeps | with_reducible apply dropFrame_keeps
    | with_reducible apply portCount_keeps | with_reducible apply leaveEg_keeps | split | dsimp only | intro _ _ _ | intro _ _
    | intro _ | (with_reducible refine Keeps.mk_over ?_ rfl rfl rfl rfl rfl rfl)

theorem linkGone_keeps {r : State} {p : Nat} {s : State} (hs : Keeps r s) :
    Keeps r (linkGone p s) := by
  unfold linkGone
  repeat' first
    | with_reducible assumption | with_reducible apply freePortFrames_keeps | with_reducible apply startLanes_keeps | split
    | dsimp only | intro _ _ _ | intro _ _ | intro _ | (with_reducible refine Keeps.mk_over ?_ rfl rfl rfl rfl rfl rfl)

theorem laneGone_keeps {r : State} {l : Nat} {s : State} (hs : Keeps r s) :
    Keeps r (laneGone l s) := by
  unfold laneGone
  repeat' first
    | with_reducible assumption | with_reducible apply linkGone_keeps | split | dsimp only | intro _ _ _ | intro _ _ | intro _
    | (with_reducible refine Keeps.mk_over ?_ rfl rfl rfl rfl rfl rfl)

theorem execSignalLost_keeps {r : State} {l : Nat} {s : State} (hs : Keeps r s) :
    OutKeeps r (execSignalLost l s) := by
  unfold execSignalLost
  repeat' first
    | with_reducible assumption | with_reducible apply guarded_keeps | with_reducible apply OutKeeps.next
    | exact OutKeeps.refused _ | exact OutKeeps.fault _ | with_reducible apply onLane_keeps
    | with_reducible apply laneGone_keeps | with_reducible apply signalLost_keeps | split | dsimp only | intro _ _ _ | intro _ _
    | intro _ | (with_reducible refine Keeps.mk_over ?_ rfl rfl rfl rfl rfl rfl)

theorem execPcsFaultPersist_keeps {r : State} {p : Nat} {s : State} (hs : Keeps r s) :
    OutKeeps r (execPcsFaultPersist p s) := by
  unfold execPcsFaultPersist
  repeat' first
    | with_reducible assumption | with_reducible apply guarded_keeps | with_reducible apply OutKeeps.next
    | exact OutKeeps.refused _ | exact OutKeeps.fault _ | with_reducible apply onLivePort_keeps
    | with_reducible apply linkGone_keeps | with_reducible apply dropLanes_keeps | split | dsimp only | intro _ _ _ | intro _ _
    | intro _ | (with_reducible refine Keeps.mk_over ?_ rfl rfl rfl rfl rfl rfl)

theorem execRemoteFaultReceived_keeps {r : State} {p : Nat} {s : State} (hs : Keeps r s) :
    OutKeeps r (execRemoteFaultReceived p s) := by
  unfold execRemoteFaultReceived
  repeat' first
    | with_reducible assumption | with_reducible apply guarded_keeps | with_reducible apply OutKeeps.next
    | exact OutKeeps.refused _ | exact OutKeeps.fault _ | with_reducible apply onLivePort_keeps
    | with_reducible apply linkGone_keeps | with_reducible apply remoteFault_keeps | split | dsimp only | intro _ _ _
    | intro _ _ | intro _ | (with_reducible refine Keeps.mk_over ?_ rfl rfl rfl rfl rfl rfl)

theorem lanCommitted_keeps {r : State} {old : State} {new : State} (_hold : Keeps r old) (hs : Keeps r new) :
    Keeps r (lanCommitted old new) := by
  unfold lanCommitted
  repeat' first
    | with_reducible assumption | with_reducible apply foldOver_keeps | with_reducible apply laneGone_keeps
    | with_reducible apply restartLane_keeps | split | dsimp only | intro _ _ _ | intro _ _ | intro _
    | (with_reducible refine Keeps.mk_over ?_ rfl rfl rfl rfl rfl rfl)

theorem laneLeaves_keeps {r : State} {l : Nat} {s : State} (hs : Keeps r s) :
    Keeps r (laneLeaves l s) := by
  unfold laneLeaves
  repeat' first
    | with_reducible assumption | with_reducible apply tieLanesLost_keeps | with_reducible apply linkGone_keeps
    | with_reducible apply wrC_keeps | with_reducible apply portDown_keeps | with_reducible apply refreshSynce_keeps
    | with_reducible apply setLane_keeps | with_reducible apply clearPass_keeps | with_reducible apply laneDown_keeps | split
    | dsimp only | intro _ _ _ | intro _ _ | intro _ | (with_reducible refine Keeps.mk_over ?_ rfl rfl rfl rfl rfl rfl)

theorem resetMac_keeps {r : State} {p : Nat} {s : State} (hs : Keeps r s) :
    Keeps r (resetMac p s) := by
  unfold resetMac
  repeat' first
    | with_reducible assumption | with_reducible apply putRx_keeps | with_reducible apply frameBad_keeps | split | dsimp only
    | intro _ _ _ | intro _ _ | intro _ | (with_reducible refine Keeps.mk_over ?_ rfl rfl rfl rfl rfl rfl)

theorem clearRx_keeps {r : State} {p : Nat} {s : State} (hs : Keeps r s) :
    Keeps r (clearRx p s) := by
  unfold clearRx
  repeat' first
    | with_reducible assumption | with_reducible apply resetMac_keeps | with_reducible apply putRx_keeps | split | dsimp only
    | intro _ _ _ | intro _ _ | intro _ | (with_reducible refine Keeps.mk_over ?_ rfl rfl rfl rfl rfl rfl)

theorem prtWideStarting_keeps {r : State} {s : State} (hs : Keeps r s) :
    Keeps r (prtWideStarting s) := by
  unfold prtWideStarting
  repeat' first
    | with_reducible assumption | with_reducible apply foldOver_keeps | with_reducible apply resetMac_keeps
    | with_reducible apply fecBad_keeps | split | dsimp only | intro _ _ _ | intro _ _ | intro _
    | (with_reducible refine Keeps.mk_over ?_ rfl rfl rfl rfl rfl rfl)

theorem holdBack_keeps {r : State} {again : List Nat} {old : State} {new : State} (_hold : Keeps r old) (hs : Keeps r new) :
    Keeps r (holdBack again old new) := by
  unfold holdBack
  repeat' first
    | with_reducible assumption | with_reducible apply foldOver_keeps | with_reducible apply putVals_keeps | split | dsimp only
    | intro _ _ _ | intro _ _ | intro _ | (with_reducible refine Keeps.mk_over ?_ rfl rfl rfl rfl rfl rfl)

end Sys2Proof.Machine
end

