-- ==== Sys2Proof/Laws/RecorderKeeps.lean ====
section
/-! SUPPORT. Every operation of Machine/Recorder.lean keeps what `Keeps` speaks of. -/

-- The alternatives of each proof's `first` are the same list; not every alternative is used in every proof.
set_option linter.unreachableTactic false
set_option linter.unusedTactic false

namespace Sys2Proof.Machine

theorem meshWrite_keeps {r : State} {ws : List Word} {s : State} (hs : Keeps r s) :
    Keeps r (meshWrite ws s) := by
  unfold meshWrite
  repeat' first
    | with_reducible assumption | with_reducible apply foldl_keeps | split | dsimp only | intro _ _ _ | intro _ _ | intro _
    | (with_reducible refine Keeps.mk_over ?_ rfl rfl rfl rfl rfl rfl)

theorem placeFreed_keeps {r : State} {s : State} (hs : Keeps r s) :
    Keeps r (placeFreed s) := by
  unfold placeFreed
  repeat' first
    | with_reducible assumption | with_reducible apply foldl_keeps | split | dsimp only | intro _ _ _ | intro _ _ | intro _
    | (with_reducible refine Keeps.mk_over ?_ rfl rfl rfl rfl rfl rfl)

theorem flushLostCheck_keeps {r : State} {s : State} (hs : Keeps r s) :
    Keeps r (flushLostCheck s) := by
  unfold flushLostCheck
  repeat' first
    | with_reducible assumption | with_reducible apply raise_keeps | with_reducible apply satX_keeps
    | with_reducible apply foldl_keeps | split | dsimp only | intro _ _ _ | intro _ _ | intro _
    | (with_reducible refine Keeps.mk_over ?_ rfl rfl rfl rfl rfl rfl)

theorem fwdLostCheck_keeps {r : State} {s : State} (hs : Keeps r s) :
    Keeps r (fwdLostCheck s) := by
  unfold fwdLostCheck
  repeat' first
    | with_reducible assumption | with_reducible apply raise_keeps | with_reducible apply satX_keeps | split | dsimp only
    | intro _ _ _ | intro _ _ | intro _ | (with_reducible refine Keeps.mk_over ?_ rfl rfl rfl rfl rfl rfl)

theorem ringWrite_keeps {r : State} {r0 : Rec} {rest : List Rec} {s : State} (hs : Keeps r s) :
    Keeps r (ringWrite r0 rest s) := by
  unfold ringWrite
  repeat' first
    | with_reducible assumption | with_reducible apply fwdLostCheck_keeps | with_reducible apply flushLostCheck_keeps
    | with_reducible apply placeFreed_keeps | with_reducible apply satX_keeps | with_reducible apply meshWrite_keeps
    | with_reducible apply raise_keeps | with_reducible apply foldl_keeps | split | dsimp only | intro _ _ _ | intro _ _
    | intro _ | (with_reducible refine Keeps.mk_over ?_ rfl rfl rfl rfl rfl rfl)

theorem execRingWrite_keeps {r : State} {s : State} (hs : Keeps r s) :
    OutKeeps r (execRingWrite s) := by
  unfold execRingWrite
  repeat' first
    | with_reducible assumption | with_reducible apply guarded_keeps | with_reducible apply OutKeeps.next
    | exact OutKeeps.refused _ | exact OutKeeps.fault _ | with_reducible apply ringWrite_keeps
    | with_reducible apply foldl_keeps | split | dsimp only | intro _ _ _ | intro _ _ | intro _
    | (with_reducible refine Keeps.mk_over ?_ rfl rfl rfl rfl rfl rfl)

theorem execGlobalTokenGain_keeps {r : State} {s : State} (hs : Keeps r s) :
    OutKeeps r (execGlobalTokenGain s) := by
  unfold execGlobalTokenGain
  repeat' first
    | with_reducible assumption | with_reducible apply guarded_keeps | with_reducible apply OutKeeps.next
    | exact OutKeeps.refused _ | exact OutKeeps.fault _ | with_reducible apply foldl_keeps | split | dsimp only | intro _ _ _
    | intro _ _ | intro _ | (with_reducible refine Keeps.mk_over ?_ rfl rfl rfl rfl rfl rfl)

theorem execCheckpointExpire_keeps {r : State} {s : State} (hs : Keeps r s) :
    OutKeeps r (execCheckpointExpire s) := by
  unfold execCheckpointExpire
  repeat' first
    | with_reducible assumption | with_reducible apply guarded_keeps | with_reducible apply OutKeeps.next
    | exact OutKeeps.refused _ | exact OutKeeps.fault _ | with_reducible apply onlyIf_keeps
    | with_reducible apply writeRec_keeps | split | dsimp only | intro _ _ _ | intro _ _ | intro _
    | (with_reducible refine Keeps.mk_over ?_ rfl rfl rfl rfl rfl rfl)

theorem bucketRefill_keeps {r : State} {key : Nat} {s : State} (hs : Keeps r s) :
    Keeps r (bucketRefill key s) := by
  unfold bucketRefill
  repeat' first
    | with_reducible assumption | with_reducible apply offerRec_keeps | with_reducible apply raise_keeps | split | dsimp only
    | intro _ _ _ | intro _ _ | intro _ | (with_reducible refine Keeps.mk_over ?_ rfl rfl rfl rfl rfl rfl)

theorem execCodeBucketRefill_keeps {r : State} {code : Nat} {s : State} (hs : Keeps r s) :
    OutKeeps r (execCodeBucketRefill code s) := by
  unfold execCodeBucketRefill
  repeat' first
    | with_reducible assumption | with_reducible apply guarded_keeps | with_reducible apply OutKeeps.next
    | exact OutKeeps.refused _ | exact OutKeeps.fault _ | with_reducible apply bucketRefill_keeps
    | with_reducible apply foldl_keeps | split | dsimp only | intro _ _ _ | intro _ _ | intro _
    | (with_reducible refine Keeps.mk_over ?_ rfl rfl rfl rfl rfl rfl)

theorem wrCtlWrite_keeps {r : State} {w : Window} {v : Word} {s : State} (hs : Keeps r s) :
    Keeps r (wrCtlWrite w v s) := by
  unfold wrCtlWrite
  repeat' first
    | with_reducible assumption | with_reducible apply wrC_keeps | with_reducible apply offerRec_keeps
    | with_reducible apply raise_keeps | with_reducible apply foldl_keeps | split | dsimp only | intro _ _ _ | intro _ _
    | intro _ | (with_reducible refine Keeps.mk_over ?_ rfl rfl rfl rfl rfl rfl)

theorem execTmkWrGo_keeps {r : State} {w : Window} {v : Word} {s : State} (hs : Keeps r s) :
    OutKeeps r (execTmkWrGo w v s) := by
  unfold execTmkWrGo
  repeat' first
    | with_reducible assumption | with_reducible apply guarded_keeps | with_reducible apply OutKeeps.next
    | exact OutKeeps.refused _ | exact OutKeeps.fault _ | with_reducible apply writing_keeps
    | with_reducible apply wrCtlWrite_keeps | with_reducible apply foldl_keeps | split | dsimp only | intro _ _ _ | intro _ _
    | intro _ | (with_reducible refine Keeps.mk_over ?_ rfl rfl rfl rfl rfl rfl)

theorem notThroughH_keeps {r : State} {w : Window} {off : Nat} {f : State → State} {s : State} (hf : ∀ x0, Keeps r x0 → Keeps r (f x0)) (hs : Keeps r s) :
    Keeps r (notThroughH w off f s) := by
  unfold notThroughH
  repeat' first
    | with_reducible assumption | with_reducible apply hf | with_reducible apply accessError_keeps
    | with_reducible apply foldl_keeps | split | dsimp only | intro _ _ _ | intro _ _ | intro _
    | (with_reducible refine Keeps.mk_over ?_ rfl rfl rfl rfl rfl rfl)

theorem execFlushSeqWrite_keeps {r : State} {w : Window} {v : Word} {s : State} (hs : Keeps r s) :
    OutKeeps r (execFlushSeqWrite w v s) := by
  unfold execFlushSeqWrite
  repeat' first
    | with_reducible assumption | with_reducible apply guarded_keeps | with_reducible apply OutKeeps.next
    | exact OutKeeps.refused _ | exact OutKeeps.fault _ | with_reducible apply writing_keeps
    | with_reducible apply notThroughH_keeps | with_reducible apply foldl_keeps | split | dsimp only | intro _ _ _ | intro _ _
    | intro _ | (with_reducible refine Keeps.mk_over ?_ rfl rfl rfl rfl rfl rfl)

theorem reportBad_keeps {r : State} {s : State} (hs : Keeps r s) :
    Keeps r (reportBad s) := by
  unfold reportBad
  repeat' first
    | with_reducible assumption | with_reducible apply raise_keeps | with_reducible apply satX_keeps
    | with_reducible apply foldl_keeps | split | dsimp only | intro _ _ _ | intro _ _ | intro _
    | (with_reducible refine Keeps.mk_over ?_ rfl rfl rfl rfl rfl rfl)

theorem execFlashReport_keeps {r : State} {w : Window} {v : Word} {s : State} (hs : Keeps r s) :
    OutKeeps r (execFlashReport w v s) := by
  unfold execFlashReport
  repeat' first
    | with_reducible assumption | with_reducible apply guarded_keeps | with_reducible apply OutKeeps.next
    | exact OutKeeps.refused _ | exact OutKeeps.fault _ | with_reducible apply writing_keeps
    | with_reducible apply notThroughH_keeps | with_reducible apply onlyIf_keeps | with_reducible apply reportBad_keeps
    | with_reducible apply foldl_keeps | split | dsimp only | intro _ _ _ | intro _ _ | intro _
    | (with_reducible refine Keeps.mk_over ?_ rfl rfl rfl rfl rfl rfl)

theorem flushWrite_keeps {r : State} {seq : Nat} {ws : List Word} {s : State} (hs : Keeps r s) :
    Keeps r (flushWrite seq ws s) := by
  unfold flushWrite
  repeat' first
    | with_reducible assumption | split | dsimp only | intro _ _ _ | intro _ _ | intro _
    | (with_reducible refine Keeps.mk_over ?_ rfl rfl rfl rfl rfl rfl)

theorem eraseNext_keeps {r : State} {sec : Nat} {s : State} (hs : Keeps r s) :
    Keeps r (eraseNext sec s) := by
  unfold eraseNext
  repeat' first
    | with_reducible assumption | split | dsimp only | intro _ _ _ | intro _ _ | intro _
    | (with_reducible refine Keeps.mk_over ?_ rfl rfl rfl rfl rfl rfl)

theorem failSector_keeps {r : State} {sec : Nat} {s : State} (hs : Keeps r s) :
    Keeps r (failSector sec s) := by
  unfold failSector
  repeat' first
    | with_reducible assumption | split | dsimp only | intro _ _ _ | intro _ _ | intro _
    | (with_reducible refine Keeps.mk_over ?_ rfl rfl rfl rfl rfl rfl)

theorem noteBad_keeps {r : State} {sec : Nat} {s : State} (hs : Keeps r s) :
    Keeps r (noteBad sec s) := by
  unfold noteBad
  repeat' first
    | with_reducible assumption | with_reducible apply reportBad_keeps | with_reducible apply writeRec_keeps | split
    | dsimp only | intro _ _ _ | intro _ _ | intro _ | (with_reducible refine Keeps.mk_over ?_ rfl rfl rfl rfl rfl rfl)

theorem flushFailed_keeps {r : State} {s : State} (hs : Keeps r s) :
    Keeps r (flushFailed s) := by
  unfold flushFailed
  repeat' first
    | with_reducible assumption | with_reducible apply eraseNext_keeps | with_reducible apply failSector_keeps
    | with_reducible apply noteBad_keeps | split | dsimp only | intro _ _ _ | intro _ _ | intro _
    | (with_reducible refine Keeps.mk_over ?_ rfl rfl rfl rfl rfl rfl)

theorem flushGood_keeps {r : State} {seq : Nat} {ws : List Word} {erased : Bool} {s : State} (hs : Keeps r s) :
    Keeps r (flushGood seq ws erased s) := by
  unfold flushGood
  repeat' first
    | with_reducible assumption | with_reducible apply flushWrite_keeps | with_reducible apply eraseNext_keeps
    | with_reducible apply noteBad_keeps | with_reducible apply failSector_keeps | split | dsimp only | intro _ _ _ | intro _ _
    | intro _ | (with_reducible refine Keeps.mk_over ?_ rfl rfl rfl rfl rfl rfl)

theorem flushRecord_keeps {r : State} {o : FlushOutcome} {s : State} (hs : Keeps r s) :
    Keeps r (flushRecord o s) := by
  unfold flushRecord
  repeat' first
    | with_reducible assumption | with_reducible apply flushGood_keeps | with_reducible apply flushFailed_keeps | split
    | dsimp only | intro _ _ _ | intro _ _ | intro _ | (with_reducible refine Keeps.mk_over ?_ rfl rfl rfl rfl rfl rfl)

theorem execFlushRecord_keeps {r : State} {o : FlushOutcome} {s : State} (hs : Keeps r s) :
    OutKeeps r (execFlushRecord o s) := by
  unfold execFlushRecord
  repeat' first
    | with_reducible assumption | with_reducible apply guarded_keeps | with_reducible apply OutKeeps.next
    | exact OutKeeps.refused _ | exact OutKeeps.fault _ | with_reducible apply onlyIf_keeps
    | with_reducible apply flushRecord_keeps | split | dsimp only | intro _ _ _ | intro _ _ | intro _
    | (with_reducible refine Keeps.mk_over ?_ rfl rfl rfl rfl rfl rfl)

theorem startTouchmark_keeps {r : State} {fromIo : Bool} {cause : Nat} {s : State} (hs : Keeps r s) :
    Keeps r (startTouchmark fromIo cause s) := by
  unfold startTouchmark
  repeat' first
    | with_reducible assumption | with_reducible apply writeRec_keeps | split | dsimp only | intro _ _ _ | intro _ _ | intro _
    | (with_reducible refine Keeps.mk_over ?_ rfl rfl rfl rfl rfl rfl)

theorem ringRead_keeps {r : State} {w : Window} {mesh : Bool} {s : State} (hs : Keeps r s) :
    Keeps r (ringRead w mesh s) := by
  unfold ringRead
  repeat' first
    | with_reducible assumption | with_reducible apply wrC_keeps | with_reducible apply putRead_keeps
    | with_reducible apply foldl_keeps | split | dsimp only | intro _ _ _ | intro _ _ | intro _
    | (with_reducible refine Keeps.mk_over ?_ rfl rfl rfl rfl rfl rfl)

end Sys2Proof.Machine
end

