-- ==== Sys2Proof/Laws/FencesKeeps.lean ====
section
/-! SUPPORT. Every operation of Machine/Fences.lean keeps what `Keeps` speaks of. -/

-- The alternatives of each proof's `first` are the same list; not every alternative is used in every proof.
set_option linter.unreachableTactic false
set_option linter.unusedTactic false

namespace Sys2Proof.Machine

theorem putInd_keeps {r : State} {t : Nat} {e : Nat} {v : Nat} {s : State} (hs : Keeps r s) :
    Keeps r (putInd t e v s) := by
  unfold putInd
  repeat' first
    | with_reducible assumption | split | dsimp only | (with_reducible refine Keeps.mk_over ?_ rfl rfl rfl rfl rfl rfl)

theorem putSteer_keeps {r : State} {e : Nat} {n : Nat} {s : State} (hs : Keeps r s) :
    Keeps r (putSteer e n s) := by
  unfold putSteer
  repeat' first
    | with_reducible assumption | with_reducible apply putInd_keeps | split | dsimp only
    | (with_reducible refine Keeps.mk_over ?_ rfl rfl rfl rfl rfl rfl)

theorem putHome_keeps {r : State} {e : Nat} {n : Nat} {s : State} (hs : Keeps r s) :
    Keeps r (putHome e n s) := by
  unfold putHome
  repeat' first
    | with_reducible assumption | split | dsimp only | (with_reducible refine Keeps.mk_over ?_ rfl rfl rfl rfl rfl rfl)

theorem openFence_keeps {r : State} {e : Nat} {o : Nat} {n : Nat} {rw : Bool} {s : State} (hs : Keeps r s) :
    Keeps r (openFence e o n rw s) := by
  unfold openFence
  repeat' first
    | with_reducible assumption | with_reducible apply raiseC_keeps | with_reducible apply putFence_keeps
    | with_reducible apply putSteer_keeps | with_reducible apply transferEntry_keeps | split | dsimp only
    | (with_reducible refine Keeps.mk_over ?_ rfl rfl rfl rfl rfl rfl)

theorem moveEntry_keeps {r : State} {e : Nat} {n : Nat} {rw : Bool} {s : State} (hs : Keeps r s) :
    Keeps r (moveEntry e n rw s) := by
  unfold moveEntry
  repeat' first
    | with_reducible assumption | with_reducible apply putSteer_keeps | with_reducible apply openFence_keeps
    | with_reducible apply putFence_keeps | split | dsimp only
    | (with_reducible refine Keeps.mk_over ?_ rfl rfl rfl rfl rfl rfl)

theorem fenceTargetReady_keeps {r : State} {e : Nat} {s : State} (hs : Keeps r s) :
    Keeps r (fenceTargetReady e s) := by
  unfold fenceTargetReady
  repeat' first
    | with_reducible assumption | with_reducible apply openFence_keeps | split | dsimp only
    | (with_reducible refine Keeps.mk_over ?_ rfl rfl rfl rfl rfl rfl)

theorem execFenceTargetReady_keeps {r : State} {e : Nat} {s : State} (hs : Keeps r s) :
    OutKeeps r (execFenceTargetReady e s) := by
  unfold execFenceTargetReady
  repeat' first
    | with_reducible assumption | with_reducible apply guarded_keeps | with_reducible apply OutKeeps.next
    | exact OutKeeps.refused _ | exact OutKeeps.fault _ | with_reducible apply fenceTargetReady_keeps | split | dsimp only
    | (with_reducible refine Keeps.mk_over ?_ rfl rfl rfl rfl rfl rfl)

theorem writeBackDue_keeps {r : State} {e : Nat} {s : State} (hs : Keeps r s) :
    Keeps r (writeBackDue e s) := by
  unfold writeBackDue
  repeat' first
    | with_reducible assumption | with_reducible apply moveEntry_keeps | split | dsimp only
    | (with_reducible refine Keeps.mk_over ?_ rfl rfl rfl rfl rfl rfl)

theorem rewriteDone_keeps {r : State} {s : State} (hs : Keeps r s) :
    Keeps r (rewriteDone s) := by
  unfold rewriteDone
  repeat' first
    | with_reducible assumption | with_reducible apply raise_keeps | split | dsimp only
    | (with_reducible refine Keeps.mk_over ?_ rfl rfl rfl rfl rfl rfl)

theorem closeFence_keeps {r : State} {e : Nat} {s : State} (hs : Keeps r s) :
    Keeps r (closeFence e s) := by
  unfold closeFence
  repeat' first
    | with_reducible assumption | with_reducible apply raiseC_keeps | with_reducible apply wr_keeps
    | with_reducible apply unpark_keeps | with_reducible apply putFence_keeps | with_reducible apply writeBackDue_keeps
    | with_reducible apply rewriteDone_keeps | split | dsimp only
    | (with_reducible refine Keeps.mk_over ?_ rfl rfl rfl rfl rfl rfl)

theorem fenceDrained_keeps {r : State} {e : Nat} {s : State} (hs : Keeps r s) :
    Keeps r (fenceDrained e s) := by
  unfold fenceDrained
  repeat' first
    | with_reducible assumption | with_reducible apply closeFence_keeps | split | dsimp only
    | (with_reducible refine Keeps.mk_over ?_ rfl rfl rfl rfl rfl rfl)

theorem execFenceDrained_keeps {r : State} {e : Nat} {s : State} (hs : Keeps r s) :
    OutKeeps r (execFenceDrained e s) := by
  unfold execFenceDrained
  repeat' first
    | with_reducible assumption | with_reducible apply guarded_keeps | with_reducible apply OutKeeps.next
    | exact OutKeeps.refused _ | exact OutKeeps.fault _ | with_reducible apply fenceDrained_keeps | split | dsimp only
    | (with_reducible refine Keeps.mk_over ?_ rfl rfl rfl rfl rfl rfl)

theorem overrunItem_keeps {r : State} {o : Nat} {i : Item} {s : State} (hs : Keeps r s) :
    Keeps r (overrunItem o i s) := by
  unfold overrunItem
  repeat' first
    | with_reducible assumption | with_reducible apply askCancel_keeps | with_reducible apply actCancel_keeps
    | with_reducible apply transferItem_keeps | split | dsimp only
    | (with_reducible refine Keeps.mk_over ?_ rfl rfl rfl rfl rfl rfl)

theorem fenceOverrun_keeps {r : State} {e : Nat} {s : State} (hs : Keeps r s) :
    Keeps r (fenceOverrun e s) := by
  unfold fenceOverrun
  repeat' first
    | with_reducible assumption | with_reducible apply foldOver_keeps | with_reducible apply raiseC_keeps
    | with_reducible apply overrunItem_keeps | with_reducible apply putFence_keeps | split | dsimp only | intro _ _ _
    | intro _ _ | intro _ | (with_reducible refine Keeps.mk_over ?_ rfl rfl rfl rfl rfl rfl)

theorem execFenceOverrun_keeps {r : State} {e : Nat} {s : State} (hs : Keeps r s) :
    OutKeeps r (execFenceOverrun e s) := by
  unfold execFenceOverrun
  repeat' first
    | with_reducible assumption | with_reducible apply guarded_keeps | with_reducible apply OutKeeps.next
    | exact OutKeeps.refused _ | exact OutKeeps.fault _ | with_reducible apply fenceOverrun_keeps | split | dsimp only
    | (with_reducible refine Keeps.mk_over ?_ rfl rfl rfl rfl rfl rfl)

theorem indRefused_keeps {r : State} {s : State} (hs : Keeps r s) :
    Keeps r (indRefused s) := by
  unfold indRefused
  repeat' first
    | with_reducible assumption | with_reducible apply raise_keeps | with_reducible apply wr_keeps | split | dsimp only
    | (with_reducible refine Keeps.mk_over ?_ rfl rfl rfl rfl rfl rfl)

theorem steerWrite_keeps {r : State} {e : Nat} {v : Nat} {s : State} (hs : Keeps r s) :
    Keeps r (steerWrite e v s) := by
  unfold steerWrite
  repeat' first
    | with_reducible assumption | with_reducible apply indRefused_keeps | with_reducible apply putHome_keeps
    | with_reducible apply moveEntry_keeps | split | dsimp only
    | (with_reducible refine Keeps.mk_over ?_ rfl rfl rfl rfl rfl rfl)

theorem indWrite_keeps {r : State} {t : Nat} {e : Nat} {v : Nat} {s : State} (hs : Keeps r s) :
    Keeps r (indWrite t e v s) := by
  unfold indWrite
  repeat' first
    | with_reducible assumption | with_reducible apply steerWrite_keeps | with_reducible apply putInd_keeps | split | dsimp only
    | (with_reducible refine Keeps.mk_over ?_ rfl rfl rfl rfl rfl rfl)

theorem indDataWrite_keeps {r : State} {v : Word} {s : State} (hs : Keeps r s) :
    Keeps r (indDataWrite v s) := by
  unfold indDataWrite
  repeat' first
    | with_reducible assumption | with_reducible apply indWrite_keeps | with_reducible apply wr_keeps | split | dsimp only
    | (with_reducible refine Keeps.mk_over ?_ rfl rfl rfl rfl rfl rfl)

theorem execIndDataWrite_keeps {r : State} {w : Window} {v : Word} {s : State} (hs : Keeps r s) :
    OutKeeps r (execIndDataWrite w v s) := by
  unfold execIndDataWrite
  repeat' first
    | with_reducible assumption | with_reducible apply guarded_keeps | with_reducible apply OutKeeps.next
    | exact OutKeeps.refused _ | exact OutKeeps.fault _ | with_reducible apply writing_keeps
    | with_reducible apply indDataWrite_keeps | split | dsimp only | intro _ _ _ | intro _ _ | intro _
    | (with_reducible refine Keeps.mk_over ?_ rfl rfl rfl rfl rfl rfl)

theorem steerCfgWrite_keeps {r : State} {w : Window} {v : Word} {s : State} (hs : Keeps r s) :
    Keeps r (steerCfgWrite w v s) := by
  unfold steerCfgWrite
  repeat' first
    | with_reducible assumption | with_reducible apply accessError_keeps | with_reducible apply wr_keeps | split | dsimp only
    | (with_reducible refine Keeps.mk_over ?_ rfl rfl rfl rfl rfl rfl)

theorem execSteerCfgWrite_keeps {r : State} {w : Window} {v : Word} {s : State} (hs : Keeps r s) :
    OutKeeps r (execSteerCfgWrite w v s) := by
  unfold execSteerCfgWrite
  repeat' first
    | with_reducible assumption | with_reducible apply guarded_keeps | with_reducible apply OutKeeps.next
    | exact OutKeeps.refused _ | exact OutKeeps.fault _ | with_reducible apply writing_keeps
    | with_reducible apply steerCfgWrite_keeps | split | dsimp only | intro _ _ _ | intro _ _ | intro _
    | (with_reducible refine Keeps.mk_over ?_ rfl rfl rfl rfl rfl rfl)

theorem moveParked_keeps {r : State} {e : Nat} {c : Nat} {n : Nat} {s : State} (hs : Keeps r s) :
    Keeps r (moveParked e c n s) := by
  unfold moveParked
  repeat' first
    | with_reducible assumption | with_reducible apply foldOver_keeps | with_reducible apply transferItem_keeps | split
    | dsimp only | intro _ _ _ | intro _ _ | intro _ | (with_reducible refine Keeps.mk_over ?_ rfl rfl rfl rfl rfl rfl)

theorem rewriteEntry_keeps {r : State} {c : Nat} {e : Nat} {s : State} (hs : Keeps r s) :
    Keeps r (rewriteEntry c e s) := by
  unfold rewriteEntry
  repeat' first
    | with_reducible assumption | with_reducible apply raise_keeps | with_reducible apply moveEntry_keeps
    | with_reducible apply openFence_keeps | with_reducible apply moveParked_keeps | with_reducible apply putFence_keeps
    | with_reducible apply putSteer_keeps | split | dsimp only
    | (with_reducible refine Keeps.mk_over ?_ rfl rfl rfl rfl rfl rfl)

theorem rewriteAll_keeps {r : State} {c : Nat} {s : State} (hs : Keeps r s) :
    Keeps r (rewriteAll c s) := by
  unfold rewriteAll
  repeat' first
    | with_reducible assumption | with_reducible apply foldOver_keeps | with_reducible apply rewriteEntry_keeps
    | with_reducible apply raise_keeps | split | dsimp only | intro _ _ _ | intro _ _ | intro _
    | (with_reducible refine Keeps.mk_over ?_ rfl rfl rfl rfl rfl rfl)

theorem takeOut_keeps {r : State} {c : Nat} {s : State} (hs : Keeps r s) :
    Keeps r (takeOut c s) := by
  unfold takeOut
  repeat' first
    | with_reducible assumption | with_reducible apply rewriteAll_keeps | with_reducible apply foldOver_keeps
    | with_reducible apply transferEntry_keeps | split | dsimp only | intro _ _ _ | intro _ _ | intro _
    | (with_reducible refine Keeps.mk_over ?_ rfl rfl rfl rfl rfl rfl)

theorem clusterOut_keeps {r : State} {c : Nat} {bank : Nat} {word : Nat} {code : Nat} {s : State} (hs : Keeps r s) :
    Keeps r (clusterOut c bank word code s) := by
  unfold clusterOut
  repeat' first
    | with_reducible assumption | with_reducible apply writeRec_keeps | with_reducible apply takeOut_keeps
    | with_reducible apply raiseC_keeps | with_reducible apply wrC_keeps | with_reducible apply enterFault_keeps | split
    | dsimp only | intro _ _ _ | intro _ _ | intro _ | (with_reducible refine Keeps.mk_over ?_ rfl rfl rfl rfl rfl rfl)

theorem clusterReturn_keeps {r : State} {c : Nat} {s : State} (hs : Keeps r s) :
    Keeps r (clusterReturn c s) := by
  unfold clusterReturn
  repeat' first
    | with_reducible assumption | with_reducible apply foldOver_keeps | with_reducible apply raiseC_keeps
    | with_reducible apply moveEntry_keeps | split | dsimp only | intro _ _ _ | intro _ _ | intro _
    | (with_reducible refine Keeps.mk_over ?_ rfl rfl rfl rfl rfl rfl)

theorem execClusterReturn_keeps {r : State} {c : Nat} {s : State} (hs : Keeps r s) :
    OutKeeps r (execClusterReturn c s) := by
  unfold execClusterReturn
  repeat' first
    | with_reducible assumption | with_reducible apply guarded_keeps | with_reducible apply OutKeeps.next
    | exact OutKeeps.refused _ | exact OutKeeps.fault _ | with_reducible apply clusterReturn_keeps | split | dsimp only
    | (with_reducible refine Keeps.mk_over ?_ rfl rfl rfl rfl rfl rfl)

theorem cancelLeft_keeps {r : State} {c : Nat} {s : State} (hs : Keeps r s) :
    Keeps r (cancelLeft c s) := by
  unfold cancelLeft
  repeat' first
    | with_reducible assumption | with_reducible apply foldOver_keeps | with_reducible apply cancelNow_keeps | split
    | dsimp only | intro _ _ _ | intro _ _ | intro _ | (with_reducible refine Keeps.mk_over ?_ rfl rfl rfl rfl rfl rfl)

theorem offerLeft_keeps {r : State} {c : Nat} {s : State} (hs : Keeps r s) :
    Keeps r (offerLeft c s) := by
  unfold offerLeft
  repeat' first
    | with_reducible assumption | with_reducible apply foldOver_keeps | with_reducible apply offerAgain_keeps | split
    | dsimp only | intro _ _ _ | intro _ _ | intro _ | (with_reducible refine Keeps.mk_over ?_ rfl rfl rfl rfl rfl rfl)

theorem clearDispatcher_keeps {r : State} {c : Nat} {s : State} (hs : Keeps r s) :
    Keeps r (clearDispatcher c s) := by
  unfold clearDispatcher
  repeat' first
    | with_reducible assumption | with_reducible apply offerLeft_keeps | with_reducible apply cancelLeft_keeps
    | with_reducible apply putCluster_keeps | split | dsimp only | intro _ _ _ | intro _ _ | intro _
    | (with_reducible refine Keeps.mk_over ?_ rfl rfl rfl rfl rfl rfl)

theorem dspStarting_keeps {r : State} {s : State} (hs : Keeps r s) :
    Keeps r (dspStarting s) := by
  unfold dspStarting
  repeat' first
    | with_reducible assumption | with_reducible apply foldOver_keeps | with_reducible apply clearDispatcher_keeps | split
    | dsimp only | intro _ _ _ | intro _ _ | intro _ | (with_reducible refine Keeps.mk_over ?_ rfl rfl rfl rfl rfl rfl)

theorem dspChanStarting_keeps {r : State} {c : Nat} {s : State} (hs : Keeps r s) :
    Keeps r (dspChanStarting c s) := by
  unfold dspChanStarting
  repeat' first
    | with_reducible assumption | with_reducible apply clearDispatcher_keeps | split | dsimp only | intro _ _ _ | intro _ _
    | intro _ | (with_reducible refine Keeps.mk_over ?_ rfl rfl rfl rfl rfl rfl)

theorem dspDiscard_keeps {r : State} {ops : Bool} {c : Nat} {s : State} (hs : Keeps r s) :
    Keeps r (dspDiscard ops c s) := by
  unfold dspDiscard
  repeat' first
    | with_reducible assumption | with_reducible apply foldOver_keeps | with_reducible apply askCancel_keeps
    | with_reducible apply actCancel_keeps | with_reducible apply discardOp_keeps | split | dsimp only | intro _ _ _ | intro _ _
    | intro _ | (with_reducible refine Keeps.mk_over ?_ rfl rfl rfl rfl rfl rfl)

end Sys2Proof.Machine
end

