-- ==== Sys2Proof/Laws/MicrocodeKeeps.lean ====
section
/-! SUPPORT. Every operation of Machine/Microcode.lean keeps what `Keeps` speaks of. -/

-- The alternatives of each proof's `first` are the same list; not every alternative is used in every proof.
set_option linter.unreachableTactic false
set_option linter.unusedTactic false

namespace Sys2Proof.Machine

theorem putStore_keeps {r : State} {c : Nat} {x : Store} {s : State} (hs : Keeps r s) :
    Keeps r (putStore c x s) := by
  unfold putStore
  repeat' first
    | with_reducible assumption | with_reducible apply foldl_keeps | split | dsimp only | intro _ _ _ | intro _ _ | intro _
    | (with_reducible refine Keeps.mk_over ?_ rfl rfl rfl rfl rfl rfl)

theorem modStore_keeps {r : State} {c : Nat} {f : Store → Store} {s : State} (hs : Keeps r s) :
    Keeps r (modStore c f s) := by
  unfold modStore
  repeat' first
    | with_reducible assumption | with_reducible apply putStore_keeps | with_reducible apply foldl_keeps | split | dsimp only
    | intro _ _ _ | intro _ _ | intro _ | (with_reducible refine Keeps.mk_over ?_ rfl rfl rfl rfl rfl rfl)

theorem putBankState_keeps {r : State} {c : Nat} {bank : Nat} {v : Nat} {s : State} (hs : Keeps r s) :
    Keeps r (putBankState c bank v s) := by
  unfold putBankState
  repeat' first
    | with_reducible assumption | with_reducible apply wrC_keeps | with_reducible apply foldl_keeps | split | dsimp only
    | intro _ _ _ | intro _ _ | intro _ | (with_reducible refine Keeps.mk_over ?_ rfl rfl rfl rfl rfl rfl)

theorem writeBank_keeps {r : State} {c : Nat} {bank : Nat} {img : List Byte} {st : Nat} {s : State} (hs : Keeps r s) :
    Keeps r (writeBank c bank img st s) := by
  unfold writeBank
  repeat' first
    | with_reducible assumption | with_reducible apply putBankState_keeps | with_reducible apply modStore_keeps
    | with_reducible apply wrC_keeps | with_reducible apply foldl_keeps | split | dsimp only | intro _ _ _ | intro _ _ | intro _
    | (with_reducible refine Keeps.mk_over ?_ rfl rfl rfl rfl rfl rfl)

theorem beginBankLoad_keeps {r : State} {c : Nat} {bank : Nat} {img : List Byte} {s : State} (hs : Keeps r s) :
    Keeps r (beginBankLoad c bank img s) := by
  unfold beginBankLoad
  repeat' first
    | with_reducible assumption | with_reducible apply putBankState_keeps | with_reducible apply modStore_keeps
    | with_reducible apply foldl_keeps | split | dsimp only | intro _ _ _ | intro _ _ | intro _
    | (with_reducible refine Keeps.mk_over ?_ rfl rfl rfl rfl rfl rfl)

theorem bankLoadDone_keeps {r : State} {c : Nat} {s : State} (hs : Keeps r s) :
    Keeps r (bankLoadDone c s) := by
  unfold bankLoadDone
  repeat' first
    | with_reducible assumption | with_reducible apply writeBank_keeps | with_reducible apply foldl_keeps | split | dsimp only
    | intro _ _ _ | intro _ _ | intro _ | (with_reducible refine Keeps.mk_over ?_ rfl rfl rfl rfl rfl rfl)

theorem switchBank_keeps {r : State} {c : Nat} {s : State} (hs : Keeps r s) :
    Keeps r (switchBank c s) := by
  unfold switchBank
  repeat' first
    | with_reducible assumption | with_reducible apply putBankState_keeps | with_reducible apply raiseC_keeps
    | with_reducible apply incX_keeps | with_reducible apply wrC_keeps | with_reducible apply foldl_keeps | split | dsimp only
    | intro _ _ _ | intro _ _ | intro _ | (with_reducible refine Keeps.mk_over ?_ rfl rfl rfl rfl rfl rfl)

theorem mcsCommitted_keeps {r : State} {s : State} (hs : Keeps r s) :
    Keeps r (mcsCommitted s) := by
  unfold mcsCommitted
  repeat' first
    | with_reducible assumption | with_reducible apply foldOver_keeps | with_reducible apply switchBank_keeps
    | with_reducible apply foldl_keeps | split | dsimp only | intro _ _ _ | intro _ _ | intro _
    | (with_reducible refine Keeps.mk_over ?_ rfl rfl rfl rfl rfl rfl)

theorem bankDrainComplete_keeps {r : State} {c : Nat} {s : State} (hs : Keeps r s) :
    Keeps r (bankDrainComplete c s) := by
  unfold bankDrainComplete
  repeat' first
    | with_reducible assumption | with_reducible apply putBankState_keeps | with_reducible apply foldl_keeps | split
    | dsimp only | intro _ _ _ | intro _ _ | intro _ | (with_reducible refine Keeps.mk_over ?_ rfl rfl rfl rfl rfl rfl)

theorem execBankDrainComplete_keeps {r : State} {c : Nat} {s : State} (hs : Keeps r s) :
    OutKeeps r (execBankDrainComplete c s) := by
  unfold execBankDrainComplete
  repeat' first
    | with_reducible assumption | with_reducible apply guarded_keeps | with_reducible apply OutKeeps.next
    | exact OutKeeps.refused _ | exact OutKeeps.fault _ | with_reducible apply bankDrainComplete_keeps
    | with_reducible apply foldl_keeps | split | dsimp only | intro _ _ _ | intro _ _ | intro _
    | (with_reducible refine Keeps.mk_over ?_ rfl rfl rfl rfl rfl rfl)

theorem putEngRun_keeps {r : State} {e : Nat} {r0 : Run} {s : State} (hs : Keeps r s) :
    Keeps r (putEngRun e r0 s) := by
  unfold putEngRun
  repeat' first
    | with_reducible assumption | with_reducible apply putEngine_keeps | with_reducible apply foldl_keeps | split | dsimp only
    | intro _ _ _ | intro _ _ | intro _ | (with_reducible refine Keeps.mk_over ?_ rfl rfl rfl rfl rfl rfl)

theorem resumeEngines_keeps {r : State} {c : Nat} {ws : Nat → Bool} {s : State} (hs : Keeps r s) :
    Keeps r (resumeEngines c ws s) := by
  unfold resumeEngines
  repeat' first
    | with_reducible assumption | with_reducible apply foldOver_keeps | with_reducible apply putEngRun_keeps | split
    | dsimp only | intro _ _ _ | intro _ _ | intro _ | (with_reducible refine Keeps.mk_over ?_ rfl rfl rfl rfl rfl rfl)

theorem mcDrop_keeps {r : State} {e : Nat} {c : Nat} {i : Item} {s : State} (hs : Keeps r s) :
    Keeps r (mcDrop e c i s) := by
  unfold mcDrop
  repeat' first
    | with_reducible assumption | with_reducible apply raiseC_keeps | with_reducible apply satX_keeps
    | with_reducible apply removeItem_keeps | with_reducible apply unlockItem_keeps | with_reducible apply dropFrame_keeps
    | with_reducible apply putEngine_keeps | with_reducible apply foldl_keeps | split | dsimp only | intro _ _ _ | intro _ _
    | intro _ | (with_reducible refine Keeps.mk_over ?_ rfl rfl rfl rfl rfl rfl)

theorem dropWaiting_keeps {r : State} {c : Nat} {b : Nat} {s : State} (hs : Keeps r s) :
    Keeps r (dropWaiting c b s) := by
  unfold dropWaiting
  repeat' first
    | with_reducible assumption | with_reducible apply foldOver_keeps | with_reducible apply mcDrop_keeps | split | dsimp only
    | intro _ _ _ | intro _ _ | intro _ | (with_reducible refine Keeps.mk_over ?_ rfl rfl rfl rfl rfl rfl)

theorem compareNext_keeps {r : State} {c : Nat} {k : Nat} {s : State} (hs : Keeps r s) :
    Keeps r (compareNext c k s) := by
  unfold compareNext
  repeat' first
    | with_reducible assumption | with_reducible apply modStore_keeps | with_reducible apply incX_keeps | split | dsimp only
    | intro _ _ _ | intro _ _ | intro _ | (with_reducible refine Keeps.mk_over ?_ rfl rfl rfl rfl rfl rfl)

theorem compareWord_keeps {r : State} {c : Nat} {k : Nat} {s : State} (hs : Keeps r s) :
    Keeps r (compareWord c k s) := by
  unfold compareWord
  repeat' first
    | with_reducible assumption | with_reducible apply resumeEngines_keeps | with_reducible apply raiseC_keeps
    | with_reducible apply satX_keeps | with_reducible apply modStore_keeps | split | dsimp only | intro _ _ _ | intro _ _
    | intro _ | (with_reducible refine Keeps.mk_over ?_ rfl rfl rfl rfl rfl rfl)

theorem goldenCompare_keeps {r : State} {c : Nat} {flip : Option Nat} {s : State} (hs : Keeps r s) :
    Keeps r (goldenCompare c flip s) := by
  unfold goldenCompare
  repeat' first
    | with_reducible assumption | with_reducible apply modStore_keeps | with_reducible apply compareNext_keeps
    | with_reducible apply compareWord_keeps | split | dsimp only | intro _ _ _ | intro _ _ | intro _
    | (with_reducible refine Keeps.mk_over ?_ rfl rfl rfl rfl rfl rfl)

theorem execGoldenCompare_keeps {r : State} {c : Nat} {flip : Option Nat} {s : State} (hs : Keeps r s) :
    OutKeeps r (execGoldenCompare c flip s) := by
  unfold execGoldenCompare
  repeat' first
    | with_reducible assumption | with_reducible apply guarded_keeps | with_reducible apply OutKeeps.next
    | exact OutKeeps.refused _ | exact OutKeeps.fault _ | with_reducible apply goldenCompare_keeps
    | with_reducible apply foldl_keeps | split | dsimp only | intro _ _ _ | intro _ _ | intro _
    | (with_reducible refine Keeps.mk_over ?_ rfl rfl rfl rfl rfl rfl)

theorem goldenDigestCheck_keeps {r : State} {c : Nat} {bank : Nat} {ok : Bool} {s : State} (hs : Keeps r s) :
    Keeps r (goldenDigestCheck c bank ok s) := by
  unfold goldenDigestCheck
  repeat' first
    | with_reducible assumption | with_reducible apply raiseC_keeps | with_reducible apply modStore_keeps
    | with_reducible apply dropWaiting_keeps | with_reducible apply clusterOut_keeps | split | dsimp only | intro _ _ _
    | intro _ _ | intro _ | (with_reducible refine Keeps.mk_over ?_ rfl rfl rfl rfl rfl rfl)

theorem execGoldenDigestCheck_keeps {r : State} {c : Nat} {bank : Nat} {ok : Bool} {s : State} (hs : Keeps r s) :
    OutKeeps r (execGoldenDigestCheck c bank ok s) := by
  unfold execGoldenDigestCheck
  repeat' first
    | with_reducible assumption | with_reducible apply guarded_keeps | with_reducible apply OutKeeps.next
    | exact OutKeeps.refused _ | exact OutKeeps.fault _ | with_reducible apply goldenDigestCheck_keeps
    | with_reducible apply foldl_keeps | split | dsimp only | intro _ _ _ | intro _ _ | intro _
    | (with_reducible refine Keeps.mk_over ?_ rfl rfl rfl rfl rfl rfl)

theorem mcsWordLoad_keeps {r : State} {w : Window} {v : Word} {s : State} (hs : Keeps r s) :
    Keeps r (mcsWordLoad w v s) := by
  unfold mcsWordLoad
  repeat' first
    | with_reducible assumption | with_reducible apply foldOver_keeps | with_reducible apply wrC_keeps
    | with_reducible apply wrX_keeps | with_reducible apply foldl_keeps | split | dsimp only | intro _ _ _ | intro _ _ | intro _
    | (with_reducible refine Keeps.mk_over ?_ rfl rfl rfl rfl rfl rfl)

theorem execMcsWordLoad_keeps {r : State} {w : Window} {v : Word} {s : State} (hs : Keeps r s) :
    OutKeeps r (execMcsWordLoad w v s) := by
  unfold execMcsWordLoad
  repeat' first
    | with_reducible assumption | with_reducible apply guarded_keeps | with_reducible apply OutKeeps.next
    | exact OutKeeps.refused _ | exact OutKeeps.fault _ | with_reducible apply writing_keeps
    | with_reducible apply mcsWordLoad_keeps | with_reducible apply foldl_keeps | split | dsimp only | intro _ _ _ | intro _ _
    | intro _ | (with_reducible refine Keeps.mk_over ?_ rfl rfl rfl rfl rfl rfl)

theorem mcsStarting_keeps {r : State} {c : Nat} {s : State} (hs : Keeps r s) :
    Keeps r (mcsStarting c s) := by
  unfold mcsStarting
  repeat' first
    | with_reducible assumption | with_reducible apply resumeEngines_keeps | with_reducible apply modStore_keeps
    | with_reducible apply foldl_keeps | split | dsimp only | intro _ _ _ | intro _ _ | intro _
    | (with_reducible refine Keeps.mk_over ?_ rfl rfl rfl rfl rfl rfl)

theorem mcsReset_keeps {r : State} {c : Nat} {keep : State} {s : State} (_hkeep : Keeps r keep) (hs : Keeps r s) :
    Keeps r (mcsReset c keep s) := by
  unfold mcsReset
  repeat' first
    | with_reducible assumption | with_reducible apply wrX_keeps | with_reducible apply putReg_keeps
    | with_reducible apply wrC_keeps | with_reducible apply foldl_keeps | split | dsimp only | intro _ _ _ | intro _ _ | intro _
    | (with_reducible refine Keeps.mk_over ?_ rfl rfl rfl rfl rfl rfl)

end Sys2Proof.Machine
end

