-- ==== Sys2Proof/Laws/FlowTableKeeps.lean ====
section
/-! SUPPORT. Every operation of Machine/FlowTable.lean keeps what `Keeps` speaks of. -/

-- The alternatives of each proof's `first` are the same list; not every alternative is used in every proof.
set_option linter.unreachableTactic false
set_option linter.unusedTactic false

namespace Sys2Proof.Machine

theorem flowTick_keeps {r : State} {s : State} (hs : Keeps r s) :
    Keeps r (flowTick s) := by
  unfold flowTick
  repeat' first
    | with_reducible assumption | with_reducible apply wr_keeps | with_reducible apply foldl_keeps | split | dsimp only
    | intro _ _ _ | intro _ _ | intro _ | (with_reducible refine Keeps.mk_over ?_ rfl rfl rfl rfl rfl rfl)

theorem execFlowTick_keeps {r : State} {s : State} (hs : Keeps r s) :
    OutKeeps r (execFlowTick s) := by
  unfold execFlowTick
  repeat' first
    | with_reducible assumption | with_reducible apply guarded_keeps | with_reducible apply OutKeeps.next
    | exact OutKeeps.refused _ | exact OutKeeps.fault _ | with_reducible apply flowTick_keeps | with_reducible apply foldl_keeps
    | split | dsimp only | intro _ _ _ | intro _ _ | intro _ | (with_reducible refine Keeps.mk_over ?_ rfl rfl rfl rfl rfl rfl)

theorem scanPlace_keeps {r : State} {b : Nat} {p : Nat} {s : State} (hs : Keeps r s) :
    Keeps r (scanPlace b p s) := by
  unfold scanPlace
  repeat' first
    | with_reducible assumption | with_reducible apply offerOp_keeps | with_reducible apply foldl_keeps | split | dsimp only
    | intro _ _ _ | intro _ _ | intro _ | (with_reducible refine Keeps.mk_over ?_ rfl rfl rfl rfl rfl rfl)

theorem scanPassEnd_keeps {r : State} {s : State} (hs : Keeps r s) :
    Keeps r (scanPassEnd s) := by
  unfold scanPassEnd
  repeat' first
    | with_reducible assumption | with_reducible apply wr_keeps | with_reducible apply incX_keeps
    | with_reducible apply raise_keeps | with_reducible apply foldl_keeps | split | dsimp only | intro _ _ _ | intro _ _
    | intro _ | (with_reducible refine Keeps.mk_over ?_ rfl rfl rfl rfl rfl rfl)

theorem scanAt_keeps {r : State} {v : ScanVisit} {s : State} (hs : Keeps r s) :
    Keeps r (scanAt v s) := by
  unfold scanAt
  repeat' first
    | with_reducible assumption | with_reducible apply offerOp_keeps | with_reducible apply eccUncorrectable_keeps
    | with_reducible apply foldOver_keeps | with_reducible apply scanPlace_keeps | with_reducible apply readBucket_keeps
    | with_reducible apply bucketCorrected_keeps | with_reducible apply overflowCorrected_keeps | split | dsimp only
    | intro _ _ _ | intro _ _ | intro _ | (with_reducible refine Keeps.mk_over ?_ rfl rfl rfl rfl rfl rfl)

theorem scannerVisit_keeps {r : State} {v : ScanVisit} {last : Bool} {s : State} (hs : Keeps r s) :
    Keeps r (scannerVisit v last s) := by
  unfold scannerVisit
  repeat' first
    | with_reducible assumption | with_reducible apply scanPassEnd_keeps | with_reducible apply scanAt_keeps | split
    | dsimp only | intro _ _ _ | intro _ _ | intro _ | (with_reducible refine Keeps.mk_over ?_ rfl rfl rfl rfl rfl rfl)

theorem execScannerVisit_keeps {r : State} {visit : ScanVisit} {last : Bool} {s : State} (hs : Keeps r s) :
    OutKeeps r (execScannerVisit visit last s) := by
  unfold execScannerVisit
  repeat' first
    | with_reducible assumption | with_reducible apply guarded_keeps | with_reducible apply OutKeeps.next
    | exact OutKeeps.refused _ | exact OutKeeps.fault _ | with_reducible apply onlyIf_keeps
    | with_reducible apply scannerVisit_keeps | split | dsimp only | intro _ _ _ | intro _ _ | intro _
    | (with_reducible refine Keeps.mk_over ?_ rfl rfl rfl rfl rfl rfl)

theorem opErrors_keeps {r : State} {b : Nat} {err : LookupErr} {s : State} (hs : Keeps r s) :
    Keeps r (opErrors b err s) := by
  unfold opErrors
  repeat' first
    | with_reducible assumption | with_reducible apply readBucket_keeps | with_reducible apply bucketErrors_keeps | split
    | dsimp only | intro _ _ _ | intro _ _ | intro _ | (with_reducible refine Keeps.mk_over ?_ rfl rfl rfl rfl rfl rfl)

theorem recordErrorSeen_keeps {r : State} {i : Nat} {s : State} (hs : Keeps r s) :
    Keeps r (recordErrorSeen i s) := by
  unfold recordErrorSeen
  repeat' first
    | with_reducible assumption | with_reducible apply lineBad_keeps | with_reducible apply recordBad_keeps | split | dsimp only
    | intro _ _ _ | intro _ _ | intro _ | (with_reducible refine Keeps.mk_over ?_ rfl rfl rfl rfl rfl rfl)

theorem dropClean_keeps {r : State} {i : Nat} {err : LookupErr} {s : State} (hs : Keeps r s) :
    Keeps r (dropClean i err s) := by
  unfold dropClean
  repeat' first
    | with_reducible assumption | with_reducible apply lineBad_keeps | with_reducible apply dropLine_keeps
    | with_reducible apply lineCorrected_keeps | with_reducible apply recordCorrected_keeps | split | dsimp only | intro _ _ _
    | intro _ _ | intro _ | (with_reducible refine Keeps.mk_over ?_ rfl rfl rfl rfl rfl rfl)

theorem retireCheckOp_keeps {r : State} {b : Nat} {p : Nat} {i : Nat} {err : LookupErr} {s0 : State} (hs : Keeps r s0) :
    Keeps r (retireCheckOp b p i err s0) := by
  unfold retireCheckOp
  repeat' first
    | with_reducible assumption | with_reducible apply opErrors_keeps | with_reducible apply poisonRecord_keeps
    | with_reducible apply recordErrorSeen_keeps | with_reducible apply dropClean_keeps | with_reducible apply raise_keeps
    | with_reducible apply fltCount_keeps | with_reducible apply retire_keeps | with_reducible apply putPlace_keeps | split
    | dsimp only | intro _ _ _ | intro _ _ | intro _ | (with_reducible refine Keeps.mk_over ?_ rfl rfl rfl rfl rfl rfl)

theorem retireCheck_keeps {r : State} {c : Nat} {q : Nat} {err : LookupErr} {s : State} (hs : Keeps r s) :
    Keeps r (retireCheck c q err s) := by
  unfold retireCheck
  repeat' first
    | with_reducible assumption | with_reducible apply opDone_keeps | with_reducible apply retireCheckOp_keeps
    | with_reducible apply foldl_keeps | split | dsimp only | intro _ _ _ | intro _ _ | intro _
    | (with_reducible refine Keeps.mk_over ?_ rfl rfl rfl rfl rfl rfl)

theorem execRetireCheck_keeps {r : State} {c : Nat} {seq : Nat} {err : LookupErr} {s : State} (hs : Keeps r s) :
    OutKeeps r (execRetireCheck c seq err s) := by
  unfold execRetireCheck
  repeat' first
    | with_reducible assumption | with_reducible apply guarded_keeps | with_reducible apply OutKeeps.next
    | exact OutKeeps.refused _ | exact OutKeeps.fault _ | with_reducible apply retireCheck_keeps
    | with_reducible apply foldl_keeps | split | dsimp only | intro _ _ _ | intro _ _ | intro _
    | (with_reducible refine Keeps.mk_over ?_ rfl rfl rfl rfl rfl rfl)

theorem issueCleanup_keeps {r : State} {s : State} (hs : Keeps r s) :
    Keeps r (issueCleanup s) := by
  unfold issueCleanup
  repeat' first
    | with_reducible assumption | with_reducible apply offerOp_keeps | with_reducible apply foldl_keeps | split | dsimp only
    | intro _ _ _ | intro _ _ | intro _ | (with_reducible refine Keeps.mk_over ?_ rfl rfl rfl rfl rfl rfl)

theorem cleanupRecord_keeps {r : State} {p : Nat} {i : Nat} {reason : Nat} {err : LookupErr} {s : State} (hs : Keeps r s) :
    Keeps r (cleanupRecord p i reason err s).2.2 := by
  unfold cleanupRecord
  split
  · exact lostRecord_keeps (retireCount_keeps (recordErrorSeen_keeps hs))
  · exact dropClean_keeps hs

theorem cleanupOp_keeps {r : State} {b : Nat} {p : Nat} {i : Nat} {err : LookupErr} {s0 : State} (hs : Keeps r s0) :
    Keeps r (cleanupOp b p i err s0) := by
  simp only [cleanupOp]
  have h := opErrors_keeps (b := b) (err := err) hs
  split
  · exact h
  · split
    · exact Keeps.mk_over h rfl rfl rfl rfl rfl rfl
    · split
      · exact retireEnd_keeps (buildExport_keeps (Keeps.mk_over (cleanupRecord_keeps h) rfl rfl rfl rfl rfl rfl))
      · exact Keeps.mk_over h rfl rfl rfl rfl rfl rfl

theorem retireCleanup_keeps {r : State} {c : Nat} {d : OpEnd} {s : State} (hs : Keeps r s) :
    Keeps r (retireCleanup c d s) := by
  unfold retireCleanup
  repeat' first
    | with_reducible assumption | with_reducible apply opDone_keeps | with_reducible apply cleanupOp_keeps | split | dsimp only
    | intro _ _ _ | intro _ _ | intro _ | (with_reducible refine Keeps.mk_over ?_ rfl rfl rfl rfl rfl rfl)

theorem execRetireCleanup_keeps {r : State} {c : Nat} {done : OpEnd} {s : State} (hs : Keeps r s) :
    OutKeeps r (execRetireCleanup c done s) := by
  unfold execRetireCleanup
  repeat' first
    | with_reducible assumption | with_reducible apply guarded_keeps | with_reducible apply OutKeeps.next
    | exact OutKeeps.refused _ | exact OutKeeps.fault _ | with_reducible apply retireCleanup_keeps | split | dsimp only
    | intro _ _ _ | intro _ _ | intro _ | (with_reducible refine Keeps.mk_over ?_ rfl rfl rfl rfl rfl rfl)

theorem exportRingWrite_keeps {r : State} {s : State} (hs : Keeps r s) :
    Keeps r (exportRingWrite s) := by
  unfold exportRingWrite
  repeat' first
    | with_reducible assumption | with_reducible apply issueCleanup_keeps | with_reducible apply emit_keeps
    | with_reducible apply wrC_keeps | split | dsimp only | intro _ _ _ | intro _ _ | intro _
    | (with_reducible refine Keeps.mk_over ?_ rfl rfl rfl rfl rfl rfl)

theorem execExportRingWrite_keeps {r : State} {s : State} (hs : Keeps r s) :
    OutKeeps r (execExportRingWrite s) := by
  unfold execExportRingWrite
  repeat' first
    | with_reducible assumption | with_reducible apply guarded_keeps | with_reducible apply OutKeeps.next
    | exact OutKeeps.refused _ | exact OutKeeps.fault _ | with_reducible apply exportRingWrite_keeps
    | with_reducible apply foldl_keeps | split | dsimp only | intro _ _ _ | intro _ _ | intro _
    | (with_reducible refine Keeps.mk_over ?_ rfl rfl rfl rfl rfl rfl)

theorem execExpqConsWrite_keeps {r : State} {w : Window} {v : Word} {s : State} (hs : Keeps r s) :
    OutKeeps r (execExpqConsWrite w v s) := by
  unfold execExpqConsWrite
  repeat' first
    | with_reducible assumption | with_reducible apply guarded_keeps | with_reducible apply OutKeeps.next
    | exact OutKeeps.refused _ | exact OutKeeps.fault _ | with_reducible apply writing_keeps | with_reducible apply wrC_keeps
    | with_reducible apply foldl_keeps | split | dsimp only | intro _ _ _ | intro _ _ | intro _
    | (with_reducible refine Keeps.mk_over ?_ rfl rfl rfl rfl rfl rfl)

theorem expqCfgWrite_keeps {r : State} {c : Nat} {v : Word} {s : State} (hs : Keeps r s) :
    Keeps r (expqCfgWrite c v s) := by
  unfold expqCfgWrite
  repeat' first
    | with_reducible assumption | with_reducible apply wrC_keeps | with_reducible apply raise_keeps
    | with_reducible apply foldl_keeps | split | dsimp only | intro _ _ _ | intro _ _ | intro _
    | (with_reducible refine Keeps.mk_over ?_ rfl rfl rfl rfl rfl rfl)

theorem execExpqEnable_keeps {r : State} {w : Window} {v : Word} {s : State} (hs : Keeps r s) :
    OutKeeps r (execExpqEnable w v s) := by
  unfold execExpqEnable
  repeat' first
    | with_reducible assumption | with_reducible apply guarded_keeps | with_reducible apply OutKeeps.next
    | exact OutKeeps.refused _ | exact OutKeeps.fault _ | with_reducible apply writing_keeps
    | with_reducible apply expqCfgWrite_keeps | with_reducible apply foldl_keeps | split | dsimp only | intro _ _ _ | intro _ _
    | intro _ | (with_reducible refine Keeps.mk_over ?_ rfl rfl rfl rfl rfl rfl)

theorem takeRing_keeps {r : State} {c : Nat} {s : State} (hs : Keeps r s) :
    Keeps r (takeRing c s) := by
  unfold takeRing
  repeat' first
    | with_reducible assumption | split | dsimp only | intro _ _ _ | intro _ _ | intro _
    | (with_reducible refine Keeps.mk_over ?_ rfl rfl rfl rfl rfl rfl)

theorem advanceCons_keeps {r : State} {c n : Nat} {s : State} (hs : Keeps r s) : Keeps r (advanceCons c n s) := by
  induction n generalizing s with
  | zero => exact hs
  | succ n ih =>
    have ht : ∀ v : Nat, Keeps r
        (wrC fltCmdqCons_index c v { s with flow := { s.flow with
          done := s.flow.done.filter (· != (c, rdC fltCmdqCons_index c s)) } }) :=
      fun v => wrC_keeps (Keeps.mk_over hs rfl rfl rfl rfl rfl rfl)
    simp only [advanceCons]
    split
    · split
      · exact raise_keeps (ht _)
      · exact ih (ht _)
    · exact hs

theorem completeEntry_keeps {r : State} {c : Nat} {k : Nat} {a : CmdAnswer} {s : State} (hs : Keeps r s) :
    Keeps r (completeEntry c k a s) := by
  unfold completeEntry
  repeat' first
    | with_reducible assumption | with_reducible apply emit_keeps | with_reducible apply advanceCons_keeps | split | dsimp only
    | intro _ _ _ | intro _ _ | intro _ | (with_reducible refine Keeps.mk_over ?_ rfl rfl rfl rfl rfl rfl)

theorem takeEntry_keeps {r : State} {c : Nat} {k : Nat} {s : State} (hs : Keeps r s) :
    Keeps r (takeEntry c k s) := by
  unfold takeEntry
  repeat' first
    | with_reducible assumption | with_reducible apply completeEntry_keeps | with_reducible apply offerOp_keeps
    | with_reducible apply foldl_keeps | split | dsimp only | intro _ _ _ | intro _ _ | intro _
    | (with_reducible refine Keeps.mk_over ?_ rfl rfl rfl rfl rfl rfl)

theorem takeEntries_keeps {r : State} {c n : Nat} {s : State} (hs : Keeps r s) : Keeps r (takeEntries c n s) := by
  induction n generalizing s with
  | zero => exact hs
  | succ n ih =>
    simp only [takeEntries]
    split
    · exact hs
    · exact ih (takeEntry_keeps (Keeps.mk_over hs rfl rfl rfl rfl rfl rfl))

theorem abandonRing_keeps {r : State} {s : State} (hs : Keeps r s) :
    Keeps r (abandonRing s) := by
  unfold abandonRing
  repeat' first
    | with_reducible assumption | split | dsimp only | intro _ _ _ | intro _ _ | intro _
    | (with_reducible refine Keeps.mk_over ?_ rfl rfl rfl rfl rfl rfl)

theorem failEntries_keeps {r : State} {c n k : Nat} {s : State} (hs : Keeps r s) : Keeps r (failEntries c n k s) := by
  induction n generalizing k s with
  | zero => exact hs
  | succ n ih =>
    simp only [failEntries]
    split
    · exact hs
    · split
      · exact ih hs
      · exact ih (completeEntry_keeps hs)

theorem failRing_keeps {r : State} {c : Nat} {s : State} (hs : Keeps r s) :
    Keeps r (failRing c s) := by
  unfold failRing
  repeat' first
    | with_reducible assumption | with_reducible apply foldOver_keeps | with_reducible apply removeItem_keeps
    | with_reducible apply failEntries_keeps | with_reducible apply foldl_keeps | split | dsimp only | intro _ _ _ | intro _ _
    | intro _ | (with_reducible refine Keeps.mk_over ?_ rfl rfl rfl rfl rfl rfl)

theorem failRings_keeps {r : State} {s : State} (hs : Keeps r s) :
    Keeps r (failRings s) := by
  unfold failRings
  repeat' first
    | with_reducible assumption | with_reducible apply foldOver_keeps | with_reducible apply failRing_keeps
    | with_reducible apply foldl_keeps | split | dsimp only | intro _ _ _ | intro _ _ | intro _
    | (with_reducible refine Keeps.mk_over ?_ rfl rfl rfl rfl rfl rfl)

theorem storeEntries_keeps {r : State} {c k : Nat} {es : List (List Byte)} {s : State} (hs : Keeps r s) :
    Keeps r (storeEntries c k es s) := by
  induction es generalizing k s with
  | nil => exact hs
  | cons e es ih => exact ih (Keeps.mk_over hs rfl rfl rfl rfl rfl rfl)

theorem cmdqProdWrite_keeps {r : State} {c : Nat} {v : Word} {entries : List (List Byte)} {s : State} (hs : Keeps r s) :
    Keeps r (cmdqProdWrite c v entries s) := by
  unfold cmdqProdWrite
  repeat' first
    | with_reducible assumption | with_reducible apply wrC_keeps | with_reducible apply storeEntries_keeps
    | with_reducible apply failRing_keeps | with_reducible apply takeEntries_keeps | with_reducible apply foldl_keeps | split
    | dsimp only | intro _ _ _ | intro _ _ | intro _ | (with_reducible refine Keeps.mk_over ?_ rfl rfl rfl rfl rfl rfl)

theorem execCmdqProdWrite_keeps {r : State} {w : Window} {v : Word} {entries : List (List Byte)} {s : State} (hs : Keeps r s) :
    OutKeeps r (execCmdqProdWrite w v entries s) := by
  unfold execCmdqProdWrite
  repeat' first
    | with_reducible assumption | with_reducible apply guarded_keeps | with_reducible apply OutKeeps.next
    | exact OutKeeps.refused _ | exact OutKeeps.fault _ | with_reducible apply writing_keeps
    | with_reducible apply cmdqProdWrite_keeps | with_reducible apply foldl_keeps | split | dsimp only | intro _ _ _ | intro _ _
    | intro _ | (with_reducible refine Keeps.mk_over ?_ rfl rfl rfl rfl rfl rfl)

theorem cmdqCfgWrite_keeps {r : State} {c : Nat} {v : Word} {s : State} (hs : Keeps r s) :
    Keeps r (cmdqCfgWrite c v s) := by
  unfold cmdqCfgWrite
  repeat' first
    | with_reducible assumption | with_reducible apply wrC_keeps | with_reducible apply takeRing_keeps
    | with_reducible apply raise_keeps | with_reducible apply takeEntries_keeps | split | dsimp only | intro _ _ _ | intro _ _
    | intro _ | (with_reducible refine Keeps.mk_over ?_ rfl rfl rfl rfl rfl rfl)

theorem execCmdqEnable_keeps {r : State} {w : Window} {v : Word} {s : State} (hs : Keeps r s) :
    OutKeeps r (execCmdqEnable w v s) := by
  unfold execCmdqEnable
  repeat' first
    | with_reducible assumption | with_reducible apply guarded_keeps | with_reducible apply OutKeeps.next
    | exact OutKeeps.refused _ | exact OutKeeps.fault _ | with_reducible apply writing_keeps
    | with_reducible apply cmdqCfgWrite_keeps | with_reducible apply foldl_keeps | split | dsimp only | intro _ _ _ | intro _ _
    | intro _ | (with_reducible refine Keeps.mk_over ?_ rfl rfl rfl rfl rfl rfl)

theorem cmdFind_keeps {r : State} {e : List Byte} {i : Item} {err : LookupErr} {s : State} (hs : Keeps r s) :
    Keeps r (cmdFind e i err s).2 := by
  unfold cmdFind
  try dsimp only
  repeat' first
    | split | with_reducible assumption | with_reducible apply opErrors_keeps | with_reducible apply poisonRecord_keeps
    | with_reducible apply recordErrorSeen_keeps | with_reducible apply dropClean_keeps | with_reducible apply flowFind_keeps
    | dsimp only | intro _ _ _ | intro _ _ | intro _ | (refine Keeps.snd ?_ ‹_›)
    | (with_reducible refine Keeps.mk_over ?_ rfl rfl rfl rfl rfl rfl)

theorem cmdCreate_keeps {r : State} {e : List Byte} {i : Item} {s : State} (hs : Keeps r s) :
    Keeps r (cmdCreate e i s).2 := by
  unfold cmdCreate
  try dsimp only
  repeat' first
    | split | with_reducible assumption | with_reducible apply reserveCreate_keeps | with_reducible apply placeRecord_keeps
    | with_reducible apply foldl_keeps | dsimp only | intro _ _ _ | intro _ _ | intro _ | (refine Keeps.third ?_ ‹_›)
    | (with_reducible refine Keeps.mk_over ?_ rfl rfl rfl rfl rfl rfl)

theorem cmdOnFound_keeps {r : State} {e : List Byte} {i : Item} {f : Found3} {s : State} (hs : Keeps r s) :
    Keeps r (cmdOnFound e i f s).2 := by
  unfold cmdOnFound
  try dsimp only
  repeat' first
    | split | with_reducible assumption | with_reducible apply retire_keeps | with_reducible apply storeRecord_keeps
    | with_reducible apply setPinned_keeps | with_reducible apply foldl_keeps | dsimp only | intro _ _ _ | intro _ _ | intro _
    | (with_reducible refine Keeps.mk_over ?_ rfl rfl rfl rfl rfl rfl)

theorem cmdRun_keeps {r : State} {e : List Byte} {i : Item} {err : LookupErr} {s : State} (hs : Keeps r s) :
    Keeps r (cmdRun e i err s).2 := by
  unfold cmdRun
  try dsimp only
  repeat' first
    | split | with_reducible assumption | with_reducible apply cmdFind_keeps | with_reducible apply cmdOnFound_keeps
    | with_reducible apply cmdCreate_keeps | with_reducible apply foldl_keeps | dsimp only | intro _ _ _ | intro _ _ | intro _
    | (refine Keeps.snd ?_ ‹_›) | (with_reducible refine Keeps.mk_over ?_ rfl rfl rfl rfl rfl rfl)

theorem commandOp_keeps {r : State} {op : Nat} {c : Nat} {q : Nat} {err : LookupErr} {s : State} (hs : Keeps r s) :
    Keeps r (commandOp op c q err s) := by
  unfold commandOp
  repeat' first
    | with_reducible assumption | with_reducible apply cmdRun_keeps | with_reducible apply completeEntry_keeps
    | with_reducible apply opDone_keeps | with_reducible apply foldl_keeps | split | dsimp only | intro _ _ _ | intro _ _
    | intro _ | (refine Keeps.snd ?_ ‹_›) | (with_reducible refine Keeps.mk_over ?_ rfl rfl rfl rfl rfl rfl)

theorem execCmdLookup_keeps {r : State} {c : Nat} {seq : Nat} {err : LookupErr} {s : State} (hs : Keeps r s) :
    OutKeeps r (execCmdLookup c seq err s) := by
  unfold execCmdLookup
  repeat' first
    | with_reducible assumption | with_reducible apply guarded_keeps | with_reducible apply OutKeeps.next
    | exact OutKeeps.refused _ | exact OutKeeps.fault _ | with_reducible apply commandOp_keeps
    | with_reducible apply foldl_keeps | split | dsimp only | intro _ _ _ | intro _ _ | intro _
    | (with_reducible refine Keeps.mk_over ?_ rfl rfl rfl rfl rfl rfl)

theorem execCmdReadIndex_keeps {r : State} {c : Nat} {seq : Nat} {err : LookupErr} {s : State} (hs : Keeps r s) :
    OutKeeps r (execCmdReadIndex c seq err s) := by
  unfold execCmdReadIndex
  repeat' first
    | with_reducible assumption | with_reducible apply guarded_keeps | with_reducible apply OutKeeps.next
    | exact OutKeeps.refused _ | exact OutKeeps.fault _ | with_reducible apply commandOp_keeps
    | with_reducible apply foldl_keeps | split | dsimp only | intro _ _ _ | intro _ _ | intro _
    | (with_reducible refine Keeps.mk_over ?_ rfl rfl rfl rfl rfl rfl)

theorem execCmdCreate_keeps {r : State} {c : Nat} {seq : Nat} {err : LookupErr} {s : State} (hs : Keeps r s) :
    OutKeeps r (execCmdCreate c seq err s) := by
  unfold execCmdCreate
  repeat' first
    | with_reducible assumption | with_reducible apply guarded_keeps | with_reducible apply OutKeeps.next
    | exact OutKeeps.refused _ | exact OutKeeps.fault _ | with_reducible apply commandOp_keeps
    | with_reducible apply foldl_keeps | split | dsimp only | intro _ _ _ | intro _ _ | intro _
    | (with_reducible refine Keeps.mk_over ?_ rfl rfl rfl rfl rfl rfl)

theorem execCmdDeleteKey_keeps {r : State} {c : Nat} {seq : Nat} {err : LookupErr} {s : State} (hs : Keeps r s) :
    OutKeeps r (execCmdDeleteKey c seq err s) := by
  unfold execCmdDeleteKey
  repeat' first
    | with_reducible assumption | with_reducible apply guarded_keeps | with_reducible apply OutKeeps.next
    | exact OutKeeps.refused _ | exact OutKeeps.fault _ | with_reducible apply commandOp_keeps
    | with_reducible apply foldl_keeps | split | dsimp only | intro _ _ _ | intro _ _ | intro _
    | (with_reducible refine Keeps.mk_over ?_ rfl rfl rfl rfl rfl rfl)

theorem execCmdDeleteIndex_keeps {r : State} {c : Nat} {seq : Nat} {err : LookupErr} {s : State} (hs : Keeps r s) :
    OutKeeps r (execCmdDeleteIndex c seq err s) := by
  unfold execCmdDeleteIndex
  repeat' first
    | with_reducible assumption | with_reducible apply guarded_keeps | with_reducible apply OutKeeps.next
    | exact OutKeeps.refused _ | exact OutKeeps.fault _ | with_reducible apply commandOp_keeps
    | with_reducible apply foldl_keeps | split | dsimp only | intro _ _ _ | intro _ _ | intro _
    | (with_reducible refine Keeps.mk_over ?_ rfl rfl rfl rfl rfl rfl)

theorem execCmdWriteState_keeps {r : State} {c : Nat} {seq : Nat} {err : LookupErr} {s : State} (hs : Keeps r s) :
    OutKeeps r (execCmdWriteState c seq err s) := by
  unfold execCmdWriteState
  repeat' first
    | with_reducible assumption | with_reducible apply guarded_keeps | with_reducible apply OutKeeps.next
    | exact OutKeeps.refused _ | exact OutKeeps.fault _ | with_reducible apply commandOp_keeps
    | with_reducible apply foldl_keeps | split | dsimp only | intro _ _ _ | intro _ _ | intro _
    | (with_reducible refine Keeps.mk_over ?_ rfl rfl rfl rfl rfl rfl)

theorem execCmdPin_keeps {r : State} {c : Nat} {seq : Nat} {err : LookupErr} {s : State} (hs : Keeps r s) :
    OutKeeps r (execCmdPin c seq err s) := by
  unfold execCmdPin
  repeat' first
    | with_reducible assumption | with_reducible apply guarded_keeps | with_reducible apply OutKeeps.next
    | exact OutKeeps.refused _ | exact OutKeeps.fault _ | with_reducible apply commandOp_keeps
    | with_reducible apply foldl_keeps | split | dsimp only | intro _ _ _ | intro _ _ | intro _
    | (with_reducible refine Keeps.mk_over ?_ rfl rfl rfl rfl rfl rfl)

theorem execCmdUnpin_keeps {r : State} {c : Nat} {seq : Nat} {err : LookupErr} {s : State} (hs : Keeps r s) :
    OutKeeps r (execCmdUnpin c seq err s) := by
  unfold execCmdUnpin
  repeat' first
    | with_reducible assumption | with_reducible apply guarded_keeps | with_reducible apply OutKeeps.next
    | exact OutKeeps.refused _ | exact OutKeeps.fault _ | with_reducible apply commandOp_keeps
    | with_reducible apply foldl_keeps | split | dsimp only | intro _ _ _ | intro _ _ | intro _
    | (with_reducible refine Keeps.mk_over ?_ rfl rfl rfl rfl rfl rfl)

theorem execBar2WindowWrite_keeps {r : State} {w : Window} {v : Word} {s : State} (hs : Keeps r s) :
    OutKeeps r (execBar2WindowWrite w v s) := by
  unfold execBar2WindowWrite
  repeat' first
    | with_reducible assumption | with_reducible apply guarded_keeps | with_reducible apply OutKeeps.next
    | exact OutKeeps.refused _ | exact OutKeeps.fault _ | with_reducible apply writing_keeps | with_reducible apply wr_keeps
    | with_reducible apply accessError_keeps | with_reducible apply foldl_keeps | split | dsimp only | intro _ _ _ | intro _ _
    | intro _ | (with_reducible refine Keeps.mk_over ?_ rfl rfl rfl rfl rfl rfl)

theorem fltOff_keeps {r : State} {s : State} (hs : Keeps r s) :
    Keeps r (fltOff s) := by
  unfold fltOff
  repeat' first
    | with_reducible assumption | with_reducible apply failRings_keeps | with_reducible apply foldl_keeps | split | dsimp only
    | intro _ _ _ | intro _ _ | intro _ | (with_reducible refine Keeps.mk_over ?_ rfl rfl rfl rfl rfl rfl)

theorem fltReset_keeps {r : State} {s : State} (hs : Keeps r s) :
    Keeps r (fltReset s) := by
  unfold fltReset
  repeat' first
    | with_reducible assumption | with_reducible apply flowReset_keeps | with_reducible apply failRings_keeps | split
    | dsimp only | intro _ _ _ | intro _ _ | intro _ | (with_reducible refine Keeps.mk_over ?_ rfl rfl rfl rfl rfl rfl)

theorem fchStarting_keeps {r : State} {s : State} (hs : Keeps r s) :
    Keeps r (fchStarting s) := by
  unfold fchStarting
  repeat' first
    | with_reducible assumption | with_reducible apply putCache_keeps | with_reducible apply writeBackAll_keeps
    | with_reducible apply foldl_keeps | split | dsimp only | intro _ _ _ | intro _ _ | intro _
    | (with_reducible refine Keeps.mk_over ?_ rfl rfl rfl rfl rfl rfl)

end Sys2Proof.Machine
end

