-- ==== Sys2Proof/Laws/OwnersKeeps.lean ====
section
/-! SUPPORT. Every operation of Machine/Owners.lean keeps what `Keeps` speaks of. -/

-- The alternatives of each proof's `first` are the same list; not every alternative is used in every proof.
set_option linter.unreachableTactic false
set_option linter.unusedTactic false

namespace Sys2Proof.Machine

theorem modOwn_keeps {r : State} {e : Nat} {f : OwnEntry → OwnEntry} {s : State} (hs : Keeps r s) :
    Keeps r (modOwn e f s) := by
  unfold modOwn
  repeat' first
    | with_reducible assumption | with_reducible apply putOwn_keeps | with_reducible apply foldl_keeps | split | dsimp only
    | intro _ _ _ | intro _ _ | intro _ | (with_reducible refine Keeps.mk_over ?_ rfl rfl rfl rfl rfl rfl)

theorem offerEvicts_keeps {r : State} {e : Nat} {s : State} (hs : Keeps r s) :
    Keeps r (offerEvicts e s) := by
  unfold offerEvicts
  repeat' first
    | with_reducible assumption | with_reducible apply foldOver_keeps | with_reducible apply offerOp_keeps | split | dsimp only
    | intro _ _ _ | intro _ _ | intro _ | (with_reducible refine Keeps.mk_over ?_ rfl rfl rfl rfl rfl rfl)

theorem serveGiving_keeps {r : State} {e : Nat} {s : State} (hs : Keeps r s) :
    Keeps r (serveGiving e s) := by
  unfold serveGiving
  repeat' first
    | with_reducible assumption | with_reducible apply sendControl_keeps | with_reducible apply putOwn_keeps
    | with_reducible apply offerEvicts_keeps | split | dsimp only | intro _ _ _ | intro _ _ | intro _
    | (with_reducible refine Keeps.mk_over ?_ rfl rfl rfl rfl rfl rfl)

theorem servePurge_keeps {r : State} {e : Nat} {s : State} (hs : Keeps r s) :
    Keeps r (servePurge e s) := by
  unfold servePurge
  repeat' first
    | with_reducible assumption | with_reducible apply modOwn_keeps | with_reducible apply offerEvicts_keeps | split
    | dsimp only | intro _ _ _ | intro _ _ | intro _ | (with_reducible refine Keeps.mk_over ?_ rfl rfl rfl rfl rfl rfl)

theorem serveMoves_keeps {r : State} {s : State} (hs : Keeps r s) :
    Keeps r (serveMoves s) := by
  unfold serveMoves
  repeat' first
    | with_reducible assumption | with_reducible apply foldOver_keeps | with_reducible apply serveGiving_keeps
    | with_reducible apply servePurge_keeps | split | dsimp only | intro _ _ _ | intro _ _ | intro _
    | (with_reducible refine Keeps.mk_over ?_ rfl rfl rfl rfl rfl rfl)

theorem applyOwner_keeps {r : State} {e : Nat} {owner : Nat} {epoch : Nat} {transfer : Bool} {s : State} (hs : Keeps r s) :
    Keeps r (applyOwner e owner epoch transfer s) := by
  unfold applyOwner
  repeat' first
    | with_reducible assumption | with_reducible apply serveMoves_keeps | with_reducible apply putOwn_keeps | split | dsimp only
    | intro _ _ _ | intro _ _ | intro _ | (with_reducible refine Keeps.mk_over ?_ rfl rfl rfl rfl rfl rfl)

theorem clearMoving_keeps {r : State} {e : Nat} {s : State} (hs : Keeps r s) :
    Keeps r (clearMoving e s) := by
  unfold clearMoving
  repeat' first
    | with_reducible assumption | with_reducible apply unpark_keeps | with_reducible apply modOwn_keeps | split | dsimp only
    | intro _ _ _ | intro _ _ | intro _ | (with_reducible refine Keeps.mk_over ?_ rfl rfl rfl rfl rfl rfl)

theorem applyAbort_keeps {r : State} {e : Nat} {owner : Nat} {epoch : Nat} {s : State} (hs : Keeps r s) :
    Keeps r (applyAbort e owner epoch s) := by
  unfold applyAbort
  repeat' first
    | with_reducible assumption | with_reducible apply clearMoving_keeps | with_reducible apply modOwn_keeps
    | with_reducible apply foldl_keeps | split | dsimp only | intro _ _ _ | intro _ _ | intro _
    | (with_reducible refine Keeps.mk_over ?_ rfl rfl rfl rfl rfl rfl)

theorem tellOthers_keeps {r : State} {e : Nat} {owner : Nat} {epoch : Nat} {moving : Bool} {done : Bool} {aborted : Bool} {s : State} (hs : Keeps r s) :
    Keeps r (tellOthers e owner epoch moving done aborted s) := by
  unfold tellOthers
  repeat' first
    | with_reducible assumption | with_reducible apply foldOver_keeps | with_reducible apply sendControl_keeps
    | with_reducible apply foldl_keeps | split | dsimp only | intro _ _ _ | intro _ _ | intro _
    | (with_reducible refine Keeps.mk_over ?_ rfl rfl rfl rfl rfl rfl)

theorem beginMove_keeps {r : State} {e : Nat} {owner : Nat} {win : Option Nat} {transfer : Bool} {s : State} (hs : Keeps r s) :
    Keeps r (beginMove e owner win transfer s) := by
  unfold beginMove
  repeat' first
    | with_reducible assumption | with_reducible apply modOwn_keeps | with_reducible apply applyOwner_keeps
    | with_reducible apply tellOthers_keeps | with_reducible apply foldl_keeps | split | dsimp only | intro _ _ _ | intro _ _
    | intro _ | (with_reducible refine Keeps.mk_over ?_ rfl rfl rfl rfl rfl rfl)

theorem moveResult_keeps {r : State} {e : Nat} {result : Nat} {s : State} (hs : Keeps r s) :
    Keeps r (moveResult e result s) := by
  unfold moveResult
  repeat' first
    | with_reducible assumption | with_reducible apply modOwn_keeps | with_reducible apply wrC_keeps
    | with_reducible apply foldl_keeps | split | dsimp only | intro _ _ _ | intro _ _ | intro _
    | (with_reducible refine Keeps.mk_over ?_ rfl rfl rfl rfl rfl rfl)

theorem ownMoveWrite_keeps {r : State} {c : Nat} {v : Word} {s : State} (hs : Keeps r s) :
    Keeps r (ownMoveWrite c v s) := by
  unfold ownMoveWrite
  repeat' first
    | with_reducible assumption | with_reducible apply wrC_keeps | with_reducible apply beginMove_keeps
    | with_reducible apply foldl_keeps | split | dsimp only | intro _ _ _ | intro _ _ | intro _
    | (with_reducible refine Keeps.mk_over ?_ rfl rfl rfl rfl rfl rfl)

theorem execOwnMoveGo_keeps {r : State} {w : Window} {v : Word} {s : State} (hs : Keeps r s) :
    OutKeeps r (execOwnMoveGo w v s) := by
  unfold execOwnMoveGo
  repeat' first
    | with_reducible assumption | with_reducible apply guarded_keeps | with_reducible apply OutKeeps.next
    | exact OutKeeps.refused _ | exact OutKeeps.fault _ | with_reducible apply writing_keeps
    | with_reducible apply ownMoveWrite_keeps | with_reducible apply foldl_keeps | split | dsimp only | intro _ _ _ | intro _ _
    | intro _ | (with_reducible refine Keeps.mk_over ?_ rfl rfl rfl rfl rfl rfl)

theorem ownerMoveAcked_keeps {r : State} {e : Nat} {s : State} (hs : Keeps r s) :
    Keeps r (ownerMoveAcked e s) := by
  unfold ownerMoveAcked
  repeat' first
    | with_reducible assumption | with_reducible apply raise_keeps | with_reducible apply tellOthers_keeps
    | with_reducible apply clearMoving_keeps | with_reducible apply moveResult_keeps | with_reducible apply foldl_keeps | split
    | dsimp only | intro _ _ _ | intro _ _ | intro _ | (with_reducible refine Keeps.mk_over ?_ rfl rfl rfl rfl rfl rfl)

theorem execOwnerMoveAcked_keeps {r : State} {e : Nat} {s : State} (hs : Keeps r s) :
    OutKeeps r (execOwnerMoveAcked e s) := by
  unfold execOwnerMoveAcked
  repeat' first
    | with_reducible assumption | with_reducible apply guarded_keeps | with_reducible apply OutKeeps.next
    | exact OutKeeps.refused _ | exact OutKeeps.fault _ | with_reducible apply ownerMoveAcked_keeps
    | with_reducible apply foldl_keeps | split | dsimp only | intro _ _ _ | intro _ _ | intro _
    | (with_reducible refine Keeps.mk_over ?_ rfl rfl rfl rfl rfl rfl)

theorem abortTo_keeps {r : State} {e : Nat} {owner : Nat} {epoch : Nat} {s : State} (hs : Keeps r s) :
    Keeps r (abortTo e owner epoch s) := by
  unfold abortTo
  repeat' first
    | with_reducible assumption | with_reducible apply raise_keeps | with_reducible apply tellOthers_keeps
    | with_reducible apply applyAbort_keeps | with_reducible apply moveResult_keeps | with_reducible apply foldl_keeps | split
    | dsimp only | intro _ _ _ | intro _ _ | intro _ | (with_reducible refine Keeps.mk_over ?_ rfl rfl rfl rfl rfl rfl)

theorem abortMove_keeps {r : State} {e : Nat} {s : State} (hs : Keeps r s) :
    Keeps r (abortMove e s) := by
  unfold abortMove
  repeat' first
    | with_reducible assumption | with_reducible apply abortTo_keeps | with_reducible apply foldl_keeps | split | dsimp only
    | intro _ _ _ | intro _ _ | intro _ | (with_reducible refine Keeps.mk_over ?_ rfl rfl rfl rfl rfl rfl)

theorem ownMoveTimeout_keeps {r : State} {e : Nat} {s : State} (hs : Keeps r s) :
    Keeps r (ownMoveTimeout e s) := by
  unfold ownMoveTimeout
  repeat' first
    | with_reducible assumption | with_reducible apply abortMove_keeps | split | dsimp only | intro _ _ _ | intro _ _ | intro _
    | (with_reducible refine Keeps.mk_over ?_ rfl rfl rfl rfl rfl rfl)

theorem execOwnMoveTimeout_keeps {r : State} {e : Nat} {s : State} (hs : Keeps r s) :
    OutKeeps r (execOwnMoveTimeout e s) := by
  unfold execOwnMoveTimeout
  repeat' first
    | with_reducible assumption | with_reducible apply guarded_keeps | with_reducible apply OutKeeps.next
    | exact OutKeeps.refused _ | exact OutKeeps.fault _ | with_reducible apply ownMoveTimeout_keeps
    | with_reducible apply foldl_keeps | split | dsimp only | intro _ _ _ | intro _ _ | intro _
    | (with_reducible refine Keeps.mk_over ?_ rfl rfl rfl rfl rfl rfl)

theorem moveFrom_keeps {r : State} {d : Nat} {counts es : List Nat} {s : State} (hs : Keeps r s) :
    Keeps r (moveFrom d counts es s) := by
  induction es generalizing counts s with
  | nil => exact hs
  | cons e es ih =>
    unfold moveFrom
    split
    · exact ih hs
    · split
      · exact hs
      · refine ih ?_
        split
        · exact abortTo_keeps hs
        · exact beginMove_keeps hs

theorem markAbsent_keeps {r : State} {d : Nat} {s : State} (hs : Keeps r s) :
    Keeps r (markAbsent d s) := by
  unfold markAbsent
  repeat' first
    | with_reducible assumption | with_reducible apply raise_keeps | with_reducible apply dropKept_keeps
    | with_reducible apply wr_keeps | with_reducible apply foldOver_keeps | with_reducible apply abortMove_keeps
    | with_reducible apply moveFrom_keeps | split | dsimp only | intro _ _ _ | intro _ _ | intro _
    | (with_reducible refine Keeps.mk_over ?_ rfl rfl rfl rfl rfl rfl)

theorem abortLost_keeps {r : State} {x : Nat} {lost : Nat} {s : State} (hs : Keeps r s) :
    Keeps r (abortLost x lost s) := by
  unfold abortLost
  repeat' first
    | with_reducible assumption | with_reducible apply foldOver_keeps | with_reducible apply abortMove_keeps
    | with_reducible apply foldl_keeps | split | dsimp only | intro _ _ _ | intro _ _ | intro _
    | (with_reducible refine Keeps.mk_over ?_ rfl rfl rfl rfl rfl rfl)

theorem stateSync_keeps {r : State} {e : Nat} {epoch : Nat} {r1 : List Byte} {s : State} (hs : Keeps r s) :
    Keeps r (stateSync e epoch r1 s) := by
  unfold stateSync
  repeat' first
    | with_reducible assumption | with_reducible apply staleEpoch_keeps | with_reducible apply offerOp_keeps | split
    | dsimp only | intro _ _ _ | intro _ _ | intro _ | (with_reducible refine Keeps.mk_over ?_ rfl rfl rfl rfl rfl rfl)

theorem transferEnds_keeps {r : State} {k : Nat} {e : Nat} {s : State} (hs : Keeps r s) :
    Keeps r (transferEnds k e s) := by
  unfold transferEnds
  repeat' first
    | with_reducible assumption | with_reducible apply unpark_keeps | with_reducible apply modOwn_keeps
    | with_reducible apply sendControl_keeps | split | dsimp only | intro _ _ _ | intro _ _ | intro _
    | (with_reducible refine Keeps.mk_over ?_ rfl rfl rfl rfl rfl rfl)

theorem transferDone_keeps {r : State} {k : Nat} {e : Nat} {s : State} (hs : Keeps r s) :
    Keeps r (transferDone k e s) := by
  unfold transferDone
  repeat' first
    | with_reducible assumption | with_reducible apply modOwn_keeps | with_reducible apply transferEnds_keeps | split
    | dsimp only | intro _ _ _ | intro _ _ | intro _ | (with_reducible refine Keeps.mk_over ?_ rfl rfl rfl rfl rfl rfl)

theorem settleTransfers_keeps {r : State} {s : State} (hs : Keeps r s) :
    Keeps r (settleTransfers s) := by
  unfold settleTransfers
  repeat' first
    | with_reducible assumption | with_reducible apply foldOver_keeps | with_reducible apply transferEnds_keeps | split
    | dsimp only | intro _ _ _ | intro _ _ | intro _ | (with_reducible refine Keeps.mk_over ?_ rfl rfl rfl rfl rfl rfl)

theorem execDispatchRound_keeps {r : State} {c : Nat} {s : State} (hs : Keeps r s) :
    OutKeeps r (execDispatchRound c s) := by
  unfold execDispatchRound
  repeat' first
    | with_reducible assumption | with_reducible apply guarded_keeps | with_reducible apply OutKeeps.next
    | exact OutKeeps.refused _ | exact OutKeeps.fault _ | with_reducible apply serveMoves_keeps
    | with_reducible apply settleTransfers_keeps | with_reducible apply dispatchRound_keeps | split | dsimp only | intro _ _ _
    | intro _ _ | intro _ | (with_reducible refine Keeps.mk_over ?_ rfl rfl rfl rfl rfl rfl)

theorem fwdWindowEnd_keeps {r : State} {e : Nat} {s : State} (hs : Keeps r s) :
    Keeps r (fwdWindowEnd e s) := by
  unfold fwdWindowEnd
  repeat' first
    | with_reducible assumption | with_reducible apply modOwn_keeps | split | dsimp only | intro _ _ _ | intro _ _ | intro _
    | (with_reducible refine Keeps.mk_over ?_ rfl rfl rfl rfl rfl rfl)

theorem execFwdWindowEnd_keeps {r : State} {e : Nat} {s : State} (hs : Keeps r s) :
    OutKeeps r (execFwdWindowEnd e s) := by
  unfold execFwdWindowEnd
  repeat' first
    | with_reducible assumption | with_reducible apply guarded_keeps | with_reducible apply OutKeeps.next
    | exact OutKeeps.refused _ | exact OutKeeps.fault _ | with_reducible apply fwdWindowEnd_keeps
    | with_reducible apply foldl_keeps | split | dsimp only | intro _ _ _ | intro _ _ | intro _
    | (with_reducible refine Keeps.mk_over ?_ rfl rfl rfl rfl rfl rfl)

end Sys2Proof.Machine
end

