-- ==== Sys2Proof/Laws/EngineKeeps.lean ====
section
/-! SUPPORT. Every operation of Machine/Engine.lean keeps what `Keeps` speaks of. -/

-- The alternatives of each proof's `first` are the same list; not every alternative is used in every proof.
set_option linter.unreachableTactic false
set_option linter.unusedTactic false

namespace Sys2Proof.Machine

theorem fenCount_keeps {r : State} {k : Nat} {e : Nat} {s : State} (hs : Keeps r s) :
    Keeps r (fenCount k e s) := by
  unfold fenCount
  repeat' first
    | with_reducible assumption | with_reducible apply count_keeps | with_reducible apply foldl_keeps | split | dsimp only
    | intro _ _ _ | intro _ _ | intro _ | (with_reducible refine Keeps.mk_over ?_ rfl rfl rfl rfl rfl rfl)

theorem lastFault_keeps {r : State} {e : Nat} {kind : Nat} {pc : Nat} {prog : Nat} {bank : Nat} {bucket : Nat} {s : State} (hs : Keeps r s) :
    Keeps r (lastFault e kind pc prog bank bucket s) := by
  unfold lastFault
  repeat' first
    | with_reducible assumption | with_reducible apply wrC_keeps | with_reducible apply foldl_keeps | split | dsimp only
    | intro _ _ _ | intro _ _ | intro _ | (with_reducible refine Keeps.mk_over ?_ rfl rfl rfl rfl rfl rfl)

theorem engineFault_keeps {r : State} {e : Nat} {kind : Nat} {k : Nat} {src : Src} {r0 : Run} {i : Item} {s : State} (hs : Keeps r s) :
    Keeps r (engineFault e kind k src r0 i s) := by
  unfold engineFault
  repeat' first
    | with_reducible assumption | with_reducible apply raiseC_keeps | with_reducible apply fenCount_keeps
    | with_reducible apply lastFault_keeps | with_reducible apply foldl_keeps | split | dsimp only | intro _ _ _ | intro _ _
    | intro _ | (with_reducible refine Keeps.mk_over ?_ rfl rfl rfl rfl rfl rfl)

theorem extLpm_keeps {r : State} {vrf : Nat} {v6 : Bool} {addr : Nat} {hash : Nat} {s : State} (hs : Keeps r s) :
    Keeps r (extLpm vrf v6 addr hash s).2 := by
  unfold extLpm
  try dsimp only
  repeat' first
    | split | with_reducible assumption | with_reducible apply raise_keeps | with_reducible apply lpmStat_keeps
    | with_reducible apply foldl_keeps | dsimp only | intro _ _ _ | intro _ _ | intro _
    | (with_reducible refine Keeps.mk_over ?_ rfl rfl rfl rfl rfl rfl)

theorem extValue_keeps {r : State} {m : MemSlice} {r0 : Run} {f : Frame} {s : State} (hs : Keeps r s) :
    Keeps r (extValue m r0 f s).2 := by
  unfold extValue
  try dsimp only
  repeat' first
    | split | with_reducible assumption | with_reducible apply meterEngine_keeps | with_reducible apply extLpm_keeps
    | with_reducible apply takeFree_keeps | with_reducible apply foldl_keeps | dsimp only | intro _ _ _ | intro _ _ | intro _
    | (refine Keeps.snd ?_ ‹_›) | (with_reducible refine Keeps.mk_over ?_ rfl rfl rfl rfl rfl rfl)

theorem extFlow_keeps {r : State} {m : MemSlice} {r0 : Run} {i : Item} {s : State} (hs : Keeps r s) :
    Keeps r (extFlow m r0 i s).2.2 := by
  unfold extFlow
  try dsimp only
  repeat' first
    | split | with_reducible assumption | with_reducible apply reserveCreate_keeps | with_reducible apply foldl_keeps
    | dsimp only | intro _ _ _ | intro _ _ | intro _ | (refine Keeps.third ?_ ‹_›)
    | (with_reducible refine Keeps.mk_over ?_ rfl rfl rfl rfl rfl rfl)

theorem extIssue_keeps {r : State} {m : MemSlice} {o : Run} {i : Item} {f : Frame} {r0 : Run} {s : State} (hs : Keeps r s) :
    Keeps r (extIssue m o i f r0 s).2 := by
  unfold extIssue
  try dsimp only
  repeat' first
    | split | with_reducible assumption | with_reducible apply extFlow_keeps | with_reducible apply extValue_keeps
    | with_reducible apply foldl_keeps | dsimp only | intro _ _ _ | intro _ _ | intro _ | (refine Keeps.snd ?_ ‹_›)
    | (refine Keeps.third ?_ ‹_›) | (with_reducible refine Keeps.mk_over ?_ rfl rfl rfl rfl rfl rfl)

theorem forceEnd_keeps {r : State} {e : Nat} {kind : Nat} {k : Nat} {src : Src} {r0 : Run} {i : Item} {s : State} (hs : Keeps r s) :
    Keeps r (forceEnd e kind k src r0 i s) := by
  unfold forceEnd
  repeat' first
    | with_reducible assumption | with_reducible apply engineFault_keeps | with_reducible apply putEngRun_keeps
    | with_reducible apply foldl_keeps | split | dsimp only | intro _ _ _ | intro _ _ | intro _
    | (with_reducible refine Keeps.mk_over ?_ rfl rfl rfl rfl rfl rfl)

theorem sequence_keeps {r : State} {e : Nat} {w : Nat} {o : Run} {r0 : Run} {i : Item} {f : Frame} {s : State} (hs : Keeps r s) :
    Keeps r (sequence e w o r0 i f s) := by
  unfold sequence
  repeat' first
    | with_reducible assumption | with_reducible apply putEngRun_keeps | with_reducible apply forceEnd_keeps
    | with_reducible apply foldl_keeps | split | dsimp only | intro _ _ _ | intro _ _ | intro _
    | (with_reducible refine Keeps.mk_over ?_ rfl rfl rfl rfl rfl rfl)

theorem runWord_keeps {r : State} {e : Nat} {w : Nat} {o : Run} {i : Item} {f : Frame} {s : State} (hs : Keeps r s) :
    Keeps r (runWord e w o i f s) := by
  unfold runWord
  repeat' first
    | with_reducible assumption | with_reducible apply extIssue_keeps | with_reducible apply fenCount_keeps
    | with_reducible apply engineFault_keeps | with_reducible apply sequence_keeps | with_reducible apply foldl_keeps | split
    | dsimp only | intro _ _ _ | intro _ _ | intro _ | (refine Keeps.snd ?_ ‹_›)
    | (with_reducible refine Keeps.mk_over ?_ rfl rfl rfl rfl rfl rfl)

theorem releaseOps_keeps {r : State} {r0 : Run} {i : Item} {s : State} (hs : Keeps r s) :
    Keeps r (releaseOps r0 i s) := by
  unfold releaseOps
  repeat' first
    | with_reducible assumption | with_reducible apply foldOver_keeps | with_reducible apply releaseCreate_keeps
    | with_reducible apply foldl_keeps | split | dsimp only | intro _ _ _ | intro _ _ | intro _
    | (with_reducible refine Keeps.mk_over ?_ rfl rfl rfl rfl rfl rfl)

theorem machineCheck_keeps {r : State} {e : Nat} {r1 : Run} {i : Item} {s : State} (hs : Keeps r s) :
    Keeps r (machineCheck e r1 i s) := by
  unfold machineCheck
  repeat' first
    | with_reducible assumption | with_reducible apply engineFault_keeps | with_reducible apply releaseOps_keeps
    | with_reducible apply satX_keeps | with_reducible apply wrC_keeps | with_reducible apply modStore_keeps
    | with_reducible apply clusterOut_keeps | with_reducible apply raiseC_keeps | with_reducible apply mcDrop_keeps
    | with_reducible apply putEngRun_keeps | split | dsimp only | intro _ _ _ | intro _ _ | intro _
    | (with_reducible refine Keeps.mk_over ?_ rfl rfl rfl rfl rfl rfl)

theorem microwordExecute_keeps {r : State} {e : Nat} {s0 : State} (hs0 : Keeps r s0) :
    Keeps r (microwordExecute e s0) := by
  unfold microwordExecute
  repeat' first
    | with_reducible assumption | with_reducible apply machineCheck_keeps | with_reducible apply fenCount_keeps
    | with_reducible apply runWord_keeps | with_reducible apply foldl_keeps | split | dsimp only | intro _ _ _ | intro _ _
    | intro _ | (with_reducible refine Keeps.mk_over ?_ rfl rfl rfl rfl rfl rfl)

theorem execMicrowordExecute_keeps {r : State} {e : Nat} {s : State} (hs : Keeps r s) :
    OutKeeps r (execMicrowordExecute e s) := by
  unfold execMicrowordExecute
  repeat' first
    | with_reducible assumption | with_reducible apply guarded_keeps | with_reducible apply OutKeeps.next
    | exact OutKeeps.refused _ | exact OutKeeps.fault _ | with_reducible apply microwordExecute_keeps
    | with_reducible apply foldl_keeps | split | dsimp only | intro _ _ _ | intro _ _ | intro _
    | (with_reducible refine Keeps.mk_over ?_ rfl rfl rfl rfl rfl rfl)

theorem machineCheckFlip_keeps {r : State} {e : Nat} {flip : Nat} {s : State} (hs : Keeps r s) :
    Keeps r (machineCheckFlip e flip s) := by
  unfold machineCheckFlip
  repeat' first
    | with_reducible assumption | with_reducible apply machineCheck_keeps | with_reducible apply modStore_keeps | split
    | dsimp only | intro _ _ _ | intro _ _ | intro _ | (with_reducible refine Keeps.mk_over ?_ rfl rfl rfl rfl rfl rfl)

theorem execMachineCheck_keeps {r : State} {e : Nat} {flip : Nat} {s : State} (hs : Keeps r s) :
    OutKeeps r (execMachineCheck e flip s) := by
  unfold execMachineCheck
  repeat' first
    | with_reducible assumption | with_reducible apply guarded_keeps | with_reducible apply OutKeeps.next
    | exact OutKeeps.refused _ | exact OutKeeps.fault _ | with_reducible apply machineCheckFlip_keeps
    | with_reducible apply foldl_keeps | split | dsimp only | intro _ _ _ | intro _ _ | intro _
    | (with_reducible refine Keeps.mk_over ?_ rfl rfl rfl rfl rfl rfl)

theorem wordReloadDone_keeps {r : State} {c : Nat} {bank : Nat} {w : Nat} {s : State} (hs : Keeps r s) :
    Keeps r (wordReloadDone c bank w s) := by
  unfold wordReloadDone
  repeat' first
    | with_reducible assumption | with_reducible apply resumeEngines_keeps | with_reducible apply raiseC_keeps
    | with_reducible apply modStore_keeps | split | dsimp only | intro _ _ _ | intro _ _ | intro _
    | (with_reducible refine Keeps.mk_over ?_ rfl rfl rfl rfl rfl rfl)

theorem execWordReloadDone_keeps {r : State} {c : Nat} {bank : Nat} {w : Nat} {s : State} (hs : Keeps r s) :
    OutKeeps r (execWordReloadDone c bank w s) := by
  unfold execWordReloadDone
  repeat' first
    | with_reducible assumption | with_reducible apply guarded_keeps | with_reducible apply OutKeeps.next
    | exact OutKeeps.refused _ | exact OutKeeps.fault _ | with_reducible apply wordReloadDone_keeps
    | with_reducible apply foldl_keeps | split | dsimp only | intro _ _ _ | intro _ _ | intro _
    | (with_reducible refine Keeps.mk_over ?_ rfl rfl rfl rfl rfl rfl)

theorem extResult_keeps {r : State} {e : Nat} {d : Nat} {s : State} (hs : Keeps r s) :
    Keeps r (extResult e d s) := by
  unfold extResult
  repeat' first
    | with_reducible assumption | with_reducible apply putEngRun_keeps | with_reducible apply foldl_keeps | split | dsimp only
    | intro _ _ _ | intro _ _ | intro _ | (with_reducible refine Keeps.mk_over ?_ rfl rfl rfl rfl rfl rfl)

theorem execExtResult_keeps {r : State} {e : Nat} {d : Nat} {s : State} (hs : Keeps r s) :
    OutKeeps r (execExtResult e d s) := by
  unfold execExtResult
  repeat' first
    | with_reducible assumption | with_reducible apply guarded_keeps | with_reducible apply OutKeeps.next
    | exact OutKeeps.refused _ | exact OutKeeps.fault _ | with_reducible apply extResult_keeps
    | with_reducible apply foldl_keeps | split | dsimp only | intro _ _ _ | intro _ _ | intro _
    | (with_reducible refine Keeps.mk_over ?_ rfl rfl rfl rfl rfl rfl)

theorem noteHit_keeps {r : State} {i : Item} {s : State} (hs : Keeps r s) :
    Keeps r (noteHit i s) := by
  unfold noteHit
  repeat' first
    | with_reducible assumption | with_reducible apply storeRecord_keeps | with_reducible apply foldl_keeps | split | dsimp only
    | intro _ _ _ | intro _ _ | intro _ | (with_reducible refine Keeps.mk_over ?_ rfl rfl rfl rfl rfl rfl)

theorem progInvalid_keeps {r : State} {e : Nat} {c : Nat} {bank : Nat} {i : Item} {s : State} (hs : Keeps r s) :
    Keeps r (progInvalid e c bank i s) := by
  unfold progInvalid
  repeat' first
    | with_reducible assumption | with_reducible apply putEngine_keeps | with_reducible apply raiseC_keeps
    | with_reducible apply fenCount_keeps | with_reducible apply lastFault_keeps | with_reducible apply removeItem_keeps
    | with_reducible apply unlockItem_keeps | with_reducible apply dropFrame_keeps | with_reducible apply foldl_keeps | split
    | dsimp only | intro _ _ _ | intro _ _ | intro _ | (with_reducible refine Keeps.mk_over ?_ rfl rfl rfl rfl rfl rfl)

theorem startItem_keeps {r : State} {e : Nat} {i : Item} {s : State} (hs : Keeps r s) :
    Keeps r (startItem e i s) := by
  unfold startItem
  repeat' first
    | with_reducible assumption | with_reducible apply progInvalid_keeps | with_reducible apply noteStart_keeps
    | with_reducible apply noteHit_keeps | with_reducible apply modItem_keeps | with_reducible apply putEngine_keeps
    | with_reducible apply foldl_keeps | split | dsimp only | intro _ _ _ | intro _ _ | intro _
    | (with_reducible refine Keeps.mk_over ?_ rfl rfl rfl rfl rfl rfl)

theorem itemStart_keeps {r : State} {e : Nat} {s : State} (hs : Keeps r s) :
    Keeps r (itemStart e s) := by
  unfold itemStart
  repeat' first
    | with_reducible assumption | with_reducible apply cancelNow_keeps | with_reducible apply startItem_keeps
    | with_reducible apply foldl_keeps | split | dsimp only | intro _ _ _ | intro _ _ | intro _
    | (with_reducible refine Keeps.mk_over ?_ rfl rfl rfl rfl rfl rfl)

theorem execItemStart_keeps {r : State} {e : Nat} {s : State} (hs : Keeps r s) :
    OutKeeps r (execItemStart e s) := by
  unfold execItemStart
  repeat' first
    | with_reducible assumption | with_reducible apply guarded_keeps | with_reducible apply OutKeeps.next
    | exact OutKeeps.refused _ | exact OutKeeps.fault _ | with_reducible apply itemStart_keeps
    | with_reducible apply foldl_keeps | split | dsimp only | intro _ _ _ | intro _ _ | intro _
    | (with_reducible refine Keeps.mk_over ?_ rfl rfl rfl rfl rfl rfl)

theorem checkVerdict_keeps {r : State} {e : Nat} {v : Nat} {r0 : Run} {i : Item} {s : State} (hs : Keeps r s) :
    Keeps r (checkVerdict e v r0 i s).2 := by
  unfold checkVerdict
  try dsimp only
  repeat' first
    | split | with_reducible assumption | with_reducible apply engineFault_keeps | with_reducible apply foldl_keeps | dsimp only
    | intro _ _ _ | intro _ _ | intro _ | (with_reducible refine Keeps.mk_over ?_ rfl rfl rfl rfl rfl rfl)

theorem rewriteFrame_keeps {r : State} {r1 : Run} {i : Item} {s : State} (hs : Keeps r s) :
    Keeps r (rewriteFrame r1 i s).2 := by
  unfold rewriteFrame
  extract_lets f win f1 t n old rest
  have ht : Keeps r t := putFrame_keeps hs
  clear_value t n old rest f1 win f
  split
  · exact ht
  · split
    · next e => exact Keeps.snd (takeCells_keeps ht) e
    · next u e =>
      have hu : Keeps r u := Keeps.snd (takeCells_keeps ht) e
      dsimp only
      exact giveCells_keeps (modFrame_keeps hu)

theorem writeRecord_keeps {r : State} {r1 : Run} {i : Item} {s : State} (hs : Keeps r s) :
    Keeps r (writeRecord r1 i s) := by
  unfold writeRecord
  repeat' first
    | with_reducible assumption | with_reducible apply raise_keeps | with_reducible apply count_keeps
    | with_reducible apply storeRecord_keeps | split | dsimp only | intro _ _ _ | intro _ _ | intro _
    | (with_reducible refine Keeps.mk_over ?_ rfl rfl rfl rfl rfl rfl)

theorem flowOp_keeps {r : State} {r0 : Run} {i : Item} {o : FlowOp} {s : State} (hs : Keeps r s) :
    Keeps r (flowOp r0 i o s) := by
  unfold flowOp
  repeat' first
    | with_reducible assumption | with_reducible apply placeRecord_keeps | with_reducible apply retire_keeps
    | with_reducible apply setPinned_keeps | with_reducible apply foldl_keeps | split | dsimp only | intro _ _ _ | intro _ _
    | intro _ | (with_reducible refine Keeps.mk_over ?_ rfl rfl rfl rfl rfl rfl)

theorem applyCounts_keeps {r : State} {r0 : Run} {s : State} (hs : Keeps r s) :
    Keeps r (applyCounts r0 s) := by
  unfold applyCounts
  repeat' first
    | with_reducible assumption | with_reducible apply foldOver_keeps | with_reducible apply countPcn_keeps
    | with_reducible apply histPut_keeps | with_reducible apply foldl_keeps | split | dsimp only | intro _ _ _ | intro _ _
    | intro _ | (with_reducible refine Keeps.mk_over ?_ rfl rfl rfl rfl rfl rfl)

theorem forwardVerdict_keeps {r : State} {r0 : Run} {i : Item} {s : State} (hs : Keeps r s) :
    Keeps r (forwardVerdict r0 i s) := by
  unfold forwardVerdict
  repeat' first
    | with_reducible assumption | with_reducible apply forwardFrame_keeps | with_reducible apply putFrame_keeps
    | with_reducible apply nextHopRead_keeps | with_reducible apply dropFrame_keeps | with_reducible apply hostFrame_keeps
    | with_reducible apply foldl_keeps | split | dsimp only | intro _ _ _ | intro _ _ | intro _ | (refine Keeps.snd ?_ ‹_›)
    | (with_reducible refine Keeps.mk_over ?_ rfl rfl rfl rfl rfl rfl)

theorem emitVerdict_keeps {r : State} {v : Nat} {r1 : Run} {i : Item} {s : State} (hs : Keeps r s) :
    Keeps r (emitVerdict v r1 i s) := by
  unfold emitVerdict
  repeat' first
    | with_reducible assumption | with_reducible apply modFrame_keeps | with_reducible apply forwardVerdict_keeps
    | with_reducible apply hostFrame_keeps | with_reducible apply recircLimit_keeps | with_reducible apply voqEnter_keeps
    | with_reducible apply dropFrame_keeps | split | dsimp only | intro _ _ _ | intro _ _ | intro _
    | (with_reducible refine Keeps.mk_over ?_ rfl rfl rfl rfl rfl rfl)

theorem generate_keeps {r : State} {e : Nat} {r1 : Run} {i : Item} {s : State} (hs : Keeps r s) :
    Keeps r (generate e r1 i s) := by
  unfold generate
  extract_lets n ver g
  clear_value g
  split
  · exact engineFault_keeps hs
  · split
    · exact count_keeps (fenCount_keeps hs)
    · split
      · next e => exact voqEnter_keeps (fenCount_keeps (Keeps.snd (newStored_keeps hs) e))
      · next e => exact engineFault_keeps (emptyResponse_keeps (Keeps.snd (newStored_keeps hs) e))

theorem releaseItem_keeps {r : State} {e : Nat} {c : Nat} {r0 : Run} {i : Item} {s : State} (hs : Keeps r s) :
    Keeps r (releaseItem e c r0 i s) := by
  unfold releaseItem
  repeat' first
    | with_reducible assumption | with_reducible apply removeItem_keeps | with_reducible apply unlockItem_keeps
    | with_reducible apply putEngine_keeps | with_reducible apply dspCount_keeps | with_reducible apply fenCount_keeps
    | with_reducible apply serveMoves_keeps | with_reducible apply satX_keeps | with_reducible apply foldl_keeps | split
    | dsimp only | intro _ _ _ | intro _ _ | intro _ | (with_reducible refine Keeps.mk_over ?_ rfl rfl rfl rfl rfl rfl)

theorem endWrites_keeps {r : State} {r0 : Run} {i : Item} {s : State} (hs : Keeps r s) :
    Keeps r (endWrites r0 i s) := by
  unfold endWrites
  repeat' first
    | with_reducible assumption | with_reducible apply foldOver_keeps | with_reducible apply applyCounts_keeps
    | with_reducible apply flowOp_keeps | with_reducible apply writeRecord_keeps | with_reducible apply foldl_keeps | split
    | dsimp only | intro _ _ _ | intro _ _ | intro _ | (with_reducible refine Keeps.mk_over ?_ rfl rfl rfl rfl rfl rfl)

theorem endEffects_keeps {r : State} {e : Nat} {v : Nat} {g : Bool} {r1 : Run} {i : Item} {s : State} (hs : Keeps r s) :
    Keeps r (endEffects e v g r1 i s) := by
  unfold endEffects
  repeat' first
    | with_reducible assumption | with_reducible apply dropFrame_keeps | with_reducible apply endWrites_keeps
    | with_reducible apply checkVerdict_keeps | with_reducible apply rewriteFrame_keeps | with_reducible apply generate_keeps
    | with_reducible apply emitVerdict_keeps | with_reducible apply bufferDrop_keeps | split | dsimp only | intro _ _ _
    | intro _ _ | intro _ | (with_reducible refine Keeps.mk_over ?_ rfl rfl rfl rfl rfl rfl)

theorem itemEnd_keeps {r : State} {e : Nat} {s : State} (hs : Keeps r s) :
    Keeps r (itemEnd e s) := by
  unfold itemEnd
  repeat' first
    | with_reducible assumption | with_reducible apply releaseItem_keeps | with_reducible apply endEffects_keeps
    | with_reducible apply actCancel_keeps | with_reducible apply foldl_keeps | split | dsimp only | intro _ _ _ | intro _ _
    | intro _ | (with_reducible refine Keeps.mk_over ?_ rfl rfl rfl rfl rfl rfl)

theorem execItemEnd_keeps {r : State} {e : Nat} {s : State} (hs : Keeps r s) :
    OutKeeps r (execItemEnd e s) := by
  unfold execItemEnd
  repeat' first
    | with_reducible assumption | with_reducible apply guarded_keeps | with_reducible apply OutKeeps.next
    | exact OutKeeps.refused _ | exact OutKeeps.fault _ | with_reducible apply itemEnd_keeps | with_reducible apply foldl_keeps
    | split | dsimp only | intro _ _ _ | intro _ _ | intro _ | (with_reducible refine Keeps.mk_over ?_ rfl rfl rfl rfl rfl rfl)

theorem fenForced_keeps {r : State} {e : Nat} {s : State} (hs : Keeps r s) :
    Keeps r (fenForced e s) := by
  unfold fenForced
  repeat' first
    | with_reducible assumption | with_reducible apply raiseC_keeps | with_reducible apply dspCount_keeps
    | with_reducible apply putEngine_keeps | with_reducible apply modItem_keeps | with_reducible apply transferItem_keeps
    | with_reducible apply foldl_keeps | split | dsimp only | intro _ _ _ | intro _ _ | intro _
    | (with_reducible refine Keeps.mk_over ?_ rfl rfl rfl rfl rfl rfl)

end Sys2Proof.Machine
end

