-- ==== Sys2Proof/Laws/MeshKeeps.lean ====
section
/-! SUPPORT. Every operation of Machine/Mesh.lean keeps what `Keeps` speaks of. -/

-- The alternatives of each proof's `first` are the same list; not every alternative is used in every proof.
set_option linter.unreachableTactic false
set_option linter.unusedTactic false

namespace Sys2Proof.Machine

theorem onTie_keeps {r : State} {k : Nat} {c : Bool} {f : State → State} {s : State} (hf : ∀ x0, Keeps r x0 → Keeps r (f x0)) (hs : Keeps r s) :
    OutKeeps r (onTie k c f s) := by
  unfold onTie
  repeat' first
    | with_reducible assumption | with_reducible apply hf | with_reducible apply guarded_keeps
    | with_reducible apply OutKeeps.next | exact OutKeeps.refused _ | exact OutKeeps.fault _ | with_reducible apply onlyIf_keeps
    | with_reducible apply foldl_keeps | split | dsimp only | intro _ _ _ | intro _ _ | intro _
    | (with_reducible refine Keeps.mk_over ?_ rfl rfl rfl rfl rfl rfl)

theorem tieCapSend_keeps {r : State} {k : Nat} {s : State} (hs : Keeps r s) :
    Keeps r (tieCapSend k s) := by
  unfold tieCapSend
  repeat' first
    | with_reducible assumption | with_reducible apply sendMsg_keeps | split | dsimp only | intro _ _ _ | intro _ _ | intro _
    | (with_reducible refine Keeps.mk_over ?_ rfl rfl rfl rfl rfl rfl)

theorem execTieCapSend_keeps {r : State} {k : Nat} {s : State} (hs : Keeps r s) :
    OutKeeps r (execTieCapSend k s) := by
  unfold execTieCapSend
  repeat' first
    | with_reducible assumption | with_reducible apply guarded_keeps | with_reducible apply OutKeeps.next
    | exact OutKeeps.refused _ | exact OutKeeps.fault _ | with_reducible apply onTie_keeps
    | with_reducible apply tieCapSend_keeps | with_reducible apply foldl_keeps | split | dsimp only | intro _ _ _ | intro _ _
    | intro _ | (with_reducible refine Keeps.mk_over ?_ rfl rfl rfl rfl rfl rfl)

theorem capRefuse_keeps {r : State} {k : Nat} {r0 : Nat} {s : State} (hs : Keeps r s) :
    Keeps r (capRefuse k r0 s) := by
  unfold capRefuse
  repeat' first
    | with_reducible assumption | with_reducible apply raiseC_keeps | with_reducible apply wrC_keeps
    | with_reducible apply raise_keeps | with_reducible apply dropLanes_keeps | with_reducible apply foldl_keeps | split
    | dsimp only | intro _ _ _ | intro _ _ | intro _ | (with_reducible refine Keeps.mk_over ?_ rfl rfl rfl rfl rfl rfl)

theorem linkStarts_keeps {r : State} {k : Nat} {c : TieCap} {s : State} (hs : Keeps r s) :
    Keeps r (linkStarts k c s) := by
  unfold linkStarts
  repeat' first
    | with_reducible assumption | with_reducible apply foldOver_keeps | with_reducible apply raiseC_keeps
    | with_reducible apply setLane_keeps | with_reducible apply modTieLink_keeps | with_reducible apply forwardAgain_keeps
    | with_reducible apply wrC_keeps | split | dsimp only | intro _ _ _ | intro _ _ | intro _
    | (with_reducible refine Keeps.mk_over ?_ rfl rfl rfl rfl rfl rfl)

theorem takeBad_keeps {r : State} {k : Nat} {s : State} (hs : Keeps r s) :
    Keeps r (takeBad k s).2 := by
  unfold takeBad
  try dsimp only
  repeat' first
    | split | with_reducible assumption | with_reducible apply modTieLink_keeps | with_reducible apply foldl_keeps | dsimp only
    | intro _ _ _ | intro _ _ | intro _ | (with_reducible refine Keeps.mk_over ?_ rfl rfl rfl rfl rfl rfl)

theorem takeBadFrame_keeps {r : State} {k : Nat} {s : State} (hs : Keeps r s) :
    Keeps r (takeBadFrame k s).2 := by
  unfold takeBadFrame
  repeat' first
    | with_reducible assumption | with_reducible apply modTieLink_keeps | split | dsimp only | intro _ _ _ | intro _ _ | intro _
    | (with_reducible refine Keeps.mk_over ?_ rfl rfl rfl rfl rfl rfl)

theorem followManager_keeps {r : State} {k : Nat} {epoch : Nat} {s : State} (hs : Keeps r s) :
    Keeps r (followManager k epoch s) := by
  unfold followManager
  repeat' first
    | with_reducible assumption | with_reducible apply wr_keeps | with_reducible apply foldl_keeps | split | dsimp only
    | intro _ _ _ | intro _ _ | intro _ | (with_reducible refine Keeps.mk_over ?_ rfl rfl rfl rfl rfl rfl)

theorem stepDown_keeps {r : State} {s : State} (hs : Keeps r s) :
    Keeps r (stepDown s) := by
  unfold stepDown
  repeat' first
    | with_reducible assumption | with_reducible apply raise_keeps | with_reducible apply wr_keeps
    | with_reducible apply serveMoves_keeps | with_reducible apply foldOver_keeps | with_reducible apply modOwn_keeps | split
    | dsimp only | intro _ _ _ | intro _ _ | intro _ | (with_reducible refine Keeps.mk_over ?_ rfl rfl rfl rfl rfl rfl)

theorem hearEpoch_keeps {r : State} {k : Nat} {epoch : Nat} {isMgr : Bool} {s : State} (hs : Keeps r s) :
    Keeps r (hearEpoch k epoch isMgr s) := by
  unfold hearEpoch
  repeat' first
    | with_reducible assumption | with_reducible apply stepDown_keeps | with_reducible apply followManager_keeps | split
    | dsimp only | intro _ _ _ | intro _ _ | intro _ | (with_reducible refine Keeps.mk_over ?_ rfl rfl rfl rfl rfl rfl)

theorem judgeCap_keeps {r : State} {k : Nat} {c : TieCap} {peer : Bool} {s : State} (hs : Keeps r s) :
    Keeps r (judgeCap k c peer s) := by
  unfold judgeCap
  repeat' first
    | with_reducible assumption | with_reducible apply capRefuse_keeps | with_reducible apply wrC_keeps
    | with_reducible apply modTieLink_keeps | with_reducible apply hearEpoch_keeps | with_reducible apply linkStarts_keeps
    | split | dsimp only | intro _ _ _ | intro _ _ | intro _ | (with_reducible refine Keeps.mk_over ?_ rfl rfl rfl rfl rfl rfl)

theorem tieCapability_keeps {r : State} {k : Nat} {c : TieCap} {peer : Bool} {s : State} (hs : Keeps r s) :
    Keeps r (tieCapability k c peer s) := by
  unfold tieCapability
  extract_lets b
  have hb : Keeps r b.2 := takeBad_keeps (count_keeps hs)
  clear_value b
  split
  · exact hb
  · exact judgeCap_keeps hb

theorem execTieCapability_keeps {r : State} {k : Nat} {cap : TieCap} {peerAccepts : Bool} {s : State} (hs : Keeps r s) :
    OutKeeps r (execTieCapability k cap peerAccepts s) := by
  unfold execTieCapability
  repeat' first
    | with_reducible assumption | with_reducible apply guarded_keeps | with_reducible apply OutKeeps.next
    | exact OutKeeps.refused _ | exact OutKeeps.fault _ | with_reducible apply onTie_keeps
    | with_reducible apply tieCapability_keeps | with_reducible apply foldl_keeps | split | dsimp only | intro _ _ _ | intro _ _
    | intro _ | (with_reducible refine Keeps.mk_over ?_ rfl rfl rfl rfl rfl rfl)

theorem takeFlit_keeps {r : State} {k : Nat} {f : Option Flit} {s : State} (hs : Keeps r s) :
    Keeps r (takeFlit k f s) := by
  unfold takeFlit
  repeat' first
    | with_reducible assumption | with_reducible apply modTieLink_keeps | with_reducible apply wrC_keeps
    | with_reducible apply count_keeps | split | dsimp only | intro _ _ _ | intro _ _ | intro _
    | (with_reducible refine Keeps.mk_over ?_ rfl rfl rfl rfl rfl rfl)

theorem takeBlock_keeps {r : State} {k : Nat} {s : State} (hs : Keeps r s) :
    Keeps r (takeBlock k s) := by
  unfold takeBlock
  repeat' first
    | with_reducible assumption | with_reducible apply foldOver_keeps | with_reducible apply takeFlit_keeps
    | with_reducible apply modTieLink_keeps | split | dsimp only | intro _ _ _ | intro _ _ | intro _
    | (with_reducible refine Keeps.mk_over ?_ rfl rfl rfl rfl rfl rfl)

theorem tieCodeword_keeps {r : State} {k : Nat} {lane0 : List Byte} {lane1 : List Byte} {lane2 : List Byte} {lane3 : List Byte}
    {s : State} (hs : Keeps r s) :
    Keeps r (tieCodeword k lane0 lane1 lane2 lane3 s) := by
  unfold tieCodeword
  repeat' first
    | with_reducible assumption | with_reducible apply takeBlock_keeps | with_reducible apply modTieLink_keeps
    | with_reducible apply raiseC_keeps | with_reducible apply count_keeps | split | dsimp only | intro _ _ _ | intro _ _
    | intro _ | (with_reducible refine Keeps.mk_over ?_ rfl rfl rfl rfl rfl rfl)

theorem execTieCodewordDecode_keeps {r : State} {k : Nat} {lane0 : List Byte} {lane1 : List Byte} {lane2 : List Byte} {lane3 :
    List Byte} {s : State} (hs : Keeps r s) :
    OutKeeps r (execTieCodewordDecode k lane0 lane1 lane2 lane3 s) := by
  unfold execTieCodewordDecode
  repeat' first
    | with_reducible assumption | with_reducible apply guarded_keeps | with_reducible apply OutKeeps.next
    | exact OutKeeps.refused _ | exact OutKeeps.fault _ | with_reducible apply onTie_keeps
    | with_reducible apply tieCodeword_keeps | split | dsimp only | intro _ _ _ | intro _ _ | intro _
    | (with_reducible refine Keeps.mk_over ?_ rfl rfl rfl rfl rfl rfl)

theorem tieReceive_keeps {r : State} {k : Nat} {d : List Byte} {bytes : List Byte} {s0 : State} (hs0 : Keeps r s0) :
    Keeps r (tieReceive k d bytes s0).2 := by
  unfold tieReceive
  extract_lets s
  have hs : Keeps r s := count_keeps hs0
  clear_value s
  split
  · dsimp only
    exact raise_keeps (count_keeps hs)
  · split
    · dsimp only
      exact count_keeps hs
    · split
      · next e => exact Keeps.snd (newStored_keeps hs) e
      · next t e =>
        have ht : Keeps r t := Keeps.snd (newStored_keeps hs) e
        dsimp only
        exact bufferDrop_keeps ht

theorem lateItem_keeps {r : State} {i : Nat} {s : State} (hs : Keeps r s) :
    Keeps r (lateItem i s) := by
  unfold lateItem
  repeat' first
    | with_reducible assumption | with_reducible apply steerToOwner_keeps | with_reducible apply count_keeps
    | with_reducible apply dropFrame_keeps | with_reducible apply foldl_keeps | split | dsimp only | intro _ _ _ | intro _ _
    | intro _ | (with_reducible refine Keeps.mk_over ?_ rfl rfl rfl rfl rfl rfl)

theorem steeredItem_keeps {r : State} {d : List Byte} {i : Nat} {s : State} (hs : Keeps r s) :
    Keeps r (steeredItem d i s) := by
  unfold steeredItem
  repeat' first
    | with_reducible assumption | with_reducible apply dropFrame_keeps | with_reducible apply fltCount_keeps
    | with_reducible apply offerFrame_keeps | with_reducible apply putFrame_keeps | with_reducible apply lateItem_keeps
    | with_reducible apply foldl_keeps | split | dsimp only | intro _ _ _ | intro _ _ | intro _
    | (with_reducible refine Keeps.mk_over ?_ rfl rfl rfl rfl rfl rfl)

theorem tieSteeredItem_keeps {r : State} {k : Nat} {d : List Byte} {bytes : List Byte} {s : State} (hs : Keeps r s) :
    Keeps r (tieSteeredItem k d bytes s) := by
  unfold tieSteeredItem
  repeat' first
    | with_reducible assumption | with_reducible apply takeBadFrame_keeps | with_reducible apply tieReceive_keeps
    | with_reducible apply count_keeps | with_reducible apply steeredItem_keeps | with_reducible apply frameBad_keeps | split
    | dsimp only | intro _ _ _ | intro _ _ | intro _ | (with_reducible refine Keeps.mk_over ?_ rfl rfl rfl rfl rfl rfl)

theorem execTieSteeredItem_keeps {r : State} {k : Nat} {desc : List Byte} {bytes : List Byte} {s : State} (hs : Keeps r s) :
    OutKeeps r (execTieSteeredItem k desc bytes s) := by
  unfold execTieSteeredItem
  repeat' first
    | with_reducible assumption | with_reducible apply guarded_keeps | with_reducible apply OutKeeps.next
    | exact OutKeeps.refused _ | exact OutKeeps.fault _ | with_reducible apply onTie_keeps
    | with_reducible apply tieSteeredItem_keeps | with_reducible apply foldl_keeps | split | dsimp only | intro _ _ _
    | intro _ _ | intro _ | (with_reducible refine Keeps.mk_over ?_ rfl rfl rfl rfl rfl rfl)

theorem tieFrame_keeps {r : State} {k : Nat} {d : List Byte} {bytes : List Byte} {s : State} (hs : Keeps r s) :
    Keeps r (tieFrame k d bytes s) := by
  unfold tieFrame
  repeat' first
    | with_reducible assumption | with_reducible apply takeBadFrame_keeps | with_reducible apply count_keeps
    | with_reducible apply tieReceive_keeps | with_reducible apply voqEnter_keeps | with_reducible apply modFrame_keeps
    | with_reducible apply storeLookup_keeps | with_reducible apply flowDecision_keeps | with_reducible apply forwardFrame_keeps
    | split | dsimp only | intro _ _ _ | intro _ _ | intro _ | (with_reducible refine Keeps.mk_over ?_ rfl rfl rfl rfl rfl rfl)

theorem execTieFrame_keeps {r : State} {k : Nat} {desc : List Byte} {bytes : List Byte} {s : State} (hs : Keeps r s) :
    OutKeeps r (execTieFrame k desc bytes s) := by
  unfold execTieFrame
  repeat' first
    | with_reducible assumption | with_reducible apply guarded_keeps | with_reducible apply OutKeeps.next
    | exact OutKeeps.refused _ | exact OutKeeps.fault _ | with_reducible apply onTie_keeps | with_reducible apply tieFrame_keeps
    | with_reducible apply foldl_keeps | split | dsimp only | intro _ _ _ | intro _ _ | intro _
    | (with_reducible refine Keeps.mk_over ?_ rfl rfl rfl rfl rfl rfl)

theorem receive_keeps {r : State} {k : Nat} {seq : Nat} {f : State → State} {s : State} (hf : ∀ x0, Keeps r x0 → Keeps r (f x0)) (hs : Keeps r s) :
    Keeps r (receive k seq f s) := by
  unfold receive
  repeat' first
    | with_reducible assumption | with_reducible apply hf | with_reducible apply takeBad_keeps
    | with_reducible apply count_keeps | with_reducible apply modTieLink_keeps | with_reducible apply foldl_keeps | split
    | dsimp only | intro _ _ _ | intro _ _ | intro _ | (refine Keeps.snd ?_ ‹_›)
    | (with_reducible refine Keeps.mk_over ?_ rfl rfl rfl rfl rfl rfl)

theorem onControl_keeps {r : State} {k : Nat} {seq : Nat} {ok : Bool} {f : State → State} {s : State} (hf : ∀ x0, Keeps r x0 → Keeps r (f x0)) (hs : Keeps r s) :
    OutKeeps r (onControl k seq ok f s) := by
  unfold onControl
  repeat' first
    | with_reducible assumption | with_reducible apply hf | with_reducible apply guarded_keeps
    | with_reducible apply OutKeeps.next | exact OutKeeps.refused _ | exact OutKeeps.fault _ | with_reducible apply onlyIf_keeps
    | with_reducible apply receive_keeps | with_reducible apply foldl_keeps | split | dsimp only | intro _ _ _ | intro _ _
    | intro _ | (with_reducible refine Keeps.mk_over ?_ rfl rfl rfl rfl rfl rfl)

theorem controlResend_keeps {r : State} {k : Nat} {s : State} (hs : Keeps r s) :
    Keeps r (controlResend k s) := by
  unfold controlResend
  repeat' first
    | with_reducible assumption | with_reducible apply emit_keeps | with_reducible apply count_keeps
    | with_reducible apply putTieLink_keeps | with_reducible apply dropLanes_keeps | with_reducible apply noteLinkLost_keeps
    | with_reducible apply raiseC_keeps | split | dsimp only | intro _ _ _ | intro _ _ | intro _
    | (with_reducible refine Keeps.mk_over ?_ rfl rfl rfl rfl rfl rfl)

theorem execControlResend_keeps {r : State} {k : Nat} {s : State} (hs : Keeps r s) :
    OutKeeps r (execControlResend k s) := by
  unfold execControlResend
  repeat' first
    | with_reducible assumption | with_reducible apply guarded_keeps | with_reducible apply OutKeeps.next
    | exact OutKeeps.refused _ | exact OutKeeps.fault _ | with_reducible apply onTie_keeps
    | with_reducible apply controlResend_keeps | with_reducible apply foldl_keeps | split | dsimp only | intro _ _ _ | intro _ _
    | intro _ | (with_reducible refine Keeps.mk_over ?_ rfl rfl rfl rfl rfl rfl)

theorem execStateSync_keeps {r : State} {k : Nat} {seq : Nat} {e : Nat} {epoch : Nat} {record : List Byte} {s : State} (hs : Keeps r s) :
    OutKeeps r (execStateSync k seq e epoch record s) := by
  unfold execStateSync
  repeat' first
    | with_reducible assumption | with_reducible apply guarded_keeps | with_reducible apply OutKeeps.next
    | exact OutKeeps.refused _ | exact OutKeeps.fault _ | with_reducible apply onControl_keeps
    | with_reducible apply stateSync_keeps | with_reducible apply foldl_keeps | split | dsimp only | intro _ _ _ | intro _ _
    | intro _ | (with_reducible refine Keeps.mk_over ?_ rfl rfl rfl rfl rfl rfl)

theorem ownerChange_keeps {r : State} {e : Nat} {owner : Nat} {epoch : Nat} {moving : Bool} {done : Bool} {s : State} (hs :
    Keeps r s) :
    Keeps r (ownerChange e owner epoch moving done s) := by
  unfold ownerChange
  repeat' first
    | with_reducible assumption | with_reducible apply applyOwner_keeps | with_reducible apply clearMoving_keeps
    | with_reducible apply modOwn_keeps | split | dsimp only | intro _ _ _ | intro _ _ | intro _
    | (with_reducible refine Keeps.mk_over ?_ rfl rfl rfl rfl rfl rfl)

theorem execOwnerChange_keeps {r : State} {k : Nat} {seq : Nat} {e : Nat} {owner : Nat} {epoch : Nat} {moving : Bool} {done : Bool} {s : State} (hs : Keeps r s) :
    OutKeeps r (execOwnerChange k seq e owner epoch moving done s) := by
  unfold execOwnerChange
  repeat' first
    | with_reducible assumption | with_reducible apply guarded_keeps | with_reducible apply OutKeeps.next
    | exact OutKeeps.refused _ | exact OutKeeps.fault _ | with_reducible apply onControl_keeps
    | with_reducible apply ownerChange_keeps | with_reducible apply foldl_keeps | split | dsimp only | intro _ _ _ | intro _ _
    | intro _ | (with_reducible refine Keeps.mk_over ?_ rfl rfl rfl rfl rfl rfl)

theorem execTransferDone_keeps {r : State} {k : Nat} {seq : Nat} {e : Nat} {s : State} (hs : Keeps r s) :
    OutKeeps r (execTransferDone k seq e s) := by
  unfold execTransferDone
  repeat' first
    | with_reducible assumption | with_reducible apply guarded_keeps | with_reducible apply OutKeeps.next
    | exact OutKeeps.refused _ | exact OutKeeps.fault _ | with_reducible apply onControl_keeps
    | with_reducible apply transferDone_keeps | with_reducible apply foldl_keeps | split | dsimp only | intro _ _ _ | intro _ _
    | intro _ | (with_reducible refine Keeps.mk_over ?_ rfl rfl rfl rfl rfl rfl)

theorem execOwnerMoveAbort_keeps {r : State} {k : Nat} {seq : Nat} {e : Nat} {owner : Nat} {epoch : Nat} {s : State} (hs : Keeps r s) :
    OutKeeps r (execOwnerMoveAbort k seq e owner epoch s) := by
  unfold execOwnerMoveAbort
  repeat' first
    | with_reducible assumption | with_reducible apply guarded_keeps | with_reducible apply OutKeeps.next
    | exact OutKeeps.refused _ | exact OutKeeps.fault _ | with_reducible apply onControl_keeps
    | with_reducible apply applyAbort_keeps | with_reducible apply foldl_keeps | split | dsimp only | intro _ _ _ | intro _ _
    | intro _ | (with_reducible refine Keeps.mk_over ?_ rfl rfl rfl rfl rfl rfl)

theorem execEventForward_keeps {r : State} {k : Nat} {seq : Nat} {record : List Byte} {s : State} (hs : Keeps r s) :
    OutKeeps r (execEventForward k seq record s) := by
  unfold execEventForward
  repeat' first
    | with_reducible assumption | with_reducible apply guarded_keeps | with_reducible apply OutKeeps.next
    | exact OutKeeps.refused _ | exact OutKeeps.fault _ | with_reducible apply onControl_keeps
    | with_reducible apply meshWrite_keeps | with_reducible apply foldl_keeps | split | dsimp only | intro _ _ _ | intro _ _
    | intro _ | (with_reducible refine Keeps.mk_over ?_ rfl rfl rfl rfl rfl rfl)

end Sys2Proof.Machine
end

