-- ==== Sys2Proof/Laws/SysVersionKeeps.lean ====
section
/-! SUPPORT. Every operation of Machine/SysVersion.lean keeps what `Keeps` speaks of. -/

-- The alternatives of each proof's `first` are the same list; not every alternative is used in every proof.
set_option linter.unreachableTactic false
set_option linter.unusedTactic false

namespace Sys2Proof.Machine

theorem clsRefuse_keeps {r : State} {code : Nat} {s : State} (hs : Keeps r s) :
    Keeps r (clsRefuse code s) := by
  unfold clsRefuse
  repeat' first
    | with_reducible assumption | with_reducible apply commitRefused_keeps | with_reducible apply putCommit_keeps
    | with_reducible apply foldl_keeps | split | dsimp only | intro _ _ _ | intro _ _ | intro _
    | (with_reducible refine Keeps.mk_over ?_ rfl rfl rfl rfl rfl rfl)

theorem clsTake_keeps {r : State} {n : Nat} {s : State} (hs : Keeps r s) :
    Keeps r (clsTake n s) := by
  unfold clsTake
  repeat' first
    | with_reducible assumption | with_reducible apply takeVersion_keeps | with_reducible apply putCommit_keeps
    | with_reducible apply foldl_keeps | split | dsimp only | intro _ _ _ | intro _ _ | intro _
    | (with_reducible refine Keeps.mk_over ?_ rfl rfl rfl rfl rfl rfl)

theorem modSys_keeps {r : State} {f : SysVersion → SysVersion} {s : State} (hs : Keeps r s) :
    Keeps r (modSys f s) := by
  unfold modSys
  repeat' first
    | with_reducible assumption | with_reducible apply foldl_keeps | split | dsimp only | intro _ _ _ | intro _ _ | intro _
    | (with_reducible refine Keeps.mk_over ?_ rfl rfl rfl rfl rfl rfl)

theorem versionMsg_keeps {r : State} {k : Nat} {sub : Nat} {body : List Byte} {s : State} (hs : Keeps r s) :
    Keeps r (versionMsg k sub body s) := by
  unfold versionMsg
  repeat' first
    | with_reducible assumption | with_reducible apply sendControl_keeps | with_reducible apply foldl_keeps | split | dsimp only
    | intro _ _ _ | intro _ _ | intro _ | (with_reducible refine Keeps.mk_over ?_ rfl rfl rfl rfl rfl rfl)

theorem versionAll_keeps {r : State} {sub : Nat} {body : List Byte} {s : State} (hs : Keeps r s) :
    Keeps r (versionAll sub body s) := by
  unfold versionAll
  repeat' first
    | with_reducible assumption | with_reducible apply foldOver_keeps | with_reducible apply versionMsg_keeps
    | with_reducible apply foldl_keeps | split | dsimp only | intro _ _ _ | intro _ _ | intro _
    | (with_reducible refine Keeps.mk_over ?_ rfl rfl rfl rfl rfl rfl)

theorem prepare_keeps {r : State} {n : Nat} {s : State} (hs : Keeps r s) :
    Keeps r (prepare n s) := by
  unfold prepare
  repeat' first
    | with_reducible assumption | with_reducible apply modSys_keeps | with_reducible apply foldl_keeps | split | dsimp only
    | intro _ _ _ | intro _ _ | intro _ | (with_reducible refine Keeps.mk_over ?_ rfl rfl rfl rfl rfl rfl)

theorem unprepare_keeps {r : State} {s : State} (hs : Keeps r s) :
    Keeps r (unprepare s) := by
  unfold unprepare
  repeat' first
    | with_reducible assumption | with_reducible apply modSys_keeps | with_reducible apply wr_keeps
    | with_reducible apply foldl_keeps | split | dsimp only | intro _ _ _ | intro _ _ | intro _
    | (with_reducible refine Keeps.mk_over ?_ rfl rfl rfl rfl rfl rfl)

theorem dropSystem_keeps {r : State} {s : State} (hs : Keeps r s) :
    Keeps r (dropSystem s) := by
  unfold dropSystem
  repeat' first
    | with_reducible assumption | with_reducible apply unprepare_keeps | with_reducible apply versionAll_keeps | split
    | dsimp only | intro _ _ _ | intro _ _ | intro _ | (with_reducible refine Keeps.mk_over ?_ rfl rfl rfl rfl rfl rfl)

theorem armSystem_keeps {r : State} {t : Nat × Nat} {s : State} (hs : Keeps r s) :
    Keeps r (armSystem t s) := by
  unfold armSystem
  repeat' first
    | with_reducible assumption | with_reducible apply modSys_keeps | with_reducible apply wr_keeps
    | with_reducible apply foldl_keeps | split | dsimp only | intro _ _ _ | intro _ _ | intro _
    | (with_reducible refine Keeps.mk_over ?_ rfl rfl rfl rfl rfl rfl)

theorem tellCommit_keeps {r : State} {n : Nat} {s : State} (hs : Keeps r s) :
    Keeps r (tellCommit n s) := by
  unfold tellCommit
  repeat' first
    | with_reducible assumption | with_reducible apply versionAll_keeps | split | dsimp only | intro _ _ _ | intro _ _ | intro _
    | (with_reducible refine Keeps.mk_over ?_ rfl rfl rfl rfl rfl rfl)

theorem sysCommit_keeps {r : State} {n : Nat} {s : State} (hs : Keeps r s) :
    Keeps r (sysCommit n s) := by
  unfold sysCommit
  repeat' first
    | with_reducible assumption | with_reducible apply armSystem_keeps | with_reducible apply tellCommit_keeps | split
    | dsimp only | intro _ _ _ | intro _ _ | intro _ | (with_reducible refine Keeps.mk_over ?_ rfl rfl rfl rfl rfl rfl)

theorem sysPrepare_keeps {r : State} {stated : Option (Nat × Nat)} {s : State} (hs : Keeps r s) :
    Keeps r (sysPrepare stated s) := by
  unfold sysPrepare
  repeat' first
    | with_reducible assumption | with_reducible apply modSys_keeps | with_reducible apply wr_keeps
    | with_reducible apply prepare_keeps | with_reducible apply sysCommit_keeps | with_reducible apply versionAll_keeps
    | with_reducible apply foldl_keeps | split | dsimp only | intro _ _ _ | intro _ _ | intro _
    | (with_reducible refine Keeps.mk_over ?_ rfl rfl rfl rfl rfl rfl)

theorem sysRefused_keeps {r : State} {d : Nat} {code : Nat} {s : State} (hs : Keeps r s) :
    Keeps r (sysRefused d code s) := by
  unfold sysRefused
  repeat' first
    | with_reducible assumption | with_reducible apply unprepare_keeps | with_reducible apply versionAll_keeps
    | with_reducible apply wr_keeps | with_reducible apply raise_keeps | with_reducible apply clsRefuse_keeps
    | with_reducible apply foldl_keeps | split | dsimp only | intro _ _ _ | intro _ _ | intro _
    | (with_reducible refine Keeps.mk_over ?_ rfl rfl rfl rfl rfl rfl)

theorem clsCommitStart_keeps {r : State} {armed : Option (Nat × Nat)} {late : Bool} {s : State} (hs : Keeps r s) :
    Keeps r (clsCommitStart armed late s) := by
  unfold clsCommitStart
  repeat' first
    | with_reducible assumption | with_reducible apply putCommit_keeps | with_reducible apply foldl_keeps | split | dsimp only
    | intro _ _ _ | intro _ _ | intro _ | (with_reducible refine Keeps.mk_over ?_ rfl rfl rfl rfl rfl rfl)

theorem clsCheckDone_keeps {r : State} {s : State} (hs : Keeps r s) :
    Keeps r (clsCheckDone s) := by
  unfold clsCheckDone
  repeat' first
    | with_reducible assumption | with_reducible apply clsRefuse_keeps | with_reducible apply sysPrepare_keeps
    | with_reducible apply clsTake_keeps | with_reducible apply foldl_keeps | split | dsimp only | intro _ _ _ | intro _ _
    | intro _ | (with_reducible refine Keeps.mk_over ?_ rfl rfl rfl rfl rfl rfl)

theorem execClsCheckDone_keeps {r : State} {s : State} (hs : Keeps r s) :
    OutKeeps r (execClsCheckDone s) := by
  unfold execClsCheckDone
  repeat' first
    | with_reducible assumption | with_reducible apply guarded_keeps | with_reducible apply OutKeeps.next
    | exact OutKeeps.refused _ | exact OutKeeps.fault _ | with_reducible apply clsCheckDone_keeps
    | with_reducible apply foldl_keeps | split | dsimp only | intro _ _ _ | intro _ _ | intro _
    | (with_reducible refine Keeps.mk_over ?_ rfl rfl rfl rfl rfl rfl)

theorem clsFire_keeps {r : State} {s : State} (hs : Keeps r s) :
    Keeps r (clsFire s) := by
  unfold clsFire
  repeat' first
    | with_reducible assumption | with_reducible apply raise_keeps | with_reducible apply clsTake_keeps
    | with_reducible apply unprepare_keeps | with_reducible apply foldl_keeps | split | dsimp only | intro _ _ _ | intro _ _
    | intro _ | (with_reducible refine Keeps.mk_over ?_ rfl rfl rfl rfl rfl rfl)

theorem versionPrepare_keeps {r : State} {k : Nat} {n : Nat} {s : State} (hs : Keeps r s) :
    Keeps r (versionPrepare k n s) := by
  unfold versionPrepare
  repeat' first
    | with_reducible assumption | with_reducible apply versionMsg_keeps | with_reducible apply wr_keeps
    | with_reducible apply prepare_keeps | with_reducible apply foldl_keeps | split | dsimp only | intro _ _ _ | intro _ _
    | intro _ | (with_reducible refine Keeps.mk_over ?_ rfl rfl rfl rfl rfl rfl)

theorem execVersionPrepare_keeps {r : State} {k : Nat} {seq : Nat} {n : Nat} {s : State} (hs : Keeps r s) :
    OutKeeps r (execVersionPrepare k seq n s) := by
  unfold execVersionPrepare
  repeat' first
    | with_reducible assumption | with_reducible apply guarded_keeps | with_reducible apply OutKeeps.next
    | exact OutKeeps.refused _ | exact OutKeeps.fault _ | with_reducible apply onControl_keeps
    | with_reducible apply versionPrepare_keeps | with_reducible apply foldl_keeps | split | dsimp only | intro _ _ _
    | intro _ _ | intro _ | (with_reducible refine Keeps.mk_over ?_ rfl rfl rfl rfl rfl rfl)

theorem versionReady_keeps {r : State} {k : Nat} {n : Nat} {s : State} (hs : Keeps r s) :
    Keeps r (versionReady k n s) := by
  unfold versionReady
  repeat' first
    | with_reducible assumption | with_reducible apply modSys_keeps | with_reducible apply sysCommit_keeps
    | with_reducible apply foldl_keeps | split | dsimp only | intro _ _ _ | intro _ _ | intro _
    | (with_reducible refine Keeps.mk_over ?_ rfl rfl rfl rfl rfl rfl)

theorem execVersionReady_keeps {r : State} {k : Nat} {seq : Nat} {n : Nat} {s : State} (hs : Keeps r s) :
    OutKeeps r (execVersionReady k seq n s) := by
  unfold execVersionReady
  repeat' first
    | with_reducible assumption | with_reducible apply guarded_keeps | with_reducible apply OutKeeps.next
    | exact OutKeeps.refused _ | exact OutKeeps.fault _ | with_reducible apply onControl_keeps
    | with_reducible apply versionReady_keeps | with_reducible apply foldl_keeps | split | dsimp only | intro _ _ _ | intro _ _
    | intro _ | (with_reducible refine Keeps.mk_over ?_ rfl rfl rfl rfl rfl rfl)

theorem execVersionRefuse_keeps {r : State} {k : Nat} {seq : Nat} {code : Nat} {s : State} (hs : Keeps r s) :
    OutKeeps r (execVersionRefuse k seq code s) := by
  unfold execVersionRefuse
  repeat' first
    | with_reducible assumption | with_reducible apply guarded_keeps | with_reducible apply OutKeeps.next
    | exact OutKeeps.refused _ | exact OutKeeps.fault _ | with_reducible apply onControl_keeps
    | with_reducible apply sysRefused_keeps | with_reducible apply foldl_keeps | split | dsimp only | intro _ _ _ | intro _ _
    | intro _ | (with_reducible refine Keeps.mk_over ?_ rfl rfl rfl rfl rfl rfl)

theorem versionPrepareTimeout_keeps {r : State} {s : State} (hs : Keeps r s) :
    Keeps r (versionPrepareTimeout s) := by
  unfold versionPrepareTimeout
  repeat' first
    | with_reducible assumption | with_reducible apply takeFree_keeps | with_reducible apply sysRefused_keeps
    | with_reducible apply foldl_keeps | split | dsimp only | intro _ _ _ | intro _ _ | intro _ | (refine Keeps.snd ?_ ‹_›)
    | (with_reducible refine Keeps.mk_over ?_ rfl rfl rfl rfl rfl rfl)

theorem execVersionPrepareTimeout_keeps {r : State} {s : State} (hs : Keeps r s) :
    OutKeeps r (execVersionPrepareTimeout s) := by
  unfold execVersionPrepareTimeout
  repeat' first
    | with_reducible assumption | with_reducible apply guarded_keeps | with_reducible apply OutKeeps.next
    | exact OutKeeps.refused _ | exact OutKeeps.fault _ | with_reducible apply versionPrepareTimeout_keeps
    | with_reducible apply foldl_keeps | split | dsimp only | intro _ _ _ | intro _ _ | intro _
    | (with_reducible refine Keeps.mk_over ?_ rfl rfl rfl rfl rfl rfl)

theorem execVersionCommit_keeps {r : State} {k : Nat} {seq : Nat} {n : Nat} {sec : Nat} {ns : Nat} {s : State} (hs : Keeps r s) :
    OutKeeps r (execVersionCommit k seq n sec ns s) := by
  unfold execVersionCommit
  repeat' first
    | with_reducible assumption | with_reducible apply guarded_keeps | with_reducible apply OutKeeps.next
    | exact OutKeeps.refused _ | exact OutKeeps.fault _ | with_reducible apply onControl_keeps
    | with_reducible apply armSystem_keeps | with_reducible apply foldl_keeps | split | dsimp only | intro _ _ _ | intro _ _
    | intro _ | (with_reducible refine Keeps.mk_over ?_ rfl rfl rfl rfl rfl rfl)

theorem execVersionAbort_keeps {r : State} {k : Nat} {seq : Nat} {s : State} (hs : Keeps r s) :
    OutKeeps r (execVersionAbort k seq s) := by
  unfold execVersionAbort
  repeat' first
    | with_reducible assumption | with_reducible apply guarded_keeps | with_reducible apply OutKeeps.next
    | exact OutKeeps.refused _ | exact OutKeeps.fault _ | with_reducible apply onControl_keeps
    | with_reducible apply unprepare_keeps | with_reducible apply foldl_keeps | split | dsimp only | intro _ _ _ | intro _ _
    | intro _ | (with_reducible refine Keeps.mk_over ?_ rfl rfl rfl rfl rfl rfl)

theorem endRound_keeps {r : State} {s : State} (hs : Keeps r s) :
    Keeps r (endRound s) := by
  unfold endRound
  repeat' first
    | with_reducible assumption | with_reducible apply modSys_keeps | with_reducible apply foldl_keeps | split | dsimp only
    | intro _ _ _ | intro _ _ | intro _ | (with_reducible refine Keeps.mk_over ?_ rfl rfl rfl rfl rfl rfl)

theorem freeAll_keeps {r : State} {s : State} (hs : Keeps r s) :
    Keeps r (freeAll s) := by
  unfold freeAll
  repeat' first
    | with_reducible assumption | with_reducible apply wr_keeps | with_reducible apply endRound_keeps
    | with_reducible apply versionAll_keeps | with_reducible apply freeVersion_keeps | with_reducible apply foldl_keeps | split
    | dsimp only | intro _ _ _ | intro _ _ | intro _ | (with_reducible refine Keeps.mk_over ?_ rfl rfl rfl rfl rfl rfl)

theorem confirmFrom_keeps {r : State} {d : Nat} {s : State} (hs : Keeps r s) :
    Keeps r (confirmFrom d s) := by
  unfold confirmFrom
  repeat' first
    | with_reducible assumption | with_reducible apply freeAll_keeps | with_reducible apply modSys_keeps
    | with_reducible apply foldl_keeps | split | dsimp only | intro _ _ _ | intro _ _ | intro _
    | (with_reducible refine Keeps.mk_over ?_ rfl rfl rfl rfl rfl rfl)

theorem markersIn_keeps {r : State} {s : State} (hs : Keeps r s) :
    Keeps r (markersIn s) := by
  unfold markersIn
  repeat' first
    | with_reducible assumption | with_reducible apply confirmFrom_keeps | with_reducible apply modSys_keeps
    | with_reducible apply versionMsg_keeps | with_reducible apply endRound_keeps | with_reducible apply foldl_keeps | split
    | dsimp only | intro _ _ _ | intro _ _ | intro _ | (with_reducible refine Keeps.mk_over ?_ rfl rfl rfl rfl rfl rfl)

theorem freeRequested_keeps {r : State} {s : State} (hs : Keeps r s) :
    Keeps r (freeRequested s) := by
  unfold freeRequested
  repeat' first
    | with_reducible assumption | with_reducible apply modSys_keeps | split | dsimp only | intro _ _ _ | intro _ _ | intro _
    | (with_reducible refine Keeps.mk_over ?_ rfl rfl rfl rfl rfl rfl)

theorem sendMarkers_keeps {r : State} {s : State} (hs : Keeps r s) :
    Keeps r (sendMarkers s) := by
  unfold sendMarkers
  repeat' first
    | with_reducible assumption | with_reducible apply markersIn_keeps | with_reducible apply versionAll_keeps
    | with_reducible apply modSys_keeps | with_reducible apply foldl_keeps | split | dsimp only | intro _ _ _ | intro _ _
    | intro _ | (with_reducible refine Keeps.mk_over ?_ rfl rfl rfl rfl rfl rfl)

theorem freeRound_keeps {r : State} {s : State} (hs : Keeps r s) :
    Keeps r (freeRound s) := by
  unfold freeRound
  repeat' first
    | with_reducible assumption | with_reducible apply foldOver_keeps | with_reducible apply modTieLink_keeps
    | with_reducible apply modSys_keeps | with_reducible apply wr_keeps | with_reducible apply sendMarkers_keeps
    | with_reducible apply versionAll_keeps | with_reducible apply foldl_keeps | split | dsimp only | intro _ _ _ | intro _ _
    | intro _ | (with_reducible refine Keeps.mk_over ?_ rfl rfl rfl rfl rfl rfl)

theorem execVersionFreeRequest_keeps {r : State} {k : Nat} {seq : Nat} {s : State} (hs : Keeps r s) :
    OutKeeps r (execVersionFreeRequest k seq s) := by
  unfold execVersionFreeRequest
  repeat' first
    | with_reducible assumption | with_reducible apply guarded_keeps | with_reducible apply OutKeeps.next
    | exact OutKeeps.refused _ | exact OutKeeps.fault _ | with_reducible apply onControl_keeps
    | with_reducible apply sendMarkers_keeps | with_reducible apply freeRequested_keeps | split | dsimp only | intro _ _ _
    | intro _ _ | intro _ | (with_reducible refine Keeps.mk_over ?_ rfl rfl rfl rfl rfl rfl)

theorem execVersionMarker_keeps {r : State} {k : Nat} {seq : Nat} {s : State} (hs : Keeps r s) :
    OutKeeps r (execVersionMarker k seq s) := by
  unfold execVersionMarker
  repeat' first
    | with_reducible assumption | with_reducible apply guarded_keeps | with_reducible apply OutKeeps.next
    | exact OutKeeps.refused _ | exact OutKeeps.fault _ | with_reducible apply onControl_keeps
    | with_reducible apply markersIn_keeps | with_reducible apply modSys_keeps | with_reducible apply foldl_keeps | split
    | dsimp only | intro _ _ _ | intro _ _ | intro _ | (with_reducible refine Keeps.mk_over ?_ rfl rfl rfl rfl rfl rfl)

theorem execVersionConfirm_keeps {r : State} {k : Nat} {seq : Nat} {s : State} (hs : Keeps r s) :
    OutKeeps r (execVersionConfirm k seq s) := by
  unfold execVersionConfirm
  repeat' first
    | with_reducible assumption | with_reducible apply guarded_keeps | with_reducible apply OutKeeps.next
    | exact OutKeeps.refused _ | exact OutKeeps.fault _ | with_reducible apply onControl_keeps
    | with_reducible apply confirmFrom_keeps | with_reducible apply foldl_keeps | split | dsimp only | intro _ _ _ | intro _ _
    | intro _ | (with_reducible refine Keeps.mk_over ?_ rfl rfl rfl rfl rfl rfl)

theorem execVersionFree_keeps {r : State} {k : Nat} {seq : Nat} {s : State} (hs : Keeps r s) :
    OutKeeps r (execVersionFree k seq s) := by
  unfold execVersionFree
  repeat' first
    | with_reducible assumption | with_reducible apply guarded_keeps | with_reducible apply OutKeeps.next
    | exact OutKeeps.refused _ | exact OutKeeps.fault _ | with_reducible apply onControl_keeps
    | with_reducible apply freeVersion_keeps | with_reducible apply endRound_keeps | with_reducible apply foldl_keeps | split
    | dsimp only | intro _ _ _ | intro _ _ | intro _ | (with_reducible refine Keeps.mk_over ?_ rfl rfl rfl rfl rfl rfl)

theorem restamp_keeps {r : State} {a : Nat} {b : Nat} {s : State} (hs : Keeps r s) :
    Keeps r (restamp a b s) := by
  unfold restamp
  repeat' first
    | with_reducible assumption | with_reducible apply foldl_keeps | split | dsimp only | intro _ _ _ | intro _ _ | intro _
    | (with_reducible refine Keeps.mk_over ?_ rfl rfl rfl rfl rfl rfl)

theorem copyAs_keeps {r : State} {v : Nat} {s : State} (hs : Keeps r s) :
    Keeps r (copyAs v s) := by
  unfold copyAs
  repeat' first
    | with_reducible assumption | with_reducible apply restamp_keeps | with_reducible apply putHalf_keeps
    | with_reducible apply modSys_keeps | with_reducible apply freeIfDrained_keeps | with_reducible apply raise_keeps
    | with_reducible apply wr_keeps | with_reducible apply foldl_keeps | split | dsimp only | intro _ _ _ | intro _ _ | intro _
    | (with_reducible refine Keeps.mk_over ?_ rfl rfl rfl rfl rfl rfl)

theorem renumber_keeps {r : State} {v : Nat} {s : State} (hs : Keeps r s) :
    Keeps r (renumber v s) := by
  unfold renumber
  repeat' first
    | with_reducible assumption | with_reducible apply restamp_keeps | with_reducible apply wr_keeps
    | with_reducible apply copyAs_keeps | with_reducible apply foldl_keeps | split | dsimp only | intro _ _ _ | intro _ _
    | intro _ | (with_reducible refine Keeps.mk_over ?_ rfl rfl rfl rfl rfl rfl)

theorem joinCommit_keeps {r : State} {v : Nat} {s : State} (hs : Keeps r s) :
    Keeps r (joinCommit v s) := by
  unfold joinCommit
  repeat' first
    | with_reducible assumption | with_reducible apply clsTake_keeps | with_reducible apply modSys_keeps
    | with_reducible apply foldl_keeps | split | dsimp only | intro _ _ _ | intro _ _ | intro _
    | (with_reducible refine Keeps.mk_over ?_ rfl rfl rfl rfl rfl rfl)

theorem meshJoin_keeps {r : State} {k : Nat} {v : Nat} {s : State} (hs : Keeps r s) :
    Keeps r (meshJoin k v s) := by
  unfold meshJoin
  repeat' first
    | with_reducible assumption | with_reducible apply wr_keeps | with_reducible apply joinCommit_keeps
    | with_reducible apply renumber_keeps | split | dsimp only | intro _ _ _ | intro _ _ | intro _
    | (with_reducible refine Keeps.mk_over ?_ rfl rfl rfl rfl rfl rfl)

theorem execJoinWaitTimeout_keeps {r : State} {s : State} (hs : Keeps r s) :
    OutKeeps r (execJoinWaitTimeout s) := by
  unfold execJoinWaitTimeout
  repeat' first
    | with_reducible assumption | with_reducible apply guarded_keeps | with_reducible apply OutKeeps.next
    | exact OutKeeps.refused _ | exact OutKeeps.fault _ | with_reducible apply onlyIf_keeps
    | with_reducible apply joinCommit_keeps | with_reducible apply foldl_keeps | split | dsimp only | intro _ _ _ | intro _ _
    | intro _ | (with_reducible refine Keeps.mk_over ?_ rfl rfl rfl rfl rfl rfl)

theorem sendHeartbeat_keeps {r : State} {seen : Bool} {k : Nat} {s : State} (hs : Keeps r s) :
    Keeps r (sendHeartbeat seen k s) := by
  unfold sendHeartbeat
  repeat' first
    | with_reducible assumption | with_reducible apply sendMsg_keeps | with_reducible apply foldl_keeps | split | dsimp only
    | intro _ _ _ | intro _ _ | intro _ | (with_reducible refine Keeps.mk_over ?_ rfl rfl rfl rfl rfl rfl)

theorem sendHeartbeats_keeps {r : State} {seen : Bool} {s : State} (hs : Keeps r s) :
    Keeps r (sendHeartbeats seen s) := by
  unfold sendHeartbeats
  repeat' first
    | with_reducible assumption | with_reducible apply foldOver_keeps | with_reducible apply sendHeartbeat_keeps
    | with_reducible apply foldl_keeps | split | dsimp only | intro _ _ _ | intro _ _ | intro _
    | (with_reducible refine Keeps.mk_over ?_ rfl rfl rfl rfl rfl rfl)

theorem linkTick_keeps {r : State} {k : Nat} {s : State} (hs : Keeps r s) :
    Keeps r (linkTick k s).2 := by
  unfold linkTick
  try dsimp only
  repeat' first
    | split | with_reducible assumption | with_reducible apply wrC_keeps | with_reducible apply putTieLink_keeps
    | with_reducible apply count_keeps | with_reducible apply raiseC_keeps | with_reducible apply modTieLink_keeps
    | with_reducible apply foldl_keeps | dsimp only | intro _ _ _ | intro _ _ | intro _
    | (with_reducible refine Keeps.mk_over ?_ rfl rfl rfl rfl rfl rfl)

theorem takeOver_keeps {r : State} {old : Nat} {s : State} (hs : Keeps r s) :
    Keeps r (takeOver old s) := by
  unfold takeOver
  repeat' first
    | with_reducible assumption | with_reducible apply wr_keeps | with_reducible apply markAbsent_keeps
    | with_reducible apply sendHeartbeats_keeps | with_reducible apply raise_keeps | with_reducible apply sysCommit_keeps
    | with_reducible apply unprepare_keeps | with_reducible apply versionAll_keeps | with_reducible apply tellCommit_keeps
    | split | dsimp only | intro _ _ _ | intro _ _ | intro _ | (with_reducible refine Keeps.mk_over ?_ rfl rfl rfl rfl rfl rfl)

theorem managerTick_keeps {r : State} {fresh : Bool} {s : State} (hs : Keeps r s) :
    Keeps r (managerTick fresh s) := by
  unfold managerTick
  repeat' first
    | with_reducible assumption | with_reducible apply takeOver_keeps | with_reducible apply raise_keeps
    | with_reducible apply refreshJoined_keeps | with_reducible apply wr_keeps | with_reducible apply foldl_keeps | split
    | dsimp only | intro _ _ _ | intro _ _ | intro _ | (with_reducible refine Keeps.mk_over ?_ rfl rfl rfl rfl rfl rfl)

theorem forwardEvent_keeps {r : State} {s : State} (hs : Keeps r s) :
    Keeps r (forwardEvent s) := by
  unfold forwardEvent
  repeat' first
    | with_reducible assumption | with_reducible apply sendControl_keeps | with_reducible apply foldl_keeps | split | dsimp only
    | intro _ _ _ | intro _ _ | intro _ | (with_reducible refine Keeps.mk_over ?_ rfl rfl rfl rfl rfl rfl)

theorem absentTick_keeps {r : State} {s : State} (hs : Keeps r s) :
    Keeps r (absentTick s) := by
  unfold absentTick
  repeat' first
    | with_reducible assumption | with_reducible apply foldOver_keeps | with_reducible apply markAbsent_keeps | split
    | dsimp only | intro _ _ _ | intro _ _ | intro _ | (with_reducible refine Keeps.mk_over ?_ rfl rfl rfl rfl rfl rfl)

theorem heartbeatTick_keeps {r : State} {s : State} (hs : Keeps r s) :
    Keeps r (heartbeatTick s) := by
  have h : ∀ ls : List Nat, ∀ a : List Nat × State, Keeps r a.2 → Keeps r (ls.foldl (fun (a : List Nat × State) k =>
      let x := linkTick k a.2
      (if x.1 then a.1 ++ [k] else a.1, x.2)) a).2 :=
    fun ls a ha => foldl_snd_keeps (fun _ _ hx => linkTick_keeps hx) ha
  unfold heartbeatTick
  exact forwardEvent_keeps (freeRound_keeps (serveMoves_keeps (sendHeartbeats_keeps (managerTick_keeps (absentTick_keeps
    (h tieLinks ([], s) hs))))))

theorem execHeartbeatTick_keeps {r : State} {s : State} (hs : Keeps r s) :
    OutKeeps r (execHeartbeatTick s) := by
  unfold execHeartbeatTick
  repeat' first
    | with_reducible assumption | with_reducible apply guarded_keeps | with_reducible apply OutKeeps.next
    | exact OutKeeps.refused _ | exact OutKeeps.fault _ | with_reducible apply onlyIf_keeps
    | with_reducible apply heartbeatTick_keeps | with_reducible apply foldl_keeps | split | dsimp only | intro _ _ _ | intro _ _
    | intro _ | (with_reducible refine Keeps.mk_over ?_ rfl rfl rfl rfl rfl rfl)

theorem ackLink_keeps {r : State} {k : Nat} {ack : Nat} {s : State} (hs : Keeps r s) :
    Keeps r (ackLink k ack s) := by
  unfold ackLink
  repeat' first
    | with_reducible assumption | with_reducible apply putTieLink_keeps | split | dsimp only | intro _ _ _ | intro _ _ | intro _
    | (with_reducible refine Keeps.mk_over ?_ rfl rfl rfl rfl rfl rfl)

theorem fromManager_keeps {r : State} {k : Nat} {hb : Heartbeat} {s : State} (hs : Keeps r s) :
    Keeps r (fromManager k hb s) := by
  unfold fromManager
  repeat' first
    | with_reducible assumption | with_reducible apply wr_keeps | with_reducible apply meshJoin_keeps
    | with_reducible apply foldl_keeps | split | dsimp only | intro _ _ _ | intro _ _ | intro _
    | (with_reducible refine Keeps.mk_over ?_ rfl rfl rfl rfl rfl rfl)

theorem takeIn_keeps {r : State} {k : Nat} {s : State} (hs : Keeps r s) :
    Keeps r (takeIn k s) := by
  unfold takeIn
  repeat' first
    | with_reducible assumption | with_reducible apply wr_keeps | with_reducible apply foldOver_keeps
    | with_reducible apply sendControl_keeps | split | dsimp only | intro _ _ _ | intro _ _ | intro _
    | (with_reducible refine Keeps.mk_over ?_ rfl rfl rfl rfl rfl rfl)

theorem heartbeatReceived_keeps {r : State} {k : Nat} {hb : Heartbeat} {s : State} (hs : Keeps r s) :
    Keeps r (heartbeatReceived k hb s) := by
  unfold heartbeatReceived
  repeat' first
    | with_reducible assumption | with_reducible apply takeBad_keeps | with_reducible apply count_keeps
    | with_reducible apply ackLink_keeps | with_reducible apply wrC_keeps | with_reducible apply modTieLink_keeps
    | with_reducible apply hearEpoch_keeps | with_reducible apply abortLost_keeps | with_reducible apply takeIn_keeps
    | with_reducible apply fromManager_keeps | with_reducible apply followManager_keeps | split | dsimp only | intro _ _ _
    | intro _ _ | intro _ | (with_reducible refine Keeps.mk_over ?_ rfl rfl rfl rfl rfl rfl)

theorem execHeartbeatReceived_keeps {r : State} {k : Nat} {hb : Heartbeat} {s : State} (hs : Keeps r s) :
    OutKeeps r (execHeartbeatReceived k hb s) := by
  unfold execHeartbeatReceived
  repeat' first
    | with_reducible assumption | with_reducible apply guarded_keeps | with_reducible apply OutKeeps.next
    | exact OutKeeps.refused _ | exact OutKeeps.fault _ | with_reducible apply onTie_keeps
    | with_reducible apply heartbeatReceived_keeps | with_reducible apply foldl_keeps | split | dsimp only | intro _ _ _
    | intro _ _ | intro _ | (with_reducible refine Keeps.mk_over ?_ rfl rfl rfl rfl rfl rfl)

theorem timeTransferStart_keeps {r : State} {sub : Nat} {s : State} (hs : Keeps r s) :
    Keeps r (timeTransferStart sub s) := by
  unfold timeTransferStart
  repeat' first
    | with_reducible assumption | with_reducible apply foldOver_keeps | with_reducible apply sendMsg_keeps
    | with_reducible apply modTieLink_keeps | split | dsimp only | intro _ _ _ | intro _ _ | intro _
    | (with_reducible refine Keeps.mk_over ?_ rfl rfl rfl rfl rfl rfl)

theorem execTimeTransferStart_keeps {r : State} {sub : Nat} {s : State} (hs : Keeps r s) :
    OutKeeps r (execTimeTransferStart sub s) := by
  unfold execTimeTransferStart
  repeat' first
    | with_reducible assumption | with_reducible apply guarded_keeps | with_reducible apply OutKeeps.next
    | exact OutKeeps.refused _ | exact OutKeeps.fault _ | with_reducible apply timeTransferStart_keeps
    | with_reducible apply foldl_keeps | split | dsimp only | intro _ _ _ | intro _ _ | intro _
    | (with_reducible refine Keeps.mk_over ?_ rfl rfl rfl rfl rfl rfl)

theorem meshSample_keeps {r : State} {k : Nat} {x : Int} {stale : Bool} {s : State} (hs : Keeps r s) :
    Keeps r (meshSample k x stale s) := by
  unfold meshSample
  repeat' first
    | with_reducible assumption | with_reducible apply raise_keeps | with_reducible apply servoSample_keeps
    | with_reducible apply foldl_keeps | split | dsimp only | intro _ _ _ | intro _ _ | intro _
    | (with_reducible refine Keeps.mk_over ?_ rfl rfl rfl rfl rfl rfl)

theorem timeTransfer_keeps {r : State} {k : Nat} {sub : Nat} {m : TimeMsg} {s0 : State} (hs : Keeps r s0) :
    Keeps r (timeTransfer k sub m s0) := by
  unfold timeTransfer
  repeat' first
    | with_reducible assumption | with_reducible apply takeBad_keeps | with_reducible apply count_keeps
    | with_reducible apply sendMsg_keeps | with_reducible apply wrC_keeps | with_reducible apply modTieLink_keeps
    | with_reducible apply meshSample_keeps | split | dsimp only | intro _ _ _ | intro _ _ | intro _
    | (with_reducible refine Keeps.mk_over ?_ rfl rfl rfl rfl rfl rfl)

theorem execTimeTransfer_keeps {r : State} {k : Nat} {sub : Nat} {msg : TimeMsg} {s : State} (hs : Keeps r s) :
    OutKeeps r (execTimeTransfer k sub msg s) := by
  unfold execTimeTransfer
  repeat' first
    | with_reducible assumption | with_reducible apply guarded_keeps | with_reducible apply OutKeeps.next
    | exact OutKeeps.refused _ | exact OutKeeps.fault _ | with_reducible apply onTie_keeps
    | with_reducible apply timeTransfer_keeps | with_reducible apply foldl_keeps | split | dsimp only | intro _ _ _ | intro _ _
    | intro _ | (with_reducible refine Keeps.mk_over ?_ rfl rfl rfl rfl rfl rfl)

theorem tieStarting_keeps {r : State} {s : State} (hs : Keeps r s) :
    Keeps r (tieStarting s) := by
  unfold tieStarting
  repeat' first
    | with_reducible assumption | with_reducible apply foldl_keeps | split | dsimp only | intro _ _ _ | intro _ _ | intro _
    | (with_reducible refine Keeps.mk_over ?_ rfl rfl rfl rfl rfl rfl)

theorem tieOn_keeps {r : State} {s : State} (hs : Keeps r s) :
    Keeps r (tieOn s) := by
  unfold tieOn
  repeat' first
    | with_reducible assumption | with_reducible apply wr_keeps | with_reducible apply foldl_keeps | split | dsimp only
    | intro _ _ _ | intro _ _ | intro _ | (with_reducible refine Keeps.mk_over ?_ rfl rfl rfl rfl rfl rfl)

theorem tieChanStarting_keeps {r : State} {k : Nat} {s : State} (hs : Keeps r s) :
    Keeps r (tieChanStarting k s) := by
  unfold tieChanStarting
  repeat' first
    | with_reducible assumption | with_reducible apply startLanes_keeps | with_reducible apply wrC_keeps
    | with_reducible apply putTieLink_keeps | split | dsimp only | intro _ _ _ | intro _ _ | intro _
    | (with_reducible refine Keeps.mk_over ?_ rfl rfl rfl rfl rfl rfl)

theorem tieDraining_keeps {r : State} {k : Nat} {s : State} (hs : Keeps r s) :
    Keeps r (tieDraining k s) := by
  unfold tieDraining
  repeat' first
    | with_reducible assumption | with_reducible apply foldOver_keeps | with_reducible apply destOffDrop_keeps
    | with_reducible apply foldl_keeps | split | dsimp only | intro _ _ _ | intro _ _ | intro _
    | (with_reducible refine Keeps.mk_over ?_ rfl rfl rfl rfl rfl rfl)

theorem tieStopped_keeps {r : State} {k : Nat} {s : State} (hs : Keeps r s) :
    Keeps r (tieStopped k s) := by
  unfold tieStopped
  repeat' first
    | with_reducible assumption | with_reducible apply refreshJoined_keeps | with_reducible apply foldOver_keeps
    | with_reducible apply onlyIf_keeps | with_reducible apply setLane_keeps | with_reducible apply wrC_keeps
    | with_reducible apply clearLink_keeps | split | dsimp only | intro _ _ _ | intro _ _ | intro _
    | (with_reducible refine Keeps.mk_over ?_ rfl rfl rfl rfl rfl rfl)

theorem tieOff_keeps {r : State} {k : Nat} {s : State} (hs : Keeps r s) :
    Keeps r (tieOff k s) := by
  unfold tieOff
  repeat' first
    | with_reducible assumption | with_reducible apply dropKept_keeps | with_reducible apply tieStopped_keeps | split
    | dsimp only | intro _ _ _ | intro _ _ | intro _ | (with_reducible refine Keeps.mk_over ?_ rfl rfl rfl rfl rfl rfl)

end Sys2Proof.Machine
end

