-- ==== Sys2Proof/Laws/HooksKeeps.lean ====
section
/-! SUPPORT. Every operation of Machine/Hooks.lean keeps what `Keeps` speaks of. -/

-- The alternatives of each proof's `first` are the same list; not every alternative is used in every proof.
set_option linter.unreachableTactic false
set_option linter.unusedTactic false

namespace Sys2Proof.Machine

theorem tmgStarting_keeps {r : State} {s : State} (hs : Keeps r s) :
    Keeps r (tmgStarting s) := by
  unfold tmgStarting
  repeat' first
    | with_reducible assumption | with_reducible apply foldOver_keeps | with_reducible apply fillShapers_keeps | split
    | dsimp only | intro _ _ _ | intro _ _ | intro _ | (with_reducible refine Keeps.mk_over ?_ rfl rfl rfl rfl rfl rfl)

theorem tmgChanStarting_keeps {r : State} {d : Nat} {s : State} (hs : Keeps r s) :
    Keeps r (tmgChanStarting d s) := by
  unfold tmgChanStarting
  repeat' first
    | with_reducible assumption | with_reducible apply fillShapers_keeps | split | dsimp only
    | (with_reducible refine Keeps.mk_over ?_ rfl rfl rfl rfl rfl rfl)

theorem fenStarting_keeps {r : State} {e : Nat} {s : State} (hs : Keeps r s) :
    Keeps r (fenStarting e s) := by
  unfold fenStarting
  repeat' first
    | with_reducible assumption | with_reducible apply fenForced_keeps | split | dsimp only
    | (with_reducible refine Keeps.mk_over ?_ rfl rfl rfl rfl rfl rfl)

theorem startEffects_keeps {r : State} {t : Target} {s : State} (hs : Keeps r s) :
    Keeps r (startEffects t s) := by
  unfold startEffects
  repeat' first
    | with_reducible assumption | with_reducible apply powerLane_keeps | with_reducible apply prtWideStarting_keeps
    | with_reducible apply prtStarting_keeps | with_reducible apply tieStarting_keeps
    | with_reducible apply tieChanStarting_keeps | with_reducible apply fchStarting_keeps
    | with_reducible apply mcsStarting_keeps | with_reducible apply fenStarting_keeps | with_reducible apply dspStarting_keeps
    | with_reducible apply dspChanStarting_keeps | with_reducible apply bpmStarting_keeps
    | with_reducible apply swcStarting_keeps | with_reducible apply tmgStarting_keeps
    | with_reducible apply tmgChanStarting_keeps | split | dsimp only | intro _ _ _ | intro _ _ | intro _
    | (with_reducible refine Keeps.mk_over ?_ rfl rfl rfl rfl rfl rfl)

theorem timOn_keeps {r : State} {s : State} (hs : Keeps r s) :
    Keeps r (timOn s) := by
  unfold timOn
  repeat' first
    | with_reducible assumption | with_reducible apply refreshSynce_keeps | split | dsimp only | intro _ _ _ | intro _ _
    | intro _ | (with_reducible refine Keeps.mk_over ?_ rfl rfl rfl rfl rfl rfl)

theorem fltOn_keeps {r : State} {s : State} (hs : Keeps r s) :
    Keeps r (fltOn s) := by
  unfold fltOn
  repeat' first
    | with_reducible assumption | with_reducible apply foldOver_keeps | with_reducible apply takeEntries_keeps | split
    | dsimp only | intro _ _ _ | intro _ _ | intro _ | (with_reducible refine Keeps.mk_over ?_ rfl rfl rfl rfl rfl rfl)

theorem onEffects_keeps {r : State} {t : Target} {s : State} (hs : Keeps r s) :
    Keeps r (onEffects t s) := by
  unfold onEffects
  repeat' first
    | with_reducible assumption | with_reducible apply refreshSynce_keeps | with_reducible apply enterSequence_keeps
    | with_reducible apply tieOn_keeps | with_reducible apply fltOn_keeps | with_reducible apply timOn_keeps
    | with_reducible apply trigOn_keeps | split | dsimp only | intro _ _ _ | intro _ _ | intro _
    | (with_reducible refine Keeps.mk_over ?_ rfl rfl rfl rfl rfl rfl)

theorem timChanDraining_keeps {r : State} {c : Nat} {s : State} (hs : Keeps r s) :
    Keeps r (timChanDraining c s) := by
  unfold timChanDraining
  repeat' first
    | with_reducible assumption | with_reducible apply wrC_keeps | split | dsimp only
    | (with_reducible refine Keeps.mk_over ?_ rfl rfl rfl rfl rfl rfl)

theorem drainEffects_keeps {r : State} {t : Target} {s : State} (hs : Keeps r s) :
    Keeps r (drainEffects t s) := by
  unfold drainEffects
  repeat' first
    | with_reducible assumption | with_reducible apply laneLeaves_keeps | with_reducible apply linkGone_keeps
    | with_reducible apply tieDraining_keeps | with_reducible apply writeBackAll_keeps | with_reducible apply refreshSynce_keeps
    | with_reducible apply timChanDraining_keeps | split | dsimp only | intro _ _ _ | intro _ _ | intro _
    | (with_reducible refine Keeps.mk_over ?_ rfl rfl rfl rfl rfl rfl)

theorem fltForced_keeps {r : State} {s : State} (hs : Keeps r s) :
    Keeps r (fltForced s) := by
  unfold fltForced
  repeat' first
    | with_reducible assumption | with_reducible apply foldOver_keeps | with_reducible apply discardOp_keeps | split
    | dsimp only | intro _ _ _ | intro _ _ | intro _ | (with_reducible refine Keeps.mk_over ?_ rfl rfl rfl rfl rfl rfl)

theorem forcedEffects_keeps {r : State} {t : Target} {s : State} (hs : Keeps r s) :
    Keeps r (forcedEffects t s) := by
  unfold forcedEffects
  repeat' first
    | with_reducible assumption | with_reducible apply dropParsing_keeps | with_reducible apply freePortFrames_keeps
    | with_reducible apply foldOver_keeps | with_reducible apply destOffDrop_keeps | with_reducible apply dropClassifying_keeps
    | with_reducible apply l2tForced_keeps | with_reducible apply fltForced_keeps | with_reducible apply fenForced_keeps
    | with_reducible apply dspDiscard_keeps | with_reducible apply bpmForced_keeps | with_reducible apply dropQueued_keeps
    | with_reducible apply putTrig_keeps | split | dsimp only | intro _ _ _ | intro _ _ | intro _
    | (with_reducible refine Keeps.mk_over ?_ rfl rfl rfl rfl rfl rfl)

theorem offEffects_keeps {r : State} {t : Target} {s : State} (hs : Keeps r s) :
    Keeps r (offEffects t s) := by
  unfold offEffects
  repeat' first
    | with_reducible assumption | with_reducible apply moveLater_keeps | with_reducible apply prtStopped_keeps
    | with_reducible apply tieOff_keeps | with_reducible apply fltOff_keeps | with_reducible apply writeBackAll_keeps | split
    | dsimp only | intro _ _ _ | intro _ _ | intro _ | (with_reducible refine Keeps.mk_over ?_ rfl rfl rfl rfl rfl rfl)

theorem faultEffects_keeps {r : State} {t : Target} {s : State} (hs : Keeps r s) :
    Keeps r (faultEffects t s) := by
  unfold faultEffects
  repeat' first
    | with_reducible assumption | with_reducible apply laneLeaves_keeps | with_reducible apply moveLater_keeps
    | with_reducible apply prtStopped_keeps | with_reducible apply portDown_keeps | with_reducible apply tieStopped_keeps
    | with_reducible apply takeOut_keeps | with_reducible apply refreshSynce_keeps | with_reducible apply fltOff_keeps
    | with_reducible apply writeBackAll_keeps | split | dsimp only | intro _ _ _ | intro _ _ | intro _
    | (with_reducible refine Keeps.mk_over ?_ rfl rfl rfl rfl rfl rfl)

end Sys2Proof.Machine
end

