-- ==== Sys2Proof/Laws/BlockFsmKeeps.lean ====
section
/-! SUPPORT. Every operation of Machine/BlockFsm.lean keeps what `Keeps` speaks of. -/

-- The alternatives of each proof's `first` are the same list; not every alternative is used in every proof.
set_option linter.unreachableTactic false
set_option linter.unusedTactic false

namespace Sys2Proof.Machine

theorem startTarget_keeps {r : State} {t : Target} {s : State} (hs : Keeps r s) :
    Keeps r (startTarget t s) := by
  unfold startTarget
  repeat' first
    | with_reducible assumption | with_reducible apply enterStarting_keeps | with_reducible apply faultEffects_keeps
    | with_reducible apply enterFault_keeps | with_reducible apply startEffects_keeps | split | dsimp only
    | (with_reducible refine Keeps.mk_over ?_ rfl rfl rfl rfl rfl rfl)

theorem leaveOff_keeps {r : State} {t : Target} {s : State} (hs : Keeps r s) :
    Keeps r (leaveOff t s) := by
  unfold leaveOff
  repeat' first
    | with_reducible assumption | with_reducible apply startTarget_keeps | with_reducible apply modTgt_keeps | split
    | dsimp only | (with_reducible refine Keeps.mk_over ?_ rfl rfl rfl rfl rfl rfl)

theorem offRows_keeps {r : State} {t : Target} {s : State} (hs : Keeps r s) :
    Keeps r (offRows t s) := by
  unfold offRows
  repeat' first
    | with_reducible assumption | with_reducible apply leaveOff_keeps | split | dsimp only
    | (with_reducible refine Keeps.mk_over ?_ rfl rfl rfl rfl rfl rfl)

theorem beginDrain_keeps {r : State} {t : Target} {s : State} (hs : Keeps r s) :
    Keeps r (beginDrain t s) := by
  unfold beginDrain
  repeat' first
    | with_reducible assumption | with_reducible apply drainEffects_keeps | with_reducible apply modTgt_keeps | split
    | dsimp only | (with_reducible refine Keeps.mk_over ?_ rfl rfl rfl rfl rfl rfl)

theorem clearRegs_keeps {r : State} {t : Target} {s : State} (hs : Keeps r s) :
    Keeps r (clearRegs t s) := by
  unfold clearRegs
  repeat' first
    | with_reducible assumption | split | dsimp only | (with_reducible refine Keeps.mk_over ?_ rfl rfl rfl rfl rfl rfl)

theorem clearHeader_keeps {r : State} {b : Block} {s : State} (hs : Keeps r s) :
    Keeps r (clearHeader b s) := by
  unfold clearHeader
  repeat' first
    | with_reducible assumption | with_reducible apply resignal_keeps | split | dsimp only
    | (with_reducible refine Keeps.mk_over ?_ rfl rfl rfl rfl rfl rfl)

theorem clearTargets_keeps {r : State} {t : Target} {s : State} (hs : Keeps r s) :
    Keeps r (clearTargets t s) := by
  unfold clearTargets
  repeat' first
    | with_reducible assumption | with_reducible apply foldOver_keeps | with_reducible apply putTgt_keeps | split | dsimp only
    | intro _ _ _ | intro _ _ | intro _ | (with_reducible refine Keeps.mk_over ?_ rfl rfl rfl rfl rfl rfl)

theorem clearChanState_keeps {r : State} {b : Block} {c : Nat} {s : State} (hs : Keeps r s) :
    Keeps r (clearChanState b c s) := by
  unfold clearChanState
  repeat' first
    | with_reducible assumption | with_reducible apply clearRx_keeps | with_reducible apply fecBad_keeps
    | with_reducible apply putTieLink_keeps | with_reducible apply putCapt_keeps | with_reducible apply dspChanStarting_keeps
    | with_reducible apply clearGates_keeps | split | dsimp only | intro _ _ _ | intro _ _ | intro _
    | (with_reducible refine Keeps.mk_over ?_ rfl rfl rfl rfl rfl rfl)

theorem timCleared_keeps {r : State} {s : State} (hs : Keeps r s) :
    Keeps r (timCleared s) := by
  unfold timCleared
  repeat' first
    | with_reducible assumption | split | dsimp only | intro _ _ _ | intro _ _ | intro _
    | (with_reducible refine Keeps.mk_over ?_ rfl rfl rfl rfl rfl rfl)

theorem clearBlockState_keeps {r : State} {b : Block} {s : State} (hs : Keeps r s) :
    Keeps r (clearBlockState b s) := by
  unfold clearBlockState
  split <;> first
    | with_reducible exact hs
    | with_reducible exact l2tClear_keeps hs
    | with_reducible exact lpmClear_keeps hs
    | with_reducible exact fltReset_keeps hs
    | with_reducible exact fchStarting_keeps hs
    | with_reducible exact dspStarting_keeps hs
    | with_reducible exact swcStarting_keeps hs
    | with_reducible exact timCleared_keeps hs
    | with_reducible exact Keeps.mk_over (foldOver_keeps (fun _ _ h => clearRx_keeps h) hs) rfl rfl rfl rfl rfl rfl
    | with_reducible exact wr_keeps (Keeps.mk_over hs rfl rfl rfl rfl rfl rfl)
    | with_reducible exact modSys_keeps (Keeps.mk_over (dropSystem_keeps hs) rfl rfl rfl rfl rfl rfl)
    | with_reducible exact retireFreed_keeps (hs.stored id (fun _ => rfl) rfl rfl rfl rfl rfl rfl rfl)
    | exact hs.stored id (fun _ => rfl) rfl rfl rfl rfl rfl rfl rfl
    | exact Keeps.mk_over hs rfl rfl rfl rfl rfl rfl

theorem keepLocks_keeps {r : State} {old : State} {s : State} (_hold : Keeps r old) (hs : Keeps r s) :
    Keeps r (keepLocks old s) := by
  unfold keepLocks
  repeat' first
    | with_reducible assumption | with_reducible apply foldOver_keeps | with_reducible apply wrX_keeps | split | dsimp only
    | intro _ _ _ | intro _ _ | intro _ | (with_reducible refine Keeps.mk_over ?_ rfl rfl rfl rfl rfl rfl)

theorem resetUnits_keeps {r : State} {t : Target} {old : State} {s : State} (_hold : Keeps r old) (hs : Keeps r s) :
    Keeps r (resetUnits t old s) := by
  unfold resetUnits
  repeat' first
    | with_reducible assumption | with_reducible apply foldOver_keeps | with_reducible apply mcsReset_keeps
    | with_reducible apply keepLocks_keeps | with_reducible apply clearBlockState_keeps | with_reducible apply wr_keeps
    | with_reducible apply clearChanState_keeps | split | dsimp only | intro _ _ _ | intro _ _ | intro _
    | (with_reducible refine Keeps.mk_over ?_ rfl rfl rfl rfl rfl rfl)

theorem noteReset_keeps {r : State} {t : Target} {imm : Bool} {win : Nat} {auto : Bool} {s : State} (hs : Keeps r s) :
    Keeps r (noteReset t imm win auto s) := by
  unfold noteReset
  repeat' first
    | with_reducible assumption | with_reducible apply wr_keeps | with_reducible apply raise_keeps
    | with_reducible apply incX_keeps | split | dsimp only | (with_reducible refine Keeps.mk_over ?_ rfl rfl rfl rfl rfl rfl)

theorem hostActs_keeps {r : State} {t : Target} {s : State} (hs : Keeps r s) :
    Keeps r (hostActs t s) := by
  unfold hostActs
  repeat' first
    | with_reducible assumption | split | dsimp only | (with_reducible refine Keeps.mk_over ?_ rfl rfl rfl rfl rfl rfl)

theorem cancelCovered_keeps {r : State} {t : Target} {s : State} (hs : Keeps r s) :
    Keeps r (cancelCovered t s) := by
  unfold cancelCovered
  repeat' first
    | with_reducible assumption | with_reducible apply foldOver_keeps | with_reducible apply cancelLeft_keeps | split
    | dsimp only | intro _ _ _ | intro _ _ | intro _ | (with_reducible refine Keeps.mk_over ?_ rfl rfl rfl rfl rfl rfl)

theorem finishReset_keeps {r : State} {t : Target} {s0 : State} (hs : Keeps r s0) :
    Keeps r (finishReset t s0) := by
  unfold finishReset
  repeat' first
    | with_reducible assumption | with_reducible apply cancelCovered_keeps | with_reducible apply foldOver_keeps
    | with_reducible apply hostActs_keeps | with_reducible apply resetUnits_keeps | with_reducible apply clearTargets_keeps
    | with_reducible apply clearRegs_keeps | with_reducible apply clearHeader_keeps | with_reducible apply noteReset_keeps
    | with_reducible apply afterStep_keeps | split | dsimp only | intro _ _ _ | intro _ _ | intro _
    | (with_reducible refine Keeps.mk_over ?_ rfl rfl rfl rfl rfl rfl)

theorem tryFinishReset_keeps {r : State} {t : Target} {s : State} (hs : Keeps r s) :
    Keeps r (tryFinishReset t s) := by
  unfold tryFinishReset
  repeat' first
    | with_reducible assumption | with_reducible apply finishReset_keeps | split | dsimp only
    | (with_reducible refine Keeps.mk_over ?_ rfl rfl rfl rfl rfl rfl)

theorem discardNow_keeps {r : State} {t : Target} {s : State} (hs : Keeps r s) :
    Keeps r (discardNow t s) := by
  unfold discardNow
  repeat' first
    | with_reducible assumption | with_reducible apply fenForced_keeps | with_reducible apply modTgt_keeps
    | with_reducible apply beginDrain_keeps | with_reducible apply offEffects_keeps | with_reducible apply forcedEffects_keeps
    | split | dsimp only | (with_reducible refine Keeps.mk_over ?_ rfl rfl rfl rfl rfl rfl)

theorem discardOps_keeps {r : State} {t : Target} {s : State} (hs : Keeps r s) :
    Keeps r (discardOps t s) := by
  unfold discardOps
  repeat' first
    | with_reducible assumption | with_reducible apply foldOver_keeps | with_reducible apply dspDiscard_keeps | split
    | dsimp only | intro _ _ _ | intro _ _ | intro _ | (with_reducible refine Keeps.mk_over ?_ rfl rfl rfl rfl rfl rfl)

theorem commitCancel_keeps {r : State} {b : Block} {s : State} (hs : Keeps r s) :
    Keeps r (commitCancel b s) := by
  unfold commitCancel
  repeat' first
    | with_reducible assumption | with_reducible apply putCommit_keeps | with_reducible apply dropSystem_keeps | split
    | dsimp only | intro _ _ _ | intro _ _ | intro _ | (with_reducible refine Keeps.mk_over ?_ rfl rfl rfl rfl rfl rfl)

theorem beginReset_keeps {r : State} {t : Target} {imm : Bool} {win : Nat} {s : State} (hs : Keeps r s) :
    Keeps r (beginReset t imm win s) := by
  unfold beginReset
  repeat' first
    | with_reducible assumption | with_reducible apply commitCancel_keeps | with_reducible apply modTgt_keeps
    | with_reducible apply foldOver_keeps | with_reducible apply discardNow_keeps | with_reducible apply discardOps_keeps
    | with_reducible apply beginDrain_keeps | with_reducible apply tryFinishReset_keeps | split | dsimp only | intro _ _ _
    | intro _ _ | intro _ | (with_reducible refine Keeps.mk_over ?_ rfl rfl rfl rfl rfl rfl)

theorem blockResetWrite_keeps {r : State} {w : Window} {b : Block} {v : Word} {s : State} (hs : Keeps r s) :
    Keeps r (blockResetWrite w b v s) := by
  unfold blockResetWrite
  repeat' first
    | with_reducible assumption | with_reducible apply accessError_keeps | with_reducible apply beginReset_keeps | split
    | dsimp only | intro _ _ _ | intro _ _ | intro _ | (with_reducible refine Keeps.mk_over ?_ rfl rfl rfl rfl rfl rfl)

theorem execBlockResetGo_keeps {r : State} {w : Window} {b : Block} {v : Word} {s : State} (hs : Keeps r s) :
    OutKeeps r (execBlockResetGo w b v s) := by
  unfold execBlockResetGo
  repeat' first
    | with_reducible assumption | with_reducible apply guarded_keeps | with_reducible apply OutKeeps.next
    | exact OutKeeps.refused _ | exact OutKeeps.fault _ | with_reducible apply writing_keeps
    | with_reducible apply blockResetWrite_keeps | split | dsimp only | intro _ _ _ | intro _ _ | intro _
    | (with_reducible refine Keeps.mk_over ?_ rfl rfl rfl rfl rfl rfl)

theorem drainDone_keeps {r : State} {t : Target} {s : State} (hs : Keeps r s) :
    Keeps r (drainDone t s) := by
  unfold drainDone
  repeat' first
    | with_reducible assumption | with_reducible apply modTgt_keeps | with_reducible apply offEffects_keeps
    | with_reducible apply tryFinishReset_keeps | with_reducible apply offRows_keeps | split | dsimp only
    | (with_reducible refine Keeps.mk_over ?_ rfl rfl rfl rfl rfl rfl)

theorem enableOn_keeps {r : State} {t : Target} {s : State} (hs : Keeps r s) :
    Keeps r (enableOn t s) := by
  unfold enableOn
  repeat' first
    | with_reducible assumption | with_reducible apply offRows_keeps | with_reducible apply modTgt_keeps | split | dsimp only
    | (with_reducible refine Keeps.mk_over ?_ rfl rfl rfl rfl rfl rfl)

theorem linkGivenUp_keeps {r : State} {t : Target} {s : State} (hs : Keeps r s) :
    Keeps r (linkGivenUp t s) := by
  unfold linkGivenUp
  repeat' first
    | with_reducible assumption | with_reducible apply dropKept_keeps | split | dsimp only | intro _ _ _ | intro _ _ | intro _
    | (with_reducible refine Keeps.mk_over ?_ rfl rfl rfl rfl rfl rfl)

theorem enableOff_keeps {r : State} {t : Target} {s : State} (hs : Keeps r s) :
    Keeps r (enableOff t s) := by
  unfold enableOff
  repeat' first
    | with_reducible assumption | with_reducible apply modTgt_keeps | with_reducible apply linkGivenUp_keeps
    | with_reducible apply hostActs_keeps | with_reducible apply beginDrain_keeps | split | dsimp only | intro _ _ _ | intro _ _
    | intro _ | (with_reducible refine Keeps.mk_over ?_ rfl rfl rfl rfl rfl rfl)

theorem modeWrite_keeps {r : State} {t : Target} {v : Nat} {s : State} (hs : Keeps r s) :
    Keeps r (modeWrite t v s) := by
  unfold modeWrite
  repeat' first
    | with_reducible assumption | with_reducible apply shadowRefused_keeps | with_reducible apply wrC_keeps | split | dsimp only
    | (with_reducible refine Keeps.mk_over ?_ rfl rfl rfl rfl rfl rfl)

theorem blockCtlWrite_keeps {r : State} {w : Window} {b : Block} {v : Word} {s : State} (hs : Keeps r s) :
    Keeps r (blockCtlWrite w b v s) := by
  unfold blockCtlWrite
  repeat' first
    | with_reducible assumption | with_reducible apply accessError_keeps | with_reducible apply modeWrite_keeps
    | with_reducible apply enableOn_keeps | with_reducible apply enableOff_keeps | split | dsimp only
    | (with_reducible refine Keeps.mk_over ?_ rfl rfl rfl rfl rfl rfl)

theorem execEnableWrite_keeps {r : State} {w : Window} {b : Block} {v : Word} {s : State} (hs : Keeps r s) :
    OutKeeps r (execEnableWrite w b v s) := by
  unfold execEnableWrite
  repeat' first
    | with_reducible assumption | with_reducible apply guarded_keeps | with_reducible apply OutKeeps.next
    | exact OutKeeps.refused _ | exact OutKeeps.fault _ | with_reducible apply writing_keeps
    | with_reducible apply blockCtlWrite_keeps | split | dsimp only | intro _ _ _ | intro _ _ | intro _
    | (with_reducible refine Keeps.mk_over ?_ rfl rfl rfl rfl rfl rfl)

theorem execPreconditionMet_keeps {r : State} {t : Target} {s : State} (hs : Keeps r s) :
    OutKeeps r (execPreconditionMet t s) := by
  unfold execPreconditionMet
  repeat' first
    | with_reducible assumption | with_reducible apply guarded_keeps | with_reducible apply OutKeeps.next
    | exact OutKeeps.refused _ | exact OutKeeps.fault _ | with_reducible apply onlyIf_keeps
    | with_reducible apply startTarget_keeps | split | dsimp only | intro _ _ _ | intro _ _ | intro _
    | (with_reducible refine Keeps.mk_over ?_ rfl rfl rfl rfl rfl rfl)

theorem execPreconditionLost_keeps {r : State} {t : Target} {s : State} (hs : Keeps r s) :
    OutKeeps r (execPreconditionLost t s) := by
  unfold execPreconditionLost
  repeat' first
    | with_reducible assumption | with_reducible apply guarded_keeps | with_reducible apply OutKeeps.next
    | exact OutKeeps.refused _ | exact OutKeeps.fault _ | with_reducible apply onlyIf_keeps
    | with_reducible apply beginDrain_keeps | split | dsimp only | intro _ _ _ | intro _ _ | intro _
    | (with_reducible refine Keeps.mk_over ?_ rfl rfl rfl rfl rfl rfl)

theorem startComplete_keeps {r : State} {t : Target} {failed : Bool} {s : State} (hs : Keeps r s) :
    Keeps r (startComplete t failed s) := by
  unfold startComplete
  repeat' first
    | with_reducible assumption | with_reducible apply faultEffects_keeps | with_reducible apply enterFault_keeps
    | with_reducible apply onEffects_keeps | with_reducible apply modTgt_keeps | split | dsimp only | intro _ _ _ | intro _ _
    | intro _ | (with_reducible refine Keeps.mk_over ?_ rfl rfl rfl rfl rfl rfl)

theorem execStartComplete_keeps {r : State} {t : Target} {failed : Bool} {s : State} (hs : Keeps r s) :
    OutKeeps r (execStartComplete t failed s) := by
  unfold execStartComplete
  repeat' first
    | with_reducible assumption | with_reducible apply guarded_keeps | with_reducible apply OutKeeps.next
    | exact OutKeeps.refused _ | exact OutKeeps.fault _ | with_reducible apply onlyIf_keeps
    | with_reducible apply startComplete_keeps | split | dsimp only | intro _ _ _ | intro _ _ | intro _
    | (with_reducible refine Keeps.mk_over ?_ rfl rfl rfl rfl rfl rfl)

theorem execStartBoundExceeded_keeps {r : State} {t : Target} {s : State} (hs : Keeps r s) :
    OutKeeps r (execStartBoundExceeded t s) := by
  unfold execStartBoundExceeded
  repeat' first
    | with_reducible assumption | with_reducible apply guarded_keeps | with_reducible apply OutKeeps.next
    | exact OutKeeps.refused _ | exact OutKeeps.fault _ | with_reducible apply onlyIf_keeps
    | with_reducible apply faultEffects_keeps | with_reducible apply enterFault_keeps | split | dsimp only | intro _ _ _
    | intro _ _ | intro _ | (with_reducible refine Keeps.mk_over ?_ rfl rfl rfl rfl rfl rfl)

theorem drainFrees_keeps {r : State} {t : Target} {s : State} (hs : Keeps r s) :
    Keeps r (drainFrees t s) := by
  unfold drainFrees
  repeat' first
    | with_reducible assumption | with_reducible apply linkGone_keeps | with_reducible apply tieDraining_keeps | split
    | dsimp only | intro _ _ _ | intro _ _ | intro _ | (with_reducible refine Keeps.mk_over ?_ rfl rfl rfl rfl rfl rfl)

theorem drainComplete_keeps {r : State} {t : Target} {s : State} (hs : Keeps r s) :
    Keeps r (drainComplete t s) := by
  unfold drainComplete
  repeat' first
    | with_reducible assumption | with_reducible apply drainFrees_keeps | with_reducible apply drainDone_keeps | split
    | dsimp only | (with_reducible refine Keeps.mk_over ?_ rfl rfl rfl rfl rfl rfl)

theorem execDrainComplete_keeps {r : State} {t : Target} {s : State} (hs : Keeps r s) :
    OutKeeps r (execDrainComplete t s) := by
  unfold execDrainComplete
  repeat' first
    | with_reducible assumption | with_reducible apply guarded_keeps | with_reducible apply OutKeeps.next
    | exact OutKeeps.refused _ | exact OutKeeps.fault _ | with_reducible apply onlyIf_keeps
    | with_reducible apply drainComplete_keeps | split | dsimp only | intro _ _ _ | intro _ _ | intro _
    | (with_reducible refine Keeps.mk_over ?_ rfl rfl rfl rfl rfl rfl)

theorem drainForced_keeps {r : State} {t : Target} {s : State} (hs : Keeps r s) :
    Keeps r (drainForced t s) := by
  unfold drainForced
  repeat' first
    | with_reducible assumption | with_reducible apply forcedEffects_keeps | with_reducible apply noteForced_keeps
    | with_reducible apply drainDone_keeps | split | dsimp only
    | (with_reducible refine Keeps.mk_over ?_ rfl rfl rfl rfl rfl rfl)

theorem execDrainForced_keeps {r : State} {t : Target} {s : State} (hs : Keeps r s) :
    OutKeeps r (execDrainForced t s) := by
  unfold execDrainForced
  repeat' first
    | with_reducible assumption | with_reducible apply guarded_keeps | with_reducible apply OutKeeps.next
    | exact OutKeeps.refused _ | exact OutKeeps.fault _ | with_reducible apply onlyIf_keeps
    | with_reducible apply drainForced_keeps | split | dsimp only | intro _ _ _ | intro _ _ | intro _
    | (with_reducible refine Keeps.mk_over ?_ rfl rfl rfl rfl rfl rfl)

theorem execUnrecoverableError_keeps {r : State} {t : Target} {s : State} (hs : Keeps r s) :
    OutKeeps r (execUnrecoverableError t s) := by
  unfold execUnrecoverableError
  repeat' first
    | with_reducible assumption | with_reducible apply guarded_keeps | with_reducible apply OutKeeps.next
    | exact OutKeeps.refused _ | exact OutKeeps.fault _ | with_reducible apply onlyIf_keeps
    | with_reducible apply faultEffects_keeps | with_reducible apply enterFault_keeps | split | dsimp only | intro _ _ _
    | intro _ _ | intro _ | (with_reducible refine Keeps.mk_over ?_ rfl rfl rfl rfl rfl rfl)

end Sys2Proof.Machine
end

