-- ==== Sys2Proof/Laws/PowerKeeps.lean ====
section
/-! SUPPORT. Every operation of Machine/Power.lean keeps what `Keeps` speaks of. -/

-- The alternatives of each proof's `first` are the same list; not every alternative is used in every proof.
set_option linter.unreachableTactic false
set_option linter.unusedTactic false

namespace Sys2Proof.Machine

theorem railGood_keeps {r : State} {r0 : Nat} {slow : Bool} {s : State} (hs : Keeps r s) :
    Keeps r (railGood r0 slow s) := by
  unfold railGood
  repeat' first
    | with_reducible assumption | with_reducible apply wr_keeps | with_reducible apply raise_keeps
    | with_reducible apply foldl_keeps | split | dsimp only | intro _ _ _ | intro _ _ | intro _
    | (with_reducible refine Keeps.mk_over ?_ rfl rfl rfl rfl rfl rfl)

theorem execRailGood_keeps {r : State} {r0 : Nat} {slow : Bool} {s : State} (hs : Keeps r s) :
    OutKeeps r (execRailGood r0 slow s) := by
  unfold execRailGood
  repeat' first
    | with_reducible assumption | with_reducible apply guarded_keeps | with_reducible apply OutKeeps.next
    | exact OutKeeps.refused _ | exact OutKeeps.fault _ | with_reducible apply onlyIf_keeps
    | with_reducible apply railGood_keeps | with_reducible apply foldl_keeps | split | dsimp only | intro _ _ _ | intro _ _
    | intro _ | (with_reducible refine Keeps.mk_over ?_ rfl rfl rfl rfl rfl rfl)

theorem execFailLatchClear_keeps {r : State} {w : Window} {v : Word} {s : State} (hs : Keeps r s) :
    OutKeeps r (execFailLatchClear w v s) := by
  unfold execFailLatchClear
  repeat' first
    | with_reducible assumption | with_reducible apply guarded_keeps | with_reducible apply OutKeeps.next
    | exact OutKeeps.refused _ | exact OutKeeps.fault _ | with_reducible apply writing_keeps | with_reducible apply onlyIf_keeps
    | with_reducible apply wr_keeps | with_reducible apply foldl_keeps | split | dsimp only | intro _ _ _ | intro _ _ | intro _
    | (with_reducible refine Keeps.mk_over ?_ rfl rfl rfl rfl rfl rfl)

theorem strapCompare_keeps {r : State} {straps : Nat} {s : State} (hs : Keeps r s) :
    Keeps r (strapCompare straps s) := by
  unfold strapCompare
  repeat' first
    | with_reducible assumption | with_reducible apply wr_keeps | with_reducible apply raise_keeps
    | with_reducible apply foldl_keeps | split | dsimp only | intro _ _ _ | intro _ _ | intro _
    | (with_reducible refine Keeps.mk_over ?_ rfl rfl rfl rfl rfl rfl)

theorem execStrapCompare_keeps {r : State} {straps : Nat} {s : State} (hs : Keeps r s) :
    OutKeeps r (execStrapCompare straps s) := by
  unfold execStrapCompare
  repeat' first
    | with_reducible assumption | with_reducible apply guarded_keeps | with_reducible apply OutKeeps.next
    | exact OutKeeps.refused _ | exact OutKeeps.fault _ | with_reducible apply onlyIf_keeps
    | with_reducible apply strapCompare_keeps | with_reducible apply foldl_keeps | split | dsimp only | intro _ _ _ | intro _ _
    | intro _ | (with_reducible refine Keeps.mk_over ?_ rfl rfl rfl rfl rfl rfl)

theorem onBackup_keeps {r : State} {b : Bool} {s : State} (hs : Keeps r s) :
    Keeps r (onBackup b s) := by
  unfold onBackup
  repeat' first
    | with_reducible assumption | with_reducible apply wr_keeps | with_reducible apply foldl_keeps | split | dsimp only
    | intro _ _ _ | intro _ _ | intro _ | (with_reducible refine Keeps.mk_over ?_ rfl rfl rfl rfl rfl rfl)

theorem execRefclkSysLost_keeps {r : State} {s : State} (hs : Keeps r s) :
    OutKeeps r (execRefclkSysLost s) := by
  unfold execRefclkSysLost
  repeat' first
    | with_reducible assumption | with_reducible apply guarded_keeps | with_reducible apply OutKeeps.next
    | exact OutKeeps.refused _ | exact OutKeeps.fault _ | with_reducible apply onlyIf_keeps | with_reducible apply raise_keeps
    | with_reducible apply onBackup_keeps | with_reducible apply foldl_keeps | split | dsimp only | intro _ _ _ | intro _ _
    | intro _ | (with_reducible refine Keeps.mk_over ?_ rfl rfl rfl rfl rfl rfl)

theorem execRefclkSysRestored_keeps {r : State} {s : State} (hs : Keeps r s) :
    OutKeeps r (execRefclkSysRestored s) := by
  unfold execRefclkSysRestored
  repeat' first
    | with_reducible assumption | with_reducible apply guarded_keeps | with_reducible apply OutKeeps.next
    | exact OutKeeps.refused _ | exact OutKeeps.fault _ | with_reducible apply onlyIf_keeps | with_reducible apply raise_keeps
    | with_reducible apply onBackup_keeps | with_reducible apply foldl_keeps | split | dsimp only | intro _ _ _ | intro _ _
    | intro _ | (with_reducible refine Keeps.mk_over ?_ rfl rfl rfl rfl rfl rfl)

theorem storeMargin_keeps {r : State} {k : Nat} {delay : Nat} {s : State} (hs : Keeps r s) :
    Keeps r (storeMargin k delay s) := by
  unfold storeMargin
  repeat' first
    | with_reducible assumption | with_reducible apply wrX_keeps | with_reducible apply foldl_keeps | split | dsimp only
    | intro _ _ _ | intro _ _ | intro _ | (with_reducible refine Keeps.mk_over ?_ rfl rfl rfl rfl rfl rfl)

theorem storeMargins_keeps {r : State} {n : Nat} {ds : List Nat} {s : State} (hs : Keeps r s) : Keeps r (storeMargins n ds s) := by
  induction ds generalizing n s with
  | nil => exact hs
  | cons d ds ih =>
    unfold storeMargins
    exact ih (storeMargin_keeps hs)

theorem avsRequest_keeps {r : State} {v : Nat} {s : State} (hs : Keeps r s) :
    Keeps r (avsRequest v s) := by
  unfold avsRequest
  repeat' first
    | with_reducible assumption | with_reducible apply emit_keeps | with_reducible apply avsRetry_keeps | split | dsimp only
    | intro _ _ _ | intro _ _ | intro _ | (with_reducible refine Keeps.mk_over ?_ rfl rfl rfl rfl rfl rfl)

theorem suggest_keeps {r : State} {v : Nat} {s : State} (hs : Keeps r s) :
    Keeps r (suggest v s) := by
  unfold suggest
  repeat' first
    | with_reducible assumption | with_reducible apply wr_keeps | with_reducible apply avsRequest_keeps | split | dsimp only
    | intro _ _ _ | intro _ _ | intro _ | (with_reducible refine Keeps.mk_over ?_ rfl rfl rfl rfl rfl rfl)

theorem avsUp_keeps {r : State} {s : State} (hs : Keeps r s) :
    Keeps r (avsUp s) := by
  unfold avsUp
  repeat' first
    | with_reducible assumption | with_reducible apply suggest_keeps | with_reducible apply foldl_keeps | split | dsimp only
    | intro _ _ _ | intro _ _ | intro _ | (with_reducible refine Keeps.mk_over ?_ rfl rfl rfl rfl rfl rfl)

theorem avsRise_keeps {r : State} {s : State} (hs : Keeps r s) : Keeps r (avsRise s) := by
  unfold avsRise
  split
  · exact hs
  · exact avsUp_keeps hs

theorem avsActive_keeps {r : State} {s : State} (hs : Keeps r s) : Keeps r (avsActive s) := by
  unfold avsActive
  split
  · exact suggest_keeps hs
  · exact hs

theorem paceMeasure_keeps {r : State} {delays : List Nat} {s : State} (hs : Keeps r s) :
    Keeps r (paceMeasure delays s) := by
  unfold paceMeasure
  repeat' first
    | with_reducible assumption | with_reducible apply storeMargins_keeps | with_reducible apply avsRise_keeps
    | with_reducible apply raise_keeps | with_reducible apply foldl_keeps | split | dsimp only | intro _ _ _ | intro _ _
    | intro _ | (with_reducible refine Keeps.mk_over ?_ rfl rfl rfl rfl rfl rfl)

theorem execPaceMeasure_keeps {r : State} {delays : List Nat} {s : State} (hs : Keeps r s) :
    OutKeeps r (execPaceMeasure delays s) := by
  unfold execPaceMeasure
  repeat' first
    | with_reducible assumption | with_reducible apply guarded_keeps | with_reducible apply OutKeeps.next
    | exact OutKeeps.refused _ | exact OutKeeps.fault _ | with_reducible apply onlyIf_keeps
    | with_reducible apply paceMeasure_keeps | with_reducible apply foldl_keeps | split | dsimp only | intro _ _ _ | intro _ _
    | intro _ | (with_reducible refine Keeps.mk_over ?_ rfl rfl rfl rfl rfl rfl)

theorem execPaceRecoveryExpire_keeps {r : State} {s : State} (hs : Keeps r s) :
    OutKeeps r (execPaceRecoveryExpire s) := by
  unfold execPaceRecoveryExpire
  repeat' first
    | with_reducible assumption | with_reducible apply guarded_keeps | with_reducible apply OutKeeps.next
    | exact OutKeeps.refused _ | exact OutKeeps.fault _ | with_reducible apply onlyIf_keeps | with_reducible apply raise_keeps
    | with_reducible apply foldl_keeps | split | dsimp only | intro _ _ _ | intro _ _ | intro _
    | (with_reducible refine Keeps.mk_over ?_ rfl rfl rfl rfl rfl rfl)

theorem avsStepUp_keeps {r : State} {s : State} (hs : Keeps r s) :
    Keeps r (avsStepUp s) := by
  unfold avsStepUp
  repeat' first
    | with_reducible assumption | with_reducible apply raise_keeps | with_reducible apply avsUp_keeps
    | with_reducible apply foldl_keeps | split | dsimp only | intro _ _ _ | intro _ _ | intro _
    | (with_reducible refine Keeps.mk_over ?_ rfl rfl rfl rfl rfl rfl)

theorem execAvsStepUp_keeps {r : State} {s : State} (hs : Keeps r s) :
    OutKeeps r (execAvsStepUp s) := by
  unfold execAvsStepUp
  repeat' first
    | with_reducible assumption | with_reducible apply guarded_keeps | with_reducible apply OutKeeps.next
    | exact OutKeeps.refused _ | exact OutKeeps.fault _ | with_reducible apply onlyIf_keeps
    | with_reducible apply avsStepUp_keeps | with_reducible apply foldl_keeps | split | dsimp only | intro _ _ _ | intro _ _
    | intro _ | (with_reducible refine Keeps.mk_over ?_ rfl rfl rfl rfl rfl rfl)

theorem avsStepDown_keeps {r : State} {s : State} (hs : Keeps r s) :
    Keeps r (avsStepDown s) := by
  unfold avsStepDown
  repeat' first
    | with_reducible assumption | with_reducible apply suggest_keeps | with_reducible apply foldl_keeps | split | dsimp only
    | intro _ _ _ | intro _ _ | intro _ | (with_reducible refine Keeps.mk_over ?_ rfl rfl rfl rfl rfl rfl)

theorem execAvsStepDown_keeps {r : State} {s : State} (hs : Keeps r s) :
    OutKeeps r (execAvsStepDown s) := by
  unfold execAvsStepDown
  repeat' first
    | with_reducible assumption | with_reducible apply guarded_keeps | with_reducible apply OutKeeps.next
    | exact OutKeeps.refused _ | exact OutKeeps.fault _ | with_reducible apply onlyIf_keeps
    | with_reducible apply avsStepDown_keeps | with_reducible apply foldl_keeps | split | dsimp only | intro _ _ _ | intro _ _
    | intro _ | (with_reducible refine Keeps.mk_over ?_ rfl rfl rfl rfl rfl rfl)

theorem avsWriteDone_keeps {r : State} {ok : Bool} {v : Nat} {s : State} (hs : Keeps r s) :
    Keeps r (avsWriteDone ok v s) := by
  unfold avsWriteDone
  repeat' first
    | with_reducible assumption | with_reducible apply wr_keeps | with_reducible apply avsRetry_keeps | split | dsimp only
    | intro _ _ _ | intro _ _ | intro _ | (with_reducible refine Keeps.mk_over ?_ rfl rfl rfl rfl rfl rfl)

theorem execAvsWriteDone_keeps {r : State} {ok : Bool} {s : State} (hs : Keeps r s) :
    OutKeeps r (execAvsWriteDone ok s) := by
  unfold execAvsWriteDone
  repeat' first
    | with_reducible assumption | with_reducible apply guarded_keeps | with_reducible apply OutKeeps.next
    | exact OutKeeps.refused _ | exact OutKeeps.fault _ | with_reducible apply avsWriteDone_keeps
    | with_reducible apply foldl_keeps | split | dsimp only | intro _ _ _ | intro _ _ | intro _
    | (with_reducible refine Keeps.mk_over ?_ rfl rfl rfl rfl rfl rfl)

theorem avsRetry_keeps {r : State} {ok : Bool} {v : Nat} {s : State} (hs : Keeps r s) :
    Keeps r (avsRetry ok v s) := by
  unfold avsRetry
  repeat' first
    | with_reducible assumption | with_reducible apply emit_keeps | with_reducible apply wr_keeps
    | with_reducible apply raise_keeps | split | dsimp only | intro _ _ _ | intro _ _ | intro _
    | (with_reducible refine Keeps.mk_over ?_ rfl rfl rfl rfl rfl rfl)

theorem execAvsRetry_keeps {r : State} {ok : Bool} {s : State} (hs : Keeps r s) :
    OutKeeps r (execAvsRetry ok s) := by
  unfold execAvsRetry
  repeat' first
    | with_reducible assumption | with_reducible apply guarded_keeps | with_reducible apply OutKeeps.next
    | exact OutKeeps.refused _ | exact OutKeeps.fault _ | with_reducible apply avsRetry_keeps | with_reducible apply foldl_keeps
    | split | dsimp only | intro _ _ _ | intro _ _ | intro _ | (with_reducible refine Keeps.mk_over ?_ rfl rfl rfl rfl rfl rfl)

theorem paceLowClear_keeps {r : State} {k : Nat} {v : Word} {s : State} (hs : Keeps r s) :
    Keeps r (paceLowClear k v s) := by
  unfold paceLowClear
  repeat' first
    | with_reducible assumption | with_reducible apply wrX_keeps | with_reducible apply foldl_keeps | split | dsimp only
    | intro _ _ _ | intro _ _ | intro _ | (with_reducible refine Keeps.mk_over ?_ rfl rfl rfl rfl rfl rfl)

theorem execPaceLowClear_keeps {r : State} {w : Window} {k : Nat} {v : Word} {s : State} (hs : Keeps r s) :
    OutKeeps r (execPaceLowClear w k v s) := by
  unfold execPaceLowClear
  repeat' first
    | with_reducible assumption | with_reducible apply guarded_keeps | with_reducible apply OutKeeps.next
    | exact OutKeeps.refused _ | exact OutKeeps.fault _ | with_reducible apply writing_keeps
    | with_reducible apply paceLowClear_keeps | with_reducible apply foldl_keeps | split | dsimp only | intro _ _ _ | intro _ _
    | intro _ | (with_reducible refine Keeps.mk_over ?_ rfl rfl rfl rfl rfl rfl)

theorem pwrCommitted_keeps {r : State} {old : State} {new : State} (_hold : Keeps r old) (hs : Keeps r new) :
    Keeps r (pwrCommitted old new) := by
  unfold pwrCommitted
  repeat' first
    | with_reducible assumption | with_reducible apply suggest_keeps | with_reducible apply avsRequest_keeps | split
    | dsimp only | intro _ _ _ | intro _ _ | intro _ | (with_reducible refine Keeps.mk_over ?_ rfl rfl rfl rfl rfl rfl)

end Sys2Proof.Machine
end

