-- ==== Sys2Proof/Laws/CommitKeeps.lean ====
section
/-! SUPPORT. Every operation of Machine/Commit.lean keeps what `Keeps` speaks of. -/

-- The alternatives of each proof's `first` are the same list; not every alternative is used in every proof.
set_option linter.unreachableTactic false
set_option linter.unusedTactic false

namespace Sys2Proof.Machine

theorem moveShadows_keeps {r : State} {b : Block} {s : State} (hs : Keeps r s) :
    Keeps r (moveShadows b s) := by
  unfold moveShadows
  repeat' first
    | with_reducible assumption | split | dsimp only | (with_reducible refine Keeps.mk_over ?_ rfl rfl rfl rfl rfl rfl)

theorem bncCommitted_keeps {r : State} {old : State} {new : State} (_hold : Keeps r old) (hnew : Keeps r new) :
    Keeps r (bncCommitted old new) := by
  unfold bncCommitted
  repeat' first
    | with_reducible assumption | with_reducible apply foldOver_keeps | with_reducible apply putBenchQueue_keeps | split
    | dsimp only | intro _ _ _ | intro _ _ | intro _ | (with_reducible refine Keeps.mk_over ?_ rfl rfl rfl rfl rfl rfl)

theorem prtCommitted_keeps {r : State} {old : State} {new : State} (_hold : Keeps r old) (hs : Keeps r new) :
    Keeps r (prtCommitted old new) := by
  unfold prtCommitted
  repeat' first
    | with_reducible assumption | with_reducible apply foldOver_keeps | with_reducible apply beginDrain_keeps
    | with_reducible apply holdBack_keeps | split | dsimp only | intro _ _ _ | intro _ _ | intro _
    | (with_reducible refine Keeps.mk_over ?_ rfl rfl rfl rfl rfl rfl)

theorem committed_keeps {r : State} {b : Block} {old : State} {new : State} (_hold : Keeps r old) (hs : Keeps r new) :
    Keeps r (committed b old new) := by
  unfold committed
  repeat' first
    | with_reducible assumption | with_reducible apply pwrCommitted_keeps | with_reducible apply lanCommitted_keeps
    | with_reducible apply prtCommitted_keeps | with_reducible apply l2tCommitted_keeps
    | with_reducible apply mcsCommitted_keeps | with_reducible apply bpmCommitted_keeps
    | with_reducible apply tmgCommitted_keeps | with_reducible apply timCommitted_keeps
    | with_reducible apply bncCommitted_keeps | split | dsimp only | intro _ _ _ | intro _ _ | intro _
    | (with_reducible refine Keeps.mk_over ?_ rfl rfl rfl rfl rfl rfl)

theorem doCommit_keeps {r : State} {b : Block} {late : Bool} {s : State} (hs : Keeps r s) :
    Keeps r (doCommit b late s) := by
  unfold doCommit
  repeat' first
    | with_reducible assumption | with_reducible apply commitRefused_keeps | with_reducible apply putCommit_keeps
    | with_reducible apply committed_keeps | with_reducible apply moveShadows_keeps | split | dsimp only
    | (with_reducible refine Keeps.mk_over ?_ rfl rfl rfl rfl rfl rfl)

theorem refuseNow_keeps {r : State} {b : Block} {code : Nat} {s : State} (hs : Keeps r s) :
    Keeps r (refuseNow b code s) := by
  unfold refuseNow
  repeat' first
    | with_reducible assumption | with_reducible apply commitRefused_keeps | with_reducible apply putCommit_keeps | split
    | dsimp only | (with_reducible refine Keeps.mk_over ?_ rfl rfl rfl rfl rfl rfl)

theorem commitNow_keeps {r : State} {b : Block} {s : State} (hs : Keeps r s) :
    Keeps r (commitNow b s) := by
  unfold commitNow
  repeat' first
    | with_reducible assumption | with_reducible apply commitRefused_keeps | with_reducible apply refuseNow_keeps
    | with_reducible apply clsCommitStart_keeps | with_reducible apply doCommit_keeps | split | dsimp only
    | (with_reducible refine Keeps.mk_over ?_ rfl rfl rfl rfl rfl rfl)

theorem commitAtTime_keeps {r : State} {b : Block} {s : State} (hs : Keeps r s) :
    Keeps r (commitAtTime b s) := by
  unfold commitAtTime
  repeat' first
    | with_reducible assumption | with_reducible apply commitRefused_keeps | with_reducible apply refuseNow_keeps
    | with_reducible apply clsCommitStart_keeps | with_reducible apply doCommit_keeps | with_reducible apply putCommit_keeps
    | split | dsimp only | (with_reducible refine Keeps.mk_over ?_ rfl rfl rfl rfl rfl rfl)

theorem commitWrite_keeps {r : State} {w : Window} {b : Block} {v : Word} {s : State} (hs : Keeps r s) :
    Keeps r (commitWrite w b v s) := by
  unfold commitWrite
  repeat' first
    | with_reducible assumption | with_reducible apply putCommit_keeps | with_reducible apply accessError_keeps
    | with_reducible apply commitNow_keeps | with_reducible apply commitAtTime_keeps | with_reducible apply commitCancel_keeps
    | split | dsimp only | (with_reducible refine Keeps.mk_over ?_ rfl rfl rfl rfl rfl rfl)

theorem ownerCommit_keeps {r : State} {w : Window} {b : Block} {s : State} (hs : Keeps r s) :
    Keeps r (ownerCommit w b s) := by
  unfold ownerCommit
  repeat' first
    | with_reducible assumption | with_reducible apply commitRefused_keeps | with_reducible apply refuseNow_keeps | split
    | dsimp only | intro _ _ _ | intro _ _ | intro _ | (with_reducible refine Keeps.mk_over ?_ rfl rfl rfl rfl rfl rfl)

theorem commitAccess_keeps {r : State} {w : Window} {b : Block} {v : Word} {s : State} (hs : Keeps r s) :
    Keeps r (commitAccess w b v s) := by
  unfold commitAccess
  repeat' first
    | with_reducible assumption | with_reducible apply writing_keeps | with_reducible apply commitWrite_keeps
    | with_reducible apply ownerCommit_keeps | split | dsimp only | intro _ _ _ | intro _ _ | intro _
    | (with_reducible refine Keeps.mk_over ?_ rfl rfl rfl rfl rfl rfl)

theorem execCommitNow_keeps {r : State} {w : Window} {b : Block} {s : State} (hs : Keeps r s) :
    OutKeeps r (execCommitNow w b s) := by
  unfold execCommitNow
  repeat' first
    | with_reducible assumption | with_reducible apply guarded_keeps | with_reducible apply OutKeeps.next
    | exact OutKeeps.refused _ | exact OutKeeps.fault _ | with_reducible apply commitAccess_keeps | split | dsimp only
    | (with_reducible refine Keeps.mk_over ?_ rfl rfl rfl rfl rfl rfl)

theorem execCommitAtTime_keeps {r : State} {w : Window} {b : Block} {s : State} (hs : Keeps r s) :
    OutKeeps r (execCommitAtTime w b s) := by
  unfold execCommitAtTime
  repeat' first
    | with_reducible assumption | with_reducible apply guarded_keeps | with_reducible apply OutKeeps.next
    | exact OutKeeps.refused _ | exact OutKeeps.fault _ | with_reducible apply commitAccess_keeps | split | dsimp only
    | (with_reducible refine Keeps.mk_over ?_ rfl rfl rfl rfl rfl rfl)

theorem execCommitCancel_keeps {r : State} {w : Window} {b : Block} {s : State} (hs : Keeps r s) :
    OutKeeps r (execCommitCancel w b s) := by
  unfold execCommitCancel
  repeat' first
    | with_reducible assumption | with_reducible apply guarded_keeps | with_reducible apply OutKeeps.next
    | exact OutKeeps.refused _ | exact OutKeeps.fault _ | with_reducible apply commitAccess_keeps | split | dsimp only
    | (with_reducible refine Keeps.mk_over ?_ rfl rfl rfl rfl rfl rfl)

theorem timedFire_keeps {r : State} {b : Block} {s : State} (hs : Keeps r s) :
    Keeps r (timedFire b s) := by
  unfold timedFire
  repeat' first
    | with_reducible assumption | with_reducible apply clsFire_keeps | with_reducible apply doCommit_keeps | split | dsimp only
    | (with_reducible refine Keeps.mk_over ?_ rfl rfl rfl rfl rfl rfl)

theorem execTimedCommitFire_keeps {r : State} {b : Block} {s : State} (hs : Keeps r s) :
    OutKeeps r (execTimedCommitFire b s) := by
  unfold execTimedCommitFire
  repeat' first
    | with_reducible assumption | with_reducible apply guarded_keeps | with_reducible apply OutKeeps.next
    | exact OutKeeps.refused _ | exact OutKeeps.fault _ | with_reducible apply timedFire_keeps | split | dsimp only
    | (with_reducible refine Keeps.mk_over ?_ rfl rfl rfl rfl rfl rfl)

end Sys2Proof.Machine
end

