-- ==== Sys2Proof/Laws/EventRowsKeeps.lean ====
section
/-! SUPPORT. Every operation of Machine/EventRows.lean keeps what `Keeps` speaks of. -/

-- The alternatives of each proof's `first` are the same list; not every alternative is used in every proof.
set_option linter.unreachableTactic false
set_option linter.unusedTactic false

namespace Sys2Proof.Machine

theorem forceWrite_keeps {r : State} {w : Window} {b : Block} {k : Nat} {v : Word} {s : State} (hs : Keeps r s) :
    Keeps r (forceWrite w b k v s) := by
  unfold forceWrite
  repeat' first
    | with_reducible assumption | with_reducible apply foldOver_keeps | with_reducible apply raiseForced_keeps | split
    | dsimp only | intro _ _ _ | intro _ _ | intro _ | (with_reducible refine Keeps.mk_over ?_ rfl rfl rfl rfl rfl rfl)

theorem execEvtForceWrite_keeps {r : State} {w : Window} {b : Block} {k : Nat} {v : Word} {s : State} (hs : Keeps r s) :
    OutKeeps r (execEvtForceWrite w b k v s) := by
  unfold execEvtForceWrite
  repeat' first
    | with_reducible assumption | with_reducible apply guarded_keeps | with_reducible apply OutKeeps.next
    | exact OutKeeps.refused _ | exact OutKeeps.fault _ | with_reducible apply writing_keeps
    | with_reducible apply forceWrite_keeps | split | dsimp only | intro _ _ _ | intro _ _ | intro _
    | (with_reducible refine Keeps.mk_over ?_ rfl rfl rfl rfl rfl rfl)

theorem clearCause_keeps {r : State} {g : Nat} {v : Word} {s : State} (hs : Keeps r s) :
    Keeps r (clearCause g v s) := by
  unfold clearCause
  repeat' first
    | with_reducible assumption | with_reducible apply resignal_keeps | split | dsimp only
    | (with_reducible refine Keeps.mk_over ?_ rfl rfl rfl rfl rfl rfl)

theorem clearPend_keeps {r : State} {g : Nat} {i : Nat} {v : Word} {s : State} (hs : Keeps r s) :
    Keeps r (clearPend g i v s) := by
  unfold clearPend
  repeat' first
    | with_reducible assumption | split | dsimp only | (with_reducible refine Keeps.mk_over ?_ rfl rfl rfl rfl rfl rfl)

theorem causeWrite_keeps {r : State} {w : Window} {off : Nat} {v : Word} {s : State} (hs : Keeps r s) :
    Keeps r (causeWrite w off v s) := by
  unfold causeWrite
  repeat' first
    | with_reducible assumption | with_reducible apply writingFree_keeps | with_reducible apply clearCause_keeps
    | with_reducible apply writing_keeps | with_reducible apply clearPend_keeps | split | dsimp only | intro _ _ _ | intro _ _
    | intro _ | (with_reducible refine Keeps.mk_over ?_ rfl rfl rfl rfl rfl rfl)

theorem execCauseClear_keeps {r : State} {w : Window} {off : Nat} {v : Word} {s : State} (hs : Keeps r s) :
    OutKeeps r (execCauseClear w off v s) := by
  unfold execCauseClear
  repeat' first
    | with_reducible assumption | with_reducible apply guarded_keeps | with_reducible apply OutKeeps.next
    | exact OutKeeps.refused _ | exact OutKeeps.fault _ | with_reducible apply causeWrite_keeps | split | dsimp only
    | (with_reducible refine Keeps.mk_over ?_ rfl rfl rfl rfl rfl rfl)

theorem execLimitWindowEnd_keeps {r : State} {src : Nat} {s : State} (hs : Keeps r s) :
    OutKeeps r (execLimitWindowEnd src s) := by
  unfold execLimitWindowEnd
  repeat' first
    | with_reducible assumption | with_reducible apply guarded_keeps | with_reducible apply OutKeeps.next
    | exact OutKeeps.refused _ | exact OutKeeps.fault _ | split | dsimp only
    | (with_reducible refine Keeps.mk_over ?_ rfl rfl rfl rfl rfl rfl)

theorem quietExpire_keeps {r : State} {src : Nat} {s : State} (hs : Keeps r s) :
    Keeps r (quietExpire src s) := by
  unfold quietExpire
  repeat' first
    | with_reducible assumption | with_reducible apply raise_keeps | with_reducible apply resignal_keeps | split | dsimp only
    | (with_reducible refine Keeps.mk_over ?_ rfl rfl rfl rfl rfl rfl)

theorem execAutoMaskQuietExpire_keeps {r : State} {src : Nat} {s : State} (hs : Keeps r s) :
    OutKeeps r (execAutoMaskQuietExpire src s) := by
  unfold execAutoMaskQuietExpire
  repeat' first
    | with_reducible assumption | with_reducible apply guarded_keeps | with_reducible apply OutKeeps.next
    | exact OutKeeps.refused _ | exact OutKeeps.fault _ | with_reducible apply quietExpire_keeps | split | dsimp only
    | (with_reducible refine Keeps.mk_over ?_ rfl rfl rfl rfl rfl rfl)

theorem autoMaskWrite_keeps {r : State} {g : Nat} {v : Word} {s : State} (hs : Keeps r s) :
    Keeps r (autoMaskWrite g v s) := by
  unfold autoMaskWrite
  repeat' first
    | with_reducible assumption | with_reducible apply resignal_keeps | split | dsimp only
    | (with_reducible refine Keeps.mk_over ?_ rfl rfl rfl rfl rfl rfl)

theorem execAutoMaskWrite_keeps {r : State} {w : Window} {g : Nat} {v : Word} {s : State} (hs : Keeps r s) :
    OutKeeps r (execAutoMaskWrite w g v s) := by
  unfold execAutoMaskWrite
  repeat' first
    | with_reducible assumption | with_reducible apply guarded_keeps | with_reducible apply OutKeeps.next
    | exact OutKeeps.refused _ | exact OutKeeps.fault _ | with_reducible apply writing_keeps
    | with_reducible apply autoMaskWrite_keeps | split | dsimp only | intro _ _ _ | intro _ _ | intro _
    | (with_reducible refine Keeps.mk_over ?_ rfl rfl rfl rfl rfl rfl)

theorem suppCountWrite_keeps {r : State} {w : Window} {v : Word} {s : State} (hs : Keeps r s) :
    Keeps r (suppCountWrite w v s) := by
  unfold suppCountWrite
  repeat' first
    | with_reducible assumption | split | dsimp only | (with_reducible refine Keeps.mk_over ?_ rfl rfl rfl rfl rfl rfl)

theorem execSuppCountClear_keeps {r : State} {w : Window} {v : Word} {s : State} (hs : Keeps r s) :
    OutKeeps r (execSuppCountClear w v s) := by
  unfold execSuppCountClear
  repeat' first
    | with_reducible assumption | with_reducible apply guarded_keeps | with_reducible apply OutKeeps.next
    | exact OutKeeps.refused _ | exact OutKeeps.fault _ | with_reducible apply writing_keeps
    | with_reducible apply suppCountWrite_keeps | split | dsimp only | intro _ _ _ | intro _ _ | intro _
    | (with_reducible refine Keeps.mk_over ?_ rfl rfl rfl rfl rfl rfl)

theorem vecRearm_keeps {r : State} {v : Nat} {s : State} (hs : Keeps r s) :
    Keeps r (vecRearm v s) := by
  unfold vecRearm
  repeat' first
    | with_reducible assumption | with_reducible apply signalVector_keeps | with_reducible apply raise_keeps | split
    | dsimp only | (with_reducible refine Keeps.mk_over ?_ rfl rfl rfl rfl rfl rfl)

theorem execVecRearm_keeps {r : State} {w : Window} {v : Word} {s : State} (hs : Keeps r s) :
    OutKeeps r (execVecRearm w v s) := by
  unfold execVecRearm
  repeat' first
    | with_reducible assumption | with_reducible apply guarded_keeps | with_reducible apply OutKeeps.next
    | exact OutKeeps.refused _ | exact OutKeeps.fault _ | with_reducible apply writing_keeps
    | with_reducible apply vecRearm_keeps | split | dsimp only | intro _ _ _ | intro _ _ | intro _
    | (with_reducible refine Keeps.mk_over ?_ rfl rfl rfl rfl rfl rfl)

theorem releasePending_keeps {r : State} {s : State} (hs : Keeps r s) :
    Keeps r (releasePending s) := by
  unfold releasePending
  repeat' first
    | with_reducible assumption | with_reducible apply foldOver_keeps | with_reducible apply sendMsix_keeps | split | dsimp only
    | intro _ _ _ | intro _ _ | intro _ | (with_reducible refine Keeps.mk_over ?_ rfl rfl rfl rfl rfl rfl)

theorem msixUnmask_keeps {r : State} {t : MsixTarget} {s : State} (hs : Keeps r s) :
    Keeps r (msixUnmask t s) := by
  unfold msixUnmask
  repeat' first
    | with_reducible assumption | with_reducible apply releasePending_keeps | with_reducible apply putReg_keeps | split
    | dsimp only | (with_reducible refine Keeps.mk_over ?_ rfl rfl rfl rfl rfl rfl)

theorem msixAccess_keeps {r : State} {t : MsixTarget} {s : State} (hs : Keeps r s) :
    Keeps r (msixAccess t s) := by
  unfold msixAccess
  repeat' first
    | with_reducible assumption | with_reducible apply writing_keeps | with_reducible apply msixUnmask_keeps
    | with_reducible apply onlyIf_keeps | split | dsimp only | intro _ _ _ | intro _ _ | intro _
    | (with_reducible refine Keeps.mk_over ?_ rfl rfl rfl rfl rfl rfl)

theorem execMsixUnmask_keeps {r : State} {t : MsixTarget} {s : State} (hs : Keeps r s) :
    OutKeeps r (execMsixUnmask t s) := by
  unfold execMsixUnmask
  repeat' first
    | with_reducible assumption | with_reducible apply guarded_keeps | with_reducible apply OutKeeps.next
    | exact OutKeeps.refused _ | exact OutKeeps.fault _ | with_reducible apply msixAccess_keeps | split | dsimp only
    | intro _ _ _ | intro _ _ | intro _ | (with_reducible refine Keeps.mk_over ?_ rfl rfl rfl rfl rfl rfl)

end Sys2Proof.Machine
end

