-- ==== Sys2Proof/Laws/ResetKeeps.lean ====
section
/-! SUPPORT. Every operation of Machine/Reset.lean keeps what `Keeps` speaks of. -/

-- The alternatives of each proof's `first` are the same list; not every alternative is used in every proof.
set_option linter.unreachableTactic false
set_option linter.unusedTactic false

namespace Sys2Proof.Machine

theorem clearAll_keeps {r : State} {keepIo : Bool} {keepRing : Bool} {s : State} (hs : Keeps r s) :
    Keeps r (clearAll keepIo keepRing s) := by
  exact hs.trans ⟨rfl, rfl, List.prefix_rfl, Nat.le_refl _, ⟨Nat.le_refl _, id, id, fun _ _ => ⟨rfl, rfl⟩⟩, fun _ => ⟨rfl, rfl⟩⟩

theorem railFail_keeps {r : State} {r0 : Nat} {s : State} (hs : Keeps r s) :
    Keeps r (railFail r0 s) := by
  unfold railFail
  repeat' first
    | with_reducible assumption | with_reducible apply clearAll_keeps | split | dsimp only
    | (with_reducible refine Keeps.mk_over ?_ rfl rfl rfl rfl rfl rfl)

theorem execRailFail_keeps {r : State} {r0 : Nat} {s : State} (hs : Keeps r s) :
    OutKeeps r (execRailFail r0 s) := by
  unfold execRailFail
  repeat' first
    | with_reducible assumption | with_reducible apply guarded_keeps | with_reducible apply OutKeeps.next
    | exact OutKeeps.refused _ | exact OutKeeps.fault _ | with_reducible apply onlyIf_keeps
    | with_reducible apply railFail_keeps | split | dsimp only | intro _ _ _ | intro _ _ | intro _
    | (with_reducible refine Keeps.mk_over ?_ rfl rfl rfl rfl rfl rfl)

theorem sampleStraps_keeps {r : State} {straps : Nat} {s : State} (hs : Keeps r s) :
    Keeps r (sampleStraps straps s) := by
  unfold sampleStraps
  repeat' first
    | with_reducible assumption | with_reducible apply wr_keeps | with_reducible apply putReg_keeps | split | dsimp only
    | (with_reducible refine Keeps.mk_over ?_ rfl rfl rfl rfl rfl rfl)

theorem release_keeps {r : State} {cause : Nat} {straps : Nat} {s : State} (hs : Keeps r s) :
    Keeps r (release cause straps s) := by
  unfold release
  repeat' first
    | with_reducible assumption | with_reducible apply wr_keeps | with_reducible apply sampleStraps_keeps | split | dsimp only
    | (with_reducible refine Keeps.mk_over ?_ rfl rfl rfl rfl rfl rfl)

theorem execPorRelease_keeps {r : State} {straps : Nat} {s : State} (hs : Keeps r s) :
    OutKeeps r (execPorRelease straps s) := by
  unfold execPorRelease
  repeat' first
    | with_reducible assumption | with_reducible apply guarded_keeps | with_reducible apply OutKeeps.next
    | exact OutKeeps.refused _ | exact OutKeeps.fault _ | with_reducible apply onlyIf_keeps | with_reducible apply release_keeps
    | split | dsimp only | intro _ _ _ | intro _ _ | intro _ | (with_reducible refine Keeps.mk_over ?_ rfl rfl rfl rfl rfl rfl)

theorem resetNAssert_keeps {r : State} {s : State} (hs : Keeps r s) :
    Keeps r (resetNAssert s) := by
  unfold resetNAssert
  repeat' first
    | with_reducible assumption | with_reducible apply clearAll_keeps | split | dsimp only
    | (with_reducible refine Keeps.mk_over ?_ rfl rfl rfl rfl rfl rfl)

theorem execResetNAssert_keeps {r : State} {s : State} (hs : Keeps r s) :
    OutKeeps r (execResetNAssert s) := by
  unfold execResetNAssert
  repeat' first
    | with_reducible assumption | with_reducible apply guarded_keeps | with_reducible apply OutKeeps.next
    | exact OutKeeps.refused _ | exact OutKeeps.fault _ | with_reducible apply onlyIf_keeps
    | with_reducible apply resetNAssert_keeps | split | dsimp only | intro _ _ _ | intro _ _ | intro _
    | (with_reducible refine Keeps.mk_over ?_ rfl rfl rfl rfl rfl rfl)

theorem resetNRelease_keeps {r : State} {straps : Nat} {s : State} (hs : Keeps r s) :
    Keeps r (resetNRelease straps s) := by
  unfold resetNRelease
  repeat' first
    | with_reducible assumption | with_reducible apply release_keeps | with_reducible apply onBackup_keeps | split | dsimp only
    | (with_reducible refine Keeps.mk_over ?_ rfl rfl rfl rfl rfl rfl)

theorem execResetNRelease_keeps {r : State} {straps : Nat} {s : State} (hs : Keeps r s) :
    OutKeeps r (execResetNRelease straps s) := by
  unfold execResetNRelease
  repeat' first
    | with_reducible assumption | with_reducible apply guarded_keeps | with_reducible apply OutKeeps.next
    | exact OutKeeps.refused _ | exact OutKeeps.fault _ | with_reducible apply onlyIf_keeps
    | with_reducible apply resetNRelease_keeps | split | dsimp only | intro _ _ _ | intro _ _ | intro _
    | (with_reducible refine Keeps.mk_over ?_ rfl rfl rfl rfl rfl rfl)

theorem quietTime_keeps {r : State} {s : State} (hs : Keeps r s) :
    Keeps r (quietTime s) := by
  unfold quietTime
  repeat' first
    | with_reducible assumption | with_reducible apply foldOver_keeps | with_reducible apply modTgt_keeps
    | with_reducible apply refreshSynce_keeps | with_reducible apply wrC_keeps | split | dsimp only | intro _ _ _ | intro _ _
    | intro _ | (with_reducible refine Keeps.mk_over ?_ rfl rfl rfl rfl rfl rfl)

theorem enterHeld_keeps {r : State} {code : Nat} {index : Nat} {slot : Nat} {s : State} (hs : Keeps r s) :
    Keeps r (enterHeld code index slot s) := by
  unfold enterHeld
  repeat' first
    | with_reducible assumption | with_reducible apply wr_keeps | with_reducible apply quietTime_keeps
    | with_reducible apply raise_keeps | with_reducible apply suggest_keeps | with_reducible apply writeRec_keeps | split
    | dsimp only | intro _ _ _ | intro _ _ | intro _ | (with_reducible refine Keeps.mk_over ?_ rfl rfl rfl rfl rfl rfl)

theorem refclkSysTimeout_keeps {r : State} {straps : Nat} {s : State} (hs : Keeps r s) :
    Keeps r (refclkSysTimeout straps s) := by
  unfold refclkSysTimeout
  repeat' first
    | with_reducible assumption | with_reducible apply release_keeps | with_reducible apply enterHeld_keeps
    | with_reducible apply onBackup_keeps | split | dsimp only
    | (with_reducible refine Keeps.mk_over ?_ rfl rfl rfl rfl rfl rfl)

theorem execRefclkSysTimeout_keeps {r : State} {straps : Nat} {s : State} (hs : Keeps r s) :
    OutKeeps r (execRefclkSysTimeout straps s) := by
  unfold execRefclkSysTimeout
  repeat' first
    | with_reducible assumption | with_reducible apply guarded_keeps | with_reducible apply OutKeeps.next
    | exact OutKeeps.refused _ | exact OutKeeps.fault _ | with_reducible apply onlyIf_keeps
    | with_reducible apply refclkSysTimeout_keeps | split | dsimp only | intro _ _ _ | intro _ _ | intro _
    | (with_reducible refine Keeps.mk_over ?_ rfl rfl rfl rfl rfl rfl)

theorem loadAborted_keeps {r : State} {back : Nat} {s : State} (hs : Keeps r s) :
    Keeps r (loadAborted back s) := by
  unfold loadAborted
  repeat' first
    | with_reducible assumption | with_reducible apply raise_keeps | with_reducible apply wr_keeps | split | dsimp only
    | intro _ _ _ | intro _ _ | intro _ | (with_reducible refine Keeps.mk_over ?_ rfl rfl rfl rfl rfl rfl)

theorem abortLoad_keeps {r : State} {s : State} (hs : Keeps r s) :
    Keeps r (abortLoad s) := by
  unfold abortLoad
  repeat' first
    | with_reducible assumption | with_reducible apply loadAborted_keeps | split | dsimp only | intro _ _ _ | intro _ _
    | intro _ | (with_reducible refine Keeps.mk_over ?_ rfl rfl rfl rfl rfl rfl)

theorem hifReset_keeps {r : State} {s : State} (hs : Keeps r s) :
    Keeps r (hifReset s) := by
  unfold hifReset
  repeat' first
    | with_reducible assumption | with_reducible apply clearHeader_keeps | with_reducible apply clearTargets_keeps
    | with_reducible apply clearRegs_keeps | split | dsimp only | intro _ _ _ | intro _ _ | intro _
    | (with_reducible refine Keeps.mk_over ?_ rfl rfl rfl rfl rfl rfl)

theorem dropResets_keeps {r : State} {s : State} (hs : Keeps r s) :
    Keeps r (dropResets s) := by
  unfold dropResets
  repeat' first
    | with_reducible assumption | split | dsimp only | intro _ _ _ | intro _ _ | intro _
    | (with_reducible refine Keeps.mk_over ?_ rfl rfl rfl rfl rfl rfl)

theorem perstAssert_keeps {r : State} {s : State} (hs : Keeps r s) :
    Keeps r (perstAssert s) := by
  unfold perstAssert
  repeat' first
    | with_reducible assumption | with_reducible apply abortLoad_keeps | with_reducible apply hifReset_keeps
    | with_reducible apply abandonRing_keeps | with_reducible apply dropResets_keeps | split | dsimp only | intro _ _ _
    | intro _ _ | intro _ | (with_reducible refine Keeps.mk_over ?_ rfl rfl rfl rfl rfl rfl)

theorem execPerstNAssert_keeps {r : State} {s : State} (hs : Keeps r s) :
    OutKeeps r (execPerstNAssert s) := by
  unfold execPerstNAssert
  repeat' first
    | with_reducible assumption | with_reducible apply guarded_keeps | with_reducible apply OutKeeps.next
    | exact OutKeeps.refused _ | exact OutKeeps.fault _ | with_reducible apply onlyIf_keeps
    | with_reducible apply perstAssert_keeps | split | dsimp only | intro _ _ _ | intro _ _ | intro _
    | (with_reducible refine Keeps.mk_over ?_ rfl rfl rfl rfl rfl rfl)

theorem perstRelease_keeps {r : State} {s : State} (hs : Keeps r s) :
    Keeps r (perstRelease s) := by
  unfold perstRelease
  repeat' first
    | with_reducible assumption | with_reducible apply takeEntries_keeps | split | dsimp only | intro _ _ _ | intro _ _
    | intro _ | (with_reducible refine Keeps.mk_over ?_ rfl rfl rfl rfl rfl rfl)

theorem execPerstNRelease_keeps {r : State} {s : State} (hs : Keeps r s) :
    OutKeeps r (execPerstNRelease s) := by
  unfold execPerstNRelease
  repeat' first
    | with_reducible assumption | with_reducible apply guarded_keeps | with_reducible apply OutKeeps.next
    | exact OutKeeps.refused _ | exact OutKeeps.fault _ | with_reducible apply perstRelease_keeps | split | dsimp only
    | intro _ _ _ | intro _ _ | intro _ | (with_reducible refine Keeps.mk_over ?_ rfl rfl rfl rfl rfl rfl)

theorem warmFields_keeps {r : State} {s : State} (hs : Keeps r s) :
    Keeps r (warmFields s) := by
  unfold warmFields
  repeat' first
    | with_reducible assumption | with_reducible apply foldOver_keeps | with_reducible apply wrX_keeps
    | with_reducible apply wr_keeps | split | dsimp only | intro _ _ _ | intro _ _ | intro _
    | (with_reducible refine Keeps.mk_over ?_ rfl rfl rfl rfl rfl rfl)

theorem disarmTriggers_keeps {r : State} {s : State} (hs : Keeps r s) :
    Keeps r (disarmTriggers s) := by
  unfold disarmTriggers
  repeat' first
    | with_reducible assumption | with_reducible apply foldOver_keeps | with_reducible apply wrC_keeps | split | dsimp only
    | intro _ _ _ | intro _ _ | intro _ | (with_reducible refine Keeps.mk_over ?_ rfl rfl rfl rfl rfl rfl)

theorem warmClear_keeps {r : State} {s : State} (hs : Keeps r s) :
    Keeps r (warmClear s) := by
  exact hs.stored id (fun _ => rfl) rfl rfl rfl rfl rfl rfl rfl

theorem warmReset_keeps {r : State} {cause : Nat} {s : State} (hs : Keeps r s) :
    Keeps r (warmReset cause s) := by
  unfold warmReset
  repeat' first
    | with_reducible assumption | with_reducible apply warmFields_keeps | with_reducible apply disarmTriggers_keeps
    | with_reducible apply warmClear_keeps | with_reducible apply wr_keeps | with_reducible apply incX_keeps
    | with_reducible apply resignal_keeps | with_reducible apply refreshSynce_keeps | split | dsimp only | intro _ _ _
    | intro _ _ | intro _ | (with_reducible refine Keeps.mk_over ?_ rfl rfl rfl rfl rfl rfl)

theorem warmRequest_keeps {r : State} {cause : Nat} {s : State} (hs : Keeps r s) :
    Keeps r (warmRequest cause s) := by
  unfold warmRequest
  repeat' first
    | with_reducible assumption | with_reducible apply raise_keeps | with_reducible apply sat1_keeps
    | with_reducible apply warmReset_keeps | split | dsimp only
    | (with_reducible refine Keeps.mk_over ?_ rfl rfl rfl rfl rfl rfl)

theorem warmWrite_keeps {r : State} {w : Window} {v : Word} {s : State} (hs : Keeps r s) :
    Keeps r (warmWrite w v s) := by
  unfold warmWrite
  repeat' first
    | with_reducible assumption | with_reducible apply accessError_keeps | with_reducible apply warmRequest_keeps | split
    | dsimp only | (with_reducible refine Keeps.mk_over ?_ rfl rfl rfl rfl rfl rfl)

theorem execWarmResetRequest_keeps {r : State} {w : Window} {v : Word} {s : State} (hs : Keeps r s) :
    OutKeeps r (execWarmResetRequest w v s) := by
  unfold execWarmResetRequest
  repeat' first
    | with_reducible assumption | with_reducible apply guarded_keeps | with_reducible apply OutKeeps.next
    | exact OutKeeps.refused _ | exact OutKeeps.fault _ | with_reducible apply writing_keeps
    | with_reducible apply warmWrite_keeps | split | dsimp only | intro _ _ _ | intro _ _ | intro _
    | (with_reducible refine Keeps.mk_over ?_ rfl rfl rfl rfl rfl rfl)

theorem laneUnlock_keeps {r : State} {l : Nat} {s : State} (hs : Keeps r s) :
    Keeps r (laneUnlock l s) := by
  unfold laneUnlock
  repeat' first
    | with_reducible assumption | with_reducible apply raiseC_keeps | with_reducible apply beginDrain_keeps | split | dsimp only
    | (with_reducible refine Keeps.mk_over ?_ rfl rfl rfl rfl rfl rfl)

theorem refclkLaneLost_keeps {r : State} {c : Nat} {s : State} (hs : Keeps r s) :
    Keeps r (refclkLaneLost c s) := by
  unfold refclkLaneLost
  repeat' first
    | with_reducible assumption | with_reducible apply foldOver_keeps | with_reducible apply wrX_keeps
    | with_reducible apply laneUnlock_keeps | with_reducible apply raise_keeps | split | dsimp only | intro _ _ _ | intro _ _
    | intro _ | (with_reducible refine Keeps.mk_over ?_ rfl rfl rfl rfl rfl rfl)

theorem execRefclkLaneLost_keeps {r : State} {c : Nat} {s : State} (hs : Keeps r s) :
    OutKeeps r (execRefclkLaneLost c s) := by
  unfold execRefclkLaneLost
  repeat' first
    | with_reducible assumption | with_reducible apply guarded_keeps | with_reducible apply OutKeeps.next
    | exact OutKeeps.refused _ | exact OutKeeps.fault _ | with_reducible apply onlyIf_keeps
    | with_reducible apply refclkLaneLost_keeps | split | dsimp only | intro _ _ _ | intro _ _ | intro _
    | (with_reducible refine Keeps.mk_over ?_ rfl rfl rfl rfl rfl rfl)

theorem relock_keeps {r : State} {c : Nat} {s : State} (hs : Keeps r s) :
    Keeps r (relock c s) := by
  unfold relock
  repeat' first
    | with_reducible assumption | with_reducible apply wrX_keeps | split | dsimp only | intro _ _ _ | intro _ _ | intro _
    | (with_reducible refine Keeps.mk_over ?_ rfl rfl rfl rfl rfl rfl)

theorem refclkLaneRestored_keeps {r : State} {c : Nat} {s : State} (hs : Keeps r s) :
    Keeps r (refclkLaneRestored c s) := by
  unfold refclkLaneRestored
  repeat' first
    | with_reducible assumption | with_reducible apply raise_keeps | with_reducible apply relock_keeps | split | dsimp only
    | intro _ _ _ | intro _ _ | intro _ | (with_reducible refine Keeps.mk_over ?_ rfl rfl rfl rfl rfl rfl)

theorem execRefclkLaneRestored_keeps {r : State} {c : Nat} {s : State} (hs : Keeps r s) :
    OutKeeps r (execRefclkLaneRestored c s) := by
  unfold execRefclkLaneRestored
  repeat' first
    | with_reducible assumption | with_reducible apply guarded_keeps | with_reducible apply OutKeeps.next
    | exact OutKeeps.refused _ | exact OutKeeps.fault _ | with_reducible apply onlyIf_keeps
    | with_reducible apply refclkLaneRestored_keeps | split | dsimp only | intro _ _ _ | intro _ _ | intro _
    | (with_reducible refine Keeps.mk_over ?_ rfl rfl rfl rfl rfl rfl)

end Sys2Proof.Machine
end

