-- ==== Sys2Proof/Laws/FirmwareKeeps.lean ====
section
/-! SUPPORT. Every operation of Machine/Firmware.lean keeps what `Keeps` speaks of. -/

-- The alternatives of each proof's `first` are the same list; not every alternative is used in every proof.
set_option linter.unreachableTactic false
set_option linter.unusedTactic false

namespace Sys2Proof.Machine

theorem loadCopy_keeps {r : State} {area : Nat} {e : List Byte} {s : State} (hs : Keeps r s) :
    Keeps r (loadCopy area e s) := by
  unfold loadCopy
  repeat' first
    | with_reducible assumption | split | dsimp only | intro _ _ _ | intro _ _ | intro _
    | (with_reducible refine Keeps.mk_over ?_ rfl rfl rfl rfl rfl rfl)

theorem refuseImage_keeps {r : State} {s : State} (hs : Keeps r s) :
    Keeps r (refuseImage s) := by
  unfold refuseImage
  repeat' first
    | with_reducible assumption | with_reducible apply raise_keeps | with_reducible apply satX_keeps
    | with_reducible apply foldl_keeps | split | dsimp only | intro _ _ _ | intro _ _ | intro _
    | (with_reducible refine Keeps.mk_over ?_ rfl rfl rfl rfl rfl rfl)

theorem showImage_keeps {r : State} {x : BenchImage} {s : State} (hs : Keeps r s) :
    Keeps r (showImage x s) := by
  unfold showImage
  repeat' first
    | with_reducible assumption | with_reducible apply wr_keeps | with_reducible apply foldl_keeps | split | dsimp only
    | intro _ _ _ | intro _ _ | intro _ | (with_reducible refine Keeps.mk_over ?_ rfl rfl rfl rfl rfl rfl)

theorem benchRuns_keeps {r : State} {s : State} (hs : Keeps r s) :
    Keeps r (benchRuns s) := by
  unfold benchRuns
  repeat' first
    | with_reducible assumption | with_reducible apply foldOver_keeps | with_reducible apply wr_keeps
    | with_reducible apply drainBenchQueues_keeps | with_reducible apply emit_keeps | with_reducible apply foldl_keeps | split
    | dsimp only | intro _ _ _ | intro _ _ | intro _ | (with_reducible refine Keeps.mk_over ?_ rfl rfl rfl rfl rfl rfl)

theorem respondMbox_keeps {r : State} {m : Nat} {k : Nat} {status : Nat} {detail : Nat} {len : Nat} {s : State} (hs : Keeps r s)
    :
    Keeps r (respondMbox m k status detail len s) := by
  unfold respondMbox
  repeat' first
    | with_reducible assumption | with_reducible apply emit_keeps | split | dsimp only | intro _ _ _ | intro _ _ | intro _
    | (with_reducible refine Keeps.mk_over ?_ rfl rfl rfl rfl rfl rfl)

theorem passEntry_keeps {r : State} {m : Nat} {s : State} (hs : Keeps r s) :
    Keeps r (passEntry m s) := by
  unfold passEntry
  repeat' first
    | with_reducible assumption | with_reducible apply wrX_keeps | split | dsimp only | intro _ _ _ | intro _ _ | intro _
    | (with_reducible refine Keeps.mk_over ?_ rfl rfl rfl rfl rfl rfl)

theorem skipEnded_keeps {r : State} {n : Nat} {s : State} (hs : Keeps r s) : Keeps r (skipEnded n s) := by
  induction n generalizing s with
  | zero => exact hs
  | succ n ih =>
    unfold skipEnded
    dsimp only
    split
    · exact ih (passEntry_keeps (Keeps.mk_over hs rfl rfl rfl rfl rfl rfl))
    · exact hs

theorem mboxIdle_keeps {r : State} {m : Nat} {s : State} (hs : Keeps r s) :
    Keeps r (mboxIdle m s) := by
  unfold mboxIdle
  repeat' first
    | with_reducible assumption | with_reducible apply raise_keeps | split | dsimp only | intro _ _ _ | intro _ _ | intro _
    | (with_reducible refine Keeps.mk_over ?_ rfl rfl rfl rfl rfl rfl)

theorem completeMbox_keeps {r : State} {m : Nat} {status : Nat} {detail : Nat} {len : Nat} {s : State} (hs : Keeps r s) :
    Keeps r (completeMbox m status detail len s) := by
  unfold completeMbox
  split
  · exact hs
  · dsimp only
    have ht := passEntry_keeps (m := m)
      (respondMbox_keeps (m := m) (k := rdX hifMboxCons_index m 0 s) (status := status) (detail := detail) (len := len) hs)
    generalize passEntry m _ = t at ht
    refine mboxIdle_keeps ?_
    split
    · exact skipEnded_keeps ht
    · exact ht

theorem endService_keeps {r : State} {status : Nat} {detail : Nat} {len : Nat} {s : State} (hs : Keeps r s) :
    Keeps r (endService status detail len s) := by
  unfold endService
  repeat' first
    | with_reducible assumption | with_reducible apply completeMbox_keeps | split | dsimp only | intro _ _ _ | intro _ _
    | intro _ | (with_reducible refine Keeps.mk_over ?_ rfl rfl rfl rfl rfl rfl)

theorem serve_keeps {r : State} {m : Nat} {service : Nat} {f : List Byte → State → State} {s : State} (hf : ∀ x0 x1, Keeps r x1 → Keeps r (f x0 x1)) (hs : Keeps r s) :
    Keeps r (serve m service f s) := by
  unfold serve
  repeat' first
    | with_reducible assumption | with_reducible apply hf | with_reducible apply foldl_keeps | split | dsimp only | intro _ _ _
    | intro _ _ | intro _ | (with_reducible refine Keeps.mk_over ?_ rfl rfl rfl rfl rfl rfl)

theorem storeBoxes_keeps {r : State} {m k : Nat} {es : List (List Byte)} {s : State} (hs : Keeps r s) :
    Keeps r (storeBoxes m k es s) := by
  induction es generalizing k s with
  | nil => exact hs
  | cons e es ih => exact ih (Keeps.mk_over hs rfl rfl rfl rfl rfl rfl)

theorem notThroughB_keeps {r : State} {w : Window} {off : Nat} {f : State → State} {s : State} (hf : ∀ x0, Keeps r x0 → Keeps r (f x0)) (hs : Keeps r s) :
    Keeps r (notThroughB w off f s) := by
  unfold notThroughB
  repeat' first
    | with_reducible assumption | with_reducible apply hf | with_reducible apply accessError_keeps
    | with_reducible apply foldl_keeps | split | dsimp only | intro _ _ _ | intro _ _ | intro _
    | (with_reducible refine Keeps.mk_over ?_ rfl rfl rfl rfl rfl rfl)

theorem endAtOnce_keeps {r : State} {k : Nat} {s : State} (hs : Keeps r s) :
    Keeps r (endAtOnce k s) := by
  unfold endAtOnce
  repeat' first
    | with_reducible assumption | with_reducible apply respondMbox_keeps | split | dsimp only | intro _ _ _ | intro _ _
    | intro _ | (with_reducible refine Keeps.mk_over ?_ rfl rfl rfl rfl rfl rfl)

theorem arriveBusy_keeps {r : State} {size : Nat} {p : Nat} {n : Nat} {s : State} (hs : Keeps r s) :
    Keeps r (arriveBusy size p n s) := by
  unfold arriveBusy
  split
  · dsimp only
    have ht : Keeps r (foldOver (List.range n) (fun i a => endAtOnce ((p + i) % size) a) s) := foldOver_keeps (fun _ _ h => endAtOnce_keeps h) hs
    generalize foldOver (List.range n) _ s = t at ht
    split
    · exact mboxIdle_keeps (skipEnded_keeps ht)
    · exact ht
  · exact hs

theorem mboxProdWrite_keeps {r : State} {m : Nat} {v : Word} {entries : List (List Byte)} {s : State} (hs : Keeps r s) :
    Keeps r (mboxProdWrite m v entries s) := by
  unfold mboxProdWrite
  repeat' first
    | with_reducible assumption | with_reducible apply wrX_keeps | with_reducible apply storeBoxes_keeps
    | with_reducible apply arriveBusy_keeps | split | dsimp only | intro _ _ _ | intro _ _ | intro _
    | (with_reducible refine Keeps.mk_over ?_ rfl rfl rfl rfl rfl rfl)

theorem execMboxProdWrite_keeps {r : State} {w : Window} {m : Nat} {v : Word} {entries : List (List Byte)} {s : State} (hs : Keeps r s) :
    OutKeeps r (execMboxProdWrite w m v entries s) := by
  unfold execMboxProdWrite
  repeat' first
    | with_reducible assumption | with_reducible apply guarded_keeps | with_reducible apply OutKeeps.next
    | exact OutKeeps.refused _ | exact OutKeeps.fault _ | with_reducible apply writing_keeps
    | with_reducible apply notThroughB_keeps | with_reducible apply mboxProdWrite_keeps | with_reducible apply foldl_keeps
    | split | dsimp only | intro _ _ _ | intro _ _ | intro _ | (with_reducible refine Keeps.mk_over ?_ rfl rfl rfl rfl rfl rfl)

theorem stopMbox_keeps {r : State} {m : Nat} {s : State} (hs : Keeps r s) :
    Keeps r (stopMbox m s) := by
  unfold stopMbox
  repeat' first
    | with_reducible assumption | with_reducible apply raise_keeps | with_reducible apply wrX_keeps | split | dsimp only
    | intro _ _ _ | intro _ _ | intro _ | (with_reducible refine Keeps.mk_over ?_ rfl rfl rfl rfl rfl rfl)

theorem mboxBaseCheck_keeps {r : State} {m : Nat} {s : State} (hs : Keeps r s) :
    Keeps r (mboxBaseCheck m s) := by
  unfold mboxBaseCheck
  repeat' first
    | with_reducible assumption | with_reducible apply stopMbox_keeps | split | dsimp only | intro _ _ _ | intro _ _ | intro _
    | (with_reducible refine Keeps.mk_over ?_ rfl rfl rfl rfl rfl rfl)

theorem mboxCfgWrite_keeps {r : State} {m : Nat} {v : Word} {s : State} (hs : Keeps r s) :
    Keeps r (mboxCfgWrite m v s) := by
  unfold mboxCfgWrite
  repeat' first
    | with_reducible assumption | with_reducible apply wrX_keeps | with_reducible apply stopMbox_keeps | split | dsimp only
    | intro _ _ _ | intro _ _ | intro _ | (with_reducible refine Keeps.mk_over ?_ rfl rfl rfl rfl rfl rfl)

theorem execMboxEnable_keeps {r : State} {w : Window} {m : Nat} {v : Word} {s : State} (hs : Keeps r s) :
    OutKeeps r (execMboxEnable w m v s) := by
  unfold execMboxEnable
  repeat' first
    | with_reducible assumption | with_reducible apply guarded_keeps | with_reducible apply OutKeeps.next
    | exact OutKeeps.refused _ | exact OutKeeps.fault _ | with_reducible apply writing_keeps
    | with_reducible apply notThroughB_keeps | with_reducible apply mboxCfgWrite_keeps | with_reducible apply foldl_keeps
    | split | dsimp only | intro _ _ _ | intro _ _ | intro _ | (with_reducible refine Keeps.mk_over ?_ rfl rfl rfl rfl rfl rfl)

theorem answerBytes_keeps {r : State} {m : Nat} {e : List Byte} {bs : List Byte} {s : State} (hs : Keeps r s) :
    Keeps r (answerBytes m e bs s) := by
  unfold answerBytes
  repeat' first
    | with_reducible assumption | with_reducible apply completeMbox_keeps | with_reducible apply emit_keeps
    | with_reducible apply foldl_keeps | split | dsimp only | intro _ _ _ | intro _ _ | intro _
    | (with_reducible refine Keeps.mk_over ?_ rfl rfl rfl rfl rfl rfl)

theorem svcStatus_keeps {r : State} {e : List Byte} {s : State} (hs : Keeps r s) :
    Keeps r (svcStatus e s) := by
  unfold svcStatus
  repeat' first
    | with_reducible assumption | with_reducible apply answerBytes_keeps | split | dsimp only | intro _ _ _ | intro _ _
    | intro _ | (with_reducible refine Keeps.mk_over ?_ rfl rfl rfl rfl rfl rfl)

theorem execSvcStatus_keeps {r : State} {s : State} (hs : Keeps r s) :
    OutKeeps r (execSvcStatus s) := by
  unfold execSvcStatus
  repeat' first
    | with_reducible assumption | with_reducible apply guarded_keeps | with_reducible apply OutKeeps.next
    | exact OutKeeps.refused _ | exact OutKeeps.fault _ | with_reducible apply serve_keeps
    | with_reducible apply svcStatus_keeps | with_reducible apply foldl_keeps | split | dsimp only | intro _ _ _ | intro _ _
    | intro _ | (with_reducible refine Keeps.mk_over ?_ rfl rfl rfl rfl rfl rfl)

theorem svcRouteUpdate_keeps {r : State} {buf : List Byte} {e : List Byte} {s : State} (hs : Keeps r s) :
    Keeps r (svcRouteUpdate buf e s) := by
  have h0 : ∀ rs : List Route, Keeps r { s with lpm := { s.lpm with routes := rs } } :=
    fun rs => Keeps.mk_over hs rfl rfl rfl rfl rfl rfl
  unfold svcRouteUpdate
  dsimp only
  split
  · exact completeMbox_keeps hs
  · split
    · exact completeMbox_keeps hs
    · split
      · exact completeMbox_keeps hs
      · split
        · next u hu =>
          obtain ⟨v, hv, hv2⟩ := Option.bind_eq_some_iff.mp hu
          exact completeMbox_keeps (buildRoutes_keeps (buildRoutes_keeps (h0 _) v hv) u hv2)
        · exact completeMbox_keeps hs

theorem execSvcRouteUpdate_keeps {r : State} {buf : List Byte} {s : State} (hs : Keeps r s) :
    OutKeeps r (execSvcRouteUpdate buf s) := by
  unfold execSvcRouteUpdate
  repeat' first
    | with_reducible assumption | with_reducible apply guarded_keeps | with_reducible apply OutKeeps.next
    | exact OutKeeps.refused _ | exact OutKeeps.fault _ | with_reducible apply serve_keeps
    | with_reducible apply svcRouteUpdate_keeps | with_reducible apply foldl_keeps | split | dsimp only | intro _ _ _
    | intro _ _ | intro _ | (with_reducible refine Keeps.mk_over ?_ rfl rfl rfl rfl rfl rfl)

theorem svcFlashWrite_keeps {r : State} {buf : List Byte} {e : List Byte} {s : State} (hs : Keeps r s) :
    Keeps r (svcFlashWrite buf e s) := by
  unfold svcFlashWrite
  repeat' first
    | with_reducible assumption | with_reducible apply completeMbox_keeps | with_reducible apply refuseImage_keeps
    | with_reducible apply emit_keeps | split | dsimp only | intro _ _ _ | intro _ _ | intro _
    | (with_reducible refine Keeps.mk_over ?_ rfl rfl rfl rfl rfl rfl)

theorem execSvcFlashWrite_keeps {r : State} {buf : List Byte} {s : State} (hs : Keeps r s) :
    OutKeeps r (execSvcFlashWrite buf s) := by
  unfold execSvcFlashWrite
  repeat' first
    | with_reducible assumption | with_reducible apply guarded_keeps | with_reducible apply OutKeeps.next
    | exact OutKeeps.refused _ | exact OutKeeps.fault _ | with_reducible apply serve_keeps
    | with_reducible apply svcFlashWrite_keeps | with_reducible apply foldl_keeps | split | dsimp only | intro _ _ _ | intro _ _
    | intro _ | (with_reducible refine Keeps.mk_over ?_ rfl rfl rfl rfl rfl rfl)

theorem writeDir_keeps {r : State} {off : Nat} {d : List Byte} {s : State} (hs : Keeps r s) :
    Keeps r (writeDir off d s) := by
  unfold writeDir
  repeat' first
    | with_reducible assumption | with_reducible apply emit_keeps | split | dsimp only | intro _ _ _ | intro _ _ | intro _
    | (with_reducible refine Keeps.mk_over ?_ rfl rfl rfl rfl rfl rfl)

theorem svcSetPreferred_keeps {r : State} {e : List Byte} {s : State} (hs : Keeps r s) :
    Keeps r (svcSetPreferred e s) := by
  unfold svcSetPreferred
  repeat' first
    | with_reducible assumption | with_reducible apply completeMbox_keeps | with_reducible apply writeDir_keeps | split
    | dsimp only | intro _ _ _ | intro _ _ | intro _ | (with_reducible refine Keeps.mk_over ?_ rfl rfl rfl rfl rfl rfl)

theorem execSvcSetPreferred_keeps {r : State} {s : State} (hs : Keeps r s) :
    OutKeeps r (execSvcSetPreferred s) := by
  unfold execSvcSetPreferred
  repeat' first
    | with_reducible assumption | with_reducible apply guarded_keeps | with_reducible apply OutKeeps.next
    | exact OutKeeps.refused _ | exact OutKeeps.fault _ | with_reducible apply serve_keeps
    | with_reducible apply svcSetPreferred_keeps | with_reducible apply foldl_keeps | split | dsimp only | intro _ _ _
    | intro _ _ | intro _ | (with_reducible refine Keeps.mk_over ?_ rfl rfl rfl rfl rfl rfl)

theorem svcIdentity_keeps {r : State} {e : List Byte} {s : State} (hs : Keeps r s) :
    Keeps r (svcIdentity e s) := by
  unfold svcIdentity
  repeat' first
    | with_reducible assumption | with_reducible apply answerBytes_keeps | with_reducible apply takeFree_keeps | split
    | dsimp only | intro _ _ _ | intro _ _ | intro _ | (with_reducible refine Keeps.mk_over ?_ rfl rfl rfl rfl rfl rfl)

theorem execSvcIdentity_keeps {r : State} {s : State} (hs : Keeps r s) :
    OutKeeps r (execSvcIdentity s) := by
  unfold execSvcIdentity
  repeat' first
    | with_reducible assumption | with_reducible apply guarded_keeps | with_reducible apply OutKeeps.next
    | exact OutKeeps.refused _ | exact OutKeeps.fault _ | with_reducible apply serve_keeps
    | with_reducible apply svcIdentity_keeps | with_reducible apply foldl_keeps | split | dsimp only | intro _ _ _ | intro _ _
    | intro _ | (with_reducible refine Keeps.mk_over ?_ rfl rfl rfl rfl rfl rfl)

theorem svcVerify_keeps {r : State} {buf : List Byte} {e : List Byte} {s : State} (hs : Keeps r s) :
    Keeps r (svcVerify buf e s) := by
  unfold svcVerify
  repeat' first
    | with_reducible assumption | with_reducible apply completeMbox_keeps | split | dsimp only | intro _ _ _ | intro _ _
    | intro _ | (with_reducible refine Keeps.mk_over ?_ rfl rfl rfl rfl rfl rfl)

theorem execSvcVerify_keeps {r : State} {buf : List Byte} {s : State} (hs : Keeps r s) :
    OutKeeps r (execSvcVerify buf s) := by
  unfold execSvcVerify
  repeat' first
    | with_reducible assumption | with_reducible apply guarded_keeps | with_reducible apply OutKeeps.next
    | exact OutKeeps.refused _ | exact OutKeeps.fault _ | with_reducible apply serve_keeps
    | with_reducible apply svcVerify_keeps | with_reducible apply foldl_keeps | split | dsimp only | intro _ _ _ | intro _ _
    | intro _ | (with_reducible refine Keeps.mk_over ?_ rfl rfl rfl rfl rfl rfl)

theorem svcDeliverBench_keeps {r : State} {buf : List Byte} {e : List Byte} {s : State} (hs : Keeps r s) :
    Keeps r (svcDeliverBench buf e s) := by
  unfold svcDeliverBench
  repeat' first
    | with_reducible assumption | with_reducible apply completeMbox_keeps | with_reducible apply refuseImage_keeps
    | with_reducible apply wr_keeps | with_reducible apply showImage_keeps | with_reducible apply loadCopy_keeps | split
    | dsimp only | intro _ _ _ | intro _ _ | intro _ | (with_reducible refine Keeps.mk_over ?_ rfl rfl rfl rfl rfl rfl)

theorem execSvcDeliverBench_keeps {r : State} {buf : List Byte} {s : State} (hs : Keeps r s) :
    OutKeeps r (execSvcDeliverBench buf s) := by
  unfold execSvcDeliverBench
  repeat' first
    | with_reducible assumption | with_reducible apply guarded_keeps | with_reducible apply OutKeeps.next
    | exact OutKeeps.refused _ | exact OutKeeps.fault _ | with_reducible apply serve_keeps
    | with_reducible apply svcDeliverBench_keeps | with_reducible apply foldl_keeps | split | dsimp only | intro _ _ _
    | intro _ _ | intro _ | (with_reducible refine Keeps.mk_over ?_ rfl rfl rfl rfl rfl rfl)

theorem noteHandover_keeps {r : State} {result : Nat} {s : State} (hs : Keeps r s) :
    Keeps r (noteHandover result s) := by
  unfold noteHandover
  repeat' first
    | with_reducible assumption | with_reducible apply wr_keeps | with_reducible apply foldl_keeps | split | dsimp only
    | intro _ _ _ | intro _ _ | intro _ | (with_reducible refine Keeps.mk_over ?_ rfl rfl rfl rfl rfl rfl)

theorem svcHandover_keeps {r : State} {buf : List Byte} {e : List Byte} {s : State} (hs : Keeps r s) :
    Keeps r (svcHandover buf e s) := by
  unfold svcHandover
  repeat' first
    | with_reducible assumption | with_reducible apply completeMbox_keeps | with_reducible apply noteHandover_keeps
    | with_reducible apply refuseImage_keeps | with_reducible apply loadCopy_keeps | split | dsimp only | intro _ _ _
    | intro _ _ | intro _ | (with_reducible refine Keeps.mk_over ?_ rfl rfl rfl rfl rfl rfl)

theorem execSvcHandover_keeps {r : State} {buf : List Byte} {s : State} (hs : Keeps r s) :
    OutKeeps r (execSvcHandover buf s) := by
  unfold execSvcHandover
  repeat' first
    | with_reducible assumption | with_reducible apply guarded_keeps | with_reducible apply OutKeeps.next
    | exact OutKeeps.refused _ | exact OutKeeps.fault _ | with_reducible apply serve_keeps
    | with_reducible apply svcHandover_keeps | with_reducible apply foldl_keeps | split | dsimp only | intro _ _ _ | intro _ _
    | intro _ | (with_reducible refine Keeps.mk_over ?_ rfl rfl rfl rfl rfl rfl)

theorem swapPair_keeps {r : State} {s : State} (hs : Keeps r s) :
    Keeps r (swapPair s) := by
  unfold swapPair
  repeat' first
    | with_reducible assumption | with_reducible apply wr_keeps | with_reducible apply foldl_keeps | split | dsimp only
    | intro _ _ _ | intro _ _ | intro _ | (with_reducible refine Keeps.mk_over ?_ rfl rfl rfl rfl rfl rfl)

theorem newBenchReady_keeps {r : State} {s : State} (hs : Keeps r s) :
    Keeps r (newBenchReady s) := by
  unfold newBenchReady
  repeat' first
    | with_reducible assumption | with_reducible apply swapPair_keeps | with_reducible apply wr_keeps | split | dsimp only
    | intro _ _ _ | intro _ _ | intro _ | (with_reducible refine Keeps.mk_over ?_ rfl rfl rfl rfl rfl rfl)

theorem execNewBenchReady_keeps {r : State} {s : State} (hs : Keeps r s) :
    OutKeeps r (execNewBenchReady s) := by
  unfold execNewBenchReady
  repeat' first
    | with_reducible assumption | with_reducible apply guarded_keeps | with_reducible apply OutKeeps.next
    | exact OutKeeps.refused _ | exact OutKeeps.fault _ | with_reducible apply onlyIf_keeps
    | with_reducible apply newBenchReady_keeps | with_reducible apply foldl_keeps | split | dsimp only | intro _ _ _ | intro _ _
    | intro _ | (with_reducible refine Keeps.mk_over ?_ rfl rfl rfl rfl rfl rfl)

theorem oldBenchQuiesced_keeps {r : State} {s : State} (hs : Keeps r s) :
    Keeps r (oldBenchQuiesced s) := by
  unfold oldBenchQuiesced
  repeat' first
    | with_reducible assumption | with_reducible apply swapPair_keeps | split | dsimp only | intro _ _ _ | intro _ _ | intro _
    | (with_reducible refine Keeps.mk_over ?_ rfl rfl rfl rfl rfl rfl)

theorem execOldBenchQuiesced_keeps {r : State} {s : State} (hs : Keeps r s) :
    OutKeeps r (execOldBenchQuiesced s) := by
  unfold execOldBenchQuiesced
  repeat' first
    | with_reducible assumption | with_reducible apply guarded_keeps | with_reducible apply OutKeeps.next
    | exact OutKeeps.refused _ | exact OutKeeps.fault _ | with_reducible apply onlyIf_keeps
    | with_reducible apply oldBenchQuiesced_keeps | split | dsimp only | intro _ _ _ | intro _ _ | intro _
    | (with_reducible refine Keeps.mk_over ?_ rfl rfl rfl rfl rfl rfl)

theorem benchRecord_keeps {r : State} {cause : Nat} {warm : Bool} {s : State} (hs : Keeps r s) :
    Keeps r (benchRecord cause warm s) := by
  unfold benchRecord
  repeat' first
    | with_reducible assumption | with_reducible apply writeRec_keeps | split | dsimp only | intro _ _ _ | intro _ _ | intro _
    | (with_reducible refine Keeps.mk_over ?_ rfl rfl rfl rfl rfl rfl)

theorem newBenchRunning_keeps {r : State} {s : State} (hs : Keeps r s) :
    Keeps r (newBenchRunning s) := by
  unfold newBenchRunning
  repeat' first
    | with_reducible assumption | with_reducible apply incX_keeps | with_reducible apply wr_keeps
    | with_reducible apply emergency_keeps | with_reducible apply raise_keeps | with_reducible apply benchRecord_keeps
    | with_reducible apply benchRuns_keeps | with_reducible apply showImage_keeps | with_reducible apply endService_keeps
    | with_reducible apply noteHandover_keeps | split | dsimp only | intro _ _ _ | intro _ _ | intro _
    | (with_reducible refine Keeps.mk_over ?_ rfl rfl rfl rfl rfl rfl)

theorem execNewBenchRunning_keeps {r : State} {s : State} (hs : Keeps r s) :
    OutKeeps r (execNewBenchRunning s) := by
  unfold execNewBenchRunning
  repeat' first
    | with_reducible assumption | with_reducible apply guarded_keeps | with_reducible apply OutKeeps.next
    | exact OutKeeps.refused _ | exact OutKeeps.fault _ | with_reducible apply onlyIf_keeps
    | with_reducible apply newBenchRunning_keeps | with_reducible apply foldl_keeps | split | dsimp only | intro _ _ _
    | intro _ _ | intro _ | (with_reducible refine Keeps.mk_over ?_ rfl rfl rfl rfl rfl rfl)

theorem firmwareWarm_keeps {r : State} {cause : Nat} {s : State} (hs : Keeps r s) :
    Keeps r (firmwareWarm cause s) := by
  unfold firmwareWarm
  repeat' first
    | with_reducible assumption | with_reducible apply benchRecord_keeps | with_reducible apply warmRequest_keeps
    | with_reducible apply emergency_keeps | split | dsimp only | intro _ _ _ | intro _ _ | intro _
    | (with_reducible refine Keeps.mk_over ?_ rfl rfl rfl rfl rfl rfl)

theorem handoverTimeout_keeps {r : State} {s : State} (hs : Keeps r s) :
    Keeps r (handoverTimeout s) := by
  unfold handoverTimeout
  repeat' first
    | with_reducible assumption | with_reducible apply firmwareWarm_keeps | with_reducible apply endService_keeps
    | with_reducible apply raise_keeps | with_reducible apply noteHandover_keeps | with_reducible apply swapPair_keeps | split
    | dsimp only | intro _ _ _ | intro _ _ | intro _ | (with_reducible refine Keeps.mk_over ?_ rfl rfl rfl rfl rfl rfl)

theorem execHandoverTimeout_keeps {r : State} {s : State} (hs : Keeps r s) :
    OutKeeps r (execHandoverTimeout s) := by
  unfold execHandoverTimeout
  repeat' first
    | with_reducible assumption | with_reducible apply guarded_keeps | with_reducible apply OutKeeps.next
    | exact OutKeeps.refused _ | exact OutKeeps.fault _ | with_reducible apply onlyIf_keeps
    | with_reducible apply handoverTimeout_keeps | with_reducible apply foldl_keeps | split | dsimp only | intro _ _ _
    | intro _ _ | intro _ | (with_reducible refine Keeps.mk_over ?_ rfl rfl rfl rfl rfl rfl)

theorem emergency_keeps {r : State} {cause : Nat} {s : State} (hs : Keeps r s) :
    Keeps r (emergency cause s) := by
  have ht : Keeps r (if decide (s.fw.phase ≠ 0) && s.fw.emergency.isNone then endService 5 0 0 (noteHandover 4 s) else s) := by
    split
    · exact endService_keeps (noteHandover_keeps hs)
    · exact hs
  unfold emergency
  extract_lets again t src u
  have hu : Keeps r u := Keeps.mk_over (s := t) ht rfl rfl rfl rfl rfl rfl
  split
  · exact firmwareWarm_keeps hu
  · exact wr_keeps (Keeps.mk_over (s := u) hu rfl rfl rfl rfl rfl rfl)

theorem execBenchEmergencyRestart_keeps {r : State} {cause : Nat} {s : State} (hs : Keeps r s) :
    OutKeeps r (execBenchEmergencyRestart cause s) := by
  unfold execBenchEmergencyRestart
  repeat' first
    | with_reducible assumption | with_reducible apply guarded_keeps | with_reducible apply OutKeeps.next
    | exact OutKeeps.refused _ | exact OutKeeps.fault _ | with_reducible apply onlyIf_keeps
    | with_reducible apply emergency_keeps | with_reducible apply foldl_keeps | split | dsimp only | intro _ _ _ | intro _ _
    | intro _ | (with_reducible refine Keeps.mk_over ?_ rfl rfl rfl rfl rfl rfl)

theorem execMgmtProtectionFault_keeps {r : State} {s : State} (hs : Keeps r s) :
    OutKeeps r (execMgmtProtectionFault s) := by
  unfold execMgmtProtectionFault
  repeat' first
    | with_reducible assumption | with_reducible apply guarded_keeps | with_reducible apply OutKeeps.next
    | exact OutKeeps.refused _ | exact OutKeeps.fault _ | with_reducible apply onlyIf_keeps
    | with_reducible apply emergency_keeps | with_reducible apply stopBench_keeps | with_reducible apply foldl_keeps | split
    | dsimp only | intro _ _ _ | intro _ _ | intro _ | (with_reducible refine Keeps.mk_over ?_ rfl rfl rfl rfl rfl rfl)

theorem hallmarkFails_keeps {r : State} {addr : Nat} {s : State} (hs : Keeps r s) :
    Keeps r (hallmarkFails addr s) := by
  unfold hallmarkFails
  repeat' first
    | with_reducible assumption | with_reducible apply raise_keeps | with_reducible apply writeRec_keeps
    | with_reducible apply wr_keeps | split | dsimp only | intro _ _ _ | intro _ _ | intro _
    | (with_reducible refine Keeps.mk_over ?_ rfl rfl rfl rfl rfl rfl)

theorem hallmarkBack_keeps {r : State} {bad : List (Nat × Nat)} {s : State} (hs : Keeps r s) :
    Keeps r (hallmarkBack bad s) := by
  unfold hallmarkBack
  repeat' first
    | with_reducible assumption | with_reducible apply foldOver_keeps | with_reducible apply goldenDigestCheck_keeps
    | with_reducible apply wr_keeps | split | dsimp only | intro _ _ _ | intro _ _ | intro _
    | (with_reducible refine Keeps.mk_over ?_ rfl rfl rfl rfl rfl rfl)

theorem hallmarkRestart_keeps {r : State} {addr : Nat} {stage : HmkStage} {s : State} (hs : Keeps r s) :
    Keeps r (hallmarkRestart addr stage s) := by
  unfold hallmarkRestart
  repeat' first
    | with_reducible assumption | with_reducible apply hallmarkBack_keeps | with_reducible apply hallmarkFails_keeps | split
    | dsimp only | intro _ _ _ | intro _ _ | intro _ | (with_reducible refine Keeps.mk_over ?_ rfl rfl rfl rfl rfl rfl)

theorem execHallmarkRestart_keeps {r : State} {addr : Nat} {stage : HmkStage} {s : State} (hs : Keeps r s) :
    OutKeeps r (execHallmarkRestart addr stage s) := by
  unfold execHallmarkRestart
  repeat' first
    | with_reducible assumption | with_reducible apply guarded_keeps | with_reducible apply OutKeeps.next
    | exact OutKeeps.refused _ | exact OutKeeps.fault _ | with_reducible apply hallmarkRestart_keeps | split | dsimp only
    | intro _ _ _ | intro _ _ | intro _ | (with_reducible refine Keeps.mk_over ?_ rfl rfl rfl rfl rfl rfl)

theorem wdogKick_keeps {r : State} {w : Window} {v : Word} {s : State} (hs : Keeps r s) :
    Keeps r (wdogKick w v s) := by
  unfold wdogKick
  repeat' first
    | with_reducible assumption | with_reducible apply accessError_keeps | with_reducible apply foldl_keeps | split | dsimp only
    | intro _ _ _ | intro _ _ | intro _ | (with_reducible refine Keeps.mk_over ?_ rfl rfl rfl rfl rfl rfl)

theorem execWdogKick_keeps {r : State} {w : Window} {v : Word} {s : State} (hs : Keeps r s) :
    OutKeeps r (execWdogKick w v s) := by
  unfold execWdogKick
  repeat' first
    | with_reducible assumption | with_reducible apply guarded_keeps | with_reducible apply OutKeeps.next
    | exact OutKeeps.refused _ | exact OutKeeps.fault _ | with_reducible apply writing_keeps
    | with_reducible apply notThroughH_keeps | with_reducible apply wdogKick_keeps | with_reducible apply foldl_keeps | split
    | dsimp only | intro _ _ _ | intro _ _ | intro _ | (with_reducible refine Keeps.mk_over ?_ rfl rfl rfl rfl rfl rfl)

theorem execWdogWarning_keeps {r : State} {s : State} (hs : Keeps r s) :
    OutKeeps r (execWdogWarning s) := by
  unfold execWdogWarning
  repeat' first
    | with_reducible assumption | with_reducible apply guarded_keeps | with_reducible apply OutKeeps.next
    | exact OutKeeps.refused _ | exact OutKeeps.fault _ | with_reducible apply onlyIf_keeps | with_reducible apply raise_keeps
    | with_reducible apply foldl_keeps | split | dsimp only | intro _ _ _ | intro _ _ | intro _
    | (with_reducible refine Keeps.mk_over ?_ rfl rfl rfl rfl rfl rfl)

theorem execWdogExpire_keeps {r : State} {s : State} (hs : Keeps r s) :
    OutKeeps r (execWdogExpire s) := by
  unfold execWdogExpire
  repeat' first
    | with_reducible assumption | with_reducible apply guarded_keeps | with_reducible apply OutKeeps.next
    | exact OutKeeps.refused _ | exact OutKeeps.fault _ | with_reducible apply onlyIf_keeps
    | with_reducible apply emergency_keeps | with_reducible apply foldl_keeps | split | dsimp only | intro _ _ _ | intro _ _
    | intro _ | (with_reducible refine Keeps.mk_over ?_ rfl rfl rfl rfl rfl rfl)

theorem fuseService_keeps {r : State} {m : Nat} {f : State → State} {s : State} (hf : ∀ x0, Keeps r x0 → Keeps r (f x0)) (hs : Keeps r s) :
    Keeps r (fuseService m f s) := by
  unfold fuseService
  repeat' first
    | with_reducible assumption | with_reducible apply hf | with_reducible apply completeMbox_keeps
    | with_reducible apply foldl_keeps | split | dsimp only | intro _ _ _ | intro _ _ | intro _
    | (with_reducible refine Keeps.mk_over ?_ rfl rfl rfl rfl rfl rfl)

theorem svcEnrol_keeps {r : State} {buf : List Byte} {ok : Bool} {e : List Byte} {s : State} (hs : Keeps r s) :
    Keeps r (svcEnrol buf ok e s) := by
  unfold svcEnrol
  split
  · exact completeMbox_keeps hs
  · next h0 =>
    extract_lets ev reason t
    have ht : Keeps r t := satX_keeps hs
    have hf : t.fw = s.fw := rfl
    split
    · exact completeMbox_keeps (refuseImage_keeps hs)
    · refine ht.trans ⟨rfl, rfl, List.prefix_rfl, Nat.le_refl _, ⟨Nat.le_refl _, id, id, fun h1 h2 => absurd ?_ h0⟩, id⟩
      rw [hf] at h1 h2
      unfold ownerState
      split
      · decide
      · split
        · decide
        · rw [if_pos ⟨h1, h2⟩]; decide

theorem execSvcEnrol_keeps {r : State} {buf : List Byte} {ok : Bool} {s : State} (hs : Keeps r s) :
    OutKeeps r (execSvcEnrol buf ok s) := by
  unfold execSvcEnrol
  repeat' first
    | with_reducible assumption | with_reducible apply guarded_keeps | with_reducible apply OutKeeps.next
    | exact OutKeeps.refused _ | exact OutKeeps.fault _ | with_reducible apply serve_keeps
    | with_reducible apply fuseService_keeps | with_reducible apply svcEnrol_keeps | with_reducible apply foldl_keeps | split
    | dsimp only | intro _ _ _ | intro _ _ | intro _ | (with_reducible refine Keeps.mk_over ?_ rfl rfl rfl rfl rfl rfl)

theorem svcRevoke_keeps {r : State} {buf : List Byte} {e : List Byte} {s : State} (hs : Keeps r s) :
    Keeps r (svcRevoke buf e s) := by
  have blown : Keeps r { s with fw := { s.fw with ownerRevoked := true } } :=
    hs.trans ⟨rfl, rfl, List.prefix_rfl, Nat.le_refl _, ⟨Nat.le_refl _, id, fun _ => rfl, fun _ h => ⟨rfl, h⟩⟩, id⟩
  simp only [svcRevoke]
  split
  · exact completeMbox_keeps (refuseImage_keeps hs)
  · exact completeMbox_keeps (raise_keeps (writeRec_keeps (satX_keeps blown)))

theorem execSvcRevoke_keeps {r : State} {buf : List Byte} {s : State} (hs : Keeps r s) :
    OutKeeps r (execSvcRevoke buf s) := by
  unfold execSvcRevoke
  repeat' first
    | with_reducible assumption | with_reducible apply guarded_keeps | with_reducible apply OutKeeps.next
    | exact OutKeeps.refused _ | exact OutKeeps.fault _ | with_reducible apply serve_keeps
    | with_reducible apply fuseService_keeps | with_reducible apply svcRevoke_keeps | with_reducible apply foldl_keeps | split
    | dsimp only | intro _ _ _ | intro _ _ | intro _ | (with_reducible refine Keeps.mk_over ?_ rfl rfl rfl rfl rfl rfl)

theorem svcRollback_keeps {r : State} {e : List Byte} {s : State} (hs : Keeps r s) : Keeps r (svcRollback e s) := by
  simp only [svcRollback]
  split
  · exact completeMbox_keeps hs
  · split
    · exact completeMbox_keeps hs
    · exact hs.trans ⟨rfl, rfl, List.prefix_rfl, Nat.le_refl _, ⟨Nat.le_refl _, id, id, fun _ _ => ⟨rfl, rfl⟩⟩, id⟩

theorem execSvcRollback_keeps {r : State} {s : State} (hs : Keeps r s) :
    OutKeeps r (execSvcRollback s) := by
  unfold execSvcRollback
  repeat' first
    | with_reducible assumption | with_reducible apply guarded_keeps | with_reducible apply OutKeeps.next
    | exact OutKeeps.refused _ | exact OutKeeps.fault _ | with_reducible apply serve_keeps
    | with_reducible apply fuseService_keeps | with_reducible apply svcRollback_keeps | with_reducible apply foldl_keeps | split
    | dsimp only | intro _ _ _ | intro _ _ | intro _ | (with_reducible refine Keeps.mk_over ?_ rfl rfl rfl rfl rfl rfl)

theorem enrolEnds_keeps {r : State} {ok : Bool} {s : State} (he : enrolling s.fw = true) (hs : Keeps r s) :
    Keeps r (enrolEnds ok s) := by
  have ended : ∀ (v : Bool) (h : Nat), (s.fw.ownerValid = true → v = true) →
      Keeps r { s with fw := { s.fw with fusing := none, ownerValid := v, ownerHash := h } } := fun v h hv =>
    hs.trans ⟨rfl, rfl, List.prefix_rfl, Nat.le_refl _, ⟨Nat.le_refl _, hv, id, fun _ h => by simp [he] at h⟩, id⟩
  unfold enrolEnds
  split
  · exact endService_keeps (raise_keeps (writeRec_keeps (ended true s.fw.ownerHash (fun _ => rfl))))
  · exact endService_keeps (raise_keeps (ended s.fw.ownerValid (max 1 (Config.misfused s.fw.ownerHash)) id))

theorem rollbackFuse_keeps {r : State} {before : Nat} {target : Nat} {s : State} (hs : Keeps r s) :
    Keeps r (rollbackFuse before target s) := by
  have h1 : Keeps r { s with fw := { s.fw with rollback := s.fw.rollback + 1 } } :=
    hs.trans ⟨rfl, rfl, List.prefix_rfl, Nat.le_refl _, ⟨Nat.le_succ _, id, id, fun _ h => ⟨rfl, h⟩⟩, id⟩
  unfold rollbackFuse
  extract_lets src t
  have ht : Keeps r t := satX_keeps h1
  clear_value t
  split
  · exact ht
  · exact endService_keeps (raise_keeps (writeRec_keeps
      (ht.trans ⟨rfl, rfl, List.prefix_rfl, Nat.le_refl _, ⟨Nat.le_refl _, id, id, fun _ _ => ⟨rfl, rfl⟩⟩, id⟩)))

theorem fuseTick_keeps {r : State} {s : State} (hs : Keeps r s) :
    Keeps r (fuseTick s) := by
  unfold fuseTick
  split
  · exact hs
  · next e => exact enrolEnds_keeps (by unfold enrolling; rw [e]) hs
  · exact rollbackFuse_keeps hs

theorem opTimeTick_keeps {r : State} {s : State} (hs : Keeps r s) :
    Keeps r (opTimeTick s) := by
  unfold opTimeTick
  repeat' first
    | with_reducible assumption | with_reducible apply fuseTick_keeps | split | dsimp only | intro _ _ _ | intro _ _ | intro _
    | (with_reducible refine Keeps.mk_over ?_ rfl rfl rfl rfl rfl rfl)

theorem execOpTimeTick_keeps {r : State} {s : State} (hs : Keeps r s) :
    OutKeeps r (execOpTimeTick s) := by
  unfold execOpTimeTick
  repeat' first
    | with_reducible assumption | with_reducible apply guarded_keeps | with_reducible apply OutKeeps.next
    | exact OutKeeps.refused _ | exact OutKeeps.fault _ | with_reducible apply onlyIf_keeps
    | with_reducible apply opTimeTick_keeps | split | dsimp only | intro _ _ _ | intro _ _ | intro _
    | (with_reducible refine Keeps.mk_over ?_ rfl rfl rfl rfl rfl rfl)

theorem svcClearLock_keeps {r : State} {e : List Byte} {s : State} (hs : Keeps r s) :
    Keeps r (svcClearLock e s) := by
  unfold svcClearLock
  repeat' first
    | with_reducible assumption | with_reducible apply completeMbox_keeps | with_reducible apply putOwner_keeps
    | with_reducible apply foldl_keeps | split | dsimp only | intro _ _ _ | intro _ _ | intro _
    | (with_reducible refine Keeps.mk_over ?_ rfl rfl rfl rfl rfl rfl)

theorem execSvcClearLock_keeps {r : State} {s : State} (hs : Keeps r s) :
    OutKeeps r (execSvcClearLock s) := by
  unfold execSvcClearLock
  repeat' first
    | with_reducible assumption | with_reducible apply guarded_keeps | with_reducible apply OutKeeps.next
    | exact OutKeeps.refused _ | exact OutKeeps.fault _ | with_reducible apply serve_keeps
    | with_reducible apply svcClearLock_keeps | with_reducible apply foldl_keeps | split | dsimp only | intro _ _ _ | intro _ _
    | intro _ | (with_reducible refine Keeps.mk_over ?_ rfl rfl rfl rfl rfl rfl)

theorem svcUnknown_keeps {r : State} {m : Nat} {s : State} (hs : Keeps r s) :
    Keeps r (svcUnknown m s) := by
  unfold svcUnknown
  repeat' first
    | with_reducible assumption | with_reducible apply completeMbox_keeps | with_reducible apply foldl_keeps | split
    | dsimp only | intro _ _ _ | intro _ _ | intro _ | (with_reducible refine Keeps.mk_over ?_ rfl rfl rfl rfl rfl rfl)

theorem execSvcUnknown_keeps {r : State} {m : Nat} {s : State} (hs : Keeps r s) :
    OutKeeps r (execSvcUnknown m s) := by
  unfold execSvcUnknown
  repeat' first
    | with_reducible assumption | with_reducible apply guarded_keeps | with_reducible apply OutKeeps.next
    | exact OutKeeps.refused _ | exact OutKeeps.fault _ | with_reducible apply svcUnknown_keeps
    | with_reducible apply foldl_keeps | split | dsimp only | intro _ _ _ | intro _ _ | intro _
    | (with_reducible refine Keeps.mk_over ?_ rfl rfl rfl rfl rfl rfl)

theorem patchNext_keeps {r : State} {s : State} (hs : Keeps r s) :
    Keeps r (patchNext s) := by
  unfold patchNext
  repeat' first
    | with_reducible assumption | with_reducible apply beginBankLoad_keeps | with_reducible apply foldOver_keeps
    | with_reducible apply wrC_keeps | with_reducible apply commitNow_keeps | with_reducible apply count_keeps
    | with_reducible apply endService_keeps | split | dsimp only | intro _ _ _ | intro _ _ | intro _
    | (with_reducible refine Keeps.mk_over ?_ rfl rfl rfl rfl rfl rfl)

theorem svcPatch_keeps {r : State} {buf : List Byte} {e : List Byte} {s : State} (hs : Keeps r s) :
    Keeps r (svcPatch buf e s) := by
  unfold svcPatch
  repeat' first
    | with_reducible assumption | with_reducible apply completeMbox_keeps | with_reducible apply refuseImage_keeps
    | with_reducible apply patchNext_keeps | split | dsimp only | intro _ _ _ | intro _ _ | intro _
    | (with_reducible refine Keeps.mk_over ?_ rfl rfl rfl rfl rfl rfl)

theorem execSvcPatch_keeps {r : State} {buf : List Byte} {s : State} (hs : Keeps r s) :
    OutKeeps r (execSvcPatch buf s) := by
  unfold execSvcPatch
  repeat' first
    | with_reducible assumption | with_reducible apply guarded_keeps | with_reducible apply OutKeeps.next
    | exact OutKeeps.refused _ | exact OutKeeps.fault _ | with_reducible apply serve_keeps | with_reducible apply svcPatch_keeps
    | with_reducible apply foldl_keeps | split | dsimp only | intro _ _ _ | intro _ _ | intro _
    | (with_reducible refine Keeps.mk_over ?_ rfl rfl rfl rfl rfl rfl)

end Sys2Proof.Machine
end

