-- ==== Sys2Proof/Laws/MioKeeps.lean ====
section
/-! SUPPORT. Every operation of Machine/Mio.lean keeps what `Keeps` speaks of. -/

-- The alternatives of each proof's `first` are the same list; not every alternative is used in every proof.
set_option linter.unreachableTactic false
set_option linter.unusedTactic false

namespace Sys2Proof.Machine

theorem tempRead_keeps {r : State} {temps : List Int} {s : State} (hs : Keeps r s) :
    Keeps r (tempRead temps s) := by
  unfold tempRead
  repeat' first
    | with_reducible assumption | with_reducible apply foldOver_keeps | with_reducible apply wrX_keeps
    | with_reducible apply wr_keeps | with_reducible apply raise_keeps | split | dsimp only | intro _ _ _ | intro _ _ | intro _
    | (with_reducible refine Keeps.mk_over ?_ rfl rfl rfl rfl rfl rfl)

theorem execTempRead_keeps {r : State} {temps : List Int} {s : State} (hs : Keeps r s) :
    OutKeeps r (execTempRead temps s) := by
  unfold execTempRead
  repeat' first
    | with_reducible assumption | with_reducible apply guarded_keeps | with_reducible apply OutKeeps.next
    | exact OutKeeps.refused _ | exact OutKeeps.fault _ | with_reducible apply onlyIf_keeps
    | with_reducible apply tempRead_keeps | split | dsimp only | intro _ _ _ | intro _ _ | intro _
    | (with_reducible refine Keeps.mk_over ?_ rfl rfl rfl rfl rfl rfl)

theorem gpioEdge_keeps {r : State} {pin : Nat} {level : Bool} {s : State} (hs : Keeps r s) :
    Keeps r (gpioEdge pin level s) := by
  unfold gpioEdge
  repeat' first
    | with_reducible assumption | with_reducible apply wr_keeps | with_reducible apply raise_keeps | split | dsimp only
    | (with_reducible refine Keeps.mk_over ?_ rfl rfl rfl rfl rfl rfl)

theorem execGpioEdge_keeps {r : State} {pin : Nat} {level : Bool} {s : State} (hs : Keeps r s) :
    OutKeeps r (execGpioEdge pin level s) := by
  unfold execGpioEdge
  repeat' first
    | with_reducible assumption | with_reducible apply guarded_keeps | with_reducible apply OutKeeps.next
    | exact OutKeeps.refused _ | exact OutKeeps.fault _ | with_reducible apply onlyIf_keeps
    | with_reducible apply gpioEdge_keeps | split | dsimp only | intro _ _ _ | intro _ _ | intro _
    | (with_reducible refine Keeps.mk_over ?_ rfl rfl rfl rfl rfl rfl)

theorem i2cCmdWrite_keeps {r : State} {k : Nat} {v : Word} {s : State} (hs : Keeps r s) :
    Keeps r (i2cCmdWrite k v s) := by
  unfold i2cCmdWrite
  repeat' first
    | with_reducible assumption | with_reducible apply wrX_keeps | with_reducible apply emit_keeps | split | dsimp only
    | (with_reducible refine Keeps.mk_over ?_ rfl rfl rfl rfl rfl rfl)

theorem execI2cGo_keeps {r : State} {w : Window} {k : Nat} {v : Word} {s : State} (hs : Keeps r s) :
    OutKeeps r (execI2cGo w k v s) := by
  unfold execI2cGo
  repeat' first
    | with_reducible assumption | with_reducible apply guarded_keeps | with_reducible apply OutKeeps.next
    | exact OutKeeps.refused _ | exact OutKeeps.fault _ | with_reducible apply writing_keeps
    | with_reducible apply i2cCmdWrite_keeps | split | dsimp only | intro _ _ _ | intro _ _ | intro _
    | (with_reducible refine Keeps.mk_over ?_ rfl rfl rfl rfl rfl rfl)

theorem i2cDone_keeps {r : State} {k : Nat} {result : Nat} {data : Word} {s : State} (hs : Keeps r s) :
    Keeps r (i2cDone k result data s) := by
  unfold i2cDone
  repeat' first
    | with_reducible assumption | with_reducible apply wrX_keeps | with_reducible apply emit_keeps
    | with_reducible apply raise_keeps | split | dsimp only | (with_reducible refine Keeps.mk_over ?_ rfl rfl rfl rfl rfl rfl)

theorem execI2cDone_keeps {r : State} {k : Nat} {result : Nat} {data : Word} {s : State} (hs : Keeps r s) :
    OutKeeps r (execI2cDone k result data s) := by
  unfold execI2cDone
  repeat' first
    | with_reducible assumption | with_reducible apply guarded_keeps | with_reducible apply OutKeeps.next
    | exact OutKeeps.refused _ | exact OutKeeps.fault _ | with_reducible apply onlyIf_keeps | with_reducible apply i2cDone_keeps
    | split | dsimp only | intro _ _ _ | intro _ _ | intro _ | (with_reducible refine Keeps.mk_over ?_ rfl rfl rfl rfl rfl rfl)

theorem mdioCmdWrite_keeps {r : State} {v : Word} {s : State} (hs : Keeps r s) :
    Keeps r (mdioCmdWrite v s) := by
  unfold mdioCmdWrite
  repeat' first
    | with_reducible assumption | with_reducible apply wr_keeps | with_reducible apply emit_keeps | split | dsimp only
    | (with_reducible refine Keeps.mk_over ?_ rfl rfl rfl rfl rfl rfl)

theorem execMdioGo_keeps {r : State} {w : Window} {v : Word} {s : State} (hs : Keeps r s) :
    OutKeeps r (execMdioGo w v s) := by
  unfold execMdioGo
  repeat' first
    | with_reducible assumption | with_reducible apply guarded_keeps | with_reducible apply OutKeeps.next
    | exact OutKeeps.refused _ | exact OutKeeps.fault _ | with_reducible apply writing_keeps
    | with_reducible apply mdioCmdWrite_keeps | split | dsimp only | intro _ _ _ | intro _ _ | intro _
    | (with_reducible refine Keeps.mk_over ?_ rfl rfl rfl rfl rfl rfl)

theorem mdioDone_keeps {r : State} {noTurn : Bool} {data : Nat} {s : State} (hs : Keeps r s) :
    Keeps r (mdioDone noTurn data s) := by
  unfold mdioDone
  repeat' first
    | with_reducible assumption | with_reducible apply wr_keeps | with_reducible apply raise_keeps | split | dsimp only
    | (with_reducible refine Keeps.mk_over ?_ rfl rfl rfl rfl rfl rfl)

theorem execMdioDone_keeps {r : State} {noTurn : Bool} {data : Nat} {s : State} (hs : Keeps r s) :
    OutKeeps r (execMdioDone noTurn data s) := by
  unfold execMdioDone
  repeat' first
    | with_reducible assumption | with_reducible apply guarded_keeps | with_reducible apply OutKeeps.next
    | exact OutKeeps.refused _ | exact OutKeeps.fault _ | with_reducible apply onlyIf_keeps
    | with_reducible apply mdioDone_keeps | split | dsimp only | intro _ _ _ | intro _ _ | intro _
    | (with_reducible refine Keeps.mk_over ?_ rfl rfl rfl rfl rfl rfl)

theorem execUartRxChar_keeps {r : State} {ch : Nat} {lost : Bool} {s : State} (hs : Keeps r s) :
    OutKeeps r (execUartRxChar ch lost s) := by
  unfold execUartRxChar
  repeat' first
    | with_reducible assumption | with_reducible apply guarded_keeps | with_reducible apply OutKeeps.next
    | exact OutKeeps.refused _ | exact OutKeeps.fault _ | with_reducible apply raise_keeps | with_reducible apply emit_keeps
    | split | dsimp only | (with_reducible refine Keeps.mk_over ?_ rfl rfl rfl rfl rfl rfl)

end Sys2Proof.Machine
end

