-- ==== Sys2Proof/Laws/RecoveryKeeps.lean ====
section
/-! SUPPORT. Every operation of Machine/Recovery.lean keeps what `Keeps` speaks of. -/

-- The alternatives of each proof's `first` are the same list; not every alternative is used in every proof.
set_option linter.unreachableTactic false
set_option linter.unusedTactic false

namespace Sys2Proof.Machine

theorem putErr_keeps {r : State} {k : Nat} {v : Nat} {s : State} (hs : Keeps r s) :
    Keeps r (putErr k v s) := by
  unfold putErr
  repeat' first
    | with_reducible assumption | split | dsimp only | (with_reducible refine Keeps.mk_over ?_ rfl rfl rfl rfl rfl rfl)

theorem retireDue_keeps {r : State} {p : Nat} {i : Nat} {s : State} (hs : Keeps r s) :
    Keeps r (retireDue p i s) := by
  unfold retireDue
  repeat' first
    | with_reducible assumption | with_reducible apply retireLimit_keeps | with_reducible apply retireBuffer_keeps | split
    | dsimp only | intro _ _ _ | intro _ _ | intro _ | (with_reducible refine Keeps.mk_over ?_ rfl rfl rfl rfl rfl rfl)

theorem bufferUnc_keeps {r : State} {p : Nat} {i : Nat} {s : State} (hs : Keeps r s) :
    Keeps r (bufferUnc p i s) := by
  unfold bufferUnc
  repeat' first
    | with_reducible assumption | with_reducible apply putErr_keeps | with_reducible apply retireDue_keeps | split | dsimp only
    | (with_reducible refine Keeps.mk_over ?_ rfl rfl rfl rfl rfl rfl)

theorem bufferCorr_keeps {r : State} {p : Nat} {i : Nat} {w : Nat} {s : State} (hs : Keeps r s) :
    Keeps r (bufferCorr p i w s) := by
  unfold bufferCorr
  repeat' first
    | with_reducible assumption | with_reducible apply putErr_keeps | with_reducible apply retireDue_keeps | split | dsimp only
    | intro _ _ _ | intro _ _ | intro _ | (with_reducible refine Keeps.mk_over ?_ rfl rfl rfl rfl rfl rfl)

theorem markFrame_keeps {r : State} {i : Nat} {s : State} (hs : Keeps r s) :
    Keeps r (markFrame i s) := by
  unfold markFrame
  repeat' first
    | with_reducible assumption | with_reducible apply modFrame_keeps | split | dsimp only
    | (with_reducible refine Keeps.mk_over ?_ rfl rfl rfl rfl rfl rfl)

theorem bufferAction_keeps {r : State} {p : Nat} {i : Nat} {s : State} (hs : Keeps r s) :
    Keeps r (bufferAction p i s) := by
  unfold bufferAction
  repeat' first
    | with_reducible assumption | with_reducible apply foldOver_keeps | with_reducible apply bufferUnc_keeps
    | with_reducible apply markFrame_keeps | split | dsimp only | intro _ _ _ | intro _ _ | intro _
    | (with_reducible refine Keeps.mk_over ?_ rfl rfl rfl rfl rfl rfl)

theorem recordAction_keeps {r : State} {i : Nat} {s : State} (hs : Keeps r s) :
    Keeps r (recordAction i s) := by
  unfold recordAction
  repeat' first
    | with_reducible assumption | with_reducible apply offerOp_keeps | with_reducible apply lostRecord_keeps | split
    | dsimp only | intro _ _ _ | intro _ _ | intro _ | (with_reducible refine Keeps.mk_over ?_ rfl rfl rfl rfl rfl rfl)

theorem copyLost_keeps {r : State} {area : Nat} {s : State} (hs : Keeps r s) :
    Keeps r (copyLost area s) := by
  unfold copyLost
  repeat' first
    | with_reducible assumption | with_reducible apply onlyIf_keeps | with_reducible apply emergency_keeps | split | dsimp only
    | intro _ _ _ | intro _ _ | intro _ | (with_reducible refine Keeps.mk_over ?_ rfl rfl rfl rfl rfl rfl)

theorem hbmAction_keeps {r : State} {a : Nat} {s : State} (hs : Keeps r s) :
    Keeps r (hbmAction a s) := by
  unfold hbmAction
  repeat' first
    | with_reducible assumption | with_reducible apply recordAction_keeps | with_reducible apply hbmUncorrectable_keeps
    | with_reducible apply offerOp_keeps | with_reducible apply goldenDigestCheck_keeps | with_reducible apply copyLost_keeps
    | with_reducible apply onlyIf_keeps | with_reducible apply emergency_keeps | split | dsimp only | intro _ _ _ | intro _ _
    | intro _ | (with_reducible refine Keeps.mk_over ?_ rfl rfl rfl rfl rfl rfl)

theorem lineAction_keeps {r : State} {i : Nat} {s : State} (hs : Keeps r s) :
    Keeps r (lineAction i s) := by
  unfold lineAction
  repeat' first
    | with_reducible assumption | with_reducible apply raise_keeps | with_reducible apply count_keeps
    | with_reducible apply offerOp_keeps | with_reducible apply lostRecord_keeps | with_reducible apply modLine_keeps
    | with_reducible apply dropLine_keeps | split | dsimp only | intro _ _ _ | intro _ _ | intro _
    | (with_reducible refine Keeps.mk_over ?_ rfl rfl rfl rfl rfl rfl)

theorem scrubAction_keeps {r : State} {x : ScrubWord} {addr : Nat} {s : State} (hs : Keeps r s) :
    Keeps r (scrubAction x addr s) := by
  unfold scrubAction
  repeat' first
    | with_reducible assumption | with_reducible apply hbmAction_keeps | with_reducible apply bufferAction_keeps
    | with_reducible apply lineAction_keeps | with_reducible apply raise_keeps | with_reducible apply lpmStat_keeps
    | with_reducible apply putPool_keeps | with_reducible apply offerOp_keeps | with_reducible apply putHalf_keeps
    | with_reducible apply enqueueL2_keeps | with_reducible apply putL2_keeps | with_reducible apply putNh_keeps
    | with_reducible apply putGroup_keeps | with_reducible apply putMember_keeps | with_reducible apply faultEffects_keeps
    | with_reducible apply enterFault_keeps | with_reducible apply hallmarkFails_keeps | split | dsimp only | intro _ _ _
    | intro _ _ | intro _ | (with_reducible refine Keeps.mk_over ?_ rfl rfl rfl rfl rfl rfl)

theorem scrubCorrected_keeps {r : State} {x : ScrubWord} {addr : Nat} {s : State} (hs : Keeps r s) :
    Keeps r (scrubCorrected x addr s) := by
  unfold scrubCorrected
  repeat' first
    | with_reducible assumption | with_reducible apply eccCorrected_keeps | with_reducible apply raiseC_keeps
    | with_reducible apply satX_keeps | with_reducible apply raise_keeps | with_reducible apply count_keeps
    | with_reducible apply bufferCorr_keeps | split | dsimp only | intro _ _ _ | intro _ _ | intro _
    | (with_reducible refine Keeps.mk_over ?_ rfl rfl rfl rfl rfl rfl)

theorem scrubUncorrectable_keeps {r : State} {x : ScrubWord} {addr : Nat} {s : State} (hs : Keeps r s) :
    Keeps r (scrubUncorrectable x addr s) := by
  unfold scrubUncorrectable
  repeat' first
    | with_reducible assumption | with_reducible apply scrubAction_keeps | with_reducible apply eccUncorrectable_keeps | split
    | dsimp only | intro _ _ _ | intro _ _ | intro _ | (with_reducible refine Keeps.mk_over ?_ rfl rfl rfl rfl rfl rfl)

theorem passEnds_keeps {r : State} {store : Nat} {s : State} (hs : Keeps r s) :
    Keeps r (passEnds store s) := by
  unfold passEnds
  repeat' first
    | with_reducible assumption | with_reducible apply wrC_keeps | with_reducible apply incX_keeps
    | with_reducible apply raise_keeps | split | dsimp only | intro _ _ _ | intro _ _ | intro _
    | (with_reducible refine Keeps.mk_over ?_ rfl rfl rfl rfl rfl rfl)

theorem scrubRead_keeps {r : State} {x : ScrubWord} {addr : Nat} {o : EccOutcome} {last : Bool} {s : State} (hs : Keeps r s) :
    Keeps r (scrubRead x addr o last s) := by
  unfold scrubRead
  repeat' first
    | with_reducible assumption | with_reducible apply scrubCorrected_keeps | with_reducible apply scrubUncorrectable_keeps
    | with_reducible apply passEnds_keeps | split | dsimp only
    | (with_reducible refine Keeps.mk_over ?_ rfl rfl rfl rfl rfl rfl)

theorem execScrubRead_keeps {r : State} {x : ScrubWord} {addr : Nat} {o : EccOutcome} {last : Bool} {s : State} (hs : Keeps r s) :
    OutKeeps r (execScrubRead x addr o last s) := by
  unfold execScrubRead
  repeat' first
    | with_reducible assumption | with_reducible apply guarded_keeps | with_reducible apply OutKeeps.next
    | exact OutKeeps.refused _ | exact OutKeeps.fault _ | with_reducible apply onlyIf_keeps
    | with_reducible apply scrubRead_keeps | split | dsimp only | intro _ _ _ | intro _ _ | intro _
    | (with_reducible refine Keeps.mk_over ?_ rfl rfl rfl rfl rfl rfl)

theorem hbmRecal_keeps {r : State} {k : Nat} {ok : Bool} {s : State} (hs : Keeps r s) :
    Keeps r (hbmRecal k ok s) := by
  unfold hbmRecal
  repeat' first
    | with_reducible assumption | with_reducible apply hbmStackFault_keeps | split | dsimp only
    | (with_reducible refine Keeps.mk_over ?_ rfl rfl rfl rfl rfl rfl)

theorem execHbmRecal_keeps {r : State} {k : Nat} {ok : Bool} {s : State} (hs : Keeps r s) :
    OutKeeps r (execHbmRecal k ok s) := by
  unfold execHbmRecal
  repeat' first
    | with_reducible assumption | with_reducible apply guarded_keeps | with_reducible apply OutKeeps.next
    | exact OutKeeps.refused _ | exact OutKeeps.fault _ | with_reducible apply onlyIf_keeps
    | with_reducible apply hbmRecal_keeps | split | dsimp only | intro _ _ _ | intro _ _ | intro _
    | (with_reducible refine Keeps.mk_over ?_ rfl rfl rfl rfl rfl rfl)

theorem clearTx_keeps {r : State} {p : Nat} {s : State} (hs : Keeps r s) :
    Keeps r (clearTx p s) := by
  unfold clearTx
  repeat' first
    | with_reducible assumption | with_reducible apply leaveEg_keeps | with_reducible apply modEg_keeps | split | dsimp only
    | intro _ _ _ | intro _ _ | intro _ | (with_reducible refine Keeps.mk_over ?_ rfl rfl rfl rfl rfl rfl)

theorem recoverLoss_keeps {r : State} {t : Target} {s : State} (hs : Keeps r s) :
    Keeps r (recoverLoss t s) := by
  unfold recoverLoss
  repeat' first
    | with_reducible assumption | with_reducible apply dropParsing_keeps | with_reducible apply clearTx_keeps
    | with_reducible apply clearRx_keeps | with_reducible apply dspDiscard_keeps | with_reducible apply fenForced_keeps
    | with_reducible apply swcStarting_keeps | with_reducible apply dropQueued_keeps | with_reducible apply clearChanState_keeps
    | split | dsimp only | intro _ _ _ | intro _ _ | intro _ | (with_reducible refine Keeps.mk_over ?_ rfl rfl rfl rfl rfl rfl)

theorem recoverTarget_keeps {r : State} {t : Target} {s : State} (hs : Keeps r s) :
    Keeps r (recoverTarget t s) := by
  unfold recoverTarget
  repeat' first
    | with_reducible assumption | with_reducible apply recoverLoss_keeps | with_reducible apply noteReset_keeps
    | with_reducible apply modTgt_keeps | with_reducible apply offRows_keeps | with_reducible apply raise_keeps
    | with_reducible apply sat1_keeps | split | dsimp only | intro _ _ _ | intro _ _ | intro _
    | (with_reducible refine Keeps.mk_over ?_ rfl rfl rfl rfl rfl rfl)

theorem recoverGivenUp_keeps {r : State} {t : Target} {s : State} (hs : Keeps r s) :
    Keeps r (recoverGivenUp t s) := by
  unfold recoverGivenUp
  repeat' first
    | with_reducible assumption | with_reducible apply raise_keeps | with_reducible apply sat1_keeps | split | dsimp only
    | (with_reducible refine Keeps.mk_over ?_ rfl rfl rfl rfl rfl rfl)

theorem autoRecover_keeps {r : State} {t : Target} {s : State} (hs : Keeps r s) :
    Keeps r (autoRecover t s) := by
  unfold autoRecover
  repeat' first
    | with_reducible assumption | with_reducible apply recoverGivenUp_keeps | with_reducible apply recoverTarget_keeps | split
    | dsimp only | (with_reducible refine Keeps.mk_over ?_ rfl rfl rfl rfl rfl rfl)

theorem execAutoRecover_keeps {r : State} {t : Target} {s : State} (hs : Keeps r s) :
    OutKeeps r (execAutoRecover t s) := by
  unfold execAutoRecover
  repeat' first
    | with_reducible assumption | with_reducible apply guarded_keeps | with_reducible apply OutKeeps.next
    | exact OutKeeps.refused _ | exact OutKeeps.fault _ | with_reducible apply onlyIf_keeps
    | with_reducible apply autoRecover_keeps | split | dsimp only | intro _ _ _ | intro _ _ | intro _
    | (with_reducible refine Keeps.mk_over ?_ rfl rfl rfl rfl rfl rfl)

end Sys2Proof.Machine
end

