-- ==== Sys2Proof/Laws/RegReadKeeps.lean ====
section
/-! SUPPORT. Every operation of Machine/RegRead.lean keeps what `Keeps` speaks of. -/

-- The alternatives of each proof's `first` are the same list; not every alternative is used in every proof.
set_option linter.unreachableTactic false
set_option linter.unusedTactic false

namespace Sys2Proof.Machine

theorem clearCounters_keeps {r : State} {k : CtrRegs} {c : Nat} {v : Word} {s : State} (hs : Keeps r s) :
    Keeps r (clearCounters k c v s) := by
  unfold clearCounters
  repeat' first
    | with_reducible assumption | with_reducible apply foldOver_keeps | with_reducible apply putCtr_keeps
    | with_reducible apply foldl_keeps | split | dsimp only | intro _ _ _ | intro _ _ | intro _
    | (with_reducible refine Keeps.mk_over ?_ rfl rfl rfl rfl rfl rfl)

theorem dropWrapSnaps_keeps {r : State} {key : Nat} {s : State} (hs : Keeps r s) :
    Keeps r (dropWrapSnaps key s) := by
  unfold dropWrapSnaps
  repeat' first
    | with_reducible assumption | with_reducible apply foldl_keeps | split | dsimp only | intro _ _ _ | intro _ _ | intro _
    | (with_reducible refine Keeps.mk_over ?_ rfl rfl rfl rfl rfl rfl)

theorem clearWrap_keeps {r : State} {key : Nat} {s : State} (hs : Keeps r s) :
    Keeps r (clearWrap key s) := by
  unfold clearWrap
  repeat' first
    | with_reducible assumption | with_reducible apply dropWrapSnaps_keeps | with_reducible apply putWrap_keeps
    | with_reducible apply foldl_keeps | split | dsimp only | intro _ _ _ | intro _ _ | intro _
    | (with_reducible refine Keeps.mk_over ?_ rfl rfl rfl rfl rfl rfl)

theorem clearWraps_keeps {r : State} {k : CtrRegs} {c : Nat} {v : Word} {s : State} (hs : Keeps r s) :
    Keeps r (clearWraps k c v s) := by
  unfold clearWraps
  repeat' first
    | with_reducible assumption | with_reducible apply foldOver_keeps | with_reducible apply clearWrap_keeps
    | with_reducible apply foldl_keeps | split | dsimp only | intro _ _ _ | intro _ _ | intro _
    | (with_reducible refine Keeps.mk_over ?_ rfl rfl rfl rfl rfl rfl)

theorem readWide_keeps {r : State} {w : Window} {off : Nat} {x : Nat} {lo : Nat} {hi : Nat} {s : State} (hs : Keeps r s) :
    Keeps r (readWide w off x lo hi s) := by
  unfold readWide
  repeat' first
    | with_reducible assumption | with_reducible apply putRead_keeps | with_reducible apply foldl_keeps | split | dsimp only
    | intro _ _ _ | intro _ _ | intro _ | (with_reducible refine Keeps.mk_over ?_ rfl rfl rfl rfl rfl rfl)

theorem readNothing_keeps {r : State} {w : Window} {off : Nat} {s : State} (hs : Keeps r s) :
    Keeps r (readNothing w off s) := by
  unfold readNothing
  repeat' first
    | with_reducible assumption | with_reducible apply putRead_keeps | with_reducible apply accessError_keeps
    | with_reducible apply foldl_keeps | split | dsimp only | intro _ _ _ | intro _ _ | intro _
    | (with_reducible refine Keeps.mk_over ?_ rfl rfl rfl rfl rfl rfl)

theorem readBehaviour_keeps {r : State} {w : Window} {b : Block} {off : Nat} {f : State → State} (e : readBehaviour w b off = some f)
    {s : State} (hs : Keeps r s) : Keeps r (f s) := by
  unfold readBehaviour at e
  have key : ∀ {g : State → State}, (∀ s, Keeps r s → Keeps r (g s)) → some g = some f → Keeps r (f s) := by
    intro g hg he
    exact Option.some.inj he ▸ hg s hs
  split at e
  · split at e
    · exact key (fun _ h => timeSnapshot_keeps h) e
    · split at e
      · exact key (fun _ h => captPop_keeps h) e
      · exact nomatch e
  · split at e
    · exact key (fun _ h => txTsPop_keeps h) e
    · exact nomatch e
  · split at e
    · exact key (fun _ h => nodeLoad_keeps h) e
    · split at e
      · exact key (fun _ h => nhLoad_keeps h) e
      · exact nomatch e
  · split at e
    · exact key (fun _ h => gclLoad_keeps h) e
    · exact nomatch e
  · split at e
    · exact key (fun _ h => ringRead_keeps h) e
    · split at e
      · exact key (fun _ h => ringRead_keeps h) e
      · exact nomatch e
  · split at e
    · exact key (fun _ h => bufAccess_keeps h) e
    · exact nomatch e
  · exact nomatch e

theorem readReg_keeps {r : State} {w : Window} {b : Block} {x : RegSpec} {off : Nat} {s : State} (hs : Keeps r s) :
    Keeps r (readReg w b x off s) := by
  unfold readReg
  dsimp only
  split
  · exact putRead_keeps hs
  · split
    · next e => exact readBehaviour_keeps e hs
    · split
      · exact readWide_keeps hs
      · split
        · exact putRead_keeps hs
        · split
          · exact putRead_keeps hs
          · exact putRead_keeps hs

theorem readAt_keeps {r : State} {w : Window} {off : Nat} {s : State} (hs : Keeps r s) :
    Keeps r (readAt w off s) := by
  unfold readAt
  repeat' first
    | with_reducible assumption | with_reducible apply readNothing_keeps | with_reducible apply putRead_keeps
    | with_reducible apply readReg_keeps | with_reducible apply foldl_keeps | split | dsimp only | intro _ _ _ | intro _ _
    | intro _ | (with_reducible refine Keeps.mk_over ?_ rfl rfl rfl rfl rfl rfl)

end Sys2Proof.Machine
end

