-- ==== Sys2Proof/Laws/RegWriteKeeps.lean ====
section
/-! SUPPORT. Every operation of Machine/RegWrite.lean keeps what `Keeps` speaks of. -/

-- The alternatives of each proof's `first` are the same list; not every alternative is used in every proof.
set_option linter.unreachableTactic false
set_option linter.unusedTactic false

namespace Sys2Proof.Machine

theorem checked_keeps {r : State} {ok : Bool} {w : Window} {off : Nat} {f : State → State} {s : State} (hf : ∀ x0, Keeps r x0 → Keeps r (f x0)) (hs : Keeps r s) :
    Keeps r (checked ok w off f s) := by
  unfold checked
  repeat' first
    | with_reducible assumption | with_reducible apply hf | with_reducible apply accessError_keeps | split | dsimp only
    | (with_reducible refine Keeps.mk_over ?_ rfl rfl rfl rfl rfl rfl)

theorem whenOk_keeps {r : State} {ok : Bool} {f : State → State} {s : State} (hf : ∀ x0, Keeps r x0 → Keeps r (f x0)) (hs : Keeps r s) :
    Keeps r (whenOk ok f s) := by
  unfold whenOk
  repeat' first
    | with_reducible assumption | with_reducible apply hf | split | dsimp only
    | (with_reducible refine Keeps.mk_over ?_ rfl rfl rfl rfl rfl rfl)

theorem plain_keeps {r : State} {w : Window} {b : Block} {r0 : RegSpec} {off : Nat} {v : Word} {s : State} (hs : Keeps r s) :
    Keeps r (plain w b r0 off v s) := by
  unfold plain
  repeat' first
    | with_reducible assumption | with_reducible apply storeFields_keeps | split | dsimp only
    | (with_reducible refine Keeps.mk_over ?_ rfl rfl rfl rfl rfl rfl)

theorem writeEvt_keeps {r : State} {w : Window} {r0 : RegSpec} {off : Nat} {v : Word} {s : State} (hs : Keeps r s) :
    Keeps r (writeEvt w r0 off v s) := by
  unfold writeEvt
  repeat' first
    | with_reducible assumption | with_reducible apply checked_keeps | with_reducible apply plain_keeps
    | with_reducible apply suppCountWrite_keeps | with_reducible apply vecRearm_keeps | with_reducible apply autoMaskWrite_keeps
    | with_reducible apply resignal_keeps | split | dsimp only | intro _ _ _ | intro _ _ | intro _
    | (with_reducible refine Keeps.mk_over ?_ rfl rfl rfl rfl rfl rfl)

theorem writeBnc_keeps {r : State} {w : Window} {r0 : RegSpec} {off : Nat} {v : Word} {s : State} (hs : Keeps r s) :
    Keeps r (writeBnc w r0 off v s) := by
  unfold writeBnc
  repeat' first
    | with_reducible assumption | with_reducible apply checked_keeps | with_reducible apply plain_keeps
    | with_reducible apply notThroughH_keeps | with_reducible apply wdogKick_keeps | split | dsimp only | intro _ _ _
    | intro _ _ | intro _ | (with_reducible refine Keeps.mk_over ?_ rfl rfl rfl rfl rfl rfl)

theorem writePwr_keeps {r : State} {w : Window} {r0 : RegSpec} {off : Nat} {v : Word} {s : State} (hs : Keeps r s) :
    Keeps r (writePwr w r0 off v s) := by
  unfold writePwr
  repeat' first
    | with_reducible assumption | with_reducible apply onlyIf_keeps | with_reducible apply plain_keeps
    | with_reducible apply paceLowClear_keeps | split | dsimp only | intro _ _ _ | intro _ _ | intro _
    | (with_reducible refine Keeps.mk_over ?_ rfl rfl rfl rfl rfl rfl)

theorem writeLan_keeps {r : State} {w : Window} {r0 : RegSpec} {off : Nat} {v : Word} {s : State} (hs : Keeps r s) :
    Keeps r (writeLan w r0 off v s) := by
  unfold writeLan
  repeat' first
    | with_reducible assumption | with_reducible apply patCtlWrite_keeps | with_reducible apply eyeCtlWrite_keeps
    | with_reducible apply onlyIf_keeps | with_reducible apply clearWrap_keeps | with_reducible apply plain_keeps | split
    | dsimp only | intro _ _ _ | intro _ _ | intro _ | (with_reducible refine Keeps.mk_over ?_ rfl rfl rfl rfl rfl rfl)

theorem writeCls_keeps {r : State} {w : Window} {r0 : RegSpec} {off : Nat} {v : Word} {s : State} (hs : Keeps r s) :
    Keeps r (writeCls w r0 off v s) := by
  unfold writeCls
  repeat' first
    | with_reducible assumption | with_reducible apply drainCtlWrite_keeps | with_reducible apply stageCtlWrite_keeps
    | with_reducible apply stageAddrWrite_keeps | with_reducible apply stageCountWrite_keeps
    | with_reducible apply stageDataWrite_keeps | with_reducible apply steerCfgWrite_keeps
    | with_reducible apply indDataWrite_keeps | with_reducible apply plain_keeps | split | dsimp only
    | (with_reducible refine Keeps.mk_over ?_ rfl rfl rfl rfl rfl rfl)

theorem writeL2t_keeps {r : State} {w : Window} {r0 : RegSpec} {off : Nat} {v : Word} {s : State} (hs : Keeps r s) :
    Keeps r (writeL2t w r0 off v s) := by
  unfold writeL2t
  repeat' first
    | with_reducible assumption | with_reducible apply l2OpWrite_keeps | with_reducible apply statClear_keeps
    | with_reducible apply plain_keeps | split | dsimp only | (with_reducible refine Keeps.mk_over ?_ rfl rfl rfl rfl rfl rfl)

theorem writeLpm_keeps {r : State} {w : Window} {r0 : RegSpec} {off : Nat} {v : Word} {s : State} (hs : Keeps r s) :
    Keeps r (writeLpm w r0 off v s) := by
  unfold writeLpm
  repeat' first
    | with_reducible assumption | with_reducible apply checked_keeps | with_reducible apply plain_keeps
    | with_reducible apply nodeHiWrite_keeps | with_reducible apply lpmFenceWrite_keeps | with_reducible apply nhWrite_keeps
    | with_reducible apply ecmpWrite_keeps | with_reducible apply memberWrite_keeps | with_reducible apply smacHiWrite_keeps
    | with_reducible apply statClear_keeps | split | dsimp only | intro _ _ _ | intro _ _ | intro _
    | (with_reducible refine Keeps.mk_over ?_ rfl rfl rfl rfl rfl rfl)

theorem writeFlt_keeps {r : State} {w : Window} {r0 : RegSpec} {off : Nat} {v : Word} {s : State} (hs : Keeps r s) :
    Keeps r (writeFlt w r0 off v s) := by
  unfold writeFlt
  repeat' first
    | with_reducible assumption | with_reducible apply checked_keeps | with_reducible apply wr_keeps
    | with_reducible apply whenOk_keeps | with_reducible apply plain_keeps | with_reducible apply cmdqCfgWrite_keeps
    | with_reducible apply expqCfgWrite_keeps | with_reducible apply cmdqProdWrite_keeps | split | dsimp only | intro _ _ _
    | intro _ _ | intro _ | (with_reducible refine Keeps.mk_over ?_ rfl rfl rfl rfl rfl rfl)

theorem writeMcs_keeps {r : State} {w : Window} {r0 : RegSpec} {off : Nat} {v : Word} {s : State} (hs : Keeps r s) :
    Keeps r (writeMcs w r0 off v s) := by
  unfold writeMcs
  repeat' first
    | with_reducible assumption | with_reducible apply mcsWordLoad_keeps | with_reducible apply accessError_keeps
    | with_reducible apply plain_keeps | split | dsimp only | (with_reducible refine Keeps.mk_over ?_ rfl rfl rfl rfl rfl rfl)

theorem writeBpm_keeps {r : State} {w : Window} {r0 : RegSpec} {off : Nat} {v : Word} {s : State} (hs : Keeps r s) :
    Keeps r (writeBpm w r0 off v s) := by
  unfold writeBpm
  repeat' first
    | with_reducible assumption | with_reducible apply allocWrite_keeps | with_reducible apply freeWrite_keeps
    | with_reducible apply bufAccess_keeps | with_reducible apply plain_keeps | split | dsimp only
    | (with_reducible refine Keeps.mk_over ?_ rfl rfl rfl rfl rfl rfl)

theorem writeTmg_keeps {r : State} {w : Window} {r0 : RegSpec} {off : Nat} {v : Word} {s : State} (hs : Keeps r s) :
    Keeps r (writeTmg w r0 off v s) := by
  unfold writeTmg
  repeat' first
    | with_reducible assumption | with_reducible apply gateStatusWrite_keeps | with_reducible apply gclWrite_keeps
    | with_reducible apply meterOpWrite_keeps | with_reducible apply plain_keeps | split | dsimp only
    | (with_reducible refine Keeps.mk_over ?_ rfl rfl rfl rfl rfl rfl)

theorem writeTim_keeps {r : State} {w : Window} {r0 : RegSpec} {off : Nat} {v : Word} {s : State} (hs : Keeps r s) :
    Keeps r (writeTim w r0 off v s) := by
  unfold writeTim
  repeat' first
    | with_reducible assumption | with_reducible apply rateWrite_keeps | with_reducible apply stepCtlWrite_keeps
    | with_reducible apply servoSampleWrite_keeps | with_reducible apply whenOk_keeps | with_reducible apply trigCtlWrite_keeps
    | with_reducible apply checked_keeps | with_reducible apply plain_keeps | split | dsimp only | intro _ _ _ | intro _ _
    | intro _ | (with_reducible refine Keeps.mk_over ?_ rfl rfl rfl rfl rfl rfl)

theorem writeTmk_keeps {r : State} {w : Window} {r0 : RegSpec} {off : Nat} {v : Word} {s : State} (hs : Keeps r s) :
    Keeps r (writeTmk w r0 off v s) := by
  unfold writeTmk
  repeat' first
    | with_reducible assumption | with_reducible apply notThroughH_keeps | with_reducible apply wrCtlWrite_keeps
    | with_reducible apply onlyIf_keeps | with_reducible apply reportBad_keeps | with_reducible apply statClear_keeps
    | with_reducible apply whenOk_keeps | with_reducible apply plain_keeps | split | dsimp only | intro _ _ _ | intro _ _
    | intro _ | (with_reducible refine Keeps.mk_over ?_ rfl rfl rfl rfl rfl rfl)

theorem writePcn_keeps {r : State} {w : Window} {r0 : RegSpec} {off : Nat} {v : Word} {s : State} (hs : Keeps r s) :
    Keeps r (writePcn w r0 off v s) := by
  unfold writePcn
  repeat' first
    | with_reducible assumption | with_reducible apply cntCtlWrite_keeps | with_reducible apply freezeWrite_keeps
    | with_reducible apply histSnapWrite_keeps | with_reducible apply histStatusWrite_keeps
    | with_reducible apply clearWrap_keeps | with_reducible apply plain_keeps | split | dsimp only
    | (with_reducible refine Keeps.mk_over ?_ rfl rfl rfl rfl rfl rfl)

theorem writeHif_keeps {r : State} {w : Window} {r1 : RegSpec} {off : Nat} {v : Word} {s : State} (hs : Keeps r s) :
    Keeps r (writeHif w r1 off v s) := by
  unfold writeHif
  repeat' first
    | with_reducible assumption | with_reducible apply notThroughB_keeps | with_reducible apply mboxCfgWrite_keeps
    | with_reducible apply mboxProdWrite_keeps | with_reducible apply mboxBaseCheck_keeps | with_reducible apply plain_keeps
    | split | dsimp only | intro _ _ _ | intro _ _ | intro _ | (with_reducible refine Keeps.mk_over ?_ rfl rfl rfl rfl rfl rfl)

theorem writeMio_keeps {r : State} {w : Window} {r1 : RegSpec} {off : Nat} {v : Word} {s : State} (hs : Keeps r s) :
    Keeps r (writeMio w r1 off v s) := by
  unfold writeMio
  repeat' first
    | with_reducible assumption | with_reducible apply notThroughH_keeps | with_reducible apply plain_keeps
    | with_reducible apply i2cCmdWrite_keeps | with_reducible apply mdioCmdWrite_keeps | split | dsimp only | intro _ _ _
    | intro _ _ | intro _ | (with_reducible refine Keeps.mk_over ?_ rfl rfl rfl rfl rfl rfl)

theorem writeScr_keeps {r : State} {w : Window} {r0 : RegSpec} {off : Nat} {v : Word} {s : State} (hs : Keeps r s) :
    Keeps r (writeScr w r0 off v s) := by
  unfold writeScr
  repeat' first
    | with_reducible assumption | with_reducible apply checked_keeps | with_reducible apply plain_keeps | split | dsimp only
    | intro _ _ _ | intro _ _ | intro _ | (with_reducible refine Keeps.mk_over ?_ rfl rfl rfl rfl rfl rfl)

theorem writeReg_keeps {r : State} {w : Window} {b : Block} {r0 : RegSpec} {off : Nat} {v : Word} {s : State} (hs : Keeps r s) :
    Keeps r (writeReg w b r0 off v s) := by
  unfold writeReg
  repeat' first
    | with_reducible assumption | with_reducible apply clearCounters_keeps | with_reducible apply clearWraps_keeps
    | with_reducible apply writeEvt_keeps | with_reducible apply writeBnc_keeps | with_reducible apply writePwr_keeps
    | with_reducible apply warmWrite_keeps | with_reducible apply plain_keeps | with_reducible apply writeLan_keeps
    | with_reducible apply writeCls_keeps | with_reducible apply writeL2t_keeps | with_reducible apply writeLpm_keeps
    | with_reducible apply writeFlt_keeps | with_reducible apply wrX_keeps | with_reducible apply writeMcs_keeps
    | with_reducible apply writeBpm_keeps | with_reducible apply checked_keeps | with_reducible apply writeTmg_keeps
    | with_reducible apply writeTim_keeps | with_reducible apply ownMoveWrite_keeps | with_reducible apply writeTmk_keeps
    | with_reducible apply writePcn_keeps | with_reducible apply writeHif_keeps | with_reducible apply writeMio_keeps
    | with_reducible apply writeScr_keeps | split | dsimp only | intro _ _ _ | intro _ _ | intro _
    | (with_reducible refine Keeps.mk_over ?_ rfl rfl rfl rfl rfl rfl)

theorem chanSelWrite_keeps {r : State} {w : Window} {b : Block} {v : Word} {s : State} (hs : Keeps r s) :
    Keeps r (chanSelWrite w b v s) := by
  unfold chanSelWrite
  repeat' first
    | with_reducible assumption | with_reducible apply putLatch_keeps | with_reducible apply raise_keeps | split | dsimp only
    | (with_reducible refine Keeps.mk_over ?_ rfl rfl rfl rfl rfl rfl)

theorem ownerWrite_keeps {r : State} {w : Window} {b : Block} {v : Word} {s : State} (hs : Keeps r s) :
    Keeps r (ownerWrite w b v s) := by
  unfold ownerWrite
  repeat' first
    | with_reducible assumption | with_reducible apply putOwner_keeps | with_reducible apply ownerDenied_keeps | split
    | dsimp only | (with_reducible refine Keeps.mk_over ?_ rfl rfl rfl rfl rfl rfl)

theorem limitWrite_keeps {r : State} {w : Window} {off : Nat} {v : Word} {s : State} (hs : Keeps r s) :
    Keeps r (limitWrite w off v s) := by
  unfold limitWrite
  repeat' first
    | with_reducible assumption | with_reducible apply checked_keeps | with_reducible apply putReg_keeps | split | dsimp only
    | intro _ _ _ | intro _ _ | intro _ | (with_reducible refine Keeps.mk_over ?_ rfl rfl rfl rfl rfl rfl)

theorem maskWrite_keeps {r : State} {g : Nat} {v : Word} {s : State} (hs : Keeps r s) :
    Keeps r (maskWrite g v s) := by
  unfold maskWrite
  repeat' first
    | with_reducible assumption | with_reducible apply resignal_keeps | split | dsimp only
    | (with_reducible refine Keeps.mk_over ?_ rfl rfl rfl rfl rfl rfl)

theorem stateWrite_keeps {r : State} {w : Window} {b : Block} {v : Word} {s : State} (hs : Keeps r s) :
    Keeps r (stateWrite w b v s) := by
  unfold stateWrite
  repeat' first
    | with_reducible assumption | with_reducible apply modTgt_keeps | split | dsimp only
    | (with_reducible refine Keeps.mk_over ?_ rfl rfl rfl rfl rfl rfl)

theorem headerWrite_keeps {r : State} {w : Window} {b : Block} {o : Nat} {v : Word} {s : State} (hs : Keeps r s) :
    Keeps r (headerWrite w b o v s) := by
  unfold headerWrite
  repeat' first
    | with_reducible assumption | with_reducible apply blockCtlWrite_keeps | with_reducible apply stateWrite_keeps
    | with_reducible apply putReg_keeps | with_reducible apply checked_keeps | with_reducible apply blockResetWrite_keeps
    | with_reducible apply maskWrite_keeps | with_reducible apply forceWrite_keeps | with_reducible apply limitWrite_keeps
    | split | dsimp only | intro _ _ _ | intro _ _ | intro _ | (with_reducible refine Keeps.mk_over ?_ rfl rfl rfl rfl rfl rfl)

theorem headerAccess_keeps {r : State} {w : Window} {b : Block} {o : Nat} {v : Word} {s : State} (hs : Keeps r s) :
    Keeps r (headerAccess w b o v s) := by
  unfold headerAccess
  repeat' first
    | with_reducible assumption | with_reducible apply onlyIf_keeps | with_reducible apply badWrite_keeps
    | with_reducible apply writingFree_keeps | with_reducible apply chanSelWrite_keeps | with_reducible apply ownerWrite_keeps
    | with_reducible apply putReg_keeps | with_reducible apply commitAccess_keeps | with_reducible apply causeWrite_keeps
    | with_reducible apply writing_keeps | with_reducible apply headerWrite_keeps | split | dsimp only | intro _ _ _ | intro _ _
    | intro _ | (with_reducible refine Keeps.mk_over ?_ rfl rfl rfl rfl rfl rfl)

theorem msixWrite_keeps {r : State} {w : Window} {off : Nat} {v : Word} {s : State} (hs : Keeps r s) :
    Keeps r (msixWrite w off v s) := by
  unfold msixWrite
  split
  · exact onlyIf_keeps (fun _ h => badWrite_keeps h) hs
  · split
    · exact hs
    · exact writing_keeps (fun _ h => releasePending_keeps (putReg_keeps h)) hs

theorem writeAt_keeps {r : State} {w : Window} {off : Nat} {v : Word} {s : State} (hs : Keeps r s) :
    Keeps r (writeAt w off v s) := by
  unfold writeAt
  repeat' first
    | with_reducible assumption | with_reducible apply onlyIf_keeps | with_reducible apply accessError_keeps
    | with_reducible apply msixWrite_keeps | with_reducible apply headerAccess_keeps | with_reducible apply causeWrite_keeps
    | with_reducible apply badWrite_keeps | with_reducible apply writing_keeps | with_reducible apply writeReg_keeps | split
    | dsimp only | intro _ _ _ | intro _ _ | intro _ | (with_reducible refine Keeps.mk_over ?_ rfl rfl rfl rfl rfl rfl)

theorem accessAt_keeps {r : State} {w : Window} {off : Nat} {be : Nat} {write : Bool} {v : Word} {s : State} (hs : Keeps r s) :
    Keeps r (accessAt w off be write v s) := by
  unfold accessAt
  split
  · exact reading_keeps (fun _ h => readAt_keeps h) hs
  · split
    · refine onlyIf_keeps (fun a h => ?_) hs
      cases blockOfPage (off / 0x1000) with
      | none => exact accessError_keeps h
      | some b => exact badWrite_keeps h
    · exact writeAt_keeps hs

end Sys2Proof.Machine
end

