-- ==== Sys2Proof/Laws/LoadsKeeps.lean ====
section
/-! SUPPORT. Every operation of Machine/Loads.lean keeps what `Keeps` speaks of. -/

-- The alternatives of each proof's `first` are the same list; not every alternative is used in every proof.
set_option linter.unreachableTactic false
set_option linter.unusedTactic false

namespace Sys2Proof.Machine

theorem recSelect_keeps {r : State} {r0 : ImRecord} {s : State} (hs : Keeps r s) :
    Keeps r (recSelect r0 s) := by
  unfold recSelect
  repeat' first
    | with_reducible assumption | with_reducible apply chanSelWrite_keeps | with_reducible apply foldl_keeps | split
    | dsimp only | intro _ _ _ | intro _ _ | intro _ | (with_reducible refine Keeps.mk_over ?_ rfl rfl rfl rfl rfl rfl)

theorem recApply_keeps {r : State} {r0 : ImRecord} {s : State} (hs : Keeps r s) :
    Keeps r (recApply r0 s).2 := by
  unfold recApply
  try dsimp only
  repeat' first
    | split | with_reducible assumption | with_reducible apply readAt_keeps | with_reducible apply recSelect_keeps
    | with_reducible apply writeAt_keeps | with_reducible apply foldl_keeps | dsimp only | intro _ _ _ | intro _ _ | intro _
    | (with_reducible refine Keeps.mk_over ?_ rfl rfl rfl rfl rfl rfl)

theorem applyRecords_keeps {r : State} {i : Nat} {rs : List ImRecord} {q : RecordRun} {s : State} (hs : Keeps r s) :
    Keeps r (applyRecords i rs q s).2 := by
  induction rs generalizing i q s with
  | nil => exact hs
  | cons x rs ih => exact ih (recApply_keeps hs)

theorem putDefault_keeps {r : State} {bs : List Byte} {s : State} (hs : Keeps r s) :
    Keeps r (putDefault bs s) := by
  unfold putDefault
  repeat' first
    | with_reducible assumption | with_reducible apply putReg_keeps | with_reducible apply foldl_keeps | split | dsimp only
    | intro _ _ _ | intro _ _ | intro _ | (with_reducible refine Keeps.mk_over ?_ rfl rfl rfl rfl rfl rfl)

theorem loadRules_keeps {r : State} {bs : List Byte} {s : State} (hs : Keeps r s) :
    OptKeeps r (loadRules bs s) := by
  unfold loadRules
  repeat' first
    | with_reducible assumption | with_reducible apply OptKeeps.some | exact OptKeeps.none
    | with_reducible apply putDefault_keeps | with_reducible apply wr_keeps | with_reducible apply putHalf_keeps
    | with_reducible apply foldl_keeps | split | dsimp only | intro _ _ _ | intro _ _ | intro _
    | (with_reducible refine Keeps.mk_over ?_ rfl rfl rfl rfl rfl rfl)

theorem loadTree_keeps {r : State} {bs : List Byte} {s : State} (hs : Keeps r s) :
    OptKeeps r (loadTree bs s) := by
  unfold loadTree
  repeat' first
    | with_reducible assumption | with_reducible apply OptKeeps.some | exact OptKeeps.none
    | with_reducible apply putDefault_keeps | with_reducible apply wr_keeps | with_reducible apply putHalf_keeps
    | with_reducible apply foldl_keeps | split | dsimp only | intro _ _ _ | intro _ _ | intro _
    | (with_reducible refine Keeps.mk_over ?_ rfl rfl rfl rfl rfl rfl)

theorem profileWord_keeps {r : State} {off c v : Nat} {o : Option State} (h : OptKeeps r o) : OptKeeps r (profileWord off c v o) := by
  refine h.bind (fun s hs => ?_)
  split
  · exact OptKeeps.some (putReg_keeps hs)
  · exact OptKeeps.none

theorem loadProfiles_keeps {r : State} {bs : List Byte} {s : State} (hs : Keeps r s) : OptKeeps r (loadProfiles bs s) := by
  unfold loadProfiles
  split
  · exact OptKeeps.none
  · exact foldOver_optKeeps (fun _ _ h => foldOver_optKeeps (fun _ _ h => profileWord_keeps h) h) (OptKeeps.some hs)

theorem loadTable_keeps {r : State} {t : Nat} {bs : List Byte} {s : State} (hs : Keeps r s) :
    OptKeeps r (loadTable t bs s) := by
  unfold loadTable
  repeat' first
    | with_reducible assumption | with_reducible apply OptKeeps.some | exact OptKeeps.none | with_reducible apply foldOver_keeps
    | with_reducible apply foldOver_optKeeps | with_reducible apply putHome_keeps | with_reducible apply putSteer_keeps
    | with_reducible apply indWrite_keeps | with_reducible apply foldl_keeps | split | dsimp only | intro _ _ _ | intro _ _
    | intro _ | (with_reducible refine Keeps.mk_over ?_ rfl rfl rfl rfl rfl rfl)

theorem loadGcl_keeps {r : State} {d l n i : Nat} {bs : List Byte} {s : State} (hs : Keeps r s) : OptKeeps r (loadGcl d l n i bs s) := by
  induction n generalizing i bs s with
  | zero => exact OptKeeps.some hs
  | succ n ih =>
    unfold loadGcl
    split
    · exact OptKeeps.none
    · exact ih (putGcl_keeps hs)

theorem gateShadows_keeps {r : State} {d : Nat} {l : Nat} {bs : List Byte} {s : State} (hs : Keeps r s) :
    Keeps r (gateShadows d l bs s) := by
  unfold gateShadows
  repeat' first
    | with_reducible assumption | with_reducible apply wrC_keeps | with_reducible apply foldl_keeps | split | dsimp only
    | intro _ _ _ | intro _ _ | intro _ | (with_reducible refine Keeps.mk_over ?_ rfl rfl rfl rfl rfl rfl)

theorem loadGates_keeps {r : State} {d : Nat} {l : Nat} {bs : List Byte} {s : State} (hs : Keeps r s) :
    OptKeeps r (loadGates d l bs s) := by
  unfold loadGates
  repeat' first
    | with_reducible assumption | with_reducible apply OptKeeps.getD | with_reducible apply OptKeeps.some | exact OptKeeps.none
    | with_reducible apply loadGcl_keeps | with_reducible apply gateShadows_keeps | with_reducible apply foldl_keeps | split
    | dsimp only | intro _ _ _ | intro _ _ | intro _ | (refine OptKeeps.elim ?_ ‹_›)
    | (with_reducible refine Keeps.mk_over ?_ rfl rfl rfl rfl rfl rfl)

theorem loadParams_keeps {r : State} {bs : List Byte} {o : Option State} (h : OptKeeps r o) : OptKeeps r (loadParams bs o) := by
  refine h.bind (fun s hs => ?_)
  dsimp only
  split <;> first
    | exact OptKeeps.none
    | (split <;> first
        | exact OptKeeps.none
        | exact OptKeeps.some (meterSet_keeps hs)
        | exact OptKeeps.some (wrC_keeps (wrC_keeps hs))
        | exact OptKeeps.some (wrC_keeps hs))

theorem loadParamBlob_keeps {r : State} {bs : List Byte} {s : State} (hs : Keeps r s) : OptKeeps r (loadParamBlob bs s) := by
  unfold loadParamBlob
  split
  · exact OptKeeps.none
  · exact foldOver_optKeeps (fun _ _ h => loadParams_keeps h) (OptKeeps.some hs)

theorem applyBlob_keeps {r : State} {b : ImBlob} {bs : List Byte} {s : State} (hs : Keeps r s) : OptKeeps r (applyBlob b bs s) :=
  .ite (loadTable_keeps hs) <| .ite (.ite (loadRouteBlob_keeps hs) .none) <| .ite (loadGates_keeps hs) <| .ite .none <|
  .ite (loadRules_keeps hs) <| .ite (loadTree_keeps hs) <| .ite (loadProfiles_keeps hs) <| .ite (loadL2Blob_keeps hs) <|
  .ite (loadNhBlob_keeps hs) <| .ite (loadEcmpBlob_keeps hs) <| .ite (loadParamBlob_keeps hs) .none

theorem applyBlobs_keeps {r : State} {d : List Byte} {j : Nat} {seen : List Nat} {bs : List ImBlob} {s : State} (hs : Keeps r s) :
    ∀ t, applyBlobs d j seen bs s = .ok t → Keeps r t := by
  induction bs generalizing j seen s with
  | nil => intro t e; cases e; exact hs
  | cons b bs ih =>
    intro t e
    unfold applyBlobs at e
    split at e
    · exact ih hs t e
    · split at e
      · exact nomatch e
      · split at e
        · exact nomatch e
        · next u hu =>
          split at e
          · exact nomatch e
          · exact ih (applyBlob_keeps hs u hu) t e

theorem applyImage_keeps {r : State} {d : List Byte} {s : State} (hs : Keeps r s) : ∀ t, applyImage d s = .ok t → Keeps r t := by
  intro t e
  unfold applyImage at e
  split at e
  · exact nomatch e
  · dsimp only at e
    split at e
    · exact nomatch e
    · split at e
      · exact nomatch e
      · exact applyBlobs_keeps (applyRecords_keeps hs) t e

theorem noteBank_keeps {r : State} {e : LoadFail} {s : State} (hs : Keeps r s) :
    Keeps r (noteBank e s) := by
  unfold noteBank
  repeat' first
    | with_reducible assumption | with_reducible apply refuseImage_keeps | split | dsimp only | intro _ _ _ | intro _ _
    | intro _ | (with_reducible refine Keeps.mk_over ?_ rfl rfl rfl rfl rfl rfl)

theorem startBanks_keeps {r : State} {d : List Byte} {s : State} (hs : Keeps r s) :
    Keeps r (startBanks d s) := by
  unfold startBanks
  repeat' first
    | with_reducible assumption | with_reducible apply foldOver_keeps | with_reducible apply wrC_keeps
    | with_reducible apply writeBank_keeps | with_reducible apply foldl_keeps | split | dsimp only | intro _ _ _ | intro _ _
    | intro _ | (with_reducible refine Keeps.mk_over ?_ rfl rfl rfl rfl rfl rfl)

theorem undoRecord_keeps {r : State} {r1 : ImRecord} {s : State} (hs : Keeps r s) :
    Keeps r (undoRecord r1 s) := by
  unfold undoRecord
  repeat' first
    | with_reducible assumption | with_reducible apply putReg_keeps | split | dsimp only | intro _ _ _ | intro _ _ | intro _
    | (with_reducible refine Keeps.mk_over ?_ rfl rfl rfl rfl rfl rfl)

theorem undoLoad_keeps {r : State} {s : State} (hs : Keeps r s) :
    Keeps r (undoLoad s) := by
  unfold undoLoad
  repeat' first
    | with_reducible assumption | with_reducible apply foldOver_keeps | with_reducible apply undoRecord_keeps
    | with_reducible apply beginReset_keeps | with_reducible apply foldl_keeps | split | dsimp only | intro _ _ _ | intro _ _
    | intro _ | (with_reducible refine Keeps.mk_over ?_ rfl rfl rfl rfl rfl rfl)

end Sys2Proof.Machine
end

