-- ==== Sys2Proof/Laws/Power.lean ====
section
/-! SUPPORT. The voltage suggestion (R81, R82): what it changes. -/

namespace Sys2Proof.Machine

theorem avsKey_eq : keyOfField pwrAvsStatus_atCeiling 0 0 = keyOfField pwrAvsStatus_suggestedMv 0 0 := by decide

theorem suggest_changes (v : Nat) (s : State) {ks : List Nat} (h : keyOfField pwrAvsStatus_suggestedMv 0 0 ∈ ks) :
    ∃ p : Power, (suggest v s).pwr = p ∧ p.paceBelow = s.pwr.paceBelow ∧ p.negative = s.pwr.negative ∧ p.ctWithdrawn = s.pwr.ctWithdrawn ∧
      Changes ks [] { s with pwr := p } (suggest v s) := by
  have hc : Changes ks [] s (wr pwrAvsStatus_atCeiling (b2n (decide (v = cf pwrAvsCtl_ceiling s))) (wr pwrAvsStatus_suggestedMv v s)) :=
    (wr_changes _ _ _ h).trans (wr_changes _ _ _ (by rw [avsKey_eq]; exact h))
  unfold suggest
  dsimp only
  split
  · refine ⟨_, rfl, rfl, rfl, rfl, ?_⟩
    refine Changes.trans (hc.with_pwr { s.pwr with avsPend := some v, avsRetry := none }) ?_
    exact OnlyEvents.changes (OnlyEvents.of_evt rfl rfl rfl rfl ⟨rfl, rfl, rfl⟩ rfl (List.prefix_append _ _))
  · exact ⟨_, rfl, rfl, rfl, rfl, hc⟩

theorem rd_suggest (v : Nat) (s : State) : rd pwrAvsStatus_suggestedMv (suggest v s) = v % 256 := by
  have h : rd pwrAvsStatus_suggestedMv (wr pwrAvsStatus_atCeiling (b2n (decide (v = cf pwrAvsCtl_ceiling s))) (wr pwrAvsStatus_suggestedMv v s)) = v % 256 := by
    unfold rd wr; rw [rdX_wrX_bits _ _ (by decide), rdX_wrX_same _ _ _ _ _ (by decide)]; rfl
  unfold rd at h
  unfold suggest
  dsimp only
  split
  · unfold rd avsRequest emit; exact (rdX_congr (by rfl)).trans h
  · exact h

theorem rdX_suggest {f : Fld} {i c : Nat} (h : offsApart pwrAvsStatus_suggestedMv 0 f i = true) (v : Nat) (s : State) :
    rdX f i c (suggest v s) = rdX f i c s := by
  have h1 : rdX f i c (wr pwrAvsStatus_atCeiling (b2n (decide (v = cf pwrAvsCtl_ceiling s))) (wr pwrAvsStatus_suggestedMv v s)) = rdX f i c s := by
    unfold wr
    rw [rdX_wrX_offs (f := pwrAvsStatus_atCeiling) _ _ h, rdX_wrX_offs _ _ h]
  unfold suggest
  dsimp only
  split
  · unfold avsRequest emit; exact (rdX_congr (by rfl)).trans h1
  · exact h1

end Sys2Proof.Machine
end

