-- ==== Sys2Proof/Laws/StartupKeeps.lean ====
section
/-! SUPPORT. Every operation of Machine/Startup.lean keeps what `Keeps` speaks of. -/

-- The alternatives of each proof's `first` are the same list; not every alternative is used in every proof.
set_option linter.unreachableTactic false
set_option linter.unusedTactic false

namespace Sys2Proof.Machine

theorem toStep_keeps {r : State} {n : Nat} {s : State} (hs : Keeps r s) :
    Keeps r (toStep n s) := by
  unfold toStep
  repeat' first
    | with_reducible assumption | with_reducible apply wr_keeps | split | dsimp only
    | (with_reducible refine Keeps.mk_over ?_ rfl rfl rfl rfl rfl rfl)

theorem settleRecords_keeps {r : State} {s : State} (hs : Keeps r s) :
    Keeps r (settleRecords s) := by
  unfold settleRecords
  repeat' first
    | with_reducible assumption | with_reducible apply foldOver_keeps | with_reducible apply ringWrite_keeps
    | with_reducible apply flushRecord_keeps | split | dsimp only | intro _ _ _ | intro _ _ | intro _
    | (with_reducible refine Keeps.mk_over ?_ rfl rfl rfl rfl rfl rfl)

theorem establish_keeps {r : State} {s : State} (hs : Keeps r s) :
    Keeps r (establish s) := by
  unfold establish
  repeat' first
    | with_reducible assumption | with_reducible apply settleRecords_keeps | with_reducible apply startTouchmark_keeps | split
    | dsimp only | intro _ _ _ | intro _ _ | intro _ | (with_reducible refine Keeps.mk_over ?_ rfl rfl rfl rfl rfl rfl)

theorem stepTwo_keeps {r : State} {s : State} (hs : Keeps r s) :
    Keeps r (stepTwo s) := by
  unfold stepTwo
  repeat' first
    | with_reducible assumption | with_reducible apply wr_keeps | with_reducible apply establish_keeps
    | with_reducible apply enterHeld_keeps | with_reducible apply toStep_keeps | split | dsimp only | intro _ _ _ | intro _ _
    | intro _ | (with_reducible refine Keeps.mk_over ?_ rfl rfl rfl rfl rfl rfl)

theorem hbmStarts_keeps {r : State} {t : Target} {s : State} (hs : Keeps r s) :
    Keeps r (hbmStarts t s) := by
  unfold hbmStarts
  repeat' first
    | with_reducible assumption | with_reducible apply modTgt_keeps | split | dsimp only
    | (with_reducible refine Keeps.mk_over ?_ rfl rfl rfl rfl rfl rfl)

theorem stepThree_keeps {r : State} {s : State} (hs : Keeps r s) :
    Keeps r (stepThree s) := by
  have h : Keeps r (foldOver ((List.range 4).filter (fun k => !isFused .hbm k s))
      (fun k a => wrC hbmStackStatus_trained k 1 (hbmStarts ⟨.hbm, some k⟩ a)) (hbmStarts ⟨.hbm, none⟩ s)) :=
    foldOver_keeps (fun _ _ h => wrC_keeps (hbmStarts_keeps h)) (hbmStarts_keeps hs)
  exact toStep_keeps (h.stored (fun _ => rfl) id rfl rfl rfl rfl rfl rfl rfl)

theorem noteReason_keeps {r : State} {k : Nat} {reason : Nat} {s : State} (hs : Keeps r s) :
    Keeps r (noteReason k reason s) := by
  unfold noteReason
  repeat' first
    | with_reducible assumption | with_reducible apply wr_keeps | split | dsimp only
    | (with_reducible refine Keeps.mk_over ?_ rfl rfl rfl rfl rfl rfl)

theorem refuseSlot_keeps {r : State} {k : Nat} {reason : Nat} {s : State} (hs : Keeps r s) :
    Keeps r (refuseSlot k reason s) := by
  unfold refuseSlot
  repeat' first
    | with_reducible assumption | with_reducible apply refuseImage_keeps | with_reducible apply noteReason_keeps | split
    | dsimp only | intro _ _ _ | intro _ _ | intro _ | (with_reducible refine Keeps.mk_over ?_ rfl rfl rfl rfl rfl rfl)

theorem bootSlot_keeps {r : State} {k : Nat} {img : List Byte} {s : State} (hs : Keeps r s) :
    Keeps r (bootSlot k img s) := by
  unfold bootSlot
  repeat' first
    | with_reducible assumption | with_reducible apply wr_keeps | with_reducible apply showImage_keeps
    | with_reducible apply loadCopy_keeps | split | dsimp only | intro _ _ _ | intro _ _ | intro _
    | (with_reducible refine Keeps.mk_over ?_ rfl rfl rfl rfl rfl rfl)

theorem afterStepFour_keeps {r : State} {s : State} (hs : Keeps r s) :
    Keeps r (afterStepFour s) := by
  unfold afterStepFour
  repeat' first
    | with_reducible assumption | with_reducible apply toStep_keeps | with_reducible apply wr_keeps | split | dsimp only
    | (with_reducible refine Keeps.mk_over ?_ rfl rfl rfl rfl rfl rfl)

theorem stepFour_keeps {r : State} {read : List (List Byte)} {s : State} (hs : Keeps r s) :
    Keeps r (stepFour read s) := by
  unfold stepFour
  repeat' first
    | with_reducible assumption | with_reducible apply wr_keeps | with_reducible apply enterHeld_keeps
    | with_reducible apply noteReason_keeps | with_reducible apply afterStepFour_keeps | with_reducible apply bootSlot_keeps
    | with_reducible apply refuseSlot_keeps | with_reducible apply raise_keeps | split | dsimp only | intro _ _ _ | intro _ _
    | intro _ | (with_reducible refine Keeps.mk_over ?_ rfl rfl rfl rfl rfl rfl)

theorem stepFive_keeps {r : State} {s : State} (hs : Keeps r s) :
    Keeps r (stepFive s) := by
  unfold stepFive
  repeat' first
    | with_reducible assumption | with_reducible apply foldOver_keeps | with_reducible apply toStep_keeps
    | with_reducible apply wrX_keeps | split | dsimp only | intro _ _ _ | intro _ _ | intro _
    | (with_reducible refine Keeps.mk_over ?_ rfl rfl rfl rfl rfl rfl)

theorem stepSeven_keeps {r : State} {s : State} (hs : Keeps r s) :
    Keeps r (stepSeven s) := by
  unfold stepSeven
  repeat' first
    | with_reducible assumption | with_reducible apply raise_keeps | with_reducible apply wr_keeps
    | with_reducible apply toStep_keeps | with_reducible apply benchRuns_keeps | split | dsimp only
    | (with_reducible refine Keeps.mk_over ?_ rfl rfl rfl rfl rfl rfl)

theorem reportFail_keeps {r : State} {code : Nat} {index : Nat} {slot : Nat} {s : State} (hs : Keeps r s) :
    Keeps r (reportFail code index slot s) := by
  unfold reportFail
  repeat' first
    | with_reducible assumption | with_reducible apply wr_keeps | split | dsimp only
    | (with_reducible refine Keeps.mk_over ?_ rfl rfl rfl rfl rfl rfl)

theorem noteFail_keeps {r : State} {code : Nat} {index : Nat} {slot : Nat} {s : State} (hs : Keeps r s) :
    Keeps r (noteFail code index slot s) := by
  unfold noteFail
  split
  · exact hs
  · exact reportFail_keeps hs

theorem clearFail_keeps {r : State} {s : State} (hs : Keeps r s) : Keeps r (clearFail s) := by
  unfold clearFail
  split
  · exact reportFail_keeps hs
  · exact hs

theorem failSlot_keeps {r : State} {code : Nat} {index : Nat} {s : State} (hs : Keeps r s) :
    Keeps r (failSlot code index s) := by
  unfold failSlot
  repeat' first
    | with_reducible assumption | with_reducible apply noteFail_keeps | with_reducible apply undoLoad_keeps | with_reducible apply toStep_keeps
    | with_reducible apply raise_keeps | with_reducible apply wr_keeps | with_reducible apply enterHeld_keeps | split
    | dsimp only | (with_reducible refine Keeps.mk_over ?_ rfl rfl rfl rfl rfl rfl)

theorem loadFails_keeps {r : State} {code : Nat} {index : Nat} {s : State} (hs : Keeps r s) :
    Keeps r (loadFails code index s) := by
  unfold loadFails
  repeat' first
    | with_reducible assumption | with_reducible apply failSlot_keeps | with_reducible apply reportFail_keeps
    | with_reducible apply enterHeld_keeps | split | dsimp only
    | (with_reducible refine Keeps.mk_over ?_ rfl rfl rfl rfl rfl rfl)

theorem benchRestarts_keeps {r : State} {s : State} (hs : Keeps r s) :
    Keeps r (benchRestarts s) := by
  unfold benchRestarts
  repeat' first
    | with_reducible assumption | with_reducible apply benchRuns_keeps | split | dsimp only
    | (with_reducible refine Keeps.mk_over ?_ rfl rfl rfl rfl rfl rfl)

theorem stepEight_keeps {r : State} {read : List (List Byte)} {s : State} (hs : Keeps r s) :
    Keeps r (stepEight read s) := by
  unfold stepEight
  repeat' first
    | with_reducible assumption | with_reducible apply benchRestarts_keeps | with_reducible apply toStep_keeps
    | with_reducible apply failSlot_keeps | split | dsimp only
    | (with_reducible refine Keeps.mk_over ?_ rfl rfl rfl rfl rfl rfl)

theorem stepNine_keeps {r : State} {s : State} (hs : Keeps r s) :
    Keeps r (stepNine s) := by
  unfold stepNine
  repeat' first
    | with_reducible assumption | with_reducible apply loadFails_keeps | with_reducible apply toStep_keeps | split | dsimp only
    | (with_reducible refine Keeps.mk_over ?_ rfl rfl rfl rfl rfl rfl)

theorem withRecords_keeps {r : State} {d : List Byte} {code : Nat} {s : State} (hs : Keeps r s) :
    Keeps r (withRecords d code s) := by
  unfold withRecords
  repeat' first
    | with_reducible assumption | with_reducible apply applyRecords_keeps | split | dsimp only | (refine Keeps.snd ?_ ‹_›)
    | (with_reducible refine Keeps.mk_over ?_ rfl rfl rfl rfl rfl rfl)

theorem stageBlobs_keeps {r : State} {d : List Byte} {n : Nat} {s : State} (hs : Keeps r s) :
    Keeps r (stageBlobs d n s) := by
  unfold stageBlobs
  exact foldOver_keeps (fun _ _ h => (applyBlob_keeps h).getD h) hs

theorem withShadows_keeps {r : State} {d : List Byte} {code : Nat} {index : Nat} {s : State} (hs : Keeps r s) :
    Keeps r (withShadows d code index s) := by
  unfold withShadows
  repeat' first
    | with_reducible assumption | with_reducible apply stageBlobs_keeps | with_reducible apply applyRecords_keeps | split
    | dsimp only | intro _ _ _ | intro _ _ | intro _ | (with_reducible refine Keeps.mk_over ?_ rfl rfl rfl rfl rfl rfl)

theorem stepTen_keeps {r : State} {s : State} (hs : Keeps r s) :
    Keeps r (stepTen s) := by
  have mark : ∀ {a : State} (x : Startup), Keeps r a → Keeps r { a with start := x } :=
    fun x h => Keeps.mk_over h rfl rfl rfl rfl rfl rfl
  unfold stepTen
  dsimp only
  split
  · refine loadFails_keeps ?_
    split
    · exact hs
    · exact mark _ (withRecords_keeps hs)
  · next e => exact toStep_keeps (mark _ (applyImage_keeps hs _ e))

theorem releaseMcs_keeps {r : State} {s : State} (hs : Keeps r s) :
    Keeps r (releaseMcs s) := by
  unfold releaseMcs
  repeat' first
    | with_reducible assumption | with_reducible apply foldOver_keeps | with_reducible apply leaveOff_keeps | split | dsimp only
    | intro _ _ _ | intro _ _ | intro _ | (with_reducible refine Keeps.mk_over ?_ rfl rfl rfl rfl rfl rfl)

theorem stepEleven_keeps {r : State} {s : State} (hs : Keeps r s) :
    Keeps r (stepEleven s) := by
  unfold stepEleven
  repeat' first
    | with_reducible assumption | with_reducible apply loadFails_keeps | with_reducible apply noteBank_keeps
    | with_reducible apply toStep_keeps | with_reducible apply releaseMcs_keeps | with_reducible apply startBanks_keeps | split
    | dsimp only | intro _ _ _ | intro _ _ | intro _ | (with_reducible refine Keeps.mk_over ?_ rfl rfl rfl rfl rfl rfl)

theorem loaderCommit_keeps {r : State} {b : Block} {s : State} (hs : Keeps r s) :
    Keeps r (loaderCommit b s) := by
  unfold loaderCommit
  repeat' first
    | with_reducible assumption | with_reducible apply clsTake_keeps | with_reducible apply putCommit_keeps
    | with_reducible apply commitNow_keeps | split | dsimp only
    | (with_reducible refine Keeps.mk_over ?_ rfl rfl rfl rfl rfl rfl)

theorem stepTwelve_keeps {r : State} {s : State} (hs : Keeps r s) :
    Keeps r (stepTwelve s) := by
  unfold stepTwelve
  repeat' first
    | with_reducible assumption | with_reducible apply toStep_keeps | with_reducible apply foldOver_keeps
    | with_reducible apply loaderCommit_keeps | with_reducible apply modSys_keeps | with_reducible apply putCommit_keeps | split
    | dsimp only | intro _ _ _ | intro _ _ | intro _ | (with_reducible refine Keeps.mk_over ?_ rfl rfl rfl rfl rfl rfl)

theorem releaseTargets_keeps {r : State} {s : State} (hs : Keeps r s) :
    Keeps r (releaseTargets s) := by
  unfold releaseTargets
  repeat' first
    | with_reducible assumption | with_reducible apply foldOver_keeps | with_reducible apply offRows_keeps | split | dsimp only
    | intro _ _ _ | intro _ _ | intro _ | (with_reducible refine Keeps.mk_over ?_ rfl rfl rfl rfl rfl rfl)

theorem showConfig_keeps {r : State} {d : List Byte} {s : State} (hs : Keeps r s) :
    Keeps r (showConfig d s) := by
  unfold showConfig
  repeat' first
    | with_reducible assumption | with_reducible apply wr_keeps | split | dsimp only
    | (with_reducible refine Keeps.mk_over ?_ rfl rfl rfl rfl rfl rfl)

theorem stepThirteen_keeps {r : State} {s : State} (hs : Keeps r s) :
    Keeps r (stepThirteen s) := by
  unfold stepThirteen
  have ha := clearFail_keeps (avsActive_keeps hs)
  repeat' first
    | with_reducible assumption | with_reducible apply showConfig_keeps | with_reducible apply reportFail_keeps
    | with_reducible apply wr_keeps | with_reducible apply toStep_keeps | with_reducible apply raise_keeps
    | with_reducible apply releaseTargets_keeps | split | dsimp only
    | (with_reducible refine Keeps.mk_over ?_ rfl rfl rfl rfl rfl rfl)

theorem stepPassed_keeps {r : State} {read : List (List Byte)} {s : State} (hs : Keeps r s) :
    Keeps r (stepPassed read s) := by
  unfold stepPassed
  repeat' first
    | with_reducible assumption | with_reducible apply toStep_keeps | with_reducible apply stepTwo_keeps
    | with_reducible apply stepThree_keeps | with_reducible apply stepFour_keeps | with_reducible apply stepFive_keeps
    | with_reducible apply wr_keeps | with_reducible apply stepSeven_keeps | with_reducible apply stepEight_keeps
    | with_reducible apply stepNine_keeps | with_reducible apply stepTen_keeps | with_reducible apply stepEleven_keeps
    | with_reducible apply stepTwelve_keeps | with_reducible apply stepThirteen_keeps | split | dsimp only | intro _ _ _
    | intro _ _ | intro _ | (with_reducible refine Keeps.mk_over ?_ rfl rfl rfl rfl rfl rfl)

theorem startupStepDone_keeps {r : State} {o : StepOutcome} {s : State} (hs : Keeps r s) :
    Keeps r (startupStepDone o s) := by
  unfold startupStepDone
  repeat' first
    | with_reducible assumption | with_reducible apply stepPassed_keeps | with_reducible apply raise_keeps
    | with_reducible apply stepTwo_keeps | with_reducible apply toStep_keeps | with_reducible apply wr_keeps
    | with_reducible apply enterHeld_keeps | with_reducible apply establish_keeps | split | dsimp only | intro _ _ _ | intro _ _
    | intro _ | (with_reducible refine Keeps.mk_over ?_ rfl rfl rfl rfl rfl rfl)

theorem execStartupStepDone_keeps {r : State} {o : StepOutcome} {s : State} (hs : Keeps r s) :
    OutKeeps r (execStartupStepDone o s) := by
  unfold execStartupStepDone
  repeat' first
    | with_reducible assumption | with_reducible apply guarded_keeps | with_reducible apply OutKeeps.next
    | exact OutKeeps.refused _ | exact OutKeeps.fault _ | with_reducible apply onlyIf_keeps
    | with_reducible apply startupStepDone_keeps | split | dsimp only | intro _ _ _ | intro _ _ | intro _
    | (with_reducible refine Keeps.mk_over ?_ rfl rfl rfl rfl rfl rfl)

theorem stepOverrun_keeps {r : State} {s : State} (hs : Keeps r s) :
    Keeps r (stepOverrun s) := by
  unfold stepOverrun
  repeat' first
    | with_reducible assumption | with_reducible apply raise_keeps | with_reducible apply wr_keeps | split | dsimp only
    | (with_reducible refine Keeps.mk_over ?_ rfl rfl rfl rfl rfl rfl)

theorem execStepOverrun_keeps {r : State} {s : State} (hs : Keeps r s) :
    OutKeeps r (execStepOverrun s) := by
  unfold execStepOverrun
  repeat' first
    | with_reducible assumption | with_reducible apply guarded_keeps | with_reducible apply OutKeeps.next
    | exact OutKeeps.refused _ | exact OutKeeps.fault _ | with_reducible apply onlyIf_keeps
    | with_reducible apply stepOverrun_keeps | split | dsimp only | intro _ _ _ | intro _ _ | intro _
    | (with_reducible refine Keeps.mk_over ?_ rfl rfl rfl rfl rfl rfl)

theorem loadBusy_keeps {r : State} {s : State} (hs : Keeps r s) :
    Keeps r (loadBusy s) := by
  unfold loadBusy
  repeat' first
    | with_reducible assumption | with_reducible apply raise_keeps | with_reducible apply wr_keeps | split | dsimp only
    | (with_reducible refine Keeps.mk_over ?_ rfl rfl rfl rfl rfl rfl)

theorem startLoad_keeps {r : State} {image : List Byte} {s : State} (hs : Keeps r s) :
    Keeps r (startLoad image s) := by
  unfold startLoad
  repeat' first
    | with_reducible assumption | with_reducible apply undoLoad_keeps | with_reducible apply toStep_keeps
    | with_reducible apply loadBusy_keeps | split | dsimp only
    | (with_reducible refine Keeps.mk_over ?_ rfl rfl rfl rfl rfl rfl)

theorem runFails_keeps {r : State} {e : LoadFail} {s : State} (hs : Keeps r s) :
    Keeps r (runFails e s) := by
  unfold runFails
  repeat' first
    | with_reducible assumption | with_reducible apply reportFail_keeps | with_reducible apply refuseNow_keeps | split
    | dsimp only | (with_reducible refine Keeps.mk_over ?_ rfl rfl rfl rfl rfl rfl)

theorem runCommit_keeps {r : State} {b : Block} {s : State} (hs : Keeps r s) :
    Keeps r (runCommit b s) := by
  unfold runCommit
  repeat' first
    | with_reducible assumption | with_reducible apply clsCommitStart_keeps | with_reducible apply loaderCommit_keeps | split
    | dsimp only | (with_reducible refine Keeps.mk_over ?_ rfl rfl rfl rfl rfl rfl)

theorem fillLoaded_keeps {r : State} {d : List Byte} {old : State} {s : State} (_hold : Keeps r old) (hs : Keeps r s) :
    Keeps r (fillLoaded d old s) := by
  unfold fillLoaded
  repeat' first
    | with_reducible assumption | with_reducible apply foldOver_keeps | with_reducible apply putTokens_keeps | split
    | dsimp only | intro _ _ _ | intro _ _ | intro _ | (with_reducible refine Keeps.mk_over ?_ rfl rfl rfl rfl rfl rfl)

theorem finishRun_keeps {r : State} {d : List Byte} {s : State} (hs : Keeps r s) :
    Keeps r (finishRun d s) := by
  unfold finishRun
  split
  · exact runFails_keeps (withShadows_keeps hs)
  · next t e =>
    have ht := applyImage_keeps hs t e
    split
    · exact runFails_keeps (withShadows_keeps hs)
    · have hu : Keeps r (foldOver (namedClusters d) (fun c a => wrC mcsBankCtl_bankSel c (1 - liveBank c a) a) t) :=
        foldOver_keeps (fun _ _ h => wrC_keeps h) ht
      exact raise_keeps (showConfig_keeps (reportFail_keeps (fillLoaded_keeps hu
        (foldOver_keeps (fun _ _ h => runCommit_keeps h) (Keeps.mk_over hu rfl rfl rfl rfl rfl rfl)))))

theorem runLoad_keeps {r : State} {d : List Byte} {s : State} (hs : Keeps r s) :
    Keeps r (runLoad d s) := by
  unfold runLoad
  split
  · exact runFails_keeps hs
  · split
    · exact runFails_keeps (withShadows_keeps hs)
    · split
      · exact runFails_keeps (noteBank_keeps (withShadows_keeps hs))
      · exact runFails_keeps (withShadows_keeps hs)
      · split
        · exact finishRun_keeps hs
        · exact foldOver_keeps (fun _ _ h => foldOver_keeps (fun _ _ h => beginBankLoad_keeps h) h)
            (Keeps.mk_over (withShadows_keeps hs) rfl rfl rfl rfl rfl rfl)

theorem runTimeLoad_keeps {r : State} {image : List Byte} {s : State} (hs : Keeps r s) :
    Keeps r (runTimeLoad image s) := by
  unfold runTimeLoad
  repeat' first
    | with_reducible assumption | with_reducible apply runLoad_keeps | with_reducible apply loadBusy_keeps | split | dsimp only
    | (with_reducible refine Keeps.mk_over ?_ rfl rfl rfl rfl rfl rfl)

theorem loadCtlWrite_keeps {r : State} {v : Word} {image : List Byte} {s : State} (hs : Keeps r s) :
    Keeps r (loadCtlWrite v image s) := by
  unfold loadCtlWrite
  repeat' first
    | with_reducible assumption | with_reducible apply storeFields_keeps | with_reducible apply startLoad_keeps
    | with_reducible apply runTimeLoad_keeps | split | dsimp only
    | (with_reducible refine Keeps.mk_over ?_ rfl rfl rfl rfl rfl rfl)

theorem execStartLoad_keeps {r : State} {w : Window} {v : Word} {image : List Byte} {s : State} (hs : Keeps r s) :
    OutKeeps r (execStartLoad w v image s) := by
  unfold execStartLoad
  repeat' first
    | with_reducible assumption | with_reducible apply guarded_keeps | with_reducible apply OutKeeps.next
    | exact OutKeeps.refused _ | exact OutKeeps.fault _ | with_reducible apply writing_keeps
    | with_reducible apply loadCtlWrite_keeps | split | dsimp only | intro _ _ _ | intro _ _ | intro _
    | (with_reducible refine Keeps.mk_over ?_ rfl rfl rfl rfl rfl rfl)

theorem execRunTimeLoad_keeps {r : State} {w : Window} {v : Word} {image : List Byte} {s : State} (hs : Keeps r s) :
    OutKeeps r (execRunTimeLoad w v image s) := by
  unfold execRunTimeLoad
  repeat' first
    | with_reducible assumption | with_reducible apply guarded_keeps | with_reducible apply OutKeeps.next
    | exact OutKeeps.refused _ | exact OutKeeps.fault _ | with_reducible apply writing_keeps
    | with_reducible apply loadCtlWrite_keeps | split | dsimp only | intro _ _ _ | intro _ _ | intro _
    | (with_reducible refine Keeps.mk_over ?_ rfl rfl rfl rfl rfl rfl)

theorem patchGoesOn_keeps {r : State} {c : Nat} {s : State} (hs : Keeps r s) :
    Keeps r (patchGoesOn c s) := by
  unfold patchGoesOn
  repeat' first
    | with_reducible assumption | with_reducible apply patchNext_keeps | split | dsimp only
    | (with_reducible refine Keeps.mk_over ?_ rfl rfl rfl rfl rfl rfl)

theorem loadGoesOn_keeps {r : State} {c : Nat} {s : State} (hs : Keeps r s) :
    Keeps r (loadGoesOn c s) := by
  unfold loadGoesOn
  repeat' first
    | with_reducible assumption | with_reducible apply finishRun_keeps | split | dsimp only
    | (with_reducible refine Keeps.mk_over ?_ rfl rfl rfl rfl rfl rfl)

theorem execBankLoadDone_keeps {r : State} {c : Nat} {s : State} (hs : Keeps r s) :
    OutKeeps r (execBankLoadDone c s) := by
  unfold execBankLoadDone
  repeat' first
    | with_reducible assumption | with_reducible apply guarded_keeps | with_reducible apply OutKeeps.next
    | exact OutKeeps.refused _ | exact OutKeeps.fault _ | with_reducible apply onlyIf_keeps
    | with_reducible apply loadGoesOn_keeps | with_reducible apply patchGoesOn_keeps | with_reducible apply bankLoadDone_keeps
    | split | dsimp only | intro _ _ _ | intro _ _ | intro _ | (with_reducible refine Keeps.mk_over ?_ rfl rfl rfl rfl rfl rfl)

end Sys2Proof.Machine
end

