-- ==== Sys2Proof/Laws/RegistersKeeps.lean ====
section
/-! SUPPORT. Every operation of Machine/Registers.lean keeps what `Keeps` speaks of. -/

-- The alternatives of each proof's `first` are the same list; not every alternative is used in every proof.
set_option linter.unreachableTactic false
set_option linter.unusedTactic false

namespace Sys2Proof.Machine

theorem registerAccess_keeps {r : State} {w : Window} {off : Nat} {be : Nat} {write : Bool} {v : Word} {s : State} (hs : Keeps r s) :
    Keeps r (registerAccess w off be write v s) := by
  unfold registerAccess
  repeat' first
    | with_reducible assumption | with_reducible apply writing_keeps | with_reducible apply loadCtlWrite_keeps
    | with_reducible apply accessAt_keeps | split | dsimp only | intro _ _ _ | intro _ _ | intro _
    | (with_reducible refine Keeps.mk_over ?_ rfl rfl rfl rfl rfl rfl)

theorem execRegisterWrite_keeps {r : State} {w : Window} {off : Nat} {be : Nat} {write : Bool} {v : Word} {s : State} (hs : Keeps r s) :
    OutKeeps r (execRegisterWrite w off be write v s) := by
  unfold execRegisterWrite
  repeat' first
    | with_reducible assumption | with_reducible apply guarded_keeps | with_reducible apply OutKeeps.next
    | exact OutKeeps.refused _ | exact OutKeeps.fault _ | with_reducible apply registerAccess_keeps | split | dsimp only
    | (with_reducible refine Keeps.mk_over ?_ rfl rfl rfl rfl rfl rfl)

theorem execCounterSnapshotRead_keeps {r : State} {w : Window} {off : Nat} {s : State} (hs : Keeps r s) :
    OutKeeps r (execCounterSnapshotRead w off s) := by
  unfold execCounterSnapshotRead
  repeat' first
    | with_reducible assumption | with_reducible apply guarded_keeps | with_reducible apply OutKeeps.next
    | exact OutKeeps.refused _ | exact OutKeeps.fault _ | with_reducible apply reading_keeps | with_reducible apply readAt_keeps
    | split | dsimp only | intro _ _ _ | intro _ _ | intro _ | (with_reducible refine Keeps.mk_over ?_ rfl rfl rfl rfl rfl rfl)

theorem execCounterClear_keeps {r : State} {w : Window} {off : Nat} {v : Word} {s : State} (hs : Keeps r s) :
    OutKeeps r (execCounterClear w off v s) := by
  unfold execCounterClear
  repeat' first
    | with_reducible assumption | with_reducible apply guarded_keeps | with_reducible apply OutKeeps.next
    | exact OutKeeps.refused _ | exact OutKeeps.fault _ | with_reducible apply writeAt_keeps | split | dsimp only
    | (with_reducible refine Keeps.mk_over ?_ rfl rfl rfl rfl rfl rfl)

theorem execChanSelWrite_keeps {r : State} {w : Window} {b : Block} {v : Word} {s : State} (hs : Keeps r s) :
    OutKeeps r (execChanSelWrite w b v s) := by
  unfold execChanSelWrite
  repeat' first
    | with_reducible assumption | with_reducible apply guarded_keeps | with_reducible apply OutKeeps.next
    | exact OutKeeps.refused _ | exact OutKeeps.fault _ | with_reducible apply writingFree_keeps
    | with_reducible apply chanSelWrite_keeps | split | dsimp only | intro _ _ _ | intro _ _ | intro _
    | (with_reducible refine Keeps.mk_over ?_ rfl rfl rfl rfl rfl rfl)

theorem execOwnerWrite_keeps {r : State} {w : Window} {b : Block} {v : Word} {s : State} (hs : Keeps r s) :
    OutKeeps r (execOwnerWrite w b v s) := by
  unfold execOwnerWrite
  repeat' first
    | with_reducible assumption | with_reducible apply guarded_keeps | with_reducible apply OutKeeps.next
    | exact OutKeeps.refused _ | exact OutKeeps.fault _ | with_reducible apply writingFree_keeps
    | with_reducible apply ownerWrite_keeps | split | dsimp only | intro _ _ _ | intro _ _ | intro _
    | (with_reducible refine Keeps.mk_over ?_ rfl rfl rfl rfl rfl rfl)

end Sys2Proof.Machine
end

