-- ==== Sys2Proof/Laws/Squelch.lean ====
section
/-! SUPPORT. What following the squelch of the synchronous Ethernet outputs (R477) can do: it writes the squelch marks of the time island and
raises events, and nothing else. -/

namespace Sys2Proof.Machine

theorem refreshSynce1_only (k : Nat) (s : State) :
    ∃ x, OnlyEvents { s with tim := { s.tim with squelched := x } } (refreshSynce1 k s) := by
  unfold refreshSynce1
  dsimp only
  split
  · exact ⟨s.tim.squelched, OnlyEvents.refl s⟩
  · split
    · exact ⟨_, raise_onlyEvents _ _⟩
    · exact ⟨_, raise_onlyEvents _ _⟩

/-- Following the squelch writes its marks and raises events. -/
theorem refreshSynce_only (s : State) :
    ∃ x, OnlyEvents { s with tim := { s.tim with squelched := x } } (refreshSynce s) := by
  obtain ⟨x, hx⟩ := refreshSynce1_only 0 s
  obtain ⟨y, hy⟩ := refreshSynce1_only 1 (refreshSynce1 0 s)
  refine ⟨y, ?_⟩
  have h := hx.with_tim { s.tim with squelched := y }
  have e : (refreshSynce1 0 s).tim = { s.tim with squelched := x } := hx.tim
  rw [e] at hy
  exact h.trans hy

/-- A register field that is no Touchmark statistic is as it was. -/
theorem rdX_refreshSynce {f : Fld} {i c : Nat} (s : State) (h : ¬ StatKey (keyOfField f i c)) :
    rdX f i c (refreshSynce s) = rdX f i c s := by
  obtain ⟨x, hx⟩ := refreshSynce_only s
  exact hx.rdX h

/-- The committed values are as they were. -/
theorem cfX_refreshSynce (f : Fld) (i c : Nat) (s : State) : cfX f i c (refreshSynce s) = cfX f i c s := by
  obtain ⟨x, hx⟩ := refreshSynce_only s
  exact hx.cfX f i c

/-- The targets are as they were. -/
theorem tgt_refreshSynce (t : Target) (s : State) : tgt t (refreshSynce s) = tgt t s := by
  obtain ⟨x, hx⟩ := refreshSynce_only s
  exact hx.tgt t

end Sys2Proof.Machine
end

