-- ==== Sys2Proof/Laws/State.lean ====
section
/-! SUPPORT. One lemma per field of State per named update that leaves it alone. -/

namespace Sys2Proof.Machine

@[simp] theorem putReg_pending (off inst : Nat) (v : Word) (s : State) : (putReg off inst v s).pending = s.pending := rfl
@[simp] theorem putReg_variant (off inst : Nat) (v : Word) (s : State) : (putReg off inst v s).variant = s.variant := rfl
@[simp] theorem putReg_evt (off inst : Nat) (v : Word) (s : State) : (putReg off inst v s).evt = s.evt := rfl
@[simp] theorem putReg_tmk (off inst : Nat) (v : Word) (s : State) : (putReg off inst v s).tmk = s.tmk := rfl
@[simp] theorem putReg_pcn (off inst : Nat) (v : Word) (s : State) : (putReg off inst v s).pcn = s.pcn := rfl
@[simp] theorem putReg_tim (off inst : Nat) (v : Word) (s : State) : (putReg off inst v s).tim = s.tim := rfl
@[simp] theorem putReg_pwr (off inst : Nat) (v : Word) (s : State) : (putReg off inst v s).pwr = s.pwr := rfl
@[simp] theorem putReg_start (off inst : Nat) (v : Word) (s : State) : (putReg off inst v s).start = s.start := rfl
@[simp] theorem putReg_lanes (off inst : Nat) (v : Word) (s : State) : (putReg off inst v s).lanes = s.lanes := rfl
@[simp] theorem putReg_l2 (off inst : Nat) (v : Word) (s : State) : (putReg off inst v s).l2 = s.l2 := rfl
@[simp] theorem putReg_lpm (off inst : Nat) (v : Word) (s : State) : (putReg off inst v s).lpm = s.lpm := rfl
@[simp] theorem putReg_frames (off inst : Nat) (v : Word) (s : State) : (putReg off inst v s).frames = s.frames := rfl
@[simp] theorem putReg_nextFrame (off inst : Nat) (v : Word) (s : State) : (putReg off inst v s).nextFrame = s.nextFrame := rfl
@[simp] theorem putReg_rx (off inst : Nat) (v : Word) (s : State) : (putReg off inst v s).rx = s.rx := rfl
@[simp] theorem putReg_ver (off inst : Nat) (v : Word) (s : State) : (putReg off inst v s).ver = s.ver := rfl
@[simp] theorem putReg_pools (off inst : Nat) (v : Word) (s : State) : (putReg off inst v s).pools = s.pools := rfl
@[simp] theorem putReg_sw (off inst : Nat) (v : Word) (s : State) : (putReg off inst v s).sw = s.sw := rfl
@[simp] theorem putReg_egr (off inst : Nat) (v : Word) (s : State) : (putReg off inst v s).egr = s.egr := rfl
@[simp] theorem putReg_flow (off inst : Nat) (v : Word) (s : State) : (putReg off inst v s).flow = s.flow := rfl
@[simp] theorem putReg_dsp (off inst : Nat) (v : Word) (s : State) : (putReg off inst v s).dsp = s.dsp := rfl
@[simp] theorem putReg_fen (off inst : Nat) (v : Word) (s : State) : (putReg off inst v s).fen = s.fen := rfl
@[simp] theorem putReg_bq (off inst : Nat) (v : Word) (s : State) : (putReg off inst v s).bq = s.bq := rfl
@[simp] theorem putReg_mesh (off inst : Nat) (v : Word) (s : State) : (putReg off inst v s).mesh = s.mesh := rfl
@[simp] theorem putReg_fw (off inst : Nat) (v : Word) (s : State) : (putReg off inst v s).fw = s.fw := rfl
@[simp] theorem putReg_recov (off inst : Nat) (v : Word) (s : State) : (putReg off inst v s).recov = s.recov := rfl
@[simp] theorem putReg_io (off inst : Nat) (v : Word) (s : State) : (putReg off inst v s).io = s.io := rfl
@[simp] theorem putReg_out (off inst : Nat) (v : Word) (s : State) : (putReg off inst v s).out = s.out := rfl

@[simp] theorem wrX_pending (f : Fld) (i c v : Nat) (s : State) : (wrX f i c v s).pending = s.pending := rfl
@[simp] theorem wrX_variant (f : Fld) (i c v : Nat) (s : State) : (wrX f i c v s).variant = s.variant := rfl
@[simp] theorem wrX_evt (f : Fld) (i c v : Nat) (s : State) : (wrX f i c v s).evt = s.evt := rfl
@[simp] theorem wrX_tmk (f : Fld) (i c v : Nat) (s : State) : (wrX f i c v s).tmk = s.tmk := rfl
@[simp] theorem wrX_pcn (f : Fld) (i c v : Nat) (s : State) : (wrX f i c v s).pcn = s.pcn := rfl
@[simp] theorem wrX_tim (f : Fld) (i c v : Nat) (s : State) : (wrX f i c v s).tim = s.tim := rfl
@[simp] theorem wrX_pwr (f : Fld) (i c v : Nat) (s : State) : (wrX f i c v s).pwr = s.pwr := rfl
@[simp] theorem wrX_start (f : Fld) (i c v : Nat) (s : State) : (wrX f i c v s).start = s.start := rfl
@[simp] theorem wrX_lanes (f : Fld) (i c v : Nat) (s : State) : (wrX f i c v s).lanes = s.lanes := rfl
@[simp] theorem wrX_l2 (f : Fld) (i c v : Nat) (s : State) : (wrX f i c v s).l2 = s.l2 := rfl
@[simp] theorem wrX_lpm (f : Fld) (i c v : Nat) (s : State) : (wrX f i c v s).lpm = s.lpm := rfl
@[simp] theorem wrX_frames (f : Fld) (i c v : Nat) (s : State) : (wrX f i c v s).frames = s.frames := rfl
@[simp] theorem wrX_nextFrame (f : Fld) (i c v : Nat) (s : State) : (wrX f i c v s).nextFrame = s.nextFrame := rfl
@[simp] theorem wrX_rx (f : Fld) (i c v : Nat) (s : State) : (wrX f i c v s).rx = s.rx := rfl
@[simp] theorem wrX_ver (f : Fld) (i c v : Nat) (s : State) : (wrX f i c v s).ver = s.ver := rfl
@[simp] theorem wrX_pools (f : Fld) (i c v : Nat) (s : State) : (wrX f i c v s).pools = s.pools := rfl
@[simp] theorem wrX_sw (f : Fld) (i c v : Nat) (s : State) : (wrX f i c v s).sw = s.sw := rfl
@[simp] theorem wrX_egr (f : Fld) (i c v : Nat) (s : State) : (wrX f i c v s).egr = s.egr := rfl
@[simp] theorem wrX_flow (f : Fld) (i c v : Nat) (s : State) : (wrX f i c v s).flow = s.flow := rfl
@[simp] theorem wrX_dsp (f : Fld) (i c v : Nat) (s : State) : (wrX f i c v s).dsp = s.dsp := rfl
@[simp] theorem wrX_fen (f : Fld) (i c v : Nat) (s : State) : (wrX f i c v s).fen = s.fen := rfl
@[simp] theorem wrX_bq (f : Fld) (i c v : Nat) (s : State) : (wrX f i c v s).bq = s.bq := rfl
@[simp] theorem wrX_mesh (f : Fld) (i c v : Nat) (s : State) : (wrX f i c v s).mesh = s.mesh := rfl
@[simp] theorem wrX_fw (f : Fld) (i c v : Nat) (s : State) : (wrX f i c v s).fw = s.fw := rfl
@[simp] theorem wrX_recov (f : Fld) (i c v : Nat) (s : State) : (wrX f i c v s).recov = s.recov := rfl
@[simp] theorem wrX_io (f : Fld) (i c v : Nat) (s : State) : (wrX f i c v s).io = s.io := rfl
@[simp] theorem wrX_out (f : Fld) (i c v : Nat) (s : State) : (wrX f i c v s).out = s.out := rfl

@[simp] theorem wr_pending (f : Fld) (v : Nat) (s : State) : (wr f v s).pending = s.pending := rfl
@[simp] theorem wr_variant (f : Fld) (v : Nat) (s : State) : (wr f v s).variant = s.variant := rfl
@[simp] theorem wr_evt (f : Fld) (v : Nat) (s : State) : (wr f v s).evt = s.evt := rfl
@[simp] theorem wr_tmk (f : Fld) (v : Nat) (s : State) : (wr f v s).tmk = s.tmk := rfl
@[simp] theorem wr_pcn (f : Fld) (v : Nat) (s : State) : (wr f v s).pcn = s.pcn := rfl
@[simp] theorem wr_tim (f : Fld) (v : Nat) (s : State) : (wr f v s).tim = s.tim := rfl
@[simp] theorem wr_pwr (f : Fld) (v : Nat) (s : State) : (wr f v s).pwr = s.pwr := rfl
@[simp] theorem wr_start (f : Fld) (v : Nat) (s : State) : (wr f v s).start = s.start := rfl
@[simp] theorem wr_lanes (f : Fld) (v : Nat) (s : State) : (wr f v s).lanes = s.lanes := rfl
@[simp] theorem wr_l2 (f : Fld) (v : Nat) (s : State) : (wr f v s).l2 = s.l2 := rfl
@[simp] theorem wr_lpm (f : Fld) (v : Nat) (s : State) : (wr f v s).lpm = s.lpm := rfl
@[simp] theorem wr_frames (f : Fld) (v : Nat) (s : State) : (wr f v s).frames = s.frames := rfl
@[simp] theorem wr_nextFrame (f : Fld) (v : Nat) (s : State) : (wr f v s).nextFrame = s.nextFrame := rfl
@[simp] theorem wr_rx (f : Fld) (v : Nat) (s : State) : (wr f v s).rx = s.rx := rfl
@[simp] theorem wr_ver (f : Fld) (v : Nat) (s : State) : (wr f v s).ver = s.ver := rfl
@[simp] theorem wr_pools (f : Fld) (v : Nat) (s : State) : (wr f v s).pools = s.pools := rfl
@[simp] theorem wr_sw (f : Fld) (v : Nat) (s : State) : (wr f v s).sw = s.sw := rfl
@[simp] theorem wr_egr (f : Fld) (v : Nat) (s : State) : (wr f v s).egr = s.egr := rfl
@[simp] theorem wr_flow (f : Fld) (v : Nat) (s : State) : (wr f v s).flow = s.flow := rfl
@[simp] theorem wr_dsp (f : Fld) (v : Nat) (s : State) : (wr f v s).dsp = s.dsp := rfl
@[simp] theorem wr_fen (f : Fld) (v : Nat) (s : State) : (wr f v s).fen = s.fen := rfl
@[simp] theorem wr_bq (f : Fld) (v : Nat) (s : State) : (wr f v s).bq = s.bq := rfl
@[simp] theorem wr_mesh (f : Fld) (v : Nat) (s : State) : (wr f v s).mesh = s.mesh := rfl
@[simp] theorem wr_fw (f : Fld) (v : Nat) (s : State) : (wr f v s).fw = s.fw := rfl
@[simp] theorem wr_recov (f : Fld) (v : Nat) (s : State) : (wr f v s).recov = s.recov := rfl
@[simp] theorem wr_io (f : Fld) (v : Nat) (s : State) : (wr f v s).io = s.io := rfl
@[simp] theorem wr_out (f : Fld) (v : Nat) (s : State) : (wr f v s).out = s.out := rfl

@[simp] theorem wrC_pending (f : Fld) (c v : Nat) (s : State) : (wrC f c v s).pending = s.pending := rfl
@[simp] theorem wrC_variant (f : Fld) (c v : Nat) (s : State) : (wrC f c v s).variant = s.variant := rfl
@[simp] theorem wrC_evt (f : Fld) (c v : Nat) (s : State) : (wrC f c v s).evt = s.evt := rfl
@[simp] theorem wrC_tmk (f : Fld) (c v : Nat) (s : State) : (wrC f c v s).tmk = s.tmk := rfl
@[simp] theorem wrC_pcn (f : Fld) (c v : Nat) (s : State) : (wrC f c v s).pcn = s.pcn := rfl
@[simp] theorem wrC_tim (f : Fld) (c v : Nat) (s : State) : (wrC f c v s).tim = s.tim := rfl
@[simp] theorem wrC_pwr (f : Fld) (c v : Nat) (s : State) : (wrC f c v s).pwr = s.pwr := rfl
@[simp] theorem wrC_start (f : Fld) (c v : Nat) (s : State) : (wrC f c v s).start = s.start := rfl
@[simp] theorem wrC_lanes (f : Fld) (c v : Nat) (s : State) : (wrC f c v s).lanes = s.lanes := rfl
@[simp] theorem wrC_l2 (f : Fld) (c v : Nat) (s : State) : (wrC f c v s).l2 = s.l2 := rfl
@[simp] theorem wrC_lpm (f : Fld) (c v : Nat) (s : State) : (wrC f c v s).lpm = s.lpm := rfl
@[simp] theorem wrC_frames (f : Fld) (c v : Nat) (s : State) : (wrC f c v s).frames = s.frames := rfl
@[simp] theorem wrC_nextFrame (f : Fld) (c v : Nat) (s : State) : (wrC f c v s).nextFrame = s.nextFrame := rfl
@[simp] theorem wrC_rx (f : Fld) (c v : Nat) (s : State) : (wrC f c v s).rx = s.rx := rfl
@[simp] theorem wrC_ver (f : Fld) (c v : Nat) (s : State) : (wrC f c v s).ver = s.ver := rfl
@[simp] theorem wrC_pools (f : Fld) (c v : Nat) (s : State) : (wrC f c v s).pools = s.pools := rfl
@[simp] theorem wrC_sw (f : Fld) (c v : Nat) (s : State) : (wrC f c v s).sw = s.sw := rfl
@[simp] theorem wrC_egr (f : Fld) (c v : Nat) (s : State) : (wrC f c v s).egr = s.egr := rfl
@[simp] theorem wrC_flow (f : Fld) (c v : Nat) (s : State) : (wrC f c v s).flow = s.flow := rfl
@[simp] theorem wrC_dsp (f : Fld) (c v : Nat) (s : State) : (wrC f c v s).dsp = s.dsp := rfl
@[simp] theorem wrC_fen (f : Fld) (c v : Nat) (s : State) : (wrC f c v s).fen = s.fen := rfl
@[simp] theorem wrC_bq (f : Fld) (c v : Nat) (s : State) : (wrC f c v s).bq = s.bq := rfl
@[simp] theorem wrC_mesh (f : Fld) (c v : Nat) (s : State) : (wrC f c v s).mesh = s.mesh := rfl
@[simp] theorem wrC_fw (f : Fld) (c v : Nat) (s : State) : (wrC f c v s).fw = s.fw := rfl
@[simp] theorem wrC_recov (f : Fld) (c v : Nat) (s : State) : (wrC f c v s).recov = s.recov := rfl
@[simp] theorem wrC_io (f : Fld) (c v : Nat) (s : State) : (wrC f c v s).io = s.io := rfl
@[simp] theorem wrC_out (f : Fld) (c v : Nat) (s : State) : (wrC f c v s).out = s.out := rfl

@[simp] theorem satX_pending (f : Fld) (i c d : Nat) (s : State) : (satX f i c d s).pending = s.pending := rfl
@[simp] theorem satX_variant (f : Fld) (i c d : Nat) (s : State) : (satX f i c d s).variant = s.variant := rfl
@[simp] theorem satX_evt (f : Fld) (i c d : Nat) (s : State) : (satX f i c d s).evt = s.evt := rfl
@[simp] theorem satX_tmk (f : Fld) (i c d : Nat) (s : State) : (satX f i c d s).tmk = s.tmk := rfl
@[simp] theorem satX_pcn (f : Fld) (i c d : Nat) (s : State) : (satX f i c d s).pcn = s.pcn := rfl
@[simp] theorem satX_tim (f : Fld) (i c d : Nat) (s : State) : (satX f i c d s).tim = s.tim := rfl
@[simp] theorem satX_pwr (f : Fld) (i c d : Nat) (s : State) : (satX f i c d s).pwr = s.pwr := rfl
@[simp] theorem satX_start (f : Fld) (i c d : Nat) (s : State) : (satX f i c d s).start = s.start := rfl
@[simp] theorem satX_lanes (f : Fld) (i c d : Nat) (s : State) : (satX f i c d s).lanes = s.lanes := rfl
@[simp] theorem satX_l2 (f : Fld) (i c d : Nat) (s : State) : (satX f i c d s).l2 = s.l2 := rfl
@[simp] theorem satX_lpm (f : Fld) (i c d : Nat) (s : State) : (satX f i c d s).lpm = s.lpm := rfl
@[simp] theorem satX_frames (f : Fld) (i c d : Nat) (s : State) : (satX f i c d s).frames = s.frames := rfl
@[simp] theorem satX_nextFrame (f : Fld) (i c d : Nat) (s : State) : (satX f i c d s).nextFrame = s.nextFrame := rfl
@[simp] theorem satX_rx (f : Fld) (i c d : Nat) (s : State) : (satX f i c d s).rx = s.rx := rfl
@[simp] theorem satX_ver (f : Fld) (i c d : Nat) (s : State) : (satX f i c d s).ver = s.ver := rfl
@[simp] theorem satX_pools (f : Fld) (i c d : Nat) (s : State) : (satX f i c d s).pools = s.pools := rfl
@[simp] theorem satX_sw (f : Fld) (i c d : Nat) (s : State) : (satX f i c d s).sw = s.sw := rfl
@[simp] theorem satX_egr (f : Fld) (i c d : Nat) (s : State) : (satX f i c d s).egr = s.egr := rfl
@[simp] theorem satX_flow (f : Fld) (i c d : Nat) (s : State) : (satX f i c d s).flow = s.flow := rfl
@[simp] theorem satX_dsp (f : Fld) (i c d : Nat) (s : State) : (satX f i c d s).dsp = s.dsp := rfl
@[simp] theorem satX_fen (f : Fld) (i c d : Nat) (s : State) : (satX f i c d s).fen = s.fen := rfl
@[simp] theorem satX_bq (f : Fld) (i c d : Nat) (s : State) : (satX f i c d s).bq = s.bq := rfl
@[simp] theorem satX_mesh (f : Fld) (i c d : Nat) (s : State) : (satX f i c d s).mesh = s.mesh := rfl
@[simp] theorem satX_fw (f : Fld) (i c d : Nat) (s : State) : (satX f i c d s).fw = s.fw := rfl
@[simp] theorem satX_recov (f : Fld) (i c d : Nat) (s : State) : (satX f i c d s).recov = s.recov := rfl
@[simp] theorem satX_io (f : Fld) (i c d : Nat) (s : State) : (satX f i c d s).io = s.io := rfl
@[simp] theorem satX_out (f : Fld) (i c d : Nat) (s : State) : (satX f i c d s).out = s.out := rfl

@[simp] theorem sat1_pending (f : Fld) (s : State) : (sat1 f s).pending = s.pending := rfl
@[simp] theorem sat1_variant (f : Fld) (s : State) : (sat1 f s).variant = s.variant := rfl
@[simp] theorem sat1_evt (f : Fld) (s : State) : (sat1 f s).evt = s.evt := rfl
@[simp] theorem sat1_tmk (f : Fld) (s : State) : (sat1 f s).tmk = s.tmk := rfl
@[simp] theorem sat1_pcn (f : Fld) (s : State) : (sat1 f s).pcn = s.pcn := rfl
@[simp] theorem sat1_tim (f : Fld) (s : State) : (sat1 f s).tim = s.tim := rfl
@[simp] theorem sat1_pwr (f : Fld) (s : State) : (sat1 f s).pwr = s.pwr := rfl
@[simp] theorem sat1_start (f : Fld) (s : State) : (sat1 f s).start = s.start := rfl
@[simp] theorem sat1_lanes (f : Fld) (s : State) : (sat1 f s).lanes = s.lanes := rfl
@[simp] theorem sat1_l2 (f : Fld) (s : State) : (sat1 f s).l2 = s.l2 := rfl
@[simp] theorem sat1_lpm (f : Fld) (s : State) : (sat1 f s).lpm = s.lpm := rfl
@[simp] theorem sat1_frames (f : Fld) (s : State) : (sat1 f s).frames = s.frames := rfl
@[simp] theorem sat1_nextFrame (f : Fld) (s : State) : (sat1 f s).nextFrame = s.nextFrame := rfl
@[simp] theorem sat1_rx (f : Fld) (s : State) : (sat1 f s).rx = s.rx := rfl
@[simp] theorem sat1_ver (f : Fld) (s : State) : (sat1 f s).ver = s.ver := rfl
@[simp] theorem sat1_pools (f : Fld) (s : State) : (sat1 f s).pools = s.pools := rfl
@[simp] theorem sat1_sw (f : Fld) (s : State) : (sat1 f s).sw = s.sw := rfl
@[simp] theorem sat1_egr (f : Fld) (s : State) : (sat1 f s).egr = s.egr := rfl
@[simp] theorem sat1_flow (f : Fld) (s : State) : (sat1 f s).flow = s.flow := rfl
@[simp] theorem sat1_dsp (f : Fld) (s : State) : (sat1 f s).dsp = s.dsp := rfl
@[simp] theorem sat1_fen (f : Fld) (s : State) : (sat1 f s).fen = s.fen := rfl
@[simp] theorem sat1_bq (f : Fld) (s : State) : (sat1 f s).bq = s.bq := rfl
@[simp] theorem sat1_mesh (f : Fld) (s : State) : (sat1 f s).mesh = s.mesh := rfl
@[simp] theorem sat1_fw (f : Fld) (s : State) : (sat1 f s).fw = s.fw := rfl
@[simp] theorem sat1_recov (f : Fld) (s : State) : (sat1 f s).recov = s.recov := rfl
@[simp] theorem sat1_io (f : Fld) (s : State) : (sat1 f s).io = s.io := rfl
@[simp] theorem sat1_out (f : Fld) (s : State) : (sat1 f s).out = s.out := rfl

@[simp] theorem incX_pending (f : Fld) (i c : Nat) (s : State) : (incX f i c s).pending = s.pending := rfl
@[simp] theorem incX_variant (f : Fld) (i c : Nat) (s : State) : (incX f i c s).variant = s.variant := rfl
@[simp] theorem incX_evt (f : Fld) (i c : Nat) (s : State) : (incX f i c s).evt = s.evt := rfl
@[simp] theorem incX_tmk (f : Fld) (i c : Nat) (s : State) : (incX f i c s).tmk = s.tmk := rfl
@[simp] theorem incX_pcn (f : Fld) (i c : Nat) (s : State) : (incX f i c s).pcn = s.pcn := rfl
@[simp] theorem incX_tim (f : Fld) (i c : Nat) (s : State) : (incX f i c s).tim = s.tim := rfl
@[simp] theorem incX_pwr (f : Fld) (i c : Nat) (s : State) : (incX f i c s).pwr = s.pwr := rfl
@[simp] theorem incX_start (f : Fld) (i c : Nat) (s : State) : (incX f i c s).start = s.start := rfl
@[simp] theorem incX_lanes (f : Fld) (i c : Nat) (s : State) : (incX f i c s).lanes = s.lanes := rfl
@[simp] theorem incX_l2 (f : Fld) (i c : Nat) (s : State) : (incX f i c s).l2 = s.l2 := rfl
@[simp] theorem incX_lpm (f : Fld) (i c : Nat) (s : State) : (incX f i c s).lpm = s.lpm := rfl
@[simp] theorem incX_frames (f : Fld) (i c : Nat) (s : State) : (incX f i c s).frames = s.frames := rfl
@[simp] theorem incX_nextFrame (f : Fld) (i c : Nat) (s : State) : (incX f i c s).nextFrame = s.nextFrame := rfl
@[simp] theorem incX_rx (f : Fld) (i c : Nat) (s : State) : (incX f i c s).rx = s.rx := rfl
@[simp] theorem incX_ver (f : Fld) (i c : Nat) (s : State) : (incX f i c s).ver = s.ver := rfl
@[simp] theorem incX_pools (f : Fld) (i c : Nat) (s : State) : (incX f i c s).pools = s.pools := rfl
@[simp] theorem incX_sw (f : Fld) (i c : Nat) (s : State) : (incX f i c s).sw = s.sw := rfl
@[simp] theorem incX_egr (f : Fld) (i c : Nat) (s : State) : (incX f i c s).egr = s.egr := rfl
@[simp] theorem incX_flow (f : Fld) (i c : Nat) (s : State) : (incX f i c s).flow = s.flow := rfl
@[simp] theorem incX_dsp (f : Fld) (i c : Nat) (s : State) : (incX f i c s).dsp = s.dsp := rfl
@[simp] theorem incX_fen (f : Fld) (i c : Nat) (s : State) : (incX f i c s).fen = s.fen := rfl
@[simp] theorem incX_bq (f : Fld) (i c : Nat) (s : State) : (incX f i c s).bq = s.bq := rfl
@[simp] theorem incX_mesh (f : Fld) (i c : Nat) (s : State) : (incX f i c s).mesh = s.mesh := rfl
@[simp] theorem incX_fw (f : Fld) (i c : Nat) (s : State) : (incX f i c s).fw = s.fw := rfl
@[simp] theorem incX_recov (f : Fld) (i c : Nat) (s : State) : (incX f i c s).recov = s.recov := rfl
@[simp] theorem incX_io (f : Fld) (i c : Nat) (s : State) : (incX f i c s).io = s.io := rfl
@[simp] theorem incX_out (f : Fld) (i c : Nat) (s : State) : (incX f i c s).out = s.out := rfl

@[simp] theorem emit_pending (o : Output) (s : State) : (emit o s).pending = s.pending := rfl
@[simp] theorem emit_variant (o : Output) (s : State) : (emit o s).variant = s.variant := rfl
@[simp] theorem emit_fab (o : Output) (s : State) : (emit o s).fab = s.fab := rfl
@[simp] theorem emit_evt (o : Output) (s : State) : (emit o s).evt = s.evt := rfl
@[simp] theorem emit_tmk (o : Output) (s : State) : (emit o s).tmk = s.tmk := rfl
@[simp] theorem emit_pcn (o : Output) (s : State) : (emit o s).pcn = s.pcn := rfl
@[simp] theorem emit_tim (o : Output) (s : State) : (emit o s).tim = s.tim := rfl
@[simp] theorem emit_pwr (o : Output) (s : State) : (emit o s).pwr = s.pwr := rfl
@[simp] theorem emit_start (o : Output) (s : State) : (emit o s).start = s.start := rfl
@[simp] theorem emit_lanes (o : Output) (s : State) : (emit o s).lanes = s.lanes := rfl
@[simp] theorem emit_l2 (o : Output) (s : State) : (emit o s).l2 = s.l2 := rfl
@[simp] theorem emit_lpm (o : Output) (s : State) : (emit o s).lpm = s.lpm := rfl
@[simp] theorem emit_frames (o : Output) (s : State) : (emit o s).frames = s.frames := rfl
@[simp] theorem emit_nextFrame (o : Output) (s : State) : (emit o s).nextFrame = s.nextFrame := rfl
@[simp] theorem emit_rx (o : Output) (s : State) : (emit o s).rx = s.rx := rfl
@[simp] theorem emit_ver (o : Output) (s : State) : (emit o s).ver = s.ver := rfl
@[simp] theorem emit_pools (o : Output) (s : State) : (emit o s).pools = s.pools := rfl
@[simp] theorem emit_sw (o : Output) (s : State) : (emit o s).sw = s.sw := rfl
@[simp] theorem emit_egr (o : Output) (s : State) : (emit o s).egr = s.egr := rfl
@[simp] theorem emit_flow (o : Output) (s : State) : (emit o s).flow = s.flow := rfl
@[simp] theorem emit_dsp (o : Output) (s : State) : (emit o s).dsp = s.dsp := rfl
@[simp] theorem emit_fen (o : Output) (s : State) : (emit o s).fen = s.fen := rfl
@[simp] theorem emit_bq (o : Output) (s : State) : (emit o s).bq = s.bq := rfl
@[simp] theorem emit_mesh (o : Output) (s : State) : (emit o s).mesh = s.mesh := rfl
@[simp] theorem emit_fw (o : Output) (s : State) : (emit o s).fw = s.fw := rfl
@[simp] theorem emit_recov (o : Output) (s : State) : (emit o s).recov = s.recov := rfl
@[simp] theorem emit_io (o : Output) (s : State) : (emit o s).io = s.io := rfl

@[simp] theorem putLatch_pending (w : Window) (b : Block) (l : ChanLatch) (s : State) : (putLatch w b l s).pending = s.pending := rfl
@[simp] theorem putLatch_variant (w : Window) (b : Block) (l : ChanLatch) (s : State) : (putLatch w b l s).variant = s.variant := rfl
@[simp] theorem putLatch_evt (w : Window) (b : Block) (l : ChanLatch) (s : State) : (putLatch w b l s).evt = s.evt := rfl
@[simp] theorem putLatch_tmk (w : Window) (b : Block) (l : ChanLatch) (s : State) : (putLatch w b l s).tmk = s.tmk := rfl
@[simp] theorem putLatch_pcn (w : Window) (b : Block) (l : ChanLatch) (s : State) : (putLatch w b l s).pcn = s.pcn := rfl
@[simp] theorem putLatch_tim (w : Window) (b : Block) (l : ChanLatch) (s : State) : (putLatch w b l s).tim = s.tim := rfl
@[simp] theorem putLatch_pwr (w : Window) (b : Block) (l : ChanLatch) (s : State) : (putLatch w b l s).pwr = s.pwr := rfl
@[simp] theorem putLatch_start (w : Window) (b : Block) (l : ChanLatch) (s : State) : (putLatch w b l s).start = s.start := rfl
@[simp] theorem putLatch_lanes (w : Window) (b : Block) (l : ChanLatch) (s : State) : (putLatch w b l s).lanes = s.lanes := rfl
@[simp] theorem putLatch_l2 (w : Window) (b : Block) (l : ChanLatch) (s : State) : (putLatch w b l s).l2 = s.l2 := rfl
@[simp] theorem putLatch_lpm (w : Window) (b : Block) (l : ChanLatch) (s : State) : (putLatch w b l s).lpm = s.lpm := rfl
@[simp] theorem putLatch_frames (w : Window) (b : Block) (l : ChanLatch) (s : State) : (putLatch w b l s).frames = s.frames := rfl
@[simp] theorem putLatch_nextFrame (w : Window) (b : Block) (l : ChanLatch) (s : State) : (putLatch w b l s).nextFrame = s.nextFrame := rfl
@[simp] theorem putLatch_rx (w : Window) (b : Block) (l : ChanLatch) (s : State) : (putLatch w b l s).rx = s.rx := rfl
@[simp] theorem putLatch_ver (w : Window) (b : Block) (l : ChanLatch) (s : State) : (putLatch w b l s).ver = s.ver := rfl
@[simp] theorem putLatch_pools (w : Window) (b : Block) (l : ChanLatch) (s : State) : (putLatch w b l s).pools = s.pools := rfl
@[simp] theorem putLatch_sw (w : Window) (b : Block) (l : ChanLatch) (s : State) : (putLatch w b l s).sw = s.sw := rfl
@[simp] theorem putLatch_egr (w : Window) (b : Block) (l : ChanLatch) (s : State) : (putLatch w b l s).egr = s.egr := rfl
@[simp] theorem putLatch_flow (w : Window) (b : Block) (l : ChanLatch) (s : State) : (putLatch w b l s).flow = s.flow := rfl
@[simp] theorem putLatch_dsp (w : Window) (b : Block) (l : ChanLatch) (s : State) : (putLatch w b l s).dsp = s.dsp := rfl
@[simp] theorem putLatch_fen (w : Window) (b : Block) (l : ChanLatch) (s : State) : (putLatch w b l s).fen = s.fen := rfl
@[simp] theorem putLatch_bq (w : Window) (b : Block) (l : ChanLatch) (s : State) : (putLatch w b l s).bq = s.bq := rfl
@[simp] theorem putLatch_mesh (w : Window) (b : Block) (l : ChanLatch) (s : State) : (putLatch w b l s).mesh = s.mesh := rfl
@[simp] theorem putLatch_fw (w : Window) (b : Block) (l : ChanLatch) (s : State) : (putLatch w b l s).fw = s.fw := rfl
@[simp] theorem putLatch_recov (w : Window) (b : Block) (l : ChanLatch) (s : State) : (putLatch w b l s).recov = s.recov := rfl
@[simp] theorem putLatch_io (w : Window) (b : Block) (l : ChanLatch) (s : State) : (putLatch w b l s).io = s.io := rfl
@[simp] theorem putLatch_out (w : Window) (b : Block) (l : ChanLatch) (s : State) : (putLatch w b l s).out = s.out := rfl

@[simp] theorem putTgt_pending (t : Target) (x : Tgt) (s : State) : (putTgt t x s).pending = s.pending := rfl
@[simp] theorem putTgt_variant (t : Target) (x : Tgt) (s : State) : (putTgt t x s).variant = s.variant := rfl
@[simp] theorem putTgt_evt (t : Target) (x : Tgt) (s : State) : (putTgt t x s).evt = s.evt := rfl
@[simp] theorem putTgt_tmk (t : Target) (x : Tgt) (s : State) : (putTgt t x s).tmk = s.tmk := rfl
@[simp] theorem putTgt_pcn (t : Target) (x : Tgt) (s : State) : (putTgt t x s).pcn = s.pcn := rfl
@[simp] theorem putTgt_tim (t : Target) (x : Tgt) (s : State) : (putTgt t x s).tim = s.tim := rfl
@[simp] theorem putTgt_pwr (t : Target) (x : Tgt) (s : State) : (putTgt t x s).pwr = s.pwr := rfl
@[simp] theorem putTgt_start (t : Target) (x : Tgt) (s : State) : (putTgt t x s).start = s.start := rfl
@[simp] theorem putTgt_lanes (t : Target) (x : Tgt) (s : State) : (putTgt t x s).lanes = s.lanes := rfl
@[simp] theorem putTgt_l2 (t : Target) (x : Tgt) (s : State) : (putTgt t x s).l2 = s.l2 := rfl
@[simp] theorem putTgt_lpm (t : Target) (x : Tgt) (s : State) : (putTgt t x s).lpm = s.lpm := rfl
@[simp] theorem putTgt_frames (t : Target) (x : Tgt) (s : State) : (putTgt t x s).frames = s.frames := rfl
@[simp] theorem putTgt_nextFrame (t : Target) (x : Tgt) (s : State) : (putTgt t x s).nextFrame = s.nextFrame := rfl
@[simp] theorem putTgt_rx (t : Target) (x : Tgt) (s : State) : (putTgt t x s).rx = s.rx := rfl
@[simp] theorem putTgt_ver (t : Target) (x : Tgt) (s : State) : (putTgt t x s).ver = s.ver := rfl
@[simp] theorem putTgt_pools (t : Target) (x : Tgt) (s : State) : (putTgt t x s).pools = s.pools := rfl
@[simp] theorem putTgt_sw (t : Target) (x : Tgt) (s : State) : (putTgt t x s).sw = s.sw := rfl
@[simp] theorem putTgt_egr (t : Target) (x : Tgt) (s : State) : (putTgt t x s).egr = s.egr := rfl
@[simp] theorem putTgt_flow (t : Target) (x : Tgt) (s : State) : (putTgt t x s).flow = s.flow := rfl
@[simp] theorem putTgt_dsp (t : Target) (x : Tgt) (s : State) : (putTgt t x s).dsp = s.dsp := rfl
@[simp] theorem putTgt_fen (t : Target) (x : Tgt) (s : State) : (putTgt t x s).fen = s.fen := rfl
@[simp] theorem putTgt_bq (t : Target) (x : Tgt) (s : State) : (putTgt t x s).bq = s.bq := rfl
@[simp] theorem putTgt_mesh (t : Target) (x : Tgt) (s : State) : (putTgt t x s).mesh = s.mesh := rfl
@[simp] theorem putTgt_fw (t : Target) (x : Tgt) (s : State) : (putTgt t x s).fw = s.fw := rfl
@[simp] theorem putTgt_recov (t : Target) (x : Tgt) (s : State) : (putTgt t x s).recov = s.recov := rfl
@[simp] theorem putTgt_io (t : Target) (x : Tgt) (s : State) : (putTgt t x s).io = s.io := rfl
@[simp] theorem putTgt_out (t : Target) (x : Tgt) (s : State) : (putTgt t x s).out = s.out := rfl

@[simp] theorem modTgt_pending (t : Target) (f : Tgt → Tgt) (s : State) : (modTgt t f s).pending = s.pending := rfl
@[simp] theorem modTgt_variant (t : Target) (f : Tgt → Tgt) (s : State) : (modTgt t f s).variant = s.variant := rfl
@[simp] theorem modTgt_evt (t : Target) (f : Tgt → Tgt) (s : State) : (modTgt t f s).evt = s.evt := rfl
@[simp] theorem modTgt_tmk (t : Target) (f : Tgt → Tgt) (s : State) : (modTgt t f s).tmk = s.tmk := rfl
@[simp] theorem modTgt_pcn (t : Target) (f : Tgt → Tgt) (s : State) : (modTgt t f s).pcn = s.pcn := rfl
@[simp] theorem modTgt_tim (t : Target) (f : Tgt → Tgt) (s : State) : (modTgt t f s).tim = s.tim := rfl
@[simp] theorem modTgt_pwr (t : Target) (f : Tgt → Tgt) (s : State) : (modTgt t f s).pwr = s.pwr := rfl
@[simp] theorem modTgt_start (t : Target) (f : Tgt → Tgt) (s : State) : (modTgt t f s).start = s.start := rfl
@[simp] theorem modTgt_lanes (t : Target) (f : Tgt → Tgt) (s : State) : (modTgt t f s).lanes = s.lanes := rfl
@[simp] theorem modTgt_l2 (t : Target) (f : Tgt → Tgt) (s : State) : (modTgt t f s).l2 = s.l2 := rfl
@[simp] theorem modTgt_lpm (t : Target) (f : Tgt → Tgt) (s : State) : (modTgt t f s).lpm = s.lpm := rfl
@[simp] theorem modTgt_frames (t : Target) (f : Tgt → Tgt) (s : State) : (modTgt t f s).frames = s.frames := rfl
@[simp] theorem modTgt_nextFrame (t : Target) (f : Tgt → Tgt) (s : State) : (modTgt t f s).nextFrame = s.nextFrame := rfl
@[simp] theorem modTgt_rx (t : Target) (f : Tgt → Tgt) (s : State) : (modTgt t f s).rx = s.rx := rfl
@[simp] theorem modTgt_ver (t : Target) (f : Tgt → Tgt) (s : State) : (modTgt t f s).ver = s.ver := rfl
@[simp] theorem modTgt_pools (t : Target) (f : Tgt → Tgt) (s : State) : (modTgt t f s).pools = s.pools := rfl
@[simp] theorem modTgt_sw (t : Target) (f : Tgt → Tgt) (s : State) : (modTgt t f s).sw = s.sw := rfl
@[simp] theorem modTgt_egr (t : Target) (f : Tgt → Tgt) (s : State) : (modTgt t f s).egr = s.egr := rfl
@[simp] theorem modTgt_flow (t : Target) (f : Tgt → Tgt) (s : State) : (modTgt t f s).flow = s.flow := rfl
@[simp] theorem modTgt_dsp (t : Target) (f : Tgt → Tgt) (s : State) : (modTgt t f s).dsp = s.dsp := rfl
@[simp] theorem modTgt_fen (t : Target) (f : Tgt → Tgt) (s : State) : (modTgt t f s).fen = s.fen := rfl
@[simp] theorem modTgt_bq (t : Target) (f : Tgt → Tgt) (s : State) : (modTgt t f s).bq = s.bq := rfl
@[simp] theorem modTgt_mesh (t : Target) (f : Tgt → Tgt) (s : State) : (modTgt t f s).mesh = s.mesh := rfl
@[simp] theorem modTgt_fw (t : Target) (f : Tgt → Tgt) (s : State) : (modTgt t f s).fw = s.fw := rfl
@[simp] theorem modTgt_recov (t : Target) (f : Tgt → Tgt) (s : State) : (modTgt t f s).recov = s.recov := rfl
@[simp] theorem modTgt_io (t : Target) (f : Tgt → Tgt) (s : State) : (modTgt t f s).io = s.io := rfl
@[simp] theorem modTgt_out (t : Target) (f : Tgt → Tgt) (s : State) : (modTgt t f s).out = s.out := rfl

@[simp] theorem putCtr_pending (key v : Nat) (s : State) : (putCtr key v s).pending = s.pending := rfl
@[simp] theorem putCtr_variant (key v : Nat) (s : State) : (putCtr key v s).variant = s.variant := rfl
@[simp] theorem putCtr_evt (key v : Nat) (s : State) : (putCtr key v s).evt = s.evt := rfl
@[simp] theorem putCtr_tmk (key v : Nat) (s : State) : (putCtr key v s).tmk = s.tmk := rfl
@[simp] theorem putCtr_pcn (key v : Nat) (s : State) : (putCtr key v s).pcn = s.pcn := rfl
@[simp] theorem putCtr_tim (key v : Nat) (s : State) : (putCtr key v s).tim = s.tim := rfl
@[simp] theorem putCtr_pwr (key v : Nat) (s : State) : (putCtr key v s).pwr = s.pwr := rfl
@[simp] theorem putCtr_start (key v : Nat) (s : State) : (putCtr key v s).start = s.start := rfl
@[simp] theorem putCtr_lanes (key v : Nat) (s : State) : (putCtr key v s).lanes = s.lanes := rfl
@[simp] theorem putCtr_l2 (key v : Nat) (s : State) : (putCtr key v s).l2 = s.l2 := rfl
@[simp] theorem putCtr_lpm (key v : Nat) (s : State) : (putCtr key v s).lpm = s.lpm := rfl
@[simp] theorem putCtr_frames (key v : Nat) (s : State) : (putCtr key v s).frames = s.frames := rfl
@[simp] theorem putCtr_nextFrame (key v : Nat) (s : State) : (putCtr key v s).nextFrame = s.nextFrame := rfl
@[simp] theorem putCtr_rx (key v : Nat) (s : State) : (putCtr key v s).rx = s.rx := rfl
@[simp] theorem putCtr_ver (key v : Nat) (s : State) : (putCtr key v s).ver = s.ver := rfl
@[simp] theorem putCtr_pools (key v : Nat) (s : State) : (putCtr key v s).pools = s.pools := rfl
@[simp] theorem putCtr_sw (key v : Nat) (s : State) : (putCtr key v s).sw = s.sw := rfl
@[simp] theorem putCtr_egr (key v : Nat) (s : State) : (putCtr key v s).egr = s.egr := rfl
@[simp] theorem putCtr_flow (key v : Nat) (s : State) : (putCtr key v s).flow = s.flow := rfl
@[simp] theorem putCtr_dsp (key v : Nat) (s : State) : (putCtr key v s).dsp = s.dsp := rfl
@[simp] theorem putCtr_fen (key v : Nat) (s : State) : (putCtr key v s).fen = s.fen := rfl
@[simp] theorem putCtr_bq (key v : Nat) (s : State) : (putCtr key v s).bq = s.bq := rfl
@[simp] theorem putCtr_mesh (key v : Nat) (s : State) : (putCtr key v s).mesh = s.mesh := rfl
@[simp] theorem putCtr_fw (key v : Nat) (s : State) : (putCtr key v s).fw = s.fw := rfl
@[simp] theorem putCtr_recov (key v : Nat) (s : State) : (putCtr key v s).recov = s.recov := rfl
@[simp] theorem putCtr_io (key v : Nat) (s : State) : (putCtr key v s).io = s.io := rfl
@[simp] theorem putCtr_out (key v : Nat) (s : State) : (putCtr key v s).out = s.out := rfl

@[simp] theorem putWrap_pending (key : Nat) (v : Bool) (s : State) : (putWrap key v s).pending = s.pending := rfl
@[simp] theorem putWrap_variant (key : Nat) (v : Bool) (s : State) : (putWrap key v s).variant = s.variant := rfl
@[simp] theorem putWrap_evt (key : Nat) (v : Bool) (s : State) : (putWrap key v s).evt = s.evt := rfl
@[simp] theorem putWrap_tmk (key : Nat) (v : Bool) (s : State) : (putWrap key v s).tmk = s.tmk := rfl
@[simp] theorem putWrap_pcn (key : Nat) (v : Bool) (s : State) : (putWrap key v s).pcn = s.pcn := rfl
@[simp] theorem putWrap_tim (key : Nat) (v : Bool) (s : State) : (putWrap key v s).tim = s.tim := rfl
@[simp] theorem putWrap_pwr (key : Nat) (v : Bool) (s : State) : (putWrap key v s).pwr = s.pwr := rfl
@[simp] theorem putWrap_start (key : Nat) (v : Bool) (s : State) : (putWrap key v s).start = s.start := rfl
@[simp] theorem putWrap_lanes (key : Nat) (v : Bool) (s : State) : (putWrap key v s).lanes = s.lanes := rfl
@[simp] theorem putWrap_l2 (key : Nat) (v : Bool) (s : State) : (putWrap key v s).l2 = s.l2 := rfl
@[simp] theorem putWrap_lpm (key : Nat) (v : Bool) (s : State) : (putWrap key v s).lpm = s.lpm := rfl
@[simp] theorem putWrap_frames (key : Nat) (v : Bool) (s : State) : (putWrap key v s).frames = s.frames := rfl
@[simp] theorem putWrap_nextFrame (key : Nat) (v : Bool) (s : State) : (putWrap key v s).nextFrame = s.nextFrame := rfl
@[simp] theorem putWrap_rx (key : Nat) (v : Bool) (s : State) : (putWrap key v s).rx = s.rx := rfl
@[simp] theorem putWrap_ver (key : Nat) (v : Bool) (s : State) : (putWrap key v s).ver = s.ver := rfl
@[simp] theorem putWrap_pools (key : Nat) (v : Bool) (s : State) : (putWrap key v s).pools = s.pools := rfl
@[simp] theorem putWrap_sw (key : Nat) (v : Bool) (s : State) : (putWrap key v s).sw = s.sw := rfl
@[simp] theorem putWrap_egr (key : Nat) (v : Bool) (s : State) : (putWrap key v s).egr = s.egr := rfl
@[simp] theorem putWrap_flow (key : Nat) (v : Bool) (s : State) : (putWrap key v s).flow = s.flow := rfl
@[simp] theorem putWrap_dsp (key : Nat) (v : Bool) (s : State) : (putWrap key v s).dsp = s.dsp := rfl
@[simp] theorem putWrap_fen (key : Nat) (v : Bool) (s : State) : (putWrap key v s).fen = s.fen := rfl
@[simp] theorem putWrap_bq (key : Nat) (v : Bool) (s : State) : (putWrap key v s).bq = s.bq := rfl
@[simp] theorem putWrap_mesh (key : Nat) (v : Bool) (s : State) : (putWrap key v s).mesh = s.mesh := rfl
@[simp] theorem putWrap_fw (key : Nat) (v : Bool) (s : State) : (putWrap key v s).fw = s.fw := rfl
@[simp] theorem putWrap_recov (key : Nat) (v : Bool) (s : State) : (putWrap key v s).recov = s.recov := rfl
@[simp] theorem putWrap_io (key : Nat) (v : Bool) (s : State) : (putWrap key v s).io = s.io := rfl
@[simp] theorem putWrap_out (key : Nat) (v : Bool) (s : State) : (putWrap key v s).out = s.out := rfl

@[simp] theorem putOwner_pending (b : Block) (o : OwnerSt) (s : State) : (putOwner b o s).pending = s.pending := rfl
@[simp] theorem putOwner_variant (b : Block) (o : OwnerSt) (s : State) : (putOwner b o s).variant = s.variant := rfl
@[simp] theorem putOwner_evt (b : Block) (o : OwnerSt) (s : State) : (putOwner b o s).evt = s.evt := rfl
@[simp] theorem putOwner_tmk (b : Block) (o : OwnerSt) (s : State) : (putOwner b o s).tmk = s.tmk := rfl
@[simp] theorem putOwner_pcn (b : Block) (o : OwnerSt) (s : State) : (putOwner b o s).pcn = s.pcn := rfl
@[simp] theorem putOwner_tim (b : Block) (o : OwnerSt) (s : State) : (putOwner b o s).tim = s.tim := rfl
@[simp] theorem putOwner_pwr (b : Block) (o : OwnerSt) (s : State) : (putOwner b o s).pwr = s.pwr := rfl
@[simp] theorem putOwner_start (b : Block) (o : OwnerSt) (s : State) : (putOwner b o s).start = s.start := rfl
@[simp] theorem putOwner_lanes (b : Block) (o : OwnerSt) (s : State) : (putOwner b o s).lanes = s.lanes := rfl
@[simp] theorem putOwner_l2 (b : Block) (o : OwnerSt) (s : State) : (putOwner b o s).l2 = s.l2 := rfl
@[simp] theorem putOwner_lpm (b : Block) (o : OwnerSt) (s : State) : (putOwner b o s).lpm = s.lpm := rfl
@[simp] theorem putOwner_frames (b : Block) (o : OwnerSt) (s : State) : (putOwner b o s).frames = s.frames := rfl
@[simp] theorem putOwner_nextFrame (b : Block) (o : OwnerSt) (s : State) : (putOwner b o s).nextFrame = s.nextFrame := rfl
@[simp] theorem putOwner_rx (b : Block) (o : OwnerSt) (s : State) : (putOwner b o s).rx = s.rx := rfl
@[simp] theorem putOwner_ver (b : Block) (o : OwnerSt) (s : State) : (putOwner b o s).ver = s.ver := rfl
@[simp] theorem putOwner_pools (b : Block) (o : OwnerSt) (s : State) : (putOwner b o s).pools = s.pools := rfl
@[simp] theorem putOwner_sw (b : Block) (o : OwnerSt) (s : State) : (putOwner b o s).sw = s.sw := rfl
@[simp] theorem putOwner_egr (b : Block) (o : OwnerSt) (s : State) : (putOwner b o s).egr = s.egr := rfl
@[simp] theorem putOwner_flow (b : Block) (o : OwnerSt) (s : State) : (putOwner b o s).flow = s.flow := rfl
@[simp] theorem putOwner_dsp (b : Block) (o : OwnerSt) (s : State) : (putOwner b o s).dsp = s.dsp := rfl
@[simp] theorem putOwner_fen (b : Block) (o : OwnerSt) (s : State) : (putOwner b o s).fen = s.fen := rfl
@[simp] theorem putOwner_bq (b : Block) (o : OwnerSt) (s : State) : (putOwner b o s).bq = s.bq := rfl
@[simp] theorem putOwner_mesh (b : Block) (o : OwnerSt) (s : State) : (putOwner b o s).mesh = s.mesh := rfl
@[simp] theorem putOwner_fw (b : Block) (o : OwnerSt) (s : State) : (putOwner b o s).fw = s.fw := rfl
@[simp] theorem putOwner_recov (b : Block) (o : OwnerSt) (s : State) : (putOwner b o s).recov = s.recov := rfl
@[simp] theorem putOwner_io (b : Block) (o : OwnerSt) (s : State) : (putOwner b o s).io = s.io := rfl
@[simp] theorem putOwner_out (b : Block) (o : OwnerSt) (s : State) : (putOwner b o s).out = s.out := rfl

@[simp] theorem putCommit_pending (b : Block) (c : CommitSt) (s : State) : (putCommit b c s).pending = s.pending := rfl
@[simp] theorem putCommit_variant (b : Block) (c : CommitSt) (s : State) : (putCommit b c s).variant = s.variant := rfl
@[simp] theorem putCommit_evt (b : Block) (c : CommitSt) (s : State) : (putCommit b c s).evt = s.evt := rfl
@[simp] theorem putCommit_tmk (b : Block) (c : CommitSt) (s : State) : (putCommit b c s).tmk = s.tmk := rfl
@[simp] theorem putCommit_pcn (b : Block) (c : CommitSt) (s : State) : (putCommit b c s).pcn = s.pcn := rfl
@[simp] theorem putCommit_tim (b : Block) (c : CommitSt) (s : State) : (putCommit b c s).tim = s.tim := rfl
@[simp] theorem putCommit_pwr (b : Block) (c : CommitSt) (s : State) : (putCommit b c s).pwr = s.pwr := rfl
@[simp] theorem putCommit_start (b : Block) (c : CommitSt) (s : State) : (putCommit b c s).start = s.start := rfl
@[simp] theorem putCommit_lanes (b : Block) (c : CommitSt) (s : State) : (putCommit b c s).lanes = s.lanes := rfl
@[simp] theorem putCommit_l2 (b : Block) (c : CommitSt) (s : State) : (putCommit b c s).l2 = s.l2 := rfl
@[simp] theorem putCommit_lpm (b : Block) (c : CommitSt) (s : State) : (putCommit b c s).lpm = s.lpm := rfl
@[simp] theorem putCommit_frames (b : Block) (c : CommitSt) (s : State) : (putCommit b c s).frames = s.frames := rfl
@[simp] theorem putCommit_nextFrame (b : Block) (c : CommitSt) (s : State) : (putCommit b c s).nextFrame = s.nextFrame := rfl
@[simp] theorem putCommit_rx (b : Block) (c : CommitSt) (s : State) : (putCommit b c s).rx = s.rx := rfl
@[simp] theorem putCommit_ver (b : Block) (c : CommitSt) (s : State) : (putCommit b c s).ver = s.ver := rfl
@[simp] theorem putCommit_pools (b : Block) (c : CommitSt) (s : State) : (putCommit b c s).pools = s.pools := rfl
@[simp] theorem putCommit_sw (b : Block) (c : CommitSt) (s : State) : (putCommit b c s).sw = s.sw := rfl
@[simp] theorem putCommit_egr (b : Block) (c : CommitSt) (s : State) : (putCommit b c s).egr = s.egr := rfl
@[simp] theorem putCommit_flow (b : Block) (c : CommitSt) (s : State) : (putCommit b c s).flow = s.flow := rfl
@[simp] theorem putCommit_dsp (b : Block) (c : CommitSt) (s : State) : (putCommit b c s).dsp = s.dsp := rfl
@[simp] theorem putCommit_fen (b : Block) (c : CommitSt) (s : State) : (putCommit b c s).fen = s.fen := rfl
@[simp] theorem putCommit_bq (b : Block) (c : CommitSt) (s : State) : (putCommit b c s).bq = s.bq := rfl
@[simp] theorem putCommit_mesh (b : Block) (c : CommitSt) (s : State) : (putCommit b c s).mesh = s.mesh := rfl
@[simp] theorem putCommit_fw (b : Block) (c : CommitSt) (s : State) : (putCommit b c s).fw = s.fw := rfl
@[simp] theorem putCommit_recov (b : Block) (c : CommitSt) (s : State) : (putCommit b c s).recov = s.recov := rfl
@[simp] theorem putCommit_io (b : Block) (c : CommitSt) (s : State) : (putCommit b c s).io = s.io := rfl
@[simp] theorem putCommit_out (b : Block) (c : CommitSt) (s : State) : (putCommit b c s).out = s.out := rfl

@[simp] theorem putOwnerOf_pending (p i v : Nat) (s : State) : (putOwnerOf p i v s).pending = s.pending := rfl
@[simp] theorem putOwnerOf_variant (p i v : Nat) (s : State) : (putOwnerOf p i v s).variant = s.variant := rfl
@[simp] theorem putOwnerOf_fab (p i v : Nat) (s : State) : (putOwnerOf p i v s).fab = s.fab := rfl
@[simp] theorem putOwnerOf_evt (p i v : Nat) (s : State) : (putOwnerOf p i v s).evt = s.evt := rfl
@[simp] theorem putOwnerOf_tmk (p i v : Nat) (s : State) : (putOwnerOf p i v s).tmk = s.tmk := rfl
@[simp] theorem putOwnerOf_pcn (p i v : Nat) (s : State) : (putOwnerOf p i v s).pcn = s.pcn := rfl
@[simp] theorem putOwnerOf_tim (p i v : Nat) (s : State) : (putOwnerOf p i v s).tim = s.tim := rfl
@[simp] theorem putOwnerOf_pwr (p i v : Nat) (s : State) : (putOwnerOf p i v s).pwr = s.pwr := rfl
@[simp] theorem putOwnerOf_start (p i v : Nat) (s : State) : (putOwnerOf p i v s).start = s.start := rfl
@[simp] theorem putOwnerOf_lanes (p i v : Nat) (s : State) : (putOwnerOf p i v s).lanes = s.lanes := rfl
@[simp] theorem putOwnerOf_l2 (p i v : Nat) (s : State) : (putOwnerOf p i v s).l2 = s.l2 := rfl
@[simp] theorem putOwnerOf_lpm (p i v : Nat) (s : State) : (putOwnerOf p i v s).lpm = s.lpm := rfl
@[simp] theorem putOwnerOf_frames (p i v : Nat) (s : State) : (putOwnerOf p i v s).frames = s.frames := rfl
@[simp] theorem putOwnerOf_nextFrame (p i v : Nat) (s : State) : (putOwnerOf p i v s).nextFrame = s.nextFrame := rfl
@[simp] theorem putOwnerOf_rx (p i v : Nat) (s : State) : (putOwnerOf p i v s).rx = s.rx := rfl
@[simp] theorem putOwnerOf_ver (p i v : Nat) (s : State) : (putOwnerOf p i v s).ver = s.ver := rfl
@[simp] theorem putOwnerOf_sw (p i v : Nat) (s : State) : (putOwnerOf p i v s).sw = s.sw := rfl
@[simp] theorem putOwnerOf_egr (p i v : Nat) (s : State) : (putOwnerOf p i v s).egr = s.egr := rfl
@[simp] theorem putOwnerOf_flow (p i v : Nat) (s : State) : (putOwnerOf p i v s).flow = s.flow := rfl
@[simp] theorem putOwnerOf_dsp (p i v : Nat) (s : State) : (putOwnerOf p i v s).dsp = s.dsp := rfl
@[simp] theorem putOwnerOf_fen (p i v : Nat) (s : State) : (putOwnerOf p i v s).fen = s.fen := rfl
@[simp] theorem putOwnerOf_bq (p i v : Nat) (s : State) : (putOwnerOf p i v s).bq = s.bq := rfl
@[simp] theorem putOwnerOf_mesh (p i v : Nat) (s : State) : (putOwnerOf p i v s).mesh = s.mesh := rfl
@[simp] theorem putOwnerOf_fw (p i v : Nat) (s : State) : (putOwnerOf p i v s).fw = s.fw := rfl
@[simp] theorem putOwnerOf_recov (p i v : Nat) (s : State) : (putOwnerOf p i v s).recov = s.recov := rfl
@[simp] theorem putOwnerOf_io (p i v : Nat) (s : State) : (putOwnerOf p i v s).io = s.io := rfl
@[simp] theorem putOwnerOf_out (p i v : Nat) (s : State) : (putOwnerOf p i v s).out = s.out := rfl

@[simp] theorem putBenchQueue_pending (q : Nat) (x : BenchQueue) (s : State) : (putBenchQueue q x s).pending = s.pending := rfl
@[simp] theorem putBenchQueue_variant (q : Nat) (x : BenchQueue) (s : State) : (putBenchQueue q x s).variant = s.variant := rfl
@[simp] theorem putBenchQueue_fab (q : Nat) (x : BenchQueue) (s : State) : (putBenchQueue q x s).fab = s.fab := rfl
@[simp] theorem putBenchQueue_evt (q : Nat) (x : BenchQueue) (s : State) : (putBenchQueue q x s).evt = s.evt := rfl
@[simp] theorem putBenchQueue_tmk (q : Nat) (x : BenchQueue) (s : State) : (putBenchQueue q x s).tmk = s.tmk := rfl
@[simp] theorem putBenchQueue_pcn (q : Nat) (x : BenchQueue) (s : State) : (putBenchQueue q x s).pcn = s.pcn := rfl
@[simp] theorem putBenchQueue_tim (q : Nat) (x : BenchQueue) (s : State) : (putBenchQueue q x s).tim = s.tim := rfl
@[simp] theorem putBenchQueue_pwr (q : Nat) (x : BenchQueue) (s : State) : (putBenchQueue q x s).pwr = s.pwr := rfl
@[simp] theorem putBenchQueue_start (q : Nat) (x : BenchQueue) (s : State) : (putBenchQueue q x s).start = s.start := rfl
@[simp] theorem putBenchQueue_lanes (q : Nat) (x : BenchQueue) (s : State) : (putBenchQueue q x s).lanes = s.lanes := rfl
@[simp] theorem putBenchQueue_l2 (q : Nat) (x : BenchQueue) (s : State) : (putBenchQueue q x s).l2 = s.l2 := rfl
@[simp] theorem putBenchQueue_lpm (q : Nat) (x : BenchQueue) (s : State) : (putBenchQueue q x s).lpm = s.lpm := rfl
@[simp] theorem putBenchQueue_frames (q : Nat) (x : BenchQueue) (s : State) : (putBenchQueue q x s).frames = s.frames := rfl
@[simp] theorem putBenchQueue_nextFrame (q : Nat) (x : BenchQueue) (s : State) : (putBenchQueue q x s).nextFrame = s.nextFrame := rfl
@[simp] theorem putBenchQueue_rx (q : Nat) (x : BenchQueue) (s : State) : (putBenchQueue q x s).rx = s.rx := rfl
@[simp] theorem putBenchQueue_ver (q : Nat) (x : BenchQueue) (s : State) : (putBenchQueue q x s).ver = s.ver := rfl
@[simp] theorem putBenchQueue_pools (q : Nat) (x : BenchQueue) (s : State) : (putBenchQueue q x s).pools = s.pools := rfl
@[simp] theorem putBenchQueue_sw (q : Nat) (x : BenchQueue) (s : State) : (putBenchQueue q x s).sw = s.sw := rfl
@[simp] theorem putBenchQueue_egr (q : Nat) (x : BenchQueue) (s : State) : (putBenchQueue q x s).egr = s.egr := rfl
@[simp] theorem putBenchQueue_flow (q : Nat) (x : BenchQueue) (s : State) : (putBenchQueue q x s).flow = s.flow := rfl
@[simp] theorem putBenchQueue_dsp (q : Nat) (x : BenchQueue) (s : State) : (putBenchQueue q x s).dsp = s.dsp := rfl
@[simp] theorem putBenchQueue_fen (q : Nat) (x : BenchQueue) (s : State) : (putBenchQueue q x s).fen = s.fen := rfl
@[simp] theorem putBenchQueue_mesh (q : Nat) (x : BenchQueue) (s : State) : (putBenchQueue q x s).mesh = s.mesh := rfl
@[simp] theorem putBenchQueue_fw (q : Nat) (x : BenchQueue) (s : State) : (putBenchQueue q x s).fw = s.fw := rfl
@[simp] theorem putBenchQueue_recov (q : Nat) (x : BenchQueue) (s : State) : (putBenchQueue q x s).recov = s.recov := rfl
@[simp] theorem putBenchQueue_io (q : Nat) (x : BenchQueue) (s : State) : (putBenchQueue q x s).io = s.io := rfl
@[simp] theorem putBenchQueue_out (q : Nat) (x : BenchQueue) (s : State) : (putBenchQueue q x s).out = s.out := rfl

@[simp] theorem putHome_pending (e n : Nat) (s : State) : (putHome e n s).pending = s.pending := rfl
@[simp] theorem putHome_variant (e n : Nat) (s : State) : (putHome e n s).variant = s.variant := rfl
@[simp] theorem putHome_fab (e n : Nat) (s : State) : (putHome e n s).fab = s.fab := rfl
@[simp] theorem putHome_evt (e n : Nat) (s : State) : (putHome e n s).evt = s.evt := rfl
@[simp] theorem putHome_tmk (e n : Nat) (s : State) : (putHome e n s).tmk = s.tmk := rfl
@[simp] theorem putHome_pcn (e n : Nat) (s : State) : (putHome e n s).pcn = s.pcn := rfl
@[simp] theorem putHome_tim (e n : Nat) (s : State) : (putHome e n s).tim = s.tim := rfl
@[simp] theorem putHome_pwr (e n : Nat) (s : State) : (putHome e n s).pwr = s.pwr := rfl
@[simp] theorem putHome_start (e n : Nat) (s : State) : (putHome e n s).start = s.start := rfl
@[simp] theorem putHome_lanes (e n : Nat) (s : State) : (putHome e n s).lanes = s.lanes := rfl
@[simp] theorem putHome_l2 (e n : Nat) (s : State) : (putHome e n s).l2 = s.l2 := rfl
@[simp] theorem putHome_lpm (e n : Nat) (s : State) : (putHome e n s).lpm = s.lpm := rfl
@[simp] theorem putHome_frames (e n : Nat) (s : State) : (putHome e n s).frames = s.frames := rfl
@[simp] theorem putHome_nextFrame (e n : Nat) (s : State) : (putHome e n s).nextFrame = s.nextFrame := rfl
@[simp] theorem putHome_rx (e n : Nat) (s : State) : (putHome e n s).rx = s.rx := rfl
@[simp] theorem putHome_ver (e n : Nat) (s : State) : (putHome e n s).ver = s.ver := rfl
@[simp] theorem putHome_pools (e n : Nat) (s : State) : (putHome e n s).pools = s.pools := rfl
@[simp] theorem putHome_sw (e n : Nat) (s : State) : (putHome e n s).sw = s.sw := rfl
@[simp] theorem putHome_egr (e n : Nat) (s : State) : (putHome e n s).egr = s.egr := rfl
@[simp] theorem putHome_flow (e n : Nat) (s : State) : (putHome e n s).flow = s.flow := rfl
@[simp] theorem putHome_fen (e n : Nat) (s : State) : (putHome e n s).fen = s.fen := rfl
@[simp] theorem putHome_bq (e n : Nat) (s : State) : (putHome e n s).bq = s.bq := rfl
@[simp] theorem putHome_mesh (e n : Nat) (s : State) : (putHome e n s).mesh = s.mesh := rfl
@[simp] theorem putHome_fw (e n : Nat) (s : State) : (putHome e n s).fw = s.fw := rfl
@[simp] theorem putHome_recov (e n : Nat) (s : State) : (putHome e n s).recov = s.recov := rfl
@[simp] theorem putHome_io (e n : Nat) (s : State) : (putHome e n s).io = s.io := rfl
@[simp] theorem putHome_out (e n : Nat) (s : State) : (putHome e n s).out = s.out := rfl

@[simp] theorem putGcl_pending (d l i : Nat) (x : Nat × Nat) (s : State) : (putGcl d l i x s).pending = s.pending := rfl
@[simp] theorem putGcl_variant (d l i : Nat) (x : Nat × Nat) (s : State) : (putGcl d l i x s).variant = s.variant := rfl
@[simp] theorem putGcl_fab (d l i : Nat) (x : Nat × Nat) (s : State) : (putGcl d l i x s).fab = s.fab := rfl
@[simp] theorem putGcl_evt (d l i : Nat) (x : Nat × Nat) (s : State) : (putGcl d l i x s).evt = s.evt := rfl
@[simp] theorem putGcl_tmk (d l i : Nat) (x : Nat × Nat) (s : State) : (putGcl d l i x s).tmk = s.tmk := rfl
@[simp] theorem putGcl_pcn (d l i : Nat) (x : Nat × Nat) (s : State) : (putGcl d l i x s).pcn = s.pcn := rfl
@[simp] theorem putGcl_tim (d l i : Nat) (x : Nat × Nat) (s : State) : (putGcl d l i x s).tim = s.tim := rfl
@[simp] theorem putGcl_pwr (d l i : Nat) (x : Nat × Nat) (s : State) : (putGcl d l i x s).pwr = s.pwr := rfl
@[simp] theorem putGcl_start (d l i : Nat) (x : Nat × Nat) (s : State) : (putGcl d l i x s).start = s.start := rfl
@[simp] theorem putGcl_lanes (d l i : Nat) (x : Nat × Nat) (s : State) : (putGcl d l i x s).lanes = s.lanes := rfl
@[simp] theorem putGcl_l2 (d l i : Nat) (x : Nat × Nat) (s : State) : (putGcl d l i x s).l2 = s.l2 := rfl
@[simp] theorem putGcl_lpm (d l i : Nat) (x : Nat × Nat) (s : State) : (putGcl d l i x s).lpm = s.lpm := rfl
@[simp] theorem putGcl_frames (d l i : Nat) (x : Nat × Nat) (s : State) : (putGcl d l i x s).frames = s.frames := rfl
@[simp] theorem putGcl_nextFrame (d l i : Nat) (x : Nat × Nat) (s : State) : (putGcl d l i x s).nextFrame = s.nextFrame := rfl
@[simp] theorem putGcl_rx (d l i : Nat) (x : Nat × Nat) (s : State) : (putGcl d l i x s).rx = s.rx := rfl
@[simp] theorem putGcl_ver (d l i : Nat) (x : Nat × Nat) (s : State) : (putGcl d l i x s).ver = s.ver := rfl
@[simp] theorem putGcl_pools (d l i : Nat) (x : Nat × Nat) (s : State) : (putGcl d l i x s).pools = s.pools := rfl
@[simp] theorem putGcl_sw (d l i : Nat) (x : Nat × Nat) (s : State) : (putGcl d l i x s).sw = s.sw := rfl
@[simp] theorem putGcl_flow (d l i : Nat) (x : Nat × Nat) (s : State) : (putGcl d l i x s).flow = s.flow := rfl
@[simp] theorem putGcl_dsp (d l i : Nat) (x : Nat × Nat) (s : State) : (putGcl d l i x s).dsp = s.dsp := rfl
@[simp] theorem putGcl_fen (d l i : Nat) (x : Nat × Nat) (s : State) : (putGcl d l i x s).fen = s.fen := rfl
@[simp] theorem putGcl_bq (d l i : Nat) (x : Nat × Nat) (s : State) : (putGcl d l i x s).bq = s.bq := rfl
@[simp] theorem putGcl_mesh (d l i : Nat) (x : Nat × Nat) (s : State) : (putGcl d l i x s).mesh = s.mesh := rfl
@[simp] theorem putGcl_fw (d l i : Nat) (x : Nat × Nat) (s : State) : (putGcl d l i x s).fw = s.fw := rfl
@[simp] theorem putGcl_recov (d l i : Nat) (x : Nat × Nat) (s : State) : (putGcl d l i x s).recov = s.recov := rfl
@[simp] theorem putGcl_io (d l i : Nat) (x : Nat × Nat) (s : State) : (putGcl d l i x s).io = s.io := rfl
@[simp] theorem putGcl_out (d l i : Nat) (x : Nat × Nat) (s : State) : (putGcl d l i x s).out = s.out := rfl

@[simp] theorem putList_pending (d l : Nat) (g : GateList) (s : State) : (putList d l g s).pending = s.pending := rfl
@[simp] theorem putList_variant (d l : Nat) (g : GateList) (s : State) : (putList d l g s).variant = s.variant := rfl
@[simp] theorem putList_fab (d l : Nat) (g : GateList) (s : State) : (putList d l g s).fab = s.fab := rfl
@[simp] theorem putList_evt (d l : Nat) (g : GateList) (s : State) : (putList d l g s).evt = s.evt := rfl
@[simp] theorem putList_tmk (d l : Nat) (g : GateList) (s : State) : (putList d l g s).tmk = s.tmk := rfl
@[simp] theorem putList_pcn (d l : Nat) (g : GateList) (s : State) : (putList d l g s).pcn = s.pcn := rfl
@[simp] theorem putList_tim (d l : Nat) (g : GateList) (s : State) : (putList d l g s).tim = s.tim := rfl
@[simp] theorem putList_pwr (d l : Nat) (g : GateList) (s : State) : (putList d l g s).pwr = s.pwr := rfl
@[simp] theorem putList_start (d l : Nat) (g : GateList) (s : State) : (putList d l g s).start = s.start := rfl
@[simp] theorem putList_lanes (d l : Nat) (g : GateList) (s : State) : (putList d l g s).lanes = s.lanes := rfl
@[simp] theorem putList_l2 (d l : Nat) (g : GateList) (s : State) : (putList d l g s).l2 = s.l2 := rfl
@[simp] theorem putList_lpm (d l : Nat) (g : GateList) (s : State) : (putList d l g s).lpm = s.lpm := rfl
@[simp] theorem putList_frames (d l : Nat) (g : GateList) (s : State) : (putList d l g s).frames = s.frames := rfl
@[simp] theorem putList_nextFrame (d l : Nat) (g : GateList) (s : State) : (putList d l g s).nextFrame = s.nextFrame := rfl
@[simp] theorem putList_rx (d l : Nat) (g : GateList) (s : State) : (putList d l g s).rx = s.rx := rfl
@[simp] theorem putList_ver (d l : Nat) (g : GateList) (s : State) : (putList d l g s).ver = s.ver := rfl
@[simp] theorem putList_pools (d l : Nat) (g : GateList) (s : State) : (putList d l g s).pools = s.pools := rfl
@[simp] theorem putList_sw (d l : Nat) (g : GateList) (s : State) : (putList d l g s).sw = s.sw := rfl
@[simp] theorem putList_flow (d l : Nat) (g : GateList) (s : State) : (putList d l g s).flow = s.flow := rfl
@[simp] theorem putList_dsp (d l : Nat) (g : GateList) (s : State) : (putList d l g s).dsp = s.dsp := rfl
@[simp] theorem putList_fen (d l : Nat) (g : GateList) (s : State) : (putList d l g s).fen = s.fen := rfl
@[simp] theorem putList_bq (d l : Nat) (g : GateList) (s : State) : (putList d l g s).bq = s.bq := rfl
@[simp] theorem putList_mesh (d l : Nat) (g : GateList) (s : State) : (putList d l g s).mesh = s.mesh := rfl
@[simp] theorem putList_fw (d l : Nat) (g : GateList) (s : State) : (putList d l g s).fw = s.fw := rfl
@[simp] theorem putList_recov (d l : Nat) (g : GateList) (s : State) : (putList d l g s).recov = s.recov := rfl
@[simp] theorem putList_io (d l : Nat) (g : GateList) (s : State) : (putList d l g s).io = s.io := rfl
@[simp] theorem putList_out (d l : Nat) (g : GateList) (s : State) : (putList d l g s).out = s.out := rfl

@[simp] theorem putTokens_pending (d c : Nat) (t : Int) (s : State) : (putTokens d c t s).pending = s.pending := rfl
@[simp] theorem putTokens_variant (d c : Nat) (t : Int) (s : State) : (putTokens d c t s).variant = s.variant := rfl
@[simp] theorem putTokens_fab (d c : Nat) (t : Int) (s : State) : (putTokens d c t s).fab = s.fab := rfl
@[simp] theorem putTokens_evt (d c : Nat) (t : Int) (s : State) : (putTokens d c t s).evt = s.evt := rfl
@[simp] theorem putTokens_tmk (d c : Nat) (t : Int) (s : State) : (putTokens d c t s).tmk = s.tmk := rfl
@[simp] theorem putTokens_pcn (d c : Nat) (t : Int) (s : State) : (putTokens d c t s).pcn = s.pcn := rfl
@[simp] theorem putTokens_tim (d c : Nat) (t : Int) (s : State) : (putTokens d c t s).tim = s.tim := rfl
@[simp] theorem putTokens_pwr (d c : Nat) (t : Int) (s : State) : (putTokens d c t s).pwr = s.pwr := rfl
@[simp] theorem putTokens_start (d c : Nat) (t : Int) (s : State) : (putTokens d c t s).start = s.start := rfl
@[simp] theorem putTokens_lanes (d c : Nat) (t : Int) (s : State) : (putTokens d c t s).lanes = s.lanes := rfl
@[simp] theorem putTokens_l2 (d c : Nat) (t : Int) (s : State) : (putTokens d c t s).l2 = s.l2 := rfl
@[simp] theorem putTokens_lpm (d c : Nat) (t : Int) (s : State) : (putTokens d c t s).lpm = s.lpm := rfl
@[simp] theorem putTokens_frames (d c : Nat) (t : Int) (s : State) : (putTokens d c t s).frames = s.frames := rfl
@[simp] theorem putTokens_nextFrame (d c : Nat) (t : Int) (s : State) : (putTokens d c t s).nextFrame = s.nextFrame := rfl
@[simp] theorem putTokens_rx (d c : Nat) (t : Int) (s : State) : (putTokens d c t s).rx = s.rx := rfl
@[simp] theorem putTokens_ver (d c : Nat) (t : Int) (s : State) : (putTokens d c t s).ver = s.ver := rfl
@[simp] theorem putTokens_pools (d c : Nat) (t : Int) (s : State) : (putTokens d c t s).pools = s.pools := rfl
@[simp] theorem putTokens_sw (d c : Nat) (t : Int) (s : State) : (putTokens d c t s).sw = s.sw := rfl
@[simp] theorem putTokens_flow (d c : Nat) (t : Int) (s : State) : (putTokens d c t s).flow = s.flow := rfl
@[simp] theorem putTokens_dsp (d c : Nat) (t : Int) (s : State) : (putTokens d c t s).dsp = s.dsp := rfl
@[simp] theorem putTokens_fen (d c : Nat) (t : Int) (s : State) : (putTokens d c t s).fen = s.fen := rfl
@[simp] theorem putTokens_bq (d c : Nat) (t : Int) (s : State) : (putTokens d c t s).bq = s.bq := rfl
@[simp] theorem putTokens_mesh (d c : Nat) (t : Int) (s : State) : (putTokens d c t s).mesh = s.mesh := rfl
@[simp] theorem putTokens_fw (d c : Nat) (t : Int) (s : State) : (putTokens d c t s).fw = s.fw := rfl
@[simp] theorem putTokens_recov (d c : Nat) (t : Int) (s : State) : (putTokens d c t s).recov = s.recov := rfl
@[simp] theorem putTokens_io (d c : Nat) (t : Int) (s : State) : (putTokens d c t s).io = s.io := rfl
@[simp] theorem putTokens_out (d c : Nat) (t : Int) (s : State) : (putTokens d c t s).out = s.out := rfl

@[simp] theorem putOwn_pending (e : Nat) (x : OwnEntry) (s : State) : (putOwn e x s).pending = s.pending := rfl
@[simp] theorem putOwn_variant (e : Nat) (x : OwnEntry) (s : State) : (putOwn e x s).variant = s.variant := rfl
@[simp] theorem putOwn_fab (e : Nat) (x : OwnEntry) (s : State) : (putOwn e x s).fab = s.fab := rfl
@[simp] theorem putOwn_evt (e : Nat) (x : OwnEntry) (s : State) : (putOwn e x s).evt = s.evt := rfl
@[simp] theorem putOwn_tmk (e : Nat) (x : OwnEntry) (s : State) : (putOwn e x s).tmk = s.tmk := rfl
@[simp] theorem putOwn_pcn (e : Nat) (x : OwnEntry) (s : State) : (putOwn e x s).pcn = s.pcn := rfl
@[simp] theorem putOwn_tim (e : Nat) (x : OwnEntry) (s : State) : (putOwn e x s).tim = s.tim := rfl
@[simp] theorem putOwn_pwr (e : Nat) (x : OwnEntry) (s : State) : (putOwn e x s).pwr = s.pwr := rfl
@[simp] theorem putOwn_start (e : Nat) (x : OwnEntry) (s : State) : (putOwn e x s).start = s.start := rfl
@[simp] theorem putOwn_lanes (e : Nat) (x : OwnEntry) (s : State) : (putOwn e x s).lanes = s.lanes := rfl
@[simp] theorem putOwn_l2 (e : Nat) (x : OwnEntry) (s : State) : (putOwn e x s).l2 = s.l2 := rfl
@[simp] theorem putOwn_lpm (e : Nat) (x : OwnEntry) (s : State) : (putOwn e x s).lpm = s.lpm := rfl
@[simp] theorem putOwn_frames (e : Nat) (x : OwnEntry) (s : State) : (putOwn e x s).frames = s.frames := rfl
@[simp] theorem putOwn_nextFrame (e : Nat) (x : OwnEntry) (s : State) : (putOwn e x s).nextFrame = s.nextFrame := rfl
@[simp] theorem putOwn_rx (e : Nat) (x : OwnEntry) (s : State) : (putOwn e x s).rx = s.rx := rfl
@[simp] theorem putOwn_ver (e : Nat) (x : OwnEntry) (s : State) : (putOwn e x s).ver = s.ver := rfl
@[simp] theorem putOwn_pools (e : Nat) (x : OwnEntry) (s : State) : (putOwn e x s).pools = s.pools := rfl
@[simp] theorem putOwn_sw (e : Nat) (x : OwnEntry) (s : State) : (putOwn e x s).sw = s.sw := rfl
@[simp] theorem putOwn_egr (e : Nat) (x : OwnEntry) (s : State) : (putOwn e x s).egr = s.egr := rfl
@[simp] theorem putOwn_flow (e : Nat) (x : OwnEntry) (s : State) : (putOwn e x s).flow = s.flow := rfl
@[simp] theorem putOwn_dsp (e : Nat) (x : OwnEntry) (s : State) : (putOwn e x s).dsp = s.dsp := rfl
@[simp] theorem putOwn_fen (e : Nat) (x : OwnEntry) (s : State) : (putOwn e x s).fen = s.fen := rfl
@[simp] theorem putOwn_bq (e : Nat) (x : OwnEntry) (s : State) : (putOwn e x s).bq = s.bq := rfl
@[simp] theorem putOwn_fw (e : Nat) (x : OwnEntry) (s : State) : (putOwn e x s).fw = s.fw := rfl
@[simp] theorem putOwn_recov (e : Nat) (x : OwnEntry) (s : State) : (putOwn e x s).recov = s.recov := rfl
@[simp] theorem putOwn_io (e : Nat) (x : OwnEntry) (s : State) : (putOwn e x s).io = s.io := rfl
@[simp] theorem putOwn_out (e : Nat) (x : OwnEntry) (s : State) : (putOwn e x s).out = s.out := rfl

@[simp] theorem putFence_pending (e : Nat) (x : Fence) (s : State) : (putFence e x s).pending = s.pending := rfl
@[simp] theorem putFence_variant (e : Nat) (x : Fence) (s : State) : (putFence e x s).variant = s.variant := rfl
@[simp] theorem putFence_fab (e : Nat) (x : Fence) (s : State) : (putFence e x s).fab = s.fab := rfl
@[simp] theorem putFence_evt (e : Nat) (x : Fence) (s : State) : (putFence e x s).evt = s.evt := rfl
@[simp] theorem putFence_tmk (e : Nat) (x : Fence) (s : State) : (putFence e x s).tmk = s.tmk := rfl
@[simp] theorem putFence_pcn (e : Nat) (x : Fence) (s : State) : (putFence e x s).pcn = s.pcn := rfl
@[simp] theorem putFence_tim (e : Nat) (x : Fence) (s : State) : (putFence e x s).tim = s.tim := rfl
@[simp] theorem putFence_pwr (e : Nat) (x : Fence) (s : State) : (putFence e x s).pwr = s.pwr := rfl
@[simp] theorem putFence_start (e : Nat) (x : Fence) (s : State) : (putFence e x s).start = s.start := rfl
@[simp] theorem putFence_lanes (e : Nat) (x : Fence) (s : State) : (putFence e x s).lanes = s.lanes := rfl
@[simp] theorem putFence_l2 (e : Nat) (x : Fence) (s : State) : (putFence e x s).l2 = s.l2 := rfl
@[simp] theorem putFence_lpm (e : Nat) (x : Fence) (s : State) : (putFence e x s).lpm = s.lpm := rfl
@[simp] theorem putFence_frames (e : Nat) (x : Fence) (s : State) : (putFence e x s).frames = s.frames := rfl
@[simp] theorem putFence_nextFrame (e : Nat) (x : Fence) (s : State) : (putFence e x s).nextFrame = s.nextFrame := rfl
@[simp] theorem putFence_rx (e : Nat) (x : Fence) (s : State) : (putFence e x s).rx = s.rx := rfl
@[simp] theorem putFence_ver (e : Nat) (x : Fence) (s : State) : (putFence e x s).ver = s.ver := rfl
@[simp] theorem putFence_pools (e : Nat) (x : Fence) (s : State) : (putFence e x s).pools = s.pools := rfl
@[simp] theorem putFence_sw (e : Nat) (x : Fence) (s : State) : (putFence e x s).sw = s.sw := rfl
@[simp] theorem putFence_egr (e : Nat) (x : Fence) (s : State) : (putFence e x s).egr = s.egr := rfl
@[simp] theorem putFence_flow (e : Nat) (x : Fence) (s : State) : (putFence e x s).flow = s.flow := rfl
@[simp] theorem putFence_fen (e : Nat) (x : Fence) (s : State) : (putFence e x s).fen = s.fen := rfl
@[simp] theorem putFence_bq (e : Nat) (x : Fence) (s : State) : (putFence e x s).bq = s.bq := rfl
@[simp] theorem putFence_mesh (e : Nat) (x : Fence) (s : State) : (putFence e x s).mesh = s.mesh := rfl
@[simp] theorem putFence_fw (e : Nat) (x : Fence) (s : State) : (putFence e x s).fw = s.fw := rfl
@[simp] theorem putFence_recov (e : Nat) (x : Fence) (s : State) : (putFence e x s).recov = s.recov := rfl
@[simp] theorem putFence_io (e : Nat) (x : Fence) (s : State) : (putFence e x s).io = s.io := rfl
@[simp] theorem putFence_out (e : Nat) (x : Fence) (s : State) : (putFence e x s).out = s.out := rfl

@[simp] theorem putCluster_pending (c : Nat) (x : Cluster) (s : State) : (putCluster c x s).pending = s.pending := rfl
@[simp] theorem putCluster_variant (c : Nat) (x : Cluster) (s : State) : (putCluster c x s).variant = s.variant := rfl
@[simp] theorem putCluster_fab (c : Nat) (x : Cluster) (s : State) : (putCluster c x s).fab = s.fab := rfl
@[simp] theorem putCluster_evt (c : Nat) (x : Cluster) (s : State) : (putCluster c x s).evt = s.evt := rfl
@[simp] theorem putCluster_tmk (c : Nat) (x : Cluster) (s : State) : (putCluster c x s).tmk = s.tmk := rfl
@[simp] theorem putCluster_pcn (c : Nat) (x : Cluster) (s : State) : (putCluster c x s).pcn = s.pcn := rfl
@[simp] theorem putCluster_tim (c : Nat) (x : Cluster) (s : State) : (putCluster c x s).tim = s.tim := rfl
@[simp] theorem putCluster_pwr (c : Nat) (x : Cluster) (s : State) : (putCluster c x s).pwr = s.pwr := rfl
@[simp] theorem putCluster_start (c : Nat) (x : Cluster) (s : State) : (putCluster c x s).start = s.start := rfl
@[simp] theorem putCluster_lanes (c : Nat) (x : Cluster) (s : State) : (putCluster c x s).lanes = s.lanes := rfl
@[simp] theorem putCluster_l2 (c : Nat) (x : Cluster) (s : State) : (putCluster c x s).l2 = s.l2 := rfl
@[simp] theorem putCluster_lpm (c : Nat) (x : Cluster) (s : State) : (putCluster c x s).lpm = s.lpm := rfl
@[simp] theorem putCluster_frames (c : Nat) (x : Cluster) (s : State) : (putCluster c x s).frames = s.frames := rfl
@[simp] theorem putCluster_nextFrame (c : Nat) (x : Cluster) (s : State) : (putCluster c x s).nextFrame = s.nextFrame := rfl
@[simp] theorem putCluster_rx (c : Nat) (x : Cluster) (s : State) : (putCluster c x s).rx = s.rx := rfl
@[simp] theorem putCluster_ver (c : Nat) (x : Cluster) (s : State) : (putCluster c x s).ver = s.ver := rfl
@[simp] theorem putCluster_pools (c : Nat) (x : Cluster) (s : State) : (putCluster c x s).pools = s.pools := rfl
@[simp] theorem putCluster_sw (c : Nat) (x : Cluster) (s : State) : (putCluster c x s).sw = s.sw := rfl
@[simp] theorem putCluster_egr (c : Nat) (x : Cluster) (s : State) : (putCluster c x s).egr = s.egr := rfl
@[simp] theorem putCluster_flow (c : Nat) (x : Cluster) (s : State) : (putCluster c x s).flow = s.flow := rfl
@[simp] theorem putCluster_fen (c : Nat) (x : Cluster) (s : State) : (putCluster c x s).fen = s.fen := rfl
@[simp] theorem putCluster_bq (c : Nat) (x : Cluster) (s : State) : (putCluster c x s).bq = s.bq := rfl
@[simp] theorem putCluster_mesh (c : Nat) (x : Cluster) (s : State) : (putCluster c x s).mesh = s.mesh := rfl
@[simp] theorem putCluster_fw (c : Nat) (x : Cluster) (s : State) : (putCluster c x s).fw = s.fw := rfl
@[simp] theorem putCluster_recov (c : Nat) (x : Cluster) (s : State) : (putCluster c x s).recov = s.recov := rfl
@[simp] theorem putCluster_io (c : Nat) (x : Cluster) (s : State) : (putCluster c x s).io = s.io := rfl
@[simp] theorem putCluster_out (c : Nat) (x : Cluster) (s : State) : (putCluster c x s).out = s.out := rfl

@[simp] theorem modCluster_pending (c : Nat) (f : Cluster → Cluster) (s : State) : (modCluster c f s).pending = s.pending := rfl
@[simp] theorem modCluster_variant (c : Nat) (f : Cluster → Cluster) (s : State) : (modCluster c f s).variant = s.variant := rfl
@[simp] theorem modCluster_fab (c : Nat) (f : Cluster → Cluster) (s : State) : (modCluster c f s).fab = s.fab := rfl
@[simp] theorem modCluster_evt (c : Nat) (f : Cluster → Cluster) (s : State) : (modCluster c f s).evt = s.evt := rfl
@[simp] theorem modCluster_tmk (c : Nat) (f : Cluster → Cluster) (s : State) : (modCluster c f s).tmk = s.tmk := rfl
@[simp] theorem modCluster_pcn (c : Nat) (f : Cluster → Cluster) (s : State) : (modCluster c f s).pcn = s.pcn := rfl
@[simp] theorem modCluster_tim (c : Nat) (f : Cluster → Cluster) (s : State) : (modCluster c f s).tim = s.tim := rfl
@[simp] theorem modCluster_pwr (c : Nat) (f : Cluster → Cluster) (s : State) : (modCluster c f s).pwr = s.pwr := rfl
@[simp] theorem modCluster_start (c : Nat) (f : Cluster → Cluster) (s : State) : (modCluster c f s).start = s.start := rfl
@[simp] theorem modCluster_lanes (c : Nat) (f : Cluster → Cluster) (s : State) : (modCluster c f s).lanes = s.lanes := rfl
@[simp] theorem modCluster_l2 (c : Nat) (f : Cluster → Cluster) (s : State) : (modCluster c f s).l2 = s.l2 := rfl
@[simp] theorem modCluster_lpm (c : Nat) (f : Cluster → Cluster) (s : State) : (modCluster c f s).lpm = s.lpm := rfl
@[simp] theorem modCluster_frames (c : Nat) (f : Cluster → Cluster) (s : State) : (modCluster c f s).frames = s.frames := rfl
@[simp] theorem modCluster_nextFrame (c : Nat) (f : Cluster → Cluster) (s : State) : (modCluster c f s).nextFrame = s.nextFrame := rfl
@[simp] theorem modCluster_rx (c : Nat) (f : Cluster → Cluster) (s : State) : (modCluster c f s).rx = s.rx := rfl
@[simp] theorem modCluster_ver (c : Nat) (f : Cluster → Cluster) (s : State) : (modCluster c f s).ver = s.ver := rfl
@[simp] theorem modCluster_pools (c : Nat) (f : Cluster → Cluster) (s : State) : (modCluster c f s).pools = s.pools := rfl
@[simp] theorem modCluster_sw (c : Nat) (f : Cluster → Cluster) (s : State) : (modCluster c f s).sw = s.sw := rfl
@[simp] theorem modCluster_egr (c : Nat) (f : Cluster → Cluster) (s : State) : (modCluster c f s).egr = s.egr := rfl
@[simp] theorem modCluster_flow (c : Nat) (f : Cluster → Cluster) (s : State) : (modCluster c f s).flow = s.flow := rfl
@[simp] theorem modCluster_fen (c : Nat) (f : Cluster → Cluster) (s : State) : (modCluster c f s).fen = s.fen := rfl
@[simp] theorem modCluster_bq (c : Nat) (f : Cluster → Cluster) (s : State) : (modCluster c f s).bq = s.bq := rfl
@[simp] theorem modCluster_mesh (c : Nat) (f : Cluster → Cluster) (s : State) : (modCluster c f s).mesh = s.mesh := rfl
@[simp] theorem modCluster_fw (c : Nat) (f : Cluster → Cluster) (s : State) : (modCluster c f s).fw = s.fw := rfl
@[simp] theorem modCluster_recov (c : Nat) (f : Cluster → Cluster) (s : State) : (modCluster c f s).recov = s.recov := rfl
@[simp] theorem modCluster_io (c : Nat) (f : Cluster → Cluster) (s : State) : (modCluster c f s).io = s.io := rfl
@[simp] theorem modCluster_out (c : Nat) (f : Cluster → Cluster) (s : State) : (modCluster c f s).out = s.out := rfl

@[simp] theorem putEngine_pending (e : Nat) (x : Engine) (s : State) : (putEngine e x s).pending = s.pending := rfl
@[simp] theorem putEngine_variant (e : Nat) (x : Engine) (s : State) : (putEngine e x s).variant = s.variant := rfl
@[simp] theorem putEngine_fab (e : Nat) (x : Engine) (s : State) : (putEngine e x s).fab = s.fab := rfl
@[simp] theorem putEngine_evt (e : Nat) (x : Engine) (s : State) : (putEngine e x s).evt = s.evt := rfl
@[simp] theorem putEngine_tmk (e : Nat) (x : Engine) (s : State) : (putEngine e x s).tmk = s.tmk := rfl
@[simp] theorem putEngine_pcn (e : Nat) (x : Engine) (s : State) : (putEngine e x s).pcn = s.pcn := rfl
@[simp] theorem putEngine_tim (e : Nat) (x : Engine) (s : State) : (putEngine e x s).tim = s.tim := rfl
@[simp] theorem putEngine_pwr (e : Nat) (x : Engine) (s : State) : (putEngine e x s).pwr = s.pwr := rfl
@[simp] theorem putEngine_start (e : Nat) (x : Engine) (s : State) : (putEngine e x s).start = s.start := rfl
@[simp] theorem putEngine_lanes (e : Nat) (x : Engine) (s : State) : (putEngine e x s).lanes = s.lanes := rfl
@[simp] theorem putEngine_l2 (e : Nat) (x : Engine) (s : State) : (putEngine e x s).l2 = s.l2 := rfl
@[simp] theorem putEngine_lpm (e : Nat) (x : Engine) (s : State) : (putEngine e x s).lpm = s.lpm := rfl
@[simp] theorem putEngine_frames (e : Nat) (x : Engine) (s : State) : (putEngine e x s).frames = s.frames := rfl
@[simp] theorem putEngine_nextFrame (e : Nat) (x : Engine) (s : State) : (putEngine e x s).nextFrame = s.nextFrame := rfl
@[simp] theorem putEngine_rx (e : Nat) (x : Engine) (s : State) : (putEngine e x s).rx = s.rx := rfl
@[simp] theorem putEngine_ver (e : Nat) (x : Engine) (s : State) : (putEngine e x s).ver = s.ver := rfl
@[simp] theorem putEngine_pools (e : Nat) (x : Engine) (s : State) : (putEngine e x s).pools = s.pools := rfl
@[simp] theorem putEngine_sw (e : Nat) (x : Engine) (s : State) : (putEngine e x s).sw = s.sw := rfl
@[simp] theorem putEngine_egr (e : Nat) (x : Engine) (s : State) : (putEngine e x s).egr = s.egr := rfl
@[simp] theorem putEngine_flow (e : Nat) (x : Engine) (s : State) : (putEngine e x s).flow = s.flow := rfl
@[simp] theorem putEngine_dsp (e : Nat) (x : Engine) (s : State) : (putEngine e x s).dsp = s.dsp := rfl
@[simp] theorem putEngine_bq (e : Nat) (x : Engine) (s : State) : (putEngine e x s).bq = s.bq := rfl
@[simp] theorem putEngine_mesh (e : Nat) (x : Engine) (s : State) : (putEngine e x s).mesh = s.mesh := rfl
@[simp] theorem putEngine_fw (e : Nat) (x : Engine) (s : State) : (putEngine e x s).fw = s.fw := rfl
@[simp] theorem putEngine_recov (e : Nat) (x : Engine) (s : State) : (putEngine e x s).recov = s.recov := rfl
@[simp] theorem putEngine_io (e : Nat) (x : Engine) (s : State) : (putEngine e x s).io = s.io := rfl
@[simp] theorem putEngine_out (e : Nat) (x : Engine) (s : State) : (putEngine e x s).out = s.out := rfl

@[simp] theorem putMeter_pending (i : Nat) (m : Meter) (s : State) : (putMeter i m s).pending = s.pending := rfl
@[simp] theorem putMeter_variant (i : Nat) (m : Meter) (s : State) : (putMeter i m s).variant = s.variant := rfl
@[simp] theorem putMeter_fab (i : Nat) (m : Meter) (s : State) : (putMeter i m s).fab = s.fab := rfl
@[simp] theorem putMeter_evt (i : Nat) (m : Meter) (s : State) : (putMeter i m s).evt = s.evt := rfl
@[simp] theorem putMeter_tmk (i : Nat) (m : Meter) (s : State) : (putMeter i m s).tmk = s.tmk := rfl
@[simp] theorem putMeter_pcn (i : Nat) (m : Meter) (s : State) : (putMeter i m s).pcn = s.pcn := rfl
@[simp] theorem putMeter_tim (i : Nat) (m : Meter) (s : State) : (putMeter i m s).tim = s.tim := rfl
@[simp] theorem putMeter_pwr (i : Nat) (m : Meter) (s : State) : (putMeter i m s).pwr = s.pwr := rfl
@[simp] theorem putMeter_start (i : Nat) (m : Meter) (s : State) : (putMeter i m s).start = s.start := rfl
@[simp] theorem putMeter_lanes (i : Nat) (m : Meter) (s : State) : (putMeter i m s).lanes = s.lanes := rfl
@[simp] theorem putMeter_l2 (i : Nat) (m : Meter) (s : State) : (putMeter i m s).l2 = s.l2 := rfl
@[simp] theorem putMeter_lpm (i : Nat) (m : Meter) (s : State) : (putMeter i m s).lpm = s.lpm := rfl
@[simp] theorem putMeter_frames (i : Nat) (m : Meter) (s : State) : (putMeter i m s).frames = s.frames := rfl
@[simp] theorem putMeter_nextFrame (i : Nat) (m : Meter) (s : State) : (putMeter i m s).nextFrame = s.nextFrame := rfl
@[simp] theorem putMeter_rx (i : Nat) (m : Meter) (s : State) : (putMeter i m s).rx = s.rx := rfl
@[simp] theorem putMeter_ver (i : Nat) (m : Meter) (s : State) : (putMeter i m s).ver = s.ver := rfl
@[simp] theorem putMeter_pools (i : Nat) (m : Meter) (s : State) : (putMeter i m s).pools = s.pools := rfl
@[simp] theorem putMeter_sw (i : Nat) (m : Meter) (s : State) : (putMeter i m s).sw = s.sw := rfl
@[simp] theorem putMeter_flow (i : Nat) (m : Meter) (s : State) : (putMeter i m s).flow = s.flow := rfl
@[simp] theorem putMeter_dsp (i : Nat) (m : Meter) (s : State) : (putMeter i m s).dsp = s.dsp := rfl
@[simp] theorem putMeter_fen (i : Nat) (m : Meter) (s : State) : (putMeter i m s).fen = s.fen := rfl
@[simp] theorem putMeter_bq (i : Nat) (m : Meter) (s : State) : (putMeter i m s).bq = s.bq := rfl
@[simp] theorem putMeter_mesh (i : Nat) (m : Meter) (s : State) : (putMeter i m s).mesh = s.mesh := rfl
@[simp] theorem putMeter_fw (i : Nat) (m : Meter) (s : State) : (putMeter i m s).fw = s.fw := rfl
@[simp] theorem putMeter_recov (i : Nat) (m : Meter) (s : State) : (putMeter i m s).recov = s.recov := rfl
@[simp] theorem putMeter_io (i : Nat) (m : Meter) (s : State) : (putMeter i m s).io = s.io := rfl
@[simp] theorem putMeter_out (i : Nat) (m : Meter) (s : State) : (putMeter i m s).out = s.out := rfl

@[simp] theorem putStore_pending (c : Nat) (x : Store) (s : State) : (putStore c x s).pending = s.pending := rfl
@[simp] theorem putStore_variant (c : Nat) (x : Store) (s : State) : (putStore c x s).variant = s.variant := rfl
@[simp] theorem putStore_fab (c : Nat) (x : Store) (s : State) : (putStore c x s).fab = s.fab := rfl
@[simp] theorem putStore_evt (c : Nat) (x : Store) (s : State) : (putStore c x s).evt = s.evt := rfl
@[simp] theorem putStore_tmk (c : Nat) (x : Store) (s : State) : (putStore c x s).tmk = s.tmk := rfl
@[simp] theorem putStore_pcn (c : Nat) (x : Store) (s : State) : (putStore c x s).pcn = s.pcn := rfl
@[simp] theorem putStore_tim (c : Nat) (x : Store) (s : State) : (putStore c x s).tim = s.tim := rfl
@[simp] theorem putStore_pwr (c : Nat) (x : Store) (s : State) : (putStore c x s).pwr = s.pwr := rfl
@[simp] theorem putStore_start (c : Nat) (x : Store) (s : State) : (putStore c x s).start = s.start := rfl
@[simp] theorem putStore_lanes (c : Nat) (x : Store) (s : State) : (putStore c x s).lanes = s.lanes := rfl
@[simp] theorem putStore_l2 (c : Nat) (x : Store) (s : State) : (putStore c x s).l2 = s.l2 := rfl
@[simp] theorem putStore_lpm (c : Nat) (x : Store) (s : State) : (putStore c x s).lpm = s.lpm := rfl
@[simp] theorem putStore_frames (c : Nat) (x : Store) (s : State) : (putStore c x s).frames = s.frames := rfl
@[simp] theorem putStore_nextFrame (c : Nat) (x : Store) (s : State) : (putStore c x s).nextFrame = s.nextFrame := rfl
@[simp] theorem putStore_rx (c : Nat) (x : Store) (s : State) : (putStore c x s).rx = s.rx := rfl
@[simp] theorem putStore_ver (c : Nat) (x : Store) (s : State) : (putStore c x s).ver = s.ver := rfl
@[simp] theorem putStore_pools (c : Nat) (x : Store) (s : State) : (putStore c x s).pools = s.pools := rfl
@[simp] theorem putStore_sw (c : Nat) (x : Store) (s : State) : (putStore c x s).sw = s.sw := rfl
@[simp] theorem putStore_egr (c : Nat) (x : Store) (s : State) : (putStore c x s).egr = s.egr := rfl
@[simp] theorem putStore_flow (c : Nat) (x : Store) (s : State) : (putStore c x s).flow = s.flow := rfl
@[simp] theorem putStore_dsp (c : Nat) (x : Store) (s : State) : (putStore c x s).dsp = s.dsp := rfl
@[simp] theorem putStore_bq (c : Nat) (x : Store) (s : State) : (putStore c x s).bq = s.bq := rfl
@[simp] theorem putStore_mesh (c : Nat) (x : Store) (s : State) : (putStore c x s).mesh = s.mesh := rfl
@[simp] theorem putStore_fw (c : Nat) (x : Store) (s : State) : (putStore c x s).fw = s.fw := rfl
@[simp] theorem putStore_recov (c : Nat) (x : Store) (s : State) : (putStore c x s).recov = s.recov := rfl
@[simp] theorem putStore_io (c : Nat) (x : Store) (s : State) : (putStore c x s).io = s.io := rfl
@[simp] theorem putStore_out (c : Nat) (x : Store) (s : State) : (putStore c x s).out = s.out := rfl

@[simp] theorem modStore_pending (c : Nat) (f : Store → Store) (s : State) : (modStore c f s).pending = s.pending := rfl
@[simp] theorem modStore_variant (c : Nat) (f : Store → Store) (s : State) : (modStore c f s).variant = s.variant := rfl
@[simp] theorem modStore_fab (c : Nat) (f : Store → Store) (s : State) : (modStore c f s).fab = s.fab := rfl
@[simp] theorem modStore_evt (c : Nat) (f : Store → Store) (s : State) : (modStore c f s).evt = s.evt := rfl
@[simp] theorem modStore_tmk (c : Nat) (f : Store → Store) (s : State) : (modStore c f s).tmk = s.tmk := rfl
@[simp] theorem modStore_pcn (c : Nat) (f : Store → Store) (s : State) : (modStore c f s).pcn = s.pcn := rfl
@[simp] theorem modStore_tim (c : Nat) (f : Store → Store) (s : State) : (modStore c f s).tim = s.tim := rfl
@[simp] theorem modStore_pwr (c : Nat) (f : Store → Store) (s : State) : (modStore c f s).pwr = s.pwr := rfl
@[simp] theorem modStore_start (c : Nat) (f : Store → Store) (s : State) : (modStore c f s).start = s.start := rfl
@[simp] theorem modStore_lanes (c : Nat) (f : Store → Store) (s : State) : (modStore c f s).lanes = s.lanes := rfl
@[simp] theorem modStore_l2 (c : Nat) (f : Store → Store) (s : State) : (modStore c f s).l2 = s.l2 := rfl
@[simp] theorem modStore_lpm (c : Nat) (f : Store → Store) (s : State) : (modStore c f s).lpm = s.lpm := rfl
@[simp] theorem modStore_frames (c : Nat) (f : Store → Store) (s : State) : (modStore c f s).frames = s.frames := rfl
@[simp] theorem modStore_nextFrame (c : Nat) (f : Store → Store) (s : State) : (modStore c f s).nextFrame = s.nextFrame := rfl
@[simp] theorem modStore_rx (c : Nat) (f : Store → Store) (s : State) : (modStore c f s).rx = s.rx := rfl
@[simp] theorem modStore_ver (c : Nat) (f : Store → Store) (s : State) : (modStore c f s).ver = s.ver := rfl
@[simp] theorem modStore_pools (c : Nat) (f : Store → Store) (s : State) : (modStore c f s).pools = s.pools := rfl
@[simp] theorem modStore_sw (c : Nat) (f : Store → Store) (s : State) : (modStore c f s).sw = s.sw := rfl
@[simp] theorem modStore_egr (c : Nat) (f : Store → Store) (s : State) : (modStore c f s).egr = s.egr := rfl
@[simp] theorem modStore_flow (c : Nat) (f : Store → Store) (s : State) : (modStore c f s).flow = s.flow := rfl
@[simp] theorem modStore_dsp (c : Nat) (f : Store → Store) (s : State) : (modStore c f s).dsp = s.dsp := rfl
@[simp] theorem modStore_bq (c : Nat) (f : Store → Store) (s : State) : (modStore c f s).bq = s.bq := rfl
@[simp] theorem modStore_mesh (c : Nat) (f : Store → Store) (s : State) : (modStore c f s).mesh = s.mesh := rfl
@[simp] theorem modStore_fw (c : Nat) (f : Store → Store) (s : State) : (modStore c f s).fw = s.fw := rfl
@[simp] theorem modStore_recov (c : Nat) (f : Store → Store) (s : State) : (modStore c f s).recov = s.recov := rfl
@[simp] theorem modStore_io (c : Nat) (f : Store → Store) (s : State) : (modStore c f s).io = s.io := rfl
@[simp] theorem modStore_out (c : Nat) (f : Store → Store) (s : State) : (modStore c f s).out = s.out := rfl

@[simp] theorem putErr_pending (k v : Nat) (s : State) : (putErr k v s).pending = s.pending := rfl
@[simp] theorem putErr_variant (k v : Nat) (s : State) : (putErr k v s).variant = s.variant := rfl
@[simp] theorem putErr_fab (k v : Nat) (s : State) : (putErr k v s).fab = s.fab := rfl
@[simp] theorem putErr_evt (k v : Nat) (s : State) : (putErr k v s).evt = s.evt := rfl
@[simp] theorem putErr_tmk (k v : Nat) (s : State) : (putErr k v s).tmk = s.tmk := rfl
@[simp] theorem putErr_pcn (k v : Nat) (s : State) : (putErr k v s).pcn = s.pcn := rfl
@[simp] theorem putErr_tim (k v : Nat) (s : State) : (putErr k v s).tim = s.tim := rfl
@[simp] theorem putErr_pwr (k v : Nat) (s : State) : (putErr k v s).pwr = s.pwr := rfl
@[simp] theorem putErr_start (k v : Nat) (s : State) : (putErr k v s).start = s.start := rfl
@[simp] theorem putErr_lanes (k v : Nat) (s : State) : (putErr k v s).lanes = s.lanes := rfl
@[simp] theorem putErr_l2 (k v : Nat) (s : State) : (putErr k v s).l2 = s.l2 := rfl
@[simp] theorem putErr_lpm (k v : Nat) (s : State) : (putErr k v s).lpm = s.lpm := rfl
@[simp] theorem putErr_frames (k v : Nat) (s : State) : (putErr k v s).frames = s.frames := rfl
@[simp] theorem putErr_nextFrame (k v : Nat) (s : State) : (putErr k v s).nextFrame = s.nextFrame := rfl
@[simp] theorem putErr_rx (k v : Nat) (s : State) : (putErr k v s).rx = s.rx := rfl
@[simp] theorem putErr_ver (k v : Nat) (s : State) : (putErr k v s).ver = s.ver := rfl
@[simp] theorem putErr_sw (k v : Nat) (s : State) : (putErr k v s).sw = s.sw := rfl
@[simp] theorem putErr_egr (k v : Nat) (s : State) : (putErr k v s).egr = s.egr := rfl
@[simp] theorem putErr_flow (k v : Nat) (s : State) : (putErr k v s).flow = s.flow := rfl
@[simp] theorem putErr_dsp (k v : Nat) (s : State) : (putErr k v s).dsp = s.dsp := rfl
@[simp] theorem putErr_fen (k v : Nat) (s : State) : (putErr k v s).fen = s.fen := rfl
@[simp] theorem putErr_bq (k v : Nat) (s : State) : (putErr k v s).bq = s.bq := rfl
@[simp] theorem putErr_mesh (k v : Nat) (s : State) : (putErr k v s).mesh = s.mesh := rfl
@[simp] theorem putErr_fw (k v : Nat) (s : State) : (putErr k v s).fw = s.fw := rfl
@[simp] theorem putErr_recov (k v : Nat) (s : State) : (putErr k v s).recov = s.recov := rfl
@[simp] theorem putErr_io (k v : Nat) (s : State) : (putErr k v s).io = s.io := rfl
@[simp] theorem putErr_out (k v : Nat) (s : State) : (putErr k v s).out = s.out := rfl

@[simp] theorem setCause_pending (e : Src) (s : State) : (setCause e s).pending = s.pending := rfl
@[simp] theorem setCause_variant (e : Src) (s : State) : (setCause e s).variant = s.variant := rfl
@[simp] theorem setCause_fab (e : Src) (s : State) : (setCause e s).fab = s.fab := rfl
@[simp] theorem setCause_tmk (e : Src) (s : State) : (setCause e s).tmk = s.tmk := rfl
@[simp] theorem setCause_pcn (e : Src) (s : State) : (setCause e s).pcn = s.pcn := rfl
@[simp] theorem setCause_tim (e : Src) (s : State) : (setCause e s).tim = s.tim := rfl
@[simp] theorem setCause_pwr (e : Src) (s : State) : (setCause e s).pwr = s.pwr := rfl
@[simp] theorem setCause_start (e : Src) (s : State) : (setCause e s).start = s.start := rfl
@[simp] theorem setCause_lanes (e : Src) (s : State) : (setCause e s).lanes = s.lanes := rfl
@[simp] theorem setCause_l2 (e : Src) (s : State) : (setCause e s).l2 = s.l2 := rfl
@[simp] theorem setCause_lpm (e : Src) (s : State) : (setCause e s).lpm = s.lpm := rfl
@[simp] theorem setCause_frames (e : Src) (s : State) : (setCause e s).frames = s.frames := rfl
@[simp] theorem setCause_nextFrame (e : Src) (s : State) : (setCause e s).nextFrame = s.nextFrame := rfl
@[simp] theorem setCause_rx (e : Src) (s : State) : (setCause e s).rx = s.rx := rfl
@[simp] theorem setCause_ver (e : Src) (s : State) : (setCause e s).ver = s.ver := rfl
@[simp] theorem setCause_pools (e : Src) (s : State) : (setCause e s).pools = s.pools := rfl
@[simp] theorem setCause_sw (e : Src) (s : State) : (setCause e s).sw = s.sw := rfl
@[simp] theorem setCause_egr (e : Src) (s : State) : (setCause e s).egr = s.egr := rfl
@[simp] theorem setCause_flow (e : Src) (s : State) : (setCause e s).flow = s.flow := rfl
@[simp] theorem setCause_dsp (e : Src) (s : State) : (setCause e s).dsp = s.dsp := rfl
@[simp] theorem setCause_fen (e : Src) (s : State) : (setCause e s).fen = s.fen := rfl
@[simp] theorem setCause_bq (e : Src) (s : State) : (setCause e s).bq = s.bq := rfl
@[simp] theorem setCause_mesh (e : Src) (s : State) : (setCause e s).mesh = s.mesh := rfl
@[simp] theorem setCause_fw (e : Src) (s : State) : (setCause e s).fw = s.fw := rfl
@[simp] theorem setCause_recov (e : Src) (s : State) : (setCause e s).recov = s.recov := rfl
@[simp] theorem setCause_io (e : Src) (s : State) : (setCause e s).io = s.io := rfl
@[simp] theorem setCause_out (e : Src) (s : State) : (setCause e s).out = s.out := rfl

@[simp] theorem putVoq_pending (g d c : Nat) (l : List Nat) (s : State) : (putVoq g d c l s).pending = s.pending := rfl
@[simp] theorem putVoq_variant (g d c : Nat) (l : List Nat) (s : State) : (putVoq g d c l s).variant = s.variant := rfl
@[simp] theorem putVoq_fab (g d c : Nat) (l : List Nat) (s : State) : (putVoq g d c l s).fab = s.fab := rfl
@[simp] theorem putVoq_evt (g d c : Nat) (l : List Nat) (s : State) : (putVoq g d c l s).evt = s.evt := rfl
@[simp] theorem putVoq_tmk (g d c : Nat) (l : List Nat) (s : State) : (putVoq g d c l s).tmk = s.tmk := rfl
@[simp] theorem putVoq_pcn (g d c : Nat) (l : List Nat) (s : State) : (putVoq g d c l s).pcn = s.pcn := rfl
@[simp] theorem putVoq_tim (g d c : Nat) (l : List Nat) (s : State) : (putVoq g d c l s).tim = s.tim := rfl
@[simp] theorem putVoq_pwr (g d c : Nat) (l : List Nat) (s : State) : (putVoq g d c l s).pwr = s.pwr := rfl
@[simp] theorem putVoq_start (g d c : Nat) (l : List Nat) (s : State) : (putVoq g d c l s).start = s.start := rfl
@[simp] theorem putVoq_lanes (g d c : Nat) (l : List Nat) (s : State) : (putVoq g d c l s).lanes = s.lanes := rfl
@[simp] theorem putVoq_l2 (g d c : Nat) (l : List Nat) (s : State) : (putVoq g d c l s).l2 = s.l2 := rfl
@[simp] theorem putVoq_lpm (g d c : Nat) (l : List Nat) (s : State) : (putVoq g d c l s).lpm = s.lpm := rfl
@[simp] theorem putVoq_frames (g d c : Nat) (l : List Nat) (s : State) : (putVoq g d c l s).frames = s.frames := rfl
@[simp] theorem putVoq_nextFrame (g d c : Nat) (l : List Nat) (s : State) : (putVoq g d c l s).nextFrame = s.nextFrame := rfl
@[simp] theorem putVoq_rx (g d c : Nat) (l : List Nat) (s : State) : (putVoq g d c l s).rx = s.rx := rfl
@[simp] theorem putVoq_ver (g d c : Nat) (l : List Nat) (s : State) : (putVoq g d c l s).ver = s.ver := rfl
@[simp] theorem putVoq_pools (g d c : Nat) (l : List Nat) (s : State) : (putVoq g d c l s).pools = s.pools := rfl
@[simp] theorem putVoq_egr (g d c : Nat) (l : List Nat) (s : State) : (putVoq g d c l s).egr = s.egr := rfl
@[simp] theorem putVoq_flow (g d c : Nat) (l : List Nat) (s : State) : (putVoq g d c l s).flow = s.flow := rfl
@[simp] theorem putVoq_dsp (g d c : Nat) (l : List Nat) (s : State) : (putVoq g d c l s).dsp = s.dsp := rfl
@[simp] theorem putVoq_fen (g d c : Nat) (l : List Nat) (s : State) : (putVoq g d c l s).fen = s.fen := rfl
@[simp] theorem putVoq_bq (g d c : Nat) (l : List Nat) (s : State) : (putVoq g d c l s).bq = s.bq := rfl
@[simp] theorem putVoq_mesh (g d c : Nat) (l : List Nat) (s : State) : (putVoq g d c l s).mesh = s.mesh := rfl
@[simp] theorem putVoq_fw (g d c : Nat) (l : List Nat) (s : State) : (putVoq g d c l s).fw = s.fw := rfl
@[simp] theorem putVoq_recov (g d c : Nat) (l : List Nat) (s : State) : (putVoq g d c l s).recov = s.recov := rfl
@[simp] theorem putVoq_io (g d c : Nat) (l : List Nat) (s : State) : (putVoq g d c l s).io = s.io := rfl
@[simp] theorem putVoq_out (g d c : Nat) (l : List Nat) (s : State) : (putVoq g d c l s).out = s.out := rfl

@[simp] theorem putDest_pending (d : Nat) (x : Dest) (s : State) : (putDest d x s).pending = s.pending := rfl
@[simp] theorem putDest_variant (d : Nat) (x : Dest) (s : State) : (putDest d x s).variant = s.variant := rfl
@[simp] theorem putDest_fab (d : Nat) (x : Dest) (s : State) : (putDest d x s).fab = s.fab := rfl
@[simp] theorem putDest_evt (d : Nat) (x : Dest) (s : State) : (putDest d x s).evt = s.evt := rfl
@[simp] theorem putDest_tmk (d : Nat) (x : Dest) (s : State) : (putDest d x s).tmk = s.tmk := rfl
@[simp] theorem putDest_pcn (d : Nat) (x : Dest) (s : State) : (putDest d x s).pcn = s.pcn := rfl
@[simp] theorem putDest_tim (d : Nat) (x : Dest) (s : State) : (putDest d x s).tim = s.tim := rfl
@[simp] theorem putDest_pwr (d : Nat) (x : Dest) (s : State) : (putDest d x s).pwr = s.pwr := rfl
@[simp] theorem putDest_start (d : Nat) (x : Dest) (s : State) : (putDest d x s).start = s.start := rfl
@[simp] theorem putDest_lanes (d : Nat) (x : Dest) (s : State) : (putDest d x s).lanes = s.lanes := rfl
@[simp] theorem putDest_l2 (d : Nat) (x : Dest) (s : State) : (putDest d x s).l2 = s.l2 := rfl
@[simp] theorem putDest_lpm (d : Nat) (x : Dest) (s : State) : (putDest d x s).lpm = s.lpm := rfl
@[simp] theorem putDest_frames (d : Nat) (x : Dest) (s : State) : (putDest d x s).frames = s.frames := rfl
@[simp] theorem putDest_nextFrame (d : Nat) (x : Dest) (s : State) : (putDest d x s).nextFrame = s.nextFrame := rfl
@[simp] theorem putDest_rx (d : Nat) (x : Dest) (s : State) : (putDest d x s).rx = s.rx := rfl
@[simp] theorem putDest_ver (d : Nat) (x : Dest) (s : State) : (putDest d x s).ver = s.ver := rfl
@[simp] theorem putDest_pools (d : Nat) (x : Dest) (s : State) : (putDest d x s).pools = s.pools := rfl
@[simp] theorem putDest_egr (d : Nat) (x : Dest) (s : State) : (putDest d x s).egr = s.egr := rfl
@[simp] theorem putDest_flow (d : Nat) (x : Dest) (s : State) : (putDest d x s).flow = s.flow := rfl
@[simp] theorem putDest_dsp (d : Nat) (x : Dest) (s : State) : (putDest d x s).dsp = s.dsp := rfl
@[simp] theorem putDest_fen (d : Nat) (x : Dest) (s : State) : (putDest d x s).fen = s.fen := rfl
@[simp] theorem putDest_bq (d : Nat) (x : Dest) (s : State) : (putDest d x s).bq = s.bq := rfl
@[simp] theorem putDest_mesh (d : Nat) (x : Dest) (s : State) : (putDest d x s).mesh = s.mesh := rfl
@[simp] theorem putDest_fw (d : Nat) (x : Dest) (s : State) : (putDest d x s).fw = s.fw := rfl
@[simp] theorem putDest_recov (d : Nat) (x : Dest) (s : State) : (putDest d x s).recov = s.recov := rfl
@[simp] theorem putDest_io (d : Nat) (x : Dest) (s : State) : (putDest d x s).io = s.io := rfl
@[simp] theorem putDest_out (d : Nat) (x : Dest) (s : State) : (putDest d x s).out = s.out := rfl

@[simp] theorem modDest_pending (d : Nat) (f : Dest → Dest) (s : State) : (modDest d f s).pending = s.pending := rfl
@[simp] theorem modDest_variant (d : Nat) (f : Dest → Dest) (s : State) : (modDest d f s).variant = s.variant := rfl
@[simp] theorem modDest_fab (d : Nat) (f : Dest → Dest) (s : State) : (modDest d f s).fab = s.fab := rfl
@[simp] theorem modDest_evt (d : Nat) (f : Dest → Dest) (s : State) : (modDest d f s).evt = s.evt := rfl
@[simp] theorem modDest_tmk (d : Nat) (f : Dest → Dest) (s : State) : (modDest d f s).tmk = s.tmk := rfl
@[simp] theorem modDest_pcn (d : Nat) (f : Dest → Dest) (s : State) : (modDest d f s).pcn = s.pcn := rfl
@[simp] theorem modDest_tim (d : Nat) (f : Dest → Dest) (s : State) : (modDest d f s).tim = s.tim := rfl
@[simp] theorem modDest_pwr (d : Nat) (f : Dest → Dest) (s : State) : (modDest d f s).pwr = s.pwr := rfl
@[simp] theorem modDest_start (d : Nat) (f : Dest → Dest) (s : State) : (modDest d f s).start = s.start := rfl
@[simp] theorem modDest_lanes (d : Nat) (f : Dest → Dest) (s : State) : (modDest d f s).lanes = s.lanes := rfl
@[simp] theorem modDest_l2 (d : Nat) (f : Dest → Dest) (s : State) : (modDest d f s).l2 = s.l2 := rfl
@[simp] theorem modDest_lpm (d : Nat) (f : Dest → Dest) (s : State) : (modDest d f s).lpm = s.lpm := rfl
@[simp] theorem modDest_frames (d : Nat) (f : Dest → Dest) (s : State) : (modDest d f s).frames = s.frames := rfl
@[simp] theorem modDest_nextFrame (d : Nat) (f : Dest → Dest) (s : State) : (modDest d f s).nextFrame = s.nextFrame := rfl
@[simp] theorem modDest_rx (d : Nat) (f : Dest → Dest) (s : State) : (modDest d f s).rx = s.rx := rfl
@[simp] theorem modDest_ver (d : Nat) (f : Dest → Dest) (s : State) : (modDest d f s).ver = s.ver := rfl
@[simp] theorem modDest_pools (d : Nat) (f : Dest → Dest) (s : State) : (modDest d f s).pools = s.pools := rfl
@[simp] theorem modDest_egr (d : Nat) (f : Dest → Dest) (s : State) : (modDest d f s).egr = s.egr := rfl
@[simp] theorem modDest_flow (d : Nat) (f : Dest → Dest) (s : State) : (modDest d f s).flow = s.flow := rfl
@[simp] theorem modDest_dsp (d : Nat) (f : Dest → Dest) (s : State) : (modDest d f s).dsp = s.dsp := rfl
@[simp] theorem modDest_fen (d : Nat) (f : Dest → Dest) (s : State) : (modDest d f s).fen = s.fen := rfl
@[simp] theorem modDest_bq (d : Nat) (f : Dest → Dest) (s : State) : (modDest d f s).bq = s.bq := rfl
@[simp] theorem modDest_mesh (d : Nat) (f : Dest → Dest) (s : State) : (modDest d f s).mesh = s.mesh := rfl
@[simp] theorem modDest_fw (d : Nat) (f : Dest → Dest) (s : State) : (modDest d f s).fw = s.fw := rfl
@[simp] theorem modDest_recov (d : Nat) (f : Dest → Dest) (s : State) : (modDest d f s).recov = s.recov := rfl
@[simp] theorem modDest_io (d : Nat) (f : Dest → Dest) (s : State) : (modDest d f s).io = s.io := rfl
@[simp] theorem modDest_out (d : Nat) (f : Dest → Dest) (s : State) : (modDest d f s).out = s.out := rfl

@[simp] theorem putVtime_pending (d v : Nat) (s : State) : (putVtime d v s).pending = s.pending := rfl
@[simp] theorem putVtime_variant (d v : Nat) (s : State) : (putVtime d v s).variant = s.variant := rfl
@[simp] theorem putVtime_fab (d v : Nat) (s : State) : (putVtime d v s).fab = s.fab := rfl
@[simp] theorem putVtime_evt (d v : Nat) (s : State) : (putVtime d v s).evt = s.evt := rfl
@[simp] theorem putVtime_tmk (d v : Nat) (s : State) : (putVtime d v s).tmk = s.tmk := rfl
@[simp] theorem putVtime_pcn (d v : Nat) (s : State) : (putVtime d v s).pcn = s.pcn := rfl
@[simp] theorem putVtime_tim (d v : Nat) (s : State) : (putVtime d v s).tim = s.tim := rfl
@[simp] theorem putVtime_pwr (d v : Nat) (s : State) : (putVtime d v s).pwr = s.pwr := rfl
@[simp] theorem putVtime_start (d v : Nat) (s : State) : (putVtime d v s).start = s.start := rfl
@[simp] theorem putVtime_lanes (d v : Nat) (s : State) : (putVtime d v s).lanes = s.lanes := rfl
@[simp] theorem putVtime_l2 (d v : Nat) (s : State) : (putVtime d v s).l2 = s.l2 := rfl
@[simp] theorem putVtime_lpm (d v : Nat) (s : State) : (putVtime d v s).lpm = s.lpm := rfl
@[simp] theorem putVtime_frames (d v : Nat) (s : State) : (putVtime d v s).frames = s.frames := rfl
@[simp] theorem putVtime_nextFrame (d v : Nat) (s : State) : (putVtime d v s).nextFrame = s.nextFrame := rfl
@[simp] theorem putVtime_rx (d v : Nat) (s : State) : (putVtime d v s).rx = s.rx := rfl
@[simp] theorem putVtime_ver (d v : Nat) (s : State) : (putVtime d v s).ver = s.ver := rfl
@[simp] theorem putVtime_pools (d v : Nat) (s : State) : (putVtime d v s).pools = s.pools := rfl
@[simp] theorem putVtime_sw (d v : Nat) (s : State) : (putVtime d v s).sw = s.sw := rfl
@[simp] theorem putVtime_flow (d v : Nat) (s : State) : (putVtime d v s).flow = s.flow := rfl
@[simp] theorem putVtime_dsp (d v : Nat) (s : State) : (putVtime d v s).dsp = s.dsp := rfl
@[simp] theorem putVtime_fen (d v : Nat) (s : State) : (putVtime d v s).fen = s.fen := rfl
@[simp] theorem putVtime_bq (d v : Nat) (s : State) : (putVtime d v s).bq = s.bq := rfl
@[simp] theorem putVtime_mesh (d v : Nat) (s : State) : (putVtime d v s).mesh = s.mesh := rfl
@[simp] theorem putVtime_fw (d v : Nat) (s : State) : (putVtime d v s).fw = s.fw := rfl
@[simp] theorem putVtime_recov (d v : Nat) (s : State) : (putVtime d v s).recov = s.recov := rfl
@[simp] theorem putVtime_io (d v : Nat) (s : State) : (putVtime d v s).io = s.io := rfl
@[simp] theorem putVtime_out (d v : Nat) (s : State) : (putVtime d v s).out = s.out := rfl

@[simp] theorem putTag_pending (d c v : Nat) (s : State) : (putTag d c v s).pending = s.pending := rfl
@[simp] theorem putTag_variant (d c v : Nat) (s : State) : (putTag d c v s).variant = s.variant := rfl
@[simp] theorem putTag_fab (d c v : Nat) (s : State) : (putTag d c v s).fab = s.fab := rfl
@[simp] theorem putTag_evt (d c v : Nat) (s : State) : (putTag d c v s).evt = s.evt := rfl
@[simp] theorem putTag_tmk (d c v : Nat) (s : State) : (putTag d c v s).tmk = s.tmk := rfl
@[simp] theorem putTag_pcn (d c v : Nat) (s : State) : (putTag d c v s).pcn = s.pcn := rfl
@[simp] theorem putTag_tim (d c v : Nat) (s : State) : (putTag d c v s).tim = s.tim := rfl
@[simp] theorem putTag_pwr (d c v : Nat) (s : State) : (putTag d c v s).pwr = s.pwr := rfl
@[simp] theorem putTag_start (d c v : Nat) (s : State) : (putTag d c v s).start = s.start := rfl
@[simp] theorem putTag_lanes (d c v : Nat) (s : State) : (putTag d c v s).lanes = s.lanes := rfl
@[simp] theorem putTag_l2 (d c v : Nat) (s : State) : (putTag d c v s).l2 = s.l2 := rfl
@[simp] theorem putTag_lpm (d c v : Nat) (s : State) : (putTag d c v s).lpm = s.lpm := rfl
@[simp] theorem putTag_frames (d c v : Nat) (s : State) : (putTag d c v s).frames = s.frames := rfl
@[simp] theorem putTag_nextFrame (d c v : Nat) (s : State) : (putTag d c v s).nextFrame = s.nextFrame := rfl
@[simp] theorem putTag_rx (d c v : Nat) (s : State) : (putTag d c v s).rx = s.rx := rfl
@[simp] theorem putTag_ver (d c v : Nat) (s : State) : (putTag d c v s).ver = s.ver := rfl
@[simp] theorem putTag_pools (d c v : Nat) (s : State) : (putTag d c v s).pools = s.pools := rfl
@[simp] theorem putTag_sw (d c v : Nat) (s : State) : (putTag d c v s).sw = s.sw := rfl
@[simp] theorem putTag_flow (d c v : Nat) (s : State) : (putTag d c v s).flow = s.flow := rfl
@[simp] theorem putTag_dsp (d c v : Nat) (s : State) : (putTag d c v s).dsp = s.dsp := rfl
@[simp] theorem putTag_fen (d c v : Nat) (s : State) : (putTag d c v s).fen = s.fen := rfl
@[simp] theorem putTag_bq (d c v : Nat) (s : State) : (putTag d c v s).bq = s.bq := rfl
@[simp] theorem putTag_mesh (d c v : Nat) (s : State) : (putTag d c v s).mesh = s.mesh := rfl
@[simp] theorem putTag_fw (d c v : Nat) (s : State) : (putTag d c v s).fw = s.fw := rfl
@[simp] theorem putTag_recov (d c v : Nat) (s : State) : (putTag d c v s).recov = s.recov := rfl
@[simp] theorem putTag_io (d c v : Nat) (s : State) : (putTag d c v s).io = s.io := rfl
@[simp] theorem putTag_out (d c v : Nat) (s : State) : (putTag d c v s).out = s.out := rfl

@[simp] theorem modSys_pending (f : SysVersion → SysVersion) (s : State) : (modSys f s).pending = s.pending := rfl
@[simp] theorem modSys_variant (f : SysVersion → SysVersion) (s : State) : (modSys f s).variant = s.variant := rfl
@[simp] theorem modSys_fab (f : SysVersion → SysVersion) (s : State) : (modSys f s).fab = s.fab := rfl
@[simp] theorem modSys_evt (f : SysVersion → SysVersion) (s : State) : (modSys f s).evt = s.evt := rfl
@[simp] theorem modSys_tmk (f : SysVersion → SysVersion) (s : State) : (modSys f s).tmk = s.tmk := rfl
@[simp] theorem modSys_pcn (f : SysVersion → SysVersion) (s : State) : (modSys f s).pcn = s.pcn := rfl
@[simp] theorem modSys_tim (f : SysVersion → SysVersion) (s : State) : (modSys f s).tim = s.tim := rfl
@[simp] theorem modSys_pwr (f : SysVersion → SysVersion) (s : State) : (modSys f s).pwr = s.pwr := rfl
@[simp] theorem modSys_start (f : SysVersion → SysVersion) (s : State) : (modSys f s).start = s.start := rfl
@[simp] theorem modSys_lanes (f : SysVersion → SysVersion) (s : State) : (modSys f s).lanes = s.lanes := rfl
@[simp] theorem modSys_l2 (f : SysVersion → SysVersion) (s : State) : (modSys f s).l2 = s.l2 := rfl
@[simp] theorem modSys_lpm (f : SysVersion → SysVersion) (s : State) : (modSys f s).lpm = s.lpm := rfl
@[simp] theorem modSys_frames (f : SysVersion → SysVersion) (s : State) : (modSys f s).frames = s.frames := rfl
@[simp] theorem modSys_nextFrame (f : SysVersion → SysVersion) (s : State) : (modSys f s).nextFrame = s.nextFrame := rfl
@[simp] theorem modSys_rx (f : SysVersion → SysVersion) (s : State) : (modSys f s).rx = s.rx := rfl
@[simp] theorem modSys_ver (f : SysVersion → SysVersion) (s : State) : (modSys f s).ver = s.ver := rfl
@[simp] theorem modSys_pools (f : SysVersion → SysVersion) (s : State) : (modSys f s).pools = s.pools := rfl
@[simp] theorem modSys_sw (f : SysVersion → SysVersion) (s : State) : (modSys f s).sw = s.sw := rfl
@[simp] theorem modSys_egr (f : SysVersion → SysVersion) (s : State) : (modSys f s).egr = s.egr := rfl
@[simp] theorem modSys_flow (f : SysVersion → SysVersion) (s : State) : (modSys f s).flow = s.flow := rfl
@[simp] theorem modSys_dsp (f : SysVersion → SysVersion) (s : State) : (modSys f s).dsp = s.dsp := rfl
@[simp] theorem modSys_fen (f : SysVersion → SysVersion) (s : State) : (modSys f s).fen = s.fen := rfl
@[simp] theorem modSys_bq (f : SysVersion → SysVersion) (s : State) : (modSys f s).bq = s.bq := rfl
@[simp] theorem modSys_fw (f : SysVersion → SysVersion) (s : State) : (modSys f s).fw = s.fw := rfl
@[simp] theorem modSys_recov (f : SysVersion → SysVersion) (s : State) : (modSys f s).recov = s.recov := rfl
@[simp] theorem modSys_io (f : SysVersion → SysVersion) (s : State) : (modSys f s).io = s.io := rfl
@[simp] theorem modSys_out (f : SysVersion → SysVersion) (s : State) : (modSys f s).out = s.out := rfl

@[simp] theorem putPool_pending (i e : Nat) (s : State) : (putPool i e s).pending = s.pending := rfl
@[simp] theorem putPool_variant (i e : Nat) (s : State) : (putPool i e s).variant = s.variant := rfl
@[simp] theorem putPool_fab (i e : Nat) (s : State) : (putPool i e s).fab = s.fab := rfl
@[simp] theorem putPool_evt (i e : Nat) (s : State) : (putPool i e s).evt = s.evt := rfl
@[simp] theorem putPool_tmk (i e : Nat) (s : State) : (putPool i e s).tmk = s.tmk := rfl
@[simp] theorem putPool_pcn (i e : Nat) (s : State) : (putPool i e s).pcn = s.pcn := rfl
@[simp] theorem putPool_tim (i e : Nat) (s : State) : (putPool i e s).tim = s.tim := rfl
@[simp] theorem putPool_pwr (i e : Nat) (s : State) : (putPool i e s).pwr = s.pwr := rfl
@[simp] theorem putPool_start (i e : Nat) (s : State) : (putPool i e s).start = s.start := rfl
@[simp] theorem putPool_lanes (i e : Nat) (s : State) : (putPool i e s).lanes = s.lanes := rfl
@[simp] theorem putPool_l2 (i e : Nat) (s : State) : (putPool i e s).l2 = s.l2 := rfl
@[simp] theorem putPool_frames (i e : Nat) (s : State) : (putPool i e s).frames = s.frames := rfl
@[simp] theorem putPool_nextFrame (i e : Nat) (s : State) : (putPool i e s).nextFrame = s.nextFrame := rfl
@[simp] theorem putPool_rx (i e : Nat) (s : State) : (putPool i e s).rx = s.rx := rfl
@[simp] theorem putPool_ver (i e : Nat) (s : State) : (putPool i e s).ver = s.ver := rfl
@[simp] theorem putPool_pools (i e : Nat) (s : State) : (putPool i e s).pools = s.pools := rfl
@[simp] theorem putPool_sw (i e : Nat) (s : State) : (putPool i e s).sw = s.sw := rfl
@[simp] theorem putPool_egr (i e : Nat) (s : State) : (putPool i e s).egr = s.egr := rfl
@[simp] theorem putPool_flow (i e : Nat) (s : State) : (putPool i e s).flow = s.flow := rfl
@[simp] theorem putPool_dsp (i e : Nat) (s : State) : (putPool i e s).dsp = s.dsp := rfl
@[simp] theorem putPool_fen (i e : Nat) (s : State) : (putPool i e s).fen = s.fen := rfl
@[simp] theorem putPool_bq (i e : Nat) (s : State) : (putPool i e s).bq = s.bq := rfl
@[simp] theorem putPool_mesh (i e : Nat) (s : State) : (putPool i e s).mesh = s.mesh := rfl
@[simp] theorem putPool_fw (i e : Nat) (s : State) : (putPool i e s).fw = s.fw := rfl
@[simp] theorem putPool_recov (i e : Nat) (s : State) : (putPool i e s).recov = s.recov := rfl
@[simp] theorem putPool_io (i e : Nat) (s : State) : (putPool i e s).io = s.io := rfl
@[simp] theorem putPool_out (i e : Nat) (s : State) : (putPool i e s).out = s.out := rfl

@[simp] theorem putNh_pending (i e : Nat) (s : State) : (putNh i e s).pending = s.pending := rfl
@[simp] theorem putNh_variant (i e : Nat) (s : State) : (putNh i e s).variant = s.variant := rfl
@[simp] theorem putNh_fab (i e : Nat) (s : State) : (putNh i e s).fab = s.fab := rfl
@[simp] theorem putNh_evt (i e : Nat) (s : State) : (putNh i e s).evt = s.evt := rfl
@[simp] theorem putNh_tmk (i e : Nat) (s : State) : (putNh i e s).tmk = s.tmk := rfl
@[simp] theorem putNh_pcn (i e : Nat) (s : State) : (putNh i e s).pcn = s.pcn := rfl
@[simp] theorem putNh_tim (i e : Nat) (s : State) : (putNh i e s).tim = s.tim := rfl
@[simp] theorem putNh_pwr (i e : Nat) (s : State) : (putNh i e s).pwr = s.pwr := rfl
@[simp] theorem putNh_start (i e : Nat) (s : State) : (putNh i e s).start = s.start := rfl
@[simp] theorem putNh_lanes (i e : Nat) (s : State) : (putNh i e s).lanes = s.lanes := rfl
@[simp] theorem putNh_l2 (i e : Nat) (s : State) : (putNh i e s).l2 = s.l2 := rfl
@[simp] theorem putNh_frames (i e : Nat) (s : State) : (putNh i e s).frames = s.frames := rfl
@[simp] theorem putNh_nextFrame (i e : Nat) (s : State) : (putNh i e s).nextFrame = s.nextFrame := rfl
@[simp] theorem putNh_rx (i e : Nat) (s : State) : (putNh i e s).rx = s.rx := rfl
@[simp] theorem putNh_ver (i e : Nat) (s : State) : (putNh i e s).ver = s.ver := rfl
@[simp] theorem putNh_pools (i e : Nat) (s : State) : (putNh i e s).pools = s.pools := rfl
@[simp] theorem putNh_sw (i e : Nat) (s : State) : (putNh i e s).sw = s.sw := rfl
@[simp] theorem putNh_egr (i e : Nat) (s : State) : (putNh i e s).egr = s.egr := rfl
@[simp] theorem putNh_flow (i e : Nat) (s : State) : (putNh i e s).flow = s.flow := rfl
@[simp] theorem putNh_dsp (i e : Nat) (s : State) : (putNh i e s).dsp = s.dsp := rfl
@[simp] theorem putNh_fen (i e : Nat) (s : State) : (putNh i e s).fen = s.fen := rfl
@[simp] theorem putNh_bq (i e : Nat) (s : State) : (putNh i e s).bq = s.bq := rfl
@[simp] theorem putNh_mesh (i e : Nat) (s : State) : (putNh i e s).mesh = s.mesh := rfl
@[simp] theorem putNh_fw (i e : Nat) (s : State) : (putNh i e s).fw = s.fw := rfl
@[simp] theorem putNh_recov (i e : Nat) (s : State) : (putNh i e s).recov = s.recov := rfl
@[simp] theorem putNh_io (i e : Nat) (s : State) : (putNh i e s).io = s.io := rfl
@[simp] theorem putNh_out (i e : Nat) (s : State) : (putNh i e s).out = s.out := rfl

@[simp] theorem putGroup_pending (g e : Nat) (s : State) : (putGroup g e s).pending = s.pending := rfl
@[simp] theorem putGroup_variant (g e : Nat) (s : State) : (putGroup g e s).variant = s.variant := rfl
@[simp] theorem putGroup_fab (g e : Nat) (s : State) : (putGroup g e s).fab = s.fab := rfl
@[simp] theorem putGroup_evt (g e : Nat) (s : State) : (putGroup g e s).evt = s.evt := rfl
@[simp] theorem putGroup_tmk (g e : Nat) (s : State) : (putGroup g e s).tmk = s.tmk := rfl
@[simp] theorem putGroup_pcn (g e : Nat) (s : State) : (putGroup g e s).pcn = s.pcn := rfl
@[simp] theorem putGroup_tim (g e : Nat) (s : State) : (putGroup g e s).tim = s.tim := rfl
@[simp] theorem putGroup_pwr (g e : Nat) (s : State) : (putGroup g e s).pwr = s.pwr := rfl
@[simp] theorem putGroup_start (g e : Nat) (s : State) : (putGroup g e s).start = s.start := rfl
@[simp] theorem putGroup_lanes (g e : Nat) (s : State) : (putGroup g e s).lanes = s.lanes := rfl
@[simp] theorem putGroup_l2 (g e : Nat) (s : State) : (putGroup g e s).l2 = s.l2 := rfl
@[simp] theorem putGroup_frames (g e : Nat) (s : State) : (putGroup g e s).frames = s.frames := rfl
@[simp] theorem putGroup_nextFrame (g e : Nat) (s : State) : (putGroup g e s).nextFrame = s.nextFrame := rfl
@[simp] theorem putGroup_rx (g e : Nat) (s : State) : (putGroup g e s).rx = s.rx := rfl
@[simp] theorem putGroup_ver (g e : Nat) (s : State) : (putGroup g e s).ver = s.ver := rfl
@[simp] theorem putGroup_pools (g e : Nat) (s : State) : (putGroup g e s).pools = s.pools := rfl
@[simp] theorem putGroup_sw (g e : Nat) (s : State) : (putGroup g e s).sw = s.sw := rfl
@[simp] theorem putGroup_egr (g e : Nat) (s : State) : (putGroup g e s).egr = s.egr := rfl
@[simp] theorem putGroup_flow (g e : Nat) (s : State) : (putGroup g e s).flow = s.flow := rfl
@[simp] theorem putGroup_dsp (g e : Nat) (s : State) : (putGroup g e s).dsp = s.dsp := rfl
@[simp] theorem putGroup_fen (g e : Nat) (s : State) : (putGroup g e s).fen = s.fen := rfl
@[simp] theorem putGroup_bq (g e : Nat) (s : State) : (putGroup g e s).bq = s.bq := rfl
@[simp] theorem putGroup_mesh (g e : Nat) (s : State) : (putGroup g e s).mesh = s.mesh := rfl
@[simp] theorem putGroup_fw (g e : Nat) (s : State) : (putGroup g e s).fw = s.fw := rfl
@[simp] theorem putGroup_recov (g e : Nat) (s : State) : (putGroup g e s).recov = s.recov := rfl
@[simp] theorem putGroup_io (g e : Nat) (s : State) : (putGroup g e s).io = s.io := rfl
@[simp] theorem putGroup_out (g e : Nat) (s : State) : (putGroup g e s).out = s.out := rfl

@[simp] theorem putMember_pending (i nh : Nat) (s : State) : (putMember i nh s).pending = s.pending := rfl
@[simp] theorem putMember_variant (i nh : Nat) (s : State) : (putMember i nh s).variant = s.variant := rfl
@[simp] theorem putMember_fab (i nh : Nat) (s : State) : (putMember i nh s).fab = s.fab := rfl
@[simp] theorem putMember_evt (i nh : Nat) (s : State) : (putMember i nh s).evt = s.evt := rfl
@[simp] theorem putMember_tmk (i nh : Nat) (s : State) : (putMember i nh s).tmk = s.tmk := rfl
@[simp] theorem putMember_pcn (i nh : Nat) (s : State) : (putMember i nh s).pcn = s.pcn := rfl
@[simp] theorem putMember_tim (i nh : Nat) (s : State) : (putMember i nh s).tim = s.tim := rfl
@[simp] theorem putMember_pwr (i nh : Nat) (s : State) : (putMember i nh s).pwr = s.pwr := rfl
@[simp] theorem putMember_start (i nh : Nat) (s : State) : (putMember i nh s).start = s.start := rfl
@[simp] theorem putMember_lanes (i nh : Nat) (s : State) : (putMember i nh s).lanes = s.lanes := rfl
@[simp] theorem putMember_l2 (i nh : Nat) (s : State) : (putMember i nh s).l2 = s.l2 := rfl
@[simp] theorem putMember_frames (i nh : Nat) (s : State) : (putMember i nh s).frames = s.frames := rfl
@[simp] theorem putMember_nextFrame (i nh : Nat) (s : State) : (putMember i nh s).nextFrame = s.nextFrame := rfl
@[simp] theorem putMember_rx (i nh : Nat) (s : State) : (putMember i nh s).rx = s.rx := rfl
@[simp] theorem putMember_ver (i nh : Nat) (s : State) : (putMember i nh s).ver = s.ver := rfl
@[simp] theorem putMember_pools (i nh : Nat) (s : State) : (putMember i nh s).pools = s.pools := rfl
@[simp] theorem putMember_sw (i nh : Nat) (s : State) : (putMember i nh s).sw = s.sw := rfl
@[simp] theorem putMember_egr (i nh : Nat) (s : State) : (putMember i nh s).egr = s.egr := rfl
@[simp] theorem putMember_flow (i nh : Nat) (s : State) : (putMember i nh s).flow = s.flow := rfl
@[simp] theorem putMember_dsp (i nh : Nat) (s : State) : (putMember i nh s).dsp = s.dsp := rfl
@[simp] theorem putMember_fen (i nh : Nat) (s : State) : (putMember i nh s).fen = s.fen := rfl
@[simp] theorem putMember_bq (i nh : Nat) (s : State) : (putMember i nh s).bq = s.bq := rfl
@[simp] theorem putMember_mesh (i nh : Nat) (s : State) : (putMember i nh s).mesh = s.mesh := rfl
@[simp] theorem putMember_fw (i nh : Nat) (s : State) : (putMember i nh s).fw = s.fw := rfl
@[simp] theorem putMember_recov (i nh : Nat) (s : State) : (putMember i nh s).recov = s.recov := rfl
@[simp] theorem putMember_io (i nh : Nat) (s : State) : (putMember i nh s).io = s.io := rfl
@[simp] theorem putMember_out (i nh : Nat) (s : State) : (putMember i nh s).out = s.out := rfl

@[simp] theorem putTieLink_pending (k : Nat) (x : TieLinkSt) (s : State) : (putTieLink k x s).pending = s.pending := rfl
@[simp] theorem putTieLink_variant (k : Nat) (x : TieLinkSt) (s : State) : (putTieLink k x s).variant = s.variant := rfl
@[simp] theorem putTieLink_fab (k : Nat) (x : TieLinkSt) (s : State) : (putTieLink k x s).fab = s.fab := rfl
@[simp] theorem putTieLink_evt (k : Nat) (x : TieLinkSt) (s : State) : (putTieLink k x s).evt = s.evt := rfl
@[simp] theorem putTieLink_tmk (k : Nat) (x : TieLinkSt) (s : State) : (putTieLink k x s).tmk = s.tmk := rfl
@[simp] theorem putTieLink_pcn (k : Nat) (x : TieLinkSt) (s : State) : (putTieLink k x s).pcn = s.pcn := rfl
@[simp] theorem putTieLink_tim (k : Nat) (x : TieLinkSt) (s : State) : (putTieLink k x s).tim = s.tim := rfl
@[simp] theorem putTieLink_pwr (k : Nat) (x : TieLinkSt) (s : State) : (putTieLink k x s).pwr = s.pwr := rfl
@[simp] theorem putTieLink_start (k : Nat) (x : TieLinkSt) (s : State) : (putTieLink k x s).start = s.start := rfl
@[simp] theorem putTieLink_lanes (k : Nat) (x : TieLinkSt) (s : State) : (putTieLink k x s).lanes = s.lanes := rfl
@[simp] theorem putTieLink_l2 (k : Nat) (x : TieLinkSt) (s : State) : (putTieLink k x s).l2 = s.l2 := rfl
@[simp] theorem putTieLink_lpm (k : Nat) (x : TieLinkSt) (s : State) : (putTieLink k x s).lpm = s.lpm := rfl
@[simp] theorem putTieLink_frames (k : Nat) (x : TieLinkSt) (s : State) : (putTieLink k x s).frames = s.frames := rfl
@[simp] theorem putTieLink_nextFrame (k : Nat) (x : TieLinkSt) (s : State) : (putTieLink k x s).nextFrame = s.nextFrame := rfl
@[simp] theorem putTieLink_rx (k : Nat) (x : TieLinkSt) (s : State) : (putTieLink k x s).rx = s.rx := rfl
@[simp] theorem putTieLink_ver (k : Nat) (x : TieLinkSt) (s : State) : (putTieLink k x s).ver = s.ver := rfl
@[simp] theorem putTieLink_pools (k : Nat) (x : TieLinkSt) (s : State) : (putTieLink k x s).pools = s.pools := rfl
@[simp] theorem putTieLink_sw (k : Nat) (x : TieLinkSt) (s : State) : (putTieLink k x s).sw = s.sw := rfl
@[simp] theorem putTieLink_egr (k : Nat) (x : TieLinkSt) (s : State) : (putTieLink k x s).egr = s.egr := rfl
@[simp] theorem putTieLink_flow (k : Nat) (x : TieLinkSt) (s : State) : (putTieLink k x s).flow = s.flow := rfl
@[simp] theorem putTieLink_dsp (k : Nat) (x : TieLinkSt) (s : State) : (putTieLink k x s).dsp = s.dsp := rfl
@[simp] theorem putTieLink_fen (k : Nat) (x : TieLinkSt) (s : State) : (putTieLink k x s).fen = s.fen := rfl
@[simp] theorem putTieLink_bq (k : Nat) (x : TieLinkSt) (s : State) : (putTieLink k x s).bq = s.bq := rfl
@[simp] theorem putTieLink_fw (k : Nat) (x : TieLinkSt) (s : State) : (putTieLink k x s).fw = s.fw := rfl
@[simp] theorem putTieLink_recov (k : Nat) (x : TieLinkSt) (s : State) : (putTieLink k x s).recov = s.recov := rfl
@[simp] theorem putTieLink_io (k : Nat) (x : TieLinkSt) (s : State) : (putTieLink k x s).io = s.io := rfl
@[simp] theorem putTieLink_out (k : Nat) (x : TieLinkSt) (s : State) : (putTieLink k x s).out = s.out := rfl

@[simp] theorem modTieLink_pending (k : Nat) (f : TieLinkSt → TieLinkSt) (s : State) : (modTieLink k f s).pending = s.pending := rfl
@[simp] theorem modTieLink_variant (k : Nat) (f : TieLinkSt → TieLinkSt) (s : State) : (modTieLink k f s).variant = s.variant := rfl
@[simp] theorem modTieLink_fab (k : Nat) (f : TieLinkSt → TieLinkSt) (s : State) : (modTieLink k f s).fab = s.fab := rfl
@[simp] theorem modTieLink_evt (k : Nat) (f : TieLinkSt → TieLinkSt) (s : State) : (modTieLink k f s).evt = s.evt := rfl
@[simp] theorem modTieLink_tmk (k : Nat) (f : TieLinkSt → TieLinkSt) (s : State) : (modTieLink k f s).tmk = s.tmk := rfl
@[simp] theorem modTieLink_pcn (k : Nat) (f : TieLinkSt → TieLinkSt) (s : State) : (modTieLink k f s).pcn = s.pcn := rfl
@[simp] theorem modTieLink_tim (k : Nat) (f : TieLinkSt → TieLinkSt) (s : State) : (modTieLink k f s).tim = s.tim := rfl
@[simp] theorem modTieLink_pwr (k : Nat) (f : TieLinkSt → TieLinkSt) (s : State) : (modTieLink k f s).pwr = s.pwr := rfl
@[simp] theorem modTieLink_start (k : Nat) (f : TieLinkSt → TieLinkSt) (s : State) : (modTieLink k f s).start = s.start := rfl
@[simp] theorem modTieLink_lanes (k : Nat) (f : TieLinkSt → TieLinkSt) (s : State) : (modTieLink k f s).lanes = s.lanes := rfl
@[simp] theorem modTieLink_l2 (k : Nat) (f : TieLinkSt → TieLinkSt) (s : State) : (modTieLink k f s).l2 = s.l2 := rfl
@[simp] theorem modTieLink_lpm (k : Nat) (f : TieLinkSt → TieLinkSt) (s : State) : (modTieLink k f s).lpm = s.lpm := rfl
@[simp] theorem modTieLink_frames (k : Nat) (f : TieLinkSt → TieLinkSt) (s : State) : (modTieLink k f s).frames = s.frames := rfl
@[simp] theorem modTieLink_nextFrame (k : Nat) (f : TieLinkSt → TieLinkSt) (s : State) : (modTieLink k f s).nextFrame = s.nextFrame := rfl
@[simp] theorem modTieLink_rx (k : Nat) (f : TieLinkSt → TieLinkSt) (s : State) : (modTieLink k f s).rx = s.rx := rfl
@[simp] theorem modTieLink_ver (k : Nat) (f : TieLinkSt → TieLinkSt) (s : State) : (modTieLink k f s).ver = s.ver := rfl
@[simp] theorem modTieLink_pools (k : Nat) (f : TieLinkSt → TieLinkSt) (s : State) : (modTieLink k f s).pools = s.pools := rfl
@[simp] theorem modTieLink_sw (k : Nat) (f : TieLinkSt → TieLinkSt) (s : State) : (modTieLink k f s).sw = s.sw := rfl
@[simp] theorem modTieLink_egr (k : Nat) (f : TieLinkSt → TieLinkSt) (s : State) : (modTieLink k f s).egr = s.egr := rfl
@[simp] theorem modTieLink_flow (k : Nat) (f : TieLinkSt → TieLinkSt) (s : State) : (modTieLink k f s).flow = s.flow := rfl
@[simp] theorem modTieLink_dsp (k : Nat) (f : TieLinkSt → TieLinkSt) (s : State) : (modTieLink k f s).dsp = s.dsp := rfl
@[simp] theorem modTieLink_fen (k : Nat) (f : TieLinkSt → TieLinkSt) (s : State) : (modTieLink k f s).fen = s.fen := rfl
@[simp] theorem modTieLink_bq (k : Nat) (f : TieLinkSt → TieLinkSt) (s : State) : (modTieLink k f s).bq = s.bq := rfl
@[simp] theorem modTieLink_fw (k : Nat) (f : TieLinkSt → TieLinkSt) (s : State) : (modTieLink k f s).fw = s.fw := rfl
@[simp] theorem modTieLink_recov (k : Nat) (f : TieLinkSt → TieLinkSt) (s : State) : (modTieLink k f s).recov = s.recov := rfl
@[simp] theorem modTieLink_io (k : Nat) (f : TieLinkSt → TieLinkSt) (s : State) : (modTieLink k f s).io = s.io := rfl
@[simp] theorem modTieLink_out (k : Nat) (f : TieLinkSt → TieLinkSt) (s : State) : (modTieLink k f s).out = s.out := rfl

@[simp] theorem putTrig_pending (k : Nat) (x : Trig) (s : State) : (putTrig k x s).pending = s.pending := rfl
@[simp] theorem putTrig_variant (k : Nat) (x : Trig) (s : State) : (putTrig k x s).variant = s.variant := rfl
@[simp] theorem putTrig_fab (k : Nat) (x : Trig) (s : State) : (putTrig k x s).fab = s.fab := rfl
@[simp] theorem putTrig_evt (k : Nat) (x : Trig) (s : State) : (putTrig k x s).evt = s.evt := rfl
@[simp] theorem putTrig_tmk (k : Nat) (x : Trig) (s : State) : (putTrig k x s).tmk = s.tmk := rfl
@[simp] theorem putTrig_pcn (k : Nat) (x : Trig) (s : State) : (putTrig k x s).pcn = s.pcn := rfl
@[simp] theorem putTrig_pwr (k : Nat) (x : Trig) (s : State) : (putTrig k x s).pwr = s.pwr := rfl
@[simp] theorem putTrig_start (k : Nat) (x : Trig) (s : State) : (putTrig k x s).start = s.start := rfl
@[simp] theorem putTrig_lanes (k : Nat) (x : Trig) (s : State) : (putTrig k x s).lanes = s.lanes := rfl
@[simp] theorem putTrig_l2 (k : Nat) (x : Trig) (s : State) : (putTrig k x s).l2 = s.l2 := rfl
@[simp] theorem putTrig_lpm (k : Nat) (x : Trig) (s : State) : (putTrig k x s).lpm = s.lpm := rfl
@[simp] theorem putTrig_frames (k : Nat) (x : Trig) (s : State) : (putTrig k x s).frames = s.frames := rfl
@[simp] theorem putTrig_nextFrame (k : Nat) (x : Trig) (s : State) : (putTrig k x s).nextFrame = s.nextFrame := rfl
@[simp] theorem putTrig_rx (k : Nat) (x : Trig) (s : State) : (putTrig k x s).rx = s.rx := rfl
@[simp] theorem putTrig_ver (k : Nat) (x : Trig) (s : State) : (putTrig k x s).ver = s.ver := rfl
@[simp] theorem putTrig_pools (k : Nat) (x : Trig) (s : State) : (putTrig k x s).pools = s.pools := rfl
@[simp] theorem putTrig_sw (k : Nat) (x : Trig) (s : State) : (putTrig k x s).sw = s.sw := rfl
@[simp] theorem putTrig_egr (k : Nat) (x : Trig) (s : State) : (putTrig k x s).egr = s.egr := rfl
@[simp] theorem putTrig_flow (k : Nat) (x : Trig) (s : State) : (putTrig k x s).flow = s.flow := rfl
@[simp] theorem putTrig_dsp (k : Nat) (x : Trig) (s : State) : (putTrig k x s).dsp = s.dsp := rfl
@[simp] theorem putTrig_fen (k : Nat) (x : Trig) (s : State) : (putTrig k x s).fen = s.fen := rfl
@[simp] theorem putTrig_bq (k : Nat) (x : Trig) (s : State) : (putTrig k x s).bq = s.bq := rfl
@[simp] theorem putTrig_mesh (k : Nat) (x : Trig) (s : State) : (putTrig k x s).mesh = s.mesh := rfl
@[simp] theorem putTrig_fw (k : Nat) (x : Trig) (s : State) : (putTrig k x s).fw = s.fw := rfl
@[simp] theorem putTrig_recov (k : Nat) (x : Trig) (s : State) : (putTrig k x s).recov = s.recov := rfl
@[simp] theorem putTrig_io (k : Nat) (x : Trig) (s : State) : (putTrig k x s).io = s.io := rfl
@[simp] theorem putTrig_out (k : Nat) (x : Trig) (s : State) : (putTrig k x s).out = s.out := rfl

@[simp] theorem putCapt_pending (k : Nat) (x : Capt) (s : State) : (putCapt k x s).pending = s.pending := rfl
@[simp] theorem putCapt_variant (k : Nat) (x : Capt) (s : State) : (putCapt k x s).variant = s.variant := rfl
@[simp] theorem putCapt_fab (k : Nat) (x : Capt) (s : State) : (putCapt k x s).fab = s.fab := rfl
@[simp] theorem putCapt_evt (k : Nat) (x : Capt) (s : State) : (putCapt k x s).evt = s.evt := rfl
@[simp] theorem putCapt_tmk (k : Nat) (x : Capt) (s : State) : (putCapt k x s).tmk = s.tmk := rfl
@[simp] theorem putCapt_pcn (k : Nat) (x : Capt) (s : State) : (putCapt k x s).pcn = s.pcn := rfl
@[simp] theorem putCapt_pwr (k : Nat) (x : Capt) (s : State) : (putCapt k x s).pwr = s.pwr := rfl
@[simp] theorem putCapt_start (k : Nat) (x : Capt) (s : State) : (putCapt k x s).start = s.start := rfl
@[simp] theorem putCapt_lanes (k : Nat) (x : Capt) (s : State) : (putCapt k x s).lanes = s.lanes := rfl
@[simp] theorem putCapt_l2 (k : Nat) (x : Capt) (s : State) : (putCapt k x s).l2 = s.l2 := rfl
@[simp] theorem putCapt_lpm (k : Nat) (x : Capt) (s : State) : (putCapt k x s).lpm = s.lpm := rfl
@[simp] theorem putCapt_frames (k : Nat) (x : Capt) (s : State) : (putCapt k x s).frames = s.frames := rfl
@[simp] theorem putCapt_nextFrame (k : Nat) (x : Capt) (s : State) : (putCapt k x s).nextFrame = s.nextFrame := rfl
@[simp] theorem putCapt_rx (k : Nat) (x : Capt) (s : State) : (putCapt k x s).rx = s.rx := rfl
@[simp] theorem putCapt_ver (k : Nat) (x : Capt) (s : State) : (putCapt k x s).ver = s.ver := rfl
@[simp] theorem putCapt_pools (k : Nat) (x : Capt) (s : State) : (putCapt k x s).pools = s.pools := rfl
@[simp] theorem putCapt_sw (k : Nat) (x : Capt) (s : State) : (putCapt k x s).sw = s.sw := rfl
@[simp] theorem putCapt_egr (k : Nat) (x : Capt) (s : State) : (putCapt k x s).egr = s.egr := rfl
@[simp] theorem putCapt_flow (k : Nat) (x : Capt) (s : State) : (putCapt k x s).flow = s.flow := rfl
@[simp] theorem putCapt_dsp (k : Nat) (x : Capt) (s : State) : (putCapt k x s).dsp = s.dsp := rfl
@[simp] theorem putCapt_fen (k : Nat) (x : Capt) (s : State) : (putCapt k x s).fen = s.fen := rfl
@[simp] theorem putCapt_bq (k : Nat) (x : Capt) (s : State) : (putCapt k x s).bq = s.bq := rfl
@[simp] theorem putCapt_mesh (k : Nat) (x : Capt) (s : State) : (putCapt k x s).mesh = s.mesh := rfl
@[simp] theorem putCapt_fw (k : Nat) (x : Capt) (s : State) : (putCapt k x s).fw = s.fw := rfl
@[simp] theorem putCapt_recov (k : Nat) (x : Capt) (s : State) : (putCapt k x s).recov = s.recov := rfl
@[simp] theorem putCapt_io (k : Nat) (x : Capt) (s : State) : (putCapt k x s).io = s.io := rfl
@[simp] theorem putCapt_out (k : Nat) (x : Capt) (s : State) : (putCapt k x s).out = s.out := rfl

@[simp] theorem putTxFifo_pending (c : Nat) (l : List TxTs) (s : State) : (putTxFifo c l s).pending = s.pending := rfl
@[simp] theorem putTxFifo_variant (c : Nat) (l : List TxTs) (s : State) : (putTxFifo c l s).variant = s.variant := rfl
@[simp] theorem putTxFifo_fab (c : Nat) (l : List TxTs) (s : State) : (putTxFifo c l s).fab = s.fab := rfl
@[simp] theorem putTxFifo_evt (c : Nat) (l : List TxTs) (s : State) : (putTxFifo c l s).evt = s.evt := rfl
@[simp] theorem putTxFifo_tmk (c : Nat) (l : List TxTs) (s : State) : (putTxFifo c l s).tmk = s.tmk := rfl
@[simp] theorem putTxFifo_pcn (c : Nat) (l : List TxTs) (s : State) : (putTxFifo c l s).pcn = s.pcn := rfl
@[simp] theorem putTxFifo_pwr (c : Nat) (l : List TxTs) (s : State) : (putTxFifo c l s).pwr = s.pwr := rfl
@[simp] theorem putTxFifo_start (c : Nat) (l : List TxTs) (s : State) : (putTxFifo c l s).start = s.start := rfl
@[simp] theorem putTxFifo_lanes (c : Nat) (l : List TxTs) (s : State) : (putTxFifo c l s).lanes = s.lanes := rfl
@[simp] theorem putTxFifo_l2 (c : Nat) (l : List TxTs) (s : State) : (putTxFifo c l s).l2 = s.l2 := rfl
@[simp] theorem putTxFifo_lpm (c : Nat) (l : List TxTs) (s : State) : (putTxFifo c l s).lpm = s.lpm := rfl
@[simp] theorem putTxFifo_frames (c : Nat) (l : List TxTs) (s : State) : (putTxFifo c l s).frames = s.frames := rfl
@[simp] theorem putTxFifo_nextFrame (c : Nat) (l : List TxTs) (s : State) : (putTxFifo c l s).nextFrame = s.nextFrame := rfl
@[simp] theorem putTxFifo_rx (c : Nat) (l : List TxTs) (s : State) : (putTxFifo c l s).rx = s.rx := rfl
@[simp] theorem putTxFifo_ver (c : Nat) (l : List TxTs) (s : State) : (putTxFifo c l s).ver = s.ver := rfl
@[simp] theorem putTxFifo_pools (c : Nat) (l : List TxTs) (s : State) : (putTxFifo c l s).pools = s.pools := rfl
@[simp] theorem putTxFifo_sw (c : Nat) (l : List TxTs) (s : State) : (putTxFifo c l s).sw = s.sw := rfl
@[simp] theorem putTxFifo_egr (c : Nat) (l : List TxTs) (s : State) : (putTxFifo c l s).egr = s.egr := rfl
@[simp] theorem putTxFifo_flow (c : Nat) (l : List TxTs) (s : State) : (putTxFifo c l s).flow = s.flow := rfl
@[simp] theorem putTxFifo_dsp (c : Nat) (l : List TxTs) (s : State) : (putTxFifo c l s).dsp = s.dsp := rfl
@[simp] theorem putTxFifo_fen (c : Nat) (l : List TxTs) (s : State) : (putTxFifo c l s).fen = s.fen := rfl
@[simp] theorem putTxFifo_bq (c : Nat) (l : List TxTs) (s : State) : (putTxFifo c l s).bq = s.bq := rfl
@[simp] theorem putTxFifo_mesh (c : Nat) (l : List TxTs) (s : State) : (putTxFifo c l s).mesh = s.mesh := rfl
@[simp] theorem putTxFifo_fw (c : Nat) (l : List TxTs) (s : State) : (putTxFifo c l s).fw = s.fw := rfl
@[simp] theorem putTxFifo_recov (c : Nat) (l : List TxTs) (s : State) : (putTxFifo c l s).recov = s.recov := rfl
@[simp] theorem putTxFifo_io (c : Nat) (l : List TxTs) (s : State) : (putTxFifo c l s).io = s.io := rfl
@[simp] theorem putTxFifo_out (c : Nat) (l : List TxTs) (s : State) : (putTxFifo c l s).out = s.out := rfl

@[simp] theorem putFrame_pending (i : Nat) (f : Frame) (s : State) : (putFrame i f s).pending = s.pending := rfl
@[simp] theorem putFrame_variant (i : Nat) (f : Frame) (s : State) : (putFrame i f s).variant = s.variant := rfl
@[simp] theorem putFrame_fab (i : Nat) (f : Frame) (s : State) : (putFrame i f s).fab = s.fab := rfl
@[simp] theorem putFrame_evt (i : Nat) (f : Frame) (s : State) : (putFrame i f s).evt = s.evt := rfl
@[simp] theorem putFrame_tmk (i : Nat) (f : Frame) (s : State) : (putFrame i f s).tmk = s.tmk := rfl
@[simp] theorem putFrame_pcn (i : Nat) (f : Frame) (s : State) : (putFrame i f s).pcn = s.pcn := rfl
@[simp] theorem putFrame_tim (i : Nat) (f : Frame) (s : State) : (putFrame i f s).tim = s.tim := rfl
@[simp] theorem putFrame_pwr (i : Nat) (f : Frame) (s : State) : (putFrame i f s).pwr = s.pwr := rfl
@[simp] theorem putFrame_start (i : Nat) (f : Frame) (s : State) : (putFrame i f s).start = s.start := rfl
@[simp] theorem putFrame_lanes (i : Nat) (f : Frame) (s : State) : (putFrame i f s).lanes = s.lanes := rfl
@[simp] theorem putFrame_l2 (i : Nat) (f : Frame) (s : State) : (putFrame i f s).l2 = s.l2 := rfl
@[simp] theorem putFrame_lpm (i : Nat) (f : Frame) (s : State) : (putFrame i f s).lpm = s.lpm := rfl
@[simp] theorem putFrame_nextFrame (i : Nat) (f : Frame) (s : State) : (putFrame i f s).nextFrame = s.nextFrame := rfl
@[simp] theorem putFrame_rx (i : Nat) (f : Frame) (s : State) : (putFrame i f s).rx = s.rx := rfl
@[simp] theorem putFrame_ver (i : Nat) (f : Frame) (s : State) : (putFrame i f s).ver = s.ver := rfl
@[simp] theorem putFrame_pools (i : Nat) (f : Frame) (s : State) : (putFrame i f s).pools = s.pools := rfl
@[simp] theorem putFrame_sw (i : Nat) (f : Frame) (s : State) : (putFrame i f s).sw = s.sw := rfl
@[simp] theorem putFrame_egr (i : Nat) (f : Frame) (s : State) : (putFrame i f s).egr = s.egr := rfl
@[simp] theorem putFrame_flow (i : Nat) (f : Frame) (s : State) : (putFrame i f s).flow = s.flow := rfl
@[simp] theorem putFrame_dsp (i : Nat) (f : Frame) (s : State) : (putFrame i f s).dsp = s.dsp := rfl
@[simp] theorem putFrame_fen (i : Nat) (f : Frame) (s : State) : (putFrame i f s).fen = s.fen := rfl
@[simp] theorem putFrame_bq (i : Nat) (f : Frame) (s : State) : (putFrame i f s).bq = s.bq := rfl
@[simp] theorem putFrame_mesh (i : Nat) (f : Frame) (s : State) : (putFrame i f s).mesh = s.mesh := rfl
@[simp] theorem putFrame_fw (i : Nat) (f : Frame) (s : State) : (putFrame i f s).fw = s.fw := rfl
@[simp] theorem putFrame_recov (i : Nat) (f : Frame) (s : State) : (putFrame i f s).recov = s.recov := rfl
@[simp] theorem putFrame_io (i : Nat) (f : Frame) (s : State) : (putFrame i f s).io = s.io := rfl
@[simp] theorem putFrame_out (i : Nat) (f : Frame) (s : State) : (putFrame i f s).out = s.out := rfl

@[simp] theorem modFrame_pending (i : Nat) (g : Frame → Frame) (s : State) : (modFrame i g s).pending = s.pending := rfl
@[simp] theorem modFrame_variant (i : Nat) (g : Frame → Frame) (s : State) : (modFrame i g s).variant = s.variant := rfl
@[simp] theorem modFrame_fab (i : Nat) (g : Frame → Frame) (s : State) : (modFrame i g s).fab = s.fab := rfl
@[simp] theorem modFrame_evt (i : Nat) (g : Frame → Frame) (s : State) : (modFrame i g s).evt = s.evt := rfl
@[simp] theorem modFrame_tmk (i : Nat) (g : Frame → Frame) (s : State) : (modFrame i g s).tmk = s.tmk := rfl
@[simp] theorem modFrame_pcn (i : Nat) (g : Frame → Frame) (s : State) : (modFrame i g s).pcn = s.pcn := rfl
@[simp] theorem modFrame_tim (i : Nat) (g : Frame → Frame) (s : State) : (modFrame i g s).tim = s.tim := rfl
@[simp] theorem modFrame_pwr (i : Nat) (g : Frame → Frame) (s : State) : (modFrame i g s).pwr = s.pwr := rfl
@[simp] theorem modFrame_start (i : Nat) (g : Frame → Frame) (s : State) : (modFrame i g s).start = s.start := rfl
@[simp] theorem modFrame_lanes (i : Nat) (g : Frame → Frame) (s : State) : (modFrame i g s).lanes = s.lanes := rfl
@[simp] theorem modFrame_l2 (i : Nat) (g : Frame → Frame) (s : State) : (modFrame i g s).l2 = s.l2 := rfl
@[simp] theorem modFrame_lpm (i : Nat) (g : Frame → Frame) (s : State) : (modFrame i g s).lpm = s.lpm := rfl
@[simp] theorem modFrame_nextFrame (i : Nat) (g : Frame → Frame) (s : State) : (modFrame i g s).nextFrame = s.nextFrame := rfl
@[simp] theorem modFrame_rx (i : Nat) (g : Frame → Frame) (s : State) : (modFrame i g s).rx = s.rx := rfl
@[simp] theorem modFrame_ver (i : Nat) (g : Frame → Frame) (s : State) : (modFrame i g s).ver = s.ver := rfl
@[simp] theorem modFrame_pools (i : Nat) (g : Frame → Frame) (s : State) : (modFrame i g s).pools = s.pools := rfl
@[simp] theorem modFrame_sw (i : Nat) (g : Frame → Frame) (s : State) : (modFrame i g s).sw = s.sw := rfl
@[simp] theorem modFrame_egr (i : Nat) (g : Frame → Frame) (s : State) : (modFrame i g s).egr = s.egr := rfl
@[simp] theorem modFrame_flow (i : Nat) (g : Frame → Frame) (s : State) : (modFrame i g s).flow = s.flow := rfl
@[simp] theorem modFrame_dsp (i : Nat) (g : Frame → Frame) (s : State) : (modFrame i g s).dsp = s.dsp := rfl
@[simp] theorem modFrame_fen (i : Nat) (g : Frame → Frame) (s : State) : (modFrame i g s).fen = s.fen := rfl
@[simp] theorem modFrame_bq (i : Nat) (g : Frame → Frame) (s : State) : (modFrame i g s).bq = s.bq := rfl
@[simp] theorem modFrame_mesh (i : Nat) (g : Frame → Frame) (s : State) : (modFrame i g s).mesh = s.mesh := rfl
@[simp] theorem modFrame_fw (i : Nat) (g : Frame → Frame) (s : State) : (modFrame i g s).fw = s.fw := rfl
@[simp] theorem modFrame_recov (i : Nat) (g : Frame → Frame) (s : State) : (modFrame i g s).recov = s.recov := rfl
@[simp] theorem modFrame_io (i : Nat) (g : Frame → Frame) (s : State) : (modFrame i g s).io = s.io := rfl
@[simp] theorem modFrame_out (i : Nat) (g : Frame → Frame) (s : State) : (modFrame i g s).out = s.out := rfl

@[simp] theorem putRx_pending (p : Nat) (r : RxPort) (s : State) : (putRx p r s).pending = s.pending := rfl
@[simp] theorem putRx_variant (p : Nat) (r : RxPort) (s : State) : (putRx p r s).variant = s.variant := rfl
@[simp] theorem putRx_fab (p : Nat) (r : RxPort) (s : State) : (putRx p r s).fab = s.fab := rfl
@[simp] theorem putRx_evt (p : Nat) (r : RxPort) (s : State) : (putRx p r s).evt = s.evt := rfl
@[simp] theorem putRx_tmk (p : Nat) (r : RxPort) (s : State) : (putRx p r s).tmk = s.tmk := rfl
@[simp] theorem putRx_pcn (p : Nat) (r : RxPort) (s : State) : (putRx p r s).pcn = s.pcn := rfl
@[simp] theorem putRx_tim (p : Nat) (r : RxPort) (s : State) : (putRx p r s).tim = s.tim := rfl
@[simp] theorem putRx_pwr (p : Nat) (r : RxPort) (s : State) : (putRx p r s).pwr = s.pwr := rfl
@[simp] theorem putRx_start (p : Nat) (r : RxPort) (s : State) : (putRx p r s).start = s.start := rfl
@[simp] theorem putRx_lanes (p : Nat) (r : RxPort) (s : State) : (putRx p r s).lanes = s.lanes := rfl
@[simp] theorem putRx_l2 (p : Nat) (r : RxPort) (s : State) : (putRx p r s).l2 = s.l2 := rfl
@[simp] theorem putRx_lpm (p : Nat) (r : RxPort) (s : State) : (putRx p r s).lpm = s.lpm := rfl
@[simp] theorem putRx_frames (p : Nat) (r : RxPort) (s : State) : (putRx p r s).frames = s.frames := rfl
@[simp] theorem putRx_nextFrame (p : Nat) (r : RxPort) (s : State) : (putRx p r s).nextFrame = s.nextFrame := rfl
@[simp] theorem putRx_ver (p : Nat) (r : RxPort) (s : State) : (putRx p r s).ver = s.ver := rfl
@[simp] theorem putRx_pools (p : Nat) (r : RxPort) (s : State) : (putRx p r s).pools = s.pools := rfl
@[simp] theorem putRx_sw (p : Nat) (r : RxPort) (s : State) : (putRx p r s).sw = s.sw := rfl
@[simp] theorem putRx_egr (p : Nat) (r : RxPort) (s : State) : (putRx p r s).egr = s.egr := rfl
@[simp] theorem putRx_flow (p : Nat) (r : RxPort) (s : State) : (putRx p r s).flow = s.flow := rfl
@[simp] theorem putRx_dsp (p : Nat) (r : RxPort) (s : State) : (putRx p r s).dsp = s.dsp := rfl
@[simp] theorem putRx_fen (p : Nat) (r : RxPort) (s : State) : (putRx p r s).fen = s.fen := rfl
@[simp] theorem putRx_bq (p : Nat) (r : RxPort) (s : State) : (putRx p r s).bq = s.bq := rfl
@[simp] theorem putRx_mesh (p : Nat) (r : RxPort) (s : State) : (putRx p r s).mesh = s.mesh := rfl
@[simp] theorem putRx_fw (p : Nat) (r : RxPort) (s : State) : (putRx p r s).fw = s.fw := rfl
@[simp] theorem putRx_recov (p : Nat) (r : RxPort) (s : State) : (putRx p r s).recov = s.recov := rfl
@[simp] theorem putRx_io (p : Nat) (r : RxPort) (s : State) : (putRx p r s).io = s.io := rfl
@[simp] theorem putRx_out (p : Nat) (r : RxPort) (s : State) : (putRx p r s).out = s.out := rfl

@[simp] theorem putCache_pending (l : List Line) (s : State) : (putCache l s).pending = s.pending := rfl
@[simp] theorem putCache_variant (l : List Line) (s : State) : (putCache l s).variant = s.variant := rfl
@[simp] theorem putCache_fab (l : List Line) (s : State) : (putCache l s).fab = s.fab := rfl
@[simp] theorem putCache_evt (l : List Line) (s : State) : (putCache l s).evt = s.evt := rfl
@[simp] theorem putCache_tmk (l : List Line) (s : State) : (putCache l s).tmk = s.tmk := rfl
@[simp] theorem putCache_pcn (l : List Line) (s : State) : (putCache l s).pcn = s.pcn := rfl
@[simp] theorem putCache_tim (l : List Line) (s : State) : (putCache l s).tim = s.tim := rfl
@[simp] theorem putCache_pwr (l : List Line) (s : State) : (putCache l s).pwr = s.pwr := rfl
@[simp] theorem putCache_start (l : List Line) (s : State) : (putCache l s).start = s.start := rfl
@[simp] theorem putCache_lanes (l : List Line) (s : State) : (putCache l s).lanes = s.lanes := rfl
@[simp] theorem putCache_l2 (l : List Line) (s : State) : (putCache l s).l2 = s.l2 := rfl
@[simp] theorem putCache_lpm (l : List Line) (s : State) : (putCache l s).lpm = s.lpm := rfl
@[simp] theorem putCache_frames (l : List Line) (s : State) : (putCache l s).frames = s.frames := rfl
@[simp] theorem putCache_nextFrame (l : List Line) (s : State) : (putCache l s).nextFrame = s.nextFrame := rfl
@[simp] theorem putCache_rx (l : List Line) (s : State) : (putCache l s).rx = s.rx := rfl
@[simp] theorem putCache_ver (l : List Line) (s : State) : (putCache l s).ver = s.ver := rfl
@[simp] theorem putCache_pools (l : List Line) (s : State) : (putCache l s).pools = s.pools := rfl
@[simp] theorem putCache_sw (l : List Line) (s : State) : (putCache l s).sw = s.sw := rfl
@[simp] theorem putCache_egr (l : List Line) (s : State) : (putCache l s).egr = s.egr := rfl
@[simp] theorem putCache_dsp (l : List Line) (s : State) : (putCache l s).dsp = s.dsp := rfl
@[simp] theorem putCache_fen (l : List Line) (s : State) : (putCache l s).fen = s.fen := rfl
@[simp] theorem putCache_bq (l : List Line) (s : State) : (putCache l s).bq = s.bq := rfl
@[simp] theorem putCache_mesh (l : List Line) (s : State) : (putCache l s).mesh = s.mesh := rfl
@[simp] theorem putCache_fw (l : List Line) (s : State) : (putCache l s).fw = s.fw := rfl
@[simp] theorem putCache_recov (l : List Line) (s : State) : (putCache l s).recov = s.recov := rfl
@[simp] theorem putCache_io (l : List Line) (s : State) : (putCache l s).io = s.io := rfl
@[simp] theorem putCache_out (l : List Line) (s : State) : (putCache l s).out = s.out := rfl

end Sys2Proof.Machine
end

