-- ==== Sys2Proof/Machine/Pins.lean ====
section
/-! DEFINITION. The levels that the device itself puts on its signal balls (R46, R60, R98). Between two commands every bus of the model is
idle: a transfer is the effect of one command. -/

namespace Sys2Proof.Machine

/-- What the device does at a ball. -/
inductive Level where
  | low | high | highZ | input | released | electricalIdle
  /-- A differential pair with P low and N high. -/
  | pairLow
  /-- A clock of so many hertz. -/
  | clock (hz : Nat)
  deriving DecidableEq, Repr

/-- The signal balls that the device drives or may drive (R46), I²C by bus and by clock or data. -/
inductive Ball where
  | qspiSck | qspiCsN | qspiIo (i : Fin 4) | i2cScl (bus : Fin 2) | i2cSda (bus : Fin 2) | mdc | mdio | uartTxd | tdo
  | eventN | avsClk | avsMdata | ppsOut | trigOut (k : Fin 8) | synceClk (k : Fin 2) | gpio (i : Fin 32) | pcieTx (i : Fin 8)
  deriving DecidableEq, Repr

/-- A driven level. -/
def driven (b : Bool) : Level := if b then .high else .low

/-- What SYNCE_CLKk carries (R477): both legs at high impedance until TIM has run (R46, R98: DEDUCED, assumption log 130); P low and N high while
squelched; else the recovered clock, divided to 156.25 MHz and by 2^div. -/
def synceLevel (k : Nat) (s : State) : Level :=
  if !s.tim.synceUp then .highZ
  else if sget (fun _ => true) s.tim.squelched k then .pairLow
  else .clock (156250000 / 2 ^ cfX timSynceCfg_div k 0 s)

/-- The level of a ball once the rails are good and reset has been released (R46). The PCI Express transmitters have
the state of R46, since no command trains the link (DESIGN CHOICE, assumption log 122). -/
def drivenLevel (b : Ball) (s : State) : Level :=
  match b with
  | .qspiSck | .mdc | .avsClk => .low
  | .qspiCsN | .uartTxd | .avsMdata => .high
  | .qspiIo _ | .mdio => .input
  | .i2cScl _ | .i2cSda _ => .released
  | .tdo => .highZ
  | .eventN => (if s.evt.eventN then .low else .released)
  | .ppsOut => (driven (ppsLevel s))
  | .trigOut k => (driven (trigOut k s))
  | .synceClk k => synceLevel k s
  | .gpio i => (if (reg 0x3D080 0 s).toNat.testBit i then driven ((reg 0x3D084 0 s).toNat.testBit i) else .input)
  | .pcieTx _ => .electricalIdle

/-- The level of a ball: high impedance from the first rail rising until reset is released, and while RESET_N is low (R46, R60, R66);
PCI Express transmitters are in electrical idle then. -/
def pinLevel (b : Ball) (s : State) : Level :=
  if s.pwr.hold = .none then drivenLevel b s
  else match b with
    | .pcieTx _ => .electricalIdle
    | _ => .highZ

end Sys2Proof.Machine
end

