-- ==== Sys2Proof/Tests/Slice0.lean ====
section
/-! SUPPORT. Tests: ill-formed commands are refused by the check, worked examples of the spec, single commands on small states, and a
witness for the hypotheses of each statement. Expected values are the spec's or computed from it by hand. -/

namespace Sys2Proof.Tests

open Sys2Proof.Machine

/-! ### Ill-formed commands -/

/-- A capability message with every field 0. -/
def noCap : TieCap := { part := 0, revision := 0, deviceId := 0, strapRole := 0, liveRole := 0, link := 0, meshId := 0, epoch := 0, credits := 0 }
/-- A heartbeat with every field 0. -/
def noHeartbeat : Heartbeat :=
  { role := 0, epoch := 0, members := 0, absent := 0, lost := 0, managerSeen := false, current := 0, draining := false, idle := false, ack := 0 }

theorem test_ill_formed_1 : ([
    .registerWrite .h 2 15 true 0,
    .registerWrite .h 0x40000 0 false 0,
    .counterSnapshotRead .h 0,
    .counterClear .h 0 0,
    .preconditionMet ⟨.prs, some 256⟩,
    .preconditionLost ⟨.prs, some 256⟩,
    .startComplete ⟨.prs, some 256⟩ false,
    .startBoundExceeded ⟨.prs, some 256⟩,
    .drainComplete ⟨.prs, some 256⟩,
    .drainForced ⟨.prs, some 256⟩,
    .unrecoverableError ⟨.prs, some 256⟩,
    .evtForceWrite .h .sys (causeCount .sys) 0,
    .causeClear .h 0 0] : List Instr).all (fun i => !i.wf) = true := by decide

theorem test_ill_formed_2 : ([
    .limitWindowEnd 1536,
    .autoMaskQuietExpire 1536,
    .autoMaskWrite .h 48 0,
    .msixUnmask (.vector 64),
    .railGood 8 false,
    .railFail 8,
    .refclkLaneLost 4,
    .refclkLaneRestored 4,
    .paceMeasure [],
    .paceLowClear .h 16 0,
    .anPageReceived 288 0 false,
    .anNoHcdRestart 288,
    .trainingComplete 288 [] false] : List Instr).all (fun i => !i.wf) = true := by decide

theorem test_ill_formed_3 : ([
    .trainingTimeout 288,
    .adaptComplete 288 [],
    .signalPresent 288,
    .signalLost 288,
    .sdGlitch 288,
    .holddownExpire 288,
    .tieDetectWait 288,
    .commaLock 288 0 ⟨0, ⟨0, 0, 0, 0, 0⟩⟩,
    .commaError 288,
    .commaLockLost 288,
    .commaRelockTimeout 288,
    .backgroundAdapt 288 .keep .keep 0,
    .adaptLimit 288] : List Instr).all (fun i => !i.wf) = true := by decide

theorem test_ill_formed_4 : ([
    .snrLow 288,
    .calVisit 4 false,
    .txEqStep 288,
    .patLock 288,
    .patLockLost 288,
    .patWrap 288 0 0,
    .eyeDone 288 0 0,
    .fecCodewordDecode 256 ⟨0, 0⟩,
    .pcsFault 256 .hiBer,
    .pcsFaultPersist 256,
    .linkUpTimer 256 0 0,
    .remoteFaultReceived 256,
    .flapWindowEnd 256] : List Instr).all (fun i => !i.wf) = true := by decide

theorem test_ill_formed_5 : ([
    .penaltyEnd 256,
    .frameArrival 256 0 [] 0 false,
    .frameTailArrival 256 [] .good,
    .parseFrame 256,
    .dispatchRound 32,
    .itemAgeExpire 32 0,
    .flowLookupDone 32 0 .none,
    .cacheSetUnlock 32 0,
    .itemStart 512,
    .microwordExecute 512,
    .extResult 512 0,
    .extResult 0 32,
    .itemEnd 512] : List Instr).all (fun i => !i.wf) = true := by decide

theorem test_ill_formed_6 : ([
    .machineCheck 512 0,
    .wordReloadDone 32 0 0,
    .wordReloadDone 0 2 0,
    .wordReloadDone 0 0 8192,
    .clusterReturn 32,
    .goldenCompare 32 none,
    .goldenDigestCheck 32 0 false,
    .goldenDigestCheck 0 2 false,
    .bankLoadDone 32,
    .bankDrainComplete 32,
    .fenceTargetReady 4096,
    .fenceDrained 4096,
    .fenceOverrun 4096] : List Instr).all (fun i => !i.wf) = true := by decide

theorem test_ill_formed_7 : ([
    .classWaitClear .h 8 0,
    .creditReturn 267,
    .voqAgeDrop 36 0 0 0,
    .voqAgeDrop 0 267 0 0,
    .voqAgeDrop 0 0 8 0,
    .egressEdit 267,
    .txFrameStart 264 0,
    .txFrameStart 0 8,
    .ctUnderrun 256,
    .txFrameEnd 264,
    .gateEntryChange 256,
    .gateTakeover 256,
    .smacHiWrite .h 16 0] : List Instr).all (fun i => !i.wf) = true := by decide

theorem test_ill_formed_8 : ([
    .statClear .h .sys 0,
    .scannerVisit ⟨2 ^ 27 + ovfTotal, false, false⟩ false,
    .retireCheck 32 0 .none,
    .retireCleanup 32 ⟨0, .none⟩,
    .cmdLookup 32 0 .none,
    .cmdReadIndex 32 0 .none,
    .cmdCreate 32 0 .none,
    .cmdDeleteKey 32 0 .none,
    .cmdDeleteIndex 32 0 .none,
    .cmdWriteState 32 0 .none,
    .cmdPin 32 0 .none,
    .cmdUnpin 32 0 .none,
    .scrubRead (.lpm 3145728) 0 .clean false] : List Instr).all (fun i => !i.wf) = true := by decide

theorem test_ill_formed_9 : ([
    .hbmRecal 4 false,
    .autoRecover ⟨.prs, some 256⟩,
    .benchEmergencyRestart 0,
    .benchEmergencyRestart 4,
    .benchQueueTokenGain 64,
    .mboxProdWrite .h 2 0 [],
    .mboxEnable .h 2 0,
    .svcUnknown 2,
    .triggerFire 8,
    .triggerPulseEnd 8,
    .captureEdge 4 false 0,
    .captStuck 4,
    .captReleased 4] : List Instr).all (fun i => !i.wf) = true := by decide

theorem test_ill_formed_10 : ([
    .tieCapSend 8,
    .tieCapability 8 noCap false,
    .tieCodewordDecode 8 [] [] [] [],
    .tieSteeredItem 8 [] [],
    .tieFrame 8 [] [],
    .stateSync 8 0 0 0 [],
    .stateSync 0 0 4096 0 [],
    .ownerChange 8 0 0 0 0 false false,
    .ownerChange 0 0 4096 0 0 false false,
    .transferDone 8 0 0,
    .transferDone 0 0 4096,
    .ownerMoveAcked 4096,
    .ownMoveTimeout 4096] : List Instr).all (fun i => !i.wf) = true := by decide

theorem test_ill_formed_11 : ([
    .ownerMoveAbort 8 0 0 0 0,
    .ownerMoveAbort 0 0 4096 0 0,
    .fwdWindowEnd 4096,
    .heartbeatReceived 8 noHeartbeat,
    .controlResend 8,
    .versionPrepare 8 0 0,
    .versionReady 8 0 0,
    .versionRefuse 8 0 0,
    .versionCommit 8 0 0 0 0,
    .versionAbort 8 0,
    .versionFreeRequest 8 0,
    .versionMarker 8 0,
    .versionConfirm 8 0] : List Instr).all (fun i => !i.wf) = true := by decide

theorem test_ill_formed_12 : ([
    .versionFree 8 0,
    .timeTransferStart 8,
    .timeTransfer 8 0 (.request 0),
    .eventForward 8 0 [],
    .codeBucketRefill 2,
    .codeBucketRefill 0x10000,
    .tempRead [],
    .gpioEdge 32 false,
    .i2cGo .h 2 0,
    .i2cDone 2 0 0,
    .i2cDone 0 3 0,
    .hbmStackTemperature 4 0] : List Instr).all (fun i => !i.wf) = true := by decide

theorem test_well_formed : ([.registerWrite .h 0x40 15 true 0, .preconditionMet ⟨.prs, some 255⟩, .linkUpTimer 255 0 0, .railGood 7 false,
    .itemStart 511, .egressEdit 266, .scannerVisit ⟨2 ^ 27, false, true⟩ true, .tempRead [0, 0, 0, 0, 0, 0, 0, 0], .i2cDone 1 0 2] : List Instr).all Instr.wf = true := by decide

/-! ### Worked examples of the spec -/

/-- R238: with age_limit 300 a station of tick 4,000 is due at tick 4,301 and not at 4,299. -/
theorem test_aging_example : l2Expired { valid := true, stamp := 4000 } { State.reset with l2 := { State.reset.l2 with tick := 205 } } = true ∧
    l2Expired { valid := true, stamp := 4000 } { State.reset with l2 := { State.reset.l2 with tick := 203 } } = false := by decide

/-- R241: 10.20.0.0/16 to next hop 500 with 10.20.48.0/20 to next hop 501 below it, in VRF 17. -/
def trie17 : State :=
  putPool 34 (8192 * 2 ^ 20 + 15 * 2 ^ 42 + 2 ^ 46) (putPool (8192 + 0x0A14) (500 + 2 ^ 19 + 100000 * 2 ^ 20 + 3 * 2 ^ 42 + 2 ^ 46)
    (putPool 100003 (501 + 2 ^ 19) State.reset))
set_option maxRecDepth 20000 in
theorem test_lpm_example : lpmLookup 17 false 0x0A143307 trie17 = (some 501, false) ∧ lpmLookup 17 false 0x0A141007 trie17 = (some 500, false) := by decide

/-- R301: the worked microword, as it stands in slices 0, 1 and 3 with parity 0xA. -/
def exampleWord : Nat := 0x8013 + 0x024000412942 * 2 ^ 48 + 0x02002061 * 2 ^ 144 + 0xA * 2 ^ 192
theorem test_microword_seq : (seqSlice exampleWord).seq = 3 ∧ (seqSlice exampleWord).cond = 1 ∧ (seqSlice exampleWord).target = 0x40 := by decide
theorem test_microword_alu : aluSlice exampleWord 1 = ⟨2, 5, 5, true, 0, 1, 1, true, 0⟩ ∧ (memSlice exampleWord).kind = 1 ∧
    (memSlice exampleWord).reg = 6 ∧ (memSlice exampleWord).addr = 0x10 ∧ (memSlice exampleWord).size = 1 := by decide
set_option maxRecDepth 20000 in
theorem test_microword_parity : badWord exampleWord = false ∧ badWord (exampleWord + 2 ^ 195) = true := by decide

/-- R581: 300 ns with shift 0 is bin 28; 1.6 ms with shift 7 is bin 50; bin 63 holds 114,688 and more. -/
theorem test_histogram_bins : histBin 0 300 = 28 ∧ histBin 7 1600000 = 50 ∧ histBin 0 114688 = 63 ∧ histBin 0 114687 = 62 := by decide

/-- R459: boundaries of a period of 208,333 1/3 ns from 1,000 s are exact at k = 3 and k = 4,800. -/
def samplingClock : State := wrC timTrigStartSecLo_value 2 1000 (wrC timTrigPeriodNs_value 2 208333 (wrC timTrigPeriodFrac_num 2 1 (wrC timTrigPeriodFrac_den 2 3 State.reset)))
set_option maxRecDepth 20000 in
theorem test_trigger_boundaries : trigBoundary 2 3 samplingClock = mkTime 1000 625000 0 ∧ trigBoundary 2 4800 samplingClock = mkTime 1001 0 0 ∧
    nsOf (trigBoundary 2 1 samplingClock) = 208333 := by decide

/-! ### Single commands on small states -/

/-- Whether an outcome is a next state that a check accepts. -/
def ends (o : Host.Outcome State Fault Refusal) (f : State → Bool) : Bool :=
  match o with
  | .next t => f t
  | .fault _ => false
  | .refused _ => false

/-- A command at the front of the queue is taken from it and run. -/
theorem test_step_takes_the_front : step { State.reset with pending := [.ppsOutFall, .flowTick] } =
    .next { State.reset with pending := [.flowTick], tim := { State.reset.tim with ppsHigh := none } } := by rfl

/-- R1: a command that names nothing the hardware has is refused by name. -/
theorem test_no_such_target : exec (.itemStart 512) State.reset = .refused .noSuchTarget := by rfl

set_option maxRecDepth 20000 in
theorem reset_hbm_in_use : hbmInUse State.reset ≤ 0x640000000 := by unfold hbmInUse; decide

/-- R516: an HBM word above the regions in use does not exist. -/
theorem test_hbm_absent : exec (.scrubRead .hbm 0x640000000 .clean false) State.reset = .fault .hbmAbsent := by
  show execScrubRead .hbm 0x640000000 .clean false State.reset = _
  unfold execScrubRead
  exact if_pos ⟨rfl, reset_hbm_in_use⟩

set_option maxRecDepth 20000 in
/-- R267: the flow tick wraps at 2²⁰. -/
theorem test_flow_tick_wraps : ends (exec .flowTick (wr fltTickNow_tick 0xFFFFF State.reset)) (fun t => rd fltTickNow_tick t == 0) = true := by decide

set_option maxRecDepth 20000 in
/-- R273: an index taken back from the chain joins the pool at its end. -/
theorem test_pool_refill :
    ends (exec .poolRefill { State.reset with flow := { State.reset.flow with pool := [(1, 1)], chain := [(7, 3), (8, 2)] } })
      (fun t => t.flow.pool == [(1, 1), (7, 3)] && t.flow.chain == [(8, 2)]) = true := by decide

set_option maxRecDepth 20000 in
/-- R465: with no servo source a write of RATE takes effect; the largest magnitude is max_ppm. -/
theorem test_rate_write : ends (exec (.rateWrite .h 1000) State.reset) (fun t => t.tim.rate == 1000) = true := by decide

set_option maxRecDepth 20000 in
/-- R463: a step by set moves the epoch on and leaves the raw count. -/
theorem test_step_set : ends (exec (.stepGo .h 3) (wrC timStepSecLo_value 0 7 State.reset))
    (fun t => decide (timeNow t = mkTime 7 0 0) && t.tim.epoch == 1 && t.tim.raw == State.reset.tim.raw) = true := by decide

set_option maxRecDepth 20000 in
/-- R247: a group whose members run past the pool is ignored; one that fits is written. -/
theorem test_ecmp_group : ends (exec (.ecmpDataWrite .h (262143 + 2 ^ 26)) State.reset) (fun t => ecmpAt 0 t == 262143 + 2 ^ 26) = true ∧
    ends (exec (.ecmpDataWrite .h (262143 + 2 ^ 18 + 2 ^ 26)) State.reset) (fun t => ecmpAt 0 t == 0 && rd evtAccessLog_valid t == 1) = true := by decide

set_option maxRecDepth 20000 in
/-- R245: a next hop to destination 265 is written, one to 266 is ignored. -/
theorem test_next_hop : ends (exec (.nhData3Write .h 0) (wrC lpmNhData2_data 0 265 State.reset)) (fun t => nhDest (nhAt 0 t) == 265) = true ∧
    ends (exec (.nhData3Write .h 0) (wrC lpmNhData2_data 0 266 State.reset)) (fun t => nhAt 0 t == 0) = true := by decide

set_option maxRecDepth 100000 in
/-- R485: the codeword of zeros with one byte wrong is corrected; with nine bytes wrong it is not. -/
theorem test_tie_codeword : rsDecode ((List.replicate 254 0).set 5 7) = some (List.replicate 238 0, 1) ∧
    (rsDecode (List.replicate 9 1 ++ List.replicate 245 0)).isNone = true := by decide +kernel

/-- R486: a message of 30 bytes leaves as two flits; the header of the second says kind 3, last, 2 bytes used. -/
theorem test_flits : (flitsOf 3 (List.replicate 30 9)).length = 2 ∧ (flitBytes ((flitsOf 3 (List.replicate 30 9)).getD 1 {})).take 6 = [0x23, 2, 0, 0, 9, 9] ∧
    flitOf [0x23, 2, 7, 0, 9, 9] = { kind := 3, last := true, fill := 2, credit := 7, payload := [9, 9] ++ List.replicate 26 0 } := by decide

/-! ### Witnesses of the statements' hypotheses -/

theorem witness_StepRunsTheCommandInFront :
    ({ State.reset with pending := [.timeRefLost, .ringWrite] } : State).pending = Instr.timeRefLost :: [.ringWrite] := by decide

theorem witness_EmptyQueueAdvancesTheRawCount : State.reset.pending = [] ∧ State.reset.pwr.hold = .none := by decide
theorem witness_EmptyQueueAdvancesTheRawCount_held :
    ({ State.reset with pwr := { State.reset.pwr with hold := .resetN } } : State).pending = [] ∧
    ({ State.reset with pwr := { State.reset.pwr with hold := .resetN } } : State).pwr.hold ≠ .none := by decide

theorem witness_WellFormedCommandsComplete_next :
    Instr.cellEpoch.wf = true ∧ ¬ ReadsAbsentHbm .cellEpoch State.reset := ⟨rfl, fun h => h⟩
theorem witness_WellFormedCommandsComplete_fault : ReadsAbsentHbm (.scrubRead .hbm (2 ^ 40) .clean false) State.reset := by
  unfold ReadsAbsentHbm; decide
theorem witness_WellFormedCommandsComplete_refused :
    (Instr.railFail 8).wf = false ∧ ¬ ReadsAbsentHbm (.railFail 8) State.reset := ⟨rfl, fun h => h⟩

theorem witness_EveryStepKeepsTheMachine :
    (match step { State.reset with pending := [.ringWrite] } with | .next _ => true | _ => false) = true ∧ Canonical State.reset := by decide

theorem witness_PlainWriteFollowsAccessCodes :
    Block.prt ∈ [Block.sys, .prt, .prs, .fch, .hbm, .fen, .tsu] ∧ prtPortCfg_maxFrame.off < 0x40000 ∧ prtPortCfg_maxFrame.off % 4 = 0
    ∧ blockOfPage (prtPortCfg_maxFrame.off / 0x1000) = some .prt ∧ blockBase .prt + 0x80 ≤ prtPortCfg_maxFrame.off
    ∧ (findReg prtPortCfg_maxFrame.off).map (fun r => reachesFused .h .prt r prtPortCfg_maxFrame.off State.reset) = some false
    ∧ pendAt .prt prtPortCfg_maxFrame.off = none ∧ clearOf prtPortCfg_maxFrame.off = none
    ∧ wrapOf prtPortCfg_maxFrame.off = none ∧ Admits .h .prt State.reset := by decide

theorem witness_UndefinedOffsetIsLoggedAndIgnored :
    reachable .h State.reset = true ∧ noRegister .h 0x3F000 State.reset = true ∧ noRegister .h 0x0C0FC State.reset = true
    ∧ reachable .b State.reset = true ∧ noRegister .b 0x3C800 State.reset = true ∧ noRegister .b 0x3CC04 State.reset = true
    ∧ noRegister .h 0x3C800 State.reset = false ∧ rd evtAccessLog_valid State.reset = 0 := by decide
theorem witness_UndefinedOffsetIsLoggedAndIgnored_full : rd evtAccessLog_valid (wr evtAccessLog_valid 1 State.reset) = 1 := by decide

theorem witness_PortCounterReadIsOneMoment :
    isFused .prt (selChan .h .prt State.reset) State.reset = false ∧ reachable .h State.reset = true ∧ Admits .h .prt State.reset := by decide

theorem witness_ChanSelSelectsOrIsRefused :
    AdmitsFree .h .prt State.reset ∧ wordField 255 0 16 < chanCount .prt ∧ chanCount .prt ≤ wordField 256 0 16 := by decide

theorem witness_OwnerLockMovesAsStated_allowed : AdmitsFree .h .prt State.reset ∧ (ownerOf .prt State.reset).owner = 0 ∧ wordField 1 0 2 = 1 := by decide
theorem witness_OwnerLockMovesAsStated_denied :
    AdmitsFree .b .prt (putOwner .prt ⟨1, 255⟩ State.reset) ∧ (ownerOf .prt (putOwner .prt ⟨1, 255⟩ State.reset)).owner = 1
    ∧ wordField 2 0 2 = 2 ∧ (ownerOf .prt (putOwner .prt ⟨1, 255⟩ State.reset)).denied ≤ 255 := by decide

theorem witness_EnableWriteMovesTheTarget : Admits .h .prt State.reset ∧ tgtFused (selTarget .h .prt State.reset) State.reset = false ∧
    wordField 1 0 1 = 1 ∧ active State.reset = false ∧ (tgt (selTarget .h .prt State.reset) State.reset).st = .off := by decide
theorem witness_EnableWriteMovesTheTarget_active : Admits .h .prt (wr cfgStartState_state 4 State.reset) ∧
    active (wr cfgStartState_state 4 State.reset) = true ∧ wordField 0 0 1 ≠ 1 ∧
    (tgt (selTarget .h .prt State.reset) (modTgt (selTarget .h .prt State.reset) (fun x => { x with st := .fault }) State.reset)).st = .fault := by decide

theorem witness_ConditionsMoveTheTarget : targetOk ⟨.prs, some 3⟩ = true ∧
    (tgt ⟨.prs, some 3⟩ (modTgt ⟨.prs, none⟩ (fun x => { x with st := .on }) (modTgt ⟨.prs, some 3⟩ (fun x => { x with st := .held }) State.reset))).st = .held ∧
    precondOk ⟨.prs, some 3⟩ (modTgt ⟨.prs, none⟩ (fun x => { x with st := .on }) (modTgt ⟨.prs, some 3⟩ (fun x => { x with st := .held }) State.reset)) = true := by decide
theorem witness_ConditionsMoveTheTarget_on :
    (tgt ⟨.prs, some 3⟩ (modTgt ⟨.prs, some 3⟩ (fun x => { x with st := .on }) State.reset)).st = .on ∧
    precondOk ⟨.prs, some 3⟩ (modTgt ⟨.prs, some 3⟩ (fun x => { x with st := .on }) State.reset) = false := by decide
theorem witness_ConditionsMoveTheTarget_starting :
    (tgt ⟨.prs, none⟩ (modTgt ⟨.prs, none⟩ (fun x => { x with st := .starting }) State.reset)).st = .starting ∧
    precondOk ⟨.prs, none⟩ (modTgt ⟨.prs, none⟩ (fun x => { x with st := .starting }) State.reset) = true := by decide

theorem witness_DrainsEndInOff_complete : targetOk ⟨.prs, some 3⟩ = true ∧
    (tgt ⟨.prs, some 3⟩ (modTgt ⟨.prs, some 3⟩ (fun x => { x with st := .draining }) State.reset)).st = .draining ∧
    resetBusy ⟨.prs, some 3⟩ (modTgt ⟨.prs, some 3⟩ (fun x => { x with st := .draining }) State.reset) = false ∧
    drainReady ⟨.prs, some 3⟩ (drainFrees ⟨.prs, some 3⟩ (modTgt ⟨.prs, some 3⟩ (fun x => { x with st := .draining }) State.reset)) = true := by decide
theorem witness_DrainsEndInOff_forced :
    (tgt ⟨.tim, none⟩ { modTgt ⟨.tim, none⟩ (fun x => { x with st := .draining }) State.reset with tim := { State.reset.tim with ppsHigh := some 5 } }).st = .draining ∧
    drainReady ⟨.tim, none⟩ { modTgt ⟨.tim, none⟩ (fun x => { x with st := .draining }) State.reset with tim := { State.reset.tim with ppsHigh := some 5 } } = false := by decide
theorem witness_DrainsEndInOff_reset : Admits .h .prs State.reset ∧ resettable .prs = true ∧ selTarget .h .prs State.reset = ⟨.prs, some 0⟩ ∧
    1 < chanCount .prs ∧ isFused .prs 0 State.reset = false ∧ wordField 0xA501 8 8 = 0xA5 ∧ wordField 0xA501 0 1 = 1 ∧
    resetBusy ⟨.prs, some 0⟩ State.reset = false ∧ (tgt ⟨.prs, some 0⟩ State.reset).st = .off := by decide

theorem witness_CommitMovesTheShadowSet_done : Admits .h .prs State.reset ∧ (commitOf .prs State.reset).status ≠ 1 ∧ blockCheck .prs State.reset = none ∧
    reachedAt (timeNow State.reset) (commitAt .prs State.reset) = true := by decide
theorem witness_CommitMovesTheShadowSet_refused : blockCheck .bnc (wr bncQueueCfg_rateK 0 State.reset) = some 2 := by decide
theorem witness_CommitMovesTheShadowSet_fire :
    (commitOf .tsu (putCommit .tsu { status := 1, armed := some (0, 0) } State.reset)).armed = some (0, 0) ∧
    reachedAt (timeNow (putCommit .tsu { status := 1, armed := some (0, 0) } State.reset)) (0, 0) = true := by decide

theorem witness_TimedCommitsArmAndCancel_arm : Admits .h .tsu (putReg (blockBase .tsu + 0x1C) 0 5 State.reset) ∧
    reachedAt (timeNow (putReg (blockBase .tsu + 0x1C) 0 5 State.reset)) (commitAt .tsu (putReg (blockBase .tsu + 0x1C) 0 5 State.reset)) = false := by decide
theorem witness_TimedCommitsArmAndCancel_pending : Admits .h .cls (putCommit .cls { status := 1 } State.reset) ∧
    (commitOf .cls (putCommit .cls { status := 1 } State.reset)).status = 1 ∧ (putCommit .cls { status := 1 } State.reset).mesh.ver.commitAt = none ∧
    (putCommit .cls { status := 1 } State.reset).mesh.ver.prepared = none := by decide

theorem witness_ForcedSourcesAndClearedCauses : 0 < causeCount .prt ∧ Admits .h .prt State.reset ∧ AdmitsFree .h .prt State.reset ∧
    1 < chanCount .prt ∧ isFused .prt (latch .h .prt State.reset).chan State.reset = false ∧
    (1 : Word).getLsbD 0 = true ∧ (assignedBits (firstG .prt)).testBit 0 = true ∧ 0 < (chanCount .prt + 31) / 32 := by decide
theorem witness_ForcedSourcesAndClearedCauses_enabled : { State.reset with evt := { State.reset.evt with msixEnable := true } }.evt.msixEnable = true := by decide

theorem witness_TheLimiterForgets_masked :
    (autoReg (32 / 32) { State.reset with evt := { State.reset.evt with auto := [(1, 1)] } }).getLsbD (32 % 32) = true ∧
    (⟨32 / 32, 32 % 32⟩ : Src) ∉ evtAutoMaskCleared :: sideSources := by decide
theorem witness_TheLimiterForgets_write : Admits .h .evt { State.reset with evt := { State.reset.evt with msixEnable := true } } := by decide

theorem witness_VectorsSendOrHold : Admits .h .evt { State.reset with evt := { State.reset.evt with msixEnable := true, vecActive := 8 } } ∧
    ({ State.reset with evt := { State.reset.evt with msixEnable := true, vecActive := 8 } } : State).evt.vecActive.testBit 3 = true ∧
    vecMasked 3 { State.reset with evt := { State.reset.evt with msixEnable := true, vecActive := 8 } } = true ∧
    vecMasked 3 (putReg (msixEntry 3 + 12) 0 0 { State.reset with evt := { State.reset.evt with msixEnable := true, vecActive := 8 } }) = false := by decide

theorem witness_RailsStrapsAndSystemClock_rail : ({ State.reset with pwr := { State.reset.pwr with railLow := 4, hold := .powerOn } } : State).pwr.railLow.testBit 2 = true := by decide
theorem witness_RailsStrapsAndSystemClock_latch : Admits .h .pwr State.reset ∧ wordField 0x80000 19 1 = 1 := by decide
theorem witness_RailsStrapsAndSystemClock_straps : State.reset.pwr.hold = .none ∧ (0x7F % 128 ≠ sampledStraps { State.reset with pwr := { State.reset.pwr with strapMism := 9 } }) := by decide
theorem witness_RailsStrapsAndSystemClock_clock : State.reset.pwr.sysLost = false ∧
    ({ State.reset with pwr := { State.reset.pwr with sysLost := true } } : State).pwr.sysLost = true ∧ State.reset.pwr.backupStart = false := by decide

theorem witness_PaceMonitorsAndVoltageAdvice_measure : (List.replicate 16 950).length = 16 ∧ State.reset.pwr.hold = .none := by decide
theorem witness_PaceMonitorsAndVoltageAdvice_recover : ({ State.reset with pwr := { State.reset.pwr with ctWithdrawn := true } } : State).pwr.ctWithdrawn = true ∧
    ({ State.reset with pwr := { State.reset.pwr with ctWithdrawn := true } } : State).pwr.paceBelow = false := by decide
theorem witness_PaceMonitorsAndVoltageAdvice_up : ({ State.reset with pwr := { State.reset.pwr with paceBelow := true } } : State).pwr.paceBelow = true ∧ held State.reset = false ∧
    rd pwrAvsStatus_suggestedMv State.reset ≠ cf pwrAvsCtl_ceiling State.reset ∧
    rd pwrAvsStatus_suggestedMv (wr pwrAvsStatus_suggestedMv (cf pwrAvsCtl_ceiling State.reset) State.reset) = cf pwrAvsCtl_ceiling State.reset := by decide
set_option maxRecDepth 20000 in
theorem witness_PaceMonitorsAndVoltageAdvice_down :
    (cf pwrPaceCtl_downMarginPs (storeMargins 0 (List.replicate 16 700) State.reset) : Int) < lowestMargin (storeMargins 0 (List.replicate 16 700) State.reset) ∧
    cf pwrAvsCtl_floor (storeMargins 0 (List.replicate 16 700) State.reset) < rd pwrAvsStatus_suggestedMv (storeMargins 0 (List.replicate 16 700) State.reset) := by decide
theorem witness_PaceMonitorsAndVoltageAdvice_clear : Admits .b .pwr State.reset ∧ wordField 0x80000000 31 1 = 1 := by decide

theorem witness_PowerOnAndResetNClearTheDevice_fail : State.reset.pwr.railLow.testBit 3 = false ∧ State.reset.pwr.hold ≠ .powerOn ∧
    State.reset.pwr.railLow.testBit 6 = false ∧ State.reset.pwr.resetNLow = false := by decide
theorem witness_PowerOnAndResetNClearTheDevice_first : (railFail 3 State.reset).pwr.hold = .powerOn ∧ (railFail 3 State.reset).pwr.failLatch = some 3 := by decide
theorem witness_PowerOnAndResetNClearTheDevice_release : ({ State.reset with pwr := { State.reset.pwr with hold := .powerOn } } : State).pwr.railLow = 0 ∧
    ({ State.reset with pwr := { State.reset.pwr with hold := .powerOn, sysLost := true } } : State).pwr.sysLost = true ∧
    (resetNAssert State.reset).pwr.hold = .resetN := by decide

theorem witness_PerstWarmResetAndLaneClocks_perst : State.reset.pwr.perstLow = false ∧ State.reset.pwr.hold = .none ∧ State.reset.start.back < 8 ∧
    rd cfgStartState_step (wr cfgStartState_step 8 State.reset) = 8 := by decide
theorem witness_PerstWarmResetAndLaneClocks_warm : Admits .h .rst State.reset ∧ wordField 0x5A01 8 8 = 0x5A ∧ rd rstWarmCtl_busy State.reset ≠ 1 ∧
    takesWarm State.reset = false ∧ takesWarm (wr cfgStartState_state 4 State.reset) = true ∧ rd rstWarmCtl_busy (wr rstWarmCtl_busy 1 State.reset) = 1 ∧
    wordField 0x1101 8 8 ≠ 0x5A := by decide
theorem witness_PerstWarmResetAndLaneClocks_lanes : chipletOk 2 State.reset = true ∧ State.reset.pwr.laneLost.testBit 2 = false ∧
    running ⟨.lan, some 130⟩ (modTgt ⟨.lan, some 130⟩ (fun x => { x with st := .on }) State.reset) = true := by decide

theorem witness_SensorsPinsAndSlowBuses_temp : ([20, 21, 90, -5, 3, 7, 9, 11] : List Int).length = 8 ∧ State.reset.pwr.hold = .none ∧
    sensorPresent State.reset 2 = true ∧ (∀ i, i < 8 → sensorPresent State.reset i = true → ([20, 21, 90, -5, 3, 7, 9, 11] : List Int).getD i 0 ≤ 90) := by decide
theorem witness_SensorsPinsAndSlowBuses_pins : (rd mioGpioIn_level State.reset).testBit 31 ≠ true ∧ isFused .hbm 3 State.reset = false ∧
    State.reset.recov.hot.testBit 3 = false := by decide
theorem witness_SensorsPinsAndSlowBuses_buses : Admits .h .mio State.reset ∧ rdX mioI2cCmd_busy 1 0 State.reset = 0 ∧ wordField 0x0450 8 3 = 4 ∧
    rd mioMdioCmd_busy State.reset = 0 ∧ mdioOpOk (wordField 0x400 12 1) (wordField 0x400 10 2) = true ∧
    rdX mioI2cCmd_busy 1 0 (wrX mioI2cCmd_busy 1 0 1 State.reset) = 1 ∧ rd mioMdioCmd_busy (wr mioMdioCmd_busy 1 State.reset) = 1 := by decide

theorem witness_RecordsGoFromOfferToRing_ring : sget ringDefault State.reset.tmk.ring (16 * (State.reset.tmk.seqNext % 4096) + 15) ≠
      BitVec.ofNat 32 ((State.reset.tmk.seqNext + 2 ^ 32 - 4096) % 2 ^ 32) ∧ State.reset.tmk.lostN = 0 ∧ State.reset.tmk.globalUsed < 400 ∧
    rd tieMeshStatus_roleLive (wr tieMeshStatus_roleLive 3 State.reset) = 3 ∧ ({ State.reset with tmk := { State.reset.tmk with fifo := [({ code := 2 } : Rec)] } } : State).tmk.fifo = ({ code := 2 } : Rec) :: [] := by decide
theorem witness_RecordsGoFromOfferToRing_rails : State.reset.pwr.railLow = 0 ∧ ({ State.reset with pwr := { State.reset.pwr with railLow := 1 } } : State).pwr.railLow ≠ 0 := by decide
theorem witness_RecordsGoFromOfferToRing_bucket : sget (fun _ => 0) State.reset.tmk.supp (bucketOf 0xFFFF) = 0 := by decide
theorem witness_RecordsGoFromOfferToRing_software : Admits .b .tmk State.reset ∧
    wrRefused .b (rdC tmkWrHdr_code 1 State.reset) (rdC tmkWrHdr_severity 1 State.reset) = true ∧
    wrRefused .b (rdC tmkWrHdr_code 1 (wrC tmkWrHdr_code 1 0x700 State.reset)) (rdC tmkWrHdr_severity 1 (wrC tmkWrHdr_code 1 0x700 State.reset)) = false := by decide

theorem witness_RingRecordsReachFlash_write : Admits .b .tmk State.reset ∧ Admits .h .tmk State.reset ∧ seqDiff State.reset.tmk.seqNext ((State.reset.tmk.flushSeq + 1) % 2 ^ 32) ≤ 0 := by decide
/-- A reset device with one record in slot 0 of the ring. -/
def oneRecord : State := { State.reset with tmk := { State.reset.tmk with ring := putWords ringDefault [] 0 (wordsOf 16 (recBytes 0 { code := 2 })), seqNext := 1 } }
set_option maxRecDepth 20000 in
theorem witness_RingRecordsReachFlash_flush : (oneRecord.tmk.flushSeq + 1) % 2 ^ 32 = 0 ∧ 0 < seqDiff oneRecord.tmk.seqNext 0 ∧
    recComplete (slotWords ringDefault oneRecord.tmk.ring 0) = true ∧ (slotWords ringDefault oneRecord.tmk.ring 0).getD 0 0 = BitVec.ofNat 32 0 := by decide

theorem witness_CountersFreezeAndHistogramsSnap_window : Admits .b .pcn State.reset := by decide
theorem witness_CountersFreezeAndHistogramsSnap_level : State.reset.pwr.hold = .none ∧ levelCounters State.reset = [] := by decide

theorem witness_StartupStepsAndLoads_steps : stepRuns State.reset = true ∧ startStep State.reset = 1 ∧ rd sysStrapSample_bootSrc State.reset = 0 ∧
    stepRuns (wr cfgStartState_step 6 State.reset) = true ∧ startStep (wr cfgStartState_step 6 State.reset) = 6 ∧
    stepRuns (wr cfgStartState_step 7 State.reset) = true ∧ startStep (wr cfgStartState_step 7 State.reset) = 7 ∧
    stepRuns (wr cfgStartState_step 13 State.reset) = true ∧ startStep (wr cfgStartState_step 13 State.reset) = 13 ∧
    stepFailure (startStep (wr cfgStartState_step 7 State.reset)) = some 7 ∧ stepFailure (startStep State.reset) ≠ some 7 ∧ devState State.reset ≠ 2 := by decide
/-- Awaiting the host. -/
def awaiting : State := wr cfgStartState_step 8 (wr cfgStartState_state 2 State.reset)
set_option maxRecDepth 20000 in
theorem witness_StartupStepsAndLoads_load : Admits .h .cfg awaiting ∧
    devState (storeFields .cfg cfgLoadCtl_go.off 0 (wordWith 0 0 2 1) awaiting) = 2 ∧ (storeFields .cfg cfgLoadCtl_go.off 0 (wordWith 0 0 2 1) awaiting).start.load = .none ∧
    (storeFields .cfg cfgLoadCtl_go.off 0 (wordWith 0 0 2 1) { awaiting with start := { awaiting.start with load := .hostStart } }).start.load ≠ .none := by decide

/-- A reset device whose cluster 1 has an image being written to bank 0. -/
def loadingBank : State := putStore 1 { loading := some (0, []) } State.reset
theorem witness_BanksLoadDrainAndCompare_load : (store 1 loadingBank).loading = some (0, []) ∧ loadingBank.start.load ≠ .runTime ∧ loadingBank.fw.patch = none := by decide
set_option maxRecDepth 20000 in
theorem witness_BanksLoadDrainAndCompare_drain : bankState 3 0 (wrC mcsBankState_bank0 3 4 State.reset) = 4 ∧ runningOn 3 0 (wrC mcsBankState_bank0 3 4 State.reset) = false ∧
    bankState 3 0 (wrC mcsBankState_bank1 3 4 State.reset) ≠ 4 ∧ bankState 3 1 (wrC mcsBankState_bank1 3 4 State.reset) = 4 ∧ runningOn 3 1 (wrC mcsBankState_bank1 3 4 State.reset) = false := by decide
/-- A reset device whose cluster 3 has both banks ready and a word that differs from its golden copy. -/
def flippedWord : State := putStore 3 { words := [(0, 1)] } (wrC mcsBankState_bank0 3 3 (wrC mcsBankState_bank1 3 2 State.reset))
theorem witness_BanksLoadDrainAndCompare_compare : comparePlace 3 flippedWord = some 0 ∧ goldenReadable 3 0 flippedWord = true ∧
    sget zeroDefault (store 3 flippedWord).words 0 ≠ sget zeroDefault (store 3 flippedWord).golden 0 ∧
    sget zeroDefault (store 3 (putStore 3 {} flippedWord)).words 0 = sget zeroDefault (store 3 (putStore 3 {} flippedWord)).golden 0 ∧
    comparePlace 3 (putStore 3 {} flippedWord) = some 0 ∧ 2 ≤ bankState 3 1 flippedWord ∧ goldenReadable 3 1 flippedWord = true ∧ liveBank 3 flippedWord ≠ 1 ∧
    (∀ j < 16, waitsReload (16 * 3 + j) 1 flippedWord = false) := by decide
theorem witness_BanksLoadDrainAndCompare_word : Admits .b .mcs State.reset ∧ bit (0x80000001 : Word).toNat 31 = true ∧ bit (1 : Word).toNat 31 = false := by decide

/-- A reset device with lane 3 ON and its link state `v`. -/
def laneAt (v : Nat) : State := setLane 3 v (modTgt ⟨.lan, some 3⟩ (fun x => { x with st := .on }) State.reset)
set_option maxRecDepth 20000 in
theorem witness_LanesNegotiateTrainAndRise_lane : chanOn .lan 3 (laneAt 4) = true ∧ laneMode 3 (laneAt 4) = 0 ∧ groupLanes 3 (laneAt 4) = [3] ∧
    laneState 3 (laneAt 4) = 4 ∧ rdC lanLinkStatus_trained 3 (laneAt 4) = 0 ∧ rdC lanLinkStatus_liveRate 3 (laneAt 4) < 3 ∧ portOfLane 3 (laneAt 4) = none ∧
    rdC lanLinkStatus_signalPresent 3 (laneAt 4) = 0 := by decide
/-- The same with port 3 ON above it. -/
def portLaneAt (v : Nat) : State := modTgt ⟨.prt, some 3⟩ (fun x => { x with st := .on }) (laneAt v)
set_option maxRecDepth 20000 in
theorem witness_LanesNegotiateTrainAndRise_port : chanOn .lan 3 (portLaneAt 2) = true ∧ laneMode 3 (portLaneAt 2) = 0 ∧ groupLanes 3 (portLaneAt 2) = [3] ∧
    laneState 3 (portLaneAt 2) = 2 ∧ portOfLane 3 (portLaneAt 2) = some 3 ∧ portLanes 3 (portLaneAt 2) = [3] ∧ laneRequested 3 (portLaneAt 2) = true ∧
    sget (fun _ => false) (portLaneAt 2).lanes.noHcd 3 = false ∧ laneState 3 (portLaneAt 1) = 1 ∧ laneRequested 3 (portLaneAt 1) = true ∧ bit 0 15 = false ∧
    resolveHcd 3 (portLaneAt 2) = none ∧ chanRuns .prt 3 (portLaneAt 4) = true ∧ rdC prtLinkStatus_linkUp 3 (portLaneAt 4) = 0 ∧ portOfLane 3 (portLaneAt 4) = some 3 := by decide
/-- The same with port 3 at speed 0 and clause 37 autonegotiation. -/
def c37Port : State := putLive prtPortCfg_speed.off 3 0x40 (portLaneAt 6)
set_option maxRecDepth 20000 in
theorem witness_LanesNegotiateTrainAndRise_c37 : chanOn .lan 3 c37Port = true ∧ laneMode 3 c37Port = 0 ∧ groupLanes 3 c37Port = [3] ∧
    laneState 3 c37Port = 6 ∧ portOfLane 3 c37Port = some 3 ∧ cfC prtPortCfg_speed 3 c37Port = 0 ∧ cfC prtPortCfg_c37An 3 c37Port = 1 ∧ c37Done 3 c37Port = false := by decide

/-- A reset device with tie lane 256 ON in link state `v`, and its lanes' comma locks at `k`. -/
def tieLaneAt (v k : Nat) : State := wrC lanLinkStatus_commaLock 256 k (setLane 256 v (modTgt ⟨.lan, some 256⟩ (fun x => { x with st := .on }) State.reset))
set_option maxRecDepth 20000 in
theorem witness_LanesKeepWatch_tie : chanOn .lan 256 (tieLaneAt 10 0) = true ∧ laneState 256 (tieLaneAt 10 0) = 10 ∧ rdC lanLinkStatus_commaLock 256 (tieLaneAt 10 0) = 0 ∧
    257 ∈ groupLanes 256 (tieLaneAt 10 0) ∧ isTieLane 256 = true ∧ rdC lanLinkStatus_commaLock 257 (tieLaneAt 10 0) = 0 ∧ laneState 256 (tieLaneAt 8 0) = 8 ∧
    rdC lanLinkStatus_commaLock 256 (tieLaneAt 12 1) = 1 ∧ rdC tieLinkStatus_state ((256 - 256) / 4) (tieLaneAt 12 1) ≤ 1 ∧ laneState 256 (tieLaneAt 12 1) = 12 := by decide
set_option maxRecDepth 20000 in
theorem witness_LanesKeepWatch_work : rdC lanLinkStatus_signalPresent 3 (wrC lanLinkStatus_signalPresent 3 1 (laneAt 6)) = 1 ∧ laneState 3 (laneAt 6) = 6 ∧
    chipletPresent 3 State.reset = true ∧ blockOn .lan (modTgt ⟨.lan, none⟩ (fun x => { x with st := .on }) State.reset) = true ∧
    chanRuns .lan (chipletLane 0 3) (laneAt 6) = true ∧ chanRuns .lan (chipletLane 3 0) (laneAt 6) = false := by decide

/-- A reset device with lane 3 ON in pattern test mode, checking and generating pattern 1. -/
def patLane : State := let s := laneAt 13
  { s with fab := { s.fab with live := sput s.fab.live (rkey (modeFld .lan).off (modeCopy ⟨.lan, some 3⟩)) (wordWith (liveReg (modeFld .lan).off (modeCopy ⟨.lan, some 3⟩) s) (modeFld .lan).lo (modeFld .lan).w 1) } }
set_option maxRecDepth 20000 in
theorem witness_PatternsAndEyes_pattern : chanOn .lan 3 patLane = true ∧ patActive 3 patLane = true ∧ rdC lanPatStatus_chkLock 3 patLane = 0 ∧
    rdC lanPatStatus_chkLock 3 (wrC lanPatStatus_chkLock 3 1 patLane) = 1 ∧ Admits .h .lan State.reset ∧ latch .h .lan State.reset = ⟨0, false, false⟩ ∧
    isFused .lan 0 State.reset = false ∧ wordField 0x30 4 4 = 3 ∧ rdC lanEyeCtl_busy 3 (wrC lanEyeCtl_busy 3 1 State.reset) = 1 := by decide

/-- A reset device with port 3 ON over lane 3 in data. -/
def portOn : State := portLaneAt 6
set_option maxRecDepth 20000 in
theorem witness_PortsFaultRiseAndFlap : chanOn .prt 3 portOn = true ∧ rdC prtLinkStatus_fecActive 3 (wrC prtLinkStatus_fecActive 3 2 portOn) ≠ 0 ∧
    cfC prtPortCfg_fecMode 3 portOn = 0 ∧ 15 ≤ fecCorrects 3 (wrC prtLinkStatus_fecActive 3 2 portOn) ∧ fecCorrects 3 (wrC prtLinkStatus_fecActive 3 2 portOn) < 16 ∧
    rdC prtLinkStatus_linkUp 3 (wrC prtLinkStatus_linkUp 3 1 portOn) = 1 ∧ pcsFaulty 3 (wrC prtLinkStatus_linkUp 3 1 portOn) = true ∧
    rdC prtLinkStatus_linkUp 3 portOn = 0 ∧ rdC prtLinkStatus_suppressed 3 portOn = 0 ∧ allIn 6 (portLanes 3 portOn) portOn = true ∧
    rdC prtLinkStatus_pcsLock 3 (wrC prtLinkStatus_pcsLock 3 1 portOn) = 1 ∧ rdC prtLinkStatus_localFault 3 portOn = 0 ∧ rdC prtLinkStatus_remoteFault 3 portOn = 0 ∧
    cfC prtPortCfg_speed 3 portOn ≠ 0 ∧ rdC prtLinkStatus_pcsLock 3 portOn = 0 ∧
    rdC prtLinkStatus_suppressed 3 (wrC prtLinkStatus_suppressed 3 1 portOn) = 1 ∧ cfC prtDebounce_flapMax 3 { portOn with fab := { portOn.fab with live := (wrC prtDebounce_flapMax 3 0 portOn).fab.regs } } = 0 := by decide

set_option maxRecDepth 20000 in
theorem witness_FramesArriveAndAreParsed_port : (rxPort 3 portOn).busy = false ∧ rdC prtLinkStatus_linkUp 3 (wrC prtLinkStatus_linkUp 3 1 portOn) = 1 ∧
    chanOn .prt 3 portOn = true ∧ blockOn .swc portOn = false ∧ beAt ([0,0,0,0,0,0,0,0,0,0,0,0,0x88,0x08] : List Byte) 12 2 = 0x8808 ∧
    (rxPort 3 (putRx 3 { busy := true, cur := some 0, queue := [0] } portOn)).queue = [0] ∧
    rxDropCounters 3 1518 64 (List.replicate 60 0) .good portOn = [] ∧ fecMarked 3 portOn = false ∧ 64 ≤ cfC prtPortCfg_maxFrame 3 portOn ∧ portOn.fab.later = [] ∧ curVersion portOn = 0 ∧ (frame 0 (dropFrame 0 portOn)).live = false := by decide
/-- A state in which a frame of 60 bytes waits for the parser of port 3 (CLS and profile 3 ON, version 1 current). -/
def parseAt (n : Nat) (done : Bool) : State :=
  putFrame 0 { live := true, inSrc := 3, bytes := List.replicate n 0, len := 64, complete := done }
    (putRx 3 { queue := [0] } (wr clsVersion_current 1 (modTgt ⟨.prs, some 3⟩ (fun x => { x with st := .on })
      (modTgt ⟨.cls, none⟩ (fun x => { x with st := .on }) State.reset))))
/-- The same after the frame entered the parser. -/
def parseIn (n : Nat) (done : Bool) : State := modFrame 0 (fun f => { f with version := some 1, profile := 3 }) (parseAt n done)
set_option maxRecDepth 20000 in
theorem witness_FramesArriveAndAreParsed_parser : blockOn .cls (parseAt 60 true) = true ∧ curVersion (parseAt 60 true) = 1 ∧ chanOn .prs 3 (parseAt 60 true) = true ∧
   (frame 0 (parseAt 60 true)).version = none ∧ (rxPort 3 (parseAt 60 true)).queue = [0] := by decide
set_option maxRecDepth 40000 in
theorem witness_FramesArriveAndAreParsed_waits : parseStages 0 (parseIn 10 false) = none ∧ (frame 0 (parseIn 10 false)).live = true ∧ (frame 0 (parseIn 10 false)).parsed = false := by decide
set_option maxRecDepth 40000 in
theorem witness_FramesArriveAndAreParsed_passes : (parseStages 0 (parseIn 60 true)).isSome = true := by decide

/-- A reset device with one item in cluster 1. -/
def oneItem (i : Item) : State := putCluster 1 { items := [i] } State.reset
set_option maxRecDepth 20000 in
theorem witness_ItemsWaitSelectAndLookUp : items 1 State.reset = [] ∧ State.reset.dsp.opWait = [] ∧
    (itemAt 1 0 (oneItem { stage := .selected })).isSome = true ∧ (oneItem {}).dsp.out.contains 1 = false ∧
    ({ stage := .selected } : Item).isFrame = true ∧ ({ stage := .running } : Item).isRunning = true ∧ setHasRoom 0 (oneItem { stall := true }) = true ∧
    Admits .h .dsp State.reset ∧ selChan .h .dsp State.reset = 0 ∧ isFused .dsp 0 State.reset = false := by decide

/-- A reset device with engine 16 holding a run of item 0 of cluster 1. -/
def oneRun (r : Run) : State := putEngine 16 { run := some r } (oneItem { stage := .running, engine := 16 })
/-- A run at the start of an item. -/
def freshRunOf : Run := { item := 0, bank := 0, pc := 0, entry := 0, maxWords := 1, scratch := [], recw := [], desc := [], desc0 := [], exists_ := false }
set_option maxRecDepth 20000 in
theorem witness_EnginesStartRunCheckAndEnd_start : (engine 16 (putEngine 16 { next := some 0 } (oneItem {}))).run = none ∧
    (engine 16 (putEngine 16 { next := some 0 } (oneItem {}))).next = some 0 ∧ (itemAt 1 0 (putEngine 16 { next := some 0 } (oneItem {}))).isSome = true ∧
    peProgValid (progAt 1 0 0 State.reset) = false ∧ peProgValid (progAt 1 0 0 (putStore 1 { progs := [(0, 0x18000)] } State.reset)) = true := by decide
set_option maxRecDepth 20000 in
theorem witness_EnginesStartRunCheckAndEnd_run : (runningItem 16 (oneRun freshRunOf)).isSome = true ∧ badWord (wordAt 1 0 0 (oneRun freshRunOf)) = false ∧
    pendingStall 0 freshRunOf = false ∧ arrivalStall 0 freshRunOf (frame 0 (oneRun freshRunOf)) = false ∧
    markedWord 1 0 0 (oneRun freshRunOf) = false ∧ endReady freshRunOf (frame 0 (oneRun freshRunOf)) = true ∧
    markedWord 1 0 5 (putStore 1 { marked := [5] } State.reset) = true ∧ goldenReadable 1 0 (putStore 1 { marked := [5] } State.reset) = true ∧
    rd hmkStatus_state State.reset ≠ 2 ∧ (runningItem 16 (putStore 1 { marked := [0] } (oneRun freshRunOf))).isSome = true ∧
    markedWord 1 0 0 (putStore 1 { marked := [0] } (oneRun freshRunOf)) = true := by decide

/-- A reset device with fence `f` on entry 7. -/
def oneFence (f : Fence) : State := putFence 7 f (modTgt ⟨.dsp, some 1⟩ (fun x => { x with st := .on }) State.reset)
set_option maxRecDepth 20000 in
theorem witness_SteeringMovesUnderFences_fence : (fence 7 (oneFence { phase := 1, new := 1 })).phase = 1 ∧ chanOn .dsp 1 (oneFence { phase := 1, new := 1 }) = true ∧
    (fence 7 (oneFence { phase := 2 })).phase = 2 ∧ (fence 7 (oneFence { phase := 2 })).overran = false ∧ itemsOfEntry 0 7 (oneFence { phase := 2 }) = [] ∧
    itemsOfEntry 1 7 (oneItem { tag := 7 }) ≠ [] := by decide
set_option maxRecDepth 20000 in
theorem witness_SteeringMovesUnderFences_write : Admits .h .cls State.reset ∧ rd clsIndAddr_autoInc State.reset = 0 ∧ rd clsIndAddr_table State.reset ≠ steerTable State.reset ∧
    rd clsIndAddr_table (wr clsIndAddr_table 63 State.reset) = steerTable (wr clsIndAddr_table 63 State.reset) ∧ (fence 0 State.reset).phase = 0 ∧
    blockOn .dsp State.reset = false ∧ steerTo 0 State.reset ≠ 1 ∧ (tgt ⟨.dsp, none⟩ State.reset).st = .off ∧ hostTableUsed 1 State.reset = false := by decide
/-- A reset device whose cluster 1 was taken out and is ON again. -/
def takenOut : State := let s := modTgt ⟨.mcs, some 1⟩ (fun x => { x with st := .on }) (modTgt ⟨.dsp, some 1⟩ (fun x => { x with st := .on }) State.reset)
  { s with dsp := { s.dsp with out := [1] } }
set_option maxRecDepth 20000 in
theorem witness_SteeringMovesUnderFences_return : takenOut.dsp.out.contains 1 = true ∧ chanOn .mcs 1 takenOut = true ∧ chanOn .dsp 1 takenOut = true := by decide

/-- A reset device with record `e` of frame 0 first at output d, port 3 and its link up. -/
def atOutput (d : Nat) (e : EgFrame) : State := modDest d (fun x => { x with eg := [e] }) (wrC prtLinkStatus_linkUp 3 1 portOn)
/-- A reset device with frame 5 queued from group 1 to destination 2, class 3, and a cell in the destination's transmit buffer. -/
def oneQueued : State := modDest 2 (fun x => { x with cells := [{}] }) { State.reset with sw := { State.reset.sw with voq := [(voqKey 1 2 3, [5])] } }
set_option maxRecDepth 20000 in
theorem witness_CellsCrossReturnAndAge : (tgt ⟨.swc, none⟩ State.reset).st = .off ∧ (tgt ⟨.swc, none⟩ (modTgt ⟨.swc, none⟩ (fun x => { x with st := .on }) State.reset)).st = .on ∧
    (dest 2 (modDest 2 (fun x => { x with cells := [{ frames := [5], pair := some 3 }] }) State.reset)).cells = [{ frames := [5], pair := some 3 }] ∧
    unstarted 5 3 State.reset = false ∧ unstarted 5 3 (atOutput 3 { id := 5 }) = true ∧
    (dest 2 oneQueued).cells = [{}] ∧ (dest 2 State.reset).cells = [] ∧ (voqAt 1 2 3 oneQueued).drop 0 = [5] ∧ (frame 5 oneQueued).sent = 0 := by decide

/-- The same with frame 0 wholly across. -/
def across (d : Nat) (e : EgFrame) (f : Frame) : State := putFrame 0 f (atOutput d e)
set_option maxRecDepth 20000 in
theorem witness_FramesLeaveTheDevice_start : frontEg 3 (atOutput 3 { id := 0, edited := true }) = some { id := 0, edited := true } ∧
    destUp 3 (atOutput 3 { id := 0, edited := true }) = true ∧ gateEn 3 (atOutput 3 { id := 0, edited := true }) = false ∧
    (dest 3 (across 3 { id := 0 } { sent := 1 })).eg.find? (fun e => !e.edited) = some { id := 0 } ∧ (frame 0 (across 3 { id := 0 } { sent := 1 })).sent = 1 ∧
    (editPlan (frame 0 (across 3 { id := 0 } { sent := 1 })) 3 (across 3 { id := 0 } { sent := 1 })).red = 0 := by decide
set_option maxRecDepth 20000 in
theorem witness_FramesLeaveTheDevice_end : crossedAll (frame 0 (across 3 { id := 0, started := true } { complete := true, sent := 8 })) = true ∧
    crossedAll ({ ct := true } : Frame) = false ∧ frontEg 264 (atOutput 264 { id := 0, edited := true }) = some { id := 0, edited := true } ∧
    frontEg 266 (atOutput 266 { id := 0 }) = some { id := 0 } ∧ (takeCells 35 1 (wrX bpmReqUsed_count 0 35 0xFFFFF State.reset)).1 = none ∧
    (takeCells 35 1 State.reset).1.isSome = true := by decide
/-- Gates in use at port 3, with a list whose one entry opens no class in force. -/
def gatesShut (s : State) : State := putList 3 0 { cycle := 1000, count := 1 } (wrC tmgGateStatus_operValid 3 1
  { s with fab := { s.fab with live := sset regReset s.fab.live (rkey tmgGateCtl_gateEn.off 3) 1 } })
set_option maxRecDepth 20000 in
theorem witness_FramesLeaveTheDevice_gates : gateEn 3 (gatesShut State.reset) = true ∧
    gateOpen 3 0 (timeAtEighth (gatesShut State.reset).tim (egressStamp 3 0 (gatesShut State.reset))) (gatesShut State.reset) = false ∧
    overran { id := 0, started := true } 3 (gatesShut State.reset) = true ∧ overran { id := 0, started := true } 3 State.reset = false := by decide

set_option maxRecDepth 20000 in
theorem witness_GatesListsAndMeters : operList 3 State.reset = none ∧ (operList 3 (wrC tmgGateStatus_operValid 3 1 State.reset)).isSome = true ∧
    pendTakeover 3 (wrC tmgGateStatus_pending 3 1 State.reset) = some (0, 0) ∧ atOrAfter (timeNow (wrC tmgGateStatus_pending 3 1 State.reset)) 0 = true ∧
    atOrAfter (timeNow State.reset) 1 = false ∧
    Admits .h .tmg State.reset ∧ selChan .h .tmg State.reset = 0 ∧ isFused .tmg 0 State.reset = false ∧ rdC tmgGateStatus_pending 0 (wrC tmgGateStatus_pending 0 1 State.reset) = 1 ∧
    rdC tmgGclAddr_list 0 State.reset = 0 ∧ reachable .h State.reset = true ∧ meterOk 0 0 0 0 0 = true ∧ meterOk 0 1 63 0 0 = false := by decide

/-- A reset device whose window B has buffer 0 of pool 0, requester 40. -/
def oneBuffer : State := { State.reset with pools := { State.reset.pools with owner := [(bufKey 0 0, 41)] } }
set_option maxRecDepth 20000 in
theorem witness_BuffersAreHandedOutAndReadBack : Admits .b .bpm oneBuffer ∧ bit (0x80000000 : Word).toNat 31 = true ∧ wordField 0x80000000 0 15 = 0 ∧
    cfC bpmReqCfg_window 40 oneBuffer = reqWindow .b ∧ cfC bpmReqCfg_window 0 oneBuffer ≠ reqWindow .b ∧ boundBuffer .b oneBuffer = some (poolBase 0, poolSize 0) ∧
    freeResult .b 0 40 oneBuffer = 0 ∧ freeResult .b 0 41 oneBuffer = 2 ∧ boundBuffer .b State.reset = none := by decide

/-- A reset device with BPM ON, whose requester 40 may hold ten buffers of pool 0. -/
def bufferDevice : State :=
  let s := modTgt ⟨.bpm, none⟩ (fun x => { x with st := .on }) State.reset
  { s with fab := { s.fab with live := (wrX bpmReqCap_count 0 40 10 s).fab.regs } }
set_option maxRecDepth 20000 in
theorem witness_BuffersAreHandedOutAndReadBack_take : blockOn .bpm bufferDevice = true ∧ Admits .b .bpm bufferDevice ∧
    cfC bpmReqCfg_window 40 bufferDevice = reqWindow .b ∧
    (takeFirst 40 (sizeOrder.filter (fun p => decide (100 ≤ poolSize p))) false bufferDevice).1 = some (0, 0) ∧
    (takeFirst 41 (sizeOrder.filter (fun p => decide (100 ≤ poolSize p))) false bufferDevice).1 = none := by decide

/-- A reset device with one change waiting for the L2 update engine. -/
def oneChange (ch : L2Change) : State := { State.reset with l2 := { State.reset.l2 with queue := [ch] } }
/-- The same with L2T ON. -/
def oneLearn (ch : L2Change) : State := putTgt ⟨.l2t, none⟩ { tgt ⟨.l2t, none⟩ State.reset with st := .on } (oneChange ch)
/-- A reset device with one L2 entry, in overflow place 0. -/
def oneStation (e : L2Entry) (ch : L2Change) : State := putL2 524288 e (oneChange ch)
set_option maxRecDepth 20000 in
theorem witness_StationsAreLearnedMovedAndAged : (oneChange (.learn 3 1 5)).l2.queue = [.learn 3 1 5] ∧ l2Find 1 5 (oneChange (.learn 3 1 5)) = none ∧
    atLimit 3 (oneChange (.learn 3 1 5)) = false ∧ (l2Room 1 5 (oneChange (.learn 3 1 5))).isSome = true ∧
    l2Find 1 5 (oneStation { valid := true, fid := 1, mac := 5, target := 4 } (.learn 3 1 5)) = some 524288 ∧
    l2Expired { valid := true, stamp := 4095 - 299 } State.reset = true ∧ l2Expired {} State.reset = false ∧
    l2FieldsOk { valid := true, kind := 1 } = true ∧ l2CountPort { valid := true, kind := 1 } = none ∧
    cf l2tCfg_notifyEn State.reset = 1 ∧ noteFits State.reset = true ∧
    noteFits { State.reset with l2 := { State.reset.l2 with tokensUsed := 64 } } = false ∧ Admits .h .l2t State.reset ∧ blockOn .l2t State.reset = false ∧
    (l2At 524288 (oneStation { valid := true } (.retire 0))).valid = true ∧ (tgt ⟨.l2t, none⟩ (oneChange (.learn 3 1 5))).st = .off ∧
    (tgt ⟨.l2t, none⟩ (oneLearn (.learn 3 1 5))).st = .on ∧ (oneLearn (.learn 3 1 5)).l2.queue = [.learn 3 1 5] ∧
    l2Find 1 5 (oneLearn (.learn 3 1 5)) = none ∧ atLimit 3 (oneLearn (.learn 3 1 5)) = false ∧
    (l2Room 1 5 (oneLearn (.learn 3 1 5))).isSome = true := by decide
set_option maxRecDepth 20000 in
theorem witness_StationsAreLearnedMovedAndAged_limit : atLimit 3 (wrC l2tPortCount_learned 3 1
      { State.reset with fab := { State.reset.fab with live := (wrC l2tPortLearn_limit 3 1 State.reset).fab.regs } }) = true ∧
    atLimit 3 State.reset = false := by decide

set_option maxRecDepth 20000 in
theorem witness_TableEntriesAreWrittenWholeAndReadBack : Admits .h .lpm State.reset ∧ Admits .h .l2t State.reset ∧ poolEntryOk 0 = true ∧
    rdC lpmNodeAddr_index 0 State.reset = 0 ∧ rdC lpmNodeAddr_autoInc 0 State.reset = 0 ∧ rdC lpmNhAddr_autoInc 0 State.reset = 0 ∧
    rdC lpmEcmpAddr_autoInc 0 State.reset = 0 ∧ rdC lpmMemberAddr_autoInc 0 State.reset = 0 ∧
    rdC lpmNhAddr_index 0 State.reset = 0 ∧ bitsOf (266 * 2 ^ 64) 64 9 = 266 ∧ bitsOf 0 18 8 + 1 = 1 := by decide

set_option maxRecDepth 20000 in
theorem witness_PoolEntryWritesOutsideTheLayoutAreIgnored : Admits .h .lpm State.reset ∧
    2 ^ 47 ≤ rdC lpmNodeDataLo_data (winIdx .h) State.reset + (0x8000 : Word).toNat * 2 ^ 32 ∧
    bit (0x7FFF * 2 ^ 32) 46 = true ∧ 3145728 < bitsOf (0x7FFF * 2 ^ 32) 20 22 + 2 ^ (bitsOf (0x7FFF * 2 ^ 32) 42 4 + 1) := by decide

/-- A reset device whose rule version 3 is current while version 2 drains with one frame in flight. -/
def twoVersions : State := { wr clsVersion_current 3 (wr clsVersionState_draining 1 State.reset) with frames := [(0, { live := true, version := some 2 })] }
set_option maxRecDepth 20000 in
theorem witness_RuleVersionsAreStagedCheckedAndFreed : Admits .h .cls twoVersions ∧ Admits .h .cls State.reset ∧ stagingLocked twoVersions = true ∧
    stagingLocked State.reset = false ∧ rd clsStageCtl_mode State.reset = 0 ∧ rd clsStageAddr_autoInc State.reset = 0 ∧ draining twoVersions = true ∧
    twoVersions.ver.drainOver = false ∧ inflight (curVersion twoVersions - 1) twoVersions = 1 ∧ otherMembers State.reset = 0 ∧
    clsCheck State.reset = none ∧ clsCheck (wr clsSteerCfg_steerTable 0 State.reset) = some 2 ∧ wordField (0x101 : Word) 0 8 ≠ 0 ∧ bit (0x101 : Word).toNat 8 = true ∧
    draining (wr clsDrainCtl_drainLimitMs 1 twoVersions) = true ∧ ¬ draining State.reset = true := by decide

/-- A reset device with tie link 2 active. -/
def tiedTo2 : State := wrC tieLinkStatus_state 2 3 State.reset
/-- The same as manager of a mesh with device 2. -/
def managing : State := wr tieMeshStatus_roleLive 1 (wr tieMeshStatus_members 5 (wr tieMeshStatus_joined 1 tiedTo2))
/-- The same prepared for version 4 and awaiting device 2. -/
def preparing : State := modSys (fun v => { v with waiting := 4, prepared := some 4 }) managing
set_option maxRecDepth 20000 in
theorem witness_SystemCommitsRunAcrossTheMesh : linkActive 2 tiedTo2 = true ∧ (takeBad 2 (count tieCtrs 3 2 1 tiedTo2)).1 = false ∧
    ((tieLink 2 (takeBad 2 (count tieCtrs 3 2 1 tiedTo2)).2).rxSeq + 1) % 65536 = 1 ∧ clsBusy tiedTo2 = false ∧ clsCheck tiedTo2 = none ∧
    isManager managing = true ∧ otherMembers managing ≠ 0 ∧ awaited 2 preparing = true ∧ clearBit preparing.mesh.ver.waiting 2 = 0 ∧
    preparing.mesh.ver.prepared = some 4 ∧ tieLinks.find? (fun k => awaited k preparing) = some 2 ∧ awaited 2 tiedTo2 = false ∧
    State.reset.mesh.ver.joinWait = false := by decide

set_option maxRecDepth 20000 in
theorem witness_VersionsAreFreedAcrossTheMesh : bitmap (others (modSys (fun v => { v with freeing := true, markers := 4 }) managing)) = 4 ∧
    isManager tiedTo2 = false ∧ draining tiedTo2 = false ∧ idleHere tiedTo2 = true ∧ managerOf (wr tieMeshStatus_managerPresent 1 tiedTo2) = some 0 ∧
    idleHere { wr clsVersion_current 3 (wr clsVersionState_draining 1 tiedTo2) with frames := [(0, { live := true, version := some 2 })] } = false ∧
    clearBit (4 : Nat) 2 = 0 := by decide

set_option maxRecDepth 20000 in
theorem witness_HeartbeatsWatchPeersAndCarryTime : blockOn .tie State.reset = false ∧ rd tieMeshStatus_roleLive (wr tieMeshStatus_roleLive 3 State.reset) = 3 ∧
    watched 2 tiedTo2 = true ∧ (tieLink 2 tiedTo2).heard = false ∧ rdC tieLinkStatus_missed 2 tiedTo2 = 0 ∧
    rdC tieLinkStatus_missed 2 (wrC tieLinkStatus_missed 2 2 tiedTo2) = 2 ∧ (tieLink 2 tiedTo2).lost = false ∧
    (tieLink 2 (modTieLink 2 (fun x => { x with heard := true, t1 := some (5, 0) }) tiedTo2)).heard = true ∧
    (tieLink 2 (modTieLink 2 (fun x => { x with heard := true, t1 := some (5, 0) }) tiedTo2)).t1 = some (5, 0) ∧ managerOf tiedTo2 = none ∧
    managerOf (wr tieMeshStatus_managerPresent 1 (wr tieMeshStatus_managerId 2 tiedTo2)) = some 2 ∧ (tieLink 2 tiedTo2).t1 = none := by decide

/-- A tie capability as device 2 of a one-link mesh sends it to a reset device 0. -/
def goodCap : TieCap := { part := 0x4256, revision := rd sysPartId_revision State.reset, deviceId := 2, strapRole := 0, liveRole := 0, link := 0, meshId := 0, epoch := 0, credits := 16 }
set_option maxRecDepth 20000 in
theorem witness_TieLinksAgreeAndCarryFrames : rdC tieLinkStatus_state 2 (wrC tieLinkStatus_state 2 2 State.reset) = 2 ∧
    capRefusal 2 goodCap State.reset = none ∧ capRefusal 3 goodCap State.reset = some 2 ∧ linkActive 2 tiedTo2 = true ∧ (takeBad 2 tiedTo2).1 = false ∧
    versionLive 0 tiedTo2 = false ∧ (tieLink 2 tiedTo2).unacked = [] ∧ (tieLink 2 (sendControl 2 9 [] tiedTo2)).unacked.length = 1 ∧
    (takeBad 2 (modTieLink 2 (fun x => { x with ctlIn := { x.ctlIn with ended := [true] } }) tiedTo2)).1 = true ∧ isManager managing = true ∧ isManager tiedTo2 = false := by decide
set_option maxRecDepth 40000 in
theorem witness_TieLinksAgreeAndCarryFrames_frame : ∃ i t, tieReceive 2 [0, 0, 0, 0] [] (wr clsVersion_current 0 tiedTo2) = (i, t) ∧ i = none := by
  refine ⟨_, _, rfl, by decide⟩

/-- A mesh managed here in which entry 5 is moving to device 2. -/
def movingEntry : State := putOwn 5 { owner := some 2, moving := true, done := true, fwdRaw := some 0 } { managing with tim := { managing.tim with raw := 156250000 } }
set_option maxRecDepth 20000 in
theorem witness_OwnershipMovesBetweenDevices : Admits .h .tie managing ∧ moveRefusal 5 2 managing = none ∧ moveRefusal 5 3 managing = some 2 ∧
    moveRefusal 5 2 State.reset = some 1 ∧ moveRefusal 5 0 movingEntry = some 3 ∧ moveRefusal 5 0 managing = some 4 ∧
    (ownEntry 5 movingEntry).done = true ∧ isManager movingEntry = true ∧ others movingEntry = [2] ∧ changeUnacked 2 5 movingEntry = false ∧
    ownerDevice 5 movingEntry = 2 ∧ bit (rd tieMeshStatus_members movingEntry) 2 = true ∧ (ownEntry 5 movingEntry).fwdRaw = some 0 ∧ 200000000 * 100 ≤ (movingEntry.tim.raw - (ownEntry 5 movingEntry).beganRaw) * 128 ∧ 1000000 * cf tieMeshCfg_fwdWindowMs movingEntry * 100 ≤ movingEntry.tim.raw * 128 ∧
    (ownEntry 5 managing).fwdRaw = none ∧ ownerDevice 5 managing = selfId managing ∧ (ownEntry 5 managing).aborted = false ∧ linkActive 2 movingEntry = true := by decide

/-- A reset device with one operation of the table unit running in cluster 1. -/
def oneOp (op : TableOp) : State := oneItem { op := op, stage := .running }
set_option maxRecDepth 20000 in
theorem witness_FlowRecordsAgeRetireAndExport : 5 < recordCount State.reset ∧ blockOn .flt State.reset = false ∧
    (runningOp 1 0 (oneOp (.retireCheck 0 3))).isSome = true ∧ slState (placeAt 0 0 (oneOp (.retireCheck 0 3))) = 0 ∧
    slState (mkSlot 9 3 5 1 0 0) = 1 ∧ slRec (mkSlot 9 3 5 1 0 0) = 3 ∧ slState (mkSlot 9 3 5 2 0 0) = 2 ∧ exportFree State.reset = 8192 ∧
    exportRoom State.reset = true ∧ Admits .h .flt State.reset ∧ rdC fltExpqCfg_enable 0 State.reset = 0 ∧ rdC fltExpqBaseLo_addr 0 State.reset % 128 = 0 ∧
    bar2Ok 384 State.reset = true ∧ bar2Ok 385 State.reset = false ∧ State.reset.flow.chain = [] ∧ State.reset.flow.pool.length < 65536 ∧
    exportRingFree 0 (wrC fltExpqCfg_enable 0 1 (wrC fltExpqCfg_log2Entries 0 4 State.reset)) = true := by decide
set_option maxRecDepth 20000 in
theorem witness_FlowRecordsAgeRetireAndExport_slot : slState (placeAt 0 4 (putOvf 0 (mkSlot 9 3 5 1 0 0) (oneOp (.retireCheck 4 3)))) = 1 ∧
    slState (placeAt 0 4 (putOvf 0 (mkSlot 9 3 5 2 0 0) (oneOp (.cleanup 4 3)))) = 2 := by decide

/-- A reset device with command entry 0 of window H's ring in the table unit. -/
def oneCommand (e : List Byte) : State := { oneItem { op := .command 0 0, stage := .running } with flow := { State.reset.flow with ring := [(0, e)] } }
set_option maxRecDepth 20000 in
theorem witness_CommandRingsActOnRecords : (runningOp 1 0 (oneCommand [1])).isSome = true ∧ enOp (entryAt 0 0 (oneCommand [1])) = 1 ∧
    enOp (entryAt 0 0 (oneCommand [8])) = 8 ∧ Admits .h .flt State.reset ∧ rdC fltCmdqCfg_enable 0 State.reset = 0 ∧ wordField (0x14 : Word) 4 1 = 1 ∧
    wordField (0x14 : Word) 0 4 = 4 ∧ rdC fltCmdqBaseLo_addr 0 (wrC fltCmdqCfg_log2Entries 0 4 State.reset) % 256 = 0 ∧ blockOn .flt State.reset = false := by decide
set_option maxRecDepth 40000 in
theorem witness_CommandRingsActOnRecords_found : (cmdFind [1] { op := .command 0 0, stage := .running } .none (oneCommand [1])).1.status = 1 := by decide

/-- A reset device in the active state. -/
def activeDevice : State := wr cfgStartState_state 4 State.reset
/-- A reset device whose PRS channel 3 is in FAULT 0x03, with its block's recovery enabled. -/
def faultedProfile : State :=
  let s := modTgt ⟨.prs, some 3⟩ (fun x => { x with st := .fault, faultCode := 3 }) (wr scrRecoverLo_enable 0xFFFFFFFF State.reset)
  { s with fab := { s.fab with live := s.fab.regs } }
set_option maxRecDepth 20000 in
theorem witness_ScrubbersAndRecoveryAct : active activeDevice = true ∧ active State.reset = false ∧ scrubWordOk (.lpm 3) 0 = true ∧ scrubWordOk .hbm 5 = true ∧
    scrubWordOk .hallmark 8 = true ∧ 5 < hbmInUse activeDevice ∧ rd scrErrLogHi_valid State.reset = 0 ∧ chanOn .hbm 1 State.reset = false ∧
    chanOn .hbm 1 (modTgt ⟨.hbm, some 1⟩ (fun x => { x with st := .on }) State.reset) = true ∧ targetOk ⟨.prs, some 3⟩ = true ∧
    recoverable ⟨.prs, some 3⟩ = true ∧ recoverable ⟨.sys, none⟩ = false ∧ (tgt ⟨.prs, some 3⟩ faultedProfile).st = .fault ∧
    (tgt ⟨.prs, some 3⟩ faultedProfile).faultCode = 3 ∧ recoverEnabled .prs faultedProfile = true ∧ resetBusy ⟨.prs, some 3⟩ faultedProfile = false ∧
    (recentRecoveries ⟨.prs, some 3⟩ faultedProfile).length = 0 := by decide

/-- A reset device whose firmware is in this state and whose Bench runs. -/
def benchUp (f : Firmware → Firmware) : State :=
  let s := wr hmkStatus_state 1 (wr bncStatus_state 2 State.reset)
  { s with fw := f s.fw }
set_option maxRecDepth 20000 in
theorem witness_BenchIsWatchedRestartedAndHandedOver : Admits .b .bnc State.reset ∧ Admits .h .bnc State.reset ∧ wordField (0x4B43 : Word) 0 16 = 0x4B43 ∧
    rd bncStatus_state (benchUp id) = 2 ∧ (benchUp id).fw.phase = 0 ∧ (benchUp id).fw.lastEmergency = none ∧ (benchUp id).fw.warned = false ∧
    rd hmkStatus_state (benchUp id) = 1 ∧ (benchUp (fun f => { f with phase := 8, emergency := some 2 })).fw.emergency = some 2 ∧
    rd bncStatus_state State.reset = 0 ∧ rd hmkStatus_state (wr hmkStatus_state 2 (benchUp id)) = 2 ∧
    (benchUp (fun f => { f with phase := 4, warned := true, lastEmergency := some 0 })).tim.raw - 0 < rawTenSeconds := by decide

/-- A device whose Bench and Hallmark run, with entry `e` waiting in mailbox m. -/
def mailed (m : Nat) (e : List Byte) : State :=
  let s := wrX hifMboxProd_index m 0 1 (wrX hifMboxCfg_enable m 0 1 (wrX hifMboxCfg_log2Entries m 0 4 (benchUp id)))
  { s with fw := { s.fw with boxes := [(2048 * m, e)] } }
set_option maxRecDepth 20000 in
theorem witness_MailboxServicesAnswer : (headEntry 0 (mailed 0 [1])).isSome = true ∧ mbService ((headEntry 0 (mailed 0 [1])).getD []) = 1 ∧
    mbService ((headEntry 0 (mailed 0 [0x10])).getD []) = 0x10 ∧ mbService ((headEntry 1 (mailed 1 [5, 1])).getD []) = 0x105 ∧
    mbParam0 ((headEntry 1 (mailed 1 [5, 1])).getD []) = 0 ∧ hallmarkBusy (mailed 1 [5, 1]) = false ∧ benchRunning (mailed 1 [5, 1]) = true ∧
    headEntry 0 State.reset = none ∧ Admits .h .hif State.reset ∧ rdX hifMboxCfg_enable 0 0 State.reset = 0 ∧ rdX hifMboxCfg_enable 0 0 (mailed 0 [1]) = 1 ∧
    flashRegion 0 (mailed 0 [0x20]) = none ∧ (mailed 0 [0x21]).fw.dir = [] ∧ takesDelivery (mailed 1 [3, 1]) = false ∧
    (servicesOf 0).contains 7 = false ∧ imageSound .kg4256 [] = false ∧ (slice [] 0 0 : List Byte).length < 0x180 ∧
    rdX hifMboxBaseLo_addr 0 0 State.reset % 64 = 0 ∧ wordField (4 : Word) 0 4 = 4 ∧ wordField (10 : Word) 0 4 = 10 ∧ wordField (11 : Word) 0 4 = 11 ∧
    maskClusters 8 = [3] ∧ maskClusters 0 = [] ∧ bankState 3 (1 - liveBank 3 (mailed 1 [5, 1])) (mailed 1 [5, 1]) < 3 ∧
    3 ≤ bankState 3 (1 - liveBank 3 flippedWord) (wrC mcsBankState_bank1 3 4 flippedWord) := by decide

set_option maxRecDepth 20000 in
theorem witness_FusesAreBlownByService : mbService ((headEntry 1 (mailed 1 [6, 1])).getD []) = 0x106 ∧ mbService ((headEntry 1 (mailed 1 [9, 1])).getD []) = 0x109 ∧
    hallmarkBusy (mailed 1 [6, 1]) = false ∧ (mailed 1 [6, 1]).pwr.railLow = 0 ∧ ownerState (mailed 1 [6, 1]) = 0 ∧
    (mailed 1 [8, 1]).fw.rollback = 0 ∧ (mailed 1 [8, 1]).fw.image.rollback = 0 ∧
    (allBlocks.find? (fun b => blockCode b == mbParam0 ((headEntry 1 (mailed 1 [9, 1])).getD []))).isSome = true ∧
    (headEntry 1 (mailed 1 [6, 1])).isSome = true := by decide

/-- A reset device with this target ON and its registers' values in effect. -/
def turnedOn (t : Target) (f : State → State) : State :=
  let s := f (modTgt t (fun x => { x with st := .on }) State.reset)
  { s with fab := { s.fab with live := s.fab.regs } }
set_option maxRecDepth 20000 in
theorem witness_TimeIsReadSteppedAndSteered : reachable .h State.reset = true ∧ Admits .h .tim State.reset ∧ wordField (3 : Word) 0 1 = 1 ∧
    wordField (3 : Word) 1 1 = 1 ∧ wordField (5 : Word) 2 1 = 1 ∧ rdC timStepNs_value 0 State.reset < 1000000000 ∧ cf timServoCfg_src State.reset = 0 ∧
    blockOn .tim (turnedOn ⟨.tim, none⟩ (wr timServoCfg_src 1)) = true ∧ cf timServoCfg_src (turnedOn ⟨.tim, none⟩ (wr timServoCfg_src 1)) = 1 ∧
    rdC timServoSampleLo_epoch 0 State.reset = State.reset.tim.epoch ∧ rd timStatus_holdover State.reset = 0 ∧
    rd timStatus_srcLive (wr timStatus_srcLive 1 State.reset) = 1 ∧ rd timStatus_refOk (wr timStatus_refOk 0 State.reset) = 0 ∧
    cf timServoStep_stepNs (turnedOn ⟨.tim, none⟩ (wr timServoStep_stepNs 0)) = 0 ∧ 0 < cf timServoLock_lockNs State.reset ∧ 0 < servoMax State.reset ∧
    rd timStatus_locked (wr timStatus_locked 1 State.reset) = 1 ∧ cf timClkCfg_src (turnedOn ⟨.tim, none⟩ (wr timClkCfg_src 1)) = 1 ∧
    cf timClkCfg_revert (turnedOn ⟨.tim, none⟩ (wr timClkCfg_revert 1)) = 1 ∧ cf timClkCfg_src (turnedOn ⟨.tim, none⟩ (wr timClkCfg_src 0)) = 0 := by decide

/-- A reset device whose window H has trigger 0 selected, armable as a one-shot at time 0. -/
def oneTrigger : State := turnedOn ⟨.tim, some 0⟩ (fun s => wrC timTrigCfg_mode 0 1 (wrC timTrigWidthNs_value 0 8 (wrC timTrigPeriodFrac_den 0 1 s)))
set_option maxRecDepth 20000 in
theorem witness_PulsesAndTriggersLeaveOnTime : selChan .h .tim oneTrigger = 0 ∧ isFused .tim 0 oneTrigger = false ∧ Admits .h .tim oneTrigger ∧
    armRefused 0 oneTrigger = false ∧ armRefused 0 State.reset = true ∧ atOrAfter (timeNow oneTrigger) (trigStart 0 oneTrigger) = true ∧
    chanOn .tim 0 oneTrigger = true ∧ atOrAfter (timeNow oneTrigger) (trigStart 0 (wrC timTrigStartSecLo_value 0 1 oneTrigger)) = false ∧
    trigDue 0 (wrC timTrigCtl_armed 0 1 oneTrigger) = true ∧ trigDue 0 oneTrigger = false ∧
    rdC timTrigCfg_mode 0 (wrC timTrigCfg_mode 0 2 State.reset) = 2 ∧ State.reset.tim.ppsInRaw = none ∧ State.reset.tim.ppsMissing = false ∧
    ppsQuiet State.reset = false ∧ State.reset.tim.ppsNext = none ∧ atOrAfter (timeNow State.reset) 0 = true ∧
    atOrAfter (timeNow State.reset) (mkTime 1 0 0) = false ∧ (0 - 0) * 16 < 500000000 * 100 ∧
    rawReached 0 State.reset = true ∧ rawReached 1 State.reset = false ∧ ppsQuiet (wr timStatus_onBackup 1 (turnedOn ⟨.tim, none⟩ (wr timPpsOutCfg_quietUnlocked 1))) = true ∧
    1500000000 * 100 ≤ (9375000000 - 0) * 16 := by decide

/-- A reset device whose capture input 1 takes rising edges. -/
def oneCapture (x : Capt) : State := putCapt 1 x (turnedOn ⟨.tim, some 9⟩ (wrC timCaptCfg_edge 9 1))
set_option maxRecDepth 20000 in
theorem witness_CapturedEdgesEnterAFifo : chanOn .tim 9 (oneCapture {}) = true ∧ captChooses (rdC timCaptCfg_edge 9 (oneCapture {})) true = true ∧
    captChooses (rdC timCaptCfg_edge 9 (oneCapture {})) false = false ∧ rdC timCaptCfg_deadUs 9 (oneCapture {}) = 0 ∧
    rdC timCaptCfg_deadUs 9 (wrC timCaptCfg_deadUs 9 5 (oneCapture { lastRaw := some 0 })) = 5 ∧
    (capt 1 (oneCapture { fifo := List.replicate 64 ⟨0, 0, false, false⟩ })).fifo.length = 64 ∧
    captStuckDue 1 { wrC timCaptCfg_stuckMs 9 5 (oneCapture { lastRaw := some 0 }) with tim := { (oneCapture { lastRaw := some 0 }).tim with raw := 4000000 } } = true ∧ captStuckDue 1 (oneCapture {}) = false ∧
    rdC timCaptStatus_stuck 9 (oneCapture {}) = 0 ∧ rdC timCaptStatus_stuck 9 (wrC timCaptStatus_stuck 9 1 (oneCapture {})) = 1 ∧
    reachable .h State.reset = true ∧ txFifo 0 State.reset = [] ∧ txFifo 0 (putTxFifo 0 [⟨0, 0, 0, 0, 0, false⟩] State.reset) = [⟨0, 0, 0, 0, 0, false⟩] := by decide

set_option maxRecDepth 20000 in
theorem witness_AReadTakesTheOldestCapture : ∃ s : State, reachable .h s = true ∧ selChan .h .tim s = 8 + 1 ∧
    (capt 1 s).fifo = [⟨7, 1, false, true⟩, ⟨9, 1, true, false⟩] ∧ (capt 2 s).fifo = [] ∧ 7 < timeMod :=
  ⟨putLatch .h .tim { chan := 9 } (putCapt 1 { fifo := [⟨7, 1, false, true⟩, ⟨9, 1, true, false⟩] } State.reset), by decide⟩

/-! ### Witnesses of the clauses of the longer statements -/

section Clauses

set_option maxRecDepth 20000

theorem witness_PlainWriteFollowsAccessCodes_armed : commitArmed .tsu (putCommit .tsu { status := 1, armed := some (0, 0) } State.reset) = true := by decide
theorem witness_UndefinedOffsetIsLoggedAndIgnored_owned : ownerRefuses .b .prt (putOwner .prt ⟨1, 0⟩ State.reset) = true ∧
    blockOfPage ((blockBase .prt + 0xFC) / 0x1000) = some .prt ∧ ownerExempt .prt (blockBase .prt + 0xFC) = false := by decide

/-- A reset device whose PRS channel 3 drains for a per-block reset. -/
def resetting : State := modTgt ⟨.prs, some 3⟩ (fun x => { x with st := .draining, resetBusy := true }) State.reset
theorem witness_DrainsEndInOff_resetEnds : 1 < chanCount .prs ∧ 3 < chanCount .prs ∧ resettable .prs = true ∧ (tgt ⟨.prs, some 3⟩ resetting).st = .draining ∧
    (tgt ⟨.prs, some 3⟩ resetting).resetBusy = true ∧ (tgt ⟨.prs, none⟩ resetting).resetBusy = false ∧
    drainReady ⟨.prs, some 3⟩ (drainFrees ⟨.prs, some 3⟩ resetting) = true := by decide
/-- A reset device whose DSP channel 1 drains for a per-block reset with an item in it. -/
def resettingDsp : State := modTgt ⟨.dsp, some 1⟩ (fun x => { x with st := .draining, resetBusy := true }) (oneItem {})
theorem witness_DrainsEndInOff_resetForced : 1 < chanCount .dsp ∧ resettable .dsp = true ∧ (tgt ⟨.dsp, some 1⟩ resettingDsp).st = .draining ∧
    (tgt ⟨.dsp, some 1⟩ resettingDsp).resetBusy = true ∧ (tgt ⟨.dsp, none⟩ resettingDsp).resetBusy = false ∧
    drainReady ⟨.dsp, some 1⟩ resettingDsp = false := by decide
/-- A reset device whose window H has all of PRS selected. -/
def wholePrs (st : TState) : State := modTgt ⟨.prs, some 3⟩ (fun x => { x with st := st }) (putLatch .h .prs { whole := true } State.reset)
theorem witness_DrainsEndInOff_writes : wordField (0x1101 : Word) 8 8 ≠ 0xA5 ∧ resettable .sys = false ∧ resetBusy ⟨.prs, some 3⟩ resetting = true ∧
    rd rstWarmCtl_busy (wr rstWarmCtl_busy 1 State.reset) ≠ 0 ∧ ({ State.reset with pwr := { State.reset.pwr with perstLow := true } } : State).pwr.perstLow = true ∧
    wordField (0xA503 : Word) 1 1 = 1 ∧ (tgt ⟨.prs, some 0⟩ (modTgt ⟨.prs, some 0⟩ (fun x => { x with st := .on }) State.reset)).st = .on ∧
    selTarget .h .prs (wholePrs .off) = ⟨.prs, none⟩ ∧ Admits .h .prs (wholePrs .off) ∧ tgtFused (selTarget .h .prs (wholePrs .off)) (wholePrs .off) = false ∧
    (∀ x ∈ targetsOf .prs, (tgt x (wholePrs .off)).st = .off) ∧ ⟨.prs, some 3⟩ ∈ targetsOf .prs ∧ (tgt ⟨.prs, some 3⟩ (wholePrs .on)).st = .on := by decide

/-- A reset device in which buffer pool 0 reserves `n` buffers for requester 1. -/
def reserving (n : Nat) : State := { State.reset with fab := { State.reset.fab with live := (wrX bpmReqReserve_count 0 1 n State.reset).fab.regs } }
theorem witness_CommitMovesTheShadowSet_buffers : (8193 : Int) ≤ sharedFree 0 State.reset ∧ sharedFree 0 (reserving 400000) < 8193 ∧
    rdX bpmLowWater_level 0 0 (wrX bpmLowWater_level 0 0 8193 (reserving 400000)) = 8193 ∧
    sharedFree 0 (reserving 400000) < (cf swcGuard_guard (reserving 400000) : Int) ∧ (reserving 400000).sw.guardLow = false := by decide

theorem witness_ForcedSourcesAndClearedCauses_global : globalSrc ⟨firstG .tmg + 2, 0⟩ .tmg = true ∧ 2 < causeCount .tmg ∧
    globalSrc ⟨firstG .prt, 0⟩ .prt = false ∧ globalCause .prt 0 = false := by decide

theorem witness_PerstWarmResetAndLaneClocks_ring : ringRuns 0 { State.reset with pwr := { State.reset.pwr with perstLow := false } } = false := by decide

/-- A record of code 5. -/
def lateRec : Rec := { code := 5 }
theorem witness_RecordsGoFromOfferToRing_tokens : limitedCode 5 = true ∧ tokensUsed (bucketOf 5) State.reset < bucketBurst (bucketOf 5) State.reset ∧
    State.reset.fw.fusing = none ∧ tokensUsed (bucketOf 5) { State.reset with tmk := { State.reset.tmk with supp := [(bucketOf 5, 2)], latest := [(bucketOf 5, lateRec)] } } = 0 ∧
    sget (fun _ => 0) [(bucketOf 5, 2)] (bucketOf 5) ≠ 0 ∧ [(bucketOf 5, lateRec)].find? (fun x => x.1 == bucketOf 5) = some (bucketOf 5, lateRec) := by decide

theorem witness_RingRecordsReachFlash_erase : ({ oneRecord with tmk := { oneRecord.tmk with flashPos := 512 } } : State).tmk.flashPos % 1024 = 512 ∧
    oneRecord.tmk.flashPos % 1024 ≠ 512 ∧ State.reset.tmk.noFlash = false ∧ ({ State.reset with tmk := { State.reset.tmk with noFlash := true } } : State).tmk.noFlash = true := by decide
theorem witness_RingRecordsReachFlash_passedOver : 0 < seqDiff 1 ((State.reset.tmk.flushSeq + 1) % 2 ^ 32) ∧
    ¬ (recComplete (slotWords ringDefault [] 0) = true ∧ (slotWords ringDefault [] 0).getD 0 0 = BitVec.ofNat 32 0) := by decide

/-- A reset device with PCN ON, whose counter 7 samples the gauge of the flow cache. -/
def levelDevice : State := let s := modTgt ⟨.pcn, none⟩ (fun x => { x with st := .on }) State.reset
  { s with fab := { s.fab with live := (wrC pcnCntCfg_mode 7 4 (wrC pcnCntCfg_src 7 0x3000 s)).fab.regs } }
theorem witness_CountersFreezeAndHistogramsSnap_gauge : levelCounters levelDevice = [(7, 0x3000)] ∧ cfC pcnCntCfg_mode 7 levelDevice = 4 ∧ blockOn .pcn levelDevice = true ∧
    edgeCounters pcnCntWrap.num levelDevice = [] ∧ gaugeValue 0x3000 levelDevice = 0 ∧
    gaugeValue 0x3000 { levelDevice with flow := { levelDevice.flow with cache := [{ recIndex := 1, bucket := 0, digest := 0, pos := 0, data := [] }] } } = 1 ∧
    2 ^ 64 ≤ sget (fun _ => 0) [(pcnKey 7, 2 ^ 64 - 1)] (pcnKey 7) + 1 := by decide

theorem witness_StartupStepsAndLoads_restart : startStep (wr cfgStartState_step 8 State.reset) = 8 ∧
    ({ State.reset with start := { State.reset.start with restart := true } } : State).start.restart = true ∧ copyGood { State.reset with fw := { State.reset.fw with badCopies := [0] } } = false := by
  refine ⟨by decide, rfl, ?_⟩
  unfold copyGood
  exact Bool.and_false _

theorem witness_PortsFaultRiseAndFlap_persist : ∀ k ∈ portLanes 3 portOn, portOfLane k portOn = some 3 := by decide

/-- A reset device with the switch ON. -/
def swcOn (s : State) : State := modTgt ⟨.swc, none⟩ (fun x => { x with st := .on }) s
theorem witness_FramesArriveAndAreParsed_cells : blockOn .swc (swcOn portOn) = true ∧ beAt (List.replicate 60 0) 12 2 ≠ 0x8808 ∧
    (growCells (newFrame (arrivingFrame 3 0 (List.replicate 60 0) 64 (swcOn portOn)) (swcOn portOn)).1 60
      (newFrame (arrivingFrame 3 0 (List.replicate 60 0) 64 (swcOn portOn)) (swcOn portOn)).2).1 = true ∧
    (growCells 0 60 (wrX bpmReqUsed_count 0 0 0x7FFFF portOn)).1 = false := by decide
theorem witness_FramesArriveAndAreParsed_tail : (frame 0 (putFrame 0 { live := true } portOn)).twin = none ∧ (frame 0 (putFrame 0 { live := true } portOn)).parsed = false ∧
    (growCells 0 64 (putFrame 0 { live := true } portOn)).1 = true ∧ ({ } : RxPort).cur = none ∧ ({ } : RxPort).counted = false ∧ ({ } : RxPort).late = none ∧
    rxDropCounters 3 1518 64 ([] ++ List.replicate 60 0) .good portOn = [] ∧
    beAt ([] ++ [0,0,0,0,0,0,0,0,0,0,0,0,0x88,0x08]) 12 2 = 0x8808 ∧ versionLive 1 (parseAt 60 true) = true ∧
    itemOfFrame 0 (putFrame 0 { live := true } portOn) = none ∧ (frame 0 (putFrame 0 { live := true } portOn)).ct = false := by decide

/-- A reset device with DSP, its clusters 0 and 1, MCS and engine 16 ON. -/
def dspOn (s : State) : State :=
  [⟨.dsp, none⟩, ⟨.dsp, some 0⟩, ⟨.dsp, some 1⟩, ⟨.mcs, some 1⟩, ⟨.fen, some 16⟩].foldl (fun a t => modTgt t (fun x => { x with st := .on }) a) s
/-- The same with an operation under tag 7 waiting to be admitted. -/
def waitingOp : State := dspOn { State.reset with dsp := { State.reset.dsp with opWait := [{ op := .lostBucket, tag := 7 }] } }
theorem witness_ItemsWaitSelectAndLookUp_admit : waitingOp.dsp.opWait = [{ op := .lostBucket, tag := 7 }] ∧ opAdmits (steerTo (7 % 4096) waitingOp) 7 waitingOp = true := by decide
theorem witness_ItemsWaitSelectAndLookUp_select : oldestOf 1 0 (oneItem {}) = some {} ∧ lookupRoom 1 (oneItem { cls := 6 }) = true ∧
    [7, 6, 5].findSome? (fun k => oldestOf 1 k (oneItem { cls := 6 })) = some { cls := 6 } ∧
    [7, 6, 5].findSome? (fun k => oldestOf 1 k (oneItem {})) = none ∧ (weightedNext 1 (oneItem {})).map (fun x => cyclePlace x.1) = some 0 ∧
    weightedNext 1 (oneItem { stage := .staged }) = none ∧ oldestOf 1 8 (oneItem { op := .lostBucket }) = some { op := .lostBucket } ∧
    ownOp {} State.reset = none := by decide
theorem witness_ItemsWaitSelectAndLookUp_fill : chanOn .mcs 1 (dspOn (oneItem { stage := .staged })) = true ∧
    nextStaged 1 (dspOn (oneItem { stage := .staged })) = some { stage := .staged } ∧ chooseEngine 1 (dspOn (oneItem { stage := .staged })) = some 0 ∧
    nextStaged 1 (oneItem {}) = none ∧ chooseEngine 1 State.reset = none ∧ chanOn .mcs 1 State.reset = false := by decide
/-- A reset device with record 3 in overflow place 0, position 4, under an owner-map entry 0 that gives away or purges. -/
def leavingRecord (x : OwnEntry) : State := putOvf 0 (mkSlot 9 3 5 1 0 0) (putOwn 0 x State.reset)
theorem witness_ItemsWaitSelectAndLookUp_evict : slLive (placeAt 0 4 (leavingRecord { purge := true })) = true ∧ slRec (placeAt 0 4 (leavingRecord { purge := true })) = 3 ∧
    (ownEntry (0 % 4096) (leavingRecord { purge := true })).giving = false ∧ (ownEntry (0 % 4096) (leavingRecord { purge := true })).purge = true ∧
    (ownEntry (0 % 4096) (leavingRecord { giving := true })).giving = true ∧ slLive (placeAt 0 0 State.reset) = false := by decide
theorem witness_ItemsWaitSelectAndLookUp_lookup : blockOn .fch State.reset = false ∧ ({ status := 0 } : Item).status = 0 ∧ lineOf 3 State.reset = none ∧
    (oneItem {}).dsp.out.contains 1 = false := by decide

theorem witness_EnginesStartRunCheckAndEnd_word : (memSlice 0).kind ≠ 4 ∧ windowFaults (memSlice 0) freshRunOf = false ∧
    nextOf (seqSlice 0) freshRunOf {} {} = .to 1 [] ∧ nextOf (seqSlice 7) freshRunOf {} {} = .finish 0 false ∧
    nextOf (seqSlice 5) freshRunOf {} {} = .stackFault ∧ freshRunOf.maxWords ≤ freshRunOf.words + 1 ∧
    ({ freshRunOf with maxWords := 9 } : Run).words + 1 < 9 ∧ 0 < bankWords 1 0 (putStore 1 { count0 := 2 } State.reset) ∧
    badWord 1 = true ∧ (store 1 State.reset).failed.contains (wordPlace 0 0) = false ∧ goldenReadable 1 0 State.reset = true ∧ freshRunOf.retry = false := by decide
theorem witness_EnginesStartRunCheckAndEnd_verdict : (checkVerdict 16 2 freshRunOf {} State.reset).1 = 2 ∧ rewrites freshRunOf = false ∧
    ({ cancel := some 1 } : Item).cancel.isSome = true ∧ (aluSlice exampleWord 1).op ≠ 0 := by decide
theorem witness_EnginesStartRunCheckAndEnd_reload : markedWord 1 0 0 (putStore 1 { marked := [0] } (oneRun { freshRunOf with reload := true })) = true ∧
    (engine 16 (oneRun { freshRunOf with reload := true })).run = some { freshRunOf with reload := true } ∧ freshRunOf.failedWord = wordPlace 0 0 := by decide

theorem witness_SteeringMovesUnderFences_opens : chanOn .dsp 1 (oneFence { phase := 1, new := 1 }) = true ∧ (oneFence { phase := 1, new := 1 }).dsp.out.contains 0 = false ∧
    (oneFence { phase := 2 }).dsp.back.contains 7 = false ∧ (oneFence { phase := 2 }).dsp.rewriting = false ∧
    itemsOfEntry 1 7 (oneItem { tag := 7 }) = [{ tag := 7 }] ∧ itemAt 1 0 (oneItem { tag := 7 }) = some { tag := 7 } ∧
    (frame 0 (putFrame 0 { live := true, complete := true } (oneItem { tag := 7 }))).complete = true := by decide

/-- A reset device with frame 5, of one cell, queued from group 1 to destination 2, class 3. -/
def oneCell : State := putFrame 5 { live := true, complete := true, bytes := List.replicate 60 0, len := 64, dest := 2, cls := 3, inVoq := true, cells := [0] }
  { State.reset with sw := { State.reset.sw with voq := [(voqKey 1 2 3, [5])] } }
theorem witness_CellsCrossReturnAndAge_cross : voqAt 1 2 3 oneCell = [5] ∧ (frame 5 oneCell).complete = true ∧ (frame 5 oneCell).sent = 0 ∧ (frame 5 oneCell).twin = none ∧
    eligBytes (frame 5 oneCell) = streamLen (frame 5 oneCell) ∧ 0 < streamLen (frame 5 oneCell) ∧ streamLen (frame 5 oneCell) ≤ 240 ∧ upPartner 2 oneCell = none ∧
    0 < credits 2 State.reset := by decide

theorem witness_FramesLeaveTheDevice_plain : hasPtp (frame 0 State.reset) = false ∧ (frame 0 State.reset).inSrc < 256 ∧ (frame 0 State.reset).overTie = false ∧
    (frame 0 State.reset).mirrorCopy = false ∧ ({ fromHost := true } : Frame).fromHost = true ∧
    (mirrorOf { crossings := 2 } (turnedOn ⟨.swc, none⟩ (wr swcMirrorCfg_dest 258))).dest = 258 ∧ (mirrorOf { crossings := 2 } State.reset).crossings = 2 ∧
    (mirrorOf {} State.reset).crossings < 2 ∧ blockOn .swc State.reset = false := by decide

/-- A takeover of list 1 pending at port 3 while list 0, of 1,000 ns with an extension of 900 ns, operates. -/
def takingOver (T : Nat) : State := let s := putList 3 0 { cycle := 1000, count := 1, ext := 900 } (wrC tmgGateStatus_operValid 3 1
    (wrC tmgGateStatus_pending 3 1 (wrC tmgGateStatus_pendingList 3 1 State.reset)))
  { s with egr := { s.egr with takeover := [(3, T)] }, tim := { s.tim with anchorTime := 1000000000 } }
theorem witness_GatesListsAndMeters_takeover : pendTakeover 3 (takingOver 300000000) = some (1, 300000000) ∧ operList 3 (takingOver 300000000) = some 0 ∧
    atOrAfter (timeNow (takingOver 300000000)) 300000000 = true := by decide
theorem witness_GatesListsAndMeters_extended : (extendsTo 3 0 300000000 (takingOver 300000000) = true ∨ extendsTo 3 0 300000000 (takingOver 300000000) = false) ∧
    gateEn 3 (gatesShut State.reset) = true ∧ operList 3 (gatesShut State.reset) = some 0 ∧ gateEn 3 State.reset = false := by decide

theorem witness_BuffersAreHandedOutAndReadBack_free : bitsOf 5 19 3 = 0 ∧ bitsOf 5 0 19 = 5 ∧ 5 < poolCount 0 ∧ 4 < bitsOf (5 * 2 ^ 19) 19 3 ∧ 2 ^ 22 ≤ (2 ^ 22 : Nat) ∧
    bufOwner 0 0 oneBuffer = 40 + 1 ∧ bufOwner 0 0 oneBuffer ≠ retiredMark ∧ bufOwner 0 1 oneBuffer = 0 ∧ State.reset.pools.retireNext.contains (bufKey 0 0) = false := by decide

theorem witness_StationsAreLearnedMovedAndAged_lost : (l2At 524288 (oneStation { valid := true, bad := true } (.retire 0))).bad = true ∧ State.reset.l2.due = [] := by decide

theorem witness_RuleVersionsAreStagedCheckedAndFreed_first : curVersion State.reset = 0 ∧ curVersion twoVersions ≠ 0 := by decide

theorem witness_SystemCommitsRunAcrossTheMesh_prepare : bitmap (others managing) ≠ 0 := by decide
theorem witness_VersionsAreFreedAcrossTheMesh_again : (modSys (fun v => { v with freeing := true }) tiedTo2).mesh.ver.freeing = true ∧ tiedTo2.mesh.ver.freeing = false := by decide

theorem witness_HeartbeatsWatchPeersAndCarryTime_manager : isManager tiedTo2 = false ∧ rd tieMgrEpoch_epoch tiedTo2 < 5 ∧ (5 : Nat) < 2 ^ 32 ∧
    managerOf (wr tieMeshStatus_managerPresent 1 (wr tieMeshStatus_managerId 2 tiedTo2)) = some 2 ∧ bit 0xFF (selfId tiedTo2) = true ∧ bit 0 (selfId tiedTo2) = false ∧
    rd tieMeshStatus_joined tiedTo2 ≠ 1 ∧ draining tiedTo2 = false ∧ rd tieMeshStatus_joined managing = 1 := by decide

theorem witness_TieLinksAgreeAndCarryFrames_epoch : capRefusal 2 { goodCap with strapRole := 1 } (wr sysStrapSample_role 1 managing) = some 5 ∧ (tieLink 2 State.reset).peerOk = false ∧
    goodCap.epoch ≤ rd tieMgrEpoch_epoch State.reset ∧ isManager managing = true ∧ (tieLink 2 State.reset).got.length < 15 := by decide
set_option maxRecDepth 100000 in
theorem witness_TieLinksAgreeAndCarryFrames_block : (tieLink 2 (modTieLink 2 (fun x => { x with got := List.replicate 15 (some []) }) tiedTo2)).got.length = 15 ∧
    rsDecode (fromLanes 15 [[], [], [], []]) = some (List.replicate 238 0, 0) ∧ rsDecode (fromLanes 0 [[], [], [], []]) = some (List.replicate 238 0, 0) := by decide +kernel

theorem witness_FlowRecordsAgeRetireAndExport_retire : exportRoom State.reset = true ∧ cf fltExportCfg_dest State.reset ≠ 0 ∧
    cf fltExportCfg_dest (turnedOn ⟨.flt, none⟩ (wr fltExportCfg_dest 0)) = 0 ∧ blockOn .flt (turnedOn ⟨.flt, none⟩ id) = true := by decide
theorem witness_FlowRecordsAgeRetireAndExport_full :
    exportRoom { State.reset with flow := { State.reset.flow with exportQ := List.replicate 8192 (1, []) } } = false := by decide +kernel

/-- A reset device with record 3 in overflow place 0 of bucket 0. -/
def oneStored : State := putOvf 0 (mkSlot 9 3 5 1 0 0) State.reset
theorem witness_CommandRingsActOnRecords_place : byIndex 2 = true ∧ byIndex 1 = false ∧ findPlace 0 3 oneStored = some 4 ∧ findPlace 0 4 oneStored = none ∧
    recordLost 3 .none oneStored = false ∧ cachedLine 3 State.reset = none ∧ ([(0, 5)] : List (Nat × Nat)).contains (0, 5) = true ∧ State.reset.flow.abandoned = [] := by decide

theorem witness_ScrubbersAndRecoveryAct_regions : 0 < bucketBase State.reset ∧ bucketBase State.reset < reservedBase State.reset ∧
    reservedBase State.reset + 0x12000000 ≤ hbmInUse State.reset ∧ lineLocked 3 State.reset = false ∧ placeOf 3 oneStored ≠ none ∧
    (tgt ⟨.hbm, some 1⟩ State.reset).st ≠ .fault ∧ Block.prs ≠ .fen := by decide

theorem witness_BenchIsWatchedRestartedAndHandedOver_copy : copyGood { State.reset with fw := { State.reset.fw with image := { State.reset.fw.image with digest := sha384 [] } } } = true := by
  unfold copyGood
  exact (Bool.and_eq_true _ _).mpr ⟨decide_eq_true rfl, rfl⟩
theorem witness_BenchIsWatchedRestartedAndHandedOver_phases : (benchUp (fun f => { f with phase := 9 })).fw.phase = 9 ∧
    (benchUp (fun f => { f with phase := 9 })).fw.emergency = none ∧ (benchUp (fun f => { f with lostEntry := true })).fw.lostEntry = true ∧
    (benchUp id).fw.lostEntry = false ∧ (benchUp (fun f => { f with phase := 3, emergency := some 1 })).fw.emergency = some 1 := by decide

theorem witness_MailboxServicesAnswer_exclusive : inService 1 (benchUp (fun f => { f with phase := 4 })) = true ∧ inService 1 (benchUp id) = false ∧
    exclusive 0x105 = true ∧ exclusive 0x101 = false ∧ rd hmkStatus_state (benchUp id) = 1 ∧
    mbService (sget (fun _ => []) [(2048, [5, 1])] (2048 + (0 + 0) % 16)) = 0x105 ∧ wordField (1 : Word) 0 11 % 16 = 1 := by decide
theorem witness_MailboxServicesAnswer_reports : (slice [] 0 64 : List Byte).length = 64 ∧ (slice [] 0 256 : List Byte).length = 256 ∧
    mbService ((headEntry 1 (mailed 1 [1, 1])).getD []) = 0x101 ∧ (mailed 1 [5, 1]).fw.dir = [] ∧ rdX hifMboxBaseLo_addr 0 0 (wrX hifMboxBaseLo_addr 0 0 32 State.reset) % 64 ≠ 0 := by decide

theorem witness_FusesAreBlownByService_goesOn : (benchUp (fun f => { f with fusing := some (.enrol true) })).fw.fusing = some (.enrol true) ∧
    (benchUp (fun f => { f with fusing := some (.rollback 0 3) })).fw.rollback + 1 < 3 ∧ (3 : Nat) ≤ (benchUp (fun f => { f with fusing := some (.rollback 0 3), rollback := 2 })).fw.rollback + 1 ∧
    (benchUp id).pwr.railLow = 0 ∧ enrolling (benchUp id).fw = false ∧ enrolling (benchUp (fun f => { f with fusing := some (.enrol true) })).fw = true ∧
    (benchUp (fun f => { f with ownerHash := 5 })).fw.ownerHash ≠ 0 := by decide

theorem witness_TimeIsReadSteppedAndSteered_triggers : rdC timTrigCtl_armed 0 (wrC timTrigCtl_armed 0 1 oneTrigger) = 1 ∧ rdC timTrigCfg_mode 0 oneTrigger = 1 ∧
    atOrAfter 5 (trigStart 0 oneTrigger) = true ∧ trigRuns 0 oneTrigger = true ∧ atOrAfter 0 (trigStart 0 (wrC timTrigStartSecLo_value 0 1 oneTrigger)) = false ∧
    reachedAt 5 (0, 0) = true ∧ reachedAt 0 (1, 0) = false ∧ reachedAt (mkTime 2 0 0) (1, 0) = true := by decide
theorem witness_TimeIsReadSteppedAndSteered_samples : cf timServoStep_stepNs State.reset ≠ 0 ∧
    (cf timServoStep_stepNs State.reset : Int) * 65536 ≤ 2 ^ 60 ∧ (0 : Int) < (cf timServoStep_stepNs State.reset : Int) * 65536 ∧
    cf timServoCfg_stepFirst (turnedOn ⟨.tim, none⟩ (wr timServoCfg_stepFirst 0)) ≠ 1 ∧ State.reset.tim.refLost = false := by decide

theorem witness_PulsesAndTriggersLeaveOnTime_arms : 1000000000 ≤ rdC timTrigStartNs_value 0 (wrC timTrigStartNs_value 0 1000000000 State.reset) ∧
    rdC timTrigStartNs_value 0 oneTrigger < 1000000000 ∧ (armRefused 0 (turnedOn ⟨.tim, some 0⟩ (fun s => wrC timTrigCfg_mode 0 2 (wrC timTrigWidthNs_value 0 8 (wrC timTrigPeriodNs_value 0 100000 (wrC timTrigPeriodFrac_den 0 1 s)))))) = false := by decide

/-- A reset device with L2T and LPM ON and frame 0 without headers. -/
def tables : State := (modTgt ⟨.l2t, none⟩ (fun x => { x with st := .on }) (modTgt ⟨.lpm, none⟩ (fun x => { x with st := .on }) State.reset))
theorem witness_LookupsFollowTheTables_stages : parse (frameProf (frame 0 (parseIn 10 false)) (parseIn 10 false)) ⟨(frame 0 (parseIn 10 false)).bytes, (frame 0 (parseIn 10 false)).len - 4, (frame 0 (parseIn 10 false)).complete⟩ = .wait := by decide
theorem witness_LookupsFollowTheTables_parsed : (match parse (frameProf (frame 0 (parseIn 60 true)) (parseIn 60 true)) ⟨(frame 0 (parseIn 60 true)).bytes, (frame 0 (parseIn 60 true)).len - 4, (frame 0 (parseIn 60 true)).complete⟩ with
    | .done hdrs exc prp => (match classify { frame 0 (parseIn 60 true) with hdrs := hdrs, exc := exc, prp := prp, parsed := true } (parseIn 60 true) with | .act _ _ => true | .poisoned => false)
    | .wait => false) = true := by decide
theorem witness_LookupsFollowTheTables_rules : rulePoisoned { poisoned := [3] } 3 = true ∧ rulePoisoned {} 3 = false := by decide
theorem witness_LookupsFollowTheTables_l2 : blockOn .l2t tables = true ∧ blockOn .lpm tables = true ∧ blockOn .l2t State.reset = false ∧
    l2Find (fidOf {} (putL2 524288 { valid := true, fid := fidOf {} State.reset, drop := true } State.reset)) 0 (putL2 524288 { valid := true, fid := fidOf {} State.reset, drop := true } State.reset) = some 524288 ∧
    cf l2tCfg_missAction State.reset < 2 ∧ routedHdr {} = none ∧ routedHdr { hdrs := [{ code := 7, off := 14 }] } ≠ none := by decide
theorem witness_LookupsFollowTheTables_routes : bit (2 ^ 18) 18 = true ∧ bit 5 18 = false ∧ grValid (ecmpAt 0 State.reset) = false ∧ nhValid (nhAt 0 State.reset) = false ∧
    (lpmLookup 0 false 0 State.reset).1 = none := by decide
theorem witness_LookupsFollowTheTables_decides : ({ complete := true } : Frame).sa = 0 ∧ actDrop 0 = false ∧ actMeterEn 0 = false ∧ actToHost 0 = false ∧ actRecirc 0 = false ∧ actProgram 0 = 0 ∧
    excChoice 0 false {} State.reset = 0 ∧ lacksKey (frame 0 State.reset) State.reset = false ∧
    excPolicy 0 false {} (putHalf (frameVer {}) { cfg := [(rkey prsExcPolicy_plain0.off 0, 0x21)] } State.reset) = 1 ∧
    excPolicy 1 false {} (putHalf (frameVer {}) { cfg := [(rkey prsExcPolicy_plain0.off 0, 0x21)] } State.reset) = 2 := by decide

end Clauses

end Sys2Proof.Tests
end

section
/-! PROOFS. An access where no register stands (R106, with R116 for a write in a block that OWNER closes): which state it leaves, and what
of the state before it differs there. -/

namespace Sys2Proof.Machine

/-! ### Such an access is refused -/

/-- The block of a write's page, if OWNER closes it to the window and the offset is not one of those that OWNER never refuses (R116). -/
def closedBlock (w : Window) (off : Nat) (s : State) : Option Block :=
  (blockOfPage (off / 0x1000)).filter (fun b => ownerRefuses w b s && !ownerExempt b off)

theorem closedBlock_eq_some_iff {w : Window} {off : Nat} {s : State} {b : Block} :
    closedBlock w off s = some b ↔
      blockOfPage (off / 0x1000) = some b ∧ ownerRefuses w b s = true ∧ ownerExempt b off = false := by
  simp [closedBlock, Option.filter_eq_some_iff]

theorem closedBlock_of_page {w : Window} {off : Nat} {s : State} {b : Block} (hb : blockOfPage (off / 0x1000) = some b) :
    closedBlock w off s = if ownerRefuses w b s && !ownerExempt b off then some b else none := by
  rw [closedBlock, hb, Option.filter_some]

/-- What an access that R106 refuses leaves: a read returns zero, and a write of a closed block is denied too. -/
def refusedAccess (w : Window) (off : Nat) (write : Bool) (s : State) : State :=
  if write then
    match closedBlock w off s with
    | some b => ownerDenied b (accessError w off true s)
    | none => accessError w off true s
  else readNothing w off s

theorem refusedAccess_read (w : Window) (off : Nat) (s : State) : refusedAccess w off false s = putRead w 0 (accessError w off false s) := rfl

theorem refusedAccess_write_closed {w : Window} {off : Nat} {s : State} {b : Block} (h : closedBlock w off s = some b) :
    refusedAccess w off true s = ownerDenied b (accessError w off true s) := by
  simp [refusedAccess, h]

theorem refusedAccess_write_open {w : Window} {off : Nat} {s : State} (h : closedBlock w off s = none) :
    refusedAccess w off true s = accessError w off true s := by
  simp [refusedAccess, h]

theorem accessError_eq_refusedAccess {w : Window} {off : Nat} {s : State} (hb : blockOfPage (off / 0x1000) = none) :
    accessError w off true s = refusedAccess w off true s :=
  (refusedAccess_write_open (by simp [closedBlock, hb])).symm

theorem badWrite_eq_refusedAccess {w : Window} {off : Nat} {s : State} {b : Block} (hb : blockOfPage (off / 0x1000) = some b) :
    badWrite w b off s = refusedAccess w off true s := by
  unfold badWrite
  dsimp only
  split
  · next hc => exact (refusedAccess_write_closed (by rw [closedBlock_of_page hb, if_pos hc])).symm
  · next hc => exact (refusedAccess_write_open (by rw [closedBlock_of_page hb, if_neg hc])).symm

theorem blockBase_le_of_blockOfPage {off : Nat} {b : Block} (h : blockOfPage (off / 0x1000) = some b) : blockBase b ≤ off := by
  unfold blockOfPage at h
  have hp := List.find?_some h
  rw [decide_eq_true_eq] at hp
  unfold blockBase
  omega

/-- Within a block's pages there are three kinds of offsets without a register: the MSI-X range through window B, a reserved offset of the
header, and a reserved offset above it. -/
theorem noRegister_cases {w : Window} {off : Nat} {s : State} {b : Block} (h : noRegister w off s = true)
    (hb : blockOfPage (off / 0x1000) = some b) :
    ((b = .hif ∧ 0x3C800 ≤ off ∧ off < 0x3CC08) ∧ w = .b) ∨
    (¬ (b = .hif ∧ 0x3C800 ≤ off ∧ off < 0x3CC08) ∧ off < blockBase b + 0x80 ∧ headerWord w b (off - blockBase b) s = none) ∨
    (¬ (b = .hif ∧ 0x3C800 ≤ off ∧ off < 0x3CC08) ∧ ¬ off < blockBase b + 0x80 ∧ pendAt b off = none ∧ findReg off = none) := by
  simp only [noRegister, hb] at h
  split at h
  · next hm => exact Or.inl ⟨hm, of_decide_eq_true h⟩
  · next hm =>
    split at h
    · next hh => exact Or.inr (Or.inl ⟨hm, hh, Option.isNone_iff_eq_none.1 h⟩)
    · next hh =>
      rw [Bool.and_eq_true, Option.isNone_iff_eq_none, Option.isNone_iff_eq_none] at h
      exact Or.inr (Or.inr ⟨hm, hh, h⟩)

theorem readAt_of_noRegister {w : Window} {off : Nat} {s : State} (h : noRegister w off s = true) :
    readAt w off s = refusedAccess w off false s := by
  show readAt w off s = readNothing w off s
  unfold readAt
  cases hb : blockOfPage (off / 0x1000) with
  | none => rfl
  | some b =>
    rcases noRegister_cases h hb with ⟨hm, hw⟩ | ⟨hm, hh, hv⟩ | ⟨hm, hh, hp, hf⟩
    · simp [hm, hw]
    · simp [hm, hh, hv]
    · simp [hm, hh, hp, hf]

theorem writeAt_of_noRegister {w : Window} {off : Nat} {v : Word} {s : State} (hr : reachable w s = true)
    (h : noRegister w off s = true) : writeAt w off v s = refusedAccess w off true s := by
  unfold writeAt
  cases hb : blockOfPage (off / 0x1000) with
  | none => simp [onlyIf, hr, accessError_eq_refusedAccess hb]
  | some b =>
    rcases noRegister_cases h hb with ⟨hm, hw⟩ | ⟨hm, hh, hv⟩ | ⟨hm, hh, hp, hf⟩
    · obtain rfl := hm.1
      rw [hw] at hr
      simp [hm, hw, msixWrite, onlyIf, hr, badWrite_eq_refusedAccess hb]
    · have hbase : blockBase b + (off - blockBase b) = off := Nat.add_sub_cancel' (blockBase_le_of_blockOfPage hb)
      simp [hm, hh, headerAccess, hv, hbase, onlyIf, hr, badWrite_eq_refusedAccess hb]
    · simp [hm, hh, hp, hf, onlyIf, hr, badWrite_eq_refusedAccess hb]

theorem accessAt_of_noRegister {w : Window} {off be : Nat} {write : Bool} {v : Word} {s : State} (hr : reachable w s = true)
    (h : noRegister w off s = true) : accessAt w off be write v s = refusedAccess w off write s := by
  unfold accessAt
  cases write with
  | false => simp [reading, hr, readAt_of_noRegister h]
  | true =>
    by_cases hbe : be = 15
    · simp [hbe, writeAt_of_noRegister hr h]
    · cases hb : blockOfPage (off / 0x1000) with
      | none => simp [hbe, onlyIf, hr, accessError_eq_refusedAccess hb]
      | some b => simp [hbe, onlyIf, hr, badWrite_eq_refusedAccess hb]

/-- CFG.LOAD_CTL is a register, so the write that starts a load is none of these accesses. -/
theorem noRegister_loadCtl (w : Window) (s : State) : noRegister w cfgLoadCtl_go.off s = false := rfl

theorem exec_registerWrite_of_noRegister {w : Window} {off be : Nat} {write : Bool} {v : Word} {s : State} (ho : off < 0x40000)
    (ha : off % 4 = 0) (hr : reachable w s = true) (h : noRegister w off s = true) :
    exec (.registerWrite w off be write v) s = .next (refusedAccess w off write s) := by
  have hl : off ≠ cfgLoadCtl_go.off := fun e => by simp [e, noRegister_loadCtl] at h
  show execRegisterWrite w off be write v s = _
  simp [execRegisterWrite, guarded, registerAccess, ho, ha, hl, accessAt_of_noRegister hr h]

/-! ### The access log -/

/-- EVT.ACCESS_LOG takes an access. -/
def logAccess (w : Window) (off : Nat) (write : Bool) (s : State) : State :=
  wr evtAccessLog_valid 1 (wr evtAccessLog_write (b2n write) (wr evtAccessLog_window (logWindow w) (wr evtAccessLog_offset off s)))

/-- The key of EVT.ACCESS_LOG, if the log is empty. -/
abbrev openLogKey (s : State) : List Nat := if rd evtAccessLog_valid s = 0 then [keyOfField evtAccessLog_valid 0 0] else []

/-- The log holds an access (R106). -/
def Logged (w : Window) (off : Nat) (write : Bool) (t : State) : Prop :=
  rd evtAccessLog_valid t = 1 ∧ rd evtAccessLog_offset t = off ∧
    rd evtAccessLog_window t = (if w = .h then 0 else 1) ∧ rd evtAccessLog_write t = (if write then 1 else 0)

theorem accessError_of_full {w : Window} {off : Nat} {write : Bool} {s : State} (hw : w = .h ∨ w = .b)
    (hv : rd evtAccessLog_valid s ≠ 0) : accessError w off write s = raise evtAccessError s := by
  have hlt : rd evtAccessLog_valid s < 2 := rdX_lt evtAccessLog_valid 0 0 s
  have h1 : rd evtAccessLog_valid s = 1 := by omega
  rcases hw with rfl | rfl <;> simp [accessError, h1]

theorem accessError_of_empty {w : Window} {off : Nat} {write : Bool} {s : State} (hw : w = .h ∨ w = .b)
    (hv : rd evtAccessLog_valid s = 0) : accessError w off write s = raise evtAccessError (logAccess w off write s) := by
  rcases hw with rfl | rfl <;> simp [accessError, logAccess, hv]

theorem logAccess_changes (w : Window) (off : Nat) (write : Bool) (s : State) :
    Changes [keyOfField evtAccessLog_valid 0 0] [] s (logAccess w off write s) :=
  (((wr_changes evtAccessLog_offset _ s (by decide)).trans (wr_changes evtAccessLog_window _ _ (by decide))).trans
    (wr_changes evtAccessLog_write _ _ (by decide))).trans (wr_changes evtAccessLog_valid _ _ (by decide))

theorem logAccess_logged {w : Window} {off : Nat} (write : Bool) (s : State) (hw : w = .h ∨ w = .b) (ho : off < 0x40000) :
    Logged w off write (logAccess w off write s) := by
  unfold Logged logAccess
  refine ⟨rd_wr_same _ _ _ (by decide), ?_, ?_, ?_⟩
  · rw [rd_wr_other _ _ (by decide), rd_wr_other _ _ (by decide), rd_wr_other _ _ (by decide), rd_wr_same _ _ _ (by decide)]
    exact Nat.mod_eq_of_lt ho
  · rw [rd_wr_other _ _ (by decide), rd_wr_other _ _ (by decide), rd_wr_same _ _ _ (by decide)]
    rcases hw with rfl | rfl <;> rfl
  · rw [rd_wr_other _ _ (by decide), rd_wr_same _ _ _ (by decide)]
    cases write <;> rfl

theorem Logged.events {w : Window} {off : Nat} {write : Bool} {s t : State} (h : Logged w off write s) (k : OnlyEvents s t) :
    Logged w off write t := by
  have hk (f : Fld) (hf : ¬ StatKey (keyOfField f 0 0)) : rd f t = rd f s := k.rdX hf
  unfold Logged
  rwa [hk _ (by decide), hk _ (by decide), hk _ (by decide), hk _ (by decide)]

theorem accessError_logged {w : Window} {off : Nat} (write : Bool) {s : State} (hw : w = .h ∨ w = .b) (ho : off < 0x40000)
    (hv : rd evtAccessLog_valid s = 0) : Logged w off write (accessError w off write s) := by
  rw [accessError_of_empty hw hv]
  exact (logAccess_logged write s hw ho).events (raise_onlyEvents _ _)

theorem accessError_changes {w : Window} (off : Nat) (write : Bool) (s : State) (hw : w = .h ∨ w = .b) :
    Changes (openLogKey s) [] s (accessError w off write s) := by
  by_cases hv : rd evtAccessLog_valid s = 0
  · rw [accessError_of_empty hw hv, openLogKey, if_pos hv]
    exact (logAccess_changes w off write s).events (raise_onlyEvents _ _)
  · rw [accessError_of_full hw hv]
    exact (raise_onlyEvents _ _).changes

/-! ### Locks -/

theorem ownerOf_congr {s t : State} (h : t.fab.owners = s.fab.owners) (b : Block) : ownerOf b t = ownerOf b s := by
  unfold ownerOf
  rw [h]

theorem ownerOf_putOwner_other {b b' : Block} (o : OwnerSt) (s : State) (h : b' ≠ b) : ownerOf b' (putOwner b o s) = ownerOf b' s := by
  unfold ownerOf putOwner
  rw [sget_sset_other _ _ _ (fun e => h (blockCode_inj e))]

/-- A new denied count stands beside the owner that was read, also in HMK, whose owner is fixed (R536). -/
theorem ownerOf_putOwner_denied (b : Block) (n : Nat) (s : State) :
    ownerOf b (putOwner b { ownerOf b s with denied := n } s) = ⟨(ownerOf b s).owner, n⟩ := by
  by_cases hb : b = .hmk <;> simp [ownerOf, putOwner, sget_sset_same, hb]

theorem ownerOf_ownerDenied_same (b : Block) (s : State) :
    ownerOf b (ownerDenied b s) = ⟨(ownerOf b s).owner, satAdd (ownerOf b s).denied 1 255⟩ :=
  (ownerOf_congr (raise_onlyEvents _ _).owners b).trans (ownerOf_putOwner_denied b _ s)

theorem ownerOf_ownerDenied_other {b b' : Block} (s : State) (h : b' ≠ b) : ownerOf b' (ownerDenied b s) = ownerOf b' s :=
  (ownerOf_congr (raise_onlyEvents _ _).owners b').trans (ownerOf_putOwner_other _ s h)

theorem ownerDenied_asserted (b : Block) (s : State) : Asserted evtOwnerDenied (ownerDenied b s) := raise_asserted _ (by decide)

/-! ### What differs beside read data and locks -/

/-- `t` is `s` but for the registers with the keys `ks`, what assertions change, what the windows last read, and the locks. -/
def AccessChanges (ks : List Nat) (s t : State) : Prop :=
  Changes ks [] { s with fab := { s.fab with rdH := t.fab.rdH, rdB := t.fab.rdB, owners := t.fab.owners } } t

/-- Read data and locks set on both sides. -/
theorem Changes.with_access {ks cs : List Nat} {s t : State} (h : Changes ks cs s t) (x y : Word) (o : Sparse OwnerSt) :
    Changes ks cs { s with fab := { s.fab with rdH := x, rdB := y, owners := o } }
      { t with fab := { t.fab with rdH := x, rdB := y, owners := o } } :=
  ⟨congrArg (fun u : State => { u with fab := { u.fab with rdH := x, rdB := y, owners := o } }) h.rest, h.regs, h.counters, h.causes,
   h.control, h.stage, h.out⟩

theorem Changes.rdH {ks cs : List Nat} {s t : State} (h : Changes ks cs s t) : t.fab.rdH = s.fab.rdH := congrArg (fun s => s.fab.rdH) h.rest
theorem Changes.rdB {ks cs : List Nat} {s t : State} (h : Changes ks cs s t) : t.fab.rdB = s.fab.rdB := congrArg (fun s => s.fab.rdB) h.rest

theorem Changes.access {ks : List Nat} {s t : State} (h : Changes ks [] s t) : AccessChanges ks s t := h.with_access _ _ _

theorem AccessChanges.events {ks : List Nat} {s t u : State} (h : AccessChanges ks s t) (k : OnlyEvents t u) : AccessChanges ks s u := by
  unfold AccessChanges
  rw [k.rdH, k.rdB, k.owners]
  exact Changes.events h k

theorem AccessChanges.with_access {ks : List Nat} {s t : State} (h : AccessChanges ks s t) (x y : Word) (o : Sparse OwnerSt) :
    AccessChanges ks s { t with fab := { t.fab with rdH := x, rdB := y, owners := o } } := Changes.with_access h x y o

/-! ### The refused access -/

/-- What `accessError` establishes stands after the refused access, if read data and locks do not bear on it and events keep it. -/
theorem refusedAccess_after {P : State → Prop} {w : Window} {off : Nat} {write : Bool} {s : State} (hw : w = .h ∨ w = .b)
    (h : P (accessError w off write s))
    (hset : ∀ a x y o, P a → P { a with fab := { a.fab with rdH := x, rdB := y, owners := o } })
    (hev : ∀ a t, OnlyEvents a t → P a → P t) : P (refusedAccess w off write s) := by
  cases write with
  | false =>
    rw [refusedAccess_read]
    rcases hw with rfl | rfl <;> exact hset _ _ _ _ h
  | true =>
    cases hc : closedBlock w off s with
    | none => rwa [refusedAccess_write_open hc]
    | some b =>
      rw [refusedAccess_write_closed hc]
      exact hev (putOwner b _ _) _ (raise_onlyEvents _ _) (hset _ _ _ _ h)

theorem refusedAccess_asserted {w : Window} (off : Nat) (write : Bool) (s : State) (hw : w = .h ∨ w = .b) :
    Asserted evtAccessError (refusedAccess w off write s) :=
  refusedAccess_after hw (accessError_asserted off write s hw) (fun _ _ _ _ h => h) (fun _ _ k => k.causes evtAccessError)

theorem refusedAccess_logged {w : Window} {off : Nat} (write : Bool) {s : State} (hw : w = .h ∨ w = .b) (ho : off < 0x40000)
    (hv : rd evtAccessLog_valid s = 0) : Logged w off write (refusedAccess w off write s) :=
  refusedAccess_after hw (accessError_logged write hw ho hv) (fun _ _ _ _ h => h) (fun _ _ k h => h.events k)

theorem refusedAccess_changes {w : Window} (off : Nat) (write : Bool) (s : State) (hw : w = .h ∨ w = .b) :
    AccessChanges (openLogKey s) s (refusedAccess w off write s) :=
  refusedAccess_after hw (accessError_changes off write s hw).access (fun _ _ _ _ h => h.with_access _ _ _) (fun _ _ k h => h.events k)

theorem lastRead_putRead (w : Window) (v : Word) (s : State) : lastRead w (putRead w v s) = v := by cases w <;> rfl

theorem ownerOf_putRead (w : Window) (v : Word) (s : State) (b : Block) : ownerOf b (putRead w v s) = ownerOf b s := by cases w <;> rfl

theorem ownerOf_accessError {w : Window} (off : Nat) (write : Bool) (s : State) (hw : w = .h ∨ w = .b) (b : Block) :
    ownerOf b (accessError w off write s) = ownerOf b s :=
  ownerOf_congr (accessError_changes off write s hw).owners b

/-- A write in a closed block counts in that block's lock (R116). -/
theorem refusedAccess_denied {w : Window} {off : Nat} {s : State} {b : Block} (hw : w = .h ∨ w = .b) (hc : closedBlock w off s = some b) :
    ownerOf b (refusedAccess w off true s) = ⟨(ownerOf b s).owner, satAdd (ownerOf b s).denied 1 255⟩ ∧
      Asserted evtOwnerDenied (refusedAccess w off true s) := by
  rw [refusedAccess_write_closed hc, ownerOf_ownerDenied_same, ownerOf_accessError off true s hw]
  exact ⟨rfl, ownerDenied_asserted b _⟩

theorem ownerOf_refusedAccess_other {w : Window} {off : Nat} {write : Bool} {s : State} {b : Block} (hw : w = .h ∨ w = .b)
    (hn : ¬ (write = true ∧ closedBlock w off s = some b)) : ownerOf b (refusedAccess w off write s) = ownerOf b s := by
  cases write with
  | false => rw [refusedAccess_read, ownerOf_putRead, ownerOf_accessError off false s hw]
  | true =>
    cases hc : closedBlock w off s with
    | none => rw [refusedAccess_write_open hc, ownerOf_accessError off true s hw]
    | some b' =>
      have hb : b ≠ b' := fun e => hn ⟨rfl, e ▸ hc⟩
      rw [refusedAccess_write_closed hc, ownerOf_ownerDenied_other _ hb, ownerOf_accessError off true s hw]

theorem refusedAccess_write_reads {w : Window} (off : Nat) (s : State) (hw : w = .h ∨ w = .b) :
    (refusedAccess w off true s).fab.rdH = s.fab.rdH ∧ (refusedAccess w off true s).fab.rdB = s.fab.rdB := by
  have he := accessError_changes off true s hw
  cases hc : closedBlock w off s with
  | none => rw [refusedAccess_write_open hc]; exact ⟨he.rdH, he.rdB⟩
  | some b =>
    rw [refusedAccess_write_closed hc]
    have hd : OnlyEvents (putOwner b _ (accessError w off true s)) (ownerDenied b (accessError w off true s)) := raise_onlyEvents _ _
    exact ⟨hd.rdH.trans he.rdH, hd.rdB.trans he.rdB⟩

/-- Settles O7: the command leaves `refusedAccess`, whose parts the lemmas above give one by one. -/
theorem undefinedOffsetIsLoggedAndIgnored : Obligations.UndefinedOffsetIsLoggedAndIgnored := by
  unfold Obligations.UndefinedOffsetIsLoggedAndIgnored
  intro w off be write v s hw ho ha hr hn
  refine ⟨refusedAccess w off write s, exec_registerWrite_of_noRegister ho ha hr hn, refusedAccess_asserted off write s hw, ?_,
    refusedAccess_logged write hw ho, fun b => ?_, refusedAccess_changes off write s hw, ?_⟩
  · rintro rfl
    exact lastRead_putRead w 0 _
  · split
    · next hc =>
      obtain ⟨rfl, hb⟩ := hc
      exact refusedAccess_denied hw (closedBlock_eq_some_iff.2 hb)
    · next hc => exact ownerOf_refusedAccess_other hw (fun h => hc (h.imp_right closedBlock_eq_some_iff.1))
  · rintro rfl
    exact refusedAccess_write_reads off s hw

end Sys2Proof.Machine
end

section
/-! PROOFS. Writes of LPM.NODE_DATA_HI that complete no entry of the layout of R239 (R244). -/

namespace Sys2Proof.Machine

/-- The layout of R239: 47 bits, and the children of an entry that has them inside the pool. -/
theorem poolEntryOk_iff {e : Nat} :
    poolEntryOk e = true ↔ e < 2 ^ 47 ∧ (peHasChild e = true → peChild e + 2 ^ peStride e ≤ lpmPoolSize) := by
  cases hc : peHasChild e <;> simp [poolEntryOk, hc]

theorem poolEntryOk_eq_false_of_reserved {e : Nat} (h : 2 ^ 47 ≤ e) : poolEntryOk e = false :=
  Bool.eq_false_of_not_eq_true fun hok => Nat.not_lt.2 h (poolEntryOk_iff.1 hok).1

theorem poolEntryOk_eq_false_of_child {e : Nat} (hc : peHasChild e = true) (h : lpmPoolSize < peChild e + 2 ^ peStride e) :
    poolEntryOk e = false :=
  Bool.eq_false_of_not_eq_true fun hok => Nat.not_le.2 h ((poolEntryOk_iff.1 hok).2 hc)

theorem nodeHiWrite_of_bad_entry {w : Window} {v : Word} {s : State}
    (h : poolEntryOk (rdC lpmNodeDataLo_data (winIdx w) s + v.toNat * 2 ^ 32) = false) :
    nodeHiWrite w v s = accessError w lpmNodeDataHi_data.off true s :=
  if_pos (.inl (by rw [h]; rfl))

theorem exec_nodeDataHiWrite_of_admits {w : Window} {s : State} (ha : Admits w .lpm s) (v : Word) :
    exec (.nodeDataHiWrite w v) s = .next (nodeHiWrite w v s) :=
  congrArg Host.Outcome.next (writing_of_admits ha (nodeHiWrite w v))

/-- Settles O43: either fault of the entry fails `poolEntryOk`, the check that comes before the store. -/
theorem poolEntryWritesOutsideTheLayoutAreIgnored : Obligations.PoolEntryWritesOutsideTheLayoutAreIgnored := by
  unfold Obligations.PoolEntryWritesOutsideTheLayoutAreIgnored
  intro w v e s ha he hbad
  have hno : poolEntryOk e = false := by
    rcases hbad with hreserved | ⟨hchild, hend⟩
    · exact poolEntryOk_eq_false_of_reserved hreserved
    · exact poolEntryOk_eq_false_of_child hchild hend
  subst he
  rw [exec_nodeDataHiWrite_of_admits ha, nodeHiWrite_of_bad_entry hno]

end Sys2Proof.Machine
end

section
/-! PROOFS. What a read of CAPT_SEC_LO takes from the FIFO of a capture input (R462). -/

namespace Sys2Proof.Machine

/-! ### Reads around it -/

/-- In one copy, registers at two offsets share no bits. -/
theorem fieldsApart_of_off_ne {f g : Fld} (c : Nat) (hg : g.ok = true) (h : g.off ≠ f.off) : fieldsApart f 0 c g 0 c = true := by
  have hw : g.lo + g.w ≤ 32 := of_decide_eq_true hg
  have hk : rkey (g.off + 0 * g.stride) c ≠ rkey (f.off + 0 * f.stride) c := by
    unfold rkey; omega
  exact decide_eq_true ⟨hw, .inl hk⟩

@[simp] theorem rdC_putRead (f : Fld) (c : Nat) (w : Window) (v : Word) (s : State) : rdC f c (putRead w v s) = rdC f c s := by
  cases w <;> rfl

@[simp] theorem capt_putRead (k : Nat) (w : Window) (v : Word) (s : State) : capt k (putRead w v s) = capt k s := by cases w <;> rfl

@[simp] theorem capt_wrC (k : Nat) (f : Fld) (c v : Nat) (s : State) : capt k (wrC f c v s) = capt k s := rfl

@[simp] theorem capt_putCapt_same (k : Nat) (x : Capt) (s : State) : capt k (putCapt k x s) = x := sget_sset_same _ _ _ _

/-! ### The snapshot registers -/

/-- CAPT_SEC_HI of an entry: seconds [47:32] and the epoch. -/
def captSecHi (e : CaptEntry) : Nat := secOf e.time / 2 ^ 32 % 65536 + e.epoch * 65536

/-- CAPT_INFO of an entry with `left` entries after it, valid 1. -/
def captInfo (e : CaptEntry) (left : Nat) : Nat :=
  fracOf e.time + b2n e.falling * 2 ^ 16 + b2n e.gap * 2 ^ 17 + left * 2 ^ 24 + 2 ^ 31

/-- The snapshot registers of channel `c` take an entry. -/
def captSnapshot (c : Nat) (e : CaptEntry) (left : Nat) (s : State) : State :=
  wrC timCaptSecLo_value c (secOf e.time) (wrC timCaptSecHi_value c (captSecHi e)
    (wrC timCaptNs_value c (nsOf e.time) (wrC timCaptInfo_value c (captInfo e left) s)))

@[simp] theorem capt_captSnapshot (k c : Nat) (e : CaptEntry) (left : Nat) (s : State) : capt k (captSnapshot c e left s) = capt k s := by
  rw [captSnapshot, capt_wrC, capt_wrC, capt_wrC, capt_wrC]

theorem captSecHi_lt {e : CaptEntry} (h : e.epoch < 65536) : captSecHi e < 2 ^ 32 := by
  unfold captSecHi; omega

theorem nsOf_lt (t : Nat) : nsOf t < 2 ^ 30 := by
  unfold nsOf; omega

theorem captInfo_lt {left : Nat} (e : CaptEntry) (h : left < 64) : captInfo e left < 2 ^ 32 := by
  have hb (b : Bool) : b2n b ≤ 1 := by cases b <;> decide
  have hfalling := hb e.falling
  have hgap := hb e.gap
  unfold captInfo fracOf
  omega

theorem rdC_captSnapshot_secLo (c : Nat) (e : CaptEntry) (left : Nat) (s : State) :
    rdC timCaptSecLo_value c (captSnapshot c e left s) = secOf e.time % 2 ^ 32 := rdC_wrC_same _ _ _ _ rfl

theorem rdC_captSnapshot_secHi {e : CaptEntry} (c left : Nat) (s : State) (h : e.epoch < 65536) :
    rdC timCaptSecHi_value c (captSnapshot c e left s) = captSecHi e := by
  unfold captSnapshot
  rw [rdC_wrC_other _ _ (fieldsApart_of_off_ne c rfl (by decide)), rdC_wrC_same _ _ _ _ rfl]
  exact Nat.mod_eq_of_lt (captSecHi_lt h)

theorem rdC_captSnapshot_ns (c : Nat) (e : CaptEntry) (left : Nat) (s : State) :
    rdC timCaptNs_value c (captSnapshot c e left s) = nsOf e.time := by
  unfold captSnapshot
  rw [rdC_wrC_other _ _ (fieldsApart_of_off_ne c rfl (by decide)), rdC_wrC_other _ _ (fieldsApart_of_off_ne c rfl (by decide)),
    rdC_wrC_same _ _ _ _ rfl]
  exact Nat.mod_eq_of_lt (nsOf_lt e.time)

theorem rdC_captSnapshot_info {left : Nat} (c : Nat) (e : CaptEntry) (s : State) (h : left < 64) :
    rdC timCaptInfo_value c (captSnapshot c e left s) = captInfo e left := by
  unfold captSnapshot
  rw [rdC_wrC_other _ _ (fieldsApart_of_off_ne c rfl (by decide)), rdC_wrC_other _ _ (fieldsApart_of_off_ne c rfl (by decide)),
    rdC_wrC_other _ _ (fieldsApart_of_off_ne c rfl (by decide)), rdC_wrC_same _ _ _ _ rfl]
  exact Nat.mod_eq_of_lt (captInfo_lt e h)

/-! ### The command -/

theorem captPop_of_nil {w : Window} {k : Nat} {s : State} (hc : selChan w .tim s = 8 + k) (hf : (capt k s).fifo = []) :
    captPop w s = putRead w (reg timCaptSecLo_value.off (8 + k) s) (wrC timCaptInfo_value (8 + k) 0 s) := by
  simp [captPop, hc, hf]

theorem captPop_of_cons {w : Window} {k : Nat} {s : State} {e : CaptEntry} {es : List CaptEntry} (hc : selChan w .tim s = 8 + k)
    (hf : (capt k s).fifo = e :: es) :
    captPop w s = putRead w (BitVec.ofNat 32 (secOf e.time))
      (captSnapshot (8 + k) e es.length (putCapt k { capt k s with fifo := es, fullRaised := false } s)) := by
  simp [captPop, captSnapshot, captSecHi, captInfo, hc, hf]

theorem exec_captPop_of_reachable {w : Window} {s : State} (hr : reachable w s = true) : exec (.captPop w) s = .next (captPop w s) :=
  congrArg Host.Outcome.next (if_pos hr)

/-- Settles O59, by whether the input's FIFO holds an entry. -/
theorem aReadTakesTheOldestCapture : Obligations.AReadTakesTheOldestCapture := by
  unfold Obligations.AReadTakesTheOldestCapture
  intro w k s _ hr hc
  constructor
  · intro e es hf hepoch _ hlen
    refine ⟨captPop w s, exec_captPop_of_reachable hr, ?_⟩
    simp only [captPop_of_cons hc hf, rdC_putRead, capt_putRead, capt_captSnapshot, capt_putCapt_same, true_and]
    exact ⟨rdC_captSnapshot_secLo _ e _ _, rdC_captSnapshot_secHi _ _ _ hepoch, rdC_captSnapshot_ns _ e _ _,
      rdC_captSnapshot_info _ e _ hlen⟩
  · intro hf
    refine ⟨captPop w s, exec_captPop_of_reachable hr, ?_⟩
    simp only [captPop_of_nil hc hf, rdC_putRead, capt_putRead, capt_wrC, hf, true_and]
    rw [rdC_wrC_same _ _ _ _ rfl]
    rfl

end Sys2Proof.Machine
end

section
/-! PROOFS. The step: which command it runs, that every command keeps what `Keeps` speaks of, and what reset leaves. -/

namespace Sys2Proof.Machine

theorem step_of_cons {s : State} {c : Instr} {rest : List Instr} (h : s.pending = c :: rest) :
    step s = exec c { s with pending := rest } := by
  unfold step
  rw [h]

theorem step_of_nil {s : State} (h : s.pending = []) : step s = .next (idle s) := by
  unfold step
  rw [h]

/-- Settles O1: it is the step's own equation for a queue that is not empty. -/
theorem stepRunsTheCommandInFront : Obligations.StepRunsTheCommandInFront := by
  unfold Obligations.StepRunsTheCommandInFront
  exact fun _ _ _ => step_of_cons

theorem idle_of_released {s : State} (h : s.pwr.hold = .none) : idle s = idleTick s := if_pos h

theorem idle_of_reset {s : State} (h : s.pwr.hold ≠ .none) : idle s = s := if_neg h

/-- Settles O2, by whether a reset holds the device. -/
theorem emptyQueueAdvancesTheRawCount : Obligations.EmptyQueueAdvancesTheRawCount := by
  unfold Obligations.EmptyQueueAdvancesTheRawCount
  intro s hq
  refine ⟨idle s, step_of_nil hq, ?_, fun h => ?_, fun h => ?_⟩
  · by_cases h : s.pwr.hold = .none
    · rw [idle_of_released h]; rfl
    · rw [idle_of_reset h]
  · rw [idle_of_released h]; rfl
  · rw [idle_of_reset h]

/-- Every command keeps what `Keeps` speaks of: each meaning does. -/
theorem exec_keeps {r s : State} (c : Instr) (hs : Keeps r s) : OutKeeps r (exec c s) :=
  match c with
  | .registerWrite .. => execRegisterWrite_keeps hs
  | .counterSnapshotRead .. => execCounterSnapshotRead_keeps hs
  | .counterClear .. => execCounterClear_keeps hs
  | .chanSelWrite .. => execChanSelWrite_keeps hs
  | .ownerWrite .. => execOwnerWrite_keeps hs
  | .enableWrite .. => execEnableWrite_keeps hs
  | .preconditionMet .. => execPreconditionMet_keeps hs
  | .preconditionLost .. => execPreconditionLost_keeps hs
  | .startComplete .. => execStartComplete_keeps hs
  | .startBoundExceeded .. => execStartBoundExceeded_keeps hs
  | .drainComplete .. => execDrainComplete_keeps hs
  | .drainForced .. => execDrainForced_keeps hs
  | .unrecoverableError .. => execUnrecoverableError_keeps hs
  | .blockResetGo .. => execBlockResetGo_keeps hs
  | .commitNow .. => execCommitNow_keeps hs
  | .commitAtTime .. => execCommitAtTime_keeps hs
  | .timedCommitFire .. => execTimedCommitFire_keeps hs
  | .commitCancel .. => execCommitCancel_keeps hs
  | .evtForceWrite .. => execEvtForceWrite_keeps hs
  | .causeClear .. => execCauseClear_keeps hs
  | .limitWindowEnd .. => execLimitWindowEnd_keeps hs
  | .autoMaskQuietExpire .. => execAutoMaskQuietExpire_keeps hs
  | .autoMaskWrite .. => execAutoMaskWrite_keeps hs
  | .suppCountClear .. => execSuppCountClear_keeps hs
  | .vecRearm .. => execVecRearm_keeps hs
  | .msixUnmask .. => execMsixUnmask_keeps hs
  | .railGood .. => execRailGood_keeps hs
  | .railFail .. => execRailFail_keeps hs
  | .porRelease .. => execPorRelease_keeps hs
  | .resetNAssert .. => execResetNAssert_keeps hs
  | .resetNRelease .. => execResetNRelease_keeps hs
  | .perstNAssert .. => execPerstNAssert_keeps hs
  | .perstNRelease .. => execPerstNRelease_keeps hs
  | .warmResetRequest .. => execWarmResetRequest_keeps hs
  | .failLatchClear .. => execFailLatchClear_keeps hs
  | .strapCompare .. => execStrapCompare_keeps hs
  | .refclkSysTimeout .. => execRefclkSysTimeout_keeps hs
  | .refclkSysLost .. => execRefclkSysLost_keeps hs
  | .refclkSysRestored .. => execRefclkSysRestored_keeps hs
  | .refclkLaneLost .. => execRefclkLaneLost_keeps hs
  | .refclkLaneRestored .. => execRefclkLaneRestored_keeps hs
  | .timeRefLost .. => execTimeRefLost_keeps hs
  | .timeRefRestored .. => execTimeRefRestored_keeps hs
  | .refRatioMeasure .. => execRefRatioMeasure_keeps hs
  | .paceMeasure .. => execPaceMeasure_keeps hs
  | .paceRecoveryExpire .. => execPaceRecoveryExpire_keeps hs
  | .avsStepUp .. => execAvsStepUp_keeps hs
  | .avsStepDown .. => execAvsStepDown_keeps hs
  | .avsWriteDone .. => execAvsWriteDone_keeps hs
  | .avsRetry .. => execAvsRetry_keeps hs
  | .paceLowClear .. => execPaceLowClear_keeps hs
  | .startupStepDone .. => execStartupStepDone_keeps hs
  | .stepOverrun .. => execStepOverrun_keeps hs
  | .startLoad .. => execStartLoad_keeps hs
  | .runTimeLoad .. => execRunTimeLoad_keeps hs
  | .anPageReceived .. => execAnPageReceived_keeps hs
  | .anNoHcdRestart .. => execAnNoHcdRestart_keeps hs
  | .trainingComplete .. => execTrainingComplete_keeps hs
  | .trainingTimeout .. => execTrainingTimeout_keeps hs
  | .adaptComplete .. => execAdaptComplete_keeps hs
  | .signalPresent .. => execSignalPresent_keeps hs
  | .signalLost .. => execSignalLost_keeps hs
  | .sdGlitch .. => execSdGlitch_keeps hs
  | .holddownExpire .. => execHolddownExpire_keeps hs
  | .tieDetectWait .. => execTieDetectWait_keeps hs
  | .commaLock .. => execCommaLock_keeps hs
  | .commaError .. => execCommaError_keeps hs
  | .commaLockLost .. => execCommaLockLost_keeps hs
  | .commaRelockTimeout .. => execCommaRelockTimeout_keeps hs
  | .backgroundAdapt .. => execBackgroundAdapt_keeps hs
  | .adaptLimit .. => execAdaptLimit_keeps hs
  | .snrLow .. => execSnrLow_keeps hs
  | .calVisit .. => execCalVisit_keeps hs
  | .txEqStep .. => execTxEqStep_keeps hs
  | .patLock .. => execPatLock_keeps hs
  | .patLockLost .. => execPatLockLost_keeps hs
  | .patWrap .. => execPatWrap_keeps hs
  | .patInject .. => execPatInject_keeps hs
  | .patClear .. => execPatClear_keeps hs
  | .eyeStart .. => execEyeStart_keeps hs
  | .eyeDone .. => execEyeDone_keeps hs
  | .fecCodewordDecode .. => execFecCodewordDecode_keeps hs
  | .pcsFault .. => execPcsFault_keeps hs
  | .pcsFaultPersist .. => execPcsFaultPersist_keeps hs
  | .linkUpTimer .. => execLinkUpTimer_keeps hs
  | .remoteFaultReceived .. => execRemoteFaultReceived_keeps hs
  | .flapWindowEnd .. => execFlapWindowEnd_keeps hs
  | .penaltyEnd .. => execPenaltyEnd_keeps hs
  | .frameArrival .. => execFrameArrival_keeps hs
  | .frameTailArrival .. => execFrameTailArrival_keeps hs
  | .parseFrame .. => execParseFrame_keeps hs
  | .recircReentry .. => execRecircReentry_keeps hs
  | .hostFrameArrival .. => execHostFrameArrival_keeps hs
  | .dispatchRound .. => execDispatchRound_keeps hs
  | .itemAgeExpire .. => execItemAgeExpire_keeps hs
  | .flowLookupDone .. => execFlowLookupDone_keeps hs
  | .cacheSetUnlock .. => execCacheSetUnlock_keeps hs
  | .itemStart .. => execItemStart_keeps hs
  | .microwordExecute .. => execMicrowordExecute_keeps hs
  | .extResult .. => execExtResult_keeps hs
  | .itemEnd .. => execItemEnd_keeps hs
  | .machineCheck .. => execMachineCheck_keeps hs
  | .wordReloadDone .. => execWordReloadDone_keeps hs
  | .clusterReturn .. => execClusterReturn_keeps hs
  | .goldenCompare .. => execGoldenCompare_keeps hs
  | .goldenDigestCheck .. => execGoldenDigestCheck_keeps hs
  | .bankLoadDone .. => execBankLoadDone_keeps hs
  | .bankDrainComplete .. => execBankDrainComplete_keeps hs
  | .mcsWordLoad .. => execMcsWordLoad_keeps hs
  | .indDataWrite .. => execIndDataWrite_keeps hs
  | .fenceTargetReady .. => execFenceTargetReady_keeps hs
  | .fenceDrained .. => execFenceDrained_keeps hs
  | .fenceOverrun .. => execFenceOverrun_keeps hs
  | .steerCfgWrite .. => execSteerCfgWrite_keeps hs
  | .classWaitClear .. => execClassWaitClear_keeps hs
  | .cellEpoch .. => execCellEpoch_keeps hs
  | .creditReturn .. => execCreditReturn_keeps hs
  | .voqAgeDrop .. => execVoqAgeDrop_keeps hs
  | .egressEdit .. => execEgressEdit_keeps hs
  | .hostDelivery .. => execHostDelivery_keeps hs
  | .mirrorCopy .. => execMirrorCopy_keeps hs
  | .txFrameStart .. => execTxFrameStart_keeps hs
  | .ctUnderrun .. => execCtUnderrun_keeps hs
  | .txFrameEnd .. => execTxFrameEnd_keeps hs
  | .gateEntryChange .. => execGateEntryChange_keeps hs
  | .gateTakeover .. => execGateTakeover_keeps hs
  | .gateCancel .. => execGateCancel_keeps hs
  | .gclDataHiWrite .. => execGclDataHiWrite_keeps hs
  | .gclEntryLoad .. => execGclEntryLoad_keeps hs
  | .meterWrite .. => execMeterWrite_keeps hs
  | .meterRead .. => execMeterRead_keeps hs
  | .meterUnblock .. => execMeterUnblock_keeps hs
  | .bpmAlloc .. => execBpmAlloc_keeps hs
  | .bpmFree .. => execBpmFree_keeps hs
  | .bufDataAccess .. => execBufDataAccess_keeps hs
  | .l2UpdateApply .. => execL2UpdateApply_keeps hs
  | .l2LookupOp .. => execL2LookupOp_keeps hs
  | .l2WriteOp .. => execL2WriteOp_keeps hs
  | .l2DeleteOp .. => execL2DeleteOp_keeps hs
  | .l2ReadIndexOp .. => execL2ReadIndexOp_keeps hs
  | .l2AgingTick .. => execL2AgingTick_keeps hs
  | .learnTokenGain .. => execLearnTokenGain_keeps hs
  | .nodeDataHiWrite .. => execNodeDataHiWrite_keeps hs
  | .nodeEntryLoad .. => execNodeEntryLoad_keeps hs
  | .lpmFence .. => execLpmFence_keeps hs
  | .lpmFenceDone .. => execLpmFenceDone_keeps hs
  | .nhData3Write .. => execNhData3Write_keeps hs
  | .nhEntryLoad .. => execNhEntryLoad_keeps hs
  | .ecmpDataWrite .. => execEcmpDataWrite_keeps hs
  | .memberDataWrite .. => execMemberDataWrite_keeps hs
  | .smacHiWrite .. => execSmacHiWrite_keeps hs
  | .statClear .. => execStatClear_keeps hs
  | .clsCheckDone .. => execClsCheckDone_keeps hs
  | .drainOverrun .. => execDrainOverrun_keeps hs
  | .forceFree .. => execForceFree_keeps hs
  | .stageCopy .. => execStageCopy_keeps hs
  | .stageCopyDone .. => execStageCopyDone_keeps hs
  | .stageClear .. => execStageClear_keeps hs
  | .stageRuleLoad .. => execStageRuleLoad_keeps hs
  | .stageData15Write .. => execStageData15Write_keeps hs
  | .flowTick .. => execFlowTick_keeps hs
  | .scannerVisit .. => execScannerVisit_keeps hs
  | .retireCheck .. => execRetireCheck_keeps hs
  | .retireCleanup .. => execRetireCleanup_keeps hs
  | .exportRingWrite .. => execExportRingWrite_keeps hs
  | .expqConsWrite .. => execExpqConsWrite_keeps hs
  | .expqEnable .. => execExpqEnable_keeps hs
  | .cmdqEnable .. => execCmdqEnable_keeps hs
  | .cmdqProdWrite .. => execCmdqProdWrite_keeps hs
  | .cmdLookup .. => execCmdLookup_keeps hs
  | .cmdReadIndex .. => execCmdReadIndex_keeps hs
  | .cmdCreate .. => execCmdCreate_keeps hs
  | .cmdDeleteKey .. => execCmdDeleteKey_keeps hs
  | .cmdDeleteIndex .. => execCmdDeleteIndex_keeps hs
  | .cmdWriteState .. => execCmdWriteState_keeps hs
  | .cmdPin .. => execCmdPin_keeps hs
  | .cmdUnpin .. => execCmdUnpin_keeps hs
  | .poolRefill .. => execPoolRefill_keeps hs
  | .indexHoldExpire .. => execIndexHoldExpire_keeps hs
  | .bar2WindowWrite .. => execBar2WindowWrite_keeps hs
  | .scrubRead .. => execScrubRead_keeps hs
  | .hbmRecal .. => execHbmRecal_keeps hs
  | .autoRecover .. => execAutoRecover_keeps hs
  | .benchEmergencyRestart .. => execBenchEmergencyRestart_keeps hs
  | .hallmarkRestart .. => execHallmarkRestart_keeps hs
  | .mgmtProtectionFault .. => execMgmtProtectionFault_keeps hs
  | .wdogKick .. => execWdogKick_keeps hs
  | .wdogWarning .. => execWdogWarning_keeps hs
  | .wdogExpire .. => execWdogExpire_keeps hs
  | .benchQueueTokenGain .. => execBenchQueueTokenGain_keeps hs
  | .mboxProdWrite .. => execMboxProdWrite_keeps hs
  | .mboxEnable .. => execMboxEnable_keeps hs
  | .svcStatus .. => execSvcStatus_keeps hs
  | .svcRouteUpdate .. => execSvcRouteUpdate_keeps hs
  | .svcFlashWrite .. => execSvcFlashWrite_keeps hs
  | .svcSetPreferred .. => execSvcSetPreferred_keeps hs
  | .svcIdentity .. => execSvcIdentity_keeps hs
  | .svcVerify .. => execSvcVerify_keeps hs
  | .svcDeliverBench .. => execSvcDeliverBench_keeps hs
  | .svcHandover .. => execSvcHandover_keeps hs
  | .newBenchReady .. => execNewBenchReady_keeps hs
  | .oldBenchQuiesced .. => execOldBenchQuiesced_keeps hs
  | .newBenchRunning .. => execNewBenchRunning_keeps hs
  | .handoverTimeout .. => execHandoverTimeout_keeps hs
  | .svcPatch .. => execSvcPatch_keeps hs
  | .svcEnrol .. => execSvcEnrol_keeps hs
  | .svcRevoke .. => execSvcRevoke_keeps hs
  | .svcRollback .. => execSvcRollback_keeps hs
  | .svcClearLock .. => execSvcClearLock_keeps hs
  | .svcUnknown .. => execSvcUnknown_keeps hs
  | .ppsOutRise .. => execPpsOutRise_keeps hs
  | .ppsOutFall .. => execPpsOutFall_keeps hs
  | .ppsInEdge .. => execPpsInEdge_keeps hs
  | .ppsInMissing .. => execPpsInMissing_keeps hs
  | .trigArm .. => execTrigArm_keeps hs
  | .trigDisarm .. => execTrigDisarm_keeps hs
  | .triggerFire .. => execTriggerFire_keeps hs
  | .triggerPulseEnd .. => execTriggerPulseEnd_keeps hs
  | .captureEdge .. => execCaptureEdge_keeps hs
  | .captStuck .. => execCaptStuck_keeps hs
  | .captReleased .. => execCaptReleased_keeps hs
  | .captPop .. => execCaptPop_keeps hs
  | .timeSnapshotRead .. => execTimeSnapshotRead_keeps hs
  | .stepGo .. => execStepGo_keeps hs
  | .rateWrite .. => execRateWrite_keeps hs
  | .servoSample .. => execServoSample_keeps hs
  | .servoHoldover .. => execServoHoldover_keeps hs
  | .txTsPop .. => execTxTsPop_keeps hs
  | .tieCapSend .. => execTieCapSend_keeps hs
  | .tieCapability .. => execTieCapability_keeps hs
  | .tieCodewordDecode .. => execTieCodewordDecode_keeps hs
  | .tieSteeredItem .. => execTieSteeredItem_keeps hs
  | .tieFrame .. => execTieFrame_keeps hs
  | .stateSync .. => execStateSync_keeps hs
  | .ownerChange .. => execOwnerChange_keeps hs
  | .ownMoveGo .. => execOwnMoveGo_keeps hs
  | .transferDone .. => execTransferDone_keeps hs
  | .ownerMoveAcked .. => execOwnerMoveAcked_keeps hs
  | .ownMoveTimeout .. => execOwnMoveTimeout_keeps hs
  | .ownerMoveAbort .. => execOwnerMoveAbort_keeps hs
  | .fwdWindowEnd .. => execFwdWindowEnd_keeps hs
  | .heartbeatTick .. => execHeartbeatTick_keeps hs
  | .heartbeatReceived .. => execHeartbeatReceived_keeps hs
  | .controlResend .. => execControlResend_keeps hs
  | .joinWaitTimeout .. => execJoinWaitTimeout_keeps hs
  | .versionPrepare .. => execVersionPrepare_keeps hs
  | .versionReady .. => execVersionReady_keeps hs
  | .versionRefuse .. => execVersionRefuse_keeps hs
  | .versionPrepareTimeout .. => execVersionPrepareTimeout_keeps hs
  | .versionCommit .. => execVersionCommit_keeps hs
  | .versionAbort .. => execVersionAbort_keeps hs
  | .versionFreeRequest .. => execVersionFreeRequest_keeps hs
  | .versionMarker .. => execVersionMarker_keeps hs
  | .versionConfirm .. => execVersionConfirm_keeps hs
  | .versionFree .. => execVersionFree_keeps hs
  | .timeTransferStart .. => execTimeTransferStart_keeps hs
  | .timeTransfer .. => execTimeTransfer_keeps hs
  | .eventForward .. => execEventForward_keeps hs
  | .tmkWrGo .. => execTmkWrGo_keeps hs
  | .codeBucketRefill .. => execCodeBucketRefill_keeps hs
  | .ringWrite .. => execRingWrite_keeps hs
  | .globalTokenGain .. => execGlobalTokenGain_keeps hs
  | .opTimeTick .. => execOpTimeTick_keeps hs
  | .checkpointExpire .. => execCheckpointExpire_keeps hs
  | .flushRecord .. => execFlushRecord_keeps hs
  | .flashReport .. => execFlashReport_keeps hs
  | .flushSeqWrite .. => execFlushSeqWrite_keeps hs
  | .levelSample .. => execLevelSample_keeps hs
  | .cntSet .. => execCntSet_keeps hs
  | .cntZero .. => execCntZero_keeps hs
  | .pcnFreeze .. => execPcnFreeze_keeps hs
  | .histSnap .. => execHistSnap_keeps hs
  | .tempRead .. => execTempRead_keeps hs
  | .gpioEdge .. => execGpioEdge_keeps hs
  | .i2cGo .. => execI2cGo_keeps hs
  | .i2cDone .. => execI2cDone_keeps hs
  | .mdioGo .. => execMdioGo_keeps hs
  | .mdioDone .. => execMdioDone_keeps hs
  | .uartRxChar .. => execUartRxChar_keeps hs
  | .hbmStackTemperature .. => execHbmStackTemperature_keeps hs

/-- Settles O4: the front command runs on the state with the queue's rest, and every command keeps that state's parts. -/
theorem everyStepKeepsTheMachine : Obligations.EveryStepKeepsTheMachine := by
  unfold Obligations.EveryStepKeepsTheMachine
  intro s t hstep
  have hkeeps : Keeps { s with pending := s.pending.tail } t := by
    cases hq : s.pending with
    | nil =>
      rw [step_of_nil hq] at hstep
      cases hstep
      rw [List.tail_nil, ← hq]
      exact idle_keeps (Keeps.refl s)
    | cons c rest =>
      rw [step_of_cons hq] at hstep
      exact exec_keeps c (Keeps.refl _) t hstep
  obtain ⟨hpending, hvariant, hout, hfree, hfuses, hcanonical⟩ := hkeeps
  exact ⟨hpending, hvariant, hout, hfree, hfuses, hcanonical⟩

/-- Refutes O3: HALLMARK_RESTART's end that names a golden copy of a cluster that does not exist (R1: 32 clusters) is not well-formed, but
its meaning tests none of its operands and answers a next state. -/
theorem not_wellFormedCommandsComplete : ¬ Obligations.WellFormedCommandsComplete := by
  unfold Obligations.WellFormedCommandsComplete
  intro h
  obtain ⟨-, -, hrefused⟩ := h (.hallmarkRestart 0 (.done [(32, 0)])) State.reset
  exact nomatch hrefused (by decide) id

theorem chanCount_lt (b : Block) : chanCount b < 1023 := by cases b <;> decide

theorem tgtKey_div {t : Target} (h : targetOk t = true) : tgtKey t / 1024 = blockCode t.block := by
  obtain ⟨b, c⟩ := t
  have hlt := chanCount_lt b
  cases c with
  | none => simp [tgtKey, normTarget]
  | some c =>
    have hc : c < chanCount b := of_decide_eq_true h
    by_cases h1 : chanCount b = 1
    · simp [tgtKey, normTarget, h1]
    · simp only [tgtKey, normTarget, if_neg h1]
      omega

/-- Reset enables a target exactly if it is of HBM (R123). -/
theorem tgt_reset {t : Target} (h : targetOk t = true) :
    tgt t State.reset = if t.block = .hbm then { enable := true } else {} := by
  have hb : blockCode t.block = blockCode .hbm ↔ t.block = .hbm := ⟨blockCode_inj, congrArg blockCode⟩
  show tgtReset (tgtKey t) = _
  simp only [tgtReset, tgtKey_div h, hb]

theorem ownerOf_reset {b : Block} (h : b ≠ .hmk) : (ownerOf b State.reset).owner = 0 := by
  unfold ownerOf
  rw [if_neg h]
  rfl

/-- Settles O5: nothing is listed at reset, so each part reads as its default. -/
theorem resetLeavesEveryTargetOff : Obligations.ResetLeavesEveryTargetOff := by
  unfold Obligations.ResetLeavesEveryTargetOff
  refine ⟨⟨rfl, rfl⟩, rfl, fun t ht => ?_, fun b => ownerOf_reset, fun e => ?_⟩
  · rw [tgt_reset ht]
    by_cases hb : t.block = .hbm <;> simp [hb]
  · simp [Asserted, causeReg, State.reset, sget]

end Sys2Proof.Machine
end

section
/-! PROOFS. Channel-select latches (R111, R112) and OWNER locks (R115, R116). -/

namespace Sys2Proof.Machine

/-! ### One-bit fields -/

theorem wordField_one_eq_one {v : Word} {i : Nat} : wordField v i 1 = 1 ↔ v.getLsbD i = true := by
  have h := testBit_wordField v i 1 0
  have hlt := wordField_lt v i 1
  have h01 : wordField v i 1 = 0 ∨ wordField v i 1 = 1 := by omega
  rcases h01 with h0 | h0 <;> simp_all

theorem decide_wordField_one_eq_one (v : Word) (i : Nat) : decide (wordField v i 1 = 1) = v.getLsbD i := by
  cases hb : v.getLsbD i <;> simp [wordField_one_eq_one, hb]

theorem decide_wordField_one_eq_zero (v : Word) (i : Nat) : decide (wordField v i 1 = 0) = !v.getLsbD i := by
  have hlt := wordField_lt v i 1
  have h01 : wordField v i 1 = 0 ↔ ¬ wordField v i 1 = 1 := by omega
  rw [← decide_wordField_one_eq_one, ← decide_not]
  exact decide_eq_decide.2 h01

/-! ### Latches -/

theorem latchKey_inj {w w' : Window} {b b' : Block} (h : latchKey w' b' = latchKey w b) : winIdx w' = winIdx w ∧ b' = b := by
  have hlt (x : Window) : winIdx x < 3 := by cases x <;> simp [winIdx]
  have h1 := hlt w
  have h2 := hlt w'
  unfold latchKey at h
  exact ⟨by omega, blockCode_inj (by omega)⟩

theorem latch_congr {s t : State} (h : t.fab.latches = s.fab.latches) (w : Window) (b : Block) : latch w b t = latch w b s := by
  cases w <;> simp only [latch, h]

theorem latch_putLatch_same {w : Window} (b : Block) (l : ChanLatch) (s : State) (h : w = .h ∨ w = .b) :
    latch w b (putLatch w b l s) = l := by
  rcases h with rfl | rfl <;> exact sget_sset_same _ _ _ _

theorem latch_putLatch_other {w w' : Window} {b b' : Block} (l : ChanLatch) (s : State) (hw : w = .h ∨ w = .b)
    (h : w' ≠ w ∨ b' ≠ b) : latch w' b' (putLatch w b l s) = latch w' b' s := by
  have hne (hw' : w' = .h ∨ w' = .b) : latchKey w' b' ≠ latchKey w b := fun e => by
    obtain ⟨hi, hb⟩ := latchKey_inj e
    rcases hw with rfl | rfl <;> rcases hw' with rfl | rfl <;> simp_all [winIdx]
  cases w' with
  | hm c whole => rfl
  | h => exact sget_sset_other _ _ _ (hne (.inl rfl))
  | b => exact sget_sset_other _ _ _ (hne (.inr rfl))

theorem exec_chanSelWrite_of_admits {w : Window} {b : Block} {s : State} (ha : AdmitsFree w b s) (v : Word) :
    exec (.chanSelWrite w b v) s = .next (chanSelWrite w b v s) :=
  congrArg Host.Outcome.next (writingFree_of_admits ha _)

theorem chanSelWrite_of_lt {w : Window} {b : Block} {v : Word} {s : State} (hw : w = .h ∨ w = .b) (h : wordField v 0 16 < chanCount b) :
    chanSelWrite w b v s = putLatch w b ⟨wordField v 0 16, (latch w b s).selError && !v.getLsbD 30, v.getLsbD 31⟩ s := by
  rw [← decide_wordField_one_eq_zero, ← decide_wordField_one_eq_one]
  rcases hw with rfl | rfl <;> simp [chanSelWrite, h]

theorem chanSelWrite_of_ge {w : Window} {b : Block} {v : Word} {s : State} (hw : w = .h ∨ w = .b) (h : chanCount b ≤ wordField v 0 16) :
    chanSelWrite w b v s = raise evtChanSelRefused (putLatch w b { latch w b s with selError := true } s) := by
  rcases hw with rfl | rfl <;> simp [chanSelWrite, h]

/-- Settles O9, by whether the channel exists. -/
theorem chanSelSelectsOrIsRefused : Obligations.ChanSelSelectsOrIsRefused := by
  unfold Obligations.ChanSelSelectsOrIsRefused
  intro w b v s hw ha
  rw [exec_chanSelWrite_of_admits ha]
  constructor
  · intro hlt
    rw [chanSelWrite_of_lt hw hlt]
    exact ⟨_, rfl, latch_putLatch_same b _ s hw, fun _ _ h => latch_putLatch_other _ s hw h, rfl⟩
  · intro hge
    rw [chanSelWrite_of_ge hw hge]
    have he := raise_onlyEvents evtChanSelRefused (putLatch w b { latch w b s with selError := true } s)
    refine ⟨_, rfl, ?_, raise_asserted _ (by decide), fun w' b' h => ?_, ?_⟩
    · rw [latch_congr he.latches, latch_putLatch_same b _ s hw]
    · rw [latch_congr he.latches, latch_putLatch_other _ s hw h]
    · rw [he.latches]; exact he

/-! ### Locks -/

theorem satAdd_eq_min (x d top : Nat) : satAdd x d top = min (x + d) top := by
  unfold satAdd; split <;> omega

theorem ownerOf_putOwner_same {b : Block} (o : OwnerSt) (s : State) (h : b ≠ .hmk) : ownerOf b (putOwner b o s) = o := by
  simp [ownerOf, putOwner, sget_sset_same, h]

theorem exec_ownerWrite_of_admits {w : Window} {b : Block} {s : State} (ha : AdmitsFree w b s) (v : Word) :
    exec (.ownerWrite w b v) s = .next (ownerWrite w b v s) :=
  congrArg Host.Outcome.next (writingFree_of_admits ha _)

/-- A write that reaches a locked block ends as a denied one, whatever the register would do (R116). -/
theorem writing_of_refused {w : Window} {b : Block} {s : State} (ha : AdmitsFree w b s) (h : ownerRefuses w b s = true)
    (f : State → State) : writing w b f s = ownerDenied b s := by
  obtain ⟨hr, hh⟩ := ha
  simp [writing, hr, hh, h]

/-- What every denied write leaves. -/
theorem ownerDenied_denies (b : Block) (s : State) :
    ownerOf b (ownerDenied b s) = ⟨(ownerOf b s).owner, min 255 ((ownerOf b s).denied + 1)⟩ ∧ Asserted evtOwnerDenied (ownerDenied b s) ∧
      OnlyEvents { s with fab := { s.fab with owners := (ownerDenied b s).fab.owners } } (ownerDenied b s) ∧
      ∀ b', b' ≠ b → ownerOf b' (ownerDenied b s) = ownerOf b' s := by
  have he : OnlyEvents (putOwner b _ s) (ownerDenied b s) := raise_onlyEvents _ _
  refine ⟨?_, ownerDenied_asserted b s, ?_, fun b' h => ownerOf_ownerDenied_other s h⟩
  · rw [ownerOf_ownerDenied_same, satAdd_eq_min, Nat.min_comm]
  · rw [he.owners]; exact he

/-- Settles O10: the lock's own table decides a write of OWNER, and any refused write is `ownerDenied`. -/
theorem ownerLockMovesAsStated : Obligations.OwnerLockMovesAsStated := by
  unfold Obligations.OwnerLockMovesAsStated
  intro w b v s hb ha o n allowed denies
  have hallowed : ownerAllowed w o.owner n = true ↔ allowed := by
    cases w <;> simp [ownerAllowed, allowed]
  refine ⟨fun h => ?_, fun _ => ⟨fun h => ?_, fun hlocked => ?_⟩⟩
  · rw [exec_ownerWrite_of_admits ha, ownerWrite, if_pos (hallowed.2 h)]
    exact ⟨_, rfl, ownerOf_putOwner_same _ s hb, fun _ h' => ownerOf_putOwner_other _ s h', rfl⟩
  · refine ⟨ownerDenied b s, ?_, ownerDenied_denies b s⟩
    rw [exec_ownerWrite_of_admits ha, ownerWrite, if_neg (fun h' => h (hallowed.1 h'))]
  · have href : ownerRefuses w b s = true := by
      rcases hlocked with ⟨rfl, h1⟩ | ⟨rfl, h2⟩ | ⟨rfl | rfl, h3⟩ <;> simp_all [ownerRefuses, o]
    exact ⟨⟨_, congrArg Host.Outcome.next (writing_of_refused ha href _), ownerDenied_denies b s⟩,
      ⟨_, congrArg Host.Outcome.next (writing_of_refused ha href _), ownerDenied_denies b s⟩⟩

end Sys2Proof.Machine
end

section
/-! PROOFS. A write of a register without behaviour of its own (R7, R120): what each field's access code makes of each bit. -/

namespace Sys2Proof.Machine

/-! ### Fields of a register -/

/-- The fields of a register follow each other in its 32 bits. -/
def fieldsInOrder : Nat → List FieldSpec → Bool
  | lo, [] => decide (lo ≤ 32)
  | lo, f :: fs => decide (lo ≤ f.lo) && fieldsInOrder (f.lo + f.width) fs

theorem le_of_fieldsInOrder {lo : Nat} {fs : List FieldSpec} (h : fieldsInOrder lo fs = true) : lo ≤ 32 := by
  induction fs generalizing lo with
  | nil => exact of_decide_eq_true h
  | cons f fs ih =>
    obtain ⟨h1, h2⟩ := (Bool.and_eq_true _ _).mp h
    have := ih h2
    have := of_decide_eq_true h1
    omega

theorem getLsbD_wordWith_wordField (w v : Word) {lo n j : Nat} (hj : j < 32) :
    (wordWith w lo n (wordField v lo n)).getLsbD j = if lo ≤ j ∧ j < lo + n then v.getLsbD j else w.getLsbD j := by
  rw [getLsbD_wordWith, testBit_wordField, decide_eq_true hj, Bool.true_and]
  split
  · next h => rw [decide_eq_true (by omega), Bool.true_and, Nat.add_sub_cancel' h.1]
  · rfl

/-- What a field makes of one bit of the register's word. -/
theorem getLsbD_fieldStore (armed : Bool) (v w : Word) (f : FieldSpec) {j : Nat} (hj : j < 32) :
    (fieldStore armed v w f).getLsbD j =
      if f.lo ≤ j ∧ j < f.lo + f.width then bitAfterWrite armed f.acc (w.getLsbD j) (v.getLsbD j) else w.getLsbD j := by
  have hbit (u : Word) := getLsbD_wordWith_wordField u v (lo := f.lo) (n := f.width) hj
  have h0 : (0 : Word).getLsbD j = false := BitVec.getLsbD_zero
  by_cases hin : f.lo ≤ j ∧ j < f.lo + f.width <;> simp only [hin, and_self, if_true, if_false] at hbit ⊢ <;>
    cases hf : f.acc <;> cases armed <;>
    simp only [fieldStore, hf, bitAfterWrite, BitVec.getLsbD_and, BitVec.getLsbD_or, BitVec.getLsbD_not, hbit, h0, hj, decide_true,
      Bool.true_and, Bool.not_false, Bool.and_true, Bool.or_false, if_true, if_false, Bool.false_eq_true]

theorem getLsbD_foldl_fieldStore_below (armed : Bool) (v : Word) {fs : List FieldSpec} {lo j : Nat} (h : fieldsInOrder lo fs = true)
    (hj : j < lo) (w : Word) : (fs.foldl (fieldStore armed v) w).getLsbD j = w.getLsbD j := by
  have hlo := le_of_fieldsInOrder h
  induction fs generalizing lo w with
  | nil => rfl
  | cons f fs ih =>
    obtain ⟨h1, h2⟩ := (Bool.and_eq_true _ _).mp h
    have := of_decide_eq_true h1
    rw [List.foldl_cons, ih h2 (by omega) _ (le_of_fieldsInOrder h2), getLsbD_fieldStore _ _ _ _ (by omega), if_neg (by omega)]

theorem fieldsInOrder_mem {fs : List FieldSpec} {lo : Nat} (h : fieldsInOrder lo fs = true) {f : FieldSpec} (hf : f ∈ fs) :
    lo ≤ f.lo ∧ f.lo + f.width ≤ 32 := by
  induction fs generalizing lo with
  | nil => cases hf
  | cons g fs ih =>
    obtain ⟨h1, h2⟩ := (Bool.and_eq_true _ _).mp h
    have hlo := of_decide_eq_true h1
    rcases List.mem_cons.1 hf with rfl | hmem
    · exact ⟨hlo, le_of_fieldsInOrder h2⟩
    · obtain ⟨h3, h4⟩ := ih h2 hmem
      exact ⟨by omega, h4⟩

/-- A register's word after a write, at a bit of one of its fields. -/
theorem getLsbD_foldl_fieldStore (armed : Bool) (v : Word) {fs : List FieldSpec} {lo : Nat} (h : fieldsInOrder lo fs = true)
    {f : FieldSpec} (hf : f ∈ fs) {i : Nat} (hi : i < f.width) (w : Word) :
    (fs.foldl (fieldStore armed v) w).getLsbD (f.lo + i) = bitAfterWrite armed f.acc (w.getLsbD (f.lo + i)) (v.getLsbD (f.lo + i)) := by
  induction fs generalizing lo w with
  | nil => cases hf
  | cons g fs ih =>
    obtain ⟨h1, h2⟩ := (Bool.and_eq_true _ _).mp h
    have hg := le_of_fieldsInOrder h2
    rw [List.foldl_cons]
    rcases List.mem_cons.1 hf with rfl | hmem
    · rw [getLsbD_foldl_fieldStore_below _ _ h2 (by omega), getLsbD_fieldStore _ _ _ _ (by omega), if_pos (by omega)]
    · have hle : g.lo + g.width ≤ f.lo ∧ f.lo + f.width ≤ 32 := fieldsInOrder_mem h2 hmem
      rw [ih h2 hmem, getLsbD_fieldStore _ _ _ _ (by omega), if_neg (by omega)]

/-! ### The blocks without behaviour of their own -/

/-- The blocks whose registers only store. -/
def plainBlocks : List Block := [.sys, .prt, .prs, .fch, .hbm, .fen, .tsu]

theorem plainBlocks_fields : ∀ b ∈ plainBlocks, ∀ r ∈ regsOf b, fieldsInOrder 0 r.fields = true := by decide

theorem fieldsInOrder_of_findReg {b : Block} {off : Nat} {r : RegSpec} (hb : b ∈ plainBlocks) (hp : blockOfPage (off / 0x1000) = some b)
    (hr : findReg off = some r) : fieldsInOrder 0 r.fields = true := by
  unfold findReg at hr
  rw [hp] at hr
  exact plainBlocks_fields b hb r (List.mem_of_find?_eq_some hr)

theorem writeReg_plain {w : Window} {b : Block} {r : RegSpec} {off : Nat} {s : State} (v : Word) (hb : b ∈ plainBlocks)
    (hc : clearOf off = none) (hw : wrapOf off = none) (hf : reachesFused w b r off s = false) :
    writeReg w b r off v s = storeFields b off (copyOf w b r off s) v s := by
  simp only [plainBlocks, List.mem_cons, List.not_mem_nil, or_false] at hb
  rcases hb with rfl | rfl | rfl | rfl | rfl | rfl | rfl <;> simp [writeReg, hf, hc, hw, plain]

/-- A write behind the header of a block without behaviour of its own stores its fields. -/
theorem exec_registerWrite_plain {w : Window} {b : Block} {off : Nat} {r : RegSpec} {s : State} (v : Word) (hb : b ∈ plainBlocks)
    (ho : off < 0x40000) (ha : off % 4 = 0) (hp : blockOfPage (off / 0x1000) = some b) (hbase : blockBase b + 0x80 ≤ off)
    (hr : findReg off = some r) (hpend : pendAt b off = none) (hc : clearOf off = none) (hw : wrapOf off = none)
    (hadm : Admits w b s) (hf : reachesFused w b r off s = false) :
    exec (.registerWrite w off 15 true v) s = .next (storeFields b off (copyOf w b r off s) v s) := by
  have hhif : b ≠ .hif := by rintro rfl; exact absurd hb (by decide)
  have hload : off ≠ cfgLoadCtl_go.off := by
    rintro rfl
    have : b = .cfg := Option.some.inj (hp.symm.trans (by decide))
    subst this
    exact absurd hb (by decide)
  show execRegisterWrite w off 15 true v s = _
  simp [execRegisterWrite, guarded, registerAccess, accessAt, writeAt, ho, ha, hload, hp, hhif, Nat.not_lt.2 hbase, hpend, hr,
    writing_of_admits hadm, writeReg_plain v hb hc hw hf]

theorem storeFields_of_findReg {b : Block} {off c : Nat} {r : RegSpec} {s : State} (v : Word) (hr : findReg off = some r) :
    storeFields b off c v s = putReg off c (r.fields.foldl (fieldStore (commitArmed b s) v) (reg off c s))
      (if commitArmed b s && r.fields.any (fun f => f.acc == .rws) then shadowRefused b s else s) := by
  simp only [storeFields, hr]

/-- Settles O6: such a write is `storeFields`, whose word is read off field by field. -/
theorem plainWriteFollowsAccessCodes : Obligations.PlainWriteFollowsAccessCodes := by
  unfold Obligations.PlainWriteFollowsAccessCodes
  intro w b off r v s hb ho ha hp hbase hr hpend hc hw hadm hf
  have hrws : (commitArmed b s = true ∧ ∃ f ∈ r.fields, f.acc = .rws) ↔
      (commitArmed b s && r.fields.any (fun f => f.acc == .rws)) = true := by simp
  refine ⟨_, exec_registerWrite_plain v hb ho ha hp hbase hr hpend hc hw hadm hf, fun f hmem i hi => ?_, fun k hk => ?_, fun b' hb' => ?_,
    ?_, ?_⟩
  · rw [storeFields_of_findReg v hr, reg_putReg_same]
    exact getLsbD_foldl_fieldStore _ v (fieldsInOrder_of_findReg hb hp hr) hmem hi _
  · rw [storeFields_of_findReg v hr]
    refine (sget_sset_other _ _ _ hk).trans ?_
    split <;> rfl
  · rw [storeFields_of_findReg v hr]
    show commitOf b' (if _ then shadowRefused b s else s) = _
    split
    · exact commitOf_putCommit_other _ s hb'
    · rfl
  · rw [storeFields_of_findReg v hr]
    show commitOf b (if _ then shadowRefused b s else s) = _
    simp only [hrws]
    split
    · exact commitOf_putCommit_same b _ s
    · rfl
  · rw [storeFields_of_findReg v hr]
    split <;> rfl

end Sys2Proof.Machine
end

section
/-! PROOFS. Port counters (R183): the snapshot that a read of a LO word takes, and CNT_CLEAR. -/

namespace Sys2Proof.Machine

/-! ### The offsets of the port counters -/

/-- The counter registers of the ports, LO words. -/
def prtLoReg : RegSpec := ⟨0xD000, 24, 8, .chan, [⟨0, 32, .rs, 0⟩]⟩

/-- The counter registers of the ports, HI words. -/
def prtHiReg : RegSpec := ⟨0xD004, 24, 8, .chan, [⟨0, 32, .ro, 0⟩]⟩

/-- The counter arrays with the ports' one first. -/
def prtCtrRegs : CtrRegs := ⟨0xD000, 24, 0xC0A0, 0xC0A4⟩

theorem prtLo_found : ∀ i < 24, blockOfPage ((0xD000 + 8 * i) / 0x1000) = some .prt ∧ pendAt .prt (0xD000 + 8 * i) = none ∧
    findReg (0xD000 + 8 * i) = some prtLoReg ∧ loOf (0xD000 + 8 * i) = some prtCtrRegs := by decide

theorem prtHi_found : ∀ i < 24, blockOfPage ((0xD004 + 8 * i) / 0x1000) = some .prt ∧ pendAt .prt (0xD004 + 8 * i) = none ∧
    findReg (0xD004 + 8 * i) = some prtHiReg ∧ loOf (0xD004 + 8 * i) = none := by decide

/-- A read of the tables' registers behind a header without pending words. -/
theorem readAt_of_findReg {w : Window} {off : Nat} {b : Block} {r : RegSpec} {s : State} (hp : blockOfPage (off / 0x1000) = some b)
    (hb : b ≠ .hif) (hbase : blockBase b + 0x80 ≤ off) (hpend : pendAt b off = none) (hr : findReg off = some r) :
    readAt w off s = readReg w b r off s := by
  simp [readAt, hp, hb, Nat.not_lt.2 hbase, hpend, hr]

/-- A HI word is no LO word of any kind. -/
theorem wideValue_prtHi {i : Nat} (hi : i < 24) (x ch c : Nat) (s : State) : wideValue (0xD004 + 8 * i) x ch c s = none := by
  obtain ⟨-, -, -, hlo⟩ := prtHi_found i hi
  have h1 : ¬ (0xD004 + 8 * i = lanPatErrLo_count.off ∨ 0xD004 + 8 * i = lanPatBitsLo_count.off) := by
    simp only [lanPatErrLo_count, lanPatBitsLo_count]; omega
  have h2 : 0xD004 + 8 * i ≠ pcnCntLo_count.off := by simp only [pcnCntLo_count]; omega
  have h3 : ¬ (0xD004 + 8 * i = tmgVtimeLo_value.off ∨ 0xD004 + 8 * i = tmgTagsLo_value.off) := by
    simp only [tmgVtimeLo_value, tmgTagsLo_value]; omega
  have h4 : ¬ (0xD004 + 8 * i = timPpsInTsSec_sec.off ∨ 0xD004 + 8 * i = tieLinkDelayLo_value.off) := by
    simp only [timPpsInTsSec_sec, tieLinkDelayLo_value]; omega
  have h5 : 0xD004 + 8 * i ≠ tmkOpTimeLo_opTime.off := by simp only [tmkOpTimeLo_opTime]; omega
  simp only [wideValue, hlo, Option.isSome_none, Bool.false_eq_true, h1, h2, h3, h4, h5, if_false]

theorem wideValue_prtLo {i : Nat} (hi : i < 24) (x ch c : Nat) (s : State) :
    wideValue (0xD000 + 8 * i) x ch c s = some (ctr prtCtrs i x s % 2 ^ 32, ctr prtCtrs i x s / 2 ^ 32) := by
  obtain ⟨-, -, -, hlo⟩ := prtLo_found i hi
  simp only [wideValue, hlo, Option.isSome_some, if_true]
  rfl

theorem readReg_prtLo {w : Window} {i : Nat} {s : State} (hi : i < 24) (hf : isFused .prt (selChan w .prt s) s = false) :
    readReg w .prt prtLoReg (0xD000 + 8 * i) s =
      readWide w (0xD000 + 8 * i) (selChan w .prt s) (ctr prtCtrs i (selChan w .prt s) s % 2 ^ 32)
        (ctr prtCtrs i (selChan w .prt s) s / 2 ^ 32) s := by
  simp [readReg, reachesFused, ofChannel, prtLoReg, copyOf, hf, otherKind, readBehaviour, wideValue_prtLo hi]

theorem readReg_prtHi {w : Window} {i : Nat} {s : State} (hi : i < 24) (hf : isFused .prt (selChan w .prt s) s = false) :
    readReg w .prt prtHiReg (0xD004 + 8 * i) s = putRead w (hiWord w (0xD004 + 8 * i) (selChan w .prt s) s) s := by
  have hlow : 0xD004 + 8 * i - 4 = 0xD000 + 8 * i := by omega
  simp [readReg, reachesFused, ofChannel, prtHiReg, copyOf, hf, otherKind, readBehaviour, wideValue_prtHi hi, hlow, wideValue_prtLo hi]

theorem reading_of_reachable {w : Window} {s : State} (h : reachable w s = true) (f : State → State) : reading w f s = f s := if_pos h

/-! ### The commands -/

/-- What the snapshot of a counter's LO word captures. -/
theorem readWide_prtLo {i : Nat} (w : Window) (hi : i < 24) (c lo hi' : Nat) (s : State) :
    readWide w (0xD000 + 8 * i) c lo hi' s = putRead w (BitVec.ofNat 32 lo) { s with fab := { s.fab with
      hiSnap := sset (fun _ => 0) s.fab.hiSnap (winKey w (rkey (0xD004 + 8 * i) c)) (BitVec.ofNat 32 hi')
      wrapSnap := sset (fun _ => none) s.fab.wrapSnap (winKey w (rkey (0xD000 + 8 * i) c))
        (some (wrapBit (rkey (0xD000 + 8 * i) c) s)) } } := by
  obtain ⟨-, -, -, hlo⟩ := prtLo_found i hi
  have hnext : 0xD000 + 8 * i + 4 = 0xD004 + 8 * i := by omega
  simp only [readWide, wrapKeyOf, hlo, Option.isSome_some, true_or, if_true, hnext]

theorem exec_counterSnapshotRead_prt {w : Window} {i : Nat} {s : State} (hi : i < 24) (hr : reachable w s = true)
    (hf : isFused .prt (selChan w .prt s) s = false) :
    exec (.counterSnapshotRead w (0xD000 + 8 * i)) s = .next (readWide w (0xD000 + 8 * i) (selChan w .prt s)
      (ctr prtCtrs i (selChan w .prt s) s % 2 ^ 32) (ctr prtCtrs i (selChan w .prt s) s / 2 ^ 32) s) := by
  obtain ⟨hp, hpend, hfind, hlo⟩ := prtLo_found i hi
  have hbase : blockBase .prt + 0x80 ≤ 0xD000 + 8 * i := Nat.le_trans (by decide) (Nat.le_add_right _ _)
  show execCounterSnapshotRead w _ s = _
  simp only [execCounterSnapshotRead, guarded, isCounterLo, hlo, Option.isSome_some, Bool.true_or, if_true, reading_of_reachable hr,
    readAt_of_findReg hp (by decide) hbase hpend hfind, readReg_prtLo hi hf]

theorem exec_registerWrite_prtHi {w : Window} {i : Nat} {s : State} (hi : i < 24) (hr : reachable w s = true)
    (hf : isFused .prt (selChan w .prt s) s = false) :
    exec (.registerWrite w (0xD004 + 8 * i) 15 false 0) s = .next (putRead w (hiWord w (0xD004 + 8 * i) (selChan w .prt s) s) s) := by
  obtain ⟨hp, hpend, hfind, -⟩ := prtHi_found i hi
  have hbase : blockBase .prt + 0x80 ≤ 0xD004 + 8 * i := Nat.le_trans (by decide) (Nat.le_add_right _ _)
  have hok : 0xD004 + 8 * i < 0x40000 ∧ (0xD004 + 8 * i) % 4 = 0 := by omega
  show execRegisterWrite w _ 15 false 0 s = _
  simp only [execRegisterWrite, guarded, hok, and_self, decide_true, if_true, registerAccess, Bool.false_eq_true, false_and, if_false, accessAt,
    Bool.not_false, reading_of_reachable hr, readAt_of_findReg hp (by decide) hbase hpend hfind, readReg_prtHi hi hf]

/-! ### CNT_CLEAR -/

theorem foldOver_putCtr_eq (xs : List Nat) (key : Nat → Nat) (s : State) :
    foldOver xs (fun i a => putCtr (key i) 0 a) s =
      { s with fab := { s.fab with counters := (foldOver xs (fun i a => putCtr (key i) 0 a) s).fab.counters } } := by
  induction xs generalizing s with
  | nil => rfl
  | cons x xs ih => exact ih (putCtr (key x) 0 s)

theorem sget_foldOver_putCtr (xs : List Nat) (key : Nat → Nat) (s : State) (k : Nat) :
    sget (fun _ => 0) (foldOver xs (fun i a => putCtr (key i) 0 a) s).fab.counters k =
      if ∃ i ∈ xs, key i = k then 0 else sget (fun _ => 0) s.fab.counters k := by
  induction xs generalizing s with
  | nil => simp [foldOver]
  | cons x xs ih =>
    refine (ih (putCtr (key x) 0 s)).trans ?_
    by_cases hx : k = key x
    · subst hx
      simp [putCtr, sget_sset_same]
    · simp [putCtr, sget_sset_other _ _ _ hx, Ne.symm hx]

theorem exec_counterClear_prt {w : Window} {s : State} (v : Word) (ha : Admits w .prt s) (hf : isFused .prt (selChan w .prt s) s = false) :
    exec (.counterClear w 0xC0A0 v) s = .next (clearCounters prtCtrRegs (selChan w .prt s) v s) := by
  have hclear : clearOf 0xC0A0 = some prtCtrRegs := by decide
  have hreg : findReg 0xC0A0 = some ⟨0xC0A0, 1, 4, .chan, [⟨0, 24, .wo, 0⟩]⟩ := by decide
  have hpage : blockOfPage (0xC0A0 / 0x1000) = some .prt := by decide
  have hpend : pendAt .prt 0xC0A0 = none := by decide
  have hbase : ¬ 0xC0A0 < blockBase .prt + 0x80 := by decide
  show execCounterClear w 0xC0A0 v s = _
  simp [execCounterClear, guarded, hclear, writeAt, hpage, hpend, hbase, hreg, writing_of_admits ha, writeReg, reachesFused, ofChannel, hf,
    copyOf]

/-- CNT_CLEAR zeroes the named counters of the channel. -/
theorem sget_clearCounters (k : CtrRegs) (c : Nat) (v : Word) (s : State) (key : Nat) :
    sget (fun _ => 0) (clearCounters k c v s).fab.counters key =
      if ∃ i ∈ (List.range k.n).filter (v.getLsbD ·), rkey (k.lo + 8 * i) c = key then 0 else sget (fun _ => 0) s.fab.counters key := by
  exact sget_foldOver_putCtr _ _ s key

theorem selChan_congr {s t : State} (h : t.fab.latches = s.fab.latches) (w : Window) (b : Block) : selChan w b t = selChan w b s := by
  unfold selChan
  rw [latch_congr h]

@[simp] theorem putRead_counters (w : Window) (v : Word) (s : State) : (putRead w v s).fab.counters = s.fab.counters := by cases w <;> rfl
@[simp] theorem putRead_regs (w : Window) (v : Word) (s : State) : (putRead w v s).fab.regs = s.fab.regs := by cases w <;> rfl
@[simp] theorem putRead_hiSnap (w : Window) (v : Word) (s : State) : (putRead w v s).fab.hiSnap = s.fab.hiSnap := by cases w <;> rfl
@[simp] theorem putRead_wrapSnap (w : Window) (v : Word) (s : State) : (putRead w v s).fab.wrapSnap = s.fab.wrapSnap := by cases w <;> rfl
@[simp] theorem putRead_latches (w : Window) (v : Word) (s : State) : (putRead w v s).fab.latches = s.fab.latches := by cases w <;> rfl
@[simp] theorem putRead_variant (w : Window) (v : Word) (s : State) : (putRead w v s).variant = s.variant := by cases w <;> rfl

/-- Settles O8: the LO read captures the HI word and the wrap bit under the window's own key, where the HI read finds them; CNT_CLEAR
writes the keys of the named counters alone. -/
theorem portCounterReadIsOneMoment : Obligations.PortCounterReadIsOneMoment := by
  unfold Obligations.PortCounterReadIsOneMoment
  intro w s hf
  refine ⟨fun i hi hr => ?_, fun v ha => ?_⟩
  · refine ⟨_, exec_counterSnapshotRead_prt hi hr hf, ?_⟩
    rw [readWide_prtLo w hi]
    refine ⟨lastRead_putRead .., putRead_counters .., putRead_regs .., ?_, fun t' hsnap hlatch hvar hr' => ?_⟩
    · simp [wrapSeen, sget_sset_same]
    · have hc : selChan w .prt t' = selChan w .prt s := selChan_congr (hlatch.trans (putRead_latches ..)) w .prt
      have hf' : isFused .prt (selChan w .prt t') t' = false := by
        rw [hc]
        unfold isFused at hf ⊢
        rwa [hvar, putRead_variant]
      refine ⟨_, exec_registerWrite_prtHi hi hr' hf', ?_⟩
      rw [lastRead_putRead, hiWord, hsnap, putRead_hiSnap, hc]
      exact sget_sset_same _ _ _ _
  · refine ⟨_, exec_counterClear_prt v ha hf, foldOver_putCtr_eq _ _ s, fun i hi => ?_, fun k hk => ?_⟩
    · have hnamed : (∃ j ∈ (List.range prtCtrRegs.n).filter (v.getLsbD ·),
          rkey (prtCtrRegs.lo + 8 * j) (selChan w .prt s) = rkey (prtCtrs.lo + 8 * i) (selChan w .prt s)) ↔ v.getLsbD i = true := by
        constructor
        · rintro ⟨j, hj, hkey⟩
          have : j = i := by simp only [rkey, prtCtrRegs, prtCtrs, prtCntLo_count] at hkey; omega
          exact this ▸ (List.mem_filter.1 hj).2
        · exact fun h => ⟨i, List.mem_filter.2 ⟨List.mem_range.2 hi, h⟩, rfl⟩
      simp only [ctr, sget_clearCounters, hnamed]
    · rw [sget_clearCounters, if_neg]
      rintro ⟨i, hi, hkey⟩
      exact hk i (List.mem_range.1 (List.mem_filter.1 hi).1) hkey.symm

end Sys2Proof.Machine
end

section
/-! PROOFS. Rows of the common state machine (R121 to R123): a write of enable, and the conditions that move a target. -/

namespace Sys2Proof.Machine

theorem tgt_of_targets_eq {s u : State} (h : u.fab.targets = s.fab.targets) (t : Target) : tgt t u = tgt t s := by
  unfold tgt
  rw [h]

theorem commitOf_of_commits_eq {s u : State} (h : u.fab.commits = s.fab.commits) (b : Block) : commitOf b u = commitOf b s := by
  unfold commitOf
  rw [h]

theorem tgtFused_of_variant_eq {s u : State} (h : u.variant = s.variant) (t : Target) : tgtFused t u = tgtFused t s := by
  unfold tgtFused isFused
  rw [h]

theorem guarded_of_true {ok : Bool} (h : ok = true) (t : State) : guarded ok t = .next t := if_pos h

theorem onlyIf_of_true {c : Bool} (h : c = true) (f : State → State) (s : State) : onlyIf c f s = f s := if_pos h

theorem onlyIf_of_false {c : Bool} (h : c = false) (f : State → State) (s : State) : onlyIf c f s = s := by rw [h]; rfl

/-! ### A write of enable -/

/-- Enable written 1: the rows out of OFF. -/
theorem enableOn_spec (t : Target) (s : State) : OnlyTgt t s (enableOn t s) ∧ (tgt t (enableOn t s)).enable = true ∧
    ((tgt t s).st ≠ .off ∨ active s = false → tgt t (enableOn t s) = { tgt t s with enable := true }) ∧
    ((tgt t s).st = .off → active s = true → tgtFused t s = false →
      ((tgt t (enableOn t s)).st = .held ∧ (tgt t (enableOn t s)).starts = (tgt t s).starts) ∨
      (((tgt t (enableOn t s)).st = .starting ∨ (tgt t (enableOn t s)).st = .fault) ∧
        (tgt t (enableOn t s)).starts = ((tgt t s).starts + 1) % 256)) := by
  have ht : tgt t (modTgt t (fun x => { x with enable := true }) s) = { tgt t s with enable := true } := tgt_modTgt_same ..
  obtain ⟨honly, henable, hstay, hleave⟩ := offRows_spec t (modTgt t (fun x => { x with enable := true }) s)
  rw [ht] at henable hstay hleave
  refine ⟨(modTgt_onlyTgt t _ s).trans honly, henable, fun h => ?_, fun hoff hact hf => ?_⟩
  · exact (congrArg (tgt t) (hstay (h.imp_right .inl))).trans ht
  · rcases hleave hoff hact rfl hf with ⟨h1, h2, -⟩ | ⟨h1, h2, -⟩
    · exact .inl ⟨h1, h2⟩
    · exact .inr ⟨h1.imp_right And.left, h2⟩

theorem linkGivenUp_still (t : Target) (s : State) : Still s (linkGivenUp t s) := by
  unfold linkGivenUp
  split
  · exact dropKept_still (Still.refl _)
  · exact Still.refl _

/-- A change of a target's own record, and then work that leaves the state machines alone. -/
theorem modTgt_then_still {t : Target} {f : Tgt → Tgt} {s u : State} (h : Still (modTgt t f s) u) :
    OnlyTgt t s u ∧ tgt t u = f (tgt t s) :=
  ⟨(modTgt_onlyTgt t f s).trans (h.onlyTgt t), (h.tgt t).trans (tgt_modTgt_same t f s)⟩

/-- The record of a target whose enable is written 0 (R121). -/
def Tgt.disabled (x : Tgt) : Tgt :=
  match x.st with
  | .off | .draining => { x with enable := false }
  | .held => { x with enable := false, st := .off }
  | .fault => { x with enable := false, st := .off, faultCode := 0 }
  | .starting | .on => { x with enable := false, st := .draining }

/-- Enable written 0: one record changes, by the row of its state. -/
theorem enableOff_moves (t : Target) (s : State) : OnlyTgt t s (enableOff t s) ∧
    tgt t (enableOff t s) = (tgt t s).disabled := by
  have h1 : OnlyTgt t s (modTgt t (fun x => { x with enable := false }) s) := modTgt_onlyTgt t _ s
  have ht : tgt t (modTgt t (fun x => { x with enable := false }) s) = { tgt t s with enable := false } := tgt_modTgt_same ..
  have then_moves {f : Tgt → Tgt} {u : State} (h : Still (modTgt t f (modTgt t (fun x => { x with enable := false }) s)) u) :
      OnlyTgt t s u ∧ tgt t u = f { tgt t s with enable := false } := by
    obtain ⟨ho, he⟩ := modTgt_then_still h
    exact ⟨h1.trans ho, he.trans (by rw [ht])⟩
  unfold enableOff
  dsimp only
  rw [ht]
  have row {y : Tgt} {u : State} (h : OnlyTgt t s u ∧ tgt t u = y) (hy : (tgt t s).disabled = y) :
      OnlyTgt t s u ∧ tgt t u = (tgt t s).disabled := ⟨h.1, h.2.trans hy.symm⟩
  cases hst : (tgt t s).st with
  | off | draining => exact row ⟨h1, ht⟩ (by simp only [Tgt.disabled, hst])
  | held => exact row (then_moves (linkGivenUp_still t _)) (by simp only [Tgt.disabled, hst])
  | fault =>
    exact row (then_moves ((hostActs_still (Still.refl _)).trans (linkGivenUp_still t _))) (by simp only [Tgt.disabled, hst])
  | starting | on => exact row (then_moves (drainEffects_still (Still.refl _))) (by simp only [Tgt.disabled, hst])

/-- Settles O11: mode is written first, then the target goes by the rows of enable. -/
theorem enableWriteMovesTheTarget : Obligations.EnableWriteMovesTheTarget := by
  unfold Obligations.EnableWriteMovesTheTarget
  intro w b v s ha hfused hhbm t x
  have hb : t.block = b := selTarget_block w b s
  obtain ⟨htargets, howners, hlatches, hcommits, hvariant, hactive⟩ := modeWrite_spec t (wordField v 4 4) s
  have hx : tgt t (modeWrite t (wordField v 4 4) s) = x := tgt_of_targets_eq htargets t
  have hexec : exec (.enableWrite w b v) s = .next (if wordField v 0 1 = 1 then enableOn t (modeWrite t (wordField v 4 4) s)
      else enableOff t (modeWrite t (wordField v 4 4) s)) := by
    have hacc : ¬ (b = .hbm ∧ wordField v 0 1 = 0) := fun h => by have := hhbm h.1; omega
    show Host.Outcome.next (writing w b (blockCtlWrite w b v) s) = _
    rw [writing_of_admits ha]
    simp [blockCtlWrite, hfused, hacc, t]
  have frame {u : State} (h : OnlyTgt t (modeWrite t (wordField v 4 4) s) u) :
      (∀ t', tgtKey t' ≠ tgtKey t → tgt t' u = tgt t' s) ∧ u.fab.owners = s.fab.owners ∧ u.fab.latches = s.fab.latches ∧
        ∀ b', b' ≠ b → commitOf b' u = commitOf b' s :=
    ⟨fun t' h' => (h.others t' h').trans (tgt_of_targets_eq htargets t'), h.owners.trans howners, h.latches.trans hlatches,
      fun b' h' => (commitOf_of_commits_eq h.commits b').trans (hcommits b' (hb ▸ h'))⟩
  refine ⟨_, hexec, ?_⟩
  by_cases hv : wordField v 0 1 = 1
  · simp only [hv, if_true]
    obtain ⟨honly, henable, hstay, hleave⟩ := enableOn_spec t (modeWrite t (wordField v 4 4) s)
    rw [hx, hactive] at hstay
    rw [hx, hactive, tgtFused_of_variant_eq hvariant] at hleave
    obtain ⟨hothers, hown, hlat, hcom⟩ := frame honly
    exact ⟨by simp [henable], hothers, hown, hlat, hcom, fun _ => hstay, fun _ hoff hact => hleave hoff hact hfused,
      fun h => absurd rfl h⟩
  · simp only [hv, if_false]
    obtain ⟨honly, hrec⟩ := enableOff_moves t (modeWrite t (wordField v 4 4) s)
    rw [hx] at hrec
    obtain ⟨hothers, hown, hlat, hcom⟩ := frame honly
    refine ⟨?_, hothers, hown, hlat, hcom, fun h => h.elim, fun h => h.elim, fun _ => ?_⟩ <;> rw [hrec] <;>
      unfold Tgt.disabled <;> cases x.st <;> simp

/-! ### The rows whose condition is not enable -/

/-- A row of the state machine: target t's record takes what `p` says, its enable stays, nothing else of the control part changes, and a FAULT is
raised. -/
def RowMoves (t : Target) (s : State) (p : Tgt → Prop) (u : State) : Prop :=
  p (tgt t u) ∧ (tgt t u).enable = (tgt t s).enable ∧ (∀ t', tgtKey t' ≠ tgtKey t → tgt t' u = tgt t' s) ∧
    u.fab.commits = s.fab.commits ∧ u.fab.owners = s.fab.owners ∧ u.fab.latches = s.fab.latches ∧
    ((tgt t u).st = .fault → Asserted evtBlockFault u)

theorem RowMoves.of_onlyTgt {t : Target} {s u : State} {p : Tgt → Prop} (h : OnlyTgt t s u) (hp : p (tgt t u))
    (he : (tgt t u).enable = (tgt t s).enable) (hf : (tgt t u).st = .fault → Asserted evtBlockFault u) : RowMoves t s p u :=
  ⟨hp, he, h.others, h.commits, h.owners, h.latches, hf⟩

theorem startTarget_moves (t : Target) (s : State) :
    RowMoves t s (fun y => y.starts = ((tgt t s).starts + 1) % 256 ∧ (y.st = .starting ∨ (y.st = .fault ∧ t.block = .prt)))
      (startTarget t s) := by
  obtain ⟨honly, henable, hstarts, hst⟩ := startTarget_spec t s
  exact .of_onlyTgt honly ⟨hstarts, hst.imp_left And.left⟩ henable (startTarget_fault t s)

theorem beginDrain_moves (t : Target) (s : State) :
    RowMoves t s (fun y => y = { tgt t s with st := .draining }) (beginDrain t s) := by
  obtain ⟨honly, hrec⟩ := beginDrain_spec t s
  exact .of_onlyTgt honly hrec (by rw [hrec]) (fun h => by rw [hrec] at h; cases h)

theorem onEffects_moves (t : Target) (s : State) :
    RowMoves t s (fun y => y = { tgt t s with st := .on }) (onEffects t (modTgt t (fun x => { x with st := .on }) s)) := by
  obtain ⟨honly, hrec⟩ := modTgt_then_still (onEffects_still (t := t) (Still.refl (modTgt t (fun x => { x with st := .on }) s)))
  exact .of_onlyTgt honly hrec (by rw [hrec]) (fun h => by rw [hrec] at h; cases h)

theorem fault_moves (t : Target) (code : Nat) (s : State) :
    RowMoves t s (fun y => y = { tgt t s with st := .fault, faultCode := code }) (faultEffects t (enterFault t code s)) := by
  obtain ⟨honly, hrec, hraised⟩ := fault_spec t code s
  exact .of_onlyTgt honly hrec (by rw [hrec]) (fun _ => hraised)

/-- Settles O12: each row's condition holds, so its command has its effect, and the effect is one of four moves. -/
theorem conditionsMoveTheTarget : Obligations.ConditionsMoveTheTarget := by
  unfold Obligations.ConditionsMoveTheTarget
  intro t s hok x moves
  have acts {c : Bool} {f : State → State} (hc : c = true) : guarded (targetOk t) (onlyIf c f s) = .next (f s) := by
    rw [guarded_of_true hok, onlyIf_of_true hc]
  have started (f : Bool) (hst : x.st = .starting) (hp : precondOk t s = true) :
      exec (.startComplete t f) s = .next (startComplete t f s) := acts (by simp [x, hst, hp])
  refine ⟨fun hst hp => ?_, fun hst hp => ?_, fun hst hp => ⟨fun hs => ?_, fun hs => ?_, ?_⟩, fun hst => ?_, fun hst hb => ?_⟩
  · exact ⟨_, acts (by simp [x, hst, hp]), startTarget_moves t s⟩
  · exact ⟨_, acts (by simp [running, x, hst, hp]), beginDrain_moves t s⟩
  · exact ⟨_, (started false hst hp).trans (by simp [startComplete, hs]), onEffects_moves t s⟩
  · exact ⟨_, (started false hst hp).trans (by simp [startComplete, hs]), fault_moves t 2 s⟩
  · exact ⟨_, (started true hst hp).trans (by simp [startComplete]), fault_moves t 2 s⟩
  · exact ⟨_, acts (by simp [x, hst]), fault_moves t 1 s⟩
  · exact ⟨_, acts (by simp [x, hst, hb]), fault_moves t 3 s⟩

end Sys2Proof.Machine
end

section
/-! PROOFS. Writes of COMMIT (R102, R118 to R120). -/

namespace Sys2Proof.Machine

/-! ### The bits of a write -/

theorem ownerCommit_of_admits {w : Window} {b : Block} {s : State} (h : Admits w b s) : ownerCommit w b s = s := by
  obtain ⟨-, -, howner⟩ := h
  simp [ownerCommit, howner]

theorem commitAccess_of_admits {w : Window} {b : Block} {s : State} (h : Admits w b s) (v : Word) :
    commitAccess w b v s = commitWrite w b v s := by
  rw [commitAccess, ownerCommit_of_admits h, writing_of_admits h]

theorem commitWrite_one (w : Window) (b : Block) (s : State) : commitWrite w b 1 s = commitNow b s := by
  have h0 : wordField 1#32 0 1 = 1 := by decide
  have h1 : wordField 1#32 1 1 = 0 := by decide
  have h2 : wordField 1#32 2 1 = 0 := by decide
  have h7 : wordField 1#32 7 1 = 0 := by decide
  simp [commitWrite, h0, h1, h2, h7]

theorem commitWrite_two (w : Window) (b : Block) (s : State) : commitWrite w b 2 s = commitAtTime b s := by
  have h0 : wordField 2#32 0 1 = 0 := by decide
  have h1 : wordField 2#32 1 1 = 1 := by decide
  have h2 : wordField 2#32 2 1 = 0 := by decide
  have h7 : wordField 2#32 7 1 = 0 := by decide
  simp [commitWrite, h0, h1, h2, h7]

theorem commitWrite_four (w : Window) (b : Block) (s : State) : commitWrite w b 4 s = commitCancel b s := by
  have h0 : wordField 4#32 0 1 = 0 := by decide
  have h1 : wordField 4#32 1 1 = 0 := by decide
  have h2 : wordField 4#32 2 1 = 1 := by decide
  have h7 : wordField 4#32 7 1 = 0 := by decide
  simp [commitWrite, h0, h1, h2, h7]

theorem exec_commitNow_of_admits {w : Window} {b : Block} {s : State} (h : Admits w b s) :
    exec (.commitNow w b) s = .next (commitNow b s) :=
  congrArg Host.Outcome.next ((commitAccess_of_admits h 1).trans (commitWrite_one w b s))

theorem exec_commitAtTime_of_admits {w : Window} {b : Block} {s : State} (h : Admits w b s) :
    exec (.commitAtTime w b) s = .next (commitAtTime b s) :=
  congrArg Host.Outcome.next ((commitAccess_of_admits h 2).trans (commitWrite_two w b s))

theorem exec_commitCancel_of_admits {w : Window} {b : Block} {s : State} (h : Admits w b s) :
    exec (.commitCancel w b) s = .next (commitCancel b s) :=
  congrArg Host.Outcome.next ((commitAccess_of_admits h 4).trans (commitWrite_four w b s))

/-! ### Refused commits -/

theorem commitRefused_asserted (b : Block) (code : Nat) (s : State) : Asserted cfgCommitRefused (commitRefused b code s) :=
  raise_asserted _ (by decide)

/-- A refused commit writes its block's record and CFG.LAST_REFUSAL. -/
theorem commitRefused_changes (b : Block) (code : Nat) (s : State) :
    Changes [keyOfField cfgLastRefusal_refusal 0 0] [] (putCommit b { commitOf b s with refusal := code } s) (commitRefused b code s) :=
  (((wr_changes cfgLastRefusal_blockCode _ _ (by decide)).trans (wr_changes cfgLastRefusal_refusal _ _ (by decide))).trans
    (sat1_changes cfgLastRefusal_refusalCount _ (by decide))).events (raise_onlyEvents _ _)

theorem commitOf_commitRefused_same (b : Block) (code : Nat) (s : State) :
    commitOf b (commitRefused b code s) = { commitOf b s with refusal := code } :=
  (commitOf_changes (commitRefused_changes b code s) b).trans (commitOf_putCommit_same ..)

theorem commitOf_commitRefused_other {b b' : Block} (code : Nat) (s : State) (h : b' ≠ b) :
    commitOf b' (commitRefused b code s) = commitOf b' s :=
  (commitOf_changes (commitRefused_changes b code s) b').trans (commitOf_putCommit_other _ s h)

theorem rd_raise {f : Fld} (e : Src) (s : State) (h : ¬ StatKey (keyOfField f 0 0)) : rd f (raise e s) = rd f s :=
  (raise_onlyEvents e s).rdX h

theorem rd_sat1_same {f : Fld} {s : State} (h : f.ok = true) : rd f (sat1 f s) = satAdd (rd f s) 1 (2 ^ f.w - 1) := by
  refine (rdX_wrX_same f 0 0 _ s h).trans (Nat.mod_eq_of_lt ?_)
  rw [satAdd_eq_min]
  exact Nat.lt_of_le_of_lt (Nat.min_le_right _ _) (Nat.sub_lt (Nat.two_pow_pos _) Nat.one_pos)

theorem rd_sat1_other {f g : Fld} {s : State} (h : fieldsApart f 0 0 g 0 0 = true) : rd g (sat1 f s) = rd g s := rdX_wrX_other _ s h

theorem blockCode_lt (b : Block) : blockCode b < 2 ^ 8 := by cases b <;> decide

/-- What CFG.LAST_REFUSAL shows after a refused commit. -/
theorem commitRefused_shown (b : Block) (code : Nat) (s : State) :
    rd cfgLastRefusal_blockCode (commitRefused b code s) = blockCode b ∧
    rd cfgLastRefusal_refusal (commitRefused b code s) = code % 2 ^ cfgLastRefusal_refusal.w ∧
    rd cfgLastRefusal_refusalCount (commitRefused b code s) =
      satAdd (rd cfgLastRefusal_refusalCount s) 1 (2 ^ cfgLastRefusal_refusalCount.w - 1) := by
  have hcode : blockCode b % 2 ^ cfgLastRefusal_blockCode.w = blockCode b := Nat.mod_eq_of_lt (blockCode_lt b)
  unfold commitRefused
  refine ⟨?_, ?_, ?_⟩ <;> rw [rd_raise _ _ (by decide)]
  · rw [rd_sat1_other (by decide), rd_wr_other _ _ (by decide), rd_wr_same _ _ _ (by decide), hcode]
  · rw [rd_sat1_other (by decide), rd_wr_same _ _ _ (by decide)]
  · rw [rd_sat1_same (by decide), rd_wr_other _ _ (by decide), rd_wr_other _ _ (by decide)]
    rfl

/-! ### Armed and cancelled commits -/

theorem commitNow_of_pending {b : Block} {s : State} (h : (commitOf b s).status = 1) : commitNow b s = commitRefused b 1 s := if_pos h

theorem commitAtTime_of_pending {b : Block} {s : State} (h : (commitOf b s).status = 1) : commitAtTime b s = commitRefused b 1 s := if_pos h

theorem dropSystem_of_none {s : State} (h : s.mesh.ver.prepared = none ∧ s.mesh.ver.commitAt = none) : dropSystem s = s := by
  simp [dropSystem, h.1, h.2]

theorem dropSystem_of_manager {s : State} (hm : isManager s = true) (h : s.mesh.ver.prepared ≠ none ∨ s.mesh.ver.commitAt ≠ none) :
    dropSystem s = unprepare (versionAll 5 [] s) := by
  rw [dropSystem, if_pos (by simpa [Option.isSome_iff_ne_none] using h), if_pos hm]

/-- What a cancel of a pending CLS commit leaves of the block's own. -/
def clsCancelled (s : State) : State :=
  putCommit .cls { commitOf .cls s with status := 0, armed := none } { s with ver := { s.ver with check := none } }

theorem commitCancel_cls {s : State} (h : (commitOf .cls s).status = 1) :
    commitCancel .cls s = if isManager s then dropSystem (clsCancelled s) else clsCancelled s := by
  simp [commitCancel, h, clsCancelled]

/-- Settles O15, clause by clause from the equations of the four writes. -/
theorem timedCommitsArmAndCancel : Obligations.TimedCommitsArmAndCancel := by
  unfold Obligations.TimedCommitsArmAndCancel
  intro w b s ha
  refine ⟨fun hb hst hfuture => ?_, fun hst c hc => ?_, fun hst hb => ?_, fun hst hb hat hprep => ?_, fun t hst hb ht => ⟨fun hm => ?_, fun hm hsys => ?_⟩,
    fun hst => ?_⟩
  · simp [exec_commitAtTime_of_admits ha, commitAtTime, hst, hb, hfuture]
  · refine ⟨commitRefused b 1 s, ?_, commitOf_commitRefused_same b 1 s, (commitRefused_shown b 1 s).1, (commitRefused_shown b 1 s).2.1,
      commitRefused_asserted b 1 s, ?_⟩
    · rcases hc with rfl | rfl
      · rw [exec_commitNow_of_admits ha, commitNow_of_pending hst]
      · rw [exec_commitAtTime_of_admits ha, commitAtTime_of_pending hst]
    · have hch := commitRefused_changes b 1 s
      rw [hch.commits]
      exact hch
  · simp [exec_commitCancel_of_admits ha, commitCancel, hst, hb]
  · subst hb
    rw [exec_commitCancel_of_admits ha, commitCancel_cls hst, dropSystem_of_none (s := clsCancelled s) ⟨hprep, hat⟩, ite_self]
    rfl
  · subst hb ht
    rw [exec_commitCancel_of_admits ha, commitCancel_cls hst, hm]
    rfl
  · subst hb ht
    rw [exec_commitCancel_of_admits ha, commitCancel_cls hst, if_pos hm, dropSystem_of_manager (s := clsCancelled s) hm hsys]
    rfl
  · simp [exec_commitCancel_of_admits ha, commitCancel, hst]

/-! ### A commit that is checked -/

/-- A commit that its check refuses. -/
theorem doCommit_refused {b : Block} {late : Bool} {code : Nat} {s : State} (h : blockCheck b s = some code) :
    doCommit b late s =
      putCommit b { commitOf b s with status := 3, refusal := code, armed := none } (commitRefused b code s) := by
  simp only [doCommit, h, commitOf_commitRefused_same]

theorem Changes.with_commits {ks cs : List Nat} {s t : State} (h : Changes ks cs s t) (x : Sparse CommitSt) :
    Changes ks cs { s with fab := { s.fab with commits := x } } { t with fab := { t.fab with commits := x } } :=
  ⟨congrArg (fun u : State => { u with fab := { u.fab with commits := x } }) h.rest, h.regs, h.counters, h.causes, h.control, h.stage, h.out⟩

/-- The state that a commit leaves whose check passed, before what the block brings beside the values. -/
def valuesMoved (b : Block) (late : Bool) (s : State) : State :=
  putCommit b { commitOf b s with status := 2, late := late, lateNext := false, armed := none, count := ((commitOf b s).count + 1) % 2 ^ 16 }
    (moveShadows b s)

theorem doCommit_passed {b : Block} {late : Bool} {s : State} (h : blockCheck b s = none) :
    doCommit b late s = committed b s (valuesMoved b late s) := by
  simp only [doCommit, h]
  rfl

/-- Every shadowed value of the block and no other is in effect after the move. -/
theorem sget_moveShadows (b : Block) (s : State) (k : Nat) :
    sget regReset (moveShadows b s).fab.live k = if shadowed b k then sget regReset s.fab.regs k else sget regReset s.fab.live k := by
  show sget regReset ((sfilter (shadowed b) s.fab.regs).foldr _ (sfilter (fun k => !shadowed b k) s.fab.live)) k = _
  rw [sget_foldr_sput, sget_sfilter, sget_sfilter]
  cases hs : shadowed b k with
  | true =>
    simp only [if_true, Bool.not_true, Bool.false_eq_true, if_false, ite_eq_left_iff]
    intro hk
    refine (sget_of_not_mem _ _ _ fun hm => hk ?_).symm
    obtain ⟨e, he, rfl⟩ := List.mem_map.1 hm
    exact List.mem_map.2 ⟨e, List.mem_filter.2 ⟨he, hs⟩, rfl⟩
  | false =>
    rw [if_neg]
    · simp
    · intro hm
      obtain ⟨e, he, rfl⟩ := List.mem_map.1 hm
      exact Bool.false_ne_true (hs.symm.trans (List.mem_filter.1 he).2)

/-- The three commands that check a commit at once. -/
theorem exec_doCommit {w : Window} {b : Block} {c : Instr} {late : Bool} {s : State} (hb : b ≠ .cls)
    (h : (c = .commitNow w b ∧ late = false ∧ Admits w b s ∧ (commitOf b s).status ≠ 1) ∨
      (c = .commitAtTime w b ∧ late = true ∧ Admits w b s ∧ (commitOf b s).status ≠ 1 ∧ reachedAt (timeNow s) (commitAt b s) = true) ∨
      (c = .timedCommitFire b ∧ late = (commitOf b s).lateNext ∧ ∃ a, (commitOf b s).armed = some a ∧ reachedAt (timeNow s) a = true)) :
    exec c s = .next (doCommit b late s) := by
  rcases h with ⟨rfl, rfl, ha, hst⟩ | ⟨rfl, rfl, ha, hst, hpast⟩ | ⟨rfl, rfl, a, harmed, hreached⟩
  · simp [exec_commitNow_of_admits ha, commitNow, hst, hb]
  · simp [exec_commitAtTime_of_admits ha, commitAtTime, hst, hb, hpast]
  · show Host.Outcome.next (timedFire b s) = _
    simp [timedFire, hb, harmed, hreached]

/-! ### What a commit brings beside the values -/

theorem suggest_emits {v : Nat} {s : State} (h : v ≠ rd pwrAvsStatus_suggestedMv s ∧ avsDrives s = true) :
    Output.bus "AVS" [700 + v] ∈ (suggest v s).out := by
  simp [suggest, h, avsRequest, emit]

/-- Drive mode turned on while the device is held asks for 0.700 V. -/
theorem pwrCommitted_of_held {old new : State} (hheld : held new = true) (hold : cf pwrAvsCtl_mode old ≠ 2) (hnew : cf pwrAvsCtl_mode new = 2) :
    rd pwrAvsStatus_suggestedMv (pwrCommitted old new) = 0 ∧ Output.bus "AVS" [700] ∈ (pwrCommitted old new).out := by
  have hv : boundedAdvice new = 0 := by simp [boundedAdvice, hheld]
  have hdrives : avsDrives new = true ∧ avsDrives old = false := by simp [avsDrives, hold, hnew]
  have hsug : rd pwrAvsStatus_suggestedMv (suggest 0 new) = 0 := rd_suggest 0 new
  unfold pwrCommitted
  simp only [hv, hheld, hdrives, Bool.true_and, Bool.not_false]
  by_cases h0 : rd pwrAvsStatus_suggestedMv new = 0
  · simp only [h0, decide_true, if_true]
    exact ⟨hsug, by simp [avsRequest, emit]⟩
  · simp only [h0, decide_false, Bool.false_eq_true, if_false]
    exact ⟨hsug, suggest_emits ⟨Ne.symm h0, hdrives.1⟩⟩

/-- A suggestion within the new bounds stays. -/
theorem rd_pwrCommitted_of_within {old new : State} (hheld : held new = false) (hact : active new = true)
    (hlo : cf pwrAvsCtl_floor new ≤ rd pwrAvsStatus_suggestedMv new) (hhi : rd pwrAvsStatus_suggestedMv new ≤ cf pwrAvsCtl_ceiling new) :
    rd pwrAvsStatus_suggestedMv (pwrCommitted old new) = rd pwrAvsStatus_suggestedMv new := by
  have hv : boundedAdvice new = rd pwrAvsStatus_suggestedMv new := by
    simp [boundedAdvice, hheld, hact, Nat.min_eq_left hhi, Nat.max_eq_left hlo]
  simp only [pwrCommitted, hv, hheld, Bool.false_and, Bool.false_eq_true, if_false, rd_suggest]
  exact Nat.mod_eq_of_lt (rdX_lt pwrAvsStatus_suggestedMv 0 0 new)

theorem benchQueue_putBenchQueue_same (q : Nat) (x : BenchQueue) (s : State) : benchQueue q (putBenchQueue q x s) = x :=
  sget_sset_same _ _ _ _

theorem benchQueue_putBenchQueue_other {q r : Nat} (x : BenchQueue) (s : State) (h : r ≠ q) :
    benchQueue r (putBenchQueue q x s) = benchQueue r s := sget_sset_other _ _ _ h

/-- A bucket that is filled stays full while others are filled. -/
theorem foldOver_fill_full {q : Nat} (qs : List Nat) (s : State) (h : q ∈ qs ∨ (benchQueue q s).tokensUsed = 0) :
    (benchQueue q (foldOver qs (fun q a => putBenchQueue q { benchQueue q a with tokensUsed := 0 } a) s)).tokensUsed = 0 := by
  induction qs generalizing s with
  | nil => exact h.resolve_left (List.not_mem_nil)
  | cons r qs ih =>
    refine ih (putBenchQueue r { benchQueue r s with tokensUsed := 0 } s) ?_
    by_cases hr : q = r
    · subst hr
      exact .inr (by rw [benchQueue_putBenchQueue_same])
    · rw [benchQueue_putBenchQueue_other _ _ hr]
      exact h.imp_left fun hm => (List.mem_cons.1 hm).resolve_left hr

/-! ### Reserves (R412, R421) -/

theorem not_statKey_reqUsed {p : Nat} (r : Nat) (hp : p < 5) : ¬ StatKey (keyOfField bpmReqUsed_count p r) := by
  simp only [StatKey, keyOfField, rkey, bpmReqUsed_count, tmkStat_count]
  omega

theorem not_statKey_lowWater {p : Nat} (hp : p < 5) : ¬ StatKey (keyOfField bpmLowWater_level p 0) := by
  simp only [StatKey, keyOfField, rkey, bpmLowWater_level, tmkStat_count]
  omega

/-- The free buffers of a pool depend on its reserves, its use and the retired ones. -/
theorem sharedFree_congr {p : Nat} {s t : State} (hp : t.pools = s.pools) (hl : t.fab.live = s.fab.live)
    (hu : ∀ r, rdX bpmReqUsed_count p r t = rdX bpmReqUsed_count p r s) : sharedFree p t = sharedFree p s := by
  have hc (r : Nat) : cfX bpmReqReserve_count p r t = cfX bpmReqReserve_count p r s := by
    unfold cfX liveReg
    rw [hl]
  simp only [sharedFree, usedOf, poolRetired, hp, hc, hu]

theorem sharedFree_events {p : Nat} {s t : State} (hp : p < 5) (h : OnlyEvents s t) : sharedFree p t = sharedFree p s :=
  sharedFree_congr h.pools h.live fun r => h.rdX (not_statKey_reqUsed r hp)

theorem poolLowCheck_onlyEvents (p : Nat) (before : Int) (s : State) : OnlyEvents s (poolLowCheck p before s) := by
  unfold poolLowCheck
  dsimp only
  split
  · exact raise_onlyEvents _ _
  · exact OnlyEvents.refl s

theorem poolLowCheck_asserted {p : Nat} {before : Int} {s : State} (hp : p < 5)
    (h : (rdX bpmLowWater_level p 0 s : Int) ≠ 0 ∧ (rdX bpmLowWater_level p 0 s : Int) ≤ before ∧
      sharedFree p s < (rdX bpmLowWater_level p 0 s : Int)) : Asserted (bpmPoolLow p) (poolLowCheck p before s) := by
  rw [poolLowCheck, if_pos h]
  exact raise_asserted _ (by show 3 + p < 32; omega)

/-- The mark of a guard that the free buffers have fallen below. -/
def guardMarked (low : Bool) (s : State) : State := { s with sw := { s.sw with guardLow := low } }

theorem asserted_guardMarked (e : Src) (low : Bool) (s : State) : Asserted e (guardMarked low s) ↔ Asserted e s := Iff.rfl

theorem guardCheck_onlyEvents (s : State) :
    OnlyEvents (guardMarked (decide (sharedFree 0 s < (cf swcGuard_guard s : Int))) s) (guardCheck s) := by
  unfold guardCheck
  dsimp only
  split
  · exact raise_onlyEvents _ _
  · exact OnlyEvents.refl _

theorem guardCheck_asserted {s : State} (h : sharedFree 0 s < (cf swcGuard_guard s : Int)) (hl : s.sw.guardLow = false) :
    Asserted swcGuardActive (guardCheck s) := by
  simp only [guardCheck, h, hl, decide_true, Bool.not_false, Bool.and_self, if_true]
  exact raise_asserted _ (by decide)

/-- The pools' checks after pool 0's, whose guard is marked. -/
theorem foldOver_noteShared_onlyEvents (old : State) {ps : List Nat} (h0 : 0 ∉ ps) (s : State) :
    OnlyEvents s (foldOver ps (fun p a => noteShared p (sharedFree p old) a) s) := by
  induction ps generalizing s with
  | nil => exact OnlyEvents.refl s
  | cons p ps ih =>
    have hp : p ≠ 0 := fun e => h0 (e ▸ List.mem_cons_self)
    have hstep : noteShared p (sharedFree p old) s = poolLowCheck p (sharedFree p old) s := by simp [noteShared, hp]
    show OnlyEvents s (foldOver ps _ (noteShared p (sharedFree p old) s))
    rw [hstep]
    exact (poolLowCheck_onlyEvents p _ s).trans (ih (fun hm => h0 (List.mem_cons_of_mem _ hm)) _)

/-- Pool `p` has fallen below its low water by a commit. -/
def FellLow (old : State) (p : Nat) (s : State) : Prop :=
  (rdX bpmLowWater_level p 0 s : Int) ≠ 0 ∧ (rdX bpmLowWater_level p 0 s : Int) ≤ sharedFree p old ∧
    sharedFree p s < (rdX bpmLowWater_level p 0 s : Int)

theorem FellLow.events {old s t : State} {p : Nat} (h : FellLow old p s) (hp : p < 5) (k : OnlyEvents s t) : FellLow old p t := by
  unfold FellLow
  rwa [k.rdX (not_statKey_lowWater hp), sharedFree_events hp k]

theorem FellLow.marked {old s : State} {p : Nat} (h : FellLow old p s) (low : Bool) : FellLow old p (guardMarked low s) := h

theorem foldOver_noteShared_asserted {old : State} {p : Nat} {ps : List Nat} (h0 : 0 ∉ ps) (hp : p < 5) (hm : p ∈ ps) {s : State}
    (h : FellLow old p s) : Asserted (bpmPoolLow p) (foldOver ps (fun p a => noteShared p (sharedFree p old) a) s) := by
  induction ps generalizing s with
  | nil => exact absurd hm List.not_mem_nil
  | cons q ps ih =>
    have hq : q ≠ 0 := fun e => h0 (e ▸ List.mem_cons_self)
    have hps : 0 ∉ ps := fun hm => h0 (List.mem_cons_of_mem _ hm)
    have hstep : noteShared q (sharedFree q old) s = poolLowCheck q (sharedFree q old) s := by simp [noteShared, hq]
    show Asserted _ (foldOver ps _ (noteShared q (sharedFree q old) s))
    rw [hstep]
    rcases List.mem_cons.1 hm with rfl | hm'
    · exact (foldOver_noteShared_onlyEvents old hps _).causes _ (poolLowCheck_asserted hp h)
    · exact ih hps hm' (h.events hp (poolLowCheck_onlyEvents q _ s))

theorem noteShared_zero (before : Int) (s : State) : noteShared 0 before s = guardCheck (poolLowCheck 0 before s) := by
  unfold noteShared
  rw [if_pos rfl]

theorem foldOver_cons {α σ : Type} (x : α) (xs : List α) (f : α → σ → σ) (s : σ) : foldOver (x :: xs) f s = foldOver xs f (f x s) := rfl

theorem bpmCommitted_eq (old u : State) : bpmCommitted old u =
    foldOver [1, 2, 3, 4] (fun p a => noteShared p (sharedFree p old) a) (guardCheck (poolLowCheck 0 (sharedFree 0 old) u)) := by
  unfold bpmCommitted
  rw [show List.range 5 = 0 :: [1, 2, 3, 4] by decide, foldOver_cons, noteShared_zero]

/-- What a BPM commit brings: the guard is marked, and the pools and the guard that have fallen are raised. -/
theorem bpmCommitted_spec (old u : State) :
    OnlyEvents (guardMarked (decide (sharedFree 0 u < (cf swcGuard_guard u : Int))) u) (bpmCommitted old u) ∧
    (∀ p, p < 5 → FellLow old p u → Asserted (bpmPoolLow p) (bpmCommitted old u)) ∧
    (sharedFree 0 u < (cf swcGuard_guard u : Int) → u.sw.guardLow = false → Asserted swcGuardActive (bpmCommitted old u)) := by
  have hlow : OnlyEvents u (poolLowCheck 0 (sharedFree 0 old) u) := poolLowCheck_onlyEvents 0 _ u
  have hmark : OnlyEvents (guardMarked (decide (sharedFree 0 u < (cf swcGuard_guard u : Int))) u)
      (guardCheck (poolLowCheck 0 (sharedFree 0 old) u)) := by
    have h := guardCheck_onlyEvents (poolLowCheck 0 (sharedFree 0 old) u)
    rw [sharedFree_events (by decide) hlow, show cf swcGuard_guard (poolLowCheck 0 (sharedFree 0 old) u) = cf swcGuard_guard u from
      hlow.cfX _ _ _] at h
    refine OnlyEvents.trans ?_ h
    unfold guardMarked
    rw [hlow.sw]
    exact hlow.with_sw _
  have hrest : OnlyEvents (guardCheck (poolLowCheck 0 (sharedFree 0 old) u)) (bpmCommitted old u) := by
    rw [bpmCommitted_eq]
    exact foldOver_noteShared_onlyEvents old (by decide) _
  refine ⟨hmark.trans hrest, fun p hp hfell => ?_, fun h hl => ?_⟩
  · by_cases h0 : p = 0
    · subst h0
      refine hrest.causes _ ?_
      have hcause := (guardCheck_onlyEvents (poolLowCheck 0 (sharedFree 0 old) u)).causes (bpmPoolLow 0)
      exact hcause ((asserted_guardMarked _ _ _).2 (poolLowCheck_asserted hp hfell))
    · rw [bpmCommitted_eq]
      exact foldOver_noteShared_asserted (by decide) hp (by simp; omega) ((hfell.marked _).events hp hmark)
  · refine hrest.causes _ (guardCheck_asserted ?_ ?_)
    · rwa [sharedFree_events (by decide) hlow, show cf swcGuard_guard (poolLowCheck 0 (sharedFree 0 old) u) = cf swcGuard_guard u from
        hlow.cfX _ _ _]
    · rwa [hlow.sw]

/-- Settles O14: `doCommit` by the outcome of the block's check, and what each block's own effect comes to. -/
theorem commitMovesTheShadowSet : Obligations.CommitMovesTheShadowSet := by
  unfold Obligations.CommitMovesTheShadowSet
  refine ⟨fun w b c late s hb hc => ⟨fun code hcheck => ?_, fun hcheck => ?_⟩, fun b s u => ⟨fun hmem => ?_, rd_pwrCommitted_of_within,
    pwrCommitted_of_held, fun hrate q => ?_, ?_, rfl⟩⟩
  · have hch := commitRefused_changes b code s
    obtain ⟨hblock, hcode, hcount⟩ := commitRefused_shown b code s
    refine ⟨_, (exec_doCommit hb hc).trans (congrArg _ (doCommit_refused hcheck)), commitOf_putCommit_same .., fun b' hb' => ?_, hblock, hcode,
      hcount, commitRefused_asserted b code s, hch.with_commits _⟩
    rw [commitOf_putCommit_other _ _ hb', commitOf_commitRefused_other code s hb']
  · exact ⟨valuesMoved b late s, (exec_doCommit hb hc).trans (congrArg _ (doCommit_passed hcheck)), sget_moveShadows b s,
      commitOf_putCommit_same .., fun b' hb' => commitOf_putCommit_other _ _ hb', rfl⟩
  · cases b <;> simp at hmem <;> rfl
  · show (benchQueue q (bncCommitted s u)).tokensUsed = 0 ∨ _
    rw [bncCommitted, if_neg hrate]
    by_cases hq : q ∈ u.bq.map (·.1)
    · exact .inl (foldOver_fill_full _ u (.inl hq))
    · exact .inr hq
  · obtain ⟨hevents, hpools, hguard⟩ := bpmCommitted_spec s u
    exact ⟨_, rfl, hevents, fun p hp h0 hle hlt => hpools p hp ⟨by exact_mod_cast h0, hle, hlt⟩, hguard⟩

end Sys2Proof.Machine
end

section
/-! PROOFS. Forced sources, cleared causes, the limiter's expiries and MSI-X vectors (R126 to R131). -/

namespace Sys2Proof.Machine

/-! ### What signalling leaves of the event unit -/

theorem signalVector_cause (v : Nat) (s : State) : (signalVector v s).evt.cause = s.evt.cause := by
  unfold signalVector
  split
  · rfl
  · split <;> rfl

theorem foldl_signalVector_cause (vs : List Nat) (s : State) : (vs.foldl (fun a i => signalVector i a) s).evt.cause = s.evt.cause := by
  induction vs generalizing s with
  | nil => rfl
  | cons v vs ih => exact (ih _).trans (signalVector_cause v s)

theorem refreshSignals_cause (s : State) : (refreshSignals s).1.evt.cause = s.evt.cause := foldl_signalVector_cause _ _

/-- With MSI-X enabled signalling asserts nothing. -/
theorem resignal_of_enabled {s : State} (h : s.evt.msixEnable = true) : resignal s = (refreshSignals s).1 := by
  have h2 : (refreshSignals s).2 = false := by simp [refreshSignals, h]
  unfold resignal
  dsimp only
  rw [h2]
  rfl

theorem resignal_cause_of_enabled {s : State} (h : s.evt.msixEnable = true) : (resignal s).evt.cause = s.evt.cause := by
  rw [resignal_of_enabled h, refreshSignals_cause]

/-! ### Forced assertions (R129) -/

theorem raiseForced_pend {e : Src} (c : Option Nat) (s : State) (he : e.b < 32) : (raiseForced e c s).evt.pend = (setPend e c s).evt.pend :=
  (assertN_limiter 4 c true s he).1

theorem raiseForced_limiter {e : Src} (c : Option Nat) (s : State) (he : e.b < 32) : LimiterKept sideSources s (raiseForced e c s) :=
  (assertN_limiter 4 c true s he).2

theorem mem_namedSources {g : Nat} {v : Word} {e : Src} :
    e ∈ namedSources g v ↔ e.g = g ∧ e.b < 32 ∧ v.getLsbD e.b = true ∧ (assignedBits g).testBit e.b = true := by
  obtain ⟨g', i⟩ := e
  simp only [namedSources, List.mem_map, List.mem_filter, List.mem_range, Bool.and_eq_true, Src.mk.injEq]
  constructor
  · rintro ⟨j, ⟨hj, hv, ha⟩, rfl, rfl⟩
    exact ⟨rfl, hj, hv, ha⟩
  · rintro ⟨rfl, hj, hv, ha⟩
    exact ⟨i, ⟨hj, hv, ha⟩, rfl, rfl⟩

/-- Forcing a list of sources leaves everything but events. -/
theorem foldOver_raiseForced_onlyEvents (es : List Src) (c : Option Nat) (s : State) :
    OnlyEvents s (foldOver es (fun e a => raiseForced e c a) s) :=
  foldOver_onlyEvents (fun e a => raiseForced_onlyEvents e c a) s

theorem foldOver_raiseForced_limiter {es : List Src} (hes : ∀ e ∈ es, e.b < 32) (c : Option Nat) (s : State) :
    LimiterKept sideSources s (foldOver es (fun e a => raiseForced e c a) s) := by
  induction es generalizing s with
  | nil => exact LimiterKept.refl _ s
  | cons e es ih =>
    exact (raiseForced_limiter c s (hes e List.mem_cons_self)).trans (ih (fun f hf => hes f (List.mem_cons_of_mem _ hf)) _)

theorem foldOver_raiseForced_asserted {es : List Src} (hes : ∀ e ∈ es, e.b < 32) {e : Src} (he : e ∈ es) (c : Option Nat) (s : State) :
    Asserted e (foldOver es (fun e a => raiseForced e c a) s) := by
  induction es generalizing s with
  | nil => exact absurd he List.not_mem_nil
  | cons f es ih =>
    rcases List.mem_cons.1 he with rfl | he
    · exact (foldOver_raiseForced_onlyEvents es c _).causes e (raiseForced_asserted c s (hes e List.mem_cons_self))
    · exact ih (fun f hf => hes f (List.mem_cons_of_mem _ hf)) he _

/-! ### Pending bits of channels (R127) -/

/-- The pending bit of channel `c` in cause register g. -/
def PendBit (g c : Nat) (s : State) : Prop := (sget (fun _ => 0) s.evt.pend (16 * g + c / 32)).getLsbD (c % 32) = true

theorem setPend_of_global {e : Src} {c : Nat} {b : Block} {s : State} (hb : blockOfG e.g = some b)
    (h : chanCount b = 1 ∨ isFused b c s = true ∨ globalSrc e b = true) : setPend e (some c) s = s := by
  simp only [setPend, hb]
  exact if_pos h

theorem setPend_of_channel {e : Src} {c : Nat} {b : Block} {s : State} (hb : blockOfG e.g = some b)
    (h : ¬ (chanCount b = 1 ∨ isFused b c s = true ∨ globalSrc e b = true)) : PendBit e.g c (setPend e (some c) s) := by
  have hc : c % 32 < 32 := Nat.mod_lt _ (by decide)
  simp only [setPend, hb, if_neg h, PendBit, smod, sget_sset_same, BitVec.getLsbD_or, BitVec.getLsbD_ofNat, Nat.testBit_two_pow_self, hc,
    decide_true, Bool.and_true, Bool.or_true]

theorem setPend_mono {e : Src} {c : Option Nat} {g d : Nat} {s : State} (h : PendBit g d s) : PendBit g d (setPend e c s) := by
  unfold setPend
  split
  · split
    · exact h
    · unfold PendBit smod
      dsimp only
      by_cases hk : 16 * g + d / 32 = 16 * e.g + ‹Nat› / 32
      · rw [hk, sget_sset_same, ← hk, BitVec.getLsbD_or]
        exact Bool.or_eq_true_iff.2 (.inl h)
      · rwa [sget_sset_other _ _ _ hk]
  · exact h

theorem raiseForced_pendBit_mono {e : Src} {c : Option Nat} {g d : Nat} {s : State} (he : e.b < 32) (h : PendBit g d s) :
    PendBit g d (raiseForced e c s) := by
  unfold PendBit
  rw [raiseForced_pend c s he]
  exact setPend_mono h

theorem foldOver_raiseForced_pendBit_mono {es : List Src} (hes : ∀ e ∈ es, e.b < 32) {c : Option Nat} {g d : Nat} {s : State}
    (h : PendBit g d s) : PendBit g d (foldOver es (fun e a => raiseForced e c a) s) := by
  induction es generalizing s with
  | nil => exact h
  | cons e es ih =>
    exact ih (fun f hf => hes f (List.mem_cons_of_mem _ hf)) (raiseForced_pendBit_mono (hes e List.mem_cons_self) h)

theorem isFused_of_variant_eq {s u : State} (h : u.variant = s.variant) (b : Block) (c : Nat) : isFused b c u = isFused b c s := by
  unfold isFused
  rw [h]

/-- A forced source of a channel sets the channel's bit. -/
theorem foldOver_raiseForced_pendBit {es : List Src} (hes : ∀ e ∈ es, e.b < 32) {e : Src} (he : e ∈ es) {c : Nat} {b : Block} {s : State}
    (hb : blockOfG e.g = some b) (h : ¬ (chanCount b = 1 ∨ isFused b c s = true ∨ globalSrc e b = true)) :
    PendBit e.g c (foldOver es (fun e a => raiseForced e (some c) a) s) := by
  induction es generalizing s with
  | nil => exact absurd he List.not_mem_nil
  | cons f es ih =>
    have hes' : ∀ e ∈ es, e.b < 32 := fun f hf => hes f (List.mem_cons_of_mem _ hf)
    rcases List.mem_cons.1 he with rfl | he
    · refine foldOver_raiseForced_pendBit_mono hes' ?_
      unfold PendBit
      rw [raiseForced_pend _ s (hes e List.mem_cons_self)]
      exact setPend_of_channel hb h
    · refine ih hes' he ?_
      rwa [isFused_of_variant_eq (raiseForced_onlyEvents f _ s).variant]

/-- Forced sources that set no pending bit. -/
theorem foldOver_raiseForced_pend {es : List Src} (hes : ∀ e ∈ es, e.b < 32) {c : Option Nat} {s : State}
    (h : ∀ e ∈ es, ∀ a : State, a.variant = s.variant → setPend e c a = a) :
    (foldOver es (fun e a => raiseForced e c a) s).evt.pend = s.evt.pend := by
  suffices ∀ a : State, a.variant = s.variant → (foldOver es (fun e a => raiseForced e c a) a).evt.pend = a.evt.pend from this s rfl
  induction es with
  | nil => exact fun _ _ => rfl
  | cons e es ih =>
    intro a ha
    have hstep : (raiseForced e c a).evt.pend = a.evt.pend := by
      rw [raiseForced_pend c a (hes e List.mem_cons_self), h e List.mem_cons_self a ha]
    exact (ih (fun f hf => hes f (List.mem_cons_of_mem _ hf)) (fun f hf => h f (List.mem_cons_of_mem _ hf)) _
      ((raiseForced_onlyEvents e c a).variant.trans ha)).trans hstep

theorem blockOfG_firstG {b : Block} {k : Nat} (h : k < causeCount b) : blockOfG (firstG b + k) = some b := by
  have hall : ∀ k < causeCount b, blockOfG (firstG b + k) = some b := by cases b <;> decide
  exact hall k h

/-! ### Cleared causes -/

theorem causeReg_at {b : Block} {k : Nat} (h : k < causeCount b) :
    blockOfPage ((blockBase b + 0x20 + 16 * k) / 0x1000) = some b ∧ causeAt b (blockBase b + 0x20 + 16 * k) = some k := by
  have hall : ∀ k < causeCount b, blockOfPage ((blockBase b + 0x20 + 16 * k) / 0x1000) = some b ∧
      causeAt b (blockBase b + 0x20 + 16 * k) = some k := by cases b <;> decide
  exact hall k h

theorem blockOfPage_pendWord (b : Block) : ∀ k < causeCount b, ∀ i < (chanCount b + 31) / 32, 1 < chanCount b ∧ globalCause b k = false →
    blockOfPage ((lastPage b + 0x800 + 0x100 * k + 4 * i) / 0x1000) = some b := by
  cases b <;> decide

theorem causeAt_pendWord (b : Block) : ∀ k < causeCount b, ∀ i < (chanCount b + 31) / 32, 1 < chanCount b ∧ globalCause b k = false →
    causeAt b (lastPage b + 0x800 + 0x100 * k + 4 * i) = none := by
  cases b <;> decide

theorem pendAt_pendWord (b : Block) : ∀ k < causeCount b, ∀ i < (chanCount b + 31) / 32, 1 < chanCount b ∧ globalCause b k = false →
    pendAt b (lastPage b + 0x800 + 0x100 * k + 4 * i) = some (k, i) := by
  cases b <;> decide

theorem exec_causeClear_register {w : Window} {b : Block} {k : Nat} {v : Word} {s : State} (h : k < causeCount b) (ha : AdmitsFree w b s) :
    exec (.causeClear w (blockBase b + 0x20 + 16 * k) v) s = .next (clearCause (firstG b + k) v s) := by
  obtain ⟨hp, hc⟩ := causeReg_at h
  show execCauseClear w _ v s = _
  simp [execCauseClear, guarded, isCause, causeWrite, hp, hc, writingFree_of_admits ha]

theorem exec_causeClear_pend {w : Window} {b : Block} {k i : Nat} {v : Word} {s : State} (h : k < causeCount b) (hn : 1 < chanCount b)
    (hg : globalCause b k = false) (hi : i < (chanCount b + 31) / 32) (ha : Admits w b s) :
    exec (.causeClear w (lastPage b + 0x800 + 0x100 * k + 4 * i) v) s = .next (clearPend (firstG b + k) i v s) := by
  have hp := blockOfPage_pendWord b k h i hi ⟨hn, hg⟩
  have hc := causeAt_pendWord b k h i hi ⟨hn, hg⟩
  have hpend := pendAt_pendWord b k h i hi ⟨hn, hg⟩
  show execCauseClear w _ v s = _
  simp [execCauseClear, guarded, isCause, causeWrite, hp, hc, hpend, writing_of_admits ha]

/-- Settles O16: forcing is a fold over the named sources, clearing a store under the register's key. -/
theorem forcedSourcesAndClearedCauses : Obligations.ForcedSourcesAndClearedCauses := by
  unfold Obligations.ForcedSourcesAndClearedCauses
  intro w b k v s hk
  have hbg := blockOfG_firstG hk
  have hnum : ∀ e ∈ namedSources (firstG b + k) v, e.b < 32 := fun e he => (mem_namedSources.1 he).2.1
  refine ⟨fun ha => ⟨forceWrite w b k v s, ?_, foldOver_raiseForced_onlyEvents _ _ s, foldOver_raiseForced_limiter hnum _ s,
    fun i hi hv has => ?_, fun hc hf hex => ?_, fun hno => ?_⟩, fun ha => ⟨_, exec_causeClear_register hk ha, resignal_onlyEvents _, fun hen g => ?_⟩,
    fun i hc hg hi ha => exec_causeClear_pend hk hc hg hi ha⟩
  · show guarded _ (writing w b _ s) = _
    rw [guarded_of_true (decide_eq_true hk), writing_of_admits ha]
  · exact foldOver_raiseForced_asserted hnum (mem_namedSources.2 ⟨rfl, hi, hv, has⟩) _ s
  · obtain ⟨i, hi, hv, has, hglob⟩ := hex
    have hchan : forceChan w b s = some (latch w b s).chan := if_neg (by omega)
    unfold forceWrite
    rw [hchan]
    refine foldOver_raiseForced_pendBit hnum (e := ⟨firstG b + k, i⟩) (mem_namedSources.2 ⟨rfl, hi, hv, has⟩) hbg ?_
    simp only [hf, hglob, Bool.false_eq_true, or_false]
    omega
  · refine foldOver_raiseForced_pend hnum fun e he a hvar => ?_
    obtain ⟨hg, hlt, hv, -⟩ := mem_namedSources.1 he
    unfold forceChan
    split
    · rfl
    · refine setPend_of_global (hg ▸ hbg) ?_
      rw [isFused_of_variant_eq hvar]
      refine hno.imp_right (Or.imp_right fun hall => ?_)
      have hsrc : e = ⟨firstG b + k, e.b⟩ := by rw [← hg]
      rw [hsrc]
      exact hall e.b hlt hv
  · have hcause : (clearCause (firstG b + k) v s).evt.cause = sset (fun _ => 0) s.evt.cause (firstG b + k) (causeReg (firstG b + k) s &&& ~~~v) :=
      resignal_cause_of_enabled (s := { s with evt := { s.evt with cause := _ } }) hen
    unfold causeReg
    rw [hcause]
    split
    · next h => rw [h, sget_sset_same]; rfl
    · next h => rw [sget_sset_other _ _ _ h]

end Sys2Proof.Machine
end

section
/-! PROOFS. The limiter's expiries and writes (R129), and MSI-X vectors (R131). -/

namespace Sys2Proof.Machine

/-! ### The limiter (R129) -/

theorem resignal_limiter (s : State) : LimiterKept (evtMsixDisabled :: sideSources) s (resignal s) := by
  unfold resignal
  dsimp only
  split
  · exact (refreshSignals_pendKept s).limiter.trans (assertN_limiter 4 none false _ (by decide)).2
  · exact (refreshSignals_pendKept s).limiter

theorem resignal_pendKept_of_enabled {s : State} (h : s.evt.msixEnable = true) : PendKept s (resignal s) := by
  rw [resignal_of_enabled h]
  exact refreshSignals_pendKept s

/-- The auto-mask of source n taken back (the first half of `quietExpire`). -/
def autoCleared (n : Nat) (s : State) : State :=
  { s with evt := { s.evt with auto := smod (fun _ => 0) s.evt.auto (n / 32) (fun m => m &&& ~~~ (BitVec.ofNat 32 (2 ^ (n % 32)))) } }

theorem quietExpire_of_masked {n : Nat} {s : State} (h : (autoReg (n / 32) s).getLsbD (n % 32) = true) :
    quietExpire n s = raise evtAutoMaskCleared (resignal (autoCleared n s)) :=
  if_pos (wordField_one_eq_one.2 h)

theorem quietExpire_of_clear {n : Nat} {s : State} (h : (autoReg (n / 32) s).getLsbD (n % 32) = false) : quietExpire n s = s :=
  if_neg (fun hw => by rw [wordField_one_eq_one.1 hw] at h; cases h)

theorem quietExpire_limiter (n : Nat) (s : State) :
    LimiterKept (evtAutoMaskCleared :: sideSources) (autoCleared n s) (raise evtAutoMaskCleared (resignal (autoCleared n s))) :=
  ((resignal_limiter _).mono (by decide)).trans (assertN_limiter 4 none false _ (by decide)).2

theorem getLsbD_autoCleared (n : Nat) (s : State) {e : Src} (he : e.b < 32) :
    (autoReg e.g (autoCleared n s)).getLsbD e.b = ((autoReg e.g s).getLsbD e.b && !decide (e = ⟨n / 32, n % 32⟩)) := by
  obtain ⟨g, b⟩ := e
  dsimp only at he ⊢
  unfold autoReg autoCleared smod
  dsimp only
  by_cases hg : g = n / 32
  · subst hg
    rw [sget_sset_same, BitVec.getLsbD_and, BitVec.getLsbD_not, BitVec.getLsbD_ofNat, Nat.testBit_two_pow]
    simp [he, eq_comm]
  · rw [sget_sset_other _ _ _ hg]
    simp [hg]

/-- A change of the limiter's lists alone is no part of what `Changes` compares. -/
theorem OnlyEvents.of_evt_before {s a t : State} (h : OnlyEvents a t) (ha : a = { s with evt := a.evt }) (hc : a.evt.cause = s.evt.cause)
    (hk : a.evt.mask = s.evt.mask ∧ a.evt.msixEnable = s.evt.msixEnable ∧ a.evt.msixMaskAll = s.evt.msixMaskAll) : OnlyEvents s t := by
  rw [ha] at h
  exact ⟨h.rest, h.regs, h.counters, fun e he => h.causes e (by unfold Asserted causeReg at he ⊢; rwa [hc]),
    ⟨h.control.1.trans hk.1, h.control.2.1.trans hk.2.1, h.control.2.2.trans hk.2.2⟩, h.stage, h.out⟩

theorem autoMaskWrite_pendKept {g : Nat} {v : Word} {s : State} (h : s.evt.msixEnable = true) :
    PendKept { s with evt := { s.evt with
      auto := smod (fun _ => 0) s.evt.auto g (fun m => m &&& ~~~v)
      lim := sfilter (fun k => !(k / 32 == g && v.toNat.testBit (k % 32))) s.evt.lim } } (autoMaskWrite g v s) :=
  resignal_pendKept_of_enabled (s := { s with evt := { s.evt with auto := _, lim := _ } }) h

theorem autoReg_autoMaskWrite {g : Nat} {v : Word} {s : State} (h : s.evt.msixEnable = true) (g' : Nat) :
    autoReg g' (autoMaskWrite g v s) = if g' = g then autoReg g s &&& ~~~v else autoReg g' s := by
  unfold autoReg
  rw [(autoMaskWrite_pendKept h).auto]
  split
  · next hg => rw [hg]; exact sget_sset_same _ _ _ _
  · next hg => exact sget_sset_other _ _ _ hg

theorem lim_autoMaskWrite {g : Nat} {v : Word} {s : State} (h : s.evt.msixEnable = true) (n : Nat) :
    sget (fun _ => 0) (autoMaskWrite g v s).evt.lim n =
      if n / 32 = g ∧ v.getLsbD (n % 32) = true then 0 else sget (fun _ => 0) s.evt.lim n := by
  rw [(autoMaskWrite_pendKept h).lim]
  dsimp only
  rw [sget_sfilter]
  by_cases hn : n / 32 = g ∧ v.getLsbD (n % 32) = true
  · rw [if_pos hn, if_neg]
    simpa [BitVec.testBit_toNat] using hn
  · rw [if_neg hn, if_pos]
    simpa [BitVec.testBit_toNat, imp_iff_not_or] using hn

theorem num_div_mod (n : Nat) : (⟨n / 32, n % 32⟩ : Src).num = n := Nat.div_add_mod n 32

/-- Settles O17: what signalling leaves of the limiter, and the two stores of the limiter bit for bit. -/
theorem theLimiterForgets : Obligations.TheLimiterForgets := by
  unfold Obligations.TheLimiterForgets
  refine ⟨fun n s hn => ⟨guarded_of_true (decide_eq_true hn) _, fun hm => ?_, fun hm => ?_⟩, fun w g v s hg ha hen => ?_, fun w v s ha => ?_⟩
  · exact (guarded_of_true (decide_eq_true hn) _).trans (congrArg _ (quietExpire_of_clear hm))
  · have hlim := quietExpire_limiter n s
    have hb : n % 32 < 32 := Nat.mod_lt _ (by decide)
    refine ⟨_, (guarded_of_true (decide_eq_true hn) _).trans (congrArg _ (quietExpire_of_masked hm)), raise_asserted _ (by decide), ?_,
      fun hno => ⟨?_, ?_⟩, fun e he hne hno => ?_⟩
    · exact OnlyEvents.of_evt_before (a := autoCleared n s) ((resignal_onlyEvents _).trans (raise_onlyEvents _ _)) rfl rfl ⟨rfl, rfl, rfl⟩
    · have h := (hlim.auto ⟨n / 32, n % 32⟩ hb hno).trans (getLsbD_autoCleared n s hb)
      rw [h]
      simp
    · have h := hlim.supp ⟨n / 32, n % 32⟩ hb hno
      rwa [num_div_mod] at h
    · rw [hlim.auto e he hno, getLsbD_autoCleared n s he]
      simp [hne]
  · refine ⟨autoMaskWrite g v s, ?_, autoReg_autoMaskWrite hen, lim_autoMaskWrite hen, resignal_cause_of_enabled hen,
      (autoMaskWrite_pendKept hen).supp, (autoMaskWrite_pendKept hen).pend, ?_⟩
    · exact (guarded_of_true (decide_eq_true hg) _).trans (congrArg _ (writing_of_admits ha _))
    · exact OnlyEvents.of_evt_before (resignal_onlyEvents _) rfl rfl ⟨rfl, rfl, rfl⟩
  · exact congrArg _ (writing_of_admits ha _)

/-! ### Vectors (R131) -/

theorem vectorsOf_two_pow {v : Nat} (h : v < 64) : vectorsOf (2 ^ v) = [v] := by
  have hall : ∀ v < 64, vectorsOf (2 ^ v) = [v] := by decide
  exact hall v h

theorem clearBit_two_pow (v : Nat) : clearBit (2 ^ v) v = 0 := by
  simp [clearBit]

theorem wordField_vector {v : Nat} (h : v < 64) : wordField (BitVec.ofNat 32 v) 0 6 = v := by
  have hall : ∀ v < 64, wordField (BitVec.ofNat 32 v) 0 6 = v := by decide
  exact hall v h

theorem exec_vecRearm_of_admits {w : Window} {v : Nat} {s : State} (hv : v < 64) (ha : Admits w .evt s) :
    exec (.vecRearm w (BitVec.ofNat 32 v)) s = .next (vecRearm v s) := by
  show Host.Outcome.next (writing w .evt (vecRearm (wordField (BitVec.ofNat 32 v) 0 6)) s) = _
  rw [writing_of_admits ha, wordField_vector hv]

theorem signalVector_of_disabled {v : Nat} {s : State} (h : s.evt.msixEnable = false) : signalVector v s = s := by
  simp [signalVector, h]

theorem signalVector_of_masked {v : Nat} {s : State} (h : s.evt.msixEnable = true) (hm : vecMasked v s = true) :
    signalVector v s = { s with evt := { s.evt with msixPend := setBit s.evt.msixPend v } } := by
  simp [signalVector, h, hm]

theorem signalVector_of_open {v : Nat} {s : State} (h : s.evt.msixEnable = true) (hm : vecMasked v s = false) :
    signalVector v s = sendMsix v s := by
  simp [signalVector, h, hm]

theorem vecRearm_of_inactive {v : Nat} {s : State} (h : s.evt.vecActive.testBit v = false) : vecRearm v s = s := by
  simp [vecRearm, h]

theorem vecRearm_of_enabled {v : Nat} {s : State} (h : s.evt.vecActive.testBit v = true) (he : s.evt.msixEnable = true) :
    vecRearm v s = signalVector v s := by
  simp [vecRearm, h, he]

theorem vecRearm_of_disabled {v : Nat} {s : State} (h : s.evt.vecActive.testBit v = true) (he : s.evt.msixEnable = false) :
    vecRearm v s = raise evtMsixDisabled s := by
  simp [vecRearm, h, he, signalVector_of_disabled he]

theorem releasePending_of_none {s : State} (h : s.evt.msixPend = 0) : releasePending s = s := by
  have hv : vectorsOf 0 = [] := by decide
  unfold releasePending
  rw [h, hv]
  split <;> rfl

theorem releasePending_of_one {v : Nat} {s : State} (hv : v < 64) (h : s.evt.msixPend = 2 ^ v) (he : s.evt.msixEnable = true)
    (hm : vecMasked v s = false) : releasePending s = sendMsix v s := by
  unfold releasePending
  rw [if_pos he, h, vectorsOf_two_pow hv]
  simp [hm, foldOver]

/-- The mask bit of an unmasked vector. -/
theorem vecMasked_unmasked {v : Nat} {s : State} (h : s.evt.msixMaskAll = false) :
    vecMasked v (putReg (msixEntry v + 12) 0 (wordWith (reg (msixEntry v + 12) 0 s) 0 1 0) s) = false := by
  unfold vecMasked
  rw [reg_putReg_same, wordField_wordWith_same _ (by decide)]
  exact (Bool.or_false _).trans h

theorem sendMsix_of_pending {v : Nat} {s : State} {x : Word} (h : s.evt.msixPend = 2 ^ v) :
    sendMsix v (putReg (msixEntry v + 12) 0 x s) = { putReg (msixEntry v + 12) 0 x s with
      evt := { s.evt with msixPend := 0 }
      out := s.out ++ [.msix v (reg (msixEntry v) 0 s).toNat (reg (msixEntry v + 4) 0 s).toNat (reg (msixEntry v + 8) 0 s).toNat] } := by
  unfold sendMsix
  rw [reg_putReg_other, reg_putReg_other, reg_putReg_other]
  · simp only [emit, putReg_evt, putReg_out, h, clearBit_two_pow]
  all_goals unfold rkey msixEntry; omega

/-- Settles O18: a case of `signalVector` for each clause, and of `releasePending` for the unmaskings. -/
theorem vectorsSendOrHold : Obligations.VectorsSendOrHold := by
  unfold Obligations.VectorsSendOrHold
  refine ⟨fun w v s hv ha => ?_, fun v s hv hr ho => ?_, fun v s hv ha he hm => ?_, fun e m s hr hp => ?_⟩
  · rw [exec_vecRearm_of_admits hv ha]
    refine ⟨fun h => ?_, fun h he hm => ?_, fun h he hm => ?_, fun h he => ?_⟩
    · rw [vecRearm_of_inactive h]
    · rw [vecRearm_of_enabled h he, signalVector_of_open he hm]
      rfl
    · rw [vecRearm_of_enabled h he, signalVector_of_masked he hm]
    · rw [vecRearm_of_disabled h he]
      exact ⟨_, rfl, raise_onlyEvents _ _, raise_asserted _ (by decide)⟩
  · have hwrite : ∀ f, writing .h .hif f s = ownerDenied .hif s := fun f => by
      simp [writing, hr, ho, heldIgnores, heldAccepts]
    exact (guarded_of_true (decide_eq_true hv) _).trans (congrArg _ (hwrite _))
  · have hexec : exec (.msixUnmask (.vector v)) s = .next (msixUnmask (.vector v) s) :=
      (guarded_of_true (decide_eq_true hv) _).trans (congrArg _ (writing_of_admits ha _))
    rw [hexec]
    refine ⟨fun hp => ?_, fun hp => ?_⟩
    · rw [msixUnmask, releasePending_of_none (by rwa [putReg_evt])]
    · rw [msixUnmask, releasePending_of_one hv (by rwa [putReg_evt]) (by rwa [putReg_evt]) (vecMasked_unmasked hm), sendMsix_of_pending hp]
  · show guarded (msixOk (.function e m)) (onlyIf (reachable .h s) (msixUnmask (.function e m)) s) = _
    rw [msixOk, guarded_of_true rfl, onlyIf, if_pos hr, msixUnmask, releasePending_of_none (by exact hp)]

end Sys2Proof.Machine
end

section
/-! PROOFS. Rails, straps and the system clock (R54 to R75), pace monitors and voltage advice (R79 to R83). -/

namespace Sys2Proof.Machine

/-! ### Fields of single registers -/

theorem rd_congr {s t : State} {f : Fld} (h : t.fab.regs = s.fab.regs) : rd f t = rd f s := rdX_congr h

theorem rd_with_pwr (f : Fld) (s : State) (x : Power) : rd f { s with pwr := x } = rd f s := rfl

theorem rd_lt (f : Fld) (s : State) : rd f s < 2 ^ f.w := rdX_lt f 0 0 s

theorem cf_lt (f : Fld) (s : State) : cf f s < 2 ^ f.w := wordField_lt _ _ _

/-- A value that fits reads back. -/
theorem rd_wr_fits {f : Fld} {v : Nat} {s : State} (h : f.ok = true) (hv : v < 2 ^ f.w) : rd f (wr f v s) = v := by
  rw [rd_wr_same _ _ _ h, Nat.mod_eq_of_lt hv]

theorem rdX_wrX_fits {f : Fld} {i c v : Nat} {s : State} (h : f.ok = true) (hv : v < 2 ^ f.w) : rdX f i c (wrX f i c v s) = v := by
  rw [rdX_wrX_same _ _ _ _ _ h, Nat.mod_eq_of_lt hv]

theorem b2n_lt (b : Bool) {n : Nat} (h : 0 < n) : b2n b < 2 ^ n := by
  have h2 : 2 ^ 1 ≤ 2 ^ n := Nat.pow_le_pow_right (by decide) h
  cases b
  · exact Nat.two_pow_pos n
  · exact h2

theorem setBit_lt {x i n : Nat} (hx : x < 2 ^ n) (hi : i < n) : setBit x i < 2 ^ n :=
  Nat.or_lt_two_pow hx (Nat.pow_lt_pow_right (by decide) hi)

theorem cfX_lt (f : Fld) (i c : Nat) (s : State) : cfX f i c s < 2 ^ f.w := wordField_lt _ _ _

/-- Cause bits are a part of the event unit. -/
theorem Asserted.of_evt {e : Src} {s t : State} (h : Asserted e s) (he : t.evt = s.evt) : Asserted e t := by
  unfold Asserted causeReg at *
  rwa [he]

/-! ### Rails, straps and REFCLK_SYS -/

theorem railGood_of_quick (r : Nat) (s : State) :
    railGood r false s = wr pwrRailStatus_railGood (setBit (rd pwrRailStatus_railGood s) r)
      { s with pwr := { s.pwr with railLow := clearBit s.pwr.railLow r } } := rfl

theorem railGood_of_slow (r : Nat) (s : State) :
    railGood r true s = raise pwrRampSlow (wr pwrRailStatus_rampSlow (setBit (rd pwrRailStatus_rampSlow s) r) (railGood r false s)) := by
  have h : rd pwrRailStatus_rampSlow (railGood r false s) = rd pwrRailStatus_rampSlow s :=
    (rd_wr_other _ _ (by decide)).trans (rd_congr rfl)
  rw [← h]
  rfl

theorem rd_railGood (r : Nat) (slow : Bool) (s : State) (hr : r < 8) :
    rd pwrRailStatus_railGood (railGood r slow s) = setBit (rd pwrRailStatus_railGood s) r := by
  have h : rd pwrRailStatus_railGood (railGood r false s) = setBit (rd pwrRailStatus_railGood s) r := by
    rw [railGood_of_quick]
    exact rd_wr_fits (by decide) (setBit_lt (rd_lt _ _) hr)
  cases slow
  · exact h
  · rw [railGood_of_slow, rd_raise _ _ (by decide), rd_wr_other _ _ (by decide), h]

theorem rd_rampSlow_railGood (r : Nat) (slow : Bool) (s : State) (hr : r < 8) :
    rd pwrRailStatus_rampSlow (railGood r slow s) =
      if slow then setBit (rd pwrRailStatus_rampSlow s) r else rd pwrRailStatus_rampSlow s := by
  cases slow
  · exact (rd_wr_other _ _ (by decide)).trans (rd_congr rfl)
  · rw [railGood_of_slow, rd_raise _ _ (by decide)]
    exact rd_wr_fits (by decide) (setBit_lt (rd_lt _ _) hr)

theorem railGood_changes (r : Nat) (slow : Bool) (s : State) :
    Changes [keyOfField pwrRailStatus_railGood 0 0] [] { s with pwr := { s.pwr with railLow := clearBit s.pwr.railLow r } } (railGood r slow s) := by
  have h : Changes [keyOfField pwrRailStatus_railGood 0 0] [] { s with pwr := { s.pwr with railLow := clearBit s.pwr.railLow r } }
      (railGood r false s) := wr_changes _ _ _ (by decide)
  cases slow
  · exact h
  · rw [railGood_of_slow]
    exact (h.trans (wr_changes _ _ _ (by decide))).events (raise_onlyEvents _ _)

/-- What a comparison of the straps shows before it counts. -/
def strapsShown (straps : Nat) (s : State) : State :=
  wr sysStrapSample_roleLive (bitsOf straps 0 2) (wr sysStrapSample_deviceIdLive (bitsOf straps 2 3)
    (wr sysStrapSample_bootSrcLive (bitsOf straps 5 2) s))

theorem strapsShown_changes (straps : Nat) (s : State) :
    Changes [keyOfField sysStrapSample_role 0 0] [] s (strapsShown straps s) :=
  ((wr_changes _ _ _ (by decide)).trans (wr_changes _ _ _ (by decide))).trans (wr_changes _ _ _ (by decide))

theorem strapsShown_live (straps : Nat) (s : State) :
    rd sysStrapSample_roleLive (strapsShown straps s) = bitsOf straps 0 2 ∧
    rd sysStrapSample_deviceIdLive (strapsShown straps s) = bitsOf straps 2 3 ∧
    rd sysStrapSample_bootSrcLive (strapsShown straps s) = bitsOf straps 5 2 := by
  unfold strapsShown
  refine ⟨rd_wr_fits (by decide) (bitsOf_lt _ _ _), ?_, ?_⟩
  · rw [rd_wr_other _ _ (by decide)]
    exact rd_wr_fits (by decide) (bitsOf_lt _ _ _)
  · rw [rd_wr_other _ _ (by decide), rd_wr_other _ _ (by decide)]
    exact rd_wr_fits (by decide) (bitsOf_lt _ _ _)

theorem strapsShown_other {f : Fld} (straps : Nat) (s : State)
    (h : (fieldsApart sysStrapSample_roleLive 0 0 f 0 0 && fieldsApart sysStrapSample_deviceIdLive 0 0 f 0 0
      && fieldsApart sysStrapSample_bootSrcLive 0 0 f 0 0) = true) : rd f (strapsShown straps s) = rd f s := by
  simp only [Bool.and_eq_true] at h
  obtain ⟨⟨hrole, hdev⟩, hboot⟩ := h
  unfold strapsShown
  rw [rd_wr_other _ _ hrole, rd_wr_other _ _ hdev, rd_wr_other _ _ hboot]

theorem strapCompare_of_ninth {straps : Nat} {s : State} (h : straps % 128 ≠ sampledStraps s) (h9 : s.pwr.strapMism = 9) :
    strapCompare straps s = raise sysStrapChanged (wr sysStrapSample_strapChanged 1
      { strapsShown straps s with pwr := { s.pwr with strapMism := min (s.pwr.strapMism + 1) 10 } }) := by
  unfold strapCompare
  rw [if_neg h, if_pos h9]
  rfl

theorem strapCompare_of_counting {straps : Nat} {s : State} (h : ¬ (straps % 128 ≠ sampledStraps s ∧ s.pwr.strapMism = 9)) :
    strapCompare straps s = { strapsShown straps s with pwr := { s.pwr with
      strapMism := if straps % 128 = sampledStraps s then 0 else min (s.pwr.strapMism + 1) 10 } } := by
  unfold strapCompare
  by_cases he : straps % 128 = sampledStraps s
  · rw [if_pos he, if_pos he]
    rfl
  · rw [if_neg he, if_neg he, if_neg (fun h9 => h ⟨he, h9⟩)]
    rfl

/-- One comparison: what it shows, counts and raises. -/
theorem strapCompare_spec (straps : Nat) (s : State) :
    Changes [keyOfField sysStrapSample_role 0 0] [] { s with pwr := { s.pwr with
      strapMism := if straps % 128 = sampledStraps s then 0 else min (s.pwr.strapMism + 1) 10 } } (strapCompare straps s) ∧
    (∀ f, fieldsApart sysStrapSample_strapChanged 0 0 f 0 0 = true → ¬ StatKey (keyOfField f 0 0) →
      rd f (strapCompare straps s) = rd f (strapsShown straps s)) ∧
    (if straps % 128 ≠ sampledStraps s ∧ s.pwr.strapMism = 9 then
      rd sysStrapSample_strapChanged (strapCompare straps s) = 1 ∧ Asserted sysStrapChanged (strapCompare straps s)
     else rd sysStrapSample_strapChanged (strapCompare straps s) = rd sysStrapSample_strapChanged s ∧ (strapCompare straps s).evt = s.evt) := by
  have hshown := strapsShown_changes straps s
  by_cases hc : straps % 128 ≠ sampledStraps s ∧ s.pwr.strapMism = 9
  · rw [strapCompare_of_ninth hc.1 hc.2, if_neg hc.1, if_pos hc]
    refine ⟨((hshown.with_pwr _).trans (wr_changes _ _ _ (by decide))).events (raise_onlyEvents _ _), fun f hf hk => ?_, ?_,
      raise_asserted _ (by decide)⟩
    · rw [rd_raise _ _ hk, rd_wr_other _ _ hf]
      exact rd_congr rfl
    · rw [rd_raise _ _ (by decide), rd_wr_fits (by decide) (by decide)]
  · rw [if_neg hc, strapCompare_of_counting hc]
    refine ⟨hshown.with_pwr _, fun f _ _ => rd_with_pwr f _ _, ?_, rfl⟩
    rw [rd_with_pwr, strapsShown_other straps s (by decide)]

theorem rd_onBackup (b : Bool) (s : State) :
    rd timStatus_onBackup (onBackup b s) = b2n b ∧ rd timStatus_locked (onBackup b s) = if b then 0 else rd timStatus_locked s := by
  cases b
  · exact ⟨rd_wr_fits (by decide) (by decide), (rd_wr_other _ _ (by decide)).trans (rd_congr rfl)⟩
  · exact ⟨(rd_wr_other (f := timStatus_locked) _ _ (by decide)).trans (rd_wr_fits (by decide) (by decide)), rd_wr_fits (by decide) (by decide)⟩

theorem onBackup_changes (b : Bool) (s : State) :
    Changes [keyOfField timStatus_onBackup 0 0] [] { s with pwr := { s.pwr with onBackup := b } } (onBackup b s) := by
  cases b
  · exact wr_changes _ _ _ (by decide)
  · exact (wr_changes timStatus_onBackup _ _ (by decide)).trans (wr_changes timStatus_locked _ _ (by decide))

theorem exec_refclkSysLost {s : State} (hl : s.pwr.sysLost = false) (hh : s.pwr.hold = .none) :
    exec .refclkSysLost s = .next (raise pwrRefclkSysLost (onBackup true { s with pwr := { s.pwr with sysLost := true } })) := by
  show Host.Outcome.next (onlyIf (!s.pwr.sysLost) _ s) = _
  rw [onlyIf_of_true (by rw [hl]; rfl)]
  dsimp only
  rw [if_pos hh]

theorem exec_refclkSysRestored {s : State} (hl : s.pwr.sysLost = true) (hh : s.pwr.hold = .none) (hb : s.pwr.backupStart = false) :
    exec .refclkSysRestored s = .next (raise pwrRefclkSysRestored (onBackup false { s with pwr := { s.pwr with sysLost := false } })) := by
  show Host.Outcome.next (onlyIf s.pwr.sysLost _ s) = _
  rw [onlyIf_of_true hl]
  dsimp only
  rw [if_pos ⟨hh, by rw [hb]; rfl⟩]

theorem exec_refclkSysRestored_of_backupStart {s : State} (hl : s.pwr.sysLost = true) (hb : s.pwr.backupStart = true) :
    exec .refclkSysRestored s = .next { s with pwr := { s.pwr with sysLost := false } } := by
  show Host.Outcome.next (onlyIf s.pwr.sysLost _ s) = _
  rw [onlyIf_of_true hl]
  dsimp only
  rw [if_neg (by simp [hb])]

/-- Settles O19: each command's own lemma, read through the events that follow it. -/
theorem railsStrapsAndSystemClock : Obligations.RailsStrapsAndSystemClock := by
  unfold Obligations.RailsStrapsAndSystemClock
  intro s
  refine ⟨fun r slow hr hlow => ⟨railGood r slow s, ?_, rd_railGood r slow s hr, rd_rampSlow_railGood r slow s hr, fun hs => ?_,
      railGood_changes r slow s⟩, fun w v ha hv => ?_, fun straps hh => ⟨strapCompare straps s, ?_, ?_⟩,
    fun hl hh => ⟨_, exec_refclkSysLost hl hh, ?_, ?_, raise_asserted _ (by decide), ?_⟩,
    fun hl hh hb => ⟨_, exec_refclkSysRestored hl hh hb, ?_, ?_, raise_asserted _ (by decide), ?_⟩,
    fun hl hb => exec_refclkSysRestored_of_backupStart hl hb⟩
  · exact (guarded_of_true (decide_eq_true hr) _).trans (congrArg _ (onlyIf_of_true hlow _ _))
  · rw [hs, railGood_of_slow]
    exact raise_asserted _ (by decide)
  · refine ⟨wr pwrRailStatus_failValid 0 { s with pwr := { s.pwr with failLatch := none } }, ?_, rd_wr_fits (by decide) (by decide),
      (rd_wr_other _ _ (by decide)).trans (rd_congr rfl), wr_changes _ _ _ (by decide)⟩
    exact congrArg _ ((writing_of_admits ha _).trans (onlyIf_of_true (decide_eq_true hv) _ _))
  · exact congrArg _ (onlyIf_of_true (decide_eq_true hh) _ _)
  · obtain ⟨hch, hrd, hlast⟩ := strapCompare_spec straps s
    obtain ⟨hrole, hdev, hboot⟩ := strapsShown_live straps s
    have hkept : ∀ f, fieldsApart sysStrapSample_strapChanged 0 0 f 0 0 = true → ¬ StatKey (keyOfField f 0 0) →
        (fieldsApart sysStrapSample_roleLive 0 0 f 0 0 && fieldsApart sysStrapSample_deviceIdLive 0 0 f 0 0
          && fieldsApart sysStrapSample_bootSrcLive 0 0 f 0 0) = true → rd f (strapCompare straps s) = rd f s :=
      fun f hf hk ho => (hrd f hf hk).trans (strapsShown_other straps s ho)
    exact ⟨(hrd _ (by decide) (by decide)).trans hrole, (hrd _ (by decide) (by decide)).trans hdev,
      (hrd _ (by decide) (by decide)).trans hboot, hkept _ (by decide) (by decide) (by decide), hkept _ (by decide) (by decide) (by decide),
      hkept _ (by decide) (by decide) (by decide), hch, hlast⟩
  · rw [rd_raise _ _ (by decide)]
    exact (rd_onBackup true _).1
  · rw [rd_raise _ _ (by decide)]
    exact (rd_onBackup true _).2
  · exact (onBackup_changes true { s with pwr := { s.pwr with sysLost := true } }).events (raise_onlyEvents _ _)
  · rw [rd_raise _ _ (by decide)]
    exact (rd_onBackup false _).1
  · rw [rd_raise _ _ (by decide)]
    exact ((rd_onBackup false _).2).trans (rd_congr rfl)
  · exact (onBackup_changes false { s with pwr := { s.pwr with sysLost := false } }).events (raise_onlyEvents _ _)

/-! ### Pace monitors -/

theorem clampInt_bounds {x lo hi : Int} (h : lo ≤ hi) : lo ≤ clampInt x lo hi ∧ clampInt x lo hi ≤ hi := by
  unfold clampInt
  split
  · omega
  · split <;> omega

theorem signed_bounds (x : Nat) : -1024 ≤ signed 11 x ∧ signed 11 x ≤ 1023 := by
  have hlt : x % 2048 < 2048 := Nat.mod_lt _ (by decide)
  unfold signed
  split <;> omega

/-- A value of the field's range survives the field. -/
theorem signed_unsigned {m : Int} (hlo : -1024 ≤ m) (hhi : m ≤ 1023) : signed 11 (unsigned 11 m) = m := by
  unfold signed unsigned
  split <;> omega

/-- What a measurement of `delay` leaves in the register of region k (R80). -/
structure MarginStored (delay k : Nat) (s t : State) : Prop where
  margin : marginOf k t = clampInt (1000 - (delay : Int)) (-1024) 1023
  below : rdX pwrPaceMargin_below k 0 t = b2n (decide (marginOf k t < cf pwrPaceCtl_thresholdPs s))
  lowWater : signed 11 (rdX pwrPaceMargin_lowWater k 0 t) = min (marginOf k t) (signed 11 (rdX pwrPaceMargin_lowWater k 0 s))

theorem storeMargin_stored (k delay : Nat) (s : State) : MarginStored delay k s (storeMargin k delay s) := by
  have hm := clampInt_bounds (x := 1000 - (delay : Int)) (lo := -1024) (hi := 1023) (by decide)
  have hl := signed_bounds (rdX pwrPaceMargin_lowWater k 0 s)
  have hmargin : marginOf k (storeMargin k delay s) = clampInt (1000 - (delay : Int)) (-1024) 1023 := by
    unfold marginOf storeMargin
    dsimp only
    rw [rdX_wrX_fits (by decide) (by unfold unsigned; change _ < 2048; omega), signed_unsigned hm.1 hm.2]
  refine ⟨hmargin, ?_, ?_⟩ <;> rw [hmargin] <;> unfold storeMargin <;> dsimp only
  · rw [rdX_wrX_bits _ _ (by decide), rdX_wrX_fits (by decide) (b2n_lt _ (by decide))]
  · rw [rdX_wrX_bits _ _ (by decide), rdX_wrX_bits _ _ (by decide), rdX_wrX_fits (by decide) (by unfold unsigned; change _ < 2048; omega),
      signed_unsigned (by omega) (by omega)]

theorem storeMargin_changes (k delay : Nat) (s : State) : Changes [keyOfField pwrPaceMargin_margin k 0] [] s (storeMargin k delay s) :=
  ((wrX_changes pwrPaceMargin_lowWater k 0 _ _ List.mem_cons_self).trans (wrX_changes pwrPaceMargin_below k 0 _ _ List.mem_cons_self)).trans
    (wrX_changes _ _ _ _ _ List.mem_cons_self)

theorem marginKey_ne {j k : Nat} (h : j ≠ k) (hlt : j < 16 ∧ k < 16) :
    keyOfField pwrPaceMargin_margin j 0 ≠ keyOfField pwrPaceMargin_margin k 0 := by
  have hoff : pwrPaceMargin_margin.off = 0x40C0 := rfl
  have hstride : pwrPaceMargin_margin.stride = 4 := rfl
  obtain ⟨hj, hk⟩ := hlt
  unfold keyOfField rkey
  rw [hoff, hstride]
  omega

theorem marginKey_stat (k : Nat) (hk : k < 16) : ¬ StatKey (keyOfField pwrPaceMargin_margin k 0) := by
  have hall : ∀ k < 16, ¬ StatKey (keyOfField pwrPaceMargin_margin k 0) := by decide
  exact hall k hk

/-- Two states with the same register for region k. -/
def SameMargin (k : Nat) (s t : State) : Prop :=
  rdX pwrPaceMargin_margin k 0 t = rdX pwrPaceMargin_margin k 0 s ∧ rdX pwrPaceMargin_below k 0 t = rdX pwrPaceMargin_below k 0 s ∧
    rdX pwrPaceMargin_lowWater k 0 t = rdX pwrPaceMargin_lowWater k 0 s

theorem SameMargin.marginOf {k : Nat} {s t : State} (h : SameMargin k s t) : Sys2Proof.Machine.marginOf k t = Sys2Proof.Machine.marginOf k s := by
  unfold Sys2Proof.Machine.marginOf
  rw [h.1]

theorem Changes.sameMargin {ks cs : List Nat} {s t : State} (h : Changes ks cs s t) {k : Nat} (hk : k < 16)
    (hn : keyOfField pwrPaceMargin_margin k 0 ∉ ks) : SameMargin k s t :=
  ⟨h.rdX (marginKey_stat k hk) hn, h.rdX (f := pwrPaceMargin_below) (marginKey_stat k hk) hn,
    h.rdX (f := pwrPaceMargin_lowWater) (marginKey_stat k hk) hn⟩

theorem MarginStored.before {delay k : Nat} {r s t : State} (h : MarginStored delay k s t) (hs : SameMargin k r s)
    (hcf : cf pwrPaceCtl_thresholdPs s = cf pwrPaceCtl_thresholdPs r) : MarginStored delay k r t :=
  ⟨h.margin, by rw [← hcf]; exact h.below, by rw [← hs.2.2]; exact h.lowWater⟩

theorem MarginStored.after {delay k : Nat} {s t u : State} (h : MarginStored delay k s t) (ht : SameMargin k t u) : MarginStored delay k s u :=
  ⟨ht.marginOf.trans h.margin, by rw [ht.2.1, ht.marginOf]; exact h.below, by rw [ht.2.2, ht.marginOf]; exact h.lowWater⟩

theorem storeMargins_changes (k : Nat) (ds : List Nat) (s : State) :
    Changes ((List.range' k ds.length).map (fun j => keyOfField pwrPaceMargin_margin j 0)) [] s (storeMargins k ds s) := by
  induction ds generalizing k s with
  | nil => exact Changes.refl s
  | cons d ds ih =>
    refine ((storeMargin_changes k d s).mono ?_ (fun _ h => h)).trans ((ih (k + 1) _).mono ?_ (fun _ h => h))
    · exact fun x hx => List.mem_map.2 ⟨k, by simp, (List.mem_singleton.1 hx).symm⟩
    · exact fun x hx => by
        obtain ⟨j, hj, rfl⟩ := List.mem_map.1 hx
        exact List.mem_map.2 ⟨j, by rw [List.mem_range'_1] at hj ⊢; simp only [List.length_cons]; omega, rfl⟩

theorem storeMargins_stored {k : Nat} {ds : List Nat} (h : k + ds.length ≤ 16) (s : State) {i : Nat} (hi : i < ds.length) :
    MarginStored (ds.getD i 0) (k + i) s (storeMargins k ds s) := by
  induction ds generalizing k s i with
  | nil => exact absurd hi (Nat.not_lt_zero _)
  | cons d ds ih =>
    rw [List.length_cons] at h hi
    cases i with
    | zero =>
      refine (storeMargin_stored k d s).after ((storeMargins_changes (k + 1) ds _).sameMargin (by omega) fun hm => ?_)
      obtain ⟨j, hj, hkey⟩ := List.mem_map.1 hm
      rw [List.mem_range'_1] at hj
      exact marginKey_ne (by omega) (by omega) hkey
    | succ i =>
      have hstep := storeMargin_changes k d s
      have hsame : SameMargin (k + 1 + i) s (storeMargin k d s) :=
        hstep.sameMargin (by omega) (fun hm => marginKey_ne (by omega) (by omega) (List.mem_singleton.1 hm))
      have hlater := (ih (k := k + 1) (by omega) (storeMargin k d s) (i := i) (by omega)).before hsame (hstep.cfX _ 0 0)
      rw [show k + (i + 1) = k + 1 + i by omega]
      exact hlater

theorem lowestMargin_congr {s t : State} (h : ∀ k < 16, marginOf k t = marginOf k s) : lowestMargin t = lowestMargin s := by
  unfold lowestMargin
  rw [List.map_congr_left (fun k hk => h k (List.mem_range.1 hk))]

/-- What the voltage's rise leaves of the power island's marks. -/
theorem avsRise_spec (s : State) :
    (avsRise s).pwr.paceBelow = s.pwr.paceBelow ∧ (avsRise s).pwr.negative = s.pwr.negative ∧ (avsRise s).pwr.ctWithdrawn = s.pwr.ctWithdrawn ∧
      Changes [keyOfField pwrAvsStatus_suggestedMv 0 0] [] { s with pwr := (avsRise s).pwr } (avsRise s) := by
  unfold avsRise
  split
  · exact ⟨rfl, rfl, rfl, Changes.refl s⟩
  · obtain ⟨p, hp, hbelow, hneg, hct, hch⟩ := suggest_changes (min (rd pwrAvsStatus_suggestedMv s + cf pwrAvsCtl_stepUp s) (cf pwrAvsCtl_ceiling s)) s
      (ks := [keyOfField pwrAvsStatus_suggestedMv 0 0]) List.mem_cons_self
    unfold avsUp
    rw [hp]
    exact ⟨hbelow, hneg, hct, hch⟩

/-- What follows from the comparison of the lowest margin with the threshold. -/
def paceJudged (below : Bool) (s : State) : State :=
  if below ∧ !s.pwr.paceBelow then avsRise (raise pwrPaceMargin { s with pwr := { s.pwr with ctWithdrawn := true, paceBelow := true } })
  else { s with pwr := { s.pwr with paceBelow := below } }

/-- What follows from the sign of the lowest margin. -/
def paceSigned (neg : Bool) (s : State) : State :=
  if neg ∧ !s.pwr.negative then raise pwrPaceNegative { s with pwr := { s.pwr with negative := true } }
  else { s with pwr := { s.pwr with negative := neg } }

theorem paceMeasure_eq {delays : List Nat} (h : delays.length = 16) (s : State) :
    paceMeasure delays s = paceSigned (decide (lowestMargin (storeMargins 0 delays s) < 0))
      (paceJudged (decide (lowestMargin (storeMargins 0 delays s) < cf pwrPaceCtl_thresholdPs (storeMargins 0 delays s))) (storeMargins 0 delays s)) := by
  have ht : delays.take 16 = delays := List.take_of_length_le (by omega)
  unfold paceMeasure paceSigned paceJudged
  rw [ht]
  simp only [decide_eq_true_eq]

theorem paceJudged_spec (below : Bool) (s : State) :
    (paceJudged below s).pwr.paceBelow = below ∧ (paceJudged below s).pwr.negative = s.pwr.negative ∧
      (below = true → s.pwr.paceBelow = false → (paceJudged below s).pwr.ctWithdrawn = true ∧ Asserted pwrPaceMargin (paceJudged below s)) ∧
      Changes [keyOfField pwrAvsStatus_suggestedMv 0 0] [] { s with pwr := (paceJudged below s).pwr } (paceJudged below s) := by
  unfold paceJudged
  by_cases h : below = true ∧ (!s.pwr.paceBelow) = true
  · rw [if_pos h]
    have hev := raise_onlyEvents pwrPaceMargin { s with pwr := { s.pwr with ctWithdrawn := true, paceBelow := true } }
    obtain ⟨hbelow, hneg, hct, hch⟩ := avsRise_spec (raise pwrPaceMargin { s with pwr := { s.pwr with ctWithdrawn := true, paceBelow := true } })
    rw [hev.pwr] at hbelow hneg hct
    have has : Asserted pwrPaceMargin (raise pwrPaceMargin { s with pwr := { s.pwr with ctWithdrawn := true, paceBelow := true } }) :=
      raise_asserted _ (by decide)
    refine ⟨hbelow.trans h.1.symm, hneg, fun _ _ => ⟨hct, hch.causes pwrPaceMargin (has.of_evt rfl)⟩, ?_⟩
    exact (OnlyEvents.changes (hev.with_pwr _)).trans hch
  · rw [if_neg h]
    refine ⟨rfl, rfl, fun hb hp => (h ⟨hb, by rw [hp]; rfl⟩).elim, Changes.refl _⟩

theorem paceSigned_spec (neg : Bool) (s : State) :
    (paceSigned neg s).pwr = { s.pwr with negative := neg } ∧
      (neg = true → s.pwr.negative = false → Asserted pwrPaceNegative (paceSigned neg s)) ∧
      OnlyEvents { s with pwr := (paceSigned neg s).pwr } (paceSigned neg s) := by
  unfold paceSigned
  by_cases h : neg = true ∧ (!s.pwr.negative) = true
  · rw [if_pos h]
    have hev := raise_onlyEvents pwrPaceNegative { s with pwr := { s.pwr with negative := true } }
    rw [hev.pwr, h.1]
    exact ⟨rfl, fun _ _ => raise_asserted _ (by decide), hev⟩
  · rw [if_neg h]
    exact ⟨rfl, fun hn hp => (h ⟨hn, by rw [hp]; rfl⟩).elim, OnlyEvents.refl _⟩

theorem marginKeys_avs (k : Nat) (hk : k < 16) : keyOfField pwrPaceMargin_margin k 0 ∉ [keyOfField pwrAvsStatus_suggestedMv 0 0] := by
  have hall : ∀ k < 16, keyOfField pwrPaceMargin_margin k 0 ∉ [keyOfField pwrAvsStatus_suggestedMv 0 0] := by decide
  exact hall k hk

/-- What a measurement does after its margins are stored. -/
theorem paceMeasure_after {delays : List Nat} (h : delays.length = 16) (s : State) :
    Changes [keyOfField pwrAvsStatus_suggestedMv 0 0] [] { storeMargins 0 delays s with pwr := (paceMeasure delays s).pwr } (paceMeasure delays s) := by
  rw [paceMeasure_eq h]
  have hev := (paceSigned_spec (decide (lowestMargin (storeMargins 0 delays s) < 0)) (paceJudged (decide (lowestMargin (storeMargins 0 delays s) < cf pwrPaceCtl_thresholdPs (storeMargins 0 delays s))) (storeMargins 0 delays s))).2.2
  exact ((paceJudged_spec _ _).2.2.2.with_pwr _).events hev


theorem avsStepUp_of_room {s : State} (h : rd pwrAvsStatus_suggestedMv s ≠ cf pwrAvsCtl_ceiling s) : avsStepUp s = avsUp s := if_neg h

theorem avsStepUp_at_ceiling {s : State} (h : rd pwrAvsStatus_suggestedMv s = cf pwrAvsCtl_ceiling s) :
    avsStepUp s = raise pwrAvsAtCeiling s := if_pos h

/-- A suggestion that fits the field. -/
theorem rd_suggest_fits {v : Nat} {s : State} (h : v < 256) : rd pwrAvsStatus_suggestedMv (suggest v s) = v := by
  rw [rd_suggest, Nat.mod_eq_of_lt h]

theorem suggest_pwr_changes (v : Nat) (s : State) :
    Changes [keyOfField pwrAvsStatus_suggestedMv 0 0] [] { s with pwr := (suggest v s).pwr } (suggest v s) := by
  obtain ⟨p, hp, -, -, -, hch⟩ := suggest_changes v s (ks := [keyOfField pwrAvsStatus_suggestedMv 0 0]) List.mem_cons_self
  rw [hp]
  exact hch

theorem avsDrives_eq (s : State) : avsDrives s = decide (cf pwrAvsCtl_mode s = 2) := rfl

/-- Settles O20: the margins by `storeMargins_stored`, the suggestion by `suggest`, the rest from the writes' own fields. -/
theorem paceMonitorsAndVoltageAdvice : Obligations.PaceMonitorsAndVoltageAdvice := by
  unfold Obligations.PaceMonitorsAndVoltageAdvice
  intro s
  refine ⟨fun delays hd hh => ⟨paceMeasure delays s, ?_, ?_⟩, fun hct hb => ⟨_, ?_, raise_asserted _ (by decide), raise_onlyEvents _ _⟩,
    fun hb hheld => ?_, fun hlow hheld hfl => ⟨avsStepDown s, ?_, ?_, suggest_pwr_changes _ _⟩, fun v ok hp hv => ⟨avsWriteDone ok v s, ?_, ?_, ?_⟩,
    fun v u hr hv hu => ?_, fun w k v hk ha hv => ⟨wrX pwrPaceMargin_lowWater k 0 (rdX pwrPaceMargin_margin k 0 s) s, ?_, ?_, ?_, ?_⟩⟩
  · exact (guarded_of_true (decide_eq_true hd) _).trans (congrArg _ (onlyIf_of_true (decide_eq_true hh) _ _))
  · have hafter := paceMeasure_after hd s
    have hsame : ∀ k < 16, SameMargin k (storeMargins 0 delays s) (paceMeasure delays s) := fun k hk => hafter.sameMargin hk (marginKeys_avs k hk)
    have hlow : lowestMargin (paceMeasure delays s) = lowestMargin (storeMargins 0 delays s) :=
      lowestMargin_congr fun k hk => (hsame k hk).marginOf
    have hstored := storeMargins_changes 0 delays s
    have hcf : cf pwrPaceCtl_thresholdPs (storeMargins 0 delays s) = cf pwrPaceCtl_thresholdPs s := hstored.cfX _ 0 0
    have hpwr : (storeMargins 0 delays s).pwr = s.pwr := hstored.pwr
    have hbelowNeg : (paceMeasure delays s).pwr.paceBelow = decide (lowestMargin (paceMeasure delays s) < cf pwrPaceCtl_thresholdPs s) ∧
        (paceMeasure delays s).pwr.negative = decide (lowestMargin (paceMeasure delays s) < 0) ∧
        ((paceMeasure delays s).pwr.paceBelow = true → s.pwr.paceBelow = false →
          (paceMeasure delays s).pwr.ctWithdrawn = true ∧ Asserted pwrPaceMargin (paceMeasure delays s)) ∧
        ((paceMeasure delays s).pwr.negative = true → s.pwr.negative = false → Asserted pwrPaceNegative (paceMeasure delays s)) := by
      rw [hlow, ← hcf, paceMeasure_eq hd, ← hpwr]
      obtain ⟨hb, hn, hact, hch⟩ := paceJudged_spec
        (decide (lowestMargin (storeMargins 0 delays s) < cf pwrPaceCtl_thresholdPs (storeMargins 0 delays s))) (storeMargins 0 delays s)
      obtain ⟨hp, hneg, hev⟩ := paceSigned_spec (decide (lowestMargin (storeMargins 0 delays s) < 0)) (paceJudged
        (decide (lowestMargin (storeMargins 0 delays s) < cf pwrPaceCtl_thresholdPs (storeMargins 0 delays s))) (storeMargins 0 delays s))
      rw [hp]
      refine ⟨hb, rfl, fun h1 h2 => ?_, fun h1 h2 => hneg h1 (hn.trans h2)⟩
      obtain ⟨hct, has⟩ := hact (hb.symm.trans h1) h2
      exact ⟨hct, hev.causes pwrPaceMargin (has.of_evt rfl)⟩
    obtain ⟨hb, hn, hact, hneg⟩ := hbelowNeg
    refine ⟨fun k hk => ?_, hb, hn, hact, hneg, ?_⟩
    · have hk' := storeMargins_stored (k := 0) (by omega) s (hd ▸ hk : k < delays.length)
      rw [Nat.zero_add] at hk'
      obtain ⟨h1, h2, h3⟩ := hk'.after (hsame k hk)
      exact ⟨h1, h2, h3⟩
    · refine ((hstored.with_pwr (paceMeasure delays s).pwr).mono (fun x hx => ?_) (fun _ h => h)).trans
        (hafter.mono (fun x hx => ?_) (fun _ h => h))
      · rw [hd, ← List.range_eq_range'] at hx
        exact List.mem_cons_of_mem _ hx
      · exact List.mem_singleton.1 hx ▸ List.mem_cons_self
  · exact congrArg _ (onlyIf_of_true (by rw [hct, hb]; rfl) _ _)
  · have hexec : exec .avsStepUp s = .next (avsStepUp s) := congrArg _ (onlyIf_of_true (by rw [hb, hheld]; rfl) _ _)
    rw [hexec]
    refine ⟨fun hc => ⟨_, congrArg _ (avsStepUp_at_ceiling hc), raise_asserted _ (by decide), raise_onlyEvents _ _⟩,
      fun hc => ⟨_, congrArg _ (avsStepUp_of_room hc), ?_, suggest_pwr_changes _ _⟩⟩
    exact rd_suggest_fits (Nat.lt_of_le_of_lt (Nat.min_le_right _ _) (cf_lt pwrAvsCtl_ceiling s))
  · exact congrArg _ (onlyIf_of_true (by rw [hheld, decide_eq_true hlow, decide_eq_true hfl]; rfl) _ _)
  · exact rd_suggest_fits (Nat.max_lt.2 ⟨Nat.lt_of_le_of_lt (Nat.sub_le _ _) (rd_lt pwrAvsStatus_suggestedMv s), cf_lt pwrAvsCtl_floor s⟩)
  · show Host.Outcome.next (match s.pwr.avsPend with | some v => avsWriteDone ok v s | none => s) = _
    rw [hp]
  · cases ok
    · rfl
    · exact rd_wr_fits (by decide) hv
  · cases ok
    · simp only [avsWriteDone, avsDrives_eq, decide_eq_true_eq, Bool.false_eq_true, if_false, true_and]
      exact Changes.refl _
    · simp only [avsWriteDone, Bool.true_eq_false, if_true, false_and, if_false]
      exact wr_changes _ _ _ List.mem_cons_self
  · have hexec : ∀ ok, exec (.avsRetry ok) s = .next (avsRetry ok v s) := fun ok => by
      show Host.Outcome.next (match s.pwr.avsRetry with | some v => avsRetry ok v s | none => s) = _
      rw [hr]
    subst hu
    refine ⟨fun hm ok => ?_, fun hm => ⟨⟨_, hexec true, ?_, ?_⟩, ⟨_, hexec false, ?_, ?_, ?_⟩⟩⟩
    · rw [hexec]
      simp [avsRetry, avsDrives_eq, hm]
    all_goals simp only [avsRetry, avsDrives_eq, hm, decide_true, Bool.true_eq_false, if_false, if_true, Bool.false_eq_true]
    · exact rd_wr_fits (by decide) hv
    · exact wr_changes _ _ _ List.mem_cons_self
    · rw [rd_raise _ _ (by decide), rd_wr_fits (by decide) (by decide)]
    · exact raise_asserted _ (by decide)
    · exact (wr_changes _ _ _ List.mem_cons_self).events (raise_onlyEvents _ _)
  · exact (guarded_of_true (decide_eq_true hk) _).trans (congrArg _ ((writing_of_admits ha _).trans (if_pos hv)))
  · exact rdX_wrX_fits (by decide) (rdX_lt pwrPaceMargin_margin k 0 s)
  · exact rdX_wrX_bits _ _ (by decide)
  · exact wrX_changes _ _ _ _ _ List.mem_cons_self

end Sys2Proof.Machine
end

section
/-! PROOFS. Temperatures, pins and the slow buses (R596 to R608), and the temperature of an HBM stack. -/

namespace Sys2Proof.Machine

theorem rd_emit (f : Fld) (o : Output) (s : State) : rd f (emit o s) = rd f s := rfl

theorem rdX_emit (f : Fld) (i c : Nat) (o : Output) (s : State) : rdX f i c (emit o s) = rdX f i c s := rfl

theorem rdX_raise {f : Fld} {i c : Nat} (e : Src) (s : State) (h : ¬ StatKey (keyOfField f i c)) : rdX f i c (raise e s) = rdX f i c s :=
  (raise_onlyEvents e s).rdX h

theorem rdX_raiseC {f : Fld} {i c : Nat} (e : Src) (d : Nat) (s : State) (h : ¬ StatKey (keyOfField f i c)) :
    rdX f i c (raiseC e d s) = rdX f i c s :=
  (raiseC_onlyEvents e d s).rdX h

theorem clearBit_le (x i : Nat) : clearBit x i ≤ x := by
  unfold clearBit
  split
  · exact Nat.sub_le _ _
  · exact Nat.le_refl _

/-! ### Temperatures (R607) -/

theorem signed9_unsigned9 {m : Int} (hlo : -256 ≤ m) (hhi : m ≤ 255) : signed 9 (unsigned 9 m) = m := by
  unfold signed unsigned
  split <;> omega

theorem signed9_bounds (x : Nat) : -256 ≤ signed 9 x ∧ signed 9 x ≤ 255 := by
  have hlt : x % 512 < 512 := Nat.mod_lt _ (by decide)
  unfold signed
  split <;> omega

theorem unsigned9_lt (m : Int) : unsigned 9 m < 2 ^ 9 := by
  unfold unsigned
  omega

/-- The hottest of readings is one of them, and none is hotter. -/
theorem hottest_spec {l : List (Nat × Int)} {x : Nat × Int} (h : hottest l = some x) : x ∈ l ∧ ∀ y ∈ l, y.2 ≤ x.2 := by
  induction l generalizing x with
  | nil => cases h
  | cons a l ih =>
    unfold hottest at h
    cases hr : hottest l with
    | none =>
      cases l with
      | nil =>
        rw [hr] at h
        cases h
        exact ⟨List.mem_cons_self, fun y hy => by rw [List.mem_singleton.1 hy]⟩
      | cons b l =>
        unfold hottest at hr
        split at hr
        · split at hr <;> cases hr
        · cases hr
    | some y =>
      obtain ⟨hy, hmax⟩ := ih hr
      rw [hr] at h
      dsimp only at h
      split at h
      · next hlt =>
        cases h
        exact ⟨List.mem_cons_of_mem _ hy, fun z hz => (List.mem_cons.1 hz).elim (fun he => he ▸ Int.le_of_lt hlt) (hmax z)⟩
      · next hge =>
        cases h
        exact ⟨List.mem_cons_self, fun z hz => (List.mem_cons.1 hz).elim (fun he => he ▸ Int.le_refl _)
          (fun hz => Int.le_trans (hmax z hz) (Int.not_lt.1 hge))⟩

theorem hottest_eq_none {l : List (Nat × Int)} (h : hottest l = none) : l = [] := by
  cases l with
  | nil => rfl
  | cons a l =>
    unfold hottest at h
    split at h
    · split at h <;> cases h
    · cases h

/-- The readings of the sensors that take part. -/
def readings (temps : List Int) (s : State) : List (Nat × Int) := ((List.range 8).zip temps).filter (fun x => sensorPresent s x.1)

theorem mem_readings {temps : List Int} (h : temps.length = 8) {s : State} {i : Nat} {v : Int} :
    (i, v) ∈ readings temps s ↔ i < 8 ∧ temps.getD i 0 = v ∧ sensorPresent s i = true := by
  rw [readings, List.mem_filter, List.mem_iff_getElem?]
  constructor
  · rintro ⟨⟨n, hn⟩, hp⟩
    rw [List.getElem?_zip_eq_some] at hn
    obtain ⟨h1, h2⟩ := hn
    have hlt : n < 8 := by simpa using (List.getElem?_eq_some_iff.1 h1).1
    rw [List.getElem?_range hlt] at h1
    cases h1
    exact ⟨hlt, by rw [List.getD_eq_getElem?_getD, h2]; rfl, hp⟩
  · rintro ⟨hi, hv, hp⟩
    refine ⟨⟨i, List.getElem?_zip_eq_some.2 ⟨List.getElem?_range hi, ?_⟩⟩, hp⟩
    rw [List.getElem?_eq_getElem (h ▸ hi), ← hv, List.getD_eq_getElem _ _ (h ▸ hi)]

theorem hottest_readings {temps : List Int} {m : Int} {s : State} (h : temps.length = 8)
    (hm : ∃ i, i < 8 ∧ sensorPresent s i = true ∧ temps.getD i 0 = m)
    (hmax : ∀ i, i < 8 → sensorPresent s i = true → temps.getD i 0 ≤ m) : ∃ i, i < 8 ∧ hottest (readings temps s) = some (i, m) := by
  obtain ⟨j, hj, hpj, hvj⟩ := hm
  have hmem : (j, m) ∈ readings temps s := (mem_readings h).2 ⟨hj, hvj, hpj⟩
  cases hr : hottest (readings temps s) with
  | none => rw [hottest_eq_none hr] at hmem; cases hmem
  | some x =>
    obtain ⟨i, v⟩ := x
    obtain ⟨hin, hge⟩ := hottest_spec hr
    obtain ⟨hi, hv, hp⟩ := (mem_readings h).1 hin
    have h1 : m ≤ v := hge (j, m) hmem
    have h2 : v ≤ m := hv ▸ hmax i hi hp
    exact ⟨i, hi, by rw [Int.le_antisymm h2 h1]⟩

/-- The sensor registers after the readings are stored. -/
def tempsStored (l : List (Nat × Int)) (s : State) : State :=
  foldOver l (fun x a => wrX mioTemp_tempC x.1 0 (unsigned 9 (clampInt x.2 (-256) 255)) a) s

theorem tempKey_ne {j k : Nat} (h : j ≠ k) (hlt : j < 8 ∧ k < 8) : keyOfField mioTemp_tempC j 0 ≠ keyOfField mioTemp_tempC k 0 := by
  have hoff : mioTemp_tempC.off = 0x3D100 := rfl
  have hstride : mioTemp_tempC.stride = 4 := rfl
  obtain ⟨hj, hk⟩ := hlt
  unfold keyOfField rkey
  rw [hoff, hstride]
  omega

theorem tempKey_stat (k : Nat) (hk : k < 8) : ¬ StatKey (keyOfField mioTemp_tempC k 0) := by
  have hall : ∀ k < 8, ¬ StatKey (keyOfField mioTemp_tempC k 0) := by decide
  exact hall k hk

theorem tempKey_max (k : Nat) (hk : k < 8) : keyOfField mioTemp_tempC k 0 ≠ keyOfField mioTempMax_tempC 0 0 := by
  have hall : ∀ k < 8, keyOfField mioTemp_tempC k 0 ≠ keyOfField mioTempMax_tempC 0 0 := by decide
  exact hall k hk

theorem tempsStored_changes (l : List (Nat × Int)) (s : State) :
    Changes (l.map (fun x => keyOfField mioTemp_tempC x.1 0)) [] s (tempsStored l s) := by
  induction l generalizing s with
  | nil => exact Changes.refl s
  | cons x l ih =>
    exact (wrX_changes _ _ _ _ _ List.mem_cons_self).trans ((ih _).mono (fun _ h => List.mem_cons_of_mem _ h) (fun _ h => h))

theorem rdX_tempsStored {l : List (Nat × Int)} (hl : (l.map Prod.fst).Nodup) (hlt : ∀ x ∈ l, x.1 < 8) (s : State) {x : Nat × Int} (hx : x ∈ l) :
    rdX mioTemp_tempC x.1 0 (tempsStored l s) = unsigned 9 (clampInt x.2 (-256) 255) := by
  induction l generalizing s with
  | nil => cases hx
  | cons y l ih =>
    rw [List.map_cons, List.nodup_cons] at hl
    rcases List.mem_cons.1 hx with rfl | hx
    · have hn : keyOfField mioTemp_tempC x.1 0 ∉ l.map (fun z => keyOfField mioTemp_tempC z.1 0) := fun hm => by
        obtain ⟨z, hz, hkey⟩ := List.mem_map.1 hm
        refine tempKey_ne (fun he => hl.1 ?_) ⟨hlt z (List.mem_cons_of_mem _ hz), hlt x List.mem_cons_self⟩ hkey
        exact he ▸ List.mem_map.2 ⟨z, hz, rfl⟩
      exact ((tempsStored_changes l _).rdX (tempKey_stat _ (hlt x List.mem_cons_self)) hn).trans
        (rdX_wrX_fits (by decide) (unsigned9_lt _))
    · exact ih hl.2 (fun z hz => hlt z (List.mem_cons_of_mem _ hz)) _ hx

theorem readings_nodup {temps : List Int} (h : temps.length = 8) (s : State) : ((readings temps s).map Prod.fst).Nodup := by
  refine List.Nodup.sublist (List.Sublist.map _ List.filter_sublist) ?_
  rw [List.map_fst_zip (by rw [h, List.length_range])]
  exact List.nodup_range

theorem readings_lt {temps : List Int} {s : State} {x : Nat × Int} (hx : x ∈ readings temps s) : x.1 < 8 :=
  List.mem_range.1 (List.of_mem_zip (List.mem_of_mem_filter hx)).1

theorem threshold_waits (waits : Bool) (limit t : Int) :
    (threshold waits limit t).2 = decide (limit - (if waits then 4 else 0) ≤ t) := by
  cases waits
  · simp [threshold]
  · simp only [threshold, if_true]
    exact decide_eq_decide.2 (by omega)

theorem threshold_raises {limit t : Int} (h : limit ≤ t) : (threshold false limit t).1 = true := by
  simp [threshold, h]

/-- What the highest reading shows in TEMP_MAX. -/
def tempMaxShown (i : Nat) (m : Int) (s : State) : State :=
  wr mioTempMax_sensor i (wr mioTempMax_tempC (unsigned 9 m)
    (wr mioTempMax_peakC (unsigned 9 (if s.io.seen then max m (signed 9 (rd mioTempMax_peakC s)) else m)) s))

theorem tempMaxShown_changes (i : Nat) (m : Int) (s : State) :
    Changes [keyOfField mioTempMax_tempC 0 0] [] s (tempMaxShown i m s) :=
  ((wr_changes mioTempMax_peakC _ _ (by decide)).trans (wr_changes _ _ _ (by decide))).trans (wr_changes mioTempMax_sensor _ _ (by decide))

theorem tempMaxShown_fields (i : Nat) {m : Int} (h : -256 ≤ m ∧ m ≤ 255) (s : State) :
    rd mioTempMax_tempC (tempMaxShown i m s) = unsigned 9 m ∧
    signed 9 (rd mioTempMax_peakC (tempMaxShown i m s)) = if s.io.seen then max m (signed 9 (rd mioTempMax_peakC s)) else m := by
  have hb := signed9_bounds (rd mioTempMax_peakC s)
  unfold tempMaxShown
  constructor
  · rw [rd_wr_other _ _ (by decide), rd_wr_fits (by decide) (unsigned9_lt _)]
  · rw [rd_wr_other _ _ (by decide), rd_wr_other _ _ (by decide), rd_wr_fits (by decide) (unsigned9_lt _), signed9_unsigned9]
    all_goals split <;> omega

/-- The thresholds judged and their sources raised. -/
def thermalRaised (m : Int) (s : State) : State :=
  let h := threshold s.io.high (rd mioThermCfg_highC s) m
  let c := threshold s.io.critical (rd mioThermCfg_criticalC s) m
  let t2 := { s with io := { high := h.2, critical := c.2, seen := true } }
  let t3 := if h.1 then raise mioThermalHigh t2 else t2
  if c.1 then raise mioThermalCritical t3 else t3

theorem tempRead_eq {temps : List Int} {s : State} {i : Nat} {m : Int} (h : hottest (readings temps s) = some (i, m)) :
    tempRead temps s = thermalRaised (clampInt m (-256) 255) (tempMaxShown i (clampInt m (-256) 255) (tempsStored (readings temps s) s)) := by
  unfold readings at h
  unfold tempRead
  dsimp only
  rw [h]
  rfl

theorem ite_raise_onlyEvents (c : Bool) (e : Src) (s : State) : OnlyEvents s (if c then raise e s else s) := by
  cases c
  · exact OnlyEvents.refl s
  · exact raise_onlyEvents e s

/-- The waits of the two thresholds after a reading. -/
theorem thermalRaised_onlyEvents (m : Int) (s : State) :
    OnlyEvents { s with io := { high := decide ((rd mioThermCfg_highC s : Int) - (if s.io.high then 4 else 0) ≤ m)
                                critical := decide ((rd mioThermCfg_criticalC s : Int) - (if s.io.critical then 4 else 0) ≤ m)
                                seen := true } } (thermalRaised m s) := by
  unfold thermalRaised
  dsimp only
  rw [threshold_waits, threshold_waits]
  exact (ite_raise_onlyEvents _ _ _).trans (ite_raise_onlyEvents _ _ _)

theorem thermalRaised_high {m : Int} {s : State} (h : s.io.high = false) (hm : (rd mioThermCfg_highC s : Int) ≤ m) :
    Asserted mioThermalHigh (thermalRaised m s) := by
  unfold thermalRaised
  dsimp only
  rw [h, threshold_raises hm, if_pos rfl]
  exact (ite_raise_onlyEvents _ _ _).causes mioThermalHigh (raise_asserted _ (by decide))

theorem thermalRaised_critical {m : Int} {s : State} (h : s.io.critical = false) (hm : (rd mioThermCfg_criticalC s : Int) ≤ m) :
    Asserted mioThermalCritical (thermalRaised m s) := by
  unfold thermalRaised
  dsimp only
  rw [h, threshold_raises hm, if_pos rfl]
  exact raise_asserted _ (by decide)

/-- The first clause of O23: a reading of the sensors. -/
theorem tempRead_spec {temps : List Int} {m : Int} {s : State} (hl : temps.length = 8) (hm : ∃ i, i < 8 ∧ sensorPresent s i = true ∧ temps.getD i 0 = m)
    (hmax : ∀ i, i < 8 → sensorPresent s i = true → temps.getD i 0 ≤ m) :
    (∀ i, i < 8 → rdX mioTemp_tempC i 0 (tempRead temps s) =
      if sensorPresent s i then unsigned 9 (clampInt (temps.getD i 0) (-256) 255) else rdX mioTemp_tempC i 0 s) ∧
    rd mioTempMax_tempC (tempRead temps s) = unsigned 9 (clampInt m (-256) 255) ∧
    signed 9 (rd mioTempMax_peakC (tempRead temps s)) =
      (if s.io.seen = true then max (clampInt m (-256) 255) (signed 9 (rd mioTempMax_peakC s)) else clampInt m (-256) 255) ∧
    (s.io.high = false → (rd mioThermCfg_highC s : Int) ≤ clampInt m (-256) 255 → Asserted mioThermalHigh (tempRead temps s)) ∧
    (s.io.critical = false → (rd mioThermCfg_criticalC s : Int) ≤ clampInt m (-256) 255 → Asserted mioThermalCritical (tempRead temps s)) ∧
    Changes (keyOfField mioTempMax_tempC 0 0 :: (List.range 8).map (fun i => keyOfField mioTemp_tempC i 0)) []
      { s with io :=
        { high := decide ((rd mioThermCfg_highC s : Int) - (if s.io.high then 4 else 0) ≤ clampInt m (-256) 255)
          critical := decide ((rd mioThermCfg_criticalC s : Int) - (if s.io.critical then 4 else 0) ≤ clampInt m (-256) 255)
          seen := true } } (tempRead temps s) := by
  obtain ⟨i, hi, hhot⟩ := hottest_readings hl hm hmax
  rw [tempRead_eq hhot]
  have hm := clampInt_bounds (x := m) (lo := -256) (hi := 255) (by decide)
  generalize clampInt m (-256) 255 = m at hm
  have hst := (tempsStored_changes (readings temps s) s).mono (js := (List.range 8).map (fun i => keyOfField mioTemp_tempC i 0))
    (fun k hk => by
      obtain ⟨x, hx, rfl⟩ := List.mem_map.1 hk
      exact List.mem_map.2 ⟨x.1, List.mem_range.2 (readings_lt hx), rfl⟩) (fun _ h => h)
  generalize ha : tempsStored (readings temps s) s = a at hst
  have hshown := tempMaxShown_changes i m a
  have hboth := (hst.mono (js := keyOfField mioTempMax_tempC 0 0 :: (List.range 8).map (fun i => keyOfField mioTemp_tempC i 0))
    (fun _ h => List.mem_cons_of_mem _ h) (fun _ h => h)).trans
    (hshown.mono (fun k hk => List.mem_singleton.1 hk ▸ List.mem_cons_self) (fun _ h => h))
  have hcfg : ∀ f : Fld, ¬ StatKey (keyOfField f 0 0) →
      keyOfField f 0 0 ∉ keyOfField mioTempMax_tempC 0 0 :: (List.range 8).map (fun i => keyOfField mioTemp_tempC i 0) →
      rd f (tempMaxShown i m a) = rd f s := fun f hk hn => hboth.rdX hk hn
  have hev := thermalRaised_onlyEvents m (tempMaxShown i m a)
  rw [hcfg mioThermCfg_highC (by decide) (by decide), hcfg mioThermCfg_criticalC (by decide) (by decide), hboth.io] at hev
  have hseen : a.io.seen = s.io.seen := by rw [hst.io]
  have hpeak : rd mioTempMax_peakC a = rd mioTempMax_peakC s := hst.rdX (by decide) (by decide)
  obtain ⟨htemp, hpk⟩ := tempMaxShown_fields i hm a
  have hrdX : ∀ (f : Fld) (k : Nat), ¬ StatKey (keyOfField f k 0) →
      rdX f k 0 (thermalRaised m (tempMaxShown i m a)) = rdX f k 0 (tempMaxShown i m a) :=
    fun f k hk => (hev.rdX hk).trans (rdX_with_io f k 0 _ _)
  have hrd : ∀ f : Fld, ¬ StatKey (keyOfField f 0 0) → rd f (thermalRaised m (tempMaxShown i m a)) = rd f (tempMaxShown i m a) :=
    fun f hk => hrdX f 0 hk
  refine ⟨fun j hj => ?_, (hrd _ (by decide)).trans htemp, ?_, fun h1 h2 => ?_, fun h1 h2 => ?_, (hboth.with_io _).events hev⟩
  · have hthrough : rdX mioTemp_tempC j 0 (thermalRaised m (tempMaxShown i m a)) = rdX mioTemp_tempC j 0 a :=
      (hrdX _ j (tempKey_stat j hj)).trans (hshown.rdX (tempKey_stat j hj) (fun h => tempKey_max j hj (List.mem_singleton.1 h)))
    rw [hthrough, ← ha]
    split
    · next hp => exact rdX_tempsStored (readings_nodup hl s) (fun x hx => readings_lt hx) s ((mem_readings hl).2 ⟨hj, rfl, hp⟩)
    · next hp =>
      refine (tempsStored_changes (readings temps s) s).rdX (tempKey_stat j hj) (fun hm => hp ?_)
      obtain ⟨x, hx, hkey⟩ := List.mem_map.1 hm
      have hxj : x.1 = j := by_contra fun hne => tempKey_ne hne ⟨readings_lt hx, hj⟩ hkey
      exact hxj ▸ ((mem_readings (i := x.1) (v := x.2) hl).1 hx).2.2
  · rw [hrd _ (by decide), hpk, hseen, hpeak]
  · refine thermalRaised_high (by rw [hboth.io]; exact h1) ?_
    rw [hcfg mioThermCfg_highC (by decide) (by decide)]
    exact h2
  · refine thermalRaised_critical (by rw [hboth.io]; exact h1) ?_
    rw [hcfg mioThermCfg_criticalC (by decide) (by decide)]
    exact h2

/-! ### Pins (R608) -/

theorem gpioEdge_of_change {pin : Nat} {level : Bool} {s : State} (h : (rd mioGpioIn_level s).testBit pin ≠ level) :
    gpioEdge pin level s =
      if (rd mioGpioEdgeEn_enable s).testBit pin then
        raise mioGpioEdge (wr mioGpioEdge_edge (setBit (rd mioGpioEdge_edge s) pin)
          (wr mioGpioIn_level (if level then setBit (rd mioGpioIn_level s) pin else clearBit (rd mioGpioIn_level s) pin) s))
      else wr mioGpioIn_level (if level then setBit (rd mioGpioIn_level s) pin else clearBit (rd mioGpioIn_level s) pin) s := by
  unfold gpioEdge
  rw [if_neg h]
  dsimp only
  rw [rd_wr_other (g := mioGpioEdgeEn_enable) _ _ (by decide), rd_wr_other (g := mioGpioEdge_edge) _ _ (by decide)]

/-- The level register keeps 32 bits. -/
theorem levelSet_lt {pin : Nat} (level : Bool) {x : Nat} (hp : pin < 32) (hx : x < 2 ^ 32) :
    (if level then setBit x pin else clearBit x pin) < 2 ^ 32 := by
  cases level
  · exact Nat.lt_of_le_of_lt (clearBit_le _ _) hx
  · exact setBit_lt hx hp

theorem gpioEdge_spec {pin : Nat} {level : Bool} {s : State} (hp : pin < 32) (h : (rd mioGpioIn_level s).testBit pin ≠ level) :
    rd mioGpioIn_level (gpioEdge pin level s) = (if level then setBit (rd mioGpioIn_level s) pin else clearBit (rd mioGpioIn_level s) pin) ∧
    (if (rd mioGpioEdgeEn_enable s).testBit pin then
      rd mioGpioEdge_edge (gpioEdge pin level s) = setBit (rd mioGpioEdge_edge s) pin ∧ Asserted mioGpioEdge (gpioEdge pin level s)
     else rd mioGpioEdge_edge (gpioEdge pin level s) = rd mioGpioEdge_edge s ∧ (gpioEdge pin level s).evt = s.evt) ∧
    Changes [keyOfField mioGpioIn_level 0 0, keyOfField mioGpioEdge_edge 0 0] [] s (gpioEdge pin level s) := by
  have hlt := levelSet_lt level hp (rd_lt mioGpioIn_level s)
  rw [gpioEdge_of_change h]
  generalize (if level then setBit (rd mioGpioIn_level s) pin else clearBit (rd mioGpioIn_level s) pin) = x at hlt
  split
  · refine ⟨?_, ⟨?_, raise_asserted _ (by decide)⟩, ((wr_changes _ _ _ (by decide)).trans (wr_changes _ _ _ (by decide))).events (raise_onlyEvents _ _)⟩
    · rw [rd_raise _ _ (by decide), rd_wr_other _ _ (by decide), rd_wr_fits (by decide) hlt]
    · rw [rd_raise _ _ (by decide)]
      exact rd_wr_fits (by decide) (setBit_lt (rd_lt mioGpioEdge_edge s) hp)
  · exact ⟨rd_wr_fits (by decide) hlt, ⟨rd_wr_other _ _ (by decide), rfl⟩, wr_changes _ _ _ (by decide)⟩

/-! ### I²C (R598) -/

theorem i2cKeys (k : Nat) (hk : k < 2) : offsApart mioI2cCmd_busy k mioI2cData_data k = true ∧ offsApart mioI2cData_data k mioI2cCmd_busy k = true ∧
    offsApart mioI2cData_data k mioI2cCmd_result k = true ∧ ¬ StatKey (keyOfField mioI2cCmd_busy k 0) ∧ ¬ StatKey (keyOfField mioI2cData_data k 0) := by
  have hall : ∀ k < 2, offsApart mioI2cCmd_busy k mioI2cData_data k = true ∧ offsApart mioI2cData_data k mioI2cCmd_busy k = true ∧
    offsApart mioI2cData_data k mioI2cCmd_result k = true ∧ ¬ StatKey (keyOfField mioI2cCmd_busy k 0) ∧ ¬ StatKey (keyOfField mioI2cData_data k 0) := by
    decide
  exact hall k hk

/-- The go bit set in a written word, the rest as written. -/
theorem wordField_wordWith_go (v : Word) {lo n : Nat} (h : lo + n ≤ 16) : wordField (wordWith v 16 1 1) lo n = wordField v lo n :=
  wordField_wordWith_other v (by omega) (Or.inr h)

theorem wordField_go (v : Word) : wordField (wordWith v 16 1 1) 16 1 = 1 := wordField_wordWith_same v (by decide)

theorem i2cCmdWrite_go {k : Nat} {v : Word} {s : State} (hb : rdX mioI2cCmd_busy k 0 s = 0) (h1 : 1 ≤ wordField v 8 3) (h4 : wordField v 8 3 ≤ 4) :
    i2cCmdWrite k (wordWith v 16 1 1) s =
      emit (.bus (if k = 0 then "I2C0" else "I2C1") [wordField v 0 7, wordField v 7 1, wordField v 8 3, rdX mioI2cData_data k 0
        (wrX mioI2cCmd_addr k 0 (wordField v 0 7) (wrX mioI2cCmd_read k 0 (wordField v 7 1) (wrX mioI2cCmd_len k 0 (wordField v 8 3) s)))])
        (wrX mioI2cCmd_busy k 0 1 (wrX mioI2cCmd_addr k 0 (wordField v 0 7) (wrX mioI2cCmd_read k 0 (wordField v 7 1)
          (wrX mioI2cCmd_len k 0 (wordField v 8 3) s)))) := by
  unfold i2cCmdWrite
  dsimp only
  rw [wordField_go, wordField_wordWith_go v (by decide), wordField_wordWith_go v (by decide), wordField_wordWith_go v (by decide),
    if_pos ⟨rfl, hb, h1, h4⟩]

/-- A transfer that starts. -/
theorem i2cGo_spec {k : Nat} {v : Word} {s : State} (hk : k < 2) (hb : rdX mioI2cCmd_busy k 0 s = 0) (h1 : 1 ≤ wordField v 8 3)
    (h4 : wordField v 8 3 ≤ 4) (t : State) (ht : t = i2cCmdWrite k (wordWith v 16 1 1) s) :
    rdX mioI2cCmd_busy k 0 t = 1 ∧ rdX mioI2cCmd_addr k 0 t = wordField v 0 7 ∧
      rdX mioI2cCmd_read k 0 t = wordField v 7 1 ∧ rdX mioI2cCmd_len k 0 t = wordField v 8 3 ∧
      t.out = s.out ++ [.bus (if k = 0 then "I2C0" else "I2C1")
        [wordField v 0 7, wordField v 7 1, wordField v 8 3, rdX mioI2cData_data k 0 s]] ∧
      Changes [keyOfField mioI2cCmd_busy k 0] [] s t := by
  obtain ⟨hdata, -⟩ := i2cKeys k hk
  have hkept : ∀ (f : Fld) (x : Nat) (a : State), f.off = mioI2cCmd_busy.off → f.stride = mioI2cCmd_busy.stride →
      rdX mioI2cData_data k 0 (wrX f k 0 x a) = rdX mioI2cData_data k 0 a := fun f x a ho hs =>
    rdX_wrX_offs x a (by unfold offsApart at hdata ⊢; rw [ho, hs]; exact hdata)
  rw [i2cCmdWrite_go hb h1 h4, hkept mioI2cCmd_addr _ _ rfl rfl, hkept mioI2cCmd_read _ _ rfl rfl, hkept mioI2cCmd_len _ _ rfl rfl] at ht
  subst ht
  refine ⟨?_, ?_, ?_, ?_, by simp only [emit, wrX_out], ?_⟩
  · rw [rdX_emit, rdX_wrX_fits (by decide) (by decide)]
  · rw [rdX_emit]
    exact (rdX_wrX_bits _ _ (by decide)).trans (rdX_wrX_fits (by decide) (wordField_lt _ _ _))
  · rw [rdX_emit]
    exact ((rdX_wrX_bits _ _ (by decide)).trans (rdX_wrX_bits _ _ (by decide))).trans (rdX_wrX_fits (by decide) (wordField_lt _ _ _))
  · rw [rdX_emit]
    exact ((rdX_wrX_bits _ _ (by decide)).trans ((rdX_wrX_bits _ _ (by decide)).trans (rdX_wrX_bits _ _ (by decide)))).trans
      (rdX_wrX_fits (by decide) (wordField_lt _ _ _))
  · exact ((((wrX_changes mioI2cCmd_len k 0 _ _ List.mem_cons_self).trans (wrX_changes mioI2cCmd_read k 0 _ _ List.mem_cons_self)).trans
      (wrX_changes mioI2cCmd_addr k 0 _ _ List.mem_cons_self)).trans (wrX_changes mioI2cCmd_busy k 0 _ _ List.mem_cons_self)).events
      (emit_onlyEvents _ _)

/-- What an ended transfer stores and puts on the bus. -/
def i2cEnded (k result : Nat) (data : Word) (s : State) : State :=
  let t := wrX mioI2cCmd_busy k 0 0 (wrX mioI2cCmd_result k 0 result s)
  let t1 := if result = 0 ∧ rdX mioI2cCmd_read k 0 s = 1 then wrX mioI2cData_data k 0 (data.toNat % 256 ^ rdX mioI2cCmd_len k 0 s) t else t
  if result = 2 then emit (.bus (if k = 0 then "I2C0" else "I2C1") [9]) t1 else t1

theorem i2cDone_eq (k result : Nat) (data : Word) (s : State) :
    i2cDone k result data s =
      if result = 0 then raise (if k = 0 then mioI2c0Done else mioI2c1Done) (i2cEnded k result data s)
      else raise mioI2cError (raise (if k = 0 then mioI2c0Done else mioI2c1Done) (i2cEnded k result data s)) := rfl

theorem i2cEnded_spec {k result : Nat} {data : Word} {s : State} (hk : k < 2) (hr : result < 3) :
    rdX mioI2cCmd_busy k 0 (i2cEnded k result data s) = 0 ∧ rdX mioI2cCmd_result k 0 (i2cEnded k result data s) = result ∧
    rdX mioI2cData_data k 0 (i2cEnded k result data s) = (if result = 0 ∧ rdX mioI2cCmd_read k 0 s = 1
      then data.toNat % 256 ^ rdX mioI2cCmd_len k 0 s % 2 ^ 32 else rdX mioI2cData_data k 0 s) ∧
    (result = 2 → Output.bus (if k = 0 then "I2C0" else "I2C1") [9] ∈ (i2cEnded k result data s).out) ∧
    Changes [keyOfField mioI2cCmd_busy k 0, keyOfField mioI2cData_data k 0] [] s (i2cEnded k result data s) := by
  obtain ⟨hdata, hbusy, hresult, -⟩ := i2cKeys k hk
  have hdata' : offsApart mioI2cCmd_result k mioI2cData_data k = true := hdata
  have h2 : ∀ a : State, ∀ o : Output, (∀ f : Fld, rdX f k 0 (if result = 2 then emit o a else a) = rdX f k 0 a) := fun a o f => by
    split <;> rfl
  have hch : Changes [keyOfField mioI2cCmd_busy k 0, keyOfField mioI2cData_data k 0] [] s
      (wrX mioI2cCmd_busy k 0 0 (wrX mioI2cCmd_result k 0 result s)) :=
    (wrX_changes mioI2cCmd_result k 0 _ _ List.mem_cons_self).trans (wrX_changes _ _ _ _ _ List.mem_cons_self)
  have hb0 : rdX mioI2cCmd_busy k 0 (wrX mioI2cCmd_busy k 0 0 (wrX mioI2cCmd_result k 0 result s)) = 0 :=
    rdX_wrX_fits (by decide) (by decide)
  have hr0 : rdX mioI2cCmd_result k 0 (wrX mioI2cCmd_busy k 0 0 (wrX mioI2cCmd_result k 0 result s)) = result :=
    (rdX_wrX_bits _ _ (by decide)).trans (rdX_wrX_fits (by decide) (by change _ < 4; omega))
  have hd0 : rdX mioI2cData_data k 0 (wrX mioI2cCmd_busy k 0 0 (wrX mioI2cCmd_result k 0 result s)) = rdX mioI2cData_data k 0 s :=
    (rdX_wrX_offs _ _ hdata).trans (rdX_wrX_offs _ _ hdata')
  unfold i2cEnded
  dsimp only
  refine ⟨?_, ?_, ?_, fun h => ?_, ?_⟩
  · rw [h2]
    split
    · exact (rdX_wrX_offs _ _ hbusy).trans hb0
    · exact hb0
  · rw [h2]
    split
    · exact (rdX_wrX_offs _ _ hresult).trans hr0
    · exact hr0
  · rw [h2]
    split
    · exact rdX_wrX_same _ _ _ _ _ (by decide)
    · exact hd0
  · rw [if_pos h]
    exact List.mem_append_right _ List.mem_cons_self
  · have h1 : ∀ a : State, Changes [keyOfField mioI2cCmd_busy k 0, keyOfField mioI2cData_data k 0] [] s a →
        Changes [keyOfField mioI2cCmd_busy k 0, keyOfField mioI2cData_data k 0] [] s
          (if result = 2 then emit (.bus (if k = 0 then "I2C0" else "I2C1") [9]) a else a) := fun a ha => by
      split
      · exact ha.events (emit_onlyEvents _ _)
      · exact ha
    refine h1 _ ?_
    split
    · exact hch.trans (wrX_changes _ _ _ _ _ (List.mem_cons_of_mem _ List.mem_cons_self))
    · exact hch

/-- The events of an ended transfer. -/
theorem i2cDone_events (k result : Nat) (data : Word) (s : State) :
    OnlyEvents (i2cEnded k result data s) (i2cDone k result data s) ∧
    Asserted (if k = 0 then mioI2c0Done else mioI2c1Done) (i2cDone k result data s) ∧
    (result ≠ 0 → Asserted mioI2cError (i2cDone k result data s)) := by
  have hb : (if k = 0 then mioI2c0Done else mioI2c1Done).b < 32 := by split <;> decide
  rw [i2cDone_eq]
  split
  · next h => exact ⟨raise_onlyEvents _ _, raise_asserted _ hb, fun hn => (hn h).elim⟩
  · exact ⟨(raise_onlyEvents _ _).trans (raise_onlyEvents _ _), (raise_onlyEvents _ _).causes _ (raise_asserted _ hb),
      fun _ => raise_asserted _ (by decide)⟩

/-! ### MDIO (R599) -/

/-- The fields of an MDIO command as written. -/
def mdioFields (v : Word) (s : State) : State :=
  wr mioMdioCmd_phy (wordField v 0 5) (wr mioMdioCmd_reg (wordField v 5 5) (wr mioMdioCmd_op (wordField v 10 2)
    (wr mioMdioCmd_c45 (wordField v 12 1) s)))

theorem mdioFields_read (v : Word) (s : State) :
    rd mioMdioCmd_phy (mdioFields v s) = wordField v 0 5 ∧ rd mioMdioCmd_reg (mdioFields v s) = wordField v 5 5 ∧
    rd mioMdioCmd_op (mdioFields v s) = wordField v 10 2 ∧ rd mioMdioCmd_c45 (mdioFields v s) = wordField v 12 1 ∧
    rd mioMdioData_data (mdioFields v s) = rd mioMdioData_data s := by
  unfold mdioFields
  refine ⟨rd_wr_fits (by decide) (wordField_lt _ _ _), ?_, ?_, ?_, ?_⟩
  · rw [rd_wr_other _ _ (by decide)]
    exact rd_wr_fits (by decide) (wordField_lt _ _ _)
  · rw [rd_wr_other _ _ (by decide), rd_wr_other _ _ (by decide)]
    exact rd_wr_fits (by decide) (wordField_lt _ _ _)
  · rw [rd_wr_other _ _ (by decide), rd_wr_other _ _ (by decide), rd_wr_other _ _ (by decide)]
    exact rd_wr_fits (by decide) (wordField_lt _ _ _)
  · rw [rd_wr_other _ _ (by decide), rd_wr_other _ _ (by decide), rd_wr_other _ _ (by decide), rd_wr_other _ _ (by decide)]

theorem mdioFields_changes (v : Word) (s : State) : Changes [keyOfField mioMdioCmd_busy 0 0] [] s (mdioFields v s) :=
  (((wr_changes mioMdioCmd_c45 _ _ (by decide)).trans (wr_changes mioMdioCmd_op _ _ (by decide))).trans (wr_changes mioMdioCmd_reg _ _ (by decide))).trans
    (wr_changes mioMdioCmd_phy _ _ (by decide))

/-- A frame that starts: its fields, busy, and the frame on the bus. -/
def mdioStarted (v : Word) (s : State) : State :=
  emit (.bus "MDIO" [wordField v 0 5, wordField v 5 5, wordField v 10 2, wordField v 12 1, rd mioMdioData_data s])
    (wr mioMdioCmd_error 0 (wr mioMdioCmd_busy 1 (mdioFields v s)))

theorem mdioCmdWrite_go {v : Word} {s : State} (hb : rd mioMdioCmd_busy s = 0) (hop : mdioOpOk (wordField v 12 1) (wordField v 10 2) = true) :
    mdioCmdWrite (wordWith v 16 1 1) s = mdioStarted v s := by
  have hdata := (mdioFields_read v s).2.2.2.2
  unfold mdioFields at hdata
  unfold mdioCmdWrite
  dsimp only
  rw [wordField_go, wordField_wordWith_go v (by decide), wordField_wordWith_go v (by decide), wordField_wordWith_go v (by decide),
    wordField_wordWith_go v (by decide), if_pos ⟨rfl, hb, hop⟩, hdata]
  rfl

/-- What an ended frame stores. -/
def mdioEnded (noTurn : Bool) (data : Nat) (s : State) : State :=
  let t := wr mioMdioCmd_busy 0 (wr mioMdioCmd_error (b2n (noTurn && mdioReads s)) s)
  if mdioReads s && !(noTurn && mdioReads s) then wr mioMdioData_data data t else t

theorem mdioDone_eq (noTurn : Bool) (data : Nat) (s : State) :
    mdioDone noTurn data s = if noTurn && mdioReads s then raise mioMdioError (raise mioMdioDone (mdioEnded noTurn data s))
      else raise mioMdioDone (mdioEnded noTurn data s) := rfl

theorem mdioEnded_spec (noTurn : Bool) (data : Nat) (s : State) :
    rd mioMdioCmd_busy (mdioEnded noTurn data s) = 0 ∧ rd mioMdioCmd_error (mdioEnded noTurn data s) = b2n (noTurn && mdioReads s) ∧
    rd mioMdioData_data (mdioEnded noTurn data s) =
      (if mdioReads s = true ∧ noTurn = false then data % 2 ^ 16 else rd mioMdioData_data s) ∧
    Changes [keyOfField mioMdioCmd_busy 0 0, keyOfField mioMdioData_data 0 0] [] s (mdioEnded noTurn data s) := by
  have hc : (mdioReads s && !(noTurn && mdioReads s)) = true ↔ mdioReads s = true ∧ noTurn = false := by
    cases noTurn <;> cases mdioReads s <;> simp
  have hch : Changes [keyOfField mioMdioCmd_busy 0 0, keyOfField mioMdioData_data 0 0] [] s
      (wr mioMdioCmd_busy 0 (wr mioMdioCmd_error (b2n (noTurn && mdioReads s)) s)) :=
    (wr_changes mioMdioCmd_error _ _ (by decide)).trans (wr_changes mioMdioCmd_busy _ _ (by decide))
  unfold mdioEnded
  dsimp only
  by_cases h : mdioReads s = true ∧ noTurn = false
  · rw [if_pos (hc.2 h), if_pos h]
    refine ⟨?_, ?_, rd_wr_same _ _ _ (by decide), hch.trans (wr_changes _ _ _ (by decide))⟩
    · rw [rd_wr_other _ _ (by decide), rd_wr_fits (by decide) (by decide)]
    · rw [rd_wr_other _ _ (by decide), rd_wr_other _ _ (by decide), rd_wr_fits (by decide) (b2n_lt _ (by decide))]
  · rw [if_neg (fun hh => h (hc.1 hh)), if_neg h]
    refine ⟨rd_wr_fits (by decide) (by decide), ?_, ?_, hch⟩
    · rw [rd_wr_other _ _ (by decide), rd_wr_fits (by decide) (b2n_lt _ (by decide))]
    · rw [rd_wr_other _ _ (by decide), rd_wr_other _ _ (by decide)]

theorem mdioDone_events (noTurn : Bool) (data : Nat) (s : State) :
    OnlyEvents (mdioEnded noTurn data s) (mdioDone noTurn data s) ∧ Asserted mioMdioDone (mdioDone noTurn data s) ∧
      (noTurn = true → mdioReads s = true → Asserted mioMdioError (mdioDone noTurn data s)) := by
  rw [mdioDone_eq]
  split
  · exact ⟨(raise_onlyEvents _ _).trans (raise_onlyEvents _ _), (raise_onlyEvents _ _).causes _ (raise_asserted _ (by decide)),
      fun _ _ => raise_asserted _ (by decide)⟩
  · next h => exact ⟨raise_onlyEvents _ _, raise_asserted _ (by decide), fun h1 h2 => (h (by rw [h1, h2]; rfl)).elim⟩

/-! ### The temperature of an HBM stack -/

theorem rdC_wrC_fits {f : Fld} {c v : Nat} {s : State} (h : f.ok = true) (hv : v < 2 ^ f.w) : rdC f c (wrC f c v s) = v :=
  rdX_wrX_fits h hv

theorem rdC_wrC_bits {f g : Fld} {c d : Nat} (v : Nat) (s : State) (h : bitsApart f g = true) : rdC g d (wrC f c v s) = rdC g d s :=
  rdX_wrX_bits v s h

/-- The temperature and the refresh rate of a stack, as TEMP_C and REFRESH_2X show them. -/
def stackShown (k temp : Nat) (s : State) : State :=
  let t := wrC hbmStackStatus_tempC k (min temp 255) s
  if rdC hbmStackStatus_refresh2x k t = b2n (decide (85 < temp)) then t
  else raiseC hbmRefresh2x k (wrC hbmStackStatus_refresh2x k (b2n (decide (85 < temp))) t)

theorem stackShown_spec {k temp : Nat} {s : State} (hk : k < 4) (ht : temp < 256) :
    rdC hbmStackStatus_tempC k (stackShown k temp s) = temp ∧ rdC hbmStackStatus_refresh2x k (stackShown k temp s) = b2n (decide (85 < temp)) ∧
    (rdC hbmStackStatus_refresh2x k s ≠ b2n (decide (85 < temp)) → Asserted hbmRefresh2x (stackShown k temp s)) ∧
    Changes [keyOfField hbmStackStatus_tempC 0 k] [] s (stackShown k temp s) := by
  have hstat : ¬ StatKey (keyOfField hbmStackStatus_tempC 0 k) := by
    have hall : ∀ k < 4, ¬ StatKey (keyOfField hbmStackStatus_tempC 0 k) := by decide
    exact hall k hk
  have hch : Changes [keyOfField hbmStackStatus_tempC 0 k] [] s (wrC hbmStackStatus_tempC k (min temp 255) s) :=
    wrC_changes _ _ _ _ List.mem_cons_self
  have htemp : rdC hbmStackStatus_tempC k (wrC hbmStackStatus_tempC k (min temp 255) s) = temp := by
    rw [rdC_wrC_fits (by decide) (by change _ < 256; omega)]
    omega
  unfold stackShown
  dsimp only
  rw [rdC_wrC_bits (g := hbmStackStatus_refresh2x) _ _ (by decide)]
  split
  · next h =>
    exact ⟨htemp, (rdC_wrC_bits _ _ (by decide)).trans h, fun hn => (hn h).elim, hch⟩
  · refine ⟨?_, ?_, fun _ => raiseC_asserted _ _ (by decide), (hch.trans (wrC_changes hbmStackStatus_refresh2x _ _ _ List.mem_cons_self)).events
      (raiseC_onlyEvents _ _ _)⟩
    · exact (rdX_raiseC _ _ _ hstat).trans ((rdC_wrC_bits _ _ (by decide)).trans htemp)
    · exact (rdX_raiseC (f := hbmStackStatus_refresh2x) _ _ _ hstat).trans (rdC_wrC_fits (by decide) (b2n_lt _ (by decide)))

/-- Which stacks are hot after a reading. -/
def hotAfter (k temp hot : Nat) : Nat := if decide (95 < temp) then setBit hot k else clearBit hot k

theorem hotAfter_eq (k temp hot : Nat) : hotAfter k temp hot = if 95 < temp then setBit hot k else clearBit hot k := by
  simp only [hotAfter, decide_eq_true_eq]

theorem stackTemperature_eq (k temp : Nat) (s : State) :
    stackTemperature k temp s =
      if decide (95 < temp) && !(stackShown k temp s).recov.hot.testBit k then
        raiseC hbmTempHigh k { stackShown k temp s with recov := { (stackShown k temp s).recov with hot := hotAfter k temp (stackShown k temp s).recov.hot } }
      else { stackShown k temp s with recov := { (stackShown k temp s).recov with hot := hotAfter k temp (stackShown k temp s).recov.hot } } := rfl

theorem stackTemperature_spec {k temp : Nat} {s : State} (hk : k < 4) (ht : temp < 256) :
    OnlyEvents { stackShown k temp s with recov := { s.recov with hot := hotAfter k temp s.recov.hot } } (stackTemperature k temp s) ∧
    (95 < temp → s.recov.hot.testBit k = false → Asserted hbmTempHigh (stackTemperature k temp s)) := by
  have hrecov : (stackShown k temp s).recov = s.recov := (stackShown_spec hk ht).2.2.2.recov
  rw [stackTemperature_eq, hrecov]
  split
  · exact ⟨raiseC_onlyEvents _ _ _, fun _ _ => raiseC_asserted _ _ (by decide)⟩
  · next h => exact ⟨OnlyEvents.refl _, fun h1 h2 => (h (by rw [decide_eq_true h1, h2]; rfl)).elim⟩

/-- Settles O23: a lemma per device of the slow buses, each read through the events that follow it. -/
theorem sensorsPinsAndSlowBuses : Obligations.SensorsPinsAndSlowBuses := by
  unfold Obligations.SensorsPinsAndSlowBuses
  intro s
  refine ⟨fun temps m hl hh hm hmax => ⟨_, ?_, tempRead_spec hl hm hmax⟩, fun pin level hp hh hne => ⟨_, ?_, gpioEdge_spec hp hne⟩,
    fun w k v hk ha hb h1 h4 => ⟨_, ?_, i2cGo_spec hk hb h1 h4 _ rfl⟩, fun k result data hk hr hb => ⟨i2cDone k result data s, ?_, ?_⟩,
    fun w v ha hb hop => ⟨mdioStarted v s, ?_, ?_⟩, fun noTurn data hb => ⟨mdioDone noTurn data s, ?_, ?_⟩, fun ch hh => ⟨?_, _, ?_, raise_asserted _ (by decide),
      raise_onlyEvents _ _⟩, fun k temp hk ht hf hh => ⟨stackTemperature k temp s, ?_, ?_⟩⟩
  · exact (guarded_of_true (decide_eq_true hl) _).trans (congrArg _ (onlyIf_of_true (decide_eq_true hh) _ _))
  · exact (guarded_of_true (decide_eq_true hp) _).trans (congrArg _ (onlyIf_of_true (decide_eq_true hh) _ _))
  · exact (guarded_of_true (decide_eq_true hk) _).trans (congrArg _ (writing_of_admits ha _))
  · exact (guarded_of_true (decide_eq_true ⟨hk, hr⟩) _).trans (congrArg _ (onlyIf_of_true (decide_eq_true hb) _ _))
  · obtain ⟨hbusy, hres, hdata, hout, hch⟩ := i2cEnded_spec (data := data) (s := s) hk hr
    obtain ⟨hev, hdone, herr⟩ := i2cDone_events k result data s
    obtain ⟨-, -, -, hs1, hs2⟩ := i2cKeys k hk
    exact ⟨(hev.rdX hs1).trans hbusy, (hev.rdX (f := mioI2cCmd_result) hs1).trans hres, (hev.rdX hs2).trans hdata, hdone, herr,
      fun h2 => hev.out.subset (hout h2), hch.events hev⟩
  · exact congrArg _ ((writing_of_admits ha _).trans (mdioCmdWrite_go hb hop))
  · obtain ⟨hphy, hreg, hopf, hc45, hdata⟩ := mdioFields_read v s
    have hothers : ∀ f : Fld, fieldsApart mioMdioCmd_error 0 0 f 0 0 = true → fieldsApart mioMdioCmd_busy 0 0 f 0 0 = true →
        rd f (wr mioMdioCmd_error 0 (wr mioMdioCmd_busy 1 (mdioFields v s))) = rd f (mdioFields v s) :=
      fun f h1 h2 => (rd_wr_other _ _ h1).trans (rd_wr_other _ _ h2)
    simp only [mdioStarted, rd_emit]
    refine ⟨?_, rd_wr_fits (by decide) (by decide), ?_, ?_, ?_, ?_, ?_, ?_⟩
    · rw [rd_wr_other _ _ (by decide), rd_wr_fits (by decide) (by decide)]
    · rw [hothers _ (by decide) (by decide), hphy]
    · rw [hothers _ (by decide) (by decide), hreg]
    · rw [hothers _ (by decide) (by decide), hopf]
    · rw [hothers _ (by decide) (by decide), hc45]
    · simp only [emit, wr, wrX_out, mdioFields]
    · exact (((mdioFields_changes v s).trans (wr_changes mioMdioCmd_busy _ _ (by decide))).trans (wr_changes mioMdioCmd_error _ _ (by decide))).events
        (emit_onlyEvents _ _)
  · exact congrArg _ (onlyIf_of_true (decide_eq_true hb) _ _)
  · obtain ⟨hbusy, herror, hdata, hch⟩ := mdioEnded_spec noTurn data s
    obtain ⟨hev, hdone, herr⟩ := mdioDone_events noTurn data s
    exact ⟨(hev.rdX (by decide)).trans hbusy, (hev.rdX (by decide)).trans herror, hdone, herr, (hev.rdX (by decide)).trans hdata, hch.events hev⟩
  · show Host.Outcome.next (if s.pwr.hold ≠ .none then s else emit (.bus "UART" [ch % 256]) s) = _
    rw [if_neg (fun hn => hn hh)]
    rfl
  · show Host.Outcome.next (if s.pwr.hold ≠ .none then s else raise mioUartOverrun s) = _
    rw [if_neg (fun hn => hn hh)]
  · exact (guarded_of_true (decide_eq_true hk) _).trans (congrArg _ (onlyIf_of_true (by rw [hf, decide_eq_true hh]; rfl) _ _))
  · obtain ⟨htemp, hrefresh, has, hch⟩ := stackShown_spec (s := s) hk ht
    obtain ⟨hev, hhigh⟩ := stackTemperature_spec (s := s) hk ht
    have hstat : ¬ StatKey (keyOfField hbmStackStatus_tempC 0 k) := by
      have hall : ∀ k < 4, ¬ StatKey (keyOfField hbmStackStatus_tempC 0 k) := by decide
      exact hall k hk
    rw [hotAfter_eq] at hev
    refine ⟨?_, ?_, fun hne => hev.causes hbmRefresh2x ((has hne).of_evt rfl), hhigh, (hch.with_recov _).events hev⟩
    · exact ((hev.rdX hstat).trans (rdX_with_recov _ 0 k _ _)).trans htemp
    · exact ((hev.rdX (f := hbmStackStatus_refresh2x) hstat).trans (rdX_with_recov _ 0 k _ _)).trans hrefresh

end Sys2Proof.Machine
end

section
/-! PROOFS. Parsing, rules, lookups and what becomes of a frame (chapters 08 and 09). -/

namespace Sys2Proof.Machine

/-! ### Rules in order -/

theorem testRules_poisoned {h : Half} {v : RuleView} {dflt : Found} {i : Nat} {is : List Nat} (hp : rulePoisoned h i = true) :
    testRules h v dflt (i :: is) = .poisoned := by
  simp [testRules, hp]

theorem testRules_match {h : Half} {v : RuleView} {dflt : Found} {i : Nat} {is : List Nat} (hp : rulePoisoned h i = false)
    (hm : ruleMatches h i v = true) : testRules h v dflt (i :: is) = .act (ruleWord h i 1) (ruleWord h i 2) := by
  simp [testRules, hp, hm]

theorem testRules_passed {h : Half} {v : RuleView} {dflt : Found} {before : List Nat}
    (hb : ∀ j, j ∈ before → rulePoisoned h j = false ∧ ruleMatches h j v = false) (rest : List Nat) :
    testRules h v dflt (before ++ rest) = testRules h v dflt rest := by
  induction before with
  | nil => rfl
  | cons j js ih =>
    obtain ⟨hp, hm⟩ := hb j List.mem_cons_self
    rw [List.cons_append, testRules, hp, hm]
    exact ih (fun k hk => hb k (List.mem_cons_of_mem _ hk))

/-! ### The destination lookup -/

theorem storeLookup_of_to {i : Nat} {s : State} {d nh e : Nat} (h : (destLookup (frame i s) s).1 = .to d nh e) :
    storeLookup i s = modFrame i (fun f => { f with dest := d, nextHop := nh, nhEntry := e, noDest := false }) (destLookup (frame i s) s).2 := by
  simp [storeLookup, h]

theorem storeLookup_of_drop {i : Nat} {s : State} (h : (destLookup (frame i s) s).1 = .drop) :
    storeLookup i s = modFrame i (fun f => { f with dest := 0, nextHop := 0, nhEntry := 0, noDest := true }) (destLookup (frame i s) s).2 := by
  simp [storeLookup, h]

theorem destLookup_of_none {f : Frame} {s : State} (h : l2Seen (fidOf f s) (beAt f.bytes 0 6) s = none) : destLookup f s = l2Miss f s := by
  simp [destLookup, h]

theorem l2Seen_of_on {fid mac : Nat} {s : State} (h : blockOn .l2t s = true) : l2Seen fid mac s = l2Find fid mac s := if_pos h

theorem l2Seen_of_off {fid mac : Nat} {s : State} (h : blockOn .l2t s = false) : l2Seen fid mac s = none := by
  simp [l2Seen, h]

theorem destLookup_of_entry {f : Frame} {s : State} {i : Nat} (h : l2Seen (fidOf f s) (beAt f.bytes 0 6) s = some i) :
    destLookup f s =
      if (l2At i s).drop then (.drop, l2Stat 7 s)
      else if (l2At i s).kind = 0 then (.to (l2At i s).target 0 0, s)
      else if (l2At i s).kind = 1 then nextHopRead (l2At i s).target f s
      else match routedHdr f with
        | some h => routeLookup ((l2At i s).target % 4096) h f s
        | none => l2Miss f s := by
  unfold destLookup
  rw [h] <;> rfl

theorem l2Miss_eq (f : Frame) (s : State) :
    (cf l2tCfg_missAction s = 0 → l2Miss f s = (.drop, l2Stat 6 s)) ∧
    (cf l2tCfg_missAction s = 1 → l2Miss f s = (.to 264 0 0, l2Stat 6 s)) ∧
    (2 ≤ cf l2tCfg_missAction s → l2Miss f s = nextHopRead (cf l2tCfg_missNh s) f (l2Stat 6 s)) := by
  unfold l2Miss missAction
  refine ⟨fun h => if_pos h, fun h => ?_, fun h => ?_⟩
  · rw [if_neg (by omega), if_pos h]
  · rw [if_neg (by omega), if_neg (by omega)]

/-! ### Next hops and ECMP groups -/

theorem nextHopRead_invalid {nh : Nat} {f : Frame} {s : State} (h : nhValid (nhAt nh s) = false) :
    nextHopRead nh f s = (.drop, raise lpmNhInvalid (lpmStat 2 s)) := by
  simp [nextHopRead, h]

theorem nextHopRead_live {nh : Nat} {f : Frame} {s : State} (h : nhValid (nhAt nh s) = true)
    (hl : nhRoute (nhAt nh s) = false ∨ ∀ x, ttlOf f = some x → 1 < x) :
    nextHopRead nh f s = (.to (nhDest (nhAt nh s)) (2 ^ 31 + nh) (nhAt nh s), s) := by
  cases ht : ttlOf f with
  | none => simp [nextHopRead, h, ht]
  | some x =>
    rcases hl with hr | hx
    · simp [nextHopRead, h, ht, hr]
    · simp [nextHopRead, h, ht, hx x ht]

theorem nextHopRead_expired {nh : Nat} {f : Frame} {s : State} {x : Nat} (h : nhValid (nhAt nh s) = true) (hr : nhRoute (nhAt nh s) = true)
    (ht : ttlOf f = some x) (hx : x ≤ 1) :
    nextHopRead nh f s = (if cf lpmCfg_ttlHost s = 1 then .to 264 0 0 else .drop, raise lpmTtlExpired (lpmStat 1 s)) := by
  simp [nextHopRead, h, hr, ht, hx]

theorem ecmpMember_within (e h : Nat) : ecmpMember e h < grBase e + grSize e := by
  have hsize : 0 < grSize e := Nat.succ_pos _
  have hfrac : h / 65536 % 65536 * grSize e < 65536 * grSize e := Nat.mul_lt_mul_of_pos_right (Nat.mod_lt _ (by decide)) hsize
  unfold ecmpMember
  exact Nat.add_lt_add_left (Nat.div_lt_of_lt_mul hfrac) _

/-! ### The trie -/

/-- What an entry adds to the best result so far. -/
def bestOf (e : Nat) (best : Option Nat) : Option Nat := if bit e 19 then some (bitsOf e 0 19) else best

theorem lpmWalk_of_leaf {s : State} {addr width n e pos : Nat} {best : Option Nat} (h : bit e 46 = false ∨ width ≤ pos) :
    lpmWalk s addr width n e pos best = (best, false) := by
  have hc : (peHasChild e && decide (pos < width)) = false := by
    rcases h with h | h
    · simp [peHasChild, h]
    · simp [Nat.not_lt.2 h]
  cases n with
  | zero => rw [lpmWalk, hc]
  | succ n => rw [lpmWalk, hc]; rfl

theorem hasChild_true {e pos width : Nat} (h : bit e 46 = true) (hp : pos < width) : (peHasChild e && decide (pos < width)) = true := by
  simp [peHasChild, h, hp]

theorem lpmWalk_of_deep {s : State} {addr width e pos : Nat} {best : Option Nat} (h : bit e 46 = true) (hp : pos < width) :
    lpmWalk s addr width 0 e pos best = (best, true) := by
  rw [lpmWalk, hasChild_true h hp]

theorem lpmWalk_of_outside {s : State} {addr width n e pos : Nat} {best : Option Nat} (h : bit e 46 = true) (hp : pos < width)
    (ho : 3145728 < bitsOf e 20 22 + 2 ^ (bitsOf e 42 4 + 1)) : lpmWalk s addr width n e pos best = (best, true) := by
  cases n with
  | zero => exact lpmWalk_of_deep h hp
  | succ n =>
    rw [lpmWalk, hasChild_true h hp, if_pos rfl]
    exact if_pos ho

theorem lpmWalk_of_child {s : State} {addr width n e pos : Nat} {best : Option Nat} (h : bit e 46 = true) (hp : pos < width)
    (hin : bitsOf e 20 22 + 2 ^ (bitsOf e 42 4 + 1) ≤ 3145728) :
    lpmWalk s addr width (n + 1) e pos best =
      lpmWalk s addr width n (poolAt (bitsOf e 20 22 + addrBits addr width pos (bitsOf e 42 4 + 1)) s) (pos + (bitsOf e 42 4 + 1))
        (bestOf (poolAt (bitsOf e 20 22 + addrBits addr width pos (bitsOf e 42 4 + 1)) s) best) := by
  rw [lpmWalk, hasChild_true h hp, if_pos rfl]
  exact if_neg (Nat.not_lt.2 hin)

theorem bit_eq_div (x i : Nat) : bit x i = decide (x / 2 ^ i % 2 = 1) := Nat.testBit_eq_decide_div_mod_eq

/-- The worked example of three levels. -/
theorem lpmLookup_example {s : State} {c d : Nat} (hc : c + 65536 ≤ 3145728) (hd : d + 16 ≤ 3145728)
    (hroot : poolAt 34 s = c * 2 ^ 20 + 15 * 2 ^ 42 + 2 ^ 46)
    (hmid : poolAt (c + 2580) s = 500 + 2 ^ 19 + d * 2 ^ 20 + 3 * 2 ^ 42 + 2 ^ 46) (hleaf : poolAt (d + 3) s = 501 + 2 ^ 19) :
    lpmLookup 17 false 0x0A143307 s = (some 501, false) := by
  have hstart : lpmLookup 17 false 0x0A143307 s = lpmWalk s 0x0A143307 32 19 (poolAt 34 s) 0 (bestOf (poolAt 34 s) none) := rfl
  have hchild : bitsOf (poolAt 34 s) 20 22 = c := by rw [hroot, bitsOf_eq]; omega
  have hstride : bitsOf (poolAt 34 s) 42 4 = 15 := by rw [hroot, bitsOf_eq]; omega
  have hhas : bit (poolAt 34 s) 46 = true := by rw [hroot, bit_eq_div]; exact decide_eq_true (by omega)
  have haddr : addrBits 0x0A143307 32 0 16 = 2580 := by decide
  have hfirst := lpmWalk_of_child (s := s) (addr := 0x0A143307) (width := 32) (n := 18) (pos := 0) (best := bestOf (poolAt 34 s) none) hhas
    (by decide) (by rw [hchild, hstride]; omega)
  rw [hchild, hstride, haddr] at hfirst
  have hchild2 : bitsOf (poolAt (c + 2580) s) 20 22 = d := by rw [hmid, bitsOf_eq]; omega
  have hstride2 : bitsOf (poolAt (c + 2580) s) 42 4 = 3 := by rw [hmid, bitsOf_eq]; omega
  have hhas2 : bit (poolAt (c + 2580) s) 46 = true := by rw [hmid, bit_eq_div]; exact decide_eq_true (by omega)
  have haddr2 : addrBits 0x0A143307 32 16 4 = 3 := by decide
  have hsecond := lpmWalk_of_child (s := s) (addr := 0x0A143307) (width := 32) (n := 17) (pos := 16)
    (best := bestOf (poolAt (c + 2580) s) (bestOf (poolAt 34 s) none)) hhas2 (by decide) (by rw [hchild2, hstride2]; omega)
  rw [hchild2, hstride2, haddr2] at hsecond
  have hend : bit (poolAt (d + 3) s) 46 = false := by rw [hleaf]; decide
  have hbest : bestOf (poolAt (d + 3) s) (bestOf (poolAt (c + 2580) s) (bestOf (poolAt 34 s) none)) = some 501 := by
    rw [hleaf, bestOf, if_pos (by decide)]
    decide
  rw [hstart, hfirst, hsecond, lpmWalk_of_leaf (Or.inl hend), hbest]

/-! ### Routes -/

theorem routeLookup_eq {vrf : Nat} {h : Hdr} {f : Frame} {s : State} {addr : Nat} {r : Option Nat × Bool} {t : State}
    (ha : addr = if h.code = 8 then beAt f.bytes (h.off + 24) 16 else beAt f.bytes (h.off + 16) 4) (hon : blockOn .lpm s = true)
    (hr : r = lpmLookup vrf (decide (h.code = 8)) addr s) (ht : t = if r.2 then raise lpmTrieError (lpmStat 3 s) else s) :
    routeLookup vrf h f s = match r.1 with
      | none => missAction (cf lpmCfg_missAction t) (cf lpmCfg_missNh t) f (lpmStat 0 t)
      | some x =>
        if bit x 18 then
          if grValid (ecmpAt (bitsOf x 0 14) t) then
            nextHopRead (sget zeroDefault t.lpm.member (ecmpMember (ecmpAt (bitsOf x 0 14) t) f.hash) % 2 ^ 18) f t
          else (.drop, raise lpmNhInvalid (lpmStat 2 t))
        else nextHopRead (bitsOf x 0 18) f t := by
  subst ht hr ha
  simp only [routeLookup, hon, if_true, decide_eq_true_eq] <;> rfl

/-! ### What becomes of a frame -/

theorem meterAndDecide_of_unmetered {i : Nat} {s : State} (h : actMeterEn (frame i s).actB = false) : meterAndDecide i s = decideFrame i s := by
  simp [meterAndDecide, h]

theorem afterLookups_of_complete {i : Nat} {s : State} (hc : (frame i s).complete = true) (hsa : (frame i s).sa = 0)
    (hd : (frame i s).saDrop = false) :
    afterLookups i s = if actDrop (frame i s).actA = true then dropFrame i s else meterAndDecide i s := by
  simp [afterLookups, hc, hsa, hd]

theorem afterLookups_of_partial {i : Nat} {s : State} (hc : (frame i s).complete = false) :
    afterLookups i s =
      if actDrop (frame i s).actA = true then dropFrame i s
      else if (frame i s).saDrop = true ∨ actMeterEn (frame i s).actB = true then modFrame i (fun f => { f with meterWait := true }) s
      else decideFrame i s := by
  simp [afterLookups, hc]

theorem decideFrame_of_key {i : Nat} {s : State} {pol : Nat} (h : lacksKey (frame i s) s = false)
    (hp : pol = excChoice ((frame i s).exc % 64) (decide (actProgram (frame i s).actA ≠ 0)) (frame i s) s) :
    decideFrame i s =
      if pol = 1 then dropFrame i s
      else if pol = 2 ∨ actToHost (frame i s).actA = true then hostFrame i none s
      else if actRecirc (frame i s).actA = true then recircFrame i s
      else if actProgram (frame i s).actA ≠ 0 then flowDecision i s
      else forwardFrame i none s := by
  subst hp
  simp [decideFrame, h, b2n]

/-! ### Policies of exception classes -/

/-- The policies of the classes that hold. -/
def policies (bits : Nat) (flow : Bool) (f : Frame) (s : State) : List Nat :=
  ((List.range 8).filter (fun e => bit bits e)).map (fun e => excPolicy e flow f s)

theorem excChoice_eq (bits : Nat) (flow : Bool) (f : Frame) (s : State) :
    excChoice bits flow f s =
      if (policies bits flow f s).contains 1 then 1 else if (policies bits flow f s).contains 2 then 2 else 0 := rfl

theorem mem_policies {bits : Nat} {flow : Bool} {f : Frame} {s : State} {p : Nat} :
    (policies bits flow f s).contains p = true ↔ ∃ e, e < 8 ∧ bit bits e = true ∧ excPolicy e flow f s = p := by
  simp only [policies, List.contains_iff_mem, List.mem_map, List.mem_filter, List.mem_range, and_assoc]

theorem excChoice_of_none {bits : Nat} {flow : Bool} {f : Frame} {s : State} (h : ∀ e, e < 8 → bit bits e = false) :
    excChoice bits flow f s = 0 := by
  have hno : ∀ p, ¬ (policies bits flow f s).contains p = true := fun p hp => by
    obtain ⟨e, he, hbit, -⟩ := mem_policies.1 hp
    rw [h e he] at hbit
    cases hbit
  rw [excChoice_eq, if_neg (hno 1), if_neg (hno 2)]

/-- Settles O60: an equation for each stage, lookup and decision. -/
theorem lookupsFollowTheTables : Obligations.LookupsFollowTheTables := by
  unfold Obligations.LookupsFollowTheTables
  intro s
  refine ⟨fun i f hf hp => ?_, fun i f g t hdrs exc prp hf hp hg ht => ⟨fun hc => ?_, fun a b h hc hh => ?_⟩,
    fun h v dflt i => ⟨rfl, fun after => ⟨testRules_poisoned, testRules_match, fun before hb => ⟨testRules_passed hb _, ?_⟩⟩⟩,
    fun i r d nh e hr => ⟨fun h => ?_, fun h => ?_⟩, fun f hon => ⟨fun hn => ?_, fun i e hfind he => ?_⟩, fun f hoff => ?_,
    fun f => l2Miss_eq f s, fun vrf h f addr r t ha hon hr ht => ⟨fun hn => ?_, fun x hx => ?_⟩, fun nh f e he => ?_,
    fun e h => ⟨rfl, Nat.le_add_right _ _, ecmpMember_within e h⟩, fun vrf v6 addr root hroot => ?_, fun addr width n e pos best => ?_,
    fun c d hc hd hroot hmid hleaf => lpmLookup_example hc hd hroot hmid hleaf, fun i f hf hc hsa hd => ?_, fun i f hf hc => ?_,
    fun i f pol hf hkey hpol => ?_, fun bits flow f h => excChoice_of_none h, fun bits flow f e he hb hp => ?_,
    fun bits flow f e he hb hp hno => ?_⟩
  · subst hf
    unfold parseStages
    dsimp only
    rw [hp]
  · subst hf hg ht
    unfold parseStages
    dsimp only
    rw [hp]
    dsimp only
    rw [hc]
  · subst hf hg ht hh
    unfold parseStages
    dsimp only
    rw [hp]
    dsimp only
    rw [hc]
  · exact (congrArg _ (List.append_nil before).symm).trans (testRules_passed hb [])
  · subst hr
    exact storeLookup_of_to h
  · subst hr
    exact storeLookup_of_drop h
  · exact destLookup_of_none ((l2Seen_of_on hon).trans hn)
  · subst he
    rw [destLookup_of_entry ((l2Seen_of_on hon).trans hfind)]
    refine ⟨fun hd => ?_, fun hd hk => ?_, fun hd hk => ?_, fun h hd hk hh => ?_, fun hd hk hh => ?_⟩
    · rw [if_pos hd]
    · rw [hd, if_neg Bool.false_ne_true, if_pos hk]
    · rw [hd, if_neg Bool.false_ne_true, if_neg (by omega), if_pos hk]
    · rw [hd, if_neg Bool.false_ne_true, if_neg (by omega), if_neg (by omega), hh]
    · rw [hd, if_neg Bool.false_ne_true, if_neg (by omega), if_neg (by omega), hh]
  · exact destLookup_of_none (l2Seen_of_off hoff)
  · rw [routeLookup_eq ha hon hr ht, hn]
  · rw [routeLookup_eq ha hon hr ht, hx]
    refine ⟨fun hb => ?_, fun hb hv => ?_, fun hb hv => ?_⟩
    · simp only [hb, Bool.false_eq_true, if_false]
    · simp only [hb, hv, if_true]
    · simp only [hb, hv, if_true, Bool.false_eq_true, if_false]
  · subst he
    refine ⟨nextHopRead_invalid, nextHopRead_live, fun x hv hr ht hx => ?_⟩
    rw [nextHopRead_expired hv hr ht hx]
    refine ⟨fun h => by rw [if_pos h], fun h => by rw [if_neg (by omega)]⟩
  · subst hroot
    cases v6 <;> rfl
  · refine ⟨lpmWalk_of_leaf, lpmWalk_of_deep, lpmWalk_of_outside, fun w x hh hp hw hin hx => ?_⟩
    subst hw hx
    exact lpmWalk_of_child hh hp hin
  · subst hf
    rw [afterLookups_of_complete hc hsa hd]
    refine ⟨fun ha => if_pos ha, fun ha hm => ?_⟩
    rw [ha, if_neg Bool.false_ne_true, meterAndDecide_of_unmetered hm]
  · subst hf
    rw [afterLookups_of_partial hc]
    refine ⟨fun ha => if_pos ha, fun ha hm => ?_, fun ha hd hm => ?_⟩
    · rw [ha, if_neg Bool.false_ne_true, if_pos hm]
    · rw [ha, if_neg Bool.false_ne_true, hd, hm, if_neg (by decide)]
  · subst hf
    rw [decideFrame_of_key hkey hpol]
    refine ⟨fun h1 => if_pos h1, fun h1 h2 => ?_, fun h0 hh => ⟨fun hr => ?_, fun hr hprog => ?_, fun hr hprog => ?_⟩⟩
    · rw [if_neg h1, if_pos h2]
    · rw [h0, hh, if_neg (by decide), if_neg (by decide), if_pos hr]
    · rw [h0, hh, hr, if_neg (by decide), if_neg (by decide), if_neg (by decide), if_neg (fun hn => hn hprog)]
    · rw [h0, hh, hr, if_neg (by decide), if_neg (by decide), if_neg (by decide), if_pos hprog]
  · rw [excChoice_eq, if_pos (mem_policies.2 ⟨e, he, hb, hp⟩)]
  · rw [excChoice_eq, if_neg, if_pos (mem_policies.2 ⟨e, he, hb, hp⟩)]
    intro hc
    obtain ⟨x, hx, hbx, hpx⟩ := mem_policies.1 hc
    exact hno x hx hbx hpx

end Sys2Proof.Machine
end

section
/-! PROOFS. Records from offer to ring and to flash (chapter 20). -/

namespace Sys2Proof.Machine

/-! ### Limiter buckets (R566) -/

theorem tokensUsed_congr {s t : State} (key : Nat) (hu : t.tmk.used = s.tmk.used) (ha : t.tmk.usedAt = s.tmk.usedAt)
    (ho : t.tmk.opTime = s.tmk.opTime) (hl : t.fab.live = s.fab.live) : tokensUsed key t = tokensUsed key s := by
  unfold tokensUsed tokensGained bucketPeriod cf cfX liveReg
  rw [hu, ha, ho, hl]

/-- A bucket just written misses what was written. -/
theorem tokensUsed_putUsed (key n : Nat) (s : State) : tokensUsed key (putUsed key n s) = n := by
  have hperiod : bucketPeriod key (putUsed key n s) = bucketPeriod key s := rfl
  have hgained : tokensGained key (putUsed key n s) = 0 := by
    unfold tokensGained
    rw [hperiod]
    have hop : (putUsed key n s).tmk.opTime = s.tmk.opTime := rfl
    have hat : sget (fun _ => 0) (putUsed key n s).tmk.usedAt key =
        if tokensUsed key s = 0 then s.tmk.opTime else sget (fun _ => 0) s.tmk.usedAt key + tokensGained key s * bucketPeriod key s :=
      sget_sset_same _ _ _ _
    rw [hop, hat]
    split
    · rw [Nat.sub_self, Nat.zero_div]
    · unfold tokensGained
      generalize s.tmk.opTime = now
      generalize sget (fun _ => 0) s.tmk.usedAt key = since
      rcases Nat.eq_zero_or_pos (bucketPeriod key s) with hp | hp
      · rw [hp, Nat.div_zero]
      · have hmod := Nat.mod_lt (now - since) hp
        have hdiv := Nat.div_add_mod (now - since) (bucketPeriod key s)
        have hle : (now - since) / bucketPeriod key s * bucketPeriod key s ≤ now - since := Nat.div_mul_le_self _ _
        rw [Nat.mul_comm] at hdiv
        exact Nat.div_eq_of_lt (by omega)
  have hused : sget (fun _ => 0) (putUsed key n s).tmk.used key = n := sget_sset_same _ _ _ _
  unfold tokensUsed
  rw [hgained, hused, Nat.sub_zero]

theorem tokensUsed_enterFifo (key : Nat) (r : Rec) (s : State) : tokensUsed key (enterFifo r s).1 = tokensUsed key s := by
  unfold enterFifo
  dsimp only
  split
  · exact tokensUsed_congr key rfl rfl rfl rfl
  · exact tokensUsed_congr key rfl rfl rfl rfl

theorem offerRec_within_burst {r : Rec} {s : State} (hl : limitedCode r.code = true)
    (hb : tokensUsed (bucketOf r.code) s < bucketBurst (bucketOf r.code) s) :
    (offerRec r s).state = (enterFifo r (putUsed (bucketOf r.code) (tokensUsed (bucketOf r.code) s + 1) s)).1 := by
  unfold offerRec
  rw [if_pos hl]
  dsimp only
  rw [if_neg (Nat.not_le.2 hb)]

/-! ### The ring (R567 to R569) -/

theorem getD_slotWords {d : Nat → Word} {m : Sparse Word} {slot i : Nat} (h : i < 16) : (slotWords d m slot).getD i 0 = sget d m (16 * slot + i) := by
  have hi : i < (slotWords d m slot).length := by simpa [slotWords] using h
  rw [List.getD_eq_getElem _ _ hi]
  simp [slotWords]

/-- The slot's old record is not one that waits for flash. -/
theorem flushLostCheck_of_other {s : State} (h : sget ringDefault s.tmk.ring (16 * (s.tmk.seqNext % 4096) + 15) ≠
    BitVec.ofNat 32 ((s.tmk.seqNext + 2 ^ 32 - 4096) % 2 ^ 32)) : flushLostCheck s = s := by
  unfold flushLostCheck
  dsimp only
  rw [if_neg]
  rintro ⟨h15, -⟩
  rw [getD_slotWords (by decide)] at h15
  exact h h15

theorem fwdLostCheck_of_live {s : State} (h : rd tieMeshStatus_roleLive s = 3) : fwdLostCheck s = s := by
  unfold fwdLostCheck
  dsimp only
  rw [h, if_neg]
  rintro ⟨hr, -⟩
  omega

theorem placeFreed_of_none {s : State} (h : s.tmk.lostN = 0) : placeFreed s = s := if_pos h

theorem exec_ringWrite_of_staged {s : State} {r : Rec} {rest : List Rec} (hf : s.tmk.fifo = r :: rest) (hg : s.tmk.globalUsed < 400) :
    exec .ringWrite s = .next (ringWrite r rest s) := by
  show Host.Outcome.next (match s.tmk.fifo with | [] => s | r :: rest => if s.tmk.globalUsed < 400 then ringWrite r rest s else s) = _
  rw [hf]
  exact congrArg _ (if_pos hg)

theorem ringWrite_eq {s : State} {r : Rec} {rest : List Rec} (hf : s.tmk.fifo = r :: rest) (hn : s.tmk.lostN = 0)
    (hrole : rd tieMeshStatus_roleLive s = 3)
    (hold : sget ringDefault s.tmk.ring (16 * (s.tmk.seqNext % 4096) + 15) ≠ BitVec.ofNat 32 ((s.tmk.seqNext + 2 ^ 32 - 4096) % 2 ^ 32))
    (u : State) (hu : u = satX tmkStat_count 0 0 1 { s with tmk := { s.tmk with
        fifo := rest
        globalUsed := s.tmk.globalUsed + 1
        ring := putWords ringDefault s.tmk.ring (16 * (s.tmk.seqNext % 4096)) (wordsOf 16 (recBytes s.tmk.seqNext r))
        seqNext := (s.tmk.seqNext + 1) % 2 ^ 32 } }) :
    ringWrite r rest s = if r.code = 1 then raise tmkLostRecords u else u := by
  have hfifo : rest ++ s.tmk.fifo.drop (rest.length + 1) = rest := by
    rw [hf, List.drop_succ_cons, List.drop_length, List.append_nil]
  have hrole' : rd tieMeshStatus_roleLive u = 3 := by
    rw [hu]
    exact (rdX_wrX_other _ _ (by decide)).trans hrole
  have hplace : placeFreed u = u := placeFreed_of_none (by rw [hu]; exact hn)
  unfold ringWrite
  rw [flushLostCheck_of_other hold, fwdLostCheck_of_live hrole]
  dsimp only
  rw [hfifo, ← hu, hplace, hrole', if_neg (by decide : ¬ (3 : Nat) = 1)]

/-! ### Software records (R570) -/

theorem wrCtlWrite_of_refused {w : Window} {v : Word} {s : State} (hv : wordField v 0 1 = 1)
    (h : wrRefused w (rdC tmkWrHdr_code (winIdx w) s) (rdC tmkWrHdr_severity (winIdx w) s) = true) :
    wrCtlWrite w v s = wrC tmkWrCtl_result (winIdx w) 3 s := by
  unfold wrCtlWrite
  dsimp only
  rw [if_neg (by omega), if_pos h]

/-- The record that the window's WR registers name. -/
def softRec (w : Window) (s : State) : Rec :=
  { code := rdC tmkWrHdr_code (winIdx w) s
    flags := rdC tmkWrHdr_severity (winIdx w) s + (if w = .h then 128 else 0)
    block := rdC tmkWrHdr_block (winIdx w) s
    chan := rdC tmkWrChan_channel (winIdx w) s + 1024 * rdC tmkWrChan_whole (winIdx w) s
    payload := (List.range 4).foldl (fun a i => a ++ bytesLE 4 (rdX tmkWrPayload_payload i (winIdx w) s)) [] }

/-- An offer's result shown, and its source raised. -/
def resultShown (w : Window) (o : OfferResult) : State :=
  if o.emptied then raise tmkSuppressing (wrC tmkWrCtl_result (winIdx w) o.result o.state) else wrC tmkWrCtl_result (winIdx w) o.result o.state

theorem wrCtlWrite_of_allowed {w : Window} {v : Word} {s : State} (hv : wordField v 0 1 = 1)
    (h : wrRefused w (rdC tmkWrHdr_code (winIdx w) s) (rdC tmkWrHdr_severity (winIdx w) s) = false) :
    wrCtlWrite w v s = resultShown w (offerRec (softRec w s) s) := by
  unfold wrCtlWrite resultShown softRec
  dsimp only
  rw [if_neg (by omega), if_neg (by rw [h]; decide)]
  cases w <;> simp only [reduceCtorEq, if_true, if_false]

theorem wordField_or_one (v : Word) : wordField (v ||| 1) 0 1 = 1 := by
  rw [wordField_one_eq_one]
  simp

theorem resultKey_stat (w : Window) : ¬ StatKey (keyOfField tmkWrCtl_result 0 (winIdx w)) := by
  cases w with
  | h => decide
  | b => decide
  | hm _ _ => exact (by decide : ¬ StatKey (keyOfField tmkWrCtl_result 0 2))

/-- Settles O24: the buckets by `tokensUsed_putUsed`, the ring by `ringWrite_eq`, software records by `wrCtlWrite_of_allowed`. -/
theorem recordsGoFromOfferToRing : Obligations.RecordsGoFromOfferToRing := by
  unfold Obligations.RecordsGoFromOfferToRing
  intro s
  refine ⟨fun r rest hf hg hn hrole hold => ?_, rfl, fun hr hfu => ?_, fun hr => ?_, fun hh => ⟨_, ?_, rfl, writeRec_onlyEvents _ _ _ _ _ _⟩,
    fun hh => ?_, fun key n => ⟨tokensUsed_putUsed key n s, rfl⟩, fun r hl hb => ?_, fun code h3 hlt => ⟨fun h => ?_, fun e o hu hs he ho => ?_⟩,
    fun w v ha hrf => ?_, fun w v ha hrf => ⟨resultShown w (offerRec (softRec w s) s), ?_, ?_, ?_⟩⟩
  · rw [exec_ringWrite_of_staged hf hg]
    exact congrArg _ (ringWrite_eq hf hn hrole hold _ rfl)
  · refine congrArg _ ((onlyIf_of_true (decide_eq_true hr) _ _).trans ?_)
    unfold opTimeTick fuseTick
    dsimp only
    rw [hfu]
  · exact congrArg _ (onlyIf_of_false (decide_eq_false hr) _ _)
  · exact congrArg _ (onlyIf_of_true (decide_eq_true hh) _ _)
  · exact congrArg _ (onlyIf_of_false (decide_eq_false hh) _ _)
  · rw [offerRec_within_burst hl hb, tokensUsed_enterFifo, tokensUsed_putUsed]
  · exact (guarded_of_true (decide_eq_true ⟨h3, hlt⟩) _).trans (congrArg _ (if_pos h))
  · refine (guarded_of_true (decide_eq_true ⟨h3, hlt⟩) _).trans (congrArg _ ?_)
    subst ho
    unfold bucketRefill
    rw [if_neg (fun hn => hn.elim (fun h => h hu) hs), he]
  · exact congrArg _ ((writing_of_admits ha _).trans (wrCtlWrite_of_refused (wordField_or_one v) hrf))
  · exact congrArg _ ((writing_of_admits ha _).trans (wrCtlWrite_of_allowed (wordField_or_one v) hrf))
  · have hwr := (OnlyEvents.changes (offerRec_onlyEvents (softRec w s) s)).trans
      (wrC_changes (ks := [keyOfField tmkWrCtl_result 0 (winIdx w)]) (cs := []) tmkWrCtl_result (winIdx w) (offerRec (softRec w s) s).result _ List.mem_cons_self)
    unfold resultShown
    split
    · exact hwr.events (raise_onlyEvents _ _)
    · exact hwr
  · have hwr := rdC_wrC_same tmkWrCtl_result (winIdx w) (offerRec (softRec w s) s).result (offerRec (softRec w s) s).state (by decide)
    unfold resultShown
    split
    · exact (rdX_raise _ _ (resultKey_stat w)).trans hwr
    · exact hwr

/-! ### The flash log (R572 to R575) -/

theorem exec_flushRecord_of_may {s : State} {o : FlushOutcome} (hr : s.pwr.railLow = 0) (hh : s.pwr.hold = .none) :
    exec (.flushRecord o) s = .next (flushRecord o s) :=
  congrArg _ (onlyIf_of_true (decide_eq_true ⟨hr, hh⟩) _ _)

theorem exec_flushRecord_of_mayNot {s : State} {o : FlushOutcome} (h : ¬ (s.pwr.railLow = 0 ∧ s.pwr.hold = .none)) :
    exec (.flushRecord o) s = .next s :=
  congrArg _ (onlyIf_of_false (decide_eq_false h) _ _)

theorem flushRecord_of_nothing {s : State} {o : FlushOutcome}
    (h : seqDiff s.tmk.seqNext ((s.tmk.flushSeq + 1) % 2 ^ 32) ≤ 0 ∨ s.tmk.noFlash = true) : flushRecord o s = s := if_pos h

theorem flushRecord_of_next {s : State} {o : FlushOutcome} {seq : Nat} (hf : s.tmk.noFlash = false) (hs : seq = (s.tmk.flushSeq + 1) % 2 ^ 32)
    (hd : 0 < seqDiff s.tmk.seqNext seq) :
    flushRecord o s =
      if recComplete (slotWords ringDefault s.tmk.ring (seq % 4096)) = true ∧
          (slotWords ringDefault s.tmk.ring (seq % 4096)).getD 0 0 = BitVec.ofNat 32 seq then
        (match o with
         | .done => flushGood seq (slotWords ringDefault s.tmk.ring (seq % 4096)) true s
         | .eraseFailed => flushGood seq (slotWords ringDefault s.tmk.ring (seq % 4096)) false s
         | .writeFailed => flushFailed s)
      else { s with tmk := { s.tmk with flushSeq := seq } } := by
  have hgo : ¬ (seqDiff s.tmk.seqNext seq ≤ 0 ∨ s.tmk.noFlash = true) := by
    rw [hf]
    rintro (h | h)
    · omega
    · cases h
  unfold flushRecord
  dsimp only
  rw [← hs, if_neg hgo] <;> rfl

theorem flushGood_plain {seq : Nat} {ws : List Word} {erased : Bool} {s : State} (h : s.tmk.flashPos % 1024 ≠ 512) :
    flushGood seq ws erased s = flushWrite seq ws s := if_pos h

theorem flushGood_erased {seq : Nat} {ws : List Word} {s : State} (h : s.tmk.flashPos % 1024 = 512) :
    flushGood seq ws true s = eraseNext (s.tmk.flashPos / 1024) (flushWrite seq ws s) := by
  unfold flushGood
  dsimp only
  rw [if_neg (fun hn => hn h), if_pos rfl]

/-- The log after a record is written at slot 512 and sector `lost` fails its erase. -/
def eraseLost (seq lost : Nat) (ws : List Word) (s : State) : State :=
  let bad := if s.tmk.badSectors.contains lost then s.tmk.badSectors else s.tmk.badSectors ++ [lost]
  { s with tmk := { s.tmk with
    flash := eraseSector (nextSector bad (s.tmk.flashPos / 1024)) (putWords flashDefault
      (putWords flashDefault s.tmk.flash (16 * s.tmk.flashPos) ws) (16384 * lost) (List.replicate 16 0))
    badSectors := bad
    flashPos := nextSlot s.tmk.badSectors s.tmk.flashPos
    flushSeq := seq } }

theorem rd_eraseLost (f : Fld) (seq lost : Nat) (ws : List Word) (s : State) : rd f (eraseLost seq lost ws s) = rd f s :=
  rd_congr rfl

theorem flushGood_failed {seq : Nat} {ws : List Word} {s : State} (h : s.tmk.flashPos % 1024 = 512) :
    flushGood seq ws false s = noteBad (nextSector s.tmk.badSectors (s.tmk.flashPos / 1024))
      (eraseLost seq (nextSector s.tmk.badSectors (s.tmk.flashPos / 1024)) ws s) := by
  unfold flushGood
  dsimp only
  rw [if_neg (fun hn => hn h), if_neg (by decide)]
  simp only [eraseNext, failSector, flushWrite, eraseLost]
  rfl

/-- The log after a record's write fails: its sector is bad, and the log goes on in the next. -/
def writeLost (s : State) : State :=
  let sec := s.tmk.flashPos / 1024
  let bad := if s.tmk.badSectors.contains sec then s.tmk.badSectors else s.tmk.badSectors ++ [sec]
  { s with tmk := { s.tmk with
    flash := eraseSector (nextSector bad sec) (putWords flashDefault s.tmk.flash (16384 * sec) (List.replicate 16 0))
    badSectors := bad
    flashPos := nextSector bad sec * 1024 } }

theorem rd_writeLost (f : Fld) (s : State) : rd f (writeLost s) = rd f s := rd_congr rfl

theorem flushFailed_eq (s : State) : flushFailed s = noteBad (s.tmk.flashPos / 1024) (writeLost s) := by
  simp only [flushFailed, eraseNext, failSector, writeLost]

/-- The report of a bad sector. -/
theorem noteBad_spec (sec : Nat) (s : State) :
    Asserted tmkFlashError (noteBad sec s) ∧
    rd tmkFlashReport_badSectors (noteBad sec s) = satAdd (rd tmkFlashReport_badSectors s) 1 (2 ^ tmkFlashReport_badSectors.w - 1) ∧
    Changes [keyOfField tmkFlashReport_badSectors 0 0] [] s (noteBad sec s) := by
  have hrec := writeRec_onlyEvents 0xD 2 0x38 (recChan none) (bytesLE 1 sec) s
  have hkept : rd tmkFlashReport_badSectors (writeRec 0xD 2 0x38 (recChan none) (bytesLE 1 sec) s) = rd tmkFlashReport_badSectors s :=
    hrec.rdX (by decide)
  unfold noteBad reportBad
  refine ⟨raise_asserted _ (by decide), ?_, ?_⟩
  · rw [rd_raise _ _ (by decide), ← hkept]
    exact rd_sat1_same (by decide)
  · exact ((OnlyEvents.changes hrec).trans (satX_changes _ _ _ _ _ List.mem_cons_self)).events (raise_onlyEvents _ _)

/-- Settles O25: which of the three outcomes a flush takes, and `noteBad_spec` for a bad sector. -/
theorem ringRecordsReachFlash : Obligations.RingRecordsReachFlash := by
  unfold Obligations.RingRecordsReachFlash
  intro s
  refine ⟨fun h o => ?_, fun seq ws hr hh hf hseq hws hd hc h0 => ?_, fun o hd => ?_, fun o seq ws hr hh hf hseq hws hd hno => ?_,
    fun w v hw ha => ⟨fun hv => ?_, fun hv => ?_, ?_⟩, fun v ha => ⟨?_, ?_⟩⟩
  · by_cases hmay : s.pwr.railLow = 0 ∧ s.pwr.hold = .none
    · obtain ⟨hr, hh⟩ := hmay
      rw [exec_flushRecord_of_may hr hh]
      exact congrArg _ (flushRecord_of_nothing (Or.inr ((h.resolve_left (fun hn => hn hr)).resolve_left (fun hn => hn hh))))
    · exact exec_flushRecord_of_mayNot hmay
  · have hexec : ∀ o, exec (.flushRecord o) s = .next (match o with
        | .done => flushGood seq ws true s
        | .eraseFailed => flushGood seq ws false s
        | .writeFailed => flushFailed s) := fun o => by
      rw [exec_flushRecord_of_may hr hh, flushRecord_of_next hf hseq hd, ← hws, if_pos ⟨hc, h0⟩]
    refine ⟨?_, fun hp => ?_, fun lost bad hp hlost hbad => ?_, ?_⟩
    · rw [hexec]
      by_cases hp : s.tmk.flashPos % 1024 = 512
      · rw [if_pos hp]
        exact congrArg _ (flushGood_erased hp)
      · rw [if_neg hp]
        exact congrArg _ (flushGood_plain hp)
    · rw [hexec, hexec]
      exact congrArg _ ((flushGood_plain hp).trans (flushGood_plain hp).symm)
    · subst hlost hbad
      refine ⟨_, (hexec .eraseFailed).trans (congrArg _ (flushGood_failed hp)), ?_⟩
      obtain ⟨has, hrd, hch⟩ := noteBad_spec (nextSector s.tmk.badSectors (s.tmk.flashPos / 1024))
        (eraseLost seq (nextSector s.tmk.badSectors (s.tmk.flashPos / 1024)) ws s)
      exact ⟨has, hrd.trans (by rw [rd_eraseLost]), hch⟩
    · obtain ⟨has, hrd, hch⟩ := noteBad_spec (s.tmk.flashPos / 1024) (writeLost s)
      exact ⟨_, _, (hexec .writeFailed).trans (congrArg _ (flushFailed_eq s)), rfl, has, hch, hrd.trans (by rw [rd_writeLost])⟩
  · by_cases hmay : s.pwr.railLow = 0 ∧ s.pwr.hold = .none
    · obtain ⟨hr, hh⟩ := hmay
      rw [exec_flushRecord_of_may hr hh]
      exact congrArg _ (flushRecord_of_nothing (Or.inl hd))
    · exact exec_flushRecord_of_mayNot hmay
  · rw [exec_flushRecord_of_may hr hh, flushRecord_of_next hf hseq hd, ← hws, if_neg hno]
  · refine congrArg _ ((writing_of_admits ha _).trans ?_)
    cases w with
    | h => exact absurd rfl hw
    | b => exact onlyIf_of_true (decide_eq_true hv) _ _
    | hm _ _ => exact onlyIf_of_true (decide_eq_true hv) _ _
  · refine congrArg _ ((writing_of_admits ha _).trans ?_)
    have hv' : decide (wordField v 8 1 = 1) = false := decide_eq_false (by omega)
    cases w with
    | h => exact absurd rfl hw
    | b => exact onlyIf_of_false hv' _ _
    | hm _ _ => exact onlyIf_of_false hv' _ _
  · refine congrArg _ ((writing_of_admits ha _).trans ?_)
    cases w with
    | h => exact absurd rfl hw
    | b => rfl
    | hm _ _ => rfl
  · exact congrArg _ (writing_of_admits ha _)
  · exact congrArg _ (writing_of_admits ha _)

end Sys2Proof.Machine
end

section
/-! PROOFS. Performance counters and histograms (R578 to R583). -/

namespace Sys2Proof.Machine

/-! ### The selected counter (R579) -/

theorem wordField_or_one_above (v : Word) : wordField (v ||| 1) 1 1 = wordField v 1 1 := by
  have h (x : Word) : wordField x 1 1 = b2n (x.getLsbD 1) := by
    have h1 : wordField x 1 1 = 1 ↔ x.getLsbD 1 = true := wordField_one_eq_one
    have hlt : wordField x 1 1 < 2 := wordField_lt x 1 1
    cases hx : x.getLsbD 1
    · have hne : wordField x 1 1 ≠ 1 := fun he => by rw [h1.1 he] at hx; cases hx
      simp only [b2n, Bool.false_eq_true, if_false]
      omega
    · rw [h1.2 hx]
      rfl
  rw [h, h]
  simp

theorem wordField_or_two (v : Word) : wordField (v ||| 2) 1 1 = 1 := by
  rw [wordField_one_eq_one]
  simp

theorem cntCtlWrite_set (w : Window) (v : Word) (s : State) :
    cntCtlWrite w (v ||| 1) s =
      if wordField v 1 1 = 1 then putCtr (pcnKey (rdC pcnCntSel_counter (winIdx w) s)) 0
        (putCtr (pcnKey (rdC pcnCntSel_counter (winIdx w) s)) (rdC pcnSetLo_value (winIdx w) s + 2 ^ 32 * rdC pcnSetHi_value (winIdx w) s) s)
      else putCtr (pcnKey (rdC pcnCntSel_counter (winIdx w) s)) (rdC pcnSetLo_value (winIdx w) s + 2 ^ 32 * rdC pcnSetHi_value (winIdx w) s) s := by
  unfold cntCtlWrite
  dsimp only
  rw [wordField_or_one, wordField_or_one_above, if_pos rfl]

theorem sget_putCtr_same (k v : Nat) (s : State) : sget (fun _ => 0) (putCtr k v s).fab.counters k = v := sget_sset_same _ _ _ _

/-- A written clear ends at zero, whatever set did before it. -/
theorem cntCtlWrite_clear (w : Window) (v : Word) (s : State) :
    sget (fun _ => 0) (cntCtlWrite w (v ||| 2) s).fab.counters (pcnKey (rdC pcnCntSel_counter (winIdx w) s)) = 0 ∧
      Changes [] [pcnKey (rdC pcnCntSel_counter (winIdx w) s)] s (cntCtlWrite w (v ||| 2) s) := by
  unfold cntCtlWrite
  dsimp only
  rw [wordField_or_two, if_pos rfl]
  refine ⟨sget_putCtr_same _ _ _, Changes.trans ?_ (putCtr_changes _ _ _ List.mem_cons_self)⟩
  split
  · exact putCtr_changes _ _ _ List.mem_cons_self
  · exact Changes.refl s

/-! ### The freeze banks (R580) -/

theorem winIdx_lt (w : Window) : winIdx w < 4 := by
  cases w with
  | h => decide
  | b => decide
  | hm _ _ => exact (by decide : 2 < 4)

theorem pcnKey_eq (i : Nat) : pcnKey i = i * 0x40000 + 0x39088 := rfl

/-- What a freeze bank holds of a store: the entries of PCN's own counters, by number. -/
def pcnEntries {α : Type} (m : Sparse α) : List (Nat × α) :=
  (m.filter (fun (e : Nat × α) => e.1 % 0x40000 == 0x39088)).map (fun (e : Nat × α) => (e.1 / 0x40000, e.2))

theorem pcnEntries_cons {α : Type} (e : Nat × α) (m : Sparse α) :
    pcnEntries (e :: m) = if e.1 % 0x40000 = 0x39088 then (e.1 / 0x40000, e.2) :: pcnEntries m else pcnEntries m := by
  unfold pcnEntries
  rw [List.filter_cons]
  by_cases h : e.1 % 0x40000 = 0x39088
  · rw [if_pos (beq_iff_eq.2 h), if_pos h, List.map_cons]
  · rw [if_neg (fun hb => h (beq_iff_eq.1 hb)), if_neg h]

theorem sget_refill_same {α : Type} {c : Nat} (hc : c < 4) (x : α) (m base : Sparse α) (i : Nat) :
    sget (fun _ => x) (refill c (pcnEntries m) base) (4 * i + c) = sget (fun _ => x) m (pcnKey i) := by
  induction m with
  | nil =>
    have hmod : (4 * i + c) % 4 = c := by omega
    show sget (fun _ => x) (sfilter (fun k => k % 4 != c) base) (4 * i + c) = x
    rw [sget_sfilter, hmod, if_neg (by simp)]
  | cons e m ih =>
    obtain ⟨k, y⟩ := e
    have hkey := pcnKey_eq i
    rw [pcnEntries_cons]
    dsimp only
    by_cases hk : k % 0x40000 = 0x39088
    · rw [if_pos hk]
      show sget (fun _ => x) (sput (refill c (pcnEntries m) base) (4 * (k / 0x40000) + c) y) (4 * i + c) = _
      by_cases he : k = pcnKey i
      · have hi : k / 0x40000 = i := by omega
        rw [hi, sget_sput_same, he]
        simp [sget]
      · rw [sget_sput_other _ _ _ (by omega), ih]
        simp only [sget, if_neg he]
    · rw [if_neg hk, ih]
      have he : k ≠ pcnKey i := by omega
      simp only [sget, if_neg he]

theorem sget_refill_other {α : Type} {c d : Nat} (hd : d < 4) (hne : d ≠ c) (hc : c < 4) (x : α) (new : List (Nat × α)) (base : Sparse α) (i : Nat) :
    sget (fun _ => x) (refill c new base) (4 * i + d) = sget (fun _ => x) base (4 * i + d) := by
  induction new with
  | nil =>
    have hmod : (4 * i + d) % 4 = d := by omega
    show sget (fun _ => x) (sfilter (fun k => k % 4 != c) base) (4 * i + d) = _
    rw [sget_sfilter, hmod, if_pos (by simpa using hne)]
  | cons e new ih =>
    show sget (fun _ => x) (sput (refill c new base) (4 * e.1 + c) e.2) (4 * i + d) = _
    rw [sget_sput_other _ _ _ (by omega), ih]

/-- Every counter and wrap bit in the window's freeze bank. -/
def frozen (w : Window) (s : State) : State :=
  { s with pcn := { s.pcn with
    frozen := refill (winIdx w) (pcnEntries s.fab.counters) s.pcn.frozen
    frozenWrap := refill (winIdx w) (pcnEntries s.fab.wraps) s.pcn.frozenWrap } }

theorem freezeWrite_go {w : Window} {v : Word} {s : State} (h : wordField v 0 1 = 1) :
    freezeWrite w v s = frozen w s := by
  unfold freezeWrite
  rw [if_neg (by omega)]
  rfl

theorem histSnapWrite_go {w : Window} {v : Word} {s : State} (h : wordField v 0 1 = 1) :
    histSnapWrite w v s = { s with pcn := { s.pcn with
      snaps := sset histDefault s.pcn.snaps (winIdx w) (sget histDefault s.pcn.hists (rdC pcnHistSel_hist (winIdx w) s))
      snapValid := sset (fun _ => false) s.pcn.snapValid (winIdx w) true
      snapOf := sset zeroDefault s.pcn.snapOf (winIdx w) (rdC pcnHistSel_hist (winIdx w) s)
      hists := if wordField v 1 1 = 1
        then sset histDefault s.pcn.hists (rdC pcnHistSel_hist (winIdx w) s)
          { wrap := (sget histDefault s.pcn.hists (rdC pcnHistSel_hist (winIdx w) s)).wrap }
        else s.pcn.hists } } := by
  unfold histSnapWrite
  rw [if_neg (by omega)]

/-! ### The millisecond sample (R578) -/

theorem mem_of_sget {α : Type} {d : Nat → α} {m : Sparse α} {k : Nat} (h : sget d m k ≠ d k) : (k, sget d m k) ∈ m := by
  induction m with
  | nil => exact absurd rfl h
  | cons e m ih =>
    obtain ⟨j, x⟩ := e
    unfold sget at h ⊢
    by_cases hj : j = k
    · rw [if_pos hj, hj]
      exact List.mem_cons_self
    · rw [if_neg hj] at h ⊢
      exact List.mem_cons_of_mem _ (ih h)

theorem cntCfg_reset (i : Nat) : regReset (rkey pcnCntCfg_mode.off i) = regReset (rkey pcnCntCfg_mode.off 0) := by
  have hmod : rkey pcnCntCfg_mode.off i % 0x40000 = 0x39084 := by
    have hoff : pcnCntCfg_mode.off = 0x39084 := rfl
    unfold rkey
    omega
  have hnat : ∀ j, resetNat 0x39084 j = resetNat 0x39084 0 := fun j => rfl
  unfold regReset
  rw [hmod, hnat]
  rfl

/-- A counter in level mode is one of the counters that the sample adds to. -/
theorem levelCounters_of_mode {i : Nat} {s : State} (h : cfC pcnCntCfg_mode i s = 4) : (i, cfC pcnCntCfg_src i s) ∈ levelCounters s := by
  have hmem : (rkey pcnCntCfg_mode.off i, sget regReset s.fab.live (rkey pcnCntCfg_mode.off i)) ∈ s.fab.live := by
    refine mem_of_sget (fun he => ?_)
    have hreset : wordField (regReset (rkey pcnCntCfg_mode.off i)) 0 3 = 4 := he ▸ h
    rw [cntCfg_reset] at hreset
    revert hreset
    decide
  have hoff : pcnCntCfg_mode.off = 0x39084 := rfl
  refine List.mem_map.2 ⟨_, List.mem_filter.2 ⟨hmem, ?_⟩, ?_⟩
  · rw [Bool.and_eq_true]
    exact ⟨decide_eq_true (by unfold rkey; omega), decide_eq_true h⟩
  · have hdiv : rkey pcnCntCfg_mode.off i / 0x40000 = i := by unfold rkey; omega
    dsimp only
    rw [hdiv]
    rfl

/-- The counters after amounts are added to those that a list names. -/
def ctrsAdded (amount : Nat × Nat → Nat) (l : List (Nat × Nat)) (m : Sparse Nat) : Sparse Nat :=
  l.foldl (fun m e => sset (fun _ => 0) m (pcnKey e.1) (sget (fun _ => 0) m (pcnKey e.1) + amount e)) m

/-- What a list adds to counter i. -/
def amountOf (amount : Nat × Nat → Nat) (l : List (Nat × Nat)) (i : Nat) : Nat := ((l.filter (fun e => e.1 == i)).map amount).sum

theorem pcnKey_inj {i j : Nat} (h : pcnKey i = pcnKey j) : i = j := by
  rw [pcnKey_eq, pcnKey_eq] at h
  omega

theorem amountOf_cons (amount : Nat × Nat → Nat) (e : Nat × Nat) (l : List (Nat × Nat)) (i : Nat) :
    amountOf amount (e :: l) i = (if e.1 = i then amount e else 0) + amountOf amount l i := by
  unfold amountOf
  rw [List.filter_cons]
  by_cases h : e.1 = i
  · rw [if_pos (beq_iff_eq.2 h), if_pos h, List.map_cons, List.sum_cons]
  · rw [if_neg (fun hb => h (beq_iff_eq.1 hb)), if_neg h, Nat.zero_add]

theorem sget_ctrsAdded (amount : Nat × Nat → Nat) (l : List (Nat × Nat)) (m : Sparse Nat) (i : Nat) :
    sget (fun _ => 0) (ctrsAdded amount l m) (pcnKey i) = sget (fun _ => 0) m (pcnKey i) + amountOf amount l i := by
  induction l generalizing m with
  | nil => rfl
  | cons e l ih =>
    refine (ih _).trans ?_
    rw [amountOf_cons, ← Nat.add_assoc]
    by_cases h : e.1 = i
    · rw [if_pos h, ← h, sget_sset_same]
    · rw [if_neg h, sget_sset_other _ _ _ (fun hk => h (pcnKey_inj hk).symm), Nat.add_zero]

theorem sget_ctrsAdded_other (amount : Nat × Nat → Nat) (l : List (Nat × Nat)) (m : Sparse Nat) {k : Nat} (h : ∀ i, k ≠ pcnKey i) :
    sget (fun _ => 0) (ctrsAdded amount l m) k = sget (fun _ => 0) m k := by
  induction l generalizing m with
  | nil => rfl
  | cons e l ih => exact (ih _).trans (sget_sset_other _ _ _ (h e.1))

theorem countPcn_of_off {i d : Nat} {s : State} (h : blockOn .pcn s = false) : countPcn i d s = s := by
  simp [countPcn, h]

theorem countPcn_of_room {i d : Nat} {s : State} (h : blockOn .pcn s = true) (hlt : sget (fun _ => 0) s.fab.counters (pcnKey i) + d < 2 ^ 64) :
    countPcn i d s = putCtr (pcnKey i) (sget (fun _ => 0) s.fab.counters (pcnKey i) + d) s := by
  simp only [countPcn, addCtr, h, hlt, if_true, Bool.false_eq_true, if_false]

theorem foldOver_countPcn_off {amount : Nat × Nat → Nat} {l : List (Nat × Nat)} {s : State} (h : blockOn .pcn s = false) :
    foldOver l (fun e a => countPcn e.1 (amount e) a) s = s := by
  induction l with
  | nil => rfl
  | cons e l ih => rw [foldOver_cons, countPcn_of_off h, ih]

theorem foldOver_countPcn {amount : Nat × Nat → Nat} {l : List (Nat × Nat)} {s : State} (h : blockOn .pcn s = true)
    (hroom : ∀ i, sget (fun _ => 0) s.fab.counters (pcnKey i) + amountOf amount l i < 2 ^ 64) :
    foldOver l (fun e a => countPcn e.1 (amount e) a) s = { s with fab := { s.fab with counters := ctrsAdded amount l s.fab.counters } } := by
  induction l generalizing s with
  | nil => rfl
  | cons e l ih =>
    have hfirst := hroom e.1
    rw [amountOf_cons, if_pos rfl] at hfirst
    rw [foldOver_cons, countPcn_of_room h (by omega), ih (by exact h)]
    · rfl
    · intro i
      have hi := hroom i
      rw [amountOf_cons] at hi
      show sget (fun _ => 0) (sset (fun _ => 0) s.fab.counters (pcnKey e.1) _) (pcnKey i) + _ < _
      by_cases he : e.1 = i
      · rw [if_pos he] at hi
        rw [he, sget_sset_same]
        omega
      · rw [if_neg he] at hi
        rw [sget_sset_other _ _ _ (fun hk => he (pcnKey_inj hk).symm)]
        omega

theorem loadKey_ne {c d : Nat} (h : d ≠ c) : keyOfField dspLoad_busy 0 d ≠ keyOfField dspLoad_busy 0 c := by
  unfold keyOfField rkey
  omega

/-- What DSP.LOAD shows of cluster c's millisecond. -/
structure LoadShown (c : Nat) (s t : State) : Prop where
  busy : rdC dspLoad_busy c t = min 1023 (sget zeroDefault s.dsp.busyNow c * 1024 / clusterCyclesMs)
  items : rdC dspLoad_itemsK c t = min 65535 (sget zeroDefault s.dsp.endedNow c / 1000)

theorem sampleLoad_shown (c : Nat) (s : State) : LoadShown c s (sampleLoad c s) := by
  unfold sampleLoad
  refine ⟨rdC_wrC_fits (by decide) (Nat.lt_of_le_of_lt (Nat.min_le_left _ _) (by decide)), ?_⟩
  rw [rdC_wrC_bits _ _ (by decide), rdC_wrC_fits (by decide) (Nat.lt_of_le_of_lt (Nat.min_le_left _ _) (by decide))]

theorem sampleLoad_regs {c k : Nat} (s : State) (h : k ≠ keyOfField dspLoad_busy 0 c) :
    sget regReset (sampleLoad c s).fab.regs k = sget regReset s.fab.regs k :=
  (sget_sset_other regReset _ _ h).trans (sget_sset_other regReset _ _ h)

theorem sampleLoads_eq (l : List Nat) (s : State) :
    foldOver l sampleLoad s = { s with fab := { s.fab with regs := (foldOver l sampleLoad s).fab.regs } } := by
  induction l generalizing s with
  | nil => rfl
  | cons c l ih =>
    rw [foldOver_cons]
    exact (ih _).trans rfl

theorem sampleLoads_regs {l : List Nat} {k : Nat} (s : State) (h : ∀ c ∈ l, k ≠ keyOfField dspLoad_busy 0 c) :
    sget regReset (foldOver l sampleLoad s).fab.regs k = sget regReset s.fab.regs k := by
  induction l generalizing s with
  | nil => rfl
  | cons c l ih =>
    rw [foldOver_cons, ih _ (fun d hd => h d (List.mem_cons_of_mem _ hd)), sampleLoad_regs s (h c List.mem_cons_self)]

theorem sampleLoads_shown {l : List Nat} (hl : l.Nodup) {c : Nat} (hc : c ∈ l) (s : State) : LoadShown c s (foldOver l sampleLoad s) := by
  induction l generalizing s with
  | nil => cases hc
  | cons d l ih =>
    rw [List.nodup_cons] at hl
    rw [foldOver_cons]
    rcases List.mem_cons.1 hc with rfl | hc
    · obtain ⟨hbusy, hitems⟩ := sampleLoad_shown c s
      have hkept : reg dspLoad_busy.off c (foldOver l sampleLoad (sampleLoad c s)) = reg dspLoad_busy.off c (sampleLoad c s) :=
        sampleLoads_regs _ (fun d hd => loadKey_ne (fun he => hl.1 (he ▸ hd)))
      exact ⟨(congrArg (fun x => wordField x 0 10) hkept).trans hbusy, (congrArg (fun x => wordField x 16 16) hkept).trans hitems⟩
    · obtain ⟨hbusy, hitems⟩ := ih hl.2 hc (sampleLoad d s)
      exact ⟨hbusy, hitems⟩

/-! ### Wrap bits -/

/-- The wrap bit of counter key k stands. -/
def Wrapped (k : Nat) (s : State) : Prop := sget (fun _ => false) s.fab.wraps k = true

theorem Wrapped.of_wraps {k : Nat} {s t : State} (h : Wrapped k s) (hw : t.fab.wraps = s.fab.wraps) : Wrapped k t := by
  unfold Wrapped at *
  rwa [hw]

theorem wrapped_putWrap (k : Nat) (s : State) : Wrapped k (putWrap k true s) := by
  unfold Wrapped putWrap
  exact sget_sset_same (fun _ => false) s.fab.wraps k true

theorem Wrapped.putWrap {k : Nat} {s : State} (h : Wrapped k s) (j : Nat) : Wrapped k (Sys2Proof.Machine.putWrap j true s) := by
  by_cases hk : k = j
  · rw [hk]
    exact wrapped_putWrap j s
  · unfold Wrapped Sys2Proof.Machine.putWrap at *
    exact (sget_sset_other (fun _ => false) s.fab.wraps true hk).trans h

theorem Wrapped.addCtr {k : Nat} {s : State} (h : Wrapped k s) (j d : Nat) : Wrapped k (Sys2Proof.Machine.addCtr j d s).1 := by
  unfold Sys2Proof.Machine.addCtr
  dsimp only
  split
  · exact h.of_wraps rfl
  · exact (h.of_wraps (t := putCtr j _ s) rfl).putWrap j

theorem Wrapped.countEdges {k : Nat} {s : State} (h : Wrapped k s) (n : Nat) : Wrapped k (Sys2Proof.Machine.countEdges n s).1 := by
  have hfold : ∀ (l : List Nat) (a : State × Bool), Wrapped k a.1 →
      Wrapped k (l.foldl (fun (a : State × Bool) i => let r := Sys2Proof.Machine.addCtr (pcnKey i) 1 a.1; (r.1, a.2 || r.2)) a).1 := by
    intro l
    induction l with
    | nil => exact fun _ ha => ha
    | cons i l ih => exact fun a ha => ih _ (ha.addCtr (pcnKey i) 1)
  unfold Sys2Proof.Machine.countEdges
  split
  · exact hfold _ _ h
  · exact h

theorem signalVector_fab (v : Nat) (s : State) : (signalVector v s).fab = s.fab := by
  unfold signalVector
  split
  · rfl
  · split <;> rfl

theorem Wrapped.refreshSignals {k : Nat} {s : State} (h : Wrapped k s) : Wrapped k (Sys2Proof.Machine.refreshSignals s).1 := by
  refine h.of_wraps ?_
  have hfold : ∀ (l : List Nat) (a : State), (l.foldl (fun a i => signalVector i a) a).fab = a.fab := by
    intro l
    induction l with
    | nil => exact fun _ => rfl
    | cons v l ih => exact fun a => (ih _).trans (signalVector_fab v a)
  exact congrArg Fabric.wraps (hfold _ _)

theorem enterFifo_wraps (r : Rec) (s : State) : (enterFifo r s).1.fab.wraps = s.fab.wraps := by
  unfold enterFifo
  dsimp only
  split <;> rfl

theorem offerRec_wraps (r : Rec) (s : State) : (offerRec r s).state.fab.wraps = s.fab.wraps := by
  unfold offerRec
  dsimp only
  split
  · split
    · rfl
    · exact enterFifo_wraps _ _
  · exact enterFifo_wraps _ _

theorem setPend_wraps (e : Src) (c : Option Nat) (s : State) : (setPend e c s).fab.wraps = s.fab.wraps := by
  unfold setPend
  split
  · split <;> rfl
  · rfl

theorem countAssertion_wraps (e : Src) (sup : Bool) (s : State) : (countAssertion e sup s).fab.wraps = s.fab.wraps := by
  have hwin : (countInWindow e s).fab.wraps = s.fab.wraps := by
    unfold countInWindow
    split <;> rfl
  unfold countAssertion
  dsimp only
  split <;> exact hwin

/-- No assertion clears a wrap bit. -/
theorem Wrapped.assertN {k : Nat} {s : State} (h : Wrapped k s) (n : Nat) (e : Src) (c : Option Nat) (forced : Bool) :
    Wrapped k (Sys2Proof.Machine.assertN n e c forced s) := by
  induction n generalizing e c forced s with
  | zero => exact h
  | succ n ih =>
    have hset : Wrapped k (setPend e c (setCause e s)) := h.of_wraps (setPend_wraps _ _ _)
    refine assertN_after (P := Wrapped k) ?_ (fun r a ha => ha.of_wraps (offerRec_wraps r a)) (fun a ha => ha.refreshSignals)
      (fun m a ha => ha.countEdges m) (fun f _ a ha => ih ha f none false)
    split
    · exact hset
    · exact hset.of_wraps (countAssertion_wraps _ _ _)

theorem countPcn_wraps {i d : Nat} {s : State} (hon : blockOn .pcn s = true) (h : 2 ^ 64 ≤ sget (fun _ => 0) s.fab.counters (pcnKey i) + d) :
    Asserted pcnCntWrap (countPcn i d s) ∧ Wrapped (pcnKey i) (countPcn i d s) := by
  have hraise : countPcn i d s = raise pcnCntWrap (putWrap (pcnKey i) true
      (putCtr (pcnKey i) ((sget (fun _ => 0) s.fab.counters (pcnKey i) + d) % 2 ^ 64) s)) := by
    simp only [countPcn, addCtr, hon, Nat.not_lt.2 h, if_true, if_false]
  rw [hraise]
  exact ⟨raise_asserted _ (by decide), (wrapped_putWrap _ _).assertN _ _ _ _⟩

theorem exec_levelSample_of_none {s : State} (h : s.pwr.hold = .none) : exec .levelSample s = .next (levelSample s) := by
  show Host.Outcome.next (onlyIf (decide (s.pwr.hold = .none)) levelSample s) = _
  rw [onlyIf_of_true (decide_eq_true h)]

theorem LoadShown.of_regs {c : Nat} {s t u : State} (h : LoadShown c s u) (hr : t.fab.regs = u.fab.regs) : LoadShown c s t :=
  ⟨(rdX_congr (f := dspLoad_busy) (i := 0) (c := c) hr).trans h.busy, (rdX_congr (f := dspLoad_itemsK) (i := 0) (c := c) hr).trans h.items⟩

theorem LoadShown.with_regs {c : Nat} {s u : State} (h : LoadShown c s u) : LoadShown c s { s with fab := { s.fab with regs := u.fab.regs } } :=
  h.of_regs rfl

/-- The millisecond of every cluster is shown in registers of their own. -/
theorem sampleLoads_spec (s : State) :
    ∃ regs : Sparse Word, foldOver (List.range 32) sampleLoad s = { s with fab := { s.fab with regs := regs } } ∧
      (∀ c, c < 32 → LoadShown c s { s with fab := { s.fab with regs := regs } }) ∧
      (∀ k, (∀ c, c < 32 → k ≠ keyOfField dspLoad_busy 0 c) → sget regReset regs k = sget regReset s.fab.regs k) :=
  ⟨_, sampleLoads_eq _ s, fun _ hc => (sampleLoads_shown List.nodup_range (List.mem_range.2 hc) s).with_regs,
    fun _ hk => sampleLoads_regs s (fun c hc => hk c (List.mem_range.1 hc))⟩

/-- The sample when no counter wraps. -/
theorem levelSample_of_room {s : State} {m : Sparse Nat}
    (h : foldOver (levelCounters s) (fun (e : Nat × Nat) a => countPcn e.1 (gaugeValue e.2 s) a) s = { s with fab := { s.fab with counters := m } }) :
    ∃ regs : Sparse Word, levelSample s = { s with
        fab := { s.fab with regs := regs, counters := m }
        dsp := { s.dsp with busyNow := [], endedNow := [] } } ∧
      (∀ c, c < 32 → LoadShown c s { s with fab := { s.fab with regs := regs } }) ∧
      (∀ k, (∀ c, c < 32 → k ≠ keyOfField dspLoad_busy 0 c) → sget regReset regs k = sget regReset s.fab.regs k) := by
  obtain ⟨regs, heq, hshown, hregs⟩ := sampleLoads_spec { s with fab := { s.fab with counters := m } }
  refine ⟨regs, ?_, fun c hc => ⟨(hshown c hc).busy, (hshown c hc).items⟩, hregs⟩
  unfold levelSample
  rw [h]
  dsimp only
  rw [heq]

/-- Settles O26: counters by `cntCtlWrite`, banks by `sget_refill_same`, the sample by its two folds. -/
theorem countersFreezeAndHistogramsSnap : Obligations.CountersFreezeAndHistogramsSnap := by
  unfold Obligations.CountersFreezeAndHistogramsSnap
  refine ⟨fun w v s ha => ⟨?_, cntCtlWrite w (v ||| 2) s, congrArg Host.Outcome.next (writing_of_admits ha _), cntCtlWrite_clear w v s⟩,
    fun w v s ha => ⟨frozen w s, ?_, rfl, fun i => ⟨?_, ?_⟩, fun i d hd hne => ⟨?_, ?_⟩⟩, fun w v s ha => ?_, fun s hh => ⟨fun i hm => levelCounters_of_mode hm,
      fun hroom => ?_, fun i src hl hon hedge hov => ⟨_, exec_levelSample_of_none hh, ?_⟩⟩⟩
  · exact congrArg _ ((writing_of_admits ha _).trans (cntCtlWrite_set w v s))
  · exact congrArg _ ((writing_of_admits ha _).trans (freezeWrite_go (wordField_or_one v)))
  · exact sget_refill_same (winIdx_lt w) 0 _ _ i
  · exact sget_refill_same (winIdx_lt w) false _ _ i
  · exact sget_refill_other hd hne (winIdx_lt w) 0 _ _ i
  · exact sget_refill_other hd hne (winIdx_lt w) false _ _ i
  · refine congrArg _ ((writing_of_admits ha _).trans ((histSnapWrite_go (wordField_or_one v)).trans ?_))
    rw [wordField_or_one_above]
  · have hsum : ∃ m, foldOver (levelCounters s) (fun (e : Nat × Nat) a => countPcn e.1 (gaugeValue e.2 s) a) s =
          { s with fab := { s.fab with counters := m } } ∧
        (∀ i, sget (fun _ => 0) m (pcnKey i) = sget (fun _ => 0) s.fab.counters (pcnKey i) +
          if blockOn .pcn s then (((levelCounters s).filter (fun e => e.1 == i)).map (fun e => gaugeValue e.2 s)).sum else 0) ∧
        (∀ k, (∀ i, k ≠ pcnKey i) → sget (fun _ => 0) m k = sget (fun _ => 0) s.fab.counters k) := by
      by_cases hon : blockOn .pcn s = true
      · simp only [hon, if_true] at hroom ⊢
        exact ⟨_, foldOver_countPcn (amount := fun e => gaugeValue e.2 s) hon hroom, fun i => sget_ctrsAdded _ _ _ i,
          fun k hk => sget_ctrsAdded_other _ _ _ hk⟩
      · rw [Bool.not_eq_true] at hon
        simp only [hon, Bool.false_eq_true, if_false]
        exact ⟨s.fab.counters, foldOver_countPcn_off (amount := fun e => gaugeValue e.2 s) hon, fun _ => rfl, fun _ _ => rfl⟩
    obtain ⟨m, hfold, hm, hother⟩ := hsum
    obtain ⟨regs, heq, hshown, hregs⟩ := levelSample_of_room hfold
    exact ⟨_, (exec_levelSample_of_none hh).trans (congrArg _ heq), hm, hother, fun c hc => ⟨(hshown c hc).busy, (hshown c hc).items⟩, hregs, rfl⟩
  · obtain ⟨has, hwrap⟩ := countPcn_wraps hon hov
    obtain ⟨regs, heq, -⟩ := sampleLoads_spec (countPcn i (gaugeValue src s) s)
    have hsample : levelSample s = { countPcn i (gaugeValue src s) s with
        fab := { (countPcn i (gaugeValue src s) s).fab with regs := regs }
        dsp := { (countPcn i (gaugeValue src s) s).dsp with busyNow := [], endedNow := [] } } := by
      unfold levelSample
      rw [hl, foldOver_cons, foldOver, List.foldl_nil]
      dsimp only
      rw [heq]
    rw [hsample]
    exact ⟨has.of_evt rfl, hwrap.of_wraps rfl⟩

end Sys2Proof.Machine
end

section
/-! PROOFS. Start-up steps and host loads (R84 to R103). -/

namespace Sys2Proof.Machine

/-- What every step of a fold keeps, the fold keeps. -/
theorem foldOver_induct {α : Type} {P : State → Prop} {g : α → State → State} (hg : ∀ x a, P a → P (g x a)) (l : List α) {s : State} (h : P s) :
    P (foldOver l g s) := by
  induction l generalizing s with
  | nil => exact h
  | cons x l ih => exact ih (hg x s h)

/-! ### Register fields through the shared operations -/

theorem rd_with_start (f : Fld) (s : State) (x : Startup) : rd f { s with start := x } = rd f s := rfl
theorem rd_with_fw (f : Fld) (s : State) (x : Firmware) : rd f { s with fw := x } = rd f s := rfl
theorem rd_with_l2 (f : Fld) (s : State) (x : L2State) : rd f { s with l2 := x } = rd f s := rfl

theorem rd_writeRec {f : Fld} {code sev block chan : Nat} {payload : List Byte} {s : State} (h : ¬ StatKey (keyOfField f 0 0)) :
    rd f (writeRec code sev block chan payload s) = rd f s :=
  (writeRec_onlyEvents code sev block chan payload s).rdX h

theorem rd_suggest_other {f : Fld} {v : Nat} {s : State} (h : offsApart pwrAvsStatus_suggestedMv 0 f 0 = true) : rd f (suggest v s) = rd f s :=
  rdX_suggest h v s

theorem suggest_start (v : Nat) (s : State) : (suggest v s).start = s.start := by
  obtain ⟨p, -, -, -, -, h⟩ := suggest_changes v s (List.mem_singleton.2 rfl)
  exact h.start

theorem avsActive_start (s : State) : (avsActive s).start = s.start := by
  unfold avsActive
  split
  · exact suggest_start _ _
  · rfl

theorem devState_wr_other {f : Fld} {v : Nat} {s : State} (h : fieldsApart f 0 0 cfgStartState_state 0 0 = true) :
    devState (wr f v s) = devState s := rd_wr_other v s h

theorem devState_wr_same {v : Nat} {s : State} (h : v < 8) : devState (wr cfgStartState_state v s) = v := rd_wr_fits (by decide) h

theorem startStep_toStep {n : Nat} {s : State} (h : n < 16) : startStep (toStep n s) = n := rd_wr_fits (by decide) h

theorem startStep_wr_other {f : Fld} {v : Nat} {s : State} (h : fieldsApart f 0 0 cfgStartState_step 0 0 = true) :
    startStep (wr f v s) = startStep s := rd_wr_other v s h

theorem rd_reportFail (code index slot : Nat) (s : State) : rd cfgFailCode_code (reportFail code index slot s) = code % 256 :=
  rd_wr_same _ _ _ (by decide)

theorem showConfig_spec (d : List Byte) (s : State) :
    rd cfgImageInfo_sequence (showConfig d s) = imSequence d % 2 ^ cfgImageInfo_sequence.w ∧
      rd cfgFailCode_code (showConfig d s) = rd cfgFailCode_code s ∧ devState (showConfig d s) = devState s ∧
      startStep (showConfig d s) = startStep s := by
  unfold showConfig
  refine ⟨rd_wr_same _ _ _ (by decide), ?_, ?_, ?_⟩
  · rw [rd_wr_other _ _ (by decide), rd_wr_other _ _ (by decide)]
  · rw [devState_wr_other (by decide), devState_wr_other (by decide)]
  · rw [startStep_wr_other (by decide), startStep_wr_other (by decide)]

/-! ### What Bench's run leaves alone -/

/-- The start record and the fields of CFG and SYS read at step 7 are those of s. -/
def BootKept (s t : State) : Prop := t.start = s.start ∧ rd sysStrapSample_bootSrc t = rd sysStrapSample_bootSrc s

theorem drainBenchQueues_bootKept {s a : State} (h : BootKept s a) : BootKept s (drainBenchQueues a) := by
  unfold drainBenchQueues
  refine foldOver_induct (P := BootKept s) (fun q a ha => ?_) _ h
  have hf : BootKept s (foldOver (benchQueue q a).frames (fun h t => emit (.hostFrame q h.time h.epoch h.exc h.bytes) t) a) :=
    foldOver_induct (P := BootKept s) (g := fun (h : HostFrame) t => emit (.hostFrame q h.time h.epoch h.exc h.bytes) t) (fun _ _ hx => hx) _ ha
  exact hf

theorem benchRuns_bootKept (s : State) : BootKept s (benchRuns s) := by
  unfold benchRuns
  refine drainBenchQueues_bootKept (foldOver_induct (P := BootKept s) (g := fun n a => emit (.learnRecord n) a) (fun _ _ hx => hx) _ ⟨rfl, ?_⟩)
  rw [rd_with_l2, rd_wr_other _ _ (by decide), rd_wr_other _ _ (by decide), rd_with_fw]

/-! ### Steps 7 and 13 -/

/-- What step 7 shows once Bench runs. -/
def sevenShown (s : State) : State := raise cfgReadyForConfig (wr cfgStartState_state 1 (toStep 8 (raise bncBenchReady s)))

theorem sevenShown_spec (s : State) :
    devState (sevenShown s) = 1 ∧ startStep (sevenShown s) = 8 ∧ Asserted cfgReadyForConfig (sevenShown s) ∧ BootKept s (sevenShown s) := by
  unfold sevenShown
  refine ⟨(rd_raise _ _ (by decide)).trans (devState_wr_same (by decide)), ?_, raise_asserted _ (by decide),
    ?_, ?_⟩
  · exact (rd_raise _ _ (by decide)).trans ((startStep_wr_other (by decide)).trans (startStep_toStep (by decide)))
  · unfold toStep
    rw [(raise_onlyEvents cfgReadyForConfig _).start, wr_start, wr_start, (raise_onlyEvents bncBenchReady s).start]
  · unfold toStep
    rw [rd_raise _ _ (by decide), rd_wr_other _ _ (by decide), rd_wr_other _ _ (by decide), rd_raise _ _ (by decide)]

theorem stepSeven_flash {s : State} (h : rd sysStrapSample_bootSrc s = 0) :
    devState (stepSeven s) = 1 ∧ startStep (stepSeven s) = 8 ∧ Asserted cfgReadyForConfig (stepSeven s) ∧
      (stepSeven s).start = { s.start with restart := false } := by
  obtain ⟨hstart, hboot⟩ := benchRuns_bootKept s
  obtain ⟨hdev, hstep, hready, hstart', hboot'⟩ := sevenShown_spec (benchRuns s)
  have hst : stepSeven s = if rd sysStrapSample_bootSrc { sevenShown (benchRuns s) with start := { (sevenShown (benchRuns s)).start with restart := false } } = 0
      then { sevenShown (benchRuns s) with start := { (sevenShown (benchRuns s)).start with restart := false } }
      else wr cfgStartState_state 2 { sevenShown (benchRuns s) with start := { (sevenShown (benchRuns s)).start with restart := false } } := rfl
  generalize sevenShown (benchRuns s) = u at *
  rw [hst, if_pos ((rd_with_start _ _ _).trans (hboot'.trans (hboot.trans h)))]
  refine ⟨(rd_with_start _ _ _).trans hdev, (rd_with_start _ _ _).trans hstep, Asserted.of_evt hready rfl, ?_⟩
  exact congrArg (fun x : Startup => { x with restart := false }) (hstart'.trans hstart)

/-- What step 13 shows before the enabled targets are released. -/
def thirteenShown (s0 : State) : State :=
  let s := avsActive s0
  let ms := min 0xFFFF ((s.tim.raw - s.start.began) / rawPerMs)
  showConfig s.start.image (wr rstWarmCtl_busy 0 (wr cfgStartState_elapsedMs ms (toStep 15
    (wr cfgStartState_state 4 { clearFail s with start := { s.start with load := .none, tried := false, firstFail := none } }))))

theorem stepThirteen_eq (s : State) : stepThirteen s = raise cfgStartComplete (releaseTargets (thirteenShown s)) := rfl

theorem rd_clearFail {s : State} (h : s.start.firstFail = none) : rd cfgFailCode_code (clearFail s) = 0 := by
  unfold clearFail
  rw [if_pos h]
  exact rd_reportFail 0 0 0 s

theorem thirteenShown_spec (s : State) :
    devState (thirteenShown s) = 4 ∧ startStep (thirteenShown s) = 15 ∧ (s.start.firstFail = none → rd cfgFailCode_code (thirteenShown s) = 0) ∧
      rd cfgImageInfo_sequence (thirteenShown s) = imSequence s.start.image % 2 ^ cfgImageInfo_sequence.w ∧
      (thirteenShown s).start = { s.start with load := .none, tried := false, firstFail := none } := by
  have hstart := avsActive_start s
  unfold thirteenShown
  dsimp only
  generalize hu : ({ clearFail (avsActive s) with
    start := { (avsActive s).start with load := .none, tried := false, firstFail := none } } : State) = u
  generalize min 0xFFFF (((avsActive s).tim.raw - (avsActive s).start.began) / rawPerMs) = ms
  generalize hv : wr rstWarmCtl_busy 0 (wr cfgStartState_elapsedMs ms (toStep 15 (wr cfgStartState_state 4 u))) = v
  obtain ⟨hseq, hcode, hdev, hstep⟩ := showConfig_spec (avsActive s).start.image v
  refine ⟨hdev.trans ?_, hstep.trans ?_, fun hf => hcode.trans ?_, hseq.trans (by rw [hstart]), ?_⟩
  · rw [← hv, devState_wr_other (by decide), devState_wr_other (by decide)]
    exact (devState_wr_other (by decide)).trans (devState_wr_same (by decide))
  · rw [← hv, startStep_wr_other (by decide), startStep_wr_other (by decide)]
    exact startStep_toStep (by decide)
  · rw [← hv, rd_wr_other _ _ (by decide), rd_wr_other _ _ (by decide)]
    unfold toStep
    rw [rd_wr_other _ _ (by decide), rd_wr_other _ _ (by decide), ← hu]
    exact (rd_congr (s := clearFail (avsActive s)) rfl).trans (rd_clearFail (by rw [hstart]; exact hf))
  · rw [← hv, ← hu, ← hstart]
    rfl

/-! ### The held state and an overrun -/

theorem enterHeld_shows (code index slot : Nat) (s : State) :
    devState (enterHeld code index slot s) = 3 ∧ rd cfgFailCode_code (enterHeld code index slot s) = code % 256 ∧
      Asserted cfgHeldEntered (enterHeld code index slot s) := by
  unfold enterHeld
  dsimp only
  generalize quietTime _ = q
  refine ⟨?_, ?_, raise_asserted _ (by decide)⟩
  · unfold devState
    rw [rd_raise _ _ (by decide), rd_suggest_other (by decide), rd_writeRec (by decide), rd_wr_other _ _ (by decide), rd_wr_other _ _ (by decide),
      rd_wr_other _ _ (by decide), rd_wr_same _ _ _ (by decide)]
    rfl
  · rw [rd_raise _ _ (by decide), rd_suggest_other (by decide), rd_writeRec (by decide), rd_wr_same _ _ _ (by decide)]
    rfl

theorem stepOverrun_spec (s : State) :
    rd cfgStartState_overrunStep (stepOverrun s) = startStep s ∧ startStep (stepOverrun s) = startStep s ∧ Asserted cfgStepOverrun (stepOverrun s) ∧
      Changes [keyOfField cfgStartState_overrunStep 0 0] [] s (stepOverrun s) := by
  refine ⟨(rd_raise _ _ (by decide)).trans ?_, (rd_raise _ _ (by decide)).trans (startStep_wr_other (by decide)), raise_asserted _ (by decide),
    (wr_changes _ _ _ (List.mem_singleton.2 rfl)).events (raise_onlyEvents _ _)⟩
  exact rd_wr_fits (by decide) (rd_lt cfgStartState_step s)

/-! ### Loads by the host -/

/-- The low two bits of a written load control word. -/
theorem loadCtlWord_go (v : Word) : wordField (wordWith v 0 2 1) 0 1 = 1 ∧ wordField (wordWith v 0 2 3) 0 1 = 1 := by
  rw [wordField_one_eq_one, wordField_one_eq_one, getLsbD_wordWith, getLsbD_wordWith]
  simp

theorem loadCtlWord_run (v : Word) : wordField (wordWith v 0 2 1) 1 1 ≠ 1 ∧ wordField (wordWith v 0 2 3) 1 1 = 1 := by
  rw [Ne, wordField_one_eq_one, wordField_one_eq_one, getLsbD_wordWith, getLsbD_wordWith]
  simp
  decide

theorem loadCtlWrite_start (v : Word) (image : List Byte) (s : State) :
    loadCtlWrite (wordWith v 0 2 1) image s = startLoad image (storeFields .cfg cfgLoadCtl_go.off 0 (wordWith v 0 2 1) s) := by
  have hgo : wordField (wordWith v 0 2 1) 0 1 ≠ 0 := by rw [(loadCtlWord_go v).1]; decide
  have hrun : wordField (wordWith v 0 2 1) 1 1 = 0 := by
    have hlt := wordField_lt (wordWith v 0 2 1) 1 1
    have hne := (loadCtlWord_run v).1
    omega
  unfold loadCtlWrite
  dsimp only
  rw [if_neg hgo, if_pos hrun]

theorem loadCtlWrite_run (v : Word) (image : List Byte) (s : State) :
    loadCtlWrite (wordWith v 0 2 3) image s = runTimeLoad image (storeFields .cfg cfgLoadCtl_go.off 0 (wordWith v 0 2 3) s) := by
  have hgo : wordField (wordWith v 0 2 3) 0 1 ≠ 0 := by rw [(loadCtlWord_go v).2]; decide
  have hrun : wordField (wordWith v 0 2 3) 1 1 ≠ 0 := by rw [(loadCtlWord_run v).2]; decide
  unfold loadCtlWrite
  dsimp only
  rw [if_neg hgo, if_neg hrun]

theorem startLoad_of_waiting {image : List Byte} {s : State} (hd : devState s = 2) (hl : s.start.load = .none) :
    startLoad image s = wr cfgStartState_step 8 { s with start := { s.start with
      load := .hostStart, back := 2, image := image.take (rd cfgHostLen_value s) } } := by
  unfold startLoad
  dsimp only
  rw [if_pos ⟨hl, .inl hd⟩, if_neg (by rw [hd]; decide), hd]
  rfl

theorem startLoad_of_busy {image : List Byte} {s : State} (hl : s.start.load ≠ .none) : startLoad image s = loadBusy s :=
  if_neg fun h => hl h.1

theorem runTimeLoad_of_busy {image : List Byte} {s : State} (hl : s.start.load ≠ .none) : runTimeLoad image s = loadBusy s :=
  if_neg fun h => hl h.2

theorem namedClusters_nil_of_bankBlobs {d : List Byte} (h : bankBlobs d = []) : namedClusters d = [] := by
  unfold namedClusters
  rw [h]
  exact List.filter_eq_nil_iff.2 fun _ _ => by simp

/-- A run-time load that passes every check and names no bank ends at once with its image shown. -/
theorem runTimeLoad_of_sound {image d : List Byte} {s t : State} (hd : d = image.take (rd cfgHostLen_value s)) (hact : active s = true)
    (hl : s.start.load = .none) (hcheck : structuralCheck s.variant (some (rd cfgHostLen_value s)) d = none) (happ : applyImage d s = .ok t)
    (hbanks : bankBlobs d = []) (hcls : clsTaken d t = none) :
    ∃ u, runTimeLoad image s = raise cfgRunLoadComplete (showConfig d (reportFail 0 0 0 u)) := by
  have hrun : runTimeLoad image s = runLoad d s := by rw [hd]; exact if_pos ⟨hact, hl⟩
  have hfin : runLoad d s = finishRun d s := by
    simp [runLoad, hcheck, happ, hbanks, verifyBanks, hcls, namedClusters_nil_of_bankBlobs hbanks]
  rw [hrun, hfin]
  unfold finishRun
  simp only [happ, hcls]
  exact ⟨_, rfl⟩

/-! ### The obligation -/

/-- A step that passes, fails or overruns while the sequence runs. -/
theorem startupStepDone_cases {s : State} (hruns : stepRuns s = true) :
    (∀ read, startStep s = 1 → exec (.startupStepDone (.passed read)) s = .next (wr cfgStartState_step 2 s)) ∧
      (∀ read, startStep s = 6 → exec (.startupStepDone (.passed read)) s = .next (wr cfgStartState_step 7 (wr bncStatus_state 1 s))) ∧
      (∀ read, startStep s = 7 → exec (.startupStepDone (.passed read)) s = .next (stepSeven s)) ∧
      (∀ read, startStep s = 13 → exec (.startupStepDone (.passed read)) s = .next (stepThirteen s)) ∧
      (∀ code detail, stepFailure (startStep s) = some code →
        exec (.startupStepDone (.failed code detail)) s = .next (enterHeld code detail 0 (if startStep s = 2 then establish s else s))) ∧
      (∀ code detail, stepFailure (startStep s) ≠ some code → exec (.startupStepDone (.failed code detail)) s = .next s) ∧
      (∀ read, startStep s = 8 → s.start.restart = true → copyGood s = false →
        exec (.startupStepDone (.passed read)) s = .next (toStep 4 (wr cfgStartState_state 0 s))) := by
  have hdo (o : StepOutcome) : exec (.startupStepDone o) s = .next (startupStepDone o s) := congrArg _ (onlyIf_of_true hruns _ s)
  have hpass (read : List (List Byte)) : startupStepDone (.passed read) s = stepPassed read s := rfl
  refine ⟨fun read h => ?_, fun read h => ?_, fun read h => ?_, fun read h => ?_, fun code detail h => ?_, fun code detail h => ?_,
    fun read h hres hcopy => ?_⟩ <;> rw [hdo]
  · simp [hpass, stepPassed, h, toStep]
  · simp [hpass, stepPassed, h, toStep]
  · simp [hpass, stepPassed, h]
  · simp [hpass, stepPassed, h]
  · exact congrArg _ (if_pos h)
  · exact congrArg _ (if_neg h)
  · simp [hpass, stepPassed, h, hres, hcopy]

theorem exec_startLoad_of_admits {w : Window} {s : State} (ha : Admits w .cfg s) (v : Word) (image : List Byte) :
    exec (.startLoad w v image) s = .next (startLoad image (storeFields .cfg cfgLoadCtl_go.off 0 (wordWith v 0 2 1) s)) :=
  congrArg _ ((writing_of_admits ha _).trans (loadCtlWrite_start v image s))

theorem exec_runTimeLoad_of_admits {w : Window} {s : State} (ha : Admits w .cfg s) (v : Word) (image : List Byte) :
    exec (.runTimeLoad w v image) s = .next (runTimeLoad image (storeFields .cfg cfgLoadCtl_go.off 0 (wordWith v 0 2 3) s)) :=
  congrArg _ ((writing_of_admits ha _).trans (loadCtlWrite_run v image s))

/-- Settles O27, a lemma for each step and each kind of load. -/
theorem startupStepsAndLoads : Obligations.StartupStepsAndLoads := by
  unfold Obligations.StartupStepsAndLoads
  intro s
  refine ⟨fun hruns => ?_, fun w v image u ha hu => ⟨fun hd hl => ?_, fun hl => ?_⟩,
    fun w v image u t ha hu => ⟨fun hact hl hcheck happ hbanks _ hcls => ?_, fun hl => ?_⟩⟩
  · obtain ⟨hone, hsix, hseven, hthirteen, hfail, hother, height⟩ := startupStepDone_cases hruns
    refine ⟨hone, hsix, fun read h hboot => ?_, fun read h => ?_, fun code detail h => ?_, hother, fun read h hres hcopy => ?_, fun hwait => ?_⟩
    · obtain ⟨hdev, hstep, hready, hstart⟩ := stepSeven_flash hboot
      exact ⟨_, hseven read h, hdev, hstep, hready, hstart⟩
    · obtain ⟨hdev, hstep, hcode, hseq, hstart⟩ := thirteenShown_spec s
      exact ⟨_, _, hthirteen read h, stepThirteen_eq s, raise_asserted _ (by decide), hdev, hstep, hcode, hseq, hstart⟩
    · obtain ⟨hdev, hcode, hheld⟩ := enterHeld_shows code detail 0 (if startStep s = 2 then establish s else s)
      exact ⟨_, hfail code detail h, rfl, hdev, fun hc => hcode.trans (Nat.mod_eq_of_lt hc), hheld⟩
    · refine ⟨_, height read h hres hcopy, ?_, startStep_toStep (by decide)⟩
      exact (devState_wr_other (by decide)).trans (devState_wr_same (by decide))
    · obtain ⟨hshown, hstep, hev, hch⟩ := stepOverrun_spec s
      refine ⟨stepOverrun s, congrArg _ (onlyIf_of_true ?_ _ s), hshown, hstep, hev, hch⟩
      have hnot : ¬ (devState s = 2 ∧ s.start.load = .none) := fun h => hwait.elim (fun hn => hn h.1) (fun hn => hn h.2)
      simp [hruns, hnot]
  · rw [exec_startLoad_of_admits ha, ← hu, startLoad_of_waiting hd hl]
  · rw [exec_startLoad_of_admits ha, ← hu, startLoad_of_busy hl]
    rfl
  · rw [exec_runTimeLoad_of_admits ha, ← hu]
    obtain ⟨x, hx⟩ := runTimeLoad_of_sound rfl hact hl hcheck happ hbanks hcls
    obtain ⟨hseq, hcode, -, -⟩ := showConfig_spec (image.take (rd cfgHostLen_value u)) (reportFail 0 0 0 x)
    refine ⟨_, congrArg _ hx, raise_asserted _ (by decide), ?_, ?_⟩
    · rw [rd_raise _ _ (by decide), hcode, rd_reportFail]
    · rw [rd_raise _ _ (by decide), hseq]
  · rw [exec_runTimeLoad_of_admits ha, ← hu, runTimeLoad_of_busy hl]
    rfl

end Sys2Proof.Machine
end

section
/-! PROOFS. Microcode banks and their golden copies (R312 to R326). -/

namespace Sys2Proof.Machine

/-! ### Keys of fields of different offsets -/

/-- No copy of a register is a statistics word when its offset is not one. -/
theorem not_statKey_of_off {f : Fld} {i : Nat} (h : ¬ StatKey (f.off + i * f.stride)) (c : Nat) : ¬ StatKey (keyOfField f i c) := by
  unfold StatKey at h ⊢
  unfold keyOfField rkey
  omega

theorem keyOfField_ne_of_off {f g : Fld} {i j : Nat} (h : (f.off + i * f.stride) % 0x40000 ≠ (g.off + j * g.stride) % 0x40000) (c d : Nat) :
    keyOfField f i c ≠ keyOfField g j d := by
  unfold keyOfField rkey
  intro he
  omega

/-! ### Stores and engines -/

theorem store_putStore (c : Nat) (x : Store) (s : State) : store c (putStore c x s) = x := sget_sset_same _ _ _ _

theorem rdX_with_fen' (f : Fld) (i c : Nat) (s : State) (x : Engines) : rdX f i c { s with fen := x } = rdX f i c s := rfl

theorem bankState_putStore (c b d : Nat) (x : Store) (s : State) : bankState c b (putStore d x s) = bankState c b s := rfl

/-- Every engine may have gone on: of the state only the engines differ. -/
def SameButEngines (s t : State) : Prop := ∃ es, t = { s with fen := { s.fen with engines := es } }

theorem SameButEngines.put {s t : State} (h : SameButEngines s t) (e : Nat) (x : Engine) : SameButEngines s (putEngine e x t) := by
  obtain ⟨es, rfl⟩ := h
  exact ⟨_, rfl⟩

theorem resumeEngines_engines (c : Nat) (ws : Nat → Bool) (s : State) : SameButEngines s (resumeEngines c ws s) := by
  unfold resumeEngines
  refine foldOver_induct (P := SameButEngines s) (fun j a ha => ?_) _ ⟨s.fen.engines, rfl⟩
  cases (engine (16 * c + j) a).run with
  | none => exact ha
  | some r =>
    dsimp only
    split
    · exact ha.put _ _
    · exact ha

/-! ### A bank that is loaded or drained -/

theorem exec_bankLoadDone_of_start {c b : Nat} {img : List Byte} {s : State} (hc : c < 32) (hl : (store c s).loading = some (b, img))
    (hr : s.start.load ≠ .runTime) (hp : s.fw.patch = none) : exec (.bankLoadDone c) s = .next (writeBank c b img 2 s) := by
  have hsome : (store c s).loading.isSome = true := by rw [hl]; rfl
  have hkeep : (writeBank c b img 2 s).start = s.start ∧ (writeBank c b img 2 s).fw = s.fw := by
    unfold writeBank putBankState modStore putStore
    dsimp only
    split <;> exact ⟨rfl, rfl⟩
  have hdone : bankLoadDone c s = writeBank c b img 2 s := by simp [bankLoadDone, hl]
  have hpatch : patchGoesOn c (writeBank c b img 2 s) = writeBank c b img 2 s := by
    simp [patchGoesOn, hkeep.2, hp]
  have hload : loadGoesOn c (writeBank c b img 2 s) = writeBank c b img 2 s := if_neg fun h => hr (by rw [← hkeep.1]; exact h.1)
  refine (guarded_of_true (decide_eq_true hc) _).trans (congrArg _ ?_)
  rw [onlyIf_of_true hsome, hdone, hpatch, hload]

theorem bankDrainComplete_first {c : Nat} {s : State} (h : bankState c 0 s = 4) (hr : runningOn c 0 s = false) :
    bankDrainComplete c s = wrC mcsBankState_bank0 c 2 s := by
  unfold bankDrainComplete
  rw [if_pos h]
  dsimp only
  rw [if_pos ⟨h, hr⟩]
  rfl

theorem bankDrainComplete_second {c : Nat} {s : State} (h0 : bankState c 0 s ≠ 4) (h : bankState c 1 s = 4) (hr : runningOn c 1 s = false) :
    bankDrainComplete c s = wrC mcsBankState_bank1 c 2 s := by
  unfold bankDrainComplete
  rw [if_neg h0]
  dsimp only
  rw [if_pos ⟨h, hr⟩]
  rfl

/-! ### A comparison with the golden copy -/

theorem compareNext_of_within {c k : Nat} {s : State} (h : k ≠ 16383) (h1 : ¬ (k = 8191 ∧ bankState c 1 s ≤ 1)) :
    compareNext c k s = putStore c { store c s with comparePos := (k + 1) % 16384 } s := by
  unfold compareNext
  rw [if_neg fun hk => hk.elim h fun hk => h1 ⟨hk.1.symm, hk.2⟩]
  rfl

theorem goldenCompare_of_place {c k : Nat} {s : State} (hp : comparePlace c s = some k) (hg : goldenReadable c (k / 8192) s = true) :
    goldenCompare c none s = compareNext c k (compareWord c k s) := by
  simp [goldenCompare, hp, hg]

theorem compareWord_of_equal {c k : Nat} {s : State} (h : sget zeroDefault (store c s).words k = sget zeroDefault (store c s).golden k) :
    compareWord c k s = s := if_pos h

theorem compareWord_of_different {c k : Nat} {s : State} (h : sget zeroDefault (store c s).words k ≠ sget zeroDefault (store c s).golden k) :
    ∃ u es, compareWord c k s = { u with fen := { u.fen with engines := es } } ∧ Asserted mcsGoldenMismatch u ∧
      Changes [keyOfField mcsGoldenStatus_mismatches 0 c] [] (modStore c (rewriteWord k) s) u := by
  obtain ⟨es, hes⟩ := resumeEngines_engines c (· == k)
    (raiseC mcsGoldenMismatch c (satX mcsGoldenStatus_mismatches 0 c 1 (modStore c (rewriteWord k) s)))
  refine ⟨_, es, (if_neg h).trans hes, raiseC_asserted _ _ (by decide), ?_⟩
  exact (satX_changes _ _ _ _ _ (List.mem_singleton.2 rfl)).events (raiseC_onlyEvents _ _ _)

theorem goldenCompare_of_different {c k : Nat} {s : State} (hp : comparePlace c s = some k) (hg : goldenReadable c (k / 8192) s = true)
    (hk : k ≠ 16383) (hk1 : ¬ (k = 8191 ∧ bankState c 1 s ≤ 1))
    (hd : sget zeroDefault (store c s).words k ≠ sget zeroDefault (store c s).golden k) :
    Asserted mcsGoldenMismatch (goldenCompare c none s) ∧
      store c (goldenCompare c none s) = { rewriteWord k (store c s) with comparePos := (k + 1) % 16384 } ∧
      Changes [keyOfField mcsGoldenStatus_mismatches 0 c] [] { s with fen := (goldenCompare c none s).fen } (goldenCompare c none s) := by
  obtain ⟨u, es, hu, hev, hch⟩ := compareWord_of_different hd
  have hfen : u.fen = (modStore c (rewriteWord k) s).fen := hch.fen
  have hbank : bankState c 1 { u with fen := { u.fen with engines := es } } = bankState c 1 s := by
    have hne : keyOfField mcsBankState_bank1 0 c ∉ [keyOfField mcsGoldenStatus_mismatches 0 c] :=
      List.mem_singleton.not.2 (keyOfField_ne_of_off (by decide) c c)
    exact (hch.rdX (not_statKey_of_off (by decide) c) hne : rdX mcsBankState_bank1 0 c u = rdX mcsBankState_bank1 0 c _)
  have hstore : store c { u with fen := { u.fen with engines := es } } = rewriteWord k (store c s) := by
    have h1 : store c { u with fen := { u.fen with engines := es } } = store c u := rfl
    have h2 : store c u = store c (modStore c (rewriteWord k) s) := congrArg (fun x : Engines => sget (fun _ => ({} : Store)) x.stores c) hfen
    rw [h1, h2]
    exact store_putStore _ _ _
  rw [goldenCompare_of_place hp hg, hu, compareNext_of_within hk (by rw [hbank]; exact hk1), hstore]
  refine ⟨Asserted.of_evt hev rfl, store_putStore _ _ _, ?_⟩
  exact hch.with_fen _

/-! ### A digest check -/

theorem exec_goldenDigestCheck {c bank : Nat} (hc : c < 32) (hb : bank < 2) (ok : Bool) (s : State) :
    exec (.goldenDigestCheck c bank ok) s = .next (goldenDigestCheck c bank ok s) := guarded_of_true (decide_eq_true ⟨hc, hb⟩) _

theorem goldenDigestCheck_of_kept {c bank : Nat} {ok : Bool} {s : State} (hb : bank < 2) (h : ok = true ∨ bankState c bank s ≤ 1) :
    goldenDigestCheck c bank ok s = s := by
  have hmod : bank % 2 = bank := Nat.mod_eq_of_lt hb
  unfold goldenDigestCheck
  rw [hmod]
  exact if_pos (h.elim .inl fun hs => .inr (.inl hs))

theorem foldOver_id {α : Type} {l : List α} {g : α → State → State} {s : State} (h : ∀ x ∈ l, g x s = s) : foldOver l g s = s := by
  induction l with
  | nil => rfl
  | cons x l ih =>
    rw [foldOver_cons, h x List.mem_cons_self]
    exact ih fun y hy => h y (List.mem_cons_of_mem _ hy)

theorem dropWaiting_of_none {c b : Nat} {s : State} (h : ∀ j < 16, waitsReload (16 * c + j) b s = false) : dropWaiting c b s = s := by
  unfold dropWaiting
  refine foldOver_id fun j hj => ?_
  cases runningItem (16 * c + j) s with
  | none => rfl
  | some p => exact if_neg (by rw [h j (List.mem_range.1 hj)]; decide)

/-- The state with a golden copy marked unreadable. -/
def withBadGold (c bank : Nat) (s : State) : State := raiseC mcsGoldenUnreadable c (putStore c { store c s with badGold := bank :: (store c s).badGold } s)

theorem withBadGold_fen (c bank : Nat) (s : State) :
    (withBadGold c bank s).fen = { s.fen with stores := sset (fun _ => ({} : Store)) s.fen.stores c { store c s with badGold := bank :: (store c s).badGold } } :=
  (raiseC_onlyEvents _ _ _).fen

theorem waitsReload_withBadGold {c bank e b : Nat} {s : State} (he : e / 16 = c) : waitsReload e b (withBadGold c bank s) = waitsReload e b s := by
  have hfen := withBadGold_fen c bank s
  have heng : engine e (withBadGold c bank s) = engine e s := by unfold engine; rw [hfen]
  have hmark (b' w : Nat) : markedWord (e / 16) b' w (withBadGold c bank s) = markedWord (e / 16) b' w s := by
    unfold markedWord store
    rw [hfen, he]
    dsimp only
    rw [sget_sset_same]
    rfl
  unfold waitsReload
  rw [heng]
  simp only [hmark]

theorem goldenDigestCheck_of_bad {c bank : Nat} {s : State} (hb : bank < 2) (hs : 2 ≤ bankState c bank s) (hg : goldenReadable c bank s = true)
    (hl : liveBank c s ≠ bank) (hw : ∀ j < 16, waitsReload (16 * c + j) bank s = false) :
    goldenDigestCheck c bank false s = withBadGold c bank s := by
  have hmod : bank % 2 = bank := Nat.mod_eq_of_lt hb
  have hany : (List.range 16).any (fun j => waitsReload (16 * c + j) bank s) = false := by
    rw [List.any_eq_false]
    intro j hj
    rw [hw j (List.mem_range.1 hj)]
    decide
  have hact : ¬ ((false = true) ∨ bankState c bank s ≤ 1 ∨ goldenReadable c bank s = false) := by
    rw [hg]
    simp
    omega
  unfold goldenDigestCheck
  rw [hmod]
  dsimp only
  rw [if_neg hact, if_neg (by rw [hany]; simp; intro h; exact absurd h.symm hl)]
  refine (dropWaiting_of_none fun j hj => ?_).trans rfl
  exact (waitsReload_withBadGold (by omega)).trans (hw j hj)

/-! ### A word read back -/

theorem mcsWordLoad_store {w : Window} {v : Word} {s : State} (h : bit v.toNat 31 = false) :
    mcsWordLoad w v s = wrC mcsWordAddr_bank (winIdx w) (wordField v 13 1) (wrC mcsWordAddr_word (winIdx w) (wordField v 0 13) s) := by
  unfold mcsWordLoad
  dsimp only
  rw [if_neg (by rw [h]; decide)]

/-- The six low words of a microword. -/
def lowWords (i x : Nat) (s : State) : State := foldOver (List.range 6) (fun k t => wrX mcsWordData_data k i (bitsOf x (32 * k) 32) t) s

theorem wrX_run_other {f g : Fld} {c j d : Nat} {vs : Nat → Nat} {l : List Nat} (h : ∀ k ∈ l, offsApart f k g j = true) (s : State) :
    rdX g j d (foldOver l (fun k t => wrX f k c (vs k) t) s) = rdX g j d s := by
  induction l generalizing s with
  | nil => rfl
  | cons k l ih => exact (ih (fun x hx => h x (List.mem_cons_of_mem _ hx)) _).trans (rdX_wrX_offs _ s (h k List.mem_cons_self))

/-- A run of writes to the elements of a field leaves in each element its own value. -/
theorem wrX_run_same {f : Fld} {c j : Nat} {vs : Nat → Nat} {l : List Nat} (hok : f.ok = true) (hnd : l.Nodup) (hj : j ∈ l)
    (h : ∀ k ∈ l, k ≠ j → offsApart f k f j = true) (s : State) :
    rdX f j c (foldOver l (fun k t => wrX f k c (vs k) t) s) = vs j % 2 ^ f.w := by
  induction l generalizing s with
  | nil => cases hj
  | cons k l ih =>
    obtain ⟨hk, hnd⟩ := List.nodup_cons.1 hnd
    rcases List.mem_cons.1 hj with rfl | hj
    · refine (wrX_run_other (fun x hx => h x (List.mem_cons_of_mem _ hx) fun he => hk (he ▸ hx)) _).trans ?_
      exact rdX_wrX_same f j c _ s hok
    · exact ih hnd hj (fun x hx => h x (List.mem_cons_of_mem _ hx)) _

theorem wrX_run_changes {f : Fld} {c : Nat} {vs : Nat → Nat} {ks : List Nat} {l : List Nat} (h : ∀ k ∈ l, keyOfField f k c ∈ ks) (s : State) :
    Changes ks [] s (foldOver l (fun k t => wrX f k c (vs k) t) s) := by
  induction l generalizing s with
  | nil => exact Changes.refl s
  | cons k l ih =>
    exact (wrX_changes f k c _ s (h k List.mem_cons_self)).trans (ih (fun x hx => h x (List.mem_cons_of_mem _ hx)) _)

theorem lowWords_apart : ∀ k < 7, ∀ j < 7, k ≠ j → offsApart mcsWordData_data k mcsWordData_data j = true := by decide

theorem rdX_lowWords {i x k : Nat} (hk : k < 6) (s : State) : rdX mcsWordData_data k i (lowWords i x s) = bitsOf x (32 * k) 32 := by
  refine (wrX_run_same (vs := fun k => bitsOf x (32 * k) 32) (by decide) List.nodup_range (List.mem_range.2 hk) (fun j hj hne => ?_) s).trans
    (Nat.mod_eq_of_lt (bitsOf_lt _ _ _))
  exact lowWords_apart j (Nat.lt_succ_of_lt (List.mem_range.1 hj)) k (Nat.lt_succ_of_lt hk) hne

/-- What a load shows: the six low words, and the top bits with the reload mark. -/
def wordShown (i x : Nat) (marked : Bool) (s : State) : State :=
  wrX mcsWordData_data 6 i (bitsOf x 192 4 + 16 * b2n marked) (lowWords i x s)

theorem mcsWordLoad_load {w : Window} {v : Word} {s : State} (h : bit v.toNat 31 = true) :
    mcsWordLoad w v s = wordShown (winIdx w) (wordAt (selChan w .mcs s) (wordField v 13 1) (wordField v 0 13) s)
      (markedWord (selChan w .mcs s) (wordField v 13 1) (wordField v 0 13) s)
      (wrC mcsWordAddr_bank (winIdx w) (wordField v 13 1) (wrC mcsWordAddr_word (winIdx w) (wordField v 0 13) s)) := by
  unfold mcsWordLoad
  dsimp only
  rw [if_pos h]
  rfl

theorem wordShown_spec (i x : Nat) (marked : Bool) (s : State) :
    (∀ k < 6, rdX mcsWordData_data k i (wordShown i x marked s) = bitsOf x (32 * k) 32) ∧
      rdX mcsWordData_data 6 i (wordShown i x marked s) = bitsOf x 192 4 + 16 * b2n marked ∧
      Changes ((List.range 7).map (fun k => keyOfField mcsWordData_data k i)) [] s (wordShown i x marked s) := by
  have hkey (k : Nat) (hk : k < 7) : keyOfField mcsWordData_data k i ∈ (List.range 7).map (fun k => keyOfField mcsWordData_data k i) :=
    List.mem_map.2 ⟨k, List.mem_range.2 hk, rfl⟩
  refine ⟨fun k hk => ?_, ?_, ?_⟩
  · exact (rdX_wrX_offs _ _ (lowWords_apart 6 (by decide) k (Nat.lt_succ_of_lt hk) (Nat.ne_of_gt hk))).trans (rdX_lowWords hk s)
  · refine (rdX_wrX_same _ _ _ _ _ (by decide)).trans (Nat.mod_eq_of_lt ?_)
    have htop := bitsOf_lt x 192 4
    have hmark : b2n marked < 2 := b2n_lt (b := marked) (n := 1) (by decide)
    have hw : 2 ^ mcsWordData_data.w = 4294967296 := by decide
    omega
  · refine Changes.trans ?_ (wrX_changes _ _ _ _ _ (hkey 6 (by decide)))
    exact wrX_run_changes (fun k hk => hkey k (Nat.lt_succ_of_lt (List.mem_range.1 hk))) s

theorem exec_mcsWordLoad_of_admits {w : Window} {s : State} (ha : Admits w .mcs s) (v : Word) :
    exec (.mcsWordLoad w v) s = .next (mcsWordLoad w v s) := congrArg Host.Outcome.next (writing_of_admits ha _)

/-- Settles O28, a lemma for each command. -/
theorem banksLoadDrainAndCompare : Obligations.BanksLoadDrainAndCompare := by
  unfold Obligations.BanksLoadDrainAndCompare
  intro s
  refine ⟨fun c b img hc hl hr hp => exec_bankLoadDone_of_start hc hl hr hp, fun c hc hs hr => ?_, fun c hc h0 hs hr => ?_,
    fun c k x hc hplace hread hx hk hk1 => ?_, fun c bank ok hc hb h => ?_, fun c bank hc hb hs hg hl hw => ?_, fun w v ha => ⟨fun h => ?_, fun h => ?_⟩⟩
  · exact (guarded_of_true (decide_eq_true hc) _).trans (congrArg _ (bankDrainComplete_first hs hr))
  · exact (guarded_of_true (decide_eq_true hc) _).trans (congrArg _ (bankDrainComplete_second h0 hs hr))
  · have hexec : exec (.goldenCompare c none) s = .next (goldenCompare c none s) := guarded_of_true (decide_eq_true hc) _
    subst hx
    refine ⟨fun heq => ?_, fun hne => ?_⟩
    · rw [hexec, goldenCompare_of_place hplace hread, compareWord_of_equal heq, compareNext_of_within hk hk1]
    · obtain ⟨hev, hstore, hch⟩ := goldenCompare_of_different hplace hread hk hk1 hne
      exact ⟨_, hexec, hev, hstore, hch⟩
  · rw [exec_goldenDigestCheck hc hb, goldenDigestCheck_of_kept hb h]
  · rw [exec_goldenDigestCheck hc hb, goldenDigestCheck_of_bad hb hs hg hl hw]
    rfl
  · rw [exec_mcsWordLoad_of_admits ha, mcsWordLoad_store h]
  · obtain ⟨hlow, htop, hch⟩ := wordShown_spec (winIdx w) (wordAt (selChan w .mcs s) (wordField v 13 1) (wordField v 0 13) s)
      (markedWord (selChan w .mcs s) (wordField v 13 1) (wordField v 0 13) s)
      (wrC mcsWordAddr_bank (winIdx w) (wordField v 13 1) (wrC mcsWordAddr_word (winIdx w) (wordField v 0 13) s))
    refine ⟨_, _, (exec_mcsWordLoad_of_admits ha v).trans (congrArg _ (mcsWordLoad_load h)), rfl, hlow, htop, ?_⟩
    refine Changes.trans ?_ (hch.mono (fun _ h => List.mem_cons_of_mem _ h) fun _ h => h)
    exact (wrC_changes _ _ _ _ List.mem_cons_self).trans (wrC_changes _ _ _ _ List.mem_cons_self)

end Sys2Proof.Machine
end

section
/-! PROOFS. Serial lanes: the link sequence (R136 to R147). -/

namespace Sys2Proof.Machine

/-! ### What the values in effect and the targets decide -/

/-- Two states with the same values in effect and the same targets. -/
def SameConfig (s t : State) : Prop := t.fab.live = s.fab.live ∧ t.fab.targets = s.fab.targets

theorem SameConfig.trans {s t u : State} (h : SameConfig s t) (h' : SameConfig t u) : SameConfig s u := ⟨h'.1.trans h.1, h'.2.trans h.2⟩

theorem sameConfig_of_changes {ks cs : List Nat} {s t : State} (h : Changes ks cs s t) : SameConfig s t := ⟨h.live, h.targets⟩

theorem sameConfig_raiseC (e : Src) (c : Nat) (s : State) : SameConfig s (raiseC e c s) :=
  sameConfig_of_changes (OnlyEvents.changes (raiseC_onlyEvents e c s) (ks := []) (cs := []))

theorem sameConfig_wrC (f : Fld) (c v : Nat) (s : State) : SameConfig s (wrC f c v s) := ⟨rfl, rfl⟩

theorem sameConfig_refreshSynce (s : State) : SameConfig s (refreshSynce s) := by
  obtain ⟨x, h⟩ := refreshSynce_only s
  exact ⟨h.live, h.targets⟩

/-- What one pass recorded, cleared, and the lane's new state. -/
theorem sameConfig_setLane_clearPass (l v : Nat) (s : State) : SameConfig s (setLane l v (clearPass l s)) := ⟨rfl, rfl⟩

theorem SameConfig.cfX {s t : State} (h : SameConfig s t) (f : Fld) (i c : Nat) : cfX f i c t = cfX f i c s := by
  unfold Sys2Proof.Machine.cfX liveReg
  rw [h.1]

theorem SameConfig.cfC {s t : State} (h : SameConfig s t) (f : Fld) (c : Nat) : cfC f c t = cfC f c s := h.cfX f 0 c

theorem SameConfig.tgt {s t : State} (h : SameConfig s t) (x : Target) : tgt x t = tgt x s := by
  unfold Sys2Proof.Machine.tgt
  rw [h.2]

theorem SameConfig.chanOn {s t : State} (h : SameConfig s t) (b : Block) (c : Nat) : chanOn b c t = chanOn b c s := by
  unfold Sys2Proof.Machine.chanOn
  rw [h.tgt]

theorem SameConfig.chanRuns {s t : State} (h : SameConfig s t) (b : Block) (c : Nat) : chanRuns b c t = chanRuns b c s := by
  unfold Sys2Proof.Machine.chanRuns
  rw [h.tgt]

theorem SameConfig.chanAlive {s t : State} (h : SameConfig s t) (b : Block) (c : Nat) : chanAlive b c t = chanAlive b c s := by
  unfold Sys2Proof.Machine.chanAlive
  rw [h.tgt, h.chanRuns]

theorem SameConfig.portLanes {s t : State} (h : SameConfig s t) (p : Nat) : portLanes p t = portLanes p s := by
  unfold Sys2Proof.Machine.portLanes
  rw [h.cfC]

theorem SameConfig.portOfLane {s t : State} (h : SameConfig s t) (l : Nat) : portOfLane l t = portOfLane l s := by
  unfold Sys2Proof.Machine.portOfLane
  congr 1
  funext p
  rw [h.chanAlive, h.portLanes]

theorem SameConfig.groupLanes {s t : State} (h : SameConfig s t) (l : Nat) : groupLanes l t = groupLanes l s := by
  unfold Sys2Proof.Machine.groupLanes
  rw [h.portOfLane]
  cases Sys2Proof.Machine.portOfLane l s with
  | none => rfl
  | some p => simp only [h.portLanes]

theorem SameConfig.laneRequested {s t : State} (h : SameConfig s t) (l : Nat) : laneRequested l t = laneRequested l s := by
  unfold Sys2Proof.Machine.laneRequested
  rw [h.portOfLane, h.chanRuns]
  cases Sys2Proof.Machine.portOfLane l s with
  | none => rfl
  | some p => simp only [h.chanRuns]

theorem SameConfig.laneMode {s t : State} (h : SameConfig s t) (l : Nat) : laneMode l t = laneMode l s := h.cfC _ _

/-! ### Copies of a register in a channel -/

theorem rdC_raiseC {f : Fld} (c : Nat) (e : Src) (d : Nat) (s : State) (h : ¬ StatKey f.off) : rdC f c (raiseC e d s) = rdC f c s :=
  rdX_raiseC e d s (not_statKey_of_off (f := f) (i := 0) (by simpa using h) c)

theorem rdC_wrC_offs {f g : Fld} {c d : Nat} (v : Nat) (s : State) (h : offsApart f 0 g 0 = true) : rdC g d (wrC f c v s) = rdC g d s :=
  rdX_wrX_offs v s h

theorem rdC_refreshSynce {f : Fld} (c : Nat) (s : State) (h : ¬ StatKey f.off) : rdC f c (refreshSynce s) = rdC f c s :=
  rdX_refreshSynce s (not_statKey_of_off (f := f) (i := 0) (by simpa using h) c)

theorem laneState_raiseC (l : Nat) (e : Src) (d : Nat) (s : State) : laneState l (raiseC e d s) = laneState l s := rdC_raiseC l e d s (by decide)

/-! ### Sets of one lane -/

/-- A lane that is ON in normal mode and runs its sequence alone (R145). -/
structure LaneAlone (l : Nat) (s : State) : Prop where
  lane : l < 256
  on : chanOn .lan l s = true
  mode : laneMode l s = 0
  alone : groupLanes l s = [l]

theorem LaneAlone.of_sameConfig {l : Nat} {s t : State} (h : LaneAlone l s) (hc : SameConfig s t) : LaneAlone l t :=
  ⟨h.lane, (hc.chanOn _ _).trans h.on, (hc.laneMode _).trans h.mode, (hc.groupLanes _).trans h.alone⟩

theorem LaneAlone.notTie {l : Nat} {s : State} (h : LaneAlone l s) : isTieLane l = false := decide_eq_false (by have := h.lane; omega)

theorem onLane_of_true {l : Nat} {c : Bool} {s : State} (hl : l < 288) (hon : chanOn .lan l s = true) (hc : c = true) (f : State → State) :
    onLane l c f s = .next (f s) :=
  (guarded_of_true (decide_eq_true hl) _).trans (congrArg _ (onlyIf_of_true (by rw [hc, hon]; rfl) f s))

theorem LaneAlone.onLane {l : Nat} {s : State} (h : LaneAlone l s) {c : Bool} (hc : c = true) (f : State → State) :
    onLane l c f s = .next (f s) := onLane_of_true (Nat.lt_of_lt_of_le h.lane (by decide)) h.on hc f

theorem foldOver_single {α : Type} (x : α) (g : α → State → State) (s : State) : foldOver [x] g s = g x s := rfl

theorem allSignals_single (l : Nat) (s : State) : allSignals [l] s = decide (rdC lanLinkStatus_signalPresent l s = 1) := by
  simp [allSignals]

theorem allIn_single (v l : Nat) (s : State) : allIn v [l] s = decide (laneState l s = v) := by simp [allIn]

theorem LaneAlone.enterSequence {l : Nat} {s : State} (h : LaneAlone l s) (hr : laneRequested l s = true) :
    enterSequence [l] l s = firstStep [l] l s := by
  have hm : ¬ laneMode l s ≠ 0 := not_not.2 h.mode
  simp [Sys2Proof.Machine.enterSequence, h.on, h.mode, hr]

theorem LaneAlone.holdLanes {l : Nat} {s : State} (h : LaneAlone l s) :
    holdLanes [l] s = refreshSynce (setLane l (if laneRequested l s then 1 else 0) (clearPass l s)) := by
  have hold : holdLane l s = setLane l (if laneRequested l s then 1 else 0) (clearPass l s) := by
    simp [holdLane, h.on, h.mode]
  exact congrArg refreshSynce hold

/-! ### Autonegotiation -/

theorem resolveAn_of_none {p : Nat} {u : State} (h : resolveHcd p u = none) :
    resolveAn p u = raiseC lanAnNoHcd p { u with lanes := { u.lanes with noHcd := sset (fun _ => false) u.lanes.noHcd p true } } := by
  simp [resolveAn, h]

theorem LaneAlone.resolveAn {l i : Nat} {u : State} (h : LaneAlone l u) (hp : portLanes l u = [l]) (hi : resolveHcd l u = some i)
    (hs : cfC prtPortCfg_speed l u ≠ 2) :
    resolveAn l u = setLane l 4 (wrC lanLinkStatus_liveRate l (rateOf (cfC prtPortCfg_speed l u))
      (wrC prtLinkStatus_fecActive l (fecInUse l u) (raiseC lanAnComplete l (wrC lanLinkStatus_hcd l i u)))) := by
  have hcfg : SameConfig u (raiseC lanAnComplete l (wrC lanLinkStatus_hcd l i u)) := (sameConfig_wrC _ _ _ u).trans (sameConfig_raiseC _ _ _)
  have hfec : fecInUse l (raiseC lanAnComplete l (wrC lanLinkStatus_hcd l i u)) = fecInUse l u := by
    unfold fecInUse
    rw [hcfg.cfC, if_neg fun hx => hs hx.1, if_neg fun hx => hs hx.1, hcfg.cfC]
  have hshow : showFec l (raiseC lanAnComplete l (wrC lanLinkStatus_hcd l i u)) =
      wrC prtLinkStatus_fecActive l (fecInUse l u) (raiseC lanAnComplete l (wrC lanLinkStatus_hcd l i u)) := by
    unfold showFec
    rw [hfec]
  have halone := h.of_sameConfig (hcfg.trans (sameConfig_wrC prtLinkStatus_fecActive l (fecInUse l u) _))
  have hmis : fecMismatch l u = false := by simp [fecMismatch, hs]
  simp [Sys2Proof.Machine.resolveAn, hi, hp, hmis, foldOver_single, hshow, halone.on, halone.mode]

theorem exec_anPageReceived_of_an {l page : Nat} {base : Bool} {s : State} (h : LaneAlone l s) (hst : laneState l s = 2)
    (hp : portOfLane l s = some l) (hn : sget (fun _ => false) s.lanes.noHcd l = false) :
    exec (.anPageReceived l page base) s = .next (anPage l page base s) := by
  refine (h.onLane (by simp [h.lane, hp, hst, hn]) _).trans ?_
  rw [if_pos hst]

theorem exec_anPageReceived_of_data {l page : Nat} {base : Bool} {s : State} (h : LaneAlone l s) (hst : laneState l s = 6)
    (hp : portOfLane l s = some l) (hs : cfC prtPortCfg_speed l s = 0) (hc : cfC prtPortCfg_c37An l s = 1) :
    exec (.anPageReceived l page base) s = .next (c37Page l page s) := by
  refine (h.onLane (by simp [h.lane, hp, hst, runsC37, hs, hc]) _).trans ?_
  rw [if_neg (by rw [hst]; decide)]

theorem c37Page_spec (l page : Nat) (s : State) :
    c37Done l (c37Page l page s) = (c37Done l s || !bit page 15) ∧
      c37Page l page s = { s with lanes := { s.lanes with c37 := (c37Page l page s).lanes.c37 } } := by
  unfold c37Page
  cases hb : bit page 15
  · rw [if_neg (by decide)]
    exact ⟨by simp [c37Done, sget_sset_same], rfl⟩
  · rw [if_pos rfl]
    exact ⟨by simp, rfl⟩

/-! ### Training, adaptation and hold-down -/

/-- A lane that has trained, with the precoding it will use. -/
def laneTrained (l : Nat) (s : State) : State :=
  refreshSynce (raiseC lanTrainComplete l (wrC lanLinkStatus_trained l 1 (wrC lanLinkStatus_cdrLock l 1
    (wrC lanLinkStatus_liveTxPrecode l 0 (wrC lanLinkStatus_liveRxPrecode l 0 s)))))

theorem rdC_trained_laneTrained (l : Nat) (s : State) : rdC lanLinkStatus_trained l (laneTrained l s) = 1 := by
  unfold laneTrained
  rw [rdC_refreshSynce _ _ (by decide), rdC_raiseC _ _ _ _ (by decide)]
  exact rdX_wrX_same _ _ _ _ _ (by decide)

theorem LaneAlone.trainingComplete {l : Nat} {s : State} (h : LaneAlone l s) (txPre : Bool) (hr : rdC lanLinkStatus_liveRate l s < 3) :
    trainingComplete l [] txPre s = setLane l 5 (laneTrained l s) := by
  have hpam : decide (3 ≤ rdC lanLinkStatus_liveRate l s) = false := decide_eq_false (by omega)
  have htrained := rdC_trained_laneTrained l s
  have hdone : Sys2Proof.Machine.trainingComplete l [] txPre s =
      if [l].all (fun k => decide (rdC lanLinkStatus_trained k (laneTrained l s) = 1)) then
        foldOver [l] (fun k a => setLane k (if isTieLane k then 10 else 5) a) (laneTrained l s)
      else laneTrained l s := by
    unfold Sys2Proof.Machine.trainingComplete
    rw [h.alone]
    dsimp only
    rw [hpam, Bool.and_false, h.notTie]
    rfl
  rw [hdone, if_pos (by simp [htrained]), foldOver_single, h.notTie]
  rfl

theorem LaneAlone.trainingTimeout {l : Nat} {s : State} (h : LaneAlone l s) (ht : rdC lanLinkStatus_trained l s = 0) :
    trainingTimeout l s = refreshSynce (setLane l (if laneRequested l s then 1 else 0)
      (clearPass l (raiseC lanTrainFail l (satX lanLinkCounts_trainFail 0 l 1 s)))) := by
  have hcfg : SameConfig s (raiseC lanTrainFail l (satX lanLinkCounts_trainFail 0 l 1 s)) :=
    SameConfig.trans (t := satX lanLinkCounts_trainFail 0 l 1 s) ⟨rfl, rfl⟩ (sameConfig_raiseC _ _ _)
  have hfilter : [l].filter (fun k => decide (rdC lanLinkStatus_trained k s = 0)) = [l] := by simp [ht]
  unfold Sys2Proof.Machine.trainingTimeout
  rw [h.alone]
  dsimp only
  rw [hfilter]
  rw [foldOver_single, (h.of_sameConfig hcfg).holdLanes, hcfg.laneRequested]

theorem LaneAlone.adaptComplete {l : Nat} {s : State} (h : LaneAlone l s) (r : AdaptResult) :
    adaptComplete l [r] s = refreshSynce (raiseC lanLinkUp l (setLane l 6 (wrC lanLinkStatus_cdrLock l 1 (storeAdapt l r s)))) := by
  unfold Sys2Proof.Machine.adaptComplete
  rw [h.alone]
  rfl

theorem LaneAlone.holddownExpire {l : Nat} {s : State} (h : LaneAlone l s) (hst : laneState l s = 1) (hr : laneRequested l s = true) :
    holddownExpire l s = refreshSynce (firstStep [l] l s) := by
  have hfilter : [l].filter (fun k => decide (laneState k s = 1)) = [l] := by simp [hst]
  unfold Sys2Proof.Machine.holddownExpire
  rw [h.alone]
  dsimp only
  rw [hfilter]
  rw [foldOver_single, h.enterSequence hr]

/-! ### Signal detect -/

theorem LaneAlone.signalPresent {l : Nat} {s : State} (h : LaneAlone l s) :
    signalPresent l s =
      if laneState l s = 7 then setLane l 5 (raiseC lanSignalRestored l (wrC lanLinkStatus_signalPresent l 1 s))
      else if laneState l s = 8 then setTaps l 0 8 (setLane l 9 (raiseC lanSignalRestored l (wrC lanLinkStatus_signalPresent l 1 s)))
      else raiseC lanSignalRestored l (wrC lanLinkStatus_signalPresent l 1 s) := by
  have hcfg : SameConfig s (raiseC lanSignalRestored l (wrC lanLinkStatus_signalPresent l 1 s)) :=
    (sameConfig_wrC _ _ _ s).trans (sameConfig_raiseC _ _ _)
  have hsig : rdC lanLinkStatus_signalPresent l (raiseC lanSignalRestored l (wrC lanLinkStatus_signalPresent l 1 s)) = 1 :=
    (rdC_raiseC l _ _ _ (by decide)).trans (rdX_wrX_same _ _ _ _ _ (by decide))
  have hst : laneState l (raiseC lanSignalRestored l (wrC lanLinkStatus_signalPresent l 1 s)) = laneState l s :=
    (laneState_raiseC l _ _ _).trans (rdX_wrX_bits _ s (by decide))
  unfold Sys2Proof.Machine.signalPresent
  simp only [hcfg.groupLanes, h.alone, allSignals_single, allIn_single, hsig, hst, foldOver_single, decide_true, Bool.true_and, decide_eq_true_eq]

/-- Signal lost and told. -/
def signalGone (l : Nat) (s : State) : State := raiseC lanSignalLost l (wrC lanLinkStatus_signalPresent l 0 s)

theorem sameConfig_signalGone (l : Nat) (s : State) : SameConfig s (signalGone l s) := (sameConfig_wrC _ _ _ s).trans (sameConfig_raiseC _ _ _)

theorem laneState_signalGone (l : Nat) (s : State) : laneState l (signalGone l s) = laneState l s :=
  (laneState_raiseC l _ _ _).trans (rdX_wrX_bits _ s (by decide))

theorem signalLost_of_restart {l : Nat} {s : State} (h : lossRestarts (laneState l s) = true) (ht : isTieLane l = false) :
    signalLost l s = dropLanes l (signalGone l s) := by
  simp [signalLost, h, ht, signalGone]

theorem laneDown_of_not_up {l : Nat} {s : State} (h6 : laneState l s ≠ 6) (h12 : laneState l s ≠ 12) : laneDown l s = s :=
  if_neg fun h => h.elim h6 h12

theorem LaneAlone.dropLanes_of_none {l : Nat} {s : State} (h : LaneAlone l s) (hp : portOfLane l s = none) (hst : laneState l s = 4) :
    dropLanes l s = refreshSynce (setLane l 0 (clearPass l s)) := by
  have hreq : laneRequested l s = false := by simp [laneRequested, h.notTie, hp]
  have hdown : laneDown l s = s := laneDown_of_not_up (by rw [hst]; decide) (by rw [hst]; decide)
  have hhold := h.holdLanes
  rw [hreq] at hhold
  unfold Sys2Proof.Machine.dropLanes
  simp [h.notTie, hp, h.alone, foldOver_single, hdown, hhold]

theorem LaneAlone.dropLanes_of_port {l p : Nat} {s : State} (h : LaneAlone l s) (hp : portOfLane l s = some p) (hr : chanRuns .prt p s = true)
    (hup : rdC prtLinkStatus_linkUp p s = 0) (hst : laneState l s = 4) :
    dropLanes l s = refreshSynce (setLane l 1 (clearPass l (wrC prtLinkStatus_pcsLock p 0 s))) := by
  have hcfg : SameConfig s (wrC prtLinkStatus_pcsLock p 0 s) := sameConfig_wrC _ _ _ s
  have hreq : laneRequested l (wrC prtLinkStatus_pcsLock p 0 s) = true := by
    rw [hcfg.laneRequested]
    simp [laneRequested, h.notTie, hp, hr]
  have hst' : laneState l (wrC prtLinkStatus_pcsLock p 0 s) = 4 := (rdC_wrC_offs _ _ (by decide)).trans hst
  have hdown : laneDown l (wrC prtLinkStatus_pcsLock p 0 s) = wrC prtLinkStatus_pcsLock p 0 s :=
    laneDown_of_not_up (by rw [hst']; decide) (by rw [hst']; decide)
  have hport : portDown p s = s := if_pos hup
  have hhold := (h.of_sameConfig hcfg).holdLanes
  rw [hreq] at hhold
  unfold Sys2Proof.Machine.dropLanes
  simp [h.notTie, hp, h.alone, foldOver_single, hport, hdown, hhold]

theorem LaneAlone.exec_signalLost {l : Nat} {s : State} (h : LaneAlone l s) (hs : rdC lanLinkStatus_signalPresent l s = 1) :
    exec (.signalLost l) s = .next (if lossRestarts (laneState l s) then laneGone l (signalLost l s) else signalLost l s) :=
  h.onLane (decide_eq_true hs) _

theorem LaneAlone.signalLost_idle {l : Nat} {s : State} (h : LaneAlone l s) (hs : rdC lanLinkStatus_signalPresent l s = 1) (hst : laneState l s = 0) :
    exec (.signalLost l) s = .next (wrC lanLinkStatus_signalPresent l 0 s) := by
  have hloss : ¬ lossRestarts (laneState l s) = true := by rw [hst]; decide
  rw [h.exec_signalLost hs, if_neg hloss]
  exact congrArg _ (if_neg hloss)

theorem LaneAlone.signalLost_free {l : Nat} {s : State} (h : LaneAlone l s) (hs : rdC lanLinkStatus_signalPresent l s = 1) (hst : laneState l s = 4)
    (hp : portOfLane l s = none) : exec (.signalLost l) s = .next (refreshSynce (setLane l 0 (clearPass l (signalGone l s)))) := by
  have hloss : lossRestarts (laneState l s) = true := by rw [hst]; decide
  have hcfg := sameConfig_signalGone l s
  have hdrop := (h.of_sameConfig hcfg).dropLanes_of_none ((hcfg.portOfLane l).trans hp) ((laneState_signalGone l s).trans hst)
  rw [h.exec_signalLost hs, if_pos hloss, signalLost_of_restart hloss h.notTie, hdrop]
  have hport : portOfLane l (refreshSynce (setLane l 0 (clearPass l (signalGone l s)))) = none :=
    ((sameConfig_refreshSynce _).portOfLane l).trans (((sameConfig_setLane_clearPass l 0 _).portOfLane l).trans ((hcfg.portOfLane l).trans hp))
  simp [laneGone, hport]

theorem linkGone_of_runs {p : Nat} {s : State} (h : chanRuns .prt p s = true) : linkGone p s = s := by
  refine if_neg fun hd => ?_
  simp [chanRuns, hd.1] at h

theorem LaneAlone.signalLost_port {l p : Nat} {s : State} (h : LaneAlone l s) (hs : rdC lanLinkStatus_signalPresent l s = 1) (hst : laneState l s = 4)
    (hp : portOfLane l s = some p) (hr : chanRuns .prt p s = true) (hup : rdC prtLinkStatus_linkUp p s = 0) :
    exec (.signalLost l) s = .next (refreshSynce (setLane l 1 (clearPass l (wrC prtLinkStatus_pcsLock p 0 (signalGone l s))))) := by
  have hloss : lossRestarts (laneState l s) = true := by rw [hst]; decide
  have hcfg := sameConfig_signalGone l s
  have hup' : rdC prtLinkStatus_linkUp p (signalGone l s) = 0 :=
    (rdC_raiseC p _ _ _ (by decide)).trans ((rdC_wrC_offs _ s (by decide)).trans hup)
  have hdrop := (h.of_sameConfig hcfg).dropLanes_of_port ((hcfg.portOfLane l).trans hp) ((hcfg.chanRuns _ _).trans hr) hup'
    ((laneState_signalGone l s).trans hst)
  rw [h.exec_signalLost hs, if_pos hloss, signalLost_of_restart hloss h.notTie, hdrop]
  have hend : SameConfig s (refreshSynce (setLane l 1 (clearPass l (wrC prtLinkStatus_pcsLock p 0 (signalGone l s))))) :=
    (hcfg.trans (sameConfig_wrC prtLinkStatus_pcsLock p 0 _)).trans ((sameConfig_setLane_clearPass l 1 _).trans (sameConfig_refreshSynce _))
  have hport := (hend.portOfLane l).trans hp
  have hgone := linkGone_of_runs ((hend.chanRuns .prt p).trans hr)
  simp [laneGone, hport, hgone]

/-- Settles O29, a lemma for each command. -/
theorem lanesNegotiateTrainAndRise : Obligations.LanesNegotiateTrainAndRise := by
  unfold Obligations.LanesNegotiateTrainAndRise
  intro l s hl hon hmode hgroup
  have h : LaneAlone l s := ⟨hl, hon, hmode, hgroup⟩
  refine ⟨fun page u hst hp hpl hn hbit hu => ?_, fun page base hst hp hs hc => ?_, fun hst hn hr => ?_, fun txPre hst ht hr => ?_, fun hst ht => ?_,
    fun r hst hs => ?_, fun hs => ?_, fun hs => ⟨fun hst => ?_, fun hst hp => ?_, fun p hst hp hr hup => ?_⟩, fun hst hr => ?_⟩
  · have hcfg : SameConfig s u := hu ▸ (sameConfig_wrC lanAnLpHi_page l (page / 2 ^ 32) s).trans (sameConfig_wrC lanAnLpLo_page l page _)
    have hpage : anPage l page true s = resolveAn l u := by simp [anPage, hbit, hu]
    have hexec := exec_anPageReceived_of_an (page := page) (base := true) h hst hp hn
    rw [hpage] at hexec
    refine ⟨fun hnone => ?_, fun i hi hspeed => ?_⟩
    · rw [hexec, resolveAn_of_none hnone]
    · rw [hexec, (h.of_sameConfig hcfg).resolveAn ((hcfg.portLanes l).trans hpl) hi (by rw [hcfg.cfC]; exact hspeed), hcfg.cfC]
  · obtain ⟨hdone, hsame⟩ := c37Page_spec l page s
    exact ⟨_, exec_anPageReceived_of_data h hst hp hs hc, hdone, hsame⟩
  · refine (h.onLane (by simp [hl, hst, hn]) _).trans (congrArg _ ?_)
    rw [h.alone]
    exact congrArg refreshSynce (h.enterSequence hr)
  · exact (h.onLane (by simp [hst, ht]) _).trans (congrArg _ (h.trainingComplete txPre hr))
  · exact (h.onLane (by simp [hst]) _).trans (congrArg _ (h.trainingTimeout ht))
  · exact (h.onLane (by simp [h.alone, allIn_single, allSignals_single, hst, hs]) _).trans (congrArg _ (h.adaptComplete r))
  · exact (h.onLane (decide_eq_true hs) _).trans (congrArg _ h.signalPresent)
  · exact h.signalLost_idle hs hst
  · exact h.signalLost_free hs hst hp
  · exact h.signalLost_port hs hst hp hr hup
  · exact (h.onLane (decide_eq_true hst) _).trans (congrArg _ (h.holddownExpire hst hr))

end Sys2Proof.Machine
end

section
/-! PROOFS. Serial lanes: commas, background work and calibration visits (R142, R143, R149 to R153). -/

namespace Sys2Proof.Machine

/-! ### Commas -/

/-- A lane that found its comma, with what foreground adaptation found. -/
def commaShown (l offset : Nat) (lock : LaneLock) (s : State) : State :=
  raiseC lanCommaLock l (wrC lanLinkStatus_commaLock l 1
    (wrC lanTieAlign_commaOffset l offset (wrC lanTieAlign_skew l (min lock.skew 511) (storeAdapt l lock.adapt s))))

theorem rdC_commaLock_storeAdapt (k l : Nat) (a : AdaptResult) (s : State) :
    rdC lanLinkStatus_commaLock k (storeAdapt l a s) = rdC lanLinkStatus_commaLock k s := by
  unfold storeAdapt storeDelay
  dsimp only
  rw [rdC_wrC_offs _ _ (by decide), rdC_wrC_offs _ _ (by decide), rdC_wrC_offs _ _ (by decide), rdC_wrC_offs _ _ (by decide),
    rdC_wrC_offs _ _ (by decide)]
  exact rdX_with_lanes _ _ _ _ _

theorem rdC_commaLock_commaShown {k l : Nat} (h : k ≠ l) (offset : Nat) (lock : LaneLock) (s : State) :
    rdC lanLinkStatus_commaLock k (commaShown l offset lock s) = rdC lanLinkStatus_commaLock k s := by
  refine (rdC_raiseC k _ _ _ (by decide)).trans ((rdX_wrX_copy _ _ h (by decide)).trans ?_)
  refine (rdC_wrC_offs _ _ (by decide)).trans ((rdC_wrC_offs _ _ (by decide)).trans ?_)
  exact rdC_commaLock_storeAdapt k l _ s

/-- The link waits while another of its lanes has no lock. -/
theorem commaLock_of_waiting {l k offset : Nat} {lock : LaneLock} {s : State} (hk : k ∈ groupLanes l s) (hne : k ≠ l)
    (h0 : rdC lanLinkStatus_commaLock k s = 0) : commaLock l offset lock s = commaShown l offset lock s := by
  refine if_neg fun hall => ?_
  have h1 := of_decide_eq_true (List.all_eq_true.1 hall k hk)
  have h2 := (rdC_commaLock_commaShown hne offset lock s).symm.trans h1
  omega

theorem commaLockLost_of_low {l : Nat} {s : State} (h : rdC tieLinkStatus_state ((l - 256) / 4) s ≤ 1) :
    commaLockLost l s = foldOver (groupLanes l s) (fun k a => setLane k 10 a) (raiseC lanCommaLockLost l (wrC lanLinkStatus_commaLock l 0 s)) := by
  have hst : rdC tieLinkStatus_state ((l - 256) / 4) (raiseC lanCommaLockLost l (wrC lanLinkStatus_commaLock l 0 s)) =
      rdC tieLinkStatus_state ((l - 256) / 4) s := (rdC_raiseC _ _ _ _ (by decide)).trans (rdC_wrC_offs _ s (by decide))
  unfold commaLockLost
  dsimp only
  rw [if_neg (by rw [hst]; omega)]

/-! ### Background adaptation -/

theorem stepSigned_lt (d : StepDir) (v : Nat) : stepSigned d v < 2 ^ 8 := by
  unfold stepSigned unsigned
  omega

theorem backgroundAdapt_spec (l : Nat) (ctle dfe : StepDir) (snr : Nat) (s : State) :
    rdC lanAdaptStatus_ctle l (backgroundAdapt l ctle dfe snr s) = stepCode 63 ctle (rdC lanAdaptStatus_ctle l s) % 64 ∧
      rdC lanAdaptStatus_dfe1 l (backgroundAdapt l ctle dfe snr s) = stepSigned dfe (rdC lanAdaptStatus_dfe1 l s) ∧
      rdC lanAdaptStatus_snr l (backgroundAdapt l ctle dfe snr s) = snr % 2 ^ lanAdaptStatus_snr.w ∧
      rdC lanAdaptStatus_updates l (backgroundAdapt l ctle dfe snr s) =
        (rdC lanAdaptStatus_updates l s + 1) % 2 ^ lanAdaptStatus_updates.w ∧
      Changes [keyOfField lanAdaptStatus_ctle 0 l] [] s (backgroundAdapt l ctle dfe snr s) := by
  have hsame (f g : Fld) (v : Nat) (t : State) (h : bitsApart f g = true) : rdC g l (wrC f l v t) = rdC g l t := rdX_wrX_bits v t h
  unfold backgroundAdapt
  refine ⟨rdX_wrX_same _ _ _ _ _ (by decide), ?_, ?_, ?_, ?_⟩
  · rw [hsame _ _ _ _ (by decide)]
    exact rdX_wrX_fits (by decide) (stepSigned_lt _ _)
  · rw [hsame _ _ _ _ (by decide), hsame _ _ _ _ (by decide)]
    exact rdX_wrX_same _ _ _ _ _ (by decide)
  · rw [hsame _ _ _ _ (by decide), hsame _ _ _ _ (by decide), hsame _ _ _ _ (by decide)]
    exact rdX_wrX_same _ _ _ _ _ (by decide)
  · have hk (f : Fld) (h : f.off + 0 * f.stride = lanAdaptStatus_ctle.off + 0 * lanAdaptStatus_ctle.stride) :
        keyOfField f 0 l ∈ [keyOfField lanAdaptStatus_ctle 0 l] := List.mem_singleton.2 (congrArg (fun o => rkey o l) h)
    refine Changes.trans ?_ (wrC_changes lanAdaptStatus_ctle _ _ _ (hk _ rfl))
    refine Changes.trans ?_ (wrC_changes lanAdaptStatus_dfe1 _ _ _ (hk _ rfl))
    exact (incX_changes lanAdaptStatus_updates _ _ _ (hk _ rfl)).trans (wrC_changes lanAdaptStatus_snr _ _ _ (hk _ rfl))

/-! ### Calibration visits -/

theorem calLane_of_off {l : Nat} {inRange : Bool} {s : State} (h : chanRuns .lan l s = false) : calLane l inRange s = s := if_pos (by rw [h]; rfl)

theorem calLane_of_good {l : Nat} {s : State} (h : chanRuns .lan l s = true) :
    calLane l true s = { s with lanes := { s.lanes with calRun := sset (fun _ => 0) s.lanes.calRun l 0 } } := by
  simp [calLane, h]

theorem calLane_of_third_miss {l : Nat} {s : State} (h : chanRuns .lan l s = true) (h2 : sget (fun _ => 0) s.lanes.calRun l = 2) :
    calLane l false s = raiseC lanCalFail l { s with lanes := { s.lanes with calRun := sset (fun _ => 0) s.lanes.calRun l 3 } } := by
  simp [calLane, h, h2]

theorem calVisit_of_within {c : Nat} {inRange : Bool} {s : State} (h : sget (fun _ => 0) s.lanes.visit c ≠ 71) :
    calVisit c inRange s =
      { calLane (chipletLane c (sget (fun _ => 0) s.lanes.visit c)) inRange s with
        lanes := { (calLane (chipletLane c (sget (fun _ => 0) s.lanes.visit c)) inRange s).lanes with
          visit := sset (fun _ => 0) (calLane (chipletLane c (sget (fun _ => 0) s.lanes.visit c)) inRange s).lanes.visit c
            ((sget (fun _ => 0) s.lanes.visit c + 1) % 72) } } := if_neg h

theorem exec_calVisit {c : Nat} {inRange : Bool} {s : State} (hc : c < 4) (hp : chipletPresent c s = true) (hon : blockOn .lan s = true) :
    exec (.calVisit c inRange) s = .next (calVisit c inRange s) :=
  (guarded_of_true (decide_eq_true hc) _).trans (congrArg _ (onlyIf_of_true (by rw [hp, hon]; rfl) _ s))

/-- The third miss in a row told, and the place moved on. -/
theorem calVisit_of_third_miss {c l : Nat} {s : State} (hl : l = chipletLane c (sget (fun _ => 0) s.lanes.visit c))
    (h : sget (fun _ => 0) s.lanes.visit c ≠ 71) (hr : chanRuns .lan l s = true) (h2 : sget (fun _ => 0) s.lanes.calRun l = 2) :
    Asserted lanCalFail (calVisit c false s) ∧ OnlyEvents { s with lanes := { s.lanes with
      calRun := sset (fun _ => 0) s.lanes.calRun l 3
      visit := sset (fun _ => 0) s.lanes.visit c ((sget (fun _ => 0) s.lanes.visit c + 1) % 72) } } (calVisit c false s) := by
  have hev := raiseC_onlyEvents lanCalFail l { s with lanes := { s.lanes with calRun := sset (fun _ => 0) s.lanes.calRun l 3 } }
  have hlanes := hev.lanes
  have has : Asserted lanCalFail (raiseC lanCalFail l { s with lanes := { s.lanes with calRun := sset (fun _ => 0) s.lanes.calRun l 3 } }) :=
    raiseC_asserted _ _ (by decide)
  rw [calVisit_of_within h, ← hl, calLane_of_third_miss hr h2]
  generalize raiseC lanCalFail l { s with lanes := { s.lanes with calRun := sset (fun _ => 0) s.lanes.calRun l 3 } } = u at *
  refine ⟨Asserted.of_evt has rfl, ?_⟩
  rw [hlanes]
  exact hev.with_lanes _

/-- Settles O30, a lemma for each command. -/
theorem lanesKeepWatch : Obligations.LanesKeepWatch := by
  unfold Obligations.LanesKeepWatch
  refine ⟨fun l s hl hon => ?_, fun c i s hc hp hon hi => ⟨fun hr => ?_, fun hr h71 => ⟨fun h2 => ?_, ?_⟩⟩, fun l s hl hr ht => ?_⟩
  · have hdo {c : Bool} (hc : c = true) (f : State → State) : onLane l c f s = .next (f s) := onLane_of_true hl hon hc f
    refine ⟨fun h => hdo (decide_eq_true h) _, fun h => hdo (decide_eq_true h) _, fun offset skew a k h h0 hk hne _ _ hk0 => ?_,
      fun h => hdo (decide_eq_true h) _, fun h h10 h12 hst _ => ?_, fun h => hdo (decide_eq_true h) _, fun ctle dfe snr h => ?_,
      fun h => hdo (decide_eq_true h) _, fun h hs => hdo (decide_eq_true ⟨h, hs⟩) _⟩
    · exact (hdo (decide_eq_true ⟨h, h0⟩) _).trans (congrArg _ (commaLock_of_waiting hk hne hk0))
    · exact (hdo (decide_eq_true ⟨h, h10, h12⟩) _).trans (congrArg _ (commaLockLost_of_low hst))
    · exact ⟨_, hdo (decide_eq_true h) _, backgroundAdapt_spec l ctle dfe snr s⟩
  · subst hi
    rw [exec_calVisit hc hp hon]
    simp only [calVisit, calLane_of_off hr]
  · subst hi
    exact ⟨_, exec_calVisit hc hp hon, calVisit_of_third_miss rfl h71 hr h2⟩
  · subst hi
    rw [exec_calVisit hc hp hon, calVisit_of_within h71, calLane_of_good hr]
  · exact (guarded_of_true (decide_eq_true hl) _).trans (congrArg _ (onlyIf_of_true (by rw [hr, ht]; rfl) _ s))

end Sys2Proof.Machine
end

section
/-! PROOFS. Test patterns and eye measurements (R155 to R158). -/

namespace Sys2Proof.Machine

/-! ### A counter that counts (R107) -/

/-- What adding to a counter leaves: its value modulo 2^64, its wrap bit if it wrapped, and nothing else. -/
theorem addCtr_spec (k d : Nat) (s : State) :
    sget (fun _ => 0) (addCtr k d s).1.fab.counters k = (sget (fun _ => 0) s.fab.counters k + d) % 2 ^ 64 ∧
      ((addCtr k d s).2 = true ↔ 2 ^ 64 ≤ sget (fun _ => 0) s.fab.counters k + d) ∧
      ((addCtr k d s).2 = true → Wrapped k (addCtr k d s).1) ∧ Changes [] [k] s (addCtr k d s).1 := by
  unfold addCtr
  dsimp only
  split
  · next h =>
    refine ⟨(sget_sset_same _ _ _ _).trans (Nat.mod_eq_of_lt h).symm, by simpa using h, fun hf => by simp at hf, ?_⟩
    exact putCtr_changes _ _ _ (List.mem_singleton.2 rfl)
  · next h =>
    have hput : Changes [] [k] s (putCtr k ((sget (fun _ => 0) s.fab.counters k + d) % 2 ^ 64) s) :=
      putCtr_changes _ _ _ (List.mem_singleton.2 rfl)
    refine ⟨sget_sset_same _ _ _ _, by simpa using h, fun _ => wrapped_putWrap _ _, ?_⟩
    exact ⟨hput.rest, hput.regs, hput.counters, hput.causes, hput.control, hput.stage, hput.out⟩

theorem Changes.sgetCounter {ks cs : List Nat} {s t : State} (h : Changes ks cs s t) {off l : Nat} (hoff : off % 0x40000 ≠ pcnCntLo_count.off)
    (hc : rkey off l ∉ cs) : sget (fun _ => 0) t.fab.counters (rkey off l) = sget (fun _ => 0) s.fab.counters (rkey off l) :=
  h.counters _ (by unfold rkey; omega) hc

/-! ### Pattern counters (R157) -/

theorem patErrKey_ne_patBitsKey (l : Nat) : patErrKey l ≠ patBitsKey l := by
  unfold patErrKey patBitsKey rkey
  have hne : lanPatErrLo_count.off ≠ lanPatBitsLo_count.off := by decide
  omega

/-- Both pattern counters after they counted, before a wrap is told. -/
def patCounted (l errs bits : Nat) (s : State) : State := (addCtr (patBitsKey l) bits (addCtr (patErrKey l) errs s).1).1

theorem patCount_eq (l errs bits : Nat) (s : State) :
    patCount l errs bits s =
      if (addCtr (patErrKey l) errs s).2 || (addCtr (patBitsKey l) bits (addCtr (patErrKey l) errs s).1).2
      then raiseC lanPatWrap l (patCounted l errs bits s) else patCounted l errs bits s := rfl

theorem patCounted_spec (l errs bits : Nat) (s : State) :
    sget (fun _ => 0) (patCounted l errs bits s).fab.counters (patErrKey l) = (sget (fun _ => 0) s.fab.counters (patErrKey l) + errs) % 2 ^ 64 ∧
      sget (fun _ => 0) (patCounted l errs bits s).fab.counters (patBitsKey l) = (sget (fun _ => 0) s.fab.counters (patBitsKey l) + bits) % 2 ^ 64 ∧
      ((addCtr (patErrKey l) errs s).2 = true ↔ 2 ^ 64 ≤ sget (fun _ => 0) s.fab.counters (patErrKey l) + errs) ∧
      ((addCtr (patBitsKey l) bits (addCtr (patErrKey l) errs s).1).2 = true ↔ 2 ^ 64 ≤ sget (fun _ => 0) s.fab.counters (patBitsKey l) + bits) ∧
      ((addCtr (patErrKey l) errs s).2 = true → Wrapped (patErrKey l) (patCounted l errs bits s)) ∧
      ((addCtr (patBitsKey l) bits (addCtr (patErrKey l) errs s).1).2 = true → Wrapped (patBitsKey l) (patCounted l errs bits s)) ∧
      Changes [] [patErrKey l, patBitsKey l] s (patCounted l errs bits s) := by
  obtain ⟨hv, hw, hwrap, hch⟩ := addCtr_spec (patErrKey l) errs s
  obtain ⟨hv', hw', hwrap', hch'⟩ := addCtr_spec (patBitsKey l) bits (addCtr (patErrKey l) errs s).1
  have hne := patErrKey_ne_patBitsKey l
  have hbits : sget (fun _ => 0) (addCtr (patErrKey l) errs s).1.fab.counters (patBitsKey l) = sget (fun _ => 0) s.fab.counters (patBitsKey l) :=
    hch.sgetCounter (by decide) (List.mem_singleton.not.2 hne.symm)
  rw [hbits] at hv' hw'
  refine ⟨(hch'.sgetCounter (by decide) (List.mem_singleton.not.2 hne)).trans hv, hv', hw, hw', fun h => (hwrap h).addCtr _ _, hwrap', ?_⟩
  exact (hch.mono (fun _ h => h) (fun _ h => List.mem_cons.2 (.inl (List.mem_singleton.1 h)))).trans
    (hch'.mono (fun _ h => h) (fun _ h => List.mem_cons_of_mem _ h))

theorem patCount_spec (l errs bits : Nat) (s : State) :
    sget (fun _ => 0) (patCount l errs bits s).fab.counters (patErrKey l) = (sget (fun _ => 0) s.fab.counters (patErrKey l) + errs) % 2 ^ 64 ∧
      sget (fun _ => 0) (patCount l errs bits s).fab.counters (patBitsKey l) = (sget (fun _ => 0) s.fab.counters (patBitsKey l) + bits) % 2 ^ 64 ∧
      (2 ^ 64 ≤ sget (fun _ => 0) s.fab.counters (patErrKey l) + errs →
        wrapBit (patErrKey l) (patCount l errs bits s) = true ∧ Asserted lanPatWrap (patCount l errs bits s)) ∧
      (2 ^ 64 ≤ sget (fun _ => 0) s.fab.counters (patBitsKey l) + bits →
        wrapBit (patBitsKey l) (patCount l errs bits s) = true ∧ Asserted lanPatWrap (patCount l errs bits s)) ∧
      Changes [] [patErrKey l, patBitsKey l] s (patCount l errs bits s) := by
  obtain ⟨herr, hbits, hw, hw', hwrap, hwrap', hch⟩ := patCounted_spec l errs bits s
  rw [patCount_eq]
  by_cases h : ((addCtr (patErrKey l) errs s).2 || (addCtr (patBitsKey l) bits (addCtr (patErrKey l) errs s).1).2) = true
  · have hev := raiseC_onlyEvents lanPatWrap l (patCounted l errs bits s)
    have has : Asserted lanPatWrap (raiseC lanPatWrap l (patCounted l errs bits s)) := raiseC_asserted _ _ (by decide)
    rw [if_pos h]
    exact ⟨(hev.sgetCounter (by decide) List.not_mem_nil).trans herr, (hev.sgetCounter (by decide) List.not_mem_nil).trans hbits,
      fun ho => ⟨(hwrap (hw.2 ho)).assertN _ _ _ _, has⟩, fun ho => ⟨(hwrap' (hw'.2 ho)).assertN _ _ _ _, has⟩, hch.events hev⟩
  · rw [Bool.or_eq_true, not_or] at h
    rw [if_neg (by rw [Bool.or_eq_true]; exact not_or.2 h)]
    exact ⟨herr, hbits, fun ho => absurd (hw.2 ho) h.1, fun ho => absurd (hw'.2 ho) h.2, hch⟩

/-! ### A word with bits set -/

/-- A field apart from the bits of m is as it was. -/
theorem wordField_or_apart {v m : Word} {lo n : Nat} (h : ∀ i < n, m.getLsbD (lo + i) = false) : wordField (v ||| m) lo n = wordField v lo n := by
  unfold wordField
  refine Nat.eq_of_testBit_eq fun i => ?_
  rw [testBit_bitsOf, testBit_bitsOf, BitVec.toNat_or, Nat.testBit_or]
  by_cases hi : i < n
  · have hm : m.toNat.testBit (lo + i) = false := h i hi
    rw [hm, Bool.or_false]
  · rw [decide_eq_false hi, Bool.false_and, Bool.false_and]

theorem wordField_or_bit {v m : Word} {lo : Nat} (h : m.getLsbD lo = true) : wordField (v ||| m) lo 1 = 1 := by
  rw [wordField_one_eq_one, BitVec.getLsbD_or, h, Bool.or_true]

/-! ### Writes of PAT_CTL and EYE_CTL -/

theorem selChan_of_latch {w : Window} {l : Nat} {s : State} (h : latch w .lan s = ⟨l, false, false⟩) : selChan w .lan s = l := by
  unfold selChan
  rw [if_neg (by decide), h]

theorem writingC_of_admits {w : Window} {b : Block} {c : Nat} {s : State} (ha : Admits w b s) (hc : selChan w b s = c) (hf : isFused b c s = false)
    (f : Nat → State → State) : writingC w b f s = f c s := by
  refine (writing_of_admits ha _).trans ?_
  rw [hc, hf]
  rfl

theorem patCtlWrite_clear {l : Nat} {v : Word} {s : State} (h : wordField v 8 1 = 0) :
    patCtlWrite l (v ||| 0x200#32) s =
      if patActive l s = true then putCtr (patErrKey l) 0 (putCtr (patBitsKey l) 0 (storeFields .lan lanPatCtl_inject.off l (v ||| 0x200#32) s))
      else storeFields .lan lanPatCtl_inject.off l (v ||| 0x200#32) s := by
  have h9 : wordField (v ||| 0x200#32) 9 1 = 1 := wordField_or_bit (by decide)
  have h8 : wordField (v ||| 0x200#32) 8 1 = 0 := (wordField_or_apart (by decide)).trans h
  unfold patCtlWrite
  dsimp only
  rw [h9, h8, if_neg (fun hx => absurd hx.1 (by decide))]
  simp

theorem patCtlWrite_inject {l : Nat} {v : Word} {s : State} (h : wordField v 9 1 = 0) :
    patCtlWrite l (v ||| 0x100#32) s =
      if patActive l s = true ∧ cfC lanPatCtl_genPattern l s ≠ 0 then
        { storeFields .lan lanPatCtl_inject.off l (v ||| 0x100#32) s with
          lanes := { (storeFields .lan lanPatCtl_inject.off l (v ||| 0x100#32) s).lanes with
            inject := smod (fun _ => 0) (storeFields .lan lanPatCtl_inject.off l (v ||| 0x100#32) s).lanes.inject l (· + 1) } }
      else storeFields .lan lanPatCtl_inject.off l (v ||| 0x100#32) s := by
  have h8 : wordField (v ||| 0x100#32) 8 1 = 1 := wordField_or_bit (by decide)
  have h9 : wordField (v ||| 0x100#32) 9 1 = 0 := (wordField_or_apart (by decide)).trans h
  unfold patCtlWrite
  dsimp only
  rw [h9, h8, if_neg (fun hx : 0 = 1 ∧ patActive l s = true => absurd hx.1 (by decide))]
  simp only [true_and]

theorem eyeTarget_or_one (v : Word) : wordField (v ||| 1#32) 4 4 = wordField v 4 4 := wordField_or_apart (by decide)

theorem eyeCtlWrite_refused {w : Window} {l : Nat} {v : Word} {s : State} (h : wordField v 4 4 < 3 ∨ 12 < wordField v 4 4) :
    eyeCtlWrite w l (v ||| 1#32) s = accessError w lanEyeCtl_start.off true s := if_pos (by rw [eyeTarget_or_one]; exact h)

theorem eyeCtlWrite_start {w : Window} {l : Nat} {v : Word} {s : State} (h3 : 3 ≤ wordField v 4 4) (h12 : wordField v 4 4 ≤ 12) :
    eyeCtlWrite w l (v ||| 1#32) s =
      if rdC lanEyeCtl_busy l s = 1 then wrC lanEyeCtl_overrun l 1 (storeFields .lan lanEyeCtl_start.off l (v ||| 1#32) s)
      else wrC lanEyeCtl_busy l 1 (storeFields .lan lanEyeCtl_start.off l (v ||| 1#32) s) := by
  have hgo : wordField (v ||| 1#32) 0 1 ≠ 0 := by
    rw [wordField_or_bit (by decide)]
    decide
  unfold eyeCtlWrite
  rw [if_neg (by rw [eyeTarget_or_one]; omega)]
  dsimp only
  rw [if_neg hgo]

/-! ### An eye measurement that ends (R158) -/

/-- The margins stored. -/
def eyeShown (l vert horz : Nat) (s : State) : State :=
  wrC lanEyeVert_middle l (bitsOf vert 8 8) (wrC lanEyeVert_upper l (if rdC lanLinkStatus_liveRate l s < 3 then 0 else bitsOf vert 0 8)
    (wrC lanEyeVert_lower l (if rdC lanLinkStatus_liveRate l s < 3 then 0 else bitsOf vert 16 8)
      (wrC lanEyeHorz_left l (bitsOf horz 0 8) (wrC lanEyeHorz_right l (bitsOf horz 8 8) s))))

/-- The marks of the end of a measurement. -/
def eyeEnded (l : Nat) (valid : Bool) (s : State) : State :=
  wrC lanEyeCtl_busy l 0 (wrC lanEyeCtl_done l 1 (wrC lanEyeCtl_valid l (b2n valid) s))

theorem eyeDone_eq (l vert horz : Nat) (s : State) : eyeDone l vert horz s = raiseC lanEyeDone l (eyeEnded l (eyeValid l s) (eyeShown l vert horz s)) := by
  unfold eyeDone eyeShown eyeEnded
  simp only [decide_eq_true_eq]

theorem eyeShown_spec (l vert horz : Nat) (s : State) :
    rdC lanEyeVert_middle l (eyeShown l vert horz s) = bitsOf vert 8 8 ∧
      rdC lanEyeVert_upper l (eyeShown l vert horz s) = (if rdC lanLinkStatus_liveRate l s < 3 then 0 else bitsOf vert 0 8) ∧
      rdC lanEyeVert_lower l (eyeShown l vert horz s) = (if rdC lanLinkStatus_liveRate l s < 3 then 0 else bitsOf vert 16 8) ∧
      rdC lanEyeHorz_left l (eyeShown l vert horz s) = bitsOf horz 0 8 ∧ rdC lanEyeHorz_right l (eyeShown l vert horz s) = bitsOf horz 8 8 ∧
      Changes [keyOfField lanEyeVert_middle 0 l, keyOfField lanEyeHorz_left 0 l] [] s (eyeShown l vert horz s) := by
  have hite (c : Prop) [Decidable c] (x : Nat) (hx : x < 2 ^ 8) : (if c then 0 else x) < 2 ^ 8 := by
    split
    · decide
    · exact hx
  have hbits {f g : Fld} (v : Nat) (t : State) (h : bitsApart f g = true) : rdC g l (wrC f l v t) = rdC g l t := rdX_wrX_bits v t h
  unfold eyeShown
  refine ⟨?_, ?_, ?_, ?_, ?_, ?_⟩
  · exact rdX_wrX_fits (by decide) (bitsOf_lt _ _ _)
  · rw [hbits _ _ (by decide)]
    exact rdX_wrX_fits (by decide) (hite _ _ (bitsOf_lt _ _ _))
  · rw [hbits _ _ (by decide), hbits _ _ (by decide)]
    exact rdX_wrX_fits (by decide) (hite _ _ (bitsOf_lt _ _ _))
  · rw [rdC_wrC_offs _ _ (by decide), rdC_wrC_offs _ _ (by decide), rdC_wrC_offs _ _ (by decide)]
    exact rdX_wrX_fits (by decide) (bitsOf_lt _ _ _)
  · rw [rdC_wrC_offs _ _ (by decide), rdC_wrC_offs _ _ (by decide), rdC_wrC_offs _ _ (by decide), hbits _ _ (by decide)]
    exact rdX_wrX_fits (by decide) (bitsOf_lt _ _ _)
  · have hvert {f : Fld} (h : f.off + 0 * f.stride = lanEyeVert_middle.off + 0 * lanEyeVert_middle.stride) :
        keyOfField f 0 l ∈ [keyOfField lanEyeVert_middle 0 l, keyOfField lanEyeHorz_left 0 l] := List.mem_cons.2 (.inl (congrArg (fun o => rkey o l) h))
    have hhorz {f : Fld} (h : f.off + 0 * f.stride = lanEyeHorz_left.off + 0 * lanEyeHorz_left.stride) :
        keyOfField f 0 l ∈ [keyOfField lanEyeVert_middle 0 l, keyOfField lanEyeHorz_left 0 l] :=
      List.mem_cons_of_mem _ (List.mem_singleton.2 (congrArg (fun o => rkey o l) h))
    refine Changes.trans ?_ (wrC_changes lanEyeVert_middle _ _ _ (hvert rfl))
    refine Changes.trans ?_ (wrC_changes lanEyeVert_upper _ _ _ (hvert rfl))
    refine Changes.trans ?_ (wrC_changes lanEyeVert_lower _ _ _ (hvert rfl))
    exact (wrC_changes lanEyeHorz_right _ _ _ (hhorz rfl)).trans (wrC_changes lanEyeHorz_left _ _ _ (hhorz rfl))

theorem eyeEnded_spec (l : Nat) (valid : Bool) (s : State) :
    rdC lanEyeCtl_busy l (eyeEnded l valid s) = 0 ∧ rdC lanEyeCtl_done l (eyeEnded l valid s) = 1 ∧
      rdC lanEyeCtl_valid l (eyeEnded l valid s) = b2n valid ∧ Changes [keyOfField lanEyeCtl_busy 0 l] [] s (eyeEnded l valid s) := by
  have hbits {f g : Fld} (v : Nat) (t : State) (h : bitsApart f g = true) : rdC g l (wrC f l v t) = rdC g l t := rdX_wrX_bits v t h
  have hk {f : Fld} (h : f.off + 0 * f.stride = lanEyeCtl_busy.off + 0 * lanEyeCtl_busy.stride) :
      keyOfField f 0 l ∈ [keyOfField lanEyeCtl_busy 0 l] := List.mem_singleton.2 (congrArg (fun o => rkey o l) h)
  unfold eyeEnded
  refine ⟨rdX_wrX_fits (by decide) (by decide), ?_, ?_, ?_⟩
  · rw [hbits _ _ (by decide)]
    exact rdX_wrX_fits (by decide) (by decide)
  · rw [hbits _ _ (by decide), hbits _ _ (by decide)]
    exact rdX_wrX_fits (by decide) (b2n_lt _ (by decide))
  · refine Changes.trans ?_ (wrC_changes lanEyeCtl_busy _ _ _ (hk rfl))
    exact (wrC_changes lanEyeCtl_valid _ _ _ (hk rfl)).trans (wrC_changes lanEyeCtl_done _ _ _ (hk rfl))

/-- Fields of registers apart from EYE_CTL keep their value as the measurement ends. -/
theorem rdC_eyeEnded {f : Fld} (l d : Nat) (valid : Bool) (s : State) (h : offsApart lanEyeCtl_busy 0 f 0 = true) :
    rdC f d (eyeEnded l valid s) = rdC f d s := by
  unfold eyeEnded
  rw [rdC_wrC_offs (f := lanEyeCtl_busy) _ _ h, rdC_wrC_offs (f := lanEyeCtl_done) _ _ h, rdC_wrC_offs (f := lanEyeCtl_valid) _ _ h]

/-- Settles O31, a lemma for each command. -/
theorem patternsAndEyes : Obligations.PatternsAndEyes := by
  unfold Obligations.PatternsAndEyes
  refine ⟨fun l s hl hon hpat => ⟨fun hchk hlock => ?_, fun hlock => ⟨?_, fun errs bits => ?_⟩⟩,
    fun w v l s u ha hlatch hf => ?_, fun l vert horz s hl hbusy => ?_⟩
  · exact onLane_of_true hl hon (by rw [hpat, decide_eq_true ⟨hchk, hlock⟩]; rfl) _
  · exact onLane_of_true hl hon (by rw [hpat, decide_eq_true hlock]; rfl) _
  · exact ⟨_, onLane_of_true hl hon (by rw [hpat, decide_eq_true hlock]; rfl) _, patCount_spec l errs bits s⟩
  · have hsel := selChan_of_latch hlatch
    refine ⟨fun h8 hu => ?_, fun h9 hu => ?_, fun h => ?_, fun h3 h12 hu => ?_⟩
    · subst hu
      exact congrArg Host.Outcome.next ((writingC_of_admits ha hsel hf _).trans (patCtlWrite_clear h8))
    · subst hu
      exact congrArg Host.Outcome.next ((writingC_of_admits ha hsel hf _).trans (patCtlWrite_inject h9))
    · exact congrArg Host.Outcome.next ((writingC_of_admits ha hsel hf _).trans (eyeCtlWrite_refused h))
    · subst hu
      exact congrArg Host.Outcome.next ((writingC_of_admits ha hsel hf _).trans (eyeCtlWrite_start h3 h12))
  · have hexec : exec (.eyeDone l vert horz) s = .next (eyeDone l vert horz s) :=
      (guarded_of_true (decide_eq_true hl) _).trans (congrArg _ (onlyIf_of_true (decide_eq_true hbusy) _ s))
    obtain ⟨hmid, hup, hlow, hleft, hright, hch⟩ := eyeShown_spec l vert horz s
    obtain ⟨hb, hd, hv, hch'⟩ := eyeEnded_spec l (eyeValid l s) (eyeShown l vert horz s)
    refine ⟨_, hexec, ?_⟩
    rw [eyeDone_eq]
    refine ⟨(rdC_raiseC l _ _ _ (by decide)).trans hb, (rdC_raiseC l _ _ _ (by decide)).trans hd, (rdC_raiseC l _ _ _ (by decide)).trans hv,
      (rdC_raiseC l _ _ _ (by decide)).trans ((rdC_eyeEnded l l _ _ (by decide)).trans hmid),
      (rdC_raiseC l _ _ _ (by decide)).trans ((rdC_eyeEnded l l _ _ (by decide)).trans hup),
      (rdC_raiseC l _ _ _ (by decide)).trans ((rdC_eyeEnded l l _ _ (by decide)).trans hlow),
      (rdC_raiseC l _ _ _ (by decide)).trans ((rdC_eyeEnded l l _ _ (by decide)).trans hleft),
      (rdC_raiseC l _ _ _ (by decide)).trans ((rdC_eyeEnded l l _ _ (by decide)).trans hright), raiseC_asserted _ _ (by decide), ?_⟩
    exact ((hch.mono (fun _ h => List.mem_cons_of_mem _ h) fun _ h => h).trans
      (hch'.mono (fun _ h => List.mem_cons.2 (.inl (List.mem_singleton.1 h))) fun _ h => h)).events (raiseC_onlyEvents _ _ _)

end Sys2Proof.Machine
end

section
/-! PROOFS. Ethernet ports: codewords, faults, link up and flaps (R161 to R170). -/

namespace Sys2Proof.Machine

/-! ### Changes up to the squelch of the synchronous Ethernet outputs (R477) -/

/-- `t` is `s` but for the registers `ks`, the counters `cs`, what assertions change, and the squelch marks. -/
def SynceChanges (ks cs : List Nat) (s t : State) : Prop := ∃ x, Changes ks cs { s with tim := { s.tim with squelched := x } } t

theorem Changes.synce {ks cs : List Nat} {s t : State} (h : Changes ks cs s t) : SynceChanges ks cs s t := ⟨s.tim.squelched, h⟩

theorem synceChanges_refreshSynce (ks cs : List Nat) (s : State) : SynceChanges ks cs s (refreshSynce s) := by
  obtain ⟨x, h⟩ := refreshSynce_only s
  exact ⟨x, h.changes⟩

theorem SynceChanges.trans {ks cs : List Nat} {s t u : State} (h : SynceChanges ks cs s t) (h' : SynceChanges ks cs t u) : SynceChanges ks cs s u := by
  obtain ⟨x, hx⟩ := h
  obtain ⟨y, hy⟩ := h'
  have htim : t.tim = { s.tim with squelched := x } := hx.tim
  rw [htim] at hy
  exact ⟨y, (hx.with_tim { s.tim with squelched := y }).trans hy⟩

theorem SynceChanges.mono {ks cs ks' cs' : List Nat} {s t : State} (h : SynceChanges ks cs s t) (hk : ∀ k ∈ ks, k ∈ ks') (hc : ∀ k ∈ cs, k ∈ cs') :
    SynceChanges ks' cs' s t := by
  obtain ⟨x, hx⟩ := h
  exact ⟨x, hx.mono hk hc⟩

theorem SynceChanges.sameConfig {ks cs : List Nat} {s t : State} (h : SynceChanges ks cs s t) : SameConfig s t := by
  obtain ⟨x, hx⟩ := h
  exact ⟨hx.live, hx.targets⟩

theorem SynceChanges.rdC {ks cs : List Nat} {s t : State} (h : SynceChanges ks cs s t) {f : Fld} (c : Nat) (hs : ¬ StatKey f.off)
    (hk : keyOfField f 0 c ∉ ks) : rdC f c t = rdC f c s := by
  obtain ⟨x, hx⟩ := h
  exact hx.rdX (not_statKey_of_off (f := f) (i := 0) (by simpa using hs) c) hk

theorem SynceChanges.causes {ks cs : List Nat} {s t : State} (h : SynceChanges ks cs s t) {e : Src} (he : Asserted e s) : Asserted e t := by
  obtain ⟨x, hx⟩ := h
  exact hx.causes e (Asserted.of_evt he rfl)

theorem SynceChanges.ctr {ks cs : List Nat} {s t : State} (h : SynceChanges ks cs s t) {k : CtrSet} {i c : Nat}
    (hoff : (k.lo + 8 * i) % 0x40000 ≠ pcnCntLo_count.off) (hc : rkey (k.lo + 8 * i) c ∉ cs) : ctr k i c t = ctr k i c s := by
  obtain ⟨x, hx⟩ := h
  exact hx.sgetCounter hoff hc

theorem Changes.ctr {ks cs : List Nat} {s t : State} (h : Changes ks cs s t) {k : CtrSet} {i c : Nat}
    (hoff : (k.lo + 8 * i) % 0x40000 ≠ pcnCntLo_count.off) (hc : rkey (k.lo + 8 * i) c ∉ cs) : ctr k i c t = ctr k i c s :=
  h.sgetCounter hoff hc

/-- Keys of counters of different numbers differ. -/
theorem ctrKey_ne {k : CtrSet} {i j c d : Nat} (h : (k.lo + 8 * i) % 0x40000 ≠ (k.lo + 8 * j) % 0x40000) :
    rkey (k.lo + 8 * i) c ≠ rkey (k.lo + 8 * j) d := by
  unfold rkey
  omega

/-! ### The counters of a port (R183, R184) -/

theorem count_of_room {k : CtrSet} {i c d : Nat} {s : State} (h : ctr k i c s + d < 2 ^ 64) :
    count k i c d s = putCtr (rkey (k.lo + 8 * i) c) (ctr k i c s + d) s := by
  have hadd : addCtr (rkey (k.lo + 8 * i) c) d s = (putCtr (rkey (k.lo + 8 * i) c) (ctr k i c s + d) s, false) := if_pos h
  unfold count
  rw [hadd]
  rfl

theorem ctr_count_same {k : CtrSet} {i c d : Nat} {s : State} (h : ctr k i c s + d < 2 ^ 64) : ctr k i c (count k i c d s) = ctr k i c s + d := by
  rw [count_of_room h]
  exact sget_sset_same _ _ _ _

theorem portCount_of_alive {p : Nat} {s : State} (h : chanAlive .prt p s = true) (i d : Nat) : portCount i p d s = count prtCtrs i p d s := if_pos h

theorem portCount_changes {ks cs : List Nat} (i p d : Nat) (s : State) (h : rkey (prtCtrs.lo + 8 * i) p ∈ cs) : Changes ks cs s (portCount i p d s) := by
  unfold portCount
  split
  · exact count_changes _ _ _ _ _ h
  · exact Changes.refl s

theorem chanAlive_of_chanOn {b : Block} {c : Nat} {s : State} (h : chanOn b c s = true) : chanAlive b c s = true := by
  have hst : (tgt ⟨b, some c⟩ s).st = .on := of_decide_eq_true h
  simp [chanAlive, chanRuns, hst]

theorem chanRuns_of_chanOn {b : Block} {c : Nat} {s : State} (h : chanOn b c s = true) : chanRuns b c s = true := by
  have hst : (tgt ⟨b, some c⟩ s).st = .on := of_decide_eq_true h
  simp [chanRuns, hst]

theorem onLivePort_of_on {p : Nat} {c : Bool} {s : State} (hp : p < 256) (hon : chanOn .prt p s = true) (hc : c = true) (f : State → State) :
    onLivePort p c f s = .next (f s) :=
  (guarded_of_true (decide_eq_true hp) _).trans (congrArg _ (onlyIf_of_true (by rw [hc, chanAlive_of_chanOn hon]; rfl) f s))

/-! ### Codewords (R166) -/

theorem fecDecode_corrected {p n frames : Nat} {s : State} (h0 : 0 < n) (hm : cfC prtPortCfg_fecMode p s = 0) (hn : n ≤ fecCorrects p s) :
    fecDecode p n frames s = portCount 18 p n (portCount 16 p 1 s) := by
  unfold fecDecode
  rw [if_neg (by omega), if_pos ⟨hm, hn⟩]

theorem fecDecode_lost {p n frames : Nat} {s : State} (hn : fecCorrects p s < n) : fecDecode p n frames s = fecBad p frames s := by
  unfold fecDecode
  rw [if_neg (by omega), if_neg fun h => Nat.not_le.2 hn h.2]

theorem portCount_corrected_spec {p n : Nat} {s : State} (hon : chanOn .prt p s = true) :
    Changes [] [rkey (prtCtrs.lo + 8 * 16) p, rkey (prtCtrs.lo + 8 * 18) p] s (portCount 18 p n (portCount 16 p 1 s)) ∧
      (ctr prtCtrs 16 p s + 1 < 2 ^ 64 → ctr prtCtrs 18 p s + n < 2 ^ 64 →
        ctr prtCtrs 16 p (portCount 18 p n (portCount 16 p 1 s)) = ctr prtCtrs 16 p s + 1 ∧
          ctr prtCtrs 18 p (portCount 18 p n (portCount 16 p 1 s)) = ctr prtCtrs 18 p s + n) := by
  have hch : Changes [] [rkey (prtCtrs.lo + 8 * 16) p] s (portCount 16 p 1 s) := portCount_changes _ _ _ _ (List.mem_singleton.2 rfl)
  have hch' : Changes [] [rkey (prtCtrs.lo + 8 * 18) p] (portCount 16 p 1 s) (portCount 18 p n (portCount 16 p 1 s)) :=
    portCount_changes _ _ _ _ (List.mem_singleton.2 rfl)
  have h18 : ctr prtCtrs 18 p (portCount 16 p 1 s) = ctr prtCtrs 18 p s :=
    hch.ctr (by decide) (List.mem_singleton.not.2 (ctrKey_ne (by decide)))
  have hal : chanAlive .prt p s = true := chanAlive_of_chanOn hon
  have hal' : chanAlive .prt p (portCount 16 p 1 s) = true := ((sameConfig_of_changes hch).chanAlive _ _).trans hal
  refine ⟨?_, fun h1 hn => ⟨?_, ?_⟩⟩
  · exact (hch.mono (fun _ h => h) fun _ h => List.mem_cons.2 (.inl (List.mem_singleton.1 h))).trans
      (hch'.mono (fun _ h => h) fun _ h => List.mem_cons_of_mem _ h)
  · rw [hch'.ctr (by decide) (List.mem_singleton.not.2 (ctrKey_ne (by decide))), portCount_of_alive hal]
    exact ctr_count_same h1
  · rw [portCount_of_alive hal', ctr_count_same (by rw [h18]; exact hn), h18]

theorem fecBad_spec {p frames : Nat} {s : State} (hon : chanOn .prt p s = true) :
    Asserted prtFecUncorrected (fecBad p frames s) ∧
      (ctr prtCtrs 17 p s + 1 < 2 ^ 64 → ctr prtCtrs 17 p (fecBad p frames s) = ctr prtCtrs 17 p s + 1) ∧
      Changes [] [rkey (prtCtrs.lo + 8 * 17) p] { s with lanes := { s.lanes with fecBad := smod (fun _ => 0) s.lanes.fecBad p (max frames) } }
        (fecBad p frames s) := by
  have hal : chanAlive .prt p (markFrames p frames s) = true := chanAlive_of_chanOn hon
  have hev := raiseC_onlyEvents prtFecUncorrected p (portCount 17 p 1 (markFrames p frames s))
  refine ⟨raiseC_asserted _ _ (by decide), fun h => ?_, ?_⟩
  · refine (hev.ctr (by decide) List.not_mem_nil).trans ?_
    rw [portCount_of_alive hal]
    exact ctr_count_same (k := prtCtrs) (s := markFrames p frames s) h
  · exact Changes.events (portCount_changes 17 p 1 (markFrames p frames s) (List.mem_singleton.2 rfl)) hev

/-! ### Faults of the PCS (R169) -/

theorem statusKey (f : Fld) (p : Nat) (h : f.off + 0 * f.stride = prtLinkStatus_linkUp.off + 0 * prtLinkStatus_linkUp.stride) :
    keyOfField f 0 p ∈ [keyOfField prtLinkStatus_linkUp 0 p] := List.mem_singleton.2 (congrArg (fun o => rkey o p) h)

theorem rdC_wrC_bits_same {f g : Fld} {c : Nat} (v : Nat) (s : State) (h : bitsApart f g = true) : rdC g c (wrC f c v s) = rdC g c s :=
  rdX_wrX_bits v s h

theorem rdC_wrC_same_fits {f : Fld} {c v : Nat} {s : State} (h : f.ok = true) (hv : v < 2 ^ f.w) : rdC f c (wrC f c v s) = v := rdX_wrX_fits h hv

theorem pcsFault_clear {p : Nat} {s : State} (h : allIn 6 (portLanes p s) s = true) :
    pcsFault p .clear s = wrC prtLinkStatus_pcsLock p 1 (wrC prtLinkStatus_hiBer p 0 (wrC prtLinkStatus_localFault p 0 s)) :=
  onlyIf_of_true h (fun s => wrC prtLinkStatus_pcsLock p 1 (wrC prtLinkStatus_hiBer p 0 (wrC prtLinkStatus_localFault p 0 s))) s

theorem pcsFaulty_cleared (p : Nat) (s : State) :
    pcsFaulty p (wrC prtLinkStatus_pcsLock p 1 (wrC prtLinkStatus_hiBer p 0 (wrC prtLinkStatus_localFault p 0 s))) = false := by
  unfold pcsFaulty
  rw [rdC_wrC_same_fits (by decide) (by decide), rdC_wrC_bits_same _ _ (by decide), rdC_wrC_same_fits (by decide) (by decide),
    rdC_wrC_bits_same _ _ (by decide), rdC_wrC_bits_same _ _ (by decide), rdC_wrC_same_fits (by decide) (by decide)]
  decide

theorem showFault_spec {p : Nat} {k : PcsFault} (hk : isFault k = true) (s : State) :
    pcsFaulty p (showFault p k s) = true ∧ Changes [keyOfField prtLinkStatus_linkUp 0 p] [] s (showFault p k s) := by
  unfold pcsFaulty
  cases k with
  | blockLock =>
    exact ⟨decide_eq_true (.inl (rdC_wrC_same_fits (by decide) (by decide))), wrC_changes prtLinkStatus_pcsLock _ _ _ (statusKey _ p rfl)⟩
  | alignLock =>
    exact ⟨decide_eq_true (.inl (rdC_wrC_same_fits (by decide) (by decide))), wrC_changes prtLinkStatus_pcsLock _ _ _ (statusKey _ p rfl)⟩
  | hiBer =>
    exact ⟨decide_eq_true (.inr (.inl (rdC_wrC_same_fits (by decide) (by decide)))), wrC_changes prtLinkStatus_hiBer _ _ _ (statusKey _ p rfl)⟩
  | localFault =>
    exact ⟨decide_eq_true (.inr (.inr (rdC_wrC_same_fits (by decide) (by decide)))), wrC_changes prtLinkStatus_localFault _ _ _ (statusKey _ p rfl)⟩
  | clear => exact absurd hk (by decide)
  | remoteEnd => exact absurd hk (by decide)

theorem pcsFaulty_raiseC (p : Nat) (e : Src) (d : Nat) (s : State) : pcsFaulty p (raiseC e d s) = pcsFaulty p s := by
  unfold pcsFaulty
  rw [rdC_raiseC _ _ _ _ (by decide), rdC_raiseC _ _ _ _ (by decide), rdC_raiseC _ _ _ _ (by decide)]

theorem pcsFaulty_of_counted {cs : List Nat} {p : Nat} {s t : State} (h : Changes [] cs s t) : pcsFaulty p t = pcsFaulty p s := by
  unfold pcsFaulty
  rw [h.synce.rdC p (by decide) List.not_mem_nil, h.synce.rdC p (by decide) List.not_mem_nil, h.synce.rdC p (by decide) List.not_mem_nil]

theorem pcsFault_down {p : Nat} {k : PcsFault} {s : State} (hk : isFault k = true) (hup : rdC prtLinkStatus_linkUp p s = 0)
    (hdata : allIn 6 (portLanes p s) s = true) : pcsFault p k s = raiseC prtPcsFault p (showFault p k s) := by
  unfold pcsFault
  simp [hk, hup, hdata]

theorem pcsFault_up {p : Nat} {k : PcsFault} {s : State} (hk : isFault k = true) (hup : rdC prtLinkStatus_linkUp p s = 1) :
    pcsFault p k s = raiseC prtPcsFault p (portCount 21 p 1 (showFault p k s)) := by
  unfold pcsFault
  simp [hk, hup]

theorem pcsFault_up_spec {p : Nat} {k : PcsFault} {s : State} (hon : chanOn .prt p s = true) (hk : isFault k = true)
    (hup : rdC prtLinkStatus_linkUp p s = 1) :
    Asserted prtPcsFault (pcsFault p k s) ∧ pcsFaulty p (pcsFault p k s) = true ∧
      (ctr prtCtrs 21 p s + 1 < 2 ^ 64 → ctr prtCtrs 21 p (pcsFault p k s) = ctr prtCtrs 21 p s + 1) ∧
      Changes [keyOfField prtLinkStatus_linkUp 0 p] [rkey (prtCtrs.lo + 8 * 21) p] s (pcsFault p k s) := by
  obtain ⟨hfault, hch⟩ := showFault_spec (p := p) hk s
  have hcount : Changes [] [rkey (prtCtrs.lo + 8 * 21) p] (showFault p k s) (portCount 21 p 1 (showFault p k s)) :=
    portCount_changes _ _ _ _ (List.mem_singleton.2 rfl)
  have hev := raiseC_onlyEvents prtPcsFault p (portCount 21 p 1 (showFault p k s))
  have hal : chanAlive .prt p (showFault p k s) = true := ((sameConfig_of_changes hch).chanAlive _ _).trans (chanAlive_of_chanOn hon)
  rw [pcsFault_up hk hup]
  refine ⟨raiseC_asserted _ _ (by decide), ?_, fun h => ?_, ?_⟩
  · rw [pcsFaulty_raiseC, pcsFaulty_of_counted hcount, hfault]
  · have hold : ctr prtCtrs 21 p (showFault p k s) = ctr prtCtrs 21 p s := hch.ctr (by decide) List.not_mem_nil
    rw [hev.ctr (by decide) List.not_mem_nil, portCount_of_alive hal, ctr_count_same (by rw [hold]; exact h), hold]
  · exact ((hch.mono (fun _ h => h) fun _ h => nomatch h).trans (hcount.mono (fun _ h => nomatch h) fun _ h => h)).events hev

end Sys2Proof.Machine
end

section
/-! PROOFS. Ethernet ports: a link that goes down and one that rises (R168 to R170). -/

namespace Sys2Proof.Machine

/-! ### A link that goes down -/

/-- The link down, counted and told. -/
def linkDownTold (p : Nat) (s : State) : State := raiseC prtLinkDown p (portCount 20 p 1 (wrC prtLinkStatus_linkUp p 0 s))

theorem portDown_of_up {p : Nat} {s : State} (h : rdC prtLinkStatus_linkUp p s = 1) : portDown p s = flap p (refreshSynce (linkDownTold p s)) :=
  if_neg (by rw [h]; decide)

theorem linkDownTold_changes (p : Nat) (s : State) :
    Changes [keyOfField prtLinkStatus_linkUp 0 p] [rkey (prtCtrs.lo + 8 * 20) p] s (linkDownTold p s) :=
  ((wrC_changes prtLinkStatus_linkUp _ _ _ (statusKey _ p rfl)).trans
    (portCount_changes _ _ _ _ (List.mem_singleton.2 rfl))).events (raiseC_onlyEvents _ _ _)

theorem ctr_linkDownTold {p : Nat} {s : State} (hon : chanOn .prt p s = true) (h : ctr prtCtrs 20 p s + 1 < 2 ^ 64) :
    ctr prtCtrs 20 p (linkDownTold p s) = ctr prtCtrs 20 p s + 1 := by
  have hal : chanAlive .prt p (wrC prtLinkStatus_linkUp p 0 s) = true := chanAlive_of_chanOn hon
  refine ((raiseC_onlyEvents _ _ _).ctr (by decide) List.not_mem_nil).trans ?_
  rw [portCount_of_alive hal]
  exact ctr_count_same (k := prtCtrs) (s := wrC prtLinkStatus_linkUp p 0 s) h

/-- Of the status register linkDownTold writes link_up alone. -/
theorem rdC_linkDownTold {f : Fld} {p : Nat} {s : State} (hs : ¬ StatKey f.off) (hb : bitsApart prtLinkStatus_linkUp f = true) :
    rdC f p (linkDownTold p s) = rdC f p s := by
  refine (rdC_raiseC p _ _ _ hs).trans (((portCount_changes (ks := []) 20 p 1 _ (List.mem_singleton.2 rfl)).synce.rdC p hs List.not_mem_nil).trans ?_)
  exact rdC_wrC_bits_same _ _ hb

theorem rdC_linkUp_linkDownTold (p : Nat) (s : State) : rdC prtLinkStatus_linkUp p (linkDownTold p s) = 0 := by
  refine (rdC_raiseC p _ _ _ (by decide)).trans
    (((portCount_changes (ks := []) 20 p 1 _ (List.mem_singleton.2 rfl)).synce.rdC p (by decide) List.not_mem_nil).trans ?_)
  exact rdC_wrC_same_fits (by decide) (by decide)

/-! ### The flap rule (R170) -/

/-- The flap counted, and the port suppressed. -/
def flapSuppressed (p : Nat) (s : State) : State :=
  emit (.remoteFault p true) (raiseC prtFlapSuppressed p (portCount 22 p 1 (wrC prtLinkStatus_suppressed p 1 s)))

theorem flap_of_suppressed {p : Nat} {s : State} (h : rdC prtLinkStatus_suppressed p s = 1) : flap p s = s := if_pos h

theorem flap_of_free {p : Nat} {s : State} (h : rdC prtLinkStatus_suppressed p s ≠ 1) :
    flap p s =
      if cfC prtDebounce_flapMax p s ≠ 0 ∧ cfC prtDebounce_flapMax p s ≤ min (rdC prtLinkStatus_flapCount p s + 1) 15 then
        flapSuppressed p (wrC prtLinkStatus_flapCount p (min (rdC prtLinkStatus_flapCount p s + 1) 15) s)
      else wrC prtLinkStatus_flapCount p (min (rdC prtLinkStatus_flapCount p s + 1) 15) s := if_neg h

theorem flapSuppressed_changes (p : Nat) (s : State) :
    Changes [keyOfField prtLinkStatus_linkUp 0 p] [rkey (prtCtrs.lo + 8 * 22) p] s (flapSuppressed p s) :=
  (((wrC_changes prtLinkStatus_suppressed _ _ _ (statusKey _ p rfl)).trans
    (portCount_changes _ _ _ _ (List.mem_singleton.2 rfl))).events (raiseC_onlyEvents _ _ _)).events (emit_onlyEvents _ _)

theorem flap_changes (p : Nat) (s : State) : Changes [keyOfField prtLinkStatus_linkUp 0 p] [rkey (prtCtrs.lo + 8 * 22) p] s (flap p s) := by
  by_cases h : rdC prtLinkStatus_suppressed p s = 1
  · rw [flap_of_suppressed h]
    exact Changes.refl s
  · have hcount (v : Nat) : Changes [keyOfField prtLinkStatus_linkUp 0 p] [rkey (prtCtrs.lo + 8 * 22) p] s (wrC prtLinkStatus_flapCount p v s) :=
      wrC_changes prtLinkStatus_flapCount _ _ _ (statusKey _ p rfl)
    rw [flap_of_free h]
    split
    · exact (hcount _).trans (flapSuppressed_changes p _)
    · exact hcount _

/-- Of the status register the flap rule writes flap_count and suppressed alone. -/
theorem rdC_flap {f : Fld} {p : Nat} {s : State} (hs : ¬ StatKey f.off) (hc : bitsApart prtLinkStatus_flapCount f = true)
    (hb : bitsApart prtLinkStatus_suppressed f = true) : rdC f p (flap p s) = rdC f p s := by
  by_cases h : rdC prtLinkStatus_suppressed p s = 1
  · rw [flap_of_suppressed h]
  · rw [flap_of_free h]
    split
    · refine (rdC_raiseC p _ _ _ hs).trans (((portCount_changes (ks := []) 22 p 1 _ (List.mem_singleton.2 rfl)).synce.rdC p hs List.not_mem_nil).trans ?_)
      exact (rdC_wrC_bits_same _ _ hb).trans (rdC_wrC_bits_same _ _ hc)
    · exact rdC_wrC_bits_same _ _ hc

theorem rdC_flapCount_flap {p : Nat} {s : State} (hs : rdC prtLinkStatus_suppressed p s = 0) (hm : cfC prtDebounce_flapMax p s = 0) :
    rdC prtLinkStatus_flapCount p (flap p s) = min (rdC prtLinkStatus_flapCount p s + 1) 15 := by
  rw [flap_of_free (by rw [hs]; decide), if_neg fun h => h.1 hm]
  exact rdC_wrC_same_fits (by decide) (by have : (2 : Nat) ^ prtLinkStatus_flapCount.w = 16 := by decide
                                          omega)

/-- What the loss of a link that was up leaves (R169, R170). -/
structure LinkFell (p : Nat) (s t : State) : Prop where
  down : rdC prtLinkStatus_linkUp p t = 0
  told : Asserted prtLinkDown t
  counted : ctr prtCtrs 20 p s + 1 < 2 ^ 64 → ctr prtCtrs 20 p t = ctr prtCtrs 20 p s + 1
  flapped : rdC prtLinkStatus_suppressed p s = 0 → cfC prtDebounce_flapMax p s = 0 →
    rdC prtLinkStatus_flapCount p t = min (rdC prtLinkStatus_flapCount p s + 1) 15
  after : Changes [keyOfField prtLinkStatus_linkUp 0 p] [rkey (prtCtrs.lo + 8 * 20) p, rkey (prtCtrs.lo + 8 * 22) p] (refreshSynce (linkDownTold p s)) t
  all : SynceChanges [keyOfField prtLinkStatus_linkUp 0 p] [rkey (prtCtrs.lo + 8 * 20) p, rkey (prtCtrs.lo + 8 * 22) p] s t

theorem portDown_fell {p : Nat} {s : State} (hon : chanOn .prt p s = true) (hup : rdC prtLinkStatus_linkUp p s = 1) : LinkFell p s (portDown p s) := by
  have htold := linkDownTold_changes p s
  have hsynce := synceChanges_refreshSynce [] [] (linkDownTold p s)
  have hflap := flap_changes p (refreshSynce (linkDownTold p s))
  have hcfg : SameConfig s (refreshSynce (linkDownTold p s)) := (sameConfig_of_changes htold).trans hsynce.sameConfig
  have hrd {f : Fld} (hs : ¬ StatKey f.off) (hb : bitsApart prtLinkStatus_linkUp f = true) :
      rdC f p (refreshSynce (linkDownTold p s)) = rdC f p s := (rdC_refreshSynce p _ hs).trans (rdC_linkDownTold hs hb)
  have hafter : Changes [keyOfField prtLinkStatus_linkUp 0 p] [rkey (prtCtrs.lo + 8 * 20) p, rkey (prtCtrs.lo + 8 * 22) p]
      (refreshSynce (linkDownTold p s)) (flap p (refreshSynce (linkDownTold p s))) := hflap.mono (fun _ h => h) fun _ h => List.mem_cons_of_mem _ h
  rw [portDown_of_up hup]
  refine ⟨?_, ?_, fun h => ?_, fun hs hm => ?_, hafter, ?_⟩
  · exact (rdC_flap (by decide) (by decide) (by decide)).trans ((rdC_refreshSynce p _ (by decide)).trans (rdC_linkUp_linkDownTold p s))
  · exact hflap.causes prtLinkDown (hsynce.causes (raiseC_asserted _ _ (by decide)))
  · refine (hflap.ctr (by decide) (List.mem_singleton.not.2 (ctrKey_ne (by decide)))).trans ?_
    exact (hsynce.ctr (by decide) List.not_mem_nil).trans (ctr_linkDownTold hon h)
  · rw [rdC_flapCount_flap ((hrd (by decide) (by decide)).trans hs) ((hcfg.cfC _ _).trans hm), hrd (by decide) (by decide)]
  · refine SynceChanges.trans ?_ hafter.synce
    refine SynceChanges.trans (htold.synce.mono (fun _ h => h) fun _ h => List.mem_cons.2 (.inl (List.mem_singleton.1 h))) ?_
    exact hsynce.mono (fun _ h => nomatch h) fun _ h => nomatch h

/-! ### A remote fault -/

theorem linkGone_of_on {p : Nat} {s : State} (h : chanOn .prt p s = true) : linkGone p s = s := linkGone_of_runs (chanRuns_of_chanOn h)

theorem exec_remoteFaultReceived {p : Nat} {s : State} (hp : p < 256) (hon : chanOn .prt p s = true)
    (hon' : chanOn .prt p (remoteFault p s) = true) : exec (.remoteFaultReceived p) s = .next (remoteFault p s) :=
  (onLivePort_of_on hp hon rfl _).trans (congrArg _ (linkGone_of_on hon'))

theorem remoteFault_of_down {p : Nat} {s : State} (h : rdC prtLinkStatus_linkUp p s = 0) : remoteFault p s = wrC prtLinkStatus_remoteFault p 1 s :=
  if_neg (by rw [h]; decide)

theorem remoteFault_of_up {p : Nat} {s : State} (h : rdC prtLinkStatus_linkUp p s = 1) :
    remoteFault p s = raiseC prtRemoteFault p (portDown p (wrC prtLinkStatus_remoteFault p 1 s)) := if_pos h

theorem rdC_remoteFault_portDown {p : Nat} {s : State} (hup : rdC prtLinkStatus_linkUp p s = 1) :
    rdC prtLinkStatus_remoteFault p (portDown p s) = rdC prtLinkStatus_remoteFault p s := by
  rw [portDown_of_up hup]
  refine (rdC_flap (by decide) (by decide) (by decide)).trans ?_
  exact (rdC_refreshSynce p _ (by decide)).trans (rdC_linkDownTold (by decide) (by decide))

/-! ### Work on lanes alone -/

/-- The registers in which the link sequence of a lane works: LAN.LINK_STATUS and LAN.LINK_COUNTS. -/
def laneWorkOff (o : Nat) : Bool := o == lanLinkStatus_linkState.off || o == lanLinkCounts_linkDown.off

/-- What work on lanes keeps: configuration, causes, counters, and every register but those of `laneWorkOff`. -/
structure LaneWork (s t : State) : Prop where
  config : SameConfig s t
  causes : ∀ e, Asserted e s → Asserted e t
  counters : ∀ (k : CtrSet) (i c : Nat), (k.lo + 8 * i) % 0x40000 ≠ pcnCntLo_count.off → ctr k i c t = ctr k i c s
  regs : ∀ (f : Fld) (c : Nat), f.lo + f.w ≤ 32 → f.off < 0x40000 → ¬ StatKey f.off → laneWorkOff f.off = false → rdC f c t = rdC f c s

theorem LaneWork.refl (s : State) : LaneWork s s := ⟨⟨rfl, rfl⟩, fun _ h => h, fun _ _ _ _ => rfl, fun _ _ _ _ _ _ => rfl⟩

theorem LaneWork.trans {s t u : State} (h : LaneWork s t) (h' : LaneWork t u) : LaneWork s u :=
  ⟨h.config.trans h'.config, fun e he => h'.causes e (h.causes e he), fun k i c ho => (h'.counters k i c ho).trans (h.counters k i c ho),
    fun f c hw hf hs ho => (h'.regs f c hw hf hs ho).trans (h.regs f c hw hf hs ho)⟩

theorem LaneWork.foldOver {α : Type} {g : α → State → State} (hg : ∀ x a, LaneWork a (g x a)) (l : List α) (s : State) :
    LaneWork s (Sys2Proof.Machine.foldOver l g s) :=
  foldOver_induct (P := LaneWork s) (fun x a ha => ha.trans (hg x a)) l (LaneWork.refl s)

theorem laneWork_wrC {f : Fld} (hf : f.off < 0x40000) (ho : laneWorkOff f.off = true) (c v : Nat) (s : State) : LaneWork s (wrC f c v s) := by
  refine ⟨⟨rfl, rfl⟩, fun _ h => h, fun _ _ _ _ => rfl, fun g d hw hg _ hn => rdC_wrC_offs v s (decide_eq_true ⟨hw, fun he => ?_⟩)⟩
  have hoff : g.off = f.off := by omega
  rw [hoff, ho] at hn
  cases hn

theorem laneWork_raiseC (e : Src) (c : Nat) (s : State) : LaneWork s (raiseC e c s) :=
  ⟨sameConfig_raiseC e c s, (raiseC_onlyEvents e c s).causes, fun _ _ _ ho => (raiseC_onlyEvents e c s).ctr ho List.not_mem_nil,
    fun _ d _ _ hs _ => rdC_raiseC d e c s hs⟩

theorem laneWork_refreshSynce (s : State) : LaneWork s (refreshSynce s) :=
  ⟨sameConfig_refreshSynce s, fun _ he => (synceChanges_refreshSynce [] [] s).causes he,
    fun _ _ _ ho => (synceChanges_refreshSynce [] [] s).ctr ho List.not_mem_nil, fun _ d _ _ hs _ => rdC_refreshSynce d s hs⟩

theorem laneWork_laneDown (l : Nat) (s : State) : LaneWork s (laneDown l s) := by
  unfold laneDown
  split
  · exact (laneWork_wrC (f := lanLinkCounts_linkDown) (by decide) (by decide) l _ s).trans (laneWork_raiseC _ _ _)
  · exact LaneWork.refl s

theorem laneWork_clearPass (l : Nat) (s : State) : LaneWork s (clearPass l s) := by
  have hlanes (x : Lanes) : LaneWork s { s with lanes := x } :=
    ⟨⟨rfl, rfl⟩, fun _ h => Asserted.of_evt h rfl, fun _ _ _ _ => rfl, fun f c _ _ _ _ => rdX_with_lanes f 0 c s x⟩
  have hwr {f : Fld} (hf : f.off = lanLinkStatus_linkState.off) (v : Nat) (a : State) : LaneWork a (wrC f l v a) :=
    laneWork_wrC (by rw [hf]; decide) (by rw [hf]; decide) l v a
  unfold clearPass
  exact (((hlanes _).trans (hwr (f := lanLinkStatus_commaLock) rfl 0 _)).trans (hwr (f := lanLinkStatus_cdrLock) rfl 0 _)).trans
    (hwr (f := lanLinkStatus_trained) rfl 0 _)

theorem laneWork_setLane (l v : Nat) (s : State) : LaneWork s (setLane l v s) := laneWork_wrC (by decide) (by decide) l v s

theorem laneWork_testLane (l : Nat) (s : State) : LaneWork s (testLane l s) := by
  have hwr {f : Fld} (hf : f.off = lanLinkStatus_linkState.off) (v : Nat) (a : State) : LaneWork a (wrC f l v a) :=
    laneWork_wrC (by rw [hf]; decide) (by rw [hf]; decide) l v a
  unfold testLane baseRate
  dsimp only
  refine LaneWork.trans ?_ (laneWork_setLane l 13 _)
  refine LaneWork.trans ?_ (hwr (f := lanLinkStatus_liveRate) rfl _ _)
  refine LaneWork.trans ?_ (hwr (f := lanLinkStatus_liveTxPrecode) rfl _ _)
  exact (laneWork_clearPass l s).trans (hwr (f := lanLinkStatus_liveRxPrecode) rfl _ _)

theorem laneWork_holdLane (l : Nat) (s : State) : LaneWork s (holdLane l s) := by
  unfold holdLane
  split
  · exact LaneWork.refl s
  · split
    · exact laneWork_testLane l s
    · exact (laneWork_clearPass l s).trans (laneWork_setLane l _ _)

/-! ### The lanes of a port whose link goes down -/

/-- A lane in hold-down, untrained and unlocked. -/
def LaneHeld (k : Nat) (s : State) : Prop :=
  laneState k s = 1 ∧ rdC lanLinkStatus_trained k s = 0 ∧ rdC lanLinkStatus_cdrLock k s = 0

/-- The lane of a port that asks for its link and of which nothing else stops the sequence. -/
structure LaneAsked (k : Nat) (s : State) : Prop where
  on : chanOn .lan k s = true
  mode : laneMode k s = 0
  asked : laneRequested k s = true

theorem LaneAsked.of_sameConfig {k : Nat} {s t : State} (h : LaneAsked k s) (hc : SameConfig s t) : LaneAsked k t :=
  ⟨(hc.chanOn _ _).trans h.on, (hc.laneMode _).trans h.mode, (hc.laneRequested _).trans h.asked⟩

theorem rdC_wrC_copy {f g : Fld} {c d : Nat} (v : Nat) (s : State) (h : d ≠ c) (hf : f.off < 0x40000) (hg : g.off < 0x40000) :
    rdC g d (wrC f c v s) = rdC g d s :=
  rdX_wrX_copy v s h (by simp [hf, hg])

theorem rdC_clearPass_other {g : Fld} {k l : Nat} (h : k ≠ l) (hg : g.off < 0x40000) (s : State) : rdC g k (clearPass l s) = rdC g k s := by
  unfold clearPass
  rw [rdC_wrC_copy _ _ h (by decide) hg, rdC_wrC_copy _ _ h (by decide) hg, rdC_wrC_copy _ _ h (by decide) hg]
  exact rdX_with_lanes _ _ _ _ _

/-- Hold-down of one lane leaves the registers of another alone. -/
theorem rdC_holdLane_other {g : Fld} {k l : Nat} (h : k ≠ l) (hg : g.off < 0x40000) (s : State) : rdC g k (holdLane l s) = rdC g k s := by
  unfold holdLane
  split
  · rfl
  · split
    · unfold testLane setLane baseRate
      dsimp only
      rw [rdC_wrC_copy _ _ h (by decide) hg, rdC_wrC_copy _ _ h (by decide) hg, rdC_wrC_copy _ _ h (by decide) hg,
        rdC_wrC_copy _ _ h (by decide) hg, rdC_clearPass_other h hg]
    · unfold setLane
      rw [rdC_wrC_copy _ _ h (by decide) hg, rdC_clearPass_other h hg]

theorem LaneAsked.holdLane {k : Nat} {s : State} (h : LaneAsked k s) : LaneHeld k (holdLane k s) := by
  have hold : Sys2Proof.Machine.holdLane k s = setLane k 1 (clearPass k s) := by
    simp [Sys2Proof.Machine.holdLane, h.on, h.mode, h.asked]
  rw [hold]
  unfold LaneHeld laneState setLane clearPass
  refine ⟨rdC_wrC_same_fits (by decide) (by decide), ?_, ?_⟩
  · rw [rdC_wrC_bits_same _ _ (by decide)]
    exact rdC_wrC_same_fits (by decide) (by decide)
  · rw [rdC_wrC_bits_same _ _ (by decide), rdC_wrC_bits_same _ _ (by decide)]
    exact rdC_wrC_same_fits (by decide) (by decide)

theorem LaneHeld.holdLane {k l : Nat} {s : State} (h : LaneHeld k s) (ha : LaneAsked k s) : LaneHeld k (holdLane l s) := by
  by_cases hk : k = l
  · subst hk
    exact ha.holdLane
  · obtain ⟨h1, h2, h3⟩ := h
    exact ⟨(rdC_holdLane_other hk (by decide) s).trans h1, (rdC_holdLane_other hk (by decide) s).trans h2,
      (rdC_holdLane_other hk (by decide) s).trans h3⟩

theorem laneHeld_foldOver {k : Nat} {ls : List Nat} {s : State} (hk : k ∈ ls) (ha : LaneAsked k s) : LaneHeld k (foldOver ls holdLane s) := by
  induction ls generalizing s with
  | nil => cases hk
  | cons l ls ih =>
    have ha' : LaneAsked k (holdLane l s) := ha.of_sameConfig (laneWork_holdLane l s).config
    rcases List.mem_cons.1 hk with rfl | hk
    · have hkeep := foldOver_induct (P := fun a => LaneHeld k a ∧ LaneAsked k a)
        (fun x a hx => ⟨hx.1.holdLane hx.2, hx.2.of_sameConfig (laneWork_holdLane x a).config⟩) ls ⟨ha.holdLane, ha'⟩
      exact hkeep.1
    · exact ih hk ha'

theorem rdC_foldOver_holdLane {g : Fld} {k : Nat} {ls : List Nat} (hk : k ∉ ls) (hg : g.off < 0x40000) (s : State) :
    rdC g k (foldOver ls holdLane s) = rdC g k s := by
  induction ls generalizing s with
  | nil => rfl
  | cons l ls ih =>
    rw [List.mem_cons, not_or] at hk
    exact (ih hk.2 _).trans (rdC_holdLane_other hk.1 hg s)

theorem rdC_laneDown {g : Fld} (k l : Nat) (s : State) (hs : ¬ StatKey g.off) (ho : offsApart lanLinkCounts_linkDown 0 g 0 = true) :
    rdC g k (laneDown l s) = rdC g k s := by
  unfold laneDown
  split
  · exact (rdC_raiseC k _ _ _ hs).trans (rdX_wrX_offs _ _ ho)
  · rfl

theorem laneState_foldOver_laneDown (k : Nat) (ls : List Nat) (s : State) : laneState k (foldOver ls laneDown s) = laneState k s :=
  foldOver_induct (P := fun a => laneState k a = laneState k s) (fun x a ha => (rdC_laneDown k x a (by decide) (by decide)).trans ha) ls rfl

/-! ### A fault of the PCS that lasts (R169) -/

theorem mem_portLanes (p : Nat) (s : State) : p ∈ portLanes p s := by
  unfold portLanes widthOf
  refine List.mem_map.2 ⟨0, List.mem_range.2 ?_, rfl⟩
  split
  · decide
  · split
    · decide
    · split <;> decide

theorem lt_of_portOfLane {k p : Nat} {s : State} (hp : p < 256) (h : portOfLane k s = some p) : k < 256 := by
  obtain ⟨i, hi, rfl⟩ := List.mem_map.1 (List.mem_of_find?_eq_some h)
  have := List.mem_range.1 hi
  omega

theorem laneRequested_of_port {k p : Nat} {s : State} (hp : p < 256) (h : portOfLane k s = some p) (hr : chanRuns .prt p s = true) :
    laneRequested k s = true := by
  have ht : isTieLane k = false := decide_eq_false (by have := lt_of_portOfLane hp h; omega)
  simp [laneRequested, ht, h, hr]

/-- The port without its link and its PCS lock. -/
def linkDropped (p : Nat) (s : State) : State := wrC prtLinkStatus_pcsLock p 0 (portDown p s)

theorem dropLanes_of_port {p : Nat} {s : State} (hp : p < 256) (h : portOfLane p s = some p) :
    dropLanes p s = refreshSynce (foldOver (portLanes p s) holdLane (foldOver (portLanes p s) laneDown (linkDropped p s))) := by
  have ht : isTieLane p = false := decide_eq_false (by omega)
  have hg : groupLanes p s = portLanes p s := by simp [groupLanes, ht, h]
  unfold dropLanes
  simp only [hg, ht, h]
  rfl

theorem laneWork_dropped (ls : List Nat) (s : State) : LaneWork s (refreshSynce (foldOver ls holdLane (foldOver ls laneDown s))) :=
  ((LaneWork.foldOver laneWork_laneDown ls s).trans (LaneWork.foldOver laneWork_holdLane ls _)).trans (laneWork_refreshSynce _)

theorem laneHeld_refreshSynce {k : Nat} {s : State} (h : LaneHeld k s) : LaneHeld k (refreshSynce s) := by
  obtain ⟨h1, h2, h3⟩ := h
  exact ⟨(rdC_refreshSynce k s (by decide)).trans h1, (rdC_refreshSynce k s (by decide)).trans h2, (rdC_refreshSynce k s (by decide)).trans h3⟩

end Sys2Proof.Machine
end

section
/-! PROOFS. Ethernet ports: lasting faults, the link-up timer and the obligation (R168 to R170). -/

namespace Sys2Proof.Machine

/-! ### A fault of the PCS that lasts (R169) -/

theorem linkDropped_spec {p : Nat} {s : State} (hon : chanOn .prt p s = true) (hup : rdC prtLinkStatus_linkUp p s = 1) :
    rdC prtLinkStatus_linkUp p (linkDropped p s) = 0 ∧ rdC prtLinkStatus_pcsLock p (linkDropped p s) = 0 ∧ Asserted prtLinkDown (linkDropped p s) ∧
      (ctr prtCtrs 20 p s + 1 < 2 ^ 64 → ctr prtCtrs 20 p (linkDropped p s) = ctr prtCtrs 20 p s + 1) ∧
      (rdC prtLinkStatus_suppressed p s = 0 → cfC prtDebounce_flapMax p s = 0 →
        rdC prtLinkStatus_flapCount p (linkDropped p s) = min (rdC prtLinkStatus_flapCount p s + 1) 15) ∧
      SynceChanges [keyOfField prtLinkStatus_linkUp 0 p] [rkey (prtCtrs.lo + 8 * 20) p, rkey (prtCtrs.lo + 8 * 22) p] s (linkDropped p s) := by
  have h := portDown_fell hon hup
  have hwr : Changes [keyOfField prtLinkStatus_linkUp 0 p] [rkey (prtCtrs.lo + 8 * 20) p, rkey (prtCtrs.lo + 8 * 22) p] (portDown p s)
      (linkDropped p s) := wrC_changes prtLinkStatus_pcsLock _ _ _ (statusKey _ p rfl)
  refine ⟨(rdC_wrC_bits_same _ _ (by decide)).trans h.down, rdC_wrC_same_fits (by decide) (by decide), hwr.causes _ h.told, h.counted, fun hs hm => ?_,
    h.all.trans hwr.synce⟩
  exact (rdC_wrC_bits_same _ _ (by decide)).trans (h.flapped hs hm)

theorem laneState_of_synceChanges {p : Nat} {cs : List Nat} {s t : State} (h : SynceChanges [keyOfField prtLinkStatus_linkUp 0 p] cs s t) (k : Nat) :
    laneState k t = laneState k s :=
  h.rdC k (by decide) (List.mem_singleton.not.2 (keyOfField_ne_of_off (by decide) k p))

/-- What the loss of a port's link through a lasting fault leaves. -/
theorem dropLanes_spec {p : Nat} {s : State} (hp : p < 256) (hon : chanOn .prt p s = true) (hup : rdC prtLinkStatus_linkUp p s = 1)
    (hlanes : ∀ k ∈ portLanes p s, portOfLane k s = some p) :
    rdC prtLinkStatus_linkUp p (dropLanes p s) = 0 ∧ rdC prtLinkStatus_pcsLock p (dropLanes p s) = 0 ∧ Asserted prtLinkDown (dropLanes p s) ∧
      (ctr prtCtrs 20 p s + 1 < 2 ^ 64 → ctr prtCtrs 20 p (dropLanes p s) = ctr prtCtrs 20 p s + 1) ∧
      (rdC prtLinkStatus_suppressed p s = 0 → cfC prtDebounce_flapMax p s = 0 →
        rdC prtLinkStatus_flapCount p (dropLanes p s) = min (rdC prtLinkStatus_flapCount p s + 1) 15) ∧
      (∀ k ∈ portLanes p s, chanOn .lan k s = true → laneMode k s = 0 → LaneHeld k (dropLanes p s)) ∧
      (∀ k, k ∉ portLanes p s → laneState k (dropLanes p s) = laneState k s) ∧ SameConfig s (dropLanes p s) := by
  obtain ⟨hdown, hlock, htold, hcount, hflap, hall⟩ := linkDropped_spec hon hup
  have hwork := laneWork_dropped (portLanes p s) (linkDropped p s)
  have hdrop := dropLanes_of_port hp (hlanes p (mem_portLanes p s))
  rw [← hdrop] at hwork
  have hrd {f : Fld} (hw : f.lo + f.w ≤ 32) (hf : f.off < 0x40000) (hs : ¬ StatKey f.off) (ho : laneWorkOff f.off = false) :
      rdC f p (dropLanes p s) = rdC f p (linkDropped p s) := hwork.regs f p hw hf hs ho
  have hcfg : SameConfig s (foldOver (portLanes p s) laneDown (linkDropped p s)) :=
    hall.sameConfig.trans (LaneWork.foldOver laneWork_laneDown _ _).config
  refine ⟨(hrd (by decide) (by decide) (by decide) (by decide)).trans hdown, (hrd (by decide) (by decide) (by decide) (by decide)).trans hlock,
    hwork.causes _ htold, fun h => (hwork.counters _ _ _ (by decide)).trans (hcount h), fun hs hm => ?_, fun k hk hkon hmode => ?_, fun k hk => ?_,
    hall.sameConfig.trans hwork.config⟩
  · exact (hrd (by decide) (by decide) (by decide) (by decide)).trans (hflap hs hm)
  · have hasked : LaneAsked k s := ⟨hkon, hmode, laneRequested_of_port hp (hlanes k hk) (chanRuns_of_chanOn hon)⟩
    rw [hdrop]
    exact laneHeld_refreshSynce (laneHeld_foldOver hk (hasked.of_sameConfig hcfg))
  · rw [hdrop]
    refine (rdC_refreshSynce k _ (by decide)).trans ((rdC_foldOver_holdLane hk (by decide) _).trans ?_)
    exact (laneState_foldOver_laneDown k _ _).trans (laneState_of_synceChanges hall k)

theorem exec_pcsFaultPersist {p : Nat} {s : State} (hp : p < 256) (hon : chanOn .prt p s = true) (hup : rdC prtLinkStatus_linkUp p s = 1)
    (hf : pcsFaulty p s = true) (hcfg : SameConfig s (dropLanes p s)) : exec (.pcsFaultPersist p) s = .next (dropLanes p s) :=
  (onLivePort_of_on hp hon (by rw [hf, decide_eq_true hup]; rfl) _).trans (congrArg _ (linkGone_of_on ((hcfg.chanOn _ _).trans hon)))

/-! ### A remote fault (R169) -/

theorem remoteFault_up_spec {p : Nat} {s u : State} (hon : chanOn .prt p s = true) (hup : rdC prtLinkStatus_linkUp p s = 1)
    (hu : u = linkDownTold p (wrC prtLinkStatus_remoteFault p 1 s)) :
    rdC prtLinkStatus_linkUp p (remoteFault p s) = 0 ∧ rdC prtLinkStatus_remoteFault p (remoteFault p s) = 1 ∧
      Asserted prtLinkDown (remoteFault p s) ∧ Asserted prtRemoteFault (remoteFault p s) ∧
      (ctr prtCtrs 20 p s + 1 < 2 ^ 64 → ctr prtCtrs 20 p (remoteFault p s) = ctr prtCtrs 20 p s + 1) ∧
      (rdC prtLinkStatus_suppressed p s = 0 → cfC prtDebounce_flapMax p s = 0 →
        rdC prtLinkStatus_flapCount p (remoteFault p s) = min (rdC prtLinkStatus_flapCount p s + 1) 15) ∧
      Changes [keyOfField prtLinkStatus_linkUp 0 p] [rkey (prtCtrs.lo + 8 * 20) p, rkey (prtCtrs.lo + 8 * 22) p] (refreshSynce u) (remoteFault p s) ∧
      chanOn .prt p (remoteFault p s) = true := by
  have hup' : rdC prtLinkStatus_linkUp p (wrC prtLinkStatus_remoteFault p 1 s) = 1 := (rdC_wrC_bits_same _ _ (by decide)).trans hup
  have hfell := portDown_fell (s := wrC prtLinkStatus_remoteFault p 1 s) hon hup'
  have hrf : rdC prtLinkStatus_remoteFault p (portDown p (wrC prtLinkStatus_remoteFault p 1 s)) = 1 :=
    (rdC_remoteFault_portDown hup').trans (rdC_wrC_same_fits (by decide) (by decide))
  have hsup : rdC prtLinkStatus_suppressed p (wrC prtLinkStatus_remoteFault p 1 s) = rdC prtLinkStatus_suppressed p s :=
    rdC_wrC_bits_same _ _ (by decide)
  have hcnt : rdC prtLinkStatus_flapCount p (wrC prtLinkStatus_remoteFault p 1 s) = rdC prtLinkStatus_flapCount p s :=
    rdC_wrC_bits_same _ _ (by decide)
  have hflapped := hfell.flapped
  rw [hsup, hcnt] at hflapped
  have hev := raiseC_onlyEvents prtRemoteFault p (portDown p (wrC prtLinkStatus_remoteFault p 1 s))
  rw [remoteFault_of_up hup, hu]
  refine ⟨(rdC_raiseC p _ _ _ (by decide)).trans hfell.down, (rdC_raiseC p _ _ _ (by decide)).trans hrf, hev.causes _ hfell.told,
    raiseC_asserted _ _ (by decide), fun h => (hev.ctr (by decide) List.not_mem_nil).trans (hfell.counted h),
    fun hs hm => (rdC_raiseC p _ _ _ (by decide)).trans (hflapped hs hm), hfell.after.events hev, ?_⟩
  exact ((hfell.all.sameConfig.trans (sameConfig_of_changes hev)).chanOn .prt p).trans hon

/-! ### The link-up timer (R168) -/

theorem linkReady_of_missing {p : Nat} {s : State}
    (h : allIn 6 (portLanes p s) s = false ∨ rdC prtLinkStatus_pcsLock p s = 0 ∨ rdC prtLinkStatus_localFault p s = 1 ∨
      rdC prtLinkStatus_remoteFault p s = 1 ∨ (cfC prtPortCfg_speed p s = 0 ∧ cfC prtPortCfg_c37An p s = 1 ∧ c37Done p s = false)) :
    linkReady p s = false := by
  unfold linkReady runsC37
  rcases h with h | h | h | h | ⟨h, h1, h2⟩
  · simp [h]
  · simp [h]
  · simp [h]
  · simp [h]
  · simp [h, h1, h2]

theorem linkReady_of_all {p : Nat} {s : State} (hd : allIn 6 (portLanes p s) s = true) (hl : rdC prtLinkStatus_pcsLock p s = 1)
    (hf : rdC prtLinkStatus_localFault p s = 0) (hr : rdC prtLinkStatus_remoteFault p s = 0)
    (hc : cfC prtPortCfg_speed p s = 0 → cfC prtPortCfg_c37An p s = 1 → c37Done p s = true) : linkReady p s = true := by
  unfold linkReady
  have h37 : (!runsC37 p s || c37Done p s) = true := by
    by_cases hrun : runsC37 p s = true
    · obtain ⟨h0, h1⟩ := of_decide_eq_true hrun
      rw [hc h0 h1, Bool.or_true]
    · rw [Bool.not_eq_true] at hrun
      rw [hrun]
      rfl
  rw [hd, h37, decide_eq_true ⟨hl, hf, hr⟩]
  rfl

/-- What the timer shows before the squelch follows. -/
def linkRisen (p rx tx : Nat) (s : State) : State :=
  raiseC prtLinkUp p (wrC prtLinkStatus_linkUp p 1 (wrC prtLinkStatus_speedLive p (cfC prtPortCfg_speed p s) (showFec p (dropMarks p
    (wrC prtTsDelay_rxFixed p rx (wrC prtTsDelay_txFixed p tx s))))))

theorem fecInUse_lt (p : Nat) (s : State) : fecInUse p s < 2 ^ 2 := by
  unfold fecInUse
  split
  · exact b2n_lt _ (by decide)
  · exact cfX_lt prtPortCfg_fec 0 p s

theorem fecInUse_congr {p : Nat} {s t : State} (hc : SameConfig s t) (hp : partnerPage p t = partnerPage p s) : fecInUse p t = fecInUse p s := by
  unfold fecInUse
  rw [hp, hc.cfC, hc.cfC, hc.cfC]

/-- The delays stored, and the marks of an earlier bad codeword dropped. -/
def delaysShown (p rx tx : Nat) (s : State) : State := dropMarks p (wrC prtTsDelay_rxFixed p rx (wrC prtTsDelay_txFixed p tx s))

theorem rdC_delaysShown {f : Fld} {c p rx tx : Nat} {s : State} (h : offsApart prtTsDelay_rxFixed 0 f 0 = true) :
    rdC f c (delaysShown p rx tx s) = rdC f c s := by
  unfold delaysShown dropMarks
  dsimp only
  refine (rdX_with_lanes _ _ _ _ _).trans ?_
  exact (rdC_wrC_offs (f := prtTsDelay_rxFixed) _ _ h).trans (rdC_wrC_offs (f := prtTsDelay_txFixed) _ _ h)

theorem delaysShown_spec (p rx tx : Nat) (s : State) :
    rdC prtTsDelay_rxFixed p (delaysShown p rx tx s) = rx % 2 ^ prtTsDelay_rxFixed.w ∧
      rdC prtTsDelay_txFixed p (delaysShown p rx tx s) = tx % 2 ^ prtTsDelay_txFixed.w ∧
      Changes [keyOfField prtTsDelay_rxFixed 0 p, keyOfField prtTsDelay_txFixed 0 p] []
        { s with lanes := { s.lanes with fecBad := smod (fun _ => 0) s.lanes.fecBad p (min (b2n (rxPort p s).busy)) } } (delaysShown p rx tx s) := by
  have hch : Changes [keyOfField prtTsDelay_rxFixed 0 p, keyOfField prtTsDelay_txFixed 0 p] [] s
      (wrC prtTsDelay_rxFixed p rx (wrC prtTsDelay_txFixed p tx s)) :=
    (wrC_changes _ _ _ _ (List.mem_cons_of_mem _ (List.mem_singleton.2 rfl))).trans (wrC_changes _ _ _ _ List.mem_cons_self)
  unfold delaysShown dropMarks
  dsimp only
  refine ⟨(rdX_with_lanes _ _ _ _ _).trans (rdX_wrX_same _ _ _ _ _ (by decide)), ?_, ?_⟩
  · exact (rdX_with_lanes _ _ _ _ _).trans ((rdC_wrC_bits_same _ _ (by decide)).trans (rdX_wrX_same _ _ _ _ _ (by decide)))
  · exact hch.with_lanes _

theorem linkRisen_eq (p rx tx : Nat) (s : State) :
    linkRisen p rx tx s = raiseC prtLinkUp p (wrC prtLinkStatus_linkUp p 1 (wrC prtLinkStatus_speedLive p (cfC prtPortCfg_speed p s)
      (wrC prtLinkStatus_fecActive p (fecInUse p s) (delaysShown p rx tx s)))) := by
  have hpage : partnerPage p (delaysShown p rx tx s) = partnerPage p s := by
    unfold partnerPage
    rw [rdC_delaysShown (by decide), rdC_delaysShown (by decide)]
  have hfec : fecInUse p (delaysShown p rx tx s) = fecInUse p s := fecInUse_congr ⟨rfl, rfl⟩ hpage
  rw [← hfec]
  rfl

theorem linkRisen_spec (p rx tx : Nat) (s : State) :
    rdC prtLinkStatus_linkUp p (linkRisen p rx tx s) = 1 ∧ rdC prtLinkStatus_speedLive p (linkRisen p rx tx s) = cfC prtPortCfg_speed p s ∧
      rdC prtLinkStatus_fecActive p (linkRisen p rx tx s) = fecInUse p s ∧
      rdC prtTsDelay_rxFixed p (linkRisen p rx tx s) = rx % 2 ^ prtTsDelay_rxFixed.w ∧
      rdC prtTsDelay_txFixed p (linkRisen p rx tx s) = tx % 2 ^ prtTsDelay_txFixed.w ∧ Asserted prtLinkUp (linkRisen p rx tx s) ∧
      Changes [keyOfField prtLinkStatus_linkUp 0 p, keyOfField prtTsDelay_rxFixed 0 p, keyOfField prtTsDelay_txFixed 0 p] []
        { s with lanes := { s.lanes with fecBad := smod (fun _ => 0) s.lanes.fecBad p (min (b2n (rxPort p s).busy)) } } (linkRisen p rx tx s) := by
  obtain ⟨hrx, htx, hch⟩ := delaysShown_spec p rx tx s
  have hkey {f : Fld} (h : f.off + 0 * f.stride = prtLinkStatus_linkUp.off + 0 * prtLinkStatus_linkUp.stride) :
      keyOfField f 0 p ∈ [keyOfField prtLinkStatus_linkUp 0 p, keyOfField prtTsDelay_rxFixed 0 p, keyOfField prtTsDelay_txFixed 0 p] :=
    List.mem_cons.2 (.inl (congrArg (fun o => rkey o p) h))
  rw [linkRisen_eq]
  refine ⟨?_, ?_, ?_, ?_, ?_, raiseC_asserted _ _ (by decide), ?_⟩
  · exact (rdC_raiseC p _ _ _ (by decide)).trans (rdC_wrC_same_fits (by decide) (by decide))
  · refine (rdC_raiseC p _ _ _ (by decide)).trans ((rdC_wrC_bits_same _ _ (by decide)).trans ?_)
    exact rdC_wrC_same_fits (by decide) (cfX_lt prtPortCfg_speed 0 p s)
  · refine (rdC_raiseC p _ _ _ (by decide)).trans ((rdC_wrC_bits_same _ _ (by decide)).trans ((rdC_wrC_bits_same _ _ (by decide)).trans ?_))
    exact rdC_wrC_same_fits (by decide) (fecInUse_lt p s)
  · rw [rdC_raiseC p _ _ _ (by decide), rdC_wrC_offs _ _ (by decide), rdC_wrC_offs _ _ (by decide), rdC_wrC_offs _ _ (by decide), hrx]
  · rw [rdC_raiseC p _ _ _ (by decide), rdC_wrC_offs _ _ (by decide), rdC_wrC_offs _ _ (by decide), rdC_wrC_offs _ _ (by decide), htx]
  · refine Changes.events ?_ (raiseC_onlyEvents _ _ _)
    refine Changes.trans ?_ (wrC_changes prtLinkStatus_linkUp _ _ _ (hkey rfl))
    refine Changes.trans ?_ (wrC_changes prtLinkStatus_speedLive _ _ _ (hkey rfl))
    exact (hch.mono (fun _ h => List.mem_cons_of_mem _ h) fun _ h => h).trans (wrC_changes prtLinkStatus_fecActive _ _ _ (hkey rfl))

theorem linkUp_eq (p rx tx : Nat) (s : State) : linkUp p rx tx s = refreshSynce (linkRisen p rx tx s) := rfl

theorem exec_linkUpTimer {p : Nat} {s : State} (hp : p < 256) (rx tx : Nat) :
    exec (.linkUpTimer p rx tx) s = .next (onlyIf (decide (rdC prtLinkStatus_linkUp p s = 0 ∧ rdC prtLinkStatus_suppressed p s = 0) && linkReady p s &&
      chanOn .prt p s) (linkUp p rx tx) s) := guarded_of_true (decide_eq_true hp) _

/-- Settles O32, a lemma for each command. -/
theorem portsFaultRiseAndFlap : Obligations.PortsFaultRiseAndFlap := by
  unfold Obligations.PortsFaultRiseAndFlap
  intro p s hp hon
  have hdo {c : Bool} (hc : c = true) (f : State → State) : onLivePort p c f s = .next (f s) := onLivePort_of_on hp hon hc f
  refine ⟨fun hfec => ⟨fun frames => ?_, fun n frames h0 hm hn => ?_, fun n frames hn => ?_⟩, fun hdata => ?_, fun hup hdata k hk => ?_, ?_,
    fun hup => ?_, fun hup => ⟨fun k hk => ?_, fun hf hlanes => ?_, ?_⟩, fun rx tx hup h => ?_, fun hup hs hd hl hlf hrf hc rx tx => ?_, fun hs => ?_,
    fun hs => ?_⟩
  · exact (hdo (decide_eq_true hfec) _).trans (congrArg _ (if_pos rfl))
  · obtain ⟨hch, hctr⟩ := portCount_corrected_spec (n := n) hon
    exact ⟨_, (hdo (decide_eq_true hfec) _).trans (congrArg _ (fecDecode_corrected h0 hm hn)), hch, hctr⟩
  · exact ⟨_, (hdo (decide_eq_true hfec) _).trans (congrArg _ (fecDecode_lost hn)), fecBad_spec hon⟩
  · refine ⟨_, (hdo rfl _).trans (congrArg _ (pcsFault_clear hdata)), pcsFaulty_cleared p s, ?_⟩
    exact ((wrC_changes prtLinkStatus_localFault _ _ _ (statusKey _ p rfl)).trans (wrC_changes prtLinkStatus_hiBer _ _ _ (statusKey _ p rfl))).trans
      (wrC_changes prtLinkStatus_pcsLock _ _ _ (statusKey _ p rfl))
  · obtain ⟨hfault, hch⟩ := showFault_spec (p := p) hk s
    exact ⟨_, (hdo rfl _).trans (congrArg _ (pcsFault_down hk hup hdata)), raiseC_asserted _ _ (by decide), (pcsFaulty_raiseC _ _ _ _).trans hfault,
      hch.events (raiseC_onlyEvents _ _ _)⟩
  · exact hdo rfl _
  · have hrf := remoteFault_of_down hup
    rw [exec_remoteFaultReceived hp hon (by rw [hrf]; exact hon), hrf]
  · exact ⟨_, hdo rfl _, pcsFault_up_spec hon hk hup⟩
  · obtain ⟨hdown, hlock, htold, hcount, hflap, hheld, hother, hcfg⟩ := dropLanes_spec hp hon hup hlanes
    exact ⟨_, exec_pcsFaultPersist hp hon hup hf hcfg, hdown, hlock, htold, hcount, hflap, hheld, fun k _ hk => hother k hk⟩
  · obtain ⟨hdown, hrf, htold, htold', hcount, hflap, hch, hon'⟩ := remoteFault_up_spec hon hup rfl
    exact ⟨_, _, exec_remoteFaultReceived hp hon hon', rfl, hdown, hrf, htold, htold', hcount, hflap, hch⟩
  · refine (exec_linkUpTimer hp rx tx).trans (congrArg _ (onlyIf_of_false ?_ _ _))
    by_cases hs : rdC prtLinkStatus_suppressed p s = 1
    · simp [hs]
    · have hmiss := linkReady_of_missing (p := p) (s := s) (by
        rcases h with h | h | h | h | h | h
        · exact .inl h
        · exact .inr (.inl h)
        · exact .inr (.inr (.inl h))
        · exact .inr (.inr (.inr (.inl h)))
        · exact absurd h hs
        · exact .inr (.inr (.inr (.inr h))))
      simp [hmiss]
  · have hready := linkReady_of_all hd hl hlf hrf hc
    refine ⟨_, _, (exec_linkUpTimer hp rx tx).trans (congrArg _ (onlyIf_of_true (by simp [hup, hs, hready, hon]) _ s)), linkUp_eq p rx tx s,
      linkRisen_spec p rx tx s⟩
  · exact (guarded_of_true (decide_eq_true hp) _).trans (congrArg _ (onlyIf_of_true (decide_eq_true hs) _ s))
  · exact (guarded_of_true (decide_eq_true hp) _).trans (congrArg _ (onlyIf_of_true (decide_eq_true hs) _ s))

end Sys2Proof.Machine
end

section
/-! PROOFS. Frames: what freeing one leaves of the others (R12, R397, R405). -/

namespace Sys2Proof.Machine

/-! ### Frames through the operations of the buffers -/

theorem frame_of_frames {i : Nat} {s t : State} (h : t.frames = s.frames) : frame i t = frame i s := congrArg (fun m => sget frameDefault m i) h

@[simp] theorem frame_putFrame_same (i : Nat) (f : Frame) (s : State) : frame i (putFrame i f s) = f := sget_sset_same _ _ _ _

theorem frame_putFrame_other {i j : Nat} (f : Frame) (s : State) (h : j ≠ i) : frame j (putFrame i f s) = frame j s := sget_sset_other _ _ _ h

@[simp] theorem frame_modFrame_same (i : Nat) (g : Frame → Frame) (s : State) : frame i (modFrame i g s) = g (frame i s) := sget_sset_same _ _ _ _

theorem frame_modFrame_other {i j : Nat} (g : Frame → Frame) (s : State) (h : j ≠ i) : frame j (modFrame i g s) = frame j s :=
  sget_sset_other _ _ _ h

theorem raise_frames (e : Src) (s : State) : (raise e s).frames = s.frames := (raise_onlyEvents e s).frames
theorem raiseC_frames (e : Src) (c : Nat) (s : State) : (raiseC e c s).frames = s.frames := (raiseC_onlyEvents e c s).frames

theorem count_frames (k : CtrSet) (i c d : Nat) (s : State) : (count k i c d s).frames = s.frames :=
  Changes.frames (count_changes (ks := []) k i c d s (List.mem_singleton.2 rfl))

theorem portCount_frames (i p d : Nat) (s : State) : (portCount i p d s).frames = s.frames :=
  Changes.frames (portCount_changes (ks := []) i p d s (List.mem_singleton.2 rfl))

theorem poolLowCheck_frames (p : Nat) (before : Int) (s : State) : (poolLowCheck p before s).frames = s.frames := by
  unfold poolLowCheck
  dsimp only
  split
  · exact raise_frames _ _
  · rfl

theorem guardCheck_frames (s : State) : (guardCheck s).frames = s.frames := by
  unfold guardCheck
  dsimp only
  split
  · exact raise_frames _ _
  · rfl

theorem noteShared_frames (p : Nat) (before : Int) (s : State) : (noteShared p before s).frames = s.frames := by
  unfold noteShared
  dsimp only
  split
  · exact (guardCheck_frames _).trans (poolLowCheck_frames _ _ _)
  · exact poolLowCheck_frames _ _ _

theorem retireBuffer_frames (p i : Nat) (s : State) : (retireBuffer p i s).frames = s.frames := by
  unfold retireBuffer retireLimit
  dsimp only
  split
  · exact raise_frames _ _
  · split
    · rfl
    · exact raise_frames _ _

theorem giveBack_frames (p i r : Nat) (s : State) : (giveBack p i r s).frames = s.frames := by
  unfold giveBack
  dsimp only
  refine (noteShared_frames _ _ _).trans ?_
  split
  · exact retireBuffer_frames _ _ _
  · rfl

theorem giveCells_frames (r : Nat) (is : List Nat) (s : State) : (giveCells r is s).frames = s.frames :=
  foldOver_induct (P := fun a => a.frames = s.frames) (fun i a ha => (giveBack_frames 0 i r a).trans ha) is rfl

theorem returnCredits_frames (f : Frame) (n : Nat) (s : State) : (returnCredits f n s).frames = s.frames := by
  unfold returnCredits
  split <;> rfl

/-! ### A frame that is dropped -/

/-- Every frame but i is as it was. -/
def OtherFrames (i : Nat) (s t : State) : Prop := ∀ j, j ≠ i → frame j t = frame j s

theorem OtherFrames.refl (i : Nat) (s : State) : OtherFrames i s s := fun _ _ => rfl

theorem OtherFrames.trans {i : Nat} {s t u : State} (h : OtherFrames i s t) (h' : OtherFrames i t u) : OtherFrames i s u :=
  fun j hj => (h' j hj).trans (h j hj)

theorem OtherFrames.of_frames {i : Nat} {s t : State} (h : t.frames = s.frames) : OtherFrames i s t := fun _ _ => frame_of_frames h

theorem otherFrames_putFrame (i : Nat) (f : Frame) (s : State) : OtherFrames i s (putFrame i f s) := fun _ hj => frame_putFrame_other f s hj

theorem advanceCells_frames (i n : Nat) (s : State) :
    (advanceCells i n s).frames = (putFrame i { frame i s with freed := max (frame i s).freed n } s).frames := by
  unfold advanceCells
  exact (returnCredits_frames _ _ _).trans (giveCells_frames _ _ _)

theorem unqueue_other (i : Nat) (s : State) : OtherFrames i s (unqueue i s) := by
  unfold unqueue
  dsimp only
  split
  · exact fun j hj => frame_putFrame_other _ _ hj
  · exact OtherFrames.refl i s

theorem unqueue_twin (i : Nat) (s : State) : (frame i (unqueue i s)).twin = (frame i s).twin := by
  unfold unqueue
  dsimp only
  split
  · rw [frame_putFrame_same]
  · rfl

theorem detachRx_frames (i : Nat) (s : State) : (detachRx i s).frames = s.frames := rfl

theorem refreshActive_frames (d c : Nat) (s : State) : (refreshActive d c s).frames = s.frames := by
  unfold refreshActive
  dsimp only
  split
  · rfl
  · split <;> rfl

theorem freeVersion_frames (s : State) : (freeVersion s).frames = s.frames := raise_frames _ _

theorem freeIfDrained_frames (s : State) : (freeIfDrained s).frames = s.frames := by
  unfold freeIfDrained
  split
  · exact freeVersion_frames s
  · rfl

theorem endFrame_frames (i : Nat) (s : State) : (endFrame i s).frames = sdel s.frames i := freeIfDrained_frames _

theorem frame_endFrame_same (i : Nat) (s : State) : frame i (endFrame i s) = {} := by
  unfold frame
  rw [endFrame_frames]
  exact sget_sdel_same _ _ _

theorem endFrame_other (i : Nat) (s : State) : OtherFrames i s (endFrame i s) := fun j hj => by
  unfold frame
  rw [endFrame_frames]
  exact sget_sdel_other _ _ hj

/-- A frame that stands alone leaves the device, and every other frame stays as it is. -/
theorem dropFrame_alone {i : Nat} {s : State} (hl : (frame i s).live = true) (ht : (frame i s).twin = none) :
    (frame i (dropFrame i s)).live = false ∧ OtherFrames i s (dropFrame i s) := by
  let t := detachRx i (unqueue i (advanceCells i (frame i s).cells.length s))
  have hadv := advanceCells_frames i (frame i s).cells.length s
  have hadvi : (frame i (advanceCells i (frame i s).cells.length s)).twin = none := by
    rw [frame_of_frames hadv, frame_putFrame_same]
    exact ht
  have htwin : (frame i t).twin = none := (congrArg Frame.twin (frame_of_frames (detachRx_frames i _))).trans ((unqueue_twin i _).trans hadvi)
  have hother : OtherFrames i s t :=
    ((otherFrames_putFrame i _ s).trans (OtherFrames.of_frames hadv)).trans ((unqueue_other i _).trans (OtherFrames.of_frames (detachRx_frames i _)))
  have hremove : removeFrame i t = endFrame i t := by
    unfold removeFrame
    rw [htwin]
  have hdrop : dropFrame i s = refreshActive (frame i s).dest (frame i s).cls (endFrame i t) := by
    have hdropUse : dropFrame i s = dropUse i s := by
      unfold dropFrame
      simp only [ht]
    rw [hdropUse, ← hremove]
    unfold dropUse
    dsimp only
    rw [if_pos hl]
  rw [hdrop]
  refine ⟨?_, (hother.trans (endFrame_other i t)).trans (OtherFrames.of_frames (refreshActive_frames _ _ _))⟩
  rw [frame_of_frames (refreshActive_frames _ _ _), frame_endFrame_same]

theorem frameBad_of_alone {i : Nat} {s : State} (hc : (frame i s).ct = false) (hi : itemOfFrame i s = none) : frameBad i s = dropFrame i s := by
  unfold frameBad
  simp [hc, hi]

end Sys2Proof.Machine
end

section
/-! PROOFS. Frames that arrive, end and are parsed (R16, R25, R163, R187, R213, R218, R393). -/

namespace Sys2Proof.Machine

/-! ### The head of a frame -/

/-- A port that may receive: no frame is arriving and its link is up. -/
structure RxFree (p : Nat) (s : State) : Prop where
  idle : (rxPort p s).busy = false
  up : rdC prtLinkStatus_linkUp p s = 1

theorem RxFree.goOn {p : Nat} {s : State} (h : RxFree p s) : ¬ ((rxPort p s).busy = true ∨ rdC prtLinkStatus_linkUp p s ≠ 1) := by
  rw [h.idle, h.up]
  decide

theorem exec_frameArrival {p : Nat} (hp : p < 256) (sub : Nat) (head : List Byte) (len : Nat) (overflow : Bool) (s : State) :
    exec (.frameArrival p sub head len overflow) s = .next (frameArrival p sub head len overflow s) := guarded_of_true (decide_eq_true hp) _

theorem frameArrival_draining {p sub len : Nat} {head : List Byte} {overflow : Bool} {s : State} (h : RxFree p s)
    (hd : (tgt ⟨.prt, some p⟩ s).st = .draining) : frameArrival p sub head len overflow s = discardRx p head true (portCount 7 p 1 s) := by
  unfold frameArrival
  rw [if_neg h.goOn, if_pos hd]

/-- The choice made for the head of a frame at a port that is ON. -/
theorem frameArrival_on {p sub len : Nat} {head : List Byte} {overflow : Bool} {s : State} (h : RxFree p s) (hon : chanOn .prt p s = true) :
    frameArrival p sub head len overflow s =
      if overflow then discardRx p head true (macDrop 6 p s)
      else if 14 ≤ head.length ∧ beAt head 12 2 = 0x8808 then discardRx p head false s
      else if !blockOn .swc s then discardRx p head false (count swcGCtrs 3 0 1 s)
      else beginRx p sub head len s := by
  have hst : (tgt ⟨.prt, some p⟩ s).st = .on := of_decide_eq_true hon
  have hnot : ¬ (tgt ⟨.prt, some p⟩ s).st = .draining := by rw [hst]; decide
  unfold frameArrival
  rw [if_neg h.goOn, if_neg hnot, if_neg (by rw [hon]; decide)]

theorem frameArrival_begins {p sub len : Nat} {head : List Byte} {s : State} (h : RxFree p s) (hon : chanOn .prt p s = true)
    (ht : beAt head 12 2 ≠ 0x8808) (hs : blockOn .swc s = true) : frameArrival p sub head len false s = beginRx p sub head len s := by
  rw [frameArrival_on h hon, if_neg (by decide), if_neg fun hx => ht hx.2, if_neg (by rw [hs]; decide)]

theorem beginRx_stored {p sub len i : Nat} {head : List Byte} {s u v : State} (hn : newFrame (arrivingFrame p sub head len s) s = (i, u))
    (hg : growCells i head.length u = (true, v)) :
    beginRx p sub head len s = putRx p { rxPort p v with
      busy := true, cur := some i, got := head.length, queue := (rxPort p v).queue ++ [i], limit := cfC prtPortCfg_maxFrame p s } v := by
  simp [beginRx, hn, hg]

theorem beginRx_lost {p sub len i : Nat} {head : List Byte} {s u v : State} (hn : newFrame (arrivingFrame p sub head len s) s = (i, u))
    (hg : growCells i head.length u = (false, v)) : beginRx p sub head len s = discardRx p head false (endFrame i v) := by
  simp [beginRx, hn, hg]

/-! ### The tail of a frame -/

/-- Port p as its frame ends. -/
def rxEnded (p : Nat) (s : State) : State := takeMark p (putRx p { rxPort p s with busy := false, cur := none, got := 0 } s)

theorem exec_frameTailArrival {p : Nat} (hp : p < 256) {s : State} (hlater : ∀ e ∈ s.fab.later, e.1 ≠ p) (rest : List Byte) (o : TailOutcome) :
    exec (.frameTailArrival p rest o) s = .next (frameTailArrival p rest o s) := by
  have hwait : valuesWait p s = false := by
    have hany : s.fab.later.any (fun e => e.1 == p) = false := by
      rw [List.any_eq_false]
      intro e he hep
      exact hlater e he (beq_iff_eq.1 hep)
    unfold valuesWait
    rw [hany]
    rfl
  exact (guarded_of_true (decide_eq_true hp) _).trans (congrArg _ (onlyIf_of_false (by rw [hwait, Bool.and_false]) _ _))

/-- The tail of a frame that was stored. -/
theorem frameTailArrival_stored {p i : Nat} {rest : List Byte} {o : TailOutcome} {s : State} (hb : (rxPort p s).busy = true)
    (hc : (rxPort p s).cur = some i) {ks : List Nat}
    (hks : rxDropCounters p (rxPort p s).limit ((rxPort p s).got + rest.length + 4) ((frame i s).bytes ++ rest) o s = ks) :
    frameTailArrival p rest o s =
      if ks.isEmpty then storeTail i rest (portCount 1 p 1 (portCount 0 p ((rxPort p s).got + rest.length + 4) (rxEnded p s)))
      else lostTail i (if ks.contains 4 then [] else rest) (min ((rxPort p s).got + rest.length + 4) (rxPort p s).limit)
        (foldOver ks (fun k a => macDrop k p a) (rxEnded p s)) := by
  unfold frameTailArrival
  simp only [hb, hc, hks, Bool.not_true, Bool.false_eq_true, if_false]
  rfl

/-- The tail of a frame whose bytes were discarded and that its MAC has still to count. -/
theorem frameTailArrival_discarded {p : Nat} {rest : List Byte} {o : TailOutcome} {s : State} (hb : (rxPort p s).busy = true)
    (hc : (rxPort p s).cur = none) (hn : (rxPort p s).counted = false) {ks : List Nat}
    (hks : rxDropCounters p (rxPort p s).limit ((rxPort p s).got + rest.length + 4) ((rxPort p s).head ++ rest) o s = ks) :
    frameTailArrival p rest o s =
      if ks.isEmpty then learnLate (rxPort p s).late (portCount 1 p 1 (portCount 0 p ((rxPort p s).got + rest.length + 4) (rxEnded p s)))
      else foldOver ks (fun k a => macDrop k p a) (rxEnded p s) := by
  unfold frameTailArrival rxEnded
  simp only [hb, hc, hn, hks, Bool.not_true, Bool.false_eq_true, if_false]

theorem frameTailArrival_counted {p : Nat} {rest : List Byte} {o : TailOutcome} {s : State} (hb : (rxPort p s).busy = true)
    (hc : (rxPort p s).cur = none) (hn : (rxPort p s).counted = true) : frameTailArrival p rest o s = rxEnded p s := by
  unfold frameTailArrival rxEnded
  simp only [hb, hc, hn, Bool.not_true, Bool.false_eq_true, if_false, if_true]

theorem rxDropCounters_badFcs {p limit n : Nat} {bytes : List Byte} {s : State} (h64 : 64 ≤ n) (ht : beAt bytes 12 2 ≠ 0x8808)
    (hm : fecMarked p s = false) : rxDropCounters p limit n bytes .badFcs s = 2 :: (if limit < n then [4] else []) := by
  have hn : ¬ n < 64 := by omega
  simp [rxDropCounters, hn, ht, hm]

theorem rxDropCounters_macControl {p limit n : Nat} {bytes : List Byte} {s : State} (h64 : 64 ≤ n) (hl : n ≤ limit) (ht : beAt bytes 12 2 = 0x8808)
    (hm : fecMarked p s = false) : rxDropCounters p limit n bytes .good s = [5] := by
  have hn : ¬ n < 64 := by omega
  have hlim : ¬ limit < n := by omega
  simp [rxDropCounters, hn, hlim, ht, hm]

theorem macDrop_fcs (p : Nat) (s : State) : macDrop 2 p s = raiseC prtFcsErr p (portCount 2 p 1 s) := rfl
theorem macDrop_oversize (p : Nat) (s : State) : macDrop 4 p s = raiseC prtOversize p (portCount 4 p 1 s) := rfl

theorem foldOver_nil {α : Type} (g : α → State → State) (s : State) : foldOver [] g s = s := rfl

theorem lostTail_stored {i n : Nat} {rest : List Byte} {s v : State} (h : growCells i n s = (true, v)) :
    lostTail i rest n s = frameBad i (modFrame i (fun f => { f with bytes := f.bytes ++ rest }) v) := by
  simp [lostTail, h]

/-- A whole good frame that has no other use and was not parsed yet is stored. -/
theorem storeTail_plain {i : Nat} {rest : List Byte} {s v : State} (ht : (frame i s).twin = none) (hp : (frame i s).parsed = false)
    (hg : growCells i (((frame i s).bytes ++ rest).length + 4) s = (true, v)) :
    storeTail i rest s = modFrame i (fun x => { frame i s with
      bytes := (frame i s).bytes ++ rest, len := ((frame i s).bytes ++ rest).length + 4, complete := true, cells := x.cells }) v := by
  rw [List.length_append] at hg ⊢
  generalize hu : modFrame i (fun x => { frame i s with
      bytes := (frame i s).bytes ++ rest, len := (frame i s).bytes.length + rest.length + 4, complete := true, cells := x.cells }) v = u
  have hframe : (frame i u).twin = none ∧ (frame i u).parsed = false := by
    rw [← hu, frame_modFrame_same]
    exact ⟨ht, hp⟩
  have hsync : syncTwin i u = u := by
    unfold syncTwin
    simp only [hframe.1]
  have hgood : goodTail i u = u := if_pos (by rw [hframe.2]; rfl)
  unfold storeTail
  simp only [hg, if_true]
  rw [hu, hsync, hgood]

/-! ### The parser -/

theorem exec_parseFrame {p : Nat} (hp : p < 256) (s : State) : exec (.parseFrame p) s = .next (parseFrame p s) := guarded_of_true (decide_eq_true hp) _

/-- A frame that has left the parser is taken from its port's queue. -/
theorem parseFrame_done {p i : Nat} {q : List Nat} {s t : State} (hq : (rxPort p s).queue = i :: q) (he : enterParser i p s = t)
    (hd : ((frame i t).live && !(frame i t).parsed) = false) :
    parseFrame p s = putRx p { rxPort p t with queue := (rxPort p t).queue.filter (· != i) } t := by
  unfold parseFrame
  simp only [hq, he, hd]
  rfl

theorem parseFrame_waits {p i : Nat} {q : List Nat} {s t : State} (hq : (rxPort p s).queue = i :: q) (he : enterParser i p s = t)
    (hd : ((frame i t).live && !(frame i t).parsed) = true) : parseFrame p s = t := by
  unfold parseFrame
  simp only [hq, he, hd]
  rfl

theorem enterParser_new {i prof : Nat} {s : State} (hv : (frame i s).version = none) (hc : blockOn .cls s = true) (hn : curVersion s ≠ 0)
    (hp : chanOn .prs prof s = true) :
    enterParser i prof s =
      (parseStages i (modFrame i (fun f => { f with version := some (curVersion s), profile := prof }) s)).getD
        (modFrame i (fun f => { f with version := some (curVersion s), profile := prof }) s) := by
  simp [enterParser, hv, hc, hn, hp]

theorem enterParser_dropped {i prof : Nat} {s : State} (hv : (frame i s).version = none) (h : blockOn .cls s = false ∨ curVersion s = 0) :
    enterParser i prof s = dropFrame i s := by
  have hno : (!blockOn .cls s) = true ∨ curVersion s = 0 := h.imp (fun hb => by rw [hb]; rfl) id
  unfold enterParser
  rw [hv]
  simp only [Option.isSome_none, Bool.false_eq_true, if_false]
  exact if_pos hno

theorem stampedStages_live {i : Nat} {s : State} (hc : blockOn .cls s = true) (hl : versionLive (frameVer (frame i s)) s = true) :
    stampedStages i s = (parseStages i s).getD s := by
  have hst : (tgt ⟨.cls, none⟩ s).st = .on := of_decide_eq_true hc
  simp [stampedStages, hst, hl]

theorem enterParser_stamped {i prof : Nat} {s : State} (hv : (frame i s).version.isSome = true) (hc : blockOn .cls s = true)
    (hl : versionLive (frameVer (frame i s)) s = true) : enterParser i prof s = (parseStages i s).getD s := by
  rw [← stampedStages_live hc hl]
  exact if_pos hv

/-! ### Host frames and second passes -/

theorem version_of_newStored {f : Frame} {i : Nat} {s u : State} (h : newStored f s = (some i, u)) : (frame i u).version = f.version := by
  unfold newStored at h
  cases ht : takeCells f.req (cellsFor f.len) s with
  | mk o t =>
    rw [ht] at h
    cases o with
    | none => cases h
    | some is =>
      obtain ⟨rfl, rfl⟩ := Prod.mk.inj h |>.imp (fun hi => Option.some.inj hi) id
      unfold newFrame
      rw [frame_putFrame_same]

theorem hostFrameArrival_entered {bytes : List Byte} {i : Nat} {s u : State} (hp : s.pwr.perstLow = false) (hs : blockOn .swc s = true)
    (hn : newStored { group := 33, inSrc := 264, bytes := bytes, len := bytes.length + 4, raw8 := (takeFree s).1, ts := (takeFree s).1 % timeMod,
                      tsEpoch := s.tim.epoch, req := 33, fromHost := true } (takeFree s).2 = (some i, u)) :
    hostFrameArrival bytes s = enterParser i (wordField (sget regReset (half (curVersion u) u).cfg prsHostProfile_profile.off) 0 8) u := by
  unfold hostFrameArrival
  simp only [hp, hs, Bool.false_eq_true, if_false, Bool.not_true]
  rw [hn]

theorem recircReentry_entered {e : EgFrame} {is : List Nat} {s u : State} (hf : frontEg 265 s = some e) (hc : crossedAll (frame e.id s) = true)
    (hs : blockOn .swc s = true) (ht : takeCells 34 (cellsFor (frame e.id s).len) s = (some is, u)) :
    recircReentry s = parseAgain (newFrame { secondPass (frame e.id s) with cells := is } u).1
      (leaveEg e.id 265 (newFrame { secondPass (frame e.id s) with cells := is } u).2) := by
  unfold recircReentry
  simp only [hf, hc, hs, ht, Bool.not_true, Bool.false_eq_true, if_false]

theorem parseAgain_stages {i : Nat} {s t : State} (hc : blockOn .cls s = true) (hl : versionLive (frameVer (frame i s)) s = true)
    (hp : chanOn .prs (frame i s).profile s = true) (ht : parseStages i s = some t) : parseAgain i s = t := by
  unfold parseAgain
  simp only [hp, hl, Bool.not_true, Bool.false_and, Bool.false_eq_true, if_false]
  rw [stampedStages_live hc hl, ht]
  rfl

/-! ### The obligation -/

/-- The frame's bytes and its other fields do not depend on what the port counts. -/
theorem frame_counted (p i n : Nat) (s : State) : frame i (portCount 1 p 1 (portCount 0 p n (rxEnded p s))) = frame i s :=
  frame_of_frames ((portCount_frames 1 p 1 _).trans ((portCount_frames 0 p n _).trans rfl))

theorem tailCases {p : Nat} {rest : List Byte} {i n : Nat} {bs : List Byte} {s u : State} (hp : p < 256) (hb : (rxPort p s).busy = true)
    (hlater : ∀ e ∈ s.fab.later, e.1 ≠ p) (hn : n = (rxPort p s).got + rest.length + 4) (hbs : bs = (frame i s).bytes ++ rest)
    (hu : u = rxEnded p s) :
    ((rxPort p s).cur = some i → rxDropCounters p (rxPort p s).limit n bs .good s = [] →
      exec (.frameTailArrival p rest .good) s = .next (storeTail i rest (portCount 1 p 1 (portCount 0 p n u))) ∧
      (∀ w v, w = portCount 1 p 1 (portCount 0 p n u) → (frame i s).twin = none → (frame i s).parsed = false →
        growCells i (bs.length + 4) w = (true, v) →
        exec (.frameTailArrival p rest .good) s = .next
          (modFrame i (fun x => { frame i s with bytes := bs, len := bs.length + 4, complete := true, cells := x.cells }) v))) ∧
    ((rxPort p s).cur = some i → 64 ≤ n → n ≤ (rxPort p s).limit → beAt bs 12 2 ≠ 0x8808 → fecMarked p s = false → ∀ v,
      growCells i n (raiseC prtFcsErr p (portCount 2 p 1 u)) = (true, v) →
      exec (.frameTailArrival p rest .badFcs) s = .next (frameBad i (modFrame i (fun f => { f with bytes := f.bytes ++ rest }) v))) ∧
    ((rxPort p s).cur = some i → 64 ≤ n → (rxPort p s).limit < n → beAt bs 12 2 ≠ 0x8808 → fecMarked p s = false → ∀ v,
      growCells i (rxPort p s).limit (raiseC prtOversize p (portCount 4 p 1 (raiseC prtFcsErr p (portCount 2 p 1 u)))) = (true, v) →
      exec (.frameTailArrival p rest .badFcs) s = .next (frameBad i (modFrame i (fun f => { f with bytes := f.bytes ++ [] }) v))) := by
  subst hn hbs hu
  refine ⟨fun hc hks => ?_, fun hc h64 hl ht hm v hg => ?_, fun hc h64 hl ht hm v hg => ?_⟩
  · have hstore : exec (.frameTailArrival p rest .good) s =
        .next (storeTail i rest (portCount 1 p 1 (portCount 0 p ((rxPort p s).got + rest.length + 4) (rxEnded p s)))) := by
      rw [exec_frameTailArrival hp hlater, frameTailArrival_stored hb hc hks]
      rfl
    refine ⟨hstore, fun w v hw htwin hparsed hg => ?_⟩
    have hframe := frame_counted p i ((rxPort p s).got + rest.length + 4) s
    rw [← hw] at hstore hframe
    have hplain := storeTail_plain (rest := rest) (v := v) (by rw [hframe]; exact htwin) (by rw [hframe]; exact hparsed) (by rw [hframe]; exact hg)
    rw [hframe] at hplain
    rw [hstore, hplain]
  · have hks := rxDropCounters_badFcs (p := p) (limit := (rxPort p s).limit) h64 ht hm
    rw [if_neg (Nat.not_lt.2 hl)] at hks
    rw [exec_frameTailArrival hp hlater, frameTailArrival_stored hb hc hks, Nat.min_eq_left hl, if_neg (by decide), if_neg (by decide),
      foldOver_single, macDrop_fcs, lostTail_stored hg]
  · have hks := rxDropCounters_badFcs (p := p) (limit := (rxPort p s).limit) h64 ht hm
    rw [if_pos hl] at hks
    rw [exec_frameTailArrival hp hlater, frameTailArrival_stored hb hc hks, Nat.min_eq_right (Nat.le_of_lt hl), if_neg (by decide),
      if_pos (by decide), foldOver_cons, foldOver_single, macDrop_fcs, macDrop_oversize, lostTail_stored hg]

theorem parseCases {p i : Nat} {q : List Nat} {s : State} (hp : p < 256) (hq : (rxPort p s).queue = i :: q) :
    (∀ t, (frame i s).version = none → blockOn .cls s = true → curVersion s ≠ 0 → chanOn .prs p s = true →
      parseStages i (modFrame i (fun f => { f with version := some (curVersion s), profile := p }) s) = some t → (frame i t).parsed = true →
      exec (.parseFrame p) s = .next (putRx p { rxPort p t with queue := (rxPort p t).queue.filter (· != i) } t)) ∧
    (∀ t, (frame i s).version = none → blockOn .cls s = true → curVersion s ≠ 0 → chanOn .prs p s = true →
      t = modFrame i (fun f => { f with version := some (curVersion s), profile := p }) s → parseStages i t = none →
      (frame i t).live = true → (frame i t).parsed = false → exec (.parseFrame p) s = .next t) ∧
    (∀ t, (frame i s).version.isSome = true → blockOn .cls s = true → versionLive (frameVer (frame i s)) s = true → parseStages i s = some t →
      (frame i t).parsed = true →
      exec (.parseFrame p) s = .next (putRx p { rxPort p t with queue := (rxPort p t).queue.filter (· != i) } t)) ∧
    (∀ t, (frame i s).version = none → blockOn .cls s = false ∨ curVersion s = 0 → t = dropFrame i s → (frame i t).live = false →
      exec (.parseFrame p) s = .next (putRx p { rxPort p t with queue := (rxPort p t).queue.filter (· != i) } t)) := by
  refine ⟨fun t hv hc hn hon hst hpar => ?_, fun t hv hc hn hon ht hst hl hpar => ?_, fun t hv hc hl hst hpar => ?_, fun t hv hno ht hl => ?_⟩
  · have he : enterParser i p s = t := by rw [enterParser_new hv hc hn hon, hst]; rfl
    rw [exec_parseFrame hp, parseFrame_done hq he (by rw [hpar, Bool.not_true, Bool.and_false])]
  · have he : enterParser i p s = t := by rw [enterParser_new hv hc hn hon, ← ht, hst]; rfl
    rw [exec_parseFrame hp, parseFrame_waits hq he (by rw [hl, hpar]; rfl)]
  · have he : enterParser i p s = t := by rw [enterParser_stamped hv hc hl, hst]; rfl
    rw [exec_parseFrame hp, parseFrame_done hq he (by rw [hpar, Bool.not_true, Bool.and_false])]
  · have he : enterParser i p s = t := by rw [enterParser_dropped hv hno, ht]
    rw [exec_parseFrame hp, parseFrame_done hq he (by rw [hl, Bool.false_and])]

/-- Settles O33, a lemma for the head, the tail, the parser, and each other way into it. -/
theorem framesArriveAndAreParsed : Obligations.FramesArriveAndAreParsed := by
  unfold Obligations.FramesArriveAndAreParsed
  intro s
  refine ⟨fun p sub head len overflow hp hidle hup => ?_, fun p rest i r u n bs hp hr hb hlater hn hbs hu => ?_, fun p i q hp hq => parseCases hp hq,
    fun bytes i u v r prof hperst hswc hr hnew hprof hcls hcur hprs hst => ?_, fun e f is u n v hfront hf hcross hswc htake hn hv => ?_,
    fun i hl ht hc hi => ?_⟩
  · have h : RxFree p s := ⟨hidle, hup⟩
    refine ⟨fun hd => ?_, fun hon => ⟨?_, fun hlen ht => ?_, fun ht hs => ?_, fun i u v ht hs hnew hg => ?_, fun i u v ht hs hnew hg => ?_⟩⟩
    · rw [exec_frameArrival hp, frameArrival_draining h hd]
    · rw [exec_frameArrival hp, frameArrival_on h hon, if_pos rfl]
      rfl
    · rw [exec_frameArrival hp, frameArrival_on h hon, if_neg (by decide), if_pos ⟨hlen, ht⟩]
    · rw [exec_frameArrival hp, frameArrival_on h hon, if_neg (by decide), if_neg fun hx => ht hx.2, if_pos (by rw [hs]; rfl)]
    · rw [exec_frameArrival hp, frameArrival_begins h hon ht hs, beginRx_stored hnew hg]
    · rw [exec_frameArrival hp, frameArrival_begins h hon ht hs, beginRx_lost hnew hg]
  · subst hr
    obtain ⟨hgood, hbad, hlong⟩ := tailCases (i := i) hp hb hlater hn hbs hu
    refine ⟨hgood, hbad, hlong, fun hc hcount hks hlate => ?_, fun hc hcount h64 hlim ht hm => ?_, fun hc hcount o => ?_⟩
    · rw [hn] at hks ⊢
      rw [exec_frameTailArrival hp hlater, frameTailArrival_discarded hb hc hcount hks, hlate, hu]
      rfl
    · have hks := rxDropCounters_macControl (p := p) h64 hlim ht hm
      rw [hn] at hks
      rw [exec_frameTailArrival hp hlater, frameTailArrival_discarded hb hc hcount hks, hu]
      rfl
    · rw [exec_frameTailArrival hp hlater, frameTailArrival_counted hb hc hcount, hu]
      rfl
  · subst hr
    have hver : (frame i u).version = none := version_of_newStored hnew
    show Host.Outcome.next (hostFrameArrival bytes s) = _
    rw [hostFrameArrival_entered hperst hswc hnew, ← hprof, enterParser_new hver hcls hcur hprs, hst]
    rfl
  · subst hf hn
    have hexec : exec .recircReentry s = .next (parseAgain (newFrame { secondPass (frame e.id s) with cells := is } u).1 v) := by
      rw [hv]
      exact congrArg Host.Outcome.next (recircReentry_entered hfront hcross hswc htake)
    refine ⟨hexec, fun t hcls hlive hprs hst => ?_⟩
    rw [hexec, parseAgain_stages hcls hlive hprs hst]
  · obtain ⟨hgone, hother⟩ := dropFrame_alone hl ht
    exact ⟨_, frameBad_of_alone hc hi, hgone, fun j hj => congrArg Frame.bytes (hother j hj)⟩

end Sys2Proof.Machine
end

section
/-! PROOFS. The dispatchers: items of a cluster through the shared operations, and selection (R331 to R336). -/

namespace Sys2Proof.Machine

/-! ### Clusters and items -/

theorem cluster_of_dsp {c : Nat} {s t : State} (h : t.dsp = s.dsp) : cluster c t = cluster c s :=
  congrArg (fun x : Dispatch => sget (fun _ => ({} : Cluster)) x.clusters c) h

theorem items_of_dsp {c : Nat} {s t : State} (h : t.dsp = s.dsp) : items c t = items c s := congrArg Cluster.items (cluster_of_dsp h)

@[simp] theorem cluster_putCluster_same (c : Nat) (x : Cluster) (s : State) : cluster c (putCluster c x s) = x := sget_sset_same _ _ _ _

theorem cluster_putCluster_other {c d : Nat} (x : Cluster) (s : State) (h : d ≠ c) : cluster d (putCluster c x s) = cluster d s :=
  sget_sset_other _ _ _ h

theorem items_putCluster_same (c : Nat) (x : Cluster) (s : State) : items c (putCluster c x s) = x.items :=
  congrArg Cluster.items (cluster_putCluster_same c x s)

theorem items_putCluster_other {c d : Nat} (x : Cluster) (s : State) (h : d ≠ c) : items d (putCluster c x s) = items d s :=
  congrArg Cluster.items (cluster_putCluster_other x s h)

theorem items_modItem_same (c q : Nat) (f : Item → Item) (s : State) :
    items c (modItem c q f s) = (items c s).map (fun i => if i.seq = q then f i else i) := items_putCluster_same _ _ _

theorem items_modItem_other {c d : Nat} (q : Nat) (f : Item → Item) (s : State) (h : d ≠ c) : items d (modItem c q f s) = items d s :=
  items_putCluster_other _ _ h

theorem dspCount_changes (k c : Nat) (s : State) : Changes [] [rkey (dspCtrs.lo + 8 * k) c] s (dspCount k c s) :=
  count_changes _ _ _ _ _ (List.mem_singleton.2 rfl)

theorem dspCount_dsp (k c : Nat) (s : State) : (dspCount k c s).dsp = s.dsp := (dspCount_changes k c s).dsp

/-- ready_high may be armed again: of the cluster only its mark changes. -/
theorem noteFall_items (c d : Nat) (s : State) : items d (noteFall c s) = items d s := by
  unfold noteFall
  dsimp only
  split
  · by_cases h : d = c
    · subst h
      exact items_putCluster_same _ _ _
    · exact items_putCluster_other _ _ h
  · rfl

theorem noteFall_rest (c : Nat) (s : State) : noteFall c s = { s with dsp := (noteFall c s).dsp } := by
  unfold noteFall
  dsimp only
  split <;> rfl

theorem noteRise_items (c d : Nat) (s : State) : items d (noteRise c s) = items d s := by
  unfold noteRise
  dsimp only
  split
  · refine (items_of_dsp (raiseC_onlyEvents _ _ _).dsp).trans ?_
    by_cases h : d = c
    · subst h
      exact items_putCluster_same _ _ _
    · exact items_putCluster_other _ _ h
  · rfl

/-- An item is marked as one that waited: of every item only that mark may change. -/
theorem noteWait_items (c tag : Nat) (s : State) :
    ∃ w : Item → Bool, items c (noteWait c tag s) = (items c s).map (fun i => { i with waited := w i }) := by
  have hsame : ∃ w : Item → Bool, items c s = (items c s).map (fun i => { i with waited := w i }) := ⟨fun i => i.waited, (List.map_id' _).symm⟩
  unfold noteWait
  cases ((items c s).filter (fun i => i.waits && i.tag == tag)).head? with
  | none => exact hsame
  | some i =>
    dsimp only
    split
    · refine ⟨fun j => if j.seq = i.seq then true else j.waited, ?_⟩
      rw [items_of_dsp (dspCount_dsp _ _ _), items_modItem_same]
      refine List.map_congr_left fun j _ => ?_
      by_cases hj : j.seq = i.seq
      · simp [hj]
      · simp [hj]
    · exact hsame

theorem noteWait_of_none {c tag : Nat} {s : State} (h : (items c s).filter (fun i => i.waits && i.tag == tag) = []) : noteWait c tag s = s := by
  unfold noteWait
  simp only [h, List.head?_nil]

/-! ### Admission (R331, R340) -/

/-- The item as its cluster takes it in. -/
def takenIn (c : Nat) (i : Item) (s : State) : Item :=
  { i with seq := (cluster c s).seq, ord := s.dsp.arrivals, admitted := s.tim.raw, stage := if parks i s then .parked else .ready }

theorem admitItem_items (c : Nat) (i : Item) (s : State) :
    ∃ w : Item → Bool, items c (admitItem c i s) = (items c s ++ [takenIn c i s]).map (fun j => { j with waited := w j }) := by
  unfold admitItem
  dsimp only
  generalize hu : dspCount 0 c (putCluster c
    { cluster c s with items := (cluster c s).items ++ [takenIn c i s], seq := ((cluster c s).seq + 1) % 2 ^ 32 }
    { s with dsp := { s.dsp with arrivals := s.dsp.arrivals + 1 } }) = u
  have hitems : items c u = items c s ++ [takenIn c i s] := by
    rw [← hu, items_of_dsp (dspCount_dsp _ _ _)]
    exact items_putCluster_same _ _ _
  unfold takenIn at hu
  rw [hu]
  have hpark : items c (if parks i s then dspCount 12 c u else u) = items c s ++ [takenIn c i s] := by
    split
    · exact (items_of_dsp (dspCount_dsp _ _ _)).trans hitems
    · exact hitems
  obtain ⟨w, hw⟩ := noteWait_items c i.tag (if parks i s then dspCount 12 c u else u)
  exact ⟨w, (noteRise_items c c _).trans (hw.trans (by rw [hpark]))⟩

/-- The operation that waits first, once it can be admitted. -/
theorem admitOp_of_first {c : Nat} {i : Item} {rest : List Item} {s : State} (hw : s.dsp.opWait = i :: rest) (hst : steerTo (i.tag % 4096) s = c)
    (ha : opAdmits c i.tag s = true) : admitOp c s = admitItem c i { s with dsp := { s.dsp with opWait := rest } } := by
  have htakes : admits c s = true := by
    unfold opAdmits at ha
    rw [Bool.and_eq_true, Bool.and_eq_true] at ha
    exact ha.1.1
  have hring : ringBlocked [] i = false := by
    unfold ringBlocked
    cases i.op <;> rfl
  have hnext : nextOp c { s with dsp := { s.dsp with opWait := i :: rest } } [] (i :: rest) = some (i, rest) := if_pos ⟨hst, hring, ha⟩
  unfold admitOp
  simp only [htakes, Bool.not_true, Bool.and_false, Bool.false_and, Bool.not_false, List.filter_true, hw, hnext]

theorem admitOp_of_empty {c : Nat} {s : State} (hw : s.dsp.opWait = []) : admitOp c s = s := by
  have hs : ({ s with dsp := { s.dsp with opWait := [] } } : State) = s := by rw [← hw]
  unfold admitOp
  dsimp only
  rw [hw, List.filter_nil]
  exact hs

/-! ### Selection (R332, R335, R336) -/

theorem eligibleIn_spec {l : List Item} {seen : List Nat} {i : Item} (h : i ∈ eligibleIn seen l) :
    i.stage = .ready ∧ i.orphan = false ∧ i.tag ∉ seen ∧
      ∃ before after, l = before ++ i :: after ∧ ∀ j ∈ before, j.orphan = false → j.tag ≠ i.tag := by
  induction l generalizing seen with
  | nil => cases h
  | cons x xs ih =>
    unfold eligibleIn at h
    by_cases ho : x.orphan = true
    · rw [if_pos ho] at h
      obtain ⟨hr, hor, hs, before, after, rfl, hb⟩ := ih h
      refine ⟨hr, hor, hs, x :: before, after, rfl, fun j hj hjo => ?_⟩
      rcases List.mem_cons.1 hj with rfl | hj
      · rw [ho] at hjo
        cases hjo
      · exact hb j hj hjo
    · rw [if_neg ho] at h
      have hlater (h : i ∈ eligibleIn (x.tag :: seen) xs) : i.stage = .ready ∧ i.orphan = false ∧ i.tag ∉ seen ∧
          ∃ before after, x :: xs = before ++ i :: after ∧ ∀ j ∈ before, j.orphan = false → j.tag ≠ i.tag := by
        obtain ⟨hr, hor, hs, before, after, rfl, hb⟩ := ih h
        rw [List.mem_cons, not_or] at hs
        refine ⟨hr, hor, hs.2, x :: before, after, rfl, fun j hj hjo => ?_⟩
        rcases List.mem_cons.1 hj with rfl | hj
        · exact fun he => hs.1 he.symm
        · exact hb j hj hjo
      split at h
      · next hx =>
        rcases List.mem_cons.1 h with rfl | h
        · have hns : i.tag ∉ seen := fun hm => by simp [hm] at hx
          exact ⟨hx.1, Bool.not_eq_true _ ▸ ho, hns, [], xs, rfl, fun j hj => nomatch hj⟩
        · exact hlater h
      · exact hlater h

theorem oldestOf_spec {c q : Nat} {s : State} {i : Item} (h : oldestOf c q s = some i) :
    i.stage = .ready ∧ i.orphan = false ∧ (if q = 8 then i.isFrame = false else i.isFrame = true ∧ i.cls = q) ∧
      ∃ before after, items c s = before ++ i :: after ∧ ∀ j ∈ before, j.orphan = false → j.tag ≠ i.tag := by
  obtain ⟨hr, ho, -, before, after, hl, hb⟩ := eligibleIn_spec (List.mem_of_find?_eq_some h)
  refine ⟨hr, ho, ?_, before, after, hl, hb⟩
  have hkind := List.find?_some h
  split at hkind
  · next hq =>
    rw [if_pos hq]
    simpa using hkind
  · next hq =>
    rw [if_neg hq]
    simpa using hkind

theorem selectOne_strict {c : Nat} {i : Item} {s : State} (hr : lookupRoom c s = true)
    (h : [7, 6, 5].findSome? (fun k => oldestOf c k s) = some i) : selectOne c s = selectItem c i s := by
  unfold selectOne
  rw [if_pos hr, h]

theorem strict_none {c : Nat} {s : State} (h : [7, 6, 5].findSome? (fun k => oldestOf c k s) = none) :
    (if lookupRoom c s then [7, 6, 5].findSome? (fun k => oldestOf c k s) else none) = none := by
  split
  · exact h
  · rfl

theorem selectOne_idle {c : Nat} {s : State} (h : [7, 6, 5].findSome? (fun k => oldestOf c k s) = none) (hw : weightedNext c s = none) :
    selectOne c s = s := by
  unfold selectOne
  rw [strict_none h, hw]

theorem selectOne_weighted {c k left : Nat} {i : Item} {s : State} (h : [7, 6, 5].findSome? (fun k => oldestOf c k s) = none)
    (hw : weightedNext c s = some (k, left)) (hroom : (if cyclePlace k = 8 then unitRoom c s else lookupRoom c s) = true)
    (ho : oldestOf c (cyclePlace k) s = some i) :
    selectOne c s = selectItem c i (modCluster c (fun x => { x with wq := k, wleft := left - 1 }) s) := by
  unfold selectOne
  rw [strict_none h, hw]
  dsimp only
  rw [if_pos hroom, ho]

/-- The stage that a selected item enters. -/
def selectedStage (i : Item) : Item := { i with stage := if i.isFrame then .selected else .running }

/-- The cluster once the item has its tag, before an operation of the device's own runs. -/
def itemTaken (c : Nat) (i : Item) (s : State) : State :=
  noteWait c i.tag (noteFall c (modItem c i.seq (fun i => { i with stage := if i.isFrame then .selected else .running }) s))

theorem selectItem_of_none {c : Nat} {i : Item} {s : State} (h : ownOp i (itemTaken c i s) = none) : selectItem c i s = itemTaken c i s := by
  unfold selectItem
  unfold itemTaken at h ⊢
  dsimp only
  rw [h]

theorem selectItem_of_some {c : Nat} {i : Item} {s u : State} (h : ownOp i (itemTaken c i s) = some u) :
    selectItem c i s = opDone c i.seq u := by
  unfold selectItem
  unfold itemTaken at h
  dsimp only
  rw [h]

/-- Whether an item is an operation of the device's own does not depend on the state. -/
theorem ownOp_isNone_congr (i : Item) (s t : State) : (ownOp i s).isNone = (ownOp i t).isNone := by
  unfold ownOp
  cases i.op <;> simp only [Option.isNone_some, Option.isNone_none]

theorem ownOp_none_congr {i : Item} {s : State} (h : ownOp i s = none) (t : State) : ownOp i t = none := by
  rw [← Option.isNone_iff_eq_none, ownOp_isNone_congr i t s, h]
  rfl

theorem itemTaken_items (c : Nat) (i : Item) (s : State) :
    ∃ w : Item → Bool, items c (itemTaken c i s) =
      ((items c s).map (fun j => if j.seq = i.seq then selectedStage j else j)).map (fun j => { j with waited := w j }) := by
  obtain ⟨w, hw⟩ := noteWait_items c i.tag (noteFall c (modItem c i.seq (fun i => { i with stage := if i.isFrame then .selected else .running }) s))
  refine ⟨w, hw.trans ?_⟩
  rw [noteFall_items, items_modItem_same]
  rfl

theorem stage_of_itemTaken {c : Nat} {i j : Item} {s : State} (hj : j ∈ items c (itemTaken c i s)) (hs : j.seq = i.seq) :
    j.stage = if j.isFrame then .selected else .running := by
  obtain ⟨w, hw⟩ := itemTaken_items c i s
  rw [hw] at hj
  obtain ⟨k, hk, rfl⟩ := List.mem_map.1 hj
  obtain ⟨l, -, rfl⟩ := List.mem_map.1 hk
  have hl : l.seq = i.seq := by
    dsimp only at hs
    split at hs
    · exact hs
    · exact hs
  rw [if_pos hl]
  rfl

end Sys2Proof.Machine
end

section
/-! PROOFS. The dispatchers: rounds, engine slots, lookups and waits (R335 to R337, R347). -/

namespace Sys2Proof.Machine

/-! ### An empty cluster -/

theorem oldestOf_of_no_items {c : Nat} {s : State} (h : eligible c s = []) (q : Nat) : oldestOf c q s = none := by
  unfold oldestOf
  rw [h]
  rfl

theorem strict_of_no_items {c : Nat} {s : State} (h : eligible c s = []) : [7, 6, 5].findSome? (fun k => oldestOf c k s) = none := by
  simp [oldestOf_of_no_items h]

theorem weightedNext_of_no_items {c : Nat} {s : State} (h : eligible c s = []) : weightedNext c s = none := by
  unfold weightedNext
  simp [oldestOf_of_no_items h]

theorem selectOne_of_no_items {c : Nat} {s : State} (h : eligible c s = []) : selectOne c s = s :=
  selectOne_idle (strict_of_no_items h) (weightedNext_of_no_items h)

theorem stageReady_of_none {c : Nat} {s : State} (h : (items c s).find? (fun i => decide (i.stage = .selected) && i.looked && !i.stall) = none) :
    stageReady c s = s := by
  unfold stageReady
  rw [h]

theorem fillOne_of_none {c : Nat} {s : State} (h : chanOn .mcs c s = false ∨ nextStaged c s = none ∨ chooseEngine c s = none) : fillOne c s = s := by
  unfold fillOne
  rcases h with h | h | h
  · rw [if_pos (by rw [h]; rfl)]
  · rw [h]
    split <;> rfl
  · rw [h]
    split
    · rfl
    · cases nextStaged c s <;> rfl

/-! ### Moves and transfers that do not wait -/

/-- No entry of the owner map is being given, purged or ended. -/
def OwnQuiet (s : State) : Prop := ∀ x ∈ s.mesh.own, x.2.ending = none ∧ x.2.giving = false ∧ x.2.purge = false

theorem settleTransfers_of_quiet {s : State} (h : OwnQuiet s) : settleTransfers s = s := by
  unfold settleTransfers
  refine foldOver_id fun x hx => ?_
  rw [(h x hx).1]

theorem serveMoves_of_quiet {s : State} (h : OwnQuiet s) : serveMoves s = s := by
  have hgiving : s.mesh.own.filter (fun x => x.2.giving) = [] := List.filter_eq_nil_iff.2 fun x hx => by rw [(h x hx).2.1]; decide
  have hpurge : s.mesh.own.filter (fun x => x.2.purge) = [] := List.filter_eq_nil_iff.2 fun x hx => by rw [(h x hx).2.2]; decide
  unfold serveMoves
  rw [hgiving, List.map_nil, foldOver_nil]
  dsimp only
  rw [hpurge, List.map_nil, foldOver_nil]

theorem exec_dispatchRound {c : Nat} (hc : c < 32) (s : State) :
    exec (.dispatchRound c) s = .next (serveMoves (settleTransfers (dispatchRound c s))) := guarded_of_true (decide_eq_true hc) _

theorem exec_dispatchRound_of_quiet {c : Nat} (hc : c < 32) {s t : State} (h : dispatchRound c s = t) (hq : OwnQuiet t) :
    exec (.dispatchRound c) s = .next t := by
  rw [exec_dispatchRound hc, h, settleTransfers_of_quiet hq, serveMoves_of_quiet hq]

theorem nextStaged_of_none {c : Nat} {s : State} (h : ∀ i ∈ items c s, i.stage ≠ .staged) : nextStaged c s = none := by
  unfold nextStaged
  refine List.findSome?_eq_none_iff.2 fun k _ => List.find?_eq_none.2 fun i hi => ?_
  simp [h i hi]

theorem dispatchRound_of_empty {c : Nat} {s : State} (hw : s.dsp.opWait = []) (h : items c s = []) : dispatchRound c s = s := by
  have helig : eligible c s = [] := by
    unfold eligible
    rw [h]
    rfl
  have hcancel : actCancels c s = s := by
    unfold actCancels
    rw [h]
    rfl
  have hfill : fillOne c s = s := fillOne_of_none (.inr (.inl (nextStaged_of_none fun i hi => by rw [h] at hi; cases hi)))
  have hstage : stageReady c s = s := stageReady_of_none (by rw [h]; rfl)
  unfold dispatchRound
  rw [admitOp_of_empty hw, admitOp_of_empty hw, hcancel, selectOne_of_no_items helig, selectOne_of_no_items helig, hstage, hstage, hfill, hfill]

/-! ### A cluster with one frame item that is ready -/

/-- The cluster's only item is a frame item that nothing holds up. -/
structure OnlyReady (c : Nat) (i : Item) (s : State) : Prop where
  items : items c s = [i]
  frame : i.isFrame = true
  cls : i.cls < 8
  ready : i.stage = .ready
  cancel : i.cancel = none
  looked : i.looked = false
  orphan : i.orphan = false

theorem OnlyReady.eligible {c : Nat} {i : Item} {s : State} (h : OnlyReady c i s) : eligible c s = [i] := by
  unfold Sys2Proof.Machine.eligible
  rw [h.items]
  simp [eligibleIn, h.orphan, h.ready]

theorem OnlyReady.oldestOf {c : Nat} {i : Item} {s : State} (h : OnlyReady c i s) (q : Nat) :
    oldestOf c q s = if q = i.cls then some i else none := by
  have hcls := h.cls
  unfold Sys2Proof.Machine.oldestOf
  rw [h.eligible]
  by_cases hq : q = i.cls
  · have h8 : q ≠ 8 := by omega
    simp [h.frame, hq]
    omega
  · by_cases h8 : q = 8
    · simp [h8, h.frame]
      omega
    · simp [h8, h.frame, hq, Ne.symm hq]

theorem OnlyReady.lookupRoom {c : Nat} {i : Item} {s : State} (h : OnlyReady c i s) : lookupRoom c s = true := by
  unfold Sys2Proof.Machine.lookupRoom
  rw [h.items]
  simp [h.frame, h.ready]

/-- The place of each class of the weighted cycle. -/
theorem cyclePlace_all : ∀ q < 5, ∀ w : Nat, ∃ j < 6, cyclePlace ((w + 1 + j) % 6) = q := by
  intro q hq w
  have hall : ∀ q < 5, ∀ r < 6, ∃ j < 6, cyclePlace ((r + 1 + j) % 6) = q := by decide
  obtain ⟨j, hj, h⟩ := hall q hq (w % 6) (Nat.mod_lt _ (by decide))
  refine ⟨j, hj, ?_⟩
  rw [← h]
  congr 1
  omega

theorem OnlyReady.weightedNext {c : Nat} {i : Item} {s : State} (h : OnlyReady c i s) (hc : i.cls < 5) :
    ∃ k left, weightedNext c s = some (k, left) ∧ cyclePlace k = i.cls := by
  have hhas (k : Nat) : (Sys2Proof.Machine.oldestOf c (cyclePlace k) s).isSome = decide (cyclePlace k = i.cls) := by
    rw [h.oldestOf]
    split <;> simp [*]
  unfold Sys2Proof.Machine.weightedNext
  simp only [hhas]
  by_cases hw : (cluster c s).wleft ≠ 0 ∧ decide (cyclePlace (cluster c s).wq = i.cls) = true
  · exact ⟨_, _, if_pos hw, of_decide_eq_true hw.2⟩
  · obtain ⟨j, hj, hplace⟩ := cyclePlace_all i.cls hc (cluster c s).wq
    have hsome : (((List.range 6).map (fun j => ((cluster c s).wq + 1 + j) % 6)).find? (fun k => decide (cyclePlace k = i.cls))).isSome := by
      rw [List.find?_isSome]
      exact ⟨_, List.mem_map.2 ⟨j, List.mem_range.2 hj, rfl⟩, by simp [hplace]⟩
    obtain ⟨k, hk⟩ := Option.isSome_iff_exists.1 hsome
    have hplace' : decide (cyclePlace k = i.cls) = true :=
      List.find?_some (p := fun k => decide (cyclePlace k = i.cls)) hk
    exact ⟨k, _, (if_neg hw).trans (by rw [hk]; rfl), of_decide_eq_true hplace'⟩

/-- The item is the one that is selected, whatever place of the weighted cycle that uses. -/
theorem OnlyReady.selectOne {c : Nat} {i : Item} {s : State} (h : OnlyReady c i s) :
    ∃ x, x.items = [i] ∧ selectOne c s = selectItem c i (putCluster c x s) ∨ selectOne c s = selectItem c i s := by
  by_cases hc : 5 ≤ i.cls
  · have hcls := h.cls
    have hstrict : [7, 6, 5].findSome? (fun k => Sys2Proof.Machine.oldestOf c k s) = some i := by
      simp only [h.oldestOf, List.findSome?_cons]
      have h3 : i.cls = 7 ∨ i.cls = 6 ∨ i.cls = 5 := by omega
      rcases h3 with h3 | h3 | h3 <;> simp [h3]
    exact ⟨cluster c s, .inr (selectOne_strict h.lookupRoom hstrict)⟩
  · have hstrict : [7, 6, 5].findSome? (fun k => Sys2Proof.Machine.oldestOf c k s) = none := by
      have h7 : (7 : Nat) ≠ i.cls := by omega
      have h6 : (6 : Nat) ≠ i.cls := by omega
      have h5 : (5 : Nat) ≠ i.cls := by omega
      simp [h.oldestOf, h7, h6, h5]
    obtain ⟨k, left, hw, hplace⟩ := h.weightedNext (by omega)
    have h8 : cyclePlace k ≠ 8 := by omega
    have hsel := selectOne_weighted hstrict hw (by rw [if_neg h8]; exact h.lookupRoom) (by rw [h.oldestOf, if_pos hplace])
    exact ⟨{ cluster c s with wq := k, wleft := left - 1 }, .inl ⟨h.items, hsel⟩⟩

/-- What a round leaves: the item selected, and beside that only dispatcher state of the cluster changed. -/
structure ItemSelected (c : Nat) (i : Item) (s t : State) : Prop where
  items : items c t = [{ i with stage := .selected }]
  frames : t.frames = s.frames
  targets : t.fab.targets = s.fab.targets
  mesh : t.mesh = s.mesh
  others : ∀ d, d ≠ c → Sys2Proof.Machine.items d t = Sys2Proof.Machine.items d s

theorem selectItem_only {c : Nat} {i : Item} {s : State} (hi : items c s = [i]) (hf : i.isFrame = true) : ItemSelected c i s (selectItem c i s) := by
  have hop : i.op = .frame := of_decide_eq_true hf
  have hown : ownOp i (itemTaken c i s) = none := by
    unfold ownOp
    rw [hop]
  rw [selectItem_of_none hown]
  have hitems : items c (noteFall c (modItem c i.seq (fun i => { i with stage := if i.isFrame then .selected else .running }) s)) =
      [{ i with stage := .selected }] := by
    rw [noteFall_items, items_modItem_same, hi]
    simp [hf]
  have htaken : itemTaken c i s = noteFall c (modItem c i.seq (fun i => { i with stage := if i.isFrame then .selected else .running }) s) :=
    noteWait_of_none (by rw [hitems]; simp [Item.waits])
  rw [htaken]
  refine ⟨hitems, ?_, ?_, ?_, fun d hd => ?_⟩
  · rw [noteFall_rest]
    rfl
  · rw [noteFall_rest]
    rfl
  · rw [noteFall_rest]
    rfl
  · rw [noteFall_items, items_modItem_other _ _ _ hd]

theorem OnlyReady.selected {c : Nat} {i : Item} {s : State} (h : OnlyReady c i s) : ItemSelected c i s (Sys2Proof.Machine.selectOne c s) := by
  obtain ⟨x, ⟨hx, hsel⟩ | hsel⟩ := h.selectOne
  · obtain ⟨hi, hf, ht, hm, ho⟩ := selectItem_only (s := putCluster c x s) ((items_putCluster_same c x s).trans hx) h.frame
    rw [hsel]
    exact ⟨hi, hf, ht, hm, fun d hd => (ho d hd).trans (items_putCluster_other x s hd)⟩
  · rw [hsel]
    exact selectItem_only h.items h.frame

theorem OnlyReady.dispatchRound {c : Nat} {i : Item} {s : State} (h : OnlyReady c i s) (hw : s.dsp.opWait = []) :
    ItemSelected c i s (dispatchRound c s) := by
  have hsel := h.selected
  have hcancel : actCancels c s = s := by
    unfold actCancels
    rw [h.items, foldOver_single]
    unfold actCancel
    rw [h.cancel]
  have hround : Sys2Proof.Machine.dispatchRound c s = Sys2Proof.Machine.selectOne c s := by
    unfold Sys2Proof.Machine.dispatchRound
    rw [admitOp_of_empty hw, admitOp_of_empty hw, hcancel]
    generalize Sys2Proof.Machine.selectOne c s = t at hsel ⊢
    have helig : Sys2Proof.Machine.eligible c t = [] := by
      unfold Sys2Proof.Machine.eligible
      rw [hsel.items]
      simp [eligibleIn]
    have hstage : stageReady c t = t := stageReady_of_none (by rw [hsel.items]; simp [h.looked])
    have hfill : fillOne c t = t := fillOne_of_none (.inr (.inl (nextStaged_of_none fun j hj => by
      rw [hsel.items, List.mem_singleton] at hj
      rw [hj]
      exact fun he => nomatch he)))
    rw [selectOne_of_no_items helig, hstage, hstage, hfill, hfill]
  rw [hround]
  exact hsel

/-! ### Engine slots (R337) -/

theorem engine_putEngine_same (e : Nat) (x : Engine) (s : State) : engine e (putEngine e x s) = x := sget_sset_same _ _ _ _

theorem engine_putEngine_other {e d : Nat} (x : Engine) (s : State) (h : d ≠ e) : engine d (putEngine e x s) = engine d s := sget_sset_other _ _ _ h

theorem fillOne_of_some {c k : Nat} {i : Item} {s : State} (hon : chanOn .mcs c s = true) (hn : nextStaged c s = some i)
    (hk : chooseEngine c s = some k) :
    fillOne c s = modCluster c (fun x => { x with rr := (k + 1) % 16 })
      (modItem c i.seq (fun i => { i with stage := .prefetched, engine := 16 * c + k })
        (putEngine (16 * c + k) { engine (16 * c + k) s with next := some i.seq } s)) := by
  unfold fillOne
  rw [if_neg (by rw [hon]; decide), hn, hk]

theorem fillOne_spec {c k : Nat} {i : Item} {s : State} (hon : chanOn .mcs c s = true) (hn : nextStaged c s = some i)
    (hk : chooseEngine c s = some k) :
    (engine (16 * c + k) (fillOne c s)).next = some i.seq ∧ (cluster c (fillOne c s)).rr = (k + 1) % 16 ∧
      (∀ j ∈ items c (fillOne c s), j.seq = i.seq → j.stage = .prefetched ∧ j.engine = 16 * c + k) ∧
      ∀ e, e ≠ 16 * c + k → engine e (fillOne c s) = engine e s := by
  rw [fillOne_of_some hon hn hk]
  refine ⟨?_, ?_, fun j hj hs => ?_, fun e he => ?_⟩
  · exact congrArg Engine.next (engine_putEngine_same (16 * c + k) { engine (16 * c + k) s with next := some i.seq } s)
  · exact congrArg Cluster.rr (cluster_putCluster_same _ _ _)
  · have hitems := items_modItem_same c i.seq (fun i => { i with stage := .prefetched, engine := 16 * c + k })
      (putEngine (16 * c + k) { engine (16 * c + k) s with next := some i.seq } s)
    have hj' : j ∈ items c (modItem c i.seq (fun i => { i with stage := .prefetched, engine := 16 * c + k })
        (putEngine (16 * c + k) { engine (16 * c + k) s with next := some i.seq } s)) := by
      have hput := items_putCluster_same c { cluster c (modItem c i.seq (fun i => { i with stage := .prefetched, engine := 16 * c + k })
        (putEngine (16 * c + k) { engine (16 * c + k) s with next := some i.seq } s)) with rr := (k + 1) % 16 }
        (modItem c i.seq (fun i => { i with stage := .prefetched, engine := 16 * c + k })
          (putEngine (16 * c + k) { engine (16 * c + k) s with next := some i.seq } s))
      unfold modCluster at hj
      rw [hput] at hj
      exact hj
    rw [hitems] at hj'
    obtain ⟨l, -, rfl⟩ := List.mem_map.1 hj'
    by_cases hl : l.seq = i.seq
    · rw [if_pos hl]
      exact ⟨rfl, rfl⟩
    · rw [if_neg hl] at hs
      exact absurd hs hl
  · exact engine_putEngine_other _ _ he

end Sys2Proof.Machine
end

section
/-! PROOFS. The dispatchers: operations of the device's own, lookups, ages and waits, and the obligation (R337, R342, R346, R347). -/

namespace Sys2Proof.Machine

/-! ### Operations that the device makes of itself -/

theorem evictOp_stale {b p n : Nat} {s : State} (h : slLive (placeAt b p s) = false ∨ slRec (placeAt b p s) ≠ n ∨
    ((ownEntry (b % 4096) s).giving = false ∧ (ownEntry (b % 4096) s).purge = false)) : evictOp b p n s = s := by
  refine if_pos (h.imp id (Or.imp id fun hx => ?_))
  rw [hx.1, hx.2]
  rfl

theorem evictOp_retires {b p n : Nat} {s : State} (hl : slLive (placeAt b p s) = true) (hr : slRec (placeAt b p s) = n)
    (hg : (ownEntry (b % 4096) s).giving = true ∨ (ownEntry (b % 4096) s).purge = true) :
    evictOp b p n s = retire b p n 6 false
      (if (ownEntry (b % 4096) s).giving then
        sendControl (ownerDevice (b % 4096) s) 3 (bytesLE 2 (b % 4096) ++ bytesLE 2 (ownEntry (b % 4096) s).epoch ++ recordAt n s) s else s) := by
  refine if_neg ?_
  rintro (h | h | h)
  · rw [hl] at h
    cases h
  · exact h hr
  · rw [Bool.or_eq_false_iff] at h
    rcases hg with hg | hg
    · rw [hg] at h
      cases h.1
    · rw [hg] at h
      cases h.2

theorem ownOp_evict {i : Item} {p n : Nat} (h : i.op = .evict p n) (s : State) : ownOp i s = some (evictOp i.tag p n s) := by
  unfold ownOp
  rw [h]

theorem ownOp_lostBucket {i : Item} (h : i.op = .lostBucket) (s : State) : ownOp i s = some (poisonBucket i.tag s) := by
  unfold ownOp
  rw [h]

theorem ownOp_sync {i : Item} {e epoch : Nat} {r : List Byte} (h : i.op = .sync e epoch r) (s : State) :
    ownOp i s = some (syncCreate e epoch i.tag r s) := by
  unfold ownOp
  rw [h]

theorem syncCreate_placed {e epoch b n g p : Nat} {r : List Byte} {s u : State} (hs : syncStale e epoch s = false)
    (hc : reserveCreate b s = (0, some (n, g, p), u)) :
    syncCreate e epoch b r s = placeRecord b (digestOfKey (rcKey r)) p n (rcProgram r) false
      (newRecord (rcKey r) (rcProgram r) (rcProfile r) g (rcHit r) epoch (slice r 0x40 48) (rcPackets r) (rcOctets r)) u := by
  unfold syncCreate
  rw [if_neg (by rw [hs]; decide)]
  dsimp only
  rw [hc]

/-- What a selected item does, by its kind. -/
theorem selectItem_cases {c : Nat} {i : Item} {s t : State} (ht : t = itemTaken c i s) :
    (ownOp i t = none → selectItem c i s = t) ∧
      (∀ p n, i.op = .evict p n →
        (slLive (placeAt i.tag p t) = false ∨ slRec (placeAt i.tag p t) ≠ n ∨
          ((ownEntry (i.tag % 4096) t).giving = false ∧ (ownEntry (i.tag % 4096) t).purge = false) → selectItem c i s = opDone c i.seq t) ∧
        (slLive (placeAt i.tag p t) = true → slRec (placeAt i.tag p t) = n → (ownEntry (i.tag % 4096) t).giving = false →
          (ownEntry (i.tag % 4096) t).purge = true → selectItem c i s = opDone c i.seq (retire i.tag p n 6 false t)) ∧
        (slLive (placeAt i.tag p t) = true → slRec (placeAt i.tag p t) = n → (ownEntry (i.tag % 4096) t).giving = true →
          selectItem c i s = opDone c i.seq (retire i.tag p n 6 false (sendControl (ownerDevice (i.tag % 4096) t) 3
            (bytesLE 2 (i.tag % 4096) ++ bytesLE 2 (ownEntry (i.tag % 4096) t).epoch ++ recordAt n t) t)))) ∧
      (i.op = .lostBucket → selectItem c i s = opDone c i.seq (poisonBucket i.tag t)) ∧
      (∀ e epoch r, i.op = .sync e epoch r → syncStale e epoch t = true → selectItem c i s = opDone c i.seq (staleEpoch t)) ∧
      (∀ e epoch r n g p u, i.op = .sync e epoch r → syncStale e epoch t = false → reserveCreate i.tag t = (0, some (n, g, p), u) →
        selectItem c i s = opDone c i.seq (placeRecord i.tag (digestOfKey (rcKey r)) p n (rcProgram r) false
          (newRecord (rcKey r) (rcProgram r) (rcProfile r) g (rcHit r) epoch (slice r 0x40 48) (rcPackets r) (rcOctets r)) u)) := by
  subst ht
  refine ⟨selectItem_of_none, fun p n hop => ?_, fun hop => selectItem_of_some (ownOp_lostBucket hop _), fun e epoch r hop hs => ?_,
    fun e epoch r n g p u hop hs hc => ?_⟩
  · have hsel := selectItem_of_some (ownOp_evict hop (itemTaken c i s))
    refine ⟨fun h => ?_, fun hl hr hg hp => ?_, fun hl hr hg => ?_⟩
    · rw [hsel, evictOp_stale h]
    · rw [hsel, evictOp_retires hl hr (.inr hp), if_neg (by rw [hg]; decide)]
    · rw [hsel, evictOp_retires hl hr (.inl hg), if_pos hg]
  · have hstale : syncCreate e epoch i.tag r (itemTaken c i s) = staleEpoch (itemTaken c i s) := if_pos hs
    rw [selectItem_of_some (ownOp_sync hop _), hstale]
  · rw [selectItem_of_some (ownOp_sync hop _), syncCreate_placed hs hc]

/-! ### Ages and lookups -/

theorem itemAgeExpire_waiting {c q : Nat} {i : Item} {s : State} (hi : itemAt c q s = some i) (hf : i.isFrame = true) (hr : i.isRunning = false) :
    itemAgeExpire c q s = modItem c q (fun i => { i with cancel := if i.cancel.isNone then some 2 else i.cancel }) s := by
  have hfun : (fun i : Item => if i.cancel.isNone then { i with cancel := some 2 } else i) =
      fun i => { i with cancel := if i.cancel.isNone then some 2 else i.cancel } := by
    funext j
    split <;> rfl
  unfold itemAgeExpire askCancel
  rw [hi]
  dsimp only
  rw [hf, hr, hfun]
  rfl

theorem itemAgeExpire_running {c q : Nat} {i : Item} {s : State} (hi : itemAt c q s = some i) (hr : i.isRunning = true) : itemAgeExpire c q s = s := by
  unfold itemAgeExpire
  rw [hi]
  dsimp only
  rw [hr, Bool.not_true, Bool.and_false]
  rfl

/-- The item with what its lookup found. -/
def lookedUp (c q : Nat) (stall : Bool) (f : Found3) (s : State) : State :=
  modItem c q (fun i => { i with
    looked := true, stall := stall, status := f.status, recIndex := f.recIndex, pos := f.pos, window := windowOf f.status i.key f.data }) s

/-- A frame item whose lookup is in flight, with what the lookup finds. -/
structure LookupEnds (c q : Nat) (err : LookupErr) (i : Item) (f : Found3) (s u : State) : Prop where
  item : itemAt c q s = some i
  selected : i.stage = .selected
  looked : i.looked = false
  frame : i.isFrame = true
  found : flowFind i.tag i.digest i.key err s = (f, u)

/-- Whether every line of the set that a found record needs is locked. -/
def setBlocked (i : Item) (f : Found3) (u : State) : Bool :=
  decide (f.status = 0) && blockOn .fch u && (lineOf f.recIndex u).isNone && !setHasRoom i.tag u

theorem LookupEnds.done {c q : Nat} {err : LookupErr} {i : Item} {f : Found3} {s u : State} (h : LookupEnds c q err i f s u) :
    flowLookupDone c q err s =
      if setBlocked i f u then raise fchSetStall (count fchCtrs 4 0 1 (lookedUp c q (setBlocked i f u) f u))
      else afterLookup c q (if f.status = 0 then lockRecord i.tag i.digest f.recIndex f.pos f.data (lookedUp c q (setBlocked i f u) f u)
        else lookedUp c q (setBlocked i f u) f u) := by
  unfold flowLookupDone
  rw [h.item]
  dsimp only
  rw [if_pos ⟨h.selected, h.looked, h.frame⟩, h.found]
  rfl

theorem afterLookup_stays {c q : Nat} {s : State} (ho : s.dsp.out.contains c = false) (hi : (itemAt c q s).isSome = true) :
    afterLookup c q s = stageReady c s := by
  obtain ⟨i, h⟩ := Option.isSome_iff_exists.1 hi
  unfold afterLookup
  rw [h]
  dsimp only
  rw [ho]
  rfl

theorem cacheSetUnlock_goesOn {c q : Nat} {i : Item} {s : State} (hi : itemAt c q s = some i) (hs : i.stall = true) (hr : setHasRoom i.tag s = true) :
    cacheSetUnlock c q s = afterLookup c q (lockRecord i.tag i.digest i.recIndex i.pos i.window (modItem c q (fun i => { i with stall := false }) s)) := by
  unfold cacheSetUnlock
  rw [hi]
  dsimp only
  rw [hs, hr]
  rfl

theorem LookupEnds.cases {c q : Nat} {err : LookupErr} {i : Item} {f : Found3} {s u : State} (hc : c < 32) (h : LookupEnds c q err i f s u) :
    (∀ v, f.status ≠ 0 → v = lookedUp c q false f u → v.dsp.out.contains c = false → (itemAt c q v).isSome = true →
      exec (.flowLookupDone c q err) s = .next (stageReady c v)) ∧
    (∀ v w, f.status = 0 → blockOn .fch u = false ∨ lineOf f.recIndex u ≠ none ∨ setHasRoom i.tag u = true → v = lookedUp c q false f u →
      w = lockRecord i.tag i.digest f.recIndex f.pos f.data v → w.dsp.out.contains c = false → (itemAt c q w).isSome = true →
      exec (.flowLookupDone c q err) s = .next (stageReady c w)) ∧
    (f.status = 0 → blockOn .fch u = true → lineOf f.recIndex u = none → setHasRoom i.tag u = false →
      exec (.flowLookupDone c q err) s = .next (raise fchSetStall (count fchCtrs 4 0 1 (lookedUp c q true f u)))) := by
  have hexec : exec (.flowLookupDone c q err) s = .next (flowLookupDone c q err s) := guarded_of_true (decide_eq_true hc) _
  rw [hexec, h.done]
  refine ⟨fun v hs hv ho hi => ?_, fun v w hs hroom hv hw ho hi => ?_, fun hs hb hl hr => ?_⟩
  · have hfree : setBlocked i f u = false := by
      unfold setBlocked
      rw [decide_eq_false hs]
      rfl
    rw [hfree, if_neg (by decide), if_neg hs, ← hv, afterLookup_stays ho hi]
  · have hfree : setBlocked i f u = false := by
      unfold setBlocked
      rcases hroom with h1 | h1 | h1
      · simp [h1]
      · simp [h1]
      · simp [h1]
    rw [hfree, if_neg (by decide), if_pos hs, ← hv, ← hw, afterLookup_stays ho hi]
  · have hfull : setBlocked i f u = true := by
      unfold setBlocked
      simp [hs, hb, hl, hr]
    rw [hfull, if_pos rfl]

/-- Settles O34, a lemma for each part of a round and each other command. -/
theorem itemsWaitSelectAndLookUp : Obligations.ItemsWaitSelectAndLookUp := by
  unfold Obligations.ItemsWaitSelectAndLookUp
  intro s
  refine ⟨fun c hc => exec_dispatchRound hc s, fun c hc hw hq => ⟨fun h => ?_, fun i hi hf hcls hst hcan hl ho => ?_⟩,
    fun c i rest hw hst ha => admitOp_of_first hw hst ha, fun c i => ?_, fun c q i h => oldestOf_spec h, fun c i hr h => selectOne_strict hr h,
    fun c h => ⟨fun hw => selectOne_idle h hw, fun k left i hw hroom ho => selectOne_weighted h hw hroom ho⟩, fun c i hown j hj hs => ?_,
    fun c i k hon hn hk => fillOne_spec hon hn hk, fun c h => fillOne_of_none h, fun c i t ht => selectItem_cases ht,
    fun c q i hc hi => ⟨fun hf hr => ?_, fun hr => ?_⟩, fun c q err i f u hc hi hst hl hf hfound => LookupEnds.cases hc ⟨hi, hst, hl, hf, hfound⟩,
    fun c q i hc hi hs hr => ?_, fun w k v c hk ha hsel hfused => ?_⟩
  · exact exec_dispatchRound_of_quiet hc (dispatchRound_of_empty hw h) hq
  · have hround := OnlyReady.dispatchRound (c := c) ⟨hi, hf, hcls, hst, hcan, hl, ho⟩ hw
    refine ⟨_, exec_dispatchRound_of_quiet hc rfl ?_, hround.items, hround.frames, hround.targets, hround.others⟩
    unfold OwnQuiet
    rw [hround.mesh]
    exact hq
  · obtain ⟨w, hitems⟩ := admitItem_items c i s
    refine ⟨{ takenIn c i s with waited := w (takenIn c i s) }, ?_, ?_, rfl, rfl, rfl, rfl, rfl, rfl⟩
    · rw [hitems, List.map_append, List.map_singleton, List.getLast?_append]
      rfl
    · rw [hitems, List.length_map, List.length_append]
      rfl
  · rw [selectItem_of_none (ownOp_none_congr hown _)] at hj
    exact stage_of_itemTaken hj hs
  · exact (guarded_of_true (decide_eq_true hc) _).trans (congrArg _ (itemAgeExpire_waiting hi hf hr))
  · exact (guarded_of_true (decide_eq_true hc) _).trans (congrArg _ (itemAgeExpire_running hi hr))
  · exact (guarded_of_true (decide_eq_true hc) _).trans (congrArg _ (cacheSetUnlock_goesOn hi hs hr))
  · exact (guarded_of_true (decide_eq_true hk) _).trans (congrArg _ (writingC_of_admits ha hsel hfused _))

end Sys2Proof.Machine
end

section
/-! PROOFS. The flow engines: starting, executing, checking and ending an item (R297 to R314, R346). -/

namespace Sys2Proof.Machine

/-! ### What a count, a logged fault and a change of an engine leave alone -/

/-- Between two states lie only counters, fault registers and events: the parts that an engine's work uses are as before. -/
structure FaultLogged (u t : State) : Prop where
  fen : t.fen = u.fen
  frames : t.frames = u.frames
  flow : t.flow = u.flow
  dsp : t.dsp = u.dsp
  sw : t.sw = u.sw
  targets : t.fab.targets = u.fab.targets

theorem FaultLogged.trans {u t v : State} (h : FaultLogged u t) (h' : FaultLogged t v) : FaultLogged u v :=
  ⟨h'.fen.trans h.fen, h'.frames.trans h.frames, h'.flow.trans h.flow, h'.dsp.trans h.dsp, h'.sw.trans h.sw, h'.targets.trans h.targets⟩

theorem Changes.faultLogged {ks cs : List Nat} {u t : State} (h : Changes ks cs u t) : FaultLogged u t :=
  ⟨h.fen, h.frames, h.flow, h.dsp, h.sw, h.targets⟩

theorem fenCount_faultLogged (k e : Nat) (s : State) : FaultLogged s (fenCount k e s) :=
  (count_changes (ks := []) _ _ _ _ _ (List.mem_singleton.2 rfl)).faultLogged

theorem wrC_faultLogged (f : Fld) (c v : Nat) (s : State) : FaultLogged s (wrC f c v s) := ⟨rfl, rfl, rfl, rfl, rfl, rfl⟩

theorem lastFault_faultLogged (e kind pc prog bank bucket : Nat) (s : State) : FaultLogged s (lastFault e kind pc prog bank bucket s) := by
  unfold lastFault
  split
  · exact ⟨rfl, rfl, rfl, rfl, rfl, rfl⟩
  · exact (((((wrC_faultLogged _ _ _ _).trans (wrC_faultLogged _ _ _ _)).trans (wrC_faultLogged _ _ _ _)).trans
      (wrC_faultLogged _ _ _ _)).trans (wrC_faultLogged _ _ _ _)).trans (wrC_faultLogged _ _ _ _)

theorem engineFault_faultLogged (e kind k : Nat) (src : Src) (r : Run) (i : Item) (s : State) :
    FaultLogged s (engineFault e kind k src r i s) :=
  ((lastFault_faultLogged _ _ _ _ _ _ s).trans (fenCount_faultLogged _ _ _)).trans (raiseC_onlyEvents _ _ _).faultLogged

theorem engine_of_fen {s t : State} (h : t.fen = s.fen) (k : Nat) : engine k t = engine k s := congrArg (fun x : Engines => sget (fun _ => ({} : Engine)) x.engines k) h

theorem store_of_fen {s t : State} (h : t.fen = s.fen) (c : Nat) : store c t = store c s := congrArg (fun x : Engines => sget (fun _ => ({} : Store)) x.stores c) h

/-- Of all that an engine's work uses only the run of engine e has changed, and reads as given. -/
structure RunsOn (e : Nat) (r : Run) (u t : State) : Prop where
  here : engine e t = ⟨some r, (engine e u).next⟩
  others : ∀ k, k ≠ e → engine k t = engine k u
  frames : t.frames = u.frames
  flow : t.flow = u.flow
  dsp : t.dsp = u.dsp
  stores : t.fen.stores = u.fen.stores
  sw : t.sw = u.sw
  targets : t.fab.targets = u.fab.targets

theorem FaultLogged.runsOn {u t : State} (h : FaultLogged u t) (e : Nat) (r : Run) : RunsOn e r u (putEngRun e r t) where
  here := by
    unfold putEngRun
    rw [engine_putEngine_same, engine_of_fen h.fen]
  others k hk := by
    unfold putEngRun
    rw [engine_putEngine_other _ _ hk, engine_of_fen h.fen]
  frames := h.frames
  flow := h.flow
  dsp := h.dsp
  stores := show t.fen.stores = u.fen.stores from congrArg Engines.stores h.fen
  sw := h.sw
  targets := h.targets

theorem RunsOn.logged {e : Nat} {r : Run} {u t v : State} (h : RunsOn e r u t) (h' : FaultLogged t v) : RunsOn e r u v where
  here := (engine_of_fen h'.fen e).trans h.here
  others k hk := (engine_of_fen h'.fen k).trans (h.others k hk)
  frames := h'.frames.trans h.frames
  flow := h'.flow.trans h.flow
  dsp := h'.dsp.trans h.dsp
  stores := (congrArg Engines.stores h'.fen).trans h.stores
  sw := h'.sw.trans h.sw
  targets := h'.targets.trans h.targets

theorem forceEnd_runsOn {e kind k : Nat} {src : Src} {r : Run} {i : Item} {u s : State} (h : FaultLogged u s) :
    RunsOn e { r with ended := some (2, false), forced := true } u (forceEnd e kind k src r i s) :=
  (h.runsOn e _).logged (engineFault_faultLogged _ _ _ _ _ _ _)

/-! ### The ALU -/

theorem dreg_putDreg_same (i v : Nat) (r : Run) : dreg (putDreg i v r) i = v % 2 ^ 64 := sget_sset_same _ _ _ _

theorem dreg_putDreg_other {i k : Nat} (v : Nat) (r : Run) (h : k ≠ i) : dreg (putDreg i v r) k = dreg r k := sget_sset_other _ _ _ h

theorem widthBits_le (w : Nat) : widthBits w ≤ 64 := by
  unfold widthBits
  split_ifs <;> decide

theorem aluValue_lt (a : AluSlice) (r : Run) : aluValue a r < 2 ^ 64 :=
  (Nat.mod_lt _ (Nat.two_pow_pos _)).trans_le (Nat.pow_le_pow_right (by decide) (widthBits_le _))

theorem dreg_aluApply (a : AluSlice) (o r : Run) (h : a.op ≠ 0) (k : Nat) : dreg (aluApply a o r) k = dreg (putDreg a.dst (aluValue a o) r) k := by
  unfold aluApply
  rw [if_neg h]
  dsimp only
  split <;> rfl

theorem aluApply_dst (a : AluSlice) (o r : Run) (h : a.op ≠ 0) : dreg (aluApply a o r) a.dst = aluValue a o := by
  rw [dreg_aluApply a o r h, dreg_putDreg_same, Nat.mod_eq_of_lt (aluValue_lt a o)]

theorem aluApply_other (a : AluSlice) (o r : Run) (h : a.op ≠ 0) (k : Nat) (hk : k ≠ a.dst) : dreg (aluApply a o r) k = dreg r k := by
  rw [dreg_aluApply a o r h, dreg_putDreg_other _ _ hk]

/-- At full width and with a register operand the operands are the two registers. -/
theorem aluValue_full {a : AluSlice} (hw : a.width = 0) (hb : a.bImm = false) (o : Run) :
    aluValue a o = aluResult a.op 64 (dreg o a.a % 2 ^ 64) (dreg o a.b % 2 ^ 64) a.imm (bit o.preds (bitsOf a.imm 0 3)) % 2 ^ 64 := by
  unfold aluValue
  rw [hw, hb]
  rfl

theorem b2n_decide_mod (p : Prop) [Decidable p] : b2n (decide p) % 2 ^ 64 = if p then 1 else 0 := by
  by_cases h : p
  · rw [if_pos h, decide_eq_true h]
    rfl
  · rw [if_neg h, decide_eq_false h]
    rfl

/-- The operations that the obligation names, at full width with a register operand. -/
theorem aluValue_cases {a : AluSlice} (hw : a.width = 0) (hb : a.bImm = false) (o : Run) :
    (a.op = 1 → aluValue a o = (dreg o a.a % 2 ^ 64 + dreg o a.b % 2 ^ 64) % 2 ^ 64) ∧
    (a.op = 2 → aluValue a o = (dreg o a.a % 2 ^ 64 + (2 ^ 64 - dreg o a.b % 2 ^ 64)) % 2 ^ 64) ∧
    (a.op = 10 → aluValue a o = dreg o a.b % 2 ^ 64) ∧
    (a.op = 13 → aluValue a o = if dreg o a.a % 2 ^ 64 = dreg o a.b % 2 ^ 64 then 1 else 0) ∧
    (a.op = 15 → aluValue a o = if dreg o a.a % 2 ^ 64 < dreg o a.b % 2 ^ 64 then 1 else 0) := by
  rw [aluValue_full hw hb]
  refine ⟨fun h => ?_, fun h => ?_, fun h => ?_, fun h => ?_, fun h => ?_⟩ <;> rw [h]
  · rfl
  · rfl
  · exact Nat.mod_mod _ _
  · exact b2n_decide_mod _
  · exact b2n_decide_mod _

/-! ### Starting an item -/

theorem itemStart_of_next {e q : Nat} {i : Item} {s : State} (hr : (engine e s).run = none) (hn : (engine e s).next = some q)
    (hi : itemAt (e / 16) q s = some i) :
    (∀ why, i.cancel = some why → itemStart e s = cancelNow (e / 16) i why s) ∧ (i.cancel = none → itemStart e s = startItem e i s) := by
  refine ⟨fun why h => ?_, fun h => ?_⟩ <;> simp only [itemStart, hr, hn, hi, h]

theorem startItem_of_valid {e p : Nat} {i : Item} {d : List Byte} {s : State} (hp : p = progAt (e / 16) (liveBank (e / 16) s) i.program s)
    (hv : peProgValid p = true) (hd : d = startDesc i (frame i.frame s) (tickNow s)) :
    startItem e i s = noteStart (e / 16) i (noteHit i
      (modItem (e / 16) i.seq (fun i => { i with stage := .running, engine := e })
        (putEngine e { run := some { item := i.seq, bank := liveBank (e / 16) s, pc := peEntry p, entry := peEntry p, maxWords := peMaxWords p, scratch := List.replicate 256 0, recw := i.window, desc := d, desc0 := d, exists_ := decide (i.status = 0) }, next := none } s))) := by
  unfold startItem
  dsimp only
  rw [← hd, ← hp, hv]
  exact if_neg Bool.false_ne_true

theorem startItem_of_invalid {e : Nat} {i : Item} {s : State}
    (hv : peProgValid (progAt (e / 16) (liveBank (e / 16) s) i.program s) = false) : Asserted fenProgInvalid (startItem e i s) := by
  unfold startItem
  dsimp only
  rw [if_pos (by rw [hv]; rfl)]
  exact raiseC_asserted _ _ (by decide)

/-! ### Executing a microword -/

/-- The state in which the word is executed: the cluster's busy words of the millisecond are one more. -/
def busyCounted (e : Nat) (s : State) : State := { s with dsp := { s.dsp with busyNow := smod zeroDefault s.dsp.busyNow (e / 16) (· + 1) } }

/-- Engine e runs item i, whose word is not yet the last and not waited for. -/
structure Fetches (e : Nat) (r : Run) (i : Item) (s : State) : Prop where
  item : runningItem e s = some (r, i)
  goes : r.ended = none
  loaded : r.reload = false
  whole : markedWord (e / 16) r.bank r.pc s = false

theorem Fetches.execute {e w : Nat} {r : Run} {i : Item} {s : State} (h : Fetches e r i s) (hw : w = wordAt (e / 16) r.bank r.pc s) :
    microwordExecute e s =
      if badWord w then machineCheck e r i (busyCounted e s)
      else if pendingStall w r then fenCount 2 e (busyCounted e s)
      else if arrivalStall w r (frame i.frame s) then fenCount 3 e (busyCounted e s)
      else runWord e w r i (frame i.frame s) (busyCounted e s) := by
  subst hw
  simp only [microwordExecute, h.item, h.goes]
  rw [if_neg (by decide)]
  refine if_neg fun hr => ?_
  rcases hr with hr | hr
  · exact absurd (hr.symm.trans h.loaded) (by decide)
  · exact absurd (hr.symm.trans h.whole) (by decide)

theorem Fetches.check {e : Nat} {r : Run} {i : Item} {s : State} (h : Fetches e r i s) (flip : Nat) :
    machineCheckFlip e flip s = machineCheck e r i (modStore (e / 16) (fun x => { x with
      words := smod zeroDefault x.words (wordPlace r.bank r.pc) (fun w => w ^^^ 2 ^ (flip % 196)) }) s) := by
  simp only [machineCheckFlip, h.item, h.goes, h.loaded, h.whole]
  rfl

theorem machineCheckFlip_of_marked {e flip : Nat} {r : Run} {i : Item} {s : State} (hi : runningItem e s = some (r, i)) (he : r.ended = none)
    (hr : r.reload = false) (hm : markedWord (e / 16) r.bank r.pc s = true) : machineCheckFlip e flip s = machineCheck e r i s := by
  simp only [machineCheckFlip, hi, he, hr, hm]
  rfl

/-- The run after the slices of a word that is no external operation. -/
def slicesApplied (w : Nat) (r : Run) (f : Frame) : Run :=
  memApply (memSlice w) r f (aluApply (aluSlice w 2) r (aluApply (aluSlice w 1) r { r with words := r.words + 1 }))

theorem runWord_of_local {e w : Nat} {r : Run} {i : Item} {f : Frame} {u : State} (hk : (memSlice w).kind ≠ 4)
    (hf : windowFaults (memSlice w) r = false) : runWord e w r i f u = sequence e w r (slicesApplied w r f) i f (fenCount 1 e u) := by
  simp only [runWord, if_neg hk, hf]
  rfl

theorem putDreg_steady (i v : Nat) (r : Run) :
    (putDreg i v r).words = r.words ∧ (putDreg i v r).maxWords = r.maxWords ∧ (putDreg i v r).bank = r.bank := ⟨rfl, rfl, rfl⟩

theorem aluApply_steady (a : AluSlice) (o r : Run) :
    (aluApply a o r).words = r.words ∧ (aluApply a o r).maxWords = r.maxWords ∧ (aluApply a o r).bank = r.bank := by
  unfold aluApply
  dsimp only
  split
  · exact ⟨rfl, rfl, rfl⟩
  · split
    · exact ⟨rfl, rfl, rfl⟩
    · exact ⟨rfl, rfl, rfl⟩

theorem putLocal_steady (a v : Nat) (r : Run) :
    (putLocal a v r).words = r.words ∧ (putLocal a v r).maxWords = r.maxWords ∧ (putLocal a v r).bank = r.bank := by
  unfold putLocal
  split_ifs <;> exact ⟨rfl, rfl, rfl⟩

theorem putLocals_steady (bs : List Byte) : ∀ (a : Nat) (r : Run),
    (putLocals a bs r).words = r.words ∧ (putLocals a bs r).maxWords = r.maxWords ∧ (putLocals a bs r).bank = r.bank := by
  induction bs with
  | nil => exact fun _ _ => ⟨rfl, rfl, rfl⟩
  | cons b bs ih =>
    intro a r
    obtain ⟨hw, hm, hb⟩ := ih (a + 1) (putLocal (a % 1024) b.toNat r)
    obtain ⟨hw', hm', hb'⟩ := putLocal_steady (a % 1024) b.toNat r
    exact ⟨hw.trans hw', hm.trans hm', hb.trans hb'⟩

theorem memApply_steady (m : MemSlice) (o : Run) (f : Frame) (r : Run) :
    (memApply m o f r).words = r.words ∧ (memApply m o f r).maxWords = r.maxWords ∧ (memApply m o f r).bank = r.bank := by
  unfold memApply
  dsimp only
  by_cases h1 : m.kind = 1
  · rw [if_pos h1]
    exact putDreg_steady _ _ _
  rw [if_neg h1]
  by_cases h2 : m.kind = 2
  · rw [if_pos h2]
    exact putLocals_steady _ _ _
  rw [if_neg h2]
  by_cases h3 : m.kind = 3
  · rw [if_pos h3]
    exact putLocals_steady _ _ _
  rw [if_neg h3]
  exact ⟨rfl, rfl, rfl⟩

/-- No slice changes the item's budget or bank; the word itself is counted. -/
theorem slicesApplied_steady (w : Nat) (r : Run) (f : Frame) :
    (slicesApplied w r f).words = r.words + 1 ∧ (slicesApplied w r f).maxWords = r.maxWords ∧ (slicesApplied w r f).bank = r.bank := by
  obtain ⟨hw, hm, hb⟩ := memApply_steady (memSlice w) r f (aluApply (aluSlice w 2) r (aluApply (aluSlice w 1) r { r with words := r.words + 1 }))
  obtain ⟨hw2, hm2, hb2⟩ := aluApply_steady (aluSlice w 2) r (aluApply (aluSlice w 1) r { r with words := r.words + 1 })
  obtain ⟨hw1, hm1, hb1⟩ := aluApply_steady (aluSlice w 1) r { r with words := r.words + 1 }
  exact ⟨hw.trans (hw2.trans hw1), hm.trans (hm2.trans hm1), hb.trans (hb2.trans hb1)⟩

section
variable {e w : Nat} {o r : Run} {i : Item} {f : Frame} {u : State}

theorem sequence_to {pc : Nat} {st : List Nat} (hn : nextOf (seqSlice w) o i f = .to pc st) (hb : r.words < r.maxWords)
    (hp : pc < bankWords (e / 16) r.bank u) : sequence e w o r i f u = putEngRun e { r with pc := pc, stack := st } u := by
  simp only [sequence, hn]
  exact if_neg fun h => h.elim (Nat.not_le.2 hb) (Nat.not_le.2 hp)

theorem sequence_runaway {pc : Nat} {st : List Nat} (hn : nextOf (seqSlice w) o i f = .to pc st)
    (h : r.maxWords ≤ r.words ∨ bankWords (e / 16) r.bank u ≤ pc) : sequence e w o r i f u = forceEnd e 1 4 fenRunaway r i u := by
  simp only [sequence, hn]
  exact if_pos h

theorem sequence_finish {v : Nat} {g : Bool} (hn : nextOf (seqSlice w) o i f = .finish v g) :
    sequence e w o r i f u = putEngRun e { r with ended := some (v, g) } u := by
  simp only [sequence, hn]

theorem sequence_stackFault (hn : nextOf (seqSlice w) o i f = .stackFault) : sequence e w o r i f u = forceEnd e 3 6 fenStackFault r i u := by
  simp only [sequence, hn]

end

theorem bankWords_of_fen {s t : State} (h : t.fen = s.fen) (c b : Nat) : bankWords c b t = bankWords c b s := by
  unfold bankWords
  rw [store_of_fen h]

/-! ### A machine check -/

theorem engineFault_asserted (e kind k : Nat) {src : Src} (r : Run) (i : Item) (s : State) (h : src.b < 32) :
    Asserted src (engineFault e kind k src r i s) := raiseC_asserted _ _ h

/-- The first check of a word whose golden copy can be read, in an item that is not retried: the word is marked and the item waits to run
again. -/
theorem machineCheck_first {e : Nat} {r : Run} {i : Item} {s : State} (hf : (store (e / 16) s).failed.contains (wordPlace r.bank r.pc) = false)
    (hg : goldenReadable (e / 16) r.bank s = true) (hr : r.retry = false) :
    Asserted fenMcAbandon (machineCheck e r i s) ∧ markedWord (e / 16) r.bank r.pc (machineCheck e r i s) = true ∧
      (engine e (machineCheck e r i s)).run = some { freshRun r i with reload := true, retry := true, failedWord := wordPlace r.bank r.pc } := by
  have hab : Asserted fenMcAbandon (engineFault e 6 9 fenMcAbandon r i (releaseOps r i s)) := engineFault_asserted _ _ _ _ _ _ (by decide)
  unfold machineCheck
  dsimp only
  rw [hf, hg, hr, Bool.false_and, if_neg (by decide), if_neg (by decide)]
  generalize engineFault e 6 9 fenMcAbandon r i (releaseOps r i s) = u at hab ⊢
  generalize hv : satX mcsMcStatus_checks 0 (e / 16) 1 (wrC mcsMcStatus_lastBank (e / 16) r.bank (wrC mcsMcStatus_lastWord (e / 16) r.pc u)) = v
  have hev : v.evt = u.evt := hv ▸ rfl
  refine ⟨Asserted.of_evt (Asserted.of_evt hab hev) rfl, ?_, ?_⟩
  · have hstore : ∀ (x : Engine) (y : Store) (t : State), store (e / 16) (putEngine e x (putStore (e / 16) y t)) = y :=
      fun _ y t => store_putStore _ y t
    unfold markedWord putEngRun modStore
    rw [hstore]
    exact List.contains_iff_mem.2 List.mem_cons_self
  · exact congrArg Engine.run (engine_putEngine_same _ _ _)

/-! ### A reload -/

/-- One engine of a cluster goes on if it waits for one of the words. -/
def resumeOne (c : Nat) (ws : Nat → Bool) (j : Nat) (a : State) : State :=
  match (engine (16 * c + j) a).run with
  | some r => if r.reload && ws r.failedWord then putEngRun (16 * c + j) { r with reload := false } a else a
  | none => a

theorem resumeEngines_eq (c : Nat) (ws : Nat → Bool) (s : State) : resumeEngines c ws s = foldOver (List.range 16) (resumeOne c ws) s := rfl

theorem resumeOne_other {c j k : Nat} {ws : Nat → Bool} (a : State) (h : k ≠ 16 * c + j) : engine k (resumeOne c ws j a) = engine k a := by
  unfold resumeOne
  cases (engine (16 * c + j) a).run with
  | none => rfl
  | some r =>
    dsimp only
    split
    · exact engine_putEngine_other _ _ h
    · rfl

theorem resumeOne_waiting {c j : Nat} {ws : Nat → Bool} {a : State} {r : Run} (hr : (engine (16 * c + j) a).run = some r) (hl : r.reload = true)
    (hw : ws r.failedWord = true) : (engine (16 * c + j) (resumeOne c ws j a)).run = some { r with reload := false } := by
  simp only [resumeOne, hr, hl, hw, Bool.and_self, if_true]
  unfold putEngRun
  rw [engine_putEngine_same]

theorem resumeOne_elsewhere {c j : Nat} {ws : Nat → Bool} {l : List Nat} (hj : j ∉ l) (a : State) :
    engine (16 * c + j) (foldOver l (resumeOne c ws) a) = engine (16 * c + j) a := by
  induction l generalizing a with
  | nil => rfl
  | cons k ks ih =>
    have hk : j ≠ k := fun h => hj (h ▸ List.mem_cons_self)
    rw [foldOver_cons, ih fun h => hj (List.mem_cons_of_mem _ h), resumeOne_other a (by omega)]

/-- Every listed engine that waits for one of the words goes on. -/
theorem resumeOne_all {c j : Nat} {ws : Nat → Bool} {l : List Nat} (hl : l.Nodup) {a : State} {r : Run} (hj : j ∈ l)
    (hr : (engine (16 * c + j) a).run = some r) (hre : r.reload = true) (hws : ws r.failedWord = true) :
    (engine (16 * c + j) (foldOver l (resumeOne c ws) a)).run = some { r with reload := false } := by
  induction l generalizing a with
  | nil => exact absurd hj List.not_mem_nil
  | cons k ks ih =>
    obtain ⟨hk, hks⟩ := List.nodup_cons.1 hl
    rw [foldOver_cons]
    rcases List.mem_cons.1 hj with rfl | hj'
    · rw [resumeOne_elsewhere hk]
      exact resumeOne_waiting hr hre hws
    · have hne : j ≠ k := fun h => hk (h ▸ hj')
      exact ih hks hj' (by rw [resumeOne_other a (by omega)]; exact hr)

/-- A reload of a marked word whose golden copy can be read: the word is the golden one again, and the engines that wait for it go on. -/
theorem wordReloadDone_of_marked {c b w : Nat} {s : State} (hm : markedWord c b w s = true) (hg : goldenReadable c b s = true)
    (hh : rd hmkStatus_state s ≠ 2) :
    wordReloadDone c b w s = resumeEngines c (· == wordPlace b w) (raiseC mcsMcReload c
      (putStore c (rewriteWord (wordPlace b w) (store c s)) s)) := if_pos ⟨hm, hg, hh⟩

theorem store_resumeEngines (c d : Nat) (ws : Nat → Bool) (s : State) : store d (resumeEngines c ws s) = store d s := by
  obtain ⟨es, h⟩ := resumeEngines_engines c ws s
  rw [h]
  rfl

theorem evt_resumeEngines (c : Nat) (ws : Nat → Bool) (s : State) : (resumeEngines c ws s).evt = s.evt := by
  obtain ⟨es, h⟩ := resumeEngines_engines c ws s
  rw [h]

theorem reload_spec {c b w : Nat} {s u t : State} (hu : u = putStore c (rewriteWord (wordPlace b w) (store c s)) s)
    (ht : t = resumeEngines c (· == wordPlace b w) (raiseC mcsMcReload c u)) :
    Asserted mcsMcReload t ∧ markedWord c b w t = false ∧
      sget zeroDefault (store c t).words (wordPlace b w) = sget zeroDefault (store c s).golden (wordPlace b w) ∧
      ∀ j r, j < 16 → (engine (16 * c + j) s).run = some r → r.reload = true → r.failedWord = wordPlace b w →
        (engine (16 * c + j) t).run = some { r with reload := false } := by
  have hstore : store c t = rewriteWord (wordPlace b w) (store c s) := by
    rw [ht, store_resumeEngines, store_of_fen (raiseC_onlyEvents _ _ _).fen, hu, store_putStore]
  refine ⟨Asserted.of_evt (raiseC_asserted c u (by decide)) (by rw [ht]; exact evt_resumeEngines _ _ _), ?_, ?_, ?_⟩
  · unfold markedWord
    rw [hstore]
    simp [rewriteWord]
  · rw [hstore]
    exact sget_sset_same _ _ _ _
  · intro j r hj hr hre hw
    have hr' : (engine (16 * c + j) (raiseC mcsMcReload c u)).run = some r := by
      rw [engine_of_fen (raiseC_onlyEvents mcsMcReload c u).fen, hu]
      exact hr
    rw [ht, resumeEngines_eq]
    exact resumeOne_all List.nodup_range (List.mem_range.2 hj) hr' hre (by rw [hw]; exact beq_self_eq_true _)

/-! ### Ending an item -/

/-- Between two states the clusters and the engines are the same. -/
def SameWork (s t : State) : Prop := t.dsp.clusters = s.dsp.clusters ∧ t.fen = s.fen

theorem SameWork.trans {s t u : State} (h : SameWork s t) (h' : SameWork t u) : SameWork s u := ⟨h'.1.trans h.1, h'.2.trans h.2⟩

theorem Changes.sameWork {ks cs : List Nat} {s t : State} (h : Changes ks cs s t) : SameWork s t := ⟨congrArg Dispatch.clusters h.dsp, h.fen⟩

theorem sameWork_foldOver {α : Type} {g : α → State → State} (hg : ∀ x a, SameWork a (g x a)) (l : List α) (s : State) :
    SameWork s (foldOver l g s) :=
  foldOver_induct (P := SameWork s) (fun x a ha => ha.trans (hg x a)) l ⟨rfl, rfl⟩

theorem offerEvicts_sameWork (e : Nat) (s : State) : SameWork s (offerEvicts e s) := by
  unfold offerEvicts
  exact sameWork_foldOver (fun _ _ => by unfold offerOp; exact ⟨rfl, rfl⟩) _ s

theorem sendControl_sameWork (k kind : Nat) (body : List Byte) (s : State) : SameWork s (sendControl k kind body s) := by
  unfold sendControl sendMsg
  dsimp only
  split
  · exact SameWork.trans ⟨rfl, rfl⟩ (count_changes (ks := []) _ _ _ _ _ (List.mem_singleton.2 rfl)).sameWork
  · exact ⟨rfl, rfl⟩

theorem serveGiving_sameWork (e : Nat) (s : State) : SameWork s (serveGiving e s) := by
  unfold serveGiving
  dsimp only
  split
  · exact ⟨rfl, rfl⟩
  · split
    · have hput : ∀ x, SameWork s (putOwn e x s) := fun _ => ⟨rfl, rfl⟩
      exact (hput _).trans (sendControl_sameWork _ _ _ _)
    · exact offerEvicts_sameWork e s

theorem servePurge_sameWork (e : Nat) (s : State) : SameWork s (servePurge e s) := by
  unfold servePurge
  split
  · exact ⟨rfl, rfl⟩
  · split
    · exact ⟨rfl, rfl⟩
    · exact offerEvicts_sameWork e s

/-- The moves of the owner map offer operations and send messages; no cluster takes an item and no engine changes. -/
theorem serveMoves_sameWork (s : State) : SameWork s (serveMoves s) :=
  (sameWork_foldOver serveGiving_sameWork _ s).trans (sameWork_foldOver servePurge_sameWork _ _)

theorem SameWork.items {s t : State} (h : SameWork s t) (c : Nat) : items c t = Sys2Proof.Machine.items c s :=
  congrArg (fun x : Sparse Cluster => (sget (fun _ => ({} : Cluster)) x c).items) h.1

theorem removeItem_items (c q : Nat) (s : State) : items c (removeItem c q s) = (items c s).filter (fun i => i.seq != q) := by
  unfold removeItem
  rw [noteFall_items]
  exact items_putCluster_same _ _ _

theorem removeItem_fen (c q : Nat) (s : State) : (removeItem c q s).fen = s.fen := by
  unfold removeItem
  rw [noteFall_rest]
  rfl

theorem itemAt_removeItem (c q : Nat) (s : State) : itemAt c q (removeItem c q s) = none := by
  unfold itemAt
  rw [removeItem_items]
  refine List.find?_eq_none.2 fun i hi => ?_
  have hne : (i.seq != q) = true := (List.mem_filter.1 hi).2
  rw [bne_iff_ne] at hne
  rwa [beq_iff_eq]

theorem unlockItem_fen (i : Item) (s : State) : (unlockItem i s).fen = s.fen := by
  unfold unlockItem
  split <;> rfl

/-- What an ended item leaves: the engine runs nothing and the item is gone. -/
theorem releaseItem_spec (e c : Nat) (r : Run) (i : Item) (s : State) :
    (engine e (releaseItem e c r i s)).run = none ∧ itemAt c i.seq (releaseItem e c r i s) = none := by
  have hwork : SameWork (removeItem c i.seq (unlockItem i (putEngine e { engine e s with run := none } s))) (releaseItem e c r i s) := by
    unfold releaseItem
    dsimp only
    generalize removeItem c i.seq (unlockItem i (putEngine e { engine e s with run := none } s)) = t
    have hcounted : SameWork t (dspCount 2 c (fenCount 0 e { t with dsp := { t.dsp with endedNow := smod zeroDefault t.dsp.endedNow c (· + 1) } })) := by
      refine SameWork.trans (SameWork.trans (t := { t with dsp := { t.dsp with endedNow := smod zeroDefault t.dsp.endedNow c (· + 1) } }) ⟨rfl, rfl⟩ ?_)
        (dspCount_changes _ _ _).sameWork
      exact (count_changes (ks := []) _ _ _ _ _ (List.mem_singleton.2 rfl)).sameWork
    refine SameWork.trans ?_ (serveMoves_sameWork _)
    split
    · exact hcounted.trans (satX_changes (cs := []) _ _ _ _ _ (List.mem_singleton.2 rfl)).sameWork
    · exact hcounted
  constructor
  · rw [engine_of_fen hwork.2, engine_of_fen (removeItem_fen _ _ _), engine_of_fen (unlockItem_fen _ _), engine_putEngine_same]
  · unfold itemAt
    rw [hwork.items]
    exact itemAt_removeItem c i.seq _

theorem seq_of_itemAt {c q : Nat} {i : Item} {s : State} (h : itemAt c q s = some i) : i.seq = q :=
  beq_iff_eq.1 (List.find?_some (p := fun i : Item => i.seq == q) h)

theorem seq_of_runningItem {e : Nat} {r : Run} {i : Item} {s : State} (h : runningItem e s = some (r, i)) : i.seq = r.item := by
  unfold runningItem at h
  cases hr : (engine e s).run with
  | none => simp [hr] at h
  | some r' =>
    simp only [hr, Option.map_eq_some_iff, Prod.mk.injEq] at h
    obtain ⟨j, hj, rfl, rfl⟩ := h
    exact seq_of_itemAt hj

theorem itemEnd_of_ended {e v : Nat} {g : Bool} {r : Run} {i : Item} {s : State} (hi : runningItem e s = some (r, i))
    (he : r.ended = some (v, g)) (hp : r.pend = []) (hready : endReady r (frame i.frame s) = true) :
    itemEnd e s = releaseItem e (e / 16) r i (endEffects e v (g && !r.forced) r i (actCancel (e / 16) i s)) := by
  simp only [itemEnd, hi, he, hp, hready]
  rfl

theorem endEffects_plain {e v w : Nat} {r : Run} {i : Item} {t u : State} (hc : i.cancel = none) (hr : rewrites r = false)
    (hv : checkVerdict e v r i t = (w, u)) : endEffects e v false r i t = emitVerdict w r i (endWrites r i u) := by
  unfold endEffects
  dsimp only
  rw [hc, hv, hr]
  have hn : ¬ ((w, u).1 ≠ 2 ∧ false = true) := fun h => Bool.false_ne_true h.2
  rw [if_neg Bool.false_ne_true, if_neg hn]
  rfl

/-! ### The obligation -/

theorem exec_microwordExecute {e : Nat} (h : e < 512) (s : State) : exec (.microwordExecute e) s = .next (microwordExecute e s) :=
  guarded_of_true (decide_eq_true h) _

theorem exec_machineCheck {e : Nat} (h : e < 512) (flip : Nat) (s : State) : exec (.machineCheck e flip) s = .next (machineCheckFlip e flip s) :=
  guarded_of_true (decide_eq_true h) _

theorem exec_itemStart {e : Nat} (h : e < 512) (s : State) : exec (.itemStart e) s = .next (itemStart e s) :=
  guarded_of_true (decide_eq_true h) _

theorem exec_itemEnd {e : Nat} (h : e < 512) (s : State) : exec (.itemEnd e) s = .next (itemEnd e s) :=
  guarded_of_true (decide_eq_true h) _

section
variable {e w : Nat} {r : Run} {i : Item} {s : State}

/-- What executing a sound word that waits for nothing and names no external operation leaves, by the sequencer's choice. -/
theorem sound_word_runs (hk : (memSlice w).kind ≠ 4) (hf : windowFaults (memSlice w) r = false)
    (u : State) (f : Frame) (hu : bankWords (e / 16) r.bank u = bankWords (e / 16) r.bank s) :
    (∀ pc st, nextOf (seqSlice w) r i f = .to pc st → r.words + 1 < r.maxWords → pc < bankWords (e / 16) r.bank s →
      RunsOn e { slicesApplied w r f with pc := pc, stack := st } u (runWord e w r i f u)) ∧
    (∀ v g, nextOf (seqSlice w) r i f = .finish v g → RunsOn e { slicesApplied w r f with ended := some (v, g) } u (runWord e w r i f u)) ∧
    (nextOf (seqSlice w) r i f = .stackFault → Asserted fenStackFault (runWord e w r i f u) ∧
      RunsOn e { slicesApplied w r f with ended := some (2, false), forced := true } u (runWord e w r i f u)) ∧
    (∀ pc st, nextOf (seqSlice w) r i f = .to pc st → r.maxWords ≤ r.words + 1 ∨ bankWords (e / 16) r.bank s ≤ pc →
      Asserted fenRunaway (runWord e w r i f u) ∧
        RunsOn e { slicesApplied w r f with ended := some (2, false), forced := true } u (runWord e w r i f u)) := by
  have hlog := fenCount_faultLogged 1 e u
  obtain ⟨hwords, hmax, hbank⟩ := slicesApplied_steady w r f
  have hcount : bankWords (e / 16) (slicesApplied w r f).bank (fenCount 1 e u) = bankWords (e / 16) r.bank s := by
    rw [bankWords_of_fen hlog.fen, hbank, hu]
  rw [runWord_of_local hk hf]
  refine ⟨fun pc st hn hb hp => ?_, fun v g hn => ?_, fun hn => ?_, fun pc st hn h => ?_⟩
  · rw [sequence_to hn (by rw [hwords, hmax]; exact hb) (by rw [hcount]; exact hp)]
    exact hlog.runsOn e _
  · rw [sequence_finish hn]
    exact hlog.runsOn e _
  · rw [sequence_stackFault hn]
    exact ⟨engineFault_asserted _ _ _ _ _ _ (by decide), forceEnd_runsOn hlog⟩
  · rw [sequence_runaway hn (by rw [hwords, hmax, hcount]; exact h)]
    exact ⟨engineFault_asserted _ _ _ _ _ _ (by decide), forceEnd_runsOn hlog⟩

theorem Fetches.sound (h : Fetches e r i s) (hw : w = wordAt (e / 16) r.bank r.pc s) (hb : badWord w = false) (hp : pendingStall w r = false)
    (ha : arrivalStall w r (frame i.frame s) = false) : microwordExecute e s = runWord e w r i (frame i.frame s) (busyCounted e s) := by
  rw [h.execute hw, hb, hp, ha]
  rfl

end

/-- Settles O35, command by command: an engine's work is followed through `RunsOn`, since counts and logged faults leave its parts alone. -/
theorem enginesStartRunCheckAndEnd : Obligations.EnginesStartRunCheckAndEnd := by
  unfold Obligations.EnginesStartRunCheckAndEnd
  intro OnlyRuns e s he
  have runsOnly : ∀ {r : Run} {u t : State}, RunsOn e r u t → OnlyRuns e u t := fun h =>
    ⟨h.others, h.frames, h.flow, h.dsp, h.stores, h.sw, h.targets⟩
  refine ⟨fun q i hr hn hi => ?_, fun r i w u hi he' hl hm hw hu => ?_, fun r i flip hi he' hl hm => ?_, fun r d p hr hd hp => ?_,
    fun r i v g hi he' hp hready => ?_, fun a o r h => ?_, fun c bank w hc hb hw hm hg hh => ?_⟩
  · obtain ⟨hcancel, hstart⟩ := itemStart_of_next hr hn hi
    refine ⟨fun why h => ?_, fun h hv => ?_, fun p d h hp hv hd => ?_⟩
    · rw [exec_itemStart he, hcancel why h]
    · rw [exec_itemStart he, hstart h]
      exact ⟨_, rfl, startItem_of_invalid hv⟩
    · rw [exec_itemStart he, hstart h, startItem_of_valid hp hv hd]
  · have hfetch : Fetches e r i s := ⟨hi, he', hl, hm⟩
    have hu' : u = busyCounted e s := hu
    rw [exec_microwordExecute he, hu']
    refine ⟨fun h => ?_, fun h hp => ?_, fun h hp ha => ?_, fun h hp ha => ?_, fun r' h hp ha hk hf hr' => ?_, fun h hf hg hr => ?_, fun flip => ?_⟩
    · rw [hfetch.execute hw, if_pos h]
    · rw [hfetch.execute hw, h, hp]
      rfl
    · rw [hfetch.execute hw, h, hp, ha]
      rfl
    · rw [hfetch.sound hw h hp ha]
    · have hr'' : r' = slicesApplied w r (frame i.frame s) := hr'
      rw [hfetch.sound hw h hp ha, hr'']
      obtain ⟨hto, hfinish, hstack, haway⟩ := sound_word_runs (i := i) (s := s) hk hf (busyCounted e s) (frame i.frame s) rfl
      exact ⟨fun pc st hn hb hp => ⟨_, rfl, (hto pc st hn hb hp).here, runsOnly (hto pc st hn hb hp)⟩,
        fun v g hn => ⟨_, rfl, (hfinish v g hn).here, runsOnly (hfinish v g hn)⟩,
        fun hn => ⟨_, rfl, (hstack hn).2.here, (hstack hn).1, runsOnly (hstack hn).2⟩,
        fun pc st hn hb => ⟨_, rfl, (haway pc st hn hb).2.here, (haway pc st hn hb).1, runsOnly (haway pc st hn hb).2⟩⟩
    · rw [hfetch.execute hw, if_pos h]
      exact ⟨_, rfl, machineCheck_first hf hg hr⟩
    · rw [exec_machineCheck he, hfetch.check]
  · rw [exec_machineCheck he, machineCheckFlip_of_marked hi he' hl hm]
  · refine (guarded_of_true (decide_eq_true ⟨he, hd⟩) _).trans (congrArg Host.Outcome.next ?_)
    simp only [extResult, hr, hp]
    rfl
  · have hend := itemEnd_of_ended hi he' hp hready
    rw [exec_itemEnd he, hend]
    refine ⟨rfl, ⟨_, rfl, ?_⟩, fun t h => if_pos h, fun t u w hc hr hv => endEffects_plain hc hr hv, fun t u hu => ?_⟩
    · rw [← seq_of_runningItem hi]
      exact releaseItem_spec _ _ _ _ _
    · subst hu
      exact ⟨rfl, rfl, rfl⟩
  · exact ⟨aluApply_dst a o r h, aluApply_other a o r h, fun hw hb => aluValue_cases hw hb o⟩
  · have hexec : exec (.wordReloadDone c bank w) s = .next (resumeEngines c (· == wordPlace bank w) (raiseC mcsMcReload c
        (putStore c (rewriteWord (wordPlace bank w) (store c s)) s))) :=
      (guarded_of_true (decide_eq_true ⟨hc, hb, hw⟩) _).trans (congrArg Host.Outcome.next (wordReloadDone_of_marked hm hg hh))
    exact ⟨⟨_, hexec, reload_spec rfl rfl⟩, hexec⟩

end Sys2Proof.Machine
end

section
/-! PROOFS. Fences and steering entries: opening, draining, overrunning, and software writes (R215 to R217, R348 to R353). -/

namespace Sys2Proof.Machine

/-! ### Steering entries and fences as they read -/

theorem fence_of_dsp {e : Nat} {s t : State} (h : t.dsp.fences = s.dsp.fences) : fence e t = fence e s :=
  congrArg (fun m => sget (fun _ => ({} : Fence)) m e) h

theorem fence_putFence_same (e : Nat) (x : Fence) (s : State) : fence e (putFence e x s) = x := sget_sset_same _ _ _ _

theorem fence_putFence_other {e d : Nat} (x : Fence) (s : State) (h : d ≠ e) : fence d (putFence e x s) = fence d s := sget_sset_other _ _ _ h

/-- A steering entry reads the table that the register names. -/
theorem steerTo_of_same {e : Nat} {s t : State} (hr : steerTable t = steerTable s) (hv : t.ver.ind = s.ver.ind) : steerTo e t = steerTo e s := by
  unfold steerTo indAt
  rw [hr, hv]

theorem steerTable_of_events {s t : State} (h : OnlyEvents s t) : steerTable t = steerTable s :=
  Changes.rdX h (f := clsSteerCfg_steerTable) (i := 0) (c := 0) (by decide) List.not_mem_nil

theorem steerTo_putSteer_same (e : Nat) {n : Nat} (s : State) (h : n < 32) : steerTo e (putSteer e n s) = n := by
  have hread : steerTo e (putSteer e n s) = n % 64 % 32 := congrArg (· % 32) (sget_sset_same _ _ _ _)
  rw [hread]
  omega

theorem steerTo_putSteer_other {e d : Nat} (n : Nat) (s : State) (h : d ≠ e) : steerTo d (putSteer e n s) = steerTo d s :=
  congrArg (· % 32) (sget_sset_other _ s.ver.ind (k := 4096 * steerTable s + e) (m := 4096 * steerTable s + d) _ (by omega))

/-! ### A fence opens -/

theorem exec_fenceTargetReady {e : Nat} {f : Fence} {s : State} (he : e < 4096) (hf : f = fence e s) (hp : f.phase = 1)
    (hon : chanOn .dsp f.new s = true) : exec (.fenceTargetReady e) s = .next (openFence e f.old f.new f.rewrite s) := by
  subst hf
  exact (guarded_of_true (decide_eq_true he) _).trans (congrArg Host.Outcome.next (if_pos ⟨hp, hon⟩))

/-- A fence that opens while its old cluster dispatches: the entry names the new one, and no cluster or other entry changes. -/
theorem openFence_spec {e o n : Nat} {rw : Bool} {s t : State} (hn : n < 32) (ho : s.dsp.out.contains o = false) (ht : t = openFence e o n rw s) :
    (fence e t).phase = 2 ∧ (fence e t).old = o ∧ (fence e t).new = n ∧ steerTo e t = n ∧ Asserted dspFenceOpened t ∧
      t.dsp.clusters = s.dsp.clusters ∧ ∀ d, d < 4096 → d ≠ e → steerTo d t = steerTo d s ∧ fence d t = fence d s := by
  let u := putFence e { phase := 2, old := o, new := n, openRaw := s.tim.raw, rewrite := rw } (putSteer e n s)
  have hev := raiseC_onlyEvents dspFenceOpened n u
  have hopen : t = raiseC dspFenceOpened n u := by
    rw [ht]
    unfold openFence
    dsimp only
    rw [hev.dsp]
    exact if_neg (by rw [show u.dsp.out = s.dsp.out from rfl, ho]; exact Bool.false_ne_true)
  have hfence : ∀ d, fence d t = fence d u := fun d => fence_of_dsp (by rw [hopen, hev.dsp])
  have hsteer : ∀ d, steerTo d t = steerTo d (putSteer e n s) := fun d => by
    rw [hopen]
    exact steerTo_of_same ((steerTable_of_events hev).trans rfl) (congrArg Versions.ind hev.ver)
  have hhere : fence e t = { phase := 2, old := o, new := n, openRaw := s.tim.raw, rewrite := rw } := (hfence e).trans (fence_putFence_same _ _ _)
  refine ⟨by rw [hhere], by rw [hhere], by rw [hhere], (hsteer e).trans (steerTo_putSteer_same e s hn), ?_, ?_, fun d _ hd => ⟨?_, ?_⟩⟩
  · rw [hopen]
    exact raiseC_asserted _ _ (by decide)
  · rw [hopen, hev.dsp]
    rfl
  · exact (hsteer d).trans (steerTo_putSteer_other n s hd)
  · exact (hfence d).trans (fence_putFence_other _ _ hd)

/-! ### A fence closes -/

theorem exec_fenceDrained {e : Nat} {f : Fence} {s : State} (he : e < 4096) (hf : f = fence e s) (hp : f.phase = 2)
    (hi : itemsOfEntry f.old e s = []) : exec (.fenceDrained e) s = .next (closeFence e s) := by
  subst hf
  exact (guarded_of_true (decide_eq_true he) _).trans (congrArg Host.Outcome.next (if_pos ⟨hp, List.isEmpty_iff.2 hi⟩))

/-- An item parked by an entry's fence becomes ready unless something else parks it. -/
def unparkItem (e : Nat) (a : State) (i : Item) : Item :=
  if i.stage = .parked ∧ i.tag % 4096 = e ∧ parks i a = false then { i with stage := .ready } else i

/-- The items of one cluster parked by an entry's fence become ready. -/
def unparkOne (e c : Nat) (a : State) : State := modCluster c (fun x => { x with items := x.items.map (unparkItem e a) }) a

theorem unpark_eq (e : Nat) (s : State) : unpark e s = foldOver (s.dsp.clusters.map (fun x => x.1)) (unparkOne e) s := rfl

theorem items_unparkOne_same (e c : Nat) (a : State) : items c (unparkOne e c a) = (items c a).map (unparkItem e a) := items_putCluster_same _ _ _

theorem items_unparkOne_other {e c d : Nat} (a : State) (h : d ≠ c) : items d (unparkOne e c a) = items d a := items_putCluster_other _ _ h

theorem unparkItem_seq (e : Nat) (a : State) (i : Item) : (unparkItem e a i).seq = i.seq := by
  unfold unparkItem
  split <;> rfl

/-- Between two states only the clusters changed. -/
def OnlyClusters (s t : State) : Prop := ∃ cs, t = { s with dsp := { s.dsp with clusters := cs } }

theorem unparkOne_onlyClusters {e c : Nat} {s a : State} (h : OnlyClusters s a) : OnlyClusters s (unparkOne e c a) := by
  obtain ⟨cs, rfl⟩ := h
  exact ⟨_, rfl⟩

theorem unpark_onlyClusters (e : Nat) (s : State) : OnlyClusters s (unpark e s) := by
  rw [unpark_eq]
  exact foldOver_induct (P := OnlyClusters s) (fun _ _ => unparkOne_onlyClusters) _ ⟨s.dsp.clusters, rfl⟩

theorem unpark_seqs (e c : Nat) (s : State) : (items c (unpark e s)).map (fun i => i.seq) = (items c s).map (fun i => i.seq) := by
  rw [unpark_eq]
  refine foldOver_induct (P := fun a => (items c a).map (fun i => i.seq) = (items c s).map (fun i => i.seq)) (fun d a ha => ?_) _ rfl
  by_cases h : c = d
  · subst h
    rw [items_unparkOne_same, List.map_map]
    exact (List.map_congr_left fun i _ => unparkItem_seq e a i).trans ha
  · rw [items_unparkOne_other a h]
    exact ha

/-- What still parks an item of entry e is the move of the entry. -/
def OnlyOwnParks (e c : Nat) (s a : State) : Prop := ∀ i ∈ items c a, i.stage = .parked → i.tag % 4096 = e → ownParks e s = true

theorem parks_without_fence {e : Nat} {i : Item} {s a : State} (ha : OnlyClusters s a) (hf : fence e s = {}) (ht : i.tag % 4096 = e)
    (hp : parks i a = true) : ownParks e s = true := by
  obtain ⟨cs, rfl⟩ := ha
  have hno : fenceParks e s = false := by
    unfold fenceParks
    rw [hf]
    rfl
  have hp' : (!i.isSync && (fenceParks (i.tag % 4096) s || (i.isFrame && ownParks (i.tag % 4096) s))) = true := hp
  rw [ht, hno, Bool.false_or, Bool.and_eq_true, Bool.and_eq_true] at hp'
  exact hp'.2.2

theorem unparkOne_onlyOwnParks {e c : Nat} {s a : State} (ha : OnlyClusters s a) (hf : fence e s = {}) :
    OnlyOwnParks e c s (unparkOne e c a) := by
  intro i hi hst ht
  rw [items_unparkOne_same] at hi
  obtain ⟨j, -, rfl⟩ := List.mem_map.1 hi
  unfold unparkItem at hst ht
  split at hst
  · exact absurd hst Stage.noConfusion
  · rename_i hstay
    rw [if_neg hstay] at ht
    by_cases hp : parks j a = true
    · exact parks_without_fence ha hf ht hp
    · exact absurd ⟨hst, ht, Bool.eq_false_iff.2 hp⟩ hstay

theorem unparkFold_onlyOwnParks {e c : Nat} {s : State} (hf : fence e s = {}) (l : List Nat) : ∀ {a : State}, OnlyClusters s a →
    (c ∈ l ∨ OnlyOwnParks e c s a) → OnlyOwnParks e c s (foldOver l (unparkOne e) a) := by
  induction l with
  | nil => exact fun _ h => h.resolve_left List.not_mem_nil
  | cons d l ih =>
    intro a ha h
    rw [foldOver_cons]
    refine ih (unparkOne_onlyClusters ha) ?_
    by_cases hd : c = d
    · subst hd
      exact .inr (unparkOne_onlyOwnParks ha hf)
    · refine h.imp (fun hm => (List.mem_cons.1 hm).resolve_left hd) fun hown => ?_
      unfold OnlyOwnParks
      rw [items_unparkOne_other a hd]
      exact hown

theorem unpark_onlyOwnParks {e : Nat} {s : State} (hf : fence e s = {}) (c : Nat) : OnlyOwnParks e c s (unpark e s) := by
  rw [unpark_eq]
  refine unparkFold_onlyOwnParks hf _ ⟨s.dsp.clusters, rfl⟩ ?_
  by_cases hc : c ∈ s.dsp.clusters.map (fun x => x.1)
  · exact .inl hc
  · have hnone : items c s = [] := congrArg Cluster.items (sget_of_not_mem (fun _ => ({} : Cluster)) s.dsp.clusters c hc)
    refine .inr fun i hi => ?_
    rw [hnone] at hi
    exact absurd hi List.not_mem_nil

/-- A fence that closes with no write-back or rewrite waiting: it is gone, and of the entry's items only a move of the entry parks any. -/
theorem closeFence_spec {e : Nat} {s t : State} (hb : s.dsp.back.contains e = false) (hr : s.dsp.rewriting = false) (ht : t = closeFence e s) :
    (fence e t).phase = 0 ∧ Asserted dspFenceClosed t ∧
      ∀ c, (items c t).map (fun i => i.seq) = (items c s).map (fun i => i.seq) ∧
        ∀ i ∈ items c t, i.stage = .parked → i.tag % 4096 = e → ownParks e s = true := by
  let s0 := putFence e {} s
  obtain ⟨cs, hcs⟩ := unpark_onlyClusters e s0
  let v := raiseC dspFenceClosed (fence e s).new (wr dspFenceStatus_lastUs (fenceUs (fence e s) s) (unpark e s0))
  have hdsp : v.dsp = (unpark e s0).dsp := (raiseC_onlyEvents _ _ _).dsp
  have hrew : v.dsp.rewriting = false := by rw [hdsp, hcs]; exact hr
  have hback : v.dsp.back.contains e = false := by rw [hdsp, hcs]; exact hb
  have hdone : rewriteDone v = v := by
    unfold rewriteDone
    rw [hrew]
    exact if_neg Bool.false_ne_true
  have hclose : t = v := by
    have hstep : t = writeBackDue e (rewriteDone v) := ht
    rw [hstep, hdone]
    unfold writeBackDue
    rw [hback]
    exact if_neg Bool.false_ne_true
  have hgone : fence e s0 = {} := fence_putFence_same _ _ _
  have hfence : fence e t = {} := by
    rw [hclose, fence_of_dsp (congrArg Dispatch.fences hdsp), hcs]
    exact hgone
  refine ⟨by rw [hfence], by rw [hclose]; exact raiseC_asserted _ _ (by decide), fun c => ?_⟩
  have hitems : items c t = items c (unpark e s0) := by rw [hclose]; exact items_of_dsp hdsp
  rw [hitems]
  exact ⟨unpark_seqs e c s0, fun i hi hst htag => unpark_onlyOwnParks hgone c i hi hst htag⟩

/-! ### A fence that overruns -/

theorem exec_fenceOverrun {e : Nat} {f : Fence} {s : State} (he : e < 4096) (hf : f = fence e s) (hp : f.phase = 2) (ho : f.overran = false)
    (hi : itemsOfEntry f.old e s ≠ []) : exec (.fenceOverrun e) s = .next (raiseC dspFenceOverrun f.new
      (foldOver (itemsOfEntry f.old e s) (overrunItem f.old) (putFence e { f with overran := true } s))) := by
  subst hf
  exact (guarded_of_true (decide_eq_true he) _).trans (congrArg Host.Outcome.next
    (if_pos ⟨hp, ho, Bool.eq_false_iff.2 fun h => hi (List.isEmpty_iff.1 h)⟩))

/-- The parts of the state that freeing a frame's cells leaves alone. -/
structure CoreKept (s t : State) : Prop where
  dsp : t.dsp = s.dsp
  fen : t.fen = s.fen
  flow : t.flow = s.flow
  targets : t.fab.targets = s.fab.targets

theorem CoreKept.refl (s : State) : CoreKept s s := ⟨rfl, rfl, rfl, rfl⟩

theorem CoreKept.trans {s t u : State} (h : CoreKept s t) (h' : CoreKept t u) : CoreKept s u :=
  ⟨h'.dsp.trans h.dsp, h'.fen.trans h.fen, h'.flow.trans h.flow, h'.targets.trans h.targets⟩

/-- Beside pools, registers and events nothing has changed: every frame, queue and destination is as before. -/
structure PlacesKept (s t : State) : Prop where
  dsp : t.dsp = s.dsp
  fen : t.fen = s.fen
  flow : t.flow = s.flow
  targets : t.fab.targets = s.fab.targets
  voq : t.sw.voq = s.sw.voq
  dests : t.sw.dests = s.sw.dests
  frames : t.frames = s.frames

theorem PlacesKept.refl (s : State) : PlacesKept s s := ⟨rfl, rfl, rfl, rfl, rfl, rfl, rfl⟩

theorem PlacesKept.trans {s t u : State} (h : PlacesKept s t) (h' : PlacesKept t u) : PlacesKept s u :=
  ⟨h'.dsp.trans h.dsp, h'.fen.trans h.fen, h'.flow.trans h.flow, h'.targets.trans h.targets, h'.voq.trans h.voq, h'.dests.trans h.dests,
    h'.frames.trans h.frames⟩

theorem Changes.placesKept {ks cs : List Nat} {s t : State} (h : Changes ks cs s t) : PlacesKept s t :=
  ⟨h.dsp, h.fen, h.flow, h.targets, congrArg Switch.voq h.sw, congrArg Switch.dests h.sw, h.frames⟩

theorem PlacesKept.core {s t : State} (h : PlacesKept s t) : CoreKept s t := ⟨h.dsp, h.fen, h.flow, h.targets⟩

theorem poolLowCheck_places (p : Nat) (before : Int) (s : State) : PlacesKept s (poolLowCheck p before s) := by
  unfold poolLowCheck
  dsimp only
  split
  · exact (raise_onlyEvents _ _).placesKept
  · exact .refl s

theorem guardCheck_places (s : State) : PlacesKept s (guardCheck s) := by
  have hmark : ∀ b, PlacesKept s { s with sw := { s.sw with guardLow := b } } := fun _ => ⟨rfl, rfl, rfl, rfl, rfl, rfl, rfl⟩
  unfold guardCheck
  dsimp only
  split
  · exact (hmark _).trans (raise_onlyEvents _ _).placesKept
  · exact hmark _

theorem noteShared_places (p : Nat) (before : Int) (s : State) : PlacesKept s (noteShared p before s) := by
  unfold noteShared
  dsimp only
  split
  · exact (poolLowCheck_places _ _ _).trans (guardCheck_places _)
  · exact poolLowCheck_places _ _ _

theorem retireBuffer_places (p i : Nat) (s : State) : PlacesKept s (retireBuffer p i s) := by
  have hlist : ∀ l, PlacesKept s { s with pools := { s.pools with retireNext := l } } := fun _ => ⟨rfl, rfl, rfl, rfl, rfl, rfl, rfl⟩
  have hlimit : ∀ l n, PlacesKept s { s with pools := { s.pools with retireNext := l }, recov := { s.recov with limited := n } } :=
    fun _ _ => ⟨rfl, rfl, rfl, rfl, rfl, rfl, rfl⟩
  have hcount : ∀ (n : Nat) (u : State), PlacesKept u (wrX scrRetired_count p 0 n (putOwnerOf p i retiredMark u)) := fun _ _ => ⟨rfl, rfl, rfl, rfl, rfl, rfl, rfl⟩
  unfold retireBuffer retireLimit
  dsimp only
  split
  · exact PlacesKept.trans ((hlist _).trans (hcount _ _)) (Changes.placesKept (raise_onlyEvents scrBufferRetired _))
  · split
    · exact hlist _
    · exact (hlimit _ _).trans (Changes.placesKept (raise_onlyEvents scrRetireLimit _))

theorem giveBack_places (p i r : Nat) (s : State) : PlacesKept s (giveBack p i r s) := by
  have hfreed : ∀ n, PlacesKept s (wrX bpmReqUsed_count p r n (putOwnerOf p i 0 s)) := fun _ => ⟨rfl, rfl, rfl, rfl, rfl, rfl, rfl⟩
  unfold giveBack
  dsimp only
  refine PlacesKept.trans ?_ (noteShared_places _ _ _)
  split
  · exact (hfreed _).trans (retireBuffer_places _ _ _)
  · exact hfreed _

theorem giveCells_places (r : Nat) (is : List Nat) (s : State) : PlacesKept s (giveCells r is s) :=
  foldOver_induct (P := PlacesKept s) (fun i a ha => ha.trans (giveBack_places 0 i r a)) is (.refl s)

theorem returnCredits_places (f : Frame) (n : Nat) (s : State) : PlacesKept s (returnCredits f n s) := by
  unfold returnCredits
  split
  · exact ⟨rfl, rfl, rfl, rfl, rfl, rfl, rfl⟩
  · exact .refl s

theorem putFrame_core (i : Nat) (f : Frame) (s : State) : CoreKept s (putFrame i f s) := ⟨rfl, rfl, rfl, rfl⟩

theorem advanceCells_core (i n : Nat) (s : State) : CoreKept s (advanceCells i n s) := by
  unfold advanceCells
  exact ((putFrame_core _ _ _).trans (giveCells_places _ _ _).core).trans (returnCredits_places _ _ _).core

theorem unqueue_core (i : Nat) (s : State) : CoreKept s (unqueue i s) := by
  unfold unqueue
  dsimp only
  split
  · exact CoreKept.trans (t := putVoq _ _ _ _ s) ⟨rfl, rfl, rfl, rfl⟩ (putFrame_core _ _ _)
  · exact .refl s

theorem freeVersion_core (s : State) : CoreKept s (freeVersion s) := by
  have hkept : ∀ (a : Versions) (m : Mesh) (x y z : Nat), CoreKept s (wr clsStageCtl_mode x (wr clsDrainStatus_lastDrain y
      (wr clsVersionState_draining z { s with ver := a, mesh := m }))) := fun _ _ _ _ _ => ⟨rfl, rfl, rfl, rfl⟩
  unfold freeVersion
  exact (hkept _ _ _ _ _).trans (raise_onlyEvents _ _).placesKept.core

theorem endFrame_core (i : Nat) (s : State) : CoreKept s (endFrame i s) := by
  have hdel : CoreKept s { s with frames := sdel s.frames i } := ⟨rfl, rfl, rfl, rfl⟩
  unfold endFrame freeIfDrained
  split
  · exact hdel.trans (freeVersion_core _)
  · exact hdel

theorem removeFrame_core (i : Nat) (s : State) : CoreKept s (removeFrame i s) := by
  unfold removeFrame
  cases (frame i s).twin with
  | none => exact endFrame_core i s
  | some j => exact CoreKept.trans (t := modFrame j (fun f => { f with twin := none }) s) ⟨rfl, rfl, rfl, rfl⟩ (endFrame_core i _)

theorem refreshActive_core (d c : Nat) (s : State) : CoreKept s (refreshActive d c s) := by
  unfold refreshActive
  dsimp only
  split
  · exact .refl s
  · split <;> exact ⟨rfl, rfl, rfl, rfl⟩

theorem detachRx_core (i : Nat) (s : State) : CoreKept s (detachRx i s) := ⟨rfl, rfl, rfl, rfl⟩

theorem dropUse_core (i : Nat) (s : State) : CoreKept s (dropUse i s) := by
  unfold dropUse
  dsimp only
  split
  · exact ((((advanceCells_core _ _ _).trans (unqueue_core _ _)).trans (detachRx_core _ _)).trans (removeFrame_core _ _)).trans (refreshActive_core _ _ _)
  · exact .refl s

/-- A dropped frame changes no cluster, engine, record or target. -/
theorem dropFrame_core (i : Nat) (s : State) : CoreKept s (dropFrame i s) := by
  unfold dropFrame
  dsimp only
  cases (frame i s).twin with
  | none => exact dropUse_core i s
  | some j =>
    dsimp only
    split
    · exact (dropUse_core j s).trans (dropUse_core i _)
    · exact dropUse_core i s

theorem frame_removeFrame_same (i : Nat) (s : State) : frame i (removeFrame i s) = {} := frame_endFrame_same i _

/-- A complete frame that is dropped is gone. -/
theorem dropFrame_gone {i : Nat} {s : State} (hl : (frame i s).live = true) (hc : (frame i s).complete = true) :
    (frame i (dropFrame i s)).live = false := by
  have huse : dropFrame i s = dropUse i s := by
    unfold dropFrame
    dsimp only
    rw [hc, Bool.not_true, Bool.and_false]
    cases (frame i s).twin with
    | none => rfl
    | some j => rfl
  have hdrop : dropUse i s = refreshActive (frame i s).dest (frame i s).cls
      (removeFrame i (detachRx i (unqueue i (advanceCells i (frame i s).cells.length s)))) := if_pos hl
  rw [huse, hdrop, frame_of_frames (refreshActive_frames _ _ _), frame_removeFrame_same]

theorem unlockItem_dsp (i : Item) (s : State) : (unlockItem i s).dsp = s.dsp := by
  unfold unlockItem
  split <;> rfl

theorem unlockItem_frames (i : Item) (s : State) : (unlockItem i s).frames = s.frames := by
  unfold unlockItem
  split <;> rfl

theorem removeItem_frames (c q : Nat) (s : State) : (removeItem c q s).frames = s.frames := by
  unfold removeItem
  rw [noteFall_rest]
  rfl

theorem removeItem_fences (c q : Nat) (s : State) : (removeItem c q s).dsp.fences = s.dsp.fences := by
  unfold removeItem noteFall
  dsimp only
  split <;> rfl

/-- A cancel of an item that waits, at an overrun: the item is gone, and with it its frame. -/
theorem cancelNow_overrun {c : Nat} {i : Item} {s : State} (hst : i.stage = .ready) :
    itemAt c i.seq (cancelNow c i 3 s) = none ∧ (cancelNow c i 3 s).dsp.fences = s.dsp.fences ∧
      ((frame i.frame s).live = true → (frame i.frame s).complete = true → (frame i.frame (cancelNow c i 3 s)).live = false) := by
  let u := removeItem c i.seq (unlockItem i s)
  have hcancel : cancelNow c i 3 s = dspCount 6 c (dspCount 3 c (dropFrame i.frame u)) := by
    unfold cancelNow unslot
    rw [hst]
    rfl
  have hcount := (dspCount_changes 3 c (dropFrame i.frame u)).mono (fun _ h => h) (fun k h => List.mem_append_left [rkey (dspCtrs.lo + 8 * 6) c] h)
  have hdsp : (cancelNow c i 3 s).dsp = u.dsp := by
    rw [hcancel, dspCount_dsp, dspCount_dsp, (dropFrame_core _ _).dsp]
  have hframes : (cancelNow c i 3 s).frames = (dropFrame i.frame u).frames := by
    rw [hcancel, (dspCount_changes 6 c _).frames, (dspCount_changes 3 c _).frames]
  have hu : u.frames = s.frames := (removeItem_frames _ _ _).trans (unlockItem_frames _ _)
  refine ⟨?_, ?_, fun hl hc => ?_⟩
  · unfold itemAt
    rw [items_of_dsp hdsp]
    exact itemAt_removeItem c i.seq _
  · rw [hdsp]
    exact (removeItem_fences _ _ _).trans (congrArg Dispatch.fences (unlockItem_dsp _ _))
  · rw [frame_of_frames hframes]
    exact dropFrame_gone (by rw [frame_of_frames hu]; exact hl) (by rw [frame_of_frames hu]; exact hc)

theorem itemAt_askCancel {c q reason : Nat} {i : Item} {s : State} (h : itemAt c q s = some i) (hc : i.cancel = none) :
    itemAt c q (askCancel c q reason s) = some { i with cancel := some reason } := by
  let g : Item → Item := fun i => if i.cancel.isNone then { i with cancel := some reason } else i
  have hg : g i = { i with cancel := some reason } := if_pos (by rw [hc]; rfl)
  have hseq : ∀ j : Item, ((if j.seq = q then g j else j).seq == q) = (j.seq == q) := by
    intro j
    by_cases hj : j.seq = q
    · rw [if_pos hj]
      have hsame : (g j).seq = j.seq := by
        show (if j.cancel.isNone then { j with cancel := some reason } else j).seq = j.seq
        split <;> rfl
      rw [hsame]
    · rw [if_neg hj]
  have hq : i.seq = q := seq_of_itemAt h
  have hitems : items c (askCancel c q reason s) = (items c s).map (fun j => if j.seq = q then g j else j) := items_modItem_same _ _ _ _
  unfold itemAt at h ⊢
  rw [hitems, List.find?_map]
  have hcomp : ((fun i : Item => i.seq == q) ∘ fun j => if j.seq = q then g j else j) = fun i : Item => i.seq == q := funext hseq
  rw [hcomp, h, Option.map_some, if_pos hq, hg]

theorem isRunning_of_ready {i : Item} (h : i.stage = .ready) : i.isRunning = false :=
  decide_eq_false fun hr => Stage.noConfusion (h.symm.trans hr)

theorem actCancel_ready {c r : Nat} {i : Item} {s : State} (hc : i.cancel = some r) (hst : i.stage = .ready) :
    actCancel c i s = cancelNow c i r s := by
  have hsel : ¬ (i.stage = .selected ∧ i.looked = false) := fun h => Stage.noConfusion (hst.symm.trans h.1)
  unfold actCancel
  rw [hc]
  dsimp only
  rw [isRunning_of_ready hst, if_neg Bool.false_ne_true, if_neg hsel]

theorem overrunItem_waiting {c : Nat} {i j : Item} {s : State} (hj : j = { i with cancel := some 3 }) (hf : i.isFrame = true)
    (hst : i.stage = .ready) (hc : i.cancel = none) (hi : itemAt c i.seq s = some i) :
    overrunItem c i s = cancelNow c j 3 (askCancel c i.seq 3 s) := by
  have hask : itemAt c i.seq (askCancel c i.seq 3 s) = some j := (itemAt_askCancel hi hc).trans (congrArg some hj.symm)
  have hcj : j.cancel = some 3 := by rw [hj]
  have hsj : j.stage = .ready := by rw [hj]; exact hst
  unfold overrunItem
  dsimp only
  rw [isRunning_of_ready hst, if_neg Bool.false_ne_true, hf, if_pos rfl, hask]
  exact actCancel_ready hcj hsj

/-- An overrun of a fence that holds one waiting frame item: the item and its frame are given up, and the fence is marked. -/
theorem fenceOverrun_one {e : Nat} {f : Fence} {i : Item} {s t : State} (hfr : i.isFrame = true) (hst : i.stage = .ready)
    (hc : i.cancel = none) (hi : itemAt f.old i.seq s = some i)
    (ht : t = raiseC dspFenceOverrun f.new (overrunItem f.old i (putFence e { f with overran := true } s))) :
    Asserted dspFenceOverrun t ∧ (fence e t).overran = true ∧ itemAt f.old i.seq t = none ∧
      ((frame i.frame s).live = true → (frame i.frame s).complete = true → (frame i.frame t).live = false) := by
  obtain ⟨hgone, hfences, hdrop⟩ := cancelNow_overrun (c := f.old) (i := { i with cancel := some 3 })
    (s := askCancel f.old i.seq 3 (putFence e { f with overran := true } s)) hst
  have hi' : itemAt f.old i.seq (putFence e { f with overran := true } s) = some i := hi
  rw [overrunItem_waiting rfl hfr hst hc hi'] at ht
  have hev := raiseC_onlyEvents dspFenceOverrun f.new
    (cancelNow f.old { i with cancel := some 3 } 3 (askCancel f.old i.seq 3 (putFence e { f with overran := true } s)))
  refine ⟨by rw [ht]; exact raiseC_asserted _ _ (by decide), ?_, ?_, fun hl hcm => ?_⟩
  · have hmarked : fence e (askCancel f.old i.seq 3 (putFence e { f with overran := true } s)) = { f with overran := true } :=
      fence_putFence_same _ _ _
    rw [ht, fence_of_dsp (congrArg Dispatch.fences hev.dsp), fence_of_dsp hfences, hmarked]
  · unfold itemAt at hgone ⊢
    rw [ht, items_of_dsp hev.dsp]
    exact hgone
  · rw [ht, frame_of_frames hev.frames]
    exact hdrop hl hcm

/-! ### Software writes and a returning cluster -/

theorem exec_indDataWrite {w : Window} {v : Word} {e n : Nat} {s u : State} (ha : Admits w .cls s) (he : e = rd clsIndAddr_index s)
    (hn : n = rd clsIndAddr_table s) (hu : indWrite n e (wordField v 0 6) s = u) (hinc : rd clsIndAddr_autoInc u = 0) :
    exec (.indDataWrite w v) s = .next u := by
  have hwrite : indDataWrite v s = u := by
    unfold indDataWrite
    dsimp only
    rw [← he, ← hn, hu]
    exact if_neg (by rw [hinc]; decide)
  exact congrArg Host.Outcome.next ((writing_of_admits ha _).trans hwrite)

/-- A refused write of the steering table shows that it was refused and changes nothing else. -/
theorem indRefused_spec (s : State) : Asserted clsIndRefused (indRefused s) ∧ rd clsIndStatus_refused (indRefused s) = 1 ∧
    Changes [keyOfField clsIndStatus_refused 0 0] [] s (indRefused s) := by
  refine ⟨raise_asserted _ (by decide), ?_, ?_⟩
  · unfold indRefused
    rw [rd_raise _ _ (by decide)]
    exact rd_wr_same _ _ _ rfl
  · exact (wr_changes _ _ _ (List.mem_singleton.2 rfl)).trans ((raise_onlyEvents _ _).mono (List.nil_subset _) (List.nil_subset _))

theorem steerWrite_of_refused {e v : Nat} {s : State} (h : 31 < v ∨ (fence e s).phase ≠ 0) : steerWrite e v s = indRefused s := if_pos h

theorem steerWrite_of_off {e v : Nat} {s : State} (hv : v ≤ 31) (hf : (fence e s).phase = 0) (hon : blockOn .dsp s = false)
    (hne : steerTo e s ≠ v) : steerWrite e v s = putInd (steerTable s) e v
      { s with dsp := { s.dsp with latest := some e, homes := sset zeroDefault s.dsp.homes e v } } := by
  have hok : ¬ (31 < v ∨ (fence e s).phase ≠ 0) := fun h => h.elim (Nat.not_lt.2 hv) (fun h' => h' hf)
  let t := putHome e v { s with dsp := { s.dsp with latest := some e } }
  have hsteer : steerTo e t = steerTo e s := rfl
  have hoff : blockOn .dsp t = false := hon
  unfold steerWrite
  rw [if_neg hok]
  dsimp only
  rw [if_neg (hsteer ▸ hne)]
  unfold moveEntry
  dsimp only
  rw [hoff, Bool.not_false, if_pos rfl]
  rfl

theorem exec_clusterReturn {c : Nat} {s : State} (hc : c < 32) (ho : s.dsp.out.contains c = true) (hm : chanOn .mcs c s = true)
    (hd : chanOn .dsp c s = true) (ha : cf dspFenceCfg_autoReturn s = 0) :
    exec (.clusterReturn c) s = .next (raiseC dspClusterReturned c { s with dsp := { s.dsp with out := s.dsp.out.filter (· != c) } }) := by
  have hcf : cf dspFenceCfg_autoReturn (raiseC dspClusterReturned c { s with dsp := { s.dsp with out := s.dsp.out.filter (· != c) } }) = 0 :=
    (Changes.cfX (raiseC_onlyEvents _ _ _) _ _ _).trans ha
  refine (guarded_of_true (decide_eq_true hc) _).trans (congrArg Host.Outcome.next ?_)
  unfold clusterReturn
  rw [ho, hm, hd]
  dsimp only
  rw [hcf]
  rfl

/-- Settles O36, command by command. -/
theorem steeringMovesUnderFences : Obligations.SteeringMovesUnderFences := by
  unfold Obligations.SteeringMovesUnderFences
  intro s
  refine ⟨fun e f he hf => ⟨fun hp hon => exec_fenceTargetReady he hf hp hon, fun hp hi => exec_fenceDrained he hf hp hi,
    fun hp ho hi => exec_fenceOverrun he hf hp ho hi, fun hp hon hn ho => ?_, fun hp hi hb hr => ?_, fun hp ho i his hfr hst hc hi => ?_⟩,
    fun w v e t ha he ht hinc => ⟨fun hne => ?_, fun heq hbad => ?_, fun heq hv hf hon hne => ?_⟩,
    fun w v ha => ⟨fun hoff hused => ?_, fun h => ?_⟩, fun c hc ho hm hd hret => exec_clusterReturn hc ho hm hd hret⟩
  · exact ⟨_, exec_fenceTargetReady he hf hp hon, openFence_spec hn ho rfl⟩
  · exact ⟨_, exec_fenceDrained he hf hp hi, closeFence_spec hb hr rfl⟩
  · have hexec := exec_fenceOverrun he hf hp ho (by rw [his]; exact List.cons_ne_nil _ _)
    rw [his, foldOver_single] at hexec
    exact ⟨_, hexec, fenceOverrun_one hfr hst hc hi rfl⟩
  · exact exec_indDataWrite ha he ht (if_neg hne) hinc
  · have hwrite : indWrite t e (wordField v 0 6) s = indRefused s := (if_pos heq).trans (steerWrite_of_refused hbad)
    have hkept := (indRefused_spec s).2.2
    exact ⟨_, exec_indDataWrite ha he ht hwrite ((hkept.rdX (by decide) (by decide)).trans hinc), indRefused_spec s⟩
  · have hwrite : indWrite t e (wordField v 0 6) s = _ := (if_pos heq).trans (steerWrite_of_off hv hf hon hne)
    rw [← heq] at hwrite
    exact exec_indDataWrite ha he ht hwrite hinc
  · refine congrArg Host.Outcome.next ((writing_of_admits ha _).trans (if_neg fun h => h.elim (fun h' => h' hoff) fun h' => ?_))
    exact Bool.false_ne_true (hused.symm.trans h')
  · exact congrArg Host.Outcome.next ((writing_of_admits ha _).trans (if_pos h))

end Sys2Proof.Machine
end

section
/-! PROOFS. The switch core: matching, a cell that crosses, credits and aged frames (R398 to R408). -/

namespace Sys2Proof.Machine

/-! ### Matching: no two matches share an input or an output group -/

theorem leastBy_mem {α : Type} {rank : α → Nat} {l : List α} {a : α} (h : leastBy rank l = some a) : a ∈ l := by
  induction l generalizing a with
  | nil => exact absurd h (by simp [leastBy])
  | cons b l ih =>
    unfold leastBy at h
    cases hl : leastBy rank l with
    | none =>
      rw [hl] at h
      exact Option.some.inj h ▸ List.mem_cons_self
    | some x =>
      rw [hl] at h
      dsimp only at h
      split at h
      · exact Option.some.inj h ▸ List.mem_cons_of_mem b (ih hl)
      · exact Option.some.inj h ▸ List.mem_cons_self

/-- A grant is one of the requests, for the output group that gives it. -/
theorem grantOf_mem {o : Nat} {rs : List Req} {s : State} {r : Req} (h : grantOf o rs s = some r) : r ∈ rs ∧ outGroup r.d = o := by
  unfold grantOf at h
  dsimp only at h
  split at h
  · exact absurd h (by simp)
  · rename_i r0 h0
    obtain ⟨-, ho⟩ := List.mem_filter.1 (leastBy_mem h0)
    obtain ⟨hr, hd⟩ := List.mem_filter.1 (leastBy_mem h)
    exact ⟨hr, by rw [beq_iff_eq.1 hd]; exact beq_iff_eq.1 ho⟩

theorem acceptOf_mem {g : Nat} {grants : List Req} {s : State} {r : Req} (h : acceptOf g grants s = some r) : r ∈ grants ∧ r.g = g := by
  obtain ⟨hr, hg⟩ := List.mem_filter.1 (leastBy_mem h)
  exact ⟨hr, beq_iff_eq.1 hg⟩

/-- Two requests that share neither their input nor their output group. -/
def Apart (a b : Req) : Prop := a.g ≠ b.g ∧ outGroup a.d ≠ outGroup b.d

/-- The requests that an iteration accepts, and what it accepted them from. -/
theorem mem_iterate {rs : List Req} {s : State} {r : Req} (h : r ∈ iterate rs s) : r ∈ rs ∧ grantOf (outGroup r.d) rs s = some r := by
  obtain ⟨g, -, hg⟩ := List.mem_filterMap.1 h
  obtain ⟨o, -, ho⟩ := List.mem_filterMap.1 (acceptOf_mem hg).1
  obtain ⟨hr, hgroup⟩ := grantOf_mem ho
  exact ⟨hr, by rw [hgroup]; exact ho⟩

theorem iterate_apart (rs : List Req) (s : State) : (iterate rs s).Pairwise Apart := by
  refine List.Pairwise.filterMap (R := fun a b => a ≠ b) _ (fun g g' hg r hr r' hr' => ?_) List.nodup_range
  obtain ⟨hgrant, hrg⟩ := acceptOf_mem hr
  obtain ⟨hgrant', hrg'⟩ := acceptOf_mem hr'
  refine ⟨by rw [hrg, hrg']; exact hg, fun ho => hg ?_⟩
  obtain ⟨o, -, hg1⟩ := List.mem_filterMap.1 hgrant
  obtain ⟨o', -, hg2⟩ := List.mem_filterMap.1 hgrant'
  have hsame : o = o' := by rw [← (grantOf_mem hg1).2, ← (grantOf_mem hg2).2, ho]
  have heq : r = r' := Option.some.inj (hg1.symm.trans (hsame ▸ hg2))
  rw [← hrg, ← hrg', heq]

theorem mem_unmatched {rs m : List Req} {r : Req} (h : r ∈ unmatched rs m) : r ∈ rs ∧ ∀ a ∈ m, Apart a r := by
  obtain ⟨hr, hm⟩ := List.mem_filter.1 h
  rw [Bool.not_eq_true', List.any_eq_false] at hm
  refine ⟨hr, fun a ha => ?_⟩
  have hno := hm a ha
  rw [Bool.or_eq_true, beq_iff_eq, beq_iff_eq, not_or] at hno
  exact hno

theorem matchEpoch_spec (rs : List Req) (s : State) : (∀ r ∈ (matchEpoch rs s).1, r ∈ rs) ∧ (matchEpoch rs s).1.Pairwise Apart := by
  let a := iterate rs s
  let s1 := foldOver a movePointers s
  let r1 := unmatched rs a
  let b := iterate r1 s1
  let r2 := unmatched r1 b
  let c := iterate r2 s1
  have hb : ∀ r ∈ b, r ∈ rs ∧ ∀ x ∈ a, Apart x r := fun r hr => mem_unmatched (mem_iterate hr).1
  have hc : ∀ r ∈ c, r ∈ r1 ∧ ∀ x ∈ b, Apart x r := fun r hr => mem_unmatched (mem_iterate hr).1
  have hc1 : ∀ r ∈ c, r ∈ rs ∧ ∀ x ∈ a, Apart x r := fun r hr => mem_unmatched (hc r hr).1
  have hall : (matchEpoch rs s).1 = a ++ b ++ c := rfl
  rw [hall]
  refine ⟨fun r hr => ?_, ?_⟩
  · rcases List.mem_append.1 hr with hr | hr
    · exact (List.mem_append.1 hr).elim (fun h => (mem_iterate h).1) fun h => (hb r h).1
    · exact (hc1 r hr).1
  · refine List.pairwise_append.2 ⟨List.pairwise_append.2 ⟨iterate_apart _ _, iterate_apart _ _, fun x hx y hy => (hb y hy).2 x hx⟩,
      iterate_apart _ _, fun x hx y hy => ?_⟩
    exact (List.mem_append.1 hx).elim (fun h => (hc1 y hy).2 x h) fun h => (hc y hy).2 x h

theorem mem_requests {stated : List (Nat × Nat)} {s : State} {r : Req} (h : r ∈ requests stated s) :
    (r.d, r.c) ∈ stated ∧ 0 < credits r.d s := by
  obtain ⟨e, he, rfl⟩ := List.mem_map.1 h
  obtain ⟨-, hok⟩ := List.mem_filter.1 he
  simp only [Bool.and_eq_true, decide_eq_true_eq, List.contains_iff_mem] at hok
  obtain ⟨⟨⟨⟨-, hstated⟩, hcredit⟩, -⟩, -⟩ := hok
  exact ⟨hstated, hcredit⟩

/-! ### A cell that carries one whole frame -/

theorem histPut_places (h v : Nat) (s : State) : PlacesKept s (histPut h v s) := by
  have hput : ∀ x, PlacesKept s { s with pcn := { s.pcn with hists := x } } := fun _ => ⟨rfl, rfl, rfl, rfl, rfl, rfl, rfl⟩
  unfold histPut
  split
  · exact .refl s
  · dsimp only
    split
    · exact (hput _).trans (Changes.placesKept (raise_onlyEvents pcnHistWrap _))
    · exact hput _

theorem measure_places (source sel cls v : Nat) (s : State) : PlacesKept s (measure source sel cls v s) :=
  foldOver_induct (P := PlacesKept s) (fun h a ha => ha.trans (histPut_places h v a)) _ (.refl s)

theorem putTag_places (d c v : Nat) (s : State) : PlacesKept s (putTag d c v s) := ⟨rfl, rfl, rfl, rfl, rfl, rfl, rfl⟩

theorem putVtime_places (d v : Nat) (s : State) : PlacesKept s (putVtime d v s) := ⟨rfl, rfl, rfl, rfl, rfl, rfl, rfl⟩

theorem chargeShaper_places (d c lc : Nat) (s : State) : PlacesKept s (chargeShaper d c lc s) := by
  unfold chargeShaper
  split
  · exact .refl s
  · exact ⟨rfl, rfl, rfl, rfl, rfl, rfl, rfl⟩

theorem chargeFrame_places (d c len : Nat) (s : State) : PlacesKept s (chargeFrame d c len s) := by
  have hshaped := (chargeShaper_places d c (chargedLen d len s) s).trans (chargeShaper_places d 8 (chargedLen d len s) _)
  unfold chargeFrame
  dsimp only
  split
  · exact hshaped.trans (putTag_places _ _ _ _)
  · exact hshaped

theorem refreshActive_places (d c : Nat) (s : State) : PlacesKept s (refreshActive d c s) := by
  unfold refreshActive
  dsimp only
  split
  · exact .refl s
  · split <;> exact ⟨rfl, rfl, rfl, rfl, rfl, rfl, rfl⟩

theorem dest_of_dests {d : Nat} {s t : State} (h : t.sw.dests = s.sw.dests) : dest d t = dest d s :=
  congrArg (fun m => sget (fun _ => ({} : Dest)) m d) h

theorem voqAt_of_voq {g d c : Nat} {s t : State} (h : t.sw.voq = s.sw.voq) : voqAt g d c t = voqAt g d c s :=
  congrArg (fun m => sget (fun _ => ([] : List Nat)) m (voqKey g d c)) h

theorem dest_putDest_same (d : Nat) (x : Dest) (s : State) : dest d (putDest d x s) = x := sget_sset_same _ _ _ _

theorem dest_putDest_other {d k : Nat} (x : Dest) (s : State) (h : k ≠ d) : dest k (putDest d x s) = dest k s := sget_sset_other _ _ _ h

theorem dest_modDest_same (d : Nat) (f : Dest → Dest) (s : State) : dest d (modDest d f s) = f (dest d s) := dest_putDest_same _ _ _

theorem dest_modDest_other {d k : Nat} (f : Dest → Dest) (s : State) (h : k ≠ d) : dest k (modDest d f s) = dest k s := dest_putDest_other _ _ h

theorem voqAt_putVoq_same (g d c : Nat) (l : List Nat) (s : State) : voqAt g d c (putVoq g d c l s) = l := sget_sset_same _ _ _ _

/-- What a frame that is given to a destination leaves of the queues, the frames and the destination. -/
structure Given (d : Nat) (s t : State) : Prop where
  voq : t.sw.voq = s.sw.voq
  frames : t.frames = s.frames
  here : ∃ b, dest d t = { dest d s with busyUntil := b }

theorem giveFrame_given (f : Frame) (d c : Nat) (s : State) : Given d s (giveFrame f d c s) := by
  have htime : PlacesKept s (if c < 5 ∧ d < 266 then putVtime d (tagOf d c s) s else s) := by
    split
    · exact putVtime_places _ _ _
    · exact .refl s
  unfold giveFrame
  dsimp only
  generalize (if c < 5 ∧ d < 266 then putVtime d (tagOf d c s) s else s) = t at htime ⊢
  have hd : dest d t = dest d s := dest_of_dests htime.dests
  split
  · exact ⟨htime.voq, htime.frames, ⟨_, (dest_putDest_same _ _ _).trans (by rw [hd])⟩⟩
  · exact ⟨htime.voq, htime.frames, ⟨_, hd⟩⟩

/-- A frame that begins to cross: the destination is locked for it and holds it last. -/
theorem beginFrame_spec (i g d c : Nat) (s : State) :
    (beginFrame i g d c s).sw.voq = s.sw.voq ∧ (beginFrame i g d c s).frames = s.frames ∧
      ∃ b, dest d (beginFrame i g d c s) =
        { dest d s with lock := some (g, c), eg := (dest d s).eg ++ [{ id := i }], busyUntil := b } := by
  have hmeasure : PlacesKept s (if d < 266 then measure 2 d c ((s.tim.raw - (frame i s).voqRaw) * 128 / 100) s else s) := by
    split
    · exact measure_places _ _ _ _ _
    · exact .refl s
  unfold beginFrame
  dsimp only
  generalize (if d < 266 then measure 2 d c ((s.tim.raw - (frame i s).voqRaw) * 128 / 100) s else s) = t at hmeasure ⊢
  obtain ⟨hvoq, hframes, b, hb⟩ := giveFrame_given (frame i s) d c (modDest d (fun x => { x with lock := some (g, c), eg := x.eg ++ [{ id := i }] }) t)
  refine ⟨hvoq.trans hmeasure.voq, hframes.trans hmeasure.frames, b, ?_⟩
  rw [hb, dest_modDest_same, dest_of_dests hmeasure.dests]

theorem advanceCells_sw (i n : Nat) (s : State) : (advanceCells i n s).sw.voq = s.sw.voq ∧ (advanceCells i n s).sw.dests = s.sw.dests := by
  unfold advanceCells
  dsimp only
  have hgiven := (giveCells_places (frame i s).req (((frame i s).cells.take (min n (twinFreed (frame i s) s))).drop
    (min (frame i s).freed (twinFreed (frame i s) s))) (putFrame i { frame i s with freed := max (frame i s).freed n } s)).trans
    (returnCredits_places (frame i s) (((frame i s).cells.take (min n (twinFreed (frame i s) s))).drop
      (min (frame i s).freed (twinFreed (frame i s) s))).length _)
  exact ⟨hgiven.voq, hgiven.dests⟩

theorem advanceCells_frame (i n : Nat) (s : State) : frame i (advanceCells i n s) = { frame i s with freed := max (frame i s).freed n } := by
  rw [frame_of_frames (advanceCells_frames i n s), frame_putFrame_same]

/-- A frame whose last byte has crossed: its queue and its destination's lock are given up. -/
theorem finishFrame_spec (i g d c : Nat) (s : State) :
    voqAt g d c (finishFrame i g d c s) = (voqAt g d c s).drop 1 ∧ dest d (finishFrame i g d c s) = { dest d s with lock := none } ∧
      (frame i (finishFrame i g d c s)).sent = (frame i s).sent ∧ (frame i (finishFrame i g d c s)).inVoq = false := by
  have hfirst : PlacesKept s (if d < 266 then chargeFrame d c (frame i s).len s else s) := by
    split
    · exact chargeFrame_places _ _ _ _
    · exact .refl s
  unfold finishFrame
  dsimp only
  generalize (if d < 266 then chargeFrame d c (frame i s).len s else s) = s1 at hfirst ⊢
  have hboth : PlacesKept s (if d < 256 ∧ (dest (pairPort d s) s).eg.any (fun e => e.id == i && !e.dropped) = true then
      chargeFrame (pairPort d s) c (frame i s).len s1 else s1) := by
    split
    · exact hfirst.trans (chargeFrame_places _ _ _ _)
    · exact hfirst
  generalize (if d < 256 ∧ (dest (pairPort d s) s).eg.any (fun e => e.id == i && !e.dropped) = true then
      chargeFrame (pairPort d s) c (frame i s).len s1 else s1) = s2 at hboth ⊢
  let s3 := modDest d (fun x => { x with lock := none }) (putVoq g d c ((voqAt g d c s2).drop 1) s2)
  obtain ⟨hvoq, hdests⟩ := advanceCells_sw i (frame i s).cells.length s3
  have hframe : frame i s3 = frame i s := frame_of_frames hboth.frames
  have hadv := advanceCells_frame i (frame i s).cells.length s3
  refine ⟨?_, ?_, ?_, ?_⟩
  · have hlast : voqAt g d c (modFrame i (fun f => { f with inVoq := false }) (advanceCells i (frame i s).cells.length s3)) = voqAt g d c s3 :=
      voqAt_of_voq hvoq
    have hput : voqAt g d c s3 = (voqAt g d c s2).drop 1 := voqAt_putVoq_same g d c _ s2
    rw [hlast, hput, voqAt_of_voq hboth.voq]
  · have hlast : dest d (modFrame i (fun f => { f with inVoq := false }) (advanceCells i (frame i s).cells.length s3)) = dest d s3 :=
      dest_of_dests hdests
    have hput : dest d s3 = { dest d s2 with lock := none } := dest_modDest_same d _ _
    rw [hlast, hput, dest_of_dests hboth.dests]
  · rw [frame_modFrame_same, hadv, hframe]
  · rw [frame_modFrame_same]

/-- The one frame of a queue, whole and within one cell, is packed alone: it begins and ends in this cell. -/
theorem packCell_whole {g d c i n : Nat} {x : XCell} {s u : State} (hv : voqAt g d c s = [i]) (hc : (frame i s).complete = true)
    (h0 : (frame i s).sent = 0) (hu0 : x.used = 0) (hpos : 0 < streamLen (frame i s)) (hle : streamLen (frame i s) ≤ 240)
    (hu : u = finishFrame i g d c (modFrame i (fun f => { f with sent := f.sent + streamLen (frame i s) }) (beginFrame i g d c s)))
    (hnone : voqAt g d c u = []) :
    ∃ y : XCell, packCell g d c (n + 1) x s = (y, u) ∧ y.frames = x.frames ++ [i] := by
  have helig : eligBytes (frame i s) = streamLen (frame i s) := by
    unfold eligBytes
    rw [if_pos hc, h0, Nat.sub_zero]
  have htake : min (240 - x.used) (eligBytes (frame i s)) = streamLen (frame i s) := by
    rw [hu0, helig, Nat.sub_zero, Nat.min_eq_right hle]
  have hopen : (openFrame i g d c x s).2 = beginFrame i g d c s := by
    unfold openFrame descriptorOf
    dsimp only
    rw [if_pos hc]
  unfold packCell
  rw [hv]
  dsimp only
  rw [htake, if_neg (Nat.pos_iff_ne_zero.1 hpos), if_pos h0, if_pos ⟨hc, by rw [h0, Nat.zero_add]⟩, hopen, ← hu, hnone]
  exact ⟨_, rfl, rfl⟩

/-- A cell that carries the one frame of its queue whole. -/
theorem crossCell_whole {g d c i : Nat} {s t : State} (hv : voqAt g d c s = [i]) (hc : (frame i s).complete = true)
    (h0 : (frame i s).sent = 0) (hpos : 0 < streamLen (frame i s)) (hle : streamLen (frame i s) ≤ 240) (hp : upPartner d s = none)
    (ht : t = crossCell g d c s) :
    voqAt g d c t = [] ∧ (frame i t).sent = streamLen (frame i s) ∧ (frame i t).inVoq = false ∧ (dest d t).lock = none ∧
      (dest d t).cells.length = (dest d s).cells.length + 1 ∧ (dest d t).eg.any (fun e => e.id == i) = true := by
  obtain ⟨hbvoq, hbframes, b, hbdest⟩ := beginFrame_spec i g d c s
  let m := modFrame i (fun f => { f with sent := f.sent + streamLen (frame i s) }) (beginFrame i g d c s)
  obtain ⟨hvoq, hdest, hsent, hin⟩ := finishFrame_spec i g d c m
  have hmvoq : voqAt g d c m = [i] := (voqAt_of_voq hbvoq).trans hv
  have hnone : voqAt g d c (finishFrame i g d c m) = [] := by rw [hvoq, hmvoq]; rfl
  obtain ⟨y, hpack, hy⟩ := packCell_whole (n := 4) (x := { group := g, dst := d, cls := c }) hv hc h0 rfl hpos hle rfl hnone
  have hne : y.frames ≠ [] := by rw [hy]; exact List.cons_ne_nil _ _
  let v := modDest d (fun x => { x with cells := x.cells ++ [{ y with pair := none }] }) (finishFrame i g d c m)
  have hcross : t = refreshActive d c (count swcGCtrs 0 0 1 v) := by
    rw [ht]
    unfold crossCell
    dsimp only
    rw [hpack, if_neg hne, hp]
  have hkept : PlacesKept v t := by
    rw [hcross]
    exact (count_changes (ks := []) _ _ _ _ _ (List.mem_singleton.2 rfl)).placesKept.trans (refreshActive_places _ _ _)
  have hd : dest d t = { dest d (finishFrame i g d c m) with cells := (dest d (finishFrame i g d c m)).cells ++ [{ y with pair := none }] } :=
    (dest_of_dests hkept.dests).trans (dest_modDest_same d _ _)
  have hmdest : dest d m = { dest d s with lock := some (g, c), eg := (dest d s).eg ++ [{ id := i }], busyUntil := b } := hbdest
  have hframe : frame i t = frame i (finishFrame i g d c m) := frame_of_frames hkept.frames
  have hmframe : (frame i m).sent = streamLen (frame i s) := by
    rw [frame_modFrame_same, frame_of_frames hbframes]
    show (frame i s).sent + streamLen (frame i s) = _
    rw [h0, Nat.zero_add]
  refine ⟨(voqAt_of_voq hkept.voq).trans hnone, by rw [hframe, hsent, hmframe], by rw [hframe, hin], ?_, ?_, ?_⟩
  · rw [hd, hdest]
  · rw [hd, hdest, hmdest]
    exact List.length_append
  · rw [hd, hdest, hmdest]
    simp

/-! ### Credits, aged frames and the obligation -/

theorem creditReturn_of_free {d : Nat} {x : XCell} {rest : List XCell} {s : State} (hc : (dest d s).cells = x :: rest)
    (hfree : ∀ i ∈ x.frames, unstarted i d s = false ∧ ∀ q, x.pair = some q → unstarted i q s = false) :
    (x.pair = none → creditReturn d s = modDest d (fun y => { y with cells := rest }) s) ∧
    (∀ q, x.pair = some q → creditReturn d s =
      modDest q (fun y => { y with extra := y.extra - 1 }) (modDest d (fun y => { y with cells := rest }) s)) := by
  have hno : x.frames.any (fun i => unstarted i d s || (x.pair.map (fun q => unstarted i q s)).getD false) = false := by
    refine List.any_eq_false.2 fun i hi => ?_
    obtain ⟨hd, hq⟩ := hfree i hi
    rw [hd, Bool.false_or]
    cases hp : x.pair with
    | none => exact Bool.false_ne_true
    | some q =>
      rw [Option.map_some, Option.getD_some, hq q hp]
      exact Bool.false_ne_true
  refine ⟨fun hp => ?_, fun q hp => ?_⟩
  · unfold creditReturn
    rw [hc]
    dsimp only
    rw [hno, hp]
    rfl
  · unfold creditReturn
    rw [hc]
    dsimp only
    rw [hno, hp]
    rfl

theorem exec_creditReturn {d : Nat} (hd : d ≤ 266) (s : State) : exec (.creditReturn d) s = .next (creditReturn d s) :=
  guarded_of_true (decide_eq_true hd) _

/-- Settles O37: the matching by what each iteration accepts, a crossing cell by what packing one whole frame leaves. -/
theorem cellsCrossReturnAndAge : Obligations.CellsCrossReturnAndAge := by
  unfold Obligations.CellsCrossReturnAndAge
  intro s
  refine ⟨fun hon hdr => ?_, fun s0 s1 stated s2 copies m hst h0 h1 hs h2 hc hm => ?_, fun rs => matchEpoch_spec rs s, fun stated r hr => mem_requests hr,
    fun g d c i hd hv hc h0 ht helig hpos hle hp => ⟨_, rfl, crossCell_whole hv hc h0 hpos hle hp rfl⟩, fun d hd hc => ?_,
    fun d x rest hd hc hfree => ?_, fun d x rest i hd hc hi hu => ?_, fun g d c n i is hg hd hc hv => ⟨fun h0 => ?_, fun h0 => ?_⟩⟩
  · have hoff : swcMoves s = false := decide_eq_false fun h => h.elim hon hdr
    refine congrArg Host.Outcome.next ?_
    unfold cellEpoch
    rw [hoff]
    rfl
  · have hmoves : swcMoves s = true := decide_eq_true hst
    subst h0 h1 hs h2 hc hm
    refine congrArg Host.Outcome.next ?_
    unfold cellEpoch
    rw [hmoves]
    rfl
  · rw [exec_creditReturn hd]
    unfold creditReturn
    rw [hc]
  · rw [exec_creditReturn hd]
    obtain ⟨hnone, hsome⟩ := creditReturn_of_free hc hfree
    exact ⟨fun hp => congrArg Host.Outcome.next (hnone hp), fun q hp => congrArg Host.Outcome.next (hsome q hp)⟩
  · rw [exec_creditReturn hd]
    refine congrArg Host.Outcome.next ?_
    unfold creditReturn
    rw [hc]
    dsimp only
    exact if_pos (List.any_eq_true.2 ⟨i, hi, by rw [hu, Bool.true_or]⟩)
  · have hexec : exec (.voqAgeDrop g d c n) s = .next (raise swcAgeDrop (dropFrame i (if d < 266 then count swcDCtrs 3 d 1 s else s))) := by
      refine (guarded_of_true (decide_eq_true ⟨hg, hd, hc⟩) _).trans (congrArg Host.Outcome.next ?_)
      unfold voqAgeDrop
      rw [hv]
      exact if_pos h0
    exact ⟨_, hexec, raise_asserted _ (by decide), rfl⟩
  · refine (guarded_of_true (decide_eq_true ⟨hg, hd, hc⟩) _).trans (congrArg Host.Outcome.next ?_)
    unfold voqAgeDrop
    rw [hv]
    exact if_neg h0

end Sys2Proof.Machine
end

section
/-! PROOFS. Frames that leave the device: edit, transmission, host and mirror delivery (R173, R405 to R411, R444, R470 to R475). -/

namespace Sys2Proof.Machine

/-! ### The front record of an output -/

theorem editFrame_of_plain {i d : Nat} {s : State} (hd : d < 256) (hr : (editPlan (frame i s) d s).red = 0) :
    editFrame i d s = modEg d i (fun x => { x with edited := true, plan := editPlan (frame i s) d s }) s := by
  have hplace : ¬ (265 ≤ d ∨ (256 ≤ d ∧ d < 264 ∧ (frame i s).steer.isSome = true)) := by omega
  unfold editFrame
  dsimp only
  rw [if_neg hplace]
  simp [redTooLong, newSeq, countRed, hr]

theorem egressEdit_of_first {d : Nat} {e : EgFrame} {s : State} (he : (dest d s).eg.find? (fun e => !e.edited) = some e)
    (h : 0 < (frame e.id s).sent) : egressEdit d s = editFrame e.id d s := by
  unfold egressEdit
  rw [he]
  exact if_pos h

/-- The front record of a destination that is up: edited, not started, and neither cut short nor dropped. -/
structure Startable (d : Nat) (e : EgFrame) (s : State) : Prop where
  front : frontEg d s = some e
  edited : e.edited = true
  fresh : e.started = false
  whole : e.early = false
  kept : e.dropped = false
  up : destUp d s = true

theorem Startable.start {d sub : Nat} {e : EgFrame} {s : State} (h : Startable d e s) :
    txFrameStart d sub s = if 256 ≤ d then tieStart e d s else portStart e d sub s := by
  have hgo : ¬ ((!e.edited) = true ∨ e.started = true ∨ e.early = true) := by
    rw [h.edited, h.fresh, h.whole]
    decide
  have hup : ¬ ((!destUp d s) = true) := by
    rw [h.up]
    decide
  unfold txFrameStart
  rw [h.front]
  dsimp only
  rw [if_neg hgo, h.kept, if_neg Bool.false_ne_true, if_neg hup]

theorem exec_txFrameStart {d sub : Nat} (hd : d < 264) (hs : sub < 8) (s : State) : exec (.txFrameStart d sub) s = .next (txFrameStart d sub s) :=
  guarded_of_true (decide_eq_true ⟨hd, hs⟩) _

theorem portStart_shut {d sub : Nat} {e : EgFrame} {s : State} (hg : gateEn d s = true)
    (ho : gateOpen d (frame e.id s).cls (timeAtEighth s.tim (egressStamp d sub s)) s = false) :
    portStart e d sub s = if e.holding then s else count tmgDCtrs 3 d 1 (modEg d e.id (fun x => { x with holding := true }) s) := by
  unfold portStart
  dsimp only
  rw [hg, ho]
  rfl

theorem portStart_open {d sub stamp : Nat} {e : EgFrame} {r : List (Nat × List Byte) × State} {s : State} (hst : stamp = egressStamp d sub s)
    (hg : gateEn d s = false ∨ gateOpen d (frame e.id s).cls (timeAtEighth s.tim stamp) s = true)
    (hr : r = ptpAtStart (frame e.id s) d stamp (timeAtEighth s.tim stamp) s) :
    portStart e d sub s = modEg d e.id (fun x => { x with
      started := true, holding := false, patches := r.1, startAt := timeAtEighth s.tim stamp, gateCls := (frame e.id s).cls,
      stamp := stamp, sdu := maxSdu d (frame e.id s).cls s }) r.2 := by
  have hopen : ¬ ((gateEn d s && !gateOpen d (frame e.id s).cls (timeAtEighth s.tim stamp) s) = true) := by
    rcases hg with h | h <;> rw [h] <;> simp
  subst hr
  subst hst
  exact if_neg hopen

theorem ptpAtStart_of_none {f : Frame} (h : hasPtp f = false) (d stamp time : Nat) (s : State) : ptpAtStart f d stamp time s = ([], s) := by
  unfold ptpAtStart
  rw [h]
  rfl

theorem tieStart_of_credits {k : Nat} {e : EgFrame} {s : State} (h : cellsFor (frame e.id s).len ≤ rdC tieLinkCredits_txCredits k s) :
    tieStart e (256 + k) s = wrC tieLinkCredits_txCredits k (rdC tieLinkCredits_txCredits k s - cellsFor (frame e.id s).len)
      (modEg (256 + k) e.id (fun x => { x with started := true, holding := false }) s) := by
  unfold tieStart
  dsimp only
  rw [Nat.add_sub_cancel_left, if_neg (Nat.not_lt.2 h)]

/-! ### A frame's last bit -/

/-- The front record of a destination that is up, started and wholly across. -/
structure Ends (d : Nat) (e : EgFrame) (s : State) : Prop where
  front : frontEg d s = some e
  across : crossedAll (frame e.id s) = true
  begun : e.started = true
  whole : e.early = false
  up : destUp d s = true

theorem Ends.send {d : Nat} {e : EgFrame} {s : State} (h : Ends d e s) :
    txFrameEnd d s = if 256 ≤ d then tieSend e d s else portSend e d s := by
  have hgo : ¬ ((!crossedAll (frame e.id s)) = true ∨ (!(e.started || e.early)) = true) := by
    rw [h.across, h.begun]
    simp
  have hup : ¬ ((!destUp d s) = true) := by
    rw [h.up]
    decide
  unfold txFrameEnd
  rw [h.front]
  dsimp only
  rw [if_neg hgo, h.whole, if_neg Bool.false_ne_true, if_neg hup]

theorem exec_txFrameEnd {d : Nat} {s : State} (hd : d < 264) (hw : (∀ x ∈ s.fab.later, x.1 ≠ d) ∨ 256 ≤ d) :
    exec (.txFrameEnd d) s = .next (txFrameEnd d s) := by
  have hno : (valuesWait d s && decide (d < 256 ∧ frontEg d (txFrameEnd d s) ≠ frontEg d s)) = false := by
    rcases hw with hw | hw
    · have hwait : valuesWait d s = false := by
        unfold valuesWait
        rw [List.any_eq_false.2 fun x hx => by rw [beq_iff_eq]; exact hw x hx, Bool.false_and]
      rw [hwait, Bool.false_and]
    · rw [decide_eq_false (fun h => absurd h.1 (Nat.not_lt.2 hw)), Bool.and_false]
  exact (guarded_of_true (decide_eq_true hd) _).trans (congrArg Host.Outcome.next (onlyIf_of_false hno _ _))

/-- A frame that was not sent while it arrived leaves whole. -/
theorem portSend_of_stored {d : Nat} {e : EgFrame} {s : State} (h : (frame e.id s).ct = false) :
    portSend e d s = leaveEg e.id d (noteLatency e d (noteOverrun (overran e d s) d
      (emit (.frame d (outBytes (frame e.id s) e) false) (countTx d ((outBytes (frame e.id s) e).length + 4) s)))) := by
  unfold portSend
  dsimp only
  rw [h]
  rfl

theorem noteLatency_cases {d : Nat} {e : EgFrame} {f : Frame} {s : State} (hf : f = frame e.id s) :
    (f.inSrc < 256 → f.fromHost = false → f.overTie = false → f.mirrorCopy = false →
      noteLatency e d s = measure 1 d f.cls ((e.stamp - f.raw8) * 16 / 100) s) ∧
    (256 ≤ f.inSrc ∨ f.fromHost = true ∨ f.overTie = true ∨ f.mirrorCopy = true → noteLatency e d s = s) := by
  subst hf
  refine ⟨fun hsrc hh ht hm => if_pos ⟨hsrc, by rw [hh]; rfl, by rw [ht]; rfl, by rw [hm]; rfl⟩, fun h => if_neg fun hall => ?_⟩
  obtain ⟨hsrc, hh, ht, hm⟩ := hall
  rw [Bool.not_eq_true'] at hh ht hm
  rcases h with h | h | h | h
  · exact absurd hsrc (Nat.not_lt.2 h)
  · exact Bool.false_ne_true (hh.symm.trans h)
  · exact Bool.false_ne_true (ht.symm.trans h)
  · exact Bool.false_ne_true (hm.symm.trans h)

/-- A cut-through frame whose bytes run out leaves short and stomped. -/
theorem ctUnderrun_spec {d : Nat} {e : EgFrame} {s : State} (hf : frontEg d s = some e) (hb : e.started = true) (he : e.early = false)
    (hc : (frame e.id s).ct = true) (ha : crossedAll (frame e.id s) = false) :
    Asserted swcCtUnderrun (ctUnderrun d s) ∧
      Output.frame d (outBytes { frame e.id s with bytes := (frame e.id s).bytes.take ((frame e.id s).sent - 8) } e) true ∈ (ctUnderrun d s).out := by
  have hgo : ¬ ((!e.started) = true ∨ e.early = true ∨ (!(frame e.id s).ct) = true ∨ crossedAll (frame e.id s) = true) := by
    rw [hb, he, hc, ha]
    decide
  unfold ctUnderrun
  rw [hf]
  dsimp only
  rw [if_neg hgo]
  refine ⟨raise_asserted _ (by decide), ?_⟩
  generalize (frame e.id s).bytes.take ((frame e.id s).sent - 8) = bs
  generalize outBytes { frame e.id s with bytes := bs } e = out
  generalize countTx d (out.length + 4) (noteLatency e d (noteOverrun (overran e d s) d s)) = u
  have hmem : Output.frame d out true ∈ (emit (.frame d out true) u).out := List.mem_append_right _ List.mem_cons_self
  generalize emit (.frame d out true) u = v at hmem ⊢
  have hcount : Output.frame d out true ∈ (count swcGCtrs 5 0 1 (count swcDCtrs 6 d 1 (portCount 10 d 1 v))).out :=
    (count_changes (ks := []) _ _ _ _ _ (List.mem_singleton.2 rfl)).out.subset
      ((count_changes (ks := []) _ _ _ _ _ (List.mem_singleton.2 rfl)).out.subset
        ((portCount_changes (ks := []) _ _ _ _ (List.mem_singleton.2 rfl)).out.subset hmem))
  exact (raise_onlyEvents _ _).out.subset hcount

/-! ### Host and mirror delivery -/

theorem hostDelivery_of_front {free : Bool} {e : EgFrame} {s : State} (hf : frontEg 264 s = some e) (he : e.edited = true)
    (ha : crossedAll (frame e.id s) = true) :
    hostDelivery free s = leaveEg e.id 264 (
      if toBench (hostQueue (frame e.id s) s) (hostBytes (frame e.id s) e s).2 then
        benchDeliver (hostQueue (frame e.id s) s) ⟨(frame e.id s).ts, (frame e.id s).tsEpoch, (frame e.id s).exc, (hostBytes (frame e.id s) e s).1⟩
          (hostBytes (frame e.id s) e s).2
      else if free && !(hostBytes (frame e.id s) e s).2.pwr.perstLow then
        emit (.hostFrame (hostQueue (frame e.id s) s) (frame e.id s).ts (frame e.id s).tsEpoch (frame e.id s).exc (hostBytes (frame e.id s) e s).1)
          (hostBytes (frame e.id s) e s).2
      else raise swcHostDrop (count swcGCtrs 7 0 1 (hostBytes (frame e.id s) e s).2)) := by
  have hgo : ¬ ((!e.edited) = true ∨ (!crossedAll (frame e.id s)) = true) := by
    rw [he, ha]
    decide
  unfold hostDelivery
  rw [hf]
  exact if_neg hgo

theorem mirrorCopy_of_front {e : EgFrame} {m : Frame} {s t : State} (hf : frontEg 266 s = some e) (ha : crossedAll (frame e.id s) = true)
    (hm : m = mirrorOf (frame e.id s) s) (ht : t = leaveEg e.id 266 s) :
    (256 ≤ m.dest → m.dest < 264 → 2 ≤ m.crossings → mirrorCopy s = raise tieTieLoop (count tieGCtrs 7 0 1 t)) ∧
    (m.dest < 256 ∨ 264 ≤ m.dest ∨ m.crossings < 2 →
      (blockOn .swc t = false → mirrorCopy s = count swcGCtrs 3 0 1 t) ∧
      (∀ u, blockOn .swc t = true → takeCells 35 (cellsFor m.len) t = (none, u) →
        mirrorCopy s = raise swcMirrorDrop (count swcGCtrs 6 0 1 (emptyResponse 35 u))) ∧
      (∀ is u n v, blockOn .swc t = true → takeCells 35 (cellsFor m.len) t = (some is, u) → newFrame { m with cells := is } u = (n, v) →
        mirrorCopy s = voqEnter n none v)) := by
  have hgo : ¬ ((!crossedAll (frame e.id s)) = true) := by
    rw [ha]
    decide
  have hcopy : mirrorCopy s = if loops m then tieLoop t else if !blockOn .swc t then count swcGCtrs 3 0 1 t
      else match takeCells 35 (cellsFor m.len) t with
        | (none, u) => raise swcMirrorDrop (count swcGCtrs 6 0 1 (emptyResponse 35 u))
        | (some is, u) => voqEnter (newFrame { m with cells := is } u).1 none (newFrame { m with cells := is } u).2 := by
    unfold mirrorCopy
    rw [hf, hm, ht]
    exact if_neg hgo
  rw [hcopy]
  refine ⟨fun h1 h2 h3 => if_pos (decide_eq_true ⟨h1, h2, h3⟩), fun h => ?_⟩
  have hno : loops m = false := decide_eq_false (by omega)
  rw [hno, if_neg Bool.false_ne_true]
  refine ⟨fun hon => ?_, fun u hon hu => ?_, fun is u n v hon hu hn => ?_⟩
  · rw [hon]
    rfl
  · rw [hon, hu]
    rfl
  · rw [hon, hu]
    dsimp only
    rw [hn]
    rfl

/-- Settles O38, command by command, from the front record of the output. -/
theorem framesLeaveTheDevice : Obligations.FramesLeaveTheDevice := by
  unfold Obligations.FramesLeaveTheDevice
  intro s
  refine ⟨fun d e hd he hsent hr => ?_, fun d sub e hd hs hf he hst hea hdr hup => ?_, fun k sub e hk hs hf he hst hea hdr hup hcr => ?_,
    fun d e f hd hf hff ha hst hea hup hct hl => ?_, fun d e f hf => noteLatency_cases hf, fun k e f hk hf hff ha hst hea hup => ?_,
    fun d e f hd hf hff hst hea hct ha => ?_, fun e f q b free hf hff he ha hq hb => ?_, fun e m t hf ha hm ht => ?_, fun q hq => ?_⟩
  · refine (guarded_of_true (decide_eq_true (by omega)) _).trans (congrArg Host.Outcome.next ?_)
    rw [egressEdit_of_first he hsent, editFrame_of_plain hd hr]
  · have hstart : ∀ sub, txFrameStart d sub s = portStart e d sub s := fun _ =>
      (Startable.start ⟨hf, he, hst, hea, hdr, hup⟩).trans (if_neg (Nat.not_le.2 hd))
    rw [exec_txFrameStart (by omega) hs, hstart]
    refine ⟨fun hg ho => congrArg Host.Outcome.next (portStart_shut hg ho), fun stamp r t hstamp hg hr ht => ?_⟩
    have hopen := portStart_open hstamp hg hr
    refine ⟨by rw [hopen, ht], fun hp => ?_⟩
    rw [hopen, hr, ptpAtStart_of_none hp]
  · rw [exec_txFrameStart (by omega) hs, Startable.start ⟨hf, he, hst, hea, hdr, hup⟩, if_pos (Nat.le_add_right 256 k), tieStart_of_credits hcr]
  · subst hff
    have hsend : txFrameEnd d s = portSend e d s := (Ends.send ⟨hf, ha, hst, hea, hup⟩).trans (if_neg (Nat.not_le.2 hd))
    rw [exec_txFrameEnd (by omega) (.inl hl), hsend, portSend_of_stored hct]
    refine ⟨fun ho => ?_, fun ho => ?_⟩ <;> rw [ho] <;> rfl
  · subst hff
    rw [exec_txFrameEnd (by omega) (.inr (Nat.le_add_right 256 k)), Ends.send ⟨hf, ha, hst, hea, hup⟩, if_pos (Nat.le_add_right 256 k)]
    unfold tieSend
    dsimp only
    rw [Nat.add_sub_cancel_left]
  · subst hff
    exact ⟨_, guarded_of_true (decide_eq_true hd) _, ctUnderrun_spec hf hst hea hct ha⟩
  · subst hff hq hb
    exact congrArg Host.Outcome.next (hostDelivery_of_front hf he ha)
  · obtain ⟨hloop, hrest⟩ := mirrorCopy_of_front hf ha hm ht
    refine ⟨fun h1 h2 h3 => congrArg Host.Outcome.next (hloop h1 h2 h3), fun h => ?_⟩
    obtain ⟨hoff, hnone, hsome⟩ := hrest h
    exact ⟨fun hon => congrArg Host.Outcome.next (hoff hon), fun u hon hu => congrArg Host.Outcome.next (hnone u hon hu),
      fun is u n v hon hu hn => congrArg Host.Outcome.next (hsome is u n v hon hu hn)⟩
  · exact guarded_of_true (decide_eq_true hq) _

end Sys2Proof.Machine
end

section
/-! PROOFS. Time gates, gate lists and flow meters (R432, R435 to R440, R447). -/

namespace Sys2Proof.Machine

/-! ### Gates -/

theorem showGates_of_unused {d : Nat} {s : State} (h : gateEn d s = false ∨ operList d s = none) :
    showGates d s = wrC tmgGateStatus_gatesNow d 0xFF (wrC tmgGateStatus_entryNow d 0 s) := by
  have hnone : (if gateEn d s then operList d s else none) = none := by
    rcases h with h | h <;> rw [h] <;> simp
  unfold showGates
  rw [hnone]

theorem showGates_of_list {d l e : Nat} {s : State} (hg : gateEn d s = true) (hl : operList d s = some l)
    (he : e = (operSegment d l (timeNow s) (pendTakeover d s) s).1) :
    showGates d s = wrC tmgGateStatus_gatesNow d (gclEntry d l e s).2 (wrC tmgGateStatus_entryNow d e s) := by
  subst he
  unfold showGates
  rw [hg, if_pos rfl, hl]

/-- The state in which a takeover of list `l` shows, before the gates are shown again. -/
def takenOver (d l ext : Nat) (s : State) : State :=
  wrC tmgGateStatus_operList d l (wrC tmgGateStatus_operValid d 1 (wrC tmgGateStatus_pending d 0 (wrC tmgGateStatus_late d 0
    (wrC tmgGateStatus_extended d ext (keepGates d (timeNow s) (timeNow s) s s)))))

theorem takeover_first {d l T : Nat} {s : State} (hp : pendTakeover d s = some (l, T)) (hl : operList d s = none) :
    takeover d false s = raiseC tmgGateTakeover d (showGates d (takenOver d l 0 s)) := by
  simp only [takeover, hp, hl]
  rfl

theorem takeover_over {d l o T : Nat} {s : State} (hp : pendTakeover d s = some (l, T)) (hl : operList d s = some o) :
    takeover d false s = if extendsTo d o T s then
        raiseC tmgTakeoverExtended d (raiseC tmgGateTakeover d (showGates d (takenOver d l (b2n (extendsTo d o T s)) s)))
      else raiseC tmgGateTakeover d (showGates d (takenOver d l (b2n (extendsTo d o T s)) s)) := by
  simp only [takeover, hp, hl, Bool.not_false, Bool.true_and]
  rfl

theorem exec_gateTakeover {d l T : Nat} {s : State} (hd : d < 256) (hp : pendTakeover d s = some (l, T)) :
    exec (.gateTakeover d) s = .next (if atOrAfter (timeNow s) T then takeover d false s else s) := by
  refine (guarded_of_true (decide_eq_true hd) _).trans (congrArg Host.Outcome.next ?_)
  rw [hp]

/-! ### Gate-list entries -/

theorem gateStatusWrite_cancels {d : Nat} {v : Word} {s : State} (hc : bit v.toNat 31 = true) (h4 : bit v.toNat 4 = false)
    (h5 : bit v.toNat 5 = false) (hp : rdC tmgGateStatus_pending d s = 1) :
    gateStatusWrite d v s = raiseC tmgTakeoverCancelled d (wrC tmgGateStatus_pending d 0 s) := by
  unfold gateStatusWrite
  rw [h4, h5, hc]
  exact if_pos hp

theorem gclWrite_of_busy {w : Window} {d l : Nat} {v : Word} {s : State} (hd : d < 256) (hl : l = rdC tmgGclAddr_list (winIdx w) s)
    (h : operList d s = some l ∨ (pendTakeover d s).map (·.1) = some l) : gclWrite w d v s = raiseC tmgGclRefused d s := by
  subst hl
  unfold gclWrite
  dsimp only
  rw [if_neg (Nat.not_le.2 hd)]
  exact if_pos h

theorem gclWrite_of_free {w : Window} {d l i : Nat} {v : Word} {s : State} (hd : d < 256) (hl : l = rdC tmgGclAddr_list (winIdx w) s)
    (hi : i = rdC tmgGclAddr_entry (winIdx w) s) (ho : operList d s ≠ some l) (hp : (pendTakeover d s).map (·.1) ≠ some l)
    (ha : rdC tmgGclAddr_autoInc (winIdx w) s = 0) :
    gclWrite w d v s = putGcl d l i (rdC tmgGclDataLo_interval (winIdx w) s, wordField v 0 8)
      (wrC tmgGclDataHi_gates (winIdx w) (wordField v 0 8) s) := by
  subst hl hi
  unfold gclWrite
  dsimp only
  rw [if_neg (Nat.not_le.2 hd), ha]
  exact (if_neg fun h => h.elim ho hp).trans (if_neg Nat.zero_ne_one)

/-! ### Meter operations -/

/-- The operation that METER_OP gets keeps the other bits of the word written. -/
theorem bit_wordWith_op (v : Word) (k j : Nat) (hj : 2 ≤ j) (hj' : j < 32) : bit (wordWith v 0 2 k).toNat j = bit v.toNat j := by
  have hread := getLsbD_wordWith v 0 2 k j
  rw [decide_eq_true hj', Bool.true_and, if_neg (by omega)] at hread
  exact hread

theorem wordField_op (v : Word) (k : Nat) : wordField (wordWith v 0 2 k) 0 2 = k % 4 := wordField_wordWith_same v (by decide)

theorem meterOpWrite_write {w : Window} {v : Word} (s : State) : meterOpWrite w (wordWith v 0 2 1) s = meterWriteOp (winIdx w) (bit v.toNat 2) s := by
  unfold meterOpWrite
  dsimp only
  rw [wordField_op, bit_wordWith_op v 1 2 (by decide) (by decide)]
  rfl

theorem meterOpWrite_read {w : Window} {v : Word} (s : State) : meterOpWrite w (wordWith v 0 2 2) s = meterReadOp (winIdx w) (bit v.toNat 3) s := by
  unfold meterOpWrite
  dsimp only
  rw [wordField_op, bit_wordWith_op v 2 3 (by decide) (by decide)]
  rfl

theorem meterOpWrite_unblock {w : Window} {v : Word} (s : State) : meterOpWrite w (wordWith v 0 2 3) s = meterClearOp (winIdx w) s := by
  unfold meterOpWrite
  dsimp only
  rw [wordField_op]
  rfl

theorem meterWriteOp_cases {c i cfg cir cbs eir ebs : Nat} {zero : Bool} {s : State} (hi : i = rdC tmgMeterSel_index c s)
    (hcfg : cfg = (reg tmgMeterCfg_ovh.off c s).toNat) (hcir : cir = rdC tmgMeterCir_value c s) (hcbs : cbs = rdC tmgMeterCbs_value c s)
    (heir : eir = rdC tmgMeterEir_value c s) (hebs : ebs = rdC tmgMeterEbs_value c s) :
    meterWriteOp c zero s =
      if meterOk cfg cir cbs eir ebs then wrC tmgMeterOp_result c 0 (meterSet i cfg cir cbs eir ebs zero s) else wrC tmgMeterOp_result c 1 s := by
  subst hi hcfg hcir hcbs heir hebs
  rfl

/-- The registers that show a meter, before its counters. -/
def meterShown (c : Nat) (m : Meter) (s : State) : State :=
  wrC tmgMeterState_blocked c (b2n m.blocked) (wrC tmgMeterState_allRed c (b2n m.allRed)
    (wrC tmgMeterState_wrap c m.wraps (wrC tmgMeterCtok_tokens c (m.cTok / 65536).toNat
      (wrC tmgMeterEtok_tokens c (m.eTok / 65536).toNat
        (putReg tmgMeterCfg_ovh.off c (BitVec.ofNat 32 m.cfg)
          (wrC tmgMeterCir_value c m.cir (wrC tmgMeterCbs_value c m.cbs (wrC tmgMeterEir_value c m.eir
            (wrC tmgMeterEbs_value c m.ebs s)))))))))

/-- Counter k of a meter in its two words. -/
def meterCtrShown (c : Nat) (m : Meter) (k : Nat) (a : State) : State :=
  wrX tmgMeterCntLo_count k c (sget (fun _ => 0) m.cnt k) (wrX tmgMeterCntHi_count k c (sget (fun _ => 0) m.cnt k / 2 ^ 32) a)

theorem meterReadOp_eq (c : Nat) (clr : Bool) (s : State) :
    meterReadOp c clr s = putMeter (rdC tmgMeterSel_index c s)
      (if clr then { meterFill (meterAt (rdC tmgMeterSel_index c s) s) s.tim.raw with cnt := [], wraps := 0 }
        else meterFill (meterAt (rdC tmgMeterSel_index c s) s) s.tim.raw)
      (wrC tmgMeterOp_result c 0 (foldOver (List.range 4) (meterCtrShown c (meterFill (meterAt (rdC tmgMeterSel_index c s) s) s.tim.raw))
        (meterShown c (meterFill (meterAt (rdC tmgMeterSel_index c s) s) s.tim.raw) s))) := rfl

theorem meterAt_putMeter (i : Nat) (m : Meter) (s : State) : meterAt i (putMeter i m s) = m := sget_sset_same _ _ _ _

theorem rdC_putMeter (f : Fld) (c i : Nat) (m : Meter) (s : State) : rdC f c (putMeter i m s) = rdC f c s := rfl

/-- A fold keeps what each of its steps keeps. -/
theorem foldOver_induct_mem {α : Type} {P : State → Prop} {g : α → State → State} {l : List α} (hg : ∀ x ∈ l, ∀ a, P a → P (g x a))
    {s : State} (h : P s) : P (foldOver l g s) := by
  induction l generalizing s with
  | nil => exact h
  | cons x l ih => exact ih (fun y hy => hg y (List.mem_cons_of_mem x hy)) (hg x List.mem_cons_self s h)

/-- A register that is not a counter word of the meter reads as before the counters were shown. -/
theorem rdC_meterCtrs {f : Fld} {c : Nat} (m : Meter) (s : State)
    (h : ∀ k < 4, offsApart tmgMeterCntLo_count k f 0 = true ∧ offsApart tmgMeterCntHi_count k f 0 = true) :
    rdC f c (foldOver (List.range 4) (meterCtrShown c m) s) = rdC f c s := by
  refine foldOver_induct_mem (P := fun a => rdC f c a = rdC f c s) (fun k hk a ha => ?_) rfl
  obtain ⟨hlo, hhi⟩ := h k (List.mem_range.1 hk)
  exact ((rdX_wrX_offs _ _ hlo).trans (rdX_wrX_offs _ _ hhi)).trans ha

theorem meterShown_reads (c : Nat) (m : Meter) (s : State) :
    rdC tmgMeterCir_value c (meterShown c m s) = m.cir % 2 ^ tmgMeterCir_value.w ∧
      rdC tmgMeterState_blocked c (meterShown c m s) = b2n m.blocked ∧ rdC tmgMeterState_allRed c (meterShown c m s) = b2n m.allRed := by
  have hb2n : ∀ b, b2n b < 2 ^ 1 := fun b => by cases b <;> decide
  refine ⟨?_, ?_, ?_⟩
  · unfold meterShown
    rw [rdC_wrC_offs _ _ (by decide), rdC_wrC_offs _ _ (by decide), rdC_wrC_offs _ _ (by decide), rdC_wrC_offs _ _ (by decide),
      rdC_wrC_offs _ _ (by decide)]
    generalize wrC tmgMeterCbs_value c m.cbs (wrC tmgMeterEir_value c m.eir (wrC tmgMeterEbs_value c m.ebs s)) = u
    have hreg : rdC tmgMeterCir_value c (putReg tmgMeterCfg_ovh.off c (BitVec.ofNat 32 m.cfg) (wrC tmgMeterCir_value c m.cir u)) =
        rdC tmgMeterCir_value c (wrC tmgMeterCir_value c m.cir u) := by
      refine Changes.rdX (ks := [rkey tmgMeterCfg_ovh.off c]) (cs := []) (putReg_changes _ _ _ _ (List.mem_singleton.2 rfl))
        (not_statKey_of_off (f := tmgMeterCir_value) (i := 0) (by decide) c) ?_
      rw [List.mem_singleton]
      exact keyOfField_ne_of_off (f := tmgMeterCir_value) (i := 0) (g := tmgMeterCfg_ovh) (j := 0) (by decide) c c
    rw [hreg]
    exact rdX_wrX_same _ _ _ _ _ rfl
  · exact rdC_wrC_fits rfl (hb2n _)
  · unfold meterShown
    rw [rdC_wrC_bits_same _ _ (by decide)]
    exact rdC_wrC_fits rfl (hb2n _)

theorem meterReadOp_spec {c i : Nat} {clr : Bool} {m : Meter} {s t : State} (hi : i = rdC tmgMeterSel_index c s)
    (hm : m = meterFill (meterAt i s) s.tim.raw) (ht : t = meterReadOp c clr s) :
    meterAt i t = (if clr then { m with cnt := [], wraps := 0 } else m) ∧ rdC tmgMeterCir_value c t = m.cir % 2 ^ tmgMeterCir_value.w ∧
      rdC tmgMeterState_blocked c t = b2n m.blocked ∧ rdC tmgMeterState_allRed c t = b2n m.allRed ∧ rdC tmgMeterOp_result c t = 0 := by
  rw [meterReadOp_eq, ← hi, ← hm] at ht
  obtain ⟨hcir, hblocked, hallRed⟩ := meterShown_reads c m s
  rw [ht]
  refine ⟨meterAt_putMeter _ _ _, ?_, ?_, ?_, ?_⟩
  · rw [rdC_putMeter, rdC_wrC_offs _ _ (by decide), rdC_meterCtrs m _ (by decide), hcir]
  · rw [rdC_putMeter, rdC_wrC_offs _ _ (by decide), rdC_meterCtrs m _ (by decide), hblocked]
  · rw [rdC_putMeter, rdC_wrC_offs _ _ (by decide), rdC_meterCtrs m _ (by decide), hallRed]
  · rw [rdC_putMeter]
    exact rdC_wrC_fits rfl (by decide)

/-- Settles O39, command by command. -/
theorem gatesListsAndMeters : Obligations.GatesListsAndMeters := by
  unfold Obligations.GatesListsAndMeters
  intro s
  refine ⟨fun d hd => ⟨fun hl => ?_, fun hl => ?_⟩, fun d l T hd hp => ⟨fun ht => ?_, fun ht hl => ?_, fun o t ht hl htt => ⟨fun he => ?_, fun he => ?_⟩⟩,
    fun d => ⟨fun h => showGates_of_unused h, fun l e hg hl he => showGates_of_list hg hl he⟩,
    fun w v d ha hc hf => ⟨fun h31 h4 h5 hp => ?_, fun l i hd hl hi => ⟨fun h => ?_, fun ho hp hinc => ?_⟩⟩, fun w e hr he => ?_,
    fun w v c i cfg cir cbs eir ebs ha hc hi hcfg hcir hcbs heir hebs => ⟨fun hok => ?_, fun hok => ?_, ?_, ?_⟩⟩
  · refine (guarded_of_true (decide_eq_true hd) _).trans (congrArg Host.Outcome.next ?_)
    rw [hl]
    rfl
  · exact (guarded_of_true (decide_eq_true hd) _).trans (congrArg Host.Outcome.next (if_pos hl))
  · rw [exec_gateTakeover hd hp, ht]
    rfl
  · rw [exec_gateTakeover hd hp, ht, if_pos rfl, takeover_first hp hl]
    rfl
  · rw [exec_gateTakeover hd hp, ht, if_pos rfl, takeover_over hp hl, htt, he]
    exact congrArg Host.Outcome.next (if_neg Bool.false_ne_true)
  · rw [exec_gateTakeover hd hp, ht, if_pos rfl, takeover_over hp hl, htt, he]
    exact congrArg Host.Outcome.next (if_pos rfl)
  · exact congrArg Host.Outcome.next ((writingC_of_admits ha hc hf _).trans (gateStatusWrite_cancels h31 h4 h5 hp))
  · exact congrArg Host.Outcome.next ((writingC_of_admits ha hc hf _).trans (gclWrite_of_busy hd hl h))
  · exact congrArg Host.Outcome.next ((writingC_of_admits ha hc hf _).trans (gclWrite_of_free hd hl hi ho hp hinc))
  · subst he
    exact congrArg Host.Outcome.next (reading_of_reachable hr _)
  · subst hc
    refine congrArg Host.Outcome.next ((writing_of_admits ha _).trans ?_)
    rw [meterOpWrite_write, meterWriteOp_cases hi hcfg hcir hcbs heir hebs, hok]
    rfl
  · subst hc
    refine congrArg Host.Outcome.next ((writing_of_admits ha _).trans ?_)
    rw [meterOpWrite_write, meterWriteOp_cases hi hcfg hcir hcbs heir hebs, hok]
    rfl
  · subst hc
    exact ⟨_, _, congrArg Host.Outcome.next ((writing_of_admits ha _).trans (meterOpWrite_read s)), rfl, meterReadOp_spec hi rfl rfl⟩
  · subst hc hi
    exact congrArg Host.Outcome.next ((writing_of_admits ha _).trans (meterOpWrite_unblock s))

end Sys2Proof.Machine
end

section
/-! PROOFS. The L2 table: the update queue, learning, aging and the operations of L2T.OP (R228 to R238). -/

namespace Sys2Proof.Machine

/-! ### What the update engine applies -/

theorem exec_l2UpdateApply_of_first {ch : L2Change} {rest : List L2Change} {s t u : State} (hq : s.l2.queue = ch :: rest)
    (hu : u = { s with l2 := { s.l2 with queue := rest } }) (ht : applyL2 ch u = t) : exec .l2UpdateApply s = .next (feedScan t) := by
  subst ht hu
  refine congrArg Host.Outcome.next ?_
  rw [hq]

theorem exec_l2UpdateApply_of_none {s : State} (hq : s.l2.queue = []) : exec .l2UpdateApply s = .next (feedScan s) := by
  refine congrArg Host.Outcome.next ?_
  rw [hq]

theorem feedScan_of_none_due {s : State} (hd : s.l2.due = []) : feedScan s = s := by
  have hsame : ∀ q d, q = s.l2.queue → d = s.l2.due → { s with l2 := { s.l2 with queue := q, due := d } } = s := by
    rintro q d rfl rfl
    rfl
  refine hsame _ _ ?_ ?_
  · rw [hd, List.take_nil, List.map_nil, List.append_nil]
  · rw [hd, List.drop_nil]

theorem l2Learns_of_off {s : State} (h : (tgt ⟨.l2t, none⟩ s).st = .off) : l2Learns s = false := by
  unfold l2Learns blockOn
  rw [h]
  rfl

theorem l2Learns_of_running {s : State} (h : (tgt ⟨.l2t, none⟩ s).st = .on ∨ (tgt ⟨.l2t, none⟩ s).st = .draining) : l2Learns s = true := by
  unfold l2Learns
  rcases h with h | h
  · rw [Bool.or_eq_true]
    exact .inl (decide_eq_true h)
  · rw [Bool.or_eq_true, beq_iff_eq]
    exact .inr h

section
variable {p fid mac : Nat} {s : State}

theorem applyL2_learn_off (h : (tgt ⟨.l2t, none⟩ s).st = .off) : applyL2 (.learn p fid mac) s = s :=
  if_neg (by rw [l2Learns_of_off h]; exact Bool.false_ne_true)

theorem applyL2_learn_running (h : (tgt ⟨.l2t, none⟩ s).st = .on ∨ (tgt ⟨.l2t, none⟩ s).st = .draining) :
    applyL2 (.learn p fid mac) s = applyLearn p fid mac s := if_pos (l2Learns_of_running h)

theorem applyLearn_creates {i : Nat} (hf : l2Find fid mac s = none) (hl : atLimit p s = false) (hr : l2Room fid mac s = some i) :
    applyLearn p fid mac s = withNote (learnNote mac fid 1 p 0 i s.l2.tick)
      (fun x => l2Stat 0 (l2Replace i { valid := true, mac := mac, fid := fid, target := p, stamp := x.l2.tick } x)) s := by
  unfold applyLearn
  rw [hf]
  dsimp only
  rw [hl, if_neg Bool.false_ne_true, hr]

theorem applyLearn_at_limit (hf : l2Find fid mac s = none) (hl : atLimit p s = true) :
    applyLearn p fid mac s = noteOnly (learnNote mac fid 6 p 0 0xFFFFF s.l2.tick) (raise l2tLimitReached (l2Stat 3 s)) := by
  unfold applyLearn
  rw [hf]
  dsimp only
  rw [hl]
  rfl

theorem applyLearn_full (hf : l2Find fid mac s = none) (hl : atLimit p s = false) (hr : l2Room fid mac s = none) :
    applyLearn p fid mac s = noteOnly (learnNote mac fid 7 p 0 0xFFFFF s.l2.tick) (raise l2tTableFull (l2Stat 4 s)) := by
  unfold applyLearn
  rw [hf]
  dsimp only
  rw [hl, if_neg Bool.false_ne_true, hr]

theorem applyLearn_found {i : Nat} (hf : l2Find fid mac s = some i) : applyLearn p fid mac s = applyMove i p fid mac s := by
  unfold applyLearn
  rw [hf]

theorem applyMove_moves {i : Nat} {e : L2Entry} (he : e = l2At i s) (hs : e.isStatic = false) (ht : e.target ≠ p) (hl : atLimit p s = false) :
    applyMove i p fid mac s = withNote (learnNote mac fid 2 p e.target i s.l2.tick)
      (fun x => l2Stat 1 (l2Replace i { e with target := p, kind := 0, stamp := x.l2.tick } x)) s := by
  have hown : l2Own e p = false := decide_eq_false fun h => ht h.2
  unfold applyMove
  dsimp only
  rw [← he, hown, if_neg Bool.false_ne_true, hs, if_neg Bool.false_ne_true, hl, if_neg Bool.false_ne_true]

theorem applyMove_refreshes {i : Nat} {e : L2Entry} (he : e = l2At i s) (hk : e.kind = 0) (ht : e.target = p) (hst : e.stamp ≠ s.l2.tick) :
    applyMove i p fid mac s = putL2 i { e with stamp := s.l2.tick } s := by
  have hown : l2Own e p = true := decide_eq_true ⟨hk, ht⟩
  have hrefresh : applyRefresh i s = putL2 i { l2At i s with stamp := s.l2.tick } s := if_neg (by rw [← he]; exact hst)
  unfold applyMove
  dsimp only
  rw [← he, hown, if_pos rfl, hrefresh, ← he]

end

theorem withNote_cases (n : Nat) (f : State → State) (s : State) :
    (cf l2tCfg_notifyEn s = 0 → withNote n f s = f s) ∧
    (cf l2tCfg_notifyEn s = 1 → noteFits s = true → withNote n f s = putNote n (f s)) ∧
    (cf l2tCfg_notifyEn s = 1 → noteFits s = false → withNote n f s = raise bncQueueFull (l2Stat 5 s)) := by
  refine ⟨fun h => if_pos h, fun h hf => ?_, fun h hf => ?_⟩
  · unfold withNote
    rw [h, if_neg Nat.one_ne_zero]
    exact if_pos hf
  · unfold withNote
    rw [h, if_neg Nat.one_ne_zero, hf]
    rfl

/-! ### A host write and a host delete -/

section
variable {c : Nat} {x e : L2Entry} {s : State}

theorem l2Written_keeps (x : L2Entry) (s : State) :
    (l2Written x s).fid = x.fid ∧ (l2Written x s).mac = x.mac ∧ l2FieldsOk (l2Written x s) = l2FieldsOk x := by
  unfold l2Written
  split <;> exact ⟨rfl, rfl, rfl⟩

/-- A host write of a defined entry that stands in no port's learned count is never refused by the limit. -/
theorem applyHostWrite_uncounted (he : e = l2Written x s) (hok : l2FieldsOk x = true) (hp : l2CountPort e = none) :
    (∀ i, l2Find x.fid x.mac s = some i → applyHostWrite c x s = l2Answer c i 0 (l2Replace i e s)) ∧
    (∀ i, l2Find x.fid x.mac s = none → l2Room x.fid x.mac s = some i → applyHostWrite c x s = l2Answer c i 0 (l2Replace i e s)) ∧
    (l2Find x.fid x.mac s = none → l2Room x.fid x.mac s = none → applyHostWrite c x s = l2Answer c 0 2 s) := by
  obtain ⟨hfid, hmac, hfields⟩ := l2Written_keeps x s
  rw [← he] at hfid hmac hfields
  rw [hok] at hfields
  refine ⟨fun i hf => ?_, fun i hf hr => ?_, fun hf hr => ?_⟩
  · simp only [applyHostWrite, ← he, hfid, hmac, hfields, hp, hf, Bool.not_true, Bool.false_eq_true, if_false]
  · simp only [applyHostWrite, ← he, hfid, hmac, hfields, hp, hf, hr, Bool.not_true, Bool.false_eq_true, if_false]
  · simp only [applyHostWrite, ← he, hfid, hmac, hfields, hp, hf, hr, Bool.not_true, Bool.false_eq_true, if_false]

theorem applyHostDelete_cases (c fid mac : Nat) (s : State) :
    (∀ i, l2Find fid mac s = some i →
      applyHostDelete c fid mac s = wrC l2tEntryStamp_stamp c (l2At i s).stamp (l2Answer c i 0 (l2Replace i {} s))) ∧
    (l2Find fid mac s = none → applyHostDelete c fid mac s = l2Answer c 0 1 s) := by
  refine ⟨fun i hf => ?_, fun hf => ?_⟩
  · unfold applyHostDelete
    rw [hf]
  · unfold applyHostDelete
    rw [hf]

end

/-! ### The operations of L2T.OP -/

theorem wordField_withOp (v : Word) (k : Nat) : wordField (withOp v k) 0 3 = k % 8 := wordField_wordWith_same v (by decide)

theorem wordField_withOp_index (v : Word) (k : Nat) : wordField (withOp v k) 4 20 = wordField v 4 20 :=
  wordField_wordWith_other v (by decide) (.inl (by decide))

theorem l2OpWrite_cases (w : Window) (v : Word) (s : State) :
    l2OpWrite w (withOp v 1) s = l2Lookup (winIdx w) s ∧
    l2OpWrite w (withOp v 2) s = enqueueL2 (.hostWrite (winIdx w) (l2KeyEntry (winIdx w) s)) (wrC l2tOp_busy (winIdx w) 1 s) ∧
    l2OpWrite w (withOp v 3) s = enqueueL2 (.hostDelete (winIdx w) (rdC l2tKeyHi_fid (winIdx w) s) (l2KeyMac (winIdx w) s))
      (wrC l2tOp_busy (winIdx w) 1 s) ∧
    l2OpWrite w (withOp v 4) s = l2ReadIndex (winIdx w) (wordField v 4 20) s := by
  unfold l2OpWrite
  dsimp only
  rw [wordField_withOp, wordField_withOp, wordField_withOp, wordField_withOp, wordField_withOp_index v 4]
  exact ⟨rfl, rfl, rfl, rfl⟩

theorem l2Lookup_cases (c : Nat) (s : State) :
    (∀ i, l2Find (rdC l2tKeyHi_fid c s) (l2KeyMac c s) s = some i → l2Lookup c s = l2Answer c i 0 (l2ShowData c (l2At i s) s)) ∧
    (l2Find (rdC l2tKeyHi_fid c s) (l2KeyMac c s) s = none → l2Lookup c s = l2Answer c 0 1 s) := by
  refine ⟨fun i hf => ?_, fun hf => ?_⟩
  · unfold l2Lookup
    rw [hf]
  · unfold l2Lookup
    rw [hf]

theorem l2ReadIndex_cases {c i : Nat} {e : L2Entry} {s : State} (he : e = l2At i s) (hi : i < 532480) :
    (e.valid = true → e.bad = false → l2ReadIndex c i s = l2Answer c i 0 (l2ShowData c e (wrC l2tKeyLo_macLo c e.mac
      (wrC l2tKeyHi_macHi c (e.mac / 2 ^ 32) (wrC l2tKeyHi_fid c e.fid s))))) ∧
    (e.valid = false ∨ e.bad = true → l2ReadIndex c i s = l2Answer c i 1 s) := by
  subst he
  refine ⟨fun hv hb => if_neg fun h => ?_, fun h => if_pos ?_⟩
  · rw [hv, hb] at h
    exact h.elim (Nat.not_le.2 hi) (by decide)
  · exact .inr (h.imp (fun hv => by rw [hv]; rfl) id)

theorem l2Answer_reads (c i res : Nat) (s : State) :
    rdC l2tOp_busy c (l2Answer c i res s) = 0 ∧ rdC l2tOp_result c (l2Answer c i res s) = res % 2 ^ l2tOp_result.w ∧
      rdC l2tOp_index c (l2Answer c i res s) = i % 2 ^ l2tOp_index.w := by
  unfold l2Answer
  refine ⟨?_, ?_, rdX_wrX_same _ _ _ _ _ rfl⟩
  · rw [rdC_wrC_bits_same _ _ (by decide), rdC_wrC_bits_same _ _ (by decide)]
    exact rdX_wrX_same _ _ _ _ _ rfl
  · rw [rdC_wrC_bits_same _ _ (by decide)]
    exact rdX_wrX_same _ _ _ _ _ rfl

/-! ### What lookups and replacements give -/

theorem l2Find_in_bucket {fid mac i : Nat} {s : State} (h : l2Find fid mac s = some i) (hi : i < 524288) :
    (l2At i s).valid = true ∧ (l2At i s).bad = false ∧ (l2At i s).fid = fid ∧ (l2At i s).mac = mac := by
  unfold l2Find at h
  dsimp only at h
  split at h
  · rename_i j hj
    have hij : j = i := Option.some.inj h
    have hhit := List.find?_some hj
    rw [hij] at hhit
    simp only [Bool.and_eq_true, Bool.not_eq_true', beq_iff_eq] at hhit
    obtain ⟨⟨⟨hv, hb⟩, hf⟩, hm⟩ := hhit
    exact ⟨hv, hb, hf, hm⟩
  · obtain ⟨e, he, rfl⟩ := Option.map_eq_some_iff.1 h
    have hhit := List.find?_some he
    rw [Bool.and_eq_true, decide_eq_true_eq] at hhit
    exact absurd hi (Nat.not_lt.2 hhit.1)

theorem l2FreeOverflow_go {s : State} (n : Nat) : ∀ {i j : Nat}, l2FreeOverflow.go s n i = some j → (l2At j s).valid = false := by
  induction n with
  | zero => exact fun h => absurd h (by unfold l2FreeOverflow.go; simp)
  | succ n ih =>
    intro i j h
    unfold l2FreeOverflow.go at h
    split at h
    · exact ih h
    · rename_i hv
      rw [← Option.some.inj h]
      exact Bool.eq_false_iff.2 hv

theorem l2Room_free {fid mac i : Nat} {s : State} (h : l2Room fid mac s = some i) : (l2At i s).valid = false := by
  unfold l2Room at h
  split at h
  · rename_i j hj
    have hfree := List.find?_some hj
    rw [Option.some.inj h, Bool.not_eq_true'] at hfree
    exact hfree
  · exact l2FreeOverflow_go _ h

theorem l2At_of_entries {i : Nat} {s t : State} (h : t.l2 = s.l2) : l2At i t = l2At i s := congrArg (fun x : L2State => sget l2Default x.entries i) h

theorem l2Replace_l2 (i : Nat) (e : L2Entry) (s : State) : (l2Replace i e s).l2 = (putL2 i e s).l2 := by
  unfold l2Replace
  dsimp only
  cases l2CountPort (l2At i s) with
  | none =>
    cases l2CountPort e with
    | none => rfl
    | some q => rfl
  | some p =>
    cases l2CountPort e with
    | none => rfl
    | some q => rfl

theorem l2At_l2Replace (i : Nat) (e : L2Entry) (s : State) : l2At i (l2Replace i e s) = e :=
  (l2At_of_entries (l2Replace_l2 i e s)).trans (sget_sset_same _ _ _ _)

theorem l2AgingTick_cases {s u : State} (hu : u = { s with l2 := { s.l2 with tick := (s.l2.tick + 1) % 4096, recent := [] } }) :
    (blockOn .l2t s = true → l2AgingTick s =
      feedScan { u with l2 := { u.l2 with due := (u.l2.entries.filter (fun e => l2Expired e.2 u)).map (·.1) } }) ∧
    (blockOn .l2t s = false → l2AgingTick s = u) := by
  subst hu
  exact ⟨fun h => if_pos h, fun h => if_neg (fun h' => Bool.false_ne_true (h.symm.trans h'))⟩

/-- Settles O41: each change by what the update engine applies, the answers by what the table holds. -/
theorem stationsAreLearnedMovedAndAged : Obligations.StationsAreLearnedMovedAndAged := by
  unfold Obligations.StationsAreLearnedMovedAndAged
  intro s
  refine ⟨fun n hn => by subst hn; rfl, fun hq hd => ?_, fun hq => exec_l2UpdateApply_of_none hq,
    fun rest u p fid mac hq hu hoff => ?_, fun rest u p fid mac hq hu hon => ?_, fun n f => withNote_cases n f s,
    fun rest u i e hq hu he => ⟨fun hx => ?_, fun hx => ?_⟩, fun rest u c x e hq hu he hok hp => ?_, fun rest u c fid mac hq hu => ?_,
    fun w v c ha hc => ?_, fun c i res => ⟨_, rfl, l2Answer_reads c i res s⟩, fun u hu => ?_, fun fid mac i hf hi => l2Find_in_bucket hf hi,
    fun fid mac i hr => l2Room_free hr, fun i e => l2At_l2Replace i e s, rfl⟩
  · rw [exec_l2UpdateApply_of_none hq, feedScan_of_none_due hd]
  · exact exec_l2UpdateApply_of_first hq hu (applyL2_learn_off (by rw [hu]; exact hoff))
  · have hlearn : applyL2 (.learn p fid mac) u = applyLearn p fid mac u := applyL2_learn_running (by rw [hu]; exact hon)
    have htick : u.l2.tick = s.l2.tick := by rw [hu]
    rw [← htick]
    exact ⟨fun i hf hl hr => exec_l2UpdateApply_of_first hq hu (hlearn.trans (applyLearn_creates hf hl hr)),
      fun hf hl => exec_l2UpdateApply_of_first hq hu (hlearn.trans (applyLearn_at_limit hf hl)),
      fun hf hl hr => exec_l2UpdateApply_of_first hq hu (hlearn.trans (applyLearn_full hf hl hr)),
      fun i e hf he hst hk ht hl => exec_l2UpdateApply_of_first hq hu ((hlearn.trans (applyLearn_found hf)).trans (applyMove_moves he hst ht hl)),
      fun i e hf he hk ht hst => exec_l2UpdateApply_of_first hq hu ((hlearn.trans (applyLearn_found hf)).trans (applyMove_refreshes he hk ht hst))⟩
  · have htick : u.l2.tick = s.l2.tick := by rw [hu]
    rw [← htick]
    subst he
    exact exec_l2UpdateApply_of_first hq hu (if_pos hx)
  · subst he
    exact exec_l2UpdateApply_of_first hq hu (if_neg fun h => Bool.false_ne_true (hx.symm.trans h))
  · have he' : e = l2Written x u := by rw [he, hu]; rfl
    obtain ⟨hfound, hroom, hfull⟩ := applyHostWrite_uncounted (c := c) he' hok hp
    exact ⟨fun i hf => exec_l2UpdateApply_of_first hq hu (hfound i hf), fun i hf hr => exec_l2UpdateApply_of_first hq hu (hroom i hf hr),
      fun hf hr => exec_l2UpdateApply_of_first hq hu (hfull hf hr)⟩
  · obtain ⟨hfound, hnone⟩ := applyHostDelete_cases c fid mac u
    exact ⟨fun i hf => exec_l2UpdateApply_of_first hq hu (hfound i hf), fun hf => exec_l2UpdateApply_of_first hq hu (hnone hf)⟩
  · subst hc
    obtain ⟨h1, h2, h3, h4⟩ := l2OpWrite_cases w v s
    obtain ⟨hfound, hnone⟩ := l2Lookup_cases (winIdx w) s
    refine ⟨fun i hf => congrArg Host.Outcome.next ((writing_of_admits ha _).trans (h1.trans (hfound i hf))),
      fun hf => congrArg Host.Outcome.next ((writing_of_admits ha _).trans (h1.trans (hnone hf))),
      congrArg Host.Outcome.next ((writing_of_admits ha _).trans h2), congrArg Host.Outcome.next ((writing_of_admits ha _).trans h3),
      fun i e hi he hlt => ?_⟩
    subst hi
    obtain ⟨hvalid, hbad⟩ := l2ReadIndex_cases (c := winIdx w) he hlt
    exact ⟨fun hv hb => congrArg Host.Outcome.next ((writing_of_admits ha _).trans (h4.trans (hvalid hv hb))),
      fun h => congrArg Host.Outcome.next ((writing_of_admits ha _).trans (h4.trans (hbad h)))⟩
  · obtain ⟨hon, hoff⟩ := l2AgingTick_cases hu
    exact ⟨fun h => congrArg Host.Outcome.next (hon h), fun h => congrArg Host.Outcome.next (hoff h)⟩

end Sys2Proof.Machine
end

section
/-! PROOFS. Rule versions on one device: staging, the check, the switch and the freeing (R207 to R212). -/

namespace Sys2Proof.Machine

/-! ### Staging -/

theorem stageChange_of_free {s : State} (h : stagingLocked s = false) (f : State → State) : stageChange f s = f s :=
  if_neg (by rw [h]; exact Bool.false_ne_true)

theorem stageChange_of_locked {s : State} (h : stagingLocked s = true) (f : State → State) :
    stageChange f s = raise clsStageRefused (wr clsStageCtl_stageRefused 1 s) := if_pos h

theorem stageCtlWrite_copy {v : Word} {s u : State} (hu : u = wr clsStageCtl_mode (wordField v 2 1) s) (h0 : bit v.toNat 0 = true)
    (h1 : bit v.toNat 1 = false) (h9 : bit v.toNat 9 = false) :
    stageCtlWrite v s = stageChange (fun s => wr clsStageCtl_busy 1 { s with ver := { s.ver with copying := true } }) u := by
  unfold stageCtlWrite
  dsimp only
  rw [h0, h1, h9, ← hu]
  rfl

theorem stageCtlWrite_clear {v : Word} {s u : State} (hu : u = wr clsStageCtl_mode (wordField v 2 1) s) (h0 : bit v.toNat 0 = false)
    (h1 : bit v.toNat 1 = true) (h9 : bit v.toNat 9 = false) : stageCtlWrite v s = stageChange stageClear u := by
  unfold stageCtlWrite
  dsimp only
  rw [h0, h1, h9, ← hu]
  rfl

theorem stageDataWrite_of_refused {v : Word} {s : State} (h : stagingLocked s = true ∨ rd clsStageCtl_mode s = 1) :
    stageDataWrite 15 v s = raise clsStageRefused (wr clsStageCtl_stageRefused 1 s) :=
  if_pos (by rw [Bool.or_eq_true, decide_eq_true_eq]; exact h)

theorem stageDataWrite_last {v : Word} {s : State} (hl : stagingLocked s = false) (hm : rd clsStageCtl_mode s = 0) :
    stageDataWrite 15 v s = stageRuleWrite (wrX clsStageData_data 15 0 v.toNat s) := by
  unfold stageDataWrite
  rw [hl, hm]
  rfl

theorem stageRuleWrite_spec {u : State} (ha : rd clsStageAddr_autoInc u = 0) :
    ∃ h, stageRuleWrite u = putHalf (curVersion u + 1) h u ∧
      h.rules = foldOver (List.range 16) (fun k m => sset (fun _ => (0 : Word)) m (16 * rd clsStageAddr_index u + k)
        (reg (clsStageData_data.off + 4 * k) 0 u)) (staging u).rules ∧
      h.poisoned = (staging u).poisoned.filter (· != rd clsStageAddr_index u) ∧ h.count = (staging u).count ∧ h.mode = (staging u).mode := by
  have hno : ¬ (rd clsStageAddr_autoInc u = 1) := by rw [ha]; exact Nat.zero_ne_one
  exact ⟨_, if_neg hno, rfl, rfl, rfl, rfl⟩

/-! ### The check, the switch and the freeing -/

theorem clsCheckDone_of_none {s : State} (h : s.ver.check = none) : clsCheckDone s = s := by
  unfold clsCheckDone
  rw [h]

theorem clsCheckDone_of_failed {timed : Bool} {c : Nat} {s : State} (h : s.ver.check = some timed) (hc : clsCheck s = some c) :
    clsCheckDone s = clsRefuse c s := by
  unfold clsCheckDone
  rw [h, hc]

theorem clsCheckDone_of_passed {timed : Bool} {s : State} (h : s.ver.check = some timed) (hc : clsCheck s = none) :
    clsCheckDone s =
      if isManager { s with ver := { s.ver with check := none } } && decide (otherMembers { s with ver := { s.ver with check := none } } ≠ 0) then
        sysPrepare (commitOf .cls { s with ver := { s.ver with check := none } }).armed { s with ver := { s.ver with check := none } }
      else if timed then { s with ver := { s.ver with check := none } }
      else clsTake (curVersion { s with ver := { s.ver with check := none } } + 1) { s with ver := { s.ver with check := none } } := by
  unfold clsCheckDone
  rw [h, hc]

theorem clsCheckDone_alone {s u : State} (hu : u = { s with ver := { s.ver with check := none } }) (h : s.ver.check = some false)
    (hc : clsCheck s = none) (ho : otherMembers s = 0) : clsCheckDone s = clsTake (curVersion s + 1) u := by
  have hnot : (isManager u && decide (otherMembers u ≠ 0)) = false := by
    have hmembers : otherMembers u = 0 := by rw [hu]; exact ho
    rw [hmembers, decide_eq_false (fun h => h rfl), Bool.and_false]
  have hcur : curVersion u = curVersion s := by rw [hu]; rfl
  rw [clsCheckDone_of_passed h hc, ← hu, hnot, if_neg Bool.false_ne_true, if_neg Bool.false_ne_true, hcur]

/-- Settles O44, command by command. -/
theorem ruleVersionsAreStagedCheckedAndFreed : Obligations.RuleVersionsAreStagedCheckedAndFreed := by
  unfold Obligations.RuleVersionsAreStagedCheckedAndFreed
  intro w v s ha
  refine ⟨fun u hu h0 h1 h9 => ?_, fun x hx hc => ?_, fun hc => congrArg Host.Outcome.next (if_neg ?_), fun u hu h0 h1 h9 => ?_,
    fun u hu h30 => ?_, fun u hu hl hm hinc => ?_, fun h => ?_, fun h => ?_, fun timed c h hc => ?_, fun u hu h hc ho => ?_, fun hd ho hi => ?_,
    fun h => congrArg Host.Outcome.next (if_neg ?_), fun t ht hlim h8 => ?_, fun c => ⟨_, rfl, rfl⟩, fun n x u hx hu => ?_, rfl⟩
  · have hwrite := (writing_of_admits ha (stageCtlWrite v)).trans (stageCtlWrite_copy hu h0 h1 h9)
    exact ⟨fun hl => congrArg Host.Outcome.next (hwrite.trans (stageChange_of_free hl _)),
      fun hl => congrArg Host.Outcome.next (hwrite.trans (stageChange_of_locked hl _))⟩
  · subst hx
    exact congrArg Host.Outcome.next (if_pos hc)
  · rw [hc]
    exact Bool.false_ne_true
  · have hwrite := (writing_of_admits ha (stageCtlWrite v)).trans (stageCtlWrite_clear hu h0 h1 h9)
    exact ⟨fun hl => congrArg Host.Outcome.next (hwrite.trans (stageChange_of_free hl _)),
      fun hl => congrArg Host.Outcome.next (hwrite.trans (stageChange_of_locked hl _))⟩
  · subst hu
    exact congrArg Host.Outcome.next ((writing_of_admits ha _).trans (if_pos h30))
  · subst hu
    obtain ⟨h, hwrite, hrules⟩ := stageRuleWrite_spec hinc
    exact ⟨h, congrArg Host.Outcome.next ((writing_of_admits ha _).trans ((stageDataWrite_last hl hm).trans hwrite)), hrules⟩
  · exact congrArg Host.Outcome.next ((writing_of_admits ha _).trans (stageDataWrite_of_refused h))
  · exact congrArg Host.Outcome.next (clsCheckDone_of_none h)
  · exact congrArg Host.Outcome.next (clsCheckDone_of_failed h hc)
  · exact congrArg Host.Outcome.next (clsCheckDone_alone hu h hc ho)
  · refine congrArg Host.Outcome.next (if_pos ?_)
    rw [show draining s = true from decide_eq_true hd, ho, decide_eq_true hi]
    rfl
  · rw [Bool.and_eq_true, Bool.and_eq_true, Bool.not_eq_true', decide_eq_true_eq]
    rintro ⟨⟨hd, ho⟩, hi⟩
    rcases h with h | h | h
    · exact Nat.zero_ne_one (h.symm.trans (of_decide_eq_true hd))
    · exact Bool.false_ne_true (ho.symm.trans h)
    · exact hi h
  · have hwrite : drainCtlWrite w v s = if bit v.toNat 8 && draining t then raise clsForcedFree (freeVersion t) else t := by
      unfold drainCtlWrite
      dsimp only
      rw [if_neg hlim, ← ht]
    refine ⟨fun hd => ?_, fun hd => ?_⟩
    · exact congrArg Host.Outcome.next ((writing_of_admits ha _).trans (hwrite.trans (if_pos (by rw [h8, hd]; rfl))))
    · exact congrArg Host.Outcome.next ((writing_of_admits ha _).trans (hwrite.trans (if_neg (by rw [h8, hd]; exact Bool.false_ne_true))))
  · subst hx hu
    unfold takeVersion
    dsimp only
    have hfirst : b2n (!decide (curVersion s = 0)) = if curVersion s = 0 then 0 else 1 := by
      by_cases h : curVersion s = 0
      · rw [if_pos h, decide_eq_true h]
        rfl
      · rw [if_neg h, decide_eq_false h]
        rfl
    rw [hfirst]

end Sys2Proof.Machine
end

section
/-! PROOFS. Rule versions across the mesh: preparing, committing, aborting and freeing (R489, R507 to R509). -/

namespace Sys2Proof.Machine

/-! ### A control message that is next in order -/

/-- On an active link of the device a control message with no bad flit comes next in order; `u` is the state in which it acts. -/
structure NextInOrder (k seq : Nat) (s u : State) : Prop where
  link : k < 8
  active : linkActive k s = true
  good : (takeBad k (count tieCtrs 3 k 1 s)).1 = false
  next : seq = ((tieLink k (takeBad k (count tieCtrs 3 k 1 s)).2).rxSeq + 1) % 65536
  taken : u = modTieLink k (fun x => { x with rxSeq := seq }) (takeBad k (count tieCtrs 3 k 1 s)).2

theorem NextInOrder.onControl {k seq : Nat} {s u : State} (h : NextInOrder k seq s u) {ok : Bool} (hok : ok = true) (f : State → State) :
    onControl k seq ok f s = .next (f u) := by
  have hact : ¬ ((takeBad k (count tieCtrs 3 k 1 s)).1 = true ∨ seq ≠ ((tieLink k (takeBad k (count tieCtrs 3 k 1 s)).2).rxSeq + 1) % 65536) := by
    rw [h.good]
    exact fun hbad => hbad.elim (fun h' => Bool.false_ne_true h') fun h' => h' h.next
  have hreceive : receive k seq f s = f u := by
    rw [h.taken]
    exact if_neg hact
  have hlink : k < chanCount .tie := h.link
  unfold Sys2Proof.Machine.onControl
  rw [onlyIf_of_true h.active, hreceive]
  exact guarded_of_true (by rw [hok, decide_eq_true hlink]; rfl) _

/-! ### A system commit -/

theorem versionPrepare_cases (k n : Nat) (u : State) :
    (clsBusy u = false → clsCheck u = none → versionPrepare k n u = versionMsg k 2 (bytesLE 4 n) (wr tieSysStatus_phase 1 (prepare n u))) ∧
    (clsBusy u = true → versionPrepare k n u = versionMsg k 3 (bytesLE 1 1) u) ∧
    (∀ c, clsBusy u = false → clsCheck u = some c → versionPrepare k n u = versionMsg k 3 (bytesLE 1 c) u) := by
  refine ⟨fun hb hc => ?_, fun hb => ?_, fun c hb hc => ?_⟩
  · unfold versionPrepare
    dsimp only
    rw [hb, if_neg Bool.false_ne_true, hc]
  · unfold versionPrepare
    dsimp only
    rw [hb, if_pos rfl]
  · unfold versionPrepare
    dsimp only
    rw [hb, if_neg Bool.false_ne_true, hc]

theorem versionReady_of_awaited {k n : Nat} {u : State} (ha : awaited k u = true) (hp : u.mesh.ver.prepared = some n) :
    versionReady k n u = if (modSys (fun x => { x with waiting := clearBit x.waiting k }) u).mesh.ver.waiting = 0 then
      sysCommit n (modSys (fun x => { x with waiting := clearBit x.waiting k }) u)
      else modSys (fun x => { x with waiting := clearBit x.waiting k }) u :=
  if_pos (by rw [ha, decide_eq_true hp]; rfl)

theorem sysPrepare_of_others {stated : Option (Nat × Nat)} {s : State} (h : bitmap (others s) ≠ 0) :
    sysPrepare stated s = versionAll 1 (bytesLE 4 (curVersion s + 1)) (modSys (fun v => { v with waiting := bitmap (others s), stated := stated })
      (wr tieSysStatus_phase 1 (prepare (curVersion s + 1) s))) := if_neg h

theorem versionPrepareTimeout_of_first {k : Nat} {s : State} (h : tieLinks.find? (fun k => awaited k s) = some k) :
    versionPrepareTimeout s = sysRefused k ((takeFree s).1 % 16) (takeFree s).2 := by
  unfold versionPrepareTimeout
  rw [h]

theorem versionPrepareTimeout_of_none {s : State} (h : ∀ k, k < 8 → awaited k s = false) : versionPrepareTimeout s = s := by
  have hnone : tieLinks.find? (fun k => awaited k s) = none :=
    List.find?_eq_none.2 fun k hk => by
      rw [h k (List.mem_range.1 hk)]
      exact Bool.false_ne_true
  unfold versionPrepareTimeout
  rw [hnone]

theorem clsCheckDone_system {timed : Bool} {s u : State} (hu : u = { s with ver := { s.ver with check := none } }) (h : s.ver.check = some timed)
    (hc : clsCheck s = none) (hm : isManager s = true) (ho : otherMembers s ≠ 0) : clsCheckDone s = sysPrepare (commitOf .cls u).armed u := by
  have hm' : isManager u = true := by rw [hu]; exact hm
  have ho' : otherMembers u ≠ 0 := by rw [hu]; exact ho
  rw [clsCheckDone_of_passed h hc, ← hu]
  exact if_pos (by rw [hm', decide_eq_true ho']; rfl)

/-- Settles O45, message by message. -/
theorem systemCommitsRunAcrossTheMesh : Obligations.SystemCommitsRunAcrossTheMesh := by
  unfold Obligations.SystemCommitsRunAcrossTheMesh
  intro s
  refine ⟨fun u timed hu h hc hm ho => congrArg Host.Outcome.next (clsCheckDone_system hu h hc hm ho), fun stated n t hn ht hw => ?_,
    fun n t ht => ?_, fun k code t ht => ?_, fun k seq u hk hl hb hs hu => ?_, fun k r hk hr => ?_,
    fun h => congrArg Host.Outcome.next (versionPrepareTimeout_of_none h), fun h => congrArg Host.Outcome.next (onlyIf_of_true h _ _),
    fun h => congrArg Host.Outcome.next (onlyIf_of_false h _ _)⟩
  · subst hn ht
    exact sysPrepare_of_others hw
  · subst ht
    rfl
  · subst ht
    rfl
  · have hnext : NextInOrder k seq s u := ⟨hk, hl, hb, hs, hu⟩
    refine ⟨fun n => ?_, fun n t ht ha hp => ?_, fun code => ⟨fun ha => ?_, fun ha => ?_⟩, fun n sec ns => ⟨fun hp => ?_, fun hp => ?_⟩,
      fun hp => ?_, fun hp => ?_⟩
    · have hexec : exec (.versionPrepare k seq n) s = .next (versionPrepare k n u) := hnext.onControl rfl _
      rw [hexec]
      obtain ⟨hready, hbusy, hfail⟩ := versionPrepare_cases k n u
      exact ⟨fun h1 h2 => congrArg Host.Outcome.next (hready h1 h2), fun h1 => congrArg Host.Outcome.next (hbusy h1),
        fun c h1 h2 => congrArg Host.Outcome.next (hfail c h1 h2)⟩
    · have hexec : exec (.versionReady k seq n) s = .next (versionReady k n u) := hnext.onControl rfl _
      rw [hexec, versionReady_of_awaited ha hp, ← ht]
      exact ⟨fun hz => congrArg Host.Outcome.next (if_pos hz), fun hz => congrArg Host.Outcome.next (if_neg hz)⟩
    · exact (hnext.onControl rfl _).trans (congrArg Host.Outcome.next (if_pos ha))
    · exact (hnext.onControl rfl _).trans (congrArg Host.Outcome.next (if_neg (by rw [ha]; exact Bool.false_ne_true)))
    · exact (hnext.onControl rfl _).trans (congrArg Host.Outcome.next (if_pos hp))
    · exact (hnext.onControl rfl _).trans (congrArg Host.Outcome.next (if_neg hp))
    · exact (hnext.onControl rfl _).trans (congrArg Host.Outcome.next (if_pos hp))
    · exact (hnext.onControl rfl _).trans (congrArg Host.Outcome.next (if_neg (by rw [hp]; exact Bool.false_ne_true)))
  · subst hr
    exact congrArg Host.Outcome.next (versionPrepareTimeout_of_first hk)

/-! ### Freeing a version -/

theorem freeRequested_cases (u : State) :
    (u.mesh.ver.freeing = false → freeRequested u = u) ∧
    (u.mesh.ver.freeing = true → freeRequested u = modSys (fun v => { v with markers := 0 }) u) :=
  ⟨fun h => if_neg (by rw [h]; exact Bool.false_ne_true), fun h => if_pos h⟩

/-- Without a round, or with a marker missing, nothing follows. -/
theorem markersIn_of_missing {t : State} (h : t.mesh.ver.freeing = false ∨ bitmap (others t) &&& t.mesh.ver.markers ≠ bitmap (others t)) :
    markersIn t = t := by
  refine if_neg ?_
  rw [Bool.and_eq_true, decide_eq_true_eq]
  rintro ⟨hf, hm⟩
  exact h.elim (fun h' => Bool.false_ne_true (h'.symm.trans hf)) fun h' => h' hm

/-- A device that follows a manager ends its round, and confirms if its count is zero. -/
theorem markersIn_of_member {t : State} (hf : t.mesh.ver.freeing = true) (hm : bitmap (others t) &&& t.mesh.ver.markers = bitmap (others t))
    (hg : isManager t = false) :
    (idleHere t = false → markersIn t = endRound t) ∧
    (∀ m, idleHere t = true → managerOf t = some m → markersIn t = versionMsg m 8 [] (endRound t)) := by
  have hall : (t.mesh.ver.freeing && decide (bitmap (others t) &&& t.mesh.ver.markers = bitmap (others t))) = true := by
    rw [hf, decide_eq_true hm]
    rfl
  refine ⟨fun hi => ?_, fun m hi hmgr => ?_⟩
  · unfold markersIn
    dsimp only
    rw [hall, if_pos rfl, hi, if_neg Bool.false_ne_true, hg, if_neg Bool.false_ne_true]
  · unfold markersIn
    dsimp only
    rw [hall, if_pos rfl, hi, if_pos rfl, hg, if_neg Bool.false_ne_true, hmgr]

theorem freeAll_cases (t : State) :
    (t.mesh.ver.confirms ≠ 0 → freeAll t = t) ∧
    (∀ x, x = wr tieSysStatus_phase 0 (endRound (versionAll 9 [] t)) → t.mesh.ver.confirms = 0 →
      freeAll t = if draining x then freeVersion x else x) := by
  refine ⟨fun h => if_neg h, fun x hx h => ?_⟩
  subst hx
  exact if_pos h

/-- Settles O46, message by message. -/
theorem versionsAreFreedAcrossTheMesh : Obligations.VersionsAreFreedAcrossTheMesh := by
  unfold Obligations.VersionsAreFreedAcrossTheMesh
  intro k seq s u hk hl hb hs hu
  have hnext : NextInOrder k seq s u := ⟨hk, hl, hb, hs, hu⟩
  obtain ⟨hfresh, hagain⟩ := freeRequested_cases u
  refine ⟨fun hf => ?_, fun hf => ?_, fun sub body => rfl, fun t ht => ⟨?_, fun h => markersIn_of_missing h, fun hf hm hg => markersIn_of_member hf hm hg⟩,
    fun t ht hg hf => ?_, fun hg => ?_, fun hd => ?_, fun hd => ?_⟩
  · refine (hnext.onControl rfl _).trans (congrArg Host.Outcome.next ?_)
    rw [hfresh hf]
    rfl
  · refine (hnext.onControl rfl _).trans (congrArg Host.Outcome.next ?_)
    rw [hagain hf]
    rfl
  · subst ht
    exact hnext.onControl rfl _
  · have hexec : exec (.versionConfirm k seq) s = .next (freeAll t) := by
      subst ht
      exact (hnext.onControl rfl _).trans (congrArg Host.Outcome.next (if_pos (by rw [hg, hf]; rfl)))
    obtain ⟨hwait, hlast⟩ := freeAll_cases t
    exact ⟨fun hc => hexec.trans (congrArg Host.Outcome.next (hwait hc)), fun x hx hc => hexec.trans (congrArg Host.Outcome.next (hlast x hx hc))⟩
  · exact (hnext.onControl rfl _).trans (congrArg Host.Outcome.next (if_neg (by rw [hg, Bool.false_and]; exact Bool.false_ne_true)))
  · exact (hnext.onControl rfl _).trans (congrArg Host.Outcome.next (if_pos hd))
  · exact (hnext.onControl rfl _).trans (congrArg Host.Outcome.next (if_neg (by rw [hd]; exact Bool.false_ne_true)))

end Sys2Proof.Machine
end

section
/-! PROOFS. Heartbeats and time exchanges across the mesh (R489, R504 to R506, R510, R511). -/

namespace Sys2Proof.Machine

/-! ### A tick -/

theorem linkTick_heard {k : Nat} {s : State} (hw : watched k s = true) (hh : (tieLink k s).heard = true) :
    linkTick k s = (false, wrC tieLinkStatus_missed k 0 (putTieLink k { tieLink k s with heard := false, lost := false } s)) := by
  unfold linkTick
  dsimp only
  rw [hw, hh]
  rfl

theorem linkTick_missed {k : Nat} {s t : State} (hw : watched k s = true) (hh : (tieLink k s).heard = false)
    (ht : t = wrC tieLinkStatus_missed k (min 3 (rdC tieLinkStatus_missed k s + 1)) (count tieCtrs 7 k 1 s)) :
    (rdC tieLinkStatus_missed k s < 2 → linkTick k s = (false, t)) ∧
    (rdC tieLinkStatus_missed k s = 2 → (tieLink k s).lost = false →
      linkTick k s = (true, raiseC tiePeerLost k (modTieLink k (fun y => { y with lost := true }) t))) := by
  have htick : linkTick k s = if min 3 (rdC tieLinkStatus_missed k s + 1) = 3 ∧ (tieLink k s).lost = false then
      (true, raiseC tiePeerLost k (modTieLink k (fun y => { y with lost := true }) t)) else (false, t) := by
    rw [ht]
    unfold linkTick
    dsimp only
    rw [hw, hh]
    rfl
  rw [htick]
  exact ⟨fun h => if_neg fun h' => by omega, fun h hl => if_pos ⟨by omega, hl⟩⟩

/-- Each link ticks in turn; the links whose peer became lost are kept. -/
def linksTicked (s : State) : List Nat × State :=
  tieLinks.foldl (fun (a : List Nat × State) j => (if (linkTick j a.2).1 then a.1 ++ [j] else a.1, (linkTick j a.2).2)) ([], s)

/-- The manager is among the links whose peer became lost at this tick. -/
def ManagerLost (fresh : Bool) (s : State) : Prop :=
  (managerOf s = none → fresh = false) ∧ ∀ m, managerOf s = some m → fresh = (linksTicked s).1.contains m

theorem heartbeatTick_of_lost {fresh : Bool} {s : State} (h : ManagerLost fresh s) :
    heartbeatTick s = forwardEvent (freeRound (serveMoves (sendHeartbeats (managerSeen s) (managerTick fresh (absentTick (linksTicked s).2))))) := by
  obtain ⟨hnone, hsome⟩ := h
  unfold heartbeatTick
  dsimp only
  change forwardEvent (freeRound (serveMoves (sendHeartbeats (managerSeen s) (managerTick _ (absentTick (linksTicked s).2))))) = _
  cases hm : managerOf s with
  | none => rw [hnone hm]
  | some m => rw [hsome m hm]; rfl

/-! ### A heartbeat that is received -/

theorem exec_heartbeatReceived {k : Nat} {hb : Heartbeat} {s : State} (hk : k < 8) (ha : linkActive k s = true) :
    exec (.heartbeatReceived k hb) s = .next (heartbeatReceived k hb s) :=
  (guarded_of_true (decide_eq_true (show k < chanCount .tie from hk)) _).trans (congrArg Host.Outcome.next (onlyIf_of_true ha _ _))

/-- What the heartbeat shows of its sender, in the state after the message was taken. -/
def heartbeatShown (k : Nat) (hb : Heartbeat) (s : State) : State :=
  ackLink k hb.ack (wrC tieLinkStatus_peerRole k hb.role (modTieLink k (fun x => { x with
    heard := true, peerSeen := hb.managerSeen, peerLost := hb.lost, peerCur := hb.current
    peerDraining := hb.draining, peerIdle := !hb.draining || hb.idle }) s))

/-- A good heartbeat at a device that is not the manager and does not become it. -/
theorem heartbeatReceived_of_good {k : Nat} {hb : Heartbeat} {s t u : State} (hg : (takeBad k (count tieCtrs 3 k 1 s)).1 = false)
    (ht : t = heartbeatShown k hb (takeBad k (count tieCtrs 3 k 1 s)).2) (hu : u = hearEpoch k hb.epoch (decide (hb.role = 1)) t)
    (hm : isManager u = false) :
    heartbeatReceived k hb s =
      if hb.role = 1 ∧ (decide (rd tieMgrEpoch_epoch t < hb.epoch) = true ∨ rd tieMeshStatus_managerPresent u = 0 ∨ rd tieMeshStatus_managerId u = k) then
        fromManager k hb (if managerOf u = some k then u else followManager k (rd tieMgrEpoch_epoch u) u)
      else u := by
  subst hu ht
  unfold heartbeatReceived
  dsimp only
  rw [hg, if_neg Bool.false_ne_true]
  exact if_neg fun h => Bool.false_ne_true (hm.symm.trans h)

theorem hearEpoch_of_old {k e : Nat} {b : Bool} {t : State} (h : e ≤ rd tieMgrEpoch_epoch t) : hearEpoch k e b t = t := if_pos h

theorem hearEpoch_at_follower {k e : Nat} {t : State} (hm : isManager t = false) : hearEpoch k e false t = t := by
  unfold hearEpoch
  split
  · rfl
  · rw [hm]
    rfl

theorem hearEpoch_follows {k e : Nat} {t : State} (hm : isManager t = false) (h : rd tieMgrEpoch_epoch t < e) :
    hearEpoch k e true t = followManager k e t := by
  unfold hearEpoch
  rw [if_neg (Nat.not_le.2 h), hm]
  rfl

/-- A device that follows a manager keeps its role and knows the manager. -/
theorem followManager_spec {k e : Nat} {t : State} (hk : k < 8) (hm : isManager t = false) :
    isManager (followManager k e t) = false ∧ managerOf (followManager k e t) = some k := by
  have hrole : rd tieMeshStatus_roleLive (followManager k e t) = rd tieMeshStatus_roleLive t := by
    unfold followManager
    rw [rd_wr_other _ _ (by decide), rd_wr_other _ _ (by decide), rd_wr_other _ _ (by decide)]
    rfl
  refine ⟨?_, ?_⟩
  · unfold isManager at hm ⊢
    rw [hrole]
    exact hm
  · have hpresent : rd tieMeshStatus_managerPresent (followManager k e t) = 1 := by
      unfold followManager
      rw [rd_wr_other _ _ (by decide)]
      exact rd_wr_same _ _ _ rfl
    have hid : rd tieMeshStatus_managerId (followManager k e t) = k :=
      (rd_wr_same _ _ _ rfl).trans (Nat.mod_eq_of_lt hk)
    unfold managerOf
    rw [hpresent, hid, if_pos rfl]

theorem managerOf_some {k : Nat} {t : State} (h : managerOf t = some k) : rd tieMeshStatus_managerId t = k := by
  unfold managerOf at h
  split at h
  · exact Option.some.inj h
  · exact absurd h (by simp)

theorem fromManager_cases {k : Nat} {hb : Heartbeat} {s t : State} (ht : t = wr tieMeshStatus_absent hb.absent (wr tieMeshStatus_members hb.members s)) :
    (bit hb.members (selfId t) = false → fromManager k hb s = wr tieMeshStatus_joined 0 t) ∧
    (bit hb.members (selfId t) = true → (rd tieMeshStatus_joined t = 1 ∨ draining t = true) → fromManager k hb s = t) ∧
    (bit hb.members (selfId t) = true → rd tieMeshStatus_joined t ≠ 1 → draining t = false → fromManager k hb s = meshJoin k hb.current t) := by
  have hfrom : fromManager k hb s = if !bit hb.members (selfId t) then wr tieMeshStatus_joined 0 t
      else if rd tieMeshStatus_joined t = 1 ∨ draining t = true then t else meshJoin k hb.current t := by
    rw [ht]
    rfl
  rw [hfrom]
  refine ⟨fun h => if_pos (by rw [h]; rfl), fun h hj => ?_, fun h hj hd => ?_⟩
  · rw [h, Bool.not_true, if_neg Bool.false_ne_true, if_pos hj]
  · have hno : ¬ (rd tieMeshStatus_joined t = 1 ∨ draining t = true) := by
      rw [hd]
      exact fun h' => h'.elim hj fun h'' => Bool.false_ne_true h''
    rw [h, Bool.not_true, if_neg Bool.false_ne_true, if_neg hno]

/-! ### Time exchanges -/

theorem exec_timeTransfer {k sub : Nat} {m : TimeMsg} {s : State} (hk : k < 8) (ha : linkActive k s = true) :
    exec (.timeTransfer k sub m) s = .next (timeTransfer k sub m s) :=
  (guarded_of_true (decide_eq_true (show k < chanCount .tie from hk)) _).trans (congrArg Host.Outcome.next (onlyIf_of_true ha _ _))

section
variable {k sub : Nat} {s u : State}

theorem timeTransfer_request {x now : Nat} (hu : u = (takeBad k (count tieCtrs 3 k 1 s)).2) (hg : (takeBad k (count tieCtrs 3 k 1 s)).1 = false)
    (hn : now = reachedBallsAt k sub u) :
    timeTransfer k sub (.request x) s = sendMsg k 5 (bytesLE 1 1 ++ timeBytes now ++ timeBytes (leavesAt k sub u) ++ [0]) u := by
  subst hn hu
  unfold timeTransfer
  dsimp only
  rw [hg]
  rfl

theorem timeTransfer_unasked {t2 t3 : Nat} {c : Bool} (hu : u = (takeBad k (count tieCtrs 3 k 1 s)).2)
    (hg : (takeBad k (count tieCtrs 3 k 1 s)).1 = false) (h1 : (tieLink k u).t1 = none) :
    timeTransfer k sub (.answer t2 t3 c) s = u := by
  subst hu
  unfold timeTransfer
  dsimp only
  rw [hg, if_neg Bool.false_ne_true, h1]

theorem timeTransfer_answer {t2 t3 t1 e now d : Nat} {c : Bool} {t : State} (hu : u = (takeBad k (count tieCtrs 3 k 1 s)).2)
    (hg : (takeBad k (count tieCtrs 3 k 1 s)).1 = false) (hn : now = reachedBallsAt k sub u) (h1 : (tieLink k u).t1 = some (t1, e))
    (hd : d = unsigned 48 ((timeDiff now t1 - timeDiff t3 t2) / 2))
    (ht : t = wrC tieLinkDelayHi_value k (d / 65536) (wrC tieLinkDelayLo_value k (d % 65536) (modTieLink k (fun x => { x with t1 := none }) u))) :
    timeTransfer k sub (.answer t2 t3 c) s =
      meshSample k ((timeDiff t1 t2 + timeDiff now t3) / 2) (c || decide (e ≠ u.tim.epoch)) t := by
  subst ht hd hn hu
  unfold timeTransfer
  dsimp only
  rw [hg, if_neg Bool.false_ne_true, h1]

end

theorem meshSample_elsewhere {k : Nat} {x : Int} {b : Bool} {t : State} (h : managerOf t ≠ some k) : meshSample k x b t = t := if_pos h

theorem meshSample_stale {k : Nat} {x : Int} {t : State} (h : managerOf t = some k) : meshSample k x true t = raise timSampleStale t := by
  unfold meshSample
  rw [if_neg (not_not_intro h)]
  rfl

/-- Settles O47: the tick by links, a heartbeat by what it shows and whom it makes the device follow, the exchanges by their times. -/
theorem heartbeatsWatchPeersAndCarryTime : Obligations.HeartbeatsWatchPeersAndCarryTime := by
  unfold Obligations.HeartbeatsWatchPeersAndCarryTime
  intro k s hk
  refine ⟨fun h => congrArg Host.Outcome.next (onlyIf_of_false ?_ _ _), fun r fresh hon hrole hr hf => ?_, fun hw hh => linkTick_heard hw hh,
    fun t ht hw hh => linkTick_missed hw hh ht, fun hb b hbad ha => ⟨fun hbt => ?_, fun t hg hrole ht hm => ?_, fun t hg hrole ht hm =>
      ⟨fun hold hnew => ?_, fun hold hmgr => ?_⟩⟩, fun hb t ht => fromManager_cases ht,
    fun sub hsub => guarded_of_true (decide_eq_true hsub) _, fun sub => rfl, fun sub u now hu hg ha hn => ?_⟩
  · rcases h with h | h
    · rw [h, Bool.false_and]
    · rw [decide_eq_false (fun h' => h' h), Bool.and_false]
  · have hlost : ManagerLost fresh s := by
      refine ⟨fun hm => ?_, fun m hm => ?_⟩
      · rw [hf, hm]
      · rw [hf, hm, hr]
        rfl
    have hticked : r = linksTicked s := hr
    rw [hticked]
    refine congrArg Host.Outcome.next ((onlyIf_of_true ?_ _ _).trans (heartbeatTick_of_lost hlost))
    rw [hon, decide_eq_true hrole]
    rfl
  · subst hbad
    rw [exec_heartbeatReceived hk ha]
    exact congrArg Host.Outcome.next (if_pos hbt)
  · subst hbad
    have hhear : hearEpoch k hb.epoch (decide (hb.role = 1)) t = t := by
      rw [decide_eq_false hrole]
      exact hearEpoch_at_follower hm
    rw [exec_heartbeatReceived hk ha, heartbeatReceived_of_good hg ht hhear.symm hm, if_neg fun h => hrole h.1]
  · subst hbad
    have hhear : hearEpoch k hb.epoch (decide (hb.role = 1)) t = followManager k hb.epoch t := by
      rw [decide_eq_true hrole]
      exact hearEpoch_follows hm hold
    obtain ⟨hno, hknown⟩ := followManager_spec (e := hb.epoch) hk hm
    rw [exec_heartbeatReceived hk ha, heartbeatReceived_of_good hg ht hhear.symm hno, if_pos ⟨hrole, .inl (decide_eq_true hold)⟩, if_pos hknown]
    rfl
  · subst hbad
    have hhear : hearEpoch k hb.epoch (decide (hb.role = 1)) t = t := hearEpoch_of_old hold
    rw [exec_heartbeatReceived hk ha, heartbeatReceived_of_good hg ht hhear.symm hm,
      if_pos ⟨hrole, .inr (.inr (managerOf_some hmgr))⟩, if_pos hmgr]
  · have hn' : now = reachedBallsAt k sub u := hn
    refine ⟨fun x => ?_, fun t2 t3 c h1 => ?_, fun t2 t3 c t1 e d t h1 hd ht => ⟨fun hm => ?_, fun hm hc => ?_⟩⟩
    · rw [exec_timeTransfer hk ha, timeTransfer_request hu hg hn']
    · rw [exec_timeTransfer hk ha, timeTransfer_unasked hu hg h1]
    · rw [exec_timeTransfer hk ha, timeTransfer_answer hu hg hn' h1 hd ht, meshSample_elsewhere hm]
    · rw [exec_timeTransfer hk ha, timeTransfer_answer hu hg hn' h1 hd ht, hc, Bool.true_or, meshSample_stale hm]

end Sys2Proof.Machine
end

section
/-! PROOFS. Tie links: capabilities, codewords, frames, steered items and messages sent again (R485 to R496, R513). -/

namespace Sys2Proof.Machine

theorem tieLink_putTieLink_same (k : Nat) (x : TieLinkSt) (s : State) : tieLink k (putTieLink k x s) = x := sget_sset_same _ _ _ _

theorem tieLink_modTieLink_same (k : Nat) (f : TieLinkSt → TieLinkSt) (s : State) : tieLink k (modTieLink k f s) = f (tieLink k s) :=
  tieLink_putTieLink_same _ _ _

theorem tieLink_of_mesh {k : Nat} {s t : State} (h : t.mesh.links = s.mesh.links) : tieLink k t = tieLink k s :=
  congrArg (fun m => sget (fun _ => ({} : TieLinkSt)) m k) h

theorem onTie_of_true {k : Nat} {c : Bool} {f : State → State} {s : State} (hk : k < 8) (hc : c = true) : onTie k c f s = .next (f s) :=
  (guarded_of_true (decide_eq_true (show k < chanCount .tie from hk)) _).trans (congrArg Host.Outcome.next (onlyIf_of_true hc _ _))

theorem onTie_of_false {k : Nat} {c : Bool} {f : State → State} {s : State} (hk : k < 8) (hc : c = false) : onTie k c f s = .next s :=
  (guarded_of_true (decide_eq_true (show k < chanCount .tie from hk)) _).trans (congrArg Host.Outcome.next (onlyIf_of_false hc _ _))

/-! ### Capabilities -/

theorem judgeCap_of_refused {k r : Nat} {cap : TieCap} {peer : Bool} {u : State} (h : capRefusal k cap u = some r) :
    judgeCap k cap peer u = capRefuse k r u := by
  unfold judgeCap
  rw [h]

theorem capRefuse_cases {k r : Nat} (s : State) :
    (r ≠ 5 → capRefuse k r s = wrC tieLinkStatus_state k 4 (dropLanes (256 + 4 * k) (raiseC tieCapRefused k (wrC tieLinkStatus_refuse k r s)))) ∧
    (r = 5 → capRefuse k r s = wrC tieLinkStatus_state k 4
      (dropLanes (256 + 4 * k) (raise tieDupManager (raiseC tieCapRefused k (wrC tieLinkStatus_refuse k 5 s))))) := by
  have hcap : capRefuse k r s = wrC tieLinkStatus_state k 4 (dropLanes (256 + 4 * k)
      (if r = 5 then raise tieDupManager (raiseC tieCapRefused k (wrC tieLinkStatus_refuse k r s))
        else raiseC tieCapRefused k (wrC tieLinkStatus_refuse k r s))) := rfl
  refine ⟨fun h => ?_, fun h => ?_⟩
  · rw [hcap, if_neg h]
  · rw [hcap, if_pos h, h]

theorem judgeCap_of_accepted {k : Nat} {cap : TieCap} {peer : Bool} {t u : State} (h : capRefusal k cap u = none)
    (ht : t = wrC tieLinkStatus_peerId k cap.deviceId (wrC tieLinkStatus_peerRole k cap.liveRole
      (modTieLink k (fun x => { x with ownOk := true, peerOk := x.peerOk || peer }) u))) :
    judgeCap k cap peer u = hearEpoch k cap.epoch (decide (cap.liveRole = 1)) (if (tieLink k t).peerOk then linkStarts k cap t else t) := by
  subst ht
  unfold judgeCap
  rw [h]

theorem capRefusal_first {k : Nat} {cap : TieCap} {s : State} :
    (cap.meshId ≠ (tieLink k s).meshId → capRefusal k cap s = some 1) ∧
    (cap.meshId = (tieLink k s).meshId → cap.deviceId ≠ k → capRefusal k cap s = some 2) :=
  ⟨fun h => if_pos h, fun h hd => (if_neg (not_not_intro h)).trans (if_pos hd)⟩

/-- The link takes the mesh number and the cells to grant as its lanes are aligned. -/
theorem tieLanesAligned_link {k : Nat} {s : State} (h : rdC tieLinkStatus_state k s ≠ 0) :
    (tieLink k (tieLanesAligned k s)).meshId = cf tieMeshCfg_meshId s ∧ (tieLink k (tieLanesAligned k s)).credits = cf tieLinkCfg_creditCells s := by
  have haligned : tieLink k (tieLanesAligned k s) = tieLink k (takeLinkValues k (clearLink k s)) :=
    (congrArg (tieLink k) (if_neg h)).trans (tieLink_of_mesh rfl)
  have htaken : tieLink k (takeLinkValues k (clearLink k s)) = { tieLink k (clearLink k s) with meshId := cf tieMeshCfg_meshId s, credits := cf tieLinkCfg_creditCells s } :=
    tieLink_modTieLink_same k (fun x => { x with meshId := cf tieMeshCfg_meshId s, credits := cf tieLinkCfg_creditCells s }) (clearLink k s)
  rw [haligned, htaken]
  exact ⟨rfl, rfl⟩

/-! ### Codewords and flits -/

/-- Codewords short of a block are kept. -/
theorem takeBlock_short {k : Nat} {l : List (Option (List Byte))} (a : State) (h : l.length < 16) :
    takeBlock k (modTieLink k (fun x => { x with got := l }) a) = modTieLink k (fun x => { x with got := l }) a := by
  unfold takeBlock
  rw [tieLink_modTieLink_same]
  exact if_pos h

theorem takeBlock_full {k : Nat} {l : List (Option (List Byte))} (a : State) (h : l.length = 16) :
    takeBlock k (modTieLink k (fun x => { x with got := l }) a) = foldOver (blockFlits l) (fun f a => takeFlit k f a)
      (modTieLink k (fun x => { x with got := [] }) (modTieLink k (fun x => { x with got := l }) a)) := by
  have hno : ¬ (l.length < 16) := by omega
  unfold takeBlock
  rw [tieLink_modTieLink_same]
  exact if_neg hno

theorem exec_tieCodeword {k : Nat} {l0 l1 l2 l3 : List Byte} {s : State} (hk : k < 8)
    (h : rdC tieLinkStatus_state k s = 2 ∨ rdC tieLinkStatus_state k s = 3) :
    exec (.tieCodewordDecode k l0 l1 l2 l3) s = .next (tieCodeword k l0 l1 l2 l3 s) :=
  onTie_of_true hk (decide_eq_true (by omega))

theorem tieCodeword_lost {k : Nat} {l0 l1 l2 l3 : List Byte} {s : State}
    (h : rsDecode (fromLanes (tieLink k s).got.length [l0, l1, l2, l3]) = none) :
    tieCodeword k l0 l1 l2 l3 s = raiseC tieFecUncorrected k (count tieCtrs 5 k 1
      (takeBlock k (modTieLink k (fun x => { x with got := (tieLink k s).got ++ [none] }) s))) := by
  unfold tieCodeword
  dsimp only
  rw [h]

theorem tieCodeword_good {k n : Nat} {l0 l1 l2 l3 w : List Byte} {s : State}
    (h : rsDecode (fromLanes (tieLink k s).got.length [l0, l1, l2, l3]) = some (w, n)) :
    tieCodeword k l0 l1 l2 l3 s = takeBlock k (modTieLink k (fun x => { x with got := (tieLink k s).got ++ [some w] })
      (if n = 0 then s else count tieCtrs 4 k 1 s)) := by
  unfold tieCodeword
  dsimp only
  rw [h]

theorem takeFlit_cases {k : Nat} {f : Flit} {s t : State} (ht : t = wrC tieLinkCredits_txCredits k (min 65535 (rdC tieLinkCredits_txCredits k s + f.credit)) s) :
    (f.kind = 0 → takeFlit k (some f) s = t) ∧
    (f.kind = 1 ∨ f.kind = 2 → takeFlit k (some f) s = modTieLink k (fun x => { x with frameIn := streamFlit x.frameIn f }) t) ∧
    (3 ≤ f.kind → f.kind < 10 → takeFlit k (some f) s = modTieLink k (fun x => { x with ctlIn := streamFlit x.ctlIn f }) t) ∧
    (10 ≤ f.kind → takeFlit k (some f) s = count tieCtrs 9 k 1 t) := by
  have hflit : takeFlit k (some f) s = if f.kind = 0 then t else if 10 ≤ f.kind then count tieCtrs 9 k 1 t
      else if f.kind ≤ 2 then modTieLink k (fun x => { x with frameIn := streamFlit x.frameIn f }) t
      else modTieLink k (fun x => { x with ctlIn := streamFlit x.ctlIn f }) t := by
    rw [ht]
    rfl
  rw [hflit]
  refine ⟨fun h => if_pos h, fun h => ?_, fun h h' => ?_, fun h => ?_⟩
  · rw [if_neg (by omega), if_neg (by omega), if_pos (by omega)]
  · rw [if_neg (by omega), if_neg (by omega), if_neg (by omega)]
  · rw [if_neg (by omega), if_pos h]

/-! ### Frames and steered items -/

theorem tieReceive_unknown {k : Nat} {d bytes : List Byte} {s u : State} (hu : u = count tieCtrs 1 k 1 s) (h : versionLive (leAt d 0 4) u = false) :
    tieReceive k d bytes s = (none, raise tieVersionUnknown (count tieGCtrs 6 0 1 u)) := by
  subst hu
  exact if_pos (by rw [show versionLive (tdVersion d) (count tieCtrs 1 k 1 s) = false from h]; rfl)

theorem tieFrame_good {k : Nat} {d bytes : List Byte} {s : State} (hg : (takeBadFrame k s).1 = false) {r : Option Nat × State}
    (hr : tieReceive k d bytes (takeBadFrame k s).2 = r) :
    (r.1 = none → tieFrame k d bytes s = r.2) ∧
    (∀ i, r.1 = some i → tdFinalValid d = true → tdNextHop d < 2 ^ 31 →
      tieFrame k d bytes s = voqEnter i none (modFrame i (fun f => { f with nhEntry := 0 }) r.2)) := by
  refine ⟨fun h => ?_, fun i h hf hn => ?_⟩
  · unfold tieFrame
    dsimp only
    rw [hg, if_neg Bool.false_ne_true, hr, h]
  · unfold tieFrame
    dsimp only
    rw [hg, if_neg Bool.false_ne_true, hr, h]
    dsimp only
    rw [hf, if_pos rfl, if_neg (Nat.not_le.2 hn)]

theorem tieSteeredItem_of_received {k : Nat} {d bytes : List Byte} {s : State} {r : Option Nat × State}
    (hr : tieReceive k d bytes (takeBadFrame k s).2 = r) :
    (r.1 = none → tieSteeredItem k d bytes s = r.2) ∧
    (∀ i, (takeBadFrame k s).1 = false → r.1 = some i → tieSteeredItem k d bytes s = count tieGCtrs 1 0 1 (steeredItem d i r.2)) := by
  refine ⟨fun h => ?_, fun i hg h => ?_⟩
  · unfold tieSteeredItem
    dsimp only
    rw [hr, h]
  · unfold tieSteeredItem
    dsimp only
    rw [hr, h, hg]
    rfl

/-! ### Messages sent again -/

theorem controlResend_cases {k : Nat} {x : TieLinkSt} {m : CtlMsg} {rest : List CtlMsg} {s : State} (hx : x = tieLink k s) :
    (x.unacked = [] → controlResend k s = s) ∧
    (x.unacked = m :: rest → m.resends < 8 → controlResend k s = emit (.tieFlits k (flitsOf m.kind m.body))
      (count tieCtrs 6 k 1 (putTieLink k { x with unacked := { m with resends := m.resends + 1 } :: rest } s))) ∧
    (x.unacked = m :: rest → 8 ≤ m.resends →
      controlResend k s = dropLanes (256 + 4 * k) (noteLinkLost k (raiseC tieResendFail k s))) := by
  subst hx
  refine ⟨fun h => ?_, fun h hm => ?_, fun h hm => ?_⟩
  · unfold controlResend
    dsimp only
    rw [h]
  · unfold controlResend
    dsimp only
    rw [h]
    exact if_pos hm
  · unfold controlResend
    dsimp only
    rw [h]
    exact if_neg (Nat.not_lt.2 hm)

theorem onControl_of_bad {k seq : Nat} {f : State → State} {s : State} (hk : k < 8) (hl : linkActive k s = true)
    (hb : (takeBad k (count tieCtrs 3 k 1 s)).1 = true) : onControl k seq true f s = .next (takeBad k (count tieCtrs 3 k 1 s)).2 := by
  have hreceive : receive k seq f s = (takeBad k (count tieCtrs 3 k 1 s)).2 := if_pos (.inl hb)
  unfold onControl
  rw [onlyIf_of_true hl, hreceive]
  exact guarded_of_true (by rw [decide_eq_true (show k < chanCount .tie from hk)]; rfl) _

theorem exec_tieCapability {k : Nat} {cap : TieCap} {peer : Bool} {s u v : State} (hk : k < 8) (hu : (false, u) = takeBad k (count tieCtrs 3 k 1 s))
    (h : rdC tieLinkStatus_state k s = 2) (hv : judgeCap k cap peer u = v) : exec (.tieCapability k cap peer) s = .next v := by
  refine (onTie_of_true hk (decide_eq_true h)).trans (congrArg Host.Outcome.next ?_)
  unfold tieCapability
  rw [← hu]
  exact hv

/-- Settles O48, message by message. -/
theorem tieLinksAgreeAndCarryFrames : Obligations.TieLinksAgreeAndCarryFrames := by
  unfold Obligations.TieLinksAgreeAndCarryFrames
  intro k s hk
  refine ⟨fun h => onTie_of_true hk (decide_eq_true h), fun h => onTie_of_false hk (decide_eq_false h), fun cap peer b hb h hbad => ?_,
    fun cap peer u hu h => ⟨fun r hr h5 => ?_, fun hr => ?_, fun t ht hr => ⟨fun hp => ?_, fun hp => ?_, fun hp he => ?_⟩⟩,
    fun epoch m => ⟨fun h => hearEpoch_of_old h, fun h hm => ?_, fun h hm => hearEpoch_follows hm h⟩, fun cap => capRefusal_first,
    fun h => tieLanesAligned_link h, fun l0 l1 l2 l3 got t hst hgot hlen ht => ⟨fun hn => ?_, fun w hw => ?_, fun w n hw hn => ?_⟩,
    fun l0 l1 l2 l3 got w u hst hgot hlen hw hu => ?_, rfl, fun f t ht => takeFlit_cases ht, rfl,
    fun d bytes b hl hb => ⟨fun hbad => ?_, fun u hu hg hv => ⟨?_, ?_⟩, fun i t hg hr hf hn => ?_, fun i t hg hr => ?_⟩,
    fun x m rest hx hl => ?_, fun seq record u hl hg hs hu => ?_, fun seq record u hl hb hu => ?_⟩
  · subst hb
    exact (onTie_of_true hk (decide_eq_true h)).trans (congrArg Host.Outcome.next (if_pos hbad))
  · exact exec_tieCapability hk hu h ((judgeCap_of_refused hr).trans ((capRefuse_cases u).1 h5))
  · exact exec_tieCapability hk hu h ((judgeCap_of_refused hr).trans ((capRefuse_cases u).2 rfl))
  · exact exec_tieCapability hk hu h ((judgeCap_of_accepted hr ht).trans (by rw [hp]; rfl))
  · exact exec_tieCapability hk hu h ((judgeCap_of_accepted hr ht).trans (by rw [hp]; rfl))
  · exact exec_tieCapability hk hu h ((judgeCap_of_accepted hr ht).trans (by rw [hp]; exact hearEpoch_of_old he))
  · unfold hearEpoch
    rw [if_neg (Nat.not_le.2 h), hm]
    rfl
  · subst hgot ht
    rw [exec_tieCodeword hk hst, tieCodeword_lost hn, takeBlock_short _ (by simpa using by omega)]
  · subst hgot ht
    rw [exec_tieCodeword hk hst, tieCodeword_good hw, takeBlock_short _ (by simpa using by omega)]
    rfl
  · subst hgot ht
    rw [exec_tieCodeword hk hst, tieCodeword_good hw, takeBlock_short _ (by simpa using by omega), if_neg (by omega)]
  · subst hgot hu
    rw [exec_tieCodeword hk hst, tieCodeword_good (by rw [hlen]; exact hw), if_pos rfl, takeBlock_full _ (by simpa using by omega)]
  · exact (onTie_of_true hk hl).trans (congrArg Host.Outcome.next (by subst hb; exact if_pos hbad))
  · have hr := tieReceive_unknown (d := d) (bytes := bytes) hu hv
    subst hb
    exact (onTie_of_true hk hl).trans (congrArg Host.Outcome.next ((tieFrame_good hg hr).1 rfl))
  · have hr := tieReceive_unknown (d := d) (bytes := bytes) hu hv
    subst hb
    exact (onTie_of_true hk hl).trans (congrArg Host.Outcome.next ((tieSteeredItem_of_received hr).1 rfl))
  · subst hb
    exact (onTie_of_true hk hl).trans (congrArg Host.Outcome.next ((tieFrame_good hg hr).2 i rfl hf hn))
  · subst hb
    exact (onTie_of_true hk hl).trans (congrArg Host.Outcome.next ((tieSteeredItem_of_received hr).2 i hg rfl))
  · obtain ⟨hnone, hsend, hover⟩ := controlResend_cases (m := m) (rest := rest) hx
    have hexec : exec (.controlResend k) s = .next (controlResend k s) := onTie_of_true hk hl
    exact ⟨fun h => hexec.trans (congrArg _ (hnone h)), fun h hm => hexec.trans (congrArg Host.Outcome.next (hsend h hm)),
      fun h hm => hexec.trans (congrArg Host.Outcome.next (hover h hm))⟩
  · have hexec : exec (.eventForward k seq record) s = .next (if isManager u then meshWrite (forwardedWords record) u else u) :=
      NextInOrder.onControl ⟨hk, hl, hg, hs, hu⟩ rfl _
    exact ⟨fun hm => hexec.trans (by rw [if_pos hm]), fun hm => hexec.trans (by rw [hm, if_neg Bool.false_ne_true])⟩
  · subst hu
    exact onControl_of_bad hk hl hb

end Sys2Proof.Machine
end

section
/-! PROOFS. Moves of the owner map between devices (R489, R497 to R501). -/

namespace Sys2Proof.Machine

/-! ### A move asked for -/

theorem exec_ownMoveGo {w : Window} {v : Word} {s : State} (ha : Admits w .tie s) : exec (.ownMoveGo w v) s = .next (ownMoveWrite (winIdx w) v s) :=
  congrArg Host.Outcome.next (writing_of_admits ha _)

theorem ownMoveWrite_cases {c e d : Nat} {v : Word} {s t : State} (he : e = wordField v 0 12) (hd : d = wordField v 12 3)
    (ht : t = wrC tieOwnMove_device c d (wrC tieOwnMove_entry c e s)) :
    (bit v.toNat 16 = false → ownMoveWrite c v s = t) ∧
    (∀ r, bit v.toNat 16 = true → moveRefusal e d t = some r → ownMoveWrite c v s = wrC tieOwnMove_result c r t) ∧
    (bit v.toNat 16 = true → moveRefusal e d t = none → ownMoveWrite c v s = beginMove e d (some c) true (wrC tieOwnMove_busy c 1
      { t with mesh := { t.mesh with own := t.mesh.own.map (fun x => if x.2.win = some c then (x.1, { x.2 with win := none }) else x) } })) := by
  subst he hd ht
  refine ⟨fun h => ?_, fun r h hr => ?_, fun h hr => ?_⟩
  · unfold ownMoveWrite
    dsimp only
    rw [h]
    rfl
  · unfold ownMoveWrite
    dsimp only
    rw [h, hr]
    rfl
  · unfold ownMoveWrite
    dsimp only
    rw [h, hr]
    rfl

theorem moveRefusal_cases (e d : Nat) (s : State) :
    (isManager s = false → moveRefusal e d s = some 1) ∧
    (isManager s = true → bit (rd tieMeshStatus_members s) d = false → moveRefusal e d s = some 2) ∧
    (isManager s = true → bit (rd tieMeshStatus_members s) d = true → entryMoving e s = true → moveRefusal e d s = some 3) ∧
    (isManager s = true → bit (rd tieMeshStatus_members s) d = true → entryMoving e s = false →
      (ownerDevice e s = d → moveRefusal e d s = some 4) ∧ (ownerDevice e s ≠ d → moveRefusal e d s = none)) := by
  unfold moveRefusal
  refine ⟨fun hm => by simp [hm], fun hm hb => by simp [hm, hb], fun hm hb he => by simp [hm, hb, he], fun hm hb he => ⟨fun ho => ?_, fun ho => ?_⟩⟩
  · simp [hm, hb, he, ho]
  · simp [hm, hb, he, ho]

/-! ### Messages between the devices -/

theorem syncStale_iff {e epoch : Nat} {u : State} :
    syncStale e epoch u = true ↔ epoch ≠ (ownEntry e u).epoch ∨ ownerDevice e u ≠ selfId u ∨ (ownEntry e u).aborted = true := by
  unfold syncStale
  simp [or_assoc]

theorem stateSync_of_stale {e epoch : Nat} {r : List Byte} {u : State}
    (h : epoch ≠ (ownEntry e u).epoch ∨ ownerDevice e u ≠ selfId u ∨ (ownEntry e u).aborted = true) :
    stateSync e epoch r u = raise tieStaleEpoch (count tieGCtrs 4 0 1 u) := if_pos (syncStale_iff.2 h)

theorem stateSync_of_current {e epoch : Nat} {r : List Byte} {u : State} (he : epoch = (ownEntry e u).epoch) (ho : ownerDevice e u = selfId u)
    (ha : (ownEntry e u).aborted = false) : stateSync e epoch r u =
      offerOp { op := .sync e epoch r, tag := bucketOfKey (rcKey r) u, digest := digestOfKey (rcKey r), key := rcKey r } u := by
  refine if_neg fun h => ?_
  rcases syncStale_iff.1 h with h' | h' | h'
  · exact h' he
  · exact h' ho
  · rw [ha] at h'
    exact Bool.false_ne_true h'

theorem transferDone_of_waiting {k e : Nat} {u : State} (h : syncsWait e u = true) :
    transferDone k e u = modOwn e (fun y => { y with ending := some k }) u := if_pos h

theorem transferDone_at_managing_owner {k e : Nat} {t u : State} (ht : t = unpark e (modOwn e (fun y => { y with settled := true, done := true, ending := none }) u))
    (h : syncsWait e u = false) (ho : ownerDevice e u = selfId u) (hm : isManager t = true) : transferDone k e u = t := by
  subst ht
  have hends : transferEnds k e u = unpark e (modOwn e (fun y => { y with settled := true, done := true, ending := none }) u) :=
    (if_pos ho).trans (if_pos hm)
  exact (if_neg (by rw [h]; exact Bool.false_ne_true)).trans hends

theorem transferDone_at_manager {k e : Nat} {u : State} (h : syncsWait e u = false) (hm : isManager u = true) (hk : ownerDevice e u = k)
    (ho : ownerDevice e u ≠ selfId u) : transferDone k e u = modOwn e (fun y => { y with done := true }) u := by
  have hends : transferEnds k e u = modOwn e (fun y => { y with done := true }) u := (if_neg ho).trans (if_pos ⟨hm, hk⟩)
  exact (if_neg (by rw [h]; exact Bool.false_ne_true)).trans hends

/-! ### The end of a move, its abort and the forward window -/

theorem exec_ownerMoveAcked {e : Nat} (he : e < 4096) (s : State) : exec (.ownerMoveAcked e) s = .next (ownerMoveAcked e s) :=
  guarded_of_true (decide_eq_true he) _

theorem exec_ownMoveTimeout {e : Nat} (he : e < 4096) (s : State) : exec (.ownMoveTimeout e) s = .next (ownMoveTimeout e s) :=
  guarded_of_true (decide_eq_true he) _

theorem exec_fwdWindowEnd {e : Nat} (he : e < 4096) (s : State) : exec (.fwdWindowEnd e) s = .next (fwdWindowEnd e s) :=
  guarded_of_true (decide_eq_true he) _

theorem ownerMoveAcked_of_done {e : Nat} {s : State} (hm : isManager s = true) (hv : (ownEntry e s).moving = true) (hd : (ownEntry e s).done = true)
    (ha : ∀ k, k ∈ others s → changeUnacked k e s = false) : ownerMoveAcked e s = raise tieOwnerMoved
      (tellOthers e (ownerDevice e s) (ownEntry e s).epoch false false false (clearMoving e (moveResult e 0 s))) := by
  have hall : (others s).all (fun k => !changeUnacked k e s) = true := List.all_eq_true.2 fun k hk => by rw [ha k hk]; rfl
  exact if_pos (by rw [hm, hv, hd, hall]; rfl)

theorem ownerMoveAcked_of_not_done {e : Nat} {s : State} (h : isManager s = false ∨ (ownEntry e s).moving = false ∨ (ownEntry e s).done = false) :
    ownerMoveAcked e s = s := by
  refine if_neg fun hc => ?_
  simp only [Bool.and_eq_true] at hc
  obtain ⟨⟨⟨hm, hv⟩, hd⟩, -⟩ := hc
  rw [hm, hv, hd] at h
  simp at h

theorem rawPassed_iff {r ns : Nat} {s : State} : rawPassed r ns s = true ↔ ns * 100 ≤ (s.tim.raw - r) * 128 := by
  unfold rawPassed
  rw [decide_eq_true_iff]
  omega

theorem ownMoveTimeout_of_due {e : Nat} {s : State} (hm : isManager s = true) (hv : (ownEntry e s).moving = true)
    (hb : bit (rd tieMeshStatus_members s) (ownerDevice e s) = true) (hr : 200000000 * 100 ≤ (s.tim.raw - (ownEntry e s).beganRaw) * 128) :
    ownMoveTimeout e s = abortMove e s := by
  have hp : rawPassed (ownEntry e s).beganRaw 200000000 s = true := rawPassed_iff.2 hr
  exact if_pos (by rw [hm, hv, hp, hb]; rfl)

theorem ownMoveTimeout_of_none {e : Nat} {s : State} (h : isManager s = false ∨ (ownEntry e s).moving = false) : ownMoveTimeout e s = s := by
  refine if_neg fun hc => ?_
  simp only [Bool.and_eq_true] at hc
  obtain ⟨⟨⟨hm, hv⟩, -⟩, -⟩ := hc
  rw [hm, hv] at h
  simp at h

theorem fwdWindowEnd_of_open {e r : Nat} {s : State} (h : (ownEntry e s).fwdRaw = some r) : fwdWindowEnd e s =
    if rawPassed r (1000000 * cf tieMeshCfg_fwdWindowMs s) s then modOwn e (fun x => { x with late := true }) s else s := by
  unfold fwdWindowEnd
  rw [h]

theorem fwdWindowEnd_of_closed {e : Nat} {s : State} (h : (ownEntry e s).fwdRaw = none) : fwdWindowEnd e s = s := by
  unfold fwdWindowEnd
  rw [h]

/-- Settles O49, message by message. -/
theorem ownershipMovesBetweenDevices : Obligations.OwnershipMovesBetweenDevices := by
  unfold Obligations.OwnershipMovesBetweenDevices
  intro s
  refine ⟨fun w v c e d t ha hc he hd ht => ?_, fun e d => moveRefusal_cases e d s, fun k seq e u hk he hl hg hs hu => ?_, fun e x he hx => ?_⟩
  · subst hc
    rw [exec_ownMoveGo ha]
    obtain ⟨hstored, hrefused, hbegun⟩ := ownMoveWrite_cases (c := winIdx w) he hd ht
    exact ⟨fun h => congrArg _ (hstored h), fun r h hr => congrArg Host.Outcome.next (hrefused r h hr), fun h hr => congrArg Host.Outcome.next (hbegun h hr)⟩
  · have hnext : NextInOrder k seq s u := ⟨hk, hl, hg, hs, hu⟩
    have hexec : ∀ f, onControl k seq (decide (e < 4096)) f s = .next (f u) := hnext.onControl (decide_eq_true he)
    refine ⟨fun owner epoch done x g hx hgive => ?_, fun owner epoch done => hexec (ownerChange e owner epoch false done), fun epoch r h => (hexec (stateSync e epoch r)).trans (congrArg Host.Outcome.next (stateSync_of_stale h)),
      fun epoch r h ho ha => (hexec (stateSync e epoch r)).trans (congrArg Host.Outcome.next (stateSync_of_current h ho ha)),
      fun h => (hexec (transferDone k e)).trans (congrArg Host.Outcome.next (transferDone_of_waiting h)),
      fun t ht h ho hm => (hexec (transferDone k e)).trans (congrArg Host.Outcome.next (transferDone_at_managing_owner ht h ho hm)),
      fun h hm hk ho => (hexec (transferDone k e)).trans (congrArg Host.Outcome.next (transferDone_at_manager h hm hk ho)), fun owner epoch => hexec (applyAbort e owner epoch)⟩
    subst hx hgive
    refine (hexec (ownerChange e owner epoch true done)).trans (congrArg Host.Outcome.next ?_)
    cases done <;> rfl
  · subst hx
    rw [exec_ownerMoveAcked he, exec_ownMoveTimeout he, exec_fwdWindowEnd he]
    refine ⟨fun hm hv hd ha => congrArg Host.Outcome.next (ownerMoveAcked_of_done hm hv hd ha), fun h => congrArg _ (ownerMoveAcked_of_not_done h),
      fun hm hv hb hr => congrArg Host.Outcome.next (ownMoveTimeout_of_due hm hv hb hr), fun h => congrArg _ (ownMoveTimeout_of_none h),
      fun r hr h => ?_, fun r hr h => ?_, fun h => congrArg _ (fwdWindowEnd_of_closed h)⟩
    · rw [fwdWindowEnd_of_open hr, if_pos (rawPassed_iff.2 h)]
      rfl
    · rw [fwdWindowEnd_of_open hr, if_neg fun hp => Nat.not_le.2 h (rawPassed_iff.1 hp)]

end Sys2Proof.Machine
end

section
/-! PROOFS. Flow records: scanning, retiring, exporting, freed indices and the BAR2 window (R267, R268, R272 to R274, R279, R280, R285, R610). -/

namespace Sys2Proof.Machine

/-! ### The scanner -/

theorem exec_scannerVisit_bucket {v : ScanVisit} {s : State} (hv : v.place < recordCount s) (hb : v.place < 2 ^ 27) (hon : blockOn .flt s = true) :
    exec (.scannerVisit v false) s = .next (scanAt v s) := by
  have hplace : v.place < 2 ^ 27 + ovfTotal := Nat.lt_add_right _ hb
  have hin : v.place < recordCount s + ovfTotal := Nat.lt_add_right _ hv
  refine (guarded_of_true (decide_eq_true hplace) _).trans (congrArg Host.Outcome.next (onlyIf_of_true ?_ _ _))
  rw [hon, decide_eq_true hin]
  rfl

theorem scanAt_lost_bucket {b : Nat} {c : Bool} {s : State} (hb : b < recordCount s) :
    scanAt ⟨b, true, c⟩ s = offerOp { op := .lostBucket, tag := b } (eccUncorrectable 0 (bucketAddr b s) false s) := by
  unfold scanAt
  dsimp only
  rw [if_pos hb, if_pos rfl]

theorem scanAt_bucket {b : Nat} {c : Bool} {s : State} (hb : b < recordCount s) :
    scanAt ⟨b, false, c⟩ s = foldOver [0, 1, 2, 3] (scanPlace b) (readBucket b (if c then hbmCorrected (bucketAddr b s) (eccCorrected 0 s) else s)) := by
  unfold scanAt
  dsimp only
  rw [if_pos hb, if_neg Bool.false_ne_true]
  rfl

theorem scannerVisit_of_off {v : ScanVisit} {last : Bool} {s : State} (hv : v.place < 2 ^ 27 + 1048576) (hoff : blockOn .flt s = false) :
    exec (.scannerVisit v last) s = .next s := by
  have hplace : v.place < 2 ^ 27 + ovfTotal := hv
  exact (guarded_of_true (decide_eq_true hplace) _).trans (congrArg Host.Outcome.next (onlyIf_of_false (by rw [hoff]; rfl) _ _))

theorem scanPlace_cases {b p x : Nat} {s : State} (hx : x = placeAt b p s) :
    (slState x = 1 → idleReached (slStamp x) (slProg x) s = true →
      scanPlace b p s = offerOp { op := .retireCheck p (slRec x), tag := b, digest := slDigest x } s) ∧
    (slState x ≠ 1 ∨ idleReached (slStamp x) (slProg x) s = false → scanPlace b p s = s) := by
  subst hx
  refine ⟨fun h hi => if_pos ⟨h, hi⟩, fun h => if_neg fun hc => ?_⟩
  rcases h with h | h
  · exact h hc.1
  · exact Bool.false_ne_true (h.symm.trans hc.2)

/-! ### Retire checks and cleanups -/

theorem dropClean_of_no_error (i : Nat) (s : State) : dropClean i .none s = s := by
  unfold dropClean
  cases cachedLine i s with
  | none => rfl
  | some l => rfl

theorem exec_retireCheck_of_running {c q p n : Nat} {i : Item} {s : State} (hc : c < 32) (hi : runningOp c q s = some i) (hop : i.op = .retireCheck p n) :
    exec (.retireCheck c q .none) s = .next (opDone c q (retireCheckOp i.tag p n .none s)) := by
  refine (guarded_of_true (decide_eq_true hc) _).trans (congrArg Host.Outcome.next ?_)
  unfold retireCheck
  rw [hi]
  dsimp only
  rw [hop]

theorem retireCheckOp_of_moved {b p n x : Nat} {s u : State} (hu : u = readBucket b s) (hx : x = placeAt b p u) (h : slState x ≠ 1 ∨ slRec x ≠ n) :
    retireCheckOp b p n .none s = u := by
  subst hu hx
  exact if_pos h

/-- A slot that still holds the record is retired, deferred or stamped again, by the record's last hit (R268). -/
theorem retireCheckOp_of_held {b p n x hit : Nat} {s u : State} (hu : u = readBucket b s) (hx : x = placeAt b p u) (hh : hit = rcHit (recordAt n u))
    (h : slState x = 1) (hr : slRec x = n) : retireCheckOp b p n .none s =
      if idleReached hit (slProg x) u then (if exportFree u < 1024 then raise fltRetireDeferred (fltCount 10 u) else retire b p n 1 false u)
      else if slStamp x ≠ hit then fltCount 9 (putPlace b p (withBits x 41 20 hit) u) else u := by
  subst hu hx hh
  unfold retireCheckOp
  dsimp only
  rw [dropClean_of_no_error]
  exact (if_neg fun hc => hc.elim (fun h' => h' h) fun h' => h' hr).trans (if_neg Bool.false_ne_true)

theorem exec_retireCleanup_of_running {c q p n : Nat} {i : Item} {s : State} (hc : c < 32) (hi : runningOp c q s = some i) (hop : i.op = .cleanup p n) :
    exec (.retireCleanup c ⟨q, .none⟩) s = .next (opDone c q (cleanupOp i.tag p n .none s)) := by
  refine (guarded_of_true (decide_eq_true hc) _).trans (congrArg Host.Outcome.next ?_)
  unfold retireCleanup
  dsimp only
  rw [hi]
  dsimp only
  rw [hop]

theorem cleanupOp_of_held {b p n : Nat} {r : Retiring} {s t u : State} (ht : t = readBucket b s)
    (hr : t.flow.retiring.find? (fun r => r.recIndex == n) = some r)
    (hu : u = { t with flow := { t.flow with retiring := t.flow.retiring.filter (fun x => x.recIndex != n) } })
    (h : slState (placeAt b p t) = 2) (hn : slRec (placeAt b p t) = n) (hroom : exportRoom t = true) :
    cleanupOp b p n .none s = retireEnd b p n (rcGen (recordAt n t)) (buildExport b n r.reason (recordAt n t) u) := by
  have hrecord : cleanupRecord (placeAt b p t) n r.reason .none t = (r.reason, recordAt n t, t) := by
    refine (if_neg Bool.false_ne_true).trans ?_
    rw [dropClean_of_no_error]
  have hops : opErrors b .none s = t := ht.symm
  unfold cleanupOp
  dsimp only
  rw [hops, hr]
  dsimp only
  rw [if_neg (fun hc => hc.elim (fun h' => h' h) fun h' => h' hn), if_pos hroom, hrecord, hu]

/-! ### Retiring and the exported record -/

theorem retire_cases {b p i reason : Nat} {s t : State} (ht : t = retireCount reason s) :
    retire b p i reason true s = retireEnd b p i (rcGen (recordAt i s)) t ∧
    (exportRoom t = true → retire b p i reason false s = retireEnd b p i (rcGen (recordAt i s)) (buildExport b i reason (recordAt i s) t)) ∧
    (exportRoom t = false → 65536 ≤ t.flow.retiring.length →
      retire b p i reason false s = raise fltExportLost (fltCount 12 (retireEnd b p i (rcGen (recordAt i s)) t))) := by
  subst ht
  refine ⟨rfl, fun h => ?_, fun h hl => ?_⟩
  · unfold retire retireWith
    dsimp only
    rw [if_neg Bool.false_ne_true, if_pos h]
  · unfold retire retireWith
    dsimp only
    rw [if_neg Bool.false_ne_true, h, if_neg Bool.false_ne_true, if_neg (Nat.not_lt.2 hl)]

theorem buildExport_cases (b i reason : Nat) (r : List Byte) (s : State) :
    (cf fltExportCfg_dest s = 0 → buildExport b i reason r s = s) ∧
    (cf fltExportCfg_dest s ≠ 0 → buildExport b i reason r s =
      { s with flow := { s.flow with exportQ := s.flow.exportQ ++ [(cf fltExportCfg_dest s, exportRecord b i reason r s)] } }) :=
  ⟨fun h => if_pos h, fun h => if_neg h⟩

/-! ### Export rings -/

theorem exportRingWrite_of_stopped {s : State} (h : ∀ d r rest, s.flow.exportQ = (d, r) :: rest →
    (blockOn .flt s && !dmaStopped (d - 1) s && exportRingFree (d - 1) s) = false) : exportRingWrite s = s := by
  unfold exportRingWrite
  cases hq : s.flow.exportQ with
  | nil => rfl
  | cons x rest =>
    obtain ⟨d, r⟩ := x
    dsimp only
    rw [h d r rest hq]
    exact if_neg Bool.false_ne_true

theorem exportRingWrite_of_free {d n p : Nat} {r : List Byte} {rest : List (Nat × List Byte)} {s : State} (hq : s.flow.exportQ = (d, r) :: rest)
    (hon : blockOn .flt s = true) (hperst : s.pwr.perstLow = true → d = 2) (hfree : exportRingFree (d - 1) s = true)
    (hn : n = rdC fltExpqCfg_log2Entries (d - 1) s) (hp : p = rdC fltExpqProd_index (d - 1) s) :
    exportRingWrite s = issueCleanup (emit (ringOut (d - 1) (exportBase (d - 1) s + 128 * (p % 2 ^ n)) r)
      (wrC fltExpqProd_index (d - 1) ((p + 1) % 2 ^ (n + 1)) { s with flow := { s.flow with exportQ := rest } })) := by
  have hdma : dmaStopped (d - 1) s = false := by
    unfold dmaStopped
    cases hlow : s.pwr.perstLow with
    | false => exact Bool.and_false _
    | true => rw [hperst hlow]; rfl
  subst hn hp
  unfold exportRingWrite
  rw [hq]
  dsimp only
  rw [hon, hdma, hfree]
  rfl

theorem expqCfgWrite_cases {c : Nat} {v : Word} {s t : State} (ht : t = wrC fltExpqCfg_log2Entries c (wordField v 0 4) s)
    (h0 : rdC fltExpqCfg_enable c s = 0) (h1 : wordField v 4 1 = 1) :
    (rdC fltExpqBaseLo_addr c s % 128 = 0 → 4 ≤ wordField v 0 4 → wordField v 0 4 ≤ 12 → expqCfgWrite c v s = wrC fltExpqCfg_enable c 1 t) ∧
    (rdC fltExpqBaseLo_addr c s % 128 ≠ 0 ∨ wordField v 0 4 < 4 ∨ 12 < wordField v 0 4 → expqCfgWrite c v s = raise fltExpError t) := by
  have hwrite : expqCfgWrite c v s = if ringOk 128 (rdC fltExpqBaseLo_addr c s) (wordField v 0 4) then wrC fltExpqCfg_enable c 1 t else raise fltExpError t := by
    subst ht
    unfold expqCfgWrite
    dsimp only
    rw [h0, h1]
    rfl
  rw [hwrite]
  unfold ringOk
  refine ⟨fun ha h4 h12 => ?_, fun h => ?_⟩
  · simp [ha, h4, h12]
  · refine if_neg fun hc => ?_
    simp only [Bool.and_eq_true, decide_eq_true_eq] at hc
    omega

/-! ### Freed indices and the BAR2 window -/

theorem holdExpire_of_room {i g t : Nat} {rest : List (Nat × Nat × Nat)} {s : State} (hh : s.flow.holds = (i, g, t) :: rest)
    (hp : s.flow.pool.length < 65536) : holdExpire s = { s with flow := { s.flow with holds := rest, pool := s.flow.pool ++ [(i, g)] } } := by
  unfold holdExpire
  rw [hh]
  exact if_pos hp

theorem holdExpire_of_none {s : State} (hh : s.flow.holds = []) : holdExpire s = s := by
  unfold holdExpire
  rw [hh]

theorem poolRefill_of_room {i g : Nat} {rest : List (Nat × Nat)} {s : State} (hh : s.flow.chain = (i, g) :: rest) (hp : s.flow.pool.length < 65536) :
    poolRefill s = marginUsed i { s with flow := { s.flow with pool := s.flow.pool ++ [(i, g)], chain := rest } } := by
  unfold poolRefill
  rw [hh]
  exact if_pos hp

theorem poolRefill_of_none {s : State} (hh : s.flow.chain = []) : poolRefill s = s := by
  unfold poolRefill
  rw [hh]

theorem bar2Block_cases {a n o : Nat} {s : State} (hn : n = rd fltBar2Window_window s) (ho : o = a / 64 * 64) :
    (n < 256 → bar2Block a s = slice (recordAt ((n * 2 ^ 26 + o) / 128) s) (o % 128) 64) ∧
    (256 ≤ n → n < 384 → bar2Block a s = memRead s.flow.hbm (bucketBase s + (n - 256) * 2 ^ 26 + o) 64) ∧
    (384 ≤ n → 2 ^ 24 ≤ a → bar2Block a s = List.replicate 64 0) := by
  subst hn ho
  refine ⟨fun h => if_pos h, fun h h' => (if_neg (by omega)).trans (if_pos h'), fun h h' => (if_neg (by omega)).trans ((if_neg (by omega)).trans ?_)⟩
  have hpast : ∀ j, ¬ (a / 64 * 64 / 16 + j < ovfTotal) := fun j hj => by
    have : a / 64 * 64 / 16 + j < 1048576 := hj
    omega
  simp only [if_neg (hpast _)]
  decide

/-- Settles O50, command by command. -/
theorem flowRecordsAgeRetireAndExport : Obligations.FlowRecordsAgeRetireAndExport := by
  unfold Obligations.FlowRecordsAgeRetireAndExport
  intro s
  refine ⟨rfl, fun b hb h27 hon => ⟨?_, ?_, fun c => ?_⟩, fun v last hv hoff => scannerVisit_of_off hv hoff, fun b p x hx => scanPlace_cases hx,
    fun c q i p n u x hit hc hi hop hu hx hh => ?_, fun c q i p n r t u hc hi hop ht hr hu h2 hn hroom => ?_, fun b p i reason t ht => retire_cases ht,
    fun b p i g u hu hp => ?_, fun b i reason r => buildExport_cases b i reason r s, fun hoff => ?_, fun d r rest hq hd hlow => ?_,
    fun d r rest n p hq hon hperst hfree hn hp => congrArg Host.Outcome.next (exportRingWrite_of_free hq hon hperst hfree hn hp), fun hq => ?_,
    fun w v c ha hc => ⟨?_, fun t ht h0 h1 => ?_, fun h => ?_, fun h => ?_⟩,
    fun i g rest hh hp => congrArg Host.Outcome.next (poolRefill_of_room hh hp), fun hh => congrArg Host.Outcome.next (poolRefill_of_none hh),
    fun i g t rest hh hp => congrArg Host.Outcome.next (holdExpire_of_room hh hp), fun hh => congrArg Host.Outcome.next (holdExpire_of_none hh),
    fun a n o hn ho => bar2Block_cases hn ho⟩
  · rw [exec_scannerVisit_bucket hb h27 hon, scanAt_bucket hb, if_neg Bool.false_ne_true]
  · rw [exec_scannerVisit_bucket hb h27 hon, scanAt_bucket hb, if_pos rfl]
    rfl
  · rw [exec_scannerVisit_bucket hb h27 hon, scanAt_lost_bucket hb]
    rfl
  · rw [exec_retireCheck_of_running hc hi hop]
    refine ⟨fun h => ?_, fun h hr hidle hfree => ?_, fun h hr hidle hfree => ?_, fun h hr hidle hs => ?_⟩
    · rw [retireCheckOp_of_moved hu hx h]
    · rw [retireCheckOp_of_held hu hx hh h hr, if_pos hidle, if_neg (Nat.not_lt.2 hfree)]
    · rw [retireCheckOp_of_held hu hx hh h hr, if_pos hidle, if_pos hfree]
    · rw [retireCheckOp_of_held hu hx hh h hr, hidle, if_neg Bool.false_ne_true, if_pos hs]
  · rw [exec_retireCleanup_of_running hc hi hop, cleanupOp_of_held ht hr hu h2 hn hroom]
  · subst hu
    exact congrArg (freeIndex i g) (if_neg (Nat.not_lt.2 hp))
  · exact congrArg Host.Outcome.next (exportRingWrite_of_stopped fun d r rest _ => by rw [hoff]; rfl)
  · refine congrArg Host.Outcome.next (exportRingWrite_of_stopped fun d' r' rest' hq' => ?_)
    rw [hq] at hq'
    cases hq'
    have hdma : dmaStopped (d - 1) s = true := by
      unfold dmaStopped
      rw [hd, hlow]
      rfl
    rw [hdma]
    simp
  · exact congrArg Host.Outcome.next (exportRingWrite_of_stopped fun d r rest hq' => by rw [hq] at hq'; cases hq')
  · subst hc
    exact congrArg Host.Outcome.next (writing_of_admits ha _)
  · subst hc
    obtain ⟨hgood, hbad⟩ := expqCfgWrite_cases ht h0 h1
    have hexec : exec (.expqEnable w v) s = .next (expqCfgWrite (winIdx w) v s) := congrArg Host.Outcome.next (writing_of_admits ha _)
    rw [hexec]
    exact ⟨fun ha h4 h12 => congrArg Host.Outcome.next (hgood ha h4 h12), fun h => congrArg Host.Outcome.next (hbad h)⟩
  · exact congrArg Host.Outcome.next ((writing_of_admits ha _).trans (if_pos h))
  · exact congrArg Host.Outcome.next ((writing_of_admits ha _).trans (if_neg (by rw [h]; exact Bool.false_ne_true)))

end Sys2Proof.Machine
end

section
/-! PROOFS. Scrubbing and its actions, recalibration of the HBM stacks and automatic recovery (R517 to R525, R527). -/

namespace Sys2Proof.Machine

/-! ### A scrub read -/

theorem exec_scrubRead {x : ScrubWord} {addr : Nat} {s : State} (hact : active s = true) (hok : scrubWordOk x addr = true)
    (hin : x = .hbm → addr < hbmInUse s) (o : EccOutcome) : exec (.scrubRead x addr o false) s = .next (scrubRead x addr o false s) :=
  (if_neg fun h => Nat.not_le.2 (hin h.1) h.2).trans ((guarded_of_true hok _).trans (congrArg Host.Outcome.next (onlyIf_of_true hact _ _)))

theorem exec_scrubRead_uncorrectable {x : ScrubWord} {addr : Nat} {s t : State} (hact : active s = true) (hok : scrubWordOk x addr = true)
    (hin : x = .hbm → addr < hbmInUse s)
    (ht : t = raise scrEccUncorrectable (logError (scrubStore x) addr (inAllocated x s) (satX scrEccUncorr_count 0 (scrubStore x) 1 s))) :
    exec (.scrubRead x addr .uncorrectable false) s = .next (scrubAction x addr t) := by
  subst ht
  rw [exec_scrubRead hact hok hin]
  rfl

theorem exec_scrubRead_corrected {x : ScrubWord} {addr : Nat} {s : State} (hact : active s = true) (hok : scrubWordOk x addr = true)
    (hin : x = .hbm → addr < hbmInUse s) : exec (.scrubRead x addr .corrected false) s = .next (scrubCorrected x addr s) := by
  rw [exec_scrubRead hact hok hin]
  rfl

theorem scrubCorrected_plain {x : ScrubWord} {addr : Nat} {s : State} (hm : x ≠ .hbm) (hl : ∀ i, x ≠ .cacheLine i) (hb : ∀ p i w, x ≠ .buffer p i w) :
    scrubCorrected x addr s = eccCorrected (scrubStore x) s := by
  cases x with
  | hbm => exact absurd rfl hm
  | cacheLine i => exact absurd rfl (hl i)
  | buffer p i w => exact absurd rfl (hb p i w)
  | _ => rfl

/-! ### The actions -/

theorem hbmAction_record {a : Nat} {s : State} (h : a < bucketBase s) : hbmAction a s = recordAction (a / 128) (hbmUncorrectable a s) := if_pos h

theorem hbmAction_bucket {a : Nat} {s : State} (h : bucketBase s ≤ a) (h' : a < reservedBase s) :
    hbmAction a s = offerOp { op := .lostBucket, tag := (a - bucketBase s) / 64 } s := (if_neg (Nat.not_lt.2 h)).trans (if_pos h')

/-- The regions of the reserved gigabyte (R253, R537). -/
theorem hbmAction_reserved {a : Nat} {s : State} (h : bucketBase s ≤ a) (h' : reservedBase s ≤ a) : hbmAction a s =
    if 0x08000000 ≤ a - reservedBase s ∧ a - reservedBase s < 0x0A000000 then
      goldenDigestCheck ((a - reservedBase s - 0x08000000) / 0x100000) ((a - reservedBase s - 0x08000000) / 0x80000 % 2) false (hbmUncorrectable a s)
    else if a - reservedBase s < 0x04000000 then copyLost ((a - reservedBase s) / 0x02000000) (hbmUncorrectable a s)
    else if a - reservedBase s < 0x08000000 ∨ 0x12000000 ≤ a - reservedBase s then
      onlyIf (benchPresent (hbmUncorrectable a s)) (emergency 2) (hbmUncorrectable a s)
    else hbmUncorrectable a s := (if_neg (Nat.not_lt.2 h)).trans (if_neg (Nat.not_lt.2 h'))

theorem hbmAction_regions {a r : Nat} {s t : State} (hr : r = a - reservedBase s) (ht : t = hbmUncorrectable a s) (h : bucketBase s ≤ a)
    (h' : reservedBase s ≤ a) :
    (r < 0x04000000 → hbmAction a s = copyLost (r / 0x02000000) t) ∧
    (0x04000000 ≤ r → r < 0x08000000 → hbmAction a s = (if benchPresent t then emergency 2 t else t)) ∧
    (0x08000000 ≤ r → r < 0x0A000000 → hbmAction a s = goldenDigestCheck ((r - 0x08000000) / 0x100000) ((r - 0x08000000) / 0x80000 % 2) false t) ∧
    (0x0A000000 ≤ r → r < 0x12000000 → hbmAction a s = t) := by
  rw [hbmAction_reserved h h', ← hr, ← ht]
  refine ⟨fun h1 => ?_, fun h1 h2 => ?_, fun h1 h2 => ?_, fun h1 h2 => ?_⟩
  · rw [if_neg (by omega), if_pos h1]
  · rw [if_neg (by omega), if_neg (by omega), if_pos (.inl h2)]
    rfl
  · rw [if_pos ⟨h1, h2⟩]
  · rw [if_neg (by omega), if_neg (by omega), if_neg (by omega)]

theorem recordAction_of_place {i : Nat} {x : Nat × Nat} {s : State} (hl : lineLocked i s = false) (hp : placeOf i s = some x) :
    recordAction i s = offerOp { op := .lostRecord x.2 i, tag := x.1 } s := by
  unfold recordAction
  rw [hl, hp]
  rfl

theorem lineAction_cases {i : Nat} {l : Line} {s t : State} (hl : lineOf i s = some l) (ht : t = raise fchEccUncorrectable (count fchCtrs 6 0 1 s)) :
    (l.dirty = true → lineAction i s = offerOp { op := .lostRecord l.pos i, tag := l.bucket } t) ∧
    (l.dirty = false → l.locked = false → lineAction i s = dropLine i t) ∧
    (l.dirty = false → l.locked = true → lineAction i s = modLine i (fun l => { l with data := hbmRead (recAddr i) 128 t }) t) := by
  subst ht
  refine ⟨fun hd => ?_, fun hd hk => ?_, fun hd hk => ?_⟩
  · unfold lineAction
    rw [hl]
    exact if_pos hd
  · unfold lineAction
    rw [hl]
    dsimp only
    rw [hd, hk, if_neg Bool.false_ne_true, if_neg Bool.false_ne_true]
  · unfold lineAction
    rw [hl]
    dsimp only
    rw [hd, hk, if_neg Bool.false_ne_true, if_pos rfl]

/-! ### Recalibration and recovery -/

theorem exec_hbmRecal {k : Nat} (hk : k < 4) (hon : chanOn .hbm k s = true) (ok : Bool) : exec (.hbmRecal k ok) s = .next (hbmRecal k ok s) :=
  (guarded_of_true (decide_eq_true hk) _).trans (congrArg Host.Outcome.next (onlyIf_of_true hon _ _))

theorem hbmRecal_cases {k n : Nat} {s : State} (hn : n = sget zeroDefault s.recov.recal k + 1) :
    hbmRecal k true s = { s with recov := { s.recov with recal := sset zeroDefault s.recov.recal k 0 } } ∧
    (n < 3 → hbmRecal k false s = { s with recov := { s.recov with recal := sset zeroDefault s.recov.recal k n } }) ∧
    (3 ≤ n → hbmRecal k false s = hbmStackFault k 0x11 { s with recov := { s.recov with recal := sset zeroDefault s.recov.recal k n } }) := by
  subst hn
  exact ⟨rfl, fun h => if_neg (Nat.not_le.2 h), fun h => if_pos h⟩

theorem exec_autoRecover {t : Target} {s : State} (ht : targetOk t = true) (hr : recoverable t = true) :
    exec (.autoRecover t) s = .next (autoRecover t s) :=
  (guarded_of_true ht _).trans (congrArg Host.Outcome.next (onlyIf_of_true hr _ _))

theorem autoRecover_of_due {t : Target} {s : State} (hs : (tgt t s).st = .fault) (hc : (tgt t s).faultCode = 3) (he : recoverEnabled t.block s = true)
    (hb : resetBusy t s = false) (hg : s.recov.given.contains (tgtKey t) = false) :
    autoRecover t s = if 3 ≤ (recentRecoveries t s).length then recoverGivenUp t s else recoverTarget t s := by
  refine if_neg fun h => ?_
  rw [hs, hc, he, hb, hg] at h
  simp at h

theorem recoverTarget_spec {t : Target} {s u v : State} (hb : t.block ≠ .fen) (hu : u = recoverLoss t s)
    (hv : v = { u with recov := { u.recov with recovered := sset (fun _ => []) u.recov.recovered (tgtKey t) (u.tim.raw :: recentRecoveries t u) } }) :
    recoverTarget t s = offRows t (raise scrAutoRecovered (sat1 scrRecoverCount_recovered
      (noteReset t true 0 true (modTgt t (fun x => { x with st := .off, faultCode := 0 }) v)))) := by
  subst hu hv
  refine if_neg ?_
  rw [decide_eq_false hb]
  exact Bool.false_ne_true

/-- Settles O52: scrub reads by word and outcome, then the actions one by one. -/
theorem scrubbersAndRecoveryAct : Obligations.ScrubbersAndRecoveryAct := by
  unfold Obligations.ScrubbersAndRecoveryAct
  intro s
  refine ⟨fun x addr t hact hok hin => ⟨?_, fun ht => ⟨fun hm hl hb => ?_, fun i hx => ?_, fun p i w hx => ?_⟩, fun ht => ?_⟩,
    fun a r t hr ht => ⟨fun h => ht ▸ hbmAction_record h, fun h h' => hbmAction_bucket h h', fun h h' => hbmAction_regions hr ht h h'⟩,
    fun i x hl hp => recordAction_of_place hl hp, fun i l t hl ht => lineAction_cases hl ht, fun k code h => if_neg h,
    fun store a al => ⟨fun h => if_pos h, fun h => if_neg (by omega)⟩, fun x addr o last hact hok hm => ?_, fun addr o last h => if_pos ⟨rfl, h⟩,
    fun k n hk hn hon => ?_, fun k ok hk hoff => ?_, fun t ht hr => ⟨fun h => ?_, fun hs hc he hb hg => ⟨fun h => ?_, fun h => ?_⟩⟩,
    fun t u v hb hu hv => recoverTarget_spec hb hu hv, fun t ht hr => ?_⟩
  · exact exec_scrubRead hact hok hin .clean
  · rw [exec_scrubRead_corrected hact hok hin, scrubCorrected_plain hm hl hb, ht]
    rfl
  · subst ht hx
    exact exec_scrubRead_corrected hact hok hin
  · subst ht hx
    exact exec_scrubRead_corrected hact hok hin
  · have hexec := exec_scrubRead_uncorrectable hact hok hin ht
    clear ht
    refine ⟨fun hx => ?_, fun p i w hx => ?_, fun i hx => ?_, fun e hx => ?_, fun i hx => ?_, fun i hx => ?_, fun i hx => ?_, fun i hx => ?_, fun i hx => ?_,
      fun h i hx => ?_, fun g hx hst => hexec.trans ?_, fun hx hst => hexec.trans ?_⟩
    all_goals subst hx
    iterate 10 exact hexec
    · exact congrArg Host.Outcome.next (if_pos hst)
    · exact congrArg Host.Outcome.next (if_pos hst)
  · exact (if_neg fun h => hm h.1).trans ((guarded_of_true hok _).trans (congrArg Host.Outcome.next (onlyIf_of_false hact _ _)))
  · rw [exec_hbmRecal hk hon, exec_hbmRecal hk hon]
    obtain ⟨hgood, hfew, hmany⟩ := hbmRecal_cases hn
    exact ⟨congrArg Host.Outcome.next hgood, fun h => congrArg Host.Outcome.next (hfew h), fun h => congrArg Host.Outcome.next (hmany h)⟩
  · exact (guarded_of_true (decide_eq_true hk) _).trans (congrArg Host.Outcome.next (onlyIf_of_false hoff _ _))
  · exact (exec_autoRecover ht hr).trans (congrArg Host.Outcome.next (if_pos h))
  · rw [exec_autoRecover ht hr, autoRecover_of_due hs hc he hb hg, if_pos h]
    rfl
  · rw [exec_autoRecover ht hr, autoRecover_of_due hs hc he hb hg, if_neg (Nat.not_le.2 h)]
  · exact (guarded_of_true ht _).trans (congrArg Host.Outcome.next (onlyIf_of_false hr _ _))

end Sys2Proof.Machine
end

section
/-! PROOFS. Bench: the watchdog, emergency restarts, Hallmark's restart and handovers (R526, R527, R553 to R555, R558, R561). -/

namespace Sys2Proof.Machine

/-! ### Watchdog and emergency restarts -/

theorem exec_wdogKick {w : Window} {v : Word} {s : State} (ha : Admits w .bnc s) :
    exec (.wdogKick w v) s = .next (notThroughH w bncWdogKick_key.off (wdogKick w v) s) := congrArg Host.Outcome.next (writing_of_admits ha _)

theorem wdogRuns_of_running {s : State} (h2 : rd bncStatus_state s = 2) (hp : s.fw.phase = 0 ∨ s.fw.phase = 4) : wdogRuns s = true := by
  have hrun : benchRunning s = true := decide_eq_true h2
  unfold wdogRuns
  rw [hrun, decide_eq_true hp]
  rfl

theorem emergency_of_first {cause : Nat} {s : State} (hp : s.fw.phase = 0) (hl : s.fw.lastEmergency = none) :
    emergency cause s = wr bncStatus_state 3 { s with fw := { s.fw with
      phase := (if copyGood s then 4 else 3), emergency := some cause, lastEmergency := some s.tim.raw, windowRaw := s.tim.raw } } := by
  have hno : (decide (s.fw.phase ≠ 0) && s.fw.emergency.isNone) = false := by rw [hp]; rfl
  unfold emergency
  dsimp only
  rw [hl, hno, if_neg Bool.false_ne_true]
  rfl

theorem emergency_of_again {cause r : Nat} {s : State} (hp : s.fw.phase = 0) (hl : s.fw.lastEmergency = some r) (hr : s.tim.raw - r < rawTenSeconds) :
    emergency cause s = firmwareWarm cause { s with fw := { s.fw with lastEmergency := some s.tim.raw } } := by
  have hno : (decide (s.fw.phase ≠ 0) && s.fw.emergency.isNone) = false := by rw [hp]; rfl
  unfold emergency
  dsimp only
  rw [hl, hno, if_neg Bool.false_ne_true]
  dsimp only
  exact if_pos (decide_eq_true hr)

theorem benchPresent_of_running {s : State} (h : rd bncStatus_state s = 2) : benchPresent s = true := decide_eq_true (.inl h)

/-! ### The steps of a handover -/

theorem newBenchRunning_of_emergency {cause : Nat} {s : State} (h : s.fw.emergency = some cause) : newBenchRunning s =
    raise scrBenchRestarted (benchRecord cause false (benchRuns (wr bncStatus_unclean 1
      { incX bncHandover_count 0 0 s with fw := { (incX bncHandover_count 0 0 s).fw with phase := 0, emergency := none } }))) := by
  unfold newBenchRunning
  dsimp only
  rw [h]

theorem newBenchRunning_of_failed {s : State} (h : s.fw.emergency = none) (hp : s.fw.phase = 9) :
    newBenchRunning s = benchRuns { incX bncHandover_count 0 0 s with fw := { (incX bncHandover_count 0 0 s).fw with phase := 0 } } := by
  unfold newBenchRunning
  dsimp only
  rw [h]
  dsimp only
  rw [if_pos hp]

theorem newBenchRunning_of_handover {s t : State} (h : s.fw.emergency = none) (hp : s.fw.phase = 8) (hf : s.fw.forced = false)
    (ht : t = incX bncHandover_count 0 0 s) : newBenchRunning s = endService 0 0 0 (raise bncHandoverDone (benchRuns (noteHandover 0
      (wr bncHandover_lastMs (windowMs s) (wr hmkStatus_hostImage 1 (showImage t.fw.next t)))))) := by
  subst ht
  have hno : ¬ s.fw.phase = 9 := by omega
  unfold newBenchRunning
  dsimp only
  rw [h]
  dsimp only
  rw [if_neg hno, hf, if_neg Bool.false_ne_true, if_neg Bool.false_ne_true, (incX_changes bncHandover_count 0 0 s (ks := [_]) (cs := []) (List.mem_singleton_self _)).fw]

theorem handoverTimeout_of_emergency {cause : Nat} {s : State} (h : s.fw.emergency = some cause) : handoverTimeout s = firmwareWarm cause s := by
  unfold handoverTimeout
  rw [h]

theorem handoverTimeout_cases {s : State} (h : s.fw.emergency = none) :
    (s.fw.phase = 4 → handoverTimeout s = endService 5 0 0 (raise bncHandoverFailed (noteHandover 2 s))) ∧
    (s.fw.phase = 6 → handoverTimeout s = swapPair { s with fw := { s.fw with phase := 8, forced := true } }) ∧
    (s.fw.phase = 8 → ∀ t, t = raise bncHandoverFailed (noteHandover 4 s) →
      handoverTimeout s = endService 5 0 0 (swapPair { t with fw := { t.fw with phase := 9 } })) := by
  refine ⟨fun hp => ?_, fun hp => ?_, fun hp t ht => ?_⟩
  · unfold handoverTimeout
    rw [h]
    dsimp only
    rw [hp]
    rfl
  · unfold handoverTimeout
    rw [h]
    dsimp only
    rw [hp]
    rfl
  · subst ht
    unfold handoverTimeout
    rw [h]
    dsimp only
    rw [hp]
    rfl

/-- Moving the core pair reads and writes a register alone, so the firmware state may be set before or after. -/
theorem swapPair_with_fw (x : Firmware) (s : State) :
    swapPair { s with fw := x } = { wr bncStatus_activePair (1 - rd bncStatus_activePair s) s with fw := x } := by
  unfold swapPair
  rw [rd_with_fw]
  rfl

/-- Settles O53, command by command. -/
theorem benchIsWatchedRestartedAndHandedOver : Obligations.BenchIsWatchedRestartedAndHandedOver := by
  unfold Obligations.BenchIsWatchedRestartedAndHandedOver
  intro s
  refine ⟨fun v ha => ⟨fun hk => ?_, fun hk => ?_⟩, fun v ha => exec_wdogKick ha, fun h2 hp => ?_,
    fun cause h1 h3 => ⟨fun hb => ?_, fun hb => ?_, fun hp hl => emergency_of_first hp hl, fun r hp hl hr => emergency_of_again hp hl hr⟩, fun h2 => ?_, ?_,
    fun addr => ⟨fun h => congrArg Host.Outcome.next (if_pos h), fun h => ⟨?_, fun bad => ?_⟩, fun h => congrArg Host.Outcome.next (if_neg h)⟩,
    fun hp he => ?_, fun hp he => ⟨?_, ?_⟩, fun t hp ht => ⟨?_, fun he => ?_⟩, fun cause t hp he ht => ?_, fun cause hp he => ?_,
    fun t hp he hf ht => ?_, fun t hp he ht => ?_, fun t hp he ht => ?_, fun result => rfl, fun status detail len => ⟨fun h => ?_, fun h => ?_⟩, fun hp => ?_⟩
  · exact (exec_wdogKick ha).trans (congrArg Host.Outcome.next (if_pos hk))
  · exact (exec_wdogKick ha).trans (congrArg Host.Outcome.next (if_neg hk))
  · have hruns := wdogRuns_of_running h2 hp
    exact ⟨fun hw => congrArg Host.Outcome.next (onlyIf_of_true (by rw [hruns, hw]; rfl) _ _), fun hw => congrArg Host.Outcome.next (onlyIf_of_true (by rw [hruns, hw]; rfl) _ _),
      fun hw => congrArg Host.Outcome.next (onlyIf_of_false (by rw [hw, Bool.and_false]) _ _)⟩
  · exact (guarded_of_true (decide_eq_true ⟨h1, h3⟩) _).trans (congrArg Host.Outcome.next (onlyIf_of_true (decide_eq_true hb) _ _))
  · exact (guarded_of_true (decide_eq_true ⟨h1, h3⟩) _).trans (congrArg Host.Outcome.next (onlyIf_of_false (decide_eq_false (by omega)) _ _))
  · exact congrArg Host.Outcome.next (onlyIf_of_true (benchPresent_of_running h2) _ _)
  · unfold copyGood
    simp
  · exact congrArg Host.Outcome.next (if_pos h)
  · exact congrArg Host.Outcome.next (if_pos h)
  · refine congrArg Host.Outcome.next ((onlyIf_of_true (decide_eq_true hp) _ _).trans ((if_pos he).trans ?_))
    exact swapPair_with_fw _ s
  · refine congrArg Host.Outcome.next ((onlyIf_of_true (decide_eq_true hp) _ _).trans (if_neg ?_))
    rw [he]
    exact Bool.false_ne_true
  · exact congrArg Host.Outcome.next ((onlyIf_of_true (decide_eq_true (by omega)) _ _).trans ((handoverTimeout_cases he).1 hp))
  · subst ht
    exact congrArg Host.Outcome.next ((onlyIf_of_true (decide_eq_true hp) _ _).trans (swapPair_with_fw _ s))
  · subst ht
    exact congrArg Host.Outcome.next ((onlyIf_of_true (decide_eq_true (by omega)) _ _).trans (((handoverTimeout_cases he).2.1 hp).trans (swapPair_with_fw _ s)))
  · subst ht
    exact congrArg Host.Outcome.next ((onlyIf_of_true (decide_eq_true (.inl hp)) _ _).trans (newBenchRunning_of_emergency he))
  · exact congrArg Host.Outcome.next ((onlyIf_of_true (decide_eq_true hp) _ _).trans (handoverTimeout_of_emergency he))
  · exact congrArg Host.Outcome.next ((onlyIf_of_true (decide_eq_true (.inl hp)) _ _).trans (newBenchRunning_of_handover he hp hf ht))
  · refine congrArg Host.Outcome.next ((onlyIf_of_true (decide_eq_true (by omega)) _ _).trans (((handoverTimeout_cases he).2.2 hp t ht).trans ?_))
    unfold swapPair
    rw [rd_with_fw]
  · subst ht
    exact congrArg Host.Outcome.next ((onlyIf_of_true (decide_eq_true (.inr hp)) _ _).trans (newBenchRunning_of_failed he hp))
  · exact if_neg (by rw [h]; exact Bool.false_ne_true)
  · exact if_pos h
  · exact ⟨congrArg Host.Outcome.next (onlyIf_of_false (decide_eq_false (by omega)) _ _), congrArg Host.Outcome.next (onlyIf_of_false (decide_eq_false (by omega)) _ _),
      congrArg Host.Outcome.next (onlyIf_of_false (decide_eq_false (by omega)) _ _), congrArg Host.Outcome.next (onlyIf_of_false (decide_eq_false (by omega)) _ _)⟩

end Sys2Proof.Machine
end

section
/-! PROOFS. Mailbox rings and the services of both mailboxes (R249, R538, R539, R546, R548 to R551, R554). -/

namespace Sys2Proof.Machine

/-! ### The rings -/

theorem notThroughB_of_ne {w : Window} {off : Nat} {f : State → State} {s : State} (hw : w ≠ .b) : notThroughB w off f s = f s := by
  cases w with
  | b => exact absurd rfl hw
  | h => rfl
  | hm _ _ => rfl

theorem exec_mboxProdWrite {w : Window} {m : Nat} {v : Word} {es : List (List Byte)} {s : State} (hw : w ≠ .b) (hm : m < 2) (ha : Admits w .hif s) :
    exec (.mboxProdWrite w m v es) s = .next (mboxProdWrite m v es s) :=
  (guarded_of_true (decide_eq_true hm) _).trans (congrArg Host.Outcome.next ((writing_of_admits ha _).trans (notThroughB_of_ne hw)))

theorem exec_mboxEnable {w : Window} {m : Nat} {v : Word} {s : State} (hw : w ≠ .b) (hm : m < 2) (ha : Admits w .hif s) :
    exec (.mboxEnable w m v) s = .next (mboxCfgWrite m (v ||| 16) s) :=
  (guarded_of_true (decide_eq_true hm) _).trans (congrArg Host.Outcome.next ((writing_of_admits ha _).trans (notThroughB_of_ne hw)))

theorem storeBoxes_lostEntry (m : Nat) (es : List (List Byte)) : ∀ (k : Nat) (s : State), (storeBoxes m k es s).fw.lostEntry = s.fw.lostEntry := by
  induction es with
  | nil => exact fun k s => rfl
  | cons e es ih => exact fun k s => ih _ _

theorem mboxProdWrite_of_disabled {m : Nat} {v : Word} {es : List (List Byte)} {s : State} (h : rdX hifMboxCfg_enable m 0 s = 0) :
    mboxProdWrite m v es s = s := if_pos h

theorem mboxProdWrite_of_enabled {m p n size : Nat} {v : Word} {es : List (List Byte)} {s : State} (hsize : size = 2 ^ (mboxN m s + 1))
    (hp : p = rdX hifMboxProd_index m 0 s) (hn : n = (wordField v 0 11 % size + size - p % size) % size) (h : rdX hifMboxCfg_enable m 0 s = 1)
    (hl : es.length = n) : mboxProdWrite m v es s =
      if m = 1 then arriveBusy size p n (wrX hifMboxProd_index m 0 (wordField v 0 11 % size) (storeBoxes m p es s))
      else wrX hifMboxProd_index m 0 (wordField v 0 11 % size) (storeBoxes m p es s) := by
  have hne : ¬ rdX hifMboxCfg_enable m 0 s = 0 := by omega
  have htake : (es ++ List.replicate n []).take n = es := by rw [← hl, List.take_left]
  unfold mboxProdWrite
  dsimp only
  rw [if_neg hne, ← hsize, ← hp, ← hn, htake]

theorem endAtOnce_of_other {k : Nat} {s : State} (h : exclusive (mbService (sget (fun _ => []) s.fw.boxes (2048 + k))) = false) : endAtOnce k s = s :=
  if_neg (by rw [h]; exact Bool.false_ne_true)

theorem arriveBusy_of_idle {size p n : Nat} {t : State} (h : inService 1 t = false ∨ rd hmkStatus_state t ≠ 1) : arriveBusy size p n t = t := by
  refine if_neg fun hc => ?_
  rw [Bool.and_eq_true] at hc
  obtain ⟨hin, hserved⟩ := hc
  rcases h with h | h
  · exact Bool.false_ne_true (h.symm.trans hin)
  · exact h (of_decide_eq_true hserved)

theorem arriveBusy_of_busy {size p n : Nat} {t : State} (hin : inService 1 t = true) (hserved : rd hmkStatus_state t = 1) (hlost : t.fw.lostEntry = false) :
    arriveBusy size p n t = foldOver (List.range n) (fun i a => endAtOnce ((p + i) % size) a) t := by
  have hsv : served 1 t = true := decide_eq_true hserved
  unfold arriveBusy
  dsimp only
  rw [hin, hsv, hlost]
  rfl

theorem mboxCfgWrite_of_enabled {m : Nat} {v : Word} {s : State} (h : rdX hifMboxCfg_enable m 0 s = 1) :
    mboxCfgWrite m (v ||| 16) s = wrX hifMboxCfg_enable m 0 1 s := by
  have hen : wordField (v ||| 16) 4 1 = 1 := wordField_or_bit (by decide)
  unfold mboxCfgWrite
  dsimp only
  rw [if_pos h, hen]

theorem mboxCfgWrite_of_disabled {m : Nat} {v : Word} {s t : State}
    (ht : t = wrX hifMboxCfg_enable m 0 1 (wrX hifMboxCfg_log2Entries m 0 (wordField v 0 4) s)) (h : rdX hifMboxCfg_enable m 0 s = 0) :
    mboxCfgWrite m (v ||| 16) s =
      if decide (rdX hifMboxBaseLo_addr m 0 s % 64 = 0 ∧ 4 ≤ wordField v 0 4 ∧ wordField v 0 4 ≤ 10) then
        { t with fw := { t.fw with stopped := t.fw.stopped.filter (· != m) } }
      else stopMbox m { t with fw := { t.fw with stopped := t.fw.stopped.filter (· != m) } } := by
  have hen : wordField (v ||| 16) 4 1 = 1 := wordField_or_bit (by decide)
  have hn : wordField (v ||| 16) 0 4 = wordField v 0 4 := wordField_or_apart (by decide)
  have hno : ¬ rdX hifMboxCfg_enable m 0 s = 1 := by omega
  subst ht
  unfold mboxCfgWrite
  dsimp only
  rw [if_neg hno, hen, hn, if_neg Nat.one_ne_zero]

/-! ### Services -/

theorem serve_of_head {m service : Nat} {f : List Byte → State → State} {e : List Byte} {s : State} (he : headEntry m s = some e)
    (hs : mbService e = service) : serve m service f s = f e s := by
  unfold serve
  rw [he]
  exact if_pos hs

theorem serve_of_none {m service : Nat} {f : List Byte → State → State} {s : State} (he : headEntry m s = none) : serve m service f s = s := by
  unfold serve
  rw [he]

theorem answerBytes_cases {m n : Nat} {e bs : List Byte} {s : State} (hl : bs.length = n) :
    (mbLen e < n → answerBytes m e bs s = completeMbox m 2 0 0 s) ∧
    (n ≤ mbLen e → answerBytes m e bs s = completeMbox m 0 0 n (emit (.hostWrite (mbBuf e) bs) s)) := by
  subst hl
  exact ⟨fun h => if_pos h, fun h => if_neg (Nat.not_lt.2 h)⟩

theorem svcRouteUpdate_of_vrf {buf e : List Byte} {s : State} (h : 4095 < mbParam0 e) : svcRouteUpdate buf e s = completeMbox 0 2 0 0 s := if_pos h

theorem svcRouteUpdate_of_bad_record {buf e bs : List Byte} {n i : Nat} {s : State} (h : mbParam0 e ≤ 4095) (hbs : bs = slice buf 0 (mbLen e))
    (hn : n = bs.length / 24) (hi : firstIndex n (fun i => !updateOk (mbParam0 e) s ((chunks 24 n bs).getD i [])) = some i) :
    svcRouteUpdate buf e s = completeMbox 0 2 i 0 s := by
  subst hbs hn
  unfold svcRouteUpdate
  dsimp only
  rw [if_neg (Nat.not_lt.2 h), hi]

theorem svcRouteUpdate_of_built {buf e bs : List Byte} {s t u : State} (h : mbParam0 e ≤ 4095) (hbs : bs = slice buf 0 (mbLen e))
    (hl : bs.length % 24 = 0)
    (hi : firstIndex (bs.length / 24) (fun i => !updateOk (mbParam0 e) s ((chunks 24 (bs.length / 24) bs).getD i [])) = none)
    (ht : t = { s with lpm := { s.lpm with routes := foldOver (chunks 24 (bs.length / 24) bs) (updateRoutes (mbParam0 e)) s.lpm.routes } })
    (hu : (buildRoutes (mbParam0 e) 0 t).bind (buildRoutes (mbParam0 e) 1) = some u) : svcRouteUpdate buf e s = completeMbox 0 0 0 0 u := by
  subst hbs ht
  unfold svcRouteUpdate
  dsimp only
  rw [if_neg (Nat.not_lt.2 h), hi]
  dsimp only
  rw [if_neg (not_not_intro hl), hu]

theorem svcFlashWrite_of_none {buf e : List Byte} {s : State} (h : flashRegion (mbParam0 e) s = none) :
    svcFlashWrite buf e s = completeMbox 0 2 0 0 s := by
  unfold svcFlashWrite
  dsimp only
  rw [h]

theorem svcFlashWrite_of_image {buf e bs : List Byte} {o l : Nat} {s : State} (hbs : bs = slice buf 0 (mbLen e))
    (h : flashRegion (mbParam0 e) s = some (mbParam0 e, o, l)) (hr : mbParam0 e = 3 ∨ mbParam0 e = 4) (hl : mbParam1 e + bs.length ≤ l)
    (hi : imageSound s.variant bs = true) (hm : mayProgram s = true) :
    svcFlashWrite buf e s = completeMbox 0 0 0 0 (emit (.bus "QSPI" ((o + mbParam1 e) :: bs.map (fun b => b.toNat))) s) := by
  subst hbs
  have hno : ¬ (mbParam0 e = 0 ∨ 4 < mbParam0 e ∨ l < mbParam1 e + (slice buf 0 (mbLen e)).length) := by omega
  have hslot : ¬ mbParam0 e ≤ 2 := by omega
  unfold svcFlashWrite
  dsimp only
  rw [h]
  dsimp only
  rw [if_neg hno, if_neg hslot, if_neg (not_not_intro rfl), hi, hm, if_neg (fun hc => Bool.false_ne_true hc.2.symm), if_neg (by decide : ¬ true = false)]

theorem svcSetPreferred_cases {e : List Byte} {p : Nat} {s : State} (hp : p = mbParam0 e) :
    (1 < p → svcSetPreferred e s = completeMbox 0 2 0 0 s) ∧
    (p ≤ 1 → s.fw.dir = [] ∨ mayProgram s = false → svcSetPreferred e s = completeMbox 0 5 0 0 s) ∧
    (p ≤ 1 → s.fw.dir ≠ [] → mayProgram s = true → svcSetPreferred e s = completeMbox 0 0 0 0 (writeDir 0 (withPreferred p s.fw.dirBytes)
      (writeDir 0x10000 (withPreferred p s.fw.dirBytes) { s with fw := { s.fw with preferred := p, dirBytes := withPreferred p s.fw.dirBytes } }))) := by
  subst hp
  refine ⟨fun h => if_pos h, fun h hd => (if_neg (Nat.not_lt.2 h)).trans (if_pos hd), fun h hd hm => ?_⟩
  have hno : ¬ (s.fw.dir = [] ∨ mayProgram s = false) := fun hc => hc.elim hd fun hc => Bool.false_ne_true (hc.symm.trans hm)
  unfold svcSetPreferred
  dsimp only
  rw [if_neg (Nat.not_lt.2 h), if_neg hno]

theorem svcUnknown_of_head {m : Nat} {e : List Byte} {s : State} (he : headEntry m s = some e) (h : (servicesOf m).contains (mbService e) = false) :
    svcUnknown m s = completeMbox m 1 0 0 s := by
  unfold svcUnknown
  rw [he]
  dsimp only
  rw [h]
  exact if_neg Bool.false_ne_true

/-! ### Hallmark's services -/

theorem svcDeliverBench_cases {buf e img : List Byte} {r a : Nat} {s : State} (himg : img = slice buf 0 (mbLen e))
    (hr : r = envelopeReason false [1] anyContent img s) (ha : a = (if rd bncStatus_state s = 0 then 0 else 1 - s.fw.image.area)) :
    (takesDelivery s = false → svcDeliverBench buf e s = completeMbox 1 5 0 0 s) ∧
    (takesDelivery s = true → r ≠ 0 → svcDeliverBench buf e s = completeMbox 1 4 r 0 (refuseImage s)) ∧
    (takesDelivery s = true → r = 0 → svcDeliverBench buf e s = completeMbox 1 0 0 0 (wr hmkStatus_hostImage 1
      (wr cfgStartState_step 5 (wr cfgStartState_state 0 (showImage (benchImageOf a img) (loadCopy a img s)))))) := by
  subst himg ha
  refine ⟨fun h => ?_, fun h h0 => ?_, fun h h0 => ?_⟩
  · unfold svcDeliverBench
    dsimp only
    rw [h]
    rfl
  · unfold svcDeliverBench
    dsimp only
    rw [h, ← hr, if_neg (by decide), if_pos h0]
  · unfold svcDeliverBench
    dsimp only
    rw [h, ← hr, if_neg (by decide), if_neg (not_not_intro h0)]

theorem svcHandover_cases {buf e img : List Byte} {r : Nat} {s : State} (himg : img = slice buf 0 (mbLen e))
    (hr : r = envelopeReason false [1] (fun e => decide (leAt e 0x1C 1 ≤ s.fw.image.vaultWrite ∧ s.fw.image.vaultWrite ≤ leAt e 0x1D 1)) img s) :
    (hallmarkBusy s = true → svcHandover buf e s = completeMbox 1 3 0 0 s) ∧
    (hallmarkBusy s = false → benchRunning s = false → svcHandover buf e s = completeMbox 1 5 0 0 s) ∧
    (hallmarkBusy s = false → benchRunning s = true → r ≠ 0 → svcHandover buf e s = completeMbox 1 4 r 0 (noteHandover 1 (refuseImage s))) ∧
    (hallmarkBusy s = false → benchRunning s = true → r = 0 → svcHandover buf e s =
      { s with fw := { (loadCopy (1 - s.fw.image.area) img s).fw with phase := 4, next := benchImageOf (1 - s.fw.image.area) img } }) := by
  subst himg
  refine ⟨fun h => if_pos h, fun h hb => ?_, fun h hb h0 => ?_, fun h hb h0 => ?_⟩
  · unfold svcHandover
    dsimp only
    rw [h, hb]
    rfl
  · unfold svcHandover
    dsimp only
    rw [h, hb, ← hr, if_neg Bool.false_ne_true, if_neg (by decide), if_pos h0]
  · unfold svcHandover
    dsimp only
    rw [h, hb, ← hr, if_neg Bool.false_ne_true, if_neg (by decide), if_neg (not_not_intro h0)]
    rfl

/-! ### Patches -/

/-- What SVC_PATCH begins, for the clusters that it names (R548). -/
def patchBegun (cs : List Nat) (p : List Byte) (commit : Bool) (s : State) : State :=
  { s with fw := { s.fw with patch := some { left := cs.map (fun c => (c, patchedImage c p s)), clusters := cs, commit := commit } } }

theorem svcPatch_of_idle {buf e ev p : List Byte} {cs : List Nat} {r : Nat} {s : State} (hb : hallmarkBusy s = false) (hev : ev = slice buf 0 (mbLen e))
    (hp : p = evPayload ev) (hcs : cs = maskClusters (mbParam0 e))
    (hr : r = envelopeReason false [3] (fun _ => patchSound p && cs.all (fun c => decide (liveSequence c s = leAt p 0 4) && bankImageOk (patchedImage c p s))) ev s) :
    svcPatch buf e s = if r ≠ 0 then completeMbox 1 4 r 0 (refuseImage s)
      else if cs.any (fun c => decide (3 ≤ bankState c (1 - liveBank c s) s)) then completeMbox 1 3 0 0 s
      else patchNext (patchBegun cs p (bit (mbParam1 e) 0) s) := by
  subst hev hp hcs hr
  exact if_neg (by rw [hb]; exact Bool.false_ne_true)

theorem patchNext_of_cons {c : Nat} {rest : List Nat} {p : List Byte} {commit : Bool} {s : State} :
    patchNext (patchBegun (c :: rest) p commit s) = beginBankLoad c (1 - liveBank c s) (patchedImage c p s)
      { s with fw := { s.fw with patch := some { left := rest.map (fun x => (x, patchedImage x p s)), clusters := c :: rest, commit := commit } } } := rfl

theorem patchNext_of_nil {p : List Byte} {s : State} (h : s.fw.patch = none) : patchNext (patchBegun [] p false s) = endService 0 0 0 s := by
  have hfw : { s.fw with patch := none } = s.fw := by rw [← h]
  have hnext : patchNext (patchBegun [] p false s) = endService 0 0 0 { s with fw := { s.fw with patch := none } } := rfl
  rw [hnext, hfw]

theorem envelopeReason_of_short {slot : Bool} {kinds : List Nat} {content : List Byte → Bool} {e : List Byte} {s : State} (h : e.length < 0x180) :
    envelopeReason slot kinds content e s = 1 := if_pos h

theorem patch_none_of_idle {s : State} (h : hallmarkBusy s = false) : s.fw.patch = none := by
  unfold hallmarkBusy at h
  simp only [Bool.or_eq_false_iff] at h
  obtain ⟨⟨⟨-, hp⟩, -⟩, -⟩ := h
  exact Option.isNone_iff_eq_none.1 (by rw [← Option.not_isSome, hp]; rfl)

theorem exclusive_iff (service : Nat) : exclusive service = true ↔ 0x0104 ≤ service ∧ service ≤ 0x0108 := by
  unfold exclusive
  rw [decide_eq_true_iff]

/-- Settles O54, service by service. -/
theorem mailboxServicesAnswer : Obligations.MailboxServicesAnswer := by
  unfold Obligations.MailboxServicesAnswer
  intro s
  refine ⟨fun w m v es hw hm ha => ⟨fun h => ?_, fun size p n hsize hp hn h hl => ⟨fun h0 => ?_, fun t h1 ht => ?_⟩, fun t ht h hbad => ?_,
      fun t ht h hn hb => ?_, fun h => ?_⟩,
    fun m k status detail len t ht => by subst ht; rfl, exclusive_iff, fun e he => ⟨fun bs hs hbs => ?_, fun buf hs h => ?_,
      fun buf bs n i hs h hbs hn hi => ?_, fun buf bs t u hs h hbs hl hi ht hu => ?_, fun buf hs h => ?_, fun buf bs o l hs hbs h hr hl hi hm => ?_,
      fun p hs hp => ?_, fun off d => rfl, fun p d => rfl, fun h => ?_⟩, fun he => ?_, fun e he => ?_⟩
  · rw [exec_mboxProdWrite hw hm ha, mboxProdWrite_of_disabled h]
  · rw [exec_mboxProdWrite hw hm ha, mboxProdWrite_of_enabled hsize hp hn h hl, if_neg (by omega)]
  · subst h1
    rw [exec_mboxProdWrite hw hm ha, mboxProdWrite_of_enabled hsize hp hn h hl, if_pos rfl, ← ht]
    have hlost : s.fw.lostEntry = false → t.fw.lostEntry = false := fun hl => by
      rw [ht]
      exact (storeBoxes_lostEntry 1 es p s).trans hl
    refine ⟨fun hidle => congrArg Host.Outcome.next (arriveBusy_of_idle hidle), fun hin hsv hle hx => ?_, fun k hin hsv hle hn1 hk hx => ?_⟩
    · rw [arriveBusy_of_busy hin hsv (hlost hle)]
      exact congrArg Host.Outcome.next (foldOver_id fun i hi => endAtOnce_of_other (hx i (List.mem_range.1 hi)))
    · rw [arriveBusy_of_busy hin hsv (hlost hle), hn1, hk]
      refine congrArg Host.Outcome.next (if_pos ?_)
      rw [Nat.add_zero, ← hk]
      exact hx
  · rw [exec_mboxEnable hw hm ha, mboxCfgWrite_of_disabled ht h, decide_eq_false (by omega), if_neg Bool.false_ne_true]
    rfl
  · rw [exec_mboxEnable hw hm ha, mboxCfgWrite_of_disabled ht h, if_pos (decide_eq_true ⟨hb, hn⟩)]
  · rw [exec_mboxEnable hw hm ha, mboxCfgWrite_of_enabled h]
  · have hexec : exec .svcStatus s = .next (answerBytes 0 e bs s) := congrArg Host.Outcome.next ((serve_of_head he hs).trans (by rw [hbs]; rfl))
    rw [hexec]
    exact ⟨fun hlen hl => congrArg Host.Outcome.next ((answerBytes_cases hl).1 hlen), fun hlen hl => congrArg Host.Outcome.next ((answerBytes_cases hl).2 hlen)⟩
  · exact congrArg Host.Outcome.next ((serve_of_head he hs).trans (svcRouteUpdate_of_vrf h))
  · exact congrArg Host.Outcome.next ((serve_of_head he hs).trans (svcRouteUpdate_of_bad_record h hbs hn hi))
  · exact congrArg Host.Outcome.next ((serve_of_head he hs).trans (svcRouteUpdate_of_built h hbs hl hi ht hu))
  · exact congrArg Host.Outcome.next ((serve_of_head he hs).trans (svcFlashWrite_of_none h))
  · exact congrArg Host.Outcome.next ((serve_of_head he hs).trans (svcFlashWrite_of_image hbs h hr hl hi hm))
  · have hexec : exec .svcSetPreferred s = .next (svcSetPreferred e s) := congrArg Host.Outcome.next (serve_of_head he hs)
    obtain ⟨hbad, hno, hset⟩ := svcSetPreferred_cases (s := s) hp
    rw [hexec]
    exact ⟨fun h => congrArg Host.Outcome.next (hbad h), fun h hd => congrArg Host.Outcome.next (hno h hd), fun h hd hm => congrArg Host.Outcome.next (hset h hd hm)⟩
  · exact (guarded_of_true rfl _).trans (congrArg Host.Outcome.next (svcUnknown_of_head he h))
  · refine ⟨congrArg Host.Outcome.next (serve_of_none he), congrArg Host.Outcome.next (serve_of_none he), (guarded_of_true rfl _).trans (congrArg Host.Outcome.next ?_)⟩
    unfold svcUnknown
    rw [he]
  · refine ⟨fun bs hs hbs hl => ?_, fun buf r hs hr => ?_, fun buf img r a hs himg hr ha => ?_, fun buf img r hs himg hr => ?_, fun a img => rfl,
      fun buf hs hb => ?_, fun buf hs hb hl => ?_, fun buf ev p cs r hs hb hev hp hcs hr => ?_, fun h => ?_⟩
    · have hexec : exec .svcIdentity s = .next (answerBytes 1 e bs (takeFree s).2) := congrArg Host.Outcome.next ((serve_of_head he hs).trans (by rw [hbs]; rfl))
      rw [hexec]
      exact ⟨fun hlen => congrArg Host.Outcome.next ((answerBytes_cases hl).1 hlen), fun hlen => congrArg Host.Outcome.next ((answerBytes_cases hl).2 hlen)⟩
    · subst hr
      exact congrArg Host.Outcome.next (serve_of_head he hs)
    · have hexec : exec (.svcDeliverBench buf) s = .next (svcDeliverBench buf e s) := congrArg Host.Outcome.next (serve_of_head he hs)
      obtain ⟨hno, hbad, hgood⟩ := svcDeliverBench_cases himg hr ha
      rw [hexec]
      exact ⟨fun h => congrArg Host.Outcome.next (hno h), fun h h0 => congrArg Host.Outcome.next (hbad h h0), fun h h0 => congrArg Host.Outcome.next (hgood h h0)⟩
    · have hexec : exec (.svcHandover buf) s = .next (svcHandover buf e s) := congrArg Host.Outcome.next (serve_of_head he hs)
      obtain ⟨hbusy, hoff, hbad, hgood⟩ := svcHandover_cases himg hr
      rw [hexec]
      exact ⟨fun h => congrArg Host.Outcome.next (hbusy h), fun h hb => congrArg Host.Outcome.next (hoff h hb),
        fun h hb h0 => congrArg Host.Outcome.next (hbad h hb h0), fun h hb h0 => congrArg Host.Outcome.next (hgood h hb h0)⟩
    · exact congrArg Host.Outcome.next ((serve_of_head he hs).trans (if_pos hb))
    · exact congrArg Host.Outcome.next ((serve_of_head he hs).trans
        ((svcPatch_of_idle hb rfl rfl rfl (envelopeReason_of_short hl).symm).trans (if_pos Nat.one_ne_zero)))
    · have hexec : exec (.svcPatch buf) s = .next (svcPatch buf e s) := congrArg Host.Outcome.next (serve_of_head he hs)
      rw [hexec, svcPatch_of_idle hb hev hp hcs hr]
      refine ⟨fun h0 => ?_, fun c hc h0 h3 => ?_, fun c rest h0 hcons h3 => ?_, fun h0 hnil hcommit => ?_⟩
      · rw [if_pos h0]
      · rw [if_neg (not_not_intro h0), if_pos (List.any_eq_true.2 ⟨c, hc, decide_eq_true h3⟩)]
      · have hany : (cs.any fun c => decide (3 ≤ bankState c (1 - liveBank c s) s)) = false :=
          List.any_eq_false.2 fun x hx => by rw [decide_eq_false (Nat.not_le.2 (h3 x hx))]; exact Bool.false_ne_true
        rw [if_neg (not_not_intro h0), hany, if_neg Bool.false_ne_true, hcons, patchNext_of_cons]
      · subst hnil
        rw [if_neg (not_not_intro h0), hcommit]
        exact congrArg Host.Outcome.next (patchNext_of_nil (patch_none_of_idle hb))
    · exact (guarded_of_true rfl _).trans (congrArg Host.Outcome.next (svcUnknown_of_head he h))

end Sys2Proof.Machine
end

section
/-! PROOFS. Hallmark's fuses: enrol, revoke, rollback and clear-lock services (R117, R541 to R543, R550, R551). -/

namespace Sys2Proof.Machine

/-! ### The services begin -/

theorem fuseService_of_busy {m : Nat} {f : State → State} {s : State} (h : hallmarkBusy s = true) : fuseService m f s = completeMbox m 3 0 0 s := if_pos h

theorem fuseService_of_low_rail {m : Nat} {f : State → State} {s : State} (h : hallmarkBusy s = false) (hr : s.pwr.railLow ≠ 0) :
    fuseService m f s = completeMbox m 5 0 0 s := by
  have hno : mayProgram s = false := decide_eq_false fun hc => hr hc.1
  unfold fuseService
  rw [h, hno]
  rfl

theorem fuseService_of_free {m : Nat} {f : State → State} {s : State} (h : hallmarkBusy s = false) (hm : mayProgram s = true) : fuseService m f s = f s := by
  unfold fuseService
  rw [h, hm]
  rfl

theorem svcEnrol_cases {buf e ev : List Byte} {ok : Bool} {r : Nat} {s t : State} (hev : ev = slice buf 0 (mbLen e)) (ht : t = satX hmkCounts_fuseOps 0 0 1 s) :
    (ownerState s ≠ 0 → svcEnrol buf ok e s = completeMbox 1 5 0 0 s) ∧
    (ownerState s = 0 → r = envelopeReason false [4] kindContent ev s →
      (r ≠ 0 → svcEnrol buf ok e s = completeMbox 1 4 r 0 (refuseImage s)) ∧
      (r = 0 → svcEnrol buf ok e s = { t with fw := { t.fw with ownerHash := sha384 (evPayload ev), fusing := some (.enrol ok) } })) := by
  subst hev ht
  refine ⟨fun h => if_pos h, fun h hr => ⟨fun h0 => ?_, fun h0 => ?_⟩⟩
  · unfold svcEnrol
    dsimp only
    rw [if_neg (not_not_intro h), ← hr, if_pos h0]
  · unfold svcEnrol
    dsimp only
    rw [if_neg (not_not_intro h), ← hr, if_neg (not_not_intro h0)]

theorem svcRevoke_cases {buf e ev : List Byte} {r : Nat} {s : State} (hev : ev = slice buf 0 (mbLen e)) (hr : r = envelopeReason false [5] anyContent ev s) :
    (r ≠ 0 → svcRevoke buf e s = completeMbox 1 4 r 0 (refuseImage s)) ∧
    (r = 0 → svcRevoke buf e s = completeMbox 1 0 0 0 (raise hmkKeyRevoked (writeRec 9 1 (blockCode .hmk) 1024 (hashHead s.fw.ownerHash)
      (satX hmkCounts_fuseOps 0 0 1 { s with fw := { s.fw with ownerRevoked := true } })))) := by
  subst hev
  refine ⟨fun h0 => ?_, fun h0 => ?_⟩
  · unfold svcRevoke
    dsimp only
    rw [← hr, if_pos h0]
  · unfold svcRevoke
    dsimp only
    rw [← hr, if_neg (not_not_intro h0)]
    rfl

theorem svcRollback_cases {e : List Byte} {p : Nat} {s : State} (hp : p = mbParam0 e) :
    (s.fw.image.rollback < p ∨ 64 < p → svcRollback e s = completeMbox 1 2 0 0 s) ∧
    (p ≤ s.fw.image.rollback → p ≤ 64 → p ≤ s.fw.rollback → svcRollback e s = completeMbox 1 0 0 0 s) ∧
    (p ≤ s.fw.image.rollback → p ≤ 64 → s.fw.rollback < p →
      svcRollback e s = { s with fw := { s.fw with fusing := some (.rollback s.fw.rollback p) } }) := by
  subst hp
  exact ⟨fun h => if_pos h, fun hi h64 h => (if_neg (by omega)).trans (if_pos h), fun hi h64 h => (if_neg (by omega)).trans (if_neg (Nat.not_le.2 h))⟩

theorem svcClearLock_of_block {e : List Byte} {b : Block} {s : State} (h : allBlocks.find? (fun b => blockCode b == mbParam0 e) = some b) :
    svcClearLock e s = completeMbox 1 0 0 0 (if (ownerOf b s).owner = 0 then s else putOwner b {} s) := by
  unfold svcClearLock
  rw [h]

theorem svcClearLock_of_none {e : List Byte} {s : State} (h : allBlocks.find? (fun b => blockCode b == mbParam0 e) = none) :
    svcClearLock e s = completeMbox 1 2 0 0 s := by
  unfold svcClearLock
  rw [h]

/-! ### Fuses in progress -/

theorem fuseTick_of_none {t : State} (h : t.fw.fusing = none) : fuseTick t = t := by
  unfold fuseTick
  rw [h]

theorem fuseTick_of_enrol {ok : Bool} {t : State} (h : t.fw.fusing = some (.enrol ok)) : fuseTick t = enrolEnds ok t := by
  unfold fuseTick
  rw [h]

theorem enrolEnds_cases (t : State) :
    enrolEnds true t = endService 0 0 0 (raise hmkKeyEnrolled (writeRec 8 1 (blockCode .hmk) 1024 (hashHead t.fw.ownerHash)
      { t with fw := { t.fw with fusing := none, ownerValid := true } })) ∧
    enrolEnds false t = endService 6 0 0 (raise hmkFuseError { t with fw := { t.fw with fusing := none, ownerHash := max 1 (Config.misfused t.fw.ownerHash) } }) := by
  unfold enrolEnds
  exact ⟨if_pos rfl, if_neg Bool.false_ne_true⟩

theorem fuseTick_of_rollback {before p : Nat} {t : State} (h : t.fw.fusing = some (.rollback before p)) : fuseTick t = rollbackFuse before p t := by
  unfold fuseTick
  rw [h]

theorem rollbackFuse_cases {before p : Nat} {t u : State}
    (hu : u = satX hmkCounts_fuseOps 0 0 1 { t with fw := { t.fw with rollback := t.fw.rollback + 1 } }) :
    (t.fw.rollback + 1 < p → rollbackFuse before p t = u) ∧
    (p ≤ t.fw.rollback + 1 → rollbackFuse before p t = endService 0 0 0 (raise hmkRollbackAdvanced
      (writeRec 0xC 1 (blockCode .hmk) 1024 (bytesLE 1 before ++ bytesLE 1 p) { u with fw := { u.fw with fusing := none } }))) := by
  have hcount : u.fw.rollback = t.fw.rollback + 1 := by
    rw [hu]
    exact congrArg Firmware.rollback (satX_changes hmkCounts_fuseOps 0 0 1 _ (ks := [_]) (cs := []) (List.mem_singleton_self _)).fw
  subst hu
  exact ⟨fun h => if_pos (by rw [hcount]; exact h), fun h => if_neg (by rw [hcount]; exact Nat.not_lt.2 h)⟩

theorem exec_opTimeTick {s t : State} (hr : s.pwr.railLow = 0) (ht : t = { s with tmk := { s.tmk with opTime := (s.tmk.opTime + 1) % 2 ^ 48 } }) :
    exec .opTimeTick s = .next (fuseTick t) := by
  subst ht
  exact congrArg Host.Outcome.next (onlyIf_of_true (decide_eq_true hr) _ _)

theorem ownerState_cases (s : State) :
    (s.fw.ownerRevoked = true → ownerState s = 2) ∧ (s.fw.ownerRevoked = false → s.fw.ownerValid = true → ownerState s = 1) ∧
    (s.fw.ownerRevoked = false → s.fw.ownerValid = false →
      (s.fw.ownerHash ≠ 0 → enrolling s.fw = false → ownerState s = 3) ∧ (s.fw.ownerHash = 0 ∨ enrolling s.fw = true → ownerState s = 0)) := by
  unfold ownerState
  refine ⟨fun h => by rw [h]; rfl, fun h hv => by rw [h, hv]; rfl, fun h hv => ⟨fun hh he => ?_, fun hh => ?_⟩⟩
  · rw [h, hv, if_neg Bool.false_ne_true, if_neg Bool.false_ne_true, if_pos ⟨hh, he⟩]
  · rw [h, hv, if_neg Bool.false_ne_true, if_neg Bool.false_ne_true, if_neg]
    rintro ⟨h1, h2⟩
    rcases hh with hh | hh
    · exact h1 hh
    · exact Bool.false_ne_true (h2.symm.trans hh)

/-- Settles O55: the services by what they ask for, then the ticks in which the fuses are blown. -/
theorem fusesAreBlownByService : Obligations.FusesAreBlownByService := by
  unfold Obligations.FusesAreBlownByService
  intro s
  obtain ⟨hrevoked, henrolled, hslot⟩ := ownerState_cases s
  refine ⟨fun e he => ⟨fun buf ok hb => ?_, fun buf ok hb hr => ?_, fun buf ev r t hb hm hev ht => ⟨fun ok hs ho => ?_, fun ok hs ho hr => ?_, fun hs hr => ?_⟩,
    fun p hb hm hs hp => ?_, fun hs => ?_⟩, fun t hr ht => ?_, fun hr => ?_, hrevoked, henrolled, hslot⟩
  · exact ⟨fun hs => congrArg Host.Outcome.next ((serve_of_head he hs).trans (fuseService_of_busy hb)),
      fun hs => congrArg Host.Outcome.next ((serve_of_head he hs).trans (fuseService_of_busy hb)),
      fun hs => congrArg Host.Outcome.next ((serve_of_head he hs).trans (fuseService_of_busy hb))⟩
  · exact ⟨fun hs => congrArg Host.Outcome.next ((serve_of_head he hs).trans (fuseService_of_low_rail hb hr)),
      fun hs => congrArg Host.Outcome.next ((serve_of_head he hs).trans (fuseService_of_low_rail hb hr)),
      fun hs => congrArg Host.Outcome.next ((serve_of_head he hs).trans (fuseService_of_low_rail hb hr))⟩
  · exact congrArg Host.Outcome.next ((serve_of_head he hs).trans ((fuseService_of_free hb hm).trans ((svcEnrol_cases (r := r) hev ht).1 ho)))
  · have hexec : exec (.svcEnrol buf ok) s = .next (svcEnrol buf ok e s) :=
      congrArg Host.Outcome.next ((serve_of_head he hs).trans (fuseService_of_free hb hm))
    obtain ⟨hbad, hgood⟩ := (svcEnrol_cases (ok := ok) hev ht).2 ho hr
    rw [hexec]
    exact ⟨fun h0 => congrArg Host.Outcome.next (hbad h0), fun h0 => congrArg Host.Outcome.next (hgood h0)⟩
  · have hexec : exec (.svcRevoke buf) s = .next (svcRevoke buf e s) :=
      congrArg Host.Outcome.next ((serve_of_head he hs).trans (fuseService_of_free hb hm))
    obtain ⟨hbad, hgood⟩ := svcRevoke_cases hev hr
    rw [hexec]
    exact ⟨fun h0 => congrArg Host.Outcome.next (hbad h0), fun h0 => congrArg Host.Outcome.next (hgood h0)⟩
  · have hexec : exec .svcRollback s = .next (svcRollback e s) := congrArg Host.Outcome.next ((serve_of_head he hs).trans (fuseService_of_free hb hm))
    obtain ⟨hbad, hdone, hblow⟩ := svcRollback_cases (s := s) hp
    rw [hexec]
    exact ⟨fun h => congrArg Host.Outcome.next (hbad h), fun hi h64 h => congrArg Host.Outcome.next (hdone hi h64 h),
      fun hi h64 h => congrArg Host.Outcome.next (hblow hi h64 h)⟩
  · have hexec : exec .svcClearLock s = .next (svcClearLock e s) := congrArg Host.Outcome.next (serve_of_head he hs)
    rw [hexec]
    refine ⟨fun b hb ho => ?_, fun b hb ho => ?_, fun hb => congrArg Host.Outcome.next (svcClearLock_of_none hb)⟩
    · rw [svcClearLock_of_block hb, if_neg ho]
    · rw [svcClearLock_of_block hb, if_pos ho]
  · have hfw : t.fw = s.fw := by rw [ht]
    rw [exec_opTimeTick hr ht]
    clear ht
    rw [← hfw]
    refine ⟨fun h => congrArg Host.Outcome.next (fuseTick_of_none h), fun h => congrArg Host.Outcome.next ((fuseTick_of_enrol h).trans (enrolEnds_cases t).1),
      fun h => congrArg Host.Outcome.next ((fuseTick_of_enrol h).trans (enrolEnds_cases t).2), fun before p u h hu => ?_⟩
    obtain ⟨hmore, hlast⟩ := rollbackFuse_cases (before := before) (p := p) hu
    rw [fuseTick_of_rollback h]
    exact ⟨fun hp => congrArg Host.Outcome.next (hmore hp), fun hp => congrArg Host.Outcome.next (hlast hp)⟩
  · exact congrArg Host.Outcome.next (onlyIf_of_false (decide_eq_false hr) _ _)

end Sys2Proof.Machine
end

section
/-! PROOFS. Time: snapshots, steps, the rate, the servo and the time reference (R451, R453, R455, R463 to R467). -/

namespace Sys2Proof.Machine

/-! ### Steps keep the new mapping -/

/-- What the time value follows from: the raw count, and anchor and rate of the mapping in force (R451). -/
def timeMapping (s : State) : Nat × Nat × Nat × Int := (s.tim.raw, s.tim.anchorRaw, s.tim.anchorTime, s.tim.rate)

theorem timeMapping_of_tim {s t : State} (h : t.tim = s.tim) : timeMapping t = timeMapping s := by
  unfold timeMapping
  rw [h]

theorem timeMapping_raise (e : Src) (s : State) : timeMapping (raise e s) = timeMapping s := timeMapping_of_tim (raise_onlyEvents e s).tim

theorem timeMapping_raiseC (e : Src) (c : Nat) (s : State) : timeMapping (raiseC e c s) = timeMapping s :=
  timeMapping_of_tim (raiseC_onlyEvents e c s).tim

theorem timeMapping_putReg (off c : Nat) (v : Word) (s : State) : timeMapping (putReg off c v s) = timeMapping s := timeMapping_of_tim rfl

theorem timeMapping_wrC (f : Fld) (c v : Nat) (s : State) : timeMapping (wrC f c v s) = timeMapping s := timeMapping_of_tim rfl

theorem timeMapping_incX (f : Fld) (i c : Nat) (s : State) : timeMapping (incX f i c s) = timeMapping s := timeMapping_of_tim rfl

theorem timeMapping_satX (f : Fld) (i c d : Nat) (s : State) : timeMapping (satX f i c d s) = timeMapping s := timeMapping_of_tim rfl

theorem timeMapping_putTrig (k : Nat) (x : Trig) (s : State) : timeMapping (putTrig k x s) = timeMapping s := by
  unfold timeMapping putTrig
  rfl

theorem timeMapping_putCommit (b : Block) (x : CommitSt) (s : State) : timeMapping (putCommit b x s) = timeMapping s := timeMapping_of_tim rfl

theorem timeMapping_keepGates (d till since : Nat) (old s : State) : timeMapping (keepGates d till since old s) = timeMapping s := timeMapping_of_tim rfl

theorem timeMapping_trigFire (k : Nat) (late : Bool) (s : State) : timeMapping (trigFire k late s) = timeMapping s := by
  simp only [trigFire, apply_ite timeMapping, timeMapping_raiseC, timeMapping_wrC, timeMapping_incX, timeMapping_putTrig, ite_self]

theorem timeMapping_trigStep (old new k : Nat) (s : State) : timeMapping (trigStep old new k s) = timeMapping s := by
  simp only [trigStep, apply_ite timeMapping, timeMapping_trigFire, timeMapping_raiseC, timeMapping_satX, timeMapping_putTrig, ite_self]

theorem timeMapping_commitStep (old new : Nat) (b : Block) (s : State) : timeMapping (commitStep old new b s) = timeMapping s := by
  unfold commitStep
  split
  · rfl
  · simp only [apply_ite timeMapping, timeMapping_putCommit, ite_self]

theorem timeMapping_showGates (d : Nat) (s : State) : timeMapping (showGates d s) = timeMapping s := by
  unfold showGates
  split
  · simp only [timeMapping_wrC]
  · simp only [timeMapping_wrC]

theorem timeMapping_takeover (d : Nat) (late : Bool) (s : State) : timeMapping (takeover d late s) = timeMapping s := by
  unfold takeover
  split
  · rfl
  · simp only [apply_ite timeMapping, timeMapping_raiseC, timeMapping_showGates, timeMapping_wrC, timeMapping_keepGates, ite_self]

theorem timeMapping_gateStep (old new : Nat) (s : State) : timeMapping (gateStep old new s) = timeMapping s := by
  unfold gateStep
  refine foldOver_induct (P := fun t => timeMapping t = timeMapping s) (fun d b hb => ?_) _ rfl
  dsimp only
  split
  · split
    · rw [timeMapping_takeover]
      exact hb
    · rw [timeMapping_showGates]
      exact hb
  · rw [timeMapping_showGates]
    exact hb

/-- At its anchor the time is the anchor's value. -/
theorem timeNow_at_anchor {t : State} {r n : Nat} {a : Int} (h : timeMapping t = (r, r, n, a)) (hn : n < timeMod) : timeNow t = n := by
  unfold timeMapping at h
  simp only [Prod.mk.injEq] at h
  obtain ⟨hraw, hanchor, htime, -⟩ := h
  unfold timeNow timeAt
  rw [hraw, hanchor, htime, Nat.sub_self]
  simp [Nat.mod_eq_of_lt hn]

theorem toNat_emod_timeMod_lt (x : Int) : (x % (timeMod : Int)).toNat < timeMod := by
  have h0 : (0 : Int) < (timeMod : Int) := by decide
  have hlt := Int.emod_lt_of_pos x h0
  have hge := Int.emod_nonneg x (by omega : (timeMod : Int) ≠ 0)
  omega

/-! ### A step of the time base -/

/-- What a step to `new` leaves before the next PPS edge is found (R463, R464). -/
def stepped (new : Nat) (s u : State) : State :=
  gateStep (timeNow s) new (foldOver allBlocks (commitStep (timeNow s) new) (foldOver (List.range 8) (trigStep (timeNow s) new)
    (raise timTimeStep (writeRec 5 1 0x34 1024 (timeBytes (timeNow s) ++ bytesLE 2 s.tim.epoch) u))))

theorem timeMapping_stepped (new : Nat) (s u : State) : timeMapping (stepped new s u) = timeMapping u := by
  have htrig : ∀ a, timeMapping (foldOver (List.range 8) (trigStep (timeNow s) new) a) = timeMapping a := fun a =>
    foldOver_induct (P := fun t => timeMapping t = timeMapping a) (fun k b hb => (timeMapping_trigStep _ _ k b).trans hb) _ rfl
  have hcommit : ∀ a, timeMapping (foldOver allBlocks (commitStep (timeNow s) new) a) = timeMapping a := fun a =>
    foldOver_induct (P := fun t => timeMapping t = timeMapping a) (fun k b hb => (timeMapping_commitStep _ _ k b).trans hb) _ rfl
  unfold stepped
  rw [timeMapping_gateStep, hcommit, htrig, timeMapping_raise]
  exact timeMapping_of_tim (writeRec_onlyEvents _ _ _ _ _ u).tim

theorem afterStep_cases {new : Nat} {s u t : State} (ht : t = stepped new s u) :
    (t.tim.ppsNext = none → afterStep (timeNow s) s.tim.epoch new u = t) ∧
    (t.tim.ppsNext.isSome = true →
      afterStep (timeNow s) s.tim.epoch new u = { t with tim := { t.tim with ppsNext := some (ppsAfter new t) } }) := by
  have hstepped : gateStep (timeNow s) new (foldOver allBlocks (commitStep (timeNow s) new) (foldOver (List.range 8) (trigStep (timeNow s) new)
      (raise timTimeStep (writeRec 5 1 0x34 (recChan none) (timeBytes (timeNow s) ++ bytesLE 2 s.tim.epoch) u)))) = t := ht.symm
  unfold afterStep
  dsimp only
  rw [hstepped]
  refine ⟨fun h => by rw [h], fun h => ?_⟩
  obtain ⟨y, hy⟩ := Option.isSome_iff_exists.1 h
  rw [hy]

theorem stepTime_spec {x : Int} {new : Nat} {s u t : State} (hn : new = (x % (timeMod : Int)).toNat)
    (hu : u = { s with tim := { s.tim with was := mapNow s.tim, anchorTime := new, anchorRaw := s.tim.raw, epoch := (s.tim.epoch + 1) % 65536 } })
    (ht : t = stepped new s u) :
    (t.tim.ppsNext = none → stepTime x s = t) ∧
    (t.tim.ppsNext.isSome = true → stepTime x s = { t with tim := { t.tim with ppsNext := some (ppsAfter (timeNow t) t) } }) := by
  have hnow : timeNow t = new := by
    refine timeNow_at_anchor (r := s.tim.raw) (a := s.tim.rate) ?_ (hn ▸ toNat_emod_timeMod_lt x)
    rw [ht, timeMapping_stepped, hu]
    rfl
  have hstep : stepTime x s = afterStep (timeNow s) s.tim.epoch new u := by rw [hu, hn]; rfl
  obtain ⟨hnone, hsome⟩ := afterStep_cases ht
  exact ⟨fun h => hstep.trans (hnone h), fun h => by rw [hstep, hsome h, hnow]⟩

theorem stepCtlWrite_cases {w : Window} {v : Word} {c d : Nat} {s u : State} (hc : c = winIdx w)
    (hu : u = wrC timStepCtl_mode c (wordField v 1 1) (wrC timStepCtl_neg c (wordField v 2 1) s)) (hd : d = stagedStep w u) :
    (wordField v 0 1 = 0 → stepCtlWrite w v s = u) ∧
    (wordField v 0 1 = 1 → rdC timStepNs_value c u < 1000000000 →
      (wordField v 1 1 = 1 → stepCtlWrite w v s = stepTime (d : Int) u) ∧
      (wordField v 1 1 = 0 → wordField v 2 1 = 1 → stepCtlWrite w v s = stepTime ((timeNow u : Int) - d) u) ∧
      (wordField v 1 1 = 0 → wordField v 2 1 = 0 → stepCtlWrite w v s = stepTime ((timeNow u : Int) + d) u)) := by
  have hwrite : stepCtlWrite w v s = if wordField v 0 1 = 1 ∧ rdC timStepNs_value c u < 1000000000 then
      (if wordField v 1 1 = 1 then stepTime (d : Int) u
        else if wordField v 2 1 = 1 then stepTime ((timeNow u : Int) - d) u else stepTime ((timeNow u : Int) + d) u)
      else u := by
    subst hc hu hd
    rfl
  rw [hwrite]
  refine ⟨fun h => if_neg (by omega), fun h hns => ⟨fun hm => ?_, fun hm hneg => ?_, fun hm hneg => ?_⟩⟩
  · rw [if_pos ⟨h, hns⟩, if_pos hm]
  · rw [if_pos ⟨h, hns⟩, if_neg (by omega), if_pos hneg]
  · rw [if_pos ⟨h, hns⟩, if_neg (by omega), if_neg (by omega)]

theorem trigStep_cases (old new k : Nat) (s : State) :
    (rdC timTrigCtl_armed k s = 0 → trigStep old new k s = s) ∧
    (rdC timTrigCtl_armed k s = 1 → rdC timTrigCfg_mode k s = 1 →
      (atOrAfter new (trigStart k s) = true → atOrAfter old (trigStart k s) = false → trigRuns k s = true →
        trigStep old new k s = trigFire k true s) ∧
      (atOrAfter new (trigStart k s) = false ∨ atOrAfter old (trigStart k s) = true → trigStep old new k s = s)) := by
  refine ⟨fun h => if_pos h, fun h hm => ?_⟩
  have hstep : trigStep old new k s =
      if atOrAfter new (trigStart k s) && !atOrAfter old (trigStart k s) && trigRuns k s then trigFire k true s else s :=
    (if_neg (by omega)).trans (if_pos hm)
  rw [hstep]
  refine ⟨fun hn ho hr => if_pos (by rw [hn, ho, hr]; rfl), fun hno => if_neg fun hc => ?_⟩
  simp only [Bool.and_eq_true, Bool.not_eq_true'] at hc
  obtain ⟨⟨hn, ho⟩, -⟩ := hc
  rcases hno with hno | hno
  · exact Bool.false_ne_true (hno.symm.trans hn)
  · exact Bool.false_ne_true (ho.symm.trans hno)

theorem commitStep_of_passed {old new : Nat} {b : Block} {a : Nat × Nat} {s : State} (ha : (commitOf b s).armed = some a)
    (hn : reachedAt new a = true) (ho : reachedAt old a = false) : commitStep old new b s = putCommit b { commitOf b s with lateNext := true } s := by
  unfold commitStep
  rw [ha]
  exact if_pos (by rw [hn, ho]; rfl)

theorem commitStep_of_unarmed {old new : Nat} {b : Block} {s : State} (ha : (commitOf b s).armed = none) : commitStep old new b s = s := by
  unfold commitStep
  rw [ha]

/-! ### The servo -/

theorem clampInt_of_mem {x lo hi : Int} (h : lo ≤ x) (h' : x ≤ hi) : clampInt x lo hi = x :=
  (if_neg (by omega)).trans (if_neg (by omega))

/-- A sample that takes no step moves integral and rate, and takes or loses lock (R466, R467). -/
theorem servoSample_of_steered {x ns mag m i r lock : Int} {good : Nat} {s u s1 s2 s3 : State} (hns : ns = clampInt (x / 65536) (-(2 ^ 31)) (2 ^ 31 - 1))
    (hmag : mag = (if x < 0 then -x else x))
    (hu : u = wr timServoStatus_last (unsigned 32 ns) (incX timServoCount_samples 0 0 (wr timStatus_holdover 0 s)))
    (hstep : cf timServoStep_stepNs u = 0 ∨ (mag < (cf timServoStep_stepNs u : Int) * 65536 ∧ (u.tim.first = false ∨ cf timServoCfg_stepFirst u ≠ 1)))
    (hm : m = servoMax u) (hi : i = clampInt (u.tim.integral - (cf timServoGain_ki u : Int) * x) (-m) m) (hr : r = i - (cf timServoGain_kp u : Int) * x)
    (hlock : lock = (cf timServoLock_lockNs u : Int) * 65536) (hgood : good = (if mag < lock then u.tim.good + 1 else 0))
    (h1 : s1 = setRate (ppbToRate (clampInt r (-m) m)) { u with tim := { u.tim with first := false, integral := i, good := good } })
    (h2 : s2 = (if clampInt r (-m) m ≠ r then raise timRateLimit s1 else s1))
    (h3 : s3 = (if rd timStatus_locked s2 = 0 ∧ rd timStatus_onBackup s2 = 0 ∧ cf timServoLock_lockN s2 ≤ good then
      raise timServoLocked (wr timStatus_locked 1 s2) else s2)) :
    servoSample x s = (if rd timStatus_locked s3 = 1 ∧ 4 * lock ≤ mag then raise timServoUnlocked (wr timStatus_locked 0 s3) else s3) := by
  have hno : ¬ (cf timServoStep_stepNs u ≠ 0 ∧ ((cf timServoStep_stepNs u : Int) * 65536 ≤ mag ∨ (u.tim.first = true ∧ cf timServoCfg_stepFirst u = 1))) := by
    rintro ⟨h0, hc⟩
    rcases hstep with hz | ⟨hlt, hf⟩
    · exact h0 hz
    rcases hc with hc | ⟨hc, hc'⟩
    · omega
    · rcases hf with hf | hf
      · exact Bool.false_ne_true (hf.symm.trans hc)
      · exact hf hc'
  unfold servoSample
  dsimp only
  rw [← hns, ← hmag, ← hu, if_neg hno, ← hm, ← hi, ← hr, ← hlock, ← hgood, ← h1, ← h2, ← h3]

theorem servoSample_of_stepped {x ns mag : Int} {s u t : State} (hns : ns = clampInt (x / 65536) (-(2 ^ 31)) (2 ^ 31 - 1))
    (hmag : mag = (if x < 0 then -x else x))
    (hu : u = wr timServoStatus_last (unsigned 32 ns) (incX timServoCount_samples 0 0 (wr timStatus_holdover 0 s)))
    (h0 : cf timServoStep_stepNs u ≠ 0)
    (hc : (cf timServoStep_stepNs u : Int) * 65536 ≤ mag ∨ (u.tim.first = true ∧ cf timServoCfg_stepFirst u = 1))
    (ht : t = stepTime ((timeNow u : Int) - x) (incX timServoCount_steps 0 0 u)) :
    servoSample x s = servoUnlock { t with tim := { t.tim with first := false, good := 0 } } := by
  unfold servoSample
  dsimp only
  rw [← hns, ← hmag, ← hu, if_pos ⟨h0, hc⟩, ← ht]

/-- A small sample of a locked servo within its limits only moves integral and rate. -/
theorem servoSample_of_settled {x ns m i r : Int} {s u : State} (hns : ns = clampInt (x / 65536) (-(2 ^ 31)) (2 ^ 31 - 1))
    (hu : u = wr timServoStatus_last (unsigned 32 ns) (incX timServoCount_samples 0 0 (wr timStatus_holdover 0 s)))
    (h0 : cf timServoStep_stepNs u = 0) (hm : m = servoMax u) (hi : i = clampInt (u.tim.integral - (cf timServoGain_ki u : Int) * x) (-m) m)
    (hr : r = i - (cf timServoGain_kp u : Int) * x) (hlo : -m ≤ r) (hhi : r ≤ m)
    (hlock : (if x < 0 then -x else x) < (cf timServoLock_lockNs u : Int) * 65536) (hl : rd timStatus_locked u = 1) :
    servoSample x s = setRate (ppbToRate r) { u with tim := { u.tim with first := false, integral := i, good := u.tim.good + 1 } } := by
  obtain ⟨t, ht⟩ : ∃ t, t = setRate (ppbToRate r) { u with tim := { u.tim with first := false, integral := i, good := u.tim.good + 1 } } := ⟨_, rfl⟩
  have htl : rd timStatus_locked t = 1 := by
    rw [ht]
    exact hl
  have hmag : (0 : Int) ≤ (if x < 0 then -x else x) := by
    split
    · omega
    · omega
  have hrate : t = (if clampInt r (-m) m ≠ r then raise timRateLimit t else t) := by rw [if_neg (not_not_intro (clampInt_of_mem hlo hhi))]
  have hkept : t = (if rd timStatus_locked t = 0 ∧ rd timStatus_onBackup t = 0 ∧ cf timServoLock_lockN t ≤ u.tim.good + 1 then
      raise timServoLocked (wr timStatus_locked 1 t) else t) := by rw [if_neg (by omega)]
  rw [servoSample_of_steered hns rfl hu (.inl h0) hm hi hr rfl (if_pos hlock).symm (by rw [clampInt_of_mem hlo hhi]; exact ht) hrate hkept, if_neg (by omega), ht]

theorem servoSampleWrite_of_on {w : Window} {v : Word} {s u : State} (hu : u = wrC timServoSampleHi_ns (winIdx w) v.toNat s)
    (hs : cf timServoCfg_src s = 1) (hon : blockOn .tim s = true) : servoSampleWrite w v s =
      if rdC timServoSampleLo_epoch (winIdx w) u = s.tim.epoch then
        servoSample (signed 32 v.toNat * 65536 + rdC timServoSampleLo_fraction (winIdx w) u) u
      else raise timSampleStale u := by
  subst hu
  exact if_pos ⟨hs, hon⟩

/-! ### The time reference -/

theorem timeRefRestored_of_src {s u x : State} (hu : u = wr timStatus_refOk 1 s) (hx : x = raise timRefRestored u) (h : cf timClkCfg_src u = 1) :
    timeRefRestored s = if cf timClkCfg_revert x = 1 ∨ !x.tim.refLost then wr timStatus_srcLive 1 { x with tim := { x.tim with refLost := false } } else x := by
  subst hu hx
  exact if_pos h

theorem timeRefRestored_of_internal {s u : State} (hu : u = wr timStatus_refOk 1 s) (h : cf timClkCfg_src u = 0) : timeRefRestored s = u := by
  subst hu
  exact if_neg (by omega)

/-- Settles O56, command by command. -/
theorem timeIsReadSteppedAndSteered : Obligations.TimeIsReadSteppedAndSteered := by
  unfold Obligations.TimeIsReadSteppedAndSteered
  intro s
  refine ⟨fun w c t hr hc ht => ?_, fun w v c u d ha hc hu hd => ?_, fun w v ha => ⟨fun h => ?_, fun h => ?_, fun u hu hs hon => ?_⟩,
    fun x new u t hn hu ht => stepTime_spec hn hu ht, fun old new k => trigStep_cases old new k s, fun old new b a ha hn ho => commitStep_of_passed ha hn ho,
    fun old new b ha => commitStep_of_unarmed ha, fun a => rfl, fun x u ns m i r hns hu h0 hm hi hr hlo hhi hlock hl => ?_,
    fun x u mag ns hns hmag hu => ⟨fun t h0 hc ht => servoSample_of_stepped hns hmag hu h0 hc ht,
      fun m i r good s1 s2 s3 lock hstep hm hi hr hlock hgood h1 h2 h3 => servoSample_of_steered hns hmag hu hstep hm hi hr hlock hgood h1 h2 h3⟩,
    fun hon hs hh => ?_, fun h => ?_, fun u hu => ⟨fun h => ?_, fun h => ?_⟩,
    fun u hu h0 => ⟨fun h => ?_, fun x hx h => ⟨fun hv => ?_, fun hv hl => ?_, fun hl => ?_⟩⟩, fun h => ?_, fun r => ⟨fun h => ?_, fun h => ?_⟩⟩
  · subst hc ht
    exact congrArg Host.Outcome.next (reading_of_reachable hr _)
  · have hexec : exec (.stepGo w v) s = .next (stepCtlWrite w v s) := congrArg Host.Outcome.next (writing_of_admits ha _)
    obtain ⟨hstored, hgo⟩ := stepCtlWrite_cases (v := v) hc hu hd
    rw [hexec]
    refine ⟨fun h => congrArg Host.Outcome.next (hstored h), fun h hns => ?_⟩
    obtain ⟨hset, hback, hforth⟩ := hgo h hns
    exact ⟨fun hm => congrArg Host.Outcome.next (hset hm), fun hm hneg => congrArg Host.Outcome.next (hback hm hneg),
      fun hm hneg => congrArg Host.Outcome.next (hforth hm hneg)⟩
  · exact congrArg Host.Outcome.next ((writing_of_admits ha _).trans (if_neg (not_not_intro h)))
  · exact congrArg Host.Outcome.next ((writing_of_admits ha _).trans (if_pos h))
  · have hexec : exec (.servoSample w v) s = .next (servoSampleWrite w v s) := congrArg Host.Outcome.next (writing_of_admits ha _)
    rw [hexec, servoSampleWrite_of_on hu hs hon]
    exact ⟨fun he => by rw [if_pos he], fun he => by rw [if_neg he]⟩
  · exact servoSample_of_settled hns hu h0 hm hi hr hlo hhi hlock hl
  · exact congrArg Host.Outcome.next (onlyIf_of_true (by rw [hon, decide_eq_true hs, decide_eq_true hh]; rfl) _ _)
  · refine congrArg Host.Outcome.next (onlyIf_of_false ?_ _ _)
    rcases h with h | h
    · rw [decide_eq_false (not_not_intro h), Bool.and_false, Bool.false_and]
    · rw [decide_eq_false (by omega : ¬ rd timStatus_holdover s = 0), Bool.and_false]
  · subst hu
    exact congrArg Host.Outcome.next (if_pos h)
  · subst hu
    exact congrArg Host.Outcome.next (if_neg (by omega))
  · exact congrArg Host.Outcome.next ((onlyIf_of_true (decide_eq_true h0) _ _).trans (timeRefRestored_of_internal hu h))
  · exact congrArg Host.Outcome.next ((onlyIf_of_true (decide_eq_true h0) _ _).trans ((timeRefRestored_of_src hu hx h).trans (if_pos (.inl hv))))
  · refine congrArg Host.Outcome.next ((onlyIf_of_true (decide_eq_true h0) _ _).trans ((timeRefRestored_of_src hu hx h).trans (if_neg ?_)))
    rw [hv, hl]
    decide
  · exact congrArg Host.Outcome.next ((onlyIf_of_true (decide_eq_true h0) _ _).trans ((timeRefRestored_of_src hu hx h).trans (if_pos (.inr (by rw [hl]; rfl)))))
  · exact congrArg Host.Outcome.next (onlyIf_of_false (decide_eq_false (by omega)) _ _)
  · exact congrArg Host.Outcome.next (onlyIf_of_true (decide_eq_true h) _ _)
  · exact congrArg Host.Outcome.next (onlyIf_of_false (decide_eq_false (by omega)) _ _)

end Sys2Proof.Machine
end

section
/-! PROOFS. Pulses and triggers (R456 to R460). -/

namespace Sys2Proof.Machine

/-! ### PPS -/

theorem exec_ppsOutRise_of_next {t : Nat} {s : State} (h : s.tim.ppsNext = some t) :
    exec .ppsOutRise s = .next (onlyIf (blockOn .tim s && atOrAfter (timeNow s) t) ppsRise s) := by
  show execPpsOutRise s = _
  unfold execPpsOutRise
  rw [h]

theorem exec_ppsOutRise_of_none {s : State} (h : s.tim.ppsNext = none) : exec .ppsOutRise s = .next s := by
  show execPpsOutRise s = _
  unfold execPpsOutRise
  rw [h]

theorem pulseOver_of_some {p : Option Nat} {r : Nat} {s : State} (h : p = some r) : pulseOver p s = rawReached r s := by
  rw [h]
  rfl

theorem ppsLevel_of_quiet {s : State} (h : ppsQuiet s = true) : ppsLevel s = false := by
  unfold ppsLevel
  rw [h]
  exact Bool.and_false _

theorem cf_wr (f g : Fld) (v : Nat) (s : State) : cf g (wr f v s) = cf g s := cfX_wrX f 0 0 v g 0 0 s

theorem ppsInEdge_of_near {sub p : Nat} {s : State} (h : s.tim.ppsInRaw = some p) (hn : (raw8 sub s - p) * 16 < 500000000 * 100) : ppsInEdge sub s = s := by
  unfold ppsInEdge
  dsimp only
  rw [h]
  exact if_pos (decide_eq_true hn)

theorem ppsInEdge_of_first {sub r : Nat} {t : Int} {s u : State} (h : s.tim.ppsInRaw = none) (hr : r = raw8 sub s)
    (ht : t = (((timeAtEighth s.tim r : Nat) : Int) - Config.ppsInDelay - signed 32 (cf timPpsInCfg_delayNs s) * 65536) % (timeMod : Int))
    (hu : u = wr timPpsInTsSec_sec (secOf t.toNat) (wr timPpsInTsNs_ns (nsOf t.toNat) (wr timPpsInTsNs_valid 1
      { s with tim := { s.tim with ppsInRaw := some r, ppsMissing := false } }))) :
    ppsInEdge sub s = if cf timServoCfg_src s = 2 then servoSample (fromSecond (t.toNat : Int)) u else u := by
  have hsrc : cf timServoCfg_src u = cf timServoCfg_src s := by
    rw [hu, cf_wr, cf_wr, cf_wr]
    rfl
  unfold ppsInEdge
  dsimp only
  rw [h, if_neg Bool.false_ne_true, ← hr, ← ht, ← hu, hsrc]

theorem ppsLate_of_last {p : Nat} {s : State} (h : s.tim.ppsInRaw = some p) (hp : 1500000000 * 100 ≤ (raw8 0 s - p) * 16) : ppsLate s = true := by
  have hraw : raw8 0 s = 8 * s.tim.raw := rfl
  unfold ppsLate
  rw [h]
  exact decide_eq_true (by omega)

/-! ### Triggers -/

theorem exec_trigArm {w : Window} {k : Nat} {s : State} (ha : Admits w .tim s) (hsel : selChan w .tim s = k) (hf : isFused .tim k s = false) (hk : k < 8) :
    exec (.trigArm w 1) s = .next (trigArm k s) :=
  congrArg Host.Outcome.next ((writingC_of_admits ha hsel hf _).trans (if_pos hk))

theorem exec_trigDisarm {w : Window} {k : Nat} {s : State} (ha : Admits w .tim s) (hsel : selChan w .tim s = k) (hf : isFused .tim k s = false)
    (hk : k < 8) : exec (.trigDisarm w 2) s = .next (wrC timTrigCtl_armed k 0 s) :=
  congrArg Host.Outcome.next ((writingC_of_admits ha hsel hf _).trans (if_pos hk))

theorem trigStart_wrC_ctl (k v : Nat) (s : State) : trigStart k (wrC timTrigCtl_armed k v s) = trigStart k s := by
  unfold trigStart
  rw [rdC_wrC_offs _ _ (by decide), rdC_wrC_offs _ _ (by decide), rdC_wrC_offs _ _ (by decide)]

theorem trigArm_of_periodic {k : Nat} {s u : State} (hns : rdC timTrigStartNs_value k s < 1000000000) (hr : armRefused k s = false)
    (hm : rdC timTrigCfg_mode k s = 2) (hu : u = wrC timTrigCtl_armed k 1 s) : trigArm k s =
      putTrig k { trig k u with idx := if atOrAfter (timeNow s) (trigStart k s) then trigNextIdx k (timeNow u) u else 0 } u := by
  have hmode : rdC timTrigCfg_mode k u = 2 := by rw [hu, rdC_wrC_offs _ _ (by decide), hm]
  have hstart : trigStart k u = trigStart k s := by rw [hu, trigStart_wrC_ctl]
  have hnow : timeNow u = timeNow s := by rw [hu]; rfl
  have harm : trigArm k s = if rdC timTrigCfg_mode k u = 1 then
        (if atOrAfter (timeNow (putTrig k { trig k u with idx := 0 } u)) (trigStart k (putTrig k { trig k u with idx := 0 } u))
            && trigRuns k (putTrig k { trig k u with idx := 0 } u) then trigFire k true (putTrig k { trig k u with idx := 0 } u)
          else putTrig k { trig k u with idx := 0 } u)
      else putTrig k { trig k u with idx := if atOrAfter (timeNow u) (trigStart k u) then trigNextIdx k (timeNow u) u else 0 } u := by
    subst hu
    exact (if_neg (Nat.not_le.2 hns)).trans (if_neg (by rw [hr]; exact Bool.false_ne_true))
  rw [harm, if_neg (by omega), hstart, hnow]

theorem trigArm_of_oneShot {k : Nat} {s u : State} (hns : rdC timTrigStartNs_value k s < 1000000000) (hr : armRefused k s = false)
    (hm : rdC timTrigCfg_mode k s = 1) (hu : u = putTrig k { trig k s with idx := 0 } (wrC timTrigCtl_armed k 1 s)) :
    trigArm k s = if atOrAfter (timeNow s) (trigStart k s) && trigRuns k u then trigFire k true u else u := by
  obtain ⟨s1, hs1⟩ : ∃ s1, s1 = wrC timTrigCtl_armed k 1 s := ⟨_, rfl⟩
  have hmode : rdC timTrigCfg_mode k s1 = 1 := by rw [hs1, rdC_wrC_offs _ _ (by decide), hm]
  have htrig : trig k s1 = trig k s := by rw [hs1]; rfl
  have hstart : trigStart k u = trigStart k s := by
    rw [hu, ← trigStart_wrC_ctl k 1 s]
    rfl
  have hnow : timeNow u = timeNow s := by rw [hu]; rfl
  have harm : trigArm k s = if rdC timTrigCfg_mode k s1 = 1 then
        (if atOrAfter (timeNow (putTrig k { trig k s1 with idx := 0 } s1)) (trigStart k (putTrig k { trig k s1 with idx := 0 } s1))
            && trigRuns k (putTrig k { trig k s1 with idx := 0 } s1) then trigFire k true (putTrig k { trig k s1 with idx := 0 } s1)
          else putTrig k { trig k s1 with idx := 0 } s1)
      else putTrig k { trig k s1 with idx := if atOrAfter (timeNow s1) (trigStart k s1) then trigNextIdx k (timeNow s1) s1 else 0 } s1 := by
    subst hs1
    exact (if_neg (Nat.not_le.2 hns)).trans (if_neg (by rw [hr]; exact Bool.false_ne_true))
  rw [harm, if_pos hmode, htrig, hs1, ← hu, hstart, hnow]

theorem rd_wrC_offs {f g : Fld} {c : Nat} (v : Nat) (s : State) (h : offsApart f 0 g 0 = true) : rd g (wrC f c v s) = rd g s :=
  rdX_wrX_offs v s h

theorem trigRuns_of_armed {k : Nat} {x : Trig} (s : State) :
    trigRuns k (putTrig k x (wrC timTrigCtl_armed k 1 s)) = (chanOn .tim k s && !decide (rd rstWarmCtl_busy s = 1)) := by
  have hbusy : warmBusy (putTrig k x (wrC timTrigCtl_armed k 1 s)) = decide (rd rstWarmCtl_busy (wrC timTrigCtl_armed k 1 s) = 1) := rfl
  unfold trigRuns
  rw [hbusy, rd_wrC_offs _ _ (by decide)]
  rfl

theorem trigOut_of_warm {k : Nat} {s : State} (h : rd rstWarmCtl_busy s = 1) : trigOut k s = false := by
  have hbusy : warmBusy s = true := decide_eq_true h
  unfold trigOut
  dsimp only
  exact if_neg fun hc => absurd (hbusy.symm.trans hc.2.2) (by decide)

theorem trigArm_of_refused {k : Nat} {s : State} (hns : rdC timTrigStartNs_value k s < 1000000000) (hr : armRefused k s = true) :
    trigArm k s = wrC timTrigCtl_refused k 1 s := (if_neg (Nat.not_le.2 hns)).trans (if_pos hr)

theorem trigFire_cases {k : Nat} {s u : State} (hu : u = incX timTrigEdges_edges 0 k (wrC timTrigCtl_fired k 1
      (putTrig k { trig k s with pulse := some (rawAfter (trigWidth k s) s), idx := (trig k s).idx + 1 } s))) :
    (rdC timTrigCfg_mode k u = 1 → trigFire k false s = raiseC timTrigFired k (wrC timTrigCtl_armed k 0 u) ∧
      trigFire k true s = raiseC timTrigLate k (wrC timTrigCtl_late k 1 (raiseC timTrigFired k (wrC timTrigCtl_armed k 0 u)))) ∧
    (rdC timTrigCfg_mode k u = 2 → trigFire k false s = raiseC timTrigFired k u) := by
  refine ⟨fun hm => ⟨?_, ?_⟩, fun hm => ?_⟩
  · unfold trigFire
    dsimp only
    rw [← hu, if_pos hm, if_neg Bool.false_ne_true]
  · unfold trigFire
    dsimp only
    rw [← hu, if_pos hm, if_pos rfl]
  · unfold trigFire
    dsimp only
    rw [← hu, if_neg Bool.false_ne_true, if_neg (by omega)]

/-- Settles O57, command by command. -/
theorem pulsesAndTriggersLeaveOnTime : Obligations.PulsesAndTriggersLeaveOnTime := by
  unfold Obligations.PulsesAndTriggersLeaveOnTime
  intro s
  refine ⟨fun t u ht hu => ⟨fun hon hat hq => ?_, fun hon hat hq => ?_, fun hat => ?_⟩, fun h => exec_ppsOutRise_of_none h, fun r hr h => ?_, fun r hr h => ?_,
    fun h => ppsLevel_of_quiet h, fun sub r t u hr ht hu => ⟨fun hon h hs => ?_, fun hon h hs => ?_, fun p hon h hn => ?_, fun hoff => ?_⟩,
    fun p hon h hp hm => ?_, fun h => ?_, fun w k ha hsel hf hk hns => ?_, fun w k ha hsel hf hk hns => ?_, fun w k ha hsel hf hk => exec_trigDisarm ha hsel hf hk,
    fun k hk => ⟨fun h => ?_, fun h => ?_, fun u hu => trigFire_cases hu, fun r hr h => ?_, fun r hr h => ?_⟩⟩
  · rw [exec_ppsOutRise_of_next ht, onlyIf_of_true (by rw [hon, hat]; rfl), hu]
    exact congrArg Host.Outcome.next (if_pos hq)
  · rw [exec_ppsOutRise_of_next ht, onlyIf_of_true (by rw [hon, hat]; rfl), hu]
    exact congrArg Host.Outcome.next (if_neg (by rw [hq]; exact Bool.false_ne_true))
  · rw [exec_ppsOutRise_of_next ht, onlyIf_of_false (by rw [hat, Bool.and_false])]
  · exact congrArg Host.Outcome.next (onlyIf_of_true ((pulseOver_of_some hr).trans h) _ _)
  · exact congrArg Host.Outcome.next (onlyIf_of_false ((pulseOver_of_some hr).trans h) _ _)
  · exact congrArg Host.Outcome.next ((onlyIf_of_true hon _ _).trans ((ppsInEdge_of_first h hr ht hu).trans (if_neg hs)))
  · exact congrArg Host.Outcome.next ((onlyIf_of_true hon _ _).trans ((ppsInEdge_of_first h hr ht hu).trans (if_pos hs)))
  · exact congrArg Host.Outcome.next ((onlyIf_of_true hon _ _).trans (ppsInEdge_of_near h (hr ▸ hn)))
  · exact congrArg Host.Outcome.next (onlyIf_of_false hoff _ _)
  · exact congrArg Host.Outcome.next (onlyIf_of_true (by rw [hon, ppsLate_of_last h hp, hm]; rfl) _ _)
  · refine congrArg Host.Outcome.next (onlyIf_of_false ?_ _ _)
    rcases h with h | h
    · rw [h]
      exact Bool.and_false _
    · have hlate : ppsLate s = false := by
        unfold ppsLate
        rw [h]
      rw [hlate, Bool.and_false, Bool.false_and]
  · rw [exec_trigArm ha hsel hf hk]
    exact congrArg Host.Outcome.next (if_pos hns)
  · rw [exec_trigArm ha hsel hf hk]
    refine ⟨fun u hr hm hu => ⟨fun hat => ?_, fun hat => ?_⟩, fun u hr hm hu => ⟨fun hat => ?_, fun hat hon hbusy => ?_, fun hbusy => ⟨?_, trigOut_of_warm hbusy⟩⟩,
      fun hr => congrArg Host.Outcome.next (trigArm_of_refused hns hr)⟩
    · rw [trigArm_of_periodic hns hr hm hu, hat, if_neg Bool.false_ne_true]
    · rw [trigArm_of_periodic hns hr hm hu, if_pos hat]
    · rw [trigArm_of_oneShot hns hr hm hu, hat, Bool.false_and, if_neg Bool.false_ne_true]
    · have hruns : trigRuns k u = true := by rw [hu, trigRuns_of_armed, hon, decide_eq_false (by omega)]; rfl
      rw [trigArm_of_oneShot hns hr hm hu, hat, hruns]
      exact congrArg Host.Outcome.next (if_pos rfl)
    · have hruns : trigRuns k u = false := by rw [hu, trigRuns_of_armed, decide_eq_true hbusy]; exact Bool.and_false _
      rw [trigArm_of_oneShot hns hr hm hu, hruns, Bool.and_false, if_neg Bool.false_ne_true]
  · exact (guarded_of_true (decide_eq_true hk) _).trans (congrArg Host.Outcome.next (onlyIf_of_true h _ _))
  · exact (guarded_of_true (decide_eq_true hk) _).trans (congrArg Host.Outcome.next (onlyIf_of_false h _ _))
  · exact (guarded_of_true (decide_eq_true hk) _).trans (congrArg Host.Outcome.next (onlyIf_of_true ((pulseOver_of_some hr).trans h) _ _))
  · exact (guarded_of_true (decide_eq_true hk) _).trans (congrArg Host.Outcome.next (onlyIf_of_false ((pulseOver_of_some hr).trans h) _ _))

end Sys2Proof.Machine
end

section
/-! PROOFS. Captured edges and egress stamps (R461, R471). -/

namespace Sys2Proof.Machine

theorem captLevel_cases {k sub : Nat} {rising : Bool} {s v : State} (hv : v = wrC timCaptStatus_level (8 + k) (b2n rising) (putCapt k
      { capt k s with level := rising, since := if (capt k s).level = rising then (capt k s).since else raw8 sub s } s)) :
    (rdC timCaptStatus_stuck (8 + k) s = 0 → captLevel k rising sub s = v) ∧
    (rdC timCaptStatus_stuck (8 + k) s = 1 → rising = (capt k s).lastLevel → captLevel k rising sub s = v) ∧
    (rdC timCaptStatus_stuck (8 + k) s = 1 → rising ≠ (capt k s).lastLevel →
      captLevel k rising sub s = raiseC timCaptReleased (8 + k) (wrC timCaptStatus_stuck (8 + k) 0 v)) := by
  subst hv
  exact ⟨fun h => if_neg fun hc => by omega, fun _ hl => if_neg fun hc => hc.2 hl, fun h hl => if_pos ⟨h, hl⟩⟩

theorem exec_captureEdge {k sub : Nat} {rising : Bool} {s u : State} (hk : k < 4) (hu : u = captLevel k rising sub s) :
    exec (.captureEdge k rising sub) s = .next
      (if chanOn .tim (8 + k) u && captChooses (rdC timCaptCfg_edge (8 + k) u) rising then captRecord k rising sub u else u) := by
  subst hu
  exact guarded_of_true (decide_eq_true hk) _

/-- An edge in the dead time of the last one is only counted. -/
theorem captRecord_of_dead {k sub p : Nat} {rising : Bool} {u : State} (hp : (capt k u).lastRaw = some p) (hd : rdC timCaptCfg_deadUs (8 + k) u ≠ 0)
    (hn : (raw8 sub u - p) * 16 < rdC timCaptCfg_deadUs (8 + k) u * 100000) :
    captRecord k rising sub u = satX timCaptDead_ignored 0 (8 + k) 1 u := by
  unfold captRecord
  dsimp only
  rw [hp]
  dsimp only
  exact if_pos (by rw [decide_eq_true hd, decide_eq_true hn]; rfl)

/-- With no dead time an edge is lost at a full FIFO and recorded at another. -/
theorem captRecord_of_live {k sub : Nat} {rising : Bool} {u : State} (hd : rdC timCaptCfg_deadUs (8 + k) u = 0) : captRecord k rising sub u =
    if 64 ≤ (capt k u).fifo.length then
      (if (capt k u).fullRaised then satX timCaptStatus_lost 0 (8 + k) 1 (wrC timCaptStatus_overflow (8 + k) 1
          (putCapt k { capt k u with gapNext := true, fullRaised := true } u))
        else raiseC timCaptOverflow (8 + k) (satX timCaptStatus_lost 0 (8 + k) 1 (wrC timCaptStatus_overflow (8 + k) 1
          (putCapt k { capt k u with gapNext := true, fullRaised := true } u))))
    else raiseC timCaptCaptured (8 + k) (putCapt k { capt k u with
      fifo := (capt k u).fifo ++ [⟨(timeAtEighth u.tim (raw8 sub u) + timeMod - Config.captureDelay k % timeMod) % timeMod, u.tim.epoch, !rising, (capt k u).gapNext⟩]
      lastRaw := some (raw8 sub u)
      lastLevel := rising
      gapNext := false } u) := by
  unfold captRecord
  dsimp only
  rw [hd]
  cases (capt k u).lastRaw with
  | none => exact if_neg Bool.false_ne_true
  | some p => exact if_neg Bool.false_ne_true

theorem txTsPop_of_empty {w : Window} {c : Nat} {s : State} (hc : c = selChan w .tsu s) (h : txFifo c s = []) :
    txTsPop w s = putRead w (reg tsuTxSecLo_value.off c s) (wrC tsuTxInfo_value c 0 s) := by
  subst hc
  unfold txTsPop
  dsimp only
  rw [h]

theorem txTsPop_of_cons {w : Window} {c : Nat} {e : TxTs} {es : List TxTs} {s : State} (hc : c = selChan w .tsu s) (h : txFifo c s = e :: es) :
    txTsPop w s = putRead w (BitVec.ofNat 32 (secOf e.time)) (wrC tsuTxSecLo_value c (secOf e.time)
      (wrC tsuTxSecHi_value c (secOf e.time / 2 ^ 32 % 65536 + e.epoch * 65536) (wrC tsuTxNs_value c (nsOf e.time)
        (wrC tsuTxId_value c (e.seqId % 65536 + e.domain % 256 * 65536)
          (wrC tsuTxInfo_value c (fracOf e.time + e.msgType % 16 * 2 ^ 16 + b2n e.gap * 2 ^ 20 + es.length * 2 ^ 24 + 2 ^ 31) (putTxFifo c es s)))))) := by
  subst hc
  unfold txTsPop
  dsimp only
  rw [h]

/-- Settles O58, edge by edge. -/
theorem capturedEdgesEnterAFifo : Obligations.CapturedEdgesEnterAFifo := by
  unfold Obligations.CapturedEdgesEnterAFifo
  intro s
  refine ⟨fun k rising sub v hv => captLevel_cases hv, fun k rising sub u c r hk hu hc hr => ⟨fun h => ?_, fun hon hch => ?_⟩,
    fun k hk => ⟨fun h => ?_, fun h => ?_, fun h => ?_, fun h => ?_⟩, fun w c hr hc => ⟨fun h => ?_, fun e es h => ?_⟩⟩
  · subst hc
    rw [exec_captureEdge hk hu]
    refine congrArg Host.Outcome.next (if_neg fun hcond => ?_)
    rw [Bool.and_eq_true] at hcond
    rcases h with h | h
    · exact Bool.false_ne_true (h.symm.trans hcond.1)
    · exact Bool.false_ne_true (h.symm.trans hcond.2)
  · subst hc hr
    rw [exec_captureEdge hk hu, if_pos (by rw [hon, hch]; rfl)]
    clear hu
    refine ⟨fun p hp hd hn => congrArg Host.Outcome.next (captRecord_of_dead hp hd hn), fun hd hl hf => ?_, fun hd hl hf => ?_, fun t hd hl ht => ?_⟩
    · rw [captRecord_of_live hd, if_pos hl, if_pos hf]
    · rw [captRecord_of_live hd, if_pos hl, hf, if_neg Bool.false_ne_true]
    · rw [captRecord_of_live hd, if_neg (Nat.not_le.2 hl), ht]
  · exact (guarded_of_true (decide_eq_true hk) _).trans (congrArg Host.Outcome.next (onlyIf_of_true h _ _))
  · exact (guarded_of_true (decide_eq_true hk) _).trans (congrArg Host.Outcome.next (onlyIf_of_false h _ _))
  · exact (guarded_of_true (decide_eq_true hk) _).trans (congrArg Host.Outcome.next (onlyIf_of_true (decide_eq_true h) _ _))
  · exact (guarded_of_true (decide_eq_true hk) _).trans (congrArg Host.Outcome.next (onlyIf_of_false (decide_eq_false (by omega)) _ _))
  · exact congrArg Host.Outcome.next ((reading_of_reachable hr _).trans (txTsPop_of_empty hc h))
  · exact congrArg Host.Outcome.next ((reading_of_reachable hr _).trans (txTsPop_of_cons hc h))

end Sys2Proof.Machine
end

section
/-! PROOFS. Per-block resets and targets that no block has (R124, R528). -/

namespace Sys2Proof.Machine

/-- A reset device whose scrubbers are enabled and OFF. -/
def scrEnabled : State := modTgt ⟨.scr, none⟩ (fun x => { x with enable := true }) State.reset

/-- The channel number, far above LAN's channels, whose record is that of the scrubbers. -/
def strayLane : Nat := (blockCode .scr - blockCode .lan) * 1024 - 1

theorem strayLane_key : tgtKey ⟨.lan, some strayLane⟩ = tgtKey ⟨.scr, none⟩ := by decide

theorem strayLane_not_ok : targetOk ⟨.lan, some strayLane⟩ = false := by decide

/-- A write of BLOCK_RESET with go and the key reaches the scrubbers of this device, all of them at rest. -/
theorem scrEnabled_takes_reset : Admits .h .scr scrEnabled ∧ selTarget .h .scr scrEnabled = ⟨.scr, none⟩ ∧ tgtFused (selTarget .h .scr scrEnabled) scrEnabled = false ∧
    wordField (0xA501 : Word) 8 8 = 0xA5 ∧ wordField (0xA501 : Word) 0 1 = 1 ∧ resettable .scr = true ∧
    resetBusy (selTarget .h .scr scrEnabled) scrEnabled = false ∧ rd rstWarmCtl_busy scrEnabled = 0 ∧ scrEnabled.pwr.perstLow = false ∧
    (∀ x ∈ targetsOf .scr, (tgt x scrEnabled).st = .off ∨ (tgt x scrEnabled).st = .held ∨ (tgt x scrEnabled).st = .fault) ∧
    (tgt ⟨.scr, none⟩ scrEnabled).enable = true := by decide

/-- Refutes O13: the reset of a whole block is said to leave the record of every target of another block, also of one whose channel does not
exist (no hypothesis asks for `targetOk`), and LAN's channel `strayLane` names the record of SCR, which the reset of SCR clears. -/
theorem not_drainsEndInOff : ¬ Obligations.DrainsEndInOff := by
  unfold Obligations.DrainsEndInOff
  intro h
  obtain ⟨-, -, hwrite⟩ := h
  obtain ⟨ha, hsel, hfused, hkey, hgo, hres, hidle, hbusy, hperst, hrest, henable⟩ := scrEnabled_takes_reset
  obtain ⟨-, hreset⟩ := hwrite .h .scr 0xA501 scrEnabled ha hfused
  obtain ⟨-, -, -, hwhole, -⟩ := hreset hkey hgo hres hidle
  obtain ⟨u, -, -, hcleared, hothers, -⟩ := hwhole hbusy hperst hsel (.inl hrest)
  have hzero : tgt ⟨.scr, none⟩ u = {} := hcleared ⟨.scr, none⟩ (by decide)
  have hkept : tgt ⟨.lan, some strayLane⟩ u = tgt ⟨.lan, some strayLane⟩ scrEnabled := (hothers (by decide)).2 _ (by decide)
  have hsame : ∀ s, tgt ⟨.lan, some strayLane⟩ s = tgt ⟨.scr, none⟩ s := fun s => by
    unfold tgt
    rw [strayLane_key]
  rw [hsame, hsame, hzero] at hkept
  rw [← hkept] at henable
  exact absurd henable (by decide)

end Sys2Proof.Machine
end

section
/-! PROOFS. Power-on and RESET_N resets (R61 to R71), and REFCLK_SYS missing at power-on (R75, R98). -/

namespace Sys2Proof.Machine

/-! ### What a cleared device reads -/

theorem rkey_mod {off inst : Nat} (h : off < 0x40000) : rkey off inst % 0x40000 = off := by
  unfold rkey
  omega

/-- A register of a cleared device: kept in the VDD_IO domain where that is kept, at reset elsewhere. -/
theorem reg_clearAll (keepIo keepRing : Bool) {off : Nat} (inst : Nat) (s : State) (h : off < 0x40000) :
    reg off inst (clearAll keepIo keepRing s) = if (keepIo && inIoDomain off) = true then reg off inst s else regReset (rkey off inst) := by
  cases keepIo with
  | false => rfl
  | true =>
    refine (sget_sfilter regReset (fun k => inIoDomain (k % 0x40000)) s.fab.regs (rkey off inst)).trans ?_
    rw [rkey_mod h]
    rfl

/-- A reset leaves every block's OWNER free but Hallmark's own. -/
theorem ownerOf_clearAll {b : Block} (keepIo keepRing : Bool) (s : State) (h : b ≠ .hmk) : (ownerOf b (clearAll keepIo keepRing s)).owner = 0 := by
  unfold ownerOf
  rw [if_neg h]
  rfl

/-! ### Which rail the latch holds -/

theorem nextLatch_of_first {r : Nat} {s : State} (hh : s.pwr.hold ≠ .powerOn) (h6 : s.pwr.railLow.testBit 6 = false) :
    nextLatch r s = if r = 6 then none else some r := by
  unfold nextLatch
  rw [if_neg (c := s.pwr.hold = .powerOn ∧ s.pwr.failLatch.isSome = true) fun h => hh h.1]
  by_cases hr : r = 6
  · rw [if_pos (.inl hr), if_pos hr]
  · rw [if_neg hr, if_neg (by rw [h6]; simp [hr])]

theorem nextLatch_of_later {r x : Nat} {s : State} (hh : s.pwr.hold = .powerOn) (h6 : s.pwr.railLow.testBit 6 = false) (hr : r ≠ 6)
    (hx : s.pwr.failLatch = some x) : nextLatch r s = some x := by
  unfold nextLatch
  rw [if_neg (by rw [h6]; simp [hr]), if_pos ⟨hh, by rw [hx]; rfl⟩, hx]

/-! ### The release of reset -/

/-- The word that the strap register takes: it holds the straps twice. -/
def strapWord (straps : Nat) : Word := BitVec.ofNat 32 (straps % 128 + 256 * (straps % 128))

theorem strapWord_toNat (straps : Nat) : (strapWord straps).toNat = straps % 128 + 256 * (straps % 128) :=
  Nat.mod_eq_of_lt (by omega)

theorem strapWord_sampled {lo n : Nat} (straps : Nat) (h : lo + n ≤ 7) : wordField (strapWord straps) lo n = bitsOf straps lo n := by
  unfold wordField
  rw [strapWord_toNat]
  exact bitsOf_of_mod_eq (m := 7) (by omega) h

theorem strapWord_live (straps : Nat) : wordField (strapWord straps) 8 2 = bitsOf straps 0 2 := by
  unfold wordField bitsOf
  rw [strapWord_toNat, Nat.shiftRight_eq_div_pow, show (straps % 128 + 256 * (straps % 128)) / 2 ^ 8 = straps % 128 by omega]
  exact Nat.mod_mod_of_dvd straps (by decide)

/-- What sampling leaves in a field of the strap register but strap_fault. -/
theorem rd_sampleStraps {f : Fld} (straps : Nat) (s : State)
    (h : (decide (f.off = sysStrapSample_role.off) && fieldsApart tieMeshStatus_roleLive 0 0 f 0 0
      && fieldsApart sysStrapSample_strapFault 0 0 f 0 0) = true) :
    rd f (sampleStraps straps s) = wordField (strapWord straps) f.lo f.w := by
  simp only [Bool.and_eq_true, decide_eq_true_eq] at h
  obtain ⟨⟨hoff, hrole⟩, hfault⟩ := h
  unfold sampleStraps
  dsimp only
  rw [rd_wr_other _ _ hrole, rd_wr_other _ _ hfault]
  unfold rd rdX
  rw [hoff, Nat.zero_mul, Nat.add_zero, reg_putReg_same]
  rfl

theorem rd_strapFault_sampleStraps (straps : Nat) (s : State) :
    rd sysStrapSample_strapFault (sampleStraps straps s) = b2n (strapsBad straps s) := by
  unfold sampleStraps
  dsimp only
  rw [rd_wr_other _ _ (by decide), rd_wr_fits (by decide) (b2n_lt _ (by decide))]

/-- The device as its reset is released, but for the rail-fail evidence. -/
def releasedPlain (cause straps : Nat) (s : State) : State :=
  wr pwrRailStatus_railGood (255 - s.pwr.railLow % 256) (wr rstResetCause_resetCause cause
    (sampleStraps straps { s with pwr := { s.pwr with hold := .none }, tim := {}, start := {} }))

theorem release_of_failed {r : Nat} {s : State} (cause straps : Nat) (h : s.pwr.failLatch = some r) :
    release cause straps s = wr pwrRailStatus_failValid 1 (wr pwrRailStatus_firstFailRail r (releasedPlain cause straps s)) := by
  unfold release releasedPlain
  rw [h]

theorem release_of_clear {s : State} (cause straps : Nat) (h : s.pwr.failLatch = none) : release cause straps s = releasedPlain cause straps s := by
  unfold release releasedPlain
  rw [h]

/-- The rail-fail evidence is shown in the rail register alone. -/
theorem rd_release_plain {f : Fld} (cause straps : Nat) (s : State)
    (h : (fieldsApart pwrRailStatus_failValid 0 0 f 0 0 && fieldsApart pwrRailStatus_firstFailRail 0 0 f 0 0) = true) :
    rd f (release cause straps s) = rd f (releasedPlain cause straps s) := by
  simp only [Bool.and_eq_true] at h
  obtain ⟨hvalid, hrail⟩ := h
  cases hl : s.pwr.failLatch with
  | none => rw [release_of_clear cause straps hl]
  | some r => rw [release_of_failed cause straps hl, rd_wr_other _ _ hvalid, rd_wr_other _ _ hrail]

/-- A field of another register than those of the cause and the rails is as the straps leave it. -/
theorem rd_release_straps {f : Fld} (cause straps : Nat) (s : State)
    (h : (fieldsApart pwrRailStatus_failValid 0 0 f 0 0 && fieldsApart pwrRailStatus_firstFailRail 0 0 f 0 0
      && fieldsApart pwrRailStatus_railGood 0 0 f 0 0 && fieldsApart rstResetCause_resetCause 0 0 f 0 0) = true) :
    rd f (release cause straps s)
      = rd f (sampleStraps straps { s with pwr := { s.pwr with hold := .none }, tim := {}, start := {} }) := by
  rw [Bool.and_eq_true, Bool.and_eq_true] at h
  obtain ⟨⟨hevidence, hgood⟩, hcause⟩ := h
  rw [rd_release_plain cause straps s hevidence]
  unfold releasedPlain
  rw [rd_wr_other _ _ hgood, rd_wr_other _ _ hcause]

theorem rd_resetCause_release {cause : Nat} (straps : Nat) (s : State) (h : cause < 16) :
    rd rstResetCause_resetCause (release cause straps s) = cause := by
  rw [rd_release_plain cause straps s (by decide)]
  exact (rd_wr_other _ _ (by decide)).trans (rd_wr_fits (by decide) h)

theorem rd_railGood_release {s : State} (cause straps : Nat) (h : s.pwr.railLow = 0) :
    rd pwrRailStatus_railGood (release cause straps s) = 255 := by
  rw [rd_release_plain cause straps s (by decide)]
  unfold releasedPlain
  rw [h]
  exact rd_wr_fits (by decide) (by decide)

theorem rd_evidence_release {r : Nat} {s : State} (cause straps : Nat) (h : s.pwr.failLatch = some r) (hr : r < 8) :
    rd pwrRailStatus_firstFailRail (release cause straps s) = r ∧ rd pwrRailStatus_failValid (release cause straps s) = 1 := by
  rw [release_of_failed cause straps h]
  exact ⟨(rd_wr_other _ _ (by decide)).trans (rd_wr_fits (by decide) hr), rd_wr_fits (by decide) (by decide)⟩

theorem release_pwr (cause straps : Nat) (s : State) :
    (release cause straps s).pwr = { s.pwr with hold := .none } ∧ (release cause straps s).tim = {} := by
  cases hl : s.pwr.failLatch with
  | none =>
    rw [release_of_clear cause straps hl]
    exact ⟨rfl, rfl⟩
  | some r =>
    rw [release_of_failed cause straps hl]
    exact ⟨rfl, rfl⟩

/-- The device out of reset: the straps sampled, the cause and the rail evidence shown. -/
structure ReleasedWith (straps cause : Nat) (s t : State) : Prop where
  hold : t.pwr.hold = .none
  time : t.tim = {}
  role : rd sysStrapSample_role t = bitsOf straps 0 2
  deviceId : rd sysStrapSample_deviceId t = bitsOf straps 2 3
  bootSrc : rd sysStrapSample_bootSrc t = bitsOf straps 5 2
  roleLive : rd sysStrapSample_roleLive t = bitsOf straps 0 2
  fault : rd sysStrapSample_strapFault t = b2n (strapsBad straps s)
  cause : rd rstResetCause_resetCause t = cause
  evidence : ∀ r, s.pwr.failLatch = some r → r < 8 → rd pwrRailStatus_firstFailRail t = r ∧ rd pwrRailStatus_failValid t = 1

theorem release_released {cause : Nat} (straps : Nat) (s : State) (h : cause < 16) : ReleasedWith straps cause s (release cause straps s) := by
  obtain ⟨hpwr, htim⟩ := release_pwr cause straps s
  exact {
    hold := by rw [hpwr]
    time := htim
    role := (rd_release_straps cause straps s (by decide)).trans ((rd_sampleStraps straps _ (by decide)).trans (strapWord_sampled straps (by decide)))
    deviceId := (rd_release_straps cause straps s (by decide)).trans ((rd_sampleStraps straps _ (by decide)).trans (strapWord_sampled straps (by decide)))
    bootSrc := (rd_release_straps cause straps s (by decide)).trans ((rd_sampleStraps straps _ (by decide)).trans (strapWord_sampled straps (by decide)))
    roleLive := (rd_release_straps cause straps s (by decide)).trans ((rd_sampleStraps straps _ (by decide)).trans (strapWord_live straps))
    fault := (rd_release_straps cause straps s (by decide)).trans (rd_strapFault_sampleStraps straps _)
    cause := rd_resetCause_release straps s h
    evidence := fun r hr hlt => rd_evidence_release cause straps hr hlt }

/-- The islands on the backup oscillator: only TIM's status shows it. -/
theorem rd_onBackup_other {f : Fld} (b : Bool) (s : State)
    (h : (fieldsApart timStatus_onBackup 0 0 f 0 0 && fieldsApart timStatus_locked 0 0 f 0 0) = true) : rd f (onBackup b s) = rd f s := by
  rw [Bool.and_eq_true] at h
  obtain ⟨hon, hlocked⟩ := h
  cases b with
  | false => exact rd_wr_other _ _ hon
  | true => exact (rd_wr_other _ _ hlocked).trans (rd_wr_other _ _ hon)

theorem onBackup_pwr (b : Bool) (s : State) : (onBackup b s).pwr = { s.pwr with onBackup := b } ∧ (onBackup b s).tim = s.tim := by
  cases b <;> exact ⟨rfl, rfl⟩

theorem ReleasedWith.onBackup {straps cause : Nat} {s t : State} (h : ReleasedWith straps cause s t) :
    ReleasedWith straps cause s (onBackup true t) := by
  obtain ⟨hpwr, htim⟩ := onBackup_pwr true t
  exact {
    hold := by rw [hpwr]; exact h.hold
    time := htim.trans h.time
    role := (rd_onBackup_other true t (by decide)).trans h.role
    deviceId := (rd_onBackup_other true t (by decide)).trans h.deviceId
    bootSrc := (rd_onBackup_other true t (by decide)).trans h.bootSrc
    roleLive := (rd_onBackup_other true t (by decide)).trans h.roleLive
    fault := (rd_onBackup_other true t (by decide)).trans h.fault
    cause := (rd_onBackup_other true t (by decide)).trans h.cause
    evidence := fun r hr hlt => by
      rw [rd_onBackup_other true t (by decide), rd_onBackup_other true t (by decide)]
      exact h.evidence r hr hlt }

/-! ### What entering the held state leaves -/

/-- The outputs of the time island put out. -/
def State.quietOutputs (t : State) : State :=
  { t with tim := { t.tim with ppsHigh := none, ppsNext := none, synceUp := false,
                               trigs := t.tim.trigs.filterMap (fun (e : Nat × Trig) =>
                                 if e.2.idx = 0 then none else some (e.1, { e.2 with pulse := none })) } }

theorem quietTime_eq (s : State) :
    quietTime s = refreshSynce (foldOver (List.range 8) (fun c a => wrC timTrigCtl_armed c 0 a)
      (foldOver (targetsOf .tim) (fun x a => modTgt x (fun y => { y with st := .off, resetBusy := false }) a) s).quietOutputs) := rfl

theorem State.quietOutputs_rd (f : Fld) (t : State) : rd f t.quietOutputs = rd f t := rd_congr rfl

theorem State.quietOutputs_pwr (t : State) : t.quietOutputs.pwr = t.pwr := rfl

/-- Quieting the time island writes no register but the triggers' and no part of the supplies. -/
theorem rd_quietTime {f : Fld} (s : State) (h : offsApart timTrigCtl_armed 0 f 0 = true) (hs : ¬ StatKey (keyOfField f 0 0)) :
    rd f (quietTime s) = rd f s ∧ (quietTime s).pwr = s.pwr := by
  have htargets := foldOver_induct (P := fun a => rd f a = rd f s ∧ a.pwr = s.pwr)
    (g := fun x a => modTgt x (fun y => { y with st := .off, resetBusy := false }) a) (fun x a ha => ha) (targetsOf .tim) ⟨rfl, rfl⟩
  rw [quietTime_eq]
  generalize foldOver (targetsOf .tim) _ s = q at htargets ⊢
  have htrigs := foldOver_induct (P := fun a => rd f a = rd f s ∧ a.pwr = s.pwr) (g := fun c a => wrC timTrigCtl_armed c 0 a)
    (fun c a ha => ⟨(rdX_wrX_offs _ _ h).trans ha.1, ha.2⟩) (List.range 8) (s := q.quietOutputs)
    ⟨(q.quietOutputs_rd f).trans htargets.1, q.quietOutputs_pwr.trans htargets.2⟩
  generalize foldOver (List.range 8) _ q.quietOutputs = u at htrigs ⊢
  obtain ⟨x, hx⟩ := refreshSynce_only u
  exact ⟨(rdX_refreshSynce _ hs).trans htrigs.1, hx.pwr.trans htrigs.2⟩

theorem suggest_hold (v : Nat) (s : State) : (suggest v s).pwr.hold = s.pwr.hold := by
  unfold suggest
  dsimp only
  split <;> rfl

/-- A field outside the registers of the failure, of the advice and of the triggers. -/
def outsideHeld (f : Fld) : Bool :=
  fieldsApart cfgFailCode_code 0 0 f 0 0 && fieldsApart cfgFailCode_slot 0 0 f 0 0 && fieldsApart cfgFailIndex_index 0 0 f 0 0
    && fieldsApart cfgStartState_state 0 0 f 0 0 && fieldsApart rstWarmCtl_busy 0 0 f 0 0 && offsApart pwrAvsStatus_suggestedMv 0 f 0
    && offsApart timTrigCtl_armed 0 f 0

/-- The held state leaves the fields outside it, and the reset that holds the device, as they were. -/
theorem rd_enterHeld {f : Fld} (code index slot : Nat) (s : State) (h : outsideHeld f = true) (hs : ¬ StatKey (keyOfField f 0 0)) :
    rd f (enterHeld code index slot s) = rd f s ∧ (enterHeld code index slot s).pwr.hold = s.pwr.hold := by
  unfold outsideHeld at h
  simp only [Bool.and_eq_true] at h
  obtain ⟨⟨⟨⟨⟨⟨hcode, hslot⟩, hindex⟩, hstate⟩, hbusy⟩, hadvice⟩, htrig⟩ := h
  obtain ⟨hquiet, hpwr⟩ := rd_quietTime { s with start := { s.start with load := .none, firstFail := none } } htrig hs
  unfold enterHeld
  dsimp only
  generalize quietTime _ = q at hquiet hpwr ⊢
  constructor
  · rw [rd_raise _ _ hs, rd_suggest_other hadvice, rd_writeRec hs, rd_wr_other _ _ hcode, rd_wr_other _ _ hslot, rd_wr_other _ _ hindex,
      rd_wr_other _ _ hstate, rd_wr_other _ _ hbusy, hquiet, rd_with_start]
  · rw [(raise_onlyEvents cfgHeldEntered _).pwr, suggest_hold, (writeRec_onlyEvents _ _ _ _ _ _).pwr]
    exact congrArg Power.hold hpwr

theorem rd_suggestedMv_enterHeld (code index slot : Nat) (s : State) : rd pwrAvsStatus_suggestedMv (enterHeld code index slot s) = 0 := by
  unfold enterHeld
  rw [rd_raise _ _ (by decide), rd_suggest]

/-! ### The commands -/

theorem exec_railFail {r : Nat} {s : State} (hr : r < 8) (h : s.pwr.railLow.testBit r = false) : exec (.railFail r) s = .next (railFail r s) :=
  (guarded_of_true (decide_eq_true hr) _).trans (congrArg Host.Outcome.next (onlyIf_of_true (by rw [h]; rfl) _ _))

theorem exec_resetNAssert {s : State} (h : s.pwr.resetNLow = false) : exec .resetNAssert s = .next (resetNAssert s) :=
  congrArg Host.Outcome.next (onlyIf_of_true (by rw [h]; rfl) _ _)

theorem exec_porRelease {s : State} (straps : Nat) (hh : s.pwr.hold = .powerOn) (hrail : s.pwr.railLow = 0) (hn : s.pwr.resetNLow = false)
    (hsys : s.pwr.sysLost = false) : exec (.porRelease straps) s = .next (release (powerCause s) straps s) :=
  congrArg Host.Outcome.next (onlyIf_of_true (by rw [hh, hrail, hn, hsys]; rfl) _ _)

theorem exec_refclkSysTimeout {s : State} (straps : Nat) (hh : s.pwr.hold = .powerOn) (hrail : s.pwr.railLow = 0) (hn : s.pwr.resetNLow = false)
    (hsys : s.pwr.sysLost = true) : exec (.refclkSysTimeout straps) s = .next (refclkSysTimeout straps s) :=
  congrArg Host.Outcome.next (onlyIf_of_true (by rw [hh, hrail, hn, hsys]; rfl) _ _)

theorem exec_resetNRelease {s : State} (straps : Nat) (h : s.pwr.resetNLow = true) : exec (.resetNRelease straps) s = .next (resetNRelease straps s) :=
  congrArg Host.Outcome.next (onlyIf_of_true h _ _)

theorem powerCause_lt (s : State) : powerCause s < 16 := by
  unfold powerCause
  split <;> decide

/-- The timeout of REFCLK_SYS: released, on the backup oscillator, held. -/
theorem refclkSysTimeout_shows (straps : Nat) (s : State) :
    (refclkSysTimeout straps s).pwr.hold = .none ∧ rd rstResetCause_resetCause (refclkSysTimeout straps s) = powerCause s ∧
      rd sysStrapSample_role (refclkSysTimeout straps s) = bitsOf straps 0 2 ∧ rd timStatus_onBackup (refclkSysTimeout straps s) = 1 := by
  have hrel := (release_released straps s (powerCause_lt s)).onBackup
  unfold refclkSysTimeout
  dsimp only
  generalize hq : ({ release (powerCause s) straps s with pwr := { (release (powerCause s) straps s).pwr with backupStart := true } } : State) = q
  have hread : ∀ f, rd f q = rd f (release (powerCause s) straps s) := fun f => by rw [← hq, rd_with_pwr]
  have hhold : q.pwr.hold = .none := by
    rw [← hq]
    exact (congrArg Power.hold (release_pwr (powerCause s) straps s).1)
  have hback := fun f (h : (fieldsApart timStatus_onBackup 0 0 f 0 0 && fieldsApart timStatus_locked 0 0 f 0 0) = true) =>
    (rd_onBackup_other (f := f) true q h).trans ((hread f).trans (rd_onBackup_other true _ h).symm)
  refine ⟨?_, ?_, ?_, ?_⟩
  · refine (rd_enterHeld (f := timStatus_onBackup) 1 0 0 (onBackup true q) (by decide) (by decide)).2.trans ?_
    exact (congrArg Power.hold (onBackup_pwr true q).1).trans hhold
  · exact (rd_enterHeld 1 0 0 (onBackup true q) (by decide) (by decide)).1.trans ((hback _ (by decide)).trans hrel.cause)
  · exact (rd_enterHeld 1 0 0 (onBackup true q) (by decide) (by decide)).1.trans ((hback _ (by decide)).trans hrel.role)
  · exact (rd_enterHeld 1 0 0 (onBackup true q) (by decide) (by decide)).1.trans (rd_onBackup true q).1

/-- The release of RESET_N: out of reset, on the backup oscillator at once where REFCLK_SYS is lost. -/
theorem resetNRelease_shows (straps : Nat) {s : State} (hh : s.pwr.hold = .resetN) :
    ReleasedWith straps 3 s (resetNRelease straps s) ∧ (resetNRelease straps s).pwr.resetNLow = false ∧
      (s.pwr.sysLost = true → rd timStatus_onBackup (resetNRelease straps s) = 1) := by
  have hrel : ReleasedWith straps 3 s (release 3 straps { s with pwr := { s.pwr with resetNLow := false } }) := by
    obtain ⟨h1, h2, h3, h4, h5, h6, h7, h8, h9⟩ := release_released straps { s with pwr := { s.pwr with resetNLow := false } } (show 3 < 16 by decide)
    exact ⟨h1, h2, h3, h4, h5, h6, h7, h8, h9⟩
  have hpwr := (release_pwr 3 straps { s with pwr := { s.pwr with resetNLow := false } }).1
  unfold resetNRelease
  dsimp only
  rw [if_pos hh]
  generalize release 3 straps _ = u at hrel hpwr ⊢
  by_cases hsys : u.pwr.sysLost = true
  · rw [if_pos hsys]
    refine ⟨hrel.onBackup, ?_, fun _ => (rd_onBackup true u).1⟩
    rw [(onBackup_pwr true u).1, hpwr]
  · rw [if_neg hsys]
    refine ⟨hrel, by rw [hpwr], fun h => absurd ?_ hsys⟩
    rw [hpwr]
    exact h

/-- Settles O21, by what the cleared state and the release of reset read. -/
theorem powerOnAndResetNClearTheDevice : Obligations.PowerOnAndResetNClearTheDevice := by
  unfold Obligations.PowerOnAndResetNClearTheDevice
  dsimp only
  have hregs : ∀ (keepIo keepRing : Bool) (s : State),
      (∀ off inst, off < 0x40000 → ¬ (keepIo = true ∧ inIoDomain off = true) →
        reg off inst (clearAll keepIo keepRing s) = regReset (rkey off inst)) ∧
      (∀ off inst, off < 0x40000 → keepIo = true → inIoDomain off = true → reg off inst (clearAll keepIo keepRing s) = reg off inst s) := by
    refine fun keepIo keepRing s => ⟨fun off inst ho hk => ?_, fun off inst ho hk hio => ?_⟩
    · rw [reg_clearAll _ _ _ _ ho, if_neg (by rwa [Bool.and_eq_true])]
    · rw [reg_clearAll _ _ _ _ ho, if_pos (by rw [hk, hio]; rfl)]
  refine ⟨fun r s hr hgood => ?_, fun s hn => ?_, fun straps s hh hrail hn => ⟨fun hsys => ?_, fun hsys => ?_⟩, fun straps s hh hn => ?_⟩
  · refine ⟨_, exec_railFail hr hgood, ?_, rfl, rfl, rfl, nextLatch_of_first, fun hh h6 h x hx => nextLatch_of_later hh h6 h hx⟩
    exact ⟨(hregs _ false s).1, (hregs _ false s).2, fun _ => rfl, fun _ => ⟨rfl, ownerOf_clearAll (r != 6) false s⟩,
      rfl, rfl, rfl, rfl, rfl, rfl, rfl, rfl, rfl, fun _ => rfl, rfl, rfl, rfl, rfl, rfl, rfl, rfl, rfl, rfl⟩
  · refine ⟨_, exec_resetNAssert hn, ?_, rfl, rfl, rfl⟩
    exact ⟨(hregs true true s).1, (hregs true true s).2, fun _ => rfl, fun _ => ⟨rfl, ownerOf_clearAll true true s⟩,
      rfl, rfl, rfl, rfl, rfl, rfl, rfl, rfl, rfl, fun _ => rfl, rfl, rfl, rfl, rfl, rfl, rfl, rfl, rfl, rfl⟩
  · obtain ⟨h1, h2, h3, h4, h5, h6, h7, h8, h9⟩ := release_released straps s (powerCause_lt s)
    exact ⟨_, exec_porRelease straps hh hrail hn hsys, ⟨h1, h2, h3, h4, h5, h6, h7, h8, h9⟩, rd_railGood_release _ straps hrail⟩
  · obtain ⟨hhold, hcause, hrole, hback⟩ := refclkSysTimeout_shows straps s
    refine ⟨_, exec_refclkSysTimeout straps hh hrail hn hsys, hhold, ?_, ?_, hcause, hrole, hback, ?_, ?_⟩
    · exact (enterHeld_shows 1 0 0 _).1
    · exact (enterHeld_shows 1 0 0 _).2.1
    · exact rd_suggestedMv_enterHeld 1 0 0 _
    · exact (enterHeld_shows 1 0 0 _).2.2
  · obtain ⟨⟨h1, h2, h3, h4, h5, h6, h7, h8, h9⟩, hlow, hback⟩ := resetNRelease_shows straps hh
    exact ⟨_, exec_resetNRelease straps hn, ⟨h1, h2, h3, h4, h5, h6, h7, h8, h9⟩, hlow, hback⟩

end Sys2Proof.Machine
end

section
/-! PROOFS. PERST_N (R68, R70, R103), warm resets (R65, R67) and the loss of REFCLK_LANE (R75, R140). -/

namespace Sys2Proof.Machine

/-! ### PERST_N -/

theorem exec_perstNAssert {s : State} (h : s.pwr.perstLow = false) (hh : s.pwr.hold = .none) :
    exec .perstNAssert s = .next (abortLoad (hifReset (abandonRing (dropResets { s with pwr := { s.pwr with perstLow := true } })))) :=
  (congrArg Host.Outcome.next (onlyIf_of_true (by rw [h]; rfl) perstAssert s)).trans (congrArg Host.Outcome.next (if_pos hh))

theorem loadAborted_shows {back : Nat} (s : State) (h : back < 8) :
    rd cfgStartState_state (loadAborted back s) = back ∧ rd cfgStartState_loadAborted (loadAborted back s) = 1 ∧
      Asserted cfgLoadAborted (loadAborted back s) ∧ (loadAborted back s).start.load = .none := by
  unfold loadAborted
  refine ⟨?_, ?_, raise_asserted _ (by decide), ?_⟩
  · rw [rd_raise _ _ (by decide), rd_wr_other _ _ (by decide), rd_wr_fits (by decide) h]
  · rw [rd_raise _ _ (by decide), rd_wr_fits (by decide) (by decide)]
  · rw [(raise_onlyEvents cfgLoadAborted _).start]
    rfl

theorem loadAborted_changes (back : Nat) (s : State) :
    Changes [keyOfField cfgStartState_state 0 0] [] { s with start := { s.start with load := .none, image := [], banks := [] } } (loadAborted back s) :=
  ((wr_changes cfgStartState_state back _ (List.mem_singleton.2 rfl)).trans
    (wr_changes cfgStartState_loadAborted 1 _ (List.mem_singleton.2 rfl))).events (raise_onlyEvents _ _)

/-- An abandoned load changes the start-up record, its register, and what its event changes. -/
theorem abortLoad_changes (s : State) : ∃ x, Changes [keyOfField cfgStartState_state 0 0] [] { s with start := x } (abortLoad s) := by
  unfold abortLoad
  split
  · split
    · exact ⟨_, loadAborted_changes _ s⟩
    · exact ⟨s.start, .refl s⟩
  · exact ⟨_, loadAborted_changes _ s⟩
  · exact ⟨s.start, .refl s⟩
  · exact ⟨s.start, .refl s⟩

theorem abortLoad_of_hostStart {s : State} (h : s.start.load = .hostStart) (h8 : rd cfgStartState_step s = 8) :
    abortLoad s = loadAborted s.start.back s := by
  unfold abortLoad
  rw [h]
  exact if_pos h8

theorem abortLoad_of_runTime {s : State} (h : s.start.load = .runTime) : abortLoad s = loadAborted (devState s) s := by
  unfold abortLoad
  rw [h]

/-- The targets outside HIF are as the reset of HIF found them. -/
theorem tgt_hifReset {x : Target} (s : State) (ho : targetOk x = true) (h : x.block ≠ .hif) : tgt x (hifReset s) = tgt x s := by
  have hkey : tgtKey x ≠ tgtKey ⟨.hif, none⟩ := fun he => h (blockCode_inj (by
    rw [← tgtKey_div ho, ← tgtKey_div (t := ⟨.hif, none⟩) rfl, he]))
  exact ((resignal_onlyEvents _).tgt x).trans (sget_sset_other tgtReset s.fab.targets {} hkey)

/-- The registers outside HIF's pages are as the reset of HIF found them. -/
theorem reg_hifReset {off : Nat} (inst : Nat) (s : State) (ho : off < 0x40000) (h : blockOfPage (off / 0x1000) ≠ some .hif)
    (hs : ¬ StatKey (rkey off inst)) : reg off inst (hifReset s) = reg off inst s := by
  have hkey : keyOf ⟨.hif, none⟩ (rkey off inst) = false := by
    unfold keyOf
    dsimp only
    rw [rkey_mod ho, decide_eq_false h, Bool.false_and]
  refine ((resignal_onlyEvents _).reg hs).trans ?_
  refine (sget_sfilter regReset (fun k => !keyOf ⟨.hif, none⟩ k) s.fab.regs (rkey off inst)).trans ?_
  rw [hkey]
  rfl

theorem hifReset_pwr (s : State) : (hifReset s).pwr = s.pwr := (resignal_onlyEvents _).pwr
theorem hifReset_start (s : State) : (hifReset s).start = s.start := (resignal_onlyEvents _).start
theorem hifReset_msixEnable (s : State) : (hifReset s).evt.msixEnable = false := rfl
theorem hifReset_boxes (s : State) : (hifReset s).fw.boxes = [] := rfl

theorem latch_hifReset (b : Block) (s : State) : latch .h b (hifReset s) = {} ∧ latch .b b (hifReset s) = latch .b b s := by
  have hl : (hifReset s).fab.latches = sfilter (fun k => k % 4 != 0) s.fab.latches :=
    congrArg (sfilter fun k => k % 4 != 0) (resignal_onlyEvents _).latches
  have hh : (latchKey .h b % 4 != 0) = false := by
    unfold latchKey
    rw [Nat.mul_add_mod_self_right]
    rfl
  have hb : (latchKey .b b % 4 != 0) = true := by
    unfold latchKey
    rw [Nat.mul_add_mod_self_right]
    rfl
  unfold latch
  dsimp only
  rw [hl, sget_sfilter, sget_sfilter, hh, hb]
  exact ⟨rfl, rfl⟩

theorem dropReset_tgtReset (k : Nat) : dropReset (tgtReset k) = tgtReset k := by
  unfold tgtReset
  split <;> rfl

/-- Dropping a reset in progress from every record. -/
theorem sget_map_dropReset (k : Nat) (l : Sparse Tgt) :
    sget tgtReset (l.map fun e => (e.1, dropReset e.2)) k = { sget tgtReset l k with resetBusy := false } := by
  induction l with
  | nil => exact (dropReset_tgtReset k).symm
  | cons e l ih =>
    obtain ⟨j, y⟩ := e
    by_cases h : j = k
    · simp only [List.map_cons, sget, if_pos h, dropReset]
    · simp only [List.map_cons, sget, if_neg h, ih]

theorem tgt_dropResets (x : Target) (s : State) : tgt x (dropResets s) = { tgt x s with resetBusy := false } := sget_map_dropReset _ _

/-- What PERST_N leaves before the load is abandoned: the endpoint and window H's latches at reset, all outside HIF but the resets in progress
as it was. -/
structure EndpointReset (s u : State) : Prop where
  pwr : u.pwr = { s.pwr with perstLow := true }
  latches : ∀ b, latch .h b u = {} ∧ latch .b b u = latch .b b s
  boxes : u.fw.boxes = []
  msix : u.evt.msixEnable = false
  targets : ∀ x, targetOk x = true → x.block ≠ .hif → tgt x u = { tgt x s with resetBusy := false }
  regs : ∀ off inst, ¬ StatKey (rkey off inst) → off < 0x40000 → blockOfPage (off / 0x1000) ≠ some .hif → reg off inst u = reg off inst s
  start : u.start = s.start

theorem endpointReset (s : State) : EndpointReset s (hifReset (abandonRing (dropResets { s with pwr := { s.pwr with perstLow := true } }))) where
  pwr := hifReset_pwr _
  latches b := latch_hifReset b _
  boxes := hifReset_boxes _
  msix := hifReset_msixEnable _
  targets x ho hb := (tgt_hifReset _ ho hb).trans (tgt_dropResets x s)
  regs _ inst hs ho hb := reg_hifReset inst _ ho hb hs
  start := hifReset_start _

theorem reg_step_of_regs {s u : State} (h : reg cfgStartState_step.off 0 u = reg cfgStartState_step.off 0 s) :
    rd cfgStartState_step u = rd cfgStartState_step s ∧ devState u = devState s := by
  have hreg : reg (cfgStartState_step.off + 0 * cfgStartState_step.stride) 0 u = reg (cfgStartState_step.off + 0 * cfgStartState_step.stride) 0 s := h
  unfold devState rd rdX
  exact ⟨by rw [hreg], congrArg (fun x => wordField x cfgStartState_state.lo cfgStartState_state.w) hreg⟩

/-- What PERST_N leaves, with the load abandoned. -/
theorem perstNAssert_spec {s u : State} (h : EndpointReset s u) :
    (abortLoad u).pwr = { s.pwr with perstLow := true } ∧
      (∀ b, latch .h b (abortLoad u) = {} ∧ latch .b b (abortLoad u) = latch .b b s) ∧ (abortLoad u).fw.boxes = [] ∧
      (abortLoad u).evt.msixEnable = false ∧
      (∀ x, targetOk x = true → x.block ≠ .hif → tgt x (abortLoad u) = { tgt x s with resetBusy := false }) ∧
      (∀ off inst, ¬ StatKey (rkey off inst) → off < 0x40000 → blockOfPage (off / 0x1000) ≠ some .hif → off ≠ cfgStartState_state.off →
        reg off inst (abortLoad u) = reg off inst s) := by
  obtain ⟨x, hx⟩ := abortLoad_changes u
  refine ⟨hx.pwr.trans h.pwr, fun b => ?_, ?_, ?_, fun y ho hb => (hx.tgt y).trans (h.targets y ho hb), fun off inst hs ho hb hne => ?_⟩
  · exact ⟨(latch_congr hx.latches .h b).trans (h.latches b).1, (latch_congr hx.latches .b b).trans (h.latches b).2⟩
  · exact (congrArg Firmware.boxes hx.fw).trans h.boxes
  · exact hx.control.2.1.trans h.msix
  · refine (hx.reg hs fun hm => hne ?_).trans (h.regs off inst hs ho hb)
    have hkey : rkey off inst = cfgStartState_state.off := List.mem_singleton.1 hm
    have hmod := rkey_mod (inst := inst) ho
    rw [hkey] at hmod
    exact hmod.symm

end Sys2Proof.Machine
end

section
/-! PROOFS. What a warm reset keeps and clears (R65, R67, R89). -/

namespace Sys2Proof.Machine

/-- A pass over a list brings about what one of its elements does, where nothing after it undoes it. -/
theorem foldOver_reaches {α : Type} {P Q : State → Prop} {g : α → State → State} {l : List α} {c : α} (hc : c ∈ l) (hQ : ∀ x a, Q a → Q (g x a))
    (hset : ∀ a, Q a → P (g c a)) (hP : ∀ x a, P a → P (g x a)) {s : State} (hs : Q s) : P (foldOver l g s) := by
  induction l generalizing s with
  | nil => exact absurd hc List.not_mem_nil
  | cons x l ih =>
    rcases List.mem_cons.1 hc with rfl | hl
    · exact foldOver_induct hP l (hset s hs)
    · exact ih hl (hQ x s hs)

/-! ### What is left before the cause is shown -/

theorem reg_warmClear {off : Nat} (inst : Nat) (s : State) (ho : off < 0x40000) :
    reg off inst (warmClear s) = if warmKeeps off = true then reg off inst s else regReset (rkey off inst) := by
  refine (sget_sfilter regReset (fun k => warmKeeps (k % 0x40000)) s.fab.regs (rkey off inst)).trans ?_
  rw [rkey_mod ho]
  rfl

theorem rdX_warmClear {f : Fld} {i : Nat} (c : Nat) (s : State) (h : (decide (f.off + i * f.stride < 0x40000) && warmKeeps (f.off + i * f.stride)) = true) :
    rdX f i c (warmClear s) = rdX f i c s := by
  rw [Bool.and_eq_true] at h
  unfold rdX
  rw [reg_warmClear c s (of_decide_eq_true h.1), if_pos h.2]

/-- The triggers' registers. -/
def trigKeys : List Nat := (List.range 8).map (keyOfField timTrigCtl_armed 0)

/-- The time island with its triggers' pulses and its stamps gone. -/
def TimeIsland.disarmed (x : TimeIsland) : TimeIsland :=
  { x with trigs := x.trigs.filterMap (fun (e : Nat × Trig) => if e.2.idx = 0 then none else some (e.1, { e.2 with pulse := none })), txts := [], txGap := [] }

theorem disarmTriggers_changes (s : State) : Changes trigKeys [] { s with tim := s.tim.disarmed } (disarmTriggers s) := by
  unfold disarmTriggers
  exact foldOver_induct_mem (fun c hc a ha => ha.trans (wrC_changes _ _ _ _ (List.mem_map.2 ⟨c, hc, rfl⟩))) (.refl _)

theorem rdX_disarmTriggers {f : Fld} {i c : Nat} (s : State) (h : offsApart timTrigCtl_armed 0 f i = true) :
    rdX f i c (disarmTriggers s) = rdX f i c s := by
  unfold disarmTriggers
  exact foldOver_induct (P := fun a => rdX f i c a = rdX f i c s) (fun d a ha => (rdX_wrX_offs _ _ h).trans ha) _ rfl

/-- The registers of the calibration status. -/
def calKeys : List Nat := (List.range 4).map (fun c => keyOfField lanCalStatus_passes c 0)

theorem warmFields_changes (s : State) :
    Changes (keyOfField pwrRailStatus_rampSlow 0 0 :: keyOfField sysStrapSample_strapChanged 0 0 :: calKeys) [] s (warmFields s) := by
  unfold warmFields
  refine foldOver_induct_mem (fun c hc a ha => ha.trans (wrX_changes _ _ _ _ _ ?_))
    ((wr_changes _ _ _ List.mem_cons_self).trans (wr_changes _ _ _ (List.mem_cons_of_mem _ List.mem_cons_self)))
  exact List.mem_cons_of_mem _ (List.mem_cons_of_mem _ (List.mem_map.2 ⟨c, hc, rfl⟩))

theorem passes_wrX_passes (c d : Nat) (s : State) (h : rdX lanCalStatus_passes c 0 s = 0) :
    rdX lanCalStatus_passes c 0 (wrX lanCalStatus_passes d 0 0 s) = 0 := by
  by_cases he : c = d
  · rw [he]
    exact rdX_wrX_same _ _ _ _ _ (by decide)
  · refine (rdX_wrX_other _ _ (decide_eq_true ⟨by decide, .inl ?_⟩)).trans h
    unfold rkey
    simp only [lanCalStatus_passes]
    omega

/-- No calibration pass is counted any more. -/
theorem passes_warmFields {c : Nat} (s : State) (h : c < 4) : rdX lanCalStatus_passes c 0 (warmFields s) = 0 := by
  unfold warmFields
  exact foldOver_reaches (P := fun a => rdX lanCalStatus_passes c 0 a = 0) (Q := fun _ => True) (List.mem_range.2 h) (fun _ _ _ => trivial)
    (fun a _ => rdX_wrX_same _ _ _ _ _ (by decide)) (fun d a ha => passes_wrX_passes c d a ha) trivial

/-- Fields beside those that a warm reset clears in a register it keeps. -/
theorem rdX_warmFields {f : Fld} {i c : Nat} (s : State) (hcal : ∀ d < 4, fieldsApart lanCalStatus_passes d 0 f i c = true)
    (hstrap : fieldsApart sysStrapSample_strapChanged 0 0 f i c = true) (hramp : fieldsApart pwrRailStatus_rampSlow 0 0 f i c = true) :
    rdX f i c (warmFields s) = rdX f i c s := by
  unfold warmFields
  exact foldOver_induct_mem (P := fun a => rdX f i c a = rdX f i c s)
    (fun d hd a ha => (rdX_wrX_other _ _ (hcal d (List.mem_range.1 hd))).trans ha) ((rdX_wrX_other _ _ hstrap).trans (rdX_wrX_other _ _ hramp))

theorem strapChanged_apart (c : Nat) : fieldsApart lanCalStatus_passes c 0 sysStrapSample_strapChanged 0 0 = true := by
  refine decide_eq_true ⟨by decide, .inl ?_⟩
  unfold rkey
  simp only [lanCalStatus_passes, sysStrapSample_strapChanged]
  omega

theorem cleared_warmFields (s : State) : rd sysStrapSample_strapChanged (warmFields s) = 0 ∧ rd pwrRailStatus_rampSlow (warmFields s) = 0 := by
  unfold warmFields
  constructor
  · exact foldOver_induct (P := fun a => rd sysStrapSample_strapChanged a = 0)
      (fun c a ha => (rdX_wrX_other _ _ (strapChanged_apart c)).trans ha) _ (rd_wr_fits (by decide) (by decide))
  · exact foldOver_induct (P := fun a => rd pwrRailStatus_rampSlow a = 0)
      (fun c a ha => (rdX_wrX_bits _ _ (by decide)).trans ha) _
      ((rd_wr_other _ _ (by decide)).trans (rd_wr_fits (by decide) (by decide)))

/-! ### The reset itself -/

/-- The device as the warm reset has cleared it, before it shows the cause. -/
def warmBase (s : State) : State :=
  { warmFields (disarmTriggers (warmClear s)) with start := { began := s.tim.raw, restart := true } }

/-- The cause and the place in start-up shown. -/
def warmShown (cause : Nat) (s : State) : State :=
  wr tieMeshStatus_roleLive (rd sysStrapSample_role s) (wr bncStatus_state 1 (wr cfgStartState_step 8
    (wr cfgStartState_state (if rd sysStrapSample_bootSrc s = 0 then 0 else 2)
      (wr rstWarmCtl_busy 1 (incX rstCounts_warmResets 0 0 (wr rstResetCause_resetCause cause (warmBase s)))))))

theorem warmReset_eq (cause : Nat) (s : State) : warmReset cause s = resignal (refreshSynce (warmShown cause s)) := rfl

/-- The registers that a warm reset writes after it has cleared the fabric. -/
def warmKeys : List Nat :=
  [keyOfField rstWarmCtl_busy 0 0, keyOfField bncStatus_state 0 0, keyOfField cfgStartState_step 0 0, keyOfField tieMeshStatus_roleLive 0 0,
    keyOfField rstResetCause_resetCause 0 0, keyOfField rstCounts_warmResets 0 0, keyOfField pwrRailStatus_rampSlow 0 0,
    keyOfField sysStrapSample_strapChanged 0 0] ++ calKeys ++ trigKeys

theorem warmBase_changes (s : State) :
    Changes warmKeys [] { warmClear s with tim := s.tim.disarmed, start := { began := s.tim.raw, restart := true } } (warmBase s) :=
  (((disarmTriggers_changes (warmClear s)).mono (js := warmKeys) (ds := []) (by decide) (fun _ h => h)).trans
    ((warmFields_changes (disarmTriggers (warmClear s))).mono (js := warmKeys) (ds := []) (by decide) (fun _ h => h))).with_start
      { began := s.tim.raw, restart := true }

theorem warmShown_changes (cause : Nat) (s : State) : Changes warmKeys [] (warmBase s) (warmShown cause s) :=
  (wr_changes _ _ _ (by decide)).trans ((incX_changes _ _ _ _ (by decide)).trans ((wr_changes _ _ _ (by decide)).trans
    ((wr_changes _ _ _ (by decide)).trans ((wr_changes _ _ _ (by decide)).trans ((wr_changes _ _ _ (by decide)).trans
      (wr_changes _ _ _ (by decide)))))))

/-- Beside the registers it writes, a warm reset leaves what `warmClear` leaves, with the time island's triggers disarmed. -/
theorem warmReset_changes (cause : Nat) (s : State) :
    ∃ x, x.raw = s.tim.raw ∧ Changes warmKeys [] { warmClear s with tim := x, start := { began := s.tim.raw, restart := true } } (warmReset cause s) := by
  have hshown := (warmBase_changes s).trans (warmShown_changes cause s)
  obtain ⟨y, hy⟩ := refreshSynce_only (warmShown cause s)
  have htim : (warmShown cause s).tim = s.tim.disarmed := hshown.tim
  rw [htim] at hy
  exact ⟨{ s.tim.disarmed with squelched := y }, rfl,
    ((hshown.with_tim { s.tim.disarmed with squelched := y }).events hy).events (resignal_onlyEvents _)⟩

end Sys2Proof.Machine
end

section
/-! PROOFS. What a warm reset shows (R65, R67, R89), and the loss of REFCLK_LANE (R75, R140). -/

namespace Sys2Proof.Machine

theorem rdX_warmBase (f : Fld) (i c : Nat) (s : State) : rdX f i c (warmBase s) = rdX f i c (warmFields (disarmTriggers (warmClear s))) :=
  rdX_with_start f i c _ _

theorem rdX_warmReset {f : Fld} {i c : Nat} (cause : Nat) (s : State) (h : ¬ StatKey (keyOfField f i c)) :
    rdX f i c (warmReset cause s) = rdX f i c (warmShown cause s) :=
  ((resignal_onlyEvents (refreshSynce (warmShown cause s))).rdX h).trans (rdX_refreshSynce _ h)

/-- A field outside what the warm reset shows. -/
def outsideWarm (f : Fld) (i : Nat) : Bool :=
  offsApart tieMeshStatus_roleLive 0 f i && offsApart bncStatus_state 0 f i && offsApart cfgStartState_step 0 f i && offsApart cfgStartState_state 0 f i
    && offsApart rstWarmCtl_busy 0 f i && offsApart rstCounts_warmResets 0 f i && offsApart rstResetCause_resetCause 0 f i

theorem rdX_warmShown {f : Fld} {i : Nat} (c cause : Nat) (s : State) (h : outsideWarm f i = true) :
    rdX f i c (warmShown cause s) = rdX f i c (warmFields (disarmTriggers (warmClear s))) := by
  unfold outsideWarm at h
  simp only [Bool.and_eq_true] at h
  obtain ⟨⟨⟨⟨⟨⟨hrole, hbnc⟩, hstep⟩, hstate⟩, hbusy⟩, hcounts⟩, hcause⟩ := h
  unfold warmShown incX wr
  rw [rdX_wrX_offs _ _ hrole, rdX_wrX_offs _ _ hbnc, rdX_wrX_offs _ _ hstep, rdX_wrX_offs _ _ hstate, rdX_wrX_offs _ _ hbusy,
    rdX_wrX_offs _ _ hcounts, rdX_wrX_offs _ _ hcause, rdX_warmBase]

/-- A field of a register that a warm reset keeps, which it does not clear. -/
theorem rdX_warmReset_kept {f : Fld} {i c : Nat} (cause : Nat) (s : State) (h : (outsideWarm f i && offsApart timTrigCtl_armed 0 f i
      && (decide (f.off + i * f.stride < 0x40000) && warmKeeps (f.off + i * f.stride))) = true) (hs : ¬ StatKey (keyOfField f i c))
    (hcal : ∀ d < 4, fieldsApart lanCalStatus_passes d 0 f i c = true)
    (hstrap : fieldsApart sysStrapSample_strapChanged 0 0 f i c = true) (hramp : fieldsApart pwrRailStatus_rampSlow 0 0 f i c = true) :
    rdX f i c (warmReset cause s) = rdX f i c s := by
  rw [Bool.and_eq_true, Bool.and_eq_true] at h
  obtain ⟨⟨hshown, htrig⟩, hkept⟩ := h
  rw [rdX_warmReset cause s hs, rdX_warmShown c cause s hshown, rdX_warmFields _ hcal hstrap hramp, rdX_disarmTriggers _ htrig, rdX_warmClear c s hkept]

theorem warmReset_cause {cause : Nat} (s : State) (h : cause < 16) : rd rstResetCause_resetCause (warmReset cause s) = cause := by
  refine (rdX_warmReset cause s (by decide)).trans ?_
  show rd rstResetCause_resetCause (warmShown cause s) = cause
  unfold warmShown incX
  rw [rd_wr_other _ _ (by decide), rd_wr_other _ _ (by decide), rd_wr_other _ _ (by decide), rd_wr_other _ _ (by decide), rd_wr_other _ _ (by decide)]
  exact (rdX_wrX_offs _ _ (by decide)).trans (rd_wr_fits (by decide) h)

theorem warmReset_busy (cause : Nat) (s : State) : rd rstWarmCtl_busy (warmReset cause s) = 1 := by
  refine (rdX_warmReset cause s (by decide)).trans ?_
  show rd rstWarmCtl_busy (warmShown cause s) = 1
  unfold warmShown
  rw [rd_wr_other _ _ (by decide), rd_wr_other _ _ (by decide), rd_wr_other _ _ (by decide), rd_wr_other _ _ (by decide), rd_wr_fits (by decide) (by decide)]

theorem warmReset_step (cause : Nat) (s : State) : rd cfgStartState_step (warmReset cause s) = 8 := by
  refine (rdX_warmReset cause s (by decide)).trans ?_
  show rd cfgStartState_step (warmShown cause s) = 8
  unfold warmShown
  rw [rd_wr_other _ _ (by decide), rd_wr_other _ _ (by decide), rd_wr_fits (by decide) (by decide)]

theorem warmReset_devState (cause : Nat) (s : State) : devState (warmReset cause s) = if rd sysStrapSample_bootSrc s = 0 then 0 else 2 := by
  refine (rdX_warmReset cause s (by decide)).trans ?_
  show rd cfgStartState_state (warmShown cause s) = _
  unfold warmShown
  rw [rd_wr_other _ _ (by decide), rd_wr_other _ _ (by decide), rd_wr_other _ _ (by decide), rd_wr_fits (by decide) (by split <;> decide)]

theorem warmReset_count (cause : Nat) (s : State) :
    rd rstCounts_warmResets (warmReset cause s) = (rd rstCounts_warmResets s + 1) % 2 ^ rstCounts_warmResets.w := by
  have hbase : rdX rstCounts_warmResets 0 0 (wr rstResetCause_resetCause cause (warmBase s)) = rd rstCounts_warmResets s := by
    refine (rdX_wrX_offs _ _ (by decide)).trans ?_
    rw [rdX_warmBase, rdX_warmFields _ (by decide) (by decide) (by decide), rdX_disarmTriggers _ (by decide), rdX_warmClear 0 s (by decide)]
    rfl
  refine (rdX_warmReset cause s (by decide)).trans ?_
  show rd rstCounts_warmResets (warmShown cause s) = _
  unfold warmShown
  rw [rd_wr_other _ _ (by decide), rd_wr_other _ _ (by decide), rd_wr_other _ _ (by decide), rd_wr_other _ _ (by decide), rd_wr_other _ _ (by decide)]
  refine (rdX_wrX_same _ _ _ _ _ (by decide)).trans ?_
  rw [hbase]

/-- The fields that a warm reset clears in registers it keeps. -/
theorem warmReset_cleared (cause : Nat) (s : State) :
    rd sysStrapSample_strapChanged (warmReset cause s) = 0 ∧ rd pwrRailStatus_rampSlow (warmReset cause s) = 0 :=
  ⟨(rdX_warmReset cause s (by decide)).trans ((rdX_warmShown 0 cause s (by decide)).trans (cleared_warmFields _).1),
    (rdX_warmReset cause s (by decide)).trans ((rdX_warmShown 0 cause s (by decide)).trans (cleared_warmFields _).2)⟩

theorem warmReset_lock {c : Nat} (cause : Nat) (s : State) (h : c < 4) :
    rdX lanCalStatus_passes c 0 (warmReset cause s) = 0 ∧ rdX lanCalStatus_pllLock c 0 (warmReset cause s) = rdX lanCalStatus_pllLock c 0 s := by
  have hcleared : outsideWarm lanCalStatus_passes c = true ∧ ¬ StatKey (keyOfField lanCalStatus_passes c 0) := by
    interval_cases c <;> decide
  refine ⟨?_, ?_⟩
  · exact (rdX_warmReset cause s hcleared.2).trans ((rdX_warmShown 0 cause s hcleared.1).trans (passes_warmFields _ h))
  · have hkept : (outsideWarm lanCalStatus_pllLock c && offsApart timTrigCtl_armed 0 lanCalStatus_pllLock c
        && (decide (lanCalStatus_pllLock.off + c * lanCalStatus_pllLock.stride < 0x40000)
          && warmKeeps (lanCalStatus_pllLock.off + c * lanCalStatus_pllLock.stride))) = true ∧
        fieldsApart sysStrapSample_strapChanged 0 0 lanCalStatus_pllLock c 0 = true ∧
        fieldsApart pwrRailStatus_rampSlow 0 0 lanCalStatus_pllLock c 0 = true := by
      interval_cases c <;> decide
    exact rdX_warmReset_kept cause s hkept.1 hcleared.2 (fun d _ => decide_eq_true ⟨by decide, .inr (by decide)⟩) hkept.2.1 hkept.2.2

/-- The registers that a warm reset does not keep read their reset values. -/
theorem warmReset_regs {off : Nat} (cause inst : Nat) (s : State) (ho : off < 0x40000) (hk : warmKeeps off = false) (hs : ¬ StatKey (rkey off inst))
    (hn : off ∉ [rstWarmCtl_busy.off, bncStatus_state.off, cfgStartState_step.off, tieMeshStatus_roleLive.off, timTrigCtl_armed.off]) :
    reg off inst (warmReset cause s) = regReset (rkey off inst) := by
  have hkeys : ∀ k ∈ warmKeys, warmKeeps (k % 0x40000) = true ∨
      k % 0x40000 ∈ [rstWarmCtl_busy.off, bncStatus_state.off, cfgStartState_step.off, tieMeshStatus_roleLive.off, timTrigCtl_armed.off] := by decide
  obtain ⟨x, -, hx⟩ := warmReset_changes cause s
  refine (hx.reg hs fun hm => ?_).trans ((reg_warmClear inst s ho).trans (if_neg (by rw [hk]; decide)))
  have hmem := hkeys _ hm
  rw [rkey_mod ho] at hmem
  exact hmem.elim (fun h => absurd (hk.symm.trans h) (by decide)) hn

/-- The codes of the blocks whose state-machine records a warm reset keeps. -/
def warmCode (k : Nat) : Bool := k == blockCode .tim || k == blockCode .hif || k == blockCode .hbm

theorem warmCode_iff (b : Block) : warmCode (blockCode b) = true ↔ b ∈ [Block.tim, .hif, .hbm] := by
  cases b <;> decide

/-- The targets of the time island, HIF and HBM stay, with no reset in progress; every other is at reset. -/
theorem warmReset_tgt {x : Target} (cause : Nat) (s : State) (ho : targetOk x = true) :
    tgt x (warmReset cause s) = dropReset (if x.block ∈ [Block.tim, .hif, .hbm] then tgt x s else tgtReset (tgtKey x)) := by
  obtain ⟨y, -, hy⟩ := warmReset_changes cause s
  have hget : sget tgtReset (sfilter (fun k => warmCode (k / 1024)) s.fab.targets) (tgtKey x)
      = if x.block ∈ [Block.tim, .hif, .hbm] then tgt x s else tgtReset (tgtKey x) := by
    rw [sget_sfilter, tgtKey_div ho]
    exact if_congr (warmCode_iff x.block) rfl rfl
  exact (hy.tgt x).trans ((sget_map_dropReset (tgtKey x) _).trans (congrArg dropReset hget))

theorem warmReset_owner {b : Block} (cause : Nat) (s : State) (h : b ≠ .hmk) : (ownerOf b (warmReset cause s)).owner = 0 := by
  obtain ⟨y, -, hy⟩ := warmReset_changes cause s
  unfold ownerOf
  rw [if_neg h, hy.owners]
  rfl

/-! ### The request -/

theorem wordField_or_one_key (v : Word) : wordField (v ||| 1) 8 8 = wordField v 8 8 := by
  unfold wordField bitsOf
  rw [BitVec.toNat_or, Nat.shiftRight_or_distrib, show (1 : Word).toNat >>> 8 = 0 from rfl, Nat.or_zero]

/-- A request for a warm reset: the written word always has go. -/
theorem exec_warmResetRequest {w : Window} {s : State} (ha : Admits w .rst s) (v : Word) :
    exec (.warmResetRequest w v) s = .next (if wordField v 8 8 ≠ 0x5A then accessError w rstWarmCtl_go.off true s else warmRequest 4 s) := by
  refine congrArg Host.Outcome.next ((writing_of_admits ha _).trans ?_)
  unfold warmWrite
  rw [wordField_or_one, wordField_or_one_key, if_neg Nat.one_ne_zero]

theorem warmRequest_of_busy {s : State} (cause : Nat) (h : rd rstWarmCtl_busy s = 1) :
    warmRequest cause s = raise rstWarmIgnored (sat1 rstResetCause_warmIgnored s) := if_pos h

theorem warmRequest_of_idle {s : State} (cause : Nat) (h : rd rstWarmCtl_busy s ≠ 1) :
    warmRequest cause s = if takesWarm s = true then warmReset cause s else s := if_neg h

/-! ### REFCLK_LANE -/

theorem laneUnlock_of_running {l : Nat} {s : State} (h : running ⟨.lan, some l⟩ s = true) :
    laneUnlock l s = beginDrain ⟨.lan, some l⟩ (raiseC lanPllUnlock l s) := by
  have hr : running ⟨.lan, some l⟩ (raiseC lanPllUnlock l s) = true := by
    unfold running
    rw [(raiseC_onlyEvents lanPllUnlock l s).tgt]
    exact h
  exact if_pos hr

theorem laneUnlock_of_resting {l : Nat} {s : State} (h : running ⟨.lan, some l⟩ s = false) : laneUnlock l s = raiseC lanPllUnlock l s := by
  have hr : running ⟨.lan, some l⟩ (raiseC lanPllUnlock l s) = false := by
    unfold running
    rw [(raiseC_onlyEvents lanPllUnlock l s).tgt]
    exact h
  exact if_neg (by rw [hr]; decide)

/-- What becomes of a lane's record: it drains if it ran, and no other record changes. -/
theorem laneUnlock_tgt (l : Nat) (s : State) :
    (∀ x, tgtKey x ≠ tgtKey ⟨.lan, some l⟩ → tgt x (laneUnlock l s) = tgt x s) ∧
      tgt ⟨.lan, some l⟩ (laneUnlock l s) =
        if running ⟨.lan, some l⟩ s = true then { tgt ⟨.lan, some l⟩ s with st := .draining } else tgt ⟨.lan, some l⟩ s := by
  have hevents := (raiseC_onlyEvents lanPllUnlock l s).tgt
  obtain ⟨honly, hrec⟩ := beginDrain_spec ⟨.lan, some l⟩ (raiseC lanPllUnlock l s)
  cases hr : running ⟨.lan, some l⟩ s with
  | true =>
    rw [laneUnlock_of_running hr, hrec, hevents]
    exact ⟨fun x hx => (honly.others x hx).trans (hevents x), rfl⟩
  | false =>
    rw [laneUnlock_of_resting hr]
    exact ⟨fun x _ => hevents x, hevents _⟩

theorem laneUnlock_st (l m : Nat) (s : State) :
    (tgt ⟨.lan, some l⟩ (laneUnlock m s)).st = (tgt ⟨.lan, some l⟩ s).st ∨ (tgt ⟨.lan, some l⟩ (laneUnlock m s)).st = .draining := by
  obtain ⟨hothers, hself⟩ := laneUnlock_tgt m s
  by_cases hk : tgtKey ⟨.lan, some l⟩ = tgtKey ⟨.lan, some m⟩
  · have hsame : ∀ u, tgt ⟨.lan, some l⟩ u = tgt ⟨.lan, some m⟩ u := fun u => by
      unfold tgt
      rw [hk]
    rw [hsame, hsame, hself]
    split
    · exact .inr rfl
    · exact .inl rfl
  · exact .inl (congrArg Tgt.st (hothers _ hk))

/-- Every running lane of the pass drains after it. -/
theorem lanesUnlocked_draining {l : Nat} {ls : List Nat} {s : State} (hl : l ∈ ls) (hr : running ⟨.lan, some l⟩ s = true) :
    (tgt ⟨.lan, some l⟩ (foldOver ls laneUnlock s)).st = .draining := by
  refine foldOver_reaches (P := fun a => (tgt ⟨.lan, some l⟩ a).st = .draining)
    (Q := fun a => running ⟨.lan, some l⟩ a = true ∨ (tgt ⟨.lan, some l⟩ a).st = .draining) hl (fun m a ha => ?_) (fun a ha => ?_)
    (fun m a ha => ?_) (.inl hr)
  · rcases laneUnlock_st l m a with hst | hst
    · unfold running at ha ⊢
      rwa [hst]
    · exact .inr hst
  · obtain ⟨-, hself⟩ := laneUnlock_tgt l a
    rcases ha with ha | ha
    · rw [hself, if_pos ha]
    · rcases laneUnlock_st l l a with hst | hst
      · exact hst.trans ha
      · exact hst
  · exact (laneUnlock_st l m a).elim (fun hst => hst.trans ha) id

/-- A pass over lanes leaves the records of all other targets. -/
theorem lanesUnlocked_others {ls : List Nat} {x : Target} (s : State) (h : ∀ l ∈ ls, tgtKey x ≠ tgtKey ⟨.lan, some l⟩) :
    tgt x (foldOver ls laneUnlock s) = tgt x s :=
  foldOver_induct_mem (P := fun a => tgt x a = tgt x s) (fun l hl a ha => ((laneUnlock_tgt l a).1 x (h l hl)).trans ha) rfl

theorem laneUnlock_asserted {e : Src} (l : Nat) (s : State) (h : Asserted e s) : Asserted e (laneUnlock l s) := by
  have hraised := (raiseC_onlyEvents lanPllUnlock l s).causes e h
  cases hr : running ⟨.lan, some l⟩ s with
  | true =>
    rw [laneUnlock_of_running hr]
    exact (drainEffects_still (Still.refl _)).causes e hraised
  | false =>
    rw [laneUnlock_of_resting hr]
    exact hraised

theorem mem_lanesOf {l c : Nat} {s : State} : l ∈ lanesOf c s ↔ l < 288 ∧ chipletOf l = c ∧ isFused .lan l s = false := by
  unfold lanesOf
  simp

/-- The clock of a chiplet gone: its lock lost and the event raised. -/
def laneClockLost (c : Nat) (s : State) : State :=
  wrX lanCalStatus_pllLock c 0 0 { s with pwr := { s.pwr with laneLost := setBit s.pwr.laneLost c } }

theorem chipletOk_lt {c : Nat} {s : State} (h : chipletOk c s = true) : c < 4 := of_decide_eq_true (Bool.and_eq_true _ _ ▸ h).1

theorem exec_refclkLaneLost {c : Nat} {s : State} (hc : chipletOk c s = true) (hh : s.pwr.hold = .none) (hl : s.pwr.laneLost.testBit c = false) :
    exec (.refclkLaneLost c) s = .next (foldOver (lanesOf c (laneClockLost c s)) laneUnlock (raise (pwrRefclkLaneLost c) (laneClockLost c s))) := by
  refine (guarded_of_true (decide_eq_true (chipletOk_lt hc)) _).trans (congrArg Host.Outcome.next ?_)
  rw [onlyIf_of_true (by rw [hc, hl]; rfl)]
  exact if_pos hh

theorem exec_refclkLaneRestored {c : Nat} {s : State} (hc : chipletOk c s = true) (hh : s.pwr.hold = .none) (hl : s.pwr.laneLost.testBit c = true) :
    exec (.refclkLaneRestored c) s =
      .next (raise (pwrRefclkLaneRestored c) (relock c { s with pwr := { s.pwr with laneLost := clearBit s.pwr.laneLost c } })) := by
  refine (guarded_of_true (decide_eq_true (chipletOk_lt hc)) _).trans (congrArg Host.Outcome.next ?_)
  rw [onlyIf_of_true (by rw [hc, hl]; rfl)]
  exact if_pos hh

theorem relock_spec (c : Nat) (s : State) :
    rdX lanCalStatus_pllLock c 0 (relock c s) =
        (if rdX lanCalStatus_calValid c 0 s = 1 ∨ 5 < rd cfgStartState_step s then 1 else rdX lanCalStatus_pllLock c 0 s) ∧
      Changes [keyOfField lanCalStatus_pllLock c 0] [] s (relock c s) := by
  unfold relock
  split
  · exact ⟨rdX_wrX_fits (by decide) (by decide), (wrX_changes lanCalStatus_calValid _ _ _ _ (List.mem_singleton.2 rfl)).trans
      (wrX_changes _ _ _ _ _ (List.mem_singleton.2 rfl))⟩
  · exact ⟨rfl, .refl s⟩

/-- What the loss of a chiplet's clock leaves of the targets. -/
theorem refclkLaneLost_spec {c : Nat} (s : State) (hc : c < 4) :
    Asserted (pwrRefclkLaneLost c) (foldOver (lanesOf c (laneClockLost c s)) laneUnlock (raise (pwrRefclkLaneLost c) (laneClockLost c s))) ∧
      (∀ l, l < 288 → chipletOf l = c → isFused .lan l s = false → running ⟨.lan, some l⟩ s = true →
        (tgt ⟨.lan, some l⟩ (foldOver (lanesOf c (laneClockLost c s)) laneUnlock (raise (pwrRefclkLaneLost c) (laneClockLost c s)))).st = .draining) ∧
      (∀ x, (∀ l, l < 288 → chipletOf l = c → tgtKey x ≠ tgtKey ⟨.lan, some l⟩) →
        tgt x (foldOver (lanesOf c (laneClockLost c s)) laneUnlock (raise (pwrRefclkLaneLost c) (laneClockLost c s))) = tgt x s) := by
  have hraise : ∀ x, tgt x (raise (pwrRefclkLaneLost c) (laneClockLost c s)) = tgt x s := fun x => (raise_onlyEvents _ _).tgt x
  refine ⟨foldOver_induct (P := fun a => Asserted (pwrRefclkLaneLost c) a) (fun l a ha => laneUnlock_asserted l a ha) _ ?_, ?_, ?_⟩
  · exact raise_asserted _ (show 7 + c < 32 by omega)
  · intro l hl hchip hfused hr
    refine lanesUnlocked_draining (mem_lanesOf.2 ⟨hl, hchip, (isFused_of_variant_eq (s := s) rfl .lan l).trans hfused⟩) ?_
    unfold running
    rw [hraise]
    exact hr
  · exact fun x hx => (lanesUnlocked_others _ fun l hl => hx l (mem_lanesOf.1 hl).1 (mem_lanesOf.1 hl).2.1).trans (hraise x)

/-- Settles O22, by what PERST_N, a warm reset and the loss of a lane clock leave. -/
theorem perstWarmResetAndLaneClocks : Obligations.PerstWarmResetAndLaneClocks := by
  unfold Obligations.PerstWarmResetAndLaneClocks
  refine ⟨fun s hl hh => ?_, fun s t ht => by subst ht; rfl, fun w v s ha hkey => ⟨fun hb => ?_, fun hb ht => ?_, fun hb ht => ?_⟩,
    fun w v s ha hkey hw => ?_, fun c s hc hh => ⟨fun hl => ?_, fun hl => ?_⟩⟩
  · have hreset := endpointReset s
    generalize hu : hifReset (abandonRing (dropResets { s with pwr := { s.pwr with perstLow := true } })) = u at hreset
    obtain ⟨hpwr, hlatch, hboxes, hmsix, htgt, hregs⟩ := perstNAssert_spec hreset
    obtain ⟨hstep, hdev⟩ := reg_step_of_regs (hreset.regs cfgStartState_step.off 0 (by decide) (by decide) (by decide))
    refine ⟨abortLoad u, (exec_perstNAssert hl hh).trans (by rw [hu]), hpwr, hlatch, hboxes, hmsix, htgt, hregs, fun hload h8 hback => ?_, fun hload => ?_⟩
    · rw [abortLoad_of_hostStart (by rw [hreset.start]; exact hload) (hstep.trans h8), hreset.start]
      exact loadAborted_shows u hback
    · rw [abortLoad_of_runTime (by rw [hreset.start]; exact hload), hdev]
      exact loadAborted_shows u (rd_lt cfgStartState_state s)
  · refine ⟨_, (exec_warmResetRequest ha v).trans (by rw [if_neg (not_not.2 hkey), warmRequest_of_busy 4 hb]), raise_asserted _ (by decide), ?_, ?_⟩
    · exact (rd_raise _ _ (by decide)).trans (rd_sat1_same (by decide))
    · exact (sat1_changes _ _ (List.mem_singleton.2 rfl)).events (raise_onlyEvents _ _)
  · rw [exec_warmResetRequest ha, if_neg (not_not.2 hkey), warmRequest_of_idle 4 hb, if_neg (by rw [ht]; decide)]
  · obtain ⟨x, hraw, hch⟩ := warmReset_changes 4 s
    obtain ⟨hstrap, hramp⟩ := warmReset_cleared 4 s
    refine ⟨warmReset 4 s, (exec_warmResetRequest ha v).trans (by rw [if_neg (not_not.2 hkey), warmRequest_of_idle 4 hb, if_pos ht]),
      warmReset_cause s (by decide), warmReset_busy 4 s, warmReset_count 4 s, warmReset_step 4 s, warmReset_devState 4 s,
      fun off inst ho hk hs hn => warmReset_regs 4 inst s ho hk hs hn,
      rdX_warmReset_kept 4 s (by decide) (by decide) (by decide) (by decide) (by decide),
      rdX_warmReset_kept 4 s (by decide) (by decide) (by decide) (by decide) (by decide),
      rdX_warmReset_kept 4 s (by decide) (by decide) (by decide) (by decide) (by decide), hstrap, hramp,
      rdX_warmReset_kept 4 s (by decide) (by decide) (by decide) (by decide) (by decide), fun c hc => warmReset_lock 4 s hc,
      congrArg Firmware.vaultValid hch.fw, fun y ho hn => ?_, fun y ho hm => ?_, fun b hb => warmReset_owner 4 s hb, hch.frames, hch.flow,
      (congrArg TimeIsland.raw hch.tim).trans hraw, (congrArg Touchmark.ring hch.stage :), (congrArg Touchmark.flash hch.stage :),
      (congrArg Firmware.rollback hch.fw :), (congrArg Firmware.ownerValid hch.fw :), (congrArg Firmware.ownerRevoked hch.fw :),
      (congrArg Firmware.ownerHash hch.fw :), fun k => trigOut_of_warm (warmReset_busy 4 s)⟩
    · rw [warmReset_tgt 4 s ho, if_neg hn, dropReset_tgtReset]
    · rw [warmReset_tgt 4 s ho, if_pos hm]
      rfl
  · exact ⟨_, (exec_warmResetRequest ha v).trans (by rw [if_pos hkey]), accessError_asserted _ _ _ hw⟩
  · exact ⟨_, exec_refclkLaneLost hc hh hl, refclkLaneLost_spec s (chipletOk_lt hc)⟩
  · obtain ⟨hlock, hch⟩ := relock_spec c { s with pwr := { s.pwr with laneLost := clearBit s.pwr.laneLost c } }
    have hc4 := chipletOk_lt hc
    have hkey : ¬ StatKey (keyOfField lanCalStatus_pllLock c 0) := by
      interval_cases c <;> decide
    exact ⟨_, exec_refclkLaneRestored hc hh hl, raise_asserted _ (show 11 + c < 32 by omega),
      (rdX_raise _ _ hkey).trans hlock, hch.events (raise_onlyEvents _ _)⟩

end Sys2Proof.Machine
end
